-- ==== Sys2Proof/Word.lean ====
section
/-! DEFINITION. The word types of the machine: registers are 32 bits wide and little-endian (R5), memory
is read and written in bytes, and a register field is a bit range high:low (Table 0.3). -/

namespace Sys2Proof

/-- A 32-bit register value (R5). -/
abbrev Word := BitVec 32

/-- A byte of memory or of a message. -/
abbrev Byte := BitVec 8

/-- A bit field high:low of a register (Table 0.3). -/
structure Fld where
  hi : Nat
  lo : Nat
  deriving DecidableEq, Repr

end Sys2Proof
end

