-- ==== Sys2Proof/Syntax.lean ====
section
/-! DEFINITION. The commands of the block: one constructor of `Instr` per row of spec/opcode_table.json,
and the operand types they carry. A row named by an SCS opcode carries the request as the serving lane
holds it; a row named by a register write carries the writer and the value; a row named by an event
carries the facts of the outside world that the event reports (a measured mean, a verdict of a check sum,
which lane). A timed event's own time condition is what sending the command asserts. -/

namespace Sys2Proof

/-- The two lanes (R22). -/
inductive Lane where
  | E
  | W
  deriving DecidableEq, Repr

def Lane.ix : Lane → Nat
  | .E => 0
  | .W => 1

def Lane.other : Lane → Lane
  | .E => .W
  | .W => .E

/-- The two worlds of a request or writer (R30, R31). -/
inductive World where
  | normal
  | secure
  deriving DecidableEq, Repr

/-- The shared dies, in the order d = 0–5 of FERRY_DIEd_LAST (spec/05). -/
inductive Die where
  | P0
  | P1
  | F0
  | F1
  | FI
  | CMN
  deriving DecidableEq, Repr

def Die.ix : Die → Nat
  | .P0 => 0
  | .P1 => 1
  | .F0 => 2
  | .F1 => 3
  | .FI => 4
  | .CMN => 5

/-- Who sends a request (R181): the mailbox of function `f` (0 the PF), the secure mailbox, remote
session `s`, or entry `i` of the start-up image (R629). -/
inductive Src where
  | func (f : Nat)
  | smb0
  | session (s : Nat)
  | startup (i : Nat)
  | queue (q : Nat)
  deriving DecidableEq, Repr

/-- Who makes a register or memory access in a lane. -/
inductive Initiator where
  | elder
  | secure
  | func (f : Nat)
  deriving DecidableEq, Repr

/-- An SCS request as the serving lane takes it: the header of Table 7.1, the effective payload (the inline
bytes, or the buffer's bytes under BUF_PAYLOAD), the buffer descriptor of Table 7.3 with its unused bytes,
and facts of the outside world: `sigOk` the verdict on the command's signature, tag or nonce arithmetic, `svnOk` the verdict on its security version, `hwFault` a hardware
fault that prevents a query's response (R224). -/
structure Req where
  lane : Lane
  src : Src
  slot : Nat
  flags : Nat
  reqId : Nat
  length : Nat
  target : Nat
  deadline : Nat
  payload : List Byte
  inAddr : Nat
  outAddr : Nat
  outCap : Nat
  padZero : Bool
  sigOk : Bool
  svnOk : Bool
  hwFault : Bool
  deriving DecidableEq, Repr

/-- How the two copies of a frame differ (R149 to R151): not at all, in non-significant fields only, or in a
significant field of a record. -/
inductive FrameDiff where
  | same
  | nonSig
  | sig (record byte : Nat)
  deriving DecidableEq, Repr

/-- A command frame copy arriving at a die: the header of Table 5.4, the verdict of its CRC, and how it
differs from the copy already received for the same cycle. -/
structure FrameCopy where
  die : Die
  lane : Lane
  cycle : Nat
  epoch : Nat
  tcycUs : Nat
  holder : Bool
  crcOk : Bool
  diff : FrameDiff
  deriving DecidableEq, Repr

/-- A session segment (Table 7.7) with the verdict of its GCM tag and its decrypted bytes. -/
structure Segment where
  session : Nat
  seg : Nat
  last : Bool
  msg : Nat
  counter : Nat
  tagOk : Bool
  plain : List Byte
  deriving DecidableEq, Repr

/-- A CAN frame as it stands on a bus (Table 13.3): identifier and its kind, format (0 Classical, 1 FD, 2 XL), the
header bits and XL fields, data, and the count of the Commons stamp counter at its start of frame (R404). -/
structure CanFrame where
  id : Nat
  ext : Bool
  rtr : Bool
  fmt : Nat
  brs : Bool
  esi : Bool
  sec : Bool
  af : Nat
  sdt : Nat
  vcid : Nat
  dlc : Nat
  data : List Byte
  stamp : Nat
  deriving DecidableEq, Repr

/-- What a CAN port in STANDBY or SLEEP sees on its bus (R415): a dominant phase, the wake-up pattern, a correct
frame, or an erroneous one. -/
inductive CanSeen where
  | dominant
  | pattern
  | frame (id : Nat) (ext : Bool) (dlc : Nat) (data : List Byte)
  | badFrame
  deriving DecidableEq, Repr

/-- How a transmission ends without success (R410): arbitration lost, or an error with its code for LEC. -/
inductive CanFail where
  | arbitration
  | error (lec : Nat)
  deriving DecidableEq, Repr

/-- How a LIN frame ends (LIN_FR word 3): the ERR code, 0 for none. -/
structure LinEnd where
  err : Nat
  data : List Byte
  rate : Nat
  parityOk : Bool
  deriving DecidableEq, Repr

/-- An Ethernet frame as it stands at a port: addresses, VLAN identifier and priority (Priority 0 and VID of the port
where it carries no tag), EtherType, IEEE 802.1CB sequence number where it carries an R-TAG, payload, its length on the
wire in bytes, UDP destination port where it is a UDP/IPv6 datagram, and the verdict of MACsec on an uplink (`none`
where it is unprotected). -/
structure EthFrame where
  dst : Nat
  src : Nat
  vid : Nat
  pcp : Nat
  etype : Nat
  rtag : Option Nat
  udp : Option Nat
  len : Nat
  data : List Byte
  macsec : Option Bool
  deriving DecidableEq, Repr


/-- A memory access of a lane after its core's own translation (R530, R531): the initiator by its code in POT_VIOL_SRC (0
to 7 application cores, 8 to 11 real-time pairs, 12 Elder, 13 DMA with its channel), whether it is in M mode, its world
and partition, and the physical address, the direction, the length and the data. -/
structure MemAcc where
  lane : Lane
  init : Nat
  chan : Nat
  mMode : Bool
  world : World
  part : Nat
  write : Bool
  addr : Nat
  len : Nat
  data : List Byte
  deriving DecidableEq, Repr


/-- The commands: one constructor per row of spec/opcode_table.json, in the table's order. -/
inductive Instr where
  | identify (r : Req)
  | laneStatus (r : Req)
  | ping (r : Req)
  | sessionInfo (r : Req)
  | sessionPermit (r : Req)
  | unassignedOpcode (opcode : Nat) (r : Req)
  | pcSet (r : Req)
  | pcConfig (r : Req)
  | pcProfile (r : Req)
  | pcDieConfig (r : Req)
  | pcClear (r : Req)
  | pcStatus (r : Req)
  | pcDieStatus (r : Req)
  | pcSafeState (r : Req)
  | gdSet (r : Req)
  | gdConfig (r : Req)
  | gdClear (r : Req)
  | gdStatus (r : Req)
  | gdSafeState (r : Req)
  | feedConfig (r : Req)
  | feedStatus (r : Req)
  | fcSet (r : Req)
  | fcConfig (r : Req)
  | fcGroupConfig (r : Req)
  | fcDieConfig (r : Req)
  | fcClear (r : Req)
  | fcStatus (r : Req)
  | fcInputs (r : Req)
  | fcDieStatus (r : Req)
  | fcSafeState (r : Req)
  | tideStatus (r : Req)
  | tideSource (r : Req)
  | tideMains (r : Req)
  | tideExt (r : Req)
  | tideTurn (r : Req)
  | tevSet (r : Req)
  | tevClear (r : Req)
  | tevArm (r : Req)
  | tevRead (r : Req)
  | cvcStatus (r : Req)
  | pwmPairConfig (r : Req)
  | pwmRun (r : Req)
  | pwmGuard (r : Req)
  | pwmEnable (r : Req)
  | adcSeqConfig (r : Req)
  | adcRead (r : Req)
  | compConfig (r : Req)
  | nodeConfig (r : Req)
  | nodeCoef (r : Req)
  | nodeState (r : Req)
  | nodeRead (r : Req)
  | refSet (r : Req)
  | canPortConfig (r : Req)
  | canFilterSet (r : Req)
  | canTrxSet (r : Req)
  | canWakeFrame (r : Req)
  | canRecover (r : Req)
  | canStatus (r : Req)
  | canInhMap (r : Req)
  | canSend (r : Req)
  | linConfig (r : Req)
  | linFrame (r : Req)
  | linSchedule (r : Req)
  | linWake (r : Req)
  | linStatus (r : Req)
  | linRead (r : Req)
  | ethStatus (r : Req)
  | ethPortConfig (r : Req)
  | ethGclSet (r : Req)
  | ethStreamSet (r : Req)
  | ethFrerSet (r : Req)
  | ethMacsecSa (r : Req)
  | ethCtrlClass (r : Req)
  | tc10Wake (r : Req)
  | timeStatus (r : Req)
  | timeConfig (r : Req)
  | timeSet (r : Req)
  | timeComp (r : Req)
  | timeCapture (r : Req)
  | harbStatus (r : Req)
  | harbPduDefine (r : Req)
  | harbRouteSet (r : Req)
  | harbEndpoint (r : Req)
  | harbPduSend (r : Req)
  | harbPduRead (r : Req)
  | harbRouteStatus (r : Req)
  | cwWindow (r : Req)
  | cwNodes (r : Req)
  | cwErrors (r : Req)
  | cwFenceAck (r : Req)
  | cwWrite (r : Req)
  | nmsStatus (r : Req)
  | nmsCoveConfig (r : Req)
  | nmsMembers (r : Req)
  | nmsPortCove (r : Req)
  | nmsCurfew (r : Req)
  | nmsKeep (r : Req)
  | nmsWake (r : Req)
  | nmsLog (r : Req)
  | partStatus (r : Req)
  | funcConfig (r : Req)
  | queueConfig (r : Req)
  | replRegion (r : Req)
  | vfQuiesce (r : Req)
  | vfReset (r : Req)
  | vfRemove (r : Req)
  | expertGrant (r : Req)
  | expertRelease (r : Req)
  | dirtySwap (r : Req)
  | pageOwner (r : Req)
  | pairAssign (r : Req)
  | lstepStatus (r : Req)
  | lstepTest (r : Req)
  | straitCopy (r : Req)
  | lhsStatus (r : Req)
  | lhsNonce (r : Req)
  | attest (r : Req)
  | attestKeys (r : Req)
  | keyWrite (r : Req)
  | keyErase (r : Req)
  | worldSet (r : Req)
  | ownSet (r : Req)
  | pmRequest (r : Req)
  | eventConfig (r : Req)
  | eventLog (r : Req)
  | lcTransition (r : Req)
  | debugUnlock (r : Req)
  | keyHashSet (r : Req)
  | keyRevoke (r : Req)
  | lhsConfig (r : Req)
  | updStatus (r : Req)
  | updBegin (r : Req)
  | updChunk (r : Req)
  | updAbort (r : Req)
  | updActivate (r : Req)
  | updConfirm (r : Req)
  | updRevert (r : Req)
  | updRelaySet (r : Req)
  | updConfig (r : Req)
  | resetNonce (r : Req)
  | reset (r : Req)
  | clockStatus (r : Req)
  | resetCause (r : Req)
  | blockReset (r : Req)
  | watchdogSet (r : Req)
  | commonsRestart (r : Req)
  | parStatus (r : Req)
  | parChannel (r : Req)
  | parThermal (r : Req)
  | parResets (r : Req)
  | parSession (r : Req)
  | parConfig (r : Req)
  | parCalSet (r : Req)
  | ferryStatus (r : Req)
  | ferryConfig (r : Req)
  | handover (r : Req)
  | lanePhase (r : Req)
  | laneDisqualify (r : Req)
  | laneRequalify (r : Req)
  | laneResync (r : Req)
  | discrepancyLog (r : Req)
  | quietEnter (r : Req)
  | quietLeave (r : Req)
  | ledgerStatus (r : Req)
  | ledgerConfig (r : Req)
  | ledgerQuota (r : Req)
  | ledgerQuery (r : Req)
  | ledgerRecovered (r : Req)
  | regWrite (l : Lane) (who : Initiator) (addr : Nat) (value : Word)
  | commitWrite (l : Lane) (who : Initiator) (addr : Nat)
  | commitApply (l : Lane) (block : Nat)
  | rstcReqCore (l : Lane) (who : Initiator) (value : Word)
  | rstcReqSys (l : Lane) (who : Initiator) (value : Word)
  | blkrstWrite (l : Lane) (who : Initiator) (mask : Nat)
  | blockResetRelease (l : Lane) (bit : Nat)
  | forceCdWrite (l : Lane) (who : Initiator) (mask : Nat)
  | rstcCmnRestart (l : Lane) (who : Initiator) (value : Word)
  | commonsRestartReport (result : Nat)
  | wdtKick (l : Lane) (n : Nat) (key : Nat) (remain : Nat)
  | watchdogExpiry (l : Lane) (n : Nat)
  | frzPwmHoldClear (l : Lane)
  | ferryCtrlRequest (l : Lane) (who : Initiator) (value : Word)
  | ferryCtrlRelease (l : Lane) (who : Initiator) (value : Word)
  | ferryCtrlResync (l : Lane) (who : Initiator) (value : Word)
  | doorbell (l : Lane) (who : Initiator) (mb : Nat) (slot : Nat)
  | reqSlotWrite (l : Lane) (who : Initiator) (mb : Nat) (slot : Nat) (off : Nat) (value : Word)
  | respAck (l : Lane) (who : Initiator) (mb : Nat) (mask : Nat)
  | cplHeadWrite (l : Lane) (who : Initiator) (mb : Nat) (head : Nat)
  | iovSqDoorbell (l : Lane) (who : Initiator) (f : Nat) (i : Nat) (value : Word)
  | iovCqHeadWrite (l : Lane) (who : Initiator) (f : Nat) (i : Nat) (value : Word)
  | seqSwStart (l : Lane) (who : Initiator) (mask : Nat)
  | canCtlRecover (l : Lane) (who : Initiator) (n : Nat)
  | rxDone (l : Lane) (who : Initiator) (n : Nat)
  | linCtlWake (l : Lane) (who : Initiator) (p : Nat)
  | servoSample (l : Lane) (who : Initiator) (n : Nat) (hi : Word)
  | timeSetGo (l : Lane) (who : Initiator) (n : Nat) (hi : Word)
  | tidePhaseRead (l : Lane)
  | canTsRead (l : Lane) (who : Initiator)
  | timeNowRead (l : Lane) (who : Initiator) (n : Nat)
  | pariCalRead (l : Lane) (hi : Bool)
  | fenceAckWrite (l : Lane) (who : Initiator) (win : Nat)
  | cwErrHeadWrite (l : Lane) (who : Initiator) (head : Nat)
  | potUpdateGo (l : Lane) (who : Initiator) (value : Word)
  | lstpInjectWrite (l : Lane) (who : Initiator) (value : Word)
  | lhsPmreqWrite (l : Lane) (who : Initiator) (value : Word)
  | memAccess (a : MemAcc)
  | cwAccessRead (l : Lane) (who : Initiator) (addr : Nat) (size : Nat)
  | cwAccessWrite (l : Lane) (who : Initiator) (addr : Nat) (size : Nat) (data : List Byte)
  | cwResponse (l : Lane) (node : Nat) (ty : Nat) (win : Nat) (seq : Nat) (status : Nat) (data : List Byte) (crcOk : Bool)
  | cwTimeout (l : Lane) (win : Nat) (seq : Nat)
  | cwStallTimeout (win : Nat) (k : Nat)
  | prefetchExpiry (l : Lane) (win : Nat)
  | discoverTimer
  | capsReceived (node : Nat) (port : Option Nat) (addr : List Word) (ranges : List (Nat × Nat × Bool)) (crc : Word) (crcOk : Bool)
  | nodeLost (i : Nat)
  | powerOn (feed : Nat) (test : Bool)
  | vkeepInputChange (l : Lane) (mv : Int)
  | laneSupplyLow (l : Lane) (low : Bool)
  | lanePor (l : Lane) (on : Bool) (straps : Nat)
  | supplyWarning (l : Lane)
  | xtalOk (l : Lane)
  | xtalFail (l : Lane)
  | clkGood (l : Lane) (n count : Nat)
  | clkFail (l : Lane) (n : Nat)
  | elderReleased (l : Lane) (badSlots : Nat)
  | clockMonitorFault (l : Lane) (n count : Nat)
  | eccError (l : Lane) (struct_ : Nat) (double : Bool)
  | lockstepMismatch (l : Lane) (pair : Nat) (window : Nat)
  | lockstepBreak (l : Lane) (pair : Nat) (attached : Bool)
  | junctionThreshold (loc : Nat) (temp : Int)
  | thermalShutdown (loc : Nat) (temp : Int)
  | resetNAssert
  | resetNRelease
  | resetMessage (l : Lane)
  | signedResetAssert (l : Lane)
  | freezeEntry
  | freezeThaw
  | cycleBoundary (tcycUs : Nat)
  | frameSeal (overrun : Bool) (imageBytes : Nat)
  | stateImageReceived (crcOk : Bool) (inTime : Bool) (xlateOk : Bool)
  | serviceDelayExpiry
  | heartbeat (l : Lane)
  | straitLost (l : Lane)
  | laneLostNotice (l : Lane) (epoch : Nat) (cycle : Nat)
  | watermark (stream : Nat) (reqId : Nat)
  | leaseRequest (l : Lane) (epoch : Nat)
  | leaseGrant (l : Lane)
  | leaseRenew (l : Lane) (leaseUs : Nat)
  | leaseAck (l : Lane)
  | renewMissed (l : Lane)
  | leaseRelease (l : Lane)
  | laneDown (l : Lane)
  | leaseValidEnd (l : Lane)
  | arbiterLeaseExpiry
  | frameCopyArrival (c : FrameCopy)
  | acceptanceWindowClose (d : Die)
  | statusFrame (d : Die) (l : Lane)
  | commonsMismatch (passE : Bool) (passW : Bool)
  | commonsSafeState
  | bootVerified (l : Lane) (fail1 : Nat) (fail2 : Nat) (keyIdx : Nat) (lost : List Nat)
  | applicationVerified (l : Lane) (img : Nat) (bank : Nat) (ok : Bool) (hash : List Byte)
  | ledgerAccept (opcode : Nat) (r : Req)
  | entryStart (lsn : Nat)
  | entryDisposed (lsn : Nat) (disp : Nat) (err : Nat)
  | completionReport (lsn : Nat)
  | entryFree (lsn : Nat)
  | dedupExpiry
  | ledgerRebuild (rtcLost : Bool) (lossAt : Nat)
  | unclaimedTimeout (lsn : Nat)
  | sessionSegment (g : Segment)
  | sessionOpen (n : Nat) (counter : Nat) (tagOk : Bool) (nonce : List Byte)
  | sessionClose (n : Nat)
  | sessionIdleTimeout (n : Nat)
  | reassemblyTimeout (n : Nat) (msg : Nat)
  | urgentCommand (d : Die)
  | safeLineAssert (l : Lane) (d : Nat)
  | currentWindow (d x : Nat) (mean vsrc : Int) (vgs : Nat)
  | ilimReached (d x : Nat)
  | softwareTrip (d x : Nat)
  | thermalReading (d x : Nat) (tj caseT : Int)
  | wireModelUpdate (d x : Nat)
  | clampEventEnd (d x energy : Nat)
  | clampOver (d x energy : Nat)
  | freewheelMissing (d x : Nat)
  | retryDelayExpiry (d x : Nat)
  | retryReloadTimer (d x : Nat)
  | blankEnd (d x : Nat)
  | pcPwmPeriodStart (d x : Nat)
  | scheduledSwitch (d : Die) (x : Nat)
  | lateSwitch (d : Die) (x : Nat)
  | undercurrent (d x : Nat)
  | openOff (d x : Nat) (present : Bool)
  | shortFeed (d x : Nat) (present : Bool)
  | conductionEstimate (d : Nat)
  | keepaliveTimeout (d : Die)
  | failAction (d : Die)
  | dieRestart (d : Die) (up : Bool)
  | feedWarning (f : Nat) (v : Int)
  | feedWarningRelease (f : Nat) (v : Int)
  | diagResume (f : Nat)
  | holdFalling (f : Nat) (v : Int)
  | holdRising (f : Nat) (v : Int)
  | crankWindowExpiry (f : Nat)
  | cutCrossing (f : Nat) (v : Int)
  | feedRecovery (f : Nat) (v : Int)
  | recoveryLost (f : Nat) (v : Int)
  | restoreSlot (f : Nat)
  | feedHighSet (f : Nat) (v : Int)
  | feedHighClear (f : Nat) (v : Int)
  | ldDeferTimeout (d x : Nat)
  | feedOvSet (f : Nat) (v : Int)
  | feedOvClear (f : Nat) (v : Int)
  | reverseSet (f : Nat) (v : Int)
  | reverseClear (f : Nat) (v : Int)
  | feedClassMismatch (f : Nat) (v : Int)
  | gdOcTrip (d x : Nat)
  | prechargeComplete (d x : Nat) (vsrc drain : Int)
  | prechargeTimeout (d x : Nat)
  | senseOpen (d x : Nat) (present : Bool)
  | fieldInputSample (d m : Nat) (active ovr hot : Bool) (val : Word)
  | wettingPulse (d k acts : Nat) (vals : List Word)
  | fcOutputEvaluation (d m : Nat) (val : Word) (temp : Int) (clampE : Option Nat)
  | fcOverload (d m : Nat)
  | fcPwmPeriodStart (d m : Nat)
  | ainConversion (d m raw : Nat) (hot : Bool)
  | fcOpenWire (d m : Nat) (present : Bool)
  | captureEdge (d m : Nat) (rising : Bool) (t : Nat)
  | pilotEdge (d m : Nat) (rising : Bool) (t : Nat) (plateau : Int)
  | pilotStateChange (d m : Nat) (dc : Int)
  | pilotOscTimeout (d m : Nat) (dc : Int)
  | dissipationEstimate (d : Nat)
  | fieldSupplyWarning (d : Nat) (v : Int) (resumed : Bool)
  | fieldHoldCrossing (d : Nat) (v : Int)
  | fieldRecovery (d : Nat) (v : Int)
  | supplyLost
  | barrierRestart
  | fieldWake (d m : Nat)
  | tideEventFire (l : Lane) (i delay : Nat)
  | turnStart (l : Lane)
  | mpllUpdate (l : Lane) (va vb vc : Int)
  | mainsLost (l : Lane)
  | extPulse (l : Lane) (ch t : Nat)
  | extMiss (l : Lane)
  | holdoverExpiry (l : Lane)
  | tideSync (l : Lane) (err : Int) (missed : Bool)
  | pwmPeriodBoundary (l : Lane) (k : Nat)
  | triggerPosition (l : Lane) (k : Nat) (b : Bool)
  | adcGroupComplete (l : Lane) (q : Nat) (codes : List Nat)
  | nodeExecute (l : Lane) (i : Nat)
  | comparatorAssert (l : Lane) (c : Nat) (out : Bool)
  | tripInputAssert (t : Nat) (on : Bool)
  | selectorSwitch (k : Nat)
  | streamEnd (l : Lane)
  | safePatternTimeout (k : Nat)
  | canFrameReceived (n : Nat) (f : CanFrame) (rec : Nat)
  | canFrameQueued (n : Nat) (l : Lane) (seq : Nat) (differs : Bool)
  | canTxDone (n : Nat) (stamp : Nat) (tec : Nat)
  | canTxError (n : Nat) (why : CanFail) (tec rec : Nat)
  | busOffRecovered (n : Nat)
  | canWake (n : Nat) (seen : CanSeen)
  | canPhyFault (n : Nat) (fault : Bool)
  | dominantTimeout (n : Nat) (clamped : Bool)
  | linSlot (p : Nat)
  | linResponse (p : Nat) (pid : Nat) (e : LinEnd)
  | linInactivitySleep (p : Nat)
  | linWakeDetect (p : Nat)
  | ethFrameIngress (p : Nat) (f : EthFrame)
  | ethFrameEgress (p : Nat) (id : Nat)
  | laneFrameSubmit (l : Lane)
  | gclEntry (p : Nat)
  | ethLinkChange (p : Nat) (up : Bool)
  | ethPhyFault (p : Nat) (fault : Bool)
  | frerResetTimeout (i : Nat)
  | ethWake (p : Nat)
  | tc10SleepRequest (p : Nat)
  | servoTimer (n : Nat)
  | timeHoldover (n : Nat)
  | xcapCapture (n : Nat)
  | pduArrival (l : Lane)
  | timerMark (l : Lane) (stamp : Nat)
  | pduSend (l : Lane) (i : Nat)
  | minGapExpiry (l : Lane) (i : Nat)
  | autoIdleTimeout (c : Nat)
  | ringStart (c : Nat)
  | ringMessage (c : Nat) (q : Nat) (ty : Nat) (ring : Nat) (pos : Nat) (src : Nat) (reason : Nat) (crcOk : Bool)
  | hopTimeout (c : Nat)
  | ringRetry (c : Nat)
  | duskEvent (c : Nat) (frame : Option (Bool × Nat))
  | duskExpiry (c : Nat)
  | finalComplete (c : Nat)
  | coveWake (c : Nat)
  | wakingComplete (c : Nat)
  | moduleSleep
  | moduleWake
  | descriptorTake (l : Lane) (q : Nat)
  | rxSteer (l : Lane)
  | quiesceTimeout (l : Lane) (f : Nat)
  | tamperEvent (l : Option Lane) (sensor : Nat)
  | ownerReleaseDone (l : Lane) (target : Nat)
  | confirmTimeout
  | bankCopyDone (l : Lane) (ok : Bool)
  | parishFlush (l : Lane)
  | parishSecond (l : Lane) (temp : Int)
  | calSync
  | commandLinkClockLoss (d : Die) (l : Lane)
  | tideSlewComplete (l : Lane)
  | cwNodeHeartbeat (node : Nat) (crcOk : Bool)
  | potUpdateDone (l : Lane)
  | straitCopyDone (lsn : Nat)
  | stagingVerifyDone (ok : Bool)
  | norEraseDone (ok : Bool)
  | fuseBurnDone (lsn : Nat) (ok : Bool)
  | keyStoreOpDone
  | attestReportDone (lsn : Nat)
  | coreResetRelease (l : Lane)
  | coreWfiRetention (l : Lane) (core : Nat)
  | alwaysOnPowerLoss
  | queryDeadlineExpiry (r : Req)
  deriving DecidableEq, Repr

end Sys2Proof
end

