-- ==== Sys2Proof/Machine/Frac.lean ====
section
/-! DEFINITION. Exact fractions, for the estimates whose formulas the spec gives over real numbers (the wire
model of R243, the conduction figure of R91, the mains PLL). A fraction is kept in lowest terms with a
positive denominator. -/

namespace Sys2Proof.Machine

structure Frac where
  num : Int
  den : Nat
  deriving DecidableEq, Repr, Inhabited

namespace Frac

/-- The fraction in lowest terms. -/
def mk' (n : Int) (d : Nat) : Frac :=
  let g := Nat.gcd n.natAbs d
  if g = 0 then ⟨0, 1⟩ else ⟨n / (g : Int), d / g⟩

def zero : Frac := ⟨0, 1⟩
def ofInt (n : Int) : Frac := ⟨n, 1⟩
def add (a b : Frac) : Frac := mk' (a.num * b.den + b.num * a.den) (a.den * b.den)
def sub (a b : Frac) : Frac := mk' (a.num * b.den - b.num * a.den) (a.den * b.den)
def mul (a b : Frac) : Frac := mk' (a.num * b.num) (a.den * b.den)
/-- Division by a positive number. -/
def divN (a : Frac) (n : Nat) : Frac := mk' a.num (a.den * n)
/-- Division; by zero it gives zero, and no meaning divides by zero. -/
def div (a b : Frac) : Frac :=
  if b.num = 0 then zero
  else mk' (a.num * b.den * (if b.num < 0 then -1 else 1)) (a.den * b.num.natAbs)
def neg (a : Frac) : Frac := ⟨-a.num, a.den⟩
def abs (a : Frac) : Frac := ⟨a.num.natAbs, a.den⟩
def min (a b : Frac) : Frac := if decide (a.num * b.den ≤ b.num * a.den) then a else b
def max (a b : Frac) : Frac := if decide (a.num * b.den ≤ b.num * a.den) then b else a
def sum (xs : List Frac) : Frac := xs.foldl add zero
def le (a b : Frac) : Bool := decide (a.num * b.den ≤ b.num * a.den)
def lt (a b : Frac) : Bool := decide (a.num * b.den < b.num * a.den)
/-- The integer at or below a fraction. -/
def floor (a : Frac) : Int := a.num / (a.den : Int)
/-- Its floor as a field value that saturates at all ones; a negative one gives 0. -/
def sat (bits : Nat) (a : Frac) : Nat := Nat.min (a.floor.toNat) (2 ^ bits - 1)

end Frac

end Sys2Proof.Machine
end

