-- ==== Sys2Proof/Config.lean ====
section
/-! DEFINITION. What an implementation fixes and the spec leaves open, as opaque constants: no proof can see
a value of one, so a statement holds whatever they are. A free value is one of the `free` functions
applied to the state's counter `freeCtr` (and to the operands it depends on). -/

namespace Sys2Proof

/-- A value the spec leaves open, fresh for each counter value. -/
opaque Config.freeWord : Nat → BitVec 32

/-- A number the spec leaves open, fresh for each counter value. -/
opaque Config.freeNat : Nat → Nat

/-- Byte `i` of a byte string the spec leaves open (a nonce, a ciphertext), fresh for each counter. -/
opaque Config.freeByte : Nat → Nat → BitVec 8

/-- The CRC-16 of a duplicate record (R184); the spec gives no polynomial. -/
opaque Config.crc16 : List (BitVec 8) → BitVec 16

/-- Byte `i` of the module identity UID in OTP (Table 7.11). -/
opaque Config.uid : Nat → BitVec 8

/-- Version word of the Elder firmware that runs in a lane, as it reports it (Table 7.11). -/
opaque Config.fwVersion : Nat → BitVec 32

/-! The mains PLL of R334 computes with real functions; the spec gives no precision for them, so they are
opaque functions on exact fractions. -/

opaque Config.sinF : Machine.Frac → Machine.Frac
opaque Config.cosF : Machine.Frac → Machine.Frac
opaque Config.asinF : Machine.Frac → Machine.Frac
opaque Config.sqrtF : Machine.Frac → Machine.Frac

/-- Half a turn in radians. -/
opaque Config.piF : Machine.Frac

/-- sqrt(3) of the Clarke transform. -/
opaque Config.sqrt3F : Machine.Frac

/-- The second-order generalised integrator of R334, of which the spec gives the gain only: its next pair from
the sample, the frequency and its present pair. -/
opaque Config.sogiF : Machine.Frac → Machine.Frac → Machine.Frac → Machine.Frac → Machine.Frac × Machine.Frac

/-- Whether a lattice sum that lies halfway between two results is rounded up (R383 gives no rule). -/
opaque Config.halfUp : Int → Bool

/-- Whether the servo's frequency is rounded up to its resolution of 2^−10 ppb (R446 and R449 give no rule). -/
opaque Config.freqUp : Machine.Frac → Bool

/-- Sine of the phase error at amplitude zero, where R334 divides by zero. -/
opaque Config.vqAtZero : Nat → Machine.Frac

/-- MAC address that a datagram to an IPv6 address (as a number) and VLAN is sent to; the spec gives no neighbour
discovery. -/
opaque Config.macOf : Nat → Nat → Nat

/-- MAC address of the module's engines. -/
opaque Config.ownMac : Nat

/-- Bytes of a lane's attestation public keys and certificate, and the certificate's length (R566). -/
opaque Config.attestByte : Nat → Nat → BitVec 8
opaque Config.certLen : Nat → Nat

end Sys2Proof
end

