-- ==== Sys2Proof/Machine/RegNames.lean ====
section
/-! DEFINITION. The register names of the spec: `R.<BLOCK>_<NAME>` is the address of a register (its
block base of Table 1.5 plus its offset, R6), its instance letters as arguments; `F.<REGISTER>_<FIELD>`
is a field's bit range. Names carry no instance letters: PCH_CFGm is `R.PCH_CFG d m`, with `d` the die
region of the block (0 for P0 or F0, 1 for P1 or F1, 2 for FI). A register given as several words has
one name per word (`_W0`) or a word index `w` as its last argument. -/

namespace Sys2Proof.Machine


/-! ### RSTC (spec/04_reset_clocks_and_freeze.md) -/
def R.RSTC_RST_CAUSE : Nat := 0xE0000000
def F.RSTC_RST_CAUSE_CAUSE : Fld := ⟨7, 0⟩
def F.RSTC_RST_CAUSE_LEVEL : Fld := ⟨9, 8⟩
def F.RSTC_RST_CAUSE_MERGED : Fld := ⟨16, 16⟩
def F.RSTC_RST_CAUSE_DETAIL : Fld := ⟨31, 24⟩
def R.RSTC_STATUS : Nat := 0xE0000004
def F.RSTC_STATUS_FROZEN : Fld := ⟨0, 0⟩
def F.RSTC_STATUS_FRZ_PWM_HOLD : Fld := ⟨1, 1⟩
def F.RSTC_STATUS_CLK_FAIL_ANY : Fld := ⟨2, 2⟩
def F.RSTC_STATUS_SUSPECT_ANY : Fld := ⟨3, 3⟩
def F.RSTC_STATUS_XTAL_FAIL : Fld := ⟨4, 4⟩
def F.RSTC_STATUS_RESET_DEFERRED : Fld := ⟨5, 5⟩
def R.RSTC_REQ : Nat := 0xE0000008
def F.RSTC_REQ_LEVEL : Fld := ⟨1, 0⟩
def F.RSTC_REQ_KEY : Fld := ⟨31, 16⟩
def R.RSTC_BLKRST : Nat := 0xE0000010
def F.RSTC_BLKRST_TIDE : Fld := ⟨0, 0⟩
def F.RSTC_BLKRST_CVC : Fld := ⟨1, 1⟩
def F.RSTC_BLKRST_HARB : Fld := ⟨2, 2⟩
def F.RSTC_BLKRST_CWY : Fld := ⟨3, 3⟩
def F.RSTC_BLKRST_IOV : Fld := ⟨4, 4⟩
def F.RSTC_BLKRST_UPD : Fld := ⟨5, 5⟩
def F.RSTC_BLKRST_PCH_PORT : Fld := ⟨8, 8⟩
def F.RSTC_BLKRST_GDR_PORT : Fld := ⟨9, 9⟩
def F.RSTC_BLKRST_FCH_PORT : Fld := ⟨10, 10⟩
def F.RSTC_BLKRST_CMN_PORT : Fld := ⟨11, 11⟩
def R.RSTC_FORCE : Nat := 0xE0000014
def F.RSTC_FORCE_FORCE_CD : Fld := ⟨7, 1⟩
def R.RSTC_SUSPECT : Nat := 0xE0000018
def F.RSTC_SUSPECT_SUSPECT_BLK : Fld := ⟨11, 0⟩
def F.RSTC_SUSPECT_SUSPECT_OTHER : Fld := ⟨16, 16⟩
def R.RSTC_CMN : Nat := 0xE000001C
def F.RSTC_CMN_RESTART : Fld := ⟨0, 0⟩
def F.RSTC_CMN_KEY : Fld := ⟨31, 16⟩
def R.RSTC_WDT_CFG (n : Nat) : Nat := 0xE0000100 + 0x10 * n
def F.RSTC_WDT_CFG_EN : Fld := ⟨0, 0⟩
def F.RSTC_WDT_CFG_LEVEL : Fld := ⟨1, 1⟩
def F.RSTC_WDT_CFG_CLOSED : Fld := ⟨11, 4⟩
def F.RSTC_WDT_CFG_PERIOD_M1 : Fld := ⟨31, 16⟩
def R.RSTC_WDT_KICK (n : Nat) : Nat := 0xE0000104 + 0x10 * n
def F.RSTC_WDT_KICK_KEY : Fld := ⟨15, 0⟩
def R.RSTC_WDT_CNT (n : Nat) : Nat := 0xE0000108 + 0x10 * n
def F.RSTC_WDT_CNT_REMAIN : Fld := ⟨15, 0⟩

/-! ### CLKC (spec/04_reset_clocks_and_freeze.md) -/
def R.CLKC_XTAL_STAT : Nat := 0xE0100000
def F.CLKC_XTAL_STAT_XTAL_OK : Fld := ⟨0, 0⟩
def F.CLKC_XTAL_STAT_XTAL_FAIL : Fld := ⟨1, 1⟩
def R.CLKC_DOM_STAT (n : Nat) : Nat := 0xE0100100 + 0x10 * n
def F.CLKC_DOM_STAT_CLK_GOOD : Fld := ⟨0, 0⟩
def F.CLKC_DOM_STAT_CLK_FAIL : Fld := ⟨1, 1⟩
def F.CLKC_DOM_STAT_LOCK : Fld := ⟨2, 2⟩
def F.CLKC_DOM_STAT_FREQ_ERR : Fld := ⟨3, 3⟩
def F.CLKC_DOM_STAT_GATED : Fld := ⟨4, 4⟩
def F.CLKC_DOM_STAT_FRZ_STOPPED : Fld := ⟨5, 5⟩
def F.CLKC_DOM_STAT_REDUCED : Fld := ⟨6, 6⟩
def F.CLKC_DOM_STAT_COUNT : Fld := ⟨31, 16⟩

/-! ### FERRY (spec/05_lanes_and_ferry.md) -/
def R.FERRY_CFG : Nat := 0xE0300000
def F.FERRY_CFG_LEASE_US : Fld := ⟨15, 0⟩
def F.FERRY_CFG_DISC_LIMIT_M1 : Fld := ⟨19, 16⟩
def R.FERRY_PHASE_CFG : Nat := 0xE0300004
def F.FERRY_PHASE_CFG_SERVICE_DELAY_M1 : Fld := ⟨15, 0⟩
def F.FERRY_PHASE_CFG_AUTO_SERVICE : Fld := ⟨16, 16⟩
def R.FERRY_COMMIT : Nat := 0xE0300008
def R.FERRY_CTRL : Nat := 0xE030000C
def F.FERRY_CTRL_REQUEST : Fld := ⟨0, 0⟩
def F.FERRY_CTRL_RELEASE : Fld := ⟨1, 1⟩
def F.FERRY_CTRL_RESYNC : Fld := ⟨2, 2⟩
def F.FERRY_CTRL_KEY : Fld := ⟨31, 16⟩
def R.FERRY_LANE : Nat := 0xE0300010
def F.FERRY_LANE_OWN_STATE : Fld := ⟨2, 0⟩
def F.FERRY_LANE_OTHER_STATE : Fld := ⟨6, 4⟩
def F.FERRY_LANE_OWN_LANE : Fld := ⟨8, 8⟩
def F.FERRY_LANE_HOME : Fld := ⟨9, 9⟩
def F.FERRY_LANE_HOLDER_LANE : Fld := ⟨10, 10⟩
def F.FERRY_LANE_HELD : Fld := ⟨11, 11⟩
def F.FERRY_LANE_MODE : Fld := ⟨13, 12⟩
def F.FERRY_LANE_PHASE : Fld := ⟨15, 14⟩
def F.FERRY_LANE_LEASE_VALID : Fld := ⟨16, 16⟩
def F.FERRY_LANE_STRAIT_UP : Fld := ⟨17, 17⟩
def R.FERRY_STATUS : Nat := 0xE0300014
def F.FERRY_STATUS_CMN_MISMATCH : Fld := ⟨0, 0⟩
def F.FERRY_STATUS_CYCLE_OVERRUN : Fld := ⟨1, 1⟩
def F.FERRY_STATUS_IMAGE_OVERFLOW : Fld := ⟨2, 2⟩
def F.FERRY_STATUS_IMAGE_CRC : Fld := ⟨3, 3⟩
def F.FERRY_STATUS_DISCREPANCY : Fld := ⟨4, 4⟩
def F.FERRY_STATUS_LEASE_CONFLICT : Fld := ⟨5, 5⟩
def F.FERRY_STATUS_RENEW_MISSED : Fld := ⟨6, 6⟩
def F.FERRY_STATUS_STRAIT_LOST : Fld := ⟨7, 7⟩
def F.FERRY_STATUS_SINGLE_ENTERED : Fld := ⟨8, 8⟩
def F.FERRY_STATUS_DISQ_BY_LIMIT : Fld := ⟨9, 9⟩
def F.FERRY_STATUS_TAKEBACK : Fld := ⟨10, 10⟩
def F.FERRY_STATUS_CFG_INCONSISTENT : Fld := ⟨11, 11⟩
def F.FERRY_STATUS_TIDE_SLIP : Fld := ⟨12, 12⟩
def F.FERRY_STATUS_QUIET : Fld := ⟨13, 13⟩
def R.FERRY_EPOCH : Nat := 0xE0300018
def F.FERRY_EPOCH_EPOCH : Fld := ⟨31, 0⟩
def R.FERRY_CYCLE : Nat := 0xE030001C
def F.FERRY_CYCLE_CYCLE : Fld := ⟨31, 0⟩
def R.FERRY_IMAGE : Nat := 0xE0300020
def F.FERRY_IMAGE_LAST_BYTES : Fld := ⟨18, 0⟩
def R.FERRY_IMAGE_MAX : Nat := 0xE0300024
def F.FERRY_IMAGE_MAX_MAX_BYTES : Fld := ⟨18, 0⟩
def F.FERRY_IMAGE_MAX_CLR : Fld := ⟨31, 31⟩
def R.FERRY_REPL : Nat := 0xE0300028
def F.FERRY_REPL_REPL_PAGES : Fld := ⟨14, 0⟩
def F.FERRY_REPL_SNAP_LEFT : Fld := ⟨30, 16⟩
def R.FERRY_ARB : Nat := 0xE0300040
def F.FERRY_ARB_HELD : Fld := ⟨0, 0⟩
def F.FERRY_ARB_HOLDER : Fld := ⟨1, 1⟩
def F.FERRY_ARB_REQ_E : Fld := ⟨2, 2⟩
def F.FERRY_ARB_REQ_W : Fld := ⟨3, 3⟩
def F.FERRY_ARB_DOWN_E : Fld := ⟨4, 4⟩
def F.FERRY_ARB_DOWN_W : Fld := ⟨5, 5⟩
def F.FERRY_ARB_REMAIN_US : Fld := ⟨31, 16⟩
def R.FERRY_CNT (n : Nat) : Nat := 0xE0300080 + 0x4 * n
def F.FERRY_CNT_COUNT : Fld := ⟨31, 0⟩
def R.FERRY_DIE_LAST (d : Nat) : Nat := 0xE0300100 + 0x10 * d
def F.FERRY_DIE_LAST_LAST_CYCLE : Fld := ⟨31, 0⟩
def R.FERRY_DIE_SRC (d : Nat) : Nat := 0xE0300104 + 0x10 * d
def F.FERRY_DIE_SRC_SRC_LANE : Fld := ⟨0, 0⟩
def F.FERRY_DIE_SRC_FROM_HOLDER : Fld := ⟨1, 1⟩
def F.FERRY_DIE_SRC_COMPARED : Fld := ⟨2, 2⟩
def F.FERRY_DIE_SRC_WINDOW_CLOSED : Fld := ⟨3, 3⟩

/-! ### LEDG (spec/06_ledger.md) -/
def R.LEDG_CFG : Nat := 0xE0400000
def F.LEDG_CFG_RESERVE : Fld := ⟨13, 0⟩
def F.LEDG_CFG_DEDUP_S_M1 : Fld := ⟨25, 16⟩
def R.LEDG_NODL : Nat := 0xE0400004
def F.LEDG_NODL_NODL_MS_M1 : Fld := ⟨21, 0⟩
def F.LEDG_NODL_NODL_UNLIMITED : Fld := ⟨31, 31⟩
def R.LEDG_COMMIT : Nat := 0xE0400008
def R.LEDG_STATUS : Nat := 0xE040000C
def F.LEDG_STATUS_IN_FLIGHT : Fld := ⟨15, 0⟩
def F.LEDG_STATUS_MIRRORED : Fld := ⟨16, 16⟩
def F.LEDG_STATUS_PERSIST_WAIT : Fld := ⟨17, 17⟩
def F.LEDG_STATUS_RECOVERING : Fld := ⟨18, 18⟩
def F.LEDG_STATUS_RTC_LOST : Fld := ⟨19, 19⟩
def F.LEDG_STATUS_CFG_INCONSISTENT : Fld := ⟨20, 20⟩
def F.LEDG_STATUS_FULL_SEEN : Fld := ⟨21, 21⟩
def F.LEDG_STATUS_DEDUP_FULL_SEEN : Fld := ⟨22, 22⟩
def R.LEDG_LSN_LO : Nat := 0xE0400010
def F.LEDG_LSN_LO_NEXT_LSN_LO : Fld := ⟨31, 0⟩
def R.LEDG_LSN_HI : Nat := 0xE0400014
def F.LEDG_LSN_HI_NEXT_LSN_HI : Fld := ⟨15, 0⟩
def R.LEDG_FREE : Nat := 0xE0400018
def F.LEDG_FREE_FREE : Fld := ⟨15, 0⟩
def R.LEDG_DEDUP : Nat := 0xE040001C
def F.LEDG_DEDUP_FILL : Fld := ⟨16, 0⟩
def R.LEDG_CNT (n : Nat) : Nat := 0xE0400100 + 0x4 * n
def F.LEDG_CNT_COUNT : Fld := ⟨31, 0⟩
def R.LEDG_QUOTA (q : Nat) : Nat := 0xE0401000 + 0x8 * q
def F.LEDG_QUOTA_QUOTA : Fld := ⟨13, 0⟩
def R.LEDG_QUSED (q : Nat) : Nat := 0xE0401004 + 0x8 * q
def F.LEDG_QUSED_USED : Fld := ⟨13, 0⟩
def F.LEDG_QUSED_REFUSED : Fld := ⟨31, 16⟩

/-! ### SCSM (spec/07_command_interface.md) -/
def R.SCSM_CFG : Nat := 0xE0500000
def F.SCSM_CFG_UDP_PORT : Fld := ⟨15, 0⟩
def F.SCSM_CFG_SDT : Fld := ⟨23, 16⟩
def F.SCSM_CFG_IDLE_S_M1 : Fld := ⟨31, 24⟩
def R.SCSM_COMMIT : Nat := 0xE0500004
def R.SCSM_STATUS : Nat := 0xE0500008
def F.SCSM_STATUS_SERVING : Fld := ⟨0, 0⟩
def F.SCSM_STATUS_FORWARDING : Fld := ⟨1, 1⟩
def F.SCSM_STATUS_CFG_INCONSISTENT : Fld := ⟨2, 2⟩
def F.SCSM_STATUS_RATE_OVER : Fld := ⟨3, 3⟩
def F.SCSM_STATUS_STARTUP_REFUSED : Fld := ⟨4, 4⟩
def R.SCSM_STARTUP : Nat := 0xE050000C
def F.SCSM_STARTUP_FIRST : Fld := ⟨15, 0⟩
def F.SCSM_STARTUP_COUNT : Fld := ⟨31, 16⟩
def R.SCSM_CNT (n : Nat) : Nat := 0xE0500100 + 0x4 * n
def F.SCSM_CNT_COUNT : Fld := ⟨31, 0⟩
def R.SCSM_MB_DOORBELL (n : Nat) : Nat := 0xE0510000 + 0x1000 * n
def F.SCSM_MB_DOORBELL_SLOT : Fld := ⟨2, 0⟩
def R.SCSM_MB_STATUS (n : Nat) : Nat := 0xE0510004 + 0x1000 * n
def F.SCSM_MB_STATUS_SLOT_BUSY : Fld := ⟨7, 0⟩
def F.SCSM_MB_STATUS_RESP_READY : Fld := ⟨15, 8⟩
def F.SCSM_MB_STATUS_SLOT_VIOLATION : Fld := ⟨16, 16⟩
def F.SCSM_MB_STATUS_DOORBELL_BUSY : Fld := ⟨17, 17⟩
def F.SCSM_MB_STATUS_CPL_COUNT : Fld := ⟨30, 24⟩
def R.SCSM_MB_RESP_ACK (n : Nat) : Nat := 0xE0510008 + 0x1000 * n
def F.SCSM_MB_RESP_ACK_ACK : Fld := ⟨7, 0⟩
def R.SCSM_MB_CPL_HEAD (n : Nat) : Nat := 0xE051000C + 0x1000 * n
def F.SCSM_MB_CPL_HEAD_HEAD : Fld := ⟨5, 0⟩
def R.SCSM_MB_CPL_TAIL (n : Nat) : Nat := 0xE0510010 + 0x1000 * n
def F.SCSM_MB_CPL_TAIL_TAIL : Fld := ⟨5, 0⟩
def R.SCSM_MB_IRQ (n : Nat) : Nat := 0xE0510014 + 0x1000 * n
def F.SCSM_MB_IRQ_RESP_EN : Fld := ⟨0, 0⟩
def F.SCSM_MB_IRQ_CPL_EN : Fld := ⟨1, 1⟩
def F.SCSM_MB_IRQ_VECTOR : Fld := ⟨12, 8⟩
def F.SCSM_MB_IRQ_CPL_THRESH_M1 : Fld := ⟨21, 16⟩
def R.SCSM_RS_CFG (s : Nat) : Nat := 0xE0560000 + 0x40 * s
def F.SCSM_RS_CFG_EN : Fld := ⟨0, 0⟩
def F.SCSM_RS_CFG_TRANSPORT : Fld := ⟨1, 1⟩
def F.SCSM_RS_CFG_CAN_PORT : Fld := ⟨7, 4⟩
def F.SCSM_RS_CFG_KEY_SLOT : Fld := ⟨15, 8⟩
def F.SCSM_RS_CFG_PERMIT : Fld := ⟨31, 16⟩
def R.SCSM_RS_CANID (s : Nat) : Nat := 0xE0560004 + 0x40 * s
def F.SCSM_RS_CANID_RX_PRIO : Fld := ⟨10, 0⟩
def F.SCSM_RS_CANID_TX_PRIO : Fld := ⟨26, 16⟩
def R.SCSM_RS_STATUS (s : Nat) : Nat := 0xE0560008 + 0x40 * s
def F.SCSM_RS_STATUS_OPEN : Fld := ⟨0, 0⟩
def F.SCSM_RS_STATUS_PENDING : Fld := ⟨8, 4⟩

/-! ### PCH (spec/08_power_channels.md) -/
def R.PCH_DIE_CFG (d : Nat) : Nat := 0xE0600000 + 0x80000 * d
def F.PCH_DIE_CFG_KEEPALIVE_HOLD : Fld := ⟨10, 0⟩
def R.PCH_COMMIT (d : Nat) : Nat := 0xE0600004 + 0x80000 * d
def R.PCH_DIE_STATUS (d : Nat) : Nat := 0xE0600008 + 0x80000 * d
def F.PCH_DIE_STATUS_KA_LOST : Fld := ⟨0, 0⟩
def F.PCH_DIE_STATUS_FAIL_APPLIED : Fld := ⟨1, 1⟩
def F.PCH_DIE_STATUS_CONDUCTION_OVER : Fld := ⟨2, 2⟩
def F.PCH_DIE_STATUS_CFG_INCONSISTENT : Fld := ⟨3, 3⟩
def F.PCH_DIE_STATUS_URGENT_APPLIED : Fld := ⟨4, 4⟩
def F.PCH_DIE_STATUS_SAFE_LINE_SEEN : Fld := ⟨5, 5⟩
def F.PCH_DIE_STATUS_CASE_TEMP : Fld := ⟨31, 16⟩
def R.PCH_DIE_POWER (d : Nat) : Nat := 0xE060000C + 0x80000 * d
def F.PCH_DIE_POWER_P_COND : Fld := ⟨15, 0⟩
def R.PCH_SAFE (d : Nat) : Nat := 0xE0600010 + 0x80000 * d
def F.PCH_SAFE_SL_STATE : Fld := ⟨7, 0⟩
def R.PCH_WP_K1 (d p : Nat) : Nat := 0xE0600400 + 0x80000 * d + 0x10 * p
def F.PCH_WP_K1_K1 : Fld := ⟨23, 0⟩
def R.PCH_WP_K2 (d p : Nat) : Nat := 0xE0600404 + 0x80000 * d + 0x10 * p
def F.PCH_WP_K2_K2 : Fld := ⟨23, 0⟩
def R.PCH_WP_TAU (d p : Nat) : Nat := 0xE0600408 + 0x80000 * d + 0x10 * p
def F.PCH_WP_TAU_TAU1_MS_M1 : Fld := ⟨15, 0⟩
def F.PCH_WP_TAU_TAU2_DS_M1 : Fld := ⟨31, 16⟩
def R.PCH_WP_LIM (d p : Nat) : Nat := 0xE060040C + 0x80000 * d + 0x10 * p
def F.PCH_WP_LIM_THETA_TRIP : Fld := ⟨11, 0⟩
def F.PCH_WP_LIM_THETA_RST : Fld := ⟨27, 16⟩
def R.PCH_CFG (d m : Nat) : Nat := 0xE0601000 + 0x80000 * d + 0x40 * m
def F.PCH_CFG_MODE : Fld := ⟨1, 0⟩
def F.PCH_CFG_CLAMP : Fld := ⟨2, 2⟩
def F.PCH_CFG_SLEW : Fld := ⟨4, 3⟩
def F.PCH_CFG_FAIL_ACT : Fld := ⟨6, 5⟩
def F.PCH_CFG_HOLD_CAPABLE : Fld := ⟨7, 7⟩
def F.PCH_CFG_RESTORE_AFTER_DIP : Fld := ⟨8, 8⟩
def F.PCH_CFG_OL_EN : Fld := ⟨9, 9⟩
def F.PCH_CFG_RETRY : Fld := ⟨15, 12⟩
def F.PCH_CFG_PROFILE : Fld := ⟨20, 16⟩
def F.PCH_CFG_SAFE_LINES : Fld := ⟨31, 24⟩
def R.PCH_TRIP (d m : Nat) : Nat := 0xE0601004 + 0x80000 * d + 0x40 * m
def F.PCH_TRIP_TRIP : Fld := ⟨14, 0⟩
def F.PCH_TRIP_TRIP_EN : Fld := ⟨15, 15⟩
def F.PCH_TRIP_FILT_M1 : Fld := ⟨23, 16⟩
def F.PCH_TRIP_RETRY_DLY_M1 : Fld := ⟨31, 24⟩
def R.PCH_THRM (d m : Nat) : Nat := 0xE0601008 + 0x80000 * d + 0x40 * m
def F.PCH_THRM_DT_LIMIT : Fld := ⟨6, 0⟩
def F.PCH_THRM_BLANK : Fld := ⟨15, 8⟩
def F.PCH_THRM_UC : Fld := ⟨30, 16⟩
def R.PCH_PWM (d m : Nat) : Nat := 0xE060100C + 0x80000 * d + 0x40 * m
def F.PCH_PWM_PER : Fld := ⟨16, 0⟩
def R.PCH_DUTY (d m : Nat) : Nat := 0xE0601010 + 0x80000 * d + 0x40 * m
def F.PCH_DUTY_DUTY : Fld := ⟨10, 0⟩
def F.PCH_DUTY_FALLBACK : Fld := ⟨26, 16⟩
def R.PCH_OFS (d m : Nat) : Nat := 0xE0601014 + 0x80000 * d + 0x40 * m
def F.PCH_OFS_OFS_US : Fld := ⟨16, 0⟩
def R.PCH_TGT (d m : Nat) : Nat := 0xE0601018 + 0x80000 * d + 0x40 * m
def F.PCH_TGT_TARGET : Fld := ⟨1, 0⟩
def F.PCH_TGT_SCHED : Fld := ⟨2, 2⟩
def F.PCH_TGT_CLEAR : Fld := ⟨3, 3⟩
def R.PCH_SWPH (d m : Nat) : Nat := 0xE060101C + 0x80000 * d + 0x40 * m
def F.PCH_SWPH_SW_PHASE : Fld := ⟨31, 0⟩
def R.PCH_STATE (d m : Nat) : Nat := 0xE0601020 + 0x80000 * d + 0x40 * m
def F.PCH_STATE_STATE : Fld := ⟨3, 0⟩
def F.PCH_STATE_RETRY_LEFT : Fld := ⟨7, 4⟩
def F.PCH_STATE_OC : Fld := ⟨8, 8⟩
def F.PCH_STATE_TRIP : Fld := ⟨9, 9⟩
def F.PCH_STATE_THERM_ABS : Fld := ⟨10, 10⟩
def F.PCH_STATE_THERM_DT : Fld := ⟨11, 11⟩
def F.PCH_STATE_WIRE : Fld := ⟨12, 12⟩
def F.PCH_STATE_CLAMP_OVER : Fld := ⟨13, 13⟩
def F.PCH_STATE_FREEWHEEL_MISSING : Fld := ⟨14, 14⟩
def F.PCH_STATE_SAFE : Fld := ⟨15, 15⟩
def F.PCH_STATE_UNDERCURRENT : Fld := ⟨16, 16⟩
def F.PCH_STATE_OPEN_OFF : Fld := ⟨17, 17⟩
def F.PCH_STATE_SHORT_FEED : Fld := ⟨18, 18⟩
def F.PCH_STATE_LATE_SWITCH : Fld := ⟨19, 19⟩
def F.PCH_STATE_URGENT_OFF : Fld := ⟨20, 20⟩
def F.PCH_STATE_CLEAR_PENDING : Fld := ⟨21, 21⟩
def F.PCH_STATE_DIAG_SUSPENDED : Fld := ⟨22, 22⟩
def F.PCH_STATE_I_SAT : Fld := ⟨23, 23⟩
def F.PCH_STATE_CLAMP_REP_WARN : Fld := ⟨24, 24⟩
def F.PCH_STATE_THERM_LATCH : Fld := ⟨25, 25⟩
def R.PCH_CUR (d m : Nat) : Nat := 0xE0601024 + 0x80000 * d + 0x40 * m
def F.PCH_CUR_I_LAST : Fld := ⟨15, 0⟩
def F.PCH_CUR_I_MEAN : Fld := ⟨31, 16⟩
def R.PCH_CURP (d m : Nat) : Nat := 0xE0601028 + 0x80000 * d + 0x40 * m
def F.PCH_CURP_I_PEAK : Fld := ⟨15, 0⟩
def R.PCH_TEMP (d m : Nat) : Nat := 0xE060102C + 0x80000 * d + 0x40 * m
def F.PCH_TEMP_TJ : Fld := ⟨15, 0⟩
def F.PCH_TEMP_DT : Fld := ⟨31, 16⟩
def R.PCH_WIRE (d m : Nat) : Nat := 0xE0601030 + 0x80000 * d + 0x40 * m
def F.PCH_WIRE_THETA1 : Fld := ⟨15, 0⟩
def F.PCH_WIRE_THETA2 : Fld := ⟨31, 16⟩
def R.PCH_CLAMP (d m : Nat) : Nat := 0xE0601034 + 0x80000 * d + 0x40 * m
def F.PCH_CLAMP_E_LAST : Fld := ⟨15, 0⟩
def F.PCH_CLAMP_EVENTS : Fld := ⟨31, 16⟩

/-! ### SUPC (spec/09_gate_drivers_and_feed_events.md) -/
def R.SUPC_STATUS : Nat := 0xE0200000
def F.SUPC_STATUS_STRAP_INVALID : Fld := ⟨0, 0⟩
def F.SUPC_STATUS_VKEEP_LOST : Fld := ⟨1, 1⟩
def F.SUPC_STATUS_CFG_INCONSISTENT : Fld := ⟨2, 2⟩
def F.SUPC_STATUS_STRAP_CLASS : Fld := ⟨4, 3⟩
def R.SUPC_COMMIT : Nat := 0xE0200004
def R.SUPC_VKEEP : Nat := 0xE0200008
def F.SUPC_VKEEP_V_KEEP_E : Fld := ⟨15, 0⟩
def F.SUPC_VKEEP_V_KEEP_W : Fld := ⟨31, 16⟩
def R.SUPC_FEED_CFG (f : Nat) : Nat := 0xE0200100 + 0x20 * (f - 1)
def F.SUPC_FEED_CFG_CLASS : Fld := ⟨1, 0⟩
def F.SUPC_FEED_CFG_T_CRANK_MAX : Fld := ⟨12, 4⟩
def F.SUPC_FEED_CFG_RESTORE_STEP : Fld := ⟨23, 16⟩
def R.SUPC_FEED_STAT (f : Nat) : Nat := 0xE0200104 + 0x20 * (f - 1)
def F.SUPC_FEED_STAT_VOLT : Fld := ⟨15, 0⟩
def F.SUPC_FEED_STAT_BELOW_WARN : Fld := ⟨16, 16⟩
def F.SUPC_FEED_STAT_HOLDING : Fld := ⟨17, 17⟩
def F.SUPC_FEED_STAT_CUT : Fld := ⟨18, 18⟩
def F.SUPC_FEED_STAT_FEED_HIGH : Fld := ⟨19, 19⟩
def F.SUPC_FEED_STAT_FEED_OV : Fld := ⟨20, 20⟩
def F.SUPC_FEED_STAT_REVERSE : Fld := ⟨21, 21⟩
def F.SUPC_FEED_STAT_LD_DEFER : Fld := ⟨22, 22⟩
def F.SUPC_FEED_STAT_FEED_CLASS_MISMATCH : Fld := ⟨23, 23⟩
def F.SUPC_FEED_STAT_CUT_SEEN : Fld := ⟨24, 24⟩
def F.SUPC_FEED_STAT_HOLD_SEEN : Fld := ⟨25, 25⟩
def F.SUPC_FEED_STAT_DIAG_SUSPENDED : Fld := ⟨26, 26⟩
def R.SUPC_FEED_MIN (f : Nat) : Nat := 0xE0200108 + 0x20 * (f - 1)
def F.SUPC_FEED_MIN_VMIN : Fld := ⟨15, 0⟩
def F.SUPC_FEED_MIN_CLR : Fld := ⟨31, 31⟩
def R.SUPC_FEED_DIP (f : Nat) : Nat := 0xE020010C + 0x20 * (f - 1)
def F.SUPC_FEED_DIP_LAST_HOLD : Fld := ⟨15, 0⟩
def F.SUPC_FEED_DIP_HOLDS : Fld := ⟨31, 16⟩
def R.SUPC_DIPINH (d : Nat) : Nat := 0xE0200200 + 0x4 * d
def F.SUPC_DIPINH_PC_INH : Fld := ⟨23, 0⟩
def F.SUPC_DIPINH_GD_INH : Fld := ⟨31, 24⟩

/-! ### GDR (spec/09_gate_drivers_and_feed_events.md) -/
def R.GDR_COMMIT (d : Nat) : Nat := 0xE0700004 + 0x80000 * d
def R.GDR_DIE_STATUS (d : Nat) : Nat := 0xE0700008 + 0x80000 * d
def F.GDR_DIE_STATUS_CFG_INCONSISTENT : Fld := ⟨0, 0⟩
def F.GDR_DIE_STATUS_CP_LOW : Fld := ⟨1, 1⟩
def F.GDR_DIE_STATUS_URGENT_APPLIED : Fld := ⟨2, 2⟩
def R.GDR_CFG (d g : Nat) : Nat := 0xE0701000 + 0x80000 * d + 0x40 * g
def F.GDR_CFG_FAIL_ACT : Fld := ⟨1, 0⟩
def F.GDR_CFG_HOLD_CAPABLE : Fld := ⟨2, 2⟩
def F.GDR_CFG_RESTORE_AFTER_DIP : Fld := ⟨3, 3⟩
def F.GDR_CFG_PRECHG_EN : Fld := ⟨4, 4⟩
def F.GDR_CFG_SENSE_RANGE : Fld := ⟨6, 5⟩
def F.GDR_CFG_RETRY : Fld := ⟨11, 8⟩
def F.GDR_CFG_PROFILE : Fld := ⟨16, 12⟩
def F.GDR_CFG_SAFE_LINES : Fld := ⟨31, 24⟩
def R.GDR_SHUNT (d g : Nat) : Nat := 0xE0701004 + 0x80000 * d + 0x40 * g
def F.GDR_SHUNT_R_SHUNT : Fld := ⟨15, 0⟩
def R.GDR_OC (d g : Nat) : Nat := 0xE0701008 + 0x80000 * d + 0x40 * g
def F.GDR_OC_OC_THR : Fld := ⟨7, 0⟩
def F.GDR_OC_RETRY_DLY_M1 : Fld := ⟨15, 8⟩
def F.GDR_OC_FILT_M1 : Fld := ⟨23, 16⟩
def F.GDR_OC_BLANK : Fld := ⟨31, 24⟩
def R.GDR_TRIP (d g : Nat) : Nat := 0xE070100C + 0x80000 * d + 0x40 * g
def F.GDR_TRIP_TRIP : Fld := ⟨14, 0⟩
def F.GDR_TRIP_TRIP_EN : Fld := ⟨15, 15⟩
def R.GDR_PRECHG (d g : Nat) : Nat := 0xE0701010 + 0x80000 * d + 0x40 * g
def F.GDR_PRECHG_DVDT : Fld := ⟨7, 0⟩
def F.GDR_PRECHG_PC_TMAX_M1 : Fld := ⟨15, 8⟩
def F.GDR_PRECHG_PC_ILIM : Fld := ⟨30, 16⟩
def F.GDR_PRECHG_ILIM_EN : Fld := ⟨31, 31⟩
def R.GDR_TGT (d g : Nat) : Nat := 0xE0701014 + 0x80000 * d + 0x40 * g
def F.GDR_TGT_TARGET : Fld := ⟨1, 0⟩
def F.GDR_TGT_SCHED : Fld := ⟨2, 2⟩
def F.GDR_TGT_CLEAR : Fld := ⟨3, 3⟩
def R.GDR_SWPH (d g : Nat) : Nat := 0xE0701018 + 0x80000 * d + 0x40 * g
def F.GDR_SWPH_SW_PHASE : Fld := ⟨31, 0⟩
def R.GDR_STATE (d g : Nat) : Nat := 0xE0701020 + 0x80000 * d + 0x40 * g
def F.GDR_STATE_STATE : Fld := ⟨3, 0⟩
def F.GDR_STATE_RETRY_LEFT : Fld := ⟨7, 4⟩
def F.GDR_STATE_OC : Fld := ⟨8, 8⟩
def F.GDR_STATE_TRIP : Fld := ⟨9, 9⟩
def F.GDR_STATE_WIRE : Fld := ⟨10, 10⟩
def F.GDR_STATE_SAFE : Fld := ⟨11, 11⟩
def F.GDR_STATE_PRECHG_TIMEOUT : Fld := ⟨12, 12⟩
def F.GDR_STATE_GATE_LOW : Fld := ⟨13, 13⟩
def F.GDR_STATE_SENSE_OPEN : Fld := ⟨14, 14⟩
def F.GDR_STATE_DIAG_SUSPENDED : Fld := ⟨15, 15⟩
def F.GDR_STATE_LATE_SWITCH : Fld := ⟨16, 16⟩
def F.GDR_STATE_URGENT_OFF : Fld := ⟨17, 17⟩
def F.GDR_STATE_CLEAR_PENDING : Fld := ⟨18, 18⟩
def F.GDR_STATE_I_SAT : Fld := ⟨19, 19⟩
def F.GDR_STATE_DIP_INHIBIT : Fld := ⟨20, 20⟩
def R.GDR_CUR (d g : Nat) : Nat := 0xE0701024 + 0x80000 * d + 0x40 * g
def F.GDR_CUR_I_LAST : Fld := ⟨15, 0⟩
def F.GDR_CUR_I_MEAN : Fld := ⟨31, 16⟩
def R.GDR_CURP (d g : Nat) : Nat := 0xE0701028 + 0x80000 * d + 0x40 * g
def F.GDR_CURP_I_PEAK : Fld := ⟨15, 0⟩
def R.GDR_WIRE (d g : Nat) : Nat := 0xE070102C + 0x80000 * d + 0x40 * g
def F.GDR_WIRE_THETA1 : Fld := ⟨15, 0⟩
def F.GDR_WIRE_THETA2 : Fld := ⟨31, 16⟩
def R.GDR_VS (d g : Nat) : Nat := 0xE0701030 + 0x80000 * d + 0x40 * g
def F.GDR_VS_V_SRC : Fld := ⟨15, 0⟩
def F.GDR_VS_V_GS : Fld := ⟨31, 16⟩

/-! ### FCH (spec/10_field_channels.md) -/
def R.FCH_DIE_CFG (d : Nat) : Nat := 0xE0800000 + 0x40000 * d
def F.FCH_DIE_CFG_KEEPALIVE_HOLD : Fld := ⟨10, 0⟩
def F.FCH_DIE_CFG_WK_PER_M1 : Fld := ⟨23, 16⟩
def F.FCH_DIE_CFG_WK_FILT_M1 : Fld := ⟨25, 24⟩
def R.FCH_COMMIT (d : Nat) : Nat := 0xE0800004 + 0x40000 * d
def R.FCH_DIE_STATUS (d : Nat) : Nat := 0xE0800008 + 0x40000 * d
def F.FCH_DIE_STATUS_KA_LOST : Fld := ⟨0, 0⟩
def F.FCH_DIE_STATUS_FAIL_APPLIED : Fld := ⟨1, 1⟩
def F.FCH_DIE_STATUS_DISS_OVER : Fld := ⟨2, 2⟩
def F.FCH_DIE_STATUS_BUDGET_WARN : Fld := ⟨3, 3⟩
def F.FCH_DIE_STATUS_CFG_INCONSISTENT : Fld := ⟨4, 4⟩
def F.FCH_DIE_STATUS_URGENT_APPLIED : Fld := ⟨5, 5⟩
def F.FCH_DIE_STATUS_SUPPLY_LOW : Fld := ⟨6, 6⟩
def F.FCH_DIE_STATUS_SUPPLY_CUT : Fld := ⟨7, 7⟩
def F.FCH_DIE_STATUS_SUPPLY_LOST : Fld := ⟨8, 8⟩
def F.FCH_DIE_STATUS_DIAG_SUSPENDED : Fld := ⟨9, 9⟩
def F.FCH_DIE_STATUS_DIE_TEMP : Fld := ⟨31, 16⟩
def R.FCH_DIE_POWER (d : Nat) : Nat := 0xE080000C + 0x40000 * d
def F.FCH_DIE_POWER_P_EST : Fld := ⟨15, 0⟩
def F.FCH_DIE_POWER_P_WC : Fld := ⟨31, 16⟩
def R.FCH_SAFE (d : Nat) : Nat := 0xE0800010 + 0x40000 * d
def F.FCH_SAFE_SL_DRIVE : Fld := ⟨7, 0⟩
def R.FCH_VSUP (d : Nat) : Nat := 0xE0800014 + 0x40000 * d
def F.FCH_VSUP_VSUP : Fld := ⟨15, 0⟩
def R.FCH_WAKE_STAT (d : Nat) : Nat := 0xE0800018 + 0x40000 * d
def F.FCH_WAKE_STAT_FIRST : Fld := ⟨6, 0⟩
def F.FCH_WAKE_STAT_WOKE : Fld := ⟨15, 15⟩
def R.FCH_GRP_CFG (d k : Nat) : Nat := 0xE0800100 + 0x40000 * d + 0x10 * k
def F.FCH_GRP_CFG_WPULSE_M1 : Fld := ⟨7, 0⟩
def F.FCH_GRP_CFG_WDIV : Fld := ⟨10, 8⟩
def R.FCH_CFG (d m : Nat) : Nat := 0xE0801000 + 0x40000 * d + 0x40 * m
def F.FCH_CFG_MODE : Fld := ⟨3, 0⟩
def F.FCH_CFG_INCLASS : Fld := ⟨6, 4⟩
def F.FCH_CFG_PULSED : Fld := ⟨7, 7⟩
def F.FCH_CFG_FAIL_ACT : Fld := ⟨9, 8⟩
def F.FCH_CFG_HOLD_CAPABLE : Fld := ⟨10, 10⟩
def F.FCH_CFG_RESTORE_AFTER_DIP : Fld := ⟨11, 11⟩
def F.FCH_CFG_OW_EN : Fld := ⟨12, 12⟩
def F.FCH_CFG_INVERT : Fld := ⟨13, 13⟩
def F.FCH_CFG_WAKE_EN : Fld := ⟨14, 14⟩
def F.FCH_CFG_SAFE_EN : Fld := ⟨15, 15⟩
def F.FCH_CFG_SAFE_LINE : Fld := ⟨18, 16⟩
def F.FCH_CFG_SAFE_POL : Fld := ⟨19, 19⟩
def R.FCH_IN (d m : Nat) : Nat := 0xE0801004 + 0x40000 * d + 0x40 * m
def F.FCH_IN_WET : Fld := ⟨4, 0⟩
def F.FCH_IN_OW_THR : Fld := ⟨15, 8⟩
def F.FCH_IN_FILT_US : Fld := ⟨31, 16⟩
def R.FCH_AUX (d m : Nat) : Nat := 0xE0801008 + 0x40000 * d + 0x40 * m
def F.FCH_AUX_AVG : Fld := ⟨3, 0⟩
def F.FCH_AUX_ISRC : Fld := ⟨5, 4⟩
def F.FCH_AUX_CAP_KIND : Fld := ⟨9, 8⟩
def F.FCH_AUX_EDGE : Fld := ⟨11, 10⟩
def R.FCH_PWM (d m : Nat) : Nat := 0xE080100C + 0x40000 * d + 0x40 * m
def F.FCH_PWM_PER : Fld := ⟨19, 0⟩
def R.FCH_DUTY (d m : Nat) : Nat := 0xE0801010 + 0x40000 * d + 0x40 * m
def F.FCH_DUTY_DUTY : Fld := ⟨10, 0⟩
def F.FCH_DUTY_FALLBACK : Fld := ⟨26, 16⟩
def R.FCH_TGT (d m : Nat) : Nat := 0xE0801014 + 0x40000 * d + 0x40 * m
def F.FCH_TGT_TARGET : Fld := ⟨1, 0⟩
def F.FCH_TGT_SCHED : Fld := ⟨2, 2⟩
def F.FCH_TGT_CLEAR : Fld := ⟨3, 3⟩
def R.FCH_SWPH (d m : Nat) : Nat := 0xE0801018 + 0x40000 * d + 0x40 * m
def F.FCH_SWPH_SW_PHASE : Fld := ⟨31, 0⟩
def R.FCH_STATE (d m : Nat) : Nat := 0xE0801020 + 0x40000 * d + 0x40 * m
def F.FCH_STATE_STATE : Fld := ⟨3, 0⟩
def F.FCH_STATE_VALID : Fld := ⟨4, 4⟩
def F.FCH_STATE_LEVEL : Fld := ⟨5, 5⟩
def F.FCH_STATE_OVERLOAD : Fld := ⟨8, 8⟩
def F.FCH_STATE_OVERTEMP : Fld := ⟨9, 9⟩
def F.FCH_STATE_CLAMP_OVER : Fld := ⟨10, 10⟩
def F.FCH_STATE_OPEN_WIRE : Fld := ⟨11, 11⟩
def F.FCH_STATE_SUPPLY_LOW : Fld := ⟨12, 12⟩
def F.FCH_STATE_SUPPLY_LOST : Fld := ⟨13, 13⟩
def F.FCH_STATE_DIAG_SUSPENDED : Fld := ⟨14, 14⟩
def F.FCH_STATE_DIP_INHIBIT : Fld := ⟨15, 15⟩
def F.FCH_STATE_LATE_SWITCH : Fld := ⟨16, 16⟩
def F.FCH_STATE_URGENT_OFF : Fld := ⟨17, 17⟩
def F.FCH_STATE_CLEAR_PENDING : Fld := ⟨18, 18⟩
def F.FCH_STATE_WAKE_ARMED : Fld := ⟨19, 19⟩
def R.FCH_CAP (d m : Nat) : Nat := 0xE0801028 + 0x40000 * d + 0x40 * m
def F.FCH_CAP_PERIOD : Fld := ⟨31, 0⟩
def R.FCH_CNT (d m : Nat) : Nat := 0xE0801030 + 0x40000 * d + 0x40 * m
def F.FCH_CNT_COUNT : Fld := ⟨31, 0⟩

/-! ### TIDE (spec/11_tide_engine.md) -/
def R.TIDE_CFG : Nat := 0xE0900000
def F.TIDE_CFG_SRC : Fld := ⟨1, 0⟩
def F.TIDE_CFG_TB_SEL : Fld := ⟨3, 2⟩
def F.TIDE_CFG_SLEW_PCT : Fld := ⟨12, 8⟩
def F.TIDE_CFG_HOLD_TURNS_M1 : Fld := ⟨23, 16⟩
def R.TIDE_FREE_INC_LO : Nat := 0xE0900004
def F.TIDE_FREE_INC_LO_INC_LO : Fld := ⟨31, 0⟩
def R.TIDE_FREE_INC_HI : Nat := 0xE0900008
def F.TIDE_FREE_INC_HI_INC_HI : Fld := ⟨15, 0⟩
def R.TIDE_TURN_CFG : Nat := 0xE090000C
def F.TIDE_TURN_CFG_N_M1 : Fld := ⟨15, 0⟩
def F.TIDE_TURN_CFG_D_M1 : Fld := ⟨31, 16⟩
def R.TIDE_TB_PERIOD : Nat := 0xE0900010
def F.TIDE_TB_PERIOD_PERIOD_NS : Fld := ⟨23, 0⟩
def R.TIDE_COMMIT : Nat := 0xE0900014
def R.TIDE_STATUS : Nat := 0xE0900018
def F.TIDE_STATUS_SRC_ACTIVE : Fld := ⟨1, 0⟩
def F.TIDE_STATUS_LOCKED : Fld := ⟨2, 2⟩
def F.TIDE_STATUS_SLEWING : Fld := ⟨3, 3⟩
def F.TIDE_STATUS_HOLDOVER : Fld := ⟨4, 4⟩
def F.TIDE_STATUS_FALLBACK : Fld := ⟨5, 5⟩
def F.TIDE_STATUS_CFG_INCONSISTENT : Fld := ⟨6, 6⟩
def F.TIDE_STATUS_COMMIT_PENDING : Fld := ⟨7, 7⟩
def F.TIDE_STATUS_EVT_SKIPPED : Fld := ⟨8, 8⟩
def F.TIDE_STATUS_EVT_OVERRODE : Fld := ⟨9, 9⟩
def F.TIDE_STATUS_SLAVED : Fld := ⟨10, 10⟩
def R.TIDE_PHASE : Nat := 0xE090001C
def F.TIDE_PHASE_PHASE : Fld := ⟨31, 0⟩
def R.TIDE_TURN : Nat := 0xE0900020
def F.TIDE_TURN_TURN : Fld := ⟨31, 0⟩
def R.TIDE_MAXDLY : Nat := 0xE090002C
def F.TIDE_MAXDLY_MAX_TICKS : Fld := ⟨11, 0⟩
def F.TIDE_MAXDLY_CLR : Fld := ⟨31, 31⟩
def R.TIDE_MPLL_CFG : Nat := 0xE0900100
def F.TIDE_MPLL_CFG_MPLL_EN : Fld := ⟨0, 0⟩
def F.TIDE_MPLL_CFG_THREE : Fld := ⟨1, 1⟩
def F.TIDE_MPLL_CFG_NOM60 : Fld := ⟨2, 2⟩
def F.TIDE_MPLL_CFG_AIN_A : Fld := ⟨12, 8⟩
def F.TIDE_MPLL_CFG_AIN_B : Fld := ⟨20, 16⟩
def F.TIDE_MPLL_CFG_AIN_C : Fld := ⟨28, 24⟩
def R.TIDE_MPLL_OFS : Nat := 0xE0900104
def F.TIDE_MPLL_OFS_MPLL_OFS : Fld := ⟨31, 0⟩
def R.TIDE_MPLL_GAIN : Nat := 0xE0900108
def F.TIDE_MPLL_GAIN_KP : Fld := ⟨15, 0⟩
def F.TIDE_MPLL_GAIN_KI : Fld := ⟨31, 16⟩
def R.TIDE_MPLL_LIM : Nat := 0xE090010C
def F.TIDE_MPLL_LIM_FMIN : Fld := ⟨9, 0⟩
def F.TIDE_MPLL_LIM_FMAX : Fld := ⟨25, 16⟩
def F.TIDE_MPLL_LIM_MIN_AMP : Fld := ⟨31, 26⟩
def R.TIDE_MPLL_STAT : Nat := 0xE0900110
def F.TIDE_MPLL_STAT_LOCK : Fld := ⟨0, 0⟩
def F.TIDE_MPLL_STAT_MAINS_LOST : Fld := ⟨1, 1⟩
def F.TIDE_MPLL_STAT_AD15_HELD : Fld := ⟨2, 2⟩
def F.TIDE_MPLL_STAT_AMP : Fld := ⟨31, 16⟩
def R.TIDE_MPLL_MEAS : Nat := 0xE0900114
def F.TIDE_MPLL_MEAS_FREQ : Fld := ⟨19, 0⟩
def F.TIDE_MPLL_MEAS_PERR : Fld := ⟨31, 20⟩
def R.TIDE_EXT_CFG : Nat := 0xE0900200
def F.TIDE_EXT_CFG_EXT_CH : Fld := ⟨7, 0⟩
def F.TIDE_EXT_CFG_IDX_CH : Fld := ⟨15, 8⟩
def F.TIDE_EXT_CFG_IDX_EN : Fld := ⟨16, 16⟩
def F.TIDE_EXT_CFG_PPT_M1 : Fld := ⟨31, 20⟩
def R.TIDE_EXT_OFS : Nat := 0xE0900204
def F.TIDE_EXT_OFS_EXT_OFS : Fld := ⟨31, 0⟩
def R.TIDE_EXT_STAT : Nat := 0xE0900210
def F.TIDE_EXT_STAT_LOCK : Fld := ⟨0, 0⟩
def F.TIDE_EXT_STAT_EXT_MISS : Fld := ⟨1, 1⟩
def F.TIDE_EXT_STAT_IDX_SEEN : Fld := ⟨2, 2⟩
def R.TIDE_SYNC_STAT : Nat := 0xE0900300
def F.TIDE_SYNC_STAT_ERR : Fld := ⟨15, 0⟩
def F.TIDE_SYNC_STAT_SYNC_OK : Fld := ⟨16, 16⟩
def R.TIDE_CNT (n : Nat) : Nat := 0xE0900400 + 0x4 * n
def F.TIDE_CNT_COUNT : Fld := ⟨31, 0⟩
def R.TIDE_TEV_PHASE (i : Nat) : Nat := 0xE0910000 + 0x10 * i
def F.TIDE_TEV_PHASE_PHASE : Fld := ⟨31, 0⟩
def R.TIDE_TEV_CTRL (i : Nat) : Nat := 0xE0910004 + 0x10 * i
def F.TIDE_TEV_CTRL_TYPE : Fld := ⟨3, 0⟩
def F.TIDE_TEV_CTRL_MODE : Fld := ⟨5, 4⟩
def F.TIDE_TEV_CTRL_OWNER : Fld := ⟨13, 8⟩
def F.TIDE_TEV_CTRL_OWNER_SEC : Fld := ⟨14, 14⟩
def F.TIDE_TEV_CTRL_OWNER_RS : Fld := ⟨15, 15⟩
def R.TIDE_TEV_ARG (i : Nat) : Nat := 0xE0910008 + 0x10 * i
def F.TIDE_TEV_ARG_ARG : Fld := ⟨31, 0⟩
def R.TIDE_TEV_STAT (i : Nat) : Nat := 0xE091000C + 0x10 * i
def F.TIDE_TEV_STAT_ARMED : Fld := ⟨0, 0⟩
def F.TIDE_TEV_STAT_FIRED : Fld := ⟨31, 16⟩

/-! ### CVC (spec/12_converter_control.md) -/
def R.CVC_SEQ_SW : Nat := 0xE0A00000
def F.CVC_SEQ_SW_GO : Fld := ⟨15, 0⟩
def R.CVC_COMMIT : Nat := 0xE0A00004
def R.CVC_STATUS : Nat := 0xE0A00008
def F.CVC_STATUS_CFG_INCONSISTENT : Fld := ⟨0, 0⟩
def F.CVC_STATUS_OVERRUN : Fld := ⟨1, 1⟩
def F.CVC_STATUS_ADC_WAIT : Fld := ⟨2, 2⟩
def F.CVC_STATUS_CHAIN_OVERRUN : Fld := ⟨3, 3⟩
def F.CVC_STATUS_AD15_HELD : Fld := ⟨4, 4⟩
def R.CVC_CNT (n : Nat) : Nat := 0xE0A00100 + 0x4 * n
def F.CVC_CNT_COUNT : Fld := ⟨31, 0⟩
def R.CVC_PP_CFG (k : Nat) : Nat := 0xE0A01000 + 0x40 * k
def F.CVC_PP_CFG_MODE : Fld := ⟨1, 0⟩
def F.CVC_PP_CFG_LOAD_EVT : Fld := ⟨2, 2⟩
def F.CVC_PP_CFG_SYNC_EN : Fld := ⟨3, 3⟩
def F.CVC_PP_CFG_SYNC_M : Fld := ⟨7, 4⟩
def F.CVC_PP_CFG_TRGA_SEQ : Fld := ⟨11, 8⟩
def F.CVC_PP_CFG_TRGA_EN : Fld := ⟨12, 12⟩
def F.CVC_PP_CFG_TRGB_SEQ : Fld := ⟨19, 16⟩
def F.CVC_PP_CFG_TRGB_EN : Fld := ⟨20, 20⟩
def R.CVC_PP_STAT (k : Nat) : Nat := 0xE0A01024 + 0x40 * k
def F.CVC_PP_STAT_RUNNING : Fld := ⟨0, 0⟩
def F.CVC_PP_STAT_DROP : Fld := ⟨1, 1⟩
def F.CVC_PP_STAT_EDGE_BAD : Fld := ⟨2, 2⟩
def F.CVC_PP_STAT_SLAVED : Fld := ⟨3, 3⟩
def R.CVC_PP_CNT (k : Nat) : Nat := 0xE0A01028 + 0x40 * k
def F.CVC_PP_CNT_POS : Fld := ⟨28, 0⟩
def R.CVC_SEQ_CFG (s : Nat) : Nat := 0xE0A02000 + 0x200 * s
def F.CVC_SEQ_CFG_LEN_M1 : Fld := ⟨4, 0⟩
def F.CVC_SEQ_CFG_EN : Fld := ⟨8, 8⟩
def F.CVC_SEQ_CFG_KICK_NODE : Fld := ⟨19, 16⟩
def F.CVC_SEQ_CFG_KICK_EN : Fld := ⟨20, 20⟩
def R.CVC_SEQ_STAT (s : Nat) : Nat := 0xE0A02004 + 0x200 * s
def F.CVC_SEQ_STAT_BUSY : Fld := ⟨0, 0⟩
def F.CVC_SEQ_STAT_OVERRUN : Fld := ⟨1, 1⟩
def F.CVC_SEQ_STAT_RUNS : Fld := ⟨31, 16⟩
def R.CVC_SEQ_STEP (s j : Nat) : Nat := 0xE0A02040 + 0x200 * s + 0x4 * j
def F.CVC_SEQ_STEP_ADC : Fld := ⟨3, 0⟩
def F.CVC_SEQ_STEP_AIN : Fld := ⟨12, 8⟩
def R.CVC_SEQ_RES (s j : Nat) : Nat := 0xE0A02100 + 0x200 * s + 0x4 * j
def F.CVC_SEQ_RES_CODE : Fld := ⟨15, 0⟩
def F.CVC_SEQ_RES_RUN : Fld := ⟨31, 24⟩
def R.CVC_CM_CFG (c : Nat) : Nat := 0xE0A04000 + 0x10 * c
def F.CVC_CM_CFG_AIN : Fld := ⟨4, 0⟩
def F.CVC_CM_CFG_POL : Fld := ⟨5, 5⟩
def F.CVC_CM_CFG_HYST : Fld := ⟨7, 6⟩
def F.CVC_CM_CFG_DAC : Fld := ⟨17, 8⟩
def F.CVC_CM_CFG_EN : Fld := ⟨18, 18⟩
def F.CVC_CM_CFG_FILT : Fld := ⟨27, 20⟩
def R.CVC_CM_STAT (c : Nat) : Nat := 0xE0A04004 + 0x10 * c
def F.CVC_CM_STAT_OUT : Fld := ⟨0, 0⟩
def F.CVC_CM_STAT_SEEN : Fld := ⟨1, 1⟩
def F.CVC_CM_STAT_THR : Fld := ⟨25, 16⟩
def R.CVC_KN_CFG (i : Nat) : Nat := 0xE0A05000 + 0x80 * i
def F.CVC_KN_CFG_FORM : Fld := ⟨1, 0⟩
def F.CVC_KN_CFG_EN : Fld := ⟨2, 2⟩
def F.CVC_KN_CFG_TRACK : Fld := ⟨3, 3⟩
def F.CVC_KN_CFG_HARM : Fld := ⟨7, 4⟩
def F.CVC_KN_CFG_NEXT : Fld := ⟨11, 8⟩
def F.CVC_KN_CFG_NEXT_EN : Fld := ⟨12, 12⟩
def F.CVC_KN_CFG_DEST : Fld := ⟨15, 13⟩
def F.CVC_KN_CFG_DEST_IDX : Fld := ⟨19, 16⟩
def F.CVC_KN_CFG_CLR_STATE : Fld := ⟨20, 20⟩
def R.CVC_KN_IN (i : Nat) : Nat := 0xE0A05004 + 0x80 * i
def F.CVC_KN_IN_SRC_A : Fld := ⟨11, 0⟩
def F.CVC_KN_IN_SRC_B : Fld := ⟨27, 16⟩
def R.CVC_KN_SCALE (i : Nat) : Nat := 0xE0A0502C + 0x80 * i
def R.CVC_KN_OUT (i : Nat) : Nat := 0xE0A05030 + 0x80 * i
def F.CVC_KN_OUT_U : Fld := ⟨31, 0⟩
def R.CVC_KN_STAT (i : Nat) : Nat := 0xE0A05034 + 0x80 * i
def F.CVC_KN_STAT_SAT : Fld := ⟨0, 0⟩
def F.CVC_KN_STAT_STATE_SAT : Fld := ⟨1, 1⟩
def F.CVC_KN_STAT_RUNS : Fld := ⟨31, 16⟩
def R.CVC_REF (n : Nat) : Nat := 0xE0A06000 + 0x4 * n
def F.CVC_REF_REF : Fld := ⟨31, 0⟩
def R.CVC_SEL_COMMIT : Nat := 0xE0A80004
def R.CVC_SEL_STATUS : Nat := 0xE0A80008
def F.CVC_SEL_STATUS_CFG_INCONSISTENT : Fld := ⟨0, 0⟩
def F.CVC_SEL_STATUS_FRZ_PWM_HOLD : Fld := ⟨1, 1⟩
def F.CVC_SEL_STATUS_CMN_SAFE : Fld := ⟨2, 2⟩
def F.CVC_SEL_STATUS_TRIP_IN : Fld := ⟨15, 8⟩
def R.CVC_SEL_TRIPIN : Nat := 0xE0A80010
def F.CVC_SEL_TRIPIN_TRIP_FILT : Fld := ⟨7, 0⟩
def R.CVC_SEL_PP_CFG (k : Nat) : Nat := 0xE0A81000 + 0x20 * k
def F.CVC_SEL_PP_CFG_DT_A : Fld := ⟨12, 0⟩
def F.CVC_SEL_PP_CFG_DT_B : Fld := ⟨28, 16⟩
def F.CVC_SEL_PP_CFG_TRIP_LATCH : Fld := ⟨29, 29⟩
def R.CVC_SEL_PP_MINPW (k : Nat) : Nat := 0xE0A81004 + 0x20 * k
def F.CVC_SEL_PP_MINPW_MINPW : Fld := ⟨12, 0⟩
def R.CVC_SEL_PP_MASK (k : Nat) : Nat := 0xE0A81008 + 0x20 * k
def F.CVC_SEL_PP_MASK_CM : Fld := ⟨15, 0⟩
def F.CVC_SEL_PP_MASK_TRIP : Fld := ⟨23, 16⟩
def R.CVC_SEL_PP_STAT (k : Nat) : Nat := 0xE0A8100C + 0x20 * k
def F.CVC_SEL_PP_STAT_STATE : Fld := ⟨2, 0⟩
def F.CVC_SEL_PP_STAT_FROM : Fld := ⟨3, 3⟩
def F.CVC_SEL_PP_STAT_TRIPPED : Fld := ⟨4, 4⟩
def F.CVC_SEL_PP_STAT_CLR_REFUSED : Fld := ⟨5, 5⟩
def F.CVC_SEL_PP_STAT_MINPW_ACT : Fld := ⟨6, 6⟩
def F.CVC_SEL_PP_STAT_TRIP_SRC : Fld := ⟨31, 8⟩
def R.CVC_SEL_PP_CNT (k : Nat) : Nat := 0xE0A81010 + 0x20 * k
def F.CVC_SEL_PP_CNT_TRIPS : Fld := ⟨15, 0⟩
def F.CVC_SEL_PP_CNT_SWITCHES : Fld := ⟨31, 16⟩

/-! ### CAN (spec/13_can_and_lin.md) -/
def R.CAN_COMMIT : Nat := 0xE0B00004
def R.CAN_STATUS : Nat := 0xE0B00008
def F.CAN_STATUS_CFG_INCONSISTENT : Fld := ⟨0, 0⟩
def R.CAN_INH_MAP (k : Nat) : Nat := 0xE0B00100 + 0x4 * k
def F.CAN_INH_MAP_CN : Fld := ⟨15, 0⟩
def F.CAN_INH_MAP_LN : Fld := ⟨23, 16⟩
def R.CAN_PCFG (n : Nat) : Nat := 0xE0B00400 + 0x100 * n
def F.CAN_PCFG_CLASSIC_EN : Fld := ⟨0, 0⟩
def F.CAN_PCFG_FD_EN : Fld := ⟨1, 1⟩
def F.CAN_PCFG_XL_EN : Fld := ⟨2, 2⟩
def F.CAN_PCFG_PXE : Fld := ⟨3, 3⟩
def F.CAN_PCFG_SEQUENCED : Fld := ⟨4, 4⟩
def F.CAN_PCFG_TXORD : Fld := ⟨5, 5⟩
def F.CAN_PCFG_ONESHOT_ALL : Fld := ⟨6, 6⟩
def F.CAN_PCFG_TX_ECHO : Fld := ⟨7, 7⟩
def F.CAN_PCFG_ACCEPT_ALL : Fld := ⟨8, 8⟩
def F.CAN_PCFG_AA_RX : Fld := ⟨9, 9⟩
def F.CAN_PCFG_AA_HARB : Fld := ⟨10, 10⟩
def R.CAN_TDC (n : Nat) : Nat := 0xE0B00410 + 0x100 * n
def F.CAN_TDC_TDCO : Fld := ⟨7, 0⟩
def F.CAN_TDC_TDC_EN : Fld := ⟨8, 8⟩
def R.CAN_XPWM (n : Nat) : Nat := 0xE0B00414 + 0x100 * n
def F.CAN_XPWM_PWMS : Fld := ⟨5, 0⟩
def F.CAN_XPWM_PWML : Fld := ⟨13, 8⟩
def F.CAN_XPWM_PWMO : Fld := ⟨21, 16⟩
def F.CAN_XPWM_TMS : Fld := ⟨24, 24⟩
def R.CAN_FLT (n : Nat) : Nat := 0xE0B00418 + 0x100 * n
def F.CAN_FLT_FBASE : Fld := ⟨12, 0⟩
def F.CAN_FLT_FCNT : Fld := ⟨25, 16⟩
def R.CAN_TRX (n : Nat) : Nat := 0xE0B0041C + 0x100 * n
def F.CAN_TRX_TRX : Fld := ⟨1, 0⟩
def F.CAN_TRX_WAKE_MODE : Fld := ⟨5, 4⟩
def F.CAN_TRX_WUF_RATE : Fld := ⟨7, 6⟩
def R.CAN_CTL (n : Nat) : Nat := 0xE0B0043C + 0x100 * n
def F.CAN_CTL_RECOVER : Fld := ⟨0, 0⟩
def R.CAN_STAT (n : Nat) : Nat := 0xE0B00440 + 0x100 * n
def F.CAN_STAT_TRX : Fld := ⟨1, 0⟩
def F.CAN_STAT_ERRST : Fld := ⟨3, 2⟩
def F.CAN_STAT_PHY_FAULT : Fld := ⟨4, 4⟩
def F.CAN_STAT_DOM_CLAMP : Fld := ⟨5, 5⟩
def F.CAN_STAT_LEC : Fld := ⟨10, 8⟩
def F.CAN_STAT_TEC : Fld := ⟨23, 16⟩
def F.CAN_STAT_REC : Fld := ⟨31, 24⟩
def R.CAN_WAKE (n : Nat) : Nat := 0xE0B00444 + 0x100 * n
def F.CAN_WAKE_SRC : Fld := ⟨2, 0⟩
def F.CAN_WAKE_WOKE : Fld := ⟨8, 8⟩
def F.CAN_WAKE_FEC : Fld := ⟨21, 16⟩
def R.CAN_TXQ (n : Nat) : Nat := 0xE0B00448 + 0x100 * n
def F.CAN_TXQ_LAST_SEQ : Fld := ⟨15, 0⟩
def F.CAN_TXQ_FILL : Fld := ⟨21, 16⟩
def R.CAN_CNT (n k : Nat) : Nat := 0xE0B00450 + 0x100 * n + 0x4 * k
def F.CAN_CNT_COUNT : Fld := ⟨31, 0⟩
def R.CAN_RX_CTL (n : Nat) : Nat := 0xE0B80000 + 0x1000 * n
def F.CAN_RX_CTL_CUR_VALID : Fld := ⟨0, 0⟩
def F.CAN_RX_CTL_SHD_VALID : Fld := ⟨1, 1⟩
def F.CAN_RX_CTL_RX_DONE : Fld := ⟨2, 2⟩
def F.CAN_RX_CTL_COUNT : Fld := ⟨16, 8⟩
def F.CAN_RX_CTL_LOST : Fld := ⟨24, 24⟩
def F.CAN_RX_CTL_DONE_IDLE : Fld := ⟨25, 25⟩
def R.CAN_RX_CFG (n : Nat) : Nat := 0xE0B80004 + 0x1000 * n
def F.CAN_RX_CFG_RXD_M1 : Fld := ⟨7, 0⟩
def F.CAN_RX_CFG_OVW : Fld := ⟨8, 8⟩
def R.CAN_RX_IRQ (n : Nat) : Nat := 0xE0B80008 + 0x1000 * n
def F.CAN_RX_IRQ_EN : Fld := ⟨0, 0⟩
def F.CAN_RX_IRQ_FUNC : Fld := ⟨13, 8⟩
def F.CAN_RX_IRQ_VECTOR : Fld := ⟨20, 16⟩

/-! ### LIN (spec/13_can_and_lin.md) -/
def R.LIN_COMMIT : Nat := 0xE0C00004
def R.LIN_STATUS : Nat := 0xE0C00008
def F.LIN_STATUS_CFG_INCONSISTENT : Fld := ⟨0, 0⟩
def R.LIN_CFG (p : Nat) : Nat := 0xE0C00400 + 0x100 * p
def F.LIN_CFG_ROLE : Fld := ⟨0, 0⟩
def F.LIN_CFG_AUTOBAUD : Fld := ⟨1, 1⟩
def F.LIN_CFG_BRK_BITS : Fld := ⟨6, 2⟩
def F.LIN_CFG_DELIM_M1 : Fld := ⟨8, 7⟩
def F.LIN_CFG_BAUD : Fld := ⟨31, 16⟩
def R.LIN_TIME (p : Nat) : Nat := 0xE0C00404 + 0x100 * p
def F.LIN_TIME_SLEEP_S : Fld := ⟨3, 0⟩
def F.LIN_TIME_WAKE_US : Fld := ⟨28, 16⟩
def R.LIN_SCHED (p : Nat) : Nat := 0xE0C00408 + 0x100 * p
def F.LIN_SCHED_EN : Fld := ⟨0, 0⟩
def F.LIN_SCHED_ALIGN : Fld := ⟨1, 1⟩
def F.LIN_SCHED_LEN_M1 : Fld := ⟨13, 8⟩
def R.LIN_CTL (p : Nat) : Nat := 0xE0C0040C + 0x100 * p
def F.LIN_CTL_WAKE : Fld := ⟨0, 0⟩
def R.LIN_STAT (p : Nat) : Nat := 0xE0C00440 + 0x100 * p
def F.LIN_STAT_STATE : Fld := ⟨1, 0⟩
def F.LIN_STAT_WOKE : Fld := ⟨2, 2⟩
def F.LIN_STAT_SYNC_ERR : Fld := ⟨3, 3⟩
def F.LIN_STAT_LAST_PID : Fld := ⟨13, 8⟩
def F.LIN_STAT_RATE : Fld := ⟨31, 16⟩
def R.LIN_SLOT (p s : Nat) : Nat := 0xE0C04000 + 0x100 * p + 0x4 * s
def F.LIN_SLOT_PID : Fld := ⟨5, 0⟩
def F.LIN_SLOT_DELAY : Fld := ⟨31, 16⟩

/-! ### ETHS (spec/14_ethernet_and_time.md) -/
def R.ETHS_COMMIT : Nat := 0xE0D00004
def R.ETHS_STATUS : Nat := 0xE0D00008
def F.ETHS_STATUS_FREE_CELLS : Fld := ⟨14, 0⟩
def F.ETHS_STATUS_CFG_INCONSISTENT : Fld := ⟨16, 16⟩
def R.ETHS_CTRL : Nat := 0xE0D00010
def F.ETHS_CTRL_CTRL_BURST : Fld := ⟨15, 0⟩
def F.ETHS_CTRL_CTRL_RATE : Fld := ⟨31, 16⟩
def R.ETHS_WAKE : Nat := 0xE0D00020
def F.ETHS_WAKE_WOKE : Fld := ⟨9, 0⟩
def R.ETHS_P_CFG (p : Nat) : Nat := 0xE0D00400 + 0x100 * p
def F.ETHS_P_CFG_EN : Fld := ⟨0, 0⟩
def F.ETHS_P_CFG_ROLE : Fld := ⟨1, 1⟩
def F.ETHS_P_CFG_SPEED : Fld := ⟨3, 2⟩
def F.ETHS_P_CFG_GATE_EN : Fld := ⟨4, 4⟩
def F.ETHS_P_CFG_TB_SEL : Fld := ⟨6, 5⟩
def F.ETHS_P_CFG_MACSEC_EN : Fld := ⟨7, 7⟩
def F.ETHS_P_CFG_PTP_BYPASS : Fld := ⟨8, 8⟩
def F.ETHS_P_CFG_NODE_ID : Fld := ⟨11, 9⟩
def F.ETHS_P_CFG_NODE_COUNT_M1 : Fld := ⟨14, 12⟩
def F.ETHS_P_CFG_AS_EN : Fld := ⟨15, 15⟩
def F.ETHS_P_CFG_GCL_LEN_M1 : Fld := ⟨23, 16⟩
def R.ETHS_P_CYCLE (p : Nat) : Nat := 0xE0D00404 + 0x100 * p
def F.ETHS_P_CYCLE_CYCLE_NS : Fld := ⟨29, 0⟩
def R.ETHS_P_QMAX (p : Nat) : Nat := 0xE0D00414 + 0x100 * p
def F.ETHS_P_QMAX_Q_MAX : Fld := ⟨15, 0⟩
def R.ETHS_P_WAKE (p : Nat) : Nat := 0xE0D00418 + 0x100 * p
def F.ETHS_P_WAKE_WAKE_FWD : Fld := ⟨9, 0⟩
def F.ETHS_P_WAKE_WAKE_EN : Fld := ⟨16, 16⟩
def R.ETHS_P_STAT (p : Nat) : Nat := 0xE0D00440 + 0x100 * p
def F.ETHS_P_STAT_LINK : Fld := ⟨0, 0⟩
def F.ETHS_P_STAT_PHY_FAULT : Fld := ⟨1, 1⟩
def F.ETHS_P_STAT_GCL_IDLE : Fld := ⟨2, 2⟩
def F.ETHS_P_STAT_GCL_PENDING : Fld := ⟨3, 3⟩
def F.ETHS_P_STAT_TC10 : Fld := ⟨6, 4⟩
def F.ETHS_P_STAT_PN_WARN : Fld := ⟨7, 7⟩
def F.ETHS_P_STAT_NO_SA : Fld := ⟨8, 8⟩
def R.ETHS_P_CNT (p k : Nat) : Nat := 0xE0D00480 + 0x100 * p + 0x4 * k
def F.ETHS_P_CNT_COUNT : Fld := ⟨31, 0⟩
def R.ETHS_P_GCL (p j : Nat) : Nat := 0xE0D10000 + 0x400 * p + 0x4 * j
def F.ETHS_P_GCL_GATES : Fld := ⟨7, 0⟩
def F.ETHS_P_GCL_INTERVAL : Fld := ⟨31, 8⟩
def R.ETHS_MS_CFG (u : Nat) : Nat := 0xE0D30000 + 0x100 * u
def F.ETHS_MS_CFG_XPN : Fld := ⟨0, 0⟩
def F.ETHS_MS_CFG_CONF : Fld := ⟨1, 1⟩
def F.ETHS_MS_CFG_CONF_OFS : Fld := ⟨3, 2⟩
def R.ETHS_MS_REPLAY (u : Nat) : Nat := 0xE0D30004 + 0x100 * u
def F.ETHS_MS_REPLAY_WINDOW : Fld := ⟨31, 0⟩
def R.ETHS_MS_TXSA (u : Nat) : Nat := 0xE0D30008 + 0x100 * u
def F.ETHS_MS_TXSA_AN : Fld := ⟨0, 0⟩

/-! ### TIME (spec/14_ethernet_and_time.md) -/
def R.TIME_TB_CFG (n : Nat) : Nat := 0xE0E00100 + 0x80 * n
def F.TIME_TB_CFG_EN : Fld := ⟨0, 0⟩
def F.TIME_TB_CFG_INIT_RTC : Fld := ⟨1, 1⟩
def F.TIME_TB_CFG_SERVO_EN : Fld := ⟨2, 2⟩
def F.TIME_TB_CFG_STEP_EN : Fld := ⟨3, 3⟩
def F.TIME_TB_CFG_DOMAIN : Fld := ⟨10, 4⟩
def F.TIME_TB_CFG_DOM_EN : Fld := ⟨11, 11⟩
def F.TIME_TB_CFG_GM_CAP : Fld := ⟨12, 12⟩
def R.TIME_TB_GAIN (n : Nat) : Nat := 0xE0E00104 + 0x80 * n
def F.TIME_TB_GAIN_KP : Fld := ⟨15, 0⟩
def F.TIME_TB_GAIN_KI : Fld := ⟨31, 16⟩
def R.TIME_TB_STEP (n : Nat) : Nat := 0xE0E00108 + 0x80 * n
def F.TIME_TB_STEP_STEP_NS : Fld := ⟨23, 0⟩
def R.TIME_TB_LOCK (n : Nat) : Nat := 0xE0E0010C + 0x80 * n
def F.TIME_TB_LOCK_LOCK_NS : Fld := ⟨15, 0⟩
def F.TIME_TB_LOCK_HOLD_S_M1 : Fld := ⟨23, 16⟩
def R.TIME_TB_FREQ (n : Nat) : Nat := 0xE0E0011C + 0x80 * n
def F.TIME_TB_FREQ_FREQ : Fld := ⟨31, 0⟩
def R.TIME_TB_OFS_T (n : Nat) : Nat := 0xE0E00128 + 0x80 * n
def F.TIME_TB_OFS_T_T_US : Fld := ⟨23, 0⟩
def R.TIME_TB_STAT (n : Nat) : Nat := 0xE0E00140 + 0x80 * n
def F.TIME_TB_STAT_RUNNING : Fld := ⟨0, 0⟩
def F.TIME_TB_STAT_LOCKED : Fld := ⟨1, 1⟩
def F.TIME_TB_STAT_HOLDOVER : Fld := ⟨2, 2⟩
def F.TIME_TB_STAT_STEPPED : Fld := ⟨3, 3⟩
def F.TIME_TB_STAT_SAMPLE_BAD : Fld := ⟨4, 4⟩
def F.TIME_TB_STAT_REF_HALF : Fld := ⟨5, 5⟩
def F.TIME_TB_STAT_STEPS : Fld := ⟨31, 16⟩
def R.TIME_P_ASYM (p : Nat) : Nat := 0xE0E01008 + 0x20 * p
def F.TIME_P_ASYM_ASYM : Fld := ⟨31, 0⟩
def R.TIME_P_TXTS_TAIL (p : Nat) : Nat := 0xE0E0100C + 0x20 * p
def F.TIME_P_TXTS_TAIL_TAIL : Fld := ⟨3, 0⟩

/-! ### HARB (spec/15_harbour_and_causeway.md) -/
def R.HARB_CFG : Nat := 0xE0F00000
def F.HARB_CFG_UDP_PORT : Fld := ⟨15, 0⟩
def R.HARB_COMMIT : Nat := 0xE0F00004
def R.HARB_STATUS : Nat := 0xE0F00008
def F.HARB_STATUS_CFG_INCONSISTENT : Fld := ⟨0, 0⟩
def F.HARB_STATUS_INGRESS_FULL : Fld := ⟨1, 1⟩
def F.HARB_STATUS_ERR_IDX : Fld := ⟨29, 16⟩
def F.HARB_STATUS_ERR_ROUTE : Fld := ⟨30, 30⟩
def R.HARB_CNT (n : Nat) : Nat := 0xE0F00100 + 0x4 * n
def F.HARB_CNT_COUNT : Fld := ⟨31, 0⟩

/-! ### CWY (spec/15_harbour_and_causeway.md) -/
def R.CWY_CFG : Nat := 0xE1000000
def F.CWY_CFG_UDP_PORT : Fld := ⟨15, 0⟩
def F.CWY_CFG_SDT : Fld := ⟨23, 16⟩
def R.CWY_TIMING : Nat := 0xE100000C
def F.CWY_TIMING_RTO : Fld := ⟨15, 0⟩
def F.CWY_TIMING_HOLD_TO : Fld := ⟨31, 16⟩
def R.CWY_DISC : Nat := 0xE1000010
def F.CWY_DISC_DISC_S : Fld := ⟨7, 0⟩
def F.CWY_DISC_HB_MS : Fld := ⟨23, 8⟩
def R.CWY_ERR_HEAD : Nat := 0xE1000020
def F.CWY_ERR_HEAD_HEAD : Fld := ⟨5, 0⟩
def R.CWY_ERR_TAIL : Nat := 0xE1000024
def F.CWY_ERR_TAIL_TAIL : Fld := ⟨5, 0⟩
def R.CWY_CNT (n : Nat) : Nat := 0xE1000100 + 0x4 * n
def F.CWY_CNT_COUNT : Fld := ⟨31, 0⟩
def R.CWY_W_CFG (n : Nat) : Nat := 0xE1004000 + 0x40 * n
def F.CWY_W_CFG_EN : Fld := ⟨0, 0⟩
def F.CWY_W_CFG_OWNER_SEC : Fld := ⟨1, 1⟩
def F.CWY_W_CFG_FENCE_ON_ERROR : Fld := ⟨5, 5⟩
def F.CWY_W_CFG_PREF_LEN : Fld := ⟨7, 6⟩
def F.CWY_W_CFG_NODE : Fld := ⟨15, 8⟩
def F.CWY_W_CFG_OWNER : Fld := ⟨21, 16⟩
def F.CWY_W_CFG_ERR_VEC : Fld := ⟨28, 24⟩
def R.CWY_W_RBASE (n : Nat) : Nat := 0xE1004004 + 0x40 * n
def F.CWY_W_RBASE_RBASE : Fld := ⟨31, 13⟩
def R.CWY_W_PREF (n : Nat) : Nat := 0xE1004008 + 0x40 * n
def F.CWY_W_PREF_PREF_LIFE : Fld := ⟨15, 0⟩
def R.CWY_W_RNG (n r : Nat) : Nat := 0xE1004010 + 0x40 * n + 0x4 * r
def F.CWY_W_RNG_START : Fld := ⟨12, 0⟩
def F.CWY_W_RNG_LEN : Fld := ⟨29, 16⟩
def F.CWY_W_RNG_POSTED : Fld := ⟨30, 30⟩
def F.CWY_W_RNG_SEF : Fld := ⟨31, 31⟩
def R.CWY_W_STAT (n : Nat) : Nat := 0xE1004020 + 0x40 * n
def F.CWY_W_STAT_FENCED : Fld := ⟨0, 0⟩
def F.CWY_W_STAT_FENCE_ACK : Fld := ⟨1, 1⟩
def F.CWY_W_STAT_PREF_CONFLICT : Fld := ⟨2, 2⟩
def F.CWY_W_STAT_NODE_LOST : Fld := ⟨3, 3⟩
def F.CWY_W_STAT_NP_OUT : Fld := ⟨8, 4⟩
def F.CWY_W_STAT_P_OUT : Fld := ⟨24, 16⟩
def R.CWY_W_LAST_DISC (n : Nat) : Nat := 0xE1004024 + 0x40 * n
def F.CWY_W_LAST_DISC_LAST_DISC : Fld := ⟨31, 0⟩

/-! ### NMS (spec/16_network_sleep.md) -/
def R.NMS_CFG : Nat := 0xE1100000
def F.NMS_CFG_MOD_SLEEP : Fld := ⟨0, 0⟩
def F.NMS_CFG_FIELD_COVES : Fld := ⟨15, 8⟩
def F.NMS_CFG_RING_UDP : Fld := ⟨31, 16⟩
def R.NMS_COMMIT : Nat := 0xE1100004
def R.NMS_STATUS : Nat := 0xE1100008
def F.NMS_STATUS_CFG_INCONSISTENT : Fld := ⟨0, 0⟩
def F.NMS_STATUS_MOD_ENTERING : Fld := ⟨1, 1⟩
def R.NMS_WAKE_PENDING : Nat := 0xE110000C
def F.NMS_WAKE_PENDING_COVES : Fld := ⟨7, 0⟩
def F.NMS_WAKE_PENDING_MOD : Fld := ⟨8, 8⟩
def F.NMS_WAKE_PENDING_SEEN : Fld := ⟨15, 15⟩
def R.NMS_CNT (n : Nat) : Nat := 0xE1100100 + 0x4 * n
def F.NMS_CNT_COUNT : Fld := ⟨31, 0⟩
def R.NMS_COVE_CFG0 (c : Nat) : Nat := 0xE1100400 + 0x40 * c
def F.NMS_COVE_CFG0_EN : Fld := ⟨0, 0⟩
def F.NMS_COVE_CFG0_RING_PORT : Fld := ⟨6, 1⟩
def F.NMS_COVE_CFG0_RING_EXT : Fld := ⟨7, 7⟩
def F.NMS_COVE_CFG0_N_MEM : Fld := ⟨12, 8⟩
def F.NMS_COVE_CFG0_FANOUT : Fld := ⟨23, 16⟩
def F.NMS_COVE_CFG0_MAX_RINGS_M1 : Fld := ⟨31, 24⟩
def R.NMS_COVE_CFG1 (c : Nat) : Nat := 0xE1100404 + 0x40 * c
def F.NMS_COVE_CFG1_DUSK_MS : Fld := ⟨15, 0⟩
def F.NMS_COVE_CFG1_T_HOP_MS : Fld := ⟨22, 16⟩
def F.NMS_COVE_CFG1_RETRY_S : Fld := ⟨31, 24⟩
def R.NMS_COVE_CFG2 (c : Nat) : Nat := 0xE1100408 + 0x40 * c
def F.NMS_COVE_CFG2_RING_ID : Fld := ⟨28, 0⟩
def R.NMS_COVE_CFG3 (c : Nat) : Nat := 0xE110040C + 0x40 * c
def F.NMS_COVE_CFG3_AUTO_IDLE_S : Fld := ⟨15, 0⟩
def F.NMS_COVE_CFG3_AUTO_IDLE_EN : Fld := ⟨16, 16⟩
def R.NMS_COVE_STAT (c : Nat) : Nat := 0xE1100410 + 0x40 * c
def F.NMS_COVE_STAT_STATE : Fld := ⟨2, 0⟩
def F.NMS_COVE_STAT_REQ : Fld := ⟨3, 3⟩
def F.NMS_COVE_STAT_RING : Fld := ⟨15, 8⟩
def F.NMS_COVE_STAT_POS : Fld := ⟨20, 16⟩
def F.NMS_COVE_STAT_FAILS : Fld := ⟨31, 24⟩
def R.NMS_COVE_KEEP (c : Nat) : Nat := 0xE1100414 + 0x40 * c
def F.NMS_COVE_KEEP_KEEPERS : Fld := ⟨7, 0⟩
def R.NMS_COVE_UNK (c : Nat) : Nat := 0xE1100418 + 0x40 * c
def F.NMS_COVE_UNK_UNK_ID : Fld := ⟨23, 0⟩
def F.NMS_COVE_UNK_REASON : Fld := ⟨31, 24⟩

/-! ### LSTP (spec/17_compute_and_partitions.md) -/
def R.LSTP_STATUS : Nat := 0xE1400000
def F.LSTP_STATUS_LSTEP_BROKEN : Fld := ⟨0, 0⟩
def F.LSTP_STATUS_DBG_ATTACHED : Fld := ⟨1, 1⟩
def F.LSTP_STATUS_CFG_INCONSISTENT : Fld := ⟨2, 2⟩
def R.LSTP_COMMIT : Nat := 0xE1400004
def R.LSTP_LAST : Nat := 0xE1400008
def F.LSTP_LAST_PAIR : Fld := ⟨2, 0⟩
def F.LSTP_LAST_INJECTED : Fld := ⟨3, 3⟩
def F.LSTP_LAST_WINDOW : Fld := ⟨31, 8⟩
def R.LSTP_INJECT : Nat := 0xE140000C
def F.LSTP_INJECT_PAIR : Fld := ⟨2, 0⟩
def F.LSTP_INJECT_KEY : Fld := ⟨31, 16⟩
def R.LSTP_PAIR_CFG (k : Nat) : Nat := 0xE1400100 + 0x10 * k
def F.LSTP_PAIR_CFG_EN : Fld := ⟨0, 0⟩
def F.LSTP_PAIR_CFG_SEC : Fld := ⟨1, 1⟩
def F.LSTP_PAIR_CFG_FUNC : Fld := ⟨13, 8⟩
def R.LSTP_PAIR_STAT (k : Nat) : Nat := 0xE1400104 + 0x10 * k
def F.LSTP_PAIR_STAT_RUNNING : Fld := ⟨0, 0⟩
def F.LSTP_PAIR_STAT_COMPARING : Fld := ⟨1, 1⟩
def F.LSTP_PAIR_STAT_BROKEN : Fld := ⟨2, 2⟩
def F.LSTP_PAIR_STAT_MISMATCHES : Fld := ⟨31, 16⟩

/-! ### POT (spec/17_compute_and_partitions.md) -/
def R.POT_STATUS : Nat := 0xE1300000
def F.POT_STATUS_BUSY : Fld := ⟨0, 0⟩
def F.POT_STATUS_UPD_ERR : Fld := ⟨1, 1⟩
def F.POT_STATUS_VIOL_COUNT : Fld := ⟨31, 16⟩
def R.POT_UPD_CNT : Nat := 0xE1300018
def F.POT_UPD_CNT_PAGES : Fld := ⟨20, 0⟩
def R.POT_UPD_ENTRY : Nat := 0xE130001C
def F.POT_UPD_ENTRY_ENTRY : Fld := ⟨9, 0⟩
def F.POT_UPD_ENTRY_KEEP : Fld := ⟨16, 16⟩
def F.POT_UPD_ENTRY_REPL_ONLY : Fld := ⟨17, 17⟩
def F.POT_UPD_ENTRY_GO : Fld := ⟨31, 31⟩
def R.POT_VIOL_SRC : Nat := 0xE1300028
def F.POT_VIOL_SRC_PART : Fld := ⟨5, 0⟩
def F.POT_VIOL_SRC_SEC : Fld := ⟨6, 6⟩
def F.POT_VIOL_SRC_INITIATOR : Fld := ⟨11, 8⟩
def F.POT_VIOL_SRC_DMA_CH : Fld := ⟨21, 16⟩
def F.POT_VIOL_SRC_WRITE : Fld := ⟨24, 24⟩

/-! ### IOV (spec/17_compute_and_partitions.md) -/
def R.IOV_CNT (n : Nat) : Nat := 0xE1200100 + 0x4 * n
def F.IOV_CNT_COUNT : Fld := ⟨31, 0⟩
def R.IOV_FN_CFG (f : Nat) : Nat := 0xE1201000 + 0x40 * f
def F.IOV_FN_CFG_EN : Fld := ⟨0, 0⟩
def F.IOV_FN_CFG_REPL : Fld := ⟨1, 1⟩
def F.IOV_FN_CFG_DIRTY_EN : Fld := ⟨2, 2⟩
def F.IOV_FN_CFG_PERMIT : Fld := ⟨31, 16⟩
def R.IOV_FN_STATE (f : Nat) : Nat := 0xE1201004 + 0x40 * f
def F.IOV_FN_STATE_STATE : Fld := ⟨1, 0⟩
def F.IOV_FN_STATE_DIRTY_SEL : Fld := ⟨2, 2⟩
def F.IOV_FN_STATE_DIRTY_OTHER : Fld := ⟨3, 3⟩
def F.IOV_FN_STATE_QUEUES : Fld := ⟨8, 4⟩
def F.IOV_FN_STATE_DB_DROP : Fld := ⟨31, 16⟩
def R.IOV_FN_QTO (f : Nat) : Nat := 0xE1201008 + 0x40 * f
def F.IOV_FN_QTO_QTO_MS_M1 : Fld := ⟨9, 0⟩
def R.IOV_Q_CFG (q : Nat) : Nat := 0xE1208000 + 0x20 * q
def F.IOV_Q_CFG_FUNC : Fld := ⟨5, 0⟩
def F.IOV_Q_CFG_KIND : Fld := ⟨6, 6⟩
def F.IOV_Q_CFG_EN : Fld := ⟨7, 7⟩
def F.IOV_Q_CFG_DEPTH_M1 : Fld := ⟨19, 8⟩
def F.IOV_Q_CFG_VECTOR : Fld := ⟨24, 20⟩
def F.IOV_Q_CFG_IRQ_EN : Fld := ⟨25, 25⟩
def F.IOV_Q_CFG_CQ_THR_M1 : Fld := ⟨31, 26⟩
def R.IOV_Q_STAT (q : Nat) : Nat := 0xE1208018 + 0x20 * q
def F.IOV_Q_STAT_STOPPED : Fld := ⟨0, 0⟩
def F.IOV_Q_STAT_CQ_FULL : Fld := ⟨1, 1⟩

/-! ### LHS (spec/18_security.md) -/
def R.LHS_STATUS : Nat := 0xE1500000
def F.LHS_STATUS_LIFECYCLE : Fld := ⟨2, 0⟩
def F.LHS_STATUS_LC_PENDING : Fld := ⟨3, 3⟩
def F.LHS_STATUS_LC_TARGET : Fld := ⟨6, 4⟩
def F.LHS_STATUS_LC_REPAIRED : Fld := ⟨7, 7⟩
def F.LHS_STATUS_BOOT_BANK : Fld := ⟨8, 8⟩
def F.LHS_STATUS_BOOT_FALLBACK : Fld := ⟨9, 9⟩
def F.LHS_STATUS_BOOT_FAIL : Fld := ⟨10, 10⟩
def F.LHS_STATUS_IMG_FAIL : Fld := ⟨11, 11⟩
def F.LHS_STATUS_DBG_UNLOCKED : Fld := ⟨12, 12⟩
def F.LHS_STATUS_KEY_LOST : Fld := ⟨13, 13⟩
def F.LHS_STATUS_ERASED_ALL : Fld := ⟨14, 14⟩
def F.LHS_STATUS_CFG_INCONSISTENT : Fld := ⟨15, 15⟩
def R.LHS_BOOT : Nat := 0xE1500004
def F.LHS_BOOT_FAIL_A : Fld := ⟨2, 0⟩
def F.LHS_BOOT_FAIL_B : Fld := ⟨6, 4⟩
def F.LHS_BOOT_KEY_IDX : Fld := ⟨9, 8⟩
def R.LHS_CFG : Nat := 0xE1500008
def F.LHS_CFG_RESET_SLOT : Fld := ⟨7, 0⟩
def F.LHS_CFG_RESET_EN : Fld := ⟨8, 8⟩
def R.LHS_COMMIT : Nat := 0xE150000C
def R.LHS_KP (j : Nat) : Nat := 0xE1500020 + 0x4 * j
def F.LHS_KP_PROG : Fld := ⟨0, 0⟩
def F.LHS_KP_REVOKED : Fld := ⟨1, 1⟩
def F.LHS_KP_IN_USE : Fld := ⟨2, 2⟩
def R.LHS_EVT_CFG (s : Nat) : Nat := 0xE1500100 + 0x10 * s
def F.LHS_EVT_CFG_RESP : Fld := ⟨2, 0⟩
def F.LHS_EVT_CFG_THR_M1 : Fld := ⟨15, 8⟩
def F.LHS_EVT_CFG_WINDOW_S_M1 : Fld := ⟨27, 16⟩
def R.LHS_EVT_CNT (s : Nat) : Nat := 0xE1500104 + 0x10 * s
def F.LHS_EVT_CNT_COUNT : Fld := ⟨15, 0⟩
def F.LHS_EVT_CNT_IN_WINDOW : Fld := ⟨23, 16⟩
def R.LHS_EVT_LAST : Nat := 0xE1500180
def F.LHS_EVT_LAST_SENSOR : Fld := ⟨2, 0⟩
def F.LHS_EVT_LAST_LEVEL : Fld := ⟨6, 4⟩
def F.LHS_EVT_LAST_DETAIL : Fld := ⟨31, 16⟩
def R.LHS_EVT_AON : Nat := 0xE1500184
def F.LHS_EVT_AON_LATCHED : Fld := ⟨7, 0⟩
def R.LHS_PMREQ : Nat := 0xE1500300
def F.LHS_PMREQ_TARGET : Fld := ⟨7, 0⟩
def F.LHS_PMREQ_ACTION : Fld := ⟨10, 8⟩
def R.LHS_PMSTAT : Nat := 0xE1500304
def F.LHS_PMSTAT_PM_DENIED : Fld := ⟨0, 0⟩
def F.LHS_PMSTAT_PENDING : Fld := ⟨1, 1⟩
def R.LHS_KEY_INFO (k : Nat) : Nat := 0xE1502000 + 0x4 * k
def F.LHS_KEY_INFO_VALID : Fld := ⟨0, 0⟩
def F.LHS_KEY_INFO_TYPE : Fld := ⟨3, 1⟩
def F.LHS_KEY_INFO_PERSIST : Fld := ⟨4, 4⟩
def F.LHS_KEY_INFO_USAGE : Fld := ⟨11, 8⟩

/-! ### UPD (spec/19_firmware_update.md) -/
def R.UPD_CFG : Nat := 0xE1600000
def F.UPD_CFG_CONFIRM_S_M1 : Fld := ⟨15, 0⟩
def F.UPD_CFG_DRAIN_MS_M1 : Fld := ⟨23, 16⟩
def R.UPD_COMMIT : Nat := 0xE1600004
def R.UPD_STATUS : Nat := 0xE1600008
def F.UPD_STATUS_STATE : Fld := ⟨2, 0⟩
def F.UPD_STATUS_ACTIVE_BANK : Fld := ⟨3, 3⟩
def F.UPD_STATUS_MIXED : Fld := ⟨4, 4⟩
def F.UPD_STATUS_XLATE_FAIL : Fld := ⟨5, 5⟩
def F.UPD_STATUS_VERSION_MISMATCH : Fld := ⟨6, 6⟩
def F.UPD_STATUS_CFG_INCONSISTENT : Fld := ⟨7, 7⟩
def F.UPD_STATUS_CONFIRM_LEFT : Fld := ⟨31, 16⟩
def R.UPD_PROGRESS : Nat := 0xE160000C
def F.UPD_PROGRESS_NEXT : Fld := ⟨12, 0⟩
def F.UPD_PROGRESS_INDEX_OK : Fld := ⟨13, 13⟩
def F.UPD_PROGRESS_TOTAL : Fld := ⟨28, 16⟩
def R.UPD_RELAY_STAT (t : Nat) : Nat := 0xE1600100 + 0x10 * t
def F.UPD_RELAY_STAT_ACKED : Fld := ⟨12, 0⟩
def F.UPD_RELAY_STAT_ACTIVE : Fld := ⟨16, 16⟩
def F.UPD_RELAY_STAT_FAILED : Fld := ⟨17, 17⟩
def F.UPD_RELAY_STAT_ERR : Fld := ⟨31, 24⟩
def R.UPD_CNT (n : Nat) : Nat := 0xE1600200 + 0x4 * n
def F.UPD_CNT_COUNT : Fld := ⟨31, 0⟩

/-! ### PARI (spec/20_parish_register.md) -/
def R.PARI_CFG : Nat := 0xE1700000
def F.PARI_CFG_FLUSH_S_M1 : Fld := ⟨7, 0⟩
def F.PARI_CFG_UTC_OFS : Fld := ⟨14, 8⟩
def F.PARI_CFG_UTC_SYNC : Fld := ⟨15, 15⟩
def F.PARI_CFG_WEAR_THR : Fld := ⟨31, 16⟩
def R.PARI_COMMIT : Nat := 0xE1700004
def R.PARI_STATUS : Nat := 0xE1700008
def F.PARI_STATUS_CAL_VALID : Fld := ⟨0, 0⟩
def F.PARI_STATUS_WEAR_WARN : Fld := ⟨1, 1⟩
def F.PARI_STATUS_CFG_INCONSISTENT : Fld := ⟨2, 2⟩
def F.PARI_STATUS_SLOT_BAD : Fld := ⟨3, 3⟩
def F.PARI_STATUS_CAL_STEPS : Fld := ⟨31, 16⟩

/-! ### CVC (spec/12_converter_control.md) -/
def R.CVC_PP_TRGA (k : Nat) : Nat := 0xE0A01004 + 0x40 * k
def F.CVC_PP_TRGA_POS : Fld := ⟨28, 0⟩
def R.CVC_PP_TRGB (k : Nat) : Nat := 0xE0A01008 + 0x40 * k
def F.CVC_PP_TRGB_POS : Fld := ⟨28, 0⟩
def R.CVC_PP_PER (k : Nat) : Nat := 0xE0A0100C + 0x40 * k
def F.CVC_PP_PER_V : Fld := ⟨28, 0⟩
def R.CVC_PP_AON (k : Nat) : Nat := 0xE0A01010 + 0x40 * k
def F.CVC_PP_AON_V : Fld := ⟨28, 0⟩
def R.CVC_PP_AOFF (k : Nat) : Nat := 0xE0A01014 + 0x40 * k
def F.CVC_PP_AOFF_V : Fld := ⟨28, 0⟩
def R.CVC_PP_BON (k : Nat) : Nat := 0xE0A01018 + 0x40 * k
def F.CVC_PP_BON_V : Fld := ⟨28, 0⟩
def R.CVC_PP_BOFF (k : Nat) : Nat := 0xE0A0101C + 0x40 * k
def F.CVC_PP_BOFF_V : Fld := ⟨28, 0⟩
def R.CVC_PP_PHS (k : Nat) : Nat := 0xE0A01020 + 0x40 * k
def F.CVC_PP_PHS_V : Fld := ⟨28, 0⟩
def R.CVC_KN_B0 (i : Nat) : Nat := 0xE0A05008 + 0x80 * i
def F.CVC_KN_B0_COEF : Fld := ⟨31, 0⟩
def R.CVC_KN_B1 (i : Nat) : Nat := 0xE0A0500C + 0x80 * i
def F.CVC_KN_B1_COEF : Fld := ⟨31, 0⟩
def R.CVC_KN_B2 (i : Nat) : Nat := 0xE0A05010 + 0x80 * i
def F.CVC_KN_B2_COEF : Fld := ⟨31, 0⟩
def R.CVC_KN_B3 (i : Nat) : Nat := 0xE0A05014 + 0x80 * i
def F.CVC_KN_B3_COEF : Fld := ⟨31, 0⟩
def R.CVC_KN_A1 (i : Nat) : Nat := 0xE0A05018 + 0x80 * i
def F.CVC_KN_A1_COEF : Fld := ⟨31, 0⟩
def R.CVC_KN_A2 (i : Nat) : Nat := 0xE0A0501C + 0x80 * i
def F.CVC_KN_A2_COEF : Fld := ⟨31, 0⟩
def R.CVC_KN_A3 (i : Nat) : Nat := 0xE0A05020 + 0x80 * i
def F.CVC_KN_A3_COEF : Fld := ⟨31, 0⟩
def R.CVC_KN_UMIN (i : Nat) : Nat := 0xE0A05024 + 0x80 * i
def R.CVC_KN_UMAX (i : Nat) : Nat := 0xE0A05028 + 0x80 * i
def R.CVC_KN_STATE (i h w : Nat) : Nat := 0xE0A05040 + 0x80 * i + 0x8 * h + 0x4 * w

/-! ### TIDE (spec/11_tide_engine.md) -/
def R.TIDE_INC_LO : Nat := 0xE0900024
def R.TIDE_INC_HI : Nat := 0xE0900028
def F.TIDE_INC_HI_INC_HI : Fld := ⟨15, 0⟩
def R.TIDE_EXT_FMIN : Nat := 0xE0900208
def F.TIDE_EXT_FMIN_F : Fld := ⟨19, 0⟩
def R.TIDE_EXT_FMAX : Nat := 0xE090020C
def F.TIDE_EXT_FMAX_F : Fld := ⟨19, 0⟩

/-! ### CAN (spec/13_can_and_lin.md) -/
def R.CAN_TS_LO : Nat := 0xE0B00010
def R.CAN_TS_HI : Nat := 0xE0B00014
def R.CAN_NBT (n : Nat) : Nat := 0xE0B00404 + 0x100 * n
def F.CAN_NBT_BRP_M1 : Fld := ⟨4, 0⟩
def F.CAN_NBT_TSEG1_M1 : Fld := ⟨12, 5⟩
def F.CAN_NBT_TSEG2_M1 : Fld := ⟨19, 13⟩
def F.CAN_NBT_SJW_M1 : Fld := ⟨26, 20⟩
def R.CAN_DBT (n : Nat) : Nat := 0xE0B00408 + 0x100 * n
def F.CAN_DBT_BRP_M1 : Fld := ⟨4, 0⟩
def F.CAN_DBT_TSEG1_M1 : Fld := ⟨12, 5⟩
def F.CAN_DBT_TSEG2_M1 : Fld := ⟨19, 13⟩
def F.CAN_DBT_SJW_M1 : Fld := ⟨26, 20⟩
def R.CAN_XBT (n : Nat) : Nat := 0xE0B0040C + 0x100 * n
def F.CAN_XBT_BRP_M1 : Fld := ⟨4, 0⟩
def F.CAN_XBT_TSEG1_M1 : Fld := ⟨12, 5⟩
def F.CAN_XBT_TSEG2_M1 : Fld := ⟨19, 13⟩
def F.CAN_XBT_SJW_M1 : Fld := ⟨26, 20⟩
def R.CAN_WUF_ID (n : Nat) : Nat := 0xE0B00420 + 0x100 * n
def F.CAN_WUF_ID_ID : Fld := ⟨28, 0⟩
def R.CAN_WUF_MASK (n : Nat) : Nat := 0xE0B00424 + 0x100 * n
def F.CAN_WUF_MASK_MASK : Fld := ⟨28, 0⟩
def R.CAN_WUF_DLO (n : Nat) : Nat := 0xE0B00428 + 0x100 * n
def F.CAN_WUF_DLO_DATA : Fld := ⟨31, 0⟩
def R.CAN_WUF_DHI (n : Nat) : Nat := 0xE0B0042C + 0x100 * n
def F.CAN_WUF_DHI_DATA : Fld := ⟨31, 0⟩
def R.CAN_WUF_CFG (n : Nat) : Nat := 0xE0B00430 + 0x100 * n
def F.CAN_WUF_CFG_WUF_DLC : Fld := ⟨3, 0⟩
def F.CAN_WUF_CFG_WUF_IDE : Fld := ⟨4, 4⟩
def F.CAN_WUF_CFG_DATA_EN : Fld := ⟨5, 5⟩
def R.CAN_FLTRAM (e w : Nat) : Nat := 0xE0B10000 + 0x8 * e + 0x4 * w
def R.CAN_RX_HDR (n w : Nat) : Nat := 0xE0B80100 + 0x1000 * n + 0x4 * w
def R.CAN_RX_DATA (n w : Nat) : Nat := 0xE0B80120 + 0x1000 * n + 0x4 * w

/-! ### LIN (spec/13_can_and_lin.md) -/
def R.LIN_FR_CFG (p j : Nat) : Nat := 0xE0C02000 + 0x400 * p + 0x10 * j
def F.LIN_FR_CFG_EN : Fld := ⟨0, 0⟩
def F.LIN_FR_CFG_DIR : Fld := ⟨2, 1⟩
def F.LIN_FR_CFG_CKS : Fld := ⟨3, 3⟩
def F.LIN_FR_CFG_LEN : Fld := ⟨7, 4⟩
def R.LIN_FR_DATA (p j w : Nat) : Nat := 0xE0C02004 + 0x400 * p + 0x10 * j + 0x4 * w
def F.LIN_FR_DATA_DATA : Fld := ⟨31, 0⟩
def R.LIN_FR_STAT (p j : Nat) : Nat := 0xE0C0200C + 0x400 * p + 0x10 * j
def F.LIN_FR_STAT_FRESH : Fld := ⟨0, 0⟩
def F.LIN_FR_STAT_ERR : Fld := ⟨3, 1⟩
def F.LIN_FR_STAT_COUNT : Fld := ⟨31, 16⟩

/-! ### ETHS (spec/14_ethernet_and_time.md) -/
def R.ETHS_P_BASE_NS (p : Nat) : Nat := 0xE0D00408 + 0x100 * p
def F.ETHS_P_BASE_NS_NS : Fld := ⟨29, 0⟩
def R.ETHS_P_BASE_SLO (p : Nat) : Nat := 0xE0D0040C + 0x100 * p
def F.ETHS_P_BASE_SLO_SEC : Fld := ⟨31, 0⟩
def R.ETHS_P_BASE_SHI (p : Nat) : Nat := 0xE0D00410 + 0x100 * p
def F.ETHS_P_BASE_SHI_SEC : Fld := ⟨15, 0⟩
def R.ETHS_SID_W0 (i : Nat) : Nat := 0xE0D20000 + 0x10 * i
def F.ETHS_SID_W0_MAC : Fld := ⟨31, 0⟩
def R.ETHS_SID_W1 (i : Nat) : Nat := 0xE0D20004 + 0x10 * i
def F.ETHS_SID_W1_MAC : Fld := ⟨15, 0⟩
def F.ETHS_SID_W1_VID : Fld := ⟨27, 16⟩
def R.ETHS_SID_W2 (i : Nat) : Nat := 0xE0D20008 + 0x10 * i
def F.ETHS_SID_W2_EN : Fld := ⟨0, 0⟩
def F.ETHS_SID_W2_KIND : Fld := ⟨1, 1⟩
def R.ETHS_SF_W0 (f : Nat) : Nat := 0xE0D22000 + 0x10 * f
def F.ETHS_SF_W0_SID : Fld := ⟨8, 0⟩
def F.ETHS_SF_W0_EN : Fld := ⟨16, 16⟩
def F.ETHS_SF_W0_CTRL : Fld := ⟨17, 17⟩
def F.ETHS_SF_W0_BLOCK_OVERSIZE : Fld := ⟨18, 18⟩
def F.ETHS_SF_W0_METER_EN : Fld := ⟨19, 19⟩
def F.ETHS_SF_W0_METER : Fld := ⟨26, 20⟩
def F.ETHS_SF_W0_CLS_EN : Fld := ⟨27, 27⟩
def F.ETHS_SF_W0_CLS : Fld := ⟨30, 28⟩
def R.ETHS_SF_W1 (f : Nat) : Nat := 0xE0D22004 + 0x10 * f
def F.ETHS_SF_W1_MAX_SDU : Fld := ⟨10, 0⟩
def R.ETHS_SF_W2 (f : Nat) : Nat := 0xE0D22008 + 0x10 * f
def F.ETHS_SF_W2_BLOCKED : Fld := ⟨0, 0⟩
def R.ETHS_FM_CIR (m : Nat) : Nat := 0xE0D24000 + 0x10 * m
def F.ETHS_FM_CIR_V : Fld := ⟨23, 0⟩
def R.ETHS_FM_EIR (m : Nat) : Nat := 0xE0D24004 + 0x10 * m
def F.ETHS_FM_EIR_V : Fld := ⟨23, 0⟩
def R.ETHS_FM_CBS (m : Nat) : Nat := 0xE0D24008 + 0x10 * m
def F.ETHS_FM_CBS_V : Fld := ⟨20, 0⟩
def R.ETHS_FM_EBS (m : Nat) : Nat := 0xE0D2400C + 0x10 * m
def F.ETHS_FM_EBS_V : Fld := ⟨20, 0⟩
def R.ETHS_FR_CFG (s : Nat) : Nat := 0xE0D26000 + 0x10 * s
def F.ETHS_FR_CFG_SID : Fld := ⟨8, 0⟩
def F.ETHS_FR_CFG_REPLICATE : Fld := ⟨16, 16⟩
def F.ETHS_FR_CFG_ELIMINATE : Fld := ⟨17, 17⟩
def F.ETHS_FR_CFG_RESET_MS : Fld := ⟨29, 20⟩
def R.ETHS_FR_LASTSEQ (s : Nat) : Nat := 0xE0D26004 + 0x10 * s
def R.ETHS_FR_DISC (s : Nat) : Nat := 0xE0D26008 + 0x10 * s
def R.ETHS_FR_ROGUE (s : Nat) : Nat := 0xE0D2600C + 0x10 * s

/-! ### TIME (spec/14_ethernet_and_time.md) -/
def R.TIME_COMMIT : Nat := 0xE0E00004
def R.TIME_STATUS : Nat := 0xE0E00008
def F.TIME_STATUS_CFG_INCONSISTENT : Fld := ⟨0, 0⟩
def R.TIME_TB_NOW_NS (n : Nat) : Nat := 0xE0E00110 + 0x80 * n
def F.TIME_TB_NOW_NS_NS : Fld := ⟨29, 0⟩
def R.TIME_TB_NOW_SLO (n : Nat) : Nat := 0xE0E00114 + 0x80 * n
def F.TIME_TB_NOW_SLO_SEC : Fld := ⟨31, 0⟩
def R.TIME_TB_NOW_SHI (n : Nat) : Nat := 0xE0E00118 + 0x80 * n
def F.TIME_TB_NOW_SHI_SEC : Fld := ⟨15, 0⟩
def F.TIME_TB_NOW_SHI_FRAC : Fld := ⟨31, 16⟩
def R.TIME_TB_OFS_LO (n : Nat) : Nat := 0xE0E00120 + 0x80 * n
def R.TIME_TB_OFS_HI (n : Nat) : Nat := 0xE0E00124 + 0x80 * n
def R.TIME_TB_SET_NS (n : Nat) : Nat := 0xE0E0012C + 0x80 * n
def F.TIME_TB_SET_NS_NS : Fld := ⟨29, 0⟩
def R.TIME_TB_SET_SLO (n : Nat) : Nat := 0xE0E00130 + 0x80 * n
def F.TIME_TB_SET_SLO_SEC : Fld := ⟨31, 0⟩
def R.TIME_TB_SET_SHI (n : Nat) : Nat := 0xE0E00134 + 0x80 * n
def F.TIME_TB_SET_SHI_SEC : Fld := ⟨15, 0⟩
def F.TIME_TB_SET_SHI_GO : Fld := ⟨31, 31⟩
def R.TIME_TB_XCAP (n w : Nat) : Nat := 0xE0E00150 + 0x80 * n + 0x4 * w
def R.TIME_P_EGR (p : Nat) : Nat := 0xE0E01000 + 0x20 * p
def R.TIME_P_ING (p : Nat) : Nat := 0xE0E01004 + 0x20 * p
def R.TIME_P_TXTS (p j w : Nat) : Nat := 0xE0E02000 + 0x100 * p + 0x10 * j + 0x4 * w

/-! ### HARB (spec/15_harbour_and_causeway.md) -/
def R.HARB_EP_ADDR (e w : Nat) : Nat := 0xE0F01000 + 0x20 * e + 0x4 * w
def R.HARB_EP_W4 (e : Nat) : Nat := 0xE0F01010 + 0x20 * e
def F.HARB_EP_W4_UDP : Fld := ⟨15, 0⟩
def F.HARB_EP_W4_VID : Fld := ⟨27, 16⟩
def F.HARB_EP_W4_PCP : Fld := ⟨30, 28⟩
def R.HARB_EP_W5 (e : Nat) : Nat := 0xE0F01014 + 0x20 * e
def F.HARB_EP_W5_LSTREAM : Fld := ⟨9, 0⟩
def R.HARB_PDU_W0 (i : Nat) : Nat := 0xE0F20000 + 0x20 * i
def F.HARB_PDU_W0_EN : Fld := ⟨0, 0⟩
def F.HARB_PDU_W0_DIR : Fld := ⟨1, 1⟩
def F.HARB_PDU_W0_KIND : Fld := ⟨4, 2⟩
def F.HARB_PDU_W0_PORT : Fld := ⟨9, 5⟩
def F.HARB_PDU_W0_TRIG : Fld := ⟨12, 10⟩
def F.HARB_PDU_W0_COVE_ACT : Fld := ⟨14, 13⟩
def F.HARB_PDU_W0_HOLDER_ONLY : Fld := ⟨15, 15⟩
def F.HARB_PDU_W0_HOLD_DEPTH_M1 : Fld := ⟨18, 16⟩
def F.HARB_PDU_W0_LEN : Fld := ⟨31, 20⟩
def R.HARB_PDU_W1 (i : Nat) : Nat := 0xE0F20004 + 0x20 * i
def F.HARB_PDU_W1_ID : Fld := ⟨31, 0⟩
def R.HARB_PDU_W2 (i : Nat) : Nat := 0xE0F20008 + 0x20 * i
def F.HARB_PDU_W2_FORMAT : Fld := ⟨1, 0⟩
def F.HARB_PDU_W2_BRS : Fld := ⟨2, 2⟩
def F.HARB_PDU_W2_EP : Fld := ⟨13, 8⟩
def F.HARB_PDU_W2_MIN_GAP : Fld := ⟨31, 16⟩
def R.HARB_PDU_W3 (i : Nat) : Nat := 0xE0F2000C + 0x20 * i
def F.HARB_PDU_W3_IMG_OFS : Fld := ⟨17, 0⟩
def R.HARB_PDU_W4 (i : Nat) : Nat := 0xE0F20010 + 0x20 * i
def F.HARB_PDU_W4_FIRST_ROUTE : Fld := ⟨13, 0⟩
def F.HARB_PDU_W4_ROUTE_COUNT : Fld := ⟨30, 16⟩
def R.HARB_PDU_W5 (i : Nat) : Nat := 0xE0F20014 + 0x20 * i
def F.HARB_PDU_W5_SDT : Fld := ⟨7, 0⟩
def F.HARB_PDU_W5_VCID : Fld := ⟨15, 8⟩
def R.HARB_RT_W0 (r : Nat) : Nat := 0xE0F40000 + 0x30 * r
def F.HARB_RT_W0_EN : Fld := ⟨0, 0⟩
def F.HARB_RT_W0_SRC_TYPE : Fld := ⟨2, 1⟩
def F.HARB_RT_W0_SRC_BE : Fld := ⟨3, 3⟩
def F.HARB_RT_W0_SRC_START : Fld := ⟨17, 4⟩
def F.HARB_RT_W0_SRC_LEN : Fld := ⟨24, 18⟩
def F.HARB_RT_W0_DST_TYPE : Fld := ⟨26, 25⟩
def F.HARB_RT_W0_DST_BE : Fld := ⟨27, 27⟩
def F.HARB_RT_W0_CHG_ONLY : Fld := ⟨28, 28⟩
def F.HARB_RT_W0_COVE_ACT : Fld := ⟨30, 29⟩
def F.HARB_RT_W0_SUBST : Fld := ⟨31, 31⟩
def R.HARB_RT_W1 (r : Nat) : Nat := 0xE0F40004 + 0x30 * r
def F.HARB_RT_W1_SRC_PDU : Fld := ⟨11, 0⟩
def F.HARB_RT_W1_DST_PDU : Fld := ⟨27, 16⟩
def R.HARB_RT_W2 (r : Nat) : Nat := 0xE0F40008 + 0x30 * r
def F.HARB_RT_W2_DST_START : Fld := ⟨13, 0⟩
def F.HARB_RT_W2_DST_LEN : Fld := ⟨20, 14⟩
def F.HARB_RT_W2_INV_EN : Fld := ⟨21, 21⟩
def F.HARB_RT_W2_TO_EN : Fld := ⟨22, 22⟩
def F.HARB_RT_W2_VBIT_EN : Fld := ⟨23, 23⟩
def R.HARB_RT_W3 (r : Nat) : Nat := 0xE0F4000C + 0x30 * r
def F.HARB_RT_W3_NUM : Fld := ⟨31, 0⟩
def R.HARB_RT_W4 (r : Nat) : Nat := 0xE0F40010 + 0x30 * r
def F.HARB_RT_W4_DEN : Fld := ⟨31, 0⟩
def R.HARB_RT_OFFSET (r w : Nat) : Nat := 0xE0F40014 + 0x30 * r + 0x4 * w
def R.HARB_RT_W7 (r : Nat) : Nat := 0xE0F4001C + 0x30 * r
def F.HARB_RT_W7_TIMEOUT : Fld := ⟨15, 0⟩
def F.HARB_RT_W7_VBIT_POS : Fld := ⟨29, 16⟩
def R.HARB_RT_INVALID_RAW (r w : Nat) : Nat := 0xE0F40020 + 0x30 * r + 0x4 * w
def R.HARB_RT_SUBST_VALUE (r w : Nat) : Nat := 0xE0F40028 + 0x30 * r + 0x4 * w

/-! ### CWY (spec/15_harbour_and_causeway.md) -/
def R.CWY_COMMIT : Nat := 0xE1000004
def R.CWY_STATUS : Nat := 0xE1000008
def F.CWY_STATUS_CFG_INCONSISTENT : Fld := ⟨0, 0⟩
def F.CWY_STATUS_RING_OVF : Fld := ⟨1, 1⟩
def R.CWY_ERR (j w : Nat) : Nat := 0xE1001000 + 0x10 * j + 0x4 * w
def R.CWY_NODE (i w : Nat) : Nat := 0xE1008000 + 0x20 * i + 0x4 * w

/-! ### NMS (spec/16_network_sleep.md) -/
def R.NMS_PORTCOVE (x : Nat) : Nat := 0xE1100010 + 0x4 * x
def F.NMS_PORTCOVE_COVES : Fld := ⟨23, 0⟩
def R.NMS_MEM_W0 (c j : Nat) : Nat := 0xE1101000 + 0x100 * c + 0x10 * j
def F.NMS_MEM_W0_SRC_ID : Fld := ⟨15, 0⟩
def F.NMS_MEM_W0_KIND : Fld := ⟨16, 16⟩
def F.NMS_MEM_W0_EN : Fld := ⟨17, 17⟩
def R.NMS_MEM_W1 (c j : Nat) : Nat := 0xE1101004 + 0x100 * c + 0x10 * j
def F.NMS_MEM_W1_MATCH : Fld := ⟨31, 0⟩
def R.NMS_MEM_W2 (c j : Nat) : Nat := 0xE1101008 + 0x100 * c + 0x10 * j
def F.NMS_MEM_W2_MASK : Fld := ⟨31, 0⟩
def R.NMS_LOG (i w : Nat) : Nat := 0xE1102000 + 0x10 * i + 0x4 * w

/-! ### POT (spec/17_compute_and_partitions.md) -/
def R.POT_UPD_ADDR_LO : Nat := 0xE1300010
def F.POT_UPD_ADDR_LO_PAGE : Fld := ⟨31, 12⟩
def R.POT_UPD_ADDR_HI : Nat := 0xE1300014
def F.POT_UPD_ADDR_HI_ADDR : Fld := ⟨7, 0⟩
def R.POT_VIOL_ADDR_LO : Nat := 0xE1300020
def R.POT_VIOL_ADDR_HI : Nat := 0xE1300024
def F.POT_VIOL_ADDR_HI_ADDR : Fld := ⟨7, 0⟩

/-! ### IOV (spec/17_compute_and_partitions.md) -/
def R.IOV_COMMIT : Nat := 0xE1200004
def R.IOV_STATUS : Nat := 0xE1200008
def F.IOV_STATUS_CFG_INCONSISTENT : Fld := ⟨0, 0⟩
def R.IOV_FN_GATP (f w : Nat) : Nat := 0xE1201010 + 0x40 * f + 0x4 * w
def R.IOV_FN_DIRTYA (f w : Nat) : Nat := 0xE1201018 + 0x40 * f + 0x4 * w
def R.IOV_FN_DIRTYB (f w : Nat) : Nat := 0xE1201020 + 0x40 * f + 0x4 * w
def R.IOV_FN_MAC_LO (f : Nat) : Nat := 0xE1201028 + 0x40 * f
def F.IOV_FN_MAC_LO_MAC : Fld := ⟨31, 0⟩
def R.IOV_FN_MAC_HI (f : Nat) : Nat := 0xE120102C + 0x40 * f
def F.IOV_FN_MAC_HI_MAC : Fld := ⟨15, 0⟩
def F.IOV_FN_MAC_HI_VID : Fld := ⟨27, 16⟩
def F.IOV_FN_MAC_HI_EN : Fld := ⟨31, 31⟩
def R.IOV_FN_VEC_LO (f v : Nat) : Nat := 0xE1202000 + 0x100 * f + 0x8 * v
def F.IOV_FN_VEC_LO_ADDR : Fld := ⟨31, 2⟩
def R.IOV_FN_VEC_HI (f v : Nat) : Nat := 0xE1202004 + 0x100 * f + 0x8 * v
def F.IOV_FN_VEC_HI_ADDR : Fld := ⟨7, 0⟩
def F.IOV_FN_VEC_HI_EIID : Fld := ⟨26, 16⟩
def F.IOV_FN_VEC_HI_EN : Fld := ⟨31, 31⟩
def R.IOV_Q_SQBASE (q w : Nat) : Nat := 0xE1208008 + 0x20 * q + 0x4 * w
def R.IOV_Q_CQBASE (q w : Nat) : Nat := 0xE1208010 + 0x20 * q + 0x4 * w
def R.IOV_DB_SQ_TAIL (f i : Nat) : Nat := 0xE1280000 + 0x1000 * f + 0x10 * i
def F.IOV_DB_SQ_TAIL_INDEX : Fld := ⟨11, 0⟩
def F.IOV_DB_SQ_TAIL_WRAP : Fld := ⟨15, 15⟩
def R.IOV_DB_CQ_HEAD (f i : Nat) : Nat := 0xE1280004 + 0x1000 * f + 0x10 * i
def F.IOV_DB_CQ_HEAD_INDEX : Fld := ⟨11, 0⟩
def F.IOV_DB_CQ_HEAD_WRAP : Fld := ⟨15, 15⟩
def R.IOV_DB_SQ_HEAD (f i : Nat) : Nat := 0xE1280008 + 0x1000 * f + 0x10 * i
def F.IOV_DB_SQ_HEAD_INDEX : Fld := ⟨11, 0⟩
def F.IOV_DB_SQ_HEAD_WRAP : Fld := ⟨15, 15⟩
def R.IOV_DB_CQ_TAIL (f i : Nat) : Nat := 0xE128000C + 0x1000 * f + 0x10 * i
def F.IOV_DB_CQ_TAIL_INDEX : Fld := ⟨11, 0⟩
def F.IOV_DB_CQ_TAIL_WRAP : Fld := ⟨15, 15⟩

/-! ### LHS (spec/18_security.md) -/
def R.LHS_SVN0 : Nat := 0xE1500010
def R.LHS_SVN1 : Nat := 0xE1500014
def R.LHS_OWN : Nat := 0xE1500200
def F.LHS_OWN_CORE : Fld := ⟨7, 0⟩
def R.LHS_OWNB : Nat := 0xE1500204
def F.LHS_OWNB_BLOCK : Fld := ⟨24, 0⟩
def R.LHS_POL (i w : Nat) : Nat := 0xE1500400 + 0x8 * i + 0x4 * w
def R.LHS_WATTR_PC (w : Nat) : Nat := 0xE1501000 + 0x4 * w
def R.LHS_WATTR_GD : Nat := 0xE1501008
def F.LHS_WATTR_GD_SEC : Fld := ⟨15, 0⟩
def R.LHS_WATTR_FC (w : Nat) : Nat := 0xE1501010 + 0x4 * w
def R.LHS_WATTR_PW : Nat := 0xE1501030
def F.LHS_WATTR_PW_SEC : Fld := ⟨23, 0⟩
def R.LHS_WATTR_DMAE (w : Nat) : Nat := 0xE1501038 + 0x4 * w
def R.LHS_WATTR_DMAW (w : Nat) : Nat := 0xE1501040 + 0x4 * w

/-! ### PARI (spec/20_parish_register.md) -/
def R.PARI_CAL_LO : Nat := 0xE1700010
def R.PARI_CAL_HI : Nat := 0xE1700014
def F.PARI_CAL_HI_SEC : Fld := ⟨7, 0⟩
def R.PARI_TBIN (b : Nat) : Nat := 0xE1700100 + 0x4 * b
def R.PARI_TCYC (k : Nat) : Nat := 0xE1700180 + 0x4 * k
def R.PARI_RST (c : Nat) : Nat := 0xE1700200 + 0x4 * c
def R.PARI_ECC : Nat := 0xE1700230
def R.PARI_NOR (b : Nat) : Nat := 0xE1700240 + 0x4 * b
def R.PARI_SESS : Nat := 0xE1700280
def R.PARI_EIN_LO : Nat := 0xE1700284
def R.PARI_EIN_HI : Nat := 0xE1700288
def R.PARI_EOUT_LO : Nat := 0xE170028C
def R.PARI_EOUT_HI : Nat := 0xE1700290
def R.PARI_CH (i w : Nat) : Nat := 0xE1701000 + 0x20 * i + 0x4 * w

/-! ### SCSM (spec/07_command_interface.md) -/
def R.SCSM_MB_REQ (n i w : Nat) : Nat := 0xE0510200 + 0x1000 * n + 0x40 * i + 0x4 * w
def R.SCSM_MB_RESP (n i w : Nat) : Nat := 0xE0510400 + 0x1000 * n + 0x80 * i + 0x4 * w
def R.SCSM_MB_CPL (n j w : Nat) : Nat := 0xE0510800 + 0x1000 * n + 0x10 * j + 0x4 * w

/-! ### FERRY (spec/05_lanes_and_ferry.md) -/
def R.FERRY_DISC_LOG0 : Nat := 0xE0300200
def F.FERRY_DISC_LOG0_CYCLE : Fld := ⟨31, 0⟩
def R.FERRY_DISC_LOG1 : Nat := 0xE0300204
def F.FERRY_DISC_LOG1_DIE : Fld := ⟨2, 0⟩
def F.FERRY_DISC_LOG1_RECORD : Fld := ⟨15, 8⟩
def F.FERRY_DISC_LOG1_BYTE : Fld := ⟨23, 16⟩

/-! ### FCH (spec/10_field_channels.md) -/
def R.FCH_VAL (d m : Nat) : Nat := 0xE0801024 + 0x40000 * d + 0x40 * m
def R.FCH_CAP2 (d m : Nat) : Nat := 0xE080102C + 0x40000 * d + 0x40 * m

/-! ### PCH (spec/08_power_channels.md) -/
def R.PCH_MIR (d m w : Nat) : Nat := 0xE0604000 + 0x80000 * d + 0x40 * m + 0x4 * w

/-! ### GDR (spec/09_gate_drivers_and_feed_events.md) -/
def R.GDR_MIR (d g w : Nat) : Nat := 0xE0704000 + 0x80000 * d + 0x40 * g + 0x4 * w

/-! ### FCH (spec/10_field_channels.md) -/
def R.FCH_MIR (d m w : Nat) : Nat := 0xE0808000 + 0x40000 * d + 0x40 * m + 0x4 * w

/-! ### CVC (spec/12_converter_control.md) -/
def R.CVC_SELM_STATUS : Nat := 0xE0A90008
def R.CVC_SELM_PP_STAT (k : Nat) : Nat := 0xE0A9100C + 0x20 * k

/-! ### CAN (spec/13_can_and_lin.md) -/
def R.CAN_MIR (n w : Nat) : Nat := 0xE0B90000 + 0x100 * n + 0x4 * w

/-! ### LIN (spec/13_can_and_lin.md) -/
def R.LIN_MIR_STAT (p : Nat) : Nat := 0xE0C80440 + 0x100 * p
def R.LIN_MIR_FR (p j w : Nat) : Nat := 0xE0C82000 + 0x400 * p + 0x10 * j + 0x4 * w

/-! ### ETHS (spec/14_ethernet_and_time.md) -/
def R.ETHS_MIR_STAT (p : Nat) : Nat := 0xE0D80440 + 0x100 * p
def R.ETHS_MIR_CNT (p k : Nat) : Nat := 0xE0D80480 + 0x100 * p + 0x4 * k

/-! ### NMS (spec/16_network_sleep.md) -/
def R.NMS_MIR_WAKE_PENDING : Nat := 0xE118000C
def R.NMS_MIR_CNT (n : Nat) : Nat := 0xE1180100 + 0x4 * n
def R.NMS_MIR_COVE (c w : Nat) : Nat := 0xE1180410 + 0x40 * c + 0x4 * w

/-! ### POT (spec/17_compute_and_partitions.md) -/
def R.POT_ENT (i : Nat) : Nat := 0xE1310000 + 0x4 * i

end Sys2Proof.Machine
end

