-- ==== Sys2Proof/Machine/Bits.lean ====
section
/-! DEFINITION. Bit fields of registers, little-endian byte strings and saturating counters. -/

namespace Sys2Proof.Machine

/-- Number of bits of a field. -/
def fldWidth (f : Fld) : Nat := f.hi + 1 - f.lo

/-- The value of a field of a register word. -/
def getF (w : Word) (f : Fld) : Nat := (w.toNat >>> f.lo) % 2 ^ fldWidth f

/-- A register word with one field replaced; the other bits stay. -/
def setF (w : Word) (f : Fld) (v : Nat) : Word :=
  BitVec.ofNat 32 (w.toNat - getF w f * 2 ^ f.lo + (v % 2 ^ fldWidth f) * 2 ^ f.lo)

/-- A flag as a number. -/
def b2n (b : Bool) : Nat := if b then 1 else 0

/-- Bit `i` of a number. -/
def nbit (n i : Nat) : Bool := n.testBit i

/-- A number with bit `i` set. -/
def setBit (n i : Nat) : Nat := n ||| 2 ^ i

/-- A number with bit `i` cleared. -/
def clearBit (n i : Nat) : Nat := if n.testBit i then n - 2 ^ i else n

/-- Little-endian bytes of a number. -/
def leBytes : Nat → Nat → List Byte
  | 0, _ => []
  | k + 1, n => BitVec.ofNat 8 n :: leBytes k (n / 256)

/-- The number a little-endian byte string holds. -/
def leNat : List Byte → Nat
  | [] => 0
  | b :: bs => b.toNat + 256 * leNat bs

/-- `n` bytes of a byte string from offset `o` (shorter where the string ends). -/
def slice (bs : List Byte) (o n : Nat) : List Byte := (bs.drop o).take n

/-- The little-endian number in `n` bytes from offset `o`; bytes past the end read 0. -/
def fieldAt (bs : List Byte) (o n : Nat) : Nat := leNat (slice bs o n)

/-- A 32-bit little-endian word of a byte string. -/
def wordAt (bs : List Byte) (o : Nat) : Word := BitVec.ofNat 32 (fieldAt bs o 4)

/-- The four bytes of a register word. -/
def wordBytes (w : Word) : List Byte := leBytes 4 w.toNat

/-- True when every byte is zero. -/
def allZero (bs : List Byte) : Bool := bs.all (· == 0)

/-- A byte string cut or filled with zeros to `n` bytes. -/
def padTo (n : Nat) (bs : List Byte) : List Byte :=
  (bs ++ List.replicate (n - bs.length) 0).take n

/-- Bytes as little-endian words, the last one filled with zeros. -/
def bytesToWords : Nat → List Byte → List Word
  | 0, _ => []
  | k + 1, bs => wordAt bs 0 :: bytesToWords k (bs.drop 4)

/-- Increment of a counter that saturates at all ones of `bits` bits. -/
def satInc (bits n : Nat) : Nat := min (n + 1) (2 ^ bits - 1)

/-- A field value read as a signed number of `bits` bits. -/
def sext (bits n : Nat) : Int :=
  if n < 2 ^ (bits - 1) then (n : Int) else (n : Int) - (2 ^ bits : Nat)

/-- A signed number as a field value of `bits` bits (wrapping). -/
def uext (bits : Nat) (i : Int) : Nat := (i % ((2 ^ bits : Nat) : Int)).toNat

/-- A signed number limited to `bits` bits. -/
def satS (bits : Nat) (i : Int) : Int :=
  max (-((2 ^ (bits - 1) : Nat) : Int)) (min i (((2 ^ (bits - 1) : Nat) : Int) - 1))

/-- Serial-number comparison over 2^32: `a` is ahead of `b` (R145, R625). -/
def serialAhead32 (a b : Nat) : Bool :=
  let d := (a + 2 ^ 32 - b % 2 ^ 32) % 2 ^ 32
  decide (0 < d ∧ d < 2 ^ 31)

/-- Positions of the bits set in a mask, below `n`. -/
def maskBits (n m : Nat) : List Nat := (List.range n).filter (fun i => m.testBit i)

/-- Insert or replace an element by key in a list (first match replaced, else appended). -/
def upsert {α : Type} (key : α → Nat) (x : α) : List α → List α
  | [] => [x]
  | y :: ys => if key y = key x then x :: ys else y :: upsert key x ys

end Sys2Proof.Machine
end

