-- ==== Sys2Proof/Machine/Req.lean ====
section
/-! DEFINITION. Reading a request: who sent it, its flags (Table 7.2), and the fields of its payload. -/

namespace Sys2Proof

/-- World of a sender: the secure mailbox and the start-up image act for the secure world, functions and
sessions for the normal world (R628, R629). -/
def Src.world : Src → World
  | .smb0 => .secure
  | .startup _ => .secure
  | _ => .normal

def Initiator.world : Initiator → World
  | .func _ => .normal
  | _ => .secure

/-- MB00 of either lane, or SMB0 (Tables 5.11, 6.11). -/
def Src.isChief : Src → Bool
  | .func 0 => true
  | .smb0 => true
  | .startup _ => true
  | _ => false

/-- Partition number of a sender in the page-owner table (Table 17.3). -/
def Src.part : Src → Nat
  | .func f => f
  | _ => 0

/-- OWNER, OWNER_RS and OWNER_SEC of a sender (R628), as the CTRL bits they stand in. -/
def Src.ownerBits : Src → Nat
  | .func f => 0x100 * (f % 64)
  | .queue _ => 0
  | .session n => 0x8000 + 0x100 * (n % 64)
  | _ => 0x4000

/-! ### Request flags (Table 7.2) -/

def Req.hasDeadline (r : Req) : Bool := r.flags.testBit 0
def Req.bufPayload (r : Req) : Bool := r.flags.testBit 1
def Req.bufResponse (r : Req) : Bool := r.flags.testBit 2
def Req.urgent (r : Req) : Bool := r.flags.testBit 3
def Req.isSession (r : Req) : Bool :=
  match r.src with
  | .session _ => true
  | _ => false
def Req.isStartup (r : Req) : Bool :=
  match r.src with
  | .startup _ => true
  | _ => false
/-- A descriptor of a work queue (R174); its OPCODE is 0xFFFF (Table 6.7). -/
def Req.isQueue (r : Req) : Bool :=
  match r.src with
  | .queue _ => true
  | _ => false
def Req.world (r : Req) : World := r.src.world

/-- Bytes of the payload: an unsigned number of `n` bytes at offset `o`, a byte, a word. -/
def Req.u (r : Req) (o n : Nat) : Nat := Machine.fieldAt r.payload o n
def Req.u8 (r : Req) (o : Nat) : Nat := r.u o 1
def Req.u16 (r : Req) (o : Nat) : Nat := r.u o 2
def Req.u32 (r : Req) (o : Nat) : Nat := r.u o 4
def Req.w (r : Req) (o : Nat) : Word := Machine.wordAt r.payload o

/-- Number of a slice of a payload, as the command tables give it. -/
def Req.bytes (r : Req) (o n : Nat) : List Byte := Machine.slice r.payload o n

end Sys2Proof
end

