-- ==== Sys2Proof/Machine/RegTable.lean ====
section
/-! DEFINITION. The register table: one row per register of the spec (its instances as counts and
strides), with its reset value and the bit masks of its access codes (Table 0.4, R7). Bits in no mask are
RSVD or WO: they read 0. Where instances of one register reset to different values, the rows of the
special instances stand first. -/

namespace Sys2Proof.Machine

/-- One register (R6): address of its first instance, `dims` its instances as (count, stride) from the
largest stride down, its reset value and the masks of its RW, RWS, RO and W1C fields. -/
structure RegRow where
  base : Nat
  dims : List (Nat × Nat)
  reset : Nat
  rw : Nat
  rws : Nat
  ro : Nat
  w1c : Nat
  deriving DecidableEq, Repr

def rowsRSTC0 : List RegRow := [
  ⟨0xE0000000, [], 0x301, 0x0, 0x0, 0xFF0103FF, 0x0⟩, -- RSTC_RST_CAUSE
  ⟨0xE0000004, [], 0x0, 0x0, 0x0, 0x3D, 0x2⟩, -- RSTC_STATUS
  ⟨0xE0000008, [], 0x0, 0x0, 0x0, 0x0, 0x0⟩, -- RSTC_REQ
  ⟨0xE0000010, [], 0x0, 0x0, 0x0, 0x0, 0x0⟩, -- RSTC_BLKRST
  ⟨0xE0000014, [], 0x0, 0x0, 0x0, 0x0, 0x0⟩, -- RSTC_FORCE
  ⟨0xE0000018, [], 0x0, 0x0, 0x0, 0x10FFF, 0x0⟩, -- RSTC_SUSPECT
  ⟨0xE000001C, [], 0x0, 0x0, 0x0, 0x0, 0x0⟩, -- RSTC_CMN
  ⟨0xE0000100, [(6, 0x10)], 0x0, 0xFFFF0FF3, 0x0, 0x0, 0x0⟩, -- RSTC_WDT_CFG
  ⟨0xE0000104, [(6, 0x10)], 0x0, 0x0, 0x0, 0x0, 0x0⟩, -- RSTC_WDT_KICK
  ⟨0xE0000108, [(6, 0x10)], 0x0, 0x0, 0x0, 0xFFFF, 0x0⟩ -- RSTC_WDT_CNT
  ]

def rowsRSTC : List RegRow := rowsRSTC0

def rowsCLKC0 : List RegRow := [
  ⟨0xE0100000, [], 0x0, 0x0, 0x0, 0x3, 0x0⟩, -- CLKC_XTAL_STAT
  ⟨0xE0100100, [(8, 0x10)], 0x0, 0x0, 0x0, 0xFFFF0077, 0x8⟩ -- CLKC_DOM_STAT
  ]

def rowsCLKC : List RegRow := rowsCLKC0

def rowsFERRY0 : List RegRow := [
  ⟨0xE0300000, [], 0x207D0, 0x0, 0xFFFFF, 0x0, 0x0⟩, -- FERRY_CFG
  ⟨0xE0300004, [], 0x103E7, 0x0, 0x1FFFF, 0x0, 0x0⟩, -- FERRY_PHASE_CFG
  ⟨0xE0300008, [], 0x0, 0x0, 0x0, 0x0, 0x0⟩, -- FERRY_COMMIT
  ⟨0xE030000C, [], 0x0, 0x0, 0x0, 0x0, 0x0⟩, -- FERRY_CTRL
  ⟨0xE0300010, [], 0x0, 0x0, 0x0, 0x3FF77, 0x0⟩, -- FERRY_LANE
  ⟨0xE0300014, [], 0x0, 0x0, 0x0, 0x2000, 0x1FFF⟩, -- FERRY_STATUS
  ⟨0xE0300018, [], 0x0, 0x0, 0x0, 0xFFFFFFFF, 0x0⟩, -- FERRY_EPOCH
  ⟨0xE030001C, [], 0x0, 0x0, 0x0, 0xFFFFFFFF, 0x0⟩, -- FERRY_CYCLE
  ⟨0xE0300020, [], 0x0, 0x0, 0x0, 0x7FFFF, 0x0⟩, -- FERRY_IMAGE
  ⟨0xE0300024, [], 0x0, 0x0, 0x0, 0x7FFFF, 0x0⟩, -- FERRY_IMAGE_MAX
  ⟨0xE0300028, [], 0x0, 0x0, 0x0, 0x7FFF7FFF, 0x0⟩, -- FERRY_REPL
  ⟨0xE0300040, [], 0x0, 0x0, 0x0, 0xFFFF003F, 0x0⟩, -- FERRY_ARB
  ⟨0xE0300080, [(8, 0x4)], 0x0, 0x0, 0x0, 0xFFFFFFFF, 0x0⟩, -- FERRY_CNT
  ⟨0xE0300100, [(6, 0x10)], 0x0, 0x0, 0x0, 0xFFFFFFFF, 0x0⟩, -- FERRY_DIE_LAST
  ⟨0xE0300104, [(6, 0x10)], 0x0, 0x0, 0x0, 0xF, 0x0⟩, -- FERRY_DIE_SRC
  ⟨0xE0300200, [], 0x0, 0x0, 0x0, 0xFFFFFFFF, 0x0⟩, -- FERRY_DISC_LOG0
  ⟨0xE0300204, [], 0x0, 0x0, 0x0, 0xFFFF07, 0x0⟩ -- FERRY_DISC_LOG1
  ]

def rowsFERRY : List RegRow := rowsFERRY0

def rowsLEDG0 : List RegRow := [
  ⟨0xE0400000, [], 0x90400, 0x0, 0x3FF3FFF, 0x0, 0x0⟩, -- LEDG_CFG
  ⟨0xE0400004, [], 0x7CF, 0x0, 0x803FFFFF, 0x0, 0x0⟩, -- LEDG_NODL
  ⟨0xE0400008, [], 0x0, 0x0, 0x0, 0x0, 0x0⟩, -- LEDG_COMMIT
  ⟨0xE040000C, [], 0x0, 0x0, 0x0, 0x7FFFF, 0x780000⟩, -- LEDG_STATUS
  ⟨0xE0400010, [], 0x1, 0x0, 0x0, 0xFFFFFFFF, 0x0⟩, -- LEDG_LSN_LO
  ⟨0xE0400014, [], 0x0, 0x0, 0x0, 0xFFFF, 0x0⟩, -- LEDG_LSN_HI
  ⟨0xE0400018, [], 0x8000, 0x0, 0x0, 0xFFFF, 0x0⟩, -- LEDG_FREE
  ⟨0xE040001C, [], 0x0, 0x0, 0x0, 0x1FFFF, 0x0⟩, -- LEDG_DEDUP
  ⟨0xE0400100, [(8, 0x4)], 0x0, 0x0, 0x0, 0xFFFFFFFF, 0x0⟩, -- LEDG_CNT
  ⟨0xE0401000, [(161, 0x8)], 0x200, 0x0, 0x3FFF, 0x0, 0x0⟩, -- LEDG_QUOTA
  ⟨0xE0401004, [(161, 0x8)], 0x0, 0x0, 0x0, 0xFFFF3FFF, 0x0⟩ -- LEDG_QUSED
  ]

def rowsLEDG : List RegRow := rowsLEDG0

def rowsSCSM0 : List RegRow := [
  ⟨0xE0500000, [], 0x3B5CB9FA, 0x0, 0xFFFFFFFF, 0x0, 0x0⟩, -- SCSM_CFG
  ⟨0xE0500004, [], 0x0, 0x0, 0x0, 0x0, 0x0⟩, -- SCSM_COMMIT
  ⟨0xE0500008, [], 0x0, 0x0, 0x0, 0x3, 0x1C⟩, -- SCSM_STATUS
  ⟨0xE050000C, [], 0x0, 0x0, 0x0, 0xFFFFFFFF, 0x0⟩, -- SCSM_STARTUP
  ⟨0xE0500100, [(8, 0x4)], 0x0, 0x0, 0x0, 0xFFFFFFFF, 0x0⟩, -- SCSM_CNT
  ⟨0xE0510000, [(65, 0x1000)], 0x0, 0x0, 0x0, 0x0, 0x0⟩, -- SCSM_MB_DOORBELL
  ⟨0xE0510004, [(65, 0x1000)], 0x0, 0x0, 0x0, 0x7F00FFFF, 0x30000⟩, -- SCSM_MB_STATUS
  ⟨0xE0510008, [(65, 0x1000)], 0x0, 0x0, 0x0, 0x0, 0x0⟩, -- SCSM_MB_RESP_ACK
  ⟨0xE051000C, [(65, 0x1000)], 0x0, 0x3F, 0x0, 0x0, 0x0⟩, -- SCSM_MB_CPL_HEAD
  ⟨0xE0510010, [(65, 0x1000)], 0x0, 0x0, 0x0, 0x3F, 0x0⟩, -- SCSM_MB_CPL_TAIL
  ⟨0xE0510014, [(65, 0x1000)], 0x0, 0x3F1F03, 0x0, 0x0, 0x0⟩, -- SCSM_MB_IRQ
  ⟨0xE0560000, [(32, 0x40)], 0x0, 0x0, 0xFFFFFFF3, 0x0, 0x0⟩, -- SCSM_RS_CFG
  ⟨0xE0560004, [(32, 0x40)], 0x0, 0x0, 0x7FF07FF, 0x0, 0x0⟩, -- SCSM_RS_CANID
  ⟨0xE0560008, [(32, 0x40)], 0x0, 0x0, 0x0, 0x1F1, 0x0⟩, -- SCSM_RS_STATUS
  ⟨0xE0510200, [(65, 0x1000), (8, 0x40), (16, 0x4)], 0x0, 0xFFFFFFFF, 0x0, 0x0, 0x0⟩, -- SCSM_MB_REQ
  ⟨0xE0510400, [(65, 0x1000), (8, 0x80), (32, 0x4)], 0x0, 0x0, 0x0, 0xFFFFFFFF, 0x0⟩, -- SCSM_MB_RESP
  ⟨0xE0510800, [(65, 0x1000), (64, 0x10), (4, 0x4)], 0x0, 0x0, 0x0, 0xFFFFFFFF, 0x0⟩ -- SCSM_MB_CPL
  ]

def rowsSCSM : List RegRow := rowsSCSM0

def rowsPCH0 : List RegRow := [
  ⟨0xE0600000, [(2, 0x80000)], 0x32, 0x0, 0x7FF, 0x0, 0x0⟩, -- PCH_DIE_CFG
  ⟨0xE0600004, [(2, 0x80000)], 0x0, 0x0, 0x0, 0x0, 0x0⟩, -- PCH_COMMIT
  ⟨0xE0600008, [(2, 0x80000)], 0x0, 0x0, 0x0, 0xFFFF0005, 0x3A⟩, -- PCH_DIE_STATUS
  ⟨0xE060000C, [(2, 0x80000)], 0x0, 0x0, 0x0, 0xFFFF, 0x0⟩, -- PCH_DIE_POWER
  ⟨0xE0600010, [(2, 0x80000)], 0x0, 0x0, 0x0, 0xFF, 0x0⟩, -- PCH_SAFE
  ⟨0xE0600400, [(2, 0x80000), (32, 0x10)], 0x1000, 0x0, 0xFFFFFF, 0x0, 0x0⟩, -- PCH_WP_K1
  ⟨0xE0600404, [(2, 0x80000), (32, 0x10)], 0x2800, 0x0, 0xFFFFFF, 0x0, 0x0⟩, -- PCH_WP_K2
  ⟨0xE0600408, [(2, 0x80000), (32, 0x10)], 0x7CF1F3F, 0x0, 0xFFFFFFFF, 0x0, 0x0⟩, -- PCH_WP_TAU
  ⟨0xE060040C, [(2, 0x80000), (32, 0x10)], 0x14003C0, 0x0, 0xFFF0FFF, 0x0, 0x0⟩, -- PCH_WP_LIM
  ⟨0xE0601000, [(2, 0x80000), (24, 0x40)], 0x3010, 0x0, 0xFF1FF3FF, 0x0, 0x0⟩, -- PCH_CFG
  ⟨0xE0601004, [(2, 0x80000), (24, 0x40)], 0x9040000, 0x0, 0xFFFFFFFF, 0x0, 0x0⟩, -- PCH_TRIP
  ⟨0xE0601008, [(2, 0x80000), (24, 0x40)], 0x3C, 0x0, 0x7FFFFF7F, 0x0, 0x0⟩, -- PCH_THRM
  ⟨0xE060100C, [(2, 0x80000), (24, 0x40)], 0x2710, 0x0, 0x1FFFF, 0x0, 0x0⟩, -- PCH_PWM
  ⟨0xE0601010, [(2, 0x80000), (24, 0x40)], 0x0, 0x0, 0x7FF07FF, 0x0, 0x0⟩, -- PCH_DUTY
  ⟨0xE0601014, [(2, 0x80000), (24, 0x40)], 0x0, 0x0, 0x1FFFF, 0x0, 0x0⟩, -- PCH_OFS
  ⟨0xE0601018, [(2, 0x80000), (24, 0x40)], 0x0, 0x0, 0xF, 0x0, 0x0⟩, -- PCH_TGT
  ⟨0xE060101C, [(2, 0x80000), (24, 0x40)], 0x0, 0x0, 0xFFFFFFFF, 0x0, 0x0⟩, -- PCH_SWPH
  ⟨0xE0601020, [(2, 0x80000), (24, 0x40)], 0x0, 0x0, 0x0, 0x3FFFFFF, 0x0⟩, -- PCH_STATE
  ⟨0xE0601024, [(2, 0x80000), (24, 0x40)], 0x0, 0x0, 0x0, 0xFFFFFFFF, 0x0⟩, -- PCH_CUR
  ⟨0xE0601028, [(2, 0x80000), (24, 0x40)], 0x0, 0x0, 0x0, 0xFFFF, 0x0⟩ -- PCH_CURP
  ]

def rowsPCH1 : List RegRow := [
  ⟨0xE060102C, [(2, 0x80000), (24, 0x40)], 0x0, 0x0, 0x0, 0xFFFFFFFF, 0x0⟩, -- PCH_TEMP
  ⟨0xE0601030, [(2, 0x80000), (24, 0x40)], 0x0, 0x0, 0x0, 0xFFFFFFFF, 0x0⟩, -- PCH_WIRE
  ⟨0xE0601034, [(2, 0x80000), (24, 0x40)], 0x0, 0x0, 0x0, 0xFFFFFFFF, 0x0⟩, -- PCH_CLAMP
  ⟨0xE0604000, [(2, 0x80000), (24, 0x40), (6, 0x4)], 0x0, 0x0, 0x0, 0xFFFFFFFF, 0x0⟩ -- PCH_MIR
  ]

def rowsPCH : List RegRow := rowsPCH0 ++ rowsPCH1

def rowsSUPC0 : List RegRow := [
  ⟨0xE0200000, [], 0x0, 0x0, 0x0, 0x1B, 0x4⟩, -- SUPC_STATUS
  ⟨0xE0200004, [], 0x0, 0x0, 0x0, 0x0, 0x0⟩, -- SUPC_COMMIT
  ⟨0xE0200008, [], 0x0, 0x0, 0x0, 0xFFFFFFFF, 0x0⟩, -- SUPC_VKEEP
  ⟨0xE0200100, [(6, 0x20)], 0x50C80, 0x0, 0xFF1FF3, 0x0, 0x0⟩, -- SUPC_FEED_CFG
  ⟨0xE0200104, [(6, 0x20)], 0x0, 0x0, 0x0, 0x47FFFFF, 0x3800000⟩, -- SUPC_FEED_STAT
  ⟨0xE0200108, [(6, 0x20)], 0x7FFF, 0x0, 0x0, 0xFFFF, 0x0⟩, -- SUPC_FEED_MIN
  ⟨0xE020010C, [(6, 0x20)], 0x0, 0x0, 0x0, 0xFFFFFFFF, 0x0⟩, -- SUPC_FEED_DIP
  ⟨0xE0200200, [(2, 0x4)], 0x0, 0x0, 0x0, 0xFFFFFFFF, 0x0⟩ -- SUPC_DIPINH
  ]

def rowsSUPC : List RegRow := rowsSUPC0

def rowsGDR0 : List RegRow := [
  ⟨0xE0700004, [(2, 0x80000)], 0x0, 0x0, 0x0, 0x0, 0x0⟩, -- GDR_COMMIT
  ⟨0xE0700008, [(2, 0x80000)], 0x0, 0x0, 0x0, 0x2, 0x5⟩, -- GDR_DIE_STATUS
  ⟨0xE0701000, [(2, 0x80000), (8, 0x40)], 0x320, 0x0, 0xFF01FF7F, 0x0, 0x0⟩, -- GDR_CFG
  ⟨0xE0701004, [(2, 0x80000), (8, 0x40)], 0x64, 0x0, 0xFFFF, 0x0, 0x0⟩, -- GDR_SHUNT
  ⟨0xE0701008, [(2, 0x80000), (8, 0x40)], 0x409C0, 0x0, 0xFFFFFFFF, 0x0, 0x0⟩, -- GDR_OC
  ⟨0xE070100C, [(2, 0x80000), (8, 0x40)], 0x0, 0x0, 0xFFFF, 0x0, 0x0⟩, -- GDR_TRIP
  ⟨0xE0701010, [(2, 0x80000), (8, 0x40)], 0x1F4090A, 0x0, 0xFFFFFFFF, 0x0, 0x0⟩, -- GDR_PRECHG
  ⟨0xE0701014, [(2, 0x80000), (8, 0x40)], 0x0, 0x0, 0xF, 0x0, 0x0⟩, -- GDR_TGT
  ⟨0xE0701018, [(2, 0x80000), (8, 0x40)], 0x0, 0x0, 0xFFFFFFFF, 0x0, 0x0⟩, -- GDR_SWPH
  ⟨0xE0701020, [(2, 0x80000), (8, 0x40)], 0x0, 0x0, 0x0, 0x1FFFFF, 0x0⟩, -- GDR_STATE
  ⟨0xE0701024, [(2, 0x80000), (8, 0x40)], 0x0, 0x0, 0x0, 0xFFFFFFFF, 0x0⟩, -- GDR_CUR
  ⟨0xE0701028, [(2, 0x80000), (8, 0x40)], 0x0, 0x0, 0x0, 0xFFFF, 0x0⟩, -- GDR_CURP
  ⟨0xE070102C, [(2, 0x80000), (8, 0x40)], 0x0, 0x0, 0x0, 0xFFFFFFFF, 0x0⟩, -- GDR_WIRE
  ⟨0xE0701030, [(2, 0x80000), (8, 0x40)], 0x0, 0x0, 0x0, 0xFFFFFFFF, 0x0⟩, -- GDR_VS
  ⟨0xE0704000, [(2, 0x80000), (8, 0x40), (5, 0x4)], 0x0, 0x0, 0x0, 0xFFFFFFFF, 0x0⟩ -- GDR_MIR
  ]

def rowsGDR : List RegRow := rowsGDR0

def rowsFCH0 : List RegRow := [
  ⟨0xE0800000, [(2, 0x40000)], 0x1130032, 0x0, 0x3FF07FF, 0x0, 0x0⟩, -- FCH_DIE_CFG (F0, F1)
  ⟨0xE0880000, [], 0x1130032, 0x0, 0x3FF07FF, 0x0, 0x0⟩, -- FCH_DIE_CFG (FI)
  ⟨0xE0800004, [(2, 0x40000)], 0x0, 0x0, 0x0, 0x0, 0x0⟩, -- FCH_COMMIT (F0, F1)
  ⟨0xE0880004, [], 0x0, 0x0, 0x0, 0x0, 0x0⟩, -- FCH_COMMIT (FI)
  ⟨0xE0800008, [(2, 0x40000)], 0x0, 0x0, 0x0, 0xFFFF03CD, 0x32⟩, -- FCH_DIE_STATUS (F0, F1)
  ⟨0xE0880008, [], 0x0, 0x0, 0x0, 0xFFFF03CD, 0x32⟩, -- FCH_DIE_STATUS (FI)
  ⟨0xE080000C, [(2, 0x40000)], 0x0, 0x0, 0x0, 0xFFFFFFFF, 0x0⟩, -- FCH_DIE_POWER (F0, F1)
  ⟨0xE088000C, [], 0x0, 0x0, 0x0, 0xFFFFFFFF, 0x0⟩, -- FCH_DIE_POWER (FI)
  ⟨0xE0800010, [(2, 0x40000)], 0x0, 0x0, 0x0, 0xFF, 0x0⟩, -- FCH_SAFE (F0, F1)
  ⟨0xE0880010, [], 0x0, 0x0, 0x0, 0xFF, 0x0⟩, -- FCH_SAFE (FI)
  ⟨0xE0800014, [(2, 0x40000)], 0x0, 0x0, 0x0, 0xFFFF, 0x0⟩, -- FCH_VSUP (F0, F1)
  ⟨0xE0880014, [], 0x0, 0x0, 0x0, 0xFFFF, 0x0⟩, -- FCH_VSUP (FI)
  ⟨0xE0800018, [(2, 0x40000)], 0x0, 0x0, 0x0, 0x7F, 0x8000⟩, -- FCH_WAKE_STAT (F0, F1)
  ⟨0xE0800100, [(2, 0x40000), (7, 0x10)], 0x309, 0x0, 0x7FF, 0x0, 0x0⟩, -- FCH_GRP_CFG (F0, F1)
  ⟨0xE0880100, [(2, 0x10)], 0x309, 0x0, 0x7FF, 0x0, 0x0⟩, -- FCH_GRP_CFG (FI)
  ⟨0xE0801000, [(2, 0x40000), (112, 0x40)], 0x80, 0x0, 0xFFFFF, 0x0, 0x0⟩, -- FCH_CFG (F0, F1)
  ⟨0xE0881000, [(32, 0x40)], 0x80, 0x0, 0xFFFFF, 0x0, 0x0⟩, -- FCH_CFG (FI)
  ⟨0xE0801004, [(2, 0x40000), (112, 0x40)], 0x640400, 0x0, 0xFFFFFF1F, 0x0, 0x0⟩, -- FCH_IN (F0, F1)
  ⟨0xE0881004, [(32, 0x40)], 0x640400, 0x0, 0xFFFFFF1F, 0x0, 0x0⟩, -- FCH_IN (FI)
  ⟨0xE0801008, [(2, 0x40000), (112, 0x40)], 0x0, 0x0, 0xF3F, 0x0, 0x0⟩ -- FCH_AUX (F0, F1)
  ]

def rowsFCH1 : List RegRow := [
  ⟨0xE0881008, [(32, 0x40)], 0x0, 0x0, 0xF3F, 0x0, 0x0⟩, -- FCH_AUX (FI)
  ⟨0xE080100C, [(2, 0x40000), (112, 0x40)], 0x2710, 0x0, 0xFFFFF, 0x0, 0x0⟩, -- FCH_PWM (F0, F1)
  ⟨0xE088100C, [(32, 0x40)], 0x2710, 0x0, 0xFFFFF, 0x0, 0x0⟩, -- FCH_PWM (FI)
  ⟨0xE0801010, [(2, 0x40000), (112, 0x40)], 0x0, 0x0, 0x7FF07FF, 0x0, 0x0⟩, -- FCH_DUTY (F0, F1)
  ⟨0xE0881010, [(32, 0x40)], 0x0, 0x0, 0x7FF07FF, 0x0, 0x0⟩, -- FCH_DUTY (FI)
  ⟨0xE0801014, [(2, 0x40000), (112, 0x40)], 0x0, 0x0, 0xF, 0x0, 0x0⟩, -- FCH_TGT (F0, F1)
  ⟨0xE0881014, [(32, 0x40)], 0x0, 0x0, 0xF, 0x0, 0x0⟩, -- FCH_TGT (FI)
  ⟨0xE0801018, [(2, 0x40000), (112, 0x40)], 0x0, 0x0, 0xFFFFFFFF, 0x0, 0x0⟩, -- FCH_SWPH (F0, F1)
  ⟨0xE0881018, [(32, 0x40)], 0x0, 0x0, 0xFFFFFFFF, 0x0, 0x0⟩, -- FCH_SWPH (FI)
  ⟨0xE0801020, [(2, 0x40000), (112, 0x40)], 0x8, 0x0, 0x0, 0xFFF3F, 0x0⟩, -- FCH_STATE (F0, F1)
  ⟨0xE0881020, [(32, 0x40)], 0x8, 0x0, 0x0, 0xFFF3F, 0x0⟩, -- FCH_STATE (FI)
  ⟨0xE0801028, [(2, 0x40000), (112, 0x40)], 0x0, 0x0, 0x0, 0xFFFFFFFF, 0x0⟩, -- FCH_CAP (F0, F1)
  ⟨0xE0881028, [(32, 0x40)], 0x0, 0x0, 0x0, 0xFFFFFFFF, 0x0⟩, -- FCH_CAP (FI)
  ⟨0xE0801030, [(2, 0x40000), (112, 0x40)], 0x0, 0x0, 0x0, 0xFFFFFFFF, 0x0⟩, -- FCH_CNT (F0, F1)
  ⟨0xE0881030, [(32, 0x40)], 0x0, 0x0, 0x0, 0xFFFFFFFF, 0x0⟩, -- FCH_CNT (FI)
  ⟨0xE0801024, [(2, 0x40000), (112, 0x40)], 0x0, 0x0, 0x0, 0xFFFFFFFF, 0x0⟩, -- FCH_VAL (F0, F1)
  ⟨0xE0881024, [(32, 0x40)], 0x0, 0x0, 0x0, 0xFFFFFFFF, 0x0⟩, -- FCH_VAL (FI)
  ⟨0xE080102C, [(2, 0x40000), (112, 0x40)], 0x0, 0x0, 0x0, 0xFFFFFFFF, 0x0⟩, -- FCH_CAP2 (F0, F1)
  ⟨0xE088102C, [(32, 0x40)], 0x0, 0x0, 0x0, 0xFFFFFFFF, 0x0⟩, -- FCH_CAP2 (FI)
  ⟨0xE0808000, [(2, 0x40000), (112, 0x40), (5, 0x4)], 0x0, 0x0, 0x0, 0xFFFFFFFF, 0x0⟩ -- FCH_MIR (F0, F1)
  ]

def rowsFCH2 : List RegRow := [
  ⟨0xE0888000, [(32, 0x40), (5, 0x4)], 0x0, 0x0, 0x0, 0xFFFFFFFF, 0x0⟩ -- FCH_MIR (FI)
  ]

def rowsFCH : List RegRow := rowsFCH0 ++ rowsFCH1 ++ rowsFCH2

def rowsTIDE0 : List RegRow := [
  ⟨0xE0910004, [], 0x17, 0x0, 0xFF3F, 0x0, 0x0⟩, -- TIDE_TEV_CTRL (instance 0)
  ⟨0xE0900000, [], 0x90A00, 0x0, 0xFF1F0F, 0x0, 0x0⟩, -- TIDE_CFG
  ⟨0xE0900004, [], 0x29F16B12, 0x0, 0xFFFFFFFF, 0x0, 0x0⟩, -- TIDE_FREE_INC_LO
  ⟨0xE0900008, [], 0x0, 0x0, 0xFFFF, 0x0, 0x0⟩, -- TIDE_FREE_INC_HI
  ⟨0xE090000C, [], 0x0, 0x0, 0xFFFFFFFF, 0x0, 0x0⟩, -- TIDE_TURN_CFG
  ⟨0xE0900010, [], 0xF4240, 0x0, 0xFFFFFF, 0x0, 0x0⟩, -- TIDE_TB_PERIOD
  ⟨0xE0900014, [], 0x0, 0x0, 0x0, 0x0, 0x0⟩, -- TIDE_COMMIT
  ⟨0xE0900018, [], 0x0, 0x0, 0x0, 0x49F, 0x360⟩, -- TIDE_STATUS
  ⟨0xE090001C, [], 0x0, 0x0, 0x0, 0xFFFFFFFF, 0x0⟩, -- TIDE_PHASE
  ⟨0xE0900020, [], 0x0, 0x0, 0x0, 0xFFFFFFFF, 0x0⟩, -- TIDE_TURN
  ⟨0xE090002C, [], 0x0, 0x0, 0x0, 0xFFF, 0x0⟩, -- TIDE_MAXDLY
  ⟨0xE0900100, [], 0x0, 0x0, 0x1F1F1F07, 0x0, 0x0⟩, -- TIDE_MPLL_CFG
  ⟨0xE0900104, [], 0x0, 0x0, 0xFFFFFFFF, 0x0, 0x0⟩, -- TIDE_MPLL_OFS
  ⟨0xE0900108, [], 0xBB8012C, 0x0, 0xFFFFFFFF, 0x0, 0x0⟩, -- TIDE_MPLL_GAIN
  ⟨0xE090010C, [], 0x2A8A01C2, 0x0, 0xFFFF03FF, 0x0, 0x0⟩, -- TIDE_MPLL_LIM
  ⟨0xE0900110, [], 0x0, 0x0, 0x0, 0xFFFF0007, 0x0⟩, -- TIDE_MPLL_STAT
  ⟨0xE0900114, [], 0x0, 0x0, 0x0, 0xFFFFFFFF, 0x0⟩, -- TIDE_MPLL_MEAS
  ⟨0xE0900200, [], 0x0, 0x0, 0xFFF1FFFF, 0x0, 0x0⟩, -- TIDE_EXT_CFG
  ⟨0xE0900204, [], 0x0, 0x0, 0xFFFFFFFF, 0x0, 0x0⟩, -- TIDE_EXT_OFS
  ⟨0xE0900210, [], 0x0, 0x0, 0x0, 0x3, 0x4⟩ -- TIDE_EXT_STAT
  ]

def rowsTIDE1 : List RegRow := [
  ⟨0xE0900300, [], 0x0, 0x0, 0x0, 0x1FFFF, 0x0⟩, -- TIDE_SYNC_STAT
  ⟨0xE0900400, [(8, 0x4)], 0x0, 0x0, 0x0, 0xFFFFFFFF, 0x0⟩, -- TIDE_CNT
  ⟨0xE0910000, [(1024, 0x10)], 0x0, 0x0, 0xFFFFFFFF, 0x0, 0x0⟩, -- TIDE_TEV_PHASE
  ⟨0xE0910004, [(1024, 0x10)], 0x0, 0x0, 0xFF3F, 0x0, 0x0⟩, -- TIDE_TEV_CTRL
  ⟨0xE0910008, [(1024, 0x10)], 0x0, 0x0, 0xFFFFFFFF, 0x0, 0x0⟩, -- TIDE_TEV_ARG
  ⟨0xE091000C, [(1024, 0x10)], 0x0, 0x0, 0x0, 0xFFFF0001, 0x0⟩, -- TIDE_TEV_STAT
  ⟨0xE0900024, [], 0x29F16B12, 0x0, 0x0, 0xFFFFFFFF, 0x0⟩, -- TIDE_INC_LO
  ⟨0xE0900028, [], 0x0, 0x0, 0x0, 0xFFFF, 0x0⟩, -- TIDE_INC_HI
  ⟨0xE0900208, [], 0x1C2, 0x0, 0xFFFFF, 0x0, 0x0⟩, -- TIDE_EXT_FMIN
  ⟨0xE090020C, [], 0x28A, 0x0, 0xFFFFF, 0x0, 0x0⟩ -- TIDE_EXT_FMAX
  ]

def rowsTIDE : List RegRow := rowsTIDE0 ++ rowsTIDE1

def rowsCVC0 : List RegRow := [
  ⟨0xE0A00000, [], 0x0, 0x0, 0x0, 0x0, 0x0⟩, -- CVC_SEQ_SW
  ⟨0xE0A00004, [], 0x0, 0x0, 0x0, 0x0, 0x0⟩, -- CVC_COMMIT
  ⟨0xE0A00008, [], 0x0, 0x0, 0x0, 0x10, 0xF⟩, -- CVC_STATUS
  ⟨0xE0A00100, [(8, 0x4)], 0x0, 0x0, 0x0, 0xFFFFFFFF, 0x0⟩, -- CVC_CNT
  ⟨0xE0A01000, [(12, 0x40)], 0x0, 0x0, 0x1F1FFF, 0x0, 0x0⟩, -- CVC_PP_CFG
  ⟨0xE0A01024, [(12, 0x40)], 0x0, 0x0, 0x0, 0x9, 0x6⟩, -- CVC_PP_STAT
  ⟨0xE0A01028, [(12, 0x40)], 0x0, 0x0, 0x0, 0x1FFFFFFF, 0x0⟩, -- CVC_PP_CNT
  ⟨0xE0A02000, [(16, 0x200)], 0x0, 0x0, 0x1F011F, 0x0, 0x0⟩, -- CVC_SEQ_CFG
  ⟨0xE0A02004, [(16, 0x200)], 0x0, 0x0, 0x0, 0xFFFF0001, 0x2⟩, -- CVC_SEQ_STAT
  ⟨0xE0A02040, [(16, 0x200), (32, 0x4)], 0x0, 0x0, 0x1F0F, 0x0, 0x0⟩, -- CVC_SEQ_STEP
  ⟨0xE0A02100, [(16, 0x200), (32, 0x4)], 0x8000, 0x0, 0x0, 0xFF00FFFF, 0x0⟩, -- CVC_SEQ_RES
  ⟨0xE0A04000, [(16, 0x10)], 0x800000, 0x0, 0xFF7FFFF, 0x0, 0x0⟩, -- CVC_CM_CFG
  ⟨0xE0A04004, [(16, 0x10)], 0x0, 0x0, 0x0, 0x3FF0001, 0x2⟩, -- CVC_CM_STAT
  ⟨0xE0A05000, [(16, 0x80)], 0x0, 0x0, 0x1FFFFF, 0x0, 0x0⟩, -- CVC_KN_CFG
  ⟨0xE0A05004, [(16, 0x80)], 0x0, 0x0, 0xFFF0FFF, 0x0, 0x0⟩, -- CVC_KN_IN
  ⟨0xE0A0502C, [(16, 0x80)], 0x0, 0x0, 0x1FFFFFFF, 0x0, 0x0⟩, -- CVC_KN_SCALE
  ⟨0xE0A05030, [(16, 0x80)], 0x0, 0x0, 0x0, 0xFFFFFFFF, 0x0⟩, -- CVC_KN_OUT
  ⟨0xE0A05034, [(16, 0x80)], 0x0, 0x0, 0x0, 0xFFFF0001, 0x2⟩, -- CVC_KN_STAT
  ⟨0xE0A06000, [(16, 0x4)], 0x0, 0xFFFFFFFF, 0x0, 0x0, 0x0⟩, -- CVC_REF
  ⟨0xE0A80004, [], 0x0, 0x0, 0x0, 0x0, 0x0⟩ -- CVC_SEL_COMMIT
  ]

def rowsCVC1 : List RegRow := [
  ⟨0xE0A80008, [], 0x0, 0x0, 0x0, 0xFF06, 0x1⟩, -- CVC_SEL_STATUS
  ⟨0xE0A80010, [], 0x8, 0x0, 0xFF, 0x0, 0x0⟩, -- CVC_SEL_TRIPIN
  ⟨0xE0A81000, [(12, 0x20)], 0x0, 0x0, 0x3FFF1FFF, 0x0, 0x0⟩, -- CVC_SEL_PP_CFG
  ⟨0xE0A81004, [(12, 0x20)], 0x0, 0x0, 0x1FFF, 0x0, 0x0⟩, -- CVC_SEL_PP_MINPW
  ⟨0xE0A81008, [(12, 0x20)], 0x0, 0x0, 0xFFFFFF, 0x0, 0x0⟩, -- CVC_SEL_PP_MASK
  ⟨0xE0A8100C, [(12, 0x20)], 0x0, 0x0, 0x0, 0xFFFFFF1F, 0x60⟩, -- CVC_SEL_PP_STAT
  ⟨0xE0A81010, [(12, 0x20)], 0x0, 0x0, 0x0, 0xFFFFFFFF, 0x0⟩, -- CVC_SEL_PP_CNT
  ⟨0xE0A01004, [(12, 0x40)], 0x0, 0x0, 0x1FFFFFFF, 0x0, 0x0⟩, -- CVC_PP_TRGA
  ⟨0xE0A01008, [(12, 0x40)], 0x0, 0x0, 0x1FFFFFFF, 0x0, 0x0⟩, -- CVC_PP_TRGB
  ⟨0xE0A0100C, [(12, 0x40)], 0x0, 0x1FFFFFFF, 0x0, 0x0, 0x0⟩, -- CVC_PP_PER
  ⟨0xE0A01010, [(12, 0x40)], 0x0, 0x1FFFFFFF, 0x0, 0x0, 0x0⟩, -- CVC_PP_AON
  ⟨0xE0A01014, [(12, 0x40)], 0x0, 0x1FFFFFFF, 0x0, 0x0, 0x0⟩, -- CVC_PP_AOFF
  ⟨0xE0A01018, [(12, 0x40)], 0x0, 0x1FFFFFFF, 0x0, 0x0, 0x0⟩, -- CVC_PP_BON
  ⟨0xE0A0101C, [(12, 0x40)], 0x0, 0x1FFFFFFF, 0x0, 0x0, 0x0⟩, -- CVC_PP_BOFF
  ⟨0xE0A01020, [(12, 0x40)], 0x0, 0x1FFFFFFF, 0x0, 0x0, 0x0⟩, -- CVC_PP_PHS
  ⟨0xE0A05008, [(16, 0x80)], 0x0, 0x0, 0xFFFFFFFF, 0x0, 0x0⟩, -- CVC_KN_B0
  ⟨0xE0A0500C, [(16, 0x80)], 0x0, 0x0, 0xFFFFFFFF, 0x0, 0x0⟩, -- CVC_KN_B1
  ⟨0xE0A05010, [(16, 0x80)], 0x0, 0x0, 0xFFFFFFFF, 0x0, 0x0⟩, -- CVC_KN_B2
  ⟨0xE0A05014, [(16, 0x80)], 0x0, 0x0, 0xFFFFFFFF, 0x0, 0x0⟩, -- CVC_KN_B3
  ⟨0xE0A05018, [(16, 0x80)], 0x0, 0x0, 0xFFFFFFFF, 0x0, 0x0⟩ -- CVC_KN_A1
  ]

def rowsCVC2 : List RegRow := [
  ⟨0xE0A0501C, [(16, 0x80)], 0x0, 0x0, 0xFFFFFFFF, 0x0, 0x0⟩, -- CVC_KN_A2
  ⟨0xE0A05020, [(16, 0x80)], 0x0, 0x0, 0xFFFFFFFF, 0x0, 0x0⟩, -- CVC_KN_A3
  ⟨0xE0A05024, [(16, 0x80)], 0x80000000, 0x0, 0xFFFFFFFF, 0x0, 0x0⟩, -- CVC_KN_UMIN
  ⟨0xE0A05028, [(16, 0x80)], 0x7FFFFFFF, 0x0, 0xFFFFFFFF, 0x0, 0x0⟩, -- CVC_KN_UMAX
  ⟨0xE0A05040, [(16, 0x80), (6, 0x8), (2, 0x4)], 0x0, 0x0, 0x0, 0xFFFFFFFF, 0x0⟩, -- CVC_KN_STATE
  ⟨0xE0A90008, [], 0x0, 0x0, 0x0, 0xFFFFFFFF, 0x0⟩, -- CVC_SELM_STATUS
  ⟨0xE0A9100C, [(12, 0x20)], 0x0, 0x0, 0x0, 0xFFFFFFFF, 0x0⟩ -- CVC_SELM_PP_STAT
  ]

def rowsCVC : List RegRow := rowsCVC0 ++ rowsCVC1 ++ rowsCVC2

def rowsCAN0 : List RegRow := [
  ⟨0xE0B00004, [], 0x0, 0x0, 0x0, 0x0, 0x0⟩, -- CAN_COMMIT
  ⟨0xE0B00008, [], 0x0, 0x0, 0x0, 0x0, 0x1⟩, -- CAN_STATUS
  ⟨0xE0B00100, [(4, 0x4)], 0x0, 0x0, 0xFFFFFF, 0x0, 0x0⟩, -- CAN_INH_MAP
  ⟨0xE0B00400, [(16, 0x100)], 0x1, 0x0, 0x7FF, 0x0, 0x0⟩, -- CAN_PCFG
  ⟨0xE0B00410, [(16, 0x100)], 0x0, 0x0, 0x1FF, 0x0, 0x0⟩, -- CAN_TDC
  ⟨0xE0B00414, [(16, 0x100)], 0x703, 0x0, 0x13F3F3F, 0x0, 0x0⟩, -- CAN_XPWM
  ⟨0xE0B00418, [(16, 0x100)], 0x0, 0x0, 0x3FF1FFF, 0x0, 0x0⟩, -- CAN_FLT
  ⟨0xE0B0041C, [(16, 0x100)], 0x12, 0x0, 0xF3, 0x0, 0x0⟩, -- CAN_TRX
  ⟨0xE0B0043C, [(16, 0x100)], 0x0, 0x0, 0x0, 0x0, 0x0⟩, -- CAN_CTL
  ⟨0xE0B00440, [(16, 0x100)], 0x2, 0x0, 0x0, 0xFFFF073F, 0x0⟩, -- CAN_STAT
  ⟨0xE0B00444, [(16, 0x100)], 0x0, 0x0, 0x0, 0x3F0007, 0x100⟩, -- CAN_WAKE
  ⟨0xE0B00448, [(16, 0x100)], 0x0, 0x0, 0x0, 0x3FFFFF, 0x0⟩, -- CAN_TXQ
  ⟨0xE0B00450, [(16, 0x100), (4, 0x4)], 0x0, 0x0, 0x0, 0xFFFFFFFF, 0x0⟩, -- CAN_CNT
  ⟨0xE0B80000, [(16, 0x1000)], 0x0, 0x0, 0x0, 0x1FF03, 0x3000000⟩, -- CAN_RX_CTL
  ⟨0xE0B80004, [(16, 0x1000)], 0x3F, 0x0, 0x1FF, 0x0, 0x0⟩, -- CAN_RX_CFG
  ⟨0xE0B80008, [(16, 0x1000)], 0x0, 0x1F3F01, 0x0, 0x0, 0x0⟩, -- CAN_RX_IRQ
  ⟨0xE0B00010, [], 0x0, 0x0, 0x0, 0xFFFFFFFF, 0x0⟩, -- CAN_TS_LO
  ⟨0xE0B00014, [], 0x0, 0x0, 0x0, 0xFFFFFFFF, 0x0⟩, -- CAN_TS_HI
  ⟨0xE0B00404, [(16, 0x100)], 0x274F3C1, 0x0, 0x7FFFFFF, 0x0, 0x0⟩, -- CAN_NBT
  ⟨0xE0B00408, [(16, 0x100)], 0x0, 0x0, 0x7FFFFFF, 0x0, 0x0⟩ -- CAN_DBT
  ]

def rowsCAN1 : List RegRow := [
  ⟨0xE0B0040C, [(16, 0x100)], 0x0, 0x0, 0x7FFFFFF, 0x0, 0x0⟩, -- CAN_XBT
  ⟨0xE0B00420, [(16, 0x100)], 0x0, 0x0, 0x1FFFFFFF, 0x0, 0x0⟩, -- CAN_WUF_ID
  ⟨0xE0B00424, [(16, 0x100)], 0x0, 0x0, 0x1FFFFFFF, 0x0, 0x0⟩, -- CAN_WUF_MASK
  ⟨0xE0B00428, [(16, 0x100)], 0x0, 0x0, 0xFFFFFFFF, 0x0, 0x0⟩, -- CAN_WUF_DLO
  ⟨0xE0B0042C, [(16, 0x100)], 0x0, 0x0, 0xFFFFFFFF, 0x0, 0x0⟩, -- CAN_WUF_DHI
  ⟨0xE0B00430, [(16, 0x100)], 0x0, 0x0, 0x3F, 0x0, 0x0⟩, -- CAN_WUF_CFG
  ⟨0xE0B10000, [(8192, 0x8), (2, 0x4)], 0x0, 0xFFFFFFFF, 0x0, 0x0, 0x0⟩, -- CAN_FLTRAM
  ⟨0xE0B80100, [(16, 0x1000), (8, 0x4)], 0x0, 0x0, 0x0, 0xFFFFFFFF, 0x0⟩, -- CAN_RX_HDR
  ⟨0xE0B80120, [(16, 0x1000), (512, 0x4)], 0x0, 0x0, 0x0, 0xFFFFFFFF, 0x0⟩, -- CAN_RX_DATA
  ⟨0xE0B90000, [(16, 0x100), (8, 0x4)], 0x0, 0x0, 0x0, 0xFFFFFFFF, 0x0⟩ -- CAN_MIR
  ]

def rowsCAN : List RegRow := rowsCAN0 ++ rowsCAN1

def rowsLIN0 : List RegRow := [
  ⟨0xE0C00004, [], 0x0, 0x0, 0x0, 0x0, 0x0⟩, -- LIN_COMMIT
  ⟨0xE0C00008, [], 0x0, 0x0, 0x0, 0x0, 0x1⟩, -- LIN_STATUS
  ⟨0xE0C00400, [(8, 0x100)], 0x4B000034, 0x0, 0xFFFF01FF, 0x0, 0x0⟩, -- LIN_CFG
  ⟨0xE0C00404, [(8, 0x100)], 0x3E80004, 0x0, 0x1FFF000F, 0x0, 0x0⟩, -- LIN_TIME
  ⟨0xE0C00408, [(8, 0x100)], 0x0, 0x0, 0x3F03, 0x0, 0x0⟩, -- LIN_SCHED
  ⟨0xE0C0040C, [(8, 0x100)], 0x0, 0x0, 0x0, 0x0, 0x0⟩, -- LIN_CTL
  ⟨0xE0C00440, [(8, 0x100)], 0x0, 0x0, 0x0, 0xFFFF3F03, 0xC⟩, -- LIN_STAT
  ⟨0xE0C04000, [(8, 0x100), (64, 0x4)], 0x0, 0x0, 0xFFFF003F, 0x0, 0x0⟩, -- LIN_SLOT
  ⟨0xE0C02000, [(8, 0x400), (64, 0x10)], 0x0, 0x0, 0xFF, 0x0, 0x0⟩, -- LIN_FR_CFG
  ⟨0xE0C02004, [(8, 0x400), (64, 0x10), (2, 0x4)], 0x0, 0x0, 0xFFFFFFFF, 0x0, 0x0⟩, -- LIN_FR_DATA
  ⟨0xE0C0200C, [(8, 0x400), (64, 0x10)], 0x0, 0x0, 0x0, 0xFFFF000E, 0x1⟩, -- LIN_FR_STAT
  ⟨0xE0C80440, [(8, 0x100)], 0x0, 0x0, 0x0, 0xFFFFFFFF, 0x0⟩, -- LIN_MIR_STAT
  ⟨0xE0C82000, [(8, 0x400), (64, 0x10), (4, 0x4)], 0x0, 0x0, 0x0, 0xFFFFFFFF, 0x0⟩ -- LIN_MIR_FR
  ]

def rowsLIN : List RegRow := rowsLIN0

def rowsETHS0 : List RegRow := [
  ⟨0xE0D00E00, [(4, 0x100)], 0x7001, 0x0, 0xFFFFFF, 0x0, 0x0⟩, -- ETHS_P_CFG (instance 10–13)
  ⟨0xE0D00004, [], 0x0, 0x0, 0x0, 0x0, 0x0⟩, -- ETHS_COMMIT
  ⟨0xE0D00008, [], 0x4000, 0x0, 0x0, 0x7FFF, 0x10000⟩, -- ETHS_STATUS
  ⟨0xE0D00010, [], 0x640BB8, 0x0, 0xFFFFFFFF, 0x0, 0x0⟩, -- ETHS_CTRL
  ⟨0xE0D00020, [], 0x0, 0x0, 0x0, 0x0, 0x3FF⟩, -- ETHS_WAKE
  ⟨0xE0D00400, [(16, 0x100)], 0x1, 0x0, 0xFFFFFF, 0x0, 0x0⟩, -- ETHS_P_CFG
  ⟨0xE0D00404, [(16, 0x100)], 0xF4240, 0x0, 0x3FFFFFFF, 0x0, 0x0⟩, -- ETHS_P_CYCLE
  ⟨0xE0D00414, [(16, 0x100)], 0x400, 0x0, 0xFFFF, 0x0, 0x0⟩, -- ETHS_P_QMAX
  ⟨0xE0D00418, [(16, 0x100)], 0x0, 0x0, 0x103FF, 0x0, 0x0⟩, -- ETHS_P_WAKE
  ⟨0xE0D00440, [(16, 0x100)], 0x0, 0x0, 0x0, 0x1FF, 0x0⟩, -- ETHS_P_STAT
  ⟨0xE0D00480, [(16, 0x100), (8, 0x4)], 0x0, 0x0, 0x0, 0xFFFFFFFF, 0x0⟩, -- ETHS_P_CNT
  ⟨0xE0D10000, [(16, 0x400), (256, 0x4)], 0xFF, 0x0, 0xFFFFFFFF, 0x0, 0x0⟩, -- ETHS_P_GCL
  ⟨0xE0D30000, [(2, 0x100)], 0x0, 0x0, 0xF, 0x0, 0x0⟩, -- ETHS_MS_CFG
  ⟨0xE0D30004, [(2, 0x100)], 0x0, 0x0, 0xFFFFFFFF, 0x0, 0x0⟩, -- ETHS_MS_REPLAY
  ⟨0xE0D30008, [(2, 0x100)], 0x0, 0x0, 0x0, 0x1, 0x0⟩, -- ETHS_MS_TXSA
  ⟨0xE0D00408, [(16, 0x100)], 0x0, 0x0, 0x3FFFFFFF, 0x0, 0x0⟩, -- ETHS_P_BASE_NS
  ⟨0xE0D0040C, [(16, 0x100)], 0x0, 0x0, 0xFFFFFFFF, 0x0, 0x0⟩, -- ETHS_P_BASE_SLO
  ⟨0xE0D00410, [(16, 0x100)], 0x0, 0x0, 0xFFFF, 0x0, 0x0⟩, -- ETHS_P_BASE_SHI
  ⟨0xE0D20000, [(512, 0x10)], 0x0, 0x0, 0xFFFFFFFF, 0x0, 0x0⟩, -- ETHS_SID_W0
  ⟨0xE0D20004, [(512, 0x10)], 0x0, 0x0, 0xFFFFFFF, 0x0, 0x0⟩ -- ETHS_SID_W1
  ]

def rowsETHS1 : List RegRow := [
  ⟨0xE0D20008, [(512, 0x10)], 0x0, 0x0, 0x3, 0x0, 0x0⟩, -- ETHS_SID_W2
  ⟨0xE0D22000, [(256, 0x10)], 0x0, 0x0, 0x7FFF01FF, 0x0, 0x0⟩, -- ETHS_SF_W0
  ⟨0xE0D22004, [(256, 0x10)], 0x0, 0x0, 0x7FF, 0x0, 0x0⟩, -- ETHS_SF_W1
  ⟨0xE0D22008, [(256, 0x10)], 0x0, 0x0, 0x0, 0x1, 0x0⟩, -- ETHS_SF_W2
  ⟨0xE0D24000, [(128, 0x10)], 0x0, 0x0, 0xFFFFFF, 0x0, 0x0⟩, -- ETHS_FM_CIR
  ⟨0xE0D24004, [(128, 0x10)], 0x0, 0x0, 0xFFFFFF, 0x0, 0x0⟩, -- ETHS_FM_EIR
  ⟨0xE0D24008, [(128, 0x10)], 0x0, 0x0, 0x1FFFFF, 0x0, 0x0⟩, -- ETHS_FM_CBS
  ⟨0xE0D2400C, [(128, 0x10)], 0x0, 0x0, 0x1FFFFF, 0x0, 0x0⟩, -- ETHS_FM_EBS
  ⟨0xE0D26000, [(128, 0x10)], 0x0, 0x0, 0x3FF301FF, 0x0, 0x0⟩, -- ETHS_FR_CFG
  ⟨0xE0D26004, [(128, 0x10)], 0x0, 0x0, 0x0, 0xFFFFFFFF, 0x0⟩, -- ETHS_FR_LASTSEQ
  ⟨0xE0D26008, [(128, 0x10)], 0x0, 0x0, 0x0, 0xFFFFFFFF, 0x0⟩, -- ETHS_FR_DISC
  ⟨0xE0D2600C, [(128, 0x10)], 0x0, 0x0, 0x0, 0xFFFFFFFF, 0x0⟩, -- ETHS_FR_ROGUE
  ⟨0xE0D80440, [(16, 0x100)], 0x0, 0x0, 0x0, 0xFFFFFFFF, 0x0⟩, -- ETHS_MIR_STAT
  ⟨0xE0D80480, [(16, 0x100), (8, 0x4)], 0x0, 0x0, 0x0, 0xFFFFFFFF, 0x0⟩ -- ETHS_MIR_CNT
  ]

def rowsETHS : List RegRow := rowsETHS0 ++ rowsETHS1

def rowsTIME0 : List RegRow := [
  ⟨0xE0E00100, [(4, 0x80)], 0x0, 0x0, 0x1FFF, 0x0, 0x0⟩, -- TIME_TB_CFG
  ⟨0xE0E00104, [(4, 0x80)], 0x2666599A, 0x0, 0xFFFFFFFF, 0x0, 0x0⟩, -- TIME_TB_GAIN
  ⟨0xE0E00108, [(4, 0x80)], 0x3E8, 0x0, 0xFFFFFF, 0x0, 0x0⟩, -- TIME_TB_STEP
  ⟨0xE0E0010C, [(4, 0x80)], 0x30064, 0x0, 0xFFFFFF, 0x0, 0x0⟩, -- TIME_TB_LOCK
  ⟨0xE0E0011C, [(4, 0x80)], 0x0, 0x0, 0x0, 0xFFFFFFFF, 0x0⟩, -- TIME_TB_FREQ
  ⟨0xE0E00128, [(4, 0x80)], 0x0, 0xFFFFFF, 0x0, 0x0, 0x0⟩, -- TIME_TB_OFS_T
  ⟨0xE0E00140, [(4, 0x80)], 0x0, 0x0, 0x0, 0xFFFF0027, 0x18⟩, -- TIME_TB_STAT
  ⟨0xE0E01008, [(10, 0x20)], 0x0, 0x0, 0xFFFFFFFF, 0x0, 0x0⟩, -- TIME_P_ASYM
  ⟨0xE0E0100C, [(10, 0x20)], 0x0, 0x0, 0x0, 0xF, 0x0⟩, -- TIME_P_TXTS_TAIL
  ⟨0xE0E00004, [], 0x0, 0x0, 0x0, 0x0, 0x0⟩, -- TIME_COMMIT
  ⟨0xE0E00008, [], 0x0, 0x0, 0x0, 0x0, 0x1⟩, -- TIME_STATUS
  ⟨0xE0E00110, [(4, 0x80)], 0x0, 0x0, 0x0, 0x3FFFFFFF, 0x0⟩, -- TIME_TB_NOW_NS
  ⟨0xE0E00114, [(4, 0x80)], 0x0, 0x0, 0x0, 0xFFFFFFFF, 0x0⟩, -- TIME_TB_NOW_SLO
  ⟨0xE0E00118, [(4, 0x80)], 0x0, 0x0, 0x0, 0xFFFFFFFF, 0x0⟩, -- TIME_TB_NOW_SHI
  ⟨0xE0E00120, [(4, 0x80)], 0x0, 0xFFFFFFFF, 0x0, 0x0, 0x0⟩, -- TIME_TB_OFS_LO
  ⟨0xE0E00124, [(4, 0x80)], 0x0, 0xFFFFFFFF, 0x0, 0x0, 0x0⟩, -- TIME_TB_OFS_HI
  ⟨0xE0E0012C, [(4, 0x80)], 0x0, 0x3FFFFFFF, 0x0, 0x0, 0x0⟩, -- TIME_TB_SET_NS
  ⟨0xE0E00130, [(4, 0x80)], 0x0, 0xFFFFFFFF, 0x0, 0x0, 0x0⟩, -- TIME_TB_SET_SLO
  ⟨0xE0E00134, [(4, 0x80)], 0x0, 0xFFFF, 0x0, 0x0, 0x0⟩, -- TIME_TB_SET_SHI
  ⟨0xE0E00150, [(4, 0x80), (5, 0x4)], 0x0, 0x0, 0x0, 0xFFFFFFFF, 0x0⟩ -- TIME_TB_XCAP
  ]

def rowsTIME1 : List RegRow := [
  ⟨0xE0E01000, [(2, 0x20)], 0xB40000, 0x0, 0xFFFFFFFF, 0x0, 0x0⟩, -- TIME_P_EGR_EU
  ⟨0xE0E01000, [(10, 0x20)], 0x1040000, 0x0, 0xFFFFFFFF, 0x0, 0x0⟩, -- TIME_P_EGR
  ⟨0xE0E01004, [(2, 0x20)], 0xDC0000, 0x0, 0xFFFFFFFF, 0x0, 0x0⟩, -- TIME_P_ING_EU
  ⟨0xE0E01004, [(10, 0x20)], 0x1540000, 0x0, 0xFFFFFFFF, 0x0, 0x0⟩, -- TIME_P_ING
  ⟨0xE0E02000, [(10, 0x100), (16, 0x10), (4, 0x4)], 0x0, 0x0, 0x0, 0xFFFFFFFF, 0x0⟩ -- TIME_P_TXTS
  ]

def rowsTIME : List RegRow := rowsTIME0 ++ rowsTIME1

def rowsHARB0 : List RegRow := [
  ⟨0xE0F00000, [], 0xBA04, 0x0, 0xFFFF, 0x0, 0x0⟩, -- HARB_CFG
  ⟨0xE0F00004, [], 0x0, 0x0, 0x0, 0x0, 0x0⟩, -- HARB_COMMIT
  ⟨0xE0F00008, [], 0x0, 0x0, 0x0, 0x7FFF0000, 0x3⟩, -- HARB_STATUS
  ⟨0xE0F00100, [(8, 0x4)], 0x0, 0x0, 0x0, 0xFFFFFFFF, 0x0⟩, -- HARB_CNT
  ⟨0xE0F01000, [(64, 0x20), (4, 0x4)], 0x0, 0x0, 0xFFFFFFFF, 0x0, 0x0⟩, -- HARB_EP_ADDR
  ⟨0xE0F01010, [(64, 0x20)], 0x0, 0x0, 0x7FFFFFFF, 0x0, 0x0⟩, -- HARB_EP_W4
  ⟨0xE0F01014, [(64, 0x20)], 0x0, 0x0, 0x3FF, 0x0, 0x0⟩, -- HARB_EP_W5
  ⟨0xE0F20000, [(4096, 0x20)], 0x0, 0x0, 0xFFF7FFFF, 0x0, 0x0⟩, -- HARB_PDU_W0
  ⟨0xE0F20004, [(4096, 0x20)], 0x0, 0x0, 0xFFFFFFFF, 0x0, 0x0⟩, -- HARB_PDU_W1
  ⟨0xE0F20008, [(4096, 0x20)], 0x0, 0x0, 0xFFFF3F07, 0x0, 0x0⟩, -- HARB_PDU_W2
  ⟨0xE0F2000C, [(4096, 0x20)], 0x0, 0x0, 0x3FFFF, 0x0, 0x0⟩, -- HARB_PDU_W3
  ⟨0xE0F20010, [(4096, 0x20)], 0x0, 0x0, 0x7FFF3FFF, 0x0, 0x0⟩, -- HARB_PDU_W4
  ⟨0xE0F20014, [(4096, 0x20)], 0x0, 0x0, 0xFFFF, 0x0, 0x0⟩, -- HARB_PDU_W5
  ⟨0xE0F40000, [(16384, 0x30)], 0x0, 0x0, 0xFFFFFFFF, 0x0, 0x0⟩, -- HARB_RT_W0
  ⟨0xE0F40004, [(16384, 0x30)], 0x0, 0x0, 0xFFF0FFF, 0x0, 0x0⟩, -- HARB_RT_W1
  ⟨0xE0F40008, [(16384, 0x30)], 0x0, 0x0, 0xFFFFFF, 0x0, 0x0⟩, -- HARB_RT_W2
  ⟨0xE0F4000C, [(16384, 0x30)], 0x0, 0x0, 0xFFFFFFFF, 0x0, 0x0⟩, -- HARB_RT_W3
  ⟨0xE0F40010, [(16384, 0x30)], 0x0, 0x0, 0xFFFFFFFF, 0x0, 0x0⟩, -- HARB_RT_W4
  ⟨0xE0F40014, [(16384, 0x30), (2, 0x4)], 0x0, 0x0, 0xFFFFFFFF, 0x0, 0x0⟩, -- HARB_RT_OFFSET
  ⟨0xE0F4001C, [(16384, 0x30)], 0x0, 0x0, 0x3FFFFFFF, 0x0, 0x0⟩ -- HARB_RT_W7
  ]

def rowsHARB1 : List RegRow := [
  ⟨0xE0F40020, [(16384, 0x30), (2, 0x4)], 0x0, 0x0, 0xFFFFFFFF, 0x0, 0x0⟩, -- HARB_RT_INVALID_RAW
  ⟨0xE0F40028, [(16384, 0x30), (2, 0x4)], 0x0, 0x0, 0xFFFFFFFF, 0x0, 0x0⟩ -- HARB_RT_SUBST_VALUE
  ]

def rowsHARB : List RegRow := rowsHARB0 ++ rowsHARB1

def rowsCWY0 : List RegRow := [
  ⟨0xE1000000, [], 0x5DBA0E, 0x0, 0xFFFFFF, 0x0, 0x0⟩, -- CWY_CFG
  ⟨0xE100000C, [], 0x3E801F4, 0x0, 0xFFFFFFFF, 0x0, 0x0⟩, -- CWY_TIMING
  ⟨0xE1000010, [], 0x6405, 0x0, 0xFFFFFF, 0x0, 0x0⟩, -- CWY_DISC
  ⟨0xE1000020, [], 0x0, 0x3F, 0x0, 0x0, 0x0⟩, -- CWY_ERR_HEAD
  ⟨0xE1000024, [], 0x0, 0x0, 0x0, 0x3F, 0x0⟩, -- CWY_ERR_TAIL
  ⟨0xE1000100, [(8, 0x4)], 0x0, 0x0, 0x0, 0xFFFFFFFF, 0x0⟩, -- CWY_CNT
  ⟨0xE1004000, [(64, 0x40)], 0x20, 0x0, 0x1F3FFFE3, 0x0, 0x0⟩, -- CWY_W_CFG
  ⟨0xE1004004, [(64, 0x40)], 0x0, 0x0, 0xFFFFE000, 0x0, 0x0⟩, -- CWY_W_RBASE
  ⟨0xE1004008, [(64, 0x40)], 0xA, 0x0, 0xFFFF, 0x0, 0x0⟩, -- CWY_W_PREF
  ⟨0xE1004010, [(64, 0x40), (4, 0x4)], 0x0, 0x0, 0xFFFF1FFF, 0x0, 0x0⟩, -- CWY_W_RNG
  ⟨0xE1004020, [(64, 0x40)], 0x0, 0x0, 0x0, 0x1FF01FD, 0x0⟩, -- CWY_W_STAT
  ⟨0xE1004024, [(64, 0x40)], 0x0, 0x0, 0x0, 0xFFFFFFFF, 0x0⟩, -- CWY_W_LAST_DISC
  ⟨0xE1000004, [], 0x0, 0x0, 0x0, 0x0, 0x0⟩, -- CWY_COMMIT
  ⟨0xE1000008, [], 0x0, 0x0, 0x0, 0x0, 0x3⟩, -- CWY_STATUS
  ⟨0xE1001000, [(64, 0x10), (4, 0x4)], 0x0, 0x0, 0x0, 0xFFFFFFFF, 0x0⟩, -- CWY_ERR
  ⟨0xE1008000, [(256, 0x20), (8, 0x4)], 0x0, 0x0, 0x0, 0xFFFFFFFF, 0x0⟩ -- CWY_NODE
  ]

def rowsCWY : List RegRow := rowsCWY0

def rowsNMS0 : List RegRow := [
  ⟨0xE1100000, [], 0xBA18FF00, 0x0, 0xFFFFFF01, 0x0, 0x0⟩, -- NMS_CFG
  ⟨0xE1100004, [], 0x0, 0x0, 0x0, 0x0, 0x0⟩, -- NMS_COMMIT
  ⟨0xE1100008, [], 0x0, 0x0, 0x0, 0x2, 0x1⟩, -- NMS_STATUS
  ⟨0xE110000C, [], 0x0, 0x0, 0x0, 0x1FF, 0x8000⟩, -- NMS_WAKE_PENDING
  ⟨0xE1100100, [(8, 0x4)], 0x0, 0x0, 0x0, 0xFFFFFFFF, 0x0⟩, -- NMS_CNT
  ⟨0xE1100400, [(8, 0x40)], 0x7000000, 0x0, 0xFFFF1FFF, 0x0, 0x0⟩, -- NMS_COVE_CFG0
  ⟨0xE1100404, [(8, 0x40)], 0xA140096, 0x0, 0xFF7FFFFF, 0x0, 0x0⟩, -- NMS_COVE_CFG1
  ⟨0xE1100408, [(8, 0x40)], 0x0, 0x0, 0x1FFFFFFF, 0x0, 0x0⟩, -- NMS_COVE_CFG2
  ⟨0xE110040C, [(8, 0x40)], 0x0, 0x0, 0x1FFFF, 0x0, 0x0⟩, -- NMS_COVE_CFG3
  ⟨0xE1100410, [(8, 0x40)], 0x0, 0x0, 0x0, 0xFF1FFF0F, 0x0⟩, -- NMS_COVE_STAT
  ⟨0xE1100414, [(8, 0x40)], 0x0, 0x0, 0x0, 0xFF, 0x0⟩, -- NMS_COVE_KEEP
  ⟨0xE1100418, [(8, 0x40)], 0x0, 0x0, 0x0, 0xFFFFFFFF, 0x0⟩, -- NMS_COVE_UNK
  ⟨0xE1100020, [], 0x0, 0x0, 0x3FFFF, 0x0, 0x0⟩, -- NMS_PORTCOVE (instance 4: ports 32–37)
  ⟨0xE1100010, [(5, 0x4)], 0x0, 0x0, 0xFFFFFF, 0x0, 0x0⟩, -- NMS_PORTCOVE
  ⟨0xE1101000, [(8, 0x100), (16, 0x10)], 0x0, 0x0, 0x3FFFF, 0x0, 0x0⟩, -- NMS_MEM_W0
  ⟨0xE1101004, [(8, 0x100), (16, 0x10)], 0x0, 0x0, 0xFFFFFFFF, 0x0, 0x0⟩, -- NMS_MEM_W1
  ⟨0xE1101008, [(8, 0x100), (16, 0x10)], 0x0, 0x0, 0xFFFFFFFF, 0x0, 0x0⟩, -- NMS_MEM_W2
  ⟨0xE1102000, [(64, 0x10), (4, 0x4)], 0x0, 0x0, 0x0, 0xFFFFFFFF, 0x0⟩, -- NMS_LOG
  ⟨0xE118000C, [], 0x0, 0x0, 0x0, 0xFFFFFFFF, 0x0⟩, -- NMS_MIR_WAKE_PENDING
  ⟨0xE1180100, [(8, 0x4)], 0x0, 0x0, 0x0, 0xFFFFFFFF, 0x0⟩, -- NMS_MIR_CNT
  ⟨0xE1180410, [(8, 0x40), (3, 0x4)], 0x0, 0x0, 0x0, 0xFFFFFFFF, 0x0⟩ -- NMS_MIR_COVE
  ]

def rowsNMS : List RegRow := rowsNMS0

def rowsLSTP0 : List RegRow := [
  ⟨0xE1400000, [], 0x0, 0x0, 0x0, 0x3, 0x4⟩, -- LSTP_STATUS
  ⟨0xE1400004, [], 0x0, 0x0, 0x0, 0x0, 0x0⟩, -- LSTP_COMMIT
  ⟨0xE1400008, [], 0x0, 0x0, 0x0, 0xFFFFFF0F, 0x0⟩, -- LSTP_LAST
  ⟨0xE140000C, [], 0x0, 0x0, 0x0, 0x0, 0x0⟩, -- LSTP_INJECT
  ⟨0xE1400100, [(4, 0x10)], 0x0, 0x0, 0x3F03, 0x0, 0x0⟩, -- LSTP_PAIR_CFG
  ⟨0xE1400104, [(5, 0x10)], 0x0, 0x0, 0x0, 0xFFFF0007, 0x0⟩ -- LSTP_PAIR_STAT
  ]

def rowsLSTP : List RegRow := rowsLSTP0

def rowsPOT0 : List RegRow := [
  ⟨0xE1300000, [], 0x0, 0x0, 0x0, 0xFFFF0001, 0x2⟩, -- POT_STATUS
  ⟨0xE1300018, [], 0x0, 0x1FFFFF, 0x0, 0x0, 0x0⟩, -- POT_UPD_CNT
  ⟨0xE130001C, [], 0x0, 0x303FF, 0x0, 0x0, 0x0⟩, -- POT_UPD_ENTRY
  ⟨0xE1300028, [], 0x0, 0x0, 0x0, 0x13F0F7F, 0x0⟩, -- POT_VIOL_SRC
  ⟨0xE1300010, [], 0x0, 0xFFFFF000, 0x0, 0x0, 0x0⟩, -- POT_UPD_ADDR_LO
  ⟨0xE1300014, [], 0x0, 0xFF, 0x0, 0x0, 0x0⟩, -- POT_UPD_ADDR_HI
  ⟨0xE1300020, [], 0x0, 0x0, 0x0, 0xFFFFFFFF, 0x0⟩, -- POT_VIOL_ADDR_LO
  ⟨0xE1300024, [], 0x0, 0x0, 0x0, 0xFF, 0x0⟩, -- POT_VIOL_ADDR_HI
  ⟨0xE1310000, [(2304, 0x4)], 0x0, 0x0, 0x0, 0xFFFFFFFF, 0x0⟩ -- POT_ENT
  ]

def rowsPOT : List RegRow := rowsPOT0

def rowsIOV0 : List RegRow := [
  ⟨0xE1201000, [], 0xFFFF0003, 0x0, 0xFFFF0007, 0x0, 0x0⟩, -- IOV_FN_CFG (instance 0)
  ⟨0xE1201004, [], 0x1, 0x0, 0x0, 0xFFFF01F7, 0x8⟩, -- IOV_FN_STATE (instance 0)
  ⟨0xE1200100, [(8, 0x4)], 0x0, 0x0, 0x0, 0xFFFFFFFF, 0x0⟩, -- IOV_CNT
  ⟨0xE1201000, [(64, 0x40)], 0x10000, 0x0, 0xFFFF0007, 0x0, 0x0⟩, -- IOV_FN_CFG
  ⟨0xE1201004, [(64, 0x40)], 0x0, 0x0, 0x0, 0xFFFF01F7, 0x8⟩, -- IOV_FN_STATE
  ⟨0xE1201008, [(64, 0x40)], 0x9, 0x0, 0x3FF, 0x0, 0x0⟩, -- IOV_FN_QTO
  ⟨0xE1208000, [(256, 0x20)], 0x0, 0x0, 0xFFFFFFFF, 0x0, 0x0⟩, -- IOV_Q_CFG
  ⟨0xE1208018, [(256, 0x20)], 0x0, 0x0, 0x0, 0x3, 0x0⟩, -- IOV_Q_STAT
  ⟨0xE1200004, [], 0x0, 0x0, 0x0, 0x0, 0x0⟩, -- IOV_COMMIT
  ⟨0xE1200008, [], 0x0, 0x0, 0x0, 0x0, 0x1⟩, -- IOV_STATUS
  ⟨0xE1201010, [(64, 0x40), (2, 0x4)], 0x0, 0x0, 0xFFFFFFFF, 0x0, 0x0⟩, -- IOV_FN_GATP
  ⟨0xE1201018, [(64, 0x40), (2, 0x4)], 0x0, 0x0, 0xFFFFFFFF, 0x0, 0x0⟩, -- IOV_FN_DIRTYA
  ⟨0xE1201020, [(64, 0x40), (2, 0x4)], 0x0, 0x0, 0xFFFFFFFF, 0x0, 0x0⟩, -- IOV_FN_DIRTYB
  ⟨0xE1201028, [(64, 0x40)], 0x0, 0x0, 0xFFFFFFFF, 0x0, 0x0⟩, -- IOV_FN_MAC_LO
  ⟨0xE120102C, [(64, 0x40)], 0x0, 0x0, 0x8FFFFFFF, 0x0, 0x0⟩, -- IOV_FN_MAC_HI
  ⟨0xE1202000, [(64, 0x100), (32, 0x8)], 0x0, 0xFFFFFFFC, 0x0, 0x0, 0x0⟩, -- IOV_FN_VEC_LO
  ⟨0xE1202004, [(64, 0x100), (32, 0x8)], 0x0, 0x87FF00FF, 0x0, 0x0, 0x0⟩, -- IOV_FN_VEC_HI
  ⟨0xE1208008, [(256, 0x20), (2, 0x4)], 0x0, 0x0, 0xFFFFFFFF, 0x0, 0x0⟩, -- IOV_Q_SQBASE
  ⟨0xE1208010, [(256, 0x20), (2, 0x4)], 0x0, 0x0, 0xFFFFFFFF, 0x0, 0x0⟩, -- IOV_Q_CQBASE
  ⟨0xE1280000, [(64, 0x1000), (16, 0x10)], 0x0, 0x8FFF, 0x0, 0x0, 0x0⟩ -- IOV_DB_SQ_TAIL
  ]

def rowsIOV1 : List RegRow := [
  ⟨0xE1280004, [(64, 0x1000), (16, 0x10)], 0x0, 0x8FFF, 0x0, 0x0, 0x0⟩, -- IOV_DB_CQ_HEAD
  ⟨0xE1280008, [(64, 0x1000), (16, 0x10)], 0x0, 0x0, 0x0, 0x8FFF, 0x0⟩, -- IOV_DB_SQ_HEAD
  ⟨0xE128000C, [(64, 0x1000), (16, 0x10)], 0x0, 0x0, 0x0, 0x8FFF, 0x0⟩ -- IOV_DB_CQ_TAIL
  ]

def rowsIOV : List RegRow := rowsIOV0 ++ rowsIOV1

def rowsLHS0 : List RegRow := [
  ⟨0xE1500100, [], 0x3B0002, 0x0, 0xFFFFF07, 0x0, 0x0⟩, -- LHS_EVT_CFG (instance 0)
  ⟨0xE1500110, [], 0x3B0002, 0x0, 0xFFFFF07, 0x0, 0x0⟩, -- LHS_EVT_CFG (instance 1)
  ⟨0xE1500120, [], 0x3B0001, 0x0, 0xFFFFF07, 0x0, 0x0⟩, -- LHS_EVT_CFG (instance 2)
  ⟨0xE1500130, [], 0x3B0003, 0x0, 0xFFFFF07, 0x0, 0x0⟩, -- LHS_EVT_CFG (instance 3)
  ⟨0xE1500140, [], 0x3B0003, 0x0, 0xFFFFF07, 0x0, 0x0⟩, -- LHS_EVT_CFG (instance 4)
  ⟨0xE1500150, [], 0x3B0901, 0x0, 0xFFFFF07, 0x0, 0x0⟩, -- LHS_EVT_CFG (instance 5)
  ⟨0xE1500160, [], 0x3B0F01, 0x0, 0xFFFFF07, 0x0, 0x0⟩, -- LHS_EVT_CFG (instance 6)
  ⟨0xE1500170, [], 0x3B0001, 0x0, 0xFFFFF07, 0x0, 0x0⟩, -- LHS_EVT_CFG (instance 7)
  ⟨0xE1500000, [], 0x1, 0x0, 0x0, 0x57FF, 0xA800⟩, -- LHS_STATUS
  ⟨0xE1500004, [], 0x0, 0x0, 0x0, 0x377, 0x0⟩, -- LHS_BOOT
  ⟨0xE1500008, [], 0x0, 0x0, 0x1FF, 0x0, 0x0⟩, -- LHS_CFG
  ⟨0xE150000C, [], 0x0, 0x0, 0x0, 0x0, 0x0⟩, -- LHS_COMMIT
  ⟨0xE1500020, [(4, 0x4)], 0x0, 0x0, 0x0, 0x7, 0x0⟩, -- LHS_KP
  ⟨0xE1500100, [(8, 0x10)], 0x0, 0x0, 0xFFFFF07, 0x0, 0x0⟩, -- LHS_EVT_CFG
  ⟨0xE1500104, [(8, 0x10)], 0x0, 0x0, 0x0, 0xFFFFFF, 0x0⟩, -- LHS_EVT_CNT
  ⟨0xE1500180, [], 0x0, 0x0, 0x0, 0xFFFF0077, 0x0⟩, -- LHS_EVT_LAST
  ⟨0xE1500184, [], 0x0, 0x0, 0x0, 0x0, 0xFF⟩, -- LHS_EVT_AON
  ⟨0xE1500300, [], 0x0, 0x0, 0x0, 0x0, 0x0⟩, -- LHS_PMREQ
  ⟨0xE1500304, [], 0x0, 0x0, 0x0, 0x2, 0x1⟩, -- LHS_PMSTAT
  ⟨0xE1502000, [(256, 0x4)], 0x0, 0x0, 0x0, 0xF1F, 0x0⟩ -- LHS_KEY_INFO
  ]

def rowsLHS1 : List RegRow := [
  ⟨0xE1500010, [], 0x0, 0x0, 0x0, 0xFFFFFFFF, 0x0⟩, -- LHS_SVN0
  ⟨0xE1500014, [], 0x0, 0x0, 0x0, 0xFFFFFFFF, 0x0⟩, -- LHS_SVN1
  ⟨0xE1500200, [], 0x0, 0x0, 0xFF, 0x0, 0x0⟩, -- LHS_OWN
  ⟨0xE1500204, [], 0x0, 0x0, 0x1FFFFFF, 0x0, 0x0⟩, -- LHS_OWNB
  ⟨0xE1500400, [(16, 0x8), (2, 0x4)], 0x0, 0x0, 0x0, 0xFFFFFFFF, 0x0⟩, -- LHS_POL
  ⟨0xE1501000, [(2, 0x4)], 0x0, 0x0, 0xFFFFFFFF, 0x0, 0x0⟩, -- LHS_WATTR_PC
  ⟨0xE1501008, [], 0x0, 0x0, 0xFFFF, 0x0, 0x0⟩, -- LHS_WATTR_GD
  ⟨0xE1501010, [(8, 0x4)], 0x0, 0x0, 0xFFFFFFFF, 0x0, 0x0⟩, -- LHS_WATTR_FC
  ⟨0xE1501030, [], 0x0, 0x0, 0xFFFFFF, 0x0, 0x0⟩, -- LHS_WATTR_PW
  ⟨0xE1501038, [(2, 0x4)], 0x0, 0x0, 0xFFFFFFFF, 0x0, 0x0⟩, -- LHS_WATTR_DMAE
  ⟨0xE1501040, [(2, 0x4)], 0x0, 0x0, 0xFFFFFFFF, 0x0, 0x0⟩ -- LHS_WATTR_DMAW
  ]

def rowsLHS : List RegRow := rowsLHS0 ++ rowsLHS1

def rowsUPD0 : List RegRow := [
  ⟨0xE1600000, [], 0x630257, 0x0, 0xFFFFFF, 0x0, 0x0⟩, -- UPD_CFG
  ⟨0xE1600004, [], 0x0, 0x0, 0x0, 0x0, 0x0⟩, -- UPD_COMMIT
  ⟨0xE1600008, [], 0x0, 0x0, 0x0, 0xFFFF005F, 0xA0⟩, -- UPD_STATUS
  ⟨0xE160000C, [], 0x0, 0x0, 0x0, 0x1FFF3FFF, 0x0⟩, -- UPD_PROGRESS
  ⟨0xE1600100, [(8, 0x10)], 0x0, 0x0, 0x0, 0xFF031FFF, 0x0⟩, -- UPD_RELAY_STAT
  ⟨0xE1600200, [(8, 0x4)], 0x0, 0x0, 0x0, 0xFFFFFFFF, 0x0⟩ -- UPD_CNT
  ]

def rowsUPD : List RegRow := rowsUPD0

def rowsPARI0 : List RegRow := [
  ⟨0xE1700000, [], 0x27102509, 0x0, 0xFFFFFFFF, 0x0, 0x0⟩, -- PARI_CFG
  ⟨0xE1700004, [], 0x0, 0x0, 0x0, 0x0, 0x0⟩, -- PARI_COMMIT
  ⟨0xE1700008, [], 0x0, 0x0, 0x0, 0xFFFF0003, 0xC⟩, -- PARI_STATUS
  ⟨0xE1700010, [], 0x0, 0x0, 0x0, 0xFFFFFFFF, 0x0⟩, -- PARI_CAL_LO
  ⟨0xE1700014, [], 0x0, 0x0, 0x0, 0xFF, 0x0⟩, -- PARI_CAL_HI
  ⟨0xE1700100, [(16, 0x4)], 0x0, 0x0, 0x0, 0xFFFFFFFF, 0x0⟩, -- PARI_TBIN
  ⟨0xE1700180, [(8, 0x4)], 0x0, 0x0, 0x0, 0xFFFFFFFF, 0x0⟩, -- PARI_TCYC
  ⟨0xE1700200, [(11, 0x4)], 0x0, 0x0, 0x0, 0xFFFFFFFF, 0x0⟩, -- PARI_RST
  ⟨0xE1700230, [], 0x0, 0x0, 0x0, 0xFFFFFFFF, 0x0⟩, -- PARI_ECC
  ⟨0xE1700240, [(2, 0x4)], 0x0, 0x0, 0x0, 0xFFFFFFFF, 0x0⟩, -- PARI_NOR
  ⟨0xE1700280, [], 0x0, 0x0, 0x0, 0xFFFFFFFF, 0x0⟩, -- PARI_SESS
  ⟨0xE1700284, [], 0x0, 0x0, 0x0, 0xFFFFFFFF, 0x0⟩, -- PARI_EIN_LO
  ⟨0xE1700288, [], 0x0, 0x0, 0x0, 0xFFFFFFFF, 0x0⟩, -- PARI_EIN_HI
  ⟨0xE170028C, [], 0x0, 0x0, 0x0, 0xFFFFFFFF, 0x0⟩, -- PARI_EOUT_LO
  ⟨0xE1700290, [], 0x0, 0x0, 0x0, 0xFFFFFFFF, 0x0⟩, -- PARI_EOUT_HI
  ⟨0xE1701000, [(64, 0x20), (8, 0x4)], 0x0, 0x0, 0x0, 0xFFFFFFFF, 0x0⟩ -- PARI_CH
  ]

def rowsPARI : List RegRow := rowsPARI0

/-- The rows of a register slot of Table 1.5 (`slot` counts from 0xE000_0000 in steps of 1 MiB). -/
def slotRows (slot : Nat) : List RegRow :=
  match slot with
  | 0 => rowsRSTC
  | 1 => rowsCLKC
  | 3 => rowsFERRY
  | 4 => rowsLEDG
  | 5 => rowsSCSM
  | 6 => rowsPCH
  | 2 => rowsSUPC
  | 7 => rowsGDR
  | 8 => rowsFCH
  | 9 => rowsTIDE
  | 10 => rowsCVC
  | 11 => rowsCAN
  | 12 => rowsLIN
  | 13 => rowsETHS
  | 14 => rowsTIME
  | 15 => rowsHARB
  | 16 => rowsCWY
  | 17 => rowsNMS
  | 20 => rowsLSTP
  | 19 => rowsPOT
  | 18 => rowsIOV
  | 21 => rowsLHS
  | 22 => rowsUPD
  | 23 => rowsPARI
  | _ => []

end Sys2Proof.Machine
end

