-- ==== Sys2Proof/Machine/RegFile.lean ====
section
/-! DEFINITION. The register file: every register of the spec, as a list of (key, word) pairs in one
canonical form. Keys rise strictly and no entry equals its register's reset value, so a register that is
not listed reads its reset value. A key is `home * 2^32 + address`: home 0 and 1 are the registers of
lane E and lane W, home 2 the registers of the shared dies (one state behind both ports, R27 to R29),
homes 3 and 4 the shadow sets as lane E and lane W hold them (R17). -/

namespace Sys2Proof.Machine

abbrev RegCell := Nat × Word

/-- Index of the instance an offset from a register's first instance names, if any. -/
def rowHas : List (Nat × Nat) → Nat → Bool
  | [], off => off == 0
  | (c, s) :: ds, off =>
    if s = 0 then false
    else if off / s < c then rowHas ds (off % s) else false

def RegRow.covers (r : RegRow) (a : Nat) : Bool :=
  decide (r.base ≤ a) && rowHas r.dims (a - r.base)

/-- Slot of Table 1.5 of a register address, counted from 0xE000_0000. -/
def slotOf (a : Nat) : Nat := (a - 0xE0000000) / 0x100000

/-- The table row of a register address; none where the spec names no register there. -/
def regRow (a : Nat) : Option RegRow :=
  (slotRows (slotOf a)).find? (fun r => r.covers (a / 4 * 4))

/-- True for the registers of the shared dies (Table 1.5; the mirrors of R262 and the
status registers of SUPC, which a lane reads from its mirror by R289, are lane-local). -/
def sharedReg (a : Nat) : Bool :=
  let o := a % 0x100000
  match slotOf a with
  | 2 => decide (0x100 ≤ o ∧ o < 0x1C0 ∧ o % 0x20 = 0)
  | 6 => decide (o % 0x80000 < 0x4000)
  | 7 => decide (o % 0x80000 < 0x4000)
  | 8 => decide (o % 0x40000 < 0x8000)
  | 10 => decide (0x80000 ≤ o ∧ o < 0x90000)
  | 11 => decide (o < 0x80000)
  | 12 => decide (o < 0x80000)
  | 13 => decide (o < 0x80000)
  | 14 => true
  | 17 => decide (o < 0x80000)
  | _ => false

def homeSpan : Nat := 0x100000000

/-- Key of a register as lane `l` (0 E, 1 W) reaches it. -/
def regKey (l a : Nat) : Nat := (if sharedReg a then 2 else l % 2) * homeSpan + a

/-- Key of the shadow of a register in lane `l`. -/
def shadowKey (l a : Nat) : Nat := (3 + l % 2) * homeSpan + a

/-- Reset value of a key: the table's, but for FERRY_LANE of lane W, whose OWN_LANE reads 1. -/
def resetAt (k : Nat) : Word :=
  if k = homeSpan + 0xE0300010 then 0x100
  else match regRow (k % homeSpan) with
    | some r => BitVec.ofNat 32 r.reset
    | none => 0

def cellsGet : List RegCell → Nat → Option Word
  | [], _ => none
  | (k', v) :: cs, k => if k' = k then some v else cellsGet cs k

def cellsErase : List RegCell → Nat → List RegCell
  | [], _ => []
  | (k', v) :: cs, k => if k' = k then cs else (k', v) :: cellsErase cs k

def cellsInsert : List RegCell → Nat → Word → List RegCell
  | [], k, v => [(k, v)]
  | (k', v') :: cs, k, v =>
    if k < k' then (k, v) :: (k', v') :: cs
    else if k' = k then (k, v) :: cs
    else (k', v') :: cellsInsert cs k v

/-- Value of a register key; an unlisted one reads its reset value. -/
def rfGet (rf : List RegCell) (k : Nat) : Word := (cellsGet rf k).getD (resetAt k)

/-- Write of a register key, keeping the canonical form. -/
def rfPut (rf : List RegCell) (k : Nat) (v : Word) : List RegCell :=
  if v = resetAt k then cellsErase rf k else cellsInsert rf k v

/-- Return every register of a key range `[lo, hi)` to its reset value. -/
def rfReset (rf : List RegCell) (lo hi : Nat) : List RegCell :=
  rf.filter (fun c => !(decide (lo ≤ c.1) && decide (c.1 < hi)))

/-- Keys strictly rising. -/
def cellsSorted : List RegCell → Bool
  | [] => true
  | [_] => true
  | a :: b :: cs => decide (a.1 < b.1) && cellsSorted (b :: cs)

/-- The canonical form of the register file. -/
def rfWf (rf : List RegCell) : Bool :=
  cellsSorted rf && rf.all (fun c => decide (c.2 ≠ resetAt c.1))

end Sys2Proof.Machine
end

