-- ==== Sys2Proof/Machine/State.lean ====
section
/-! DEFINITION. The state of the module as plain data: the register file (every register of the spec), the
memories of both lanes, and, beside them, every piece of state the spec's rules speak of that no register
shows: the ledger and its duplicate ring, pending commits and sealed frames, the acceptance windows of the
shared dies, the arbiter, the sessions, and the run state of every engine. `State.reset` is the module
right after power-on. -/

namespace Sys2Proof.Machine

/-- No command of this model ends in a fault: a bad access completes with the spec's error response (R36),
which is a next state. The type is closed and empty. -/
inductive Fault where
  deriving DecidableEq, Repr

/-- Reasons for which a command has no meaning. -/
inductive Refusal where
  /-- For a row whose meaning is not written; no arm of `exec` raises it now. Safe: nothing can be proved about
  the row's effect. -/
  | notModelled (mnemonic : String)
  deriving DecidableEq, Repr

/-! ### The ledger (spec/06) -/

/-- Entry states of Table 6.2; a FREE slot holds no entry. -/
inductive ESt where
  | accepted
  | executing
  | disposed
  | reported
  deriving DecidableEq, Repr

/-- One ledger entry (Table 6.7), with the request it stands for, its absolute deadline in microseconds of
the deadline clock, and its disposition once reached (Table 6.3) with its time. -/
structure LEntry where
  lsn : Nat
  st : ESt
  stream : Nat
  opcode : Nat
  quota : Nat
  req : Req
  acc : Nat
  deadline : Option Nat
  disp : Nat
  err : Nat
  recovered : Bool
  unclaimed : Bool
  doneAt : Nat
  deriving DecidableEq, Repr

/-- A duplicate record (R184). -/
structure DupRec where
  reqId : Nat
  stream : Nat
  lsn : Nat
  crc : Nat
  status : Nat
  disp : Nat
  acc : Nat
  deriving DecidableEq, Repr

/-- The ledger of the module. Both lanes' copies and both MRAM regions hold it (R175, R178); the model
keeps one. -/
structure Ledger where
  nextLsn : Nat
  entries : List LEntry
  dups : List DupRec
  recovering : Bool
  replayDue : Bool
  rebuiltAt : Nat
  lossAt : Nat
  rtcLost : Bool
  recoveredOut : List Nat
  deriving DecidableEq, Repr

/-! ### Commits (R17 to R21, R44, R45, R625) -/

/-- A pending COMMIT copy: the block slot and region it configures, the lane that wrote it, the copied
shadow words (key offset and value), the commit number, the ledger entries it carries, and whether a sealed
frame carries it. `wholesale` marks a copy of the whole shadow region, as a COMMIT write takes it; a copy
made by a command names only the registers it sets. -/
structure Commit where
  block : Nat
  region : Nat
  lane : Lane
  writes : List RegCell
  num : Nat
  lsns : List Nat
  carried : Bool
  deriving DecidableEq, Repr

/-- Commit number last made and last applied of a block region (R625). -/
structure CommitNum where
  block : Nat
  region : Nat
  made : Nat
  applied : Nat
  deriving DecidableEq, Repr

/-! ### The shared dies' frame acceptance (R145 to R149) -/

/-- An open acceptance window: its cycle and T_CYC_US, the lanes whose copies have come, the copy applied, a standby copy held,
and whether both copies have been compared. -/
structure Window where
  cycle : Nat
  tcycUs : Nat
  gotE : Bool
  gotW : Bool
  applied : Option FrameCopy
  held : Option FrameCopy
  compared : Bool
  deriving DecidableEq, Repr

/-- What one die keeps of frames (R145), whether it is powered and answers, and the configuration the lanes hold
for it and resend in the first frame after its restart (R275). -/
structure DieRt where
  up : Bool
  lastCycle : Option Nat
  lastClosed : Option Nat
  highEpoch : Option Nat
  window : Option Window
  lastHolderLane : Option Lane
  tcycUs : Nat
  restarted : Bool
  clockPort : Option Lane
  src : Nat
  saved : List RegCell
  deriving DecidableEq, Repr

/-! ### Lanes and the ferry (spec/05) -/

/-- The arbiter in the Commons (R154 to R156). -/
structure Arbiter where
  held : Option Lane
  epoch : Nat
  reqE : Bool
  reqW : Bool
  downE : Bool
  downW : Bool
  grantTo : Option Lane
  ackTo : Option Lane
  released : Bool
  leaseUs : Nat
  reqEpochMax : Nat
  restarted : Bool
  renewAt : Nat
  deriving DecidableEq, Repr

/-- Why a planned handover stands at the next cycle boundary. -/
inductive Handover where
  | command
  | control
  | takeback
  | withdraw
  | disqualify
  | quiet
  | update
  deriving DecidableEq, Repr

/-- The ferry's run state: the planned handover that stands with the HANDOVER entries that wait for its grant, the lane
that has released the ferry under it, lanes to be disqualified with the entry of the command, the state image of the running cycle, the
bytes of the snapshot still to copy once it runs, the discrepancies of the last cycles, and QUIET. -/
structure FerryRt where
  handover : Option Handover
  handoverLsns : List (Nat × Lane)
  disq : List (Lane × Option Nat)
  released : Option Lane
  sealed : Bool
  imageSent : Bool
  imageOk : Option Bool
  snapRuns : Bool
  snapBytes : Nat
  homeStandbyCycles : Nat
  serviceCycles : Nat
  discE : List Nat
  discW : List Nat
  slipCycles : Nat
  coldStart : Bool
  quietStay : Option Lane
  quietLsn : Option Nat
  quietLeave : Option Lane
  quietLeaveLsns : List Nat
  quietWake : Bool
  resyncLsns : List (Nat × Lane)
  tcycUs : Nat
  deriving DecidableEq, Repr

/-- Reset levels of Table 4.1. -/
inductive RLevel where
  | core
  | sys
  | por
  deriving DecidableEq, Repr

/-- A signed reset waiting for its moment in a lane (R109). -/
structure PendReset where
  level : RLevel
  cause : Nat
  detail : Nat
  lsn : Nat
  deriving DecidableEq, Repr

/-- One lane's run state that no register shows. -/
structure LaneRt where
  resetting : Option RLevel
  released : List Nat
  elderUp : Bool
  bootOk : Bool
  strapOk : Bool
  powered : Bool
  holdup : Bool
  leaseRenewOut : Bool
  junction : Nat
  thermWarn : Bool
  thermCrit : Bool
  thermOff : Bool
  withdrawing : Bool
  pendResets : List PendReset
  deferred : Option RLevel
  cmnRestartAsked : Bool
  blocksInReset : List Nat
  forced : List Nat
  nonces : List (Nat × Nat × Nat)
  upSince : Nat
  straps : Nat
  safeBall : Bool
  retention : List Nat
  memSelfRefresh : Bool
  coresHeld : Bool
  resetLsns : List Nat
  warned : Bool
  blkWait : List (Nat × Nat)
  blkLsns : List (Nat × Nat)
  deriving DecidableEq, Repr

/-! ### Sessions and mailboxes (spec/07) -/

/-- A message being reassembled (R220). -/
structure Partial where
  msg : Nat
  segs : List (Nat × List Byte)
  total : Option Nat
  deriving DecidableEq, Repr

/-- One remote session (R219 to R222). -/
structure Session where
  lastOpen : Nat
  clientNonce : List Byte
  serverNonce : List Byte
  rxHigh : Nat
  rxSeen : List Nat
  txNext : Nat
  txMsg : Nat
  partials : List Partial
  deriving DecidableEq, Repr

/-- A request that a doorbell or a session brought in and no Elder has answered yet. -/
structure Inbox where
  opcode : Nat
  req : Req
  stream : Nat
  at_ : Nat
  deriving DecidableEq, Repr

/-- The command interface's run state. -/
structure ScsRt where
  inbox : List Inbox
  watermarks : List (Nat × Nat)
  deriving DecidableEq, Repr

/-! ### Outputs and bus -/

/-- What the last bus access answered: an error response (R36), a register's word, the bytes of a wider access, or
nothing yet (a Causeway access that waits for its answer). -/
inductive BusResp where
  | none
  | ok (data : Word)
  | bytes (data : List Byte)
  | waiting
  | error
  deriving DecidableEq, Repr

/-- An interrupt raised and not yet taken: the lane, the function it goes to (none for M mode or the Elder)
and the vector. -/
structure Irq where
  lane : Lane
  fn : Option Nat
  vector : Nat
  deriving DecidableEq, Repr

/-- What the module has sent out: session responses and records, frames, ring and Causeway messages, named
by kind with their numbers and bytes. -/
inductive OutMsg where
  | scsResp (session : Nat) (data : List Byte)
  | scsCpl (session : Nat) (data : List Byte)
  | openAck (session counter : Nat) (nonce : List Byte)
  | sessionClose (session : Nat)
  | heartbeat (lane : Lane)
  | laneLost (lane : Lane) (epoch cycle : Nat)
  | resetMsg (dest : Lane) (level : RLevel) (detail lsn : Nat)
  | frame (lane : Lane) (die : Die) (cycle : Nat) (holder : Bool)
  | canTx (port : Nat) (data : List Byte)
  | linTx (port pid : Nat) (data : List Byte)
  | ethTx (port : Nat) (data : List Byte)
  | cwMsg (lane : Lane) (node type win seq : Nat) (data : List Byte)
  | cwEnd (lane : Lane) (fn : Option Nat) (win seq status : Nat) (data : List Byte)
  | ring (cove type seq hop : Nat)
  | wake (port : Nat)
  | relay (target : Nat) (opcode : Nat) (data : List Byte)
  | request (lane : Lane) (epoch : Nat)
  | grant (lane : Lane) (epoch leaseUs : Nat)
  | renew (lane : Lane) (leaseUs : Nat)
  | ack (lane : Lane)
  | release (lane : Lane)
  deriving DecidableEq, Repr

/-! ### The module (spec/02, 03, 04) -/

/-- A logic die's thermal flags (Table 3.8). -/
structure ThermRt where
  warn : Bool
  crit : Bool
  off : Bool
  deriving DecidableEq, Repr

/-- State of the module as a whole: supplies, pins, modes, freeze, the Commons' cross-check, and the thermal flags of the
Commons, F0, F1 and FI. -/
structure ModuleRt where
  poweredOn : Bool
  configured : Bool
  asleep : Bool
  frozen : Bool
  resetN : Bool
  vkeepE : Bool
  vkeepW : Bool
  feedAon : Bool
  cmnSafe : Bool
  cmnMismatch : Bool
  cmnRestarting : Bool
  inh : List Bool
  straps : Nat
  therms : List ThermRt
  deriving DecidableEq, Repr

/-! ### Frames' urgent slots (R49, R257) -/

/-- An urgent safe-state command on its way to a die: the holder's epoch, the outputs of the die by local
index, the action (1 off, 2 fail action), the highest cycle sealed when it was issued, and its entry. -/
structure Urgent where
  die : Die
  epoch : Nat
  mask : Nat
  act : Nat
  sealCyc : Nat
  lsn : Nat
  deriving DecidableEq, Repr

/-! ### Power channels and gate drivers (spec/08, spec/09) -/

/-- What an output's gate does. `pulse` is a PWM period with its on-time and period in microseconds. -/
inductive Gate where
  | off
  | on
  | pulse (onUs perUs : Nat)
  | precharge
  deriving DecidableEq, Repr

/-- Counts of an output that a lane has not yet read from a status frame (R596). -/
structure Tally where
  turns : Nat
  clamp : Nat
  trips : Nat
  therms : Nat
  wires : Nat
  deriving DecidableEq, Repr

/-- What a power die keeps of one output beyond its registers: its target as a level (R231), a scheduled
switch not yet started (R236), the cycle up to which frames' targets are ignored (R257), the state before
DIP, a restart deferred by a hold phase (R267), a turn-off deferred by load dump (R277), the blank, the clamp
interval with its start junction and its energies of the last 10 s (R247, R248), the run of means above
TRIP, the means of the wire model's interval, the cycle's accumulation, and the wire model's two terms in
kelvin (R243). -/
structure OutRt where
  target : Nat
  gate : Gate
  sched : Option Nat
  urgSeal : Option Nat
  preDip : Nat
  retryDue : Bool
  ldDefer : Bool
  blank : Bool
  clamping : Bool
  clampTj : Int
  clampHist : List (Nat × Nat)
  ovr : Nat
  means : List Int
  sumI : Int
  nI : Nat
  peakI : Nat
  sat : Bool
  th1 : Frac
  th2 : Frac
  fallback : Bool
  tallyE : Tally
  tallyW : Tally
  deriving DecidableEq, Repr

/-- What a power die keeps of one feed: the crank window in force, the moment of the hold crossing, and the
outputs whose restore slots are still to come (R267 to R270). -/
structure FeedRt where
  crankMs : Nat
  holdAt : Nat
  slots : List Nat
  deriving DecidableEq, Repr

/-- A power die: whether it holds a configuration since it powered up (R252, R275), the conduction figures
of the last second in watts, newest first (R91), and the SUPC refusal each lane has still to see (R289). -/
structure PowerRt where
  configured : Bool
  cond : List Frac
  refusedE : Bool
  refusedW : Bool
  deriving DecidableEq, Repr

/-! ### Field channels (spec/10) -/

/-- What a field die keeps of one channel beyond its registers: target, gate and scheduled switch of an output;
the first filter time done, the last pulsed sample and the last conversions of an input; the edges of a capture
or pilot input, in 5 ns units of CD6; the level held at sleep entry; the local sensor, in 0.0625 °C. -/
structure FcRt where
  target : Nat
  gate : Gate
  sched : Option Nat
  urgSeal : Option Nat
  fallback : Bool
  clamping : Bool
  clampTj : Int
  temp : Int
  filtered : Bool
  lastSample : Option Bool
  conv : List Nat
  lastRise : Option Nat
  lastFall : Option Nat
  capLevel : Bool
  deriving DecidableEq, Repr

/-- A field die: its dissipation figures of the last second in watts, newest first (R303), and whether it holds
a configuration since it powered up (R319). -/
structure FieldRt where
  configured : Bool
  diss : List Frac
  deriving DecidableEq, Repr

/-! ### The tide (spec/11) -/

/-- One lane's tide engine beyond its registers: the 48-bit accumulator, the increment in force and the turn
count (R327, R330; the registers hold latched values), wraps not yet answered by TURN_START, the index of the next
cycle boundary of the turn and the turns since the turn configuration took effect (R340), whether the source has
locked (R332) and which way a slew runs (R331), the turns of holdover done, the mains PLL's angle, integral and
frequency, the generator's pair and the angle run in band (R334, R336), and the external reference (R338). -/
structure TideRt where
  acc : Nat
  inc : Nat
  turn : Nat
  turnsDue : Nat
  nextJ : Nat
  turnsIn : Nat
  slewUp : Bool
  theta : Frac
  integ : Frac
  omega : Frac
  sogiA : Frac
  sogiB : Frac
  inBand : Frac
  extLast : Option Nat
  extInt : Option Nat
  extRun : Nat
  extJ : Nat
  deriving DecidableEq, Repr

/-- A TEV_ARM waiting for the next cycle boundary (R355). -/
structure TevArm where
  first : Nat
  count : Nat
  lsn : Nat
  deriving DecidableEq, Repr

/-- A scheduled record that an event table entry puts into the sealed frames (R347): the block, the die region,
and the record's cells. -/
structure EvtRec where
  block : Nat
  region : Nat
  cells : List RegCell
  deriving DecidableEq, Repr

def TideRt.reset : TideRt :=
  { acc := 0, inc := 703687442, turn := 0, turnsDue := 0, nextJ := 0, turnsIn := 0, slewUp := false,
    theta := .zero, integ := .zero, omega := .zero, sogiA := .zero, sogiB := .zero, inBand := .zero,
    extLast := none, extInt := none, extRun := 0, extJ := 0 }

/-! ### Converter control (spec/12) -/

/-- One pair of a lane beyond its registers: the run set in force (R361), whether a PWM_LOAD event names it (R362),
and whether its first period after PER 0 runs (R360). -/
structure PairRt where
  per : Nat
  aon : Nat
  aoff : Nat
  bon : Nat
  boff : Nat
  phs : Nat
  loadDue : Bool
  first : Bool
  deriving DecidableEq, Repr

/-- A sequence of a lane that runs: the first step of its present group, and whether that group converts or waits
for an ADC (R378, R380). -/
structure SeqRt where
  step : Nat
  conv : Bool
  deriving DecidableEq, Repr

/-- One lane's converter control: its pairs, the sequences by number with the order in which groups wait, the chain
in execution as start node and node, the chains queued (R386), the times of each node's last executions
(R385), and whether each node's owner is in the secure world (R387). -/
structure CvcRt where
  pairs : List PairRt
  seqs : List SeqRt
  adcQ : List Nat
  chain : Option (Nat × Nat)
  chainQ : List Nat
  nodeTimes : List (List Nat)
  nodeSec : List Bool
  deriving DecidableEq, Repr

/-- One pair of the output selector beyond its registers: an enable or a trip clear that waits for the stream's next
period boundary, and the freeze hold until the first boundary after it is cleared (R130, R370). -/
structure SelRt where
  enable : Bool
  clear : Bool
  held : Bool
  deriving DecidableEq, Repr

/-- A PWM_ENABLE record on its way to the Commons (R370). -/
structure PwmRec where
  lsn : Nat
  act : Nat
  mask : Nat
  carried : Bool
  deriving DecidableEq, Repr

/-- A PWM_ENABLE that has acted: the pairs whose outcome is still to come (R394). -/
structure PwmWork where
  lsn : Nat
  act : Nat
  mask : Nat
  deriving DecidableEq, Repr

def PairRt.reset : PairRt := ⟨0, 0, 0, 0, 0, 0, false, false⟩

def CvcRt.reset : CvcRt :=
  { pairs := List.replicate 12 .reset, seqs := List.replicate 16 ⟨0, false⟩, adcQ := [], chain := none, chainQ := [],
    nodeTimes := List.replicate 16 [], nodeSec := List.replicate 16 false }

/-! ### Records for the Commons (R148), CAN and LIN (spec/13) -/

/-- A holder-only action that travels to the Commons as a record of the holder's frames: recovery of CAN ports
(R413), LIN wake pulses (R422), TC10 wakes (R457), the setting of a time base (R447), curfew requests, votes of a quota
index, and wakes of coves (R503 to R506). -/
inductive CmnOp where
  | canRecover (mask : Nat)
  | linWake (mask : Nat)
  | tc10Wake (mask : Nat)
  | timeSet (tb ns : Nat)
  | curfew (mask : Nat)
  | keep (mask quota : Nat) (set : Bool)
  | nmsWake (mask : Nat)
  deriving DecidableEq, Repr

structure CmnRec where
  op : CmnOp
  lsn : Option Nat
  carried : Bool
  deriving DecidableEq, Repr

/-- A received frame as a lane holds it: header words of Table 13.3 and data. -/
structure CanMsg where
  hdr : List Word
  data : List Byte
  deriving DecidableEq, Repr

/-- One lane's receive side of a port behind CUR: SHADOW, the FIFO, and the next RXSEQ (R406). -/
structure CanRx where
  shadow : Option CanMsg
  fifo : List CanMsg
  seq : Nat
  deriving DecidableEq, Repr

/-- A frame on its way out: its sequence number (R409), transmit header (Table 13.4) and data, and the ledger entry
with its deadline, or the Harbour PDU, that it stands for. -/
structure CanTx where
  seq : Nat
  hdr : List Byte
  data : List Byte
  lsn : Option Nat
  pdu : Option Nat
  deadline : Option Nat
  deriving DecidableEq, Repr

/-- A CAN port: the next sequence number that the lanes give, frames the lanes hold for it, its transmit queue in
queue order with the number of the frame in arbitration or transmission (R408), the last frame queued with its time
(R143), and a RECOVER whose read-back test runs (R416). -/
structure CanPort where
  nextSeq : Nat
  held : List CanTx
  queue : List CanTx
  cur : Option Nat
  last : Option (Nat × Nat)
  phyTest : Bool
  deriving DecidableEq, Repr

/-- A filter element on its way to the Commons (R401). -/
structure FltRec where
  elem : Nat
  w0 : Word
  w1 : Word
  carried : Bool
  deriving DecidableEq, Repr

/-- A LIN port: the next slot of its schedule (R421) and the end of a wake pulse in progress. -/
structure LinRt where
  slot : Nat
  pulseEnd : Option Nat
  deriving DecidableEq, Repr

def CanRx.reset : CanRx := ⟨none, [], 0⟩
def CanPort.reset : CanPort := ⟨1, [], [], none, none, false⟩
def LinRt.reset : LinRt := ⟨0, none⟩

/-! ### Time bases (spec/14) -/

/-- One time base beyond its registers: its time in 2^−32 ns since the epoch (R446), the servo's integral in ppb
(R449), samples in a row below LOCK_NS (R450), whether it has been stepped since the last capture (R454). -/
structure TbRt where
  t : Nat
  integ : Frac
  run : Nat
  stepped : Bool
  deriving DecidableEq, Repr

/-! ### Ethernet (spec/14) -/

/-- A learned entry of the filtering database (R429). -/
structure FdbEntry where
  mac : Nat
  vid : Nat
  port : Nat
  deriving DecidableEq, Repr

/-- A frame in the bridge: its number, the frame, the pool that holds its cells (0 shared, 1 control reserve, 2 lane E,
3 lane W) with their count, its class, the egress ports still to leave on and those it has left on, whether it is drop
eligible, the sequence number and lane stream it carries, and the ledger entry or the Harbour PDU it stands for with its
deadline. -/
structure EthBuf where
  id : Nat
  frame : EthFrame
  pool : Nat
  cells : Nat
  cls : Nat
  dei : Bool
  ports : Nat
  sent : Nat
  seq : Option Nat
  lstream : Option Nat
  lsn : Option Nat
  pdu : Option Nat
  deadline : Option Nat
  deriving DecidableEq, Repr

/-- A frame that a lane holds for its internal port until it has credit (R432), with its lane stream and sequence
number (R440). -/
structure EthHeld where
  lane : Lane
  frame : EthFrame
  lstream : Nat
  seq : Nat
  lsn : Option Nat
  pdu : Option Nat
  deadline : Option Nat
  deriving DecidableEq, Repr

/-- Vector recovery (R440, R441): the highest number taken, and which of the 32 numbers up to it have been taken, the
highest as bit 0; none before the first frame and after a reset. -/
structure Recovery where
  hi : Option Nat
  seen : Nat
  deriving DecidableEq, Repr

/-- What a flow meter's two buckets lack, in 1/8000 byte, and when they were last filled (R439). -/
structure MeterRt where
  c : Nat
  e : Nat
  at_ : Nat
  deriving DecidableEq, Repr

/-- A secure association (R443, R444): uplink, direction (0 transmit, 1 receive), channel, number, key slot, SCI, next
or lowest packet number, SSCI. -/
structure Sa where
  port : Nat
  dir : Nat
  sc : Nat
  an : Nat
  key : Nat
  sci : Nat
  pn : Nat
  ssci : Nat
  deriving DecidableEq, Repr

/-- The gate list of a port that runs: the entry in force, the entries and times that a committed list waits with
(R435), and the entries of ETH_GCL_SET it carries. -/
structure GclRt where
  ix : Nat
  pend : List RegCell
  lsns : List Nat
  deriving DecidableEq, Repr

/-- The bridge beyond its registers. -/
structure EthRt where
  fdb : List FdbEntry
  bufs : List EthBuf
  nextId : Nat
  held : List EthHeld
  laneSeq : List (Nat × Nat)
  laneRec : List (Nat × Recovery)
  frGen : List (Nat × Nat)
  frRec : List (Nat × Recovery)
  meters : List MeterRt
  ctrl : List (Nat × Nat)
  phyTest : Nat
  sas : List Sa
  saQ : List (Sa × Nat × Bool)
  gcl : List GclRt
  rxE : List (EthFrame × Nat)
  rxW : List (EthFrame × Nat)
  wakeWork : List (Nat × Nat)
  deriving DecidableEq, Repr

def EthRt.reset : EthRt :=
  { fdb := [], bufs := [], nextId := 0, held := [], laneSeq := [], laneRec := [], frGen := [], frRec := [],
    meters := List.replicate 128 ⟨0, 0, 0⟩, ctrl := [(0, 0), (0, 0)], phyTest := 0, sas := [], saQ := [],
    gcl := List.replicate 16 ⟨0, [], []⟩, rxE := [], rxW := [], wakeWork := [] }

/-! ### Harbour and Causeway (spec/15) -/

/-- An item of a lane's Harbour ingress (R463, R470): a received PDU by its kind (Table 15.1), port and identity, or a
timer mark; with the count of the stamp counter. -/
structure HarbIn where
  mark : Bool
  kind : Nat
  port : Nat
  id : Nat
  data : List Byte
  stamp : Nat
  deriving DecidableEq, Repr

/-- A send that a trigger asked for (R472, R473): what it does toward a sleeping cove (R475), the routes whose writes it
carries (R476), and the HARB_PDU_SEND entries it stands for. -/
structure HarbAsk where
  act : Nat
  routes : List Nat
  lsns : List Nat
  deriving DecidableEq, Repr

/-- An image held for a sleeping cove (R476), with its place in the order in which a lane's images were held. -/
structure HarbKept where
  order : Nat
  image : List Byte
  ask : HarbAsk
  deriving DecidableEq, Repr

/-- One PDU of a lane's Harbour beyond its definition: the send pending, and whether it waits for the end of MIN_GAP
(R473); the images held; the time of the last send; the stamp of the last arrival processed (R470); images dropped
(R476). -/
structure PduRt where
  ix : Nat
  ask : Option HarbAsk
  deferred : Bool
  kept : List HarbKept
  sent : Option Nat
  arrived : Option Nat
  dropped : Nat
  deriving DecidableEq, Repr

/-- One route of a lane's Harbour: whether its signal is valid, whether it has timed out, and its SAT and HOLD_DROP
counts (R468 to R470, R476). -/
structure RouteRt where
  ix : Nat
  valid : Bool
  timedOut : Bool
  sat : Nat
  holdDrop : Nat
  deriving DecidableEq, Repr

/-- One lane's Harbour: its ingress, the PDUs and routes with a state of their own, the order of the next held image,
and the 256 KiB of PDU RAM (R465) as the bytes that are not zero. -/
structure HarbRt where
  pdus : List PduRt
  routes : List RouteRt
  order : Nat
  ram : List Host.Cell
  deriving DecidableEq, Repr

def HarbRt.reset : HarbRt := ⟨[], [], 0, []⟩

/-- A Causeway access that is outstanding or waits to be sent (R484, R485): the lane whose Causeway it goes through, the
function it is of (none for the secure world), the entry of a CW_WRITE, its window, sequence number, whether it writes
and is posted, its offset in the window, its length and data, and for a read that fetches a block the block's offset and
length (R489), for a piece of a relayed package its target (R586). -/
structure CwAcc where
  lane : Lane
  origin : Lane
  fn : Option Nat
  lsn : Option Nat
  win : Nat
  seq : Nat
  write : Bool
  posted : Bool
  ofs : Nat
  len : Nat
  data : List Byte
  block : Option (Nat × Nat)
  relay : Option Nat := none
  deriving DecidableEq, Repr

/-- A prefetch block of a window (R489): its offset and bytes, and the offsets never read. -/
structure CwBlk where
  lane : Lane
  win : Nat
  base : Nat
  data : List Byte
  unread : List Nat
  deriving DecidableEq, Repr

/-- What Causeway keeps of a node beyond its register (R494): its ranges of the remote space, as first address, length
and whether they are read-sensitive, and the time of its last message. -/
structure CwNode where
  ix : Nat
  ranges : List (Nat × Nat × Bool)
  lastAt : Nat
  deriving DecidableEq, Repr

/-- Causeway: accesses outstanding, accesses that wait, in order, the next sequence number of each window of each lane,
the blocks, the nodes, the unconsumed records of the error ring (R487), CAPS beyond 256 nodes (R494), and the records
that the last CW_ERRORS consumed. -/
structure CwRt where
  out : List CwAcc
  wait : List CwAcc
  seqs : List (Nat × Nat)
  blks : List CwBlk
  nodes : List CwNode
  fill : Nat
  capsOver : Nat
  read : List Byte
  deriving DecidableEq, Repr

def CwRt.reset : CwRt := ⟨[], [], [], [], [], 0, 0, []⟩

/-! ### Network sleep (spec/16) -/

/-- One cove beyond its registers: the quota indices whose votes it holds (R504), and whether its next ring waits for
RETRY_S (R503). -/
structure CoveRt where
  votes : List Nat
  waiting : Bool
  deriving DecidableEq, Repr

/-- Network sleep: the coves, the entries of NMS_CURFEW and NMS_WAKE with the coves each still waits for (R515), ring
messages ignored (R505), and the free entries of the log are those with no record. -/
structure NmsRt where
  coves : List CoveRt
  curfews : List (Nat × Nat)
  wakes : List (Nat × Nat)
  ignored : Nat
  deriving DecidableEq, Repr

/-! ### Partitions (spec/17) -/

/-- An expert grant of a block (by slot of Table 1.5) to a function, standing or waiting for the block's
accepted commands to end (R13, R14). -/
structure Grant where
  block : Nat
  lane : Lane
  fn : Nat
  lsn : Nat
  standing : Bool
  deriving DecidableEq, Repr

/-- What waits for the next cycle boundary of a function in a lane: 0 quiesce, 1 reset, 2 remove (Table 17.6). -/
structure VfOp where
  kind : Nat
  lane : Lane
  fn : Nat
  lsn : Nat
  deriving DecidableEq, Repr

/-- A descriptor taken or a receive entry used, in ring order, whose completion entry is not yet written (R541): its
ledger entry where it was accepted, whether IRQ is set, TAG, bytes moved and LENGTH, and the entry once formed. -/
structure IovCpl where
  lsn : Option Nat
  irq : Bool
  tag : Nat
  moved : Nat
  len : Nat
  data : Option (List Byte)
  deriving DecidableEq, Repr

/-- A queue pair of a lane (R540): its four ring positions from 0 to 2·DEPTH − 1, INDEX in the lower half with WRAP
clear, the descriptors that the holder took before this lane's doorbell brought them (R218), and the completion entries
to come. -/
structure IovQ where
  lane : Lane
  ix : Nat
  sqHead : Nat
  sqTail : Nat
  cqHead : Nat
  cqTail : Nat
  skip : Nat
  cpl : List IovCpl
  deriving DecidableEq, Repr

/-- A page-owner update that runs or waits in a lane (R535, R536); one of REPL_REGION waits for the cycle boundary. -/
structure PotUpd where
  lane : Lane
  addr : Nat
  pages : Nat
  entry : Nat
  keep : Bool
  replOnly : Bool
  region : Bool
  lsn : Option Nat
  deriving DecidableEq, Repr

/-- A STRAIT_COPY (R548). -/
structure StraitCopy where
  lsn : Nat
  lane : Lane
  addr : Nat
  pages : Nat
  started : Bool
  deriving DecidableEq, Repr

/-! ### Security (spec/18) -/

/-- One sensor event kept for its window (R572): lane index, sensor, and time in microseconds. -/
structure TamperEvt where
  lane : Lane
  sensor : Nat
  at_ : Nat
  deriving DecidableEq, Repr

/-- What a NOR bank of a lane holds beside its bytes: the manifests of its boot set and of its application set
(R580). -/
structure BankRt where
  boot : Option (List Byte)
  app : Option (List Byte)
  deriving DecidableEq, Repr

/-- One lane's Lighthouse beyond its registers: the lifecycle fuses (R555), the bytes of its key slots, the hashes of the
programmed root key pairs (R557), the measurements as TYPE, bank and hash (R563), the next record of the policy log, the
nonces issued as stream, value and time (R561), the scope a debug token opened (R575), the targets whose clock is gated
and those powered off (R570), the active bank and the two banks. -/
structure SecRt where
  fuse : Nat
  keys : List (Nat × List Byte)
  hashes : List (Nat × List Byte)
  meas : List (Nat × Nat × List Byte)
  pol : Nat
  nonces : List (Nat × List Byte × Nat)
  scope : Nat
  gated : List Nat
  off : List Nat
  bank : Nat
  bankA : BankRt
  bankB : BankRt
  deriving DecidableEq, Repr

/-- A key store operation that runs or waits (R560): an erase of `count` slots, or a write. -/
structure KeyOp where
  lsn : Nat
  erase : Bool
  slot : Nat
  count : Nat
  info : Nat
  key : List Byte
  deriving DecidableEq, Repr

/-- A power-management request that waits for the cycle boundary (R570). -/
structure PmReq where
  lane : Lane
  world : World
  part : Nat
  target : Nat
  action : Nat
  lsn : Option Nat
  deriving DecidableEq, Repr

/-- A change of owner that waits for the cycle boundary; a release waits for its zeroing (R571). -/
structure OwnOp where
  lane : Lane
  target : Nat
  claim : Bool
  zeroed : Bool
  lsn : Nat
  deriving DecidableEq, Repr

/-- A burn of fuses in both lanes (R577): the lifecycle state, a root key pair with its hashes, a revocation, or a
security-version counter with its value. -/
inductive Burn where
  | lifecycle (dest : Nat)
  | pair (j : Nat) (hashes : List Byte)
  | revoke (j : Nat)
  | svn (k v : Nat)
  deriving DecidableEq, Repr

structure FuseOp where
  lsn : Nat
  burn : Burn
  deriving DecidableEq, Repr

def SecRt.reset : SecRt :=
  { fuse := 1, keys := [], hashes := [], meas := [], pol := 0, nonces := [], scope := 0, gated := [], off := [], bank := 0,
    bankA := ⟨none, none⟩, bankB := ⟨none, none⟩ }

/-! ### Firmware update (spec/19) -/

/-- The image under construction from the payload (R579): the section's number among the image entries, where it stands (0
header, 1 full data, 2 delta operations, 3 data of an INSERT), section bytes and INSERT bytes still to come, bytes of the
image built, and payload bytes not yet taken. -/
structure Build where
  sec : Nat
  phase : Nat
  rem : Nat
  ins : Nat
  out : Nat
  left : List Byte
  deriving DecidableEq, Repr

/-- A relay target (R585 to R587): KIND, CLIENT, KEY_SLOT, PORT, WIN and ADDR, and, of a Causeway node, the bytes that do not yet
fill a piece of 256, and the pieces sent and answered. -/
structure Relay where
  kind : Nat
  client : Nat
  slot : Nat
  port : Nat
  win : Nat
  addr : List Byte
  queue : List Byte
  sent : Nat
  acked : Nat
  deriving DecidableEq, Repr

/-- A lane's state image that a restart keeps in LPDDR5X (R589): its registers and its engines. -/
structure SavedImage where
  lane : Lane
  regs : List RegCell
  tide : TideRt
  cvc : CvcRt
  harb : HarbRt
  deriving DecidableEq, Repr

/-- The update (Table 19.3): its state, the manifest, the index so far, the next piece or chunk and whether the index is
checked, the number of chunks, the image under construction, the lanes that stage; the entries of UPD_BEGIN, of the last
chunk, of UPD_ACTIVATE and of UPD_REVERT; the lanes that restart, the standby's full cycles since (R588); whether the
trial has been clean, its end and the bank every lane is to run (as its place in `stage`); a drain in progress with its
end; the state image of a SINGLE restart; the relays, and the
UPD_RELAY_SETs that wait for the cycle boundary as entry, target and relay. -/
structure UpdRt where
  st : Nat
  man : List Byte
  idx : List Byte
  next : Nat
  idxOk : Bool
  total : Nat
  build : Build
  stage : List (Lane × Nat)
  beginLsn : Option Nat
  lastLsn : Option Nat
  actLsn : Option Nat
  revLsn : Option Nat
  restarting : List Lane
  cycles : Nat
  clean : Bool
  trialEnd : Nat
  drain : Option Nat
  image : Option SavedImage
  relays : List Relay
  sets : List (Nat × Nat × Relay)
  deriving DecidableEq, Repr

def Build.start : Build := ⟨0, 0, 0, 0, 0, []⟩

def UpdRt.reset : UpdRt :=
  { st := 0, man := [], idx := [], next := 0, idxOk := false, total := 0, build := .start, stage := [], beginLsn := none,
    lastLsn := none, actLsn := none, revLsn := none, restarting := [], cycles := 0, clean := true, trialEnd := 0,
    drain := none, image := none, relays := List.replicate 8 ⟨0, 0, 0, 0, 0, [], [], 0, 0⟩, sets := [] }

/-! ### The parish register (spec/20) -/

/-- One lane's parish engine beyond its registers: the records in its MRAM slots, newest first (R598), the reversals on the
stack with their top first, the last extreme and whether readings rise from it (R600, in 1/16 °C), the seconds since the
last flush, and whether a session is open. -/
structure ParRt where
  slots : List (List RegCell)
  stack : List Int
  turn : Option (Int × Int)
  rising : Bool
  secs : Nat
  open_ : Bool
  deriving DecidableEq, Repr

def ParRt.reset : ParRt := ⟨[], [], none, false, 0, false⟩


/-- The machine's state. `pending` is the queue of commands waiting, first in first out. `freeCtr` is the
model's own: the step reads and advances it, and the free values of Config are applied to it. -/
structure State where
  pending : List Instr
  now : Nat
  freeCtr : Nat
  regs : List RegCell
  mem : List Host.Cell
  bus : BusResp
  irqs : List Irq
  outbox : List OutMsg
  led : Ledger
  commits : List Commit
  nums : List CommitNum
  p0 : DieRt
  p1 : DieRt
  f0 : DieRt
  f1 : DieRt
  fi : DieRt
  cmn : DieRt
  arb : Arbiter
  ferry : FerryRt
  laneE : LaneRt
  laneW : LaneRt
  sessions : List Session
  scs : ScsRt
  mod_ : ModuleRt
  urgents : List Urgent
  outs : List OutRt
  feeds : List FeedRt
  pw0 : PowerRt
  pw1 : PowerRt
  fcs : List FcRt
  fd0 : FieldRt
  fd1 : FieldRt
  fd2 : FieldRt
  stamps : List (Nat × Nat)
  tideE : TideRt
  tideW : TideRt
  tevArms : List TevArm
  evtRecs : List EvtRec
  cvcE : CvcRt
  cvcW : CvcRt
  sels : List SelRt
  pwmRecs : List PwmRec
  pwmWork : List PwmWork
  cmnRecs : List CmnRec
  canRxE : List CanRx
  canRxW : List CanRx
  canPorts : List CanPort
  fltQ : List FltRec
  canWork : List (Nat × Nat)
  canHeld : List (Nat × CanMsg × Bool × Bool)
  lins : List LinRt
  linWork : List (Nat × Nat)
  tbs : List TbRt
  eth : EthRt
  harbInE : List HarbIn
  harbInW : List HarbIn
  harbHeld : List HarbIn
  pduFails : List (Nat × Nat)
  harbE : HarbRt
  harbW : HarbRt
  cw : CwRt
  nms : NmsRt
  grants : List Grant
  vfOps : List VfOp
  quiesces : List VfOp
  iovQs : List IovQ
  potUpds : List PotUpd
  copies : List StraitCopy
  lstepTests : List (Nat × Lane)
  tamperLog : List TamperEvt
  secE : SecRt
  secW : SecRt
  keyOps : List KeyOp
  pmReqs : List PmReq
  ownOps : List OwnOp
  fuseOps : List FuseOp
  upd : UpdRt
  calUs : Nat
  parE : ParRt
  parW : ParRt
  deriving DecidableEq, Repr
def Tally.zero : Tally := ⟨0, 0, 0, 0, 0⟩

def OutRt.reset : OutRt :=
  { target := 0, gate := .off, sched := none, urgSeal := none, preDip := 0, retryDue := false,
    ldDefer := false, blank := false, clamping := false, clampTj := 0, clampHist := [], ovr := 0, means := [],
    sumI := 0, nI := 0, peakI := 0, sat := false, th1 := .zero, th2 := ⟨20, 1⟩, fallback := false,
    tallyE := .zero, tallyW := .zero }

def PowerRt.reset : PowerRt := { configured := false, cond := [], refusedE := false, refusedW := false }

def FcRt.reset : FcRt :=
  { target := 0, gate := .off, sched := none, urgSeal := none, fallback := false, clamping := false, clampTj := 0,
    temp := 0, filtered := false, lastSample := none, conv := [], lastRise := none, lastFall := none,
    capLevel := false }

def FieldRt.reset : FieldRt := { configured := false, diss := [] }

/-! ### Reset -/

def DieRt.reset : DieRt :=
  { up := false, lastCycle := none, lastClosed := none, highEpoch := none, window := none,
    lastHolderLane := none, tcycUs := 1000, restarted := false, clockPort := none, src := 0, saved := [] }

def LaneRt.reset : LaneRt :=
  { resetting := some .por, released := [], elderUp := false, bootOk := false, strapOk := true,
    powered := false, holdup := false, leaseRenewOut := false, junction := 0, thermWarn := false,
    thermCrit := false, thermOff := false, withdrawing := false, pendResets := [], deferred := none,
    cmnRestartAsked := false, blocksInReset := [], forced := [], nonces := [], upSince := 0, straps := 7,
    safeBall := false, retention := [], memSelfRefresh := false,
    coresHeld := true, resetLsns := [], warned := false, blkWait := [], blkLsns := [] }

def Session.reset : Session :=
  { lastOpen := 0, clientNonce := [], serverNonce := [], rxHigh := 0, rxSeen := [], txNext := 1, txMsg := 0,
    partials := [] }

/-- The module right after power-on: both lanes in RESET, every register at its reset value (the register
list lists nothing), no memory byte listed, no command waiting. Values the spec does not give are named in
the assumption log. -/
def State.reset : State :=
  { pending := [], now := 0, freeCtr := 0, regs := [], mem := [], bus := .none, irqs := [], outbox := [],
    led := { nextLsn := 1, entries := [], dups := [], recovering := false, replayDue := false,
             rebuiltAt := 0, lossAt := 0, rtcLost := false, recoveredOut := [] },
    commits := [], nums := [],
    p0 := .reset, p1 := .reset, f0 := .reset, f1 := .reset, fi := .reset, cmn := .reset,
    arb := { held := none, epoch := 0, reqE := false, reqW := false, downE := true, downW := true,
             grantTo := none, ackTo := none, released := false, leaseUs := 2000, reqEpochMax := 0,
             restarted := false, renewAt := 0 },
    ferry := { handover := none, handoverLsns := [], disq := [], released := none, sealed := false, imageSent := false,
               imageOk := none, snapRuns := false, snapBytes := 0, homeStandbyCycles := 0, serviceCycles := 0,
               discE := [], discW := [], slipCycles := 0, coldStart := false,
               quietStay := none, quietLsn := none, quietLeave := none, quietLeaveLsns := [], quietWake := false,
               resyncLsns := [], tcycUs := 1000 },
    laneE := .reset, laneW := .reset, sessions := List.replicate 32 .reset,
    scs := { inbox := [], watermarks := [] },
    mod_ := { poweredOn := false, configured := false, asleep := false, frozen := false, resetN := false,
              vkeepE := false, vkeepW := false, feedAon := false, cmnSafe := false, cmnMismatch := false,
              cmnRestarting := false, inh := [false, false, false, false], straps := 7,
              therms := List.replicate 4 ⟨false, false, false⟩ },
    urgents := [],
    outs := List.replicate 64 .reset,
    feeds := List.replicate 6 ⟨200, 0, []⟩,
    pw0 := .reset, pw1 := .reset,
    fcs := List.replicate 256 .reset,
    fd0 := .reset, fd1 := .reset, fd2 := .reset, stamps := [],
    tideE := .reset, tideW := .reset, tevArms := [], evtRecs := [],
    cvcE := .reset, cvcW := .reset, sels := List.replicate 12 ⟨false, false, false⟩, pwmRecs := [], pwmWork := [],
    cmnRecs := [], canRxE := List.replicate 16 .reset, canRxW := List.replicate 16 .reset,
    canPorts := List.replicate 16 .reset, fltQ := [], canWork := [], canHeld := [], lins := List.replicate 8 .reset,
    linWork := [],
    tbs := List.replicate 4 ⟨0, .zero, 0, false⟩, eth := .reset,
    harbInE := [], harbInW := [], harbHeld := [], pduFails := [], harbE := .reset, harbW := .reset, cw := .reset,
    nms := { coves := List.replicate 8 ⟨[], false⟩, curfews := [], wakes := [], ignored := 0 },
    grants := [], vfOps := [], quiesces := [], iovQs := [], potUpds := [], copies := [], lstepTests := [],
    tamperLog := [], secE := .reset, secW := .reset, keyOps := [], pmReqs := [], ownOps := [], fuseOps := [],
    upd := .reset,
    calUs := 0, parE := .reset, parW := .reset }

end Sys2Proof.Machine
end

