-- ==== Sys2Proof/Machine/Ops.lean ====
section
/-! DEFINITION. The named operations over the state: registers and their shadows, memory, outputs, lane
states, free values, ledger entries, and pending commits. Every meaning is written over these. -/

namespace Sys2Proof.Machine

/-! ### Registers -/

/-- Active value of a register as lane `l` reaches it (R27 to R29). -/
def State.reg (s : State) (l : Lane) (a : Nat) : Word := rfGet s.regs (regKey l.ix a)

def State.setReg (s : State) (l : Lane) (a : Nat) (v : Word) : State :=
  { s with regs := rfPut s.regs (regKey l.ix a) v }

/-- A field of a register's active value. -/
def State.fld (s : State) (l : Lane) (a : Nat) (f : Fld) : Nat := getF (s.reg l a) f

def State.setFld (s : State) (l : Lane) (a : Nat) (f : Fld) (v : Nat) : State :=
  s.setReg l a (setF (s.reg l a) f v)

/-- A one-bit field as a truth value. -/
def State.bit (s : State) (l : Lane) (a : Nat) (f : Fld) : Bool := s.fld l a f == 1

def State.setBitF (s : State) (l : Lane) (a : Nat) (f : Fld) (b : Bool) : State :=
  s.setFld l a f (b2n b)

/-- The same write in both lanes' registers. -/
def State.setRegBoth (s : State) (a : Nat) (v : Word) : State := (s.setReg .E a v).setReg .W a v

def State.setFldBoth (s : State) (a : Nat) (f : Fld) (v : Nat) : State :=
  (s.setFld .E a f v).setFld .W a f v

def State.setBitBoth (s : State) (a : Nat) (f : Fld) (b : Bool) : State := s.setFldBoth a f (b2n b)

/-- Write of a register of a shared die, the same through either port (R29). -/
def State.setSh (s : State) (a : Nat) (v : Word) : State := s.setReg .E a v

def State.shReg (s : State) (a : Nat) : Word := s.reg .E a

def State.shFld (s : State) (a : Nat) (f : Fld) : Nat := s.fld .E a f

def State.setShFld (s : State) (a : Nat) (f : Fld) (v : Nat) : State := s.setFld .E a f v

def State.shBit (s : State) (a : Nat) (f : Fld) : Bool := s.bit .E a f

def State.setShBit (s : State) (a : Nat) (f : Fld) (b : Bool) : State := s.setBitF .E a f b

/-- Shadow value of a register in lane `l` (R17). -/
def State.shadow (s : State) (l : Lane) (a : Nat) : Word := rfGet s.regs (shadowKey l.ix a)

def State.setShadow (s : State) (l : Lane) (a : Nat) (v : Word) : State :=
  { s with regs := rfPut s.regs (shadowKey l.ix a) v }

/-- Increment of a saturating 32-bit counter register. -/
def State.count (s : State) (l : Lane) (a : Nat) : State :=
  s.setReg l a (BitVec.ofNat 32 (satInc 32 (s.reg l a).toNat))

def State.countBoth (s : State) (a : Nat) : State := (s.count .E a).count .W a

def State.countSh (s : State) (a : Nat) : State := s.count .E a

/-- Increment of a saturating counter field. -/
def State.countFld (s : State) (l : Lane) (a : Nat) (f : Fld) : State :=
  s.setFld l a f (satInc (fldWidth f) (s.fld l a f))

def State.countShFld (s : State) (a : Nat) (f : Fld) : State := s.countFld .E a f

/-- Consecutive registers written from a list of words. -/
def State.setRegs (s : State) (l : Lane) (a : Nat) : List Word → State
  | [] => s
  | w :: ws => (s.setReg l a w).setRegs l (a + 4) ws

/-- `n` consecutive registers as bytes. -/
def State.regBytes (s : State) (l : Lane) (a : Nat) : Nat → List Byte
  | 0 => []
  | n + 1 => wordBytes (s.reg l a) ++ s.regBytes l (a + 4) n

/-- A fold over a list of numbers. -/
def State.forEach (s : State) : List Nat → (State → Nat → State) → State
  | [], _ => s
  | n :: ns, f => (f s n).forEach ns f

/-! ### Memory (Table 1.4): one list for both lanes, keyed by lane and 40-bit address -/

def memSpan : Nat := 0x10000000000

def memKey (l : Lane) (a : Nat) : Nat := l.ix * memSpan + a % memSpan

/-- A byte no write has reached reads 0: SRAM is zeroed at SYS and POR (Table 4.1); for the other memories
this is a DESIGN CHOICE of the assumption log. -/
def memDefault : Byte := 0

def memGet : List Host.Cell → Nat → Byte
  | [], _ => memDefault
  | (k', v) :: cs, k => if k' = k then v else memGet cs k

def memErase : List Host.Cell → Nat → List Host.Cell
  | [], _ => []
  | (k', v) :: cs, k => if k' = k then cs else (k', v) :: memErase cs k

def memInsert : List Host.Cell → Nat → Byte → List Host.Cell
  | [], k, v => [(k, v)]
  | (k', v') :: cs, k, v =>
    if k < k' then (k, v) :: (k', v') :: cs
    else if k' = k then (k, v) :: cs
    else (k', v') :: memInsert cs k v

def memPut (m : List Host.Cell) (k : Nat) (v : Byte) : List Host.Cell :=
  if v = memDefault then memErase m k else memInsert m k v

/-- Keys strictly rising. -/
def memSorted : List Host.Cell → Bool
  | [] => true
  | [_] => true
  | a :: b :: cs => decide (a.1 < b.1) && memSorted (b :: cs)

/-- The canonical form of memory. -/
def Memory.wf (m : List Host.Cell) : Bool := memSorted m && m.all (fun c => decide (c.2 ≠ memDefault))

def State.byte (s : State) (l : Lane) (a : Nat) : Byte := memGet s.mem (memKey l a)

def State.setByte (s : State) (l : Lane) (a : Nat) (v : Byte) : State :=
  { s with mem := memPut s.mem (memKey l a) v }

def State.bytes (s : State) (l : Lane) (a : Nat) : Nat → List Byte
  | 0 => []
  | n + 1 => s.byte l a :: s.bytes l (a + 1) n

def State.setBytes (s : State) (l : Lane) (a : Nat) : List Byte → State
  | [] => s
  | b :: bs => (s.setByte l a b).setBytes l (a + 1) bs

/-- Every byte of an address range of a lane returned to the default. -/
def State.clearMem (s : State) (l : Lane) (lo hi : Nat) : State :=
  { s with
    mem := s.mem.filter
      (fun c => !(decide (memKey l lo ≤ c.1) && decide (c.1 < memKey l lo + (hi - lo)))) }

/-! ### Who may write a block's registers (R13, R549, R550) -/

/-- The Elder and the secure world reach every block of their lane; a function reaches a block whose expert grant
it holds. -/
def State.mayWrite (s : State) (l : Lane) (slot : Nat) : Initiator → Bool
  | .elder => true
  | .secure => true
  | .func f => s.grants.any (fun g => g.standing && g.block == slot && g.fn == f && g.lane == l)

/-! ### Outputs, interrupts, free values -/

def State.emit (s : State) (m : OutMsg) : State := { s with outbox := s.outbox ++ [m] }

/-- Raise an interrupt; one already raised and not taken stays one. -/
def State.irq (s : State) (l : Lane) (fn : Option Nat) (v : Nat) : State :=
  if s.irqs.contains ⟨l, fn, v⟩ then s else { s with irqs := s.irqs ++ [⟨l, fn, v⟩] }

/-- Interrupt of M mode or the Elder of a lane. -/
def State.alarm (s : State) (l : Lane) (v : Nat) : State := s.irq l none v

/-- Advance the counter of free values. -/
def State.tickFree (s : State) : State := { s with freeCtr := s.freeCtr + 1 }

/-- The free word of the present counter. -/
def State.freeWord (s : State) : Word := Config.freeWord s.freeCtr

def State.freeNat (s : State) : Nat := Config.freeNat s.freeCtr

/-- `n` free bytes of the present counter. -/
def State.freeBytes (s : State) (n : Nat) : List Byte := (List.range n).map (Config.freeByte s.freeCtr)

def State.busOk (s : State) (w : Word) : State := { s with bus := .ok w }

def State.busErr (s : State) : State := { s with bus := .error }

/-! ### Parts of the state by lane or die -/

def State.lane (s : State) : Lane → LaneRt
  | .E => s.laneE
  | .W => s.laneW

def State.setLane (s : State) (l : Lane) (x : LaneRt) : State :=
  match l with
  | .E => { s with laneE := x }
  | .W => { s with laneW := x }

def State.die (s : State) : Die → DieRt
  | .P0 => s.p0
  | .P1 => s.p1
  | .F0 => s.f0
  | .F1 => s.f1
  | .FI => s.fi
  | .CMN => s.cmn

def State.setDie (s : State) (d : Die) (x : DieRt) : State :=
  match d with
  | .P0 => { s with p0 := x }
  | .P1 => { s with p1 := x }
  | .F0 => { s with f0 := x }
  | .F1 => { s with f1 := x }
  | .FI => { s with fi := x }
  | .CMN => { s with cmn := x }

/-- Time of a time base in nanoseconds since its epoch. -/
def State.tbNs (s : State) (n : Nat) : Nat :=
  match s.tbs[n]? with
  | some x => x.t / 2 ^ 32
  | none => 0

/-! ### Lane states (Table 5.1) -/

def stRESET : Nat := 0
def stBOOT : Nat := 1
def stUNSYNC : Nat := 2
def stSYNCING : Nat := 3
def stSTANDBY : Nat := 4
def stACTIVE : Nat := 5
def stWITHDRAWN : Nat := 6
def stDISQUALIFIED : Nat := 7

/-- A lane's state, as FERRY_LANE.OWN_STATE reports it (R132). -/
def State.lst (s : State) (l : Lane) : Nat := s.fld l R.FERRY_LANE F.FERRY_LANE_OWN_STATE

/-- The ACTIVE lane. -/
def State.holder (s : State) : Option Lane :=
  if s.lst .E = stACTIVE then some .E else if s.lst .W = stACTIVE then some .W else none

/-- The lane whose Elder handles module work: the ACTIVE one, else the given one. -/
def State.holderOr (s : State) (l : Lane) : Lane := (s.holder).getD l

/-- Module mode (R134): 0 NONE, 1 DUAL, 2 SINGLE. -/
def modeOf (e w : Nat) : Nat :=
  if e = stACTIVE then (if w = stSTANDBY then 1 else 2)
  else if w = stACTIVE then (if e = stSTANDBY then 1 else 2)
  else 0

def State.mode (s : State) : Nat := modeOf (s.lst .E) (s.lst .W)

/-- SAFE ball of a lane: high only while the module is configured and the lane is ACTIVE or STANDBY
(R70, Table 5.1). -/
def State.syncSafe (s : State) (l : Lane) : State :=
  s.setLane l { s.lane l with
    safeBall := s.mod_.configured && (s.lst l == stACTIVE || s.lst l == stSTANDBY) }

/-- Report the mode in both lanes (R134); entering SINGLE sets SINGLE_ENTERED (R169). -/
def State.syncMode (s : State) (old : Nat) : State :=
  let m := s.mode
  let s := s.setFldBoth R.FERRY_LANE F.FERRY_LANE_MODE m
  let s := if m = 2 ∧ old ≠ 2 then s.setBitBoth R.FERRY_STATUS F.FERRY_STATUS_SINGLE_ENTERED true else s
  (s.syncSafe .E).syncSafe .W

/-- A lane changes its state; mode, SAFE balls and the lease's reports follow. A lane that leaves ACTIVE
holds no valid lease. -/
def State.setLst (s : State) (l : Lane) (v : Nat) : State :=
  let old := s.mode
  let s := s.setFld l R.FERRY_LANE F.FERRY_LANE_OWN_STATE v
  let s := if v = stACTIVE then s else s.setBitF l R.FERRY_LANE F.FERRY_LANE_LEASE_VALID false
  s.syncMode old

def State.lifecycle (s : State) (l : Lane) : Nat := s.fld l R.LHS_STATUS F.LHS_STATUS_LIFECYCLE

/-- Lifecycle BENCH (Table 18.1). -/
def State.bench (s : State) (l : Lane) : Bool := s.lifecycle l == 2

/-- LEASE_VALID of a lane (R153). -/
def State.leaseValid (s : State) (l : Lane) : Bool := s.bit l R.FERRY_LANE F.FERRY_LANE_LEASE_VALID

/-- The lane's Elder serves requests (SCSM_STATUS.SERVING). -/
def State.serving (s : State) (l : Lane) : Bool := s.bit l R.SCSM_STATUS F.SCSM_STATUS_SERVING

/-- The lane's Elder begins or ends to serve; a lane that does not forwards its mailboxes' requests to one that does
(R225). -/
def State.setServing (s : State) (l : Lane) (b : Bool) : State :=
  let s := s.setBitF l R.SCSM_STATUS F.SCSM_STATUS_SERVING b
  let s := s.setBitF .E R.SCSM_STATUS F.SCSM_STATUS_FORWARDING (!s.serving .E && s.serving .W)
  s.setBitF .W R.SCSM_STATUS F.SCSM_STATUS_FORWARDING (!s.serving .W && s.serving .E)

/-- A condition of R117 holds: CLK_FAIL on a domain, XTAL_FAIL, or a suspect mark (R118). -/
def State.clockBad (s : State) (l : Lane) : Bool :=
  s.bit l R.RSTC_STATUS F.RSTC_STATUS_CLK_FAIL_ANY || s.bit l R.RSTC_STATUS F.RSTC_STATUS_XTAL_FAIL ||
    s.bit l R.RSTC_STATUS F.RSTC_STATUS_SUSPECT_ANY

/-- LSTEP_BROKEN of a lane outside BENCH (R133). -/
def State.lstepBad (s : State) (l : Lane) : Bool :=
  s.bit l R.LSTP_STATUS F.LSTP_STATUS_LSTEP_BROKEN && !s.bench l

/-- The lane may take the ferry (R117, Table 5.2). -/
def State.qualified (s : State) (l : Lane) : Bool := !s.clockBad l && !s.lstepBad l

/-- QUIET is in force: the other lane is held (R170). -/
def State.quietOn (s : State) : Bool := s.ferry.quietStay.isSome && s.ferry.quietLsn.isNone

/-! ### Streams, quotas and worlds (R181, Table 6.4, Table 6.8) -/

/-- Functions whose memory is replicated run in both lanes (R194, R217). -/
def State.replicated (s : State) (f : Nat) : Bool := s.bit .E (R.IOV_FN_CFG f) F.IOV_FN_CFG_REPL

/-- Function of a queue pair. -/
def State.queueFn (s : State) (l : Lane) (q : Nat) : Nat := s.fld l (R.IOV_Q_CFG q) F.IOV_Q_CFG_FUNC

/-- STREAM code of a request's ordering stream (Table 6.8). -/
def State.streamOf (s : State) (l : Lane) : Src → Nat
  | .func f => (if s.replicated f then 0 else l.ix) * 0x2000 + f
  | .smb0 => 0x8000
  | .startup _ => 0x8000
  | .session n => 0xC000 + n
  | .queue q => 0x4000 + (if s.replicated (s.queueFn l q) then 0 else l.ix) * 0x2000 + q

/-- Quota index of Table 6.4; a replicated function counts in lane E (R194). -/
def State.quotaOf (s : State) (l : Lane) : Src → Nat
  | .func f => if s.replicated f then f else l.ix * 64 + f
  | .smb0 => 128
  | .startup _ => 128
  | .session n => 129 + n
  | .queue q => if s.replicated (s.queueFn l q) then s.queueFn l q else l.ix * 64 + s.queueFn l q

/-! ### Ledger operations (spec/06) -/

/-- The block a command targets (R211, Table 7.6), by its slot of Table 1.5. -/
def blockOf (opcode : Nat) : Nat :=
  let lo := opcode % 256
  match opcode / 256 with
  | 0x0 => 5
  | 0x1 => 6
  | 0x2 => if 5 ≤ lo then 2 else 7
  | 0x3 => 8
  | 0x4 => 9
  | 0x5 => 10
  | 0x6 => if 8 ≤ lo then 12 else 11
  | 0x7 => if 8 ≤ lo then 14 else 13
  | 0x8 => if 0x10 ≤ lo then 16 else 15
  | 0x9 => 17
  | 0xA => if lo = 0xA then 19 else if 0xB ≤ lo ∧ lo ≤ 0xD then 20 else 18
  | 0xB => 21
  | 0xC => 22
  | 0xD => if lo = 2 then 1 else 0
  | 0xE => 23
  | _ => if 0x10 ≤ lo then 4 else 3

def dDONE : Nat := 1
def dFAILED : Nat := 2
def dEXPIRED : Nat := 3
def dUNDELIVERABLE : Nat := 4

/-- Block-specific error: a commit refused at its application. -/
def eCFG_REJECTED : Nat := 0x0101
def eINTERRUPTED : Nat := 1
def eHOLDER_LOST : Nat := 2
def eBLOCK_RESET : Nat := 3
def ePORT_PHY : Nat := 0x10
def eDIE_UNREACHABLE : Nat := 0x11
def eLANE_ABSENT : Nat := 0x12
def eQUEUED_AT_RESET : Nat := 0x13

def State.entry (s : State) (lsn : Nat) : Option LEntry := s.led.entries.find? (fun e => e.lsn == lsn)

def State.setLed (s : State) (x : Ledger) : State := { s with led := x }

def State.mapEntry (s : State) (lsn : Nat) (f : LEntry → LEntry) : State :=
  s.setLed { s.led with entries := s.led.entries.map (fun e => if e.lsn = lsn then f e else e) }

/-- Entries that count against a bound: ACCEPTED to DISPOSED (R191). -/
def LEntry.inFlight (e : LEntry) : Bool := e.st != .reported

def State.inFlight (s : State) : Nat := (s.led.entries.filter LEntry.inFlight).length

def State.quotaUsed (s : State) (q : Nat) : Nat :=
  (s.led.entries.filter (fun e => e.inFlight && e.quota == q)).length

/-- Duplicate records that have not expired (R184). -/
def State.dupLife (s : State) : Nat := (s.fld .E R.LEDG_CFG F.LEDG_CFG_DEDUP_S_M1 + 1) * 1000000

def State.liveDups (s : State) : List DupRec :=
  s.led.dups.filter (fun d => decide (s.now < d.acc + s.dupLife))

/-- The LEDG status registers of a lane follow the ledger. -/
def State.syncLedgLane (s : State) (l : Lane) : State :=
  let s := s.setFld l R.LEDG_STATUS F.LEDG_STATUS_IN_FLIGHT s.inFlight
  let s := s.setFld l R.LEDG_FREE F.LEDG_FREE_FREE (32768 - s.led.entries.length)
  let s := s.setFld l R.LEDG_DEDUP F.LEDG_DEDUP_FILL s.liveDups.length
  let s := s.setReg l R.LEDG_LSN_LO (BitVec.ofNat 32 s.led.nextLsn)
  let s := s.setFld l R.LEDG_LSN_HI F.LEDG_LSN_HI_NEXT_LSN_HI (s.led.nextLsn / 2 ^ 32)
  let s := s.setBitF l R.LEDG_STATUS F.LEDG_STATUS_MIRRORED (s.mode == 1)
  let s := s.setBitF l R.LEDG_STATUS F.LEDG_STATUS_PERSIST_WAIT (s.mode == 2)
  s.setBitF l R.LEDG_STATUS F.LEDG_STATUS_RECOVERING s.led.recovering

def State.syncLedg (s : State) : State := (s.syncLedgLane .E).syncLedgLane .W

/-- The quota register of one index (eight bits) follows the entries held. -/
def State.syncQuota (s : State) (q : Nat) : State :=
  s.setFldBoth (R.LEDG_QUSED (q % 256)) F.LEDG_QUSED_USED (s.quotaUsed q)

/-- An entry's work begins (Table 6.2, ACCEPTED to EXECUTING). -/
def State.begin (s : State) (lsn : Nat) : State :=
  s.mapEntry lsn (fun e => if e.st = .accepted then { e with st := .executing } else e)

/-- An entry's disposition is written: once, from ACCEPTED or EXECUTING. Its duplicate record keeps it (R184), and the
counter of the disposition advances. -/
def State.endEntry (s : State) (lsn disp err : Nat) : State :=
  match s.entry lsn with
  | none => s
  | some e =>
    if e.st = .accepted ∨ e.st = .executing then
      let s := s.mapEntry lsn (fun e => { e with st := .disposed, disp := disp, err := err, doneAt := s.now })
      let ds := s.led.dups.map (fun d => if d.lsn = lsn then { d with disp := disp } else d)
      let s := s.setLed { s.led with dups := ds }
      (s.countBoth (R.LEDG_CNT disp)).syncLedg
    else s

/-- An entry that has not reached its disposition. -/
def LEntry.live (e : LEntry) : Bool := e.st == .accepted || e.st == .executing

/-- The entries of a function in a lane: its mailbox's and its queues'; a replicated function's are one set. -/
def State.entryOf (s : State) (l : Lane) (f : Nat) (e : LEntry) : Bool :=
  match e.req.src with
  | .func g => g == f && (s.replicated f || e.req.lane == l)
  | .queue q => s.queueFn e.req.lane q == f && (s.replicated f || e.req.lane == l)
  | _ => false

/-- A quiescing function with no entry ACCEPTED or EXECUTING is QUIESCED; VF_QUIESCE is DONE when each of its lanes'
functions is (Table 17.6, R552). -/
def State.settleQuiesce (s : State) : State :=
  s.quiesces.foldl (fun s v =>
    if s.led.entries.any (fun e => e.live && s.entryOf v.lane v.fn e) then s
    else
      let s := s.setFld v.lane (R.IOV_FN_STATE (v.fn % 64)) F.IOV_FN_STATE_STATE 3
      let s := { s with quiesces := s.quiesces.filter (fun x => !(x.lane == v.lane && x.fn == v.fn)) }
      if s.quiesces.any (fun x => x.lsn == v.lsn) || s.vfOps.any (fun x => x.lsn == v.lsn) then s
      else s.endEntry v.lsn 1 0) s

/-- A grant takes effect once every basic command accepted for its block before it has its disposition (R14). -/
def State.settleGrants (s : State) : State :=
  s.grants.foldl (fun s g =>
    if g.standing || s.led.entries.any (fun e => e.live && decide (e.lsn < g.lsn) && decide (e.opcode < 0x1000) &&
        blockOf e.opcode == g.block) then s
    else
      let s := { s with grants := s.grants.map (fun x => if x = g then { x with standing := true } else x) }
      if s.grants.any (fun x => x.lsn == g.lsn && !x.standing) then s else s.endEntry g.lsn 1 0) s

/-- An entry reaches its disposition (Table 6.2), and what waits for it goes on. -/
def State.dispose (s : State) (lsn disp err : Nat) : State :=
  ((s.endEntry lsn disp err).settleQuiesce).settleGrants

def State.done (s : State) (lsn : Nat) : State := s.dispose lsn dDONE 0

def State.failed (s : State) (lsn err : Nat) : State := s.dispose lsn dFAILED err

def State.disposeAll (s : State) (lsns : List Nat) (disp err : Nat) : State :=
  s.forEach lsns (fun s n => s.dispose n disp err)

/-- Every lower LSN of an entry's stream has been reported (R183). -/
def State.lowerReported (s : State) (e : LEntry) : Bool :=
  s.led.entries.all (fun x => !(x.stream == e.stream && decide (x.lsn < e.lsn)) || x.st == .reported)

/-- Every lower LSN of an entry's stream has begun (R182). -/
def State.lowerBegun (s : State) (stream lsn : Nat) : Bool :=
  s.led.entries.all (fun x => !(x.stream == stream && decide (x.lsn < lsn)) || x.st != .accepted)

/-- The outcomes of a block reset (R122): work in execution in the block fails, work queued for it is
undeliverable. `mine` says which opcodes are the block's. -/
def State.resetWork (s : State) (mine : LEntry → Bool) : State :=
  s.forEach ((s.led.entries.filter mine).map LEntry.lsn) (fun s n =>
    match s.entry n with
    | some e => if e.st = .executing then s.failed n eBLOCK_RESET
                else s.dispose n dUNDELIVERABLE eQUEUED_AT_RESET
    | none => s)

/-! ### Commits (R17 to R21, R625) -/

def State.setCommits (s : State) (c : List Commit) : State := { s with commits := c }

def rwsMask (a : Nat) : Word :=
  match regRow a with
  | some r => BitVec.ofNat 32 r.rws
  | none => 0

/-- The active set takes one word of a commit copy: its RWS fields (R17). -/
def State.activate (s : State) (l : Lane) (a : Nat) (v : Word) : State :=
  let m := rwsMask a
  s.setReg l a ((s.reg l a &&& ~~~m) ||| (v &&& m))

def State.activateAll (s : State) (l : Lane) : List RegCell → State
  | [] => s
  | (a, v) :: ws => (s.activate l a v).activateAll l ws

/-- A shadow write: only the RWS fields of the register change. -/
def State.writeShadow (s : State) (l : Lane) (a : Nat) (v : Word) : State :=
  let m := rwsMask a
  s.setShadow l a ((s.shadow l a &&& ~~~m) ||| (v &&& m))

def State.writeShadows (s : State) (l : Lane) : List RegCell → State
  | [] => s
  | (a, v) :: ws => (s.writeShadow l a v).writeShadows l ws

def cellsMerge (old new_ : List RegCell) : List RegCell :=
  new_.foldl (fun acc c => cellsInsert acc c.1 c.2) old

def State.commitNum (s : State) (block region : Nat) : CommitNum :=
  (s.nums.find? (fun c => c.block == block && c.region == region)).getD ⟨block, region, 0, 0⟩

def State.setNum (s : State) (n : CommitNum) : State :=
  { s with nums := n :: s.nums.filter (fun c => !(c.block == n.block && c.region == n.region)) }

/-- Pending commit of a block region in a lane. -/
def Commit.isAt (c : Commit) (block region : Nat) (l : Lane) : Bool :=
  c.block == block && c.region == region && c.lane == l

/-- The copy of a block region that is not yet in a sealed frame, else the one that is. -/
def State.pendCommit (s : State) (block region : Nat) (l : Lane) : Option Commit :=
  match s.commits.find? (fun c => c.isAt block region l && !c.carried) with
  | some c => some c
  | none => s.commits.find? (fun c => c.isAt block region l)

/-- Make a commit copy pending. It advances the block's commit number (R625) and replaces a pending copy
of the same block and region, whose ledger entries it takes over (R20, R625). A command's copy holds what
the shadow holds of the earlier one. A copy that a sealed frame already carries stays with that frame (R45). -/
def State.addCommit (s : State) (block region : Nat) (l : Lane) (writes : List RegCell)
    (lsns : List Nat) (wholesale : Bool) : State :=
  let n := s.commitNum block region
  let num := (n.made + 1) % 2 ^ 32
  let old := s.commits.find? (fun c => c.isAt block region l && !c.carried)
  let before := match old with
    | some o => o.writes
    | none => []
  let ws := if wholesale then writes else cellsMerge before writes
  let keep := match old with
    | some o => o.lsns
    | none => []
  let rest := s.commits.filter (fun c => !(c.isAt block region l && !c.carried))
  (s.setNum { n with made := num }).setCommits
    (rest ++ [{ block := block, region := region, lane := l, writes := ws, num := num,
                lsns := keep ++ lsns, carried := false }])

/-- A command's configuration of a block on a shared die: both lanes' shadows take the values, and one
commit copy goes with the frames (R28). -/
def State.commitShared (s : State) (block region : Nat) (ws : List RegCell) (lsn : Nat) : State :=
  ((s.writeShadows .E ws).writeShadows .W ws).addCommit block region (s.holderOr .E) ws [lsn] false

/-- A command's configuration of a lane-local block: replicated state, so both lanes commit it; the
holder's copy carries the entry. -/
def State.commitLocal (s : State) (block region : Nat) (ws : List RegCell) (lsn : Nat) : State :=
  let h := s.holderOr .E
  let s := (s.writeShadows .E ws).writeShadows .W ws
  (s.addCommit block region h.other ws [] false).addCommit block region h ws [lsn] false

/-- A pending copy leaves the queue. -/
def State.dropCommit (s : State) (c : Commit) : State :=
  s.setCommits (s.commits.filter (fun x => !(x.isAt c.block c.region c.lane && x.carried == c.carried)))

/-- An entry's configuration has been applied in one place: it reaches DONE once no pending copy carries
it any more (R264: each die that it reaches has applied it). -/
def State.settle (s : State) (lsn : Nat) : State :=
  if s.commits.any (fun c => c.lsns.contains lsn) then s else s.done lsn

def State.settleAll (s : State) (lsns : List Nat) : State := s.forEach lsns State.settle

/-- A commit takes effect at its safe point (R44): where the set is consistent the active set takes it and its
entries reach DONE; else the previous values stay in force, CFG_INCONSISTENT is set at `flagAddr` and
`flag`, and its entries reach FAILED (R21). -/
def State.applyCommit (s : State) (ok : Bool) (flagAddr : Nat) (flag : Fld) (err : Nat) (c : Commit) : State :=
  let s := s.dropCommit c
  let s := s.setNum { s.commitNum c.block c.region with applied := c.num }
  if ok then (s.activateAll c.lane c.writes).settleAll c.lsns
  else (s.setBitF c.lane flagAddr flag true).disposeAll c.lsns dFAILED err

/-- A die stops answering before a region's copy is applied: the entries that wait for it become
UNDELIVERABLE (Table 6.3, R264). The copy itself is still carried, for the lanes resend the configuration. -/
def State.dropDie (s : State) (block region : Nat) : State :=
  let mine := fun (c : Commit) => c.block == block && c.region == region
  let ls := ((s.commits.filter mine).map (fun c => c.lsns)).flatten
  let s := s.disposeAll ls dUNDELIVERABLE eDIE_UNREACHABLE
  s.setCommits (s.commits.map (fun c => if mine c then { c with lsns := [] } else c))

/-- Value of a register once a commit copy is applied: what its consistency check looks at (R21). -/
def State.after (s : State) (c : Commit) (a : Nat) : Word :=
  match cellsGet c.writes a with
  | some v => let m := rwsMask a; (s.reg c.lane a &&& ~~~m) ||| (v &&& m)
  | none => s.reg c.lane a

def State.afterF (s : State) (c : Commit) (a : Nat) (f : Fld) : Nat := getF (s.after c a) f

/-- The shadow registers of a range, as a COMMIT write copies them (R18): every register of the range that
the lane's shadow, the active set or a pending copy lists. -/
def State.shadowCopy (s : State) (l : Lane) (lo hi : Nat) : List RegCell :=
  let inR := fun (k : Nat) => decide (lo ≤ k % homeSpan) && decide (k % homeSpan < hi)
  let ks := (s.regs.filter (fun c => inR c.1 &&
      (c.1 / homeSpan == 3 + l.ix || c.1 / homeSpan == (if sharedReg (c.1 % homeSpan) then 2 else l.ix)))).map
      (fun c => c.1 % homeSpan)
  let ps := (((s.commits.filter (fun c => c.lane == l)).map Commit.writes).flatten.map Prod.fst).filter inR
  ((ks ++ ps).filter (fun a => rwsMask a != 0)).foldl (fun acc a => cellsInsert acc a (s.shadow l a)) []

/-- A block's shadow reloads from its active set (R16, R46). -/
def State.reloadShadow (s : State) (l : Lane) (lo hi : Nat) : State :=
  let base := { s with regs := rfReset s.regs (shadowKey l.ix lo) (shadowKey l.ix hi) }
  let act := s.regs.filter (fun c =>
    decide (lo ≤ c.1 % homeSpan) && decide (c.1 % homeSpan < hi) &&
      c.1 / homeSpan == (if sharedReg (c.1 % homeSpan) then 2 else l.ix))
  base.writeShadows l (act.map (fun c => (c.1 % homeSpan, c.2)))

/-- Configuration in force of the shared-die registers of an address range (its RWS fields, R17). -/
def State.configCells (s : State) (lo hi : Nat) : List RegCell :=
  ((s.regs.filter (fun c => decide (2 * homeSpan + lo ≤ c.1) && decide (c.1 < 2 * homeSpan + hi))).map
    (fun c => (c.1 % homeSpan, c.2 &&& rwsMask (c.1 % homeSpan)))).filter (fun c => rwsMask c.1 != 0)

/-- The registers that a shared die keeps, in an address range, return to their reset values. -/
def State.wipeDie (s : State) (lo hi : Nat) : State :=
  { s with regs := rfReset s.regs (2 * homeSpan + lo) (2 * homeSpan + hi) }

/-- A copy that the Commons holds until its own safe point: a selector pair's, a running time base's. No reset of a lane
touches it (R98). -/
def Commit.cmnHeld (c : Commit) : Bool :=
  (c.block == 10 && decide (110 ≤ c.region)) || (c.block == 14 && decide (20 ≤ c.region))

/-- Every register of a block slot of a lane at its reset value, its shadow too, its pending copy
discarded (R46). -/
def State.resetBlock (s : State) (l : Lane) (slot : Nat) : State :=
  let lo := 0xE0000000 + slot * 0x100000
  let hi := lo + 0x100000
  let act := rfReset s.regs (l.ix * homeSpan + lo) (l.ix * homeSpan + hi)
  let all := rfReset act (shadowKey l.ix lo) (shadowKey l.ix hi)
  { s with regs := all, commits := s.commits.filter (fun c => c.cmnHeld || !(c.block == slot && c.lane == l)) }

end Sys2Proof.Machine
end

