-- ==== Sys2Proof/Machine/Pot.lean ====
section
/-! DEFINITION. The page-owner table (R531 to R536): one 16-bit entry per 4 KiB page of SRAM, general MRAM and
LPDDR5X. The entries of SRAM and MRAM are the POT_ENT registers, those of LPDDR5X lie in its last 2 MiB. -/

namespace Sys2Proof.Machine

def lpBase : Nat := 0x0800000000
/-- First byte of the LPDDR5X entries (R533). -/
def potLpBase : Nat := 0x08FFE00000

/-- Which entry governs an address: the index of an Isle entry, or the page number in LPDDR5X. -/
inductive PotIx where
  | isle (i : Nat)
  | lp (i : Nat)
  deriving DecidableEq, Repr

def potIx (a : Nat) : Option PotIx :=
  if 0x10000000 ≤ a ∧ a < 0x10800000 then some (.isle ((a - 0x10000000) / 4096))
  else if 0x20000000 ≤ a ∧ a < 0x20A00000 then some (.isle (2048 + (a - 0x20000000) / 4096))
  else if lpBase ≤ a ∧ a < lpBase + 0x100000000 then some (.lp ((a - lpBase) / 4096))
  else none

def State.potAt (s : State) (l : Lane) : PotIx → Nat
  | .isle i => ((s.reg l (R.POT_ENT (i / 2))).toNat >>> (16 * (i % 2))) % 65536
  | .lp i => leNat (s.bytes l (potLpBase + 2 * i) 2)

def State.setPot (s : State) (l : Lane) (x : PotIx) (e : Nat) : State :=
  match x with
  | .isle i => s.setFld l (R.POT_ENT (i / 2)) ⟨16 * (i % 2) + 15, 16 * (i % 2)⟩ e
  | .lp i => s.setBytes l (potLpBase + 2 * i) (leBytes 2 e)

def potPart (e : Nat) : Nat := e % 64
def potSec (e : Nat) : Bool := e.testBit 6
def potShared (e : Nat) : Bool := e.testBit 7
def potRepl (e : Nat) : Bool := e.testBit 8
def potValid (e : Nat) : Bool := e.testBit 9

/-- An entry lets an initiator of a world and partition that is not in M mode at the page (R531). -/
def potAllows (e : Nat) (w : World) (part : Nat) : Bool :=
  potValid e && (potSec e == (w == .secure)) && (potShared e || potPart e == part)

/-- The page-owner table gives the page of an address to a world and partition. -/
def State.pageOwned (s : State) (l : Lane) (w : World) (part a : Nat) : Bool :=
  match potIx a with
  | some x => potAllows (s.potAt l x) w part
  | none => false

/-! ### G-stage translation (R530)

The format is that of the hgatp CSR and of the Sv39x4 and Sv48x4 page tables of the RISC-V privileged architecture, which
the spec names (PRESUMED in the assumption log). -/

/-- A table walk from `level` down: `base` the table and `idx` the entry in it. -/
def State.gWalk (s : State) (l : Lane) (a : Nat) (write : Bool) : Nat → Nat → Nat → Option Nat
  | level, base, idx =>
    let pte := leNat (s.bytes l (base + 8 * idx) 8)
    let r := pte.testBit 1
    let w := pte.testBit 2
    let x := pte.testBit 3
    let ppn := pte / 1024 % 2 ^ 44
    if !pte.testBit 0 || (w && !r) then none
    else if r || x then
      if pte.testBit 4 && (if write then w else r) && ppn % 2 ^ (9 * level) == 0 then
        some (ppn * 4096 + a % 2 ^ (12 + 9 * level))
      else none
    else match level with
      | 0 => none
      | k + 1 => s.gWalk l a write k (ppn * 4096) (a / 2 ^ (12 + 9 * k) % 512)

def onMap (x : Option Nat) : Option Nat :=
  match x with
  | some p => if p < memSpan then some p else none
  | none => none

/-- Lane physical address of an address of function `f` (IOV_FNf_GATP). -/
def State.gStage (s : State) (l : Lane) (f a : Nat) (write : Bool) : Option Nat :=
  let hi := (s.reg l (R.IOV_FN_GATP f 1)).toNat
  let gatp := (s.reg l (R.IOV_FN_GATP f 0)).toNat + 2 ^ 32 * hi
  let root := gatp % 2 ^ 44 / 4 * 4 * 4096
  onMap (match gatp / 2 ^ 60 with
    | 0 => some a
    | 8 => if a < 2 ^ 41 then s.gWalk l a write 2 root (a / 2 ^ 30) else none
    | 9 => if a < 2 ^ 50 then s.gWalk l a write 3 root (a / 2 ^ 39) else none
    | _ => none)

/-! ### Transfers page by page -/

/-- Addresses of the pages that a range touches, each at the first byte of the range in it. -/
def pagesOf (a n : Nat) : List Nat :=
  if n = 0 then [] else
  (List.range ((a % 4096 + n + 4095) / 4096)).map (fun i => if i = 0 then a else (a / 4096 + i) * 4096)

/-- The part of a range from one such address on. -/
def pageLen (a n p : Nat) : Nat := min (a + n - p) (4096 - p % 4096)

/-- Address of a request's buffer in its lane: through the function's translation; the secure partition's are lane
physical addresses. -/
def State.bufXlat (s : State) (r : Req) (a : Nat) (write : Bool) : Option Nat :=
  match r.src with
  | .func f => s.gStage r.lane f a write
  | _ => onMap (some a)

/-- A page of a buffer translates to a page that the table gives to the requester (R205). -/
def State.bufPage (s : State) (r : Req) (write : Bool) (a : Nat) : Bool :=
  match s.bufXlat r a write with
  | some p => s.pageOwned r.lane r.world r.src.part p
  | none => false

/-- Bytes of a request's payload buffer; a page that does not translate reads as zeros (the request is then refused). -/
def State.getBuf (s : State) (r : Req) (a n : Nat) : List Byte :=
  ((pagesOf a n).map (fun p =>
    match s.bufXlat r p false with
    | some x => s.bytes r.lane x (pageLen a n p)
    | none => List.replicate (pageLen a n p) 0)).flatten

/-- Response data into a request's response buffer. -/
def State.putResp (s : State) (r : Req) (data : List Byte) : State :=
  (pagesOf r.outAddr data.length).foldl (fun s p =>
    match s.bufXlat r p true with
    | some x => s.setBytes r.lane x (slice data (p - r.outAddr) (pageLen r.outAddr data.length p))
    | none => s) s

end Sys2Proof.Machine
end

