-- ==== Sys2Proof/Machine/Reset.lean ====
section
/-! DEFINITION. Reset of a lane (spec/04, Tables 4.1 and 4.2) as one shared operation, and the tamper
sensors' event (spec/18), whose responses reset a lane. -/

namespace Sys2Proof.Machine

/-- Row of Table 4.2 of a cause code, as PARI_RSTc counts it. -/
def causeRow (c : Nat) : Nat :=
  match c with
  | 0x01 => 0
  | 0x80 => 1
  | 0x10 => 2
  | 0x40 => 3
  | 0x60 => 4
  | 0x90 => 5
  | 0x30 => 6
  | 0x31 => 7
  | 0x20 => 8
  | 0x70 => 9
  | _ => 10

def RLevel.code : RLevel → Nat
  | .core => 1
  | .sys => 2
  | .por => 3

/-- Register slots that SYS and POR reset (Table 4.1): the lane's engines, with the lane sides of the shared
blocks, and the lane's clocks and lock-step status. -/
def sysSlots : List Nat := [1, 2, 3, 4, 5, 6, 7, 8, 9, 10, 11, 12, 13, 14, 15, 16, 17, 18, 19, 20, 22]

/-- The register slots of a lane return to their reset values. RSTC keeps the cause; slot 0 is cleared by its
own rule. -/
def State.clearSlots (s : State) (l : Lane) : List Nat → State
  | [] => s
  | b :: bs => (s.resetBlock l b).clearSlots l bs

/-- What SYS keeps of lock-step: the debugger's session and what it broke, until the release (R524), and the counts since
POR. -/
def State.keepLstep (s old : State) (l : Lane) : State :=
  let s := s.setReg l R.LSTP_STATUS (old.reg l R.LSTP_STATUS &&& 3)
  s.forEach (List.range 5) (fun s k =>
    s.setReg l (R.LSTP_PAIR_STAT k) (old.reg l (R.LSTP_PAIR_STAT k) &&& 0xFFFF0004))

/-- UPD's registers are restored from the Lighthouse (spec/19): the status and progress of the update. -/
def State.keepUpd (s old : State) (l : Lane) : State :=
  let s := s.setReg l R.UPD_STATUS (old.reg l R.UPD_STATUS &&& 0xFFFF000F)
  s.setReg l R.UPD_PROGRESS (old.reg l R.UPD_PROGRESS)

/-- The Lighthouse loses its volatile state and its registers (Table 4.1), but for what fuses, OTP and private MRAM hold;
counts and records of events are kept until POR. At POR the fuses' lifecycle takes effect (R555). -/
def State.keepLhs (s old : State) (l : Lane) (lvl : RLevel) : State :=
  let s := s.resetBlock l 21
  let x := match l with
    | .E => old.secE
    | .W => old.secW
  let st := old.reg l R.LHS_STATUS
  let st := if lvl = .por then setF (st &&& 0x00000107) F.LHS_STATUS_LIFECYCLE x.fuse else st &&& 0x000041FF
  let s := s.setReg l R.LHS_STATUS st
  let s := (s.setReg l R.LHS_SVN0 (old.reg l R.LHS_SVN0)).setReg l R.LHS_SVN1 (old.reg l R.LHS_SVN1)
  let s := s.forEach [0, 1, 2, 3] (fun s j => s.setReg l (R.LHS_KP j) (old.reg l (R.LHS_KP j) &&& 3))
  let s := s.forEach (List.range 256) (fun s k =>
    if old.bit l (R.LHS_KEY_INFO k) F.LHS_KEY_INFO_PERSIST then s.setReg l (R.LHS_KEY_INFO k) (old.reg l (R.LHS_KEY_INFO k))
    else s)
  let s := s.setReg l R.LHS_EVT_AON (old.reg l R.LHS_EVT_AON)
  let s := if lvl = .por then s else
    (s.forEach (List.range 8) (fun s k => s.setReg l (R.LHS_EVT_CNT k) (old.reg l (R.LHS_EVT_CNT k)))).setReg l R.LHS_EVT_LAST
      (old.reg l R.LHS_EVT_LAST)
  let ks := x.keys.filter (fun p => old.bit l (R.LHS_KEY_INFO p.1) F.LHS_KEY_INFO_PERSIST)
  let y := { x with keys := ks, meas := [], nonces := [], scope := 0, gated := [], off := [], pol := 0 }
  let s := match l with
    | .E => { s with secE := y }
    | .W => { s with secW := y }
  { s with pmReqs := s.pmReqs.filter (fun r => r.lane != l), ownOps := s.ownOps.filter (fun o => o.lane != l) }

/-- Blocks with a configuration on the shared dies, whose shadows reload from it (R16, R46). -/
def sharedSlots : List Nat := [2, 6, 7, 8, 10, 11, 12, 13, 14, 17]

/-- Pending copies that a lane which is reset was to send: a synchronised standby holds them too, and the entries they
carry go on with its copies (R140, Table 6.5). -/
def handCopies (l : Lane) (cs : List Commit) : List Commit :=
  let mine := cs.filter (fun c => c.lane == l && !c.cmnHeld && c.lsns != [])
  mine.foldl (fun rest c =>
    let same := fun (x : Commit) => x.block == c.block && x.region == c.region && x.lane == l.other &&
      x.carried == c.carried
    if rest.any same then rest.map (fun (x : Commit) => if same x then { x with lsns := x.lsns ++ c.lsns } else x)
    else rest ++ [{ c with lane := l.other }]) (cs.filter (fun c => !mine.contains c))

def State.handCommits (s : State) (l : Lane) : State :=
  if s.lst l.other = stSTANDBY then s.setCommits (handCopies l s.commits) else s

/-- The receive side of a lane's CAN ports at its reset state. -/
def State.clearCanRx (s : State) (l : Lane) : State :=
  match l with
  | .E => { s with canRxE := List.replicate 16 .reset }
  | .W => { s with canRxW := List.replicate 16 .reset }

/-- The frames that the lanes hold for the CAN ports are gone. -/
def State.dropCanHeld (s : State) : State :=
  { s with canPorts := s.canPorts.map (fun p => { p with held := [] }) }

/-- A lane's partition configuration of the parish at its reset value, with the copy that waits for it. -/
def State.dropParCfg (s : State) (l : Lane) : State :=
  { s with regs := rfReset (rfReset s.regs (regKey l.ix R.PARI_CFG) (regKey l.ix (R.PARI_CFG + 4)))
                     (shadowKey l.ix R.PARI_CFG) (shadowKey l.ix (R.PARI_CFG + 4)),
           commits := s.commits.filter (fun c => !(c.block == 23 && c.lane == l)) }

/-- What a lane's engines hold beside registers (Table 4.1). Where no synchronised lane remains, what the lanes had on its
way to the Commons is gone with it. The Causeway accesses of a holder that is lost wait for the change of holder (R493). -/
def State.clearEngines (s : State) (l : Lane) : State :=
  let left := s.lst l.other == stSTANDBY || s.lst l.other == stACTIVE
  let s := s.clearCanRx l
  let s := match l with
    | .E => { s with tideE := .reset, cvcE := .reset, harbInE := [], harbE := .reset }
    | .W => { s with tideW := .reset, cvcW := .reset, harbInW := [], harbW := .reset }
  let s := { s with eth := { s.eth with held := s.eth.held.filter (fun h => h.lane != l) } }
  let s := match l with
    | .E => { s with eth := { s.eth with rxE := [] } }
    | .W => { s with eth := { s.eth with rxW := [] } }
  let s := if s.lst l == stACTIVE && left then s
    else { s with cw := { s.cw with out := s.cw.out.filter (fun a => a.lane != l), wait := s.cw.wait.filter (fun a => a.lane != l) } }
  let s := { s with cw := { s.cw with blks := s.cw.blks.filter (fun b => b.lane != l) } }
  if left then s
  else { s.dropCanHeld with
    fltQ := [], cmnRecs := [], pwmRecs := [], evtRecs := [], tevArms := [], eth := { s.eth with saQ := [] } }

/-- What SYS keeps of RSTC_STATUS and CLKC: the freeze, suspect marks (R118) and the crystal; POR keeps the marks and the
Commons' hold. -/
def State.keepClocks (s old : State) (l : Lane) (lvl : RLevel) : State :=
  let st := old.reg l R.RSTC_STATUS &&& (if lvl = .por then 0x0000000A else 0x0000003B)
  let s := s.setReg l R.RSTC_STATUS st
  if lvl = .por then s else s.setReg l R.CLKC_XTAL_STAT (old.reg l R.CLKC_XTAL_STAT)

/-- A lane leaves the registers of its cores, engines and ports as Table 4.1 gives for SYS and POR. -/
def State.clearDeep (s : State) (l : Lane) (lvl : RLevel) : State :=
  let old := s
  let s := (s.clearEngines l).handCommits l
  let s := (s.clearSlots l sysSlots).keepClocks old l lvl
  let s := if lvl = .por then s else s.keepLstep old l
  let s := (s.keepUpd old l).keepLhs old l lvl
  let s := s.forEach sharedSlots (fun s b => s.reloadShadow l (0xE0000000 + b * 0x100000) (0xE0100000 + b * 0x100000))
  let s := s.forEach [0, 1, 2, 3, 4, 5] (fun s n => (s.setReg l (R.RSTC_WDT_CFG n) 0).setReg l (R.RSTC_WDT_CNT n) 0)
  let s := s.dropParCfg l
  let s := (s.setReg l R.RSTC_BLKRST 0).disposeAll (((s.lane l).blkWait ++ (s.lane l).blkLsns).map Prod.fst) 1 0
  let s := s.clearMem l 0x10000000 0x10800000
  let s := if lvl = .por then s.clearMem l lpBase (lpBase + 0x100000000) else s
  let x := s.lane l
  let s := s.setLane l { x with nonces := [], blocksInReset := [],
                                released := if lvl = .por then [] else [0], blkWait := [], blkLsns := [],
                                leaseRenewOut := false, pendResets := x.pendResets,
                                retention := [], memSelfRefresh := false }
  { s with
    scs := { s.scs with inbox := s.scs.inbox.filter (fun i => i.req.isSession || i.req.lane != l) },
    grants := s.grants.filter (fun g => g.lane != l), vfOps := s.vfOps.filter (fun v => v.lane != l),
    quiesces := s.quiesces.filter (fun v => v.lane != l), iovQs := s.iovQs.filter (fun q => q.lane != l),
    potUpds := s.potUpds.filter (fun u => u.lane != l), copies := s.copies.filter (fun c => c.lane != l) }

/-- The arbiter sees DOWN of a lane (Table 5.6); the lease of a holder that goes down ends (Table 5.2). -/
def State.assertDown (s : State) (l : Lane) : State :=
  match l with
  | .E => { s with arb := { s.arb with downE := true, reqE := false } }
  | .W => { s with arb := { s.arb with downW := true, reqW := false } }

def State.releaseDown (s : State) (l : Lane) : State :=
  match l with
  | .E => { s with arb := { s.arb with downE := false } }
  | .W => { s with arb := { s.arb with downW := false } }

/-- A target's clock is gated or its power off (R570). -/
def State.gatedOff (s : State) (l : Lane) (t : Nat) : Bool :=
  let x := match l with
    | .E => s.secE
    | .W => s.secW
  x.gated.contains t || x.off.contains t

/-- A block of the lane runs: its clock is not gated. -/
def State.blockOn (s : State) (l : Lane) (slot : Nat) : Bool := !s.gatedOff l (0x20 + slot)

/-! ### The update's trial (R591) -/

def uTRIAL : Nat := 4
def uREVERTING : Nat := 5
def eREVERTED : Nat := 0x0C06

def State.setUpdSt (s : State) (v : Nat) : State :=
  ({ s with upd := { s.upd with st := v } }).setFldBoth R.UPD_STATUS F.UPD_STATUS_STATE v

/-- REVERTING starts (Table 19.3); a UPD_ACTIVATE that has not reached TRIAL fails (R595). -/
def State.startRevert (s : State) : State :=
  let s := (s.setUpdSt uREVERTING).countBoth (R.UPD_CNT 5)
  let s := s.setFldBoth R.UPD_STATUS F.UPD_STATUS_CONFIRM_LEFT 0
  let ls := match s.upd.actLsn with
    | some n => [n]
    | none => []
  ({ s with upd := { s.upd with actLsn := none, drain := none, cycles := 0 } }).disposeAll ls dFAILED eREVERTED

/-- Causes that end a trial (R591). -/
def trialEnds (cause : Nat) : Bool := [0x20, 0x40, 0x50, 0x60, 0x90].contains cause

/-- The pairs that run: an assigned pair once the lane's cores are released, the Elder once it has started; they are
compared unless broken (R524, R529). -/
def State.syncPairs (s : State) (l : Lane) : State :=
  s.forEach (List.range 5) (fun s k =>
    let a := R.LSTP_PAIR_STAT k
    let run := if k = 4 then (s.lane l).elderUp
      else s.bit l (R.LSTP_PAIR_CFG k) F.LSTP_PAIR_CFG_EN && !(s.lane l).coresHeld && !s.gatedOff l (8 + k)
    (s.setBitF l a F.LSTP_PAIR_STAT_RUNNING run).setBitF l a F.LSTP_PAIR_STAT_COMPARING
      (run && !s.bit l a F.LSTP_PAIR_STAT_BROKEN))

/-- A reset of a lane starts (R99, R100, R103): a request at the level of a sequence in progress, or a
shallower one, merges into it and sets MERGED; any other starts or restarts the sequence, writes the cause
and takes the lane to RESET. Its cause is tallied in the parish register either way. -/
def State.laneReset (s : State) (l : Lane) (lvl : RLevel) (cause detail : Nat) : State :=
  let s := s.count l (R.PARI_RST (causeRow cause))
  let s := if s.upd.st = uTRIAL ∧ trialEnds cause = true then s.startRevert else s
  let merge := match (s.lane l).resetting with
    | some cur => decide (lvl.code ≤ cur.code)
    | none => false
  if merge then s.setBitF l R.RSTC_RST_CAUSE F.RSTC_RST_CAUSE_MERGED true
  else
    let om := s.mode
    let s := if lvl = .core then s else s.clearDeep l lvl
    let s := ((s.setLst l stRESET).syncMode om).assertDown l
    let s := { s with irqs := s.irqs.filter (fun i => i.lane != l) }
    let w := setF (setF (setF 0 F.RSTC_RST_CAUSE_CAUSE cause) F.RSTC_RST_CAUSE_LEVEL lvl.code)
      F.RSTC_RST_CAUSE_DETAIL detail
    let s := s.setReg l R.RSTC_RST_CAUSE w
    let s := s.setServing l false
    let x := s.lane l
    let s := (s.setLane l { x with resetting := some lvl, elderUp := false, bootOk := false, coresHeld := true }).syncPairs l
    if s.mod_.frozen && lvl != .por then
      (s.setBitF l R.RSTC_STATUS F.RSTC_STATUS_RESET_DEFERRED true).setLane l
        { s.lane l with deferred := some lvl }
    else s

/-! ### Tamper sensors (R572, Tables 18.7 and 18.8) -/

def sVGLITCH : Nat := 0
def sCGLITCH : Nat := 1
def sTEMP : Nat := 2
def sMESH : Nat := 3
def sDEBUG : Nat := 4
def sAUTH : Nat := 5
def sPOT : Nat := 6
def sPOLICY : Nat := 7

/-! ### The key store (R558 to R560) -/

/-- Every remote session closes (Table 18.8, ERASE_SESSION). -/
def State.closeSession (s : State) (n : Nat) : State :=
  let s := s.setRegBoth (R.SCSM_RS_STATUS n) 0
  { s with
    sessions := s.sessions.mapIdx (fun i x => if i = n then { x with partials := [], rxSeen := [] } else x),
    scs := { s.scs with inbox := s.scs.inbox.filter (fun i => i.req.src != .session n) } }

def State.sec (s : State) : Lane → SecRt
  | .E => s.secE
  | .W => s.secW

def State.setSec (s : State) (l : Lane) (x : SecRt) : State :=
  match l with
  | .E => { s with secE := x }
  | .W => { s with secW := x }

/-- Secure associations that a condition names are removed, and their SC has no key (R443, R558). -/
def State.dropSas (s : State) (p : Sa → Bool) : State :=
  let gone := (s.eth.sas.filter p).map Sa.port
  let s := { s with eth := { s.eth with sas := s.eth.sas.filter (fun x => !p x) } }
  s.forEach gone (fun s q => s.setShBit (R.ETHS_P_STAT q) F.ETHS_P_STAT_NO_SA true)

/-- What uses a slot ends (R558). -/
def State.endUses (s : State) (k : Nat) : State :=
  let s := s.forEach (List.range 32) (fun s n =>
    if s.bit .E (R.SCSM_RS_STATUS n) F.SCSM_RS_STATUS_OPEN && s.fld .E (R.SCSM_RS_CFG n) F.SCSM_RS_CFG_KEY_SLOT == k
    then s.closeSession n else s)
  s.dropSas (fun x => x.key == k)

/-- A slot is erased in a lane's store. -/
def State.clearKey (s : State) (l : Lane) (k : Nat) : State :=
  let x := s.sec l
  (s.setSec l { x with keys := x.keys.filter (fun p => p.1 != k) }).setReg l (R.LHS_KEY_INFO k) 0

/-- A slot is erased in both stores (R559). -/
def State.eraseKey (s : State) (k : Nat) : State := ((s.clearKey .E k).clearKey .W k).endUses k

/-- A slot is written in both stores (R559). -/
def State.putKey (s : State) (k info : Nat) (key : List Byte) : State :=
  let one := fun (s : State) (l : Lane) =>
    let x := s.sec l
    (s.setSec l { x with keys := (k, key) :: x.keys.filter (fun p => p.1 != k) }).setReg l (R.LHS_KEY_INFO k)
      (BitVec.ofNat 32 info)
  one (one s .E) .W

def eERASED : Nat := 0x0B03

/-- KEY_WRITEs that have not begun when an erase runs fail (R560). -/
def State.failWrites (s : State) : State :=
  let ws := (s.keyOps.filter (fun o => !o.erase)).map KeyOp.lsn
  ({ s with keyOps := s.keyOps.filter KeyOp.erase }).disposeAll ws dFAILED eERASED

/-- An erase runs beside the queue: the KEY_WRITE that has begun completes first. -/
def State.beforeErase (s : State) : State :=
  let s := match s.keyOps with
    | o :: os => if o.erase then s else ({ s with keyOps := os }.putKey o.slot o.info o.key).done o.lsn
    | [] => s
  s.failWrites

/-- Slots without PERSIST hold volatile keys (R558). -/
def State.volatileKeys (s : State) (l : Lane) : List Nat :=
  (List.range 256).filter (fun k => decide (8 ≤ k) && s.bit l (R.LHS_KEY_INFO k) F.LHS_KEY_INFO_VALID &&
    !s.bit l (R.LHS_KEY_INFO k) F.LHS_KEY_INFO_PERSIST)

def State.eraseVolatile (s : State) : State :=
  s.forEach ((List.range 256).filter (fun k => (s.volatileKeys .E).contains k || (s.volatileKeys .W).contains k)) State.eraseKey

/-- ERASE_ALL (Table 18.8). -/
def State.eraseAll (s : State) : State :=
  (s.forEach ((List.range 256).filter (fun k => decide (8 ≤ k))) State.eraseKey).setBitBoth R.LHS_STATUS
    F.LHS_STATUS_ERASED_ALL true

/-- The response level a sensor takes; each takes every action of the levels above it in Table 18.8. -/
def State.tamperRespond (s : State) (l : Lane) (sensor level : Nat) : State :=
  let s := if 1 ≤ level then s.alarm l (0x80 + sensor) else s
  let s := if 3 ≤ level then
      ((s.beforeErase.eraseVolatile).forEach (List.range 32) State.closeSession).dropSas (fun _ => true)
    else s
  let s := if 4 ≤ level then s.eraseAll else s
  if 2 ≤ level then s.laneReset l .sys 0x60 sensor else s

/-- A sensor event in a lane (R572): counted and recorded; the sensor takes its response when THR_M1 + 1
events fall within WINDOW_S_M1 + 1 seconds, and its window then begins anew. The spec does not say what DETAIL of
LHS_EVT_LAST holds: a free value. -/
def State.tamper (s : State) (l : Lane) (sensor : Nat) : State :=
  let detail := s.freeNat % 65536
  let s := s.tickFree
  let cnt := R.LHS_EVT_CNT sensor
  let s := s.countFld l cnt F.LHS_EVT_CNT_COUNT
  let win := (s.fld l (R.LHS_EVT_CFG sensor) F.LHS_EVT_CFG_WINDOW_S_M1 + 1) * 1000000
  let others := s.tamperLog.filter (fun e => !(e.lane == l && e.sensor == sensor))
  let mine := s.tamperLog.filter (fun e => e.lane == l && e.sensor == sensor && decide (s.now < e.at_ + win))
  let mine := mine ++ [⟨l, sensor, s.now⟩]
  let thr := s.fld l (R.LHS_EVT_CFG sensor) F.LHS_EVT_CFG_THR_M1
  let hit := decide (thr + 1 ≤ mine.length)
  let level := if hit then s.fld l (R.LHS_EVT_CFG sensor) F.LHS_EVT_CFG_RESP else 0
  let s := { s with tamperLog := if hit then others else others ++ mine }
  let s := s.setFld l cnt F.LHS_EVT_CNT_IN_WINDOW (if hit then 0 else mine.length)
  let w := setF (setF (setF 0 F.LHS_EVT_LAST_SENSOR sensor) F.LHS_EVT_LAST_LEVEL level)
    F.LHS_EVT_LAST_DETAIL detail
  let s := s.setReg l R.LHS_EVT_LAST w
  if hit then s.tamperRespond l sensor level else s

/-- A policy-class event, with its record in the LHS_POL ring (R31, R539, R569, R570): source, target,
partition and world. -/
def State.policy (s : State) (l : Lane) (source target part : Nat) (w : World) : State :=
  let i := (s.sec l).pol
  let s := s.setSec l { s.sec l with pol := (i + 1) % 16 }
  let v := source + 0x100 * (target % 256) + 0x10000 * (part % 64 + (if w = .secure then 64 else 0))
  let s := s.setReg l (R.LHS_POL i 0) (BitVec.ofNat 32 v)
  let s := s.setReg l (R.LHS_POL i 1) (s.reg l R.FERRY_CYCLE)
  s.tamper l sPOLICY

end Sys2Proof.Machine
end

