-- ==== Sys2Proof/Machine/Scs.lean ====
section
/-! DEFINITION. The Serhizon command set: what every request shares (spec/07). A command gives a `CmdSpec`;
`runCmd` takes a request through the checks of R209 in their order, answers it, and, where it is accepted
work, makes its ledger entry (R175) and starts it when its turn to start has come (R182). -/

namespace Sys2Proof.Machine

/-! ### Status codes (Table 7.5) -/

def SCS_OK : Nat := 0x0000
def SCS_ACCEPTED : Nat := 0x0001
def SCS_E_OPCODE : Nat := 0x0101
def SCS_E_LENGTH : Nat := 0x0102
def SCS_E_PARAM : Nat := 0x0103
def SCS_E_STATE : Nat := 0x0104
def SCS_E_PERM : Nat := 0x0105
def SCS_E_EXPERT_HELD : Nat := 0x0106
def SCS_E_LEDGER_FULL : Nat := 0x0201
def SCS_E_QUOTA : Nat := 0x0202
def SCS_E_DUPLICATE : Nat := 0x0203
def SCS_E_UNDELIVERABLE : Nat := 0x0204
def SCS_E_LANE : Nat := 0x0301
def SCS_E_LEASE : Nat := 0x0302
def SCS_E_SIG : Nat := 0x0401
def SCS_E_ROLLBACK : Nat := 0x0402
def SCS_E_LIFECYCLE : Nat := 0x0403
def SCS_E_BUSY : Nat := 0x0501
def SCS_E_TIMEOUT : Nat := 0x0502
def SCS_E_HW : Nat := 0x0601

/-! ### What a command gives -/

/-- One command of an opcode table. Each check answers true where the request passes it; `world` names the
first target whose world attribute or ownership bars the sender (R31, R569), with none where all pass. `lenPar` answers a LENGTH other
than the table's with SCS_E_PARAM (R576, R594). `exec` is the
command issued to its block at its start; it may reach the entry's disposition at once. -/
structure CmdSpec where
  opcode : Nat
  accepted : Bool
  lenOk : Req → Bool
  lenPar : Bool := false
  maxResp : Nat := 0
  urgentOk : Bool := false
  hasTarget : Bool := false
  perm : State → Req → Bool := fun _ _ => true
  world : State → Req → Option Nat := fun _ _ => none
  lifecycle : State → Req → Bool := fun _ _ => true
  param : State → Req → Bool := fun _ _ => true
  laneOk : State → Req → Bool := fun _ _ => true
  leaseOk : State → Req → Bool := fun _ _ => true
  stateOk : State → Req → Bool := fun _ _ => true
  reachOk : State → Req → Bool := fun _ _ => true
  sigOk : State → Req → Bool := fun _ _ => true
  svnOk : State → Req → Bool := fun _ _ => true
  busyOk : State → Req → Bool := fun _ _ => true
  noLease : Bool := false
  polSource : Nat := 3
  onRefuse : State → Req → Nat → State := fun s _ _ => s
  before : State → Req → State := fun s _ => s
  answer : State → Req → List Byte := fun _ _ => []
  effect : State → Req → State := fun s _ => s
  exec : State → Req → Nat → State := fun s _ _ => s

/-! ### Checks (R209) -/

/-- The status of the first failing check. -/
def firstFail : List (Bool × Nat) → Option Nat
  | [] => none
  | (ok, st) :: cs => if ok then firstFail cs else some st

/-- LENGTH and the response size (R204, R208). -/
def lengthOk (c : CmdSpec) (r : Req) : Bool :=
  (r.payload.length == r.length) &&
  (if r.isSession then decide (r.length ≤ 65535)
   else if r.bufPayload then decide (1 ≤ r.length ∧ r.length ≤ 65535)
   else if r.bufResponse then decide (r.length ≤ 24)
   else decide (r.length ≤ 48) || r.isStartup) &&
  (c.lenPar || c.lenOk r) &&
  (decide (c.maxResp ≤ 112) || r.isSession || r.isStartup ||
    (r.bufResponse && decide (c.maxResp ≤ r.outCap)))

/-- The sender's PERMIT allows the opcode's range (R228). -/
def permitOk (s : State) (opcode : Nat) (r : Req) : Bool :=
  match r.src with
  | .smb0 => true
  | .startup _ => true
  | .queue _ => true
  | .func f =>
    decide (opcode ≤ 3) || (s.fld r.lane (R.IOV_FN_CFG f) F.IOV_FN_CFG_PERMIT).testBit (opcode / 256)
  | .session n =>
    let p := s.fld r.lane (R.SCSM_RS_CFG n) F.SCSM_RS_CFG_PERMIT
    p != 0 && (decide (opcode ≤ 3) || p.testBit (opcode / 256))

/-- The buffers of a request translate, to pages that the page-owner table gives to the sender (R205). -/
def buffersOwned (s : State) (r : Req) : Bool :=
  (!r.bufPayload || (pagesOf r.inAddr r.length).all (s.bufPage r false)) &&
    (!r.bufResponse || (pagesOf r.outAddr r.outCap).all (s.bufPage r true))

/-- Buffer addresses are aligned and the descriptor's unused fields are 0 (R205, Table 7.3). -/
def buffersAligned (r : Req) : Bool :=
  if r.bufPayload || r.bufResponse then
    r.padZero &&
    (if r.bufPayload then r.inAddr % 8 == 0 else r.inAddr == 0) &&
    (if r.bufResponse then r.outAddr % 8 == 0 && decide (1 ≤ r.outCap ∧ r.outCap ≤ 65535)
     else r.outAddr == 0 && r.outCap == 0)
  else true

/-- A partition holds the expert grant of the block a command targets (R15, R211). -/
def expertHeld (s : State) (b : Nat) : Bool := s.grants.any (fun g => g.standing && g.block == b)

/-- Some Elder serves the request's lane, or the other lane's does and the request is forwarded (R225). -/
def State.servedBy (s : State) (l : Lane) : Option Lane :=
  if s.serving l then some l else if s.serving l.other then some l.other else none

/-- Steps 1 to 4 of R209; the opcode is a command's own, so step 1 passes. -/
def checksA (c : CmdSpec) (s : State) (r : Req) : Option Nat := firstFail [
  (decide (r.flags < 16) && !(r.isSession && (r.bufPayload || r.bufResponse)), SCS_E_PARAM),
  (lengthOk c r, SCS_E_LENGTH),
  (permitOk s c.opcode r && c.perm s r && (c.world s r).isNone && buffersOwned s r, SCS_E_PERM)]

/-- Steps 6 to 11 of R209. -/
def checksB (c : CmdSpec) (s : State) (r : Req) : Option Nat := firstFail [
  (c.lifecycle s r, SCS_E_LIFECYCLE),
  (!expertHeld s (blockOf c.opcode), SCS_E_EXPERT_HELD),
  (!(r.hasDeadline && r.deadline == 0) && buffersAligned r && (c.hasTarget || r.target == 0) &&
    (c.urgentOk || !r.urgent) && (!c.lenPar || c.lenOk r) && c.param s r, SCS_E_PARAM),
  (c.laneOk s r, SCS_E_LANE),
  (c.leaseOk s r, SCS_E_LEASE),
  (c.stateOk s r, SCS_E_STATE),
  (c.reachOk s r, SCS_E_UNDELIVERABLE),
  (c.sigOk s r, SCS_E_SIG),
  (c.svnOk s r, SCS_E_ROLLBACK),
  ((s.servedBy r.lane).isSome && c.busyOk s r, SCS_E_BUSY)]

/-- Step 12 of R209: the sender's quota, the entries left for it, and the duplicate ring (R187, R191). -/
def checksC (s : State) (r : Req) : Option Nat :=
  let q := s.quotaOf r.lane r.src
  let free := 32768 - s.inFlight
  let reserve := s.fld r.lane R.LEDG_CFG F.LEDG_CFG_RESERVE
  firstFail [
    (decide (s.quotaUsed q < s.fld r.lane (R.LEDG_QUOTA q) F.LEDG_QUOTA_QUOTA), SCS_E_QUOTA),
    (decide (0 < free) && (r.src.isChief || decide (reserve < free)), SCS_E_LEDGER_FULL),
    (decide (s.liveDups.length < 65536) || r.isStartup, SCS_E_LEDGER_FULL)]

/-- The kept duplicate record of a request's stream and REQ_ID (R185). -/
def State.dupOf (s : State) (r : Req) : Option DupRec :=
  if r.isStartup then none
  else s.liveDups.find? (fun d => d.stream == s.streamOf r.lane r.src && d.reqId == r.reqId)

/-- The CRC-16 over OPCODE, TARGET and payload (R184). -/
def reqCrc (opcode : Nat) (r : Req) : Nat :=
  (Config.crc16 (leBytes 2 opcode ++ leBytes 2 r.target ++ r.payload)).toNat

/-! ### Responses (Table 7.4, R207, R208, R537) -/

def respHeader (status : Nat) (bufUsed : Bool) (l : Lane) (reqId lsn len : Nat) : List Byte :=
  leBytes 2 status ++ leBytes 2 (b2n bufUsed + 2 * l.ix) ++ leBytes 4 reqId ++ leBytes 6 lsn ++ leBytes 2 len

def mailboxOf : Src → Option Nat
  | .func f => some f
  | .smb0 => some 64
  | _ => none

/-- Function that a mailbox's interrupts go to; SMB0's go to the secure world. -/
def mailboxFn (mb : Nat) : Option Nat := if mb = 64 then none else some mb

/-- A request leaves the inbox: the same slot of the same mailbox, or the same REQ_ID of a session. -/
def State.takeInbox (s : State) (r : Req) : State :=
  { s with scs := { s.scs with
      inbox := s.scs.inbox.filter (fun x =>
        !(x.req.src == r.src && x.req.lane == r.lane &&
          (if r.isSession then x.req.reqId == r.reqId else x.req.slot == r.slot))) } }

/-- Bytes of a session message that one segment carries at most (Table 7.8). -/
def State.segMax (s : State) (n : Nat) : Nat := if s.bit .E (R.SCSM_RS_CFG n) F.SCSM_RS_CFG_TRANSPORT then 2000 else 1200

def State.setSession (s : State) (n : Nat) (x : Session) : State :=
  { s with sessions := s.sessions.set n x }

/-- A message of a session goes out: it takes the next message number, and its segments the next counters (Table 7.7). The
session closes when its COUNTER reaches 2^48 (R221). -/
def State.sessionSent (s : State) (n bytes : Nat) : State :=
  match s.sessions[n]? with
  | none => s
  | some x =>
    let next_ := x.txNext + (bytes + s.segMax n - 1) / s.segMax n
    let s := s.setSession n { x with txNext := next_, txMsg := (x.txMsg + 1) % 2 ^ 32 }
    if 2 ^ 48 ≤ next_ then s.closeSession n else s

/-- The words of a response go into a mailbox's response slot, which is ready, with its interrupt (R214). -/
def State.putImage (s : State) (r : Req) (mb : Nat) (img : List Byte) : State :=
  let slot := r.slot % 8
  let s := s.setRegs r.lane (R.SCSM_MB_RESP mb slot 0) (bytesToWords ((img.length + 3) / 4) img)
  let st := R.SCSM_MB_STATUS mb
  let s := s.setFld r.lane st F.SCSM_MB_STATUS_RESP_READY
    (setBit (s.fld r.lane st F.SCSM_MB_STATUS_RESP_READY) slot)
  if s.bit r.lane (R.SCSM_MB_IRQ mb) F.SCSM_MB_IRQ_RESP_EN then
    s.irq r.lane (mailboxFn mb) (s.fld r.lane (R.SCSM_MB_IRQ mb) F.SCSM_MB_IRQ_VECTOR)
  else s

/-- A mailbox's response; its data goes to the response buffer where the request names one. -/
def State.respondMb (s : State) (r : Req) (l : Lane) (mb status lsn : Nat) (data : List Byte) : State :=
  let toBuf := r.bufResponse && data != []
  let bufOk := toBuf && buffersOwned s r
  let s := if bufOk then s.putResp r (data.take r.outCap) else s
  s.putImage r mb (respHeader status bufOk l r.reqId lsn (if toBuf && !bufOk then 0 else data.length) ++
    (if toBuf then [] else data.take 112))

/-- A session's response; the request is no longer pending. -/
def State.respondSession (s : State) (r : Req) (l : Lane) (n status lsn : Nat) (data : List Byte) : State :=
  let s := s.emit (.scsResp n (respHeader status false l r.reqId lsn data.length ++ data))
  let p := s.fld .E (R.SCSM_RS_STATUS n) F.SCSM_RS_STATUS_PENDING
  (s.setFldBoth (R.SCSM_RS_STATUS n) F.SCSM_RS_STATUS_PENDING (p - 1)).sessionSent n (16 + data.length)

/-- Send a response: into the mailbox's response slot, into the session, or nowhere for a start-up image entry and a
queue. The responding lane is the one whose Elder serves. -/
def State.respond (s : State) (r : Req) (status lsn : Nat) (data : List Byte) : State :=
  let l := (s.servedBy r.lane).getD r.lane
  match r.src with
  | .session n => (s.takeInbox r).respondSession r l n status lsn data
  | .func f => (s.takeInbox r).respondMb r l f status lsn data
  | .smb0 => (s.takeInbox r).respondMb r l 64 status lsn data
  | _ => s.takeInbox r

/-- A refusal: counted (SCSM_CNT1; SCS_E_BUSY in SCSM_CNT7), answered with LSN 0 and no data (R207). A
start-up image entry's refusal is counted and its first index recorded (R629). -/
def State.refuse (s : State) (r : Req) (status : Nat) : State :=
  let l := (s.servedBy r.lane).getD r.lane
  let s := s.count l (R.SCSM_CNT 1)
  let s := if status = SCS_E_BUSY then s.count l (R.SCSM_CNT 7) else s
  match r.src with
  | .startup i =>
    let first := !s.bit l R.SCSM_STATUS F.SCSM_STATUS_STARTUP_REFUSED
    let s := if first then s.setFld l R.SCSM_STARTUP F.SCSM_STARTUP_FIRST i else s
    let s := s.setBitF l R.SCSM_STATUS F.SCSM_STATUS_STARTUP_REFUSED true
    s.countFld l R.SCSM_STARTUP F.SCSM_STARTUP_COUNT
  | _ => s.respond r status 0 []

/-! ### Acceptance (R175, R176, R180) -/

/-- Absolute deadline of a request accepted now (R190). -/
def State.deadlineOf (s : State) (r : Req) : Option Nat :=
  if r.hasDeadline then some (s.now + r.deadline) else none

/-- The ledger engine takes a request: it assigns the next LSN, writes the entry and, for an SCS request
that is not of the start-up image, its duplicate record (R175, R180, R184, R629). -/
def State.accept (s : State) (opcode : Nat) (r : Req) : State :=
  let lsn := s.led.nextLsn
  let q := s.quotaOf r.lane r.src
  let st := s.streamOf r.lane r.src
  let e : LEntry := { lsn := lsn, st := .accepted, stream := st, opcode := opcode, quota := q, req := r,
                      acc := s.now, deadline := s.deadlineOf r, disp := 0, err := 0, recovered := false,
                      unclaimed := false, doneAt := 0 }
  let dup : DupRec := { reqId := r.reqId, stream := st, lsn := lsn, crc := reqCrc opcode r,
                        status := SCS_ACCEPTED, disp := 0, acc := s.now }
  let dups := if r.isStartup || r.isQueue then s.liveDups else s.liveDups ++ [dup]
  let s := s.setLed { s.led with nextLsn := lsn + 1, entries := s.led.entries ++ [e], dups := dups }
  ((s.countBoth (R.LEDG_CNT 0)).syncLedg).syncQuota q

/-- The quota's and the ledger's refusals are counted where the ledger reports them (R191, spec/06). -/
def State.countFull (s : State) (r : Req) (status : Nat) : State :=
  if status = SCS_E_QUOTA then
    (s.countBoth (R.LEDG_CNT 6)).setFldBoth (R.LEDG_QUSED (s.quotaOf r.lane r.src)) F.LEDG_QUSED_REFUSED
      (satInc 16 (s.fld .E (R.LEDG_QUSED (s.quotaOf r.lane r.src)) F.LEDG_QUSED_REFUSED))
  else
    let s := s.countBoth (R.LEDG_CNT 5)
    let s := s.setBitBoth R.LEDG_STATUS F.LEDG_STATUS_FULL_SEEN true
    if s.liveDups.length < 65536 then s
    else s.setBitBoth R.LEDG_STATUS F.LEDG_STATUS_DEDUP_FULL_SEEN true

/-- The second world check, at the start of an accepted command (R568). -/
def eWORLD_CHANGED : Nat := 0x0B01

/-- The command is issued to its block, where the world check still passes (R568). -/
def issue (c : CmdSpec) (s : State) (r : Req) (lsn : Nat) : State :=
  match c.world s r with
  | none => c.exec (s.begin lsn) r lsn
  | some _ => (s.begin lsn).failed lsn eWORLD_CHANGED

/-- An accepted request starts at once when every lower LSN of its stream has begun (R182). -/
def startNow (c : CmdSpec) (s : State) (r : Req) (lsn : Nat) : State :=
  if s.lowerBegun (s.streamOf r.lane r.src) lsn then issue c s r lsn else s

/-- Answer to an accepted request (R176): SCS_OK when it reached DONE within the acceptance and every
lower LSN of its stream is reported, which makes this response the report of the disposition; else
SCS_ACCEPTED. -/
def answerAccepted (c : CmdSpec) (s : State) (r : Req) (lsn : Nat) : State :=
  match s.entry lsn with
  | some e =>
    if e.st = .disposed ∧ e.disp = dDONE ∧ s.lowerReported e = true ∧ r.isStartup = false then
      let data := c.answer s r
      let s := s.mapEntry lsn (fun e => { e with st := .reported })
      let ds := s.led.dups.map (fun d => if d.lsn = lsn then { d with status := SCS_OK } else d)
      let s := ((s.setLed { s.led with dups := ds }).syncLedg).syncQuota e.quota
      s.respond r SCS_OK lsn data
    else s.respond r SCS_ACCEPTED lsn []
  | none => s.respond r SCS_ACCEPTED lsn []

/-- An accepted command from its acceptance on. -/
def acceptCmd (c : CmdSpec) (s : State) (r : Req) : State :=
  let lsn := s.led.nextLsn
  answerAccepted c (startNow c (s.accept c.opcode r) r lsn) r lsn

/-- An URGENT request whose stream holds an entry in ACCEPTED is handled as not urgent and counted
(R226). -/
def demoteUrgent (s : State) (r : Req) : State × Req :=
  if r.urgent && s.led.entries.any (fun e => e.stream == s.streamOf r.lane r.src && e.st == .accepted) then
    (s.count ((s.servedBy r.lane).getD r.lane) (R.SCSM_CNT 5), { r with flags := clearBit r.flags 3 })
  else (s, r)

/-- True while no new work is taken: the module is frozen (R127). -/
def State.deaf (s : State) : Bool := s.mod_.frozen

/-- Some lane may answer hosts: its LEASE_VALID is true (Table 5.7). -/
def State.answering (s : State) : Bool := s.leaseValid .E || s.leaseValid .W

/-- A request stays in its slot or session, unanswered: an Elder serves but no lane may answer (Table 5.7),
or none serves and the sender's lane is not the one to answer SCS_E_BUSY (R225). -/
def waits (c : CmdSpec) (s : State) (r : Req) : Bool :=
  match s.servedBy r.lane with
  | some _ => !s.answering && !c.noLease
  | none => r.isSession || s.holder == some r.lane.other

/-- A request is kept for a later holder (R218). -/
def State.keepReq (s : State) (opcode : Nat) (r : Req) : State :=
  let s := s.takeInbox r
  let x : Inbox := { opcode := opcode, req := r, stream := s.streamOf r.lane r.src, at_ := s.now }
  { s with scs := { s.scs with inbox := s.scs.inbox ++ [x] } }

/-- Outcome of the checks of a request: the refusal's status, or none where it passes. -/
def refusalOf (c : CmdSpec) (s : State) (r : Req) : Option Nat :=
  match checksA c s r with
  | some st => some st
  | none =>
    match checksB c s r with
    | some st => some st
    | none => if c.accepted then checksC s r else none

/-- A request that fails the world check leaves its policy record and event (R31, R569; source 3 of the
policy log, source 1 for a power-management request). -/
def noteWorld (c : CmdSpec) (s : State) (r : Req) (st : Nat) : State :=
  if st = SCS_E_PERM then
    match c.world s r with
    | some t => s.policy ((s.servedBy r.lane).getD r.lane) c.polSource t r.src.part r.world
    | none => s
  else s

/-- A request is served: checked in the order of R209, then refused, answered, or accepted. The start-up image is not
applied on the invalid strap code (R67). -/
def runCmd (c : CmdSpec) (s : State) (r : Req) : State :=
  if s.deaf || (r.isStartup && !(s.lane (s.holderOr r.lane)).strapOk) then s
  else if waits c s r then s.keepReq c.opcode r
  else
    let s := s.count ((s.servedBy r.lane).getD r.lane) (R.SCSM_CNT 0)
    let dr := demoteUrgent s r
    let s := dr.1
    let r := dr.2
    match checksA c s r with
    | some st => ((c.onRefuse (noteWorld c s r st) r st)).refuse r st
    | none =>
      match (if c.accepted then s.dupOf r else none) with
      | some d =>
        if d.crc = reqCrc c.opcode r then
          let s := s.countBoth (R.LEDG_CNT 7)
          s.respond r SCS_E_DUPLICATE d.lsn (leBytes 2 d.status ++ leBytes 1 d.disp ++ [0])
        else s.refuse r SCS_E_PARAM
      | none =>
        match checksB c s r with
        | some st => (c.onRefuse s r st).refuse r st
        | none =>
          if c.accepted then
            match checksC s r with
            | some st => (s.countFull r st).refuse r st
            | none => acceptCmd c (c.before s r) r
          else if r.hwFault then s.refuse r SCS_E_HW
          else (c.effect s r).respond r SCS_OK 0 (c.answer s r)

/-- A served request always leaves a next state. -/
def runScs (c : CmdSpec) (r : Req) (s : State) : Host.Outcome State Fault Refusal := .next (runCmd c s r)

end Sys2Proof.Machine
end

