-- ==== Sys2Proof/Machine/Power.lean ====
section
/-! DEFINITION. The outputs of the power dies (spec/08, spec/09): power channels and gate drivers as one kind of
protected output, with the state transitions of Tables 8.4 and 9.3 as named operations. An output is named by its
die `d` (0 P0, 1 P1) and its index `x` on it: 0 to 23 the power channels by local index, 24 to 31 the gate
drivers, the bit order of SUPC_DIPINH. -/

namespace Sys2Proof.Machine

/-! ### Parts of the state -/

def State.out (s : State) (d x : Nat) : OutRt := (s.outs[32 * d + x]?).getD .reset

def State.setOut (s : State) (d x : Nat) (o : OutRt) : State := { s with outs := s.outs.set (32 * d + x) o }

def State.modOut (s : State) (d x : Nat) (f : OutRt → OutRt) : State := s.setOut d x (f (s.out d x))

def State.pw (s : State) (d : Nat) : PowerRt := if d = 0 then s.pw0 else s.pw1

def State.setPw (s : State) (d : Nat) (p : PowerRt) : State :=
  if d = 0 then { s with pw0 := p } else { s with pw1 := p }

def powerDie (d : Nat) : Die := if d = 0 then .P0 else .P1

/-- Feed run state, feeds counted from 1. -/
def State.feedRt (s : State) (f : Nat) : FeedRt := (s.feeds[f - 1]?).getD ⟨200, 0, []⟩

def State.setFeedRt (s : State) (f : Nat) (x : FeedRt) : State := { s with feeds := s.feeds.set (f - 1) x }

def isGd (x : Nat) : Bool := decide (24 ≤ x)
def heavy (x : Nat) : Bool := decide (x < 8)

/-- Feed that serves an output (Table 8.2, spec/09). -/
def feedOf (d x : Nat) : Nat := 3 * d + (if x < 8 then 1 else if x < 24 then 2 else 3)

def feedDie (f : Nat) : Nat := (f - 1) / 3

/-- Outputs of a feed by increasing local index. -/
def feedOuts (f : Nat) : List Nat :=
  match (f - 1) % 3 with
  | 0 => List.range 8
  | 1 => (List.range 16).map (· + 8)
  | _ => (List.range 8).map (· + 24)

/-- Die and index of PCn (Table 8.2) and of GDn. -/
def pcDie (n : Nat) : Nat := if n < 8 then 0 else if n < 16 then 1 else if n < 32 then 0 else 1
def pcIx (n : Nat) : Nat := if n < 8 then n else if n < 16 then n - 8 else if n < 32 then n - 8 else n - 24
def gdDie (n : Nat) : Nat := n / 8
def gdIx (n : Nat) : Nat := 24 + n % 8

/-- Number of an output in the parish register: PC00 to PC47, then GD00 to GD15 (spec/20). -/
def pariIx (d x : Nat) : Nat :=
  if x < 8 then 8 * d + x else if x < 24 then 16 * d + x + 8 else 48 + 8 * d + (x - 24)

/-! ### Status and configuration of an output -/

def oState (d x : Nat) : Nat := if isGd x then R.GDR_STATE d (x - 24) else R.PCH_STATE d x

/-- Flags of PCH_STATEm and GDR_STATEg. -/
inductive OFlag where
  | oc | trip | thermAbs | thermDt | wire | clampOver | fwMissing | safe | under | openOff | shortFeed | late
  | urgOff | clrPend | diagSusp | iSat | clampRep | thermLatch | gateLow | senseOpen | prechgTo | dipInhibit
  deriving DecidableEq, Repr

def OFlag.fld : OFlag → Bool → Option Fld
  | .oc, false => some F.PCH_STATE_OC
  | .oc, true => some F.GDR_STATE_OC
  | .trip, false => some F.PCH_STATE_TRIP
  | .trip, true => some F.GDR_STATE_TRIP
  | .thermAbs, false => some F.PCH_STATE_THERM_ABS
  | .thermDt, false => some F.PCH_STATE_THERM_DT
  | .wire, false => some F.PCH_STATE_WIRE
  | .wire, true => some F.GDR_STATE_WIRE
  | .clampOver, false => some F.PCH_STATE_CLAMP_OVER
  | .fwMissing, false => some F.PCH_STATE_FREEWHEEL_MISSING
  | .safe, false => some F.PCH_STATE_SAFE
  | .safe, true => some F.GDR_STATE_SAFE
  | .under, false => some F.PCH_STATE_UNDERCURRENT
  | .openOff, false => some F.PCH_STATE_OPEN_OFF
  | .shortFeed, false => some F.PCH_STATE_SHORT_FEED
  | .late, false => some F.PCH_STATE_LATE_SWITCH
  | .late, true => some F.GDR_STATE_LATE_SWITCH
  | .urgOff, false => some F.PCH_STATE_URGENT_OFF
  | .urgOff, true => some F.GDR_STATE_URGENT_OFF
  | .clrPend, false => some F.PCH_STATE_CLEAR_PENDING
  | .clrPend, true => some F.GDR_STATE_CLEAR_PENDING
  | .diagSusp, false => some F.PCH_STATE_DIAG_SUSPENDED
  | .diagSusp, true => some F.GDR_STATE_DIAG_SUSPENDED
  | .iSat, false => some F.PCH_STATE_I_SAT
  | .iSat, true => some F.GDR_STATE_I_SAT
  | .clampRep, false => some F.PCH_STATE_CLAMP_REP_WARN
  | .thermLatch, false => some F.PCH_STATE_THERM_LATCH
  | .gateLow, true => some F.GDR_STATE_GATE_LOW
  | .senseOpen, true => some F.GDR_STATE_SENSE_OPEN
  | .prechgTo, true => some F.GDR_STATE_PRECHG_TIMEOUT
  | .dipInhibit, true => some F.GDR_STATE_DIP_INHIBIT
  | _, _ => none

def State.oFlag (s : State) (d x : Nat) (f : OFlag) : Bool :=
  match f.fld (isGd x) with
  | some g => s.shBit (oState d x) g
  | none => false

def State.setO (s : State) (d x : Nat) (f : OFlag) (b : Bool) : State :=
  match f.fld (isGd x) with
  | some g => s.setShBit (oState d x) g b
  | none => s

/-- The latched flags of an output, which an applied clear clears. -/
def State.clearLatched (s : State) (d x : Nat) : State :=
  if isGd x then s.setShFld (oState d x) ⟨12, 8⟩ 0 else s.setShFld (oState d x) ⟨15, 8⟩ 0

/-! States of Table 8.3 and R285 -/

def oOFF : Nat := 0
def oON : Nat := 1
def oPWM : Nat := 2
def oRETRY : Nat := 3
def oTHERMAL : Nat := 4
def oLOCKOUT : Nat := 5
def oDIP : Nat := 6
def oPRECHARGE : Nat := 7

def State.oSt (s : State) (d x : Nat) : Nat := s.shFld (oState d x) F.PCH_STATE_STATE
def State.setOSt (s : State) (d x v : Nat) : State := s.setShFld (oState d x) F.PCH_STATE_STATE v
def State.retryLeft (s : State) (d x : Nat) : Nat := s.shFld (oState d x) F.PCH_STATE_RETRY_LEFT
def State.setRetryLeft (s : State) (d x v : Nat) : State := s.setShFld (oState d x) F.PCH_STATE_RETRY_LEFT v

/-- The output conducts: ON, PWM or PRECHARGE (R78). -/
def conducting (st : Nat) : Bool := st == oON || st == oPWM || st == oPRECHARGE

/-- A configuration field of an output, by its name in either block. -/
def State.oCfg (s : State) (d x : Nat) (pc gd : Fld) : Nat :=
  if isGd x then s.shFld (R.GDR_CFG d (x - 24)) gd else s.shFld (R.PCH_CFG d x) pc

def State.cRetry (s : State) (d x : Nat) : Nat := s.oCfg d x F.PCH_CFG_RETRY F.GDR_CFG_RETRY
def State.cFail (s : State) (d x : Nat) : Nat := s.oCfg d x F.PCH_CFG_FAIL_ACT F.GDR_CFG_FAIL_ACT
def State.cProfile (s : State) (d x : Nat) : Nat := s.oCfg d x F.PCH_CFG_PROFILE F.GDR_CFG_PROFILE
def State.cSafeLines (s : State) (d x : Nat) : Nat := s.oCfg d x F.PCH_CFG_SAFE_LINES F.GDR_CFG_SAFE_LINES
def State.cRestore (s : State) (d x : Nat) : Bool :=
  s.oCfg d x F.PCH_CFG_RESTORE_AFTER_DIP F.GDR_CFG_RESTORE_AFTER_DIP == 1
def State.cBlank (s : State) (d x : Nat) : Nat :=
  if isGd x then s.shFld (R.GDR_OC d (x - 24)) F.GDR_OC_BLANK else s.shFld (R.PCH_THRM d x) F.PCH_THRM_BLANK
def State.cTripEn (s : State) (d x : Nat) : Bool :=
  if isGd x then s.shBit (R.GDR_TRIP d (x - 24)) F.GDR_TRIP_TRIP_EN else s.shBit (R.PCH_TRIP d x) F.PCH_TRIP_TRIP_EN
def State.cTrip (s : State) (d x : Nat) : Nat :=
  if isGd x then s.shFld (R.GDR_TRIP d (x - 24)) F.GDR_TRIP_TRIP else s.shFld (R.PCH_TRIP d x) F.PCH_TRIP_TRIP
def State.cFilt (s : State) (d x : Nat) : Nat :=
  if isGd x then s.shFld (R.GDR_OC d (x - 24)) F.GDR_OC_FILT_M1 else s.shFld (R.PCH_TRIP d x) F.PCH_TRIP_FILT_M1
/-- CLAMP = 0, active clamp; gate drivers have none. -/
def State.activeClamp (s : State) (d x : Nat) : Bool :=
  !isGd x && !s.shBit (R.PCH_CFG d x) F.PCH_CFG_CLAMP

/-! ### Feeds as the die sees them

SUPC's status registers at a lane's address are that lane's mirror (R289); the die's own values stand under the
shared home. -/

def dieKey (a : Nat) : Nat := 2 * homeSpan + a
def State.dieReg (s : State) (a : Nat) : Word := rfGet s.regs (dieKey a)
def State.setDieReg (s : State) (a : Nat) (v : Word) : State := { s with regs := rfPut s.regs (dieKey a) v }
def State.dieFld (s : State) (a : Nat) (f : Fld) : Nat := getF (s.dieReg a) f
def State.setDieFld (s : State) (a : Nat) (f : Fld) (v : Nat) : State := s.setDieReg a (setF (s.dieReg a) f v)

def State.feedBit (s : State) (f : Nat) (g : Fld) : Bool := s.dieFld (R.SUPC_FEED_STAT f) g == 1
def State.setFeedBit (s : State) (f : Nat) (g : Fld) (b : Bool) : State :=
  s.setDieFld (R.SUPC_FEED_STAT f) g (b2n b)

/-- Class in force of a feed: 0 12 V, 1 24 V, 2 48 V. -/
def State.feedClass (s : State) (f : Nat) : Nat := s.shFld (R.SUPC_FEED_CFG f) F.SUPC_FEED_CFG_CLASS

/-! ### DIP_INHIBIT (R272) -/

def State.dipInhibit (s : State) (d x : Nat) : Bool := (s.dieReg (R.SUPC_DIPINH d)).toNat.testBit x

def State.setDipInhibit (s : State) (d x : Nat) (b : Bool) : State :=
  (s.setDieFld (R.SUPC_DIPINH d) ⟨x, x⟩ (b2n b)).setO d x .dipInhibit b

/-! ### Turning on and off -/

def State.tallyBoth (s : State) (d x : Nat) (f : Tally → Tally) : State :=
  s.modOut d x (fun o => { o with tallyE := f o.tallyE, tallyW := f o.tallyW })

/-- The die may drive its outputs: it is up and holds a configuration (R252, R275). -/
def State.dieDrives (s : State) (d : Nat) : Bool := (s.die (powerDie d)).up && (s.pw d).configured

/-- RETRY_LEFT is reloaded with RETRY (R252). -/
def State.reload (s : State) (d x : Nat) : State := s.setRetryLeft d x (s.cRetry d x)

/-- The gate an output takes when it starts to conduct. A PWM output with PER 0 is held off (R237). -/
def State.gateFor (s : State) (d x st : Nat) : Gate :=
  if st = oPRECHARGE then .precharge
  else if st = oPWM ∧ s.shFld (R.PCH_PWM d x) F.PCH_PWM_PER = 0 then .off
  else .on

/-- State of an output that conducts for its target: PWM for a PWM target; a gate driver passes through
PRECHARGE where PRECHG_EN is set (Table 9.3). -/
def State.onState (s : State) (d x : Nat) : Nat :=
  if isGd x then
    if s.shBit (R.GDR_CFG d (x - 24)) F.GDR_CFG_PRECHG_EN then oPRECHARGE else oON
  else if (s.out d x).target = 2 then oPWM else oON

/-- A turn-on starts: the gate, the blank (R238) and the count of turn-ons. -/
def State.conduct (s : State) (d x : Nat) : State :=
  let st := s.onState d x
  let s := s.setOSt d x st
  let s := s.modOut d x (fun o =>
    { o with gate := s.gateFor d x st, blank := s.cBlank d x != 0, clamping := false, ovr := 0,
             retryDue := false, ldDefer := false })
  s.tallyBoth d x (fun t => { t with turns := t.turns + 1 })

/-- A turn-on may start: the hold phase (R267) and a cut-off stop every one, DIP_INHIBIT that of an
inhibited output. -/
def State.mayTurnOn (s : State) (d x : Nat) : Bool :=
  let f := feedOf d x
  s.dieDrives d && !s.feedBit f F.SUPC_FEED_STAT_HOLDING && !s.feedBit f F.SUPC_FEED_STAT_CUT

/-- The OFF rows of Tables 8.4 and 9.3: an output in OFF with its target on turns on, or goes to THERMAL
while its thermal latch is set. -/
def State.tryOn (s : State) (d x : Nat) : State :=
  if s.oSt d x = oOFF ∧ (s.out d x).target ≠ 0 ∧ s.mayTurnOn d x = true ∧ s.dipInhibit d x = false then
    if s.oFlag d x .thermLatch then s.setOSt d x oTHERMAL else s.conduct d x
  else s

/-- A conducting output's gate is discharged and its clamp or free-wheel interval begins; the state becomes
`st`. -/
def State.turnOff (s : State) (d x st : Nat) : State :=
  let was := conducting (s.oSt d x)
  let tj := sext 16 (s.shFld (R.PCH_TEMP d x) F.PCH_TEMP_TJ)
  let s := s.setOSt d x st
  s.modOut d x (fun o =>
    { o with gate := .off, blank := false, ovr := 0, fallback := o.fallback, ldDefer := false,
             clamping := o.clamping || (was && !isGd x), clampTj := if was then tj else o.clampTj })

/-- LD_DEFER of a feed follows its outputs. -/
def State.syncLdDefer (s : State) (f : Nat) : State :=
  s.setFeedBit f F.SUPC_FEED_STAT_LD_DEFER ((feedOuts f).any (fun x => (s.out (feedDie f) x).ldDefer))

/-- A commanded turn-off (R233). On a 12 V or 24 V class feed it is deferred while FEED_HIGH is set, for a
channel with active clamp (R277), unless it is urgent. -/
def State.commandOff (s : State) (d x : Nat) (urgent : Bool) : State :=
  let f := feedOf d x
  if !urgent && s.feedBit f F.SUPC_FEED_STAT_FEED_HIGH && s.feedClass f != 2 && s.activeClamp d x then
    (s.modOut d x (fun o => { o with ldDefer := true })).syncLdDefer f
  else (s.turnOff d x oOFF).syncLdDefer f

/-- The target level of an output becomes `t`, and the rows of Table 8.4 and Table 9.3 act on it. A change to
off reloads RETRY_LEFT (R252). -/
def State.setTarget (s : State) (d x t : Nat) (urgent : Bool) : State :=
  let old := (s.out d x).target
  let st := s.oSt d x
  let s := s.modOut d x (fun o => { o with target := t, ldDefer := if t = 0 then o.ldDefer else false })
  let s := if t = 0 ∧ old ≠ 0 then s.reload d x else s
  if st = oDIP ∨ st = oLOCKOUT then s
  else if t = 0 then
    if conducting st then s.commandOff d x urgent
    else if st = oRETRY ∨ st = oTHERMAL then (s.setOSt d x oOFF).reload d x
    else s
  else
    let s := s.syncLdDefer (feedOf d x)
    if st = oOFF then s.tryOn d x
    else if st = oON ∧ t = 2 then s.setOSt d x oPWM
    else if st = oPWM ∧ t = 1 then
      let wasOff := match (s.out d x).gate with
        | .on => false
        | _ => true
      (s.setOSt d x oON).modOut d x (fun o =>
        { o with gate := .on, blank := if wasOff then s.cBlank d x != 0 else o.blank })
    else s

/-- A protective turn-off to LOCKOUT, with its flag. -/
def State.lockout (s : State) (d x : Nat) (f : OFlag) : State :=
  if s.oSt d x = oLOCKOUT then s
  else ((s.turnOff d x oLOCKOUT).setO d x f true).syncLdDefer (feedOf d x)

/-- Over-current or trip of a conducting output: RETRY_WAIT where a restart is left, else LOCKOUT. -/
def State.overCurrent (s : State) (d x : Nat) (f : OFlag) : State :=
  if conducting (s.oSt d x) then
    let st := if 1 ≤ s.retryLeft d x then oRETRY else oLOCKOUT
    let s := ((s.turnOff d x st).setO d x f true).modOut d x (fun o => { o with retryDue := false })
    (s.tallyBoth d x (fun t => { t with trips := t.trips + 1 })).syncLdDefer (feedOf d x)
  else s

/-- A restart that consumes one retry. -/
def State.retryOn (s : State) (d x : Nat) : State :=
  (s.setRetryLeft d x (s.retryLeft d x - 1)).conduct d x

/-- The retry delay has elapsed (RETRY_WAIT rows): a hold phase defers the restart (R267), the thermal latch
takes the channel to THERMAL without consuming a retry. -/
def State.retryElapsed (s : State) (d x : Nat) : State :=
  if s.oSt d x = oRETRY then
    if s.mayTurnOn d x = false then s.modOut d x (fun o => { o with retryDue := true })
    else if s.oFlag d x .thermLatch then s.setOSt d x oTHERMAL
    else s.retryOn d x
  else s

/-- The thermal latch is clear and the channel in THERMAL: it restarts or locks out (R251); a hold phase keeps
it in THERMAL. -/
def State.thermalCleared (s : State) (d x : Nat) : State :=
  if s.oSt d x = oTHERMAL ∧ s.oFlag d x .thermLatch = false ∧ s.mayTurnOn d x = true then
    if 1 ≤ s.retryLeft d x then s.retryOn d x else s.setOSt d x oLOCKOUT
  else s

/-- Deferred turn-ons start: the hold phase has ended, or the cut-off. -/
def State.resumeOuts (s : State) (f : Nat) : State :=
  let d := feedDie f
  s.forEach (feedOuts f) (fun s x =>
    let s := if (s.out d x).retryDue then s.retryElapsed d x else s
    (s.thermalCleared d x).tryOn d x)

/-! ### The wire model (R243 to R245, R287) -/

/-- K of a profile in K/A², UQ8.16. -/
def kFrac (n : Nat) : Frac := Frac.mk' n 65536

/-- The square of the current LSB in A²: 2.5 mA, 0.5 mA or 20 mA. -/
def lsbSq (x : Nat) : Frac := if isGd x then ⟨1, 2500⟩ else if heavy x then ⟨1, 160000⟩ else ⟨1, 4000000⟩

/-- Mean of the squares of the interval's means, in A². -/
def meanSq (x : Nat) (ms : List Int) : Frac :=
  Frac.mul (Frac.divN (Frac.ofInt ((ms.map (fun m => m * m)).foldl (· + ·) 0)) 10) (lsbSq x)

/-- A temperature rise in kelvin as a register field, 0.0625 K per LSB. -/
def thetaField (t : Frac) : Nat := Frac.sat 16 (Frac.mul t (Frac.ofInt 16))

def State.thetaTrip (s : State) (d x : Nat) : Frac :=
  Frac.mk' (s.shFld (R.PCH_WP_LIM d (s.cProfile d x)) F.PCH_WP_LIM_THETA_TRIP) 16

def State.thetaRst (s : State) (d x : Nat) : Frac :=
  Frac.mk' (s.shFld (R.PCH_WP_LIM d (s.cProfile d x)) F.PCH_WP_LIM_THETA_RST) 16

def OutRt.theta (o : OutRt) : Frac := Frac.add o.th1 o.th2

/-- Both terms as the output's registers report them. -/
def State.syncTheta (s : State) (d x : Nat) : State :=
  let o := s.out d x
  let a := if isGd x then R.GDR_WIRE d (x - 24) else R.PCH_WIRE d x
  (s.setShFld a ⟨15, 0⟩ (thetaField o.th1)).setShFld a ⟨31, 16⟩ (thetaField o.th2)

/-! ### Clears (LOCKOUT rows, R261) -/

/-- A safe line of the output is asserted at its die. -/
def State.safeHeld (s : State) (d x : Nat) : Bool :=
  decide ((s.cSafeLines d x) &&& (s.shFld (R.PCH_SAFE d) F.PCH_SAFE_SL_STATE) ≠ 0)

/-- An output leaves LOCKOUT. -/
def State.leaveLockout (s : State) (d x : Nat) : State :=
  let s := (s.setOSt d x oOFF).clearLatched d x
  ((s.setO d x .clrPend false).reload d x).tryOn d x

/-- A clear is applied to an output (R261, R252, R272). -/
def State.applyClear (s : State) (d x : Nat) : State :=
  if s.oSt d x = oLOCKOUT then
    if s.safeHeld d x then s
    else
      let s := s.setDipInhibit d x false
      if s.oFlag d x .wire && Frac.lt (s.thetaRst d x) (s.out d x).theta then s.setO d x .clrPend true
      else s.leaveLockout d x
  else (((s.setDipInhibit d x false).clearLatched d x).reload d x).tryOn d x

/-! ### Feed events on outputs (R268 to R271) -/

/-- An output goes to DIP at cut-off, with a protective turn-off where it conducts. -/
def State.toDip (s : State) (d x : Nat) : State :=
  let st := s.oSt d x
  if st = oLOCKOUT ∨ st = oDIP then s
  else (s.turnOff d x oDIP).modOut d x (fun o => { o with preDip := st, retryDue := false })

/-- An output leaves DIP at its restore slot (R271). -/
def State.restoreOut (s : State) (d x : Nat) : State :=
  if s.oSt d x = oDIP then
    let o := s.out d x
    if s.cRestore d x then
      if o.target ≠ 0 ∧ o.preDip = oRETRY then s.setOSt d x oRETRY
      else if o.target ≠ 0 ∧ o.preDip = oTHERMAL ∧ s.oFlag d x .thermLatch = true then s.setOSt d x oTHERMAL
      else
        let s := s.setOSt d x oOFF
        let s := if o.target = 0 ∨ o.preDip = oTHERMAL then s.reload d x else s
        s.tryOn d x
    else (s.setOSt d x oOFF).setDipInhibit d x true
  else s

/-! ### Fail actions (R254, R255, R288) -/

/-- The target of an output's fail action, and whether it takes the FALLBACK duty. -/
def State.failTarget (s : State) (d x : Nat) : Nat × Bool :=
  match s.cFail d x with
  | 0 => (0, false)
  | 1 => (1, false)
  | 2 => ((s.out d x).target, (s.out d x).fallback)
  | _ => (2, true)

def State.takeFail (s : State) (d x : Nat) (urgent : Bool) : State :=
  let f := s.failTarget d x
  (s.modOut d x (fun o => { o with fallback := f.2 })).setTarget d x f.1 urgent

/-! ### Frames at a power die (R148, R236, R256, R257) -/

/-- TARGET of an output's record in force. -/
def State.recTarget (s : State) (d x : Nat) : Nat :=
  if isGd x then s.shFld (R.GDR_TGT d (x - 24)) F.GDR_TGT_TARGET else s.shFld (R.PCH_TGT d x) F.PCH_TGT_TARGET

/-- An output takes its record of the frame tagged `cycle`: `sched` when the frame newly schedules it. -/
def State.takeRecord (s : State) (d x cycle : Nat) (sched : Bool) : State :=
  let t := s.recTarget d x
  let held := match (s.out d x).urgSeal with
    | some c => !serialAhead32 cycle c
    | none => false
  if held then s
  else
    let s := (s.modOut d x (fun o => { o with urgSeal := none })).setO d x .urgOff false
    let s := if t = 0 then s.setDipInhibit d x false else s
    if sched then
      (s.modOut d x (fun o => { o with sched := some t, fallback := false })).setO d x .late false
    else if (s.out d x).sched.isSome then s
    else (s.modOut d x (fun o => { o with fallback := false })).setTarget d x t false

/-- Registers of a commit that schedule a switch. -/
def schedIn (d x : Nat) (ws : List RegCell) : Bool :=
  let a := if isGd x then R.GDR_TGT d (x - 24) else R.PCH_TGT d x
  match cellsGet ws a with
  | some v => getF v F.PCH_TGT_SCHED == 1
  | none => false

def clearIn (d x : Nat) (ws : List RegCell) : Bool :=
  let a := if isGd x then R.GDR_TGT d (x - 24) else R.PCH_TGT d x
  match cellsGet ws a with
  | some v => getF v F.PCH_TGT_CLEAR == 1
  | none => false

/-! ### Consistency of a commit (R21, R237, R242, R244, R246, R255) -/

/-- The configuration words of one power channel are consistent (R237, R242, R246, R255). -/
def chanCfgOk (m : Nat) (cfg trip thrm pwm ofs : Word) : Bool :=
  let per := getF pwm F.PCH_PWM_PER
  let dt := getF thrm F.PCH_THRM_DT_LIMIT
  let md := getF cfg F.PCH_CFG_MODE
  let lo := if heavy m then 400 else 1000
  let t := getF trip F.PCH_TRIP_TRIP
  decide (md ≤ 1) && decide (getF cfg F.PCH_CFG_SLEW ≠ 3) &&
  (getF cfg F.PCH_CFG_FAIL_ACT != 2 || getF cfg F.PCH_CFG_HOLD_CAPABLE == 1) &&
  (getF cfg F.PCH_CFG_FAIL_ACT != 3 || md == 1) &&
  (getF trip F.PCH_TRIP_TRIP_EN == 0 || decide (lo ≤ t ∧ t ≤ 32000)) &&
  decide (20 ≤ dt ∧ dt ≤ 80) &&
  (per == 0 || (decide (500 ≤ per ∧ per ≤ 100000) && decide (getF ofs F.PCH_OFS_OFS_US < per)))

/-- One power channel, as a commit would leave it. -/
def chkChannel (s : State) (c : Commit) (d m : Nat) : Bool :=
  let tgt := s.afterF c (R.PCH_TGT d m) F.PCH_TGT_TARGET
  chanCfgOk m (s.after c (R.PCH_CFG d m)) (s.after c (R.PCH_TRIP d m)) (s.after c (R.PCH_THRM d m))
    (s.after c (R.PCH_PWM d m)) (s.after c (R.PCH_OFS d m)) &&
  decide (tgt ≤ 2) && (tgt != 2 || s.afterF c (R.PCH_CFG d m) F.PCH_CFG_MODE == 1)

/-- The limits of a wire profile (R244): THETA_TRIP 1 K or more, THETA_RST below it. -/
def profileOk (w : Word) : Bool :=
  decide (16 ≤ getF w F.PCH_WP_LIM_THETA_TRIP) &&
    decide (getF w F.PCH_WP_LIM_THETA_RST < getF w F.PCH_WP_LIM_THETA_TRIP)

/-- A commit to a power die's PCH region is consistent. -/
def chkPch (s : State) (c : Commit) : Bool :=
  let d := c.region
  decide (s.afterF c (R.PCH_DIE_CFG d) F.PCH_DIE_CFG_KEEPALIVE_HOLD ≤ 2000) &&
    (List.range 24).all (chkChannel s c d) &&
    (List.range 32).all (fun p => profileOk (s.after c (R.PCH_WP_LIM d p)))

/-- The configuration words of one gate driver are consistent (R283, R284, R288, GDR_PRECHG). -/
def driverCfgOk (cfg shunt oc trip prechg : Word) : Bool :=
  let t := getF trip F.GDR_TRIP_TRIP
  let fa := getF cfg F.GDR_CFG_FAIL_ACT
  decide (getF oc F.GDR_OC_OC_THR ≠ 0) && decide (getF shunt F.GDR_SHUNT_R_SHUNT ≠ 0) &&
  decide (fa ≠ 3) && (fa != 2 || getF cfg F.GDR_CFG_HOLD_CAPABLE == 1) &&
  (getF trip F.GDR_TRIP_TRIP_EN == 0 || decide (50 ≤ t ∧ t ≤ 30000)) &&
  (getF cfg F.GDR_CFG_PRECHG_EN == 0 || getF prechg F.GDR_PRECHG_DVDT != 0)

/-- One gate driver, as a commit would leave it. -/
def chkDriver (s : State) (c : Commit) (d g : Nat) : Bool :=
  driverCfgOk (s.after c (R.GDR_CFG d g)) (s.after c (R.GDR_SHUNT d g)) (s.after c (R.GDR_OC d g))
    (s.after c (R.GDR_TRIP d g)) (s.after c (R.GDR_PRECHG d g)) &&
  decide (s.afterF c (R.GDR_TGT d g) F.GDR_TGT_TARGET ≤ 1)

def chkGdr (s : State) (c : Commit) : Bool := (List.range 8).all (chkDriver s c c.region)

/-- Off in the sense of R78: not conducting, and no clamp interval running. -/
def State.isOff (s : State) (d x : Nat) : Bool := !conducting (s.oSt d x) && !(s.out d x).clamping

/-- A feed's SUPC copy (region f): its class and times in range, and a change of class only while every
output of the feed is off (R78). -/
def chkSupc (s : State) (c : Commit) : Bool :=
  let f := c.region
  let a := R.SUPC_FEED_CFG f
  let t := s.afterF c a F.SUPC_FEED_CFG_T_CRANK_MAX
  let k := s.afterF c a F.SUPC_FEED_CFG_CLASS
  decide (10 ≤ t ∧ t ≤ 500) && decide (k ≠ 3) &&
    (k == s.feedClass f || (feedOuts f).all (s.isOff (feedDie f)))

/-- What a PCH commit does beyond the register values: a changed RETRY reloads RETRY_LEFT (R252), CLEAR acts
once and then reads 0 (R261). `before` is the state before the values were taken. -/
def State.afterOutCommit (before s : State) (d : Nat) (xs : List Nat) (ws : List RegCell) : State :=
  s.forEach xs (fun s x =>
    let s := if before.cRetry d x ≠ s.cRetry d x then s.reload d x else s
    if clearIn d x ws then
      let a := if isGd x then R.GDR_TGT d (x - 24) else R.PCH_TGT d x
      let s := ((s.setShFld a F.PCH_TGT_CLEAR 0).setShadow .E a (setF (s.shadow .E a) F.PCH_TGT_CLEAR 0)).setShadow
        .W a (setF (s.shadow .W a) F.PCH_TGT_CLEAR 0)
      s.applyClear d x
    else s)

end Sys2Proof.Machine
end

