-- ==== Sys2Proof/Machine/PowerCmds.lean ====
section
/-! DEFINITION. The 0x01xx and 0x02xx commands: power channels, gate drivers and feeds (spec/08, spec/09). -/

namespace Sys2Proof.Machine

/-! ### Shared by the commands that name outputs -/

/-- World attribute bit `n` of a resource class (R30, R31). -/
def State.attrBit (s : State) (l : Lane) (a n : Nat) : Bool := (s.reg l (a + 4 * (n / 32))).toNat.testBit (n % 32)

/-- The first of the named resources whose world attribute differs from the sender's world (R31). -/
def State.worldOf (s : State) (r : Req) (a : Nat) (ns : List Nat) : Option Nat :=
  ns.find? (fun n => s.attrBit r.lane a n != (r.world == .secure))

/-- Lane whose shadow holds the configuration that accepted commands have left (R212). -/
def State.cfgLane (s : State) (r : Req) : Lane := s.holderOr r.lane

/-- A field of the configuration as accepted commands have left it. -/
def State.cfgFld (s : State) (r : Req) (a : Nat) (f : Fld) : Nat := getF (s.shadow (s.cfgLane r) a) f

/-- A configuration register with one field changed. -/
def State.cfgSet (s : State) (r : Req) (a : Nat) (f : Fld) (v : Nat) : RegCell :=
  (a, setF (s.shadow (s.cfgLane r) a) f v)

/-- Outputs of one die: the numbers of a mask that lie on it. -/
def onDie (die : Nat → Nat) (ns : List Nat) (d : Nat) : List Nat := ns.filter (fun n => die n == d)

/-- The configuration that a command commits on each of several dies; a die with nothing to commit gets
nothing. -/
def State.commitDies (s : State) (block : Nat) (ds : List Nat) (ws : Nat → List RegCell) (lsn : Nat) : State :=
  s.forEach ds (fun s d => if ws d = [] then s else s.commitShared block d (ws d) lsn)

/-- The die answers on some port. -/
def State.reachable (s : State) (d : Die) : Bool := (s.die d).up

/-- Highest cycle whose frames the holder has sealed: the running cycle's successor once its frames are
sealed, else the running one. -/
def State.sealedCycle (s : State) : Nat :=
  (s.reg (s.holderOr .E) R.FERRY_CYCLE).toNat + (if s.ferry.sealed then 1 else 0)

/-- An urgent safe-state command is put into the urgent slots of its dies (R257). -/
def State.sendUrgent (s : State) (d : Die) (outs act lsn : Nat) : State :=
  if outs = 0 then s
  else { s with urgents := s.urgents ++
           [{ die := d, epoch := (s.reg (s.holderOr .E) R.FERRY_EPOCH).toNat, mask := outs, act := act,
              sealCyc := s.sealedCycle, lsn := lsn }] }

/-- Bits of a list of positions. -/
def bitsOf (xs : List Nat) : Nat := xs.foldl (fun n i => setBit n i) 0

/-! ### Power channels (Tables 8.8 and 8.9) -/

def pcMask (r : Req) : List Nat := maskBits 48 (r.u 0 6)

def pcWorld (ns : Req → List Nat) (s : State) (r : Req) : Option Nat := s.worldOf r (R.LHS_WATTR_PC 0) (ns r)

def pcReach (ns : List Nat) (s : State) : Bool := ns.all (fun n => s.reachable (powerDie (pcDie n)))

def specPcSet : CmdSpec :=
  { opcode := 0x0100, accepted := true, lenOk := fun r => r.length == 16, world := pcWorld pcMask,
    param := fun _ r => decide (r.u 0 6 ≠ 0) && decide (r.u8 6 ≤ 2) && decide (r.u8 7 ≤ 1) &&
      decide (r.u16 12 ≤ 1024) && (r.u8 6 == 2 || r.u16 12 == 0) && r.u16 14 == 0,
    stateOk := fun s r => r.u8 6 != 2 ||
      (pcMask r).all (fun n => s.cfgFld r (R.PCH_CFG (pcDie n) (pcIx n)) F.PCH_CFG_MODE == 1),
    reachOk := fun s r => pcReach (pcMask r) s,
    exec := fun s r lsn => s.commitDies 6 [0, 1] (fun d => ((onDie pcDie (pcMask r) d).map (fun n =>
      let m := pcIx n
      [(R.PCH_TGT d m, BitVec.ofNat 32 (r.u8 6 + 4 * r.u8 7)), (R.PCH_SWPH d m, r.w 8)] ++
        (if r.u8 6 = 2 then [s.cfgSet r (R.PCH_DUTY d m) F.PCH_DUTY_DUTY (r.u16 12)] else []))).flatten) lsn }

def specPcConfig : CmdSpec :=
  { opcode := 0x0101, accepted := true, lenOk := fun r => r.length == 28,
    world := pcWorld (fun r => [r.u8 0]),
    perm := fun s r => r.src.isChief || s.cfgFld r (R.PCH_CFG (pcDie (r.u8 0)) (pcIx (r.u8 0)))
      F.PCH_CFG_HOLD_CAPABLE == getF (r.w 4) F.PCH_CFG_HOLD_CAPABLE,
    param := fun _ r => decide (r.u8 0 ≤ 47) && r.u 1 3 == 0 && r.u16 26 == 0 && decide (r.u16 24 ≤ 1024) &&
      chanCfgOk (pcIx (r.u8 0)) (r.w 4) (r.w 8) (r.w 12) (r.w 16) (r.w 20),
    stateOk := fun s r =>
      let d := pcDie (r.u8 0)
      let m := pcIx (r.u8 0)
      s.cfgFld r (R.PCH_CFG d m) F.PCH_CFG_MODE == getF (r.w 4) F.PCH_CFG_MODE ||
        s.cfgFld r (R.PCH_TGT d m) F.PCH_TGT_TARGET == 0,
    reachOk := fun s r => pcReach [r.u8 0] s,
    exec := fun s r lsn =>
      let d := pcDie (r.u8 0)
      let m := pcIx (r.u8 0)
      s.commitShared 6 d [(R.PCH_CFG d m, r.w 4), (R.PCH_TRIP d m, r.w 8), (R.PCH_THRM d m, r.w 12),
        (R.PCH_PWM d m, r.w 16), (R.PCH_OFS d m, r.w 20),
        s.cfgSet r (R.PCH_DUTY d m) F.PCH_DUTY_FALLBACK (r.u16 24)] lsn }

def specPcProfile : CmdSpec :=
  { opcode := 0x0102, accepted := true, lenOk := fun r => r.length == 20,
    param := fun _ r => decide (r.u8 0 ≤ 31) && r.u 1 3 == 0 && profileOk (r.w 16),
    exec := fun s r lsn => s.commitDies 6 [0, 1] (fun d =>
      [(R.PCH_WP_K1 d (r.u8 0), r.w 4), (R.PCH_WP_K2 d (r.u8 0), r.w 8), (R.PCH_WP_TAU d (r.u8 0), r.w 12),
       (R.PCH_WP_LIM d (r.u8 0), r.w 16)]) lsn }

def specPcDieConfig : CmdSpec :=
  { opcode := 0x0103, accepted := true, lenOk := fun r => r.length == 4,
    param := fun _ r => decide (1 ≤ r.u8 0 ∧ r.u8 0 ≤ 3) && r.u8 1 == 0 && decide (r.u16 2 ≤ 2000),
    exec := fun s r lsn => s.commitDies 6 (maskBits 2 (r.u8 0)) (fun d =>
      [(R.PCH_DIE_CFG d, BitVec.ofNat 32 (r.u16 2))]) lsn }

def specPcClear : CmdSpec :=
  { opcode := 0x0104, accepted := true, lenOk := fun r => r.length == 8, world := pcWorld pcMask,
    param := fun _ r => decide (r.u 0 6 ≠ 0) && decide (r.u8 6 ≤ 1) && r.u8 7 == 0,
    reachOk := fun s r => pcReach (pcMask r) s,
    exec := fun s r lsn => s.commitDies 6 [0, 1] (fun d => (onDie pcDie (pcMask r) d).map (fun n =>
      let t := if r.u8 6 = 1 then 0 else s.cfgFld r (R.PCH_TGT d (pcIx n)) F.PCH_TGT_TARGET
      (R.PCH_TGT d (pcIx n), BitVec.ofNat 32 (t + 8)))) lsn }

/-- Channels of a status query. -/
def pcRange (r : Req) : List Nat := (List.range (r.u8 1)).map (· + r.u8 0)

def specPcStatus : CmdSpec :=
  { opcode := 0x0105, accepted := false, lenOk := fun r => r.length == 2, maxResp := 112,
    world := pcWorld pcRange,
    param := fun _ r => decide (r.u8 0 ≤ 47) && decide (1 ≤ r.u8 1 ∧ r.u8 1 ≤ 7) &&
      decide (r.u8 0 + r.u8 1 ≤ 48),
    answer := fun s r => ((pcRange r).map (fun n =>
      s.regBytes ((s.servedBy r.lane).getD r.lane) (R.PCH_MIR (pcDie n) (pcIx n) 0) 4)).flatten }

def specPcDieStatus : CmdSpec :=
  { opcode := 0x0106, accepted := false, lenOk := fun r => r.length == 1, maxResp := 12,
    param := fun _ r => r.u8 0 == 1 || r.u8 0 == 2,
    answer := fun s r =>
      let d := r.u8 0 - 1
      wordBytes (s.shReg (R.PCH_DIE_STATUS d)) ++ wordBytes (s.shReg (R.PCH_DIE_POWER d)) ++
        wordBytes (s.shReg (R.PCH_SAFE d)) }

/-- Target record of a safe state: off, or what the configured fail action gives (Table 8.5). -/
def safeRecord (s : State) (r : Req) (d m act : Nat) : List RegCell :=
  let a := R.PCH_TGT d m
  let fa := if act = 1 then 0 else s.cfgFld r (R.PCH_CFG d m) F.PCH_CFG_FAIL_ACT
  match fa with
  | 0 => [(a, 0)]
  | 1 => [(a, 1)]
  | 2 => [(a, BitVec.ofNat 32 (s.cfgFld r a F.PCH_TGT_TARGET))]
  | _ => [(a, 2), s.cfgSet r (R.PCH_DUTY d m) F.PCH_DUTY_DUTY (s.cfgFld r (R.PCH_DUTY d m) F.PCH_DUTY_FALLBACK)]

def specPcSafeState : CmdSpec :=
  { opcode := 0x0107, accepted := true, lenOk := fun r => r.length == 8, world := pcWorld pcMask, urgentOk := true,
    param := fun _ r => decide (r.u 0 6 ≠ 0) && (r.u8 6 == 1 || r.u8 6 == 2) && r.u8 7 == 0,
    reachOk := fun s r => pcReach (pcMask r) s,
    exec := fun s r lsn =>
      let ws := fun d => ((onDie pcDie (pcMask r) d).map (fun n => safeRecord s r d (pcIx n) (r.u8 6))).flatten
      let s := s.commitDies 6 [0, 1] ws lsn
      s.forEach [0, 1] (fun s d =>
        s.sendUrgent (powerDie d) (bitsOf ((onDie pcDie (pcMask r) d).map pcIx)) (r.u8 6) lsn) }

def execPcSet (r : Req) (s : State) : Host.Outcome State Fault Refusal := runScs specPcSet r s
def execPcConfig (r : Req) (s : State) : Host.Outcome State Fault Refusal := runScs specPcConfig r s
def execPcProfile (r : Req) (s : State) : Host.Outcome State Fault Refusal := runScs specPcProfile r s
def execPcDieConfig (r : Req) (s : State) : Host.Outcome State Fault Refusal := runScs specPcDieConfig r s
def execPcClear (r : Req) (s : State) : Host.Outcome State Fault Refusal := runScs specPcClear r s
def execPcStatus (r : Req) (s : State) : Host.Outcome State Fault Refusal := runScs specPcStatus r s
def execPcDieStatus (r : Req) (s : State) : Host.Outcome State Fault Refusal := runScs specPcDieStatus r s
def execPcSafeState (r : Req) (s : State) : Host.Outcome State Fault Refusal := runScs specPcSafeState r s

/-! ### Gate drivers and feeds (Tables 9.4 and 9.5) -/

def gdMask (r : Req) : List Nat := maskBits 16 (r.u16 0)

def gdWorld (ns : Req → List Nat) (s : State) (r : Req) : Option Nat := s.worldOf r R.LHS_WATTR_GD (ns r)

def gdReach (ns : List Nat) (s : State) : Bool := ns.all (fun n => s.reachable (powerDie (gdDie n)))

def specGdSet : CmdSpec :=
  { opcode := 0x0200, accepted := true, lenOk := fun r => r.length == 8, world := gdWorld gdMask,
    param := fun _ r => decide (r.u16 0 ≠ 0) && decide (r.u8 2 ≤ 1) && decide (r.u8 3 ≤ 1),
    reachOk := fun s r => gdReach (gdMask r) s,
    exec := fun s r lsn => s.commitDies 7 [0, 1] (fun d => ((onDie gdDie (gdMask r) d).map (fun n =>
      [(R.GDR_TGT d (n % 8), BitVec.ofNat 32 (r.u8 2 + 4 * r.u8 3)), (R.GDR_SWPH d (n % 8), r.w 4)])).flatten) lsn }

def specGdConfig : CmdSpec :=
  { opcode := 0x0201, accepted := true, lenOk := fun r => r.length == 24, world := gdWorld (fun r => [r.u8 0]),
    perm := fun s r => r.src.isChief || s.cfgFld r (R.GDR_CFG (gdDie (r.u8 0)) (r.u8 0 % 8))
      F.GDR_CFG_HOLD_CAPABLE == getF (r.w 4) F.GDR_CFG_HOLD_CAPABLE,
    param := fun _ r => decide (r.u8 0 ≤ 15) && r.u 1 3 == 0 &&
      driverCfgOk (r.w 4) (r.w 8) (r.w 12) (r.w 16) (r.w 20),
    reachOk := fun s r => gdReach [r.u8 0] s,
    exec := fun s r lsn =>
      let d := gdDie (r.u8 0)
      let g := r.u8 0 % 8
      s.commitShared 7 d [(R.GDR_CFG d g, r.w 4), (R.GDR_SHUNT d g, r.w 8), (R.GDR_OC d g, r.w 12),
        (R.GDR_TRIP d g, r.w 16), (R.GDR_PRECHG d g, r.w 20)] lsn }

def specGdClear : CmdSpec :=
  { opcode := 0x0202, accepted := true, lenOk := fun r => r.length == 4, world := gdWorld gdMask,
    param := fun _ r => decide (r.u16 0 ≠ 0) && decide (r.u8 2 ≤ 1) && r.u8 3 == 0,
    reachOk := fun s r => gdReach (gdMask r) s,
    exec := fun s r lsn => s.commitDies 7 [0, 1] (fun d => (onDie gdDie (gdMask r) d).map (fun n =>
      let t := if r.u8 2 = 1 then 0 else s.cfgFld r (R.GDR_TGT d (n % 8)) F.GDR_TGT_TARGET
      (R.GDR_TGT d (n % 8), BitVec.ofNat 32 (t + 8)))) lsn }

def gdRange (r : Req) : List Nat := (List.range (r.u8 1)).map (· + r.u8 0)

def specGdStatus : CmdSpec :=
  { opcode := 0x0203, accepted := false, lenOk := fun r => r.length == 2, maxResp := 112, world := gdWorld gdRange,
    param := fun _ r => decide (r.u8 0 ≤ 15) && decide (1 ≤ r.u8 1 ∧ r.u8 1 ≤ 7) &&
      decide (r.u8 0 + r.u8 1 ≤ 16),
    answer := fun s r => ((gdRange r).map (fun n =>
      let l := (s.servedBy r.lane).getD r.lane
      s.regBytes l (R.GDR_MIR (gdDie n) (n % 8) 0) 3 ++ wordBytes (s.reg l (R.GDR_MIR (gdDie n) (n % 8) 4)))).flatten }

/-- Target record of a gate driver's safe state (R288). -/
def gdSafeRecord (s : State) (r : Req) (d g act : Nat) : RegCell :=
  let a := R.GDR_TGT d g
  let fa := if act = 1 then 0 else s.cfgFld r (R.GDR_CFG d g) F.GDR_CFG_FAIL_ACT
  (a, BitVec.ofNat 32 (if fa = 0 then 0 else if fa = 1 then 1 else s.cfgFld r a F.GDR_TGT_TARGET))

def specGdSafeState : CmdSpec :=
  { opcode := 0x0204, accepted := true, lenOk := fun r => r.length == 4, world := gdWorld gdMask, urgentOk := true,
    param := fun _ r => decide (r.u16 0 ≠ 0) && (r.u8 2 == 1 || r.u8 2 == 2) && r.u8 3 == 0,
    reachOk := fun s r => gdReach (gdMask r) s,
    exec := fun s r lsn =>
      let ws := fun d => (onDie gdDie (gdMask r) d).map (fun n => gdSafeRecord s r d (n % 8) (r.u8 2))
      let s := s.commitDies 7 [0, 1] ws lsn
      s.forEach [0, 1] (fun s d =>
        s.sendUrgent (powerDie d) (bitsOf ((onDie gdDie (gdMask r) d).map gdIx)) (r.u8 2) lsn) }

/-- Every output of a feed is off in the sense of R78, as its state and clamp interval show. -/
def State.feedOff (s : State) (f : Nat) : Bool := (feedOuts f).all (s.isOff (feedDie f))

def specFeedConfig : CmdSpec :=
  { opcode := 0x0205, accepted := true, lenOk := fun r => r.length == 8, perm := fun _ r => r.src.isChief,
    param := fun _ r => decide (1 ≤ r.u8 0 ∧ r.u8 0 ≤ 6) && decide (r.u8 1 ≤ 2) &&
      decide (10 ≤ r.u16 2 ∧ r.u16 2 ≤ 500) && r.u 5 3 == 0,
    stateOk := fun s r => r.u8 1 == s.feedClass (r.u8 0) || s.feedOff (r.u8 0),
    reachOk := fun s r => s.reachable (powerDie (feedDie (r.u8 0))),
    exec := fun s r lsn => s.commitShared 2 (r.u8 0) [(R.SUPC_FEED_CFG (r.u8 0),
      BitVec.ofNat 32 (r.u8 1 + 0x10 * r.u16 2 + 0x10000 * r.u8 4))] lsn }

def specFeedStatus : CmdSpec :=
  { opcode := 0x0206, accepted := false, lenOk := fun r => r.length == 0, maxResp := 56,
    answer := fun s r =>
      let l := (s.servedBy r.lane).getD r.lane
      wordBytes (s.reg l R.SUPC_STATUS) ++ wordBytes (s.reg l R.SUPC_VKEEP) ++
        (((List.range 6).map (· + 1)).map (fun f =>
          wordBytes (s.reg l (R.SUPC_FEED_STAT f)) ++ wordBytes (s.reg l (R.SUPC_FEED_MIN f)))).flatten }

def execGdSet (r : Req) (s : State) : Host.Outcome State Fault Refusal := runScs specGdSet r s
def execGdConfig (r : Req) (s : State) : Host.Outcome State Fault Refusal := runScs specGdConfig r s
def execGdClear (r : Req) (s : State) : Host.Outcome State Fault Refusal := runScs specGdClear r s
def execGdStatus (r : Req) (s : State) : Host.Outcome State Fault Refusal := runScs specGdStatus r s
def execGdSafeState (r : Req) (s : State) : Host.Outcome State Fault Refusal := runScs specGdSafeState r s
def execFeedConfig (r : Req) (s : State) : Host.Outcome State Fault Refusal := runScs specFeedConfig r s
def execFeedStatus (r : Req) (s : State) : Host.Outcome State Fault Refusal := runScs specFeedStatus r s

end Sys2Proof.Machine
end

