-- ==== Sys2Proof/Machine/PowerEvents.lean ====
section
/-! DEFINITION. What happens at the power dies: measurements, protection, timers and feed events of spec/08 and
spec/09. Each command carries the facts its event reports; its time condition (a run of 10 µs means, an elapsed
delay) is what sending it asserts, except where the state itself keeps the count. Where two events reach one output
in one evaluation, they are sent in the order of Table 8.4 and Table 9.3 (R232). -/

namespace Sys2Proof.Machine

/-- The named power die answers and the index names one of its outputs. -/
def State.liveOut (s : State) (d x : Nat) : Bool := decide (d < 2) && decide (x < 32) && (s.die (powerDie d)).up

def State.livePc (s : State) (d x : Nat) : Bool := s.liveOut d x && decide (x < 24)
def State.liveGd (s : State) (d x : Nat) : Bool := s.liveOut d x && decide (24 ≤ x)

/-- The event acts on a live output, and is nothing elsewhere. -/
def onLive (ok : Bool) (s t : State) : Host.Outcome State Fault Refusal := .next (if ok then t else s)

/-! ### Current (R239, R240, R242, R253, R281, R282) -/

/-- A mean as its 16-bit field: beyond the range it reads 0x7FFF or 0x8000. -/
def meanField (m : Int) : Nat := uext 16 (satS 16 m)

def meanSaturates (m : Int) : Bool := m != satS 16 m

def State.diagSuspended (s : State) (d x : Nat) : Bool := s.oFlag d x .diagSusp

/-- One 10 µs mean of an output: its report, the run of means above TRIP while the trip is watched, the wire
model's interval and the cycle's accumulation; UNDERCURRENT follows its condition. -/
def State.takeMean (s : State) (d x : Nat) (mean : Int) : State :=
  let m := satS 16 mean
  let st := s.oSt d x
  let cur := if isGd x then R.GDR_CUR d (x - 24) else R.PCH_CUR d x
  let s := s.setShFld cur F.PCH_CUR_I_LAST (meanField mean)
  let watch := s.cTripEn d x && conducting st && !(s.out d x).blank
  let above := decide ((s.cTrip d x : Int) < m)
  let s := s.modOut d x (fun o =>
    { o with ovr := if watch && above then o.ovr + 1 else 0,
             means := (o.means ++ [m]).drop ((o.means ++ [m]).length - 10),
             sumI := o.sumI + m, nI := o.nI + 1, peakI := max o.peakI m.natAbs,
             sat := o.sat || meanSaturates mean,
             clamping := o.clamping && (conducting st || decide (0 < m)) })
  let uc := s.shFld (R.PCH_THRM d x) F.PCH_THRM_UC
  if !isGd x && !s.diagSuspended d x && !(st == oON && decide (m < (uc : Int))) then
    s.setO d x .under false
  else s

/-- Source and gate voltages of a gate driver; GATE_LOW in ON below 7.0 V, and CP_LOW for its die (R281). -/
def State.takeVs (s : State) (d x : Nat) (vsrc : Int) (vgs : Nat) : State :=
  let a := R.GDR_VS d (x - 24)
  let s := (s.setShFld a F.GDR_VS_V_SRC (uext 16 vsrc)).setShFld a F.GDR_VS_V_GS vgs
  let s := s.setO d x .gateLow (s.oSt d x == oON && decide (vgs < 7000))
  s.setShBit (R.GDR_DIE_STATUS d) F.GDR_DIE_STATUS_CP_LOW
    ((List.range 8).any (fun g => s.oFlag d (24 + g) .gateLow))

def execCurrentWindow (d x : Nat) (mean vsrc : Int) (vgs : Nat) (s : State) : Host.Outcome State Fault Refusal :=
  onLive (s.liveOut d x) s (let t := s.takeMean d x mean
                            if isGd x then t.takeVs d x vsrc vgs else t)

/-- The hardware limit (R241). -/
def execIlimReached (d x : Nat) (s : State) : Host.Outcome State Fault Refusal :=
  onLive (s.livePc d x) s (s.overCurrent d x .oc)

/-- The software trip (R242, R284): FILT_M1 + 1 consecutive means above TRIP. -/
def execSoftwareTrip (d x : Nat) (s : State) : Host.Outcome State Fault Refusal :=
  onLive (s.liveOut d x && s.cTripEn d x && decide (s.cFilt d x + 1 ≤ (s.out d x).ovr)) s
    (s.overCurrent d x .trip)

/-- The comparator of a gate driver (R283). -/
def execGdOcTrip (d x : Nat) (s : State) : Host.Outcome State Fault Refusal :=
  onLive (s.liveGd d x) s (s.overCurrent d x .oc)

/-- A channel in ON below UC for 10 ms (R253). -/
def execUndercurrent (d x : Nat) (s : State) : Host.Outcome State Fault Refusal :=
  let uc := s.shFld (R.PCH_THRM d x) F.PCH_THRM_UC
  let i := sext 16 (s.shFld (R.PCH_CUR d x) F.PCH_CUR_I_LAST)
  onLive (s.livePc d x && s.oSt d x == oON && uc != 0 && decide (i < (uc : Int)) && !(s.out d x).blank &&
    !s.diagSuspended d x) s (s.setO d x .under true)

/-- The off-state open-load test (R253). -/
def execOpenOff (d x : Nat) (present : Bool) (s : State) : Host.Outcome State Fault Refusal :=
  onLive (s.livePc d x && !s.diagSuspended d x) s
    (s.setO d x .openOff (present && s.oSt d x == oOFF && s.shBit (R.PCH_CFG d x) F.PCH_CFG_OL_EN))

/-- An off output near its feed (R253). -/
def execShortFeed (d x : Nat) (present : Bool) (s : State) : Host.Outcome State Fault Refusal :=
  onLive (s.livePc d x && !s.diagSuspended d x) s (s.setO d x .shortFeed (present && s.oSt d x == oOFF))

/-- A sense input of a gate driver open for 1 ms (GDR_STATEg); suspended with the other diagnostics (R266). -/
def execSenseOpen (d x : Nat) (present : Bool) (s : State) : Host.Outcome State Fault Refusal :=
  onLive (s.liveGd d x && !s.diagSuspended d x) s (s.setO d x .senseOpen present)

/-- The inrush blank ends (R238). -/
def execBlankEnd (d x : Nat) (s : State) : Host.Outcome State Fault Refusal :=
  onLive (s.liveOut d x) s (s.modOut d x (fun o => { o with blank := false }))

/-! ### Temperature (R246, R251) -/

/-- A reading of a channel's junction and of the die's case reference, in 0.0625 °C; the latch sets at 175 °C or
at DT_LIMIT, and clears below 160 °C with ΔT below DT_LIMIT − 15 K. -/
def State.takeTemp (s : State) (d x : Nat) (tj caseT : Int) : State :=
  let dt := tj - caseT
  let s := (s.setShFld (R.PCH_TEMP d x) F.PCH_TEMP_TJ (uext 16 tj)).setShFld (R.PCH_TEMP d x) F.PCH_TEMP_DT (uext 16 dt)
  let s := s.setShFld (R.PCH_DIE_STATUS d) F.PCH_DIE_STATUS_CASE_TEMP (uext 16 caseT)
  let lim := (s.shFld (R.PCH_THRM d x) F.PCH_THRM_DT_LIMIT : Int)
  let abs := decide (175 * 16 ≤ tj)
  let rise := decide (lim * 16 ≤ dt)
  if abs || rise then
    if s.oFlag d x .thermLatch then s
    else
      let s := s.setO d x .thermLatch true
      let s := s.tallyBoth d x (fun t => { t with therms := t.therms + 1 })
      if conducting (s.oSt d x) then
        let s := (s.turnOff d x oTHERMAL).syncLdDefer (feedOf d x)
        let s := if abs then s.setO d x .thermAbs true else s
        if rise then s.setO d x .thermDt true else s
      else s
  else if s.oFlag d x .thermLatch && decide (tj < 160 * 16) && decide (dt < (lim - 15) * 16) then
    (s.setO d x .thermLatch false).thermalCleared d x
  else s

def execThermalReading (d x : Nat) (tj caseT : Int) (s : State) : Host.Outcome State Fault Refusal :=
  onLive (s.livePc d x) s (s.takeTemp d x tj caseT)

/-! ### The wire model (R243, R244) -/

/-- One term's update: theta + (k * s − theta) * 100 µs / tau, with `n` intervals of 100 µs in tau. -/
def wireStep (theta k sq : Frac) (n : Nat) : Frac :=
  Frac.add theta (Frac.divN (Frac.sub (Frac.mul k sq) theta) n)

def State.wireUpdate (s : State) (d x : Nat) : State :=
  let p := s.cProfile d x
  let o := s.out d x
  let sq := meanSq x o.means
  let k1 := kFrac (s.shFld (R.PCH_WP_K1 d p) F.PCH_WP_K1_K1)
  let k2 := kFrac (s.shFld (R.PCH_WP_K2 d p) F.PCH_WP_K2_K2)
  let n1 := (s.shFld (R.PCH_WP_TAU d p) F.PCH_WP_TAU_TAU1_MS_M1 + 1) * 10
  let n2 := (s.shFld (R.PCH_WP_TAU d p) F.PCH_WP_TAU_TAU2_DS_M1 + 1) * 1000
  let s := (s.setOut d x { o with th1 := wireStep o.th1 k1 sq n1, th2 := wireStep o.th2 k2 sq n2, means := [] }).syncTheta
    d x
  let theta := (s.out d x).theta
  if conducting (s.oSt d x) && Frac.le (s.thetaTrip d x) theta then
    (s.tallyBoth d x (fun t => { t with wires := t.wires + 1 })).lockout d x .wire
  else if s.oSt d x == oLOCKOUT && s.oFlag d x .clrPend && Frac.le theta (s.thetaRst d x) then
    s.leaveLockout d x
  else s

def execWireModelUpdate (d x : Nat) (s : State) : Host.Outcome State Fault Refusal :=
  onLive (s.liveOut d x) s (s.wireUpdate d x)

/-! ### Inductive turn-off (R247 to R249); energies in 0.1 mJ -/

def clampSingle (x : Nat) : Nat := if heavy x then 5000 else 1000
def clampRepet (x : Nat) : Nat := if heavy x then 500 else 100

/-- Rating scaled from a start junction (0.0625 °C): whole up to 105 °C, to zero at 175 °C (R248). -/
def clampScaled (rating : Nat) (tj : Int) : Frac :=
  if tj ≤ 105 * 16 then Frac.ofInt rating
  else Frac.mk' ((rating : Int) * (175 * 16 - tj)) (70 * 16)

/-- A clamp interval ends: its energy is recorded, and the 10 s sum is held against ten times the repetitive
rating. -/
def execClampEventEnd (d x energy : Nat) (s : State) : Host.Outcome State Fault Refusal :=
  let o := s.out d x
  let hist := (o.clampHist.filter (fun h => decide (s.now < h.1 + 10000000))) ++ [(s.now, energy)]
  let sum : Nat := (hist.map Prod.snd).foldl (· + ·) 0
  let rep := Frac.lt (Frac.mul (Frac.ofInt 10) (clampScaled (clampRepet x) o.clampTj)) (Frac.ofInt (sum : Int))
  let t := s.setOut d x { o with clamping := false, clampHist := hist }
  let t := t.setShFld (R.PCH_CLAMP d x) F.PCH_CLAMP_E_LAST (min energy 0xFFFF)
  let t := t.countShFld (R.PCH_CLAMP d x) F.PCH_CLAMP_EVENTS
  let t := t.setO d x .clampRep rep
  onLive (s.livePc d x) s (t.tallyBoth d x (fun y => { y with clamp := y.clamp + energy }))

/-- The running energy of a clamp interval exceeds the scaled single rating (R248). -/
def execClampOver (d x energy : Nat) (s : State) : Host.Outcome State Fault Refusal :=
  let o := s.out d x
  onLive (s.livePc d x && o.clamping && Frac.lt (clampScaled (clampSingle x) o.clampTj) (Frac.ofInt energy)) s
    ((s.setO d x .clampOver true).lockout d x .clampOver)

/-- The output falls below −3 V at turn-off in free-wheel mode (R249). -/
def execFreewheelMissing (d x : Nat) (s : State) : Host.Outcome State Fault Refusal :=
  onLive (s.livePc d x && (s.out d x).clamping && s.shBit (R.PCH_CFG d x) F.PCH_CFG_CLAMP) s
    ((s.setO d x .fwMissing true).lockout d x .fwMissing)

/-! ### Retries (R251, R252) -/

def execRetryDelayExpiry (d x : Nat) (s : State) : Host.Outcome State Fault Refusal :=
  onLive (s.liveOut d x) s (s.retryElapsed d x)

/-- 1 s of uninterrupted ON or PWM without an event. -/
def execRetryReloadTimer (d x : Nat) (s : State) : Host.Outcome State Fault Refusal :=
  onLive (s.liveOut d x && (s.oSt d x == oON || s.oSt d x == oPWM)) s (s.reload d x)

/-! ### PWM (R237) -/

/-- Gate of one PWM period: on-times and off-times shorter than twice SLEW vanish. -/
def pwmGate (per duty slewUs : Nat) : Gate :=
  let on := per * duty / 1024
  if per = 0 then .off
  else if per * duty < 2 * slewUs * 1024 then .off
  else if (per * (1024 - duty)) < 2 * slewUs * 1024 then .on
  else .pulse on per

def slewUs (code : Nat) : Nat := if code = 0 then 5 else if code = 1 then 10 else 20

def execPcPwmPeriodStart (d x : Nat) (s : State) : Host.Outcome State Fault Refusal :=
  let o := s.out d x
  let duty := s.shFld (R.PCH_DUTY d x) (if o.fallback then F.PCH_DUTY_FALLBACK else F.PCH_DUTY_DUTY)
  let g := pwmGate (s.shFld (R.PCH_PWM d x) F.PCH_PWM_PER) duty (slewUs (s.shFld (R.PCH_CFG d x) F.PCH_CFG_SLEW))
  onLive (s.livePc d x && s.oSt d x == oPWM) s (s.setOut d x { o with gate := g })

/-! ### Conduction estimate (R91) -/

/-- On-resistance in mΩ at a junction temperature (0.0625 °C), on the line through its 25 °C and 125 °C
typical values. -/
def ronMilli (x : Nat) (tj : Int) : Frac :=
  let r25 : Frac := if heavy x then ⟨3, 2⟩ else ⟨8, 1⟩
  let slope : Frac := if heavy x then ⟨9, 1000⟩ else ⟨48, 1000⟩
  Frac.add r25 (Frac.mul slope (Frac.mk' (tj - 400) 16))

/-- Conduction figure of a die in watts: the latest means, with the on-resistance at each junction. -/
def State.conduction (s : State) (d : Nat) : Frac :=
  Frac.sum ((List.range 24).map (fun x =>
    if conducting (s.oSt d x) then
      let i := sext 16 (s.shFld (R.PCH_CUR d x) F.PCH_CUR_I_LAST)
      let r := ronMilli x (sext 16 (s.shFld (R.PCH_TEMP d x) F.PCH_TEMP_TJ))
      Frac.divN (Frac.mul (Frac.mul (Frac.ofInt (i * i)) (lsbSq x)) r) 1000
    else .zero))

def execConductionEstimate (d : Nat) (s : State) : Host.Outcome State Fault Refusal :=
  let p := s.pw d
  let hist := (s.conduction d :: p.cond).take 1000
  let avg := Frac.divN (Frac.sum hist) 1000
  let t := s.setPw d { p with cond := hist }
  let t := t.setShFld (R.PCH_DIE_POWER d) F.PCH_DIE_POWER_P_COND (Frac.sat 16 (Frac.mul avg (Frac.ofInt 100)))
  onLive (decide (d < 2) && (s.die (powerDie d)).up) s
    (t.setShBit (R.PCH_DIE_STATUS d) F.PCH_DIE_STATUS_CONDUCTION_OVER (Frac.lt (Frac.ofInt 20) avg))

/-! ### Pre-charge (Table 9.3) -/

/-- V_SRC within 0.3 V of the drain node; voltages in 2 mV. -/
def execPrechargeComplete (d x : Nat) (vsrc drain : Int) (s : State) : Host.Outcome State Fault Refusal :=
  let t := s.setShFld (R.GDR_VS d (x - 24)) F.GDR_VS_V_SRC (uext 16 vsrc)
  onLive (s.liveGd d x && s.oSt d x == oPRECHARGE && decide ((vsrc - drain).natAbs ≤ 150)) s
    ((t.setOSt d x oON).modOut d x (fun o => { o with gate := .on }))

def execPrechargeTimeout (d x : Nat) (s : State) : Host.Outcome State Fault Refusal :=
  onLive (s.liveGd d x && s.oSt d x == oPRECHARGE) s (s.lockout d x .prechgTo)

/-! ### Feed levels (Table 9.1), in 2 mV units -/

/-- A level of Table 9.1 by class, from values in 0.1 V. -/
def lvl (cls a b c : Nat) : Int := ((if cls = 0 then a else if cls = 1 then b else c) : Nat) * 50

def lvlHigh (k : Nat) : Int := lvl k 160 320 520
def lvlHighClr (k : Nat) : Int := lvl k 155 310 510
def lvlWarnRel (k : Nat) : Int := lvl k 95 190 380
def lvlWarn (k : Nat) : Int := lvl k 90 180 360
def lvlRecovery (k : Nat) : Int := lvl k 50 100 240
def lvlHold (k : Nat) : Int := lvl k 30 60 180
def lvlCut (k : Nat) : Int := lvl k 20 40 120
def lvlOv : Int := 30000
def lvlOvClr : Int := 29500
def lvlReverse : Int := -250

/-- A mean of a feed is reported, and the lowest kept. -/
def State.takeVolt (s : State) (f : Nat) (v : Int) : State :=
  let s := s.setDieFld (R.SUPC_FEED_STAT f) F.SUPC_FEED_STAT_VOLT (uext 16 v)
  let lo := sext 16 (s.dieFld (R.SUPC_FEED_MIN f) F.SUPC_FEED_MIN_VMIN)
  if v < lo then s.setDieFld (R.SUPC_FEED_MIN f) F.SUPC_FEED_MIN_VMIN (uext 16 v) else s

def State.liveFeed (s : State) (f : Nat) : Bool :=
  decide (1 ≤ f) && decide (f ≤ 6) && (s.die (powerDie (feedDie f))).up

/-- A qualified crossing: the mean is taken, and where it lies beyond the level the event acts. -/
def feedEvent (f : Nat) (v : Int) (beyond : Bool) (s : State) (act : State → State) :
    Host.Outcome State Fault Refusal :=
  onLive (s.liveFeed f) s (let t := s.takeVolt f v
                           if beyond then act t else t)

/-- DIAG_SUSPENDED of a feed and its outputs (R266). -/
def State.suspendDiag (s : State) (f : Nat) (b : Bool) : State :=
  (s.setFeedBit f F.SUPC_FEED_STAT_DIAG_SUSPENDED b).forEach (feedOuts f) (fun s x =>
    s.setO (feedDie f) x .diagSusp b)

def execFeedWarning (f : Nat) (v : Int) (s : State) : Host.Outcome State Fault Refusal :=
  feedEvent f v (decide (v < lvlWarn (s.feedClass f))) s (fun s =>
    (s.setFeedBit f F.SUPC_FEED_STAT_BELOW_WARN true).suspendDiag f true)

def execFeedWarningRelease (f : Nat) (v : Int) (s : State) : Host.Outcome State Fault Refusal :=
  feedEvent f v (decide (lvlWarnRel (s.feedClass f) < v)) s (fun s => s.setFeedBit f F.SUPC_FEED_STAT_BELOW_WARN false)

/-- 10 ms after the warning release (R266). -/
def execDiagResume (f : Nat) (s : State) : Host.Outcome State Fault Refusal :=
  onLive (s.liveFeed f && !s.feedBit f F.SUPC_FEED_STAT_BELOW_WARN) s (s.suspendDiag f false)

/-- The hold phase begins (R267): the crank window takes the T_CRANK_MAX in force (R268). -/
def execHoldFalling (f : Nat) (v : Int) (s : State) : Host.Outcome State Fault Refusal :=
  feedEvent f v (decide (v < lvlHold (s.feedClass f)) && !s.feedBit f F.SUPC_FEED_STAT_HOLDING &&
      !s.feedBit f F.SUPC_FEED_STAT_CUT) s (fun s =>
    let s := (s.setFeedBit f F.SUPC_FEED_STAT_HOLDING true).setFeedBit f F.SUPC_FEED_STAT_HOLD_SEEN true
    let h := s.dieFld (R.SUPC_FEED_DIP f) F.SUPC_FEED_DIP_HOLDS
    let s := s.setDieFld (R.SUPC_FEED_DIP f) F.SUPC_FEED_DIP_HOLDS (satInc 16 h)
    s.setFeedRt f { s.feedRt f with crankMs := s.shFld (R.SUPC_FEED_CFG f) F.SUPC_FEED_CFG_T_CRANK_MAX,
                                    holdAt := s.now })

/-- A hold phase ends, and LAST_HOLD takes its length. -/
def State.endHold (s : State) (f : Nat) : State :=
  if s.feedBit f F.SUPC_FEED_STAT_HOLDING then
    let t := min ((s.now - (s.feedRt f).holdAt) / 100) 0xFFFF
    (s.setFeedBit f F.SUPC_FEED_STAT_HOLDING false).setDieFld (R.SUPC_FEED_DIP f) F.SUPC_FEED_DIP_LAST_HOLD t
  else s

/-- The rising hold crossing: deferred turn-ons start at once (R267). -/
def execHoldRising (f : Nat) (v : Int) (s : State) : Host.Outcome State Fault Refusal :=
  feedEvent f v (decide (lvlHold (s.feedClass f) < v) && s.feedBit f F.SUPC_FEED_STAT_HOLDING) s (fun s =>
    (s.endHold f).resumeOuts f)

/-- Cut-off of a feed (R268): the hold phase ends and every output not in LOCKOUT goes to DIP. -/
def State.cutOff (s : State) (f : Nat) : State :=
  if s.feedBit f F.SUPC_FEED_STAT_CUT then s
  else
    let s := s.endHold f
    let s := (s.setFeedBit f F.SUPC_FEED_STAT_CUT true).setFeedBit f F.SUPC_FEED_STAT_CUT_SEEN true
    let s := s.setFeedRt f { s.feedRt f with slots := [] }
    (s.forEach (feedOuts f) (fun s x => s.toDip (feedDie f) x)).syncLdDefer f

def execCrankWindowExpiry (f : Nat) (s : State) : Host.Outcome State Fault Refusal :=
  onLive (s.liveFeed f && s.feedBit f F.SUPC_FEED_STAT_HOLDING) s (s.cutOff f)

def execCutCrossing (f : Nat) (v : Int) (s : State) : Host.Outcome State Fault Refusal :=
  feedEvent f v (decide (v < lvlCut (s.feedClass f))) s (fun s => s.cutOff f)

/-- The next restore slot of a feed (R270): its output leaves DIP. -/
def State.nextSlot (s : State) (f : Nat) : State :=
  let r := s.feedRt f
  match r.slots with
  | [] => s
  | x :: xs => (s.setFeedRt f { r with slots := xs }).restoreOut (feedDie f) x

/-- Recovery at t_r (R269, R270): the cut-off ends, the outputs in DIP take their slots by increasing index,
and the first slot is t_r itself; with RESTORE_STEP 0 every slot is. -/
def execFeedRecovery (f : Nat) (v : Int) (s : State) : Host.Outcome State Fault Refusal :=
  feedEvent f v (decide (lvlRecovery (s.feedClass f) < v) && (s.feedBit f F.SUPC_FEED_STAT_CUT ||
      ((s.feedRt f).slots == [] && (feedOuts f).any (fun x => s.oSt (feedDie f) x == oDIP)))) s (fun s =>
    let d := feedDie f
    let s := s.setFeedBit f F.SUPC_FEED_STAT_CUT false
    let inDip := (feedOuts f).filter (fun x => s.oSt d x == oDIP)
    let s := s.setFeedRt f { s.feedRt f with slots := inDip }
    let s := s.resumeOuts f
    if s.shFld (R.SUPC_FEED_CFG f) F.SUPC_FEED_CFG_RESTORE_STEP = 0 then s.forEach inDip (fun s _ => s.nextSlot f)
    else s.nextSlot f)

def execRestoreSlot (f : Nat) (s : State) : Host.Outcome State Fault Refusal :=
  onLive (s.liveFeed f) s (s.nextSlot f)

/-- Recovery lost before an output's slot: the remaining slots are cancelled (R273). -/
def execRecoveryLost (f : Nat) (v : Int) (s : State) : Host.Outcome State Fault Refusal :=
  feedEvent f v (decide (v < lvlRecovery (s.feedClass f))) s (fun s => s.setFeedRt f { s.feedRt f with slots := [] })

/-! ### Load dump, overvoltage and reverse feed (R86, R277, R279) -/

def execFeedHighSet (f : Nat) (v : Int) (s : State) : Host.Outcome State Fault Refusal :=
  feedEvent f v (decide (lvlHigh (s.feedClass f) < v)) s (fun s => s.setFeedBit f F.SUPC_FEED_STAT_FEED_HIGH true)

/-- A deferred turn-off starts. -/
def State.startDeferred (s : State) (d x : Nat) : State :=
  if (s.out d x).ldDefer then (s.turnOff d x oOFF).syncLdDefer (feedOf d x) else s

def execFeedHighClear (f : Nat) (v : Int) (s : State) : Host.Outcome State Fault Refusal :=
  feedEvent f v (decide (v < lvlHighClr (s.feedClass f))) s (fun s =>
    (s.setFeedBit f F.SUPC_FEED_STAT_FEED_HIGH false).forEach (feedOuts f) (fun s x => s.startDeferred (feedDie f) x))

/-- 400 ms after the deferral began. -/
def execLdDeferTimeout (d x : Nat) (s : State) : Host.Outcome State Fault Refusal :=
  onLive (s.livePc d x) s (s.startDeferred d x)

def execFeedOvSet (f : Nat) (v : Int) (s : State) : Host.Outcome State Fault Refusal :=
  feedEvent f v (decide (lvlOv < v)) s (fun s => s.setFeedBit f F.SUPC_FEED_STAT_FEED_OV true)

def execFeedOvClear (f : Nat) (v : Int) (s : State) : Host.Outcome State Fault Refusal :=
  feedEvent f v (decide (v < lvlOvClr)) s (fun s => s.setFeedBit f F.SUPC_FEED_STAT_FEED_OV false)

/-- A reversed feed lies below the cut level too and is cut off (R279). -/
def execReverseSet (f : Nat) (v : Int) (s : State) : Host.Outcome State Fault Refusal :=
  feedEvent f v (decide (v < lvlReverse)) s (fun s => (s.setFeedBit f F.SUPC_FEED_STAT_REVERSE true).cutOff f)

def execReverseClear (f : Nat) (v : Int) (s : State) : Host.Outcome State Fault Refusal :=
  feedEvent f v (decide (lvlReverse < v)) s (fun s => s.setFeedBit f F.SUPC_FEED_STAT_REVERSE false)

/-- Normal range of a class (Table 3.2). -/
def inNormal (k : Nat) (v : Int) : Bool :=
  decide (lvl k 90 180 360 ≤ v) && decide (v ≤ lvl k 160 320 520)

/-- Within another class's normal range for 100 ms (R79). -/
def execFeedClassMismatch (f : Nat) (v : Int) (s : State) : Host.Outcome State Fault Refusal :=
  let k := s.feedClass f
  feedEvent f v ([0, 1, 2].any (fun j => j != k && inNormal j v)) s (fun s =>
    s.setFeedBit f F.SUPC_FEED_STAT_FEED_CLASS_MISMATCH true)

/-! ### Safe lines (R259, R260, R313) -/

/-- Lines that the field dies drive. -/
def State.linesDriven (s : State) : Nat :=
  (s.shFld (R.FCH_SAFE 0) F.FCH_SAFE_SL_DRIVE) ||| (s.shFld (R.FCH_SAFE 1) F.FCH_SAFE_SL_DRIVE) |||
    (s.shFld (R.FCH_SAFE 2) F.FCH_SAFE_SL_DRIVE)

/-- A lane's command-link hardware forwards unless the lane is in SYS or POR reset (R259, R260). -/
def State.forwards (s : State) (l : Lane) : Bool :=
  (s.lane l).powered && (match (s.lane l).resetting with
    | none => true
    | some .core => true
    | some _ => false)

/-- The die sees the lines: every output that names an asserted one locks out (Tables 8.4 and 9.3). -/
def State.seeLines (s : State) (d lines : Nat) : State :=
  let s := s.setShFld (R.PCH_SAFE d) F.PCH_SAFE_SL_STATE lines
  if lines % 256 = 0 then s
  else
    let s := s.setShBit (R.PCH_DIE_STATUS d) F.PCH_DIE_STATUS_SAFE_LINE_SEEN true
    s.forEach (List.range 32) (fun s x => if s.safeHeld d x then s.lockout d x .safe else s)

def execSafeLineAssert (l : Lane) (d : Nat) (s : State) : Host.Outcome State Fault Refusal :=
  onLive (decide (d < 2) && (s.die (powerDie d)).up && s.forwards l) s (s.seeLines d s.linesDriven)

/-! ### What the die's shared events do here -/

/-- An urgent safe-state command at a power die (R257). -/
def State.urgentPower (s : State) (d : Nat) (u : Urgent) : State :=
  let xs := maskBits 32 u.mask
  let s := s.forEach xs (fun s x =>
    let s := (s.modOut d x (fun o => { o with urgSeal := some u.sealCyc, sched := none })).setO d x .urgOff true
    if u.act = 1 then s.setTarget d x 0 true else s.takeFail d x true)
  let s := if xs.any (fun x => !isGd x) then s.setShBit (R.PCH_DIE_STATUS d) F.PCH_DIE_STATUS_URGENT_APPLIED true else s
  if xs.any isGd then s.setShBit (R.GDR_DIE_STATUS d) F.GDR_DIE_STATUS_URGENT_APPLIED true else s

/-- A scheduled switch starts (R236). -/
def State.startSched (s : State) (d x : Nat) (late : Bool) : State :=
  match (s.out d x).sched with
  | some t =>
    let s := s.modOut d x (fun o => { o with sched := none })
    let s := if late then s.setO d x .late true else s
    s.setTarget d x t false
  | none => s

/-- Every output takes its fail action (R254). -/
def State.failPower (s : State) (d : Nat) : State :=
  (s.forEach (List.range 32) (fun s x => s.takeFail d x false)).setShBit (R.PCH_DIE_STATUS d)
    F.PCH_DIE_STATUS_FAIL_APPLIED true

/-- Address ranges of a power die's registers: its PCH and GDR regions without the lanes' mirrors, and the SUPC
registers of its feeds. -/
def powerRanges (d : Nat) : List (Nat × Nat) :=
  [(0xE0600000 + 0x80000 * d, 0xE0604000 + 0x80000 * d), (0xE0700000 + 0x80000 * d, 0xE0704000 + 0x80000 * d),
   (0xE0200100 + 0x60 * d, 0xE0200160 + 0x60 * d), (0xE0200200 + 4 * d, 0xE0200204 + 4 * d)]

/-- A power die powers up (R245, R252, R275): its outputs are off and it holds no configuration. -/
def State.restartPower (s : State) (d : Nat) : State :=
  let s := s.forEach (List.range 32) (fun s x =>
    s.modOut d x (fun o => { OutRt.reset with tallyE := o.tallyE, tallyW := o.tallyW }))
  let s := s.forEach [3 * d + 1, 3 * d + 2, 3 * d + 3] (fun s f => s.setFeedRt f ⟨200, 0, []⟩)
  s.setPw d .reset

/-- The targets of an applied frame (R148, R256, R624), with `news` the copies whose values it brought. -/
def State.powerFrame (s : State) (d cycle : Nat) (news : List RegCell) : State :=
  let first := !(s.pw d).configured
  let s := s.setPw d { s.pw d with configured := true }
  let s := if first then s.forEach (List.range 32) (fun s x => s.reload d x) else s
  let s := s.setShBit (R.PCH_DIE_STATUS d) F.PCH_DIE_STATUS_KA_LOST false
  s.forEach (List.range 32) (fun s x => s.takeRecord d x cycle (schedIn d x news))

/-- The status frame's means and peaks of the cycle that ends (R240). -/
def State.powerCycle (s : State) (d : Nat) : State :=
  s.forEach (List.range 32) (fun s x =>
    let o := s.out d x
    let cur := if isGd x then R.GDR_CUR d (x - 24) else R.PCH_CUR d x
    let pk := if isGd x then R.GDR_CURP d (x - 24) else R.PCH_CURP d x
    let mean := if o.nI = 0 then 0 else o.sumI / (o.nI : Int)
    let s := (s.setShFld cur F.PCH_CUR_I_MEAN (uext 16 mean)).setShFld pk F.PCH_CURP_I_PEAK (min o.peakI 0xFFFF)
    let s := s.setO d x .iSat o.sat
    s.setOut d x { o with sumI := 0, nI := 0, peakI := 0, sat := false })

end Sys2Proof.Machine
end

