-- ==== Sys2Proof/Machine/Field.lean ====
section
/-! DEFINITION. The field channels (spec/10): their states, the transitions of Table 10.5, the consistency of their
configuration (R294), the safe lines they drive, and their commands (Tables 10.8 and 10.9). A channel is named by
its die `d` (0 F0, 1 F1, 2 FI) and its local index `m`. -/

namespace Sys2Proof.Machine

/-! ### Parts of the state -/

def fcDie (n : Nat) : Nat := if n < 112 then 0 else if n < 224 then 1 else 2
def fcIx (n : Nat) : Nat := n - 112 * fcDie n
def fcNum (d m : Nat) : Nat := 112 * d + m
def fcCount (d : Nat) : Nat := if d = 2 then 32 else 112

def fieldDie (d : Nat) : Die := if d = 0 then .F0 else if d = 1 then .F1 else .FI

def State.fc (s : State) (d m : Nat) : FcRt := (s.fcs[fcNum d m]?).getD .reset
def State.setFc (s : State) (d m : Nat) (x : FcRt) : State := { s with fcs := s.fcs.set (fcNum d m) x }
def State.modFc (s : State) (d m : Nat) (f : FcRt → FcRt) : State := s.setFc d m (f (s.fc d m))

def State.fd (s : State) (d : Nat) : FieldRt := if d = 0 then s.fd0 else if d = 1 then s.fd1 else s.fd2
def State.setFd (s : State) (d : Nat) (x : FieldRt) : State :=
  if d = 0 then { s with fd0 := x } else if d = 1 then { s with fd1 := x } else { s with fd2 := x }

def fPARKED : Nat := 8
def fINPUT : Nat := 9

def State.fSt (s : State) (d m : Nat) : Nat := s.shFld (R.FCH_STATE d m) F.FCH_STATE_STATE
def State.setFSt (s : State) (d m v : Nat) : State := s.setShFld (R.FCH_STATE d m) F.FCH_STATE_STATE v
def State.fBit (s : State) (d m : Nat) (f : Fld) : Bool := s.shBit (R.FCH_STATE d m) f
def State.setFBit (s : State) (d m : Nat) (f : Fld) (b : Bool) : State := s.setShBit (R.FCH_STATE d m) f b
def State.fMode (s : State) (d m : Nat) : Nat := s.shFld (R.FCH_CFG d m) F.FCH_CFG_MODE
def State.fcfg (s : State) (d m : Nat) (f : Fld) : Nat := s.shFld (R.FCH_CFG d m) f
def State.fdBit (s : State) (d : Nat) (f : Fld) : Bool := s.shBit (R.FCH_DIE_STATUS d) f

/-! Modes of Table 10.2 -/

def mPARK : Nat := 0
def mDIN_SINK : Nat := 1
def mDIN_STG : Nat := 2
def mAIN : Nat := 5
def mRES : Nat := 6
def mCAPTURE : Nat := 7
def mPILOT : Nat := 10

def isDout (md : Nat) : Bool := md == 3 || md == 4
def isPwmMode (md : Nat) : Bool := md == 8 || md == 9
def isOutMode (md : Nat) : Bool := isDout md || isPwmMode md
def isDin (md : Nat) : Bool := md == mDIN_SINK || md == mDIN_STG
def isInMode (md : Nat) : Bool := decide (1 ≤ md) && decide (md ≤ 10) && !isOutMode md

def fcConducting (st : Nat) : Bool := st == oON || st == oPWM

/-! ### Inputs: VALID and the safe lines (R295, R313, R314, R316) -/

/-- VALID of an input: its first filter time done, no diagnostic flag, its supply there. -/
def State.validNow (s : State) (d m : Nat) : Bool :=
  let md := s.fMode d m
  isInMode md && (s.fc d m).filtered &&
  !s.fBit d m F.FCH_STATE_OVERLOAD && !s.fBit d m F.FCH_STATE_OPEN_WIRE && !s.fBit d m F.FCH_STATE_OVERTEMP &&
  !s.fBit d m F.FCH_STATE_SUPPLY_LOST &&
  !((md == mDIN_STG || md == mRES) && s.fBit d m F.FCH_STATE_SUPPLY_LOW)

/-- The channel asserts its safe line. -/
def State.assertsLine (s : State) (d m : Nat) : Bool :=
  isDin (s.fMode d m) && s.fcfg d m F.FCH_CFG_SAFE_EN == 1 &&
  (if s.fcfg d m F.FCH_CFG_SAFE_POL = 0 then s.fBit d m F.FCH_STATE_LEVEL
   else !s.fBit d m F.FCH_STATE_LEVEL || !s.fBit d m F.FCH_STATE_VALID)

/-- Lines that channels of a die drive. -/
def State.linesOf (s : State) (d : Nat) (want : Nat → Bool) : Nat :=
  bitsOf (((List.range (fcCount d)).filter want).map (fun m => s.fcfg d m F.FCH_CFG_SAFE_LINE))

/-- F1 keeps a copy of FI's safe configuration: while SUPPLY_LOST is set it asserts every line that an FI
channel drives with SAFE_POL = 1 (R314). -/
def State.lostLines (s : State) : Nat :=
  if s.fdBit 2 F.FCH_DIE_STATUS_SUPPLY_LOST then
    s.linesOf 2 (fun m => isDin (s.fMode 2 m) && s.fcfg 2 m F.FCH_CFG_SAFE_EN == 1 &&
      s.fcfg 2 m F.FCH_CFG_SAFE_POL == 1)
  else 0

def State.syncLines (s : State) (d : Nat) : State :=
  let own := s.linesOf d (fun m => s.assertsLine d m)
  let n := if d = 1 then own ||| s.lostLines
           else if d = 2 ∧ s.fdBit 2 F.FCH_DIE_STATUS_SUPPLY_LOST = true then 0 else own
  s.setShFld (R.FCH_SAFE d) F.FCH_SAFE_SL_DRIVE n

def State.syncValid (s : State) (d m : Nat) : State :=
  (s.setFBit d m F.FCH_STATE_VALID (s.validNow d m)).syncLines d

/-- A new level of an input is taken: LEVEL, its count of changes (R301), and VALID. -/
def State.takeLevel (s : State) (d m : Nat) (active : Bool) : State :=
  let lv := active != (s.fcfg d m F.FCH_CFG_INVERT == 1)
  let old := s.fBit d m F.FCH_STATE_LEVEL
  let s := if lv != old then
      s.setSh (R.FCH_CNT d m) (s.shReg (R.FCH_CNT d m) + 1)
    else s
  ((s.setFBit d m F.FCH_STATE_LEVEL lv).modFc d m (fun x => { x with filtered := true })).syncValid d m

/-! ### Outputs (Table 10.5) -/

/-- The die drives its outputs: up, configured, its supply neither cut nor lost. -/
def State.fieldDrives (s : State) (d : Nat) : Bool :=
  (s.die (fieldDie d)).up && (s.fd d).configured && !s.fdBit d F.FCH_DIE_STATUS_SUPPLY_CUT &&
    !s.fdBit d F.FCH_DIE_STATUS_SUPPLY_LOST

/-- The OFF rows of Table 10.5. -/
def State.fcTryOn (s : State) (d m : Nat) : State :=
  let t := (s.fc d m).target
  if s.fSt d m = oOFF ∧ t ≠ 0 ∧ s.fieldDrives d = true ∧ s.fBit d m F.FCH_STATE_DIP_INHIBIT = false then
    let per := s.shFld (R.FCH_PWM d m) F.FCH_PWM_PER
    (s.setFSt d m (if t = 2 then oPWM else oON)).modFc d m (fun x =>
      { x with gate := if t = 2 ∧ per = 0 then .off else .on, clamping := false })
  else s

/-- An output is switched off to a state; a conducting one begins its clamp interval. -/
def State.fcOff (s : State) (d m st : Nat) : State :=
  let was := fcConducting (s.fSt d m)
  (s.setFSt d m st).modFc d m (fun x =>
    { x with gate := .off, clamping := x.clamping || was, clampTj := if was then x.temp else x.clampTj })

def State.fcSetTarget (s : State) (d m t : Nat) : State :=
  let st := s.fSt d m
  let s := s.modFc d m (fun x => { x with target := t })
  if isOutMode (s.fMode d m) then
    if t = 0 then (if fcConducting st then s.fcOff d m oOFF else s)
    else if st = oOFF then s.fcTryOn d m
    else s
  else s

def State.fcLockout (s : State) (d m : Nat) (f : Fld) : State :=
  if s.fSt d m = oLOCKOUT then s else (s.fcOff d m oLOCKOUT).setFBit d m f true

/-- An output goes to DIP: the supply's hold crossing, or SUPPLY_LOST. -/
def State.fcDip (s : State) (d m : Nat) : State :=
  let st := s.fSt d m
  if isOutMode (s.fMode d m) ∧ (st = oON ∨ st = oPWM ∨ st = oOFF) then s.fcOff d m oDIP else s

/-- An output leaves DIP on recovery. -/
def State.fcRestore (s : State) (d m : Nat) : State :=
  if s.fSt d m = oDIP then
    let s := s.setFSt d m oOFF
    if s.fcfg d m F.FCH_CFG_RESTORE_AFTER_DIP = 1 then s.fcTryOn d m else s.setFBit d m F.FCH_STATE_DIP_INHIBIT true
  else s

/-- The latched flags of an output clear: OVERLOAD, OVERTEMP and CLAMP_OVER. -/
def State.fcClearLatched (s : State) (d m : Nat) : State := s.setShFld (R.FCH_STATE d m) ⟨10, 8⟩ 0

def State.fcLeaveLockout (s : State) (d m : Nat) : State :=
  let s := (s.setFSt d m oOFF).fcClearLatched d m
  (s.setFBit d m F.FCH_STATE_CLEAR_PENDING false).fcTryOn d m

/-- A clear is applied (Table 10.5, R272 with FC_CLEAR in place of PC_CLEAR). -/
def State.fcClear (s : State) (d m : Nat) : State :=
  let s := s.setFBit d m F.FCH_STATE_DIP_INHIBIT false
  if s.fSt d m = oLOCKOUT then
    if (s.fc d m).temp < 135 * 16 then s.fcLeaveLockout d m else s.setFBit d m F.FCH_STATE_CLEAR_PENDING true
  else if isOutMode (s.fMode d m) then (s.fcClearLatched d m).fcTryOn d m
  else s

/-- Fail action of an output (Table 8.5, R323). -/
def State.fcTakeFail (s : State) (d m : Nat) : State :=
  if isOutMode (s.fMode d m) then
    match s.fcfg d m F.FCH_CFG_FAIL_ACT with
    | 0 => s.fcSetTarget d m 0
    | 1 => s.fcSetTarget d m 1
    | 2 => s
    | _ => (s.modFc d m (fun x => { x with fallback := true })).fcSetTarget d m 2
  else s

/-! ### Configuration (R294 to R323) -/

/-- WET of an input class (R297, R298, Table 10.2). -/
def wetOk (fi : Bool) (md cls wet : Nat) : Bool :=
  if cls ≤ 2 then wet == 0
  else decide (1 ≤ wet ∧ wet ≤ 20) && (!(fi && md == mDIN_STG) || decide (wet ≤ 5))

/-- One channel's configuration words are consistent. `partner` says that channel m + 1 is in CAPTURE with
CAP_KIND 0b10. -/
def fcCfgOk (d m : Nat) (cfg inp aux pwm : Word) (partner : Bool) : Bool :=
  let fi := d == 2
  let md := getF cfg F.FCH_CFG_MODE
  let cls := getF cfg F.FCH_CFG_INCLASS
  let fa := getF cfg F.FCH_CFG_FAIL_ACT
  let per := getF pwm F.FCH_PWM_PER
  let pulsed := getF cfg F.FCH_CFG_PULSED == 1
  let kind := getF aux F.FCH_AUX_CAP_KIND
  let isrc := getF aux F.FCH_AUX_ISRC
  decide (md ≤ 10) && !(fi && (md == 3 || md == 8)) &&
  (md != mDIN_SINK || decide (cls ≤ 4)) && (md != mDIN_STG || cls == 5 || cls == 6) &&
  (md != mCAPTURE || decide (cls ≤ 6)) &&
  (!(isDin md || md == mCAPTURE) || wetOk fi md cls (getF inp F.FCH_IN_WET)) &&
  (md != mCAPTURE || (!pulsed && !((kind == 1 || kind == 3) && getF aux F.FCH_AUX_EDGE == 0) &&
    !(kind == 2 && m % 2 == 0 && !partner))) &&
  (getF cfg F.FCH_CFG_SAFE_EN == 0 || (!pulsed && decide (2 ≤ getF inp F.FCH_IN_FILT_US))) &&
  !(fi && getF cfg F.FCH_CFG_WAKE_EN == 1) &&
  (per == 0 || decide (20 ≤ per ∧ per ≤ 1000000)) &&
  !(isInMode md && getF cfg F.FCH_CFG_OW_EN == 1 && getF inp F.FCH_IN_OW_THR == 0) &&
  decide (getF aux F.FCH_AUX_AVG ≤ 8) &&
  (md != mRES || (isrc != 0 && !(fi && isrc == 3))) &&
  (if isOutMode md then
     (fa != 2 || getF cfg F.FCH_CFG_HOLD_CAPABLE == 1) && (fa != 3 || isPwmMode md)
   else fa == 0)

/-- TARGET fits the mode (FCH_TGTm). -/
def fcTargetOk (md t : Nat) : Bool := t == 0 || (t == 1 && isDout md) || (t == 2 && isPwmMode md)

/-- Channel m + 1 is in CAPTURE with CAP_KIND 0b10, as a commit would leave it. -/
def fcPartner (s : State) (c : Commit) (d m : Nat) : Bool :=
  decide (m + 1 < fcCount d) && s.afterF c (R.FCH_CFG d (m + 1)) F.FCH_CFG_MODE == mCAPTURE &&
    s.afterF c (R.FCH_AUX d (m + 1)) F.FCH_AUX_CAP_KIND == 2

/-- One channel, as a commit would leave it; MODE does not change in ON or PWM (R294). -/
def chkField (s : State) (c : Commit) (d m : Nat) : Bool :=
  let cfg := s.after c (R.FCH_CFG d m)
  let md := getF cfg F.FCH_CFG_MODE
  fcCfgOk d m cfg (s.after c (R.FCH_IN d m)) (s.after c (R.FCH_AUX d m)) (s.after c (R.FCH_PWM d m))
    (fcPartner s c d m) &&
  fcTargetOk md (s.afterF c (R.FCH_TGT d m) F.FCH_TGT_TARGET) &&
  (md == s.fMode d m || !fcConducting (s.fSt d m))

def grpCount (d : Nat) : Nat := if d = 2 then 2 else 7

/-- A commit to a field die is consistent. -/
def chkFch (s : State) (c : Commit) : Bool :=
  let d := c.region
  decide (s.afterF c (R.FCH_DIE_CFG d) F.FCH_DIE_CFG_KEEPALIVE_HOLD ≤ 2000) &&
    (List.range (grpCount d)).all (fun k => decide (s.afterF c (R.FCH_GRP_CFG d k) F.FCH_GRP_CFG_WDIV ≤ 5)) &&
    (List.range (fcCount d)).all (chkField s c d)

/-! ### Dissipation (R302, R303), in watts -/

def pBase (d : Nat) : Frac := if d = 2 then ⟨1, 2⟩ else ⟨6, 5⟩
def pLimit (d : Nat) : Frac := if d = 2 then ⟨3, 2⟩ else ⟨5, 1⟩

/-- Class of the field supply: the lower of FEED3's and FEED6's (R317). -/
def State.fieldClass (s : State) : Nat := min (s.feedClass 3) (s.feedClass 6)

/-- Group duty of a channel's wetting: 1, or 1 / 2^(WDIV + 1) where it is pulsed. -/
def State.wetDuty (s : State) (d m : Nat) : Frac :=
  if s.fcfg d m F.FCH_CFG_PULSED = 1 then ⟨1, 2 ^ (s.shFld (R.FCH_GRP_CFG d (m / 16)) F.FCH_GRP_CFG_WDIV + 1)⟩
  else ⟨1, 1⟩

/-- Nominal source current of RES in amperes. -/
def isrcAmp (c : Nat) : Frac := if c = 1 then ⟨1, 10000⟩ else if c = 2 then ⟨1, 1000⟩ else if c = 3 then ⟨1, 100⟩ else ⟨0, 1⟩

/-- Maximum of WET with its accuracy: ±10 % or ±0.2 mA, whichever is larger, in amperes (R298). -/
def wetMax (wet : Nat) : Frac := if 2 ≤ wet then ⟨11 * (wet : Int), 10000⟩ else ⟨10 * (wet : Int) + 2, 10000⟩

/-- Sink current maximum of an input class, and the highest input voltage of the class. -/
def sinkMax (cls wet : Nat) : Frac :=
  if cls = 0 then ⟨35, 10000⟩ else if cls = 1 then ⟨77, 10000⟩ else if cls = 2 then ⟨28, 10000⟩ else wetMax wet

def sinkVolt (cls : Nat) : Frac := if cls ≤ 2 then ⟨30, 1⟩ else if cls = 3 then ⟨16, 1⟩ else ⟨52, 1⟩

/-- Highest supply of a die's class: 16, 32 or 52 V; VISO, 24 V nominal, for FI. -/
def State.supplyMax (s : State) (d : Nat) : Frac :=
  if d = 2 then ⟨24, 1⟩ else if s.fieldClass = 0 then ⟨16, 1⟩ else if s.fieldClass = 1 then ⟨32, 1⟩ else ⟨52, 1⟩

/-- Planning term of one channel (R302, P_WC has no output terms). -/
def State.planTerm (s : State) (d m : Nat) : Frac :=
  let md := s.fMode d m
  let cls := s.fcfg d m F.FCH_CFG_INCLASS
  let wet := s.shFld (R.FCH_IN d m) F.FCH_IN_WET
  if md = mDIN_SINK then Frac.mul (Frac.mul (sinkVolt cls) (sinkMax cls wet)) (s.wetDuty d m)
  else if md = mDIN_STG then Frac.mul (Frac.mul (s.supplyMax d) (wetMax wet)) (s.wetDuty d m)
  else if md = mRES then Frac.mul (s.supplyMax d) (isrcAmp (s.shFld (R.FCH_AUX d m) F.FCH_AUX_ISRC))
  else .zero

def State.planPower (s : State) (d : Nat) : Frac :=
  Frac.add (pBase d) (Frac.sum ((List.range (fcCount d)).map (s.planTerm d)))

/-- P_WC and BUDGET_WARN after a commit (R303). -/
def State.syncBudget (s : State) (d : Nat) : State :=
  let p := s.planPower d
  (s.setShFld (R.FCH_DIE_POWER d) F.FCH_DIE_POWER_P_WC (Frac.sat 16 (Frac.mul p (Frac.ofInt 100)))).setShBit
    (R.FCH_DIE_STATUS d) F.FCH_DIE_STATUS_BUDGET_WARN (Frac.lt (pLimit d) p)

/-- A voltage on the AIN scale, 60 V / 16,384 per LSB. -/
def ainVolt (n : Nat) : Frac := Frac.mk' (60 * (n : Int)) 16384

/-- Field supply or VISO in volts, 2 mV per LSB. -/
def State.vsup (s : State) (d : Nat) : Frac := Frac.mk' (sext 16 (s.shFld (R.FCH_VSUP d) F.FCH_VSUP_VSUP)) 500

/-- On-resistance of an output (Table 10.4). -/
def fcRon (d : Nat) : Frac := if d = 2 then ⟨25, 1⟩ else ⟨1, 1⟩

/-- Measured term of one channel (R302). -/
def State.dissTerm (s : State) (d m : Nat) : Frac :=
  let md := s.fMode d m
  let w := s.shReg (R.FCH_VAL d m)
  let v := ainVolt (getF w ⟨13, 0⟩)
  let i := Frac.mk' (getF w ⟨31, 16⟩) 100000
  if md = mDIN_SINK then Frac.mul (Frac.mul v i) (s.wetDuty d m)
  else if md = mDIN_STG then Frac.mul (Frac.mul (Frac.sub (s.vsup d) v) i) (s.wetDuty d m)
  else if md = mRES then Frac.mul (Frac.sub (s.vsup d) v) (isrcAmp (s.shFld (R.FCH_AUX d m) F.FCH_AUX_ISRC))
  else if isOutMode md ∧ fcConducting (s.fSt d m) then
    let io := Frac.mk' (sext 16 (getF w ⟨15, 0⟩)) 10000
    Frac.mul (Frac.mul io io) (fcRon d)
  else .zero

/-! ### Frames at a field die -/

/-- A channel takes the mode of a commit: it parks, becomes an input, or an output in OFF. -/
def State.fcEnterMode (s : State) (d m : Nat) : State :=
  let md := s.fMode d m
  let keep := s.shReg (R.FCH_STATE d m) &&& 0x00087000
  let s := s.setSh (R.FCH_STATE d m) keep
  let s := s.modFc d m (fun x => { FcRt.reset with temp := x.temp, urgSeal := x.urgSeal })
  let cut := s.fdBit d F.FCH_DIE_STATUS_SUPPLY_CUT || s.fdBit d F.FCH_DIE_STATUS_SUPPLY_LOST
  if md = mPARK then s.setFSt d m fPARKED
  else if isInMode md then s.setFSt d m fINPUT
  else if cut then s.setFSt d m oDIP
  else s.setFSt d m oOFF

/-- CLEAR in a commit copy. -/
def fcClearIn (d m : Nat) (ws : List RegCell) : Bool :=
  match cellsGet ws (R.FCH_TGT d m) with
  | some v => getF v F.FCH_TGT_CLEAR == 1
  | none => false

def fcSchedIn (d m : Nat) (ws : List RegCell) : Bool :=
  match cellsGet ws (R.FCH_TGT d m) with
  | some v => getF v F.FCH_TGT_SCHED == 1
  | none => false

/-- What an FCH commit does beyond the register values. -/
def State.afterFcCommit (before s : State) (d : Nat) (ws : List RegCell) : State :=
  let s := s.forEach (List.range (fcCount d)) (fun s m =>
    let s := if before.fMode d m ≠ s.fMode d m then s.fcEnterMode d m else s
    let s := s.setFBit d m F.FCH_STATE_WAKE_ARMED (s.fcfg d m F.FCH_CFG_WAKE_EN == 1)
    if fcClearIn d m ws then
      let a := R.FCH_TGT d m
      let s := ((s.setShFld a F.FCH_TGT_CLEAR 0).setShadow .E a (setF (s.shadow .E a) F.FCH_TGT_CLEAR 0)).setShadow
        .W a (setF (s.shadow .W a) F.FCH_TGT_CLEAR 0)
      s.fcClear d m
    else s)
  (s.syncBudget d).syncLines d

/-- A channel takes its record of the frame tagged `cycle` (R148, R257, R624). -/
def State.fcRecord (s : State) (d m cycle : Nat) (sched : Bool) : State :=
  if !isOutMode (s.fMode d m) then s
  else
    let t := s.shFld (R.FCH_TGT d m) F.FCH_TGT_TARGET
    let held := match (s.fc d m).urgSeal with
      | some c => !serialAhead32 cycle c
      | none => false
    if held then s
    else
      let s := (s.modFc d m (fun x => { x with urgSeal := none })).setFBit d m F.FCH_STATE_URGENT_OFF false
      let s := if t = 0 then s.setFBit d m F.FCH_STATE_DIP_INHIBIT false else s
      if sched then
        (s.modFc d m (fun x => { x with sched := some t, fallback := false })).setFBit d m F.FCH_STATE_LATE_SWITCH false
      else if (s.fc d m).sched.isSome then s
      else (s.modFc d m (fun x => { x with fallback := false })).fcSetTarget d m t

/-- FI has applied its configuration: SUPPLY_LOST clears, its outputs leave DIP (R322). -/
def State.endLost (s : State) : State :=
  if s.fdBit 2 F.FCH_DIE_STATUS_SUPPLY_LOST then
    let s := s.setShBit (R.FCH_DIE_STATUS 2) F.FCH_DIE_STATUS_SUPPLY_LOST false
    let s := s.forEach (List.range 32) (fun s m =>
      let s := s.setFBit 2 m F.FCH_STATE_SUPPLY_LOST false
      let s := s.setFBit 2 m F.FCH_STATE_VALID (s.validNow 2 m)
      s.fcRestore 2 m)
    (s.syncLines 2).syncLines 1
  else s

/-- The targets of a frame a field die applies. -/
def State.fieldFrame (s : State) (d cycle : Nat) (news : List RegCell) : State :=
  let s := s.setFd d { s.fd d with configured := true }
  let s := s.setShBit (R.FCH_DIE_STATUS d) F.FCH_DIE_STATUS_KA_LOST false
  let s := if d = 2 then s.endLost else s
  s.forEach (List.range (fcCount d)) (fun s m => s.fcRecord d m cycle (fcSchedIn d m news))

/-- An urgent safe-state command at a field die (R257, R323). -/
def State.urgentField (s : State) (d : Nat) (u : Urgent) : State :=
  let s := s.forEach (maskBits (fcCount d) u.mask) (fun s m =>
    if isOutMode (s.fMode d m) then
      let s := (s.modFc d m (fun x => { x with urgSeal := some u.sealCyc, sched := none })).setFBit d m
        F.FCH_STATE_URGENT_OFF true
      if u.act = 1 then s.fcSetTarget d m 0 else s.fcTakeFail d m
    else s)
  s.setShBit (R.FCH_DIE_STATUS d) F.FCH_DIE_STATUS_URGENT_APPLIED true

def State.fcStartSched (s : State) (d m : Nat) (late : Bool) : State :=
  match (s.fc d m).sched with
  | some t =>
    let s := s.modFc d m (fun x => { x with sched := none })
    let s := if late then s.setFBit d m F.FCH_STATE_LATE_SWITCH true else s
    s.fcSetTarget d m t
  | none => s

def State.failField (s : State) (d : Nat) : State :=
  (s.forEach (List.range (fcCount d)) (fun s m => s.fcTakeFail d m)).setShBit (R.FCH_DIE_STATUS d)
    F.FCH_DIE_STATUS_FAIL_APPLIED true

/-- Address range of a field die's registers without the lanes' mirrors. -/
def fieldRange (d : Nat) : Nat × Nat := (0xE0800000 + 0x40000 * d, 0xE0808000 + 0x40000 * d)

/-- A field die powers up: every channel is parked until a commit (R319). -/
def State.restartField (s : State) (d : Nat) : State :=
  (s.forEach (List.range (fcCount d)) (fun s m => s.setFc d m .reset)).setFd d .reset

/-! ### Commands (Tables 10.8 and 10.9) -/

def fcMask (r : Req) : List Nat := maskBits 256 (r.u 0 32)

def fcWorld (ns : Req → List Nat) (s : State) (r : Req) : Option Nat := s.worldOf r (R.LHS_WATTR_FC 0) (ns r)

/-- Each named channel's die answers, and SUPPLY_LOST is clear for FI. -/
def fcReach (s : State) (ns : List Nat) : Bool :=
  ns.all (fun n => s.reachable (fieldDie (fcDie n)) &&
    !(fcDie n == 2 && s.fdBit 2 F.FCH_DIE_STATUS_SUPPLY_LOST))

def specFcSet : CmdSpec :=
  { opcode := 0x0300, accepted := true, lenOk := fun r => r.length == 42, world := fcWorld fcMask,
    param := fun _ r => decide (r.u 0 32 ≠ 0) && decide (r.u8 32 ≤ 2) && decide (r.u8 33 ≤ 1) &&
      decide (r.u16 38 ≤ 1024) && (r.u8 32 == 2 || r.u16 38 == 0) && r.u16 40 == 0,
    stateOk := fun s r => (fcMask r).all (fun n =>
      fcTargetOk (s.cfgFld r (R.FCH_CFG (fcDie n) (fcIx n)) F.FCH_CFG_MODE) (r.u8 32)),
    reachOk := fun s r => fcReach s (fcMask r),
    exec := fun s r lsn => s.commitDies 8 [0, 1, 2] (fun d => ((onDie fcDie (fcMask r) d).map (fun n =>
      let m := fcIx n
      [(R.FCH_TGT d m, BitVec.ofNat 32 (r.u8 32 + 4 * r.u8 33)), (R.FCH_SWPH d m, r.w 34)] ++
        (if r.u8 32 = 2 then [s.cfgSet r (R.FCH_DUTY d m) F.FCH_DUTY_DUTY (r.u16 38)] else []))).flatten) lsn }

/-- Partner of an encoder in the configuration that accepted commands have left. -/
def cfgPartner (s : State) (r : Req) (d m : Nat) : Bool :=
  decide (m + 1 < fcCount d) && s.cfgFld r (R.FCH_CFG d (m + 1)) F.FCH_CFG_MODE == mCAPTURE &&
    s.cfgFld r (R.FCH_AUX d (m + 1)) F.FCH_AUX_CAP_KIND == 2

def specFcConfig : CmdSpec :=
  { opcode := 0x0301, accepted := true, lenOk := fun r => r.length == 24, world := fcWorld (fun r => [r.u16 0]),
    perm := fun s r =>
      let a := R.FCH_CFG (fcDie (r.u16 0)) (fcIx (r.u16 0))
      r.src.isChief || (s.cfgFld r a F.FCH_CFG_HOLD_CAPABLE == getF (r.w 4) F.FCH_CFG_HOLD_CAPABLE &&
        s.cfgFld r a F.FCH_CFG_SAFE_EN == getF (r.w 4) F.FCH_CFG_SAFE_EN),
    param := fun s r =>
      let d := fcDie (r.u16 0)
      let m := fcIx (r.u16 0)
      decide (r.u16 0 ≤ 255) && r.u16 2 == 0 &&
        fcCfgOk d m (r.w 4) (r.w 8) (r.w 12) (r.w 16) (cfgPartner s r d m),
    stateOk := fun s r =>
      let d := fcDie (r.u16 0)
      let m := fcIx (r.u16 0)
      let l := (s.servedBy r.lane).getD r.lane
      s.cfgFld r (R.FCH_CFG d m) F.FCH_CFG_MODE == getF (r.w 4) F.FCH_CFG_MODE ||
        !fcConducting (s.fld l (R.FCH_MIR d m 0) F.FCH_STATE_STATE),
    reachOk := fun s r => fcReach s [r.u16 0],
    exec := fun s r lsn =>
      let d := fcDie (r.u16 0)
      let m := fcIx (r.u16 0)
      s.commitShared 8 d [(R.FCH_CFG d m, r.w 4), (R.FCH_IN d m, r.w 8), (R.FCH_AUX d m, r.w 12),
        (R.FCH_PWM d m, r.w 16), (R.FCH_DUTY d m, r.w 20)] lsn }

def grpDie (g : Nat) : Nat := if g < 7 then 0 else if g < 14 then 1 else 2

def specFcGroupConfig : CmdSpec :=
  { opcode := 0x0302, accepted := true, lenOk := fun r => r.length == 8, perm := fun _ r => r.src.isChief,
    param := fun _ r => decide (r.u8 0 ≤ 15) && r.u 1 3 == 0 && decide (getF (r.w 4) F.FCH_GRP_CFG_WDIV ≤ 5),
    reachOk := fun s r => s.reachable (fieldDie (grpDie (r.u8 0))) &&
      !(grpDie (r.u8 0) == 2 && s.fdBit 2 F.FCH_DIE_STATUS_SUPPLY_LOST),
    exec := fun s r lsn =>
      let d := grpDie (r.u8 0)
      s.commitShared 8 d [(R.FCH_GRP_CFG d (r.u8 0 - 7 * d), r.w 4)] lsn }

def specFcDieConfig : CmdSpec :=
  { opcode := 0x0303, accepted := true, lenOk := fun r => r.length == 8, perm := fun _ r => r.src.isChief,
    param := fun _ r => decide (1 ≤ r.u8 0 ∧ r.u8 0 ≤ 7) && r.u 1 3 == 0 &&
      decide (getF (r.w 4) F.FCH_DIE_CFG_KEEPALIVE_HOLD ≤ 2000) &&
      (r.u8 0 != 4 || (getF (r.w 4) F.FCH_DIE_CFG_WK_PER_M1 == 0 && getF (r.w 4) F.FCH_DIE_CFG_WK_FILT_M1 == 0)),
    exec := fun s r lsn => s.commitDies 8 (maskBits 3 (r.u8 0)) (fun d =>
      [(R.FCH_DIE_CFG d, if d = 2 then r.w 4 &&& 0x7FF else r.w 4)]) lsn }

def specFcClear : CmdSpec :=
  { opcode := 0x0304, accepted := true, lenOk := fun r => r.length == 36, world := fcWorld fcMask,
    param := fun _ r => decide (r.u 0 32 ≠ 0) && decide (r.u8 32 ≤ 1) && r.u 33 3 == 0,
    reachOk := fun s r => fcReach s (fcMask r),
    exec := fun s r lsn => s.commitDies 8 [0, 1, 2] (fun d => (onDie fcDie (fcMask r) d).map (fun n =>
      let t := if r.u8 32 = 1 then 0 else s.cfgFld r (R.FCH_TGT d (fcIx n)) F.FCH_TGT_TARGET
      (R.FCH_TGT d (fcIx n), BitVec.ofNat 32 (t + 8)))) lsn }

def fcRange (r : Req) : List Nat := (List.range (r.u8 2)).map (· + r.u16 0)

def specFcStatus : CmdSpec :=
  { opcode := 0x0305, accepted := false, lenOk := fun r => r.length == 4, maxResp := 112, world := fcWorld fcRange,
    param := fun _ r => decide (r.u16 0 ≤ 255) && decide (1 ≤ r.u8 2 ∧ r.u8 2 ≤ 7) && r.u8 3 == 0 &&
      decide (r.u16 0 + r.u8 2 ≤ 256),
    answer := fun s r => ((fcRange r).map (fun n =>
      s.regBytes ((s.servedBy r.lane).getD r.lane) (R.FCH_MIR (fcDie n) (fcIx n) 0) 4)).flatten }

/-- Bits of a flag over FC000 to FC255, from a lane's mirror. -/
def fcBits (s : State) (l : Lane) (f : Fld) : List Byte :=
  leBytes 32 (bitsOf ((List.range 256).filter (fun n => s.bit l (R.FCH_MIR (fcDie n) (fcIx n) 0) f)))

def specFcInputs : CmdSpec :=
  { opcode := 0x0306, accepted := false, lenOk := fun r => r.length == 0, maxResp := 64,
    answer := fun s r =>
      let l := (s.servedBy r.lane).getD r.lane
      fcBits s l F.FCH_STATE_LEVEL ++ fcBits s l F.FCH_STATE_VALID }

def specFcDieStatus : CmdSpec :=
  { opcode := 0x0307, accepted := false, lenOk := fun r => r.length == 1, maxResp := 16,
    param := fun _ r => r.u8 0 == 1 || r.u8 0 == 2 || r.u8 0 == 4,
    answer := fun s r =>
      let d := if r.u8 0 = 1 then 0 else if r.u8 0 = 2 then 1 else 2
      wordBytes (s.shReg (R.FCH_DIE_STATUS d)) ++ wordBytes (s.shReg (R.FCH_DIE_POWER d)) ++
        wordBytes (s.shReg (R.FCH_SAFE d)) ++ wordBytes (s.shReg (R.FCH_VSUP d)) }

/-- Target record of a field output's safe state; an input has none. -/
def fcSafeRecord (s : State) (r : Req) (d m act : Nat) : List RegCell :=
  let a := R.FCH_TGT d m
  let fa := if act = 1 then 0 else s.cfgFld r (R.FCH_CFG d m) F.FCH_CFG_FAIL_ACT
  if !isOutMode (s.cfgFld r (R.FCH_CFG d m) F.FCH_CFG_MODE) then []
  else if fa = 0 then [(a, 0)]
  else if fa = 1 then [(a, 1)]
  else if fa = 2 then [(a, BitVec.ofNat 32 (s.cfgFld r a F.FCH_TGT_TARGET))]
  else [(a, 2), s.cfgSet r (R.FCH_DUTY d m) F.FCH_DUTY_DUTY (s.cfgFld r (R.FCH_DUTY d m) F.FCH_DUTY_FALLBACK)]

/-- FC_SAFE_STATE; where only inputs are masked nothing is to be done and it is DONE at once (R326). -/
def specFcSafeState : CmdSpec :=
  { opcode := 0x0308, accepted := true, lenOk := fun r => r.length == 36, world := fcWorld fcMask, urgentOk := true,
    param := fun _ r => decide (r.u 0 32 ≠ 0) && (r.u8 32 == 1 || r.u8 32 == 2) && r.u 33 3 == 0,
    reachOk := fun s r => fcReach s (fcMask r),
    exec := fun s r lsn =>
      let ws := fun d => ((onDie fcDie (fcMask r) d).map (fun n => fcSafeRecord s r d (fcIx n) (r.u8 32))).flatten
      let s := s.commitDies 8 [0, 1, 2] ws lsn
      let s := s.forEach [0, 1, 2] (fun s d =>
        if ws d = [] then s
        else s.sendUrgent (fieldDie d) (bitsOf ((onDie fcDie (fcMask r) d).map fcIx)) (r.u8 32) lsn)
      s.settle lsn }

def execFcSet (r : Req) (s : State) : Host.Outcome State Fault Refusal := runScs specFcSet r s
def execFcConfig (r : Req) (s : State) : Host.Outcome State Fault Refusal := runScs specFcConfig r s
def execFcGroupConfig (r : Req) (s : State) : Host.Outcome State Fault Refusal := runScs specFcGroupConfig r s
def execFcDieConfig (r : Req) (s : State) : Host.Outcome State Fault Refusal := runScs specFcDieConfig r s
def execFcClear (r : Req) (s : State) : Host.Outcome State Fault Refusal := runScs specFcClear r s
def execFcStatus (r : Req) (s : State) : Host.Outcome State Fault Refusal := runScs specFcStatus r s
def execFcInputs (r : Req) (s : State) : Host.Outcome State Fault Refusal := runScs specFcInputs r s
def execFcDieStatus (r : Req) (s : State) : Host.Outcome State Fault Refusal := runScs specFcDieStatus r s
def execFcSafeState (r : Req) (s : State) : Host.Outcome State Fault Refusal := runScs specFcSafeState r s

end Sys2Proof.Machine
end

