-- ==== Sys2Proof/Machine/FieldEvents.lean ====
section
/-! DEFINITION. What happens at the field dies: samples, conversions, edges, protection and supply events of
spec/10. A comparison of an input with its class's thresholds (Table 10.3) is a fact that the event reports. -/

namespace Sys2Proof.Machine

def State.liveFc (s : State) (d m : Nat) : Bool :=
  decide (d < 3) && decide (m < fcCount d) && (s.die (fieldDie d)).up

/-! ### Digital inputs (R296, R299 to R301, R316) -/

/-- A flag of an input follows its condition. -/
def State.inFlags (s : State) (d m : Nat) (ovr hot : Bool) : State :=
  (s.setFBit d m F.FCH_STATE_OVERLOAD ovr).setFBit d m F.FCH_STATE_OVERTEMP hot

/-- An unpulsed input's filter completes: the level is taken, with the voltage and current FCH_VALm reports. -/
def execFieldInputSample (d m : Nat) (active ovr hot : Bool) (val : Word) (s : State) :
    Host.Outcome State Fault Refusal :=
  let md := s.fMode d m
  let t := (s.setSh (R.FCH_VAL d m) val).inFlags d m ovr hot
  onLive (s.liveFc d m && ((isDin md && s.fcfg d m F.FCH_CFG_PULSED == 0) || md == mCAPTURE)) s
    (t.takeLevel d m active)

/-- One pulsed input at its group's sample: a new level is taken when two consecutive samples agree. -/
def State.pulseSample (s : State) (d m : Nat) (active : Bool) (val : Word) : State :=
  if isDin (s.fMode d m) && s.fcfg d m F.FCH_CFG_PULSED == 1 then
    let prev := (s.fc d m).lastSample
    let s := (s.setSh (R.FCH_VAL d m) val).modFc d m (fun x => { x with lastSample := some active })
    if prev = some active then s.takeLevel d m active else s
  else s

/-- A wetting pulse of group `k` of a die: bit i of `acts` is the sample of its channel i. -/
def execWettingPulse (d k acts : Nat) (vals : List Word) (s : State) : Host.Outcome State Fault Refusal :=
  onLive (decide (d < 3) && decide (k < grpCount d) && (s.die (fieldDie d)).up) s
    (s.forEach (List.range 16) (fun s i => s.pulseSample d (16 * k + i) (acts.testBit i) ((vals[i]?).getD 0)))

/-! ### Outputs (R305, R306) -/

def fcSingle (d : Nat) : Nat := if d = 2 then 10 else 200

/-- The 10 µs evaluation of a field output, with its local sensor and the running energy of its clamp interval
(0.1 mJ, none where none runs), in the order of Table 10.5. -/
def State.fcEvaluate (s : State) (d m : Nat) (val : Word) (temp : Int) (clampE : Option Nat) : State :=
  let s := (s.setSh (R.FCH_VAL d m) val).modFc d m (fun x =>
    { x with temp := temp, clamping := x.clamping && clampE.isSome })
  if s.fSt d m ≠ oLOCKOUT ∧ 150 * 16 ≤ temp then s.fcLockout d m F.FCH_STATE_OVERTEMP
  else
    let ovr := match clampE with
      | some e => Frac.lt (clampScaled (fcSingle d) (s.fc d m).clampTj) (Frac.ofInt e)
      | none => false
    if ovr then (s.setFBit d m F.FCH_STATE_CLAMP_OVER true).fcLockout d m F.FCH_STATE_CLAMP_OVER
    else if s.fSt d m = oLOCKOUT ∧ s.fBit d m F.FCH_STATE_CLEAR_PENDING = true ∧ temp < 135 * 16 then
      s.fcLeaveLockout d m
    else s

def execFcOutputEvaluation (d m : Nat) (val : Word) (temp : Int) (clampE : Option Nat) (s : State) :
    Host.Outcome State Fault Refusal :=
  onLive (s.liveFc d m && isOutMode (s.fMode d m)) s (s.fcEvaluate d m val temp clampE)

/-- Current at the limit for 100 µs: any state but LOCKOUT and DIP. -/
def execFcOverload (d m : Nat) (s : State) : Host.Outcome State Fault Refusal :=
  onLive (s.liveFc d m && isOutMode (s.fMode d m) && s.fSt d m != oDIP) s (s.fcLockout d m F.FCH_STATE_OVERLOAD)

/-- A field PWM output starts a period; on-times and off-times shorter than 8 µs vanish (R306). -/
def execFcPwmPeriodStart (d m : Nat) (s : State) : Host.Outcome State Fault Refusal :=
  let duty := s.shFld (R.FCH_DUTY d m) (if (s.fc d m).fallback then F.FCH_DUTY_FALLBACK else F.FCH_DUTY_DUTY)
  let g := pwmGate (s.shFld (R.FCH_PWM d m) F.FCH_PWM_PER) duty 4
  onLive (s.liveFc d m && s.fSt d m == oPWM) s (s.modFc d m (fun x => { x with gate := g }))

/-! ### Analog and resistive inputs (R308, R309) -/

def execAinConversion (d m raw : Nat) (hot : Bool) (s : State) : Host.Outcome State Fault Refusal :=
  let md := s.fMode d m
  let n := 2 ^ s.shFld (R.FCH_AUX d m) F.FCH_AUX_AVG
  let conv := (min raw 16383 :: (s.fc d m).conv).take n
  let mean := conv.foldl (· + ·) 0 / conv.length
  let t := s.modFc d m (fun x => { x with conv := conv, filtered := true })
  let t := t.setShFld (R.FCH_VAL d m) ⟨13, 0⟩ mean
  let t := t.inFlags d m (md == mAIN && decide (16383 < raw)) hot
  onLive (s.liveFc d m && (md == mAIN || md == mRES)) s (t.syncValid d m)

/-- OPEN_WIRE of an input, or of an output's off-state test (Table 10.7, R307); suspended with the other
diagnostics of the field supply (R317). -/
def execFcOpenWire (d m : Nat) (present : Bool) (s : State) : Host.Outcome State Fault Refusal :=
  let md := s.fMode d m
  let en := s.fcfg d m F.FCH_CFG_OW_EN == 1
  let applies := ((isDin md || md == mCAPTURE) && en) || md == mRES || (isOutMode md && en && s.fSt d m == oOFF)
  onLive (s.liveFc d m && applies && !s.fBit d m F.FCH_STATE_DIAG_SUSPENDED) s
    ((s.setFBit d m F.FCH_STATE_OPEN_WIRE present).syncValid d m)

/-! ### Capture (R310); times in 5 ns units of CD6 -/

/-- A difference of edge times as a 32-bit reading; beyond 2^32 units it reads all ones. -/
def span32 (a b : Nat) : Nat := min (b - a) (2 ^ 32 - 1)

def edgeSelected (edge : Nat) (rising : Bool) : Bool := if rising then edge.testBit 0 else edge.testBit 1

/-- One quadrature step of tracks (A, B): up when A leads B. -/
def quadStep (a b a' b' : Bool) : Int :=
  if a = a' ∧ b = b' then 0
  else if a ≠ a' then (if a' = b then -1 else 1)
  else (if b' = a then 1 else -1)

/-- Period and duty: a rising edge completes a period. -/
def State.capPeriod (s : State) (d m : Nat) (rising : Bool) (t : Nat) : State :=
  let x := s.fc d m
  if rising then
    let s := match x.lastRise with
      | some r =>
        let s := s.setSh (R.FCH_CAP d m) (BitVec.ofNat 32 (span32 r t))
        match x.lastFall with
        | some f => if r ≤ f then s.setSh (R.FCH_CAP2 d m) (BitVec.ofNat 32 (span32 r f)) else s
        | none => s
      | none => s
    s.modFc d m (fun x => { x with lastRise := some t })
  else s.modFc d m (fun x => { x with lastFall := some t })

/-- Encoder: an edge on track A (even m) or B counts in the even channel. -/
def State.capEncoder (s : State) (d m : Nat) (rising : Bool) : State :=
  let e := m - m % 2
  let a := (s.fc d e).capLevel
  let b := (s.fc d (e + 1)).capLevel
  let step := if m % 2 = 0 then quadStep a b rising b else quadStep a b a rising
  let s := s.modFc d m (fun x => { x with capLevel := rising })
  let n := sext 32 (s.shReg (R.FCH_CNT d e)).toNat + step
  (s.setSh (R.FCH_CNT d e) (BitVec.ofNat 32 (uext 32 n))).setSh (R.FCH_CNT d (e + 1)) 0

def execCaptureEdge (d m : Nat) (rising : Bool) (t : Nat) (s : State) : Host.Outcome State Fault Refusal :=
  let aux := s.shReg (R.FCH_AUX d m)
  let sel := edgeSelected (getF aux F.FCH_AUX_EDGE) rising
  onLive (s.liveFc d m && s.fMode d m == mCAPTURE) s
    (match getF aux F.FCH_AUX_CAP_KIND with
     | 0 => s.capPeriod d m rising t
     | 1 => if sel then s.setSh (R.FCH_CNT d m) (s.shReg (R.FCH_CNT d m) + 1) else s
     | 2 => s.capEncoder d m rising
     | _ => if sel then { s with stamps := (s.stamps ++ [(fcNum d m, t)]).drop (s.stamps.length + 1 - 64) } else s)

/-! ### Charge pilot (R311, R312); levels in 10 mV -/

def setPos (w : Word) (v : Int) : Word := setF w ⟨15, 0⟩ (uext 16 v)
def setNeg (w : Word) (v : Int) : Word := setF w ⟨31, 16⟩ (uext 16 v)

/-- An edge closes a plateau: POS at a falling edge, NEG at a rising one, unless it was shorter than 20 µs; a
rising edge gives PERIOD and DUTY. -/
def execPilotEdge (d m : Nat) (rising : Bool) (t : Nat) (plateau : Int) (s : State) :
    Host.Outcome State Fault Refusal :=
  let x := s.fc d m
  let opened := if rising then x.lastFall else x.lastRise
  let long := match opened with
    | some o => decide (o + 4000 ≤ t)
    | none => false
  let w := s.shReg (R.FCH_VAL d m)
  let s1 := if long then s.setSh (R.FCH_VAL d m) (if rising then setNeg w plateau else setPos w plateau) else s
  let s2 := if rising then
      match x.lastRise with
      | some r =>
        let per := span32 r t
        let hi := match x.lastFall with
          | some f => f - r
          | none => 0
        (s1.setSh (R.FCH_CAP d m) (BitVec.ofNat 32 per)).setShFld (R.FCH_CAP2 d m) ⟨15, 0⟩
          (if per = 0 then 0 else 10000 * hi / per)
      | none => s1
    else s1
  let s3 := s2.modFc d m (fun y => if rising then { y with lastRise := some t } else { y with lastFall := some t })
  onLive (s.liveFc d m && s.fMode d m == mPILOT) s (s3.setShFld (R.FCH_CAP2 d m) ⟨19, 19⟩ 1)

def inBand (v lo hi : Int) : Bool := decide (lo ≤ v) && decide (v ≤ hi)

/-- Pilot state of Table 10.6; E and F from a DC level only, F from NEG. -/
def pilotState (osc : Bool) (pos neg : Int) : Nat :=
  if inBand pos 1100 1300 then 1
  else if inBand pos 800 1000 then 2
  else if inBand pos 500 700 then 3
  else if inBand pos 200 400 then 4
  else if !osc && inBand pos (-100) 100 then 5
  else if !osc && inBand neg (-1300) (-1100) then 6
  else 0

/-- A DC level measured while no edge arrives. -/
def State.pilotDc (s : State) (d m : Nat) (dc : Int) : State :=
  let w := s.shReg (R.FCH_VAL d m)
  s.setSh (R.FCH_VAL d m) (setNeg (setPos w dc) dc)

/-- Three agreeing periods, or 3 ms at a DC level: the reported state is taken. A level beyond ±15 V sets
OVERLOAD. -/
def execPilotStateChange (d m : Nat) (dc : Int) (s : State) : Host.Outcome State Fault Refusal :=
  let osc := s.shFld (R.FCH_CAP2 d m) ⟨19, 19⟩ == 1
  let t := if osc then s else s.pilotDc d m dc
  let w := t.shReg (R.FCH_VAL d m)
  let pos := sext 16 (getF w ⟨15, 0⟩)
  let neg := sext 16 (getF w ⟨31, 16⟩)
  let t := t.setShFld (R.FCH_CAP2 d m) ⟨18, 16⟩ (pilotState osc pos neg)
  let t := t.setFBit d m F.FCH_STATE_OVERLOAD (decide (1500 < pos) || decide (neg < -1500))
  let t := t.modFc d m (fun x => { x with filtered := true })
  onLive (s.liveFc d m && s.fMode d m == mPILOT) s (t.syncValid d m)

/-- No edge for 2 ms: OSC is 0 and POS holds the DC mean. -/
def execPilotOscTimeout (d m : Nat) (dc : Int) (s : State) : Host.Outcome State Fault Refusal :=
  onLive (s.liveFc d m && s.fMode d m == mPILOT) s
    ((s.setShFld (R.FCH_CAP2 d m) ⟨19, 19⟩ 0).pilotDc d m dc)

/-! ### Dissipation (R303) -/

def execDissipationEstimate (d : Nat) (s : State) : Host.Outcome State Fault Refusal :=
  let p := Frac.add (pBase d) (Frac.sum ((List.range (fcCount d)).map (s.dissTerm d)))
  let hist := (p :: (s.fd d).diss).take 1000
  let avg := Frac.divN (Frac.sum hist) 1000
  let t := s.setFd d { s.fd d with diss := hist }
  let t := t.setShFld (R.FCH_DIE_POWER d) F.FCH_DIE_POWER_P_EST (Frac.sat 16 (Frac.mul avg (Frac.ofInt 100)))
  onLive (decide (d < 3) && (s.die (fieldDie d)).up) s
    (t.setShBit (R.FCH_DIE_STATUS d) F.FCH_DIE_STATUS_DISS_OVER (Frac.lt (pLimit d) avg))

/-! ### Field supply (R317, R318, R320 to R322); volts in 2 mV units -/

/-- A channel flag set on every channel of a die, with VALID following. -/
def State.flagAll (s : State) (d : Nat) (f : Fld) (b : Bool) : State :=
  (s.forEach (List.range (fcCount d)) (fun s m =>
    let s := s.setFBit d m f b
    s.setFBit d m F.FCH_STATE_VALID (s.validNow d m))).syncLines d

def State.setVsup (s : State) (d : Nat) (v : Int) : State := s.setShFld (R.FCH_VSUP d) F.FCH_VSUP_VSUP (uext 16 v)

/-- Diagnostics of a field die suspended or resumed. -/
def State.fdSuspend (s : State) (d : Nat) (b : Bool) : State :=
  (s.setShBit (R.FCH_DIE_STATUS d) F.FCH_DIE_STATUS_DIAG_SUSPENDED b).flagAll d F.FCH_STATE_DIAG_SUSPENDED b

def State.fdLow (s : State) (d : Nat) (b : Bool) : State :=
  (s.setShBit (R.FCH_DIE_STATUS d) F.FCH_DIE_STATUS_SUPPLY_LOW b).flagAll d F.FCH_STATE_SUPPLY_LOW b

/-- A qualified crossing of the warning level, falling or rising; `resumed` says that 10 ms have passed since
the release. -/
def execFieldSupplyWarning (d : Nat) (v : Int) (resumed : Bool) (s : State) : Host.Outcome State Fault Refusal :=
  let k := s.fieldClass
  let t := s.setVsup d v
  onLive (decide (d < 2) && (s.die (fieldDie d)).up) s
    (if v < lvlWarn k then (t.fdLow d true).fdSuspend d true
     else if lvlWarnRel k < v then
       let t := t.fdLow d false
       if resumed then t.fdSuspend d false else t
     else t)

/-- SUPPLY_LOST for FI (R321): its outputs go to DIP, its inputs are not valid, F1 asserts the lines of
SAFE_POL 1, and commands whose frames FI has not applied become undeliverable (R326). -/
def State.loseFi (s : State) : State :=
  if s.fdBit 2 F.FCH_DIE_STATUS_SUPPLY_LOST then s
  else
    let s := s.setShBit (R.FCH_DIE_STATUS 2) F.FCH_DIE_STATUS_SUPPLY_LOST true
    let s := s.forEach (List.range 32) (fun s m => s.fcDip 2 m)
    let s := (s.flagAll 2 F.FCH_STATE_SUPPLY_LOST true).syncLines 1
    s.dropDie 8 2

/-- The falling hold crossing of the field supply: outputs go to DIP; F1 stops driving the barrier. -/
def execFieldHoldCrossing (d : Nat) (v : Int) (s : State) : Host.Outcome State Fault Refusal :=
  let t := s.setVsup d v
  onLive (decide (d < 2) && (s.die (fieldDie d)).up) s
    (if v < lvlHold s.fieldClass then
       let t := t.setShBit (R.FCH_DIE_STATUS d) F.FCH_DIE_STATUS_SUPPLY_CUT true
       let t := t.forEach (List.range 112) (fun s m => s.fcDip d m)
       if d = 1 then t.loseFi else t
     else t)

/-- 1 ms above the recovery level: every output in DIP leaves it at once. -/
def execFieldRecovery (d : Nat) (v : Int) (s : State) : Host.Outcome State Fault Refusal :=
  let t := s.setVsup d v
  onLive (decide (d < 2) && (s.die (fieldDie d)).up) s
    (if lvlRecovery s.fieldClass < v then
       (t.setShBit (R.FCH_DIE_STATUS d) F.FCH_DIE_STATUS_SUPPLY_CUT false).forEach (List.range 112)
         (fun s m => s.fcRestore d m)
     else t)

/-- VISO below 18.0 V for 20 µs, or no status across the barrier for 50 µs (R321). -/
def execSupplyLost (s : State) : Host.Outcome State Fault Refusal := .next s.loseFi

end Sys2Proof.Machine
end

