-- ==== Sys2Proof/Machine/Tide.lean ====
section
/-! DEFINITION. The tide engine (spec/11): the accumulator, following a source, the consistency of a tide
configuration, the event table with its records for the frames, and the 0x04xx commands. -/

namespace Sys2Proof.Machine

/-! ### Parts of the state -/

def State.tide (s : State) : Lane → TideRt
  | .E => s.tideE
  | .W => s.tideW

def State.setTide (s : State) (l : Lane) (x : TideRt) : State :=
  match l with
  | .E => { s with tideE := x }
  | .W => { s with tideW := x }

def State.modTide (s : State) (l : Lane) (f : TideRt → TideRt) : State := s.setTide l (f (s.tide l))

def TideRt.phase (t : TideRt) : Nat := t.acc / 65536

def turn32 : Nat := 2 ^ 32
def turn48 : Nat := 2 ^ 48

def State.tBit (s : State) (l : Lane) (f : Fld) : Bool := s.bit l R.TIDE_STATUS f
def State.setTBit (s : State) (l : Lane) (f : Fld) (b : Bool) : State := s.setBitF l R.TIDE_STATUS f b

/-- The tide of a lane runs: the lane is powered, not in SYS or POR reset, its TIDE neither in reset nor gated, and not frozen (R125, R329, R345). -/
def State.tideRuns (s : State) (l : Lane) : Bool := s.forwards l && !(s.lane l).blocksInReset.contains 0 && s.blockOn l 9 && !s.mod_.frozen

/-! ### Increments and rates (R327, R328) -/

def incMin : Nat := 70369
def incMax : Nat := 70368744178
def incOk (n : Nat) : Bool := decide (incMin ≤ n) && decide (n ≤ incMax)

/-- A turn frequency in Hz as an increment: f × 2^48 / 400 MHz. -/
def incOfFreq (f : Frac) : Nat := (Frac.divN (Frac.mul f (Frac.ofInt (turn48 : Nat))) 400000000).floor.toNat

def freqOfInc (n : Nat) : Frac := Frac.mk' (400000000 * (n : Int)) turn48

/-- The tide runs for `us` microseconds of 400 ticks each; wraps advance TURN. -/
def TideRt.run (t : TideRt) (us : Nat) : TideRt :=
  let a := t.acc + 400 * us * t.inc
  let w := a / turn48
  { t with acc := a % turn48, turn := (t.turn + w) % turn32, turnsDue := t.turnsDue + w }

/-! ### Sources (Table 11.2) -/

def srcFREE : Nat := 0
def srcMAINS : Nat := 1
def srcTB : Nat := 2
def srcEXT : Nat := 3

def State.tideSrc (s : State) (l : Lane) : Nat := s.fld l R.TIDE_CFG F.TIDE_CFG_SRC
def State.tideTb (s : State) (l : Lane) : Nat := s.fld l R.TIDE_CFG F.TIDE_CFG_TB_SEL
def State.freeInc (s : State) (l : Lane) : Nat :=
  (s.reg l R.TIDE_FREE_INC_LO).toNat + turn32 * s.fld l R.TIDE_FREE_INC_HI F.TIDE_FREE_INC_HI_INC_HI

def State.tbRunning (s : State) (n : Nat) : Bool := s.shBit (R.TIME_TB_STAT n) F.TIME_TB_STAT_RUNNING

def State.extPpt (s : State) (l : Lane) : Nat := s.fld l R.TIDE_EXT_CFG F.TIDE_EXT_CFG_PPT_M1 + 1

/-- The selected source is locked. -/
def State.srcLocked (s : State) (l : Lane) : Bool :=
  match s.tideSrc l with
  | 0 => true
  | 1 => s.bit l R.TIDE_MPLL_STAT F.TIDE_MPLL_STAT_LOCK
  | 2 => s.tbRunning (s.tideTb l)
  | _ => s.bit l R.TIDE_EXT_STAT F.TIDE_EXT_STAT_LOCK

def twoPi : Frac := Frac.mul (Frac.ofInt 2) Config.piF

/-- Reference rate of the selected source, as an increment (pulse intervals are in 5 ns units of two ticks). -/
def State.refInc (s : State) (l : Lane) : Nat :=
  match s.tideSrc l with
  | 0 => s.freeInc l
  | 1 => incOfFreq (Frac.div (s.tide l).omega twoPi)
  | 2 => turn48 * 10 / (4 * (s.fld l R.TIDE_TB_PERIOD F.TIDE_TB_PERIOD_PERIOD_NS))
  | _ => match (s.tide l).extInt with
    | some t => turn48 / (2 * t * s.extPpt l)
    | none => s.freeInc l

/-- Reference phase of the selected source (Table 11.2). -/
def State.refPhase (s : State) (l : Lane) : Nat :=
  match s.tideSrc l with
  | 0 => (s.tide l).phase
  | 1 =>
    let x := Frac.div (Frac.add (s.tide l).theta (Frac.divN Config.piF 2)) twoPi
    let fr := Frac.sub x (Frac.ofInt x.floor)
    ((Frac.mul fr (Frac.ofInt (turn32 : Nat))).floor.toNat + (s.reg l R.TIDE_MPLL_OFS).toNat) % turn32
  | 2 =>
    let p := s.fld l R.TIDE_TB_PERIOD F.TIDE_TB_PERIOD_PERIOD_NS
    s.tbNs (s.tideTb l) % p * turn32 / p
  | _ => ((s.tide l).extJ * turn32 / s.extPpt l + (s.reg l R.TIDE_EXT_OFS).toNat) % turn32

/-- The increment while a difference is removed: SLEW_PCT per cent above or below the reference rate (R331). -/
def State.slewInc (s : State) (l : Lane) : Nat :=
  let p := s.fld l R.TIDE_CFG F.TIDE_CFG_SLEW_PCT
  let r := s.refInc l
  if (s.tide l).slewUp then r * (100 + p) / 100 else r * (100 - p) / 100

/-- The lane's tide follows its own source: it is not slaved (R351). -/
def State.tideOwn (s : State) (l : Lane) : Bool := !s.tBit l F.TIDE_STATUS_SLAVED

/-- The selected source is locked: the engine returns to it, removing the difference in the shorter direction
(R331, R333). With FREE there is no reference phase. -/
def State.beginFollow (s : State) (l : Lane) : State :=
  if !s.tideOwn l then s
  else if s.tideSrc l = srcFREE then
    let s := s.modTide l (fun t => { t with inc := s.freeInc l })
    ((s.setTBit l F.TIDE_STATUS_SLEWING false).setTBit l F.TIDE_STATUS_HOLDOVER false).setFld l R.TIDE_STATUS
      F.TIDE_STATUS_SRC_ACTIVE srcFREE
  else
    let lead := ((s.tide l).phase + turn32 - s.refPhase l) % turn32
    let s := s.modTide l (fun t => { t with slewUp := !decide (lead < 2 ^ 31) })
    let s := s.modTide l (fun t => { t with inc := s.slewInc l })
    (s.setTBit l F.TIDE_STATUS_SLEWING true).setTBit l F.TIDE_STATUS_HOLDOVER false

/-- The reference rate has changed while the tide follows it. -/
def State.trackRate (s : State) (l : Lane) : State :=
  if !s.tideOwn l || !s.srcLocked l then s
  else if s.tBit l F.TIDE_STATUS_SLEWING then s.modTide l (fun t => { t with inc := s.slewInc l })
  else if s.tBit l F.TIDE_STATUS_LOCKED then s.modTide l (fun t => { t with inc := s.refInc l })
  else s

/-- A locked source is lost (R333): the last INC stays. A source lost before the tide was locked to it leaves the
tide at FREE_INC where it has never been locked (R332). -/
def State.sourceLoss (s : State) (l : Lane) : State :=
  if s.tideSrc l = srcFREE then s
  else
    let s := s.count l (R.TIDE_CNT 4)
    if s.tideOwn l then
      ((s.setTBit l F.TIDE_STATUS_LOCKED false).setTBit l F.TIDE_STATUS_SLEWING false).setTBit l
        F.TIDE_STATUS_HOLDOVER true
    else s

/-- The lane starts again from the free rate (R332): after a commit that changes SRC. -/
def State.restartSource (s : State) (l : Lane) : State :=
  let s := s.setReg l R.TIDE_STATUS (s.reg l R.TIDE_STATUS &&& 0xFFFFFFE0#32)
  if s.tideOwn l then
    let s := s.modTide l (fun t => { t with inc := s.freeInc l })
    if s.srcLocked l then s.beginFollow l else s
  else s

/-- A lane that becomes ACTIVE continues from its slaved tide and follows its source (R352). -/
def State.tideBecomeActive (s : State) (l : Lane) : State :=
  if s.tBit l F.TIDE_STATUS_SLAVED then
    let s := s.setTBit l F.TIDE_STATUS_SLAVED false
    let s := s.setFld l R.TIDE_STATUS F.TIDE_STATUS_SRC_ACTIVE srcFREE
    if s.srcLocked l then s.beginFollow l else s
  else s

/-- A lane that reaches STANDBY loads the tide state of the other lane's image (R352); a lane that hands the ferry
over keeps its tide and is slaved from then on. -/
def State.tideBecomeStandby (s : State) (l : Lane) (load : Bool) : State :=
  let o := s.tide l.other
  let s := if load then
      s.modTide l (fun t => { t with acc := o.acc, inc := o.inc, turn := o.turn, turnsDue := o.turnsDue,
                                     nextJ := o.nextJ, turnsIn := o.turnsIn })
    else s
  ((s.setTBit l F.TIDE_STATUS_SLAVED true).setTBit l F.TIDE_STATUS_SLEWING false)

/-! ### Consistency of a configuration (R328, R340, R341, R348) -/

/-- Turn frequency range of the selected source in Hz (Table 11.2), from the register words `g`. -/
def tideRange (g : Nat → Word) : Frac × Frac :=
  match getF (g R.TIDE_CFG) F.TIDE_CFG_SRC with
  | 0 =>
    let f := freqOfInc ((g R.TIDE_FREE_INC_LO).toNat +
      turn32 * getF (g R.TIDE_FREE_INC_HI) F.TIDE_FREE_INC_HI_INC_HI)
    (Frac.mul f ⟨999950, 1000000⟩, Frac.mul f ⟨1000050, 1000000⟩)
  | 1 => (Frac.mk' (getF (g R.TIDE_MPLL_LIM) F.TIDE_MPLL_LIM_FMIN) 10,
          Frac.mk' (getF (g R.TIDE_MPLL_LIM) F.TIDE_MPLL_LIM_FMAX) 10)
  | 2 =>
    let p := getF (g R.TIDE_TB_PERIOD) F.TIDE_TB_PERIOD_PERIOD_NS
    (Frac.mk' 1000000000 p, Frac.mk' 1000000000 p)
  | _ => (Frac.mk' (getF (g R.TIDE_EXT_FMIN) F.TIDE_EXT_FMIN_F) 10,
          Frac.mk' (getF (g R.TIDE_EXT_FMAX) F.TIDE_EXT_FMAX_F) 10)

def turnN (g : Nat → Word) : Nat := getF (g R.TIDE_TURN_CFG) F.TIDE_TURN_CFG_N_M1 + 1
def turnD (g : Nat → Word) : Nat := getF (g R.TIDE_TURN_CFG) F.TIDE_TURN_CFG_D_M1 + 1

/-- Longest and shortest T_CYC in microseconds, widened by the slew (R341). -/
def tideSpanUs (g : Nat → Word) : Frac × Frac :=
  let r := tideRange g
  let k := Frac.mk' (1000000 * (turnD g : Int)) (turnN g)
  let p : Int := if getF (g R.TIDE_CFG) F.TIDE_CFG_SRC = 0 then 0 else getF (g R.TIDE_CFG) F.TIDE_CFG_SLEW_PCT
  (Frac.mul (Frac.div k r.1) (Frac.mk' 100 (100 - p).toNat), Frac.mul (Frac.div k r.2) (Frac.mk' 100 (100 + p).toNat))

/-- R39 and R157 over the widened values, for a lease length. -/
def tideTimesOk (g : Nat → Word) (leaseUs : Nat) : Bool :=
  let sp := tideSpanUs g
  Frac.le (Frac.ofInt 250) sp.2 && Frac.le sp.1 (Frac.ofInt 10000) &&
    Frac.le (Frac.add sp.1 (Frac.ofInt 100)) (Frac.mk' (9 * (leaseUs : Int)) 10)

/-- The source group and the turn configuration are consistent. -/
def tideCfgOk (g : Nat → Word) (leaseUs : Nat) : Bool :=
  let src := getF (g R.TIDE_CFG) F.TIDE_CFG_SRC
  let pct := getF (g R.TIDE_CFG) F.TIDE_CFG_SLEW_PCT
  let per := getF (g R.TIDE_TB_PERIOD) F.TIDE_TB_PERIOD_PERIOD_NS
  let m := g R.TIDE_MPLL_CFG
  let en := getF m F.TIDE_MPLL_CFG_MPLL_EN == 1
  let fmin := getF (g R.TIDE_MPLL_LIM) F.TIDE_MPLL_LIM_FMIN
  let fmax := getF (g R.TIDE_MPLL_LIM) F.TIDE_MPLL_LIM_FMAX
  let xmin := getF (g R.TIDE_EXT_FMIN) F.TIDE_EXT_FMIN_F
  let xmax := getF (g R.TIDE_EXT_FMAX) F.TIDE_EXT_FMAX_F
  decide (1 ≤ pct ∧ pct ≤ 25) &&
  incOk ((g R.TIDE_FREE_INC_LO).toNat + turn32 * getF (g R.TIDE_FREE_INC_HI) F.TIDE_FREE_INC_HI_INC_HI) &&
  decide (250000 ≤ per ∧ per ≤ 10000000 ∧ 1000000000 % per = 0) &&
  !(en && (getF (g R.TIDE_MPLL_GAIN) F.TIDE_MPLL_GAIN_KP == 0 || getF (g R.TIDE_MPLL_GAIN) F.TIDE_MPLL_GAIN_KI == 0)) &&
  decide (400 ≤ fmin ∧ fmin < fmax ∧ fmax ≤ 700) &&
  decide (1 ≤ getF (g R.TIDE_MPLL_LIM) F.TIDE_MPLL_LIM_MIN_AMP) &&
  decide (1 ≤ xmin ∧ xmin < xmax ∧ xmax ≤ 1000000) &&
  (turnN g == 1 || turnD g == 1) &&
  (src != srcTB || (turnN g == 1 && turnD g == 1)) &&
  tideTimesOk g leaseUs

/-! ### The event table (Table 11.3) -/

def evType (w : Word) : Nat := getF w F.TIDE_TEV_CTRL_TYPE
def evMode (w : Word) : Nat := getF w F.TIDE_TEV_CTRL_MODE

def isSwitch (ty : Nat) : Bool := ty == 3 || ty == 4

/-- The output that a PC_ACTION or FC_ACTION names, as one number over both kinds. -/
def evOutput (ty : Nat) (arg : Word) : Nat := if ty = 3 then arg.toNat % 64 else 64 + arg.toNat % 256
def evTarget (arg : Word) : Nat := arg.toNat / 256 % 4

/-- Index of the cycle of the turn that a phase lies in: the last boundary at or before it. -/
def evCycle (n p : Nat) : Nat := ((p + 1) * n - 1) / turn32

def boundaryPhase (n j : Nat) : Nat := j * turn32 / n

/-- The phase lies at least S/4 after the boundary that opens its cycle (R347, R348). -/
def evPlaceable (n p : Nat) : Bool := decide (turn32 ≤ 4 * n * (p - boundaryPhase n (evCycle n p)))

/-- PC_ACTION and FC_ACTION entries of a table, as (output, cycle, placeable). -/
def switchEntries (g : Nat → Word) : List (Nat × Nat × Bool) :=
  let n := turnN g
  ((List.range 1023).map (· + 1)).filterMap (fun i =>
    let c := g (R.TIDE_TEV_CTRL i)
    if isSwitch (evType c) then
      let p := (g (R.TIDE_TEV_PHASE i)).toNat
      some (evOutput (evType c) (g (R.TIDE_TEV_ARG i)), evCycle n p, evPlaceable n p)
    else none)

def pairsDistinct : List (Nat × Nat × Bool) → Bool
  | [] => true
  | x :: xs => xs.all (fun y => !(y.1 == x.1 && y.2.1 == x.2.1)) && pairsDistinct xs

/-- R348 over a table. -/
def switchOk (g : Nat → Word) : Bool :=
  let es := switchEntries g
  es.all (fun e => e.2.2) && (es.isEmpty || turnD g == 1) && pairsDistinct es

/-- R343: MODE 0b11, and a TYPE of 7 or above, are inconsistent. -/
def evCodesOk (g : Nat → Word) : Bool :=
  ((List.range 1023).map (· + 1)).all (fun i =>
    let c := g (R.TIDE_TEV_CTRL i)
    decide (evType c ≤ 6) && decide (evMode c ≤ 2))

/-- World attribute of an output that an entry names. -/
def State.evSecure (s : State) (l : Lane) (ty : Nat) (arg : Word) : Bool :=
  let n := arg.toNat % 64
  if ty = 4 then s.attrBit l (R.LHS_WATTR_FC 0) (arg.toNat % 256)
  else if n < 48 then s.attrBit l (R.LHS_WATTR_PC 0) n
  else s.attrBit l R.LHS_WATTR_GD (n - 48)

/-- R346: the first entry of a copy whose output's world differs from its owner's. -/
def evWorldBad (s : State) (l : Lane) (g : Nat → Word) : Option Nat :=
  ((List.range 1023).map (· + 1)).find? (fun i =>
    let c := g (R.TIDE_TEV_CTRL i)
    isSwitch (evType c) &&
      s.evSecure l (evType c) (g (R.TIDE_TEV_ARG i)) != (getF c F.TIDE_TEV_CTRL_OWNER_SEC == 1))

/-- The register words of a lane as a commit copy would leave them. -/
def State.commitView (s : State) (c : Commit) : Nat → Word := fun a => s.after c a

def State.leaseUs (s : State) (l : Lane) : Nat := s.fld l R.FERRY_CFG F.FERRY_CFG_LEASE_US

/-- AIN inputs named by the mains fields are distinct. -/
def mainsAinOk (m : Word) : Bool :=
  let a := getF m F.TIDE_MPLL_CFG_AIN_A
  let b := getF m F.TIDE_MPLL_CFG_AIN_B
  let c := getF m F.TIDE_MPLL_CFG_AIN_C
  getF m F.TIDE_MPLL_CFG_THREE == 0 || (a != b && a != c && b != c)

/-- A converter-control sequence names AD15, in the words `g`. -/
def namesAd15 (g : Nat → Word) : Bool :=
  (List.range 16).any (fun q =>
    getF (g (R.CVC_SEQ_CFG q)) F.CVC_SEQ_CFG_EN == 1 &&
    (List.range (getF (g (R.CVC_SEQ_CFG q)) F.CVC_SEQ_CFG_LEN_M1 + 1)).any (fun j =>
      getF (g (R.CVC_SEQ_STEP q j)) F.CVC_SEQ_STEP_ADC == 15))

def tideEvtGroup (a : Nat) : Bool := decide (0xE0910000 ≤ a) || a == R.TIDE_TURN_CFG

/-- A TIDE copy may take effect. -/
def chkTide (s : State) (c : Commit) : Bool :=
  let g := s.commitView c
  tideCfgOk g (s.leaseUs c.lane) && evCodesOk g && switchOk g && (evWorldBad s c.lane g).isNone

/-- Each event that a commit wrote begins in its first state: armed where its mode is not off. -/
def State.tevRestart (s : State) (l : Lane) (ws : List RegCell) : State :=
  s.forEach (((List.range 1023).map (· + 1)).filter (fun i =>
      ws.any (fun c => decide (R.TIDE_TEV_PHASE i ≤ c.1) && decide (c.1 < R.TIDE_TEV_PHASE i + 0x10))))
    (fun s i => s.setReg l (R.TIDE_TEV_STAT i) (if evMode (s.reg l (R.TIDE_TEV_CTRL i)) = 0 then 0 else 1))

/-- A mains PLL that a commit enables starts at phase 0 and its nominal rate. -/
def State.mpllBegin (s : State) (l : Lane) : State :=
  let w := Frac.mul twoPi (Frac.ofInt (if s.bit l R.TIDE_MPLL_CFG F.TIDE_MPLL_CFG_NOM60 then 60 else 50))
  s.modTide l (fun t => { t with theta := .zero, integ := .zero, omega := w, sogiA := .zero, sogiB := .zero,
                                 inBand := .zero })

/-- A mains PLL that a commit disables has no status; a source that followed its lock is lost. -/
def State.mpllEnd (before s : State) (l : Lane) : State :=
  let s := (s.setReg l R.TIDE_MPLL_STAT 0).setReg l R.TIDE_MPLL_MEAS 0
  if before.bit l R.TIDE_MPLL_STAT F.TIDE_MPLL_STAT_LOCK && s.tideSrc l == srcMAINS then s.sourceLoss l else s

/-- The source of a lane's tide after a commit: begun anew where it changed. -/
def State.sourceAfter (before s : State) (l : Lane) : State :=
  if before.tideSrc l != s.tideSrc l || (s.tideSrc l == srcTB && before.tideTb l != s.tideTb l) then s.restartSource l
  else if s.tideSrc l = srcFREE ∧ s.tideOwn l = true ∧ s.tBit l F.TIDE_STATUS_HOLDOVER = false then s.beginFollow l
  else if !s.srcLocked l && !s.tBit l F.TIDE_STATUS_HOLDOVER && !s.tBit l F.TIDE_STATUS_FALLBACK && s.tideOwn l then
    s.modTide l (fun t => { t with inc := s.freeInc l })
  else s.trackRate l

/-- What a TIDE copy does beyond its values: entries it applies are armed (R343), the PLL starts or stops (R334),
a changed source begins anew (R332), the turn configuration counts from here (R340). -/
def State.afterTideCommit (before s : State) (l : Lane) (ws : List RegCell) : State :=
  let s := s.tevRestart l ws
  let s := if before.reg l R.TIDE_TURN_CFG != s.reg l R.TIDE_TURN_CFG then
      s.modTide l (fun t => { t with nextJ := 0, turnsIn := 0 })
    else s
  let en := s.bit l R.TIDE_MPLL_CFG F.TIDE_MPLL_CFG_MPLL_EN
  let wasEn := before.bit l R.TIDE_MPLL_CFG F.TIDE_MPLL_CFG_MPLL_EN
  let s := if en && !wasEn then s.mpllBegin l else s
  let s := if wasEn && !en then before.mpllEnd s l else s
  before.sourceAfter ((s.setBitF l R.TIDE_MPLL_STAT F.TIDE_MPLL_STAT_AD15_HELD en).setBitF l R.CVC_STATUS
    F.CVC_STATUS_AD15_HELD en) l

/-- COMMIT_PENDING reads 1 until both groups have been applied (R342). -/
def State.syncTidePend (s : State) (l : Lane) : State :=
  s.setTBit l F.TIDE_STATUS_COMMIT_PENDING (s.commits.any (fun c => c.block == 9 && c.lane == l))

/-- A group of a TIDE copy reaches its safe point. A copy that fails leaves every value of it unapplied (R341),
and a world breach is a policy event (R346). -/
def State.applyTide (s : State) (l : Lane) (region : Nat) : State :=
  match s.pendCommit 9 region l with
  | none => s
  | some c =>
    let ok := chkTide s c
    let t := s.applyCommit ok R.TIDE_STATUS F.TIDE_STATUS_CFG_INCONSISTENT eCFG_REJECTED c
    let t := if ok then State.afterTideCommit s t l c.writes
      else
        let t := match t.pendCommit 9 (1 - region) l with
          | some o => if o.num = c.num ∧ c.lsns = [] ∧ o.lsns = [] then t.dropCommit o else t
          | none => t
        match evWorldBad s l (s.commitView c) with
        | some i =>
          let w := s.after c (R.TIDE_TEV_CTRL i)
          t.policy l 3 i (getF w F.TIDE_TEV_CTRL_OWNER) (if getF w F.TIDE_TEV_CTRL_OWNER_SEC = 1 then .secure else .normal)
        | none => t
    t.syncTidePend l

/-- A COMMIT write splits its copy into the two groups; a copy that changes SRC, or TB_SEL with SRC = TB, waits
whole for phase 0 (R342). -/
def State.commitTide (s : State) (l : Lane) (ws : List RegCell) (lsns : List Nat) : State :=
  let v := fun (a : Nat) => match cellsGet ws a with
    | some x => x
    | none => s.shadow l a
  let whole := getF (v R.TIDE_CFG) F.TIDE_CFG_SRC != s.tideSrc l ||
    (getF (v R.TIDE_CFG) F.TIDE_CFG_SRC == srcTB && getF (v R.TIDE_CFG) F.TIDE_CFG_TB_SEL != s.tideTb l)
  let evs := ws.filter (fun c => tideEvtGroup c.1)
  let src := ws.filter (fun c => !tideEvtGroup c.1)
  let s := if whole then s.addCommit 9 1 l ws lsns false
    else
      let s := if evs = [] then s else s.addCommit 9 1 l evs lsns false
      if src = [] then s else s.addCommit 9 0 l src lsns false
  s.syncTidePend l

/-- A command's tide configuration in both lanes; the holder's copy carries the entry. -/
def State.commitTideCmd (s : State) (r : Req) (ws : List RegCell) (lsn : Nat) : State :=
  let h := s.holderOr r.lane
  let s := (s.writeShadows .E ws).writeShadows .W ws
  (s.commitTide h.other ws []).commitTide h ws [lsn]

/-! ### Boundaries, arming and records for the frames -/

/-- Boundaries per turn and turns per boundary in force. -/
def State.tideN (s : State) (l : Lane) : Nat := turnN (s.reg l)
def State.tideD (s : State) (l : Lane) : Nat := turnD (s.reg l)

/-- An entry fires: its count, the engine's count, and, in MODE once, disarmed (R343). -/
def State.evFired (s : State) (l : Lane) (i : Nat) : State :=
  let s := s.countFld l (R.TIDE_TEV_STAT i) F.TIDE_TEV_STAT_FIRED
  let s := if evMode (s.reg l (R.TIDE_TEV_CTRL i)) = 2 then
      s.setBitF l (R.TIDE_TEV_STAT i) F.TIDE_TEV_STAT_ARMED false
    else s
  s.count l (R.TIDE_CNT 0)

/-- A lane's cycle boundary: TEV0000 fires, the next boundary's index moves on, the source group is applied. -/
def State.tideBoundary (s : State) (l : Lane) : State :=
  let s := (s.countFld l (R.TIDE_TEV_STAT 0) F.TIDE_TEV_STAT_FIRED).count l (R.TIDE_CNT 0)
  let n := s.tideN l
  let s := s.modTide l (fun t => { t with nextJ := (t.nextJ + 1) % n })
  s.applyTide l 0

/-- TEV_ARM takes effect at the boundary (R355). -/
def State.tideArms (s : State) : State :=
  let as := s.tevArms
  let s := { s with tevArms := [] }
  s.forEach (List.range as.length) (fun s k =>
    match as[k]? with
    | none => s
    | some a =>
      let arm := fun (s : State) (l : Lane) => s.forEach ((List.range a.count).map (· + a.first)) (fun s i =>
        if evMode (s.reg l (R.TIDE_TEV_CTRL i)) = 2 then s.setBitF l (R.TIDE_TEV_STAT i) F.TIDE_TEV_STAT_ARMED true
        else s)
      ((arm s .E |> fun s => arm s .W)).done a.lsn)

/-- Block, die region and target and phase registers of an event's output. -/
def evPlace (ty : Nat) (arg : Word) : Nat × Nat × Nat × Nat :=
  let n := arg.toNat % 64
  if ty = 4 then
    let k := arg.toNat % 256
    (8, fcDie k, R.FCH_TGT (fcDie k) (fcIx k), R.FCH_SWPH (fcDie k) (fcIx k))
  else if n < 48 then (6, pcDie n, R.PCH_TGT (pcDie n) (pcIx n), R.PCH_SWPH (pcDie n) (pcIx n))
  else (7, gdDie (n - 48), R.GDR_TGT (gdDie (n - 48)) ((n - 48) % 8), R.GDR_SWPH (gdDie (n - 48)) ((n - 48) % 8))

/-- The output's configuration allows the event's target (R349). -/
def State.evAllowed (s : State) (ty : Nat) (arg : Word) : Bool :=
  let n := arg.toNat % 64
  let t := evTarget arg
  if ty = 4 then
    let k := arg.toNat % 256
    let md := s.fMode (fcDie k) (fcIx k)
    isOutMode md && decide (t ≤ 2) && fcTargetOk md t
  else if n < 48 then decide (t ≤ 1) || (t == 2 && s.shFld (R.PCH_CFG (pcDie n) (pcIx n)) F.PCH_CFG_MODE == 1)
  else decide (t ≤ 1)

/-- Armed switching entries of a lane whose phase lies in the cycle that opens at the next boundary. -/
def State.evDue (s : State) (l : Lane) : List Nat :=
  let n := s.tideN l
  let j := (s.tide l).nextJ
  ((List.range 1023).map (· + 1)).filter (fun i =>
    let c := s.reg l (R.TIDE_TEV_CTRL i)
    isSwitch (evType c) && evMode c != 0 && s.bit l (R.TIDE_TEV_STAT i) F.TIDE_TEV_STAT_ARMED &&
      (let p := (s.reg l (R.TIDE_TEV_PHASE i)).toNat
       evCycle n p == j && evPlaceable n p))

/-- One due entry at the seal: its record goes into the frames, over a command's target for the same output
(R347, R349). Both shadows take the event's target, so that later frames carry it on. -/
def State.sealEvent (s : State) (l : Lane) (i : Nat) : State :=
  let ty := evType (s.reg l (R.TIDE_TEV_CTRL i))
  let arg := s.reg l (R.TIDE_TEV_ARG i)
  let s := s.evFired l i
  if s.evAllowed ty arg then
    let p := evPlace ty arg
    let ovr := s.commits.any (fun c => c.block == p.1 && c.region == p.2.1 && c.carried &&
      (cellsGet c.writes p.2.2.1).isSome)
    let s := if ovr then (s.setTBit l F.TIDE_STATUS_EVT_OVERRODE true).count l (R.TIDE_CNT 2) else s
    let t := evTarget arg
    let tgt : Word := BitVec.ofNat 32 (t + 4)
    let s := (s.writeShadow .E p.2.2.1 (BitVec.ofNat 32 t)).writeShadow .W p.2.2.1 (BitVec.ofNat 32 t)
    { s with evtRecs := s.evtRecs ++
        [{ block := p.1, region := p.2.1, cells := [(p.2.2.1, tgt), (p.2.2.2, s.reg l (R.TIDE_TEV_PHASE i))] }] }
  else (s.setTBit l F.TIDE_STATUS_EVT_SKIPPED true).count l (R.TIDE_CNT 1)

/-- The standby runs the same table: its entries count as fired, and its frames equal the holder's. -/
def State.sealEvents (s : State) : State :=
  let h := s.holderOr .E
  let s := { s with evtRecs := [] }
  let s := s.forEach (s.evDue h) (fun s i => s.sealEvent h i)
  if s.lst h.other = stSTANDBY then s.forEach (s.evDue h.other) (fun s i => s.evFired h.other i) else s

/-! ### Commands (Table 11.4) -/

/-- The register words as accepted commands have left them, with a command's own on top. -/
def State.cfgView (s : State) (r : Req) (ws : List RegCell) : Nat → Word := fun a =>
  match cellsGet ws a with
  | some v => let m := rwsMask a; (s.shadow (s.cfgLane r) a &&& ~~~m) ||| (v &&& m)
  | none => s.shadow (s.cfgLane r) a

def specTideStatus : CmdSpec :=
  { opcode := 0x0400, accepted := false, lenOk := fun r => r.length == 0, maxResp := 36,
    answer := fun s r =>
      let l := (s.servedBy r.lane).getD r.lane
      let t := s.tide l
      wordBytes (s.reg l R.TIDE_STATUS) ++ leBytes 4 t.phase ++ leBytes 4 t.turn ++ leBytes 8 t.inc ++
        wordBytes (s.reg l R.TIDE_MPLL_STAT) ++ wordBytes (s.reg l R.TIDE_MPLL_MEAS) ++
        wordBytes (s.reg l R.TIDE_EXT_STAT) ++ wordBytes (s.reg l R.TIDE_SYNC_STAT) }

def tideSourceCells (r : Req) : List RegCell :=
  [(R.TIDE_CFG, BitVec.ofNat 32 (r.u8 0 + 4 * r.u8 1 + 0x100 * r.u8 2 + 0x10000 * (r.u16 4 - 1))),
   (R.TIDE_FREE_INC_LO, r.w 8), (R.TIDE_FREE_INC_HI, BitVec.ofNat 32 (r.u16 12)),
   (R.TIDE_TB_PERIOD, r.w 16)]

def specTideSource : CmdSpec :=
  { opcode := 0x0401, accepted := true, lenOk := fun r => r.length == 20, perm := fun _ r => r.src.isChief,
    param := fun s r => decide (r.u8 0 ≤ 3) && decide (r.u8 1 ≤ 3) && decide (1 ≤ r.u8 2 ∧ r.u8 2 ≤ 25) &&
      r.u8 3 == 0 && decide (1 ≤ r.u16 4 ∧ r.u16 4 ≤ 256) && r.u16 6 == 0 && incOk (r.u 8 8) &&
      decide (250000 ≤ r.u32 16 ∧ r.u32 16 ≤ 10000000 ∧ 1000000000 % r.u32 16 = 0) &&
      tideCfgOk (s.cfgView r (tideSourceCells r)) (s.leaseUs r.lane),
    exec := fun s r lsn => s.commitTideCmd r (tideSourceCells r) lsn }

def tideMainsCells (r : Req) : List RegCell :=
  [(R.TIDE_MPLL_CFG, r.w 0), (R.TIDE_MPLL_OFS, r.w 4), (R.TIDE_MPLL_GAIN, r.w 8), (R.TIDE_MPLL_LIM, r.w 12)]

def specTideMains : CmdSpec :=
  { opcode := 0x0402, accepted := true, lenOk := fun r => r.length == 16, perm := fun _ r => r.src.isChief,
    param := fun s r => mainsAinOk (r.w 0) && tideCfgOk (s.cfgView r (tideMainsCells r)) (s.leaseUs r.lane),
    stateOk := fun s r => getF (r.w 0) F.TIDE_MPLL_CFG_MPLL_EN == 0 || !namesAd15 (s.cfgView r []),
    exec := fun s r lsn => s.commitTideCmd r (tideMainsCells r) lsn }

def tideExtCells (r : Req) : List RegCell :=
  [(R.TIDE_EXT_CFG, r.w 0), (R.TIDE_EXT_OFS, r.w 4), (R.TIDE_EXT_FMIN, r.w 8), (R.TIDE_EXT_FMAX, r.w 12)]

def specTideExt : CmdSpec :=
  { opcode := 0x0403, accepted := true, lenOk := fun r => r.length == 16, perm := fun _ r => r.src.isChief,
    param := fun s r => tideCfgOk (s.cfgView r (tideExtCells r)) (s.leaseUs r.lane),
    exec := fun s r lsn => s.commitTideCmd r (tideExtCells r) lsn }

def tideTurnCells (r : Req) : List RegCell :=
  [(R.TIDE_TURN_CFG, BitVec.ofNat 32 ((r.u32 0 - 1) + 0x10000 * (r.u32 4 - 1)))]

def specTideTurn : CmdSpec :=
  { opcode := 0x0404, accepted := true, lenOk := fun r => r.length == 8, perm := fun _ r => r.src.isChief,
    param := fun s r => decide (1 ≤ r.u32 0 ∧ r.u32 0 ≤ 65536) && decide (1 ≤ r.u32 4 ∧ r.u32 4 ≤ 65536) &&
      tideCfgOk (s.cfgView r (tideTurnCells r)) (s.leaseUs r.lane),
    exec := fun s r lsn => s.commitTideCmd r (tideTurnCells r) lsn }

/-- ARG of an entry has only the bits and values of Table 11.3. -/
def evArgOk (ty arg : Nat) : Bool :=
  match ty with
  | 0 => arg == 0
  | 1 => decide (arg < 16)
  | 2 => decide (arg < 4096)
  | 3 => arg &&& 0xFFFFFCC0 == 0 && decide (arg / 256 ≤ (if arg % 64 < 48 then 2 else 1))
  | 4 => arg &&& 0xFFFFFC00 == 0 && decide (arg / 256 ≤ 2)
  | 5 => decide (arg < 4096)
  | _ => arg &&& 0xFFFFE080 == 0 && (!arg.testBit 6 || decide (arg % 64 ≤ 4))

/-- An entry is free, the sender's own, or the sender may change any (Table 11.5). An entry of TYPE NONE and MODE
off has no owner. -/
def evMayChange (s : State) (r : Req) (i : Nat) : Bool :=
  let c := s.shadow (s.cfgLane r) (R.TIDE_TEV_CTRL i)
  r.src.isChief || (evType c == 0 && evMode c == 0) || c.toNat / 0x100 % 0x100 == r.src.ownerBits / 0x100

/-- The switched output of an entry is of another world than the sender's. -/
def evOtherWorld (s : State) (r : Req) (ty : Nat) (arg : Word) : Bool :=
  isSwitch ty && s.evSecure r.lane ty arg != (r.world == .secure)

def tevSetCells (r : Req) : List RegCell :=
  let i := r.u16 0
  [(R.TIDE_TEV_PHASE i, r.w 4),
   (R.TIDE_TEV_CTRL i, BitVec.ofNat 32 (r.u8 8 + 0x10 * r.u8 9 + r.src.ownerBits)), (R.TIDE_TEV_ARG i, r.w 12)]

def specTevSet : CmdSpec :=
  { opcode := 0x0405, accepted := true, lenOk := fun r => r.length == 16,
    perm := fun s r => decide (1023 < r.u16 0) || evMayChange s r (r.u16 0),
    world := fun s r => if evOtherWorld s r (r.u8 8) (r.w 12) then some (r.u32 12 % 256) else none,
    param := fun s r => decide (1 ≤ r.u16 0 ∧ r.u16 0 ≤ 1023) && r.u16 2 == 0 && decide (r.u8 8 ≤ 6) &&
      decide (r.u8 9 ≤ 2) && r.u16 10 == 0 && evArgOk (r.u8 8) (r.u32 12) && switchOk (s.cfgView r (tevSetCells r)),
    exec := fun s r lsn => s.commitTideCmd r (tevSetCells r) lsn }

def tevRange (r : Req) : List Nat := (List.range (min (r.u16 2) 1024)).map (· + r.u16 0)

def tevRangeWorld (s : State) (r : Req) : Option Nat :=
  (tevRange r).find? (fun i => decide (i ≤ 1023) &&
    evOtherWorld s r (evType (s.shadow (s.cfgLane r) (R.TIDE_TEV_CTRL i))) (s.shadow (s.cfgLane r) (R.TIDE_TEV_ARG i)))

def tevRangeParam (r : Req) : Bool :=
  decide (1 ≤ r.u16 0 ∧ r.u16 0 ≤ 1023 ∧ 1 ≤ r.u16 2 ∧ r.u16 0 + r.u16 2 ≤ 1024)

def specTevClear : CmdSpec :=
  { opcode := 0x0406, accepted := true, lenOk := fun r => r.length == 4,
    perm := fun s r => (tevRange r).all (fun i => decide (1023 < i) || evMayChange s r i), world := tevRangeWorld,
    param := fun _ r => tevRangeParam r,
    exec := fun s r lsn => s.commitTideCmd r ((tevRange r).map (fun i =>
      (R.TIDE_TEV_CTRL i, s.shadow (s.cfgLane r) (R.TIDE_TEV_CTRL i) &&& 0xFFFFFFC0#32))) lsn }

def specTevArm : CmdSpec :=
  { opcode := 0x0407, accepted := true, lenOk := fun r => r.length == 4,
    perm := fun s r => (tevRange r).all (fun i => decide (1023 < i) || evMayChange s r i), world := tevRangeWorld,
    param := fun _ r => tevRangeParam r,
    exec := fun s r lsn => { s with tevArms := s.tevArms ++ [{ first := r.u16 0, count := r.u16 2, lsn := lsn }] } }

def specTevRead : CmdSpec :=
  { opcode := 0x0408, accepted := false, lenOk := fun r => r.length == 4, maxResp := 112,
    param := fun _ r => decide (r.u16 0 ≤ 1023) && decide (1 ≤ r.u8 2 ∧ r.u8 2 ≤ 7) && r.u8 3 == 0 &&
      decide (r.u16 0 + r.u8 2 ≤ 1024),
    answer := fun s r => (((List.range (r.u8 2)).map (· + r.u16 0)).map (fun i =>
      s.regBytes ((s.servedBy r.lane).getD r.lane) (R.TIDE_TEV_PHASE i) 4)).flatten }

def execTideStatus (r : Req) (s : State) : Host.Outcome State Fault Refusal := runScs specTideStatus r s
def execTideSource (r : Req) (s : State) : Host.Outcome State Fault Refusal := runScs specTideSource r s
def execTideMains (r : Req) (s : State) : Host.Outcome State Fault Refusal := runScs specTideMains r s
def execTideExt (r : Req) (s : State) : Host.Outcome State Fault Refusal := runScs specTideExt r s
def execTideTurn (r : Req) (s : State) : Host.Outcome State Fault Refusal := runScs specTideTurn r s
def execTevSet (r : Req) (s : State) : Host.Outcome State Fault Refusal := runScs specTevSet r s
def execTevClear (r : Req) (s : State) : Host.Outcome State Fault Refusal := runScs specTevClear r s
def execTevArm (r : Req) (s : State) : Host.Outcome State Fault Refusal := runScs specTevArm r s
def execTevRead (r : Req) (s : State) : Host.Outcome State Fault Refusal := runScs specTevRead r s

end Sys2Proof.Machine
end

