-- ==== Sys2Proof/Machine/TideEvents.lean ====
section
/-! DEFINITION. What happens to a lane's tide: turns, the mains PLL, external pulses, losses, and the standby's
slaving (spec/11). -/

namespace Sys2Proof.Machine

/-- A read of TIDE_PHASE latches TURN and INC, which the next reads of their registers return (R330). -/
def execTidePhaseRead (l : Lane) (s : State) : Host.Outcome State Fault Refusal :=
  let t := s.tide l
  let s := s.setReg l R.TIDE_PHASE (BitVec.ofNat 32 t.phase)
  let s := s.setReg l R.TIDE_TURN (BitVec.ofNat 32 t.turn)
  let s := s.setReg l R.TIDE_INC_LO (BitVec.ofNat 32 t.inc)
  let s := s.setReg l R.TIDE_INC_HI (BitVec.ofNat 32 (t.inc / turn32))
  .next (s.busOk (BitVec.ofNat 32 t.phase))

/-- The tide passes phase 0: the event group, and a copy that changes the source, take effect before any event
of the phase (R342). With several turns per boundary the turn is counted (R340). -/
def State.turnStart (s : State) (l : Lane) : State :=
  let t := s.tide l
  let s := if 0 < t.turnsDue then s.setTide l { t with turnsDue := t.turnsDue - 1 }
    else s.setTide l { t with acc := 0, turn := (t.turn + 1) % turn32 }
  let s := s.modTide l (fun t => { t with nextJ := 0, turnsIn := (t.turnsIn + 1) % s.tideD l })
  s.applyTide l 1

def execTurnStart (l : Lane) (s : State) : Host.Outcome State Fault Refusal :=
  .next (if s.tideRuns l then s.turnStart l else s)

/-! ### Mains PLL (R334 to R336) -/

/-- One update of the mains PLL from the three conversions, in 1/65,536 of full scale with the offset removed. -/
structure MpllStep where
  amp : Frac
  vq : Frac
  integ : Frac
  omega : Frac
  theta : Frac
  sogi : Frac × Frac

/-- Loop of R334 for one period of 10 µs. `ctr` names the free value where the amplitude is zero. -/
def mpllStep (three : Bool) (t : TideRt) (va vb vc kp ki : Frac) (wNom wMin wMax : Frac) (ctr : Nat) : MpllStep :=
  let dt : Frac := ⟨1, 100000⟩
  let ab := if three then
      (Frac.divN (Frac.sub (Frac.sub (Frac.mul (Frac.ofInt 2) va) vb) vc) 3,
       Frac.div (Frac.sub vb vc) Config.sqrt3F)
    else Config.sogiF va t.omega t.sogiA t.sogiB
  let amp := Config.sqrtF (Frac.add (Frac.mul ab.1 ab.1) (Frac.mul ab.2 ab.2))
  let num := Frac.sub (Frac.mul ab.2 (Config.cosF t.theta)) (Frac.mul ab.1 (Config.sinF t.theta))
  let vq := if amp.num = 0 then Config.vqAtZero ctr else Frac.div num amp
  let integ := Frac.add t.integ (Frac.mul (Frac.mul ki vq) dt)
  let w := Frac.add (Frac.add wNom (Frac.mul kp vq)) integ
  let omega := Frac.max wMin (Frac.min wMax w)
  { amp := amp, vq := vq, integ := integ, omega := omega, theta := Frac.add t.theta (Frac.mul omega dt), sogi := ab }

def unitF (n : Int) : Frac := Frac.mk' n 65536

/-- A field of a signed number that saturates at its width. -/
def satField (bits : Nat) (v : Int) : Nat := uext bits (satS bits v)

/-- The PLL of a lane updates; LOCK sets once the error has stayed below 0.1° for one mains cycle (R336). -/
def State.mpllUpdate (s : State) (l : Lane) (va vb vc : Int) : State :=
  let t := s.tide l
  let nom : Frac := Frac.ofInt (if s.bit l R.TIDE_MPLL_CFG F.TIDE_MPLL_CFG_NOM60 then 60 else 50)
  let lim := fun (f : Fld) => Frac.mul twoPi (Frac.mk' (s.fld l R.TIDE_MPLL_LIM f) 10)
  let p := mpllStep (s.bit l R.TIDE_MPLL_CFG F.TIDE_MPLL_CFG_THREE) t (unitF va) (unitF vb) (unitF vc)
    (Frac.ofInt (s.fld l R.TIDE_MPLL_GAIN F.TIDE_MPLL_GAIN_KP))
    (Frac.ofInt (10 * s.fld l R.TIDE_MPLL_GAIN F.TIDE_MPLL_GAIN_KI)) (Frac.mul twoPi nom)
    (lim F.TIDE_MPLL_LIM_FMIN) (lim F.TIDE_MPLL_LIM_FMAX) s.freeCtr
  let deg := Frac.div (Frac.mul (Config.asinF p.vq) (Frac.ofInt 180)) Config.piF
  let inside := Frac.lt (Frac.abs deg) ⟨1, 10⟩
  let run := if inside then Frac.add t.inBand (Frac.mul p.omega ⟨1, 100000⟩) else .zero
  let s := s.tickFree
  let s := s.modTide l (fun t => { t with theta := p.theta, integ := p.integ, omega := p.omega, sogiA := p.sogi.1,
                                          sogiB := p.sogi.2, inBand := run })
  let s := s.setFld l R.TIDE_MPLL_STAT F.TIDE_MPLL_STAT_AMP (Frac.sat 16 (Frac.mul p.amp (Frac.ofInt 65536)))
  let mhz := Frac.mul (Frac.div p.omega twoPi) (Frac.ofInt 1000)
  let s := s.setFld l R.TIDE_MPLL_MEAS F.TIDE_MPLL_MEAS_FREQ (Frac.sat 20 mhz)
  let s := s.setFld l R.TIDE_MPLL_MEAS F.TIDE_MPLL_MEAS_PERR (satField 12 (Frac.mul deg (Frac.ofInt 100)).floor)
  let lock := s.bit l R.TIDE_MPLL_STAT F.TIDE_MPLL_STAT_LOCK
  if !lock && Frac.le twoPi run then
    let s := (s.setBitF l R.TIDE_MPLL_STAT F.TIDE_MPLL_STAT_LOCK true).setBitF l R.TIDE_MPLL_STAT
      F.TIDE_MPLL_STAT_MAINS_LOST false
    if s.tideSrc l = srcMAINS then s.beginFollow l else s
  else if s.tideSrc l = srcMAINS then s.trackRate l
  else s

def State.mpllOn (s : State) (l : Lane) : Bool :=
  s.tideRuns l && s.bit l R.TIDE_MPLL_CFG F.TIDE_MPLL_CFG_MPLL_EN

def execMpllUpdate (l : Lane) (va vb vc : Int) (s : State) : Host.Outcome State Fault Refusal :=
  .next (if s.mpllOn l then s.mpllUpdate l va vb vc else s)

/-- The mains are lost (R336); the loss acts where they are the source in lock. -/
def State.mainsLost (s : State) (l : Lane) : State :=
  let was := s.bit l R.TIDE_MPLL_STAT F.TIDE_MPLL_STAT_LOCK
  let s := (s.setBitF l R.TIDE_MPLL_STAT F.TIDE_MPLL_STAT_LOCK false).setBitF l R.TIDE_MPLL_STAT
    F.TIDE_MPLL_STAT_MAINS_LOST true
  let s := s.modTide l (fun t => { t with inBand := .zero })
  if was && s.tideSrc l == srcMAINS then s.sourceLoss l else s

def execMainsLost (l : Lane) (s : State) : Host.Outcome State Fault Refusal :=
  .next (if s.mpllOn l then s.mainsLost l else s)

/-! ### External pulses (R338, R339); times in 5 ns units -/

def State.extLost (s : State) (l : Lane) : State :=
  let was := s.bit l R.TIDE_EXT_STAT F.TIDE_EXT_STAT_LOCK
  let s := (s.setBitF l R.TIDE_EXT_STAT F.TIDE_EXT_STAT_LOCK false).setBitF l R.TIDE_EXT_STAT F.TIDE_EXT_STAT_EXT_MISS
    true
  let s := s.modTide l (fun t => { t with extRun := 0 })
  if was && s.tideSrc l == srcEXT then s.sourceLoss l else s

/-- Turn frequency of a pulse interval lies within the limits: 200 MHz / (t × PPT). -/
def State.extFreqOk (s : State) (l : Lane) (t : Nat) : Bool :=
  let lo := s.fld l R.TIDE_EXT_FMIN F.TIDE_EXT_FMIN_F
  let hi := s.fld l R.TIDE_EXT_FMAX F.TIDE_EXT_FMAX_F
  decide (lo * t * s.extPpt l ≤ 2000000000) && decide (2000000000 ≤ hi * t * s.extPpt l)

/-- Two intervals agree within ±12.5 %. -/
def extAgree (a b : Nat) : Bool := decide (7 * b ≤ 8 * a) && decide (8 * a ≤ 9 * b)

/-- A stamp of EXT_CH: the pulse index, the interval, and LOCK at the fourth pulse in agreement. -/
def State.extPulse (s : State) (l : Lane) (t : Nat) : State :=
  let x := s.tide l
  match x.extLast with
  | none => s.modTide l (fun y => { y with extLast := some t, extRun := 1, extJ := 0 })
  | some t0 =>
    let d := t - t0
    let j := (x.extJ + 1) % s.extPpt l
    if d = 0 ∨ s.extFreqOk l d = false then
      (s.modTide l (fun y => { y with extLast := some t, extJ := j, extInt := none })).extLost l
    else
      let run := match x.extInt with
        | some d0 => if extAgree d d0 then x.extRun + 1 else 2
        | none => 2
      let s := s.modTide l (fun y => { y with extLast := some t, extInt := some d, extJ := j, extRun := run })
      if s.bit l R.TIDE_EXT_STAT F.TIDE_EXT_STAT_LOCK then
        if s.tideSrc l = srcEXT then s.trackRate l else s
      else if 4 ≤ run then
        let s := (s.setBitF l R.TIDE_EXT_STAT F.TIDE_EXT_STAT_LOCK true).setBitF l R.TIDE_EXT_STAT
          F.TIDE_EXT_STAT_EXT_MISS false
        if s.tideSrc l = srcEXT then s.beginFollow l else s
      else s

/-- A stamp of IDX_CH sets j to 0. -/
def State.extIndex (s : State) (l : Lane) : State :=
  (s.modTide l (fun y => { y with extJ := 0 })).setBitF l R.TIDE_EXT_STAT F.TIDE_EXT_STAT_IDX_SEEN true

/-- A delivered stamp of a field channel (R310): of the pulse channel, of the index channel, or of neither. -/
def execExtPulse (l : Lane) (ch t : Nat) (s : State) : Host.Outcome State Fault Refusal :=
  let cap := s.fMode (fcDie ch) (fcIx ch) == mCAPTURE &&
    s.shFld (R.FCH_AUX (fcDie ch) (fcIx ch)) F.FCH_AUX_CAP_KIND == 3
  let live := s.tideRuns l && s.stamps.contains (ch, t) && cap
  let s' := if s.bit l R.TIDE_EXT_CFG F.TIDE_EXT_CFG_IDX_EN && s.fld l R.TIDE_EXT_CFG F.TIDE_EXT_CFG_IDX_CH == ch then
      s.extIndex l
    else s
  .next (if !live then s
         else if s.fld l R.TIDE_EXT_CFG F.TIDE_EXT_CFG_EXT_CH = ch then s'.extPulse l t
         else s')

def execExtMiss (l : Lane) (s : State) : Host.Outcome State Fault Refusal :=
  .next (if s.tideRuns l then (s.modTide l (fun t => { t with extLast := none, extInt := none })).extLost l else s)

/-! ### Following and losing (R331, R333) -/

/-- The difference is 2 ticks or less: the tide runs at the reference rate and is LOCKED. -/
def execTideSlewComplete (l : Lane) (s : State) : Host.Outcome State Fault Refusal :=
  .next (if s.tideRuns l && s.tideOwn l && s.tBit l F.TIDE_STATUS_SLEWING && s.srcLocked l then
      let s := s.modTide l (fun t => { t with inc := s.refInc l })
      let s := (s.setTBit l F.TIDE_STATUS_SLEWING false).setTBit l F.TIDE_STATUS_LOCKED true
      s.setFld l R.TIDE_STATUS F.TIDE_STATUS_SRC_ACTIVE (s.tideSrc l)
    else s)

/-- The source was not regained within its turns: FALLBACK, on as FREE at the held INC. -/
def execHoldoverExpiry (l : Lane) (s : State) : Host.Outcome State Fault Refusal :=
  .next (if s.tideRuns l && s.tBit l F.TIDE_STATUS_HOLDOVER then
      let s := (s.setTBit l F.TIDE_STATUS_HOLDOVER false).setTBit l F.TIDE_STATUS_FALLBACK true
      (s.setFld l R.TIDE_STATUS F.TIDE_STATUS_SRC_ACTIVE srcFREE).count l (R.TIDE_CNT 5)
    else s)

/-! ### Slaving (R350, R351, R161) -/

/-- INC that removes an error of `err` tenths of a nanosecond (positive where the standby leads) by the next
message, one T_CYC on; it stays within the bounds of R329 around the rate it is slaved to. -/
def slavedInc (inc : Nat) (err : Int) (tcycUs : Nat) : Nat :=
  let span : Int := 10000 * (tcycUs : Int)
  let adj : Int := (inc : Int) - (if span = 0 then 0 else (inc : Int) * err / span)
  (max ((3 * inc / 4 : Nat) : Int) (min ((5 * inc / 4 : Nat) : Int) adj)).toNat

/-- A tide-sync message reaches the standby, or is missed. Out of the bound for two messages, the standby cannot
hold it and goes to UNSYNC (R161). -/
def State.tideSync (s : State) (l : Lane) (err : Int) (missed : Bool) : State :=
  if missed then s.count l (R.TIDE_CNT 7)
  else
    let ok := decide (err.natAbs ≤ 50)
    let o := s.tide l.other
    let s := s.modTide l (fun t => { t with inc := slavedInc o.inc err s.ferry.tcycUs })
    let s := s.setTBit l F.TIDE_STATUS_SLAVED true
    let s := s.setFld l R.TIDE_SYNC_STAT F.TIDE_SYNC_STAT_ERR (satField 16 err)
    let s := s.setBitF l R.TIDE_SYNC_STAT F.TIDE_SYNC_STAT_SYNC_OK ok
    let n := if ok then 0 else s.ferry.slipCycles + 1
    let s := { s with ferry := { s.ferry with slipCycles := n } }
    if 2 ≤ n then
      (({ s with ferry := { s.ferry with slipCycles := 0 } }).setBitF l R.FERRY_STATUS F.FERRY_STATUS_TIDE_SLIP true).setLst
        l stUNSYNC
    else s

def execTideSync (l : Lane) (err : Int) (missed : Bool) (s : State) : Host.Outcome State Fault Refusal :=
  .next (if s.lst l = stSTANDBY ∧ s.tideRuns l = true then s.tideSync l err missed else s)

end Sys2Proof.Machine
end

