-- ==== Sys2Proof/Machine/Cvc.lean ====
section
/-! DEFINITION. Converter control (spec/12): consistency of its configuration, run sets and their loads, sequences,
the lattice, trips and the output selector. -/

namespace Sys2Proof.Machine

/-! ### Parts of the state -/

def State.cvc (s : State) : Lane → CvcRt
  | .E => s.cvcE
  | .W => s.cvcW

def State.setCvc (s : State) (l : Lane) (x : CvcRt) : State :=
  match l with
  | .E => { s with cvcE := x }
  | .W => { s with cvcW := x }

def State.pair (s : State) (l : Lane) (k : Nat) : PairRt := ((s.cvc l).pairs[k]?).getD .reset
def State.setPair (s : State) (l : Lane) (k : Nat) (x : PairRt) : State :=
  s.setCvc l { s.cvc l with pairs := (s.cvc l).pairs.set k x }

def State.sel (s : State) (k : Nat) : SelRt := (s.sels[k]?).getD ⟨false, false, false⟩
def State.setSel (s : State) (k : Nat) (x : SelRt) : State := { s with sels := s.sels.set k x }

def slOFF : Nat := 0
def slRUN : Nat := 1
def slSWITCH : Nat := 2
def slWAIT : Nat := 3
def slSAFE : Nat := 4

def State.selSt (s : State) (k : Nat) : Nat := s.shFld (R.CVC_SEL_PP_STAT k) F.CVC_SEL_PP_STAT_STATE
def State.setSelSt (s : State) (k v : Nat) : State := s.setShFld (R.CVC_SEL_PP_STAT k) F.CVC_SEL_PP_STAT_STATE v
def State.selBit (s : State) (k : Nat) (f : Fld) : Bool := s.shBit (R.CVC_SEL_PP_STAT k) f
def State.setSelBit (s : State) (k : Nat) (f : Fld) (b : Bool) : State := s.setShBit (R.CVC_SEL_PP_STAT k) f b

def State.minpw (s : State) (k : Nat) : Nat := s.shFld (R.CVC_SEL_PP_MINPW k) F.CVC_SEL_PP_MINPW_MINPW
def State.cvcFlag (s : State) (l : Lane) (f : Fld) : State := s.setBitF l R.CVC_STATUS f true

/-- Converter control of a lane runs: the lane is powered, not in SYS or POR reset, its block not in reset, and
not frozen. -/
def State.cvcRuns (s : State) (l : Lane) : Bool := s.tideRuns l && !(s.lane l).blocksInReset.contains 1 && s.blockOn l 10

/-! ### What the pins carry (R356, R368 to R372) -/

/-- What the selector puts on a pair: both outputs inactive, the safe pattern, or a lane's stream behind the
dead-time and minimum-pulse enforcers. -/
inductive PwDrive where
  | inactive
  | safePattern
  | stream (l : Lane)
  deriving DecidableEq, Repr

def State.selFrom (s : State) (k : Nat) : Lane := if s.selBit k F.CVC_SEL_PP_STAT_FROM then .W else .E

def State.pwDrive (s : State) (k : Nat) : PwDrive :=
  if s.shBit R.CVC_SEL_STATUS F.CVC_SEL_STATUS_CMN_SAFE || s.shBit R.CVC_SEL_STATUS F.CVC_SEL_STATUS_FRZ_PWM_HOLD ||
      (s.sel k).held then .safePattern
  else if s.selSt k = slSAFE then .safePattern
  else if s.selBit k F.CVC_SEL_PP_STAT_TRIPPED then .inactive
  else if s.selSt k = slRUN then .stream (s.selFrom k)
  else .inactive

/-! ### Run sets (R358, R361, R363, R367) -/

def readRun (s : State) (l : Lane) (k : Nat) : PairRt :=
  let g := fun (a : Nat) => s.fld l a ⟨28, 0⟩
  { per := g (R.CVC_PP_PER k), aon := g (R.CVC_PP_AON k), aoff := g (R.CVC_PP_AOFF k), bon := g (R.CVC_PP_BON k),
    boff := g (R.CVC_PP_BOFF k), phs := g (R.CVC_PP_PHS k), loadDue := false, first := false }

/-- DT_A + DT_B + 2 × MINPW of a pair, from its selector words. -/
def guardSum (cfg minpw : Word) : Nat :=
  getF cfg F.CVC_SEL_PP_CFG_DT_A + getF cfg F.CVC_SEL_PP_CFG_DT_B + 2 * getF minpw F.CVC_SEL_PP_MINPW_MINPW

/-- Fields of one run set (R358, R359, R361). -/
def runFieldsOk (x : PairRt) : Bool :=
  x.per == 0 || (decide (1280 ≤ x.per) && decide (x.aon < x.per) && decide (x.bon < x.per) && decide (x.phs < x.per) &&
    decide (x.aoff ≤ x.per) && decide (x.boff ≤ x.per))

def guardOk (guard per : Nat) : Bool := per == 0 || decide (guard < per)

/-- The whole check of a load. -/
def State.runOk (s : State) (l : Lane) (k : Nat) (x : PairRt) : Bool :=
  let cfg := s.reg l (R.CVC_PP_CFG k)
  let m := getF cfg F.CVC_PP_CFG_SYNC_M
  let syncOk := getF cfg F.CVC_PP_CFG_SYNC_EN == 0 ||
    ((s.pair l m).per == x.per && s.fld l (R.CVC_PP_CFG m) F.CVC_PP_CFG_SYNC_EN == 0)
  x.per == 0 || (runFieldsOk x && syncOk &&
    guardOk (guardSum (s.shReg (R.CVC_SEL_PP_CFG k)) (s.shReg (R.CVC_SEL_PP_MINPW k))) x.per)

/-! ### Pulses (R359, R360) -/

/-- Rise and fall of an output's high interval, as R359 reads a set for output A or B: COMPLEMENTARY B is the
inverse of A. -/
def reqOf (mode : Nat) (b : Bool) (x : PairRt) : Nat × Nat :=
  if mode = 0 ∨ x.per = 0 then (0, 0)
  else if !b then (x.aon, x.aoff)
  else if mode = 2 then (x.bon, x.boff)
  else if x.aon = x.aoff then (0, x.per)
  else if x.aoff = x.per then (0, x.aon)
  else if x.aon = 0 then (x.aoff, x.per)
  else (x.aoff, x.aon)

/-- Length of the high interval that runs into the end of a period. -/
def tailLen (per : Nat) (r : Nat × Nat) : Nat :=
  if r.2 < r.1 then per - r.1 else if r.2 = per ∧ r.1 < r.2 then per - r.1 else 0

/-- Length of the high interval that runs on from the start of a period. -/
def headLen (r : Nat × Nat) : Nat := if r.2 < r.1 then r.2 else if r.1 = 0 then r.2 else 0

/-- Length of the interval that lies inside a period. -/
def innerLen (per : Nat) (r : Nat × Nat) : Nat := if 0 < r.1 ∧ r.1 < r.2 ∧ r.2 < per then r.2 - r.1 else 0

/-- Pulses of one output dropped as a new set takes over: the one that spans the boundary, and the one inside the
new period. `first` says that nothing stands before the new period. -/
def droppedPulses (minpw : Nat) (pOld pNew : Nat) (old new_ : Nat × Nat) (first : Bool) : Nat :=
  let tail := if first then 0 else tailLen pOld old
  let span := tail + headLen new_
  let through := !first && old.1 == 0 && old.2 == pOld && decide (0 < pOld)
  b2n (!through && decide (0 < span ∧ span < minpw)) +
    b2n (decide (0 < innerLen pNew new_ ∧ innerLen pNew new_ < minpw))

/-! ### Sequences (R378 to R382) -/

def State.stepAdc (s : State) (l : Lane) (q j : Nat) : Nat := s.fld l (R.CVC_SEQ_STEP q j) F.CVC_SEQ_STEP_ADC
def State.seqLen (s : State) (l : Lane) (q : Nat) : Nat := s.fld l (R.CVC_SEQ_CFG q) F.CVC_SEQ_CFG_LEN_M1 + 1

/-- ADCs of the group that starts at a step: steps join until an ADC repeats. -/
def groupFrom (adcs : List Nat) : List Nat :=
  adcs.foldl (fun (acc : List Nat × Bool) a =>
    if acc.2 || acc.1.contains a then (acc.1, true) else (acc.1 ++ [a], false)) ([], false) |>.1

def State.groupAdcs (s : State) (l : Lane) (q j : Nat) : List Nat :=
  groupFrom ((List.range (s.seqLen l q - j)).map (fun i => s.stepAdc l q (j + i)))

def State.seqRt (s : State) (l : Lane) (q : Nat) : SeqRt := ((s.cvc l).seqs[q]?).getD ⟨0, false⟩
def State.setSeqRt (s : State) (l : Lane) (q : Nat) (x : SeqRt) : State :=
  s.setCvc l { s.cvc l with seqs := (s.cvc l).seqs.set q x }

def State.seqBusy (s : State) (l : Lane) (q : Nat) : Bool := s.bit l (R.CVC_SEQ_STAT q) F.CVC_SEQ_STAT_BUSY

/-- ADCs in conversion in a lane; AD15 too while the mains PLL holds it. -/
def State.adcsBusy (s : State) (l : Lane) : List Nat :=
  (((List.range 16).filter (fun q => s.seqBusy l q && (s.seqRt l q).conv)).map (fun q =>
    s.groupAdcs l q (s.seqRt l q).step)).flatten ++
    (if s.bit l R.CVC_STATUS F.CVC_STATUS_AD15_HELD then [15] else [])

/-- A group starts where its ADCs are free and no group ahead of it waits for one of them; else it waits (R380). -/
def State.startGroup (s : State) (l : Lane) (q : Nat) : State :=
  let need := s.groupAdcs l q (s.seqRt l q).step
  let ahead := (((s.cvc l).adcQ).map (fun p => s.groupAdcs l p (s.seqRt l p).step)).flatten
  if need.any (fun a => (s.adcsBusy l).contains a || ahead.contains a) then
    let s := (s.cvcFlag l F.CVC_STATUS_ADC_WAIT).count l (R.CVC_CNT 2)
    s.setCvc l { s.cvc l with adcQ := (s.cvc l).adcQ ++ [q] }
  else s.setSeqRt l q { s.seqRt l q with conv := true }

/-- Waiting groups start in the order of their starts, as far as their ADCs are free. -/
def State.serveAdcs (s : State) (l : Lane) : State :=
  let q := (s.cvc l).adcQ
  let s := s.setCvc l { s.cvc l with adcQ := [] }
  s.forEach q (fun s p =>
    let need := s.groupAdcs l p (s.seqRt l p).step
    let ahead := (((s.cvc l).adcQ).map (fun x => s.groupAdcs l x (s.seqRt l x).step)).flatten
    if need.any (fun a => (s.adcsBusy l).contains a || ahead.contains a) then
      s.setCvc l { s.cvc l with adcQ := (s.cvc l).adcQ ++ [p] }
    else s.setSeqRt l p { s.seqRt l p with conv := true })

/-- A sequence is started (R379). -/
def State.startSeq (s : State) (l : Lane) (q : Nat) : State :=
  if !s.cvcRuns l || !s.bit l (R.CVC_SEQ_CFG q) F.CVC_SEQ_CFG_EN then s
  else if s.seqBusy l q then
    ((s.setBitF l (R.CVC_SEQ_STAT q) F.CVC_SEQ_STAT_OVERRUN true).cvcFlag l F.CVC_STATUS_OVERRUN).count l (R.CVC_CNT 1)
  else
    let s := s.setBitF l (R.CVC_SEQ_STAT q) F.CVC_SEQ_STAT_BUSY true
    let s := (s.countFld l (R.CVC_SEQ_STAT q) F.CVC_SEQ_STAT_RUNS).count l (R.CVC_CNT 0)
    (s.setSeqRt l q ⟨0, false⟩).startGroup l q

/-! ### The lattice (R383 to R388) -/

/-- Division by 2^n rounded to the nearest; a tie is a free value. -/
def roundShift (x : Int) (n : Nat) : Int :=
  let d : Int := (2 ^ n : Nat)
  let q := x / d
  let f := 2 * (x % d)
  if f < d then q else if d < f then q + 1 else if Config.halfUp x then q + 1 else q

/-- A sum of coefficient products at 61 fractional bits, rounded to 31 and saturated to the state range; the flag
says that the saturation acted. -/
def nodeSum (x : Int) : Int × Bool :=
  let r := roundShift x 30
  (satS 40 r, satS 40 r != r)

/-- Value of a source code (Table 12.6). -/
def State.nodeSrc (s : State) (l : Lane) (c : Nat) : Int :=
  if c = 0 then 0
  else if 0x10 ≤ c ∧ c < 0x20 then sext 32 (s.reg l (R.CVC_KN_OUT (c - 0x10))).toNat
  else if 0x20 ≤ c ∧ c < 0x30 then sext 32 (s.reg l (R.CVC_REF (c - 0x20))).toNat
  else if 0x200 ≤ c ∧ c < 0x400 then
    ((s.fld l (R.CVC_SEQ_RES ((c - 0x200) / 32) (c % 32)) F.CVC_SEQ_RES_CODE : Int) - 32768) * 65536
  else 0

def srcCodeOk (c : Nat) : Bool :=
  c == 0 || decide (0x10 ≤ c ∧ c < 0x30) || decide (0x200 ≤ c ∧ c < 0x400)

/-- Stored state h of a node, Q9.31. -/
def State.nodeState (s : State) (l : Lane) (i h : Nat) : Int :=
  sext 64 ((s.reg l (R.CVC_KN_STATE i h 0)).toNat + turn32 * (s.reg l (R.CVC_KN_STATE i h 1)).toNat)

def State.setNodeState (s : State) (l : Lane) (i h : Nat) (v : Int) : State :=
  let n := uext 64 v
  (s.setReg l (R.CVC_KN_STATE i h 0) (BitVec.ofNat 32 n)).setReg l (R.CVC_KN_STATE i h 1) (BitVec.ofNat 32 (n / turn32))

/-- All stored state of a node zeroed (R388). -/
def State.zeroNode (s : State) (l : Lane) (i : Nat) : State :=
  s.forEach [0, 1, 2, 3, 4, 5] (fun s h => s.setNodeState l i h 0)

/-- What one execution of a node gives: the clamped output, the new head of the output history, and the flags. -/
structure NodeRes where
  u : Int
  h : Int
  sat : Bool
  ssat : Bool

def clampI (lo hi v : Int) : Int := max lo (min hi v)

/-- Table 12.4. `c` gives coefficients B0 to B3 and A1 to A3 as signed Q2.30, `es` and `us` the histories. -/
def nodeForm (form : Nat) (c : Nat → Int) (e e1 e2 e3 u1 u2 u3 lo hi : Int) : NodeRes :=
  match form with
  | 0 =>
    let sn := nodeSum (c 1 * e + u1 * (2 ^ 30 : Nat))
    let un := nodeSum (c 0 * e + sn.1 * (2 ^ 30 : Nat))
    let u := clampI lo hi un.1
    let back := nodeSum (u * (2 ^ 30 : Nat) - c 0 * e)
    { u := u, h := if u != un.1 then back.1 else sn.1, sat := u != un.1, ssat := sn.2 || un.2 }
  | 1 =>
    let rn := nodeSum (c 1 * e + c 2 * e1 + c 3 * e2 + c 4 * u1 + c 5 * u2)
    let un := nodeSum (c 0 * e + rn.1 * (2 ^ 30 : Nat))
    let u := clampI lo hi un.1
    { u := u, h := rn.1, sat := u != un.1, ssat := rn.2 || un.2 }
  | 2 =>
    let un := nodeSum (c 0 * e + c 1 * e1 + c 2 * e2 + c 4 * u1 + c 5 * u2)
    let u := clampI lo hi un.1
    { u := u, h := u, sat := u != un.1, ssat := un.2 }
  | _ =>
    let un := nodeSum (c 0 * e + c 1 * e1 + c 2 * e2 + c 3 * e3 + c 4 * u1 + c 5 * u2 + c 6 * u3)
    let u := clampI lo hi un.1
    { u := u, h := u, sat := u != un.1, ssat := un.2 }

/-- Product of a Q1.31 output and a number of units, rounded to whole units. -/
def unitsOf (u : Int) (n : Nat) : Nat := (roundShift (u * (n : Int)) 31).toNat

/-- A destination write (Table 12.5): run registers of a pair, or a comparator's threshold. -/
def State.nodeDest (s : State) (l : Lane) (dest idx : Nat) (u : Int) (scale : Nat) : State :=
  let u := max u 0
  let per := (s.pair l idx).per
  let wr := fun (s : State) (a v : Nat) => s.setReg l a (BitVec.ofNat 32 (v % 2 ^ 29))
  match dest with
  | 1 =>
    let x := unitsOf u per
    wr s (R.CVC_PP_AOFF idx) (if x = per then per else (s.fld l (R.CVC_PP_AON idx) F.CVC_PP_AON_V + x) % per)
  | 2 =>
    let p : Int := (per : Int) * (2 ^ 31 : Nat)
    let s := wr s (R.CVC_PP_AON idx) (roundShift (p - u * per) 32).toNat
    wr s (R.CVC_PP_AOFF idx) (roundShift (p + u * per) 32).toNat
  | 3 => wr s (R.CVC_PP_PHS idx) (unitsOf u per)
  | 4 => wr s (R.CVC_PP_PER idx) (unitsOf u scale)
  | 5 => s.setFld l (R.CVC_CM_STAT idx) F.CVC_CM_STAT_THR (u * 1024 / (2 ^ 31 : Nat)).toNat
  | _ => s

def destPair (dest : Nat) : Bool := decide (1 ≤ dest ∧ dest ≤ 4)

/-- One node executes: its form, its history, its output and its destination. -/
def State.runNode (s : State) (l : Lane) (i : Nat) : State :=
  let cfg := s.reg l (R.CVC_KN_CFG i)
  let inp := s.reg l (R.CVC_KN_IN i)
  let e := satS 32 (s.nodeSrc l (getF inp F.CVC_KN_IN_SRC_A) - s.nodeSrc l (getF inp F.CVC_KN_IN_SRC_B))
  let c := fun (n : Nat) => sext 32 (s.reg l (R.CVC_KN_B0 i + 4 * n)).toNat
  let h := fun (n : Nat) => s.nodeState l i n
  let res := nodeForm (getF cfg F.CVC_KN_CFG_FORM) c e (h 0) (h 1) (h 2) (h 3) (h 4) (h 5)
    (sext 32 (s.reg l (R.CVC_KN_UMIN i)).toNat) (sext 32 (s.reg l (R.CVC_KN_UMAX i)).toNat)
  let t := s.setNodeState l i 2 (h 1)
  let t := (t.setNodeState l i 1 (h 0)).setNodeState l i 0 e
  let t := (t.setNodeState l i 5 (h 4)).setNodeState l i 4 (h 3)
  let t := t.setNodeState l i 3 res.h
  let t := t.setReg l (R.CVC_KN_OUT i) (BitVec.ofNat 32 (uext 32 res.u))
  let st := R.CVC_KN_STAT i
  let t := (t.setBitF l st F.CVC_KN_STAT_SAT res.sat).countFld l st F.CVC_KN_STAT_RUNS
  let t := if res.ssat then t.setBitF l st F.CVC_KN_STAT_STATE_SAT true else t
  let v := t.cvc l
  let times := ((((v.nodeTimes[i]?).getD []) ++ [t.now]))
  let t := t.setCvc l { v with nodeTimes := v.nodeTimes.set i (times.drop (times.length - 17)) }
  t.nodeDest l (getF cfg F.CVC_KN_CFG_DEST) (getF cfg F.CVC_KN_CFG_DEST_IDX) res.u
    (s.reg l (R.CVC_KN_SCALE i)).toNat

/-- A chain is kicked at its start node (R386). -/
def State.kick (s : State) (l : Lane) (i : Nat) : State :=
  let v := s.cvc l
  if v.chainQ.contains i || (match v.chain with
      | some c => c.1 == i
      | none => false) then
    (s.cvcFlag l F.CVC_STATUS_CHAIN_OVERRUN).count l (R.CVC_CNT 4)
  else
    let s := s.count l (R.CVC_CNT 3)
    match v.chain with
    | some _ => s.setCvc l { v with chainQ := v.chainQ ++ [i] }
    | none => s.setCvc l { v with chain := some (i, i) }

/-- Nodes that a chain passes from a start node, by its NEXT fields. -/
def chainNodes (g : Nat → Word) : Nat → Nat → List Nat
  | 0, _ => []
  | n + 1, i =>
    let c := g (R.CVC_KN_CFG i)
    i :: (if getF c F.CVC_KN_CFG_EN = 1 ∧ getF c F.CVC_KN_CFG_NEXT_EN = 1 then
            chainNodes g n (getF c F.CVC_KN_CFG_NEXT)
          else [])

/-- Nodes that the NEXT fields pass from a node, up to a bound. -/
def nextRun (g : Nat → Word) : Nat → Nat → Nat
  | 0, _ => 0
  | n + 1, i =>
    let c := g (R.CVC_KN_CFG i)
    1 + (if getF c F.CVC_KN_CFG_NEXT_EN = 1 then nextRun g n (getF c F.CVC_KN_CFG_NEXT) else 0)

/-- The NEXT fields form a loop: from some node they pass more than 16 nodes. -/
def nextLoop (g : Nat → Word) : Bool := (List.range 16).any (fun i => nextRun g 17 i == 17)

/-! ### Consistency -/

def pairCfgOk (g : Nat → Word) (k : Nat) : Bool :=
  let c := g (R.CVC_PP_CFG k)
  let m := getF c F.CVC_PP_CFG_SYNC_M
  decide (getF c F.CVC_PP_CFG_MODE ≤ 2) && decide (m ≤ 11) &&
    (getF c F.CVC_PP_CFG_SYNC_EN == 0 || getF (g (R.CVC_PP_CFG m)) F.CVC_PP_CFG_SYNC_EN == 0)

def nodeCfgOk (g : Nat → Word) (i : Nat) : Bool :=
  let c := g (R.CVC_KN_CFG i)
  let inp := g (R.CVC_KN_IN i)
  let d := getF c F.CVC_KN_CFG_DEST
  decide (d ≤ 5) && (!destPair d || decide (getF c F.CVC_KN_CFG_DEST_IDX ≤ 11)) &&
    srcCodeOk (getF inp F.CVC_KN_IN_SRC_A) && srcCodeOk (getF inp F.CVC_KN_IN_SRC_B) &&
    decide (sext 32 (g (R.CVC_KN_UMIN i)).toNat < sext 32 (g (R.CVC_KN_UMAX i)).toNat) &&
    (getF c F.CVC_KN_CFG_TRACK == 0 ||
      (getF c F.CVC_KN_CFG_FORM == 1 && getF c F.CVC_KN_CFG_HARM != 0)) &&
    !nextLoop g

def compCfgOk (w : Word) : Bool := decide (4 ≤ getF w F.CVC_CM_CFG_FILT)

/-- A sequence names AD15 only while the mains PLL does not hold it (R334, R381). -/
def seqCfgOk (g : Nat → Word) (held : Bool) (q : Nat) : Bool :=
  !held || (List.range (getF (g (R.CVC_SEQ_CFG q)) F.CVC_SEQ_CFG_LEN_M1 + 1)).all (fun j =>
    getF (g (R.CVC_SEQ_STEP q j)) F.CVC_SEQ_STEP_ADC != 15)

/-- Regions of a CVC commit: a pair by its number, a node at 32, a sequence at 200, a comparator at 220, the
selector at 100, and at 110 the selector values of a pair that wait for its period boundary. -/
def cvcRegion (a : Nat) : Nat :=
  let o := a - 0xE0A00000
  if 0x80000 ≤ o then 100
  else if 0x1000 ≤ o ∧ o < 0x2000 then (o - 0x1000) / 0x40
  else if 0x2000 ≤ o ∧ o < 0x4000 then 200 + (o - 0x2000) / 0x200
  else if 0x4000 ≤ o ∧ o < 0x5000 then 220 + (o - 0x4000) / 0x10
  else 32 + (o - 0x5000) / 0x80

/-- A node whose destination pair has an output of another world than its owner's (R387). -/
def nodeWorldBad (s : State) (c : Commit) : Bool :=
  decide (32 ≤ c.region ∧ c.region < 48) &&
    (let w := s.after c (R.CVC_KN_CFG (c.region - 32))
     let k := getF w F.CVC_KN_CFG_DEST_IDX
     let sec := ((s.cvc c.lane).nodeSec[c.region - 32]?).getD false
     destPair (getF w F.CVC_KN_CFG_DEST) &&
       [2 * k, 2 * k + 1].any (fun n => (s.reg c.lane R.LHS_WATTR_PW).toNat.testBit n != sec))

/-- The owner's world of a node is its writer's. -/
def State.ownNode (s : State) (l : Lane) (i : Nat) (sec : Bool) : State :=
  s.setCvc l { s.cvc l with nodeSec := (s.cvc l).nodeSec.set i sec }

def chkCvc (s : State) (c : Commit) : Bool :=
  let g := s.commitView c
  let r := c.region
  if r < 12 then pairCfgOk g r
  else if r < 100 then nodeCfgOk g (r - 32) && !nodeWorldBad s c
  else if 220 ≤ r then compCfgOk (g (R.CVC_CM_CFG (r - 220)))
  else if 200 ≤ r then seqCfgOk g (s.bit c.lane R.TIDE_MPLL_CFG F.TIDE_MPLL_CFG_MPLL_EN) (r - 200)
  else true

/-- One-shot CLR_STATE, and a comparator's DAC as its threshold (R387, R388). -/
def State.afterCvcCommit (s : State) (c : Commit) : State :=
  let l := c.lane
  let r := c.region
  if 32 ≤ r ∧ r < 48 then
    let i := r - 32
    let a := R.CVC_KN_CFG i
    if s.bit l a F.CVC_KN_CFG_CLR_STATE then
      let s := (s.setBitF l a F.CVC_KN_CFG_CLR_STATE false).setShadow l a (setF (s.shadow l a) F.CVC_KN_CFG_CLR_STATE 0)
      s.zeroNode l i
    else s
  else if 220 ≤ r then
    let n := r - 220
    let s := s.setFld l (R.CVC_CM_STAT n) F.CVC_CM_STAT_THR (s.fld l (R.CVC_CM_CFG n) F.CVC_CM_CFG_DAC)
    if s.bit l (R.CVC_CM_CFG n) F.CVC_CM_CFG_EN then s else s.setBitF l (R.CVC_CM_STAT n) F.CVC_CM_STAT_OUT false
  else s

/-- A lane-side CVC copy reaches its safe point. -/
def State.applyCvc (s : State) (l : Lane) (region : Nat) : State :=
  match s.pendCommit 10 region l with
  | none => s
  | some c =>
    let ok := chkCvc s c
    let t := s.applyCommit ok R.CVC_STATUS F.CVC_STATUS_CFG_INCONSISTENT eCFG_REJECTED c
    if ok then t.afterCvcCommit c
    else if nodeWorldBad s c then
      t.policy l 3 (c.region - 32) 0 (if ((s.cvc l).nodeSec[c.region - 32]?).getD false then .secure else .normal)
    else t

/-- A node's copy waits for its chain, where that executes now; else it takes effect (R388). -/
def State.applyNodes (s : State) (l : Lane) : State :=
  let busy := match (s.cvc l).chain with
    | some c => chainNodes (s.reg l) 16 c.1 ++ [c.2]
    | none => []
  s.forEach ((List.range 16).filter (fun i => !busy.contains i)) (fun s i => s.applyCvc l (32 + i))

/-- A COMMIT copy of the lane side, split by the safe points of Table 1.7. -/
def State.commitCvc (s : State) (l : Lane) (ws : List RegCell) (lsns : List Nat) : State :=
  let rs := (ws.map (fun c => cvcRegion c.1)).eraseDups
  let s := s.forEach rs (fun s r => s.addCommit 10 r l (ws.filter (fun c => cvcRegion c.1 == r)) lsns false)
  s.applyNodes l

def State.commitCvcCmd (s : State) (r : Req) (ws : List RegCell) (lsn : Nat) : State :=
  let h := s.holderOr r.lane
  let s := (s.writeShadows .E ws).writeShadows .W ws
  (s.commitCvc h.other ws []).commitCvc h ws [lsn]

/-! ### Trips (R369, R374) -/

/-- A lane's comparator lines reach the Commons only while it is ACTIVE or STANDBY. -/
def State.cmLine (s : State) (l : Lane) (c : Nat) : Bool :=
  (s.lst l == stACTIVE || s.lst l == stSTANDBY) && s.bit l (R.CVC_CM_CFG c) F.CVC_CM_CFG_EN &&
    s.bit l (R.CVC_CM_STAT c) F.CVC_CM_STAT_OUT

/-- Sources of a pair that assert and that its mask takes: bits 15:0 comparators, 23:16 TRIP inputs. -/
def State.tripLevel (s : State) (k : Nat) : Nat :=
  let cms := bitsOf ((List.range 16).filter (fun c => s.cmLine .E c || s.cmLine .W c))
  let ins := s.shFld R.CVC_SEL_STATUS F.CVC_SEL_STATUS_TRIP_IN
  (cms + 65536 * ins) &&& (s.shReg (R.CVC_SEL_PP_MASK k)).toNat

/-- The flag of a pair sets on the level of a masked source. -/
def State.syncTrip (s : State) (k : Nat) : State :=
  let lv := s.tripLevel k
  if lv = 0 then s
  else
    let a := R.CVC_SEL_PP_STAT k
    let s := if s.selBit k F.CVC_SEL_PP_STAT_TRIPPED then s
      else (s.setSelBit k F.CVC_SEL_PP_STAT_TRIPPED true).countShFld (R.CVC_SEL_PP_CNT k) F.CVC_SEL_PP_CNT_TRIPS
    s.setShFld a F.CVC_SEL_PP_STAT_TRIP_SRC (s.shFld a F.CVC_SEL_PP_STAT_TRIP_SRC ||| lv)

def pairs12 : List Nat := List.range 12

def State.syncTrips (s : State) : State := s.forEach pairs12 (fun s k => s.syncTrip k)

def State.clearTrip (s : State) (k : Nat) : State :=
  (s.setSelBit k F.CVC_SEL_PP_STAT_TRIPPED false).setShFld (R.CVC_SEL_PP_STAT k) F.CVC_SEL_PP_STAT_TRIP_SRC 0

/-! ### PWM_ENABLE at the selector (R370, R394) -/

def eTRIP_ACTIVE : Nat := 0x0501
def eNO_STREAM : Nat := 0x0502

/-- Pair `k` of every work of action `act` is done with; a work with no pair left is DONE. -/
def State.pwmPairDone (s : State) (act k : Nat) : State :=
  let ws := s.pwmWork.map (fun w => if w.act = act then { w with mask := clearBit w.mask k } else w)
  let fin := (ws.filter (fun w => w.mask == 0)).map PwmWork.lsn
  ({ s with pwmWork := ws.filter (fun w => w.mask != 0) }).forEach fin (fun s n => s.done n)

/-- Works of an action that name pair `k` fail. -/
def State.pwmPairFail (s : State) (act k err : Nat) : State :=
  let bad := s.pwmWork.filter (fun w => w.act == act && nbit w.mask k)
  ({ s with pwmWork := s.pwmWork.filter (fun w => !(w.act == act && nbit w.mask k)) }).forEach
    (bad.map PwmWork.lsn) (fun s n => s.failed n err)

/-- A record acts at the selector. -/
def State.pwmAct (s : State) (w : PwmWork) : State :=
  let ks := maskBits 12 w.mask
  let s := { s with pwmWork := s.pwmWork ++ [w] }
  if w.act = 1 then
    s.forEach ks (fun s k => s.setSel k { s.sel k with enable := true })
  else if w.act = 2 then
    s.forEach ks (fun s k =>
      let s := (s.setSelSt k slOFF).setSel k { s.sel k with enable := false }
      (s.pwmPairDone 2 k))
  else
    s.forEach ks (fun s k =>
      if s.selBit k F.CVC_SEL_PP_STAT_TRIPPED then s.setSel k { s.sel k with clear := true } else s.pwmPairDone 3 k)

/-- The Commons applies a record: in a holder copy, or as an urgent command, it acts; else it is refused. -/
def State.pwmRecord (s : State) (lsn : Nat) (holder : Bool) : State :=
  match s.pwmRecs.find? (fun r => r.lsn == lsn) with
  | none => s
  | some r =>
    let s := { s with pwmRecs := s.pwmRecs.filter (fun x => x.lsn != lsn) }
    if holder && s.holder.isSome then s.pwmAct ⟨r.lsn, r.act, r.mask⟩ else s.failed lsn eNO_STREAM

/-- Carried records when the Commons applies a frame (R370). -/
def State.pwmFrame (s : State) (holder : Bool) : State :=
  s.forEach ((s.pwmRecs.filter PwmRec.carried).map PwmRec.lsn) (fun s n => s.pwmRecord n holder)

/-! ### Selector commits (R367, R371) -/

def selGuardOk (s : State) (g : Nat → Word) : Bool :=
  pairs12.all (fun k =>
    let x := guardSum (g (R.CVC_SEL_PP_CFG k)) (g (R.CVC_SEL_PP_MINPW k))
    guardOk x (s.pair .E k).per && guardOk x (s.pair .W k).per)

/-- The Commons takes a selector copy from a frame: TRIP_FILT at once, a pair's values at its next period
boundary. -/
def State.applySelFrame (s : State) (c : Commit) : State :=
  let g := s.commitView c
  let ok := selGuardOk s g && decide (4 ≤ getF (g R.CVC_SEL_TRIPIN) F.CVC_SEL_TRIPIN_TRIP_FILT)
  if !ok then s.applyCommit false R.CVC_SEL_STATUS F.CVC_SEL_STATUS_CFG_INCONSISTENT eCFG_REJECTED c
  else
    let s := (s.dropCommit c).setNum { s.commitNum c.block c.region with applied := c.num }
    let own := fun (k : Nat) => c.writes.filter (fun x =>
      decide (R.CVC_SEL_PP_CFG k ≤ x.1) && decide (x.1 < R.CVC_SEL_PP_CFG k + 0x20))
    let s := s.activateAll c.lane (c.writes.filter (fun x => x.1 == R.CVC_SEL_TRIPIN))
    let s := s.forEach (pairs12.filter (fun k => own k != [])) (fun s k =>
      s.addCommit 10 (110 + k) .E (own k) c.lsns false)
    s.settleAll c.lsns

def State.applySelPair (s : State) (k : Nat) : State :=
  match s.pendCommit 10 (110 + k) .E with
  | none => s
  | some c =>
    let s := (s.dropCommit c).activateAll .E c.writes
    (s.settleAll c.lsns).syncTrip k

/-! ### A period boundary -/

/-- The selector at a period boundary of the stream of lane `l` (Table 12.1, R369 to R371). -/
def State.selBoundary (s : State) (l : Lane) (k : Nat) : State :=
  if s.holder ≠ some l ∨ s.leaseValid l = false then s
  else
    let st := s.selSt k
    let e := (s.sel k).enable
    let toRun := (e && st != slSWITCH) || st == slWAIT
    let s := if toRun then
        let changed := s.selFrom k != l && st != slOFF
        let s := (s.setSelSt k slRUN).setSelBit k F.CVC_SEL_PP_STAT_FROM (l == .W)
        if changed then s.countShFld (R.CVC_SEL_PP_CNT k) F.CVC_SEL_PP_CNT_SWITCHES else s
      else s
    if s.selFrom k != l then s
    else
      let s := s.applySelPair k
      let hold := s.shBit R.CVC_SEL_STATUS F.CVC_SEL_STATUS_FRZ_PWM_HOLD
      let clr := (s.sel k).clear
      let s := s.setSel k { enable := false, clear := false, held := (s.sel k).held && hold }
      let lv := s.tripLevel k
      let tripped := s.selBit k F.CVC_SEL_PP_STAT_TRIPPED
      let latch := s.shBit (R.CVC_SEL_PP_CFG k) F.CVC_SEL_PP_CFG_TRIP_LATCH
      let s := if tripped && lv == 0 && (!latch || clr) then (s.clearTrip k).pwmPairDone 3 k
        else if tripped && clr then
          (s.setSelBit k F.CVC_SEL_PP_STAT_CLR_REFUSED true).pwmPairFail 3 k eTRIP_ACTIVE
        else s
      if e then
        if s.selBit k F.CVC_SEL_PP_STAT_TRIPPED then s.pwmPairFail 1 k eTRIP_ACTIVE else s.pwmPairDone 1 k
      else s

/-- A run set is taken: the period counter starts or stops, pulses too short are dropped. -/
def State.takeRun (s : State) (l : Lane) (k : Nat) (x : PairRt) : State :=
  let old := s.pair l k
  let mode := s.fld l (R.CVC_PP_CFG k) F.CVC_PP_CFG_MODE
  let first := old.per == 0
  let n := droppedPulses (s.minpw k) old.per x.per (reqOf mode false old) (reqOf mode false x) first +
    droppedPulses (s.minpw k) old.per x.per (reqOf mode true old) (reqOf mode true x) first
  let s := s.setPair l k { x with first := first }
  let s := s.setBitF l (R.CVC_PP_STAT k) F.CVC_PP_STAT_RUNNING (x.per != 0)
  let s := if 0 < n then s.setBitF l (R.CVC_PP_STAT k) F.CVC_PP_STAT_DROP true else s
  s.forEach (List.range n) (fun s _ => s.count l (R.CVC_CNT 5))

/-- The load at a boundary (R361, R362). -/
def State.loadPair (s : State) (l : Lane) (k : Nat) : State :=
  let old := s.pair l k
  if s.bit l (R.CVC_PP_CFG k) F.CVC_PP_CFG_LOAD_EVT && !old.loadDue && old.per != 0 then s.takeRun l k old
  else
    let x := readRun s l k
    if s.runOk l k x then s.takeRun l k x
    else
      let s := s.setPair l k { old with loadDue := false }
      let s := (s.setBitF l (R.CVC_PP_STAT k) F.CVC_PP_STAT_EDGE_BAD true).cvcFlag l F.CVC_STATUS_CFG_INCONSISTENT
      s.count l (R.CVC_CNT 6)

/-- A trigger position at or above the PER in force does not fire in the period (R364). -/
def State.missTriggers (s : State) (l : Lane) (k : Nat) : State :=
  let per := (s.pair l k).per
  let miss := fun (en : Fld) (a : Nat) =>
    s.bit l (R.CVC_PP_CFG k) en && per != 0 && decide (per ≤ s.fld l a ⟨28, 0⟩)
  let s := if miss F.CVC_PP_CFG_TRGA_EN (R.CVC_PP_TRGA k) then s.count l (R.CVC_CNT 7) else s
  if miss F.CVC_PP_CFG_TRGB_EN (R.CVC_PP_TRGB k) then s.count l (R.CVC_CNT 7) else s

/-- A pair of a lane reaches a period boundary (R361 to R364). -/
def State.pairBoundary (s : State) (l : Lane) (k : Nat) : State :=
  let s := s.applyCvc l k
  let s := s.loadPair l k
  let s := s.setReg l (R.CVC_PP_CNT k) 0
  (s.missTriggers l k).selBoundary l k

/-- A PWM_LOAD event names pairs of a lane. -/
def State.pwmLoad (s : State) (l : Lane) (mask : Nat) : State :=
  s.forEach (maskBits 12 mask) (fun s k => s.setPair l k { s.pair l k with loadDue := true })

/-- A PR node that tracks a harmonic recomputes A1 (R385). -/
def State.trackNode (s : State) (l : Lane) (i : Nat) : State :=
  let cfg := s.reg l (R.CVC_KN_CFG i)
  let ts := ((s.cvc l).nodeTimes[i]?).getD []
  match ts with
  | t0 :: rest =>
    if getF cfg F.CVC_KN_CFG_TRACK = 1 ∧ rest ≠ [] then
      let tn := rest.getLastD t0
      let tu := Frac.mk' ((tn - t0 : Nat) : Int) (1000000 * rest.length)
      let f := freqOfInc (s.tide l).inc
      let x := Frac.mul (Frac.mul twoPi (Frac.ofInt (getF cfg F.CVC_KN_CFG_HARM : Nat))) (Frac.mul f tu)
      let rho := Frac.mk' (sext 32 (s.reg l (R.CVC_KN_A3 i)).toNat) (2 ^ 30)
      let a1 := Frac.mul (Frac.mul (Frac.ofInt 2) rho) (Config.cosF x)
      s.setReg l (R.CVC_KN_A1 i) (BitVec.ofNat 32 (satField 32 (Frac.mul a1 (Frac.ofInt (2 ^ 30 : Nat))).floor))
    else s
  | [] => s

/-- Converter control at a lane's cycle boundary: sequences and comparators take their copies, pairs with PER 0
in force load, PR nodes track. -/
def State.cvcBoundary (s : State) (l : Lane) : State :=
  if !s.cvcRuns l then s
  else
    let s := s.forEach (List.range 16) (fun s n => (s.applyCvc l (200 + n)).applyCvc l (220 + n))
    let s := s.syncTrips
    let s := s.forEach (pairs12.filter (fun k => (s.pair l k).per == 0)) (fun s k => s.pairBoundary l k)
    s.forEach (List.range 16) (fun s i => s.trackNode l i)

/-- Both streams are present at a planned handover: every pair in RUN goes to SWITCH (Table 12.1). -/
def State.selHandover (s : State) : State :=
  s.forEach pairs12 (fun s k => if s.selSt k = slRUN then s.setSelSt k slSWITCH else s)

/-- A block reset of CVC in a lane, or a SYS or POR reset: nothing runs. -/
def State.cvcClear (s : State) (l : Lane) : State := s.setCvc l .reset

end Sys2Proof.Machine
end

