-- ==== Sys2Proof/Machine/CvcCmds.lean ====
section
/-! DEFINITION. The 0x05xx commands, and what happens in converter control (spec/12). -/

namespace Sys2Proof.Machine

/-! ### Commands (Tables 12.7 and 12.8) -/

/-- Outputs of pairs, for the world check. -/
def pairWorld (s : State) (r : Req) (ks : List Nat) : Option Nat :=
  s.worldOf r R.LHS_WATTR_PW ((ks.map (fun k => [2 * k, 2 * k + 1])).flatten)

/-- Pairs that nodes' destinations name, in the configuration that accepted commands have left. -/
def nodePairs (s : State) (r : Req) (ns : List Nat) : List Nat :=
  (ns.map (fun i => s.shadow (s.cfgLane r) (R.CVC_KN_CFG i))).filterMap (fun c =>
    if destPair (getF c F.CVC_KN_CFG_DEST) then some (getF c F.CVC_KN_CFG_DEST_IDX) else none)

def specCvcStatus : CmdSpec :=
  { opcode := 0x0500, accepted := false, lenOk := fun r => r.length == 0, maxResp := 56,
    answer := fun s r =>
      let l := (s.servedBy r.lane).getD r.lane
      wordBytes (s.reg l R.CVC_STATUS) ++ wordBytes (s.reg l R.CVC_SELM_STATUS) ++
        ((pairs12.map (fun k => wordBytes (s.reg l (R.CVC_SELM_PP_STAT k)))).flatten) }

def pairCells (r : Req) : List RegCell :=
  let k := r.u8 0
  [(R.CVC_PP_CFG k, r.w 4), (R.CVC_PP_TRGA k, r.w 8), (R.CVC_PP_TRGB k, r.w 12)]

/-- Bits of a payload word outside a mask are zero. -/
def onlyBits (w : Word) (mask : Nat) : Bool := w.toNat &&& mask == w.toNat

def specPwmPairConfig : CmdSpec :=
  { opcode := 0x0501, accepted := true, lenOk := fun r => r.length == 16,
    world := fun s r => pairWorld s r [r.u8 0],
    param := fun s r => decide (r.u8 0 ≤ 11) && r.u 1 3 == 0 && onlyBits (r.w 4) 0x001F1FFF &&
      onlyBits (r.w 8) 0x1FFFFFFF && onlyBits (r.w 12) 0x1FFFFFFF && pairCfgOk (s.cfgView r (pairCells r)) (r.u8 0),
    exec := fun s r lsn => s.commitCvcCmd r (pairCells r) lsn }

/-- The run set of a payload. -/
def payloadRun (r : Req) : PairRt :=
  { per := r.u32 4, aon := r.u32 8, aoff := r.u32 12, bon := r.u32 16, boff := r.u32 20, phs := r.u32 24,
    loadDue := false, first := false }

/-- DT_A + DT_B + 2 × MINPW in force at a pair (R367). -/
def guardInForce (s : State) (k : Nat) : Nat :=
  guardSum (s.shReg (R.CVC_SEL_PP_CFG k)) (s.shReg (R.CVC_SEL_PP_MINPW k))

def specPwmRun : CmdSpec :=
  { opcode := 0x0502, accepted := true, lenOk := fun r => r.length == 28,
    world := fun s r => pairWorld s r [r.u8 0],
    param := fun s r => decide (r.u8 0 ≤ 11) && r.u 1 3 == 0 &&
      [4, 8, 12, 16, 20, 24].all (fun o => decide (r.u32 o < 2 ^ 29)) && runFieldsOk (payloadRun r) &&
      guardOk (guardInForce s (r.u8 0)) (r.u32 4),
    exec := fun s r lsn =>
      let a := R.CVC_PP_PER (r.u8 0)
      let ws := [r.w 4, r.w 8, r.w 12, r.w 16, r.w 20, r.w 24]
      ((s.setRegs .E a ws).setRegs .W a ws).done lsn }

def guardCells (r : Req) : List RegCell :=
  let k := r.u8 0
  [(R.CVC_SEL_PP_CFG k, r.w 4), (R.CVC_SEL_PP_MINPW k, r.w 8), (R.CVC_SEL_PP_MASK k, r.w 12)]

def specPwmGuard : CmdSpec :=
  { opcode := 0x0503, accepted := true, lenOk := fun r => r.length == 16, perm := fun _ r => r.src.isChief,
    world := fun s r => pairWorld s r [r.u8 0],
    param := fun s r => decide (r.u8 0 ≤ 11) && r.u 1 3 == 0 && onlyBits (r.w 4) 0x3FFF1FFF &&
      onlyBits (r.w 8) 0x1FFF && onlyBits (r.w 12) 0xFFFFFF &&
      (let g := guardSum (r.w 4) (r.w 8)
       guardOk g (s.pair .E (r.u8 0)).per && guardOk g (s.pair .W (r.u8 0)).per),
    exec := fun s r lsn => s.commitShared 10 100 (guardCells r) lsn }

/-- PWM_ENABLE: its record goes with the frames, and ahead of them in the urgent slot of the Commons. -/
def specPwmEnable : CmdSpec :=
  { opcode := 0x0504, accepted := true, lenOk := fun r => r.length == 4, urgentOk := true,
    world := fun s r => pairWorld s r (maskBits 12 (r.u16 0)),
    param := fun _ r => decide (1 ≤ r.u16 0 ∧ r.u16 0 < 4096) && decide (1 ≤ r.u8 2 ∧ r.u8 2 ≤ 3) && r.u8 3 == 0,
    stateOk := fun s _ => !s.mod_.cmnSafe,
    exec := fun s r lsn =>
      let s := { s with pwmRecs := s.pwmRecs ++ [PwmRec.mk lsn (r.u8 2) (r.u16 0) false] }
      s.sendUrgent .CMN (r.u16 0) (r.u8 2) lsn }

def seqCells (r : Req) : List RegCell :=
  let q := r.u8 0
  (R.CVC_SEQ_CFG q, r.w 4) :: (List.range (getF (r.w 4) F.CVC_SEQ_CFG_LEN_M1 + 1)).map (fun j =>
    (R.CVC_SEQ_STEP q j, r.w (8 + 4 * j)))

def specAdcSeqConfig : CmdSpec :=
  { opcode := 0x0505, accepted := true, lenOk := fun r => decide (12 ≤ r.length ∧ r.length ≤ 136),
    param := fun _ r => decide (r.u8 0 ≤ 15) && r.u 1 3 == 0 && onlyBits (r.w 4) 0x1F011F &&
      r.length == 12 + 4 * getF (r.w 4) F.CVC_SEQ_CFG_LEN_M1 &&
      (seqCells r).tail.all (fun c => onlyBits c.2 0x1F0F),
    stateOk := fun s r => seqCfgOk (s.cfgView r (seqCells r))
      (s.cfgFld r R.TIDE_MPLL_CFG F.TIDE_MPLL_CFG_MPLL_EN == 1) (r.u8 0),
    exec := fun s r lsn => s.commitCvcCmd r (seqCells r) lsn }

def specAdcRead : CmdSpec :=
  { opcode := 0x0506, accepted := false, lenOk := fun r => r.length == 4, maxResp := 112,
    param := fun _ r => decide (r.u8 0 ≤ 15) && decide (r.u8 1 ≤ 31) && decide (1 ≤ r.u8 2 ∧ r.u8 2 ≤ 28) &&
      r.u8 3 == 0 && decide (r.u8 1 + r.u8 2 ≤ 32),
    answer := fun s r => s.regBytes ((s.servedBy r.lane).getD r.lane) (R.CVC_SEQ_RES (r.u8 0) (r.u8 1)) (r.u8 2) }

def specCompConfig : CmdSpec :=
  { opcode := 0x0507, accepted := true, lenOk := fun r => r.length == 8,
    param := fun _ r => decide (r.u8 0 ≤ 15) && r.u 1 3 == 0 && onlyBits (r.w 4) 0x0FF7FFFF && compCfgOk (r.w 4),
    exec := fun s r lsn => s.commitCvcCmd r [(R.CVC_CM_CFG (r.u8 0), r.w 4)] lsn }

def nodeCells (r : Req) : List RegCell :=
  let i := r.u8 0
  [(R.CVC_KN_CFG i, r.w 4), (R.CVC_KN_IN i, r.w 8), (R.CVC_KN_UMIN i, r.w 12), (R.CVC_KN_UMAX i, r.w 16),
   (R.CVC_KN_SCALE i, r.w 20)]

def specNodeConfig : CmdSpec :=
  { opcode := 0x0508, accepted := true, lenOk := fun r => r.length == 24,
    world := fun s r => if destPair (getF (r.w 4) F.CVC_KN_CFG_DEST) then
        pairWorld s r [getF (r.w 4) F.CVC_KN_CFG_DEST_IDX] else none,
    param := fun s r => decide (r.u8 0 ≤ 15) && r.u 1 3 == 0 && onlyBits (r.w 4) 0x1FFFFF &&
      onlyBits (r.w 8) 0x0FFF0FFF && onlyBits (r.w 20) 0x1FFFFFFF && nodeCfgOk (s.cfgView r (nodeCells r)) (r.u8 0),
    exec := fun s r lsn =>
      let sec := r.world == .secure
      ((s.ownNode .E (r.u8 0) sec).ownNode .W (r.u8 0) sec).commitCvcCmd r (nodeCells r) lsn }

def specNodeCoef : CmdSpec :=
  { opcode := 0x0509, accepted := true, lenOk := fun r => r.length == 32,
    world := fun s r => pairWorld s r (nodePairs s r [r.u8 0]),
    param := fun _ r => decide (r.u8 0 ≤ 15) && r.u 1 3 == 0,
    exec := fun s r lsn => s.commitCvcCmd r ((List.range 7).map (fun n =>
      (R.CVC_KN_B0 (r.u8 0) + 4 * n, r.w (4 + 4 * n)))) lsn }

/-- NODE_STATE in one lane: zero, or every stored output at a value (R388). -/
def State.nodeStateCmd (s : State) (l : Lane) (i act : Nat) (v : Int) : State :=
  if act = 1 then s.zeroNode l i else s.forEach [3, 4, 5] (fun s h => s.setNodeState l i h v)

def specNodeState : CmdSpec :=
  { opcode := 0x050A, accepted := true, lenOk := fun r => r.length == 8,
    world := fun s r => pairWorld s r (nodePairs s r [r.u8 0]),
    param := fun _ r => decide (r.u8 0 ≤ 15) && (r.u8 1 == 1 || r.u8 1 == 2) && r.u16 2 == 0,
    exec := fun s r lsn =>
      let v := sext 32 (r.u32 4)
      ((s.nodeStateCmd .E (r.u8 0) (r.u8 1) v).nodeStateCmd .W (r.u8 0) (r.u8 1) v).done lsn }

def nodeRange (r : Req) : List Nat := (List.range (r.u8 1)).map (· + r.u8 0)

def specNodeRead : CmdSpec :=
  { opcode := 0x050B, accepted := false, lenOk := fun r => r.length == 2, maxResp := 112,
    world := fun s r => pairWorld s r (nodePairs s r (nodeRange r)),
    param := fun _ r => decide (r.u8 0 ≤ 15) && decide (1 ≤ r.u8 1 ∧ r.u8 1 ≤ 14) && decide (r.u8 0 + r.u8 1 ≤ 16),
    answer := fun s r => ((nodeRange r).map (fun i =>
      s.regBytes ((s.servedBy r.lane).getD r.lane) (R.CVC_KN_OUT i) 2)).flatten }

def specRefSet : CmdSpec :=
  { opcode := 0x050C, accepted := true, lenOk := fun r => decide (8 ≤ r.length ∧ r.length ≤ 44),
    param := fun _ r => decide (r.u8 0 ≤ 15) && decide (1 ≤ r.u8 1 ∧ r.u8 1 ≤ 10) && r.u16 2 == 0 &&
      decide (r.u8 0 + r.u8 1 ≤ 16) && r.length == 4 + 4 * r.u8 1,
    exec := fun s r lsn =>
      let ws := (List.range (r.u8 1)).map (fun j => r.w (4 + 4 * j))
      ((s.setRegs .E (R.CVC_REF (r.u8 0)) ws).setRegs .W (R.CVC_REF (r.u8 0)) ws).done lsn }

def execCvcStatus (r : Req) (s : State) : Host.Outcome State Fault Refusal := runScs specCvcStatus r s
def execPwmPairConfig (r : Req) (s : State) : Host.Outcome State Fault Refusal := runScs specPwmPairConfig r s
def execPwmRun (r : Req) (s : State) : Host.Outcome State Fault Refusal := runScs specPwmRun r s
def execPwmGuard (r : Req) (s : State) : Host.Outcome State Fault Refusal := runScs specPwmGuard r s
def execPwmEnable (r : Req) (s : State) : Host.Outcome State Fault Refusal := runScs specPwmEnable r s
def execAdcSeqConfig (r : Req) (s : State) : Host.Outcome State Fault Refusal := runScs specAdcSeqConfig r s
def execAdcRead (r : Req) (s : State) : Host.Outcome State Fault Refusal := runScs specAdcRead r s
def execCompConfig (r : Req) (s : State) : Host.Outcome State Fault Refusal := runScs specCompConfig r s
def execNodeConfig (r : Req) (s : State) : Host.Outcome State Fault Refusal := runScs specNodeConfig r s
def execNodeCoef (r : Req) (s : State) : Host.Outcome State Fault Refusal := runScs specNodeCoef r s
def execNodeState (r : Req) (s : State) : Host.Outcome State Fault Refusal := runScs specNodeState r s
def execNodeRead (r : Req) (s : State) : Host.Outcome State Fault Refusal := runScs specNodeRead r s
def execRefSet (r : Req) (s : State) : Host.Outcome State Fault Refusal := runScs specRefSet r s

/-! ### Events -/

/-- A write of CVC_SEQ_SW starts the named sequences (R379). -/
def execSeqSwStart (l : Lane) (who : Initiator) (mask : Nat) (s : State) : Host.Outcome State Fault Refusal :=
  .next (if s.mayWrite l 10 who then (s.forEach (maskBits 16 mask) (fun s q => s.startSeq l q)).busOk 0 else s.busErr)

/-- A pair with a PER in force reaches a period boundary; one with PER 0 has cycle boundaries instead (R362). -/
def execPwmPeriodBoundary (l : Lane) (k : Nat) (s : State) : Host.Outcome State Fault Refusal :=
  .next (if s.cvcRuns l && decide (k < 12) && (s.pair l k).per != 0 then s.pairBoundary l k else s)

/-- TRGA or TRGB of a pair (R364, R379). -/
def execTriggerPosition (l : Lane) (k : Nat) (b : Bool) (s : State) : Host.Outcome State Fault Refusal :=
  let cfg := s.reg l (R.CVC_PP_CFG k)
  let en := getF cfg (if b then F.CVC_PP_CFG_TRGB_EN else F.CVC_PP_CFG_TRGA_EN) == 1
  let q := getF cfg (if b then F.CVC_PP_CFG_TRGB_SEQ else F.CVC_PP_CFG_TRGA_SEQ)
  let pos := s.fld l (if b then R.CVC_PP_TRGB k else R.CVC_PP_TRGA k) F.CVC_PP_TRGA_POS
  .next (if s.cvcRuns l && decide (k < 12) && en && decide (pos < (s.pair l k).per) then s.startSeq l q else s)

/-- A group of a sequence is ready (R378): its results, then the next group, or the sequence's end and its kick. -/
def State.groupDone (s : State) (l : Lane) (q : Nat) (codes : List Nat) : State :=
  let j := (s.seqRt l q).step
  let n := (s.groupAdcs l q j).length
  let run := s.fld l (R.CVC_SEQ_STAT q) F.CVC_SEQ_STAT_RUNS % 256
  let s := s.forEach (List.range n) (fun s i =>
    s.setReg l (R.CVC_SEQ_RES q (j + i)) (BitVec.ofNat 32 ((codes[i]?).getD 0 % 65536 + run * 2 ^ 24)))
  if j + n < s.seqLen l q then
    let s := s.setSeqRt l q ⟨j + n, false⟩
    (s.serveAdcs l).startGroup l q
  else
    let s := (s.setSeqRt l q ⟨0, false⟩).setBitF l (R.CVC_SEQ_STAT q) F.CVC_SEQ_STAT_BUSY false
    let s := s.serveAdcs l
    if s.bit l (R.CVC_SEQ_CFG q) F.CVC_SEQ_CFG_KICK_EN then s.kick l (s.fld l (R.CVC_SEQ_CFG q) F.CVC_SEQ_CFG_KICK_NODE)
    else s

def execAdcGroupComplete (l : Lane) (q : Nat) (codes : List Nat) (s : State) : Host.Outcome State Fault Refusal :=
  .next (if s.cvcRuns l && decide (q < 16) && s.seqBusy l q && (s.seqRt l q).conv then s.groupDone l q codes else s)

/-- The node in execution completes, and its chain goes on or ends; a node's pending copy takes effect at the
chain's end, and the next queued chain starts (R386, R388). -/
def State.nodeExecute (s : State) (l : Lane) (start i : Nat) : State :=
  let cfg := s.reg l (R.CVC_KN_CFG i)
  let en := getF cfg F.CVC_KN_CFG_EN == 1
  let s := if en then s.runNode l i else s
  if en && getF cfg F.CVC_KN_CFG_NEXT_EN == 1 then
    s.setCvc l { s.cvc l with chain := some (start, getF cfg F.CVC_KN_CFG_NEXT) }
  else
    let s := s.setCvc l { s.cvc l with chain := none }
    let s := s.applyNodes l
    match (s.cvc l).chainQ with
    | [] => s
    | n :: ns => s.setCvc l { s.cvc l with chain := some (n, n), chainQ := ns }

def execNodeExecute (l : Lane) (i : Nat) (s : State) : Host.Outcome State Fault Refusal :=
  .next (match (s.cvc l).chain with
    | some c => if s.cvcRuns l && c.2 == i then s.nodeExecute l c.1 i else s
    | none => s)

/-- A comparator's filtered output (R373, R374). -/
def execComparatorAssert (l : Lane) (c : Nat) (out : Bool) (s : State) : Host.Outcome State Fault Refusal :=
  let a := R.CVC_CM_STAT c
  let t := s.setBitF l a F.CVC_CM_STAT_OUT out
  let t := if out then t.setBitF l a F.CVC_CM_STAT_SEEN true else t
  .next (if s.cvcRuns l && decide (c < 16) && s.bit l (R.CVC_CM_CFG c) F.CVC_CM_CFG_EN then t.syncTrips else s)

/-- A TRIP input, in every state of both lanes (R375). -/
def execTripInputAssert (t : Nat) (on : Bool) (s : State) : Host.Outcome State Fault Refusal :=
  let v := s.shFld R.CVC_SEL_STATUS F.CVC_SEL_STATUS_TRIP_IN
  .next (if t < 8 ∧ s.cmn.up = true then
      (s.setShFld R.CVC_SEL_STATUS F.CVC_SEL_STATUS_TRIP_IN (if on then setBit v t else clearBit v t)).syncTrips
    else s)

/-- The later of the two period boundaries at a planned handover (R162). -/
def execSelectorSwitch (k : Nat) (s : State) : Host.Outcome State Fault Refusal :=
  .next (match s.holder with
    | some h =>
      if k < 12 ∧ s.selSt k = slSWITCH then
        let s := (s.setSelSt k slRUN).setSelBit k F.CVC_SEL_PP_STAT_FROM (h == .W)
        let s := s.countShFld (R.CVC_SEL_PP_CNT k) F.CVC_SEL_PP_CNT_SWITCHES
        s.selBoundary h k
      else s
    | none => s)

/-- The holder's stream ends without a planned switch (R163): every pair that runs on it waits. -/
def execStreamEnd (l : Lane) (s : State) : Host.Outcome State Fault Refusal :=
  .next (if s.leaseValid l then s
    else s.forEach pairs12 (fun s k =>
      if (s.selSt k = slRUN ∧ s.selFrom k = l) ∨ (s.selSt k = slSWITCH ∧ s.answering = false) then s.setSelSt k slWAIT else s))

/-- Two periods without a leased stream (R164). -/
def execSafePatternTimeout (k : Nat) (s : State) : Host.Outcome State Fault Refusal :=
  .next (if k < 12 ∧ s.selSt k = slWAIT then s.setSelSt k slSAFE else s)

end Sys2Proof.Machine
end

