-- ==== Sys2Proof/Machine/Commons.lean ====
section
/-! DEFINITION. The Commons as the ports, the network sleep and the time bases share it: whether it works, the records
it takes from the holder's frames, and what a significant difference between the lanes does (R151, R152). -/

namespace Sys2Proof.Machine

/-- The Commons acts: it has power and is not in the safe state of R25. -/
def State.cmnRuns (s : State) : Bool := s.cmn.up && !s.mod_.cmnSafe

/-- The lane that the arbiter names holder and whose lease is valid: who may take holder-only actions (R158). -/
def State.leaseLane (s : State) : Option Lane :=
  if s.leaseValid .E then some .E else if s.leaseValid .W then some .W else none

/-- A holder-only action is put on its way to the Commons. -/
def State.cmnSend (s : State) (op : CmnOp) (lsn : Option Nat) : State :=
  { s with cmnRecs := s.cmnRecs ++ [CmnRec.mk op lsn false] }

/-- An entry without ledger number has no disposition to reach. -/
def State.doneOpt (s : State) : Option Nat → State
  | some n => s.done n
  | none => s

def State.disposeOpt (s : State) (lsn : Option Nat) (disp err : Nat) : State :=
  match lsn with
  | some n => s.dispose n disp err
  | none => s

/-! ### Differences between the lanes (R151, R152, R626) -/

/-- Cycles of a lane's discrepancies within the last 1,000 cycles, the new one with them; a cycle counts once. -/
def recentCycles (cyc : Nat) (xs : List Nat) : List Nat :=
  (xs.filter (fun c => c != cyc && decide ((cyc + 2 ^ 32 - c) % 2 ^ 32 < 1000))) ++ [cyc]

/-- The lanes run different boot sets while an update activates or reverts (R589). -/
def State.mixed (s : State) : Bool :=
  s.bit .E R.UPD_STATUS F.UPD_STATUS_MIXED || s.bit .W R.UPD_STATUS F.UPD_STATUS_MIXED

/-- A lane is to be disqualified (Table 5.2): at once, but for the ACTIVE one, which first releases the ferry at the next
cycle boundary. A lane in RESET has no such transition. -/
def State.toDisq (s : State) (l : Lane) (lsn : Option Nat) : State :=
  if s.lst l = stACTIVE then { s with ferry := { s.ferry with disq := s.ferry.disq ++ [(l, lsn)] } }
  else if s.lst l = stRESET then s.disposeOpt lsn dUNDELIVERABLE eLANE_ABSENT
  else (s.setLst l stDISQUALIFIED).doneOpt lsn

/-- A significant difference caused by a lane (R151): DISCREPANCY in both lanes, the log, the standby to UNSYNC, and
past the limit of R152 the lane to DISQUALIFIED. In MIXED it is logged only (R589). -/
def State.significant (s : State) (l : Lane) (d : Die) (cyc record byte : Nat) : State :=
  let s := (s.setBitBoth R.FERRY_STATUS F.FERRY_STATUS_DISCREPANCY true).countBoth (R.FERRY_CNT 1)
  let s := s.setRegBoth R.FERRY_DISC_LOG0 (BitVec.ofNat 32 cyc)
  let w := setF (setF (setF 0 F.FERRY_DISC_LOG1_DIE d.ix) F.FERRY_DISC_LOG1_RECORD record) F.FERRY_DISC_LOG1_BYTE byte
  let s := s.setRegBoth R.FERRY_DISC_LOG1 w
  if s.mixed then s
  else
    let s := if s.lst .E = stSTANDBY then s.setLst .E stUNSYNC else s
    let s := if s.lst .W = stSTANDBY then s.setLst .W stUNSYNC else s
    let xs := recentCycles cyc (if l = .E then s.ferry.discE else s.ferry.discW)
    let s := if l = .E then { s with ferry := { s.ferry with discE := xs } }
      else { s with ferry := { s.ferry with discW := xs } }
    if s.fld l R.FERRY_CFG F.FERRY_CFG_DISC_LIMIT_M1 + 1 < xs.length then
      (s.setBitF l R.FERRY_STATUS F.FERRY_STATUS_DISQ_BY_LIMIT true).toDisq l none
    else s

/-! ### Filter elements, always carried by the holder's frames (R401) -/

/-- The latest value that a filter element has been given, applied or on its way. -/
def State.elemNow (s : State) (e : Nat) : Word × Word :=
  match (s.fltQ.filter (fun r => r.elem == e)).getLast? with
  | some r => (r.w0, r.w1)
  | none => (s.shReg (R.CAN_FLTRAM e 0), s.shReg (R.CAN_FLTRAM e 1))

def State.sendElem (s : State) (e : Nat) (w0 w1 : Word) : State :=
  { s with fltQ := s.fltQ ++ [FltRec.mk e w0 w1 false] }

end Sys2Proof.Machine
end

