-- ==== Sys2Proof/Machine/CanBase.lean ====
section
/-! DEFINITION. CAN and LIN ports (spec/13): their parts of the state, arbitration, transmit outcomes, reception into
the lanes, and the moves of transceivers that the network sleep shares. -/

namespace Sys2Proof.Machine

/-! ### Parts of the state -/

def State.canPort (s : State) (n : Nat) : CanPort := (s.canPorts[n]?).getD .reset
def State.setCanPort (s : State) (n : Nat) (x : CanPort) : State := { s with canPorts := s.canPorts.set n x }

def State.canRx (s : State) (l : Lane) (n : Nat) : CanRx :=
  match l with
  | .E => (s.canRxE[n]?).getD .reset
  | .W => (s.canRxW[n]?).getD .reset

def State.setCanRx (s : State) (l : Lane) (n : Nat) (x : CanRx) : State :=
  match l with
  | .E => { s with canRxE := s.canRxE.set n x }
  | .W => { s with canRxW := s.canRxW.set n x }

def State.lin (s : State) (p : Nat) : LinRt := (s.lins[p]?).getD .reset
def State.setLin (s : State) (p : Nat) (x : LinRt) : State := { s with lins := s.lins.set p x }

def cNORMAL : Nat := 0
def cLISTEN : Nat := 1
def cSTANDBY : Nat := 2
def cSLEEP : Nat := 3

def State.canTrx (s : State) (n : Nat) : Nat := s.shFld (R.CAN_STAT n) F.CAN_STAT_TRX
def State.setCanTrx (s : State) (n v : Nat) : State := s.setShFld (R.CAN_STAT n) F.CAN_STAT_TRX v

def eACTIVE : Nat := 0
def ePASSIVE : Nat := 1
def eBUSOFF : Nat := 2
def eRECOVERING : Nat := 3

def State.canErr (s : State) (n : Nat) : Nat := s.shFld (R.CAN_STAT n) F.CAN_STAT_ERRST
def State.canPhy (s : State) (n : Nat) : Bool := s.shBit (R.CAN_STAT n) F.CAN_STAT_PHY_FAULT
def State.canCfg (s : State) (n : Nat) (f : Fld) : Bool := s.shBit (R.CAN_PCFG n) f

/-! ### Transmit headers (Table 13.4) -/

def CanTx.word (t : CanTx) : Nat := fieldAt t.hdr 0 4
def CanTx.id (t : CanTx) : Nat := t.word % 2 ^ 29
def CanTx.ext (t : CanTx) : Bool := t.word.testBit 29
def CanTx.rtr (t : CanTx) : Bool := t.word.testBit 30
def CanTx.flags (t : CanTx) : Nat := fieldAt t.hdr 10 1
def CanTx.fmt (t : CanTx) : Nat := t.flags % 4
def CanTx.oneshot (t : CanTx) : Bool := t.flags.testBit 3

/-- LEN values of a format (Table 13.4). -/
def canLenOk (fmt len : Nat) : Bool :=
  match fmt with
  | 0 => decide (len ≤ 8)
  | 1 => decide (len ≤ 8) || [12, 16, 20, 24, 32, 48, 64].contains len
  | 2 => decide (1 ≤ len ∧ len ≤ 2048)
  | _ => false

/-- DLC of a data length. -/
def dlcOf (fmt len : Nat) : Nat :=
  if fmt = 2 then (len - 1) % 256
  else if len ≤ 8 then len
  else match len with
    | 12 => 9
    | 16 => 10
    | 20 => 11
    | 24 => 12
    | 32 => 13
    | 48 => 14
    | _ => 15

/-- A header keeps to Table 13.4. -/
def canHdrOk (h : List Byte) : Bool :=
  let w := fieldAt h 0 4
  let fmt := fieldAt h 10 1 % 4
  let ext := w.testBit 29
  (h.length == 16) && !w.testBit 31 && (!w.testBit 30 || fmt == 0) &&
    (ext || decide (w % 2 ^ 29 < 2048)) && !(ext && fmt == 2) &&
    (fmt == 2 || (fieldAt h 4 4 == 0 && fieldAt h 11 2 == 0)) &&
    canLenOk fmt (fieldAt h 8 2) && decide (fieldAt h 10 1 < 32) && decide (fieldAt h 13 1 ≤ 15) && fieldAt h 14 2 == 0

/-- A port's configuration enables a format. -/
def fmtOn (pcfg : Word) (fmt : Nat) : Bool :=
  match fmt with
  | 0 => getF pcfg F.CAN_PCFG_CLASSIC_EN == 1
  | 1 => getF pcfg F.CAN_PCFG_FD_EN == 1
  | 2 => getF pcfg F.CAN_PCFG_XL_EN == 1
  | _ => false

/-- Arbitration value: the arbitration field as it stands on the bus, most significant bit first (ISO 11898-1). -/
def CanTx.arb (t : CanTx) : Nat :=
  if t.ext then (t.id / 2 ^ 18) * 2 ^ 21 + 2 ^ 20 + 2 ^ 19 + (t.id % 2 ^ 18) * 2 + b2n t.rtr
  else t.id * 2 ^ 21 + b2n t.rtr * 2 ^ 20

/-! ### Outcomes (Table 13.5) -/

def eARB_LOST : Nat := 0x0601
def eTX_ERROR : Nat := 0x0602
def eBUS_OFF : Nat := 0x0603
def eTX_LATE : Nat := 0x0604
def eBAD_FRAME : Nat := 0x0605
def eFORMAT_OFF : Nat := 0x0606
def ePHY_STILL : Nat := 0x0607

/-- A failed send of a Harbour PDU is counted per PDU (R474). -/
def State.pduFail (s : State) (i : Nat) : State :=
  let n := match s.pduFails.find? (fun p => p.1 == i) with
    | some p => p.2
    | none => 0
  { s with pduFails := upsert Prod.fst (i, satInc 32 n) s.pduFails }

/-- A frame ends without transmission. -/
def State.canEnds (s : State) (t : CanTx) (disp err : Nat) : State :=
  let s := s.disposeOpt t.lsn disp err
  match t.pdu with
  | some i => s.pduFail i
  | none => s

def State.canEndsAll (s : State) (disp err : Nat) : List CanTx → State
  | [] => s
  | t :: ts => (s.canEnds t disp err).canEndsAll disp err ts

/-- FILL counts the slots in use. -/
def State.syncFill (s : State) (n : Nat) : State :=
  s.setShFld (R.CAN_TXQ n) F.CAN_TXQ_FILL (s.canPort n).queue.length

/-- A frame leaves a port's queue. -/
def State.dequeue (s : State) (n seq : Nat) : State :=
  let x := s.canPort n
  (s.setCanPort n { x with queue := x.queue.filter (fun t => t.seq != seq),
                           cur := if x.cur == some seq then none else x.cur }).syncFill n

/-- Every request bound for a port ends: queued, and handed by a lane but not yet in the Commons (R416). -/
def State.canEndQueue (s : State) (n disp err : Nat) (heldToo : Bool) : State :=
  let x := s.canPort n
  let s := s.canEndsAll disp err (x.queue ++ (if heldToo then x.held else []))
  (s.setCanPort n { x with queue := [], cur := none, held := if heldToo then [] else x.held }).syncFill n

/-! ### Arbitration (R408, R410, R411) -/

/-- A port may start a transmission (Table 13.6, Table 13.7, R413). -/
def State.canMaySend (s : State) (n : Nat) : Bool :=
  s.cmnRuns && !s.mod_.frozen && s.canTrx n == cNORMAL && (s.canErr n == eACTIVE || s.canErr n == ePASSIVE) &&
    !s.canPhy n

/-- The queued frame that enters arbitration next (R408). -/
def nextTx (txord : Bool) : List CanTx → Option CanTx
  | [] => none
  | t :: ts =>
    match nextTx txord ts with
    | none => some t
    | some u => if txord || decide (t.arb ≤ u.arb) then some t else some u

/-- The next frame enters arbitration; one whose deadline has passed leaves the queue instead, and the choice is made
again. `fuel` bounds the choices by the queue's length. -/
def State.canArb (s : State) (n : Nat) : Nat → State
  | 0 => s
  | fuel + 1 =>
    match nextTx (s.canCfg n F.CAN_PCFG_TXORD) (s.canPort n).queue with
    | none => s
    | some t =>
      let late := match t.deadline with
        | some d => decide (d < s.now)
        | none => false
      if late then ((s.canEnds t dFAILED eTX_LATE).dequeue n t.seq).canArb n fuel
      else s.setCanPort n { s.canPort n with cur := some t.seq }

def State.canStart (s : State) (n : Nat) : State :=
  if s.canMaySend n && (s.canPort n).cur == none then s.canArb n ((s.canPort n).queue.length + 1) else s

def ports16 : List Nat := List.range 16
def ports8 : List Nat := List.range 8

def State.canStartAll (s : State) : State := s.forEach ports16 State.canStart

/-! ### Reception into a lane (R403, R406) -/

/-- The lane takes frames of the Commons: its port is out of reset. -/
def State.takesFrames (s : State) (l : Lane) : Bool := s.forwards l && !(s.lane l).blocksInReset.contains 11

/-- CUR of a port as the lane's window shows it. -/
def State.setCur (s : State) (l : Lane) (n : Nat) (m : CanMsg) : State :=
  (s.setRegs l (R.CAN_RX_HDR n 0) m.hdr).setRegs l (R.CAN_RX_DATA n 0)
    (bytesToWords ((m.data.length + 3) / 4) m.data)

/-- COUNT and SHD_VALID of a port follow what the lane holds. -/
def State.syncRx (s : State) (l : Lane) (n : Nat) : State :=
  let x := s.canRx l n
  let a := R.CAN_RX_CTL n
  let s := s.setBitF l a F.CAN_RX_CTL_SHD_VALID x.shadow.isSome
  s.setFld l a F.CAN_RX_CTL_COUNT
    (s.fld l a F.CAN_RX_CTL_CUR_VALID + b2n x.shadow.isSome + x.fifo.length)

/-- The interrupt of a port when CUR_VALID sets. -/
def State.rxIrq (s : State) (l : Lane) (n : Nat) : State :=
  let w := s.reg l (R.CAN_RX_IRQ n)
  if getF w F.CAN_RX_IRQ_EN = 1 then s.irq l (some (getF w F.CAN_RX_IRQ_FUNC)) (getF w F.CAN_RX_IRQ_VECTOR) else s

/-- A header with its RXSEQ (Table 13.3, offset 22). -/
def withSeq (h : List Word) (n : Nat) : List Word :=
  match h[5]? with
  | some w => h.set 5 (BitVec.ofNat 32 (w.toNat % 65536 + (n % 65536) * 65536))
  | none => h

/-- A frame is offered to a lane's FIFO of a port (R406). -/
def State.rxOffer (s : State) (l : Lane) (n : Nat) (m : CanMsg) : State :=
  let x := s.canRx l n
  let m := { m with hdr := withSeq m.hdr x.seq }
  let x := { x with seq := (x.seq + 1) % 65536 }
  let s := s.setCanRx l n x
  let a := R.CAN_RX_CTL n
  let depth := s.fld l (R.CAN_RX_CFG n) F.CAN_RX_CFG_RXD_M1 + 1
  if !s.bit l a F.CAN_RX_CTL_CUR_VALID then
    (((s.setCur l n m).setBitF l a F.CAN_RX_CTL_CUR_VALID true).syncRx l n).rxIrq l n
  else if x.shadow.isNone then (s.setCanRx l n { x with shadow := some m }).syncRx l n
  else if 2 + x.fifo.length < depth then (s.setCanRx l n { x with fifo := x.fifo ++ [m] }).syncRx l n
  else
    let s := s.setBitF l a F.CAN_RX_CTL_LOST true
    if s.bit l (R.CAN_RX_CFG n) F.CAN_RX_CFG_OVW && x.fifo != [] then
      (s.setCanRx l n { x with fifo := x.fifo.tail ++ [m] }).syncRx l n
    else s

/-- RX_DONE (R406). -/
def State.rxDone (s : State) (l : Lane) (n : Nat) : State :=
  let x := s.canRx l n
  let a := R.CAN_RX_CTL n
  if !s.bit l a F.CAN_RX_CTL_CUR_VALID then s.setBitF l a F.CAN_RX_CTL_DONE_IDLE true
  else
    match x.shadow with
    | none => (s.setBitF l a F.CAN_RX_CTL_CUR_VALID false).syncRx l n
    | some m =>
      ((((s.setCur l n m).setCanRx l n { x with shadow := x.fifo.head?, fifo := x.fifo.tail }).syncRx l n).rxIrq l n)

/-! ### Harbour ingress (R403, R477) -/

def State.harbPush (s : State) (l : Lane) (x : HarbIn) : State :=
  let q := match l with
    | .E => s.harbInE
    | .W => s.harbInW
  let s := if 8192 ≤ q.length + 1 then s.setBitF l R.HARB_STATUS F.HARB_STATUS_INGRESS_FULL true else s
  match l with
  | .E => { s with harbInE := q ++ [x] }
  | .W => { s with harbInW := q ++ [x] }

/-- The Harbour item of a received CAN frame: its identity is the identifier with the extended bit (Table 15.1). -/
def harbOfCan (n : Nat) (m : CanMsg) : HarbIn :=
  { mark := false, kind := 0, port := n, id := (m.hdr[2]?.getD 0).toNat % 2 ^ 30, data := m.data,
    stamp := (m.hdr[0]?.getD 0).toNat + (m.hdr[1]?.getD 0).toNat * 2 ^ 32 }

/-- An accepted frame goes to each lane that takes frames: the FIFO where `rx` is set, Harbour where `harb` is set
(R403). While the module is frozen the Commons keeps it (Table 13.7). -/
def State.canDeliver (s : State) (n : Nat) (m : CanMsg) (rx harb : Bool) : State :=
  if s.mod_.frozen then { s with canHeld := s.canHeld ++ [(n, m, rx, harb)] }
  else s.forEach [0, 1] (fun s i =>
    let l := if i = 0 then Lane.E else Lane.W
    if s.takesFrames l then
      let s := if rx then s.rxOffer l n m else s
      if harb then s.harbPush l (harbOfCan n m) else s
    else s)

/-- A Harbour item for both lanes; the Commons keeps it while the module is frozen. -/
def State.harbDeliver (s : State) (x : HarbIn) : State :=
  if s.mod_.frozen then { s with harbHeld := s.harbHeld ++ [x] }
  else s.forEach [0, 1] (fun s i =>
    let l := if i = 0 then Lane.E else Lane.W
    if s.takesFrames l then s.harbPush l x else s)

/-- Frames kept through a freeze reach the lanes after thaw (Table 13.7). -/
def State.canThaw (s : State) : State :=
  let xs := s.canHeld
  let hs := s.harbHeld
  let s := { s with canHeld := [], harbHeld := [] }
  let s := hs.foldl State.harbDeliver s
  (xs.foldl (fun s x => s.canDeliver x.1 x.2.1 x.2.2.1 x.2.2.2) s).canStartAll

/-! ### Transceivers, INH and LIN states -/

def lnOPERATIONAL : Nat := 0
def lnSLEEP : Nat := 1
def lnWAKING : Nat := 2

def State.linSt (s : State) (p : Nat) : Nat := s.shFld (R.LIN_STAT p) F.LIN_STAT_STATE
def State.setLinSt (s : State) (p v : Nat) : State := s.setShFld (R.LIN_STAT p) F.LIN_STAT_STATE v
def State.linCommander (s : State) (p : Nat) : Bool := !s.shBit (R.LIN_CFG p) F.LIN_CFG_ROLE

/-- A port of an INH map is out of SLEEP (R417). -/
def State.inhWanted (s : State) (k : Nat) : Bool :=
  ports16.any (fun n => nbit (s.shReg (R.CAN_INH_MAP k)).toNat n && s.canTrx n != cSLEEP) ||
    ports8.any (fun p => nbit (s.shReg (R.CAN_INH_MAP k)).toNat (16 + p) && s.linSt p != lnSLEEP)

def State.setInh (s : State) (k : Nat) (b : Bool) : State :=
  { s with mod_ := { s.mod_ with inh := s.mod_.inh.set k b } }

/-- INH of the maps with a port out of SLEEP is asserted; none is released (R417). -/
def State.inhAssert (s : State) : State := s.forEach [0, 1, 2, 3] (fun s k => if s.inhWanted k then s.setInh k true else s)

/-- Of the maps that name a port of the list, those whose ports all sleep are released (Table 16.4, step 4). -/
def State.inhRelease (s : State) (mine : Nat) : State :=
  s.forEach [0, 1, 2, 3] (fun s k =>
    if (s.shReg (R.CAN_INH_MAP k)).toNat &&& mine != 0 && !s.inhWanted k then s.setInh k false else s)

/-- A CAN transceiver takes its configured state (R414). -/
def State.canConfigured (s : State) (n : Nat) : State :=
  (s.setCanTrx n (s.shFld (R.CAN_TRX n) F.CAN_TRX_TRX)).canStart n

/-- A commander sends its go-to-sleep command and sleeps (R422, R505). -/
def State.linGoToSleep (s : State) (p : Nat) : State :=
  (s.emit (.linTx p 60 ([0x00] ++ List.replicate 7 0xFF))).setLinSt p lnSLEEP

/-- A port sends a wake pulse of WAKE_US (Table 13.8); its schedule begins again after it (R421). -/
def State.linPulse (s : State) (p : Nat) : State :=
  let x := s.lin p
  let s := s.setLin p { x with pulseEnd := some (s.now + s.shFld (R.LIN_TIME p) F.LIN_TIME_WAKE_US), slot := 0 }
  (s.setLinSt p lnWAKING).emit (.linTx p 0 [])

end Sys2Proof.Machine
end

