-- ==== Sys2Proof/Machine/Nms.lean ====
section
/-! DEFINITION. Network sleep (spec/16): coves, the curfew ring, dusk, the final transition and wakes, as the Commons
runs them, and the events of Table 16.2. -/

namespace Sys2Proof.Machine

/-! ### Coves (R500, R501) -/

def vAWAKE : Nat := 0
def vCURFEW : Nat := 1
def vDUSK : Nat := 2
def vFINAL : Nat := 3
def vASLEEP : Nat := 4
def vWAKING : Nat := 5

def State.cove (s : State) (c : Nat) : CoveRt := (s.nms.coves[c]?).getD ⟨[], false⟩
def State.setCove (s : State) (c : Nat) (x : CoveRt) : State :=
  { s with nms := { s.nms with coves := s.nms.coves.set c x } }

def State.coveSt (s : State) (c : Nat) : Nat := s.shFld (R.NMS_COVE_STAT c) F.NMS_COVE_STAT_STATE
def State.setCoveSt (s : State) (c v : Nat) : State := s.setShFld (R.NMS_COVE_STAT c) F.NMS_COVE_STAT_STATE v
def State.coveReq (s : State) (c : Nat) : Bool := s.shBit (R.NMS_COVE_STAT c) F.NMS_COVE_STAT_REQ
def State.setCoveReq (s : State) (c : Nat) (b : Bool) : State := s.setShBit (R.NMS_COVE_STAT c) F.NMS_COVE_STAT_REQ b
def State.coveEn (s : State) (c : Nat) : Bool := s.shBit (R.NMS_COVE_CFG0 c) F.NMS_COVE_CFG0_EN
def State.coveRing (s : State) (c : Nat) : Nat := s.shFld (R.NMS_COVE_STAT c) F.NMS_COVE_STAT_RING
def State.coveFails (s : State) (c : Nat) : Nat := s.shFld (R.NMS_COVE_STAT c) F.NMS_COVE_STAT_FAILS
def State.nMem (s : State) (c : Nat) : Nat := s.shFld (R.NMS_COVE_CFG0 c) F.NMS_COVE_CFG0_N_MEM

def coves8 : List Nat := List.range 8

/-- Cove of port index `q` (R500) over a view of the registers. -/
def coveOf (g : Nat → Word) (q : Nat) : Nat := (g (R.NMS_PORTCOVE (q / 8))).toNat / 2 ^ (3 * (q % 8)) % 8

/-- The cove that takes care of a port: none while its cove is not enabled. -/
def State.portCove (s : State) (q : Nat) : Option Nat :=
  let c := coveOf s.shReg q
  if s.coveEn c then some c else none

def State.inCove (s : State) (c q : Nat) : Bool := coveOf s.shReg q == c

/-- Ports of a cove, by kind (Table 16.1). -/
def State.coveCan (s : State) (c : Nat) : List Nat := ports16.filter (fun n => s.inCove c n)
def State.coveLin (s : State) (c : Nat) : List Nat := ports8.filter (fun p => s.inCove c (16 + p))
def State.coveEth (s : State) (c : Nat) : List Nat := (List.range 14).filter (fun p => s.inCove c (24 + p))

/-- Harbour treats the cove of a port as asleep (R502). -/
def State.portAsleep (s : State) (q : Nat) : Bool :=
  match s.portCove q with
  | some c => decide (vDUSK ≤ s.coveSt c)
  | none => false

/-! ### The wakeful-node log (R512) -/

/-- UTC seconds of the RTC calendar. -/
def State.calSec (s : State) : Nat := s.calUs / 1000000

def State.logSrc (s : State) (i : Nat) : Nat := (s.shReg (R.NMS_LOG i 0)).toNat % 65536
def State.logCove (s : State) (i : Nat) : Nat := (s.shReg (R.NMS_LOG i 0)).toNat / 65536 % 256
def State.logUsed (s : State) (i : Nat) : Bool := (s.shReg (R.NMS_LOG i 1)).toNat != 0
def State.logLast (s : State) (i : Nat) : Nat := (s.shReg (R.NMS_LOG i 3)).toNat

def log64 : List Nat := List.range 64

/-- The entry with the oldest LAST. -/
def State.logOldest (s : State) : Nat :=
  log64.foldl (fun best i => if s.logLast i < s.logLast best then i else best) 0

/-- A record of a source in a cove: `refusal` for REFUSE and hop time-outs, `hop` for a hop time-out. -/
def State.nmsLog (s : State) (c src : Nat) (refusal hop : Bool) : State :=
  let known := log64.find? (fun i => s.logUsed i && s.logSrc i == src && s.logCove i == c)
  let free := log64.find? (fun i => !s.logUsed i)
  let evict := known.isNone && free.isNone
  let i := match known with
    | some i => i
    | none => free.getD s.logOldest
  let s := if evict then s.countSh (R.NMS_CNT 7) else s
  let old := if known.isSome then (s.shReg (R.NMS_LOG i 1)).toNat else 0
  let oldHop := known.isSome && nbit (s.shReg (R.NMS_LOG i 0)).toNat 25
  let first := if known.isSome then (s.shReg (R.NMS_LOG i 2)).toNat else s.calSec
  let refs := if refusal then satInc 16 (old % 65536) else old % 65536
  let dusks := if refusal then old / 65536 else satInc 16 (old / 65536)
  let flags := b2n refusal + 2 * b2n (if refusal then hop else oldHop)
  s.setRegs .E (R.NMS_LOG i 0) [BitVec.ofNat 32 (src + c * 2 ^ 16 + flags * 2 ^ 24),
    BitVec.ofNat 32 (refs + dusks * 65536), BitVec.ofNat 32 first, BitVec.ofNat 32 s.calSec]

/-- Member of a cove that a frame comes from (R507): `mac` says which kind of identity `id` is. -/
def State.memberOf (s : State) (c : Nat) (mac : Bool) (id : Nat) : Option Nat :=
  (List.range 16).findSome? (fun j =>
    let w0 := s.shReg (R.NMS_MEM_W0 c j)
    let m := (s.shReg (R.NMS_MEM_W1 c j)).toNat
    let k := (s.shReg (R.NMS_MEM_W2 c j)).toNat
    if j < s.nMem c ∧ getF w0 F.NMS_MEM_W0_EN = 1 ∧ (getF w0 F.NMS_MEM_W0_KIND == 1) = mac ∧
        (if mac then id == k % 65536 + m * 65536 else id &&& k == m &&& k) = true then
      some (getF w0 F.NMS_MEM_W0_SRC_ID)
    else none)

/-- A frame that ends a dusk is recorded under its member, or under 0xFFFF with its identity kept. -/
def State.duskFrame (s : State) (c : Nat) (mac : Bool) (id : Nat) : State :=
  match s.memberOf c mac id with
  | some src => s.nmsLog c src false false
  | none =>
    let s := s.nmsLog c 0xFFFF false false
    s.setShFld (R.NMS_COVE_UNK c) F.NMS_COVE_UNK_UNK_ID (if mac then id / 2 ^ 24 else id)

/-! ### Ring messages (Table 16.3) -/

def mREQUEST : Nat := 1
def mCURFEW : Nat := 2
def mCONSENT : Nat := 3
def mREFUSE : Nat := 4
def mAGREED : Nat := 5
def mABORT : Nat := 6

def State.ringSend (s : State) (c ty : Nat) : State := s.emit (.ring c ty (s.coveRing c) 0)

/-! ### Requests (R503, R515) -/

/-- A cove leaves the wait list of NMS_CURFEW entries with an error (R515). -/
def State.curfewFail (s : State) (c err : Nat) : State :=
  let mine := s.nms.curfews.filter (fun w => w.2.testBit c)
  let s := { s with nms := { s.nms with curfews := s.nms.curfews.filter (fun w => !w.2.testBit c) } }
  s.disposeAll (mine.map Prod.fst) dFAILED err

def eREFUSED : Nat := 0x0901
def eWITHDRAWN : Nat := 0x0902

/-- A standing request is withdrawn. -/
def State.withdrawReq (s : State) (c err : Nat) : State :=
  if s.coveReq c then (s.setCoveReq c false).curfewFail c err else s

/-- A curfew request stands (R503); a new one begins with no failed ring. -/
def State.standReq (s : State) (c : Nat) : State :=
  if s.coveReq c then s
  else
    let s := (s.setCoveReq c true).setShFld (R.NMS_COVE_STAT c) F.NMS_COVE_STAT_FAILS 0
    s.setCove c { s.cove c with waiting := false }

/-- A ring has failed: FAILS + 1, and at its limit the request is withdrawn (R503). -/
def State.ringFailed (s : State) (c : Nat) : State :=
  let s := s.countShFld (R.NMS_COVE_STAT c) F.NMS_COVE_STAT_FAILS
  if s.shFld (R.NMS_COVE_CFG0 c) F.NMS_COVE_CFG0_MAX_RINGS_M1 + 1 ≤ s.coveFails c then s.withdrawReq c eREFUSED else s

/-- LIN commanders of a cove resume after an ABORT in DUSK (R506). -/
def State.linResume (s : State) (c : Nat) : State :=
  s.forEach (s.coveLin c) (fun s p => if s.linCommander p then s.linPulse p else s)

/-- A dusk event (R506, Table 16.2). -/
def State.duskAbort (s : State) (c : Nat) : State :=
  if s.coveSt c = vDUSK then
    let s := (s.ringSend c mABORT).setCoveSt c vAWAKE
    let s := (s.countSh (R.NMS_CNT 4)).setCove c { s.cove c with waiting := false }
    (s.ringFailed c).linResume c
  else s

/-- The coves an entry of NMS_WAKE waits for are AWAKE (R515). -/
def State.syncWakes (s : State) : State :=
  let left := fun (m : Nat) => (coves8.filter (fun c => m.testBit c && s.coveSt c != vAWAKE))
  let fin := s.nms.wakes.filter (fun w => left w.2 == [])
  let s := { s with nms := { s.nms with wakes := s.nms.wakes.filter (fun w => left w.2 != []) } }
  s.forEach (fin.map Prod.fst) State.done

/-! ### Wakes (R508, R509, Table 16.4) -/

/-- A cove begins to wake: INH, then transceivers in their configured state, LIN wake pulses, TC10 wakes. -/
def State.beginWake (s : State) (c : Nat) : State :=
  if s.coveSt c = vASLEEP then
    let s := s.setCoveSt c vWAKING
    let s := s.forEach (s.coveCan c) State.canConfigured
    let s := s.forEach (s.coveLin c) State.linPulse
    let s := s.forEach (s.coveEth c) (fun s p =>
      if p < 10 then (s.setShFld (R.ETHS_P_STAT p) F.ETHS_P_STAT_TC10 3).emit (.wake p) else s)
    s.inhAssert
  else s

/-- A wake seen by one cove: it acts, is latched until ASLEEP, or ends DUSK (R506, R508). -/
def State.wakeOne (s : State) (c : Nat) : State :=
  let p := s.shFld R.NMS_WAKE_PENDING F.NMS_WAKE_PENDING_COVES
  if s.coveSt c = vFINAL then
    (s.setShFld R.NMS_WAKE_PENDING F.NMS_WAKE_PENDING_COVES (setBit p c))
  else s.beginWake c

/-- A wake that the Commons latches ends QUIET (R171). -/
def State.noteWake (s : State) : State :=
  if s.quietOn then { s with ferry := { s.ferry with quietWake := true } } else s

/-- A wake of a cove with the coves of its FANOUT (R509). During the module's entry into SLEEP it is latched with
MOD (R510); in SLEEP the same latch keeps the coves for the module's wake (R511). -/
def State.wakeCove (s : State) (c : Nat) : State :=
  let cs := c :: coves8.filter (fun k => k != c && nbit (s.shFld (R.NMS_COVE_CFG0 c) F.NMS_COVE_CFG0_FANOUT) k)
  let cs := cs.filter s.coveEn
  let s := s.noteWake
  if s.shBit R.NMS_STATUS F.NMS_STATUS_MOD_ENTERING || s.mod_.asleep then
    let p := s.shFld R.NMS_WAKE_PENDING F.NMS_WAKE_PENDING_COVES
    let s := s.setShFld R.NMS_WAKE_PENDING F.NMS_WAKE_PENDING_COVES (p ||| cs.foldl (fun m k => setBit m k) 0)
    s.setShBit R.NMS_WAKE_PENDING F.NMS_WAKE_PENDING_MOD true
  else s.forEach cs State.wakeOne

/-- A wake detected on a port of a cove, or asked for it (R475, R502, R506). -/
def State.wakeOrDusk (s : State) (c : Nat) : State := if s.coveSt c = vDUSK then s.duskAbort c else s.wakeCove c

/-- A port of no enabled cove follows its own configuration (R500). -/
def State.portWake (s : State) (q : Nat) : State :=
  match s.portCove q with
  | some c => s.wakeOrDusk c
  | none =>
    let s := s.noteWake
    let s := if q < 16 then s.canConfigured q else s
    s.inhAssert

/-- A frame received on a port whose cove is in DUSK (R506): every frame but a ring message of the current ring. -/
def State.frameSeen (s : State) (q : Nat) (mac : Bool) (id : Nat) (ringMsg : Bool) : State :=
  match s.portCove q with
  | some c => if s.coveSt c = vDUSK ∧ ringMsg = false then (s.duskFrame c mac id).duskAbort c else s
  | none => s

/-! ### Votes (R504) -/

def State.syncKeep (s : State) (c : Nat) : State :=
  s.setShFld (R.NMS_COVE_KEEP c) F.NMS_COVE_KEEP_KEEPERS (s.cove c).votes.length

/-- A vote is set or cleared: a vote set withdraws the request, ends a ring with ABORT and ends DUSK. -/
def State.vote (s : State) (c q : Nat) (set : Bool) : State :=
  let x := s.cove c
  if set then
    let s := (s.setCove c { x with votes := if x.votes.contains q then x.votes else x.votes ++ [q] }).syncKeep c
    let s := s.withdrawReq c eWITHDRAWN
    if s.coveSt c = vCURFEW then
      (((s.ringSend c mABORT).setCoveSt c vAWAKE).countShFld (R.NMS_COVE_STAT c) F.NMS_COVE_STAT_FAILS).syncWakes
    else (s.duskAbort c).syncWakes
  else (s.setCove c { x with votes := x.votes.filter (· != q) }).syncKeep c

/-- The holder of a quota index is removed: its votes clear. -/
def State.dropVotes (s : State) (q : Nat) : State := s.forEach coves8 (fun s c => s.vote c q false)

/-! ### Records of the frames (R503, R504, R515) -/

def State.applyCurfew (s : State) (mask : Nat) (lsn : Option Nat) : State :=
  let s := s.forEach (maskBits 8 mask) (fun s c => if s.coveSt c = vASLEEP then s else s.standReq c)
  let left := (maskBits 8 mask).filter (fun c => s.coveSt c != vASLEEP)
  match lsn with
  | some n =>
    if left = [] then s.done n
    else { s with nms := { s.nms with curfews := s.nms.curfews ++ [(n, left.foldl (fun m k => setBit m k) 0)] } }
  | none => s

def State.applyNmsWake (s : State) (mask : Nat) (lsn : Option Nat) : State :=
  let s := s.forEach (maskBits 8 mask) (fun s c => (s.withdrawReq c eWITHDRAWN).wakeOrDusk c)
  let s := match lsn with
    | some n => { s with nms := { s.nms with wakes := s.nms.wakes ++ [(n, mask)] } }
    | none => s
  s.syncWakes

def State.applyKeep (s : State) (mask quota : Nat) (set : Bool) (lsn : Option Nat) : State :=
  (s.forEach (maskBits 8 mask) (fun s c => s.vote c quota set)).doneOpt lsn

/-! ### The ring (R505) -/

/-- The closing window begins: AGREED, and the LIN nodes of the cove are told to sleep (R505, R422). -/
def State.beginDusk (s : State) (c : Nat) : State :=
  let s := ((s.ringSend c mAGREED).setCoveSt c vDUSK).countSh (R.NMS_CNT 1)
  let s := s.forEach (s.coveLin c) (fun s p => if s.linCommander p then s.linGoToSleep p else s)
  if s.nms.wakes.any (fun w => w.2.testBit c) then (s.duskAbort c).syncWakes else s

/-- A ring starts (Table 16.2, R505). -/
def State.ringStart (s : State) (c : Nat) : State :=
  if decide (c < 8) && s.cmnRuns && s.coveEn c && s.coveReq c && s.coveSt c == vAWAKE && (s.cove c).votes == [] then
    let s := s.setCove c { s.cove c with waiting := false }
    let s := s.setCoveSt c vCURFEW
    let s := s.setShFld (R.NMS_COVE_STAT c) F.NMS_COVE_STAT_RING (s.coveRing c + 1)
    let s := s.setShFld (R.NMS_COVE_STAT c) F.NMS_COVE_STAT_POS 0
    let s := (s.countSh (R.NMS_CNT 0)).ringSend c mCURFEW
    if s.nMem c = 0 then s.beginDusk c else s
  else s

def execRingStart (c : Nat) (s : State) : Host.Outcome State Fault Refusal :=
  .next (if (s.cove c).waiting then s else s.ringStart c)

/-- RETRY_S after a failed ring (R503). -/
def execRingRetry (c : Nat) (s : State) : Host.Outcome State Fault Refusal :=
  .next (if (s.cove c).waiting then (s.setCove c { s.cove c with waiting := false }).ringStart c else s)

/-- A REFUSE or a hop time-out ends the ring (Table 16.2); the next one waits for RETRY_S. -/
def State.ringEnds (s : State) (c : Nat) : State :=
  let s := (s.ringSend c mABORT).setCoveSt c vAWAKE
  let s := (s.ringFailed c)
  (s.setCove c { s.cove c with waiting := true }).syncWakes

def State.ringIgnored (s : State) : State := { s with nms := { s.nms with ignored := s.nms.ignored + 1 } }

def State.memSrc (s : State) (c pos : Nat) : Nat := s.shFld (R.NMS_MEM_W0 c (pos - 1)) F.NMS_MEM_W0_SRC_ID

/-- A ring message (R505): ignored and counted where its source, ring, position or CRC is wrong. -/
def execRingMessage (c q ty ring pos src reason : Nat) (crcOk : Bool) (s : State) :
    Host.Outcome State Fault Refusal :=
  let ok := crcOk && decide (1 ≤ pos ∧ pos ≤ s.nMem c) && s.memSrc c pos == src &&
    q == s.shFld (R.NMS_COVE_CFG0 c) F.NMS_COVE_CFG0_RING_PORT
  .next (
    if !(decide (c < 8) && s.cmnRuns && s.coveEn c) then s
    else if s.coveSt c = vDUSK ∧ ring ≠ s.coveRing c then s.duskAbort c
    else if !ok then s.ringIgnored
    else if ty = mREQUEST then
      (if (s.cove c).waiting then (s.setCove c { s.cove c with waiting := false }).ringStart c else s)
    else if ring ≠ s.coveRing c ∨ s.coveSt c ≠ vCURFEW ∨
        pos ≠ s.shFld (R.NMS_COVE_STAT c) F.NMS_COVE_STAT_POS + 1 then s.ringIgnored
    else if ty = mCONSENT then
      let s := s.setShFld (R.NMS_COVE_STAT c) F.NMS_COVE_STAT_POS pos
      if pos = s.nMem c then s.beginDusk c else s
    else if ty = mREFUSE then
      let s := (s.countSh (R.NMS_CNT 2)).setShFld (R.NMS_COVE_STAT c) F.NMS_COVE_STAT_POS pos
      let s := (s.nmsLog c src true false).setShFld (R.NMS_COVE_UNK c) F.NMS_COVE_UNK_REASON reason
      s.ringEnds c
    else s.ringIgnored)

def execHopTimeout (c : Nat) (s : State) : Host.Outcome State Fault Refusal :=
  .next (if c < 8 ∧ s.cmnRuns = true ∧ s.coveSt c = vCURFEW then
      let s := s.countSh (R.NMS_CNT 3)
      let s := s.nmsLog c (s.memSrc c (s.shFld (R.NMS_COVE_STAT c) F.NMS_COVE_STAT_POS + 1)) true true
      s.ringEnds c
    else s)

/-- A dusk event that no other command of this model reports: a frame with its identity (a MAC address where the flag
is set, else a CAN identifier), or an event without frame (R506). -/
def execDuskEvent (c : Nat) (frame : Option (Bool × Nat)) (s : State) : Host.Outcome State Fault Refusal :=
  .next (if c < 8 ∧ s.cmnRuns = true ∧ s.coveSt c = vDUSK then
      let s := match frame with
        | some f => s.duskFrame c f.1 f.2
        | none => s
      (s.duskAbort c).syncWakes
    else s)

/-- DUSK_MS have elapsed: FINAL, steps 1 and 2 of Table 16.4. -/
def execDuskExpiry (c : Nat) (s : State) : Host.Outcome State Fault Refusal :=
  .next (if c < 8 ∧ s.cmnRuns = true ∧ s.coveSt c = vDUSK then
      let s := s.setCoveSt c vFINAL
      let s := s.forEach (s.coveCan c) (fun s n => s.setCanTrx n cSLEEP)
      let s := s.forEach (s.coveLin c) (fun s p => if s.linCommander p then s.setLinSt p lnSLEEP else s)
      s.forEach (s.coveEth c) (fun s p =>
        if p < 10 then s.setShFld (R.ETHS_P_STAT p) F.ETHS_P_STAT_TC10 1
        else s.setShBit (R.ETHS_P_STAT p) F.ETHS_P_STAT_LINK false)
    else s)

/-- Port bits of a cove in the INH maps. -/
def State.coveInhBits (s : State) (c : Nat) : Nat :=
  (s.coveCan c).foldl (fun m n => setBit m n) 0 + (s.coveLin c).foldl (fun m p => setBit m (16 + p)) 0

/-- Every enabled cove is ASLEEP with MOD_SLEEP set (R510). -/
def State.moduleMaySleep (s : State) : Bool :=
  s.shBit R.NMS_CFG F.NMS_CFG_MOD_SLEEP && coves8.any s.coveEn &&
    coves8.all (fun c => !s.coveEn c || s.coveSt c == vASLEEP)

/-- The final transition is complete (Table 16.2, Table 16.4): ASLEEP; a pending wake begins at once, else the last
cove takes the module into its entry to SLEEP. -/
def State.finalComplete (s : State) (c : Nat) : State :=
  let s := s.forEach (s.coveEth c) (fun s p =>
    if p < 10 then (s.setShFld (R.ETHS_P_STAT p) F.ETHS_P_STAT_TC10 2).setShBit (R.ETHS_P_STAT p) F.ETHS_P_STAT_LINK false
    else s)
  let s := (s.setCoveSt c vASLEEP).countSh (R.NMS_CNT 5)
  let s := s.inhRelease (s.coveInhBits c)
  let s := s.setCoveReq c false
  let upd := s.nms.curfews.map (fun w => (w.1, clearBit w.2 c))
  let fin := upd.filter (fun w => w.2 == 0)
  let s := { s with nms := { s.nms with curfews := upd.filter (fun w => w.2 != 0) } }
  let s := s.forEach (fin.map Prod.fst) State.done
  let p := s.shFld R.NMS_WAKE_PENDING F.NMS_WAKE_PENDING_COVES
  if p.testBit c then
    let s := s.setShFld R.NMS_WAKE_PENDING F.NMS_WAKE_PENDING_COVES (clearBit p c)
    let s := (s.setShBit R.NMS_WAKE_PENDING F.NMS_WAKE_PENDING_SEEN true).countSh (R.NMS_CNT 6)
    s.wakeCove c
  else if s.moduleMaySleep then s.setShBit R.NMS_STATUS F.NMS_STATUS_MOD_ENTERING true
  else s

def execFinalComplete (c : Nat) (s : State) : Host.Outcome State Fault Refusal :=
  .next (if c < 8 ∧ s.cmnRuns = true ∧ s.coveSt c = vFINAL then s.finalComplete c else s)

/-- A wake of a cove from its always-on detectors (R508, R509). -/
def execCoveWake (c : Nat) (s : State) : Host.Outcome State Fault Refusal :=
  .next (if c < 8 ∧ (s.cmn.up = true ∨ s.mod_.asleep = true) ∧ s.coveEn c = true then s.wakeOrDusk c else s)

/-- AUTO_IDLE_S without a vote (R503). -/
def execAutoIdleTimeout (c : Nat) (s : State) : Host.Outcome State Fault Refusal :=
  .next (if decide (c < 8) && s.cmnRuns && s.coveEn c && s.shBit (R.NMS_COVE_CFG3 c) F.NMS_COVE_CFG3_AUTO_IDLE_EN &&
      (s.cove c).votes == [] && s.coveSt c != vASLEEP then s.standReq c else s)

/-- A field channel's wake in SLEEP (R315): the die keeps the first channel, and the Commons wakes the coves of
FIELD_COVES (R509). -/
def execFieldWake (d m : Nat) (s : State) : Host.Outcome State Fault Refusal :=
  let armed := decide (d < 2) && decide (m < 112) && s.mod_.asleep && isDin (s.fMode d m) &&
    s.shBit (R.FCH_CFG d m) F.FCH_CFG_WAKE_EN
  .next (if armed then
      let a := R.FCH_WAKE_STAT d
      let s := if s.shBit a F.FCH_WAKE_STAT_WOKE then s
        else (s.setShFld a F.FCH_WAKE_STAT_FIRST m).setShBit a F.FCH_WAKE_STAT_WOKE true
      s.forEach ((maskBits 8 (s.shFld R.NMS_CFG F.NMS_CFG_FIELD_COVES)).filter s.coveEn) State.wakeOrDusk
    else s)

/-! ### Commands (Table 16.6) -/

/-- Values of a cove's registers in range (NMS_COVEc_CFG0 to CFG3, R505). -/
def coveCfgOk (c0 c1 c3 : Word) : Bool :=
  let q := getF c0 F.NMS_COVE_CFG0_RING_PORT
  decide (q < 38) && !(decide (16 ≤ q ∧ q < 24)) && decide (getF c0 F.NMS_COVE_CFG0_N_MEM ≤ 16) &&
    (let d := getF c1 F.NMS_COVE_CFG1_DUSK_MS
     decide (10 ≤ d ∧ d ≤ 2000)) &&
    (let t := getF c1 F.NMS_COVE_CFG1_T_HOP_MS
     decide (1 ≤ t ∧ t ≤ 100)) &&
    decide (1 ≤ getF c1 F.NMS_COVE_CFG1_RETRY_S) &&
    !(getF c3 F.NMS_COVE_CFG3_AUTO_IDLE_EN == 1 && getF c3 F.NMS_COVE_CFG3_AUTO_IDLE_S == 0)

def nmsBusy (st : Nat) : Bool := st == vCURFEW || st == vDUSK || st == vFINAL

/-- Cove that a register of the slot configures. -/
def nmsCoveOf (a : Nat) : Option Nat :=
  let o := a % 0x100000
  if 0x400 ≤ o ∧ o < 0x600 then some ((o - 0x400) / 0x40)
  else if 0x1000 ≤ o ∧ o < 0x1800 then some ((o - 0x1000) / 0x100)
  else none

/-- Coves of which a copy changes a field (R513): by their own registers, or by a port that enters or leaves. -/
def State.nmsChanged (s : State) (c : Commit) : List Nat :=
  let own := c.writes.filterMap (fun w => if s.after c w.1 == s.shReg w.1 then none else nmsCoveOf w.1)
  let moved := (List.range 38).filter (fun q => coveOf s.shReg q != coveOf (s.after c) q)
  own ++ ((moved.map (fun q => [coveOf s.shReg q, coveOf (s.after c) q])).flatten)

/-- An NMS copy is consistent (R505, R513). -/
def chkNms (s : State) (c : Commit) : Bool :=
  s.afterF c R.NMS_CFG F.NMS_CFG_RING_UDP != 0 &&
    coves8.all (fun k => coveCfgOk (s.after c (R.NMS_COVE_CFG0 k)) (s.after c (R.NMS_COVE_CFG1 k))
      (s.after c (R.NMS_COVE_CFG3 k))) &&
    (s.nmsChanged c).all (fun k => !nmsBusy (s.coveSt k))

def specNmsStatus : CmdSpec :=
  { opcode := 0x0900, accepted := false, lenOk := fun r => r.length == 0, maxResp := 40,
    answer := fun s r =>
      let l := (s.servedBy r.lane).getD r.lane
      wordBytes (s.shReg R.NMS_STATUS) ++ wordBytes (s.reg l R.NMS_MIR_WAKE_PENDING) ++
        ((coves8.map (fun c => wordBytes (s.reg l (R.NMS_MIR_COVE c 0)))).flatten) }

def onlyMask (w : Word) (mask : Nat) : Bool := w.toNat &&& mask == w.toNat

def coveCells (r : Req) : List RegCell :=
  let c := r.u8 0
  [(R.NMS_COVE_CFG0 c, r.w 4), (R.NMS_COVE_CFG1 c, r.w 8), (R.NMS_COVE_CFG2 c, r.w 12), (R.NMS_COVE_CFG3 c, r.w 16)]

def specNmsCoveConfig : CmdSpec :=
  { opcode := 0x0901, accepted := true, lenOk := fun r => r.length == 20, perm := fun _ r => r.src.isChief,
    param := fun _ r => decide (r.u8 0 ≤ 7) && r.u 1 3 == 0 && onlyMask (r.w 4) 0xFFFF1FFF &&
      onlyMask (r.w 8) 0xFF7FFFFF && onlyMask (r.w 12) 0x1FFFFFFF && onlyMask (r.w 16) 0x1FFFF &&
      coveCfgOk (r.w 4) (r.w 8) (r.w 16),
    stateOk := fun s r => !nmsBusy (s.coveSt (r.u8 0)),
    reachOk := fun s _ => !s.mod_.cmnSafe,
    exec := fun s r lsn => s.commitShared 17 0 (coveCells r) lsn }

def memberCells (r : Req) : List RegCell :=
  ((List.range (r.u8 2)).map (fun i =>
    let j := r.u8 1 + i - 1
    [(R.NMS_MEM_W0 (r.u8 0) j, r.w (4 + 12 * i)), (R.NMS_MEM_W1 (r.u8 0) j, r.w (8 + 12 * i)),
     (R.NMS_MEM_W2 (r.u8 0) j, r.w (12 + 12 * i))])).flatten

def specNmsMembers : CmdSpec :=
  { opcode := 0x0902, accepted := true, lenOk := fun r => decide (16 ≤ r.length ∧ r.length ≤ 40),
    perm := fun _ r => r.src.isChief,
    param := fun _ r => decide (r.u8 0 ≤ 7) && decide (1 ≤ r.u8 1 ∧ r.u8 1 ≤ 16) && decide (1 ≤ r.u8 2 ∧ r.u8 2 ≤ 3) &&
      decide (r.u8 1 + r.u8 2 ≤ 17) && r.u8 3 == 0 && r.length == 4 + 12 * r.u8 2 &&
      (List.range (r.u8 2)).all (fun i => onlyMask (r.w (4 + 12 * i)) 0x3FFFF),
    stateOk := fun s r => !nmsBusy (s.coveSt (r.u8 0)),
    reachOk := fun s _ => !s.mod_.cmnSafe,
    exec := fun s r lsn => s.commitShared 17 0 (memberCells r) lsn }

def portCoveCells (r : Req) : List RegCell :=
  (R.NMS_CFG, r.w 0) :: (List.range 5).map (fun x => (R.NMS_PORTCOVE x, r.w (4 + 4 * x)))

/-- Coves that a new port map names anew or empties of a port. -/
def portCoveMoves (s : State) (r : Req) : List Nat :=
  let g := fun a => match cellsGet (portCoveCells r) a with
    | some v => v
    | none => s.shReg a
  (((List.range 38).filter (fun q => coveOf s.shReg q != coveOf g q)).map (fun q =>
    [coveOf s.shReg q, coveOf g q])).flatten

def specNmsPortCove : CmdSpec :=
  { opcode := 0x0903, accepted := true, lenOk := fun r => r.length == 24, perm := fun _ r => r.src.isChief,
    param := fun _ r => onlyMask (r.w 0) 0xFFFFFF01 && getF (r.w 0) F.NMS_CFG_RING_UDP != 0 &&
      [4, 8, 12, 16].all (fun o => onlyMask (r.w o) 0xFFFFFF) && onlyMask (r.w 20) 0x3FFFF,
    stateOk := fun s r => (portCoveMoves s r).all (fun c => !nmsBusy (s.coveSt c)),
    reachOk := fun s _ => !s.mod_.cmnSafe,
    exec := fun s r lsn => s.commitShared 17 0 (portCoveCells r) lsn }

def specNmsCurfew : CmdSpec :=
  { opcode := 0x0904, accepted := true, lenOk := fun r => r.length == 1,
    param := fun _ r => decide (1 ≤ r.u8 0),
    stateOk := fun s r => (maskBits 8 (r.u8 0)).all s.coveEn,
    reachOk := fun s _ => !s.mod_.cmnSafe,
    exec := fun s r lsn => s.cmnSend (.curfew (r.u8 0)) (some lsn) }

def specNmsKeep : CmdSpec :=
  { opcode := 0x0905, accepted := true, lenOk := fun r => r.length == 2,
    param := fun _ r => decide (1 ≤ r.u8 0) && (r.u8 1 == 1 || r.u8 1 == 2),
    reachOk := fun s _ => !s.mod_.cmnSafe,
    exec := fun s r lsn => s.cmnSend (.keep (r.u8 0) (s.quotaOf r.lane r.src) (r.u8 1 == 1)) (some lsn) }

def specNmsWake : CmdSpec :=
  { opcode := 0x0906, accepted := true, lenOk := fun r => r.length == 1,
    param := fun _ r => decide (1 ≤ r.u8 0),
    reachOk := fun s _ => !s.mod_.cmnSafe,
    exec := fun s r lsn => s.cmnSend (.nmsWake (r.u8 0)) (some lsn) }

def specNmsLog : CmdSpec :=
  { opcode := 0x0907, accepted := false, lenOk := fun r => r.length == 2, maxResp := 112,
    param := fun _ r => decide (r.u8 0 ≤ 63) && decide (1 ≤ r.u8 1 ∧ r.u8 1 ≤ 7) && decide (r.u8 0 + r.u8 1 ≤ 64),
    answer := fun s r => s.regBytes .E (R.NMS_LOG (r.u8 0) 0) (4 * r.u8 1) }

def execNmsStatus (r : Req) (s : State) : Host.Outcome State Fault Refusal := runScs specNmsStatus r s
def execNmsCoveConfig (r : Req) (s : State) : Host.Outcome State Fault Refusal := runScs specNmsCoveConfig r s
def execNmsMembers (r : Req) (s : State) : Host.Outcome State Fault Refusal := runScs specNmsMembers r s
def execNmsPortCove (r : Req) (s : State) : Host.Outcome State Fault Refusal := runScs specNmsPortCove r s
def execNmsCurfew (r : Req) (s : State) : Host.Outcome State Fault Refusal := runScs specNmsCurfew r s
def execNmsKeep (r : Req) (s : State) : Host.Outcome State Fault Refusal := runScs specNmsKeep r s
def execNmsWake (r : Req) (s : State) : Host.Outcome State Fault Refusal := runScs specNmsWake r s
def execNmsLog (r : Req) (s : State) : Host.Outcome State Fault Refusal := runScs specNmsLog r s

end Sys2Proof.Machine
end

