-- ==== Sys2Proof/Machine/Can.lean ====
section
/-! DEFINITION. CAN ports (spec/13): configuration and its checks, filtering, the 0x06xx CAN commands, and what happens
on a port. -/

namespace Sys2Proof.Machine

/-! ### Consistency (R396 to R398, R405, the register tables) -/

/-- Quanta of a bit of a timing register, with its prescaler: 1 + TSEG1 + TSEG2 (R396). -/
def btQuanta (w : Word) : Nat := 1 + (getF w F.CAN_NBT_TSEG1_M1 + 1) + (getF w F.CAN_NBT_TSEG2_M1 + 1)
def btTicks (w : Word) : Nat := (getF w F.CAN_NBT_BRP_M1 + 1) * btQuanta w
def btSjwOk (w : Word) : Bool := decide (getF w F.CAN_NBT_SJW_M1 ≤ getF w F.CAN_NBT_TSEG2_M1)

/-- A bit timing within its fewest quanta and its shortest and longest bit in 5 ns ticks (Table 13.1). -/
def btOk (w : Word) (quanta lo hi : Nat) : Bool :=
  btSjwOk w && decide (quanta ≤ btQuanta w) && decide (lo ≤ btTicks w) && decide (btTicks w ≤ hi)

/-- The nominal timing, 125 kbit/s to 1 Mbit/s. -/
def nominalOk (w : Word) : Bool := btOk w 8 200 1600

/-- A data timing: absent where its format is off; where it is given, within its rate. -/
def dataOk (on : Bool) (w : Word) (lo : Nat) : Bool := if on then btSjwOk w && decide (5 ≤ btQuanta w) && decide (lo ≤ btTicks w) else w == 0

/-- One port's registers over a view of the configuration. -/
def canPortOk (g : Nat → Word) (n : Nat) : Bool :=
  let p := g (R.CAN_PCFG n)
  let fd := getF p F.CAN_PCFG_FD_EN == 1
  let xl := getF p F.CAN_PCFG_XL_EN == 1
  let x := g (R.CAN_XPWM n)
  let sum := getF x F.CAN_XPWM_PWMS + getF x F.CAN_XPWM_PWML
  let tms := getF x F.CAN_XPWM_TMS == 1
  let t := g (R.CAN_TRX n)
  decide (p.toNat % 8 ≠ 0) && (getF p F.CAN_PCFG_SEQUENCED == 0 || xl) && nominalOk (g (R.CAN_NBT n)) &&
    dataOk fd (g (R.CAN_DBT n)) 25 && dataOk xl (g (R.CAN_XBT n)) 10 &&
    (!tms || (xl && sum == btTicks (g (R.CAN_XBT n)) && decide (getF x F.CAN_XPWM_PWMO < sum))) &&
    decide (getF t F.CAN_TRX_TRX ≠ 3) &&
    (getF t F.CAN_TRX_WAKE_MODE != 3 || decide (getF (g (R.CAN_WUF_CFG n)) F.CAN_WUF_CFG_WUF_DLC ≤ 8))

/-- R398 of a list's place. -/
def fltPlaceOk (w : Word) : Bool :=
  decide (getF w F.CAN_FLT_FCNT ≤ 512) && decide (getF w F.CAN_FLT_FBASE + getF w F.CAN_FLT_FCNT ≤ 8192)

/-- The receive RAM of a lane (R405). -/
def rxRamOk (g : Nat → Word) : Bool :=
  ports16.all (fun n => getF (g (R.CAN_RX_CFG n)) F.CAN_RX_CFG_RXD_M1 != 0) &&
    decide ((ports16.map (fun n => (getF (g (R.CAN_RX_CFG n)) F.CAN_RX_CFG_RXD_M1 + 1) *
      (if getF (g (R.CAN_PCFG n)) F.CAN_PCFG_XL_EN = 1 then 2080 else 96))).foldl (fun (a b : Nat) => a + b) 0 ≤ 524288)

/-- Elements of a list in the filter RAM. -/
def fltElems (w : Word) : List Nat := (List.range (getF w F.CAN_FLT_FCNT)).map (· + getF w F.CAN_FLT_FBASE)

/-- SPACE of a filter element (Table 13.2). -/
def elemSpace (w0 : Word) : Nat := w0.toNat / 2 ^ 29 % 4

/-- Regions of a CAN commit: a port by its number, an INH map at 16, a port's filter list at 32, a lane's receive
configuration of a port at 64. -/
def canRegion (a : Nat) : Nat :=
  let o := a % 0x100000
  if 0x80000 ≤ o then 64 + (o - 0x80000) / 0x1000
  else if o < 0x400 then 16 + (o - 0x100) / 4
  else if o % 0x100 = 0x18 then 32 + (o - 0x400) / 0x100
  else (o - 0x400) / 0x100

/-- The receive RAM of both lanes under a copy of shared registers. -/
def rxRamBoth (s : State) (c : Commit) : Bool :=
  rxRamOk (fun a => if canRegion a < 64 then s.after c a else s.reg .E a) &&
    rxRamOk (fun a => if canRegion a < 64 then s.after c a else s.reg .W a)

def chkCan (s : State) (c : Commit) : Bool :=
  let r := c.region
  if r < 16 then canPortOk (s.after c) r && rxRamBoth s c
  else if r < 32 then true
  else if r < 64 then
    let w := s.after c (R.CAN_FLT (r - 32))
    fltPlaceOk w && (fltElems w).all (fun e => elemSpace (s.shReg (R.CAN_FLTRAM e 0)) != 3)
  else rxRamOk (fun a => if canRegion a < 64 then s.shReg a else s.after c a)

/-! ### Commits -/

/-- A COMMIT copy of a lane, split by the safe points of Table 1.7. -/
def State.commitSplit (s : State) (block : Nat) (region : Nat → Nat) (l : Lane) (ws : List RegCell) (lsns : List Nat) :
    State :=
  let rs := (ws.map (fun c => region c.1)).eraseDups
  s.forEach rs (fun s r => s.addCommit block r l (ws.filter (fun c => region c.1 == r)) lsns false)

/-- A command's configuration of the Commons: both shadows take it, and the holder's copy goes with the frames. -/
def State.commitSharedSplit (s : State) (block : Nat) (region : Nat → Nat) (ws : List RegCell) (lsn : Nat) : State :=
  ((s.writeShadows .E ws).writeShadows .W ws).commitSplit block region (s.holderOr .E) ws [lsn]

/-- A list waits for its elements (R401). -/
def State.fltWaits (s : State) (c : Commit) : Bool :=
  let w := s.after c (R.CAN_FLT (c.region - 32))
  s.fltQ.any (fun r => (fltElems w).contains r.elem)

/-- What a port's configuration changes at once: the transceiver's state (R414), and INH (R417). -/
def State.afterCanCommit (s : State) (r : Nat) : State :=
  if r < 16 then
    let s := if s.canTrx r = cSLEEP then s else s.canConfigured r
    s.inhAssert
  else if r < 32 then s.inhAssert
  else s

/-- The Commons takes a CAN copy from a frame, at the port's frame boundary (R423). -/
def State.applyCan (s : State) (c : Commit) : State :=
  if 32 ≤ c.region ∧ c.region < 64 ∧ s.fltWaits c = true then s
  else
    let ok := chkCan s c
    let s := s.applyCommit ok R.CAN_STATUS F.CAN_STATUS_CFG_INCONSISTENT eCFG_REJECTED c
    if ok then s.afterCanCommit c.region else s

/-- A lane's receive configuration takes effect at a cycle boundary at which the FIFO holds no frame behind SHADOW
(R405). -/
def State.canBoundary (s : State) (l : Lane) : State :=
  s.forEach ports16 (fun s n =>
    match s.pendCommit 11 (64 + n) l with
    | some c => if (s.canRx l n).fifo = [] then
        s.applyCommit (chkCan s c) R.CAN_STATUS F.CAN_STATUS_CFG_INCONSISTENT eCFG_REJECTED c else s
    | none => s)

/-- An element arrives in the Commons (R401): inside a list in force it has no effect. -/
def State.applyElem (s : State) (r : FltRec) : State :=
  if ports16.any (fun n => (fltElems (s.shReg (R.CAN_FLT n))).contains r.elem) then
    s.setShBit R.CAN_STATUS F.CAN_STATUS_CFG_INCONSISTENT true
  else (s.setSh (R.CAN_FLTRAM r.elem 0) r.w0).setSh (R.CAN_FLTRAM r.elem 1) r.w1

def State.applyElems (s : State) : List FltRec → State
  | [] => s
  | r :: rs => (s.applyElem r).applyElems rs

/-- The elements that the holder's frame carried (R401). -/
def State.takeElems (s : State) : State :=
  let xs := s.fltQ.filter FltRec.carried
  { s with fltQ := s.fltQ.filter (fun r => !r.carried) }.applyElems xs

/-- A frame carries at most 128 elements (R401). -/
def State.sealElems (s : State) : State :=
  { s with fltQ := s.fltQ.mapIdx (fun i r => if i < 128 then { r with carried := true } else r) }

/-! ### Filtering (R398, R399, R402) -/

/-- A filter element matches an identifier of an identifier space. -/
def elemMatch (w0 w1 : Word) (space id : Nat) : Bool :=
  let mask := if space = 1 then 2 ^ 29 else 2 ^ 11
  let a := w0.toNat % 2 ^ 29 % mask
  let b := w1.toNat % 2 ^ 29 % mask
  elemSpace w0 == space &&
    (match elemSpace w1 with
     | 0 => decide (a ≤ id ∧ id ≤ b)
     | 1 => id == a || id == b
     | 2 => id &&& b == a &&& b
     | _ => false)

def frameSpace (f : CanFrame) : Nat := if f.fmt = 2 then 2 else if f.ext then 1 else 0

/-- First element that matches a frame on a port, by its index in the filter RAM. -/
def State.filterHit (s : State) (n : Nat) (f : CanFrame) : Option Nat :=
  (fltElems (s.shReg (R.CAN_FLT n))).find? (fun e =>
    elemMatch (s.shReg (R.CAN_FLTRAM e 0)) (s.shReg (R.CAN_FLTRAM e 1)) (frameSpace f) f.id)

/-- A frame of an enabled CAN XL session on the port (R402). -/
def State.sessionFrame (s : State) (n : Nat) (f : CanFrame) : Bool :=
  f.fmt == 2 && f.sdt == s.fld .E R.SCSM_CFG F.SCSM_CFG_SDT &&
    (List.range 32).any (fun i =>
      s.bit .E (R.SCSM_RS_CFG i) F.SCSM_RS_CFG_EN && s.bit .E (R.SCSM_RS_CFG i) F.SCSM_RS_CFG_TRANSPORT &&
        s.fld .E (R.SCSM_RS_CFG i) F.SCSM_RS_CFG_CAN_PORT == n &&
        s.fld .E (R.SCSM_RS_CANID i) F.SCSM_RS_CANID_RX_PRIO == f.id)

/-- Receive header of a frame (Table 13.3); RXSEQ is set where a FIFO takes it. -/
def canHdr (f : CanFrame) (filter : Nat) (echo : Bool) : List Word :=
  let id := f.id + 2 ^ 29 * b2n f.ext + 2 ^ 30 * b2n f.rtr + 2 ^ 31 * b2n echo
  let flags := f.fmt + 4 * b2n f.brs + 8 * b2n f.esi + 16 * b2n f.sec
  [BitVec.ofNat 32 f.stamp, BitVec.ofNat 32 (f.stamp / 2 ^ 32), BitVec.ofNat 32 id, BitVec.ofNat 32 f.af,
   BitVec.ofNat 32 (f.data.length + flags * 65536), BitVec.ofNat 32 filter,
   BitVec.ofNat 32 (f.sdt + f.vcid * 2 ^ 8 + f.dlc * 2 ^ 16), 0]

/-- A ring message of the cove's current ring on its ring port (R505, R506). -/
def State.canRingMsg (s : State) (n : Nat) (f : CanFrame) : Bool :=
  match s.portCove n with
  | none => false
  | some c =>
    let c0 := s.shReg (R.NMS_COVE_CFG0 c)
    getF c0 F.NMS_COVE_CFG0_RING_PORT == n && f.fmt == 0 && f.dlc == 8 && !f.rtr &&
      f.ext == (getF c0 F.NMS_COVE_CFG0_RING_EXT == 1) && f.id == s.shFld (R.NMS_COVE_CFG2 c) F.NMS_COVE_CFG2_RING_ID &&
      fieldAt f.data 1 1 == c && fieldAt f.data 2 1 == s.coveRing c

/-- A frame has ended on a port's bus without error (R398 to R403). -/
def State.canReceive (s : State) (n : Nat) (f : CanFrame) : State :=
  let s := s.countSh (R.CAN_CNT n 0)
  let s := s.frameSeen n false f.id (s.canRingMsg n f)
  if s.sessionFrame n f then s
  else
    match s.filterHit n f with
    | some e =>
      let rx := nbit (s.shReg (R.CAN_FLTRAM e 0)).toNat 31
      let hb := nbit (s.shReg (R.CAN_FLTRAM e 1)).toNat 31
      if rx || hb then s.canDeliver n ⟨canHdr f e false, f.data⟩ rx hb else s
    | none =>
      let rx := s.canCfg n F.CAN_PCFG_AA_RX
      let hb := s.canCfg n F.CAN_PCFG_AA_HARB
      if s.canCfg n F.CAN_PCFG_ACCEPT_ALL && (rx || hb) then
        s.canDeliver n ⟨canHdr f 0xFFFF false, f.data⟩ rx hb
      else s

/-! ### Commands (Tables 13.9 and 13.10) -/

def portCells (r : Req) : List RegCell :=
  let n := r.u8 0
  [(R.CAN_PCFG n, r.w 4), (R.CAN_NBT n, r.w 8), (R.CAN_DBT n, r.w 12), (R.CAN_XBT n, r.w 16), (R.CAN_TDC n, r.w 20),
   (R.CAN_XPWM n, r.w 24)]

def specCanPortConfig : CmdSpec :=
  { opcode := 0x0600, accepted := true, lenOk := fun r => r.length == 28, perm := fun _ r => r.src.isChief,
    param := fun s r => decide (r.u8 0 ≤ 15) && r.u 1 3 == 0 && onlyMask (r.w 4) 0x7FF && onlyMask (r.w 8) 0x7FFFFFF &&
      onlyMask (r.w 12) 0x7FFFFFF && onlyMask (r.w 16) 0x7FFFFFF && onlyMask (r.w 20) 0x1FF &&
      onlyMask (r.w 24) 0x13F3F3F && canPortOk (s.cfgView r (portCells r)) (r.u8 0) &&
      rxRamOk (s.cfgView r (portCells r)),
    exec := fun s r lsn => s.commitSharedSplit 11 canRegion (portCells r) lsn }

/-- Elements that are not free for a new list: in force, in a committed or configured list, or on their way. -/
def State.elemUsed (s : State) (l : Lane) (e : Nat) : Bool :=
  ports16.any (fun n => (fltElems (s.shReg (R.CAN_FLT n))).contains e || (fltElems (s.shadow l (R.CAN_FLT n))).contains e) ||
    s.fltQ.any (fun r => r.elem == e)

/-- Starts of runs of `n` free elements: an element starts one where the free run from it is long enough. -/
def freeStarts (used : Nat → Bool) (n : Nat) : List Nat :=
  ((List.range 8192).reverse.foldl (fun (acc : Nat × List Nat) e =>
    let run := if used e then 0 else acc.1 + 1
    (run, if n ≤ run then e :: acc.2 else acc.2)) (0, [])).2

/-- Place of a new list among the runs that are free; which of them the Elder takes is open. -/
def State.fltPlace (s : State) (l : Lane) (n : Nat) : Option Nat :=
  let xs := freeStarts (s.elemUsed l) n
  if xs = [] then none else xs[Config.freeNat s.freeCtr % xs.length]?

def fltElemCells (r : Req) (s : State) (base : Nat) : State :=
  (s.forEach (List.range (r.u16 2)) (fun s i => s.sendElem (base + i) (r.w (4 + 8 * i)) (r.w (8 + 8 * i))))

def specCanFilterSet : CmdSpec :=
  { opcode := 0x0601, accepted := true, lenOk := fun r => decide (4 ≤ r.length ∧ r.length ≤ 4100),
    perm := fun _ r => r.src.isChief,
    param := fun _ r => decide (r.u8 0 ≤ 15) && r.u8 1 == 0 && decide (r.u16 2 ≤ 512) && r.length == 4 + 8 * r.u16 2,
    stateOk := fun s r => r.u16 2 == 0 || freeStarts (s.elemUsed (s.cfgLane r)) (r.u16 2) != [],
    exec := fun s r lsn =>
      let base := if r.u16 2 = 0 then 0 else (s.fltPlace (s.cfgLane r) (r.u16 2)).getD 0
      let s := fltElemCells r s.tickFree base
      s.commitSharedSplit 11 canRegion [(R.CAN_FLT (r.u8 0), BitVec.ofNat 32 (base + r.u16 2 * 65536))] lsn }

def trxCells (r : Req) : List RegCell :=
  [(R.CAN_TRX (r.u8 0), BitVec.ofNat 32 (r.u8 1 + 0x10 * r.u8 2 + 0x40 * r.u8 3))]

def specCanTrxSet : CmdSpec :=
  { opcode := 0x0602, accepted := true, lenOk := fun r => r.length == 4, perm := fun _ r => r.src.isChief,
    param := fun s r => decide (r.u8 0 ≤ 15) && decide (r.u8 1 ≤ 2) && decide (r.u8 2 ≤ 3) && decide (r.u8 3 ≤ 3) &&
      canPortOk (s.cfgView r (trxCells r)) (r.u8 0),
    exec := fun s r lsn => s.commitSharedSplit 11 canRegion (trxCells r) lsn }

def wakeFrameCells (r : Req) : List RegCell :=
  let n := r.u8 0
  [(R.CAN_WUF_ID n, r.w 4), (R.CAN_WUF_MASK n, r.w 8), (R.CAN_WUF_DLO n, r.w 12), (R.CAN_WUF_DHI n, r.w 16),
   (R.CAN_WUF_CFG n, r.w 20)]

def specCanWakeFrame : CmdSpec :=
  { opcode := 0x0603, accepted := true, lenOk := fun r => r.length == 24, perm := fun _ r => r.src.isChief,
    param := fun s r => decide (r.u8 0 ≤ 15) && r.u 1 3 == 0 && onlyMask (r.w 4) 0x1FFFFFFF &&
      onlyMask (r.w 8) 0x1FFFFFFF && onlyMask (r.w 20) 0x3F && canPortOk (s.cfgView r (wakeFrameCells r)) (r.u8 0),
    exec := fun s r lsn => s.commitSharedSplit 11 canRegion (wakeFrameCells r) lsn }

def specCanRecover : CmdSpec :=
  { opcode := 0x0604, accepted := true, lenOk := fun r => r.length == 2, perm := fun _ r => r.src.isChief,
    param := fun _ r => decide (1 ≤ r.u16 0),
    exec := fun s r lsn => s.cmnSend (.canRecover (r.u16 0)) (some lsn) }

def canRange (r : Req) : List Nat := (List.range (r.u8 1)).map (· + r.u8 0)

def specCanStatus : CmdSpec :=
  { opcode := 0x0605, accepted := false, lenOk := fun r => r.length == 2, maxResp := 112,
    param := fun _ r => decide (r.u8 0 ≤ 15) && decide (1 ≤ r.u8 1 ∧ r.u8 1 ≤ 7) && decide (r.u8 0 + r.u8 1 ≤ 16),
    answer := fun s r => ((canRange r).map (fun n =>
      let l := (s.servedBy r.lane).getD r.lane
      s.regBytes l (R.CAN_MIR n 0) 3 ++ wordBytes (s.reg l (R.CAN_MIR n 6)))).flatten }

def specCanInhMap : CmdSpec :=
  { opcode := 0x0606, accepted := true, lenOk := fun r => r.length == 8, perm := fun _ r => r.src.isChief,
    param := fun _ r => decide (r.u8 0 ≤ 3) && r.u 1 3 == 0 && onlyMask (r.w 4) 0xFFFFFF,
    exec := fun s r lsn => s.commitSharedSplit 11 canRegion [(R.CAN_INH_MAP (r.u8 0), r.w 4)] lsn }

/-- A frame is given the port's next number and is handed over when it has a slot (R408, R409). -/
def State.canHand (s : State) (n : Nat) (hdr data : List Byte) (lsn pdu deadline : Option Nat) : State :=
  let x := s.canPort n
  let t : CanTx := { seq := x.nextSeq, hdr := hdr, data := data, lsn := lsn, pdu := pdu, deadline := deadline }
  s.setCanPort n { x with nextSeq := (x.nextSeq + 1) % 65536, held := x.held ++ [t] }

/-- A lane's transmit request, CAN_SEND or a descriptor: it wakes the cove of its port (R502), and is handed over; on
a port with PHY_FAULT it ends at once (R416). -/
def State.canRequest (s : State) (hdr data : List Byte) (lsn : Nat) : State :=
  let n := fieldAt hdr 13 1
  let dl := match s.entry lsn with
    | some e => e.deadline
    | none => none
  let s := match s.portCove n with
    | some c => if s.coveSt c = vDUSK ∨ s.coveSt c = vASLEEP then s.wakeOrDusk c else s
    | none => s
  if s.canPhy n then s.dispose lsn dUNDELIVERABLE ePORT_PHY else s.canHand n hdr data (some lsn) none dl

def specCanSend : CmdSpec :=
  { opcode := 0x0607, accepted := true, lenOk := fun r => decide (16 ≤ r.length ∧ r.length ≤ 2064),
    param := fun s r => canHdrOk (r.bytes 0 16) && r.length == 16 + r.u16 8 &&
      fmtOn (s.shadow (s.cfgLane r) (R.CAN_PCFG (r.u8 13))) (r.u8 10 % 4),
    stateOk := fun s r => s.canErr (r.u8 13) != eBUSOFF && s.canErr (r.u8 13) != eRECOVERING &&
      s.canTrx (r.u8 13) != cLISTEN,
    reachOk := fun s r => !s.canPhy (r.u8 13) && !s.mod_.cmnSafe,
    exec := fun s r lsn => s.canRequest (r.bytes 0 16) (r.payload.drop 16) lsn }

def execCanPortConfig (r : Req) (s : State) : Host.Outcome State Fault Refusal := runScs specCanPortConfig r s
def execCanFilterSet (r : Req) (s : State) : Host.Outcome State Fault Refusal := runScs specCanFilterSet r s
def execCanTrxSet (r : Req) (s : State) : Host.Outcome State Fault Refusal := runScs specCanTrxSet r s
def execCanWakeFrame (r : Req) (s : State) : Host.Outcome State Fault Refusal := runScs specCanWakeFrame r s
def execCanRecover (r : Req) (s : State) : Host.Outcome State Fault Refusal := runScs specCanRecover r s
def execCanStatus (r : Req) (s : State) : Host.Outcome State Fault Refusal := runScs specCanStatus r s
def execCanInhMap (r : Req) (s : State) : Host.Outcome State Fault Refusal := runScs specCanInhMap r s
def execCanSend (r : Req) (s : State) : Host.Outcome State Fault Refusal := runScs specCanSend r s

/-! ### Recovery (R413, R416, R425) -/

/-- CAN_RECOVER entries whose ports are all error-active and without PHY_FAULT are DONE. -/
def State.syncRecover (s : State) : State :=
  let good := fun (m : Nat) => (maskBits 16 m).all (fun n =>
    (s.canErr n == eACTIVE || s.canErr n == ePASSIVE) && !s.canPhy n)
  let fin := s.canWork.filter (fun w => good w.2)
  let s := { s with canWork := s.canWork.filter (fun w => !good w.2) }
  s.forEach (fin.map Prod.fst) State.done

/-- RECOVER reaches a port: a port in bus-off begins to recover; with PHY_FAULT the read-back test runs. -/
def State.recoverPort (s : State) (n : Nat) : State :=
  let s := if s.canErr n = eBUSOFF then s.setShFld (R.CAN_STAT n) F.CAN_STAT_ERRST eRECOVERING else s
  if s.canPhy n then s.setCanPort n { s.canPort n with phyTest := true } else s

def State.applyRecover (s : State) (mask : Nat) (lsn : Option Nat) : State :=
  let s := s.forEach (maskBits 16 mask) State.recoverPort
  let s := match lsn with
    | some n => { s with canWork := s.canWork ++ [(n, mask)] }
    | none => s
  s.syncRecover

/-! ### Register commands -/

/-- CAN_CTLn.RECOVER acts from the holder only (CAN_CTLn). -/
def execCanCtlRecover (l : Lane) (who : Initiator) (n : Nat) (s : State) : Host.Outcome State Fault Refusal :=
  .next (if s.mayWrite l 11 who && decide (n < 16) then
      (if s.leaseValid l then s.cmnSend (.canRecover (2 ^ n)) none else s).busOk 0
    else s.busErr)

def execRxDone (l : Lane) (who : Initiator) (n : Nat) (s : State) : Host.Outcome State Fault Refusal :=
  .next (if s.mayWrite l 11 who && decide (n < 16) then (s.rxDone l n).busOk 0 else s.busErr)

/-- The 200 MHz stamp counter (R404). -/
def State.stampNow (s : State) : Nat := s.now * 200 % 2 ^ 64

def execCanTsRead (l : Lane) (who : Initiator) (s : State) : Host.Outcome State Fault Refusal :=
  .next (if s.mayWrite l 11 who then
      let t := s.stampNow
      ((s.setSh R.CAN_TS_LO (BitVec.ofNat 32 t)).setSh R.CAN_TS_HI (BitVec.ofNat 32 (t / 2 ^ 32))).busOk (BitVec.ofNat 32 t)
    else s.busErr)

/-! ### What happens on a port -/

/-- A received frame, with the receive error counter it leaves (R403, R413). -/
def execCanFrameReceived (n : Nat) (f : CanFrame) (rec : Nat) (s : State) : Host.Outcome State Fault Refusal :=
  let listens := s.canTrx n == cNORMAL || s.canTrx n == cLISTEN
  .next (if decide (n < 16) && s.cmnRuns && listens && fmtOn (s.shReg (R.CAN_PCFG n)) f.fmt &&
      s.canErr n != eBUSOFF && s.canErr n != eRECOVERING then
      (s.setShFld (R.CAN_STAT n) F.CAN_STAT_REC (min rec 255)).canReceive n f
    else s)

/-- A sequence number lies ahead of the last one queued (R143, R409). -/
def seqAhead16 (a b : Nat) : Bool :=
  let d := (a + 65536 - b % 65536) % 65536
  decide (1 ≤ d ∧ d ≤ 32767)

/-- A frame handed to a port ends at once where the port cannot take it (Table 13.5). -/
def State.canRefused (s : State) (n : Nat) (t : CanTx) : Option (Nat × Nat) :=
  if s.mod_.cmnSafe then some (dUNDELIVERABLE, eDIE_UNREACHABLE)
  else if s.canPhy n then some (dUNDELIVERABLE, ePORT_PHY)
  else if !fmtOn (s.shReg (R.CAN_PCFG n)) t.fmt || s.canTrx n == cLISTEN then some (dFAILED, eFORMAT_OFF)
  else if s.canErr n == eBUSOFF || s.canErr n == eRECOVERING then some (dFAILED, eBUS_OFF)
  else none

/-- A lane's copy of frame `seq` reaches the port (R408, R409, R143). `differs` says that a second copy differs from
the first. -/
def execCanFrameQueued (n : Nat) (l : Lane) (seq : Nat) (differs : Bool) (s : State) :
    Host.Outcome State Fault Refusal :=
  let x := s.canPort n
  let last := s.shFld (R.CAN_TXQ n) F.CAN_TXQ_LAST_SEQ
  let second := match x.last with
    | some p => p.1 == seq && decide (s.now < p.2 + 100)
    | none => false
  .next (
    if !(decide (n < 16) && s.cmn.up && !s.mod_.frozen && s.takesFrames l) then s
    else
      match x.held.find? (fun t => t.seq == seq) with
      | none =>
        if s.canCfg n F.CAN_PCFG_SEQUENCED && !seqAhead16 seq last then
          let s := s.countSh (R.CAN_CNT n 3)
          if second && differs then
            s.significant (s.holderOr l).other .CMN (s.reg l R.FERRY_CYCLE).toNat 0 0
          else s
        else s
      | some t =>
        let sequenced := s.canCfg n F.CAN_PCFG_SEQUENCED && t.fmt == 2 && t.pdu.isNone
        if !sequenced && s.arb.held != some l then s
        else if !seqAhead16 seq last then s
        else if 32 ≤ x.queue.length then s
        else
          let s := s.setCanPort n { x with held := x.held.filter (fun u => u.seq != seq), last := some (seq, s.now) }
          let s := s.setShFld (R.CAN_TXQ n) F.CAN_TXQ_LAST_SEQ seq
          match s.canRefused n t with
          | some e => s.canEnds t e.1 e.2
          | none =>
            let y := s.canPort n
            ((s.setCanPort n { y with queue := y.queue ++ [t] }).syncFill n).canStart n)

/-- Frame that a port has in transmission. -/
def State.canCurrent (s : State) (n : Nat) : Option CanTx :=
  match (s.canPort n).cur with
  | some q => (s.canPort n).queue.find? (fun t => t.seq == q)
  | none => none

/-- A transmitted frame as a received one (R407). -/
def CanTx.frame (t : CanTx) (stamp : Nat) : CanFrame :=
  { id := t.id, ext := t.ext, rtr := t.rtr, fmt := t.fmt, brs := t.flags.testBit 2, esi := false,
    sec := t.flags.testBit 4, af := fieldAt t.hdr 4 4, sdt := fieldAt t.hdr 11 1, vcid := fieldAt t.hdr 12 1,
    dlc := dlcOf t.fmt (fieldAt t.hdr 8 2), data := t.data, stamp := stamp }

def execCanTxDone (n stamp tec : Nat) (s : State) : Host.Outcome State Fault Refusal :=
  .next (if n < 16 ∧ s.cmnRuns = true then
      match s.canCurrent n with
      | none => s
      | some t =>
        let s := (s.countSh (R.CAN_CNT n 1)).setShFld (R.CAN_STAT n) F.CAN_STAT_TEC (min tec 255)
        let s := s.emit (.canTx n (t.hdr ++ t.data))
        let s := (s.dequeue n t.seq).doneOpt t.lsn
        let s := if s.canCfg n F.CAN_PCFG_TX_ECHO then
            s.tickFree.canDeliver n ⟨canHdr (t.frame stamp) (s.freeNat % 65536) true, t.data⟩ true false
          else s
        s.canStart n
    else s)

/-- A transmission loses arbitration or meets an error, with the error counters it leaves (R410, R413). -/
def execCanTxError (n : Nat) (why : CanFail) (tec rec : Nat) (s : State) : Host.Outcome State Fault Refusal :=
  .next (if n < 16 ∧ s.cmnRuns = true then
      match s.canCurrent n with
      | none => s
      | some t =>
        let once := t.oneshot || s.canCfg n F.CAN_PCFG_ONESHOT_ALL
        match why with
        | .arbitration =>
          let s := if once then (s.canEnds t dFAILED eARB_LOST).dequeue n t.seq
            else s.setCanPort n { s.canPort n with cur := none }
          s.canStart n
        | .error lec =>
          let a := R.CAN_STAT n
          let s := (s.countSh (R.CAN_CNT n 2)).setShFld a F.CAN_STAT_LEC lec
          let s := (s.setShFld a F.CAN_STAT_TEC (min tec 255)).setShFld a F.CAN_STAT_REC (min rec 255)
          if 255 < tec then
            (s.setShFld a F.CAN_STAT_ERRST eBUSOFF).canEndQueue n dFAILED eBUS_OFF false
          else
            let s := s.setShFld a F.CAN_STAT_ERRST (if 128 ≤ tec ∨ 128 ≤ rec then ePASSIVE else eACTIVE)
            let s := if once then (s.canEnds t dFAILED eTX_ERROR).dequeue n t.seq
              else s.setCanPort n { s.canPort n with cur := none }
            s.canStart n
    else s)

def execBusOffRecovered (n : Nat) (s : State) : Host.Outcome State Fault Refusal :=
  .next (if n < 16 ∧ s.cmnRuns = true ∧ s.canErr n = eRECOVERING then
      let a := R.CAN_STAT n
      let s := ((s.setShFld a F.CAN_STAT_ERRST eACTIVE).setShFld a F.CAN_STAT_TEC 0).setShFld a F.CAN_STAT_REC 0
      (s.syncRecover).canStart n
    else s)

/-- The frame matches the port's wake frame (R415). -/
def State.wufMatch (s : State) (n id : Nat) (ext : Bool) (dlc : Nat) (data : List Byte) : Bool :=
  let w := s.shReg (R.CAN_WUF_CFG n)
  let m := (s.shReg (R.CAN_WUF_MASK n)).toNat
  let want := (s.shReg (R.CAN_WUF_DLO n)).toNat + (s.shReg (R.CAN_WUF_DHI n)).toNat * 2 ^ 32
  id &&& m == (s.shReg (R.CAN_WUF_ID n)).toNat &&& m && ext == (getF w F.CAN_WUF_CFG_WUF_IDE == 1) &&
    dlc == getF w F.CAN_WUF_CFG_WUF_DLC &&
    (getF w F.CAN_WUF_CFG_DATA_EN == 0 || decide (leNat data &&& want ≠ 0))

/-- A wake of a port: latched, and passed to the wake logic (R415). -/
def State.canWoke (s : State) (n src : Nat) : State :=
  let s := (s.setShFld (R.CAN_WAKE n) F.CAN_WAKE_SRC src).setShBit (R.CAN_WAKE n) F.CAN_WAKE_WOKE true
  s.portWake n

def execCanWake (n : Nat) (seen : CanSeen) (s : State) : Host.Outcome State Fault Refusal :=
  let mode := s.shFld (R.CAN_TRX n) F.CAN_TRX_WAKE_MODE
  let fec := s.shFld (R.CAN_WAKE n) F.CAN_WAKE_FEC
  .next (if n < 16 ∧ (s.cmnRuns = true ∨ s.mod_.asleep = true) ∧ (s.canTrx n = cSTANDBY ∨ s.canTrx n = cSLEEP) then
      match seen with
      | .dominant => if mode = 1 then s.canWoke n 1 else s
      | .pattern => if mode = 2 then s.canWoke n 2 else s
      | .frame id ext dlc data =>
        if mode = 3 then
          let s := s.setShFld (R.CAN_WAKE n) F.CAN_WAKE_FEC (fec - 1)
          if s.wufMatch n id ext dlc data then s.canWoke n 3 else s
        else s
      | .badFrame =>
        if mode = 3 then
          let s := s.setShFld (R.CAN_WAKE n) F.CAN_WAKE_FEC (min (fec + 1) 32)
          if 32 ≤ fec + 1 then s.canWoke n 4 else s
        else s
    else s)

/-- PHY_FAULT sets, or the read-back test of a RECOVER ends (R416). -/
def execCanPhyFault (n : Nat) (fault : Bool) (s : State) : Host.Outcome State Fault Refusal :=
  let x := s.canPort n
  .next (if n < 16 ∧ s.cmnRuns = true then
      if fault then
        let s := s.setShBit (R.CAN_STAT n) F.CAN_STAT_PHY_FAULT true
        let s := s.canEndQueue n dUNDELIVERABLE ePORT_PHY true
        if x.phyTest then
          let s := s.setCanPort n { s.canPort n with phyTest := false }
          let mine := s.canWork.filter (fun w => w.2.testBit n)
          let s := { s with canWork := s.canWork.filter (fun w => !w.2.testBit n) }
          s.disposeAll (mine.map Prod.fst) dFAILED ePHY_STILL
        else s
      else if x.phyTest then
        let s := s.setCanPort n { x with phyTest := false }
        ((s.setShBit (R.CAN_STAT n) F.CAN_STAT_PHY_FAULT false).syncRecover).canStart n
      else s
    else s)

/-- The transceiver's own time-out changes no state; a bus held dominant from outside sets DOM_CLAMP (R416). -/
def execDominantTimeout (n : Nat) (clamped : Bool) (s : State) : Host.Outcome State Fault Refusal :=
  .next (if decide (n < 16) && s.cmnRuns && clamped then s.setShBit (R.CAN_STAT n) F.CAN_STAT_DOM_CLAMP true else s)

end Sys2Proof.Machine
end

