-- ==== Sys2Proof/Machine/Lin.lean ====
section
/-! DEFINITION. LIN ports (spec/13): configuration and its checks, the 0x06xx LIN commands, the schedule, and what
happens on a port. -/

namespace Sys2Proof.Machine

/-! ### Consistency -/

/-- A frame table entry (LIN_FR word 0). -/
def linEntryOk (w : Word) : Bool :=
  let dir := getF w F.LIN_FR_CFG_DIR
  let len := getF w F.LIN_FR_CFG_LEN
  decide (dir ≠ 3) && decide (len ≤ 8) && (dir == 0 || len != 0)

/-- A slot against its entry (R421): DELAY of 0.1 ms units is no shorter than TFrame_Max at the port's rate. -/
def linSlotOk (baud : Nat) (slot entry : Word) : Bool :=
  let d := getF slot F.LIN_SLOT_DELAY
  d != 0 && decide (14000 * (34 + 10 * (getF entry F.LIN_FR_CFG_LEN + 1)) ≤ d * baud)

def linTimeOk (cfg time : Word) : Bool :=
  let b := getF cfg F.LIN_CFG_BAUD
  let k := getF cfg F.LIN_CFG_BRK_BITS
  let z := getF time F.LIN_TIME_SLEEP_S
  let u := getF time F.LIN_TIME_WAKE_US
  decide (1000 ≤ b ∧ b ≤ 20000) && decide (13 ≤ k ∧ k ≤ 26) && decide (4 ≤ z ∧ z ≤ 10) && decide (250 ≤ u ∧ u ≤ 5000)

/-- Slots of a schedule over a view: every slot of an enabled one, and every slot given. -/
def linSlotsOk (g : Nat → Word) (p : Nat) (given : List Nat) : Bool :=
  let sch := g (R.LIN_SCHED p)
  let used := if getF sch F.LIN_SCHED_EN = 1 then List.range (getF sch F.LIN_SCHED_LEN_M1 + 1) else []
  (used ++ given).all (fun k =>
    let w := g (R.LIN_SLOT p k)
    linSlotOk (getF (g (R.LIN_CFG p)) F.LIN_CFG_BAUD) w (g (R.LIN_FR_CFG p (getF w F.LIN_SLOT_PID))))

def linPortOk (g : Nat → Word) (p : Nat) (given : List Nat) : Bool :=
  linTimeOk (g (R.LIN_CFG p)) (g (R.LIN_TIME p)) && (List.range 64).all (fun j => linEntryOk (g (R.LIN_FR_CFG p j))) &&
    linSlotsOk g p given

/-- Regions of a LIN commit: the ports. -/
def linRegion (a : Nat) : Nat :=
  let o := a % 0x100000
  if 0x4000 ≤ o then (o - 0x4000) / 0x100
  else if 0x2000 ≤ o then (o - 0x2000) / 0x400
  else (o - 0x400) / 0x100

/-- Slots that a copy gives. -/
def slotsGiven (ws : List RegCell) : List Nat :=
  ws.filterMap (fun c =>
    let o := c.1 % 0x100000
    if 0x4000 ≤ o then some ((o - 0x4000) % 0x100 / 4) else none)

/-- A copy names schedule registers or slots: a committed schedule starts at its slot 0 (R421). -/
def touchesSched (p : Nat) (ws : List RegCell) : Bool :=
  slotsGiven ws != [] || ws.any (fun c => c.1 == R.LIN_SCHED p)

/-- A slot word of 0 that a whole copy carries is an unused slot, judged only where the schedule uses it. -/
def chkLin (s : State) (c : Commit) : Bool :=
  linPortOk (s.after c) c.region ((slotsGiven c.writes).filter (fun k => s.after c (R.LIN_SLOT c.region k) != 0))

def State.applyLin (s : State) (c : Commit) : State :=
  let ok := chkLin s c
  let s := s.applyCommit ok R.LIN_STATUS F.LIN_STATUS_CFG_INCONSISTENT eCFG_REJECTED c
  if ok && touchesSched c.region c.writes then s.setLin c.region { s.lin c.region with slot := 0 } else s

/-! ### Commands (Tables 13.9 and 13.10) -/

def linCfgCells (r : Req) : List RegCell :=
  let p := r.u8 0
  [(R.LIN_CFG p, r.w 4), (R.LIN_TIME p, r.w 8), (R.LIN_SCHED p, r.w 12)]

def specLinConfig : CmdSpec :=
  { opcode := 0x0608, accepted := true, lenOk := fun r => r.length == 16, perm := fun _ r => r.src.isChief,
    param := fun _ r => decide (r.u8 0 ≤ 7) && r.u 1 3 == 0 && onlyMask (r.w 4) 0xFFFF01FF &&
      onlyMask (r.w 8) 0x1FFF000F && onlyMask (r.w 12) 0x3F03 && linTimeOk (r.w 4) (r.w 8),
    exec := fun s r lsn => s.commitSharedSplit 12 linRegion (linCfgCells r) lsn }

def linFrameCells (r : Req) : List RegCell :=
  let p := r.u8 0
  let j := r.u8 1
  [(R.LIN_FR_CFG p j, r.w 4), (R.LIN_FR_DATA p j 0, r.w 8), (R.LIN_FR_DATA p j 1, r.w 12)]

def specLinFrame : CmdSpec :=
  { opcode := 0x0609, accepted := true, lenOk := fun r => r.length == 16, perm := fun _ r => r.src.isChief,
    param := fun s r => decide (r.u8 0 ≤ 7) && decide (r.u8 1 ≤ 63) && r.u16 2 == 0 && onlyMask (r.w 4) 0xFF &&
      linEntryOk (r.w 4) && linSlotsOk (s.cfgView r (linFrameCells r)) (r.u8 0) [],
    exec := fun s r lsn => s.commitSharedSplit 12 linRegion (linFrameCells r) lsn }

def linSlotCells (r : Req) : List RegCell :=
  (List.range (r.u8 2)).map (fun i => (R.LIN_SLOT (r.u8 0) (r.u8 1 + i), r.w (4 + 4 * i)))

def specLinSchedule : CmdSpec :=
  { opcode := 0x060A, accepted := true, lenOk := fun r => decide (8 ≤ r.length ∧ r.length ≤ 260),
    perm := fun _ r => r.src.isChief,
    param := fun s r => decide (r.u8 0 ≤ 7) && decide (r.u8 1 ≤ 63) && decide (1 ≤ r.u8 2 ∧ r.u8 2 ≤ 64) &&
      decide (r.u8 1 + r.u8 2 ≤ 64) && r.u8 3 == 0 && r.length == 4 + 4 * r.u8 2 &&
      (linSlotCells r).all (fun c => onlyMask c.2 0xFFFF003F) &&
      linSlotsOk (s.cfgView r (linSlotCells r)) (r.u8 0) ((List.range (r.u8 2)).map (· + r.u8 1)),
    exec := fun s r lsn => s.commitSharedSplit 12 linRegion (linSlotCells r) lsn }

def specLinWake : CmdSpec :=
  { opcode := 0x060B, accepted := true, lenOk := fun r => r.length == 1, perm := fun _ r => r.src.isChief,
    param := fun _ r => decide (1 ≤ r.u8 0),
    stateOk := fun s r => (maskBits 8 (r.u8 0)).all (fun p => s.linSt p == lnSLEEP),
    exec := fun s r lsn => s.cmnSend (.linWake (r.u8 0)) (some lsn) }

def specLinStatus : CmdSpec :=
  { opcode := 0x060C, accepted := false, lenOk := fun r => r.length == 0, maxResp := 32,
    answer := fun s r =>
      let l := (s.servedBy r.lane).getD r.lane
      (ports8.map (fun p => wordBytes (s.reg l (R.LIN_MIR_STAT p)))).flatten }

/-- LIN_READ answers from the lane's mirror and clears FRESH, in the port's entry and in the mirror. -/
def specLinRead : CmdSpec :=
  { opcode := 0x060D, accepted := false, lenOk := fun r => r.length == 2, maxResp := 12,
    param := fun _ r => decide (r.u8 0 ≤ 7) && decide (r.u8 1 ≤ 63),
    answer := fun s r => s.regBytes ((s.servedBy r.lane).getD r.lane) (R.LIN_MIR_FR (r.u8 0) (r.u8 1) 1) 3,
    effect := fun s r =>
      let s := s.setShBit (R.LIN_FR_STAT (r.u8 0) (r.u8 1)) F.LIN_FR_STAT_FRESH false
      s.setBitBoth (R.LIN_MIR_FR (r.u8 0) (r.u8 1) 3) F.LIN_FR_STAT_FRESH false }

def execLinConfig (r : Req) (s : State) : Host.Outcome State Fault Refusal := runScs specLinConfig r s
def execLinFrame (r : Req) (s : State) : Host.Outcome State Fault Refusal := runScs specLinFrame r s
def execLinSchedule (r : Req) (s : State) : Host.Outcome State Fault Refusal := runScs specLinSchedule r s
def execLinWake (r : Req) (s : State) : Host.Outcome State Fault Refusal := runScs specLinWake r s
def execLinStatus (r : Req) (s : State) : Host.Outcome State Fault Refusal := runScs specLinStatus r s
def execLinRead (r : Req) (s : State) : Host.Outcome State Fault Refusal := runScs specLinRead r s

/-! ### Wake pulses -/

def State.applyLinWake (s : State) (mask : Nat) (lsn : Option Nat) : State :=
  let s := s.forEach (maskBits 8 mask) State.linPulse
  match lsn with
  | some n => { s with linWork := s.linWork ++ [(n, mask)] }
  | none => s

/-- Wake pulses whose WAKE_US have passed end; an entry of LIN_WAKE is DONE once each of its pulses has (R425). -/
def State.linTick (s : State) : State :=
  let due := ports8.filter (fun p => match (s.lin p).pulseEnd with
    | some t => decide (t ≤ s.now)
    | none => false)
  if due = [] then s
  else
    let s := s.forEach due (fun s p => s.setLin p { s.lin p with pulseEnd := none })
    let fin := s.linWork.filter (fun w => (maskBits 8 w.2).all (fun p => (s.lin p).pulseEnd.isNone))
    let s := { s with linWork := s.linWork.filter (fun w => (maskBits 8 w.2).any (fun p => (s.lin p).pulseEnd.isSome)) }
    s.forEach (fin.map Prod.fst) State.done

/-- LIN_CTLp.WAKE acts from the holder only (LIN_CTLp). -/
def execLinCtlWake (l : Lane) (who : Initiator) (p : Nat) (s : State) : Host.Outcome State Fault Refusal :=
  .next (if s.mayWrite l 12 who && decide (p < 8) then
      (if s.leaseValid l then s.cmnSend (.linWake (2 ^ p)) none else s).busOk 0
    else s.busErr)

/-! ### What happens on a port -/

/-- Some lane's lease lets holder-only actions start (R158, Table 13.7). -/
def State.linMaySend (s : State) : Bool := s.cmnRuns && !s.mod_.frozen && s.leaseLane.isSome

/-- The next slot of a commander's schedule starts and sends its header (R421). -/
def execLinSlot (p : Nat) (s : State) : Host.Outcome State Fault Refusal :=
  .next (if decide (p < 8) && s.linMaySend && s.linCommander p && s.shBit (R.LIN_SCHED p) F.LIN_SCHED_EN &&
      s.linSt p != lnSLEEP && (s.lin p).pulseEnd.isNone then
      let n := s.shFld (R.LIN_SCHED p) F.LIN_SCHED_LEN_M1 + 1
      let k := (s.lin p).slot % n
      let pid := s.shFld (R.LIN_SLOT p k) F.LIN_SLOT_PID
      let s := s.setLin p { s.lin p with slot := (k + 1) % n }
      let s := (s.setLinSt p lnOPERATIONAL).setShFld (R.LIN_STAT p) F.LIN_STAT_LAST_PID pid
      s.emit (.linTx p pid [])
    else s)

/-- The measured rate is off by more than the responder allows (Table 13.8). -/
def syncErr (autobaud : Bool) (baud rate : Nat) : Bool :=
  let d := if rate < baud then baud - rate else rate - baud
  decide ((if autobaud then 14 else 2) * baud < 100 * d)

/-- A subscribed entry's data to both lanes' Harbour (Table 15.1). -/
def State.linDeliver (s : State) (p pid : Nat) (data : List Byte) : State :=
  s.harbDeliver { mark := false, kind := 1, port := p, id := pid, data := data, stamp := s.stampNow }

/-- A header with its response has ended on a port (R420): sent for a published entry, received for a subscribed one,
passed for an ignored one. -/
def execLinResponse (p pid : Nat) (e : LinEnd) (s : State) : Host.Outcome State Fault Refusal :=
  let a := R.LIN_FR_CFG p pid
  let st := R.LIN_FR_STAT p pid
  let dir := if s.shBit a F.LIN_FR_CFG_EN then s.shFld a F.LIN_FR_CFG_DIR else 0
  let cfg := s.shReg (R.LIN_CFG p)
  let bad := !s.linCommander p && syncErr (getF cfg F.LIN_CFG_AUTOBAUD == 1) (getF cfg F.LIN_CFG_BAUD) e.rate
  .next (if decide (p < 8) && decide (pid < 64) && s.cmnRuns && s.linSt p != lnSLEEP then
      let s := if s.linCommander p then s else s.setShFld (R.LIN_STAT p) F.LIN_STAT_RATE e.rate
      if bad then s.setShBit (R.LIN_STAT p) F.LIN_STAT_SYNC_ERR true
      else if !e.parityOk then s
      else
        let s := s.frameSeen (16 + p) false pid false
        let s := (s.setLinSt p lnOPERATIONAL).setShFld (R.LIN_STAT p) F.LIN_STAT_LAST_PID pid
        if dir = 1 then
          if s.linMaySend then
            let len := s.shFld a F.LIN_FR_CFG_LEN
            let s := (s.countShFld st F.LIN_FR_STAT_COUNT).setShFld st F.LIN_FR_STAT_ERR e.err
            s.emit (.linTx p pid ((s.regBytes .E (R.LIN_FR_DATA p pid 0) 2).take len))
          else s
        else if dir = 2 then
          let s := (s.countShFld st F.LIN_FR_STAT_COUNT).setShFld st F.LIN_FR_STAT_ERR e.err
          if e.err = 0 then
            let d := padTo 8 (e.data.take (s.shFld a F.LIN_FR_CFG_LEN))
            let s := s.setRegs .E (R.LIN_FR_DATA p pid 0) [wordAt d 0, wordAt d 4]
            let s := s.setShBit st F.LIN_FR_STAT_FRESH true
            s.linDeliver p pid (e.data.take (s.shFld a F.LIN_FR_CFG_LEN))
          else s
        else s
    else s)

/-- A responder sleeps at the go-to-sleep command or after SLEEP_S without bus activity (R422). -/
def execLinInactivitySleep (p : Nat) (s : State) : Host.Outcome State Fault Refusal :=
  .next (if decide (p < 8) && s.cmnRuns && !s.linCommander p then s.setLinSt p lnSLEEP else s)

/-- A dominant phase of 150 µs on a sleeping port (Table 13.8). -/
def execLinWakeDetect (p : Nat) (s : State) : Host.Outcome State Fault Refusal :=
  .next (if decide (p < 8) && (s.cmnRuns || s.mod_.asleep) && s.linSt p == lnSLEEP then
      let s := s.setShBit (R.LIN_STAT p) F.LIN_STAT_WOKE true
      let s := if s.portAsleep (16 + p) then s
        else (s.setLinSt p lnWAKING).setLin p { s.lin p with slot := 0 }
      s.portWake (16 + p)
    else s)

end Sys2Proof.Machine
end

