-- ==== Sys2Proof/Machine/Time.lean ====
section
/-! DEFINITION. Time bases (spec/14, R446 to R454) with their servo, the RTC calendar's setting from TB0 (R603), and
the 0x07xx time commands. -/

namespace Sys2Proof.Machine

def State.tb (s : State) (n : Nat) : TbRt := (s.tbs[n]?).getD ⟨0, .zero, 0, false⟩
def State.setTb (s : State) (n : Nat) (x : TbRt) : State := { s with tbs := s.tbs.set n x }

def tbs4 : List Nat := [0, 1, 2, 3]

def secNs : Nat := 1000000000

/-- FREQ in 2^−10 ppb. -/
def State.tbFreq (s : State) (n : Nat) : Int := sext 32 (s.shReg (R.TIME_TB_FREQ n)).toNat

/-- A time base runs for a microsecond: 1000 ns times (1 + FREQ × 10^−9), in 2^−32 ns (R446). -/
def State.tbRun (s : State) (n : Nat) : State :=
  if s.tbRunning n then
    let x := s.tb n
    let d : Int := 1000 * 2 ^ 32 + s.tbFreq n * 4194304 / 1000000
    s.setTb n { x with t := (x.t + d.toNat) % (2 ^ 48 * secNs * 2 ^ 32) }
  else s

def State.tbTick (s : State) : State := s.forEach tbs4 State.tbRun

/-! ### The parish calendar's setting from TB0 (R603) -/

/-- The calendar takes a value; a correction of more than 2 s is counted. -/
def State.setCal (s : State) (sec : Nat) (count : Bool) : State :=
  let old := s.calSec
  let big := decide (old + 2 < sec) || decide (sec + 2 < old)
  let s := { s with calUs := sec % 2 ^ 40 * 1000000 }
  let s := s.setBitBoth R.PARI_STATUS F.PARI_STATUS_CAL_VALID true
  if count && big then (s.countFld .E R.PARI_STATUS F.PARI_STATUS_CAL_STEPS).countFld .W R.PARI_STATUS F.PARI_STATUS_CAL_STEPS
  else s

def State.calSync (s : State) : State :=
  let h := s.holderOr .E
  if s.bit h R.PARI_CFG F.PARI_CFG_UTC_SYNC && s.shBit (R.TIME_TB_STAT 0) F.TIME_TB_STAT_LOCKED then
    s.setCal (s.tbNs 0 / secNs - s.fld h R.PARI_CFG F.PARI_CFG_UTC_OFS) true
  else s

def execCalSync (s : State) : Host.Outcome State Fault Refusal := .next s.calSync

/-! ### What follows a time base: the tide (R337), and gate lists (R434, R436) -/

def lanesOn (s : State) (n : Nat) : List Lane :=
  [Lane.E, Lane.W].filter (fun l => s.tideSrc l == srcTB && s.tideTb l == n && s.tideRuns l)

def State.eachLane (s : State) (ls : List Lane) (f : State → Lane → State) : State := ls.foldl f s

/-- Ports whose gate list runs by a time base. -/
def State.gclPorts (s : State) (n : Nat) : List Nat :=
  ports16.filter (fun p => s.shBit (R.ETHS_P_CFG p) F.ETHS_P_CFG_GATE_EN && s.shFld (R.ETHS_P_CFG p) F.ETHS_P_CFG_TB_SEL == n)

def State.gclIdle (s : State) (n : Nat) (b : Bool) : State :=
  s.forEach (s.gclPorts n) (fun s p => s.setShBit (R.ETHS_P_STAT p) F.ETHS_P_STAT_GCL_IDLE b)

/-- A time base is stepped (R449, R451): STEPPED, STEPS, LOCKED; the tide follows under R331. -/
def State.tbStep (s : State) (n : Nat) (t : Nat) : State :=
  let a := R.TIME_TB_STAT n
  let s := s.setTb n { s.tb n with t := t, stepped := true, run := 0 }
  let s := (s.setShBit a F.TIME_TB_STAT_STEPPED true).countShFld a F.TIME_TB_STAT_STEPS
  let s := s.setShBit a F.TIME_TB_STAT_LOCKED false
  s.eachLane (lanesOn s n) State.beginFollow

/-- A time base starts (R448). -/
def State.tbStart (s : State) (n : Nat) : State :=
  let init := s.shBit (R.TIME_TB_CFG n) F.TIME_TB_CFG_INIT_RTC
  let a := R.TIME_TB_STAT n
  let s := s.setTb n ⟨if init then s.calSec * secNs * 2 ^ 32 else 0, .zero, 0, false⟩
  let s := ((s.setShBit a F.TIME_TB_STAT_RUNNING true).setShFld a F.TIME_TB_STAT_STEPS 0).setSh (R.TIME_TB_FREQ n) 0
  let s := s.gclIdle n false
  s.eachLane (lanesOn s n) State.beginFollow

/-- A time base stops (R448). -/
def State.tbStop (s : State) (n : Nat) : State :=
  let a := R.TIME_TB_STAT n
  let s := (s.setShBit a F.TIME_TB_STAT_RUNNING false).setShBit a F.TIME_TB_STAT_LOCKED false
  let s := (s.setShBit a F.TIME_TB_STAT_HOLDOVER false).gclIdle n true
  s.eachLane (lanesOn s n) State.sourceLoss

/-- The Commons restarts or sleeps: every time base stops (R448). -/
def State.tbStopAll (s : State) : State := s.forEach tbs4 (fun s n => if s.tbRunning n then s.tbStop n else s)

/-- The arbiter names a holder: the reference half follows (R447). -/
def State.refHalf (s : State) (l : Lane) : State :=
  s.forEach tbs4 (fun s n => s.setShFld (R.TIME_TB_STAT n) F.TIME_TB_STAT_REF_HALF l.ix)

/-! ### Configuration (R448, the register tables) -/

/-- No two time bases map one domain. -/
def domainsOk (g : Nat → Word) : Bool :=
  tbs4.all (fun i => tbs4.all (fun j =>
    i == j || getF (g (R.TIME_TB_CFG i)) F.TIME_TB_CFG_DOM_EN == 0 || getF (g (R.TIME_TB_CFG j)) F.TIME_TB_CFG_DOM_EN == 0 ||
      getF (g (R.TIME_TB_CFG i)) F.TIME_TB_CFG_DOMAIN != getF (g (R.TIME_TB_CFG j)) F.TIME_TB_CFG_DOMAIN))

def tbCfgOk (g : Nat → Word) (n : Nat) : Bool :=
  !(getF (g (R.TIME_TB_CFG n)) F.TIME_TB_CFG_SERVO_EN == 1 && getF (g (R.TIME_TB_GAIN n)) F.TIME_TB_GAIN_KP == 0) &&
    getF (g (R.TIME_TB_STEP n)) F.TIME_TB_STEP_STEP_NS != 0 && domainsOk g

/-- Regions of a TIME commit: a time base by its number, a port at 8, and at 20 a copy that waits for the next servo
update of its time base. -/
def timeRegion (a : Nat) : Nat :=
  let o := a % 0x100000
  if 0x1000 ≤ o then 8 + (o - 0x1000) / 0x20 else (o - 0x100) / 0x80

def chkTime (s : State) (c : Commit) : Bool :=
  if c.region < 4 then tbCfgOk (s.after c) c.region
  else if 20 ≤ c.region then tbCfgOk (s.after c) (c.region - 20)
  else true

/-- EN starts and stops the time base. -/
def State.afterTime (s : State) (n : Nat) : State :=
  let en := s.shBit (R.TIME_TB_CFG n) F.TIME_TB_CFG_EN
  if en && !s.tbRunning n then s.tbStart n
  else if !en && s.tbRunning n then s.tbStop n
  else s

def State.putTime (s : State) (c : Commit) (n : Nat) : State :=
  let ok := chkTime s c
  let s := s.applyCommit ok R.TIME_STATUS F.TIME_STATUS_CFG_INCONSISTENT eCFG_REJECTED c
  if ok then s.afterTime n else s

/-- The Commons takes a TIME copy from a frame: at once, or for a running time base at its next servo update (R448). -/
def State.applyTime (s : State) (c : Commit) : State :=
  if c.region < 4 then
    if s.tbRunning c.region then
      ((s.dropCommit c).setNum { s.commitNum c.block c.region with applied := c.num }).addCommit 14 (20 + c.region) .E
        c.writes c.lsns false
    else s.putTime c c.region
  else if c.region < 20 then
    s.applyCommit (chkTime s c) R.TIME_STATUS F.TIME_STATUS_CFG_INCONSISTENT eCFG_REJECTED c
  else s

/-- A servo update: a waiting copy takes effect. -/
def State.servoUpdate (s : State) (n : Nat) : State :=
  match s.pendCommit 14 (20 + n) .E with
  | some c => s.putTime c n
  | none => s

/-! ### The servo (R449, R450) -/

def ppbLim : Frac := .ofInt 500000
def clampPpb (x : Frac) : Frac := .max (.neg ppbLim) (.min ppbLim x)

/-- A frequency as FREQ shows it. -/
def freqWord (x : Frac) : Word :=
  let y := Frac.mul x (.ofInt 1024)
  let f := y.floor
  let up := y.den != 1 && Config.freqUp y
  BitVec.ofNat 32 (uext 32 (if up then f + 1 else f))

/-- A sample: the offset in 2^−16 ns and the interval in microseconds. -/
def State.servoSample (s : State) (n : Nat) (o : Int) (tUs : Nat) : State :=
  let a := R.TIME_TB_STAT n
  if !s.tbRunning n then s
  else if tUs = 0 then s.setShBit a F.TIME_TB_STAT_SAMPLE_BAD true
  else
    let ns := Frac.mk' o 65536
    let s := s.setShBit a F.TIME_TB_STAT_HOLDOVER false
    let step := s.shBit (R.TIME_TB_CFG n) F.TIME_TB_CFG_STEP_EN &&
      Frac.le (.ofInt (s.shFld (R.TIME_TB_STEP n) F.TIME_TB_STEP_STEP_NS)) ns.abs
    let servo := s.shBit (R.TIME_TB_CFG n) F.TIME_TB_CFG_SERVO_EN
    let s :=
      if servo && step then
        let x := s.tb n
        let t := ((x.t : Int) - o * 65536).toNat
        (s.setTb n { x with integ := .zero }).tbStep n t
      else
        let x := s.tb n
        let rate := Frac.mk' (ns.num * 1000000) (ns.den * tUs)
        let ki := Frac.mk' (s.shFld (R.TIME_TB_GAIN n) F.TIME_TB_GAIN_KI) 32768
        let kp := Frac.mk' (s.shFld (R.TIME_TB_GAIN n) F.TIME_TB_GAIN_KP) 32768
        let i := clampPpb (.add x.integ (.mul ki rate))
        let f := clampPpb (.sub (.neg (.mul kp rate)) i)
        let s := if servo then
            (s.setTb n { x with integ := i }).setSh (R.TIME_TB_FREQ n) (freqWord f)
          else s
        let good := Frac.lt ns.abs (.ofInt (s.shFld (R.TIME_TB_LOCK n) F.TIME_TB_LOCK_LOCK_NS))
        let run := if good then min ((s.tb n).run + 1) 8 else 0
        let was := s.shBit a F.TIME_TB_STAT_LOCKED
        let s := s.setTb n { s.tb n with run := run }
        let s := s.setShBit a F.TIME_TB_STAT_LOCKED (run == 8 || (was && good))
        if run == 8 && !was && n == 0 then s.calSync else s
    s.servoUpdate n

/-- A write of TIME_TBn_OFS_HI delivers the sample (R449). -/
def execServoSample (l : Lane) (who : Initiator) (n : Nat) (hi : Word) (s : State) : Host.Outcome State Fault Refusal :=
  .next (if s.mayWrite l 14 who && decide (n < 4) then
      let s := s.setSh (R.TIME_TB_OFS_HI n) hi
      let o := sext 64 ((s.shReg (R.TIME_TB_OFS_LO n)).toNat + hi.toNat * 2 ^ 32)
      (s.servoSample n o (s.shFld (R.TIME_TB_OFS_T n) F.TIME_TB_OFS_T_T_US)).busOk 0
    else s.busErr)

/-- A write of TIME_TBn_SET_SHI; with GO the time base takes the value (R451). -/
def execTimeSetGo (l : Lane) (who : Initiator) (n : Nat) (hi : Word) (s : State) : Host.Outcome State Fault Refusal :=
  .next (if s.mayWrite l 14 who && decide (n < 4) then
      let s := s.setSh (R.TIME_TB_SET_SHI n) (hi &&& 0x0000FFFF#32)
      let sec := (s.shReg (R.TIME_TB_SET_SLO n)).toNat + hi.toNat % 65536 * 2 ^ 32
      let ns := s.shFld (R.TIME_TB_SET_NS n) F.TIME_TB_SET_NS_NS
      (if getF hi F.TIME_TB_SET_SHI_GO = 1 ∧ s.tbRunning n = true then s.tbStep n ((sec * secNs + ns) * 2 ^ 32)
       else s).busOk 0
    else s.busErr)

/-- NOW in the layout of TIME_TBn_NOW: NS, SEC low, SEC high with FRAC. -/
def nowWords (t : Nat) : List Word :=
  let ns := t / 2 ^ 32
  [BitVec.ofNat 32 (ns % secNs), BitVec.ofNat 32 (ns / secNs),
   BitVec.ofNat 32 (ns / secNs / 2 ^ 32 % 65536 + t / 65536 % 65536 * 65536)]

def execTimeNowRead (l : Lane) (who : Initiator) (n : Nat) (s : State) : Host.Outcome State Fault Refusal :=
  .next (if s.mayWrite l 14 who && decide (n < 4) then
      let ws := nowWords (s.tb n).t
      (s.setRegs .E (R.TIME_TB_NOW_NS n) ws).busOk (ws.headD 0)
    else s.busErr)

/-- 1 ms of time-base time without a sample (R449). -/
def execServoTimer (n : Nat) (s : State) : Host.Outcome State Fault Refusal :=
  .next (if n < 4 ∧ s.cmnRuns = true ∧ s.tbRunning n = true then s.servoUpdate n else s)

def execTimeHoldover (n : Nat) (s : State) : Host.Outcome State Fault Refusal :=
  .next (if n < 4 ∧ s.cmnRuns = true ∧ s.tbRunning n = true then
      let a := R.TIME_TB_STAT n
      let s := (s.setShBit a F.TIME_TB_STAT_HOLDOVER true).setShBit a F.TIME_TB_STAT_LOCKED false
      let s := s.setTb n { s.tb n with run := 0 }
      s.setSh (R.TIME_TB_FREQ n) (freqWord (.neg (s.tb n).integ))
    else s)

/-- The stamp counter and a time base are captured together (R454). -/
def execXcapCapture (n : Nat) (s : State) : Host.Outcome State Fault Refusal :=
  .next (if n < 4 ∧ s.cmnRuns = true ∧ s.tbRunning n = true then
      let c := s.stampNow
      let ns := s.tbNs n
      let x := s.tb n
      let s := s.setRegs .E (R.TIME_TB_XCAP n 0)
        [BitVec.ofNat 32 c, BitVec.ofNat 32 (c / 2 ^ 32), BitVec.ofNat 32 (ns % secNs), BitVec.ofNat 32 (ns / secNs),
         BitVec.ofNat 32 (ns / secNs / 2 ^ 32 % 65536 + b2n x.stepped * 2 ^ 31)]
      s.setTb n { x with stepped := false }
    else s)

/-! ### Commands (Tables 14.8 and 14.9) -/

def specTimeStatus : CmdSpec :=
  { opcode := 0x0708, accepted := false, lenOk := fun r => r.length == 1, maxResp := 20,
    param := fun _ r => decide (r.u8 0 ≤ 3),
    answer := fun s r => ((nowWords (s.tb (r.u8 0)).t).map wordBytes).flatten ++
      wordBytes (s.shReg (R.TIME_TB_FREQ (r.u8 0))) ++ wordBytes (s.shReg (R.TIME_TB_STAT (r.u8 0))) }

def timeCells (r : Req) : List RegCell :=
  let n := r.u8 0
  [(R.TIME_TB_CFG n, r.w 4), (R.TIME_TB_GAIN n, r.w 8), (R.TIME_TB_STEP n, r.w 12), (R.TIME_TB_LOCK n, r.w 16)]

def specTimeConfig : CmdSpec :=
  { opcode := 0x0709, accepted := true, lenOk := fun r => r.length == 20, perm := fun _ r => r.src.isChief,
    param := fun s r => decide (r.u8 0 ≤ 3) && r.u 1 3 == 0 && onlyMask (r.w 4) 0x1FFF && onlyMask (r.w 12) 0xFFFFFF &&
      onlyMask (r.w 16) 0xFFFFFF && tbCfgOk (s.cfgView r (timeCells r)) (r.u8 0),
    reachOk := fun s _ => !s.mod_.cmnSafe,
    exec := fun s r lsn => s.commitSharedSplit 14 timeRegion (timeCells r) lsn }

def specTimeSet : CmdSpec :=
  { opcode := 0x070A, accepted := true, lenOk := fun r => r.length == 12, perm := fun _ r => r.src.isChief,
    param := fun _ r => decide (r.u8 0 ≤ 3) && r.u8 1 == 0 && decide (r.u32 8 < secNs),
    stateOk := fun s r => s.tbRunning (r.u8 0),
    reachOk := fun s _ => !s.mod_.cmnSafe,
    exec := fun s r lsn => s.cmnSend (.timeSet (r.u8 0) (r.u 2 6 * secNs + r.u32 8)) (some lsn) }

def State.applyTimeSet (s : State) (n ns : Nat) (lsn : Option Nat) : State :=
  (if s.tbRunning n then s.tbStep n (ns * 2 ^ 32) else s).doneOpt lsn

def specTimeComp : CmdSpec :=
  { opcode := 0x070B, accepted := true, lenOk := fun r => r.length == 16, perm := fun _ r => r.src.isChief,
    param := fun _ r => decide (r.u8 0 ≤ 9) && r.u 1 3 == 0,
    reachOk := fun s _ => !s.mod_.cmnSafe,
    exec := fun s r lsn =>
      let p := r.u8 0
      s.commitSharedSplit 14 timeRegion [(R.TIME_P_EGR p, r.w 4), (R.TIME_P_ING p, r.w 8), (R.TIME_P_ASYM p, r.w 12)] lsn }

def specTimeCapture : CmdSpec :=
  { opcode := 0x070C, accepted := false, lenOk := fun r => r.length == 1, maxResp := 20,
    param := fun _ r => decide (r.u8 0 ≤ 3),
    answer := fun s r => s.regBytes .E (R.TIME_TB_XCAP (r.u8 0) 0) 5 }

def execTimeStatus (r : Req) (s : State) : Host.Outcome State Fault Refusal := runScs specTimeStatus r s
def execTimeConfig (r : Req) (s : State) : Host.Outcome State Fault Refusal := runScs specTimeConfig r s
def execTimeSet (r : Req) (s : State) : Host.Outcome State Fault Refusal := runScs specTimeSet r s
def execTimeComp (r : Req) (s : State) : Host.Outcome State Fault Refusal := runScs specTimeComp r s
def execTimeCapture (r : Req) (s : State) : Host.Outcome State Fault Refusal := runScs specTimeCapture r s

end Sys2Proof.Machine
end

