-- ==== Sys2Proof/Machine/Eth.lean ====
section
/-! DEFINITION. The bridge on the Commons (spec/14): configuration and its checks, stream filters, replication and
elimination, forwarding and buffers, MACsec, gate lists, the 0x07xx Ethernet commands, and what happens on its ports. -/

namespace Sys2Proof.Machine

/-! ### Configuration and its checks (R427, R434, the register tables) -/

def ethPortOk (g : Nat → Word) (p : Nat) : Bool :=
  let w := g (R.ETHS_P_CFG p)
  let cyc := getF (g (R.ETHS_P_CYCLE p)) F.ETHS_P_CYCLE_CYCLE_NS
  let n := getF w F.ETHS_P_CFG_NODE_COUNT_M1
  (!(decide (2 ≤ p ∧ p ≤ 9)) || decide (getF w F.ETHS_P_CFG_SPEED ≤ 1)) &&
    (!(decide (10 ≤ p ∧ p ≤ 13)) || (n != 0 && decide (getF w F.ETHS_P_CFG_NODE_ID < n + 1))) &&
    decide (1000 ≤ cyc ∧ cyc ≤ 1000000000) && decide (getF (g (R.ETHS_P_BASE_NS p)) F.ETHS_P_BASE_NS_NS < secNs) &&
    (getF w F.ETHS_P_CFG_GATE_EN == 0 || (List.range (getF w F.ETHS_P_CFG_GCL_LEN_M1 + 1)).all (fun j =>
      getF (g (R.ETHS_P_GCL p j)) F.ETHS_P_GCL_INTERVAL != 0))

/-- Fields of ETHS_Pp_CFG that a port has. -/
def ethCfgMask (p : Nat) : Nat :=
  let base := 0xFF0071
  if p ≤ 1 then base + 0x8182 else if p ≤ 9 then base + 0x800E else if p ≤ 13 then base + 0x7E00 else base

def ctrlOk (w : Word) : Bool :=
  let b := getF w F.ETHS_CTRL_CTRL_BURST
  let r := getF w F.ETHS_CTRL_CTRL_RATE
  decide (1542 ≤ b ∧ b ≤ 16384) && decide (1 ≤ r ∧ r ≤ 10000)

def filterOk (w0 w1 : Word) : Bool :=
  let m := getF w1 F.ETHS_SF_W1_MAX_SDU
  getF w0 F.ETHS_SF_W0_EN == 0 || decide (64 ≤ m ∧ m ≤ 1522)

def meterOk (cir eir cbs ebs : Word) : Bool :=
  decide (cir.toNat ≤ 10000000) && decide (eir.toNat ≤ 10000000) && decide (cbs.toNat ≤ 1048576) &&
    decide (ebs.toNat ≤ 1048576)

def frerOk (w : Word) : Bool :=
  let m := getF w F.ETHS_FR_CFG_RESET_MS
  (getF w F.ETHS_FR_CFG_REPLICATE == 0 && getF w F.ETHS_FR_CFG_ELIMINATE == 0) || decide (1 ≤ m ∧ m ≤ 1000)

/-- Regions of an ETHS commit: a port by its number, its gate list at 32, the control class at 64, streams, meters,
compound streams and MACsec at 65. -/
def ethRegion (a : Nat) : Nat :=
  let o := a % 0x100000
  if o = 0x10 then 64
  else if o < 0x2000 then (o - 0x400) / 0x100
  else if 0x10000 ≤ o ∧ o < 0x14000 then 32 + (o - 0x10000) / 0x400
  else 65

def chkEth (s : State) (c : Commit) : Bool :=
  let g := s.after c
  if c.region < 16 then ethPortOk g c.region
  else if c.region < 64 then ethPortOk g (c.region - 32)
  else if c.region = 64 then ctrlOk (g R.ETHS_CTRL)
  else
    (c.writes.all (fun w =>
      let o := w.1 % 0x100000
      if 0x22000 ≤ o ∧ o < 0x23000 then
        let f := (o - 0x22000) / 0x10
        filterOk (g (R.ETHS_SF_W0 f)) (g (R.ETHS_SF_W1 f))
      else if 0x24000 ≤ o ∧ o < 0x25000 then
        let m := (o - 0x24000) / 0x10
        meterOk (g (R.ETHS_FM_CIR m)) (g (R.ETHS_FM_EIR m)) (g (R.ETHS_FM_CBS m)) (g (R.ETHS_FM_EBS m))
      else if 0x26000 ≤ o ∧ o < 0x27000 then frerOk (g (R.ETHS_FR_CFG ((o - 0x26000) / 0x10)))
      else true)) &&
    [0, 1].all (fun u => getF (g (R.ETHS_MS_CFG u)) F.ETHS_MS_CFG_CONF_OFS != 3)

/-! ### Gate lists (R434 to R436) -/

def State.ethPort (s : State) (p : Nat) (f : Fld) : Nat := s.shFld (R.ETHS_P_CFG p) f
def State.ethStat (s : State) (p : Nat) (f : Fld) : Bool := s.shBit (R.ETHS_P_STAT p) f
def State.setEthStat (s : State) (p : Nat) (f : Fld) (b : Bool) : State := s.setShBit (R.ETHS_P_STAT p) f b
def State.modEth (s : State) (f : EthRt → EthRt) : State := { s with eth := f s.eth }

def State.gcl (s : State) (p : Nat) : GclRt := (s.eth.gcl[p]?).getD ⟨0, [], []⟩
def State.setGcl (s : State) (p : Nat) (x : GclRt) : State := s.modEth (fun e => { e with gcl := e.gcl.set p x })

/-- The gate list of a port runs. -/
def State.gclRuns (s : State) (p : Nat) : Bool :=
  s.ethPort p F.ETHS_P_CFG_GATE_EN == 1 && s.tbRunning (s.ethPort p F.ETHS_P_CFG_TB_SEL)

/-- The fields of ETHS_Pp_CFG that belong to the list. -/
def qbvMask : Word := 0x00FF0070#32

/-- A cell of a port's list: its times and entries. -/
def qbvCell (a : Nat) : Bool :=
  let o := a % 0x100000
  decide (0x10000 ≤ o) || (decide (0x400 ≤ o ∧ o < 0x1400) && decide (4 ≤ o % 0x100 ∧ o % 0x100 < 0x14))

/-- A committed list is put in force: its first entry. -/
def State.takeGcl (s : State) (p : Nat) : State :=
  let x := s.gcl p
  let s := s.activateAll .E x.pend
  let s := (s.setGcl p ⟨0, [], []⟩).setEthStat p F.ETHS_P_STAT_GCL_PENDING false
  s.settleAll x.lsns

/-- The list of a copy waits for its first cycle start (R435): the new configuration runs a list. -/
def State.gclWaits (s : State) (p : Nat) (c : Commit) : Bool :=
  let w := s.after c (R.ETHS_P_CFG p)
  getF w F.ETHS_P_CFG_GATE_EN == 1 && s.tbRunning (getF w F.ETHS_P_CFG_TB_SEL) &&
    c.writes.any (fun x => (qbvCell x.1 && s.after c x.1 != s.shReg x.1) ||
      (x.1 == R.ETHS_P_CFG p && (w ^^^ s.shReg x.1) &&& qbvMask != 0))

/-- The parts of a copy that act at once, and the list's parts. -/
def gclNow (p : Nat) (old : Word) (ws : List RegCell) : List RegCell :=
  (ws.filter (fun x => !qbvCell x.1)).map (fun x =>
    if x.1 = R.ETHS_P_CFG p then (x.1, (x.2 &&& ~~~qbvMask) ||| (old &&& qbvMask)) else x)

def gclLater (p : Nat) (ws : List RegCell) : List RegCell :=
  ws.filter (fun x => qbvCell x.1 || x.1 == R.ETHS_P_CFG p)

/-- A copy of a port or of its list takes effect in the Commons. -/
def State.applyEthPort (s : State) (p : Nat) (c : Commit) : State :=
  let s := if s.ethStat p F.ETHS_P_STAT_PHY_FAULT && c.region < 16 then
      s.modEth (fun e => { e with phyTest := setBit e.phyTest p }) else s
  if s.gclWaits p c then
    let x := s.gcl p
    let later := cellsMerge x.pend (gclLater p c.writes)
    let s := (s.dropCommit c).setNum { s.commitNum c.block c.region with applied := c.num }
    let s := s.activateAll .E (gclNow p (s.shReg (R.ETHS_P_CFG p)) c.writes)
    let mine := decide (32 ≤ c.region)
    let s := s.setGcl p { x with pend := later, lsns := if mine then x.lsns ++ c.lsns else x.lsns }
    let s := s.setEthStat p F.ETHS_P_STAT_GCL_PENDING true
    if mine then s else s.settleAll c.lsns
  else
    let s := (s.dropCommit c).setNum { s.commitNum c.block c.region with applied := c.num }
    let s := s.activateAll .E c.writes
    let s := if s.gcl p == ⟨0, [], []⟩ then s else s.setGcl p { s.gcl p with ix := 0 }
    let idle := s.ethPort p F.ETHS_P_CFG_GATE_EN == 1 && !s.tbRunning (s.ethPort p F.ETHS_P_CFG_TB_SEL)
    (s.setEthStat p F.ETHS_P_STAT_GCL_IDLE idle).settleAll c.lsns

/-- A stream's filter is rewritten: it no longer blocks (R439). -/
def State.unblock (s : State) (ws : List RegCell) : State :=
  ws.foldl (fun s w =>
    let o := w.1 % 0x100000
    if 0x22000 ≤ o ∧ o < 0x23000 then s.setSh (R.ETHS_SF_W2 ((o - 0x22000) / 0x10)) 0 else s) s

/-- The Commons takes an ETHS copy from a frame (R458). -/
def State.applyEth (s : State) (c : Commit) : State :=
  let bad := s.applyCommit false R.ETHS_STATUS F.ETHS_STATUS_CFG_INCONSISTENT eCFG_REJECTED c
  if !chkEth s c then bad
  else if c.region < 16 then s.applyEthPort c.region c
  else if c.region < 64 then s.applyEthPort (c.region - 32) c
  else (s.applyCommit true R.ETHS_STATUS F.ETHS_STATUS_CFG_INCONSISTENT eCFG_REJECTED c).unblock c.writes

/-- Intervals of a list's entries up to one, in ns. -/
def State.gclElapsed (s : State) (p ix : Nat) : Nat :=
  ((List.range (ix + 1)).map (fun j => s.shFld (R.ETHS_P_GCL p j) F.ETHS_P_GCL_INTERVAL)).foldl
    (fun (a b : Nat) => a + b) 0

/-- The interval of the entry in force ends; at the end of the cycle the list begins anew, a committed one first
(R434, R435). -/
def execGclEntry (p : Nat) (s : State) : Host.Outcome State Fault Refusal :=
  .next (if p < 16 ∧ s.cmnRuns = true then
      let x := s.gcl p
      if s.gclRuns p then
        let last := s.ethPort p F.ETHS_P_CFG_GCL_LEN_M1
        let ends := decide (last ≤ x.ix) ||
          decide (s.shFld (R.ETHS_P_CYCLE p) F.ETHS_P_CYCLE_CYCLE_NS ≤ s.gclElapsed p x.ix)
        if ends then (if x.pend = [] then s.setGcl p { x with ix := 0 } else s.takeGcl p)
        else s.setGcl p { x with ix := x.ix + 1 }
      else if x.pend = [] then s
      else s.takeGcl p
    else s)

/-- The gate of a class on a port (R434, R437). -/
def State.gateOpen (s : State) (p cls : Nat) : Bool :=
  !s.gclRuns p || (cls == 7 && (p == 0 || p == 1 || p == 14 || p == 15)) ||
    nbit (s.shFld (R.ETHS_P_GCL p (s.gcl p).ix) F.ETHS_P_GCL_GATES) cls

/-! ### Streams (R439) -/

def sidMac (w0 w1 : Word) : Nat := w0.toNat + getF w1 F.ETHS_SID_W1_MAC * 2 ^ 32

/-- Stream identity of a frame: the first entry that matches. -/
def State.streamId (s : State) (f : EthFrame) : Option Nat :=
  (List.range 512).find? (fun i =>
    let w2 := s.shReg (R.ETHS_SID_W2 i)
    let mac := sidMac (s.shReg (R.ETHS_SID_W0 i)) (s.shReg (R.ETHS_SID_W1 i))
    getF w2 F.ETHS_SID_W2_EN == 1 && s.shFld (R.ETHS_SID_W1 i) F.ETHS_SID_W1_VID == f.vid &&
      mac == (if getF w2 F.ETHS_SID_W2_KIND = 1 then f.src else f.dst))

def State.filterOf (s : State) (sid : Nat) : Option Nat :=
  (List.range 256).find? (fun k =>
    s.shBit (R.ETHS_SF_W0 k) F.ETHS_SF_W0_EN && s.shFld (R.ETHS_SF_W0 k) F.ETHS_SF_W0_SID == sid)

/-- Colours of a meter. -/
inductive Colour where
  | green
  | yellow
  | red
  deriving DecidableEq, Repr

/-- What a bucket lacks after the time since it was last filled. -/
def refill (lack rate us : Nat) : Nat := lack - rate * us

/-- A meter marks a frame of `len` bytes (R439); its buckets count in 1/8000 byte. -/
def State.meterMark (s : State) (m len : Nat) : State × Colour :=
  let x := (s.eth.meters[m]?).getD ⟨0, 0, 0⟩
  let cir := (s.shReg (R.ETHS_FM_CIR m)).toNat
  let eir := (s.shReg (R.ETHS_FM_EIR m)).toNat
  let us := s.now - x.at_
  let c := refill x.c cir us
  let e := refill x.e eir us
  let need := len * 8000
  let put := fun (y : MeterRt) => s.modEth (fun r => { r with meters := r.meters.set m y })
  if cir = 0 ∧ eir = 0 then (put ⟨c, e, s.now⟩, .red)
  else if c + need ≤ (s.shReg (R.ETHS_FM_CBS m)).toNat * 8000 then (put ⟨c + need, e, s.now⟩, .green)
  else if e + need ≤ (s.shReg (R.ETHS_FM_EBS m)).toNat * 8000 then (put ⟨c, e + need, s.now⟩, .yellow)
  else (put ⟨c, e, s.now⟩, .red)

/-- What a frame's filter decides. -/
structure Filtered where
  st : State
  drop : Bool
  cls : Option Nat
  ctrl : Bool
  dei : Bool

/-- A frame passes the filters of its ingress port (R439). -/
def State.filterFrame (s : State) (f : EthFrame) : Filtered :=
  match (s.streamId f).bind s.filterOf with
  | none => ⟨s, false, none, false, false⟩
  | some k =>
    let w := s.shReg (R.ETHS_SF_W0 k)
    let cls := if getF w F.ETHS_SF_W0_CLS_EN = 1 then some (getF w F.ETHS_SF_W0_CLS) else none
    let ctrl := getF w F.ETHS_SF_W0_CTRL == 1
    if s.shBit (R.ETHS_SF_W2 k) F.ETHS_SF_W2_BLOCKED then ⟨s, true, cls, ctrl, false⟩
    else if s.shFld (R.ETHS_SF_W1 k) F.ETHS_SF_W1_MAX_SDU < f.len then
      ⟨if getF w F.ETHS_SF_W0_BLOCK_OVERSIZE = 1 then s.setShBit (R.ETHS_SF_W2 k) F.ETHS_SF_W2_BLOCKED true else s,
       true, cls, ctrl, false⟩
    else if getF w F.ETHS_SF_W0_METER_EN = 1 then
      let m := s.meterMark (getF w F.ETHS_SF_W0_METER) f.len
      ⟨m.1, m.2 == .red, cls, ctrl, m.2 == .yellow⟩
    else ⟨s, false, cls, ctrl, false⟩

/-- Class of a frame (R429): only control frames enter TC7. -/
def State.classOf (s : State) (f : EthFrame) (cls : Option Nat) (ctrl : Bool) : Nat :=
  let session := f.udp == some (s.fld .E R.SCSM_CFG F.SCSM_CFG_UDP_PORT)
  let ring := f.udp == some (s.shFld R.NMS_CFG F.NMS_CFG_RING_UDP)
  if ctrl || session || ring then 7 else min 6 (cls.getD f.pcp)

/-! ### Vector recovery (R440, R441) -/

/-- Verdict on a sequence number: taken, a copy of one taken, or outside the history. -/
inductive Taken where
  | first
  | copy
  | rogue
  deriving DecidableEq, Repr

def Recovery.take (r : Recovery) (seq : Nat) : Recovery × Taken :=
  match r.hi with
  | none => (⟨some seq, 1⟩, .first)
  | some h =>
    let up := (seq + 65536 - h) % 65536
    let down := (h + 65536 - seq) % 65536
    if up = 0 then (r, .copy)
    else if up < 32 then (⟨some seq, (r.seen * 2 ^ up + 1) % 2 ^ 32⟩, .first)
    else if down < 32 then
      (if r.seen.testBit down then (r, .copy) else (⟨some h, setBit r.seen down⟩, .first))
    else (r, .rogue)

def recOf (xs : List (Nat × Recovery)) (k : Nat) : Recovery :=
  match xs.find? (fun p => p.1 == k) with
  | some p => p.2
  | none => ⟨none, 0⟩

/-- The compound stream of a frame. -/
def State.compound (s : State) (f : EthFrame) : Option Nat :=
  (s.streamId f).bind (fun sid => (List.range 128).find? (fun k =>
    let w := s.shReg (R.ETHS_FR_CFG k)
    getF w F.ETHS_FR_CFG_SID == sid && (getF w F.ETHS_FR_CFG_REPLICATE == 1 || getF w F.ETHS_FR_CFG_ELIMINATE == 1)))

/-! ### Outcomes (Table 14.6) and cells -/

def eLINK_DOWN : Nat := 0x0701
def eFILTERED : Nat := 0x0702
def eETH_LATE : Nat := 0x0703
def eNO_ROUTE : Nat := 0x0704
def eNO_SA : Nat := 0x0705

def State.ethEnds (s : State) (lsn pdu : Option Nat) (disp err : Nat) : State :=
  let s := s.disposeOpt lsn disp err
  match pdu with
  | some i => s.pduFail i
  | none => s

def cellsOf (len : Nat) : Nat := (len + 255) / 256

def sumN (xs : List Nat) : Nat := xs.foldl (fun (a b : Nat) => a + b) 0

def State.poolUsed (s : State) (p : Nat) : Nat := sumN ((s.eth.bufs.filter (fun b => b.pool == p)).map EthBuf.cells)

def State.syncCells (s : State) : State :=
  s.setShFld R.ETHS_STATUS F.ETHS_STATUS_FREE_CELLS (16384 - sumN (s.eth.bufs.map EthBuf.cells))

/-- Cells of the shared pool that one egress queue of a class holds. -/
def State.queueCells (s : State) (port cls : Nat) : Nat :=
  sumN ((s.eth.bufs.filter (fun b => b.pool == 0 && b.cls == cls && b.ports.testBit port)).map EthBuf.cells)

def State.dropBuf (s : State) (id : Nat) : State :=
  (s.modEth (fun e => { e with bufs := e.bufs.filter (fun b => b.id != id) })).syncCells

def State.putBuf (s : State) (b : EthBuf) : State :=
  s.modEth (fun e => { e with bufs := e.bufs.map (fun x => if x.id = b.id then b else x) })

/-- The lane of an internal port. -/
def ilLane (p : Nat) : Lane := if p = 15 then .W else .E

/-- A port can carry the frame now or after its cove has woken (R445, R502). -/
def State.ethUsable (s : State) (p : Nat) : Bool :=
  if 14 ≤ p then s.takesFrames (ilLane p)
  else (s.ethStat p F.ETHS_P_STAT_LINK && !s.ethStat p F.ETHS_P_STAT_PHY_FAULT) || s.portAsleep (24 + p)

/-- A frame that no usable egress port waits for any more reaches its outcome and frees its cells (R445). -/
def State.resolve (s : State) (id : Nat) : State :=
  match s.eth.bufs.find? (fun b => b.id == id) with
  | none => s
  | some b =>
    if (maskBits 16 b.ports).any s.ethUsable then s
    else
      let s := s.dropBuf id
      if b.sent != 0 then s.doneOpt b.lsn
      else if (maskBits 14 b.ports).all (fun p => s.ethStat p F.ETHS_P_STAT_PHY_FAULT) then
        s.ethEnds b.lsn b.pdu dUNDELIVERABLE ePORT_PHY
      else s.ethEnds b.lsn b.pdu dFAILED eLINK_DOWN

def State.resolveAll (s : State) : State := s.forEach (s.eth.bufs.map EthBuf.id) State.resolve

/-! ### Forwarding (R429, R430, R431) -/

/-- Learned port of an address. -/
def State.fdbPort (s : State) (mac vid : Nat) : Option Nat :=
  (s.eth.fdb.find? (fun e => e.mac == mac && e.vid == vid)).map FdbEntry.port

/-- A source address is learned at its port; the database holds 4,096 entries. -/
def State.learn (s : State) (f : EthFrame) (p : Nat) : State :=
  let rest := s.eth.fdb.filter (fun e => !(e.mac == f.src && e.vid == f.vid))
  if f.src / 2 ^ 40 % 2 = 1 then s
  else if rest.length < 4096 then s.modEth (fun e => { e with fdb := ⟨f.src, f.vid, p⟩ :: rest })
  else s

def State.enabledPorts (s : State) : List Nat := (List.range 14).filter (fun p => s.ethPort p F.ETHS_P_CFG_EN == 1)

/-- Egress ports of a frame: its learned port, or every port where the address is a group or not known. A frame for
the lanes goes to both internal ports, and one from a lane to neither. -/
def State.egressPorts (s : State) (f : EthFrame) (p : Nat) : List Nat :=
  let ext := s.enabledPorts.filter (fun q => q != p)
  let group := f.dst / 2 ^ 40 % 2 == 1
  match (if group then none else s.fdbPort f.dst f.vid) with
  | some q =>
    if 14 ≤ q then (if 14 ≤ p then [] else [14, 15])
    else if q = p then [] else ext.filter (· == q)
  | none => ext ++ (if 14 ≤ p then [] else [14, 15])

/-- A frame for one lane's control class fits its rate and burst (R438). -/
def State.ctrlAdmit (s : State) (l : Lane) (len : Nat) : State × Bool :=
  let x := (s.eth.ctrl[l.ix]?).getD (0, 0)
  let lack := x.1 - s.shFld R.ETHS_CTRL F.ETHS_CTRL_CTRL_RATE * (s.now - x.2)
  let ok := decide (lack + 8 * len ≤ 8 * s.shFld R.ETHS_CTRL F.ETHS_CTRL_CTRL_BURST)
  (s.modEth (fun e => { e with ctrl := e.ctrl.set l.ix (if ok then lack + 8 * len else lack, s.now) }), ok)

/-- Pool of a network frame at an egress queue (R431): shared, the control reserve, or none. -/
def State.poolFor (s : State) (port cls cells : Nat) : Option Nat :=
  let qmax := s.shFld (R.ETHS_P_QMAX port) F.ETHS_P_QMAX_Q_MAX
  if s.queueCells port cls < qmax ∧ s.poolUsed 0 + cells ≤ 11264 then some 0
  else if cls = 7 ∧ s.poolUsed 1 + cells ≤ 1024 then some 1
  else none

def State.addBuf (s : State) (f : EthFrame) (pool cls : Nat) (dei : Bool) (ports : Nat) (seq lstream lsn pdu dl : Option Nat) :
    State :=
  let b : EthBuf := { id := s.eth.nextId, frame := f, pool := pool, cells := cellsOf f.len, cls := cls, dei := dei,
                      ports := ports, sent := 0, seq := seq, lstream := lstream, lsn := lsn, pdu := pdu, deadline := dl }
  (s.modEth (fun e => { e with bufs := e.bufs ++ [b], nextId := e.nextId + 1 })).syncCells

/-- Admission of a network frame to its egress queues, each on its own (R430, R431, R438). -/
def State.admitPort (s : State) (f : EthFrame) (cls : Nat) (dei : Bool) (seq : Option Nat) (q : Nat) : State :=
  if 14 ≤ q ∧ s.takesFrames (ilLane q) = false then s.countSh (R.ETHS_P_CNT q 4)
  else
    let a := if 14 ≤ q ∧ cls = 7 then s.ctrlAdmit (ilLane q) f.len else (s, true)
    let s := a.1
    if !a.2 then s.countSh (R.ETHS_P_CNT q 2)
    else
      match s.poolFor q cls (cellsOf f.len) with
      | none => s.countSh (R.ETHS_P_CNT q 2)
      | some pool =>
        if s.ethUsable q then s.addBuf f pool cls dei (2 ^ q) seq none none none none else s

def State.admitAll (s : State) (f : EthFrame) (cls : Nat) (dei : Bool) (seq : Option Nat) (qs : List Nat) : State :=
  qs.foldl (fun s q => s.admitPort f cls dei seq q) s

/-- Number of the next frame of a replicating stream. -/
def State.frNext (s : State) (k : Nat) : State × Nat :=
  let n := match s.eth.frGen.find? (fun p => p.1 == k) with
    | some p => p.2
    | none => 0
  (s.modEth (fun e => { e with frGen := upsert Prod.fst (k, (n + 1) % 65536) e.frGen }), n)

/-- An eliminating stream judges a tagged frame from an uplink (R441). -/
def State.frTake (s : State) (k seq p : Nat) : State × Bool :=
  let t := (recOf s.eth.frRec k).take seq
  let s := s.modEth (fun e => { e with frRec := upsert Prod.fst (k, t.1) e.frRec })
  match t.2 with
  | .first => (s.setSh (R.ETHS_FR_LASTSEQ k) (BitVec.ofNat 32 seq), true)
  | .copy => (s.countSh (R.ETHS_FR_DISC k), false)
  | .rogue => ((s.countSh (R.ETHS_FR_ROGUE k)).countSh (R.ETHS_P_CNT p 5), false)

def isMka (f : EthFrame) : Bool := f.etype == 0x888E
def isPtp (f : EthFrame) : Bool := f.etype == 0x88F7

/-- MACsec validation on an uplink (R443). -/
def State.macsecDrops (s : State) (p : Nat) (f : EthFrame) : Bool :=
  decide (p < 2) && s.ethPort p F.ETHS_P_CFG_MACSEC_EN == 1 &&
    (match f.macsec with
     | some ok => !ok
     | none => !(isMka f || (isPtp f && s.ethPort p F.ETHS_P_CFG_PTP_BYPASS == 1)))

/-- A network ring message of the cove's current ring on its ring port. -/
def State.ethRingMsg (s : State) (p : Nat) (f : EthFrame) : Bool :=
  match s.portCove (24 + p) with
  | none => false
  | some c =>
    s.shFld (R.NMS_COVE_CFG0 c) F.NMS_COVE_CFG0_RING_PORT == 24 + p &&
      f.udp == some (s.shFld R.NMS_CFG F.NMS_CFG_RING_UDP) && fieldAt f.data 1 1 == c &&
      fieldAt f.data 2 1 == s.coveRing c

/-- A frame enters the bridge at an external port (R429 to R441). -/
def State.ethIngress (s : State) (p : Nat) (f : EthFrame) : State :=
  let s := s.countSh (R.ETHS_P_CNT p 0)
  let s := s.frameSeen (24 + p) true f.src (s.ethRingMsg p f)
  if s.macsecDrops p f then s.countSh (R.ETHS_P_CNT p 6)
  else
    let r := s.filterFrame f
    let s := r.st
    if r.drop then s.countSh (R.ETHS_P_CNT p 3)
    else
      let s := s.learn f p
      let cls := s.classOf f r.cls r.ctrl
      match s.compound f with
      | none => s.admitAll f cls r.dei none (s.egressPorts f p)
      | some k =>
        let w := s.shReg (R.ETHS_FR_CFG k)
        if getF w F.ETHS_FR_CFG_ELIMINATE = 1 ∧ p < 2 then
          match f.rtag with
          | some q =>
            let t := s.frTake k q p
            if t.2 then t.1.admitAll { f with rtag := none } cls r.dei none (t.1.egressPorts f p) else t.1
          | none => s.admitAll f cls r.dei none (s.egressPorts f p)
        else if getF w F.ETHS_FR_CFG_REPLICATE = 1 then
          let n := s.frNext k
          n.1.admitAll { f with rtag := some n.2 } cls r.dei none [0, 1]
        else s.admitAll f cls r.dei none (s.egressPorts f p)

def execEthFrameIngress (p : Nat) (f : EthFrame) (s : State) : Host.Outcome State Fault Refusal :=
  .next (if decide (p < 14) && s.cmnRuns && s.ethPort p F.ETHS_P_CFG_EN == 1 && s.ethStat p F.ETHS_P_STAT_LINK &&
      decide (f.len ≤ 1522) then s.ethIngress p f else s)

/-! ### Frames from the lanes (R432, R440, R445) -/

def laneSeqOf (xs : List (Nat × Nat)) (k : Nat) : Nat :=
  match xs.find? (fun p => p.1 == k) with
  | some p => p.2
  | none => 0

/-- Frames of a lane stream are numbered by a replicated counter, of which each lane keeps its copy. -/
def State.ethTake (s : State) (l : Lane) (lstream : Nat) : State × Nat :=
  let k := 2 * lstream + l.ix
  let n := laneSeqOf s.eth.laneSeq k
  (s.modEth (fun e => { e with laneSeq := upsert Prod.fst (k, (n + 1) % 65536) e.laneSeq }), n)

/-- Each lane that sends holds its copy until it has credit. -/
def State.ethHand (s : State) (ls : List Lane) (f : EthFrame) (lstream : Nat) (lsn pdu dl : Option Nat) : State :=
  ls.foldl (fun s l =>
    let n := s.ethTake l lstream
    let h := EthHeld.mk l f lstream n.2 lsn pdu dl
    n.1.modEth (fun e => { e with held := e.held ++ [h] })) s

/-- Ports and tag of an accepted lane frame: a replicated compound stream takes its number and both ring ports. -/
def State.laneRoute (s : State) (f : EthFrame) (p : Nat) : State × EthFrame × List Nat :=
  match s.compound f with
  | some k =>
    if s.shBit (R.ETHS_FR_CFG k) F.ETHS_FR_CFG_REPLICATE then
      let n := s.frNext k
      (n.1, { f with rtag := some n.2 }, [0, 1])
    else (s, f, s.egressPorts f p)
  | none => (s, f, s.egressPorts f p)

/-- A frame of the module wakes the coves of its ports (R514); a PDU's frame is the Harbour's to wake for. -/
def State.wakeForPorts (s : State) (ports : List Nat) : State :=
  ports.foldl (fun s q => match s.portCove (24 + q) with
    | some c => if s.coveSt c == vDUSK || s.coveSt c == vASLEEP then s.wakeOrDusk c else s
    | none => s) s

/-- An accepted lane frame is buffered toward its ports. -/
def State.laneAdmit (s : State) (h : EthHeld) (cls : Nat) (dei : Bool) : State :=
  let x := s.laneRoute h.frame (14 + h.lane.ix)
  if x.2.2 = [] then x.1.ethEnds h.lsn h.pdu dFAILED eNO_ROUTE
  else
    let s := if h.pdu.isNone then x.1.wakeForPorts x.2.2 else x.1
    (s.addBuf x.2.1 (2 + h.lane.ix) cls dei (x.2.2.foldl (fun m q => setBit m q) 0) (some h.seq) (some h.lstream)
      h.lsn h.pdu h.deadline).resolve s.eth.nextId

/-- A lane's frame that is the first copy of its number passes the filters. -/
def State.laneFirst (s : State) (h : EthHeld) : State :=
  let r := s.filterFrame h.frame
  if r.drop then (r.st.countSh (R.ETHS_P_CNT (14 + h.lane.ix) 3)).ethEnds h.lsn h.pdu dFAILED eFILTERED
  else r.st.laneAdmit h (r.st.classOf h.frame r.cls r.ctrl) r.dei

/-- A lane's frame has its credit and enters the bridge. -/
def State.laneIngress (s : State) (h : EthHeld) : State :=
  let p := 14 + h.lane.ix
  let s := s.countSh (R.ETHS_P_CNT p 0)
  if isPtp h.frame && s.arb.held != some h.lane then s.countSh (R.ETHS_P_CNT p 4)
  else
    let t := (recOf s.eth.laneRec h.lstream).take h.seq
    let s := s.modEth (fun e => { e with laneRec := upsert Prod.fst (h.lstream, t.1) e.laneRec })
    match t.2 with
    | .copy => s.countSh (R.ETHS_P_CNT p 4)
    | .rogue => s.countSh (R.ETHS_P_CNT p 5)
    | .first => s.laneFirst h

/-- A lane sends its next frame for which its transmit pool has cells (R432). -/
def execLaneFrameSubmit (l : Lane) (s : State) : Host.Outcome State Fault Refusal :=
  .next (match s.eth.held.find? (fun h => h.lane == l) with
    | none => s
    | some h =>
      if !(s.cmnRuns && s.takesFrames l) then s
      else if 2048 < s.poolUsed (2 + l.ix) + cellsOf h.frame.len then s
      else
        let s := s.modEth (fun e => { e with held := e.held.erase h })
        s.laneIngress h)

/-! ### Egress (R443, R445, R452) -/

def State.txSa (s : State) (u : Nat) : Option Sa :=
  let an := s.shFld (R.ETHS_MS_TXSA u) F.ETHS_MS_TXSA_AN
  s.eth.sas.find? (fun a => a.port == u && a.dir == 1 && a.an % 2 == an)

def State.pnLimit (s : State) (u : Nat) : Nat :=
  if s.shBit (R.ETHS_MS_CFG u) F.ETHS_MS_CFG_XPN then 2 ^ 64 else 2 ^ 32

def State.pnWarn (s : State) (u : Nat) : Nat :=
  if s.shBit (R.ETHS_MS_CFG u) F.ETHS_MS_CFG_XPN then 2 ^ 62 else 0xC0000000

/-- A frame is sent without protection: MKA frames, and 802.1AS frames under PTP_BYPASS. -/
def State.unprotected (s : State) (p : Nat) (f : EthFrame) : Bool :=
  decide (2 ≤ p) || s.ethPort p F.ETHS_P_CFG_MACSEC_EN == 0 || isMka f ||
    (isPtp f && s.ethPort p F.ETHS_P_CFG_PTP_BYPASS == 1)

/-- The uplink's transmit channel takes a packet number; none where it has no usable SA (R443). -/
def State.takePn (s : State) (u : Nat) : Option State :=
  match s.txSa u with
  | none => none
  | some a =>
    if s.pnLimit u ≤ a.pn then none
    else
      let s := s.modEth (fun e => { e with sas := e.sas.map (fun x => if x == a then { x with pn := x.pn + 1 } else x) })
      some (if s.pnWarn u ≤ a.pn then s.setEthStat u F.ETHS_P_STAT_PN_WARN true else s)

/-- Time base that stamps an 802.1AS frame (R452): of its domain, or TB0 for a link-delay frame. -/
def State.stampTb (s : State) (f : EthFrame) : Option Nat :=
  let ty := fieldAt f.data 0 1 % 16
  if ty = 2 ∨ ty = 3 ∨ ty = 10 then some 0
  else tbs4.find? (fun n =>
    s.shBit (R.TIME_TB_CFG n) F.TIME_TB_CFG_DOM_EN && s.shFld (R.TIME_TB_CFG n) F.TIME_TB_CFG_DOMAIN == fieldAt f.data 4 1)

/-- The egress stamp of a lane's 802.1AS frame goes to the port's ring (R452). -/
def State.txStamp (s : State) (p : Nat) (b : EthBuf) : State :=
  match s.stampTb b.frame with
  | some n =>
    if p < 10 ∧ isPtp b.frame = true ∧ b.lstream.isSome = true then
      let j := s.shFld (R.TIME_P_TXTS_TAIL p) F.TIME_P_TXTS_TAIL_TAIL
      let t := (s.tb n).t + (s.shReg (R.TIME_P_EGR p)).toNat * 65536
      let ns := t / 2 ^ 32
      let sec := ns / secNs
      let s := s.setRegs .E (R.TIME_P_TXTS p j 0)
        [BitVec.ofNat 32 (b.lstream.getD 0 + b.seq.getD 0 % 65536 * 65536), BitVec.ofNat 32 (ns % secNs),
         BitVec.ofNat 32 sec, BitVec.ofNat 32 (sec / 2 ^ 32 % 65536 + t / 65536 % 65536 * 65536)]
      s.setShFld (R.TIME_P_TXTS_TAIL p) F.TIME_P_TXTS_TAIL_TAIL (j + 1)
    else s
  | none => s

/-- PDUs of a Harbour datagram (R463): none where its lengths overrun it. -/
def udpPdus : Nat → List Byte → Option (List (Nat × List Byte))
  | 0, _ => some []
  | fuel + 1, bs =>
    if bs = [] then some []
    else
      let n := fieldAt bs 4 4
      if bs.length < 8 + n then none
      else (udpPdus fuel (bs.drop (8 + n))).map (fun xs => (fieldAt bs 0 4, slice bs 8 n) :: xs)

/-- A frame reaches a lane: Harbour's datagrams go to its ingress, the engines' datagrams to the engines, and any other
frame to the IOV unit (R463, R542). -/
def State.laneReceive (s : State) (l : Lane) (p : Nat) (f : EthFrame) : State :=
  if f.udp = some (s.fld l R.HARB_CFG F.HARB_CFG_UDP_PORT) then
    match udpPdus (f.data.length + 1) f.data with
    | none => s.count l (R.HARB_CNT 1)
    | some xs => xs.foldl (fun s x =>
        s.harbPush l { mark := false, kind := 2, port := p, id := x.1, data := x.2, stamp := s.stampNow }) s
  else if f.udp = some (s.fld l R.SCSM_CFG F.SCSM_CFG_UDP_PORT) ∨ f.udp = some (s.fld l R.CWY_CFG F.CWY_CFG_UDP_PORT) ∨
      f.udp = some (s.shFld R.NMS_CFG F.NMS_CFG_RING_UDP) then s
  else match l with
    | .E => s.modEth (fun e => { e with rxE := e.rxE ++ [(f, s.stampNow)] })
    | .W => s.modEth (fun e => { e with rxW := e.rxW ++ [(f, s.stampNow)] })

/-- A frame has left a port. -/
def State.ethSent (s : State) (p : Nat) (b : EthBuf) : State :=
  let s := s.countSh (R.ETHS_P_CNT p 1)
  let s := if 14 ≤ p then s.laneReceive (ilLane p) p b.frame else (s.txStamp p b).emit (.ethTx p b.frame.data)
  (s.putBuf { b with ports := clearBit b.ports p, sent := setBit b.sent p }).resolve b.id

/-- A frame gives up a port: its outcome follows where it waits for no other and has left on none. -/
def State.ethGiveUp (s : State) (p : Nat) (b : EthBuf) (err : Nat) : State :=
  let b' := { b with ports := clearBit b.ports p }
  if b'.ports = 0 ∧ b.sent = 0 then (s.dropBuf b.id).ethEnds b.lsn b.pdu dFAILED err
  else (s.putBuf b').resolve b.id

/-- The frame at the head of an egress queue leaves its port (R434, R443, R445). -/
def execEthFrameEgress (p id : Nat) (s : State) : Host.Outcome State Fault Refusal :=
  .next (match s.eth.bufs.find? (fun b => b.id == id && b.ports.testBit p) with
    | none => s
    | some b =>
      let ready := if 14 ≤ p then s.takesFrames (ilLane p)
        else s.ethStat p F.ETHS_P_STAT_LINK && !s.ethStat p F.ETHS_P_STAT_PHY_FAULT
      if !(decide (p < 16) && s.cmnRuns && !s.mod_.frozen && ready && s.ethPort p F.ETHS_P_CFG_EN == 1) then s
      else
        let late := match b.deadline with
          | some d => decide (d < s.now)
          | none => false
        if late then s.ethGiveUp p b eETH_LATE
        else if !s.gateOpen p b.cls then s
        else if s.unprotected p b.frame then s.ethSent p b
        else
          match s.takePn p with
          | some s => s.ethSent p b
          | none => (s.setEthStat p F.ETHS_P_STAT_NO_SA true).ethGiveUp p b eNO_SA)

/-! ### Links, TC10 and timeouts -/

def execEthLinkChange (p : Nat) (up : Bool) (s : State) : Host.Outcome State Fault Refusal :=
  .next (if p < 14 ∧ s.cmn.up = true then
      let s := s.setEthStat p F.ETHS_P_STAT_LINK up
      let s := if up then s.setShFld (R.ETHS_P_STAT p) F.ETHS_P_STAT_TC10 0 else s
      s.resolveAll
    else s)

/-- PHY_FAULT sets; it clears where the self-test of a restarted port passes (R428). -/
def execEthPhyFault (p : Nat) (fault : Bool) (s : State) : Host.Outcome State Fault Refusal :=
  .next (if p < 14 ∧ s.cmn.up = true then
      let tested := s.eth.phyTest.testBit p
      let s := s.modEth (fun e => { e with phyTest := clearBit e.phyTest p })
      if fault then (s.setEthStat p F.ETHS_P_STAT_PHY_FAULT true).resolveAll
      else if tested then s.setEthStat p F.ETHS_P_STAT_PHY_FAULT false
      else s
    else s)

def execFrerResetTimeout (i : Nat) (s : State) : Host.Outcome State Fault Refusal :=
  .next (if i < 128 ∧ s.cmnRuns = true then
      s.modEth (fun e => { e with frRec := e.frRec.filter (fun p => p.1 != i) })
    else s)

/-- A wake is sent on a port: WUP where the link sleeps, WUR where it is up (R456). -/
def State.sendWake (s : State) (p : Nat) : State :=
  let s := s.emit (.wake p)
  if s.shFld (R.ETHS_P_STAT p) F.ETHS_P_STAT_TC10 = 2 then s.setShFld (R.ETHS_P_STAT p) F.ETHS_P_STAT_TC10 3 else s

/-- A TC10 wake on a port: latched, forwarded, and passed to the wake logic (R457). -/
def execEthWake (p : Nat) (s : State) : Host.Outcome State Fault Refusal :=
  .next (if decide (p < 10) && (s.cmn.up || s.mod_.asleep) && s.shBit (R.ETHS_P_WAKE p) F.ETHS_P_WAKE_WAKE_EN then
      let s := s.setShFld R.ETHS_WAKE F.ETHS_WAKE_WOKE (setBit (s.shFld R.ETHS_WAKE F.ETHS_WAKE_WOKE) p)
      let s := s.forEach (maskBits 10 (s.shFld (R.ETHS_P_WAKE p) F.ETHS_P_WAKE_WAKE_FWD)) State.sendWake
      s.portWake (24 + p)
    else s)

/-- A partner asks for sleep: acknowledged only once the port's cove is released, else rejected and counted (R456). -/
def execTc10SleepRequest (p : Nat) (s : State) : Host.Outcome State Fault Refusal :=
  .next (if p < 10 ∧ s.cmnRuns = true then
      match s.portCove (24 + p) with
      | some c =>
        if s.coveSt c = vFINAL ∨ s.coveSt c = vASLEEP then
          (s.setShFld (R.ETHS_P_STAT p) F.ETHS_P_STAT_TC10 2).setEthStat p F.ETHS_P_STAT_LINK false
        else s.countSh (R.ETHS_P_CNT p 7)
      | none => s.countSh (R.ETHS_P_CNT p 7)
    else s)

/-! ### Commands (Tables 14.8 and 14.9) -/

def ethRange (r : Req) : List Nat := (List.range (r.u8 1)).map (· + r.u8 0)

def specEthStatus : CmdSpec :=
  { opcode := 0x0700, accepted := false, lenOk := fun r => r.length == 2, maxResp := 112,
    param := fun _ r => decide (r.u8 0 ≤ 15) && decide (1 ≤ r.u8 1 ∧ r.u8 1 ≤ 7) && decide (r.u8 0 + r.u8 1 ≤ 16),
    answer := fun s r => ((ethRange r).map (fun p =>
      let l := (s.servedBy r.lane).getD r.lane
      wordBytes (s.reg l (R.ETHS_MIR_STAT p)) ++ wordBytes (s.reg l (R.ETHS_MIR_CNT p 0)) ++
        wordBytes (s.reg l (R.ETHS_MIR_CNT p 2)) ++ wordBytes (s.reg l (R.ETHS_MIR_CNT p 3)))).flatten }

def ethPortCells (r : Req) : List RegCell :=
  let p := r.u8 0
  [(R.ETHS_P_CFG p, r.w 4), (R.ETHS_P_CYCLE p, r.w 8), (R.ETHS_P_BASE_NS p, r.w 12), (R.ETHS_P_BASE_SLO p, r.w 16),
   (R.ETHS_P_BASE_SHI p, r.w 20), (R.ETHS_P_QMAX p, r.w 24), (R.ETHS_P_WAKE p, r.w 28)]

def specEthPortConfig : CmdSpec :=
  { opcode := 0x0701, accepted := true, lenOk := fun r => r.length == 32, perm := fun _ r => r.src.isChief,
    param := fun s r => decide (r.u8 0 ≤ 15) && r.u 1 3 == 0 && onlyMask (r.w 4) (ethCfgMask (r.u8 0)) &&
      onlyMask (r.w 8) 0x3FFFFFFF && onlyMask (r.w 12) 0x3FFFFFFF && onlyMask (r.w 20) 0xFFFF &&
      onlyMask (r.w 24) 0xFFFF && onlyMask (r.w 28) 0x103FF && ethPortOk (s.cfgView r (ethPortCells r)) (r.u8 0),
    reachOk := fun s _ => !s.mod_.cmnSafe,
    exec := fun s r lsn => s.commitSharedSplit 13 ethRegion (ethPortCells r) lsn }

/-- The entries of a list with its length in ETHS_Pp_CFG. -/
def gclEntryCells (r : Req) : List RegCell :=
  (List.range (r.u16 2)).map (fun j => (R.ETHS_P_GCL (r.u8 0) j, r.w (4 + 4 * j)))

def specEthGclSet : CmdSpec :=
  { opcode := 0x0702, accepted := true, lenOk := fun r => decide (8 ≤ r.length ∧ r.length ≤ 1028),
    perm := fun _ r => r.src.isChief,
    param := fun _ r => decide (r.u8 0 ≤ 15) && r.u8 1 == 0 && decide (1 ≤ r.u16 2 ∧ r.u16 2 ≤ 256) &&
      r.length == 4 + 4 * r.u16 2 && (gclEntryCells r).all (fun c => getF c.2 F.ETHS_P_GCL_INTERVAL != 0),
    reachOk := fun s _ => !s.mod_.cmnSafe,
    exec := fun s r lsn =>
      let p := r.u8 0
      let ws := gclEntryCells r ++ [s.cfgSet r (R.ETHS_P_CFG p) F.ETHS_P_CFG_GCL_LEN_M1 (r.u16 2 - 1)]
      s.commitShared 13 (32 + p) ws lsn }

def streamCells (r : Req) : List RegCell :=
  let f := r.u16 0
  let i := r.u16 2
  let m := getF (r.w 20) F.ETHS_SF_W0_METER
  [(R.ETHS_SID_W0 i, r.w 4), (R.ETHS_SID_W1 i, r.w 8), (R.ETHS_SID_W2 i, r.w 12),
   (R.ETHS_SF_W0 f, r.w 20), (R.ETHS_SF_W1 f, r.w 24),
   (R.ETHS_FM_CIR m, r.w 36), (R.ETHS_FM_EIR m, r.w 40), (R.ETHS_FM_CBS m, r.w 44), (R.ETHS_FM_EBS m, r.w 48)]

def specEthStreamSet : CmdSpec :=
  { opcode := 0x0703, accepted := true, lenOk := fun r => r.length == 52, perm := fun _ r => r.src.isChief,
    param := fun _ r => decide (r.u16 0 ≤ 255) && decide (r.u16 2 ≤ 511) && onlyMask (r.w 8) 0x0FFFFFFF &&
      onlyMask (r.w 12) 3 && r.w 16 == 0 && onlyMask (r.w 20) 0x7FFF01FF && onlyMask (r.w 24) 0x7FF &&
      r.w 28 == 0 && r.w 32 == 0 && filterOk (r.w 20) (r.w 24) && meterOk (r.w 36) (r.w 40) (r.w 44) (r.w 48),
    reachOk := fun s _ => !s.mod_.cmnSafe,
    exec := fun s r lsn => s.commitSharedSplit 13 ethRegion (streamCells r) lsn }

def specEthFrerSet : CmdSpec :=
  { opcode := 0x0704, accepted := true, lenOk := fun r => r.length == 8, perm := fun _ r => r.src.isChief,
    param := fun _ r => decide (r.u8 0 ≤ 127) && r.u 1 3 == 0 && onlyMask (r.w 4) 0x3FF301FF,
    reachOk := fun s _ => !s.mod_.cmnSafe,
    exec := fun s r lsn => s.commitSharedSplit 13 ethRegion [(R.ETHS_FR_CFG (r.u8 0), r.w 4)] lsn }

def saOf (r : Req) : Sa :=
  { port := r.u8 0, dir := r.u8 1, sc := r.u8 2, an := r.u8 3, key := r.u8 4, sci := r.u 8 8, pn := r.u 16 8,
    ssci := r.u32 24 }

def specEthMacsecSa : CmdSpec :=
  { opcode := 0x0705, accepted := true, lenOk := fun r => r.length == 28, perm := fun _ r => r.src == .smb0,
    param := fun _ r => decide (r.u8 0 ≤ 1) && (r.u8 1 == 1 || r.u8 1 == 2) && decide (r.u8 2 ≤ 7) &&
      decide (r.u8 3 ≤ 3) && r.u 5 3 == 0 && !(r.u8 1 == 1 && decide (1 < r.u8 3)),
    stateOk := fun s r => s.cfgFld r (R.ETHS_P_CFG (r.u8 0)) F.ETHS_P_CFG_MACSEC_EN == 1 &&
      s.bit r.lane (R.LHS_KEY_INFO (r.u8 4)) F.LHS_KEY_INFO_VALID,
    reachOk := fun s _ => !s.mod_.cmnSafe,
    exec := fun s r lsn => s.modEth (fun e => { e with saQ := e.saQ ++ [(saOf r, lsn, false)] }) }

/-- An SA of the holder's record is installed (R444): one of the same channel and number is replaced, and a transmit SA
takes over. -/
def State.installSa (s : State) (a : Sa) (lsn : Nat) : State :=
  let rest := s.eth.sas.filter (fun x => !(x.port == a.port && x.dir == a.dir && x.sc == a.sc && x.an == a.an))
  let s := s.modEth (fun e => { e with sas := rest ++ [a] })
  let s := if a.dir = 1 then
      ((s.setShFld (R.ETHS_MS_TXSA a.port) F.ETHS_MS_TXSA_AN (a.an % 2)).setEthStat a.port F.ETHS_P_STAT_NO_SA
        false).setEthStat a.port F.ETHS_P_STAT_PN_WARN (decide (s.pnWarn a.port ≤ a.pn))
    else s
  s.done lsn

/-- The SAs that the holder's frame carried. -/
def State.takeSas (s : State) : State :=
  let xs := s.eth.saQ.filter (fun x => x.2.2)
  let s := s.modEth (fun e => { e with saQ := e.saQ.filter (fun x => !x.2.2) })
  xs.foldl (fun s x => s.installSa x.1 x.2.1) s

def specEthCtrlClass : CmdSpec :=
  { opcode := 0x0706, accepted := true, lenOk := fun r => r.length == 4, perm := fun _ r => r.src.isChief,
    reachOk := fun s _ => !s.mod_.cmnSafe,
    exec := fun s r lsn => s.commitSharedSplit 13 ethRegion [(R.ETHS_CTRL, r.w 0)] lsn }

def specTc10Wake : CmdSpec :=
  { opcode := 0x0707, accepted := true, lenOk := fun r => r.length == 2, perm := fun _ r => r.src.isChief,
    param := fun _ r => decide (1 ≤ r.u16 0 ∧ r.u16 0 < 1024),
    stateOk := fun s r => (maskBits 10 (r.u16 0)).all (fun p =>
      s.shFld (R.ETHS_P_STAT p) F.ETHS_P_STAT_TC10 == 2 || s.ethStat p F.ETHS_P_STAT_LINK),
    reachOk := fun s _ => !s.mod_.cmnSafe,
    exec := fun s r lsn => s.cmnSend (.tc10Wake (r.u16 0)) (some lsn) }

def State.applyTc10Wake (s : State) (mask : Nat) (lsn : Option Nat) : State :=
  (s.forEach (maskBits 10 mask) State.sendWake).doneOpt lsn

def execEthStatus (r : Req) (s : State) : Host.Outcome State Fault Refusal := runScs specEthStatus r s
def execEthPortConfig (r : Req) (s : State) : Host.Outcome State Fault Refusal := runScs specEthPortConfig r s
def execEthGclSet (r : Req) (s : State) : Host.Outcome State Fault Refusal := runScs specEthGclSet r s
def execEthStreamSet (r : Req) (s : State) : Host.Outcome State Fault Refusal := runScs specEthStreamSet r s
def execEthFrerSet (r : Req) (s : State) : Host.Outcome State Fault Refusal := runScs specEthFrerSet r s
def execEthMacsecSa (r : Req) (s : State) : Host.Outcome State Fault Refusal := runScs specEthMacsecSa r s
def execEthCtrlClass (r : Req) (s : State) : Host.Outcome State Fault Refusal := runScs specEthCtrlClass r s
def execTc10Wake (r : Req) (s : State) : Host.Outcome State Fault Refusal := runScs specTc10Wake r s

end Sys2Proof.Machine
end

