-- ==== Sys2Proof/Machine/Float.lean ====
section
/-! DEFINITION. IEEE 754 binary32 and binary64 as Harbour's routes use them (R467, R468): values, their bits, and
rounding to nearest even. -/

namespace Sys2Proof.Machine

/-- A floating-point value: a magnitude with its sign, an infinity, or a NaN. -/
inductive Fl where
  | nan
  | inf (neg : Bool)
  | fin (neg : Bool) (mag : Frac)
  deriving DecidableEq, Repr

/-- Widths of a format: fraction bits and exponent bits. -/
structure FlFmt where
  frac : Nat
  exp : Nat
  deriving DecidableEq, Repr

def fl32 : FlFmt := ⟨23, 8⟩
def fl64 : FlFmt := ⟨52, 11⟩

def FlFmt.bias (f : FlFmt) : Nat := 2 ^ (f.exp - 1) - 1

/-- Two to an integer power. -/
def pow2 (e : Int) : Frac := if 0 ≤ e then ⟨((2 ^ e.toNat : Nat) : Int), 1⟩ else ⟨1, 2 ^ (-e).toNat⟩

/-- Value of a bit pattern. -/
def Fl.ofBits (f : FlFmt) (b : Nat) : Fl :=
  let m := b % 2 ^ f.frac
  let e := b / 2 ^ f.frac % 2 ^ f.exp
  let neg := b.testBit (f.frac + f.exp)
  if e = 2 ^ f.exp - 1 then (if m = 0 then .inf neg else .nan)
  else if e = 0 then .fin neg ((Frac.ofInt (m : Int)).mul (pow2 (1 - (f.bias : Int) - (f.frac : Int))))
  else .fin neg ((Frac.ofInt ((m + 2 ^ f.frac : Nat) : Int)).mul (pow2 ((e : Int) - (f.bias : Int) - (f.frac : Int))))

/-- Exponent of a positive fraction: the power of two at or below it. -/
def expOf (x : Frac) : Int :=
  let e := (Nat.log2 x.num.natAbs : Int) - (Nat.log2 x.den : Int)
  if Frac.le (pow2 e) x then e else e - 1

/-- Nearest integer of a fraction that is not negative, ties to even. -/
def roundEven (x : Frac) : Nat :=
  let q := x.num.natAbs / x.den
  let r := 2 * (x.num.natAbs % x.den)
  if r < x.den then q else if x.den < r then q + 1 else q + q % 2

/-- Nearest integer of a fraction that is not negative, ties away from zero. -/
def roundAway (x : Frac) : Nat := (2 * x.num.natAbs + x.den) / (2 * x.den)

/-- Quantum of a format at a magnitude. -/
def FlFmt.quantum (f : FlFmt) (x : Frac) : Int := max (expOf x - (f.frac : Int)) (1 - (f.bias : Int) - (f.frac : Int))

/-- Largest finite magnitude of a format. -/
def FlFmt.top (f : FlFmt) : Frac :=
  (Frac.ofInt ((2 ^ (f.frac + 1) - 1 : Nat) : Int)).mul (pow2 ((f.bias : Int) - (f.frac : Int)))

/-- A magnitude rounded to a format, to nearest even; beyond its largest finite value it is an infinity. -/
def Fl.round (f : FlFmt) (neg : Bool) (x : Frac) : Fl :=
  if x.num = 0 then .fin neg .zero
  else
    let q := f.quantum x
    let y := (Frac.ofInt (roundEven (x.mul (pow2 (-q))) : Int)).mul (pow2 q)
    if Frac.lt f.top y then .inf neg else .fin neg y

def Fl.ofInt (i : Int) : Fl := Fl.round fl64 (decide (i < 0)) (Frac.ofInt (i.natAbs : Int))

/-- Product in binary64. -/
def Fl.mul (a b : Fl) : Fl :=
  match a, b with
  | .nan, _ => .nan
  | _, .nan => .nan
  | .inf n, .inf m => .inf (n != m)
  | .inf n, .fin m x => if x.num = 0 then .nan else .inf (n != m)
  | .fin n x, .inf m => if x.num = 0 then .nan else .inf (n != m)
  | .fin n x, .fin m y => Fl.round fl64 (n != m) (x.mul y)

/-- Quotient by a positive number, in binary64. -/
def Fl.divN (a : Fl) (d : Nat) : Fl :=
  match a with
  | .fin n x => Fl.round fl64 n (x.divN d)
  | x => x

/-- A signed fraction. -/
def flFrac (neg : Bool) (x : Frac) : Frac := if neg then x.neg else x

/-- Sum in binary64. An exact zero sum of unlike signs is positive. -/
def Fl.add (a b : Fl) : Fl :=
  match a, b with
  | .nan, _ => .nan
  | _, .nan => .nan
  | .inf n, .inf m => if n = m then .inf n else .nan
  | .inf n, _ => .inf n
  | _, .inf m => .inf m
  | .fin n x, .fin m y =>
    let z := (flFrac n x).add (flFrac m y)
    if z.num = 0 then .fin (n && m) .zero else Fl.round fl64 (decide (z.num < 0)) z.abs

/-- Bits of a finite value that the format holds exactly, of an infinity, of no NaN (that is a free value). -/
def Fl.toBits (f : FlFmt) (a : Fl) : Nat :=
  match a with
  | .nan => 0
  | .inf n => b2n n * 2 ^ (f.frac + f.exp) + (2 ^ f.exp - 1) * 2 ^ f.frac
  | .fin n x =>
    let s := b2n n * 2 ^ (f.frac + f.exp)
    if x.num = 0 then s
    else
      let q := f.quantum x
      let m := roundEven (x.mul (pow2 (-q)))
      if m < 2 ^ f.frac then s + m
      else s + ((q + (f.bias : Int) + (f.frac : Int)).toNat) * 2 ^ f.frac + (m - 2 ^ f.frac)

/-- A value in a format that saturates at its largest finite magnitude, with whether it saturated (R468). -/
def Fl.saturate (f : FlFmt) (a : Fl) : Fl × Bool :=
  match a with
  | .nan => (.nan, false)
  | .inf n => (.fin n f.top, true)
  | .fin n x =>
    match Fl.round f n x with
    | .inf n => (.fin n f.top, true)
    | y => (y, false)

end Sys2Proof.Machine
end

