-- ==== Sys2Proof/Machine/Harbour.lean ====
section
/-! DEFINITION. Harbour (spec/15): PDU and route definitions and their checks, images, the transform of a route, batches,
timeouts, sends and held images, the 0x080x commands. -/

namespace Sys2Proof.Machine

/-! ### Definitions -/

def pf0 (g : Nat → Word) (i : Nat) (f : Fld) : Nat := getF (g (R.HARB_PDU_W0 i)) f
def pf2 (g : Nat → Word) (i : Nat) (f : Fld) : Nat := getF (g (R.HARB_PDU_W2 i)) f

def pduOn (g : Nat → Word) (i : Nat) : Bool := pf0 g i F.HARB_PDU_W0_EN == 1
def pduTx (g : Nat → Word) (i : Nat) : Bool := pf0 g i F.HARB_PDU_W0_DIR == 1
def pduKind (g : Nat → Word) (i : Nat) : Nat := pf0 g i F.HARB_PDU_W0_KIND
def pduLen (g : Nat → Word) (i : Nat) : Nat := pf0 g i F.HARB_PDU_W0_LEN
def pduOfs (g : Nat → Word) (i : Nat) : Nat := getF (g (R.HARB_PDU_W3 i)) F.HARB_PDU_W3_IMG_OFS
def pduFirst (g : Nat → Word) (i : Nat) : Nat := getF (g (R.HARB_PDU_W4 i)) F.HARB_PDU_W4_FIRST_ROUTE
def pduRoutes (g : Nat → Word) (i : Nat) : Nat := getF (g (R.HARB_PDU_W4 i)) F.HARB_PDU_W4_ROUTE_COUNT
def pduId (g : Nat → Word) (i : Nat) : Nat := (g (R.HARB_PDU_W1 i)).toNat

/-- Identity by which a received PDU matches (Table 15.1, R464): kind, port and identifier; a UDP PDU matches by its ID
on any port. -/
def pduKey (g : Nat → Word) (i : Nat) : Nat × Nat × Nat :=
  match pduKind g i with
  | 0 => (0, pf0 g i F.HARB_PDU_W0_PORT, pduId g i % 2 ^ 30)
  | 1 => (1, pf0 g i F.HARB_PDU_W0_PORT, pduId g i % 64)
  | _ => (2, 0, pduId g i)

/-- A definition keeps to Table 15.1 and to R475; `linLen` gives the length of a LIN port's frame entry. -/
def pduOk (g : Nat → Word) (linLen : Nat → Nat → Nat) (i : Nat) : Bool :=
  let port := pf0 g i F.HARB_PDU_W0_PORT
  let id := pduId g i
  let len := pduLen g i
  let fmt := pf2 g i F.HARB_PDU_W2_FORMAT
  let carrier := match pduKind g i with
    | 0 => decide (port < 16) && canLenOk fmt len && decide (id < 2 ^ 30) && (id.testBit 29 || decide (id < 2048)) &&
        !(id.testBit 29 && fmt == 2)
    | 1 => decide (port < 8) && decide (id < 64) && decide (1 ≤ len ∧ len ≤ 8) && len == linLen port id
    | 2 => decide (1 ≤ len ∧ len ≤ 1400)
    | _ => false
  carrier && pf0 g i F.HARB_PDU_W0_COVE_ACT != 3 && decide (pduOfs g i + len ≤ 262144) &&
    decide (pduFirst g i + pduRoutes g i ≤ 16384)

/-- Two images share a byte (R465). -/
def pduOverlap (g : Nat → Word) (i j : Nat) : Bool :=
  decide (pduOfs g i < pduOfs g j + pduLen g j ∧ pduOfs g j < pduOfs g i + pduLen g i)

/-- Two definitions in use that cannot both stand (R464, R465). -/
def pduClash (g : Nat → Word) (i j : Nat) : Bool :=
  i != j && pduOn g j && (pduOverlap g i j || (!pduTx g i && !pduTx g j && pduKey g i == pduKey g j))

/-! ### Fields (R466) -/

/-- Payload bits of a field, least significant first. -/
def fieldBits (be : Bool) (start len : Nat) : List Nat :=
  if be then
    let next := fun b => if b % 8 = 0 then b + 15 else b - 1
    (Nat.rec (motive := fun _ => Nat → List Nat) (fun _ => []) (fun _ ih b => b :: ih (next b)) len start).reverse
  else (List.range len).map (· + start)

def rt0 (g : Nat → Word) (r : Nat) (f : Fld) : Nat := getF (g (R.HARB_RT_W0 r)) f
def rt2 (g : Nat → Word) (r : Nat) (f : Fld) : Nat := getF (g (R.HARB_RT_W2 r)) f

def rtOn (g : Nat → Word) (r : Nat) : Bool := rt0 g r F.HARB_RT_W0_EN == 1
def rtSrc (g : Nat → Word) (r : Nat) : Nat := getF (g (R.HARB_RT_W1 r)) F.HARB_RT_W1_SRC_PDU
def rtDst (g : Nat → Word) (r : Nat) : Nat := getF (g (R.HARB_RT_W1 r)) F.HARB_RT_W1_DST_PDU
def rtSrcLen (g : Nat → Word) (r : Nat) : Nat := rt0 g r F.HARB_RT_W0_SRC_LEN
def rtDstLen (g : Nat → Word) (r : Nat) : Nat := rt2 g r F.HARB_RT_W2_DST_LEN
def rtSrcBits (g : Nat → Word) (r : Nat) : List Nat :=
  fieldBits (rt0 g r F.HARB_RT_W0_SRC_BE == 1) (rt0 g r F.HARB_RT_W0_SRC_START) (rtSrcLen g r)
def rtDstBits (g : Nat → Word) (r : Nat) : List Nat :=
  fieldBits (rt0 g r F.HARB_RT_W0_DST_BE == 1) (rt2 g r F.HARB_RT_W2_DST_START) (rtDstLen g r)
def rtVbit (g : Nat → Word) (r : Nat) : Option Nat :=
  if rt2 g r F.HARB_RT_W2_VBIT_EN = 1 then some (getF (g (R.HARB_RT_W7 r)) F.HARB_RT_W7_VBIT_POS) else none
def rtWide (g : Nat → Word) (a : Nat) : Nat := (g a).toNat + (g (a + 4)).toNat * 2 ^ 32
def rtTimeout (g : Nat → Word) (r : Nat) : Nat := getF (g (R.HARB_RT_W7 r)) F.HARB_RT_W7_TIMEOUT
def rtDen (g : Nat → Word) (r : Nat) : Nat := (g (R.HARB_RT_W4 r)).toNat
def rtNum (g : Nat → Word) (r : Nat) : Int := sext 32 (g (R.HARB_RT_W3 r)).toNat
def rtOffset (g : Nat → Word) (r : Nat) : Int := sext 64 (rtWide g (R.HARB_RT_OFFSET r 0))

def typeOk (ty len : Nat) : Bool :=
  decide (1 ≤ len ∧ len ≤ 64) && (ty != 2 || len == 32) && (ty != 3 || len == 64)

/-- A route keeps to R466 to R470 and R475. -/
def routeOk (g : Nat → Word) (r : Nat) : Bool :=
  let src := rtSrc g r
  let dst := rtDst g r
  typeOk (rt0 g r F.HARB_RT_W0_SRC_TYPE) (rtSrcLen g r) && typeOk (rt0 g r F.HARB_RT_W0_DST_TYPE) (rtDstLen g r) &&
    pduOn g src && !pduTx g src && pduOn g dst && pduTx g dst &&
    (rtSrcBits g r).all (fun b => decide (b < 8 * pduLen g src)) &&
    (rtDstBits g r).all (fun b => decide (b < 8 * pduLen g dst)) &&
    (match rtVbit g r with
      | some b => decide (b < 8 * pduLen g dst)
      | none => true) &&
    rtDen g r != 0 && !(rt2 g r F.HARB_RT_W2_TO_EN == 1 && rtTimeout g r == 0) &&
    rt0 g r F.HARB_RT_W0_COVE_ACT != 3

/-! ### Commit (R478) -/

def State.linLen (s : State) (p id : Nat) : Nat := s.shFld (R.LIN_FR_CFG p id) F.LIN_FR_CFG_LEN

def pdusOn (g : Nat → Word) : List Nat := (List.range 4096).filter (pduOn g)
def routesOn (g : Nat → Word) : List Nat := (List.range 16384).filter (rtOn g)

/-- The first failing entry of a set: a PDU, or a route (R478). -/
def harbFault (g : Nat → Word) (linLen : Nat → Nat → Nat) : Option (Bool × Nat) :=
  let ps := pdusOn g
  match ps.find? (fun i => !pduOk g linLen i || ps.any (pduClash g i)) with
  | some i => some (false, i)
  | none =>
    match (routesOn g).find? (fun r => !routeOk g r) with
    | some r => some (true, r)
    | none => none

def chkHarb (s : State) (c : Commit) : Bool :=
  getF (s.after c R.HARB_CFG) F.HARB_CFG_UDP_PORT != 0 && (harbFault (s.after c) s.linLen).isNone

def State.harb (s : State) : Lane → HarbRt
  | .E => s.harbE
  | .W => s.harbW

def State.setHarb (s : State) (l : Lane) (x : HarbRt) : State :=
  match l with
  | .E => { s with harbE := x }
  | .W => { s with harbW := x }

def State.pduRt (s : State) (l : Lane) (i : Nat) : PduRt :=
  ((s.harb l).pdus.find? (fun x => x.ix == i)).getD ⟨i, none, false, [], none, none, 0⟩

def State.setPdu (s : State) (l : Lane) (x : PduRt) : State :=
  let h := s.harb l
  s.setHarb l { h with pdus := upsert PduRt.ix x h.pdus }

/-- A route is not valid until a first arrival has made it so. -/
def State.routeRt (s : State) (l : Lane) (r : Nat) : RouteRt :=
  ((s.harb l).routes.find? (fun x => x.ix == r)).getD ⟨r, false, false, 0, 0⟩

def State.setRoute (s : State) (l : Lane) (x : RouteRt) : State :=
  let h := s.harb l
  s.setHarb l { h with routes := upsert RouteRt.ix x h.routes }

/-- Image of a PDU (R465). -/
def State.imgByte (s : State) (l : Lane) (a : Nat) : Byte := memGet (s.harb l).ram a
def State.setImgByte (s : State) (l : Lane) (a : Nat) (v : Byte) : State :=
  let h := s.harb l
  s.setHarb l { h with ram := memPut h.ram a v }
def State.img (s : State) (l : Lane) (a n : Nat) : List Byte := (List.range n).map (fun k => s.imgByte l (a + k))
def State.setImg (s : State) (l : Lane) (a : Nat) : List Byte → State
  | [] => s
  | b :: bs => (s.setImgByte l a b).setImg l (a + 1) bs

/-- An image that a commit creates: of a PDU newly in use, or moved, or of another length. -/
def imgNew (old new_ : Nat → Word) (i : Nat) : Bool :=
  pduOn new_ i && (!pduOn old i || pduOfs old i != pduOfs new_ i || pduLen old i != pduLen new_ i)

/-- A Harbour commit of a lane applies at a cycle boundary (R478). -/
def State.applyHarb (s : State) (c : Commit) : State :=
  let l := c.lane
  let old := s.reg l
  let new_ := s.after c
  let s' := s.applyCommit (chkHarb s c) R.HARB_STATUS F.HARB_STATUS_CFG_INCONSISTENT eCFG_REJECTED c
  if chkHarb s c then
    ((pdusOn new_).filter (imgNew old new_)).foldl
      (fun s i => s.setImg l (pduOfs new_ i) (List.replicate (pduLen new_ i) 0)) s'
  else match harbFault new_ s.linLen with
    | some (isRoute, i) =>
      (s'.setFld l R.HARB_STATUS F.HARB_STATUS_ERR_IDX i).setBitF l R.HARB_STATUS F.HARB_STATUS_ERR_ROUTE isRoute
    | none => s'

/-! ### The transform (R467 to R469) -/

def bitOf (bs : List Byte) (b : Nat) : Bool := ((bs[b / 8]?).getD 0).toNat.testBit (b % 8)

/-- Number that a field holds. -/
def rawOf (bs : List Byte) : List Nat → Nat
  | [] => 0
  | b :: ks => b2n (bitOf bs b) + 2 * rawOf bs ks

/-- A result of a destination type: its raw bits, and whether it saturated. -/
def intToRaw (signed : Bool) (len : Nat) (x : Int) : Nat × Bool :=
  let lo : Int := if signed then -((2 ^ (len - 1) : Nat) : Int) else 0
  let hi : Int := if signed then ((2 ^ (len - 1) : Nat) : Int) - 1 else ((2 ^ len : Nat) : Int) - 1
  let y := max lo (min x hi)
  (uext len y, y != x)

def signedRound (neg : Bool) (m : Nat) : Int := if neg then -(m : Int) else (m : Int)

/-- Both types integer. -/
def intRoute (x num off : Int) (den : Nat) : Int :=
  let p := x * num
  signedRound (decide (p < 0)) ((2 * p.natAbs + den) / (2 * den)) + off

/-- Result of a computation in binary64 in its destination type; `free` stands for the bits of a NaN. -/
def flToRaw (ty len : Nat) (free : Nat) (a : Fl) : Nat × Bool :=
  match ty, a with
  | _, .nan => (free % 2 ^ len, false)
  | 2, a => let y := Fl.saturate fl32 a; (Fl.toBits fl32 y.1, y.2)
  | 3, a => let y := Fl.saturate fl64 a; (Fl.toBits fl64 y.1, y.2)
  | _, .inf n => ((intToRaw (ty == 1) len (signedRound n (2 ^ 64))).1, true)
  | _, .fin n m => intToRaw (ty == 1) len (signedRound n (roundAway m))

/-- Value of a source field as a floating-point number. -/
def srcFl (ty len raw : Nat) : Fl :=
  match ty with
  | 0 => Fl.ofInt (raw : Int)
  | 1 => Fl.ofInt (sext len raw)
  | 2 => Fl.ofBits fl32 raw
  | _ => Fl.ofBits fl64 raw

def flRoute (x : Fl) (num off : Int) (den : Nat) : Fl := ((x.mul (Fl.ofInt num)).divN den).add (Fl.ofInt off)

/-- Raw bits of a valid signal's result, and whether it saturated. -/
def routeOut (g : Nat → Word) (r raw free : Nat) : Nat × Bool :=
  let st := rt0 g r F.HARB_RT_W0_SRC_TYPE
  let dt := rt0 g r F.HARB_RT_W0_DST_TYPE
  let n := rtDstLen g r
  if st < 2 ∧ dt < 2 then
    let x : Int := if st = 1 then sext (rtSrcLen g r) raw else (raw : Int)
    intToRaw (dt == 1) n (intRoute x (rtNum g r) (rtOffset g r) (rtDen g r))
  else flToRaw dt n free (flRoute (srcFl st (rtSrcLen g r) raw) (rtNum g r) (rtOffset g r) (rtDen g r))

/-- A float signal is a NaN. -/
def isNan (ty raw : Nat) : Bool :=
  (ty == 2 && Fl.ofBits fl32 raw == .nan) || (ty == 3 && Fl.ofBits fl64 raw == .nan)

/-- A received signal is valid (R469): the reception of `n` bytes reached its last bit. -/
def sigValid (g : Nat → Word) (r raw n : Nat) : Bool :=
  (rtSrcBits g r).all (fun b => decide (b < 8 * n)) &&
    !(rt2 g r F.HARB_RT_W2_INV_EN == 1 && raw == rtWide g (R.HARB_RT_INVALID_RAW r 0) % 2 ^ rtSrcLen g r) &&
    !isNan (rt0 g r F.HARB_RT_W0_SRC_TYPE) raw

/-- Bits that a route writes, as payload bit and value. -/
def bitsOut (g : Nat → Word) (r : Nat) (valid : Bool) (raw : Nat) : List (Nat × Bool) :=
  let body := if valid || rt0 g r F.HARB_RT_W0_SUBST == 1 then
      (rtDstBits g r).zipIdx.map (fun p => (p.1, raw.testBit p.2)) else []
  match rtVbit g r with
  | some b => body ++ [(b, valid)]
  | none => body

/-! ### Batches (R471, R472) -/

/-- What a batch has done so far: for each PDU changed, what its send does toward a sleeping cove and the routes that
changed it. -/
abbrev Changes := List (Nat × Nat × List Nat)

/-- WAKE before HOLD, HOLD before DROP (R475). -/
def actMax (a b : Nat) : Nat := if a = 2 ∨ b = 2 then 2 else if a = 0 ∨ b = 0 then 0 else 1

def Changes.note (c : Changes) (dst act r : Nat) : Changes :=
  match c.find? (fun x => x.1 == dst) with
  | some x => upsert Prod.fst (dst, actMax x.2.1 act, x.2.2 ++ [r]) c
  | none => c ++ [(dst, act, [r])]

/-- Writes one bit of an image. -/
def State.setImgBit (s : State) (l : Lane) (a b : Nat) (v : Bool) : State :=
  let x := (s.imgByte l (a + b / 8)).toNat
  s.setImgByte l (a + b / 8) (BitVec.ofNat 8 (if v then setBit x (b % 8) else clearBit x (b % 8)))

/-- A route writes its bits, and the batch notes whether that changed the destination (R472). -/
def State.routeWrite (s : State) (l : Lane) (r : Nat) (bits : List (Nat × Bool)) (c : Changes) : State × Changes :=
  let g := s.reg l
  let dst := rtDst g r
  let a := pduOfs g dst
  let now := s.img l a (pduLen g dst)
  let differs := bits.any (fun p => bitOf now p.1 != p.2)
  let s := bits.foldl (fun s p => s.setImgBit l a p.1 p.2) s
  if bits != [] && (rt0 g r F.HARB_RT_W0_CHG_ONLY == 0 || differs) then
    (s, c.note dst (rt0 g r F.HARB_RT_W0_COVE_ACT) r)
  else (s, c)

/-- A route acts for an invalid signal (R469). -/
def State.routeInvalid (s : State) (l : Lane) (r : Nat) (c : Changes) : State × Changes :=
  s.routeWrite l r (bitsOut (s.reg l) r false (rtWide (s.reg l) (R.HARB_RT_SUBST_VALUE r 0))) c

/-- A route is evaluated for a reception of `n` bytes of its source. -/
def State.routeEval (s : State) (l : Lane) (n r : Nat) (c : Changes) : State × Changes :=
  let g := s.reg l
  let src := rtSrc g r
  let raw := rawOf (s.img l (pduOfs g src) (pduLen g src)) (rtSrcBits g r)
  let s := s.count l (R.HARB_CNT 2)
  let x := s.routeRt l r
  if sigValid g r raw n then
    let y := routeOut g r raw s.freeNat
    let s := (s.tickFree).setRoute l { x with valid := true, timedOut := false,
                                              sat := if y.2 then satInc 16 x.sat else x.sat }
    let s := if y.2 then s.count l (R.HARB_CNT 3) else s
    s.routeWrite l r (bitsOut g r true y.1) c
  else (s.setRoute l { x with valid := false, timedOut := false }).routeInvalid l r c

/-- A trigger of a transmit PDU fires: a send is pending; one while another is pending or deferred joins it (R473). -/
def State.harbAsk (s : State) (l : Lane) (i : Nat) (a : HarbAsk) : State :=
  let x := s.pduRt l i
  match x.ask with
  | none => s.setPdu l { x with ask := some a }
  | some b =>
    (s.setPdu l { x with ask := some ⟨actMax a.act b.act, b.routes ++ a.routes, b.lsns ++ a.lsns⟩ }).count l
      (R.HARB_CNT 6)

/-- A trigger set in TRIG, by its bit (R472). -/
def trigOn (g : Nat → Word) (i bit : Nat) : Bool :=
  pduOn g i && pduTx g i && (pf0 g i F.HARB_PDU_W0_TRIG).testBit bit

/-- End of a batch: the PDUs that it changed. -/
def State.batchEnd (s : State) (l : Lane) (c : Changes) : State :=
  c.foldl (fun s x => if trigOn (s.reg l) x.1 0 then s.harbAsk l x.1 ⟨x.2.1, x.2.2, []⟩ else s) s

/-- Trigger CYCLIC (1) or REQUEST (2), with the PDU's own COVE_ACT. -/
def State.harbTrigger (s : State) (l : Lane) (i bit : Nat) (lsns : List Nat) : State :=
  if trigOn (s.reg l) i bit then s.harbAsk l i ⟨pf0 (s.reg l) i F.HARB_PDU_W0_COVE_ACT, [], lsns⟩ else s

/-- Harbour of a lane works. -/
def State.harbRuns (s : State) (l : Lane) : Bool :=
  s.forwards l && !(s.lane l).blocksInReset.contains 2 && s.blockOn l 15 && !s.mod_.frozen

def State.harbIn (s : State) : Lane → List HarbIn
  | .E => s.harbInE
  | .W => s.harbInW

def State.setHarbIn (s : State) (l : Lane) (x : List HarbIn) : State :=
  match l with
  | .E => { s with harbInE := x }
  | .W => { s with harbInW := x }

/-- Key of an arrival. -/
def HarbIn.key (x : HarbIn) : Nat × Nat × Nat := if x.kind = 2 then (2, 0, x.id) else (x.kind, x.port, x.id)

/-- The routes of one arrival are one batch. -/
def State.evalAll (s : State) (l : Lane) (len : Nat) (rs : List Nat) : State × Changes :=
  rs.foldl (fun y r => State.routeEval y.1 l len r y.2) (s, [])

/-- The changes of a batch take their effect at its end. -/
def State.endBatch (l : Lane) (y : State × Changes) : State := y.1.batchEnd l y.2

/-- An arrival is processed: its bytes go into the image and its routes run as one batch (R464, R465, R471). -/
def State.harbArrive (s : State) (l : Lane) (x : HarbIn) : State :=
  let g := s.reg l
  let s := s.count l (R.HARB_CNT 0)
  match (pdusOn g).find? (fun i => !pduTx g i && pduKey g i == x.key) with
  | none => s.count l (R.HARB_CNT 1)
  | some i =>
    let s := s.setImg l (pduOfs g i) (x.data.take (pduLen g i))
    let s := s.setPdu l { s.pduRt l i with arrived := some x.stamp }
    let rs := ((List.range (pduRoutes g i)).map (· + pduFirst g i)).filter (fun r => rtOn g r && rtSrc g r == i)
    State.endBatch l (s.evalAll l x.data.length rs)

/-- The head of a lane's ingress is an arrival: it is processed. -/
def execPduArrival (l : Lane) (s : State) : Host.Outcome State Fault Refusal :=
  .next (match s.harbIn l with
    | x :: xs => if s.harbRuns l && !x.mark then (s.setHarbIn l xs).harbArrive l x else s
    | [] => s)

/-- A route whose source has been silent for its timeout (R470). -/
def State.routeLate (s : State) (l : Lane) (stamp r : Nat) : Bool :=
  rt2 (s.reg l) r F.HARB_RT_W2_TO_EN == 1 && !(s.routeRt l r).timedOut &&
    (match (s.pduRt l (rtSrc (s.reg l) r)).arrived with
      | some a => decide (a + rtTimeout (s.reg l) r * 20000 ≤ stamp)
      | none => false)

def State.routeLapse (s : State) (l : Lane) (r : Nat) (ch : Changes) : State × Changes :=
  ((s.setRoute l { s.routeRt l r with valid := false, timedOut := true }).count l (R.HARB_CNT 4)).routeInvalid l r ch

def State.lapseAll (s : State) (l : Lane) (rs : List Nat) : State × Changes :=
  rs.foldl (fun y r => State.routeLapse y.1 l r y.2) (s, [])

/-- A timer mark times routes out (R470); those of one mark are one batch. -/
def State.harbMark (s : State) (l : Lane) (stamp : Nat) : State :=
  State.endBatch l (s.lapseAll l ((routesOn (s.reg l)).filter (s.routeLate l stamp)))

/-- The arrivals ahead of a mark in a lane's ingress are processed first, in order. -/
def State.harbDrain (s : State) (l : Lane) : State :=
  let xs := s.harbIn l
  xs.foldl (fun s x => s.harbArrive l x) (s.setHarbIn l [])

def execTimerMark (l : Lane) (stamp : Nat) (s : State) : Host.Outcome State Fault Refusal :=
  .next (if s.harbRuns l && s.cmnRuns then (s.harbDrain l).harbMark l stamp else s)

/-! ### Sends (R473 to R476) -/

def dDROPPED : Nat := 0x0801

/-- IPv6 address of an endpoint as a number, most significant byte first. -/
def epAddr (g : Nat → Word) (e : Nat) : Nat :=
  (List.range 4).foldl (fun (n w : Nat) => n * 2 ^ 32 + leNat (wordBytes (g (R.HARB_EP_ADDR e w))).reverse) 0

/-- The datagram of a PDU (R463). -/
def udpFrame (g : Nat → Word) (i : Nat) (image : List Byte) : EthFrame :=
  let e := pf2 g i F.HARB_PDU_W2_EP
  let w := g (R.HARB_EP_W4 e)
  { dst := Config.macOf (epAddr g e) (getF w F.HARB_EP_W4_VID), src := Config.ownMac, vid := getF w F.HARB_EP_W4_VID,
    pcp := getF w F.HARB_EP_W4_PCP, etype := 0x86DD, rtag := none, udp := some (getF w F.HARB_EP_W4_UDP),
    len := 78 + image.length, data := leBytes 4 (pduId g i) ++ leBytes 4 image.length ++ image, macsec := none }

/-- Transmit header of a CAN PDU (Table 13.4). -/
def canPduHdr (g : Nat → Word) (i : Nat) : List Byte :=
  let fmt := pf2 g i F.HARB_PDU_W2_FORMAT
  let w5 := g (R.HARB_PDU_W5 i)
  let sdt := if fmt = 2 then getF w5 F.HARB_PDU_W5_SDT else 0
  let vcid := if fmt = 2 then getF w5 F.HARB_PDU_W5_VCID else 0
  leBytes 4 (pduId g i % 2 ^ 30) ++ leBytes 4 0 ++ leBytes 2 (pduLen g i) ++
    leBytes 1 (fmt + 4 * pf2 g i F.HARB_PDU_W2_BRS) ++ leBytes 1 sdt ++ leBytes 1 vcid ++
    leBytes 1 (pf0 g i F.HARB_PDU_W0_PORT) ++ leBytes 2 0

/-- Ports that a PDU goes to, as the port map numbers them (Table 16.1). -/
def State.pduPorts (s : State) (l : Lane) (i : Nat) : List Nat :=
  let g := s.reg l
  match pduKind g i with
  | 0 => [pf0 g i F.HARB_PDU_W0_PORT]
  | 1 => [16 + pf0 g i F.HARB_PDU_W0_PORT]
  | _ => (s.egressPorts (udpFrame g i []) (14 + l.ix)).map (· + 24)

/-- The cove of a PDU's port is asleep; of a datagram that leaves on several ports, every one's. -/
def State.pduAsleep (s : State) (l : Lane) (i : Nat) : Bool :=
  let ps := s.pduPorts l i
  ps != [] && ps.all s.portAsleep

/-- Whether this lane sends the PDU (R474): UDP from both lanes, CAN, LIN and HOLDER_ONLY from the lease holder. -/
def State.pduSends (s : State) (l : Lane) (i : Nat) : Bool :=
  (pduKind (s.reg l) i == 2 && pf0 (s.reg l) i F.HARB_PDU_W0_HOLDER_ONLY == 0) || s.leaseValid l

/-- An image goes to its port or its LIN entry. -/
def State.pduHand (s : State) (l : Lane) (i : Nat) (image : List Byte) : State :=
  let g := s.reg l
  let port := pf0 g i F.HARB_PDU_W0_PORT
  match pduKind g i with
  | 0 => if s.canPhy port then s.pduFail i else s.canHand port (canPduHdr g i) image none (some i) none
  | 1 =>
    let a := R.LIN_FR_CFG port (pduId g i % 64)
    if s.shBit a F.LIN_FR_CFG_EN && s.shFld a F.LIN_FR_CFG_DIR == 1 then
      s.setRegs .E (R.LIN_FR_DATA port (pduId g i % 64) 0) (bytesToWords 2 image)
    else s.pduFail i
  | _ => s.ethHand [l] (udpFrame g i image) (getF (g (R.HARB_EP_W5 (pf2 g i F.HARB_PDU_W2_EP))) F.HARB_EP_W5_LSTREAM)
      none (some i) none

/-- Entries of HARB_PDU_SEND end where the holder's Harbour ends their send. -/
def State.askEnd (s : State) (l : Lane) (lsns : List Nat) (disp err : Nat) : State :=
  if s.holderOr l = l then s.disposeAll lsns disp err else s

/-- How a send ends for the entries of HARB_PDU_SEND (R499): a port with PHY_FAULT takes nothing (R416); for a LIN PDU
whose entry is not published the spec states no error, which is a free value. -/
def State.sendEnd (s : State) (l : Lane) (i : Nat) (lsns : List Nat) : State :=
  let g := s.reg l
  let port := pf0 g i F.HARB_PDU_W0_PORT
  let a := R.LIN_FR_CFG port (pduId g i % 64)
  if pduKind g i = 0 ∧ s.canPhy port = true then s.askEnd l lsns dUNDELIVERABLE ePORT_PHY
  else if pduKind g i = 1 ∧ !(s.shBit a F.LIN_FR_CFG_EN && s.shFld a F.LIN_FR_CFG_DIR == 1) = true then
    (s.askEnd l lsns dFAILED (s.freeNat % 65536)).tickFree
  else s.askEnd l lsns dDONE 0

/-- One send of a PDU (R473, R474). A lane that does not send keeps its copy of the count of its lane stream. -/
def State.pduOut (s : State) (l : Lane) (i : Nat) (image : List Byte) (lsns : List Nat) : State :=
  let g := s.reg l
  let s := if s.pduSends l i then (s.pduHand l i image).count l (R.HARB_CNT 5)
    else if pduKind g i = 2 then
      (s.ethTake l (getF (g (R.HARB_EP_W5 (pf2 g i F.HARB_PDU_W2_EP))) F.HARB_EP_W5_LSTREAM)).1
    else s
  (s.setPdu l { s.pduRt l i with sent := some s.now }).sendEnd l i lsns

/-- MIN_GAP of the previous send has not ended (R473). -/
def State.inGap (s : State) (l : Lane) (i : Nat) : Bool :=
  match (s.pduRt l i).sent with
  | some t => decide (s.now < t + pf2 (s.reg l) i F.HARB_PDU_W2_MIN_GAP * 100)
  | none => false

/-- A hold beyond HOLD_DEPTH discards the oldest image (R476). -/
def State.keepOldest (s : State) (l : Lane) (i : Nat) : State :=
  let x := s.pduRt l i
  match x.kept with
  | k :: ks =>
    if pf0 (s.reg l) i F.HARB_PDU_W0_HOLD_DEPTH_M1 + 1 ≤ x.kept.length then
      let s := (s.setPdu l { x with kept := ks, dropped := satInc 32 x.dropped }).count l (R.HARB_CNT 7)
      let s := k.ask.routes.foldl (fun s r =>
        s.setRoute l { s.routeRt l r with holdDrop := satInc 16 (s.routeRt l r).holdDrop }) s
      s.askEnd l k.ask.lsns dFAILED dDROPPED
    else s
  | [] => s

/-- The image is kept for sending (R475, R476). -/
def State.pduKeep (s : State) (l : Lane) (i : Nat) (a : HarbAsk) : State :=
  let s := s.keepOldest l i
  let h := s.harb l
  let im := s.img l (pduOfs (s.reg l) i) (pduLen (s.reg l) i)
  let s := s.setHarb l { h with order := h.order + 1 }
  let x := s.pduRt l i
  s.setPdu l { x with kept := x.kept ++ [⟨h.order, im, a⟩] }

/-- Harbour asks for the wake of the coves of a PDU's ports; the lease holder's request counts. -/
def State.pduWake (s : State) (l : Lane) (i : Nat) : State :=
  if s.leaseValid l then
    (s.pduPorts l i).foldl (fun s q => match s.portCove q with
      | some c => if s.portAsleep q then s.wakeOrDusk c else s
      | none => s) s
  else s

/-- A send toward a sleeping cove (R475). -/
def State.pduToSleep (s : State) (l : Lane) (i : Nat) (a : HarbAsk) : State :=
  match a.act with
  | 1 => (s.count l (R.HARB_CNT 7)).askEnd l a.lsns dFAILED dDROPPED
  | 2 => (s.pduKeep l i a).pduWake l i
  | _ => s.pduKeep l i a

/-- A pending send is taken up: toward a sleeping cove by its COVE_ACT, within MIN_GAP or behind held images later, else
now with the image as it stands. -/
def State.pduSend (s : State) (l : Lane) (i : Nat) : State :=
  let x := s.pduRt l i
  match x.ask with
  | none => s
  | some a =>
    if !pduOn (s.reg l) i then (s.setPdu l { x with ask := none, deferred := false }).askEnd l a.lsns dFAILED dDROPPED
    else if s.pduAsleep l i then (s.setPdu l { x with ask := none, deferred := false }).pduToSleep l i a
    else if s.inGap l i || x.kept != [] then s.setPdu l { x with deferred := true }
    else (s.setPdu l { x with ask := none, deferred := false }).pduOut l i
      (s.img l (pduOfs (s.reg l) i) (pduLen (s.reg l) i)) a.lsns

/-- The oldest held image of a PDU goes out where its cove is awake and no gap stands. -/
def State.keptOut (s : State) (l : Lane) (i : Nat) : State :=
  let x := s.pduRt l i
  match x.kept with
  | k :: ks =>
    if s.pduAsleep l i || s.inGap l i then s
    else (s.setPdu l { x with kept := ks }).pduOut l i k.image k.ask.lsns
  | [] => s

/-- A PDU's turn to send: a held image whose cove is awake again goes before a pending send. -/
def execPduSend (l : Lane) (i : Nat) (s : State) : Host.Outcome State Fault Refusal :=
  .next (if s.harbRuns l then
      if (s.pduRt l i).kept != [] && !s.pduAsleep l i then s.keptOut l i
      else if (s.pduRt l i).deferred then s else s.pduSend l i
    else s)

/-- The end of a MIN_GAP: a held image goes first, then a deferred send. -/
def execMinGapExpiry (l : Lane) (i : Nat) (s : State) : Host.Outcome State Fault Refusal :=
  .next (if s.harbRuns l then
      let x := s.pduRt l i
      let s := s.setPdu l { x with sent := none }
      if x.kept != [] then s.keptOut l i else if x.deferred then s.pduSend l i else s
    else s)

/-- Held images of a lane in the order in which they were held. -/
def insKept (k : Nat × Nat) : List (Nat × Nat) → List (Nat × Nat)
  | [] => [k]
  | x :: xs => if k.1 < x.1 then k :: x :: xs else x :: insKept k xs

def HarbRt.keptOrder (h : HarbRt) : List (Nat × Nat) :=
  (((h.pdus.map (fun x => x.kept.map (fun k => (k.order, x.ix)))).flatten).foldl (fun acc k => insKept k acc) [])

/-- Coves awake: the images held for them are sent in order (R476). -/
def State.harbAwake (s : State) : State :=
  [Lane.E, Lane.W].foldl (fun s l =>
    if s.harbRuns l then (s.harb l).keptOrder.foldl (fun s k => s.keptOut l k.2) s else s) s

/-! ### Commands (Table 15.5) -/

def allBits (g : Nat → Word) (a : Nat) (masks : List Nat) : Bool :=
  masks.zipIdx.all (fun p => (g (a + 4 * p.2)).toNat &&& p.1 == (g (a + 4 * p.2)).toNat)

def specHarbStatus : CmdSpec :=
  { opcode := 0x0800, accepted := false, lenOk := fun r => r.length == 0, maxResp := 36,
    answer := fun s r =>
      let l := (s.servedBy r.lane).getD r.lane
      wordBytes (s.reg l R.HARB_STATUS) ++ s.regBytes l (R.HARB_CNT 0) 8 }

def harbPduCells (r : Req) : List RegCell := (List.range 6).map (fun w => (R.HARB_PDU_W0 (r.u16 0) + 4 * w, r.w (4 + 4 * w)))

/-- The entry's words keep to its fields; the two last words are not used. -/
def pduWordsOk (r : Req) : Bool :=
  let m := [0xFFF7FFFF, 0xFFFFFFFF, 0xFFFF3F07, 0x3FFFF, 0x7FFF3FFF, 0xFFFF]
  m.zipIdx.all (fun p => onlyMask (r.w (4 + 4 * p.2)) p.1) && r.u 28 8 == 0

def specHarbPduDefine : CmdSpec :=
  { opcode := 0x0801, accepted := true, lenOk := fun r => r.length == 36, perm := fun _ r => r.src.isChief,
    param := fun s r =>
      let g := s.cfgView r (harbPduCells r)
      let i := r.u16 0
      decide (i < 4096) && r.u 2 2 == 0 && pduWordsOk r &&
        (!pduOn g i || (pduOk g s.linLen i && !(pdusOn g).any (pduClash g i))),
    exec := fun s r lsn => s.commitLocal 15 0 (harbPduCells r) lsn }

def harbRouteCells (r : Req) : List RegCell :=
  ((List.range (r.u16 2)).map (fun k =>
    (List.range 12).map (fun w => (R.HARB_RT_W0 (r.u16 0 + k) + 4 * w, r.w (4 + 48 * k + 4 * w))))).flatten

def routeWordsOk (r : Req) (k : Nat) : Bool :=
  let m := [0xFFFFFFFF, 0xFFF0FFF, 0xFFFFFF]
  m.zipIdx.all (fun p => onlyMask (r.w (4 + 48 * k + 4 * p.2)) p.1) && onlyMask (r.w (4 + 48 * k + 28)) 0x3FFFFFFF

def specHarbRouteSet : CmdSpec :=
  { opcode := 0x0802, accepted := true, lenOk := fun r => decide (52 ≤ r.length ∧ r.length ≤ 65524),
    perm := fun _ r => r.src.isChief,
    param := fun s r =>
      let n := r.u16 2
      let g := s.cfgView r (harbRouteCells r)
      decide (1 ≤ n ∧ n ≤ 1365) && r.length == 4 + 48 * n && decide (r.u16 0 + n ≤ 16384) &&
        (List.range n).all (fun k => routeWordsOk r k && (!rtOn g (r.u16 0 + k) || routeOk g (r.u16 0 + k))),
    exec := fun s r lsn => s.commitLocal 15 0 (harbRouteCells r) lsn }

def harbEpCells (r : Req) : List RegCell := (List.range 6).map (fun w => (R.HARB_EP_ADDR (r.u8 0) 0 + 4 * w, r.w (4 + 4 * w)))

def specHarbEndpoint : CmdSpec :=
  { opcode := 0x0803, accepted := true, lenOk := fun r => r.length == 36, perm := fun _ r => r.src.isChief,
    param := fun _ r => decide (r.u8 0 < 64) && r.u 1 3 == 0 && onlyMask (r.w 20) 0x7FFFFFFF &&
      onlyMask (r.w 24) 0x3FF && r.u 28 8 == 0,
    exec := fun s r lsn => s.commitLocal 15 0 (harbEpCells r) lsn }

def specHarbPduSend : CmdSpec :=
  { opcode := 0x0804, accepted := true, lenOk := fun r => r.length == 2,
    param := fun _ r => decide (r.u16 0 < 4096),
    stateOk := fun s r => trigOn (s.reg (s.holderOr r.lane)) (r.u16 0) 2,
    exec := fun s r lsn =>
      let l := s.holderOr r.lane
      (s.harbTrigger l (r.u16 0) 2 [lsn]).harbTrigger l.other (r.u16 0) 2 [lsn] }

def specHarbPduRead : CmdSpec :=
  { opcode := 0x0805, accepted := false, lenOk := fun r => r.length == 8, maxResp := 108,
    param := fun s r => decide (r.u16 0 < 4096) && decide (1 ≤ r.u8 4 ∧ r.u8 4 ≤ 104) && r.u 5 3 == 0 &&
      decide (r.u16 2 + r.u8 4 ≤ pduLen (s.reg ((s.servedBy r.lane).getD r.lane)) (r.u16 0)),
    answer := fun s r =>
      let l := (s.servedBy r.lane).getD r.lane
      let x := s.pduRt l (r.u16 0)
      leBytes 4 (b2n (x.kept != []) + 2 * b2n x.ask.isSome) ++
        s.img l (pduOfs (s.reg l) (r.u16 0) + r.u16 2) (r.u8 4) }

def specHarbRouteStatus : CmdSpec :=
  { opcode := 0x0806, accepted := false, lenOk := fun r => r.length == 4, maxResp := 112,
    param := fun _ r => decide (1 ≤ r.u8 2 ∧ r.u8 2 ≤ 14) && r.u8 3 == 0 && decide (r.u16 0 + r.u8 2 ≤ 16384),
    answer := fun s r =>
      let l := (s.servedBy r.lane).getD r.lane
      ((List.range (r.u8 2)).map (fun k =>
        let x := s.routeRt l (r.u16 0 + k)
        leBytes 2 (b2n x.valid + 2 * b2n x.timedOut) ++ leBytes 2 x.sat ++ leBytes 2 x.holdDrop ++ leBytes 2 0)).flatten }

def execHarbStatus (r : Req) (s : State) : Host.Outcome State Fault Refusal := runScs specHarbStatus r s
def execHarbPduDefine (r : Req) (s : State) : Host.Outcome State Fault Refusal := runScs specHarbPduDefine r s
def execHarbRouteSet (r : Req) (s : State) : Host.Outcome State Fault Refusal := runScs specHarbRouteSet r s
def execHarbEndpoint (r : Req) (s : State) : Host.Outcome State Fault Refusal := runScs specHarbEndpoint r s
def execHarbPduSend (r : Req) (s : State) : Host.Outcome State Fault Refusal := runScs specHarbPduSend r s
def execHarbPduRead (r : Req) (s : State) : Host.Outcome State Fault Refusal := runScs specHarbPduRead r s
def execHarbRouteStatus (r : Req) (s : State) : Host.Outcome State Fault Refusal := runScs specHarbRouteStatus r s

end Sys2Proof.Machine
end

