-- ==== Sys2Proof/Machine/Mailbox.lean ====
section
/-! DEFINITION. The 0x00xx commands, the mailboxes and the remote sessions (spec/07). -/

namespace Sys2Proof.Machine

abbrev Out := Host.Outcome State Fault Refusal

/-! ### Commands (Table 7.10) -/

/-- IDENTIFY data (Table 7.11). -/
def identifyData (s : State) (l : Lane) : List Byte :=
  leBytes 4 0x4C5A41B0 ++ (List.range 16).map Config.uid ++
  (if s.serving .E then wordBytes (Config.fwVersion 0) else leBytes 4 0) ++
  (if s.serving .W then wordBytes (Config.fwVersion 1) else leBytes 4 0) ++
  leBytes 1 (s.lifecycle l) ++ leBytes 1 (s.lane l).straps ++ leBytes 2 0x0100

def specIdentify : CmdSpec :=
  { opcode := 0x0000, accepted := false, lenOk := fun r => r.length == 0, maxResp := 32,
    answer := fun s r => identifyData s ((s.servedBy r.lane).getD r.lane) }

/-- One lane's half of LANE_STATUS (Table 7.12); zero for a lane that is not seen over the Strait. -/
def laneHalf (s : State) (me l : Lane) : List Byte :=
  if l = me ∨ s.bit me R.FERRY_LANE F.FERRY_LANE_STRAIT_UP then
    let x := s.lane l
    leBytes 1 (s.lst l) ++
    leBytes 1 (b2n (s.serving l) + 2 * b2n x.safeBall + 4 * b2n x.thermWarn +
      8 * s.fld l (R.CLKC_DOM_STAT 1) F.CLKC_DOM_STAT_REDUCED) ++
    leBytes 1 (s.fld l R.UPD_STATUS F.UPD_STATUS_ACTIVE_BANK) ++
    leBytes 1 (s.fld l R.RSTC_RST_CAUSE F.RSTC_RST_CAUSE_CAUSE) ++
    leBytes 2 x.junction ++ leBytes 2 0 ++ leBytes 4 ((s.now - x.upSince) / 1000000)
  else leBytes 12 0

def laneStatusData (s : State) (me : Lane) : List Byte :=
  laneHalf s me .E ++ laneHalf s me .W ++
  leBytes 1 (s.fld me R.FERRY_LANE F.FERRY_LANE_MODE) ++ leBytes 1 (s.fld me R.FERRY_LANE F.FERRY_LANE_PHASE) ++
  leBytes 2 (match s.holder with
   | some .E => 0x00
   | some .W => 0x01
   | none => 0xFF)

def specLaneStatus : CmdSpec :=
  { opcode := 0x0001, accepted := false, lenOk := fun r => r.length == 0, maxResp := 28,
    answer := fun s r => laneStatusData s ((s.servedBy r.lane).getD r.lane) }

def specPing : CmdSpec :=
  { opcode := 0x0002, accepted := false, lenOk := fun r => decide (r.length ≤ 48), maxResp := 56,
    answer := fun s r => leBytes 8 s.now ++ r.payload }

/-- PERMIT of a sender; SMB0, which may send every opcode, reports every range. -/
def permitOf (s : State) (r : Req) : Nat :=
  match r.src with
  | .func f => s.fld r.lane (R.IOV_FN_CFG f) F.IOV_FN_CFG_PERMIT
  | .session n => s.fld r.lane (R.SCSM_RS_CFG n) F.SCSM_RS_CFG_PERMIT
  | _ => 0xFFFF

/-- Requests of a sender received and not answered: the session's PENDING, or the mailbox's busy slots
without a response. -/
def pendingOf (s : State) (r : Req) : Nat :=
  match r.src with
  | .session n => s.fld r.lane (R.SCSM_RS_STATUS n) F.SCSM_RS_STATUS_PENDING
  | src =>
    match mailboxOf src with
    | some mb =>
      let st := s.reg r.lane (R.SCSM_MB_STATUS mb)
      let busy := getF st F.SCSM_MB_STATUS_SLOT_BUSY
      let rdy := getF st F.SCSM_MB_STATUS_RESP_READY
      ((maskBits 8 busy).filter (fun i => !rdy.testBit i)).length
    | none => 0

def specSessionInfo : CmdSpec :=
  { opcode := 0x0003, accepted := false, lenOk := fun r => r.length == 0, maxResp := 12,
    answer := fun s r =>
      let q := s.quotaOf r.lane r.src
      leBytes 2 (s.streamOf r.lane r.src) ++ leBytes 2 q ++
      leBytes 2 (s.fld r.lane (R.LEDG_QUOTA q) F.LEDG_QUOTA_QUOTA) ++ leBytes 2 (s.quotaUsed q) ++
      leBytes 2 (permitOf s r) ++ leBytes 2 (pendingOf s r) }

/-- SMB0 or the start-up image, which runs on its stream with its identity (R227, R629). -/
def isSecureSender (r : Req) : Bool := r.world == .secure

/-- SESSION_PERMIT writes PERMIT of both lanes; it reaches DONE when the commit takes effect (R227). -/
def specSessionPermit : CmdSpec :=
  { opcode := 0x0004, accepted := true, lenOk := fun r => r.length == 4,
    perm := fun _ r => isSecureSender r,
    param := fun _ r => decide (r.u8 0 ≤ 31) && r.u8 1 == 0,
    exec := fun s r lsn =>
      let a := R.SCSM_RS_CFG (r.u8 0)
      s.commitLocal 5 0 [(a, setF (s.shadow (s.holderOr r.lane) a) F.SCSM_RS_CFG_PERMIT (r.u16 2))] lsn }

def execIdentify (r : Req) (s : State) : Out := runScs specIdentify r s
def execLaneStatus (r : Req) (s : State) : Out := runScs specLaneStatus r s
def execPing (r : Req) (s : State) : Out := runScs specPing r s
def execSessionInfo (r : Req) (s : State) : Out := runScs specSessionInfo r s
def execSessionPermit (r : Req) (s : State) : Out := runScs specSessionPermit r s

/-- Opcodes the command tables assign (R210, Table 7.6). -/
def assignedOpcode (n : Nat) : Bool :=
  let lo := n % 256
  match n / 256 with
  | 0x0 => decide (lo ≤ 4)
  | 0x1 => decide (lo ≤ 7)
  | 0x2 => decide (lo ≤ 6)
  | 0x3 => decide (lo ≤ 8)
  | 0x4 => decide (lo ≤ 8)
  | 0x5 => decide (lo ≤ 0xC)
  | 0x6 => decide (lo ≤ 0xD)
  | 0x7 => decide (lo ≤ 0xC)
  | 0x8 => decide (lo ≤ 6) || decide (0x10 ≤ lo ∧ lo ≤ 0x14)
  | 0x9 => decide (lo ≤ 7)
  | 0xA => decide (lo ≤ 0xE)
  | 0xB => decide (lo ≤ 0xF)
  | 0xC => decide (lo ≤ 8)
  | 0xD => decide (lo ≤ 6)
  | 0xE => decide (lo ≤ 6)
  | 0xF => decide (lo ≤ 9) || decide (0x10 ≤ lo ∧ lo ≤ 0x14)
  | _ => false

/-- A request with an unassigned opcode is refused with SCS_E_OPCODE (R210); an assigned opcode is another
row's. -/
def execUnassignedOpcode (opcode : Nat) (r : Req) (s : State) : Out :=
  if s.deaf || assignedOpcode opcode then .next s
  else .next ((s.count ((s.servedBy r.lane).getD r.lane) (R.SCSM_CNT 0)).refuse r SCS_E_OPCODE)

/-! ### Mailboxes (R213 to R216) -/

/-- The window of a mailbox is its own function's; SMB0 is the secure world's (R213). The Elder reaches the
window of the PF, whose firmware it is not; it has none of its own. -/
def mayUseMailbox (who : Initiator) (mb : Nat) : Bool :=
  match who with
  | .func f => decide (f = mb) && decide (mb < 64)
  | .secure => decide (mb = 64)
  | .elder => false

/-- The request in slot `i` of a mailbox, read from its 64 bytes (Table 7.1, R204). -/
def readSlot (s : State) (l : Lane) (mb i : Nat) : Nat × Req :=
  let b := s.regBytes l (R.SCSM_MB_REQ mb i 0) 16
  let fl := fieldAt b 2 2
  let len := fieldAt b 8 2
  let bufs := fl.testBit 1 || fl.testBit 2
  let inA := if bufs then fieldAt b 16 8 else 0
  let pay := if fl.testBit 2 then slice b 40 (min len 24) else slice b 16 (min len 48)
  let r : Req :=
    { lane := l, src := if mb = 64 then .smb0 else .func mb, slot := i, flags := fl, reqId := fieldAt b 4 4,
      length := len, target := fieldAt b 10 2, deadline := fieldAt b 12 4, payload := pay, inAddr := inA,
      outAddr := if bufs then fieldAt b 24 8 else 0, outCap := if bufs then fieldAt b 32 2 else 0,
      padZero := allZero (slice b 34 6), sigOk := false, svnOk := true, hwFault := false }
  (fieldAt b 0 2, if fl.testBit 1 then { r with payload := s.getBuf r inA len } else r)

/-- A register access that completes. -/
def okBus (x : Out) : Out :=
  match x with
  | .next s => .next (s.busOk 0)
  | y => y

/-- A write to DOORBELL (R214, R215): a slot that is not busy becomes busy and its request joins the
mailbox's stream in doorbell order; a busy slot only sets DOORBELL_BUSY. Requests that arrive during
freeze receive no response (R127), and a quiesced function's doorbell is dropped (R545). -/
def execDoorbell (l : Lane) (who : Initiator) (mb slot : Nat) (s : State) : Out :=
  if !mayUseMailbox who mb then .next s.busErr
  else okBus <|
    let i := slot % 8
    let st := R.SCSM_MB_STATUS mb
    let busy := s.fld l st F.SCSM_MB_STATUS_SLOT_BUSY
    if busy.testBit i then .next (s.setBitF l st F.SCSM_MB_STATUS_DOORBELL_BUSY true)
    else
      let fnState := s.fld l (R.IOV_FN_STATE mb) F.IOV_FN_STATE_STATE
      if mb ≠ 64 ∧ (fnState = 2 ∨ fnState = 3) then
        .next (s.countFld l (R.IOV_FN_STATE mb) F.IOV_FN_STATE_DB_DROP)
      else
        let s := s.setFld l st F.SCSM_MB_STATUS_SLOT_BUSY (setBit busy i)
        let q := readSlot s l mb i
        if s.deaf then .next s else .next (s.keepReq q.1 q.2)

/-- A write to a request slot (R214, R215): a busy slot keeps its content and sets SLOT_VIOLATION. -/
def execReqSlotWrite (l : Lane) (who : Initiator) (mb slot off : Nat) (value : Word) (s : State) : Out :=
  if !mayUseMailbox who mb then .next s.busErr
  else okBus <|
    let st := R.SCSM_MB_STATUS mb
    if (s.fld l st F.SCSM_MB_STATUS_SLOT_BUSY).testBit (slot % 8) then
      .next ((s.setBitF l st F.SCSM_MB_STATUS_SLOT_VIOLATION true).count l (R.SCSM_CNT 6))
    else .next (s.setReg l (R.SCSM_MB_REQ mb (slot % 8) (off / 4 % 16)) value)

/-- A write to RESP_ACK releases each named slot whose response is ready (R214, R215). -/
def execRespAck (l : Lane) (who : Initiator) (mb mask : Nat) (s : State) : Out :=
  if !mayUseMailbox who mb then .next s.busErr
  else okBus <|
    let st := R.SCSM_MB_STATUS mb
    let rdy := s.fld l st F.SCSM_MB_STATUS_RESP_READY
    let rel := (maskBits 8 mask).filter (fun i => rdy.testBit i)
    .next (s.forEach rel (fun s i =>
      let s := s.setFld l st F.SCSM_MB_STATUS_SLOT_BUSY (clearBit (s.fld l st F.SCSM_MB_STATUS_SLOT_BUSY) i)
      s.setFld l st F.SCSM_MB_STATUS_RESP_READY (clearBit (s.fld l st F.SCSM_MB_STATUS_RESP_READY) i)))

/-- Consumed records leave the ring of a mailbox (R216). A HEAD beyond TAIL is ignored: of the records
between the old HEAD and TAIL it must name the first not consumed, or TAIL itself. -/
def execCplHeadWrite (l : Lane) (who : Initiator) (mb head : Nat) (s : State) : Out :=
  if !mayUseMailbox who mb then .next s.busErr
  else okBus <|
    let old := s.fld l (R.SCSM_MB_CPL_HEAD mb) F.SCSM_MB_CPL_HEAD_HEAD
    let cnt := s.fld l (R.SCSM_MB_STATUS mb) F.SCSM_MB_STATUS_CPL_COUNT
    let h := head % 64
    let adv := (h + 64 - old) % 64
    let adv := if adv = 0 ∧ cnt = 64 then 0 else adv
    if cnt < adv then .next s
    else .next ((s.setFld l (R.SCSM_MB_CPL_HEAD mb) F.SCSM_MB_CPL_HEAD_HEAD h).setFld l
      (R.SCSM_MB_STATUS mb) F.SCSM_MB_STATUS_CPL_COUNT (cnt - adv))

/-! ### Remote sessions (R219 to R222) -/

def State.session (s : State) (n : Nat) : Session := s.sessions.getD n .reset

def State.sessionOpen (s : State) (n : Nat) : Bool := s.bit .E (R.SCSM_RS_STATUS n) F.SCSM_RS_STATUS_OPEN

/-- Authentication failure for the tamper sensors, in the lane that decrypts: the holder (R222). -/
def State.authFail (s : State) : State :=
  match s.holder with
  | some h => s.tamper h sAUTH
  | none => s

/-- OPEN (R219): a session that is enabled, with a key, whose counter is above the stored one and whose tag
verifies. It closes an earlier session of the client, stores the counter and answers OPEN_ACK with a
fresh nonce. Only the ferry holder answers (R222). -/
def execSessionOpen (n counter : Nat) (tagOk : Bool) (nonce : List Byte) (s : State) : Out :=
  match s.holder with
  | none => .next s
  | some h =>
    if n ≥ 32 ∨ s.deaf = true ∨ s.bit h (R.SCSM_RS_CFG n) F.SCSM_RS_CFG_EN = false then .next s
    else if !tagOk then .next ((s.count h (R.SCSM_CNT 2)).authFail)
    else if counter ≤ (s.session n).lastOpen then .next s
    else
      let s := s.closeSession n
      let sn := s.freeBytes 16
      let x : Session := { lastOpen := counter, clientNonce := nonce, serverNonce := sn, rxHigh := 0, rxSeen := [],
                           txNext := 1, txMsg := 0, partials := [] }
      let s := (s.setSession n x).tickFree
      let s := s.setBitBoth (R.SCSM_RS_STATUS n) F.SCSM_RS_STATUS_OPEN true
      .next (s.emit (.openAck n counter sn))

/-- The 64-counter window below the highest COUNTER accepted (R220). -/
def counterFresh (x : Session) (c : Nat) : Bool :=
  decide (1 ≤ c) && (decide (x.rxHigh < c) || (decide (x.rxHigh < c + 64) && !x.rxSeen.contains c))

def acceptCounter (x : Session) (c : Nat) : Session :=
  let hi := max x.rxHigh c
  { x with rxHigh := hi, rxSeen := (c :: x.rxSeen).filter (fun d => decide (hi < d + 64)) }

/-- A message's segments are all there: the last one's index gives their number. -/
def Partial.complete (p : Partial) : Bool :=
  match p.total with
  | some n => decide (n + 1 ≤ p.segs.length)
  | none => false

def Partial.bytes (p : Partial) : List Byte :=
  ((List.range (p.segs.length)).map (fun i => ((p.segs.find? (fun q => q.1 == i)).map Prod.snd).getD [])).flatten

/-- A reassembled message is a request: its header and payload (Table 7.1, R204). -/
def messageReq (l : Lane) (n : Nat) (b : List Byte) : Nat × Req :=
  (fieldAt b 0 2,
   { lane := l, src := .session n, slot := 0, flags := fieldAt b 2 2, reqId := fieldAt b 4 4,
     length := fieldAt b 8 2, target := fieldAt b 10 2, deadline := fieldAt b 12 4, payload := b.drop 16,
     inAddr := 0, outAddr := 0, outCap := 0, padZero := true, sigOk := false,
     svnOk := true, hwFault := false })

/-- A session's whole message arrives: a seventeenth unanswered request is answered SCS_E_BUSY (R221). -/
def State.sessionRequest (s : State) (l : Lane) (n : Nat) (b : List Byte) : State :=
  let q := messageReq l n b
  let p := s.fld .E (R.SCSM_RS_STATUS n) F.SCSM_RS_STATUS_PENDING
  let s := s.setFldBoth (R.SCSM_RS_STATUS n) F.SCSM_RS_STATUS_PENDING (p + 1)
  if 16 ≤ p then s.refuse q.2 SCS_E_BUSY else s.keepReq q.1 q.2

/-- A session segment (R220, R221): dropped without a response unless its tag verifies and its COUNTER is
fresh; a fifth message's segment is dropped; a complete message becomes a request. -/
def execSessionSegment (g : Segment) (s : State) : Out :=
  let n := g.session
  match s.holder with
  | none => .next s
  | some h =>
    if n ≥ 32 ∨ s.deaf = true ∨ s.sessionOpen n = false then .next s
    else if !g.tagOk then .next ((s.count h (R.SCSM_CNT 2)).authFail)
    else
      let x := s.session n
      if !counterFresh x g.counter then .next (s.count h (R.SCSM_CNT 3))
      else
        let x := acceptCounter x g.counter
        if 2 ^ 48 ≤ g.counter then .next ((s.setSession n x).closeSession n)
        else
          let old := x.partials.find? (fun p => p.msg == g.msg)
          if (old.isNone && decide (4 ≤ x.partials.length)) || decide (128 ≤ g.seg) then
            .next ((s.setSession n x).count h (R.SCSM_CNT 4))
          else
            let p := old.getD ⟨g.msg, [], none⟩
            let p := { p with segs := (g.seg, g.plain) :: p.segs.filter (fun q => q.1 != g.seg),
                              total := if g.last then some g.seg else p.total }
            let rest := x.partials.filter (fun q => q.msg != g.msg)
            if p.complete then .next ((s.setSession n { x with partials := rest }).sessionRequest h n p.bytes)
            else .next (s.setSession n { x with partials := rest ++ [p] })

/-- CLOSE from the client (R221). -/
def execSessionClose (n : Nat) (s : State) : Out :=
  if s.sessionOpen n then .next (s.closeSession n) else .next s

/-- No verified segment for IDLE_S_M1 + 1 seconds closes the session (R221). -/
def execSessionIdleTimeout (n : Nat) (s : State) : Out :=
  if s.sessionOpen n then .next ((s.closeSession n).emit (.sessionClose n)) else .next s

/-- A message not complete 100 ms after its first segment is discarded (R220). -/
def execReassemblyTimeout (n msg : Nat) (s : State) : Out :=
  let x := s.session n
  if x.partials.any (fun p => p.msg == msg) then
    .next ((s.setSession n { x with partials := x.partials.filter (fun p => p.msg != msg) }).count
      (s.holderOr .E) (R.SCSM_CNT 4))
  else .next s

/-- The standby receives a watermark: it drops the requests of the stream it keeps, up to the named one
(R218). The model's inbox is the one queue of kept requests. -/
def execWatermark (stream reqId : Nat) (s : State) : Out :=
  let ws := (stream, reqId) :: s.scs.watermarks.filter (fun w => w.1 != stream)
  let upTo := (s.scs.inbox.filter (fun x => x.stream == stream)).map (fun x => x.req.reqId)
  let dropN := upTo.idxOf reqId + 1
  let dropped := if upTo.contains reqId then upTo.take dropN else []
  let inb := s.scs.inbox.filter (fun x => !(x.stream == stream && dropped.contains x.req.reqId))
  .next { s with scs := { s.scs with inbox := inb, watermarks := ws } }

end Sys2Proof.Machine
end

