-- ==== Sys2Proof/Machine/LedgerCmds.lean ====
section
/-! DEFINITION. The ledger's commands and its engine's steps (spec/06), but for the two that issue a command
to its block, which stand in Machine/Serve.lean. -/

namespace Sys2Proof.Machine

/-! ### Streams and records (Tables 6.8 and 6.9, R627) -/

/-- A function exists while it is ENABLED, QUIESCING or QUIESCED (Table 17.6). The PF always exists. -/
def State.fnExists (s : State) (l : Lane) (f : Nat) : Bool :=
  f == 0 || s.fld l (R.IOV_FN_STATE f) F.IOV_FN_STATE_STATE != 0

/-- A stream is open (R627). -/
def State.streamOpen (s : State) (code : Nat) : Bool :=
  let ix := code % 256
  let l := if code.testBit 13 then Lane.W else Lane.E
  match code / 0x4000 with
  | 0 => s.mod_.configured && !s.led.replayDue && s.fnExists l ix
  | 1 => s.bit l (R.IOV_Q_CFG ix) F.IOV_Q_CFG_EN && s.fnExists l (s.fld l (R.IOV_Q_CFG ix) F.IOV_Q_CFG_FUNC)
  | 2 => s.mod_.configured && !s.led.replayDue
  | _ => s.sessionOpen ix

/-- Completion record (Table 6.9). -/
def cplRecord (lsn disp flags reqId stream err : Nat) : List Byte :=
  leBytes 6 lsn ++ leBytes 1 disp ++ leBytes 1 flags ++ leBytes 4 reqId ++ leBytes 2 stream ++ leBytes 2 err

def LEntry.record (e : LEntry) : List Byte :=
  cplRecord e.lsn e.disp (b2n e.recovered + 2 * b2n e.unclaimed) e.req.reqId e.stream e.err

/-- State code of Table 6.2. -/
def ESt.code : ESt → Nat
  | .accepted => 1
  | .executing => 2
  | .disposed => 3
  | .reported => 4

/-! ### Commands (Table 6.10) -/

def specLedgerStatus : CmdSpec :=
  { opcode := 0x0F10, accepted := false, lenOk := fun r => r.length == 0, maxResp := 52,
    answer := fun s r =>
      let l := (s.servedBy r.lane).getD r.lane
      wordBytes (s.reg l R.LEDG_STATUS) ++ leBytes 8 s.led.nextLsn ++ wordBytes (s.reg l R.LEDG_FREE) ++
        wordBytes (s.reg l R.LEDG_DEDUP) ++ s.regBytes l (R.LEDG_CNT 0) 8 }

def specLedgerConfig : CmdSpec :=
  { opcode := 0x0F11, accepted := true, lenOk := fun r => r.length == 9,
    perm := fun _ r => r.src.isChief,
    param := fun _ r => decide (r.u16 0 ≤ 8192) && decide (1 ≤ r.u16 2 ∧ r.u16 2 ≤ 1024) &&
      decide (1 ≤ r.u32 4 ∧ r.u32 4 ≤ 4194304) && decide (r.u8 8 ≤ 1),
    exec := fun s r lsn => s.commitLocal 4 0
      [(R.LEDG_CFG, BitVec.ofNat 32 (r.u16 0 + 0x10000 * (r.u16 2 - 1))),
       (R.LEDG_NODL, BitVec.ofNat 32 (r.u32 4 - 1 + 0x80000000 * r.u8 8))] lsn }

def specLedgerQuota : CmdSpec :=
  { opcode := 0x0F12, accepted := true, lenOk := fun r => r.length == 4,
    perm := fun _ r => r.src.isChief,
    param := fun _ r => decide (r.u16 0 ≤ 160) && decide (r.u16 2 ≤ 8192),
    exec := fun s r lsn => s.commitLocal 4 0 [(R.LEDG_QUOTA (r.u16 0), BitVec.ofNat 32 (r.u16 2))] lsn }

/-- The consistency check of the LEDG block: RESERVE and each QUOTA at most 8,192. -/
def chkLedg (s : State) (c : Commit) : Bool :=
  decide (s.afterF c R.LEDG_CFG F.LEDG_CFG_RESERVE ≤ 8192) &&
    c.writes.all (fun w => !(decide (R.LEDG_QUOTA 0 ≤ w.1) && decide (w.1 ≤ R.LEDG_QUOTA 160)) ||
      decide (getF w.2 F.LEDG_QUOTA_QUOTA ≤ 8192))

/-- What LEDGER_QUERY finds (R201): a live entry; else a kept duplicate record with a disposition; else
nothing. -/
def ledgerQueryData (s : State) (r : Req) : List Byte :=
  let st := r.u16 2
  let key := if r.u8 0 = 1 then r.u 4 8 else r.u32 4
  let hit := fun (stream lsn reqId : Nat) =>
    stream == st && (if r.u8 0 = 1 then lsn == key else reqId == key)
  match s.led.entries.reverse.find? (fun e => hit e.stream e.lsn e.req.reqId) with
  | some e =>
    leBytes 4 e.st.code ++
      (if e.st = .disposed ∨ e.st = .reported then e.record else leBytes 16 0)
  | none =>
    match s.liveDups.reverse.find? (fun d => hit d.stream d.lsn d.reqId && d.disp != 0) with
    | some d => leBytes 4 4 ++ cplRecord d.lsn d.disp 4 d.reqId d.stream 0
    | none => leBytes 20 0

def specLedgerQuery : CmdSpec :=
  { opcode := 0x0F13, accepted := false, lenOk := fun r => r.length == 12, maxResp := 20,
    perm := fun s r => r.src.isChief || r.u16 2 == s.streamOf r.lane r.src,
    param := fun _ r => decide (1 ≤ r.u8 0 ∧ r.u8 0 ≤ 2) && r.u8 1 == 0,
    answer := ledgerQueryData }

/-- Up to two unclaimed entries, in LSN order (R199). -/
def State.unclaimedLsns (s : State) : List Nat :=
  ((s.led.entries.filter (fun e => e.st == .disposed && e.unclaimed)).map LEntry.lsn).take 2

/-- LEDGER_RECOVERED reports the unclaimed entries it returns (R199, R201). -/
def specLedgerRecovered : CmdSpec :=
  { opcode := 0x0F14, accepted := true, lenOk := fun r => r.length == 0, maxResp := 36,
    perm := fun _ r => r.src.isChief,
    exec := fun s _ lsn =>
      let ls := s.unclaimedLsns
      let s := s.forEach ls (fun s n => s.mapEntry n (fun e => { e with st := .reported }))
      (s.setLed { s.led with recoveredOut := ls }).done lsn,
    answer := fun s _ =>
      let ls := s.led.recoveredOut
      leBytes 4 ls.length ++ ((ls.filterMap s.entry).map LEntry.record).flatten }

def execLedgerStatus (r : Req) (s : State) : Out := runScs specLedgerStatus r s
def execLedgerConfig (r : Req) (s : State) : Out := runScs specLedgerConfig r s
def execLedgerQuota (r : Req) (s : State) : Out := runScs specLedgerQuota r s
def execLedgerQuery (r : Req) (s : State) : Out := runScs specLedgerQuery r s
def execLedgerRecovered (r : Req) (s : State) : Out := runScs specLedgerRecovered r s

/-! ### The engine's steps -/

/-- A block reports an entry's outcome (R188): one of the dispositions of Table 6.3. -/
def execEntryDisposed (lsn disp err : Nat) (s : State) : Out :=
  if 1 ≤ disp ∧ disp ≤ 4 then .next (s.dispose lsn disp err) else .next s

/-- A completion record reaches a mailbox ring that has space (R216). -/
def State.pushCpl (s : State) (l : Lane) (mb : Nat) (rec_ : List Byte) : State :=
  let tail := s.fld l (R.SCSM_MB_CPL_TAIL mb) F.SCSM_MB_CPL_TAIL_TAIL
  let cnt := s.fld l (R.SCSM_MB_STATUS mb) F.SCSM_MB_STATUS_CPL_COUNT
  let s := s.setRegs l (R.SCSM_MB_CPL mb tail 0) (bytesToWords 4 rec_)
  let s := s.setFld l (R.SCSM_MB_CPL_TAIL mb) F.SCSM_MB_CPL_TAIL_TAIL ((tail + 1) % 64)
  let s := s.setFld l (R.SCSM_MB_STATUS mb) F.SCSM_MB_STATUS_CPL_COUNT (cnt + 1)
  let iq := R.SCSM_MB_IRQ mb
  if s.bit l iq F.SCSM_MB_IRQ_CPL_EN && s.fld l iq F.SCSM_MB_IRQ_CPL_THRESH_M1 == cnt then
    s.irq l (mailboxFn mb) (s.fld l iq F.SCSM_MB_IRQ_VECTOR)
  else s

def State.cplRoom (s : State) (l : Lane) (mb : Nat) : Bool :=
  decide (s.fld l (R.SCSM_MB_STATUS mb) F.SCSM_MB_STATUS_CPL_COUNT < 64)

/-- Lanes whose ring takes the records of a mailbox stream: its own lane's; both lanes' for a replicated
function; the holder's for SMB0, whose stream names no lane. -/
def State.cplLanes (s : State) (code : Nat) : List Lane :=
  if code / 0x4000 = 2 then [s.holderOr .E]
  else if s.replicated (code % 64) then [.E, .W]
  else if code.testBit 13 then [.W] else [.E]

/-- A mark REPORTED has been mirrored or written: the slot and its quota are released (Table 6.2). -/
def execEntryFree (lsn : Nat) (s : State) : Out :=
  match s.entry lsn with
  | some e =>
    if e.st = .reported then
      let es := s.led.entries.filter (fun x => x.lsn != lsn)
      .next (((s.setLed { s.led with entries := es }).syncLedg).syncQuota e.quota)
    else .next s
  | none => .next s

/-- Duplicate records whose life has ended leave the ring (R184). -/
def execDedupExpiry (s : State) : Out :=
  .next ((s.setLed { s.led with dups := s.liveDups }).syncLedg)

/-- After a POR of the module, or a deep reset of the only lane, the lane that took the ferry rebuilds the
ledger (R197): dispositions found unreported are marked RECOVERED (R198), no session survives (R627), and
the replay is due at the first boundary after the configured state. `lossAt` is the moment of the loss. -/
def execLedgerRebuild (rtcLost : Bool) (lossAt : Nat) (s : State) : Out :=
  match s.holder with
  | none => .next s
  | some _ =>
    let es := s.led.entries.map (fun e => if e.st = .disposed then { e with recovered := true } else e)
    let s := s.setLed { s.led with entries := es, recovering := false, replayDue := true, rebuiltAt := s.now,
                                   lossAt := lossAt, rtcLost := rtcLost }
    let s := s.forEach (List.range 32) (fun s n => s.closeSession n)
    let s := if rtcLost then s.setBitBoth R.LEDG_STATUS F.LEDG_STATUS_RTC_LOST true else s
    .next s.syncLedg

/-- Deadline of a recovered entry found ACCEPTED (R197). -/
def State.replayDeadline (s : State) (e : LEntry) : Option Nat :=
  if e.req.bufPayload || decide (44 < e.req.payload.length) then some s.led.lossAt
  else match e.deadline with
    | some d => some d
    | none =>
      if s.bit .E R.LEDG_NODL F.LEDG_NODL_NODL_UNLIMITED then none
      else some (e.acc + (s.fld .E R.LEDG_NODL F.LEDG_NODL_NODL_MS_M1 + 1) * 1000)

/-- The replay (R197): entries found EXECUTING fail INTERRUPTED; entries found ACCEPTED take their replay
deadline, and reach EXPIRED at once where the deadline clock stopped. -/
def State.replay (s : State) : State :=
  if s.led.replayDue then
    let lost := s.led.rtcLost
    let dl := s.led.entries.map (fun e => if e.st = .accepted then { e with deadline := s.replayDeadline e } else e)
    let s := s.setLed { s.led with entries := dl, replayDue := false }
    let run := (s.led.entries.filter (fun e => e.st == .executing)).map LEntry.lsn
    let s := s.disposeAll run dFAILED eINTERRUPTED
    if lost then s.disposeAll ((s.led.entries.filter (fun e => e.st == .accepted)).map LEntry.lsn) dEXPIRED 0
    else s
  else s

/-- A disposed entry whose stream has not opened 60 s after the rebuild, or whose function is gone, is left
to LEDGER_RECOVERED with UNCLAIMED set (R199). -/
def execUnclaimedTimeout (lsn : Nat) (s : State) : Out :=
  match s.entry lsn with
  | some e =>
    if e.st = .disposed ∧ s.streamOpen e.stream = false then
      .next (s.mapEntry lsn (fun e => { e with unclaimed := true }))
    else .next s
  | none => .next s

end Sys2Proof.Machine
end

