-- ==== Sys2Proof/Machine/Iov.lean ====
section
/-! DEFINITION. Functions, queue pairs and DMA, the page-owner table's updates, expert grants, lock-step tests (spec/17):
the IOV and POT engines, the 0x0Axx commands, and memory accesses. -/

namespace Sys2Proof.Machine

def eBUS_ERROR : Nat := 0x0A01

def lanesOf (m : Nat) : List Lane := (if m.testBit 0 then [Lane.E] else []) ++ (if m.testBit 1 then [Lane.W] else [])
def lanesOk (m : Nat) : Bool := decide (1 ≤ m ∧ m ≤ 3)

/-! ### Function and queue registers -/

def fDISABLED : Nat := 0
def fENABLED : Nat := 1
def fQUIESCING : Nat := 2
def fQUIESCED : Nat := 3

def State.fnSt (s : State) (l : Lane) (f : Nat) : Nat := s.fld l (R.IOV_FN_STATE f) F.IOV_FN_STATE_STATE
def State.setFnSt (s : State) (l : Lane) (f v : Nat) : State := s.setFld l (R.IOV_FN_STATE f) F.IOV_FN_STATE_STATE v

def State.qCfg (s : State) (l : Lane) (q : Nat) (f : Fld) : Nat := s.fld l (R.IOV_Q_CFG q) f
def State.qDepth (s : State) (l : Lane) (q : Nat) : Nat := s.qCfg l q F.IOV_Q_CFG_DEPTH_M1 + 1

def State.iovQ (s : State) (l : Lane) (q : Nat) : IovQ :=
  (s.iovQs.find? (fun x => x.lane == l && x.ix == q)).getD ⟨l, q, 0, 0, 0, 0, 0, []⟩

/-- The queues of a function in a lane, in increasing q. -/
def State.fnQueues (s : State) (l : Lane) (f : Nat) : List Nat :=
  (List.range 256).filter (fun q => s.qCfg l q F.IOV_Q_CFG_EN == 1 && s.qCfg l q F.IOV_Q_CFG_FUNC == f)

/-- Filled places of a ring between two positions. -/
def ringFill (depth head tail : Nat) : Nat := (tail + 2 * depth - head) % (2 * depth)

def ringWord (depth pos : Nat) : Word := BitVec.ofNat 32 (pos % depth + (pos / depth % 2) * 0x8000)

/-- Ring position that a doorbell word names; none where its INDEX is not one of the ring. -/
def ringPos (depth : Nat) (v : Word) : Option Nat :=
  let i := getF v F.IOV_DB_SQ_TAIL_INDEX
  if i < depth then some (i + depth * getF v F.IOV_DB_SQ_TAIL_WRAP) else none

def State.sqFill (s : State) (l : Lane) (q : Nat) : Nat :=
  ringFill (s.qDepth l q) (s.iovQ l q).sqHead (s.iovQ l q).sqTail
def State.cqFill (s : State) (l : Lane) (q : Nat) : Nat :=
  ringFill (s.qDepth l q) (s.iovQ l q).cqHead (s.iovQ l q).cqTail

/-- The doorbell page and status of a queue show its rings. -/
def State.syncQ (s : State) (l : Lane) (q : Nat) : State :=
  let x := s.iovQ l q
  let f := s.queueFn l q
  let d := s.qDepth l q
  let s := s.setBitF l (R.IOV_Q_STAT q) F.IOV_Q_STAT_CQ_FULL (s.cqFill l q == d)
  let s := s.setBitF l (R.IOV_Q_STAT q) F.IOV_Q_STAT_STOPPED (s.fnSt l f == fQUIESCING || s.fnSt l f == fQUIESCED)
  let i := (s.fnQueues l f).idxOf q
  if i < 16 then
    (((s.setReg l (R.IOV_DB_SQ_TAIL f i) (ringWord d x.sqTail)).setReg l (R.IOV_DB_CQ_HEAD f i)
      (ringWord d x.cqHead)).setReg l (R.IOV_DB_SQ_HEAD f i) (ringWord d x.sqHead)).setReg l (R.IOV_DB_CQ_TAIL f i)
      (ringWord d x.cqTail)
  else s

def State.setIovQ (s : State) (x : IovQ) : State :=
  let rest := s.iovQs.filter (fun y => !(y.lane == x.lane && y.ix == x.ix))
  State.syncQ { s with iovQs := rest ++ [x] } x.lane x.ix

/-- QUEUES and the doorbell pages of a function after a change of its queues. -/
def State.syncFn (s : State) (l : Lane) (f : Nat) : State :=
  let qs := s.fnQueues l f
  let s := s.setFld l (R.IOV_FN_STATE f) F.IOV_FN_STATE_QUEUES qs.length
  let s := s.forEach (List.range 16) (fun s i =>
    (((s.setReg l (R.IOV_DB_SQ_TAIL f i) 0).setReg l (R.IOV_DB_CQ_HEAD f i) 0).setReg l (R.IOV_DB_SQ_HEAD f i) 0).setReg l
      (R.IOV_DB_CQ_TAIL f i) 0)
  s.forEach qs (fun s q => s.syncQ l q)

/-- The rings of a queue emptied. -/
def State.emptyQ (s : State) (l : Lane) (q : Nat) : State :=
  let rest := s.iovQs.filter (fun y => !(y.lane == l && y.ix == q))
  State.syncQ { s with iovQs := rest } l q

/-! ### Commits (R538) -/

def u64Of (g : Nat → Word) (a : Nat) : Nat := (g a).toNat + 2 ^ 32 * (g (a + 4)).toNat

def bitmapOk (g : Nat → Word) (en : Bool) (a : Nat) : Bool :=
  let v := u64Of g a
  v % 0x20000 == 0 && (!en || decide (lpBase ≤ v ∧ v < lpBase + 0x100000000))

def fnCfgOk (g : Nat → Word) (f : Nat) : Bool :=
  let en := getF (g (R.IOV_FN_CFG f)) F.IOV_FN_CFG_EN == 1
  let dirty := getF (g (R.IOV_FN_CFG f)) F.IOV_FN_CFG_DIRTY_EN == 1
  let mode := u64Of g (R.IOV_FN_GATP f 0) / 2 ^ 60
  (mode == 8 || mode == 9 || (mode == 0 && (f == 0 || !en))) && bitmapOk g dirty (R.IOV_FN_DIRTYA f 0) &&
    bitmapOk g dirty (R.IOV_FN_DIRTYB f 0)

/-- The rings of a queue are empty. -/
def State.qEmpty (s : State) (l : Lane) (q : Nat) : Bool :=
  let x := s.iovQ l q
  x.sqHead == x.sqTail && x.cqHead == x.cqTail && x.cpl.isEmpty

def State.qCfgOk (s : State) (l : Lane) (g : Nat → Word) (q : Nat) : Bool :=
  let w := g (R.IOV_Q_CFG q)
  let f := getF w F.IOV_Q_CFG_FUNC
  let same := w == s.reg l (R.IOV_Q_CFG q) && u64Of g (R.IOV_Q_SQBASE q 0) == u64Of (s.reg l) (R.IOV_Q_SQBASE q 0) &&
    u64Of g (R.IOV_Q_CQBASE q 0) == u64Of (s.reg l) (R.IOV_Q_CQBASE q 0)
  (same || s.qEmpty l q) && u64Of g (R.IOV_Q_SQBASE q 0) % 64 == 0 && u64Of g (R.IOV_Q_CQBASE q 0) % 64 == 0 &&
    (getF w F.IOV_Q_CFG_EN == 0 ||
      (s.bit l (R.IOV_FN_CFG f) F.IOV_FN_CFG_EN &&
        decide (((s.fnQueues l f).filter (fun x => x != q)).length < 16)))

/-- Regions of IOV commits: the functions, then the queues. -/
def iovRegion (a : Nat) : Nat :=
  let o := a % 0x100000
  if o < 0x8000 then (o - 0x1000) / 0x40 else 64 + (o - 0x8000) / 0x20

def chkIov (s : State) (c : Commit) : Bool :=
  if c.region < 64 then fnCfgOk (s.after c) c.region else s.qCfgOk c.lane (s.after c) (c.region - 64)

def State.applyIov (s : State) (c : Commit) : State :=
  let ok := chkIov s c
  let l := c.lane
  let oldF := s.queueFn l (c.region - 64)
  let changed := !(s.qEmpty l (c.region - 64))
  let s := s.applyCommit ok R.IOV_STATUS F.IOV_STATUS_CFG_INCONSISTENT eCFG_REJECTED c
  if !ok then s
  else if c.region < 64 then
    let a := R.IOV_FN_CFG c.region
    let s := if c.region = 0 then (s.setBitF l a F.IOV_FN_CFG_EN true).setBitF l a F.IOV_FN_CFG_REPL true else s
    if s.bit l a F.IOV_FN_CFG_EN && s.fnSt l c.region == fDISABLED then s.setFnSt l c.region fENABLED else s
  else
    let q := c.region - 64
    let s := if changed then s else s.emptyQ l q
    (s.syncFn l oldF).syncFn l (s.queueFn l q)

/-! ### Real-time pairs (R529) -/

/-- The previous function of a pair lets it go. -/
def State.pairFree (s : State) (l : Lane) (k : Nat) : Bool :=
  let w := s.reg l (R.LSTP_PAIR_CFG k)
  let f := getF w F.LSTP_PAIR_CFG_FUNC
  getF w F.LSTP_PAIR_CFG_EN == 0 || getF w F.LSTP_PAIR_CFG_SEC == 1 || s.fnSt l f == fQUIESCED || s.fnSt l f == fDISABLED

def State.pairOk (s : State) (l : Lane) (k : Nat) (w : Word) : Bool := w == s.reg l (R.LSTP_PAIR_CFG k) || s.pairFree l k

def lstpRegion (a : Nat) : Nat := (a % 0x100000 - 0x100) / 0x10

def State.applyLstp (s : State) (c : Commit) : State :=
  (s.applyCommit (s.pairOk c.lane c.region (s.after c (R.LSTP_PAIR_CFG c.region))) R.LSTP_STATUS
    F.LSTP_STATUS_CFG_INCONSISTENT eCFG_REJECTED c).syncPairs c.lane

/-! ### Grants (R13 to R16) -/

/-- Grants end; the shadow of each block reloads from its active set (R16). -/
def State.endGrants (s : State) (p : Grant → Bool) : State :=
  let gone := s.grants.filter p
  let s := { s with grants := s.grants.filter (fun g => !p g) }
  gone.foldl (fun s g =>
    if g.standing then s.reloadShadow g.lane (0xE0000000 + g.block * 0x100000) (0xE0100000 + g.block * 0x100000) else s) s

/-! ### DMA (R530 to R532, R546) -/

/-- A denied access (R532): recorded, counted, and an event of the Lighthouse. -/
def State.potDeny (s : State) (l : Lane) (a part : Nat) (w : World) (init chan : Nat) (write : Bool) : State :=
  let s := s.setReg l R.POT_VIOL_ADDR_LO (BitVec.ofNat 32 a)
  let s := s.setReg l R.POT_VIOL_ADDR_HI (BitVec.ofNat 32 (a / 2 ^ 32 % 256))
  let v := part % 64 + 64 * (if w = .secure then 1 else 0) + 0x100 * (init % 16) +
    0x10000 * (if init = 13 then chan % 64 else 0) + 0x1000000 * b2n write
  let s := s.setReg l R.POT_VIOL_SRC (BitVec.ofNat 32 v)
  (s.countFld l R.POT_STATUS F.POT_STATUS_VIOL_COUNT).tamper l sPOT

def inPotRam (a : Nat) : Bool := decide (potLpBase ≤ a ∧ a < lpBase + 0x100000000)
def inRom (a : Nat) : Bool := decide (a < 0x20000)
def inNor (a : Nat) : Bool := decide (0x30000000 ≤ a ∧ a < 0x40000000)
def inEngineMram (a : Nat) : Bool := decide (0x20A00000 ≤ a ∧ a < 0x21000000)

/-- Where a transfer of function `f` on a channel reaches; none where it ends with BUS_ERROR. -/
def State.dmaTo (s : State) (l : Lane) (f chan a : Nat) (write : Bool) : State × Option Nat :=
  match s.gStage l f a write with
  | none => (s, none)
  | some p =>
    match potIx p with
    | some x =>
      if inPotRam p then (s, none)
      else if potAllows (s.potAt l x) .normal f then (s, some p)
      else (s.potDeny l p f .normal 13 chan write, none)
    | none => (s, if !write && (inRom p || inNor p) then some p else none)

def State.dmaRead (s : State) (l : Lane) (f chan a n : Nat) : State × Option (List Byte) :=
  (pagesOf a n).foldl (fun x p =>
    match x.2 with
    | none => x
    | some bs =>
      let t := x.1.dmaTo l f chan p false
      match t.2 with
      | none => (t.1, none)
      | some pa => (t.1, some (bs ++ t.1.bytes l pa (pageLen a n p)))) (s, some [])

/-- A DMA write leaves its mark in the dirty-page log (R546). -/
def State.markDirty (s : State) (l : Lane) (f pa : Nat) : State :=
  let st := R.IOV_FN_STATE f
  if !s.bit l (R.IOV_FN_CFG f) F.IOV_FN_CFG_DIRTY_EN then s
  else match potIx pa with
    | some (.lp i) =>
      let base := u64Of (s.reg l) (if s.bit l st F.IOV_FN_STATE_DIRTY_SEL then R.IOV_FN_DIRTYB f 0 else R.IOV_FN_DIRTYA f 0)
      let b := s.byte l (base + i / 8)
      s.setByte l (base + i / 8) (BitVec.ofNat 8 (setBit b.toNat (i % 8)))
    | _ => s.setBitF l st F.IOV_FN_STATE_DIRTY_OTHER true

/-- Bytes written before the transfer ended, and whether it reached its end. -/
def State.dmaWrite (s : State) (l : Lane) (f chan a : Nat) (data : List Byte) : State × Nat × Bool :=
  (pagesOf a data.length).foldl (fun x p =>
    if !x.2.2 then x
    else
      let n := pageLen a data.length p
      let t := x.1.dmaTo l f chan p true
      match t.2 with
      | none => (t.1, x.2.1, false)
      | some pa => ((t.1.setBytes l pa (slice data (p - a) n)).markDirty l f pa, x.2.1 + n, true)) (s, 0, true)

/-! ### Completion rings (Table 17.5, R541, R543) -/

def cqEntry (rec_ : List Byte) (status moved tag stamp : Nat) : List Byte :=
  rec_ ++ leBytes 2 status ++ leBytes 2 0 ++ leBytes 4 moved ++ leBytes 4 tag ++ leBytes 4 stamp

/-- The MSI of a queue's vector. -/
def State.qMsi (s : State) (l : Lane) (q : Nat) : State :=
  let f := s.queueFn l q
  let v := s.qCfg l q F.IOV_Q_CFG_VECTOR
  if s.qCfg l q F.IOV_Q_CFG_IRQ_EN == 1 && s.bit l (R.IOV_FN_VEC_HI f v) F.IOV_FN_VEC_HI_EN then s.irq l (some f) v else s

/-- One completion entry into a ring that has room. -/
def State.pushCq (s : State) (l : Lane) (q : Nat) (data : List Byte) (irq : Bool) : State :=
  let x := s.iovQ l q
  let d := s.qDepth l q
  let w := s.dmaWrite l (s.queueFn l q) (q % 64) (u64Of (s.reg l) (R.IOV_Q_CQBASE q 0) + 32 * (x.cqTail % d)) data
  let s := if w.2.2 then w.1 else w.1.count l (R.IOV_CNT 5)
  let s := s.setIovQ { x with cqTail := (x.cqTail + 1) % (2 * d) }
  if irq || s.cqFill l q == s.qCfg l q F.IOV_Q_CFG_CQ_THR_M1 + 1 then s.qMsi l q else s

/-- Entries that are formed leave in descriptor order while the ring has room. -/
def State.drainCq (s : State) (l : Lane) (q : Nat) : Nat → State
  | 0 => s
  | n + 1 =>
    let x := s.iovQ l q
    match x.cpl with
    | c :: cs =>
      match c.data with
      | some d =>
        if s.cqFill l q < s.qDepth l q then ((s.setIovQ { x with cpl := cs }).pushCq l q d c.irq).drainCq l q n else s
      | none => s
    | [] => s

def State.addCpl (s : State) (l : Lane) (q : Nat) (c : IovCpl) : State :=
  let x := s.iovQ l q
  (s.setIovQ { x with cpl := x.cpl ++ [c] }).drainCq l q 4097

/-- STATUS of an accepted descriptor. -/
def iovStatus (e : LEntry) (len : Nat) : Nat :=
  if e.disp = dFAILED ∧ e.err = eBUS_ERROR then 4 else if len = 0 then 1 else 0

/-- The completion entry of an accepted descriptor; a descriptor that sends nothing has no stamp: a free value. -/
def State.formCpl (s : State) (e : LEntry) (c : IovCpl) : State × IovCpl :=
  let kind := fieldAt e.req.payload 0 1
  let sent := e.disp = dDONE ∧ 0 < c.len ∧ kind ≠ 3
  let stamp := if sent then e.doneAt * 200 % 2 ^ 32 else s.freeNat % 2 ^ 32
  let moved := if sent then c.len else c.moved
  (s.tickFree, { c with data := some (cqEntry e.record (iovStatus e c.len) moved c.tag stamp) })

/-- The completion entry of a disposed descriptor is formed in each lane that holds its place. -/
def State.formIn (s : State) (l : Lane) (q : Nat) (e : LEntry) : State :=
  let x := s.iovQ l q
  match x.cpl.find? (fun c => c.lsn == some e.lsn) with
  | none => s
  | some c =>
    let n := s.formCpl e c
    let cs := x.cpl.map (fun y => if y.lsn == some e.lsn then n.2 else y)
    (n.1.setIovQ { x with cpl := cs }).drainCq l q 4097

/-- A descriptor's completion entry is next in its lane's ring, which has room for it. -/
def State.iovReportable (s : State) (e : LEntry) : Bool :=
  match e.req.src with
  | .queue q =>
    (match (s.iovQ e.req.lane q).cpl with
      | c :: _ => c.lsn == some e.lsn
      | [] => false) && decide (s.cqFill e.req.lane q < s.qDepth e.req.lane q)
  | _ => false

def State.iovReport (s : State) (e : LEntry) : State :=
  match e.req.src with
  | .queue q => (s.formIn .E q e).formIn .W q e
  | _ => s

/-! ### Descriptors (R539 to R541) -/

/-- The DMA channel of a queue belongs to the other world (R539). -/
def State.chanSecure (s : State) (l : Lane) (q : Nat) : Bool :=
  let a := if l = .E then R.LHS_WATTR_DMAE (q % 64 / 32) else R.LHS_WATTR_DMAW (q % 64 / 32)
  (s.reg l a).toNat.testBit (q % 32)

def descLimit (kind : Nat) : Nat :=
  match kind with
  | 1 => 1518
  | 2 => 2064
  | _ => 2 ^ 32

def descOk (d : List Byte) : Bool :=
  let kind := fieldAt d 0 1
  decide (1 ≤ kind ∧ kind ≤ 3) && decide (fieldAt d 1 1 < 4) &&
    (if kind = 1 then decide (fieldAt d 2 2 ≤ 1023) else fieldAt d 2 2 == 0) && decide (fieldAt d 4 4 ≤ descLimit kind) &&
    (kind == 3 || fieldAt d 16 8 == 0)

def descReq (l : Lane) (q i : Nat) (d : List Byte) : Req :=
  { lane := l, src := .queue q, slot := 0, flags := fieldAt d 1 1 % 2, reqId := i, length := 32, target := 0,
    deadline := fieldAt d 24 4, payload := d, inAddr := 0, outAddr := 0, outCap := 0, padZero := true, sigOk := false,
    svnOk := true, hwFault := false }

/-- The head of a ring passes a descriptor; in the other lane of a replicated function the watermark does (R218). -/
def State.passHead (s : State) (l : Lane) (q : Nat) (own : Bool) : State :=
  let x := s.iovQ l q
  let d := s.qDepth l q
  if x.sqHead = x.sqTail then (if own then s else s.setIovQ { x with skip := x.skip + 1 })
  else s.setIovQ { x with sqHead := (x.sqHead + 1) % (2 * d) }

/-- Lanes that keep the place of a descriptor taken in lane `l`. -/
def State.cplIn (s : State) (l : Lane) (q : Nat) : List Lane :=
  if s.replicated (s.queueFn l q) && s.lst l.other == stSTANDBY then [l, l.other] else [l]

def State.passDesc (s : State) (l : Lane) (q : Nat) (c : IovCpl) : State :=
  (s.cplIn l q).foldl (fun s k => (s.passHead k q (k == l)).addCpl k q c) s

/-- A descriptor completes at once, with LSN 0. -/
def State.refuseDesc (s : State) (l : Lane) (q i status cnt : Nat) (d : List Byte) : State :=
  let rec_ := cplRecord 0 0 0 i (s.streamOf l (.queue q)) 0
  let irq := fieldAt d 1 1 / 2 % 2 == 1
  let c : IovCpl := { lsn := none, irq := irq, tag := fieldAt d 28 4, moved := 0, len := 0,
                      data := some (cqEntry rec_ status 0 (fieldAt d 28 4) (s.freeNat % 2 ^ 32)) }
  (s.tickFree.count l (R.IOV_CNT cnt)).passDesc l q c

/-- An Ethernet frame from its bytes without FCS. -/
def beNat (bs : List Byte) : Nat := bs.foldl (fun (a : Nat) (b : Byte) => 256 * a + b.toNat) 0

def ethOfBytes (bs : List Byte) : EthFrame :=
  let tagged := beNat (slice bs 12 2) == 0x8100
  let tci := if tagged then beNat (slice bs 14 2) else 0
  let o := if tagged then 16 else 12
  let et := beNat (slice bs o 2)
  let pay := bs.drop (o + 2)
  let isUdp := et == 0x86DD && fieldAt pay 6 1 == 17
  { dst := beNat (slice bs 0 6), src := beNat (slice bs 6 6), vid := tci % 4096, pcp := tci / 8192, etype := et,
    rtag := none, udp := if isUdp then some (beNat (slice pay 42 2)) else none, len := bs.length + 4,
    data := if isUdp then pay.drop 48 else pay, macsec := none }

/-- A CAN_TX descriptor's frame goes to its port, or fails where CAN_SEND would be refused (Table 13.5). -/
def State.descCan (s : State) (lsn : Nat) (bs : List Byte) : State :=
  let h := bs.take 16
  let n := fieldAt h 13 1
  if !canHdrOk h || bs.length != 16 + fieldAt h 8 2 then s.failed lsn eBAD_FRAME
  else if !fmtOn (s.shReg (R.CAN_PCFG n)) (fieldAt h 10 1 % 4) || s.canTrx n == cLISTEN then s.failed lsn eFORMAT_OFF
  else s.canRequest h (bs.drop 16) lsn

def State.setMoved (s : State) (l : Lane) (q lsn n : Nat) : State :=
  let x := s.iovQ l q
  s.setIovQ { x with cpl := x.cpl.map (fun c => if c.lsn == some lsn then { c with moved := n } else c) }

/-- Lanes that hand a function's frames to the bridge: both of a replicated one that run as a pair (R440). -/
def State.handLanes (s : State) (l : Lane) (f : Nat) : List Lane :=
  if s.replicated f && s.lst l.other == stSTANDBY then [l, l.other] else [l]

/-- A copy, as far as both ranges let it. -/
def State.descCopy (s : State) (l : Lane) (q f lsn : Nat) (d bs : List Byte) : State :=
  let w := s.dmaWrite l f (q % 64) (fieldAt d 16 8) bs
  let s := (s.cplIn l q).foldl (fun s k => s.setMoved k q lsn w.2.1) w.1
  if w.2.2 then s.done lsn else (s.count l (R.IOV_CNT 5)).failed lsn eBUS_ERROR

/-- An accepted descriptor is issued (R541). -/
def State.iovStart (s : State) (e : LEntry) : State :=
  match e.req.src with
  | .queue q =>
    let l := e.req.lane
    let f := s.queueFn l q
    let d := e.req.payload
    let lsn := e.lsn
    let s := s.begin lsn
    if fieldAt d 4 4 = 0 then s.done lsn
    else
      let r := s.dmaRead l f (q % 64) (fieldAt d 8 8) (fieldAt d 4 4)
      match r.2 with
      | none => (r.1.count l (R.IOV_CNT 5)).failed lsn eBUS_ERROR
      | some bs =>
        match fieldAt d 0 1 with
        | 1 => r.1.ethHand (r.1.handLanes l f) (ethOfBytes bs) (fieldAt d 2 2) (some lsn) none e.deadline
        | 2 => r.1.descCan lsn bs
        | _ => r.1.descCopy l q f lsn d bs
  | _ => s

/-- An accepted descriptor starts at once when every lower LSN of its stream has begun (R182). -/
def State.runDesc (s : State) (lsn : Nat) : State :=
  match s.entry lsn with
  | some e => if s.lowerBegun e.stream lsn then s.iovStart e else s
  | none => s

/-- Acceptance of a descriptor in order, or its refusal by quota or ledger (R192). -/
def State.takeReq (s : State) (l : Lane) (q i : Nat) (d : List Byte) (r : Req) : State :=
  match checksC s r with
  | some st =>
    (s.countFull r st).refuseDesc l q i (if st = SCS_E_QUOTA then 2 else 3) (if st = SCS_E_QUOTA then 3 else 4) d
  | none =>
    let lsn := s.led.nextLsn
    let s := (s.accept 0xFFFF r).count l (R.IOV_CNT 1)
    let c : IovCpl := { lsn := some lsn, irq := fieldAt d 1 1 / 2 % 2 == 1, tag := fieldAt d 28 4, moved := 0,
                        len := fieldAt d 4 4, data := none }
    (s.passDesc l q c).runDesc lsn

def State.takeDesc (s : State) (l : Lane) (q i : Nat) (d : List Byte) : State := s.takeReq l q i d (descReq l q i d)

/-- The IOV unit of a lane works. -/
def State.iovRuns (s : State) (l : Lane) : Bool :=
  s.forwards l && !(s.lane l).blocksInReset.contains 4 && s.blockOn l 18 && !s.mod_.frozen

/-- The IOV unit takes the next work descriptor of a queue (R539, R541). -/
def execDescriptorTake (l : Lane) (q : Nat) (s : State) : Out :=
  .next (
    let f := s.queueFn l q
    let ready := decide (q < 256) && s.qCfg l q F.IOV_Q_CFG_EN == 1 && s.qCfg l q F.IOV_Q_CFG_KIND == 0 &&
      s.fnSt l f == fENABLED && decide (0 < s.sqFill l q) && !s.deaf && s.answering &&
      (!s.replicated f || s.leaseValid l) && s.iovRuns l
    if !ready then s
    else
      let i := (s.iovQ l q).sqHead % s.qDepth l q
      let r := s.dmaRead l f (q % 64) (u64Of (s.reg l) (R.IOV_Q_SQBASE q 0) + 32 * i) 32
      let s := r.1.count l (R.IOV_CNT 0)
      match r.2 with
      | none => s.refuseDesc l q i 4 5 []
      | some d =>
        if s.chanSecure l q then
          (s.tickFree.policy l (s.freeNat % 256) (q % 64) f .normal).refuseDesc l q i 4 5 d
        else if !descOk d then s.refuseDesc l q i 5 2 d
        else s.takeDesc l q i d)

/-! ### Doorbell pages (R540, R545) -/

/-- A doorbell page is its own function's, while the function exists (Table 17.6, R213). -/
def State.mayRing (s : State) (l : Lane) (who : Initiator) (f : Nat) : Bool :=
  decide (f < 64) && who == .func f && s.fnSt l f != fDISABLED

/-- A doorbell is not taken. -/
def State.dropDb (s : State) (l : Lane) (f : Nat) : State :=
  (s.countFld l (R.IOV_FN_STATE f) F.IOV_FN_STATE_DB_DROP).count l (R.IOV_CNT 6)

def execIovSqDoorbell (l : Lane) (who : Initiator) (f i : Nat) (value : Word) (s : State) : Out :=
  if !s.mayRing l who f then .next s.busErr
  else okBus <| match (s.fnQueues l f)[i]? with
    | none => .next s
    | some q =>
      let d := s.qDepth l q
      let x := s.iovQ l q
      if s.fnSt l f ≠ fENABLED then .next (s.dropDb l f)
      else match ringPos d value with
        | none => .next (s.dropDb l f)
        | some p =>
          if d < s.sqFill l q + ringFill d x.sqTail p then .next (s.dropDb l f)
          else
            let k := min x.skip (s.sqFill l q + ringFill d x.sqTail p)
            .next (s.setIovQ { x with sqTail := p, sqHead := (x.sqHead + k) % (2 * d), skip := x.skip - k })

/-- Consumed completion entries leave room; a position beyond the entries written is ignored. -/
def execIovCqHeadWrite (l : Lane) (who : Initiator) (f i : Nat) (value : Word) (s : State) : Out :=
  if !s.mayRing l who f then .next s.busErr
  else okBus <| match (s.fnQueues l f)[i]? with
    | none => .next s
    | some q =>
      let d := s.qDepth l q
      let x := s.iovQ l q
      match ringPos d value with
      | none => .next s
      | some p =>
        if s.cqFill l q < ringFill d x.cqHead p then .next s
        else .next ((s.setIovQ { x with cqHead := p }).drainCq l q 4097)

/-! ### Received frames (R542) -/

/-- Big-endian bytes of a number. -/
def beBytes (n v : Nat) : List Byte := (leBytes n v).reverse

/-- A received frame as it goes to memory. The IPv6 and UDP headers of a datagram are not part of the model's frame: free
bytes. -/
def State.frameBytes (s : State) (f : EthFrame) : State × List Byte :=
  let tag := if f.vid = 0 then [] else beBytes 2 0x8100 ++ beBytes 2 (f.vid + 0x2000 * f.pcp)
  let hdr := beBytes 6 f.dst ++ beBytes 6 f.src ++ tag ++ beBytes 2 f.etype
  match f.udp with
  | none => (s, hdr ++ f.data)
  | some _ => (s.tickFree, hdr ++ s.freeBytes 48 ++ f.data)

def State.macHit (s : State) (l : Lane) (fr : EthFrame) (f : Nat) : Bool :=
  let hi := s.reg l (R.IOV_FN_MAC_HI f)
  getF hi F.IOV_FN_MAC_HI_EN == 1 && (s.reg l (R.IOV_FN_MAC_LO f)).toNat + 2 ^ 32 * getF hi F.IOV_FN_MAC_HI_MAC == fr.dst &&
    getF hi F.IOV_FN_MAC_HI_VID == fr.vid

/-- The receive queue that a frame goes to. -/
def State.rxQueue (s : State) (l : Lane) (fr : EthFrame) : Option Nat :=
  let rx := fun f => (s.fnQueues l f).filter (fun q => s.qCfg l q F.IOV_Q_CFG_KIND == 1)
  let free := fun q => decide (0 < s.sqFill l q)
  match (List.range 64).find? (s.macHit l fr) with
  | some f => if s.fnSt l f = fENABLED then (rx f).find? free else none
  | none => ((rx 0).head?).filter free

/-- A receive entry that has been fetched takes a frame: into its buffer, or it ends with BUS_ERROR or BAD_DESC. -/
def State.rxFill (s : State) (l : Lane) (q f : Nat) (fr : EthFrame) (entry : Nat → Nat → IovCpl) :
    Option (List Byte) → State
  | none => ((s.count l (R.IOV_CNT 5)).count l (R.IOV_CNT 7)).addCpl l q (entry 4 0)
  | some d =>
    let cap := fieldAt d 8 4
    if s.chanSecure l q then
      (((s.tickFree.policy l (s.freeNat % 256) (q % 64) f .normal).count l (R.IOV_CNT 5)).count l (R.IOV_CNT 7)).addCpl l q
        (entry 4 0)
    else if cap < 64 ∨ 65535 < cap ∨ fieldAt d 12 4 ≠ 0 then
      ((s.count l (R.IOV_CNT 2)).count l (R.IOV_CNT 7)).addCpl l q (entry 5 0)
    else
      let fb := s.frameBytes fr
      let w := fb.1.dmaWrite l f (q % 64) (fieldAt d 0 8) (fb.2.take cap)
      if w.2.2 then w.1.addCpl l q (entry (if cap < fb.2.length then 6 else 0) w.2.1)
      else (w.1.count l (R.IOV_CNT 5)).addCpl l q (entry 4 w.2.1)

/-- The next receive entry of a queue is fetched and takes a frame. -/
def State.rxInto (s : State) (l : Lane) (q : Nat) (fr : EthFrame) (stamp : Nat) : State :=
  let f := s.queueFn l q
  let i := (s.iovQ l q).sqHead % s.qDepth l q
  let rec_ := cplRecord 0 0 0 i (s.streamOf l (.queue q)) 0
  let entry := fun (status moved : Nat) =>
    IovCpl.mk none false 0 0 0 (some (cqEntry rec_ status moved 0 (stamp % 2 ^ 32)))
  let r := s.dmaRead l f (q % 64) (u64Of (s.reg l) (R.IOV_Q_SQBASE q 0) + 16 * i) 16
  (r.1.passHead l q true).rxFill l q f fr entry r.2

/-- The oldest frame delivered to a lane is steered. -/
def execRxSteer (l : Lane) (s : State) : Out :=
  .next (
    let q := if l = .E then s.eth.rxE else s.eth.rxW
    match q with
    | [] => s
    | (fr, stamp) :: rest =>
      if !s.iovRuns l then s
      else
      let s := s.modEth (fun e => if l = .E then { e with rxE := rest } else { e with rxW := rest })
      match s.rxQueue l fr with
      | none => s.count l (R.IOV_CNT 7)
      | some q => s.rxInto l q fr stamp)

/-! ### Quiesce, reset and removal (Tables 17.6 and 17.7) -/

/-- QTO has passed: what is still queued goes no further. -/
def execQuiesceTimeout (l : Lane) (f : Nat) (s : State) : Out :=
  .next (if decide (f < 64) && s.fnSt l f == fQUIESCING then
      let ls := (s.led.entries.filter (fun e => e.st == .accepted && s.entryOf l f e)).map LEntry.lsn
      s.disposeAll ls dUNDELIVERABLE eQUEUED_AT_RESET
    else s)

/-- The rings and the mailbox of a function emptied. -/
def State.emptyFn (s : State) (l : Lane) (f : Nat) : State :=
  let s := s.forEach (s.fnQueues l f) (fun s q => s.emptyQ l q)
  let s := s.setReg l (R.SCSM_MB_STATUS f) 0
  let s := (s.setReg l (R.SCSM_MB_CPL_HEAD f) 0).setReg l (R.SCSM_MB_CPL_TAIL f) 0
  { s with scs := { s.scs with inbox := s.scs.inbox.filter (fun i => !(i.req.src == .func f && i.req.lane == l)) } }

/-- A function is disabled: its queues are given back, its grants end and its votes clear. -/
def State.removeFn (s : State) (l : Lane) (f : Nat) : State :=
  let s := s.dropVotes (s.quotaOf l (.func f))
  let qs := s.fnQueues l f
  let s := s.forEach qs (fun s q => s.setBitF l (R.IOV_Q_CFG q) F.IOV_Q_CFG_EN false)
  let s := s.setBitF l (R.IOV_FN_CFG f) F.IOV_FN_CFG_EN false
  (s.setFnSt l f fDISABLED).syncFn l f

/-- What a function's queues report of its state. -/
def State.syncStopped (s : State) (l : Lane) (f : Nat) : State := s.forEach (s.fnQueues l f) (fun s q => s.syncQ l q)

/-- A command of Table 17.6 reaches a function in a lane; its entry ends with the last lane's. -/
def State.vfApply (s : State) (v : VfOp) : State :=
  let s := { s with vfOps := s.vfOps.filter (fun x => x != v) }
  let st := s.fnSt v.lane v.fn
  let ends := fun (s : State) => if s.vfOps.any (fun x => x.lsn == v.lsn) then s else s.done v.lsn
  match v.kind with
  | 0 =>
    if st = fDISABLED then s.failed v.lsn eCFG_REJECTED
    else
      let s := if st = fENABLED then s.setFnSt v.lane v.fn fQUIESCING else s
      (({ s with quiesces := s.quiesces ++ [v] }).settleQuiesce).syncStopped v.lane v.fn
  | k =>
    if st ≠ fQUIESCED then s.failed v.lsn eCFG_REJECTED
    else
      let s := (s.emptyFn v.lane v.fn).endGrants (fun g => g.lane == v.lane && g.fn == v.fn)
      if k = 1 then ends ((s.setFnSt v.lane v.fn fENABLED).syncStopped v.lane v.fn)
      else ends (s.removeFn v.lane v.fn)

/-! ### Page-owner updates (R535, R536) -/

/-- Pages of an update. -/
def updPages (u : PotUpd) : List Nat := (List.range u.pages).map (fun i => u.addr / 4096 * 4096 + 4096 * i)

/-- The partition that owns a page by its entry is replicated (R536). -/
def State.ownerRepl (s : State) (e : Nat) : Bool := if potSec e then potPart e == 0 else s.replicated (potPart e)

def State.updOk (s : State) (u : PotUpd) : Bool :=
  (updPages u).all (fun a =>
    match potIx a with
    | none => false
    | some x =>
      let old := s.potAt u.lane x
      let own := if u.replOnly then old else u.entry
      !potRepl u.entry || s.ownerRepl own)

/-- The entry that an update writes over `old`. -/
def newEntry (u : PotUpd) (old : Nat) : Nat :=
  if u.replOnly then clearBit old 8 + (if potRepl u.entry then 256 else 0)
  else if potPart u.entry != potPart old || potSec u.entry != potSec old then clearBit (u.entry % 1024) 8
  else u.entry % 1024

def State.updPage (s : State) (u : PotUpd) (a : Nat) : State :=
  match potIx a with
  | none => s
  | some x =>
    let old := s.potAt u.lane x
    let new_ := newEntry u old
    let s := if !u.keep && (potPart new_ != potPart old || potSec new_ != potSec old) then s.clearMem u.lane a (a + 4096) else s
    s.setPot u.lane x new_

/-- An update completes; one that names a page outside the table, or sets REPL against R536, changes nothing. -/
def State.updDone (s : State) (u : PotUpd) : State :=
  let s := { s with potUpds := s.potUpds.filter (fun x => x != u) }
  let s := if s.updOk u then (updPages u).foldl (fun s a => s.updPage u a) s
    else s.setBitF u.lane R.POT_STATUS F.POT_STATUS_UPD_ERR true
  let s := s.setBitF u.lane R.POT_STATUS F.POT_STATUS_BUSY (s.potUpds.any (fun x => x.lane == u.lane && !x.region))
  match u.lsn with
  | some n => if s.potUpds.any (fun x => x.lsn == some n) then s else s.done n
  | none => s

def State.updStart (s : State) (u : PotUpd) : State :=
  let s := { s with potUpds := s.potUpds ++ [u] }
  if u.region then s else s.setBitF u.lane R.POT_STATUS F.POT_STATUS_BUSY true

/-- A write of POT_UPD_ENTRY by the secure world; GO starts the update, and is ignored while one runs. -/
def execPotUpdateGo (l : Lane) (who : Initiator) (value : Word) (s : State) : Out :=
  if who.world ≠ .secure then .next s.busErr
  else okBus <|
    let go := getF value F.POT_UPD_ENTRY_GO == 1
    let busy := s.bit l R.POT_STATUS F.POT_STATUS_BUSY
    let s := s.setReg l R.POT_UPD_ENTRY (value &&& 0x000303FF)
    let n := s.fld l R.POT_UPD_CNT F.POT_UPD_CNT_PAGES
    if !go || busy || n == 0 then .next s
    else
      let a := (s.reg l R.POT_UPD_ADDR_LO).toNat + 2 ^ 32 * s.fld l R.POT_UPD_ADDR_HI F.POT_UPD_ADDR_HI_ADDR
      .next (s.updStart { lane := l, addr := a, pages := n, entry := getF value F.POT_UPD_ENTRY_ENTRY,
                          keep := getF value F.POT_UPD_ENTRY_KEEP == 1,
                          replOnly := getF value F.POT_UPD_ENTRY_REPL_ONLY == 1, region := false, lsn := none })

/-- The update that runs in a lane is complete. -/
def execPotUpdateDone (l : Lane) (s : State) : Out :=
  .next (match s.potUpds.find? (fun u => u.lane == l && !u.region) with
    | some u => s.updDone u
    | none => s)

/-- Pages that a lane's table marks replicated (R138). -/
def State.replPages (s : State) (l : Lane) : Nat :=
  let isle := s.regs.filter (fun c => decide (regKey l.ix (R.POT_ENT 0) ≤ c.1) && decide (c.1 < regKey l.ix (R.POT_ENT 2304)))
  let lo := isle.filter (fun c => c.2.toNat.testBit 8)
  let hi := isle.filter (fun c => c.2.toNat.testBit 24)
  let lp := s.mem.filter (fun c => decide (memKey l potLpBase ≤ c.1) && decide (c.1 < memKey l potLpBase + 0x200000) &&
    c.1 % 2 == 1 && c.2.toNat.testBit 0)
  lo.length + hi.length + lp.length

/-! ### Copies over the Strait (R548) -/

def execStraitCopyDone (lsn : Nat) (s : State) : Out :=
  .next (match s.copies.find? (fun c => c.lsn == lsn && c.started) with
    | some c =>
      if !s.bit c.lane R.FERRY_LANE F.FERRY_LANE_STRAIT_UP || s.lst .E == stSYNCING || s.lst .W == stSYNCING then s
      else
        let s := { s with copies := s.copies.filter (fun x => x.lsn != lsn) }
        let s := (List.range c.pages).foldl (fun s i =>
          let a := c.addr + 4096 * i
          s.setBytes c.lane.other a (s.bytes c.lane a 4096)) s
        s.done lsn
    | none => s)

/-- What waits for a lane's cycle boundary. -/
def State.iovBoundary (s : State) (l : Lane) : State :=
  let s := (s.commits.filter (fun c => c.block == 18 && c.lane == l)).foldl State.applyIov s
  let s := (s.commits.filter (fun c => c.block == 20 && c.lane == l)).foldl State.applyLstp s
  let s := (s.vfOps.filter (fun v => v.lane == l)).foldl State.vfApply s
  let s := (s.potUpds.filter (fun u => u.lane == l && u.region)).foldl State.updDone s
  { s with copies := s.copies.map (fun c => if c.lane = l then { c with started := true } else c) }

/-! ### Lock-step (R521, R525) -/

/-- A mismatch of a pair: counted and recorded, and CORE in the lane. -/
def State.lstepMismatch (s : State) (l : Lane) (pair window : Nat) (injected : Bool) : State :=
  let s := s.countFld l (R.LSTP_PAIR_STAT pair) F.LSTP_PAIR_STAT_MISMATCHES
  let s := s.setReg l R.LSTP_LAST (setF (setF (setF 0 F.LSTP_LAST_PAIR pair) F.LSTP_LAST_INJECTED (b2n injected))
    F.LSTP_LAST_WINDOW window)
  s.laneReset l .core 0x50 pair

def execLockstepMismatch (l : Lane) (pair window : Nat) (s : State) : Out :=
  .next (if decide (pair < 5) && s.bit l (R.LSTP_PAIR_STAT pair) F.LSTP_PAIR_STAT_COMPARING then
      s.lstepMismatch l pair window false
    else s)

/-- An injected fault; the count of the window it falls in is open. -/
def State.inject (s : State) (l : Lane) (pair : Nat) : State := s.tickFree.lstepMismatch l pair s.freeNat true

def execLstpInjectWrite (l : Lane) (who : Initiator) (value : Word) (s : State) : Out :=
  let k := getF value F.LSTP_INJECT_PAIR
  if who.world ≠ .secure then .next s.busErr
  else .next ((if getF value F.LSTP_INJECT_KEY = 0x1C5E ∧ k < 5 then s.inject l k else s).busOk 0)

/-! ### Memory accesses (R36, R37, R531 to R533) -/

/-- The outcome of an access in memory that answers. -/
def State.memDo (s : State) (a : MemAcc) : State :=
  if a.write then { s.setBytes a.lane a.addr (padTo a.len a.data) with bus := .ok 0 }
  else { s with bus := .bytes (s.bytes a.lane a.addr a.len) }

/-- An access against the page-owner table. -/
def State.memPot (s : State) (a : MemAcc) (x : PotIx) : State :=
  if inPotRam a.addr then s.busErr
  else if a.mMode || potAllows (s.potAt a.lane x) a.world a.part then s.memDo a
  else (s.potDeny a.lane a.addr a.part a.world a.init a.chan a.write).busErr

/-- A core's or DMA channel's access, of 1 to 64 bytes within one page. Registers are reached by the register commands. -/
def execMemAccess (a : MemAcc) (s : State) : Out :=
  .next (if a.len = 0 then s
    else if a.addr % 4096 + a.len > 4096 ∨ 64 < a.len then s.busErr
    else match potIx a.addr with
      | some x => s.memPot a x
      | none =>
        if inRom a.addr || inNor a.addr then (if a.write then s.busErr else s.memDo a)
        else if inEngineMram a.addr then
          (if !a.write && (a.init == 12 || (a.mMode && decide (a.init < 8))) then s.memDo a else s.busErr)
        else s.busErr)

/-! ### Commands (Tables 17.8 and 17.9) -/

def chiefOnly (_ : State) (r : Req) : Bool := r.src.isChief

/-- A lane's shadow with a command's values over it. -/
def State.overView (s : State) (l : Lane) (ws : List RegCell) (a : Nat) : Word := (cellsGet ws a).getD (s.shadow l a)

/-- A command's configuration of the lanes it names; each copy carries the entry. -/
def State.commitLanes (s : State) (ls : List Lane) (block region : Nat) (ws : List RegCell) (lsn : Nat) : State :=
  ls.foldl (fun s l => (s.writeShadows l ws).addCommit block region l ws [lsn] false) s

def specPartStatus : CmdSpec :=
  { opcode := 0x0A00, accepted := false, lenOk := fun r => r.length == 1, maxResp := 16,
    param := fun _ r => decide (r.u8 0 ≤ 63),
    answer := fun s r =>
      let one := fun l => wordBytes (s.reg l (R.IOV_FN_CFG (r.u8 0))) ++ wordBytes (s.reg l (R.IOV_FN_STATE (r.u8 0)))
      one .E ++ one .W }

/-- FLAGS as they take effect: EN and REPL of the PF are fixed at 1. -/
def fnFlags (r : Req) : Nat := if r.u8 0 = 0 then setBit (setBit (r.u8 2) 0) 1 else r.u8 2

def fnCells (r : Req) : List RegCell :=
  let f := r.u8 0
  [(R.IOV_FN_CFG f, BitVec.ofNat 32 (fnFlags r + 0x10000 * r.u16 4)), (R.IOV_FN_QTO f, BitVec.ofNat 32 (r.u16 6 - 1)),
   (R.IOV_FN_GATP f 0, r.w 8), (R.IOV_FN_GATP f 1, r.w 12), (R.IOV_FN_MAC_LO f, r.w 16), (R.IOV_FN_MAC_HI f, r.w 20)]

def specFuncConfig : CmdSpec :=
  { opcode := 0x0A01, accepted := true, lenOk := fun r => r.length == 24, perm := chiefOnly,
    param := fun s r =>
      let f := r.u8 0
      decide (f ≤ 63) && lanesOk (r.u8 1) && decide (r.u8 2 < 8) && r.u8 3 == 0 && decide (1 ≤ r.u16 6 ∧ r.u16 6 ≤ 1024) &&
        (!((fnFlags r).testBit 1 || s.replicated f) || r.u8 1 == 3) &&
        (lanesOf (r.u8 1)).all (fun l => fnCfgOk (s.overView l (fnCells r)) f),
    stateOk := fun s r =>
      let f := r.u8 0
      (lanesOf (r.u8 1)).all (fun l =>
        s.fnSt l f == fQUIESCED || s.fnSt l f == fDISABLED ||
          ((fnFlags r).testBit 0 && (fnFlags r).testBit 1 == s.bit l (R.IOV_FN_CFG f) F.IOV_FN_CFG_REPL)),
    exec := fun s r lsn => s.commitLanes (lanesOf (r.u8 1)) 18 (r.u8 0) (fnCells r) lsn }

def queueCells (r : Req) : List RegCell :=
  let q := r.u16 2
  [(R.IOV_Q_CFG q, r.w 4), (R.IOV_Q_SQBASE q 0, r.w 8), (R.IOV_Q_SQBASE q 1, r.w 12), (R.IOV_Q_CQBASE q 0, r.w 16),
   (R.IOV_Q_CQBASE q 1, r.w 20)]

def specQueueConfig : CmdSpec :=
  { opcode := 0x0A02, accepted := true, lenOk := fun r => r.length == 24, perm := chiefOnly,
    param := fun s r => lanesOk (r.u8 0) && r.u8 1 == 0 && decide (r.u16 2 ≤ 255) &&
      (lanesOf (r.u8 0)).all (fun l => s.qCfgOk l (s.overView l (queueCells r)) (r.u16 2)),
    exec := fun s r lsn => s.commitLanes (lanesOf (r.u8 0)) 18 (64 + r.u16 2) (queueCells r) lsn }

/-- Pages of a command, by first address and count. -/
def cmdPages (addr n : Nat) : List Nat := (List.range n).map (fun i => addr + 4096 * i)

def pageRunOk (addr n : Nat) : Bool :=
  addr % 4096 == 0 && decide (1 ≤ n ∧ n ≤ 1048576) && (cmdPages addr n).all (fun a => (potIx a).isSome)

/-- Both lanes' tables give each page to function `f`. -/
def State.ownedBoth (s : State) (f addr n : Nat) : Bool :=
  (cmdPages addr n).all (fun a =>
    match potIx a with
    | none => false
    | some x => [Lane.E, Lane.W].all (fun l =>
        let e := s.potAt l x
        potValid e && !potSec e && potPart e == f))

/-- Pages of a declaration that are not yet declared. -/
def State.newRepl (s : State) (addr n : Nat) : Nat :=
  ((cmdPages addr n).filter (fun a =>
    match potIx a with
    | some x => !potRepl (s.potAt .E x)
    | none => false)).length

def specReplRegion : CmdSpec :=
  { opcode := 0x0A03, accepted := true, lenOk := fun r => r.length == 16, perm := chiefOnly,
    param := fun s r => decide (r.u8 0 ≤ 63) && decide (1 ≤ r.u8 1 ∧ r.u8 1 ≤ 2) && r.u16 2 == 0 &&
      pageRunOk (r.u 4 8) (r.u32 12) && s.replicated (r.u8 0) && s.ownedBoth (r.u8 0) (r.u 4 8) (r.u32 12) &&
      (r.u8 1 == 2 || decide (s.replPages .E + s.newRepl (r.u 4 8) (r.u32 12) ≤ 16384)),
    exec := fun s r lsn => [Lane.E, Lane.W].foldl (fun (s : State) l =>
      s.updStart { lane := l, addr := r.u 4 8, pages := r.u32 12, entry := if r.u8 1 = 1 then 256 else 0, keep := true,
                   replOnly := true, region := true, lsn := some lsn }) s }

/-- A command of Table 17.6, at the next cycle boundary of the lanes it names. -/
def specVf (opcode kind st : Nat) : CmdSpec :=
  { opcode := opcode, accepted := true, lenOk := fun r => r.length == 2, perm := chiefOnly,
    param := fun _ r => lanesOk (r.u8 0) && decide (1 ≤ r.u8 1 ∧ r.u8 1 ≤ 63),
    stateOk := fun s r => (lanesOf (r.u8 0)).all (fun l => s.fnSt l (r.u8 1) == st),
    exec := fun s r lsn => { s with vfOps := s.vfOps ++ (lanesOf (r.u8 0)).map (fun l => VfOp.mk kind l (r.u8 1) lsn) } }

def specVfQuiesce : CmdSpec := specVf 0x0A04 0 fENABLED
def specVfReset : CmdSpec := specVf 0x0A05 1 fQUIESCED
def specVfRemove : CmdSpec := specVf 0x0A06 2 fQUIESCED

/-- Slots that may be granted (R549). -/
def grantable : List Nat := [2, 6, 7, 8, 9, 10, 11, 12, 13, 14, 15, 16, 17]

def specExpertGrant : CmdSpec :=
  { opcode := 0x0A07, accepted := true, lenOk := fun r => r.length == 4, perm := chiefOnly,
    param := fun s r => lanesOk (r.u8 0) && decide (r.u8 1 ≤ 63) && r.u8 3 == 0 && grantable.contains (r.u8 2) &&
      (lanesOf (r.u8 0)).all (fun l => s.fnSt l (r.u8 1) == fENABLED &&
        (s.bench l || (s.replicated (r.u8 1) && r.u8 0 == 3))),
    stateOk := fun s r => !s.grants.any (fun g => g.block == r.u8 2 && (lanesOf (r.u8 0)).contains g.lane && g.fn != r.u8 1),
    exec := fun s r lsn =>
      let new_ := (lanesOf (r.u8 0)).filter (fun l => !s.grants.any (fun g => g.block == r.u8 2 && g.lane == l))
      if new_ = [] then s.done lsn
      else ({ s with grants := s.grants ++ new_.map (fun l => Grant.mk (r.u8 2) l (r.u8 1) lsn false) }).settleGrants }

def specExpertRelease : CmdSpec :=
  { opcode := 0x0A08, accepted := true, lenOk := fun r => r.length == 4, perm := chiefOnly,
    param := fun _ r => lanesOk (r.u8 0) && decide (r.u8 1 ≤ 63) && r.u8 3 == 0 && decide (r.u8 2 ≤ 24),
    stateOk := fun s r => (lanesOf (r.u8 0)).all (fun l =>
      s.grants.any (fun g => g.block == r.u8 2 && g.lane == l && g.fn == r.u8 1 && g.standing)),
    exec := fun s r lsn => (s.endGrants (fun g => g.block == r.u8 2 && (lanesOf (r.u8 0)).contains g.lane &&
      g.fn == r.u8 1)).done lsn }

def specDirtySwap : CmdSpec :=
  { opcode := 0x0A09, accepted := true, lenOk := fun r => r.length == 2, perm := chiefOnly,
    param := fun _ r => lanesOk (r.u8 0) && decide (r.u8 1 ≤ 63),
    exec := fun s r lsn => ((lanesOf (r.u8 0)).foldl (fun s l =>
      let a := R.IOV_FN_STATE (r.u8 1)
      s.setBitF l a F.IOV_FN_STATE_DIRTY_SEL (!s.bit l a F.IOV_FN_STATE_DIRTY_SEL)) s).done lsn }

def specPageOwner : CmdSpec :=
  { opcode := 0x0A0A, accepted := true, lenOk := fun r => r.length == 20, perm := fun _ r => isSecureSender r,
    param := fun _ r => lanesOk (r.u8 0) && r.u 1 3 == 0 && pageRunOk (r.u 4 8) (r.u32 12) && decide (r.u16 16 < 1024) &&
      decide (r.u8 18 < 2) && r.u8 19 == 0,
    exec := fun s r lsn => (lanesOf (r.u8 0)).foldl (fun (s : State) l =>
      s.updStart { lane := l, addr := r.u 4 8, pages := r.u32 12, entry := r.u16 16, keep := r.u8 18 == 1,
                   replOnly := false, region := false, lsn := some lsn }) s }

def pairWord (r : Req) : Word := BitVec.ofNat 32 (r.u8 3 + 0x100 * r.u8 2)

/-- A pair that a replicated function or the secure world holds, or is to hold, changes in both lanes. -/
def State.pairBoth (s : State) (w : Word) : Bool :=
  getF w F.LSTP_PAIR_CFG_EN == 1 && (getF w F.LSTP_PAIR_CFG_SEC == 1 || s.replicated (getF w F.LSTP_PAIR_CFG_FUNC))

def specPairAssign : CmdSpec :=
  { opcode := 0x0A0B, accepted := true, lenOk := fun r => r.length == 4,
    perm := fun _ r => r.src.isChief && (!(r.u8 3).testBit 1 || isSecureSender r),
    param := fun s r => lanesOk (r.u8 0) && decide (r.u8 1 ≤ 3) && decide (r.u8 2 ≤ 63) && decide (r.u8 3 < 4) &&
      (r.u8 0 == 3 || !(s.pairBoth (pairWord r) ||
        (lanesOf (r.u8 0)).any (fun l => s.pairBoth (s.reg l (R.LSTP_PAIR_CFG (r.u8 1)))))) &&
      (lanesOf (r.u8 0)).all (fun l => s.pairOk l (r.u8 1) (pairWord r)),
    exec := fun s r lsn => s.commitLanes (lanesOf (r.u8 0)) 20 (r.u8 1) [(R.LSTP_PAIR_CFG (r.u8 1), pairWord r)] lsn }

def specLstepStatus : CmdSpec :=
  { opcode := 0x0A0C, accepted := false, lenOk := fun r => r.length == 0, maxResp := 48,
    answer := fun s _ =>
      let one := fun l => wordBytes (s.reg l R.LSTP_STATUS) ++
        ((List.range 5).map (fun k => wordBytes (s.reg l (R.LSTP_PAIR_STAT k)))).flatten
      one .E ++ one .W }

/-- A lane out of RESET and BOOT. -/
def State.laneOut (s : State) (l : Lane) : Bool := s.lst l != stRESET && s.lst l != stBOOT

def specLstepTest : CmdSpec :=
  { opcode := 0x0A0D, accepted := true, lenOk := fun r => r.length == 2, perm := fun _ r => isSecureSender r,
    param := fun _ r => (r.u8 0 == 1 || r.u8 0 == 2) && decide (r.u8 1 ≤ 4),
    laneOk := fun s r => (lanesOf (r.u8 0)).all s.laneOut,
    exec := fun s r lsn =>
      let l := if r.u8 0 = 1 then Lane.E else Lane.W
      ({ s with lstepTests := s.lstepTests ++ [(lsn, l)] }).inject l (r.u8 1) }

def specStraitCopy : CmdSpec :=
  { opcode := 0x0A0E, accepted := true, lenOk := fun r => r.length == 16, perm := chiefOnly,
    param := fun s r => decide (r.u8 0 ≤ 63) && r.u 1 3 == 0 && decide (1 ≤ r.u32 12 ∧ r.u32 12 ≤ 16384) &&
      pageRunOk (r.u 4 8) (r.u32 12) && !s.replicated (r.u8 0) && s.ownedBoth (r.u8 0) (r.u 4 8) (r.u32 12),
    laneOk := fun s r => s.laneOut r.lane.other,
    exec := fun s r lsn => { s with copies := s.copies ++ [StraitCopy.mk lsn r.lane (r.u 4 8) (r.u32 12) false] } }

def execPartStatus (r : Req) (s : State) : Out := runScs specPartStatus r s
def execFuncConfig (r : Req) (s : State) : Out := runScs specFuncConfig r s
def execQueueConfig (r : Req) (s : State) : Out := runScs specQueueConfig r s
def execReplRegion (r : Req) (s : State) : Out := runScs specReplRegion r s
def execVfQuiesce (r : Req) (s : State) : Out := runScs specVfQuiesce r s
def execVfReset (r : Req) (s : State) : Out := runScs specVfReset r s
def execVfRemove (r : Req) (s : State) : Out := runScs specVfRemove r s
def execExpertGrant (r : Req) (s : State) : Out := runScs specExpertGrant r s
def execExpertRelease (r : Req) (s : State) : Out := runScs specExpertRelease r s
def execDirtySwap (r : Req) (s : State) : Out := runScs specDirtySwap r s
def execPageOwner (r : Req) (s : State) : Out := runScs specPageOwner r s
def execPairAssign (r : Req) (s : State) : Out := runScs specPairAssign r s
def execLstepStatus (r : Req) (s : State) : Out := runScs specLstepStatus r s
def execLstepTest (r : Req) (s : State) : Out := runScs specLstepTest r s
def execStraitCopy (r : Req) (s : State) : Out := runScs specStraitCopy r s

end Sys2Proof.Machine
end

