-- ==== Sys2Proof/Machine/Lhs.lean ====
section
/-! DEFINITION. The Lighthouse (spec/18): manifests and tokens, fuses, the key store's commands, attestation, world
attributes, ownership and power management, sensor events, the 0x0Bxx commands. -/

namespace Sys2Proof.Machine

def bothLanes : List Lane := [.E, .W]

/-! ### Manifests (Table 18.4, R561) -/

def manMAGIC : Nat := 0x4D345A4C
def manLen : Nat := 18128
def manKeyIdx (m : List Byte) : Nat := fieldAt m 6 1
def manKind (m : List Byte) : Nat := fieldAt m 7 1
def manSvnIdx (m : List Byte) : Nat := fieldAt m 8 1
def manSvn (m : List Byte) : Nat := fieldAt m 9 1
def manCount (m : List Byte) : Nat := fieldAt m 10 1

def State.kpProg (s : State) (l : Lane) (j : Nat) : Bool := s.bit l (R.LHS_KP j) F.LHS_KP_PROG
def State.kpLive (s : State) (l : Lane) (j : Nat) : Bool := s.kpProg l j && !s.bit l (R.LHS_KP j) F.LHS_KP_REVOKED
/-- No pair is programmed: in MANUFACTURE the test pair stands in. -/
def State.testPair (s : State) (l : Lane) : Bool := s.lifecycle l == 1 && !([0, 1, 2, 3].any (s.kpProg l))

/-- Step 1 of R561, of a manifest of a kind; a token names this module. -/
def State.manStep1 (s : State) (l : Lane) (m : List Byte) (kinds : List Nat) (token : Bool) : Bool :=
  let uid := (List.range 16).map Config.uid
  fieldAt m 0 4 == manMAGIC && fieldAt m 4 2 == 1 && kinds.contains (manKind m) &&
    (slice m 12 16 == uid || (!token && allZero (slice m 12 16))) && decide (manKeyIdx m ≤ 3) &&
    (s.kpLive l (manKeyIdx m) || s.testPair l) && decide (manSvnIdx m ≤ 7) && decide (manCount m ≤ 16) && fieldAt m 11 1 == 0

def State.svn (s : State) (l : Lane) (k : Nat) : Nat :=
  getF (s.reg l (if k < 4 then R.LHS_SVN0 else R.LHS_SVN1)) ⟨8 * (k % 4) + 7, 8 * (k % 4)⟩

/-- Step 5. -/
def State.manSvnOk (s : State) (l : Lane) (m : List Byte) : Bool := decide (s.svn l (manSvnIdx m) ≤ manSvn m)

/-- A nonce that LHS_NONCE issued to a sender last, unused and at most 10 s old. -/
def State.nonceOk (s : State) (l : Lane) (stream : Nat) (n : List Byte) : Bool :=
  match (s.sec l).nonces.find? (fun x => x.1 == stream) with
  | some x => x.2.1 == n && decide (s.now ≤ x.2.2 + 10000000)
  | none => false

/-- A token passes R561; the hashes and signatures are facts of the request. -/
def tokenOk (kind : Nat) (s : State) (r : Req) : Bool :=
  let l := s.holderOr r.lane
  r.sigOk && s.manStep1 l r.payload [kind] true && manCount r.payload == 0 &&
    s.nonceOk l (s.streamOf r.lane r.src) (slice r.payload 32 8)

/-- A token's nonce is used up. -/
def State.useNonce (s : State) (r : Req) : State :=
  let st := s.streamOf r.lane r.src
  let one := fun (s : State) (l : Lane) =>
    s.setSec l { s.sec l with nonces := (s.sec l).nonces.filter (fun x => x.1 != st) }
  one (one s .E) .W

/-- A token that fails verification counts as an authentication failure (R565). -/
def noteToken (s : State) (_ : Req) (st : Nat) : State := if st = SCS_E_SIG then s.authFail else s

/-! ### Lifecycle (Tables 18.1 and 18.2) -/

def lcTo (r : Req) : Nat := fieldAt r.payload 28 1

def State.lcAllowed (s : State) (l : Lane) (dest : Nat) : Bool :=
  match s.lifecycle l, dest with
  | 1, 2 => s.kpProg l 0
  | 2, 3 => true
  | 2, 4 => true
  | 3, 4 => true
  | 1, 5 => true
  | 2, 5 => true
  | 3, 5 => true
  | 4, 5 => true
  | _, _ => false

/-- Whether a transition needs a lifecycle token. -/
def lcToken (from_ dest : Nat) : Bool := !(from_ == 1 && (dest == 2 || dest == 5))

/-! ### Fuses (R555, R557, R577, R591) -/

def eFUSE_FAIL : Nat := 0x0B04

/-- Lanes whose fuses a burn reaches: those that run. -/
def State.burnLanes (s : State) : List Lane := bothLanes.filter s.laneOut

def State.burnLc (s : State) (dest : Nat) : State :=
  let s := s.burnLanes.foldl (fun s l =>
    let s := s.setSec l { s.sec l with fuse := dest }
    (s.setBitF l R.LHS_STATUS F.LHS_STATUS_LC_PENDING true).setFld l R.LHS_STATUS F.LHS_STATUS_LC_TARGET dest) s
  let s := if dest = 4 ∨ dest = 5 then s.beforeErase.eraseAll else s
  if dest = 5 then s.forEach [0, 1, 2, 3] (fun s k => (s.clearKey .E k).clearKey .W k) else s

def State.burnSvn (s : State) (k v : Nat) : State :=
  s.burnLanes.foldl (fun s l =>
    s.setFld l (if k < 4 then R.LHS_SVN0 else R.LHS_SVN1) ⟨8 * (k % 4) + 7, 8 * (k % 4)⟩ (max v (s.svn l k))) s

def State.burn (s : State) (b : Burn) : State :=
  match b with
  | .lifecycle dest => s.burnLc dest
  | .pair j hs => s.burnLanes.foldl (fun s l =>
      (s.setSec l { s.sec l with hashes := (j, hs) :: (s.sec l).hashes.filter (fun p => p.1 != j) }).setBitF l (R.LHS_KP j)
        F.LHS_KP_PROG true) s
  | .revoke j => s.burnLanes.foldl (fun s l => s.setBitF l (R.LHS_KP j) F.LHS_KP_REVOKED true) s
  | .svn k v => s.burnSvn k v

/-- A confirmed update is IDLE: the old bank stays until the next UPD_BEGIN (Table 19.3). -/
def State.confirmed (s : State) : State :=
  let s := (s.setUpdSt 0).countBoth (R.UPD_CNT 4)
  s.setFldBoth R.UPD_STATUS F.UPD_STATUS_CONFIRM_LEFT 0

/-- The fuses of both lanes are burnt, or a fuse fails to program; UPD_CONFIRM then leaves the trial (R595). -/
def execFuseBurnDone (lsn : Nat) (ok : Bool) (s : State) : Out :=
  .next (match s.fuseOps.find? (fun o => o.lsn == lsn) with
    | none => s
    | some o =>
      let s := { s with fuseOps := s.fuseOps.filter (fun x => x.lsn != lsn) }
      if ok then
        let s := (s.burn o.burn).done lsn
        match o.burn with
        | .svn _ _ => if s.upd.st = uTRIAL then s.confirmed else s
        | _ => s
      else s.failed lsn eFUSE_FAIL)

/-! ### Boot (R556, R559, R562) -/

/-- The boot ROM matches a later lifecycle of the other lane (R556). -/
def State.lcRepair (s : State) (l : Lane) : State :=
  let other := (s.sec l.other).fuse
  if s.fld l R.RSTC_RST_CAUSE F.RSTC_RST_CAUSE_LEVEL = 3 ∧ s.bit l R.FERRY_LANE F.FERRY_LANE_STRAIT_UP = true ∧
      (s.sec l).fuse < other then
    let s := s.setSec l { s.sec l with fuse := other }
    let s := s.setFld l R.LHS_STATUS F.LHS_STATUS_LIFECYCLE other
    s.setBitF l R.LHS_STATUS F.LHS_STATUS_LC_REPAIRED true
  else s

/-- Hardware keys are rebuilt (Table 18.3): slot 0 holds a seed and slot 3 an AES key; the spec gives the private keys of
slots 1 and 2 no TYPE code: a free value each. A persistent slot whose tag fails stays empty (R559). -/
def State.loadKeys (s : State) (l : Lane) (lost : List Nat) : State :=
  if s.lifecycle l = 5 then s
  else
    let t1 := s.freeNat % 8
    let s := s.tickFree
    let t2 := s.freeNat % 8
    let s := s.tickFree
    let s := ((s.setReg l (R.LHS_KEY_INFO 0) 0x7).setReg l (R.LHS_KEY_INFO 1) (BitVec.ofNat 32 (1 + 2 * t1))).setReg l
      (R.LHS_KEY_INFO 2) (BitVec.ofNat 32 (1 + 2 * t2))
    let s := s.setReg l (R.LHS_KEY_INFO 3) 0x3
    let bad := lost.filter (fun k => decide (8 ≤ k ∧ k < 256) && s.bit l (R.LHS_KEY_INFO k) F.LHS_KEY_INFO_VALID)
    if bad = [] then s
    else (bad.foldl (fun s k => s.clearKey l k) s).setBitF l R.LHS_STATUS F.LHS_STATUS_KEY_LOST true

def State.laneBank (s : State) (l : Lane) (b : Nat) : BankRt := if b = 0 then (s.sec l).bankA else (s.sec l).bankB

def State.setLaneBank (s : State) (l : Lane) (b : Nat) (x : BankRt) : State :=
  if b = 0 then s.setSec l { s.sec l with bankA := x } else s.setSec l { s.sec l with bankB := x }

/-- The active bank of a lane. -/
def State.setActive (s : State) (l : Lane) (b : Nat) : State :=
  (s.setSec l { s.sec l with bank := b }).setFld l R.UPD_STATUS F.UPD_STATUS_ACTIVE_BANK b

/-! ### The key store (R559, R560) -/

/-- The operation that runs completes in both stores; an erase takes with it the writes not begun. -/
def execKeyStoreOpDone (s : State) : Out :=
  .next (match s.keyOps with
    | [] => s
    | o :: os =>
      let s := { s with keyOps := os }
      if o.erase then
        let s := s.failWrites
        (s.forEach ((List.range o.count).map (fun i => o.slot + i)) State.eraseKey).done o.lsn
      else (s.putKey o.slot o.info o.key).done o.lsn)

/-! ### World attributes (R567) -/

/-- Attribute bits of a register that belong to resources on die `d`. -/
def wattrMask (d a : Nat) : Word :=
  let bits := fun (n base : Nat) (die : Nat → Nat) =>
    BitVec.ofNat 32 (((List.range 32).filter (fun i => decide (base + i < n) && die (base + i) == d)).foldl
      (fun (m : Nat) i => m + 2 ^ i) 0)
  if a = R.LHS_WATTR_PC 0 then bits 48 0 pcDie
  else if a = R.LHS_WATTR_PC 1 then bits 48 32 pcDie
  else if a = R.LHS_WATTR_GD then bits 16 0 gdDie
  else if R.LHS_WATTR_FC 0 ≤ a ∧ a < R.LHS_WATTR_FC 8 then
    bits 256 (8 * (a - R.LHS_WATTR_FC 0)) (fun n => 2 + fcDie n)
  else if a = R.LHS_WATTR_PW then bits 24 0 (fun _ => 5)
  else 0

def isResAttr (a : Nat) : Bool := decide (0xE1501000 ≤ a ∧ a < 0xE1501038)

/-- A COMMIT copy of a lane's LHS: what a boundary applies, and what each die's frames carry. -/
def State.commitLhs (s : State) (l : Lane) (ws : List RegCell) (lsns : List Nat) : State :=
  let here := ws.filter (fun c => !isResAttr c.1)
  let s := if here = [] then s else s.addCommit 21 0 l here lsns false
  s.forEach [0, 1, 2, 3, 4, 5] (fun s d =>
    let mine := ws.filter (fun c => wattrMask d c.1 != 0)
    if mine = [] then s else s.addCommit 21 (1 + d) l mine lsns false)

/-- A command's configuration of the Lighthouses; the holder's copy carries the entry. -/
def State.commitLhsBoth (s : State) (ws : List RegCell) (lsn : Nat) : State :=
  let h := s.holderOr .E
  let s := (s.writeShadows .E ws).writeShadows .W ws
  (s.commitLhs h.other ws []).commitLhs h ws [lsn]

/-- A die has taken the attributes of its resources. -/
def State.applyAttr (s : State) (c : Commit) : State :=
  let s := (s.dropCommit c).setNum { s.commitNum c.block c.region with applied := c.num }
  let s := c.writes.foldl (fun (s : State) w =>
    let m := wattrMask (c.region - 1) w.1
    s.setReg c.lane w.1 ((s.reg c.lane w.1 &&& ~~~m) ||| (w.2 &&& m))) s
  s.settleAll c.lsns

def State.attrFrame (s : State) (d : Die) : State :=
  (s.commits.filter (fun c => c.block == 21 && c.region == 1 + d.ix && c.carried)).foldl State.applyAttr s

def keyServes (s : State) (l : Lane) (k useBit : Nat) : Bool :=
  s.bit l (R.LHS_KEY_INFO k) F.LHS_KEY_INFO_VALID && (s.fld l (R.LHS_KEY_INFO k) F.LHS_KEY_INFO_USAGE).testBit useBit

/-- A sensor's new configuration against the one in force; in FIELD it is not weakened (R573). -/
def evtOk (field : Bool) (old new_ : Word) : Bool :=
  let f := fun (w : Word) (g : Fld) => getF w g
  decide (f new_ F.LHS_EVT_CFG_RESP ≤ 4) &&
    (!field || (decide (f old F.LHS_EVT_CFG_RESP ≤ f new_ F.LHS_EVT_CFG_RESP) &&
      decide (f new_ F.LHS_EVT_CFG_THR_M1 ≤ f old F.LHS_EVT_CFG_THR_M1) &&
      decide (f new_ F.LHS_EVT_CFG_WINDOW_S_M1 ≤ f old F.LHS_EVT_CFG_WINDOW_S_M1)))

def chkLhs (s : State) (c : Commit) : Bool :=
  let w := s.after c R.LHS_CFG
  (getF w F.LHS_CFG_RESET_EN == 0 || keyServes s c.lane (getF w F.LHS_CFG_RESET_SLOT) 1) &&
    (List.range 8).all (fun k =>
      evtOk (s.lifecycle c.lane == 3) (s.reg c.lane (R.LHS_EVT_CFG k)) (s.after c (R.LHS_EVT_CFG k)))

def State.applyLhs (s : State) (c : Commit) : State :=
  s.applyCommit (chkLhs s c) R.LHS_STATUS F.LHS_STATUS_CFG_INCONSISTENT eCFG_REJECTED c

/-! ### Ownership and power management (R569 to R571) -/

def eOWNER_CHANGED : Nat := 0x0B02

/-- Blocks that can be gated (by slot). -/
def gateSlots : List Nat := [9, 10, 15, 16, 18, 22]
def isCore (t : Nat) : Bool := decide (t < 8)
def isPair (t : Nat) : Bool := decide (8 ≤ t ∧ t < 12)
def isGateBlock (t : Nat) : Bool := decide (0x20 ≤ t) && gateSlots.contains (t - 0x20)
def pmTarget (t : Nat) : Bool := isCore t || isPair t || isGateBlock t

def State.secOwned (s : State) (l : Lane) (t : Nat) : Bool :=
  if isCore t then (s.reg l R.LHS_OWN).toNat.testBit t
  else if isPair t then
    s.bit l (R.LSTP_PAIR_CFG (t - 8)) F.LSTP_PAIR_CFG_EN && s.bit l (R.LSTP_PAIR_CFG (t - 8)) F.LSTP_PAIR_CFG_SEC
  else (s.reg l R.LHS_OWNB).toNat.testBit (t - 0x20)

/-- Ownership written in the active set and the shadow. -/
def State.setOwner (s : State) (l : Lane) (t : Nat) (secure : Bool) : State :=
  let a := if isCore t then R.LHS_OWN else R.LHS_OWNB
  let i := if isCore t then t else t - 0x20
  let upd := fun (w : Word) => BitVec.ofNat 32 (if secure then setBit w.toNat i else clearBit w.toNat i)
  (s.setReg l a (upd (s.reg l a))).setShadow l a (upd (s.shadow l a))

/-- A target's clock and power (ACTION of LHS_PMREQ). -/
def State.pmAct (s : State) (l : Lane) (t action : Nat) : State :=
  let x := s.sec l
  let less := fun (xs : List Nat) => xs.filter (fun y => y != t)
  let x := match action with
    | 1 => { x with gated := t :: less x.gated }
    | 2 => { x with gated := less x.gated }
    | 3 => { x with off := t :: less x.off }
    | _ => { x with off := less x.off }
  (s.setSec l x).syncPairs l

def State.syncPend (s : State) (l : Lane) : State :=
  s.setBitF l R.LHS_PMSTAT F.LHS_PMSTAT_PENDING (s.pmReqs.any (fun q => q.lane == l))

def State.endIf (s : State) (lsn : Nat) : State :=
  if s.pmReqs.any (fun q => q.lsn == some lsn) || s.ownOps.any (fun o => o.lsn == lsn) then s else s.done lsn

/-- A change of owner at a boundary: a claim ungates and powers its target. -/
def State.ownApply (s : State) (o : OwnOp) : State :=
  if o.claim || o.zeroed then
    let s := { s with ownOps := s.ownOps.filter (fun x => x != o) }
    let s := s.setOwner o.lane o.target o.claim
    let s := if o.claim then (s.pmAct o.lane o.target 2).pmAct o.lane o.target 4 else s
    s.endIf o.lsn
  else s

/-- A request at a boundary: discarded where its target has become secure-owned, else applied. -/
def State.pmApply (s : State) (q : PmReq) : State :=
  let s := ({ s with pmReqs := s.pmReqs.filter (fun x => x != q) }).syncPend q.lane
  if q.world = .normal ∧ s.secOwned q.lane q.target = true then
    let s := s.policy q.lane 2 q.target q.part q.world
    match q.lsn with
    | some n => s.failed n eOWNER_CHANGED
    | none => s
  else
    let s := s.pmAct q.lane q.target q.action
    match q.lsn with
    | some n => s.endIf n
    | none => s

/-- What a lane's Lighthouse does at a cycle boundary: changes of owner, then requests, then commits. -/
def State.lhsBoundary (s : State) (l : Lane) : State :=
  let s := (s.ownOps.filter (fun o => o.lane == l)).foldl State.ownApply s
  let s := (s.pmReqs.filter (fun q => q.lane == l)).foldl State.pmApply s
  (s.commits.filter (fun c => c.block == 21 && c.region == 0 && c.lane == l)).foldl State.applyLhs s

/-- The secure state of a released target is zeroed. -/
def execOwnerReleaseDone (l : Lane) (target : Nat) (s : State) : Out :=
  .next { s with ownOps := s.ownOps.map (fun o =>
    if o.lane = l ∧ o.target = target ∧ o.claim = false then { o with zeroed := true } else o) }

/-- A request joins those that wait. -/
def State.pmWait (s : State) (q : PmReq) : State := { s with pmReqs := s.pmReqs ++ [q] }

/-- A write to LHS_PMREQ, from any world (R553, R569). -/
def execLhsPmreqWrite (l : Lane) (who : Initiator) (value : Word) (s : State) : Out :=
  let t := getF value F.LHS_PMREQ_TARGET
  let act := getF value F.LHS_PMREQ_ACTION
  let part := match who with
    | .func f => f
    | _ => 0
  okBus <| .next (if !pmTarget t || act = 0 || 4 < act then s.setBitF l R.LHS_PMSTAT F.LHS_PMSTAT_PM_DENIED true
    else if who.world = .normal ∧ s.secOwned l t = true then
      (s.setBitF l R.LHS_PMSTAT F.LHS_PMSTAT_PM_DENIED true).policy l 1 t part who.world
    else (s.pmWait { lane := l, world := who.world, part := part, target := t, action := act, lsn := none }).syncPend l)

/-! ### Sensors (R572 to R574) -/

/-- An event of a sensor in a lane, or of the Commons in both; in SLEEP the always-on logic watches two of them. -/
def execTamperEvent (l : Option Lane) (sensor : Nat) (s : State) : Out :=
  .next (if 8 ≤ sensor then s
    else if s.mod_.asleep then
      (if sensor = sVGLITCH ∨ sensor = sMESH then
        bothLanes.foldl (fun s k => s.setReg k R.LHS_EVT_AON
          (BitVec.ofNat 32 (setBit (s.reg k R.LHS_EVT_AON).toNat sensor))) s
      else s)
    else match l with
      | some l => s.tamper l sensor
      | none => (s.tamper .E sensor).tamper .W sensor)

/-- At wake a Lighthouse takes the latched events (R574). -/
def State.takeAon (s : State) (l : Lane) : State :=
  let m := (s.reg l R.LHS_EVT_AON).toNat
  s.forEach (maskBits 8 m) (fun s k => s.tamper l k)

/-! ### Attestation (R566) -/

def attestReport (s : State) (l : Lane) (r : Req) : List Byte :=
  let x := s.sec l
  let st := s.reg l R.LHS_STATUS
  let flags := s.fld l R.LSTP_STATUS F.LSTP_STATUS_LSTEP_BROKEN + 2 * s.fld l R.LSTP_STATUS F.LSTP_STATUS_DBG_ATTACHED +
    4 * getF st F.LHS_STATUS_DBG_UNLOCKED + 8 * getF st F.LHS_STATUS_BOOT_FALLBACK + 16 * getF st F.LHS_STATUS_ERASED_ALL +
    32 * getF st F.LHS_STATUS_KEY_LOST + 256 * s.fld l R.LHS_BOOT F.LHS_BOOT_KEY_IDX
  let meas := x.meas.take 32
  leBytes 2 1 ++ leBytes 1 l.ix ++ leBytes 1 (s.lifecycle l) ++ leBytes 4 0x4C5A41B0 ++ (List.range 16).map Config.uid ++
    r.bytes 4 32 ++ leBytes 8 s.calSec ++ leBytes 4 (s.reg l R.LHS_SVN0).toNat ++ leBytes 4 (s.reg l R.LHS_SVN1).toNat ++
    leBytes 4 flags ++ ((List.range 8).map (fun k => leBytes 2 (s.fld l (R.LHS_EVT_CNT k) F.LHS_EVT_CNT_COUNT))).flatten ++
    leBytes 1 meas.length ++ leBytes 3 0 ++
    (meas.map (fun m => leBytes 2 m.1 ++ leBytes 1 m.2.1 ++ leBytes 1 0 ++ padTo 48 m.2.2)).flatten

def laneArg (n : Nat) : Lane := if n = 1 then .W else .E

/-- The report is signed and written to the response buffer; the signatures are free bytes. -/
def execAttestReportDone (lsn : Nat) (s : State) : Out :=
  .next (match s.entry lsn with
    | some e =>
      if e.opcode = 0x0B02 ∧ e.st = .executing then
        let rep := attestReport s (laneArg (e.req.u8 0)) e.req ++ s.freeBytes (384 + 35664)
        let s := s.tickFree
        let s := if buffersOwned s e.req then s.putResp e.req (rep.take e.req.outCap) else s
        s.done lsn
      else s
    | none => s)

/-! ### Commands (Tables 18.10 and 18.11) -/

def smbOnly (_ : State) (r : Req) : Bool := isSecureSender r

def specLhsStatus : CmdSpec :=
  { opcode := 0x0B00, accepted := false, lenOk := fun r => r.length == 0, lenPar := true, maxResp := 24,
    answer := fun s r =>
      let l := (s.servedBy r.lane).getD r.lane
      let w := fun a k => wordBytes (s.reg k a)
      w R.LHS_STATUS .E ++ w R.LHS_BOOT .E ++ w R.LHS_STATUS .W ++ w R.LHS_BOOT .W ++ w R.LHS_SVN0 l ++ w R.LHS_SVN1 l }

/-- The nonce is drawn: free bytes. -/
def specLhsNonce : CmdSpec :=
  { opcode := 0x0B01, accepted := false, lenOk := fun r => r.length == 0, lenPar := true, maxResp := 8,
    effect := fun s r =>
      let st := s.streamOf r.lane r.src
      let n := s.freeBytes 8
      let one := fun (s : State) (l : Lane) =>
        s.setSec l { s.sec l with nonces := (st, n, s.now) :: (s.sec l).nonces.filter (fun x => x.1 != st) }
      (one (one s .E) .W).tickFree,
    answer := fun s _ => s.freeBytes 8 }

def specAttest : CmdSpec :=
  { opcode := 0x0B02, accepted := true, lenOk := fun r => r.length == 36, lenPar := true, maxResp := 37808,
    param := fun _ r => decide (r.u8 0 ≤ 1) && r.u 1 3 == 0, laneOk := fun s r => s.laneOut (laneArg (r.u8 0)) }

/-- The attestation public keys of a lane and their certificate. -/
def attestKeys (l : Lane) : List Byte :=
  let n := Config.certLen l.ix % 8193
  (List.range 432).map (Config.attestByte l.ix) ++ leBytes 4 n ++ (List.range n).map (fun i => Config.attestByte l.ix (432 + i))

def specAttestKeys : CmdSpec :=
  { opcode := 0x0B03, accepted := false, lenOk := fun r => r.length == 1, lenPar := true, maxResp := 8628,
    param := fun _ r => decide (r.u8 0 ≤ 1), laneOk := fun s r => s.laneOut (laneArg (r.u8 0)),
    answer := fun _ r => attestKeys (laneArg (r.u8 0)) }

def specKeyWrite : CmdSpec :=
  { opcode := 0x0B04, accepted := true, lenOk := fun r => r.length == 36, lenPar := true, perm := smbOnly,
    lifecycle := fun s r => decide (s.lifecycle (s.holderOr r.lane) ≤ 3),
    param := fun _ r => decide (8 ≤ r.u8 0) && decide (1 ≤ r.u8 1 ∧ r.u8 1 ≤ 2) && decide (r.u8 2 < 16) && decide (r.u8 3 < 2),
    exec := fun s r lsn =>
      let info := 1 + 2 * r.u8 1 + 16 * r.u8 3 + 256 * r.u8 2
      { s with keyOps := s.keyOps ++ [KeyOp.mk lsn false (r.u8 0) 1 info (r.bytes 4 32)] } }

def specKeyErase : CmdSpec :=
  { opcode := 0x0B05, accepted := true, lenOk := fun r => r.length == 2, lenPar := true, perm := smbOnly,
    param := fun _ r => decide (8 ≤ r.u8 0) && decide (1 ≤ r.u8 1) && decide (r.u8 0 + r.u8 1 ≤ 256),
    exec := fun s r lsn => { s with keyOps := s.keyOps ++ [KeyOp.mk lsn true (r.u8 0) (r.u8 1) 0 []] } }

/-- First register and size of a class of resources. -/
def attrClass (c : Nat) : Nat × Nat :=
  match c with
  | 1 => (R.LHS_WATTR_PC 0, 48)
  | 2 => (R.LHS_WATTR_GD, 16)
  | 3 => (R.LHS_WATTR_FC 0, 256)
  | 4 => (R.LHS_WATTR_PW, 24)
  | 5 => (R.LHS_WATTR_DMAE 0, 64)
  | _ => (R.LHS_WATTR_DMAW 0, 64)

def attrCells (s : State) (r : Req) : List RegCell :=
  let c := attrClass (r.u8 0)
  let h := s.holderOr r.lane
  let mine := fun n => decide (r.u8 1 ≤ n ∧ n < r.u8 1 + r.u16 2)
  let ws := (List.range ((c.2 + 31) / 32)).filter (fun w => (List.range 32).any (fun i => mine (32 * w + i)))
  ws.map (fun w =>
    let old := (s.shadow h (c.1 + 4 * w)).toNat
    (c.1 + 4 * w, BitVec.ofNat 32 ((List.range 32).foldl (fun (v : Nat) i =>
      if mine (32 * w + i) then (if r.u8 4 = 1 then setBit v i else clearBit v i) else v) old)))

def specWorldSet : CmdSpec :=
  { opcode := 0x0B06, accepted := true, lenOk := fun r => r.length == 8, lenPar := true, perm := smbOnly,
    param := fun _ r => decide (1 ≤ r.u8 0 ∧ r.u8 0 ≤ 6) && decide (1 ≤ r.u16 2) &&
      decide (r.u8 1 + r.u16 2 ≤ (attrClass (r.u8 0)).2) && decide (r.u8 4 ≤ 1) && r.u 5 3 == 0,
    exec := fun s r lsn => s.commitLhsBoth (attrCells s r) lsn }

/-- A target whose ownership OWN_SET sets; a pair's is set by its assignment (R529). -/
def ownTarget (t : Nat) : Bool := isCore t || isGateBlock t

def specOwnSet : CmdSpec :=
  { opcode := 0x0B07, accepted := true, lenOk := fun r => r.length == 4, lenPar := true, perm := smbOnly,
    param := fun _ r => lanesOk (r.u8 0) && ownTarget (r.u8 1) && decide (1 ≤ r.u8 2 ∧ r.u8 2 ≤ 2) && r.u8 3 == 0,
    exec := fun s r lsn =>
      { s with ownOps := s.ownOps ++ (lanesOf (r.u8 0)).map (fun l => OwnOp.mk l (r.u8 1) (r.u8 2 == 1) false lsn) } }

def specPmRequest : CmdSpec :=
  { opcode := 0x0B08, accepted := true, lenOk := fun r => r.length == 4, lenPar := true, polSource := 1,
    world := fun s r =>
      if r.world = .normal ∧ pmTarget (r.u8 1) = true ∧ (lanesOf (r.u8 0)).any (fun l => s.secOwned l (r.u8 1)) = true
      then some (r.u8 1) else none,
    param := fun _ r => lanesOk (r.u8 0) && pmTarget (r.u8 1) && decide (1 ≤ r.u8 2 ∧ r.u8 2 ≤ 4) && r.u8 3 == 0,
    exec := fun s r lsn =>
      let qs := (lanesOf (r.u8 0)).map (fun l => PmReq.mk l r.world r.src.part (r.u8 1) (r.u8 2) (some lsn))
      (({ s with pmReqs := s.pmReqs ++ qs }).syncPend .E).syncPend .W }

def evtWord (r : Req) : Word := BitVec.ofNat 32 (r.u8 1 + 0x100 * (r.u16 2 - 1) + 0x10000 * (r.u16 4 - 1))

def specEventConfig : CmdSpec :=
  { opcode := 0x0B09, accepted := true, lenOk := fun r => r.length == 6, lenPar := true, perm := smbOnly,
    param := fun s r => decide (r.u8 0 ≤ 7) && decide (1 ≤ r.u16 2 ∧ r.u16 2 ≤ 256) &&
      decide (1 ≤ r.u16 4 ∧ r.u16 4 ≤ 4096) && decide (r.u8 1 ≤ 4) &&
      evtOk (s.lifecycle (s.holderOr r.lane) == 3) (s.reg (s.holderOr r.lane) (R.LHS_EVT_CFG (r.u8 0))) (evtWord r),
    exec := fun s r lsn => s.commitLhsBoth [(R.LHS_EVT_CFG (r.u8 0), evtWord r)] lsn }

def specEventLog : CmdSpec :=
  { opcode := 0x0B0A, accepted := false, lenOk := fun r => r.length == 2, lenPar := true, maxResp := 108, perm := smbOnly,
    param := fun _ r => decide (r.u8 0 ≤ 15) && decide (r.u8 1 ≤ 9) && decide (r.u8 0 + r.u8 1 ≤ 16),
    answer := fun s r =>
      let l := (s.servedBy r.lane).getD r.lane
      wordBytes (s.reg l R.LHS_EVT_LAST) ++ ((List.range 8).map (fun k => wordBytes (s.reg l (R.LHS_EVT_CNT k)))).flatten ++
        s.regBytes l (R.LHS_POL (r.u8 0) 0) (2 * r.u8 1) }

def specLcTransition : CmdSpec :=
  { opcode := 0x0B0B, accepted := true, lenOk := fun r => r.length == manLen, lenPar := true, perm := smbOnly,
    lifecycle := fun s r =>
      let l := s.holderOr r.lane
      s.lcAllowed l (lcTo r) && !s.bit l R.LHS_STATUS F.LHS_STATUS_LC_PENDING,
    sigOk := fun s r => !lcToken (s.lifecycle (s.holderOr r.lane)) (lcTo r) || tokenOk 3 s r,
    onRefuse := noteToken, before := fun s r => s.useNonce r,
    exec := fun s r lsn => { s with fuseOps := s.fuseOps ++ [FuseOp.mk lsn (.lifecycle (lcTo r))] } }

def specDebugUnlock : CmdSpec :=
  { opcode := 0x0B0C, accepted := true, lenOk := fun r => r.length == manLen, lenPar := true,
    perm := fun _ r => isSecureSender r || r.isSession,
    lifecycle := fun s r => s.lifecycle (s.holderOr r.lane) == 3,
    param := fun _ r => lanesOk (r.u8 28) && decide (r.u8 29 < 8),
    sigOk := tokenOk 4, onRefuse := noteToken, before := fun s r => s.useNonce r,
    exec := fun s r lsn => ((lanesOf (r.u8 28)).foldl (fun (s : State) l =>
      (s.setSec l { s.sec l with scope := r.u8 29 }).setBitF l R.LHS_STATUS F.LHS_STATUS_DBG_UNLOCKED true) s).done lsn }

def specKeyHashSet : CmdSpec :=
  { opcode := 0x0B0D, accepted := true, lenOk := fun r => r.length == 100, lenPar := true, perm := smbOnly,
    lifecycle := fun s r => s.lifecycle (s.holderOr r.lane) == 1,
    param := fun _ r => decide (r.u8 0 ≤ 3) && r.u 1 3 == 0,
    stateOk := fun s r => !s.kpProg (s.holderOr r.lane) (r.u8 0),
    exec := fun s r lsn => { s with fuseOps := s.fuseOps ++ [FuseOp.mk lsn (.pair (r.u8 0) (r.bytes 4 96))] } }

def specKeyRevoke : CmdSpec :=
  { opcode := 0x0B0E, accepted := true, lenOk := fun r => r.length == 1, lenPar := true, perm := smbOnly,
    param := fun _ r => decide (r.u8 0 ≤ 3),
    stateOk := fun s r =>
      let l := s.holderOr r.lane
      let live := [0, 1, 2, 3].filter (s.kpLive l)
      live != [r.u8 0] && !bothLanes.any (fun k => s.bit k (R.LHS_KP (r.u8 0)) F.LHS_KP_IN_USE),
    exec := fun s r lsn => { s with fuseOps := s.fuseOps ++ [FuseOp.mk lsn (.revoke (r.u8 0))] } }

def specLhsConfig : CmdSpec :=
  { opcode := 0x0B0F, accepted := true, lenOk := fun r => r.length == 2, lenPar := true, perm := smbOnly,
    param := fun _ r => decide (r.u8 1 ≤ 1),
    stateOk := fun s r => r.u8 1 == 0 || keyServes s (s.holderOr r.lane) (r.u8 0) 1,
    exec := fun s r lsn => s.commitLhsBoth [(R.LHS_CFG, BitVec.ofNat 32 (r.u8 0 + 256 * r.u8 1))] lsn }

def execLhsStatus (r : Req) (s : State) : Out := runScs specLhsStatus r s
def execLhsNonce (r : Req) (s : State) : Out := runScs specLhsNonce r s
def execAttest (r : Req) (s : State) : Out := runScs specAttest r s
def execAttestKeys (r : Req) (s : State) : Out := runScs specAttestKeys r s
def execKeyWrite (r : Req) (s : State) : Out := runScs specKeyWrite r s
def execKeyErase (r : Req) (s : State) : Out := runScs specKeyErase r s
def execWorldSet (r : Req) (s : State) : Out := runScs specWorldSet r s
def execOwnSet (r : Req) (s : State) : Out := runScs specOwnSet r s
def execPmRequest (r : Req) (s : State) : Out := runScs specPmRequest r s
def execEventConfig (r : Req) (s : State) : Out := runScs specEventConfig r s
def execEventLog (r : Req) (s : State) : Out := runScs specEventLog r s
def execLcTransition (r : Req) (s : State) : Out := runScs specLcTransition r s
def execDebugUnlock (r : Req) (s : State) : Out := runScs specDebugUnlock r s
def execKeyHashSet (r : Req) (s : State) : Out := runScs specKeyHashSet r s
def execKeyRevoke (r : Req) (s : State) : Out := runScs specKeyRevoke r s
def execLhsConfig (r : Req) (s : State) : Out := runScs specLhsConfig r s

end Sys2Proof.Machine
end

