-- ==== Sys2Proof/Machine/Parish.lean ====
section
/-! DEFINITION. The parish register (spec/20): its records, their flush to MRAM and reload, temperature bins, thermal
cycles, wear, sessions, the calendar's registers, the 0x0Exx commands. -/

namespace Sys2Proof.Machine

def State.par (s : State) : Lane → ParRt
  | .E => s.parE
  | .W => s.parW

def State.setPar (s : State) (l : Lane) (x : ParRt) : State :=
  match l with
  | .E => { s with parE := x }
  | .W => { s with parW := x }

/-! ### Records and their slots (R597, R598) -/

def parLo : Nat := 0xE1700100
def parHi : Nat := 0xE1702000

/-- The records of a lane. -/
def State.parCells (s : State) (l : Lane) : List RegCell :=
  ((s.regs.filter (fun c => decide (regKey l.ix parLo ≤ c.1) && decide (c.1 < regKey l.ix parHi))).map
    (fun c => (c.1 % homeSpan, c.2)))

/-- The whole record goes to the next of 256 slots. -/
def State.parWrite (s : State) (l : Lane) : State :=
  let x := s.par l
  s.setPar l { x with slots := (s.parCells l :: x.slots).take 256, secs := 0 }

/-- A lane's parish registers at their reset values. -/
def State.clearPar (s : State) (l : Lane) : State :=
  { s with regs := rfReset s.regs (regKey l.ix parLo) (regKey l.ix parHi) }

/-- The records become those of the newest slot whose CRC passes; `bad` of the newest fail (R598). -/
def State.parLoad (s : State) (l : Lane) (bad : Nat) : State :=
  let x := s.par l
  let s := s.clearPar l
  let s := if 0 < bad ∧ x.slots ≠ [] then s.setBitF l R.PARI_STATUS F.PARI_STATUS_SLOT_BAD true else s
  let good := x.slots.drop bad
  let s := s.setPar l { x with slots := good, stack := [], turn := none, rising := false, secs := 0 }
  match good with
  | cs :: _ => cs.foldl (fun s c => s.setReg l c.1 c.2) s
  | [] => s

/-- A lane that reaches STANDBY keeps the higher of its own and the holder's shared-die records (R597). -/
def State.parCopy (s : State) (l h : Lane) : State :=
  s.forEach (List.range 64) (fun s i =>
    let u := fun (k : Lane) => u64Of (s.reg k) (R.PARI_CH i 1)
    let s := s.setReg l (R.PARI_CH i 0) (BitVec.ofNat 32 (max (s.reg l (R.PARI_CH i 0)).toNat (s.reg h (R.PARI_CH i 0)).toNat))
    let e := max (u l) (u h)
    let s := (s.setReg l (R.PARI_CH i 1) (BitVec.ofNat 32 e)).setReg l (R.PARI_CH i 2) (BitVec.ofNat 32 (e / 2 ^ 32))
    let half := fun (w : Nat) (f : Fld) => max (s.fld l (R.PARI_CH i w) f) (s.fld h (R.PARI_CH i w) f)
    let s := (s.setFld l (R.PARI_CH i 3) ⟨15, 0⟩ (half 3 ⟨15, 0⟩)).setFld l (R.PARI_CH i 3) ⟨31, 16⟩ (half 3 ⟨31, 16⟩)
    s.setFld l (R.PARI_CH i 4) ⟨15, 0⟩ (half 4 ⟨15, 0⟩))

/-! ### Wear (R601) -/

/-- Rated turn-ons and clamp energy in 0.1 mJ of a channel (Table 20.2). -/
def ratedTurns (i : Nat) : Nat := if i < 16 then 2000000 else if i < 48 then 5000000 else 10000000
def ratedClamp (i : Nat) : Nat := if i < 16 then 200000000 else 40000000

/-- WEAR in 0.01 %: the three fractions of the rated life, truncated as a whole. -/
def wearOf (i sw clamp trips : Nat) : Nat :=
  let t := ratedTurns i
  let c := ratedClamp i
  let clamp := if i < 48 then clamp else 0
  min 65535 (10000 * (sw * c * 10000 + clamp * t * 10000 + trips * t * c) / (t * c * 10000))

def State.parWear (s : State) (l : Lane) (i : Nat) : State :=
  let w3 := s.reg l (R.PARI_CH i 3)
  let trips := getF w3 ⟨15, 0⟩ + getF w3 ⟨31, 16⟩
  let w := wearOf i (s.reg l (R.PARI_CH i 0)).toNat (u64Of (s.reg l) (R.PARI_CH i 1)) trips
  s.setFld l (R.PARI_CH i 4) ⟨31, 16⟩ w

/-- WEAR_WARN of a lane. -/
def State.syncWear (s : State) (l : Lane) : State :=
  s.setBitF l R.PARI_STATUS F.PARI_STATUS_WEAR_WARN ((List.range 64).any (fun i =>
    decide (s.fld l R.PARI_CFG F.PARI_CFG_WEAR_THR ≤ s.fld l (R.PARI_CH i 4) ⟨31, 16⟩)))

/-- A lane counts what a status frame brings of one output (R596): turn-ons, clamp energy in 0.1 mJ, over-current trips,
thermal latches, wire trips. -/
def State.parTake (s : State) (l : Lane) (i : Nat) (t : Tally) : State :=
  if t = Tally.zero then s
  else
    let add := fun (s : State) (w : Nat) (f : Fld) (n : Nat) =>
      s.setFld l (R.PARI_CH i w) f (min (2 ^ fldWidth f - 1) (s.fld l (R.PARI_CH i w) f + n))
    let s := add s 0 ⟨31, 0⟩ t.turns
    let e := min (2 ^ 64 - 1) (u64Of (s.reg l) (R.PARI_CH i 1) + t.clamp)
    let s := if i < 48 then (s.setReg l (R.PARI_CH i 1) (BitVec.ofNat 32 e)).setReg l (R.PARI_CH i 2)
      (BitVec.ofNat 32 (e / 2 ^ 32)) else s
    let s := add (add (add s 3 ⟨15, 0⟩ t.trips) 3 ⟨31, 16⟩ t.therms) 4 ⟨15, 0⟩ t.wires
    (s.parWear l i).syncWear l

/-! ### Temperature (R599, R600) -/

/-- Readings in 1/16 °C. -/
def tBin (t : Int) : Nat :=
  if t < -480 then 0 else if 1760 ≤ t then 15 else ((t + 480) / 160).toNat + 1

/-- Bin of a range, none below 5 K. -/
def rangeBin (r : Int) : Option Nat :=
  if r < 80 then none else if r < 160 then some 0 else if r < 320 then some 1 else if r < 640 then some 2
  else if r < 960 then some 3 else if r < 1280 then some 4 else if r < 1600 then some 5 else if r < 1920 then some 6
  else some 7

def State.halfCycles (s : State) (l : Lane) (r : Int) (n : Nat) : State :=
  match rangeBin r with
  | some k => s.setReg l (R.PARI_TCYC k) (BitVec.ofNat 32 (min (2 ^ 32 - 1) ((s.reg l (R.PARI_TCYC k)).toNat + n)))
  | none => s

def absDiff (a b : Int) : Int := (a - b).natAbs

/-- The pairing of R600 on a stack with its top first: full cycles counted until none is left. -/
def State.rainflow (s : State) (l : Lane) : List Int → Nat → State × List Int
  | st, 0 => (s, st)
  | st, fuel + 1 =>
    match st with
    | c :: b :: a :: rest =>
      if absDiff b a ≤ absDiff c b then (s.halfCycles l (absDiff b a) 2).rainflow l (c :: rest) fuel else (s, st)
    | _ => (s, st)

def State.pushTurn (s : State) (l : Lane) (t : Int) : State :=
  let x := s.par l
  let r := s.rainflow l (t :: x.stack) (x.stack.length + 1)
  r.1.setPar l { r.1.par l with stack := r.2 }

/-- One reading: the lowest and highest since the last reversal; a turn back by 2 K from an extreme records it. -/
def State.parTemp (s : State) (l : Lane) (t : Int) : State :=
  let x := s.par l
  match x.turn with
  | none => s.setPar l { x with turn := some (t, t) }
  | some (lo, hi) =>
    let lo := min lo t
    let hi := max hi t
    if t ≤ hi - 32 ∧ (x.rising ∨ x.stack = []) then
      (s.pushTurn l hi).setPar l { (s.pushTurn l hi).par l with turn := some (t, t), rising := false }
    else if lo + 32 ≤ t ∧ (x.rising = false ∨ x.stack = []) then
      (s.pushTurn l lo).setPar l { (s.pushTurn l lo).par l with turn := some (t, t), rising := true }
    else s.setPar l { x with turn := some (lo, hi) }

/-- A lane runs: time is counted (R599). -/
def State.parRuns (s : State) (l : Lane) : Bool := (s.lane l).powered && s.laneOut l && !s.mod_.asleep

/-- Once per second, with the hottest case reading in 1/16 °C. -/
def execParishSecond (l : Lane) (temp : Int) (s : State) : Out :=
  .next (if s.parRuns l then
      let s := s.count l (R.PARI_TBIN (tBin temp))
      let s := s.setPar l { s.par l with secs := (s.par l).secs + 1 }
      s.parTemp l temp
    else s)

/-- Half-cycles of the reversals left on the stack, which keeps its last. -/
def State.flushStack (s : State) (l : Lane) : State :=
  let st := (s.par l).stack
  let s := (st.zip st.tail).foldl (fun s p => s.halfCycles l (absDiff p.1 p.2) 1) s
  s.setPar l { s.par l with stack := st.take 1 }

def State.parFlush (s : State) (l : Lane) : State := (s.flushStack l).parWrite l

/-- FLUSH_S_M1 + 1 seconds have passed (R598). -/
def execParishFlush (l : Lane) (s : State) : Out := .next (if s.parRuns l then s.parFlush l else s)

/-! ### The calendar's registers (R602) -/

/-- A read of PARI_CAL_LO latches PARI_CAL_HI; a read of PARI_CAL_HI gives what was latched. -/
def execPariCalRead (l : Lane) (hi : Bool) (s : State) : Out :=
  .next (if hi then s.busOk (s.reg l R.PARI_CAL_HI)
    else
      let t := s.calSec
      let s := (s.setReg l R.PARI_CAL_LO (BitVec.ofNat 32 t)).setFld l R.PARI_CAL_HI F.PARI_CAL_HI_SEC (t / 2 ^ 32)
      s.busOk (BitVec.ofNat 32 t))

/-! ### Commits -/

def chkPari (s : State) (c : Commit) : Bool := s.afterF c R.PARI_CFG F.PARI_CFG_WEAR_THR != 0

def State.applyPari (s : State) (c : Commit) : State :=
  let s := s.applyCommit (chkPari s c) R.PARI_STATUS F.PARI_STATUS_CFG_INCONSISTENT eCFG_REJECTED c
  s.syncWear c.lane

/-! ### Commands (Table 20.3, R604) -/

def specParStatus : CmdSpec :=
  { opcode := 0x0E00, accepted := false, lenOk := fun r => r.length == 1, maxResp := 32,
    param := fun _ r => decide (r.u8 0 ≤ 1),
    answer := fun s r =>
      let l := laneArg (r.u8 0)
      wordBytes (s.reg l R.PARI_STATUS) ++ leBytes 8 s.calSec ++ s.regBytes l R.PARI_SESS 5 }

def specParChannel : CmdSpec :=
  { opcode := 0x0E01, accepted := false, lenOk := fun r => r.length == 2, maxResp := 96,
    param := fun _ r => decide (r.u8 0 ≤ 63) && decide (1 ≤ r.u8 1 ∧ r.u8 1 ≤ 3) && decide (r.u8 0 + r.u8 1 ≤ 64),
    answer := fun s r => s.regBytes ((s.servedBy r.lane).getD r.lane) (R.PARI_CH (r.u8 0) 0) (8 * r.u8 1) }

def specParThermal : CmdSpec :=
  { opcode := 0x0E02, accepted := false, lenOk := fun r => r.length == 1, maxResp := 96,
    param := fun _ r => decide (r.u8 0 ≤ 1),
    answer := fun s r => s.regBytes (laneArg (r.u8 0)) (R.PARI_TBIN 0) 16 ++ s.regBytes (laneArg (r.u8 0)) (R.PARI_TCYC 0) 8 }

def specParResets : CmdSpec :=
  { opcode := 0x0E03, accepted := false, lenOk := fun r => r.length == 1, maxResp := 56,
    param := fun _ r => decide (r.u8 0 ≤ 1),
    answer := fun s r =>
      let l := laneArg (r.u8 0)
      s.regBytes l (R.PARI_RST 0) 11 ++ wordBytes (s.reg l R.PARI_ECC) ++ s.regBytes l (R.PARI_NOR 0) 2 }

/-- A 64-bit saturating sum in a register pair. -/
def State.addWh (s : State) (l : Lane) (a n : Nat) : State :=
  let v := min (2 ^ 64 - 1) (u64Of (s.reg l) a + n)
  (s.setReg l a (BitVec.ofNat 32 v)).setReg l (a + 4) (BitVec.ofNat 32 (v / 2 ^ 32))

def State.endSession (s : State) (l : Lane) (r : Req) : State :=
  (((s.setPar l { s.par l with open_ := false }).count l R.PARI_SESS).addWh l R.PARI_EIN_LO (r.u32 4)).addWh l R.PARI_EOUT_LO
    (r.u32 8)

def specParSession : CmdSpec :=
  { opcode := 0x0E04, accepted := true, lenOk := fun r => r.length == 12,
    param := fun _ r => decide (1 ≤ r.u8 0 ∧ r.u8 0 ≤ 2) && r.u 1 3 == 0 &&
      (r.u8 0 == 2 || (r.u32 4 == 0 && r.u32 8 == 0)),
    stateOk := fun s r => (s.par (s.holderOr r.lane)).open_ == (r.u8 0 == 2),
    exec := fun s r lsn =>
      let s := bothLanes.foldl (fun (s : State) l =>
        if r.u8 0 = 1 then s.setPar l { s.par l with open_ := true } else s.endSession l r) s
      s.done lsn }

def specParConfig : CmdSpec :=
  { opcode := 0x0E05, accepted := true, lenOk := fun r => r.length == 4, perm := chiefOnly,
    param := fun _ r => r.u16 2 != 0,
    exec := fun s r lsn => s.commitLocal 23 0 [(R.PARI_CFG, r.w 0)] lsn }

def specParCalSet : CmdSpec :=
  { opcode := 0x0E06, accepted := true, lenOk := fun r => r.length == 8, perm := chiefOnly,
    param := fun _ r => decide (r.u 0 8 < 2 ^ 40),
    stateOk := fun s r => !(s.bit (s.holderOr r.lane) R.PARI_CFG F.PARI_CFG_UTC_SYNC &&
      s.shBit (R.TIME_TB_STAT 0) F.TIME_TB_STAT_LOCKED),
    exec := fun s r lsn => (s.setCal (r.u 0 8) false).done lsn }

def execParStatus (r : Req) (s : State) : Out := runScs specParStatus r s
def execParChannel (r : Req) (s : State) : Out := runScs specParChannel r s
def execParThermal (r : Req) (s : State) : Out := runScs specParThermal r s
def execParResets (r : Req) (s : State) : Out := runScs specParResets r s
def execParSession (r : Req) (s : State) : Out := runScs specParSession r s
def execParConfig (r : Req) (s : State) : Out := runScs specParConfig r s
def execParCalSet (r : Req) (s : State) : Out := runScs specParCalSet r s

end Sys2Proof.Machine
end

