-- ==== Sys2Proof/Machine/Causeway.lean ====
section
/-! DEFINITION. Causeway (spec/15): windows and their checks, messages, accesses with their limits, prefetch blocks, the
error ring and fences, nodes, the 0x081x commands. -/

namespace Sys2Proof.Machine

/-! ### Windows -/

def cwNone : Nat := 0
def cwPRESENT : Nat := 1
def cwLOST : Nat := 2

def winF (g : Nat → Word) (w : Nat) (f : Fld) : Nat := getF (g (R.CWY_W_CFG w)) f
def rngStart (g : Nat → Word) (w r : Nat) : Nat := getF (g (R.CWY_W_RNG w r)) F.CWY_W_RNG_START
def rngLen (g : Nat → Word) (w r : Nat) : Nat := getF (g (R.CWY_W_RNG w r)) F.CWY_W_RNG_LEN
def rngPosted (g : Nat → Word) (w r : Nat) : Bool := getF (g (R.CWY_W_RNG w r)) F.CWY_W_RNG_POSTED == 1
def rngSef (g : Nat → Word) (w r : Nat) : Bool := getF (g (R.CWY_W_RNG w r)) F.CWY_W_RNG_SEF == 1
def winBase (g : Nat → Word) (w : Nat) : Nat := (g (R.CWY_W_RBASE w)).toNat / 0x2000 * 0x2000

/-- Two address ranges share an address. -/
def spansMeet (a n b m : Nat) : Bool := decide (0 < n ∧ 0 < m ∧ a < b + m ∧ b < a + n)

def rngs4 : List Nat := [0, 1, 2, 3]

def State.cwNode (s : State) (i : Nat) : Option CwNode := s.cw.nodes.find? (fun n => n.ix == i)

/-- Read-sensitive ranges of a node's capability record (R494). -/
def State.sensitive (s : State) (i : Nat) : List (Nat × Nat) :=
  match s.cwNode i with
  | some n => (n.ranges.filter (fun x => x.2.2)).map (fun x => (x.1, x.2.1))
  | none => []

/-- An SEF range overlaps a read-sensitive range of its node (R491). -/
def sefConflict (g : Nat → Word) (sens : Nat → List (Nat × Nat)) (w r : Nat) : Bool :=
  rngSef g w r && (sens (winF g w F.CWY_W_CFG_NODE)).any (fun x =>
    spansMeet (winBase g w + rngStart g w r) (rngLen g w r) x.1 x.2)

/-- A window's registers are consistent (R481, R491). -/
def winOk (g : Nat → Word) (sens : Nat → List (Nat × Nat)) (w : Nat) : Bool :=
  rngs4.all (fun r => decide (rngStart g w r + rngLen g w r ≤ 8192) &&
    rngs4.all (fun q => r == q || !spansMeet (rngStart g w r) (rngLen g w r) (rngStart g w q) (rngLen g w q))) &&
    (winF g w F.CWY_W_CFG_EN == 0 || !rngs4.any (sefConflict g sens w))

/-- The global registers are consistent. -/
def cwGlobalOk (g : Nat → Word) : Bool :=
  let rto := getF (g R.CWY_TIMING) F.CWY_TIMING_RTO
  let hold := getF (g R.CWY_TIMING) F.CWY_TIMING_HOLD_TO
  let hb := getF (g R.CWY_DISC) F.CWY_DISC_HB_MS
  getF (g R.CWY_CFG) F.CWY_CFG_UDP_PORT != 0 && decide (10 ≤ rto ∧ rto ≤ 10000) && decide (10 ≤ hold ∧ hold ≤ 10000) &&
    decide (10 ≤ hb ∧ hb ≤ 10000) && getF (g R.CWY_DISC) F.CWY_DISC_DISC_S != 0

/-- Regions of a CWY commit: a window by its number, the global registers at 64. -/
def cwRegion (a : Nat) : Nat :=
  let o := a % 0x100000
  if 0x4000 ≤ o ∧ o < 0x5000 then (o - 0x4000) / 0x40 else 64

def chkCw (s : State) (c : Commit) : Bool :=
  if c.region < 64 then winOk (s.after c) s.sensitive c.region else cwGlobalOk (s.after c)

def State.setCw (s : State) (x : CwRt) : State := { s with cw := x }
def State.modCw (s : State) (f : CwRt → CwRt) : State := { s with cw := f s.cw }

/-! ### Blocks (R489, R490) -/

def State.cwBlk (s : State) (l : Lane) (w : Nat) : Option CwBlk := s.cw.blks.find? (fun b => b.lane == l && b.win == w)

/-- A block is discarded; with a byte never read it counts, and its remote address is kept. -/
def State.dropBlk (s : State) (l : Lane) (w : Nat) : State :=
  match s.cwBlk l w with
  | none => s
  | some b =>
    let s := s.modCw (fun c => { c with blks := c.blks.filter (fun x => !(x.lane == l && x.win == w)) })
    if b.unread = [] then s
    else (s.count l (R.CWY_CNT 2)).setReg l (R.CWY_W_LAST_DISC w) (BitVec.ofNat 32 (winBase (s.reg l) w + b.base))

def State.dropBlks (s : State) (w : Nat) : State := (s.dropBlk .E w).dropBlk .W w

/-- A window's commit applies at a cycle boundary at which no access of it is outstanding, the global registers at any
(Table 1.7, R497); it discards the window's block (R490). -/
def State.applyCw (s : State) (c : Commit) : State :=
  let ok := chkCw s c
  let s := if c.region < 64 ∧ ok = true then s.dropBlk c.lane c.region else s
  let s := s.applyCommit ok R.CWY_STATUS F.CWY_STATUS_CFG_INCONSISTENT eCFG_REJECTED c
  if c.region < 64 ∧ ok = true then s.setBitF c.lane (R.CWY_W_STAT c.region) F.CWY_W_STAT_PREF_CONFLICT false else s

def State.cwIdle (s : State) (w : Nat) : Bool := s.cw.out.all (fun a => a.win != w)

/-! ### Messages (Table 15.3, R482) -/

/-- CRC-32C of a byte string. -/
def crcBit (c : Nat) : Nat := if c % 2 = 1 then (c / 2) ^^^ 0x82F63B78 else c / 2
def crcByte (c : Nat) (b : Byte) : Nat :=
  crcBit (crcBit (crcBit (crcBit (crcBit (crcBit (crcBit (crcBit (c ^^^ b.toNat))))))))
def crc32c (bs : List Byte) : Nat := (bs.foldl crcByte 0xFFFFFFFF) ^^^ 0xFFFFFFFF

def cwMessage (ty node win seq len addr : Nat) (data : List Byte) : List Byte :=
  let m := leBytes 1 1 ++ leBytes 1 ty ++ leBytes 1 node ++ leBytes 1 win ++ leBytes 2 seq ++ leBytes 2 len ++
    leBytes 4 addr ++ leBytes 4 0 ++ data
  m ++ leBytes 4 (crc32c m)

/-- Node ID of a node table index. -/
def State.cwNodeId (s : State) (l : Lane) (i : Nat) : Nat := (s.reg l (R.CWY_NODE i 0)).toNat / 256 % 256
def State.cwNodeSt (s : State) (l : Lane) (i : Nat) : Nat := (s.reg l (R.CWY_NODE i 0)).toNat % 4
/-- CAN port that carries a node's messages. -/
def State.nodeCan (s : State) (l : Lane) (i : Nat) : Option Nat :=
  let w := (s.reg l (R.CWY_NODE i 0)).toNat
  if w.testBit 2 then some (w / 16 % 16) else none

def State.winNode (s : State) (l : Lane) (w : Nat) : Nat := winF (s.reg l) w F.CWY_W_CFG_NODE

/-! ### Outstanding accesses (R484, R485) -/

/-- NP_OUT and P_OUT of a window follow the accesses outstanding. -/
def State.syncOut (s : State) (l : Lane) (w : Nat) : State :=
  let xs := s.cw.out.filter (fun a => a.lane == l && a.win == w)
  (s.setFld l (R.CWY_W_STAT w) F.CWY_W_STAT_NP_OUT (xs.filter (fun a => !a.posted)).length).setFld l (R.CWY_W_STAT w)
    F.CWY_W_STAT_P_OUT (xs.filter (fun a => a.posted)).length

/-- A piece of a relayed package is answered (R586, R587): ACKED counts the chunks whose last byte has been; any other end
stops the target, but for a change of holder, after which the piece is sent again. -/
def State.relayEnd (s : State) (a : CwAcc) (t status : Nat) : State :=
  let r := s.upd.relays.getD t ⟨0, 0, 0, 0, 0, [], [], 0, 0⟩
  let st := R.UPD_RELAY_STAT t
  if status = 0 then
    let r := { r with acked := r.acked + 1 }
    let n := (256 * r.acked - (18128 + 48 * s.upd.total)) / 32768
    let n := if r.acked = r.sent ∧ r.queue = [] then s.upd.total else n
    ({ s with upd := { s.upd with relays := s.upd.relays.set t r } }).setFldBoth st F.UPD_RELAY_STAT_ACKED n
  else if status = 0xFF02 then s.modCw (fun c => { c with wait := c.wait ++ [{ a with lane := a.lane.other }] })
  else ((s.setBitBoth st F.UPD_RELAY_STAT_FAILED true).setBitBoth st F.UPD_RELAY_STAT_ACTIVE false).setFldBoth st
    F.UPD_RELAY_STAT_ERR (status % 256)

/-- An access of a CW_WRITE or of a core ends: the core's wait ends with data or an error response, the entry reaches its
disposition (R484, R499). -/
def cwError (status : Nat) : Nat :=
  if status = 0xFF00 then 0x0816 else if status = 0xFF01 then 0x0817 else if status = 0xFF02 then eHOLDER_LOST
  else if status ≤ 4 then 0x0810 + status else 0x0815

def State.accEnd (s : State) (a : CwAcc) (status : Nat) (data : List Byte) : State :=
  match a.relay with
  | some t => s.relayEnd a t status
  | none =>
  match a.lsn with
  | some n => if status = 0 then s.done n else s.failed n (cwError status)
  | none =>
    if a.write && a.posted then s
    else
      let s := s.emit (.cwEnd a.origin a.fn a.win a.seq status data)
      if status = 0 then { s with bus := .bytes data } else s.busErr

/-- FENCED sets: the window's block is discarded (R488, R490). -/
def State.fence (s : State) (w : Nat) : State :=
  (s.setBitBoth (R.CWY_W_STAT w) F.CWY_W_STAT_FENCED true).dropBlks w

def State.fenced (s : State) (l : Lane) (w : Nat) : Bool := s.bit l (R.CWY_W_STAT w) F.CWY_W_STAT_FENCED

/-- A failed posted write: its record in the ring, the interrupt of the window's OWNER, the fence (R487, R488). -/
def State.errRecord (s : State) (a : CwAcc) (status : Nat) : State :=
  let g := s.reg a.lane
  let s :=
    if 64 ≤ s.cw.fill then s.setBitBoth R.CWY_STATUS F.CWY_STATUS_RING_OVF true
    else
      let j := s.fld .E R.CWY_ERR_TAIL F.CWY_ERR_TAIL_TAIL
      let put := fun (s : State) k v => s.setRegBoth (R.CWY_ERR j k) (BitVec.ofNat 32 v)
      let s := put (put (put s 0 (a.win + status * 65536)) 1 (winBase g a.win + a.ofs)) 2 (a.len + a.seq * 65536)
      let s := (s.setFldBoth R.CWY_ERR_TAIL F.CWY_ERR_TAIL_TAIL (j + 1)).countBoth (R.CWY_CNT 4)
      s.modCw (fun c => { c with fill := c.fill + 1 })
  let s := s.irq a.lane (some (winF g a.win F.CWY_W_CFG_OWNER)) (winF g a.win F.CWY_W_CFG_ERR_VEC)
  if winF g a.win F.CWY_W_CFG_FENCE_ON_ERROR = 1 then s.fence a.win else s

/-- An outstanding access leaves with a status. -/
def State.accClose (s : State) (a : CwAcc) (status : Nat) (data : List Byte) : State :=
  let s := s.modCw (fun c => { c with out := c.out.erase a })
  let s := s.syncOut a.lane a.win
  let s := s.accEnd a status data
  if a.posted && status != 0 then s.errRecord a status else s

/-! ### Sending (R485, R486, R488) -/

def State.nextSeq (s : State) (l : Lane) (w : Nat) : Nat :=
  match s.cw.seqs.find? (fun x => x.1 == 64 * l.ix + w) with
  | some x => x.2
  | none => 0

/-- Places of a window that an access needs: 16 non-posted, 256 posted. -/
def State.cwRoom (s : State) (a : CwAcc) : Bool :=
  let xs := s.cw.out.filter (fun x => x.lane == a.lane && x.win == a.win && x.posted == a.posted)
  decide (xs.length < if a.posted then 256 else 16)

/-- An access is sent and is outstanding. A write over the window's block discards it (R490). -/
def State.accSend (s : State) (a : CwAcc) : State :=
  let n := s.nextSeq a.lane a.win
  let a := { a with seq := n }
  let i := s.winNode a.lane a.win
  let base := winBase (s.reg a.lane) a.win
  let ty := if a.write then (if a.posted then 3 else 2) else 1
  let x := match a.block with
    | some b => b
    | none => (a.ofs, a.len)
  let m := cwMessage ty (s.cwNodeId a.lane i) a.win n x.2 (base + x.1) (if a.write then a.data else [])
  let s := s.modCw (fun c => { c with seqs := upsert Prod.fst (64 * a.lane.ix + a.win, (n + 1) % 65536) c.seqs,
                                       out := c.out ++ [a] })
  let s := s.emit (.cwMsg a.lane (s.cwNodeId a.lane i) ty a.win n m)
  let s := s.syncOut a.lane a.win
  match s.cwBlk a.lane a.win with
  | some b => if a.write && spansMeet a.ofs a.len b.base b.data.length then s.dropBlk a.lane a.win else s
  | none => s

/-- Causeway of a lane works. -/
def State.cwRuns (s : State) (l : Lane) : Bool :=
  s.forwards l && !(s.lane l).blocksInReset.contains 3 && s.blockOn l 16 && !s.mod_.frozen

/-- A lane's Causeway may send an access: as lease holder, or a read in an SEF range of a function of its own lane that
is not replicated (R492). -/
def State.cwMaySend (s : State) (a : CwAcc) : Bool :=
  s.cwRuns a.lane && (s.leaseValid a.lane || (a.block.isSome && a.origin == a.lane &&
    (match a.fn with
      | some f => !s.replicated f
      | none => true)))

/-- The first waiting access of a window that can go. -/
def State.cwPump (s : State) (w : Nat) : Nat → State
  | 0 => s
  | fuel + 1 =>
    match s.cw.wait.find? (fun a => a.win == w) with
    | none => s
    | some a =>
      if s.fenced a.lane w || !s.cwRoom a || !s.cwMaySend a || s.cwNodeSt a.lane (s.winNode a.lane w) == cwLOST then s
      else ((s.modCw (fun c => { c with wait := c.wait.erase a })).accSend a).cwPump w fuel

def State.cwPumpAll (s : State) (w : Nat) : State := s.cwPump w (s.cw.wait.length + 1)

/-- A new access: sent, or stalled behind the bounds, or held by a fence or by earlier accesses that wait. -/
def State.accNew (s : State) (a : CwAcc) : State :=
  let s := s.count a.lane (R.CWY_CNT 0)
  let behind := s.cw.wait.any (fun x => x.win == a.win && x.lane == a.lane)
  if !behind && !s.fenced a.lane a.win && s.cwRoom a && s.cwMaySend a then s.accSend a
  else
    let s := if s.cwRoom a then s else s.count a.lane (R.CWY_CNT 1)
    s.modCw (fun c => { c with wait := c.wait ++ [a] })

/-! ### Core accesses (R479, R480, R489, R492) -/

def cwAperture : Nat := 0xE1080000

def State.winOwned (s : State) (l : Lane) (w : Nat) (who : Initiator) : Bool :=
  let sec := winF (s.reg l) w F.CWY_W_CFG_OWNER_SEC == 1
  match who with
  | .func f => !sec && winF (s.reg l) w F.CWY_W_CFG_OWNER == f
  | _ => sec

/-- Function behind an initiator. -/
def Initiator.fn? (who : Initiator) : Option Nat :=
  match who with
  | .func f => some f
  | _ => none

/-- A denied access raises a policy-class event (R480); the spec names no source byte for its record, which is a free
value. -/
def State.cwDenied (s : State) (l : Lane) (w : Nat) (who : Initiator) : State :=
  let n := s.freeNat % 256
  (s.tickFree.policy l n w ((Initiator.fn? who).getD 0) who.world).busErr

/-- Why an access to a window ends at once: not in use or not an access of R479, denied, or its node lost. -/
inductive CwGate where
  | bad
  | denied
  | lost
  | open_
  deriving DecidableEq, Repr

def State.cwGate (s : State) (l : Lane) (w ofs size : Nat) (who : Initiator) : CwGate :=
  if !(decide (w < 64) && s.cwRuns l && winF (s.reg l) w F.CWY_W_CFG_EN == 1 && [1, 2, 4, 8].contains size &&
      ofs % size == 0) then .bad
  else if !s.winOwned l w who then .denied
  else if s.cwNodeSt l (s.winNode l w) = cwLOST then .lost
  else .open_

/-- An access that finds its node lost: NODE_LOST is set on the window (R495). -/
def State.cwLostEnd (s : State) (w : Nat) : State :=
  (s.setBitBoth (R.CWY_W_STAT w) F.CWY_W_STAT_NODE_LOST true).busErr

/-- Range of a window that holds a whole access. -/
def rangeAt (g : Nat → Word) (w ofs n : Nat) : Option Nat :=
  rngs4.find? (fun r => decide (rngStart g w r ≤ ofs ∧ ofs + n ≤ rngStart g w r + rngLen g w r))

/-- The block that a read in an SEF range fetches: aligned, of PREF_LEN bytes, clipped to the range (R489); none outside
the ranges that count as SEF (R491). -/
def State.blockAt (s : State) (l : Lane) (w ofs n : Nat) : Option (Nat × Nat) :=
  let g := s.reg l
  match rangeAt g w ofs n with
  | none => none
  | some r =>
    if rngSef g w r && !sefConflict g s.sensitive w r then
      let size := 32 * 2 ^ winF g w F.CWY_W_CFG_PREF_LEN
      let b := ofs / size * size
      let lo := max b (rngStart g w r)
      let hi := min (b + size) (rngStart g w r + rngLen g w r)
      some (lo, hi - lo)
    else none

/-- A read inside the block is served from it. -/
def State.blkRead (s : State) (l : Lane) (w ofs n : Nat) : Option (State × List Byte) :=
  match s.cwBlk l w with
  | none => none
  | some b =>
    if b.base ≤ ofs ∧ ofs + n ≤ b.base + b.data.length then
      let b' := { b with unread := b.unread.filter (fun o => !decide (ofs ≤ o ∧ o < ofs + n)) }
      some (s.modCw (fun c => { c with blks := c.blks.map (fun x => if x == b then b' else x) }),
        slice b.data (ofs - b.base) n)
    else none

/-- Lane whose Causeway an access goes through: a lane that is not the lease holder forwards to it, but for the reads that
it may send itself (R492). -/
def State.cwLaneOf (s : State) (l : Lane) (who : Initiator) (direct : Bool) : Lane :=
  let own := match Initiator.fn? who with
    | some f => !s.replicated f
    | none => true
  if direct && own then l else (s.leaseLane).getD l

/-- A replicated partition's access in the other lane waits for the holder's outcome (R492). -/
def State.cwFollows (s : State) (l : Lane) (who : Initiator) : Bool :=
  match Initiator.fn? who, s.leaseLane with
  | some f, some h => s.replicated f && h != l
  | _, _ => false

/-- A read that passed the window's checks: from a prefetched block, else over the Causeway (R481, R486). -/
def State.cwReadOpen (s : State) (l : Lane) (who : Initiator) (w ofs size : Nat) : State :=
  let blk := s.blockAt l w ofs size
  let e := s.cwLaneOf l who blk.isSome
  match (if blk.isSome && !s.fenced e w then s.blkRead e w ofs size else none) with
  | some x => { x.1.count e (R.CWY_CNT 0) with bus := .bytes x.2 }
  | none =>
    let s := { s with bus := .waiting }
    s.accNew { lane := e, origin := l, fn := Initiator.fn? who, lsn := none, win := w, seq := 0, write := false,
               posted := false, ofs := ofs, len := size, data := [], block := blk }

def execCwAccessRead (l : Lane) (who : Initiator) (addr size : Nat) (s : State) : Host.Outcome State Fault Refusal :=
  .next (
    let w := (addr - cwAperture) / 0x2000
    let ofs := (addr - cwAperture) % 0x2000
    if addr < cwAperture then s.busErr
    else match s.cwGate l w ofs size who with
    | .bad => s.busErr
    | .denied => s.cwDenied l w who
    | .lost => s.cwLostEnd w
    | .open_ => if s.cwFollows l who then { s with bus := .waiting } else s.cwReadOpen l who w ofs size)

/-- Writes in a POSTED range are posted (R481). -/
def postedAt (g : Nat → Word) (w ofs n : Nat) : Bool :=
  match rangeAt g w ofs n with
  | some r => rngPosted g w r
  | none => false

/-- A write that passed the window's checks goes over the Causeway; a posted one is complete for the sender at once. -/
def State.cwWriteOpen (s : State) (l : Lane) (who : Initiator) (w ofs size : Nat) (data : List Byte) : State :=
  let posted := postedAt (s.reg l) w ofs size
  let t := { s with bus := if posted then .bytes [] else .waiting }
  if s.cwFollows l who then t
  else t.accNew { lane := s.cwLaneOf l who false, origin := l, fn := Initiator.fn? who, lsn := none, win := w, seq := 0,
                  write := true, posted := posted, ofs := ofs, len := size, data := padTo size data, block := none }

def execCwAccessWrite (l : Lane) (who : Initiator) (addr size : Nat) (data : List Byte) (s : State) :
    Host.Outcome State Fault Refusal :=
  .next (
    let w := (addr - cwAperture) / 0x2000
    let ofs := (addr - cwAperture) % 0x2000
    if addr < cwAperture then s.busErr
    else match s.cwGate l w ofs size who with
    | .bad => s.busErr
    | .denied => s.cwDenied l w who
    | .lost => s.cwLostEnd w
    | .open_ => s.cwWriteOpen l who w ofs size data)

/-! ### Answers and timeouts (R483, R484, R485) -/

/-- A message from a node restarts its loss timer (R494). -/
def State.nodeHeard (s : State) (node : Nat) : State :=
  match (List.range 256).find? (fun i => s.cwNodeSt .E i != cwNone && s.cwNodeId .E i == node) with
  | some i => s.modCw (fun c => { c with nodes := c.nodes.map (fun n => if n.ix == i then { n with lastAt := s.now } else n) })
  | none => s

/-- A fetched block is kept, but with PREF_LIFE 0; the read that fetched it is served from it. -/
def State.blkInstall (s : State) (a : CwAcc) (b : Nat × Nat) (data : List Byte) : State :=
  let d := padTo b.2 data
  let got := (List.range b.2).map (· + b.1)
  let s := s.dropBlk a.lane a.win
  let blk : CwBlk := { lane := a.lane, win := a.win, base := b.1, data := d,
                       unread := got.filter (fun o => !decide (a.ofs ≤ o ∧ o < a.ofs + a.len)) }
  let s := s.modCw (fun c => { c with blks := c.blks ++ [blk] })
  if s.fld a.lane (R.CWY_W_PREF a.win) F.CWY_W_PREF_PREF_LIFE = 0 then s.dropBlk a.lane a.win else s

/-- A RESP of a read or a non-posted write. -/
def State.cwResp (s : State) (a : CwAcc) (status : Nat) (data : List Byte) : State :=
  if status ≠ 0 then s.accClose a status []
  else
    match a.block with
    | some b => (s.blkInstall a b data).accClose a 0 (slice (padTo b.2 data) (a.ofs - b.1) a.len)
    | none => s.accClose a 0 (if a.write then [] else padTo a.len data)

/-- Posted writes that an ACK answers: those up to its SEQ. -/
def ackCovers (seq : Nat) (a : CwAcc) : Bool := decide ((seq + 65536 - a.seq) % 65536 < 32768)

def execCwResponse (l : Lane) (node ty win seq status : Nat) (data : List Byte) (crcOk : Bool) (s : State) :
    Host.Outcome State Fault Refusal :=
  .next (
    if !s.cwRuns l then s
    else if !crcOk then s.count l (R.CWY_CNT 5)
    else
      let s := s.nodeHeard node
      let mine := fun (a : CwAcc) => a.lane == l && a.win == win && s.cwNodeId l (s.winNode l win) == node
      let s := match ty with
        | 4 => (match s.cw.out.find? (fun a => mine a && !a.posted && a.seq == seq) with
          | some a => s.cwResp a status data
          | none => s)
        | 5 => (match s.cw.out.find? (fun a => mine a && a.posted && a.seq == seq) with
          | some a => s.accClose a status []
          | none => s)
        | 6 => (s.cw.out.filter (fun a => mine a && a.posted && ackCovers seq a)).foldl (fun s a => s.accClose a 0 []) s
        | _ => s
      s.cwPumpAll win)

/-- The carrier port of a node fails: entries of its accesses end so (R499). -/
def State.accTimeout (s : State) (a : CwAcc) : State :=
  let bad := match s.nodeCan a.lane (s.winNode a.lane a.win) with
    | some n => s.canPhy n
    | none => false
  let s := match a.lsn with
    | some n => if bad then s.dispose n dUNDELIVERABLE ePORT_PHY else s
    | none => s
  (s.count a.lane (R.CWY_CNT 3)).accClose a 0xFF00 []

def execCwTimeout (l : Lane) (win seq : Nat) (s : State) : Host.Outcome State Fault Refusal :=
  .next (match s.cw.out.find? (fun a => a.lane == l && a.win == win && a.seq == seq) with
    | some a => if s.cwRuns l then (s.accTimeout a).cwPumpAll win else s
    | none => s)

/-- A stalled or held access that was not sent within HOLD_TO ends with an error response. -/
def execCwStallTimeout (win k : Nat) (s : State) : Host.Outcome State Fault Refusal :=
  .next (match (s.cw.wait.filter (fun a => a.win == win))[k]? with
    | some a =>
      if s.mod_.frozen then s
      else ((s.modCw (fun c => { c with wait := c.wait.erase a })).accEnd { a with posted := false } 0xFF00 []).cwPumpAll win
    | none => s)

def execPrefetchExpiry (l : Lane) (win : Nat) (s : State) : Host.Outcome State Fault Refusal :=
  .next (if s.cwRuns l then s.dropBlk l win else s)

/-! ### A change of holder (R493) -/

/-- Accesses of the old holder's Causeway that are outstanding end with HOLDER_LOST; blocks are discarded. -/
def State.cwHolderLost (s : State) (old : Lane) : State :=
  let xs := s.cw.out.filter (fun a => a.lane == old)
  let s := xs.foldl (fun s a =>
    let s := s.modCw (fun c => { c with out := c.out.erase a })
    let s := (s.syncOut a.lane a.win).countBoth (R.CWY_CNT 7)
    if a.posted then
      (s.accEnd a 0xFF02 []).errRecord { a with lane := old.other } 0xFF02 |>.fence a.win
    else s.accEnd a 0xFF02 []) s
  let s := s.modCw (fun c => { c with wait := c.wait.map (fun a => if a.lane == old then { a with lane := old.other } else a) })
  (List.range 64).foldl State.dropBlks s

/-! ### Fences and the error ring (R487, R488) -/

def State.unfence (s : State) (w : Nat) : State :=
  (s.setBitBoth (R.CWY_W_STAT w) F.CWY_W_STAT_FENCED false).cwPumpAll w

def execFenceAckWrite (l : Lane) (who : Initiator) (win : Nat) (s : State) : Host.Outcome State Fault Refusal :=
  .next (if win < 64 ∧ s.cwRuns l = true ∧ s.mayWrite l 16 who = true then (s.unfence win).busOk 0 else s.busErr)

/-- Records that a new HEAD consumes. -/
def State.setErrHead (s : State) (head : Nat) : State :=
  let old := s.fld .E R.CWY_ERR_HEAD F.CWY_ERR_HEAD_HEAD
  let n := (head + 64 - old) % 64
  (s.setFldBoth R.CWY_ERR_HEAD F.CWY_ERR_HEAD_HEAD head).modCw (fun c => { c with fill := c.fill - n })

def execCwErrHeadWrite (l : Lane) (who : Initiator) (head : Nat) (s : State) : Host.Outcome State Fault Refusal :=
  .next (if s.cwRuns l && s.mayWrite l 16 who then (s.setErrHead (head % 64)).busOk 0 else s.busErr)

/-! ### Nodes (R494, R495) -/

/-- DISCOVER goes out on each enabled carrier: UDP, and each CAN port enabled for XL. -/
def execDiscoverTimer (s : State) : Host.Outcome State Fault Refusal :=
  .next (match s.leaseLane with
    | some l =>
      if s.cwRuns l then
        let xs := 0 :: ((List.range 16).filter (fun n => s.canCfg n F.CAN_PCFG_XL_EN)).map (· + 1)
        xs.foldl (fun s _ => s.emit (.cwMsg l 0 0x10 0 0 (cwMessage 0x10 0 0 0 0 0 []))) s
      else s
    | none => s)

/-- Index of a node by its ID, else of the first free entry. -/
def State.nodeSlot (s : State) (node : Nat) : Option Nat :=
  match (List.range 256).find? (fun i => s.cwNodeSt .E i != cwNone && s.cwNodeId .E i == node) with
  | some i => some i
  | none => (List.range 256).find? (fun i => s.cwNodeSt .E i == cwNone)

def State.setNode (s : State) (i node : Nat) (port : Option Nat) (addr : List Word) (crc : Word) : State :=
  let w0 := cwPRESENT + (match port with
    | some p => 4 + 16 * (p % 16)
    | none => 0) + 256 * (node % 256)
  let a := (addr ++ [0, 0, 0, 0]).take 4
  let s := (s.setRegBoth (R.CWY_NODE i 0) (BitVec.ofNat 32 w0)).setRegBoth (R.CWY_NODE i 1) crc
  (s.setRegs .E (R.CWY_NODE i 2) a).setRegs .W (R.CWY_NODE i 2) a

/-- Windows of a node, in use. -/
def State.nodeWins (s : State) (i : Nat) : List Nat :=
  (List.range 64).filter (fun w => s.bit .E (R.CWY_W_CFG w) F.CWY_W_CFG_EN && s.winNode .E w == i)

/-- R491 is judged for a window of a node whose record has changed. -/
def State.rejudge (s : State) (w : Nat) : State :=
  let bad := rngs4.any (sefConflict (s.reg .E) s.sensitive w)
  s.setBitBoth (R.CWY_W_STAT w) F.CWY_W_STAT_PREF_CONFLICT bad

/-- A node's windows after its CAPS: they resume with the same record, else R491 is judged again and, for a node that was
lost, they are fenced. -/
def State.capsWins (s : State) (i : Nat) (wasLost same : Bool) : State :=
  (s.nodeWins i).foldl (fun s w =>
    let s := s.setBitBoth (R.CWY_W_STAT w) F.CWY_W_STAT_NODE_LOST false
    let s := if same then s else s.rejudge w
    let s := if wasLost && !same then s.fence w else s
    s.cwPumpAll w) s

def execCapsReceived (node : Nat) (port : Option Nat) (addr : List Word) (ranges : List (Nat × Nat × Bool)) (crc : Word)
    (crcOk : Bool) (s : State) : Host.Outcome State Fault Refusal :=
  .next (match s.leaseLane with
    | none => s
    | some l =>
      if !s.cwRuns l then s
      else if !crcOk then s.count l (R.CWY_CNT 5)
      else match s.nodeSlot (node % 256) with
      | none => s.modCw (fun c => { c with capsOver := c.capsOver + 1 })
      | some i =>
        let old := s.cwNodeSt .E i
        let same := old != cwNone && s.reg .E (R.CWY_NODE i 1) == crc
        let s := s.setNode i (node % 256) port addr crc
        let s := s.modCw (fun c => { c with nodes := upsert CwNode.ix ⟨i, ranges.take 8, s.now⟩ c.nodes })
        s.capsWins i (old == cwLOST) same)

/-- A node without a message for 3 × HB_MS is lost: its outstanding accesses end. -/
def execNodeLost (i : Nat) (s : State) : Host.Outcome State Fault Refusal :=
  .next (if i < 256 ∧ s.cwNodeSt .E i = cwPRESENT ∧ s.mod_.frozen = false then
      let w0 := (s.reg .E (R.CWY_NODE i 0)).toNat
      let s := s.setRegBoth (R.CWY_NODE i 0) (BitVec.ofNat 32 (w0 / 4 * 4 + cwLOST))
      let s := s.countBoth (R.CWY_CNT 6)
      let ws := s.nodeWins i
      let s := ws.foldl (fun s w => s.setBitBoth (R.CWY_W_STAT w) F.CWY_W_STAT_NODE_LOST true) s
      (s.cw.out.filter (fun a => ws.contains a.win)).foldl (fun s a => s.accClose a 0xFF01 []) s
    else s)

def execCwNodeHeartbeat (node : Nat) (crcOk : Bool) (s : State) : Host.Outcome State Fault Refusal :=
  .next (match s.leaseLane with
    | none => s
    | some l => if !s.cwRuns l then s else if crcOk then s.nodeHeard (node % 256) else s.count l (R.CWY_CNT 5))

/-! ### Commands (Table 15.5) -/

def onlyBitsOf (w : Word) (mask : Nat) : Bool := w.toNat &&& mask == w.toNat

/-- A window is the sender's (R480): of its function in the normal world, of the secure world for SMB0. -/
def winOf (s : State) (r : Req) (w : Nat) : Bool :=
  let g := s.reg (s.holderOr r.lane)
  let sec := winF g w F.CWY_W_CFG_OWNER_SEC == 1
  match r.src with
  | .func f => !sec && winF g w F.CWY_W_CFG_OWNER == f
  | .session _ => false
  | _ => sec

def cwWinCells (r : Req) : List RegCell :=
  let w := r.u8 0
  [(R.CWY_W_CFG w, r.w 4), (R.CWY_W_RBASE w, r.w 8), (R.CWY_W_PREF w, r.w 12)] ++
    rngs4.map (fun q => (R.CWY_W_RNG w q, r.w (16 + 4 * q)))

def specCwWindow : CmdSpec :=
  { opcode := 0x0810, accepted := true, lenOk := fun r => r.length == 32, perm := fun _ r => r.src.isChief,
    param := fun s r => decide (r.u8 0 < 64) && r.u 1 3 == 0 && onlyBitsOf (r.w 4) 0x1F3FFFE3 &&
      onlyBitsOf (r.w 8) 0xFFFFE000 && onlyBitsOf (r.w 12) 0xFFFF &&
      rngs4.all (fun q => onlyBitsOf (r.w (16 + 4 * q)) 0xFFFF1FFF) &&
      winOk (s.cfgView r (cwWinCells r)) s.sensitive (r.u8 0),
    exec := fun s r lsn => s.commitLocal 16 (r.u8 0) (cwWinCells r) lsn }

def specCwNodes : CmdSpec :=
  { opcode := 0x0811, accepted := false, lenOk := fun r => r.length == 2, maxResp := 96,
    param := fun _ r => decide (1 ≤ r.u8 1 ∧ r.u8 1 ≤ 3) && decide (r.u8 0 + r.u8 1 ≤ 256),
    answer := fun s r => s.regBytes ((s.servedBy r.lane).getD r.lane) (R.CWY_NODE (r.u8 0) 0) (8 * r.u8 1) }

/-- The records that a CW_ERRORS consumes. -/
def State.takeErrors (s : State) (n : Nat) : State :=
  let h := s.fld .E R.CWY_ERR_HEAD F.CWY_ERR_HEAD_HEAD
  let k := min n s.cw.fill
  let data := ((List.range k).map (fun j => s.regBytes .E (R.CWY_ERR ((h + j) % 64) 0) 4)).flatten
  let s := s.modCw (fun c => { c with read := data, fill := c.fill - k })
  s.setFldBoth R.CWY_ERR_HEAD F.CWY_ERR_HEAD_HEAD (h + k)

def specCwErrors : CmdSpec :=
  { opcode := 0x0812, accepted := true, lenOk := fun r => r.length == 1, maxResp := 96,
    param := fun _ r => decide (1 ≤ r.u8 0 ∧ r.u8 0 ≤ 6),
    answer := fun s _ => s.cw.read,
    exec := fun s r lsn => (s.takeErrors (r.u8 0)).done lsn }

def specCwFenceAck : CmdSpec :=
  { opcode := 0x0813, accepted := true, lenOk := fun r => r.length == 8,
    world := fun s r => (maskBits 64 (r.u 0 8)).find? (fun w => !winOf s r w),
    param := fun _ r => r.u 0 8 != 0,
    exec := fun s r lsn => ((maskBits 64 (r.u 0 8)).foldl State.unfence s).done lsn }

def specCwWrite : CmdSpec :=
  { opcode := 0x0814, accepted := true, lenOk := fun r => decide (9 ≤ r.length ∧ r.length ≤ 48),
    world := fun s r => if r.u8 0 < 64 ∧ winOf s r (r.u8 0) = false then some (r.u8 0) else none,
    param := fun _ r => decide (r.u8 0 < 64) && r.u8 1 == 0 && decide (1 ≤ r.u16 2 ∧ r.u16 2 ≤ 40) &&
      r.length == 8 + r.u16 2,
    stateOk := fun s r =>
      let l := s.holderOr r.lane
      s.bit l (R.CWY_W_CFG (r.u8 0)) F.CWY_W_CFG_EN && !s.fenced l (r.u8 0) && decide (r.u32 4 + r.u16 2 ≤ 0x2000),
    reachOk := fun s r =>
      let l := s.holderOr r.lane
      let i := s.winNode l (r.u8 0)
      s.cwNodeSt l i != cwLOST && (match s.nodeCan l i with
        | some n => !s.canPhy n
        | none => true),
    exec := fun s r lsn =>
      let l := s.holderOr r.lane
      s.accNew { lane := l, origin := l, fn := none, lsn := some lsn, win := r.u8 0, seq := 0, write := true,
                 posted := postedAt (s.reg l) (r.u8 0) (r.u32 4) (r.u16 2), ofs := r.u32 4, len := r.u16 2,
                 data := r.bytes 8 (r.u16 2), block := none } }

def execCwWindow (r : Req) (s : State) : Host.Outcome State Fault Refusal := runScs specCwWindow r s
def execCwNodes (r : Req) (s : State) : Host.Outcome State Fault Refusal := runScs specCwNodes r s
def execCwErrors (r : Req) (s : State) : Host.Outcome State Fault Refusal := runScs specCwErrors r s
def execCwFenceAck (r : Req) (s : State) : Host.Outcome State Fault Refusal := runScs specCwFenceAck r s
def execCwWrite (r : Req) (s : State) : Host.Outcome State Fault Refusal := runScs specCwWrite r s

end Sys2Proof.Machine
end

