-- ==== Sys2Proof/Machine/Upd.lean ====
section
/-! DEFINITION. Firmware update (spec/19): packages and the images they build, staging, relays, activation lane by lane,
trial and reversion, bank copies, the 0x0Cxx commands. -/

namespace Sys2Proof.Machine

def State.modUpd (s : State) (f : UpdRt → UpdRt) : State := { s with upd := f s.upd }

def uIDLE : Nat := 0
def uRECEIVING : Nat := 1
def uSTAGED : Nat := 2
def uACTIVATING : Nat := 3

def eCHUNK_HASH : Nat := 0x0C01
def eBASE_MISMATCH : Nat := 0x0C02
def eBAD_PAYLOAD : Nat := 0x0C03
def eVERIFY : Nat := 0x0C04
def eNOR_FAIL : Nat := 0x0C05

def chunkLen : Nat := 32768
def pieceLen : Nat := 32640

/-! ### Manifest entries (Table 18.4, R578) -/

structure Img where
  type_ : Nat
  offset : Nat
  length : Nat
  hash : List Byte
  deriving DecidableEq, Repr

def manImgs (m : List Byte) : List Img :=
  (List.range (manCount m)).map (fun i =>
    let e := slice m (64 + 64 * i) 64
    ⟨fieldAt e 0 2, fieldAt e 4 4, fieldAt e 8 4, slice e 16 48⟩)

def tINDEX : Nat := 0x00F0

/-- The chunk index entry of an update manifest: exactly one. -/
def manIndex (m : List Byte) : Option Img :=
  match (manImgs m).filter (fun e => e.type_ == tINDEX) with
  | [e] => some e
  | _ => none

def manChunks (m : List Byte) : Nat :=
  match manIndex m with
  | some e => e.length / 48
  | none => 0

def manIndexOk (m : List Byte) : Bool :=
  match manIndex m with
  | some e => e.length % 48 == 0 && decide (1 ≤ e.length / 48 ∧ e.length / 48 ≤ 4096)
  | none => false

/-- The images that the payload builds, in manifest order. -/
def manBuilt (m : List Byte) : List Img := (manImgs m).filter (fun e => e.type_ != tINDEX)

/-! ### Banks (Table 1.4) -/

def norBase (b : Nat) : Nat := 0x30000000 + b * 0x8000000

/-- A lane that is not in RESET, BOOT or DISQUALIFIED (R581). -/
def State.laneRuns (s : State) (l : Lane) : Bool := s.laneOut l && s.lst l != stDISQUALIFIED

def State.runningLanes (s : State) : List Lane := bothLanes.filter s.laneRuns

/-- An erase of a bank, counted in the parish register (R596). -/
def State.eraseBank (s : State) (l : Lane) (b : Nat) : State :=
  let s := s.clearMem l (norBase b) (norBase b + 0x8000000)
  (s.setLaneBank l b ⟨none, none⟩).count l (R.PARI_NOR b)

def State.eraseStaged (s : State) : State := s.upd.stage.foldl (fun s p => s.eraseBank p.1 p.2) s

/-- Manifest of a bank's set: 1 boot set, 2 application set. -/
def BankRt.man (b : BankRt) (kind : Nat) : Option (List Byte) := if kind = 1 then b.boot else b.app

def BankRt.setMan (b : BankRt) (kind : Nat) (m : Option (List Byte)) : BankRt :=
  if kind = 1 then { b with boot := m } else { b with app := m }

/-- The base image of a section: of the same TYPE in the active bank. -/
def State.baseImg (s : State) (l : Lane) (kind ty : Nat) : Option Img :=
  match (s.laneBank l (s.sec l).bank).man kind with
  | some m => (manImgs m).find? (fun e => e.type_ == ty)
  | none => none

/-- Bytes written into the staged bank of each lane at an offset; `f` gives each lane's. -/
def State.norWrite (s : State) (ofs : Nat) (f : Lane → List Byte) : State :=
  s.upd.stage.foldl (fun s p => s.setBytes p.1 (norBase p.2 + ofs) (f p.1)) s

/-- A lane's bytes of an image in its active bank. -/
def State.baseBytes (s : State) (l : Lane) (e : Img) (ofs n : Nat) : List Byte :=
  s.bytes l (norBase (s.sec l).bank + e.offset + ofs) n

/-! ### Building the images (R579) -/

/-- A step of the construction: more to do, no more bytes for now, or an error. -/
inductive BuildRes where
  | more (b : Build)
  | wait (b : Build)
  | bad (err : Nat)
  deriving DecidableEq, Repr

/-- The present image is complete: the next section follows. -/
def nextSec (b : Build) : BuildRes := .more { b with sec := b.sec + 1, phase := 0, rem := 0, ins := 0, out := 0 }

def badPayload : BuildRes := .bad eBAD_PAYLOAD

/-- The base that a section names, where its hash is the one in the active manifest of each staging lane. -/
def State.sectBase (s : State) (e : Img) (hash : List Byte) : Option Img :=
  match s.upd.stage.map (fun p => s.baseImg p.1 (manKind s.upd.man) e.type_) with
  | [] => none
  | some x :: rest => if x.hash == hash && rest.all (fun y => y == some x) then some x else none
  | none :: _ => none

def headOk (h : List Byte) (e : Img) : Bool :=
  fieldAt h 0 2 == e.type_ && decide (fieldAt h 2 1 ≤ 2) && fieldAt h 3 1 == 0 && fieldAt h 4 4 == e.length && fieldAt h 12 4 == 0

/-- A section header (Table 19.1). -/
def State.buildHead (s : State) (b : Build) (e : Img) : State × BuildRes :=
  if b.left.length < 64 then (s, .wait b)
  else
    let h := b.left.take 64
    let n := fieldAt h 8 4
    let b := { b with left := b.left.drop 64, rem := n, out := 0, ins := 0 }
    if !headOk h e then (s, badPayload)
    else match fieldAt h 2 1 with
      | 0 => if n = e.length ∧ allZero (slice h 16 48) = true then (s, .more { b with phase := 1 }) else (s, badPayload)
      | 1 =>
        match s.sectBase e (slice h 16 48) with
        | some _ => (s, .more { b with phase := 2 })
        | none => (s, .bad eBASE_MISMATCH)
      | _ =>
        match s.sectBase e (slice h 16 48) with
        | none => (s, .bad eBASE_MISMATCH)
        | some x =>
          if n = 0 ∧ x.length = e.length then (s.norWrite e.offset (fun l => s.baseBytes l x 0 x.length), nextSec b)
          else (s, badPayload)

/-- Bytes that go into the image as they stand: of a FULL section, or of an INSERT. -/
def State.buildData (s : State) (b : Build) (e : Img) : State × BuildRes :=
  let want := if b.phase = 1 then b.rem else b.ins
  if want = 0 then
    if b.phase = 1 then (s, if b.out = e.length then nextSec b else badPayload) else (s, .more { b with phase := 2 })
  else if b.left = [] then (s, .wait b)
  else
    let n := min want b.left.length
    if b.rem < n ∨ e.length < b.out + n then (s, badPayload)
    else
      let d := b.left.take n
      (s.norWrite (e.offset + b.out) (fun _ => d),
        .more { b with left := b.left.drop n, rem := b.rem - n, out := b.out + n, ins := b.ins - n })

/-- COPY of a delta section. -/
def State.buildCopy (s : State) (b : Build) (e : Img) : State × BuildRes :=
  if b.left.length < 12 then (s, .wait b)
  else
    let src := fieldAt b.left 4 4
    let n := fieldAt b.left 8 4
    match (s.upd.stage.head?).bind (fun p => s.baseImg p.1 (manKind s.upd.man) e.type_) with
    | none => (s, .bad eBASE_MISMATCH)
    | some x =>
      if n = 0 ∨ x.length < src + n ∨ e.length < b.out + n ∨ b.rem < 12 then (s, badPayload)
      else (s.norWrite (e.offset + b.out) (fun l => s.baseBytes l x src n),
        .more { b with left := b.left.drop 12, rem := b.rem - 12, out := b.out + n })

/-- An operation of a delta section (Table 19.2). -/
def State.buildOp (s : State) (b : Build) (e : Img) : State × BuildRes :=
  if b.left.length < 4 then (s, if b.rem < 4 then badPayload else .wait b)
  else if fieldAt b.left 1 3 ≠ 0 then (s, badPayload)
  else match fieldAt b.left 0 1 with
    | 0 => (s, if b.rem = 4 ∧ b.out = e.length then nextSec { b with left := b.left.drop 4 } else badPayload)
    | 1 => s.buildCopy b e
    | 2 =>
      if b.left.length < 8 then (s, .wait b)
      else
        let n := fieldAt b.left 4 4
        if n = 0 ∨ b.rem < 8 + n then (s, badPayload)
        else (s, .more { b with left := b.left.drop 8, rem := b.rem - 8, ins := n, phase := 3 })
    | _ => (s, badPayload)

def State.buildStep (s : State) (b : Build) : State × BuildRes :=
  match (manBuilt s.upd.man)[b.sec]? with
  | none => (s, if b.left = [] then .wait b else badPayload)
  | some e =>
    match b.phase with
    | 0 => s.buildHead b e
    | 2 => s.buildOp b e
    | _ => s.buildData b e

def State.buildRun (s : State) (b : Build) : Nat → State × BuildRes
  | 0 => (s, .wait b)
  | fuel + 1 =>
    let r := s.buildStep b
    match r.2 with
    | .more b' => r.1.buildRun b' fuel
    | _ => r

/-! ### Relays (R585 to R587) -/

def State.syncRelay (s : State) (t : Nat) : State := s.setBitBoth (R.UPD_RELAY_STAT t) F.UPD_RELAY_STAT_ACTIVE true

def State.relayOn (s : State) (t : Nat) : Bool :=
  (match s.upd.relays[t]? with
    | some r => r.kind != 0
    | none => false) && !s.bit .E (R.UPD_RELAY_STAT t) F.UPD_RELAY_STAT_FAILED

/-- Pieces of 256 bytes go to a Causeway node as non-posted writes; `all` sends the last, shorter one too. -/
def State.relayPieces (s : State) (h : Lane) (t : Nat) (all : Bool) : Nat → State
  | 0 => s
  | fuel + 1 =>
    match s.upd.relays[t]? with
    | none => s
    | some r =>
      let n := min 256 r.queue.length
      if n = 0 ∨ (n < 256 ∧ all = false) then s
      else
        let d := r.queue.take n
        let s := s.modUpd (fun u =>
          { u with relays := u.relays.set t { r with queue := r.queue.drop n, sent := r.sent + 1 } })
        (s.accNew { lane := h, origin := h, fn := none, lsn := none, win := r.win, seq := 0, write := true, posted := false,
                    ofs := 256 * (r.sent % 32), len := n, data := d, block := none, relay := some t }).relayPieces h t all fuel

/-- One part of the package goes to a target. -/
def State.relayTo (s : State) (h : Lane) (t opcode : Nat) (hdr data : List Byte) (last : Bool) : State :=
  match s.upd.relays[t]? with
  | none => s
  | some r =>
    let s := s.syncRelay t
    if r.kind = 3 then
      let s := s.modUpd (fun u => { u with relays := u.relays.set t { r with queue := r.queue ++ data } })
      s.relayPieces h t last (data.length + 1)
    else s.emit (.relay t opcode (hdr ++ data))

/-- A part that has passed its local check is forwarded by the holder; chunks are counted. -/
def State.relayAll (s : State) (opcode : Nat) (hdr data : List Byte) (chunk last : Bool) : State :=
  match s.holder with
  | none => s
  | some h =>
    (List.range 8).foldl (fun s t =>
      if s.relayOn t then
        let s := s.relayTo h t opcode hdr data last
        if chunk then s.countBoth (R.UPD_CNT 6) else s
      else s) s

/-! ### Staging (R582 to R584) -/

def State.syncProgress (s : State) : State :=
  let u := s.upd
  let w := setF (setF (setF 0 F.UPD_PROGRESS_NEXT u.next) F.UPD_PROGRESS_INDEX_OK (b2n u.idxOk)) F.UPD_PROGRESS_TOTAL u.total
  s.setRegBoth R.UPD_PROGRESS w

/-- Staging fails or is aborted: IDLE, and the inactive banks are erased (Table 19.3). -/
def State.dropStage (s : State) : State :=
  let s := (s.eraseStaged.setUpdSt uIDLE).modUpd (fun u =>
    { u with man := [], idx := [], next := 0, idxOk := false, total := 0, build := .start, stage := [], lastLsn := none })
  s.syncProgress

/-- UPD_BEGIN: every running lane stages into its inactive bank, whose erase starts. -/
def State.beginStage (s : State) (m : List Byte) (lsn : Nat) : State :=
  let st := s.runningLanes.map (fun l => (l, 1 - (s.sec l).bank))
  let s := s.modUpd (fun u =>
    { u with man := m, idx := [], next := 0, idxOk := false, total := manChunks m, build := .start, stage := st,
             beginLsn := some lsn, lastLsn := none })
  let s := (s.eraseStaged.setUpdSt uRECEIVING).syncProgress
  let s := (List.range 8).foldl (fun (s : State) t =>
    if s.relayOn t then s.modUpd (fun u => { u with relays := u.relays.modify t (fun r =>
      { r with queue := [], sent := 0, acked := 0 }) }) else s) s
  s.relayAll 0x0C01 [] m false false

/-- The erase of the inactive banks ends (R584, R595). -/
def execNorEraseDone (ok : Bool) (s : State) : Out :=
  .next (match s.upd.beginLsn with
    | none => s
    | some n =>
      let s := s.modUpd (fun u => { u with beginLsn := none })
      if ok then s.done n else s.dropStage.failed n eNOR_FAIL)

/-- Index pieces of a package of C chunks. -/
def pieceCount (c : Nat) : Nat := (c + 679) / 680
def pieceBytes (c i : Nat) : Nat := if i + 1 < pieceCount c then pieceLen else 48 * c - pieceLen * i

def State.advance (s : State) (n : Nat) (ok : Bool) : State :=
  (s.modUpd (fun u => { u with next := n, idxOk := ok })).syncProgress

/-- The chunk index is stored in the bank (R578) and forwarded (R585). -/
def State.indexDone (s : State) : State :=
  let s := match manIndex s.upd.man with
    | some e => s.norWrite e.offset (fun _ => s.upd.idx)
    | none => s
  let pieces := List.range (pieceCount s.upd.total)
  let s := pieces.foldl (fun s i => s.relayAll 0x0C02 (leBytes 1 1 ++ leBytes 1 0 ++ leBytes 2 i)
    (slice s.upd.idx (pieceLen * i) pieceLen) false false) s
  s.advance 0 true

/-- An index piece; after the last one the whole index is checked. -/
def State.takePiece (s : State) (i lsn : Nat) (data : List Byte) (hashOk : Bool) : State :=
  if i + 1 = s.upd.next then s.done lsn
  else
    let s := s.modUpd (fun u => { u with idx := u.idx ++ data })
    if i + 1 < pieceCount s.upd.total then (s.advance (i + 1) false).done lsn
    else if hashOk then s.indexDone.done lsn
    else ((s.countBoth (R.UPD_CNT 1)).modUpd (fun u => { u with idx := [] }) |>.advance 0 false).failed lsn eCHUNK_HASH

/-- A checked chunk is written: the images grow. -/
def State.writeChunk (s : State) (i lsn : Nat) (data : List Byte) (norFail : Bool) : State :=
  let last := i + 1 = s.upd.total
  let b := { s.upd.build with left := s.upd.build.left ++ data }
  let r := s.buildRun b (data.length + s.upd.build.left.length + 64)
  if norFail then (s.dropStage).failed lsn eNOR_FAIL
  else match r.2 with
    | .bad e => (r.1.dropStage).failed lsn e
    | .more b' | .wait b' =>
      if last ∧ (b'.left ≠ [] ∨ b'.sec < (manBuilt s.upd.man).length) then (r.1.dropStage).failed lsn eBAD_PAYLOAD
      else
        let s := (r.1.modUpd (fun u => { u with build := b' })).advance (i + 1) true
        let s := (s.countBoth (R.UPD_CNT 0)).relayAll 0x0C02 (leBytes 1 2 ++ leBytes 1 0 ++ leBytes 2 i) data true (decide last)
        if last then s.modUpd (fun u => { u with lastLsn := some lsn }) else s.done lsn

def State.takeChunk (s : State) (i lsn : Nat) (data : List Byte) (hashOk norFail : Bool) : State :=
  if !hashOk then (s.countBoth (R.UPD_CNT 1)).failed lsn eCHUNK_HASH
  else if i + 1 = s.upd.next then s.done lsn
  else s.writeChunk i lsn data norFail

/-- The other set of the active bank is copied into the staged bank unchanged (R580). -/
def State.carryOther (s : State) (l : Lane) (b : Nat) : State :=
  let other := if manKind s.upd.man = 1 then 2 else 1
  match (s.laneBank l (s.sec l).bank).man other with
  | none => s
  | some m =>
    let s := (manImgs m).foldl (fun s e =>
      s.setBytes l (norBase b + e.offset) (s.baseBytes l e 0 e.length)) s
    s.setLaneBank l b ((s.laneBank l b).setMan other (some m))

/-- The read-back of the staged banks ends. -/
def execStagingVerifyDone (ok : Bool) (s : State) : Out :=
  .next (match s.upd.lastLsn with
    | none => s
    | some n =>
      if ok then
        let s := s.upd.stage.foldl (fun (s : State) p =>
          (s.setLaneBank p.1 p.2 ((s.laneBank p.1 p.2).setMan (manKind s.upd.man) (some s.upd.man))).carryOther p.1 p.2) s
        let s := ((s.setUpdSt uSTAGED).countBoth (R.UPD_CNT 2)).modUpd (fun u => { u with lastLsn := none })
        s.done n
      else (s.dropStage).failed n eVERIFY)

/-! ### Activation and reversion (R588 to R593) -/

/-- Bank that a lane runs. -/
def State.runBank (s : State) (l : Lane) : Nat := s.fld l R.LHS_STATUS F.LHS_STATUS_BOOT_BANK

/-- Bank that a lane is to run, in ACTIVATING the staged one and in REVERTING the other. -/
def State.updTarget (s : State) (l : Lane) : Option Nat :=
  match s.upd.stage.find? (fun p => p.1 == l) with
  | none => none
  | some p => if s.upd.st = uACTIVATING then some p.2 else if s.upd.st = uREVERTING then some (1 - p.2) else none

def State.onTarget (s : State) (l : Lane) : Bool :=
  match s.updTarget l with
  | some b => s.runBank l == b
  | none => true

/-- Boot set that a lane runs. -/
def State.bootSet (s : State) (l : Lane) : Option (List Byte) := (s.laneBank l (s.runBank l)).boot

def State.syncMixed (s : State) : State :=
  let m := (s.upd.st == uACTIVATING || s.upd.st == uREVERTING) && s.laneOut .E && s.laneOut .W && s.bootSet .E != s.bootSet .W
  s.setBitBoth R.UPD_STATUS F.UPD_STATUS_MIXED m

/-- A lane sets a bank active and restarts into it. -/
def State.restartInto (s : State) (l : Lane) (b : Nat) : State :=
  ((s.setActive l b).modUpd (fun u => { u with restarting := l :: u.restarting.filter (fun x => x != l), cycles := 0 })).laneReset l
    .sys 0x70 0

/-- The whole register state of a lane, as its state image holds it (R589). -/
def State.laneImage (s : State) (l : Lane) : SavedImage :=
  { lane := l, regs := s.regs.filter (fun c => c.1 / homeSpan == l.ix || c.1 / homeSpan == 3 + l.ix),
    tide := if l = .E then s.tideE else s.tideW, cvc := if l = .E then s.cvcE else s.cvcW,
    harb := if l = .E then s.harbE else s.harbW }

/-- Drain of a SINGLE restart: the lane takes no requests, and restarts once nothing is in execution or its time is up. -/
def State.updDrain (s : State) (l : Lane) (b : Nat) : State :=
  let s := s.setServing l false
  match s.upd.drain with
  | none =>
    s.modUpd (fun u => { u with drain := some (s.now + (s.fld l R.UPD_CFG F.UPD_CFG_DRAIN_MS_M1 + 1) * 1000) })
  | some t =>
    if s.led.entries.any (fun e => e.st == .executing && some e.lsn != s.upd.actLsn && some e.lsn != s.upd.revLsn) && s.now < t
    then s
    else (s.modUpd (fun u => { u with drain := none, image := some (s.laneImage l) })).restartInto l b

/-- The standby has run two full cycles on its target while the holder has not restarted: the holder is to hand over
(Table 19.4). -/
def State.updHandover (s : State) : Bool :=
  (s.upd.st == uACTIVATING || s.upd.st == uREVERTING) &&
    (match s.holder with
      | some h => s.lst h.other == stSTANDBY && s.onTarget h.other && !s.onTarget h && decide (2 ≤ s.upd.cycles)
      | none => false)

/-- The lane that restarts at a boundary: one that runs, does not hold the ferry and is not on its target. -/
def State.updRestart (s : State) : State :=
  match s.runningLanes.find? (fun l => !s.onTarget l && s.lst l != stACTIVE) with
  | some l =>
    match s.updTarget l with
    | some b => s.restartInto l b
    | none => s
  | none =>
    match s.holder with
    | some h =>
      if s.onTarget h || s.laneRuns h.other || s.upd.restarting.contains h.other then s
      else match s.updTarget h with
        | some b => s.updDrain h b
        | none => s
    | none => s

/-- Every running lane runs its target: TRIAL, or back to IDLE (Table 19.3). -/
def State.updSettle (s : State) : State :=
  let s := s.modUpd (fun u => { u with restarting := u.restarting.filter (fun l =>
    s.lst l != stACTIVE && s.lst l != stSTANDBY && (s.lane l).powered) })
  if s.upd.restarting ≠ [] ∨ s.holder = none ∨ s.runningLanes.any (fun l => !s.onTarget l) = true then s
  else if s.upd.st = uACTIVATING then
    let h := s.holderOr .E
    let t := s.now + (s.fld h R.UPD_CFG F.UPD_CFG_CONFIRM_S_M1 + 1) * 1000000
    let ls := match s.upd.actLsn with
      | some n => [n]
      | none => []
    let s := ((s.setUpdSt uTRIAL).countBoth (R.UPD_CNT 3)).modUpd (fun u => { u with clean := true, trialEnd := t, actLsn := none })
    s.disposeAll ls dDONE 0
  else
    let s := s.upd.stage.foldl (fun s p => (s.setActive p.1 (1 - p.2)).eraseBank p.1 p.2) s
    let ls := match s.upd.revLsn with
      | some n => [n]
      | none => []
    let s := (s.setUpdSt uIDLE).modUpd (fun u => { u with revLsn := none, stage := [], man := [] })
    s.disposeAll ls dDONE 0

/-- Seconds of trial left. -/
def State.syncConfirm (s : State) : State :=
  if s.upd.st = uTRIAL then
    s.setFldBoth R.UPD_STATUS F.UPD_STATUS_CONFIRM_LEFT (min 65535 ((s.upd.trialEnd - s.now) / 1000000))
  else s

/-- UPD's part of a cycle boundary, before the ferry's: the standby's full cycles are counted. -/
def State.updCount (s : State) : State :=
  match s.holder with
  | some h =>
    if (s.upd.st = uACTIVATING ∨ s.upd.st = uREVERTING) ∧ s.lst h.other = stSTANDBY ∧ s.onTarget h.other = true then
      s.modUpd (fun u => { u with cycles := u.cycles + 1 })
    else s
  | none => s

/-- UPD's part of a cycle boundary, after the ferry's. -/
def State.updBoundary (s : State) : State :=
  let s := if s.upd.st = uACTIVATING ∨ s.upd.st = uREVERTING then s.updRestart.updSettle else s
  s.syncMixed.syncConfirm

def chkUpd (_ : State) (_ : Commit) : Bool := true

def State.relaySet (s : State) (x : Nat × Nat × Relay) : State :=
  let s := s.modUpd (fun u => { u with sets := u.sets.filter (fun y => y != x), relays := u.relays.set x.2.1 x.2.2 })
  (s.setRegBoth (R.UPD_RELAY_STAT x.2.1) 0).done x.1

/-- Commits of a lane's UPD block, and the relay targets. -/
def State.updCommits (s : State) (l : Lane) : State :=
  let s := (s.commits.filter (fun c => c.block == 22 && c.lane == l)).foldl (fun s c =>
    s.applyCommit (chkUpd s c) R.UPD_STATUS F.UPD_STATUS_CFG_INCONSISTENT eCFG_REJECTED c) s
  if s.holderOr .E = l then s.upd.sets.foldl State.relaySet s else s

/-- The trial limit expires (R591). -/
def execConfirmTimeout (s : State) : Out := .next (if s.upd.st = uTRIAL then s.startRevert else s)

/-- A copy of the holder's active bank is in a mismatched lane's inactive bank; verified, the lane restarts into it
(R593). -/
def execBankCopyDone (l : Lane) (ok : Bool) (s : State) : Out :=
  .next (match s.holder with
    | none => s
    | some h =>
      if h = l ∨ s.bit l R.UPD_STATUS F.UPD_STATUS_VERSION_MISMATCH = false ∨
          s.bit l R.FERRY_LANE F.FERRY_LANE_STRAIT_UP = false then s
      else
        let b := 1 - (s.sec l).bank
        let hb := (s.sec h).bank
        let s := s.eraseBank l b
        if !ok then s
        else
          let ms := [1, 2].filterMap (fun k => (s.laneBank h hb).man k)
          let s := (ms.map manImgs).flatten.foldl (fun s e =>
            s.setBytes l (norBase b + e.offset) (s.baseBytes h e 0 e.length)) s
          let s := (s.setLaneBank l b (s.laneBank h hb)).countBoth (R.UPD_CNT 7)
          (s.setActive l b).laneReset l .sys 0x70 0)

/-! ### Commands (Table 19.5, R594) -/

def specUpdStatus : CmdSpec :=
  { opcode := 0x0C00, accepted := false, lenOk := fun r => r.length == 0, lenPar := true, maxResp := 40, perm := chiefOnly,
    answer := fun s r =>
      let l := (s.servedBy r.lane).getD r.lane
      wordBytes (s.reg l R.UPD_STATUS) ++ wordBytes (s.reg l R.UPD_PROGRESS) ++
        ((List.range 8).map (fun t => wordBytes (s.reg l (R.UPD_RELAY_STAT t)))).flatten }

def specUpdBegin : CmdSpec :=
  { opcode := 0x0C01, accepted := true, lenOk := fun _ => true, perm := chiefOnly,
    param := fun _ r => r.length == manLen && manIndexOk r.payload,
    stateOk := fun s _ => s.upd.st == uIDLE || s.upd.st == uSTAGED,
    sigOk := fun s r => r.sigOk && s.manStep1 (s.holderOr r.lane) r.payload [1, 2] false,
    svnOk := fun s r => s.manSvnOk (s.holderOr r.lane) r.payload,
    exec := fun s r lsn => s.beginStage r.payload lsn }

/-- The part named is the next one, or the last one taken again (R583). -/
def State.chunkDue (s : State) (cls i : Nat) : Bool :=
  let u := s.upd
  if cls = 1 then
    (!u.idxOk && (i == u.next || i + 1 == u.next)) || (u.idxOk && u.next == 0 && i + 1 == pieceCount u.total)
  else u.idxOk && (i == u.next || i + 1 == u.next)

def State.partLenOk (s : State) (r : Req) : Bool :=
  let n := r.length - 4
  let c := s.upd.total
  if s.upd.st != uRECEIVING then true
  else if r.u8 0 = 1 then !decide (r.u16 2 < pieceCount c) || n == pieceBytes c (r.u16 2)
  else decide (n ≤ chunkLen) && (!decide (r.u16 2 + 1 < c) || n == chunkLen)

def specUpdChunk : CmdSpec :=
  { opcode := 0x0C02, accepted := true, lenOk := fun _ => true, perm := chiefOnly,
    param := fun s r => decide (52 ≤ r.length ∧ r.length ≤ 32772) && decide (1 ≤ r.u8 0 ∧ r.u8 0 ≤ 2) && r.u8 1 == 0 &&
      decide (r.u16 2 < 4096) && s.partLenOk r,
    stateOk := fun s r => s.upd.st == uRECEIVING && s.upd.lastLsn.isNone && s.chunkDue (r.u8 0) (r.u16 2),
    exec := fun s r lsn =>
      let d := r.payload.drop 4
      if s.upd.st ≠ uRECEIVING then s.failed lsn eBAD_PAYLOAD
      else if r.u8 0 = 1 then
        (if s.upd.idxOk then s.done lsn else s.takePiece (r.u16 2) lsn d r.sigOk)
      else s.takeChunk (r.u16 2) lsn d r.sigOk r.hwFault }

def noPayload (_ : State) (r : Req) : Bool := r.length == 0

def specUpdAbort : CmdSpec :=
  { opcode := 0x0C03, accepted := true, lenOk := fun _ => true, perm := chiefOnly, param := noPayload,
    stateOk := fun s _ => s.upd.st == uRECEIVING || s.upd.st == uSTAGED,
    exec := fun s _ lsn => s.dropStage.done lsn }

/-- KEEPALIVE_HOLD of a die, in milliseconds (R590). -/
def State.holdsLong (s : State) : Bool :=
  [0, 1].all (fun d => decide (700 ≤ s.dieFld (R.PCH_DIE_CFG d) F.PCH_DIE_CFG_KEEPALIVE_HOLD)) &&
    [0, 1, 2].all (fun d => decide (700 ≤ s.dieFld (R.FCH_DIE_CFG d) F.FCH_DIE_CFG_KEEPALIVE_HOLD))

def specUpdActivate : CmdSpec :=
  { opcode := 0x0C04, accepted := true, lenOk := fun _ => true, perm := chiefOnly, param := noPayload,
    stateOk := fun s _ => s.upd.st == uSTAGED && (s.mode == 1 || s.holdsLong),
    exec := fun s _ lsn => (s.setUpdSt uACTIVATING).modUpd (fun u =>
      { u with actLsn := some lsn, restarting := [], cycles := 0, drain := none }) }

def specUpdConfirm : CmdSpec :=
  { opcode := 0x0C05, accepted := true, lenOk := fun _ => true, perm := chiefOnly, param := noPayload,
    stateOk := fun s _ => s.upd.st == uTRIAL && s.upd.clean,
    exec := fun s _ lsn =>
      { s with fuseOps := s.fuseOps ++ [FuseOp.mk lsn (.svn (manSvnIdx s.upd.man) (manSvn s.upd.man))] } }

def specUpdRevert : CmdSpec :=
  { opcode := 0x0C06, accepted := true, lenOk := fun _ => true, perm := chiefOnly, param := noPayload,
    stateOk := fun s _ => s.upd.st == uTRIAL,
    exec := fun s _ lsn => (s.modUpd (fun u => { u with revLsn := some lsn })).startRevert }

def relayOf (r : Req) : Relay :=
  { kind := r.u8 1, client := r.u8 2, slot := r.u8 3, port := r.u8 4, win := r.u8 5, addr := r.bytes 8 16, queue := [],
    sent := 0, acked := 0 }

/-- A Causeway target's window: owned by the PF, with no POSTED range (R586). -/
def relayWinOk (g : Nat → Word) (w : Nat) : Bool :=
  winF g w F.CWY_W_CFG_OWNER_SEC == 0 && winF g w F.CWY_W_CFG_OWNER == 0 && rngs4.all (fun k => !rngPosted g w k)

def specUpdRelaySet : CmdSpec :=
  { opcode := 0x0C07, accepted := true, lenOk := fun _ => true, perm := chiefOnly,
    param := fun s r => r.length == 24 && decide (r.u8 0 ≤ 7) && decide (r.u8 1 ≤ 3) && decide (r.u8 2 ≤ 31) &&
      decide (r.u8 4 ≤ 15) && decide (r.u8 5 ≤ 63) && r.u16 6 == 0 &&
      (r.u8 1 != 3 || relayWinOk (s.reg (s.holderOr r.lane)) (r.u8 5)),
    stateOk := fun s r => s.upd.st == uIDLE &&
      (!(r.u8 1 == 1 || r.u8 1 == 2) || keyServes s (s.holderOr r.lane) (r.u8 3) 0),
    exec := fun s r lsn => s.modUpd (fun u => { u with sets := u.sets ++ [(lsn, r.u8 0, relayOf r)] }) }

def specUpdConfig : CmdSpec :=
  { opcode := 0x0C08, accepted := true, lenOk := fun _ => true, perm := chiefOnly,
    param := fun _ r => r.length == 4 && decide (1 ≤ r.u16 2 ∧ r.u16 2 ≤ 256),
    exec := fun s r lsn => s.commitLocal 22 0 [(R.UPD_CFG, BitVec.ofNat 32 (r.u16 0 + 0x10000 * (r.u16 2 - 1)))] lsn }

def execUpdStatus (r : Req) (s : State) : Out := runScs specUpdStatus r s
def execUpdBegin (r : Req) (s : State) : Out := runScs specUpdBegin r s
def execUpdChunk (r : Req) (s : State) : Out := runScs specUpdChunk r s
def execUpdAbort (r : Req) (s : State) : Out := runScs specUpdAbort r s
def execUpdActivate (r : Req) (s : State) : Out := runScs specUpdActivate r s
def execUpdConfirm (r : Req) (s : State) : Out := runScs specUpdConfirm r s
def execUpdRevert (r : Req) (s : State) : Out := runScs specUpdRevert r s
def execUpdRelaySet (r : Req) (s : State) : Out := runScs specUpdRelaySet r s
def execUpdConfig (r : Req) (s : State) : Out := runScs specUpdConfig r s

end Sys2Proof.Machine
end

