-- ==== Sys2Proof/Machine/Dies.lean ====
section
/-! DEFINITION. The shared dies as wholes: power-up and loss (R275, R319, R322, R123), the configuration that the lanes
hold for a die and resend, the urgent slot (R257), keep-alive (R254, R255), scheduled switches (R236), the command link
clock (R33), and the firing of an event table entry (R344). -/

namespace Sys2Proof.Machine

/-! ### What a die keeps -/

/-- Address ranges of the Commons' registers (Table 1.5). -/
def cmnRanges : List (Nat × Nat) :=
  [(0xE0A80000, 0xE0A90000), (0xE0B00000, 0xE0B80000), (0xE0C00000, 0xE0C80000), (0xE0D00000, 0xE0D80000),
   (0xE0E00000, 0xE0F00000), (0xE1100000, 0xE1180000)]

def dieRanges : Die → List (Nat × Nat)
  | .P0 => powerRanges 0
  | .P1 => powerRanges 1
  | .F0 => [fieldRange 0]
  | .F1 => [fieldRange 1]
  | .FI => [fieldRange 2]
  | .CMN => cmnRanges

/-- The filter elements of the Commons, which no COMMIT copies (R401). -/
def State.elemCells (s : State) : List RegCell :=
  ((s.regs.filter (fun c => decide (dieKey (R.CAN_FLTRAM 0 0) ≤ c.1) && decide (c.1 < dieKey 0xE0B20000))).map
    (fun c => (c.1 % homeSpan, c.2)))

/-- Configuration of a die, as the lanes hold it (R275). -/
def State.dieConfig (s : State) (d : Die) : List RegCell :=
  ((dieRanges d).map (fun r => s.configCells r.1 r.2)).flatten ++ (if d = .CMN then s.elemCells else [])

def State.wipeRanges (s : State) : List (Nat × Nat) → State
  | [] => s
  | r :: rs => (s.wipeDie r.1 r.2).wipeRanges rs

/-- The die that a commit copy of a block and region goes to; none where it stays in the lane. -/
def dieOfCommit (block region : Nat) : Option Die :=
  let p := fun (k : Nat) => if k = 0 then Die.P0 else Die.P1
  match block with
  | 2 => some (p (feedDie region))
  | 6 => some (p region)
  | 7 => some (p region)
  | 8 => some (if region = 0 then .F0 else if region = 1 then .F1 else .FI)
  | 10 => if 100 ≤ region then some .CMN else none
  | 11 => if region < 64 then some .CMN else none
  | 12 => some .CMN
  | 13 => some .CMN
  | 14 => some .CMN
  | 17 => some .CMN
  | _ => none

def Commit.die (c : Commit) : Option Die := dieOfCommit c.block c.region

/-- A die stops answering: what waits for it becomes UNDELIVERABLE (Table 6.3, R264), but its configuration is still
carried. -/
def State.dropWork (s : State) (d : Die) : State :=
  let mine := s.commits.filter (fun c => c.die == some d)
  let us := s.urgents.filter (fun u => u.die == d)
  let cs := (s.commits.filter (fun (c : Commit) => !(c.cmnHeld && c.die == some d))).map (fun (c : Commit) =>
    if c.die == some d then { c with lsns := [] } else c)
  let s := { s with urgents := s.urgents.filter (fun u => u.die != d), commits := cs }
  (s.disposeAll ((mine.map Commit.lsns).flatten) dUNDELIVERABLE eDIE_UNREACHABLE).disposeAll (us.map Urgent.lsn)
    dUNDELIVERABLE eDIE_UNREACHABLE

/-- Work that the Commons has begun or holds cannot be completed any more: bridge frames, PWM_ENABLEs, recoveries, wakes,
curfews. -/
def State.dropCmnWork (s : State) : State :=
  let ls := s.eth.bufs.filterMap EthBuf.lsn ++ s.pwmWork.map PwmWork.lsn ++
    (s.canWork ++ s.linWork ++ s.nms.curfews ++ s.nms.wakes ++ s.eth.wakeWork).map Prod.fst
  let ps := s.eth.bufs.filterMap EthBuf.pdu
  let s := { s with eth := { s.eth with bufs := [], wakeWork := [] }, pwmWork := [], canWork := [], linWork := [],
                    nms := { s.nms with curfews := [], wakes := [] } }
  (s.forEach ps State.pduFail).disposeAll ls dUNDELIVERABLE eDIE_UNREACHABLE

/-- Selectors, CAN and LIN ports and time bases of the Commons at their power-on state; a CAN port's numbering and what the
lanes hold for it stay. -/
def State.freshPorts (s : State) : State :=
  { s with
    sels := List.replicate 12 ⟨false, false, false⟩,
    canPorts := s.canPorts.map (fun p => { CanPort.reset with nextSeq := p.nextSeq, held := p.held }),
    lins := List.replicate 8 .reset, tbs := List.replicate 4 ⟨0, .zero, 0, false⟩ }

/-- What the Commons holds beyond registers, at its power-on state (R123): no selector stream, no frame, no port in use,
no time base running, every cove at its reset state. The lanes' own sequence numbers and what they hold for the ports
stay with them. -/
def State.clearCmn (s : State) : State :=
  let s := s.tbStopAll
  let s := s.forEach ports16 (fun s n => s.canEndQueue n dUNDELIVERABLE eDIE_UNREACHABLE false)
  let s := s.dropCmnWork.freshPorts
  { s with
    pwmWork := [], canWork := [], linWork := [], canHeld := [],
    eth := { EthRt.reset with held := s.eth.held, nextId := s.eth.nextId, laneSeq := s.eth.laneSeq, saQ := s.eth.saQ,
                              rxE := s.eth.rxE, rxW := s.eth.rxW },
    nms := { coves := List.replicate 8 ⟨[], false⟩, curfews := [], wakes := [], ignored := s.nms.ignored },
    arb := { s.arb with held := none, reqE := false, reqW := false, grantTo := none, ackTo := none, released := false,
                        reqEpochMax := 0, restarted := true } }

/-- Registers of the always-on logic, which a restart of the Commons keeps (Table 4.9): the pending wakes and the wakeful-node
log. -/
def aonRegs : List Nat :=
  R.NMS_WAKE_PENDING :: ((List.range 64).map (fun i => (List.range 4).map (R.NMS_LOG i))).flatten

/-- A die loses its state: its configuration is what the lanes hold and resend (R275), its outputs are in the unpowered state,
its registers at their reset values. -/
def State.dieLose (s : State) (d : Die) : State :=
  let x := s.die d
  let saved := if x.restarted then x.saved else s.dieConfig d
  let old := s
  let s := s.dropWork d
  let s := match d with
    | .P0 => s.restartPower 0
    | .P1 => s.restartPower 1
    | .F0 => s.restartField 0
    | .F1 => s.restartField 1
    | .FI => s.restartField 2
    | .CMN => s.clearCmn
  let s := s.wipeRanges (dieRanges d)
  let s := if d = .CMN then s.forEach aonRegs (fun s a => s.setSh a (old.shReg a)) else s
  s.setDie d { DieRt.reset with restarted := true, saved := saved }

/-- CLASS of a strap code STRAP2:STRAP1 (Table 2.9, R67); the invalid code 3 leaves the reset class. -/
def strapClass (straps : Nat) : Nat := 3 - straps / 2 % 4

/-- The feeds of a power die take the class of the straps (R78). -/
def State.strapFeeds (s : State) (d : Nat) : State :=
  let k := strapClass s.mod_.straps
  if k = 3 then s
  else s.forEach [3 * d + 1, 3 * d + 2, 3 * d + 3] (fun s f => s.setShFld (R.SUPC_FEED_CFG f) F.SUPC_FEED_CFG_CLASS k)

/-- A die starts (Table 2.10, step 2): it holds no configuration and no cycle, and reports its restart. FI waits with
SUPPLY_LOST for its configuration (R322). -/
def State.dieFresh (s : State) (d : Die) : State :=
  let s := s.dieLose d
  let s := s.setDie d { s.die d with up := true }
  match d with
  | .P0 => s.strapFeeds 0
  | .P1 => s.strapFeeds 1
  | .FI => s.loseFi
  | _ => s

/-- A die without power does not answer. -/
def State.dieDown (s : State) (d : Die) : State :=
  let s := s.dieLose d
  if d = .FI then s.loseFi else s

/-- Neither half of the Commons passes its check (R25): the safe pattern, no transmission on any port, until a restart. -/
def State.enterCmnSafe (s : State) : State :=
  let s := s.setShBit R.CVC_SEL_STATUS F.CVC_SEL_STATUS_CMN_SAFE true
  let s := s.forEach ports16 (fun s n => s.canEndQueue n dUNDELIVERABLE eDIE_UNREACHABLE true)
  let ls := s.pwmRecs.map PwmRec.lsn ++ s.cmnRecs.filterMap CmnRec.lsn
  let s := s.dropCmnWork.disposeAll ls dUNDELIVERABLE eDIE_UNREACHABLE
  { s with pwmRecs := [], cmnRecs := [], mod_ := { s.mod_ with cmnSafe := true } }

/-! ### Restart (R275, R319, R322) -/

/-- The supply of a die has been below 2.0 V for the 20 ms of its hold-up (`up` false), or returns and the die starts
again. FI hangs on F1's barrier driver, and the Commons on the lanes' supply paths. -/
def execDieRestart (d : Die) (up : Bool) (s : State) : Out :=
  if d = .FI then
    if up then .next (if s.f1.up && s.mod_.poweredOn && !s.mod_.asleep then s.dieFresh .FI else s)
    else .next (s.dieDown .FI)
  else if up then .next (if s.mod_.poweredOn && !s.mod_.asleep then s.dieFresh d else s)
  else
    let s := s.dieDown d
    .next (if d = .F1 then s.dieDown .FI else s)

/-- F1 restarts barrier power once the field supply has been above its recovery level for 1 ms (R322). -/
def execBarrierRestart (s : State) : Out :=
  if s.f1.up && !s.fdBit 1 F.FCH_DIE_STATUS_SUPPLY_CUT then .next (s.dieFresh .FI) else .next s

/-- The command link clock of one port is lost: CD6 runs from the other port's (R33). The Commons derives no clock from a
command link. -/
def execCommandLinkClockLoss (d : Die) (l : Lane) (s : State) : Out :=
  if d = .CMN then .next s else .next (s.setDie d { s.die d with clockPort := some l.other })

/-- The configuration of a restarted die goes out again: each region's copy, under what a pending copy already sets
(R275). -/
def State.restoreRegion (s : State) (h : Lane) (block region : Nat) (ws : List RegCell) : State :=
  if ws = [] then s
  else if s.commits.any (fun c => c.isAt block region h) then
    s.setCommits (s.commits.map (fun c => if c.isAt block region h then { c with writes := cellsMerge ws c.writes } else c))
  else s.addCommit block region h ws [] false

/-- Regions of a shared block, as its commits are split. -/
def sharedRegion (a : Nat) : Nat :=
  let o := a % 0x100000
  match slotOf a with
  | 2 => (o - 0x100) / 0x20 + 1
  | 6 => o / 0x80000
  | 7 => o / 0x80000
  | 8 => o / 0x40000
  | 10 => 100
  | 11 => canRegion a
  | 12 => linRegion a
  | 13 => ethRegion a
  | 14 => timeRegion a
  | _ => 0

/-- A lane reads in a status frame that a die has restarted: the holder sends the die's full configuration with its next
frame (R275, R123). -/
def State.restoreDie (s : State) (l : Lane) (d : Die) : State :=
  let x := s.die d
  if !x.restarted || !x.up || s.holder != some l then s
  else
    let isElem := fun (a : Nat) => decide (R.CAN_FLTRAM 0 0 ≤ a ∧ a < 0xE0B20000)
    let ws := x.saved.filter (fun c => !isElem c.1)
    let keys := (ws.map (fun c => (slotOf c.1, sharedRegion c.1))).eraseDups
    let s := keys.foldl (fun s k => s.restoreRegion l k.1 k.2
      (ws.filter (fun c => slotOf c.1 == k.1 && sharedRegion c.1 == k.2))) s
    let elems := ((x.saved.filter (fun c => isElem c.1)).map (fun c => (c.1 - R.CAN_FLTRAM 0 0) / 8)).eraseDups
    let at_ := fun (e w : Nat) => (cellsGet x.saved (R.CAN_FLTRAM e w)).getD 0
    let s := elems.foldl (fun s e =>
      if s.fltQ.any (fun r => r.elem == e) then s else s.sendElem e (at_ e 0) (at_ e 1)) s
    s.setDie d { s.die d with restarted := false, saved := [] }

/-! ### Frames' urgent slots, keep-alive, scheduled switches -/

/-- The first urgent command on its way to a die arrives (R257): it acts unless its epoch is old. Its entry is DONE once no
die has still to take it (R264). -/
def execUrgentCommand (d : Die) (s : State) : Out :=
  match s.urgents.find? (fun u => u.die == d) with
  | none => .next s
  | some u =>
    let x := s.die d
    let s := { s with urgents := s.urgents.erase u }
    if !x.up then .next s
    else
      let s := if x.highEpoch.getD 0 ≤ u.epoch then
          match d with
          | .P0 => s.urgentPower 0 u
          | .P1 => s.urgentPower 1 u
          | .F0 => s.urgentField 0 u
          | .F1 => s.urgentField 1 u
          | .FI => s.urgentField 2 u
          | .CMN => s
        else s
      .next (if s.urgents.any (fun v => v.lsn == u.lsn) then s else s.done u.lsn)

/-- Outputs of a die: channels and gate drivers of a power die, channels of a field die. -/
def State.schedStart (s : State) (d : Die) (x : Nat) (late : Bool) : State :=
  match d with
  | .P0 => if x < 32 then s.startSched 0 x late else s
  | .P1 => if x < 32 then s.startSched 1 x late else s
  | .F0 => if x < 112 then s.fcStartSched 0 x late else s
  | .F1 => if x < 112 then s.fcStartSched 1 x late else s
  | .FI => if x < 32 then s.fcStartSched 2 x late else s
  | .CMN => s

/-- The die's tide replica reaches SW_PHASE (R236). -/
def execScheduledSwitch (d : Die) (x : Nat) (s : State) : Out :=
  if (s.die d).up then .next (s.schedStart d x false) else .next s

/-- The replica has not reached SW_PHASE within T_CYC_US of the window's opening (R236). -/
def execLateSwitch (d : Die) (x : Nat) (s : State) : Out :=
  if (s.die d).up then .next (s.schedStart d x true) else .next s

/-- The register and bit in which a die reports lost keep-alive. -/
def kaPlace : Die → Option (Nat × Fld)
  | .P0 => some (R.PCH_DIE_STATUS 0, F.PCH_DIE_STATUS_KA_LOST)
  | .P1 => some (R.PCH_DIE_STATUS 1, F.PCH_DIE_STATUS_KA_LOST)
  | .F0 => some (R.FCH_DIE_STATUS 0, F.FCH_DIE_STATUS_KA_LOST)
  | .F1 => some (R.FCH_DIE_STATUS 1, F.FCH_DIE_STATUS_KA_LOST)
  | .FI => some (R.FCH_DIE_STATUS 2, F.FCH_DIE_STATUS_KA_LOST)
  | .CMN => none

/-- No frame applied for 1.2 × T_CYC_US of the last applied one (R254, R323); freeze suspends keep-alive (R126). -/
def execKeepaliveTimeout (d : Die) (s : State) : Out :=
  match kaPlace d with
  | none => .next s
  | some p =>
    if (s.die d).up && !s.mod_.frozen && (s.die d).lastCycle.isSome then .next (s.setShBit p.1 p.2 true) else .next s

/-- The later of KEEPALIVE_HOLD and 1.2 × T_CYC_US after the last applied frame (R254): each output takes its fail
action. -/
def execFailAction (d : Die) (s : State) : Out :=
  match kaPlace d with
  | none => .next s
  | some p =>
    if !(s.die d).up || s.mod_.frozen || !s.shBit p.1 p.2 then .next s
    else match d with
      | .P0 => .next (s.failPower 0)
      | .P1 => .next (s.failPower 1)
      | .F0 => .next (s.failField 0)
      | .F1 => .next (s.failField 1)
      | .FI => .next (s.failField 2)
      | .CMN => .next s

/-! ### The event table (R343 to R345, Table 11.3) -/

/-- Interrupt of an IRQ event: to a function, to a real-time pair (as target 64 + p), or to the Elder. -/
def State.evIrq (s : State) (l : Lane) (arg : Nat) : State :=
  if (s.lane l).resetting.isSome then s.count l (R.TIDE_CNT 6)
  else
    let v := arg / 256 % 32
    if arg.testBit 6 then
      if arg % 8 < 4 then s.irq l (some (64 + arg % 8)) v else if arg % 8 = 4 then s.alarm l v else s
    else s.irq l (some (arg % 64)) v

/-- Entry `i` of a lane's event table fires, `delay` ticks after it became due (R344). The cycle entry and switching entries
fire with the boundary and the seal. -/
def execTideEventFire (l : Lane) (i delay : Nat) (s : State) : Out :=
  let c := s.reg l (R.TIDE_TEV_CTRL i)
  let ty := evType c
  let live := s.tideRuns l && decide (1 ≤ i ∧ i ≤ 1023) && evMode c != 0 &&
    s.bit l (R.TIDE_TEV_STAT i) F.TIDE_TEV_STAT_ARMED && ty != 7 && !isSwitch ty
  if !live then .next s
  else
    let arg := (s.reg l (R.TIDE_TEV_ARG i)).toNat
    let s := s.evFired l i
    let s := if delay = 0 then s
      else (s.count l (R.TIDE_CNT 3)).setFld l R.TIDE_MAXDLY F.TIDE_MAXDLY_MAX_TICKS
        (max (s.fld l R.TIDE_MAXDLY F.TIDE_MAXDLY_MAX_TICKS) (min delay 2046))
    match ty with
    | 1 => .next (s.startSeq l (arg % 16))
    | 2 => .next (s.pwmLoad l (arg % 4096))
    | 5 => .next (if s.harbRuns l then s.harbTrigger l (arg % 4096) 1 [] else s)
    | 6 => .next (s.evIrq l arg)
    | _ => .next s

end Sys2Proof.Machine
end

