-- ==== Sys2Proof/Machine/Clocks.lean ====
section
/-! DEFINITION. The RSTC and CLKC blocks of a lane (spec/04): clock monitors and the release sequence, watchdogs, block
resets, forced releases, and the 0x0Dxx commands. -/

namespace Sys2Proof.Machine

/-! ### Clock domains (Tables 4.4 and 4.5) -/

def domains17 : List Nat := [1, 2, 3, 4, 5, 6, 7]

/-- Order of release (Table 4.5, step 5). -/
def releaseOrder : List Nat := [7, 5, 4, 6, 3, 2, 1]

def State.domBit (s : State) (l : Lane) (n : Nat) (f : Fld) : Bool := s.bit l (R.CLKC_DOM_STAT n) f
def State.setDom (s : State) (l : Lane) (n : Nat) (f : Fld) (b : Bool) : State := s.setBitF l (R.CLKC_DOM_STAT n) f b

/-- Nominal count of a window (CLKC_DOMn_STAT.COUNT). -/
def nominalCount (reduced : Bool) (n : Nat) : Nat :=
  match n with
  | 1 => if reduced then 6400 else 12800
  | 2 => 5120
  | 3 => 2560
  | 4 => 6400
  | 5 => 5120
  | _ => 1280

/-- A count within the monitor window: ±0.5 % of nominal, ±5 % for CD7 (Table 4.4). -/
def countOk (reduced : Bool) (n count : Nat) : Bool :=
  let c := nominalCount reduced n
  let d := if count < c then c - count else count - c
  decide (d * 1000 ≤ c * (if n = 7 then 50 else 5))

/-- The module as a whole holds a lane in reset: RESET_N is low (R104), or the lane is the one that QUIET has put away
(R170). -/
def State.heldDown (s : State) (l : Lane) : Bool :=
  s.mod_.resetN || (s.quietOn && s.ferry.quietStay == some l.other)

/-- A lane's release steps may run: it has power, its supply monitor has released POR, its crystal runs, and freeze does not
hold them back (R114, R116, R128). -/
def State.releasing (s : State) (l : Lane) : Bool :=
  let x := s.lane l
  x.powered && x.released.contains 0 && !x.thermOff && x.deferred.isNone && !s.heldDown l &&
    s.bit l R.CLKC_XTAL_STAT F.CLKC_XTAL_STAT_XTAL_OK

/-- Domains of the order that are released now: those with CLK_GOOD, up to the first that has neither reported CLK_GOOD nor
failed (R114, R115). -/
def State.dueDomains (s : State) (l : Lane) : List Nat → List Nat
  | [] => []
  | n :: ns =>
    if s.domBit l n F.CLKC_DOM_STAT_CLK_GOOD || (s.lane l).forced.contains n then n :: s.dueDomains l ns
    else if s.domBit l n F.CLKC_DOM_STAT_CLK_FAIL then s.dueDomains l ns
    else []

def State.releaseDomains (s : State) (l : Lane) : State :=
  s.setLane l { s.lane l with released := 0 :: s.dueDomains l releaseOrder }

/-- A domain's PLL locks and its first window passes (R111). -/
def execClkGood (l : Lane) (n count : Nat) (s : State) : Out :=
  let red := s.domBit l 1 F.CLKC_DOM_STAT_REDUCED
  if s.releasing l && decide (1 ≤ n ∧ n ≤ 7) && countOk red n count && (s.lane l).resetting.isSome &&
      (s.lane l).resetting != some .core && !s.domBit l n F.CLKC_DOM_STAT_CLK_FAIL then
    let s := (s.setDom l n F.CLKC_DOM_STAT_CLK_GOOD true).setDom l n F.CLKC_DOM_STAT_LOCK (n != 7)
    .next ((s.setFld l (R.CLKC_DOM_STAT n) F.CLKC_DOM_STAT_COUNT count).releaseDomains l)
  else .next s

def State.clkFail (s : State) (l : Lane) (n : Nat) : State :=
  (s.setDom l n F.CLKC_DOM_STAT_CLK_FAIL true).setBitF l R.RSTC_STATUS F.RSTC_STATUS_CLK_FAIL_ANY true

/-- No CLK_GOOD 1 ms after the PLL was enabled (R115): the domain stays in reset, the others go on. -/
def execClkFail (l : Lane) (n : Nat) (s : State) : Out :=
  if s.releasing l && decide (1 ≤ n ∧ n ≤ 7) && (s.lane l).resetting.isSome && (s.lane l).resetting != some .core &&
      !s.domBit l n F.CLKC_DOM_STAT_CLK_GOOD then
    .next ((s.clkFail l n).releaseDomains l)
  else .next s

/-- The crystal count comes within its window (R114, step 2). -/
def execXtalOk (l : Lane) (s : State) : Out :=
  let x := s.lane l
  if x.powered && x.released.contains 0 && !x.thermOff then
    let s := (s.setReg l R.CLKC_XTAL_STAT 1).setBitF l R.RSTC_STATUS F.RSTC_STATUS_XTAL_FAIL false
    let s := s.setDom l 0 F.CLKC_DOM_STAT_CLK_GOOD true
    .next (s.setFld l (R.CLKC_DOM_STAT 0) F.CLKC_DOM_STAT_COUNT 640)
  else .next s

/-- The crystal has not started 4.0 ms after step 2 began: the lane repeats step 2 (R116). -/
def execXtalFail (l : Lane) (s : State) : Out :=
  let x := s.lane l
  if x.powered && x.released.contains 0 && !s.bit l R.CLKC_XTAL_STAT F.CLKC_XTAL_STAT_XTAL_OK then
    .next ((s.setReg l R.CLKC_XTAL_STAT 2).setBitF l R.RSTC_STATUS F.RSTC_STATUS_XTAL_FAIL true)
  else .next s

/-- A window fails in operation (R112): on CD1 to CD6 the lane takes SYS with cause 0x90; on CD7 the Lighthouse sees a
clock glitch. -/
def execClockMonitorFault (l : Lane) (n count : Nat) (s : State) : Out :=
  let red := s.domBit l 1 F.CLKC_DOM_STAT_REDUCED
  if !(s.lane l).powered || countOk red n count || !(s.lane l).released.contains n then .next s
  else
    let s := s.setFld l (R.CLKC_DOM_STAT n) F.CLKC_DOM_STAT_COUNT count
    if n = 7 then .next (s.tamper l sCGLITCH)
    else if 1 ≤ n ∧ n ≤ 6 then
      let s := (s.laneReset l .sys 0x90 n).setDom l n F.CLKC_DOM_STAT_FREQ_ERR true
      .next (s.clkFail l n)
    else .next s

/-! ### The Elder starts (Table 4.5, step 6) -/

/-- Entries of RESET reach DONE once every targeted lane has released (R109). -/
def State.settleResets (s : State) (l : Lane) : State :=
  let ls := (s.lane l).resetLsns
  let s := s.setLane l { s.lane l with resetLsns := [] }
  let waits := fun (s : State) (m : Lane) (n : Nat) =>
    (s.lane m).resetLsns.contains n || (s.lane m).pendResets.any (fun p => p.lsn == n)
  s.forEach ls (fun s n => if waits s .E n || waits s .W n then s else s.done n)

/-- LSTEP_TESTs whose lane has released after the mismatch. -/
def State.settleTests (s : State) (l : Lane) : State :=
  let ls := (s.lstepTests.filter (fun t => t.2 == l)).map Prod.fst
  ({ s with lstepTests := s.lstepTests.filter (fun t => t.2 != l) }).disposeAll ls dDONE 0

/-- Lane E is the home lane where STRAP0 reads high (R168). -/
def strapHome (straps : Nat) : Nat := if straps.testBit 0 then 0 else 1

def State.homeLane (s : State) (l : Lane) : Lane := if s.fld l R.FERRY_LANE F.FERRY_LANE_HOME = 0 then .E else .W

/-- What the straps sampled at a lane's POR show (R66, R67). -/
def State.showStraps (s : State) (l : Lane) : State :=
  let x := (s.lane l).straps
  let k := strapClass x
  let s := s.setFld l R.FERRY_LANE F.FERRY_LANE_HOME (strapHome x)
  let s := s.setFld l R.SUPC_STATUS F.SUPC_STATUS_STRAP_CLASS k
  let s := s.setBitF l R.SUPC_STATUS F.SUPC_STATUS_STRAP_INVALID (k == 3)
  let s := s.setBitF l R.SUPC_STATUS F.SUPC_STATUS_VKEEP_LOST (!s.mod_.vkeepE && !s.mod_.vkeepW)
  s.reloadShadow l 0xE0200000 0xE0300000

/-- What a SYS or POR release does before the Elder runs: suspect marks end where every clock is good (R118), a lane whose
debugger has gone compares again (R524), the page-owner table is empty (R534), the parish record is loaded after a POR
(R598), and registers that show shared or strapped facts show them again. -/
def State.deepRelease (s : State) (l : Lane) (por : Bool) (badSlots : Nat) : State :=
  let good := domains17.all (fun n => s.domBit l n F.CLKC_DOM_STAT_CLK_GOOD)
  let s := if good then (s.setReg l R.RSTC_SUSPECT 0).setBitF l R.RSTC_STATUS F.RSTC_STATUS_SUSPECT_ANY false else s
  let s := if s.bit l R.LSTP_STATUS F.LSTP_STATUS_DBG_ATTACHED then s
    else (s.setBitF l R.LSTP_STATUS F.LSTP_STATUS_LSTEP_BROKEN false).forEach (List.range 5) (fun s k =>
      s.setBitF l (R.LSTP_PAIR_STAT k) F.LSTP_PAIR_STAT_BROKEN false)
  let s := s.clearMem l potLpBase (potLpBase + 0x200000)
  let s := if por then (s.parLoad l badSlots).takeAon l else s
  let s := s.showStraps l
  s.forEach (List.range 161) State.syncQuota

/-- The Elder starts from the boot ROM: the lane enters BOOT (R133), with WDT0 at 100 ms and SYS level (R105). -/
def State.elderStart (s : State) (l : Lane) (badSlots : Nat) : State :=
  let lvl := (s.lane l).resetting
  let s := if lvl = some .core then s else s.deepRelease l (lvl == some .por) badSlots
  let s := s.setLane l { s.lane l with resetting := none, elderUp := true, bootOk := false, upSince := s.now,
                                       coresHeld := false }
  let s := s.setLst l stBOOT
  let s := if lvl = some .core then s
    else (s.setReg l (R.RSTC_WDT_CFG 0) 0x03E70003).setFld l (R.RSTC_WDT_CNT 0) F.RSTC_WDT_CNT_REMAIN 1000
  (((s.settleResets l).settleTests l).syncPairs l).syncLedgLane l

/-- Step 6 of Table 4.5. CD2 carries the Elder; after CORE, the recheck of CD1 and CD2 has passed. -/
def execElderReleased (l : Lane) (badSlots : Nat) (s : State) : Out :=
  let x := s.lane l
  let out := fun (n : Nat) => x.released.contains n || s.domBit l n F.CLKC_DOM_STAT_CLK_FAIL
  let ready := match x.resetting with
    | none => false
    | some .core => !x.coresHeld
    | some _ => s.releasing l && x.released.contains 2 && domains17.all out
  if ready && x.powered && x.deferred.isNone && !s.heldDown l then .next (s.elderStart l badSlots)
  else .next s

/-- After a CORE reset: CLK_GOOD of CD1 and CD2 is rechecked and their reset parts released (R114). -/
def execCoreResetRelease (l : Lane) (s : State) : Out :=
  let x := s.lane l
  if x.resetting == some .core && x.powered && x.deferred.isNone && s.domBit l 1 F.CLKC_DOM_STAT_CLK_GOOD &&
      s.domBit l 2 F.CLKC_DOM_STAT_CLK_GOOD then
    .next (s.setLane l { x with coresHeld := false })
  else .next s

/-! ### Watchdogs (R105) -/

/-- Length of a watchdog's period in units of 100 µs. -/
def State.wdtPeriod (s : State) (l : Lane) (n : Nat) : Nat :=
  s.fld l (R.RSTC_WDT_CFG n) F.RSTC_WDT_CFG_PERIOD_M1 + 1

def State.wdtOn (s : State) (l : Lane) (n : Nat) : Bool := s.bit l (R.RSTC_WDT_CFG n) F.RSTC_WDT_CFG_EN

/-- A watchdog starts a full period. -/
def State.wdtRestart (s : State) (l : Lane) (n : Nat) : State :=
  s.setFld l (R.RSTC_WDT_CNT n) F.RSTC_WDT_CNT_REMAIN (min (s.wdtPeriod l n) 65535)

def State.wdtExpire (s : State) (l : Lane) (n : Nat) : State :=
  let lvl := if s.bit l (R.RSTC_WDT_CFG n) F.RSTC_WDT_CFG_LEVEL then RLevel.sys else .core
  let s := s.laneReset l lvl 0x20 n
  if s.wdtOn l n then s.wdtRestart l n else s

/-- A kick with `remain` units left: the right key restarts the period, unless the kick falls into the closed window; any
other expires the watchdog. A watchdog that is off has no period. -/
def execWdtKick (l : Lane) (n key remain : Nat) (s : State) : Out :=
  if !decide (n ≤ 5) || !s.wdtOn l n || s.mod_.frozen || !(s.lane l).powered then .next s
  else
    let p := s.wdtPeriod l n
    let closed := s.fld l (R.RSTC_WDT_CFG n) F.RSTC_WDT_CFG_CLOSED
    let early := decide ((p - min remain p) * 256 < closed * p)
    if key = 0x5A5A ∧ early = false then .next (s.wdtRestart l n) else .next (s.wdtExpire l n)

/-- A period ends without a kick; freeze suspends watchdogs (Table 4.6). -/
def execWatchdogExpiry (l : Lane) (n : Nat) (s : State) : Out :=
  if decide (n ≤ 5) && s.wdtOn l n && !s.mod_.frozen && (s.lane l).powered then .next (s.wdtExpire l n) else .next s

/-! ### RSTC_REQ (Table 4.2, cause 0x70) -/

def State.rstcReq (s : State) (l : Lane) (who : Initiator) (value : Word) (code : Nat) (lvl : RLevel) : State :=
  if who = .elder ∧ getF value F.RSTC_REQ_KEY = 0xA5C3 ∧ getF value F.RSTC_REQ_LEVEL = code ∧ s.mod_.frozen = false then
    s.laneReset l lvl 0x70 0
  else s

def execRstcReqCore (l : Lane) (who : Initiator) (value : Word) (s : State) : Out :=
  .next ((s.rstcReq l who value 1 .core).busOk 0)

def execRstcReqSys (l : Lane) (who : Initiator) (value : Word) (s : State) : Out :=
  .next ((s.rstcReq l who value 2 .sys).busOk 0)

/-! ### Block resets (R119 to R122) -/

/-- Bits of RSTC_BLKRST that name a block. -/
def blkBits : List Nat := [0, 1, 2, 3, 4, 5, 8, 9, 10, 11]

/-- Register slots that a bit names. -/
def blkSlots (bit : Nat) : List Nat :=
  match bit with
  | 0 => [9]
  | 1 => [10]
  | 2 => [15]
  | 3 => [16]
  | 4 => [18]
  | 5 => [22]
  | 8 => [6]
  | 9 => [7]
  | 10 => [8]
  | _ => [11, 12, 13, 14, 17]

/-- Clock domain of a block (RSTC_BLKRST). -/
def blkDomain (bit : Nat) : Nat := if bit ≤ 1 then 3 else if bit ≤ 5 then 4 else 6

/-- Work of a block that a lane does: the holder's, and a function's own in its lane. -/
def State.blkWork (s : State) (l : Lane) (bit : Nat) (e : LEntry) : Bool :=
  e.live && (blkSlots bit).contains (if e.req.isQueue then 18 else blockOf e.opcode) &&
    (if bit = 4 then s.replicated (e.quota % 64) || e.req.lane == l else s.holderOr l == l)

/-- What a block holds beyond its registers is reset with it. The Commons and the channels keep their state (R121). -/
def State.blkTyped (s old : State) (l : Lane) (bit : Nat) : State :=
  match bit with
  | 0 => match l with
    | .E => { s with tideE := .reset }
    | .W => { s with tideW := .reset }
  | 1 => s.setCvc l .reset
  | 2 => match l with
    | .E => { s with harbE := .reset, harbInE := [] }
    | .W => { s with harbW := .reset, harbInW := [] }
  | 3 => { s with cw := { s.cw with out := s.cw.out.filter (fun a => a.lane != l), wait := s.cw.wait.filter (fun a => a.lane != l),
                                    blks := s.cw.blks.filter (fun b => b.lane != l) } }
  | 4 => { s with iovQs := s.iovQs.filter (fun q => q.lane != l), vfOps := s.vfOps.filter (fun v => v.lane != l),
                  quiesces := s.quiesces.filter (fun v => v.lane != l) }
  | 5 => s.keepUpd old l
  | 11 => match l with
    | .E => { s.clearCanRx .E with eth := { s.eth with rxE := [] } }
    | .W => { s.clearCanRx .W with eth := { s.eth with rxW := [] } }
  | _ => s

/-- A block of a lane enters reset (R46, R119, R122). -/
def State.blockReset (s : State) (l : Lane) (bit : Nat) : State :=
  let old := s
  let s := s.resetWork (s.blkWork l bit)
  let s := s.forEach (blkSlots bit) (fun s b => s.resetBlock l b)
  let s := s.blkTyped old l bit
  let s := s.setFld l R.RSTC_BLKRST ⟨bit, bit⟩ 1
  let x := s.lane l
  s.setLane l { x with blocksInReset := bit :: x.blocksInReset.filter (fun b => b != bit) }

/-- Who may reset a block by RSTC_BLKRST (R119). -/
def State.mayBlkrst (s : State) (l : Lane) (who : Initiator) (bit : Nat) : Bool :=
  match who with
  | .elder => true
  | .secure => false
  | .func f => !([4, 5, 11].contains bit) &&
      s.grants.any (fun g => g.standing && g.block == ((blkSlots bit).head?).getD 0 && g.fn == f && g.lane == l)

def execBlkrstWrite (l : Lane) (who : Initiator) (mask : Nat) (s : State) : Out :=
  okBus <| if !(s.lane l).elderUp || s.mod_.frozen then .next s
  else .next (s.forEach (blkBits.filter (fun b => mask.testBit b)) (fun s b =>
    if s.mayBlkrst l who b then s.blockReset l b else s))

/-- BLOCK_RESET quiesces a block before it resets it: it waits while the block has work in execution. -/
def State.blkTry (s : State) (l : Lane) : State :=
  (s.lane l).blkWait.foldl (fun s p =>
    if s.led.entries.any (fun e => e.st == .executing && s.blkWork l p.2 e) then s
    else
      let x := s.lane l
      let s := s.setLane l { x with blkWait := x.blkWait.filter (fun q => q != p), blkLsns := x.blkLsns ++ [p] }
      s.blockReset l p.2) s

/-- A block is released 16 cycles of its clock after the write, once its domain reports CLK_GOOD (R119): its shadow reloads
(R46), its suspect mark ends (R118), and BLOCK_RESET is done. -/
def execBlockResetRelease (l : Lane) (bit : Nat) (s : State) : Out :=
  let x := s.lane l
  if x.blocksInReset.contains bit && s.domBit l (blkDomain bit) F.CLKC_DOM_STAT_CLK_GOOD && !s.mod_.frozen then
    let s := s.setFld l R.RSTC_BLKRST ⟨bit, bit⟩ 0
    let s := s.setFld l R.RSTC_SUSPECT ⟨bit, bit⟩ 0
    let s := s.setBitF l R.RSTC_STATUS F.RSTC_STATUS_SUSPECT_ANY (s.reg l R.RSTC_SUSPECT != 0)
    let s := s.forEach (blkSlots bit) (fun s b =>
      s.reloadShadow l (0xE0000000 + b * 0x100000) (0xE0100000 + b * 0x100000))
    let ls := (x.blkLsns.filter (fun p => p.2 == bit)).map Prod.fst
    let x := s.lane l
    let s := s.setLane l { x with blocksInReset := x.blocksInReset.filter (fun b => b != bit),
                                  blkLsns := x.blkLsns.filter (fun p => p.2 != bit) }
    .next (s.disposeAll ls dDONE 0)
  else .next s

/-! ### Forced release (R118) -/

/-- Suspect marks of a domain's blocks: those of RSTC_BLKRST, and SUSPECT_OTHER where the domain has blocks beside them. -/
def suspectMarks (n : Nat) : Nat :=
  match n with
  | 3 => 0x3
  | 4 => 0x1003C
  | 6 => 0x10F00
  | _ => 0x10000

/-- In BENCH a domain without CLK_GOOD is released and its blocks are suspect; elsewhere the write has no effect. -/
def execForceCdWrite (l : Lane) (who : Initiator) (mask : Nat) (s : State) : Out :=
  if !s.mayWrite l 0 who then .next s.busErr
  else okBus <| if !s.bench l || s.mod_.frozen then .next s
  else .next (s.forEach (domains17.filter (fun n => mask.testBit n)) (fun s n =>
    if s.domBit l n F.CLKC_DOM_STAT_CLK_GOOD || (s.lane l).released.contains n then s
    else
      let x := s.lane l
      let s := s.setLane l { x with forced := n :: x.forced, released := x.released ++ [n] }
      let s := s.setReg l R.RSTC_SUSPECT (s.reg l R.RSTC_SUSPECT ||| BitVec.ofNat 32 (suspectMarks n))
      s.setBitF l R.RSTC_STATUS F.RSTC_STATUS_SUSPECT_ANY true))

/-! ### Restart of the Commons (R123, Table 4.9) -/

/-- Lanes whose Elder must ask: those out of RESET and BOOT and not DISQUALIFIED. -/
def State.cmnVoters (s : State) : List Lane :=
  bothLanes.filter (fun l => s.laneOut l && s.lst l != stDISQUALIFIED)

/-- An Elder writes RESTART; with every needed one the restart begins. -/
def State.cmnAsk (s : State) (l : Lane) : State :=
  if !s.mod_.cmnSafe then s
  else
    let s := s.setLane l { s.lane l with cmnRestartAsked := true }
    if s.cmnVoters.all (fun m => (s.lane m).cmnRestartAsked) then
      let s := (s.setLane .E { s.laneE with cmnRestartAsked := false }).setLane .W { s.laneW with cmnRestartAsked := false }
      { s with mod_ := { s.mod_ with cmnRestarting := true } }
    else s

def execRstcCmnRestart (l : Lane) (who : Initiator) (value : Word) (s : State) : Out :=
  okBus <| if who = .elder ∧ getF value F.RSTC_CMN_KEY = 0x3C0D ∧ getF value F.RSTC_CMN_RESTART = 1 ∧ s.mod_.frozen = false then
    .next (s.cmnAsk l)
  else .next s

/-- The kept COMMONS_RESTART requests are answered with RESULT. -/
def State.answerRestart (s : State) (result : Nat) : State :=
  let rs := (s.scs.inbox.filter (fun i => i.opcode == 0x0D06)).map Inbox.req
  rs.foldl (fun s r => s.respond r SCS_OK 0 (leBytes 4 result)) s

/-- The Commons reports its restart (Table 4.9): with RESULT 0 or 1 it leaves the safe state at its power-on configuration;
with 2 the safe state goes on. -/
def execCommonsRestartReport (result : Nat) (s : State) : Out :=
  if !s.mod_.cmnRestarting || !decide (result ≤ 2) then .next s
  else
    let s := { s with mod_ := { s.mod_ with cmnRestarting := false } }
    let s := if result = 2 then s
      else
        let s := s.dieFresh .CMN
        { s with mod_ := { s.mod_ with cmnSafe := false, cmnMismatch := decide (result = 1) } }
    .next (s.answerRestart result)

/-! ### Commands (Table 4.7) -/

/-- The nonces for a signed RESET, one per sender, as issued last (R107). -/
def specResetNonce : CmdSpec :=
  { opcode := 0x0D00, accepted := false, lenOk := fun r => r.length == 0, maxResp := 8,
    answer := fun s _ => s.freeBytes 8,
    effect := fun s r =>
      let l := (s.servedBy r.lane).getD r.lane
      let st := s.streamOf r.lane r.src
      let x := s.lane l
      (s.setLane l { x with nonces := (st, leNat (s.freeBytes 8), s.now) :: x.nonces.filter (fun n => n.1 != st) }).tickFree }

/-- NONCE is the one issued last to the sender, unused and at most 10 s old (R107). -/
def resetNonceOk (s : State) (r : Req) : Bool :=
  let l := (s.servedBy r.lane).getD r.lane
  match (s.lane l).nonces.find? (fun n => n.1 == s.streamOf r.lane r.src) with
  | some n => n.2.1 == r.u 4 8 && decide (s.now ≤ n.2.2 + 10000000)
  | none => false

/-- Function or session number of a sender (Table 4.2). -/
def srcNumber : Src → Nat
  | .func f => f
  | .session n => n
  | _ => 0

/-- A targeted lane cannot be reset: it is absent, disqualified, or held in reset by CLK_FAIL (R109). -/
def State.resetAbsent (s : State) (me l : Lane) : Bool :=
  !(s.lane l).powered || s.lst l == stDISQUALIFIED ||
    (s.lst l == stRESET && s.bit l R.RSTC_STATUS F.RSTC_STATUS_CLK_FAIL_ANY) ||
    (l != me && !s.bit me R.FERRY_LANE F.FERRY_LANE_STRAIT_UP)

/-- One targeted lane of a RESET: its own lane waits for the cycle boundary, the other's reset message crosses the Strait
(R109, R110). -/
def State.resetTarget (s : State) (me l : Lane) (lvl : RLevel) (detail lsn : Nat) : State :=
  if s.resetAbsent me l then s.dispose lsn dUNDELIVERABLE eLANE_ABSENT
  else
    let x := s.lane l
    let p : PendReset := { level := lvl, cause := if l = me then 0x30 else 0x31, detail := detail, lsn := lsn }
    let s := s.setLane l { x with pendResets := x.pendResets ++ [p] }
    if l = me then s else s.emit (.resetMsg l lvl detail lsn)

def specReset : CmdSpec :=
  { opcode := 0x0D01, accepted := true, lenOk := fun r => r.length == 44,
    param := fun _ r => decide (1 ≤ r.u8 0 ∧ r.u8 0 ≤ 2) && decide (1 ≤ r.u8 1 ∧ r.u8 1 ≤ 3) && r.u16 2 == 0,
    sigOk := fun s r => r.sigOk && resetNonceOk s r,
    onRefuse := noteToken,
    before := fun s r =>
      let l := (s.servedBy r.lane).getD r.lane
      let st := s.streamOf r.lane r.src
      s.setLane l { s.lane l with nonces := (s.lane l).nonces.filter (fun n => n.1 != st) },
    exec := fun s r lsn =>
      let me := (s.servedBy r.lane).getD r.lane
      let lvl := if r.u8 0 = 1 then RLevel.core else .sys
      (bothLanes.filter (fun l => (r.u8 1).testBit l.ix)).foldl (fun s l =>
        s.resetTarget me l lvl (srcNumber r.src) lsn) s }

/-- What a lane shows of the other while it hears it; else the bytes are open. -/
def seenBytes (s : State) (me l : Lane) (n : Nat) (data : List Byte) : List Byte :=
  if l = me ∨ s.bit me R.FERRY_LANE F.FERRY_LANE_STRAIT_UP = true then data else s.freeBytes n

def clockBytes (s : State) (l : Lane) : List Byte :=
  wordBytes (s.reg l R.CLKC_XTAL_STAT) ++ ((List.range 8).map (fun n => wordBytes (s.reg l (R.CLKC_DOM_STAT n)))).flatten

def specClockStatus : CmdSpec :=
  { opcode := 0x0D02, accepted := false, lenOk := fun r => r.length == 1, maxResp := 72,
    param := fun _ r => decide (1 ≤ r.u8 0 ∧ r.u8 0 ≤ 3),
    answer := fun s r =>
      let me := (s.servedBy r.lane).getD r.lane
      ((bothLanes.filter (fun l => (r.u8 0).testBit l.ix)).map (fun l => seenBytes s me l 36 (clockBytes s l))).flatten,
    effect := fun s _ => s.tickFree }

def specResetCause : CmdSpec :=
  { opcode := 0x0D03, accepted := false, lenOk := fun r => r.length == 0, maxResp := 8,
    answer := fun s r =>
      let me := (s.servedBy r.lane).getD r.lane
      (bothLanes.map (fun l => seenBytes s me l 4 (wordBytes (s.reg l R.RSTC_RST_CAUSE)))).flatten,
    effect := fun s _ => s.tickFree }

/-- Lane that a LANE byte 0x01 or 0x02 names. -/
def laneByte (n : Nat) : Lane := if n = 2 then .W else .E

def laneByteOk (n : Nat) : Bool := n == 1 || n == 2

def specBlockReset : CmdSpec :=
  { opcode := 0x0D04, accepted := true, lenOk := fun r => r.length == 2,
    param := fun _ r => laneByteOk (r.u8 0) && blkBits.contains (r.u8 1),
    leaseOk := fun s r => !(s.leaseValid (laneByte (r.u8 0)) && decide (r.u8 1 ≤ 1)),
    exec := fun s r lsn =>
      let l := laneByte (r.u8 0)
      if !s.laneOut l then s.dispose lsn dUNDELIVERABLE eLANE_ABSENT
      else (s.setLane l { s.lane l with blkWait := (s.lane l).blkWait ++ [(lsn, r.u8 1)] }).blkTry l }

def specWatchdogSet : CmdSpec :=
  { opcode := 0x0D05, accepted := true, lenOk := fun r => r.length == 6,
    param := fun _ r => laneByteOk (r.u8 0) && decide (r.u8 1 ≤ 5) && onlyBits (r.w 2) 0xFFFF0FF3,
    stateOk := fun s r => !s.wdtOn (laneByte (r.u8 0)) (r.u8 1) || (r.w 2).toNat.testBit 0,
    exec := fun s r lsn =>
      let l := laneByte (r.u8 0)
      if !s.laneOut l then s.dispose lsn dUNDELIVERABLE eLANE_ABSENT
      else ((s.setReg l (R.RSTC_WDT_CFG (r.u8 1)) (r.w 2)).wdtRestart l (r.u8 1)).done lsn }

/-- Handled whether or not a lane holds the ferry; it writes RSTC_CMN of both lanes, and is answered with the report. -/
def specCommonsRestart : CmdSpec :=
  { opcode := 0x0D06, accepted := false, lenOk := fun r => r.length == 0, maxResp := 4, noLease := true,
    perm := fun _ r => r.src.isChief,
    stateOk := fun s _ => s.mod_.cmnSafe }

def execResetNonce (r : Req) (s : State) : Out := runScs specResetNonce r s
def execReset (r : Req) (s : State) : Out := runScs specReset r s
def execClockStatus (r : Req) (s : State) : Out := runScs specClockStatus r s
def execResetCause (r : Req) (s : State) : Out := runScs specResetCause r s
def execBlockReset (r : Req) (s : State) : Out := runScs specBlockReset r s
def execWatchdogSet (r : Req) (s : State) : Out := runScs specWatchdogSet r s

def execCommonsRestart (r : Req) (s : State) : Out :=
  let c := specCommonsRestart
  if s.deaf || waits c s r || (refusalOf c s r).isSome || r.hwFault then runScs c r s
  else
    let s := (s.count ((s.servedBy r.lane).getD r.lane) (R.SCSM_CNT 0)).keepReq c.opcode r
    .next ((s.cmnVoters.foldl State.cmnAsk s))

/-! ### The moments of a signed reset (R109, R110) -/

/-- The first pending reset of a lane with a cause code is asserted. -/
def State.assertPend (s : State) (l : Lane) (cause : Nat) : State :=
  let x := s.lane l
  match x.pendResets.find? (fun p => p.cause == cause) with
  | none => s
  | some p =>
    let s := s.setLane l { x with pendResets := x.pendResets.erase p, resetLsns := x.resetLsns ++ [p.lsn] }
    s.laneReset l p.level cause p.detail

/-- The target lane's RSTC acts on the message in hardware, without its Elder. -/
def execResetMessage (l : Lane) (s : State) : Out :=
  if (s.lane l).powered then .next (s.assertPend l 0x31) else .next s

def execSignedResetAssert (l : Lane) (s : State) : Out :=
  if (s.lane l).powered then .next (s.assertPend l 0x30) else .next s

end Sys2Proof.Machine
end

