-- ==== Sys2Proof/Machine/Module.lean ====
section
/-! DEFINITION. The module as a whole: supplies, straps and power-on (spec/02, spec/03), thermal responses, errors of critical
state (R106), RESET_N, freeze (R124 to R130), SLEEP and the wake from it (R87, R88, R510, R511). -/

namespace Sys2Proof.Machine

/-! ### Supplies (Table 3.3) -/

/-- The always-on logic has power: a VKEEP input, or FEED3 or FEED6 (R190, R602). -/
def State.aonPowered (s : State) : Bool := s.mod_.vkeepE || s.mod_.vkeepW || s.mod_.feedAon

/-- VKEEP_LOST is set while both VKEEP inputs are below 3.0 V (R83). -/
def State.syncVkeep (s : State) : State :=
  s.setBitBoth R.SUPC_STATUS F.SUPC_STATUS_VKEEP_LOST (!s.mod_.vkeepE && !s.mod_.vkeepW)

/-- A VKEEP input's voltage crosses 3.0 V, with its new value in mV. The always-on logic that gets its first supply asserts
INH0 to INH3 (Table 2.10, step 1). -/
def execVkeepInputChange (l : Lane) (mv : Int) (s : State) : Out :=
  let up := decide (3000 ≤ mv)
  let was := s.aonPowered
  let s := match l with
    | .E => { s with mod_ := { s.mod_ with vkeepE := up } }
    | .W => { s with mod_ := { s.mod_ with vkeepW := up } }
  let f := match l with
    | .E => F.SUPC_VKEEP_V_KEEP_E
    | .W => F.SUPC_VKEEP_V_KEEP_W
  let s := s.setFldBoth R.SUPC_VKEEP f (uext 16 (satS 16 (mv / 2)))
  let s := if !was && up then { s with mod_ := { s.mod_ with inh := [true, true, true, true] } } else s
  .next s.syncVkeep

/-- A lane's selected input falls below 2.8 V, or recovers in time: hold-up carries the lane (R82). -/
def execLaneSupplyLow (l : Lane) (low : Bool) (s : State) : Out :=
  let x := s.lane l
  if x.powered then .next (s.setLane l { x with holdup := low, warned := x.warned && low }) else .next s

/-- The supply monitor's warning (R196): no more completion records leave the lane, its MRAM writes drain, the parish record
is flushed (R598). -/
def execSupplyWarning (l : Lane) (s : State) : Out :=
  let x := s.lane l
  if x.powered && x.holdup then
    let s := s.setLane l { x with warned := true }
    .next (if (s.lane l).elderUp then s.parFlush l else s)
  else .next s

/-- The straps are sampled as a lane's POR is released (R66); a feed that no image has configured takes their class (R78). -/
def State.porRelease (s : State) (l : Lane) (straps : Nat) : State :=
  let s := { s with mod_ := { s.mod_ with straps := straps % 8 } }
  let s := s.setLane l { s.lane l with powered := true, holdup := false, warned := false, released := [0],
                                       resetting := some .por, straps := straps % 8,
                                       strapOk := decide (strapClass (straps % 8) ≠ 3), deferred := none }
  let s := if s.p0.up && !s.pw0.configured then s.strapFeeds 0 else s
  let s := if s.p1.up && !s.pw1.configured then s.strapFeeds 1 else s
  s.showStraps l

/-- The lane's supply monitor asserts POR after the hold-up, or releases it (R82, Table 2.10, step 3). A lane in thermal
shutdown, or put away by QUIET, stays in POR. -/
def execLanePor (l : Lane) (on : Bool) (straps : Nat) (s : State) : Out :=
  let x := s.lane l
  if on then
    if x.powered && x.holdup then
      let s := s.laneReset l .por 0x01 0
      .next (s.setLane l { s.lane l with powered := false, holdup := false })
    else .next s
  else if s.mod_.poweredOn && !s.mod_.asleep && !x.thermOff && x.released == [] && x.resetting == some .por &&
      !s.heldDown l then
    .next (s.porRelease l straps)
  else .next s

/-- Dies of Table 2.10, step 2, start with nothing configured; FI waits for its barrier power. -/
def State.diesStart (s : State) : State :=
  let s := [Die.P0, Die.P1, Die.F0, Die.F1, Die.CMN].foldl (fun s d =>
    let s := s.dieFresh d
    s.setDie d { s.die d with saved := [] }) s
  let s := s.dieDown .FI
  s.setDie .FI { s.die .FI with saved := [] }

/-- The first feed rises through 6 V (Table 2.10): the dies start, unless a factory test input reads high (R60). FEED3 and FEED6
also carry the always-on logic. -/
def execPowerOn (feed : Nat) (test : Bool) (s : State) : Out :=
  let was := s.aonPowered
  let s := if feed = 3 ∨ feed = 6 then { s with mod_ := { s.mod_ with feedAon := true } } else s
  let s := if !was && s.aonPowered then { s with mod_ := { s.mod_ with inh := [true, true, true, true] } } else s
  if test || s.mod_.poweredOn then .next s
  else
    let s := { s with mod_ := { s.mod_ with poweredOn := true, configured := false } }
    let s := (s.setLane .E { s.laneE with powered := true }).setLane .W { s.laneW with powered := true }
    .next s.diesStart

/-- VKEEP_E, VKEEP_W, FEED3 and FEED6 are all below 3.0 V (R602): the deadline clock and the calendar stop, what the always-on
logic keeps is lost, and a trial ends (R591). -/
def execAlwaysOnPowerLoss (s : State) : Out :=
  let s := { s with mod_ := { s.mod_ with vkeepE := false, vkeepW := false, feedAon := false,
                                          inh := [false, false, false, false] } }
  let s := s.setLed { s.led with rtcLost := true }
  let s := s.setBitBoth R.PARI_STATUS F.PARI_STATUS_CAL_VALID false
  let s := s.forEach aonRegs (fun s a => s.setSh a 0)
  let s := if s.mod_.asleep then { s with mod_ := { s.mod_ with asleep := false, poweredOn := false } } else s
  let s := if s.upd.st = uTRIAL then s.startRevert else s
  .next s.syncVkeep

/-! ### Critical state and lock-step (R106, R524) -/

/-- An error in a structure of Table 4.3: a single-bit error is corrected and counted; any other asserts SYS. -/
def execEccError (l : Lane) (struct_ : Nat) (double : Bool) (s : State) : Out :=
  if !(s.lane l).powered || !decide (1 ≤ struct_ ∧ struct_ ≤ 7) then .next s
  else if double then .next (s.laneReset l .sys 0x40 struct_)
  else .next (s.count l R.PARI_ECC)

/-! ### Thermal responses (Table 3.8), readings in 1/16 °C -/

def deg (t : Int) : Int := 16 * t

/-- A flag set at one temperature and cleared below another. -/
def hyst (was : Bool) (temp set_ clr : Int) : Bool := if set_ ≤ temp then true else if temp < clr then false else was

/-- An Isle die at 125 °C or above withdraws where the other lane is a synchronised standby: it releases the ferry at the next
cycle boundary; else it sets THERM_CRIT and goes on (R96). Below 110 °C a withdrawn lane returns. -/
def State.isleCritical (s : State) (l : Lane) (temp : Int) : State :=
  let x := s.lane l
  if deg 125 ≤ temp then
    if s.lst l.other = stSTANDBY ∧ s.lst l = stACTIVE then
      (s.setLane l { x with withdrawing := true }) |> fun s =>
        { s with ferry := { s.ferry with handover := some .withdraw } }
    else if s.lst l = stWITHDRAWN then s
    else s.setLane l { x with thermCrit := true }
  else if temp < deg 110 then
    let s := s.setLane l { x with thermCrit := false, withdrawing := false }
    if s.lst l = stWITHDRAWN then s.setLst l stUNSYNC else s
  else s

/-- CD1 runs at 1.0 GHz from 120 °C until below 112 °C. -/
def State.isleReduced (s : State) (l : Lane) (temp : Int) : State :=
  let was := s.domBit l 1 F.CLKC_DOM_STAT_REDUCED
  let now_ := hyst was temp (deg 120) (deg 112)
  if now_ == was then s
  else
    let s := s.setDom l 1 F.CLKC_DOM_STAT_REDUCED now_
    if s.fld l (R.CLKC_DOM_STAT 1) F.CLKC_DOM_STAT_COUNT = 0 then s
    else s.setFld l (R.CLKC_DOM_STAT 1) F.CLKC_DOM_STAT_COUNT (nominalCount now_ 1)

/-- A thermal shutdown of a lane ends below 120 °C: its POR is released (Table 3.8). -/
def State.isleCool (s : State) (l : Lane) (temp : Int) : State :=
  let x := s.lane l
  if x.thermOff && decide (temp < deg 120) then
    let s := s.setLane l { x with thermOff := false }
    if x.powered && !s.heldDown l then s.porRelease l s.mod_.straps else s
  else s

def State.isleTemp (s : State) (l : Lane) (temp : Int) : State :=
  let x := s.lane l
  let s := s.setLane l { x with junction := uext 16 (satS 16 temp),
                                thermWarn := hyst x.thermWarn temp (deg 115) (deg 110) }
  ((s.isleReduced l temp).isleCritical l temp).isleCool l temp

/-- Die of a thermal location: 2 the Commons, 3 F0, 4 F1, 5 FI. -/
def thermDie (loc : Nat) : Die :=
  match loc with
  | 2 => .CMN
  | 3 => .F0
  | 4 => .F1
  | _ => .FI

def State.therm (s : State) (k : Nat) : ThermRt := (s.mod_.therms[k]?).getD ⟨false, false, false⟩
def State.setTherm (s : State) (k : Nat) (x : ThermRt) : State :=
  { s with mod_ := { s.mod_ with therms := s.mod_.therms.set k x } }

/-- A field die that has cooled below 120 °C restarts (R275). The Commons leaves its safe state by a restart only (R123). -/
def State.dieTemp (s : State) (k : Nat) (temp : Int) : State :=
  let x := s.therm k
  let cool := x.off && decide (temp < deg 120)
  let s := s.setTherm k ⟨hyst x.warn temp (deg 115) (deg 110), hyst x.crit temp (deg 125) (deg 110), x.off && !cool⟩
  if cool && decide (1 ≤ k) && s.mod_.poweredOn && !s.mod_.asleep && (k != 3 || s.f1.up) then s.dieFresh (thermDie (k + 2))
  else s

/-- A junction crosses a threshold: locations 0 and 1 are Isle E and Isle W, 2 the Commons, 3 to 5 F0, F1 and FI. -/
def execJunctionThreshold (loc : Nat) (temp : Int) (s : State) : Out :=
  match loc with
  | 0 => .next (s.isleTemp .E temp)
  | 1 => .next (s.isleTemp .W temp)
  | _ => if loc ≤ 5 then .next (s.dieTemp (loc - 2) temp) else .next s

def State.isleShutdown (s : State) (l : Lane) (temp : Int) : State :=
  if (s.lane l).powered then
    let s := (s.isleTemp l temp).laneReset l .por 0x80 0
    s.setLane l { s.lane l with thermOff := true }
  else s

/-- A die at 140 °C or above (Table 3.8): POR of the lane, the safe state of the Commons, or shutdown of the field die. -/
def execThermalShutdown (loc : Nat) (temp : Int) (s : State) : Out :=
  if temp < deg 140 then .next s
  else match loc with
    | 0 => .next (s.isleShutdown .E temp)
    | 1 => .next (s.isleShutdown .W temp)
    | 2 => .next ((s.dieTemp 0 temp).enterCmnSafe)
    | _ =>
      if loc ≤ 5 then
        let k := loc - 2
        let s := s.dieTemp k temp
        let s := s.setTherm k { s.therm k with off := true }
        let s := s.dieDown (thermDie loc)
        .next (if loc = 4 then s.dieDown .FI else s)
      else .next s

/-! ### RESET_N (R104) -/

def State.bothReset (s : State) (lvl : RLevel) (cause detail : Nat) : State :=
  bothLanes.foldl (fun s l => if (s.lane l).powered then s.laneReset l lvl cause detail else s) s

/-- RESET_N has been low for 10 µs: SYS in both lanes. -/
def execResetNAssert (s : State) : Out :=
  if s.mod_.resetN || !s.mod_.poweredOn || s.mod_.asleep then .next s
  else .next ({ s with mod_ := { s.mod_ with resetN := true } }.bothReset .sys 0x10 0)

/-- RESET_N returns high: both lanes may release. -/
def execResetNRelease (s : State) : Out := .next { s with mod_ := { s.mod_ with resetN := false } }

/-! ### Freeze (Table 4.6, R124 to R130) -/

def frzDomains : List Nat := [1, 2, 3, 4, 5, 7]

def State.setFrozen (s : State) (l : Lane) (b : Bool) : State :=
  let s := s.setBitF l R.RSTC_STATUS F.RSTC_STATUS_FROZEN b
  let s := s.forEach frzDomains (fun s n => s.setDom l n F.CLKC_DOM_STAT_FRZ_STOPPED b)
  s.setLane l { s.lane l with memSelfRefresh := b }

/-- FREEZE_N is qualified; it counts only where every powered lane is in BENCH. The Commons drives the safe pattern, the lanes
stop, their SAFE balls are low (Table 2.11). -/
def execFreezeEntry (s : State) : Out :=
  let ls := bothLanes.filter (fun l => (s.lane l).powered)
  if s.mod_.frozen || !s.mod_.poweredOn || s.mod_.asleep || ls == [] || !ls.all s.bench then .next s
  else
    let s := { s with mod_ := { s.mod_ with frozen := true } }
    let s := s.setShBit R.CVC_SEL_STATUS F.CVC_SEL_STATUS_FRZ_PWM_HOLD true
    let s := s.forEach pairs12 (fun s k => s.setSel k { s.sel k with held := true })
    .next (ls.foldl (fun s l =>
      let s := (s.setFrozen l true).setBitF l R.RSTC_STATUS F.RSTC_STATUS_FRZ_PWM_HOLD true
      s.setLane l { s.lane l with safeBall := false }) s)

/-- FREEZE_N is qualified high (R129): the domains restart, each watchdog with a full period; release steps that waited run
(R128), and what the Commons kept reaches the lanes. The lease goes on with the time it had left. -/
def execFreezeThaw (s : State) : Out :=
  if !s.mod_.frozen then .next s
  else
    let s := { s with mod_ := { s.mod_ with frozen := false } }
    let s := bothLanes.foldl (fun s l =>
      let s := (s.setFrozen l false).setBitF l R.RSTC_STATUS F.RSTC_STATUS_RESET_DEFERRED false
      let s := s.setLane l { s.lane l with deferred := none }
      let s := s.forEach (List.range 6) (fun s n => if s.wdtOn l n then s.wdtRestart l n else s)
      s.syncSafe l) s
    .next s.canThaw

/-- The lease holder clears FRZ_PWM_HOLD (R130): each pair returns to its stream at its next period boundary. -/
def execFrzPwmHoldClear (l : Lane) (s : State) : Out :=
  if s.leaseValid l && !s.mod_.frozen then
    .next ((s.setBitBoth R.RSTC_STATUS F.RSTC_STATUS_FRZ_PWM_HOLD false).setShBit R.CVC_SEL_STATUS
      F.CVC_SEL_STATUS_FRZ_PWM_HOLD false)
  else .next s

/-! ### Retention in QUIET (R170, step 4) -/

/-- A core of the staying lane executes WFI with no interrupt pending: it enters retention, and with the last one LPDDR5X enters
self-refresh. -/
def execCoreWfiRetention (l : Lane) (core : Nat) (s : State) : Out :=
  let x := s.lane l
  if s.quietOn && s.ferry.quietStay == some l && decide (core < 8) && x.elderUp then
    let r := core :: x.retention.filter (fun c => c != core)
    .next (s.setLane l { x with retention := r, memSelfRefresh := decide (8 ≤ r.length) })
  else .next s

/-! ### SLEEP (R87, R510) -/

/-- A field die in SLEEP: channels armed for wake sense, the others are parked (Table 2.11). -/
def State.fieldSleep (s : State) (d : Nat) : State :=
  s.forEach (List.range (fcCount d)) (fun s m =>
    if s.shBit (R.FCH_STATE d m) F.FCH_STATE_WAKE_ARMED then s
    else (s.setFc d m { FcRt.reset with temp := (s.fc d m).temp }).setFSt d m fPARKED)

/-- The entry to SLEEP completes: only the always-on logic and the wake logic of the Commons, F0 and F1 run. -/
def execModuleSleep (s : State) : Out :=
  if !s.shBit R.NMS_STATUS F.NMS_STATUS_MOD_ENTERING || !s.moduleMaySleep then .next s
  else
    let s := bothLanes.foldl (fun s l =>
      if (s.lane l).powered then
        let s := (s.parFlush l).laneReset l .por 0x01 0
        s.setLane l { s.lane l with powered := false, holdup := false }
      else s) s
    let s := ((s.dieDown .P0).dieDown .P1).dieDown .FI
    let s := (s.fieldSleep 0).fieldSleep 1
    let s := { s with cmn := { s.cmn with up := false },
                      mod_ := { s.mod_ with asleep := true, configured := false } }
    .next (s.setShBit R.NMS_STATUS F.NMS_STATUS_MOD_ENTERING false)

/-- What a wake from SLEEP keeps of the Commons' ports and coves: woken coves WAKING with their ports (Table 16.4, steps 5 and 6),
the others ASLEEP with theirs. -/
def State.keepCoves (s old : State) : State :=
  let s := s.forEach coves8 (fun s c => if old.coveEn c then s.setCoveSt c (old.coveSt c) else s)
  let s := s.forEach ports16 (fun s n =>
    match old.portCove n with
    | some _ => s.setCanTrx n (old.canTrx n)
    | none => s)
  let s := s.forEach ports8 (fun s p =>
    match old.portCove (16 + p) with
    | some _ => (s.setLinSt p (old.linSt p)).setLin p (old.lin p)
    | none => s)
  let s := s.forEach (List.range 10) (fun s p =>
    match old.portCove (24 + p) with
    | some _ => s.setShFld (R.ETHS_P_STAT p) F.ETHS_P_STAT_TC10 (old.shFld (R.ETHS_P_STAT p) F.ETHS_P_STAT_TC10)
    | none => s)
  s.forEach [0, 1] (fun s d => s.setSh (R.FCH_WAKE_STAT d) (old.shReg (R.FCH_WAKE_STAT d)))

/-- The pending coves begin their wake; the pending bits have been seen. -/
def State.wakePending (s : State) : State :=
  let p := s.shFld R.NMS_WAKE_PENDING F.NMS_WAKE_PENDING_COVES
  let cs := (maskBits 8 p).filter s.coveEn
  let s := cs.foldl (fun s c => (s.beginWake c).countSh (R.NMS_CNT 6)) s
  s.setSh R.NMS_WAKE_PENDING (if p = 0 then 0 else 0x8000)

/-- A wake from SLEEP (R88, R511): the power-on sequence from step 2, with the wake kept in the always-on logic. -/
def execModuleWake (s : State) : Out :=
  if !s.mod_.asleep then .next s
  else
    let s := { s with mod_ := { s.mod_ with asleep := false } }
    let s := s.wakePending
    let old := s
    let s := s.diesStart.keepCoves old
    .next ((s.setLane .E { s.laneE with powered := true }).setLane .W { s.laneW with powered := true })

/-- Every port of a waking cove is ready, or 200 ms have passed (Table 16.4, step 7): AWAKE, and held images are sent (R476). -/
def execWakingComplete (c : Nat) (s : State) : Out :=
  .next (if decide (c < 8) && s.cmnRuns && s.coveSt c == vWAKING then ((s.setCoveSt c vAWAKE).syncWakes).harbAwake else s)

end Sys2Proof.Machine
end

