-- ==== Sys2Proof/Machine/Ferry.lean ====
section
/-! DEFINITION. The lanes and the ferry (spec/05): the arbiter and its lease, what a lane does that becomes ACTIVE or STANDBY,
heartbeats, lane loss, the lease's messages, and the 0x0F00 to 0x0F09 commands. What happens at a cycle boundary stands in
Machine/Boundary.lean. A message leaves as an output; its receipt is a command of its own. -/

namespace Sys2Proof.Machine

/-! ### The arbiter (R154 to R156) -/

/-- The lanes' view of the holder the arbiter names. -/
def State.syncHolder (s : State) : State :=
  let s := s.setBitBoth R.FERRY_LANE F.FERRY_LANE_HELD s.arb.held.isSome
  match s.arb.held with
  | some l => s.setFldBoth R.FERRY_LANE F.FERRY_LANE_HOLDER_LANE l.ix
  | none => s

def State.reqPending (s : State) : Lane → Bool
  | .E => s.arb.reqE
  | .W => s.arb.reqW

def State.setReqPending (s : State) (l : Lane) (b : Bool) : State :=
  match l with
  | .E => { s with arb := { s.arb with reqE := b } }
  | .W => { s with arb := { s.arb with reqW := b } }

/-- DOWN of a lane, or its supply path below 2.8 V, as the Commons sees them (R154). -/
def State.seenLost (s : State) (l : Lane) : Bool :=
  (match l with
    | .E => s.arb.downE
    | .W => s.arb.downW) || !(s.lane l).powered || (s.lane l).holdup

/-- A lane that may send REQUEST (Table 5.6). -/
def State.mayRequest (s : State) (l : Lane) : Bool :=
  s.qualified l &&
    ((s.lst l == stBOOT && (s.lane l).bootOk) || s.lst l == stUNSYNC || s.lst l == stSYNCING || s.lst l == stSTANDBY)

def State.epoch (s : State) (l : Lane) : Nat := (s.reg l R.FERRY_EPOCH).toNat

/-- A lane sends REQUEST, if it is in a requesting state. -/
def State.sendRequest (s : State) (l : Lane) : State :=
  if s.mayRequest l then s.emit (.request l (s.epoch l)) else s

/-- HANDOVER entries end with a grant: DONE where it goes to the lane that was not the holder (R173). One that goes back to the
holder ends them with a free code, for the spec names no error. -/
def State.settleHandover (s : State) (l : Lane) : State :=
  let ps := s.ferry.handoverLsns
  let err := s.freeNat % 65536
  let s := { s with ferry := { s.ferry with released := none, handoverLsns := [] } }
  let s := s.disposeAll ((ps.filter (fun p => p.2 != l)).map Prod.fst) dDONE 0
  match (ps.filter (fun p => p.2 == l)).map Prod.fst with
  | [] => s
  | ls => s.tickFree.disposeAll ls dFAILED err

/-- The arbiter grants: EPOCH advances by 1, from the highest reported epoch after a restart of the Commons (R156), and its
lease count starts (R155). The half on the holder's supply path becomes the reference of the time bases (R447). -/
def State.arbGrant (s : State) (l : Lane) : State :=
  let a := s.arb
  let e := ((if a.restarted then a.reqEpochMax else a.epoch) + 1) % 2 ^ 32
  let s := { s with arb := { a with held := some l, epoch := e, grantTo := some l, released := false, restarted := false,
                                    renewAt := s.now } }
  let s := ((s.setReqPending l false).emit (.grant l e a.leaseUs)).syncHolder
  (s.refHalf l).settleHandover l

/-- No lane holds the lease any more; the first REQUEST that comes is granted. -/
def State.arbFree (s : State) : State := ({ s with arb := { s.arb with held := none, released := false } }).syncHolder

/-- The arbiter receives REQUEST of a lane with the epoch it knows (R154). -/
def execLeaseRequest (l : Lane) (epoch : Nat) (s : State) : Out :=
  if !s.cmn.up || !s.mayRequest l then .next s
  else
    let s := { s with arb := { s.arb with reqEpochMax := max s.arb.reqEpochMax (epoch % 2 ^ 32) } }
    let s := s.setReqPending l true
    match s.arb.held with
    | none => .next (s.arbGrant l)
    | some h => .next (if h = l.other ∧ (s.arb.released = true ∨ s.seenLost h = true) then s.arbGrant l else s)

/-- The lease count runs out (R154): the other lane's pending request is granted; with none pending no lane holds the lease. -/
def execArbiterLeaseExpiry (s : State) : Out :=
  match s.arb.held with
  | none => .next s
  | some h =>
    if !s.cmn.up then .next s
    else .next (if s.reqPending h.other then s.arbGrant h.other else if s.reqPending h then s.arbGrant h else s.arbFree)

/-- The arbiter receives RENEW, carrying LEASE_US (R154, R157): a holder's renewal restarts the count and is acknowledged. -/
def execLeaseRenew (l : Lane) (leaseUs : Nat) (s : State) : Out :=
  if !s.cmn.up || s.arb.held != some l || !(s.lane l).leaseRenewOut then .next s
  else
    let s := { s with arb := { s.arb with renewAt := s.now, leaseUs := leaseUs % 65536, ackTo := some l } }
    .next (s.emit (.ack l))

/-- The holder receives ACK: the renewal counts (R153). -/
def execLeaseAck (l : Lane) (s : State) : Out :=
  if s.arb.ackTo != some l || !(s.lane l).leaseRenewOut then .next s
  else .next (({ s with arb := { s.arb with ackTo := none } }).setLane l { s.lane l with leaseRenewOut := false })

/-- No ACK 50 µs after RENEW (R153, R141). -/
def execRenewMissed (l : Lane) (s : State) : Out :=
  if !(s.lane l).leaseRenewOut then .next s
  else
    let s := s.setLane l { s.lane l with leaseRenewOut := false }
    let s := if s.arb.ackTo = some l then { s with arb := { s.arb with ackTo := none } } else s
    let s := (s.setBitF l R.FERRY_STATUS F.FERRY_STATUS_RENEW_MISSED true).count l (R.FERRY_CNT 6)
    .next (s.emit (.laneLost l (s.epoch l) (s.reg l R.FERRY_CYCLE).toNat))

/-- The arbiter receives the holder's RELEASE (R154). -/
def execLeaseRelease (l : Lane) (s : State) : Out :=
  if !s.cmn.up || s.arb.held != some l || s.leaseValid l then .next s
  else if s.reqPending l.other then .next (s.arbGrant l.other)
  else .next { s with arb := { s.arb with released := true } }

/-! ### Lane states -/

/-- A snapshot is given up (Table 5.2). -/
def State.dropSnap (s : State) : State :=
  ({ s with ferry := { s.ferry with snapRuns := false, snapBytes := 0 } }).setFldBoth R.FERRY_REPL F.FERRY_REPL_SNAP_LEFT 0

def State.toUnsync (s : State) (l : Lane) : State :=
  (if s.lst l = stSYNCING then s.dropSnap else s).setLst l stUNSYNC

/-- The snapshot of a lane that sees the other ACTIVE starts (R139), unless it runs a different boot set (R593). -/
def State.startSync (s : State) (l : Lane) : State :=
  if s.bit l R.UPD_STATUS F.UPD_STATUS_VERSION_MISMATCH then s
  else
    let n := s.replPages l.other
    let s := { s with ferry := { s.ferry with snapRuns := false, snapBytes := 4096 * n } }
    (s.setFldBoth R.FERRY_REPL F.FERRY_REPL_SNAP_LEFT n).setLst l stSYNCING

/-- A lane without holder in sight asks for the ferry (Table 5.2, R140): a standby as soon as the holder is lost, another once
no lane holds it. -/
def State.seekFerry (s : State) (l : Lane) : State :=
  if s.lst l = stSTANDBY then (if s.ferry.released = some l then s else s.sendRequest l)
  else if (s.lst l = stUNSYNC ∨ s.lst l = stSYNCING) ∧ s.arb.held = none then s.sendRequest l
  else s

/-- The holder is lost, as a STANDBY lane judges it (R140). -/
def State.holderLost (s : State) (l : Lane) : Bool :=
  !s.bit l R.FERRY_LANE F.FERRY_LANE_STRAIT_UP || s.seenLost l.other ||
    (s.fld l R.FERRY_LANE F.FERRY_LANE_OTHER_STATE != stACTIVE && !s.leaseValid l)

/-- A lane receives the other lane's heartbeat with its state (R135). A lane in RESET sends none. -/
def execHeartbeat (l : Lane) (s : State) : Out :=
  let o := s.lst l.other
  if !(s.lane l).powered || !(s.lane l.other).powered || s.lst l = stRESET || o = stRESET then .next s
  else
    let s := (s.setBitF l R.FERRY_LANE F.FERRY_LANE_STRAIT_UP true).setFld l R.FERRY_LANE F.FERRY_LANE_OTHER_STATE o
    if o = stACTIVE then .next (if s.lst l = stUNSYNC then s.startSync l else s)
    else
      let s := if s.lst l = stSYNCING then s.toUnsync l else s
      .next (s.seekFerry l)

/-- No heartbeat for 30 µs: the other lane counts as lost (R135, R140). -/
def execStraitLost (l : Lane) (s : State) : Out :=
  if s.lst l = stRESET then .next s
  else
    let s := s.setBitF l R.FERRY_STATUS F.FERRY_STATUS_STRAIT_LOST true
    let s := (s.setBitF l R.FERRY_LANE F.FERRY_LANE_STRAIT_UP false).setFld l R.FERRY_LANE F.FERRY_LANE_OTHER_STATE 0
    let s := if s.lst l = stSYNCING then s.toUnsync l else s
    .next (s.seekFerry l)

/-- A STANDBY lane that receives LANE_LOST sends REQUEST at once (R141); the notice changes no lane state. -/
def execLaneLostNotice (l : Lane) (_epoch _cycle : Nat) (s : State) : Out :=
  .next (if s.lst l = stSTANDBY then s.sendRequest l else s)

/-- The holder's DOWN or supply loss reaches the arbiter (R154) and, through it, the other lane (R140). -/
def execLaneDown (l : Lane) (s : State) : Out :=
  if !s.seenLost l || s.arb.held != some l then .next s
  else
    let s := if s.lst l.other = stSYNCING then s.toUnsync l.other else s
    if !s.cmn.up then .next (s.seekFerry l.other)
    else if s.reqPending l.other then .next (s.arbGrant l.other)
    else .next (s.arbFree.seekFerry l.other)

/-! ### A change of holder -/

def allDies : List Die := [.P0, .P1, .F0, .F1, .FI, .CMN]

/-- The later of two cycle numbers in serial-number arithmetic over 2^32 (R145). -/
def cycMax (a b : Nat) : Nat := if (b + 2 ^ 32 - a) % 2 ^ 32 < 2 ^ 31 then b else a

/-- Serial-number successor of the highest cycle that the dies report; a die without power does not answer, and one without
LAST_CYCLE counts as 0 (R146). -/
def State.nextCycle (s : State) : Nat :=
  let cs := (allDies.filter (fun d => (s.die d).up)).map (fun d => (s.die d).lastCycle.getD 0)
  match cs with
  | [] => 1
  | c :: cs => (cs.foldl cycMax c + 1) % 2 ^ 32

/-- Copies on their way to the shared dies belong to the module: a lane that goes on with them takes those of the other lane
that it does not hold itself, and the entries they carry (R140, R625). -/
def takeCopies (l : Lane) (cs : List Commit) : List Commit :=
  let mine := cs.filter (fun c => c.lane == l.other && c.die.isSome && !c.cmnHeld)
  mine.foldl (fun rest c =>
    let same := fun (x : Commit) => x.block == c.block && x.region == c.region && x.lane == l && x.carried == c.carried
    if rest.any same then
      rest.map (fun (x : Commit) => if same x then { x with lsns := x.lsns ++ c.lsns } else x)
    else rest ++ [{ c with lane := l }]) (cs.filter (fun c => !mine.contains c))

def State.takeCopies (s : State) (l : Lane) : State := s.setCommits (Sys2Proof.Machine.takeCopies l s.commits)

/-- Register cells written at their keys. -/
def State.putRegs (s : State) (cs : List RegCell) : State :=
  { s with regs := cs.foldl (fun (rs : List RegCell) (c : RegCell) => rfPut rs c.1 c.2) s.regs }

/-- The registers and engines that a SINGLE restart kept in the lane's memory (R589). -/
def State.restoreImage (s : State) (l : Lane) : State :=
  match s.upd.image with
  | none => s
  | some x =>
    if x.lane ≠ l then s
    else
      let keep := fun (c : RegCell) => !([0, 1, 3, 21, 22, 23].contains (slotOf (c.1 % homeSpan)))
      let s := s.putRegs (x.regs.filter keep)
      let s := match l with
        | .E => { s with tideE := x.tide, cvcE := x.cvc, harbE := x.harb }
        | .W => { s with tideW := x.tide, cvcW := x.cvc, harbW := x.harb }
      s.modUpd (fun u => { u with image := none })

/-- A cold start (Table 5.2): the start-up image is applied, the phase is STARTUP (R166). The module leaves the configured
state until the image has run. -/
def State.coldStart (s : State) : State :=
  let s := { s with ferry := { s.ferry with coldStart := true }, mod_ := { s.mod_ with configured := false } }
  let s := s.setFldBoth R.FERRY_LANE F.FERRY_LANE_PHASE 0
  s.setFldBoth R.SCSM_STARTUP F.SCSM_STARTUP_COUNT 0

/-- A lane becomes ACTIVE. From STANDBY it continues the numbering; else it numbers its cycles after the highest that the
dies report (R146). Causeway accesses of a former holder end (R493), and urgent commands on their way are sent anew under
the new epoch. -/
def State.becomeActive (s : State) (l : Lane) (epoch : Nat) : State :=
  let was := s.lst l
  let s := s.setReg l R.FERRY_EPOCH (BitVec.ofNat 32 epoch)
  let s := if s.lst l.other = stSTANDBY then s.setReg l.other R.FERRY_EPOCH (BitVec.ofNat 32 epoch) else s
  let s := if was = stSTANDBY then s
    else
      let s := s.setReg l R.FERRY_CYCLE (BitVec.ofNat 32 s.nextCycle)
      let s := if was = stSYNCING then s.dropSnap else s
      if was = stBOOT then s.coldStart.restoreImage l else s
  let s := s.setLst l stACTIVE
  let s := s.setBitF l R.FERRY_LANE F.FERRY_LANE_LEASE_VALID true
  let s := { s with urgents := s.urgents.map (fun (u : Urgent) => { u with epoch := epoch }),
                    ferry := { s.ferry with homeStandbyCycles := 0, serviceCycles := 0, handover := none } }
  ((s.takeCopies l).cwHolderLost l.other).tideBecomeActive l

/-- A lane receives GRANT (R155). A lane that is no longer in a requesting state does not take the ferry; the arbiter's count
then runs out. -/
def execLeaseGrant (l : Lane) (s : State) : Out :=
  if s.arb.grantTo != some l then .next s
  else
    let e := s.arb.epoch
    let s := { s with arb := { s.arb with grantTo := none } }
    .next (if s.mayRequest l then (s.becomeActive l e).syncLedg else s)

/-- LEASE_VALID ends without a release (R159): every holder-only action stops, and the lane goes to UNSYNC. A standby goes on
with what was on its way. -/
def execLeaseValidEnd (l : Lane) (s : State) : Out :=
  if !s.leaseValid l then .next s
  else
    let s := s.setBitF l R.FERRY_LANE F.FERRY_LANE_LEASE_VALID false
    let s := s.setLane l { s.lane l with leaseRenewOut := false }
    if s.lst l ≠ stACTIVE then .next s
    else
      let s := { s with ferry := { s.ferry with imageSent := false } }
      let s := s.setLst l stUNSYNC
      .next ((if s.lst l.other = stSTANDBY then s.takeCopies l.other else s).syncLedg)

/-- STARTUP ends by itself (R166). -/
def execServiceDelayExpiry (s : State) : Out :=
  match s.holder with
  | none => .next s
  | some h =>
    if s.fld h R.FERRY_LANE F.FERRY_LANE_PHASE = 0 ∧ s.bit h R.FERRY_PHASE_CFG F.FERRY_PHASE_CFG_AUTO_SERVICE = true ∧
        s.fld h R.FERRY_PHASE_CFG F.FERRY_PHASE_CFG_SERVICE_DELAY_M1 + 1 ≤ s.ferry.serviceCycles then
      .next (s.setFldBoth R.FERRY_LANE F.FERRY_LANE_PHASE 1)
    else .next s

/-! ### Reaching STANDBY (R139, R352, R391) -/

/-- Registers that are replicated state of a lane's engines: what the state image carries (R136). Counters and the mirrors of
status frames are the lane's own. -/
def replicatedReg (s : State) (h : Lane) (a : Nat) : Bool :=
  let o := a % 0x100000
  match slotOf a with
  | 3 => o == 0 || o == 4 || o == 0x1C
  | 4 => o == 0 || o == 4 || decide (0x1000 ≤ o)
  | 5 => o == 0 || decide (0x60000 ≤ o) ||
      (decide (0x10000 ≤ o ∧ o < 0x51000) && s.replicated ((o - 0x10000) / 0x1000))
  | 9 => decide (o ≠ 0x2C) && !decide (0x400 ≤ o ∧ o < 0x420)
  | 10 => decide (o < 0x80000) && !decide (0x100 ≤ o ∧ o < 0x120)
  | 11 => decide (0x80000 ≤ o ∧ o < 0x90000)
  | 15 => !decide (0x100 ≤ o ∧ o < 0x120)
  | 16 => !decide (0x100 ≤ o ∧ o < 0x120)
  | 18 =>
    if o < 0x1000 then false
    else if o < 0x2000 then s.replicated ((o - 0x1000) / 64)
    else if o < 0x6000 then s.replicated ((o - 0x2000) / 256)
    else if o < 0x80000 then s.replicated (s.queueFn h ((o - 0x8000) / 32))
    else s.replicated ((o - 0x80000) / 0x1000)
  | 20 => decide (0x100 ≤ o ∧ o < 0x140 ∧ o % 16 = 0) && s.replicated (getF (s.reg h a) F.LSTP_PAIR_CFG_FUNC)
  | 22 => o == 0 || decide (0x100 ≤ o ∧ o < 0x180)
  | 23 => o == 0
  | _ => false

/-- Replicated registers and their shadows of lane `h` put in the place of the other lane's, for the slots that `p` takes. -/
def State.copyRegs (s : State) (h : Lane) (p : Nat → Bool) : State :=
  let takes := fun (a : Nat) => !sharedReg a && p (slotOf a) && replicatedReg s h a
  let o := h.other.ix
  let base := s.regs.filter (fun c => !((c.1 / homeSpan == o || c.1 / homeSpan == 3 + o) && takes (c.1 % homeSpan)))
  let news := s.regs.filter (fun c => (c.1 / homeSpan == h.ix || c.1 / homeSpan == 3 + h.ix) && takes (c.1 % homeSpan))
  { s with regs := news.foldl (fun rs c =>
      rfPut rs ((if c.1 / homeSpan = h.ix then o else 3 + o) * homeSpan + c.1 % homeSpan) c.2) base }

/-- Memory of replicated pages, as the page-owner table of lane `h` marks them (R136, R138). -/
def State.copyMem (s : State) (h : Lane) : State :=
  let repl := fun (a : Nat) =>
    match potIx a with
    | some x => potRepl (s.potAt h x)
    | none => false
  let o := h.other.ix
  let base := s.mem.filter (fun c => !(c.1 / memSpan == o && repl (c.1 % memSpan)))
  let news := s.mem.filter (fun c => c.1 / memSpan == h.ix && repl (c.1 % memSpan))
  { s with mem := news.foldl (fun m c => memPut m (o * memSpan + c.1 % memSpan) c.2) base }

/-- The receive side of the CAN ports of lane `h`, in the place of the other lane's. -/
def State.copyCanRx (s : State) (h : Lane) : State :=
  match h with
  | .E => { s with canRxW := s.canRxE }
  | .W => { s with canRxE := s.canRxW }

/-- What the image holds beside registers and memory: Harbour, the receive side of the CAN ports, the rings of replicated
functions' queues. Causeway, the ledger and the sequence numbers are one for the module in this model. -/
def State.copyEngines (s : State) (h : Lane) : State :=
  let s := s.copyCanRx h
  let s := match h with
    | .E => { s with harbW := s.harbE, harbInW := s.harbInE }
    | .W => { s with harbE := s.harbW, harbInE := s.harbInW }
  let mine := (s.iovQs.filter (fun q => q.lane == h && s.replicated (s.queueFn h q.ix))).map (fun (q : IovQ) =>
    { q with lane := h.other })
  { s with iovQs := s.iovQs.filter (fun q => !(q.lane == h.other && s.replicated (s.queueFn h q.ix))) ++ mine }

/-- A lane-local copy of the holder's that waits for a cycle boundary is replicated state (R45, R136). -/
def State.copyCommits (s : State) (h : Lane) : State :=
  let localC := fun (c : Commit) => !c.die.isSome && !c.cmnHeld && c.block != 21
  let mine := (s.commits.filter (fun c => c.lane == h && localC c)).map (fun (c : Commit) => { c with lane := h.other, lsns := [] })
  s.setCommits (s.commits.filter (fun c => !(c.lane == h.other && localC c && c.lsns == [])) ++ mine)

/-- The standby starts from the image of the cycle that ends (step 6 of Table 1.6). Its tide is slaved and its lattice runs on
its own samples, so neither is loaded (R352, R391). -/
def State.loadImage (s : State) (l : Lane) : State :=
  (((s.copyRegs l.other (fun b => b != 9 && b != 10)).copyMem l.other).copyEngines l.other)

/-- A SYNCING lane with its snapshot complete is STANDBY from this boundary on: it holds the holder's replicated state, loads
the tide, the pairs and the lattice, and keeps the higher of the parish records. -/
def State.laneToStandby (s : State) (l : Lane) : State :=
  let h := l.other
  let s := s.copyRegs h (fun _ => true)
  let s := ((s.copyMem h).copyEngines h).copyCommits h
  let s := s.setReg l R.FERRY_EPOCH (s.reg h R.FERRY_EPOCH)
  let s := s.setFld l R.FERRY_LANE F.FERRY_LANE_PHASE (s.fld h R.FERRY_LANE F.FERRY_LANE_PHASE)
  let s := match l with
    | .E => { s with cvcE := s.cvcW }
    | .W => { s with cvcW := s.cvcE }
  let s := ((s.parCopy l h).syncTrips).dropSnap
  let s := (s.setLst l stSTANDBY).tideBecomeStandby l true
  let ls := (s.ferry.resyncLsns.filter (fun p => p.2 == l)).map Prod.fst
  let s := { s with ferry := { s.ferry with resyncLsns := s.ferry.resyncLsns.filter (fun p => p.2 != l) } }
  (s.disposeAll ls dDONE 0).syncLedg

/-! ### FERRY_CTRL (spec/05) -/

/-- A write that FERRY_CTRL takes: of the Elder, with the key. -/
def ferryCtrlOk (who : Initiator) (value : Word) : Bool := who == .elder && getF value F.FERRY_CTRL_KEY == 0x5EA1

def execFerryCtrlRequest (l : Lane) (who : Initiator) (value : Word) (s : State) : Out :=
  .next (if ferryCtrlOk who value && getF value F.FERRY_CTRL_REQUEST == 1 then (s.sendRequest l).busOk 0 else s.busOk 0)

/-- The handover is for the next boundary; it lapses there if the other lane is not STANDBY (R160). -/
def execFerryCtrlRelease (l : Lane) (who : Initiator) (value : Word) (s : State) : Out :=
  .next (if ferryCtrlOk who value && getF value F.FERRY_CTRL_RELEASE == 1 && s.lst l == stACTIVE then
      ({ s with ferry := { s.ferry with handover := s.ferry.handover.orElse (fun _ => some .control) } }).busOk 0
    else s.busOk 0)

def execFerryCtrlResync (l : Lane) (who : Initiator) (value : Word) (s : State) : Out :=
  .next (if ferryCtrlOk who value && getF value F.FERRY_CTRL_RESYNC == 1 && s.lst l == stSTANDBY then (s.setLst l stUNSYNC).busOk 0
    else s.busOk 0)

/-! ### Lock-step broken by a debugger (R524, R133) -/

/-- A debug halt of, or access to, a pair of a lane: its comparison stops. `attached` tells whether the debugger's session goes
on. Outside BENCH the lane is barred. -/
def execLockstepBreak (l : Lane) (pair : Nat) (attached : Bool) (s : State) : Out :=
  if !(s.lane l).powered || !decide (pair < 5) then .next s
  else
    let a := R.LSTP_PAIR_STAT pair
    let s := (s.setBitF l a F.LSTP_PAIR_STAT_BROKEN true).setBitF l a F.LSTP_PAIR_STAT_COMPARING false
    let s := s.setBitF l R.LSTP_STATUS F.LSTP_STATUS_LSTEP_BROKEN true
    let s := s.setBitF l R.LSTP_STATUS F.LSTP_STATUS_DBG_ATTACHED attached
    .next (if s.bench l || s.lst l == stRESET || s.lst l == stBOOT then s else s.toDisq l none)

/-! ### Boot (R556, R559, R562, R563) -/

/-- The lane's boot set differs from the holder's outside an update (R593). -/
def State.markMismatch (s : State) (l : Lane) : State :=
  match s.holder with
  | some h =>
    s.setBitF l R.UPD_STATUS F.UPD_STATUS_VERSION_MISMATCH
      (decide (h ≠ l) && s.upd.st != uACTIVATING && s.upd.st != uREVERTING && s.bootSet h != s.bootSet l)
  | none => s.setBitF l R.UPD_STATUS F.UPD_STATUS_VERSION_MISMATCH false

/-- The images of a lane are verified (Table 5.2): it is barred, or its DOWN is released and it goes on. -/
def State.imagesVerified (s : State) (l : Lane) : State :=
  let x := s.lane l
  let s := s.setLane l { x with bootOk := true }
  let s := s.setServing l true
  if s.clockBad l || s.lstepBad l then s.setLst l stDISQUALIFIED
  else
    let s := s.releaseDown l
    if s.lst l.other = stACTIVE then (s.setLst l stUNSYNC).markMismatch l
    else s.sendRequest l

/-- A lane that a bank fails in takes no part in a clean trial; in ACTIVATING it turns the update back (R591, Table 19.3). -/
def State.bootBad (s : State) (l : Lane) : State :=
  if s.upd.st = uACTIVATING ∧ s.upd.restarting.contains l = true then s.startRevert
  else s.modUpd (fun u => { u with clean := false })

/-- The boot ROM has verified the boot set of the active bank, and where that failed at step `fail1` the other bank's, with
`fail2` (0 where a bank passes). `keyIdx` is the pair that signed, `lost` the persistent slots whose tag failed. -/
def execBootVerified (l : Lane) (fail1 fail2 keyIdx : Nat) (lost : List Nat) (s : State) : Out :=
  let x := s.lane l
  if s.lst l ≠ stBOOT ∨ x.elderUp = false ∨ x.bootOk = true ∨
      s.bit l R.LHS_STATUS F.LHS_STATUS_BOOT_FAIL = true then .next s
  else
    let s := (s.lcRepair l).loadKeys l lost
    if s.lifecycle l = 5 then .next s
    else
      let act := (s.sec l).bank
      let failF := fun (b : Nat) => if b = 0 then F.LHS_BOOT_FAIL_A else F.LHS_BOOT_FAIL_B
      let s := (s.setFld l R.LHS_BOOT F.LHS_BOOT_FAIL_A 0).setFld l R.LHS_BOOT F.LHS_BOOT_FAIL_B 0
      let s := s.setFld l R.LHS_BOOT (failF act) (fail1 % 8)
      let s := if fail1 = 0 then s else (s.setFld l R.LHS_BOOT (failF (1 - act)) (fail2 % 8)).bootBad l
      if fail1 ≠ 0 ∧ fail2 ≠ 0 then
        .next ((s.setBitF l R.LHS_STATUS F.LHS_STATUS_BOOT_FAIL true).setBitF l.other R.LHS_STATUS F.LHS_STATUS_BOOT_FAIL true)
      else
        let s := s.setBitF l R.LHS_STATUS F.LHS_STATUS_BOOT_FALLBACK (fail1 != 0)
        let s := s.setBitF l.other R.LHS_STATUS F.LHS_STATUS_BOOT_FAIL false
        let s := s.setFld l R.LHS_STATUS F.LHS_STATUS_BOOT_BANK (if fail1 = 0 then act else 1 - act)
        let s := s.setFld l R.LHS_BOOT F.LHS_BOOT_KEY_IDX keyIdx
        let s := s.forEach [0, 1, 2, 3] (fun s j => s.setBitF l (R.LHS_KP j) F.LHS_KP_IN_USE (j == keyIdx % 4 && s.kpProg l j))
        .next (s.imagesVerified l)

/-- The Elder verifies an image of the application set: its hash is kept as a measurement, up to 32; one that fails keeps its
processor in reset (R563). -/
def execApplicationVerified (l : Lane) (img bank : Nat) (ok : Bool) (hash : List Byte) (s : State) : Out :=
  if !(s.lane l).bootOk || s.lst l = stRESET then .next s
  else if ok then
    let x := s.sec l
    .next (if x.meas.length < 32 then s.setSec l { x with meas := x.meas ++ [(img, bank, hash)] } else s)
  else .next ((s.setBitF l R.LHS_STATUS F.LHS_STATUS_IMG_FAIL true).bootBad l)

/-! ### Commands (Tables 5.10 and 5.11) -/

/-- LANE of a payload: 0x01 lane E, 0x02 lane W. -/
def laneSel (r : Req) : Option Lane := if r.u8 0 = 1 then some .E else if r.u8 0 = 2 then some .W else none

def laneSelOk (_ : State) (r : Req) : Bool := (laneSel r).isSome

/-- While an update activates or reverts, the lanes change only by it (R589). -/
def State.updHolds (s : State) : Bool := s.upd.st == uACTIVATING || s.upd.st == uREVERTING

def specFerryStatus : CmdSpec :=
  { opcode := 0x0F00, accepted := false, lenOk := fun r => r.length == 0, maxResp := 24,
    answer := fun s r =>
      let l := (s.servedBy r.lane).getD r.lane
      wordBytes (s.reg .E R.FERRY_LANE) ++ wordBytes (s.reg .W R.FERRY_LANE) ++ wordBytes (s.reg l R.FERRY_STATUS) ++
        wordBytes (s.reg l R.FERRY_EPOCH) ++ wordBytes (s.reg l R.FERRY_CYCLE) ++ wordBytes (s.reg l R.FERRY_ARB) }

/-- The lease length is in its range and covers the longest cycle (R157). -/
def leaseOk (g : Nat → Word) (us : Nat) : Bool :=
  decide (500 ≤ us ∧ us ≤ 50000) &&
    Frac.le (Frac.add (tideSpanUs g).1 (Frac.ofInt 100)) (Frac.mk' (9 * (us : Int)) 10)

def specFerryConfig : CmdSpec :=
  { opcode := 0x0F01, accepted := true, lenOk := fun r => r.length == 8,
    param := fun s r => leaseOk (s.reg (s.holderOr r.lane)) (r.u16 0) && decide (1 ≤ r.u8 2 ∧ r.u8 2 ≤ 16) &&
      decide (r.u8 3 ≤ 1) && decide (1 ≤ r.u32 4 ∧ r.u32 4 ≤ 65536),
    exec := fun s r lsn => s.commitLocal 3 0
      [(R.FERRY_CFG, BitVec.ofNat 32 (r.u16 0 + 0x10000 * (r.u8 2 - 1))),
       (R.FERRY_PHASE_CFG, BitVec.ofNat 32 (r.u32 4 - 1 + 0x10000 * r.u8 3))] lsn }

/-- The holder, where the other lane is STANDBY. -/
def State.pairedHolder (s : State) : Option Lane :=
  match s.holder with
  | some h => if s.lst h.other = stSTANDBY then some h else none
  | none => none

def specHandover : CmdSpec :=
  { opcode := 0x0F02, accepted := true, lenOk := fun r => r.length == 0,
    stateOk := fun s _ => s.pairedHolder.isSome && !s.updHolds,
    exec := fun s _ lsn =>
      { s with ferry := { s.ferry with handover := s.ferry.handover.orElse (fun _ => some .command),
                                       handoverLsns := s.ferry.handoverLsns ++ [(lsn, s.holderOr .E)] } } }

def specLanePhase : CmdSpec :=
  { opcode := 0x0F03, accepted := true, lenOk := fun r => r.length == 1,
    param := fun _ r => decide (1 ≤ r.u8 0 ∧ r.u8 0 ≤ 3),
    exec := fun s r lsn => (s.setFldBoth R.FERRY_LANE F.FERRY_LANE_PHASE (r.u8 0)).done lsn }

def specLaneDisqualify : CmdSpec :=
  { opcode := 0x0F04, accepted := true, lenOk := fun r => r.length == 1,
    param := laneSelOk,
    laneOk := fun s r => match laneSel r with
      | some l => !(s.lst l == stACTIVE && s.lst l.other != stSTANDBY)
      | none => true,
    stateOk := fun s _ => !s.updHolds,
    exec := fun s r lsn => match laneSel r with
      | some l => s.toDisq l (some lsn)
      | none => s.done lsn }

/-- A lane that may be taken back: DISQUALIFIED, with no condition left that bars it (Table 5.2). -/
def State.requalifies (s : State) (l : Lane) : Bool := s.lst l == stDISQUALIFIED && s.qualified l

def specLaneRequalify : CmdSpec :=
  { opcode := 0x0F05, accepted := true, lenOk := fun r => r.length == 1,
    param := laneSelOk,
    stateOk := fun s r => match laneSel r with
      | some l => s.requalifies l
      | none => true,
    exec := fun s r lsn => match laneSel r with
      | some l =>
        if s.requalifies l then ((s.releaseDown l).setLst l stUNSYNC).done lsn else s.tickFree.failed lsn (s.freeNat % 65536)
      | none => s.done lsn }

def specLaneResync : CmdSpec :=
  { opcode := 0x0F06, accepted := true, lenOk := fun r => r.length == 1,
    param := laneSelOk,
    leaseOk := fun s r => match laneSel r with
      | some l => s.lst l != stACTIVE
      | none => true,
    stateOk := fun s r => !s.updHolds && (match laneSel r with
      | some l => s.lst l == stSTANDBY
      | none => true),
    exec := fun s r lsn => match laneSel r with
      | some l =>
        let s := if s.lst l = stSTANDBY then s.setLst l stUNSYNC else s
        { s with ferry := { s.ferry with resyncLsns := s.ferry.resyncLsns ++ [(lsn, l)] } }
      | none => s.done lsn }

def specDiscrepancyLog : CmdSpec :=
  { opcode := 0x0F07, accepted := false, lenOk := fun r => r.length == 0, maxResp := 16,
    answer := fun s r =>
      let l := (s.servedBy r.lane).getD r.lane
      wordBytes (s.reg l R.FERRY_DISC_LOG0) ++ wordBytes (s.reg l R.FERRY_DISC_LOG1) ++ s.regBytes l (R.FERRY_CNT 0) 2 }

/-- The first application core of either lane that is secure-owned (R569). -/
def State.secCore (s : State) : Option Nat := (List.range 8).find? (fun t => s.secOwned .E t || s.secOwned .W t)

def specQuietEnter : CmdSpec :=
  { opcode := 0x0F08, accepted := true, lenOk := fun r => r.length == 1, polSource := 1,
    perm := fun _ r => r.src.isChief,
    world := fun s r => if r.world = .normal then s.secCore else none,
    param := laneSelOk,
    stateOk := fun s r => (match laneSel r with
      | some l => s.lst l == stACTIVE || s.lst l == stSTANDBY
      | none => true) && s.ferry.quietStay.isNone && s.ferry.quietLeave.isNone,
    exec := fun s r lsn => { s with ferry := { s.ferry with quietStay := laneSel r, quietLsn := some lsn } } }

/-- The held lane's supply path and POR are released, the application cores leave retention (R171). QUIET stays set until that
lane reaches STANDBY. -/
def State.leaveQuiet (s : State) : State :=
  match s.ferry.quietStay with
  | none => s
  | some q =>
    let s := { s with ferry := { s.ferry with quietStay := none, quietWake := false, quietLeave := some q.other } }
    let s := s.setLane q { s.lane q with retention := [], memSelfRefresh := false }
    if s.heldDown q.other || s.mod_.asleep then s else s.porRelease q.other s.mod_.straps

def specQuietLeave : CmdSpec :=
  { opcode := 0x0F09, accepted := true, lenOk := fun r => r.length == 0,
    perm := fun _ r => r.src.isChief,
    stateOk := fun s _ => s.quietOn || s.ferry.quietLeave.isSome,
    exec := fun s _ lsn =>
      let s := { s with ferry := { s.ferry with quietLeaveLsns := s.ferry.quietLeaveLsns ++ [lsn] } }
      if s.quietOn then s.leaveQuiet else s }

def execFerryStatus (r : Req) (s : State) : Out := runScs specFerryStatus r s
def execFerryConfig (r : Req) (s : State) : Out := runScs specFerryConfig r s
def execHandover (r : Req) (s : State) : Out := runScs specHandover r s
def execLanePhase (r : Req) (s : State) : Out := runScs specLanePhase r s
def execLaneDisqualify (r : Req) (s : State) : Out := runScs specLaneDisqualify r s
def execLaneRequalify (r : Req) (s : State) : Out := runScs specLaneRequalify r s
def execLaneResync (r : Req) (s : State) : Out := runScs specLaneResync r s
def execDiscrepancyLog (r : Req) (s : State) : Out := runScs specDiscrepancyLog r s
def execQuietEnter (r : Req) (s : State) : Out := runScs specQuietEnter r s
def execQuietLeave (r : Req) (s : State) : Out := runScs specQuietLeave r s

end Sys2Proof.Machine
end

