-- ==== Sys2Proof/Machine/Boundary.lean ====
section
/-! DEFINITION. One cycle (spec/01, Table 1.6): the cycle boundary with all that waits for it, the seal of the frames with the
state image, and the receipt of the image. -/

namespace Sys2Proof.Machine

/-- Cycles run: some lane's tide engine does. -/
def State.cyclesRun (s : State) : Bool := !s.mod_.frozen && !s.mod_.asleep && (s.tideRuns .E || s.tideRuns .W)

/-! ### The seal (R41, R42, R136, R137) -/

/-- A copy that travels in frames to a die or, as an attribute, with them (R567). -/
def Commit.framed (c : Commit) : Bool := (c.die.isSome && !c.cmnHeld) || (c.block == 21 && decide (1 ≤ c.region))

/-- A sealed copy that its frame did not bring to the die gives way to the later copy, which takes over its entries (R20,
R625). -/
def sealCopies (cs : List Commit) : List Commit :=
  let older := fun (c x : Commit) => x.isAt c.block c.region c.lane && x.carried
  let news := cs.filter (fun c => c.framed && !c.carried)
  (cs.filter (fun x => !news.any (fun c => older c x))).map (fun (c : Commit) =>
    if c.framed && !c.carried then
      match cs.find? (older c) with
      | some o => { c with writes := cellsMerge o.writes c.writes, lsns := o.lsns ++ c.lsns, carried := true }
      | none => { c with carried := true }
    else c)

/-- What has been issued for the dies since the last seal goes into the frames of the next cycle (R45). -/
def State.sealRecords (s : State) : State :=
  let s := s.setCommits (sealCopies s.commits)
  let s := { s with pwmRecs := s.pwmRecs.map (fun (r : PwmRec) => { r with carried := true }),
                    cmnRecs := s.cmnRecs.map (fun (r : CmnRec) => { r with carried := true }),
                    eth := { s.eth with saQ := s.eth.saQ.map (fun (x : Sa × Nat × Bool) => (x.1, x.2.1, true)) } }
  s.sealElems.sealEvents

/-- LAST_BYTES and MAX_BYTES of a lane. -/
def State.noteImage (s : State) (l : Lane) (n : Nat) : State :=
  let s := s.setFld l R.FERRY_IMAGE F.FERRY_IMAGE_LAST_BYTES n
  s.setFld l R.FERRY_IMAGE_MAX F.FERRY_IMAGE_MAX_MAX_BYTES (max n (s.fld l R.FERRY_IMAGE_MAX F.FERRY_IMAGE_MAX_MAX_BYTES))

/-- An image of `n` bytes is within min(256 KiB, 0.25 × T_CYC × 3.2 GB/s), T_CYC the shortest of the tide source (R136). -/
def imageFits (g : Nat → Word) (n : Nat) : Bool :=
  decide (n ≤ 262144) && Frac.le (Frac.ofInt n) (Frac.mul (Frac.ofInt 800) (tideSpanUs g).2)

/-- The holder takes the state image where the other lane is to start from it, or snapshots. -/
def State.takeImage (s : State) (h : Lane) (n : Nat) : State :=
  let o := h.other
  if s.lst o ≠ stSTANDBY ∧ s.lst o ≠ stSYNCING then s
  else if imageFits (s.reg h) n then
    ({ s with ferry := { s.ferry with imageSent := true } }).noteImage h n
  else (s.setBitF h R.FERRY_STATUS F.FERRY_STATUS_IMAGE_OVERFLOW true).toUnsync o

/-- 0.75 × T_CYC: the frames of the next cycle are sealed, the image is taken. With `overrun` replicated work still runs then,
and the image is taken when it ends (R42). -/
def execFrameSeal (overrun : Bool) (imageBytes : Nat) (s : State) : Out :=
  if !s.cyclesRun || s.ferry.sealed then .next s
  else
    let s := ({ s with ferry := { s.ferry with sealed := true } }).sealRecords
    match s.holder with
    | none => .next s
    | some h =>
      let s := if overrun then
          (s.setBitF h R.FERRY_STATUS F.FERRY_STATUS_CYCLE_OVERRUN true).count h (R.FERRY_CNT 7)
        else s
      .next (s.takeImage h imageBytes)

/-- The standby receives the image of the running cycle. It does not start from one whose CRC fails (R137), that comes after
the boundary (R42), or that its firmware cannot translate while the lanes run different sets (R589). -/
def execStateImageReceived (crcOk inTime xlateOk : Bool) (s : State) : Out :=
  match s.holder with
  | none => .next s
  | some h =>
    let l := h.other
    if !s.ferry.imageSent || !(s.lst l == stSTANDBY || s.lst l == stSYNCING) || s.ferry.imageOk.isSome then .next s
    else
      let s := s.noteImage l (s.fld h R.FERRY_IMAGE F.FERRY_IMAGE_LAST_BYTES)
      if !crcOk then .next ((s.setBitF l R.FERRY_STATUS F.FERRY_STATUS_IMAGE_CRC true).toUnsync l)
      else if !xlateOk && s.mixed then
        .next (((s.setBitBoth R.UPD_STATUS F.UPD_STATUS_XLATE_FAIL true).toUnsync l).startRevert)
      else .next { s with ferry := { s.ferry with imageOk := some inTime } }

/-! ### The boundary: images and lane-local copies -/

/-- A lane of the running snapshot: it starts at the first boundary, uses 0.75 × T_CYC of each cycle at 3.2 GB/s, and its lane is
STANDBY once every page has been copied and the latest image is complete (R139). -/
def State.snapStep (s : State) (l : Lane) : State :=
  if s.lst l.other ≠ stACTIVE then s.toUnsync l
  else if !s.ferry.snapRuns then { s with ferry := { s.ferry with snapRuns := true } }
  else if s.ferry.imageOk ≠ some true then s.toUnsync l
  else
    let left := s.ferry.snapBytes - 2400 * s.ferry.tcycUs
    let s := ({ s with ferry := { s.ferry with snapBytes := left } }).setFldBoth R.FERRY_REPL F.FERRY_REPL_SNAP_LEFT ((left + 4095) / 4096)
    if left = 0 then s.laneToStandby l else s

/-- Step 6 of Table 1.6 in a lane: a standby starts from the image; without one it asks for the ferry where it judges the holder
lost (R140), and else re-synchronises (R42, R137). -/
def State.imageStep (s : State) (l : Lane) : State :=
  if s.lst l = stSYNCING then s.snapStep l
  else if s.lst l = stSTANDBY then
    if s.ferry.imageOk = some true ∧ s.lst l.other = stACTIVE then s.loadImage l
    else if s.holderLost l then s.seekFerry l
    else s.toUnsync l
  else s

/-- LEASE_US against the longest cycle (R157); the fields of the phase register take every value. -/
def chkFerry (s : State) (c : Commit) : Bool := leaseOk (s.after c) (s.afterF c R.FERRY_CFG F.FERRY_CFG_LEASE_US)

/-- UDP_PORT is not 0; an enabled session's key slot serves sessions (R558), and its priority IDs differ. -/
def chkScsm (s : State) (c : Commit) : Bool :=
  s.afterF c R.SCSM_CFG F.SCSM_CFG_UDP_PORT != 0 &&
    (List.range 32).all (fun n =>
      let cfg := s.after c (R.SCSM_RS_CFG n)
      let touched := (cellsGet c.writes (R.SCSM_RS_CFG n)).isSome || (cellsGet c.writes (R.SCSM_RS_CANID n)).isSome
      !touched || getF cfg F.SCSM_RS_CFG_EN == 0 ||
        (keyServes s c.lane (getF cfg F.SCSM_RS_CFG_KEY_SLOT) 0 &&
          (getF cfg F.SCSM_RS_CFG_TRANSPORT == 0 ||
            s.afterF c (R.SCSM_RS_CANID n) F.SCSM_RS_CANID_RX_PRIO != s.afterF c (R.SCSM_RS_CANID n) F.SCSM_RS_CANID_TX_PRIO)))

def State.blockCommits (s : State) (l : Lane) (block : Nat) (f : State → Commit → State) : State :=
  (s.commits.filter (fun c => c.block == block && c.lane == l)).foldl f s

def applyFerry (s : State) (c : Commit) : State :=
  s.applyCommit (chkFerry s c) R.FERRY_STATUS F.FERRY_STATUS_CFG_INCONSISTENT eCFG_REJECTED c

def applyLedg (s : State) (c : Commit) : State :=
  s.applyCommit (chkLedg s c) R.LEDG_STATUS F.LEDG_STATUS_CFG_INCONSISTENT eCFG_REJECTED c

def applyScsm (s : State) (c : Commit) : State :=
  s.applyCommit (chkScsm s c) R.SCSM_STATUS F.SCSM_STATUS_CFG_INCONSISTENT eCFG_REJECTED c

/-- A Causeway window waits until it has no access outstanding (Table 1.7). -/
def applyWin (s : State) (c : Commit) : State := if 64 ≤ c.region ∨ s.cwIdle c.region = true then s.applyCw c else s

/-- What a lane's engines do at a cycle boundary (Table 1.7): block resets that wait, then each block's copy. -/
def State.laneBoundary (s : State) (l : Lane) : State :=
  if !s.tideRuns l then s
  else
    let s := (((s.blkTry l).tideBoundary l).cvcBoundary l).canBoundary l
    let s := (s.blockCommits l 15 State.applyHarb).blockCommits l 16 applyWin
    let s := ((s.iovBoundary l).lhsBoundary l).updCommits l
    let s := (s.blockCommits l 23 State.applyPari).blockCommits l 4 applyLedg
    (s.blockCommits l 5 applyScsm).blockCommits l 3 applyFerry

/-! ### The boundary: the ferry (R160, R167, R170) -/

/-- A lane that is to be disqualified, and holds the ferry no more, is (R173, Table 5.2). -/
def State.disqDue (s : State) : State :=
  let due := s.ferry.disq.filter (fun p => s.lst p.1 != stACTIVE)
  let s := { s with ferry := { s.ferry with disq := s.ferry.disq.filter (fun p => s.lst p.1 == stACTIVE) } }
  due.foldl (fun s p => s.toDisq p.1 p.2) s

/-- The home lane has been STANDBY for 2 full cycles outside SERVICE, and the other lane holds the ferry (R167). -/
def State.takebackDue (s : State) (h : Lane) : Bool :=
  s.homeLane h == h.other && decide (2 ≤ s.ferry.homeStandbyCycles) && s.fld h R.FERRY_LANE F.FERRY_LANE_PHASE != 1

/-- The handover that stands at this boundary, of the holder. -/
def State.handoverDue (s : State) (h : Lane) : Option Handover :=
  if s.ferry.disq.any (fun p => p.1 == h) then some .disqualify
  else match s.ferry.handover with
    | some k => some k
    | none =>
      if s.updHandover then some .update
      else if s.ferry.quietStay == some h.other && s.ferry.quietLsn.isSome then some .quiet
      else if s.takebackDue h then some .takeback
      else none

/-- The holder releases the ferry: its frames leave without HOLDER, RELEASE goes to the arbiter, and it is STANDBY (R160), or
WITHDRAWN (R96). The other lane asks for the ferry. -/
def State.handOver (s : State) (h : Lane) (k : Handover) : State :=
  let s := s.selHandover.countBoth (R.FERRY_CNT 5)
  let s := { s with ferry := { s.ferry with handover := none, released := some h, homeStandbyCycles := 0 } }
  let s := if k = .takeback then s.setBitF h R.FERRY_STATUS F.FERRY_STATUS_TAKEBACK true else s
  let s := (s.emit (.release h)).setLane h { s.lane h with leaseRenewOut := false }
  let s := if k = .withdraw then s.setLst h stWITHDRAWN else (s.setLst h stSTANDBY).tideBecomeStandby h false
  s.sendRequest h.other

/-- HANDOVER entries whose other lane is no longer STANDBY fail (R173); the spec names no error, so the code is free. -/
def State.handoverFails (s : State) : State :=
  let bad := s.ferry.handoverLsns.filter (fun p => s.lst p.2.other != stSTANDBY)
  let err := s.freeNat % 65536
  let s := { s with ferry := { s.ferry with handoverLsns := s.ferry.handoverLsns.filter (fun p => s.lst p.2.other == stSTANDBY) } }
  if bad = [] then s else s.tickFree.disposeAll (bad.map Prod.fst) dFAILED err

/-- A handover without a standby lapses: a commanded disqualification fails, one that a condition asks for releases the ferry
and takes effect, and a hot lane goes on with THERM_CRIT (R96). -/
def State.handoverLapses (s : State) (h : Lane) (k : Handover) : State :=
  let s := { s with ferry := { s.ferry with handover := none } }
  if k = .withdraw then s.setLane h { s.lane h with withdrawing := false, thermCrit := true }
  else if k = .disqualify then
    let mine := s.ferry.disq.filter (fun p => p.1 == h)
    let s := { s with ferry := { s.ferry with disq := s.ferry.disq.filter (fun p => p.1 != h) } }
    let ls : List Nat := mine.filterMap Prod.snd
    let err := s.freeNat % 65536
    let s : State := if ls.isEmpty then s else s.tickFree.disposeAll ls dFAILED err
    if mine.any (fun (p : Lane × Option Nat) => p.2.isNone) then
      ((s.emit (.release h)).setLane h { s.lane h with leaseRenewOut := false }).setLst h stDISQUALIFIED
    else s
  else s

def State.ferryTurn (s : State) : State :=
  let s := s.disqDue.handoverFails
  match s.holder with
  | some h =>
    (match s.handoverDue h with
    | some k => if s.lst h.other = stSTANDBY then s.handOver h k else s.handoverLapses h k
    | none => s)
  | none =>
    match s.ferry.released with
    | some f => if s.lst f.other = stSTANDBY then s else { s with ferry := { s.ferry with released := none } }
    | none => s

/-- Full cycles that the home lane has been STANDBY with the other lane as holder, and full cycles in DUAL with the home lane as
holder (R166, R167), counted as the cycle ends. -/
def State.countCycles (s : State) : State :=
  let f := s.ferry
  let n := match s.holder with
    | some h => if s.homeLane h = h.other ∧ s.lst h.other = stSTANDBY then f.homeStandbyCycles + 1 else 0
    | none => 0
  let m := match s.holder with
    | some h => if s.homeLane h = h ∧ s.mode = 1 then f.serviceCycles + 1 else 0
    | none => 0
  { s with ferry := { f with homeStandbyCycles := n, serviceCycles := m } }

/-- QUIET (R170, R171): with the staying lane ACTIVE the other one is put into RESET and its supply path switched off, and the
links of EU0 and EU1 go down; a latched wake ends QUIET; it clears when the lane that was held is STANDBY. -/
def State.quietStep (s : State) : State :=
  let s := match s.ferry.quietStay, s.ferry.quietLsn with
    | some q, some n =>
      if s.lst q = stACTIVE then
        let o := q.other
        let s := { s with ferry := { s.ferry with quietLsn := none } }
        let s := if (s.lane o).powered then (s.parFlush o).laneReset o .por 0x01 0 else s
        let s := s.setLane o { s.lane o with powered := false, holdup := false }
        let s := s.forEach [0, 1] (fun s p => s.setEthStat p F.ETHS_P_STAT_LINK false)
        s.resolveAll.done n
      else if s.lst q = stSTANDBY then s
      else ({ s with ferry := { s.ferry with quietStay := none, quietLsn := none } }).tickFree.failed n (s.freeNat % 65536)
    | _, _ => s
  let s := if s.ferry.quietWake then
      (if s.quietOn then s.leaveQuiet else { s with ferry := { s.ferry with quietWake := false } })
    else s
  let s := match s.ferry.quietLeave with
    | some l =>
      if s.lst l = stSTANDBY then
        let ls := s.ferry.quietLeaveLsns
        ({ s with ferry := { s.ferry with quietLeave := none, quietLeaveLsns := [] } }).disposeAll ls dDONE 0
      else s
    | none => s
  s.setBitBoth R.FERRY_STATUS F.FERRY_STATUS_QUIET (s.quietOn || s.ferry.quietLeave.isSome)

/-! ### The boundary: the new cycle -/

def State.nextNumber (s : State) (l : Lane) : State :=
  if s.lst l = stACTIVE ∨ s.lst l = stSTANDBY ∨ s.lst l = stWITHDRAWN then
    s.setReg l R.FERRY_CYCLE (s.reg l R.FERRY_CYCLE + 1)
  else s

/-- The holder renews the ferry (R39, R153). -/
def State.renew (s : State) : State :=
  match s.holder with
  | some h =>
    if s.leaseValid h then (s.setLane h { s.lane h with leaseRenewOut := true }).emit (.renew h (s.leaseUs h)) else s
  | none => s

/-- The start-up image of a cold start has run: the module is configured (Table 2.10), its SAFE balls follow (R70). -/
def State.configuredStep (s : State) : State :=
  match s.holder with
  | some h =>
    if s.ferry.coldStart && (s.lane h).strapOk && s.led.entries.all (fun e => !(e.live && e.req.isStartup)) then
      (({ s with ferry := { s.ferry with coldStart := false }, mod_ := { s.mod_ with configured := true } }).syncSafe .E).syncSafe .W
    else s
  | none => s

/-- A lane's frames of the cycle, to the six dies; HOLDER is set while the lease is valid (R144). -/
def State.sendFrames (s : State) (l : Lane) : State :=
  allDies.foldl (fun s d => s.emit (.frame l d (s.reg l R.FERRY_CYCLE).toNat (s.leaseValid l))) s

/-- The arbiter view and the replication view, refreshed every cycle. -/
def State.syncFerryViews (s : State) (l : Lane) : State :=
  let a := s.arb
  let w := setF (setF (setF 0 F.FERRY_ARB_HELD (b2n a.held.isSome)) F.FERRY_ARB_HOLDER (b2n (a.held == some .W)))
    F.FERRY_ARB_REQ_E (b2n a.reqE)
  let w := setF (setF (setF w F.FERRY_ARB_REQ_W (b2n a.reqW)) F.FERRY_ARB_DOWN_E (b2n a.downE)) F.FERRY_ARB_DOWN_W (b2n a.downW)
  let left := if a.held.isSome then min 65535 (a.leaseUs + 50 - (s.now - a.renewAt)) else 0
  (s.setReg l R.FERRY_ARB (setF w F.FERRY_ARB_REMAIN_US left)).setFld l R.FERRY_REPL F.FERRY_REPL_REPL_PAGES (s.replPages l)

/-- A lane's frames go out where it was ACTIVE or STANDBY as the cycle ended and has not been turned out since. -/
def State.sends (s : State) (l : Lane) : Bool := s.lst l == stACTIVE || s.lst l == stSTANDBY || s.lst l == stWITHDRAWN

/-- The boundary of cycle k+1, whose length is `tcycUs` µs. -/
def State.cycleBoundary (s : State) (tcycUs : Nat) : State :=
  let was := fun (l : Lane) => s.ferry.sealed && (s.lst l == stACTIVE || s.lst l == stSTANDBY)
  let replays := s.mod_.configured
  let s := ((s.countCycles.imageStep .E).imageStep .W)
  let s := ((s.laneBoundary .E).laneBoundary .W).tideArms
  let s := s.forEach [0, 1] (fun s d => if (s.die (powerDie d)).up then s.powerCycle d else s)
  let s := s.updCount.ferryTurn.quietStep
  let s := ((s.nextNumber .E).nextNumber .W).renew.configuredStep
  let s := if replays then s.replay else s
  let s := if was .E && s.sends .E then s.sendFrames .E else s
  let s := if was .W && s.sends .W then s.sendFrames .W else s
  let s := (s.updBoundary.syncFerryViews .E).syncFerryViews .W
  ({ s with ferry := { s.ferry with sealed := false, imageSent := false, imageOk := none, tcycUs := tcycUs } }).syncLedg

def execCycleBoundary (tcycUs : Nat) (s : State) : Out := .next (if s.cyclesRun then s.cycleBoundary tcycUs else s)

end Sys2Proof.Machine
end

