-- ==== Sys2Proof/Machine/Frames.lean ====
section
/-! DEFINITION. Command frames at the shared dies (R145 to R152, R625) and status frames in the lanes (R50, R262, R275, R289,
R596), and the Commons' cross-check (R24, R25). -/

namespace Sys2Proof.Machine

/-! ### What a die applies from a frame -/

/-- A carried copy that the frames of a lane hold: its own, and a command's, which both lanes have accepted alike (R142). -/
def inFrame (l : Lane) (c : Commit) : Bool := c.carried && !c.cmnHeld && (c.lane == l || c.lsns != [])

def State.frameCopies (s : State) (l : Lane) (block region : Nat) : List Commit :=
  s.commits.filter (fun c => inFrame l c && c.block == block && c.region == region)

/-- The other lane's equal copy of a commit that has been applied is the same commit: it acts once (R625). -/
def State.dropTwin (s : State) (c : Commit) : State :=
  match s.commits.find? (fun x => x.isAt c.block c.region c.lane.other && x.carried == c.carried) with
  | some t =>
    if t.writes = c.writes ∧ c.cmnHeld = false then
      ((s.dropCommit t).setNum { s.commitNum c.block c.region with applied := t.num }).settleAll t.lsns
    else s
  | none => s

/-- The copies of one region that a frame holds are applied in order. -/
def State.takeCopiesOf (s : State) (l : Lane) (block region : Nat) (f : State → Commit → State) : State :=
  (s.frameCopies l block region).foldl (fun s c =>
    let t := f s c
    if t.commits.contains c then t else t.dropTwin c) s

/-- A PCH or GDR copy at its die. -/
def applyOut (chk : State → Commit → Bool) (flagAddr : Nat) (flag : Fld) (xs : List Nat) (s : State) (c : Commit) : State :=
  let ok := chk s c
  let t := s.applyCommit ok flagAddr flag eCFG_REJECTED c
  if ok then State.afterOutCommit s t c.region xs c.writes else t

/-- A feed's copy at its power die; a refusal is for each lane's mirror (R78, R289). -/
def applySupc (s : State) (c : Commit) : State :=
  if chkSupc s c then s.applyCommit true R.SUPC_STATUS F.SUPC_STATUS_CFG_INCONSISTENT eCFG_REJECTED c
  else
    let s := (s.dropCommit c).setNum { s.commitNum c.block c.region with applied := c.num }
    let d := feedDie c.region
    (s.setPw d { s.pw d with refusedE := true, refusedW := true }).disposeAll c.lsns dFAILED eCFG_REJECTED

def applyField (s : State) (c : Commit) : State :=
  let ok := chkFch s c
  let t := s.applyCommit ok (R.FCH_DIE_STATUS c.region) F.FCH_DIE_STATUS_CFG_INCONSISTENT eCFG_REJECTED c
  if ok then State.afterFcCommit s t c.region c.writes else t

def applyNms (s : State) (c : Commit) : State :=
  s.applyCommit (chkNms s c) R.NMS_STATUS F.NMS_STATUS_CFG_INCONSISTENT eCFG_REJECTED c

/-- Cells that the frame brings to a region: those of its copies, and the records of events (R347). -/
def State.frameNews (s : State) (l : Lane) (block region : Nat) : List RegCell :=
  ((s.frameCopies l block region).map Commit.writes).flatten ++
    ((s.evtRecs.filter (fun e => e.block == block && e.region == region)).map EvtRec.cells).flatten

/-- The records of event table entries act once, over the copies' values (R349). -/
def State.takeEvents (s : State) (block region : Nat) : State :=
  let mine := fun (e : EvtRec) => e.block == block && e.region == region
  let ws := ((s.evtRecs.filter mine).map EvtRec.cells).flatten
  ({ s with evtRecs := s.evtRecs.filter (fun e => !mine e) }).activateAll .E ws

/-- A power die takes a frame: feeds, channels, drivers, then every output its record. A die without configuration stays
so until a frame brings one (R252). -/
def State.frameAtPower (s : State) (l : Lane) (d cycle : Nat) : State :=
  let news := s.frameNews l 6 d ++ s.frameNews l 7 d
  let s := s.forEach [3 * d + 1, 3 * d + 2, 3 * d + 3] (fun s f => s.takeCopiesOf l 2 f applySupc)
  let s := s.takeCopiesOf l 6 d (applyOut chkPch (R.PCH_DIE_STATUS d) F.PCH_DIE_STATUS_CFG_INCONSISTENT (List.range 24))
  let s := s.takeCopiesOf l 7 d (applyOut chkGdr (R.GDR_DIE_STATUS d) F.GDR_DIE_STATUS_CFG_INCONSISTENT
    ((List.range 8).map (· + 24)))
  let s := (s.takeEvents 6 d).takeEvents 7 d
  if (s.pw d).configured || !news.isEmpty then s.powerFrame d cycle news
  else s.setShBit (R.PCH_DIE_STATUS d) F.PCH_DIE_STATUS_KA_LOST false

def State.frameAtField (s : State) (l : Lane) (d cycle : Nat) : State :=
  let news := s.frameNews l 8 d
  let s := (s.takeCopiesOf l 8 d applyField).takeEvents 8 d
  if (s.fd d).configured || !news.isEmpty then s.fieldFrame d cycle news
  else s.setShBit (R.FCH_DIE_STATUS d) F.FCH_DIE_STATUS_KA_LOST false

/-- One record for the Commons (R148: holder-only). -/
def applyCmnRec (s : State) (r : CmnRec) : State :=
  match r.op with
  | .canRecover m => s.applyRecover m r.lsn
  | .linWake m => s.applyLinWake m r.lsn
  | .tc10Wake m => s.applyTc10Wake m r.lsn
  | .timeSet n ns => s.applyTimeSet n ns r.lsn
  | .curfew m => s.applyCurfew m r.lsn
  | .keep m q b => s.applyKeep m q b r.lsn
  | .nmsWake m => s.applyNmsWake m r.lsn

/-- What only a holder copy brings to the Commons: filter elements, secure associations, and the records of holder-only
actions. -/
def State.holderRecords (s : State) : State :=
  let s := s.takeElems.takeSas
  let rs := s.cmnRecs.filter CmnRec.carried
  rs.foldl applyCmnRec { s with cmnRecs := s.cmnRecs.filter (fun (r : CmnRec) => !r.carried) }

/-- The Commons takes a frame; in its safe state it takes none (R25). -/
def State.frameAtCmn (s : State) (l : Lane) (holder : Bool) : State :=
  if s.mod_.cmnSafe then s
  else
    let s := if holder then s.holderRecords else s
    let each := fun (s : State) (block : Nat) (f : State → Commit → State) =>
      (((s.commits.filter (fun c => inFrame l c && c.block == block && c.die == some Die.CMN)).map Commit.region).eraseDups).foldl
        (fun s r => s.takeCopiesOf l block r f) s
    let s := each s 10 State.applySelFrame
    let s := each (each s 11 State.applyCan) 12 State.applyLin
    let s := each (each s 13 State.applyEth) 14 State.applyTime
    (each s 17 applyNms).pwmFrame holder

/-- A die applies a lane's copy: world attributes first, then its blocks (R150, R567). A lane with an invalid strap code sends
no configuration (R67). -/
def State.frameContent (s : State) (d : Die) (l : Lane) (cycle : Nat) (holder : Bool) : State :=
  if !(s.lane l).strapOk then s
  else
    let s := s.attrFrame d
    match d with
    | .P0 => s.frameAtPower l 0 cycle
    | .P1 => s.frameAtPower l 1 cycle
    | .F0 => s.frameAtField l 0 cycle
    | .F1 => s.frameAtField l 1 cycle
    | .FI => s.frameAtField l 2 cycle
    | .CMN => s.frameAtCmn l holder

/-! ### The acceptance window (R145 to R149) -/

/-- A counter of frame acceptance, as both lanes' status frames bring it; a lane in RESET keeps none. -/
def State.countFrames (s : State) (k : Nat) : State :=
  [Lane.E, Lane.W].foldl (fun s l => if s.lst l = stRESET then s else s.count l (R.FERRY_CNT k)) s

def State.leaseConflict (s : State) : State :=
  [Lane.E, Lane.W].foldl (fun s l =>
    if s.lst l = stRESET then s else s.setBitF l R.FERRY_STATUS F.FERRY_STATUS_LEASE_CONFLICT true) s

def State.stale (s : State) : State := s.countFrames 2

/-- SRC_LANE and the marks of the last applied copy. -/
def srcWord (l : Lane) (holder compared closed : Bool) : Nat := l.ix + 2 * b2n holder + 4 * b2n compared + 8 * b2n closed

def markCompared (n : Nat) : Nat := if n.testBit 2 then n else n + 4

/-- A copy is applied (R148): LAST_CYCLE and what else the die keeps of it, then its content. -/
def State.applyCopy (s : State) (d : Die) (c : FrameCopy) (closed : Bool) : State :=
  let x := s.die d
  let w := x.window.map (fun (w : Window) => { w with applied := some c })
  let cmp := match x.window with
    | some w => w.compared
    | none => false
  let s := s.setDie d { x with lastCycle := some c.cycle, tcycUs := c.tcycUs, window := w,
                               lastHolderLane := if c.holder then some c.lane else x.lastHolderLane,
                               src := srcWord c.lane c.holder cmp closed }
  s.frameContent d c.lane c.cycle c.holder

/-- The two copies are compared under the masks of Table 5.5; `blame` is the lane whose copy is not the applied one
(R149, R151, R626). -/
def State.compare (s : State) (d : Die) (c : FrameCopy) (blame : Lane) : State :=
  let x := s.die d
  let w := x.window.map (fun (w : Window) => { w with compared := true })
  let applied := match x.window with
    | some w => w.applied.isSome
    | none => false
  let s := s.setDie d { x with window := w, src := if applied then markCompared x.src else x.src }
  match c.diff with
  | .same => s
  | .nonSig => s.countFrames 0
  | .sig record byte => s.significant blame d c.cycle record byte

/-- A copy arrives in the open window `w` of its cycle, its lane's first. -/
def State.inWindow (s : State) (d : Die) (w : Window) (c : FrameCopy) : State :=
  let x := s.die d
  let high := x.highEpoch.getD 0
  let w' : Window := match c.lane with
    | .E => { w with gotE := true }
    | .W => { w with gotW := true }
  let s := s.setDie d { x with window := some w' }
  if c.holder && decide (c.epoch < high) then s.leaseConflict.stale
  else if c.holder then
    match w.applied with
    | none =>
      let s := s.applyCopy d c false
      (match w.held with
      | some h => s.compare d c h.lane
      | none => s)
    | some a =>
      if a.holder && decide (a.epoch < c.epoch) then (s.leaseConflict.stale).applyCopy d c false
      else (if a.holder then s.leaseConflict else s).compare d c c.lane
  else
    match w.applied, w.held with
    | some _, _ => s.compare d c c.lane
    | none, held =>
      if x.lastHolderLane = some c.lane then
        let s := s.applyCopy d c false
        (match held with
        | some h => s.compare d c h.lane
        | none => s)
      else
        match held with
        | some _ => s.compare d c c.lane
        | none => s.setDie d { s.die d with window := some { w' with held := some c } }

/-- The window closes (R148, R149): a held standby copy is applied where nothing has been, and a copy that arrived alone counts
SINGLE_COPY. -/
def State.closeWindow (s : State) (d : Die) : State :=
  match (s.die d).window with
  | none => s
  | some w =>
    let s := match w.applied, w.held with
      | none, some h => s.applyCopy d h true
      | _, _ => s
    let s := if (w.applied.isSome || w.held.isSome) && !(w.gotE && w.gotW) then s.countFrames 4 else s
    s.setDie d { s.die d with window := none, lastClosed := some w.cycle }

/-- A copy of a cycle that has no window open: ahead of the last window to close it opens one; else it is LATE or STALE. -/
def State.newWindow (s : State) (d : Die) (c : FrameCopy) : State :=
  let ahead := match (s.die d).lastClosed with
    | none => true
    | some k => serialAhead32 c.cycle k
  if ahead then s.inWindow d { cycle := c.cycle, tcycUs := c.tcycUs, gotE := false, gotW := false, applied := none, held := none,
                                compared := false } c
  else if (s.die d).lastClosed = some c.cycle then s.countFrames 3
  else s.stale

/-- A copy of a command frame reaches a die. HIGH_EPOCH follows every copy with HOLDER whose CRC passes (R145). -/
def State.copyArrives (s : State) (c : FrameCopy) : State :=
  let d := c.die
  let x := s.die d
  let s := if c.holder then s.setDie d { x with highEpoch := some (max c.epoch (x.highEpoch.getD 0)) } else s
  match x.window with
  | none => s.newWindow d c
  | some w =>
    if w.cycle = c.cycle then
      if (match c.lane with
          | .E => w.gotE
          | .W => w.gotW) then s.stale
      else s.inWindow d w c
    else if serialAhead32 c.cycle w.cycle then (s.closeWindow d).newWindow d c
    else if x.lastClosed = some c.cycle then s.countFrames 3
    else s.stale

def execFrameCopyArrival (c : FrameCopy) (s : State) : Out :=
  .next (if !(s.die c.die).up then s else if !c.crcOk then s.stale else s.copyArrives c)

/-- 0.20 × T_CYC after the first copy of a cycle the die's window closes. -/
def execAcceptanceWindowClose (d : Die) (s : State) : Out := .next (if (s.die d).up then s.closeWindow d else s)

/-! ### Status frames -/

/-- A lane's mirror of the shared registers that `p` takes, at the same addresses plus `off`. -/
def State.mirror (s : State) (l : Lane) (off : Nat) (p : Nat → Bool) : State :=
  let news := s.regs.filter (fun c => c.1 / homeSpan == 2 && p (c.1 % homeSpan))
  let base := s.regs.filter (fun c =>
    !(c.1 / homeSpan == l.ix && decide (off ≤ c.1 % homeSpan) && p (c.1 % homeSpan - off)))
  { s with regs := news.foldl (fun (rs : List RegCell) (c : RegCell) =>
      rfPut rs (l.ix * homeSpan + c.1 % homeSpan + off) c.2) base }

def inRange (lo hi a : Nat) : Bool := decide (lo ≤ a ∧ a < hi)

/-- Status registers of a power die's outputs, and of its feeds. -/
def State.mirrorPower (s : State) (l : Lane) (d : Nat) : State :=
  let pc := fun (a : Nat) => inRange (R.PCH_STATE d 0) (R.PCH_STATE d 24) a &&
    decide ((a - R.PCH_STATE d 0) % 0x40 < 0x18)
  let gd := fun (a : Nat) => inRange (R.GDR_STATE d 0) (R.GDR_STATE d 8) a &&
    decide ((a - R.GDR_STATE d 0) % 0x40 < 0x14)
  let feed := fun (a : Nat) => a == R.SUPC_DIPINH d ||
    (inRange (R.SUPC_FEED_CFG (3 * d + 1)) (R.SUPC_FEED_CFG (3 * d + 4)) a && a % 0x20 != 0)
  let s := ((s.mirror l 0x2FE0 pc).mirror l 0x2FE0 gd).mirror l 0 feed
  let x := s.pw d
  let refused := match l with
    | .E => x.refusedE
    | .W => x.refusedW
  if refused then
    let s := s.setPw d (match l with
      | .E => { x with refusedE := false }
      | .W => { x with refusedW := false })
    s.setBitF l R.SUPC_STATUS F.SUPC_STATUS_CFG_INCONSISTENT true
  else s

/-- The frame's counts of a power die's outputs go into the lane's parish records (R596). -/
def State.takeTallies (s : State) (l : Lane) (d : Nat) : State :=
  s.forEach (List.range 32) (fun s x =>
    let o := s.out d x
    match l with
    | .E => (s.setOut d x { o with tallyE := .zero }).parTake l (pariIx d x) o.tallyE
    | .W => (s.setOut d x { o with tallyW := .zero }).parTake l (pariIx d x) o.tallyW)

def State.mirrorField (s : State) (l : Lane) (d : Nat) : State :=
  let s := s.mirror l 0x6FE0 (fun a => inRange (R.FCH_STATE d 0) (R.FCH_STATE d (fcCount d)) a &&
    decide ((a - R.FCH_STATE d 0) % 0x40 < 0x14))
  s.forEach (List.range (fcCount d)) (fun s m => s.setReg l (R.FCH_MIR d m 0) (s.shReg (R.FCH_STATE d m)))

def State.mirrorCmn (s : State) (l : Lane) : State :=
  let s := s.setReg l R.CVC_SELM_STATUS (s.shReg R.CVC_SEL_STATUS)
  let s := s.forEach pairs12 (fun s k => s.setReg l (R.CVC_SELM_PP_STAT k) (s.shReg (R.CVC_SEL_PP_STAT k)))
  let s := s.forEach ports16 (fun s n =>
    let s := ((s.setReg l (R.CAN_MIR n 0) (s.shReg (R.CAN_STAT n))).setReg l (R.CAN_MIR n 1) (s.shReg (R.CAN_WAKE n))).setReg
      l (R.CAN_MIR n 2) (s.shReg (R.CAN_TXQ n))
    s.forEach [0, 1, 2, 3] (fun s k => s.setReg l (R.CAN_MIR n (4 + k)) (s.shReg (R.CAN_CNT n k))))
  let s := s.mirror l 0x80000 (fun a =>
    (inRange (R.LIN_STAT 0) (R.LIN_STAT 8) a && a % 0x100 == 0x40) || inRange (R.LIN_FR_CFG 0 0) (R.LIN_FR_CFG 8 0) a)
  let s := s.mirror l 0x80000 (fun a => inRange (R.ETHS_P_STAT 0) (R.ETHS_P_STAT 16) a &&
    (a % 0x100 == 0x40 || decide (0x80 ≤ a % 0x100 ∧ a % 0x100 < 0xA0)))
  s.mirror l 0x80000 (fun a => a == R.NMS_WAKE_PENDING || inRange (R.NMS_CNT 0) (R.NMS_CNT 8) a ||
    (inRange (R.NMS_COVE_STAT 0) (R.NMS_COVE_STAT 8) a && decide (0x10 ≤ a % 0x40 ∧ a % 0x40 < 0x1C)))

/-- A lane receives a die's status frame: its mirrors, what the ferry shows of the die, and the restart of a die (R275). -/
def State.statusFrame (s : State) (d : Die) (l : Lane) : State :=
  let s := match d with
    | .P0 => (s.mirrorPower l 0).takeTallies l 0
    | .P1 => (s.mirrorPower l 1).takeTallies l 1
    | .F0 => s.mirrorField l 0
    | .F1 => s.mirrorField l 1
    | .FI => s.mirrorField l 2
    | .CMN => s.mirrorCmn l
  let x := s.die d
  let s := s.setReg l (R.FERRY_DIE_LAST d.ix) (BitVec.ofNat 32 (x.lastCycle.getD 0))
  let s := s.setReg l (R.FERRY_DIE_SRC d.ix) (BitVec.ofNat 32 x.src)
  s.restoreDie l d

def execStatusFrame (d : Die) (l : Lane) (s : State) : Out :=
  .next (if (s.die d).up && s.forwards l then s.statusFrame d l else s)

/-! ### The Commons' halves (R24, R25) -/

/-- The halves disagree. A half that passes its check goes on; with neither passing the safe state follows. -/
def execCommonsMismatch (passE passW : Bool) (s : State) : Out :=
  .next (if s.cmnRuns then
      ({ s with mod_ := { s.mod_ with cmnMismatch := !passE && !passW } }).setBitBoth R.FERRY_STATUS
        F.FERRY_STATUS_CMN_MISMATCH true
    else s)

/-- 10 µs after a mismatch that neither half passed. -/
def execCommonsSafeState (s : State) : Out :=
  .next (if s.cmnRuns && s.mod_.cmnMismatch then s.enterCmnSafe else s)

end Sys2Proof.Machine
end

