-- ==== Sys2Proof/Machine/Opcodes.lean ====
section
/-! DEFINITION. The opcode map (spec/07, Table 7.6): the command that an opcode names, for requests that reach the Elder as
opcode and fields: those of the ledger engine, and entries whose turn comes. -/

namespace Sys2Proof.Machine

/-- The commands of one high byte of the opcode. -/
def specsOf : Nat → List CmdSpec
  | 0 => [specIdentify, specLaneStatus, specPing, specSessionInfo, specSessionPermit]
  | 1 => [specPcSet, specPcConfig, specPcProfile, specPcDieConfig, specPcClear, specPcStatus, specPcDieStatus,
      specPcSafeState]
  | 2 => [specGdSet, specGdConfig, specGdClear, specGdStatus, specGdSafeState, specFeedConfig, specFeedStatus]
  | 3 => [specFcSet, specFcConfig, specFcGroupConfig, specFcDieConfig, specFcClear, specFcStatus, specFcInputs,
      specFcDieStatus, specFcSafeState]
  | 4 => [specTideStatus, specTideSource, specTideMains, specTideExt, specTideTurn, specTevSet, specTevClear, specTevArm,
      specTevRead]
  | 5 => [specCvcStatus, specPwmPairConfig, specPwmRun, specPwmGuard, specPwmEnable, specAdcSeqConfig, specAdcRead,
      specCompConfig, specNodeConfig, specNodeCoef, specNodeState, specNodeRead, specRefSet]
  | 6 => [specCanPortConfig, specCanFilterSet, specCanTrxSet, specCanWakeFrame, specCanRecover, specCanStatus, specCanInhMap,
      specCanSend, specLinConfig, specLinFrame, specLinSchedule, specLinWake, specLinStatus, specLinRead]
  | 7 => [specEthStatus, specEthPortConfig, specEthGclSet, specEthStreamSet, specEthFrerSet, specEthMacsecSa,
      specEthCtrlClass, specTc10Wake, specTimeStatus, specTimeConfig, specTimeSet, specTimeComp, specTimeCapture]
  | 8 => [specHarbStatus, specHarbPduDefine, specHarbRouteSet, specHarbEndpoint, specHarbPduSend, specHarbPduRead,
      specHarbRouteStatus, specCwWindow, specCwNodes, specCwErrors, specCwFenceAck, specCwWrite]
  | 9 => [specNmsStatus, specNmsCoveConfig, specNmsMembers, specNmsPortCove, specNmsCurfew, specNmsKeep, specNmsWake,
      specNmsLog]
  | 10 => [specPartStatus, specFuncConfig, specQueueConfig, specReplRegion, specVfQuiesce, specVfReset, specVfRemove,
      specExpertGrant, specExpertRelease, specDirtySwap, specPageOwner, specPairAssign, specLstepStatus, specLstepTest,
      specStraitCopy]
  | 11 => [specLhsStatus, specLhsNonce, specAttest, specAttestKeys, specKeyWrite, specKeyErase, specWorldSet, specOwnSet,
      specPmRequest, specEventConfig, specEventLog, specLcTransition, specDebugUnlock, specKeyHashSet, specKeyRevoke,
      specLhsConfig]
  | 12 => [specUpdStatus, specUpdBegin, specUpdChunk, specUpdAbort, specUpdActivate, specUpdConfirm, specUpdRevert,
      specUpdRelaySet, specUpdConfig]
  | 13 => [specResetNonce, specReset, specClockStatus, specResetCause, specBlockReset, specWatchdogSet, specCommonsRestart]
  | 14 => [specParStatus, specParChannel, specParThermal, specParResets, specParSession, specParConfig, specParCalSet]
  | 15 => [specFerryStatus, specFerryConfig, specHandover, specLanePhase, specLaneDisqualify, specLaneRequalify,
      specLaneResync, specDiscrepancyLog, specQuietEnter, specQuietLeave, specLedgerStatus, specLedgerConfig,
      specLedgerQuota, specLedgerQuery, specLedgerRecovered]
  | _ => []

def specOf (opcode : Nat) : Option CmdSpec := (specsOf (opcode / 256)).find? (fun c => c.opcode == opcode)

end Sys2Proof.Machine
end

