-- ==== Sys2Proof/Machine/Serve.lean ====
section
/-! DEFINITION. The ledger engine's own steps over requests and entries as such (spec/06, Table 6.2): acceptance of a waiting
request, the start of an entry, the report of a disposition, and a query that misses its deadline. -/

namespace Sys2Proof.Machine

/-- The ledger engine of the ACTIVE lane takes a request of an accepted command: checks, LSN, entry, response (R175, R176,
R180, R184). Queries never reach it. -/
def execLedgerAccept (opcode : Nat) (r : Req) (s : State) : Out :=
  match specOf opcode with
  | some c => .next (if c.accepted then runCmd c s r else s)
  | none => .next s

/-- ERROR of an entry whose target is unreachable as its turn comes (Table 6.3): a port of the Commons that works, or a die. -/
def unreachErr (s : State) (opcode : Nat) : Nat :=
  let b := blockOf opcode
  if ([11, 12, 13, 14, 15, 16, 17].contains b) && s.cmnRuns then ePORT_PHY else eDIE_UNREACHABLE

/-- An entry's turn has come (R182, R190): it expires where its deadline has passed, is UNDELIVERABLE where its target cannot
be reached, and is else issued, with its world checked again (R568). -/
def State.startEntry (s : State) (e : LEntry) : State :=
  let late := match e.deadline with
    | some d => decide (d < s.now)
    | none => false
  if late then s.dispose e.lsn dEXPIRED 0
  else if e.req.isQueue then s.iovStart e
  else match specOf e.opcode with
    | some c => if c.reachOk s e.req then issue c s e.req e.lsn else s.dispose e.lsn dUNDELIVERABLE (unreachErr s e.opcode)
    | none => s

/-- The engine runs: a lane holds the ferry, the module is not frozen, and a rebuilt ledger has been replayed (R197). -/
def State.engineRuns (s : State) : Bool := s.holder.isSome && !s.mod_.frozen && !s.led.recovering && !s.led.replayDue

def execEntryStart (lsn : Nat) (s : State) : Out :=
  .next (match s.entry lsn with
    | some e =>
      if e.st == .accepted && s.lowerBegun e.stream lsn && s.engineRuns then (s.startEntry e).syncLedg else s
    | none => s)

/-! ### Reports (R183, R189, R216, R222) -/

/-- Lanes whose ring is to take a mailbox stream's record: a lane in RESET has none. -/
def State.reportLanes (s : State) (code : Nat) : List Lane := (s.cplLanes code).filter (fun l => s.lst l != stRESET)

/-- The record goes out where its stream takes it now. -/
def State.reportOut (s : State) (e : LEntry) : Option State :=
  match e.stream / 0x4000 with
  | 1 => if s.iovReportable e then some (s.iovReport e) else none
  | 3 => some ((s.emit (.scsCpl (e.stream % 256) e.record)).sessionSent (e.stream % 256) e.record.length)
  | k =>
    let mb := if k = 2 then 64 else e.stream % 64
    let ls := s.reportLanes e.stream
    if !ls.isEmpty && ls.all (fun l => s.cplRoom l mb) then some (ls.foldl (fun s l => s.pushCpl l mb e.record) s) else none

/-- The entry is marked REPORTED and its record goes out, where it can now. -/
def State.reportEntry (s : State) (e : LEntry) : State :=
  match (s.mapEntry e.lsn (fun (x : LEntry) => { x with st := .reported })).reportOut e with
  | some s => s.syncLedg.syncQuota e.quota
  | none => s

/-- A disposed entry is reported: all lower LSNs of its stream have been, its stream is open and takes the record, and the
holder may answer hosts (R158). It is marked REPORTED first (R189). A lane that has seen its supply warning reports
nothing (R82). -/
def execCompletionReport (lsn : Nat) (s : State) : Out :=
  .next (match s.entry lsn with
    | some e =>
      let mayTell := match s.holder with
        | some h => s.leaseValid h && !(s.lane h).warned
        | none => false
      if e.st == .disposed && !e.unclaimed && s.lowerReported e && s.streamOpen e.stream && s.engineRuns && mayTell then
        s.reportEntry e
      else s
    | none => s)

/-- A query with HAS_DEADLINE whose response cannot be formed by its deadline (R224). -/
def execQueryDeadlineExpiry (r : Req) (s : State) : Out :=
  let kept := s.scs.inbox.find? (fun x => x.req == r)
  let query := match kept with
    | some x => (match specOf x.opcode with
      | some c => !c.accepted
      | none => true)
    | none => true
  .next (if r.hasDeadline && query && !s.deaf && s.answering && (s.servedBy r.lane).isSome then
      (s.count ((s.servedBy r.lane).getD r.lane) (R.SCSM_CNT 0)).refuse r SCS_E_TIMEOUT
    else s)

end Sys2Proof.Machine
end

