-- ==== Sys2Proof/Machine/RegWrite.lean ====
section
/-! DEFINITION. Register writes by their access codes (Table 0.4, R7), COMMIT writes (R18), and the lane-local copies at their
safe points (R44). -/

namespace Sys2Proof.Machine

/-! ### Where an address belongs -/

/-- The address lies in a slot of Table 1.5 (R36). -/
def regSpace (a : Nat) : Bool := decide (0xE0000000 ≤ a ∧ a < 0xE1900000)

/-- Resources whose world attributes guard an instance's registers: the register of the attributes and their numbers
(R31, R567). -/
def attrOf (a : Nat) : Option (Nat × List Nat) :=
  let o := a % 0x100000
  let at_ := fun (p base size n : Nat) => decide (base ≤ p ∧ p < base + size * n)
  match slotOf a with
  | 6 =>
    let p := o % 0x80000
    if at_ p 0x1000 0x40 24 then some (R.LHS_WATTR_PC 0, [24 * (o / 0x80000) + (p - 0x1000) / 0x40]) else none
  | 7 =>
    let p := o % 0x80000
    if at_ p 0x1000 0x40 8 then some (R.LHS_WATTR_GD, [8 * (o / 0x80000) + (p - 0x1000) / 0x40]) else none
  | 8 =>
    let d := o / 0x40000
    let p := o % 0x40000
    if at_ p 0x1000 0x40 (fcCount d) then some (R.LHS_WATTR_FC 0, [fcNum d ((p - 0x1000) / 0x40)]) else none
  | 10 =>
    let pair := fun (k : Nat) => some (R.LHS_WATTR_PW, [2 * k, 2 * k + 1])
    if at_ o 0x1000 0x40 12 then pair ((o - 0x1000) / 0x40)
    else if at_ o 0x81000 0x20 12 then pair ((o - 0x81000) / 0x20)
    else none
  | _ => none

/-- An instance whose world differs from the writer's. -/
def State.foreign (s : State) (l : Lane) (who : Initiator) (a : Nat) : Option Nat :=
  match attrOf a with
  | some (base, ns) => ns.find? (fun n => s.attrBit l base n != (who.world == .secure))
  | none => none

/-- Registers that only the secure world writes (R535, R553, R558, LSTP_PAIRk_CFG). -/
def secureOnly (a : Nat) : Bool :=
  let sl := slotOf a
  sl == 19 || sl == 20 || sl == 21 ||
    (sl == 5 && (a == R.SCSM_CFG || a == R.SCSM_COMMIT || decide (R.SCSM_RS_CFG 0 ≤ a ∧ a < R.SCSM_RS_CFG 32)))

/-- A function's own registers: its mailbox window (R213), its interrupt vectors, its doorbell page. -/
def ownPage (who : Initiator) (a : Nat) : Option Bool :=
  if R.SCSM_MB_DOORBELL 0 ≤ a ∧ a < R.SCSM_MB_DOORBELL 65 then
    some (mayUseMailbox who ((a - R.SCSM_MB_DOORBELL 0) / 0x1000))
  else if R.IOV_DB_SQ_TAIL 0 0 ≤ a ∧ a < R.IOV_DB_SQ_TAIL 64 0 then
    some (who == .func ((a - R.IOV_DB_SQ_TAIL 0 0) / 0x1000))
  else none

/-- The write is one that the initiator may make; any other completes with an error response (R36). A function reaches a block
whose expert grant it holds (R13, R549); the PF reaches the vectors. -/
def State.mayReg (s : State) (l : Lane) (who : Initiator) (a : Nat) : Bool :=
  match ownPage who a with
  | some b => b
  | none =>
    if secureOnly a then who.world == .secure
    else if R.IOV_FN_VEC_LO 0 0 ≤ a ∧ a < R.IOV_FN_VEC_LO 64 0 then who == .func 0 || s.mayWrite l 18 who
    else s.mayWrite l (slotOf a) who

/-- The die that answers for a register: one without power answers nothing (R38). -/
def dieOfReg (a : Nat) : Option Die :=
  let o := a % 0x100000
  if !sharedReg a then none
  else match slotOf a with
    | 2 => some (if o < 0x160 then .P0 else .P1)
    | 6 => some (if o < 0x80000 then .P0 else .P1)
    | 7 => some (if o < 0x80000 then .P0 else .P1)
    | 8 => some (if o < 0x40000 then .F0 else if o < 0x80000 then .F1 else .FI)
    | _ => some .CMN

def State.regAnswers (s : State) (l : Lane) (a : Nat) : Bool :=
  s.forwards l && (match dieOfReg a with
    | some d => s.reachable d
    | none => true)

/-! ### A write by the access codes -/

/-- Masks of a register's write-one-to-clear fields: those that are in no other mask. -/
def w1cMask (a : Nat) : Word :=
  match regRow a with
  | some r => BitVec.ofNat 32 r.w1c
  | none => 0

def rwMask (a : Nat) : Word :=
  match regRow a with
  | some r => BitVec.ofNat 32 r.rw
  | none => 0

/-- RWS fields go to the shadow, RW fields take the value at once, a 1 clears a W1C bit, all others ignore it (Table 0.4). -/
def State.writeCodes (s : State) (l : Lane) (a : Nat) (v : Word) : State :=
  let old := s.reg l a
  let new_ := ((old &&& ~~~(rwMask a)) ||| (v &&& rwMask a)) &&& ~~~(v &&& w1cMask a)
  let s := if new_ = old then s else s.setReg l a new_
  if rwsMask a = 0 then s else s.writeShadow l a v

/-- A watchdog that the write enables begins its period; one that is enabled stays so until a reset (RSTC_WDT_CFGn). -/
def State.writeWdt (s : State) (l : Lane) (a : Nat) (v : Word) : State :=
  let n := (a - R.RSTC_WDT_CFG 0) / 0x10
  if s.wdtOn l n then s.writeCodes l a (v ||| 1) else
    let s := s.writeCodes l a v
    if s.wdtOn l n then s.wdtRestart l n else s

/-- Registers whose write reaches past their own word. -/
def State.writeReg (s : State) (l : Lane) (a : Nat) (v : Word) : State :=
  let t := s.writeCodes l a v
  if R.RSTC_WDT_CFG 0 ≤ a ∧ a ≤ R.RSTC_WDT_CFG 5 then s.writeWdt l a v
  else if a = R.FERRY_IMAGE_MAX ∧ v.toNat.testBit 31 = true then
    s.setFld l a F.FERRY_IMAGE_MAX_MAX_BYTES 0
  else if a = R.TIDE_MAXDLY ∧ v.toNat.testBit 31 = true then s.setFld l a F.TIDE_MAXDLY_MAX_TICKS 0
  else if R.SUPC_FEED_STAT 1 ≤ a ∧ a ≤ R.SUPC_FEED_STAT 6 ∧ (a - R.SUPC_FEED_STAT 1) % 0x20 = 0 then
    t.setDieReg a (t.dieReg a &&& ~~~(v &&& w1cMask a))
  else if R.SUPC_FEED_MIN 1 ≤ a ∧ a ≤ R.SUPC_FEED_MIN 6 ∧ (a - R.SUPC_FEED_MIN 1) % 0x20 = 0 then
    if v.toNat.testBit 31 then
      let f := (a - R.SUPC_FEED_MIN 1) / 0x20 + 1
      (t.setDieFld a F.SUPC_FEED_MIN_VMIN 0x7FFF).setFld l (R.SUPC_FEED_MIN f) F.SUPC_FEED_MIN_VMIN 0x7FFF
    else t
  else if (a = R.FCH_WAKE_STAT 0 ∨ a = R.FCH_WAKE_STAT 1) ∧ v.toNat.testBit 15 = true then
    t.setShFld a F.FCH_WAKE_STAT_FIRST 0
  else t

/-- One word of a filter element; the element goes to the Commons with the holder's frames (R401). -/
def State.writeElem (s : State) (l : Lane) (a : Nat) (v : Word) : State :=
  if s.holderOr l ≠ l then s
  else
    let e := (a - R.CAN_FLTRAM 0 0) / 8
    let now_ := s.elemNow e
    if (a - R.CAN_FLTRAM 0 0) / 4 % 2 = 0 then s.sendElem e v now_.2 else s.sendElem e now_.1 v

/-! ### COMMIT (R18 to R20) -/

/-- Address ranges that a COMMIT register copies: its block's, or its die's part of it. -/
def commitRanges (a : Nat) : Option (Nat × List (Nat × Nat)) :=
  let b := 0xE0000000 + slotOf a * 0x100000
  let whole := some (slotOf a, [(b, b + 0x100000)])
  let part := fun (d size : Nat) => some (slotOf a, [(b + d * size, b + (d + 1) * size)])
  let is := fun (r : Nat) => a == r
  if a = R.PCH_COMMIT 0 ∨ a = R.GDR_COMMIT 0 then part 0 0x80000
  else if a = R.PCH_COMMIT 1 ∨ a = R.GDR_COMMIT 1 then part 1 0x80000
  else if a = R.FCH_COMMIT 0 then part 0 0x40000
  else if a = R.FCH_COMMIT 1 then part 1 0x40000
  else if a = R.FCH_COMMIT 2 then part 2 0x40000
  else if a = R.CVC_COMMIT then some (10, [(b, b + 0x80000)])
  else if a = R.CVC_SEL_COMMIT then some (10, [(b + 0x80000, b + 0x100000)])
  else if [R.FERRY_COMMIT, R.LEDG_COMMIT, R.SCSM_COMMIT, R.SUPC_COMMIT, R.TIDE_COMMIT, R.CAN_COMMIT, R.LIN_COMMIT,
      R.ETHS_COMMIT, R.HARB_COMMIT, R.NMS_COMMIT, R.LSTP_COMMIT, R.LHS_COMMIT, R.UPD_COMMIT, R.PARI_COMMIT, R.TIME_COMMIT,
      R.CWY_COMMIT, R.IOV_COMMIT].any is then whole
  else none

/-- A copy of a lane made pending, a region at a time: each replaces the pending copy of its region (R20, R625). -/
def State.commitWhole (s : State) (block : Nat) (region : Nat → Nat) (l : Lane) (ws : List RegCell) : State :=
  ((ws.map (fun c => region c.1)).eraseDups).foldl (fun s r =>
    s.addCommit block r l (ws.filter (fun c => region c.1 == r)) [] true) s

/-- Regions of the blocks whose copies go as wholes, or by the split of their chapter. -/
def copyRegion (block : Nat) (a : Nat) : Nat :=
  match block with
  | 16 => cwRegion a
  | 18 => iovRegion a
  | 20 => lstpRegion a
  | 2 => sharedRegion a
  | 6 => sharedRegion a
  | 7 => sharedRegion a
  | 8 => sharedRegion a
  | 11 => canRegion a
  | 12 => linRegion a
  | 13 => ethRegion a
  | 14 => timeRegion a
  | _ => 0

/-- The shadow's copy becomes pending for the next safe point. -/
def State.commitCopy (s : State) (l : Lane) (block : Nat) (ws : List RegCell) : State :=
  match block with
  | 9 => s.commitTide l ws []
  | 10 =>
    if ws.any (fun c => decide (0xE0A80000 ≤ c.1)) then s.addCommit 10 100 l ws [] true
    else s.commitCvc l ws []
  | 21 => s.commitLhs l ws []
  | _ => s.commitWhole block (copyRegion block) l ws

def State.commitWrite (s : State) (l : Lane) (who : Initiator) (a : Nat) : State :=
  match commitRanges a with
  | none => s.busErr
  | some (block, rs) =>
    if !s.mayReg l who a || !s.regAnswers l a then s.busErr
    else
      let ws := (rs.map (fun r => s.shadowCopy l r.1 r.2)).flatten
      (s.commitCopy l block ws).busOk 0

/-- A write of 1 to a COMMIT takes a copy of the shadow (R18). -/
def execCommitWrite (l : Lane) (who : Initiator) (addr : Nat) (s : State) : Out := .next (s.commitWrite l who addr)

/-! ### Register writes (R7) -/

/-- A write that the access codes decide. -/
def State.plainWrite (s : State) (l : Lane) (who : Initiator) (a : Nat) (v : Word) : State :=
  if !regSpace a || !s.mayReg l who a || !s.regAnswers l a then s.busErr
  else match s.foreign l who a with
    | some n =>
      let part := match who with
        | .func f => f
        | _ => 0
      (s.policy l 4 n part who.world).busOk 0
    | none =>
      if R.CAN_FLTRAM 0 0 ≤ a ∧ a < R.CAN_FLTRAM 8192 0 then (s.writeElem l a v).busOk 0
      else
        let s := if R.CVC_KN_CFG 0 ≤ a ∧ a < R.CVC_KN_CFG 16 then
            s.ownNode l ((a - R.CVC_KN_CFG 0) / 0x80) (who.world == .secure)
          else s
        (s.writeReg l a v).busOk 0

/-- The states that two writes leave, one after the other. -/
def thenDo (x : Out) (f : State → Out) : Out :=
  match x with
  | .next s => f s
  | y => y

/-- Registers of the mailboxes and of the functions' pages, which act as their own rows say. -/
def pageWrite (l : Lane) (who : Initiator) (a : Nat) (v : Word) (s : State) : Option Out :=
  if R.SCSM_MB_DOORBELL 0 ≤ a ∧ a < R.SCSM_MB_DOORBELL 65 then
    let n := (a - R.SCSM_MB_DOORBELL 0) / 0x1000
    let o := (a - R.SCSM_MB_DOORBELL 0) % 0x1000
    if o = 0 then some (execDoorbell l who n (v.toNat % 8) s)
    else if o = 8 then some (execRespAck l who n (v.toNat % 256) s)
    else if o = 0xC then some (execCplHeadWrite l who n (v.toNat % 64) s)
    else if 0x200 ≤ o ∧ o < 0x400 then some (execReqSlotWrite l who n ((o - 0x200) / 64) (o % 64) v s)
    else none
  else if R.IOV_DB_SQ_TAIL 0 0 ≤ a ∧ a < R.IOV_DB_SQ_TAIL 64 0 then
    let f := (a - R.IOV_DB_SQ_TAIL 0 0) / 0x1000
    let o := (a - R.IOV_DB_SQ_TAIL 0 0) % 0x1000
    if 0x100 ≤ o then none
    else if o % 16 = 0 then some (execIovSqDoorbell l who f (o / 16) v s)
    else if o % 16 = 4 then some (execIovCqHeadWrite l who f (o / 16) v s)
    else none
  else none

/-- Registers with a row of their own, which a write reaches all the same. -/
def rowWrite (l : Lane) (who : Initiator) (a : Nat) (v : Word) (s : State) : Option Out :=
  let o := a % 0x100000
  if a = R.RSTC_REQ then some (thenDo (execRstcReqCore l who v s) (execRstcReqSys l who v))
  else if a = R.RSTC_BLKRST then some (execBlkrstWrite l who v.toNat s)
  else if a = R.RSTC_FORCE then some (execForceCdWrite l who v.toNat s)
  else if a = R.RSTC_CMN then some (execRstcCmnRestart l who v s)
  else if R.RSTC_WDT_KICK 0 ≤ a ∧ a ≤ R.RSTC_WDT_KICK 5 ∧ (a - R.RSTC_WDT_KICK 0) % 0x10 = 0 then
    let n := (a - R.RSTC_WDT_KICK 0) / 0x10
    some (execWdtKick l n (v.toNat % 65536) (s.fld l (R.RSTC_WDT_CNT n) F.RSTC_WDT_CNT_REMAIN) s)
  else if a = R.RSTC_STATUS then
    if v.toNat.testBit 1 then some (execFrzPwmHoldClear l s) else none
  else if a = R.FERRY_CTRL then
    some (thenDo (thenDo (execFerryCtrlRequest l who v s) (execFerryCtrlRelease l who v)) (execFerryCtrlResync l who v))
  else if a = R.CVC_SEQ_SW then some (execSeqSwStart l who (v.toNat % 65536) s)
  else if slotOf a = 11 ∧ o < 0x80000 ∧ a = R.CAN_CTL ((o - 0x400) / 0x100) ∧ v.toNat.testBit 0 = true then
    some (execCanCtlRecover l who ((o - 0x400) / 0x100) s)
  else if slotOf a = 11 ∧ a = R.CAN_RX_CTL ((o - 0x80000) / 0x1000) ∧ v.toNat.testBit 2 = true then
    some (thenDo (.next (s.plainWrite l who a v)) (execRxDone l who ((o - 0x80000) / 0x1000)))
  else if slotOf a = 12 ∧ a = R.LIN_CTL ((o - 0x400) / 0x100) ∧ v.toNat.testBit 0 = true then
    some (execLinCtlWake l who ((o - 0x400) / 0x100) s)
  else if slotOf a = 14 ∧ a = R.TIME_TB_OFS_HI ((o - 0x100) / 0x80) then some (execServoSample l who ((o - 0x100) / 0x80) v s)
  else if slotOf a = 14 ∧ a = R.TIME_TB_SET_SHI ((o - 0x100) / 0x80) then some (execTimeSetGo l who ((o - 0x100) / 0x80) v s)
  else if slotOf a = 16 ∧ a = R.CWY_W_STAT ((o - 0x4000) / 0x40) ∧ v.toNat.testBit 1 = true then
    some (execFenceAckWrite l who ((o - 0x4000) / 0x40) s)
  else if a = R.CWY_ERR_HEAD then some (execCwErrHeadWrite l who (v.toNat % 64) s)
  else if a = R.POT_UPD_ENTRY then some (execPotUpdateGo l who v s)
  else if a = R.LSTP_INJECT then some (execLstpInjectWrite l who v s)
  else if a = R.LHS_PMREQ then some (execLhsPmreqWrite l who v s)
  else if (commitRanges a).isSome then
    if v.toNat.testBit 0 then some (execCommitWrite l who a s) else some (.next (s.busOk 0))
  else none

/-- A register write (R7). -/
def execRegWrite (l : Lane) (who : Initiator) (addr : Nat) (value : Word) (s : State) : Out :=
  match pageWrite l who addr value s with
  | some x => x
  | none =>
    match rowWrite l who addr value s with
    | some x => x
    | none => .next (s.plainWrite l who addr value)

/-! ### Lane-local copies at their safe points (R44, Table 1.7) -/

/-- What the safe point of a block of a lane applies. Copies for the shared dies are applied from frames only (R45, R148). -/
def State.safePoint (s : State) (l : Lane) (block : Nat) : State :=
  match block with
  | 3 => s.blockCommits l 3 applyFerry
  | 4 => s.blockCommits l 4 applyLedg
  | 5 => s.blockCommits l 5 applyScsm
  | 9 => (s.applyTide l 0).applyTide l 1
  | 10 =>
    let s := s.forEach pairs12 (fun s k => s.applyCvc l k)
    let s := s.forEach (List.range 16) (fun s n => (s.applyCvc l (200 + n)).applyCvc l (220 + n))
    s.applyNodes l
  | 11 => s.canBoundary l
  | 15 => s.blockCommits l 15 State.applyHarb
  | 16 => s.blockCommits l 16 applyWin
  | 18 => s.blockCommits l 18 State.applyIov
  | 20 => s.blockCommits l 20 State.applyLstp
  | 21 => (s.commits.filter (fun c => c.block == 21 && c.region == 0 && c.lane == l)).foldl State.applyLhs s
  | 22 => s.updCommits l
  | 23 => s.blockCommits l 23 State.applyPari
  | _ => s

/-- The block of a lane reaches its safe point, where a pending lane-local copy is checked and applied (R44). -/
def execCommitApply (l : Lane) (block : Nat) (s : State) : Out := .next (if s.tideRuns l then s.safePoint l block else s)

end Sys2Proof.Machine
end

