-- ==== Sys2Proof/Machine/Dispatch.lean ====
section
/-! DEFINITION. The dispatch of the commands: one arm per constructor of `Instr`, each a direct call of the
command's meaning. -/

namespace Sys2Proof.Machine

def exec (i : Instr) (s : State) : Host.Outcome State Fault Refusal :=
  match i with
  | .identify r => Sys2Proof.Machine.execIdentify r s
  | .laneStatus r => Sys2Proof.Machine.execLaneStatus r s
  | .ping r => Sys2Proof.Machine.execPing r s
  | .sessionInfo r => Sys2Proof.Machine.execSessionInfo r s
  | .sessionPermit r => Sys2Proof.Machine.execSessionPermit r s
  | .unassignedOpcode opcode r => Sys2Proof.Machine.execUnassignedOpcode opcode r s
  | .pcSet r => Sys2Proof.Machine.execPcSet r s
  | .pcConfig r => Sys2Proof.Machine.execPcConfig r s
  | .pcProfile r => Sys2Proof.Machine.execPcProfile r s
  | .pcDieConfig r => Sys2Proof.Machine.execPcDieConfig r s
  | .pcClear r => Sys2Proof.Machine.execPcClear r s
  | .pcStatus r => Sys2Proof.Machine.execPcStatus r s
  | .pcDieStatus r => Sys2Proof.Machine.execPcDieStatus r s
  | .pcSafeState r => Sys2Proof.Machine.execPcSafeState r s
  | .gdSet r => Sys2Proof.Machine.execGdSet r s
  | .gdConfig r => Sys2Proof.Machine.execGdConfig r s
  | .gdClear r => Sys2Proof.Machine.execGdClear r s
  | .gdStatus r => Sys2Proof.Machine.execGdStatus r s
  | .gdSafeState r => Sys2Proof.Machine.execGdSafeState r s
  | .feedConfig r => Sys2Proof.Machine.execFeedConfig r s
  | .feedStatus r => Sys2Proof.Machine.execFeedStatus r s
  | .fcSet r => Sys2Proof.Machine.execFcSet r s
  | .fcConfig r => Sys2Proof.Machine.execFcConfig r s
  | .fcGroupConfig r => Sys2Proof.Machine.execFcGroupConfig r s
  | .fcDieConfig r => Sys2Proof.Machine.execFcDieConfig r s
  | .fcClear r => Sys2Proof.Machine.execFcClear r s
  | .fcStatus r => Sys2Proof.Machine.execFcStatus r s
  | .fcInputs r => Sys2Proof.Machine.execFcInputs r s
  | .fcDieStatus r => Sys2Proof.Machine.execFcDieStatus r s
  | .fcSafeState r => Sys2Proof.Machine.execFcSafeState r s
  | .tideStatus r => Sys2Proof.Machine.execTideStatus r s
  | .tideSource r => Sys2Proof.Machine.execTideSource r s
  | .tideMains r => Sys2Proof.Machine.execTideMains r s
  | .tideExt r => Sys2Proof.Machine.execTideExt r s
  | .tideTurn r => Sys2Proof.Machine.execTideTurn r s
  | .tevSet r => Sys2Proof.Machine.execTevSet r s
  | .tevClear r => Sys2Proof.Machine.execTevClear r s
  | .tevArm r => Sys2Proof.Machine.execTevArm r s
  | .tevRead r => Sys2Proof.Machine.execTevRead r s
  | .cvcStatus r => Sys2Proof.Machine.execCvcStatus r s
  | .pwmPairConfig r => Sys2Proof.Machine.execPwmPairConfig r s
  | .pwmRun r => Sys2Proof.Machine.execPwmRun r s
  | .pwmGuard r => Sys2Proof.Machine.execPwmGuard r s
  | .pwmEnable r => Sys2Proof.Machine.execPwmEnable r s
  | .adcSeqConfig r => Sys2Proof.Machine.execAdcSeqConfig r s
  | .adcRead r => Sys2Proof.Machine.execAdcRead r s
  | .compConfig r => Sys2Proof.Machine.execCompConfig r s
  | .nodeConfig r => Sys2Proof.Machine.execNodeConfig r s
  | .nodeCoef r => Sys2Proof.Machine.execNodeCoef r s
  | .nodeState r => Sys2Proof.Machine.execNodeState r s
  | .nodeRead r => Sys2Proof.Machine.execNodeRead r s
  | .refSet r => Sys2Proof.Machine.execRefSet r s
  | .canPortConfig r => Sys2Proof.Machine.execCanPortConfig r s
  | .canFilterSet r => Sys2Proof.Machine.execCanFilterSet r s
  | .canTrxSet r => Sys2Proof.Machine.execCanTrxSet r s
  | .canWakeFrame r => Sys2Proof.Machine.execCanWakeFrame r s
  | .canRecover r => Sys2Proof.Machine.execCanRecover r s
  | .canStatus r => Sys2Proof.Machine.execCanStatus r s
  | .canInhMap r => Sys2Proof.Machine.execCanInhMap r s
  | .canSend r => Sys2Proof.Machine.execCanSend r s
  | .linConfig r => Sys2Proof.Machine.execLinConfig r s
  | .linFrame r => Sys2Proof.Machine.execLinFrame r s
  | .linSchedule r => Sys2Proof.Machine.execLinSchedule r s
  | .linWake r => Sys2Proof.Machine.execLinWake r s
  | .linStatus r => Sys2Proof.Machine.execLinStatus r s
  | .linRead r => Sys2Proof.Machine.execLinRead r s
  | .ethStatus r => Sys2Proof.Machine.execEthStatus r s
  | .ethPortConfig r => Sys2Proof.Machine.execEthPortConfig r s
  | .ethGclSet r => Sys2Proof.Machine.execEthGclSet r s
  | .ethStreamSet r => Sys2Proof.Machine.execEthStreamSet r s
  | .ethFrerSet r => Sys2Proof.Machine.execEthFrerSet r s
  | .ethMacsecSa r => Sys2Proof.Machine.execEthMacsecSa r s
  | .ethCtrlClass r => Sys2Proof.Machine.execEthCtrlClass r s
  | .tc10Wake r => Sys2Proof.Machine.execTc10Wake r s
  | .timeStatus r => Sys2Proof.Machine.execTimeStatus r s
  | .timeConfig r => Sys2Proof.Machine.execTimeConfig r s
  | .timeSet r => Sys2Proof.Machine.execTimeSet r s
  | .timeComp r => Sys2Proof.Machine.execTimeComp r s
  | .timeCapture r => Sys2Proof.Machine.execTimeCapture r s
  | .harbStatus r => Sys2Proof.Machine.execHarbStatus r s
  | .harbPduDefine r => Sys2Proof.Machine.execHarbPduDefine r s
  | .harbRouteSet r => Sys2Proof.Machine.execHarbRouteSet r s
  | .harbEndpoint r => Sys2Proof.Machine.execHarbEndpoint r s
  | .harbPduSend r => Sys2Proof.Machine.execHarbPduSend r s
  | .harbPduRead r => Sys2Proof.Machine.execHarbPduRead r s
  | .harbRouteStatus r => Sys2Proof.Machine.execHarbRouteStatus r s
  | .cwWindow r => Sys2Proof.Machine.execCwWindow r s
  | .cwNodes r => Sys2Proof.Machine.execCwNodes r s
  | .cwErrors r => Sys2Proof.Machine.execCwErrors r s
  | .cwFenceAck r => Sys2Proof.Machine.execCwFenceAck r s
  | .cwWrite r => Sys2Proof.Machine.execCwWrite r s
  | .nmsStatus r => Sys2Proof.Machine.execNmsStatus r s
  | .nmsCoveConfig r => Sys2Proof.Machine.execNmsCoveConfig r s
  | .nmsMembers r => Sys2Proof.Machine.execNmsMembers r s
  | .nmsPortCove r => Sys2Proof.Machine.execNmsPortCove r s
  | .nmsCurfew r => Sys2Proof.Machine.execNmsCurfew r s
  | .nmsKeep r => Sys2Proof.Machine.execNmsKeep r s
  | .nmsWake r => Sys2Proof.Machine.execNmsWake r s
  | .nmsLog r => Sys2Proof.Machine.execNmsLog r s
  | .partStatus r => Sys2Proof.Machine.execPartStatus r s
  | .funcConfig r => Sys2Proof.Machine.execFuncConfig r s
  | .queueConfig r => Sys2Proof.Machine.execQueueConfig r s
  | .replRegion r => Sys2Proof.Machine.execReplRegion r s
  | .vfQuiesce r => Sys2Proof.Machine.execVfQuiesce r s
  | .vfReset r => Sys2Proof.Machine.execVfReset r s
  | .vfRemove r => Sys2Proof.Machine.execVfRemove r s
  | .expertGrant r => Sys2Proof.Machine.execExpertGrant r s
  | .expertRelease r => Sys2Proof.Machine.execExpertRelease r s
  | .dirtySwap r => Sys2Proof.Machine.execDirtySwap r s
  | .pageOwner r => Sys2Proof.Machine.execPageOwner r s
  | .pairAssign r => Sys2Proof.Machine.execPairAssign r s
  | .lstepStatus r => Sys2Proof.Machine.execLstepStatus r s
  | .lstepTest r => Sys2Proof.Machine.execLstepTest r s
  | .straitCopy r => Sys2Proof.Machine.execStraitCopy r s
  | .lhsStatus r => Sys2Proof.Machine.execLhsStatus r s
  | .lhsNonce r => Sys2Proof.Machine.execLhsNonce r s
  | .attest r => Sys2Proof.Machine.execAttest r s
  | .attestKeys r => Sys2Proof.Machine.execAttestKeys r s
  | .keyWrite r => Sys2Proof.Machine.execKeyWrite r s
  | .keyErase r => Sys2Proof.Machine.execKeyErase r s
  | .worldSet r => Sys2Proof.Machine.execWorldSet r s
  | .ownSet r => Sys2Proof.Machine.execOwnSet r s
  | .pmRequest r => Sys2Proof.Machine.execPmRequest r s
  | .eventConfig r => Sys2Proof.Machine.execEventConfig r s
  | .eventLog r => Sys2Proof.Machine.execEventLog r s
  | .lcTransition r => Sys2Proof.Machine.execLcTransition r s
  | .debugUnlock r => Sys2Proof.Machine.execDebugUnlock r s
  | .keyHashSet r => Sys2Proof.Machine.execKeyHashSet r s
  | .keyRevoke r => Sys2Proof.Machine.execKeyRevoke r s
  | .lhsConfig r => Sys2Proof.Machine.execLhsConfig r s
  | .updStatus r => Sys2Proof.Machine.execUpdStatus r s
  | .updBegin r => Sys2Proof.Machine.execUpdBegin r s
  | .updChunk r => Sys2Proof.Machine.execUpdChunk r s
  | .updAbort r => Sys2Proof.Machine.execUpdAbort r s
  | .updActivate r => Sys2Proof.Machine.execUpdActivate r s
  | .updConfirm r => Sys2Proof.Machine.execUpdConfirm r s
  | .updRevert r => Sys2Proof.Machine.execUpdRevert r s
  | .updRelaySet r => Sys2Proof.Machine.execUpdRelaySet r s
  | .updConfig r => Sys2Proof.Machine.execUpdConfig r s
  | .resetNonce r => Sys2Proof.Machine.execResetNonce r s
  | .reset r => Sys2Proof.Machine.execReset r s
  | .clockStatus r => Sys2Proof.Machine.execClockStatus r s
  | .resetCause r => Sys2Proof.Machine.execResetCause r s
  | .blockReset r => Sys2Proof.Machine.execBlockReset r s
  | .watchdogSet r => Sys2Proof.Machine.execWatchdogSet r s
  | .commonsRestart r => Sys2Proof.Machine.execCommonsRestart r s
  | .parStatus r => Sys2Proof.Machine.execParStatus r s
  | .parChannel r => Sys2Proof.Machine.execParChannel r s
  | .parThermal r => Sys2Proof.Machine.execParThermal r s
  | .parResets r => Sys2Proof.Machine.execParResets r s
  | .parSession r => Sys2Proof.Machine.execParSession r s
  | .parConfig r => Sys2Proof.Machine.execParConfig r s
  | .parCalSet r => Sys2Proof.Machine.execParCalSet r s
  | .ferryStatus r => Sys2Proof.Machine.execFerryStatus r s
  | .ferryConfig r => Sys2Proof.Machine.execFerryConfig r s
  | .handover r => Sys2Proof.Machine.execHandover r s
  | .lanePhase r => Sys2Proof.Machine.execLanePhase r s
  | .laneDisqualify r => Sys2Proof.Machine.execLaneDisqualify r s
  | .laneRequalify r => Sys2Proof.Machine.execLaneRequalify r s
  | .laneResync r => Sys2Proof.Machine.execLaneResync r s
  | .discrepancyLog r => Sys2Proof.Machine.execDiscrepancyLog r s
  | .quietEnter r => Sys2Proof.Machine.execQuietEnter r s
  | .quietLeave r => Sys2Proof.Machine.execQuietLeave r s
  | .ledgerStatus r => Sys2Proof.Machine.execLedgerStatus r s
  | .ledgerConfig r => Sys2Proof.Machine.execLedgerConfig r s
  | .ledgerQuota r => Sys2Proof.Machine.execLedgerQuota r s
  | .ledgerQuery r => Sys2Proof.Machine.execLedgerQuery r s
  | .ledgerRecovered r => Sys2Proof.Machine.execLedgerRecovered r s
  | .regWrite l who addr value => Sys2Proof.Machine.execRegWrite l who addr value s
  | .commitWrite l who addr => Sys2Proof.Machine.execCommitWrite l who addr s
  | .commitApply l block => Sys2Proof.Machine.execCommitApply l block s
  | .rstcReqCore l who value => Sys2Proof.Machine.execRstcReqCore l who value s
  | .rstcReqSys l who value => Sys2Proof.Machine.execRstcReqSys l who value s
  | .blkrstWrite l who mask => Sys2Proof.Machine.execBlkrstWrite l who mask s
  | .blockResetRelease l bit => Sys2Proof.Machine.execBlockResetRelease l bit s
  | .forceCdWrite l who mask => Sys2Proof.Machine.execForceCdWrite l who mask s
  | .rstcCmnRestart l who value => Sys2Proof.Machine.execRstcCmnRestart l who value s
  | .commonsRestartReport result => Sys2Proof.Machine.execCommonsRestartReport result s
  | .wdtKick l n key remain => Sys2Proof.Machine.execWdtKick l n key remain s
  | .watchdogExpiry l n => Sys2Proof.Machine.execWatchdogExpiry l n s
  | .frzPwmHoldClear l => Sys2Proof.Machine.execFrzPwmHoldClear l s
  | .ferryCtrlRequest l who value => Sys2Proof.Machine.execFerryCtrlRequest l who value s
  | .ferryCtrlRelease l who value => Sys2Proof.Machine.execFerryCtrlRelease l who value s
  | .ferryCtrlResync l who value => Sys2Proof.Machine.execFerryCtrlResync l who value s
  | .doorbell l who mb slot => Sys2Proof.Machine.execDoorbell l who mb slot s
  | .reqSlotWrite l who mb slot off value => Sys2Proof.Machine.execReqSlotWrite l who mb slot off value s
  | .respAck l who mb mask => Sys2Proof.Machine.execRespAck l who mb mask s
  | .cplHeadWrite l who mb head => Sys2Proof.Machine.execCplHeadWrite l who mb head s
  | .iovSqDoorbell l who f ix value => Sys2Proof.Machine.execIovSqDoorbell l who f ix value s
  | .iovCqHeadWrite l who f ix value => Sys2Proof.Machine.execIovCqHeadWrite l who f ix value s
  | .seqSwStart l who mask => Sys2Proof.Machine.execSeqSwStart l who mask s
  | .canCtlRecover l who n => Sys2Proof.Machine.execCanCtlRecover l who n s
  | .rxDone l who n => Sys2Proof.Machine.execRxDone l who n s
  | .linCtlWake l who p => Sys2Proof.Machine.execLinCtlWake l who p s
  | .servoSample l who n hi => Sys2Proof.Machine.execServoSample l who n hi s
  | .timeSetGo l who n hi => Sys2Proof.Machine.execTimeSetGo l who n hi s
  | .tidePhaseRead l => Sys2Proof.Machine.execTidePhaseRead l s
  | .canTsRead l who => Sys2Proof.Machine.execCanTsRead l who s
  | .timeNowRead l who n => Sys2Proof.Machine.execTimeNowRead l who n s
  | .pariCalRead l hi => Sys2Proof.Machine.execPariCalRead l hi s
  | .fenceAckWrite l who win => Sys2Proof.Machine.execFenceAckWrite l who win s
  | .cwErrHeadWrite l who head => Sys2Proof.Machine.execCwErrHeadWrite l who head s
  | .potUpdateGo l who value => Sys2Proof.Machine.execPotUpdateGo l who value s
  | .lstpInjectWrite l who value => Sys2Proof.Machine.execLstpInjectWrite l who value s
  | .lhsPmreqWrite l who value => Sys2Proof.Machine.execLhsPmreqWrite l who value s
  | .memAccess a => Sys2Proof.Machine.execMemAccess a s
  | .cwAccessRead l who addr size => Sys2Proof.Machine.execCwAccessRead l who addr size s
  | .cwAccessWrite l who addr size data => Sys2Proof.Machine.execCwAccessWrite l who addr size data s
  | .cwResponse l node ty win seq status data crcOk => Sys2Proof.Machine.execCwResponse l node ty win seq status data crcOk s
  | .cwTimeout l win seq => Sys2Proof.Machine.execCwTimeout l win seq s
  | .cwStallTimeout win k => Sys2Proof.Machine.execCwStallTimeout win k s
  | .prefetchExpiry l win => Sys2Proof.Machine.execPrefetchExpiry l win s
  | .discoverTimer => Sys2Proof.Machine.execDiscoverTimer s
  | .capsReceived node port addr ranges crc crcOk => Sys2Proof.Machine.execCapsReceived node port addr ranges crc crcOk s
  | .nodeLost ix => Sys2Proof.Machine.execNodeLost ix s
  | .powerOn feed test => Sys2Proof.Machine.execPowerOn feed test s
  | .vkeepInputChange l mv => Sys2Proof.Machine.execVkeepInputChange l mv s
  | .laneSupplyLow l low => Sys2Proof.Machine.execLaneSupplyLow l low s
  | .lanePor l on straps => Sys2Proof.Machine.execLanePor l on straps s
  | .supplyWarning l => Sys2Proof.Machine.execSupplyWarning l s
  | .xtalOk l => Sys2Proof.Machine.execXtalOk l s
  | .xtalFail l => Sys2Proof.Machine.execXtalFail l s
  | .clkGood l n count => Sys2Proof.Machine.execClkGood l n count s
  | .clkFail l n => Sys2Proof.Machine.execClkFail l n s
  | .elderReleased l badSlots => Sys2Proof.Machine.execElderReleased l badSlots s
  | .clockMonitorFault l n count => Sys2Proof.Machine.execClockMonitorFault l n count s
  | .eccError l struct_ double => Sys2Proof.Machine.execEccError l struct_ double s
  | .lockstepMismatch l pair window => Sys2Proof.Machine.execLockstepMismatch l pair window s
  | .lockstepBreak l pair attached => Sys2Proof.Machine.execLockstepBreak l pair attached s
  | .junctionThreshold loc temp => Sys2Proof.Machine.execJunctionThreshold loc temp s
  | .thermalShutdown loc temp => Sys2Proof.Machine.execThermalShutdown loc temp s
  | .resetNAssert => Sys2Proof.Machine.execResetNAssert s
  | .resetNRelease => Sys2Proof.Machine.execResetNRelease s
  | .resetMessage l => Sys2Proof.Machine.execResetMessage l s
  | .signedResetAssert l => Sys2Proof.Machine.execSignedResetAssert l s
  | .freezeEntry => Sys2Proof.Machine.execFreezeEntry s
  | .freezeThaw => Sys2Proof.Machine.execFreezeThaw s
  | .cycleBoundary tcycUs => Sys2Proof.Machine.execCycleBoundary tcycUs s
  | .frameSeal overrun imageBytes => Sys2Proof.Machine.execFrameSeal overrun imageBytes s
  | .stateImageReceived crcOk inTime xlateOk => Sys2Proof.Machine.execStateImageReceived crcOk inTime xlateOk s
  | .serviceDelayExpiry => Sys2Proof.Machine.execServiceDelayExpiry s
  | .heartbeat l => Sys2Proof.Machine.execHeartbeat l s
  | .straitLost l => Sys2Proof.Machine.execStraitLost l s
  | .laneLostNotice l epoch cycle => Sys2Proof.Machine.execLaneLostNotice l epoch cycle s
  | .watermark stream reqId => Sys2Proof.Machine.execWatermark stream reqId s
  | .leaseRequest l epoch => Sys2Proof.Machine.execLeaseRequest l epoch s
  | .leaseGrant l => Sys2Proof.Machine.execLeaseGrant l s
  | .leaseRenew l leaseUs => Sys2Proof.Machine.execLeaseRenew l leaseUs s
  | .leaseAck l => Sys2Proof.Machine.execLeaseAck l s
  | .renewMissed l => Sys2Proof.Machine.execRenewMissed l s
  | .leaseRelease l => Sys2Proof.Machine.execLeaseRelease l s
  | .laneDown l => Sys2Proof.Machine.execLaneDown l s
  | .leaseValidEnd l => Sys2Proof.Machine.execLeaseValidEnd l s
  | .arbiterLeaseExpiry => Sys2Proof.Machine.execArbiterLeaseExpiry s
  | .frameCopyArrival c => Sys2Proof.Machine.execFrameCopyArrival c s
  | .acceptanceWindowClose d => Sys2Proof.Machine.execAcceptanceWindowClose d s
  | .statusFrame d l => Sys2Proof.Machine.execStatusFrame d l s
  | .commonsMismatch passE passW => Sys2Proof.Machine.execCommonsMismatch passE passW s
  | .commonsSafeState => Sys2Proof.Machine.execCommonsSafeState s
  | .bootVerified l fail1 fail2 keyIdx lost => Sys2Proof.Machine.execBootVerified l fail1 fail2 keyIdx lost s
  | .applicationVerified l img bank ok hash => Sys2Proof.Machine.execApplicationVerified l img bank ok hash s
  | .ledgerAccept opcode r => Sys2Proof.Machine.execLedgerAccept opcode r s
  | .entryStart lsn => Sys2Proof.Machine.execEntryStart lsn s
  | .entryDisposed lsn disp err => Sys2Proof.Machine.execEntryDisposed lsn disp err s
  | .completionReport lsn => Sys2Proof.Machine.execCompletionReport lsn s
  | .entryFree lsn => Sys2Proof.Machine.execEntryFree lsn s
  | .dedupExpiry => Sys2Proof.Machine.execDedupExpiry s
  | .ledgerRebuild rtcLost lossAt => Sys2Proof.Machine.execLedgerRebuild rtcLost lossAt s
  | .unclaimedTimeout lsn => Sys2Proof.Machine.execUnclaimedTimeout lsn s
  | .sessionSegment g => Sys2Proof.Machine.execSessionSegment g s
  | .sessionOpen n counter tagOk nonce => Sys2Proof.Machine.execSessionOpen n counter tagOk nonce s
  | .sessionClose n => Sys2Proof.Machine.execSessionClose n s
  | .sessionIdleTimeout n => Sys2Proof.Machine.execSessionIdleTimeout n s
  | .reassemblyTimeout n msg => Sys2Proof.Machine.execReassemblyTimeout n msg s
  | .urgentCommand d => Sys2Proof.Machine.execUrgentCommand d s
  | .safeLineAssert l d => Sys2Proof.Machine.execSafeLineAssert l d s
  | .currentWindow d x mean vsrc vgs => Sys2Proof.Machine.execCurrentWindow d x mean vsrc vgs s
  | .ilimReached d x => Sys2Proof.Machine.execIlimReached d x s
  | .softwareTrip d x => Sys2Proof.Machine.execSoftwareTrip d x s
  | .thermalReading d x tj caseT => Sys2Proof.Machine.execThermalReading d x tj caseT s
  | .wireModelUpdate d x => Sys2Proof.Machine.execWireModelUpdate d x s
  | .clampEventEnd d x energy => Sys2Proof.Machine.execClampEventEnd d x energy s
  | .clampOver d x energy => Sys2Proof.Machine.execClampOver d x energy s
  | .freewheelMissing d x => Sys2Proof.Machine.execFreewheelMissing d x s
  | .retryDelayExpiry d x => Sys2Proof.Machine.execRetryDelayExpiry d x s
  | .retryReloadTimer d x => Sys2Proof.Machine.execRetryReloadTimer d x s
  | .blankEnd d x => Sys2Proof.Machine.execBlankEnd d x s
  | .pcPwmPeriodStart d x => Sys2Proof.Machine.execPcPwmPeriodStart d x s
  | .scheduledSwitch d x => Sys2Proof.Machine.execScheduledSwitch d x s
  | .lateSwitch d x => Sys2Proof.Machine.execLateSwitch d x s
  | .undercurrent d x => Sys2Proof.Machine.execUndercurrent d x s
  | .openOff d x present => Sys2Proof.Machine.execOpenOff d x present s
  | .shortFeed d x present => Sys2Proof.Machine.execShortFeed d x present s
  | .conductionEstimate d => Sys2Proof.Machine.execConductionEstimate d s
  | .keepaliveTimeout d => Sys2Proof.Machine.execKeepaliveTimeout d s
  | .failAction d => Sys2Proof.Machine.execFailAction d s
  | .dieRestart d up => Sys2Proof.Machine.execDieRestart d up s
  | .feedWarning f v => Sys2Proof.Machine.execFeedWarning f v s
  | .feedWarningRelease f v => Sys2Proof.Machine.execFeedWarningRelease f v s
  | .diagResume f => Sys2Proof.Machine.execDiagResume f s
  | .holdFalling f v => Sys2Proof.Machine.execHoldFalling f v s
  | .holdRising f v => Sys2Proof.Machine.execHoldRising f v s
  | .crankWindowExpiry f => Sys2Proof.Machine.execCrankWindowExpiry f s
  | .cutCrossing f v => Sys2Proof.Machine.execCutCrossing f v s
  | .feedRecovery f v => Sys2Proof.Machine.execFeedRecovery f v s
  | .recoveryLost f v => Sys2Proof.Machine.execRecoveryLost f v s
  | .restoreSlot f => Sys2Proof.Machine.execRestoreSlot f s
  | .feedHighSet f v => Sys2Proof.Machine.execFeedHighSet f v s
  | .feedHighClear f v => Sys2Proof.Machine.execFeedHighClear f v s
  | .ldDeferTimeout d x => Sys2Proof.Machine.execLdDeferTimeout d x s
  | .feedOvSet f v => Sys2Proof.Machine.execFeedOvSet f v s
  | .feedOvClear f v => Sys2Proof.Machine.execFeedOvClear f v s
  | .reverseSet f v => Sys2Proof.Machine.execReverseSet f v s
  | .reverseClear f v => Sys2Proof.Machine.execReverseClear f v s
  | .feedClassMismatch f v => Sys2Proof.Machine.execFeedClassMismatch f v s
  | .gdOcTrip d x => Sys2Proof.Machine.execGdOcTrip d x s
  | .prechargeComplete d x vsrc drain => Sys2Proof.Machine.execPrechargeComplete d x vsrc drain s
  | .prechargeTimeout d x => Sys2Proof.Machine.execPrechargeTimeout d x s
  | .senseOpen d x present => Sys2Proof.Machine.execSenseOpen d x present s
  | .fieldInputSample d m active ovr hot val => Sys2Proof.Machine.execFieldInputSample d m active ovr hot val s
  | .wettingPulse d k acts vals => Sys2Proof.Machine.execWettingPulse d k acts vals s
  | .fcOutputEvaluation d m val temp clampE => Sys2Proof.Machine.execFcOutputEvaluation d m val temp clampE s
  | .fcOverload d m => Sys2Proof.Machine.execFcOverload d m s
  | .fcPwmPeriodStart d m => Sys2Proof.Machine.execFcPwmPeriodStart d m s
  | .ainConversion d m raw hot => Sys2Proof.Machine.execAinConversion d m raw hot s
  | .fcOpenWire d m present => Sys2Proof.Machine.execFcOpenWire d m present s
  | .captureEdge d m rising t => Sys2Proof.Machine.execCaptureEdge d m rising t s
  | .pilotEdge d m rising t plateau => Sys2Proof.Machine.execPilotEdge d m rising t plateau s
  | .pilotStateChange d m dc => Sys2Proof.Machine.execPilotStateChange d m dc s
  | .pilotOscTimeout d m dc => Sys2Proof.Machine.execPilotOscTimeout d m dc s
  | .dissipationEstimate d => Sys2Proof.Machine.execDissipationEstimate d s
  | .fieldSupplyWarning d v resumed => Sys2Proof.Machine.execFieldSupplyWarning d v resumed s
  | .fieldHoldCrossing d v => Sys2Proof.Machine.execFieldHoldCrossing d v s
  | .fieldRecovery d v => Sys2Proof.Machine.execFieldRecovery d v s
  | .supplyLost => Sys2Proof.Machine.execSupplyLost s
  | .barrierRestart => Sys2Proof.Machine.execBarrierRestart s
  | .fieldWake d m => Sys2Proof.Machine.execFieldWake d m s
  | .tideEventFire l ix delay => Sys2Proof.Machine.execTideEventFire l ix delay s
  | .turnStart l => Sys2Proof.Machine.execTurnStart l s
  | .mpllUpdate l va vb vc => Sys2Proof.Machine.execMpllUpdate l va vb vc s
  | .mainsLost l => Sys2Proof.Machine.execMainsLost l s
  | .extPulse l ch t => Sys2Proof.Machine.execExtPulse l ch t s
  | .extMiss l => Sys2Proof.Machine.execExtMiss l s
  | .holdoverExpiry l => Sys2Proof.Machine.execHoldoverExpiry l s
  | .tideSync l err missed => Sys2Proof.Machine.execTideSync l err missed s
  | .pwmPeriodBoundary l k => Sys2Proof.Machine.execPwmPeriodBoundary l k s
  | .triggerPosition l k b => Sys2Proof.Machine.execTriggerPosition l k b s
  | .adcGroupComplete l q codes => Sys2Proof.Machine.execAdcGroupComplete l q codes s
  | .nodeExecute l ix => Sys2Proof.Machine.execNodeExecute l ix s
  | .comparatorAssert l c out => Sys2Proof.Machine.execComparatorAssert l c out s
  | .tripInputAssert t on => Sys2Proof.Machine.execTripInputAssert t on s
  | .selectorSwitch k => Sys2Proof.Machine.execSelectorSwitch k s
  | .streamEnd l => Sys2Proof.Machine.execStreamEnd l s
  | .safePatternTimeout k => Sys2Proof.Machine.execSafePatternTimeout k s
  | .canFrameReceived n f rec => Sys2Proof.Machine.execCanFrameReceived n f rec s
  | .canFrameQueued n l seq differs => Sys2Proof.Machine.execCanFrameQueued n l seq differs s
  | .canTxDone n stamp tec => Sys2Proof.Machine.execCanTxDone n stamp tec s
  | .canTxError n why tec rec => Sys2Proof.Machine.execCanTxError n why tec rec s
  | .busOffRecovered n => Sys2Proof.Machine.execBusOffRecovered n s
  | .canWake n seen => Sys2Proof.Machine.execCanWake n seen s
  | .canPhyFault n fault => Sys2Proof.Machine.execCanPhyFault n fault s
  | .dominantTimeout n clamped => Sys2Proof.Machine.execDominantTimeout n clamped s
  | .linSlot p => Sys2Proof.Machine.execLinSlot p s
  | .linResponse p pid e => Sys2Proof.Machine.execLinResponse p pid e s
  | .linInactivitySleep p => Sys2Proof.Machine.execLinInactivitySleep p s
  | .linWakeDetect p => Sys2Proof.Machine.execLinWakeDetect p s
  | .ethFrameIngress p f => Sys2Proof.Machine.execEthFrameIngress p f s
  | .ethFrameEgress p id => Sys2Proof.Machine.execEthFrameEgress p id s
  | .laneFrameSubmit l => Sys2Proof.Machine.execLaneFrameSubmit l s
  | .gclEntry p => Sys2Proof.Machine.execGclEntry p s
  | .ethLinkChange p up => Sys2Proof.Machine.execEthLinkChange p up s
  | .ethPhyFault p fault => Sys2Proof.Machine.execEthPhyFault p fault s
  | .frerResetTimeout ix => Sys2Proof.Machine.execFrerResetTimeout ix s
  | .ethWake p => Sys2Proof.Machine.execEthWake p s
  | .tc10SleepRequest p => Sys2Proof.Machine.execTc10SleepRequest p s
  | .servoTimer n => Sys2Proof.Machine.execServoTimer n s
  | .timeHoldover n => Sys2Proof.Machine.execTimeHoldover n s
  | .xcapCapture n => Sys2Proof.Machine.execXcapCapture n s
  | .pduArrival l => Sys2Proof.Machine.execPduArrival l s
  | .timerMark l stamp => Sys2Proof.Machine.execTimerMark l stamp s
  | .pduSend l ix => Sys2Proof.Machine.execPduSend l ix s
  | .minGapExpiry l ix => Sys2Proof.Machine.execMinGapExpiry l ix s
  | .autoIdleTimeout c => Sys2Proof.Machine.execAutoIdleTimeout c s
  | .ringStart c => Sys2Proof.Machine.execRingStart c s
  | .ringMessage c q ty ring pos src reason crcOk => Sys2Proof.Machine.execRingMessage c q ty ring pos src reason crcOk s
  | .hopTimeout c => Sys2Proof.Machine.execHopTimeout c s
  | .ringRetry c => Sys2Proof.Machine.execRingRetry c s
  | .duskEvent c frame => Sys2Proof.Machine.execDuskEvent c frame s
  | .duskExpiry c => Sys2Proof.Machine.execDuskExpiry c s
  | .finalComplete c => Sys2Proof.Machine.execFinalComplete c s
  | .coveWake c => Sys2Proof.Machine.execCoveWake c s
  | .wakingComplete c => Sys2Proof.Machine.execWakingComplete c s
  | .moduleSleep => Sys2Proof.Machine.execModuleSleep s
  | .moduleWake => Sys2Proof.Machine.execModuleWake s
  | .descriptorTake l q => Sys2Proof.Machine.execDescriptorTake l q s
  | .rxSteer l => Sys2Proof.Machine.execRxSteer l s
  | .quiesceTimeout l f => Sys2Proof.Machine.execQuiesceTimeout l f s
  | .tamperEvent l sensor => Sys2Proof.Machine.execTamperEvent l sensor s
  | .ownerReleaseDone l target => Sys2Proof.Machine.execOwnerReleaseDone l target s
  | .confirmTimeout => Sys2Proof.Machine.execConfirmTimeout s
  | .bankCopyDone l ok => Sys2Proof.Machine.execBankCopyDone l ok s
  | .parishFlush l => Sys2Proof.Machine.execParishFlush l s
  | .parishSecond l temp => Sys2Proof.Machine.execParishSecond l temp s
  | .calSync => Sys2Proof.Machine.execCalSync s
  | .commandLinkClockLoss d l => Sys2Proof.Machine.execCommandLinkClockLoss d l s
  | .tideSlewComplete l => Sys2Proof.Machine.execTideSlewComplete l s
  | .cwNodeHeartbeat node crcOk => Sys2Proof.Machine.execCwNodeHeartbeat node crcOk s
  | .potUpdateDone l => Sys2Proof.Machine.execPotUpdateDone l s
  | .straitCopyDone lsn => Sys2Proof.Machine.execStraitCopyDone lsn s
  | .stagingVerifyDone ok => Sys2Proof.Machine.execStagingVerifyDone ok s
  | .norEraseDone ok => Sys2Proof.Machine.execNorEraseDone ok s
  | .fuseBurnDone lsn ok => Sys2Proof.Machine.execFuseBurnDone lsn ok s
  | .keyStoreOpDone => Sys2Proof.Machine.execKeyStoreOpDone s
  | .attestReportDone lsn => Sys2Proof.Machine.execAttestReportDone lsn s
  | .coreResetRelease l => Sys2Proof.Machine.execCoreResetRelease l s
  | .coreWfiRetention l core => Sys2Proof.Machine.execCoreWfiRetention l core s
  | .alwaysOnPowerLoss => Sys2Proof.Machine.execAlwaysOnPowerLoss s
  | .queryDeadlineExpiry r => Sys2Proof.Machine.execQueryDeadlineExpiry r s

end Sys2Proof.Machine
end

