-- ==== Sys2Proof/Machine/Tick.lean ====
section
/-! DEFINITION. A microsecond passes: what counts whatever is commanded (DESIGN CHOICE of the assumption log: an empty queue is
a microsecond). Everything else that time brings about is a command that asserts its own time condition. -/

namespace Sys2Proof.Machine

/-- A running pair's counter: 12,800 units of 78.125 ps in a microsecond (R357). -/
def State.pairTick (s : State) (l : Lane) (k : Nat) : State :=
  let per := (s.pair l k).per
  if per = 0 then s
  else s.setFld l (R.CVC_PP_CNT k) F.CVC_PP_CNT_POS ((s.fld l (R.CVC_PP_CNT k) F.CVC_PP_CNT_POS + 12800) % per)

/-- What runs from a lane's clocks: its tide of 400 ticks a microsecond and its pairs. -/
def State.laneTick (s : State) (l : Lane) : State :=
  let s := if s.tideRuns l then s.modTide l (fun t => t.run 1) else s
  if s.cvcRuns l then s.forEach pairs12 (fun s k => s.pairTick l k) else s

/-- Watchdogs count in units of 100 µs, and stand still in freeze (R105, Table 4.6). -/
def State.wdtTick (s : State) (l : Lane) : State :=
  if s.now % 100 ≠ 0 ∨ s.mod_.frozen = true ∨ (s.lane l).powered = false then s
  else s.forEach (List.range 6) (fun s n =>
    if s.wdtOn l n then
      s.setFld l (R.RSTC_WDT_CNT n) F.RSTC_WDT_CNT_REMAIN (s.fld l (R.RSTC_WDT_CNT n) F.RSTC_WDT_CNT_REMAIN - 1)
    else s)

/-- A microsecond passes: the module's time, the calendar (R602), the lease count, which freeze suspends (R129), the lanes, the
time bases (R446), wake pulses (R425) and the trial limit (R591). -/
def State.tick (s : State) : State :=
  let s := { s with now := s.now + 1 }
  let s := if s.aonPowered then { s with calUs := s.calUs + 1 } else s
  let s := if s.mod_.frozen then { s with arb := { s.arb with renewAt := s.arb.renewAt + 1 } } else s
  let s := (s.laneTick .E).laneTick .W
  let s := (s.wdtTick .E).wdtTick .W
  s.tbTick.linTick.syncConfirm

end Sys2Proof.Machine
end

