-- ==== Sys2Proof/Safety.lean ====
section
/-! DEFINITION. What a state of the module keeps in every safe run: the register file and the memory in their one canonical
form, a ledger whose sequence numbers rise and are below the next one (R175), and one runtime record per output, feed, field
channel, port, time base and session (the counts of spec/00). -/

namespace Sys2Proof.Machine

/-- One record per output of the power dies, feed, field channel, converter pair, CAN port of the Commons and of each lane, LIN
port, time base and session. -/
structure State.Shaped (s : State) : Prop where
  outs : s.outs.length = 64
  feeds : s.feeds.length = 6
  fcs : s.fcs.length = 256
  sels : s.sels.length = 12
  canPorts : s.canPorts.length = 16
  canRxE : s.canRxE.length = 16
  canRxW : s.canRxW.length = 16
  lins : s.lins.length = 8
  tbs : s.tbs.length = 4
  sessions : s.sessions.length = 32

/-- The LSNs of the ledger's entries rise strictly and lie below the next one to be given (R175). -/
def Ledger.Fresh (x : Ledger) : Prop :=
  (∀ n ∈ x.entries.map LEntry.lsn, n < x.nextLsn) ∧ (x.entries.map LEntry.lsn).Pairwise (· < ·)

/-- The invariant of every run. -/
structure State.Inv (s : State) : Prop where
  regs : rfWf s.regs = true
  mem : Memory.wf s.mem = true
  led : s.led.Fresh
  shape : s.Shaped

end Sys2Proof.Machine
end

