-- ==== Sys2Proof/WellFormed.lean ====
section
/-! DEFINITION. Well-formed commands: every operand lies in the range that the spec gives it (the numbers of lanes, ports,
channels, slots and records; the widths of message fields). A meaning answers every command; one that is not well formed
names nothing the hardware has. -/

namespace Sys2Proof

/-- A byte string no longer than its length field can count. -/
def bytesFit (bs : List Byte) (n : Nat) : Bool := decide (bs.length ≤ n)

/-- Functions PF to VF63, sessions RS00 to RS31, 256 queue pairs. -/
def Src.wf : Src → Bool
  | .func f => decide (f < 64)
  | .smb0 => true
  | .session n => decide (n < 32)
  | .startup _ => true
  | .queue q => decide (q < 256)

def Initiator.wf : Initiator → Bool
  | .elder => true
  | .secure => true
  | .func f => decide (f < 64)

/-- The widths of the request header (Table 7.1) and of the buffer descriptor (Table 7.3). -/
def Req.wf (r : Req) : Bool :=
  r.src.wf && decide (r.slot < 8) && decide (r.flags < 65536) && decide (r.reqId < 2 ^ 32) &&
    decide (r.length < 65536) && decide (r.target < 65536) && decide (r.deadline < 2 ^ 32) && bytesFit r.payload 65535 &&
    decide (r.inAddr < 2 ^ 64) && decide (r.outAddr < 2 ^ 64) && decide (r.outCap < 65536)

/-- The header of a command frame (Table 5.4). -/
def FrameCopy.wf (c : FrameCopy) : Bool :=
  decide (c.cycle < 2 ^ 32) && decide (c.epoch < 2 ^ 32) && decide (c.tcycUs < 2 ^ 32)

/-- The header of a session segment (Table 7.7). -/
def Segment.wf (g : Segment) : Bool :=
  decide (g.session < 32) && decide (g.seg < 128) && decide (g.msg < 2 ^ 32) && decide (g.counter < 2 ^ 64) &&
    bytesFit g.plain 2048

/-- Identifier widths, formats and data lengths of CAN frames (Table 13.3). -/
def CanFrame.wf (f : CanFrame) : Bool :=
  decide (f.fmt < 3) && decide (f.id < (if f.ext then 2 ^ 29 else 2048)) &&
    bytesFit f.data (if f.fmt = 0 then 8 else if f.fmt = 1 then 64 else 2048) && decide (f.dlc < 2048) &&
    decide (f.af < 2 ^ 32) && decide (f.sdt < 256) && decide (f.vcid < 256)

def CanSeen.wf : CanSeen → Bool
  | .dominant => true
  | .pattern => true
  | .badFrame => true
  | .frame id ext dlc data => decide (id < (if ext then 2 ^ 29 else 2048)) && decide (dlc < 16) && bytesFit data 64

def CanFail.wf : CanFail → Bool
  | .arbitration => true
  | .error lec => decide (lec < 8)

/-- At most 8 data bytes. -/
def LinEnd.wf (e : LinEnd) : Bool := decide (e.err < 8) && bytesFit e.data 8 && decide (e.rate < 65536)

/-- Addresses of 48 bits, a VLAN identifier of 12 bits, a priority of 3 bits. -/
def EthFrame.wf (f : EthFrame) : Bool :=
  decide (f.dst < 2 ^ 48) && decide (f.src < 2 ^ 48) && decide (f.vid < 4096) && decide (f.pcp < 8) &&
    decide (f.etype < 65536) && bytesFit f.data 9018

/-- Initiator codes of POT_VIOL_SRC, 64 DMA channels, 40-bit physical addresses. -/
def MemAcc.wf (a : MemAcc) : Bool :=
  decide (a.init < 14) && decide (a.chan < 64) && decide (a.part < 64) && decide (a.addr < 2 ^ 40) &&
    decide (a.data.length ≤ a.len)

/-- Every operand of a command is in its range. -/
def Instr.wf : Instr → Bool
  | .identify r | .laneStatus r | .ping r | .sessionInfo r
  | .sessionPermit r | .pcSet r | .pcConfig r | .pcProfile r
  | .pcDieConfig r | .pcClear r | .pcStatus r | .pcDieStatus r
  | .pcSafeState r | .gdSet r | .gdConfig r | .gdClear r
  | .gdStatus r | .gdSafeState r | .feedConfig r | .feedStatus r
  | .fcSet r | .fcConfig r | .fcGroupConfig r | .fcDieConfig r
  | .fcClear r | .fcStatus r | .fcInputs r | .fcDieStatus r
  | .fcSafeState r | .tideStatus r | .tideSource r | .tideMains r
  | .tideExt r | .tideTurn r | .tevSet r | .tevClear r
  | .tevArm r | .tevRead r | .cvcStatus r | .pwmPairConfig r
  | .pwmRun r | .pwmGuard r | .pwmEnable r | .adcSeqConfig r
  | .adcRead r | .compConfig r | .nodeConfig r | .nodeCoef r
  | .nodeState r | .nodeRead r | .refSet r | .canPortConfig r
  | .canFilterSet r | .canTrxSet r | .canWakeFrame r | .canRecover r
  | .canStatus r | .canInhMap r | .canSend r | .linConfig r
  | .linFrame r | .linSchedule r | .linWake r | .linStatus r
  | .linRead r | .ethStatus r | .ethPortConfig r | .ethGclSet r
  | .ethStreamSet r | .ethFrerSet r | .ethMacsecSa r | .ethCtrlClass r
  | .tc10Wake r | .timeStatus r | .timeConfig r | .timeSet r
  | .timeComp r | .timeCapture r | .harbStatus r | .harbPduDefine r
  | .harbRouteSet r | .harbEndpoint r | .harbPduSend r | .harbPduRead r
  | .harbRouteStatus r | .cwWindow r | .cwNodes r | .cwErrors r
  | .cwFenceAck r | .cwWrite r | .nmsStatus r | .nmsCoveConfig r
  | .nmsMembers r | .nmsPortCove r | .nmsCurfew r | .nmsKeep r
  | .nmsWake r | .nmsLog r | .partStatus r | .funcConfig r
  | .queueConfig r | .replRegion r | .vfQuiesce r | .vfReset r
  | .vfRemove r | .expertGrant r | .expertRelease r | .dirtySwap r
  | .pageOwner r | .pairAssign r | .lstepStatus r | .lstepTest r
  | .straitCopy r | .lhsStatus r | .lhsNonce r | .attest r
  | .attestKeys r | .keyWrite r | .keyErase r | .worldSet r
  | .ownSet r | .pmRequest r | .eventConfig r | .eventLog r
  | .lcTransition r | .debugUnlock r | .keyHashSet r | .keyRevoke r
  | .lhsConfig r | .updStatus r | .updBegin r | .updChunk r
  | .updAbort r | .updActivate r | .updConfirm r | .updRevert r
  | .updRelaySet r | .updConfig r | .resetNonce r | .reset r
  | .clockStatus r | .resetCause r | .blockReset r | .watchdogSet r
  | .commonsRestart r | .parStatus r | .parChannel r | .parThermal r
  | .parResets r | .parSession r | .parConfig r | .parCalSet r
  | .ferryStatus r | .ferryConfig r | .handover r | .lanePhase r
  | .laneDisqualify r | .laneRequalify r | .laneResync r | .discrepancyLog r
  | .quietEnter r | .quietLeave r | .ledgerStatus r | .ledgerConfig r
  | .ledgerQuota r | .ledgerQuery r | .ledgerRecovered r | .queryDeadlineExpiry r =>
    r.wf
  | .unassignedOpcode opcode r | .ledgerAccept opcode r =>
    decide (opcode < 65536) && r.wf
  | .regWrite _ who addr _ | .commitWrite _ who addr =>
    who.wf && decide (addr < 2 ^ 32)
  | .commitApply _ block =>
    decide (block < 24)
  | .rstcReqCore _ who _ | .rstcReqSys _ who _ | .rstcCmnRestart _ who _ | .ferryCtrlRequest _ who _
  | .ferryCtrlRelease _ who _ | .ferryCtrlResync _ who _ | .canTsRead _ who | .potUpdateGo _ who _
  | .lstpInjectWrite _ who _ | .lhsPmreqWrite _ who _ =>
    who.wf
  | .blkrstWrite _ who mask | .forceCdWrite _ who mask =>
    who.wf && decide (mask < 2 ^ 32)
  | .blockResetRelease _ bit =>
    decide (bit < 12)
  | .commonsRestartReport result =>
    decide (result < 3)
  | .wdtKick _ n key remain =>
    decide (n < 6) && decide (key < 65536) && decide (remain < 65536)
  | .watchdogExpiry _ n =>
    decide (n < 6)
  | .frzPwmHoldClear _ | .tidePhaseRead _ | .pariCalRead _ _ | .discoverTimer
  | .vkeepInputChange _ _ | .laneSupplyLow _ _ | .supplyWarning _ | .xtalOk _
  | .xtalFail _ | .resetNAssert | .resetNRelease | .resetMessage _
  | .signedResetAssert _ | .freezeEntry | .freezeThaw | .stateImageReceived _ _ _
  | .serviceDelayExpiry | .heartbeat _ | .straitLost _ | .leaseGrant _
  | .leaseAck _ | .renewMissed _ | .leaseRelease _ | .laneDown _
  | .leaseValidEnd _ | .arbiterLeaseExpiry | .acceptanceWindowClose _ | .statusFrame _ _
  | .commonsMismatch _ _ | .commonsSafeState | .dedupExpiry | .urgentCommand _
  | .keepaliveTimeout _ | .failAction _ | .dieRestart _ _ | .supplyLost
  | .barrierRestart | .turnStart _ | .mpllUpdate _ _ _ _ | .mainsLost _
  | .extMiss _ | .holdoverExpiry _ | .tideSync _ _ _ | .streamEnd _
  | .laneFrameSubmit _ | .pduArrival _ | .moduleSleep | .moduleWake
  | .rxSteer _ | .confirmTimeout | .bankCopyDone _ _ | .parishFlush _
  | .parishSecond _ _ | .calSync | .commandLinkClockLoss _ _ | .tideSlewComplete _
  | .potUpdateDone _ | .stagingVerifyDone _ | .norEraseDone _ | .keyStoreOpDone
  | .coreResetRelease _ | .alwaysOnPowerLoss =>
    true
  | .doorbell _ who mb slot =>
    who.wf && decide (mb < 65) && decide (slot < 8)
  | .reqSlotWrite _ who mb slot off _ =>
    who.wf && decide (mb < 65) && decide (slot < 8) && decide (off < 64)
  | .respAck _ who mb mask =>
    who.wf && decide (mb < 65) && decide (mask < 256)
  | .cplHeadWrite _ who mb head =>
    who.wf && decide (mb < 65) && decide (head < 64)
  | .iovSqDoorbell _ who f i _ | .iovCqHeadWrite _ who f i _ =>
    who.wf && decide (f < 64) && decide (i < 16)
  | .seqSwStart _ who mask =>
    who.wf && decide (mask < 65536)
  | .canCtlRecover _ who n | .rxDone _ who n =>
    who.wf && decide (n < 16)
  | .linCtlWake _ who p =>
    who.wf && decide (p < 8)
  | .servoSample _ who n _ | .timeSetGo _ who n _ | .timeNowRead _ who n =>
    who.wf && decide (n < 4)
  | .fenceAckWrite _ who win =>
    who.wf && decide (win < 64)
  | .cwErrHeadWrite _ who head =>
    who.wf && decide (head < 64)
  | .memAccess a =>
    a.wf
  | .cwAccessRead _ who addr size | .cwAccessWrite _ who addr size _ =>
    who.wf && decide (addr < 2 ^ 40) && [1, 2, 4, 8].contains size
  | .cwResponse _ node ty win seq status _ _ =>
    decide (node < 256) && decide (ty < 256) && decide (win < 64) && decide (seq < 65536) && decide (status < 256)
  | .cwTimeout _ win seq =>
    decide (win < 64) && decide (seq < 65536)
  | .cwStallTimeout win k =>
    decide (win < 64) && decide (k < 256)
  | .prefetchExpiry _ win =>
    decide (win < 64)
  | .capsReceived node _ _ _ _ _ | .cwNodeHeartbeat node _ =>
    decide (node < 256)
  | .nodeLost i =>
    decide (i < 256)
  | .powerOn feed _ =>
    decide (1 ≤ feed ∧ feed < 7)
  | .lanePor _ _ straps =>
    decide (straps < 8)
  | .clkGood _ n count | .clockMonitorFault _ n count =>
    decide (n < 8) && decide (count < 65536)
  | .clkFail _ n =>
    decide (n < 8)
  | .elderReleased _ badSlots =>
    decide (badSlots < 256)
  | .eccError _ struct_ _ =>
    decide (struct_ < 8)
  | .lockstepMismatch _ pair window =>
    decide (pair < 5) && decide (window < 2 ^ 24)
  | .lockstepBreak _ pair _ =>
    decide (pair < 5)
  | .junctionThreshold loc _ | .thermalShutdown loc _ =>
    decide (loc < 4)
  | .cycleBoundary tcycUs =>
    decide (tcycUs < 2 ^ 32)
  | .frameSeal _ imageBytes =>
    decide (imageBytes < 2 ^ 19)
  | .laneLostNotice _ epoch cycle =>
    decide (epoch < 2 ^ 32) && decide (cycle < 2 ^ 32)
  | .watermark stream reqId =>
    decide (stream < 65536) && decide (reqId < 2 ^ 32)
  | .leaseRequest _ epoch =>
    decide (epoch < 2 ^ 32)
  | .leaseRenew _ leaseUs =>
    decide (leaseUs < 65536)
  | .frameCopyArrival c =>
    c.wf
  | .bootVerified _ fail1 fail2 keyIdx _ =>
    decide (fail1 < 8) && decide (fail2 < 8) && decide (keyIdx < 4)
  | .applicationVerified _ img bank _ _ =>
    decide (img < 7) && decide (bank < 2)
  | .entryStart lsn | .completionReport lsn | .entryFree lsn | .unclaimedTimeout lsn
  | .straitCopyDone lsn | .fuseBurnDone lsn _ | .attestReportDone lsn =>
    decide (lsn < 2 ^ 48)
  | .entryDisposed lsn disp err =>
    decide (lsn < 2 ^ 48) && decide (disp < 5) && decide (err < 65536)
  | .ledgerRebuild _ lossAt =>
    decide (lossAt < 2 ^ 64)
  | .sessionSegment g =>
    g.wf
  | .sessionOpen n counter _ _ =>
    decide (n < 32) && decide (counter < 2 ^ 64)
  | .sessionClose n | .sessionIdleTimeout n =>
    decide (n < 32)
  | .reassemblyTimeout n msg =>
    decide (n < 32) && decide (msg < 2 ^ 32)
  | .safeLineAssert _ d | .conductionEstimate d =>
    decide (d < 2)
  | .currentWindow d x _ _ vgs =>
    decide (d < 2) && decide (x < 32) && decide (vgs < 65536)
  | .ilimReached d x | .softwareTrip d x | .thermalReading d x _ _ | .wireModelUpdate d x
  | .freewheelMissing d x | .retryDelayExpiry d x | .retryReloadTimer d x | .blankEnd d x
  | .pcPwmPeriodStart d x | .undercurrent d x | .openOff d x _ | .shortFeed d x _
  | .ldDeferTimeout d x | .gdOcTrip d x | .prechargeComplete d x _ _ | .prechargeTimeout d x
  | .senseOpen d x _ =>
    decide (d < 2) && decide (x < 32)
  | .clampEventEnd d x energy | .clampOver d x energy =>
    decide (d < 2) && decide (x < 32) && decide (energy < 2 ^ 32)
  | .scheduledSwitch _ x | .lateSwitch _ x =>
    decide (x < 112)
  | .feedWarning f _ | .feedWarningRelease f _ | .diagResume f | .holdFalling f _
  | .holdRising f _ | .crankWindowExpiry f | .cutCrossing f _ | .feedRecovery f _
  | .recoveryLost f _ | .restoreSlot f | .feedHighSet f _ | .feedHighClear f _
  | .feedOvSet f _ | .feedOvClear f _ | .reverseSet f _ | .reverseClear f _
  | .feedClassMismatch f _ =>
    decide (1 ≤ f ∧ f < 7)
  | .fieldInputSample d m _ _ _ _ | .fcOutputEvaluation d m _ _ _ | .fcOverload d m | .fcPwmPeriodStart d m
  | .fcOpenWire d m _ | .pilotStateChange d m _ | .pilotOscTimeout d m _ =>
    decide (d < 3) && decide (m < 112)
  | .wettingPulse d k acts _ =>
    decide (d < 3) && decide (k < 2) && decide (acts < 65536)
  | .ainConversion d m raw _ =>
    decide (d < 3) && decide (m < 112) && decide (raw < 4096)
  | .captureEdge d m _ t | .pilotEdge d m _ t _ =>
    decide (d < 3) && decide (m < 112) && decide (t < 2 ^ 32)
  | .dissipationEstimate d | .fieldSupplyWarning d _ _ | .fieldHoldCrossing d _ | .fieldRecovery d _ =>
    decide (d < 3)
  | .fieldWake d m =>
    decide (d < 2) && decide (m < 112)
  | .tideEventFire _ i delay =>
    decide (i < 1024) && decide (delay < 2047)
  | .extPulse _ ch t =>
    decide (ch < 256) && decide (t < 2 ^ 32)
  | .pwmPeriodBoundary _ k | .triggerPosition _ k _ | .selectorSwitch k | .safePatternTimeout k =>
    decide (k < 12)
  | .adcGroupComplete _ q _ =>
    decide (q < 16)
  | .nodeExecute _ i =>
    decide (i < 16)
  | .comparatorAssert _ c _ =>
    decide (c < 16)
  | .tripInputAssert t _ =>
    decide (t < 8)
  | .canFrameReceived n f rec =>
    decide (n < 16) && f.wf && decide (rec < 256)
  | .canFrameQueued n _ seq _ =>
    decide (n < 16) && decide (seq < 65536)
  | .canTxDone n stamp tec =>
    decide (n < 16) && decide (stamp < 2 ^ 64) && decide (tec < 257)
  | .canTxError n why tec rec =>
    decide (n < 16) && why.wf && decide (tec < 257) && decide (rec < 256)
  | .busOffRecovered n | .canPhyFault n _ | .dominantTimeout n _ =>
    decide (n < 16)
  | .canWake n seen =>
    decide (n < 16) && seen.wf
  | .linSlot p | .linInactivitySleep p | .linWakeDetect p =>
    decide (p < 8)
  | .linResponse p pid e =>
    decide (p < 8) && decide (pid < 64) && e.wf
  | .ethFrameIngress p f =>
    decide (p < 16) && f.wf
  | .ethFrameEgress p id =>
    decide (p < 16) && decide (id < 2 ^ 32)
  | .gclEntry p | .ethLinkChange p _ | .ethPhyFault p _ | .ethWake p
  | .tc10SleepRequest p =>
    decide (p < 16)
  | .frerResetTimeout i =>
    decide (i < 128)
  | .servoTimer n | .timeHoldover n | .xcapCapture n =>
    decide (n < 4)
  | .timerMark _ stamp =>
    decide (stamp < 2 ^ 64)
  | .pduSend _ i | .minGapExpiry _ i =>
    decide (i < 4096)
  | .autoIdleTimeout c | .ringStart c | .hopTimeout c | .ringRetry c
  | .duskEvent c _ | .duskExpiry c | .finalComplete c | .coveWake c
  | .wakingComplete c =>
    decide (c < 8)
  | .ringMessage c q ty ring pos src reason _ =>
    decide (c < 8) && decide (q < 16) && decide (ty < 256) && decide (ring < 256) && decide (pos < 256) && decide (src < 65536) && decide (reason < 256)
  | .descriptorTake _ q =>
    decide (q < 256)
  | .quiesceTimeout _ f =>
    decide (f < 64)
  | .tamperEvent _ sensor =>
    decide (sensor < 8)
  | .ownerReleaseDone _ target =>
    decide (target < 256)
  | .coreWfiRetention _ core =>
    decide (core < 8)

end Sys2Proof
end

