-- ==== Sys2Proof/Terms.lean ====
section
/-! DEFINITION. The terms in which the statements about commands are said: requests that pass, what an answer is, what a pending
copy carries, and which registers an operation leaves. -/

namespace Sys2Proof.Machine

/-! ### Requests that pass -/

/-- A request as it is served: counted, and its URGENT flag gone where R226 drops it. -/
def taken (s : State) (r : Req) : State × Req := demoteUrgent (s.count ((s.servedBy r.lane).getD r.lane) (R.SCSM_CNT 0)) r

/-- The request is served now, and passes every check of R209; as a query, its block answers. -/
def passes (c : CmdSpec) (s : State) (r : Req) : Bool :=
  let d := taken s r
  !(s.deaf || (r.isStartup && !(s.lane (s.holderOr r.lane)).strapOk)) && !waits c s r && (checksA c d.1 d.2).isNone &&
    !(c.accepted && (d.1.dupOf d.2).isSome) && (checksB c d.1 d.2).isNone &&
    (if c.accepted then (checksC d.1 d.2).isNone else !d.2.hwFault)

/-- The state in which the ledger has taken the request (R175). -/
def entered (c : CmdSpec) (s : State) (r : Req) : State :=
  let d := taken s r
  (c.before d.1 d.2).accept c.opcode d.2

/-- The entry's turn comes at once: nothing of its stream waits before it (R182), and its targets pass the second check
of their world (R568). -/
def starts (c : CmdSpec) (s : State) (r : Req) : Bool :=
  let d := taken s r
  let u := entered c s r
  u.lowerBegun (u.streamOf d.2.lane d.2.src) s.led.nextLsn && (c.world u d.2).isNone

/-- The request is well formed and served, passes every check, and as an accepted command starts at once. -/
def Ready (c : CmdSpec) (s : State) (r : Req) : Prop :=
  s.Inv ∧ r.src.wf = true ∧ passes c s r = true ∧ (c.accepted = true → starts c s r = true)

/-- The outcome is a next state, and it is as `P` says. -/
def Completes (o : Host.Outcome State Fault Refusal) (P : State → Prop) : Prop := ∃ t, o = .next t ∧ P t

/-- An address outside the ledger's and the command interface's blocks, which every request touches. -/
def Aside (a : Nat) : Prop := a < 2 ^ 32 ∧ (a < 0xE0400000 ∨ 0xE0600000 ≤ a)

/-- Every active register outside the ledger's and the command interface's blocks keeps its value. -/
def State.RegsAside (s t : State) : Prop := ∀ l a, Aside a → t.reg l a = s.reg l a

/-- Every active register but the named ones keeps its value. -/
def State.RegsBut (ks : List Nat) (s t : State) : Prop := ∀ k, k ∉ ks → rfGet t.regs k = rfGet s.regs k

/-- `t` is `s` but for what the command interface itself may change: registers, a response buffer in memory, interrupts,
outputs, the ledger, sessions and the interface's own queues. -/
def State.Served (s t : State) : Prop :=
  t = { s with regs := t.regs, mem := t.mem, irqs := t.irqs, outbox := t.outbox, led := t.led, sessions := t.sessions,
               scs := t.scs }

/-- The same for the end of entries, which may also end quiesces and make grants stand (R14, Table 17.6). -/
def State.Ended (s t : State) : Prop :=
  t = { s with regs := t.regs, mem := t.mem, irqs := t.irqs, outbox := t.outbox, led := t.led, sessions := t.sessions,
               scs := t.scs, grants := t.grants, quiesces := t.quiesces }

/-- An address outside these blocks and the function state registers, which the end of an entry may write. -/
def Far (a : Nat) : Prop := Aside a ∧ (a < 0xE1201000 ∨ 0xE1202000 ≤ a)

/-- Of the registers that the end of an entry leaves, all but the named ones keep their values. -/
def State.FarBut (as_ : List Nat) (s t : State) : Prop := ∀ l a, Far a → a ∉ as_ → t.reg l a = s.reg l a

/-- A pending copy of a block's region in a lane carries ledger entry `lsn` and gives the register the value (R17, R20). -/
def State.CarriesAt (t : State) (l : Lane) (block region lsn : Nat) (w : RegCell) : Prop :=
  ∃ c ∈ t.commits, c.lane = l ∧ c.block = block ∧ c.region = region ∧ lsn ∈ c.lsns ∧ cellsGet c.writes w.1 = some w.2

/-- The same, in one of the lanes. -/
def State.Carries (t : State) (block region lsn : Nat) (w : RegCell) : Prop := ∃ l, t.CarriesAt l block region lsn w

/-- The sender has its response (R207, R208, R214, Table 7.4): a session the message; a mailbox the words of the response in
its slot, which is ready, or, where the data goes to a buffer, the header's first word; the start-up image and a queue
have none. -/
def Answered (s : State) (r : Req) (status lsn : Nat) (data : List Byte) (t : State) : Prop :=
  let l := (s.servedBy r.lane).getD r.lane
  match mailboxOf r.src, r.src with
  | some mb, _ =>
    let img := respHeader status false l r.reqId lsn data.length ++ data.take 112
    (t.fld r.lane (R.SCSM_MB_STATUS mb) F.SCSM_MB_STATUS_RESP_READY).testBit (r.slot % 8) = true ∧
      fieldAt (wordBytes (t.reg r.lane (R.SCSM_MB_RESP mb (r.slot % 8) 0))) 0 2 = status % 65536 ∧
      t.reg r.lane (R.SCSM_MB_RESP mb (r.slot % 8) 1) = BitVec.ofNat 32 r.reqId ∧
      (r.bufResponse = false ∨ data = [] → ∀ i, 4 * i < img.length →
        t.reg r.lane (R.SCSM_MB_RESP mb (r.slot % 8) i) = wordAt img (4 * i))
  | none, .session n => .scsResp n (respHeader status false l r.reqId lsn data.length ++ data) ∈ t.outbox
  | none, _ => True

/-! ### Frames of commands -/

/-- `t` is `s` but for what the command interface itself may change and for pending commit copies. -/
def State.Staged (s t : State) : Prop :=
  t = { s with regs := t.regs, mem := t.mem, irqs := t.irqs, outbox := t.outbox, led := t.led, sessions := t.sessions,
               scs := t.scs, commits := t.commits, nums := t.nums }

/-- An accepted command has staged its configuration: no active register outside the ledger's and the command interface's
blocks changes, and of the rest of the state no more than pending copies. -/
def State.Stages (s t : State) : Prop := s.RegsAside t ∧ s.Staged t

/-- A query has been answered with SCS_OK and data that is as `P` says. -/
def State.Replied (s : State) (r : Req) (t : State) (P : List Byte → Prop) : Prop := ∃ d, Answered s r SCS_OK 0 d t ∧ P d

/-- A query has been answered with SCS_OK and data that is as `P` says, and nothing but the command interface has changed. -/
def State.Told (s : State) (r : Req) (t : State) (P : List Byte → Prop) : Prop :=
  s.RegsAside t ∧ s.Served t ∧ s.Replied r t P

/-- The lane whose Elder serves a request (R225). -/
def State.server (s : State) (r : Req) : Lane := (s.servedBy r.lane).getD r.lane

/-- A register as it stands in the configuration that accepted commands have left (R212), with one field changed. -/
def State.cfgWith (s : State) (r : Req) (a : Nat) (f : Fld) (v : Nat) : RegCell :=
  (a, setF (s.shadow (s.holderOr r.lane) a) f v)

/-- `t` is `s` but for registers. -/
def State.RegsAlone (s t : State) : Prop := t = { s with regs := t.regs }

/-- `t` is `s` but for the named registers (by key). -/
def State.OnlyRegs (ks : List Nat) (s t : State) : Prop := s.RegsBut ks t ∧ s.RegsAlone t

/-- Keys of a register in lane E and in lane W. -/
def bothKeys (a : Nat) : List Nat := [regKey 0 a, regKey 1 a]

/-- Of the outputs, an event changes one, with its status register and the deferral mark of its feed. -/
def State.OneOut (s t : State) (d x : Nat) : Prop :=
  s.RegsBut [dieKey (oState d x), dieKey (R.SUPC_FEED_STAT (feedOf d x))] t ∧
  (∀ i, i ≠ 32 * d + x → t.outs[i]? = s.outs[i]?) ∧ t = { s with regs := t.regs, outs := t.outs }

/-- Keys of a feed's status registers at its die, and of the status registers of its outputs. -/
def feedKeys (f : Nat) : List Nat := [dieKey (R.SUPC_FEED_STAT f), dieKey (R.SUPC_FEED_MIN f), dieKey (R.SUPC_FEED_DIP f)]

def outKeys (f : Nat) : List Nat := (feedOuts f).map (fun x => dieKey (oState (feedDie f) x))

/-- An event of a feed changes no more than its status, its outputs with theirs, DIP_INHIBIT of its die, and its run state. -/
def State.OneFeed (s t : State) (f : Nat) : Prop :=
  s.RegsBut (dieKey (R.SUPC_DIPINH (feedDie f)) :: feedKeys f ++ outKeys f) t ∧
  (∀ i, (∀ x ∈ feedOuts f, i ≠ 32 * feedDie f + x) → t.outs[i]? = s.outs[i]?) ∧
  (∀ i, i ≠ f - 1 → t.feeds[i]? = s.feeds[i]?) ∧ t = { s with regs := t.regs, outs := t.outs, feeds := t.feeds }

/-- The mean of a feed is reported, and the lowest kept (spec/09, SUPC_FEEDf_STAT and _MIN). -/
def State.Volted (s t : State) (f : Nat) (v : Int) : Prop :=
  t.dieFld (R.SUPC_FEED_STAT f) F.SUPC_FEED_STAT_VOLT = uext 16 v ∧
  t.dieFld (R.SUPC_FEED_MIN f) F.SUPC_FEED_MIN_VMIN =
    if v < sext 16 (s.dieFld (R.SUPC_FEED_MIN f) F.SUPC_FEED_MIN_VMIN) then uext 16 v
    else s.dieFld (R.SUPC_FEED_MIN f) F.SUPC_FEED_MIN_VMIN

/-- A level of Table 9.1 in units of 2 mV, from its values in tenths of a volt by class. -/
def feedLevel (a b c k : Nat) : Int := if k = 0 then 50 * (a : Int) else if k = 1 then 50 * (b : Int) else 50 * (c : Int)

/-! ### Frames of the field dies -/

/-- Of the field channels, an event changes one; of the registers, the named ones. -/
def State.OneFc (s t : State) (d m : Nat) (as_ : List Nat) : Prop :=
  s.RegsBut (as_.map dieKey) t ∧ (∀ i, i ≠ 112 * d + m → t.fcs[i]? = s.fcs[i]?) ∧ t = { s with regs := t.regs, fcs := t.fcs }

/-- VALID as R295 gives it for an input whose first filter time is done: no flag that invalidates it, and its supply there. -/
def State.validAs (t : State) (d m : Nat) : Bool :=
  !t.fBit d m F.FCH_STATE_OVERLOAD && !t.fBit d m F.FCH_STATE_OPEN_WIRE && !t.fBit d m F.FCH_STATE_OVERTEMP &&
  !t.fBit d m F.FCH_STATE_SUPPLY_LOST && !((t.fMode d m == 2 || t.fMode d m == 6) && t.fBit d m F.FCH_STATE_SUPPLY_LOW)


/-! ### Register accesses -/

/-- An access by a register's bus completes with a word and changes, beside it, no more than the named registers. -/
def State.Accessed (s t : State) (w : Word) (ks : List Nat) : Prop := t.bus = .ok w ∧ s.OnlyRegs ks { t with bus := s.bus }

/-- An access completes with an error response and changes nothing (R36). -/
def State.Denied (s t : State) : Prop := t = { s with bus := .error }

/-- The half of LANE_STATUS that tells of lane `l` (Table 7.12). -/
def State.laneTold (s : State) (l : Lane) (d : List Byte) : Prop :=
  fieldAt d (12 * l.ix) 1 = s.lst l ∧
  (fieldAt d (12 * l.ix + 1) 1).testBit 0 = s.serving l ∧ (fieldAt d (12 * l.ix + 1) 1).testBit 1 = (s.lane l).safeBall ∧
  (fieldAt d (12 * l.ix + 1) 1).testBit 2 = (s.lane l).thermWarn ∧
  (fieldAt d (12 * l.ix + 1) 1).testBit 3 = s.bit l (R.CLKC_DOM_STAT 1) F.CLKC_DOM_STAT_REDUCED ∧
  fieldAt d (12 * l.ix + 2) 1 = s.fld l R.UPD_STATUS F.UPD_STATUS_ACTIVE_BANK ∧
  fieldAt d (12 * l.ix + 3) 1 = s.fld l R.RSTC_RST_CAUSE F.RSTC_RST_CAUSE_CAUSE ∧
  fieldAt d (12 * l.ix + 4) 2 = (s.lane l).junction % 65536 ∧ fieldAt d (12 * l.ix + 6) 2 = 0 ∧
  fieldAt d (12 * l.ix + 8) 4 = (s.now - (s.lane l).upSince) / 1000000 % 2 ^ 32

/-- A pending copy of a block's region in a lane gives the register the value. -/
def State.Pends (t : State) (l : Lane) (block region : Nat) (w : RegCell) : Prop :=
  ∃ c ∈ t.commits, c.lane = l ∧ c.block = block ∧ c.region = region ∧ cellsGet c.writes w.1 = some w.2

/-- Session `n` is closed (R221): OPEN and PENDING are 0 in both lanes, its requests not yet taken are gone, and nothing of the
other sessions changes. -/
def State.Closed (s t : State) (n : Nat) : Prop :=
  (∀ l, t.reg l (R.SCSM_RS_STATUS n) = 0) ∧ s.RegsBut (bothKeys (R.SCSM_RS_STATUS n)) t ∧
  (∀ m, m ≠ n → t.sessions[m]? = s.sessions[m]?) ∧ (t.session n).partials = [] ∧
  t.scs = { s.scs with inbox := s.scs.inbox.filter (fun i => i.req.src != .session n) } ∧
  t = { s with regs := t.regs, sessions := t.sessions, scs := t.scs, outbox := t.outbox }

/-! ### One lane's engines -/

/-- Of the state, an event changes registers, named ones only, and one lane's tide. -/
def State.OneTide (s t : State) (l : Lane) (as_ : List Nat) : Prop :=
  s.RegsBut (as_.map (regKey l.ix)) t ∧ t.tide l.other = s.tide l.other ∧
  t = { s with regs := t.regs, tideE := t.tideE, tideW := t.tideW }

/-- A saturating 32-bit counter register counts once. -/
def State.Counts (s t : State) (l : Lane) (a : Nat) : Prop := (t.reg l a).toNat = min ((s.reg l a).toNat + 1) (2 ^ 32 - 1)

/-- No copy of a lattice node waits. -/
def State.NodesSettled (s : State) : Prop := ∀ c ∈ s.commits, ¬ (c.block = 10 ∧ 32 ≤ c.region ∧ c.region < 48)

/-- The registers at these addresses hold these words in both lanes. -/
def State.BothHold (t : State) (ws : List RegCell) : Prop := ∀ l, ∀ w ∈ ws, t.reg l w.1 = w.2

/-- An accepted command has acted at once and ended: beside what the ledger and the command interface change, only the
registers at the named addresses. -/
def State.Did (s t : State) (as_ : List Nat) : Prop := s.FarBut as_ t ∧ s.Ended t

/-- The live entry of a ledger number, where there is one, reaches its disposition (Table 6.2). -/
def State.Disposes (s t : State) (lsn disp err : Nat) : Prop :=
  ∀ e ∈ s.entry lsn, e.live = true → ∃ x ∈ t.entry lsn, x.st = .disposed ∧ x.disp = disp ∧ x.err = err

/-! ### Ports -/

/-- Keys of a CAN port's receive window in a lane: its control register, CUR's header and data. -/
def canRxKeys (l : Lane) (n : Nat) : List Nat :=
  (R.CAN_RX_CTL n :: (List.range 8).map (R.CAN_RX_HDR n) ++ (List.range 512).map (R.CAN_RX_DATA n)).map (regKey l.ix)

/-- A port's cove is none, or neither in DUSK nor further asleep. -/
def State.portUp (s : State) (q : Nat) : Prop := ∀ c ∈ s.portCove q, s.coveSt c < vDUSK

/-- `m` is in CUR of a port's window. -/
def State.curIs (t : State) (l : Lane) (n : Nat) (m : CanMsg) : Prop :=
  t.bit l (R.CAN_RX_CTL n) F.CAN_RX_CTL_CUR_VALID = true ∧ (∀ i < m.hdr.length, some (t.reg l (R.CAN_RX_HDR n i)) = m.hdr[i]?) ∧
  ∀ i < 512, 4 * i < m.data.length → t.reg l (R.CAN_RX_DATA n i) = wordAt m.data (4 * i)

/-- A lane's FIFO of a port has been offered a frame (R406). -/
def State.Offered (s t : State) (l : Lane) (n : Nat) (m : CanMsg) : Prop :=
  let a := R.CAN_RX_CTL n
  let x := s.canRx l n
  let y := t.canRx l n
  let g : CanMsg := { m with hdr := withSeq m.hdr x.seq }
  let valid := s.bit l a F.CAN_RX_CTL_CUR_VALID
  let room := 2 + x.fifo.length < s.fld l (R.CAN_RX_CFG n) F.CAN_RX_CFG_RXD_M1 + 1
  let full := valid = true ∧ x.shadow.isSome = true ∧ ¬ room
  let ovw := s.bit l (R.CAN_RX_CFG n) F.CAN_RX_CFG_OVW = true ∧ x.fifo ≠ []
  y.seq = (x.seq + 1) % 65536 ∧
  (valid = false → t.curIs l n g ∧ y.shadow = x.shadow ∧ y.fifo = x.fifo) ∧
  (valid = true → x.shadow = none → y.shadow = some g ∧ y.fifo = x.fifo) ∧
  (valid = true → x.shadow.isSome = true → room → y.shadow = x.shadow ∧ y.fifo = x.fifo ++ [g]) ∧
  (full → y.shadow = x.shadow ∧ y.fifo = (if ovw then x.fifo.tail ++ [g] else x.fifo) ∧ t.bit l a F.CAN_RX_CTL_LOST = true) ∧
  (¬ full → t.bit l a F.CAN_RX_CTL_LOST = s.bit l a F.CAN_RX_CTL_LOST ∧
    t.fld l a F.CAN_RX_CTL_COUNT = b2n (t.bit l a F.CAN_RX_CTL_CUR_VALID) + b2n y.shadow.isSome + y.fifo.length)

/-- Every active register outside the ledger's and the command interface's blocks but the named ones keeps its value. -/
def State.AsideBut (as_ : List Nat) (s t : State) : Prop := ∀ l a, Aside a → a ∉ as_ → t.reg l a = s.reg l a

/-! ### Network sleep -/

/-- Of the network sleep state, an event changes one cove. -/
def State.OneCove (s t : State) (c : Nat) : Prop :=
  (∀ k, k ≠ c → t.nms.coves[k]? = s.nms.coves[k]?) ∧ t.nms.curfews = s.nms.curfews ∧ t.nms.wakes = s.nms.wakes

/-- A source in a cove is recorded in the wakeful-node log: in its entry, else in the first free one, else in place of the one
with the oldest LAST (R512, Table 16.5). -/
def State.Logged (s t : State) (c src : Nat) (refusal hop : Bool) : Prop :=
  let known := fun i => s.logUsed i = true ∧ s.logSrc i = src ∧ s.logCove i = c
  let w := fun (u : State) i k => (u.shReg (R.NMS_LOG i k)).toNat
  ∃ i < 64, (∀ j < i, ¬ known j) ∧
    (¬ known i → (∀ j < 64, ¬ known j) ∧
      (s.logUsed i = false → ∀ j < i, s.logUsed j = true) ∧
      (s.logUsed i = true → s.Counts t .E (R.NMS_CNT 7) ∧ ∀ j < 64, s.logUsed j = true ∧ w s i 3 ≤ w s j 3)) ∧
    (let prev := if known i then w s i 1 else 0
     w t i 0 % 65536 = src ∧ w t i 0 / 65536 % 256 = c ∧ nbit (w t i 0) 24 = refusal ∧
     nbit (w t i 0) 25 = (if refusal then hop else decide (known i) && nbit (w s i 0) 25) ∧
     w t i 1 % 65536 = (if refusal then min (prev % 65536 + 1) 65535 else prev % 65536) ∧
     w t i 1 / 65536 = (if refusal then prev / 65536 else min (prev / 65536 + 1) 65535)) ∧
    (known i → w t i 2 = w s i 2) ∧ (¬ known i → w t i 2 = s.calSec % 2 ^ 32) ∧ w t i 3 = s.calSec % 2 ^ 32 ∧
    ∀ j < 64, j ≠ i → ∀ k < 4, t.shReg (R.NMS_LOG j k) = s.shReg (R.NMS_LOG j k)

/-- A ring or a dusk of a cove has failed: ABORT has been sent, the cove is AWAKE, FAILS has counted, and at its limit the request
is withdrawn and the waiting NMS_CURFEW entries of the cove end (R503, R515). -/
def State.RingFailed (s t : State) (c : Nat) : Prop :=
  let out := s.coveReq c = true ∧ s.shFld (R.NMS_COVE_CFG0 c) F.NMS_COVE_CFG0_MAX_RINGS_M1 + 1 ≤ min (s.coveFails c + 1) 255
  t.coveSt c = vAWAKE ∧ OutMsg.ring c mABORT (s.coveRing c) 0 ∈ t.outbox ∧ t.coveFails c = min (s.coveFails c + 1) 255 ∧
  (¬ out → t.coveReq c = s.coveReq c ∧ t.nms.curfews = s.nms.curfews) ∧
  (out → t.coveReq c = false ∧ t.nms.curfews = s.nms.curfews.filter (fun w => !w.2.testBit c) ∧
    ∀ w ∈ s.nms.curfews, w.2.testBit c = true → s.Disposes t w.1 dFAILED eREFUSED)

/-! ### Resets -/

/-- No register of the shared dies has changed. -/
def State.DiesKept (s t : State) : Prop :=
  t.regs.filter (fun c => c.1 / homeSpan == 2) = s.regs.filter (fun c => c.1 / homeSpan == 2)

/-- A reset request of a lane has been taken (R98 to R103): its cause is tallied and the shared dies are as they were. Into a
sequence at its level or a deeper one it merges; else the lane is in RESET with the new cause, its Elder and cores down, its
interrupts gone, its SAFE ball low, and the arbiter sees DOWN. SYS and POR reset its engines, watchdogs and SRAM (Table 4.1). -/
def State.ResetTo (s t : State) (l : Lane) (lvl : RLevel) (cause detail : Nat) : Prop :=
  let merges := ∃ cur ∈ (s.lane l).resetting, lvl.code ≤ cur.code
  s.Counts t l (R.PARI_RST (causeRow cause)) ∧ s.DiesKept t ∧ t.outs = s.outs ∧ t.feeds = s.feeds ∧ t.fcs = s.fcs ∧
  (merges → t.bit l R.RSTC_RST_CAUSE F.RSTC_RST_CAUSE_MERGED = true ∧ (t.lane l).resetting = (s.lane l).resetting ∧
    t.fld l R.RSTC_RST_CAUSE F.RSTC_RST_CAUSE_CAUSE = s.fld l R.RSTC_RST_CAUSE F.RSTC_RST_CAUSE_CAUSE) ∧
  (¬ merges → t.reg l R.RSTC_RST_CAUSE = BitVec.ofNat 32 (cause + 2 ^ 8 * lvl.code + 2 ^ 24 * detail) ∧ t.lst l = stRESET ∧
    (t.lane l).resetting = some lvl ∧ (t.lane l).elderUp = false ∧ (t.lane l).coresHeld = true ∧ t.serving l = false ∧
    (t.lane l).safeBall = false ∧ (match l with | .E => t.arb.downE | .W => t.arb.downW) = true ∧ (∀ i ∈ t.irqs, i.lane ≠ l) ∧
    (lvl = .core → t.tide l = s.tide l ∧ t.cvc l = s.cvc l ∧ t.harb l = s.harb l ∧ t.mem = s.mem ∧
      ∀ n < 6, t.reg l (R.RSTC_WDT_CFG n) = s.reg l (R.RSTC_WDT_CFG n)) ∧
    (lvl ≠ .core → t.tide l = .reset ∧ t.cvc l = .reset ∧ t.harb l = .reset ∧
      (t.lane l).released = (if lvl = .por then [] else [0]) ∧ (∀ n < 6, t.reg l (R.RSTC_WDT_CFG n) = 0) ∧
      (∀ c ∈ t.mem, ¬ (memKey l 0x10000000 ≤ c.1 ∧ c.1 < memKey l 0x10800000)) ∧
      (lvl = .por → ∀ c ∈ t.mem, ¬ (memKey l lpBase ≤ c.1 ∧ c.1 < memKey l (lpBase + 0x100000000))) ∧
      ∀ b ∈ [9, 10, 15, 16], ∀ c ∈ t.regs, ¬ (l.ix * homeSpan + 0xE0000000 + b * 0x100000 ≤ c.1 ∧
        c.1 < l.ix * homeSpan + 0xE0100000 + b * 0x100000)))

/-- The entry of a ledger number has ended with a disposition. -/
def State.Ends (t : State) (lsn disp err : Nat) : Prop :=
  ∃ x ∈ t.entry lsn, x.live = false ∧ x.disp = disp ∧ x.err = err

/-! ### Firmware update -/

/-- A bank of a lane is erased: no set is in it, and all its bytes read as nothing has been written. -/
def State.Erased (t : State) (l : Lane) (b : Nat) : Prop :=
  t.laneBank l b = ⟨none, none⟩ ∧ ∀ c ∈ t.mem, ¬ (memKey l (norBase b) ≤ c.1 ∧ c.1 < memKey l (norBase b) + 2 ^ 27)

/-- Each lane stages at most once. -/
def State.StagesOnce (s : State) : Prop := (s.upd.stage.map Prod.fst).Nodup

/-- The staging has been dropped: IDLE, with the staged banks erased (Table 19.3). -/
def State.Dropped (s t : State) : Prop :=
  t.upd.st = 0 ∧ t.upd.man = [] ∧ t.upd.idx = [] ∧ t.upd.next = 0 ∧ t.upd.idxOk = false ∧ t.upd.total = 0 ∧ t.upd.stage = [] ∧
  t.upd.lastLsn = none ∧ (∀ l, t.fld l R.UPD_STATUS F.UPD_STATUS_STATE = 0 ∧ t.reg l R.UPD_PROGRESS = 0) ∧
  ∀ p ∈ s.upd.stage, t.Erased p.1 p.2

/-! ### The ferry -/

/-- MODE and the SAFE balls show what the lanes' states say (R134, R70). -/
def State.ModeShown (t : State) : Prop :=
  (∀ m, t.fld m R.FERRY_LANE F.FERRY_LANE_MODE = t.mode) ∧
  ∀ m, (t.lane m).safeBall = (t.mod_.configured && (t.lst m == 4 || t.lst m == 5))

/-- The arbiter has granted to a lane (R154 to R156, R173): the grant is on its way, both lanes see the holder, and a HANDOVER that
waits alone is DONE where the grant goes to the other lane, else it fails with a free code. -/
def State.Granted (s t : State) (l : Lane) (epoch : Nat) : Prop :=
  t.arb.held = some l ∧ t.arb.epoch = epoch ∧ t.arb.grantTo = some l ∧ t.arb.released = false ∧ t.arb.restarted = false ∧
  t.arb.renewAt = s.now ∧ t.reqPending l = false ∧ OutMsg.grant l epoch s.arb.leaseUs ∈ t.outbox ∧
  (∀ m, t.bit m R.FERRY_LANE F.FERRY_LANE_HELD = true ∧ t.fld m R.FERRY_LANE F.FERRY_LANE_HOLDER_LANE = l.ix) ∧
  t.ferry.handoverLsns = [] ∧ s.FarBut (R.FERRY_LANE :: (List.range 4).map R.TIME_TB_STAT) t ∧
  ∀ p ∈ s.ferry.handoverLsns, s.ferry.handoverLsns = [p] →
    if p.2 = l then s.Disposes t p.1 dFAILED (s.freeNat % 65536) else s.Disposes t p.1 dDONE 0

/-- A counter of frame acceptance has advanced in each lane that is not in RESET, and nothing else has changed. -/
def State.FrameCounted (s t : State) (k : Nat) : Prop :=
  s.OnlyRegs (bothKeys (R.FERRY_CNT k)) t ∧ ∀ l, s.lst l ≠ 0 → s.Counts t l (R.FERRY_CNT k)

/-- A significant difference has been taken (R151): both lanes show DISCREPANCY and the log, and outside MIXED no lane is STANDBY
any more. -/
def State.Differs (s t : State) (d : Die) (cycle record byte : Nat) : Prop :=
  (∀ l, t.bit l R.FERRY_STATUS F.FERRY_STATUS_DISCREPANCY = true ∧ s.Counts t l (R.FERRY_CNT 1) ∧
    t.reg l R.FERRY_DISC_LOG0 = BitVec.ofNat 32 cycle ∧ t.fld l R.FERRY_DISC_LOG1 F.FERRY_DISC_LOG1_DIE = d.ix ∧
    t.fld l R.FERRY_DISC_LOG1 F.FERRY_DISC_LOG1_RECORD = record % 2 ^ fldWidth F.FERRY_DISC_LOG1_RECORD ∧
    t.fld l R.FERRY_DISC_LOG1 F.FERRY_DISC_LOG1_BYTE = byte % 2 ^ fldWidth F.FERRY_DISC_LOG1_BYTE) ∧
  (s.mixed = false → ∀ l, t.lst l ≠ 4) ∧ (s.mixed = true → ∀ l, t.lst l = s.lst l)

end Sys2Proof.Machine
end

