-- ==== Sys2Proof/Certificates/Slice0/Obligations.lean ====
section
/-! DEFINITION. The statements of this model for the provers: what the commands and the machine do, by the numbered rules and
the tables of the spec. -/

open Sys2Proof Sys2Proof.Machine

/-- The queue of commands is the model's (log entry 11). -/
def Obligations.StepRunsFrontCommand : Prop :=
  (∀ c cs (s : State), s.pending = c :: cs → step s = exec c { s with pending := cs })

/-- No command stops the machine. The queue and the time are the model's (log entries 1 and 11). -/
def Obligations.CommandsComplete : Prop :=
  ∀ c s, ∃ t, exec c s = .next t ∧
  (∀ c s t, s.Inv → exec c s = .next t → t.pending = s.pending ∧ t.now = s.now)

/-- R446, R105, R129, R357, R602, R591, and log entry 1. -/
def Obligations.TimePasses : Prop :=
  (∀ s, s.Inv → s.pending = [] → Completes (step s) (fun t => t.now = s.now + 1 ∧ t.pending = [] ∧
    t.calUs = s.calUs + (if s.aonPowered = true then 1 else 0) ∧
    t.arb = (if s.mod_.frozen = true then { s.arb with renewAt := s.arb.renewAt + 1 } else s.arb))) ∧
  (∀ s l, s.Inv → s.pending = [] → (∀ p, p < 8 → ∀ e ∈ (s.lin p).pulseEnd, s.now + 1 < e) → Completes (step s) (fun t =>
    (s.tideRuns l = false → t.tide l = s.tide l) ∧
    (s.tideRuns l = true → let a := (s.tide l).acc + 400 * (s.tide l).inc
      t.tide l = { s.tide l with acc := a % 2 ^ 48, turn := ((s.tide l).turn + a / 2 ^ 48) % 2 ^ 32,
                                 turnsDue := (s.tide l).turnsDue + a / 2 ^ 48 }) ∧
    (∀ k < 12, let now := s.fld l (R.CVC_PP_CNT k) F.CVC_PP_CNT_POS
      t.fld l (R.CVC_PP_CNT k) F.CVC_PP_CNT_POS =
        if s.cvcRuns l = true ∧ (s.pair l k).per ≠ 0 then (now + 12800) % (s.pair l k).per % 2 ^ 29 else now) ∧
    (∀ n < 6, let left := s.fld l (R.RSTC_WDT_CNT n) F.RSTC_WDT_CNT_REMAIN
      t.fld l (R.RSTC_WDT_CNT n) F.RSTC_WDT_CNT_REMAIN =
        if (s.now + 1) % 100 = 0 ∧ s.mod_.frozen = false ∧ (s.lane l).powered = true ∧
          s.bit l (R.RSTC_WDT_CFG n) F.RSTC_WDT_CFG_EN = true then left - 1 else left) ∧
    (s.upd.st = 3 → t.fld l R.UPD_STATUS F.UPD_STATUS_CONFIRM_LEFT = min 65535 ((s.upd.trialEnd - (s.now + 1)) / 1000000)) ∧
    s.RegsBut (((List.range 12).map R.CVC_PP_CNT ++ (List.range 6).map R.RSTC_WDT_CNT ++ [R.UPD_STATUS]).flatMap bothKeys) t ∧
    t = { s with now := s.now + 1, calUs := t.calUs, arb := t.arb, regs := t.regs, tideE := t.tideE, tideW := t.tideW, tbs := t.tbs })) ∧
  (∀ s n, s.Inv → s.pending = [] → n < 4 → Completes (step s) (fun t =>
    let d : Int := 1000 * 2 ^ 32 + sext 32 (s.shReg (R.TIME_TB_FREQ n)).toNat * 2 ^ 22 / 10 ^ 6
    t.tb n = if s.shBit (R.TIME_TB_STAT n) F.TIME_TB_STAT_RUNNING = true
      then { s.tb n with t := ((s.tb n).t + d.toNat) % (2 ^ 48 * 10 ^ 9 * 2 ^ 32) } else s.tb n))

/-- Reset values as the register chapters print them. The invariant at reset. -/
def Obligations.StateAfterReset : Prop :=
  (∀ l, ∀ w ∈ ([(R.FERRY_CFG, 0x000207D0), (R.FERRY_PHASE_CFG, 0x000103E7), (R.LEDG_CFG, 0x00090400), (R.LEDG_NODL, 0x7CF),
      (R.LEDG_QUOTA 0, 0x200), (R.LEDG_QUOTA 160, 0x200), (R.SCSM_CFG, 0x3B5CB9FA), (R.TIDE_CFG, 0x00090A00),
      (R.PARI_CFG, 0x27102509)] : List RegCell),
    State.reset.reg l w.1 = w.2 ∧ State.reset.shadow l w.1 = w.2) ∧
  (State.reset.reg .E R.FERRY_LANE = 0 ∧ State.reset.reg .W R.FERRY_LANE = 0x100 ∧ (∀ l, State.reset.reg l R.LEDG_FREE = 0x8000) ∧
    State.reset.led.nextLsn = 1 ∧ State.reset.led.entries = [] ∧ State.reset.pending = []) ∧
  (State.reset.Inv)

/-- The invariant of every run. -/
def Obligations.StepKeepsInvariant : Prop :=
  ∀ s t, s.Inv → step s = .next t → t.Inv

/-- R1 and R2: IDENTIFY returns the one DEVICE_ID from both lanes. -/
def Obligations.DeviceIdentity : Prop :=
  (∀ s r, Ready specIdentify s r → Completes (exec (.identify r) s) (fun t => s.Replied r t (fun d => fieldAt d 0 4 = 0x4C5A41B0 ∧
    fieldAt d 1 3 = 0x4C5A41 ∧ fieldAt d 0 1 = 0xB0)))

/-- R209 over every command: each command's arm runs `runScs` of its table row. R175, R176, R180, R184, over every command: each command's arm runs `runScs` of its table row. -/
def Obligations.ChecksAndAcceptance : Prop :=
  let steps := fun (c : CmdSpec) (s : State) (r : Req) => ([
    (decide (r.flags < 16) && !(r.isSession && (r.bufPayload || r.bufResponse)), 0x0103), (lengthOk c r, 0x0102),
    (permitOk s c.opcode r && c.perm s r && (c.world s r).isNone && buffersOwned s r, 0x0105),
    (!(c.accepted && (s.dupOf r).isSome), 0x0203), (c.lifecycle s r, 0x0403), (!expertHeld s (blockOf c.opcode), 0x0106),
    (!(r.hasDeadline && r.deadline == 0) && buffersAligned r && (c.hasTarget || r.target == 0) &&
      (c.urgentOk || !r.urgent) && (!c.lenPar || c.lenOk r) && c.param s r, 0x0103),
    (c.laneOk s r, 0x0301), (c.leaseOk s r, 0x0302), (c.stateOk s r, 0x0104), (c.reachOk s r, 0x0204), (c.sigOk s r, 0x0401),
    (c.svnOk s r, 0x0402), ((s.servedBy r.lane).isSome && c.busyOk s r, 0x0501),
    (!c.accepted || decide (s.quotaUsed (s.quotaOf r.lane r.src) < s.fld r.lane (R.LEDG_QUOTA (s.quotaOf r.lane r.src)) F.LEDG_QUOTA_QUOTA), 0x0202),
    (!c.accepted || ((r.src.isChief || decide (s.fld r.lane R.LEDG_CFG F.LEDG_CFG_RESERVE + s.inFlight < 32768)) && decide (s.inFlight < 32768) &&
      decide (s.liveDups.length < 65536)), 0x0201)] : List (Bool × Nat))
  (∀ s r c k st, s.Inv → r.src.wf = true → s.deaf = false → r.isStartup = false → r.isQueue = false → waits c s r = false →
    (∀ u q, c.world u q = none) → (∀ u q, c.onRefuse u q = fun _ => u) →
    k ≠ 3 → (∀ x ∈ (steps c (taken s r).1 (taken s r).2).take k, x.1 = true) →
    (steps c (taken s r).1 (taken s r).2)[k]? = some (false, st) →
    Completes (runScs c r s) (fun t => t.led = s.led ∧ s.RegsAside t ∧ s.Served t ∧ Answered s r st 0 [] t)) ∧
  (∀ s r c, s.Inv → r.src.wf = true → s.deaf = false → r.isStartup = false → r.isQueue = false → waits c s r = false →
    c.accepted = false → (∀ x ∈ steps c (taken s r).1 (taken s r).2, x.1 = true) → r.hwFault = true →
    Completes (runScs c r s) (fun t => t.led = s.led ∧ s.RegsAside t ∧ s.Served t ∧ Answered s r SCS_E_HW 0 [] t)) ∧
  ((∀ s r c, s.Inv → r.src.wf = true → c.accepted = true → passes c s r = true → (∀ u q, c.before u q = u) →
    s.lowerBegun (s.streamOf r.lane r.src) s.led.nextLsn = false → Completes (runScs c r s) (fun t =>
      let n := s.led.nextLsn
      t.led.nextLsn = n + 1 ∧ (∀ e ∈ s.led.entries, t.entry e.lsn = s.entry e.lsn) ∧ s.RegsAside t ∧ s.Served t ∧
      (∃ e ∈ t.entry n, e.st = .accepted ∧ e.opcode = c.opcode ∧ e.stream = s.streamOf r.lane r.src ∧ e.acc = s.now ∧
        e.req.reqId = r.reqId ∧ e.req.payload = r.payload ∧
        e.deadline = (if r.flags.testBit 0 then some (s.now + r.deadline) else none)) ∧
      (r.isStartup = false → r.isQueue = false → ∃ d ∈ t.led.dups, d.lsn = n ∧ d.reqId = r.reqId ∧
        d.stream = s.streamOf r.lane r.src ∧ d.disp = 0 ∧
        d.crc = (Config.crc16 (leBytes 2 c.opcode ++ leBytes 2 r.target ++ r.payload)).toNat) ∧
      (∀ l, s.Counts t l (R.LEDG_CNT 0)) ∧ Answered s r SCS_ACCEPTED n [] t)) ∧
  (∀ s op r, (specOf op = none → exec (.ledgerAccept op r) s = .next s) ∧
    ∀ c ∈ specOf op, exec (.ledgerAccept op r) s = if c.accepted = true then runScs c r s else .next s))

/-- Table 8.8, R230: the configuration commands of the power channels. Table 9.4: the configuration commands of gate drivers and feeds. R257, Table 8.5, R288: PC_SAFE_STATE and GD_SAFE_STATE. Tables 8.8 and 9.4: the queries of the power dies. -/
def Obligations.PowerCommands : Prop :=
  (∀ s r, Ready specPcSet s r → Completes (exec (.pcSet r) s) (fun t => s.Stages t ∧ ∀ n < 48, (r.u 0 6).testBit n = true →
    t.Carries 6 (pcDie n) s.led.nextLsn (R.PCH_TGT (pcDie n) (pcIx n), BitVec.ofNat 32 (r.u8 6 + 4 * r.u8 7)) ∧
    t.Carries 6 (pcDie n) s.led.nextLsn (R.PCH_SWPH (pcDie n) (pcIx n), r.w 8) ∧
    (r.u8 6 = 2 → t.Carries 6 (pcDie n) s.led.nextLsn
      (s.cfgWith r (R.PCH_DUTY (pcDie n) (pcIx n)) F.PCH_DUTY_DUTY (r.u16 12))))) ∧
  (∀ s r, Ready specPcConfig s r → Completes (exec (.pcConfig r) s) (fun t => s.Stages t ∧
    ∀ c ∈ [(R.PCH_CFG (pcDie (r.u8 0)) (pcIx (r.u8 0)), r.w 4), (R.PCH_TRIP (pcDie (r.u8 0)) (pcIx (r.u8 0)), r.w 8),
        (R.PCH_THRM (pcDie (r.u8 0)) (pcIx (r.u8 0)), r.w 12), (R.PCH_PWM (pcDie (r.u8 0)) (pcIx (r.u8 0)), r.w 16),
        (R.PCH_OFS (pcDie (r.u8 0)) (pcIx (r.u8 0)), r.w 20),
        s.cfgWith r (R.PCH_DUTY (pcDie (r.u8 0)) (pcIx (r.u8 0))) F.PCH_DUTY_FALLBACK (r.u16 24)],
      t.Carries 6 (pcDie (r.u8 0)) s.led.nextLsn c)) ∧
  (∀ s r, Ready specPcProfile s r → Completes (exec (.pcProfile r) s) (fun t => s.Stages t ∧ ∀ d < 2,
    ∀ c ∈ [(R.PCH_WP_K1 d (r.u8 0), r.w 4), (R.PCH_WP_K2 d (r.u8 0), r.w 8), (R.PCH_WP_TAU d (r.u8 0), r.w 12),
        (R.PCH_WP_LIM d (r.u8 0), r.w 16)],
      t.Carries 6 d s.led.nextLsn c)) ∧
  (∀ s r, Ready specPcDieConfig s r → Completes (exec (.pcDieConfig r) s) (fun t => s.Stages t ∧ ∀ d < 2,
    (r.u8 0).testBit d = true → t.Carries 6 d s.led.nextLsn (R.PCH_DIE_CFG d, BitVec.ofNat 32 (r.u16 2)))) ∧
  (∀ s r, Ready specPcClear s r → Completes (exec (.pcClear r) s) (fun t => s.Stages t ∧ ∀ n < 48, (r.u 0 6).testBit n = true →
    t.Carries 6 (pcDie n) s.led.nextLsn (R.PCH_TGT (pcDie n) (pcIx n), BitVec.ofNat 32 ((if r.u8 6 = 1 then 0
      else getF (s.shadow (s.holderOr r.lane) (R.PCH_TGT (pcDie n) (pcIx n))) F.PCH_TGT_TARGET) + 8)))) ∧
  ((∀ s r, Ready specGdSet s r → Completes (exec (.gdSet r) s) (fun t => s.Stages t ∧ ∀ n < 16, (r.u16 0).testBit n = true →
    t.Carries 7 (n / 8) s.led.nextLsn (R.GDR_TGT (n / 8) (n % 8), BitVec.ofNat 32 (r.u8 2 + 4 * r.u8 3)) ∧
    t.Carries 7 (n / 8) s.led.nextLsn (R.GDR_SWPH (n / 8) (n % 8), r.w 4))) ∧
  (∀ s r, Ready specGdConfig s r → Completes (exec (.gdConfig r) s) (fun t => s.Stages t ∧
    ∀ c ∈ [(R.GDR_CFG (r.u8 0 / 8) (r.u8 0 % 8), r.w 4), (R.GDR_SHUNT (r.u8 0 / 8) (r.u8 0 % 8), r.w 8),
        (R.GDR_OC (r.u8 0 / 8) (r.u8 0 % 8), r.w 12), (R.GDR_TRIP (r.u8 0 / 8) (r.u8 0 % 8), r.w 16),
        (R.GDR_PRECHG (r.u8 0 / 8) (r.u8 0 % 8), r.w 20)],
      t.Carries 7 (r.u8 0 / 8) s.led.nextLsn c)) ∧
  (∀ s r, Ready specGdClear s r → Completes (exec (.gdClear r) s) (fun t => s.Stages t ∧ ∀ n < 16, (r.u16 0).testBit n = true →
    t.Carries 7 (n / 8) s.led.nextLsn (R.GDR_TGT (n / 8) (n % 8), BitVec.ofNat 32 ((if r.u8 2 = 1 then 0
      else getF (s.shadow (s.holderOr r.lane) (R.GDR_TGT (n / 8) (n % 8))) F.GDR_TGT_TARGET) + 8)))) ∧
  (∀ s r, Ready specFeedConfig s r → Completes (exec (.feedConfig r) s) (fun t => s.Stages t ∧
    t.Carries 2 (r.u8 0) s.led.nextLsn
      (R.SUPC_FEED_CFG (r.u8 0), BitVec.ofNat 32 (r.u8 1 + 0x10 * r.u16 2 + 0x10000 * r.u8 4)))) ∧
  ((∀ s r, Ready specPcSafeState s r → Completes (exec (.pcSafeState r) s) (fun t =>
    s.RegsAside t ∧ s.Staged { t with urgents := s.urgents } ∧ (∀ u ∈ s.urgents, u ∈ t.urgents) ∧
    ∀ n < 48, (r.u 0 6).testBit n = true →
      (∃ u ∈ t.urgents, u.die = powerDie (pcDie n) ∧ u.mask.testBit (pcIx n) = true ∧ u.act = r.u8 6 ∧
        u.lsn = s.led.nextLsn ∧ u.epoch = (s.reg (s.holderOr .E) R.FERRY_EPOCH).toNat ∧ u.sealCyc = s.sealedCycle) ∧
      (let a := R.PCH_TGT (pcDie n) (pcIx n)
       let fa := getF (s.shadow (s.holderOr r.lane) (R.PCH_CFG (pcDie n) (pcIx n))) F.PCH_CFG_FAIL_ACT
       let duty := R.PCH_DUTY (pcDie n) (pcIx n)
       (r.u8 6 = 1 ∨ fa = 0 → t.Carries 6 (pcDie n) s.led.nextLsn (a, 0)) ∧
       (r.u8 6 = 2 ∧ fa = 1 → t.Carries 6 (pcDie n) s.led.nextLsn (a, 1)) ∧
       (r.u8 6 = 2 ∧ fa = 2 → t.Carries 6 (pcDie n) s.led.nextLsn
         (a, BitVec.ofNat 32 (getF (s.shadow (s.holderOr r.lane) a) F.PCH_TGT_TARGET))) ∧
       (r.u8 6 = 2 ∧ fa = 3 → t.Carries 6 (pcDie n) s.led.nextLsn (a, 2) ∧
         t.Carries 6 (pcDie n) s.led.nextLsn (s.cfgWith r duty F.PCH_DUTY_DUTY
           (getF (s.shadow (s.holderOr r.lane) duty) F.PCH_DUTY_FALLBACK)))))) ∧
  (∀ s r, Ready specGdSafeState s r → Completes (exec (.gdSafeState r) s) (fun t =>
    s.RegsAside t ∧ s.Staged { t with urgents := s.urgents } ∧ (∀ u ∈ s.urgents, u ∈ t.urgents) ∧
    ∀ n < 16, (r.u16 0).testBit n = true →
      (∃ u ∈ t.urgents, u.die = powerDie (n / 8) ∧ u.mask.testBit (24 + n % 8) = true ∧ u.act = r.u8 2 ∧
        u.lsn = s.led.nextLsn ∧ u.epoch = (s.reg (s.holderOr .E) R.FERRY_EPOCH).toNat ∧ u.sealCyc = s.sealedCycle) ∧
      (let a := R.GDR_TGT (n / 8) (n % 8)
       let fa := getF (s.shadow (s.holderOr r.lane) (R.GDR_CFG (n / 8) (n % 8))) F.GDR_CFG_FAIL_ACT
       (r.u8 2 = 1 ∨ fa = 0 → t.Carries 7 (n / 8) s.led.nextLsn (a, 0)) ∧
       (r.u8 2 = 2 ∧ fa = 1 → t.Carries 7 (n / 8) s.led.nextLsn (a, 1)) ∧
       (r.u8 2 = 2 ∧ fa = 2 → t.Carries 7 (n / 8) s.led.nextLsn
         (a, BitVec.ofNat 32 (getF (s.shadow (s.holderOr r.lane) a) F.GDR_TGT_TARGET)))))) ∧
  ((∀ s r, Ready specPcStatus s r → Completes (exec (.pcStatus r) s) (fun t => s.Told r t (fun d =>
    d.length = 16 * r.u8 1 ∧ ∀ i < r.u8 1, ∀ k < 4, wordAt d (16 * i + 4 * k) =
      s.reg (s.server r) (R.PCH_MIR (pcDie (r.u8 0 + i)) (pcIx (r.u8 0 + i)) k)))) ∧
  (∀ s r, Ready specPcDieStatus s r → Completes (exec (.pcDieStatus r) s) (fun t => s.Told r t (fun d =>
    d.length = 12 ∧ wordAt d 0 = s.shReg (R.PCH_DIE_STATUS (r.u8 0 - 1)) ∧
    wordAt d 4 = s.shReg (R.PCH_DIE_POWER (r.u8 0 - 1)) ∧ wordAt d 8 = s.shReg (R.PCH_SAFE (r.u8 0 - 1))))) ∧
  (∀ s r, Ready specGdStatus s r → Completes (exec (.gdStatus r) s) (fun t => s.Told r t (fun d =>
    d.length = 16 * r.u8 1 ∧ ∀ i < r.u8 1,
      let n := r.u8 0 + i
      (∀ k < 3, wordAt d (16 * i + 4 * k) = s.reg (s.server r) (R.GDR_MIR (n / 8) (n % 8) k)) ∧
      wordAt d (16 * i + 12) = s.reg (s.server r) (R.GDR_MIR (n / 8) (n % 8) 4)))) ∧
  (∀ s r, Ready specFeedStatus s r → Completes (exec (.feedStatus r) s) (fun t => s.Told r t (fun d =>
    d.length = 56 ∧ wordAt d 0 = s.reg (s.server r) R.SUPC_STATUS ∧ wordAt d 4 = s.reg (s.server r) R.SUPC_VKEEP ∧
    ∀ f, 1 ≤ f → f ≤ 6 → wordAt d (8 * f) = s.reg (s.server r) (R.SUPC_FEED_STAT f) ∧
      wordAt d (8 * f + 4) = s.reg (s.server r) (R.SUPC_FEED_MIN f)))))))

/-- Tables 8.4 and 9.3, the rows of over-current and trip. R239, R240, R242, R253, R281: one mean of an output. R246, R251: a thermal reading. R243, R244, R287. -/
def Obligations.OutputProtection : Prop :=
  let tripped := fun (s t : State) (d x : Nat) (flag : OFlag) =>
    t.oSt d x = (if 1 ≤ s.retryLeft d x then 3 else 5) ∧ t.oFlag d x flag = true ∧ t.retryLeft d x = s.retryLeft d x ∧
    (∀ g, flag.fld (isGd x) = some g →
      t.shReg (oState d x) = setF (setF (s.shReg (oState d x)) F.PCH_STATE_STATE (t.oSt d x)) g 1) ∧
    (t.out d x).gate = .off ∧ (t.out d x).target = (s.out d x).target ∧
    (t.out d x).tallyE.trips = (s.out d x).tallyE.trips + 1 ∧ (t.out d x).tallyW.trips = (s.out d x).tallyW.trips + 1 ∧
    s.OneOut t d x
  (∀ s d x, s.Inv → s.livePc d x = true → conducting (s.oSt d x) = true →
    Completes (exec (.ilimReached d x) s) (fun t => tripped s t d x .oc)) ∧
  (∀ s d x, s.Inv → s.liveGd d x = true → conducting (s.oSt d x) = true →
    Completes (exec (.gdOcTrip d x) s) (fun t => tripped s t d x .oc)) ∧
  (∀ s d x, s.Inv → s.liveOut d x = true → conducting (s.oSt d x) = true → s.cTripEn d x = true →
    s.cFilt d x + 1 ≤ (s.out d x).ovr → Completes (exec (.softwareTrip d x) s) (fun t => tripped s t d x .trip)) ∧
  (∀ s d x, s.cTripEn d x = false ∨ (s.out d x).ovr ≤ s.cFilt d x → exec (.softwareTrip d x) s = .next s) ∧
  (∀ s d x mean vsrc vgs, s.Inv → s.liveOut d x = true → Completes (exec (.currentWindow d x mean vsrc vgs) s) (fun t =>
    let cur := if 24 ≤ x then R.GDR_CUR d (x - 24) else R.PCH_CUR d x
    let m : Int := if mean < -32768 then -32768 else if 32767 < mean then 32767 else mean
    t.shFld cur F.PCH_CUR_I_LAST = uext 16 m ∧ t.shFld cur F.PCH_CUR_I_MEAN = s.shFld cur F.PCH_CUR_I_MEAN ∧
    t.oSt d x = s.oSt d x ∧ t.retryLeft d x = s.retryLeft d x ∧
    (t.out d x).sat = ((s.out d x).sat || decide (m ≠ mean)) ∧
    (t.out d x).sumI = (s.out d x).sumI + m ∧ (t.out d x).nI = (s.out d x).nI + 1 ∧
    (t.out d x).peakI = max (s.out d x).peakI m.natAbs ∧
    (t.out d x).ovr = (if s.cTripEn d x = true ∧ conducting (s.oSt d x) = true ∧ (s.out d x).blank = false ∧
        (s.cTrip d x : Int) < m then (s.out d x).ovr + 1 else 0) ∧
    (x < 24 → t.oFlag d x .under = (s.oFlag d x .under && (s.oFlag d x .diagSusp ||
        (s.oSt d x == 1 && decide (m < (s.shFld (R.PCH_THRM d x) F.PCH_THRM_UC : Int)))))) ∧
    (24 ≤ x → vgs < 65536 → t.shFld (R.GDR_VS d (x - 24)) F.GDR_VS_V_SRC = uext 16 vsrc ∧
      t.shFld (R.GDR_VS d (x - 24)) F.GDR_VS_V_GS = vgs ∧
      t.oFlag d x .gateLow = (s.oSt d x == 1 && decide (vgs < 7000)) ∧
      t.shBit (R.GDR_DIE_STATUS d) F.GDR_DIE_STATUS_CP_LOW = (List.range 8).any (fun g => t.oFlag d (24 + g) .gateLow)) ∧
    s.RegsBut ([dieKey cur, dieKey (oState d x)] ++
      if 24 ≤ x then [dieKey (R.GDR_VS d (x - 24)), dieKey (R.GDR_DIE_STATUS d)] else []) t ∧
    (∀ i, i ≠ 32 * d + x → t.outs[i]? = s.outs[i]?) ∧ t = { s with regs := t.regs, outs := t.outs }) ∧
  (∀ s d x tj caseT, s.Inv → s.livePc d x = true → Completes (exec (.thermalReading d x tj caseT) s) (fun t =>
    let lim : Int := s.shFld (R.PCH_THRM d x) F.PCH_THRM_DT_LIMIT
    let hot := 2800 ≤ tj ∨ lim * 16 ≤ tj - caseT
    let cool := tj < 2560 ∧ tj - caseT < (lim - 15) * 16 ∧ ¬ hot
    let latch := s.oFlag d x .thermLatch
    t.shFld (R.PCH_TEMP d x) F.PCH_TEMP_TJ = uext 16 tj ∧ t.shFld (R.PCH_TEMP d x) F.PCH_TEMP_DT = uext 16 (tj - caseT) ∧
    t.shFld (R.PCH_DIE_STATUS d) F.PCH_DIE_STATUS_CASE_TEMP = uext 16 caseT ∧
    (hot → t.oFlag d x .thermLatch = true) ∧
    (hot ∧ latch = false ∧ conducting (s.oSt d x) = true → t.oSt d x = 4 ∧ (t.out d x).gate = .off ∧
      t.retryLeft d x = s.retryLeft d x ∧ (2800 ≤ tj → t.oFlag d x .thermAbs = true) ∧
      (lim * 16 ≤ tj - caseT → t.oFlag d x .thermDt = true)) ∧
    (hot ∧ (latch = true ∨ conducting (s.oSt d x) = false) → t.oSt d x = s.oSt d x ∧ t.retryLeft d x = s.retryLeft d x) ∧
    (cool → t.oFlag d x .thermLatch = false) ∧
    (cool ∧ latch = true ∧ s.oSt d x = 4 ∧ s.mayTurnOn d x = true →
      (1 ≤ s.retryLeft d x → t.retryLeft d x = s.retryLeft d x - 1 ∧ t.oSt d x = if (s.out d x).target = 2 then 2 else 1) ∧
      (s.retryLeft d x = 0 → t.oSt d x = 5)) ∧
    (¬ hot ∧ (latch = false ∨ ¬ cool) → t.oFlag d x .thermLatch = latch ∧ t.oSt d x = s.oSt d x) ∧
    s.RegsBut [dieKey (R.PCH_TEMP d x), dieKey (R.PCH_DIE_STATUS d), dieKey (oState d x),
      dieKey (R.SUPC_FEED_STAT (feedOf d x))] t ∧
    (∀ i, i ≠ 32 * d + x → t.outs[i]? = s.outs[i]?) ∧ t = { s with regs := t.regs, outs := t.outs }) ∧
  (∀ s d x, s.Inv → s.liveOut d x = true → Completes (exec (.wireModelUpdate d x) s) (fun t =>
    let p := s.cProfile d x
    let o := s.out d x
    let k1 := Frac.mk' (s.shFld (R.PCH_WP_K1 d p) F.PCH_WP_K1_K1) 65536
    let k2 := Frac.mk' (s.shFld (R.PCH_WP_K2 d p) F.PCH_WP_K2_K2) 65536
    let sq := Frac.mul (Frac.divN (Frac.ofInt ((o.means.map (fun m => m * m)).foldl (· + ·) 0)) 10)
      (if 24 ≤ x then ⟨1, 2500⟩ else if x < 8 then ⟨1, 160000⟩ else ⟨1, 4000000⟩)
    let tau1 := s.shFld (R.PCH_WP_TAU d p) F.PCH_WP_TAU_TAU1_MS_M1 + 1
    let tau2 := s.shFld (R.PCH_WP_TAU d p) F.PCH_WP_TAU_TAU2_DS_M1 + 1
    let trip := Frac.mk' (s.shFld (R.PCH_WP_LIM d p) F.PCH_WP_LIM_THETA_TRIP) 16
    let rst := Frac.mk' (s.shFld (R.PCH_WP_LIM d p) F.PCH_WP_LIM_THETA_RST) 16
    let theta := Frac.add (t.out d x).th1 (t.out d x).th2
    (t.out d x).th1 = Frac.add o.th1 (Frac.divN (Frac.sub (Frac.mul k1 sq) o.th1) (tau1 * 10)) ∧
    (t.out d x).th2 = Frac.add o.th2 (Frac.divN (Frac.sub (Frac.mul k2 sq) o.th2) (tau2 * 1000)) ∧
    (conducting (s.oSt d x) = true ∧ Frac.le trip theta = true →
      t.oSt d x = 5 ∧ t.oFlag d x .wire = true ∧ (t.out d x).gate = .off) ∧
    (conducting (s.oSt d x) = true ∧ Frac.le trip theta = false → t.oSt d x = s.oSt d x ∧ (t.out d x).gate = o.gate) ∧
    (s.oSt d x = 5 ∧ (s.oFlag d x .clrPend = false ∨ Frac.le theta rst = false) → t.oSt d x = 5) ∧
    (s.oSt d x = 5 ∧ s.oFlag d x .clrPend = true ∧ Frac.le theta rst = true →
      t.oSt d x ≠ 5 ∧ t.oFlag d x .clrPend = false ∧ t.oFlag d x .wire = false ∧ t.retryLeft d x = s.cRetry d x) ∧
    s.RegsBut [dieKey (if 24 ≤ x then R.GDR_WIRE d (x - 24) else R.PCH_WIRE d x), dieKey (oState d x),
      dieKey (R.SUPC_FEED_STAT (feedOf d x))] t ∧
    (∀ i, i ≠ 32 * d + x → t.outs[i]? = s.outs[i]?) ∧ t = { s with regs := t.regs, outs := t.outs }))))

/-- R247 to R249. R251, R252, R238, R237 and the PRECHARGE rows of Table 9.3. R253, R266, R91. -/
def Obligations.OutputTimersAndDiagnostics : Prop :=
  (∀ s d x energy, s.Inv → s.livePc d x = true → Completes (exec (.clampEventEnd d x energy) s) (fun t =>
    t.shFld (R.PCH_CLAMP d x) F.PCH_CLAMP_E_LAST = min energy 65535 ∧
    t.shFld (R.PCH_CLAMP d x) F.PCH_CLAMP_EVENTS = min (s.shFld (R.PCH_CLAMP d x) F.PCH_CLAMP_EVENTS + 1) 65535 ∧
    (t.out d x).clamping = false ∧ t.oSt d x = s.oSt d x ∧
    (t.out d x).tallyE.clamp = (s.out d x).tallyE.clamp + energy ∧
    (t.out d x).tallyW.clamp = (s.out d x).tallyW.clamp + energy ∧
    ((s.out d x).clampTj ≤ 1680 → t.oFlag d x .clampRep = decide (10 * (if x < 8 then 500 else 100) <
      (((s.out d x).clampHist.filter (fun h => decide (s.now < h.1 + 10000000))).map Prod.snd).foldl (· + ·) 0 + energy)) ∧
    s.RegsBut [dieKey (R.PCH_CLAMP d x), dieKey (oState d x)] t ∧
    (∀ i, i ≠ 32 * d + x → t.outs[i]? = s.outs[i]?) ∧ t = { s with regs := t.regs, outs := t.outs })) ∧
  (∀ s d x (energy : Nat), s.Inv → s.livePc d x = true → (s.out d x).clamping = true →
    (let rating : Int := if x < 8 then 5000 else 1000
     let tj := (s.out d x).clampTj
     if tj ≤ 1680 then rating < energy else rating * (2800 - tj) < energy * 1120) →
    Completes (exec (.clampOver d x energy) s) (fun t => t.oFlag d x .clampOver = true ∧ t.oSt d x = 5 ∧
      (s.oSt d x ≠ 5 → (t.out d x).gate = .off) ∧ (t.out d x).clamping = true ∧ s.OneOut t d x)) ∧
  (∀ s d x, s.Inv → s.livePc d x = true → (s.out d x).clamping = true → s.shBit (R.PCH_CFG d x) F.PCH_CFG_CLAMP = true →
    Completes (exec (.freewheelMissing d x) s) (fun t => t.oFlag d x .fwMissing = true ∧ t.oSt d x = 5 ∧
      (s.oSt d x ≠ 5 → (t.out d x).gate = .off) ∧ (t.out d x).clamping = true ∧ s.OneOut t d x)) ∧
  ((∀ s d x, s.Inv → s.liveOut d x = true → s.oSt d x = 3 → Completes (exec (.retryDelayExpiry d x) s) (fun t =>
    s.OneOut t d x ∧
    (s.mayTurnOn d x = false → t.oSt d x = 3 ∧ t.retryLeft d x = s.retryLeft d x) ∧
    (s.mayTurnOn d x = true ∧ s.oFlag d x .thermLatch = true → t.oSt d x = 4 ∧ t.retryLeft d x = s.retryLeft d x) ∧
    (s.mayTurnOn d x = true ∧ s.oFlag d x .thermLatch = false → t.retryLeft d x = s.retryLeft d x - 1 ∧
      t.oSt d x = s.onState d x ∧ (t.out d x).blank = (s.cBlank d x != 0)))) ∧
  (∀ s d x, s.Inv → s.liveOut d x = true → (s.oSt d x = 1 ∨ s.oSt d x = 2) →
    Completes (exec (.retryReloadTimer d x) s) (fun t => t.retryLeft d x = s.cRetry d x ∧ t.oSt d x = s.oSt d x ∧
      s.OnlyRegs [dieKey (oState d x)] t)) ∧
  (∀ s d x, s.Inv → s.liveOut d x = true → Completes (exec (.blankEnd d x) s) (fun t =>
    t = { s with outs := t.outs } ∧ t.out d x = { s.out d x with blank := false } ∧
    ∀ i, i ≠ 32 * d + x → t.outs[i]? = s.outs[i]?)) ∧
  (∀ s d x, s.Inv → s.livePc d x = true → s.oSt d x = 2 → Completes (exec (.pcPwmPeriodStart d x) s) (fun t =>
    let per := s.shFld (R.PCH_PWM d x) F.PCH_PWM_PER
    let duty := s.shFld (R.PCH_DUTY d x) (if (s.out d x).fallback then F.PCH_DUTY_FALLBACK else F.PCH_DUTY_DUTY)
    let slew := [5, 10, 20, 20].getD (s.shFld (R.PCH_CFG d x) F.PCH_CFG_SLEW) 0
    (t.out d x).gate = (if per = 0 ∨ per * duty < 2 * slew * 1024 then .off
      else if per * (1024 - duty) < 2 * slew * 1024 then .on else .pulse (per * duty / 1024) per) ∧
    t = { s with outs := t.outs } ∧ ∀ i, i ≠ 32 * d + x → t.outs[i]? = s.outs[i]?)) ∧
  (∀ s d x vsrc drain, s.Inv → s.liveGd d x = true → s.oSt d x = 7 → (vsrc - drain).natAbs ≤ 150 →
    Completes (exec (.prechargeComplete d x vsrc drain) s) (fun t => t.oSt d x = 1 ∧ (t.out d x).gate = .on ∧
      t.shFld (R.GDR_VS d (x - 24)) F.GDR_VS_V_SRC = uext 16 vsrc ∧
      s.RegsBut [dieKey (oState d x), dieKey (R.GDR_VS d (x - 24))] t ∧
      (∀ i, i ≠ 32 * d + x → t.outs[i]? = s.outs[i]?) ∧ t = { s with regs := t.regs, outs := t.outs })) ∧
  (∀ s d x, s.Inv → s.liveGd d x = true → s.oSt d x = 7 → Completes (exec (.prechargeTimeout d x) s) (fun t =>
    t.oSt d x = 5 ∧ t.oFlag d x .prechgTo = true ∧ (t.out d x).gate = .off ∧ s.OneOut t d x)) ∧
  (let flagged := fun (s t : State) (d x : Nat) (flag : OFlag) (b : Bool) =>
    t.oFlag d x flag = b ∧ t.oSt d x = s.oSt d x ∧ s.OnlyRegs [dieKey (oState d x)] t ∧
    ∀ g, flag.fld (isGd x) = some g → t.shReg (oState d x) = setF (s.shReg (oState d x)) g (b2n b)
  (∀ s d x, s.Inv → s.livePc d x = true → s.oFlag d x .diagSusp = false → s.oSt d x = 1 → (s.out d x).blank = false →
    s.shFld (R.PCH_THRM d x) F.PCH_THRM_UC ≠ 0 →
    sext 16 (s.shFld (R.PCH_CUR d x) F.PCH_CUR_I_LAST) < (s.shFld (R.PCH_THRM d x) F.PCH_THRM_UC : Int) →
    Completes (exec (.undercurrent d x) s) (fun t => flagged s t d x .under true)) ∧
  (∀ s d x present, s.Inv → s.livePc d x = true → s.oFlag d x .diagSusp = false →
    Completes (exec (.openOff d x present) s) (fun t => flagged s t d x .openOff
      (present && s.oSt d x == 0 && s.shBit (R.PCH_CFG d x) F.PCH_CFG_OL_EN))) ∧
  (∀ s d x present, s.Inv → s.livePc d x = true → s.oFlag d x .diagSusp = false →
    Completes (exec (.shortFeed d x present) s) (fun t => flagged s t d x .shortFeed (present && s.oSt d x == 0))) ∧
  (∀ s d x present, s.Inv → s.liveGd d x = true → s.oFlag d x .diagSusp = false →
    Completes (exec (.senseOpen d x present) s) (fun t => flagged s t d x .senseOpen present)) ∧
  (∀ s d x present, s.oFlag d x .diagSusp = true → exec (.openOff d x present) s = .next s ∧
    exec (.shortFeed d x present) s = .next s ∧ exec (.senseOpen d x present) s = .next s) ∧
  (∀ s d, s.Inv → d < 2 → (s.die (powerDie d)).up = true → Completes (exec (.conductionEstimate d) s) (fun t =>
    let cs := (s.conduction d :: (s.pw d).cond).take 1000
    (t.pw d).cond = cs ∧
    t.shBit (R.PCH_DIE_STATUS d) F.PCH_DIE_STATUS_CONDUCTION_OVER = Frac.lt (Frac.ofInt 20) (Frac.divN (Frac.sum cs) 1000) ∧
    s.RegsBut [dieKey (R.PCH_DIE_POWER d), dieKey (R.PCH_DIE_STATUS d)] t ∧
    t = { s with regs := t.regs, pw0 := t.pw0, pw1 := t.pw1 } ∧ t.pw (1 - d) = s.pw (1 - d)))))

/-- R266, R267 and Table 9.1. R268, R279. R269 to R273. -/
def Obligations.FeedSagCutAndRestore : Prop :=
  (∀ s f v, s.Inv → s.liveFeed f = true → v < feedLevel 90 180 360 (s.feedClass f) →
    Completes (exec (.feedWarning f v) s) (fun t => s.OneFeed t f ∧ s.Volted t f v ∧ t.outs = s.outs ∧ t.feeds = s.feeds ∧
      t.feedBit f F.SUPC_FEED_STAT_BELOW_WARN = true ∧ t.feedBit f F.SUPC_FEED_STAT_DIAG_SUSPENDED = true ∧
      ∀ x ∈ feedOuts f, t.oFlag (feedDie f) x .diagSusp = true ∧ t.oSt (feedDie f) x = s.oSt (feedDie f) x)) ∧
  (∀ s f v, s.Inv → s.liveFeed f = true → feedLevel 95 190 380 (s.feedClass f) < v →
    Completes (exec (.feedWarningRelease f v) s) (fun t => s.Volted t f v ∧ s.OnlyRegs (feedKeys f) t ∧
      t.feedBit f F.SUPC_FEED_STAT_BELOW_WARN = false)) ∧
  (∀ s f, s.Inv → s.liveFeed f = true → s.feedBit f F.SUPC_FEED_STAT_BELOW_WARN = false →
    Completes (exec (.diagResume f) s) (fun t => s.OneFeed t f ∧ t.outs = s.outs ∧ t.feeds = s.feeds ∧
      t.feedBit f F.SUPC_FEED_STAT_DIAG_SUSPENDED = false ∧
      ∀ x ∈ feedOuts f, t.oFlag (feedDie f) x .diagSusp = false ∧ t.oSt (feedDie f) x = s.oSt (feedDie f) x)) ∧
  (∀ s f, s.feedBit f F.SUPC_FEED_STAT_BELOW_WARN = true → exec (.diagResume f) s = .next s) ∧
  (∀ s f v, s.Inv → s.liveFeed f = true → v < feedLevel 30 60 180 (s.feedClass f) →
    s.feedBit f F.SUPC_FEED_STAT_HOLDING = false → s.feedBit f F.SUPC_FEED_STAT_CUT = false →
    Completes (exec (.holdFalling f v) s) (fun t => s.OneFeed t f ∧ s.Volted t f v ∧ t.outs = s.outs ∧
      t.feedBit f F.SUPC_FEED_STAT_HOLDING = true ∧ t.feedBit f F.SUPC_FEED_STAT_HOLD_SEEN = true ∧
      t.dieFld (R.SUPC_FEED_DIP f) F.SUPC_FEED_DIP_HOLDS =
        min (s.dieFld (R.SUPC_FEED_DIP f) F.SUPC_FEED_DIP_HOLDS + 1) 65535 ∧
      t.feedRt f = { s.feedRt f with
        crankMs := s.shFld (R.SUPC_FEED_CFG f) F.SUPC_FEED_CFG_T_CRANK_MAX, holdAt := s.now })) ∧
  (∀ s f v, s.Inv → s.liveFeed f = true → feedLevel 30 60 180 (s.feedClass f) < v →
    s.feedBit f F.SUPC_FEED_STAT_HOLDING = true →
    Completes (exec (.holdRising f v) s) (fun t => s.OneFeed t f ∧ s.Volted t f v ∧
      t.feedBit f F.SUPC_FEED_STAT_HOLDING = false ∧
      t.dieFld (R.SUPC_FEED_DIP f) F.SUPC_FEED_DIP_LAST_HOLD = min ((s.now - (s.feedRt f).holdAt) / 100) 65535 ∧
      ∀ x ∈ feedOuts f, s.oSt (feedDie f) x = 0 → (s.out (feedDie f) x).target ≠ 0 →
        s.oFlag (feedDie f) x .thermLatch = false → s.dipInhibit (feedDie f) x = false → s.dieDrives (feedDie f) = true →
        s.feedBit f F.SUPC_FEED_STAT_CUT = false → t.oSt (feedDie f) x = s.onState (feedDie f) x)) ∧
  (let cut := fun (s t : State) (f : Nat) =>
    s.OneFeed t f ∧ t.feedBit f F.SUPC_FEED_STAT_CUT = true ∧ t.feedBit f F.SUPC_FEED_STAT_CUT_SEEN = true ∧
    t.feedBit f F.SUPC_FEED_STAT_HOLDING = false ∧ (t.feedRt f).slots = [] ∧
    ∀ x ∈ feedOuts f,
      (s.oSt (feedDie f) x = 5 → t.oSt (feedDie f) x = 5 ∧ t.out (feedDie f) x = s.out (feedDie f) x) ∧
      (s.oSt (feedDie f) x ≠ 5 → t.oSt (feedDie f) x = 6) ∧
      (s.oSt (feedDie f) x ≠ 5 → s.oSt (feedDie f) x ≠ 6 → (t.out (feedDie f) x).gate = .off ∧
        (t.out (feedDie f) x).preDip = s.oSt (feedDie f) x ∧
        (t.out (feedDie f) x).target = (s.out (feedDie f) x).target) ∧
      t.retryLeft (feedDie f) x = s.retryLeft (feedDie f) x
  (∀ s f, s.Inv → s.liveFeed f = true → s.feedBit f F.SUPC_FEED_STAT_HOLDING = true →
    s.feedBit f F.SUPC_FEED_STAT_CUT = false → Completes (exec (.crankWindowExpiry f) s) (fun t => cut s t f)) ∧
  (∀ s f v, s.Inv → s.liveFeed f = true → v < feedLevel 20 40 120 (s.feedClass f) →
    s.feedBit f F.SUPC_FEED_STAT_CUT = false →
    Completes (exec (.cutCrossing f v) s) (fun t => cut s t f ∧ s.Volted t f v)) ∧
  (∀ s f v, s.Inv → s.liveFeed f = true → v < -250 → s.feedBit f F.SUPC_FEED_STAT_CUT = false →
    Completes (exec (.reverseSet f v) s) (fun t => cut s t f ∧ s.Volted t f v ∧
      t.feedBit f F.SUPC_FEED_STAT_REVERSE = true)) ∧
  ((∀ s f v, s.Inv → s.liveFeed f = true → feedLevel 50 100 240 (s.feedClass f) < v →
    s.feedBit f F.SUPC_FEED_STAT_CUT = true →
    Completes (exec (.feedRecovery f v) s) (fun t => s.OneFeed t f ∧ s.Volted t f v ∧
      t.feedBit f F.SUPC_FEED_STAT_CUT = false ∧
      (let inDip := (feedOuts f).filter (fun x => s.oSt (feedDie f) x == 6)
       (s.shFld (R.SUPC_FEED_CFG f) F.SUPC_FEED_CFG_RESTORE_STEP = 0 →
          (t.feedRt f).slots = [] ∧ ∀ x ∈ inDip, t.oSt (feedDie f) x ≠ 6) ∧
       (s.shFld (R.SUPC_FEED_CFG f) F.SUPC_FEED_CFG_RESTORE_STEP ≠ 0 → (t.feedRt f).slots = inDip.tail ∧
          (∀ x ∈ inDip.head?, t.oSt (feedDie f) x ≠ 6) ∧ ∀ x ∈ inDip.tail, t.oSt (feedDie f) x = 6)))) ∧
  (∀ s f x xs, s.Inv → s.liveFeed f = true → (s.feedRt f).slots = x :: xs → x ∈ feedOuts f → s.oSt (feedDie f) x = 6 →
    Completes (exec (.restoreSlot f) s) (fun t => s.OneFeed t f ∧ (t.feedRt f).slots = xs ∧
      (let d := feedDie f
       let o := s.out d x
       (s.cRestore d x = false → t.oSt d x = 0 ∧ t.dipInhibit d x = true ∧ t.retryLeft d x = s.retryLeft d x) ∧
       (s.cRestore d x = true ∧ o.target = 0 → t.oSt d x = 0 ∧ t.retryLeft d x = s.cRetry d x) ∧
       (s.cRestore d x = true ∧ o.target ≠ 0 ∧ o.preDip = 3 → t.oSt d x = 3 ∧ t.retryLeft d x = s.retryLeft d x) ∧
       (s.cRestore d x = true ∧ o.target ≠ 0 ∧ o.preDip = 4 ∧ s.oFlag d x .thermLatch = true →
          t.oSt d x = 4 ∧ t.retryLeft d x = s.retryLeft d x) ∧
       (s.cRestore d x = true ∧ o.target ≠ 0 ∧ o.preDip ≠ 3 ∧ s.oFlag d x .thermLatch = false →
          (s.mayTurnOn d x = true ∧ s.dipInhibit d x = false →
            t.oSt d x = s.onState d x ∧ (t.out d x).blank = (s.cBlank d x != 0)) ∧
          (s.mayTurnOn d x = false ∨ s.dipInhibit d x = true → t.oSt d x = 0) ∧
          t.retryLeft d x = if o.preDip = 4 then s.cRetry d x else s.retryLeft d x) ∧
       ∀ y ∈ feedOuts f, y ≠ x → t.oSt d y = s.oSt d y ∧ t.out d y = s.out d y))) ∧
  (∀ s f v, s.Inv → s.liveFeed f = true → v < feedLevel 50 100 240 (s.feedClass f) →
    Completes (exec (.recoveryLost f v) s) (fun t => s.OneFeed t f ∧ s.Volted t f v ∧ t.outs = s.outs ∧
      t.feedRt f = { s.feedRt f with slots := [] }))))

/-- R277, R86, R79 and the FEED_HIGH, FEED_OV and REVERSE rows of Table 9.1. R259, R257. -/
def Obligations.FeedHighAndSafeLines : Prop :=
  let bitOnly := fun (s t : State) (f : Nat) (v : Int) (g : Fld) (b : Bool) =>
    s.Volted t f v ∧ t.feedBit f g = b ∧ s.OnlyRegs (feedKeys f) t
  let started := fun (s t : State) (d x : Nat) =>
    ((s.out d x).ldDefer = true → t.oSt d x = 0 ∧ (t.out d x).gate = .off ∧ (t.out d x).ldDefer = false) ∧
    ((s.out d x).ldDefer = false → t.oSt d x = s.oSt d x ∧ t.out d x = s.out d x)
  (∀ s f v, s.Inv → s.liveFeed f = true → feedLevel 160 320 520 (s.feedClass f) < v →
    Completes (exec (.feedHighSet f v) s) (fun t => bitOnly s t f v F.SUPC_FEED_STAT_FEED_HIGH true)) ∧
  (∀ s f v, s.Inv → s.liveFeed f = true → v < feedLevel 155 310 510 (s.feedClass f) →
    Completes (exec (.feedHighClear f v) s) (fun t => s.OneFeed t f ∧ s.Volted t f v ∧
      t.feedBit f F.SUPC_FEED_STAT_FEED_HIGH = false ∧ ∀ x ∈ feedOuts f, started s t (feedDie f) x)) ∧
  (∀ s d x, s.Inv → s.livePc d x = true → Completes (exec (.ldDeferTimeout d x) s) (fun t =>
    started s t d x ∧ s.OneOut t d x)) ∧
  (∀ s f v, s.Inv → s.liveFeed f = true → 30000 < v →
    Completes (exec (.feedOvSet f v) s) (fun t => bitOnly s t f v F.SUPC_FEED_STAT_FEED_OV true)) ∧
  (∀ s f v, s.Inv → s.liveFeed f = true → v < 29500 →
    Completes (exec (.feedOvClear f v) s) (fun t => bitOnly s t f v F.SUPC_FEED_STAT_FEED_OV false)) ∧
  (∀ s f v, s.Inv → s.liveFeed f = true → -250 < v →
    Completes (exec (.reverseClear f v) s) (fun t => bitOnly s t f v F.SUPC_FEED_STAT_REVERSE false)) ∧
  (∀ s f v k, s.Inv → s.liveFeed f = true → k < 3 → k ≠ s.feedClass f → feedLevel 90 180 360 k ≤ v →
    v ≤ feedLevel 160 320 520 k →
    Completes (exec (.feedClassMismatch f v) s) (fun t => bitOnly s t f v F.SUPC_FEED_STAT_FEED_CLASS_MISMATCH true)) ∧
  ((∀ s l d, s.Inv → d < 2 → (s.die (powerDie d)).up = true → s.forwards l = true →
    Completes (exec (.safeLineAssert l d) s) (fun t =>
      let lines := s.shFld (R.FCH_SAFE 0) F.FCH_SAFE_SL_DRIVE ||| s.shFld (R.FCH_SAFE 1) F.FCH_SAFE_SL_DRIVE |||
        s.shFld (R.FCH_SAFE 2) F.FCH_SAFE_SL_DRIVE
      t.shFld (R.PCH_SAFE d) F.PCH_SAFE_SL_STATE = lines ∧
      (lines ≠ 0 → t.shBit (R.PCH_DIE_STATUS d) F.PCH_DIE_STATUS_SAFE_LINE_SEEN = true) ∧
      (∀ x < 32, (s.cSafeLines d x &&& lines ≠ 0 → t.oSt d x = 5 ∧
          (s.oSt d x ≠ 5 → t.oFlag d x .safe = true ∧ (t.out d x).gate = .off)) ∧
        (s.cSafeLines d x &&& lines = 0 → t.oSt d x = s.oSt d x ∧ t.out d x = s.out d x)) ∧
      (∀ x < 32, t.out (1 - d) x = s.out (1 - d) x) ∧
      s.RegsBut ([R.PCH_SAFE d, R.PCH_DIE_STATUS d, R.SUPC_FEED_STAT (3 * d + 1), R.SUPC_FEED_STAT (3 * d + 2),
        R.SUPC_FEED_STAT (3 * d + 3)].map dieKey ++ (List.range 32).map (fun x => dieKey (oState d x))) t ∧
      t = { s with regs := t.regs, outs := t.outs })) ∧
  (∀ s d u, s.Inv → d < 2 → (s.die (powerDie d)).up = true → s.urgents.find? (fun v => v.die == powerDie d) = some u →
    Completes (exec (.urgentCommand (powerDie d)) s) (fun t => t.urgents = s.urgents.erase u ∧
      (u.act = 1 → ((s.die (powerDie d)).highEpoch).getD 0 ≤ u.epoch → ∀ x < 32, u.mask.testBit x = true →
        (t.out d x).target = 0 ∧ t.oFlag d x .urgOff = true ∧ (t.out d x).urgSeal = some u.sealCyc ∧
        (conducting (s.oSt d x) = true → t.oSt d x = 0 ∧ (t.out d x).gate = .off)) ∧
      (u.epoch < ((s.die (powerDie d)).highEpoch).getD 0 → t.outs = s.outs) ∧
      (∀ x < 32, u.mask.testBit x = false → t.out d x = s.out d x ∧ t.oSt d x = s.oSt d x) ∧
      t = { s with regs := t.regs, outs := t.outs, urgents := t.urgents, led := t.led, grants := t.grants,
                   quiesces := t.quiesces })))

/-- Table 10.8: the configuration commands of the field channels. Table 10.8: the queries of the field channels. -/
def Obligations.FieldCommandsAndQueries : Prop :=
  (∀ s r, Ready specFcSet s r → Completes (exec (.fcSet r) s) (fun t => s.Stages t ∧ ∀ n < 256, (r.u 0 32).testBit n = true →
    t.Carries 8 (fcDie n) s.led.nextLsn (R.FCH_TGT (fcDie n) (fcIx n), BitVec.ofNat 32 (r.u8 32 + 4 * r.u8 33)) ∧
    t.Carries 8 (fcDie n) s.led.nextLsn (R.FCH_SWPH (fcDie n) (fcIx n), r.w 34) ∧
    (r.u8 32 = 2 → t.Carries 8 (fcDie n) s.led.nextLsn
      (s.cfgWith r (R.FCH_DUTY (fcDie n) (fcIx n)) F.FCH_DUTY_DUTY (r.u16 38))))) ∧
  (∀ s r, Ready specFcConfig s r → Completes (exec (.fcConfig r) s) (fun t => s.Stages t ∧
    ∀ c ∈ [(R.FCH_CFG (fcDie (r.u16 0)) (fcIx (r.u16 0)), r.w 4), (R.FCH_IN (fcDie (r.u16 0)) (fcIx (r.u16 0)), r.w 8),
        (R.FCH_AUX (fcDie (r.u16 0)) (fcIx (r.u16 0)), r.w 12), (R.FCH_PWM (fcDie (r.u16 0)) (fcIx (r.u16 0)), r.w 16),
        (R.FCH_DUTY (fcDie (r.u16 0)) (fcIx (r.u16 0)), r.w 20)],
      t.Carries 8 (fcDie (r.u16 0)) s.led.nextLsn c)) ∧
  (∀ s r, Ready specFcGroupConfig s r → Completes (exec (.fcGroupConfig r) s) (fun t => s.Stages t ∧
    let d := if r.u8 0 < 7 then 0 else if r.u8 0 < 14 then 1 else 2
    t.Carries 8 d s.led.nextLsn (R.FCH_GRP_CFG d (r.u8 0 - 7 * d), r.w 4))) ∧
  (∀ s r, Ready specFcDieConfig s r → Completes (exec (.fcDieConfig r) s) (fun t => s.Stages t ∧
    (∀ d < 2, (r.u8 0).testBit d = true → t.Carries 8 d s.led.nextLsn (R.FCH_DIE_CFG d, r.w 4)) ∧
    ((r.u8 0).testBit 2 = true → t.Carries 8 2 s.led.nextLsn (R.FCH_DIE_CFG 2, r.w 4 &&& 0x7FF)))) ∧
  (∀ s r, Ready specFcClear s r → Completes (exec (.fcClear r) s) (fun t => s.Stages t ∧ ∀ n < 256,
    (r.u 0 32).testBit n = true → t.Carries 8 (fcDie n) s.led.nextLsn (R.FCH_TGT (fcDie n) (fcIx n),
      BitVec.ofNat 32 ((if r.u8 32 = 1 then 0
        else getF (s.shadow (s.holderOr r.lane) (R.FCH_TGT (fcDie n) (fcIx n))) F.FCH_TGT_TARGET) + 8)))) ∧
  (∀ s r, Ready specFcSafeState s r → r.u8 32 = 1 → Completes (exec (.fcSafeState r) s) (fun t => s.FarBut [] t ∧
    t = { s with regs := t.regs, mem := t.mem, irqs := t.irqs, outbox := t.outbox, led := t.led, sessions := t.sessions,
                 scs := t.scs, commits := t.commits, nums := t.nums, urgents := t.urgents, grants := t.grants,
                 quiesces := t.quiesces } ∧
    (∀ u ∈ s.urgents, u ∈ t.urgents) ∧
    ∀ n < 256, (r.u 0 32).testBit n = true →
      isOutMode (getF (s.shadow (s.holderOr r.lane) (R.FCH_CFG (fcDie n) (fcIx n))) F.FCH_CFG_MODE) = true →
      t.Carries 8 (fcDie n) s.led.nextLsn (R.FCH_TGT (fcDie n) (fcIx n), 0) ∧
      ∃ u ∈ t.urgents, u.die = fieldDie (fcDie n) ∧ u.mask.testBit (fcIx n) = true ∧ u.act = 1 ∧
        u.lsn = s.led.nextLsn ∧ u.epoch = (s.reg (s.holderOr .E) R.FERRY_EPOCH).toNat ∧ u.sealCyc = s.sealedCycle)) ∧
  ((∀ s r, Ready specFcStatus s r → Completes (exec (.fcStatus r) s) (fun t => s.Told r t (fun d =>
    d.length = 16 * r.u8 2 ∧ ∀ i < r.u8 2, ∀ k < 4, wordAt d (16 * i + 4 * k) =
      s.reg (s.server r) (R.FCH_MIR (fcDie (r.u16 0 + i)) (fcIx (r.u16 0 + i)) k)))) ∧
  (∀ s r, Ready specFcInputs s r → Completes (exec (.fcInputs r) s) (fun t => s.Told r t (fun d =>
    d.length = 64 ∧ ∀ n < 256,
      (fieldAt d 0 32).testBit n = s.bit (s.server r) (R.FCH_MIR (fcDie n) (fcIx n) 0) F.FCH_STATE_LEVEL ∧
      (fieldAt d 32 32).testBit n = s.bit (s.server r) (R.FCH_MIR (fcDie n) (fcIx n) 0) F.FCH_STATE_VALID))) ∧
  (∀ s r, Ready specFcDieStatus s r → Completes (exec (.fcDieStatus r) s) (fun t => s.Told r t (fun d =>
    let k := if r.u8 0 = 1 then 0 else if r.u8 0 = 2 then 1 else 2
    d.length = 16 ∧ wordAt d 0 = s.shReg (R.FCH_DIE_STATUS k) ∧ wordAt d 4 = s.shReg (R.FCH_DIE_POWER k) ∧
    wordAt d 8 = s.shReg (R.FCH_SAFE k) ∧ wordAt d 12 = s.shReg (R.FCH_VSUP k)))))

/-- R295 to R301, R308, R313, R316. R310 to R312. -/
def Obligations.FieldInputsAndCaptures : Prop :=
  (∀ s d m active ovr hot val, s.Inv → s.liveFc d m = true →
    ((s.fMode d m = 1 ∨ s.fMode d m = 2) ∧ s.fcfg d m F.FCH_CFG_PULSED = 0 ∨ s.fMode d m = 7) →
    Completes (exec (.fieldInputSample d m active ovr hot val) s) (fun t =>
      let level := active != (s.fcfg d m F.FCH_CFG_INVERT == 1)
      t.shReg (R.FCH_VAL d m) = val ∧ t.fBit d m F.FCH_STATE_OVERLOAD = ovr ∧ t.fBit d m F.FCH_STATE_OVERTEMP = hot ∧
      t.fBit d m F.FCH_STATE_LEVEL = level ∧ t.fBit d m F.FCH_STATE_VALID = t.validAs d m ∧
      t.shReg (R.FCH_CNT d m) = (if level = s.fBit d m F.FCH_STATE_LEVEL then s.shReg (R.FCH_CNT d m)
        else s.shReg (R.FCH_CNT d m) + 1) ∧
      (d < 2 → s.fMode d m ≠ 7 → s.fcfg d m F.FCH_CFG_SAFE_EN = 1 →
        (if s.fcfg d m F.FCH_CFG_SAFE_POL = 0 then level = true else level = false ∨ t.fBit d m F.FCH_STATE_VALID = false) →
        (t.shFld (R.FCH_SAFE d) F.FCH_SAFE_SL_DRIVE).testBit (s.fcfg d m F.FCH_CFG_SAFE_LINE) = true) ∧
      t.fSt d m = s.fSt d m ∧ s.OneFc t d m [R.FCH_VAL d m, R.FCH_STATE d m, R.FCH_CNT d m, R.FCH_SAFE d])) ∧
  (∀ s d k acts vals, s.Inv → d < 3 → k < (if d = 2 then 2 else 7) → (s.die (fieldDie d)).up = true →
    Completes (exec (.wettingPulse d k acts vals) s) (fun t =>
      (∀ i < 16,
        let m := 16 * k + i
        ((s.fMode d m = 1 ∨ s.fMode d m = 2) ∧ s.fcfg d m F.FCH_CFG_PULSED = 1 →
          t.shReg (R.FCH_VAL d m) = (vals[i]?).getD 0 ∧ (t.fc d m).lastSample = some (acts.testBit i) ∧
          t.fBit d m F.FCH_STATE_LEVEL = (if (s.fc d m).lastSample = some (acts.testBit i)
            then acts.testBit i != (s.fcfg d m F.FCH_CFG_INVERT == 1) else s.fBit d m F.FCH_STATE_LEVEL)) ∧
        (¬ ((s.fMode d m = 1 ∨ s.fMode d m = 2) ∧ s.fcfg d m F.FCH_CFG_PULSED = 1) →
          t.fc d m = s.fc d m ∧ t.shReg (R.FCH_STATE d m) = s.shReg (R.FCH_STATE d m))) ∧
      (∀ i, ¬ (112 * d + 16 * k ≤ i ∧ i < 112 * d + 16 * k + 16) → t.fcs[i]? = s.fcs[i]?) ∧
      s.RegsBut (dieKey (R.FCH_SAFE d) :: ((List.range 16).map (fun i => [dieKey (R.FCH_VAL d (16 * k + i)),
        dieKey (R.FCH_STATE d (16 * k + i)), dieKey (R.FCH_CNT d (16 * k + i))])).flatten) t ∧
      t = { s with regs := t.regs, fcs := t.fcs })) ∧
  (∀ s d m raw hot, s.Inv → s.liveFc d m = true → (s.fMode d m = 5 ∨ s.fMode d m = 6) →
    Completes (exec (.ainConversion d m raw hot) s) (fun t =>
      let conv := (min raw 16383 :: (s.fc d m).conv).take (2 ^ s.shFld (R.FCH_AUX d m) F.FCH_AUX_AVG)
      (t.fc d m).conv = conv ∧
      ((∀ c ∈ (s.fc d m).conv, c ≤ 16383) → t.shFld (R.FCH_VAL d m) ⟨13, 0⟩ = conv.foldl (· + ·) 0 / conv.length) ∧
      t.fBit d m F.FCH_STATE_OVERLOAD = (s.fMode d m == 5 && decide (16383 < raw)) ∧
      t.fBit d m F.FCH_STATE_OVERTEMP = hot ∧ t.fBit d m F.FCH_STATE_VALID = t.validAs d m ∧ t.fSt d m = s.fSt d m ∧
      s.OneFc t d m [R.FCH_VAL d m, R.FCH_STATE d m, R.FCH_SAFE d])) ∧
  (∀ s d m present, s.Inv → s.liveFc d m = true → s.fBit d m F.FCH_STATE_DIAG_SUSPENDED = false →
    (s.fMode d m = 6 ∨ (s.fcfg d m F.FCH_CFG_OW_EN = 1 ∧
      (s.fMode d m = 1 ∨ s.fMode d m = 2 ∨ s.fMode d m = 7 ∨ isOutMode (s.fMode d m) = true ∧ s.fSt d m = 0))) →
    Completes (exec (.fcOpenWire d m present) s) (fun t =>
      t.fBit d m F.FCH_STATE_OPEN_WIRE = present ∧ t.fSt d m = s.fSt d m ∧
      (t.fBit d m F.FCH_STATE_VALID = true → present = false) ∧ s.OneFc t d m [R.FCH_STATE d m, R.FCH_SAFE d])) ∧
  (∀ s d m present, s.fBit d m F.FCH_STATE_DIAG_SUSPENDED = true → exec (.fcOpenWire d m present) s = .next s) ∧
  ((∀ s d m rising t', s.Inv → s.liveFc d m = true → s.fMode d m = 7 →
    Completes (exec (.captureEdge d m rising t') s) (fun t =>
      let kind := s.shFld (R.FCH_AUX d m) F.FCH_AUX_CAP_KIND
      let edge := s.shFld (R.FCH_AUX d m) F.FCH_AUX_EDGE
      let sel := if rising then edge.testBit 0 else edge.testBit 1
      let e := m - m % 2
      (∀ r0 ∈ (s.fc d m).lastRise, kind = 0 ∧ rising = true →
        t.shReg (R.FCH_CAP d m) = BitVec.ofNat 32 (min (t' - r0) 0xFFFFFFFF) ∧
        (∀ f ∈ (s.fc d m).lastFall, r0 ≤ f → t.shReg (R.FCH_CAP2 d m) = BitVec.ofNat 32 (min (f - r0) 0xFFFFFFFF))) ∧
      (kind = 0 → if rising then (t.fc d m).lastRise = some t' else (t.fc d m).lastFall = some t') ∧
      (kind = 1 → t.shReg (R.FCH_CNT d m) = s.shReg (R.FCH_CNT d m) + (if sel then 1 else 0)) ∧
      (kind = 2 → t.shReg (R.FCH_CNT d (e + 1)) = 0 ∧ (t.fc d m).capLevel = rising ∧
        t.shReg (R.FCH_CNT d e) = s.shReg (R.FCH_CNT d e) + BitVec.ofInt 32 (if m % 2 = 0
          then quadStep (s.fc d e).capLevel (s.fc d (e + 1)).capLevel rising (s.fc d (e + 1)).capLevel
          else quadStep (s.fc d e).capLevel (s.fc d (e + 1)).capLevel (s.fc d e).capLevel rising)) ∧
      (kind = 3 → t.stamps = if sel then (s.stamps ++ [(112 * d + m, t')]).drop (s.stamps.length + 1 - 64) else s.stamps) ∧
      (kind ≠ 3 → t.stamps = s.stamps) ∧
      s.RegsBut [dieKey (R.FCH_CAP d m), dieKey (R.FCH_CAP2 d m), dieKey (R.FCH_CNT d e), dieKey (R.FCH_CNT d (e + 1))] t ∧
      (∀ i, i ≠ 112 * d + m → t.fcs[i]? = s.fcs[i]?) ∧ t = { s with regs := t.regs, fcs := t.fcs, stamps := t.stamps })) ∧
  (∀ s d m rising t' plateau, s.Inv → s.liveFc d m = true → s.fMode d m = 10 →
    Completes (exec (.pilotEdge d m rising t' plateau) s) (fun t =>
      (∀ o ∈ (if rising then (s.fc d m).lastFall else (s.fc d m).lastRise),
        (o + 4000 ≤ t' → t.shFld (R.FCH_VAL d m) (if rising then ⟨31, 16⟩ else ⟨15, 0⟩) = uext 16 plateau ∧
          t.shFld (R.FCH_VAL d m) (if rising then ⟨15, 0⟩ else ⟨31, 16⟩) =
            s.shFld (R.FCH_VAL d m) (if rising then ⟨15, 0⟩ else ⟨31, 16⟩)) ∧
        (t' < o + 4000 → t.shReg (R.FCH_VAL d m) = s.shReg (R.FCH_VAL d m))) ∧
      (∀ r0 ∈ (s.fc d m).lastRise, rising = true → t.shReg (R.FCH_CAP d m) = BitVec.ofNat 32 (min (t' - r0) 0xFFFFFFFF)) ∧
      t.shFld (R.FCH_CAP2 d m) ⟨19, 19⟩ = 1 ∧
      (if rising then (t.fc d m).lastRise = some t' else (t.fc d m).lastFall = some t') ∧
      s.OneFc t d m [R.FCH_VAL d m, R.FCH_CAP d m, R.FCH_CAP2 d m])) ∧
  (∀ s d m dc, s.Inv → s.liveFc d m = true → s.fMode d m = 10 → Completes (exec (.pilotStateChange d m dc) s) (fun t =>
    let osc := s.shFld (R.FCH_CAP2 d m) ⟨19, 19⟩ = 1
    let pos := sext 16 (t.shFld (R.FCH_VAL d m) ⟨15, 0⟩)
    let neg := sext 16 (t.shFld (R.FCH_VAL d m) ⟨31, 16⟩)
    (osc → t.shReg (R.FCH_VAL d m) = s.shReg (R.FCH_VAL d m)) ∧
    (¬ osc → t.shFld (R.FCH_VAL d m) ⟨15, 0⟩ = uext 16 dc ∧ t.shFld (R.FCH_VAL d m) ⟨31, 16⟩ = uext 16 dc) ∧
    t.shFld (R.FCH_CAP2 d m) ⟨18, 16⟩ = (if 1100 ≤ pos ∧ pos ≤ 1300 then 1 else if 800 ≤ pos ∧ pos ≤ 1000 then 2
      else if 500 ≤ pos ∧ pos ≤ 700 then 3 else if 200 ≤ pos ∧ pos ≤ 400 then 4
      else if ¬ osc ∧ -100 ≤ pos ∧ pos ≤ 100 then 5 else if ¬ osc ∧ -1300 ≤ neg ∧ neg ≤ -1100 then 6 else 0) ∧
    t.fBit d m F.FCH_STATE_OVERLOAD = decide (1500 < pos ∨ neg < -1500) ∧
    t.fBit d m F.FCH_STATE_VALID = t.validAs d m ∧
    s.OneFc t d m [R.FCH_VAL d m, R.FCH_CAP2 d m, R.FCH_STATE d m, R.FCH_SAFE d])) ∧
  (∀ s d m dc, s.Inv → s.liveFc d m = true → s.fMode d m = 10 → Completes (exec (.pilotOscTimeout d m dc) s) (fun t =>
    t.shFld (R.FCH_CAP2 d m) ⟨19, 19⟩ = 0 ∧ t.shFld (R.FCH_VAL d m) ⟨15, 0⟩ = uext 16 dc ∧
    s.OnlyRegs [dieKey (R.FCH_VAL d m), dieKey (R.FCH_CAP2 d m)] t)))

/-- R305, R306 and Table 10.5. R303, R317, R318, R321, R314. -/
def Obligations.FieldOutputsAndSupply : Prop :=
  (∀ s d m val temp (e : Option Nat), s.Inv → s.liveFc d m = true → isOutMode (s.fMode d m) = true →
    Completes (exec (.fcOutputEvaluation d m val temp e) s) (fun t =>
      let tj := (s.fc d m).clampTj
      let rating : Int := if d = 2 then 10 else 200
      let beyond := ∃ n ∈ e, if tj ≤ 1680 then rating < (n : Int) else rating * (2800 - tj) < (n : Int) * 1120
      let hot := 2400 ≤ temp ∧ s.fSt d m ≠ 5
      t.shReg (R.FCH_VAL d m) = val ∧ (t.fc d m).temp = temp ∧
      (hot → t.fSt d m = 5 ∧ t.fBit d m F.FCH_STATE_OVERTEMP = true ∧ (t.fc d m).gate = .off) ∧
      (¬ hot ∧ beyond → t.fSt d m = 5 ∧ t.fBit d m F.FCH_STATE_CLAMP_OVER = true ∧
        (s.fSt d m ≠ 5 → (t.fc d m).gate = .off)) ∧
      (¬ hot ∧ ¬ beyond ∧ s.fSt d m = 5 ∧ s.fBit d m F.FCH_STATE_CLEAR_PENDING = true ∧ temp < 2160 →
        t.fSt d m ≠ 5 ∧ t.fBit d m F.FCH_STATE_CLEAR_PENDING = false ∧ t.fBit d m F.FCH_STATE_OVERLOAD = false ∧
        t.fBit d m F.FCH_STATE_OVERTEMP = false ∧ t.fBit d m F.FCH_STATE_CLAMP_OVER = false) ∧
      (¬ hot ∧ ¬ beyond ∧ ¬ (s.fSt d m = 5 ∧ s.fBit d m F.FCH_STATE_CLEAR_PENDING = true ∧ temp < 2160) →
        t.shReg (R.FCH_STATE d m) = s.shReg (R.FCH_STATE d m) ∧ (t.fc d m).gate = (s.fc d m).gate) ∧
      s.OneFc t d m [R.FCH_VAL d m, R.FCH_STATE d m])) ∧
  (∀ s d m, s.Inv → s.liveFc d m = true → isOutMode (s.fMode d m) = true → s.fSt d m ≠ 5 → s.fSt d m ≠ 6 →
    Completes (exec (.fcOverload d m) s) (fun t => t.fSt d m = 5 ∧ t.fBit d m F.FCH_STATE_OVERLOAD = true ∧
      (t.fc d m).gate = .off ∧ s.OneFc t d m [R.FCH_STATE d m])) ∧
  (∀ s d m, s.Inv → s.liveFc d m = true → s.fSt d m = 2 → Completes (exec (.fcPwmPeriodStart d m) s) (fun t =>
    let per := s.shFld (R.FCH_PWM d m) F.FCH_PWM_PER
    let duty := s.shFld (R.FCH_DUTY d m) (if (s.fc d m).fallback then F.FCH_DUTY_FALLBACK else F.FCH_DUTY_DUTY)
    (t.fc d m).gate = (if per = 0 ∨ per * duty < 8 * 1024 then .off else if per * (1024 - duty) < 8 * 1024 then .on
      else .pulse (per * duty / 1024) per) ∧ s.OneFc t d m [])) ∧
  ((∀ s d, s.Inv → d < 3 → (s.die (fieldDie d)).up = true → Completes (exec (.dissipationEstimate d) s) (fun t =>
    let ps := (Frac.add (if d = 2 then ⟨1, 2⟩ else ⟨6, 5⟩) (Frac.sum ((List.range (fcCount d)).map (s.dissTerm d))) ::
      (s.fd d).diss).take 1000
    (t.fd d).diss = ps ∧
    t.fdBit d F.FCH_DIE_STATUS_DISS_OVER = Frac.lt (if d = 2 then ⟨3, 2⟩ else ⟨5, 1⟩) (Frac.divN (Frac.sum ps) 1000) ∧
    s.RegsBut [dieKey (R.FCH_DIE_POWER d), dieKey (R.FCH_DIE_STATUS d)] t ∧
    t = { s with regs := t.regs, fd0 := t.fd0, fd1 := t.fd1, fd2 := t.fd2 } ∧ ∀ e < 3, e ≠ d → t.fd e = s.fd e)) ∧
  (∀ s d v resumed, s.Inv → d < 2 → (s.die (fieldDie d)).up = true →
    Completes (exec (.fieldSupplyWarning d v resumed) s) (fun t =>
      let k := min (s.feedClass 3) (s.feedClass 6)
      t.shFld (R.FCH_VSUP d) F.FCH_VSUP_VSUP = uext 16 v ∧ t.fcs = s.fcs ∧ s.RegsAlone t ∧
      (v < feedLevel 90 180 360 k → t.fdBit d F.FCH_DIE_STATUS_SUPPLY_LOW = true ∧
        t.fdBit d F.FCH_DIE_STATUS_DIAG_SUSPENDED = true ∧ ∀ m < 112, t.fBit d m F.FCH_STATE_SUPPLY_LOW = true ∧
          t.fBit d m F.FCH_STATE_DIAG_SUSPENDED = true) ∧
      (feedLevel 95 190 380 k < v → t.fdBit d F.FCH_DIE_STATUS_SUPPLY_LOW = false ∧
        (∀ m < 112, t.fBit d m F.FCH_STATE_SUPPLY_LOW = false) ∧
        t.fdBit d F.FCH_DIE_STATUS_DIAG_SUSPENDED = (!resumed && s.fdBit d F.FCH_DIE_STATUS_DIAG_SUSPENDED)) ∧
      (∀ m < 112, t.fSt d m = s.fSt d m ∧ t.fBit d m F.FCH_STATE_LEVEL = s.fBit d m F.FCH_STATE_LEVEL) ∧
      s.RegsBut ([dieKey (R.FCH_VSUP d), dieKey (R.FCH_DIE_STATUS d), dieKey (R.FCH_SAFE d)] ++
        (List.range 112).map (fun m => dieKey (R.FCH_STATE d m))) t)) ∧
  (∀ s d v, s.Inv → d < 2 → (s.die (fieldDie d)).up = true → v < feedLevel 30 60 180 (min (s.feedClass 3) (s.feedClass 6)) →
    Completes (exec (.fieldHoldCrossing d v) s) (fun t =>
      t.shFld (R.FCH_VSUP d) F.FCH_VSUP_VSUP = uext 16 v ∧ t.fdBit d F.FCH_DIE_STATUS_SUPPLY_CUT = true ∧
      (∀ m < 112, (isOutMode (s.fMode d m) = true ∧ s.fSt d m < 3 → t.fSt d m = 6 ∧ (t.fc d m).gate = .off ∧
          (t.fc d m).target = (s.fc d m).target) ∧
        (¬ (isOutMode (s.fMode d m) = true ∧ s.fSt d m < 3) → t.fSt d m = s.fSt d m ∧ t.fc d m = s.fc d m)) ∧
      (d = 1 → t.fdBit 2 F.FCH_DIE_STATUS_SUPPLY_LOST = true) ∧
      (d = 0 → s.RegsBut ([dieKey (R.FCH_VSUP 0), dieKey (R.FCH_DIE_STATUS 0)] ++
        (List.range 112).map (fun m => dieKey (R.FCH_STATE 0 m))) t ∧ t = { s with regs := t.regs, fcs := t.fcs }))) ∧
  (∀ s d v, s.Inv → d < 2 → (s.die (fieldDie d)).up = true → feedLevel 50 100 240 (min (s.feedClass 3) (s.feedClass 6)) < v →
    Completes (exec (.fieldRecovery d v) s) (fun t =>
      t.shFld (R.FCH_VSUP d) F.FCH_VSUP_VSUP = uext 16 v ∧ t.fdBit d F.FCH_DIE_STATUS_SUPPLY_CUT = false ∧
      (∀ m < 112, (s.fSt d m ≠ 6 → t.fSt d m = s.fSt d m ∧ t.fc d m = s.fc d m) ∧
        (s.fSt d m = 6 ∧ s.fcfg d m F.FCH_CFG_RESTORE_AFTER_DIP = 0 → t.fSt d m = 0 ∧
          t.fBit d m F.FCH_STATE_DIP_INHIBIT = true) ∧
        (s.fSt d m = 6 ∧ s.fcfg d m F.FCH_CFG_RESTORE_AFTER_DIP = 1 →
          (t.fSt d m = if (s.fc d m).target ≠ 0 ∧ (s.fd d).configured = true ∧
              s.fdBit d F.FCH_DIE_STATUS_SUPPLY_LOST = false ∧ s.fBit d m F.FCH_STATE_DIP_INHIBIT = false
            then (if (s.fc d m).target = 2 then 2 else 1) else 0))) ∧
      s.RegsBut ([dieKey (R.FCH_VSUP d), dieKey (R.FCH_DIE_STATUS d)] ++
        (List.range 112).map (fun m => dieKey (R.FCH_STATE d m))) t ∧ t = { s with regs := t.regs, fcs := t.fcs })) ∧
  (∀ s, s.Inv → s.fdBit 2 F.FCH_DIE_STATUS_SUPPLY_LOST = false → Completes (exec .supplyLost s) (fun t =>
    t.fdBit 2 F.FCH_DIE_STATUS_SUPPLY_LOST = true ∧
    (∀ m < 32, t.fBit 2 m F.FCH_STATE_SUPPLY_LOST = true ∧ t.fBit 2 m F.FCH_STATE_VALID = false ∧
      (isOutMode (s.fMode 2 m) = true ∧ s.fSt 2 m < 3 → t.fSt 2 m = 6 ∧ (t.fc 2 m).gate = .off) ∧
      ((s.fMode 2 m = 1 ∨ s.fMode 2 m = 2) ∧ s.fcfg 2 m F.FCH_CFG_SAFE_EN = 1 ∧ s.fcfg 2 m F.FCH_CFG_SAFE_POL = 1 →
        (t.shFld (R.FCH_SAFE 1) F.FCH_SAFE_SL_DRIVE).testBit (s.fcfg 2 m F.FCH_CFG_SAFE_LINE) = true)) ∧
    t = { s with regs := t.regs, fcs := t.fcs, commits := t.commits, led := t.led, grants := t.grants,
                 quiesces := t.quiesces })) ∧
  (∀ s, s.fdBit 2 F.FCH_DIE_STATUS_SUPPLY_LOST = true → exec .supplyLost s = .next s))

/-- R236, R254, R255, R307, R323; R257 at a field die. R33, R275, R319, R322. -/
def Obligations.DieSwitchesAndRestarts : Prop :=
  (∀ s d x, s.Inv → d < 2 → x < 32 → (s.die (powerDie d)).up = true →
    ((s.out d x).sched = none → exec (.scheduledSwitch (powerDie d) x) s = .next s ∧ exec (.lateSwitch (powerDie d) x) s = .next s) ∧
    (∀ g ∈ (s.out d x).sched,
      Completes (exec (.scheduledSwitch (powerDie d) x) s) (fun t => (t.out d x).sched = none ∧ (t.out d x).target = g ∧
        ((s.oSt d x = 5 ∨ s.oSt d x = 6) → t.oSt d x = s.oSt d x) ∧ s.OneOut t d x) ∧
      Completes (exec (.lateSwitch (powerDie d) x) s) (fun t => (t.out d x).sched = none ∧ (t.out d x).target = g ∧
        t.oFlag d x .late = true ∧ ((s.oSt d x = 5 ∨ s.oSt d x = 6) → t.oSt d x = s.oSt d x) ∧ s.OneOut t d x))) ∧
  (∀ s d m, s.Inv → d < 3 → m < fcCount d → (s.die (fieldDie d)).up = true →
    ((s.fc d m).sched = none → exec (.scheduledSwitch (fieldDie d) m) s = .next s ∧ exec (.lateSwitch (fieldDie d) m) s = .next s) ∧
    (∀ g ∈ (s.fc d m).sched,
      Completes (exec (.scheduledSwitch (fieldDie d) m) s) (fun t => (t.fc d m).sched = none ∧ (t.fc d m).target = g ∧
        ((s.fSt d m = 5 ∨ s.fSt d m = 6) → t.fSt d m = s.fSt d m) ∧ s.OneFc t d m [R.FCH_STATE d m]) ∧
      Completes (exec (.lateSwitch (fieldDie d) m) s) (fun t => (t.fc d m).sched = none ∧ (t.fc d m).target = g ∧
        t.fBit d m F.FCH_STATE_LATE_SWITCH = true ∧ s.OneFc t d m [R.FCH_STATE d m]))) ∧
  (∀ s d p, s.Inv → kaPlace d = some p → (s.die d).up = true → (s.die d).lastCycle.isSome = true →
    (s.mod_.frozen = false → Completes (exec (.keepaliveTimeout d) s) (fun t => t.shBit p.1 p.2 = true ∧
      s.OnlyRegs [dieKey p.1] t)) ∧
    (s.mod_.frozen = true → exec (.keepaliveTimeout d) s = .next s)) ∧
  (∀ s d, s.Inv → d < 2 → (s.die (powerDie d)).up = true → s.mod_.frozen = false →
    s.shBit (R.PCH_DIE_STATUS d) F.PCH_DIE_STATUS_KA_LOST = true → Completes (exec (.failAction (powerDie d)) s) (fun t =>
      t.shBit (R.PCH_DIE_STATUS d) F.PCH_DIE_STATUS_FAIL_APPLIED = true ∧
      (∀ x < 32, (t.out d x).target = (if s.cFail d x = 0 then 0 else if s.cFail d x = 1 then 1
          else if s.cFail d x = 2 then (s.out d x).target else 2) ∧
        (s.cFail d x = 3 → (t.out d x).fallback = true) ∧
        (s.cFail d x = 0 → conducting (s.oSt d x) = true → (s.out d x).ldDefer = false →
          s.feedBit (feedOf d x) F.SUPC_FEED_STAT_FEED_HIGH = false → t.oSt d x = 0 ∧ (t.out d x).gate = .off) ∧
        ((s.oSt d x = 5 ∨ s.oSt d x = 6) → t.oSt d x = s.oSt d x) ∧ t.out (1 - d) x = s.out (1 - d) x) ∧
      s.RegsBut ([R.PCH_DIE_STATUS d, R.SUPC_FEED_STAT (3 * d + 1), R.SUPC_FEED_STAT (3 * d + 2),
        R.SUPC_FEED_STAT (3 * d + 3)].map dieKey ++ (List.range 32).map (fun x => dieKey (oState d x))) t ∧
      t = { s with regs := t.regs, outs := t.outs })) ∧
  (∀ s d, s.Inv → d < 3 → (s.die (fieldDie d)).up = true → s.mod_.frozen = false →
    s.fdBit d F.FCH_DIE_STATUS_KA_LOST = true → Completes (exec (.failAction (fieldDie d)) s) (fun t =>
      t.fdBit d F.FCH_DIE_STATUS_FAIL_APPLIED = true ∧
      (∀ m < fcCount d,
        let fa := s.fcfg d m F.FCH_CFG_FAIL_ACT
        (isOutMode (s.fMode d m) = true → (t.fc d m).target = (if fa = 0 then 0 else if fa = 1 then 1
            else if fa = 2 then (s.fc d m).target else 2) ∧ (fa = 3 → (t.fc d m).fallback = true) ∧
          (fa = 0 → fcConducting (s.fSt d m) = true → t.fSt d m = 0 ∧ (t.fc d m).gate = .off)) ∧
        (isOutMode (s.fMode d m) = false → t.fc d m = s.fc d m ∧ t.shReg (R.FCH_STATE d m) = s.shReg (R.FCH_STATE d m))) ∧
      (∀ i, ¬ (112 * d ≤ i ∧ i < 112 * d + fcCount d) → t.fcs[i]? = s.fcs[i]?) ∧
      s.RegsBut (dieKey (R.FCH_DIE_STATUS d) :: (List.range (fcCount d)).map (fun m => dieKey (R.FCH_STATE d m))) t ∧
      t = { s with regs := t.regs, fcs := t.fcs })) ∧
  (∀ s d u, s.Inv → d < 3 → (s.die (fieldDie d)).up = true → s.urgents.find? (fun v => v.die == fieldDie d) = some u →
    Completes (exec (.urgentCommand (fieldDie d)) s) (fun t => t.urgents = s.urgents.erase u ∧
      (u.act = 1 → ((s.die (fieldDie d)).highEpoch).getD 0 ≤ u.epoch → ∀ m < fcCount d, u.mask.testBit m = true →
        isOutMode (s.fMode d m) = true → (t.fc d m).target = 0 ∧ t.fBit d m F.FCH_STATE_URGENT_OFF = true ∧
          (t.fc d m).urgSeal = some u.sealCyc ∧ (fcConducting (s.fSt d m) = true → t.fSt d m = 0 ∧ (t.fc d m).gate = .off)) ∧
      (u.epoch < ((s.die (fieldDie d)).highEpoch).getD 0 → t.fcs = s.fcs) ∧
      (∀ m < fcCount d, u.mask.testBit m = false → t.fc d m = s.fc d m ∧ t.fSt d m = s.fSt d m) ∧
      t = { s with regs := t.regs, fcs := t.fcs, urgents := t.urgents, led := t.led, grants := t.grants,
                   quiesces := t.quiesces })) ∧
  (let lost := fun (s t : State) (d : Die) =>
    (t.die d).restarted = true ∧ (t.die d).lastCycle = none ∧ (t.die d).highEpoch = none ∧
    (t.die d).saved = (if (s.die d).restarted then (s.die d).saved else s.dieConfig d) ∧
    (∀ k < 2, d = powerDie k → (t.pw k).configured = false ∧ ∀ x < 32, (t.out k x).gate = .off ∧ (t.out k x).target = 0) ∧
    (∀ k < 3, d = fieldDie k → (t.fd k).configured = false ∧ ∀ m < fcCount k, (t.fc k m).gate = .off ∧ (t.fc k m).target = 0) ∧
    (d = .FI → t.fdBit 2 F.FCH_DIE_STATUS_SUPPLY_LOST = true)
  let wiped := fun (t : State) (d : Die) => ∀ rg ∈ dieRanges d, ∀ a, rg.1 ≤ a → a < rg.2 → a ∉ aonRegs → sharedReg a = true →
    (∀ f, 1 ≤ f → f ≤ 6 → a ≠ R.SUPC_FEED_CFG f) → t.shReg a = resetAt (dieKey a)
  let kept := fun (s t : State) => t.laneE = s.laneE ∧ t.laneW = s.laneW ∧ t.mem = s.mem ∧ t.mod_ = s.mod_ ∧
    t.sessions = s.sessions ∧ t.pending = s.pending ∧ t.secE = s.secE ∧ t.secW = s.secW
  (∀ s d, s.Inv → Completes (exec (.dieRestart d false) s) (fun t => (t.die d).up = false ∧ lost s t d ∧
    (d = .P0 ∨ d = .P1 ∨ d = .F0 ∨ d = .CMN → wiped t d) ∧ (d = .F1 → t.fi.up = false) ∧ kept s t ∧
    (∀ e, e ≠ d → d ≠ .F1 → t.die e = s.die e))) ∧
  (∀ s d, s.Inv → d ≠ .FI → s.mod_.poweredOn = true → s.mod_.asleep = false →
    Completes (exec (.dieRestart d true) s) (fun t => (t.die d).up = true ∧ lost s t d ∧
      (d = .P0 ∨ d = .P1 ∨ d = .F0 ∨ d = .CMN → wiped t d) ∧
      (strapClass s.mod_.straps ≠ 3 → ∀ k < 2, d = powerDie k → ∀ f, 3 * k < f → f ≤ 3 * k + 3 →
        t.shFld (R.SUPC_FEED_CFG f) F.SUPC_FEED_CFG_CLASS = strapClass s.mod_.straps) ∧
      kept s t ∧ (∀ e, e ≠ d → t.die e = s.die e))) ∧
  (∀ s d, s.mod_.poweredOn = false ∨ s.mod_.asleep = true → exec (.dieRestart d true) s = .next s) ∧
  (∀ s, s.f1.up = false → exec (.dieRestart .FI true) s = .next s ∧ exec .barrierRestart s = .next s) ∧
  (∀ s, s.Inv → s.f1.up = true → s.mod_.poweredOn = true → s.mod_.asleep = false →
    Completes (exec (.dieRestart .FI true) s) (fun t => t.fi.up = true ∧ lost s t .FI ∧ kept s t)) ∧
  (∀ s, s.Inv → s.f1.up = true → s.fdBit 1 F.FCH_DIE_STATUS_SUPPLY_CUT = false →
    Completes (exec .barrierRestart s) (fun t => t.fi.up = true ∧ lost s t .FI ∧ kept s t)) ∧
  (∀ s d l, d ≠ .CMN → Completes (exec (.commandLinkClockLoss d l) s) (fun t => (t.die d).clockPort = some l.other ∧
    t = s.setDie d { s.die d with clockPort := some l.other })) ∧
  (∀ s l, exec (.commandLinkClockLoss .CMN l) s = .next s))

/-- Tables 7.10 to 7.12, R210, R227. -/
def Obligations.InterfaceCommands : Prop :=
  (∀ s r, Ready specIdentify s r → Completes (exec (.identify r) s) (fun t => s.Told r t (fun d =>
    d.length = 32 ∧ fieldAt d 0 4 = 0x4C5A41B0 ∧ slice d 4 16 = (List.range 16).map Config.uid ∧
    wordAt d 20 = (if s.serving .E then Config.fwVersion 0 else 0) ∧
    wordAt d 24 = (if s.serving .W then Config.fwVersion 1 else 0) ∧
    fieldAt d 28 1 = s.lifecycle (s.server r) ∧ fieldAt d 29 1 = (s.lane (s.server r)).straps % 256 ∧
    fieldAt d 30 2 = 0x0100))) ∧
  (∀ s r, Ready specLaneStatus s r → Completes (exec (.laneStatus r) s) (fun t => s.Told r t (fun d =>
    d.length = 28 ∧
    (∀ l, l = s.server r ∨ s.bit (s.server r) R.FERRY_LANE F.FERRY_LANE_STRAIT_UP = true → s.laneTold l d) ∧
    (∀ l, l ≠ s.server r → s.bit (s.server r) R.FERRY_LANE F.FERRY_LANE_STRAIT_UP = false → fieldAt d (12 * l.ix) 12 = 0) ∧
    fieldAt d 24 1 = s.fld (s.server r) R.FERRY_LANE F.FERRY_LANE_MODE ∧
    fieldAt d 25 1 = s.fld (s.server r) R.FERRY_LANE F.FERRY_LANE_PHASE ∧
    fieldAt d 26 1 = (if s.holder = some .E then 0 else if s.holder = some .W then 1 else 0xFF) ∧ fieldAt d 27 1 = 0))) ∧
  (∀ s r, Ready specPing s r → Completes (exec (.ping r) s) (fun t => s.Told r t (fun d =>
    fieldAt d 0 8 = s.now % 2 ^ 64 ∧ d.drop 8 = r.payload))) ∧
  (∀ s r, Ready specSessionInfo s r → Completes (exec (.sessionInfo r) s) (fun t => s.Told r t (fun d =>
    let q := s.quotaOf r.lane r.src
    d.length = 12 ∧ fieldAt d 0 2 = s.streamOf r.lane r.src % 65536 ∧ fieldAt d 2 2 = q % 65536 ∧
    fieldAt d 4 2 = s.fld r.lane (R.LEDG_QUOTA q) F.LEDG_QUOTA_QUOTA ∧ fieldAt d 6 2 = s.quotaUsed q % 65536 ∧
    (∀ f, r.src = .func f → fieldAt d 8 2 = s.fld r.lane (R.IOV_FN_CFG f) F.IOV_FN_CFG_PERMIT) ∧
    (∀ n, r.src = .session n → fieldAt d 8 2 = s.fld r.lane (R.SCSM_RS_CFG n) F.SCSM_RS_CFG_PERMIT ∧
      fieldAt d 10 2 = s.fld r.lane (R.SCSM_RS_STATUS n) F.SCSM_RS_STATUS_PENDING)))) ∧
  (∀ s r, Ready specSessionPermit s r → Completes (exec (.sessionPermit r) s) (fun t => s.Stages t ∧
    let w := s.cfgWith r (R.SCSM_RS_CFG (r.u8 0)) F.SCSM_RS_CFG_PERMIT (r.u16 2)
    t.CarriesAt (s.holderOr .E) 5 0 s.led.nextLsn w ∧ t.Pends (s.holderOr .E).other 5 0 w)) ∧
  (∀ s n r, s.Inv → r.src.wf = true → s.deaf = false → assignedOpcode n = false →
    Completes (exec (.unassignedOpcode n r) s) (fun t => s.RegsAside t ∧ s.Served t ∧ Answered s r SCS_E_OPCODE 0 [] t))

/-- R213, R214, R215; HEAD as R216 gives it. -/
def Obligations.MailboxAccesses : Prop :=
  (∀ s l who mb slot off v mask head, (∀ f, who = .func f → f ≠ mb ∨ 64 ≤ mb) → (who = .secure → mb ≠ 64) →
    Completes (exec (.reqSlotWrite l who mb slot off v) s) s.Denied ∧ Completes (exec (.doorbell l who mb slot) s) s.Denied ∧
    Completes (exec (.respAck l who mb mask) s) s.Denied ∧ Completes (exec (.cplHeadWrite l who mb head) s) s.Denied) ∧
  (∀ s l who mb slot off v, s.Inv → mayUseMailbox who mb = true →
    Completes (exec (.reqSlotWrite l who mb slot off v) s) (fun t =>
      let busy := (s.fld l (R.SCSM_MB_STATUS mb) F.SCSM_MB_STATUS_SLOT_BUSY).testBit (slot % 8)
      (busy = true → t.bit l (R.SCSM_MB_STATUS mb) F.SCSM_MB_STATUS_SLOT_VIOLATION = true ∧
        t.fld l (R.SCSM_MB_STATUS mb) F.SCSM_MB_STATUS_SLOT_BUSY = s.fld l (R.SCSM_MB_STATUS mb) F.SCSM_MB_STATUS_SLOT_BUSY ∧
        s.Accessed t 0 [regKey l.ix (R.SCSM_MB_STATUS mb), regKey l.ix (R.SCSM_CNT 6)]) ∧
      (busy = false → t.reg l (R.SCSM_MB_REQ mb (slot % 8) (off / 4 % 16)) = v ∧
        s.Accessed t 0 [regKey l.ix (R.SCSM_MB_REQ mb (slot % 8) (off / 4 % 16))]))) ∧
  (∀ s l who mb slot, s.Inv → mayUseMailbox who mb = true → Completes (exec (.doorbell l who mb slot) s) (fun t =>
    let st := R.SCSM_MB_STATUS mb
    let busy := s.fld l st F.SCSM_MB_STATUS_SLOT_BUSY
    let fs := s.fld l (R.IOV_FN_STATE mb) F.IOV_FN_STATE_STATE
    (busy.testBit (slot % 8) = true → t.bit l st F.SCSM_MB_STATUS_DOORBELL_BUSY = true ∧
      t.fld l st F.SCSM_MB_STATUS_SLOT_BUSY = busy ∧ s.Accessed t 0 [regKey l.ix st]) ∧
    (busy.testBit (slot % 8) = false → (mb = 64 ∨ (fs ≠ 2 ∧ fs ≠ 3)) →
      t.fld l st F.SCSM_MB_STATUS_SLOT_BUSY = busy + 2 ^ (slot % 8) ∧
      (s.deaf = false → ∃ x ∈ t.scs.inbox, x.req.lane = l ∧ x.req.src = (if mb = 64 then .smb0 else .func mb) ∧
        x.req.slot = slot % 8 ∧ x.opcode = fieldAt (wordBytes (s.reg l (R.SCSM_MB_REQ mb (slot % 8) 0))) 0 2 ∧
        x.req.reqId = (s.reg l (R.SCSM_MB_REQ mb (slot % 8) 1)).toNat) ∧
      s.Accessed { t with scs := s.scs } 0 [regKey l.ix st]) ∧
    (busy.testBit (slot % 8) = false → mb ≠ 64 → (fs = 2 ∨ fs = 3) → t.fld l st F.SCSM_MB_STATUS_SLOT_BUSY = busy ∧
      s.Accessed t 0 [regKey l.ix (R.IOV_FN_STATE mb)]))) ∧
  (∀ s l who mb mask, s.Inv → mayUseMailbox who mb = true → Completes (exec (.respAck l who mb mask) s) (fun t =>
    let st := R.SCSM_MB_STATUS mb
    (∀ i < 8, mask.testBit i = true ∧ (s.fld l st F.SCSM_MB_STATUS_RESP_READY).testBit i = true →
      (t.fld l st F.SCSM_MB_STATUS_RESP_READY).testBit i = false ∧ (t.fld l st F.SCSM_MB_STATUS_SLOT_BUSY).testBit i = false) ∧
    (∀ i < 8, ¬ (mask.testBit i = true ∧ (s.fld l st F.SCSM_MB_STATUS_RESP_READY).testBit i = true) →
      (t.fld l st F.SCSM_MB_STATUS_RESP_READY).testBit i = (s.fld l st F.SCSM_MB_STATUS_RESP_READY).testBit i ∧
      (t.fld l st F.SCSM_MB_STATUS_SLOT_BUSY).testBit i = (s.fld l st F.SCSM_MB_STATUS_SLOT_BUSY).testBit i) ∧
    s.Accessed t 0 [regKey l.ix st])) ∧
  (∀ s l who mb head, s.Inv → mayUseMailbox who mb = true → Completes (exec (.cplHeadWrite l who mb head) s) (fun t =>
    let hd := R.SCSM_MB_CPL_HEAD mb
    let n := (head % 64 + 64 - s.fld l hd F.SCSM_MB_CPL_HEAD_HEAD) % 64
    let cnt := s.fld l (R.SCSM_MB_STATUS mb) F.SCSM_MB_STATUS_CPL_COUNT
    (n ≤ cnt → t.fld l hd F.SCSM_MB_CPL_HEAD_HEAD = head % 64 ∧
      t.fld l (R.SCSM_MB_STATUS mb) F.SCSM_MB_STATUS_CPL_COUNT = cnt - n) ∧
    (cnt < n → s.Accessed t 0 []) ∧ s.Accessed t 0 [regKey l.ix hd, regKey l.ix (R.SCSM_MB_STATUS mb)]))

/-- R218 to R222. -/
def Obligations.RemoteSessions : Prop :=
  (∀ s n counter nonce h, s.Inv → s.holder = some h → n < 32 → s.deaf = false →
    s.bit h (R.SCSM_RS_CFG n) F.SCSM_RS_CFG_EN = true →
    ((s.session n).lastOpen < counter → Completes (exec (.sessionOpen n counter true nonce) s) (fun t =>
      (t.session n).lastOpen = counter ∧ (t.session n).clientNonce = nonce ∧ (t.session n).serverNonce = s.freeBytes 16 ∧
      (t.session n).rxHigh = 0 ∧ (t.session n).rxSeen = [] ∧ (t.session n).txNext = 1 ∧ (t.session n).partials = [] ∧
      (∀ m, m ≠ n → t.sessions[m]? = s.sessions[m]?) ∧ (∀ l, t.reg l (R.SCSM_RS_STATUS n) = 1) ∧
      t.outbox = s.outbox ++ [.openAck n counter (s.freeBytes 16)] ∧
      t.scs = { s.scs with inbox := s.scs.inbox.filter (fun i => i.req.src != .session n) } ∧
      s.RegsBut (bothKeys (R.SCSM_RS_STATUS n)) t ∧
      t = { s with regs := t.regs, sessions := t.sessions, scs := t.scs, outbox := t.outbox, freeCtr := t.freeCtr })) ∧
    (counter ≤ (s.session n).lastOpen → exec (.sessionOpen n counter true nonce) s = .next s) ∧
    (s.fld h (R.LHS_EVT_CFG 5) F.LHS_EVT_CFG_RESP ≤ 1 → Completes (exec (.sessionOpen n counter false nonce) s) (fun t =>
      t.fld h (R.LHS_EVT_CNT 5) F.LHS_EVT_CNT_COUNT = min (s.fld h (R.LHS_EVT_CNT 5) F.LHS_EVT_CNT_COUNT + 1) 65535 ∧
      t.reg h (R.SCSM_CNT 2) = BitVec.ofNat 32 (satInc 32 (s.reg h (R.SCSM_CNT 2)).toNat) ∧
      t = { s with regs := t.regs, tamperLog := t.tamperLog, freeCtr := t.freeCtr, irqs := t.irqs }))) ∧
  (∀ s (g : Segment) h, s.Inv → s.holder = some h → g.session < 32 → s.deaf = false → s.sessionOpen g.session = true →
    g.tagOk = true →
    let n := g.session
    let x := s.session n
    let old := x.partials.find? (fun p => p.msg == g.msg)
    let segs := (g.seg, g.plain) :: ((old.map Partial.segs).getD []).filter (fun q => q.1 != g.seg)
    let total := if g.last then some g.seg else (old.bind Partial.total)
    let whole := ∃ k, total = some k ∧ k + 1 ≤ segs.length
    let takes := counterFresh x g.counter = true ∧ g.counter < 2 ^ 48 ∧ g.seg < 128 ∧ (old.isSome = true ∨ x.partials.length < 4)
    (counterFresh x g.counter = false → Completes (exec (.sessionSegment g) s) (fun t =>
      t.reg h (R.SCSM_CNT 3) = BitVec.ofNat 32 (satInc 32 (s.reg h (R.SCSM_CNT 3)).toNat) ∧
      s.OnlyRegs [regKey h.ix (R.SCSM_CNT 3)] t)) ∧
    (counterFresh x g.counter = true → 2 ^ 48 ≤ g.counter → Completes (exec (.sessionSegment g) s) (fun t => s.Closed t n)) ∧
    (counterFresh x g.counter = true → g.counter < 2 ^ 48 → (128 ≤ g.seg ∨ (old = none ∧ 4 ≤ x.partials.length)) →
      Completes (exec (.sessionSegment g) s) (fun t => (t.session n).partials = x.partials ∧
        (t.session n).rxHigh = max x.rxHigh g.counter ∧
        t.reg h (R.SCSM_CNT 4) = BitVec.ofNat 32 (satInc 32 (s.reg h (R.SCSM_CNT 4)).toNat) ∧
        s.RegsBut [regKey h.ix (R.SCSM_CNT 4)] t ∧ t = { s with regs := t.regs, sessions := t.sessions })) ∧
    (takes → ¬ whole → Completes (exec (.sessionSegment g) s) (fun t => (t.session n).rxHigh = max x.rxHigh g.counter ∧
      counterFresh (t.session n) g.counter = false ∧ ⟨g.msg, segs, total⟩ ∈ (t.session n).partials ∧
      (∀ p ∈ x.partials, p.msg ≠ g.msg → p ∈ (t.session n).partials) ∧ t = { s with sessions := t.sessions })) ∧
    (takes → whole → Completes (exec (.sessionSegment g) s) (fun t =>
      let b := Partial.bytes ⟨g.msg, segs, total⟩
      let p := s.fld .E (R.SCSM_RS_STATUS n) F.SCSM_RS_STATUS_PENDING
      (∀ q ∈ (t.session n).partials, q.msg ≠ g.msg) ∧ s.RegsAside t ∧ s.Served t ∧
      (p < 16 → ∃ i ∈ t.scs.inbox, i.opcode = fieldAt b 0 2 ∧ i.req.src = .session n ∧ i.req.reqId = fieldAt b 4 4 ∧
        i.req.payload = b.drop 16 ∧ ∀ l, t.fld l (R.SCSM_RS_STATUS n) F.SCSM_RS_STATUS_PENDING = p + 1) ∧
      (16 ≤ p → t.scs.inbox.filter (fun i => i.req.reqId != fieldAt b 4 4) =
          s.scs.inbox.filter (fun i => i.req.reqId != fieldAt b 4 4) ∧
        ∃ l, .scsResp n (respHeader SCS_E_BUSY false l (fieldAt b 4 4) 0 0) ∈ t.outbox)))) ∧
  (∀ s n, s.Inv → s.sessionOpen n = true → Completes (exec (.sessionClose n) s) (fun t => s.Closed t n ∧ t.outbox = s.outbox)) ∧
  (∀ s n, s.Inv → s.sessionOpen n = true → Completes (exec (.sessionIdleTimeout n) s) (fun t => s.Closed t n ∧
    t.outbox = s.outbox ++ [.sessionClose n])) ∧
  (∀ s n msg, s.Inv → n < 32 → (∃ p ∈ (s.session n).partials, p.msg = msg) → Completes (exec (.reassemblyTimeout n msg) s) (fun t =>
    (t.session n).partials = (s.session n).partials.filter (fun p => p.msg != msg) ∧
    s.RegsBut [regKey (s.holderOr .E).ix (R.SCSM_CNT 4)] t ∧ t = { s with regs := t.regs, sessions := t.sessions })) ∧
  (∀ s stream reqId, Completes (exec (.watermark stream reqId) s) (fun t => (stream, reqId) ∈ t.scs.watermarks ∧
    (∀ i ∈ s.scs.inbox, i.stream ≠ stream → i ∈ t.scs.inbox) ∧
    ((∃ i ∈ s.scs.inbox, i.stream = stream ∧ i.req.reqId = reqId) → ∀ i ∈ t.scs.inbox, i.stream = stream → i.req.reqId ≠ reqId) ∧
    (∀ i ∈ t.scs.inbox, i ∈ s.scs.inbox) ∧ t = { s with scs := t.scs }))

/-- Table 11.4. -/
def Obligations.TideCommands : Prop :=
  let staged := fun (s : State) (r : Req) (t : State) (ws : List RegCell) =>
    (∀ l a, Aside a → a ≠ R.TIDE_STATUS → t.reg l a = s.reg l a) ∧ s.Staged t ∧
    ∀ c ∈ ws, ∃ g, t.CarriesAt (s.holderOr r.lane) 9 g s.led.nextLsn c
  (∀ s r, Ready specTideSource s r → Completes (exec (.tideSource r) s) (fun t => staged s r t
    [(R.TIDE_CFG, BitVec.ofNat 32 (r.u8 0 + 4 * r.u8 1 + 0x100 * r.u8 2 + 0x10000 * (r.u16 4 - 1))),
     (R.TIDE_FREE_INC_LO, r.w 8), (R.TIDE_FREE_INC_HI, BitVec.ofNat 32 (r.u16 12)), (R.TIDE_TB_PERIOD, r.w 16)])) ∧
  (∀ s r, Ready specTideMains s r → Completes (exec (.tideMains r) s) (fun t => staged s r t
    [(R.TIDE_MPLL_CFG, r.w 0), (R.TIDE_MPLL_OFS, r.w 4), (R.TIDE_MPLL_GAIN, r.w 8), (R.TIDE_MPLL_LIM, r.w 12)])) ∧
  (∀ s r, Ready specTideExt s r → Completes (exec (.tideExt r) s) (fun t => staged s r t
    [(R.TIDE_EXT_CFG, r.w 0), (R.TIDE_EXT_OFS, r.w 4), (R.TIDE_EXT_FMIN, r.w 8), (R.TIDE_EXT_FMAX, r.w 12)])) ∧
  (∀ s r, Ready specTideTurn s r → Completes (exec (.tideTurn r) s) (fun t => staged s r t
    [(R.TIDE_TURN_CFG, BitVec.ofNat 32 ((r.u32 0 - 1) + 0x10000 * (r.u32 4 - 1)))])) ∧
  (∀ s r, Ready specTevSet s r → Completes (exec (.tevSet r) s) (fun t => staged s r t
    [(R.TIDE_TEV_PHASE (r.u16 0), r.w 4),
     (R.TIDE_TEV_CTRL (r.u16 0), BitVec.ofNat 32 (r.u8 8 + 0x10 * r.u8 9 + r.src.ownerBits)),
     (R.TIDE_TEV_ARG (r.u16 0), r.w 12)])) ∧
  (∀ s r, Ready specTevClear s r → Completes (exec (.tevClear r) s) (fun t => staged s r t
    ((List.range (r.u16 2)).map (fun k => (R.TIDE_TEV_CTRL (r.u16 0 + k),
      s.shadow (s.holderOr r.lane) (R.TIDE_TEV_CTRL (r.u16 0 + k)) &&& 0xFFFFFFC0#32))))) ∧
  (∀ s r, Ready specTevArm s r → Completes (exec (.tevArm r) s) (fun t => s.RegsAside t ∧ s.Served { t with tevArms := s.tevArms } ∧
    t.tevArms = s.tevArms ++ [⟨r.u16 0, r.u16 2, s.led.nextLsn⟩])) ∧
  (∀ s r, Ready specTideStatus s r → Completes (exec (.tideStatus r) s) (fun t => s.Told r t (fun d =>
    let l := s.server r
    d.length = 36 ∧ wordAt d 0 = s.reg l R.TIDE_STATUS ∧ fieldAt d 4 4 = (s.tide l).phase % 2 ^ 32 ∧
    fieldAt d 8 4 = (s.tide l).turn % 2 ^ 32 ∧ fieldAt d 12 8 = (s.tide l).inc % 2 ^ 64 ∧
    wordAt d 20 = s.reg l R.TIDE_MPLL_STAT ∧ wordAt d 24 = s.reg l R.TIDE_MPLL_MEAS ∧
    wordAt d 28 = s.reg l R.TIDE_EXT_STAT ∧ wordAt d 32 = s.reg l R.TIDE_SYNC_STAT))) ∧
  (∀ s r, Ready specTevRead s r → Completes (exec (.tevRead r) s) (fun t => s.Told r t (fun d =>
    d.length = 16 * r.u8 2 ∧ ∀ i < r.u8 2, ∀ k < 4, wordAt d (16 * i + 4 * k) =
      s.reg (s.server r) (R.TIDE_TEV_PHASE (r.u16 0 + i) + 4 * k))))

/-- R333, R334, R336, R338, R339. -/
def Obligations.TideReferences : Prop :=
  let lostTo := fun (s t : State) (l : Lane) (src : Nat) (was : Bool) =>
    (was = true ∧ s.tideSrc l = src → s.Counts t l (R.TIDE_CNT 4) ∧
      (s.tideOwn l = true → t.tBit l F.TIDE_STATUS_LOCKED = false ∧ t.tBit l F.TIDE_STATUS_SLEWING = false ∧
        t.tBit l F.TIDE_STATUS_HOLDOVER = true)) ∧
    (¬ (was = true ∧ s.tideSrc l = src) → t.reg l (R.TIDE_CNT 4) = s.reg l (R.TIDE_CNT 4) ∧
      t.reg l R.TIDE_STATUS = s.reg l R.TIDE_STATUS) ∧
    (t.tide l).inc = (s.tide l).inc ∧ (t.tide l).acc = (s.tide l).acc
  (∀ s l va vb vc, s.Inv → s.mpllOn l = true → Completes (exec (.mpllUpdate l va vb vc) s) (fun t =>
    let lim := fun (f : Fld) => Frac.mul twoPi (Frac.mk' (s.fld l R.TIDE_MPLL_LIM f) 10)
    let p := mpllStep (s.bit l R.TIDE_MPLL_CFG F.TIDE_MPLL_CFG_THREE) (s.tide l) (Frac.mk' va 65536) (Frac.mk' vb 65536)
      (Frac.mk' vc 65536) (Frac.ofInt (s.fld l R.TIDE_MPLL_GAIN F.TIDE_MPLL_GAIN_KP))
      (Frac.ofInt (10 * s.fld l R.TIDE_MPLL_GAIN F.TIDE_MPLL_GAIN_KI))
      (Frac.mul twoPi (Frac.ofInt (if s.bit l R.TIDE_MPLL_CFG F.TIDE_MPLL_CFG_NOM60 then 60 else 50)))
      (lim F.TIDE_MPLL_LIM_FMIN) (lim F.TIDE_MPLL_LIM_FMAX) s.freeCtr
    let deg := Frac.div (Frac.mul (Config.asinF p.vq) (Frac.ofInt 180)) Config.piF
    let run := if Frac.lt (Frac.abs deg) ⟨1, 10⟩ then Frac.add (s.tide l).inBand (Frac.mul p.omega ⟨1, 100000⟩) else .zero
    let locks := s.bit l R.TIDE_MPLL_STAT F.TIDE_MPLL_STAT_LOCK = false ∧ Frac.le twoPi run = true
    (t.tide l).theta = p.theta ∧ (t.tide l).integ = p.integ ∧ (t.tide l).omega = p.omega ∧ (t.tide l).inBand = run ∧
    t.fld l R.TIDE_MPLL_STAT F.TIDE_MPLL_STAT_AMP = Frac.sat 16 (Frac.mul p.amp (Frac.ofInt 65536)) ∧
    t.fld l R.TIDE_MPLL_MEAS F.TIDE_MPLL_MEAS_FREQ = Frac.sat 20 (Frac.mul (Frac.div p.omega twoPi) (Frac.ofInt 1000)) ∧
    (locks → t.bit l R.TIDE_MPLL_STAT F.TIDE_MPLL_STAT_LOCK = true ∧ t.bit l R.TIDE_MPLL_STAT F.TIDE_MPLL_STAT_MAINS_LOST = false) ∧
    (¬ locks → t.bit l R.TIDE_MPLL_STAT F.TIDE_MPLL_STAT_LOCK = s.bit l R.TIDE_MPLL_STAT F.TIDE_MPLL_STAT_LOCK) ∧
    (t.tide l).acc = (s.tide l).acc ∧ (s.tideSrc l ≠ 1 → (t.tide l).inc = (s.tide l).inc) ∧ t.freeCtr = s.freeCtr + 1 ∧
    s.OneTide { t with freeCtr := s.freeCtr } l [R.TIDE_MPLL_STAT, R.TIDE_MPLL_MEAS, R.TIDE_STATUS])) ∧
  (∀ s l va vb vc, s.mpllOn l = false → exec (.mpllUpdate l va vb vc) s = .next s ∧ exec (.mainsLost l) s = .next s) ∧
  (∀ s l, s.Inv → s.mpllOn l = true → Completes (exec (.mainsLost l) s) (fun t =>
    t.bit l R.TIDE_MPLL_STAT F.TIDE_MPLL_STAT_LOCK = false ∧ t.bit l R.TIDE_MPLL_STAT F.TIDE_MPLL_STAT_MAINS_LOST = true ∧
    lostTo s t l 1 (s.bit l R.TIDE_MPLL_STAT F.TIDE_MPLL_STAT_LOCK) ∧
    s.OneTide t l [R.TIDE_MPLL_STAT, R.TIDE_STATUS, R.TIDE_CNT 4])) ∧
  (∀ s l ch t', s.Inv → s.tideRuns l = true → (ch, t') ∈ s.stamps → s.fMode (fcDie ch) (fcIx ch) = 7 →
    s.shFld (R.FCH_AUX (fcDie ch) (fcIx ch)) F.FCH_AUX_CAP_KIND = 3 → Completes (exec (.extPulse l ch t') s) (fun t =>
      let x := s.tide l
      let j0 := if s.bit l R.TIDE_EXT_CFG F.TIDE_EXT_CFG_IDX_EN = true ∧ s.fld l R.TIDE_EXT_CFG F.TIDE_EXT_CFG_IDX_CH = ch
        then 0 else x.extJ
      let j1 := (j0 + 1) % s.extPpt l
      let lock := s.bit l R.TIDE_EXT_STAT F.TIDE_EXT_STAT_LOCK
      (s.fld l R.TIDE_EXT_CFG F.TIDE_EXT_CFG_EXT_CH ≠ ch → (t.tide l).extJ = j0 ∧
        t.bit l R.TIDE_EXT_STAT F.TIDE_EXT_STAT_LOCK = lock) ∧
      (s.fld l R.TIDE_EXT_CFG F.TIDE_EXT_CFG_EXT_CH = ch → (t.tide l).extLast = some t' ∧
        (x.extLast = none → (t.tide l).extJ = 0 ∧ (t.tide l).extRun = 1) ∧
        (∀ t0 ∈ x.extLast, (t.tide l).extJ = j1 ∧
          (t' - t0 = 0 ∨ s.extFreqOk l (t' - t0) = false → t.bit l R.TIDE_EXT_STAT F.TIDE_EXT_STAT_LOCK = false ∧
            t.bit l R.TIDE_EXT_STAT F.TIDE_EXT_STAT_EXT_MISS = true ∧ lostTo s t l 3 lock) ∧
          (t' - t0 ≠ 0 → s.extFreqOk l (t' - t0) = true →
            let agrees := ∃ d ∈ x.extInt, 7 * d ≤ 8 * (t' - t0) ∧ 8 * (t' - t0) ≤ 9 * d
            (t.tide l).extInt = some (t' - t0) ∧ (agrees → (t.tide l).extRun = x.extRun + 1) ∧
            (¬ agrees → (t.tide l).extRun = 2) ∧
            t.bit l R.TIDE_EXT_STAT F.TIDE_EXT_STAT_LOCK = (lock || decide (4 ≤ (t.tide l).extRun))))) ∧
      s.OneTide t l [R.TIDE_EXT_STAT, R.TIDE_STATUS, R.TIDE_CNT 4])) ∧
  (∀ s l, s.Inv → s.tideRuns l = true → Completes (exec (.extMiss l) s) (fun t => (t.tide l).extInt = none ∧ (t.tide l).extRun = 0 ∧
    t.bit l R.TIDE_EXT_STAT F.TIDE_EXT_STAT_LOCK = false ∧ t.bit l R.TIDE_EXT_STAT F.TIDE_EXT_STAT_EXT_MISS = true ∧
    lostTo s t l 3 (s.bit l R.TIDE_EXT_STAT F.TIDE_EXT_STAT_LOCK) ∧
    s.OneTide t l [R.TIDE_EXT_STAT, R.TIDE_STATUS, R.TIDE_CNT 4]))

/-- R330, R331, R333, R340, R342 to R345, R351. -/
def Obligations.TideTurnsAndEvents : Prop :=
  (∀ s l, s.Inv → Completes (exec (.tidePhaseRead l) s) (fun t => t.reg l R.TIDE_TURN = BitVec.ofNat 32 (s.tide l).turn ∧
    t.reg l R.TIDE_INC_LO = BitVec.ofNat 32 (s.tide l).inc ∧ t.reg l R.TIDE_INC_HI = BitVec.ofNat 32 ((s.tide l).inc / 2 ^ 32) ∧
    t.reg l R.TIDE_PHASE = BitVec.ofNat 32 (s.tide l).phase ∧
    s.Accessed t (BitVec.ofNat 32 (s.tide l).phase) ([R.TIDE_PHASE, R.TIDE_TURN, R.TIDE_INC_LO, R.TIDE_INC_HI].map (regKey l.ix)))) ∧
  (∀ s l, s.Inv → s.tideRuns l = true → Completes (exec (.turnStart l) s) (fun t =>
    let x := s.tide l
    (x.turnsDue = 0 → (t.tide l).acc = 0 ∧ (t.tide l).turn = (x.turn + 1) % 2 ^ 32) ∧
    (0 < x.turnsDue → (t.tide l).acc = x.acc ∧ (t.tide l).turn = x.turn ∧ (t.tide l).turnsDue = x.turnsDue - 1) ∧
    (t.tide l).nextJ = 0 ∧
    (s.pendCommit 9 1 l = none → (t.tide l).turnsIn = (x.turnsIn + 1) % s.tideD l ∧ s.OneTide t l []) ∧
    (∀ c ∈ s.pendCommit 9 1 l, c.lane = l → (c.writes.map Prod.fst).Nodup →
      (chkTide s c = true → ∀ w ∈ c.writes, slotOf w.1 = 9 → w.1 < 2 ^ 32 →
        t.reg l w.1 &&& rwsMask w.1 = w.2 &&& rwsMask w.1) ∧
      (chkTide s c = false → evWorldBad s l (s.commitView c) = none → t.tBit l F.TIDE_STATUS_CFG_INCONSISTENT = true ∧
        ∀ a, a < 2 ^ 32 → t.reg l a &&& rwsMask a = s.reg l a &&& rwsMask a)))) ∧
  (∀ s l, s.Inv → s.tideRuns l = true → s.tideOwn l = true → s.tBit l F.TIDE_STATUS_SLEWING = true → s.srcLocked l = true →
    Completes (exec (.tideSlewComplete l) s) (fun t => (t.tide l).inc = s.refInc l ∧ (t.tide l).acc = (s.tide l).acc ∧
      t.tBit l F.TIDE_STATUS_SLEWING = false ∧ t.tBit l F.TIDE_STATUS_LOCKED = true ∧
      t.fld l R.TIDE_STATUS F.TIDE_STATUS_SRC_ACTIVE = s.tideSrc l ∧ s.OneTide t l [R.TIDE_STATUS])) ∧
  (∀ s l, s.Inv → s.tideRuns l = true → s.tBit l F.TIDE_STATUS_HOLDOVER = true → Completes (exec (.holdoverExpiry l) s) (fun t =>
    t.tBit l F.TIDE_STATUS_HOLDOVER = false ∧ t.tBit l F.TIDE_STATUS_FALLBACK = true ∧
    t.fld l R.TIDE_STATUS F.TIDE_STATUS_SRC_ACTIVE = 0 ∧ s.Counts t l (R.TIDE_CNT 5) ∧
    s.OnlyRegs [regKey l.ix R.TIDE_STATUS, regKey l.ix (R.TIDE_CNT 5)] t)) ∧
  (∀ s l err, s.Inv → s.lst l = 4 → s.tideRuns l = true →
    Completes (exec (.tideSync l err true) s) (fun t => s.Counts t l (R.TIDE_CNT 7) ∧ s.OnlyRegs [regKey l.ix (R.TIDE_CNT 7)] t) ∧
    Completes (exec (.tideSync l err false) s) (fun t =>
      t.tBit l F.TIDE_STATUS_SLAVED = true ∧ t.bit l R.TIDE_SYNC_STAT F.TIDE_SYNC_STAT_SYNC_OK = decide (err.natAbs ≤ 50) ∧
      t.fld l R.TIDE_SYNC_STAT F.TIDE_SYNC_STAT_ERR = uext 16 (satS 16 err) ∧ (t.tide l).acc = (s.tide l).acc ∧
      (50 < err.natAbs ∧ 1 ≤ s.ferry.slipCycles → t.lst l = 2 ∧ t.bit l R.FERRY_STATUS F.FERRY_STATUS_TIDE_SLIP = true) ∧
      (err.natAbs ≤ 50 ∨ s.ferry.slipCycles = 0 → t.lst l = 4 ∧ s.OneTide { t with ferry := s.ferry } l
        [R.TIDE_STATUS, R.TIDE_SYNC_STAT]))) ∧
  (∀ s l i delay, s.Inv → s.tideRuns l = true → 1 ≤ i → i ≤ 1023 → evMode (s.reg l (R.TIDE_TEV_CTRL i)) ≠ 0 →
    evType (s.reg l (R.TIDE_TEV_CTRL i)) < 7 → isSwitch (evType (s.reg l (R.TIDE_TEV_CTRL i))) = false →
    s.bit l (R.TIDE_TEV_STAT i) F.TIDE_TEV_STAT_ARMED = true → Completes (exec (.tideEventFire l i delay) s) (fun t =>
      let ty := evType (s.reg l (R.TIDE_TEV_CTRL i))
      let arg := (s.reg l (R.TIDE_TEV_ARG i)).toNat
      let max0 := s.fld l R.TIDE_MAXDLY F.TIDE_MAXDLY_MAX_TICKS
      ∃ u, u.fld l (R.TIDE_TEV_STAT i) F.TIDE_TEV_STAT_FIRED =
          min (s.fld l (R.TIDE_TEV_STAT i) F.TIDE_TEV_STAT_FIRED + 1) 65535 ∧ s.Counts u l (R.TIDE_CNT 0) ∧
        u.bit l (R.TIDE_TEV_STAT i) F.TIDE_TEV_STAT_ARMED = decide (evMode (s.reg l (R.TIDE_TEV_CTRL i)) ≠ 2) ∧
        (delay = 0 → u.reg l R.TIDE_MAXDLY = s.reg l R.TIDE_MAXDLY) ∧
        (0 < delay → u.fld l R.TIDE_MAXDLY F.TIDE_MAXDLY_MAX_TICKS = max max0 (min delay 2046) ∧ s.Counts u l (R.TIDE_CNT 3)) ∧
        s.OnlyRegs ([R.TIDE_TEV_STAT i, R.TIDE_CNT 0, R.TIDE_CNT 3, R.TIDE_MAXDLY].map (regKey l.ix)) u ∧
        (ty = 0 → t = u) ∧ (ty = 1 → t = u.startSeq l (arg % 16)) ∧ (ty = 2 → t = u.pwmLoad l (arg % 4096)) ∧
        (ty = 5 → t = if u.harbRuns l then u.harbTrigger l (arg % 4096) 1 [] else u) ∧
        (ty = 6 → (s.lane l).resetting = none →
          let irq := fun (fn : Option Nat) => (⟨l, fn, arg / 256 % 32⟩ : Irq) ∈ t.irqs ∧ t = { u with irqs := t.irqs } ∧
            ∀ x ∈ u.irqs, x ∈ t.irqs
          (arg.testBit 6 = false → irq (some (arg % 64))) ∧ (arg.testBit 6 = true → arg % 8 < 4 → irq (some (64 + arg % 8))) ∧
          (arg.testBit 6 = true → arg % 8 = 4 → irq none)) ∧
        (ty = 6 → (s.lane l).resetting.isSome = true → u.Counts t l (R.TIDE_CNT 6) ∧ t.irqs = s.irqs)))

/-- Tables 12.7 and 12.8. -/
def Obligations.ConverterCommands : Prop :=
  let held := fun (s : State) (r : Req) (t : State) (region : Nat) (ws : List RegCell) => s.Stages t ∧
    ∀ c ∈ ws, t.CarriesAt (s.holderOr r.lane) 10 region s.led.nextLsn c
  let nodeTakes := fun (s : State) (r : Req) (o : Host.Outcome State Fault Refusal) (u : State) (ws : List RegCell) =>
    ((∀ l, (u.cvc l).chain = none) →
      (∀ l, chkCvc u ⟨10, 32 + r.u8 0, l, ws, 0, [], false⟩ = true) → Completes o (fun t => s.FarBut
        ((List.range 32).map (fun n => R.CVC_KN_CFG (r.u8 0) + 4 * n)) t ∧
        ∀ l, ∀ w ∈ ws, (w.1 = R.CVC_KN_CFG (r.u8 0) → getF w.2 F.CVC_KN_CFG_CLR_STATE = 0) →
          t.reg l w.1 &&& rwsMask w.1 = w.2 &&& rwsMask w.1)) ∧
    ((∀ l, ∃ c, (u.cvc l).chain = some (c, r.u8 0)) → Completes o (fun t => s.RegsAside t ∧
      ∀ w ∈ ws, t.CarriesAt (s.holderOr r.lane) 10 (32 + r.u8 0) s.led.nextLsn w))
  (∀ s r, Ready specPwmPairConfig s r → s.NodesSettled → Completes (exec (.pwmPairConfig r) s) (fun t => held s r t (r.u8 0)
    [(R.CVC_PP_CFG (r.u8 0), r.w 4), (R.CVC_PP_TRGA (r.u8 0), r.w 8), (R.CVC_PP_TRGB (r.u8 0), r.w 12)])) ∧
  (∀ s r, Ready specAdcSeqConfig s r → s.NodesSettled → Completes (exec (.adcSeqConfig r) s) (fun t => held s r t (200 + r.u8 0)
    ((R.CVC_SEQ_CFG (r.u8 0), r.w 4) :: (List.range (getF (r.w 4) F.CVC_SEQ_CFG_LEN_M1 + 1)).map (fun j =>
      (R.CVC_SEQ_STEP (r.u8 0) j, r.w (8 + 4 * j)))))) ∧
  (∀ s r, Ready specCompConfig s r → s.NodesSettled → Completes (exec (.compConfig r) s) (fun t => held s r t (220 + r.u8 0)
    [(R.CVC_CM_CFG (r.u8 0), r.w 4)])) ∧
  (∀ s r, Ready specPwmGuard s r → Completes (exec (.pwmGuard r) s) (fun t => s.Stages t ∧
    ∀ c ∈ [(R.CVC_SEL_PP_CFG (r.u8 0), r.w 4), (R.CVC_SEL_PP_MINPW (r.u8 0), r.w 8), (R.CVC_SEL_PP_MASK (r.u8 0), r.w 12)],
      t.Carries 10 100 s.led.nextLsn c)) ∧
  (∀ s r, Ready specNodeConfig s r → s.NodesSettled →
    let sec := r.world == .secure
    nodeTakes s r (exec (.nodeConfig r) s) ((s.ownNode .E (r.u8 0) sec).ownNode .W (r.u8 0) sec)
      [(R.CVC_KN_CFG (r.u8 0), r.w 4), (R.CVC_KN_IN (r.u8 0), r.w 8), (R.CVC_KN_UMIN (r.u8 0), r.w 12),
       (R.CVC_KN_UMAX (r.u8 0), r.w 16), (R.CVC_KN_SCALE (r.u8 0), r.w 20)]) ∧
  (∀ s r, Ready specNodeCoef s r → s.NodesSettled → nodeTakes s r (exec (.nodeCoef r) s) s
    ((List.range 7).map (fun n => (R.CVC_KN_B0 (r.u8 0) + 4 * n, r.w (4 + 4 * n))))) ∧
  (∀ s r, Ready specPwmRun s r → Completes (exec (.pwmRun r) s) (fun t =>
    let a := R.CVC_PP_PER (r.u8 0)
    let ws := (List.range 6).map (fun j => (a + 4 * j, r.w (4 + 4 * j)))
    s.Did t (ws.map Prod.fst) ∧ t.BothHold ws)) ∧
  (∀ s r, Ready specRefSet s r → Completes (exec (.refSet r) s) (fun t =>
    let ws := (List.range (r.u8 1)).map (fun j => (R.CVC_REF (r.u8 0 + j), r.w (4 + 4 * j)))
    s.Did t (ws.map Prod.fst) ∧ t.BothHold ws)) ∧
  (∀ s r, Ready specNodeState s r → Completes (exec (.nodeState r) s) (fun t =>
    let v := sext 32 (r.u32 4)
    s.Did t ((List.range 12).map (fun w => R.CVC_KN_STATE (r.u8 0) 0 0 + 4 * w)) ∧ ∀ l, ∀ h < 6,
      t.nodeState l (r.u8 0) h = (if r.u8 1 = 1 then 0 else if 3 ≤ h then v else s.nodeState l (r.u8 0) h))) ∧
  (∀ s r, Ready specPwmEnable s r → Completes (exec (.pwmEnable r) s) (fun t => s.RegsAside t ∧
    s.Served { t with pwmRecs := s.pwmRecs, urgents := s.urgents } ∧
    t.pwmRecs = s.pwmRecs ++ [⟨s.led.nextLsn, r.u8 2, r.u16 0, false⟩] ∧
    t.urgents = s.urgents ++ [⟨.CMN, (s.reg (s.holderOr .E) R.FERRY_EPOCH).toNat, r.u16 0, r.u8 2, s.sealedCycle, s.led.nextLsn⟩])) ∧
  (∀ s r, Ready specCvcStatus s r → Completes (exec (.cvcStatus r) s) (fun t => s.Told r t (fun d =>
    d.length = 56 ∧ wordAt d 0 = s.reg (s.server r) R.CVC_STATUS ∧ wordAt d 4 = s.reg (s.server r) R.CVC_SELM_STATUS ∧
    ∀ k < 12, wordAt d (8 + 4 * k) = s.reg (s.server r) (R.CVC_SELM_PP_STAT k)))) ∧
  (∀ s r, Ready specAdcRead s r → Completes (exec (.adcRead r) s) (fun t => s.Told r t (fun d =>
    d.length = 4 * r.u8 2 ∧ ∀ i < r.u8 2, wordAt d (4 * i) = s.reg (s.server r) (R.CVC_SEQ_RES (r.u8 0) (r.u8 1 + i))))) ∧
  (∀ s r, Ready specNodeRead s r → Completes (exec (.nodeRead r) s) (fun t => s.Told r t (fun d =>
    d.length = 8 * r.u8 1 ∧ ∀ i < r.u8 1, wordAt d (8 * i) = s.reg (s.server r) (R.CVC_KN_OUT (r.u8 0 + i)) ∧
      wordAt d (8 * i + 4) = s.reg (s.server r) (R.CVC_KN_STAT (r.u8 0 + i)))))

/-- R364, R378 to R388. -/
def Obligations.ConverterSequencesAndNodes : Prop :=
  let stat := fun (q : Nat) => R.CVC_SEQ_STAT q
  let started := fun (s t : State) (l : Lane) (qs : Nat → Bool) => (∀ q < 16,
      (qs q = true → s.bit l (R.CVC_SEQ_CFG q) F.CVC_SEQ_CFG_EN = true → s.cvcRuns l = true → s.seqBusy l q = false →
        t.seqBusy l q = true ∧ t.fld l (stat q) F.CVC_SEQ_STAT_RUNS =
          min (s.fld l (stat q) F.CVC_SEQ_STAT_RUNS + 1) (2 ^ fldWidth F.CVC_SEQ_STAT_RUNS - 1)) ∧
      (qs q = true → s.bit l (R.CVC_SEQ_CFG q) F.CVC_SEQ_CFG_EN = true → s.cvcRuns l = true → s.seqBusy l q = true →
        t.bit l (stat q) F.CVC_SEQ_STAT_OVERRUN = true ∧ t.bit l R.CVC_STATUS F.CVC_STATUS_OVERRUN = true ∧
        t.fld l (stat q) F.CVC_SEQ_STAT_RUNS = s.fld l (stat q) F.CVC_SEQ_STAT_RUNS) ∧
      (qs q = false ∨ s.bit l (R.CVC_SEQ_CFG q) F.CVC_SEQ_CFG_EN = false ∨ s.cvcRuns l = false →
        t.reg l (stat q) = s.reg l (stat q))) ∧
    s.RegsBut (([R.CVC_STATUS, R.CVC_CNT 0, R.CVC_CNT 1, R.CVC_CNT 2] ++ (List.range 16).map stat).map (regKey l.ix)) t ∧
    t.cvc l.other = s.cvc l.other ∧ t = { s with regs := t.regs, cvcE := t.cvcE, cvcW := t.cvcW, bus := t.bus }
  (∀ s l who mask, s.Inv → s.mayWrite l 10 who = true → Completes (exec (.seqSwStart l who mask) s) (fun t =>
    started s t l (fun q => mask.testBit q) ∧ t.bus = .ok 0)) ∧
  (∀ s l who mask, s.mayWrite l 10 who = false → Completes (exec (.seqSwStart l who mask) s) s.Denied) ∧
  (∀ s l k b, s.Inv → s.cvcRuns l = true → k < 12 →
    let cfg := s.reg l (R.CVC_PP_CFG k)
    let en := getF cfg (if b then F.CVC_PP_CFG_TRGB_EN else F.CVC_PP_CFG_TRGA_EN) = 1
    let pos := getF (s.reg l (if b then R.CVC_PP_TRGB k else R.CVC_PP_TRGA k)) F.CVC_PP_TRGA_POS
    (en → pos < (s.pair l k).per → Completes (exec (.triggerPosition l k b) s) (fun t => started s t l (fun q =>
      q == getF cfg (if b then F.CVC_PP_CFG_TRGB_SEQ else F.CVC_PP_CFG_TRGA_SEQ)) ∧ t.bus = s.bus)) ∧
    (¬ en ∨ (s.pair l k).per ≤ pos → exec (.triggerPosition l k b) s = .next s)) ∧
  (∀ s l q codes, s.Inv → s.cvcRuns l = true → q < 16 → s.seqBusy l q = true → (s.seqRt l q).conv = true →
    (s.seqRt l q).step < s.seqLen l q → (s.cvc l).seqs.length = 16 →
    Completes (exec (.adcGroupComplete l q codes) s) (fun t =>
      let j := (s.seqRt l q).step
      let n := (s.groupAdcs l q j).length
      (∀ i < n, t.reg l (R.CVC_SEQ_RES q (j + i)) = BitVec.ofNat 32 ((codes[i]?).getD 0 % 65536 +
        s.fld l (stat q) F.CVC_SEQ_STAT_RUNS % 256 * 2 ^ 24)) ∧
      (j + n < s.seqLen l q → (t.seqRt l q).step = j + n ∧ t.seqBusy l q = true) ∧
      (s.seqLen l q ≤ j + n → t.seqBusy l q = false ∧
        (s.bit l (R.CVC_SEQ_CFG q) F.CVC_SEQ_CFG_KICK_EN = true → (s.cvc l).chain = none → (s.cvc l).chainQ = [] →
          (t.cvc l).chain = some (s.fld l (R.CVC_SEQ_CFG q) F.CVC_SEQ_CFG_KICK_NODE, s.fld l (R.CVC_SEQ_CFG q) F.CVC_SEQ_CFG_KICK_NODE)) ∧
        (s.bit l (R.CVC_SEQ_CFG q) F.CVC_SEQ_CFG_KICK_EN = false → (t.cvc l).chain = (s.cvc l).chain)) ∧
      s.RegsBut (([R.CVC_STATUS, R.CVC_CNT 2, R.CVC_CNT 3, R.CVC_CNT 4, stat q] ++
        (List.range n).map (fun i => R.CVC_SEQ_RES q (j + i))).map (regKey l.ix)) t ∧
      t.cvc l.other = s.cvc l.other ∧ t = { s with regs := t.regs, cvcE := t.cvcE, cvcW := t.cvcW })) ∧
  (∀ s l start i, s.Inv → s.cvcRuns l = true → i < 16 → (s.cvc l).chain = some (start, i) → s.NodesSettled →
    Completes (exec (.nodeExecute l i) s) (fun t =>
      let cfg := s.reg l (R.CVC_KN_CFG i)
      let inp := s.reg l (R.CVC_KN_IN i)
      let e := satS 32 (s.nodeSrc l (getF inp F.CVC_KN_IN_SRC_A) - s.nodeSrc l (getF inp F.CVC_KN_IN_SRC_B))
      let h := fun n => s.nodeState l i n
      let res := nodeForm (getF cfg F.CVC_KN_CFG_FORM) (fun n => sext 32 (s.reg l (R.CVC_KN_B0 i + 4 * n)).toNat) e
        (h 0) (h 1) (h 2) (h 3) (h 4) (h 5) (sext 32 (s.reg l (R.CVC_KN_UMIN i)).toNat) (sext 32 (s.reg l (R.CVC_KN_UMAX i)).toNat)
      let en := getF cfg F.CVC_KN_CFG_EN = 1
      let d := getF cfg F.CVC_KN_CFG_DEST
      let m := getF cfg F.CVC_KN_CFG_DEST_IDX
      let goes := en ∧ getF cfg F.CVC_KN_CFG_NEXT_EN = 1
      (en → t.reg l (R.CVC_KN_OUT i) = BitVec.ofNat 32 (uext 32 res.u) ∧ t.bit l (R.CVC_KN_STAT i) F.CVC_KN_STAT_SAT = res.sat ∧
        (res.ssat = true → t.bit l (R.CVC_KN_STAT i) F.CVC_KN_STAT_STATE_SAT = true) ∧
        (∀ n, n = 1 ∨ n = 2 ∨ n = 4 ∨ n = 5 → t.nodeState l i n = h (n - 1)) ∧
        (d = 3 → t.reg l (R.CVC_PP_PHS m) = BitVec.ofNat 32 (unitsOf (max res.u 0) (s.pair l m).per % 2 ^ 29)) ∧
        (d = 4 → t.reg l (R.CVC_PP_PER m) = BitVec.ofNat 32 (unitsOf (max res.u 0) (s.reg l (R.CVC_KN_SCALE i)).toNat % 2 ^ 29)) ∧
        (d = 5 → t.fld l (R.CVC_CM_STAT m) F.CVC_CM_STAT_THR =
          (max res.u 0 * 1024 / (2 ^ 31 : Nat)).toNat % 2 ^ fldWidth F.CVC_CM_STAT_THR)) ∧
      (¬ en → t.regs = s.regs) ∧
      (goes → (t.cvc l).chain = some (start, getF cfg F.CVC_KN_CFG_NEXT) ∧ (t.cvc l).chainQ = (s.cvc l).chainQ) ∧
      (¬ goes → (t.cvc l).chain = ((s.cvc l).chainQ.head?).map (fun n => (n, n)) ∧ (t.cvc l).chainQ = (s.cvc l).chainQ.tail) ∧
      s.RegsBut (([R.CVC_KN_OUT i, R.CVC_KN_STAT i, R.CVC_PP_AON m, R.CVC_PP_AOFF m, R.CVC_PP_PHS m, R.CVC_PP_PER m, R.CVC_CM_STAT m] ++
        (List.range 12).map (fun w => R.CVC_KN_STATE i 0 0 + 4 * w)).map (regKey l.ix)) t ∧
      t = { s with regs := t.regs, cvcE := t.cvcE, cvcW := t.cvcW }))

/-- R361, R362, R369 to R375, Table 12.1, R162 to R164. -/
def Obligations.ConverterTripsAndSelector : Prop :=
  let selKeys := (List.range 12).map (fun k => dieKey (R.CVC_SEL_PP_STAT k)) ++ (List.range 12).map (fun k => dieKey (R.CVC_SEL_PP_CNT k))
  let trips := fun (s t : State) (src : Nat) => ∀ k < 12,
    ((s.shReg (R.CVC_SEL_PP_MASK k)).toNat.testBit src = true → t.selBit k F.CVC_SEL_PP_STAT_TRIPPED = true ∧
      (t.shFld (R.CVC_SEL_PP_STAT k) F.CVC_SEL_PP_STAT_TRIP_SRC).testBit src = true)
  let kept := fun (s t : State) => ∀ k < 12, (s.selBit k F.CVC_SEL_PP_STAT_TRIPPED = true →
    t.selBit k F.CVC_SEL_PP_STAT_TRIPPED = true) ∧ t.selSt k = s.selSt k
  (∀ s l c out, s.Inv → s.cvcRuns l = true → c < 16 → s.bit l (R.CVC_CM_CFG c) F.CVC_CM_CFG_EN = true →
    Completes (exec (.comparatorAssert l c out) s) (fun t => t.bit l (R.CVC_CM_STAT c) F.CVC_CM_STAT_OUT = out ∧
      (out = true → t.bit l (R.CVC_CM_STAT c) F.CVC_CM_STAT_SEEN = true ∧ (s.lst l = 5 ∨ s.lst l = 4 → trips s t c)) ∧
      kept s t ∧ s.OnlyRegs (regKey l.ix (R.CVC_CM_STAT c) :: selKeys) t)) ∧
  (∀ s i on, s.Inv → i < 8 → s.cmn.up = true → Completes (exec (.tripInputAssert i on) s) (fun t =>
    (t.shFld R.CVC_SEL_STATUS F.CVC_SEL_STATUS_TRIP_IN).testBit i = on ∧
    (∀ j < 8, j ≠ i → (t.shFld R.CVC_SEL_STATUS F.CVC_SEL_STATUS_TRIP_IN).testBit j =
      (s.shFld R.CVC_SEL_STATUS F.CVC_SEL_STATUS_TRIP_IN).testBit j) ∧
    (on = true → trips s t (16 + i)) ∧ kept s t ∧ s.OnlyRegs (dieKey R.CVC_SEL_STATUS :: selKeys) t)) ∧
  (∀ s l k, s.Inv → s.cvcRuns l = true → k < 12 → (s.cvc l).pairs.length = 12 → (s.pair l k).per ≠ 0 → s.pendCommit 10 k l = none →
    Completes (exec (.pwmPeriodBoundary l k) s) (fun t =>
      let x := readRun s l k
      let stays := s.bit l (R.CVC_PP_CFG k) F.CVC_PP_CFG_LOAD_EVT = true ∧ (s.pair l k).loadDue = false
      (stays → { t.pair l k with first := (s.pair l k).first } = s.pair l k) ∧
      (¬ stays → s.runOk l k x = true → t.pair l k = { x with first := false } ∧
        t.bit l (R.CVC_PP_STAT k) F.CVC_PP_STAT_RUNNING = decide (x.per ≠ 0)) ∧
      (¬ stays → s.runOk l k x = false → t.pair l k = { s.pair l k with loadDue := false } ∧
        t.bit l (R.CVC_PP_STAT k) F.CVC_PP_STAT_EDGE_BAD = true ∧ t.bit l R.CVC_STATUS F.CVC_STATUS_CFG_INCONSISTENT = true) ∧
      t.fld l (R.CVC_PP_CNT k) F.CVC_PP_CNT_POS = 0 ∧ (∀ j, j ≠ k → t.pair l j = s.pair l j) ∧
      (s.holder = some l → s.leaseValid l = true → s.selSt k ≠ 2 → ((s.sel k).enable = true ∨ s.selSt k = 3) →
        t.selSt k = 1 ∧ t.selFrom k = l) ∧
      (¬ (s.holder = some l ∧ s.leaseValid l = true) → t.sel k = s.sel k ∧
        s.RegsBut ([R.CVC_PP_STAT k, R.CVC_PP_CNT k, R.CVC_STATUS, R.CVC_CNT 5, R.CVC_CNT 6, R.CVC_CNT 7].map (regKey l.ix)) t ∧
        t = { s with regs := t.regs, cvcE := t.cvcE, cvcW := t.cvcW }) ∧
      (∀ j < 12, j ≠ k → t.selSt j = s.selSt j ∧ t.sel j = s.sel j))) ∧
  (∀ s k h, s.Inv → k < 12 → s.holder = some h → s.selSt k = 2 → s.pendCommit 10 (110 + k) .E = none →
    Completes (exec (.selectorSwitch k) s) (fun t => t.selSt k = 1 ∧ t.selFrom k = h ∧
      t.shFld (R.CVC_SEL_PP_CNT k) F.CVC_SEL_PP_CNT_SWITCHES = min (s.shFld (R.CVC_SEL_PP_CNT k) F.CVC_SEL_PP_CNT_SWITCHES + 1)
        (2 ^ fldWidth F.CVC_SEL_PP_CNT_SWITCHES - 1) ∧ (∀ j < 12, j ≠ k → t.selSt j = s.selSt j ∧ t.sel j = s.sel j))) ∧
  (∀ s l, s.Inv → s.leaseValid l = false → Completes (exec (.streamEnd l) s) (fun t =>
    (∀ k < 12, t.selSt k = (if (s.selSt k = 1 ∧ s.selFrom k = l) ∨ (s.selSt k = 2 ∧ s.answering = false) then 3 else s.selSt k) ∧
      t.selFrom k = s.selFrom k) ∧ s.OnlyRegs ((List.range 12).map (fun k => dieKey (R.CVC_SEL_PP_STAT k))) t)) ∧
  (∀ s k, s.Inv → k < 12 → s.selSt k = 3 → Completes (exec (.safePatternTimeout k) s) (fun t => t.selSt k = 4 ∧
    t.pwDrive k = .safePattern ∧ s.OnlyRegs [dieKey (R.CVC_SEL_PP_STAT k)] t)) ∧
  (∀ s k, s.selSt k ≠ 3 → exec (.safePatternTimeout k) s = .next s)

/-- Tables 13.9 and 13.10, CAN_CTLn and LIN_CTLp. -/
def Obligations.CanAndLinCommands : Prop :=
  let held := fun (s : State) (_ : Req) (t : State) (block region : Nat) (ws : List RegCell) => s.Stages t ∧
    ∀ c ∈ ws, t.CarriesAt (s.holderOr .E) block region s.led.nextLsn c
  let recorded := fun (s t : State) (op : CmnOp) => s.RegsAside t ∧ s.Served { t with cmnRecs := s.cmnRecs } ∧
    t.cmnRecs = s.cmnRecs ++ [⟨op, some s.led.nextLsn, false⟩]
  (∀ s r, Ready specCanPortConfig s r → Completes (exec (.canPortConfig r) s) (fun t => held s r t 11 (r.u8 0)
    [(R.CAN_PCFG (r.u8 0), r.w 4), (R.CAN_NBT (r.u8 0), r.w 8), (R.CAN_DBT (r.u8 0), r.w 12), (R.CAN_XBT (r.u8 0), r.w 16),
     (R.CAN_TDC (r.u8 0), r.w 20), (R.CAN_XPWM (r.u8 0), r.w 24)])) ∧
  (∀ s r, Ready specCanFilterSet s r → Completes (exec (.canFilterSet r) s) (fun t =>
    let n := r.u16 2
    s.RegsAside t ∧ s.Staged { t with fltQ := s.fltQ, freeCtr := s.freeCtr } ∧ ∃ base, base + n ≤ 8192 ∧
      (∀ i < n, s.elemUsed (s.cfgLane r) (base + i) = false) ∧
      t.fltQ = s.fltQ ++ (List.range n).map (fun i => ⟨base + i, r.w (4 + 8 * i), r.w (8 + 8 * i), false⟩) ∧
      t.CarriesAt (s.holderOr .E) 11 (32 + r.u8 0) s.led.nextLsn (R.CAN_FLT (r.u8 0), BitVec.ofNat 32 (base + n * 65536)))) ∧
  (∀ s r, Ready specCanTrxSet s r → Completes (exec (.canTrxSet r) s) (fun t => held s r t 11 (r.u8 0)
    [(R.CAN_TRX (r.u8 0), BitVec.ofNat 32 (r.u8 1 + 0x10 * r.u8 2 + 0x40 * r.u8 3))])) ∧
  (∀ s r, Ready specCanWakeFrame s r → Completes (exec (.canWakeFrame r) s) (fun t => held s r t 11 (r.u8 0)
    [(R.CAN_WUF_ID (r.u8 0), r.w 4), (R.CAN_WUF_MASK (r.u8 0), r.w 8), (R.CAN_WUF_DLO (r.u8 0), r.w 12),
     (R.CAN_WUF_DHI (r.u8 0), r.w 16), (R.CAN_WUF_CFG (r.u8 0), r.w 20)])) ∧
  (∀ s r, Ready specCanInhMap s r → Completes (exec (.canInhMap r) s) (fun t => held s r t 11 (16 + r.u8 0)
    [(R.CAN_INH_MAP (r.u8 0), r.w 4)])) ∧
  (∀ s r, Ready specCanRecover s r → Completes (exec (.canRecover r) s) (fun t => recorded s t (.canRecover (r.u16 0)))) ∧
  (∀ s r, Ready specCanStatus s r → Completes (exec (.canStatus r) s) (fun t => s.Told r t (fun d =>
    d.length = 16 * r.u8 1 ∧ ∀ i < r.u8 1, ∀ k < 4,
      wordAt d (16 * i + 4 * k) = s.reg (s.server r) (R.CAN_MIR (r.u8 0 + i) (if k = 3 then 6 else k))))) ∧
  (∀ s r, Ready specCanSend s r → s.portUp (r.u8 13) → Completes (exec (.canSend r) s) (fun t =>
    let n := r.u8 13
    let x := s.canPort n
    s.RegsAside t ∧ s.Served { t with canPorts := s.canPorts } ∧ (∀ m, m ≠ n → t.canPorts[m]? = s.canPorts[m]?) ∧
    t.canPort n = { x with
      nextSeq := (x.nextSeq + 1) % 65536,
      held := x.held ++ [⟨x.nextSeq, r.bytes 0 16, r.payload.drop 16, some s.led.nextLsn, none,
        if r.hasDeadline then some (s.now + r.deadline) else none⟩] })) ∧
  (∀ s r, Ready specLinConfig s r → Completes (exec (.linConfig r) s) (fun t => held s r t 12 (r.u8 0)
    [(R.LIN_CFG (r.u8 0), r.w 4), (R.LIN_TIME (r.u8 0), r.w 8), (R.LIN_SCHED (r.u8 0), r.w 12)])) ∧
  (∀ s r, Ready specLinFrame s r → Completes (exec (.linFrame r) s) (fun t => held s r t 12 (r.u8 0)
    [(R.LIN_FR_CFG (r.u8 0) (r.u8 1), r.w 4), (R.LIN_FR_DATA (r.u8 0) (r.u8 1) 0, r.w 8),
     (R.LIN_FR_DATA (r.u8 0) (r.u8 1) 1, r.w 12)])) ∧
  (∀ s r, Ready specLinSchedule s r → Completes (exec (.linSchedule r) s) (fun t => held s r t 12 (r.u8 0)
    ((List.range (r.u8 2)).map (fun i => (R.LIN_SLOT (r.u8 0) (r.u8 1 + i), r.w (4 + 4 * i)))))) ∧
  (∀ s r, Ready specLinWake s r → Completes (exec (.linWake r) s) (fun t => recorded s t (.linWake (r.u8 0)))) ∧
  (∀ s r, Ready specLinStatus s r → Completes (exec (.linStatus r) s) (fun t => s.Told r t (fun d =>
    d.length = 32 ∧ ∀ p < 8, wordAt d (4 * p) = s.reg (s.server r) (R.LIN_MIR_STAT p)))) ∧
  (∀ s r, Ready specLinRead s r → Completes (exec (.linRead r) s) (fun t =>
    let st := R.LIN_FR_STAT (r.u8 0) (r.u8 1)
    let mir := R.LIN_MIR_FR (r.u8 0) (r.u8 1)
    s.Replied r t (fun d => d.length = 12 ∧ ∀ k < 3, wordAt d (4 * k) = s.reg (s.server r) (mir (k + 1))) ∧
    t.shBit st F.LIN_FR_STAT_FRESH = false ∧ (∀ l, t.bit l (mir 3) F.LIN_FR_STAT_FRESH = false) ∧
    t.shFld st F.LIN_FR_STAT_COUNT = s.shFld st F.LIN_FR_STAT_COUNT ∧
    s.AsideBut [st, mir 3] t ∧ s.Served t)) ∧
  (∀ s l who n,
    (s.mayWrite l 11 who = true → n < 16 → exec (.canCtlRecover l who n) s = .next { s with
      bus := .ok 0,
      cmnRecs := s.cmnRecs ++ (if s.leaseValid l then [⟨.canRecover (2 ^ n), none, false⟩] else []) }) ∧
    (s.mayWrite l 12 who = true → n < 8 → exec (.linCtlWake l who n) s = .next { s with
      bus := .ok 0,
      cmnRecs := s.cmnRecs ++ (if s.leaseValid l then [⟨.linWake (2 ^ n), none, false⟩] else []) }) ∧
    (s.mayWrite l 11 who = false → Completes (exec (.canCtlRecover l who n) s) s.Denied ∧
      Completes (exec (.rxDone l who n) s) s.Denied ∧ Completes (exec (.canTsRead l who) s) s.Denied) ∧
    (s.mayWrite l 12 who = false → Completes (exec (.linCtlWake l who n) s) s.Denied))

/-- R398 to R416; Tables 13.3 and 13.5. R420 to R422, Table 13.8. -/
def Obligations.CanAndLinEvents : Prop :=
  (∀ s n (f : CanFrame) rec, s.Inv → n < 16 → s.cmnRuns = true → (s.canTrx n = 0 ∨ s.canTrx n = 1) →
    fmtOn (s.shReg (R.CAN_PCFG n)) f.fmt = true → s.canErr n < 2 → f.data.length ≤ 2048 → s.portUp n →
    Completes (exec (.canFrameReceived n f rec) s) (fun t =>
      let cfg := s.shReg (R.CAN_PCFG n)
      let hit := s.filterHit n f
      let all := getF cfg F.CAN_PCFG_ACCEPT_ALL = 1
      let taken := s.sessionFrame n f = false
      let dest := fun (k : Nat) (g : Fld) => match hit with
        | some e => (s.shReg (R.CAN_FLTRAM e k)).toNat.testBit 31
        | none => decide all && (getF cfg g == 1)
      let rx := taken ∧ dest 0 F.CAN_PCFG_AA_RX = true
      let hb := taken ∧ dest 1 F.CAN_PCFG_AA_HARB = true
      let m : CanMsg := ⟨canHdr f (hit.getD 0xFFFF) false, f.data⟩
      t.shFld (R.CAN_STAT n) F.CAN_STAT_REC = min rec 255 ∧ s.Counts t .E (R.CAN_CNT n 0) ∧
      (s.mod_.frozen = false → t.canHeld = s.canHeld ∧ ∀ l,
        (rx ∧ s.takesFrames l = true → s.Offered t l n m) ∧
        (¬ (rx ∧ s.takesFrames l = true) → t.canRx l n = s.canRx l n ∧ ∀ k ∈ canRxKeys l n, rfGet t.regs k = rfGet s.regs k) ∧
        t.harbIn l = s.harbIn l ++ (if hb ∧ s.takesFrames l = true then [harbOfCan n m] else [])) ∧
      (s.mod_.frozen = true → t.canRxE = s.canRxE ∧ t.canRxW = s.canRxW ∧ t.harbInE = s.harbInE ∧ t.harbInW = s.harbInW ∧
        t.canHeld = s.canHeld ++ (if rx ∨ hb then [(n, m, decide rx, decide hb)] else [])) ∧
      (∀ l, ∀ k, k ≠ n → (t.canRx l k).fifo = (s.canRx l k).fifo ∧ (t.canRx l k).shadow = (s.canRx l k).shadow) ∧
      s.RegsBut ([dieKey (R.CAN_STAT n), dieKey (R.CAN_CNT n 0), regKey 0 R.HARB_STATUS, regKey 1 R.HARB_STATUS] ++
        canRxKeys .E n ++ canRxKeys .W n) t ∧
      t = { s with regs := t.regs, canRxE := t.canRxE, canRxW := t.canRxW, harbInE := t.harbInE, harbInW := t.harbInW,
                   canHeld := t.canHeld, irqs := t.irqs })) ∧
  (∀ s l who n, s.Inv → s.mayWrite l 11 who = true → n < 16 → (∀ m ∈ (s.canRx l n).shadow, m.hdr.length ≤ 8 ∧ m.data.length ≤ 2048) →
    Completes (exec (.rxDone l who n) s) (fun t =>
      let a := R.CAN_RX_CTL n
      let x := s.canRx l n
      let valid := s.bit l a F.CAN_RX_CTL_CUR_VALID
      (valid = false → t.bit l a F.CAN_RX_CTL_DONE_IDLE = true ∧ t.canRx l n = x ∧ t.bit l a F.CAN_RX_CTL_CUR_VALID = false) ∧
      (valid = true → x.shadow = none → t.bit l a F.CAN_RX_CTL_CUR_VALID = false ∧ t.canRx l n = x) ∧
      (valid = true → ∀ m ∈ x.shadow, t.curIs l n m ∧ t.canRx l n = { x with shadow := x.fifo.head?, fifo := x.fifo.tail }) ∧
      (valid = true → t.fld l a F.CAN_RX_CTL_COUNT = (b2n (t.bit l a F.CAN_RX_CTL_CUR_VALID) +
        b2n (t.canRx l n).shadow.isSome + (t.canRx l n).fifo.length) % 2 ^ fldWidth F.CAN_RX_CTL_COUNT) ∧
      t.bus = .ok 0 ∧ t.canRx l.other n = s.canRx l.other n ∧ s.RegsBut (canRxKeys l n) t ∧
      t = { s with regs := t.regs, canRxE := t.canRxE, canRxW := t.canRxW, irqs := t.irqs, bus := t.bus })) ∧
  (∀ s l who, s.Inv → s.mayWrite l 11 who = true → Completes (exec (.canTsRead l who) s) (fun t =>
    t.bus = .ok (t.shReg R.CAN_TS_LO) ∧
    (t.shReg R.CAN_TS_LO).toNat + (t.shReg R.CAN_TS_HI).toNat * 2 ^ 32 = s.now * 200 % 2 ^ 64 ∧
    s.OnlyRegs [dieKey R.CAN_TS_LO, dieKey R.CAN_TS_HI] { t with bus := s.bus })) ∧
  (∀ s n l seq differs x, s.Inv → n < 16 → s.cmn.up = true → s.mod_.frozen = false → s.takesFrames l = true →
    (s.canPort n).held.find? (fun u => u.seq == seq) = some x → seqAhead16 seq (s.shFld (R.CAN_TXQ n) F.CAN_TXQ_LAST_SEQ) = true →
    (s.canPort n).queue.length < 32 → s.arb.held = some l →
    Completes (exec (.canFrameQueued n l seq differs) s) (fun t =>
      t.shFld (R.CAN_TXQ n) F.CAN_TXQ_LAST_SEQ = seq % 65536 ∧
      (t.canPort n).held = (s.canPort n).held.filter (fun u => u.seq != seq) ∧
      (s.canRefused n x = none → (∀ d ∈ x.deadline, s.now ≤ d) → x ∈ (t.canPort n).queue ∧
        t.shFld (R.CAN_TXQ n) F.CAN_TXQ_FILL = (t.canPort n).queue.length) ∧
      (∀ e ∈ s.canRefused n x, (t.canPort n).queue = (s.canPort n).queue ∧ ∀ k ∈ x.lsn, s.Disposes t k e.1 e.2))) ∧
  (∀ s n l seq differs, s.Inv → n < 16 → s.cmn.up = true → s.mod_.frozen = false → s.takesFrames l = true →
    (s.canPort n).held.find? (fun u => u.seq == seq) = none → (differs = true → (s.canPort n).last = none) →
    (s.canCfg n F.CAN_PCFG_SEQUENCED = true → seqAhead16 seq (s.shFld (R.CAN_TXQ n) F.CAN_TXQ_LAST_SEQ) = false →
      Completes (exec (.canFrameQueued n l seq differs) s) (fun t => s.Counts t .E (R.CAN_CNT n 3) ∧
        s.OnlyRegs [dieKey (R.CAN_CNT n 3)] t)) ∧
    (s.canCfg n F.CAN_PCFG_SEQUENCED = false → exec (.canFrameQueued n l seq differs) s = .next s)) ∧
  (∀ s n stamp tec x, s.Inv → n < 16 → s.cmnRuns = true → s.canCurrent n = some x →
    Completes (exec (.canTxDone n stamp tec) s) (fun t =>
      s.Counts t .E (R.CAN_CNT n 1) ∧ t.shFld (R.CAN_STAT n) F.CAN_STAT_TEC = min tec 255 ∧
      t.outbox = s.outbox ++ [.canTx n (x.hdr ++ x.data)] ∧ (∀ k ∈ x.lsn, s.Disposes t k dDONE 0) ∧
      (∀ u ∈ (t.canPort n).queue, u.seq ≠ x.seq ∧ u ∈ (s.canPort n).queue) ∧
      (s.canCfg n F.CAN_PCFG_TX_ECHO = true → s.mod_.frozen = false → x.data.length ≤ 2048 → ∀ l, s.takesFrames l = true →
        (t.canRx l n).seq = ((s.canRx l n).seq + 1) % 65536) ∧
      t.shFld (R.CAN_STAT n) F.CAN_STAT_ERRST = s.canErr n ∧ t.canHeld.length ≤ s.canHeld.length + 1 ∧
      t.harbInE = s.harbInE ∧ t.harbInW = s.harbInW)) ∧
  (∀ s n tec rec x lec, s.Inv → n < 16 → s.cmnRuns = true → s.canCurrent n = some x → lec < 8 →
    let once := x.oneshot = true ∨ s.canCfg n F.CAN_PCFG_ONESHOT_ALL = true
    Completes (exec (.canTxError n .arbitration tec rec) s) (fun t =>
      (once → (∀ u ∈ (t.canPort n).queue, u.seq ≠ x.seq) ∧ ∀ k ∈ x.lsn, s.Disposes t k dFAILED eARB_LOST) ∧
      (¬ once → (∀ d ∈ x.deadline, s.now ≤ d) → x ∈ (t.canPort n).queue) ∧
      t.shReg (R.CAN_STAT n) = s.shReg (R.CAN_STAT n)) ∧
    Completes (exec (.canTxError n (.error lec) tec rec) s) (fun t =>
      s.Counts t .E (R.CAN_CNT n 2) ∧ t.shFld (R.CAN_STAT n) F.CAN_STAT_LEC = lec ∧
      t.shFld (R.CAN_STAT n) F.CAN_STAT_TEC = min tec 255 ∧ t.shFld (R.CAN_STAT n) F.CAN_STAT_REC = min rec 255 ∧
      t.canErr n = (if 255 < tec then 2 else if 128 ≤ tec ∨ 128 ≤ rec then 1 else 0) ∧
      (255 < tec → (t.canPort n).queue = [] ∧ (t.canPort n).held = (s.canPort n).held ∧
        ∀ u ∈ (s.canPort n).queue, ∀ k ∈ u.lsn, s.Disposes t k dFAILED eBUS_OFF) ∧
      (tec ≤ 255 → once → (∀ u ∈ (t.canPort n).queue, u.seq ≠ x.seq) ∧ ∀ k ∈ x.lsn, s.Disposes t k dFAILED eTX_ERROR) ∧
      (tec ≤ 255 → ¬ once → (∀ d ∈ x.deadline, s.now ≤ d) → x ∈ (t.canPort n).queue))) ∧
  (∀ s n, s.Inv → n < 16 → s.cmnRuns = true → (s.canErr n = 3 → Completes (exec (.busOffRecovered n) s) (fun t =>
      t.canErr n = 0 ∧ t.shFld (R.CAN_STAT n) F.CAN_STAT_TEC = 0 ∧ t.shFld (R.CAN_STAT n) F.CAN_STAT_REC = 0 ∧
      t.canTrx n = s.canTrx n ∧ (∀ w ∈ s.canWork, w.2 = 2 ^ n → s.canPhy n = false → s.Disposes t w.1 dDONE 0))) ∧
    (s.canErr n ≠ 3 → exec (.busOffRecovered n) s = .next s)) ∧
  (∀ s n seen, s.Inv → n < 16 → s.cmnRuns = true → (s.canTrx n = 2 ∨ s.canTrx n = 3) → s.portCove n = none →
    let mode := s.shFld (R.CAN_TRX n) F.CAN_TRX_WAKE_MODE
    let fec := s.shFld (R.CAN_WAKE n) F.CAN_WAKE_FEC
    let src := match seen with
      | .dominant => if mode = 1 then 1 else 0
      | .pattern => if mode = 2 then 2 else 0
      | .frame id ext dlc data => if mode = 3 ∧ s.wufMatch n id ext dlc data = true then 3 else 0
      | .badFrame => if mode = 3 ∧ 31 ≤ fec then 4 else 0
    Completes (exec (.canWake n seen) s) (fun t =>
      (src ≠ 0 → t.shBit (R.CAN_WAKE n) F.CAN_WAKE_WOKE = true ∧ t.shFld (R.CAN_WAKE n) F.CAN_WAKE_SRC = src ∧
        t.canTrx n = s.shFld (R.CAN_TRX n) F.CAN_TRX_TRX) ∧
      (src = 0 → s.OnlyRegs [dieKey (R.CAN_WAKE n)] t ∧
        t.shBit (R.CAN_WAKE n) F.CAN_WAKE_WOKE = s.shBit (R.CAN_WAKE n) F.CAN_WAKE_WOKE) ∧
      t.shFld (R.CAN_WAKE n) F.CAN_WAKE_FEC = (match seen with
        | .frame _ _ _ _ => if mode = 3 then fec - 1 else fec
        | .badFrame => if mode = 3 then min (fec + 1) 32 else fec
        | _ => fec))) ∧
  (∀ s n, s.Inv → n < 16 → s.cmnRuns = true →
    Completes (exec (.canPhyFault n true) s) (fun t => t.canPhy n = true ∧ (t.canPort n).queue = [] ∧ (t.canPort n).held = [] ∧
      (t.canPort n).phyTest = false ∧ t.shFld (R.CAN_TXQ n) F.CAN_TXQ_FILL = 0 ∧
      (∀ u ∈ (s.canPort n).queue ++ (s.canPort n).held, ∀ k ∈ u.lsn, s.Disposes t k dUNDELIVERABLE ePORT_PHY) ∧
      ((s.canPort n).phyTest = true → ∀ w ∈ s.canWork, w.2.testBit n = true →
        (∀ u ∈ (s.canPort n).queue ++ (s.canPort n).held, u.lsn ≠ some w.1) → s.Disposes t w.1 dFAILED ePHY_STILL)) ∧
    ((s.canPort n).phyTest = true → Completes (exec (.canPhyFault n false) s) (fun t => t.canPhy n = false ∧
      (t.canPort n).phyTest = false)) ∧
    ((s.canPort n).phyTest = false → exec (.canPhyFault n false) s = .next s) ∧
    Completes (exec (.dominantTimeout n true) s) (fun t => t.shBit (R.CAN_STAT n) F.CAN_STAT_DOM_CLAMP = true ∧
      t.canErr n = s.canErr n ∧ t.canTrx n = s.canTrx n ∧ s.OnlyRegs [dieKey (R.CAN_STAT n)] t) ∧
    exec (.dominantTimeout n false) s = .next s) ∧
  ((∀ s p, s.Inv → p < 8 → s.linMaySend = true → s.linCommander p = true → s.shBit (R.LIN_SCHED p) F.LIN_SCHED_EN = true →
    s.linSt p ≠ 1 → (s.lin p).pulseEnd = none → Completes (exec (.linSlot p) s) (fun t =>
      let n := s.shFld (R.LIN_SCHED p) F.LIN_SCHED_LEN_M1 + 1
      let k := (s.lin p).slot % n
      let pid := s.shFld (R.LIN_SLOT p k) F.LIN_SLOT_PID
      t.outbox = s.outbox ++ [.linTx p pid []] ∧ t.linSt p = 0 ∧ t.shFld (R.LIN_STAT p) F.LIN_STAT_LAST_PID = pid ∧
      t.lin p = { s.lin p with slot := (k + 1) % n } ∧ (∀ q, q ≠ p → t.lins[q]? = s.lins[q]?) ∧
      s.RegsBut [dieKey (R.LIN_STAT p)] t ∧ t = { s with regs := t.regs, lins := t.lins, outbox := t.outbox })) ∧
  (∀ s p, s.linMaySend = false ∨ s.linCommander p = false ∨ s.shBit (R.LIN_SCHED p) F.LIN_SCHED_EN = false ∨ s.linSt p = 1 ∨
    (s.lin p).pulseEnd.isSome = true → exec (.linSlot p) s = .next s) ∧
  (∀ s p pid (e : LinEnd), s.Inv → p < 8 → pid < 64 → s.cmnRuns = true → s.linSt p ≠ 1 → s.portUp (16 + p) → e.err < 8 →
    let cfg := s.shReg (R.LIN_CFG p)
    let bad := s.linCommander p = false ∧ syncErr (getF cfg F.LIN_CFG_AUTOBAUD == 1) (getF cfg F.LIN_CFG_BAUD) e.rate = true
    let ent := s.shReg (R.LIN_FR_CFG p pid)
    let dir := if getF ent F.LIN_FR_CFG_EN = 1 then getF ent F.LIN_FR_CFG_DIR else 0
    let len := getF ent F.LIN_FR_CFG_LEN
    let st := R.LIN_FR_STAT p pid
    let acts := dir = 2 ∨ (dir = 1 ∧ s.linMaySend = true)
    Completes (exec (.linResponse p pid e) s) (fun t =>
      (s.linCommander p = false → t.shFld (R.LIN_STAT p) F.LIN_STAT_RATE = e.rate % 65536) ∧
      (bad → t.shBit (R.LIN_STAT p) F.LIN_STAT_SYNC_ERR = true) ∧
      (bad ∨ e.parityOk = false → s.OnlyRegs [dieKey (R.LIN_STAT p)] t ∧ t.linSt p = s.linSt p) ∧
      (¬ bad → e.parityOk = true →
        t.linSt p = 0 ∧ t.shFld (R.LIN_STAT p) F.LIN_STAT_LAST_PID = pid ∧
        (acts → t.shFld st F.LIN_FR_STAT_COUNT = min (s.shFld st F.LIN_FR_STAT_COUNT + 1) 65535 ∧
          t.shFld st F.LIN_FR_STAT_ERR = e.err) ∧
        (¬ acts → t.shReg st = s.shReg st) ∧
        t.outbox = s.outbox ++ (if dir = 1 ∧ s.linMaySend = true then [.linTx p pid ((wordBytes (s.shReg (R.LIN_FR_DATA p pid 0)) ++
          wordBytes (s.shReg (R.LIN_FR_DATA p pid 1))).take len)] else []) ∧
        (dir = 2 → e.err = 0 → t.shBit st F.LIN_FR_STAT_FRESH = true ∧
          t.shReg (R.LIN_FR_DATA p pid 0) = wordAt (padTo 8 (e.data.take len)) 0 ∧
          t.shReg (R.LIN_FR_DATA p pid 1) = wordAt (padTo 8 (e.data.take len)) 4) ∧
        (s.mod_.frozen = false → ∀ l, t.harbIn l = s.harbIn l ++ (if dir = 2 ∧ e.err = 0 ∧ s.takesFrames l = true then
          [⟨false, 1, p, pid, e.data.take len, s.stampNow⟩] else [])) ∧
        s.RegsBut ([R.LIN_STAT p, st, R.LIN_FR_DATA p pid 0, R.LIN_FR_DATA p pid 1].map dieKey ++ bothKeys R.HARB_STATUS) t ∧
        t = { s with regs := t.regs, outbox := t.outbox, harbInE := t.harbInE, harbInW := t.harbInW, harbHeld := t.harbHeld }))) ∧
  (∀ s p, s.Inv → p < 8 → s.cmnRuns = true →
    (s.linCommander p = false → Completes (exec (.linInactivitySleep p) s) (fun t => t.linSt p = 1 ∧ s.OnlyRegs [dieKey (R.LIN_STAT p)] t)) ∧
    (s.linCommander p = true → exec (.linInactivitySleep p) s = .next s) ∧
    (s.linSt p = 1 → s.portCove (16 + p) = none → Completes (exec (.linWakeDetect p) s) (fun t =>
      t.shBit (R.LIN_STAT p) F.LIN_STAT_WOKE = true ∧ t.linSt p = 2 ∧ t.lin p = { s.lin p with slot := 0 } ∧
      (∀ k < 4, (s.shReg (R.CAN_INH_MAP k)).toNat.testBit (16 + p) = true → t.mod_.inh[k]? = (s.mod_.inh[k]?).map (fun _ => true)) ∧
      (∀ k < 4, s.mod_.inh[k]? = some true → t.mod_.inh[k]? = some true) ∧
      s.RegsBut [dieKey (R.LIN_STAT p)] t ∧
      t = { s with regs := t.regs, lins := t.lins, mod_ := { s.mod_ with inh := t.mod_.inh },
                   ferry := { s.ferry with quietWake := t.ferry.quietWake } })) ∧
    (s.linSt p ≠ 1 → exec (.linWakeDetect p) s = .next s)))

/-- Tables 14.8 and 14.9. -/
def Obligations.EthAndTimeCommands : Prop :=
  let held := fun (s t : State) (block region : Nat) (ws : List RegCell) => s.Stages t ∧
    ∀ c ∈ ws, t.CarriesAt (s.holderOr .E) block region s.led.nextLsn c
  let recorded := fun (s t : State) (op : CmnOp) => s.RegsAside t ∧ s.Served { t with cmnRecs := s.cmnRecs } ∧
    t.cmnRecs = s.cmnRecs ++ [⟨op, some s.led.nextLsn, false⟩]
  (∀ s r, Ready specEthStatus s r → Completes (exec (.ethStatus r) s) (fun t => s.Told r t (fun d =>
    d.length = 16 * r.u8 1 ∧ ∀ i < r.u8 1,
      wordAt d (16 * i) = s.reg (s.server r) (R.ETHS_MIR_STAT (r.u8 0 + i)) ∧
      ∀ k < 3, wordAt d (16 * i + 4 * k + 4) = s.reg (s.server r) (R.ETHS_MIR_CNT (r.u8 0 + i) (if k = 0 then 0 else k + 1))))) ∧
  (∀ s r, Ready specEthPortConfig s r → Completes (exec (.ethPortConfig r) s) (fun t => held s t 13 (r.u8 0)
    [(R.ETHS_P_CFG (r.u8 0), r.w 4), (R.ETHS_P_CYCLE (r.u8 0), r.w 8), (R.ETHS_P_BASE_NS (r.u8 0), r.w 12),
     (R.ETHS_P_BASE_SLO (r.u8 0), r.w 16), (R.ETHS_P_BASE_SHI (r.u8 0), r.w 20), (R.ETHS_P_QMAX (r.u8 0), r.w 24),
     (R.ETHS_P_WAKE (r.u8 0), r.w 28)])) ∧
  (∀ s r, Ready specEthGclSet s r → Completes (exec (.ethGclSet r) s) (fun t => held s t 13 (32 + r.u8 0)
    (s.cfgWith r (R.ETHS_P_CFG (r.u8 0)) F.ETHS_P_CFG_GCL_LEN_M1 (r.u16 2 - 1) ::
      (List.range (r.u16 2)).map (fun j => (R.ETHS_P_GCL (r.u8 0) j, r.w (4 + 4 * j)))))) ∧
  (∀ s r, Ready specEthStreamSet s r → Completes (exec (.ethStreamSet r) s) (fun t =>
    let m := getF (r.w 20) F.ETHS_SF_W0_METER
    held s t 13 65 [(R.ETHS_SID_W0 (r.u16 2), r.w 4), (R.ETHS_SID_W1 (r.u16 2), r.w 8), (R.ETHS_SID_W2 (r.u16 2), r.w 12),
      (R.ETHS_SF_W0 (r.u16 0), r.w 20), (R.ETHS_SF_W1 (r.u16 0), r.w 24), (R.ETHS_FM_CIR m, r.w 36), (R.ETHS_FM_EIR m, r.w 40),
      (R.ETHS_FM_CBS m, r.w 44), (R.ETHS_FM_EBS m, r.w 48)])) ∧
  (∀ s r, Ready specEthFrerSet s r → Completes (exec (.ethFrerSet r) s) (fun t => held s t 13 65
    [(R.ETHS_FR_CFG (r.u8 0), r.w 4)])) ∧
  (∀ s r, Ready specEthMacsecSa s r → Completes (exec (.ethMacsecSa r) s) (fun t => s.RegsAside t ∧
    s.Served { t with eth := s.eth } ∧ t.eth = { s.eth with saQ := s.eth.saQ ++ [(⟨r.u8 0, r.u8 1, r.u8 2, r.u8 3, r.u8 4, r.u 8 8,
      r.u 16 8, r.u32 24⟩, s.led.nextLsn, false)] })) ∧
  (∀ s r, Ready specEthCtrlClass s r → Completes (exec (.ethCtrlClass r) s) (fun t => held s t 13 64 [(R.ETHS_CTRL, r.w 0)])) ∧
  (∀ s r, Ready specTc10Wake s r → Completes (exec (.tc10Wake r) s) (fun t => recorded s t (.tc10Wake (r.u16 0)))) ∧
  (∀ s r, Ready specTimeStatus s r → Completes (exec (.timeStatus r) s) (fun t => s.Told r t (fun d =>
    let n := r.u8 0
    let ns := s.tbNs n
    d.length = 20 ∧ wordAt d 0 = BitVec.ofNat 32 (ns % 1000000000) ∧ wordAt d 4 = BitVec.ofNat 32 (ns / 1000000000) ∧
    fieldAt d 8 2 = ns / 1000000000 / 2 ^ 32 % 65536 ∧ wordAt d 12 = s.shReg (R.TIME_TB_FREQ n) ∧
    wordAt d 16 = s.shReg (R.TIME_TB_STAT n)))) ∧
  (∀ s r, Ready specTimeConfig s r → Completes (exec (.timeConfig r) s) (fun t => held s t 14 (r.u8 0)
    [(R.TIME_TB_CFG (r.u8 0), r.w 4), (R.TIME_TB_GAIN (r.u8 0), r.w 8), (R.TIME_TB_STEP (r.u8 0), r.w 12),
     (R.TIME_TB_LOCK (r.u8 0), r.w 16)])) ∧
  (∀ s r, Ready specTimeSet s r → Completes (exec (.timeSet r) s) (fun t => recorded s t
    (.timeSet (r.u8 0) (r.u 2 6 * 1000000000 + r.u32 8)))) ∧
  (∀ s r, Ready specTimeComp s r → Completes (exec (.timeComp r) s) (fun t => held s t 14 (8 + r.u8 0)
    [(R.TIME_P_EGR (r.u8 0), r.w 4), (R.TIME_P_ING (r.u8 0), r.w 8), (R.TIME_P_ASYM (r.u8 0), r.w 12)])) ∧
  (∀ s r, Ready specTimeCapture s r → Completes (exec (.timeCapture r) s) (fun t => s.Told r t (fun d =>
    d.length = 20 ∧ ∀ w < 5, wordAt d (4 * w) = s.shReg (R.TIME_TB_XCAP (r.u8 0) w))))

/-- R446 to R454. R428, R440, R445, R456, R457. -/
def Obligations.TimeBasesAndEthernetPorts : Prop :=
  let stat := fun (n : Nat) => R.TIME_TB_STAT n
  let onlyTb := fun (s t : State) (n : Nat) => (∀ m, m ≠ n → t.tbs[m]? = s.tbs[m]?) ∧ t.mem = s.mem ∧ t.led = s.led ∧
    t.outbox = s.outbox ∧ t.commits = s.commits ∧ t.calUs = s.calUs
  (∀ s l who n hi, s.Inv → s.mayWrite l 14 who = true → n < 4 → s.pendCommit 14 (20 + n) .E = none →
    Completes (exec (.servoSample l who n hi) s) (fun t =>
      let o := sext 64 ((s.shReg (R.TIME_TB_OFS_LO n)).toNat + hi.toNat * 2 ^ 32)
      let us := s.shFld (R.TIME_TB_OFS_T n) F.TIME_TB_OFS_T_T_US
      let x := s.tb n
      let servo := s.shBit (R.TIME_TB_CFG n) F.TIME_TB_CFG_SERVO_EN = true
      let far := s.shBit (R.TIME_TB_CFG n) F.TIME_TB_CFG_STEP_EN = true ∧
        s.shFld (R.TIME_TB_STEP n) F.TIME_TB_STEP_STEP_NS * 65536 ≤ o.natAbs
      let k := fun (f : Fld) => Frac.mk' (s.shFld (R.TIME_TB_GAIN n) f) 32768
      let rate := Frac.mk' ((Frac.mk' o 65536).num * 1000000) ((Frac.mk' o 65536).den * us)
      let i := clampPpb (.add x.integ (.mul (k F.TIME_TB_GAIN_KI) rate))
      let good := o.natAbs < s.shFld (R.TIME_TB_LOCK n) F.TIME_TB_LOCK_LOCK_NS * 65536
      let run := if good then min (x.run + 1) 8 else 0
      t.bus = .ok 0 ∧ t.shReg (R.TIME_TB_OFS_HI n) = hi ∧
      (s.tbRunning n = false → s.OnlyRegs [dieKey (R.TIME_TB_OFS_HI n)] { t with bus := s.bus }) ∧
      (s.tbRunning n = true → us = 0 → t.shBit (stat n) F.TIME_TB_STAT_SAMPLE_BAD = true ∧
        s.OnlyRegs [dieKey (R.TIME_TB_OFS_HI n), dieKey (stat n)] { t with bus := s.bus }) ∧
      (s.tbRunning n = true → us ≠ 0 → t.shBit (stat n) F.TIME_TB_STAT_HOLDOVER = false ∧
        (servo → far → t.tb n = ⟨((x.t : Int) - o * 65536).toNat, .zero, 0, true⟩ ∧
          t.shBit (stat n) F.TIME_TB_STAT_STEPPED = true ∧ t.shBit (stat n) F.TIME_TB_STAT_LOCKED = false ∧
          t.shFld (stat n) F.TIME_TB_STAT_STEPS = min (s.shFld (stat n) F.TIME_TB_STAT_STEPS + 1) 65535 ∧ onlyTb s t n) ∧
        (¬ (servo ∧ far) → (t.tb n).t = x.t ∧ (t.tb n).run = run ∧ (t.tb n).integ = (if servo then i else x.integ) ∧
          t.shReg (R.TIME_TB_FREQ n) = (if servo then freqWord (clampPpb (.sub (.neg (.mul (k F.TIME_TB_GAIN_KP) rate)) i))
            else s.shReg (R.TIME_TB_FREQ n)) ∧
          (t.shBit (stat n) F.TIME_TB_STAT_LOCKED = true ↔ run = 8 ∨ (s.shBit (stat n) F.TIME_TB_STAT_LOCKED = true ∧ good)) ∧
          (n ≠ 0 → onlyTb s t n ∧
            s.RegsBut ([R.TIME_TB_OFS_HI n, stat n, R.TIME_TB_FREQ n].map dieKey) t))))) ∧
  (∀ s l who n hi, s.Inv → s.mayWrite l 14 who = true → n < 4 → Completes (exec (.timeSetGo l who n hi) s) (fun t =>
    let sec := (s.shReg (R.TIME_TB_SET_SLO n)).toNat + hi.toNat % 65536 * 2 ^ 32
    let go := getF hi F.TIME_TB_SET_SHI_GO = 1 ∧ s.tbRunning n = true
    t.bus = .ok 0 ∧ t.shReg (R.TIME_TB_SET_SHI n) = hi &&& 0x0000FFFF#32 ∧
    (go → t.tb n = { s.tb n with
        t := (sec * 1000000000 + s.shFld (R.TIME_TB_SET_NS n) F.TIME_TB_SET_NS_NS) * 2 ^ 32
        stepped := true
        run := 0 } ∧ t.shBit (stat n) F.TIME_TB_STAT_STEPPED = true ∧ t.shBit (stat n) F.TIME_TB_STAT_LOCKED = false ∧
      t.shFld (stat n) F.TIME_TB_STAT_STEPS = min (s.shFld (stat n) F.TIME_TB_STAT_STEPS + 1) 65535 ∧ onlyTb s t n) ∧
    (¬ go → s.OnlyRegs [dieKey (R.TIME_TB_SET_SHI n)] { t with bus := s.bus }))) ∧
  (∀ s l who n, s.Inv → s.mayWrite l 14 who = true → n < 4 → Completes (exec (.timeNowRead l who n) s) (fun t =>
    let ns := s.tbNs n
    t.bus = .ok (BitVec.ofNat 32 (ns % 1000000000)) ∧ t.shReg (R.TIME_TB_NOW_NS n) = BitVec.ofNat 32 (ns % 1000000000) ∧
    t.shReg (R.TIME_TB_NOW_SLO n) = BitVec.ofNat 32 (ns / 1000000000) ∧
    t.shFld (R.TIME_TB_NOW_SHI n) F.TIME_TB_NOW_SHI_SEC = ns / 1000000000 / 2 ^ 32 % 65536 ∧
    t.shFld (R.TIME_TB_NOW_SHI n) F.TIME_TB_NOW_SHI_FRAC = (s.tb n).t / 65536 % 65536 ∧
    s.OnlyRegs ([R.TIME_TB_NOW_NS n, R.TIME_TB_NOW_SLO n, R.TIME_TB_NOW_SHI n].map dieKey) { t with bus := s.bus })) ∧
  (∀ s l who n hi, s.mayWrite l 14 who = false → Completes (exec (.servoSample l who n hi) s) s.Denied ∧
    Completes (exec (.timeSetGo l who n hi) s) s.Denied ∧ Completes (exec (.timeNowRead l who n) s) s.Denied) ∧
  (∀ s n, s.Inv → n < 4 → s.cmnRuns = true → s.tbRunning n = true →
    (s.pendCommit 14 (20 + n) .E = none → exec (.servoTimer n) s = .next s) ∧
    (∀ c ∈ s.pendCommit 14 (20 + n) .E, ∀ a ∈ [R.TIME_TB_CFG n, R.TIME_TB_GAIN n, R.TIME_TB_STEP n, R.TIME_TB_LOCK n],
      ∀ w ∈ c.writes, c.writes = [w] → w.1 = a → c.lane = .E → Completes (exec (.servoTimer n) s) (fun t =>
        (chkTime s c = true → t.shReg a &&& rwsMask a = w.2 &&& rwsMask a ∧
          t.tbRunning n = t.shBit (R.TIME_TB_CFG n) F.TIME_TB_CFG_EN) ∧
        (chkTime s c = false → t.shReg a = s.shReg a ∧ t.shBit R.TIME_STATUS F.TIME_STATUS_CFG_INCONSISTENT = true)))) ∧
  (∀ s n, s.Inv → n < 4 → s.cmnRuns = true → s.tbRunning n = true →
    Completes (exec (.timeHoldover n) s) (fun t => t.shBit (stat n) F.TIME_TB_STAT_HOLDOVER = true ∧
      t.shBit (stat n) F.TIME_TB_STAT_LOCKED = false ∧ t.tb n = { s.tb n with run := 0 } ∧
      t.shReg (R.TIME_TB_FREQ n) = freqWord (.neg (s.tb n).integ) ∧ onlyTb s t n ∧
      s.RegsBut [dieKey (stat n), dieKey (R.TIME_TB_FREQ n)] t) ∧
    Completes (exec (.xcapCapture n) s) (fun t =>
      let ns := s.tbNs n
      (t.shReg (R.TIME_TB_XCAP n 0)).toNat + (t.shReg (R.TIME_TB_XCAP n 1)).toNat * 2 ^ 32 = s.now * 200 % 2 ^ 64 ∧
      t.shReg (R.TIME_TB_XCAP n 2) = BitVec.ofNat 32 (ns % 1000000000) ∧
      t.shReg (R.TIME_TB_XCAP n 3) = BitVec.ofNat 32 (ns / 1000000000) ∧
      (t.shReg (R.TIME_TB_XCAP n 4)).toNat = ns / 1000000000 / 2 ^ 32 % 65536 + b2n (s.tb n).stepped * 2 ^ 31 ∧
      t.tb n = { s.tb n with stepped := false } ∧ onlyTb s t n ∧
      s.RegsBut ((List.range 5).map (fun w => dieKey (R.TIME_TB_XCAP n w))) t)) ∧
  (∀ s n, s.tbRunning n = false → exec (.servoTimer n) s = .next s ∧ exec (.timeHoldover n) s = .next s ∧
    exec (.xcapCapture n) s = .next s) ∧
  ((∀ s p up, s.Inv → p < 14 → s.cmn.up = true → Completes (exec (.ethLinkChange p up) s) (fun t =>
    t.ethStat p F.ETHS_P_STAT_LINK = up ∧ (up = true → t.shFld (R.ETHS_P_STAT p) F.ETHS_P_STAT_TC10 = 0) ∧
    t.ethStat p F.ETHS_P_STAT_PHY_FAULT = s.ethStat p F.ETHS_P_STAT_PHY_FAULT ∧
    (∀ b ∈ s.eth.bufs, s.eth.bufs = [b] → b.ports = 2 ^ p → b.sent = 0 → s.ethStat p F.ETHS_P_STAT_PHY_FAULT = false →
      s.portAsleep (24 + p) = false → up = false → t.eth.bufs = [] ∧ ∀ n ∈ b.lsn, s.Disposes t n dFAILED eLINK_DOWN) ∧
    (s.eth.bufs = [] → s.OnlyRegs [dieKey (R.ETHS_P_STAT p)] t))) ∧
  (∀ s p, s.Inv → p < 14 → s.cmn.up = true →
    Completes (exec (.ethPhyFault p true) s) (fun t => t.ethStat p F.ETHS_P_STAT_PHY_FAULT = true ∧
      t.eth.phyTest.testBit p = false ∧
      (∀ b ∈ s.eth.bufs, s.eth.bufs = [b] → b.ports = 2 ^ p → b.sent = 0 → s.portAsleep (24 + p) = false →
        t.eth.bufs = [] ∧ ∀ n ∈ b.lsn, s.Disposes t n dUNDELIVERABLE ePORT_PHY)) ∧
    Completes (exec (.ethPhyFault p false) s) (fun t =>
      (s.eth.phyTest.testBit p = true → t.ethStat p F.ETHS_P_STAT_PHY_FAULT = false) ∧
      (s.eth.phyTest.testBit p = false → t.regs = s.regs) ∧ t.eth.phyTest.testBit p = false ∧
      (∀ q, q ≠ p → t.eth.phyTest.testBit q = s.eth.phyTest.testBit q) ∧
      s.OnlyRegs [dieKey (R.ETHS_P_STAT p)] { t with eth := s.eth } ∧ t.eth = { s.eth with phyTest := t.eth.phyTest })) ∧
  (∀ s p, s.cmn.up = false → exec (.ethLinkChange p true) s = .next s ∧ exec (.ethPhyFault p true) s = .next s) ∧
  (∀ s i, i < 128 → s.cmnRuns = true → Completes (exec (.frerResetTimeout i) s) (fun t =>
    recOf t.eth.frRec i = ⟨none, 0⟩ ∧ (∀ j, j ≠ i → recOf t.eth.frRec j = recOf s.eth.frRec j) ∧
    t = { s with eth := { s.eth with frRec := t.eth.frRec } })) ∧
  (∀ s p, s.Inv → p < 10 → s.cmn.up = true →
    (s.shBit (R.ETHS_P_WAKE p) F.ETHS_P_WAKE_WAKE_EN = false → exec (.ethWake p) s = .next s) ∧
    (s.shBit (R.ETHS_P_WAKE p) F.ETHS_P_WAKE_WAKE_EN = true → s.portCove (24 + p) = none →
      Completes (exec (.ethWake p) s) (fun t =>
        let fwd := s.shFld (R.ETHS_P_WAKE p) F.ETHS_P_WAKE_WAKE_FWD
        (∀ q < 10, (t.shFld R.ETHS_WAKE F.ETHS_WAKE_WOKE).testBit q =
          ((s.shFld R.ETHS_WAKE F.ETHS_WAKE_WOKE).testBit q || q == p)) ∧
        t.outbox = s.outbox ++ ((List.range 10).filter (fun q => fwd.testBit q)).map OutMsg.wake ∧
        (∀ q < 10, fwd.testBit q = true → s.shFld (R.ETHS_P_STAT q) F.ETHS_P_STAT_TC10 = 2 →
          t.shFld (R.ETHS_P_STAT q) F.ETHS_P_STAT_TC10 = 3) ∧
        s.RegsBut (dieKey R.ETHS_WAKE :: (List.range 10).map (fun q => dieKey (R.ETHS_P_STAT q))) t))) ∧
  (∀ s p, s.Inv → p < 10 → s.cmnRuns = true →
    ((∃ c ∈ s.portCove (24 + p), s.coveSt c = 3 ∨ s.coveSt c = 4) → Completes (exec (.tc10SleepRequest p) s) (fun t =>
      t.shFld (R.ETHS_P_STAT p) F.ETHS_P_STAT_TC10 = 2 ∧ t.ethStat p F.ETHS_P_STAT_LINK = false ∧
      s.OnlyRegs [dieKey (R.ETHS_P_STAT p)] t)) ∧
    ((∀ c ∈ s.portCove (24 + p), s.coveSt c ≠ 3 ∧ s.coveSt c ≠ 4) → Completes (exec (.tc10SleepRequest p) s) (fun t =>
      s.Counts t .E (R.ETHS_P_CNT p 7) ∧ s.OnlyRegs [dieKey (R.ETHS_P_CNT p 7)] t))))

/-- R429 to R445, Table 14.6. -/
def Obligations.EthernetFrames : Prop :=
  let cnt := fun (p k : Nat) => R.ETHS_P_CNT p k
  (∀ s p (f : EthFrame), s.Inv → p < 14 → s.cmnRuns = true → s.ethPort p F.ETHS_P_CFG_EN = 1 →
    s.ethStat p F.ETHS_P_STAT_LINK = true → f.len ≤ 1522 → s.portUp (24 + p) →
    Completes (exec (.ethFrameIngress p f) s) (fun t =>
      let sid := s.streamId f
      let k := sid.bind s.filterOf
      s.Counts t .E (cnt p 0) ∧
      (s.macsecDrops p f = true → s.Counts t .E (cnt p 6) ∧ s.OnlyRegs [dieKey (cnt p 0), dieKey (cnt p 6)] t) ∧
      (s.macsecDrops p f = false → ∀ i ∈ k, s.shBit (R.ETHS_SF_W2 i) F.ETHS_SF_W2_BLOCKED = true ∨
          s.shFld (R.ETHS_SF_W1 i) F.ETHS_SF_W1_MAX_SDU < f.len →
        s.Counts t .E (cnt p 3) ∧ s.OnlyRegs [dieKey (cnt p 0), dieKey (cnt p 3), dieKey (R.ETHS_SF_W2 i)] t ∧
        (s.shBit (R.ETHS_SF_W2 i) F.ETHS_SF_W2_BLOCKED = true ∨ s.shBit (R.ETHS_SF_W0 i) F.ETHS_SF_W0_BLOCK_OVERSIZE = true →
          t.shBit (R.ETHS_SF_W2 i) F.ETHS_SF_W2_BLOCKED = true)) ∧
      (s.macsecDrops p f = false → k = none → ∀ j ∈ s.compound f, ∀ q ∈ f.rtag, p < 2 →
        s.shBit (R.ETHS_FR_CFG j) F.ETHS_FR_CFG_ELIMINATE = true →
        (((recOf s.eth.frRec j).take q).2 = .copy → s.Counts t .E (R.ETHS_FR_DISC j) ∧ t.eth.bufs = s.eth.bufs) ∧
        (((recOf s.eth.frRec j).take q).2 = .rogue → s.Counts t .E (R.ETHS_FR_ROGUE j) ∧ s.Counts t .E (cnt p 5) ∧
          t.eth.bufs = s.eth.bufs) ∧
        (((recOf s.eth.frRec j).take q).2 = .first → t.shReg (R.ETHS_FR_LASTSEQ j) = BitVec.ofNat 32 q)) ∧
      (s.macsecDrops p f = false → sid = none → f.src / 2 ^ 40 % 2 = 0 → s.eth.fdb.length < 4096 →
        t.fdbPort f.src f.vid = some p) ∧
      (s.macsecDrops p f = false → sid = none → f.src ≠ f.dst → s.classOf f none false < 7 → s.eth.bufs = [] →
        (∀ q < 16, 0 < s.shFld (R.ETHS_P_QMAX q) F.ETHS_P_QMAX_Q_MAX) →
        t.eth.bufs.map (fun b => (b.frame, b.ports, b.cls, b.cells)) =
          ((s.egressPorts f p).filter s.ethUsable).map (fun q => (f, 2 ^ q, s.classOf f none false, (f.len + 255) / 256))) ∧
      t = { s with regs := t.regs, eth := t.eth })) ∧
  (∀ s p f, s.cmnRuns = false ∨ s.ethPort p F.ETHS_P_CFG_EN = 0 ∨ s.ethStat p F.ETHS_P_STAT_LINK = false →
    exec (.ethFrameIngress p f) s = .next s) ∧
  (∀ s l h, s.Inv → s.eth.held.find? (fun x => x.lane == l) = some h → s.cmnRuns = true → s.takesFrames l = true →
    let p := 14 + l.ix
    let verdict := ((recOf s.eth.laneRec h.lstream).take h.seq).2
    let plain := (isPtp h.frame = false ∨ s.arb.held = some l) ∧ verdict = .first ∧ s.streamId h.frame = none
    (2048 < s.poolUsed (2 + l.ix) + cellsOf h.frame.len → exec (.laneFrameSubmit l) s = .next s) ∧
    (s.poolUsed (2 + l.ix) + cellsOf h.frame.len ≤ 2048 → Completes (exec (.laneFrameSubmit l) s) (fun t =>
      t.eth.held = s.eth.held.erase h ∧ s.Counts t .E (cnt p 0) ∧
      (isPtp h.frame = true → s.arb.held ≠ some l → s.Counts t .E (cnt p 4) ∧ t.eth.bufs = s.eth.bufs) ∧
      ((isPtp h.frame = false ∨ s.arb.held = some l) → verdict = .copy → s.Counts t .E (cnt p 4) ∧ t.eth.bufs = s.eth.bufs) ∧
      ((isPtp h.frame = false ∨ s.arb.held = some l) → verdict = .rogue → s.Counts t .E (cnt p 5) ∧ t.eth.bufs = s.eth.bufs) ∧
      (plain → s.egressPorts h.frame p = [] → t.eth.bufs = s.eth.bufs ∧ ∀ n ∈ h.lsn, s.Disposes t n dFAILED eNO_ROUTE) ∧
      (plain → (∀ q ∈ s.egressPorts h.frame p, s.portUp (24 + q)) → (∀ b ∈ s.eth.bufs, b.id < s.eth.nextId) →
        (∃ q ∈ s.egressPorts h.frame p, s.ethUsable q = true) → ∃ b ∈ t.eth.bufs, b.frame = h.frame ∧ b.seq = some h.seq ∧
          b.lstream = some h.lstream ∧ b.lsn = h.lsn ∧ b.pool = 2 + l.ix ∧
          b.ports = (s.egressPorts h.frame p).foldl (fun m q => setBit m q) 0)))) ∧
  (∀ s l, s.eth.held.find? (fun x => x.lane == l) = none → exec (.laneFrameSubmit l) s = .next s) ∧
  (∀ s p b, s.Inv → p < 16 → s.eth.bufs = [b] → b.ports = 2 ^ p → b.sent = 0 → s.cmnRuns = true → s.mod_.frozen = false →
    s.ethPort p F.ETHS_P_CFG_EN = 1 →
    (if 14 ≤ p then s.takesFrames (ilLane p) else s.ethStat p F.ETHS_P_STAT_LINK && !s.ethStat p F.ETHS_P_STAT_PHY_FAULT) = true →
    let late := ∃ d ∈ b.deadline, d < s.now
    let safe := s.unprotected p b.frame = true
    (late → Completes (exec (.ethFrameEgress p b.id) s) (fun t => t.eth.bufs = [] ∧ ∀ n ∈ b.lsn, s.Disposes t n dFAILED eETH_LATE)) ∧
    (¬ late → s.gateOpen p b.cls = false → exec (.ethFrameEgress p b.id) s = .next s) ∧
    (¬ late → s.gateOpen p b.cls = true → safe → Completes (exec (.ethFrameEgress p b.id) s) (fun t =>
      s.Counts t .E (cnt p 1) ∧ t.eth.bufs = [] ∧ (∀ n ∈ b.lsn, s.Disposes t n dDONE 0) ∧
      t.shFld R.ETHS_STATUS F.ETHS_STATUS_FREE_CELLS = 16384 ∧
      (p < 14 → t.outbox = s.outbox ++ [.ethTx p b.frame.data]) ∧
      (14 ≤ p → b.frame.udp = none → t.eth.rxE = s.eth.rxE ++ (if p = 14 then [(b.frame, s.stampNow)] else []) ∧
        t.eth.rxW = s.eth.rxW ++ (if p = 15 then [(b.frame, s.stampNow)] else [])))) ∧
    (¬ late → s.gateOpen p b.cls = true → ¬ safe → s.txSa p = none → Completes (exec (.ethFrameEgress p b.id) s) (fun t =>
      t.ethStat p F.ETHS_P_STAT_NO_SA = true ∧ t.eth.bufs = [] ∧ ∀ n ∈ b.lsn, s.Disposes t n dFAILED eNO_SA))) ∧
  (∀ s p, s.Inv → p < 16 → s.cmnRuns = true → s.eth.gcl.length = 16 → s.gclRuns p = true →
    let x := s.gcl p
    let ends := s.ethPort p F.ETHS_P_CFG_GCL_LEN_M1 ≤ x.ix ∨
      s.shFld (R.ETHS_P_CYCLE p) F.ETHS_P_CYCLE_CYCLE_NS ≤ s.gclElapsed p x.ix
    (¬ ends → Completes (exec (.gclEntry p) s) (fun t => t.gcl p = { x with ix := x.ix + 1 } ∧
      t = { s with eth := { s.eth with gcl := t.eth.gcl } })) ∧
    (ends → x.pend = [] → Completes (exec (.gclEntry p) s) (fun t => t.gcl p = { x with ix := 0 } ∧
      t = { s with eth := { s.eth with gcl := t.eth.gcl } })) ∧
    (ends → x.pend ≠ [] → Completes (exec (.gclEntry p) s) (fun t => t.gcl p = ⟨0, [], []⟩ ∧
      t.ethStat p F.ETHS_P_STAT_GCL_PENDING = false ∧
      (∀ w ∈ x.pend, x.pend = [w] → w.1 ≠ R.ETHS_P_STAT p → Far w.1 → t.shReg w.1 &&& rwsMask w.1 = w.2 &&& rwsMask w.1) ∧
      (∀ n ∈ x.lsns, (∀ c ∈ s.commits, n ∉ c.lsns) → s.Disposes t n dDONE 0))))

/-- Table 15.5. -/
def Obligations.HarbourCommands : Prop :=
  let staged := fun (s t : State) (ws : List RegCell) => s.Stages t ∧
    ∀ c ∈ ws, t.CarriesAt (s.holderOr .E) 15 0 s.led.nextLsn c ∧ t.Pends (s.holderOr .E).other 15 0 c
  (∀ s r, Ready specHarbStatus s r → Completes (exec (.harbStatus r) s) (fun t => s.Told r t (fun d => d.length = 36 ∧
    wordAt d 0 = s.reg (s.server r) R.HARB_STATUS ∧ ∀ k < 8, wordAt d (4 + 4 * k) = s.reg (s.server r) (R.HARB_CNT k)))) ∧
  (∀ s r, Ready specHarbPduDefine s r → Completes (exec (.harbPduDefine r) s) (fun t => staged s t
    ((List.range 6).map (fun w => (R.HARB_PDU_W0 (r.u16 0) + 4 * w, r.w (4 + 4 * w)))))) ∧
  (∀ s r, Ready specHarbRouteSet s r → Completes (exec (.harbRouteSet r) s) (fun t => ∀ k < r.u16 2, staged s t
    ((List.range 12).map (fun w => (R.HARB_RT_W0 (r.u16 0 + k) + 4 * w, r.w (4 + 48 * k + 4 * w)))))) ∧
  (∀ s r, Ready specHarbEndpoint s r → Completes (exec (.harbEndpoint r) s) (fun t => staged s t
    ((List.range 6).map (fun w => (R.HARB_EP_ADDR (r.u8 0) 0 + 4 * w, r.w (4 + 4 * w)))))) ∧
  (∀ s r, Ready specHarbPduSend s r → Completes (exec (.harbPduSend r) s) (fun t =>
    let h := s.holderOr r.lane
    let x := s.pduRt h (r.u16 0)
    let act := getF (s.reg h (R.HARB_PDU_W0 (r.u16 0))) F.HARB_PDU_W0_COVE_ACT
    (x.ask = none → t.pduRt h (r.u16 0) = { x with ask := some ⟨act, [], [s.led.nextLsn]⟩ }) ∧
    (∀ b ∈ x.ask, t.pduRt h (r.u16 0) = { x with ask := some ⟨actMax act b.act, b.routes, b.lsns ++ [s.led.nextLsn]⟩ } ∧
      s.Counts t h (R.HARB_CNT 6)) ∧
    s.AsideBut [R.HARB_CNT 6] t ∧ s.Served { t with harbE := s.harbE, harbW := s.harbW })) ∧
  (∀ s r, Ready specHarbPduRead s r → Completes (exec (.harbPduRead r) s) (fun t => s.Told r t (fun d =>
    let x := s.pduRt (s.server r) (r.u16 0)
    d.length = 4 + r.u8 4 ∧ fieldAt d 0 4 = b2n (x.kept != []) + 2 * b2n x.ask.isSome ∧
    d.drop 4 = s.img (s.server r) (pduOfs (s.reg (s.server r)) (r.u16 0) + r.u16 2) (r.u8 4)))) ∧
  (∀ s r, Ready specHarbRouteStatus s r → Completes (exec (.harbRouteStatus r) s) (fun t => s.Told r t (fun d =>
    d.length = 8 * r.u8 2 ∧ ∀ k < r.u8 2,
      let x := s.routeRt (s.server r) (r.u16 0 + k)
      fieldAt d (8 * k) 2 = b2n x.valid + 2 * b2n x.timedOut ∧ fieldAt d (8 * k + 2) 2 = x.sat % 65536 ∧
      fieldAt d (8 * k + 4) 2 = x.holdDrop % 65536)))

/-- R464 to R476. -/
def Obligations.HarbourTraffic : Prop :=
  (∀ s l x xs, s.Inv → s.harbIn l = x :: xs → x.mark = false → s.harbRuns l = true → Memory.wf (s.harb l).ram = true →
    Completes (exec (.pduArrival l) s) (fun t =>
      let g := s.reg l
      let hit := (pdusOn g).find? (fun i => !pduTx g i && pduKey g i == x.key)
      t.harbIn l = xs ∧ s.Counts t l (R.HARB_CNT 0) ∧ t.harbIn l.other = s.harbIn l.other ∧ t.harb l.other = s.harb l.other ∧
      (hit = none → s.Counts t l (R.HARB_CNT 1) ∧ t.harb l = s.harb l ∧
        s.RegsBut [regKey l.ix (R.HARB_CNT 0), regKey l.ix (R.HARB_CNT 1)] t) ∧
      (∀ i ∈ hit,
        let len := pduLen g i
        let rs := ((List.range (pduRoutes g i)).map (· + pduFirst g i)).filter (fun r => rtOn g r && rtSrc g r == i)
        (t.pduRt l i).arrived = some x.stamp ∧
        (rs = [] → t.img l (pduOfs g i) (min len x.data.length) = x.data.take len ∧
          t.regs = (s.count l (R.HARB_CNT 0)).regs ∧ (t.harb l).routes = (s.harb l).routes) ∧
        (∀ r ∈ rs, rs = [r] →
          let src := (x.data.take len) ++ (s.img l (pduOfs g i) len).drop (x.data.take len).length
          let raw := rawOf src (rtSrcBits g r)
          let dst := rtDst g r
          let st := rt0 g r F.HARB_RT_W0_SRC_TYPE
          let dt := rt0 g r F.HARB_RT_W0_DST_TYPE
          let n : Int := if st = 1 then sext (rtSrcLen g r) raw else (raw : Int)
          let y := intToRaw (dt == 1) (rtDstLen g r) (intRoute n (rtNum g r) (rtOffset g r) (rtDen g r))
          let z := s.routeRt l r
          s.Counts t l (R.HARB_CNT 2) ∧
          (sigValid g r raw x.data.length = true → st < 2 → dt < 2 → rtVbit g r = none → (rtDstBits g r).Nodup →
            (∀ b ∈ rtDstBits g r, b < 8 * pduLen g dst) →
            (∀ k < rtDstLen g r, ∀ b ∈ (rtDstBits g r)[k]?, bitOf (t.img l (pduOfs g dst) (pduLen g dst)) b = y.1.testBit k) ∧
            t.routeRt l r = { z with valid := true, timedOut := false, sat := if y.2 then min (z.sat + 1) 65535 else z.sat } ∧
            (y.2 = true → s.Counts t l (R.HARB_CNT 3))) ∧
          (sigValid g r raw x.data.length = false → rtVbit g r = none → rt0 g r F.HARB_RT_W0_SUBST = 0 →
            t.img l (pduOfs g i) len = src ∧ t.routeRt l r = { z with valid := false, timedOut := false } ∧
            (t.harb l).pdus.map PduRt.ask = (s.setPdu l { s.pduRt l i with arrived := some x.stamp } |>.harb l).pdus.map PduRt.ask))) ∧
      t = { s with regs := t.regs, harbInE := t.harbInE, harbInW := t.harbInW, harbE := t.harbE, harbW := t.harbW,
                   freeCtr := t.freeCtr })) ∧
  (∀ s l, s.harbIn l = [] → exec (.pduArrival l) s = .next s) ∧
  (∀ s l stamp, s.Inv → s.harbRuns l = true → s.cmnRuns = true → Completes (exec (.timerMark l stamp) s) (fun t =>
    let late := (routesOn (s.reg l)).filter (s.routeLate l stamp)
    t.harbIn l = [] ∧ t.harbIn l.other = s.harbIn l.other ∧ t.harb l.other = s.harb l.other ∧
    (s.harbIn l = [] → late = [] → t = s) ∧
    (s.harbIn l = [] → (∀ r ∈ late, (t.routeRt l r).valid = false ∧ (t.routeRt l r).timedOut = true) ∧
      (t.reg l (R.HARB_CNT 4)).toNat = min ((s.reg l (R.HARB_CNT 4)).toNat + late.length) (2 ^ 32 - 1) ∧
      ∀ r, r ∉ late → t.routeRt l r = s.routeRt l r))) ∧
  (∀ s l i a, s.Inv → s.harbRuns l = true → (s.pduRt l i).ask = some a → (s.pduRt l i).kept = [] → (s.pduRt l i).deferred = false →
    pduOn (s.reg l) i = true →
    let g := s.reg l
    let x := s.pduRt l i
    let port := pf0 g i F.HARB_PDU_W0_PORT
    let image := s.img l (pduOfs g i) (pduLen g i)
    let ep := pf2 g i F.HARB_PDU_W2_EP
    let e := R.LIN_FR_CFG port (pduId g i % 64)
    let published := s.shBit e F.LIN_FR_CFG_EN = true ∧ s.shFld e F.LIN_FR_CFG_DIR = 1
    (s.pduAsleep l i = false → s.inGap l i = false → Completes (exec (.pduSend l i) s) (fun t =>
      t.pduRt l i = { x with ask := none, deferred := false, sent := some s.now } ∧
      (s.pduSends l i = true → s.Counts t l (R.HARB_CNT 5)) ∧
      (s.pduSends l i = false → t.canPorts = s.canPorts ∧ t.eth.held = s.eth.held) ∧
      (s.pduSends l i = true → pduKind g i = 0 → port < 16 → s.canPhy port = false →
        (t.canPort port).held = (s.canPort port).held ++ [⟨(s.canPort port).nextSeq, canPduHdr g i, image, none, some i, none⟩]) ∧
      (s.pduSends l i = true → pduKind g i = 1 → published → port < 8 → ∀ k < 2,
        t.shReg (R.LIN_FR_DATA port (pduId g i % 64) k) = wordAt (padTo 8 image) (4 * k)) ∧
      (s.pduSends l i = true → pduKind g i = 2 → ∃ h ∈ t.eth.held, h.lane = l ∧ h.pdu = some i ∧ h.frame.udp =
        some (getF (g (R.HARB_EP_W4 ep)) F.HARB_EP_W4_UDP) ∧ h.frame.vid = getF (g (R.HARB_EP_W4 ep)) F.HARB_EP_W4_VID ∧
        h.frame.data = leBytes 4 (pduId g i) ++ leBytes 4 image.length ++ image ∧
        h.lstream = getF (g (R.HARB_EP_W5 ep)) F.HARB_EP_W5_LSTREAM) ∧
      (s.holderOr l = l → (pduKind g i = 0 → s.canPhy port = false) → (pduKind g i = 1 → published) →
        ∀ n ∈ a.lsns, s.Disposes t n dDONE 0) ∧
      (s.holderOr l = l → pduKind g i = 0 → s.canPhy port = true → ∀ n ∈ a.lsns, s.Disposes t n dUNDELIVERABLE ePORT_PHY))) ∧
    (s.pduAsleep l i = false → s.inGap l i = true → Completes (exec (.pduSend l i) s) (fun t =>
      t.pduRt l i = { x with deferred := true } ∧ t = { s with harbE := t.harbE, harbW := t.harbW } ∧
      t.harb l.other = s.harb l.other)) ∧
    (s.pduAsleep l i = true → a.act = 1 → Completes (exec (.pduSend l i) s) (fun t =>
      t.pduRt l i = { x with ask := none, deferred := false } ∧ s.Counts t l (R.HARB_CNT 7) ∧
      (s.holderOr l = l → ∀ n ∈ a.lsns, s.Disposes t n dFAILED dDROPPED))) ∧
    (s.pduAsleep l i = true → a.act = 0 → Completes (exec (.pduSend l i) s) (fun t =>
      t.pduRt l i = { x with ask := none, deferred := false, kept := [⟨(s.harb l).order, image, a⟩] } ∧
      (t.harb l).order = (s.harb l).order + 1 ∧ t = { s with harbE := t.harbE, harbW := t.harbW }))) ∧
  (∀ s l i, s.Inv → s.harbRuns l = true → (s.pduRt l i).kept = [] → ((s.pduRt l i).ask = none ∨ (s.pduRt l i).deferred = true) →
    exec (.pduSend l i) s = .next s) ∧
  (∀ s l i, s.Inv → s.harbRuns l = true →
    let x := s.pduRt l i
    (x.kept = [] → x.deferred = false → Completes (exec (.minGapExpiry l i) s) (fun t => t.pduRt l i = { x with sent := none } ∧
      (∀ j, j ≠ i → t.pduRt l j = s.pduRt l j) ∧ t = { s with harbE := t.harbE, harbW := t.harbW })) ∧
    (∀ k ∈ x.kept.head?, s.pduAsleep l i = false → Completes (exec (.minGapExpiry l i) s) (fun t =>
      t.pduRt l i = { x with kept := x.kept.tail, sent := some s.now } ∧ (s.pduSends l i = true → s.Counts t l (R.HARB_CNT 5)))) ∧
    (x.kept = [] → x.deferred = true → pduOn (s.reg l) i = true → s.pduAsleep l i = false → x.ask.isSome = true →
      Completes (exec (.minGapExpiry l i) s) (fun t =>
        t.pduRt l i = { x with ask := none, deferred := false, sent := some s.now } ∧
        (s.pduSends l i = true → s.Counts t l (R.HARB_CNT 5)))))

/-- Table 15.5; R487, R488, R494, R495. -/
def Obligations.CausewayCommands : Prop :=
  let both := fun (t : State) (w : Nat) (f : Fld) (b : Bool) => ∀ l, t.bit l (R.CWY_W_STAT w) f = b
  (∀ s r, Ready specCwWindow s r → Completes (exec (.cwWindow r) s) (fun t => s.Stages t ∧
    ∀ c ∈ [(R.CWY_W_CFG (r.u8 0), r.w 4), (R.CWY_W_RBASE (r.u8 0), r.w 8), (R.CWY_W_PREF (r.u8 0), r.w 12)] ++
        (List.range 4).map (fun q => (R.CWY_W_RNG (r.u8 0) q, r.w (16 + 4 * q))),
      t.CarriesAt (s.holderOr .E) 16 (r.u8 0) s.led.nextLsn c ∧ t.Pends (s.holderOr .E).other 16 (r.u8 0) c)) ∧
  (∀ s r, Ready specCwNodes s r → Completes (exec (.cwNodes r) s) (fun t => s.Told r t (fun d => d.length = 32 * r.u8 1 ∧
    ∀ i < r.u8 1, ∀ k < 8, wordAt d (32 * i + 4 * k) = s.reg (s.server r) (R.CWY_NODE (r.u8 0 + i) k)))) ∧
  (∀ s r, Ready specCwErrors s r → Completes (exec (.cwErrors r) s) (fun t =>
    let head := s.fld .E R.CWY_ERR_HEAD F.CWY_ERR_HEAD_HEAD
    let k := min (r.u8 0) s.cw.fill
    t.cw = { s.cw with fill := s.cw.fill - k, read := t.cw.read } ∧ t.cw.read.length = 16 * k ∧
    (∀ i < k, ∀ j < 4, wordAt t.cw.read (16 * i + 4 * j) = s.reg .E (R.CWY_ERR ((head + i) % 64) j)) ∧
    (∀ l, t.fld l R.CWY_ERR_HEAD F.CWY_ERR_HEAD_HEAD = (head + k) % 64) ∧
    ((∀ e ∈ s.led.entries, e.st = .reported) → r.isStartup = false → Answered s r SCS_OK s.led.nextLsn t.cw.read t) ∧
    s.Did { t with cw := s.cw } [R.CWY_ERR_HEAD])) ∧
  (∀ s r, Ready specCwFenceAck s r → Completes (exec (.cwFenceAck r) s) (fun t =>
    (∀ w < 64, (r.u 0 8).testBit w = true → both t w F.CWY_W_STAT_FENCED false) ∧
    (s.cw.wait = [] → s.Did t ((maskBits 64 (r.u 0 8)).map R.CWY_W_STAT)))) ∧
  (∀ s r, Ready specCwWrite s r →
    let h := s.holderOr r.lane
    let w := r.u8 0
    let g := s.reg h
    let posted := postedAt g w (r.u32 4) (r.u16 2)
    let n := s.nextSeq h w
    let a : CwAcc := ⟨h, h, none, some s.led.nextLsn, w, n, true, posted, r.u32 4, r.u16 2, r.bytes 8 (r.u16 2), none, none⟩
    s.cwRuns h = true → s.leaseValid h = true → s.cw.wait = [] → s.cwRoom a = true → Completes (exec (.cwWrite r) s) (fun t =>
      t.cw.out = s.cw.out ++ [a] ∧ t.cw.wait = [] ∧ t.nextSeq h w = (n + 1) % 65536 ∧ s.Counts t h (R.CWY_CNT 0) ∧
      .cwMsg h (s.cwNodeId h (s.winNode h w)) (if posted then 3 else 2) w n (cwMessage (if posted then 3 else 2)
        (s.cwNodeId h (s.winNode h w)) w n (r.u16 2) (winBase g w + r.u32 4) (r.bytes 8 (r.u16 2))) ∈ t.outbox ∧
      s.AsideBut [R.CWY_CNT 0, R.CWY_CNT 2, R.CWY_W_STAT w, R.CWY_W_LAST_DISC w] t ∧ s.Served { t with cw := s.cw })) ∧
  (∀ s l who w head, s.Inv → s.cwRuns l = true → s.mayWrite l 16 who = true →
    (w < 64 → s.cw.wait = [] → Completes (exec (.fenceAckWrite l who w) s) (fun t => both t w F.CWY_W_STAT_FENCED false ∧
      s.Accessed t 0 (bothKeys (R.CWY_W_STAT w)))) ∧
    Completes (exec (.cwErrHeadWrite l who head) s) (fun t => (∀ k, t.fld k R.CWY_ERR_HEAD F.CWY_ERR_HEAD_HEAD = head % 64) ∧
      t.cw = { s.cw with fill := s.cw.fill - (head % 64 + 64 - s.fld .E R.CWY_ERR_HEAD F.CWY_ERR_HEAD_HEAD) % 64 } ∧
      s.Accessed { t with cw := s.cw } 0 (bothKeys R.CWY_ERR_HEAD))) ∧
  (∀ s l who w head, s.mayWrite l 16 who = false → Completes (exec (.fenceAckWrite l who w) s) s.Denied ∧
    Completes (exec (.cwErrHeadWrite l who head) s) s.Denied) ∧
  (∀ s l, s.leaseLane = some l → s.cwRuns l = true → Completes (exec .discoverTimer s) (fun t =>
    t.outbox = s.outbox ++ List.replicate (1 + ((List.range 16).filter (fun n => s.canCfg n F.CAN_PCFG_XL_EN)).length)
      (.cwMsg l 0 0x10 0 0 (cwMessage 0x10 0 0 0 0 0 [])) ∧ t = { s with outbox := t.outbox })) ∧
  (∀ s l node port addr ranges crc, s.Inv → s.leaseLane = some l → s.cwRuns l = true → s.cw.wait = [] →
    Completes (exec (.capsReceived node port addr ranges crc false) s) (fun t => s.Counts t l (R.CWY_CNT 5) ∧
      s.OnlyRegs [regKey l.ix (R.CWY_CNT 5)] t) ∧
    (s.nodeSlot (node % 256) = none → Completes (exec (.capsReceived node port addr ranges crc true) s) (fun t =>
      t = { s with cw := { s.cw with capsOver := s.cw.capsOver + 1 } })) ∧
    (∀ i ∈ s.nodeSlot (node % 256), Completes (exec (.capsReceived node port addr ranges crc true) s) (fun t =>
      let same := s.cwNodeSt .E i ≠ 0 ∧ s.reg .E (R.CWY_NODE i 1) = crc
      (∀ k, t.cwNodeSt k i = 1 ∧ t.cwNodeId k i = node % 256 ∧ t.nodeCan k i = port.map (fun p => p % 16) ∧
        t.reg k (R.CWY_NODE i 1) = crc ∧ ∀ j < 4, t.reg k (R.CWY_NODE i (2 + j)) = (addr[j]?).getD 0) ∧
      t.cwNode i = some ⟨i, ranges.take 8, s.now⟩ ∧
      (∀ w < 64, s.bit .E (R.CWY_W_CFG w) F.CWY_W_CFG_EN = true → s.winNode .E w = i → both t w F.CWY_W_STAT_NODE_LOST false ∧
        (s.cwNodeSt .E i = 2 → ¬ same → both t w F.CWY_W_STAT_FENCED true) ∧
        (same → ∀ k, t.fenced k w = s.fenced k w))))) ∧
  (∀ s i, s.Inv → i < 256 → s.cwNodeSt .E i = 1 → s.mod_.frozen = false → Completes (exec (.nodeLost i) s) (fun t =>
    (∀ l, t.cwNodeSt l i = 2) ∧ t.cwNodeId .E i = s.cwNodeId .E i ∧
    (∀ w < 64, s.bit .E (R.CWY_W_CFG w) F.CWY_W_CFG_EN = true → s.winNode .E w = i → both t w F.CWY_W_STAT_NODE_LOST true) ∧
    (s.cw.out = [] → (∀ l, s.Counts t l (R.CWY_CNT 6)) ∧ t = { s with regs := t.regs }) ∧
    ∀ a ∈ t.cw.out, a ∈ s.cw.out ∧ ¬ (a.win < 64 ∧ s.bit .E (R.CWY_W_CFG a.win) F.CWY_W_CFG_EN = true ∧ s.winNode .E a.win = i))) ∧
  (∀ s l node, s.Inv → s.leaseLane = some l → s.cwRuns l = true →
    Completes (exec (.cwNodeHeartbeat node false) s) (fun t => s.Counts t l (R.CWY_CNT 5) ∧ s.OnlyRegs [regKey l.ix (R.CWY_CNT 5)] t) ∧
    Completes (exec (.cwNodeHeartbeat node true) s) (fun t => t.cw.nodes.map (fun n => (n.ix, n.ranges)) =
        s.cw.nodes.map (fun n => (n.ix, n.ranges)) ∧
      (∀ i, i < 256 → s.cwNodeSt .E i ≠ 0 → s.cwNodeId .E i = node % 256 →
        (∀ j < i, ¬ (s.cwNodeSt .E j ≠ 0 ∧ s.cwNodeId .E j = node % 256)) → ∀ n ∈ t.cw.nodes, n.ix = i → n.lastAt = s.now) ∧
      t = { s with cw := { s.cw with nodes := t.cw.nodes } }))

/-- R479 to R495. -/
def Obligations.CausewayAccesses : Prop :=
  let at_ := fun (w ofs : Nat) => 0xE1080000 + 0x2000 * w + ofs
  let sent := fun (s t : State) (a : CwAcc) (ty : Nat) (span : Nat × Nat) =>
    t.cw.out = s.cw.out ++ [{ a with seq := s.nextSeq a.lane a.win }] ∧ t.cw.wait = s.cw.wait ∧
    t.nextSeq a.lane a.win = (s.nextSeq a.lane a.win + 1) % 65536 ∧ s.Counts t a.lane (R.CWY_CNT 0) ∧
    (let node := s.cwNodeId a.lane (s.winNode a.lane a.win)
     t.outbox = s.outbox ++ [.cwMsg a.lane node ty a.win (s.nextSeq a.lane a.win) (cwMessage ty node a.win
      (s.nextSeq a.lane a.win) span.2 (winBase (s.reg a.lane) a.win + span.1) a.data)]) ∧
    s.RegsBut ([R.CWY_CNT 0, R.CWY_CNT 2, R.CWY_W_STAT a.win, R.CWY_W_LAST_DISC a.win].map (regKey a.lane.ix)) t ∧
    t = { s with regs := t.regs, cw := t.cw, outbox := t.outbox, bus := t.bus }
  (∀ s l who addr size data, (addr < 0xE1080000 ∨ s.cwGate l ((addr - 0xE1080000) / 0x2000) ((addr - 0xE1080000) % 0x2000) size who = .bad) →
    Completes (exec (.cwAccessRead l who addr size) s) s.Denied ∧ Completes (exec (.cwAccessWrite l who addr size data) s) s.Denied) ∧
  (∀ s l who w ofs size data, s.Inv → ofs < 0x2000 → w < 64 →
    let g := s.reg l
    let blk := s.blockAt l w ofs size
    let e := s.cwLaneOf l who blk.isSome
    let rd : CwAcc := ⟨e, l, Initiator.fn? who, none, w, 0, false, false, ofs, size, [], blk, none⟩
    let posted := postedAt g w ofs size
    let wr : CwAcc := { rd with lane := s.cwLaneOf l who false, write := true, posted := posted, data := padTo size data, block := none }
    let free := fun (a : CwAcc) => s.cw.wait = [] ∧ s.fenced a.lane w = false ∧ s.cwRoom a = true ∧ s.cwMaySend a = true
    (s.cwGate l w ofs size who = .denied → (s.sec l).pol < 16 → s.fld l (R.LHS_EVT_CFG sPOLICY) F.LHS_EVT_CFG_RESP ≤ 1 →
      Completes (exec (.cwAccessRead l who (at_ w ofs) size) s) (fun t => t.bus = .error ∧ t.cw = s.cw ∧ t.mem = s.mem ∧
        (t.reg l (R.LHS_POL (s.sec l).pol 0)).toNat / 256 % 256 = w) ∧
      Completes (exec (.cwAccessWrite l who (at_ w ofs) size data) s) (fun t => t.bus = .error ∧ t.cw = s.cw ∧ t.mem = s.mem)) ∧
    (s.cwGate l w ofs size who = .lost →
      Completes (exec (.cwAccessRead l who (at_ w ofs) size) s) (fun t => t.bus = .error ∧
        (∀ k, t.bit k (R.CWY_W_STAT w) F.CWY_W_STAT_NODE_LOST = true) ∧
        s.OnlyRegs (bothKeys (R.CWY_W_STAT w)) { t with bus := s.bus }) ∧
      Completes (exec (.cwAccessWrite l who (at_ w ofs) size data) s) (fun t => t.bus = .error ∧
        (∀ k, t.bit k (R.CWY_W_STAT w) F.CWY_W_STAT_NODE_LOST = true) ∧
        s.OnlyRegs (bothKeys (R.CWY_W_STAT w)) { t with bus := s.bus })) ∧
    (s.cwGate l w ofs size who = .open_ → s.cwFollows l who = true →
      exec (.cwAccessRead l who (at_ w ofs) size) s = .next { s with bus := .waiting } ∧
      exec (.cwAccessWrite l who (at_ w ofs) size data) s = .next { s with bus := if posted then .bytes [] else .waiting }) ∧
    (s.cwGate l w ofs size who = .open_ → s.cwFollows l who = false →
      (∀ b ∈ s.cwBlk e w, blk.isSome = true → s.fenced e w = false → b.base ≤ ofs → ofs + size ≤ b.base + b.data.length →
        Completes (exec (.cwAccessRead l who (at_ w ofs) size) s) (fun t => t.bus = .bytes (slice b.data (ofs - b.base) size) ∧
          s.Counts t e (R.CWY_CNT 0) ∧ t.outbox = s.outbox ∧ t.cw.out = s.cw.out ∧
          ∀ x ∈ t.cwBlk e w, ∀ o ∈ x.unread, ¬ (ofs ≤ o ∧ o < ofs + size))) ∧
      (s.cwBlk e w = none → free rd → Completes (exec (.cwAccessRead l who (at_ w ofs) size) s) (fun t =>
        t.bus = .waiting ∧ sent s t rd 1 (blk.getD (ofs, size)))) ∧
      (s.cwBlk e w = none → ¬ free rd → Completes (exec (.cwAccessRead l who (at_ w ofs) size) s) (fun t =>
        t.bus = .waiting ∧ (s.cw.wait = [] ∨ (∃ x ∈ s.cw.wait, x.win = w ∧ x.lane = e) → t.cw.wait = s.cw.wait ++ [rd] ∧ t.outbox = s.outbox))) ∧
      (free wr → Completes (exec (.cwAccessWrite l who (at_ w ofs) size data) s) (fun t =>
        t.bus = (if posted then .bytes [] else .waiting) ∧ sent s t wr (if posted then 3 else 2) (ofs, size))))) ∧
  (∀ s l node ty win seq status data, s.Inv → s.cwRuns l = true → s.cw.wait = [] →
    let mine := fun (a : CwAcc) => a.lane = l ∧ a.win = win ∧ s.cwNodeId l (s.winNode l win) = node ∧ a.relay = none
    Completes (exec (.cwResponse l node ty win seq status data false) s) (fun t => s.Counts t l (R.CWY_CNT 5) ∧
      s.OnlyRegs [regKey l.ix (R.CWY_CNT 5)] t) ∧
    (∀ a ∈ s.cw.out, s.cw.out = [a] → mine a → a.posted = false → a.seq = seq → ty = 4 →
      Completes (exec (.cwResponse l node ty win seq status data true) s) (fun t => t.cw.out = [] ∧
        (∀ n ∈ a.lsn, status = 0 → s.Disposes t n dDONE 0) ∧ (∀ n ∈ a.lsn, status ≠ 0 → s.Disposes t n dFAILED (cwError status)) ∧
        (a.lsn = none → status ≠ 0 → t.bus = .error ∧ t.outbox = s.outbox ++ [.cwEnd a.origin a.fn win seq status []]) ∧
        (a.lsn = none → status = 0 → a.block = none → t.bus = .bytes (if a.write then [] else padTo a.len data)) ∧
        (a.lsn = none → status = 0 → ∀ b ∈ a.block, t.bus = .bytes (slice (padTo b.2 data) (a.ofs - b.1) a.len) ∧
          (0 < s.fld l (R.CWY_W_PREF win) F.CWY_W_PREF_PREF_LIFE → ∃ x ∈ t.cwBlk l win, x.base = b.1 ∧ x.data = padTo b.2 data)) ∧
        t.fld l (R.CWY_W_STAT win) F.CWY_W_STAT_NP_OUT = 0)) ∧
    (∀ a ∈ s.cw.out, s.cw.out = [a] → mine a → a.posted = true → ackCovers seq a = true → ty = 6 →
      Completes (exec (.cwResponse l node ty win seq status data true) s) (fun t => t.cw.out = [] ∧
        t.fld l (R.CWY_W_STAT win) F.CWY_W_STAT_P_OUT = 0 ∧ t.cw.fill = s.cw.fill)) ∧
    (∀ a ∈ s.cw.out, s.cw.out = [a] → mine a → a.posted = true → a.seq = seq → a.write = true → ty = 5 → status ≠ 0 → s.cw.fill < 64 →
      Completes (exec (.cwResponse l node ty win seq status data true) s) (fun t =>
        let j := s.fld .E R.CWY_ERR_TAIL F.CWY_ERR_TAIL_TAIL
        let g := s.reg l
        t.cw.out = [] ∧ t.cw.fill = s.cw.fill + 1 ∧ (∀ k, t.fld k R.CWY_ERR_TAIL F.CWY_ERR_TAIL_TAIL = (j + 1) % 64) ∧
        (∀ k, (t.reg k (R.CWY_ERR j 0)).toNat = (win + status * 65536) % 2 ^ 32) ∧
        (∀ k, t.reg k (R.CWY_ERR j 1) = BitVec.ofNat 32 (winBase g win + a.ofs)) ∧
        ⟨l, some (winF g win F.CWY_W_CFG_OWNER), winF g win F.CWY_W_CFG_ERR_VEC⟩ ∈ t.irqs ∧
        (winF g win F.CWY_W_CFG_FENCE_ON_ERROR = 1 → ∀ k, t.fenced k win = true)))) ∧
  (∀ s l win seq a, s.Inv → s.cwRuns l = true → s.cw.wait = [] → s.cw.out = [a] → a.lane = l → a.win = win → a.seq = seq →
    a.relay = none → a.posted = false → Completes (exec (.cwTimeout l win seq) s) (fun t => t.cw.out = [] ∧
      s.Counts t l (R.CWY_CNT 3) ∧ (a.lsn = none → t.bus = .error) ∧
      (∀ n ∈ a.lsn, (∀ p ∈ s.nodeCan l (s.winNode l win), s.canPhy p = false) → s.Disposes t n dFAILED 0x0816))) ∧
  (∀ s a, s.Inv → s.mod_.frozen = false → s.cw.wait = [a] → a.relay = none → Completes (exec (.cwStallTimeout a.win 0) s) (fun t =>
    t.cw.wait = [] ∧ t.cw.out = s.cw.out ∧ (a.lsn = none → t.bus = .error) ∧ ∀ n ∈ a.lsn, s.Disposes t n dFAILED 0x0816)) ∧
  (∀ s l win, s.Inv → s.cwRuns l = true →
    (s.cwBlk l win = none → exec (.prefetchExpiry l win) s = .next s) ∧
    (∀ b ∈ s.cwBlk l win, Completes (exec (.prefetchExpiry l win) s) (fun t => t.cwBlk l win = none ∧ t.cw.out = s.cw.out ∧
      (b.unread = [] → t.regs = s.regs) ∧
      (b.unread ≠ [] → s.Counts t l (R.CWY_CNT 2) ∧ t.reg l (R.CWY_W_LAST_DISC win) = BitVec.ofNat 32 (winBase (s.reg l) win + b.base) ∧
        s.RegsBut [regKey l.ix (R.CWY_CNT 2), regKey l.ix (R.CWY_W_LAST_DISC win)] t) ∧ t = { s with regs := t.regs, cw := t.cw })))

/-- Table 16.6. -/
def Obligations.NmsCommands : Prop :=
  let held := fun (s t : State) (ws : List RegCell) => s.Stages t ∧
    ∀ c ∈ ws, t.CarriesAt (s.holderOr .E) 17 0 s.led.nextLsn c
  let recorded := fun (s t : State) (op : CmnOp) => s.RegsAside t ∧ s.Served { t with cmnRecs := s.cmnRecs } ∧
    t.cmnRecs = s.cmnRecs ++ [⟨op, some s.led.nextLsn, false⟩]
  (∀ s r, Ready specNmsStatus s r → Completes (exec (.nmsStatus r) s) (fun t => s.Told r t (fun d => d.length = 40 ∧
    wordAt d 0 = s.shReg R.NMS_STATUS ∧ wordAt d 4 = s.reg (s.server r) R.NMS_MIR_WAKE_PENDING ∧
    ∀ c < 8, wordAt d (8 + 4 * c) = s.reg (s.server r) (R.NMS_MIR_COVE c 0)))) ∧
  (∀ s r, Ready specNmsCoveConfig s r → Completes (exec (.nmsCoveConfig r) s) (fun t => held s t
    [(R.NMS_COVE_CFG0 (r.u8 0), r.w 4), (R.NMS_COVE_CFG1 (r.u8 0), r.w 8), (R.NMS_COVE_CFG2 (r.u8 0), r.w 12),
     (R.NMS_COVE_CFG3 (r.u8 0), r.w 16)])) ∧
  (∀ s r, Ready specNmsMembers s r → Completes (exec (.nmsMembers r) s) (fun t => ∀ i < r.u8 2,
    let j := r.u8 1 + i - 1
    held s t [(R.NMS_MEM_W0 (r.u8 0) j, r.w (4 + 12 * i)), (R.NMS_MEM_W1 (r.u8 0) j, r.w (8 + 12 * i)),
      (R.NMS_MEM_W2 (r.u8 0) j, r.w (12 + 12 * i))])) ∧
  (∀ s r, Ready specNmsPortCove s r → Completes (exec (.nmsPortCove r) s) (fun t => held s t
    ((R.NMS_CFG, r.w 0) :: (List.range 5).map (fun x => (R.NMS_PORTCOVE x, r.w (4 + 4 * x)))))) ∧
  (∀ s r, Ready specNmsCurfew s r → Completes (exec (.nmsCurfew r) s) (fun t => recorded s t (.curfew (r.u8 0)))) ∧
  (∀ s r, Ready specNmsKeep s r → Completes (exec (.nmsKeep r) s) (fun t =>
    recorded s t (.keep (r.u8 0) (s.quotaOf r.lane r.src) (r.u8 1 == 1)))) ∧
  (∀ s r, Ready specNmsWake s r → Completes (exec (.nmsWake r) s) (fun t => recorded s t (.nmsWake (r.u8 0)))) ∧
  (∀ s r, Ready specNmsLog s r → Completes (exec (.nmsLog r) s) (fun t => s.Told r t (fun d => d.length = 16 * r.u8 1 ∧
    ∀ i < r.u8 1, ∀ k < 4, wordAt d (16 * i + 4 * k) = s.shReg (R.NMS_LOG (r.u8 0 + i) k))))

/-- Table 16.2. -/
def Obligations.CurfewAndDusk : Prop :=
  let on := fun (s : State) (c : Nat) => s.Inv ∧ c < 8 ∧ s.nms.coves.length = 8 ∧ s.cmnRuns = true ∧ s.coveEn c = true
  let cnt := fun (s t : State) (k : Nat) => s.Counts t .E (R.NMS_CNT k)
  let started := fun (s t : State) (c : Nat) =>
    t.coveRing c = (s.coveRing c + 1) % 256 ∧ cnt s t 0 ∧ s.OneCove t c ∧ (t.cove c).waiting = false ∧
    OutMsg.ring c mCURFEW ((s.coveRing c + 1) % 256) 0 ∈ t.outbox ∧
    (s.nMem c ≠ 0 → t.coveSt c = vCURFEW ∧ t.shFld (R.NMS_COVE_STAT c) F.NMS_COVE_STAT_POS = 0 ∧
      s.AsideBut [R.NMS_COVE_STAT c, R.NMS_CNT 0] t ∧ t = { s with regs := t.regs, nms := t.nms, outbox := t.outbox })
  let dusk := fun (s t : State) (c : Nat) => t.coveSt c = vDUSK ∧ cnt s t 1 ∧ OutMsg.ring c mAGREED (t.coveRing c) 0 ∈ t.outbox ∧
    ∀ p ∈ s.coveLin c, s.linCommander p = true → t.linSt p = lnSLEEP ∧
      OutMsg.linTx p 60 [0x00, 0xFF, 0xFF, 0xFF, 0xFF, 0xFF, 0xFF, 0xFF] ∈ t.outbox
  let asleep := fun (s t : State) (c : Nat) => t.coveSt c = vWAKING ∧ s.OneCove t c ∧
    (∀ n ∈ s.coveCan c, t.canTrx n = s.shFld (R.CAN_TRX n) F.CAN_TRX_TRX) ∧
    (∀ p ∈ s.coveLin c, t.linSt p = lnWAKING ∧ OutMsg.linTx p 0 [] ∈ t.outbox) ∧
    (∀ p ∈ s.coveEth c, p < 10 → OutMsg.wake p ∈ t.outbox) ∧
    ∀ k < 4, (∃ p ∈ s.coveLin c, (s.shReg (R.CAN_INH_MAP k)).toNat.testBit (16 + p) = true) → t.mod_.inh[k]? = (s.mod_.inh.set k true)[k]?
  (∀ s c, on s c → s.shBit (R.NMS_COVE_CFG3 c) F.NMS_COVE_CFG3_AUTO_IDLE_EN = true → (s.cove c).votes = [] →
    s.coveSt c ≠ vASLEEP → Completes (exec (.autoIdleTimeout c) s) (fun t =>
      t.coveReq c = true ∧ (s.coveReq c = true → t = s) ∧ (s.coveReq c = false → t.coveFails c = 0 ∧ (t.cove c).waiting = false ∧
        s.OneCove t c ∧ s.AsideBut [R.NMS_COVE_STAT c] t ∧ t = { s with regs := t.regs, nms := t.nms }))) ∧
  (∀ s c, on s c → s.coveReq c = true → s.coveSt c = vAWAKE → (s.cove c).votes = [] → s.nms.wakes = [] →
    ((s.cove c).waiting = false → Completes (exec (.ringStart c) s) (fun t => started s t c ∧ (s.nMem c = 0 → dusk s t c))) ∧
    ((s.cove c).waiting = true → exec (.ringStart c) s = .next s ∧
      Completes (exec (.ringRetry c) s) (fun t => started s t c ∧ (s.nMem c = 0 → dusk s t c)))) ∧
  (∀ s c, (s.cove c).waiting = false → exec (.ringRetry c) s = .next s) ∧
  (∀ s c q ty ring pos src reason crcOk, on s c → (s.coveSt c = vDUSK → ring = s.coveRing c) →
    let listed := 1 ≤ pos ∧ pos ≤ s.nMem c ∧ s.memSrc c pos = src ∧ q = s.shFld (R.NMS_COVE_CFG0 c) F.NMS_COVE_CFG0_RING_PORT
    let turn := crcOk = true ∧ listed ∧ ring = s.coveRing c ∧ s.coveSt c = vCURFEW ∧
      pos = s.shFld (R.NMS_COVE_STAT c) F.NMS_COVE_STAT_POS + 1
    (¬ (crcOk = true ∧ listed) ∨ (ty ≠ mREQUEST ∧ ¬ turn) → exec (.ringMessage c q ty ring pos src reason crcOk) s =
      .next { s with nms := { s.nms with ignored := s.nms.ignored + 1 } }) ∧
    (crcOk = true → listed → ty = mREQUEST → (s.cove c).waiting = true →
      exec (.ringMessage c q ty ring pos src reason crcOk) s = exec (.ringRetry c) s) ∧
    (turn → ty = mCONSENT → Completes (exec (.ringMessage c q ty ring pos src reason crcOk) s) (fun t =>
      t.shFld (R.NMS_COVE_STAT c) F.NMS_COVE_STAT_POS = pos % 32 ∧
      (pos < s.nMem c → t.coveSt c = vCURFEW ∧ s.AsideBut [R.NMS_COVE_STAT c] t ∧ s.RegsAlone t) ∧
      (pos = s.nMem c → s.nms.wakes = [] → dusk s t c ∧ t.coveRing c = s.coveRing c))) ∧
    (turn → ty = mREFUSE → src < 65536 → s.nms.wakes = [] →
      Completes (exec (.ringMessage c q ty ring pos src reason crcOk) s) (fun t =>
        s.RingFailed t c ∧ (t.cove c).waiting = true ∧ cnt s t 2 ∧ s.Logged t c src true false ∧
        t.shFld (R.NMS_COVE_UNK c) F.NMS_COVE_UNK_REASON = reason % 256))) ∧
  (∀ s c, on s c → s.coveSt c = vCURFEW → s.nms.wakes = [] → Completes (exec (.hopTimeout c) s) (fun t =>
    s.RingFailed t c ∧ (t.cove c).waiting = true ∧ cnt s t 3 ∧
    s.Logged t c (s.memSrc c (s.shFld (R.NMS_COVE_STAT c) F.NMS_COVE_STAT_POS + 1)) true true)) ∧
  (∀ s c fr, on s c → s.coveSt c = vDUSK → s.nms.wakes = [] → Completes (exec (.duskEvent c fr) s) (fun t =>
    s.RingFailed t c ∧ (t.cove c).waiting = false ∧ cnt s t 4 ∧
    (∀ p ∈ s.coveLin c, s.linCommander p = true → t.linSt p = lnWAKING ∧ OutMsg.linTx p 0 [] ∈ t.outbox) ∧
    ∀ x ∈ fr, (∀ src ∈ s.memberOf c x.1 x.2, s.Logged t c src false false) ∧
      (s.memberOf c x.1 x.2 = none → s.Logged t c 0xFFFF false false ∧
        t.shFld (R.NMS_COVE_UNK c) F.NMS_COVE_UNK_UNK_ID = (if x.1 then x.2 / 2 ^ 24 else x.2) % 2 ^ 24))) ∧
  (∀ s c, on s c → s.coveSt c = vDUSK → Completes (exec (.duskExpiry c) s) (fun t => t.coveSt c = vFINAL ∧ s.RegsAlone t ∧
    (∀ n < 16, t.canTrx n = if n ∈ s.coveCan c then cSLEEP else s.canTrx n) ∧
    (∀ p < 8, t.linSt p = if p ∈ s.coveLin c ∧ s.linCommander p = true then lnSLEEP else s.linSt p) ∧
    (∀ p ∈ s.coveEth c, (p < 10 → t.shFld (R.ETHS_P_STAT p) F.ETHS_P_STAT_TC10 = 1) ∧
      (10 ≤ p → t.shBit (R.ETHS_P_STAT p) F.ETHS_P_STAT_LINK = false)))) ∧
  (∀ s c, on s c → s.coveSt c = vFINAL → s.mod_.asleep = false → s.shBit R.NMS_STATUS F.NMS_STATUS_MOD_ENTERING = false →
    s.shFld (R.NMS_COVE_CFG0 c) F.NMS_COVE_CFG0_FANOUT = 0 → Completes (exec (.finalComplete c) s) (fun t =>
      let pending := (s.shFld R.NMS_WAKE_PENDING F.NMS_WAKE_PENDING_COVES).testBit c
      cnt s t 5 ∧ t.coveReq c = false ∧ (∀ w ∈ t.nms.curfews, w.2.testBit c = false) ∧
      (∀ w ∈ s.nms.curfews, s.nms.curfews = [w] → w.2 = 2 ^ c → s.Disposes t w.1 dDONE 0) ∧
      (pending = true → t.coveSt c = vWAKING ∧ cnt s t 6 ∧ t.shBit R.NMS_WAKE_PENDING F.NMS_WAKE_PENDING_SEEN = true ∧
        (t.shFld R.NMS_WAKE_PENDING F.NMS_WAKE_PENDING_COVES).testBit c = false) ∧
      (pending = false → t.coveSt c = vASLEEP ∧ t.shBit R.NMS_STATUS F.NMS_STATUS_MOD_ENTERING =
        (s.shBit R.NMS_CFG F.NMS_CFG_MOD_SLEEP && coves8.all (fun k => !s.coveEn k || k == c || s.coveSt k == vASLEEP))))) ∧
  (∀ s c, on s c → s.mod_.asleep = false → s.shBit R.NMS_STATUS F.NMS_STATUS_MOD_ENTERING = false →
    s.shFld (R.NMS_COVE_CFG0 c) F.NMS_COVE_CFG0_FANOUT = 0 → Completes (exec (.coveWake c) s) (fun t =>
      (s.coveSt c = vASLEEP → asleep s t c) ∧ (s.coveSt c = vDUSK → s.RingFailed t c ∧ cnt s t 4) ∧
      (s.coveSt c = vFINAL → t.coveSt c = vFINAL ∧ (t.shFld R.NMS_WAKE_PENDING F.NMS_WAKE_PENDING_COVES).testBit c = true ∧
        s.AsideBut [R.NMS_WAKE_PENDING] t))) ∧
  (∀ s d m, s.Inv → d < 2 → m < 112 → s.mod_.asleep = true → isDin (s.fMode d m) = true →
    s.shBit (R.FCH_CFG d m) F.FCH_CFG_WAKE_EN = true → Completes (exec (.fieldWake d m) s) (fun t =>
      let a := R.FCH_WAKE_STAT d
      t.shBit a F.FCH_WAKE_STAT_WOKE = true ∧
      t.shFld a F.FCH_WAKE_STAT_FIRST = (if s.shBit a F.FCH_WAKE_STAT_WOKE then s.shFld a F.FCH_WAKE_STAT_FIRST else m) ∧
      ∀ c < 8, s.coveEn c = true → (s.shFld R.NMS_CFG F.NMS_CFG_FIELD_COVES).testBit c = true → s.coveSt c ≠ vDUSK →
        s.shFld R.NMS_CFG F.NMS_CFG_FIELD_COVES = 2 ^ c →
        (t.shFld R.NMS_WAKE_PENDING F.NMS_WAKE_PENDING_COVES).testBit c = true ∧
        t.shBit R.NMS_WAKE_PENDING F.NMS_WAKE_PENDING_MOD = true)) ∧
  (∀ s c, on s c → s.coveSt c = vWAKING → Completes (exec (.wakingComplete c) s) (fun t =>
    s.nms.wakes = [] → (s.harb .E).keptOrder = [] → (s.harb .W).keptOrder = [] →
      t.coveSt c = vAWAKE ∧ s.AsideBut [R.NMS_COVE_STAT c] t ∧ t = { s with regs := t.regs, outbox := t.outbox }))

/-- Tables 2.10 and 3.3. -/
def Obligations.SuppliesAndStraps : Prop :=
  let inhOn := fun (s t : State) (b : Bool) => t.mod_.inh = if b then [true, true, true, true] else s.mod_.inh
  (∀ s feed test, s.Inv → Completes (exec (.powerOn feed test) s) (fun t =>
    let aon := feed = 3 ∨ feed = 6
    t.mod_.feedAon = (s.mod_.feedAon || decide aon) ∧ inhOn s t (decide aon && !s.aonPowered) ∧
    (test = true ∨ s.mod_.poweredOn = true → t = { s with mod_ := { s.mod_ with feedAon := t.mod_.feedAon, inh := t.mod_.inh } }) ∧
    (test = false → s.mod_.poweredOn = false → t.mod_.poweredOn = true ∧ t.mod_.configured = false ∧ t.laneE.powered = true ∧
      t.laneW.powered = true ∧ t.p0.up = true ∧ t.p1.up = true ∧ t.f0.up = true ∧ t.f1.up = true ∧ t.fi.up = false ∧
      t.cmn.up = true ∧ t.pw0.configured = false ∧ t.fd0.configured = false))) ∧
  (∀ s l mv, s.Inv → Completes (exec (.vkeepInputChange l mv) s) (fun t =>
    let e := if l = .E then decide (3000 ≤ mv) else s.mod_.vkeepE
    let w := if l = .W then decide (3000 ≤ mv) else s.mod_.vkeepW
    t.mod_ = { s.mod_ with vkeepE := e, vkeepW := w, inh := t.mod_.inh } ∧
    inhOn s t (decide (3000 ≤ mv) && !s.aonPowered) ∧
    (∀ m, t.bit m R.SUPC_STATUS F.SUPC_STATUS_VKEEP_LOST = (!e && !w) ∧
      t.fld m R.SUPC_VKEEP (if l = .E then F.SUPC_VKEEP_V_KEEP_E else F.SUPC_VKEEP_V_KEEP_W) = uext 16 (satS 16 (mv / 2))) ∧
    s.RegsBut (bothKeys R.SUPC_VKEEP ++ bothKeys R.SUPC_STATUS) t ∧ t = { s with regs := t.regs, mod_ := t.mod_ })) ∧
  (∀ s l low,
    ((s.lane l).powered = true → exec (.laneSupplyLow l low) s =
      .next (s.setLane l { s.lane l with holdup := low, warned := (s.lane l).warned && low })) ∧
    ((s.lane l).powered = false → exec (.laneSupplyLow l low) s = .next s)) ∧
  (∀ s l, s.Inv →
    ((s.lane l).powered = true → (s.lane l).holdup = true → Completes (exec (.supplyWarning l) s) (fun t =>
      t.lane l = { s.lane l with warned := true } ∧ t.lane l.other = s.lane l.other ∧
      ((s.lane l).elderUp = false → t.regs = s.regs ∧ t.par l = s.par l) ∧
      ((s.lane l).elderUp = true → (t.par l).slots = (t.parCells l :: (s.par l).slots).take 256 ∧ (t.par l).secs = 0))) ∧
    ((s.lane l).holdup = false → exec (.supplyWarning l) s = .next s)) ∧
  (∀ s l straps, s.Inv → (s.lane l).powered = true → (s.lane l).holdup = true →
    Completes (exec (.lanePor l true straps) s) (fun t => s.ResetTo t l .por 0x01 0 ∧ (t.lane l).powered = false ∧
      (t.lane l).holdup = false)) ∧
  (∀ s l straps, s.Inv → s.mod_.poweredOn = true → s.mod_.asleep = false → (s.lane l).thermOff = false →
    (s.lane l).released = [] → (s.lane l).resetting = some .por → s.heldDown l = false →
    Completes (exec (.lanePor l false straps) s) (fun t =>
      t.mod_.straps = straps % 8 ∧ (t.lane l).straps = straps % 8 ∧ (t.lane l).powered = true ∧ (t.lane l).released = [0] ∧
      (t.lane l).strapOk = decide (strapClass (straps % 8) ≠ 3) ∧
      t.fld l R.FERRY_LANE F.FERRY_LANE_HOME = (if straps.testBit 0 then 0 else 1) ∧
      t.fld l R.SUPC_STATUS F.SUPC_STATUS_STRAP_CLASS = strapClass (straps % 8) ∧
      t.bit l R.SUPC_STATUS F.SUPC_STATUS_STRAP_INVALID = decide (strapClass (straps % 8) = 3) ∧
      (s.p0.up = true → s.pw0.configured = false → strapClass (straps % 8) ≠ 3 → ∀ f ∈ [1, 2, 3],
        t.shFld (R.SUPC_FEED_CFG f) F.SUPC_FEED_CFG_CLASS = strapClass (straps % 8)) ∧
      t.lane l.other = s.lane l.other)) ∧
  (∀ s, s.Inv → Completes (exec .alwaysOnPowerLoss s) (fun t =>
    t.mod_.vkeepE = false ∧ t.mod_.vkeepW = false ∧ t.mod_.feedAon = false ∧ t.mod_.inh = [false, false, false, false] ∧
    t.led.rtcLost = true ∧ (∀ l, t.bit l R.PARI_STATUS F.PARI_STATUS_CAL_VALID = false) ∧ (∀ a ∈ aonRegs, t.shReg a = 0) ∧
    (∀ l, t.bit l R.SUPC_STATUS F.SUPC_STATUS_VKEEP_LOST = true) ∧
    (s.upd.st = uTRIAL → t.upd.st = uREVERTING) ∧ (s.upd.st ≠ uTRIAL → t.upd = s.upd) ∧
    (s.mod_.asleep = true → t.mod_.asleep = false ∧ t.mod_.poweredOn = false)))

/-- Tables 3.8, 4.1 and 4.2. -/
def Obligations.ThermalAndErrors : Prop :=
  let flag := fun (was : Bool) (temp on off : Int) => decide (16 * on ≤ temp) || (was && decide (16 * off ≤ temp))
  (∀ s l temp, s.Inv → (s.lane l).thermOff = false → Completes (exec (.junctionThreshold l.ix temp) s) (fun t =>
    let x := s.lane l
    (t.lane l).junction = uext 16 (satS 16 temp) ∧ (t.lane l).thermWarn = flag x.thermWarn temp 115 110 ∧
    t.domBit l 1 F.CLKC_DOM_STAT_REDUCED = flag (s.domBit l 1 F.CLKC_DOM_STAT_REDUCED) temp 120 112 ∧
    (16 * 125 ≤ temp → s.lst l = stACTIVE → s.lst l.other = stSTANDBY →
      (t.lane l).withdrawing = true ∧ t.ferry = { s.ferry with handover := some .withdraw }) ∧
    (16 * 125 ≤ temp → s.lst l ≠ stWITHDRAWN → ¬ (s.lst l = stACTIVE ∧ s.lst l.other = stSTANDBY) →
      (t.lane l).thermCrit = true ∧ t.ferry = s.ferry) ∧
    (temp < 16 * 110 → (t.lane l).thermCrit = false ∧ (t.lane l).withdrawing = false ∧
      t.lst l = (if s.lst l = stWITHDRAWN then stUNSYNC else s.lst l)) ∧
    (16 * 110 ≤ temp → temp < 16 * 125 → t.lane l = { x with junction := (t.lane l).junction, thermWarn := (t.lane l).thermWarn } ∧
      s.OnlyRegs [regKey l.ix (R.CLKC_DOM_STAT 1)] (t.setLane l x)))) ∧
  (∀ s loc temp, s.Inv → 2 ≤ loc → loc ≤ 5 → s.mod_.therms.length = 4 → Completes (exec (.junctionThreshold loc temp) s) (fun t =>
    let x := s.therm (loc - 2)
    let cool := x.off = true ∧ temp < 16 * 120
    (t.therm (loc - 2)).warn = flag x.warn temp 115 110 ∧ (t.therm (loc - 2)).crit = flag x.crit temp 125 110 ∧
    (t.therm (loc - 2)).off = (x.off && !decide (temp < 16 * 120)) ∧
    (cool → 3 ≤ loc → s.mod_.poweredOn = true → s.mod_.asleep = false → (loc = 5 → s.f1.up = true) → (t.die (thermDie loc)).up = true) ∧
    (¬ cool → t = { s with mod_ := t.mod_ }))) ∧
  (∀ s l temp, s.Inv → 16 * 140 ≤ temp → (s.lane l).powered = true → (s.lane l).thermOff = false →
    Completes (exec (.thermalShutdown l.ix temp) s) (fun t => (t.lane l).thermOff = true ∧
      s.ResetTo t l .por 0x80 0)) ∧
  (∀ s temp, s.Inv → 16 * 140 ≤ temp → Completes (exec (.thermalShutdown 2 temp) s) (fun t => t.mod_.cmnSafe = true ∧
    t.shBit R.CVC_SEL_STATUS F.CVC_SEL_STATUS_CMN_SAFE = true ∧ t.pwmRecs = [] ∧ t.cmnRecs = [])) ∧
  (∀ s loc temp, s.Inv → 16 * 140 ≤ temp → 3 ≤ loc → loc ≤ 5 → s.mod_.therms.length = 4 →
    Completes (exec (.thermalShutdown loc temp) s) (fun t => (t.therm (loc - 2)).off = true ∧ (t.die (thermDie loc)).up = false ∧
      (loc = 4 → t.fi.up = false))) ∧
  (∀ s loc temp, temp < 16 * 140 → exec (.thermalShutdown loc temp) s = .next s) ∧
  (∀ s l k, s.Inv → (s.lane l).powered = true → 1 ≤ k → k ≤ 7 →
    Completes (exec (.eccError l k false) s) (fun t => s.Counts t l R.PARI_ECC ∧ s.OnlyRegs [regKey l.ix R.PARI_ECC] t) ∧
    Completes (exec (.eccError l k true) s) (fun t => s.ResetTo t l .sys 0x40 k)) ∧
  (∀ s, s.Inv → s.mod_.resetN = false → s.mod_.poweredOn = true → s.mod_.asleep = false →
    Completes (exec .resetNAssert s) (fun t => t.mod_.resetN = true ∧ ∀ l, (s.lane l).powered = true → s.ResetTo t l .sys 0x10 0)) ∧
  (∀ s, exec .resetNRelease s = .next { s with mod_ := { s.mod_ with resetN := false } }) ∧
  (∀ s l p ps, s.Inv → (s.lane l).powered = true → (s.lane l).pendResets = p :: ps → p.detail < 256 →
    let taken := fun (t : State) => (t.lane l).pendResets = ps ∧ p.lsn ∈ (t.lane l).resetLsns ∧ s.ResetTo t l p.level p.cause p.detail
    (p.cause = 0x31 → Completes (exec (.resetMessage l) s) taken) ∧
    (p.cause = 0x30 → Completes (exec (.signedResetAssert l) s) taken)) ∧
  (∀ s l, (s.lane l).pendResets = [] → exec (.resetMessage l) s = .next s ∧ exec (.signedResetAssert l) s = .next s)

/-- Table 4.6, R130, R170, R510, R511. -/
def Obligations.FreezeAndSleep : Prop :=
  (∀ s, s.Inv → s.mod_.frozen = false → s.mod_.poweredOn = true → s.mod_.asleep = false →
    ((s.laneE.powered = true ∨ s.laneW.powered = true) → (∀ l, (s.lane l).powered = true → s.bench l = true) →
      Completes (exec .freezeEntry s) (fun t => t.mod_.frozen = true ∧
        t.shBit R.CVC_SEL_STATUS F.CVC_SEL_STATUS_FRZ_PWM_HOLD = true ∧ (∀ k < 12, (t.sel k).held = true) ∧
        ∀ l, (s.lane l).powered = true → t.bit l R.RSTC_STATUS F.RSTC_STATUS_FROZEN = true ∧
          t.bit l R.RSTC_STATUS F.RSTC_STATUS_FRZ_PWM_HOLD = true ∧ (t.lane l).safeBall = false ∧
          (t.lane l).memSelfRefresh = true ∧ ∀ n < 8, t.domBit l n F.CLKC_DOM_STAT_FRZ_STOPPED =
            (decide (n ∈ [1, 2, 3, 4, 5, 7]) || s.domBit l n F.CLKC_DOM_STAT_FRZ_STOPPED))) ∧
    (∀ l, (s.lane l).powered = true → s.bench l = false → exec .freezeEntry s = .next s)) ∧
  (∀ s, s.Inv → s.mod_.frozen = true → Completes (exec .freezeThaw s) (fun t => t.mod_.frozen = false ∧
    t.canHeld = [] ∧ t.harbHeld = [] ∧
    ∀ l, t.bit l R.RSTC_STATUS F.RSTC_STATUS_FROZEN = false ∧ t.bit l R.RSTC_STATUS F.RSTC_STATUS_RESET_DEFERRED = false ∧
      (t.lane l).deferred = none ∧ (t.lane l).memSelfRefresh = false ∧
      ∀ n < 6, (s.bit l (R.RSTC_WDT_CFG n) F.RSTC_WDT_CFG_EN = true → t.fld l (R.RSTC_WDT_CNT n) F.RSTC_WDT_CNT_REMAIN =
        min (s.fld l (R.RSTC_WDT_CFG n) F.RSTC_WDT_CFG_PERIOD_M1 + 1) 65535) ∧
        (s.bit l (R.RSTC_WDT_CFG n) F.RSTC_WDT_CFG_EN = false → t.reg l (R.RSTC_WDT_CNT n) = s.reg l (R.RSTC_WDT_CNT n)))) ∧
  (∀ s, s.mod_.frozen = false → exec .freezeThaw s = .next s) ∧
  (∀ s l, s.Inv →
    (s.leaseValid l = true → s.mod_.frozen = false → Completes (exec (.frzPwmHoldClear l) s) (fun t =>
      (∀ m, t.bit m R.RSTC_STATUS F.RSTC_STATUS_FRZ_PWM_HOLD = false) ∧
      t.shBit R.CVC_SEL_STATUS F.CVC_SEL_STATUS_FRZ_PWM_HOLD = false ∧
      s.OnlyRegs (dieKey R.CVC_SEL_STATUS :: bothKeys R.RSTC_STATUS) t)) ∧
    (s.leaseValid l = false → exec (.frzPwmHoldClear l) s = .next s)) ∧
  (∀ s l core, core < 8 → s.quietOn = true → s.ferry.quietStay = some l → (s.lane l).elderUp = true →
    Completes (exec (.coreWfiRetention l core) s) (fun t =>
      (t.lane l).retention = core :: (s.lane l).retention.filter (fun c => c != core) ∧
      (t.lane l).memSelfRefresh = decide (8 ≤ (t.lane l).retention.length) ∧
      t = s.setLane l { s.lane l with retention := (t.lane l).retention, memSelfRefresh := (t.lane l).memSelfRefresh })) ∧
  (∀ s l core, s.quietOn = false → exec (.coreWfiRetention l core) s = .next s) ∧
  (∀ s, s.Inv → s.shBit R.NMS_STATUS F.NMS_STATUS_MOD_ENTERING = true →
    (s.moduleMaySleep = true → Completes (exec .moduleSleep s) (fun t =>
      t.mod_.asleep = true ∧ t.mod_.configured = false ∧ t.cmn.up = false ∧ t.p0.up = false ∧ t.p1.up = false ∧ t.fi.up = false ∧
      t.shBit R.NMS_STATUS F.NMS_STATUS_MOD_ENTERING = false ∧
      (∀ l, (t.lane l).powered = false ∧ ((s.lane l).powered = true → t.lst l = stRESET ∧ (t.lane l).resetting = some .por ∧
        (t.par l).slots.length = min ((s.par l).slots.length + 1) 256)) ∧
      (∀ d < 2, ∀ m < 112, s.shBit (R.FCH_STATE d m) F.FCH_STATE_WAKE_ARMED = false → t.fSt d m = fPARKED))) ∧
    (s.moduleMaySleep = false → exec .moduleSleep s = .next s)) ∧
  (∀ s, s.Inv → s.mod_.asleep = true → Completes (exec .moduleWake s) (fun t =>
    t.mod_.asleep = false ∧ t.laneE.powered = true ∧ t.laneW.powered = true ∧ t.p0.up = true ∧ t.f0.up = true ∧ t.f1.up = true ∧
    t.cmn.up = true ∧ (∀ c < 8, s.coveEn c = true → t.coveSt c =
      if (s.shFld R.NMS_WAKE_PENDING F.NMS_WAKE_PENDING_COVES).testBit c = true ∧ s.coveSt c = vASLEEP then vWAKING else s.coveSt c) ∧
    t.shFld R.NMS_WAKE_PENDING F.NMS_WAKE_PENDING_COVES = 0)) ∧
  (∀ s, s.mod_.asleep = false → exec .moduleWake s = .next s)

/-- Tables 4.2, 4.7 and 4.9. -/
def Obligations.ResetCommands : Prop :=
  let seen := fun (s : State) (r : Req) (l : Lane) =>
    l = s.server r ∨ s.bit (s.server r) R.FERRY_LANE F.FERRY_LANE_STRAIT_UP = true
  let lanes := fun (n : Nat) => [Lane.E, Lane.W].filter (fun l => n.testBit l.ix)
  let blocked := fun (t : State) (l : Lane) (b : Nat) => t.fld l R.RSTC_BLKRST ⟨b, b⟩ = 1 ∧ b ∈ (t.lane l).blocksInReset
  let byte := fun (n : Nat) => if n = 2 then Lane.W else Lane.E
  (∀ s r, Ready specResetNonce s r → Completes (exec (.resetNonce r) s) (fun t => s.RegsAside t ∧
    s.Served { t with laneE := s.laneE, laneW := s.laneW, freeCtr := s.freeCtr } ∧
    s.Replied r t (fun d => d.length = 8 ∧
      (t.lane (s.server r)).nonces.head? = some (s.streamOf r.lane r.src, leNat d, s.now)))) ∧
  (∀ s r, Ready specReset s r → Completes (exec (.reset r) s) (fun t =>
    let me := s.server r
    ∀ l, (r.u8 1).testBit l.ix = true →
      (s.resetAbsent me l = true → t.Ends s.led.nextLsn dUNDELIVERABLE eLANE_ABSENT) ∧
      (s.resetAbsent me l = false →
        let lvl := if r.u8 0 = 1 then RLevel.core else RLevel.sys
        (t.lane l).pendResets = (s.lane l).pendResets ++
          [⟨lvl, if l = me then 0x30 else 0x31, srcNumber r.src, s.led.nextLsn⟩] ∧
        (l ≠ me → OutMsg.resetMsg l lvl (srcNumber r.src) s.led.nextLsn ∈ t.outbox)))) ∧
  (∀ s r, Ready specClockStatus s r → Completes (exec (.clockStatus r) s) (fun t => s.Replied r t (fun d =>
    d.length = 36 * (lanes (r.u8 0)).length ∧ ∀ i < 2, ∀ l ∈ (lanes (r.u8 0))[i]?, seen s r l →
      wordAt d (36 * i) = s.reg l R.CLKC_XTAL_STAT ∧ ∀ n < 8, wordAt d (36 * i + 4 + 4 * n) = s.reg l (R.CLKC_DOM_STAT n)))) ∧
  (∀ s r, Ready specResetCause s r → Completes (exec (.resetCause r) s) (fun t => s.Replied r t (fun d => d.length = 8 ∧
    ∀ l, seen s r l → wordAt d (4 * l.ix) = s.reg l R.RSTC_RST_CAUSE))) ∧
  (∀ s r, Ready specBlockReset s r → Completes (exec (.blockReset r) s) (fun t =>
    let l := byte (r.u8 0)
    let b := r.u8 1
    (s.laneOut l = false → t.Ends s.led.nextLsn dUNDELIVERABLE eLANE_ABSENT) ∧
    (s.laneOut l = true → (s.lane l).blkWait = [] →
      ((∃ e ∈ s.led.entries, e.st = .executing ∧ s.blkWork l b e = true) →
        (t.lane l).blkWait = [(s.led.nextLsn, b)] ∧ t.fld l R.RSTC_BLKRST ⟨b, b⟩ = s.fld l R.RSTC_BLKRST ⟨b, b⟩) ∧
      ((∀ e ∈ s.led.entries, ¬ (e.st = .executing ∧ s.blkWork l b e = true)) →
        blocked t l b ∧ (s.led.nextLsn, b) ∈ (t.lane l).blkLsns)))) ∧
  (∀ s r, Ready specWatchdogSet s r → Completes (exec (.watchdogSet r) s) (fun t =>
    let l := byte (r.u8 0)
    (s.laneOut l = false → t.Ends s.led.nextLsn dUNDELIVERABLE eLANE_ABSENT) ∧
    (s.laneOut l = true → t.reg l (R.RSTC_WDT_CFG (r.u8 1)) = r.w 2 ∧
      t.fld l (R.RSTC_WDT_CNT (r.u8 1)) F.RSTC_WDT_CNT_REMAIN = min (getF (r.w 2) F.RSTC_WDT_CFG_PERIOD_M1 + 1) 65535 ∧
      s.Did t [R.RSTC_WDT_CFG (r.u8 1), R.RSTC_WDT_CNT (r.u8 1)]))) ∧
  (∀ s r, Ready specCommonsRestart s r → Completes (exec (.commonsRestart r) s) (fun t =>
    (∃ i ∈ t.scs.inbox, i.opcode = 0x0D06 ∧ i.req = r) ∧
    (s.cmnVoters ≠ [] → t.mod_.cmnRestarting = true ∧ ∀ l, (t.lane l).cmnRestartAsked = false))) ∧
  (∀ s l who v, s.Inv →
    let keyed := who = .elder ∧ getF v F.RSTC_REQ_KEY = 0xA5C3 ∧ s.mod_.frozen = false
    (keyed → getF v F.RSTC_REQ_LEVEL = 1 → Completes (exec (.rstcReqCore l who v) s) (fun t => t.bus = .ok 0 ∧ s.ResetTo t l .core 0x70 0)) ∧
    (keyed → getF v F.RSTC_REQ_LEVEL = 2 → Completes (exec (.rstcReqSys l who v) s) (fun t => t.bus = .ok 0 ∧ s.ResetTo t l .sys 0x70 0)) ∧
    (¬ keyed → exec (.rstcReqCore l who v) s = .next { s with bus := .ok 0 } ∧
      exec (.rstcReqSys l who v) s = .next { s with bus := .ok 0 })) ∧
  (∀ s l b, s.Inv → (s.lane l).elderUp = true → s.mod_.frozen = false → b ∈ blkBits →
    Completes (exec (.blkrstWrite l .elder (2 ^ b)) s) (fun t => t.bus = .ok 0 ∧ blocked t l b ∧ s.DiesKept t ∧
      t.outs = s.outs ∧ t.fcs = s.fcs ∧ t.canPorts = s.canPorts ∧ (b = 0 → t.tide l = .reset) ∧ (b = 1 → t.cvc l = .reset) ∧
      (b = 2 → t.harb l = .reset ∧ t.harbIn l = []) ∧
      ∀ e ∈ s.led.entries, s.blkWork l b e = true →
        (e.st = .executing → s.Disposes t e.lsn dFAILED eBLOCK_RESET) ∧
        (e.st = .accepted → s.Disposes t e.lsn dUNDELIVERABLE eQUEUED_AT_RESET))) ∧
  (∀ s l f mask, s.Inv → (∀ g ∈ s.grants, g.standing = false) →
    exec (.blkrstWrite l (.func f) mask) s = .next { s with bus := .ok 0 }) ∧
  (∀ s l b, s.Inv → b < 12 → (s.lane l).blocksInReset.contains b = true →
    s.domBit l (blkDomain b) F.CLKC_DOM_STAT_CLK_GOOD = true → s.mod_.frozen = false →
    Completes (exec (.blockResetRelease l b) s) (fun t => t.fld l R.RSTC_BLKRST ⟨b, b⟩ = 0 ∧
      (t.reg l R.RSTC_SUSPECT).toNat.testBit b = false ∧
      t.bit l R.RSTC_STATUS F.RSTC_STATUS_SUSPECT_ANY = decide (t.reg l R.RSTC_SUSPECT ≠ 0) ∧
      b ∉ (t.lane l).blocksInReset ∧ ∀ p ∈ (s.lane l).blkLsns, p.2 = b → s.Disposes t p.1 dDONE 0)) ∧
  (∀ s l who mask, s.Inv →
    (s.mayWrite l 0 who = false → exec (.forceCdWrite l who mask) s = .next { s with bus := .error }) ∧
    (s.mayWrite l 0 who = true → s.bench l = false → exec (.forceCdWrite l who mask) s = .next { s with bus := .ok 0 }) ∧
    (s.mayWrite l 0 who = true → s.bench l = true → s.mod_.frozen = false →
      Completes (exec (.forceCdWrite l who mask) s) (fun t => t.bus = .ok 0 ∧ ∀ n < 8, 1 ≤ n → mask.testBit n = true →
        s.domBit l n F.CLKC_DOM_STAT_CLK_GOOD = false → (s.lane l).released.contains n = false →
        n ∈ (t.lane l).released ∧ n ∈ (t.lane l).forced ∧ t.bit l R.RSTC_STATUS F.RSTC_STATUS_SUSPECT_ANY = true ∧
        (t.reg l R.RSTC_SUSPECT).toNat &&& suspectMarks n = suspectMarks n))) ∧
  (∀ s l v, s.Inv → getF v F.RSTC_CMN_KEY = 0x3C0D → getF v F.RSTC_CMN_RESTART = 1 → s.mod_.frozen = false →
    s.mod_.cmnSafe = true → Completes (exec (.rstcCmnRestart l .elder v) s) (fun t => t.bus = .ok 0 ∧
      ((∀ m ∈ s.cmnVoters, m = l ∨ (s.lane m).cmnRestartAsked = true) → t.mod_.cmnRestarting = true) ∧
      (∀ m ∈ s.cmnVoters, m ≠ l → (s.lane m).cmnRestartAsked = false → (t.lane l).cmnRestartAsked = true ∧ t.mod_ = s.mod_))) ∧
  (∀ s result, s.Inv → s.mod_.cmnRestarting = true → result ≤ 2 → Completes (exec (.commonsRestartReport result) s) (fun t =>
    t.mod_.cmnRestarting = false ∧
    (result = 2 → t.mod_.cmnSafe = s.mod_.cmnSafe) ∧
    (result < 2 → t.mod_.cmnSafe = false ∧ t.mod_.cmnMismatch = decide (result = 1) ∧ t.cmn.up = true) ∧
    ∀ i ∈ s.scs.inbox, s.scs.inbox = [i] → i.opcode = 0x0D06 → i.req.src.wf = true → Answered s i.req SCS_OK 0 (leBytes 4 result) t))

/-- R105, R111 to R118, Tables 4.4 and 4.5. -/
def Obligations.ClocksAndRelease : Prop :=
  let dom := fun (s : State) (l : Lane) (n : Nat) (f : Fld) => s.bit l (R.CLKC_DOM_STAT n) f
  let deep := fun (s : State) (l : Lane) => ∃ v ∈ (s.lane l).resetting, v ≠ .core
  (∀ s l n key remain, s.Inv → n ≤ 5 → s.bit l (R.RSTC_WDT_CFG n) F.RSTC_WDT_CFG_EN = true → s.mod_.frozen = false →
    (s.lane l).powered = true →
    let p := s.fld l (R.RSTC_WDT_CFG n) F.RSTC_WDT_CFG_PERIOD_M1 + 1
    let lvl := if s.bit l (R.RSTC_WDT_CFG n) F.RSTC_WDT_CFG_LEVEL then RLevel.sys else RLevel.core
    let right := key = 0x5A5A ∧ s.fld l (R.RSTC_WDT_CFG n) F.RSTC_WDT_CFG_CLOSED * p ≤ (p - min remain p) * 256
    (right → Completes (exec (.wdtKick l n key remain) s) (fun t =>
      t.fld l (R.RSTC_WDT_CNT n) F.RSTC_WDT_CNT_REMAIN = min p 65535 ∧ s.OnlyRegs [regKey l.ix (R.RSTC_WDT_CNT n)] t)) ∧
    (¬ right → Completes (exec (.wdtKick l n key remain) s) (fun t => s.ResetTo t l lvl 0x20 n)) ∧
    Completes (exec (.watchdogExpiry l n) s) (fun t => s.ResetTo t l lvl 0x20 n)) ∧
  (∀ s l n key remain, s.bit l (R.RSTC_WDT_CFG n) F.RSTC_WDT_CFG_EN = false ∨ s.mod_.frozen = true →
    exec (.wdtKick l n key remain) s = .next s ∧ exec (.watchdogExpiry l n) s = .next s) ∧
  (∀ s l, s.Inv → (s.lane l).powered = true → (s.lane l).released.contains 0 = true →
    ((s.lane l).thermOff = false → Completes (exec (.xtalOk l) s) (fun t => t.reg l R.CLKC_XTAL_STAT = 1 ∧
      t.bit l R.RSTC_STATUS F.RSTC_STATUS_XTAL_FAIL = false ∧ dom t l 0 F.CLKC_DOM_STAT_CLK_GOOD = true ∧
      t.fld l (R.CLKC_DOM_STAT 0) F.CLKC_DOM_STAT_COUNT = 640 ∧
      s.OnlyRegs [regKey l.ix R.CLKC_XTAL_STAT, regKey l.ix R.RSTC_STATUS, regKey l.ix (R.CLKC_DOM_STAT 0)] t)) ∧
    (s.bit l R.CLKC_XTAL_STAT F.CLKC_XTAL_STAT_XTAL_OK = false → Completes (exec (.xtalFail l) s) (fun t =>
      t.reg l R.CLKC_XTAL_STAT = 2 ∧ t.bit l R.RSTC_STATUS F.RSTC_STATUS_XTAL_FAIL = true ∧
      s.OnlyRegs [regKey l.ix R.CLKC_XTAL_STAT, regKey l.ix R.RSTC_STATUS] t))) ∧
  (∀ s l n count, s.Inv → s.releasing l = true → 1 ≤ n → n ≤ 7 → deep s l →
    (countOk (dom s l 1 F.CLKC_DOM_STAT_REDUCED) n count = true → dom s l n F.CLKC_DOM_STAT_CLK_FAIL = false →
      Completes (exec (.clkGood l n count) s) (fun t => dom t l n F.CLKC_DOM_STAT_CLK_GOOD = true ∧
        dom t l n F.CLKC_DOM_STAT_LOCK = decide (n ≠ 7) ∧ t.fld l (R.CLKC_DOM_STAT n) F.CLKC_DOM_STAT_COUNT = count ∧
        ((∀ m ∈ [7, 5, 4, 6, 3, 2, 1], m ≠ n → dom s l m F.CLKC_DOM_STAT_CLK_GOOD = true) →
          (t.lane l).released = [0, 7, 5, 4, 6, 3, 2, 1]) ∧
        (n ≠ 7 → dom s l 7 F.CLKC_DOM_STAT_CLK_GOOD = false → dom s l 7 F.CLKC_DOM_STAT_CLK_FAIL = false →
          (s.lane l).forced = [] → (t.lane l).released = [0]) ∧
        s.RegsBut [regKey l.ix (R.CLKC_DOM_STAT n)] t)) ∧
    (dom s l n F.CLKC_DOM_STAT_CLK_GOOD = false → Completes (exec (.clkFail l n) s) (fun t =>
      dom t l n F.CLKC_DOM_STAT_CLK_FAIL = true ∧ t.bit l R.RSTC_STATUS F.RSTC_STATUS_CLK_FAIL_ANY = true ∧
      ((s.lane l).forced = [] → n ∉ (t.lane l).released) ∧
      s.RegsBut [regKey l.ix (R.CLKC_DOM_STAT n), regKey l.ix R.RSTC_STATUS] t))) ∧
  (∀ s l n count, s.Inv → (s.lane l).powered = true → (s.lane l).released.contains n = true → 1 ≤ n → n ≤ 7 → count < 65536 →
    (countOk (dom s l 1 F.CLKC_DOM_STAT_REDUCED) n count = true → exec (.clockMonitorFault l n count) s = .next s) ∧
    (countOk (dom s l 1 F.CLKC_DOM_STAT_REDUCED) n count = false → Completes (exec (.clockMonitorFault l n count) s) (fun t =>
      (n < 7 → s.ResetTo t l .sys 0x90 n ∧ dom t l n F.CLKC_DOM_STAT_FREQ_ERR = true ∧
        dom t l n F.CLKC_DOM_STAT_CLK_FAIL = true ∧ t.bit l R.RSTC_STATUS F.RSTC_STATUS_CLK_FAIL_ANY = true) ∧
      (n = 7 → s.fld l (R.LHS_EVT_CFG 1) F.LHS_EVT_CFG_RESP ≤ 1 →
        t.fld l (R.LHS_EVT_CNT 1) F.LHS_EVT_CNT_COUNT = min (s.fld l (R.LHS_EVT_CNT 1) F.LHS_EVT_CNT_COUNT + 1) 65535)))) ∧
  (∀ s l bad, s.Inv → (s.lane l).powered = true → (s.lane l).deferred = none → s.heldDown l = false →
    ((s.lane l).resetting = some .core → (s.lane l).coresHeld = false) →
    (deep s l → s.releasing l = true ∧ (s.lane l).released = [0, 7, 5, 4, 6, 3, 2, 1]) → (s.lane l).resetting ≠ none →
    s.lstepTests = [] →
    Completes (exec (.elderReleased l bad) s) (fun t => t.lst l = stBOOT ∧ (t.lane l).elderUp = true ∧
      (t.lane l).resetting = none ∧ (t.lane l).bootOk = false ∧ (t.lane l).coresHeld = false ∧ (t.lane l).upSince = s.now ∧
      (t.lane l).resetLsns = [] ∧
      (deep s l → t.reg l (R.RSTC_WDT_CFG 0) = 0x03E70003 ∧ t.fld l (R.RSTC_WDT_CNT 0) F.RSTC_WDT_CNT_REMAIN = 1000 ∧
        ((∀ n < 8, 1 ≤ n → dom s l n F.CLKC_DOM_STAT_CLK_GOOD = true) → t.reg l R.RSTC_SUSPECT = 0)) ∧
      ∀ k ∈ (s.lane l).resetLsns, (s.lane l).resetLsns = [k] → (∀ m, ∀ p ∈ (s.lane m).pendResets, p.lsn ≠ k) →
        (s.lane l.other).resetLsns = [] → s.Disposes t k dDONE 0)) ∧
  (∀ s l, (s.lane l).resetting = some .core → (s.lane l).powered = true → (s.lane l).deferred = none →
    (s.domBit l 1 F.CLKC_DOM_STAT_CLK_GOOD = true → s.domBit l 2 F.CLKC_DOM_STAT_CLK_GOOD = true →
      exec (.coreResetRelease l) s = .next (s.setLane l { s.lane l with coresHeld := false })) ∧
    (s.domBit l 2 F.CLKC_DOM_STAT_CLK_GOOD = false → exec (.coreResetRelease l) s = .next s))

/-- Table 20.3, R598 to R603. -/
def Obligations.ParishRegister : Prop :=
  let lane := fun (n : Nat) => if n = 1 then Lane.W else Lane.E
  let words := fun (s : State) (l : Lane) (d : List Byte) (o a n : Nat) => ∀ k < n, wordAt d (o + 4 * k) = s.reg l (a + 4 * k)
  let sum := fun (s t : State) (l : Lane) (lo hi n : Nat) => (t.reg l lo).toNat + 2 ^ 32 * (t.reg l hi).toNat =
    min ((s.reg l lo).toNat + 2 ^ 32 * (s.reg l hi).toNat + n) (2 ^ 64 - 1)
  (∀ s r, Ready specParStatus s r → Completes (exec (.parStatus r) s) (fun t => s.Told r t (fun d => d.length = 32 ∧
    wordAt d 0 = s.reg (lane (r.u8 0)) R.PARI_STATUS ∧ fieldAt d 4 8 = s.calSec % 2 ^ 64 ∧
    words s (lane (r.u8 0)) d 12 R.PARI_SESS 5))) ∧
  (∀ s r, Ready specParChannel s r → Completes (exec (.parChannel r) s) (fun t => s.Told r t (fun d =>
    d.length = 32 * r.u8 1 ∧ ∀ i < r.u8 1, ∀ k < 8, wordAt d (32 * i + 4 * k) = s.reg (s.server r) (R.PARI_CH (r.u8 0 + i) k)))) ∧
  (∀ s r, Ready specParThermal s r → Completes (exec (.parThermal r) s) (fun t => s.Told r t (fun d => d.length = 96 ∧
    (∀ k < 16, wordAt d (4 * k) = s.reg (lane (r.u8 0)) (R.PARI_TBIN k)) ∧
    ∀ k < 8, wordAt d (64 + 4 * k) = s.reg (lane (r.u8 0)) (R.PARI_TCYC k)))) ∧
  (∀ s r, Ready specParResets s r → Completes (exec (.parResets r) s) (fun t => s.Told r t (fun d => d.length = 56 ∧
    (∀ k < 11, wordAt d (4 * k) = s.reg (lane (r.u8 0)) (R.PARI_RST k)) ∧
    wordAt d 44 = s.reg (lane (r.u8 0)) R.PARI_ECC ∧ ∀ k < 2, wordAt d (48 + 4 * k) = s.reg (lane (r.u8 0)) (R.PARI_NOR k)))) ∧
  (∀ s r, Ready specParSession s r → Completes (exec (.parSession r) s) (fun t => ∀ l,
    (r.u8 0 = 1 → t.par l = { s.par l with open_ := true } ∧ s.FarBut [] t) ∧
    (r.u8 0 = 2 → t.par l = { s.par l with open_ := false } ∧ s.Counts t l R.PARI_SESS ∧
      sum s t l R.PARI_EIN_LO R.PARI_EIN_HI (r.u32 4) ∧ sum s t l R.PARI_EOUT_LO R.PARI_EOUT_HI (r.u32 8) ∧
      s.FarBut [R.PARI_SESS, R.PARI_EIN_LO, R.PARI_EIN_HI, R.PARI_EOUT_LO, R.PARI_EOUT_HI] t) ∧
    s.Ended { t with parE := s.parE, parW := s.parW })) ∧
  (∀ s r, Ready specParConfig s r → Completes (exec (.parConfig r) s) (fun t => s.Stages t ∧
    t.CarriesAt (s.holderOr .E) 23 0 s.led.nextLsn (R.PARI_CFG, r.w 0) ∧ t.Pends (s.holderOr .E).other 23 0 (R.PARI_CFG, r.w 0))) ∧
  (∀ s r, Ready specParCalSet s r → Completes (exec (.parCalSet r) s) (fun t => t.calSec = r.u 0 8 ∧
    (∀ l, t.bit l R.PARI_STATUS F.PARI_STATUS_CAL_VALID = true) ∧ s.Did { t with calUs := s.calUs } [R.PARI_STATUS])) ∧
  (∀ s l, s.Inv →
    (s.parRuns l = true → (s.par l).stack = [] → Completes (exec (.parishFlush l) s) (fun t =>
      t.par l = { s.par l with slots := (s.parCells l :: (s.par l).slots).take 256, secs := 0 } ∧ t.par l.other = s.par l.other ∧
      t = { s with parE := t.parE, parW := t.parW })) ∧
    (∀ a ∈ (s.par l).stack[0]?, ∀ b ∈ (s.par l).stack[1]?, s.parRuns l = true → (s.par l).stack.length = 2 →
      Completes (exec (.parishFlush l) s) (fun t => (t.par l).stack = [a] ∧ (t.par l).slots = (t.parCells l :: (s.par l).slots).take 256 ∧
      ∀ k ∈ rangeBin ((a - b).natAbs : Int), s.Counts t l (R.PARI_TCYC k))) ∧
    (s.parRuns l = false → exec (.parishFlush l) s = .next s)) ∧
  (∀ s l temp, s.Inv →
    (s.parRuns l = true → Completes (exec (.parishSecond l temp) s) (fun t =>
      let k := if temp < -480 then 0 else if 1760 ≤ temp then 15 else ((temp + 480) / 160).toNat + 1
      s.Counts t l (R.PARI_TBIN k) ∧ (t.par l).secs = (s.par l).secs + 1 ∧ (t.par l).slots = (s.par l).slots ∧
      ((s.par l).turn = none → (t.par l).turn = some (temp, temp) ∧ s.RegsBut [regKey l.ix (R.PARI_TBIN k)] t) ∧
      ((s.par l).stack = [] → ∀ x ∈ (s.par l).turn,
        (temp ≤ x.2 - 32 → x.1 ≤ x.2 → (t.par l).stack = [x.2] ∧ (t.par l).turn = some (temp, temp) ∧ (t.par l).rising = false) ∧
        (x.2 - 32 < temp → temp < x.1 + 32 → x.1 - 32 < temp → (t.par l).stack = [])) ∧
      t = { s with regs := t.regs, parE := t.parE, parW := t.parW })) ∧
    (s.parRuns l = false → exec (.parishSecond l temp) s = .next s)) ∧
  (∀ s, s.Inv →
    let h := s.holderOr .E
    let sec := s.tbNs 0 / 1000000000 - s.fld h R.PARI_CFG F.PARI_CFG_UTC_OFS
    let follows := s.bit h R.PARI_CFG F.PARI_CFG_UTC_SYNC = true ∧ s.shBit (R.TIME_TB_STAT 0) F.TIME_TB_STAT_LOCKED = true
    (¬ follows → exec .calSync s = .next s) ∧
    (follows → Completes (exec .calSync s) (fun t => t.calSec = sec % 2 ^ 40 ∧
      ∀ l, t.bit l R.PARI_STATUS F.PARI_STATUS_CAL_VALID = true ∧
        ((s.calSec + 2 < sec ∨ sec + 2 < s.calSec) → s.fld l R.PARI_STATUS F.PARI_STATUS_CAL_STEPS <
            t.fld l R.PARI_STATUS F.PARI_STATUS_CAL_STEPS ∨ t.fld l R.PARI_STATUS F.PARI_STATUS_CAL_STEPS =
            2 ^ fldWidth F.PARI_STATUS_CAL_STEPS - 1) ∧
        (¬ (s.calSec + 2 < sec ∨ sec + 2 < s.calSec) → t.fld l R.PARI_STATUS F.PARI_STATUS_CAL_STEPS =
          s.fld l R.PARI_STATUS F.PARI_STATUS_CAL_STEPS)))) ∧
  (∀ s l, s.Inv →
    Completes (exec (.pariCalRead l false) s) (fun t => t.bus = .ok (BitVec.ofNat 32 s.calSec) ∧
      t.fld l R.PARI_CAL_HI F.PARI_CAL_HI_SEC = s.calSec / 2 ^ 32 % 256 ∧
      s.OnlyRegs [regKey l.ix R.PARI_CAL_LO, regKey l.ix R.PARI_CAL_HI] { t with bus := s.bus }) ∧
    exec (.pariCalRead l true) s = .next { s with bus := .ok (s.reg l R.PARI_CAL_HI) })

/-- Tables 18.10 and 18.2. -/
def Obligations.LighthouseCommands : Prop :=
  let burns := fun (s : State) (r : Req) (t : State) (b : Burn) => s.RegsAside t ∧ t.fuseOps = s.fuseOps ++ [⟨s.led.nextLsn, b⟩] ∧
    s.Served { t with fuseOps := s.fuseOps, secE := s.secE, secW := s.secW } ∧
    ∀ l, t.sec l = { s.sec l with nonces := (t.sec l).nonces } ∧ ((t.sec l).nonces = (s.sec l).nonces ∨
      ∀ x ∈ (t.sec l).nonces, x.1 ≠ s.streamOf r.lane r.src)
  let keyed := fun (s t : State) (o : KeyOp) => s.RegsAside t ∧ s.Served { t with keyOps := s.keyOps } ∧ t.keyOps = s.keyOps ++ [o]
  let copies := fun (s t : State) (ws : List RegCell) => s.Stages t ∧ ∀ c ∈ ws,
    t.CarriesAt (s.holderOr .E) 21 0 s.led.nextLsn c ∧ t.Pends (s.holderOr .E).other 21 0 c
  (∀ s r, Ready specLhsStatus s r → Completes (exec (.lhsStatus r) s) (fun t => s.Told r t (fun d => d.length = 24 ∧
    (∀ l, wordAt d (8 * l.ix) = s.reg l R.LHS_STATUS ∧ wordAt d (8 * l.ix + 4) = s.reg l R.LHS_BOOT) ∧
    wordAt d 16 = s.reg (s.server r) R.LHS_SVN0 ∧ wordAt d 20 = s.reg (s.server r) R.LHS_SVN1))) ∧
  (∀ s r, Ready specLhsNonce s r → Completes (exec (.lhsNonce r) s) (fun t => s.RegsAside t ∧
    s.Served { t with secE := s.secE, secW := s.secW, freeCtr := s.freeCtr } ∧ s.Replied r t (fun d => d.length = 8 ∧
      ∀ l, (t.sec l).nonces = (s.streamOf r.lane r.src, d, s.now) ::
        (s.sec l).nonces.filter (fun x => x.1 != s.streamOf r.lane r.src)))) ∧
  (∀ s r, Ready specAttest s r → Completes (exec (.attest r) s) (fun t => s.RegsAside t ∧ s.Served t ∧
    ∃ e ∈ t.entry s.led.nextLsn, e.st = .executing ∧ e.opcode = 0x0B02)) ∧
  (∀ s r, Ready specAttestKeys s r → Completes (exec (.attestKeys r) s) (fun t => s.Told r t (fun d =>
    let n := Config.certLen (r.u8 0) % 8193
    d.length = 436 + n ∧ fieldAt d 432 4 = n ∧ (∀ i < 432, d[i]? = some (Config.attestByte (r.u8 0) i))))) ∧
  (∀ s r, Ready specKeyWrite s r → Completes (exec (.keyWrite r) s) (fun t => keyed s t
    ⟨s.led.nextLsn, false, r.u8 0, 1, 1 + 2 * r.u8 1 + 16 * r.u8 3 + 256 * r.u8 2, r.bytes 4 32⟩)) ∧
  (∀ s r, Ready specKeyErase s r → Completes (exec (.keyErase r) s) (fun t => keyed s t
    ⟨s.led.nextLsn, true, r.u8 0, r.u8 1, 0, []⟩)) ∧
  (∀ s r, Ready specWorldSet s r → Completes (exec (.worldSet r) s) (fun t => s.Stages t ∧
    let base := (attrClass (r.u8 0)).1
    let cells := attrCells s r
    (∀ n < 256, r.u8 1 ≤ n → n < r.u8 1 + r.u16 2 → ∃ c ∈ cells, c.1 = base + 4 * (n / 32)) ∧
    ∀ c ∈ cells, (∀ i < 32, c.2.toNat.testBit i =
        if r.u8 1 ≤ 8 * (c.1 - base) + i ∧ 8 * (c.1 - base) + i < r.u8 1 + r.u16 2 then decide (r.u8 4 = 1)
        else (s.shadow (s.holderOr r.lane) c.1).toNat.testBit i) ∧
      (isResAttr c.1 = false → t.CarriesAt (s.holderOr .E) 21 0 s.led.nextLsn c) ∧
      ∀ d < 6, wattrMask d c.1 ≠ 0 → t.CarriesAt (s.holderOr .E) 21 (1 + d) s.led.nextLsn c)) ∧
  (∀ s r, Ready specOwnSet s r → Completes (exec (.ownSet r) s) (fun t => s.RegsAside t ∧ s.Served { t with ownOps := s.ownOps } ∧
    t.ownOps = s.ownOps ++ (lanesOf (r.u8 0)).map (fun l => ⟨l, r.u8 1, r.u8 2 == 1, false, s.led.nextLsn⟩))) ∧
  (∀ s r, Ready specPmRequest s r → Completes (exec (.pmRequest r) s) (fun t =>
    t.pmReqs = s.pmReqs ++ (lanesOf (r.u8 0)).map (fun l =>
      ⟨l, r.world, r.src.part, r.u8 1, r.u8 2, some s.led.nextLsn⟩) ∧
    (∀ l ∈ lanesOf (r.u8 0), t.bit l R.LHS_PMSTAT F.LHS_PMSTAT_PENDING = true) ∧ s.AsideBut [R.LHS_PMSTAT] t ∧
    s.Served { t with pmReqs := s.pmReqs })) ∧
  (∀ s r, Ready specEventConfig s r → Completes (exec (.eventConfig r) s) (fun t => copies s t
    [(R.LHS_EVT_CFG (r.u8 0), BitVec.ofNat 32 (r.u8 1 + 2 ^ 8 * (r.u16 2 - 1) + 2 ^ 16 * (r.u16 4 - 1)))])) ∧
  (∀ s r, Ready specEventLog s r → Completes (exec (.eventLog r) s) (fun t => s.Told r t (fun d =>
    d.length = 36 + 8 * r.u8 1 ∧ wordAt d 0 = s.reg (s.server r) R.LHS_EVT_LAST ∧
    (∀ k < 8, wordAt d (4 + 4 * k) = s.reg (s.server r) (R.LHS_EVT_CNT k)) ∧
    ∀ i < r.u8 1, ∀ k < 2, wordAt d (36 + 8 * i + 4 * k) = s.reg (s.server r) (R.LHS_POL (r.u8 0 + i) k)))) ∧
  (∀ s r, Ready specLcTransition s r → Completes (exec (.lcTransition r) s) (fun t => burns s r t (.lifecycle (r.u8 28)) ∧
    ∀ l, ∀ x ∈ (t.sec l).nonces, x.1 ≠ s.streamOf r.lane r.src)) ∧
  (∀ s r, Ready specDebugUnlock s r → Completes (exec (.debugUnlock r) s) (fun t =>
    (∀ l ∈ lanesOf (r.u8 28), (t.sec l).scope = r.u8 29 ∧ t.bit l R.LHS_STATUS F.LHS_STATUS_DBG_UNLOCKED = true) ∧
    s.Did { t with secE := s.secE, secW := s.secW } [R.LHS_STATUS])) ∧
  (∀ s r, Ready specKeyHashSet s r → Completes (exec (.keyHashSet r) s) (fun t => burns s r t (.pair (r.u8 0) (r.bytes 4 96)))) ∧
  (∀ s r, Ready specKeyRevoke s r → Completes (exec (.keyRevoke r) s) (fun t => burns s r t (.revoke (r.u8 0)))) ∧
  (∀ s r, Ready specLhsConfig s r → Completes (exec (.lhsConfig r) s) (fun t => copies s t
    [(R.LHS_CFG, BitVec.ofNat 32 (r.u8 0 + 2 ^ 8 * r.u8 1))]))

/-- Tables 18.6 to 18.8. -/
def Obligations.LighthouseEvents : Prop :=
  let cnt := fun (s : State) (l : Lane) (k : Nat) (f : Fld) => s.fld l (R.LHS_EVT_CNT k) f
  let recent := fun (s : State) (l : Lane) (k : Nat) => (s.tamperLog.filter (fun e => e.lane == l && e.sensor == k &&
    decide (s.now < e.at_ + (s.fld l (R.LHS_EVT_CFG k) F.LHS_EVT_CFG_WINDOW_S_M1 + 1) * 1000000))).length
  let thr := fun (s : State) (l : Lane) (k : Nat) => s.fld l (R.LHS_EVT_CFG k) F.LHS_EVT_CFG_THR_M1 + 1
  let resp := fun (s : State) (l : Lane) (k : Nat) => s.fld l (R.LHS_EVT_CFG k) F.LHS_EVT_CFG_RESP
  (∀ s l k, s.Inv → k < 8 → s.mod_.asleep = false → Completes (exec (.tamperEvent (some l) k) s) (fun t =>
    cnt t l k F.LHS_EVT_CNT_COUNT = min (cnt s l k F.LHS_EVT_CNT_COUNT + 1) 65535 ∧
    (recent s l k + 1 < thr s l k → cnt t l k F.LHS_EVT_CNT_IN_WINDOW = (recent s l k + 1) % 256 ∧
      t.fld l R.LHS_EVT_LAST F.LHS_EVT_LAST_SENSOR = k ∧ t.fld l R.LHS_EVT_LAST F.LHS_EVT_LAST_LEVEL = 0 ∧
      s.RegsBut [regKey l.ix (R.LHS_EVT_CNT k), regKey l.ix R.LHS_EVT_LAST] t ∧
      t = { s with regs := t.regs, tamperLog := t.tamperLog, freeCtr := t.freeCtr }) ∧
    (thr s l k ≤ recent s l k + 1 → cnt t l k F.LHS_EVT_CNT_IN_WINDOW = 0 ∧
      t.fld l R.LHS_EVT_LAST F.LHS_EVT_LAST_LEVEL = resp s l k % 2 ^ fldWidth F.LHS_EVT_LAST_LEVEL ∧
      (∀ e ∈ t.tamperLog, ¬ (e.lane = l ∧ e.sensor = k)) ∧
      (resp s l k = 1 → ⟨l, none, 0x80 + k⟩ ∈ t.irqs) ∧
      (resp s l k = 2 → s.ResetTo t l .sys 0x60 k) ∧
      (3 ≤ resp s l k → t.lst l = stRESET ∧ t.eth.sas = [] ∧
        (∀ n < 32, ∀ m, t.bit m (R.SCSM_RS_STATUS n) F.SCSM_RS_STATUS_OPEN = false) ∧
        ∀ j < 256, 8 ≤ j → ∀ m, s.bit m (R.LHS_KEY_INFO j) F.LHS_KEY_INFO_PERSIST = false → t.reg m (R.LHS_KEY_INFO j) = 0) ∧
      (4 ≤ resp s l k → ∀ j < 256, 8 ≤ j → ∀ m, t.reg m (R.LHS_KEY_INFO j) = 0)))) ∧
  (∀ s l k, s.Inv → k < 8 → s.mod_.asleep = true →
    (k = 0 ∨ k = 3 → Completes (exec (.tamperEvent l k) s) (fun t => ∀ m,
      (t.reg m R.LHS_EVT_AON).toNat = (s.reg m R.LHS_EVT_AON).toNat ||| 2 ^ k ∧ s.OnlyRegs (bothKeys R.LHS_EVT_AON) t)) ∧
    (k ≠ 0 → k ≠ 3 → exec (.tamperEvent l k) s = .next s)) ∧
  (∀ s l k, 8 ≤ k → exec (.tamperEvent l k) s = .next s) ∧
  (∀ s n b bs, s.Inv → s.fuseOps = ⟨n, b⟩ :: bs → (∀ o ∈ bs, o.lsn ≠ n) →
    Completes (exec (.fuseBurnDone n false) s) (fun t => s.Disposes t n dFAILED eFUSE_FAIL ∧ t.fuseOps = bs ∧
      ∀ l, t.sec l = s.sec l) ∧
    Completes (exec (.fuseBurnDone n true) s) (fun t => s.Disposes t n dDONE 0 ∧ t.fuseOps = bs ∧
      ∀ l, s.laneOut l = true →
        (∀ d < 8, b = .lifecycle d → (t.sec l).fuse = d ∧ t.bit l R.LHS_STATUS F.LHS_STATUS_LC_PENDING = true ∧
          t.fld l R.LHS_STATUS F.LHS_STATUS_LC_TARGET = d ∧
          (d = 4 ∨ d = 5 → ∀ j < 256, 8 ≤ j → t.reg l (R.LHS_KEY_INFO j) = 0) ∧
          (d = 5 → ∀ j < 4, t.reg l (R.LHS_KEY_INFO j) = 0)) ∧
        (∀ j < 4, b = .revoke j → t.bit l (R.LHS_KP j) F.LHS_KP_REVOKED = true) ∧
        (∀ j < 4, b = .pair j [] → t.bit l (R.LHS_KP j) F.LHS_KP_PROG = true ∧ (t.sec l).hashes.head? = some (j, [])) ∧
        (∀ k < 8, ∀ v < 256, b = .svn k v → t.svn l k = max v (s.svn l k) ∧
          (s.upd.st = uTRIAL → t.upd.st = 0)))) ∧
  (∀ s n ok, s.fuseOps = [] → exec (.fuseBurnDone n ok) s = .next s) ∧
  (∀ s o os, s.Inv → s.keyOps = o :: os → o.slot < 256 → Completes (exec .keyStoreOpDone s) (fun t => s.Disposes t o.lsn dDONE 0 ∧
    (o.erase = false → t.keyOps = os ∧ ∀ l, t.reg l (R.LHS_KEY_INFO o.slot) = BitVec.ofNat 32 o.info ∧
      (o.slot, o.key) ∈ (t.sec l).keys) ∧
    (o.erase = true → (∀ p ∈ t.keyOps, p.erase = true) ∧ (∀ p ∈ os, p.erase = false → s.Disposes t p.lsn dFAILED eERASED) ∧
      ∀ i < 256, o.slot ≤ i → i < o.slot + o.count → ∀ l, t.reg l (R.LHS_KEY_INFO i) = 0 ∧ ∀ p ∈ (t.sec l).keys, p.1 ≠ i))) ∧
  (∀ s, s.keyOps = [] → exec .keyStoreOpDone s = .next s) ∧
  (∀ s l who v, s.Inv →
    let tg := getF v F.LHS_PMREQ_TARGET
    let act := getF v F.LHS_PMREQ_ACTION
    let good := pmTarget tg = true ∧ 1 ≤ act ∧ act ≤ 4
    let foreign := who.world = .normal ∧ s.secOwned l tg = true
    (¬ good → Completes (exec (.lhsPmreqWrite l who v) s) (fun t => t.bus = .ok 0 ∧
      t.bit l R.LHS_PMSTAT F.LHS_PMSTAT_PM_DENIED = true ∧ s.OnlyRegs [regKey l.ix R.LHS_PMSTAT] { t with bus := s.bus })) ∧
    (good → foreign → resp s l 7 ≤ 1 → Completes (exec (.lhsPmreqWrite l who v) s) (fun t => t.bus = .ok 0 ∧
      t.bit l R.LHS_PMSTAT F.LHS_PMSTAT_PM_DENIED = true ∧ t.pmReqs = s.pmReqs ∧
      cnt t l 7 F.LHS_EVT_CNT_COUNT = min (cnt s l 7 F.LHS_EVT_CNT_COUNT + 1) 65535)) ∧
    (good → ¬ foreign → Completes (exec (.lhsPmreqWrite l who v) s) (fun t => t.bus = .ok 0 ∧
      t.bit l R.LHS_PMSTAT F.LHS_PMSTAT_PENDING = true ∧
      t.pmReqs = s.pmReqs ++ [⟨l, who.world, (match who with | .func f => f | _ => 0), tg, act, none⟩] ∧
      s.OnlyRegs [regKey l.ix R.LHS_PMSTAT] { t with bus := s.bus, pmReqs := s.pmReqs }))) ∧
  (∀ s l tg, Completes (exec (.ownerReleaseDone l tg) s) (fun t => t = { s with ownOps := t.ownOps } ∧
    t.ownOps.length = s.ownOps.length ∧ ∀ i < s.ownOps.length, ∀ o ∈ s.ownOps[i]?, t.ownOps[i]? =
      some (if o.lane = l ∧ o.target = tg ∧ o.claim = false then { o with zeroed := true } else o))) ∧
  (∀ s e, s.Inv → e ∈ s.led.entries → e.opcode = 0x0B02 → e.st = .executing →
    Completes (exec (.attestReportDone e.lsn) s) (fun t => s.Disposes t e.lsn dDONE 0 ∧
      (buffersOwned s e.req = false → t.mem = s.mem) ∧
      (e.req.src = .smb0 → buffersOwned s e.req = true → e.req.outAddr % 4096 = 0 → 4096 ≤ e.req.outCap → e.req.outAddr < 2 ^ 39 →
        ∀ i < 256, i < (attestReport s (laneArg (e.req.u8 0)) e.req).length →
          some (t.byte e.req.lane (e.req.outAddr + i)) = (attestReport s (laneArg (e.req.u8 0)) e.req)[i]?)))

/-- Table 17.8. -/
def Obligations.PartitionCommands : Prop :=
  let copies := fun (s t : State) (ls : List Lane) (block region : Nat) (ws : List RegCell) => s.Stages t ∧
    ∀ l ∈ ls, ∀ c ∈ ws, t.CarriesAt l block region s.led.nextLsn c
  let waits := fun (s : State) (r : Req) (t : State) (kind : Nat) => s.RegsAside t ∧ s.Served { t with vfOps := s.vfOps } ∧
    t.vfOps = s.vfOps ++ (lanesOf (r.u8 0)).map (fun l => ⟨kind, l, r.u8 1, s.led.nextLsn⟩)
  (∀ s r, Ready specPartStatus s r → Completes (exec (.partStatus r) s) (fun t => s.Told r t (fun d => d.length = 16 ∧ ∀ l,
    wordAt d (8 * l.ix) = s.reg l (R.IOV_FN_CFG (r.u8 0)) ∧ wordAt d (8 * l.ix + 4) = s.reg l (R.IOV_FN_STATE (r.u8 0))))) ∧
  (∀ s r, Ready specFuncConfig s r → Completes (exec (.funcConfig r) s) (fun t =>
    let f := r.u8 0
    let flags := if f = 0 then r.u8 2 ||| 3 else r.u8 2
    copies s t (lanesOf (r.u8 1)) 18 f [(R.IOV_FN_CFG f, BitVec.ofNat 32 (flags + 2 ^ 16 * r.u16 4)),
      (R.IOV_FN_QTO f, BitVec.ofNat 32 (r.u16 6 - 1)), (R.IOV_FN_GATP f 0, r.w 8), (R.IOV_FN_GATP f 1, r.w 12),
      (R.IOV_FN_MAC_LO f, r.w 16), (R.IOV_FN_MAC_HI f, r.w 20)])) ∧
  (∀ s r, Ready specQueueConfig s r → Completes (exec (.queueConfig r) s) (fun t =>
    let q := r.u16 2
    copies s t (lanesOf (r.u8 0)) 18 (64 + q) [(R.IOV_Q_CFG q, r.w 4), (R.IOV_Q_SQBASE q 0, r.w 8), (R.IOV_Q_SQBASE q 1, r.w 12),
      (R.IOV_Q_CQBASE q 0, r.w 16), (R.IOV_Q_CQBASE q 1, r.w 20)])) ∧
  (∀ s r, Ready specReplRegion s r → Completes (exec (.replRegion r) s) (fun t => s.RegsAside t ∧
    s.Served { t with potUpds := s.potUpds } ∧ t.potUpds = s.potUpds ++ [Lane.E, Lane.W].map (fun l =>
      ⟨l, r.u 4 8, r.u32 12, if r.u8 1 = 1 then 256 else 0, true, true, true, some s.led.nextLsn⟩))) ∧
  (∀ s r, Ready specVfQuiesce s r → Completes (exec (.vfQuiesce r) s) (fun t => waits s r t 0)) ∧
  (∀ s r, Ready specVfReset s r → Completes (exec (.vfReset r) s) (fun t => waits s r t 1)) ∧
  (∀ s r, Ready specVfRemove s r → Completes (exec (.vfRemove r) s) (fun t => waits s r t 2)) ∧
  (∀ s r, Ready specExpertGrant s r → Completes (exec (.expertGrant r) s) (fun t => s.FarBut [] t ∧ s.Ended t ∧
    ∀ l ∈ lanesOf (r.u8 0), ∃ g ∈ t.grants, g.block = r.u8 2 ∧ g.lane = l ∧ g.fn = r.u8 1 ∧
      ((∀ e ∈ s.led.entries, e.live = true → 0x1000 ≤ e.opcode ∨ blockOf e.opcode ≠ r.u8 2) → s.grants = [] → g.standing = true))) ∧
  (∀ s r, Ready specExpertRelease s r → Completes (exec (.expertRelease r) s) (fun t =>
    let mine := fun (g : Grant) => g.block = r.u8 2 ∧ g.lane ∈ lanesOf (r.u8 0) ∧ g.fn = r.u8 1
    s.FarBut [] t ∧ s.Ended t ∧ (∀ g ∈ t.grants, ¬ mine g) ∧
    ((∀ g ∈ s.grants, g.standing = true) → ∀ g ∈ s.grants, ¬ mine g → g ∈ t.grants))) ∧
  (∀ s r, Ready specDirtySwap s r → Completes (exec (.dirtySwap r) s) (fun t => s.FarBut [] t ∧ s.Ended t ∧ ∀ l ∈ lanesOf (r.u8 0),
    t.bit l (R.IOV_FN_STATE (r.u8 1)) F.IOV_FN_STATE_DIRTY_SEL = !s.bit l (R.IOV_FN_STATE (r.u8 1)) F.IOV_FN_STATE_DIRTY_SEL)) ∧
  (∀ s r, Ready specPageOwner s r → Completes (exec (.pageOwner r) s) (fun t =>
    t.potUpds = s.potUpds ++ (lanesOf (r.u8 0)).map (fun l =>
      ⟨l, r.u 4 8, r.u32 12, r.u16 16, r.u8 18 == 1, false, false, some s.led.nextLsn⟩) ∧
    (∀ l ∈ lanesOf (r.u8 0), t.bit l R.POT_STATUS F.POT_STATUS_BUSY = true) ∧ s.AsideBut [R.POT_STATUS] t ∧
    s.Served { t with potUpds := s.potUpds })) ∧
  (∀ s r, Ready specPairAssign s r → Completes (exec (.pairAssign r) s) (fun t => copies s t (lanesOf (r.u8 0)) 20 (r.u8 1)
    [(R.LSTP_PAIR_CFG (r.u8 1), BitVec.ofNat 32 (r.u8 3 + 2 ^ 8 * r.u8 2))])) ∧
  (∀ s r, Ready specLstepStatus s r → Completes (exec (.lstepStatus r) s) (fun t => s.Told r t (fun d => d.length = 48 ∧ ∀ l,
    wordAt d (24 * l.ix) = s.reg l R.LSTP_STATUS ∧ ∀ k < 5, wordAt d (24 * l.ix + 4 + 4 * k) = s.reg l (R.LSTP_PAIR_STAT k)))) ∧
  (∀ s r, Ready specLstepTest s r → Completes (exec (.lstepTest r) s) (fun t =>
    let l := if r.u8 0 = 1 then Lane.E else Lane.W
    let a := R.LSTP_PAIR_STAT (r.u8 1)
    t.lstepTests = s.lstepTests ++ [(s.led.nextLsn, l)] ∧ s.ResetTo t l .core 0x50 (r.u8 1) ∧
    t.fld l a F.LSTP_PAIR_STAT_MISMATCHES =
      min (s.fld l a F.LSTP_PAIR_STAT_MISMATCHES + 1) (2 ^ fldWidth F.LSTP_PAIR_STAT_MISMATCHES - 1) ∧
    t.fld l R.LSTP_LAST F.LSTP_LAST_PAIR = r.u8 1 ∧ t.bit l R.LSTP_LAST F.LSTP_LAST_INJECTED = true)) ∧
  (∀ s r, Ready specStraitCopy s r → Completes (exec (.straitCopy r) s) (fun t => s.RegsAside t ∧
    s.Served { t with copies := s.copies } ∧ t.copies = s.copies ++ [⟨s.led.nextLsn, r.lane, r.u 4 8, r.u32 12, false⟩]))

/-- Chapter 17, R36. -/
def Obligations.QueuesAndPages : Prop :=
  let quiet := fun (s : State) (l : Lane) => s.fld l (R.LHS_EVT_CFG 6) F.LHS_EVT_CFG_RESP ≤ 1 ∧
    s.fld l (R.LHS_EVT_CFG 7) F.LHS_EVT_CFG_RESP ≤ 1
  (∀ s l who f i v, s.Inv →
    (s.mayRing l who f = false → exec (.iovSqDoorbell l who f i v) s = .next { s with bus := .error } ∧
      exec (.iovCqHeadWrite l who f i v) s = .next { s with bus := .error }) ∧
    (s.mayRing l who f = true → (s.fnQueues l f)[i]? = none →
      exec (.iovSqDoorbell l who f i v) s = .next { s with bus := .ok 0 } ∧
      exec (.iovCqHeadWrite l who f i v) s = .next { s with bus := .ok 0 }) ∧
    (s.mayRing l who f = true → ∀ q ∈ (s.fnQueues l f)[i]?,
      let d := s.qDepth l q
      let x := s.iovQ l q
      let p := v.toNat % 0x8000 + d * (v.toNat / 0x8000 % 2)
      let fits := v.toNat % 0x8000 < d ∧ s.sqFill l q + ringFill d x.sqTail p ≤ d
      (¬ (fits ∧ s.fnSt l f = fENABLED) → Completes (exec (.iovSqDoorbell l who f i v) s) (fun t => t.bus = .ok 0 ∧
        s.Counts t l (R.IOV_CNT 6) ∧ t.iovQs = s.iovQs ∧
        s.RegsBut [regKey l.ix (R.IOV_CNT 6), regKey l.ix (R.IOV_FN_STATE f)] t)) ∧
      (fits → s.fnSt l f = fENABLED → x.skip = 0 → Completes (exec (.iovSqDoorbell l who f i v) s) (fun t => t.bus = .ok 0 ∧
        t.iovQ l q = { x with sqTail := p } ∧ t.mem = s.mem)) ∧
      (v.toNat % 0x8000 < d → ringFill d x.cqHead p ≤ s.cqFill l q → x.cpl = [] →
        Completes (exec (.iovCqHeadWrite l who f i v) s) (fun t => t.bus = .ok 0 ∧ t.iovQ l q = { x with cqHead := p } ∧
          t.mem = s.mem)) ∧
      (v.toNat % 0x8000 < d → s.cqFill l q < ringFill d x.cqHead p →
        exec (.iovCqHeadWrite l who f i v) s = .next { s with bus := .ok 0 }))) ∧
  (∀ s l q, s.Inv → q < 256 → quiet s l →
    let f := s.queueFn l q
    let x := s.iovQ l q
    let ready := s.bit l (R.IOV_Q_CFG q) F.IOV_Q_CFG_EN = true ∧ s.qCfg l q F.IOV_Q_CFG_KIND = 0 ∧ s.fnSt l f = fENABLED ∧
      0 < s.sqFill l q ∧ s.deaf = false ∧ s.answering = true ∧ (s.replicated f = true → s.leaseValid l = true) ∧ s.iovRuns l = true
    let got := s.dmaRead l f (q % 64) (u64Of (s.reg l) (R.IOV_Q_SQBASE q 0) + 32 * (x.sqHead % s.qDepth l q)) 32
    (¬ ready → exec (.descriptorTake l q) s = .next s) ∧
    (ready → Completes (exec (.descriptorTake l q) s) (fun t => s.Counts t l (R.IOV_CNT 0) ∧
      (t.iovQ l q).sqHead = (if x.sqHead = x.sqTail then x.sqHead else (x.sqHead + 1) % (2 * s.qDepth l q)) ∧
      (got.2 = none → t.led.nextLsn = s.led.nextLsn) ∧
      ∀ d ∈ got.2,
        (s.chanSecure l q = true ∨ descOk d = false → t.led.nextLsn = s.led.nextLsn) ∧
        (s.chanSecure l q = false → descOk d = false → s.Counts t l (R.IOV_CNT 2)) ∧
        (s.chanSecure l q = false → descOk d = true → checksC s (descReq l q (x.sqHead % s.qDepth l q) d) = none →
          t.led.nextLsn = s.led.nextLsn + 1 ∧ s.Counts t l (R.IOV_CNT 1) ∧
          ∃ e ∈ t.entry s.led.nextLsn, e.opcode = 0xFFFF ∧ e.req.payload = d ∧
            (fieldAt d 4 4 = 0 → s.lowerBegun e.stream s.led.nextLsn = true → e.disp = dDONE ∧ e.live = false))))) ∧
  (∀ s l, s.Inv →
    let rx := fun (u : State) => match l with | .E => u.eth.rxE | .W => u.eth.rxW
    (rx s = [] ∨ s.iovRuns l = false → exec (.rxSteer l) s = .next s) ∧
    (∀ p ∈ (rx s).head?, s.iovRuns l = true → Completes (exec (.rxSteer l) s) (fun t =>
      (quiet s l → rx t = (rx s).tail) ∧
      (s.rxQueue l p.1 = none → s.Counts t l (R.IOV_CNT 7) ∧ s.RegsBut [regKey l.ix (R.IOV_CNT 7)] t ∧ t.mem = s.mem) ∧
      (∀ q ∈ s.rxQueue l p.1, quiet s l → (s.iovQ l q).sqHead ≠ (s.iovQ l q).sqTail →
        (t.iovQ l q).sqHead = ((s.iovQ l q).sqHead + 1) % (2 * s.qDepth l q))))) ∧
  (∀ s l f, s.Inv → f < 64 →
    (s.fnSt l f ≠ fQUIESCING → exec (.quiesceTimeout l f) s = .next s) ∧
    (s.fnSt l f = fQUIESCING → Completes (exec (.quiesceTimeout l f) s) (fun t => ∀ e ∈ s.led.entries,
      e.st = .accepted → s.entryOf l f e = true → s.Disposes t e.lsn dUNDELIVERABLE eQUEUED_AT_RESET))) ∧
  (∀ s l who v, s.Inv →
    let n := s.fld l R.POT_UPD_CNT F.POT_UPD_CNT_PAGES
    let go := v.toNat.testBit 31 = true ∧ s.bit l R.POT_STATUS F.POT_STATUS_BUSY = false ∧ n ≠ 0
    (who.world ≠ .secure → exec (.potUpdateGo l who v) s = .next { s with bus := .error } ∧
      exec (.lstpInjectWrite l who v) s = .next { s with bus := .error }) ∧
    (who.world = .secure → ¬ go → Completes (exec (.potUpdateGo l who v) s) (fun t => t.bus = .ok 0 ∧
      t.reg l R.POT_UPD_ENTRY = v &&& 0x303FF ∧ s.OnlyRegs [regKey l.ix R.POT_UPD_ENTRY] { t with bus := s.bus })) ∧
    (who.world = .secure → go → Completes (exec (.potUpdateGo l who v) s) (fun t => t.bus = .ok 0 ∧
      t.potUpds = s.potUpds ++ [⟨l, (s.reg l R.POT_UPD_ADDR_LO).toNat + 2 ^ 32 * s.fld l R.POT_UPD_ADDR_HI F.POT_UPD_ADDR_HI_ADDR, n,
        v.toNat % 1024, v.toNat.testBit 16, v.toNat.testBit 17, false, none⟩] ∧
      t.bit l R.POT_STATUS F.POT_STATUS_BUSY = true)) ∧
    (let k := getF v F.LSTP_INJECT_PAIR
     let right := getF v F.LSTP_INJECT_KEY = 0x1C5E ∧ k < 5
     (who.world = .secure → ¬ right → exec (.lstpInjectWrite l who v) s = .next { s with bus := .ok 0 }) ∧
     (who.world = .secure → right → Completes (exec (.lstpInjectWrite l who v) s) (fun t => t.bus = .ok 0 ∧
       s.ResetTo t l .core 0x50 k ∧ t.bit l R.LSTP_LAST F.LSTP_LAST_INJECTED = true)))) ∧
  (∀ s l u us, s.Inv → s.potUpds = u :: us → u.lane = l → u.region = false → u ∉ us → u.pages = 1 → u.lsn = none →
    u.addr % 4096 = 0 → u.entry < 1024 → Completes (exec (.potUpdateDone l) s) (fun t => t.potUpds = us ∧
      t.bit l R.POT_STATUS F.POT_STATUS_BUSY = us.any (fun x => x.lane == l && !x.region) ∧
      (potIx u.addr = none → t.bit l R.POT_STATUS F.POT_STATUS_UPD_ERR = true ∧ t.mem = s.mem) ∧
      ∀ x ∈ potIx u.addr,
        let e := s.potAt l x
        (potRepl u.entry = false → u.replOnly = false → t.potAt l x = u.entry ∧
          (u.keep = false → potPart u.entry ≠ potPart e → x = .isle ((u.addr - 0x10000000) / 4096) →
            ∀ c ∈ t.mem, ¬ (memKey l u.addr ≤ c.1 ∧ c.1 < memKey l u.addr + 4096))) ∧
        (potRepl u.entry = true → u.replOnly = true → s.ownerRepl e = true → e < 1024 →
          t.potAt l x = (if e.testBit 8 then e else e + 256)))) ∧
  (∀ s l, (∀ u ∈ s.potUpds, u.region = true) → exec (.potUpdateDone l) s = .next s) ∧
  (∀ s c, s.Inv → s.copies = [c] → c.started = true → c.addr < 2 ^ 39 → c.pages = 1 →
    let ready := s.bit c.lane R.FERRY_LANE F.FERRY_LANE_STRAIT_UP = true ∧ s.lst .E ≠ stSYNCING ∧ s.lst .W ≠ stSYNCING
    (¬ ready → exec (.straitCopyDone c.lsn) s = .next s) ∧
    (ready → Completes (exec (.straitCopyDone c.lsn) s) (fun t => s.Disposes t c.lsn dDONE 0 ∧ t.copies = [] ∧
      ∀ i < 4096, t.byte c.lane.other (c.addr + i) = s.byte c.lane (c.addr + i)))) ∧
  (∀ s l k w, s.Inv → k < 5 →
    (s.bit l (R.LSTP_PAIR_STAT k) F.LSTP_PAIR_STAT_COMPARING = true → Completes (exec (.lockstepMismatch l k w) s) (fun t =>
      s.ResetTo t l .core 0x50 k ∧ t.fld l R.LSTP_LAST F.LSTP_LAST_PAIR = k ∧
      t.bit l R.LSTP_LAST F.LSTP_LAST_INJECTED = false)) ∧
    (s.bit l (R.LSTP_PAIR_STAT k) F.LSTP_PAIR_STAT_COMPARING = false → exec (.lockstepMismatch l k w) s = .next s)) ∧
  (∀ s l k on, s.Inv → k < 5 → (s.lane l).powered = true → Completes (exec (.lockstepBreak l k on) s) (fun t =>
    t.bit l (R.LSTP_PAIR_STAT k) F.LSTP_PAIR_STAT_BROKEN = true ∧ t.bit l (R.LSTP_PAIR_STAT k) F.LSTP_PAIR_STAT_COMPARING = false ∧
    t.bit l R.LSTP_STATUS F.LSTP_STATUS_LSTEP_BROKEN = true ∧ t.bit l R.LSTP_STATUS F.LSTP_STATUS_DBG_ATTACHED = on ∧
    (s.bench l = true → s.OnlyRegs [regKey l.ix (R.LSTP_PAIR_STAT k), regKey l.ix R.LSTP_STATUS] t) ∧
    (s.bench l = false → s.lst l ≠ stRESET → s.lst l ≠ stBOOT → t.lst l = stDISQUALIFIED))) ∧
  (∀ s a, s.Inv → 0 < a.len → a.len ≤ 64 → a.addr % 4096 + a.len ≤ 4096 →
    let reads := fun (t : State) => t = { s with bus := .bytes (s.bytes a.lane a.addr a.len) }
    let allowed := a.mMode = true ∨ (∃ x ∈ potIx a.addr, potAllows (s.potAt a.lane x) a.world a.part = true)
    (∀ x ∈ potIx a.addr, inPotRam a.addr = false → allowed →
      (a.write = false → Completes (exec (.memAccess a) s) reads) ∧
      (a.write = true → a.data.length = a.len → Completes (exec (.memAccess a) s) (fun t => t.bus = .ok 0 ∧
        t = { s with bus := .ok 0, mem := t.mem } ∧ (∀ i < 64, i < a.len → some (t.byte a.lane (a.addr + i)) = a.data[i]?) ∧
        (∀ j, j < a.addr ∨ a.addr + a.len ≤ j → j < 2 ^ 40 → t.byte a.lane j = s.byte a.lane j) ∧
        ∀ j, t.byte a.lane.other j = s.byte a.lane.other j))) ∧
    (∀ x ∈ potIx a.addr, inPotRam a.addr = false → ¬ allowed → quiet s a.lane → Completes (exec (.memAccess a) s) (fun t =>
      t.bus = .error ∧ t.mem = s.mem ∧ t.reg a.lane R.POT_VIOL_ADDR_LO = BitVec.ofNat 32 a.addr)) ∧
    (inPotRam a.addr = true → exec (.memAccess a) s = .next { s with bus := .error }) ∧
    (a.addr < 0x20000 → Completes (exec (.memAccess a) s) (fun t => if a.write then t = { s with bus := .error } else reads t)) ∧
    (0x40000000 ≤ a.addr → a.addr < 0xE0000000 → exec (.memAccess a) s = .next { s with bus := .error }))

/-- Chapter 19, Tables 19.3 and 19.5. -/
def Obligations.UpdateCommands : Prop :=
  let quiet := fun (s : State) => ∀ n < 8, s.relayOn n = false
  let st := fun (t : State) (v : Nat) => ∀ l, t.fld l R.UPD_STATUS F.UPD_STATUS_STATE = v
  let stored := fun (s t : State) (ofs : Nat) (d : List Byte) => ∀ p ∈ s.upd.stage, t.bytes p.1 (norBase p.2 + ofs) d.length = d
  let done := fun (s t : State) (as_ : List Nat) => s.FarBut as_ t ∧ t.Ends s.led.nextLsn dDONE 0
  let failed := fun (s t : State) (err : Nat) => t.Ends s.led.nextLsn dFAILED err
  let cls := fun (r : Req) (k : Nat) => r.u8 0 = k
  (∀ s r, Ready specUpdStatus s r → Completes (exec (.updStatus r) s) (fun t => s.Told r t (fun d => d.length = 40 ∧
    wordAt d 0 = s.reg (s.server r) R.UPD_STATUS ∧ wordAt d 4 = s.reg (s.server r) R.UPD_PROGRESS ∧
    ∀ n < 8, wordAt d (8 + 4 * n) = s.reg (s.server r) (R.UPD_RELAY_STAT n)))) ∧
  (∀ s r, Ready specUpdBegin s r → Completes (exec (.updBegin r) s) (fun t =>
    let c := manChunks r.payload
    t.upd.st = 1 ∧ st t 1 ∧ t.upd.man = r.payload ∧ t.upd.idx = [] ∧ t.upd.next = 0 ∧ t.upd.idxOk = false ∧ t.upd.total = c ∧
    t.upd.stage = s.runningLanes.map (fun l => (l, 1 - (s.sec l).bank)) ∧ t.upd.beginLsn = some s.led.nextLsn ∧
    (∀ l, t.reg l R.UPD_PROGRESS = BitVec.ofNat 32 (2 ^ 16 * c)) ∧ (∀ p ∈ t.upd.stage, t.Erased p.1 p.2) ∧
    (quiet s → s.AsideBut [R.UPD_STATUS, R.UPD_PROGRESS, R.PARI_NOR 0, R.PARI_NOR 1] t))) ∧
  (∀ s r, Ready specUpdChunk s r → cls r 1 → quiet s →
    let u := s.upd
    let i := r.u16 2
    let d := r.payload.drop 4
    ((u.idxOk = true ∨ i + 1 = u.next) → Completes (exec (.updChunk r) s) (fun t => done s t [] ∧ t.upd = u ∧ t.mem = s.mem)) ∧
    (u.idxOk = false → i = u.next → i + 1 < pieceCount u.total → Completes (exec (.updChunk r) s) (fun t =>
      done s t [R.UPD_PROGRESS] ∧ t.upd = { u with idx := u.idx ++ d, next := i + 1 } ∧
      ∀ l, t.fld l R.UPD_PROGRESS F.UPD_PROGRESS_NEXT = (i + 1) % 2 ^ 13)) ∧
    (u.idxOk = false → i = u.next → pieceCount u.total ≤ i + 1 → r.sigOk = true → Completes (exec (.updChunk r) s) (fun t =>
      done s t [R.UPD_PROGRESS] ∧ t.upd = { u with idx := u.idx ++ d, next := 0, idxOk := true } ∧
      (∀ l, t.bit l R.UPD_PROGRESS F.UPD_PROGRESS_INDEX_OK = true) ∧
      (s.StagesOnce → ∀ e ∈ manIndex u.man, e.offset + (u.idx ++ d).length ≤ 2 ^ 27 → stored s t e.offset (u.idx ++ d)))) ∧
    (u.idxOk = false → i = u.next → pieceCount u.total ≤ i + 1 → r.sigOk = false → Completes (exec (.updChunk r) s) (fun t =>
      failed s t 0x0C01 ∧ s.FarBut [R.UPD_PROGRESS, R.UPD_CNT 1] t ∧ t.upd = { u with idx := [], next := 0 } ∧ t.mem = s.mem ∧
      ∀ l, s.Counts t l (R.UPD_CNT 1)))) ∧
  (∀ s r, Ready specUpdChunk s r → cls r 2 → quiet s →
    let u := s.upd
    let b := u.build
    let i := r.u16 2
    let d := r.payload.drop 4
    let fresh := r.sigOk = true ∧ i = u.next
    (r.sigOk = false → Completes (exec (.updChunk r) s) (fun t => failed s t 0x0C01 ∧ s.FarBut [R.UPD_CNT 1] t ∧ t.upd = u ∧
      t.mem = s.mem ∧ ∀ l, s.Counts t l (R.UPD_CNT 1))) ∧
    (r.sigOk = true → i + 1 = u.next → Completes (exec (.updChunk r) s) (fun t => done s t [] ∧ t.upd = u ∧ t.mem = s.mem)) ∧
    (fresh → r.hwFault = true → Completes (exec (.updChunk r) s) (fun t => failed s t 0x0C05 ∧ s.Dropped t)) ∧
    (∀ e ∈ (manBuilt u.man)[b.sec]?, fresh → r.hwFault = false → b.phase = 0 → b.left = [] → 64 ≤ d.length →
      (headOk (d.take 64) e = false → Completes (exec (.updChunk r) s) (fun t => failed s t 0x0C03 ∧ s.Dropped t)) ∧
      (headOk (d.take 64) e = true → fieldAt d 2 1 ≠ 0 → s.sectBase e (slice d 16 48) = none →
        Completes (exec (.updChunk r) s) (fun t => failed s t 0x0C02 ∧ s.Dropped t)))) ∧
  (∀ s r e, Ready specUpdChunk s r → cls r 2 → quiet s → (manBuilt s.upd.man)[s.upd.build.sec]? = some e → r.sigOk = true →
    r.u16 2 = s.upd.next → r.hwFault = false → s.upd.build.phase = 1 → s.upd.build.left = [] → e.offset + e.length ≤ 2 ^ 27 →
    s.StagesOnce →
    let b := s.upd.build
    let i := r.u16 2
    let d := r.payload.drop 4
    (d.length < b.rem → b.out + d.length ≤ e.length → i + 1 < s.upd.total → Completes (exec (.updChunk r) s) (fun t =>
      done s t [R.UPD_PROGRESS, R.UPD_CNT 0] ∧ (∀ l, s.Counts t l (R.UPD_CNT 0)) ∧ stored s t (e.offset + b.out) d ∧
      t.upd.build = { b with rem := b.rem - d.length, out := b.out + d.length, ins := b.ins - d.length } ∧
      t.upd = { s.upd with next := i + 1, build := t.upd.build })) ∧
    (d.length = b.rem → b.out + b.rem = e.length → i + 1 = s.upd.total → b.sec + 1 = (manBuilt s.upd.man).length →
      Completes (exec (.updChunk r) s) (fun t => t.upd.lastLsn = some s.led.nextLsn ∧ t.upd.next = i + 1 ∧
        (∃ x ∈ t.entry s.led.nextLsn, x.live = true) ∧ stored s t (e.offset + b.out) d ∧ t.upd.st = s.upd.st))) ∧
  (∀ s r, Ready specUpdAbort s r → Completes (exec (.updAbort r) s) (fun t => s.Dropped t ∧
    done s t [R.UPD_STATUS, R.UPD_PROGRESS, R.PARI_NOR 0, R.PARI_NOR 1])) ∧
  (∀ s r, Ready specUpdActivate s r → Completes (exec (.updActivate r) s) (fun t => st t 3 ∧ s.AsideBut [R.UPD_STATUS] t ∧
    s.Served { t with upd := s.upd } ∧
    t.upd = { s.upd with st := 3, actLsn := some s.led.nextLsn, restarting := [], cycles := 0, drain := none })) ∧
  (∀ s r, Ready specUpdConfirm s r → Completes (exec (.updConfirm r) s) (fun t => s.RegsAside t ∧
    s.Served { t with fuseOps := s.fuseOps } ∧
    t.fuseOps = s.fuseOps ++ [⟨s.led.nextLsn, .svn (manSvnIdx s.upd.man) (manSvn s.upd.man)⟩])) ∧
  (∀ s r, Ready specUpdRevert s r → Completes (exec (.updRevert r) s) (fun t => st t 5 ∧
    (∀ l, s.Counts t l (R.UPD_CNT 5) ∧ t.fld l R.UPD_STATUS F.UPD_STATUS_CONFIRM_LEFT = 0) ∧
    s.FarBut [R.UPD_STATUS, R.UPD_CNT 5] t ∧
    t.upd = { s.upd with st := 5, revLsn := some s.led.nextLsn, actLsn := none, drain := none, cycles := 0 })) ∧
  (∀ s r, Ready specUpdRelaySet s r → Completes (exec (.updRelaySet r) s) (fun t => s.RegsAside t ∧
    s.Served { t with upd := s.upd } ∧
    t.upd = { s.upd with sets := s.upd.sets ++ [(s.led.nextLsn, r.u8 0,
      ⟨r.u8 1, r.u8 2, r.u8 3, r.u8 4, r.u8 5, r.bytes 8 16, [], 0, 0⟩)] })) ∧
  (∀ s r, Ready specUpdConfig s r → Completes (exec (.updConfig r) s) (fun t => s.Stages t ∧
    let w : RegCell := (R.UPD_CFG, BitVec.ofNat 32 (r.u16 0 + 2 ^ 16 * (r.u16 2 - 1)))
    t.CarriesAt (s.holderOr .E) 22 0 s.led.nextLsn w ∧ t.Pends (s.holderOr .E).other 22 0 w))

/-- R579 to R593. -/
def Obligations.UpdateEvents : Prop :=
  (∀ s ok, s.Inv →
    (s.upd.beginLsn = none → exec (.norEraseDone ok) s = .next s) ∧
    (∀ n ∈ s.upd.beginLsn, Completes (exec (.norEraseDone ok) s) (fun t =>
      (ok = true → t.upd = { s.upd with beginLsn := none } ∧ s.Disposes t n dDONE 0 ∧ s.FarBut [] t ∧ t.mem = s.mem) ∧
      (ok = false → s.Disposes t n dFAILED 0x0C05 ∧ s.Dropped t)))) ∧
  (∀ s ok, s.Inv →
    (s.upd.lastLsn = none → exec (.stagingVerifyDone ok) s = .next s) ∧
    (∀ n ∈ s.upd.lastLsn, Completes (exec (.stagingVerifyDone ok) s) (fun t =>
      let k := manKind s.upd.man
      let other := if k = 1 then 2 else 1
      (ok = true → t.upd = { s.upd with st := 2, lastLsn := none } ∧ s.Disposes t n dDONE 0 ∧ s.FarBut [R.UPD_STATUS, R.UPD_CNT 2] t ∧
        (∀ l, s.Counts t l (R.UPD_CNT 2) ∧ t.fld l R.UPD_STATUS F.UPD_STATUS_STATE = 2) ∧
        (s.StagesOnce → ∀ p ∈ s.upd.stage, p.2 = 1 - (s.sec p.1).bank → (s.sec p.1).bank ≤ 1 →
          let act := s.laneBank p.1 (s.sec p.1).bank
          (t.laneBank p.1 p.2).man k = some s.upd.man ∧
          ∀ m ∈ act.man other, (t.laneBank p.1 p.2).man other = some m ∧
            ∀ e ∈ manImgs m, manImgs m = [e] → e.offset + e.length ≤ 2 ^ 27 →
              t.bytes p.1 (norBase p.2 + e.offset) e.length = s.bytes p.1 (norBase (s.sec p.1).bank + e.offset) e.length)) ∧
      (ok = false → s.Disposes t n dFAILED 0x0C04 ∧ s.Dropped t)))) ∧
  (∀ s, s.Inv →
    (s.upd.st = 4 → Completes (exec .confirmTimeout s) (fun t =>
      t.upd = { s.upd with st := 5, actLsn := none, drain := none, cycles := 0 } ∧
      (∀ l, s.Counts t l (R.UPD_CNT 5) ∧ t.fld l R.UPD_STATUS F.UPD_STATUS_STATE = 5 ∧
        t.fld l R.UPD_STATUS F.UPD_STATUS_CONFIRM_LEFT = 0) ∧ s.FarBut [R.UPD_STATUS, R.UPD_CNT 5] t)) ∧
    (s.upd.st ≠ 4 → exec .confirmTimeout s = .next s)) ∧
  (∀ s l ok, s.Inv →
    let b := 1 - (s.sec l).bank
    let due := s.holder = some l.other ∧ s.bit l R.UPD_STATUS F.UPD_STATUS_VERSION_MISMATCH = true ∧
      s.bit l R.FERRY_LANE F.FERRY_LANE_STRAIT_UP = true
    (¬ due → exec (.bankCopyDone l ok) s = .next s) ∧
    (due → ok = false → Completes (exec (.bankCopyDone l ok) s) (fun t => t.Erased l b ∧ s.Counts t l (R.PARI_NOR b) ∧
      s.RegsBut [regKey l.ix (R.PARI_NOR b)] t)) ∧
    (due → ok = true → (s.sec l).bank ≤ 1 → Completes (exec (.bankCopyDone l ok) s) (fun t => s.ResetTo t l .sys 0x70 0 ∧
      (t.sec l).bank = b ∧ t.laneBank l b = s.laneBank l.other (s.sec l.other).bank ∧ s.Counts t l.other (R.UPD_CNT 7)))) ∧
  (∀ (s : State) (b : Build) (e : Img), s.Inv → (manBuilt s.upd.man)[b.sec]? = some e → b.phase = 2 → 12 ≤ b.left.length → fieldAt b.left 1 3 = 0 → s.StagesOnce →
    let t := s.buildStep b
    let op := fieldAt b.left 0 1
    (op = 0 → t = (s, if b.rem = 4 ∧ b.out = e.length
      then .more { b with left := b.left.drop 4, sec := b.sec + 1, phase := 0, rem := 0, ins := 0, out := 0 } else .bad 0x0C03)) ∧
    (3 ≤ op → t = (s, .bad 0x0C03)) ∧
    (op = 2 → 1 ≤ fieldAt b.left 4 4 → 8 + fieldAt b.left 4 4 ≤ b.rem →
      t = (s, .more { b with left := b.left.drop 8, rem := b.rem - 8, ins := fieldAt b.left 4 4, phase := 3 }))) ∧
  (∀ (s : State) (b : Build) (e x : Img), s.Inv → (manBuilt s.upd.man)[b.sec]? = some e → b.phase = 2 → 12 ≤ b.left.length →
    fieldAt b.left 0 1 = 1 → fieldAt b.left 1 3 = 0 → s.StagesOnce → s.upd.stage ≠ [] →
    (∀ p ∈ s.upd.stage, s.baseImg p.1 (manKind s.upd.man) e.type_ = some x ∧ p.2 = 1 - (s.sec p.1).bank ∧ (s.sec p.1).bank ≤ 1) →
    let t := s.buildStep b
    let src := fieldAt b.left 4 4
    let n := fieldAt b.left 8 4
    (x.length < src + n → t = (s, .bad 0x0C03)) ∧
    (1 ≤ n → src + n ≤ x.length → b.out + n ≤ e.length → 12 ≤ b.rem → x.offset + x.length ≤ 2 ^ 27 → e.offset + e.length ≤ 2 ^ 27 →
      t.2 = .more { b with left := b.left.drop 12, rem := b.rem - 12, out := b.out + n } ∧
      ∀ p ∈ s.upd.stage, t.1.bytes p.1 (norBase p.2 + e.offset + b.out) n =
        s.bytes p.1 (norBase (s.sec p.1).bank + x.offset + src) n)) ∧
  (∀ (s : State) (b : Build) (e x : Img), s.Inv → (manBuilt s.upd.man)[b.sec]? = some e → b.phase = 0 → 64 ≤ b.left.length →
    headOk (b.left.take 64) e = true → fieldAt b.left 2 1 = 2 → fieldAt b.left 8 4 = 0 → s.StagesOnce →
    s.sectBase e (slice b.left 16 48) = some x → x.length = e.length → x.offset + x.length ≤ 2 ^ 27 → e.offset + e.length ≤ 2 ^ 27 →
    (∀ p ∈ s.upd.stage, p.2 = 1 - (s.sec p.1).bank ∧ (s.sec p.1).bank ≤ 1) →
    (s.buildStep b).2 = .more { b with left := b.left.drop 64, sec := b.sec + 1, phase := 0, rem := 0, ins := 0, out := 0 } ∧
    ∀ p ∈ s.upd.stage, (s.buildStep b).1.bytes p.1 (norBase p.2 + e.offset) e.length =
      s.bytes p.1 (norBase (s.sec p.1).bank + x.offset) e.length)

/-- Tables 5.10 and 5.11, FERRY_CTRL. -/
def Obligations.FerryCommands : Prop :=
  let sel := fun (r : Req) (l : Lane) => r.u8 0 = 1 + l.ix
  let ended := fun (s t : State) (as_ : List Nat) (disp err : Nat) => s.FarBut as_ t ∧ t.Ends s.led.nextLsn disp err
  let off := fun (who : Initiator) (v : Word) => who ≠ .elder ∨ getF v F.FERRY_CTRL_KEY ≠ 0x5EA1
  (∀ s r, Ready specFerryStatus s r → Completes (exec (.ferryStatus r) s) (fun t => s.Told r t (fun d => d.length = 24 ∧
    wordAt d 0 = s.reg .E R.FERRY_LANE ∧ wordAt d 4 = s.reg .W R.FERRY_LANE ∧ wordAt d 8 = s.reg (s.server r) R.FERRY_STATUS ∧
    wordAt d 12 = s.reg (s.server r) R.FERRY_EPOCH ∧ wordAt d 16 = s.reg (s.server r) R.FERRY_CYCLE ∧
    wordAt d 20 = s.reg (s.server r) R.FERRY_ARB))) ∧
  (∀ s r, Ready specFerryConfig s r → Completes (exec (.ferryConfig r) s) (fun t => s.Stages t ∧
    ∀ w ∈ [((R.FERRY_CFG, BitVec.ofNat 32 (r.u16 0 + 2 ^ 16 * (r.u8 2 - 1))) : RegCell),
      (R.FERRY_PHASE_CFG, BitVec.ofNat 32 (r.u32 4 - 1 + 2 ^ 16 * r.u8 3))],
      t.CarriesAt (s.holderOr .E) 3 0 s.led.nextLsn w ∧ t.Pends (s.holderOr .E).other 3 0 w)) ∧
  (∀ s r, Ready specHandover s r → Completes (exec (.handover r) s) (fun t => s.RegsAside t ∧ s.Served { t with ferry := s.ferry } ∧
    t.ferry = { s.ferry with handover := t.ferry.handover, handoverLsns := s.ferry.handoverLsns ++ [(s.led.nextLsn, s.holderOr .E)] } ∧
    t.ferry.handover.isSome = true ∧ (s.ferry.handover = none → t.ferry.handover = some .command))) ∧
  (∀ s r, Ready specLanePhase s r → Completes (exec (.lanePhase r) s) (fun t => ended s t [R.FERRY_LANE] dDONE 0 ∧ s.Ended t ∧
    ∀ l, t.fld l R.FERRY_LANE F.FERRY_LANE_PHASE = r.u8 0 ∧ t.lst l = s.lst l)) ∧
  (∀ s r l, Ready specLaneDisqualify s r → sel r l →
    (s.lst l = 5 → Completes (exec (.laneDisqualify r) s) (fun t => s.RegsAside t ∧ s.Served { t with ferry := s.ferry } ∧
      t.ferry = { s.ferry with disq := s.ferry.disq ++ [(l, some s.led.nextLsn)] })) ∧
    (s.lst l = 0 → Completes (exec (.laneDisqualify r) s) (fun t => ended s t [] dUNDELIVERABLE 0x12)) ∧
    (s.lst l ≠ 5 → s.lst l ≠ 0 → Completes (exec (.laneDisqualify r) s) (fun t => t.lst l = 7 ∧ t.lst l.other = s.lst l.other ∧
      t.leaseValid l = false ∧ t.ModeShown ∧ ended s t [R.FERRY_LANE, R.FERRY_STATUS] dDONE 0))) ∧
  (∀ s r l, Ready specLaneRequalify s r → sel r l → Completes (exec (.laneRequalify r) s) (fun t => t.lst l = 2 ∧
    t.lst l.other = s.lst l.other ∧ (match l with | .E => t.arb.downE | .W => t.arb.downW) = false ∧ t.ModeShown ∧
    ended s t [R.FERRY_LANE, R.FERRY_STATUS] dDONE 0)) ∧
  (∀ s r l, Ready specLaneResync s r → sel r l → Completes (exec (.laneResync r) s) (fun t => t.lst l = 2 ∧
    t.lst l.other = s.lst l.other ∧ t.ModeShown ∧ s.AsideBut [R.FERRY_LANE, R.FERRY_STATUS] t ∧
    t.ferry = { s.ferry with resyncLsns := s.ferry.resyncLsns ++ [(s.led.nextLsn, l)] })) ∧
  (∀ s r, Ready specDiscrepancyLog s r → Completes (exec (.discrepancyLog r) s) (fun t => s.Told r t (fun d => d.length = 16 ∧
    wordAt d 0 = s.reg (s.server r) R.FERRY_DISC_LOG0 ∧ wordAt d 4 = s.reg (s.server r) R.FERRY_DISC_LOG1 ∧
    wordAt d 8 = s.reg (s.server r) (R.FERRY_CNT 0) ∧ wordAt d 12 = s.reg (s.server r) (R.FERRY_CNT 1)))) ∧
  (∀ s r l, Ready specQuietEnter s r → sel r l → Completes (exec (.quietEnter r) s) (fun t => s.RegsAside t ∧
    s.Served { t with ferry := s.ferry } ∧ t.ferry = { s.ferry with quietStay := some l, quietLsn := some s.led.nextLsn })) ∧
  (∀ s r, Ready specQuietLeave s r →
    (s.quietOn = false → Completes (exec (.quietLeave r) s) (fun t => s.RegsAside t ∧ s.Served { t with ferry := s.ferry } ∧
      t.ferry = { s.ferry with quietLeaveLsns := s.ferry.quietLeaveLsns ++ [s.led.nextLsn] })) ∧
    (s.quietOn = true → ∀ q ∈ s.ferry.quietStay, Completes (exec (.quietLeave r) s) (fun t =>
      t.ferry = { s.ferry with quietStay := none, quietWake := false, quietLeave := some q.other,
                               quietLeaveLsns := s.ferry.quietLeaveLsns ++ [s.led.nextLsn] } ∧
      t.quietOn = false ∧ (t.lane q).retention = [] ∧ (t.lane q).memSelfRefresh = false ∧
      (s.mod_.resetN = false → s.mod_.asleep = false → (t.lane q.other).powered = true ∧ (t.lane q.other).resetting = some .por)))) ∧
  (∀ s l who v, s.Inv → off who v → exec (.ferryCtrlRequest l who v) s = .next { s with bus := .ok 0 } ∧
    exec (.ferryCtrlRelease l who v) s = .next { s with bus := .ok 0 } ∧ exec (.ferryCtrlResync l who v) s = .next { s with bus := .ok 0 }) ∧
  (∀ s l v, s.Inv → getF v F.FERRY_CTRL_KEY = 0x5EA1 →
    (getF v F.FERRY_CTRL_REQUEST = 1 → exec (.ferryCtrlRequest l .elder v) s = .next { s with
      outbox := if s.mayRequest l then s.outbox ++ [.request l (s.reg l R.FERRY_EPOCH).toNat] else s.outbox, bus := .ok 0 }) ∧
    (getF v F.FERRY_CTRL_RELEASE = 1 → Completes (exec (.ferryCtrlRelease l .elder v) s) (fun t =>
      t = { s with ferry := { s.ferry with handover := t.ferry.handover }, bus := .ok 0 } ∧
      (s.lst l ≠ 5 → t.ferry.handover = s.ferry.handover) ∧
      (s.lst l = 5 → t.ferry.handover = if s.ferry.handover = none then some .control else s.ferry.handover))) ∧
    (getF v F.FERRY_CTRL_RESYNC = 1 →
      (s.lst l ≠ 4 → exec (.ferryCtrlResync l .elder v) s = .next { s with bus := .ok 0 }) ∧
      (s.lst l = 4 → Completes (exec (.ferryCtrlResync l .elder v) s) (fun t => t.lst l = 2 ∧ t.lst l.other = s.lst l.other ∧
        t.ModeShown ∧ t.bus = .ok 0 ∧ s.RegsBut (bothKeys R.FERRY_LANE ++ bothKeys R.FERRY_STATUS) t))))

/-- R153 to R159. Table 5.2, R135 to R141, R166, R562, R563. -/
def Obligations.LeaseAndLaneEvents : Prop :=
  let held := fun (s : State) => match s.arb.held with | some h => h | none => Lane.E
  (∀ s l e, s.Inv →
    let m := max s.arb.reqEpochMax (e % 2 ^ 32)
    let next := ((if s.arb.restarted then m else s.arb.epoch) + 1) % 2 ^ 32
    let due := s.arb.held = none ∨ (s.arb.held = some l.other ∧ (s.arb.released = true ∨ s.seenLost l.other = true))
    ((s.cmn.up = false ∨ s.mayRequest l = false) → exec (.leaseRequest l e) s = .next s) ∧
    (s.cmn.up = true → s.mayRequest l = true → due → Completes (exec (.leaseRequest l e) s) (fun t => s.Granted t l next)) ∧
    (s.cmn.up = true → s.mayRequest l = true → ¬ due → Completes (exec (.leaseRequest l e) s) (fun t =>
      t.reqPending l = true ∧ t.reqPending l.other = s.reqPending l.other ∧
      t = { s with arb := { s.arb with reqEpochMax := m, reqE := t.arb.reqE, reqW := t.arb.reqW } }))) ∧
  (∀ s, s.Inv →
    let h := held s
    let next := ((if s.arb.restarted then s.arb.reqEpochMax else s.arb.epoch) + 1) % 2 ^ 32
    ((s.arb.held = none ∨ s.cmn.up = false) → exec .arbiterLeaseExpiry s = .next s) ∧
    (s.arb.held.isSome = true → s.cmn.up = true →
      (s.reqPending h.other = true → Completes (exec .arbiterLeaseExpiry s) (fun t => s.Granted t h.other next)) ∧
      (s.reqPending h.other = false → s.reqPending h = true → Completes (exec .arbiterLeaseExpiry s) (fun t => s.Granted t h next)) ∧
      (s.reqPending .E = false → s.reqPending .W = false → Completes (exec .arbiterLeaseExpiry s) (fun t => t.arb.held = none ∧
        (∀ m, t.bit m R.FERRY_LANE F.FERRY_LANE_HELD = false) ∧ s.RegsBut (bothKeys R.FERRY_LANE) t ∧
        t = { s with regs := t.regs, arb := { s.arb with held := none, released := false } })))) ∧
  (∀ s l us, s.Inv →
    let ok := s.cmn.up = true ∧ s.arb.held = some l ∧ (s.lane l).leaseRenewOut = true
    (¬ ok → exec (.leaseRenew l us) s = .next s) ∧
    (ok → exec (.leaseRenew l us) s = .next { s with
      arb := { s.arb with renewAt := s.now, leaseUs := us % 65536, ackTo := some l }, outbox := s.outbox ++ [.ack l] })) ∧
  (∀ s l, s.Inv →
    ((s.arb.ackTo ≠ some l ∨ (s.lane l).leaseRenewOut = false) → exec (.leaseAck l) s = .next s) ∧
    (s.arb.ackTo = some l → (s.lane l).leaseRenewOut = true → Completes (exec (.leaseAck l) s) (fun t =>
      t = { s with arb := { s.arb with ackTo := none }, laneE := t.laneE, laneW := t.laneW } ∧ t.lane l.other = s.lane l.other ∧
      t.lane l = { s.lane l with leaseRenewOut := false })) ∧
    ((s.lane l).leaseRenewOut = false → exec (.renewMissed l) s = .next s) ∧
    ((s.lane l).leaseRenewOut = true → Completes (exec (.renewMissed l) s) (fun t =>
      t.bit l R.FERRY_STATUS F.FERRY_STATUS_RENEW_MISSED = true ∧ s.Counts t l (R.FERRY_CNT 6) ∧
      (t.lane l).leaseRenewOut = false ∧ t.arb.ackTo ≠ some l ∧ s.RegsBut [regKey l.ix R.FERRY_STATUS, regKey l.ix (R.FERRY_CNT 6)] t ∧
      t.outbox = s.outbox ++ [.laneLost l (s.reg l R.FERRY_EPOCH).toNat (s.reg l R.FERRY_CYCLE).toNat]))) ∧
  (∀ s l, s.Inv →
    let next := ((if s.arb.restarted then s.arb.reqEpochMax else s.arb.epoch) + 1) % 2 ^ 32
    let ok := s.cmn.up = true ∧ s.arb.held = some l ∧ s.leaseValid l = false
    (¬ ok → exec (.leaseRelease l) s = .next s) ∧
    (ok → s.reqPending l.other = true → Completes (exec (.leaseRelease l) s) (fun t => s.Granted t l.other next)) ∧
    (ok → s.reqPending l.other = false → exec (.leaseRelease l) s = .next { s with arb := { s.arb with released := true } })) ∧
  (∀ s l, s.Inv →
    let next := ((if s.arb.restarted then s.arb.reqEpochMax else s.arb.epoch) + 1) % 2 ^ 32
    let ok := s.seenLost l = true ∧ s.arb.held = some l
    (¬ ok → exec (.laneDown l) s = .next s) ∧
    (ok → s.lst l.other ≠ 3 →
      (s.cmn.up = true → s.reqPending l.other = true → Completes (exec (.laneDown l) s) (fun t => s.Granted t l.other next)) ∧
      (s.cmn.up = true → s.reqPending l.other = false → Completes (exec (.laneDown l) s) (fun t => t.arb.held = none ∧
        (∀ m, t.bit m R.FERRY_LANE F.FERRY_LANE_HELD = false) ∧
        ((s.lst l.other = 2 ∨ (s.lst l.other = 4 ∧ s.ferry.released ≠ some l.other)) → s.qualified l.other = true →
          OutMsg.request l.other (s.reg l.other R.FERRY_EPOCH).toNat ∈ t.outbox)))) ∧
    (ok → s.lst l.other = 3 → Completes (exec (.laneDown l) s) (fun t => t.lst l.other = 2 ∧ t.ModeShown ∧ t.ferry.snapRuns = false))) ∧
  (∀ s l, s.Inv →
    (s.arb.grantTo ≠ some l → exec (.leaseGrant l) s = .next s) ∧
    (s.arb.grantTo = some l → s.mayRequest l = false → exec (.leaseGrant l) s = .next { s with arb := { s.arb with grantTo := none } }) ∧
    (s.arb.grantTo = some l → s.mayRequest l = true → Completes (exec (.leaseGrant l) s) (fun t =>
      t.lst l = 5 ∧ t.lst l.other = s.lst l.other ∧ t.leaseValid l = true ∧ t.ModeShown ∧ t.arb.grantTo = none ∧
      t.reg l R.FERRY_EPOCH = BitVec.ofNat 32 s.arb.epoch ∧ (∀ u ∈ t.urgents, u.epoch = s.arb.epoch) ∧
      t.reg l.other R.FERRY_EPOCH = (if s.lst l.other = 4 then BitVec.ofNat 32 s.arb.epoch else s.reg l.other R.FERRY_EPOCH) ∧
      t.reg l R.FERRY_CYCLE = (if s.lst l = 4 then s.reg l R.FERRY_CYCLE else BitVec.ofNat 32 s.nextCycle) ∧
      t.ferry.handover = none ∧ t.ferry.serviceCycles = 0 ∧ t.ferry.homeStandbyCycles = 0 ∧
      (s.lst l = 1 → t.ferry.coldStart = true ∧ t.mod_.configured = false ∧ t.fld l R.FERRY_LANE F.FERRY_LANE_PHASE = 0)))) ∧
  (∀ s l, s.Inv →
    (s.leaseValid l = false → exec (.leaseValidEnd l) s = .next s) ∧
    (s.leaseValid l = true → s.lst l ≠ 5 → Completes (exec (.leaseValidEnd l) s) (fun t => t.leaseValid l = false ∧
      (t.lane l).leaseRenewOut = false ∧ s.RegsBut [regKey l.ix R.FERRY_LANE] t ∧ t.lst l = s.lst l)) ∧
    (s.leaseValid l = true → s.lst l = 5 → Completes (exec (.leaseValidEnd l) s) (fun t => t.leaseValid l = false ∧ t.lst l = 2 ∧
      t.lst l.other = s.lst l.other ∧ t.ModeShown ∧ (t.lane l).leaseRenewOut = false ∧ t.ferry.imageSent = false ∧
      s.FarBut [R.FERRY_LANE, R.FERRY_STATUS] t))) ∧
  (let asks := fun (s t : State) (l : Lane) => s.mayRequest l = true → OutMsg.request l (s.reg l R.FERRY_EPOCH).toNat ∈ t.outbox
  (∀ s l, s.Inv →
    let o := s.lst l.other
    let hears := (s.lane l).powered = true ∧ (s.lane l.other).powered = true ∧ s.lst l ≠ 0 ∧ o ≠ 0
    (¬ hears → exec (.heartbeat l) s = .next s) ∧
    (hears → Completes (exec (.heartbeat l) s) (fun t => t.bit l R.FERRY_LANE F.FERRY_LANE_STRAIT_UP = true ∧
      t.fld l R.FERRY_LANE F.FERRY_LANE_OTHER_STATE = o ∧ t.lst l.other = o ∧
      s.RegsBut (bothKeys R.FERRY_LANE ++ bothKeys R.FERRY_STATUS ++ bothKeys R.FERRY_REPL) t ∧
      (o = 5 → s.lst l = 2 → s.bit l R.UPD_STATUS F.UPD_STATUS_VERSION_MISMATCH = false → t.lst l = 3 ∧ t.ModeShown ∧
        t.ferry.snapRuns = false ∧ t.ferry.snapBytes = 4096 * s.replPages l.other ∧
        ∀ m, t.fld m R.FERRY_REPL F.FERRY_REPL_SNAP_LEFT = s.replPages l.other % 2 ^ 15) ∧
      (o = 5 → (s.lst l ≠ 2 ∨ s.bit l R.UPD_STATUS F.UPD_STATUS_VERSION_MISMATCH = true) → t.lst l = s.lst l) ∧
      (o ≠ 5 → t.lst l = if s.lst l = 3 then 2 else s.lst l) ∧
      (o ≠ 5 → s.lst l = 3 → t.ferry.snapBytes = 0 ∧ t.ferry.snapRuns = false ∧ t.ModeShown) ∧
      (o ≠ 5 → s.lst l = 4 → s.ferry.released ≠ some l → asks s t l) ∧
      (o ≠ 5 → (s.lst l = 2 ∨ s.lst l = 3) → s.arb.held = none → asks s t l)))) ∧
  (∀ s l, s.Inv →
    (s.lst l = 0 → exec (.straitLost l) s = .next s) ∧
    (s.lst l ≠ 0 → Completes (exec (.straitLost l) s) (fun t => t.bit l R.FERRY_STATUS F.FERRY_STATUS_STRAIT_LOST = true ∧
      t.bit l R.FERRY_LANE F.FERRY_LANE_STRAIT_UP = false ∧ t.fld l R.FERRY_LANE F.FERRY_LANE_OTHER_STATE = 0 ∧
      t.lst l = (if s.lst l = 3 then 2 else s.lst l) ∧ t.lst l.other = s.lst l.other ∧
      s.RegsBut (bothKeys R.FERRY_LANE ++ bothKeys R.FERRY_STATUS ++ bothKeys R.FERRY_REPL) t ∧
      (s.lst l = 4 → s.ferry.released ≠ some l → asks s t l) ∧
      ((s.lst l = 2 ∨ s.lst l = 3) → s.arb.held = none → asks s t l)))) ∧
  (∀ s l e c, s.Inv → exec (.laneLostNotice l e c) s = .next { s with
    outbox := if s.lst l = 4 ∧ s.qualified l = true then s.outbox ++ [.request l (s.reg l R.FERRY_EPOCH).toNat] else s.outbox }) ∧
  (∀ s, s.Inv →
    let h := s.holderOr .E
    let due := s.holder.isSome = true ∧ s.fld h R.FERRY_LANE F.FERRY_LANE_PHASE = 0 ∧
      s.bit h R.FERRY_PHASE_CFG F.FERRY_PHASE_CFG_AUTO_SERVICE = true ∧
      s.fld h R.FERRY_PHASE_CFG F.FERRY_PHASE_CFG_SERVICE_DELAY_M1 + 1 ≤ s.ferry.serviceCycles
    (¬ due → exec .serviceDelayExpiry s = .next s) ∧
    (due → Completes (exec .serviceDelayExpiry s) (fun t => s.OnlyRegs (bothKeys R.FERRY_LANE) t ∧
      ∀ l, t.fld l R.FERRY_LANE F.FERRY_LANE_PHASE = 1 ∧ t.lst l = s.lst l))) ∧
  (∀ s l f1 f2 k lost, s.Inv →
    let act := (s.sec l).bank
    let due := s.lst l = 1 ∧ (s.lane l).elderUp = true ∧ (s.lane l).bootOk = false ∧ s.bit l R.LHS_STATUS F.LHS_STATUS_BOOT_FAIL = false
    let alive := s.lifecycle l ≠ 5 ∧ (s.sec l.other).fuse ≤ (s.sec l).fuse ∧ act ≤ 1
    let bad := s.clockBad l = true ∨ s.lstepBad l = true
    (¬ due → exec (.bootVerified l f1 f2 k lost) s = .next s) ∧
    (due → alive → f1 ≠ 0 → f2 ≠ 0 → Completes (exec (.bootVerified l f1 f2 k lost) s) (fun t =>
      (∀ m, t.bit m R.LHS_STATUS F.LHS_STATUS_BOOT_FAIL = true) ∧ t.lst l = 1 ∧ (t.lane l).bootOk = false ∧
      t.fld l R.LHS_BOOT F.LHS_BOOT_FAIL_A = (if act = 0 then f1 else f2) % 8 ∧
      t.fld l R.LHS_BOOT F.LHS_BOOT_FAIL_B = (if act = 0 then f2 else f1) % 8)) ∧
    (due → alive → (f1 = 0 ∨ f2 = 0) → Completes (exec (.bootVerified l f1 f2 k lost) s) (fun t =>
      (t.lane l).bootOk = true ∧ t.serving l = true ∧ t.fld l R.LHS_STATUS F.LHS_STATUS_BOOT_BANK = (if f1 = 0 then act else 1 - act) ∧
      t.bit l R.LHS_STATUS F.LHS_STATUS_BOOT_FALLBACK = (f1 != 0) ∧ t.bit l.other R.LHS_STATUS F.LHS_STATUS_BOOT_FAIL = false ∧
      t.fld l R.LHS_BOOT F.LHS_BOOT_KEY_IDX = k % 2 ^ fldWidth F.LHS_BOOT_KEY_IDX ∧
      (t.reg l (R.LHS_KEY_INFO 0) = 7 ∧ t.reg l (R.LHS_KEY_INFO 3) = 3 ∧ ∃ y < 8,
        t.reg l (R.LHS_KEY_INFO 1) = BitVec.ofNat 32 (1 + 2 * y) ∧ t.reg l (R.LHS_KEY_INFO 2) = BitVec.ofNat 32 (1 + 2 * y)) ∧
      (bad → t.lst l = 7 ∧ t.ModeShown) ∧
      (¬ bad → (match l with | .E => t.arb.downE | .W => t.arb.downW) = false) ∧
      (¬ bad → s.lst l.other = 5 → t.lst l = 2 ∧ t.ModeShown ∧
        (s.upd.st ≠ 3 → s.upd.st ≠ 5 → f1 = 0 → t.bit l R.UPD_STATUS F.UPD_STATUS_VERSION_MISMATCH = (t.bootSet l.other != t.bootSet l))) ∧
      (¬ bad → s.lst l.other ≠ 5 → t.lst l = 1 ∧ asks t t l) ∧
      (f1 = 0 → t.upd.clean = s.upd.clean) ∧ (f1 ≠ 0 → s.upd.st ≠ 3 → t.upd.clean = false) ∧
      (f1 ≠ 0 → s.upd.st = 3 → s.upd.restarting.contains l = true → t.upd.st = 5))) ∧
    (due → (s.sec l).fuse < (s.sec l.other).fuse → s.fld l R.RSTC_RST_CAUSE F.RSTC_RST_CAUSE_LEVEL = 3 →
      s.bit l R.FERRY_LANE F.FERRY_LANE_STRAIT_UP = true → Completes (exec (.bootVerified l f1 f2 k lost) s) (fun t =>
        (t.sec l).fuse = (s.sec l.other).fuse ∧ t.bit l R.LHS_STATUS F.LHS_STATUS_LC_REPAIRED = true))) ∧
  (∀ s l i b ok h, s.Inv →
    let x := s.sec l
    ((s.lane l).bootOk = false ∨ s.lst l = 0 → exec (.applicationVerified l i b ok h) s = .next s) ∧
    ((s.lane l).bootOk = true → s.lst l ≠ 0 → ok = true → Completes (exec (.applicationVerified l i b ok h) s) (fun t =>
      t.sec l = (if x.meas.length < 32 then { x with meas := x.meas ++ [(i, b, h)] } else x) ∧ t.sec l.other = s.sec l.other ∧
      t = { s with secE := t.secE, secW := t.secW })) ∧
    ((s.lane l).bootOk = true → s.lst l ≠ 0 → ok = false → Completes (exec (.applicationVerified l i b ok h) s) (fun t =>
      t.bit l R.LHS_STATUS F.LHS_STATUS_IMG_FAIL = true ∧ t.secE = s.secE ∧ t.secW = s.secW ∧
      (s.upd.st ≠ 3 → t.upd = { s.upd with clean := false } ∧ s.RegsBut [regKey l.ix R.LHS_STATUS] t) ∧
      (s.upd.st = 3 → s.upd.restarting.contains l = true → t.upd.st = 5)))))

/-- R144 to R151, R24, R25. -/
def Obligations.FrameAcceptance : Prop :=
  let high := fun (s : State) (c : FrameCopy) => (s.die c.die).highEpoch.getD 0
  let good := fun (s : State) (c : FrameCopy) => s.Inv ∧ (s.die c.die).up = true ∧ c.crcOk = true
  let ahead := fun (s : State) (c : FrameCopy) => ∀ k ∈ (s.die c.die).lastClosed, serialAhead32 c.cycle k = true
  let back := fun (s t : State) (d : Die) => t.setDie d (s.die d)
  let opened := fun (c : FrameCopy) (applied held : Option FrameCopy) =>
    (some ⟨c.cycle, c.tcycUs, c.lane == .E, c.lane == .W, applied, held, false⟩ : Option Window)
  let took := fun (t : State) (c : FrameCopy) => (t.die c.die).lastCycle = some c.cycle ∧ (t.die c.die).tcycUs = c.tcycUs ∧
    (t.die c.die).src.testBit 0 = (c.lane == .W) ∧ (t.die c.die).src.testBit 1 = c.holder
  let conflict := fun (s t : State) => ∀ l, s.lst l ≠ 0 → t.bit l R.FERRY_STATUS F.FERRY_STATUS_LEASE_CONFLICT = true
  (∀ s c, s.Inv →
    ((s.die c.die).up = false → exec (.frameCopyArrival c) s = .next s) ∧
    ((s.die c.die).up = true → c.crcOk = false → Completes (exec (.frameCopyArrival c) s) (fun t => s.FrameCounted t 2)) ∧
    ((s.die c.die).up = true → c.crcOk = true → Completes (exec (.frameCopyArrival c) s) (fun t =>
      (t.die c.die).highEpoch = (if c.holder then some (max c.epoch (high s c)) else (s.die c.die).highEpoch) ∧
      ∀ d, d ≠ c.die → t.die d = s.die d))) ∧
  (∀ s c, good s c → (s.die c.die).window = none →
    (¬ ahead s c → Completes (exec (.frameCopyArrival c) s) (fun t =>
      s.FrameCounted (back s t c.die) (if (s.die c.die).lastClosed = some c.cycle then 3 else 2))) ∧
    (ahead s c → c.holder = true → high s c ≤ c.epoch → Completes (exec (.frameCopyArrival c) s) (fun t =>
      took t c ∧ (t.die c.die).lastHolderLane = some c.lane ∧ (t.die c.die).window = opened c (some c) none)) ∧
    (ahead s c → c.holder = true → c.epoch < high s c → Completes (exec (.frameCopyArrival c) s) (fun t => conflict s t ∧
      (∀ l, s.lst l ≠ 0 → s.Counts t l (R.FERRY_CNT 2)) ∧ s.RegsBut (bothKeys R.FERRY_STATUS ++ bothKeys (R.FERRY_CNT 2)) t ∧
      (t.die c.die).lastCycle = (s.die c.die).lastCycle ∧ (t.die c.die).window = opened c none none)) ∧
    (ahead s c → c.holder = false → (s.die c.die).lastHolderLane = some c.lane → Completes (exec (.frameCopyArrival c) s) (fun t =>
      took t c ∧ (t.die c.die).lastHolderLane = some c.lane ∧ (t.die c.die).window = opened c (some c) none)) ∧
    (ahead s c → c.holder = false → (s.die c.die).lastHolderLane ≠ some c.lane → exec (.frameCopyArrival c) s = .next
      (s.setDie c.die { s.die c.die with window := opened c none (some c) }))) ∧
  (∀ s c, good s c → ∀ w ∈ (s.die c.die).window,
    (w.cycle ≠ c.cycle → serialAhead32 c.cycle w.cycle = false → Completes (exec (.frameCopyArrival c) s) (fun t =>
      s.FrameCounted (back s t c.die) (if (s.die c.die).lastClosed = some c.cycle then 3 else 2))) ∧
    (w.cycle = c.cycle → (match c.lane with | .E => w.gotE | .W => w.gotW) = true → Completes (exec (.frameCopyArrival c) s) (fun t =>
      s.FrameCounted (back s t c.die) 2))) ∧
  (∀ s c w, good s c → (s.die c.die).window = some w → w.cycle = c.cycle → (match c.lane with | .E => w.gotE | .W => w.gotW) = false →
    (∀ a ∈ w.applied, (c.holder = false ∨ (high s c ≤ c.epoch ∧ a.holder = false)) → Completes (exec (.frameCopyArrival c) s) (fun t =>
      (t.die c.die).lastCycle = (s.die c.die).lastCycle ∧ (t.die c.die).src.testBit 2 = true ∧
      (∀ x ∈ (t.die c.die).window, x.applied = some a ∧ x.compared = true) ∧
      (c.diff = .same → back s t c.die = s) ∧ (c.diff = .nonSig → s.FrameCounted (back s t c.die) 0) ∧
      ∀ r b, c.diff = .sig r b → s.Differs t c.die c.cycle r b)) ∧
    (∀ a ∈ w.applied, c.holder = true → a.holder = true → high s c ≤ c.epoch → c.epoch ≤ a.epoch →
      Completes (exec (.frameCopyArrival c) s) (fun t => conflict s t ∧ (t.die c.die).lastCycle = (s.die c.die).lastCycle)) ∧
    (∀ a ∈ w.applied, c.holder = true → a.holder = true → high s c ≤ c.epoch → a.epoch < c.epoch →
      Completes (exec (.frameCopyArrival c) s) (fun t => took t c ∧ (t.die c.die).lastHolderLane = some c.lane ∧
        ∀ x ∈ (t.die c.die).window, x.applied = some c)) ∧
    (w.applied = none → c.holder = true → high s c ≤ c.epoch → Completes (exec (.frameCopyArrival c) s) (fun t => took t c ∧
      ∀ x ∈ (t.die c.die).window, x.applied = some c ∧ (w.held.isSome = true → x.compared = true)))) ∧
  (∀ s d, s.Inv →
    (((s.die d).up = false ∨ (s.die d).window = none) → exec (.acceptanceWindowClose d) s = .next s) ∧
    ((s.die d).up = true → ∀ w ∈ (s.die d).window,
      (w.applied = none → ∀ c ∈ w.held, c.die = d → Completes (exec (.acceptanceWindowClose d) s) (fun t => took t c ∧
        (t.die d).src.testBit 3 = true ∧ (t.die d).window = none ∧ (t.die d).lastClosed = some w.cycle)) ∧
      ((w.applied.isSome = true ∨ w.held = none) → Completes (exec (.acceptanceWindowClose d) s) (fun t =>
        t.die d = { s.die d with window := none, lastClosed := some w.cycle } ∧
        (if w.applied.isSome = true ∧ ¬ (w.gotE = true ∧ w.gotW = true) then s.FrameCounted (back s t d) 4 else back s t d = s))))) ∧
  (∀ s c k m v n, good s c → (s.die c.die).window = none → ahead s c → c.holder = true → high s c ≤ c.epoch →
    (s.lane c.lane).strapOk = true → s.evtRecs = [] → k.region ≤ 2 → c.die = fieldDie k.region → m < fcCount k.region →
    s.commits = [k] → k.block = 8 → k.lane = c.lane → k.carried = true → k.writes = [(R.FCH_DUTY k.region m, v)] → k.lsns = [n] →
    chkFch s k = true → Completes (exec (.frameCopyArrival c) s) (fun t =>
      let a := R.FCH_DUTY k.region m
      t.commits = [] ∧ t.reg .E a = (s.reg .E a &&& ~~~(rwsMask a)) ||| (v &&& rwsMask a) ∧ s.Disposes t n dDONE 0)) ∧
  (∀ s d l, s.Inv →
    let sees := (s.die d).up = true ∧ s.forwards l = true
    (¬ sees → exec (.statusFrame d l) s = .next s) ∧
    (sees → (s.die d).restarted = false → Completes (exec (.statusFrame d l) s) (fun t =>
      t.reg l (R.FERRY_DIE_LAST d.ix) = BitVec.ofNat 32 ((s.die d).lastCycle.getD 0) ∧
      t.reg l (R.FERRY_DIE_SRC d.ix) = BitVec.ofNat 32 (s.die d).src ∧
      (d = .P1 → ∀ m < 24, ∀ k < 6, t.reg l (R.PCH_MIR 1 m k) = s.dieReg (R.PCH_STATE 1 m + 4 * k)) ∧
      (d = .F0 → ∀ m < 112, t.reg l (R.FCH_MIR 0 m 0) = s.dieReg (R.FCH_STATE 0 m) ∧
        ∀ k < 4, t.reg l (R.FCH_MIR 0 m (1 + k)) = s.dieReg (R.FCH_STATE 0 m + 4 + 4 * k)) ∧
      (d = .CMN → ∀ n < 16, t.reg l (R.CAN_MIR n 0) = s.dieReg (R.CAN_STAT n))))) ∧
  (∀ s e w, s.Inv →
    (s.cmnRuns = false → exec (.commonsMismatch e w) s = .next s ∧ exec .commonsSafeState s = .next s) ∧
    (s.cmnRuns = true → Completes (exec (.commonsMismatch e w) s) (fun t => s.RegsBut (bothKeys R.FERRY_STATUS) t ∧
      (∀ l, t.bit l R.FERRY_STATUS F.FERRY_STATUS_CMN_MISMATCH = true) ∧
      t = { s with regs := t.regs, mod_ := { s.mod_ with cmnMismatch := !e && !w } })) ∧
    (s.cmnRuns = true → s.mod_.cmnMismatch = false → exec .commonsSafeState s = .next s) ∧
    (s.cmnRuns = true → s.mod_.cmnMismatch = true → Completes (exec .commonsSafeState s) (fun t => t.mod_.cmnSafe = true ∧
      t.cmnRuns = false ∧ t.bit .E R.CVC_SEL_STATUS F.CVC_SEL_STATUS_CMN_SAFE = true ∧ t.pwmRecs = [] ∧ t.cmnRecs = [] ∧
      ∀ p ∈ s.pwmRecs, ∀ e ∈ s.entry p.lsn, ∃ x ∈ t.entry p.lsn, x.live = false)))

/-- Table 1.6, R136 to R140, R160, R170, R171. -/
def Obligations.CycleAndImage : Prop :=
  (∀ s ovr n, s.Inv →
    let h := s.holderOr .E
    let o := h.other
    (¬ (s.cyclesRun = true ∧ s.ferry.sealed = false) → exec (.frameSeal ovr n) s = .next s) ∧
    (s.cyclesRun = true → s.ferry.sealed = false → Completes (exec (.frameSeal ovr n) s) (fun t => t.ferry.sealed = true ∧
      (∀ c ∈ t.commits, c.framed = true → c.carried = true) ∧ (∀ p ∈ t.pwmRecs, p.carried = true) ∧
      (∀ p ∈ t.cmnRecs, p.carried = true) ∧
      (s.holder.isSome = true → ovr = true → t.bit h R.FERRY_STATUS F.FERRY_STATUS_CYCLE_OVERRUN = true ∧ s.Counts t h (R.FERRY_CNT 7)) ∧
      (s.holder = none ∨ (s.lst o ≠ 3 ∧ s.lst o ≠ 4) → t.ferry.imageSent = s.ferry.imageSent ∧ t.lst o = s.lst o) ∧
      (s.holder.isSome = true → (s.lst o = 3 ∨ s.lst o = 4) → imageFits (s.reg h) n = true → t.ferry.imageSent = true ∧
        t.fld h R.FERRY_IMAGE F.FERRY_IMAGE_LAST_BYTES = n ∧ t.lst o = s.lst o ∧
        t.fld h R.FERRY_IMAGE_MAX F.FERRY_IMAGE_MAX_MAX_BYTES = max n (s.fld h R.FERRY_IMAGE_MAX F.FERRY_IMAGE_MAX_MAX_BYTES)) ∧
      (s.holder.isSome = true → (s.lst o = 3 ∨ s.lst o = 4) → imageFits (s.reg h) n = false → t.lst o = 2 ∧ t.ModeShown ∧
        t.bit h R.FERRY_STATUS F.FERRY_STATUS_IMAGE_OVERFLOW = true ∧ t.ferry.imageSent = s.ferry.imageSent)))) ∧
  (∀ s crc inTime xl, s.Inv →
    let h := s.holderOr .E
    let l := h.other
    let takes := s.holder.isSome = true ∧ s.ferry.imageSent = true ∧ (s.lst l = 4 ∨ s.lst l = 3) ∧ s.ferry.imageOk = none
    (¬ takes → exec (.stateImageReceived crc inTime xl) s = .next s) ∧
    (takes → Completes (exec (.stateImageReceived crc inTime xl) s) (fun t =>
      t.fld l R.FERRY_IMAGE F.FERRY_IMAGE_LAST_BYTES = s.fld h R.FERRY_IMAGE F.FERRY_IMAGE_LAST_BYTES ∧
      (crc = false → t.bit l R.FERRY_STATUS F.FERRY_STATUS_IMAGE_CRC = true ∧ t.lst l = 2 ∧ t.ModeShown) ∧
      (crc = true → xl = false → s.mixed = true → t.lst l = 2 ∧ t.ModeShown ∧ t.upd.st = 5 ∧
        ∀ m, t.bit m R.UPD_STATUS F.UPD_STATUS_XLATE_FAIL = true) ∧
      (crc = true → (xl = true ∨ s.mixed = false) → t.lst l = s.lst l ∧ t.ferry = { s.ferry with imageOk := some inTime } ∧
        s.RegsBut [regKey l.ix R.FERRY_IMAGE, regKey l.ix R.FERRY_IMAGE_MAX] t)))) ∧
  (∀ s n, s.Inv →
    (s.cyclesRun = false → exec (.cycleBoundary n) s = .next s) ∧
    (s.cyclesRun = true → Completes (exec (.cycleBoundary n) s) (fun t =>
      t.ferry.sealed = false ∧ t.ferry.imageSent = false ∧ t.ferry.imageOk = none ∧ t.ferry.tcycUs = n ∧
      (∀ l, t.bit l R.UPD_STATUS F.UPD_STATUS_MIXED =
        ((t.upd.st == 3 || t.upd.st == 5) && t.laneOut .E && t.laneOut .W && t.bootSet .E != t.bootSet .W)) ∧
      ∀ l, t.bit l R.FERRY_ARB F.FERRY_ARB_HELD = t.arb.held.isSome ∧ t.bit l R.FERRY_ARB F.FERRY_ARB_HOLDER = (t.arb.held == some .W) ∧
        t.bit l R.FERRY_ARB F.FERRY_ARB_REQ_E = t.arb.reqE ∧ t.bit l R.FERRY_ARB F.FERRY_ARB_REQ_W = t.arb.reqW ∧
        t.bit l R.FERRY_ARB F.FERRY_ARB_DOWN_E = t.arb.downE ∧ t.bit l R.FERRY_ARB F.FERRY_ARB_DOWN_W = t.arb.downW ∧
        t.fld l R.FERRY_REPL F.FERRY_REPL_REPL_PAGES = t.replPages l % 2 ^ 15))) ∧
  (∀ (s : State) (l : Lane), s.Inv → s.lst l = 4 →
    let t := s.imageStep l
    let good := s.ferry.imageOk = some true ∧ s.lst l.other = 5
    (good → t.lst l = 4 ∧ ∀ a, sharedReg a = false → slotOf a ≠ 9 → slotOf a ≠ 10 → replicatedReg s l.other a = true →
      a < 2 ^ 32 → t.reg l a = s.reg l.other a) ∧
    (¬ good → s.holderLost l = true → t.lst l = 4 ∧ (s.ferry.released ≠ some l → s.qualified l = true →
      OutMsg.request l (s.reg l R.FERRY_EPOCH).toNat ∈ t.outbox)) ∧
    (¬ good → s.holderLost l = false → t.lst l = 2 ∧ t.ModeShown)) ∧
  (∀ (s : State) (l : Lane), s.Inv → s.lst l = 3 →
    let t := s.imageStep l
    let left := s.ferry.snapBytes - 2400 * s.ferry.tcycUs
    (s.lst l.other ≠ 5 → t.lst l = 2 ∧ t.ferry.snapRuns = false ∧ t.ModeShown) ∧
    (s.lst l.other = 5 → s.ferry.snapRuns = false → t = { s with ferry := { s.ferry with snapRuns := true } }) ∧
    (s.lst l.other = 5 → s.ferry.snapRuns = true → s.ferry.imageOk ≠ some true → t.lst l = 2 ∧ t.ModeShown ∧ t.ferry.snapBytes = 0) ∧
    (s.lst l.other = 5 → s.ferry.snapRuns = true → s.ferry.imageOk = some true → left ≠ 0 → t.lst l = 3 ∧ t.ferry.snapBytes = left ∧
      ∀ m, t.fld m R.FERRY_REPL F.FERRY_REPL_SNAP_LEFT = (left + 4095) / 4096 % 2 ^ 15) ∧
    (s.lst l.other = 5 → s.ferry.snapRuns = true → s.ferry.imageOk = some true → left = 0 → t.lst l = 4 ∧ t.ModeShown ∧
      t.reg l R.FERRY_EPOCH = s.reg l.other R.FERRY_EPOCH ∧ t.ferry.snapRuns = false ∧
      t.fld l R.FERRY_LANE F.FERRY_LANE_PHASE = s.fld l.other R.FERRY_LANE F.FERRY_LANE_PHASE ∧
      ∀ n ∈ (s.ferry.resyncLsns.map Prod.fst).head?, s.ferry.resyncLsns = [(n, l)] → s.Disposes t n dDONE 0)) ∧
  (∀ (s : State) (h : Lane), s.Inv → s.ferry.disq = [] → s.ferry.handoverLsns = [] → s.holder = some h →
    let t := s.ferryTurn
    (s.handoverDue h = none → t = s) ∧
    (∀ k ∈ s.handoverDue h, s.lst h.other = 4 → t.lst h = (if k = .withdraw then 6 else 4) ∧ t.leaseValid h = false ∧ t.ModeShown ∧
      t.ferry.released = some h ∧ t.ferry.handover = none ∧ OutMsg.release h ∈ t.outbox ∧ (∀ l, s.Counts t l (R.FERRY_CNT 5)) ∧
      (k = .takeback → t.bit h R.FERRY_STATUS F.FERRY_STATUS_TAKEBACK = true) ∧
      (s.qualified h.other = true → OutMsg.request h.other (s.reg h.other R.FERRY_EPOCH).toNat ∈ t.outbox)) ∧
    (∀ k ∈ s.handoverDue h, s.lst h.other ≠ 4 → t.lst h = 5 ∧ t.leaseValid h = s.leaseValid h ∧ t.ferry.handover = none ∧
      t.outbox = s.outbox ∧ (k = .withdraw → (t.lane h).thermCrit = true)) ∧
    (s.homeLane h = h.other → 2 ≤ s.ferry.homeStandbyCycles → s.fld h R.FERRY_LANE F.FERRY_LANE_PHASE ≠ 1 →
      s.ferry.handover = none → s.ferry.quietStay = none → s.updHandover = false → s.handoverDue h = some .takeback)) ∧
  (∀ (s : State) (l : Lane), s.Inv →
    ((s.lst l = 4 ∨ s.lst l = 5 ∨ s.lst l = 6) → s.OnlyRegs [regKey l.ix R.FERRY_CYCLE] (s.nextNumber l) ∧
      (s.nextNumber l).reg l R.FERRY_CYCLE = s.reg l R.FERRY_CYCLE + 1) ∧
    (s.holder = some l → s.leaseValid l = true → s.renew.outbox = s.outbox ++ [.renew l (s.fld l R.FERRY_CFG F.FERRY_CFG_LEASE_US)] ∧
      (s.renew.lane l).leaseRenewOut = true ∧ s.renew.regs = s.regs)) ∧
  (∀ (s : State) (q : Lane) (n : Nat), s.Inv → s.ferry.quietStay = some q → s.ferry.quietLsn = some n → s.ferry.quietWake = false → s.ferry.quietLeave = none →
    let t := s.quietStep
    (s.lst q = 5 → (t.lane q.other).powered = false ∧ t.quietOn = true ∧
      (∀ e ∈ s.entry n, ∃ x ∈ t.entry n, x.live = false) ∧ (∀ m, t.bit m R.FERRY_STATUS F.FERRY_STATUS_QUIET = true) ∧
      ((s.lane q.other).powered = true → t.lst q.other = 0) ∧ ∀ p < 2, t.bit .E (R.ETHS_P_STAT p) F.ETHS_P_STAT_LINK = false) ∧
    (s.lst q = 4 → t.ferry.quietStay = some q ∧ t.ferry.quietLsn = some n ∧ ∀ m, t.bit m R.FERRY_STATUS F.FERRY_STATUS_QUIET = false) ∧
    (s.lst q ≠ 4 → s.lst q ≠ 5 → t.ferry.quietStay = none ∧ s.Disposes t n dFAILED (s.freeNat % 65536))) ∧
  (∀ (s : State) (n : Nat), s.Inv → s.ferry.quietWake = false → s.ferry.quietStay = none → s.ferry.quietLeaveLsns = [n] → ∀ l ∈ s.ferry.quietLeave,
    (s.lst l = 4 → s.Disposes s.quietStep n dDONE 0 ∧ s.quietStep.ferry.quietLeave = none ∧
      ∀ m, s.quietStep.bit m R.FERRY_STATUS F.FERRY_STATUS_QUIET = false) ∧
    (s.lst l ≠ 4 → ∀ m, s.quietStep.bit m R.FERRY_STATUS F.FERRY_STATUS_QUIET = true))

/-- Table 6.10, R199, R201; completion records as in Table 6.9. -/
def Obligations.LedgerCommands : Prop :=
  let told := fun (d : List Byte) (o lsn disp flags reqId stream err : Nat) => fieldAt d o 6 = lsn % 2 ^ 48 ∧
    fieldAt d (o + 6) 1 = disp % 256 ∧ fieldAt d (o + 7) 1 = flags ∧ fieldAt d (o + 8) 4 = reqId % 2 ^ 32 ∧
    fieldAt d (o + 12) 2 = stream % 65536 ∧ fieldAt d (o + 14) 2 = err % 65536
  let key := fun (r : Req) => if r.u8 0 = 1 then r.u 4 8 else r.u32 4
  let hitE := fun (r : Req) (e : LEntry) => e.stream = r.u16 2 ∧ (if r.u8 0 = 1 then e.lsn else e.req.reqId) = key r
  let hitD := fun (r : Req) (d : DupRec) => d.stream = r.u16 2 ∧ (if r.u8 0 = 1 then d.lsn else d.reqId) = key r ∧ d.disp ≠ 0
  (∀ s r, Ready specLedgerStatus s r → Completes (exec (.ledgerStatus r) s) (fun t => s.Told r t (fun d => d.length = 52 ∧
    wordAt d 0 = s.reg (s.server r) R.LEDG_STATUS ∧ fieldAt d 4 8 = s.led.nextLsn % 2 ^ 64 ∧
    wordAt d 12 = s.reg (s.server r) R.LEDG_FREE ∧ wordAt d 16 = s.reg (s.server r) R.LEDG_DEDUP ∧
    ∀ k < 8, wordAt d (20 + 4 * k) = s.reg (s.server r) (R.LEDG_CNT k)))) ∧
  (∀ s r, Ready specLedgerConfig s r → Completes (exec (.ledgerConfig r) s) (fun t => s.Stages t ∧
    ∀ w ∈ [((R.LEDG_CFG, BitVec.ofNat 32 (r.u16 0 + 2 ^ 16 * (r.u16 2 - 1))) : RegCell),
      (R.LEDG_NODL, BitVec.ofNat 32 (r.u32 4 - 1 + 2 ^ 31 * r.u8 8))],
      t.CarriesAt (s.holderOr .E) 4 0 s.led.nextLsn w ∧ t.Pends (s.holderOr .E).other 4 0 w)) ∧
  (∀ s r, Ready specLedgerQuota s r → Completes (exec (.ledgerQuota r) s) (fun t => s.Stages t ∧
    let w : RegCell := (R.LEDG_QUOTA (r.u16 0), BitVec.ofNat 32 (r.u16 2))
    t.CarriesAt (s.holderOr .E) 4 0 s.led.nextLsn w ∧ t.Pends (s.holderOr .E).other 4 0 w)) ∧
  (∀ s r, Ready specLedgerQuery s r → Completes (exec (.ledgerQuery r) s) (fun t => s.Told r t (fun d => d.length = 20 ∧
    (∀ e ∈ s.led.entries, hitE r e → (∀ x ∈ s.led.entries, hitE r x → x = e) →
      fieldAt d 0 4 = (if e.st = .accepted then 1 else if e.st = .executing then 2 else if e.st = .disposed then 3 else 4) ∧
      (if e.st = .disposed ∨ e.st = .reported
        then told d 4 e.lsn e.disp (b2n e.recovered + 2 * b2n e.unclaimed) e.req.reqId e.stream e.err else allZero (d.drop 4) = true)) ∧
    ((∀ x ∈ s.led.entries, ¬ hitE r x) → ∀ k ∈ s.liveDups, hitD r k → (∀ x ∈ s.liveDups, hitD r x → x = k) →
      fieldAt d 0 4 = 4 ∧ told d 4 k.lsn k.disp 4 k.reqId k.stream 0) ∧
    ((∀ x ∈ s.led.entries, ¬ hitE r x) → (∀ x ∈ s.liveDups, ¬ hitD r x) → allZero d = true)))) ∧
  (∀ s r, Ready specLedgerRecovered s r → Completes (exec (.ledgerRecovered r) s) (fun t =>
    let xs := (s.led.entries.filter (fun e => e.st == .disposed && e.unclaimed)).take 2
    (∀ e ∈ xs, ∃ x ∈ t.entry e.lsn, x = { e with st := .reported }) ∧ t.Ends s.led.nextLsn dDONE 0 ∧ s.FarBut [] t ∧
    ((∀ e ∈ s.led.entries, e.stream ≠ s.streamOf r.lane r.src) → Answered s r SCS_OK s.led.nextLsn
      (leBytes 4 xs.length ++ (xs.map (fun e => leBytes 6 e.lsn ++ leBytes 1 e.disp ++
        leBytes 1 (b2n e.recovered + 2 * b2n e.unclaimed) ++ leBytes 4 e.req.reqId ++ leBytes 2 e.stream ++ leBytes 2 e.err)).flatten) t)))

/-- R185, over every command: each command's arm runs `runScs` of its table row. -/
def Obligations.DuplicateRequests : Prop :=
  (∀ s r c, s.Inv → r.src.wf = true → c.accepted = true → s.deaf = false → r.isStartup = false → waits c s r = false →
    checksA c (taken s r).1 (taken s r).2 = none → ∀ d ∈ s.dupOf r,
      let crc := (Config.crc16 (leBytes 2 c.opcode ++ leBytes 2 r.target ++ r.payload)).toNat
      (d.crc = crc → Completes (runScs c r s) (fun t => t.led = s.led ∧ s.RegsAside t ∧ s.Served t ∧
        (∀ l, s.Counts t l (R.LEDG_CNT 7)) ∧
        Answered s r SCS_E_DUPLICATE d.lsn (leBytes 2 d.status ++ leBytes 1 d.disp ++ [0]) t)) ∧
      (d.crc ≠ crc → Completes (runScs c r s) (fun t => t.led = s.led ∧ s.RegsAside t ∧ s.Served t ∧
        Answered s r SCS_E_PARAM 0 [] t))) ∧
  (∀ s op r, s.Inv → r.src.wf = true → ∀ c ∈ specOf op, c.accepted = true → exec (.ledgerAccept op r) s = runScs c r s)

/-- Table 6.2, R182 to R199, R224. -/
def Obligations.LedgerEngine : Prop :=
  let shown := fun (t : State) => ∀ l, t.fld l R.LEDG_FREE F.LEDG_FREE_FREE = (32768 - t.led.entries.length) % 65536 ∧
    t.fld l R.LEDG_STATUS F.LEDG_STATUS_IN_FLIGHT = (t.led.entries.filter (fun e => e.st != .reported)).length % 65536
  let rec_ := fun (e : LEntry) => leBytes 6 e.lsn ++ leBytes 1 e.disp ++ leBytes 1 (b2n e.recovered + 2 * b2n e.unclaimed) ++
    leBytes 4 e.req.reqId ++ leBytes 2 e.stream ++ leBytes 2 e.err
  (∀ s n, s.Inv →
    (s.entry n = none → exec (.entryStart n) s = .next s) ∧
    (∀ e ∈ s.entry n, let turn := e.st = .accepted ∧ s.lowerBegun e.stream n = true ∧ s.engineRuns = true
      let late := ∃ d ∈ e.deadline, d < s.now
      (¬ turn → exec (.entryStart n) s = .next s) ∧
      (turn → late → Completes (exec (.entryStart n) s) (fun t => s.Disposes t n dEXPIRED 0 ∧ s.FarBut [] t)) ∧
      (turn → ¬ late → (∃ q, e.req.src = .queue q) → fieldAt e.req.payload 4 4 = 0 →
        Completes (exec (.entryStart n) s) (fun t => s.Disposes t n dDONE 0 ∧ s.FarBut [] t)) ∧
      (turn → ¬ late → e.req.isQueue = false → ∀ c ∈ specOf e.opcode,
        (c.reachOk s e.req = false → Completes (exec (.entryStart n) s) (fun t => s.FarBut [] t ∧ s.Disposes t n dUNDELIVERABLE
          (if 11 ≤ blockOf e.opcode ∧ blockOf e.opcode ≤ 17 ∧ s.cmnRuns = true then 0x10 else 0x11))) ∧
        (c.reachOk s e.req = true → (c.world s e.req).isSome = true → Completes (exec (.entryStart n) s) (fun t =>
          s.Disposes t n dFAILED 0x0B01 ∧ s.FarBut [] t)) ∧
        (c.reachOk s e.req = true → c.world s e.req = none → exec (.entryStart n) s = .next
          (c.exec (s.mapEntry n (fun x => { x with st := .executing })) e.req n).syncLedg)))) ∧
  (∀ s n disp err, s.Inv →
    (¬ (1 ≤ disp ∧ disp ≤ 4) → exec (.entryDisposed n disp err) s = .next s) ∧
    (1 ≤ disp → disp ≤ 4 → Completes (exec (.entryDisposed n disp err) s) (fun t => s.Disposes t n disp err ∧ s.FarBut [] t ∧ s.Ended t ∧
      ∀ e ∈ s.entry n, e.live = false → t.entry n = some e))) ∧
  (∀ s n, s.Inv →
    (s.entry n = none → exec (.completionReport n) s = .next s) ∧
    (∀ e ∈ s.entry n, let may := ∃ h ∈ s.holder, s.leaseValid h = true ∧ (s.lane h).warned = false
      let due := e.st = .disposed ∧ e.unclaimed = false ∧ s.lowerReported e = true ∧ s.streamOpen e.stream = true ∧
        s.engineRuns = true ∧ may
      (¬ due → exec (.completionReport n) s = .next s) ∧
      (due → e.stream / 0x4000 = 3 → Completes (exec (.completionReport n) s) (fun t =>
        t.entry n = some { e with st := .reported } ∧ OutMsg.scsCpl (e.stream % 256) (rec_ e) ∈ t.outbox ∧ shown t)) ∧
      (due → (e.stream / 0x4000 = 0 ∨ e.stream / 0x4000 = 2) → ∀ l, s.reportLanes e.stream = [l] →
        let mb := if e.stream / 0x4000 = 2 then 64 else e.stream % 64
        let tail := s.fld l (R.SCSM_MB_CPL_TAIL mb) F.SCSM_MB_CPL_TAIL_TAIL
        let cnt := s.fld l (R.SCSM_MB_STATUS mb) F.SCSM_MB_STATUS_CPL_COUNT
        (64 ≤ cnt → exec (.completionReport n) s = .next s) ∧
        (cnt < 64 → Completes (exec (.completionReport n) s) (fun t => t.entry n = some { e with st := .reported } ∧ shown t ∧
          (∀ i < 4, t.reg l (R.SCSM_MB_CPL mb tail i) = wordAt (rec_ e) (4 * i)) ∧ s.RegsAside t ∧
          t.fld l (R.SCSM_MB_CPL_TAIL mb) F.SCSM_MB_CPL_TAIL_TAIL = (tail + 1) % 64 ∧
          t.fld l (R.SCSM_MB_STATUS mb) F.SCSM_MB_STATUS_CPL_COUNT = cnt + 1))) ∧
      (due → e.stream / 0x4000 = 1 →
        (s.iovReportable e = false → exec (.completionReport n) s = .next s) ∧
        (s.iovReportable e = true → Completes (exec (.completionReport n) s) (fun t => t.entry n = some { e with st := .reported }))))) ∧
  (∀ s n, s.Inv →
    ((∀ e ∈ s.entry n, e.st ≠ .reported) → exec (.entryFree n) s = .next s) ∧
    (∀ e ∈ s.entry n, e.st = .reported → Completes (exec (.entryFree n) s) (fun t => t.entry n = none ∧ shown t ∧ s.RegsAside t ∧
      t.led = { s.led with entries := s.led.entries.filter (fun x => x.lsn != n) } ∧
      ∀ l, t.fld l (R.LEDG_QUSED (e.quota % 256)) F.LEDG_QUSED_USED =
        (t.led.entries.filter (fun x => x.st != .reported && x.quota == e.quota)).length % 2 ^ 14))) ∧
  (∀ s, s.Inv → Completes (exec .dedupExpiry s) (fun t => s.RegsAside t ∧ shown t ∧ t.led = { s.led with
    dups := s.led.dups.filter (fun d => s.now < d.acc + (s.fld .E R.LEDG_CFG F.LEDG_CFG_DEDUP_S_M1 + 1) * 1000000) } ∧
    ∀ l, t.fld l R.LEDG_DEDUP F.LEDG_DEDUP_FILL = t.led.dups.length % 2 ^ 17)) ∧
  (∀ s lost at_, s.Inv →
    (s.holder = none → exec (.ledgerRebuild lost at_) s = .next s) ∧
    (s.holder.isSome = true → Completes (exec (.ledgerRebuild lost at_) s) (fun t => s.RegsAside t ∧ shown t ∧
      t.led = { s.led with entries := s.led.entries.map (fun e => if e.st = .disposed then { e with recovered := true } else e),
                           recovering := false, replayDue := true, rebuiltAt := s.now, lossAt := at_, rtcLost := lost } ∧
      (∀ l, t.bit l R.LEDG_STATUS F.LEDG_STATUS_RECOVERING = false ∧ (∀ n < 32, t.reg l (R.SCSM_RS_STATUS n) = 0) ∧
        (lost = true → t.bit l R.LEDG_STATUS F.LEDG_STATUS_RTC_LOST = true))))) ∧
  (∀ (s : State), s.Inv → s.led.replayDue = true → s.quiesces = [] → s.grants = [] →
    let t := s.replay
    t.led.replayDue = false ∧
    (∀ e ∈ s.led.entries, e.st = .executing → s.Disposes t e.lsn dFAILED 1) ∧
    (∀ e ∈ s.led.entries, e.st = .accepted → s.led.rtcLost = true → s.Disposes t e.lsn dEXPIRED 0) ∧
    (∀ e ∈ s.led.entries, e.st = .accepted → s.led.rtcLost = false →
      let due := if e.req.flags.testBit 1 = true ∨ 44 < e.req.payload.length then some s.led.lossAt
        else if e.deadline.isSome = true then e.deadline
        else if s.bit .E R.LEDG_NODL F.LEDG_NODL_NODL_UNLIMITED = true then none
        else some (e.acc + (s.fld .E R.LEDG_NODL F.LEDG_NODL_NODL_MS_M1 + 1) * 1000)
      t.entry e.lsn = some { e with deadline := due })) ∧
  (∀ s n, s.Inv →
    ((∀ e ∈ s.entry n, ¬ (e.st = .disposed ∧ s.streamOpen e.stream = false)) → exec (.unclaimedTimeout n) s = .next s) ∧
    (∀ e ∈ s.entry n, e.st = .disposed → s.streamOpen e.stream = false → Completes (exec (.unclaimedTimeout n) s) (fun t =>
      t.entry n = some { e with unclaimed := true } ∧ (∀ m, m ≠ n → t.entry m = s.entry m) ∧ t.regs = s.regs ∧
      t = { s with led := t.led }))) ∧
  (∀ s r, s.Inv → r.src.wf = true →
    let due := r.flags.testBit 0 = true ∧ s.deaf = false ∧ s.answering = true ∧ (s.servedBy r.lane).isSome = true ∧
      ∀ x ∈ s.scs.inbox, x.req = r → ∀ c ∈ specOf x.opcode, c.accepted = false
    (r.flags.testBit 0 = false ∨ s.deaf = true ∨ s.answering = false → exec (.queryDeadlineExpiry r) s = .next s) ∧
    (due → Completes (exec (.queryDeadlineExpiry r) s) (fun t => s.RegsAside t ∧ s.Served t ∧ t.led = s.led ∧
      Answered s r SCS_E_TIMEOUT 0 [] t)))

/-- R7, Table 0.4, R17, R31, R36; RSTC_WDT_CFGn, FERRY_IMAGE_MAX, TIDE_MAXDLY. -/
def Obligations.RegisterWrites : Prop :=
  let plain := fun (s : State) (l : Lane) (who : Initiator) (a : Nat) (v : Word) =>
    pageWrite l who a v s = none ∧ rowWrite l who a v s = none
  let own := [R.FERRY_IMAGE_MAX, R.TIDE_MAXDLY, R.FCH_WAKE_STAT 0, R.FCH_WAKE_STAT 1] ++ (List.range 6).map R.RSTC_WDT_CFG ++
    (List.range 6).map (fun f => R.SUPC_FEED_STAT (f + 1)) ++ (List.range 6).map (fun f => R.SUPC_FEED_MIN (f + 1))
  (∀ s l who a v, s.Inv → plain s l who a v → regSpace a = false ∨ s.mayReg l who a = false ∨ s.regAnswers l a = false →
    Completes (exec (.regWrite l who a v) s) s.Denied) ∧
  (∀ s l who a v, s.Inv → plain s l who a v → regSpace a = true → s.mayReg l who a = true → s.regAnswers l a = true →
    ∀ n ∈ s.foreign l who a, s.fld l (R.LHS_EVT_CFG 7) F.LHS_EVT_CFG_RESP ≤ 1 → (s.sec l).pol < 16 →
    Completes (exec (.regWrite l who a v) s) (fun t => t.bus = .ok 0 ∧ t.reg l a = s.reg l a ∧ t.shadow l a = s.shadow l a ∧
      ∀ f < 64, who = .func f → t.reg l (R.LHS_POL (s.sec l).pol 0) = BitVec.ofNat 32 (4 + 256 * (n % 256) + 65536 * f))) ∧
  (∀ s l who a v, s.Inv → plain s l who a v → regSpace a = true → s.mayReg l who a = true → s.regAnswers l a = true →
    s.foreign l who a = none → a ∉ own → (a < R.CAN_FLTRAM 0 0 ∨ R.CAN_FLTRAM 8192 0 ≤ a) →
    Completes (exec (.regWrite l who a v) s) (fun t => t.bus = .ok 0 ∧
      (∀ i < 32, (t.reg l a).getLsbD i = (if (w1cMask a).getLsbD i = true ∧ v.getLsbD i = true then false
        else if (rwMask a).getLsbD i = true then v.getLsbD i else (s.reg l a).getLsbD i)) ∧
      (∀ i < 32, (t.shadow l a).getLsbD i = if (rwsMask a).getLsbD i = true then v.getLsbD i else (s.shadow l a).getLsbD i) ∧
      s.RegsBut [regKey l.ix a, shadowKey l.ix a] t ∧
      t = { s with regs := t.regs, bus := t.bus, cvcE := t.cvcE, cvcW := t.cvcW } ∧
      ((a < R.CVC_KN_CFG 0 ∨ R.CVC_KN_CFG 16 ≤ a) → t.cvcE = s.cvcE ∧ t.cvcW = s.cvcW) ∧
      ∀ n < (s.cvc l).nodeSec.length, n < 16 → a = R.CVC_KN_CFG n → (t.cvc l).nodeSec[n]? = some (who.world == .secure))) ∧
  (∀ s l n v, s.Inv → n ≤ 5 → s.regAnswers l (R.RSTC_WDT_CFG n) = true → Completes (exec (.regWrite l .elder (R.RSTC_WDT_CFG n) v) s) (fun t =>
    let on := s.bit l (R.RSTC_WDT_CFG n) F.RSTC_WDT_CFG_EN
    t.bus = .ok 0 ∧ t.bit l (R.RSTC_WDT_CFG n) F.RSTC_WDT_CFG_EN = (on || v.toNat.testBit 0) ∧
    t.fld l (R.RSTC_WDT_CFG n) F.RSTC_WDT_CFG_PERIOD_M1 = getF v F.RSTC_WDT_CFG_PERIOD_M1 ∧
    (on = false → v.toNat.testBit 0 = true →
      t.fld l (R.RSTC_WDT_CNT n) F.RSTC_WDT_CNT_REMAIN = min (getF v F.RSTC_WDT_CFG_PERIOD_M1 + 1) 65535) ∧
    (on = true ∨ v.toNat.testBit 0 = false → t.reg l (R.RSTC_WDT_CNT n) = s.reg l (R.RSTC_WDT_CNT n)) ∧
    s.OnlyRegs [regKey l.ix (R.RSTC_WDT_CFG n), regKey l.ix (R.RSTC_WDT_CNT n)] { t with bus := s.bus })) ∧
  (∀ s l v, s.Inv → v.toNat.testBit 31 = true → ∀ x ∈ [(R.FERRY_IMAGE_MAX, F.FERRY_IMAGE_MAX_MAX_BYTES), (R.TIDE_MAXDLY, F.TIDE_MAXDLY_MAX_TICKS)],
    s.regAnswers l x.1 = true → Completes (exec (.regWrite l .elder x.1 v) s) (fun t => t.bus = .ok 0 ∧ t.fld l x.1 x.2 = 0 ∧
      s.OnlyRegs [regKey l.ix x.1] { t with bus := s.bus })) ∧
  (∀ s l v f, s.Inv → 1 ≤ f → f ≤ 6 → v.toNat.testBit 31 = true → s.regAnswers l (R.SUPC_FEED_MIN f) = true →
    Completes (exec (.regWrite l .elder (R.SUPC_FEED_MIN f) v) s) (fun t => t.bus = .ok 0 ∧
      t.dieFld (R.SUPC_FEED_MIN f) F.SUPC_FEED_MIN_VMIN = 0x7FFF ∧ t.fld l (R.SUPC_FEED_MIN f) F.SUPC_FEED_MIN_VMIN = 0x7FFF))

/-- The register's own rows: R7 with each block's chapter. -/
def Obligations.RegistersWithRows : Prop :=
  (∀ s l who v n, n < 65 →
    exec (.regWrite l who (R.SCSM_MB_DOORBELL n) v) s = exec (.doorbell l who n (v.toNat % 8)) s ∧
    exec (.regWrite l who (R.SCSM_MB_RESP_ACK n) v) s = exec (.respAck l who n (v.toNat % 256)) s ∧
    exec (.regWrite l who (R.SCSM_MB_CPL_HEAD n) v) s = exec (.cplHeadWrite l who n (v.toNat % 64)) s) ∧
  (∀ s l who v n k i, n < 65 → k < 8 → i < 16 →
    exec (.regWrite l who (R.SCSM_MB_REQ n k i) v) s = exec (.reqSlotWrite l who n k (4 * i) v) s) ∧
  (∀ s l who v f i, f < 64 → i < 16 →
    exec (.regWrite l who (R.IOV_DB_SQ_TAIL f i) v) s = exec (.iovSqDoorbell l who f i v) s ∧
    exec (.regWrite l who (R.IOV_DB_CQ_HEAD f i) v) s = exec (.iovCqHeadWrite l who f i v) s) ∧
  (∀ s l who v,
    exec (.regWrite l who R.RSTC_BLKRST v) s = exec (.blkrstWrite l who v.toNat) s ∧
    exec (.regWrite l who R.RSTC_FORCE v) s = exec (.forceCdWrite l who v.toNat) s ∧
    exec (.regWrite l who R.RSTC_CMN v) s = exec (.rstcCmnRestart l who v) s ∧
    exec (.regWrite l who R.CVC_SEQ_SW v) s = exec (.seqSwStart l who (v.toNat % 65536)) s ∧
    exec (.regWrite l who R.CWY_ERR_HEAD v) s = exec (.cwErrHeadWrite l who (v.toNat % 64)) s ∧
    exec (.regWrite l who R.POT_UPD_ENTRY v) s = exec (.potUpdateGo l who v) s ∧
    exec (.regWrite l who R.LSTP_INJECT v) s = exec (.lstpInjectWrite l who v) s ∧
    exec (.regWrite l who R.LHS_PMREQ v) s = exec (.lhsPmreqWrite l who v) s) ∧
  (∀ s t l who v, (exec (.rstcReqCore l who v) s = .next t → exec (.regWrite l who R.RSTC_REQ v) s = exec (.rstcReqSys l who v) t) ∧
    ∀ u, exec (.ferryCtrlRequest l who v) s = .next t → exec (.ferryCtrlRelease l who v) t = .next u →
      exec (.regWrite l who R.FERRY_CTRL v) s = exec (.ferryCtrlResync l who v) u) ∧
  (∀ s l who v n, n < 16 → v.toNat.testBit 0 = true → exec (.regWrite l who (R.CAN_CTL n) v) s = exec (.canCtlRecover l who n) s) ∧
  (∀ s l who v n, n < 8 → v.toNat.testBit 0 = true → exec (.regWrite l who (R.LIN_CTL n) v) s = exec (.linCtlWake l who n) s) ∧
  (∀ s l who v n, n < 4 → exec (.regWrite l who (R.TIME_TB_OFS_HI n) v) s = exec (.servoSample l who n v) s ∧
    exec (.regWrite l who (R.TIME_TB_SET_SHI n) v) s = exec (.timeSetGo l who n v) s) ∧
  (∀ s l who v n, n < 64 → v.toNat.testBit 1 = true → exec (.regWrite l who (R.CWY_W_STAT n) v) s = exec (.fenceAckWrite l who n) s) ∧
  (∀ s l who v, v.toNat.testBit 0 = true →
    ∀ a ∈ [R.FERRY_COMMIT, R.LEDG_COMMIT, R.SCSM_COMMIT, R.SUPC_COMMIT, R.TIDE_COMMIT, R.CAN_COMMIT, R.LIN_COMMIT, R.ETHS_COMMIT, R.HARB_COMMIT,
      R.NMS_COMMIT, R.LSTP_COMMIT, R.LHS_COMMIT, R.UPD_COMMIT, R.PARI_COMMIT, R.TIME_COMMIT, R.CWY_COMMIT, R.IOV_COMMIT, R.CVC_COMMIT,
      R.CVC_SEL_COMMIT, R.PCH_COMMIT 0, R.PCH_COMMIT 1, R.GDR_COMMIT 0, R.GDR_COMMIT 1, R.FCH_COMMIT 0, R.FCH_COMMIT 1, R.FCH_COMMIT 2],
    exec (.regWrite l who a v) s = exec (.commitWrite l who a) s)

/-- R17 to R20, R44, R45, Table 1.7. -/
def Obligations.CommitCopies : Prop :=
  (∀ s l who a, commitRanges a = none ∨ s.mayReg l who a = false ∨ s.regAnswers l a = false →
    Completes (exec (.commitWrite l who a) s) s.Denied) ∧
  (∀ s l who a, s.Inv → s.mayReg l who a = true → s.regAnswers l a = true → ∀ x ∈ commitRanges a, x.1 ∉ [9, 10, 21] →
    Completes (exec (.commitWrite l who a) s) (fun t => t.bus = .ok 0 ∧ t = { s with commits := t.commits, nums := t.nums, bus := t.bus })) ∧
  (∀ (s : State) (l : Lane) (who : Initiator) (a : Nat) (b : Nat), s.Inv → s.mayReg l who a = true → s.regAnswers l a = true →
    ∀ x ∈ commitRanges a, x.1 ∉ [9, 10, 21] → (∃ p ∈ x.2, p.1 ≤ b ∧ b < p.2) → rwsMask b ≠ 0 → s.shadow l b ≠ s.reg l b →
    Completes (exec (.commitWrite l who a) s) (fun t => t.Pends l x.1 (copyRegion x.1 b) (b, s.shadow l b) ∧
      ∀ c ∈ t.commits, c.isAt x.1 (copyRegion x.1 b) l = true → c.carried = false → ∀ w ∈ c.writes, w.2 = s.shadow l w.1)) ∧
  (∀ s l b, s.tideRuns l = false ∨ b ∈ [2, 6, 7, 8, 12, 13, 14, 17] → exec (.commitApply l b) s = .next s) ∧
  (∀ (s : State) (l : Lane) (k : Commit) (n : Nat), s.Inv → s.tideRuns l = true → s.quiesces = [] → s.grants = [] →
    s.commits.filter (fun c => c.block == k.block && c.lane == l) = [k] → k.lsns = [n] → (∀ c ∈ s.commits, n ∈ c.lsns → c = k) →
    (k.block = 21 → k.region = 0) → (k.writes.map Prod.fst).Nodup → (∀ w ∈ k.writes, rwsMask w.1 ≠ 0) →
    ∀ x ∈ ([(3, chkFerry s k, R.FERRY_STATUS, F.FERRY_STATUS_CFG_INCONSISTENT), (4, chkLedg s k, R.LEDG_STATUS, F.LEDG_STATUS_CFG_INCONSISTENT),
      (5, chkScsm s k, R.SCSM_STATUS, F.SCSM_STATUS_CFG_INCONSISTENT), (15, chkHarb s k, R.HARB_STATUS, F.HARB_STATUS_CFG_INCONSISTENT),
      (20, s.pairOk l k.region (s.after k (R.LSTP_PAIR_CFG k.region)), R.LSTP_STATUS, F.LSTP_STATUS_CFG_INCONSISTENT),
      (21, chkLhs s k, R.LHS_STATUS, F.LHS_STATUS_CFG_INCONSISTENT), (23, chkPari s k, R.PARI_STATUS, F.PARI_STATUS_CFG_INCONSISTENT)] :
      List (Nat × Bool × Nat × Fld)), k.block = x.1 →
    Completes (exec (.commitApply l x.1) s) (fun t => k ∉ t.commits ∧
      (x.2.1 = true → s.Disposes t n dDONE 0 ∧ (∀ w ∈ k.writes, t.reg l w.1 = (s.reg l w.1 &&& ~~~(rwsMask w.1)) ||| (w.2 &&& rwsMask w.1)) ∧
        ∀ a, rwsMask a ≠ 0 → a ∉ k.writes.map Prod.fst → t.reg l a = s.reg l a) ∧
      (x.2.1 = false → s.Disposes t n dFAILED eCFG_REJECTED ∧ t.bit l x.2.2.1 x.2.2.2 = true ∧
        ∀ a, rwsMask a ≠ 0 → t.reg l a = s.reg l a)))
end

