-- ==== Sys2Proof/Laws/Memory.lean ====
section
/-! SUPPORT. The memory list: a read after a write, and that every operation keeps the canonical form. -/

namespace Sys2Proof.Machine

/-- Every key of the list lies above `k`. -/
def memAbove (k : Nat) (m : List Host.Cell) : Prop := ∀ c ∈ m, k < c.1

theorem memSorted_cons (c : Host.Cell) (m : List Host.Cell) :
    memSorted (c :: m) = true ↔ memAbove c.1 m ∧ memSorted m = true := by
  induction m generalizing c with
  | nil => simp [memSorted, memAbove]
  | cons d ds ih =>
    simp only [memSorted, Bool.and_eq_true, decide_eq_true_eq]
    constructor
    · rintro ⟨h, hs⟩
      refine ⟨?_, hs⟩
      intro e he
      rcases List.mem_cons.mp he with rfl | he
      · exact h
      · exact Nat.lt_trans h (((ih d).mp hs).1 e he)
    · rintro ⟨h, hs⟩
      exact ⟨h d (by simp), hs⟩

theorem memInsert_mem (m : List Host.Cell) (k : Nat) (v : Byte) :
    ∀ c ∈ memInsert m k v, c ∈ m ∨ c = (k, v) := by
  induction m with
  | nil => simp [memInsert]
  | cons d ds ih =>
    obtain ⟨kd, vd⟩ := d
    simp only [memInsert]
    intro c hc
    split at hc
    · rcases List.mem_cons.mp hc with rfl | hc
      · simp
      · simp [hc]
    · split at hc
      · rcases List.mem_cons.mp hc with rfl | hc
        · simp
        · simp [hc]
      · rcases List.mem_cons.mp hc with rfl | hc
        · simp
        · rcases ih c hc with h | h
          · simp [h]
          · simp [h]

theorem memSorted_insert (m : List Host.Cell) (k : Nat) (v : Byte) (h : memSorted m = true) :
    memSorted (memInsert m k v) = true := by
  induction m with
  | nil => rfl
  | cons d ds ih =>
    obtain ⟨kd, vd⟩ := d
    have hd := (memSorted_cons _ _).mp h
    simp only [memInsert]
    split
    · rename_i hk
      refine (memSorted_cons _ _).mpr ⟨?_, h⟩
      intro c hc
      rcases List.mem_cons.mp hc with rfl | hc
      · exact hk
      · exact Nat.lt_trans hk (hd.1 c hc)
    · split
      · rename_i hk hk'
        subst hk'
        exact (memSorted_cons _ _).mpr ⟨hd.1, hd.2⟩
      · rename_i h1 h2
        refine (memSorted_cons _ _).mpr ⟨?_, ih hd.2⟩
        intro c hc
        rcases memInsert_mem ds k v c hc with hc | rfl
        · exact hd.1 c hc
        · dsimp only
          omega

theorem memErase_subset (m : List Host.Cell) (k : Nat) : ∀ c ∈ memErase m k, c ∈ m := by
  induction m with
  | nil => simp [memErase]
  | cons d ds ih =>
    obtain ⟨kd, vd⟩ := d
    simp only [memErase]
    split
    · intro c hc; simp [hc]
    · intro c hc
      rcases List.mem_cons.mp hc with rfl | hc
      · simp
      · simp [ih c hc]

theorem memSorted_erase (m : List Host.Cell) (k : Nat) (h : memSorted m = true) :
    memSorted (memErase m k) = true := by
  induction m with
  | nil => rfl
  | cons d ds ih =>
    obtain ⟨kd, vd⟩ := d
    have hd := (memSorted_cons _ _).mp h
    simp only [memErase]
    split
    · exact hd.2
    · exact (memSorted_cons _ _).mpr ⟨fun c hc => hd.1 c (memErase_subset ds k c hc), ih hd.2⟩

theorem memSorted_filter (m : List Host.Cell) (f : Host.Cell → Bool) (h : memSorted m = true) :
    memSorted (m.filter f) = true := by
  induction m with
  | nil => rfl
  | cons d ds ih =>
    have hd := (memSorted_cons _ _).mp h
    rw [List.filter_cons]
    split
    · exact (memSorted_cons _ _).mpr ⟨fun c hc => hd.1 c (List.mem_filter.mp hc).1, ih hd.2⟩
    · exact ih hd.2

/-- A write keeps the canonical form. -/
theorem memPut_wf (m : List Host.Cell) (k : Nat) (v : Byte) (h : Memory.wf m = true) :
    Memory.wf (memPut m k v) = true := by
  simp only [Memory.wf, Bool.and_eq_true, List.all_eq_true, decide_eq_true_eq] at h ⊢
  unfold memPut
  split
  · exact ⟨memSorted_erase m k h.1, fun c hc => h.2 c (memErase_subset m k c hc)⟩
  · rename_i hv
    refine ⟨memSorted_insert m k v h.1, fun c hc => ?_⟩
    rcases memInsert_mem m k v c hc with hc | rfl
    · exact h.2 c hc
    · exact hv

theorem mem_filter_wf (m : List Host.Cell) (f : Host.Cell → Bool) (h : Memory.wf m = true) :
    Memory.wf (m.filter f) = true := by
  simp only [Memory.wf, Bool.and_eq_true, List.all_eq_true, decide_eq_true_eq] at h ⊢
  exact ⟨memSorted_filter m f h.1, fun c hc => h.2 c (List.mem_filter.mp hc).1⟩

theorem mem_foldl_wf {α : Type} (xs : List α) (k : α → Nat) (v : α → Byte) (m : List Host.Cell)
    (h : Memory.wf m = true) : Memory.wf (xs.foldl (fun x c => memPut x (k c) (v c)) m) = true := by
  induction xs generalizing m with
  | nil => exact h
  | cons x xs ih => exact ih _ (memPut_wf m (k x) (v x) h)

theorem memGet_above (m : List Host.Cell) (k : Nat) (h : memAbove k m) : memGet m k = memDefault := by
  induction m with
  | nil => rfl
  | cons d ds ih =>
    obtain ⟨kd, vd⟩ := d
    have hk := h (kd, vd) (by simp)
    simp only [memGet]
    rw [if_neg (by dsimp only at hk; omega)]
    exact ih (fun c hc => h c (by simp [hc]))

theorem memGet_insert (m : List Host.Cell) (k k' : Nat) (v : Byte) :
    memGet (memInsert m k v) k' = if k = k' then v else memGet m k' := by
  induction m with
  | nil => simp [memInsert, memGet]
  | cons d ds ih =>
    obtain ⟨kd, vd⟩ := d
    simp only [memInsert]
    split
    · simp [memGet]
    · split
      · rename_i h1 h2
        subst h2
        simp only [memGet]
        split
        · rfl
        · rfl
      · rename_i h1 h2
        simp only [memGet, ih]
        split
        · rename_i h3
          rw [if_neg (by omega)]
        · rfl

theorem memGet_erase (m : List Host.Cell) (k k' : Nat) (h : memSorted m = true) :
    memGet (memErase m k) k' = if k = k' then memDefault else memGet m k' := by
  induction m with
  | nil => simp [memErase, memGet]
  | cons d ds ih =>
    obtain ⟨kd, vd⟩ := d
    have hd := (memSorted_cons _ _).mp h
    simp only [memErase]
    split
    · rename_i h1
      subst h1
      simp only [memGet]
      split
      · rename_i h2
        subst h2
        exact memGet_above ds kd hd.1
      · rfl
    · rename_i h1
      simp only [memGet, ih hd.2]
      split
      · rename_i h3
        rw [if_neg (by omega)]
      · rfl

/-- A read after a write: the byte written at its key, else what was there. -/
theorem memGet_memPut (m : List Host.Cell) (k k' : Nat) (v : Byte) (h : Memory.wf m = true) :
    memGet (memPut m k v) k' = if k = k' then v else memGet m k' := by
  have hs : memSorted m = true := by
    simp only [Memory.wf, Bool.and_eq_true] at h
    exact h.1
  unfold memPut
  split
  · rename_i hv
    rw [memGet_erase m k k' hs]
    by_cases hk : k = k'
    · simp [hk, hv]
    · simp [hk]
  · rw [memGet_insert]

end Sys2Proof.Machine
end

