-- ==== Sys2Proof/Laws/RegFile.lean ====
section
/-! SUPPORT. The register file: a read after a write, and that every operation keeps the canonical form. -/

namespace Sys2Proof.Machine

/-- Every key of the list lies above `k`. -/
def cellsAbove (k : Nat) (cs : List RegCell) : Prop := ∀ c ∈ cs, k < c.1

theorem cellsSorted_cons (c : RegCell) (cs : List RegCell) :
    cellsSorted (c :: cs) = true ↔ cellsAbove c.1 cs ∧ cellsSorted cs = true := by
  induction cs generalizing c with
  | nil => simp [cellsSorted, cellsAbove]
  | cons d ds ih =>
    simp only [cellsSorted, Bool.and_eq_true, decide_eq_true_eq]
    constructor
    · rintro ⟨h, hs⟩
      refine ⟨?_, hs⟩
      intro e he
      rcases List.mem_cons.mp he with rfl | he
      · exact h
      · exact Nat.lt_trans h (((ih d).mp hs).1 e he)
    · rintro ⟨h, hs⟩
      exact ⟨h d (by simp), hs⟩

theorem cellsAbove_insert {k k' : Nat} {cs : List RegCell} (v : Word) (h : cellsAbove k cs) (hk : k < k') :
    cellsAbove k (cellsInsert cs k' v) := by
  induction cs with
  | nil => intro c hc; simp [cellsInsert] at hc; simp [hc, hk]
  | cons d ds ih =>
    have hd := h d (by simp)
    have hds : cellsAbove k ds := fun c hc => h c (by simp [hc])
    obtain ⟨kd, vd⟩ := d
    simp only [cellsInsert]
    split
    · intro c hc
      rcases List.mem_cons.mp hc with rfl | hc
      · exact hk
      · exact h c hc
    · split
      · intro c hc
        rcases List.mem_cons.mp hc with rfl | hc
        · exact hk
        · exact hds c hc
      · intro c hc
        rcases List.mem_cons.mp hc with rfl | hc
        · exact hd
        · exact ih hds c hc

theorem cellsSorted_insert (cs : List RegCell) (k : Nat) (v : Word) (h : cellsSorted cs = true) :
    cellsSorted (cellsInsert cs k v) = true := by
  induction cs with
  | nil => rfl
  | cons d ds ih =>
    obtain ⟨kd, vd⟩ := d
    have hd := (cellsSorted_cons _ _).mp h
    simp only [cellsInsert]
    split
    · rename_i hk
      refine (cellsSorted_cons _ _).mpr ⟨?_, h⟩
      intro c hc
      rcases List.mem_cons.mp hc with rfl | hc
      · exact hk
      · exact Nat.lt_trans hk (hd.1 c hc)
    · split
      · rename_i hk hk'
        refine (cellsSorted_cons _ _).mpr ⟨?_, hd.2⟩
        subst hk'
        exact hd.1
      · exact (cellsSorted_cons _ _).mpr ⟨cellsAbove_insert v hd.1 (by dsimp only; omega), ih hd.2⟩

theorem cellsErase_subset (cs : List RegCell) (k : Nat) : ∀ c ∈ cellsErase cs k, c ∈ cs := by
  induction cs with
  | nil => simp [cellsErase]
  | cons d ds ih =>
    obtain ⟨kd, vd⟩ := d
    simp only [cellsErase]
    split
    · intro c hc; simp [hc]
    · intro c hc
      rcases List.mem_cons.mp hc with rfl | hc
      · simp
      · simp [ih c hc]

theorem cellsSorted_erase (cs : List RegCell) (k : Nat) (h : cellsSorted cs = true) :
    cellsSorted (cellsErase cs k) = true := by
  induction cs with
  | nil => rfl
  | cons d ds ih =>
    obtain ⟨kd, vd⟩ := d
    have hd := (cellsSorted_cons _ _).mp h
    simp only [cellsErase]
    split
    · exact hd.2
    · exact (cellsSorted_cons _ _).mpr ⟨fun c hc => hd.1 c (cellsErase_subset ds k c hc), ih hd.2⟩

theorem cellsSorted_filter (cs : List RegCell) (f : RegCell → Bool) (h : cellsSorted cs = true) :
    cellsSorted (cs.filter f) = true := by
  induction cs with
  | nil => rfl
  | cons d ds ih =>
    have hd := (cellsSorted_cons _ _).mp h
    rw [List.filter_cons]
    split
    · exact (cellsSorted_cons _ _).mpr ⟨fun c hc => hd.1 c (List.mem_filter.mp hc).1, ih hd.2⟩
    · exact ih hd.2

theorem cellsInsert_mem (cs : List RegCell) (k : Nat) (v : Word) :
    ∀ c ∈ cellsInsert cs k v, c ∈ cs ∨ c = (k, v) := by
  induction cs with
  | nil => simp [cellsInsert]
  | cons d ds ih =>
    obtain ⟨kd, vd⟩ := d
    simp only [cellsInsert]
    intro c hc
    split at hc
    · rcases List.mem_cons.mp hc with rfl | hc
      · simp
      · simp [hc]
    · split at hc
      · rcases List.mem_cons.mp hc with rfl | hc
        · simp
        · simp [hc]
      · rcases List.mem_cons.mp hc with rfl | hc
        · simp
        · rcases ih c hc with h | h
          · simp [h]
          · simp [h]

/-- A write keeps the canonical form. -/
theorem rfPut_wf (rf : List RegCell) (k : Nat) (v : Word) (h : rfWf rf = true) : rfWf (rfPut rf k v) = true := by
  simp only [rfWf, Bool.and_eq_true, List.all_eq_true, decide_eq_true_eq] at h ⊢
  unfold rfPut
  split
  · exact ⟨cellsSorted_erase rf k h.1, fun c hc => h.2 c (cellsErase_subset rf k c hc)⟩
  · rename_i hv
    refine ⟨cellsSorted_insert rf k v h.1, fun c hc => ?_⟩
    rcases cellsInsert_mem rf k v c hc with hc | rfl
    · exact h.2 c hc
    · exact hv

theorem rf_filter_wf (rf : List RegCell) (f : RegCell → Bool) (h : rfWf rf = true) : rfWf (rf.filter f) = true := by
  simp only [rfWf, Bool.and_eq_true, List.all_eq_true, decide_eq_true_eq] at h ⊢
  exact ⟨cellsSorted_filter rf f h.1, fun c hc => h.2 c (List.mem_filter.mp hc).1⟩

/-- A reset of a key range keeps the canonical form. -/
theorem rfReset_wf (rf : List RegCell) (lo hi : Nat) (h : rfWf rf = true) : rfWf (rfReset rf lo hi) = true :=
  rf_filter_wf rf _ h

theorem rf_foldl_wf {α : Type} (xs : List α) (k : α → Nat) (v : α → Word) (rf : List RegCell) (h : rfWf rf = true) :
    rfWf (xs.foldl (fun rs c => rfPut rs (k c) (v c)) rf) = true := by
  induction xs generalizing rf with
  | nil => exact h
  | cons x xs ih => exact ih _ (rfPut_wf rf (k x) (v x) h)

theorem cellsGet_above (cs : List RegCell) (k : Nat) (h : cellsAbove k cs) : cellsGet cs k = none := by
  induction cs with
  | nil => rfl
  | cons d ds ih =>
    obtain ⟨kd, vd⟩ := d
    have hk := h (kd, vd) (by simp)
    simp only [cellsGet]
    rw [if_neg (by dsimp only at hk; omega)]
    exact ih (fun c hc => h c (by simp [hc]))

theorem cellsGet_filter (cs : List RegCell) (f : RegCell → Bool) (k : Nat) (h : ∀ c ∈ cs, c.1 = k → f c = true) :
    cellsGet (cs.filter f) k = cellsGet cs k := by
  induction cs with
  | nil => rfl
  | cons c cs ih =>
    have ih := ih (fun x hx => h x (List.mem_cons_of_mem _ hx))
    obtain ⟨a, v⟩ := c
    by_cases e : a = k
    · have := h (a, v) List.mem_cons_self e
      rw [List.filter_cons_of_pos this]
      simp only [cellsGet, e, if_true]
    · by_cases hf : f (a, v) = true
      · rw [List.filter_cons_of_pos hf]
        simp only [cellsGet, ih]
      · rw [List.filter_cons_of_neg hf, ih]
        simp only [cellsGet, e, if_false]

theorem cellsGet_insert (cs : List RegCell) (k k' : Nat) (v : Word) :
    cellsGet (cellsInsert cs k v) k' = if k = k' then some v else cellsGet cs k' := by
  induction cs with
  | nil => simp [cellsInsert, cellsGet]
  | cons d ds ih =>
    obtain ⟨kd, vd⟩ := d
    simp only [cellsInsert]
    split
    · simp [cellsGet]
    · split
      · rename_i h1 h2
        subst h2
        simp only [cellsGet]
        split
        · rfl
        · rfl
      · rename_i h1 h2
        simp only [cellsGet, ih]
        split
        · rename_i h3
          rw [if_neg (by omega)]
        · rfl

theorem cellsGet_erase (cs : List RegCell) (k k' : Nat) (h : cellsSorted cs = true) :
    cellsGet (cellsErase cs k) k' = if k = k' then none else cellsGet cs k' := by
  induction cs with
  | nil => simp [cellsErase, cellsGet]
  | cons d ds ih =>
    obtain ⟨kd, vd⟩ := d
    have hd := (cellsSorted_cons _ _).mp h
    simp only [cellsErase]
    split
    · rename_i h1
      subst h1
      simp only [cellsGet]
      split
      · rename_i h2
        subst h2
        exact cellsGet_above ds kd hd.1
      · rfl
    · rename_i h1
      simp only [cellsGet, ih hd.2]
      split
      · rename_i h3
        rw [if_neg (by omega)]
      · rfl

/-- A read after a write: the value written at its key, else what was there. -/
theorem rfGet_rfPut (rf : List RegCell) (k k' : Nat) (v : Word) (h : rfWf rf = true) :
    rfGet (rfPut rf k v) k' = if k = k' then v else rfGet rf k' := by
  have hs : cellsSorted rf = true := by
    simp only [rfWf, Bool.and_eq_true] at h
    exact h.1
  unfold rfGet rfPut
  split
  · rename_i hv
    rw [cellsGet_erase rf k k' hs]
    by_cases hk : k = k'
    · subst hk; simp [hv]
    · simp [hk]
  · rw [cellsGet_insert]
    by_cases hk : k = k'
    · simp [hk]
    · simp [hk]

/-- The same, without the canonical form, at another key. -/
theorem rfGet_rfPut_ne (rf : List RegCell) (k k' : Nat) (v : Word) (hk : k ≠ k') :
    rfGet (rfPut rf k v) k' = rfGet rf k' := by
  have he : cellsGet (cellsErase rf k) k' = cellsGet rf k' := by
    induction rf with
    | nil => rfl
    | cons d ds ih =>
      obtain ⟨kd, vd⟩ := d
      simp only [cellsErase]
      split
      · rename_i h1
        subst h1
        simp [cellsGet, hk]
      · simp only [cellsGet, ih]
  unfold rfGet rfPut
  split
  · rw [he]
  · rw [cellsGet_insert, if_neg hk]

/-- A write of another value than the reset value is read back, whatever the list. -/
theorem rfGet_rfPut_self_ne (rf : List RegCell) (k : Nat) (v : Word) (hv : v ≠ resetAt k) :
    rfGet (rfPut rf k v) k = v := by
  unfold rfGet rfPut
  rw [if_neg hv, cellsGet_insert]
  simp

/-- A range of keys at reset leaves every other key. -/
theorem rfGet_rfReset_ne (rf : List RegCell) (lo hi k : Nat) (h : k < lo ∨ hi ≤ k) : rfGet (rfReset rf lo hi) k = rfGet rf k := by
  unfold rfGet rfReset
  rw [cellsGet_filter]
  intro c _ e
  simp only [Bool.not_and, Bool.or_eq_true, Bool.not_eq_true', decide_eq_false_iff_not]
  omega

end Sys2Proof.Machine
end

