-- ==== Sys2Proof/Laws/Kept.lean ====
section
/-! SUPPORT. `Kept`: the invariant, the queue and the time, and the fields of the state that an operation may change. Each
further operation has its own lemma in the files Laws/Kept*.lean; a record update of a field that the invariant does not
speak of keeps it by `kept_mk`. -/

namespace Sys2Proof.Machine

/-- The fields numbered in `m` (bit `i` for field `i` of `State`) are among those numbered in `fx`. -/
def Sub (m fx : Nat) : Prop := ∀ i, m.testBit i = true → fx.testBit i = true

theorem Sub.refl (m : Nat) : Sub m m := fun _ h => h

theorem Sub.bit {m fx : Nat} (h : Sub m fx) (i : Nat) (hi : m.testBit i = true) : fx.testBit i = true := h i hi

theorem Sub.of {m k fx : Nat} (h : Sub k fx) (hm : Nat.land m k = m) : Sub m fx := by
  intro i hi
  apply h
  have hk : (Nat.land m k).testBit i = (m.testBit i && k.testBit i) := Nat.testBit_and ..
  rw [hm, hi] at hk
  simpa using hk.symm

/-- `t` has every field of `s` but those numbered in `fx`. -/
structure State.Only (fx : Nat) (s t : State) : Prop where
  freeCtr : t.freeCtr = s.freeCtr ∨ fx.testBit 2 = true
  regs : t.regs = s.regs ∨ fx.testBit 3 = true
  mem : t.mem = s.mem ∨ fx.testBit 4 = true
  bus : t.bus = s.bus ∨ fx.testBit 5 = true
  irqs : t.irqs = s.irqs ∨ fx.testBit 6 = true
  outbox : t.outbox = s.outbox ∨ fx.testBit 7 = true
  led : t.led = s.led ∨ fx.testBit 8 = true
  commits : t.commits = s.commits ∨ fx.testBit 9 = true
  nums : t.nums = s.nums ∨ fx.testBit 10 = true
  p0 : t.p0 = s.p0 ∨ fx.testBit 11 = true
  p1 : t.p1 = s.p1 ∨ fx.testBit 12 = true
  f0 : t.f0 = s.f0 ∨ fx.testBit 13 = true
  f1 : t.f1 = s.f1 ∨ fx.testBit 14 = true
  fi : t.fi = s.fi ∨ fx.testBit 15 = true
  cmn : t.cmn = s.cmn ∨ fx.testBit 16 = true
  arb : t.arb = s.arb ∨ fx.testBit 17 = true
  ferry : t.ferry = s.ferry ∨ fx.testBit 18 = true
  laneE : t.laneE = s.laneE ∨ fx.testBit 19 = true
  laneW : t.laneW = s.laneW ∨ fx.testBit 20 = true
  sessions : t.sessions = s.sessions ∨ fx.testBit 21 = true
  scs : t.scs = s.scs ∨ fx.testBit 22 = true
  mod_ : t.mod_ = s.mod_ ∨ fx.testBit 23 = true
  urgents : t.urgents = s.urgents ∨ fx.testBit 24 = true
  outs : t.outs = s.outs ∨ fx.testBit 25 = true
  feeds : t.feeds = s.feeds ∨ fx.testBit 26 = true
  pw0 : t.pw0 = s.pw0 ∨ fx.testBit 27 = true
  pw1 : t.pw1 = s.pw1 ∨ fx.testBit 28 = true
  fcs : t.fcs = s.fcs ∨ fx.testBit 29 = true
  fd0 : t.fd0 = s.fd0 ∨ fx.testBit 30 = true
  fd1 : t.fd1 = s.fd1 ∨ fx.testBit 31 = true
  fd2 : t.fd2 = s.fd2 ∨ fx.testBit 32 = true
  stamps : t.stamps = s.stamps ∨ fx.testBit 33 = true
  tideE : t.tideE = s.tideE ∨ fx.testBit 34 = true
  tideW : t.tideW = s.tideW ∨ fx.testBit 35 = true
  tevArms : t.tevArms = s.tevArms ∨ fx.testBit 36 = true
  evtRecs : t.evtRecs = s.evtRecs ∨ fx.testBit 37 = true
  cvcE : t.cvcE = s.cvcE ∨ fx.testBit 38 = true
  cvcW : t.cvcW = s.cvcW ∨ fx.testBit 39 = true
  sels : t.sels = s.sels ∨ fx.testBit 40 = true
  pwmRecs : t.pwmRecs = s.pwmRecs ∨ fx.testBit 41 = true
  pwmWork : t.pwmWork = s.pwmWork ∨ fx.testBit 42 = true
  cmnRecs : t.cmnRecs = s.cmnRecs ∨ fx.testBit 43 = true
  canRxE : t.canRxE = s.canRxE ∨ fx.testBit 44 = true
  canRxW : t.canRxW = s.canRxW ∨ fx.testBit 45 = true
  canPorts : t.canPorts = s.canPorts ∨ fx.testBit 46 = true
  fltQ : t.fltQ = s.fltQ ∨ fx.testBit 47 = true
  canWork : t.canWork = s.canWork ∨ fx.testBit 48 = true
  canHeld : t.canHeld = s.canHeld ∨ fx.testBit 49 = true
  lins : t.lins = s.lins ∨ fx.testBit 50 = true
  linWork : t.linWork = s.linWork ∨ fx.testBit 51 = true
  tbs : t.tbs = s.tbs ∨ fx.testBit 52 = true
  eth : t.eth = s.eth ∨ fx.testBit 53 = true
  harbInE : t.harbInE = s.harbInE ∨ fx.testBit 54 = true
  harbInW : t.harbInW = s.harbInW ∨ fx.testBit 55 = true
  harbHeld : t.harbHeld = s.harbHeld ∨ fx.testBit 56 = true
  pduFails : t.pduFails = s.pduFails ∨ fx.testBit 57 = true
  harbE : t.harbE = s.harbE ∨ fx.testBit 58 = true
  harbW : t.harbW = s.harbW ∨ fx.testBit 59 = true
  cw : t.cw = s.cw ∨ fx.testBit 60 = true
  nms : t.nms = s.nms ∨ fx.testBit 61 = true
  grants : t.grants = s.grants ∨ fx.testBit 62 = true
  vfOps : t.vfOps = s.vfOps ∨ fx.testBit 63 = true
  quiesces : t.quiesces = s.quiesces ∨ fx.testBit 64 = true
  iovQs : t.iovQs = s.iovQs ∨ fx.testBit 65 = true
  potUpds : t.potUpds = s.potUpds ∨ fx.testBit 66 = true
  copies : t.copies = s.copies ∨ fx.testBit 67 = true
  lstepTests : t.lstepTests = s.lstepTests ∨ fx.testBit 68 = true
  tamperLog : t.tamperLog = s.tamperLog ∨ fx.testBit 69 = true
  secE : t.secE = s.secE ∨ fx.testBit 70 = true
  secW : t.secW = s.secW ∨ fx.testBit 71 = true
  keyOps : t.keyOps = s.keyOps ∨ fx.testBit 72 = true
  pmReqs : t.pmReqs = s.pmReqs ∨ fx.testBit 73 = true
  ownOps : t.ownOps = s.ownOps ∨ fx.testBit 74 = true
  fuseOps : t.fuseOps = s.fuseOps ∨ fx.testBit 75 = true
  upd : t.upd = s.upd ∨ fx.testBit 76 = true
  calUs : t.calUs = s.calUs ∨ fx.testBit 77 = true
  parE : t.parE = s.parE ∨ fx.testBit 78 = true
  parW : t.parW = s.parW ∨ fx.testBit 79 = true

theorem State.Only.refl (fx : Nat) (s : State) : State.Only fx s s :=
  ⟨.inl rfl, .inl rfl, .inl rfl, .inl rfl, .inl rfl, .inl rfl, .inl rfl, .inl rfl, .inl rfl, .inl rfl, .inl rfl,
    .inl rfl, .inl rfl, .inl rfl, .inl rfl, .inl rfl, .inl rfl, .inl rfl, .inl rfl, .inl rfl, .inl rfl, .inl rfl,
    .inl rfl, .inl rfl, .inl rfl, .inl rfl, .inl rfl, .inl rfl, .inl rfl, .inl rfl, .inl rfl, .inl rfl, .inl rfl,
    .inl rfl, .inl rfl, .inl rfl, .inl rfl, .inl rfl, .inl rfl, .inl rfl, .inl rfl, .inl rfl, .inl rfl, .inl rfl,
    .inl rfl, .inl rfl, .inl rfl, .inl rfl, .inl rfl, .inl rfl, .inl rfl, .inl rfl, .inl rfl, .inl rfl, .inl rfl,
    .inl rfl, .inl rfl, .inl rfl, .inl rfl, .inl rfl, .inl rfl, .inl rfl, .inl rfl, .inl rfl, .inl rfl, .inl rfl,
    .inl rfl, .inl rfl, .inl rfl, .inl rfl, .inl rfl, .inl rfl, .inl rfl, .inl rfl, .inl rfl, .inl rfl, .inl rfl,
    .inl rfl⟩

/-- A state to compare with, and the numbers of the fields in which another may differ from it. -/
structure Frame where
  fx : Nat
  base : State

/-- `s` has the invariant, and the queue, the time and every field of the base state but those numbered. -/
structure State.Kept (φ : Frame) (s : State) : Prop where
  pending : s.pending = φ.base.pending
  now : s.now = φ.base.now
  regs : rfWf s.regs = true
  mem : Memory.wf s.mem = true
  led : s.led.Fresh
  shape : s.Shaped
  only : State.Only φ.fx φ.base s

theorem State.Kept.inv {φ : Frame} {s : State} (h : s.Kept φ) : s.Inv := ⟨h.regs, h.mem, h.led, h.shape⟩

theorem State.Kept.refl {fx : Nat} {s : State} (h : s.Inv) : s.Kept ⟨fx, s⟩ :=
  ⟨rfl, rfl, h.regs, h.mem, h.led, h.shape, .refl fx s⟩

theorem State.Inv.setPending {s : State} {q : List Instr} (h : s.Inv) : State.Inv { s with pending := q } :=
  ⟨h.regs, h.mem, h.led, ⟨h.shape.outs, h.shape.feeds, h.shape.fcs, h.shape.sels, h.shape.canPorts, h.shape.canRxE,
    h.shape.canRxW, h.shape.lins, h.shape.tbs, h.shape.sessions⟩⟩

theorem State.Inv.setNow {s : State} {n : Nat} (h : s.Inv) : State.Inv { s with now := n } :=
  ⟨h.regs, h.mem, h.led, ⟨h.shape.outs, h.shape.feeds, h.shape.fcs, h.shape.sels, h.shape.canPorts, h.shape.canRxE,
    h.shape.canRxW, h.shape.lins, h.shape.tbs, h.shape.sessions⟩⟩

/-- Every field's number is below 80. -/
theorem Sub.all {m : Nat} (h : m < 2 ^ 80) : Sub m (2 ^ 80 - 1) := by
  intro i hi
  rw [Nat.testBit_two_pow_sub_one]
  simp only [decide_eq_true_eq]
  refine Nat.lt_of_not_le (fun hc => ?_)
  have hlt := Nat.testBit_lt_two_pow (i := i) (Nat.lt_of_lt_of_le h (Nat.pow_le_pow_right (by decide) hc))
  simp [hlt] at hi

/-- An outcome that goes on, if it does, in such a state. -/
def OutKept (φ : Frame) (o : Host.Outcome State Fault Refusal) : Prop :=
  ∀ t, o = .next t → t.Kept φ

/-- Every part of a command that changes the state leads from such a state to such a state. -/
structure CmdSpec.Kept (φ : Frame) (c : CmdSpec) : Prop where
  exec : ∀ s r lsn, s.Kept φ → (c.exec s r lsn).Kept φ
  effect : ∀ s r, s.Kept φ → (c.effect s r).Kept φ
  before : ∀ s r, s.Kept φ → (c.before s r).Kept φ
  onRefuse : ∀ s r st, s.Kept φ → (c.onRefuse s r st).Kept φ

theorem sameOr_swap {α : Sort u} {x y z : α} {b : Prop} (h : x = y ∨ b) : (x = z ∨ b) ↔ (y = z ∨ b) := by
  rcases h with rfl | h
  · rfl
  · simp [h]

theorem kept_mk {φ : Frame} {s : State} {x2} {x5} {x6} {x7} {x9} {x10} {x11} {x12} {x13} {x14} {x15} {x16} {x17} {x18}
    {x19} {x20} {x22} {x23} {x24} {x27} {x28} {x30} {x31} {x32} {x33} {x34} {x35} {x36} {x37} {x38} {x39} {x41} {x42}
    {x43} {x47} {x48} {x49} {x51} {x53} {x54} {x55} {x56} {x57} {x58} {x59} {x60} {x61} {x62} {x63} {x64} {x65} {x66}
    {x67} {x68} {x69} {x70} {x71} {x72} {x73} {x74} {x75} {x76} {x77} {x78} {x79} (h2 : x2 = s.freeCtr ∨ φ.fx.testBit
    2 = true) (h5 : x5 = s.bus ∨ φ.fx.testBit 5 = true) (h6 : x6 = s.irqs ∨ φ.fx.testBit 6 = true) (h7 : x7 = s.outbox
    ∨ φ.fx.testBit 7 = true) (h9 : x9 = s.commits ∨ φ.fx.testBit 9 = true) (h10 : x10 = s.nums ∨ φ.fx.testBit 10 =
    true) (h11 : x11 = s.p0 ∨ φ.fx.testBit 11 = true) (h12 : x12 = s.p1 ∨ φ.fx.testBit 12 = true) (h13 : x13 = s.f0 ∨
    φ.fx.testBit 13 = true) (h14 : x14 = s.f1 ∨ φ.fx.testBit 14 = true) (h15 : x15 = s.fi ∨ φ.fx.testBit 15 = true)
    (h16 : x16 = s.cmn ∨ φ.fx.testBit 16 = true) (h17 : x17 = s.arb ∨ φ.fx.testBit 17 = true) (h18 : x18 = s.ferry ∨
    φ.fx.testBit 18 = true) (h19 : x19 = s.laneE ∨ φ.fx.testBit 19 = true) (h20 : x20 = s.laneW ∨ φ.fx.testBit 20 =
    true) (h22 : x22 = s.scs ∨ φ.fx.testBit 22 = true) (h23 : x23 = s.mod_ ∨ φ.fx.testBit 23 = true) (h24 : x24 =
    s.urgents ∨ φ.fx.testBit 24 = true) (h27 : x27 = s.pw0 ∨ φ.fx.testBit 27 = true) (h28 : x28 = s.pw1 ∨ φ.fx.testBit
    28 = true) (h30 : x30 = s.fd0 ∨ φ.fx.testBit 30 = true) (h31 : x31 = s.fd1 ∨ φ.fx.testBit 31 = true) (h32 : x32 =
    s.fd2 ∨ φ.fx.testBit 32 = true) (h33 : x33 = s.stamps ∨ φ.fx.testBit 33 = true) (h34 : x34 = s.tideE ∨
    φ.fx.testBit 34 = true) (h35 : x35 = s.tideW ∨ φ.fx.testBit 35 = true) (h36 : x36 = s.tevArms ∨ φ.fx.testBit 36 =
    true) (h37 : x37 = s.evtRecs ∨ φ.fx.testBit 37 = true) (h38 : x38 = s.cvcE ∨ φ.fx.testBit 38 = true) (h39 : x39 =
    s.cvcW ∨ φ.fx.testBit 39 = true) (h41 : x41 = s.pwmRecs ∨ φ.fx.testBit 41 = true) (h42 : x42 = s.pwmWork ∨
    φ.fx.testBit 42 = true) (h43 : x43 = s.cmnRecs ∨ φ.fx.testBit 43 = true) (h47 : x47 = s.fltQ ∨ φ.fx.testBit 47 =
    true) (h48 : x48 = s.canWork ∨ φ.fx.testBit 48 = true) (h49 : x49 = s.canHeld ∨ φ.fx.testBit 49 = true) (h51 : x51
    = s.linWork ∨ φ.fx.testBit 51 = true) (h53 : x53 = s.eth ∨ φ.fx.testBit 53 = true) (h54 : x54 = s.harbInE ∨
    φ.fx.testBit 54 = true) (h55 : x55 = s.harbInW ∨ φ.fx.testBit 55 = true) (h56 : x56 = s.harbHeld ∨ φ.fx.testBit 56
    = true) (h57 : x57 = s.pduFails ∨ φ.fx.testBit 57 = true) (h58 : x58 = s.harbE ∨ φ.fx.testBit 58 = true) (h59 :
    x59 = s.harbW ∨ φ.fx.testBit 59 = true) (h60 : x60 = s.cw ∨ φ.fx.testBit 60 = true) (h61 : x61 = s.nms ∨
    φ.fx.testBit 61 = true) (h62 : x62 = s.grants ∨ φ.fx.testBit 62 = true) (h63 : x63 = s.vfOps ∨ φ.fx.testBit 63 =
    true) (h64 : x64 = s.quiesces ∨ φ.fx.testBit 64 = true) (h65 : x65 = s.iovQs ∨ φ.fx.testBit 65 = true) (h66 : x66
    = s.potUpds ∨ φ.fx.testBit 66 = true) (h67 : x67 = s.copies ∨ φ.fx.testBit 67 = true) (h68 : x68 = s.lstepTests ∨
    φ.fx.testBit 68 = true) (h69 : x69 = s.tamperLog ∨ φ.fx.testBit 69 = true) (h70 : x70 = s.secE ∨ φ.fx.testBit 70 =
    true) (h71 : x71 = s.secW ∨ φ.fx.testBit 71 = true) (h72 : x72 = s.keyOps ∨ φ.fx.testBit 72 = true) (h73 : x73 =
    s.pmReqs ∨ φ.fx.testBit 73 = true) (h74 : x74 = s.ownOps ∨ φ.fx.testBit 74 = true) (h75 : x75 = s.fuseOps ∨
    φ.fx.testBit 75 = true) (h76 : x76 = s.upd ∨ φ.fx.testBit 76 = true) (h77 : x77 = s.calUs ∨ φ.fx.testBit 77 =
    true) (h78 : x78 = s.parE ∨ φ.fx.testBit 78 = true) (h79 : x79 = s.parW ∨ φ.fx.testBit 79 = true) :
    State.Kept φ (State.mk s.pending s.now x2 s.regs s.mem x5 x6 x7 s.led x9 x10 x11 x12 x13 x14 x15 x16 x17 x18 x19
    x20 s.sessions x22 x23 x24 s.outs s.feeds x27 x28 s.fcs x30 x31 x32 x33 x34 x35 x36 x37 x38 x39 s.sels x41 x42 x43
    s.canRxE s.canRxW s.canPorts x47 x48 x49 s.lins x51 s.tbs x53 x54 x55 x56 x57 x58 x59 x60 x61 x62 x63 x64 x65 x66
    x67 x68 x69 x70 x71 x72 x73 x74 x75 x76 x77 x78 x79) ↔ s.Kept φ :=
  ⟨fun h => ⟨h.pending, h.now, h.regs, h.mem, h.led, ⟨h.shape.outs, h.shape.feeds, h.shape.fcs, h.shape.sels,
      h.shape.canPorts, h.shape.canRxE, h.shape.canRxW, h.shape.lins, h.shape.tbs, h.shape.sessions⟩,
      ⟨(sameOr_swap h2).mp h.only.freeCtr, h.only.regs, h.only.mem, (sameOr_swap h5).mp h.only.bus,
      (sameOr_swap h6).mp h.only.irqs, (sameOr_swap h7).mp h.only.outbox, h.only.led,
      (sameOr_swap h9).mp h.only.commits, (sameOr_swap h10).mp h.only.nums, (sameOr_swap h11).mp h.only.p0,
      (sameOr_swap h12).mp h.only.p1, (sameOr_swap h13).mp h.only.f0, (sameOr_swap h14).mp h.only.f1,
      (sameOr_swap h15).mp h.only.fi, (sameOr_swap h16).mp h.only.cmn, (sameOr_swap h17).mp h.only.arb,
      (sameOr_swap h18).mp h.only.ferry, (sameOr_swap h19).mp h.only.laneE, (sameOr_swap h20).mp h.only.laneW,
      h.only.sessions, (sameOr_swap h22).mp h.only.scs, (sameOr_swap h23).mp h.only.mod_,
      (sameOr_swap h24).mp h.only.urgents, h.only.outs, h.only.feeds, (sameOr_swap h27).mp h.only.pw0,
      (sameOr_swap h28).mp h.only.pw1, h.only.fcs, (sameOr_swap h30).mp h.only.fd0, (sameOr_swap h31).mp h.only.fd1,
      (sameOr_swap h32).mp h.only.fd2, (sameOr_swap h33).mp h.only.stamps, (sameOr_swap h34).mp h.only.tideE,
      (sameOr_swap h35).mp h.only.tideW, (sameOr_swap h36).mp h.only.tevArms, (sameOr_swap h37).mp h.only.evtRecs,
      (sameOr_swap h38).mp h.only.cvcE, (sameOr_swap h39).mp h.only.cvcW, h.only.sels,
      (sameOr_swap h41).mp h.only.pwmRecs, (sameOr_swap h42).mp h.only.pwmWork, (sameOr_swap h43).mp h.only.cmnRecs,
      h.only.canRxE, h.only.canRxW, h.only.canPorts, (sameOr_swap h47).mp h.only.fltQ,
      (sameOr_swap h48).mp h.only.canWork, (sameOr_swap h49).mp h.only.canHeld, h.only.lins,
      (sameOr_swap h51).mp h.only.linWork, h.only.tbs, (sameOr_swap h53).mp h.only.eth,
      (sameOr_swap h54).mp h.only.harbInE, (sameOr_swap h55).mp h.only.harbInW, (sameOr_swap h56).mp h.only.harbHeld,
      (sameOr_swap h57).mp h.only.pduFails, (sameOr_swap h58).mp h.only.harbE, (sameOr_swap h59).mp h.only.harbW,
      (sameOr_swap h60).mp h.only.cw, (sameOr_swap h61).mp h.only.nms, (sameOr_swap h62).mp h.only.grants,
      (sameOr_swap h63).mp h.only.vfOps, (sameOr_swap h64).mp h.only.quiesces, (sameOr_swap h65).mp h.only.iovQs,
      (sameOr_swap h66).mp h.only.potUpds, (sameOr_swap h67).mp h.only.copies, (sameOr_swap h68).mp h.only.lstepTests,
      (sameOr_swap h69).mp h.only.tamperLog, (sameOr_swap h70).mp h.only.secE, (sameOr_swap h71).mp h.only.secW,
      (sameOr_swap h72).mp h.only.keyOps, (sameOr_swap h73).mp h.only.pmReqs, (sameOr_swap h74).mp h.only.ownOps,
      (sameOr_swap h75).mp h.only.fuseOps, (sameOr_swap h76).mp h.only.upd, (sameOr_swap h77).mp h.only.calUs,
      (sameOr_swap h78).mp h.only.parE, (sameOr_swap h79).mp h.only.parW⟩⟩,
   fun h => ⟨h.pending, h.now, h.regs, h.mem, h.led, ⟨h.shape.outs, h.shape.feeds, h.shape.fcs, h.shape.sels,
      h.shape.canPorts, h.shape.canRxE, h.shape.canRxW, h.shape.lins, h.shape.tbs, h.shape.sessions⟩,
      ⟨(sameOr_swap h2).mpr h.only.freeCtr, h.only.regs, h.only.mem, (sameOr_swap h5).mpr h.only.bus,
      (sameOr_swap h6).mpr h.only.irqs, (sameOr_swap h7).mpr h.only.outbox, h.only.led,
      (sameOr_swap h9).mpr h.only.commits, (sameOr_swap h10).mpr h.only.nums, (sameOr_swap h11).mpr h.only.p0,
      (sameOr_swap h12).mpr h.only.p1, (sameOr_swap h13).mpr h.only.f0, (sameOr_swap h14).mpr h.only.f1,
      (sameOr_swap h15).mpr h.only.fi, (sameOr_swap h16).mpr h.only.cmn, (sameOr_swap h17).mpr h.only.arb,
      (sameOr_swap h18).mpr h.only.ferry, (sameOr_swap h19).mpr h.only.laneE, (sameOr_swap h20).mpr h.only.laneW,
      h.only.sessions, (sameOr_swap h22).mpr h.only.scs, (sameOr_swap h23).mpr h.only.mod_,
      (sameOr_swap h24).mpr h.only.urgents, h.only.outs, h.only.feeds, (sameOr_swap h27).mpr h.only.pw0,
      (sameOr_swap h28).mpr h.only.pw1, h.only.fcs, (sameOr_swap h30).mpr h.only.fd0,
      (sameOr_swap h31).mpr h.only.fd1, (sameOr_swap h32).mpr h.only.fd2, (sameOr_swap h33).mpr h.only.stamps,
      (sameOr_swap h34).mpr h.only.tideE, (sameOr_swap h35).mpr h.only.tideW, (sameOr_swap h36).mpr h.only.tevArms,
      (sameOr_swap h37).mpr h.only.evtRecs, (sameOr_swap h38).mpr h.only.cvcE, (sameOr_swap h39).mpr h.only.cvcW,
      h.only.sels, (sameOr_swap h41).mpr h.only.pwmRecs, (sameOr_swap h42).mpr h.only.pwmWork,
      (sameOr_swap h43).mpr h.only.cmnRecs, h.only.canRxE, h.only.canRxW, h.only.canPorts,
      (sameOr_swap h47).mpr h.only.fltQ, (sameOr_swap h48).mpr h.only.canWork, (sameOr_swap h49).mpr h.only.canHeld,
      h.only.lins, (sameOr_swap h51).mpr h.only.linWork, h.only.tbs, (sameOr_swap h53).mpr h.only.eth,
      (sameOr_swap h54).mpr h.only.harbInE, (sameOr_swap h55).mpr h.only.harbInW,
      (sameOr_swap h56).mpr h.only.harbHeld, (sameOr_swap h57).mpr h.only.pduFails,
      (sameOr_swap h58).mpr h.only.harbE, (sameOr_swap h59).mpr h.only.harbW, (sameOr_swap h60).mpr h.only.cw,
      (sameOr_swap h61).mpr h.only.nms, (sameOr_swap h62).mpr h.only.grants, (sameOr_swap h63).mpr h.only.vfOps,
      (sameOr_swap h64).mpr h.only.quiesces, (sameOr_swap h65).mpr h.only.iovQs, (sameOr_swap h66).mpr h.only.potUpds,
      (sameOr_swap h67).mpr h.only.copies, (sameOr_swap h68).mpr h.only.lstepTests,
      (sameOr_swap h69).mpr h.only.tamperLog, (sameOr_swap h70).mpr h.only.secE, (sameOr_swap h71).mpr h.only.secW,
      (sameOr_swap h72).mpr h.only.keyOps, (sameOr_swap h73).mpr h.only.pmReqs, (sameOr_swap h74).mpr h.only.ownOps,
      (sameOr_swap h75).mpr h.only.fuseOps, (sameOr_swap h76).mpr h.only.upd, (sameOr_swap h77).mpr h.only.calUs,
      (sameOr_swap h78).mpr h.only.parE, (sameOr_swap h79).mpr h.only.parW⟩⟩⟩

theorem kept_regs {φ : Frame} {s : State} {x : List RegCell} (h : s.Kept φ) (hb : φ.fx.testBit 3 = true) (hw : rfWf x
    = true) : State.Kept φ { s with regs := x } :=
  ⟨h.pending, h.now, hw, h.mem, h.led, ⟨h.shape.outs, h.shape.feeds, h.shape.fcs, h.shape.sels, h.shape.canPorts,
    h.shape.canRxE, h.shape.canRxW, h.shape.lins, h.shape.tbs, h.shape.sessions⟩, ⟨h.only.freeCtr, .inr hb,
    h.only.mem, h.only.bus, h.only.irqs, h.only.outbox, h.only.led, h.only.commits, h.only.nums, h.only.p0, h.only.p1,
    h.only.f0, h.only.f1, h.only.fi, h.only.cmn, h.only.arb, h.only.ferry, h.only.laneE, h.only.laneW,
    h.only.sessions, h.only.scs, h.only.mod_, h.only.urgents, h.only.outs, h.only.feeds, h.only.pw0, h.only.pw1,
    h.only.fcs, h.only.fd0, h.only.fd1, h.only.fd2, h.only.stamps, h.only.tideE, h.only.tideW, h.only.tevArms,
    h.only.evtRecs, h.only.cvcE, h.only.cvcW, h.only.sels, h.only.pwmRecs, h.only.pwmWork, h.only.cmnRecs,
    h.only.canRxE, h.only.canRxW, h.only.canPorts, h.only.fltQ, h.only.canWork, h.only.canHeld, h.only.lins,
    h.only.linWork, h.only.tbs, h.only.eth, h.only.harbInE, h.only.harbInW, h.only.harbHeld, h.only.pduFails,
    h.only.harbE, h.only.harbW, h.only.cw, h.only.nms, h.only.grants, h.only.vfOps, h.only.quiesces, h.only.iovQs,
    h.only.potUpds, h.only.copies, h.only.lstepTests, h.only.tamperLog, h.only.secE, h.only.secW, h.only.keyOps,
    h.only.pmReqs, h.only.ownOps, h.only.fuseOps, h.only.upd, h.only.calUs, h.only.parE, h.only.parW⟩⟩

theorem kept_mem {φ : Frame} {s : State} {x : List Host.Cell} (h : s.Kept φ) (hb : φ.fx.testBit 4 = true) (hw :
    Memory.wf x = true) : State.Kept φ { s with mem := x } :=
  ⟨h.pending, h.now, h.regs, hw, h.led, ⟨h.shape.outs, h.shape.feeds, h.shape.fcs, h.shape.sels, h.shape.canPorts,
    h.shape.canRxE, h.shape.canRxW, h.shape.lins, h.shape.tbs, h.shape.sessions⟩, ⟨h.only.freeCtr, h.only.regs,
    .inr hb, h.only.bus, h.only.irqs, h.only.outbox, h.only.led, h.only.commits, h.only.nums, h.only.p0, h.only.p1,
    h.only.f0, h.only.f1, h.only.fi, h.only.cmn, h.only.arb, h.only.ferry, h.only.laneE, h.only.laneW,
    h.only.sessions, h.only.scs, h.only.mod_, h.only.urgents, h.only.outs, h.only.feeds, h.only.pw0, h.only.pw1,
    h.only.fcs, h.only.fd0, h.only.fd1, h.only.fd2, h.only.stamps, h.only.tideE, h.only.tideW, h.only.tevArms,
    h.only.evtRecs, h.only.cvcE, h.only.cvcW, h.only.sels, h.only.pwmRecs, h.only.pwmWork, h.only.cmnRecs,
    h.only.canRxE, h.only.canRxW, h.only.canPorts, h.only.fltQ, h.only.canWork, h.only.canHeld, h.only.lins,
    h.only.linWork, h.only.tbs, h.only.eth, h.only.harbInE, h.only.harbInW, h.only.harbHeld, h.only.pduFails,
    h.only.harbE, h.only.harbW, h.only.cw, h.only.nms, h.only.grants, h.only.vfOps, h.only.quiesces, h.only.iovQs,
    h.only.potUpds, h.only.copies, h.only.lstepTests, h.only.tamperLog, h.only.secE, h.only.secW, h.only.keyOps,
    h.only.pmReqs, h.only.ownOps, h.only.fuseOps, h.only.upd, h.only.calUs, h.only.parE, h.only.parW⟩⟩

theorem kept_led {φ : Frame} {s : State} {x : Ledger} (h : s.Kept φ) (hb : φ.fx.testBit 8 = true) (hw : x.Fresh) :
    State.Kept φ { s with led := x } :=
  ⟨h.pending, h.now, h.regs, h.mem, hw, ⟨h.shape.outs, h.shape.feeds, h.shape.fcs, h.shape.sels, h.shape.canPorts,
    h.shape.canRxE, h.shape.canRxW, h.shape.lins, h.shape.tbs, h.shape.sessions⟩, ⟨h.only.freeCtr, h.only.regs,
    h.only.mem, h.only.bus, h.only.irqs, h.only.outbox, .inr hb, h.only.commits, h.only.nums, h.only.p0, h.only.p1,
    h.only.f0, h.only.f1, h.only.fi, h.only.cmn, h.only.arb, h.only.ferry, h.only.laneE, h.only.laneW,
    h.only.sessions, h.only.scs, h.only.mod_, h.only.urgents, h.only.outs, h.only.feeds, h.only.pw0, h.only.pw1,
    h.only.fcs, h.only.fd0, h.only.fd1, h.only.fd2, h.only.stamps, h.only.tideE, h.only.tideW, h.only.tevArms,
    h.only.evtRecs, h.only.cvcE, h.only.cvcW, h.only.sels, h.only.pwmRecs, h.only.pwmWork, h.only.cmnRecs,
    h.only.canRxE, h.only.canRxW, h.only.canPorts, h.only.fltQ, h.only.canWork, h.only.canHeld, h.only.lins,
    h.only.linWork, h.only.tbs, h.only.eth, h.only.harbInE, h.only.harbInW, h.only.harbHeld, h.only.pduFails,
    h.only.harbE, h.only.harbW, h.only.cw, h.only.nms, h.only.grants, h.only.vfOps, h.only.quiesces, h.only.iovQs,
    h.only.potUpds, h.only.copies, h.only.lstepTests, h.only.tamperLog, h.only.secE, h.only.secW, h.only.keyOps,
    h.only.pmReqs, h.only.ownOps, h.only.fuseOps, h.only.upd, h.only.calUs, h.only.parE, h.only.parW⟩⟩

theorem kept_outs {φ : Frame} {s : State} {x : List OutRt} (h : s.Kept φ) (hb : φ.fx.testBit 25 = true) (hw : x.length
    = 64) : State.Kept φ { s with outs := x } :=
  ⟨h.pending, h.now, h.regs, h.mem, h.led, ⟨hw, h.shape.feeds, h.shape.fcs, h.shape.sels, h.shape.canPorts,
    h.shape.canRxE, h.shape.canRxW, h.shape.lins, h.shape.tbs, h.shape.sessions⟩, ⟨h.only.freeCtr, h.only.regs,
    h.only.mem, h.only.bus, h.only.irqs, h.only.outbox, h.only.led, h.only.commits, h.only.nums, h.only.p0, h.only.p1,
    h.only.f0, h.only.f1, h.only.fi, h.only.cmn, h.only.arb, h.only.ferry, h.only.laneE, h.only.laneW,
    h.only.sessions, h.only.scs, h.only.mod_, h.only.urgents, .inr hb, h.only.feeds, h.only.pw0, h.only.pw1,
    h.only.fcs, h.only.fd0, h.only.fd1, h.only.fd2, h.only.stamps, h.only.tideE, h.only.tideW, h.only.tevArms,
    h.only.evtRecs, h.only.cvcE, h.only.cvcW, h.only.sels, h.only.pwmRecs, h.only.pwmWork, h.only.cmnRecs,
    h.only.canRxE, h.only.canRxW, h.only.canPorts, h.only.fltQ, h.only.canWork, h.only.canHeld, h.only.lins,
    h.only.linWork, h.only.tbs, h.only.eth, h.only.harbInE, h.only.harbInW, h.only.harbHeld, h.only.pduFails,
    h.only.harbE, h.only.harbW, h.only.cw, h.only.nms, h.only.grants, h.only.vfOps, h.only.quiesces, h.only.iovQs,
    h.only.potUpds, h.only.copies, h.only.lstepTests, h.only.tamperLog, h.only.secE, h.only.secW, h.only.keyOps,
    h.only.pmReqs, h.only.ownOps, h.only.fuseOps, h.only.upd, h.only.calUs, h.only.parE, h.only.parW⟩⟩

theorem kept_feeds {φ : Frame} {s : State} {x : List FeedRt} (h : s.Kept φ) (hb : φ.fx.testBit 26 = true) (hw :
    x.length = 6) : State.Kept φ { s with feeds := x } :=
  ⟨h.pending, h.now, h.regs, h.mem, h.led, ⟨h.shape.outs, hw, h.shape.fcs, h.shape.sels, h.shape.canPorts,
    h.shape.canRxE, h.shape.canRxW, h.shape.lins, h.shape.tbs, h.shape.sessions⟩, ⟨h.only.freeCtr, h.only.regs,
    h.only.mem, h.only.bus, h.only.irqs, h.only.outbox, h.only.led, h.only.commits, h.only.nums, h.only.p0, h.only.p1,
    h.only.f0, h.only.f1, h.only.fi, h.only.cmn, h.only.arb, h.only.ferry, h.only.laneE, h.only.laneW,
    h.only.sessions, h.only.scs, h.only.mod_, h.only.urgents, h.only.outs, .inr hb, h.only.pw0, h.only.pw1,
    h.only.fcs, h.only.fd0, h.only.fd1, h.only.fd2, h.only.stamps, h.only.tideE, h.only.tideW, h.only.tevArms,
    h.only.evtRecs, h.only.cvcE, h.only.cvcW, h.only.sels, h.only.pwmRecs, h.only.pwmWork, h.only.cmnRecs,
    h.only.canRxE, h.only.canRxW, h.only.canPorts, h.only.fltQ, h.only.canWork, h.only.canHeld, h.only.lins,
    h.only.linWork, h.only.tbs, h.only.eth, h.only.harbInE, h.only.harbInW, h.only.harbHeld, h.only.pduFails,
    h.only.harbE, h.only.harbW, h.only.cw, h.only.nms, h.only.grants, h.only.vfOps, h.only.quiesces, h.only.iovQs,
    h.only.potUpds, h.only.copies, h.only.lstepTests, h.only.tamperLog, h.only.secE, h.only.secW, h.only.keyOps,
    h.only.pmReqs, h.only.ownOps, h.only.fuseOps, h.only.upd, h.only.calUs, h.only.parE, h.only.parW⟩⟩

theorem kept_fcs {φ : Frame} {s : State} {x : List FcRt} (h : s.Kept φ) (hb : φ.fx.testBit 29 = true) (hw : x.length =
    256) : State.Kept φ { s with fcs := x } :=
  ⟨h.pending, h.now, h.regs, h.mem, h.led, ⟨h.shape.outs, h.shape.feeds, hw, h.shape.sels, h.shape.canPorts,
    h.shape.canRxE, h.shape.canRxW, h.shape.lins, h.shape.tbs, h.shape.sessions⟩, ⟨h.only.freeCtr, h.only.regs,
    h.only.mem, h.only.bus, h.only.irqs, h.only.outbox, h.only.led, h.only.commits, h.only.nums, h.only.p0, h.only.p1,
    h.only.f0, h.only.f1, h.only.fi, h.only.cmn, h.only.arb, h.only.ferry, h.only.laneE, h.only.laneW,
    h.only.sessions, h.only.scs, h.only.mod_, h.only.urgents, h.only.outs, h.only.feeds, h.only.pw0, h.only.pw1,
    .inr hb, h.only.fd0, h.only.fd1, h.only.fd2, h.only.stamps, h.only.tideE, h.only.tideW, h.only.tevArms,
    h.only.evtRecs, h.only.cvcE, h.only.cvcW, h.only.sels, h.only.pwmRecs, h.only.pwmWork, h.only.cmnRecs,
    h.only.canRxE, h.only.canRxW, h.only.canPorts, h.only.fltQ, h.only.canWork, h.only.canHeld, h.only.lins,
    h.only.linWork, h.only.tbs, h.only.eth, h.only.harbInE, h.only.harbInW, h.only.harbHeld, h.only.pduFails,
    h.only.harbE, h.only.harbW, h.only.cw, h.only.nms, h.only.grants, h.only.vfOps, h.only.quiesces, h.only.iovQs,
    h.only.potUpds, h.only.copies, h.only.lstepTests, h.only.tamperLog, h.only.secE, h.only.secW, h.only.keyOps,
    h.only.pmReqs, h.only.ownOps, h.only.fuseOps, h.only.upd, h.only.calUs, h.only.parE, h.only.parW⟩⟩

theorem kept_sels {φ : Frame} {s : State} {x : List SelRt} (h : s.Kept φ) (hb : φ.fx.testBit 40 = true) (hw : x.length
    = 12) : State.Kept φ { s with sels := x } :=
  ⟨h.pending, h.now, h.regs, h.mem, h.led, ⟨h.shape.outs, h.shape.feeds, h.shape.fcs, hw, h.shape.canPorts,
    h.shape.canRxE, h.shape.canRxW, h.shape.lins, h.shape.tbs, h.shape.sessions⟩, ⟨h.only.freeCtr, h.only.regs,
    h.only.mem, h.only.bus, h.only.irqs, h.only.outbox, h.only.led, h.only.commits, h.only.nums, h.only.p0, h.only.p1,
    h.only.f0, h.only.f1, h.only.fi, h.only.cmn, h.only.arb, h.only.ferry, h.only.laneE, h.only.laneW,
    h.only.sessions, h.only.scs, h.only.mod_, h.only.urgents, h.only.outs, h.only.feeds, h.only.pw0, h.only.pw1,
    h.only.fcs, h.only.fd0, h.only.fd1, h.only.fd2, h.only.stamps, h.only.tideE, h.only.tideW, h.only.tevArms,
    h.only.evtRecs, h.only.cvcE, h.only.cvcW, .inr hb, h.only.pwmRecs, h.only.pwmWork, h.only.cmnRecs, h.only.canRxE,
    h.only.canRxW, h.only.canPorts, h.only.fltQ, h.only.canWork, h.only.canHeld, h.only.lins, h.only.linWork,
    h.only.tbs, h.only.eth, h.only.harbInE, h.only.harbInW, h.only.harbHeld, h.only.pduFails, h.only.harbE,
    h.only.harbW, h.only.cw, h.only.nms, h.only.grants, h.only.vfOps, h.only.quiesces, h.only.iovQs, h.only.potUpds,
    h.only.copies, h.only.lstepTests, h.only.tamperLog, h.only.secE, h.only.secW, h.only.keyOps, h.only.pmReqs,
    h.only.ownOps, h.only.fuseOps, h.only.upd, h.only.calUs, h.only.parE, h.only.parW⟩⟩

theorem kept_canPorts {φ : Frame} {s : State} {x : List CanPort} (h : s.Kept φ) (hb : φ.fx.testBit 46 = true) (hw :
    x.length = 16) : State.Kept φ { s with canPorts := x } :=
  ⟨h.pending, h.now, h.regs, h.mem, h.led, ⟨h.shape.outs, h.shape.feeds, h.shape.fcs, h.shape.sels, hw,
    h.shape.canRxE, h.shape.canRxW, h.shape.lins, h.shape.tbs, h.shape.sessions⟩, ⟨h.only.freeCtr, h.only.regs,
    h.only.mem, h.only.bus, h.only.irqs, h.only.outbox, h.only.led, h.only.commits, h.only.nums, h.only.p0, h.only.p1,
    h.only.f0, h.only.f1, h.only.fi, h.only.cmn, h.only.arb, h.only.ferry, h.only.laneE, h.only.laneW,
    h.only.sessions, h.only.scs, h.only.mod_, h.only.urgents, h.only.outs, h.only.feeds, h.only.pw0, h.only.pw1,
    h.only.fcs, h.only.fd0, h.only.fd1, h.only.fd2, h.only.stamps, h.only.tideE, h.only.tideW, h.only.tevArms,
    h.only.evtRecs, h.only.cvcE, h.only.cvcW, h.only.sels, h.only.pwmRecs, h.only.pwmWork, h.only.cmnRecs,
    h.only.canRxE, h.only.canRxW, .inr hb, h.only.fltQ, h.only.canWork, h.only.canHeld, h.only.lins, h.only.linWork,
    h.only.tbs, h.only.eth, h.only.harbInE, h.only.harbInW, h.only.harbHeld, h.only.pduFails, h.only.harbE,
    h.only.harbW, h.only.cw, h.only.nms, h.only.grants, h.only.vfOps, h.only.quiesces, h.only.iovQs, h.only.potUpds,
    h.only.copies, h.only.lstepTests, h.only.tamperLog, h.only.secE, h.only.secW, h.only.keyOps, h.only.pmReqs,
    h.only.ownOps, h.only.fuseOps, h.only.upd, h.only.calUs, h.only.parE, h.only.parW⟩⟩

theorem kept_canRxE {φ : Frame} {s : State} {x : List CanRx} (h : s.Kept φ) (hb : φ.fx.testBit 44 = true) (hw :
    x.length = 16) : State.Kept φ { s with canRxE := x } :=
  ⟨h.pending, h.now, h.regs, h.mem, h.led, ⟨h.shape.outs, h.shape.feeds, h.shape.fcs, h.shape.sels, h.shape.canPorts,
    hw, h.shape.canRxW, h.shape.lins, h.shape.tbs, h.shape.sessions⟩, ⟨h.only.freeCtr, h.only.regs, h.only.mem,
    h.only.bus, h.only.irqs, h.only.outbox, h.only.led, h.only.commits, h.only.nums, h.only.p0, h.only.p1, h.only.f0,
    h.only.f1, h.only.fi, h.only.cmn, h.only.arb, h.only.ferry, h.only.laneE, h.only.laneW, h.only.sessions,
    h.only.scs, h.only.mod_, h.only.urgents, h.only.outs, h.only.feeds, h.only.pw0, h.only.pw1, h.only.fcs,
    h.only.fd0, h.only.fd1, h.only.fd2, h.only.stamps, h.only.tideE, h.only.tideW, h.only.tevArms, h.only.evtRecs,
    h.only.cvcE, h.only.cvcW, h.only.sels, h.only.pwmRecs, h.only.pwmWork, h.only.cmnRecs, .inr hb, h.only.canRxW,
    h.only.canPorts, h.only.fltQ, h.only.canWork, h.only.canHeld, h.only.lins, h.only.linWork, h.only.tbs, h.only.eth,
    h.only.harbInE, h.only.harbInW, h.only.harbHeld, h.only.pduFails, h.only.harbE, h.only.harbW, h.only.cw,
    h.only.nms, h.only.grants, h.only.vfOps, h.only.quiesces, h.only.iovQs, h.only.potUpds, h.only.copies,
    h.only.lstepTests, h.only.tamperLog, h.only.secE, h.only.secW, h.only.keyOps, h.only.pmReqs, h.only.ownOps,
    h.only.fuseOps, h.only.upd, h.only.calUs, h.only.parE, h.only.parW⟩⟩

theorem kept_canRxW {φ : Frame} {s : State} {x : List CanRx} (h : s.Kept φ) (hb : φ.fx.testBit 45 = true) (hw :
    x.length = 16) : State.Kept φ { s with canRxW := x } :=
  ⟨h.pending, h.now, h.regs, h.mem, h.led, ⟨h.shape.outs, h.shape.feeds, h.shape.fcs, h.shape.sels, h.shape.canPorts,
    h.shape.canRxE, hw, h.shape.lins, h.shape.tbs, h.shape.sessions⟩, ⟨h.only.freeCtr, h.only.regs, h.only.mem,
    h.only.bus, h.only.irqs, h.only.outbox, h.only.led, h.only.commits, h.only.nums, h.only.p0, h.only.p1, h.only.f0,
    h.only.f1, h.only.fi, h.only.cmn, h.only.arb, h.only.ferry, h.only.laneE, h.only.laneW, h.only.sessions,
    h.only.scs, h.only.mod_, h.only.urgents, h.only.outs, h.only.feeds, h.only.pw0, h.only.pw1, h.only.fcs,
    h.only.fd0, h.only.fd1, h.only.fd2, h.only.stamps, h.only.tideE, h.only.tideW, h.only.tevArms, h.only.evtRecs,
    h.only.cvcE, h.only.cvcW, h.only.sels, h.only.pwmRecs, h.only.pwmWork, h.only.cmnRecs, h.only.canRxE, .inr hb,
    h.only.canPorts, h.only.fltQ, h.only.canWork, h.only.canHeld, h.only.lins, h.only.linWork, h.only.tbs, h.only.eth,
    h.only.harbInE, h.only.harbInW, h.only.harbHeld, h.only.pduFails, h.only.harbE, h.only.harbW, h.only.cw,
    h.only.nms, h.only.grants, h.only.vfOps, h.only.quiesces, h.only.iovQs, h.only.potUpds, h.only.copies,
    h.only.lstepTests, h.only.tamperLog, h.only.secE, h.only.secW, h.only.keyOps, h.only.pmReqs, h.only.ownOps,
    h.only.fuseOps, h.only.upd, h.only.calUs, h.only.parE, h.only.parW⟩⟩

theorem kept_lins {φ : Frame} {s : State} {x : List LinRt} (h : s.Kept φ) (hb : φ.fx.testBit 50 = true) (hw : x.length
    = 8) : State.Kept φ { s with lins := x } :=
  ⟨h.pending, h.now, h.regs, h.mem, h.led, ⟨h.shape.outs, h.shape.feeds, h.shape.fcs, h.shape.sels, h.shape.canPorts,
    h.shape.canRxE, h.shape.canRxW, hw, h.shape.tbs, h.shape.sessions⟩, ⟨h.only.freeCtr, h.only.regs, h.only.mem,
    h.only.bus, h.only.irqs, h.only.outbox, h.only.led, h.only.commits, h.only.nums, h.only.p0, h.only.p1, h.only.f0,
    h.only.f1, h.only.fi, h.only.cmn, h.only.arb, h.only.ferry, h.only.laneE, h.only.laneW, h.only.sessions,
    h.only.scs, h.only.mod_, h.only.urgents, h.only.outs, h.only.feeds, h.only.pw0, h.only.pw1, h.only.fcs,
    h.only.fd0, h.only.fd1, h.only.fd2, h.only.stamps, h.only.tideE, h.only.tideW, h.only.tevArms, h.only.evtRecs,
    h.only.cvcE, h.only.cvcW, h.only.sels, h.only.pwmRecs, h.only.pwmWork, h.only.cmnRecs, h.only.canRxE,
    h.only.canRxW, h.only.canPorts, h.only.fltQ, h.only.canWork, h.only.canHeld, .inr hb, h.only.linWork, h.only.tbs,
    h.only.eth, h.only.harbInE, h.only.harbInW, h.only.harbHeld, h.only.pduFails, h.only.harbE, h.only.harbW,
    h.only.cw, h.only.nms, h.only.grants, h.only.vfOps, h.only.quiesces, h.only.iovQs, h.only.potUpds, h.only.copies,
    h.only.lstepTests, h.only.tamperLog, h.only.secE, h.only.secW, h.only.keyOps, h.only.pmReqs, h.only.ownOps,
    h.only.fuseOps, h.only.upd, h.only.calUs, h.only.parE, h.only.parW⟩⟩

theorem kept_tbs {φ : Frame} {s : State} {x : List TbRt} (h : s.Kept φ) (hb : φ.fx.testBit 52 = true) (hw : x.length =
    4) : State.Kept φ { s with tbs := x } :=
  ⟨h.pending, h.now, h.regs, h.mem, h.led, ⟨h.shape.outs, h.shape.feeds, h.shape.fcs, h.shape.sels, h.shape.canPorts,
    h.shape.canRxE, h.shape.canRxW, h.shape.lins, hw, h.shape.sessions⟩, ⟨h.only.freeCtr, h.only.regs, h.only.mem,
    h.only.bus, h.only.irqs, h.only.outbox, h.only.led, h.only.commits, h.only.nums, h.only.p0, h.only.p1, h.only.f0,
    h.only.f1, h.only.fi, h.only.cmn, h.only.arb, h.only.ferry, h.only.laneE, h.only.laneW, h.only.sessions,
    h.only.scs, h.only.mod_, h.only.urgents, h.only.outs, h.only.feeds, h.only.pw0, h.only.pw1, h.only.fcs,
    h.only.fd0, h.only.fd1, h.only.fd2, h.only.stamps, h.only.tideE, h.only.tideW, h.only.tevArms, h.only.evtRecs,
    h.only.cvcE, h.only.cvcW, h.only.sels, h.only.pwmRecs, h.only.pwmWork, h.only.cmnRecs, h.only.canRxE,
    h.only.canRxW, h.only.canPorts, h.only.fltQ, h.only.canWork, h.only.canHeld, h.only.lins, h.only.linWork, .inr hb,
    h.only.eth, h.only.harbInE, h.only.harbInW, h.only.harbHeld, h.only.pduFails, h.only.harbE, h.only.harbW,
    h.only.cw, h.only.nms, h.only.grants, h.only.vfOps, h.only.quiesces, h.only.iovQs, h.only.potUpds, h.only.copies,
    h.only.lstepTests, h.only.tamperLog, h.only.secE, h.only.secW, h.only.keyOps, h.only.pmReqs, h.only.ownOps,
    h.only.fuseOps, h.only.upd, h.only.calUs, h.only.parE, h.only.parW⟩⟩

theorem kept_sessions {φ : Frame} {s : State} {x : List Session} (h : s.Kept φ) (hb : φ.fx.testBit 21 = true) (hw :
    x.length = 32) : State.Kept φ { s with sessions := x } :=
  ⟨h.pending, h.now, h.regs, h.mem, h.led, ⟨h.shape.outs, h.shape.feeds, h.shape.fcs, h.shape.sels, h.shape.canPorts,
    h.shape.canRxE, h.shape.canRxW, h.shape.lins, h.shape.tbs, hw⟩, ⟨h.only.freeCtr, h.only.regs, h.only.mem,
    h.only.bus, h.only.irqs, h.only.outbox, h.only.led, h.only.commits, h.only.nums, h.only.p0, h.only.p1, h.only.f0,
    h.only.f1, h.only.fi, h.only.cmn, h.only.arb, h.only.ferry, h.only.laneE, h.only.laneW, .inr hb, h.only.scs,
    h.only.mod_, h.only.urgents, h.only.outs, h.only.feeds, h.only.pw0, h.only.pw1, h.only.fcs, h.only.fd0,
    h.only.fd1, h.only.fd2, h.only.stamps, h.only.tideE, h.only.tideW, h.only.tevArms, h.only.evtRecs, h.only.cvcE,
    h.only.cvcW, h.only.sels, h.only.pwmRecs, h.only.pwmWork, h.only.cmnRecs, h.only.canRxE, h.only.canRxW,
    h.only.canPorts, h.only.fltQ, h.only.canWork, h.only.canHeld, h.only.lins, h.only.linWork, h.only.tbs, h.only.eth,
    h.only.harbInE, h.only.harbInW, h.only.harbHeld, h.only.pduFails, h.only.harbE, h.only.harbW, h.only.cw,
    h.only.nms, h.only.grants, h.only.vfOps, h.only.quiesces, h.only.iovQs, h.only.potUpds, h.only.copies,
    h.only.lstepTests, h.only.tamperLog, h.only.secE, h.only.secW, h.only.keyOps, h.only.pmReqs, h.only.ownOps,
    h.only.fuseOps, h.only.upd, h.only.calUs, h.only.parE, h.only.parW⟩⟩

theorem kept_commits {φ : Frame} {s : State} {x : List Commit} (h : s.Kept φ) (hb : φ.fx.testBit 9 = true) :
    State.Kept φ { s with commits := x } :=
  ⟨h.pending, h.now, h.regs, h.mem, h.led, ⟨h.shape.outs, h.shape.feeds, h.shape.fcs, h.shape.sels, h.shape.canPorts,
    h.shape.canRxE, h.shape.canRxW, h.shape.lins, h.shape.tbs, h.shape.sessions⟩, ⟨h.only.freeCtr, h.only.regs,
    h.only.mem, h.only.bus, h.only.irqs, h.only.outbox, h.only.led, .inr hb, h.only.nums, h.only.p0, h.only.p1,
    h.only.f0, h.only.f1, h.only.fi, h.only.cmn, h.only.arb, h.only.ferry, h.only.laneE, h.only.laneW,
    h.only.sessions, h.only.scs, h.only.mod_, h.only.urgents, h.only.outs, h.only.feeds, h.only.pw0, h.only.pw1,
    h.only.fcs, h.only.fd0, h.only.fd1, h.only.fd2, h.only.stamps, h.only.tideE, h.only.tideW, h.only.tevArms,
    h.only.evtRecs, h.only.cvcE, h.only.cvcW, h.only.sels, h.only.pwmRecs, h.only.pwmWork, h.only.cmnRecs,
    h.only.canRxE, h.only.canRxW, h.only.canPorts, h.only.fltQ, h.only.canWork, h.only.canHeld, h.only.lins,
    h.only.linWork, h.only.tbs, h.only.eth, h.only.harbInE, h.only.harbInW, h.only.harbHeld, h.only.pduFails,
    h.only.harbE, h.only.harbW, h.only.cw, h.only.nms, h.only.grants, h.only.vfOps, h.only.quiesces, h.only.iovQs,
    h.only.potUpds, h.only.copies, h.only.lstepTests, h.only.tamperLog, h.only.secE, h.only.secW, h.only.keyOps,
    h.only.pmReqs, h.only.ownOps, h.only.fuseOps, h.only.upd, h.only.calUs, h.only.parE, h.only.parW⟩⟩

theorem kept_scs {φ : Frame} {s : State} {x : ScsRt} (h : s.Kept φ) (hb : φ.fx.testBit 22 = true) : State.Kept φ { s
    with scs := x } :=
  ⟨h.pending, h.now, h.regs, h.mem, h.led, ⟨h.shape.outs, h.shape.feeds, h.shape.fcs, h.shape.sels, h.shape.canPorts,
    h.shape.canRxE, h.shape.canRxW, h.shape.lins, h.shape.tbs, h.shape.sessions⟩, ⟨h.only.freeCtr, h.only.regs,
    h.only.mem, h.only.bus, h.only.irqs, h.only.outbox, h.only.led, h.only.commits, h.only.nums, h.only.p0, h.only.p1,
    h.only.f0, h.only.f1, h.only.fi, h.only.cmn, h.only.arb, h.only.ferry, h.only.laneE, h.only.laneW,
    h.only.sessions, .inr hb, h.only.mod_, h.only.urgents, h.only.outs, h.only.feeds, h.only.pw0, h.only.pw1,
    h.only.fcs, h.only.fd0, h.only.fd1, h.only.fd2, h.only.stamps, h.only.tideE, h.only.tideW, h.only.tevArms,
    h.only.evtRecs, h.only.cvcE, h.only.cvcW, h.only.sels, h.only.pwmRecs, h.only.pwmWork, h.only.cmnRecs,
    h.only.canRxE, h.only.canRxW, h.only.canPorts, h.only.fltQ, h.only.canWork, h.only.canHeld, h.only.lins,
    h.only.linWork, h.only.tbs, h.only.eth, h.only.harbInE, h.only.harbInW, h.only.harbHeld, h.only.pduFails,
    h.only.harbE, h.only.harbW, h.only.cw, h.only.nms, h.only.grants, h.only.vfOps, h.only.quiesces, h.only.iovQs,
    h.only.potUpds, h.only.copies, h.only.lstepTests, h.only.tamperLog, h.only.secE, h.only.secW, h.only.keyOps,
    h.only.pmReqs, h.only.ownOps, h.only.fuseOps, h.only.upd, h.only.calUs, h.only.parE, h.only.parW⟩⟩

theorem kept_ite {φ : Frame} {c : Prop} [Decidable c] {s t : State} (h1 : c → s.Kept φ)
    (h2 : ¬c → t.Kept φ) : State.Kept φ (if c then s else t) := by
  split
  · exact h1 ‹_›
  · exact h2 ‹_›

theorem kept_foldl {α : Type} {φ : Frame} {f : State → α → State} {s : State} {xs : List α}
    (hf : ∀ t x, t.Kept φ → (f t x).Kept φ) (hs : s.Kept φ) : State.Kept φ (xs.foldl f s) := by
  induction xs generalizing s with
  | nil => exact hs
  | cons x xs ih => exact ih (hf s x hs)

/-- The state of an operation that answers something beside it. -/
def PairKept {β : Type} (φ : Frame) (y : State × β) : Prop := y.1.Kept φ

theorem pairKept_fst {β : Type} {φ : Frame} {y : State × β} (h : PairKept φ y) : State.Kept φ y.1 := h

theorem pairKept_mk {β : Type} {φ : Frame} {s : State} {b : β} (h : s.Kept φ) : PairKept φ (s, b) := h

theorem pairKept_of {β : Type} {φ : Frame} {y : State × β} (h : y.1.Kept φ) : PairKept φ y := h

theorem pairKept_foldl {α β : Type} {φ : Frame} {f : State × β → α → State × β} {s : State × β} {xs : List α}
    (hf : ∀ t x, PairKept φ t → PairKept φ (f t x)) (hs : PairKept φ s) : PairKept φ (xs.foldl f s) := by
  induction xs generalizing s with
  | nil => exact hs
  | cons x xs ih => exact ih (hf s x hs)

theorem kept_foldl_fst {α β : Type} {φ : Frame} {f : State × β → α → State × β} {s : State × β} {xs : List α}
    (hf : ∀ t x, t.1.Kept φ → (f t x).1.Kept φ) (hs : s.1.Kept φ) : State.Kept φ (xs.foldl f s).1 := by
  induction xs generalizing s with
  | nil => exact hs
  | cons x xs ih => exact ih (hf s x hs)

theorem State.forEach_kept {φ : Frame} {s : State} {ns : List Nat} {f : State → Nat → State}
    (hs : s.Kept φ) (hf : ∀ t x, t.Kept φ → (f t x).Kept φ) : State.Kept φ (s.forEach ns f) := by
  induction ns generalizing s with
  | nil => exact hs
  | cons x xs ih => exact ih (hf s x hs)

theorem outKept_next {φ : Frame} {s : State} (h : s.Kept φ) : OutKept φ (.next s) := by
  intro t ht
  cases ht
  exact h

theorem outKept_ite {φ : Frame} {c : Prop} [Decidable c] {a b : Host.Outcome State Fault Refusal}
    (h1 : c → OutKept φ a) (h2 : ¬c → OutKept φ b) : OutKept φ (if c then a else b) := by
  split
  · exact h1 ‹_›
  · exact h2 ‹_›

/-- The state of an operation that may not apply. -/
def OptKept (φ : Frame) (o : Option State) : Prop := ∀ t, o = some t → t.Kept φ

def OptOutKept (φ : Frame) (o : Option (Host.Outcome State Fault Refusal)) : Prop :=
  ∀ t, o = some t → OutKept φ t

theorem optKept_ite {φ : Frame} {c : Prop} [Decidable c] {a b : Option State}
    (h1 : c → OptKept φ a) (h2 : ¬c → OptKept φ b) : OptKept φ (if c then a else b) := by
  split
  · exact h1 ‹_›
  · exact h2 ‹_›

theorem optOutKept_ite {φ : Frame} {c : Prop} [Decidable c] {a b : Option (Host.Outcome State Fault Refusal)}
    (h1 : c → OptOutKept φ a) (h2 : ¬c → OptOutKept φ b) : OptOutKept φ (if c then a else b) := by
  split
  · exact h1 ‹_›
  · exact h2 ‹_›

theorem optKept_none {φ : Frame} : OptKept φ none := fun _ h => nomatch h

theorem optKept_some {φ : Frame} {s : State} (h : s.Kept φ) : OptKept φ (some s) := by
  intro t ht
  cases ht
  exact h

theorem optOutKept_none {φ : Frame} : OptOutKept φ none := fun _ h => nomatch h

theorem optOutKept_some {φ : Frame} {o : Host.Outcome State Fault Refusal} (h : OutKept φ o) :
    OptOutKept φ (some o) := by
  intro t ht
  cases ht
  exact h

theorem State.setReg_kept {φ : Frame} {s : State} {l : Lane} {a : Nat} {v : Word} (hm : Sub 0x8 φ.fx) (h : s.Kept φ) :
    State.Kept φ (s.setReg l a v) := kept_regs h (hm.bit 3 rfl) (rfPut_wf _ _ _ h.regs)

theorem State.setShadow_kept {φ : Frame} {s : State} {l : Lane} {a : Nat} {v : Word} (hm : Sub 0x8 φ.fx) (h : s.Kept φ) :
    State.Kept φ (s.setShadow l a v) := kept_regs h (hm.bit 3 rfl) (rfPut_wf _ _ _ h.regs)

theorem State.setByte_kept {φ : Frame} {s : State} {l : Lane} {a : Nat} {v : Byte} (hm : Sub 0x10 φ.fx) (h : s.Kept φ) :
    State.Kept φ (s.setByte l a v) := kept_mem h (hm.bit 4 rfl) (memPut_wf _ _ _ h.mem)

theorem State.clearMem_kept {φ : Frame} {s : State} {l : Lane} {lo hi : Nat} (hm : Sub 0x10 φ.fx) (h : s.Kept φ) :
    State.Kept φ (s.clearMem l lo hi) := kept_mem h (hm.bit 4 rfl) (mem_filter_wf _ _ h.mem)

theorem State.setBytes_kept {φ : Frame} {s : State} {l : Lane} {a : Nat} {bs : List Byte} (hm : Sub 0x10 φ.fx)
    (h : s.Kept φ) : State.Kept φ (s.setBytes l a bs) := by
  induction bs generalizing s a with
  | nil => exact h
  | cons b bs ih => exact ih (State.setByte_kept hm h)

theorem State.wipeDie_kept {φ : Frame} {s : State} {lo hi : Nat} (hm : Sub 0x8 φ.fx) (h : s.Kept φ) :
    State.Kept φ (s.wipeDie lo hi) := kept_regs h (hm.bit 3 rfl) (rfReset_wf _ _ _ h.regs)

theorem State.setDieReg_kept {φ : Frame} {s : State} {a : Nat} {v : Word} (hm : Sub 0x8 φ.fx) (h : s.Kept φ) :
    State.Kept φ (s.setDieReg a v) := kept_regs h (hm.bit 3 rfl) (rfPut_wf _ _ _ h.regs)

theorem State.setOut_kept {φ : Frame} {s : State} {d x : Nat} {o : OutRt} (hm : Sub 0x2000000 φ.fx) (h : s.Kept φ) :
    State.Kept φ (s.setOut d x o) :=
  kept_outs h (hm.bit 25 rfl) ((List.length_set ..).trans h.shape.outs)

/-- A change of the ledger that makes no entry and no number. -/
theorem Ledger.Fresh.of_lsns {x y : Ledger} (h : x.Fresh) (hn : y.nextLsn = x.nextLsn)
    (hl : (y.entries.map LEntry.lsn).Sublist (x.entries.map LEntry.lsn)) : y.Fresh :=
  ⟨fun n hn' => hn ▸ h.1 n (hl.subset hn'), h.2.sublist hl⟩

theorem State.setLed_kept {φ : Frame} {s : State} {x : Ledger} (hm : Sub 0x100 φ.fx) (h : s.Kept φ) (hw : x.Fresh) :
    State.Kept φ (s.setLed x) := kept_led h (hm.bit 8 rfl) hw

theorem State.mapEntry_kept {φ : Frame} {s : State} {lsn : Nat} {f : LEntry → LEntry} (hm : Sub 0x100 φ.fx)
    (h : s.Kept φ) (hf : ∀ e, (f e).lsn = e.lsn) : State.Kept φ (s.mapEntry lsn f) := by
  refine State.setLed_kept hm h (h.led.of_lsns rfl ?_)
  have hl : (s.led.entries.map (fun e => if e.lsn = lsn then f e else e)).map LEntry.lsn = s.led.entries.map LEntry.lsn := by
    rw [List.map_map]
    refine List.map_congr_left (fun e _ => ?_)
    simp only [Function.comp]
    split
    · exact hf e
    · rfl
  exact hl ▸ List.Sublist.refl _

theorem Ledger.Fresh.same {x : Ledger} {ds : List DupRec} {a b : Bool} {m n : Nat} {c : Bool} {ls : List Nat} (h : x.Fresh) :
    Ledger.Fresh ⟨x.nextLsn, x.entries, ds, a, b, m, n, c, ls⟩ := h

theorem Ledger.Fresh.filter {x : Ledger} {p : LEntry → Bool} {ds : List DupRec} {a b : Bool} {m n : Nat} {c : Bool}
    {ls : List Nat} (h : x.Fresh) : Ledger.Fresh ⟨x.nextLsn, x.entries.filter p, ds, a, b, m, n, c, ls⟩ :=
  h.of_lsns rfl (List.filter_sublist.map _)

theorem Ledger.Fresh.map {x : Ledger} {f : LEntry → LEntry} {ds : List DupRec} {a b : Bool} {m n : Nat} {c : Bool}
    {ls : List Nat} (h : x.Fresh) (hf : ∀ e, (f e).lsn = e.lsn) :
    Ledger.Fresh ⟨x.nextLsn, x.entries.map f, ds, a, b, m, n, c, ls⟩ := by
  refine h.of_lsns rfl ?_
  have hl : (x.entries.map f).map LEntry.lsn = x.entries.map LEntry.lsn := by
    rw [List.map_map]
    exact List.map_congr_left (fun e _ => hf e)
  exact hl ▸ List.Sublist.refl _

theorem Ledger.Fresh.push {x : Ledger} {e : LEntry} {ds : List DupRec} {a b : Bool} {m n : Nat} {c : Bool}
    {ls : List Nat} (h : x.Fresh) (he : e.lsn = x.nextLsn) :
    Ledger.Fresh ⟨x.nextLsn + 1, x.entries ++ [e], ds, a, b, m, n, c, ls⟩ := by
  constructor
  · intro k hk
    simp only [List.map_append, List.map_cons, List.map_nil, List.mem_append, List.mem_singleton] at hk
    rcases hk with hk | rfl
    · exact Nat.lt_succ_of_lt (h.1 k hk)
    · simp only [he]
      exact Nat.lt_succ_self _
  · simp only [List.map_append, List.map_cons, List.map_nil]
    refine List.pairwise_append.mpr ⟨h.2, List.pairwise_singleton _ _, ?_⟩
    intro k hk m hm
    rw [List.mem_singleton.mp hm, he]
    exact h.1 k hk

end Sys2Proof.Machine
end

