-- ==== Sys2Proof/Laws/KeptOps.lean ====
section
/-! SUPPORT. The operations of Ops.lean keep the invariant, the queue and the time. -/

namespace Sys2Proof.Machine

theorem State.setFld_kept {φ : Frame} {s : State} {l : Lane} {a : Nat} {f : Fld} {v : Nat} (hm : Sub 0x8 φ.fx) (h1 :
    s.Kept φ) :
    State.Kept φ (State.setFld s l a f v) := by
  unfold State.setFld
  try dsimp only
  (repeat' first
    | with_reducible assumption
    | with_reducible exact Sub.of hm (by decide)
    | with_reducible apply State.setReg_kept
    | with_reducible apply kept_ite
    | with_reducible apply kept_foldl
    | with_reducible apply kept_foldl_fst
    | with_reducible apply outKept_next
    | with_reducible apply outKept_ite
    | simp only [kept_mk, true_or]
    | split
    | intro _)

theorem State.setBitF_kept {φ : Frame} {s : State} {l : Lane} {a : Nat} {f : Fld} {b : Bool} (hm : Sub 0x8 φ.fx) (h1 :
    s.Kept φ) :
    State.Kept φ (State.setBitF s l a f b) := by
  unfold State.setBitF
  try dsimp only
  (repeat' first
    | with_reducible assumption
    | with_reducible exact Sub.of hm (by decide)
    | with_reducible apply State.setFld_kept
    | with_reducible apply kept_ite
    | with_reducible apply kept_foldl
    | with_reducible apply kept_foldl_fst
    | with_reducible apply outKept_next
    | with_reducible apply outKept_ite
    | simp only [kept_mk, true_or]
    | split
    | intro _)

theorem State.setRegBoth_kept {φ : Frame} {s : State} {a : Nat} {v : Word} (hm : Sub 0x8 φ.fx) (h1 : s.Kept φ) :
    State.Kept φ (State.setRegBoth s a v) := by
  unfold State.setRegBoth
  try dsimp only
  (repeat' first
    | with_reducible assumption
    | with_reducible exact Sub.of hm (by decide)
    | with_reducible apply State.setReg_kept
    | with_reducible apply kept_ite
    | with_reducible apply kept_foldl
    | with_reducible apply kept_foldl_fst
    | with_reducible apply outKept_next
    | with_reducible apply outKept_ite
    | simp only [kept_mk, true_or]
    | split
    | intro _)

theorem State.setFldBoth_kept {φ : Frame} {s : State} {a : Nat} {f : Fld} {v : Nat} (hm : Sub 0x8 φ.fx) (h1 : s.Kept
    φ) :
    State.Kept φ (State.setFldBoth s a f v) := by
  unfold State.setFldBoth
  try dsimp only
  (repeat' first
    | with_reducible assumption
    | with_reducible exact Sub.of hm (by decide)
    | with_reducible apply State.setFld_kept
    | with_reducible apply kept_ite
    | with_reducible apply kept_foldl
    | with_reducible apply kept_foldl_fst
    | with_reducible apply outKept_next
    | with_reducible apply outKept_ite
    | simp only [kept_mk, true_or]
    | split
    | intro _)

theorem State.setBitBoth_kept {φ : Frame} {s : State} {a : Nat} {f : Fld} {b : Bool} (hm : Sub 0x8 φ.fx) (h1 : s.Kept
    φ) :
    State.Kept φ (State.setBitBoth s a f b) := by
  unfold State.setBitBoth
  try dsimp only
  (repeat' first
    | with_reducible assumption
    | with_reducible exact Sub.of hm (by decide)
    | with_reducible apply State.setFldBoth_kept
    | with_reducible apply kept_ite
    | with_reducible apply kept_foldl
    | with_reducible apply kept_foldl_fst
    | with_reducible apply outKept_next
    | with_reducible apply outKept_ite
    | simp only [kept_mk, true_or]
    | split
    | intro _)

theorem State.setSh_kept {φ : Frame} {s : State} {a : Nat} {v : Word} (hm : Sub 0x8 φ.fx) (h1 : s.Kept φ) :
    State.Kept φ (State.setSh s a v) := by
  unfold State.setSh
  try dsimp only
  (repeat' first
    | with_reducible assumption
    | with_reducible exact Sub.of hm (by decide)
    | with_reducible apply State.setReg_kept
    | with_reducible apply kept_ite
    | with_reducible apply kept_foldl
    | with_reducible apply kept_foldl_fst
    | with_reducible apply outKept_next
    | with_reducible apply outKept_ite
    | simp only [kept_mk, true_or]
    | split
    | intro _)

theorem State.setShFld_kept {φ : Frame} {s : State} {a : Nat} {f : Fld} {v : Nat} (hm : Sub 0x8 φ.fx) (h1 : s.Kept φ)
    :
    State.Kept φ (State.setShFld s a f v) := by
  unfold State.setShFld
  try dsimp only
  (repeat' first
    | with_reducible assumption
    | with_reducible exact Sub.of hm (by decide)
    | with_reducible apply State.setFld_kept
    | with_reducible apply kept_ite
    | with_reducible apply kept_foldl
    | with_reducible apply kept_foldl_fst
    | with_reducible apply outKept_next
    | with_reducible apply outKept_ite
    | simp only [kept_mk, true_or]
    | split
    | intro _)

theorem State.setShBit_kept {φ : Frame} {s : State} {a : Nat} {f : Fld} {b : Bool} (hm : Sub 0x8 φ.fx) (h1 : s.Kept φ)
    :
    State.Kept φ (State.setShBit s a f b) := by
  unfold State.setShBit
  try dsimp only
  (repeat' first
    | with_reducible assumption
    | with_reducible exact Sub.of hm (by decide)
    | with_reducible apply State.setBitF_kept
    | with_reducible apply kept_ite
    | with_reducible apply kept_foldl
    | with_reducible apply kept_foldl_fst
    | with_reducible apply outKept_next
    | with_reducible apply outKept_ite
    | simp only [kept_mk, true_or]
    | split
    | intro _)

theorem State.count_kept {φ : Frame} {s : State} {l : Lane} {a : Nat} (hm : Sub 0x8 φ.fx) (h1 : s.Kept φ) :
    State.Kept φ (State.count s l a) := by
  unfold State.count
  try dsimp only
  (repeat' first
    | with_reducible assumption
    | with_reducible exact Sub.of hm (by decide)
    | with_reducible apply State.setReg_kept
    | with_reducible apply kept_ite
    | with_reducible apply kept_foldl
    | with_reducible apply kept_foldl_fst
    | with_reducible apply outKept_next
    | with_reducible apply outKept_ite
    | simp only [kept_mk, true_or]
    | split
    | intro _)

theorem State.countBoth_kept {φ : Frame} {s : State} {a : Nat} (hm : Sub 0x8 φ.fx) (h1 : s.Kept φ) :
    State.Kept φ (State.countBoth s a) := by
  unfold State.countBoth
  try dsimp only
  (repeat' first
    | with_reducible assumption
    | with_reducible exact Sub.of hm (by decide)
    | with_reducible apply State.count_kept
    | with_reducible apply kept_ite
    | with_reducible apply kept_foldl
    | with_reducible apply kept_foldl_fst
    | with_reducible apply outKept_next
    | with_reducible apply outKept_ite
    | simp only [kept_mk, true_or]
    | split
    | intro _)

theorem State.countSh_kept {φ : Frame} {s : State} {a : Nat} (hm : Sub 0x8 φ.fx) (h1 : s.Kept φ) :
    State.Kept φ (State.countSh s a) := by
  unfold State.countSh
  try dsimp only
  (repeat' first
    | with_reducible assumption
    | with_reducible exact Sub.of hm (by decide)
    | with_reducible apply State.count_kept
    | with_reducible apply kept_ite
    | with_reducible apply kept_foldl
    | with_reducible apply kept_foldl_fst
    | with_reducible apply outKept_next
    | with_reducible apply outKept_ite
    | simp only [kept_mk, true_or]
    | split
    | intro _)

theorem State.countFld_kept {φ : Frame} {s : State} {l : Lane} {a : Nat} {f : Fld} (hm : Sub 0x8 φ.fx) (h1 : s.Kept φ)
    :
    State.Kept φ (State.countFld s l a f) := by
  unfold State.countFld
  try dsimp only
  (repeat' first
    | with_reducible assumption
    | with_reducible exact Sub.of hm (by decide)
    | with_reducible apply State.setFld_kept
    | with_reducible apply kept_ite
    | with_reducible apply kept_foldl
    | with_reducible apply kept_foldl_fst
    | with_reducible apply outKept_next
    | with_reducible apply outKept_ite
    | simp only [kept_mk, true_or]
    | split
    | intro _)

theorem State.countShFld_kept {φ : Frame} {s : State} {a : Nat} {f : Fld} (hm : Sub 0x8 φ.fx) (h1 : s.Kept φ) :
    State.Kept φ (State.countShFld s a f) := by
  unfold State.countShFld
  try dsimp only
  (repeat' first
    | with_reducible assumption
    | with_reducible exact Sub.of hm (by decide)
    | with_reducible apply State.countFld_kept
    | with_reducible apply kept_ite
    | with_reducible apply kept_foldl
    | with_reducible apply kept_foldl_fst
    | with_reducible apply outKept_next
    | with_reducible apply outKept_ite
    | simp only [kept_mk, true_or]
    | split
    | intro _)

theorem State.setRegs_kept {φ : Frame} {s : State} {l : Lane} {a : Nat} {a3 : List Word} (hm : Sub 0x8 φ.fx) (h1 :
    s.Kept φ) :
    State.Kept φ (State.setRegs s l a a3) := by
  induction a3 generalizing s l a with
  | nil =>
    unfold State.setRegs
    (repeat' first
    | with_reducible assumption
    | with_reducible exact Sub.of hm (by decide)
    | with_reducible apply State.setReg_kept
    | with_reducible apply kept_ite
    | with_reducible apply kept_foldl
    | with_reducible apply kept_foldl_fst
    | with_reducible apply outKept_next
    | with_reducible apply outKept_ite
    | simp only [kept_mk, true_or]
    | split
    | intro _)
  | cons x xs ih =>
    unfold State.setRegs
    (repeat' first
    | with_reducible assumption
    | with_reducible exact Sub.of hm (by decide)
    | with_reducible apply State.setReg_kept
    | with_reducible apply ih
    | with_reducible apply kept_ite
    | with_reducible apply kept_foldl
    | with_reducible apply kept_foldl_fst
    | with_reducible apply outKept_next
    | with_reducible apply outKept_ite
    | simp only [kept_mk, true_or]
    | split
    | intro _)

theorem State.emit_kept {φ : Frame} {s : State} {m : OutMsg} (hm : Sub 0x80 φ.fx) (h1 : s.Kept φ) :
    State.Kept φ (State.emit s m) := by
  unfold State.emit
  try dsimp only
  (repeat' first
    | with_reducible assumption
    | with_reducible exact Sub.of hm (by decide)
    | with_reducible apply kept_ite
    | with_reducible apply kept_foldl
    | with_reducible apply kept_foldl_fst
    | with_reducible apply outKept_next
    | with_reducible apply outKept_ite
    | simp only [kept_mk, hm.bit 7 rfl, or_true, true_or]
    | split
    | intro _)

theorem State.irq_kept {φ : Frame} {s : State} {l : Lane} {fn : Option Nat} {v : Nat} (hm : Sub 0x40 φ.fx) (h1 :
    s.Kept φ) :
    State.Kept φ (State.irq s l fn v) := by
  unfold State.irq
  try dsimp only
  (repeat' first
    | with_reducible assumption
    | with_reducible exact Sub.of hm (by decide)
    | with_reducible apply kept_ite
    | with_reducible apply kept_foldl
    | with_reducible apply kept_foldl_fst
    | with_reducible apply outKept_next
    | with_reducible apply outKept_ite
    | simp only [kept_mk, hm.bit 6 rfl, or_true, true_or]
    | split
    | intro _)

theorem State.alarm_kept {φ : Frame} {s : State} {l : Lane} {v : Nat} (hm : Sub 0x40 φ.fx) (h1 : s.Kept φ) :
    State.Kept φ (State.alarm s l v) := by
  unfold State.alarm
  try dsimp only
  (repeat' first
    | with_reducible assumption
    | with_reducible exact Sub.of hm (by decide)
    | with_reducible apply State.irq_kept
    | with_reducible apply kept_ite
    | with_reducible apply kept_foldl
    | with_reducible apply kept_foldl_fst
    | with_reducible apply outKept_next
    | with_reducible apply outKept_ite
    | simp only [kept_mk, true_or]
    | split
    | intro _)

theorem State.tickFree_kept {φ : Frame} {s : State} (hm : Sub 0x4 φ.fx) (h1 : s.Kept φ) :
    State.Kept φ (State.tickFree s) := by
  unfold State.tickFree
  try dsimp only
  (repeat' first
    | with_reducible assumption
    | with_reducible exact Sub.of hm (by decide)
    | with_reducible apply kept_ite
    | with_reducible apply kept_foldl
    | with_reducible apply kept_foldl_fst
    | with_reducible apply outKept_next
    | with_reducible apply outKept_ite
    | simp only [kept_mk, hm.bit 2 rfl, or_true, true_or]
    | split
    | intro _)

theorem State.busOk_kept {φ : Frame} {s : State} {w : Word} (hm : Sub 0x20 φ.fx) (h1 : s.Kept φ) :
    State.Kept φ (State.busOk s w) := by
  unfold State.busOk
  try dsimp only
  (repeat' first
    | with_reducible assumption
    | with_reducible exact Sub.of hm (by decide)
    | with_reducible apply kept_ite
    | with_reducible apply kept_foldl
    | with_reducible apply kept_foldl_fst
    | with_reducible apply outKept_next
    | with_reducible apply outKept_ite
    | simp only [kept_mk, hm.bit 5 rfl, or_true, true_or]
    | split
    | intro _)

theorem State.busErr_kept {φ : Frame} {s : State} (hm : Sub 0x20 φ.fx) (h1 : s.Kept φ) :
    State.Kept φ (State.busErr s) := by
  unfold State.busErr
  try dsimp only
  (repeat' first
    | with_reducible assumption
    | with_reducible exact Sub.of hm (by decide)
    | with_reducible apply kept_ite
    | with_reducible apply kept_foldl
    | with_reducible apply kept_foldl_fst
    | with_reducible apply outKept_next
    | with_reducible apply outKept_ite
    | simp only [kept_mk, hm.bit 5 rfl, or_true, true_or]
    | split
    | intro _)

theorem State.setLane_kept {φ : Frame} {s : State} {l : Lane} {x : LaneRt} (hm : Sub 0x180000 φ.fx) (h1 : s.Kept φ) :
    State.Kept φ (State.setLane s l x) := by
  unfold State.setLane
  try dsimp only
  (repeat' first
    | with_reducible assumption
    | with_reducible exact Sub.of hm (by decide)
    | with_reducible apply kept_ite
    | with_reducible apply kept_foldl
    | with_reducible apply kept_foldl_fst
    | with_reducible apply outKept_next
    | with_reducible apply outKept_ite
    | simp only [kept_mk, hm.bit 19 rfl, hm.bit 20 rfl, or_true, true_or]
    | split
    | intro _)

theorem State.setDie_kept {φ : Frame} {s : State} {d : Die} {x : DieRt} (hm : Sub 0x1f800 φ.fx) (h1 : s.Kept φ) :
    State.Kept φ (State.setDie s d x) := by
  unfold State.setDie
  try dsimp only
  (repeat' first
    | with_reducible assumption
    | with_reducible exact Sub.of hm (by decide)
    | with_reducible apply kept_ite
    | with_reducible apply kept_foldl
    | with_reducible apply kept_foldl_fst
    | with_reducible apply outKept_next
    | with_reducible apply outKept_ite
    | simp only [kept_mk, hm.bit 11 rfl, hm.bit 12 rfl, hm.bit 13 rfl, hm.bit 14 rfl, hm.bit 15 rfl, hm.bit 16 rfl,
      or_true, true_or]
    | split
    | intro _)

theorem State.syncSafe_kept {φ : Frame} {s : State} {l : Lane} (hm : Sub 0x180000 φ.fx) (h1 : s.Kept φ) :
    State.Kept φ (State.syncSafe s l) := by
  unfold State.syncSafe
  try dsimp only
  (repeat' first
    | with_reducible assumption
    | with_reducible exact Sub.of hm (by decide)
    | with_reducible apply State.setLane_kept
    | with_reducible apply kept_ite
    | with_reducible apply kept_foldl
    | with_reducible apply kept_foldl_fst
    | with_reducible apply outKept_next
    | with_reducible apply outKept_ite
    | simp only [kept_mk, true_or]
    | split
    | intro _)

theorem State.syncMode_kept {φ : Frame} {s : State} {old : Nat} (hm : Sub 0x180008 φ.fx) (h1 : s.Kept φ) :
    State.Kept φ (State.syncMode s old) := by
  unfold State.syncMode
  try dsimp only
  (repeat' first
    | with_reducible assumption
    | with_reducible exact Sub.of hm (by decide)
    | with_reducible apply State.syncSafe_kept
    | with_reducible apply State.setBitBoth_kept
    | with_reducible apply State.setFldBoth_kept
    | with_reducible apply kept_ite
    | with_reducible apply kept_foldl
    | with_reducible apply kept_foldl_fst
    | with_reducible apply outKept_next
    | with_reducible apply outKept_ite
    | simp only [kept_mk, true_or]
    | split
    | intro _)

theorem State.setLst_kept {φ : Frame} {s : State} {l : Lane} {v : Nat} (hm : Sub 0x180008 φ.fx) (h1 : s.Kept φ) :
    State.Kept φ (State.setLst s l v) := by
  unfold State.setLst
  try dsimp only
  (repeat' first
    | with_reducible assumption
    | with_reducible exact Sub.of hm (by decide)
    | with_reducible apply State.setFld_kept
    | with_reducible apply State.setBitF_kept
    | with_reducible apply State.syncMode_kept
    | with_reducible apply kept_ite
    | with_reducible apply kept_foldl
    | with_reducible apply kept_foldl_fst
    | with_reducible apply outKept_next
    | with_reducible apply outKept_ite
    | simp only [kept_mk, true_or]
    | split
    | intro _)

theorem State.setServing_kept {φ : Frame} {s : State} {l : Lane} {b : Bool} (hm : Sub 0x8 φ.fx) (h1 : s.Kept φ) :
    State.Kept φ (State.setServing s l b) := by
  unfold State.setServing
  try dsimp only
  (repeat' first
    | with_reducible assumption
    | with_reducible exact Sub.of hm (by decide)
    | with_reducible apply State.setBitF_kept
    | with_reducible apply kept_ite
    | with_reducible apply kept_foldl
    | with_reducible apply kept_foldl_fst
    | with_reducible apply outKept_next
    | with_reducible apply outKept_ite
    | simp only [kept_mk, true_or]
    | split
    | intro _)

theorem State.syncLedgLane_kept {φ : Frame} {s : State} {l : Lane} (hm : Sub 0x8 φ.fx) (h1 : s.Kept φ) :
    State.Kept φ (State.syncLedgLane s l) := by
  unfold State.syncLedgLane
  try dsimp only
  (repeat' first
    | with_reducible assumption
    | with_reducible exact Sub.of hm (by decide)
    | with_reducible apply State.setReg_kept
    | with_reducible apply State.setFld_kept
    | with_reducible apply State.setBitF_kept
    | with_reducible apply kept_ite
    | with_reducible apply kept_foldl
    | with_reducible apply kept_foldl_fst
    | with_reducible apply outKept_next
    | with_reducible apply outKept_ite
    | simp only [kept_mk, true_or]
    | split
    | intro _)

theorem State.syncLedg_kept {φ : Frame} {s : State} (hm : Sub 0x8 φ.fx) (h1 : s.Kept φ) :
    State.Kept φ (State.syncLedg s) := by
  unfold State.syncLedg
  try dsimp only
  (repeat' first
    | with_reducible assumption
    | with_reducible exact Sub.of hm (by decide)
    | with_reducible apply State.syncLedgLane_kept
    | with_reducible apply kept_ite
    | with_reducible apply kept_foldl
    | with_reducible apply kept_foldl_fst
    | with_reducible apply outKept_next
    | with_reducible apply outKept_ite
    | simp only [kept_mk, true_or]
    | split
    | intro _)

theorem State.syncQuota_kept {φ : Frame} {s : State} {q : Nat} (hm : Sub 0x8 φ.fx) (h1 : s.Kept φ) :
    State.Kept φ (State.syncQuota s q) := by
  unfold State.syncQuota
  try dsimp only
  (repeat' first
    | with_reducible assumption
    | with_reducible exact Sub.of hm (by decide)
    | with_reducible apply State.setFldBoth_kept
    | with_reducible apply kept_ite
    | with_reducible apply kept_foldl
    | with_reducible apply kept_foldl_fst
    | with_reducible apply outKept_next
    | with_reducible apply outKept_ite
    | simp only [kept_mk, true_or]
    | split
    | intro _)

theorem State.begin_kept {φ : Frame} {s : State} {lsn : Nat} (hm : Sub 0x100 φ.fx) (h1 : s.Kept φ) :
    State.Kept φ (State.begin s lsn) := by
  unfold State.begin
  try dsimp only
  (repeat' first
    | with_reducible assumption
    | with_reducible exact Sub.of hm (by decide)
    | with_reducible apply State.mapEntry_kept
    | with_reducible apply kept_ite
    | with_reducible apply kept_foldl
    | with_reducible apply kept_foldl_fst
    | with_reducible apply outKept_next
    | with_reducible apply outKept_ite
    | simp only [kept_mk, true_or]
    | with_reducible rfl
    | split
    | intro _)

theorem State.endEntry_kept {φ : Frame} {s : State} {lsn : Nat} {disp : Nat} {err : Nat} (hm : Sub 0x108 φ.fx) (h1 :
    s.Kept φ) :
    State.Kept φ (State.endEntry s lsn disp err) := by
  unfold State.endEntry
  try dsimp only
  (repeat' first
    | with_reducible assumption
    | with_reducible exact Sub.of hm (by decide)
    | with_reducible apply State.syncLedg_kept
    | with_reducible apply State.countBoth_kept
    | with_reducible apply State.mapEntry_kept
    | with_reducible apply State.setLed_kept
    | with_reducible refine Ledger.Fresh.same (State.Kept.led (φ := φ) ?_)
    | with_reducible refine Ledger.Fresh.filter (State.Kept.led (φ := φ) ?_)
    | with_reducible refine Ledger.Fresh.map (State.Kept.led (φ := φ) ?_) ?_
    | with_reducible refine Ledger.Fresh.push (State.Kept.led (φ := φ) ?_) ?_
    | with_reducible apply kept_ite
    | with_reducible apply kept_foldl
    | with_reducible apply kept_foldl_fst
    | with_reducible apply outKept_next
    | with_reducible apply outKept_ite
    | simp only [kept_mk, true_or]
    | with_reducible refine Ledger.Fresh.same (State.Kept.led (φ := φ) ?_)
    | with_reducible refine Ledger.Fresh.filter (State.Kept.led (φ := φ) ?_)
    | with_reducible refine Ledger.Fresh.map (State.Kept.led (φ := φ) ?_) ?_
    | with_reducible refine Ledger.Fresh.push (State.Kept.led (φ := φ) ?_) ?_
    | with_reducible rfl
    | split
    | intro _)

theorem State.settleQuiesce_kept {φ : Frame} {s : State} (hm : Sub 0x10000000000000108 φ.fx) (h1 : s.Kept φ) :
    State.Kept φ (State.settleQuiesce s) := by
  unfold State.settleQuiesce
  try dsimp only
  (repeat' first
    | with_reducible assumption
    | with_reducible exact Sub.of hm (by decide)
    | with_reducible apply State.setFld_kept
    | with_reducible apply State.endEntry_kept
    | with_reducible apply kept_ite
    | with_reducible apply kept_foldl
    | with_reducible apply kept_foldl_fst
    | with_reducible apply outKept_next
    | with_reducible apply outKept_ite
    | simp only [kept_mk, hm.bit 64 rfl, or_true, true_or]
    | split
    | intro _)

theorem State.settleGrants_kept {φ : Frame} {s : State} (hm : Sub 0x4000000000000108 φ.fx) (h1 : s.Kept φ) :
    State.Kept φ (State.settleGrants s) := by
  unfold State.settleGrants
  try dsimp only
  (repeat' first
    | with_reducible assumption
    | with_reducible exact Sub.of hm (by decide)
    | with_reducible apply State.endEntry_kept
    | with_reducible apply kept_ite
    | with_reducible apply kept_foldl
    | with_reducible apply kept_foldl_fst
    | with_reducible apply outKept_next
    | with_reducible apply outKept_ite
    | simp only [kept_mk, hm.bit 62 rfl, or_true, true_or]
    | split
    | intro _)

theorem State.dispose_kept {φ : Frame} {s : State} {lsn : Nat} {disp : Nat} {err : Nat} (hm : Sub 0x14000000000000108
    φ.fx) (h1 : s.Kept φ) :
    State.Kept φ (State.dispose s lsn disp err) := by
  unfold State.dispose
  try dsimp only
  (repeat' first
    | with_reducible assumption
    | with_reducible exact Sub.of hm (by decide)
    | with_reducible apply State.settleQuiesce_kept
    | with_reducible apply State.settleGrants_kept
    | with_reducible apply State.endEntry_kept
    | with_reducible apply kept_ite
    | with_reducible apply kept_foldl
    | with_reducible apply kept_foldl_fst
    | with_reducible apply outKept_next
    | with_reducible apply outKept_ite
    | simp only [kept_mk, true_or]
    | split
    | intro _)

theorem State.done_kept {φ : Frame} {s : State} {lsn : Nat} (hm : Sub 0x14000000000000108 φ.fx) (h1 : s.Kept φ) :
    State.Kept φ (State.done s lsn) := by
  unfold State.done
  try dsimp only
  (repeat' first
    | with_reducible assumption
    | with_reducible exact Sub.of hm (by decide)
    | with_reducible apply State.dispose_kept
    | with_reducible apply kept_ite
    | with_reducible apply kept_foldl
    | with_reducible apply kept_foldl_fst
    | with_reducible apply outKept_next
    | with_reducible apply outKept_ite
    | simp only [kept_mk, true_or]
    | split
    | intro _)

theorem State.failed_kept {φ : Frame} {s : State} {lsn : Nat} {err : Nat} (hm : Sub 0x14000000000000108 φ.fx) (h1 :
    s.Kept φ) :
    State.Kept φ (State.failed s lsn err) := by
  unfold State.failed
  try dsimp only
  (repeat' first
    | with_reducible assumption
    | with_reducible exact Sub.of hm (by decide)
    | with_reducible apply State.dispose_kept
    | with_reducible apply kept_ite
    | with_reducible apply kept_foldl
    | with_reducible apply kept_foldl_fst
    | with_reducible apply outKept_next
    | with_reducible apply outKept_ite
    | simp only [kept_mk, true_or]
    | split
    | intro _)

theorem State.disposeAll_kept {φ : Frame} {s : State} {lsns : List Nat} {disp : Nat} {err : Nat} (hm : Sub
    0x14000000000000108 φ.fx) (h1 : s.Kept φ) :
    State.Kept φ (State.disposeAll s lsns disp err) := by
  unfold State.disposeAll
  try dsimp only
  (repeat' first
    | with_reducible assumption
    | with_reducible exact Sub.of hm (by decide)
    | with_reducible apply State.dispose_kept
    | with_reducible apply State.forEach_kept
    | with_reducible apply kept_ite
    | with_reducible apply kept_foldl
    | with_reducible apply kept_foldl_fst
    | with_reducible apply outKept_next
    | with_reducible apply outKept_ite
    | simp only [kept_mk, true_or]
    | split
    | intro _)

theorem State.resetWork_kept {φ : Frame} {s : State} {mine : LEntry → Bool} (hm : Sub 0x14000000000000108 φ.fx) (h1 :
    s.Kept φ) :
    State.Kept φ (State.resetWork s mine) := by
  unfold State.resetWork
  try dsimp only
  (repeat' first
    | with_reducible assumption
    | with_reducible exact Sub.of hm (by decide)
    | with_reducible apply State.failed_kept
    | with_reducible apply State.dispose_kept
    | with_reducible apply State.forEach_kept
    | with_reducible apply kept_ite
    | with_reducible apply kept_foldl
    | with_reducible apply kept_foldl_fst
    | with_reducible apply outKept_next
    | with_reducible apply outKept_ite
    | simp only [kept_mk, true_or]
    | split
    | intro _)

theorem State.setCommits_kept {φ : Frame} {s : State} {c : List Commit} (hm : Sub 0x200 φ.fx) (h1 : s.Kept φ) :
    State.Kept φ (State.setCommits s c) := by
  unfold State.setCommits
  try dsimp only
  (repeat' first
    | with_reducible assumption
    | with_reducible exact Sub.of hm (by decide)
    | with_reducible apply kept_ite
    | with_reducible apply kept_foldl
    | with_reducible apply kept_foldl_fst
    | with_reducible apply outKept_next
    | with_reducible apply outKept_ite
    | simp only [kept_mk, hm.bit 9 rfl, or_true, true_or]
    | split
    | intro _)

theorem State.activate_kept {φ : Frame} {s : State} {l : Lane} {a : Nat} {v : Word} (hm : Sub 0x8 φ.fx) (h1 : s.Kept
    φ) :
    State.Kept φ (State.activate s l a v) := by
  unfold State.activate
  try dsimp only
  (repeat' first
    | with_reducible assumption
    | with_reducible exact Sub.of hm (by decide)
    | with_reducible apply State.setReg_kept
    | with_reducible apply kept_ite
    | with_reducible apply kept_foldl
    | with_reducible apply kept_foldl_fst
    | with_reducible apply outKept_next
    | with_reducible apply outKept_ite
    | simp only [kept_mk, true_or]
    | split
    | intro _)

theorem State.activateAll_kept {φ : Frame} {s : State} {l : Lane} {a2 : List RegCell} (hm : Sub 0x8 φ.fx) (h1 : s.Kept
    φ) :
    State.Kept φ (State.activateAll s l a2) := by
  induction a2 generalizing s l with
  | nil =>
    unfold State.activateAll
    (repeat' first
    | with_reducible assumption
    | with_reducible exact Sub.of hm (by decide)
    | with_reducible apply State.activate_kept
    | with_reducible apply kept_ite
    | with_reducible apply kept_foldl
    | with_reducible apply kept_foldl_fst
    | with_reducible apply outKept_next
    | with_reducible apply outKept_ite
    | simp only [kept_mk, true_or]
    | split
    | intro _)
  | cons x xs ih =>
    unfold State.activateAll
    (repeat' first
    | with_reducible assumption
    | with_reducible exact Sub.of hm (by decide)
    | with_reducible apply State.activate_kept
    | with_reducible apply ih
    | with_reducible apply kept_ite
    | with_reducible apply kept_foldl
    | with_reducible apply kept_foldl_fst
    | with_reducible apply outKept_next
    | with_reducible apply outKept_ite
    | simp only [kept_mk, true_or]
    | split
    | intro _)

theorem State.writeShadow_kept {φ : Frame} {s : State} {l : Lane} {a : Nat} {v : Word} (hm : Sub 0x8 φ.fx) (h1 :
    s.Kept φ) :
    State.Kept φ (State.writeShadow s l a v) := by
  unfold State.writeShadow
  try dsimp only
  (repeat' first
    | with_reducible assumption
    | with_reducible exact Sub.of hm (by decide)
    | with_reducible apply State.setShadow_kept
    | with_reducible apply kept_ite
    | with_reducible apply kept_foldl
    | with_reducible apply kept_foldl_fst
    | with_reducible apply outKept_next
    | with_reducible apply outKept_ite
    | simp only [kept_mk, true_or]
    | split
    | intro _)

theorem State.writeShadows_kept {φ : Frame} {s : State} {l : Lane} {a2 : List RegCell} (hm : Sub 0x8 φ.fx) (h1 :
    s.Kept φ) :
    State.Kept φ (State.writeShadows s l a2) := by
  induction a2 generalizing s l with
  | nil =>
    unfold State.writeShadows
    (repeat' first
    | with_reducible assumption
    | with_reducible exact Sub.of hm (by decide)
    | with_reducible apply State.writeShadow_kept
    | with_reducible apply kept_ite
    | with_reducible apply kept_foldl
    | with_reducible apply kept_foldl_fst
    | with_reducible apply outKept_next
    | with_reducible apply outKept_ite
    | simp only [kept_mk, true_or]
    | split
    | intro _)
  | cons x xs ih =>
    unfold State.writeShadows
    (repeat' first
    | with_reducible assumption
    | with_reducible exact Sub.of hm (by decide)
    | with_reducible apply State.writeShadow_kept
    | with_reducible apply ih
    | with_reducible apply kept_ite
    | with_reducible apply kept_foldl
    | with_reducible apply kept_foldl_fst
    | with_reducible apply outKept_next
    | with_reducible apply outKept_ite
    | simp only [kept_mk, true_or]
    | split
    | intro _)

theorem State.setNum_kept {φ : Frame} {s : State} {n : CommitNum} (hm : Sub 0x400 φ.fx) (h1 : s.Kept φ) :
    State.Kept φ (State.setNum s n) := by
  unfold State.setNum
  try dsimp only
  (repeat' first
    | with_reducible assumption
    | with_reducible exact Sub.of hm (by decide)
    | with_reducible apply kept_ite
    | with_reducible apply kept_foldl
    | with_reducible apply kept_foldl_fst
    | with_reducible apply outKept_next
    | with_reducible apply outKept_ite
    | simp only [kept_mk, hm.bit 10 rfl, or_true, true_or]
    | split
    | intro _)

theorem State.addCommit_kept {φ : Frame} {s : State} {block : Nat} {region : Nat} {l : Lane} {writes : List RegCell}
    {lsns : List Nat} {wholesale : Bool} (hm : Sub 0x600 φ.fx) (h1 : s.Kept φ) :
    State.Kept φ (State.addCommit s block region l writes lsns wholesale) := by
  unfold State.addCommit
  try dsimp only
  (repeat' first
    | with_reducible assumption
    | with_reducible exact Sub.of hm (by decide)
    | with_reducible apply State.setNum_kept
    | with_reducible apply State.setCommits_kept
    | with_reducible apply kept_ite
    | with_reducible apply kept_foldl
    | with_reducible apply kept_foldl_fst
    | with_reducible apply outKept_next
    | with_reducible apply outKept_ite
    | simp only [kept_mk, true_or]
    | split
    | intro _)

theorem State.commitShared_kept {φ : Frame} {s : State} {block : Nat} {region : Nat} {ws : List RegCell} {lsn : Nat}
    (hm : Sub 0x608 φ.fx) (h1 : s.Kept φ) :
    State.Kept φ (State.commitShared s block region ws lsn) := by
  unfold State.commitShared
  try dsimp only
  (repeat' first
    | with_reducible assumption
    | with_reducible exact Sub.of hm (by decide)
    | with_reducible apply State.addCommit_kept
    | with_reducible apply State.writeShadows_kept
    | with_reducible apply kept_ite
    | with_reducible apply kept_foldl
    | with_reducible apply kept_foldl_fst
    | with_reducible apply outKept_next
    | with_reducible apply outKept_ite
    | simp only [kept_mk, true_or]
    | split
    | intro _)

theorem State.commitLocal_kept {φ : Frame} {s : State} {block : Nat} {region : Nat} {ws : List RegCell} {lsn : Nat}
    (hm : Sub 0x608 φ.fx) (h1 : s.Kept φ) :
    State.Kept φ (State.commitLocal s block region ws lsn) := by
  unfold State.commitLocal
  try dsimp only
  (repeat' first
    | with_reducible assumption
    | with_reducible exact Sub.of hm (by decide)
    | with_reducible apply State.addCommit_kept
    | with_reducible apply State.writeShadows_kept
    | with_reducible apply kept_ite
    | with_reducible apply kept_foldl
    | with_reducible apply kept_foldl_fst
    | with_reducible apply outKept_next
    | with_reducible apply outKept_ite
    | simp only [kept_mk, true_or]
    | split
    | intro _)

theorem State.dropCommit_kept {φ : Frame} {s : State} {c : Commit} (hm : Sub 0x200 φ.fx) (h1 : s.Kept φ) :
    State.Kept φ (State.dropCommit s c) := by
  unfold State.dropCommit
  try dsimp only
  (repeat' first
    | with_reducible assumption
    | with_reducible exact Sub.of hm (by decide)
    | with_reducible apply State.setCommits_kept
    | with_reducible apply kept_ite
    | with_reducible apply kept_foldl
    | with_reducible apply kept_foldl_fst
    | with_reducible apply outKept_next
    | with_reducible apply outKept_ite
    | simp only [kept_mk, true_or]
    | split
    | intro _)

theorem State.settle_kept {φ : Frame} {s : State} {lsn : Nat} (hm : Sub 0x14000000000000108 φ.fx) (h1 : s.Kept φ) :
    State.Kept φ (State.settle s lsn) := by
  unfold State.settle
  try dsimp only
  (repeat' first
    | with_reducible assumption
    | with_reducible exact Sub.of hm (by decide)
    | with_reducible apply State.done_kept
    | with_reducible apply kept_ite
    | with_reducible apply kept_foldl
    | with_reducible apply kept_foldl_fst
    | with_reducible apply outKept_next
    | with_reducible apply outKept_ite
    | simp only [kept_mk, true_or]
    | split
    | intro _)

theorem State.settleAll_kept {φ : Frame} {s : State} {lsns : List Nat} (hm : Sub 0x14000000000000108 φ.fx) (h1 :
    s.Kept φ) :
    State.Kept φ (State.settleAll s lsns) := by
  unfold State.settleAll
  try dsimp only
  (repeat' first
    | with_reducible assumption
    | with_reducible exact Sub.of hm (by decide)
    | with_reducible apply State.settle_kept
    | with_reducible apply State.forEach_kept
    | with_reducible apply kept_ite
    | with_reducible apply kept_foldl
    | with_reducible apply kept_foldl_fst
    | with_reducible apply outKept_next
    | with_reducible apply outKept_ite
    | simp only [kept_mk, true_or]
    | split
    | intro _)

theorem State.applyCommit_kept {φ : Frame} {s : State} {ok : Bool} {flagAddr : Nat} {flag : Fld} {err : Nat} {c :
    Commit} (hm : Sub 0x14000000000000708 φ.fx) (h1 : s.Kept φ) :
    State.Kept φ (State.applyCommit s ok flagAddr flag err c) := by
  unfold State.applyCommit
  try dsimp only
  (repeat' first
    | with_reducible assumption
    | with_reducible exact Sub.of hm (by decide)
    | with_reducible apply State.dropCommit_kept
    | with_reducible apply State.setNum_kept
    | with_reducible apply State.settleAll_kept
    | with_reducible apply State.setBitF_kept
    | with_reducible apply State.activateAll_kept
    | with_reducible apply State.disposeAll_kept
    | with_reducible apply kept_ite
    | with_reducible apply kept_foldl
    | with_reducible apply kept_foldl_fst
    | with_reducible apply outKept_next
    | with_reducible apply outKept_ite
    | simp only [kept_mk, true_or]
    | split
    | intro _)

theorem State.dropDie_kept {φ : Frame} {s : State} {block : Nat} {region : Nat} (hm : Sub 0x14000000000000308 φ.fx)
    (h1 : s.Kept φ) :
    State.Kept φ (State.dropDie s block region) := by
  unfold State.dropDie
  try dsimp only
  (repeat' first
    | with_reducible assumption
    | with_reducible exact Sub.of hm (by decide)
    | with_reducible apply State.setCommits_kept
    | with_reducible apply State.disposeAll_kept
    | with_reducible apply kept_ite
    | with_reducible apply kept_foldl
    | with_reducible apply kept_foldl_fst
    | with_reducible apply outKept_next
    | with_reducible apply outKept_ite
    | simp only [kept_mk, true_or]
    | split
    | intro _)

theorem State.reloadShadow_kept {φ : Frame} {s : State} {l : Lane} {lo hi : Nat} (hm : Sub 0x8 φ.fx) (h1 : s.Kept φ) :
    State.Kept φ (s.reloadShadow l lo hi) :=
  State.writeShadows_kept (Sub.of hm (by decide)) (kept_regs h1 (hm.bit 3 rfl) (rfReset_wf _ _ _ h1.regs))

theorem State.resetBlock_kept {φ : Frame} {s : State} {l : Lane} {slot : Nat} (hm : Sub 0x208 φ.fx) (h1 : s.Kept φ) :
    State.Kept φ (s.resetBlock l slot) :=
  kept_commits (kept_regs h1 (hm.bit 3 rfl) (rfReset_wf _ _ _ (rfReset_wf _ _ _ h1.regs))) (hm.bit 9 rfl)

end Sys2Proof.Machine
end

