-- ==== Sys2Proof/Laws/KeptPot.lean ====
section
/-! SUPPORT. The operations of Pot.lean keep the invariant, the queue and the time. -/

namespace Sys2Proof.Machine

theorem State.setPot_kept {φ : Frame} {s : State} {l : Lane} {x : PotIx} {e : Nat} (hm : Sub 0x18 φ.fx) (h1 : s.Kept
    φ) :
    State.Kept φ (State.setPot s l x e) := by
  unfold State.setPot
  try dsimp only
  (repeat' first
    | with_reducible assumption
    | with_reducible exact Sub.of hm (by decide)
    | with_reducible apply State.setFld_kept
    | with_reducible apply State.setBytes_kept
    | with_reducible apply kept_ite
    | with_reducible apply kept_foldl
    | with_reducible apply kept_foldl_fst
    | with_reducible apply outKept_next
    | with_reducible apply outKept_ite
    | simp only [kept_mk, true_or]
    | split
    | intro _)

theorem State.putResp_kept {φ : Frame} {s : State} {r : Req} {data : List Byte} (hm : Sub 0x10 φ.fx) (h1 : s.Kept φ) :
    State.Kept φ (State.putResp s r data) := by
  unfold State.putResp
  try dsimp only
  (repeat' first
    | with_reducible assumption
    | with_reducible exact Sub.of hm (by decide)
    | with_reducible apply State.setBytes_kept
    | with_reducible apply kept_ite
    | with_reducible apply kept_foldl
    | with_reducible apply kept_foldl_fst
    | with_reducible apply outKept_next
    | with_reducible apply outKept_ite
    | simp only [kept_mk, true_or]
    | split
    | intro _)

end Sys2Proof.Machine
end

