-- ==== Sys2Proof/Laws/KeptReset.lean ====
section
/-! SUPPORT. The operations of Reset.lean keep the invariant, the queue and the time. -/

namespace Sys2Proof.Machine

theorem State.clearSlots_kept {φ : Frame} {s : State} {l : Lane} {a2 : List Nat} (hm : Sub 0x208 φ.fx) (h1 : s.Kept φ)
    :
    State.Kept φ (State.clearSlots s l a2) := by
  induction a2 generalizing s l with
  | nil =>
    unfold State.clearSlots
    (repeat' first
    | with_reducible assumption
    | with_reducible exact Sub.of hm (by decide)
    | with_reducible apply State.resetBlock_kept
    | with_reducible apply kept_ite
    | with_reducible apply kept_foldl
    | with_reducible apply kept_foldl_fst
    | with_reducible apply outKept_next
    | with_reducible apply outKept_ite
    | simp only [kept_mk, true_or]
    | split
    | intro _)
  | cons x xs ih =>
    unfold State.clearSlots
    (repeat' first
    | with_reducible assumption
    | with_reducible exact Sub.of hm (by decide)
    | with_reducible apply State.resetBlock_kept
    | with_reducible apply ih
    | with_reducible apply kept_ite
    | with_reducible apply kept_foldl
    | with_reducible apply kept_foldl_fst
    | with_reducible apply outKept_next
    | with_reducible apply outKept_ite
    | simp only [kept_mk, true_or]
    | split
    | intro _)

theorem State.keepLstep_kept {φ : Frame} {s : State} {old : State} {l : Lane} (hm : Sub 0x8 φ.fx) (h1 : s.Kept φ) (h2
    : old.Kept φ) :
    State.Kept φ (State.keepLstep s old l) := by
  unfold State.keepLstep
  try dsimp only
  (repeat' first
    | with_reducible assumption
    | with_reducible exact Sub.of hm (by decide)
    | with_reducible apply State.setReg_kept
    | with_reducible apply State.forEach_kept
    | with_reducible apply kept_ite
    | with_reducible apply kept_foldl
    | with_reducible apply kept_foldl_fst
    | with_reducible apply outKept_next
    | with_reducible apply outKept_ite
    | simp only [kept_mk, true_or]
    | split
    | intro _)

theorem State.keepUpd_kept {φ : Frame} {s : State} {old : State} {l : Lane} (hm : Sub 0x8 φ.fx) (h1 : s.Kept φ) (h2 :
    old.Kept φ) :
    State.Kept φ (State.keepUpd s old l) := by
  unfold State.keepUpd
  try dsimp only
  (repeat' first
    | with_reducible assumption
    | with_reducible exact Sub.of hm (by decide)
    | with_reducible apply State.setReg_kept
    | with_reducible apply kept_ite
    | with_reducible apply kept_foldl
    | with_reducible apply kept_foldl_fst
    | with_reducible apply outKept_next
    | with_reducible apply outKept_ite
    | simp only [kept_mk, true_or]
    | split
    | intro _)

theorem State.keepLhs_kept {φ : Frame} {s : State} {old : State} {l : Lane} {lvl : RLevel} (hm : Sub
    0x6c00000000000000208 φ.fx) (h1 : s.Kept φ) (h2 : old.Kept φ) :
    State.Kept φ (State.keepLhs s old l lvl) := by
  unfold State.keepLhs
  try dsimp only
  (repeat' first
    | with_reducible assumption
    | with_reducible exact Sub.of hm (by decide)
    | with_reducible apply State.resetBlock_kept
    | with_reducible apply State.setReg_kept
    | with_reducible apply State.forEach_kept
    | with_reducible apply kept_ite
    | with_reducible apply kept_foldl
    | with_reducible apply kept_foldl_fst
    | with_reducible apply outKept_next
    | with_reducible apply outKept_ite
    | simp only [kept_mk, hm.bit 70 rfl, hm.bit 71 rfl, hm.bit 73 rfl, hm.bit 74 rfl, or_true, true_or]
    | split
    | intro _)

theorem State.handCommits_kept {φ : Frame} {s : State} {l : Lane} (hm : Sub 0x200 φ.fx) (h1 : s.Kept φ) :
    State.Kept φ (State.handCommits s l) := by
  unfold State.handCommits
  try dsimp only
  (repeat' first
    | with_reducible assumption
    | with_reducible exact Sub.of hm (by decide)
    | with_reducible apply State.setCommits_kept
    | with_reducible apply kept_ite
    | with_reducible apply kept_foldl
    | with_reducible apply kept_foldl_fst
    | with_reducible apply outKept_next
    | with_reducible apply outKept_ite
    | simp only [kept_mk, true_or]
    | split
    | intro _)

theorem State.clearCanRx_kept {φ : Frame} {s : State} {l : Lane} (hm : Sub 0x300000000000 φ.fx) (h1 : s.Kept φ) : State.Kept φ (s.clearCanRx l) := by
  cases l
  · exact kept_canRxE h1 (hm.bit 44 rfl) (List.length_replicate ..)
  · exact kept_canRxW h1 (hm.bit 45 rfl) (List.length_replicate ..)

theorem State.dropCanHeld_kept {φ : Frame} {s : State} (hm : Sub 0x400000000000 φ.fx) (h1 : s.Kept φ) : State.Kept φ s.dropCanHeld :=
  kept_canPorts h1 (hm.bit 46 rfl) ((List.length_map ..).trans h1.shape.canPorts)

theorem State.dropParCfg_kept {φ : Frame} {s : State} {l : Lane} (hm : Sub 0x208 φ.fx) (h1 : s.Kept φ) : State.Kept φ (s.dropParCfg l) :=
  kept_commits (kept_regs h1 (hm.bit 3 rfl) (rfReset_wf _ _ _ (rfReset_wf _ _ _ h1.regs))) (hm.bit 9 rfl)

theorem State.clearEngines_kept {φ : Frame} {s : State} {l : Lane} (hm : Sub 0x1ce0fafc00000000 φ.fx) (h1 : s.Kept φ)
    :
    State.Kept φ (State.clearEngines s l) := by
  unfold State.clearEngines
  try dsimp only
  (repeat' first
    | with_reducible assumption
    | with_reducible exact Sub.of hm (by decide)
    | with_reducible apply State.clearCanRx_kept
    | with_reducible apply State.dropCanHeld_kept
    | with_reducible apply kept_ite
    | with_reducible apply kept_foldl
    | with_reducible apply kept_foldl_fst
    | with_reducible apply outKept_next
    | with_reducible apply outKept_ite
    | simp only [kept_mk, hm.bit 34 rfl, hm.bit 35 rfl, hm.bit 36 rfl, hm.bit 37 rfl, hm.bit 38 rfl, hm.bit 39 rfl,
      hm.bit 41 rfl, hm.bit 43 rfl, hm.bit 47 rfl, hm.bit 53 rfl, hm.bit 54 rfl, hm.bit 55 rfl, hm.bit 58 rfl,
      hm.bit 59 rfl, hm.bit 60 rfl, or_true, true_or]
    | split
    | intro _)

theorem State.keepClocks_kept {φ : Frame} {s : State} {old : State} {l : Lane} {lvl : RLevel} (hm : Sub 0x8 φ.fx) (h1
    : s.Kept φ) (h2 : old.Kept φ) :
    State.Kept φ (State.keepClocks s old l lvl) := by
  unfold State.keepClocks
  try dsimp only
  (repeat' first
    | with_reducible assumption
    | with_reducible exact Sub.of hm (by decide)
    | with_reducible apply State.setReg_kept
    | with_reducible apply kept_ite
    | with_reducible apply kept_foldl
    | with_reducible apply kept_foldl_fst
    | with_reducible apply outKept_next
    | with_reducible apply outKept_ite
    | simp only [kept_mk, true_or]
    | split
    | intro _)

theorem State.clearDeep_kept {φ : Frame} {s : State} {l : Lane} {lvl : RLevel} (hm : Sub 0x6cfdce0fafc00580318 φ.fx)
    (h1 : s.Kept φ) :
    State.Kept φ (State.clearDeep s l lvl) := by
  unfold State.clearDeep
  try dsimp only
  (repeat' first
    | with_reducible assumption
    | with_reducible exact Sub.of hm (by decide)
    | with_reducible apply State.setReg_kept
    | with_reducible apply State.handCommits_kept
    | with_reducible apply State.keepClocks_kept
    | with_reducible apply State.setLane_kept
    | with_reducible apply State.reloadShadow_kept
    | with_reducible apply State.dropParCfg_kept
    | with_reducible apply State.keepUpd_kept
    | with_reducible apply State.clearMem_kept
    | with_reducible apply State.keepLstep_kept
    | with_reducible apply State.keepLhs_kept
    | with_reducible apply State.clearSlots_kept
    | with_reducible apply State.forEach_kept
    | with_reducible apply State.clearEngines_kept
    | with_reducible apply State.disposeAll_kept
    | with_reducible apply kept_ite
    | with_reducible apply kept_foldl
    | with_reducible apply kept_foldl_fst
    | with_reducible apply outKept_next
    | with_reducible apply outKept_ite
    | simp only [kept_mk, hm.bit 22 rfl, hm.bit 62 rfl, hm.bit 63 rfl, hm.bit 64 rfl, hm.bit 65 rfl, hm.bit 66 rfl,
      hm.bit 67 rfl, or_true, true_or]
    | split
    | intro _)

theorem State.assertDown_kept {φ : Frame} {s : State} {l : Lane} (hm : Sub 0x20000 φ.fx) (h1 : s.Kept φ) :
    State.Kept φ (State.assertDown s l) := by
  unfold State.assertDown
  try dsimp only
  (repeat' first
    | with_reducible assumption
    | with_reducible exact Sub.of hm (by decide)
    | with_reducible apply kept_ite
    | with_reducible apply kept_foldl
    | with_reducible apply kept_foldl_fst
    | with_reducible apply outKept_next
    | with_reducible apply outKept_ite
    | simp only [kept_mk, hm.bit 17 rfl, or_true, true_or]
    | split
    | intro _)

theorem State.releaseDown_kept {φ : Frame} {s : State} {l : Lane} (hm : Sub 0x20000 φ.fx) (h1 : s.Kept φ) :
    State.Kept φ (State.releaseDown s l) := by
  unfold State.releaseDown
  try dsimp only
  (repeat' first
    | with_reducible assumption
    | with_reducible exact Sub.of hm (by decide)
    | with_reducible apply kept_ite
    | with_reducible apply kept_foldl
    | with_reducible apply kept_foldl_fst
    | with_reducible apply outKept_next
    | with_reducible apply outKept_ite
    | simp only [kept_mk, hm.bit 17 rfl, or_true, true_or]
    | split
    | intro _)

theorem State.setUpdSt_kept {φ : Frame} {s : State} {v : Nat} (hm : Sub 0x10000000000000000008 φ.fx) (h1 : s.Kept φ) :
    State.Kept φ (State.setUpdSt s v) := by
  unfold State.setUpdSt
  try dsimp only
  (repeat' first
    | with_reducible assumption
    | with_reducible exact Sub.of hm (by decide)
    | with_reducible apply State.setFldBoth_kept
    | with_reducible apply kept_ite
    | with_reducible apply kept_foldl
    | with_reducible apply kept_foldl_fst
    | with_reducible apply outKept_next
    | with_reducible apply outKept_ite
    | simp only [kept_mk, hm.bit 76 rfl, or_true, true_or]
    | split
    | intro _)

theorem State.startRevert_kept {φ : Frame} {s : State} (hm : Sub 0x10014000000000000108 φ.fx) (h1 : s.Kept φ) :
    State.Kept φ (State.startRevert s) := by
  unfold State.startRevert
  try dsimp only
  (repeat' first
    | with_reducible assumption
    | with_reducible exact Sub.of hm (by decide)
    | with_reducible apply State.countBoth_kept
    | with_reducible apply State.setUpdSt_kept
    | with_reducible apply State.setFldBoth_kept
    | with_reducible apply State.disposeAll_kept
    | with_reducible apply kept_ite
    | with_reducible apply kept_foldl
    | with_reducible apply kept_foldl_fst
    | with_reducible apply outKept_next
    | with_reducible apply outKept_ite
    | simp only [kept_mk, hm.bit 76 rfl, or_true, true_or]
    | split
    | intro _)

theorem State.syncPairs_kept {φ : Frame} {s : State} {l : Lane} (hm : Sub 0x8 φ.fx) (h1 : s.Kept φ) :
    State.Kept φ (State.syncPairs s l) := by
  unfold State.syncPairs
  try dsimp only
  (repeat' first
    | with_reducible assumption
    | with_reducible exact Sub.of hm (by decide)
    | with_reducible apply State.setBitF_kept
    | with_reducible apply State.forEach_kept
    | with_reducible apply kept_ite
    | with_reducible apply kept_foldl
    | with_reducible apply kept_foldl_fst
    | with_reducible apply outKept_next
    | with_reducible apply outKept_ite
    | simp only [kept_mk, true_or]
    | split
    | intro _)

theorem State.laneReset_kept {φ : Frame} {s : State} {l : Lane} {lvl : RLevel} {cause : Nat} {detail : Nat} (hm : Sub
    0x16cfdce0fafc005a0358 φ.fx) (h1 : s.Kept φ) :
    State.Kept φ (State.laneReset s l lvl cause detail) := by
  unfold State.laneReset
  try dsimp only
  (repeat' first
    | with_reducible assumption
    | with_reducible exact Sub.of hm (by decide)
    | with_reducible apply State.setReg_kept
    | with_reducible apply State.startRevert_kept
    | with_reducible apply State.clearDeep_kept
    | with_reducible apply State.setLane_kept
    | with_reducible apply State.setBitF_kept
    | with_reducible apply State.syncPairs_kept
    | with_reducible apply State.setLst_kept
    | with_reducible apply State.assertDown_kept
    | with_reducible apply State.syncMode_kept
    | with_reducible apply State.count_kept
    | with_reducible apply State.setServing_kept
    | with_reducible apply kept_ite
    | with_reducible apply kept_foldl
    | with_reducible apply kept_foldl_fst
    | with_reducible apply outKept_next
    | with_reducible apply outKept_ite
    | simp only [kept_mk, hm.bit 6 rfl, or_true, true_or]
    | split
    | intro _)

theorem State.closeSession_kept {φ : Frame} {s : State} {m : Nat} (hm : Sub 0x600008 φ.fx) (h1 : s.Kept φ) : State.Kept φ (s.closeSession m) := by
  have h : (s.setRegBoth (R.SCSM_RS_STATUS m) 0).Kept φ := State.setRegBoth_kept (Sub.of hm (by decide)) h1
  exact kept_scs (kept_sessions h (hm.bit 21 rfl) ((List.length_mapIdx ..).trans h.shape.sessions)) (hm.bit 22 rfl)

theorem State.setSec_kept {φ : Frame} {s : State} {l : Lane} {x : SecRt} (hm : Sub 0xc00000000000000000 φ.fx) (h1 :
    s.Kept φ) :
    State.Kept φ (State.setSec s l x) := by
  unfold State.setSec
  try dsimp only
  (repeat' first
    | with_reducible assumption
    | with_reducible exact Sub.of hm (by decide)
    | with_reducible apply kept_ite
    | with_reducible apply kept_foldl
    | with_reducible apply kept_foldl_fst
    | with_reducible apply outKept_next
    | with_reducible apply outKept_ite
    | simp only [kept_mk, hm.bit 70 rfl, hm.bit 71 rfl, or_true, true_or]
    | split
    | intro _)

theorem State.dropSas_kept {φ : Frame} {s : State} {p : Sa → Bool} (hm : Sub 0x20000000000008 φ.fx) (h1 : s.Kept φ) :
    State.Kept φ (State.dropSas s p) := by
  unfold State.dropSas
  try dsimp only
  (repeat' first
    | with_reducible assumption
    | with_reducible exact Sub.of hm (by decide)
    | with_reducible apply State.setShBit_kept
    | with_reducible apply State.forEach_kept
    | with_reducible apply kept_ite
    | with_reducible apply kept_foldl
    | with_reducible apply kept_foldl_fst
    | with_reducible apply outKept_next
    | with_reducible apply outKept_ite
    | simp only [kept_mk, hm.bit 53 rfl, or_true, true_or]
    | split
    | intro _)

theorem State.endUses_kept {φ : Frame} {s : State} {k : Nat} (hm : Sub 0x20000000600008 φ.fx) (h1 : s.Kept φ) :
    State.Kept φ (State.endUses s k) := by
  unfold State.endUses
  try dsimp only
  (repeat' first
    | with_reducible assumption
    | with_reducible exact Sub.of hm (by decide)
    | with_reducible apply State.dropSas_kept
    | with_reducible apply State.closeSession_kept
    | with_reducible apply State.forEach_kept
    | with_reducible apply kept_ite
    | with_reducible apply kept_foldl
    | with_reducible apply kept_foldl_fst
    | with_reducible apply outKept_next
    | with_reducible apply outKept_ite
    | simp only [kept_mk, true_or]
    | split
    | intro _)

theorem State.clearKey_kept {φ : Frame} {s : State} {l : Lane} {k : Nat} (hm : Sub 0xc00000000000000008 φ.fx) (h1 :
    s.Kept φ) :
    State.Kept φ (State.clearKey s l k) := by
  unfold State.clearKey
  try dsimp only
  (repeat' first
    | with_reducible assumption
    | with_reducible exact Sub.of hm (by decide)
    | with_reducible apply State.setReg_kept
    | with_reducible apply State.setSec_kept
    | with_reducible apply kept_ite
    | with_reducible apply kept_foldl
    | with_reducible apply kept_foldl_fst
    | with_reducible apply outKept_next
    | with_reducible apply outKept_ite
    | simp only [kept_mk, true_or]
    | split
    | intro _)

theorem State.eraseKey_kept {φ : Frame} {s : State} {k : Nat} (hm : Sub 0xc00020000000600008 φ.fx) (h1 : s.Kept φ) :
    State.Kept φ (State.eraseKey s k) := by
  unfold State.eraseKey
  try dsimp only
  (repeat' first
    | with_reducible assumption
    | with_reducible exact Sub.of hm (by decide)
    | with_reducible apply State.clearKey_kept
    | with_reducible apply State.endUses_kept
    | with_reducible apply kept_ite
    | with_reducible apply kept_foldl
    | with_reducible apply kept_foldl_fst
    | with_reducible apply outKept_next
    | with_reducible apply outKept_ite
    | simp only [kept_mk, true_or]
    | split
    | intro _)

theorem State.putKey_kept {φ : Frame} {s : State} {k : Nat} {info : Nat} {key : List Byte} (hm : Sub
    0xc00000000000000008 φ.fx) (h1 : s.Kept φ) :
    State.Kept φ (State.putKey s k info key) := by
  unfold State.putKey
  try dsimp only
  (repeat' first
    | with_reducible assumption
    | with_reducible exact Sub.of hm (by decide)
    | with_reducible apply State.setReg_kept
    | with_reducible apply State.setSec_kept
    | with_reducible apply kept_ite
    | with_reducible apply kept_foldl
    | with_reducible apply kept_foldl_fst
    | with_reducible apply outKept_next
    | with_reducible apply outKept_ite
    | simp only [kept_mk, true_or]
    | split
    | intro _)

theorem State.failWrites_kept {φ : Frame} {s : State} (hm : Sub 0x1014000000000000108 φ.fx) (h1 : s.Kept φ) :
    State.Kept φ (State.failWrites s) := by
  unfold State.failWrites
  try dsimp only
  (repeat' first
    | with_reducible assumption
    | with_reducible exact Sub.of hm (by decide)
    | with_reducible apply State.disposeAll_kept
    | with_reducible apply kept_ite
    | with_reducible apply kept_foldl
    | with_reducible apply kept_foldl_fst
    | with_reducible apply outKept_next
    | with_reducible apply outKept_ite
    | simp only [kept_mk, hm.bit 72 rfl, or_true, true_or]
    | split
    | intro _)

theorem State.beforeErase_kept {φ : Frame} {s : State} (hm : Sub 0x1c14000000000000108 φ.fx) (h1 : s.Kept φ) :
    State.Kept φ (State.beforeErase s) := by
  unfold State.beforeErase
  try dsimp only
  (repeat' first
    | with_reducible assumption
    | with_reducible exact Sub.of hm (by decide)
    | with_reducible apply State.putKey_kept
    | with_reducible apply State.done_kept
    | with_reducible apply State.failWrites_kept
    | with_reducible apply kept_ite
    | with_reducible apply kept_foldl
    | with_reducible apply kept_foldl_fst
    | with_reducible apply outKept_next
    | with_reducible apply outKept_ite
    | simp only [kept_mk, hm.bit 72 rfl, or_true, true_or]
    | split
    | intro _)

theorem State.eraseVolatile_kept {φ : Frame} {s : State} (hm : Sub 0xc00020000000600008 φ.fx) (h1 : s.Kept φ) :
    State.Kept φ (State.eraseVolatile s) := by
  unfold State.eraseVolatile
  try dsimp only
  (repeat' first
    | with_reducible assumption
    | with_reducible exact Sub.of hm (by decide)
    | with_reducible apply State.eraseKey_kept
    | with_reducible apply State.forEach_kept
    | with_reducible apply kept_ite
    | with_reducible apply kept_foldl
    | with_reducible apply kept_foldl_fst
    | with_reducible apply outKept_next
    | with_reducible apply outKept_ite
    | simp only [kept_mk, true_or]
    | split
    | intro _)

theorem State.eraseAll_kept {φ : Frame} {s : State} (hm : Sub 0xc00020000000600008 φ.fx) (h1 : s.Kept φ) :
    State.Kept φ (State.eraseAll s) := by
  unfold State.eraseAll
  try dsimp only
  (repeat' first
    | with_reducible assumption
    | with_reducible exact Sub.of hm (by decide)
    | with_reducible apply State.setBitBoth_kept
    | with_reducible apply State.eraseKey_kept
    | with_reducible apply State.forEach_kept
    | with_reducible apply kept_ite
    | with_reducible apply kept_foldl
    | with_reducible apply kept_foldl_fst
    | with_reducible apply outKept_next
    | with_reducible apply outKept_ite
    | simp only [kept_mk, true_or]
    | split
    | intro _)

theorem State.tamperRespond_kept {φ : Frame} {s : State} {l : Lane} {sensor : Nat} {level : Nat} (hm : Sub
    0x17cfdce0fafc007a0358 φ.fx) (h1 : s.Kept φ) :
    State.Kept φ (State.tamperRespond s l sensor level) := by
  unfold State.tamperRespond
  try dsimp only
  (repeat' first
    | with_reducible assumption
    | with_reducible exact Sub.of hm (by decide)
    | with_reducible apply State.beforeErase_kept
    | with_reducible apply State.dropSas_kept
    | with_reducible apply State.laneReset_kept
    | with_reducible apply State.closeSession_kept
    | with_reducible apply State.eraseVolatile_kept
    | with_reducible apply State.forEach_kept
    | with_reducible apply State.alarm_kept
    | with_reducible apply State.eraseAll_kept
    | with_reducible apply kept_ite
    | with_reducible apply kept_foldl
    | with_reducible apply kept_foldl_fst
    | with_reducible apply outKept_next
    | with_reducible apply outKept_ite
    | simp only [kept_mk, true_or]
    | split
    | intro _)

theorem State.tamper_kept {φ : Frame} {s : State} {l : Lane} {sensor : Nat} (hm : Sub 0x17efdce0fafc007a035c φ.fx) (h1
    : s.Kept φ) :
    State.Kept φ (State.tamper s l sensor) := by
  unfold State.tamper
  try dsimp only
  (repeat' first
    | with_reducible assumption
    | with_reducible exact Sub.of hm (by decide)
    | with_reducible apply State.setReg_kept
    | with_reducible apply State.setFld_kept
    | with_reducible apply State.countFld_kept
    | with_reducible apply State.tickFree_kept
    | with_reducible apply State.tamperRespond_kept
    | with_reducible apply kept_ite
    | with_reducible apply kept_foldl
    | with_reducible apply kept_foldl_fst
    | with_reducible apply outKept_next
    | with_reducible apply outKept_ite
    | simp only [kept_mk, hm.bit 69 rfl, or_true, true_or]
    | split
    | intro _)

theorem State.policy_kept {φ : Frame} {s : State} {l : Lane} {source : Nat} {target : Nat} {part : Nat} {w : World}
    (hm : Sub 0x17efdce0fafc007a035c φ.fx) (h1 : s.Kept φ) :
    State.Kept φ (State.policy s l source target part w) := by
  unfold State.policy
  try dsimp only
  (repeat' first
    | with_reducible assumption
    | with_reducible exact Sub.of hm (by decide)
    | with_reducible apply State.setReg_kept
    | with_reducible apply State.setSec_kept
    | with_reducible apply State.tamper_kept
    | with_reducible apply kept_ite
    | with_reducible apply kept_foldl
    | with_reducible apply kept_foldl_fst
    | with_reducible apply outKept_next
    | with_reducible apply outKept_ite
    | simp only [kept_mk, true_or]
    | split
    | intro _)

end Sys2Proof.Machine
end

