-- ==== Sys2Proof/Laws/KeptScs.lean ====
section
/-! SUPPORT. The operations of Scs.lean keep the invariant, the queue and the time. -/

namespace Sys2Proof.Machine

theorem State.takeInbox_kept {φ : Frame} {s : State} {r : Req} (hm : Sub 0x400000 φ.fx) (h1 : s.Kept φ) :
    State.Kept φ (State.takeInbox s r) := by
  unfold State.takeInbox
  try dsimp only
  (repeat' first
    | with_reducible assumption
    | with_reducible exact Sub.of hm (by decide)
    | with_reducible apply kept_ite
    | with_reducible apply kept_foldl
    | with_reducible apply kept_foldl_fst
    | with_reducible apply outKept_next
    | with_reducible apply outKept_ite
    | simp only [kept_mk, hm.bit 22 rfl, or_true, true_or]
    | split
    | intro _)

theorem State.setSession_kept {φ : Frame} {s : State} {m : Nat} {x : Session} (hm : Sub 0x200000 φ.fx) (h : s.Kept φ) :
    State.Kept φ (State.setSession s m x) :=
  kept_sessions h (hm.bit 21 rfl) ((List.length_set ..).trans h.shape.sessions)

theorem State.sessionSent_kept {φ : Frame} {s : State} {n : Nat} {bytes : Nat} (hm : Sub 0x600008 φ.fx) (h1 : s.Kept
    φ) :
    State.Kept φ (State.sessionSent s n bytes) := by
  unfold State.sessionSent
  try dsimp only
  (repeat' first
    | with_reducible assumption
    | with_reducible exact Sub.of hm (by decide)
    | with_reducible apply State.setSession_kept
    | with_reducible apply State.closeSession_kept
    | with_reducible apply kept_ite
    | with_reducible apply kept_foldl
    | with_reducible apply kept_foldl_fst
    | with_reducible apply outKept_next
    | with_reducible apply outKept_ite
    | simp only [kept_mk, true_or]
    | split
    | intro _)

theorem State.putImage_kept {φ : Frame} {s : State} {r : Req} {mb : Nat} {img : List Byte} (hm : Sub 0x48 φ.fx) (h1 :
    s.Kept φ) :
    State.Kept φ (State.putImage s r mb img) := by
  unfold State.putImage
  try dsimp only
  (repeat' first
    | with_reducible assumption
    | with_reducible exact Sub.of hm (by decide)
    | with_reducible apply State.irq_kept
    | with_reducible apply State.setFld_kept
    | with_reducible apply State.setRegs_kept
    | with_reducible apply kept_ite
    | with_reducible apply kept_foldl
    | with_reducible apply kept_foldl_fst
    | with_reducible apply outKept_next
    | with_reducible apply outKept_ite
    | simp only [kept_mk, true_or]
    | split
    | intro _)

theorem State.respondMb_kept {φ : Frame} {s : State} {r : Req} {l : Lane} {mb : Nat} {status : Nat} {lsn : Nat} {data
    : List Byte} (hm : Sub 0x58 φ.fx) (h1 : s.Kept φ) :
    State.Kept φ (State.respondMb s r l mb status lsn data) := by
  unfold State.respondMb
  try dsimp only
  (repeat' first
    | with_reducible assumption
    | with_reducible exact Sub.of hm (by decide)
    | with_reducible apply State.putResp_kept
    | with_reducible apply State.putImage_kept
    | with_reducible apply kept_ite
    | with_reducible apply kept_foldl
    | with_reducible apply kept_foldl_fst
    | with_reducible apply outKept_next
    | with_reducible apply outKept_ite
    | simp only [kept_mk, true_or]
    | split
    | intro _)

theorem State.respondSession_kept {φ : Frame} {s : State} {r : Req} {l : Lane} {n : Nat} {status : Nat} {lsn : Nat}
    {data : List Byte} (hm : Sub 0x600088 φ.fx) (h1 : s.Kept φ) :
    State.Kept φ (State.respondSession s r l n status lsn data) := by
  unfold State.respondSession
  try dsimp only
  (repeat' first
    | with_reducible assumption
    | with_reducible exact Sub.of hm (by decide)
    | with_reducible apply State.sessionSent_kept
    | with_reducible apply State.setFldBoth_kept
    | with_reducible apply State.emit_kept
    | with_reducible apply kept_ite
    | with_reducible apply kept_foldl
    | with_reducible apply kept_foldl_fst
    | with_reducible apply outKept_next
    | with_reducible apply outKept_ite
    | simp only [kept_mk, true_or]
    | split
    | intro _)

theorem State.respond_kept {φ : Frame} {s : State} {r : Req} {status : Nat} {lsn : Nat} {data : List Byte} (hm : Sub
    0x6000d8 φ.fx) (h1 : s.Kept φ) :
    State.Kept φ (State.respond s r status lsn data) := by
  unfold State.respond
  try dsimp only
  (repeat' first
    | with_reducible assumption
    | with_reducible exact Sub.of hm (by decide)
    | with_reducible apply State.takeInbox_kept
    | with_reducible apply State.respondMb_kept
    | with_reducible apply State.respondSession_kept
    | with_reducible apply kept_ite
    | with_reducible apply kept_foldl
    | with_reducible apply kept_foldl_fst
    | with_reducible apply outKept_next
    | with_reducible apply outKept_ite
    | simp only [kept_mk, true_or]
    | split
    | intro _)

theorem State.refuse_kept {φ : Frame} {s : State} {r : Req} {status : Nat} (hm : Sub 0x6000d8 φ.fx) (h1 : s.Kept φ) :
    State.Kept φ (State.refuse s r status) := by
  unfold State.refuse
  try dsimp only
  (repeat' first
    | with_reducible assumption
    | with_reducible exact Sub.of hm (by decide)
    | with_reducible apply State.setFld_kept
    | with_reducible apply State.setBitF_kept
    | with_reducible apply State.countFld_kept
    | with_reducible apply State.respond_kept
    | with_reducible apply State.count_kept
    | with_reducible apply kept_ite
    | with_reducible apply kept_foldl
    | with_reducible apply kept_foldl_fst
    | with_reducible apply outKept_next
    | with_reducible apply outKept_ite
    | simp only [kept_mk, true_or]
    | split
    | intro _)

theorem State.accept_kept {φ : Frame} {s : State} {opcode : Nat} {r : Req} (hm : Sub 0x108 φ.fx) (h1 : s.Kept φ) :
    State.Kept φ (State.accept s opcode r) := by
  unfold State.accept
  try dsimp only
  (repeat' first
    | with_reducible assumption
    | with_reducible exact Sub.of hm (by decide)
    | with_reducible apply State.syncLedg_kept
    | with_reducible apply State.countBoth_kept
    | with_reducible apply State.syncQuota_kept
    | with_reducible apply State.setLed_kept
    | with_reducible refine Ledger.Fresh.same (State.Kept.led (φ := φ) ?_)
    | with_reducible refine Ledger.Fresh.filter (State.Kept.led (φ := φ) ?_)
    | with_reducible refine Ledger.Fresh.map (State.Kept.led (φ := φ) ?_) ?_
    | with_reducible refine Ledger.Fresh.push (State.Kept.led (φ := φ) ?_) ?_
    | with_reducible apply kept_ite
    | with_reducible apply kept_foldl
    | with_reducible apply kept_foldl_fst
    | with_reducible apply outKept_next
    | with_reducible apply outKept_ite
    | simp only [kept_mk, true_or]
    | with_reducible refine Ledger.Fresh.same (State.Kept.led (φ := φ) ?_)
    | with_reducible refine Ledger.Fresh.filter (State.Kept.led (φ := φ) ?_)
    | with_reducible refine Ledger.Fresh.map (State.Kept.led (φ := φ) ?_) ?_
    | with_reducible refine Ledger.Fresh.push (State.Kept.led (φ := φ) ?_) ?_
    | with_reducible rfl
    | split
    | intro _)

theorem State.countFull_kept {φ : Frame} {s : State} {r : Req} {status : Nat} (hm : Sub 0x8 φ.fx) (h1 : s.Kept φ) :
    State.Kept φ (State.countFull s r status) := by
  unfold State.countFull
  try dsimp only
  (repeat' first
    | with_reducible assumption
    | with_reducible exact Sub.of hm (by decide)
    | with_reducible apply State.countBoth_kept
    | with_reducible apply State.setBitBoth_kept
    | with_reducible apply State.setFldBoth_kept
    | with_reducible apply kept_ite
    | with_reducible apply kept_foldl
    | with_reducible apply kept_foldl_fst
    | with_reducible apply outKept_next
    | with_reducible apply outKept_ite
    | simp only [kept_mk, true_or]
    | split
    | intro _)

theorem issue_kept {φ : Frame} {c : CmdSpec} {s : State} {r : Req} {lsn : Nat} (hm : Sub 0x14000000000000108 φ.fx) (hc
    : CmdSpec.Kept φ c) (h1 : s.Kept φ) :
    State.Kept φ (issue c s r lsn) := by
  unfold issue
  try dsimp only
  (repeat' first
    | with_reducible assumption
    | with_reducible exact Sub.of hm (by decide)
    | with_reducible apply CmdSpec.exec_kept
    | with_reducible apply State.failed_kept
    | with_reducible apply State.begin_kept
    | refine hc.exec _ _ _ ?_
    | refine hc.effect _ _ ?_
    | refine hc.before _ _ ?_
    | refine hc.onRefuse _ _ _ ?_
    | with_reducible apply kept_ite
    | with_reducible apply kept_foldl
    | with_reducible apply kept_foldl_fst
    | with_reducible apply outKept_next
    | with_reducible apply outKept_ite
    | simp only [kept_mk, true_or]
    | split
    | intro _)

theorem startNow_kept {φ : Frame} {c : CmdSpec} {s : State} {r : Req} {lsn : Nat} (hm : Sub 0x14000000000000108 φ.fx)
    (hc : CmdSpec.Kept φ c) (h1 : s.Kept φ) :
    State.Kept φ (startNow c s r lsn) := by
  unfold startNow
  try dsimp only
  (repeat' first
    | with_reducible assumption
    | with_reducible exact Sub.of hm (by decide)
    | with_reducible apply issue_kept
    | refine hc.exec _ _ _ ?_
    | refine hc.effect _ _ ?_
    | refine hc.before _ _ ?_
    | refine hc.onRefuse _ _ _ ?_
    | with_reducible apply kept_ite
    | with_reducible apply kept_foldl
    | with_reducible apply kept_foldl_fst
    | with_reducible apply outKept_next
    | with_reducible apply outKept_ite
    | simp only [kept_mk, true_or]
    | split
    | intro _)

theorem answerAccepted_kept {φ : Frame} {c : CmdSpec} {s : State} {r : Req} {lsn : Nat} (hm : Sub 0x6001d8 φ.fx) (hc :
    CmdSpec.Kept φ c) (h1 : s.Kept φ) :
    State.Kept φ (answerAccepted c s r lsn) := by
  unfold answerAccepted
  try dsimp only
  (repeat' first
    | with_reducible assumption
    | with_reducible exact Sub.of hm (by decide)
    | with_reducible apply State.syncLedg_kept
    | with_reducible apply State.mapEntry_kept
    | with_reducible apply State.syncQuota_kept
    | with_reducible apply State.respond_kept
    | with_reducible apply State.setLed_kept
    | refine hc.exec _ _ _ ?_
    | refine hc.effect _ _ ?_
    | refine hc.before _ _ ?_
    | refine hc.onRefuse _ _ _ ?_
    | with_reducible refine Ledger.Fresh.same (State.Kept.led (φ := φ) ?_)
    | with_reducible refine Ledger.Fresh.filter (State.Kept.led (φ := φ) ?_)
    | with_reducible refine Ledger.Fresh.map (State.Kept.led (φ := φ) ?_) ?_
    | with_reducible refine Ledger.Fresh.push (State.Kept.led (φ := φ) ?_) ?_
    | with_reducible apply kept_ite
    | with_reducible apply kept_foldl
    | with_reducible apply kept_foldl_fst
    | with_reducible apply outKept_next
    | with_reducible apply outKept_ite
    | simp only [kept_mk, true_or]
    | with_reducible refine Ledger.Fresh.same (State.Kept.led (φ := φ) ?_)
    | with_reducible refine Ledger.Fresh.filter (State.Kept.led (φ := φ) ?_)
    | with_reducible refine Ledger.Fresh.map (State.Kept.led (φ := φ) ?_) ?_
    | with_reducible refine Ledger.Fresh.push (State.Kept.led (φ := φ) ?_) ?_
    | with_reducible rfl
    | split
    | intro _)

theorem acceptCmd_kept {φ : Frame} {c : CmdSpec} {s : State} {r : Req} (hm : Sub 0x140000000006001d8 φ.fx) (hc :
    CmdSpec.Kept φ c) (h1 : s.Kept φ) :
    State.Kept φ (acceptCmd c s r) := by
  unfold acceptCmd
  try dsimp only
  (repeat' first
    | with_reducible assumption
    | with_reducible exact Sub.of hm (by decide)
    | with_reducible apply startNow_kept
    | with_reducible apply answerAccepted_kept
    | with_reducible apply State.accept_kept
    | refine hc.exec _ _ _ ?_
    | refine hc.effect _ _ ?_
    | refine hc.before _ _ ?_
    | refine hc.onRefuse _ _ _ ?_
    | with_reducible apply kept_ite
    | with_reducible apply kept_foldl
    | with_reducible apply kept_foldl_fst
    | with_reducible apply outKept_next
    | with_reducible apply outKept_ite
    | simp only [kept_mk, true_or]
    | split
    | intro _)

theorem demoteUrgent_kept {φ : Frame} {s : State} {r : Req} (hm : Sub 0x8 φ.fx) (h1 : s.Kept φ) :
    State.Kept φ (demoteUrgent s r).1 := by
  unfold demoteUrgent
  try dsimp only
  (repeat' first
    | with_reducible assumption
    | with_reducible exact Sub.of hm (by decide)
    | with_reducible apply State.count_kept
    | with_reducible apply kept_ite
    | with_reducible apply kept_foldl
    | with_reducible apply kept_foldl_fst
    | with_reducible apply outKept_next
    | with_reducible apply outKept_ite
    | simp only [kept_mk, true_or]
    | split
    | intro _)

theorem State.keepReq_kept {φ : Frame} {s : State} {opcode : Nat} {r : Req} (hm : Sub 0x400000 φ.fx) (h1 : s.Kept φ) :
    State.Kept φ (State.keepReq s opcode r) := by
  unfold State.keepReq
  try dsimp only
  (repeat' first
    | with_reducible assumption
    | with_reducible exact Sub.of hm (by decide)
    | with_reducible apply State.takeInbox_kept
    | with_reducible apply kept_ite
    | with_reducible apply kept_foldl
    | with_reducible apply kept_foldl_fst
    | with_reducible apply outKept_next
    | with_reducible apply outKept_ite
    | simp only [kept_mk, hm.bit 22 rfl, or_true, true_or]
    | split
    | intro _)

theorem noteWorld_kept {φ : Frame} {c : CmdSpec} {s : State} {r : Req} {st : Nat} (hm : Sub 0x17efdce0fafc007a035c
    φ.fx) (hc : CmdSpec.Kept φ c) (h1 : s.Kept φ) :
    State.Kept φ (noteWorld c s r st) := by
  unfold noteWorld
  try dsimp only
  (repeat' first
    | with_reducible assumption
    | with_reducible exact Sub.of hm (by decide)
    | with_reducible apply State.policy_kept
    | refine hc.exec _ _ _ ?_
    | refine hc.effect _ _ ?_
    | refine hc.before _ _ ?_
    | refine hc.onRefuse _ _ _ ?_
    | with_reducible apply kept_ite
    | with_reducible apply kept_foldl
    | with_reducible apply kept_foldl_fst
    | with_reducible apply outKept_next
    | with_reducible apply outKept_ite
    | simp only [kept_mk, true_or]
    | split
    | intro _)

theorem runCmd_kept {φ : Frame} {c : CmdSpec} {s : State} {r : Req} (hm : Sub 0x17efdce0fafc007a03dc φ.fx) (hc :
    CmdSpec.Kept φ c) (h1 : s.Kept φ) :
    State.Kept φ (runCmd c s r) := by
  unfold runCmd
  try dsimp only
  (repeat' first
    | with_reducible assumption
    | with_reducible exact Sub.of hm (by decide)
    | with_reducible apply CmdSpec.onRefuse_kept
    | with_reducible apply State.keepReq_kept
    | with_reducible apply State.countFull_kept
    | with_reducible apply CmdSpec.before_kept
    | with_reducible apply State.countBoth_kept
    | with_reducible apply State.refuse_kept
    | with_reducible apply State.respond_kept
    | with_reducible apply CmdSpec.effect_kept
    | with_reducible apply acceptCmd_kept
    | with_reducible apply State.count_kept
    | with_reducible apply demoteUrgent_kept
    | with_reducible apply noteWorld_kept
    | refine hc.exec _ _ _ ?_
    | refine hc.effect _ _ ?_
    | refine hc.before _ _ ?_
    | refine hc.onRefuse _ _ _ ?_
    | with_reducible apply kept_ite
    | with_reducible apply kept_foldl
    | with_reducible apply kept_foldl_fst
    | with_reducible apply outKept_next
    | with_reducible apply outKept_ite
    | simp only [kept_mk, true_or]
    | split
    | intro _)

theorem runScs_kept {φ : Frame} {c : CmdSpec} {r : Req} {s : State} (hm : Sub 0x17efdce0fafc007a03dc φ.fx) (hc :
    CmdSpec.Kept φ c) (h1 : s.Kept φ) :
    OutKept φ (runScs c r s) := by
  unfold runScs
  try dsimp only
  (repeat' first
    | with_reducible assumption
    | with_reducible exact Sub.of hm (by decide)
    | with_reducible apply runCmd_kept
    | refine hc.exec _ _ _ ?_
    | refine hc.effect _ _ ?_
    | refine hc.before _ _ ?_
    | refine hc.onRefuse _ _ _ ?_
    | with_reducible apply kept_ite
    | with_reducible apply kept_foldl
    | with_reducible apply kept_foldl_fst
    | with_reducible apply outKept_next
    | with_reducible apply outKept_ite
    | simp only [kept_mk, true_or]
    | split
    | intro _)

end Sys2Proof.Machine
end

