-- ==== Sys2Proof/Laws/State.lean ====
section
/-! SUPPORT. One lemma per field for each of the updates that the meanings are written over: the fields that it leaves. They go
through an update by a variable, since the kernel would else compare the updated register file with the old one. -/

namespace Sys2Proof.Machine

/-! ### A new value of `regs` -/

theorem State.with_regs_pending (s : State) (x : List RegCell) : State.pending { s with regs := x } = s.pending := rfl
theorem State.with_regs_now (s : State) (x : List RegCell) : State.now { s with regs := x } = s.now := rfl
theorem State.with_regs_freeCtr (s : State) (x : List RegCell) : State.freeCtr { s with regs := x } = s.freeCtr := rfl
theorem State.with_regs_mem (s : State) (x : List RegCell) : State.mem { s with regs := x } = s.mem := rfl
theorem State.with_regs_bus (s : State) (x : List RegCell) : State.bus { s with regs := x } = s.bus := rfl
theorem State.with_regs_irqs (s : State) (x : List RegCell) : State.irqs { s with regs := x } = s.irqs := rfl
theorem State.with_regs_outbox (s : State) (x : List RegCell) : State.outbox { s with regs := x } = s.outbox := rfl
theorem State.with_regs_led (s : State) (x : List RegCell) : State.led { s with regs := x } = s.led := rfl
theorem State.with_regs_commits (s : State) (x : List RegCell) : State.commits { s with regs := x } = s.commits := rfl
theorem State.with_regs_nums (s : State) (x : List RegCell) : State.nums { s with regs := x } = s.nums := rfl
theorem State.with_regs_p0 (s : State) (x : List RegCell) : State.p0 { s with regs := x } = s.p0 := rfl
theorem State.with_regs_p1 (s : State) (x : List RegCell) : State.p1 { s with regs := x } = s.p1 := rfl
theorem State.with_regs_f0 (s : State) (x : List RegCell) : State.f0 { s with regs := x } = s.f0 := rfl
theorem State.with_regs_f1 (s : State) (x : List RegCell) : State.f1 { s with regs := x } = s.f1 := rfl
theorem State.with_regs_fi (s : State) (x : List RegCell) : State.fi { s with regs := x } = s.fi := rfl
theorem State.with_regs_cmn (s : State) (x : List RegCell) : State.cmn { s with regs := x } = s.cmn := rfl
theorem State.with_regs_arb (s : State) (x : List RegCell) : State.arb { s with regs := x } = s.arb := rfl
theorem State.with_regs_ferry (s : State) (x : List RegCell) : State.ferry { s with regs := x } = s.ferry := rfl
theorem State.with_regs_laneE (s : State) (x : List RegCell) : State.laneE { s with regs := x } = s.laneE := rfl
theorem State.with_regs_laneW (s : State) (x : List RegCell) : State.laneW { s with regs := x } = s.laneW := rfl
theorem State.with_regs_sessions (s : State) (x : List RegCell) : State.sessions { s with regs := x } = s.sessions := rfl
theorem State.with_regs_scs (s : State) (x : List RegCell) : State.scs { s with regs := x } = s.scs := rfl
theorem State.with_regs_mod_ (s : State) (x : List RegCell) : State.mod_ { s with regs := x } = s.mod_ := rfl
theorem State.with_regs_urgents (s : State) (x : List RegCell) : State.urgents { s with regs := x } = s.urgents := rfl
theorem State.with_regs_outs (s : State) (x : List RegCell) : State.outs { s with regs := x } = s.outs := rfl
theorem State.with_regs_feeds (s : State) (x : List RegCell) : State.feeds { s with regs := x } = s.feeds := rfl
theorem State.with_regs_pw0 (s : State) (x : List RegCell) : State.pw0 { s with regs := x } = s.pw0 := rfl
theorem State.with_regs_pw1 (s : State) (x : List RegCell) : State.pw1 { s with regs := x } = s.pw1 := rfl
theorem State.with_regs_fcs (s : State) (x : List RegCell) : State.fcs { s with regs := x } = s.fcs := rfl
theorem State.with_regs_fd0 (s : State) (x : List RegCell) : State.fd0 { s with regs := x } = s.fd0 := rfl
theorem State.with_regs_fd1 (s : State) (x : List RegCell) : State.fd1 { s with regs := x } = s.fd1 := rfl
theorem State.with_regs_fd2 (s : State) (x : List RegCell) : State.fd2 { s with regs := x } = s.fd2 := rfl
theorem State.with_regs_stamps (s : State) (x : List RegCell) : State.stamps { s with regs := x } = s.stamps := rfl
theorem State.with_regs_tideE (s : State) (x : List RegCell) : State.tideE { s with regs := x } = s.tideE := rfl
theorem State.with_regs_tideW (s : State) (x : List RegCell) : State.tideW { s with regs := x } = s.tideW := rfl
theorem State.with_regs_tevArms (s : State) (x : List RegCell) : State.tevArms { s with regs := x } = s.tevArms := rfl
theorem State.with_regs_evtRecs (s : State) (x : List RegCell) : State.evtRecs { s with regs := x } = s.evtRecs := rfl
theorem State.with_regs_cvcE (s : State) (x : List RegCell) : State.cvcE { s with regs := x } = s.cvcE := rfl
theorem State.with_regs_cvcW (s : State) (x : List RegCell) : State.cvcW { s with regs := x } = s.cvcW := rfl
theorem State.with_regs_sels (s : State) (x : List RegCell) : State.sels { s with regs := x } = s.sels := rfl
theorem State.with_regs_pwmRecs (s : State) (x : List RegCell) : State.pwmRecs { s with regs := x } = s.pwmRecs := rfl
theorem State.with_regs_pwmWork (s : State) (x : List RegCell) : State.pwmWork { s with regs := x } = s.pwmWork := rfl
theorem State.with_regs_cmnRecs (s : State) (x : List RegCell) : State.cmnRecs { s with regs := x } = s.cmnRecs := rfl
theorem State.with_regs_canRxE (s : State) (x : List RegCell) : State.canRxE { s with regs := x } = s.canRxE := rfl
theorem State.with_regs_canRxW (s : State) (x : List RegCell) : State.canRxW { s with regs := x } = s.canRxW := rfl
theorem State.with_regs_canPorts (s : State) (x : List RegCell) : State.canPorts { s with regs := x } = s.canPorts := rfl
theorem State.with_regs_fltQ (s : State) (x : List RegCell) : State.fltQ { s with regs := x } = s.fltQ := rfl
theorem State.with_regs_canWork (s : State) (x : List RegCell) : State.canWork { s with regs := x } = s.canWork := rfl
theorem State.with_regs_canHeld (s : State) (x : List RegCell) : State.canHeld { s with regs := x } = s.canHeld := rfl
theorem State.with_regs_lins (s : State) (x : List RegCell) : State.lins { s with regs := x } = s.lins := rfl
theorem State.with_regs_linWork (s : State) (x : List RegCell) : State.linWork { s with regs := x } = s.linWork := rfl
theorem State.with_regs_tbs (s : State) (x : List RegCell) : State.tbs { s with regs := x } = s.tbs := rfl
theorem State.with_regs_eth (s : State) (x : List RegCell) : State.eth { s with regs := x } = s.eth := rfl
theorem State.with_regs_harbInE (s : State) (x : List RegCell) : State.harbInE { s with regs := x } = s.harbInE := rfl
theorem State.with_regs_harbInW (s : State) (x : List RegCell) : State.harbInW { s with regs := x } = s.harbInW := rfl
theorem State.with_regs_harbHeld (s : State) (x : List RegCell) : State.harbHeld { s with regs := x } = s.harbHeld := rfl
theorem State.with_regs_pduFails (s : State) (x : List RegCell) : State.pduFails { s with regs := x } = s.pduFails := rfl
theorem State.with_regs_harbE (s : State) (x : List RegCell) : State.harbE { s with regs := x } = s.harbE := rfl
theorem State.with_regs_harbW (s : State) (x : List RegCell) : State.harbW { s with regs := x } = s.harbW := rfl
theorem State.with_regs_cw (s : State) (x : List RegCell) : State.cw { s with regs := x } = s.cw := rfl
theorem State.with_regs_nms (s : State) (x : List RegCell) : State.nms { s with regs := x } = s.nms := rfl
theorem State.with_regs_grants (s : State) (x : List RegCell) : State.grants { s with regs := x } = s.grants := rfl
theorem State.with_regs_vfOps (s : State) (x : List RegCell) : State.vfOps { s with regs := x } = s.vfOps := rfl
theorem State.with_regs_quiesces (s : State) (x : List RegCell) : State.quiesces { s with regs := x } = s.quiesces := rfl
theorem State.with_regs_iovQs (s : State) (x : List RegCell) : State.iovQs { s with regs := x } = s.iovQs := rfl
theorem State.with_regs_potUpds (s : State) (x : List RegCell) : State.potUpds { s with regs := x } = s.potUpds := rfl
theorem State.with_regs_copies (s : State) (x : List RegCell) : State.copies { s with regs := x } = s.copies := rfl
theorem State.with_regs_lstepTests (s : State) (x : List RegCell) : State.lstepTests { s with regs := x } = s.lstepTests := rfl
theorem State.with_regs_tamperLog (s : State) (x : List RegCell) : State.tamperLog { s with regs := x } = s.tamperLog := rfl
theorem State.with_regs_secE (s : State) (x : List RegCell) : State.secE { s with regs := x } = s.secE := rfl
theorem State.with_regs_secW (s : State) (x : List RegCell) : State.secW { s with regs := x } = s.secW := rfl
theorem State.with_regs_keyOps (s : State) (x : List RegCell) : State.keyOps { s with regs := x } = s.keyOps := rfl
theorem State.with_regs_pmReqs (s : State) (x : List RegCell) : State.pmReqs { s with regs := x } = s.pmReqs := rfl
theorem State.with_regs_ownOps (s : State) (x : List RegCell) : State.ownOps { s with regs := x } = s.ownOps := rfl
theorem State.with_regs_fuseOps (s : State) (x : List RegCell) : State.fuseOps { s with regs := x } = s.fuseOps := rfl
theorem State.with_regs_upd (s : State) (x : List RegCell) : State.upd { s with regs := x } = s.upd := rfl
theorem State.with_regs_calUs (s : State) (x : List RegCell) : State.calUs { s with regs := x } = s.calUs := rfl
theorem State.with_regs_parE (s : State) (x : List RegCell) : State.parE { s with regs := x } = s.parE := rfl
theorem State.with_regs_parW (s : State) (x : List RegCell) : State.parW { s with regs := x } = s.parW := rfl

/-! ### A new value of `mem` -/

theorem State.with_mem_pending (s : State) (x : List Host.Cell) : State.pending { s with mem := x } = s.pending := rfl
theorem State.with_mem_now (s : State) (x : List Host.Cell) : State.now { s with mem := x } = s.now := rfl
theorem State.with_mem_freeCtr (s : State) (x : List Host.Cell) : State.freeCtr { s with mem := x } = s.freeCtr := rfl
theorem State.with_mem_regs (s : State) (x : List Host.Cell) : State.regs { s with mem := x } = s.regs := rfl
theorem State.with_mem_bus (s : State) (x : List Host.Cell) : State.bus { s with mem := x } = s.bus := rfl
theorem State.with_mem_irqs (s : State) (x : List Host.Cell) : State.irqs { s with mem := x } = s.irqs := rfl
theorem State.with_mem_outbox (s : State) (x : List Host.Cell) : State.outbox { s with mem := x } = s.outbox := rfl
theorem State.with_mem_led (s : State) (x : List Host.Cell) : State.led { s with mem := x } = s.led := rfl
theorem State.with_mem_commits (s : State) (x : List Host.Cell) : State.commits { s with mem := x } = s.commits := rfl
theorem State.with_mem_nums (s : State) (x : List Host.Cell) : State.nums { s with mem := x } = s.nums := rfl
theorem State.with_mem_p0 (s : State) (x : List Host.Cell) : State.p0 { s with mem := x } = s.p0 := rfl
theorem State.with_mem_p1 (s : State) (x : List Host.Cell) : State.p1 { s with mem := x } = s.p1 := rfl
theorem State.with_mem_f0 (s : State) (x : List Host.Cell) : State.f0 { s with mem := x } = s.f0 := rfl
theorem State.with_mem_f1 (s : State) (x : List Host.Cell) : State.f1 { s with mem := x } = s.f1 := rfl
theorem State.with_mem_fi (s : State) (x : List Host.Cell) : State.fi { s with mem := x } = s.fi := rfl
theorem State.with_mem_cmn (s : State) (x : List Host.Cell) : State.cmn { s with mem := x } = s.cmn := rfl
theorem State.with_mem_arb (s : State) (x : List Host.Cell) : State.arb { s with mem := x } = s.arb := rfl
theorem State.with_mem_ferry (s : State) (x : List Host.Cell) : State.ferry { s with mem := x } = s.ferry := rfl
theorem State.with_mem_laneE (s : State) (x : List Host.Cell) : State.laneE { s with mem := x } = s.laneE := rfl
theorem State.with_mem_laneW (s : State) (x : List Host.Cell) : State.laneW { s with mem := x } = s.laneW := rfl
theorem State.with_mem_sessions (s : State) (x : List Host.Cell) : State.sessions { s with mem := x } = s.sessions := rfl
theorem State.with_mem_scs (s : State) (x : List Host.Cell) : State.scs { s with mem := x } = s.scs := rfl
theorem State.with_mem_mod_ (s : State) (x : List Host.Cell) : State.mod_ { s with mem := x } = s.mod_ := rfl
theorem State.with_mem_urgents (s : State) (x : List Host.Cell) : State.urgents { s with mem := x } = s.urgents := rfl
theorem State.with_mem_outs (s : State) (x : List Host.Cell) : State.outs { s with mem := x } = s.outs := rfl
theorem State.with_mem_feeds (s : State) (x : List Host.Cell) : State.feeds { s with mem := x } = s.feeds := rfl
theorem State.with_mem_pw0 (s : State) (x : List Host.Cell) : State.pw0 { s with mem := x } = s.pw0 := rfl
theorem State.with_mem_pw1 (s : State) (x : List Host.Cell) : State.pw1 { s with mem := x } = s.pw1 := rfl
theorem State.with_mem_fcs (s : State) (x : List Host.Cell) : State.fcs { s with mem := x } = s.fcs := rfl
theorem State.with_mem_fd0 (s : State) (x : List Host.Cell) : State.fd0 { s with mem := x } = s.fd0 := rfl
theorem State.with_mem_fd1 (s : State) (x : List Host.Cell) : State.fd1 { s with mem := x } = s.fd1 := rfl
theorem State.with_mem_fd2 (s : State) (x : List Host.Cell) : State.fd2 { s with mem := x } = s.fd2 := rfl
theorem State.with_mem_stamps (s : State) (x : List Host.Cell) : State.stamps { s with mem := x } = s.stamps := rfl
theorem State.with_mem_tideE (s : State) (x : List Host.Cell) : State.tideE { s with mem := x } = s.tideE := rfl
theorem State.with_mem_tideW (s : State) (x : List Host.Cell) : State.tideW { s with mem := x } = s.tideW := rfl
theorem State.with_mem_tevArms (s : State) (x : List Host.Cell) : State.tevArms { s with mem := x } = s.tevArms := rfl
theorem State.with_mem_evtRecs (s : State) (x : List Host.Cell) : State.evtRecs { s with mem := x } = s.evtRecs := rfl
theorem State.with_mem_cvcE (s : State) (x : List Host.Cell) : State.cvcE { s with mem := x } = s.cvcE := rfl
theorem State.with_mem_cvcW (s : State) (x : List Host.Cell) : State.cvcW { s with mem := x } = s.cvcW := rfl
theorem State.with_mem_sels (s : State) (x : List Host.Cell) : State.sels { s with mem := x } = s.sels := rfl
theorem State.with_mem_pwmRecs (s : State) (x : List Host.Cell) : State.pwmRecs { s with mem := x } = s.pwmRecs := rfl
theorem State.with_mem_pwmWork (s : State) (x : List Host.Cell) : State.pwmWork { s with mem := x } = s.pwmWork := rfl
theorem State.with_mem_cmnRecs (s : State) (x : List Host.Cell) : State.cmnRecs { s with mem := x } = s.cmnRecs := rfl
theorem State.with_mem_canRxE (s : State) (x : List Host.Cell) : State.canRxE { s with mem := x } = s.canRxE := rfl
theorem State.with_mem_canRxW (s : State) (x : List Host.Cell) : State.canRxW { s with mem := x } = s.canRxW := rfl
theorem State.with_mem_canPorts (s : State) (x : List Host.Cell) : State.canPorts { s with mem := x } = s.canPorts := rfl
theorem State.with_mem_fltQ (s : State) (x : List Host.Cell) : State.fltQ { s with mem := x } = s.fltQ := rfl
theorem State.with_mem_canWork (s : State) (x : List Host.Cell) : State.canWork { s with mem := x } = s.canWork := rfl
theorem State.with_mem_canHeld (s : State) (x : List Host.Cell) : State.canHeld { s with mem := x } = s.canHeld := rfl
theorem State.with_mem_lins (s : State) (x : List Host.Cell) : State.lins { s with mem := x } = s.lins := rfl
theorem State.with_mem_linWork (s : State) (x : List Host.Cell) : State.linWork { s with mem := x } = s.linWork := rfl
theorem State.with_mem_tbs (s : State) (x : List Host.Cell) : State.tbs { s with mem := x } = s.tbs := rfl
theorem State.with_mem_eth (s : State) (x : List Host.Cell) : State.eth { s with mem := x } = s.eth := rfl
theorem State.with_mem_harbInE (s : State) (x : List Host.Cell) : State.harbInE { s with mem := x } = s.harbInE := rfl
theorem State.with_mem_harbInW (s : State) (x : List Host.Cell) : State.harbInW { s with mem := x } = s.harbInW := rfl
theorem State.with_mem_harbHeld (s : State) (x : List Host.Cell) : State.harbHeld { s with mem := x } = s.harbHeld := rfl
theorem State.with_mem_pduFails (s : State) (x : List Host.Cell) : State.pduFails { s with mem := x } = s.pduFails := rfl
theorem State.with_mem_harbE (s : State) (x : List Host.Cell) : State.harbE { s with mem := x } = s.harbE := rfl
theorem State.with_mem_harbW (s : State) (x : List Host.Cell) : State.harbW { s with mem := x } = s.harbW := rfl
theorem State.with_mem_cw (s : State) (x : List Host.Cell) : State.cw { s with mem := x } = s.cw := rfl
theorem State.with_mem_nms (s : State) (x : List Host.Cell) : State.nms { s with mem := x } = s.nms := rfl
theorem State.with_mem_grants (s : State) (x : List Host.Cell) : State.grants { s with mem := x } = s.grants := rfl
theorem State.with_mem_vfOps (s : State) (x : List Host.Cell) : State.vfOps { s with mem := x } = s.vfOps := rfl
theorem State.with_mem_quiesces (s : State) (x : List Host.Cell) : State.quiesces { s with mem := x } = s.quiesces := rfl
theorem State.with_mem_iovQs (s : State) (x : List Host.Cell) : State.iovQs { s with mem := x } = s.iovQs := rfl
theorem State.with_mem_potUpds (s : State) (x : List Host.Cell) : State.potUpds { s with mem := x } = s.potUpds := rfl
theorem State.with_mem_copies (s : State) (x : List Host.Cell) : State.copies { s with mem := x } = s.copies := rfl
theorem State.with_mem_lstepTests (s : State) (x : List Host.Cell) : State.lstepTests { s with mem := x } = s.lstepTests := rfl
theorem State.with_mem_tamperLog (s : State) (x : List Host.Cell) : State.tamperLog { s with mem := x } = s.tamperLog := rfl
theorem State.with_mem_secE (s : State) (x : List Host.Cell) : State.secE { s with mem := x } = s.secE := rfl
theorem State.with_mem_secW (s : State) (x : List Host.Cell) : State.secW { s with mem := x } = s.secW := rfl
theorem State.with_mem_keyOps (s : State) (x : List Host.Cell) : State.keyOps { s with mem := x } = s.keyOps := rfl
theorem State.with_mem_pmReqs (s : State) (x : List Host.Cell) : State.pmReqs { s with mem := x } = s.pmReqs := rfl
theorem State.with_mem_ownOps (s : State) (x : List Host.Cell) : State.ownOps { s with mem := x } = s.ownOps := rfl
theorem State.with_mem_fuseOps (s : State) (x : List Host.Cell) : State.fuseOps { s with mem := x } = s.fuseOps := rfl
theorem State.with_mem_upd (s : State) (x : List Host.Cell) : State.upd { s with mem := x } = s.upd := rfl
theorem State.with_mem_calUs (s : State) (x : List Host.Cell) : State.calUs { s with mem := x } = s.calUs := rfl
theorem State.with_mem_parE (s : State) (x : List Host.Cell) : State.parE { s with mem := x } = s.parE := rfl
theorem State.with_mem_parW (s : State) (x : List Host.Cell) : State.parW { s with mem := x } = s.parW := rfl

/-! ### A new value of `outbox` -/

theorem State.with_outbox_pending (s : State) (x : List OutMsg) : State.pending { s with outbox := x } = s.pending := rfl
theorem State.with_outbox_now (s : State) (x : List OutMsg) : State.now { s with outbox := x } = s.now := rfl
theorem State.with_outbox_freeCtr (s : State) (x : List OutMsg) : State.freeCtr { s with outbox := x } = s.freeCtr := rfl
theorem State.with_outbox_regs (s : State) (x : List OutMsg) : State.regs { s with outbox := x } = s.regs := rfl
theorem State.with_outbox_mem (s : State) (x : List OutMsg) : State.mem { s with outbox := x } = s.mem := rfl
theorem State.with_outbox_bus (s : State) (x : List OutMsg) : State.bus { s with outbox := x } = s.bus := rfl
theorem State.with_outbox_irqs (s : State) (x : List OutMsg) : State.irqs { s with outbox := x } = s.irqs := rfl
theorem State.with_outbox_led (s : State) (x : List OutMsg) : State.led { s with outbox := x } = s.led := rfl
theorem State.with_outbox_commits (s : State) (x : List OutMsg) : State.commits { s with outbox := x } = s.commits := rfl
theorem State.with_outbox_nums (s : State) (x : List OutMsg) : State.nums { s with outbox := x } = s.nums := rfl
theorem State.with_outbox_p0 (s : State) (x : List OutMsg) : State.p0 { s with outbox := x } = s.p0 := rfl
theorem State.with_outbox_p1 (s : State) (x : List OutMsg) : State.p1 { s with outbox := x } = s.p1 := rfl
theorem State.with_outbox_f0 (s : State) (x : List OutMsg) : State.f0 { s with outbox := x } = s.f0 := rfl
theorem State.with_outbox_f1 (s : State) (x : List OutMsg) : State.f1 { s with outbox := x } = s.f1 := rfl
theorem State.with_outbox_fi (s : State) (x : List OutMsg) : State.fi { s with outbox := x } = s.fi := rfl
theorem State.with_outbox_cmn (s : State) (x : List OutMsg) : State.cmn { s with outbox := x } = s.cmn := rfl
theorem State.with_outbox_arb (s : State) (x : List OutMsg) : State.arb { s with outbox := x } = s.arb := rfl
theorem State.with_outbox_ferry (s : State) (x : List OutMsg) : State.ferry { s with outbox := x } = s.ferry := rfl
theorem State.with_outbox_laneE (s : State) (x : List OutMsg) : State.laneE { s with outbox := x } = s.laneE := rfl
theorem State.with_outbox_laneW (s : State) (x : List OutMsg) : State.laneW { s with outbox := x } = s.laneW := rfl
theorem State.with_outbox_sessions (s : State) (x : List OutMsg) : State.sessions { s with outbox := x } = s.sessions := rfl
theorem State.with_outbox_scs (s : State) (x : List OutMsg) : State.scs { s with outbox := x } = s.scs := rfl
theorem State.with_outbox_mod_ (s : State) (x : List OutMsg) : State.mod_ { s with outbox := x } = s.mod_ := rfl
theorem State.with_outbox_urgents (s : State) (x : List OutMsg) : State.urgents { s with outbox := x } = s.urgents := rfl
theorem State.with_outbox_outs (s : State) (x : List OutMsg) : State.outs { s with outbox := x } = s.outs := rfl
theorem State.with_outbox_feeds (s : State) (x : List OutMsg) : State.feeds { s with outbox := x } = s.feeds := rfl
theorem State.with_outbox_pw0 (s : State) (x : List OutMsg) : State.pw0 { s with outbox := x } = s.pw0 := rfl
theorem State.with_outbox_pw1 (s : State) (x : List OutMsg) : State.pw1 { s with outbox := x } = s.pw1 := rfl
theorem State.with_outbox_fcs (s : State) (x : List OutMsg) : State.fcs { s with outbox := x } = s.fcs := rfl
theorem State.with_outbox_fd0 (s : State) (x : List OutMsg) : State.fd0 { s with outbox := x } = s.fd0 := rfl
theorem State.with_outbox_fd1 (s : State) (x : List OutMsg) : State.fd1 { s with outbox := x } = s.fd1 := rfl
theorem State.with_outbox_fd2 (s : State) (x : List OutMsg) : State.fd2 { s with outbox := x } = s.fd2 := rfl
theorem State.with_outbox_stamps (s : State) (x : List OutMsg) : State.stamps { s with outbox := x } = s.stamps := rfl
theorem State.with_outbox_tideE (s : State) (x : List OutMsg) : State.tideE { s with outbox := x } = s.tideE := rfl
theorem State.with_outbox_tideW (s : State) (x : List OutMsg) : State.tideW { s with outbox := x } = s.tideW := rfl
theorem State.with_outbox_tevArms (s : State) (x : List OutMsg) : State.tevArms { s with outbox := x } = s.tevArms := rfl
theorem State.with_outbox_evtRecs (s : State) (x : List OutMsg) : State.evtRecs { s with outbox := x } = s.evtRecs := rfl
theorem State.with_outbox_cvcE (s : State) (x : List OutMsg) : State.cvcE { s with outbox := x } = s.cvcE := rfl
theorem State.with_outbox_cvcW (s : State) (x : List OutMsg) : State.cvcW { s with outbox := x } = s.cvcW := rfl
theorem State.with_outbox_sels (s : State) (x : List OutMsg) : State.sels { s with outbox := x } = s.sels := rfl
theorem State.with_outbox_pwmRecs (s : State) (x : List OutMsg) : State.pwmRecs { s with outbox := x } = s.pwmRecs := rfl
theorem State.with_outbox_pwmWork (s : State) (x : List OutMsg) : State.pwmWork { s with outbox := x } = s.pwmWork := rfl
theorem State.with_outbox_cmnRecs (s : State) (x : List OutMsg) : State.cmnRecs { s with outbox := x } = s.cmnRecs := rfl
theorem State.with_outbox_canRxE (s : State) (x : List OutMsg) : State.canRxE { s with outbox := x } = s.canRxE := rfl
theorem State.with_outbox_canRxW (s : State) (x : List OutMsg) : State.canRxW { s with outbox := x } = s.canRxW := rfl
theorem State.with_outbox_canPorts (s : State) (x : List OutMsg) : State.canPorts { s with outbox := x } = s.canPorts := rfl
theorem State.with_outbox_fltQ (s : State) (x : List OutMsg) : State.fltQ { s with outbox := x } = s.fltQ := rfl
theorem State.with_outbox_canWork (s : State) (x : List OutMsg) : State.canWork { s with outbox := x } = s.canWork := rfl
theorem State.with_outbox_canHeld (s : State) (x : List OutMsg) : State.canHeld { s with outbox := x } = s.canHeld := rfl
theorem State.with_outbox_lins (s : State) (x : List OutMsg) : State.lins { s with outbox := x } = s.lins := rfl
theorem State.with_outbox_linWork (s : State) (x : List OutMsg) : State.linWork { s with outbox := x } = s.linWork := rfl
theorem State.with_outbox_tbs (s : State) (x : List OutMsg) : State.tbs { s with outbox := x } = s.tbs := rfl
theorem State.with_outbox_eth (s : State) (x : List OutMsg) : State.eth { s with outbox := x } = s.eth := rfl
theorem State.with_outbox_harbInE (s : State) (x : List OutMsg) : State.harbInE { s with outbox := x } = s.harbInE := rfl
theorem State.with_outbox_harbInW (s : State) (x : List OutMsg) : State.harbInW { s with outbox := x } = s.harbInW := rfl
theorem State.with_outbox_harbHeld (s : State) (x : List OutMsg) : State.harbHeld { s with outbox := x } = s.harbHeld := rfl
theorem State.with_outbox_pduFails (s : State) (x : List OutMsg) : State.pduFails { s with outbox := x } = s.pduFails := rfl
theorem State.with_outbox_harbE (s : State) (x : List OutMsg) : State.harbE { s with outbox := x } = s.harbE := rfl
theorem State.with_outbox_harbW (s : State) (x : List OutMsg) : State.harbW { s with outbox := x } = s.harbW := rfl
theorem State.with_outbox_cw (s : State) (x : List OutMsg) : State.cw { s with outbox := x } = s.cw := rfl
theorem State.with_outbox_nms (s : State) (x : List OutMsg) : State.nms { s with outbox := x } = s.nms := rfl
theorem State.with_outbox_grants (s : State) (x : List OutMsg) : State.grants { s with outbox := x } = s.grants := rfl
theorem State.with_outbox_vfOps (s : State) (x : List OutMsg) : State.vfOps { s with outbox := x } = s.vfOps := rfl
theorem State.with_outbox_quiesces (s : State) (x : List OutMsg) : State.quiesces { s with outbox := x } = s.quiesces := rfl
theorem State.with_outbox_iovQs (s : State) (x : List OutMsg) : State.iovQs { s with outbox := x } = s.iovQs := rfl
theorem State.with_outbox_potUpds (s : State) (x : List OutMsg) : State.potUpds { s with outbox := x } = s.potUpds := rfl
theorem State.with_outbox_copies (s : State) (x : List OutMsg) : State.copies { s with outbox := x } = s.copies := rfl
theorem State.with_outbox_lstepTests (s : State) (x : List OutMsg) : State.lstepTests { s with outbox := x } = s.lstepTests := rfl
theorem State.with_outbox_tamperLog (s : State) (x : List OutMsg) : State.tamperLog { s with outbox := x } = s.tamperLog := rfl
theorem State.with_outbox_secE (s : State) (x : List OutMsg) : State.secE { s with outbox := x } = s.secE := rfl
theorem State.with_outbox_secW (s : State) (x : List OutMsg) : State.secW { s with outbox := x } = s.secW := rfl
theorem State.with_outbox_keyOps (s : State) (x : List OutMsg) : State.keyOps { s with outbox := x } = s.keyOps := rfl
theorem State.with_outbox_pmReqs (s : State) (x : List OutMsg) : State.pmReqs { s with outbox := x } = s.pmReqs := rfl
theorem State.with_outbox_ownOps (s : State) (x : List OutMsg) : State.ownOps { s with outbox := x } = s.ownOps := rfl
theorem State.with_outbox_fuseOps (s : State) (x : List OutMsg) : State.fuseOps { s with outbox := x } = s.fuseOps := rfl
theorem State.with_outbox_upd (s : State) (x : List OutMsg) : State.upd { s with outbox := x } = s.upd := rfl
theorem State.with_outbox_calUs (s : State) (x : List OutMsg) : State.calUs { s with outbox := x } = s.calUs := rfl
theorem State.with_outbox_parE (s : State) (x : List OutMsg) : State.parE { s with outbox := x } = s.parE := rfl
theorem State.with_outbox_parW (s : State) (x : List OutMsg) : State.parW { s with outbox := x } = s.parW := rfl

/-! ### A new value of `freeCtr` -/

theorem State.with_freeCtr_pending (s : State) (x : Nat) : State.pending { s with freeCtr := x } = s.pending := rfl
theorem State.with_freeCtr_now (s : State) (x : Nat) : State.now { s with freeCtr := x } = s.now := rfl
theorem State.with_freeCtr_regs (s : State) (x : Nat) : State.regs { s with freeCtr := x } = s.regs := rfl
theorem State.with_freeCtr_mem (s : State) (x : Nat) : State.mem { s with freeCtr := x } = s.mem := rfl
theorem State.with_freeCtr_bus (s : State) (x : Nat) : State.bus { s with freeCtr := x } = s.bus := rfl
theorem State.with_freeCtr_irqs (s : State) (x : Nat) : State.irqs { s with freeCtr := x } = s.irqs := rfl
theorem State.with_freeCtr_outbox (s : State) (x : Nat) : State.outbox { s with freeCtr := x } = s.outbox := rfl
theorem State.with_freeCtr_led (s : State) (x : Nat) : State.led { s with freeCtr := x } = s.led := rfl
theorem State.with_freeCtr_commits (s : State) (x : Nat) : State.commits { s with freeCtr := x } = s.commits := rfl
theorem State.with_freeCtr_nums (s : State) (x : Nat) : State.nums { s with freeCtr := x } = s.nums := rfl
theorem State.with_freeCtr_p0 (s : State) (x : Nat) : State.p0 { s with freeCtr := x } = s.p0 := rfl
theorem State.with_freeCtr_p1 (s : State) (x : Nat) : State.p1 { s with freeCtr := x } = s.p1 := rfl
theorem State.with_freeCtr_f0 (s : State) (x : Nat) : State.f0 { s with freeCtr := x } = s.f0 := rfl
theorem State.with_freeCtr_f1 (s : State) (x : Nat) : State.f1 { s with freeCtr := x } = s.f1 := rfl
theorem State.with_freeCtr_fi (s : State) (x : Nat) : State.fi { s with freeCtr := x } = s.fi := rfl
theorem State.with_freeCtr_cmn (s : State) (x : Nat) : State.cmn { s with freeCtr := x } = s.cmn := rfl
theorem State.with_freeCtr_arb (s : State) (x : Nat) : State.arb { s with freeCtr := x } = s.arb := rfl
theorem State.with_freeCtr_ferry (s : State) (x : Nat) : State.ferry { s with freeCtr := x } = s.ferry := rfl
theorem State.with_freeCtr_laneE (s : State) (x : Nat) : State.laneE { s with freeCtr := x } = s.laneE := rfl
theorem State.with_freeCtr_laneW (s : State) (x : Nat) : State.laneW { s with freeCtr := x } = s.laneW := rfl
theorem State.with_freeCtr_sessions (s : State) (x : Nat) : State.sessions { s with freeCtr := x } = s.sessions := rfl
theorem State.with_freeCtr_scs (s : State) (x : Nat) : State.scs { s with freeCtr := x } = s.scs := rfl
theorem State.with_freeCtr_mod_ (s : State) (x : Nat) : State.mod_ { s with freeCtr := x } = s.mod_ := rfl
theorem State.with_freeCtr_urgents (s : State) (x : Nat) : State.urgents { s with freeCtr := x } = s.urgents := rfl
theorem State.with_freeCtr_outs (s : State) (x : Nat) : State.outs { s with freeCtr := x } = s.outs := rfl
theorem State.with_freeCtr_feeds (s : State) (x : Nat) : State.feeds { s with freeCtr := x } = s.feeds := rfl
theorem State.with_freeCtr_pw0 (s : State) (x : Nat) : State.pw0 { s with freeCtr := x } = s.pw0 := rfl
theorem State.with_freeCtr_pw1 (s : State) (x : Nat) : State.pw1 { s with freeCtr := x } = s.pw1 := rfl
theorem State.with_freeCtr_fcs (s : State) (x : Nat) : State.fcs { s with freeCtr := x } = s.fcs := rfl
theorem State.with_freeCtr_fd0 (s : State) (x : Nat) : State.fd0 { s with freeCtr := x } = s.fd0 := rfl
theorem State.with_freeCtr_fd1 (s : State) (x : Nat) : State.fd1 { s with freeCtr := x } = s.fd1 := rfl
theorem State.with_freeCtr_fd2 (s : State) (x : Nat) : State.fd2 { s with freeCtr := x } = s.fd2 := rfl
theorem State.with_freeCtr_stamps (s : State) (x : Nat) : State.stamps { s with freeCtr := x } = s.stamps := rfl
theorem State.with_freeCtr_tideE (s : State) (x : Nat) : State.tideE { s with freeCtr := x } = s.tideE := rfl
theorem State.with_freeCtr_tideW (s : State) (x : Nat) : State.tideW { s with freeCtr := x } = s.tideW := rfl
theorem State.with_freeCtr_tevArms (s : State) (x : Nat) : State.tevArms { s with freeCtr := x } = s.tevArms := rfl
theorem State.with_freeCtr_evtRecs (s : State) (x : Nat) : State.evtRecs { s with freeCtr := x } = s.evtRecs := rfl
theorem State.with_freeCtr_cvcE (s : State) (x : Nat) : State.cvcE { s with freeCtr := x } = s.cvcE := rfl
theorem State.with_freeCtr_cvcW (s : State) (x : Nat) : State.cvcW { s with freeCtr := x } = s.cvcW := rfl
theorem State.with_freeCtr_sels (s : State) (x : Nat) : State.sels { s with freeCtr := x } = s.sels := rfl
theorem State.with_freeCtr_pwmRecs (s : State) (x : Nat) : State.pwmRecs { s with freeCtr := x } = s.pwmRecs := rfl
theorem State.with_freeCtr_pwmWork (s : State) (x : Nat) : State.pwmWork { s with freeCtr := x } = s.pwmWork := rfl
theorem State.with_freeCtr_cmnRecs (s : State) (x : Nat) : State.cmnRecs { s with freeCtr := x } = s.cmnRecs := rfl
theorem State.with_freeCtr_canRxE (s : State) (x : Nat) : State.canRxE { s with freeCtr := x } = s.canRxE := rfl
theorem State.with_freeCtr_canRxW (s : State) (x : Nat) : State.canRxW { s with freeCtr := x } = s.canRxW := rfl
theorem State.with_freeCtr_canPorts (s : State) (x : Nat) : State.canPorts { s with freeCtr := x } = s.canPorts := rfl
theorem State.with_freeCtr_fltQ (s : State) (x : Nat) : State.fltQ { s with freeCtr := x } = s.fltQ := rfl
theorem State.with_freeCtr_canWork (s : State) (x : Nat) : State.canWork { s with freeCtr := x } = s.canWork := rfl
theorem State.with_freeCtr_canHeld (s : State) (x : Nat) : State.canHeld { s with freeCtr := x } = s.canHeld := rfl
theorem State.with_freeCtr_lins (s : State) (x : Nat) : State.lins { s with freeCtr := x } = s.lins := rfl
theorem State.with_freeCtr_linWork (s : State) (x : Nat) : State.linWork { s with freeCtr := x } = s.linWork := rfl
theorem State.with_freeCtr_tbs (s : State) (x : Nat) : State.tbs { s with freeCtr := x } = s.tbs := rfl
theorem State.with_freeCtr_eth (s : State) (x : Nat) : State.eth { s with freeCtr := x } = s.eth := rfl
theorem State.with_freeCtr_harbInE (s : State) (x : Nat) : State.harbInE { s with freeCtr := x } = s.harbInE := rfl
theorem State.with_freeCtr_harbInW (s : State) (x : Nat) : State.harbInW { s with freeCtr := x } = s.harbInW := rfl
theorem State.with_freeCtr_harbHeld (s : State) (x : Nat) : State.harbHeld { s with freeCtr := x } = s.harbHeld := rfl
theorem State.with_freeCtr_pduFails (s : State) (x : Nat) : State.pduFails { s with freeCtr := x } = s.pduFails := rfl
theorem State.with_freeCtr_harbE (s : State) (x : Nat) : State.harbE { s with freeCtr := x } = s.harbE := rfl
theorem State.with_freeCtr_harbW (s : State) (x : Nat) : State.harbW { s with freeCtr := x } = s.harbW := rfl
theorem State.with_freeCtr_cw (s : State) (x : Nat) : State.cw { s with freeCtr := x } = s.cw := rfl
theorem State.with_freeCtr_nms (s : State) (x : Nat) : State.nms { s with freeCtr := x } = s.nms := rfl
theorem State.with_freeCtr_grants (s : State) (x : Nat) : State.grants { s with freeCtr := x } = s.grants := rfl
theorem State.with_freeCtr_vfOps (s : State) (x : Nat) : State.vfOps { s with freeCtr := x } = s.vfOps := rfl
theorem State.with_freeCtr_quiesces (s : State) (x : Nat) : State.quiesces { s with freeCtr := x } = s.quiesces := rfl
theorem State.with_freeCtr_iovQs (s : State) (x : Nat) : State.iovQs { s with freeCtr := x } = s.iovQs := rfl
theorem State.with_freeCtr_potUpds (s : State) (x : Nat) : State.potUpds { s with freeCtr := x } = s.potUpds := rfl
theorem State.with_freeCtr_copies (s : State) (x : Nat) : State.copies { s with freeCtr := x } = s.copies := rfl
theorem State.with_freeCtr_lstepTests (s : State) (x : Nat) : State.lstepTests { s with freeCtr := x } = s.lstepTests := rfl
theorem State.with_freeCtr_tamperLog (s : State) (x : Nat) : State.tamperLog { s with freeCtr := x } = s.tamperLog := rfl
theorem State.with_freeCtr_secE (s : State) (x : Nat) : State.secE { s with freeCtr := x } = s.secE := rfl
theorem State.with_freeCtr_secW (s : State) (x : Nat) : State.secW { s with freeCtr := x } = s.secW := rfl
theorem State.with_freeCtr_keyOps (s : State) (x : Nat) : State.keyOps { s with freeCtr := x } = s.keyOps := rfl
theorem State.with_freeCtr_pmReqs (s : State) (x : Nat) : State.pmReqs { s with freeCtr := x } = s.pmReqs := rfl
theorem State.with_freeCtr_ownOps (s : State) (x : Nat) : State.ownOps { s with freeCtr := x } = s.ownOps := rfl
theorem State.with_freeCtr_fuseOps (s : State) (x : Nat) : State.fuseOps { s with freeCtr := x } = s.fuseOps := rfl
theorem State.with_freeCtr_upd (s : State) (x : Nat) : State.upd { s with freeCtr := x } = s.upd := rfl
theorem State.with_freeCtr_calUs (s : State) (x : Nat) : State.calUs { s with freeCtr := x } = s.calUs := rfl
theorem State.with_freeCtr_parE (s : State) (x : Nat) : State.parE { s with freeCtr := x } = s.parE := rfl
theorem State.with_freeCtr_parW (s : State) (x : Nat) : State.parW { s with freeCtr := x } = s.parW := rfl

/-! ### A new value of `bus` -/

theorem State.with_bus_pending (s : State) (x : BusResp) : State.pending { s with bus := x } = s.pending := rfl
theorem State.with_bus_now (s : State) (x : BusResp) : State.now { s with bus := x } = s.now := rfl
theorem State.with_bus_freeCtr (s : State) (x : BusResp) : State.freeCtr { s with bus := x } = s.freeCtr := rfl
theorem State.with_bus_regs (s : State) (x : BusResp) : State.regs { s with bus := x } = s.regs := rfl
theorem State.with_bus_mem (s : State) (x : BusResp) : State.mem { s with bus := x } = s.mem := rfl
theorem State.with_bus_irqs (s : State) (x : BusResp) : State.irqs { s with bus := x } = s.irqs := rfl
theorem State.with_bus_outbox (s : State) (x : BusResp) : State.outbox { s with bus := x } = s.outbox := rfl
theorem State.with_bus_led (s : State) (x : BusResp) : State.led { s with bus := x } = s.led := rfl
theorem State.with_bus_commits (s : State) (x : BusResp) : State.commits { s with bus := x } = s.commits := rfl
theorem State.with_bus_nums (s : State) (x : BusResp) : State.nums { s with bus := x } = s.nums := rfl
theorem State.with_bus_p0 (s : State) (x : BusResp) : State.p0 { s with bus := x } = s.p0 := rfl
theorem State.with_bus_p1 (s : State) (x : BusResp) : State.p1 { s with bus := x } = s.p1 := rfl
theorem State.with_bus_f0 (s : State) (x : BusResp) : State.f0 { s with bus := x } = s.f0 := rfl
theorem State.with_bus_f1 (s : State) (x : BusResp) : State.f1 { s with bus := x } = s.f1 := rfl
theorem State.with_bus_fi (s : State) (x : BusResp) : State.fi { s with bus := x } = s.fi := rfl
theorem State.with_bus_cmn (s : State) (x : BusResp) : State.cmn { s with bus := x } = s.cmn := rfl
theorem State.with_bus_arb (s : State) (x : BusResp) : State.arb { s with bus := x } = s.arb := rfl
theorem State.with_bus_ferry (s : State) (x : BusResp) : State.ferry { s with bus := x } = s.ferry := rfl
theorem State.with_bus_laneE (s : State) (x : BusResp) : State.laneE { s with bus := x } = s.laneE := rfl
theorem State.with_bus_laneW (s : State) (x : BusResp) : State.laneW { s with bus := x } = s.laneW := rfl
theorem State.with_bus_sessions (s : State) (x : BusResp) : State.sessions { s with bus := x } = s.sessions := rfl
theorem State.with_bus_scs (s : State) (x : BusResp) : State.scs { s with bus := x } = s.scs := rfl
theorem State.with_bus_mod_ (s : State) (x : BusResp) : State.mod_ { s with bus := x } = s.mod_ := rfl
theorem State.with_bus_urgents (s : State) (x : BusResp) : State.urgents { s with bus := x } = s.urgents := rfl
theorem State.with_bus_outs (s : State) (x : BusResp) : State.outs { s with bus := x } = s.outs := rfl
theorem State.with_bus_feeds (s : State) (x : BusResp) : State.feeds { s with bus := x } = s.feeds := rfl
theorem State.with_bus_pw0 (s : State) (x : BusResp) : State.pw0 { s with bus := x } = s.pw0 := rfl
theorem State.with_bus_pw1 (s : State) (x : BusResp) : State.pw1 { s with bus := x } = s.pw1 := rfl
theorem State.with_bus_fcs (s : State) (x : BusResp) : State.fcs { s with bus := x } = s.fcs := rfl
theorem State.with_bus_fd0 (s : State) (x : BusResp) : State.fd0 { s with bus := x } = s.fd0 := rfl
theorem State.with_bus_fd1 (s : State) (x : BusResp) : State.fd1 { s with bus := x } = s.fd1 := rfl
theorem State.with_bus_fd2 (s : State) (x : BusResp) : State.fd2 { s with bus := x } = s.fd2 := rfl
theorem State.with_bus_stamps (s : State) (x : BusResp) : State.stamps { s with bus := x } = s.stamps := rfl
theorem State.with_bus_tideE (s : State) (x : BusResp) : State.tideE { s with bus := x } = s.tideE := rfl
theorem State.with_bus_tideW (s : State) (x : BusResp) : State.tideW { s with bus := x } = s.tideW := rfl
theorem State.with_bus_tevArms (s : State) (x : BusResp) : State.tevArms { s with bus := x } = s.tevArms := rfl
theorem State.with_bus_evtRecs (s : State) (x : BusResp) : State.evtRecs { s with bus := x } = s.evtRecs := rfl
theorem State.with_bus_cvcE (s : State) (x : BusResp) : State.cvcE { s with bus := x } = s.cvcE := rfl
theorem State.with_bus_cvcW (s : State) (x : BusResp) : State.cvcW { s with bus := x } = s.cvcW := rfl
theorem State.with_bus_sels (s : State) (x : BusResp) : State.sels { s with bus := x } = s.sels := rfl
theorem State.with_bus_pwmRecs (s : State) (x : BusResp) : State.pwmRecs { s with bus := x } = s.pwmRecs := rfl
theorem State.with_bus_pwmWork (s : State) (x : BusResp) : State.pwmWork { s with bus := x } = s.pwmWork := rfl
theorem State.with_bus_cmnRecs (s : State) (x : BusResp) : State.cmnRecs { s with bus := x } = s.cmnRecs := rfl
theorem State.with_bus_canRxE (s : State) (x : BusResp) : State.canRxE { s with bus := x } = s.canRxE := rfl
theorem State.with_bus_canRxW (s : State) (x : BusResp) : State.canRxW { s with bus := x } = s.canRxW := rfl
theorem State.with_bus_canPorts (s : State) (x : BusResp) : State.canPorts { s with bus := x } = s.canPorts := rfl
theorem State.with_bus_fltQ (s : State) (x : BusResp) : State.fltQ { s with bus := x } = s.fltQ := rfl
theorem State.with_bus_canWork (s : State) (x : BusResp) : State.canWork { s with bus := x } = s.canWork := rfl
theorem State.with_bus_canHeld (s : State) (x : BusResp) : State.canHeld { s with bus := x } = s.canHeld := rfl
theorem State.with_bus_lins (s : State) (x : BusResp) : State.lins { s with bus := x } = s.lins := rfl
theorem State.with_bus_linWork (s : State) (x : BusResp) : State.linWork { s with bus := x } = s.linWork := rfl
theorem State.with_bus_tbs (s : State) (x : BusResp) : State.tbs { s with bus := x } = s.tbs := rfl
theorem State.with_bus_eth (s : State) (x : BusResp) : State.eth { s with bus := x } = s.eth := rfl
theorem State.with_bus_harbInE (s : State) (x : BusResp) : State.harbInE { s with bus := x } = s.harbInE := rfl
theorem State.with_bus_harbInW (s : State) (x : BusResp) : State.harbInW { s with bus := x } = s.harbInW := rfl
theorem State.with_bus_harbHeld (s : State) (x : BusResp) : State.harbHeld { s with bus := x } = s.harbHeld := rfl
theorem State.with_bus_pduFails (s : State) (x : BusResp) : State.pduFails { s with bus := x } = s.pduFails := rfl
theorem State.with_bus_harbE (s : State) (x : BusResp) : State.harbE { s with bus := x } = s.harbE := rfl
theorem State.with_bus_harbW (s : State) (x : BusResp) : State.harbW { s with bus := x } = s.harbW := rfl
theorem State.with_bus_cw (s : State) (x : BusResp) : State.cw { s with bus := x } = s.cw := rfl
theorem State.with_bus_nms (s : State) (x : BusResp) : State.nms { s with bus := x } = s.nms := rfl
theorem State.with_bus_grants (s : State) (x : BusResp) : State.grants { s with bus := x } = s.grants := rfl
theorem State.with_bus_vfOps (s : State) (x : BusResp) : State.vfOps { s with bus := x } = s.vfOps := rfl
theorem State.with_bus_quiesces (s : State) (x : BusResp) : State.quiesces { s with bus := x } = s.quiesces := rfl
theorem State.with_bus_iovQs (s : State) (x : BusResp) : State.iovQs { s with bus := x } = s.iovQs := rfl
theorem State.with_bus_potUpds (s : State) (x : BusResp) : State.potUpds { s with bus := x } = s.potUpds := rfl
theorem State.with_bus_copies (s : State) (x : BusResp) : State.copies { s with bus := x } = s.copies := rfl
theorem State.with_bus_lstepTests (s : State) (x : BusResp) : State.lstepTests { s with bus := x } = s.lstepTests := rfl
theorem State.with_bus_tamperLog (s : State) (x : BusResp) : State.tamperLog { s with bus := x } = s.tamperLog := rfl
theorem State.with_bus_secE (s : State) (x : BusResp) : State.secE { s with bus := x } = s.secE := rfl
theorem State.with_bus_secW (s : State) (x : BusResp) : State.secW { s with bus := x } = s.secW := rfl
theorem State.with_bus_keyOps (s : State) (x : BusResp) : State.keyOps { s with bus := x } = s.keyOps := rfl
theorem State.with_bus_pmReqs (s : State) (x : BusResp) : State.pmReqs { s with bus := x } = s.pmReqs := rfl
theorem State.with_bus_ownOps (s : State) (x : BusResp) : State.ownOps { s with bus := x } = s.ownOps := rfl
theorem State.with_bus_fuseOps (s : State) (x : BusResp) : State.fuseOps { s with bus := x } = s.fuseOps := rfl
theorem State.with_bus_upd (s : State) (x : BusResp) : State.upd { s with bus := x } = s.upd := rfl
theorem State.with_bus_calUs (s : State) (x : BusResp) : State.calUs { s with bus := x } = s.calUs := rfl
theorem State.with_bus_parE (s : State) (x : BusResp) : State.parE { s with bus := x } = s.parE := rfl
theorem State.with_bus_parW (s : State) (x : BusResp) : State.parW { s with bus := x } = s.parW := rfl

/-! ### A new value of `led` -/

theorem State.with_led_pending (s : State) (x : Ledger) : State.pending { s with led := x } = s.pending := rfl
theorem State.with_led_now (s : State) (x : Ledger) : State.now { s with led := x } = s.now := rfl
theorem State.with_led_freeCtr (s : State) (x : Ledger) : State.freeCtr { s with led := x } = s.freeCtr := rfl
theorem State.with_led_regs (s : State) (x : Ledger) : State.regs { s with led := x } = s.regs := rfl
theorem State.with_led_mem (s : State) (x : Ledger) : State.mem { s with led := x } = s.mem := rfl
theorem State.with_led_bus (s : State) (x : Ledger) : State.bus { s with led := x } = s.bus := rfl
theorem State.with_led_irqs (s : State) (x : Ledger) : State.irqs { s with led := x } = s.irqs := rfl
theorem State.with_led_outbox (s : State) (x : Ledger) : State.outbox { s with led := x } = s.outbox := rfl
theorem State.with_led_commits (s : State) (x : Ledger) : State.commits { s with led := x } = s.commits := rfl
theorem State.with_led_nums (s : State) (x : Ledger) : State.nums { s with led := x } = s.nums := rfl
theorem State.with_led_p0 (s : State) (x : Ledger) : State.p0 { s with led := x } = s.p0 := rfl
theorem State.with_led_p1 (s : State) (x : Ledger) : State.p1 { s with led := x } = s.p1 := rfl
theorem State.with_led_f0 (s : State) (x : Ledger) : State.f0 { s with led := x } = s.f0 := rfl
theorem State.with_led_f1 (s : State) (x : Ledger) : State.f1 { s with led := x } = s.f1 := rfl
theorem State.with_led_fi (s : State) (x : Ledger) : State.fi { s with led := x } = s.fi := rfl
theorem State.with_led_cmn (s : State) (x : Ledger) : State.cmn { s with led := x } = s.cmn := rfl
theorem State.with_led_arb (s : State) (x : Ledger) : State.arb { s with led := x } = s.arb := rfl
theorem State.with_led_ferry (s : State) (x : Ledger) : State.ferry { s with led := x } = s.ferry := rfl
theorem State.with_led_laneE (s : State) (x : Ledger) : State.laneE { s with led := x } = s.laneE := rfl
theorem State.with_led_laneW (s : State) (x : Ledger) : State.laneW { s with led := x } = s.laneW := rfl
theorem State.with_led_sessions (s : State) (x : Ledger) : State.sessions { s with led := x } = s.sessions := rfl
theorem State.with_led_scs (s : State) (x : Ledger) : State.scs { s with led := x } = s.scs := rfl
theorem State.with_led_mod_ (s : State) (x : Ledger) : State.mod_ { s with led := x } = s.mod_ := rfl
theorem State.with_led_urgents (s : State) (x : Ledger) : State.urgents { s with led := x } = s.urgents := rfl
theorem State.with_led_outs (s : State) (x : Ledger) : State.outs { s with led := x } = s.outs := rfl
theorem State.with_led_feeds (s : State) (x : Ledger) : State.feeds { s with led := x } = s.feeds := rfl
theorem State.with_led_pw0 (s : State) (x : Ledger) : State.pw0 { s with led := x } = s.pw0 := rfl
theorem State.with_led_pw1 (s : State) (x : Ledger) : State.pw1 { s with led := x } = s.pw1 := rfl
theorem State.with_led_fcs (s : State) (x : Ledger) : State.fcs { s with led := x } = s.fcs := rfl
theorem State.with_led_fd0 (s : State) (x : Ledger) : State.fd0 { s with led := x } = s.fd0 := rfl
theorem State.with_led_fd1 (s : State) (x : Ledger) : State.fd1 { s with led := x } = s.fd1 := rfl
theorem State.with_led_fd2 (s : State) (x : Ledger) : State.fd2 { s with led := x } = s.fd2 := rfl
theorem State.with_led_stamps (s : State) (x : Ledger) : State.stamps { s with led := x } = s.stamps := rfl
theorem State.with_led_tideE (s : State) (x : Ledger) : State.tideE { s with led := x } = s.tideE := rfl
theorem State.with_led_tideW (s : State) (x : Ledger) : State.tideW { s with led := x } = s.tideW := rfl
theorem State.with_led_tevArms (s : State) (x : Ledger) : State.tevArms { s with led := x } = s.tevArms := rfl
theorem State.with_led_evtRecs (s : State) (x : Ledger) : State.evtRecs { s with led := x } = s.evtRecs := rfl
theorem State.with_led_cvcE (s : State) (x : Ledger) : State.cvcE { s with led := x } = s.cvcE := rfl
theorem State.with_led_cvcW (s : State) (x : Ledger) : State.cvcW { s with led := x } = s.cvcW := rfl
theorem State.with_led_sels (s : State) (x : Ledger) : State.sels { s with led := x } = s.sels := rfl
theorem State.with_led_pwmRecs (s : State) (x : Ledger) : State.pwmRecs { s with led := x } = s.pwmRecs := rfl
theorem State.with_led_pwmWork (s : State) (x : Ledger) : State.pwmWork { s with led := x } = s.pwmWork := rfl
theorem State.with_led_cmnRecs (s : State) (x : Ledger) : State.cmnRecs { s with led := x } = s.cmnRecs := rfl
theorem State.with_led_canRxE (s : State) (x : Ledger) : State.canRxE { s with led := x } = s.canRxE := rfl
theorem State.with_led_canRxW (s : State) (x : Ledger) : State.canRxW { s with led := x } = s.canRxW := rfl
theorem State.with_led_canPorts (s : State) (x : Ledger) : State.canPorts { s with led := x } = s.canPorts := rfl
theorem State.with_led_fltQ (s : State) (x : Ledger) : State.fltQ { s with led := x } = s.fltQ := rfl
theorem State.with_led_canWork (s : State) (x : Ledger) : State.canWork { s with led := x } = s.canWork := rfl
theorem State.with_led_canHeld (s : State) (x : Ledger) : State.canHeld { s with led := x } = s.canHeld := rfl
theorem State.with_led_lins (s : State) (x : Ledger) : State.lins { s with led := x } = s.lins := rfl
theorem State.with_led_linWork (s : State) (x : Ledger) : State.linWork { s with led := x } = s.linWork := rfl
theorem State.with_led_tbs (s : State) (x : Ledger) : State.tbs { s with led := x } = s.tbs := rfl
theorem State.with_led_eth (s : State) (x : Ledger) : State.eth { s with led := x } = s.eth := rfl
theorem State.with_led_harbInE (s : State) (x : Ledger) : State.harbInE { s with led := x } = s.harbInE := rfl
theorem State.with_led_harbInW (s : State) (x : Ledger) : State.harbInW { s with led := x } = s.harbInW := rfl
theorem State.with_led_harbHeld (s : State) (x : Ledger) : State.harbHeld { s with led := x } = s.harbHeld := rfl
theorem State.with_led_pduFails (s : State) (x : Ledger) : State.pduFails { s with led := x } = s.pduFails := rfl
theorem State.with_led_harbE (s : State) (x : Ledger) : State.harbE { s with led := x } = s.harbE := rfl
theorem State.with_led_harbW (s : State) (x : Ledger) : State.harbW { s with led := x } = s.harbW := rfl
theorem State.with_led_cw (s : State) (x : Ledger) : State.cw { s with led := x } = s.cw := rfl
theorem State.with_led_nms (s : State) (x : Ledger) : State.nms { s with led := x } = s.nms := rfl
theorem State.with_led_grants (s : State) (x : Ledger) : State.grants { s with led := x } = s.grants := rfl
theorem State.with_led_vfOps (s : State) (x : Ledger) : State.vfOps { s with led := x } = s.vfOps := rfl
theorem State.with_led_quiesces (s : State) (x : Ledger) : State.quiesces { s with led := x } = s.quiesces := rfl
theorem State.with_led_iovQs (s : State) (x : Ledger) : State.iovQs { s with led := x } = s.iovQs := rfl
theorem State.with_led_potUpds (s : State) (x : Ledger) : State.potUpds { s with led := x } = s.potUpds := rfl
theorem State.with_led_copies (s : State) (x : Ledger) : State.copies { s with led := x } = s.copies := rfl
theorem State.with_led_lstepTests (s : State) (x : Ledger) : State.lstepTests { s with led := x } = s.lstepTests := rfl
theorem State.with_led_tamperLog (s : State) (x : Ledger) : State.tamperLog { s with led := x } = s.tamperLog := rfl
theorem State.with_led_secE (s : State) (x : Ledger) : State.secE { s with led := x } = s.secE := rfl
theorem State.with_led_secW (s : State) (x : Ledger) : State.secW { s with led := x } = s.secW := rfl
theorem State.with_led_keyOps (s : State) (x : Ledger) : State.keyOps { s with led := x } = s.keyOps := rfl
theorem State.with_led_pmReqs (s : State) (x : Ledger) : State.pmReqs { s with led := x } = s.pmReqs := rfl
theorem State.with_led_ownOps (s : State) (x : Ledger) : State.ownOps { s with led := x } = s.ownOps := rfl
theorem State.with_led_fuseOps (s : State) (x : Ledger) : State.fuseOps { s with led := x } = s.fuseOps := rfl
theorem State.with_led_upd (s : State) (x : Ledger) : State.upd { s with led := x } = s.upd := rfl
theorem State.with_led_calUs (s : State) (x : Ledger) : State.calUs { s with led := x } = s.calUs := rfl
theorem State.with_led_parE (s : State) (x : Ledger) : State.parE { s with led := x } = s.parE := rfl
theorem State.with_led_parW (s : State) (x : Ledger) : State.parW { s with led := x } = s.parW := rfl

/-! ### A new value of `commits` -/

theorem State.with_commits_pending (s : State) (x : List Commit) : State.pending { s with commits := x } = s.pending := rfl
theorem State.with_commits_now (s : State) (x : List Commit) : State.now { s with commits := x } = s.now := rfl
theorem State.with_commits_freeCtr (s : State) (x : List Commit) : State.freeCtr { s with commits := x } = s.freeCtr := rfl
theorem State.with_commits_regs (s : State) (x : List Commit) : State.regs { s with commits := x } = s.regs := rfl
theorem State.with_commits_mem (s : State) (x : List Commit) : State.mem { s with commits := x } = s.mem := rfl
theorem State.with_commits_bus (s : State) (x : List Commit) : State.bus { s with commits := x } = s.bus := rfl
theorem State.with_commits_irqs (s : State) (x : List Commit) : State.irqs { s with commits := x } = s.irqs := rfl
theorem State.with_commits_outbox (s : State) (x : List Commit) : State.outbox { s with commits := x } = s.outbox := rfl
theorem State.with_commits_led (s : State) (x : List Commit) : State.led { s with commits := x } = s.led := rfl
theorem State.with_commits_nums (s : State) (x : List Commit) : State.nums { s with commits := x } = s.nums := rfl
theorem State.with_commits_p0 (s : State) (x : List Commit) : State.p0 { s with commits := x } = s.p0 := rfl
theorem State.with_commits_p1 (s : State) (x : List Commit) : State.p1 { s with commits := x } = s.p1 := rfl
theorem State.with_commits_f0 (s : State) (x : List Commit) : State.f0 { s with commits := x } = s.f0 := rfl
theorem State.with_commits_f1 (s : State) (x : List Commit) : State.f1 { s with commits := x } = s.f1 := rfl
theorem State.with_commits_fi (s : State) (x : List Commit) : State.fi { s with commits := x } = s.fi := rfl
theorem State.with_commits_cmn (s : State) (x : List Commit) : State.cmn { s with commits := x } = s.cmn := rfl
theorem State.with_commits_arb (s : State) (x : List Commit) : State.arb { s with commits := x } = s.arb := rfl
theorem State.with_commits_ferry (s : State) (x : List Commit) : State.ferry { s with commits := x } = s.ferry := rfl
theorem State.with_commits_laneE (s : State) (x : List Commit) : State.laneE { s with commits := x } = s.laneE := rfl
theorem State.with_commits_laneW (s : State) (x : List Commit) : State.laneW { s with commits := x } = s.laneW := rfl
theorem State.with_commits_sessions (s : State) (x : List Commit) : State.sessions { s with commits := x } = s.sessions := rfl
theorem State.with_commits_scs (s : State) (x : List Commit) : State.scs { s with commits := x } = s.scs := rfl
theorem State.with_commits_mod_ (s : State) (x : List Commit) : State.mod_ { s with commits := x } = s.mod_ := rfl
theorem State.with_commits_urgents (s : State) (x : List Commit) : State.urgents { s with commits := x } = s.urgents := rfl
theorem State.with_commits_outs (s : State) (x : List Commit) : State.outs { s with commits := x } = s.outs := rfl
theorem State.with_commits_feeds (s : State) (x : List Commit) : State.feeds { s with commits := x } = s.feeds := rfl
theorem State.with_commits_pw0 (s : State) (x : List Commit) : State.pw0 { s with commits := x } = s.pw0 := rfl
theorem State.with_commits_pw1 (s : State) (x : List Commit) : State.pw1 { s with commits := x } = s.pw1 := rfl
theorem State.with_commits_fcs (s : State) (x : List Commit) : State.fcs { s with commits := x } = s.fcs := rfl
theorem State.with_commits_fd0 (s : State) (x : List Commit) : State.fd0 { s with commits := x } = s.fd0 := rfl
theorem State.with_commits_fd1 (s : State) (x : List Commit) : State.fd1 { s with commits := x } = s.fd1 := rfl
theorem State.with_commits_fd2 (s : State) (x : List Commit) : State.fd2 { s with commits := x } = s.fd2 := rfl
theorem State.with_commits_stamps (s : State) (x : List Commit) : State.stamps { s with commits := x } = s.stamps := rfl
theorem State.with_commits_tideE (s : State) (x : List Commit) : State.tideE { s with commits := x } = s.tideE := rfl
theorem State.with_commits_tideW (s : State) (x : List Commit) : State.tideW { s with commits := x } = s.tideW := rfl
theorem State.with_commits_tevArms (s : State) (x : List Commit) : State.tevArms { s with commits := x } = s.tevArms := rfl
theorem State.with_commits_evtRecs (s : State) (x : List Commit) : State.evtRecs { s with commits := x } = s.evtRecs := rfl
theorem State.with_commits_cvcE (s : State) (x : List Commit) : State.cvcE { s with commits := x } = s.cvcE := rfl
theorem State.with_commits_cvcW (s : State) (x : List Commit) : State.cvcW { s with commits := x } = s.cvcW := rfl
theorem State.with_commits_sels (s : State) (x : List Commit) : State.sels { s with commits := x } = s.sels := rfl
theorem State.with_commits_pwmRecs (s : State) (x : List Commit) : State.pwmRecs { s with commits := x } = s.pwmRecs := rfl
theorem State.with_commits_pwmWork (s : State) (x : List Commit) : State.pwmWork { s with commits := x } = s.pwmWork := rfl
theorem State.with_commits_cmnRecs (s : State) (x : List Commit) : State.cmnRecs { s with commits := x } = s.cmnRecs := rfl
theorem State.with_commits_canRxE (s : State) (x : List Commit) : State.canRxE { s with commits := x } = s.canRxE := rfl
theorem State.with_commits_canRxW (s : State) (x : List Commit) : State.canRxW { s with commits := x } = s.canRxW := rfl
theorem State.with_commits_canPorts (s : State) (x : List Commit) : State.canPorts { s with commits := x } = s.canPorts := rfl
theorem State.with_commits_fltQ (s : State) (x : List Commit) : State.fltQ { s with commits := x } = s.fltQ := rfl
theorem State.with_commits_canWork (s : State) (x : List Commit) : State.canWork { s with commits := x } = s.canWork := rfl
theorem State.with_commits_canHeld (s : State) (x : List Commit) : State.canHeld { s with commits := x } = s.canHeld := rfl
theorem State.with_commits_lins (s : State) (x : List Commit) : State.lins { s with commits := x } = s.lins := rfl
theorem State.with_commits_linWork (s : State) (x : List Commit) : State.linWork { s with commits := x } = s.linWork := rfl
theorem State.with_commits_tbs (s : State) (x : List Commit) : State.tbs { s with commits := x } = s.tbs := rfl
theorem State.with_commits_eth (s : State) (x : List Commit) : State.eth { s with commits := x } = s.eth := rfl
theorem State.with_commits_harbInE (s : State) (x : List Commit) : State.harbInE { s with commits := x } = s.harbInE := rfl
theorem State.with_commits_harbInW (s : State) (x : List Commit) : State.harbInW { s with commits := x } = s.harbInW := rfl
theorem State.with_commits_harbHeld (s : State) (x : List Commit) : State.harbHeld { s with commits := x } = s.harbHeld := rfl
theorem State.with_commits_pduFails (s : State) (x : List Commit) : State.pduFails { s with commits := x } = s.pduFails := rfl
theorem State.with_commits_harbE (s : State) (x : List Commit) : State.harbE { s with commits := x } = s.harbE := rfl
theorem State.with_commits_harbW (s : State) (x : List Commit) : State.harbW { s with commits := x } = s.harbW := rfl
theorem State.with_commits_cw (s : State) (x : List Commit) : State.cw { s with commits := x } = s.cw := rfl
theorem State.with_commits_nms (s : State) (x : List Commit) : State.nms { s with commits := x } = s.nms := rfl
theorem State.with_commits_grants (s : State) (x : List Commit) : State.grants { s with commits := x } = s.grants := rfl
theorem State.with_commits_vfOps (s : State) (x : List Commit) : State.vfOps { s with commits := x } = s.vfOps := rfl
theorem State.with_commits_quiesces (s : State) (x : List Commit) : State.quiesces { s with commits := x } = s.quiesces := rfl
theorem State.with_commits_iovQs (s : State) (x : List Commit) : State.iovQs { s with commits := x } = s.iovQs := rfl
theorem State.with_commits_potUpds (s : State) (x : List Commit) : State.potUpds { s with commits := x } = s.potUpds := rfl
theorem State.with_commits_copies (s : State) (x : List Commit) : State.copies { s with commits := x } = s.copies := rfl
theorem State.with_commits_lstepTests (s : State) (x : List Commit) : State.lstepTests { s with commits := x } = s.lstepTests := rfl
theorem State.with_commits_tamperLog (s : State) (x : List Commit) : State.tamperLog { s with commits := x } = s.tamperLog := rfl
theorem State.with_commits_secE (s : State) (x : List Commit) : State.secE { s with commits := x } = s.secE := rfl
theorem State.with_commits_secW (s : State) (x : List Commit) : State.secW { s with commits := x } = s.secW := rfl
theorem State.with_commits_keyOps (s : State) (x : List Commit) : State.keyOps { s with commits := x } = s.keyOps := rfl
theorem State.with_commits_pmReqs (s : State) (x : List Commit) : State.pmReqs { s with commits := x } = s.pmReqs := rfl
theorem State.with_commits_ownOps (s : State) (x : List Commit) : State.ownOps { s with commits := x } = s.ownOps := rfl
theorem State.with_commits_fuseOps (s : State) (x : List Commit) : State.fuseOps { s with commits := x } = s.fuseOps := rfl
theorem State.with_commits_upd (s : State) (x : List Commit) : State.upd { s with commits := x } = s.upd := rfl
theorem State.with_commits_calUs (s : State) (x : List Commit) : State.calUs { s with commits := x } = s.calUs := rfl
theorem State.with_commits_parE (s : State) (x : List Commit) : State.parE { s with commits := x } = s.parE := rfl
theorem State.with_commits_parW (s : State) (x : List Commit) : State.parW { s with commits := x } = s.parW := rfl

/-! ### A new value of `nums` -/

theorem State.with_nums_pending (s : State) (x : List CommitNum) : State.pending { s with nums := x } = s.pending := rfl
theorem State.with_nums_now (s : State) (x : List CommitNum) : State.now { s with nums := x } = s.now := rfl
theorem State.with_nums_freeCtr (s : State) (x : List CommitNum) : State.freeCtr { s with nums := x } = s.freeCtr := rfl
theorem State.with_nums_regs (s : State) (x : List CommitNum) : State.regs { s with nums := x } = s.regs := rfl
theorem State.with_nums_mem (s : State) (x : List CommitNum) : State.mem { s with nums := x } = s.mem := rfl
theorem State.with_nums_bus (s : State) (x : List CommitNum) : State.bus { s with nums := x } = s.bus := rfl
theorem State.with_nums_irqs (s : State) (x : List CommitNum) : State.irqs { s with nums := x } = s.irqs := rfl
theorem State.with_nums_outbox (s : State) (x : List CommitNum) : State.outbox { s with nums := x } = s.outbox := rfl
theorem State.with_nums_led (s : State) (x : List CommitNum) : State.led { s with nums := x } = s.led := rfl
theorem State.with_nums_commits (s : State) (x : List CommitNum) : State.commits { s with nums := x } = s.commits := rfl
theorem State.with_nums_p0 (s : State) (x : List CommitNum) : State.p0 { s with nums := x } = s.p0 := rfl
theorem State.with_nums_p1 (s : State) (x : List CommitNum) : State.p1 { s with nums := x } = s.p1 := rfl
theorem State.with_nums_f0 (s : State) (x : List CommitNum) : State.f0 { s with nums := x } = s.f0 := rfl
theorem State.with_nums_f1 (s : State) (x : List CommitNum) : State.f1 { s with nums := x } = s.f1 := rfl
theorem State.with_nums_fi (s : State) (x : List CommitNum) : State.fi { s with nums := x } = s.fi := rfl
theorem State.with_nums_cmn (s : State) (x : List CommitNum) : State.cmn { s with nums := x } = s.cmn := rfl
theorem State.with_nums_arb (s : State) (x : List CommitNum) : State.arb { s with nums := x } = s.arb := rfl
theorem State.with_nums_ferry (s : State) (x : List CommitNum) : State.ferry { s with nums := x } = s.ferry := rfl
theorem State.with_nums_laneE (s : State) (x : List CommitNum) : State.laneE { s with nums := x } = s.laneE := rfl
theorem State.with_nums_laneW (s : State) (x : List CommitNum) : State.laneW { s with nums := x } = s.laneW := rfl
theorem State.with_nums_sessions (s : State) (x : List CommitNum) : State.sessions { s with nums := x } = s.sessions := rfl
theorem State.with_nums_scs (s : State) (x : List CommitNum) : State.scs { s with nums := x } = s.scs := rfl
theorem State.with_nums_mod_ (s : State) (x : List CommitNum) : State.mod_ { s with nums := x } = s.mod_ := rfl
theorem State.with_nums_urgents (s : State) (x : List CommitNum) : State.urgents { s with nums := x } = s.urgents := rfl
theorem State.with_nums_outs (s : State) (x : List CommitNum) : State.outs { s with nums := x } = s.outs := rfl
theorem State.with_nums_feeds (s : State) (x : List CommitNum) : State.feeds { s with nums := x } = s.feeds := rfl
theorem State.with_nums_pw0 (s : State) (x : List CommitNum) : State.pw0 { s with nums := x } = s.pw0 := rfl
theorem State.with_nums_pw1 (s : State) (x : List CommitNum) : State.pw1 { s with nums := x } = s.pw1 := rfl
theorem State.with_nums_fcs (s : State) (x : List CommitNum) : State.fcs { s with nums := x } = s.fcs := rfl
theorem State.with_nums_fd0 (s : State) (x : List CommitNum) : State.fd0 { s with nums := x } = s.fd0 := rfl
theorem State.with_nums_fd1 (s : State) (x : List CommitNum) : State.fd1 { s with nums := x } = s.fd1 := rfl
theorem State.with_nums_fd2 (s : State) (x : List CommitNum) : State.fd2 { s with nums := x } = s.fd2 := rfl
theorem State.with_nums_stamps (s : State) (x : List CommitNum) : State.stamps { s with nums := x } = s.stamps := rfl
theorem State.with_nums_tideE (s : State) (x : List CommitNum) : State.tideE { s with nums := x } = s.tideE := rfl
theorem State.with_nums_tideW (s : State) (x : List CommitNum) : State.tideW { s with nums := x } = s.tideW := rfl
theorem State.with_nums_tevArms (s : State) (x : List CommitNum) : State.tevArms { s with nums := x } = s.tevArms := rfl
theorem State.with_nums_evtRecs (s : State) (x : List CommitNum) : State.evtRecs { s with nums := x } = s.evtRecs := rfl
theorem State.with_nums_cvcE (s : State) (x : List CommitNum) : State.cvcE { s with nums := x } = s.cvcE := rfl
theorem State.with_nums_cvcW (s : State) (x : List CommitNum) : State.cvcW { s with nums := x } = s.cvcW := rfl
theorem State.with_nums_sels (s : State) (x : List CommitNum) : State.sels { s with nums := x } = s.sels := rfl
theorem State.with_nums_pwmRecs (s : State) (x : List CommitNum) : State.pwmRecs { s with nums := x } = s.pwmRecs := rfl
theorem State.with_nums_pwmWork (s : State) (x : List CommitNum) : State.pwmWork { s with nums := x } = s.pwmWork := rfl
theorem State.with_nums_cmnRecs (s : State) (x : List CommitNum) : State.cmnRecs { s with nums := x } = s.cmnRecs := rfl
theorem State.with_nums_canRxE (s : State) (x : List CommitNum) : State.canRxE { s with nums := x } = s.canRxE := rfl
theorem State.with_nums_canRxW (s : State) (x : List CommitNum) : State.canRxW { s with nums := x } = s.canRxW := rfl
theorem State.with_nums_canPorts (s : State) (x : List CommitNum) : State.canPorts { s with nums := x } = s.canPorts := rfl
theorem State.with_nums_fltQ (s : State) (x : List CommitNum) : State.fltQ { s with nums := x } = s.fltQ := rfl
theorem State.with_nums_canWork (s : State) (x : List CommitNum) : State.canWork { s with nums := x } = s.canWork := rfl
theorem State.with_nums_canHeld (s : State) (x : List CommitNum) : State.canHeld { s with nums := x } = s.canHeld := rfl
theorem State.with_nums_lins (s : State) (x : List CommitNum) : State.lins { s with nums := x } = s.lins := rfl
theorem State.with_nums_linWork (s : State) (x : List CommitNum) : State.linWork { s with nums := x } = s.linWork := rfl
theorem State.with_nums_tbs (s : State) (x : List CommitNum) : State.tbs { s with nums := x } = s.tbs := rfl
theorem State.with_nums_eth (s : State) (x : List CommitNum) : State.eth { s with nums := x } = s.eth := rfl
theorem State.with_nums_harbInE (s : State) (x : List CommitNum) : State.harbInE { s with nums := x } = s.harbInE := rfl
theorem State.with_nums_harbInW (s : State) (x : List CommitNum) : State.harbInW { s with nums := x } = s.harbInW := rfl
theorem State.with_nums_harbHeld (s : State) (x : List CommitNum) : State.harbHeld { s with nums := x } = s.harbHeld := rfl
theorem State.with_nums_pduFails (s : State) (x : List CommitNum) : State.pduFails { s with nums := x } = s.pduFails := rfl
theorem State.with_nums_harbE (s : State) (x : List CommitNum) : State.harbE { s with nums := x } = s.harbE := rfl
theorem State.with_nums_harbW (s : State) (x : List CommitNum) : State.harbW { s with nums := x } = s.harbW := rfl
theorem State.with_nums_cw (s : State) (x : List CommitNum) : State.cw { s with nums := x } = s.cw := rfl
theorem State.with_nums_nms (s : State) (x : List CommitNum) : State.nms { s with nums := x } = s.nms := rfl
theorem State.with_nums_grants (s : State) (x : List CommitNum) : State.grants { s with nums := x } = s.grants := rfl
theorem State.with_nums_vfOps (s : State) (x : List CommitNum) : State.vfOps { s with nums := x } = s.vfOps := rfl
theorem State.with_nums_quiesces (s : State) (x : List CommitNum) : State.quiesces { s with nums := x } = s.quiesces := rfl
theorem State.with_nums_iovQs (s : State) (x : List CommitNum) : State.iovQs { s with nums := x } = s.iovQs := rfl
theorem State.with_nums_potUpds (s : State) (x : List CommitNum) : State.potUpds { s with nums := x } = s.potUpds := rfl
theorem State.with_nums_copies (s : State) (x : List CommitNum) : State.copies { s with nums := x } = s.copies := rfl
theorem State.with_nums_lstepTests (s : State) (x : List CommitNum) : State.lstepTests { s with nums := x } = s.lstepTests := rfl
theorem State.with_nums_tamperLog (s : State) (x : List CommitNum) : State.tamperLog { s with nums := x } = s.tamperLog := rfl
theorem State.with_nums_secE (s : State) (x : List CommitNum) : State.secE { s with nums := x } = s.secE := rfl
theorem State.with_nums_secW (s : State) (x : List CommitNum) : State.secW { s with nums := x } = s.secW := rfl
theorem State.with_nums_keyOps (s : State) (x : List CommitNum) : State.keyOps { s with nums := x } = s.keyOps := rfl
theorem State.with_nums_pmReqs (s : State) (x : List CommitNum) : State.pmReqs { s with nums := x } = s.pmReqs := rfl
theorem State.with_nums_ownOps (s : State) (x : List CommitNum) : State.ownOps { s with nums := x } = s.ownOps := rfl
theorem State.with_nums_fuseOps (s : State) (x : List CommitNum) : State.fuseOps { s with nums := x } = s.fuseOps := rfl
theorem State.with_nums_upd (s : State) (x : List CommitNum) : State.upd { s with nums := x } = s.upd := rfl
theorem State.with_nums_calUs (s : State) (x : List CommitNum) : State.calUs { s with nums := x } = s.calUs := rfl
theorem State.with_nums_parE (s : State) (x : List CommitNum) : State.parE { s with nums := x } = s.parE := rfl
theorem State.with_nums_parW (s : State) (x : List CommitNum) : State.parW { s with nums := x } = s.parW := rfl

/-! ### setReg -/

@[simp] theorem State.setReg_pending (s : State) (l : Lane) (a : Nat) (v : Word) : (s.setReg l a v).pending = s.pending :=
  State.with_regs_pending s _
@[simp] theorem State.setReg_now (s : State) (l : Lane) (a : Nat) (v : Word) : (s.setReg l a v).now = s.now :=
  State.with_regs_now s _
@[simp] theorem State.setReg_freeCtr (s : State) (l : Lane) (a : Nat) (v : Word) : (s.setReg l a v).freeCtr = s.freeCtr :=
  State.with_regs_freeCtr s _
@[simp] theorem State.setReg_mem (s : State) (l : Lane) (a : Nat) (v : Word) : (s.setReg l a v).mem = s.mem :=
  State.with_regs_mem s _
@[simp] theorem State.setReg_bus (s : State) (l : Lane) (a : Nat) (v : Word) : (s.setReg l a v).bus = s.bus :=
  State.with_regs_bus s _
@[simp] theorem State.setReg_irqs (s : State) (l : Lane) (a : Nat) (v : Word) : (s.setReg l a v).irqs = s.irqs :=
  State.with_regs_irqs s _
@[simp] theorem State.setReg_outbox (s : State) (l : Lane) (a : Nat) (v : Word) : (s.setReg l a v).outbox = s.outbox :=
  State.with_regs_outbox s _
@[simp] theorem State.setReg_led (s : State) (l : Lane) (a : Nat) (v : Word) : (s.setReg l a v).led = s.led :=
  State.with_regs_led s _
@[simp] theorem State.setReg_commits (s : State) (l : Lane) (a : Nat) (v : Word) : (s.setReg l a v).commits = s.commits :=
  State.with_regs_commits s _
@[simp] theorem State.setReg_nums (s : State) (l : Lane) (a : Nat) (v : Word) : (s.setReg l a v).nums = s.nums :=
  State.with_regs_nums s _
@[simp] theorem State.setReg_p0 (s : State) (l : Lane) (a : Nat) (v : Word) : (s.setReg l a v).p0 = s.p0 :=
  State.with_regs_p0 s _
@[simp] theorem State.setReg_p1 (s : State) (l : Lane) (a : Nat) (v : Word) : (s.setReg l a v).p1 = s.p1 :=
  State.with_regs_p1 s _
@[simp] theorem State.setReg_f0 (s : State) (l : Lane) (a : Nat) (v : Word) : (s.setReg l a v).f0 = s.f0 :=
  State.with_regs_f0 s _
@[simp] theorem State.setReg_f1 (s : State) (l : Lane) (a : Nat) (v : Word) : (s.setReg l a v).f1 = s.f1 :=
  State.with_regs_f1 s _
@[simp] theorem State.setReg_fi (s : State) (l : Lane) (a : Nat) (v : Word) : (s.setReg l a v).fi = s.fi :=
  State.with_regs_fi s _
@[simp] theorem State.setReg_cmn (s : State) (l : Lane) (a : Nat) (v : Word) : (s.setReg l a v).cmn = s.cmn :=
  State.with_regs_cmn s _
@[simp] theorem State.setReg_arb (s : State) (l : Lane) (a : Nat) (v : Word) : (s.setReg l a v).arb = s.arb :=
  State.with_regs_arb s _
@[simp] theorem State.setReg_ferry (s : State) (l : Lane) (a : Nat) (v : Word) : (s.setReg l a v).ferry = s.ferry :=
  State.with_regs_ferry s _
@[simp] theorem State.setReg_laneE (s : State) (l : Lane) (a : Nat) (v : Word) : (s.setReg l a v).laneE = s.laneE :=
  State.with_regs_laneE s _
@[simp] theorem State.setReg_laneW (s : State) (l : Lane) (a : Nat) (v : Word) : (s.setReg l a v).laneW = s.laneW :=
  State.with_regs_laneW s _
@[simp] theorem State.setReg_sessions (s : State) (l : Lane) (a : Nat) (v : Word) : (s.setReg l a v).sessions = s.sessions :=
  State.with_regs_sessions s _
@[simp] theorem State.setReg_scs (s : State) (l : Lane) (a : Nat) (v : Word) : (s.setReg l a v).scs = s.scs :=
  State.with_regs_scs s _
@[simp] theorem State.setReg_mod_ (s : State) (l : Lane) (a : Nat) (v : Word) : (s.setReg l a v).mod_ = s.mod_ :=
  State.with_regs_mod_ s _
@[simp] theorem State.setReg_urgents (s : State) (l : Lane) (a : Nat) (v : Word) : (s.setReg l a v).urgents = s.urgents :=
  State.with_regs_urgents s _
@[simp] theorem State.setReg_outs (s : State) (l : Lane) (a : Nat) (v : Word) : (s.setReg l a v).outs = s.outs :=
  State.with_regs_outs s _
@[simp] theorem State.setReg_feeds (s : State) (l : Lane) (a : Nat) (v : Word) : (s.setReg l a v).feeds = s.feeds :=
  State.with_regs_feeds s _
@[simp] theorem State.setReg_pw0 (s : State) (l : Lane) (a : Nat) (v : Word) : (s.setReg l a v).pw0 = s.pw0 :=
  State.with_regs_pw0 s _
@[simp] theorem State.setReg_pw1 (s : State) (l : Lane) (a : Nat) (v : Word) : (s.setReg l a v).pw1 = s.pw1 :=
  State.with_regs_pw1 s _
@[simp] theorem State.setReg_fcs (s : State) (l : Lane) (a : Nat) (v : Word) : (s.setReg l a v).fcs = s.fcs :=
  State.with_regs_fcs s _
@[simp] theorem State.setReg_fd0 (s : State) (l : Lane) (a : Nat) (v : Word) : (s.setReg l a v).fd0 = s.fd0 :=
  State.with_regs_fd0 s _
@[simp] theorem State.setReg_fd1 (s : State) (l : Lane) (a : Nat) (v : Word) : (s.setReg l a v).fd1 = s.fd1 :=
  State.with_regs_fd1 s _
@[simp] theorem State.setReg_fd2 (s : State) (l : Lane) (a : Nat) (v : Word) : (s.setReg l a v).fd2 = s.fd2 :=
  State.with_regs_fd2 s _
@[simp] theorem State.setReg_stamps (s : State) (l : Lane) (a : Nat) (v : Word) : (s.setReg l a v).stamps = s.stamps :=
  State.with_regs_stamps s _
@[simp] theorem State.setReg_tideE (s : State) (l : Lane) (a : Nat) (v : Word) : (s.setReg l a v).tideE = s.tideE :=
  State.with_regs_tideE s _
@[simp] theorem State.setReg_tideW (s : State) (l : Lane) (a : Nat) (v : Word) : (s.setReg l a v).tideW = s.tideW :=
  State.with_regs_tideW s _
@[simp] theorem State.setReg_tevArms (s : State) (l : Lane) (a : Nat) (v : Word) : (s.setReg l a v).tevArms = s.tevArms :=
  State.with_regs_tevArms s _
@[simp] theorem State.setReg_evtRecs (s : State) (l : Lane) (a : Nat) (v : Word) : (s.setReg l a v).evtRecs = s.evtRecs :=
  State.with_regs_evtRecs s _
@[simp] theorem State.setReg_cvcE (s : State) (l : Lane) (a : Nat) (v : Word) : (s.setReg l a v).cvcE = s.cvcE :=
  State.with_regs_cvcE s _
@[simp] theorem State.setReg_cvcW (s : State) (l : Lane) (a : Nat) (v : Word) : (s.setReg l a v).cvcW = s.cvcW :=
  State.with_regs_cvcW s _
@[simp] theorem State.setReg_sels (s : State) (l : Lane) (a : Nat) (v : Word) : (s.setReg l a v).sels = s.sels :=
  State.with_regs_sels s _
@[simp] theorem State.setReg_pwmRecs (s : State) (l : Lane) (a : Nat) (v : Word) : (s.setReg l a v).pwmRecs = s.pwmRecs :=
  State.with_regs_pwmRecs s _
@[simp] theorem State.setReg_pwmWork (s : State) (l : Lane) (a : Nat) (v : Word) : (s.setReg l a v).pwmWork = s.pwmWork :=
  State.with_regs_pwmWork s _
@[simp] theorem State.setReg_cmnRecs (s : State) (l : Lane) (a : Nat) (v : Word) : (s.setReg l a v).cmnRecs = s.cmnRecs :=
  State.with_regs_cmnRecs s _
@[simp] theorem State.setReg_canRxE (s : State) (l : Lane) (a : Nat) (v : Word) : (s.setReg l a v).canRxE = s.canRxE :=
  State.with_regs_canRxE s _
@[simp] theorem State.setReg_canRxW (s : State) (l : Lane) (a : Nat) (v : Word) : (s.setReg l a v).canRxW = s.canRxW :=
  State.with_regs_canRxW s _
@[simp] theorem State.setReg_canPorts (s : State) (l : Lane) (a : Nat) (v : Word) : (s.setReg l a v).canPorts = s.canPorts :=
  State.with_regs_canPorts s _
@[simp] theorem State.setReg_fltQ (s : State) (l : Lane) (a : Nat) (v : Word) : (s.setReg l a v).fltQ = s.fltQ :=
  State.with_regs_fltQ s _
@[simp] theorem State.setReg_canWork (s : State) (l : Lane) (a : Nat) (v : Word) : (s.setReg l a v).canWork = s.canWork :=
  State.with_regs_canWork s _
@[simp] theorem State.setReg_canHeld (s : State) (l : Lane) (a : Nat) (v : Word) : (s.setReg l a v).canHeld = s.canHeld :=
  State.with_regs_canHeld s _
@[simp] theorem State.setReg_lins (s : State) (l : Lane) (a : Nat) (v : Word) : (s.setReg l a v).lins = s.lins :=
  State.with_regs_lins s _
@[simp] theorem State.setReg_linWork (s : State) (l : Lane) (a : Nat) (v : Word) : (s.setReg l a v).linWork = s.linWork :=
  State.with_regs_linWork s _
@[simp] theorem State.setReg_tbs (s : State) (l : Lane) (a : Nat) (v : Word) : (s.setReg l a v).tbs = s.tbs :=
  State.with_regs_tbs s _
@[simp] theorem State.setReg_eth (s : State) (l : Lane) (a : Nat) (v : Word) : (s.setReg l a v).eth = s.eth :=
  State.with_regs_eth s _
@[simp] theorem State.setReg_harbInE (s : State) (l : Lane) (a : Nat) (v : Word) : (s.setReg l a v).harbInE = s.harbInE :=
  State.with_regs_harbInE s _
@[simp] theorem State.setReg_harbInW (s : State) (l : Lane) (a : Nat) (v : Word) : (s.setReg l a v).harbInW = s.harbInW :=
  State.with_regs_harbInW s _
@[simp] theorem State.setReg_harbHeld (s : State) (l : Lane) (a : Nat) (v : Word) : (s.setReg l a v).harbHeld = s.harbHeld :=
  State.with_regs_harbHeld s _
@[simp] theorem State.setReg_pduFails (s : State) (l : Lane) (a : Nat) (v : Word) : (s.setReg l a v).pduFails = s.pduFails :=
  State.with_regs_pduFails s _
@[simp] theorem State.setReg_harbE (s : State) (l : Lane) (a : Nat) (v : Word) : (s.setReg l a v).harbE = s.harbE :=
  State.with_regs_harbE s _
@[simp] theorem State.setReg_harbW (s : State) (l : Lane) (a : Nat) (v : Word) : (s.setReg l a v).harbW = s.harbW :=
  State.with_regs_harbW s _
@[simp] theorem State.setReg_cw (s : State) (l : Lane) (a : Nat) (v : Word) : (s.setReg l a v).cw = s.cw :=
  State.with_regs_cw s _
@[simp] theorem State.setReg_nms (s : State) (l : Lane) (a : Nat) (v : Word) : (s.setReg l a v).nms = s.nms :=
  State.with_regs_nms s _
@[simp] theorem State.setReg_grants (s : State) (l : Lane) (a : Nat) (v : Word) : (s.setReg l a v).grants = s.grants :=
  State.with_regs_grants s _
@[simp] theorem State.setReg_vfOps (s : State) (l : Lane) (a : Nat) (v : Word) : (s.setReg l a v).vfOps = s.vfOps :=
  State.with_regs_vfOps s _
@[simp] theorem State.setReg_quiesces (s : State) (l : Lane) (a : Nat) (v : Word) : (s.setReg l a v).quiesces = s.quiesces :=
  State.with_regs_quiesces s _
@[simp] theorem State.setReg_iovQs (s : State) (l : Lane) (a : Nat) (v : Word) : (s.setReg l a v).iovQs = s.iovQs :=
  State.with_regs_iovQs s _
@[simp] theorem State.setReg_potUpds (s : State) (l : Lane) (a : Nat) (v : Word) : (s.setReg l a v).potUpds = s.potUpds :=
  State.with_regs_potUpds s _
@[simp] theorem State.setReg_copies (s : State) (l : Lane) (a : Nat) (v : Word) : (s.setReg l a v).copies = s.copies :=
  State.with_regs_copies s _
@[simp] theorem State.setReg_lstepTests (s : State) (l : Lane) (a : Nat) (v : Word) : (s.setReg l a v).lstepTests = s.lstepTests :=
  State.with_regs_lstepTests s _
@[simp] theorem State.setReg_tamperLog (s : State) (l : Lane) (a : Nat) (v : Word) : (s.setReg l a v).tamperLog = s.tamperLog :=
  State.with_regs_tamperLog s _
@[simp] theorem State.setReg_secE (s : State) (l : Lane) (a : Nat) (v : Word) : (s.setReg l a v).secE = s.secE :=
  State.with_regs_secE s _
@[simp] theorem State.setReg_secW (s : State) (l : Lane) (a : Nat) (v : Word) : (s.setReg l a v).secW = s.secW :=
  State.with_regs_secW s _
@[simp] theorem State.setReg_keyOps (s : State) (l : Lane) (a : Nat) (v : Word) : (s.setReg l a v).keyOps = s.keyOps :=
  State.with_regs_keyOps s _
@[simp] theorem State.setReg_pmReqs (s : State) (l : Lane) (a : Nat) (v : Word) : (s.setReg l a v).pmReqs = s.pmReqs :=
  State.with_regs_pmReqs s _
@[simp] theorem State.setReg_ownOps (s : State) (l : Lane) (a : Nat) (v : Word) : (s.setReg l a v).ownOps = s.ownOps :=
  State.with_regs_ownOps s _
@[simp] theorem State.setReg_fuseOps (s : State) (l : Lane) (a : Nat) (v : Word) : (s.setReg l a v).fuseOps = s.fuseOps :=
  State.with_regs_fuseOps s _
@[simp] theorem State.setReg_upd (s : State) (l : Lane) (a : Nat) (v : Word) : (s.setReg l a v).upd = s.upd :=
  State.with_regs_upd s _
@[simp] theorem State.setReg_calUs (s : State) (l : Lane) (a : Nat) (v : Word) : (s.setReg l a v).calUs = s.calUs :=
  State.with_regs_calUs s _
@[simp] theorem State.setReg_parE (s : State) (l : Lane) (a : Nat) (v : Word) : (s.setReg l a v).parE = s.parE :=
  State.with_regs_parE s _
@[simp] theorem State.setReg_parW (s : State) (l : Lane) (a : Nat) (v : Word) : (s.setReg l a v).parW = s.parW :=
  State.with_regs_parW s _

/-! ### setFld -/

@[simp] theorem State.setFld_pending (s : State) (l : Lane) (a : Nat) (f : Fld) (v : Nat) : (s.setFld l a f v).pending = s.pending :=
  State.with_regs_pending s _
@[simp] theorem State.setFld_now (s : State) (l : Lane) (a : Nat) (f : Fld) (v : Nat) : (s.setFld l a f v).now = s.now :=
  State.with_regs_now s _
@[simp] theorem State.setFld_freeCtr (s : State) (l : Lane) (a : Nat) (f : Fld) (v : Nat) : (s.setFld l a f v).freeCtr = s.freeCtr :=
  State.with_regs_freeCtr s _
@[simp] theorem State.setFld_mem (s : State) (l : Lane) (a : Nat) (f : Fld) (v : Nat) : (s.setFld l a f v).mem = s.mem :=
  State.with_regs_mem s _
@[simp] theorem State.setFld_bus (s : State) (l : Lane) (a : Nat) (f : Fld) (v : Nat) : (s.setFld l a f v).bus = s.bus :=
  State.with_regs_bus s _
@[simp] theorem State.setFld_irqs (s : State) (l : Lane) (a : Nat) (f : Fld) (v : Nat) : (s.setFld l a f v).irqs = s.irqs :=
  State.with_regs_irqs s _
@[simp] theorem State.setFld_outbox (s : State) (l : Lane) (a : Nat) (f : Fld) (v : Nat) : (s.setFld l a f v).outbox = s.outbox :=
  State.with_regs_outbox s _
@[simp] theorem State.setFld_led (s : State) (l : Lane) (a : Nat) (f : Fld) (v : Nat) : (s.setFld l a f v).led = s.led :=
  State.with_regs_led s _
@[simp] theorem State.setFld_commits (s : State) (l : Lane) (a : Nat) (f : Fld) (v : Nat) : (s.setFld l a f v).commits = s.commits :=
  State.with_regs_commits s _
@[simp] theorem State.setFld_nums (s : State) (l : Lane) (a : Nat) (f : Fld) (v : Nat) : (s.setFld l a f v).nums = s.nums :=
  State.with_regs_nums s _
@[simp] theorem State.setFld_p0 (s : State) (l : Lane) (a : Nat) (f : Fld) (v : Nat) : (s.setFld l a f v).p0 = s.p0 :=
  State.with_regs_p0 s _
@[simp] theorem State.setFld_p1 (s : State) (l : Lane) (a : Nat) (f : Fld) (v : Nat) : (s.setFld l a f v).p1 = s.p1 :=
  State.with_regs_p1 s _
@[simp] theorem State.setFld_f0 (s : State) (l : Lane) (a : Nat) (f : Fld) (v : Nat) : (s.setFld l a f v).f0 = s.f0 :=
  State.with_regs_f0 s _
@[simp] theorem State.setFld_f1 (s : State) (l : Lane) (a : Nat) (f : Fld) (v : Nat) : (s.setFld l a f v).f1 = s.f1 :=
  State.with_regs_f1 s _
@[simp] theorem State.setFld_fi (s : State) (l : Lane) (a : Nat) (f : Fld) (v : Nat) : (s.setFld l a f v).fi = s.fi :=
  State.with_regs_fi s _
@[simp] theorem State.setFld_cmn (s : State) (l : Lane) (a : Nat) (f : Fld) (v : Nat) : (s.setFld l a f v).cmn = s.cmn :=
  State.with_regs_cmn s _
@[simp] theorem State.setFld_arb (s : State) (l : Lane) (a : Nat) (f : Fld) (v : Nat) : (s.setFld l a f v).arb = s.arb :=
  State.with_regs_arb s _
@[simp] theorem State.setFld_ferry (s : State) (l : Lane) (a : Nat) (f : Fld) (v : Nat) : (s.setFld l a f v).ferry = s.ferry :=
  State.with_regs_ferry s _
@[simp] theorem State.setFld_laneE (s : State) (l : Lane) (a : Nat) (f : Fld) (v : Nat) : (s.setFld l a f v).laneE = s.laneE :=
  State.with_regs_laneE s _
@[simp] theorem State.setFld_laneW (s : State) (l : Lane) (a : Nat) (f : Fld) (v : Nat) : (s.setFld l a f v).laneW = s.laneW :=
  State.with_regs_laneW s _
@[simp] theorem State.setFld_sessions (s : State) (l : Lane) (a : Nat) (f : Fld) (v : Nat) : (s.setFld l a f v).sessions = s.sessions :=
  State.with_regs_sessions s _
@[simp] theorem State.setFld_scs (s : State) (l : Lane) (a : Nat) (f : Fld) (v : Nat) : (s.setFld l a f v).scs = s.scs :=
  State.with_regs_scs s _
@[simp] theorem State.setFld_mod_ (s : State) (l : Lane) (a : Nat) (f : Fld) (v : Nat) : (s.setFld l a f v).mod_ = s.mod_ :=
  State.with_regs_mod_ s _
@[simp] theorem State.setFld_urgents (s : State) (l : Lane) (a : Nat) (f : Fld) (v : Nat) : (s.setFld l a f v).urgents = s.urgents :=
  State.with_regs_urgents s _
@[simp] theorem State.setFld_outs (s : State) (l : Lane) (a : Nat) (f : Fld) (v : Nat) : (s.setFld l a f v).outs = s.outs :=
  State.with_regs_outs s _
@[simp] theorem State.setFld_feeds (s : State) (l : Lane) (a : Nat) (f : Fld) (v : Nat) : (s.setFld l a f v).feeds = s.feeds :=
  State.with_regs_feeds s _
@[simp] theorem State.setFld_pw0 (s : State) (l : Lane) (a : Nat) (f : Fld) (v : Nat) : (s.setFld l a f v).pw0 = s.pw0 :=
  State.with_regs_pw0 s _
@[simp] theorem State.setFld_pw1 (s : State) (l : Lane) (a : Nat) (f : Fld) (v : Nat) : (s.setFld l a f v).pw1 = s.pw1 :=
  State.with_regs_pw1 s _
@[simp] theorem State.setFld_fcs (s : State) (l : Lane) (a : Nat) (f : Fld) (v : Nat) : (s.setFld l a f v).fcs = s.fcs :=
  State.with_regs_fcs s _
@[simp] theorem State.setFld_fd0 (s : State) (l : Lane) (a : Nat) (f : Fld) (v : Nat) : (s.setFld l a f v).fd0 = s.fd0 :=
  State.with_regs_fd0 s _
@[simp] theorem State.setFld_fd1 (s : State) (l : Lane) (a : Nat) (f : Fld) (v : Nat) : (s.setFld l a f v).fd1 = s.fd1 :=
  State.with_regs_fd1 s _
@[simp] theorem State.setFld_fd2 (s : State) (l : Lane) (a : Nat) (f : Fld) (v : Nat) : (s.setFld l a f v).fd2 = s.fd2 :=
  State.with_regs_fd2 s _
@[simp] theorem State.setFld_stamps (s : State) (l : Lane) (a : Nat) (f : Fld) (v : Nat) : (s.setFld l a f v).stamps = s.stamps :=
  State.with_regs_stamps s _
@[simp] theorem State.setFld_tideE (s : State) (l : Lane) (a : Nat) (f : Fld) (v : Nat) : (s.setFld l a f v).tideE = s.tideE :=
  State.with_regs_tideE s _
@[simp] theorem State.setFld_tideW (s : State) (l : Lane) (a : Nat) (f : Fld) (v : Nat) : (s.setFld l a f v).tideW = s.tideW :=
  State.with_regs_tideW s _
@[simp] theorem State.setFld_tevArms (s : State) (l : Lane) (a : Nat) (f : Fld) (v : Nat) : (s.setFld l a f v).tevArms = s.tevArms :=
  State.with_regs_tevArms s _
@[simp] theorem State.setFld_evtRecs (s : State) (l : Lane) (a : Nat) (f : Fld) (v : Nat) : (s.setFld l a f v).evtRecs = s.evtRecs :=
  State.with_regs_evtRecs s _
@[simp] theorem State.setFld_cvcE (s : State) (l : Lane) (a : Nat) (f : Fld) (v : Nat) : (s.setFld l a f v).cvcE = s.cvcE :=
  State.with_regs_cvcE s _
@[simp] theorem State.setFld_cvcW (s : State) (l : Lane) (a : Nat) (f : Fld) (v : Nat) : (s.setFld l a f v).cvcW = s.cvcW :=
  State.with_regs_cvcW s _
@[simp] theorem State.setFld_sels (s : State) (l : Lane) (a : Nat) (f : Fld) (v : Nat) : (s.setFld l a f v).sels = s.sels :=
  State.with_regs_sels s _
@[simp] theorem State.setFld_pwmRecs (s : State) (l : Lane) (a : Nat) (f : Fld) (v : Nat) : (s.setFld l a f v).pwmRecs = s.pwmRecs :=
  State.with_regs_pwmRecs s _
@[simp] theorem State.setFld_pwmWork (s : State) (l : Lane) (a : Nat) (f : Fld) (v : Nat) : (s.setFld l a f v).pwmWork = s.pwmWork :=
  State.with_regs_pwmWork s _
@[simp] theorem State.setFld_cmnRecs (s : State) (l : Lane) (a : Nat) (f : Fld) (v : Nat) : (s.setFld l a f v).cmnRecs = s.cmnRecs :=
  State.with_regs_cmnRecs s _
@[simp] theorem State.setFld_canRxE (s : State) (l : Lane) (a : Nat) (f : Fld) (v : Nat) : (s.setFld l a f v).canRxE = s.canRxE :=
  State.with_regs_canRxE s _
@[simp] theorem State.setFld_canRxW (s : State) (l : Lane) (a : Nat) (f : Fld) (v : Nat) : (s.setFld l a f v).canRxW = s.canRxW :=
  State.with_regs_canRxW s _
@[simp] theorem State.setFld_canPorts (s : State) (l : Lane) (a : Nat) (f : Fld) (v : Nat) : (s.setFld l a f v).canPorts = s.canPorts :=
  State.with_regs_canPorts s _
@[simp] theorem State.setFld_fltQ (s : State) (l : Lane) (a : Nat) (f : Fld) (v : Nat) : (s.setFld l a f v).fltQ = s.fltQ :=
  State.with_regs_fltQ s _
@[simp] theorem State.setFld_canWork (s : State) (l : Lane) (a : Nat) (f : Fld) (v : Nat) : (s.setFld l a f v).canWork = s.canWork :=
  State.with_regs_canWork s _
@[simp] theorem State.setFld_canHeld (s : State) (l : Lane) (a : Nat) (f : Fld) (v : Nat) : (s.setFld l a f v).canHeld = s.canHeld :=
  State.with_regs_canHeld s _
@[simp] theorem State.setFld_lins (s : State) (l : Lane) (a : Nat) (f : Fld) (v : Nat) : (s.setFld l a f v).lins = s.lins :=
  State.with_regs_lins s _
@[simp] theorem State.setFld_linWork (s : State) (l : Lane) (a : Nat) (f : Fld) (v : Nat) : (s.setFld l a f v).linWork = s.linWork :=
  State.with_regs_linWork s _
@[simp] theorem State.setFld_tbs (s : State) (l : Lane) (a : Nat) (f : Fld) (v : Nat) : (s.setFld l a f v).tbs = s.tbs :=
  State.with_regs_tbs s _
@[simp] theorem State.setFld_eth (s : State) (l : Lane) (a : Nat) (f : Fld) (v : Nat) : (s.setFld l a f v).eth = s.eth :=
  State.with_regs_eth s _
@[simp] theorem State.setFld_harbInE (s : State) (l : Lane) (a : Nat) (f : Fld) (v : Nat) : (s.setFld l a f v).harbInE = s.harbInE :=
  State.with_regs_harbInE s _
@[simp] theorem State.setFld_harbInW (s : State) (l : Lane) (a : Nat) (f : Fld) (v : Nat) : (s.setFld l a f v).harbInW = s.harbInW :=
  State.with_regs_harbInW s _
@[simp] theorem State.setFld_harbHeld (s : State) (l : Lane) (a : Nat) (f : Fld) (v : Nat) : (s.setFld l a f v).harbHeld = s.harbHeld :=
  State.with_regs_harbHeld s _
@[simp] theorem State.setFld_pduFails (s : State) (l : Lane) (a : Nat) (f : Fld) (v : Nat) : (s.setFld l a f v).pduFails = s.pduFails :=
  State.with_regs_pduFails s _
@[simp] theorem State.setFld_harbE (s : State) (l : Lane) (a : Nat) (f : Fld) (v : Nat) : (s.setFld l a f v).harbE = s.harbE :=
  State.with_regs_harbE s _
@[simp] theorem State.setFld_harbW (s : State) (l : Lane) (a : Nat) (f : Fld) (v : Nat) : (s.setFld l a f v).harbW = s.harbW :=
  State.with_regs_harbW s _
@[simp] theorem State.setFld_cw (s : State) (l : Lane) (a : Nat) (f : Fld) (v : Nat) : (s.setFld l a f v).cw = s.cw :=
  State.with_regs_cw s _
@[simp] theorem State.setFld_nms (s : State) (l : Lane) (a : Nat) (f : Fld) (v : Nat) : (s.setFld l a f v).nms = s.nms :=
  State.with_regs_nms s _
@[simp] theorem State.setFld_grants (s : State) (l : Lane) (a : Nat) (f : Fld) (v : Nat) : (s.setFld l a f v).grants = s.grants :=
  State.with_regs_grants s _
@[simp] theorem State.setFld_vfOps (s : State) (l : Lane) (a : Nat) (f : Fld) (v : Nat) : (s.setFld l a f v).vfOps = s.vfOps :=
  State.with_regs_vfOps s _
@[simp] theorem State.setFld_quiesces (s : State) (l : Lane) (a : Nat) (f : Fld) (v : Nat) : (s.setFld l a f v).quiesces = s.quiesces :=
  State.with_regs_quiesces s _
@[simp] theorem State.setFld_iovQs (s : State) (l : Lane) (a : Nat) (f : Fld) (v : Nat) : (s.setFld l a f v).iovQs = s.iovQs :=
  State.with_regs_iovQs s _
@[simp] theorem State.setFld_potUpds (s : State) (l : Lane) (a : Nat) (f : Fld) (v : Nat) : (s.setFld l a f v).potUpds = s.potUpds :=
  State.with_regs_potUpds s _
@[simp] theorem State.setFld_copies (s : State) (l : Lane) (a : Nat) (f : Fld) (v : Nat) : (s.setFld l a f v).copies = s.copies :=
  State.with_regs_copies s _
@[simp] theorem State.setFld_lstepTests (s : State) (l : Lane) (a : Nat) (f : Fld) (v : Nat) : (s.setFld l a f v).lstepTests = s.lstepTests :=
  State.with_regs_lstepTests s _
@[simp] theorem State.setFld_tamperLog (s : State) (l : Lane) (a : Nat) (f : Fld) (v : Nat) : (s.setFld l a f v).tamperLog = s.tamperLog :=
  State.with_regs_tamperLog s _
@[simp] theorem State.setFld_secE (s : State) (l : Lane) (a : Nat) (f : Fld) (v : Nat) : (s.setFld l a f v).secE = s.secE :=
  State.with_regs_secE s _
@[simp] theorem State.setFld_secW (s : State) (l : Lane) (a : Nat) (f : Fld) (v : Nat) : (s.setFld l a f v).secW = s.secW :=
  State.with_regs_secW s _
@[simp] theorem State.setFld_keyOps (s : State) (l : Lane) (a : Nat) (f : Fld) (v : Nat) : (s.setFld l a f v).keyOps = s.keyOps :=
  State.with_regs_keyOps s _
@[simp] theorem State.setFld_pmReqs (s : State) (l : Lane) (a : Nat) (f : Fld) (v : Nat) : (s.setFld l a f v).pmReqs = s.pmReqs :=
  State.with_regs_pmReqs s _
@[simp] theorem State.setFld_ownOps (s : State) (l : Lane) (a : Nat) (f : Fld) (v : Nat) : (s.setFld l a f v).ownOps = s.ownOps :=
  State.with_regs_ownOps s _
@[simp] theorem State.setFld_fuseOps (s : State) (l : Lane) (a : Nat) (f : Fld) (v : Nat) : (s.setFld l a f v).fuseOps = s.fuseOps :=
  State.with_regs_fuseOps s _
@[simp] theorem State.setFld_upd (s : State) (l : Lane) (a : Nat) (f : Fld) (v : Nat) : (s.setFld l a f v).upd = s.upd :=
  State.with_regs_upd s _
@[simp] theorem State.setFld_calUs (s : State) (l : Lane) (a : Nat) (f : Fld) (v : Nat) : (s.setFld l a f v).calUs = s.calUs :=
  State.with_regs_calUs s _
@[simp] theorem State.setFld_parE (s : State) (l : Lane) (a : Nat) (f : Fld) (v : Nat) : (s.setFld l a f v).parE = s.parE :=
  State.with_regs_parE s _
@[simp] theorem State.setFld_parW (s : State) (l : Lane) (a : Nat) (f : Fld) (v : Nat) : (s.setFld l a f v).parW = s.parW :=
  State.with_regs_parW s _

/-! ### setBitF -/

@[simp] theorem State.setBitF_pending (s : State) (l : Lane) (a : Nat) (f : Fld) (b : Bool) : (s.setBitF l a f b).pending = s.pending :=
  State.with_regs_pending s _
@[simp] theorem State.setBitF_now (s : State) (l : Lane) (a : Nat) (f : Fld) (b : Bool) : (s.setBitF l a f b).now = s.now :=
  State.with_regs_now s _
@[simp] theorem State.setBitF_freeCtr (s : State) (l : Lane) (a : Nat) (f : Fld) (b : Bool) : (s.setBitF l a f b).freeCtr = s.freeCtr :=
  State.with_regs_freeCtr s _
@[simp] theorem State.setBitF_mem (s : State) (l : Lane) (a : Nat) (f : Fld) (b : Bool) : (s.setBitF l a f b).mem = s.mem :=
  State.with_regs_mem s _
@[simp] theorem State.setBitF_bus (s : State) (l : Lane) (a : Nat) (f : Fld) (b : Bool) : (s.setBitF l a f b).bus = s.bus :=
  State.with_regs_bus s _
@[simp] theorem State.setBitF_irqs (s : State) (l : Lane) (a : Nat) (f : Fld) (b : Bool) : (s.setBitF l a f b).irqs = s.irqs :=
  State.with_regs_irqs s _
@[simp] theorem State.setBitF_outbox (s : State) (l : Lane) (a : Nat) (f : Fld) (b : Bool) : (s.setBitF l a f b).outbox = s.outbox :=
  State.with_regs_outbox s _
@[simp] theorem State.setBitF_led (s : State) (l : Lane) (a : Nat) (f : Fld) (b : Bool) : (s.setBitF l a f b).led = s.led :=
  State.with_regs_led s _
@[simp] theorem State.setBitF_commits (s : State) (l : Lane) (a : Nat) (f : Fld) (b : Bool) : (s.setBitF l a f b).commits = s.commits :=
  State.with_regs_commits s _
@[simp] theorem State.setBitF_nums (s : State) (l : Lane) (a : Nat) (f : Fld) (b : Bool) : (s.setBitF l a f b).nums = s.nums :=
  State.with_regs_nums s _
@[simp] theorem State.setBitF_p0 (s : State) (l : Lane) (a : Nat) (f : Fld) (b : Bool) : (s.setBitF l a f b).p0 = s.p0 :=
  State.with_regs_p0 s _
@[simp] theorem State.setBitF_p1 (s : State) (l : Lane) (a : Nat) (f : Fld) (b : Bool) : (s.setBitF l a f b).p1 = s.p1 :=
  State.with_regs_p1 s _
@[simp] theorem State.setBitF_f0 (s : State) (l : Lane) (a : Nat) (f : Fld) (b : Bool) : (s.setBitF l a f b).f0 = s.f0 :=
  State.with_regs_f0 s _
@[simp] theorem State.setBitF_f1 (s : State) (l : Lane) (a : Nat) (f : Fld) (b : Bool) : (s.setBitF l a f b).f1 = s.f1 :=
  State.with_regs_f1 s _
@[simp] theorem State.setBitF_fi (s : State) (l : Lane) (a : Nat) (f : Fld) (b : Bool) : (s.setBitF l a f b).fi = s.fi :=
  State.with_regs_fi s _
@[simp] theorem State.setBitF_cmn (s : State) (l : Lane) (a : Nat) (f : Fld) (b : Bool) : (s.setBitF l a f b).cmn = s.cmn :=
  State.with_regs_cmn s _
@[simp] theorem State.setBitF_arb (s : State) (l : Lane) (a : Nat) (f : Fld) (b : Bool) : (s.setBitF l a f b).arb = s.arb :=
  State.with_regs_arb s _
@[simp] theorem State.setBitF_ferry (s : State) (l : Lane) (a : Nat) (f : Fld) (b : Bool) : (s.setBitF l a f b).ferry = s.ferry :=
  State.with_regs_ferry s _
@[simp] theorem State.setBitF_laneE (s : State) (l : Lane) (a : Nat) (f : Fld) (b : Bool) : (s.setBitF l a f b).laneE = s.laneE :=
  State.with_regs_laneE s _
@[simp] theorem State.setBitF_laneW (s : State) (l : Lane) (a : Nat) (f : Fld) (b : Bool) : (s.setBitF l a f b).laneW = s.laneW :=
  State.with_regs_laneW s _
@[simp] theorem State.setBitF_sessions (s : State) (l : Lane) (a : Nat) (f : Fld) (b : Bool) : (s.setBitF l a f b).sessions = s.sessions :=
  State.with_regs_sessions s _
@[simp] theorem State.setBitF_scs (s : State) (l : Lane) (a : Nat) (f : Fld) (b : Bool) : (s.setBitF l a f b).scs = s.scs :=
  State.with_regs_scs s _
@[simp] theorem State.setBitF_mod_ (s : State) (l : Lane) (a : Nat) (f : Fld) (b : Bool) : (s.setBitF l a f b).mod_ = s.mod_ :=
  State.with_regs_mod_ s _
@[simp] theorem State.setBitF_urgents (s : State) (l : Lane) (a : Nat) (f : Fld) (b : Bool) : (s.setBitF l a f b).urgents = s.urgents :=
  State.with_regs_urgents s _
@[simp] theorem State.setBitF_outs (s : State) (l : Lane) (a : Nat) (f : Fld) (b : Bool) : (s.setBitF l a f b).outs = s.outs :=
  State.with_regs_outs s _
@[simp] theorem State.setBitF_feeds (s : State) (l : Lane) (a : Nat) (f : Fld) (b : Bool) : (s.setBitF l a f b).feeds = s.feeds :=
  State.with_regs_feeds s _
@[simp] theorem State.setBitF_pw0 (s : State) (l : Lane) (a : Nat) (f : Fld) (b : Bool) : (s.setBitF l a f b).pw0 = s.pw0 :=
  State.with_regs_pw0 s _
@[simp] theorem State.setBitF_pw1 (s : State) (l : Lane) (a : Nat) (f : Fld) (b : Bool) : (s.setBitF l a f b).pw1 = s.pw1 :=
  State.with_regs_pw1 s _
@[simp] theorem State.setBitF_fcs (s : State) (l : Lane) (a : Nat) (f : Fld) (b : Bool) : (s.setBitF l a f b).fcs = s.fcs :=
  State.with_regs_fcs s _
@[simp] theorem State.setBitF_fd0 (s : State) (l : Lane) (a : Nat) (f : Fld) (b : Bool) : (s.setBitF l a f b).fd0 = s.fd0 :=
  State.with_regs_fd0 s _
@[simp] theorem State.setBitF_fd1 (s : State) (l : Lane) (a : Nat) (f : Fld) (b : Bool) : (s.setBitF l a f b).fd1 = s.fd1 :=
  State.with_regs_fd1 s _
@[simp] theorem State.setBitF_fd2 (s : State) (l : Lane) (a : Nat) (f : Fld) (b : Bool) : (s.setBitF l a f b).fd2 = s.fd2 :=
  State.with_regs_fd2 s _
@[simp] theorem State.setBitF_stamps (s : State) (l : Lane) (a : Nat) (f : Fld) (b : Bool) : (s.setBitF l a f b).stamps = s.stamps :=
  State.with_regs_stamps s _
@[simp] theorem State.setBitF_tideE (s : State) (l : Lane) (a : Nat) (f : Fld) (b : Bool) : (s.setBitF l a f b).tideE = s.tideE :=
  State.with_regs_tideE s _
@[simp] theorem State.setBitF_tideW (s : State) (l : Lane) (a : Nat) (f : Fld) (b : Bool) : (s.setBitF l a f b).tideW = s.tideW :=
  State.with_regs_tideW s _
@[simp] theorem State.setBitF_tevArms (s : State) (l : Lane) (a : Nat) (f : Fld) (b : Bool) : (s.setBitF l a f b).tevArms = s.tevArms :=
  State.with_regs_tevArms s _
@[simp] theorem State.setBitF_evtRecs (s : State) (l : Lane) (a : Nat) (f : Fld) (b : Bool) : (s.setBitF l a f b).evtRecs = s.evtRecs :=
  State.with_regs_evtRecs s _
@[simp] theorem State.setBitF_cvcE (s : State) (l : Lane) (a : Nat) (f : Fld) (b : Bool) : (s.setBitF l a f b).cvcE = s.cvcE :=
  State.with_regs_cvcE s _
@[simp] theorem State.setBitF_cvcW (s : State) (l : Lane) (a : Nat) (f : Fld) (b : Bool) : (s.setBitF l a f b).cvcW = s.cvcW :=
  State.with_regs_cvcW s _
@[simp] theorem State.setBitF_sels (s : State) (l : Lane) (a : Nat) (f : Fld) (b : Bool) : (s.setBitF l a f b).sels = s.sels :=
  State.with_regs_sels s _
@[simp] theorem State.setBitF_pwmRecs (s : State) (l : Lane) (a : Nat) (f : Fld) (b : Bool) : (s.setBitF l a f b).pwmRecs = s.pwmRecs :=
  State.with_regs_pwmRecs s _
@[simp] theorem State.setBitF_pwmWork (s : State) (l : Lane) (a : Nat) (f : Fld) (b : Bool) : (s.setBitF l a f b).pwmWork = s.pwmWork :=
  State.with_regs_pwmWork s _
@[simp] theorem State.setBitF_cmnRecs (s : State) (l : Lane) (a : Nat) (f : Fld) (b : Bool) : (s.setBitF l a f b).cmnRecs = s.cmnRecs :=
  State.with_regs_cmnRecs s _
@[simp] theorem State.setBitF_canRxE (s : State) (l : Lane) (a : Nat) (f : Fld) (b : Bool) : (s.setBitF l a f b).canRxE = s.canRxE :=
  State.with_regs_canRxE s _
@[simp] theorem State.setBitF_canRxW (s : State) (l : Lane) (a : Nat) (f : Fld) (b : Bool) : (s.setBitF l a f b).canRxW = s.canRxW :=
  State.with_regs_canRxW s _
@[simp] theorem State.setBitF_canPorts (s : State) (l : Lane) (a : Nat) (f : Fld) (b : Bool) : (s.setBitF l a f b).canPorts = s.canPorts :=
  State.with_regs_canPorts s _
@[simp] theorem State.setBitF_fltQ (s : State) (l : Lane) (a : Nat) (f : Fld) (b : Bool) : (s.setBitF l a f b).fltQ = s.fltQ :=
  State.with_regs_fltQ s _
@[simp] theorem State.setBitF_canWork (s : State) (l : Lane) (a : Nat) (f : Fld) (b : Bool) : (s.setBitF l a f b).canWork = s.canWork :=
  State.with_regs_canWork s _
@[simp] theorem State.setBitF_canHeld (s : State) (l : Lane) (a : Nat) (f : Fld) (b : Bool) : (s.setBitF l a f b).canHeld = s.canHeld :=
  State.with_regs_canHeld s _
@[simp] theorem State.setBitF_lins (s : State) (l : Lane) (a : Nat) (f : Fld) (b : Bool) : (s.setBitF l a f b).lins = s.lins :=
  State.with_regs_lins s _
@[simp] theorem State.setBitF_linWork (s : State) (l : Lane) (a : Nat) (f : Fld) (b : Bool) : (s.setBitF l a f b).linWork = s.linWork :=
  State.with_regs_linWork s _
@[simp] theorem State.setBitF_tbs (s : State) (l : Lane) (a : Nat) (f : Fld) (b : Bool) : (s.setBitF l a f b).tbs = s.tbs :=
  State.with_regs_tbs s _
@[simp] theorem State.setBitF_eth (s : State) (l : Lane) (a : Nat) (f : Fld) (b : Bool) : (s.setBitF l a f b).eth = s.eth :=
  State.with_regs_eth s _
@[simp] theorem State.setBitF_harbInE (s : State) (l : Lane) (a : Nat) (f : Fld) (b : Bool) : (s.setBitF l a f b).harbInE = s.harbInE :=
  State.with_regs_harbInE s _
@[simp] theorem State.setBitF_harbInW (s : State) (l : Lane) (a : Nat) (f : Fld) (b : Bool) : (s.setBitF l a f b).harbInW = s.harbInW :=
  State.with_regs_harbInW s _
@[simp] theorem State.setBitF_harbHeld (s : State) (l : Lane) (a : Nat) (f : Fld) (b : Bool) : (s.setBitF l a f b).harbHeld = s.harbHeld :=
  State.with_regs_harbHeld s _
@[simp] theorem State.setBitF_pduFails (s : State) (l : Lane) (a : Nat) (f : Fld) (b : Bool) : (s.setBitF l a f b).pduFails = s.pduFails :=
  State.with_regs_pduFails s _
@[simp] theorem State.setBitF_harbE (s : State) (l : Lane) (a : Nat) (f : Fld) (b : Bool) : (s.setBitF l a f b).harbE = s.harbE :=
  State.with_regs_harbE s _
@[simp] theorem State.setBitF_harbW (s : State) (l : Lane) (a : Nat) (f : Fld) (b : Bool) : (s.setBitF l a f b).harbW = s.harbW :=
  State.with_regs_harbW s _
@[simp] theorem State.setBitF_cw (s : State) (l : Lane) (a : Nat) (f : Fld) (b : Bool) : (s.setBitF l a f b).cw = s.cw :=
  State.with_regs_cw s _
@[simp] theorem State.setBitF_nms (s : State) (l : Lane) (a : Nat) (f : Fld) (b : Bool) : (s.setBitF l a f b).nms = s.nms :=
  State.with_regs_nms s _
@[simp] theorem State.setBitF_grants (s : State) (l : Lane) (a : Nat) (f : Fld) (b : Bool) : (s.setBitF l a f b).grants = s.grants :=
  State.with_regs_grants s _
@[simp] theorem State.setBitF_vfOps (s : State) (l : Lane) (a : Nat) (f : Fld) (b : Bool) : (s.setBitF l a f b).vfOps = s.vfOps :=
  State.with_regs_vfOps s _
@[simp] theorem State.setBitF_quiesces (s : State) (l : Lane) (a : Nat) (f : Fld) (b : Bool) : (s.setBitF l a f b).quiesces = s.quiesces :=
  State.with_regs_quiesces s _
@[simp] theorem State.setBitF_iovQs (s : State) (l : Lane) (a : Nat) (f : Fld) (b : Bool) : (s.setBitF l a f b).iovQs = s.iovQs :=
  State.with_regs_iovQs s _
@[simp] theorem State.setBitF_potUpds (s : State) (l : Lane) (a : Nat) (f : Fld) (b : Bool) : (s.setBitF l a f b).potUpds = s.potUpds :=
  State.with_regs_potUpds s _
@[simp] theorem State.setBitF_copies (s : State) (l : Lane) (a : Nat) (f : Fld) (b : Bool) : (s.setBitF l a f b).copies = s.copies :=
  State.with_regs_copies s _
@[simp] theorem State.setBitF_lstepTests (s : State) (l : Lane) (a : Nat) (f : Fld) (b : Bool) : (s.setBitF l a f b).lstepTests = s.lstepTests :=
  State.with_regs_lstepTests s _
@[simp] theorem State.setBitF_tamperLog (s : State) (l : Lane) (a : Nat) (f : Fld) (b : Bool) : (s.setBitF l a f b).tamperLog = s.tamperLog :=
  State.with_regs_tamperLog s _
@[simp] theorem State.setBitF_secE (s : State) (l : Lane) (a : Nat) (f : Fld) (b : Bool) : (s.setBitF l a f b).secE = s.secE :=
  State.with_regs_secE s _
@[simp] theorem State.setBitF_secW (s : State) (l : Lane) (a : Nat) (f : Fld) (b : Bool) : (s.setBitF l a f b).secW = s.secW :=
  State.with_regs_secW s _
@[simp] theorem State.setBitF_keyOps (s : State) (l : Lane) (a : Nat) (f : Fld) (b : Bool) : (s.setBitF l a f b).keyOps = s.keyOps :=
  State.with_regs_keyOps s _
@[simp] theorem State.setBitF_pmReqs (s : State) (l : Lane) (a : Nat) (f : Fld) (b : Bool) : (s.setBitF l a f b).pmReqs = s.pmReqs :=
  State.with_regs_pmReqs s _
@[simp] theorem State.setBitF_ownOps (s : State) (l : Lane) (a : Nat) (f : Fld) (b : Bool) : (s.setBitF l a f b).ownOps = s.ownOps :=
  State.with_regs_ownOps s _
@[simp] theorem State.setBitF_fuseOps (s : State) (l : Lane) (a : Nat) (f : Fld) (b : Bool) : (s.setBitF l a f b).fuseOps = s.fuseOps :=
  State.with_regs_fuseOps s _
@[simp] theorem State.setBitF_upd (s : State) (l : Lane) (a : Nat) (f : Fld) (b : Bool) : (s.setBitF l a f b).upd = s.upd :=
  State.with_regs_upd s _
@[simp] theorem State.setBitF_calUs (s : State) (l : Lane) (a : Nat) (f : Fld) (b : Bool) : (s.setBitF l a f b).calUs = s.calUs :=
  State.with_regs_calUs s _
@[simp] theorem State.setBitF_parE (s : State) (l : Lane) (a : Nat) (f : Fld) (b : Bool) : (s.setBitF l a f b).parE = s.parE :=
  State.with_regs_parE s _
@[simp] theorem State.setBitF_parW (s : State) (l : Lane) (a : Nat) (f : Fld) (b : Bool) : (s.setBitF l a f b).parW = s.parW :=
  State.with_regs_parW s _

/-! ### count -/

@[simp] theorem State.count_pending (s : State) (l : Lane) (a : Nat) : (s.count l a).pending = s.pending :=
  State.with_regs_pending s _
@[simp] theorem State.count_now (s : State) (l : Lane) (a : Nat) : (s.count l a).now = s.now :=
  State.with_regs_now s _
@[simp] theorem State.count_freeCtr (s : State) (l : Lane) (a : Nat) : (s.count l a).freeCtr = s.freeCtr :=
  State.with_regs_freeCtr s _
@[simp] theorem State.count_mem (s : State) (l : Lane) (a : Nat) : (s.count l a).mem = s.mem :=
  State.with_regs_mem s _
@[simp] theorem State.count_bus (s : State) (l : Lane) (a : Nat) : (s.count l a).bus = s.bus :=
  State.with_regs_bus s _
@[simp] theorem State.count_irqs (s : State) (l : Lane) (a : Nat) : (s.count l a).irqs = s.irqs :=
  State.with_regs_irqs s _
@[simp] theorem State.count_outbox (s : State) (l : Lane) (a : Nat) : (s.count l a).outbox = s.outbox :=
  State.with_regs_outbox s _
@[simp] theorem State.count_led (s : State) (l : Lane) (a : Nat) : (s.count l a).led = s.led :=
  State.with_regs_led s _
@[simp] theorem State.count_commits (s : State) (l : Lane) (a : Nat) : (s.count l a).commits = s.commits :=
  State.with_regs_commits s _
@[simp] theorem State.count_nums (s : State) (l : Lane) (a : Nat) : (s.count l a).nums = s.nums :=
  State.with_regs_nums s _
@[simp] theorem State.count_p0 (s : State) (l : Lane) (a : Nat) : (s.count l a).p0 = s.p0 :=
  State.with_regs_p0 s _
@[simp] theorem State.count_p1 (s : State) (l : Lane) (a : Nat) : (s.count l a).p1 = s.p1 :=
  State.with_regs_p1 s _
@[simp] theorem State.count_f0 (s : State) (l : Lane) (a : Nat) : (s.count l a).f0 = s.f0 :=
  State.with_regs_f0 s _
@[simp] theorem State.count_f1 (s : State) (l : Lane) (a : Nat) : (s.count l a).f1 = s.f1 :=
  State.with_regs_f1 s _
@[simp] theorem State.count_fi (s : State) (l : Lane) (a : Nat) : (s.count l a).fi = s.fi :=
  State.with_regs_fi s _
@[simp] theorem State.count_cmn (s : State) (l : Lane) (a : Nat) : (s.count l a).cmn = s.cmn :=
  State.with_regs_cmn s _
@[simp] theorem State.count_arb (s : State) (l : Lane) (a : Nat) : (s.count l a).arb = s.arb :=
  State.with_regs_arb s _
@[simp] theorem State.count_ferry (s : State) (l : Lane) (a : Nat) : (s.count l a).ferry = s.ferry :=
  State.with_regs_ferry s _
@[simp] theorem State.count_laneE (s : State) (l : Lane) (a : Nat) : (s.count l a).laneE = s.laneE :=
  State.with_regs_laneE s _
@[simp] theorem State.count_laneW (s : State) (l : Lane) (a : Nat) : (s.count l a).laneW = s.laneW :=
  State.with_regs_laneW s _
@[simp] theorem State.count_sessions (s : State) (l : Lane) (a : Nat) : (s.count l a).sessions = s.sessions :=
  State.with_regs_sessions s _
@[simp] theorem State.count_scs (s : State) (l : Lane) (a : Nat) : (s.count l a).scs = s.scs :=
  State.with_regs_scs s _
@[simp] theorem State.count_mod_ (s : State) (l : Lane) (a : Nat) : (s.count l a).mod_ = s.mod_ :=
  State.with_regs_mod_ s _
@[simp] theorem State.count_urgents (s : State) (l : Lane) (a : Nat) : (s.count l a).urgents = s.urgents :=
  State.with_regs_urgents s _
@[simp] theorem State.count_outs (s : State) (l : Lane) (a : Nat) : (s.count l a).outs = s.outs :=
  State.with_regs_outs s _
@[simp] theorem State.count_feeds (s : State) (l : Lane) (a : Nat) : (s.count l a).feeds = s.feeds :=
  State.with_regs_feeds s _
@[simp] theorem State.count_pw0 (s : State) (l : Lane) (a : Nat) : (s.count l a).pw0 = s.pw0 :=
  State.with_regs_pw0 s _
@[simp] theorem State.count_pw1 (s : State) (l : Lane) (a : Nat) : (s.count l a).pw1 = s.pw1 :=
  State.with_regs_pw1 s _
@[simp] theorem State.count_fcs (s : State) (l : Lane) (a : Nat) : (s.count l a).fcs = s.fcs :=
  State.with_regs_fcs s _
@[simp] theorem State.count_fd0 (s : State) (l : Lane) (a : Nat) : (s.count l a).fd0 = s.fd0 :=
  State.with_regs_fd0 s _
@[simp] theorem State.count_fd1 (s : State) (l : Lane) (a : Nat) : (s.count l a).fd1 = s.fd1 :=
  State.with_regs_fd1 s _
@[simp] theorem State.count_fd2 (s : State) (l : Lane) (a : Nat) : (s.count l a).fd2 = s.fd2 :=
  State.with_regs_fd2 s _
@[simp] theorem State.count_stamps (s : State) (l : Lane) (a : Nat) : (s.count l a).stamps = s.stamps :=
  State.with_regs_stamps s _
@[simp] theorem State.count_tideE (s : State) (l : Lane) (a : Nat) : (s.count l a).tideE = s.tideE :=
  State.with_regs_tideE s _
@[simp] theorem State.count_tideW (s : State) (l : Lane) (a : Nat) : (s.count l a).tideW = s.tideW :=
  State.with_regs_tideW s _
@[simp] theorem State.count_tevArms (s : State) (l : Lane) (a : Nat) : (s.count l a).tevArms = s.tevArms :=
  State.with_regs_tevArms s _
@[simp] theorem State.count_evtRecs (s : State) (l : Lane) (a : Nat) : (s.count l a).evtRecs = s.evtRecs :=
  State.with_regs_evtRecs s _
@[simp] theorem State.count_cvcE (s : State) (l : Lane) (a : Nat) : (s.count l a).cvcE = s.cvcE :=
  State.with_regs_cvcE s _
@[simp] theorem State.count_cvcW (s : State) (l : Lane) (a : Nat) : (s.count l a).cvcW = s.cvcW :=
  State.with_regs_cvcW s _
@[simp] theorem State.count_sels (s : State) (l : Lane) (a : Nat) : (s.count l a).sels = s.sels :=
  State.with_regs_sels s _
@[simp] theorem State.count_pwmRecs (s : State) (l : Lane) (a : Nat) : (s.count l a).pwmRecs = s.pwmRecs :=
  State.with_regs_pwmRecs s _
@[simp] theorem State.count_pwmWork (s : State) (l : Lane) (a : Nat) : (s.count l a).pwmWork = s.pwmWork :=
  State.with_regs_pwmWork s _
@[simp] theorem State.count_cmnRecs (s : State) (l : Lane) (a : Nat) : (s.count l a).cmnRecs = s.cmnRecs :=
  State.with_regs_cmnRecs s _
@[simp] theorem State.count_canRxE (s : State) (l : Lane) (a : Nat) : (s.count l a).canRxE = s.canRxE :=
  State.with_regs_canRxE s _
@[simp] theorem State.count_canRxW (s : State) (l : Lane) (a : Nat) : (s.count l a).canRxW = s.canRxW :=
  State.with_regs_canRxW s _
@[simp] theorem State.count_canPorts (s : State) (l : Lane) (a : Nat) : (s.count l a).canPorts = s.canPorts :=
  State.with_regs_canPorts s _
@[simp] theorem State.count_fltQ (s : State) (l : Lane) (a : Nat) : (s.count l a).fltQ = s.fltQ :=
  State.with_regs_fltQ s _
@[simp] theorem State.count_canWork (s : State) (l : Lane) (a : Nat) : (s.count l a).canWork = s.canWork :=
  State.with_regs_canWork s _
@[simp] theorem State.count_canHeld (s : State) (l : Lane) (a : Nat) : (s.count l a).canHeld = s.canHeld :=
  State.with_regs_canHeld s _
@[simp] theorem State.count_lins (s : State) (l : Lane) (a : Nat) : (s.count l a).lins = s.lins :=
  State.with_regs_lins s _
@[simp] theorem State.count_linWork (s : State) (l : Lane) (a : Nat) : (s.count l a).linWork = s.linWork :=
  State.with_regs_linWork s _
@[simp] theorem State.count_tbs (s : State) (l : Lane) (a : Nat) : (s.count l a).tbs = s.tbs :=
  State.with_regs_tbs s _
@[simp] theorem State.count_eth (s : State) (l : Lane) (a : Nat) : (s.count l a).eth = s.eth :=
  State.with_regs_eth s _
@[simp] theorem State.count_harbInE (s : State) (l : Lane) (a : Nat) : (s.count l a).harbInE = s.harbInE :=
  State.with_regs_harbInE s _
@[simp] theorem State.count_harbInW (s : State) (l : Lane) (a : Nat) : (s.count l a).harbInW = s.harbInW :=
  State.with_regs_harbInW s _
@[simp] theorem State.count_harbHeld (s : State) (l : Lane) (a : Nat) : (s.count l a).harbHeld = s.harbHeld :=
  State.with_regs_harbHeld s _
@[simp] theorem State.count_pduFails (s : State) (l : Lane) (a : Nat) : (s.count l a).pduFails = s.pduFails :=
  State.with_regs_pduFails s _
@[simp] theorem State.count_harbE (s : State) (l : Lane) (a : Nat) : (s.count l a).harbE = s.harbE :=
  State.with_regs_harbE s _
@[simp] theorem State.count_harbW (s : State) (l : Lane) (a : Nat) : (s.count l a).harbW = s.harbW :=
  State.with_regs_harbW s _
@[simp] theorem State.count_cw (s : State) (l : Lane) (a : Nat) : (s.count l a).cw = s.cw :=
  State.with_regs_cw s _
@[simp] theorem State.count_nms (s : State) (l : Lane) (a : Nat) : (s.count l a).nms = s.nms :=
  State.with_regs_nms s _
@[simp] theorem State.count_grants (s : State) (l : Lane) (a : Nat) : (s.count l a).grants = s.grants :=
  State.with_regs_grants s _
@[simp] theorem State.count_vfOps (s : State) (l : Lane) (a : Nat) : (s.count l a).vfOps = s.vfOps :=
  State.with_regs_vfOps s _
@[simp] theorem State.count_quiesces (s : State) (l : Lane) (a : Nat) : (s.count l a).quiesces = s.quiesces :=
  State.with_regs_quiesces s _
@[simp] theorem State.count_iovQs (s : State) (l : Lane) (a : Nat) : (s.count l a).iovQs = s.iovQs :=
  State.with_regs_iovQs s _
@[simp] theorem State.count_potUpds (s : State) (l : Lane) (a : Nat) : (s.count l a).potUpds = s.potUpds :=
  State.with_regs_potUpds s _
@[simp] theorem State.count_copies (s : State) (l : Lane) (a : Nat) : (s.count l a).copies = s.copies :=
  State.with_regs_copies s _
@[simp] theorem State.count_lstepTests (s : State) (l : Lane) (a : Nat) : (s.count l a).lstepTests = s.lstepTests :=
  State.with_regs_lstepTests s _
@[simp] theorem State.count_tamperLog (s : State) (l : Lane) (a : Nat) : (s.count l a).tamperLog = s.tamperLog :=
  State.with_regs_tamperLog s _
@[simp] theorem State.count_secE (s : State) (l : Lane) (a : Nat) : (s.count l a).secE = s.secE :=
  State.with_regs_secE s _
@[simp] theorem State.count_secW (s : State) (l : Lane) (a : Nat) : (s.count l a).secW = s.secW :=
  State.with_regs_secW s _
@[simp] theorem State.count_keyOps (s : State) (l : Lane) (a : Nat) : (s.count l a).keyOps = s.keyOps :=
  State.with_regs_keyOps s _
@[simp] theorem State.count_pmReqs (s : State) (l : Lane) (a : Nat) : (s.count l a).pmReqs = s.pmReqs :=
  State.with_regs_pmReqs s _
@[simp] theorem State.count_ownOps (s : State) (l : Lane) (a : Nat) : (s.count l a).ownOps = s.ownOps :=
  State.with_regs_ownOps s _
@[simp] theorem State.count_fuseOps (s : State) (l : Lane) (a : Nat) : (s.count l a).fuseOps = s.fuseOps :=
  State.with_regs_fuseOps s _
@[simp] theorem State.count_upd (s : State) (l : Lane) (a : Nat) : (s.count l a).upd = s.upd :=
  State.with_regs_upd s _
@[simp] theorem State.count_calUs (s : State) (l : Lane) (a : Nat) : (s.count l a).calUs = s.calUs :=
  State.with_regs_calUs s _
@[simp] theorem State.count_parE (s : State) (l : Lane) (a : Nat) : (s.count l a).parE = s.parE :=
  State.with_regs_parE s _
@[simp] theorem State.count_parW (s : State) (l : Lane) (a : Nat) : (s.count l a).parW = s.parW :=
  State.with_regs_parW s _

/-! ### setShadow -/

@[simp] theorem State.setShadow_pending (s : State) (l : Lane) (a : Nat) (v : Word) : (s.setShadow l a v).pending = s.pending :=
  State.with_regs_pending s _
@[simp] theorem State.setShadow_now (s : State) (l : Lane) (a : Nat) (v : Word) : (s.setShadow l a v).now = s.now :=
  State.with_regs_now s _
@[simp] theorem State.setShadow_freeCtr (s : State) (l : Lane) (a : Nat) (v : Word) : (s.setShadow l a v).freeCtr = s.freeCtr :=
  State.with_regs_freeCtr s _
@[simp] theorem State.setShadow_mem (s : State) (l : Lane) (a : Nat) (v : Word) : (s.setShadow l a v).mem = s.mem :=
  State.with_regs_mem s _
@[simp] theorem State.setShadow_bus (s : State) (l : Lane) (a : Nat) (v : Word) : (s.setShadow l a v).bus = s.bus :=
  State.with_regs_bus s _
@[simp] theorem State.setShadow_irqs (s : State) (l : Lane) (a : Nat) (v : Word) : (s.setShadow l a v).irqs = s.irqs :=
  State.with_regs_irqs s _
@[simp] theorem State.setShadow_outbox (s : State) (l : Lane) (a : Nat) (v : Word) : (s.setShadow l a v).outbox = s.outbox :=
  State.with_regs_outbox s _
@[simp] theorem State.setShadow_led (s : State) (l : Lane) (a : Nat) (v : Word) : (s.setShadow l a v).led = s.led :=
  State.with_regs_led s _
@[simp] theorem State.setShadow_commits (s : State) (l : Lane) (a : Nat) (v : Word) : (s.setShadow l a v).commits = s.commits :=
  State.with_regs_commits s _
@[simp] theorem State.setShadow_nums (s : State) (l : Lane) (a : Nat) (v : Word) : (s.setShadow l a v).nums = s.nums :=
  State.with_regs_nums s _
@[simp] theorem State.setShadow_p0 (s : State) (l : Lane) (a : Nat) (v : Word) : (s.setShadow l a v).p0 = s.p0 :=
  State.with_regs_p0 s _
@[simp] theorem State.setShadow_p1 (s : State) (l : Lane) (a : Nat) (v : Word) : (s.setShadow l a v).p1 = s.p1 :=
  State.with_regs_p1 s _
@[simp] theorem State.setShadow_f0 (s : State) (l : Lane) (a : Nat) (v : Word) : (s.setShadow l a v).f0 = s.f0 :=
  State.with_regs_f0 s _
@[simp] theorem State.setShadow_f1 (s : State) (l : Lane) (a : Nat) (v : Word) : (s.setShadow l a v).f1 = s.f1 :=
  State.with_regs_f1 s _
@[simp] theorem State.setShadow_fi (s : State) (l : Lane) (a : Nat) (v : Word) : (s.setShadow l a v).fi = s.fi :=
  State.with_regs_fi s _
@[simp] theorem State.setShadow_cmn (s : State) (l : Lane) (a : Nat) (v : Word) : (s.setShadow l a v).cmn = s.cmn :=
  State.with_regs_cmn s _
@[simp] theorem State.setShadow_arb (s : State) (l : Lane) (a : Nat) (v : Word) : (s.setShadow l a v).arb = s.arb :=
  State.with_regs_arb s _
@[simp] theorem State.setShadow_ferry (s : State) (l : Lane) (a : Nat) (v : Word) : (s.setShadow l a v).ferry = s.ferry :=
  State.with_regs_ferry s _
@[simp] theorem State.setShadow_laneE (s : State) (l : Lane) (a : Nat) (v : Word) : (s.setShadow l a v).laneE = s.laneE :=
  State.with_regs_laneE s _
@[simp] theorem State.setShadow_laneW (s : State) (l : Lane) (a : Nat) (v : Word) : (s.setShadow l a v).laneW = s.laneW :=
  State.with_regs_laneW s _
@[simp] theorem State.setShadow_sessions (s : State) (l : Lane) (a : Nat) (v : Word) : (s.setShadow l a v).sessions = s.sessions :=
  State.with_regs_sessions s _
@[simp] theorem State.setShadow_scs (s : State) (l : Lane) (a : Nat) (v : Word) : (s.setShadow l a v).scs = s.scs :=
  State.with_regs_scs s _
@[simp] theorem State.setShadow_mod_ (s : State) (l : Lane) (a : Nat) (v : Word) : (s.setShadow l a v).mod_ = s.mod_ :=
  State.with_regs_mod_ s _
@[simp] theorem State.setShadow_urgents (s : State) (l : Lane) (a : Nat) (v : Word) : (s.setShadow l a v).urgents = s.urgents :=
  State.with_regs_urgents s _
@[simp] theorem State.setShadow_outs (s : State) (l : Lane) (a : Nat) (v : Word) : (s.setShadow l a v).outs = s.outs :=
  State.with_regs_outs s _
@[simp] theorem State.setShadow_feeds (s : State) (l : Lane) (a : Nat) (v : Word) : (s.setShadow l a v).feeds = s.feeds :=
  State.with_regs_feeds s _
@[simp] theorem State.setShadow_pw0 (s : State) (l : Lane) (a : Nat) (v : Word) : (s.setShadow l a v).pw0 = s.pw0 :=
  State.with_regs_pw0 s _
@[simp] theorem State.setShadow_pw1 (s : State) (l : Lane) (a : Nat) (v : Word) : (s.setShadow l a v).pw1 = s.pw1 :=
  State.with_regs_pw1 s _
@[simp] theorem State.setShadow_fcs (s : State) (l : Lane) (a : Nat) (v : Word) : (s.setShadow l a v).fcs = s.fcs :=
  State.with_regs_fcs s _
@[simp] theorem State.setShadow_fd0 (s : State) (l : Lane) (a : Nat) (v : Word) : (s.setShadow l a v).fd0 = s.fd0 :=
  State.with_regs_fd0 s _
@[simp] theorem State.setShadow_fd1 (s : State) (l : Lane) (a : Nat) (v : Word) : (s.setShadow l a v).fd1 = s.fd1 :=
  State.with_regs_fd1 s _
@[simp] theorem State.setShadow_fd2 (s : State) (l : Lane) (a : Nat) (v : Word) : (s.setShadow l a v).fd2 = s.fd2 :=
  State.with_regs_fd2 s _
@[simp] theorem State.setShadow_stamps (s : State) (l : Lane) (a : Nat) (v : Word) : (s.setShadow l a v).stamps = s.stamps :=
  State.with_regs_stamps s _
@[simp] theorem State.setShadow_tideE (s : State) (l : Lane) (a : Nat) (v : Word) : (s.setShadow l a v).tideE = s.tideE :=
  State.with_regs_tideE s _
@[simp] theorem State.setShadow_tideW (s : State) (l : Lane) (a : Nat) (v : Word) : (s.setShadow l a v).tideW = s.tideW :=
  State.with_regs_tideW s _
@[simp] theorem State.setShadow_tevArms (s : State) (l : Lane) (a : Nat) (v : Word) : (s.setShadow l a v).tevArms = s.tevArms :=
  State.with_regs_tevArms s _
@[simp] theorem State.setShadow_evtRecs (s : State) (l : Lane) (a : Nat) (v : Word) : (s.setShadow l a v).evtRecs = s.evtRecs :=
  State.with_regs_evtRecs s _
@[simp] theorem State.setShadow_cvcE (s : State) (l : Lane) (a : Nat) (v : Word) : (s.setShadow l a v).cvcE = s.cvcE :=
  State.with_regs_cvcE s _
@[simp] theorem State.setShadow_cvcW (s : State) (l : Lane) (a : Nat) (v : Word) : (s.setShadow l a v).cvcW = s.cvcW :=
  State.with_regs_cvcW s _
@[simp] theorem State.setShadow_sels (s : State) (l : Lane) (a : Nat) (v : Word) : (s.setShadow l a v).sels = s.sels :=
  State.with_regs_sels s _
@[simp] theorem State.setShadow_pwmRecs (s : State) (l : Lane) (a : Nat) (v : Word) : (s.setShadow l a v).pwmRecs = s.pwmRecs :=
  State.with_regs_pwmRecs s _
@[simp] theorem State.setShadow_pwmWork (s : State) (l : Lane) (a : Nat) (v : Word) : (s.setShadow l a v).pwmWork = s.pwmWork :=
  State.with_regs_pwmWork s _
@[simp] theorem State.setShadow_cmnRecs (s : State) (l : Lane) (a : Nat) (v : Word) : (s.setShadow l a v).cmnRecs = s.cmnRecs :=
  State.with_regs_cmnRecs s _
@[simp] theorem State.setShadow_canRxE (s : State) (l : Lane) (a : Nat) (v : Word) : (s.setShadow l a v).canRxE = s.canRxE :=
  State.with_regs_canRxE s _
@[simp] theorem State.setShadow_canRxW (s : State) (l : Lane) (a : Nat) (v : Word) : (s.setShadow l a v).canRxW = s.canRxW :=
  State.with_regs_canRxW s _
@[simp] theorem State.setShadow_canPorts (s : State) (l : Lane) (a : Nat) (v : Word) : (s.setShadow l a v).canPorts = s.canPorts :=
  State.with_regs_canPorts s _
@[simp] theorem State.setShadow_fltQ (s : State) (l : Lane) (a : Nat) (v : Word) : (s.setShadow l a v).fltQ = s.fltQ :=
  State.with_regs_fltQ s _
@[simp] theorem State.setShadow_canWork (s : State) (l : Lane) (a : Nat) (v : Word) : (s.setShadow l a v).canWork = s.canWork :=
  State.with_regs_canWork s _
@[simp] theorem State.setShadow_canHeld (s : State) (l : Lane) (a : Nat) (v : Word) : (s.setShadow l a v).canHeld = s.canHeld :=
  State.with_regs_canHeld s _
@[simp] theorem State.setShadow_lins (s : State) (l : Lane) (a : Nat) (v : Word) : (s.setShadow l a v).lins = s.lins :=
  State.with_regs_lins s _
@[simp] theorem State.setShadow_linWork (s : State) (l : Lane) (a : Nat) (v : Word) : (s.setShadow l a v).linWork = s.linWork :=
  State.with_regs_linWork s _
@[simp] theorem State.setShadow_tbs (s : State) (l : Lane) (a : Nat) (v : Word) : (s.setShadow l a v).tbs = s.tbs :=
  State.with_regs_tbs s _
@[simp] theorem State.setShadow_eth (s : State) (l : Lane) (a : Nat) (v : Word) : (s.setShadow l a v).eth = s.eth :=
  State.with_regs_eth s _
@[simp] theorem State.setShadow_harbInE (s : State) (l : Lane) (a : Nat) (v : Word) : (s.setShadow l a v).harbInE = s.harbInE :=
  State.with_regs_harbInE s _
@[simp] theorem State.setShadow_harbInW (s : State) (l : Lane) (a : Nat) (v : Word) : (s.setShadow l a v).harbInW = s.harbInW :=
  State.with_regs_harbInW s _
@[simp] theorem State.setShadow_harbHeld (s : State) (l : Lane) (a : Nat) (v : Word) : (s.setShadow l a v).harbHeld = s.harbHeld :=
  State.with_regs_harbHeld s _
@[simp] theorem State.setShadow_pduFails (s : State) (l : Lane) (a : Nat) (v : Word) : (s.setShadow l a v).pduFails = s.pduFails :=
  State.with_regs_pduFails s _
@[simp] theorem State.setShadow_harbE (s : State) (l : Lane) (a : Nat) (v : Word) : (s.setShadow l a v).harbE = s.harbE :=
  State.with_regs_harbE s _
@[simp] theorem State.setShadow_harbW (s : State) (l : Lane) (a : Nat) (v : Word) : (s.setShadow l a v).harbW = s.harbW :=
  State.with_regs_harbW s _
@[simp] theorem State.setShadow_cw (s : State) (l : Lane) (a : Nat) (v : Word) : (s.setShadow l a v).cw = s.cw :=
  State.with_regs_cw s _
@[simp] theorem State.setShadow_nms (s : State) (l : Lane) (a : Nat) (v : Word) : (s.setShadow l a v).nms = s.nms :=
  State.with_regs_nms s _
@[simp] theorem State.setShadow_grants (s : State) (l : Lane) (a : Nat) (v : Word) : (s.setShadow l a v).grants = s.grants :=
  State.with_regs_grants s _
@[simp] theorem State.setShadow_vfOps (s : State) (l : Lane) (a : Nat) (v : Word) : (s.setShadow l a v).vfOps = s.vfOps :=
  State.with_regs_vfOps s _
@[simp] theorem State.setShadow_quiesces (s : State) (l : Lane) (a : Nat) (v : Word) : (s.setShadow l a v).quiesces = s.quiesces :=
  State.with_regs_quiesces s _
@[simp] theorem State.setShadow_iovQs (s : State) (l : Lane) (a : Nat) (v : Word) : (s.setShadow l a v).iovQs = s.iovQs :=
  State.with_regs_iovQs s _
@[simp] theorem State.setShadow_potUpds (s : State) (l : Lane) (a : Nat) (v : Word) : (s.setShadow l a v).potUpds = s.potUpds :=
  State.with_regs_potUpds s _
@[simp] theorem State.setShadow_copies (s : State) (l : Lane) (a : Nat) (v : Word) : (s.setShadow l a v).copies = s.copies :=
  State.with_regs_copies s _
@[simp] theorem State.setShadow_lstepTests (s : State) (l : Lane) (a : Nat) (v : Word) : (s.setShadow l a v).lstepTests = s.lstepTests :=
  State.with_regs_lstepTests s _
@[simp] theorem State.setShadow_tamperLog (s : State) (l : Lane) (a : Nat) (v : Word) : (s.setShadow l a v).tamperLog = s.tamperLog :=
  State.with_regs_tamperLog s _
@[simp] theorem State.setShadow_secE (s : State) (l : Lane) (a : Nat) (v : Word) : (s.setShadow l a v).secE = s.secE :=
  State.with_regs_secE s _
@[simp] theorem State.setShadow_secW (s : State) (l : Lane) (a : Nat) (v : Word) : (s.setShadow l a v).secW = s.secW :=
  State.with_regs_secW s _
@[simp] theorem State.setShadow_keyOps (s : State) (l : Lane) (a : Nat) (v : Word) : (s.setShadow l a v).keyOps = s.keyOps :=
  State.with_regs_keyOps s _
@[simp] theorem State.setShadow_pmReqs (s : State) (l : Lane) (a : Nat) (v : Word) : (s.setShadow l a v).pmReqs = s.pmReqs :=
  State.with_regs_pmReqs s _
@[simp] theorem State.setShadow_ownOps (s : State) (l : Lane) (a : Nat) (v : Word) : (s.setShadow l a v).ownOps = s.ownOps :=
  State.with_regs_ownOps s _
@[simp] theorem State.setShadow_fuseOps (s : State) (l : Lane) (a : Nat) (v : Word) : (s.setShadow l a v).fuseOps = s.fuseOps :=
  State.with_regs_fuseOps s _
@[simp] theorem State.setShadow_upd (s : State) (l : Lane) (a : Nat) (v : Word) : (s.setShadow l a v).upd = s.upd :=
  State.with_regs_upd s _
@[simp] theorem State.setShadow_calUs (s : State) (l : Lane) (a : Nat) (v : Word) : (s.setShadow l a v).calUs = s.calUs :=
  State.with_regs_calUs s _
@[simp] theorem State.setShadow_parE (s : State) (l : Lane) (a : Nat) (v : Word) : (s.setShadow l a v).parE = s.parE :=
  State.with_regs_parE s _
@[simp] theorem State.setShadow_parW (s : State) (l : Lane) (a : Nat) (v : Word) : (s.setShadow l a v).parW = s.parW :=
  State.with_regs_parW s _

/-! ### setByte -/

@[simp] theorem State.setByte_pending (s : State) (l : Lane) (a : Nat) (v : Byte) : (s.setByte l a v).pending = s.pending :=
  State.with_mem_pending s _
@[simp] theorem State.setByte_now (s : State) (l : Lane) (a : Nat) (v : Byte) : (s.setByte l a v).now = s.now :=
  State.with_mem_now s _
@[simp] theorem State.setByte_freeCtr (s : State) (l : Lane) (a : Nat) (v : Byte) : (s.setByte l a v).freeCtr = s.freeCtr :=
  State.with_mem_freeCtr s _
@[simp] theorem State.setByte_regs (s : State) (l : Lane) (a : Nat) (v : Byte) : (s.setByte l a v).regs = s.regs :=
  State.with_mem_regs s _
@[simp] theorem State.setByte_bus (s : State) (l : Lane) (a : Nat) (v : Byte) : (s.setByte l a v).bus = s.bus :=
  State.with_mem_bus s _
@[simp] theorem State.setByte_irqs (s : State) (l : Lane) (a : Nat) (v : Byte) : (s.setByte l a v).irqs = s.irqs :=
  State.with_mem_irqs s _
@[simp] theorem State.setByte_outbox (s : State) (l : Lane) (a : Nat) (v : Byte) : (s.setByte l a v).outbox = s.outbox :=
  State.with_mem_outbox s _
@[simp] theorem State.setByte_led (s : State) (l : Lane) (a : Nat) (v : Byte) : (s.setByte l a v).led = s.led :=
  State.with_mem_led s _
@[simp] theorem State.setByte_commits (s : State) (l : Lane) (a : Nat) (v : Byte) : (s.setByte l a v).commits = s.commits :=
  State.with_mem_commits s _
@[simp] theorem State.setByte_nums (s : State) (l : Lane) (a : Nat) (v : Byte) : (s.setByte l a v).nums = s.nums :=
  State.with_mem_nums s _
@[simp] theorem State.setByte_p0 (s : State) (l : Lane) (a : Nat) (v : Byte) : (s.setByte l a v).p0 = s.p0 :=
  State.with_mem_p0 s _
@[simp] theorem State.setByte_p1 (s : State) (l : Lane) (a : Nat) (v : Byte) : (s.setByte l a v).p1 = s.p1 :=
  State.with_mem_p1 s _
@[simp] theorem State.setByte_f0 (s : State) (l : Lane) (a : Nat) (v : Byte) : (s.setByte l a v).f0 = s.f0 :=
  State.with_mem_f0 s _
@[simp] theorem State.setByte_f1 (s : State) (l : Lane) (a : Nat) (v : Byte) : (s.setByte l a v).f1 = s.f1 :=
  State.with_mem_f1 s _
@[simp] theorem State.setByte_fi (s : State) (l : Lane) (a : Nat) (v : Byte) : (s.setByte l a v).fi = s.fi :=
  State.with_mem_fi s _
@[simp] theorem State.setByte_cmn (s : State) (l : Lane) (a : Nat) (v : Byte) : (s.setByte l a v).cmn = s.cmn :=
  State.with_mem_cmn s _
@[simp] theorem State.setByte_arb (s : State) (l : Lane) (a : Nat) (v : Byte) : (s.setByte l a v).arb = s.arb :=
  State.with_mem_arb s _
@[simp] theorem State.setByte_ferry (s : State) (l : Lane) (a : Nat) (v : Byte) : (s.setByte l a v).ferry = s.ferry :=
  State.with_mem_ferry s _
@[simp] theorem State.setByte_laneE (s : State) (l : Lane) (a : Nat) (v : Byte) : (s.setByte l a v).laneE = s.laneE :=
  State.with_mem_laneE s _
@[simp] theorem State.setByte_laneW (s : State) (l : Lane) (a : Nat) (v : Byte) : (s.setByte l a v).laneW = s.laneW :=
  State.with_mem_laneW s _
@[simp] theorem State.setByte_sessions (s : State) (l : Lane) (a : Nat) (v : Byte) : (s.setByte l a v).sessions = s.sessions :=
  State.with_mem_sessions s _
@[simp] theorem State.setByte_scs (s : State) (l : Lane) (a : Nat) (v : Byte) : (s.setByte l a v).scs = s.scs :=
  State.with_mem_scs s _
@[simp] theorem State.setByte_mod_ (s : State) (l : Lane) (a : Nat) (v : Byte) : (s.setByte l a v).mod_ = s.mod_ :=
  State.with_mem_mod_ s _
@[simp] theorem State.setByte_urgents (s : State) (l : Lane) (a : Nat) (v : Byte) : (s.setByte l a v).urgents = s.urgents :=
  State.with_mem_urgents s _
@[simp] theorem State.setByte_outs (s : State) (l : Lane) (a : Nat) (v : Byte) : (s.setByte l a v).outs = s.outs :=
  State.with_mem_outs s _
@[simp] theorem State.setByte_feeds (s : State) (l : Lane) (a : Nat) (v : Byte) : (s.setByte l a v).feeds = s.feeds :=
  State.with_mem_feeds s _
@[simp] theorem State.setByte_pw0 (s : State) (l : Lane) (a : Nat) (v : Byte) : (s.setByte l a v).pw0 = s.pw0 :=
  State.with_mem_pw0 s _
@[simp] theorem State.setByte_pw1 (s : State) (l : Lane) (a : Nat) (v : Byte) : (s.setByte l a v).pw1 = s.pw1 :=
  State.with_mem_pw1 s _
@[simp] theorem State.setByte_fcs (s : State) (l : Lane) (a : Nat) (v : Byte) : (s.setByte l a v).fcs = s.fcs :=
  State.with_mem_fcs s _
@[simp] theorem State.setByte_fd0 (s : State) (l : Lane) (a : Nat) (v : Byte) : (s.setByte l a v).fd0 = s.fd0 :=
  State.with_mem_fd0 s _
@[simp] theorem State.setByte_fd1 (s : State) (l : Lane) (a : Nat) (v : Byte) : (s.setByte l a v).fd1 = s.fd1 :=
  State.with_mem_fd1 s _
@[simp] theorem State.setByte_fd2 (s : State) (l : Lane) (a : Nat) (v : Byte) : (s.setByte l a v).fd2 = s.fd2 :=
  State.with_mem_fd2 s _
@[simp] theorem State.setByte_stamps (s : State) (l : Lane) (a : Nat) (v : Byte) : (s.setByte l a v).stamps = s.stamps :=
  State.with_mem_stamps s _
@[simp] theorem State.setByte_tideE (s : State) (l : Lane) (a : Nat) (v : Byte) : (s.setByte l a v).tideE = s.tideE :=
  State.with_mem_tideE s _
@[simp] theorem State.setByte_tideW (s : State) (l : Lane) (a : Nat) (v : Byte) : (s.setByte l a v).tideW = s.tideW :=
  State.with_mem_tideW s _
@[simp] theorem State.setByte_tevArms (s : State) (l : Lane) (a : Nat) (v : Byte) : (s.setByte l a v).tevArms = s.tevArms :=
  State.with_mem_tevArms s _
@[simp] theorem State.setByte_evtRecs (s : State) (l : Lane) (a : Nat) (v : Byte) : (s.setByte l a v).evtRecs = s.evtRecs :=
  State.with_mem_evtRecs s _
@[simp] theorem State.setByte_cvcE (s : State) (l : Lane) (a : Nat) (v : Byte) : (s.setByte l a v).cvcE = s.cvcE :=
  State.with_mem_cvcE s _
@[simp] theorem State.setByte_cvcW (s : State) (l : Lane) (a : Nat) (v : Byte) : (s.setByte l a v).cvcW = s.cvcW :=
  State.with_mem_cvcW s _
@[simp] theorem State.setByte_sels (s : State) (l : Lane) (a : Nat) (v : Byte) : (s.setByte l a v).sels = s.sels :=
  State.with_mem_sels s _
@[simp] theorem State.setByte_pwmRecs (s : State) (l : Lane) (a : Nat) (v : Byte) : (s.setByte l a v).pwmRecs = s.pwmRecs :=
  State.with_mem_pwmRecs s _
@[simp] theorem State.setByte_pwmWork (s : State) (l : Lane) (a : Nat) (v : Byte) : (s.setByte l a v).pwmWork = s.pwmWork :=
  State.with_mem_pwmWork s _
@[simp] theorem State.setByte_cmnRecs (s : State) (l : Lane) (a : Nat) (v : Byte) : (s.setByte l a v).cmnRecs = s.cmnRecs :=
  State.with_mem_cmnRecs s _
@[simp] theorem State.setByte_canRxE (s : State) (l : Lane) (a : Nat) (v : Byte) : (s.setByte l a v).canRxE = s.canRxE :=
  State.with_mem_canRxE s _
@[simp] theorem State.setByte_canRxW (s : State) (l : Lane) (a : Nat) (v : Byte) : (s.setByte l a v).canRxW = s.canRxW :=
  State.with_mem_canRxW s _
@[simp] theorem State.setByte_canPorts (s : State) (l : Lane) (a : Nat) (v : Byte) : (s.setByte l a v).canPorts = s.canPorts :=
  State.with_mem_canPorts s _
@[simp] theorem State.setByte_fltQ (s : State) (l : Lane) (a : Nat) (v : Byte) : (s.setByte l a v).fltQ = s.fltQ :=
  State.with_mem_fltQ s _
@[simp] theorem State.setByte_canWork (s : State) (l : Lane) (a : Nat) (v : Byte) : (s.setByte l a v).canWork = s.canWork :=
  State.with_mem_canWork s _
@[simp] theorem State.setByte_canHeld (s : State) (l : Lane) (a : Nat) (v : Byte) : (s.setByte l a v).canHeld = s.canHeld :=
  State.with_mem_canHeld s _
@[simp] theorem State.setByte_lins (s : State) (l : Lane) (a : Nat) (v : Byte) : (s.setByte l a v).lins = s.lins :=
  State.with_mem_lins s _
@[simp] theorem State.setByte_linWork (s : State) (l : Lane) (a : Nat) (v : Byte) : (s.setByte l a v).linWork = s.linWork :=
  State.with_mem_linWork s _
@[simp] theorem State.setByte_tbs (s : State) (l : Lane) (a : Nat) (v : Byte) : (s.setByte l a v).tbs = s.tbs :=
  State.with_mem_tbs s _
@[simp] theorem State.setByte_eth (s : State) (l : Lane) (a : Nat) (v : Byte) : (s.setByte l a v).eth = s.eth :=
  State.with_mem_eth s _
@[simp] theorem State.setByte_harbInE (s : State) (l : Lane) (a : Nat) (v : Byte) : (s.setByte l a v).harbInE = s.harbInE :=
  State.with_mem_harbInE s _
@[simp] theorem State.setByte_harbInW (s : State) (l : Lane) (a : Nat) (v : Byte) : (s.setByte l a v).harbInW = s.harbInW :=
  State.with_mem_harbInW s _
@[simp] theorem State.setByte_harbHeld (s : State) (l : Lane) (a : Nat) (v : Byte) : (s.setByte l a v).harbHeld = s.harbHeld :=
  State.with_mem_harbHeld s _
@[simp] theorem State.setByte_pduFails (s : State) (l : Lane) (a : Nat) (v : Byte) : (s.setByte l a v).pduFails = s.pduFails :=
  State.with_mem_pduFails s _
@[simp] theorem State.setByte_harbE (s : State) (l : Lane) (a : Nat) (v : Byte) : (s.setByte l a v).harbE = s.harbE :=
  State.with_mem_harbE s _
@[simp] theorem State.setByte_harbW (s : State) (l : Lane) (a : Nat) (v : Byte) : (s.setByte l a v).harbW = s.harbW :=
  State.with_mem_harbW s _
@[simp] theorem State.setByte_cw (s : State) (l : Lane) (a : Nat) (v : Byte) : (s.setByte l a v).cw = s.cw :=
  State.with_mem_cw s _
@[simp] theorem State.setByte_nms (s : State) (l : Lane) (a : Nat) (v : Byte) : (s.setByte l a v).nms = s.nms :=
  State.with_mem_nms s _
@[simp] theorem State.setByte_grants (s : State) (l : Lane) (a : Nat) (v : Byte) : (s.setByte l a v).grants = s.grants :=
  State.with_mem_grants s _
@[simp] theorem State.setByte_vfOps (s : State) (l : Lane) (a : Nat) (v : Byte) : (s.setByte l a v).vfOps = s.vfOps :=
  State.with_mem_vfOps s _
@[simp] theorem State.setByte_quiesces (s : State) (l : Lane) (a : Nat) (v : Byte) : (s.setByte l a v).quiesces = s.quiesces :=
  State.with_mem_quiesces s _
@[simp] theorem State.setByte_iovQs (s : State) (l : Lane) (a : Nat) (v : Byte) : (s.setByte l a v).iovQs = s.iovQs :=
  State.with_mem_iovQs s _
@[simp] theorem State.setByte_potUpds (s : State) (l : Lane) (a : Nat) (v : Byte) : (s.setByte l a v).potUpds = s.potUpds :=
  State.with_mem_potUpds s _
@[simp] theorem State.setByte_copies (s : State) (l : Lane) (a : Nat) (v : Byte) : (s.setByte l a v).copies = s.copies :=
  State.with_mem_copies s _
@[simp] theorem State.setByte_lstepTests (s : State) (l : Lane) (a : Nat) (v : Byte) : (s.setByte l a v).lstepTests = s.lstepTests :=
  State.with_mem_lstepTests s _
@[simp] theorem State.setByte_tamperLog (s : State) (l : Lane) (a : Nat) (v : Byte) : (s.setByte l a v).tamperLog = s.tamperLog :=
  State.with_mem_tamperLog s _
@[simp] theorem State.setByte_secE (s : State) (l : Lane) (a : Nat) (v : Byte) : (s.setByte l a v).secE = s.secE :=
  State.with_mem_secE s _
@[simp] theorem State.setByte_secW (s : State) (l : Lane) (a : Nat) (v : Byte) : (s.setByte l a v).secW = s.secW :=
  State.with_mem_secW s _
@[simp] theorem State.setByte_keyOps (s : State) (l : Lane) (a : Nat) (v : Byte) : (s.setByte l a v).keyOps = s.keyOps :=
  State.with_mem_keyOps s _
@[simp] theorem State.setByte_pmReqs (s : State) (l : Lane) (a : Nat) (v : Byte) : (s.setByte l a v).pmReqs = s.pmReqs :=
  State.with_mem_pmReqs s _
@[simp] theorem State.setByte_ownOps (s : State) (l : Lane) (a : Nat) (v : Byte) : (s.setByte l a v).ownOps = s.ownOps :=
  State.with_mem_ownOps s _
@[simp] theorem State.setByte_fuseOps (s : State) (l : Lane) (a : Nat) (v : Byte) : (s.setByte l a v).fuseOps = s.fuseOps :=
  State.with_mem_fuseOps s _
@[simp] theorem State.setByte_upd (s : State) (l : Lane) (a : Nat) (v : Byte) : (s.setByte l a v).upd = s.upd :=
  State.with_mem_upd s _
@[simp] theorem State.setByte_calUs (s : State) (l : Lane) (a : Nat) (v : Byte) : (s.setByte l a v).calUs = s.calUs :=
  State.with_mem_calUs s _
@[simp] theorem State.setByte_parE (s : State) (l : Lane) (a : Nat) (v : Byte) : (s.setByte l a v).parE = s.parE :=
  State.with_mem_parE s _
@[simp] theorem State.setByte_parW (s : State) (l : Lane) (a : Nat) (v : Byte) : (s.setByte l a v).parW = s.parW :=
  State.with_mem_parW s _

/-! ### emit -/

@[simp] theorem State.emit_pending (s : State) (m : OutMsg) : (s.emit m).pending = s.pending :=
  State.with_outbox_pending s _
@[simp] theorem State.emit_now (s : State) (m : OutMsg) : (s.emit m).now = s.now :=
  State.with_outbox_now s _
@[simp] theorem State.emit_freeCtr (s : State) (m : OutMsg) : (s.emit m).freeCtr = s.freeCtr :=
  State.with_outbox_freeCtr s _
@[simp] theorem State.emit_regs (s : State) (m : OutMsg) : (s.emit m).regs = s.regs :=
  State.with_outbox_regs s _
@[simp] theorem State.emit_mem (s : State) (m : OutMsg) : (s.emit m).mem = s.mem :=
  State.with_outbox_mem s _
@[simp] theorem State.emit_bus (s : State) (m : OutMsg) : (s.emit m).bus = s.bus :=
  State.with_outbox_bus s _
@[simp] theorem State.emit_irqs (s : State) (m : OutMsg) : (s.emit m).irqs = s.irqs :=
  State.with_outbox_irqs s _
@[simp] theorem State.emit_led (s : State) (m : OutMsg) : (s.emit m).led = s.led :=
  State.with_outbox_led s _
@[simp] theorem State.emit_commits (s : State) (m : OutMsg) : (s.emit m).commits = s.commits :=
  State.with_outbox_commits s _
@[simp] theorem State.emit_nums (s : State) (m : OutMsg) : (s.emit m).nums = s.nums :=
  State.with_outbox_nums s _
@[simp] theorem State.emit_p0 (s : State) (m : OutMsg) : (s.emit m).p0 = s.p0 :=
  State.with_outbox_p0 s _
@[simp] theorem State.emit_p1 (s : State) (m : OutMsg) : (s.emit m).p1 = s.p1 :=
  State.with_outbox_p1 s _
@[simp] theorem State.emit_f0 (s : State) (m : OutMsg) : (s.emit m).f0 = s.f0 :=
  State.with_outbox_f0 s _
@[simp] theorem State.emit_f1 (s : State) (m : OutMsg) : (s.emit m).f1 = s.f1 :=
  State.with_outbox_f1 s _
@[simp] theorem State.emit_fi (s : State) (m : OutMsg) : (s.emit m).fi = s.fi :=
  State.with_outbox_fi s _
@[simp] theorem State.emit_cmn (s : State) (m : OutMsg) : (s.emit m).cmn = s.cmn :=
  State.with_outbox_cmn s _
@[simp] theorem State.emit_arb (s : State) (m : OutMsg) : (s.emit m).arb = s.arb :=
  State.with_outbox_arb s _
@[simp] theorem State.emit_ferry (s : State) (m : OutMsg) : (s.emit m).ferry = s.ferry :=
  State.with_outbox_ferry s _
@[simp] theorem State.emit_laneE (s : State) (m : OutMsg) : (s.emit m).laneE = s.laneE :=
  State.with_outbox_laneE s _
@[simp] theorem State.emit_laneW (s : State) (m : OutMsg) : (s.emit m).laneW = s.laneW :=
  State.with_outbox_laneW s _
@[simp] theorem State.emit_sessions (s : State) (m : OutMsg) : (s.emit m).sessions = s.sessions :=
  State.with_outbox_sessions s _
@[simp] theorem State.emit_scs (s : State) (m : OutMsg) : (s.emit m).scs = s.scs :=
  State.with_outbox_scs s _
@[simp] theorem State.emit_mod_ (s : State) (m : OutMsg) : (s.emit m).mod_ = s.mod_ :=
  State.with_outbox_mod_ s _
@[simp] theorem State.emit_urgents (s : State) (m : OutMsg) : (s.emit m).urgents = s.urgents :=
  State.with_outbox_urgents s _
@[simp] theorem State.emit_outs (s : State) (m : OutMsg) : (s.emit m).outs = s.outs :=
  State.with_outbox_outs s _
@[simp] theorem State.emit_feeds (s : State) (m : OutMsg) : (s.emit m).feeds = s.feeds :=
  State.with_outbox_feeds s _
@[simp] theorem State.emit_pw0 (s : State) (m : OutMsg) : (s.emit m).pw0 = s.pw0 :=
  State.with_outbox_pw0 s _
@[simp] theorem State.emit_pw1 (s : State) (m : OutMsg) : (s.emit m).pw1 = s.pw1 :=
  State.with_outbox_pw1 s _
@[simp] theorem State.emit_fcs (s : State) (m : OutMsg) : (s.emit m).fcs = s.fcs :=
  State.with_outbox_fcs s _
@[simp] theorem State.emit_fd0 (s : State) (m : OutMsg) : (s.emit m).fd0 = s.fd0 :=
  State.with_outbox_fd0 s _
@[simp] theorem State.emit_fd1 (s : State) (m : OutMsg) : (s.emit m).fd1 = s.fd1 :=
  State.with_outbox_fd1 s _
@[simp] theorem State.emit_fd2 (s : State) (m : OutMsg) : (s.emit m).fd2 = s.fd2 :=
  State.with_outbox_fd2 s _
@[simp] theorem State.emit_stamps (s : State) (m : OutMsg) : (s.emit m).stamps = s.stamps :=
  State.with_outbox_stamps s _
@[simp] theorem State.emit_tideE (s : State) (m : OutMsg) : (s.emit m).tideE = s.tideE :=
  State.with_outbox_tideE s _
@[simp] theorem State.emit_tideW (s : State) (m : OutMsg) : (s.emit m).tideW = s.tideW :=
  State.with_outbox_tideW s _
@[simp] theorem State.emit_tevArms (s : State) (m : OutMsg) : (s.emit m).tevArms = s.tevArms :=
  State.with_outbox_tevArms s _
@[simp] theorem State.emit_evtRecs (s : State) (m : OutMsg) : (s.emit m).evtRecs = s.evtRecs :=
  State.with_outbox_evtRecs s _
@[simp] theorem State.emit_cvcE (s : State) (m : OutMsg) : (s.emit m).cvcE = s.cvcE :=
  State.with_outbox_cvcE s _
@[simp] theorem State.emit_cvcW (s : State) (m : OutMsg) : (s.emit m).cvcW = s.cvcW :=
  State.with_outbox_cvcW s _
@[simp] theorem State.emit_sels (s : State) (m : OutMsg) : (s.emit m).sels = s.sels :=
  State.with_outbox_sels s _
@[simp] theorem State.emit_pwmRecs (s : State) (m : OutMsg) : (s.emit m).pwmRecs = s.pwmRecs :=
  State.with_outbox_pwmRecs s _
@[simp] theorem State.emit_pwmWork (s : State) (m : OutMsg) : (s.emit m).pwmWork = s.pwmWork :=
  State.with_outbox_pwmWork s _
@[simp] theorem State.emit_cmnRecs (s : State) (m : OutMsg) : (s.emit m).cmnRecs = s.cmnRecs :=
  State.with_outbox_cmnRecs s _
@[simp] theorem State.emit_canRxE (s : State) (m : OutMsg) : (s.emit m).canRxE = s.canRxE :=
  State.with_outbox_canRxE s _
@[simp] theorem State.emit_canRxW (s : State) (m : OutMsg) : (s.emit m).canRxW = s.canRxW :=
  State.with_outbox_canRxW s _
@[simp] theorem State.emit_canPorts (s : State) (m : OutMsg) : (s.emit m).canPorts = s.canPorts :=
  State.with_outbox_canPorts s _
@[simp] theorem State.emit_fltQ (s : State) (m : OutMsg) : (s.emit m).fltQ = s.fltQ :=
  State.with_outbox_fltQ s _
@[simp] theorem State.emit_canWork (s : State) (m : OutMsg) : (s.emit m).canWork = s.canWork :=
  State.with_outbox_canWork s _
@[simp] theorem State.emit_canHeld (s : State) (m : OutMsg) : (s.emit m).canHeld = s.canHeld :=
  State.with_outbox_canHeld s _
@[simp] theorem State.emit_lins (s : State) (m : OutMsg) : (s.emit m).lins = s.lins :=
  State.with_outbox_lins s _
@[simp] theorem State.emit_linWork (s : State) (m : OutMsg) : (s.emit m).linWork = s.linWork :=
  State.with_outbox_linWork s _
@[simp] theorem State.emit_tbs (s : State) (m : OutMsg) : (s.emit m).tbs = s.tbs :=
  State.with_outbox_tbs s _
@[simp] theorem State.emit_eth (s : State) (m : OutMsg) : (s.emit m).eth = s.eth :=
  State.with_outbox_eth s _
@[simp] theorem State.emit_harbInE (s : State) (m : OutMsg) : (s.emit m).harbInE = s.harbInE :=
  State.with_outbox_harbInE s _
@[simp] theorem State.emit_harbInW (s : State) (m : OutMsg) : (s.emit m).harbInW = s.harbInW :=
  State.with_outbox_harbInW s _
@[simp] theorem State.emit_harbHeld (s : State) (m : OutMsg) : (s.emit m).harbHeld = s.harbHeld :=
  State.with_outbox_harbHeld s _
@[simp] theorem State.emit_pduFails (s : State) (m : OutMsg) : (s.emit m).pduFails = s.pduFails :=
  State.with_outbox_pduFails s _
@[simp] theorem State.emit_harbE (s : State) (m : OutMsg) : (s.emit m).harbE = s.harbE :=
  State.with_outbox_harbE s _
@[simp] theorem State.emit_harbW (s : State) (m : OutMsg) : (s.emit m).harbW = s.harbW :=
  State.with_outbox_harbW s _
@[simp] theorem State.emit_cw (s : State) (m : OutMsg) : (s.emit m).cw = s.cw :=
  State.with_outbox_cw s _
@[simp] theorem State.emit_nms (s : State) (m : OutMsg) : (s.emit m).nms = s.nms :=
  State.with_outbox_nms s _
@[simp] theorem State.emit_grants (s : State) (m : OutMsg) : (s.emit m).grants = s.grants :=
  State.with_outbox_grants s _
@[simp] theorem State.emit_vfOps (s : State) (m : OutMsg) : (s.emit m).vfOps = s.vfOps :=
  State.with_outbox_vfOps s _
@[simp] theorem State.emit_quiesces (s : State) (m : OutMsg) : (s.emit m).quiesces = s.quiesces :=
  State.with_outbox_quiesces s _
@[simp] theorem State.emit_iovQs (s : State) (m : OutMsg) : (s.emit m).iovQs = s.iovQs :=
  State.with_outbox_iovQs s _
@[simp] theorem State.emit_potUpds (s : State) (m : OutMsg) : (s.emit m).potUpds = s.potUpds :=
  State.with_outbox_potUpds s _
@[simp] theorem State.emit_copies (s : State) (m : OutMsg) : (s.emit m).copies = s.copies :=
  State.with_outbox_copies s _
@[simp] theorem State.emit_lstepTests (s : State) (m : OutMsg) : (s.emit m).lstepTests = s.lstepTests :=
  State.with_outbox_lstepTests s _
@[simp] theorem State.emit_tamperLog (s : State) (m : OutMsg) : (s.emit m).tamperLog = s.tamperLog :=
  State.with_outbox_tamperLog s _
@[simp] theorem State.emit_secE (s : State) (m : OutMsg) : (s.emit m).secE = s.secE :=
  State.with_outbox_secE s _
@[simp] theorem State.emit_secW (s : State) (m : OutMsg) : (s.emit m).secW = s.secW :=
  State.with_outbox_secW s _
@[simp] theorem State.emit_keyOps (s : State) (m : OutMsg) : (s.emit m).keyOps = s.keyOps :=
  State.with_outbox_keyOps s _
@[simp] theorem State.emit_pmReqs (s : State) (m : OutMsg) : (s.emit m).pmReqs = s.pmReqs :=
  State.with_outbox_pmReqs s _
@[simp] theorem State.emit_ownOps (s : State) (m : OutMsg) : (s.emit m).ownOps = s.ownOps :=
  State.with_outbox_ownOps s _
@[simp] theorem State.emit_fuseOps (s : State) (m : OutMsg) : (s.emit m).fuseOps = s.fuseOps :=
  State.with_outbox_fuseOps s _
@[simp] theorem State.emit_upd (s : State) (m : OutMsg) : (s.emit m).upd = s.upd :=
  State.with_outbox_upd s _
@[simp] theorem State.emit_calUs (s : State) (m : OutMsg) : (s.emit m).calUs = s.calUs :=
  State.with_outbox_calUs s _
@[simp] theorem State.emit_parE (s : State) (m : OutMsg) : (s.emit m).parE = s.parE :=
  State.with_outbox_parE s _
@[simp] theorem State.emit_parW (s : State) (m : OutMsg) : (s.emit m).parW = s.parW :=
  State.with_outbox_parW s _

/-! ### tickFree -/

@[simp] theorem State.tickFree_pending (s : State) : (s.tickFree).pending = s.pending :=
  State.with_freeCtr_pending s _
@[simp] theorem State.tickFree_now (s : State) : (s.tickFree).now = s.now :=
  State.with_freeCtr_now s _
@[simp] theorem State.tickFree_regs (s : State) : (s.tickFree).regs = s.regs :=
  State.with_freeCtr_regs s _
@[simp] theorem State.tickFree_mem (s : State) : (s.tickFree).mem = s.mem :=
  State.with_freeCtr_mem s _
@[simp] theorem State.tickFree_bus (s : State) : (s.tickFree).bus = s.bus :=
  State.with_freeCtr_bus s _
@[simp] theorem State.tickFree_irqs (s : State) : (s.tickFree).irqs = s.irqs :=
  State.with_freeCtr_irqs s _
@[simp] theorem State.tickFree_outbox (s : State) : (s.tickFree).outbox = s.outbox :=
  State.with_freeCtr_outbox s _
@[simp] theorem State.tickFree_led (s : State) : (s.tickFree).led = s.led :=
  State.with_freeCtr_led s _
@[simp] theorem State.tickFree_commits (s : State) : (s.tickFree).commits = s.commits :=
  State.with_freeCtr_commits s _
@[simp] theorem State.tickFree_nums (s : State) : (s.tickFree).nums = s.nums :=
  State.with_freeCtr_nums s _
@[simp] theorem State.tickFree_p0 (s : State) : (s.tickFree).p0 = s.p0 :=
  State.with_freeCtr_p0 s _
@[simp] theorem State.tickFree_p1 (s : State) : (s.tickFree).p1 = s.p1 :=
  State.with_freeCtr_p1 s _
@[simp] theorem State.tickFree_f0 (s : State) : (s.tickFree).f0 = s.f0 :=
  State.with_freeCtr_f0 s _
@[simp] theorem State.tickFree_f1 (s : State) : (s.tickFree).f1 = s.f1 :=
  State.with_freeCtr_f1 s _
@[simp] theorem State.tickFree_fi (s : State) : (s.tickFree).fi = s.fi :=
  State.with_freeCtr_fi s _
@[simp] theorem State.tickFree_cmn (s : State) : (s.tickFree).cmn = s.cmn :=
  State.with_freeCtr_cmn s _
@[simp] theorem State.tickFree_arb (s : State) : (s.tickFree).arb = s.arb :=
  State.with_freeCtr_arb s _
@[simp] theorem State.tickFree_ferry (s : State) : (s.tickFree).ferry = s.ferry :=
  State.with_freeCtr_ferry s _
@[simp] theorem State.tickFree_laneE (s : State) : (s.tickFree).laneE = s.laneE :=
  State.with_freeCtr_laneE s _
@[simp] theorem State.tickFree_laneW (s : State) : (s.tickFree).laneW = s.laneW :=
  State.with_freeCtr_laneW s _
@[simp] theorem State.tickFree_sessions (s : State) : (s.tickFree).sessions = s.sessions :=
  State.with_freeCtr_sessions s _
@[simp] theorem State.tickFree_scs (s : State) : (s.tickFree).scs = s.scs :=
  State.with_freeCtr_scs s _
@[simp] theorem State.tickFree_mod_ (s : State) : (s.tickFree).mod_ = s.mod_ :=
  State.with_freeCtr_mod_ s _
@[simp] theorem State.tickFree_urgents (s : State) : (s.tickFree).urgents = s.urgents :=
  State.with_freeCtr_urgents s _
@[simp] theorem State.tickFree_outs (s : State) : (s.tickFree).outs = s.outs :=
  State.with_freeCtr_outs s _
@[simp] theorem State.tickFree_feeds (s : State) : (s.tickFree).feeds = s.feeds :=
  State.with_freeCtr_feeds s _
@[simp] theorem State.tickFree_pw0 (s : State) : (s.tickFree).pw0 = s.pw0 :=
  State.with_freeCtr_pw0 s _
@[simp] theorem State.tickFree_pw1 (s : State) : (s.tickFree).pw1 = s.pw1 :=
  State.with_freeCtr_pw1 s _
@[simp] theorem State.tickFree_fcs (s : State) : (s.tickFree).fcs = s.fcs :=
  State.with_freeCtr_fcs s _
@[simp] theorem State.tickFree_fd0 (s : State) : (s.tickFree).fd0 = s.fd0 :=
  State.with_freeCtr_fd0 s _
@[simp] theorem State.tickFree_fd1 (s : State) : (s.tickFree).fd1 = s.fd1 :=
  State.with_freeCtr_fd1 s _
@[simp] theorem State.tickFree_fd2 (s : State) : (s.tickFree).fd2 = s.fd2 :=
  State.with_freeCtr_fd2 s _
@[simp] theorem State.tickFree_stamps (s : State) : (s.tickFree).stamps = s.stamps :=
  State.with_freeCtr_stamps s _
@[simp] theorem State.tickFree_tideE (s : State) : (s.tickFree).tideE = s.tideE :=
  State.with_freeCtr_tideE s _
@[simp] theorem State.tickFree_tideW (s : State) : (s.tickFree).tideW = s.tideW :=
  State.with_freeCtr_tideW s _
@[simp] theorem State.tickFree_tevArms (s : State) : (s.tickFree).tevArms = s.tevArms :=
  State.with_freeCtr_tevArms s _
@[simp] theorem State.tickFree_evtRecs (s : State) : (s.tickFree).evtRecs = s.evtRecs :=
  State.with_freeCtr_evtRecs s _
@[simp] theorem State.tickFree_cvcE (s : State) : (s.tickFree).cvcE = s.cvcE :=
  State.with_freeCtr_cvcE s _
@[simp] theorem State.tickFree_cvcW (s : State) : (s.tickFree).cvcW = s.cvcW :=
  State.with_freeCtr_cvcW s _
@[simp] theorem State.tickFree_sels (s : State) : (s.tickFree).sels = s.sels :=
  State.with_freeCtr_sels s _
@[simp] theorem State.tickFree_pwmRecs (s : State) : (s.tickFree).pwmRecs = s.pwmRecs :=
  State.with_freeCtr_pwmRecs s _
@[simp] theorem State.tickFree_pwmWork (s : State) : (s.tickFree).pwmWork = s.pwmWork :=
  State.with_freeCtr_pwmWork s _
@[simp] theorem State.tickFree_cmnRecs (s : State) : (s.tickFree).cmnRecs = s.cmnRecs :=
  State.with_freeCtr_cmnRecs s _
@[simp] theorem State.tickFree_canRxE (s : State) : (s.tickFree).canRxE = s.canRxE :=
  State.with_freeCtr_canRxE s _
@[simp] theorem State.tickFree_canRxW (s : State) : (s.tickFree).canRxW = s.canRxW :=
  State.with_freeCtr_canRxW s _
@[simp] theorem State.tickFree_canPorts (s : State) : (s.tickFree).canPorts = s.canPorts :=
  State.with_freeCtr_canPorts s _
@[simp] theorem State.tickFree_fltQ (s : State) : (s.tickFree).fltQ = s.fltQ :=
  State.with_freeCtr_fltQ s _
@[simp] theorem State.tickFree_canWork (s : State) : (s.tickFree).canWork = s.canWork :=
  State.with_freeCtr_canWork s _
@[simp] theorem State.tickFree_canHeld (s : State) : (s.tickFree).canHeld = s.canHeld :=
  State.with_freeCtr_canHeld s _
@[simp] theorem State.tickFree_lins (s : State) : (s.tickFree).lins = s.lins :=
  State.with_freeCtr_lins s _
@[simp] theorem State.tickFree_linWork (s : State) : (s.tickFree).linWork = s.linWork :=
  State.with_freeCtr_linWork s _
@[simp] theorem State.tickFree_tbs (s : State) : (s.tickFree).tbs = s.tbs :=
  State.with_freeCtr_tbs s _
@[simp] theorem State.tickFree_eth (s : State) : (s.tickFree).eth = s.eth :=
  State.with_freeCtr_eth s _
@[simp] theorem State.tickFree_harbInE (s : State) : (s.tickFree).harbInE = s.harbInE :=
  State.with_freeCtr_harbInE s _
@[simp] theorem State.tickFree_harbInW (s : State) : (s.tickFree).harbInW = s.harbInW :=
  State.with_freeCtr_harbInW s _
@[simp] theorem State.tickFree_harbHeld (s : State) : (s.tickFree).harbHeld = s.harbHeld :=
  State.with_freeCtr_harbHeld s _
@[simp] theorem State.tickFree_pduFails (s : State) : (s.tickFree).pduFails = s.pduFails :=
  State.with_freeCtr_pduFails s _
@[simp] theorem State.tickFree_harbE (s : State) : (s.tickFree).harbE = s.harbE :=
  State.with_freeCtr_harbE s _
@[simp] theorem State.tickFree_harbW (s : State) : (s.tickFree).harbW = s.harbW :=
  State.with_freeCtr_harbW s _
@[simp] theorem State.tickFree_cw (s : State) : (s.tickFree).cw = s.cw :=
  State.with_freeCtr_cw s _
@[simp] theorem State.tickFree_nms (s : State) : (s.tickFree).nms = s.nms :=
  State.with_freeCtr_nms s _
@[simp] theorem State.tickFree_grants (s : State) : (s.tickFree).grants = s.grants :=
  State.with_freeCtr_grants s _
@[simp] theorem State.tickFree_vfOps (s : State) : (s.tickFree).vfOps = s.vfOps :=
  State.with_freeCtr_vfOps s _
@[simp] theorem State.tickFree_quiesces (s : State) : (s.tickFree).quiesces = s.quiesces :=
  State.with_freeCtr_quiesces s _
@[simp] theorem State.tickFree_iovQs (s : State) : (s.tickFree).iovQs = s.iovQs :=
  State.with_freeCtr_iovQs s _
@[simp] theorem State.tickFree_potUpds (s : State) : (s.tickFree).potUpds = s.potUpds :=
  State.with_freeCtr_potUpds s _
@[simp] theorem State.tickFree_copies (s : State) : (s.tickFree).copies = s.copies :=
  State.with_freeCtr_copies s _
@[simp] theorem State.tickFree_lstepTests (s : State) : (s.tickFree).lstepTests = s.lstepTests :=
  State.with_freeCtr_lstepTests s _
@[simp] theorem State.tickFree_tamperLog (s : State) : (s.tickFree).tamperLog = s.tamperLog :=
  State.with_freeCtr_tamperLog s _
@[simp] theorem State.tickFree_secE (s : State) : (s.tickFree).secE = s.secE :=
  State.with_freeCtr_secE s _
@[simp] theorem State.tickFree_secW (s : State) : (s.tickFree).secW = s.secW :=
  State.with_freeCtr_secW s _
@[simp] theorem State.tickFree_keyOps (s : State) : (s.tickFree).keyOps = s.keyOps :=
  State.with_freeCtr_keyOps s _
@[simp] theorem State.tickFree_pmReqs (s : State) : (s.tickFree).pmReqs = s.pmReqs :=
  State.with_freeCtr_pmReqs s _
@[simp] theorem State.tickFree_ownOps (s : State) : (s.tickFree).ownOps = s.ownOps :=
  State.with_freeCtr_ownOps s _
@[simp] theorem State.tickFree_fuseOps (s : State) : (s.tickFree).fuseOps = s.fuseOps :=
  State.with_freeCtr_fuseOps s _
@[simp] theorem State.tickFree_upd (s : State) : (s.tickFree).upd = s.upd :=
  State.with_freeCtr_upd s _
@[simp] theorem State.tickFree_calUs (s : State) : (s.tickFree).calUs = s.calUs :=
  State.with_freeCtr_calUs s _
@[simp] theorem State.tickFree_parE (s : State) : (s.tickFree).parE = s.parE :=
  State.with_freeCtr_parE s _
@[simp] theorem State.tickFree_parW (s : State) : (s.tickFree).parW = s.parW :=
  State.with_freeCtr_parW s _

/-! ### busOk -/

@[simp] theorem State.busOk_pending (s : State) (w : Word) : (s.busOk w).pending = s.pending :=
  State.with_bus_pending s _
@[simp] theorem State.busOk_now (s : State) (w : Word) : (s.busOk w).now = s.now :=
  State.with_bus_now s _
@[simp] theorem State.busOk_freeCtr (s : State) (w : Word) : (s.busOk w).freeCtr = s.freeCtr :=
  State.with_bus_freeCtr s _
@[simp] theorem State.busOk_regs (s : State) (w : Word) : (s.busOk w).regs = s.regs :=
  State.with_bus_regs s _
@[simp] theorem State.busOk_mem (s : State) (w : Word) : (s.busOk w).mem = s.mem :=
  State.with_bus_mem s _
@[simp] theorem State.busOk_irqs (s : State) (w : Word) : (s.busOk w).irqs = s.irqs :=
  State.with_bus_irqs s _
@[simp] theorem State.busOk_outbox (s : State) (w : Word) : (s.busOk w).outbox = s.outbox :=
  State.with_bus_outbox s _
@[simp] theorem State.busOk_led (s : State) (w : Word) : (s.busOk w).led = s.led :=
  State.with_bus_led s _
@[simp] theorem State.busOk_commits (s : State) (w : Word) : (s.busOk w).commits = s.commits :=
  State.with_bus_commits s _
@[simp] theorem State.busOk_nums (s : State) (w : Word) : (s.busOk w).nums = s.nums :=
  State.with_bus_nums s _
@[simp] theorem State.busOk_p0 (s : State) (w : Word) : (s.busOk w).p0 = s.p0 :=
  State.with_bus_p0 s _
@[simp] theorem State.busOk_p1 (s : State) (w : Word) : (s.busOk w).p1 = s.p1 :=
  State.with_bus_p1 s _
@[simp] theorem State.busOk_f0 (s : State) (w : Word) : (s.busOk w).f0 = s.f0 :=
  State.with_bus_f0 s _
@[simp] theorem State.busOk_f1 (s : State) (w : Word) : (s.busOk w).f1 = s.f1 :=
  State.with_bus_f1 s _
@[simp] theorem State.busOk_fi (s : State) (w : Word) : (s.busOk w).fi = s.fi :=
  State.with_bus_fi s _
@[simp] theorem State.busOk_cmn (s : State) (w : Word) : (s.busOk w).cmn = s.cmn :=
  State.with_bus_cmn s _
@[simp] theorem State.busOk_arb (s : State) (w : Word) : (s.busOk w).arb = s.arb :=
  State.with_bus_arb s _
@[simp] theorem State.busOk_ferry (s : State) (w : Word) : (s.busOk w).ferry = s.ferry :=
  State.with_bus_ferry s _
@[simp] theorem State.busOk_laneE (s : State) (w : Word) : (s.busOk w).laneE = s.laneE :=
  State.with_bus_laneE s _
@[simp] theorem State.busOk_laneW (s : State) (w : Word) : (s.busOk w).laneW = s.laneW :=
  State.with_bus_laneW s _
@[simp] theorem State.busOk_sessions (s : State) (w : Word) : (s.busOk w).sessions = s.sessions :=
  State.with_bus_sessions s _
@[simp] theorem State.busOk_scs (s : State) (w : Word) : (s.busOk w).scs = s.scs :=
  State.with_bus_scs s _
@[simp] theorem State.busOk_mod_ (s : State) (w : Word) : (s.busOk w).mod_ = s.mod_ :=
  State.with_bus_mod_ s _
@[simp] theorem State.busOk_urgents (s : State) (w : Word) : (s.busOk w).urgents = s.urgents :=
  State.with_bus_urgents s _
@[simp] theorem State.busOk_outs (s : State) (w : Word) : (s.busOk w).outs = s.outs :=
  State.with_bus_outs s _
@[simp] theorem State.busOk_feeds (s : State) (w : Word) : (s.busOk w).feeds = s.feeds :=
  State.with_bus_feeds s _
@[simp] theorem State.busOk_pw0 (s : State) (w : Word) : (s.busOk w).pw0 = s.pw0 :=
  State.with_bus_pw0 s _
@[simp] theorem State.busOk_pw1 (s : State) (w : Word) : (s.busOk w).pw1 = s.pw1 :=
  State.with_bus_pw1 s _
@[simp] theorem State.busOk_fcs (s : State) (w : Word) : (s.busOk w).fcs = s.fcs :=
  State.with_bus_fcs s _
@[simp] theorem State.busOk_fd0 (s : State) (w : Word) : (s.busOk w).fd0 = s.fd0 :=
  State.with_bus_fd0 s _
@[simp] theorem State.busOk_fd1 (s : State) (w : Word) : (s.busOk w).fd1 = s.fd1 :=
  State.with_bus_fd1 s _
@[simp] theorem State.busOk_fd2 (s : State) (w : Word) : (s.busOk w).fd2 = s.fd2 :=
  State.with_bus_fd2 s _
@[simp] theorem State.busOk_stamps (s : State) (w : Word) : (s.busOk w).stamps = s.stamps :=
  State.with_bus_stamps s _
@[simp] theorem State.busOk_tideE (s : State) (w : Word) : (s.busOk w).tideE = s.tideE :=
  State.with_bus_tideE s _
@[simp] theorem State.busOk_tideW (s : State) (w : Word) : (s.busOk w).tideW = s.tideW :=
  State.with_bus_tideW s _
@[simp] theorem State.busOk_tevArms (s : State) (w : Word) : (s.busOk w).tevArms = s.tevArms :=
  State.with_bus_tevArms s _
@[simp] theorem State.busOk_evtRecs (s : State) (w : Word) : (s.busOk w).evtRecs = s.evtRecs :=
  State.with_bus_evtRecs s _
@[simp] theorem State.busOk_cvcE (s : State) (w : Word) : (s.busOk w).cvcE = s.cvcE :=
  State.with_bus_cvcE s _
@[simp] theorem State.busOk_cvcW (s : State) (w : Word) : (s.busOk w).cvcW = s.cvcW :=
  State.with_bus_cvcW s _
@[simp] theorem State.busOk_sels (s : State) (w : Word) : (s.busOk w).sels = s.sels :=
  State.with_bus_sels s _
@[simp] theorem State.busOk_pwmRecs (s : State) (w : Word) : (s.busOk w).pwmRecs = s.pwmRecs :=
  State.with_bus_pwmRecs s _
@[simp] theorem State.busOk_pwmWork (s : State) (w : Word) : (s.busOk w).pwmWork = s.pwmWork :=
  State.with_bus_pwmWork s _
@[simp] theorem State.busOk_cmnRecs (s : State) (w : Word) : (s.busOk w).cmnRecs = s.cmnRecs :=
  State.with_bus_cmnRecs s _
@[simp] theorem State.busOk_canRxE (s : State) (w : Word) : (s.busOk w).canRxE = s.canRxE :=
  State.with_bus_canRxE s _
@[simp] theorem State.busOk_canRxW (s : State) (w : Word) : (s.busOk w).canRxW = s.canRxW :=
  State.with_bus_canRxW s _
@[simp] theorem State.busOk_canPorts (s : State) (w : Word) : (s.busOk w).canPorts = s.canPorts :=
  State.with_bus_canPorts s _
@[simp] theorem State.busOk_fltQ (s : State) (w : Word) : (s.busOk w).fltQ = s.fltQ :=
  State.with_bus_fltQ s _
@[simp] theorem State.busOk_canWork (s : State) (w : Word) : (s.busOk w).canWork = s.canWork :=
  State.with_bus_canWork s _
@[simp] theorem State.busOk_canHeld (s : State) (w : Word) : (s.busOk w).canHeld = s.canHeld :=
  State.with_bus_canHeld s _
@[simp] theorem State.busOk_lins (s : State) (w : Word) : (s.busOk w).lins = s.lins :=
  State.with_bus_lins s _
@[simp] theorem State.busOk_linWork (s : State) (w : Word) : (s.busOk w).linWork = s.linWork :=
  State.with_bus_linWork s _
@[simp] theorem State.busOk_tbs (s : State) (w : Word) : (s.busOk w).tbs = s.tbs :=
  State.with_bus_tbs s _
@[simp] theorem State.busOk_eth (s : State) (w : Word) : (s.busOk w).eth = s.eth :=
  State.with_bus_eth s _
@[simp] theorem State.busOk_harbInE (s : State) (w : Word) : (s.busOk w).harbInE = s.harbInE :=
  State.with_bus_harbInE s _
@[simp] theorem State.busOk_harbInW (s : State) (w : Word) : (s.busOk w).harbInW = s.harbInW :=
  State.with_bus_harbInW s _
@[simp] theorem State.busOk_harbHeld (s : State) (w : Word) : (s.busOk w).harbHeld = s.harbHeld :=
  State.with_bus_harbHeld s _
@[simp] theorem State.busOk_pduFails (s : State) (w : Word) : (s.busOk w).pduFails = s.pduFails :=
  State.with_bus_pduFails s _
@[simp] theorem State.busOk_harbE (s : State) (w : Word) : (s.busOk w).harbE = s.harbE :=
  State.with_bus_harbE s _
@[simp] theorem State.busOk_harbW (s : State) (w : Word) : (s.busOk w).harbW = s.harbW :=
  State.with_bus_harbW s _
@[simp] theorem State.busOk_cw (s : State) (w : Word) : (s.busOk w).cw = s.cw :=
  State.with_bus_cw s _
@[simp] theorem State.busOk_nms (s : State) (w : Word) : (s.busOk w).nms = s.nms :=
  State.with_bus_nms s _
@[simp] theorem State.busOk_grants (s : State) (w : Word) : (s.busOk w).grants = s.grants :=
  State.with_bus_grants s _
@[simp] theorem State.busOk_vfOps (s : State) (w : Word) : (s.busOk w).vfOps = s.vfOps :=
  State.with_bus_vfOps s _
@[simp] theorem State.busOk_quiesces (s : State) (w : Word) : (s.busOk w).quiesces = s.quiesces :=
  State.with_bus_quiesces s _
@[simp] theorem State.busOk_iovQs (s : State) (w : Word) : (s.busOk w).iovQs = s.iovQs :=
  State.with_bus_iovQs s _
@[simp] theorem State.busOk_potUpds (s : State) (w : Word) : (s.busOk w).potUpds = s.potUpds :=
  State.with_bus_potUpds s _
@[simp] theorem State.busOk_copies (s : State) (w : Word) : (s.busOk w).copies = s.copies :=
  State.with_bus_copies s _
@[simp] theorem State.busOk_lstepTests (s : State) (w : Word) : (s.busOk w).lstepTests = s.lstepTests :=
  State.with_bus_lstepTests s _
@[simp] theorem State.busOk_tamperLog (s : State) (w : Word) : (s.busOk w).tamperLog = s.tamperLog :=
  State.with_bus_tamperLog s _
@[simp] theorem State.busOk_secE (s : State) (w : Word) : (s.busOk w).secE = s.secE :=
  State.with_bus_secE s _
@[simp] theorem State.busOk_secW (s : State) (w : Word) : (s.busOk w).secW = s.secW :=
  State.with_bus_secW s _
@[simp] theorem State.busOk_keyOps (s : State) (w : Word) : (s.busOk w).keyOps = s.keyOps :=
  State.with_bus_keyOps s _
@[simp] theorem State.busOk_pmReqs (s : State) (w : Word) : (s.busOk w).pmReqs = s.pmReqs :=
  State.with_bus_pmReqs s _
@[simp] theorem State.busOk_ownOps (s : State) (w : Word) : (s.busOk w).ownOps = s.ownOps :=
  State.with_bus_ownOps s _
@[simp] theorem State.busOk_fuseOps (s : State) (w : Word) : (s.busOk w).fuseOps = s.fuseOps :=
  State.with_bus_fuseOps s _
@[simp] theorem State.busOk_upd (s : State) (w : Word) : (s.busOk w).upd = s.upd :=
  State.with_bus_upd s _
@[simp] theorem State.busOk_calUs (s : State) (w : Word) : (s.busOk w).calUs = s.calUs :=
  State.with_bus_calUs s _
@[simp] theorem State.busOk_parE (s : State) (w : Word) : (s.busOk w).parE = s.parE :=
  State.with_bus_parE s _
@[simp] theorem State.busOk_parW (s : State) (w : Word) : (s.busOk w).parW = s.parW :=
  State.with_bus_parW s _

/-! ### busErr -/

@[simp] theorem State.busErr_pending (s : State) : (s.busErr).pending = s.pending :=
  State.with_bus_pending s _
@[simp] theorem State.busErr_now (s : State) : (s.busErr).now = s.now :=
  State.with_bus_now s _
@[simp] theorem State.busErr_freeCtr (s : State) : (s.busErr).freeCtr = s.freeCtr :=
  State.with_bus_freeCtr s _
@[simp] theorem State.busErr_regs (s : State) : (s.busErr).regs = s.regs :=
  State.with_bus_regs s _
@[simp] theorem State.busErr_mem (s : State) : (s.busErr).mem = s.mem :=
  State.with_bus_mem s _
@[simp] theorem State.busErr_irqs (s : State) : (s.busErr).irqs = s.irqs :=
  State.with_bus_irqs s _
@[simp] theorem State.busErr_outbox (s : State) : (s.busErr).outbox = s.outbox :=
  State.with_bus_outbox s _
@[simp] theorem State.busErr_led (s : State) : (s.busErr).led = s.led :=
  State.with_bus_led s _
@[simp] theorem State.busErr_commits (s : State) : (s.busErr).commits = s.commits :=
  State.with_bus_commits s _
@[simp] theorem State.busErr_nums (s : State) : (s.busErr).nums = s.nums :=
  State.with_bus_nums s _
@[simp] theorem State.busErr_p0 (s : State) : (s.busErr).p0 = s.p0 :=
  State.with_bus_p0 s _
@[simp] theorem State.busErr_p1 (s : State) : (s.busErr).p1 = s.p1 :=
  State.with_bus_p1 s _
@[simp] theorem State.busErr_f0 (s : State) : (s.busErr).f0 = s.f0 :=
  State.with_bus_f0 s _
@[simp] theorem State.busErr_f1 (s : State) : (s.busErr).f1 = s.f1 :=
  State.with_bus_f1 s _
@[simp] theorem State.busErr_fi (s : State) : (s.busErr).fi = s.fi :=
  State.with_bus_fi s _
@[simp] theorem State.busErr_cmn (s : State) : (s.busErr).cmn = s.cmn :=
  State.with_bus_cmn s _
@[simp] theorem State.busErr_arb (s : State) : (s.busErr).arb = s.arb :=
  State.with_bus_arb s _
@[simp] theorem State.busErr_ferry (s : State) : (s.busErr).ferry = s.ferry :=
  State.with_bus_ferry s _
@[simp] theorem State.busErr_laneE (s : State) : (s.busErr).laneE = s.laneE :=
  State.with_bus_laneE s _
@[simp] theorem State.busErr_laneW (s : State) : (s.busErr).laneW = s.laneW :=
  State.with_bus_laneW s _
@[simp] theorem State.busErr_sessions (s : State) : (s.busErr).sessions = s.sessions :=
  State.with_bus_sessions s _
@[simp] theorem State.busErr_scs (s : State) : (s.busErr).scs = s.scs :=
  State.with_bus_scs s _
@[simp] theorem State.busErr_mod_ (s : State) : (s.busErr).mod_ = s.mod_ :=
  State.with_bus_mod_ s _
@[simp] theorem State.busErr_urgents (s : State) : (s.busErr).urgents = s.urgents :=
  State.with_bus_urgents s _
@[simp] theorem State.busErr_outs (s : State) : (s.busErr).outs = s.outs :=
  State.with_bus_outs s _
@[simp] theorem State.busErr_feeds (s : State) : (s.busErr).feeds = s.feeds :=
  State.with_bus_feeds s _
@[simp] theorem State.busErr_pw0 (s : State) : (s.busErr).pw0 = s.pw0 :=
  State.with_bus_pw0 s _
@[simp] theorem State.busErr_pw1 (s : State) : (s.busErr).pw1 = s.pw1 :=
  State.with_bus_pw1 s _
@[simp] theorem State.busErr_fcs (s : State) : (s.busErr).fcs = s.fcs :=
  State.with_bus_fcs s _
@[simp] theorem State.busErr_fd0 (s : State) : (s.busErr).fd0 = s.fd0 :=
  State.with_bus_fd0 s _
@[simp] theorem State.busErr_fd1 (s : State) : (s.busErr).fd1 = s.fd1 :=
  State.with_bus_fd1 s _
@[simp] theorem State.busErr_fd2 (s : State) : (s.busErr).fd2 = s.fd2 :=
  State.with_bus_fd2 s _
@[simp] theorem State.busErr_stamps (s : State) : (s.busErr).stamps = s.stamps :=
  State.with_bus_stamps s _
@[simp] theorem State.busErr_tideE (s : State) : (s.busErr).tideE = s.tideE :=
  State.with_bus_tideE s _
@[simp] theorem State.busErr_tideW (s : State) : (s.busErr).tideW = s.tideW :=
  State.with_bus_tideW s _
@[simp] theorem State.busErr_tevArms (s : State) : (s.busErr).tevArms = s.tevArms :=
  State.with_bus_tevArms s _
@[simp] theorem State.busErr_evtRecs (s : State) : (s.busErr).evtRecs = s.evtRecs :=
  State.with_bus_evtRecs s _
@[simp] theorem State.busErr_cvcE (s : State) : (s.busErr).cvcE = s.cvcE :=
  State.with_bus_cvcE s _
@[simp] theorem State.busErr_cvcW (s : State) : (s.busErr).cvcW = s.cvcW :=
  State.with_bus_cvcW s _
@[simp] theorem State.busErr_sels (s : State) : (s.busErr).sels = s.sels :=
  State.with_bus_sels s _
@[simp] theorem State.busErr_pwmRecs (s : State) : (s.busErr).pwmRecs = s.pwmRecs :=
  State.with_bus_pwmRecs s _
@[simp] theorem State.busErr_pwmWork (s : State) : (s.busErr).pwmWork = s.pwmWork :=
  State.with_bus_pwmWork s _
@[simp] theorem State.busErr_cmnRecs (s : State) : (s.busErr).cmnRecs = s.cmnRecs :=
  State.with_bus_cmnRecs s _
@[simp] theorem State.busErr_canRxE (s : State) : (s.busErr).canRxE = s.canRxE :=
  State.with_bus_canRxE s _
@[simp] theorem State.busErr_canRxW (s : State) : (s.busErr).canRxW = s.canRxW :=
  State.with_bus_canRxW s _
@[simp] theorem State.busErr_canPorts (s : State) : (s.busErr).canPorts = s.canPorts :=
  State.with_bus_canPorts s _
@[simp] theorem State.busErr_fltQ (s : State) : (s.busErr).fltQ = s.fltQ :=
  State.with_bus_fltQ s _
@[simp] theorem State.busErr_canWork (s : State) : (s.busErr).canWork = s.canWork :=
  State.with_bus_canWork s _
@[simp] theorem State.busErr_canHeld (s : State) : (s.busErr).canHeld = s.canHeld :=
  State.with_bus_canHeld s _
@[simp] theorem State.busErr_lins (s : State) : (s.busErr).lins = s.lins :=
  State.with_bus_lins s _
@[simp] theorem State.busErr_linWork (s : State) : (s.busErr).linWork = s.linWork :=
  State.with_bus_linWork s _
@[simp] theorem State.busErr_tbs (s : State) : (s.busErr).tbs = s.tbs :=
  State.with_bus_tbs s _
@[simp] theorem State.busErr_eth (s : State) : (s.busErr).eth = s.eth :=
  State.with_bus_eth s _
@[simp] theorem State.busErr_harbInE (s : State) : (s.busErr).harbInE = s.harbInE :=
  State.with_bus_harbInE s _
@[simp] theorem State.busErr_harbInW (s : State) : (s.busErr).harbInW = s.harbInW :=
  State.with_bus_harbInW s _
@[simp] theorem State.busErr_harbHeld (s : State) : (s.busErr).harbHeld = s.harbHeld :=
  State.with_bus_harbHeld s _
@[simp] theorem State.busErr_pduFails (s : State) : (s.busErr).pduFails = s.pduFails :=
  State.with_bus_pduFails s _
@[simp] theorem State.busErr_harbE (s : State) : (s.busErr).harbE = s.harbE :=
  State.with_bus_harbE s _
@[simp] theorem State.busErr_harbW (s : State) : (s.busErr).harbW = s.harbW :=
  State.with_bus_harbW s _
@[simp] theorem State.busErr_cw (s : State) : (s.busErr).cw = s.cw :=
  State.with_bus_cw s _
@[simp] theorem State.busErr_nms (s : State) : (s.busErr).nms = s.nms :=
  State.with_bus_nms s _
@[simp] theorem State.busErr_grants (s : State) : (s.busErr).grants = s.grants :=
  State.with_bus_grants s _
@[simp] theorem State.busErr_vfOps (s : State) : (s.busErr).vfOps = s.vfOps :=
  State.with_bus_vfOps s _
@[simp] theorem State.busErr_quiesces (s : State) : (s.busErr).quiesces = s.quiesces :=
  State.with_bus_quiesces s _
@[simp] theorem State.busErr_iovQs (s : State) : (s.busErr).iovQs = s.iovQs :=
  State.with_bus_iovQs s _
@[simp] theorem State.busErr_potUpds (s : State) : (s.busErr).potUpds = s.potUpds :=
  State.with_bus_potUpds s _
@[simp] theorem State.busErr_copies (s : State) : (s.busErr).copies = s.copies :=
  State.with_bus_copies s _
@[simp] theorem State.busErr_lstepTests (s : State) : (s.busErr).lstepTests = s.lstepTests :=
  State.with_bus_lstepTests s _
@[simp] theorem State.busErr_tamperLog (s : State) : (s.busErr).tamperLog = s.tamperLog :=
  State.with_bus_tamperLog s _
@[simp] theorem State.busErr_secE (s : State) : (s.busErr).secE = s.secE :=
  State.with_bus_secE s _
@[simp] theorem State.busErr_secW (s : State) : (s.busErr).secW = s.secW :=
  State.with_bus_secW s _
@[simp] theorem State.busErr_keyOps (s : State) : (s.busErr).keyOps = s.keyOps :=
  State.with_bus_keyOps s _
@[simp] theorem State.busErr_pmReqs (s : State) : (s.busErr).pmReqs = s.pmReqs :=
  State.with_bus_pmReqs s _
@[simp] theorem State.busErr_ownOps (s : State) : (s.busErr).ownOps = s.ownOps :=
  State.with_bus_ownOps s _
@[simp] theorem State.busErr_fuseOps (s : State) : (s.busErr).fuseOps = s.fuseOps :=
  State.with_bus_fuseOps s _
@[simp] theorem State.busErr_upd (s : State) : (s.busErr).upd = s.upd :=
  State.with_bus_upd s _
@[simp] theorem State.busErr_calUs (s : State) : (s.busErr).calUs = s.calUs :=
  State.with_bus_calUs s _
@[simp] theorem State.busErr_parE (s : State) : (s.busErr).parE = s.parE :=
  State.with_bus_parE s _
@[simp] theorem State.busErr_parW (s : State) : (s.busErr).parW = s.parW :=
  State.with_bus_parW s _

/-! ### setLed -/

@[simp] theorem State.setLed_pending (s : State) (x : Ledger) : (s.setLed x).pending = s.pending :=
  State.with_led_pending s _
@[simp] theorem State.setLed_now (s : State) (x : Ledger) : (s.setLed x).now = s.now :=
  State.with_led_now s _
@[simp] theorem State.setLed_freeCtr (s : State) (x : Ledger) : (s.setLed x).freeCtr = s.freeCtr :=
  State.with_led_freeCtr s _
@[simp] theorem State.setLed_regs (s : State) (x : Ledger) : (s.setLed x).regs = s.regs :=
  State.with_led_regs s _
@[simp] theorem State.setLed_mem (s : State) (x : Ledger) : (s.setLed x).mem = s.mem :=
  State.with_led_mem s _
@[simp] theorem State.setLed_bus (s : State) (x : Ledger) : (s.setLed x).bus = s.bus :=
  State.with_led_bus s _
@[simp] theorem State.setLed_irqs (s : State) (x : Ledger) : (s.setLed x).irqs = s.irqs :=
  State.with_led_irqs s _
@[simp] theorem State.setLed_outbox (s : State) (x : Ledger) : (s.setLed x).outbox = s.outbox :=
  State.with_led_outbox s _
@[simp] theorem State.setLed_commits (s : State) (x : Ledger) : (s.setLed x).commits = s.commits :=
  State.with_led_commits s _
@[simp] theorem State.setLed_nums (s : State) (x : Ledger) : (s.setLed x).nums = s.nums :=
  State.with_led_nums s _
@[simp] theorem State.setLed_p0 (s : State) (x : Ledger) : (s.setLed x).p0 = s.p0 :=
  State.with_led_p0 s _
@[simp] theorem State.setLed_p1 (s : State) (x : Ledger) : (s.setLed x).p1 = s.p1 :=
  State.with_led_p1 s _
@[simp] theorem State.setLed_f0 (s : State) (x : Ledger) : (s.setLed x).f0 = s.f0 :=
  State.with_led_f0 s _
@[simp] theorem State.setLed_f1 (s : State) (x : Ledger) : (s.setLed x).f1 = s.f1 :=
  State.with_led_f1 s _
@[simp] theorem State.setLed_fi (s : State) (x : Ledger) : (s.setLed x).fi = s.fi :=
  State.with_led_fi s _
@[simp] theorem State.setLed_cmn (s : State) (x : Ledger) : (s.setLed x).cmn = s.cmn :=
  State.with_led_cmn s _
@[simp] theorem State.setLed_arb (s : State) (x : Ledger) : (s.setLed x).arb = s.arb :=
  State.with_led_arb s _
@[simp] theorem State.setLed_ferry (s : State) (x : Ledger) : (s.setLed x).ferry = s.ferry :=
  State.with_led_ferry s _
@[simp] theorem State.setLed_laneE (s : State) (x : Ledger) : (s.setLed x).laneE = s.laneE :=
  State.with_led_laneE s _
@[simp] theorem State.setLed_laneW (s : State) (x : Ledger) : (s.setLed x).laneW = s.laneW :=
  State.with_led_laneW s _
@[simp] theorem State.setLed_sessions (s : State) (x : Ledger) : (s.setLed x).sessions = s.sessions :=
  State.with_led_sessions s _
@[simp] theorem State.setLed_scs (s : State) (x : Ledger) : (s.setLed x).scs = s.scs :=
  State.with_led_scs s _
@[simp] theorem State.setLed_mod_ (s : State) (x : Ledger) : (s.setLed x).mod_ = s.mod_ :=
  State.with_led_mod_ s _
@[simp] theorem State.setLed_urgents (s : State) (x : Ledger) : (s.setLed x).urgents = s.urgents :=
  State.with_led_urgents s _
@[simp] theorem State.setLed_outs (s : State) (x : Ledger) : (s.setLed x).outs = s.outs :=
  State.with_led_outs s _
@[simp] theorem State.setLed_feeds (s : State) (x : Ledger) : (s.setLed x).feeds = s.feeds :=
  State.with_led_feeds s _
@[simp] theorem State.setLed_pw0 (s : State) (x : Ledger) : (s.setLed x).pw0 = s.pw0 :=
  State.with_led_pw0 s _
@[simp] theorem State.setLed_pw1 (s : State) (x : Ledger) : (s.setLed x).pw1 = s.pw1 :=
  State.with_led_pw1 s _
@[simp] theorem State.setLed_fcs (s : State) (x : Ledger) : (s.setLed x).fcs = s.fcs :=
  State.with_led_fcs s _
@[simp] theorem State.setLed_fd0 (s : State) (x : Ledger) : (s.setLed x).fd0 = s.fd0 :=
  State.with_led_fd0 s _
@[simp] theorem State.setLed_fd1 (s : State) (x : Ledger) : (s.setLed x).fd1 = s.fd1 :=
  State.with_led_fd1 s _
@[simp] theorem State.setLed_fd2 (s : State) (x : Ledger) : (s.setLed x).fd2 = s.fd2 :=
  State.with_led_fd2 s _
@[simp] theorem State.setLed_stamps (s : State) (x : Ledger) : (s.setLed x).stamps = s.stamps :=
  State.with_led_stamps s _
@[simp] theorem State.setLed_tideE (s : State) (x : Ledger) : (s.setLed x).tideE = s.tideE :=
  State.with_led_tideE s _
@[simp] theorem State.setLed_tideW (s : State) (x : Ledger) : (s.setLed x).tideW = s.tideW :=
  State.with_led_tideW s _
@[simp] theorem State.setLed_tevArms (s : State) (x : Ledger) : (s.setLed x).tevArms = s.tevArms :=
  State.with_led_tevArms s _
@[simp] theorem State.setLed_evtRecs (s : State) (x : Ledger) : (s.setLed x).evtRecs = s.evtRecs :=
  State.with_led_evtRecs s _
@[simp] theorem State.setLed_cvcE (s : State) (x : Ledger) : (s.setLed x).cvcE = s.cvcE :=
  State.with_led_cvcE s _
@[simp] theorem State.setLed_cvcW (s : State) (x : Ledger) : (s.setLed x).cvcW = s.cvcW :=
  State.with_led_cvcW s _
@[simp] theorem State.setLed_sels (s : State) (x : Ledger) : (s.setLed x).sels = s.sels :=
  State.with_led_sels s _
@[simp] theorem State.setLed_pwmRecs (s : State) (x : Ledger) : (s.setLed x).pwmRecs = s.pwmRecs :=
  State.with_led_pwmRecs s _
@[simp] theorem State.setLed_pwmWork (s : State) (x : Ledger) : (s.setLed x).pwmWork = s.pwmWork :=
  State.with_led_pwmWork s _
@[simp] theorem State.setLed_cmnRecs (s : State) (x : Ledger) : (s.setLed x).cmnRecs = s.cmnRecs :=
  State.with_led_cmnRecs s _
@[simp] theorem State.setLed_canRxE (s : State) (x : Ledger) : (s.setLed x).canRxE = s.canRxE :=
  State.with_led_canRxE s _
@[simp] theorem State.setLed_canRxW (s : State) (x : Ledger) : (s.setLed x).canRxW = s.canRxW :=
  State.with_led_canRxW s _
@[simp] theorem State.setLed_canPorts (s : State) (x : Ledger) : (s.setLed x).canPorts = s.canPorts :=
  State.with_led_canPorts s _
@[simp] theorem State.setLed_fltQ (s : State) (x : Ledger) : (s.setLed x).fltQ = s.fltQ :=
  State.with_led_fltQ s _
@[simp] theorem State.setLed_canWork (s : State) (x : Ledger) : (s.setLed x).canWork = s.canWork :=
  State.with_led_canWork s _
@[simp] theorem State.setLed_canHeld (s : State) (x : Ledger) : (s.setLed x).canHeld = s.canHeld :=
  State.with_led_canHeld s _
@[simp] theorem State.setLed_lins (s : State) (x : Ledger) : (s.setLed x).lins = s.lins :=
  State.with_led_lins s _
@[simp] theorem State.setLed_linWork (s : State) (x : Ledger) : (s.setLed x).linWork = s.linWork :=
  State.with_led_linWork s _
@[simp] theorem State.setLed_tbs (s : State) (x : Ledger) : (s.setLed x).tbs = s.tbs :=
  State.with_led_tbs s _
@[simp] theorem State.setLed_eth (s : State) (x : Ledger) : (s.setLed x).eth = s.eth :=
  State.with_led_eth s _
@[simp] theorem State.setLed_harbInE (s : State) (x : Ledger) : (s.setLed x).harbInE = s.harbInE :=
  State.with_led_harbInE s _
@[simp] theorem State.setLed_harbInW (s : State) (x : Ledger) : (s.setLed x).harbInW = s.harbInW :=
  State.with_led_harbInW s _
@[simp] theorem State.setLed_harbHeld (s : State) (x : Ledger) : (s.setLed x).harbHeld = s.harbHeld :=
  State.with_led_harbHeld s _
@[simp] theorem State.setLed_pduFails (s : State) (x : Ledger) : (s.setLed x).pduFails = s.pduFails :=
  State.with_led_pduFails s _
@[simp] theorem State.setLed_harbE (s : State) (x : Ledger) : (s.setLed x).harbE = s.harbE :=
  State.with_led_harbE s _
@[simp] theorem State.setLed_harbW (s : State) (x : Ledger) : (s.setLed x).harbW = s.harbW :=
  State.with_led_harbW s _
@[simp] theorem State.setLed_cw (s : State) (x : Ledger) : (s.setLed x).cw = s.cw :=
  State.with_led_cw s _
@[simp] theorem State.setLed_nms (s : State) (x : Ledger) : (s.setLed x).nms = s.nms :=
  State.with_led_nms s _
@[simp] theorem State.setLed_grants (s : State) (x : Ledger) : (s.setLed x).grants = s.grants :=
  State.with_led_grants s _
@[simp] theorem State.setLed_vfOps (s : State) (x : Ledger) : (s.setLed x).vfOps = s.vfOps :=
  State.with_led_vfOps s _
@[simp] theorem State.setLed_quiesces (s : State) (x : Ledger) : (s.setLed x).quiesces = s.quiesces :=
  State.with_led_quiesces s _
@[simp] theorem State.setLed_iovQs (s : State) (x : Ledger) : (s.setLed x).iovQs = s.iovQs :=
  State.with_led_iovQs s _
@[simp] theorem State.setLed_potUpds (s : State) (x : Ledger) : (s.setLed x).potUpds = s.potUpds :=
  State.with_led_potUpds s _
@[simp] theorem State.setLed_copies (s : State) (x : Ledger) : (s.setLed x).copies = s.copies :=
  State.with_led_copies s _
@[simp] theorem State.setLed_lstepTests (s : State) (x : Ledger) : (s.setLed x).lstepTests = s.lstepTests :=
  State.with_led_lstepTests s _
@[simp] theorem State.setLed_tamperLog (s : State) (x : Ledger) : (s.setLed x).tamperLog = s.tamperLog :=
  State.with_led_tamperLog s _
@[simp] theorem State.setLed_secE (s : State) (x : Ledger) : (s.setLed x).secE = s.secE :=
  State.with_led_secE s _
@[simp] theorem State.setLed_secW (s : State) (x : Ledger) : (s.setLed x).secW = s.secW :=
  State.with_led_secW s _
@[simp] theorem State.setLed_keyOps (s : State) (x : Ledger) : (s.setLed x).keyOps = s.keyOps :=
  State.with_led_keyOps s _
@[simp] theorem State.setLed_pmReqs (s : State) (x : Ledger) : (s.setLed x).pmReqs = s.pmReqs :=
  State.with_led_pmReqs s _
@[simp] theorem State.setLed_ownOps (s : State) (x : Ledger) : (s.setLed x).ownOps = s.ownOps :=
  State.with_led_ownOps s _
@[simp] theorem State.setLed_fuseOps (s : State) (x : Ledger) : (s.setLed x).fuseOps = s.fuseOps :=
  State.with_led_fuseOps s _
@[simp] theorem State.setLed_upd (s : State) (x : Ledger) : (s.setLed x).upd = s.upd :=
  State.with_led_upd s _
@[simp] theorem State.setLed_calUs (s : State) (x : Ledger) : (s.setLed x).calUs = s.calUs :=
  State.with_led_calUs s _
@[simp] theorem State.setLed_parE (s : State) (x : Ledger) : (s.setLed x).parE = s.parE :=
  State.with_led_parE s _
@[simp] theorem State.setLed_parW (s : State) (x : Ledger) : (s.setLed x).parW = s.parW :=
  State.with_led_parW s _

/-! ### setCommits -/

@[simp] theorem State.setCommits_pending (s : State) (c : List Commit) : (s.setCommits c).pending = s.pending :=
  State.with_commits_pending s _
@[simp] theorem State.setCommits_now (s : State) (c : List Commit) : (s.setCommits c).now = s.now :=
  State.with_commits_now s _
@[simp] theorem State.setCommits_freeCtr (s : State) (c : List Commit) : (s.setCommits c).freeCtr = s.freeCtr :=
  State.with_commits_freeCtr s _
@[simp] theorem State.setCommits_regs (s : State) (c : List Commit) : (s.setCommits c).regs = s.regs :=
  State.with_commits_regs s _
@[simp] theorem State.setCommits_mem (s : State) (c : List Commit) : (s.setCommits c).mem = s.mem :=
  State.with_commits_mem s _
@[simp] theorem State.setCommits_bus (s : State) (c : List Commit) : (s.setCommits c).bus = s.bus :=
  State.with_commits_bus s _
@[simp] theorem State.setCommits_irqs (s : State) (c : List Commit) : (s.setCommits c).irqs = s.irqs :=
  State.with_commits_irqs s _
@[simp] theorem State.setCommits_outbox (s : State) (c : List Commit) : (s.setCommits c).outbox = s.outbox :=
  State.with_commits_outbox s _
@[simp] theorem State.setCommits_led (s : State) (c : List Commit) : (s.setCommits c).led = s.led :=
  State.with_commits_led s _
@[simp] theorem State.setCommits_nums (s : State) (c : List Commit) : (s.setCommits c).nums = s.nums :=
  State.with_commits_nums s _
@[simp] theorem State.setCommits_p0 (s : State) (c : List Commit) : (s.setCommits c).p0 = s.p0 :=
  State.with_commits_p0 s _
@[simp] theorem State.setCommits_p1 (s : State) (c : List Commit) : (s.setCommits c).p1 = s.p1 :=
  State.with_commits_p1 s _
@[simp] theorem State.setCommits_f0 (s : State) (c : List Commit) : (s.setCommits c).f0 = s.f0 :=
  State.with_commits_f0 s _
@[simp] theorem State.setCommits_f1 (s : State) (c : List Commit) : (s.setCommits c).f1 = s.f1 :=
  State.with_commits_f1 s _
@[simp] theorem State.setCommits_fi (s : State) (c : List Commit) : (s.setCommits c).fi = s.fi :=
  State.with_commits_fi s _
@[simp] theorem State.setCommits_cmn (s : State) (c : List Commit) : (s.setCommits c).cmn = s.cmn :=
  State.with_commits_cmn s _
@[simp] theorem State.setCommits_arb (s : State) (c : List Commit) : (s.setCommits c).arb = s.arb :=
  State.with_commits_arb s _
@[simp] theorem State.setCommits_ferry (s : State) (c : List Commit) : (s.setCommits c).ferry = s.ferry :=
  State.with_commits_ferry s _
@[simp] theorem State.setCommits_laneE (s : State) (c : List Commit) : (s.setCommits c).laneE = s.laneE :=
  State.with_commits_laneE s _
@[simp] theorem State.setCommits_laneW (s : State) (c : List Commit) : (s.setCommits c).laneW = s.laneW :=
  State.with_commits_laneW s _
@[simp] theorem State.setCommits_sessions (s : State) (c : List Commit) : (s.setCommits c).sessions = s.sessions :=
  State.with_commits_sessions s _
@[simp] theorem State.setCommits_scs (s : State) (c : List Commit) : (s.setCommits c).scs = s.scs :=
  State.with_commits_scs s _
@[simp] theorem State.setCommits_mod_ (s : State) (c : List Commit) : (s.setCommits c).mod_ = s.mod_ :=
  State.with_commits_mod_ s _
@[simp] theorem State.setCommits_urgents (s : State) (c : List Commit) : (s.setCommits c).urgents = s.urgents :=
  State.with_commits_urgents s _
@[simp] theorem State.setCommits_outs (s : State) (c : List Commit) : (s.setCommits c).outs = s.outs :=
  State.with_commits_outs s _
@[simp] theorem State.setCommits_feeds (s : State) (c : List Commit) : (s.setCommits c).feeds = s.feeds :=
  State.with_commits_feeds s _
@[simp] theorem State.setCommits_pw0 (s : State) (c : List Commit) : (s.setCommits c).pw0 = s.pw0 :=
  State.with_commits_pw0 s _
@[simp] theorem State.setCommits_pw1 (s : State) (c : List Commit) : (s.setCommits c).pw1 = s.pw1 :=
  State.with_commits_pw1 s _
@[simp] theorem State.setCommits_fcs (s : State) (c : List Commit) : (s.setCommits c).fcs = s.fcs :=
  State.with_commits_fcs s _
@[simp] theorem State.setCommits_fd0 (s : State) (c : List Commit) : (s.setCommits c).fd0 = s.fd0 :=
  State.with_commits_fd0 s _
@[simp] theorem State.setCommits_fd1 (s : State) (c : List Commit) : (s.setCommits c).fd1 = s.fd1 :=
  State.with_commits_fd1 s _
@[simp] theorem State.setCommits_fd2 (s : State) (c : List Commit) : (s.setCommits c).fd2 = s.fd2 :=
  State.with_commits_fd2 s _
@[simp] theorem State.setCommits_stamps (s : State) (c : List Commit) : (s.setCommits c).stamps = s.stamps :=
  State.with_commits_stamps s _
@[simp] theorem State.setCommits_tideE (s : State) (c : List Commit) : (s.setCommits c).tideE = s.tideE :=
  State.with_commits_tideE s _
@[simp] theorem State.setCommits_tideW (s : State) (c : List Commit) : (s.setCommits c).tideW = s.tideW :=
  State.with_commits_tideW s _
@[simp] theorem State.setCommits_tevArms (s : State) (c : List Commit) : (s.setCommits c).tevArms = s.tevArms :=
  State.with_commits_tevArms s _
@[simp] theorem State.setCommits_evtRecs (s : State) (c : List Commit) : (s.setCommits c).evtRecs = s.evtRecs :=
  State.with_commits_evtRecs s _
@[simp] theorem State.setCommits_cvcE (s : State) (c : List Commit) : (s.setCommits c).cvcE = s.cvcE :=
  State.with_commits_cvcE s _
@[simp] theorem State.setCommits_cvcW (s : State) (c : List Commit) : (s.setCommits c).cvcW = s.cvcW :=
  State.with_commits_cvcW s _
@[simp] theorem State.setCommits_sels (s : State) (c : List Commit) : (s.setCommits c).sels = s.sels :=
  State.with_commits_sels s _
@[simp] theorem State.setCommits_pwmRecs (s : State) (c : List Commit) : (s.setCommits c).pwmRecs = s.pwmRecs :=
  State.with_commits_pwmRecs s _
@[simp] theorem State.setCommits_pwmWork (s : State) (c : List Commit) : (s.setCommits c).pwmWork = s.pwmWork :=
  State.with_commits_pwmWork s _
@[simp] theorem State.setCommits_cmnRecs (s : State) (c : List Commit) : (s.setCommits c).cmnRecs = s.cmnRecs :=
  State.with_commits_cmnRecs s _
@[simp] theorem State.setCommits_canRxE (s : State) (c : List Commit) : (s.setCommits c).canRxE = s.canRxE :=
  State.with_commits_canRxE s _
@[simp] theorem State.setCommits_canRxW (s : State) (c : List Commit) : (s.setCommits c).canRxW = s.canRxW :=
  State.with_commits_canRxW s _
@[simp] theorem State.setCommits_canPorts (s : State) (c : List Commit) : (s.setCommits c).canPorts = s.canPorts :=
  State.with_commits_canPorts s _
@[simp] theorem State.setCommits_fltQ (s : State) (c : List Commit) : (s.setCommits c).fltQ = s.fltQ :=
  State.with_commits_fltQ s _
@[simp] theorem State.setCommits_canWork (s : State) (c : List Commit) : (s.setCommits c).canWork = s.canWork :=
  State.with_commits_canWork s _
@[simp] theorem State.setCommits_canHeld (s : State) (c : List Commit) : (s.setCommits c).canHeld = s.canHeld :=
  State.with_commits_canHeld s _
@[simp] theorem State.setCommits_lins (s : State) (c : List Commit) : (s.setCommits c).lins = s.lins :=
  State.with_commits_lins s _
@[simp] theorem State.setCommits_linWork (s : State) (c : List Commit) : (s.setCommits c).linWork = s.linWork :=
  State.with_commits_linWork s _
@[simp] theorem State.setCommits_tbs (s : State) (c : List Commit) : (s.setCommits c).tbs = s.tbs :=
  State.with_commits_tbs s _
@[simp] theorem State.setCommits_eth (s : State) (c : List Commit) : (s.setCommits c).eth = s.eth :=
  State.with_commits_eth s _
@[simp] theorem State.setCommits_harbInE (s : State) (c : List Commit) : (s.setCommits c).harbInE = s.harbInE :=
  State.with_commits_harbInE s _
@[simp] theorem State.setCommits_harbInW (s : State) (c : List Commit) : (s.setCommits c).harbInW = s.harbInW :=
  State.with_commits_harbInW s _
@[simp] theorem State.setCommits_harbHeld (s : State) (c : List Commit) : (s.setCommits c).harbHeld = s.harbHeld :=
  State.with_commits_harbHeld s _
@[simp] theorem State.setCommits_pduFails (s : State) (c : List Commit) : (s.setCommits c).pduFails = s.pduFails :=
  State.with_commits_pduFails s _
@[simp] theorem State.setCommits_harbE (s : State) (c : List Commit) : (s.setCommits c).harbE = s.harbE :=
  State.with_commits_harbE s _
@[simp] theorem State.setCommits_harbW (s : State) (c : List Commit) : (s.setCommits c).harbW = s.harbW :=
  State.with_commits_harbW s _
@[simp] theorem State.setCommits_cw (s : State) (c : List Commit) : (s.setCommits c).cw = s.cw :=
  State.with_commits_cw s _
@[simp] theorem State.setCommits_nms (s : State) (c : List Commit) : (s.setCommits c).nms = s.nms :=
  State.with_commits_nms s _
@[simp] theorem State.setCommits_grants (s : State) (c : List Commit) : (s.setCommits c).grants = s.grants :=
  State.with_commits_grants s _
@[simp] theorem State.setCommits_vfOps (s : State) (c : List Commit) : (s.setCommits c).vfOps = s.vfOps :=
  State.with_commits_vfOps s _
@[simp] theorem State.setCommits_quiesces (s : State) (c : List Commit) : (s.setCommits c).quiesces = s.quiesces :=
  State.with_commits_quiesces s _
@[simp] theorem State.setCommits_iovQs (s : State) (c : List Commit) : (s.setCommits c).iovQs = s.iovQs :=
  State.with_commits_iovQs s _
@[simp] theorem State.setCommits_potUpds (s : State) (c : List Commit) : (s.setCommits c).potUpds = s.potUpds :=
  State.with_commits_potUpds s _
@[simp] theorem State.setCommits_copies (s : State) (c : List Commit) : (s.setCommits c).copies = s.copies :=
  State.with_commits_copies s _
@[simp] theorem State.setCommits_lstepTests (s : State) (c : List Commit) : (s.setCommits c).lstepTests = s.lstepTests :=
  State.with_commits_lstepTests s _
@[simp] theorem State.setCommits_tamperLog (s : State) (c : List Commit) : (s.setCommits c).tamperLog = s.tamperLog :=
  State.with_commits_tamperLog s _
@[simp] theorem State.setCommits_secE (s : State) (c : List Commit) : (s.setCommits c).secE = s.secE :=
  State.with_commits_secE s _
@[simp] theorem State.setCommits_secW (s : State) (c : List Commit) : (s.setCommits c).secW = s.secW :=
  State.with_commits_secW s _
@[simp] theorem State.setCommits_keyOps (s : State) (c : List Commit) : (s.setCommits c).keyOps = s.keyOps :=
  State.with_commits_keyOps s _
@[simp] theorem State.setCommits_pmReqs (s : State) (c : List Commit) : (s.setCommits c).pmReqs = s.pmReqs :=
  State.with_commits_pmReqs s _
@[simp] theorem State.setCommits_ownOps (s : State) (c : List Commit) : (s.setCommits c).ownOps = s.ownOps :=
  State.with_commits_ownOps s _
@[simp] theorem State.setCommits_fuseOps (s : State) (c : List Commit) : (s.setCommits c).fuseOps = s.fuseOps :=
  State.with_commits_fuseOps s _
@[simp] theorem State.setCommits_upd (s : State) (c : List Commit) : (s.setCommits c).upd = s.upd :=
  State.with_commits_upd s _
@[simp] theorem State.setCommits_calUs (s : State) (c : List Commit) : (s.setCommits c).calUs = s.calUs :=
  State.with_commits_calUs s _
@[simp] theorem State.setCommits_parE (s : State) (c : List Commit) : (s.setCommits c).parE = s.parE :=
  State.with_commits_parE s _
@[simp] theorem State.setCommits_parW (s : State) (c : List Commit) : (s.setCommits c).parW = s.parW :=
  State.with_commits_parW s _

/-! ### setNum -/

@[simp] theorem State.setNum_pending (s : State) (n : CommitNum) : (s.setNum n).pending = s.pending :=
  State.with_nums_pending s _
@[simp] theorem State.setNum_now (s : State) (n : CommitNum) : (s.setNum n).now = s.now :=
  State.with_nums_now s _
@[simp] theorem State.setNum_freeCtr (s : State) (n : CommitNum) : (s.setNum n).freeCtr = s.freeCtr :=
  State.with_nums_freeCtr s _
@[simp] theorem State.setNum_regs (s : State) (n : CommitNum) : (s.setNum n).regs = s.regs :=
  State.with_nums_regs s _
@[simp] theorem State.setNum_mem (s : State) (n : CommitNum) : (s.setNum n).mem = s.mem :=
  State.with_nums_mem s _
@[simp] theorem State.setNum_bus (s : State) (n : CommitNum) : (s.setNum n).bus = s.bus :=
  State.with_nums_bus s _
@[simp] theorem State.setNum_irqs (s : State) (n : CommitNum) : (s.setNum n).irqs = s.irqs :=
  State.with_nums_irqs s _
@[simp] theorem State.setNum_outbox (s : State) (n : CommitNum) : (s.setNum n).outbox = s.outbox :=
  State.with_nums_outbox s _
@[simp] theorem State.setNum_led (s : State) (n : CommitNum) : (s.setNum n).led = s.led :=
  State.with_nums_led s _
@[simp] theorem State.setNum_commits (s : State) (n : CommitNum) : (s.setNum n).commits = s.commits :=
  State.with_nums_commits s _
@[simp] theorem State.setNum_p0 (s : State) (n : CommitNum) : (s.setNum n).p0 = s.p0 :=
  State.with_nums_p0 s _
@[simp] theorem State.setNum_p1 (s : State) (n : CommitNum) : (s.setNum n).p1 = s.p1 :=
  State.with_nums_p1 s _
@[simp] theorem State.setNum_f0 (s : State) (n : CommitNum) : (s.setNum n).f0 = s.f0 :=
  State.with_nums_f0 s _
@[simp] theorem State.setNum_f1 (s : State) (n : CommitNum) : (s.setNum n).f1 = s.f1 :=
  State.with_nums_f1 s _
@[simp] theorem State.setNum_fi (s : State) (n : CommitNum) : (s.setNum n).fi = s.fi :=
  State.with_nums_fi s _
@[simp] theorem State.setNum_cmn (s : State) (n : CommitNum) : (s.setNum n).cmn = s.cmn :=
  State.with_nums_cmn s _
@[simp] theorem State.setNum_arb (s : State) (n : CommitNum) : (s.setNum n).arb = s.arb :=
  State.with_nums_arb s _
@[simp] theorem State.setNum_ferry (s : State) (n : CommitNum) : (s.setNum n).ferry = s.ferry :=
  State.with_nums_ferry s _
@[simp] theorem State.setNum_laneE (s : State) (n : CommitNum) : (s.setNum n).laneE = s.laneE :=
  State.with_nums_laneE s _
@[simp] theorem State.setNum_laneW (s : State) (n : CommitNum) : (s.setNum n).laneW = s.laneW :=
  State.with_nums_laneW s _
@[simp] theorem State.setNum_sessions (s : State) (n : CommitNum) : (s.setNum n).sessions = s.sessions :=
  State.with_nums_sessions s _
@[simp] theorem State.setNum_scs (s : State) (n : CommitNum) : (s.setNum n).scs = s.scs :=
  State.with_nums_scs s _
@[simp] theorem State.setNum_mod_ (s : State) (n : CommitNum) : (s.setNum n).mod_ = s.mod_ :=
  State.with_nums_mod_ s _
@[simp] theorem State.setNum_urgents (s : State) (n : CommitNum) : (s.setNum n).urgents = s.urgents :=
  State.with_nums_urgents s _
@[simp] theorem State.setNum_outs (s : State) (n : CommitNum) : (s.setNum n).outs = s.outs :=
  State.with_nums_outs s _
@[simp] theorem State.setNum_feeds (s : State) (n : CommitNum) : (s.setNum n).feeds = s.feeds :=
  State.with_nums_feeds s _
@[simp] theorem State.setNum_pw0 (s : State) (n : CommitNum) : (s.setNum n).pw0 = s.pw0 :=
  State.with_nums_pw0 s _
@[simp] theorem State.setNum_pw1 (s : State) (n : CommitNum) : (s.setNum n).pw1 = s.pw1 :=
  State.with_nums_pw1 s _
@[simp] theorem State.setNum_fcs (s : State) (n : CommitNum) : (s.setNum n).fcs = s.fcs :=
  State.with_nums_fcs s _
@[simp] theorem State.setNum_fd0 (s : State) (n : CommitNum) : (s.setNum n).fd0 = s.fd0 :=
  State.with_nums_fd0 s _
@[simp] theorem State.setNum_fd1 (s : State) (n : CommitNum) : (s.setNum n).fd1 = s.fd1 :=
  State.with_nums_fd1 s _
@[simp] theorem State.setNum_fd2 (s : State) (n : CommitNum) : (s.setNum n).fd2 = s.fd2 :=
  State.with_nums_fd2 s _
@[simp] theorem State.setNum_stamps (s : State) (n : CommitNum) : (s.setNum n).stamps = s.stamps :=
  State.with_nums_stamps s _
@[simp] theorem State.setNum_tideE (s : State) (n : CommitNum) : (s.setNum n).tideE = s.tideE :=
  State.with_nums_tideE s _
@[simp] theorem State.setNum_tideW (s : State) (n : CommitNum) : (s.setNum n).tideW = s.tideW :=
  State.with_nums_tideW s _
@[simp] theorem State.setNum_tevArms (s : State) (n : CommitNum) : (s.setNum n).tevArms = s.tevArms :=
  State.with_nums_tevArms s _
@[simp] theorem State.setNum_evtRecs (s : State) (n : CommitNum) : (s.setNum n).evtRecs = s.evtRecs :=
  State.with_nums_evtRecs s _
@[simp] theorem State.setNum_cvcE (s : State) (n : CommitNum) : (s.setNum n).cvcE = s.cvcE :=
  State.with_nums_cvcE s _
@[simp] theorem State.setNum_cvcW (s : State) (n : CommitNum) : (s.setNum n).cvcW = s.cvcW :=
  State.with_nums_cvcW s _
@[simp] theorem State.setNum_sels (s : State) (n : CommitNum) : (s.setNum n).sels = s.sels :=
  State.with_nums_sels s _
@[simp] theorem State.setNum_pwmRecs (s : State) (n : CommitNum) : (s.setNum n).pwmRecs = s.pwmRecs :=
  State.with_nums_pwmRecs s _
@[simp] theorem State.setNum_pwmWork (s : State) (n : CommitNum) : (s.setNum n).pwmWork = s.pwmWork :=
  State.with_nums_pwmWork s _
@[simp] theorem State.setNum_cmnRecs (s : State) (n : CommitNum) : (s.setNum n).cmnRecs = s.cmnRecs :=
  State.with_nums_cmnRecs s _
@[simp] theorem State.setNum_canRxE (s : State) (n : CommitNum) : (s.setNum n).canRxE = s.canRxE :=
  State.with_nums_canRxE s _
@[simp] theorem State.setNum_canRxW (s : State) (n : CommitNum) : (s.setNum n).canRxW = s.canRxW :=
  State.with_nums_canRxW s _
@[simp] theorem State.setNum_canPorts (s : State) (n : CommitNum) : (s.setNum n).canPorts = s.canPorts :=
  State.with_nums_canPorts s _
@[simp] theorem State.setNum_fltQ (s : State) (n : CommitNum) : (s.setNum n).fltQ = s.fltQ :=
  State.with_nums_fltQ s _
@[simp] theorem State.setNum_canWork (s : State) (n : CommitNum) : (s.setNum n).canWork = s.canWork :=
  State.with_nums_canWork s _
@[simp] theorem State.setNum_canHeld (s : State) (n : CommitNum) : (s.setNum n).canHeld = s.canHeld :=
  State.with_nums_canHeld s _
@[simp] theorem State.setNum_lins (s : State) (n : CommitNum) : (s.setNum n).lins = s.lins :=
  State.with_nums_lins s _
@[simp] theorem State.setNum_linWork (s : State) (n : CommitNum) : (s.setNum n).linWork = s.linWork :=
  State.with_nums_linWork s _
@[simp] theorem State.setNum_tbs (s : State) (n : CommitNum) : (s.setNum n).tbs = s.tbs :=
  State.with_nums_tbs s _
@[simp] theorem State.setNum_eth (s : State) (n : CommitNum) : (s.setNum n).eth = s.eth :=
  State.with_nums_eth s _
@[simp] theorem State.setNum_harbInE (s : State) (n : CommitNum) : (s.setNum n).harbInE = s.harbInE :=
  State.with_nums_harbInE s _
@[simp] theorem State.setNum_harbInW (s : State) (n : CommitNum) : (s.setNum n).harbInW = s.harbInW :=
  State.with_nums_harbInW s _
@[simp] theorem State.setNum_harbHeld (s : State) (n : CommitNum) : (s.setNum n).harbHeld = s.harbHeld :=
  State.with_nums_harbHeld s _
@[simp] theorem State.setNum_pduFails (s : State) (n : CommitNum) : (s.setNum n).pduFails = s.pduFails :=
  State.with_nums_pduFails s _
@[simp] theorem State.setNum_harbE (s : State) (n : CommitNum) : (s.setNum n).harbE = s.harbE :=
  State.with_nums_harbE s _
@[simp] theorem State.setNum_harbW (s : State) (n : CommitNum) : (s.setNum n).harbW = s.harbW :=
  State.with_nums_harbW s _
@[simp] theorem State.setNum_cw (s : State) (n : CommitNum) : (s.setNum n).cw = s.cw :=
  State.with_nums_cw s _
@[simp] theorem State.setNum_nms (s : State) (n : CommitNum) : (s.setNum n).nms = s.nms :=
  State.with_nums_nms s _
@[simp] theorem State.setNum_grants (s : State) (n : CommitNum) : (s.setNum n).grants = s.grants :=
  State.with_nums_grants s _
@[simp] theorem State.setNum_vfOps (s : State) (n : CommitNum) : (s.setNum n).vfOps = s.vfOps :=
  State.with_nums_vfOps s _
@[simp] theorem State.setNum_quiesces (s : State) (n : CommitNum) : (s.setNum n).quiesces = s.quiesces :=
  State.with_nums_quiesces s _
@[simp] theorem State.setNum_iovQs (s : State) (n : CommitNum) : (s.setNum n).iovQs = s.iovQs :=
  State.with_nums_iovQs s _
@[simp] theorem State.setNum_potUpds (s : State) (n : CommitNum) : (s.setNum n).potUpds = s.potUpds :=
  State.with_nums_potUpds s _
@[simp] theorem State.setNum_copies (s : State) (n : CommitNum) : (s.setNum n).copies = s.copies :=
  State.with_nums_copies s _
@[simp] theorem State.setNum_lstepTests (s : State) (n : CommitNum) : (s.setNum n).lstepTests = s.lstepTests :=
  State.with_nums_lstepTests s _
@[simp] theorem State.setNum_tamperLog (s : State) (n : CommitNum) : (s.setNum n).tamperLog = s.tamperLog :=
  State.with_nums_tamperLog s _
@[simp] theorem State.setNum_secE (s : State) (n : CommitNum) : (s.setNum n).secE = s.secE :=
  State.with_nums_secE s _
@[simp] theorem State.setNum_secW (s : State) (n : CommitNum) : (s.setNum n).secW = s.secW :=
  State.with_nums_secW s _
@[simp] theorem State.setNum_keyOps (s : State) (n : CommitNum) : (s.setNum n).keyOps = s.keyOps :=
  State.with_nums_keyOps s _
@[simp] theorem State.setNum_pmReqs (s : State) (n : CommitNum) : (s.setNum n).pmReqs = s.pmReqs :=
  State.with_nums_pmReqs s _
@[simp] theorem State.setNum_ownOps (s : State) (n : CommitNum) : (s.setNum n).ownOps = s.ownOps :=
  State.with_nums_ownOps s _
@[simp] theorem State.setNum_fuseOps (s : State) (n : CommitNum) : (s.setNum n).fuseOps = s.fuseOps :=
  State.with_nums_fuseOps s _
@[simp] theorem State.setNum_upd (s : State) (n : CommitNum) : (s.setNum n).upd = s.upd :=
  State.with_nums_upd s _
@[simp] theorem State.setNum_calUs (s : State) (n : CommitNum) : (s.setNum n).calUs = s.calUs :=
  State.with_nums_calUs s _
@[simp] theorem State.setNum_parE (s : State) (n : CommitNum) : (s.setNum n).parE = s.parE :=
  State.with_nums_parE s _
@[simp] theorem State.setNum_parW (s : State) (n : CommitNum) : (s.setNum n).parW = s.parW :=
  State.with_nums_parW s _

end Sys2Proof.Machine
end

