-- ==== Sys2Proof/Laws/Regs.lean ====
section
/-! SUPPORT. Reading back registers, fields and bytes after a write. -/

namespace Sys2Proof.Machine

/-! ### Fields -/

/-- A field that lies in a word. -/
def Fld.ok (f : Fld) : Prop := f.lo ≤ f.hi ∧ f.hi < 32

theorem getF_eq (w : Word) (f : Fld) : getF w f = w.toNat / 2 ^ f.lo % 2 ^ fldWidth f := by
  rw [getF, Nat.shiftRight_eq_div_pow]

/-- A word is its bits below a field, the field, and the bits above it. -/
theorem split_word (n lo k : Nat) :
    n = n % 2 ^ lo + n / 2 ^ lo % 2 ^ k * 2 ^ lo + n / 2 ^ (lo + k) * 2 ^ (lo + k) := by
  have h1 := Nat.div_add_mod n (2 ^ lo)
  have h2 := Nat.div_add_mod (n / 2 ^ lo) (2 ^ k)
  rw [Nat.div_div_eq_div_mul, ← Nat.pow_add] at h2
  generalize hq : n / 2 ^ (lo + k) = q at *
  generalize hm : n / 2 ^ lo % 2 ^ k = m at *
  generalize hr : n % 2 ^ lo = r at *
  rw [← h2] at h1
  rw [Nat.pow_add]
  rw [← h1]
  rw [Nat.mul_add, Nat.mul_comm (2 ^ lo) m]
  have : 2 ^ lo * (2 ^ k * q) = q * (2 ^ lo * 2 ^ k) := by
    rw [← Nat.mul_assoc, Nat.mul_comm]
  omega

theorem setF_toNat (w : Word) (f : Fld) (v : Nat) (hf : Fld.ok f) :
    (setF w f v).toNat = w.toNat % 2 ^ f.lo + v % 2 ^ fldWidth f * 2 ^ f.lo +
      w.toNat / 2 ^ (f.lo + fldWidth f) * 2 ^ (f.lo + fldWidth f) := by
  have hs := split_word w.toNat f.lo (fldWidth f)
  have hw : f.lo + fldWidth f ≤ 32 := by
    unfold fldWidth
    have := hf.1
    have := hf.2
    omega
  unfold setF
  rw [BitVec.toNat_ofNat, getF_eq]
  generalize hm : w.toNat / 2 ^ f.lo % 2 ^ fldWidth f * 2 ^ f.lo = m at *
  generalize hr : w.toNat % 2 ^ f.lo = r at *
  generalize hq : w.toNat / 2 ^ (f.lo + fldWidth f) = q at *
  have hrl : r < 2 ^ f.lo := by rw [← hr]; exact Nat.mod_lt _ (Nat.two_pow_pos _)
  have hvl : v % 2 ^ fldWidth f < 2 ^ fldWidth f := Nat.mod_lt _ (Nat.two_pow_pos _)
  have hql : q < 2 ^ (32 - (f.lo + fldWidth f)) := by
    rw [← hq]
    apply Nat.div_lt_of_lt_mul
    rw [← Nat.pow_add, Nat.add_sub_cancel' hw]
    exact w.isLt
  generalize v % 2 ^ fldWidth f = x at *
  have e1 : w.toNat - m + x * 2 ^ f.lo = r + x * 2 ^ f.lo + q * 2 ^ (f.lo + fldWidth f) := by omega
  rw [e1]
  apply Nat.mod_eq_of_lt
  have hx : r + x * 2 ^ f.lo < 2 ^ (f.lo + fldWidth f) := by
    calc r + x * 2 ^ f.lo < 2 ^ f.lo + x * 2 ^ f.lo := by omega
      _ = (x + 1) * 2 ^ f.lo := by rw [Nat.add_mul]; omega
      _ ≤ 2 ^ fldWidth f * 2 ^ f.lo := Nat.mul_le_mul_right _ hvl
      _ = 2 ^ (f.lo + fldWidth f) := by rw [Nat.pow_add, Nat.mul_comm]
  calc r + x * 2 ^ f.lo + q * 2 ^ (f.lo + fldWidth f)
      < 2 ^ (f.lo + fldWidth f) + q * 2 ^ (f.lo + fldWidth f) := by omega
    _ = (q + 1) * 2 ^ (f.lo + fldWidth f) := by rw [Nat.add_mul]; omega
    _ ≤ 2 ^ (32 - (f.lo + fldWidth f)) * 2 ^ (f.lo + fldWidth f) := Nat.mul_le_mul_right _ hql
    _ = 2 ^ 32 := by rw [← Nat.pow_add, Nat.sub_add_cancel hw]

/-- A field written reads the value written, as far as it fits. -/
theorem getF_setF (w : Word) (f : Fld) (v : Nat) (hf : Fld.ok f) : getF (setF w f v) f = v % 2 ^ fldWidth f := by
  rw [getF_eq, setF_toNat w f v hf]
  have hrl : w.toNat % 2 ^ f.lo < 2 ^ f.lo := Nat.mod_lt _ (Nat.two_pow_pos _)
  rw [Nat.pow_add, ← Nat.mul_assoc, Nat.mul_right_comm, ← Nat.mul_comm (2 ^ f.lo), ← Nat.mul_comm (2 ^ f.lo)]
  rw [Nat.add_assoc, ← Nat.mul_add, Nat.add_mul_div_left _ _ (Nat.two_pow_pos _), Nat.div_eq_of_lt hrl, Nat.zero_add,
    Nat.add_mul_mod_self_right, Nat.mod_mod]

/-- Two fields of a word that share no bit. -/
def Fld.apart (f g : Fld) : Prop := f.hi < g.lo ∨ g.hi < f.lo

/-- A write of one field leaves another. -/
theorem getF_setF_ne (w : Word) (f g : Fld) (v : Nat) (hf : Fld.ok f) (hg : Fld.ok g) (h : Fld.apart f g) :
    getF (setF w f v) g = getF w g := by
  have hfw : f.lo + fldWidth f = f.hi + 1 := by unfold fldWidth; have := hf.1; omega
  have hgw : g.lo + fldWidth g = g.hi + 1 := by unfold fldWidth; have := hg.1; omega
  rw [getF_eq, getF_eq, setF_toNat w f v hf]
  have hs := split_word w.toNat f.lo (fldWidth f)
  generalize w.toNat = n at *
  rcases h with h | h
  · have hd : ∀ x, x < 2 ^ fldWidth f →
        (n % 2 ^ f.lo + x * 2 ^ f.lo + n / 2 ^ (f.lo + fldWidth f) * 2 ^ (f.lo + fldWidth f)) / 2 ^ g.lo =
          n / 2 ^ (f.lo + fldWidth f) / 2 ^ (g.lo - (f.lo + fldWidth f)) := by
      intro x hx
      have hlt : n % 2 ^ f.lo + x * 2 ^ f.lo < 2 ^ (f.lo + fldWidth f) := by
        have hrl : n % 2 ^ f.lo < 2 ^ f.lo := Nat.mod_lt _ (Nat.two_pow_pos _)
        calc n % 2 ^ f.lo + x * 2 ^ f.lo < 2 ^ f.lo + x * 2 ^ f.lo := by omega
          _ = (x + 1) * 2 ^ f.lo := by rw [Nat.add_mul]; omega
          _ ≤ 2 ^ fldWidth f * 2 ^ f.lo := Nat.mul_le_mul_right _ hx
          _ = 2 ^ (f.lo + fldWidth f) := by rw [Nat.pow_add, Nat.mul_comm]
      have he : 2 ^ g.lo = 2 ^ (f.lo + fldWidth f) * 2 ^ (g.lo - (f.lo + fldWidth f)) := by
        rw [← Nat.pow_add, Nat.add_sub_cancel' (by omega)]
      rw [he, ← Nat.div_div_eq_div_mul, Nat.add_mul_div_right _ _ (Nat.two_pow_pos _), Nat.div_eq_of_lt hlt, Nat.zero_add]
    have h1 := hd (v % 2 ^ fldWidth f) (Nat.mod_lt _ (Nat.two_pow_pos _))
    have h2 := hd (n / 2 ^ f.lo % 2 ^ fldWidth f) (Nat.mod_lt _ (Nat.two_pow_pos _))
    rw [← hs] at h2
    rw [h1, h2]
  · have hm : ∀ x, (n % 2 ^ f.lo + x * 2 ^ f.lo + n / 2 ^ (f.lo + fldWidth f) * 2 ^ (f.lo + fldWidth f)) % 2 ^ f.lo =
        n % 2 ^ f.lo := by
      intro x
      rw [Nat.pow_add, ← Nat.mul_assoc, Nat.mul_right_comm, Nat.add_mul_mod_self_right, Nat.add_mul_mod_self_right,
        Nat.mod_mod]
    have hk : ∀ y, y / 2 ^ g.lo % 2 ^ fldWidth g = y % 2 ^ f.lo / 2 ^ g.lo % 2 ^ fldWidth g := by
      intro y
      have he : 2 ^ f.lo = 2 ^ g.lo * (2 ^ fldWidth g * 2 ^ (f.lo - (g.lo + fldWidth g))) := by
        rw [← Nat.pow_add, ← Nat.pow_add]
        congr 1
        omega
      rw [he, Nat.mod_mul_right_div_self, Nat.mod_mul_right_mod]
    rw [hk, hm, ← hk]

/-! ### Registers -/

/-- Addresses below 2^32 name different registers where they differ. -/
theorem regKey_ne {l l' a b : Nat} (ha : a < 2 ^ 32) (hb : b < 2 ^ 32) (h : a ≠ b) : regKey l a ≠ regKey l' b := by
  unfold regKey homeSpan
  split <;> split <;> omega

theorem shadowKey_ne_regKey {l l' a b : Nat} (ha : a < 2 ^ 32) (hb : b < 2 ^ 32) : shadowKey l a ≠ regKey l' b := by
  unfold regKey shadowKey homeSpan
  split <;> omega

theorem State.reg_setReg {s : State} (h : rfWf s.regs = true) (l l' : Lane) (a b : Nat) (v : Word) :
    (s.setReg l a v).reg l' b = if regKey l.ix a = regKey l'.ix b then v else s.reg l' b :=
  rfGet_rfPut s.regs _ _ v h

theorem State.reg_setReg_self {s : State} (h : rfWf s.regs = true) (l : Lane) (a : Nat) (v : Word) :
    (s.setReg l a v).reg l a = v := by
  rw [State.reg_setReg h, if_pos rfl]

theorem State.reg_setReg_ne {s : State} {l l' : Lane} {a b : Nat} {v : Word} (h : regKey l.ix a ≠ regKey l'.ix b) :
    (s.setReg l a v).reg l' b = s.reg l' b :=
  rfGet_rfPut_ne s.regs _ _ v h

theorem State.setReg_wf {s : State} {l : Lane} {a : Nat} {v : Word} (h : rfWf s.regs = true) :
    rfWf (s.setReg l a v).regs = true := rfPut_wf _ _ _ h

theorem State.setFld_wf {s : State} {l : Lane} {a : Nat} {f : Fld} {v : Nat} (h : rfWf s.regs = true) :
    rfWf (s.setFld l a f v).regs = true := rfPut_wf _ _ _ h

theorem State.reg_setFld_ne {s : State} {l l' : Lane} {a b : Nat} {f : Fld} {v : Nat}
    (h : regKey l.ix a ≠ regKey l'.ix b) : (s.setFld l a f v).reg l' b = s.reg l' b := State.reg_setReg_ne h

theorem State.fld_setFld_self {s : State} (h : rfWf s.regs = true) (l : Lane) (a : Nat) (f : Fld) (v : Nat) (hf : Fld.ok f) :
    (s.setFld l a f v).fld l a f = v % 2 ^ fldWidth f := by
  unfold State.fld State.setFld
  rw [State.reg_setReg_self h, getF_setF _ _ _ hf]

/-- A field written leaves the others of its register, and every other register. -/
theorem State.fld_setFld_ne {s : State} (h : rfWf s.regs = true) {l l' : Lane} {a b : Nat} {f g : Fld} {v : Nat}
    (hf : Fld.ok f) (hg : Fld.ok g) (hne : regKey l.ix a ≠ regKey l'.ix b ∨ (l = l' ∧ a = b ∧ Fld.apart f g)) :
    (s.setFld l a f v).fld l' b g = s.fld l' b g := by
  unfold State.fld
  rcases hne with hk | ⟨rfl, rfl, hx⟩
  · rw [State.reg_setFld_ne hk]
  · unfold State.setFld
    rw [State.reg_setReg_self h, getF_setF_ne _ _ _ _ hf hg hx]

theorem State.bit_setBitF_self {s : State} (h : rfWf s.regs = true) (l : Lane) (a : Nat) (f : Fld) (b : Bool)
    (hf : Fld.ok f) (h1 : f.lo = f.hi) : (s.setBitF l a f b).bit l a f = b := by
  unfold State.bit State.setBitF
  rw [State.fld_setFld_self h l a f _ hf]
  unfold fldWidth
  rw [show f.hi + 1 - f.lo = 1 by omega]
  cases b <;> rfl

/-- A counter register counts by one up to all ones. -/
theorem State.reg_count_self {s : State} (h : rfWf s.regs = true) (l : Lane) (a : Nat) :
    (s.count l a).reg l a = BitVec.ofNat 32 (satInc 32 (s.reg l a).toNat) := State.reg_setReg_self h l a _

theorem State.reg_count_ne {s : State} {l l' : Lane} {a b : Nat} (h : regKey l.ix a ≠ regKey l'.ix b) :
    (s.count l a).reg l' b = s.reg l' b := State.reg_setReg_ne h

/-! ### Bytes -/

theorem State.byte_setByte {s : State} (h : Memory.wf s.mem = true) (l l' : Lane) (a b : Nat) (v : Byte) :
    (s.setByte l a v).byte l' b = if memKey l a = memKey l' b then v else s.byte l' b :=
  memGet_memPut s.mem _ _ v h

end Sys2Proof.Machine
end

