-- ==== Sys2Proof/Laws/Scs.lean ====
section
/-! SUPPORT. What a request that passes its checks leads to: the answer of a query, the start of an accepted command, and
what the answers themselves leave unchanged. -/

namespace Sys2Proof.Machine

/-! ### Runs of registers -/

theorem State.setRegs_wf {s : State} {l : Lane} {a : Nat} {ws : List Word} (h : rfWf s.regs = true) :
    rfWf (s.setRegs l a ws).regs = true := by
  induction ws generalizing s a with
  | nil => exact h
  | cons w ws ih => exact ih (State.setReg_wf h)

/-- Registers outside a run of consecutive ones keep their values. -/
theorem State.reg_setRegs_ne {s : State} {l l' : Lane} {a b : Nat} {ws : List Word}
    (hk : ∀ i, i < ws.length → regKey l.ix (a + 4 * i) ≠ regKey l'.ix b) :
    (s.setRegs l a ws).reg l' b = s.reg l' b := by
  induction ws generalizing s a with
  | nil => rfl
  | cons w ws ih =>
    show ((s.setReg l a w).setRegs l (a + 4) ws).reg l' b = _
    rw [ih, State.reg_setReg_ne]
    · exact hk 0 (Nat.zero_lt_succ _)
    · intro i hi
      have := hk (i + 1) (by simp only [List.length_cons]; omega)
      rwa [show a + 4 * (i + 1) = a + 4 + 4 * i by omega] at this

/-- A register of a run of consecutive ones holds its word. -/
theorem State.reg_setRegs {s : State} (h : rfWf s.regs = true) (l : Lane) (a : Nat) (ws : List Word)
    (ha : a + 4 * ws.length ≤ 2 ^ 32) (i : Nat) (hi : i < ws.length) : (s.setRegs l a ws).reg l (a + 4 * i) = ws[i] := by
  induction ws generalizing s a i with
  | nil => exact absurd hi (Nat.not_lt_zero _)
  | cons w ws ih =>
    simp only [List.length_cons] at ha hi
    show ((s.setReg l a w).setRegs l (a + 4) ws).reg l (a + 4 * i) = _
    cases i with
    | zero =>
      rw [State.reg_setRegs_ne]
      · exact State.reg_setReg_self h l a w
      · intro j hj
        exact regKey_ne (by omega) (by omega) (by omega)
    | succ i =>
      have := ih (State.setReg_wf (l := l) (a := a) (v := w) h) (a + 4) (by omega) i (by omega)
      rw [show a + 4 * (i + 1) = a + 4 + 4 * i by omega, this]
      rfl

theorem bytesToWords_length (k : Nat) (bs : List Byte) : (bytesToWords k bs).length = k := by
  induction k generalizing bs with
  | zero => rfl
  | succ k ih => simp [bytesToWords, ih]

theorem bytesToWords_get (k : Nat) (bs : List Byte) (i : Nat) (hi : i < (bytesToWords k bs).length) :
    (bytesToWords k bs)[i] = wordAt bs (4 * i) := by
  induction k generalizing bs i with
  | zero => exact absurd hi (Nat.not_lt_zero _)
  | succ k ih =>
    cases i with
    | zero => rfl
    | succ i =>
      simp only [bytesToWords, List.getElem_cons_succ]
      rw [ih]
      simp only [wordAt, fieldAt, slice, List.drop_drop]
      rw [show 4 + 4 * i = 4 * (i + 1) by omega]

/-! ### The taking of a request -/

theorem passes_iff {c : CmdSpec} {s : State} {r : Req} (h : passes c s r = true) :
    s.deaf = false ∧ (r.isStartup && !(s.lane (s.holderOr r.lane)).strapOk) = false ∧ waits c s r = false ∧
      checksA c (taken s r).1 (taken s r).2 = none ∧
      (if c.accepted then (taken s r).1.dupOf (taken s r).2 else none) = none ∧
      checksB c (taken s r).1 (taken s r).2 = none ∧
      (c.accepted = true → checksC (taken s r).1 (taken s r).2 = none) ∧
      (c.accepted = false → (taken s r).2.hwFault = false) := by
  simp only [passes, Bool.and_eq_true, Bool.not_eq_true', Bool.or_eq_false_iff, Option.isNone_iff_eq_none] at h
  obtain ⟨⟨⟨⟨⟨⟨h1, h2⟩, h3⟩, h4⟩, h5⟩, h6⟩, h7⟩ := h
  refine ⟨h1, h2, h3, h4, ?_, h6, ?_, ?_⟩
  · cases ha : c.accepted
    · simp
    · simp only [ha, Bool.true_and, Option.isSome_eq_false_iff, Option.isNone_iff_eq_none] at h5
      simpa using h5
  · intro ha
    simpa [ha] using h7
  · intro ha
    simpa [ha] using h7

theorem firstFail_none {cs : List (Bool × Nat)} (h : firstFail cs = none) : ∀ c ∈ cs, c.1 = true := by
  induction cs with
  | nil => intro c hc; cases hc
  | cons d ds ih =>
    obtain ⟨ok, st⟩ := d
    unfold firstFail at h
    split at h
    · rename_i hok
      intro c hc
      rcases List.mem_cons.mp hc with rfl | hc
      · exact hok
      · exact ih h c hc
    · cases h

/-- The operands of a request that passes are in their ranges. -/
theorem passes_param {c : CmdSpec} {s : State} {r : Req} (h : passes c s r = true) :
    c.param (taken s r).1 (taken s r).2 = true := by
  have h1 := firstFail_none (passes_iff h).2.2.2.2.2.1
  have h2 := h1 (_, SCS_E_PARAM) (List.mem_cons_of_mem _ (List.mem_cons_of_mem _ List.mem_cons_self))
  simp only [Bool.and_eq_true] at h2
  exact h2.2

/-- The state allows a request that passes. -/
theorem passes_stateOk {c : CmdSpec} {s : State} {r : Req} (h : passes c s r = true) :
    c.stateOk (taken s r).1 (taken s r).2 = true := by
  have h1 := firstFail_none (passes_iff h).2.2.2.2.2.1
  exact h1 (_, SCS_E_STATE) (by simp [checksB])

/-- A query that passes is answered with its data. -/
theorem runCmd_query {c : CmdSpec} {s : State} {r : Req} (h : passes c s r = true) (ha : c.accepted = false) :
    runCmd c s r = (c.effect (taken s r).1 (taken s r).2).respond (taken s r).2 SCS_OK 0
      (c.answer (taken s r).1 (taken s r).2) := by
  obtain ⟨h1, h2, h3, h4, h5, h6, -, h8⟩ := passes_iff h
  unfold runCmd
  rw [h1, h2, h3]
  simp only [Bool.or_self, Bool.false_eq_true, if_false]
  unfold taken at h4 h5 h6 h8 ⊢
  rw [h4, ha]
  simp only [Bool.false_eq_true, if_false]
  rw [h6, h8 ha]
  simp

/-- An accepted command that passes, and whose turn comes at once, is issued and answered. -/
theorem runCmd_start {c : CmdSpec} {s : State} {r : Req} (h : passes c s r = true) (ha : c.accepted = true)
    (hs : starts c s r = true) (hb : ∀ t q, (c.before t q).led.nextLsn = t.led.nextLsn) :
    runCmd c s r = answerAccepted c (c.exec ((entered c s r).begin s.led.nextLsn) (taken s r).2 s.led.nextLsn)
      (taken s r).2 s.led.nextLsn := by
  obtain ⟨h1, h2, h3, h4, h5, h6, h7, -⟩ := passes_iff h
  have hn : (taken s r).1.led.nextLsn = s.led.nextLsn := by
    unfold taken demoteUrgent
    split <;> simp only [State.count_led]
  simp only [starts, Bool.and_eq_true, Option.isNone_iff_eq_none] at hs
  unfold runCmd
  rw [h1, h2, h3]
  simp only [Bool.or_self, Bool.false_eq_true, if_false]
  have h7' := h7 ha
  unfold taken at h4 h5 h6 h7'
  rw [h4, h5, h6, ha]
  simp only [if_true]
  rw [h7']
  show acceptCmd c (c.before (taken s r).1 (taken s r).2) (taken s r).2 = _
  unfold acceptCmd startNow issue
  rw [hb, hn]
  have he : (c.before (taken s r).1 (taken s r).2).accept c.opcode (taken s r).2 = entered c s r := rfl
  simp only [he]
  rw [if_pos hs.1, hs.2]

/-- What the taking of a request leaves of its fields: all but the URGENT flag. -/
theorem taken_req (s : State) (r : Req) :
    (taken s r).2 = r ∨ (taken s r).2 = { r with flags := clearBit r.flags 3 } := by
  unfold taken demoteUrgent
  split
  · exact .inr rfl
  · exact .inl rfl

@[simp] theorem taken_payload (s : State) (r : Req) : (taken s r).2.payload = r.payload := by
  rcases taken_req s r with h | h <;> rw [h]

@[simp] theorem taken_lane (s : State) (r : Req) : (taken s r).2.lane = r.lane := by
  rcases taken_req s r with h | h <;> rw [h]

@[simp] theorem taken_src (s : State) (r : Req) : (taken s r).2.src = r.src := by
  rcases taken_req s r with h | h <;> rw [h]

@[simp] theorem taken_target (s : State) (r : Req) : (taken s r).2.target = r.target := by
  rcases taken_req s r with h | h <;> rw [h]

@[simp] theorem taken_sigOk (s : State) (r : Req) : (taken s r).2.sigOk = r.sigOk := by
  rcases taken_req s r with h | h <;> rw [h]

@[simp] theorem taken_hwFault (s : State) (r : Req) : (taken s r).2.hwFault = r.hwFault := by
  rcases taken_req s r with h | h <;> rw [h]

@[simp] theorem taken_slot (s : State) (r : Req) : (taken s r).2.slot = r.slot := by
  rcases taken_req s r with h | h <;> rw [h]

@[simp] theorem taken_reqId (s : State) (r : Req) : (taken s r).2.reqId = r.reqId := by
  rcases taken_req s r with h | h <;> rw [h]

@[simp] theorem taken_world (s : State) (r : Req) : (taken s r).2.world = r.world := by
  rw [Req.world, taken_src, Req.world]

@[simp] theorem taken_u (s : State) (r : Req) (o n : Nat) : (taken s r).2.u o n = r.u o n := by
  simp only [Req.u, taken_payload]

@[simp] theorem taken_u8 (s : State) (r : Req) (o : Nat) : (taken s r).2.u8 o = r.u8 o := taken_u s r o 1

@[simp] theorem taken_u16 (s : State) (r : Req) (o : Nat) : (taken s r).2.u16 o = r.u16 o := taken_u s r o 2

@[simp] theorem taken_u32 (s : State) (r : Req) (o : Nat) : (taken s r).2.u32 o = r.u32 o := taken_u s r o 4

@[simp] theorem taken_w (s : State) (r : Req) (o : Nat) : (taken s r).2.w o = r.w o := by
  simp only [Req.w, taken_payload]

@[simp] theorem taken_bytes (s : State) (r : Req) (o n : Nat) : (taken s r).2.bytes o n = r.bytes o n := by
  simp only [Req.bytes, taken_payload]

/-! ### Registers that no answer touches -/

theorem Aside.ne {a b l l' : Nat} (h : Aside a) (hb : 0xE0400000 ≤ b ∧ b < 0xE0600000) : regKey l b ≠ regKey l' a := by
  obtain ⟨h1, h2⟩ := h
  exact regKey_ne (by omega) h1 (by omega)

theorem State.reg_setFldBoth_ne {s : State} {a b : Nat} {l : Lane} {f : Fld} {v : Nat} (h : ∀ k, regKey k a ≠ regKey l.ix b) :
    (s.setFldBoth a f v).reg l b = s.reg l b := by
  unfold State.setFldBoth
  rw [State.reg_setFld_ne (h _), State.reg_setFld_ne (h _)]

theorem State.reg_countBoth_ne {s : State} {a b : Nat} {l : Lane} (h : ∀ k, regKey k a ≠ regKey l.ix b) :
    (s.countBoth a).reg l b = s.reg l b := by
  unfold State.countBoth
  rw [State.reg_count_ne (h _), State.reg_count_ne (h _)]

theorem State.syncLedgLane_reg {s : State} {k l : Lane} {a : Nat} (h : Aside a) :
    (s.syncLedgLane k).reg l a = s.reg l a := by
  unfold State.syncLedgLane State.setBitF
  simp only []
  repeat (first | rw [State.reg_setFld_ne (h.ne ⟨by decide, by decide⟩)] | rw [State.reg_setReg_ne (h.ne ⟨by decide, by decide⟩)])

theorem State.syncLedg_reg {s : State} {l : Lane} {a : Nat} (h : Aside a) : s.syncLedg.reg l a = s.reg l a := by
  unfold State.syncLedg
  rw [State.syncLedgLane_reg h, State.syncLedgLane_reg h]

theorem State.syncQuota_reg {s : State} {q : Nat} {l : Lane} {a : Nat} (h : Aside a) :
    (s.syncQuota q).reg l a = s.reg l a := by
  unfold State.syncQuota
  apply State.reg_setFldBoth_ne
  intro k
  apply h.ne
  unfold R.LEDG_QUSED
  omega

theorem State.accept_reg {s : State} {op : Nat} {r : Req} {l : Lane} {a : Nat} (h : Aside a) :
    (s.accept op r).reg l a = s.reg l a := by
  unfold State.accept
  simp only []
  rw [State.syncQuota_reg h, State.syncLedg_reg h, State.reg_countBoth_ne (fun k => h.ne ⟨by decide, by decide⟩)]
  rfl

theorem taken_reg {s : State} {r : Req} {l : Lane} {a : Nat} (h : Aside a) : (taken s r).1.reg l a = s.reg l a := by
  have h0 : ∀ k, (s.count k (R.SCSM_CNT 0)).reg l a = s.reg l a :=
    fun k => State.reg_count_ne (h.ne ⟨by decide, by decide⟩)
  unfold taken demoteUrgent
  split
  · show (State.count _ _ _).reg l a = _
    rw [State.reg_count_ne (h.ne ⟨by decide, by decide⟩), h0]
  · exact h0 _

theorem State.takeInbox_reg {s : State} {r : Req} {l : Lane} {a : Nat} : (s.takeInbox r).reg l a = s.reg l a := rfl

theorem State.setBytes_regs (s : State) (l : Lane) (a : Nat) (bs : List Byte) : (s.setBytes l a bs).regs = s.regs := by
  induction bs generalizing s a with
  | nil => rfl
  | cons b bs ih => exact ih _ _

theorem State.putResp_regs (s : State) (r : Req) (data : List Byte) : (s.putResp r data).regs = s.regs := by
  unfold State.putResp
  generalize pagesOf r.outAddr data.length = ps
  have h : ∀ (ps : List Nat) (t : State), (ps.foldl (fun s p =>
      match s.bufXlat r p true with
      | some x => s.setBytes r.lane x (slice data (p - r.outAddr) (pageLen r.outAddr data.length p))
      | none => s) t).regs = t.regs := by
    intro ps
    induction ps with
    | nil => intro t; rfl
    | cons p ps ih =>
      intro t
      rw [List.foldl_cons, ih]
      split
      · exact State.setBytes_regs _ _ _ _
      · rfl
  exact h ps s

theorem State.irq_regs (s : State) (l : Lane) (f : Option Nat) (v : Nat) : (s.irq l f v).regs = s.regs := by
  unfold State.irq
  split <;> rfl

theorem State.reg_withSessions (t : State) (x : List Session) (y : ScsRt) (l : Lane) (a : Nat) (v : Word) (ht : t.reg l a = v) :
    State.reg { t with sessions := x, scs := y } l a = v := ht

theorem State.closeSession_reg {s : State} {n : Nat} {l : Lane} {a : Nat} (hn : n < 32) (h : Aside a) :
    (s.closeSession n).reg l a = s.reg l a := by
  have hb : ∀ k, regKey k (R.SCSM_RS_STATUS n) ≠ regKey l.ix a := by
    intro k
    apply h.ne
    unfold R.SCSM_RS_STATUS
    omega
  have ht : (s.setRegBoth (R.SCSM_RS_STATUS n) 0).reg l a = s.reg l a := by
    unfold State.setRegBoth
    rw [State.reg_setReg_ne (hb _), State.reg_setReg_ne (hb _)]
  exact State.reg_withSessions _ _ _ l a _ ht

theorem State.sessionSent_reg {s : State} {n b : Nat} {l : Lane} {a : Nat} (hn : n < 32) (h : Aside a) :
    (s.sessionSent n b).reg l a = s.reg l a := by
  unfold State.sessionSent
  split
  · rfl
  · simp only []
    split
    · rw [State.closeSession_reg hn h]
      rfl
    · rfl

theorem State.putImage_reg {s : State} {r : Req} {mb : Nat} {img : List Byte} {l : Lane} {a : Nat} (hm : mb ≤ 64)
    (hi : img.length ≤ 128) (h : Aside a) : (s.putImage r mb img).reg l a = s.reg l a := by
  have h1 : ((s.setRegs r.lane (R.SCSM_MB_RESP mb (r.slot % 8) 0) (bytesToWords ((img.length + 3) / 4) img)).reg l a) =
      s.reg l a := by
    apply State.reg_setRegs_ne
    intro i hi
    rw [bytesToWords_length] at hi
    apply h.ne
    unfold R.SCSM_MB_RESP
    omega
  have h2 : ∀ (t : State) (v : Nat), (t.setFld r.lane (R.SCSM_MB_STATUS mb) F.SCSM_MB_STATUS_RESP_READY v).reg l a =
      t.reg l a := by
    intro t v
    apply State.reg_setFld_ne
    apply h.ne
    unfold R.SCSM_MB_STATUS
    omega
  unfold State.putImage
  extract_lets slot t st u
  have h3 : u.reg l a = s.reg l a := (h2 _ _).trans h1
  clear_value u
  split
  · rw [State.reg, State.irq_regs]
    exact h3
  · exact h3

theorem respHeader_length (st : Nat) (b : Bool) (l : Lane) (q n k : Nat) : (respHeader st b l q n k).length = 16 := rfl

theorem State.respondMb_reg {s : State} {r : Req} {k l : Lane} {mb st lsn : Nat} {data : List Byte} {a : Nat}
    (hm : mb ≤ 64) (h : Aside a) : (s.respondMb r k mb st lsn data).reg l a = s.reg l a := by
  unfold State.respondMb
  extract_lets toBuf bufOk t
  have ht : t.reg l a = s.reg l a := by
    show rfGet (State.regs (if bufOk = true then _ else _)) _ = _
    split
    · rw [State.putResp_regs]
      rfl
    · rfl
  clear_value t
  rw [State.putImage_reg hm _ h, ht]
  rw [List.length_append, respHeader_length]
  split
  · simp
  · simp only [List.length_take]
    omega

/-- A response touches no register outside its own blocks. -/
theorem State.respond_reg {s : State} {r : Req} {st lsn : Nat} {data : List Byte} {l : Lane} {a : Nat}
    (hw : r.src.wf = true) (h : Aside a) : (s.respond r st lsn data).reg l a = s.reg l a := by
  unfold State.respond
  extract_lets k
  clear_value k
  split
  · rename_i n hn
    rw [hn] at hw
    simp only [Src.wf, decide_eq_true_eq] at hw
    unfold State.respondSession
    extract_lets t p
    rw [State.sessionSent_reg hw h, State.reg_setFldBoth_ne]
    · rfl
    · intro k
      apply h.ne
      unfold R.SCSM_RS_STATUS
      omega
  · rename_i f hf
    rw [hf] at hw
    simp only [Src.wf, decide_eq_true_eq] at hw
    rw [State.respondMb_reg (by omega) h]
    rfl
  · rw [State.respondMb_reg (Nat.le_refl _) h]
    rfl
  · rfl

/-- The answer to an accepted request touches no register outside its own blocks. -/
theorem answerAccepted_reg {c : CmdSpec} {s : State} {r : Req} {lsn : Nat} {l : Lane} {a : Nat} (hw : r.src.wf = true)
    (h : Aside a) : (answerAccepted c s r lsn).reg l a = s.reg l a := by
  unfold answerAccepted
  split
  · split
    · simp only []
      rw [State.respond_reg hw h, State.syncQuota_reg h, State.syncLedg_reg h]
      rfl
    · exact State.respond_reg hw h
  · exact State.respond_reg hw h

end Sys2Proof.Machine
end

