-- ==== Sys2Proof/Laws/Answer.lean ====
section
/-! SUPPORT. A response reaches its sender: the words of a mailbox's response slot, a session's message. -/

namespace Sys2Proof.Machine

theorem leNat_append (a b : List Byte) : leNat (a ++ b) = leNat a + 256 ^ a.length * leNat b := by
  induction a with
  | nil => simp [leNat]
  | cons x xs ih =>
    simp only [List.cons_append, leNat, List.length_cons, ih, Nat.pow_succ]
    rw [Nat.mul_add, ← Nat.mul_assoc, Nat.mul_comm 256 (256 ^ xs.length), Nat.add_assoc]

theorem leNat_leBytes (k n : Nat) : leNat (leBytes k n) = n % 256 ^ k := by
  induction k generalizing n with
  | zero => simp [leBytes, leNat, Nat.mod_one]
  | succ k ih =>
    simp only [leBytes, leNat, ih, BitVec.toNat_ofNat]
    rw [show 256 ^ (k + 1) = 256 * 256 ^ k by rw [Nat.pow_succ, Nat.mul_comm], Nat.mod_mul]

theorem leBytes_length (k n : Nat) : (leBytes k n).length = k := by
  induction k generalizing n with
  | zero => rfl
  | succ k ih => simp [leBytes, ih]

/-- A field of a byte string, where the string begins with other bytes. -/
theorem fieldAt_append_left (a b : List Byte) (o n : Nat) (h : o + n ≤ a.length) : fieldAt (a ++ b) o n = fieldAt a o n := by
  unfold fieldAt slice
  rw [List.drop_append_of_le_length (by omega), List.take_append_of_le_length (by rw [List.length_drop]; omega)]

theorem fieldAt_at (a b c : List Byte) : fieldAt (a ++ b ++ c) a.length b.length = leNat b := by
  unfold fieldAt slice
  rw [List.append_assoc, List.drop_left, List.take_left]

/-- The header's first two bytes are the status. -/
theorem respHeader_status (st : Nat) (b : Bool) (l : Lane) (q n k : Nat) (xs : List Byte) :
    fieldAt (wordBytes (wordAt (respHeader st b l q n k ++ xs) 0)) 0 2 = st % 65536 := by
  have h4 : ∃ x y, respHeader st b l q n k ++ xs = leBytes 2 st ++ (leBytes 2 x ++ y) := by
    refine ⟨b2n b + 2 * l.ix, leBytes 4 q ++ (leBytes 6 n ++ (leBytes 2 k ++ xs)), ?_⟩
    unfold respHeader
    simp only [List.append_assoc]
  obtain ⟨x, y, hy⟩ := h4
  rw [hy]
  have hw : (wordAt (leBytes 2 st ++ (leBytes 2 x ++ y)) 0).toNat = leNat (leBytes 2 st ++ leBytes 2 x) := by
    unfold wordAt
    have : fieldAt (leBytes 2 st ++ (leBytes 2 x ++ y)) 0 4 = leNat (leBytes 2 st ++ leBytes 2 x) := by
      have := fieldAt_at [] (leBytes 2 st ++ leBytes 2 x) y
      simpa [leBytes_length] using this
    rw [this, BitVec.toNat_ofNat, Nat.mod_eq_of_lt]
    rw [leNat_append, leNat_leBytes, leNat_leBytes, leBytes_length]
    omega
  unfold wordBytes
  rw [hw, leNat_append, leNat_leBytes, leNat_leBytes, leBytes_length]
  have : fieldAt (leBytes 4 (st % 256 ^ 2 + 256 ^ 2 * (x % 256 ^ 2))) 0 2 = (st % 256 ^ 2 + 256 ^ 2 * (x % 256 ^ 2)) % 256 ^ 2 := by
    have e : ∀ m, leBytes 4 m = [] ++ leBytes 2 m ++ leBytes 2 (m / 256 / 256) := fun m => rfl
    rw [e]
    have := fieldAt_at [] (leBytes 2 (st % 256 ^ 2 + 256 ^ 2 * (x % 256 ^ 2)))
      (leBytes 2 ((st % 256 ^ 2 + 256 ^ 2 * (x % 256 ^ 2)) / 256 / 256))
    rw [leBytes_length] at this
    rw [leNat_leBytes] at this
    exact this
  rw [this]
  omega

/-- The header's second word is the REQ_ID. -/
theorem respHeader_reqId (st : Nat) (b : Bool) (l : Lane) (q n k : Nat) (xs : List Byte) :
    wordAt (respHeader st b l q n k ++ xs) 4 = BitVec.ofNat 32 q := by
  have h : respHeader st b l q n k ++ xs =
      (leBytes 2 st ++ leBytes 2 (b2n b + 2 * l.ix)) ++ leBytes 4 q ++ (leBytes 6 n ++ (leBytes 2 k ++ xs)) := by
    unfold respHeader
    simp only [List.append_assoc]
  rw [h]
  unfold wordAt
  have := fieldAt_at (leBytes 2 st ++ leBytes 2 (b2n b + 2 * l.ix)) (leBytes 4 q) (leBytes 6 n ++ (leBytes 2 k ++ xs))
  rw [List.length_append, leBytes_length, leBytes_length, leBytes_length] at this
  rw [this, leNat_leBytes]
  apply BitVec.eq_of_toNat_eq
  rw [BitVec.toNat_ofNat, BitVec.toNat_ofNat]
  omega

theorem testBit_setBit_mod (n i : Nat) (h : i < 8) : ((setBit n i) % 2 ^ 8).testBit i = true := by
  rw [Nat.testBit_mod_two_pow]
  simp [setBit, h, Nat.testBit_or]

/-- What a mailbox's response slot holds once the response is in it. -/
theorem State.putImage_words {s : State} (hs : rfWf s.regs = true) (r : Req) (mb : Nat) (img : List Byte) (hm : mb ≤ 64)
    (hi : img.length ≤ 128) :
    ((s.putImage r mb img).fld r.lane (R.SCSM_MB_STATUS mb) F.SCSM_MB_STATUS_RESP_READY).testBit (r.slot % 8) = true ∧
      ∀ i, 4 * i < img.length → (s.putImage r mb img).reg r.lane (R.SCSM_MB_RESP mb (r.slot % 8) i) = wordAt img (4 * i) := by
  have hl : (bytesToWords ((img.length + 3) / 4) img).length = (img.length + 3) / 4 := bytesToWords_length _ _
  unfold State.putImage
  extract_lets slot t st u
  have hslot : slot < 8 := Nat.mod_lt _ (by decide)
  have ht : rfWf t.regs = true := State.setRegs_wf hs
  have hu1 : (u.fld r.lane st F.SCSM_MB_STATUS_RESP_READY).testBit slot = true := by
    show ((State.setFld t r.lane st F.SCSM_MB_STATUS_RESP_READY _).fld _ _ _).testBit _ = true
    rw [State.fld_setFld_self ht _ _ _ _ ⟨by decide, by decide⟩]
    exact testBit_setBit_mod _ _ hslot
  have hu2 : ∀ i, 4 * i < img.length → u.reg r.lane (R.SCSM_MB_RESP mb slot i) = wordAt img (4 * i) := by
    intro i hlt
    have h1 : u.reg r.lane (R.SCSM_MB_RESP mb slot i) = t.reg r.lane (R.SCSM_MB_RESP mb slot i) := by
      apply State.reg_setFld_ne
      apply regKey_ne
      · show R.SCSM_MB_STATUS mb < _
        unfold R.SCSM_MB_STATUS
        omega
      · unfold R.SCSM_MB_RESP
        omega
      · show R.SCSM_MB_STATUS mb ≠ _
        unfold R.SCSM_MB_STATUS R.SCSM_MB_RESP
        omega
    have h2 := State.reg_setRegs hs r.lane (R.SCSM_MB_RESP mb slot 0) (bytesToWords ((img.length + 3) / 4) img)
      (by rw [hl]; unfold R.SCSM_MB_RESP; omega) i (by rw [hl]; omega)
    rw [bytesToWords_get] at h2
    rw [h1, ← h2]
    show t.reg _ _ = t.reg _ _
    rw [show R.SCSM_MB_RESP mb slot i = R.SCSM_MB_RESP mb slot 0 + 4 * i by unfold R.SCSM_MB_RESP; omega]
  clear_value u
  split
  · refine ⟨?_, fun i hlt => ?_⟩
    · rw [State.fld, State.reg, State.irq_regs]
      exact hu1
    · rw [State.reg, State.irq_regs]
      exact hu2 i hlt
  · exact ⟨hu1, hu2⟩

theorem State.respondMb_words {s : State} (hs : rfWf s.regs = true) (r : Req) (l : Lane) (mb st lsn : Nat) (data : List Byte)
    (hm : mb ≤ 64) :
    let t := s.respondMb r l mb st lsn data
    let img := respHeader st false l r.reqId lsn data.length ++ data.take 112
    (t.fld r.lane (R.SCSM_MB_STATUS mb) F.SCSM_MB_STATUS_RESP_READY).testBit (r.slot % 8) = true ∧
      fieldAt (wordBytes (t.reg r.lane (R.SCSM_MB_RESP mb (r.slot % 8) 0))) 0 2 = st % 65536 ∧
      t.reg r.lane (R.SCSM_MB_RESP mb (r.slot % 8) 1) = BitVec.ofNat 32 r.reqId ∧
      (r.bufResponse = false ∨ data = [] → ∀ i, 4 * i < img.length →
        t.reg r.lane (R.SCSM_MB_RESP mb (r.slot % 8) i) = wordAt img (4 * i)) := by
  intro t img
  have e : t = s.respondMb r l mb st lsn data := rfl
  clear_value t
  subst e
  unfold State.respondMb
  extract_lets toBuf bufOk u
  have hu : rfWf u.regs = true := by
    show rfWf (State.regs (if bufOk = true then _ else _)) = true
    split
    · rw [State.putResp_regs]
      exact hs
    · exact hs
  have hlen : ∀ (b : Bool) (k : Nat), (respHeader st bufOk l r.reqId lsn k ++ (if b then [] else data.take 112)).length ≤ 128 := by
    intro b k
    rw [List.length_append, respHeader_length]
    cases b
    · simp only [Bool.false_eq_true, if_false, List.length_take]
      omega
    · simp
  have hp := State.putImage_words hu r mb _ hm (hlen toBuf (if toBuf && !bufOk then 0 else data.length))
  refine ⟨hp.1, ?_, ?_, ?_⟩
  · have := hp.2 0 (by rw [List.length_append, respHeader_length]; omega)
    show fieldAt (wordBytes ((State.putImage u r mb _).reg _ _)) 0 2 = _
    rw [this]
    exact respHeader_status _ _ _ _ _ _ _
  · have := hp.2 1 (by rw [List.length_append, respHeader_length]; omega)
    show (State.putImage u r mb _).reg _ _ = _
    rw [this]
    exact respHeader_reqId _ _ _ _ _ _ _
  · intro hb i hi
    have h0 : toBuf = false := by
      show (r.bufResponse && data != []) = false
      rcases hb with hb | hb
      · rw [hb]; rfl
      · rw [hb]; simp
    have h1 : bufOk = false := by
      show (toBuf && _) = false
      rw [h0]
      rfl
    have := hp.2 i (by
      rw [h0, h1]
      exact hi)
    show (State.putImage u r mb _).reg _ _ = _
    rw [this, h0, h1]
    rfl

theorem State.outbox_withSessions (t : State) (x : List Session) (y : ScsRt) :
    State.outbox { t with sessions := x, scs := y } = t.outbox := rfl

theorem State.closeSession_outbox (s : State) (n : Nat) : (s.closeSession n).outbox = s.outbox := by
  have h : (s.setRegBoth (R.SCSM_RS_STATUS n) 0).outbox = s.outbox := by
    unfold State.setRegBoth
    simp only [State.setReg_outbox]
  exact (State.outbox_withSessions _ _ _).trans h

theorem State.setSession_outbox (s : State) (n : Nat) (x : Session) : (s.setSession n x).outbox = s.outbox :=
  State.outbox_withSessions s _ s.scs

theorem State.sessionSent_outbox (s : State) (n b : Nat) : (s.sessionSent n b).outbox = s.outbox := by
  unfold State.sessionSent
  split
  · rfl
  · simp only []
    split
    · rw [State.closeSession_outbox, State.setSession_outbox]
    · exact State.setSession_outbox _ _ _

/-- A response reaches its sender. -/
theorem State.respond_answered {s : State} (hs : rfWf s.regs = true) (r : Req) (st lsn : Nat) (data : List Byte)
    (hw : r.src.wf = true) : Answered s r st lsn data (s.respond r st lsn data) := by
  unfold Answered State.respond
  extract_lets l
  cases hsrc : r.src with
  | func f =>
    rw [hsrc] at hw
    simp only [Src.wf, decide_eq_true_eq] at hw
    exact State.respondMb_words (s := s.takeInbox r) hs r l f st lsn data (by omega)
  | smb0 => exact State.respondMb_words (s := s.takeInbox r) hs r l 64 st lsn data (Nat.le_refl _)
  | session n =>
    have h : ∀ (t : State) (k m : Nat), (t.sessionSent k m).outbox = t.outbox := by
      intro t k m
      exact State.sessionSent_outbox t k m
    show _ ∈ (State.respondSession _ _ _ _ _ _ _).outbox
    unfold State.respondSession
    extract_lets u p
    rw [h]
    unfold State.setFldBoth
    simp only [State.setFld_outbox]
    exact List.mem_append_right _ (List.mem_singleton.mpr rfl)
  | startup n => trivial
  | queue n => trivial

end Sys2Proof.Machine
end

