-- ==== Sys2Proof/Laws/Commits.lean ====
section
/-! SUPPORT. Pending commits: the copy that a command adds carries its entry and gives each register it names its value
(R17, R20), and an accepted command leaves what its own part of the work has made of the state. -/

namespace Sys2Proof.Machine

/-! ### Cells -/

theorem cellsGet_merge_other (old new_ : List RegCell) (a : Nat) (h : ∀ c ∈ new_, c.1 ≠ a) :
    cellsGet (cellsMerge old new_) a = cellsGet old a := by
  induction new_ generalizing old with
  | nil => rfl
  | cons c cs ih =>
    show cellsGet (cellsMerge (cellsInsert old c.1 c.2) cs) a = _
    rw [ih _ (fun x hx => h x (List.mem_cons_of_mem _ hx)), cellsGet_insert, if_neg (h c List.mem_cons_self)]

/-- A merge gives a register the value that the newer cells name for it. -/
theorem cellsGet_merge (old new_ : List RegCell) (a : Nat) (v : Word) (h : (a, v) ∈ new_)
    (hu : ∀ w, (a, w) ∈ new_ → w = v) : cellsGet (cellsMerge old new_) a = some v := by
  induction new_ generalizing old with
  | nil => cases h
  | cons c cs ih =>
    show cellsGet (cellsMerge (cellsInsert old c.1 c.2) cs) a = _
    by_cases hc : ∃ w, (a, w) ∈ cs
    · obtain ⟨w, hw⟩ := hc
      have hv := hu w (List.mem_cons_of_mem _ hw)
      subst hv
      exact ih _ hw (fun x hx => hu x (List.mem_cons_of_mem _ hx))
    · rw [cellsGet_merge_other]
      · rcases List.mem_cons.mp h with rfl | h
        · rw [cellsGet_insert, if_pos rfl]
        · exact absurd ⟨v, h⟩ hc
      · intro x hx hxa
        exact hc ⟨x.2, by rw [← hxa]; exact hx⟩

/-! ### Shadows -/

theorem State.writeShadows_commits (s : State) (l : Lane) (ws : List RegCell) :
    (s.writeShadows l ws).commits = s.commits := by
  induction ws generalizing s with
  | nil => rfl
  | cons c cs ih =>
    obtain ⟨a, v⟩ := c
    show ((s.writeShadow l a v).writeShadows l cs).commits = _
    rw [ih]
    exact State.setShadow_commits ..

theorem shadowKey_ne {l l' a b : Nat} (hb : b < 2 ^ 32) : shadowKey l a ≠ regKey l' b := by
  unfold shadowKey regKey homeSpan
  split <;> omega

theorem State.writeShadows_reg {s : State} {l l' : Lane} {ws : List RegCell} {b : Nat} (hb : b < 2 ^ 32) :
    (s.writeShadows l ws).reg l' b = s.reg l' b := by
  induction ws generalizing s with
  | nil => rfl
  | cons c cs ih =>
    obtain ⟨a, v⟩ := c
    show ((s.writeShadow l a v).writeShadows l cs).reg l' b = _
    rw [ih]
    show rfGet (rfPut s.regs (shadowKey l.ix a) _) _ = _
    exact rfGet_rfPut_ne _ _ _ _ (shadowKey_ne hb)

/-! ### Copies -/

theorem State.setCommits_commits (s : State) (c : List Commit) : (s.setCommits c).commits = c := rfl

theorem State.addCommit_regs (s : State) (b g : Nat) (l : Lane) (ws : List RegCell) (lsns : List Nat) (w : Bool) :
    (s.addCommit b g l ws lsns w).regs = s.regs := rfl

theorem State.addCommit_reg (s : State) (b g : Nat) (l k : Lane) (ws : List RegCell) (lsns : List Nat) (w : Bool) (a : Nat) :
    (s.addCommit b g l ws lsns w).reg k a = s.reg k a := rfl

/-- The copy of a command carries its entries, and gives each register it names its value. -/
theorem State.addCommit_carriesAt {s : State} {b g : Nat} {l : Lane} {ws : List RegCell} {lsns : List Nat} {lsn a : Nat}
    {v : Word} (hl : lsn ∈ lsns) (h : (a, v) ∈ ws) (hu : ∀ w, (a, w) ∈ ws → w = v) :
    (s.addCommit b g l ws lsns false).CarriesAt l b g lsn (a, v) :=
  ⟨_, List.mem_append_right _ (List.mem_singleton.mpr rfl), rfl, rfl, rfl, List.mem_append_right _ hl,
    cellsGet_merge _ _ _ _ h hu⟩

theorem State.addCommit_carries {s : State} {b g : Nat} {l : Lane} {ws : List RegCell} {lsns : List Nat} {lsn a : Nat}
    {v : Word} (hl : lsn ∈ lsns) (h : (a, v) ∈ ws) (hu : ∀ w, (a, w) ∈ ws → w = v) :
    (s.addCommit b g l ws lsns false).Carries b g lsn (a, v) := ⟨l, State.addCommit_carriesAt hl h hu⟩

/-- A copy of another region or lane changes nothing of the copies that are there. -/
theorem State.CarriesAt.addCommit {s : State} {b g b' g' : Nat} {k l : Lane} {ws : List RegCell} {lsns : List Nat} {w : Bool}
    {lsn : Nat} {x : RegCell} (h : s.CarriesAt k b g lsn x) (hne : b ≠ b' ∨ g ≠ g' ∨ k ≠ l) :
    (s.addCommit b' g' l ws lsns w).CarriesAt k b g lsn x := by
  obtain ⟨c, hc, rfl, rfl, rfl, h3, h4⟩ := h
  refine ⟨c, List.mem_append_left _ (List.mem_filter.mpr ⟨hc, ?_⟩), rfl, rfl, rfl, h3, h4⟩
  unfold Commit.isAt
  rcases hne with hne | hne | hne <;> simp [hne]

theorem State.Carries.addCommit {s : State} {b g b' g' : Nat} {l : Lane} {ws : List RegCell} {lsns : List Nat} {w : Bool}
    {lsn : Nat} {x : RegCell} (h : s.Carries b g lsn x) (hne : b ≠ b' ∨ g ≠ g') :
    (s.addCommit b' g' l ws lsns w).Carries b g lsn x := by
  obtain ⟨k, hk⟩ := h
  exact ⟨k, hk.addCommit (hne.elim .inl (fun h => .inr (.inl h)))⟩

theorem State.CarriesAt.of_commits {s t : State} {b g lsn : Nat} {l : Lane} {x : RegCell} (h : s.CarriesAt l b g lsn x)
    (ht : t.commits = s.commits) : t.CarriesAt l b g lsn x := by
  obtain ⟨c, hc, h1⟩ := h
  exact ⟨c, ht ▸ hc, h1⟩

theorem State.Carries.of_commits {s t : State} {b g lsn : Nat} {x : RegCell} (h : s.Carries b g lsn x)
    (ht : t.commits = s.commits) : t.Carries b g lsn x := by
  obtain ⟨l, hl⟩ := h
  exact ⟨l, hl.of_commits ht⟩

theorem State.commitShared_carries {s : State} {b g : Nat} {ws : List RegCell} {lsn a : Nat} {v : Word} (h : (a, v) ∈ ws)
    (hu : ∀ w, (a, w) ∈ ws → w = v) : (s.commitShared b g ws lsn).Carries b g lsn (a, v) :=
  State.addCommit_carries (List.mem_singleton.mpr rfl) h hu

theorem State.commitLocal_carries {s : State} {b g : Nat} {ws : List RegCell} {lsn a : Nat} {v : Word} (h : (a, v) ∈ ws)
    (hu : ∀ w, (a, w) ∈ ws → w = v) : (s.commitLocal b g ws lsn).Carries b g lsn (a, v) :=
  State.addCommit_carries (List.mem_singleton.mpr rfl) h hu

theorem State.Carries.commitShared {s : State} {b g b' g' : Nat} {ws : List RegCell} {lsn k : Nat} {x : RegCell}
    (h : s.Carries b g lsn x) (hne : b ≠ b' ∨ g ≠ g') : (s.commitShared b' g' ws k).Carries b g lsn x :=
  (h.of_commits (t := (s.writeShadows .E ws).writeShadows .W ws)
    (by rw [State.writeShadows_commits, State.writeShadows_commits])).addCommit hne

theorem State.commitShared_reg {s : State} {b g : Nat} {ws : List RegCell} {lsn a : Nat} {l : Lane} (h : a < 2 ^ 32) :
    (s.commitShared b g ws lsn).reg l a = s.reg l a := by
  show ((s.writeShadows .E ws).writeShadows .W ws).reg l a = _
  rw [State.writeShadows_reg h, State.writeShadows_reg h]

theorem State.commitLocal_reg {s : State} {b g : Nat} {ws : List RegCell} {lsn a : Nat} {l : Lane} (h : a < 2 ^ 32) :
    (s.commitLocal b g ws lsn).reg l a = s.reg l a := by
  show ((s.writeShadows .E ws).writeShadows .W ws).reg l a = _
  rw [State.writeShadows_reg h, State.writeShadows_reg h]

theorem State.commitDies_reg {s : State} {b : Nat} {ds : List Nat} {ws : Nat → List RegCell} {lsn a : Nat} {l : Lane}
    (h : a < 2 ^ 32) : (s.commitDies b ds ws lsn).reg l a = s.reg l a := by
  induction ds generalizing s with
  | nil => rfl
  | cons d ds ih =>
    show (State.commitDies (if ws d = [] then s else s.commitShared b d (ws d) lsn) b ds ws lsn).reg l a = _
    rw [ih]
    split
    · rfl
    · exact State.commitShared_reg h

theorem State.Carries.commitDies {s : State} {b g b' : Nat} {ds : List Nat} {ws : Nat → List RegCell} {lsn k : Nat}
    {x : RegCell} (h : s.Carries b g lsn x) (hne : g ∉ ds) : (s.commitDies b' ds ws k).Carries b g lsn x := by
  induction ds generalizing s with
  | nil => exact h
  | cons d ds ih =>
    refine ih (s := if ws d = [] then s else s.commitShared b' d (ws d) k) ?_ (fun hm => hne (List.mem_cons_of_mem _ hm))
    split
    · exact h
    · exact h.commitShared (.inr (fun e => hne (e ▸ List.mem_cons_self)))

/-- Each die's copy gives the registers of its own cells their values. -/
theorem State.commitDies_carries {s : State} {b d : Nat} {ds : List Nat} {ws : Nat → List RegCell} {lsn a : Nat} {v : Word}
    (hd : d ∈ ds) (hn : ds.Nodup) (h : (a, v) ∈ ws d) (hu : ∀ w, (a, w) ∈ ws d → w = v) :
    (s.commitDies b ds ws lsn).Carries b d lsn (a, v) := by
  induction ds generalizing s with
  | nil => cases hd
  | cons e ds ih =>
    have hn' := List.nodup_cons.mp hn
    rcases List.mem_cons.mp hd with rfl | hd'
    · show (State.commitDies (if ws d = [] then s else s.commitShared b d (ws d) lsn) b ds ws lsn).Carries _ _ _ _
      refine State.Carries.commitDies ?_ hn'.1
      rw [if_neg (List.ne_nil_of_mem h)]
      exact State.commitShared_carries h hu
    · exact ih (s := if ws e = [] then s else s.commitShared b e (ws e) lsn) hd' hn'.2

/-! ### Copies by region and by lane -/

theorem State.Carries.regions {s : State} {b g lsn : Nat} {region : Nat → Nat} {l : Lane} {ws : List RegCell}
    {lsns rs : List Nat} {x : RegCell} (h : s.Carries b g lsn x) (hne : g ∉ rs) :
    (s.forEach rs (fun s r => s.addCommit b r l (ws.filter (fun c => region c.1 == r)) lsns false)).Carries b g lsn x := by
  induction rs generalizing s with
  | nil => exact h
  | cons d ds ih =>
    exact ih (h.addCommit (.inr (fun e => hne (e ▸ List.mem_cons_self)))) (fun hm => hne (List.mem_cons_of_mem _ hm))

theorem State.regions_carries {s : State} {b lsn a : Nat} {region : Nat → Nat} {l : Lane} {ws : List RegCell}
    {lsns rs : List Nat} {v : Word} (hr : region a ∈ rs) (hl : lsn ∈ lsns) (h : (a, v) ∈ ws)
    (hu : ∀ w, (a, w) ∈ ws → w = v) :
    (s.forEach rs (fun s r => s.addCommit b r l (ws.filter (fun c => region c.1 == r)) lsns false)).Carries b (region a)
      lsn (a, v) := by
  induction rs generalizing s with
  | nil => cases hr
  | cons d ds ih =>
    show (State.forEach (s.addCommit b d l _ lsns false) ds _).Carries _ _ _ _
    by_cases hd : region a ∈ ds
    · exact ih hd
    · refine State.Carries.regions ?_ hd
      rcases List.mem_cons.mp hr with hr | hr
      · subst hr
        refine State.addCommit_carries hl (List.mem_filter.mpr ⟨h, by simp⟩) ?_
        intro w hw
        exact hu w (List.mem_filter.mp hw).1
      · exact absurd hr hd

/-- A command's configuration split over regions: the copy of each register's region gives it its value. -/
theorem State.commitSharedSplit_carries {s : State} {b lsn a : Nat} {region : Nat → Nat} {ws : List RegCell} {v : Word}
    (h : (a, v) ∈ ws) (hu : ∀ w, (a, w) ∈ ws → w = v) :
    (s.commitSharedSplit b region ws lsn).Carries b (region a) lsn (a, v) :=
  State.regions_carries (List.mem_eraseDups.mpr (List.mem_map.mpr ⟨_, h, rfl⟩)) (List.mem_singleton.mpr rfl) h hu

theorem State.regions_reg {s : State} {b a : Nat} {region : Nat → Nat} {l k : Lane} {ws : List RegCell} {lsns rs : List Nat} :
    (s.forEach rs (fun s r => s.addCommit b r l (ws.filter (fun c => region c.1 == r)) lsns false)).reg k a =
      s.reg k a := by
  induction rs generalizing s with
  | nil => rfl
  | cons d ds ih =>
    exact (ih (s := s.addCommit b d l (ws.filter (fun c => region c.1 == d)) lsns false)).trans
      (State.addCommit_reg _ _ _ _ _ _ _ _ _)

theorem State.commitSharedSplit_reg {s : State} {b lsn a : Nat} {region : Nat → Nat} {ws : List RegCell} {l : Lane}
    (h : a < 2 ^ 32) : (s.commitSharedSplit b region ws lsn).reg l a = s.reg l a := by
  show (State.forEach ((s.writeShadows .E ws).writeShadows .W ws) _ _).reg l a = _
  rw [State.regions_reg, State.writeShadows_reg h, State.writeShadows_reg h]

theorem State.CarriesAt.writeShadows {s : State} {b g lsn : Nat} {k l : Lane} {ws : List RegCell} {x : RegCell}
    (h : s.CarriesAt k b g lsn x) : (s.writeShadows l ws).CarriesAt k b g lsn x :=
  h.of_commits (State.writeShadows_commits _ _ _)

theorem State.CarriesAt.lanes {s : State} {b g b' g' lsn n : Nat} {k : Lane} {ls : List Lane} {ws : List RegCell} {x : RegCell}
    (h : s.CarriesAt k b g lsn x) (hne : k ∉ ls) : (s.commitLanes ls b' g' ws n).CarriesAt k b g lsn x := by
  unfold State.commitLanes
  induction ls generalizing s with
  | nil => exact h
  | cons d ds ih =>
    exact ih (h.writeShadows.addCommit (.inr (.inr (fun e => hne (e ▸ List.mem_cons_self)))))
      (fun hm => hne (List.mem_cons_of_mem _ hm))

/-- A command's configuration of the lanes it names. -/
theorem State.commitLanes_carries {s : State} {b g lsn a : Nat} {k : Lane} {ls : List Lane} {ws : List RegCell} {v : Word}
    (hk : k ∈ ls) (h : (a, v) ∈ ws) (hu : ∀ w, (a, w) ∈ ws → w = v) :
    (s.commitLanes ls b g ws lsn).CarriesAt k b g lsn (a, v) := by
  induction ls generalizing s with
  | nil => cases hk
  | cons d ds ih =>
    show (State.commitLanes _ ds b g ws lsn).CarriesAt _ _ _ _ _
    by_cases hd : k ∈ ds
    · exact ih hd
    · refine State.CarriesAt.lanes ?_ hd
      rcases List.mem_cons.mp hk with rfl | hk
      · exact State.addCommit_carriesAt (List.mem_singleton.mpr rfl) h hu
      · exact absurd hk hd

theorem State.commitLanes_reg {s : State} {b g lsn a : Nat} {l : Lane} {ls : List Lane} {ws : List RegCell}
    (h : a < 2 ^ 32) : (s.commitLanes ls b g ws lsn).reg l a = s.reg l a := by
  induction ls generalizing s with
  | nil => rfl
  | cons d ds ih =>
    show (State.commitLanes ((s.writeShadows d ws).addCommit b g d ws [lsn] false) ds b g ws lsn).reg l a = _
    rw [ih, State.addCommit_reg, State.writeShadows_reg h]

theorem State.ifCommit_reg {s : State} {p : Prop} [Decidable p] {b g a : Nat} {l k : Lane} {ws : List RegCell}
    {lsns : List Nat} : (if p then s else s.addCommit b g l ws lsns false).reg k a = s.reg k a := by
  split
  · rfl
  · exact State.addCommit_reg _ _ _ _ _ _ _ _ _

theorem State.commitLhs_reg {s : State} {l k : Lane} {ws : List RegCell} {lsns : List Nat} {a : Nat} :
    (s.commitLhs l ws lsns).reg k a = s.reg k a := by
  unfold State.commitLhs
  have h : ∀ (ds : List Nat) (t : State), (t.forEach ds (fun s d =>
      let mine := ws.filter (fun c => wattrMask d c.1 != 0)
      if mine = [] then s else s.addCommit 21 (1 + d) l mine lsns false)).reg k a = t.reg k a := by
    intro ds
    induction ds with
    | nil => intro t; rfl
    | cons d ds ih =>
      intro t
      exact (ih (if ws.filter (fun c => wattrMask d c.1 != 0) = [] then t
        else t.addCommit 21 (1 + d) l (ws.filter (fun c => wattrMask d c.1 != 0)) lsns false)).trans State.ifCommit_reg
  exact (h _ _).trans State.ifCommit_reg

theorem State.commitLhsBoth_reg {s : State} {ws : List RegCell} {lsn a : Nat} {l : Lane} (h : a < 2 ^ 32) :
    (s.commitLhsBoth ws lsn).reg l a = s.reg l a := by
  unfold State.commitLhsBoth
  simp only []
  rw [State.commitLhs_reg, State.commitLhs_reg, State.writeShadows_reg h, State.writeShadows_reg h]

/-- The Lighthouses' own registers among a command's cells go with region 0. -/
theorem State.commitLhs_carries {s : State} {k : Lane} {ws : List RegCell} {lsns : List Nat} {lsn a : Nat} {v : Word}
    (hl : lsn ∈ lsns) (h : (a, v) ∈ ws) (hu : ∀ w, (a, w) ∈ ws → w = v) (ha : isResAttr a = false) :
    (s.commitLhs k ws lsns).Carries 21 0 lsn (a, v) := by
  have hm : (a, v) ∈ ws.filter (fun c => !isResAttr c.1) := List.mem_filter.mpr ⟨h, by simp [ha]⟩
  unfold State.commitLhs
  have hk : ∀ (ds : List Nat) (t : State) (l : Lane) (n : List Nat), t.Carries 21 0 lsn (a, v) →
      (t.forEach ds (fun s d =>
        let mine := ws.filter (fun c => wattrMask d c.1 != 0)
        if mine = [] then s else s.addCommit 21 (1 + d) l mine n false)).Carries 21 0 lsn (a, v) := by
    intro ds
    induction ds with
    | nil => intro t l n ht; exact ht
    | cons d ds ih =>
      intro t l n ht
      refine ih (if ws.filter (fun c => wattrMask d c.1 != 0) = [] then t
        else t.addCommit 21 (1 + d) l (ws.filter (fun c => wattrMask d c.1 != 0)) n false) l n ?_
      split
      · exact ht
      · exact ht.addCommit (.inr (by omega))
  refine hk _ _ _ _ ?_
  rw [if_neg (List.ne_nil_of_mem hm)]
  exact State.addCommit_carries hl hm (fun w hw => hu w (List.mem_filter.mp hw).1)

theorem State.commitLhsBoth_carries {s : State} {ws : List RegCell} {lsn a : Nat} {v : Word} (h : (a, v) ∈ ws)
    (hu : ∀ w, (a, w) ∈ ws → w = v) (ha : isResAttr a = false) : (s.commitLhsBoth ws lsn).Carries 21 0 lsn (a, v) := by
  unfold State.commitLhsBoth
  apply State.commitLhs_carries (List.mem_singleton.mpr rfl) h hu ha

/-! ### TIDE and CVC copies -/

theorem State.syncTidePend_commits (s : State) (l : Lane) : (s.syncTidePend l).commits = s.commits := by
  unfold State.syncTidePend State.setTBit State.setBitF State.setFld
  exact State.setReg_commits _ _ _ _

theorem State.syncTidePend_reg {s : State} {l k : Lane} {a : Nat} (h : a < 2 ^ 32) (hn : a ≠ R.TIDE_STATUS) :
    (s.syncTidePend l).reg k a = s.reg k a := by
  unfold State.syncTidePend State.setTBit State.setBitF
  exact State.reg_setFld_ne (regKey_ne (by decide) h (Ne.symm hn))

theorem State.commitTide_carries {s : State} {l : Lane} {ws : List RegCell} {lsns : List Nat} {lsn a : Nat} {v : Word}
    (hl : lsn ∈ lsns) (h : (a, v) ∈ ws) (hu : ∀ w, (a, w) ∈ ws → w = v) :
    ∃ g, (s.commitTide l ws lsns).CarriesAt l 9 g lsn (a, v) := by
  have h1 : ∀ t : State, (∃ g, t.CarriesAt l 9 g lsn (a, v)) → ∃ g, (t.syncTidePend l).CarriesAt l 9 g lsn (a, v) :=
    fun t ⟨g, hg⟩ => ⟨g, hg.of_commits (State.syncTidePend_commits t l)⟩
  unfold State.commitTide
  refine h1 _ ?_
  split
  · exact ⟨1, State.addCommit_carriesAt hl h hu⟩
  · by_cases he : tideEvtGroup a = true
    · have hm : (a, v) ∈ ws.filter (fun c => tideEvtGroup c.1) := List.mem_filter.mpr ⟨h, he⟩
      refine ⟨1, ?_⟩
      rw [if_neg (List.ne_nil_of_mem hm)]
      have hw := State.addCommit_carriesAt (s := s) (b := 9) (g := 1) (l := l) hl hm
        (fun x hx => hu x (List.mem_filter.mp hx).1)
      split
      · exact hw
      · exact hw.addCommit (.inr (.inl (by decide)))
    · have hm : (a, v) ∈ ws.filter (fun c => !tideEvtGroup c.1) := List.mem_filter.mpr ⟨h, by simp [he]⟩
      refine ⟨0, ?_⟩
      simp only []
      rw [if_neg (List.ne_nil_of_mem hm)]
      exact State.addCommit_carriesAt hl hm (fun x hx => hu x (List.mem_filter.mp hx).1)

theorem State.ite_reg {p : Prop} [Decidable p] {t u : State} {k : Lane} {a : Nat} {v : Word} (h1 : t.reg k a = v)
    (h2 : u.reg k a = v) : (if p then t else u).reg k a = v := by
  split
  · exact h1
  · exact h2

theorem State.commitTide_reg {s : State} {l k : Lane} {ws : List RegCell} {lsns : List Nat} {a : Nat} (h : a < 2 ^ 32)
    (hn : a ≠ R.TIDE_STATUS) : (s.commitTide l ws lsns).reg k a = s.reg k a := by
  unfold State.commitTide
  simp only []
  rw [State.syncTidePend_reg h hn]
  refine State.ite_reg ?_ ?_
  · exact State.addCommit_reg _ _ _ _ _ _ _ _ _
  · exact State.ifCommit_reg.trans State.ifCommit_reg

/-- A copy of the holder's TIDE carries a command's configuration; nothing else of the registers changes but the status of the
pending copies. -/
theorem State.commitTideCmd_carries {s : State} {r : Req} {ws : List RegCell} {lsn a : Nat} {v : Word} (h : (a, v) ∈ ws)
    (hu : ∀ w, (a, w) ∈ ws → w = v) :
    ∃ g, (s.commitTideCmd r ws lsn).CarriesAt (s.holderOr r.lane) 9 g lsn (a, v) := by
  unfold State.commitTideCmd
  exact State.commitTide_carries (List.mem_singleton.mpr rfl) h hu

theorem State.commitTideCmd_reg {s : State} {r : Req} {ws : List RegCell} {lsn a : Nat} {l : Lane} (h : a < 2 ^ 32)
    (hn : a ≠ R.TIDE_STATUS) : (s.commitTideCmd r ws lsn).reg l a = s.reg l a := by
  unfold State.commitTideCmd
  simp only []
  rw [State.commitTide_reg h hn, State.commitTide_reg h hn, State.writeShadows_reg h, State.writeShadows_reg h]

theorem State.pendCommit_none {s : State} {b g : Nat} {l : Lane} (h : ∀ c ∈ s.commits, ¬(c.block = b ∧ c.region = g ∧ c.lane = l)) :
    s.pendCommit b g l = none := by
  have hf : ∀ (p : Commit → Bool), s.commits.find? (fun c => c.isAt b g l && p c) = none := by
    intro p
    rw [List.find?_eq_none]
    intro c hc
    have := h c hc
    unfold Commit.isAt
    simp only [Bool.and_eq_true, beq_iff_eq, not_and]
    intro h1
    exact absurd ⟨h1.1.1, h1.1.2, h1.2⟩ this
  have hg := hf (fun _ => true)
  simp only [Bool.and_true] at hg
  unfold State.pendCommit
  rw [hf (fun c => !c.carried), hg]

/-- Where no idle node's copy is pending in the lane, none takes effect now. -/
theorem State.applyNodes_idle {s : State} {l : Lane}
    (h : ∀ c ∈ s.commits, c.block = 10 → c.lane = l → ∀ i, i < 16 → c.region = 32 + i →
      ∃ x, (s.cvc l).chain = some x ∧ i ∈ chainNodes (s.reg l) 16 x.1 ++ [x.2]) : s.applyNodes l = s := by
  unfold State.applyNodes
  extract_lets busy
  have hn : ∀ i, i < 16 → busy.contains i = false → s.pendCommit 10 (32 + i) l = none := by
    intro i hi hb
    apply State.pendCommit_none
    rintro c hc ⟨h1, h2, h3⟩
    obtain ⟨x, hx, hm⟩ := h c hc h1 h3 i hi h2
    have : busy = chainNodes (s.reg l) 16 x.1 ++ [x.2] := by
      show (match (s.cvc l).chain with | some c => chainNodes (s.reg l) 16 c.1 ++ [c.2] | none => []) = _
      rw [hx]
    rw [this, List.contains_iff_mem.mpr hm] at hb
    cases hb
  have hall : ∀ (is : List Nat), (∀ i ∈ is, i < 16 ∧ busy.contains i = false) →
      s.forEach is (fun s i => s.applyCvc l (32 + i)) = s := by
    intro is
    induction is with
    | nil => intro _; rfl
    | cons i is ih =>
      intro hi
      have h1 := hi i List.mem_cons_self
      have h2 : s.applyCvc l (32 + i) = s := by
        unfold State.applyCvc
        rw [hn i h1.1 h1.2]
      show State.forEach (s.applyCvc l (32 + i)) is _ = s
      rw [h2]
      exact ih (fun j hj => hi j (List.mem_cons_of_mem _ hj))
  apply hall
  intro i hi
  have := List.mem_filter.mp hi
  exact ⟨List.mem_range.mp this.1, by simpa using this.2⟩

end Sys2Proof.Machine
end

