-- ==== Sys2Proof/Laws/Accepted.lean ====
section
/-! SUPPORT. An accepted command that passes and whose turn comes at once: what is done before its own work leaves every
register outside the ledger and the command interface and every shadow, and so does its answer. -/

namespace Sys2Proof.Machine

theorem State.RegsAside.refl (s : State) : s.RegsAside s := fun _ _ _ => rfl

theorem State.RegsAside.trans {s t u : State} (h : s.RegsAside t) (g : t.RegsAside u) : s.RegsAside u :=
  fun l a ha => (g l a ha).trans (h l a ha)

theorem State.RegsAside.of_regs {s t : State} (h : t.regs = s.regs) : s.RegsAside t :=
  fun l a _ => by unfold State.reg; rw [h]

theorem State.RegsAside.fld {s t : State} (h : s.RegsAside t) (l : Lane) {a : Nat} (ha : Aside a) (f : Fld) :
    t.fld l a f = s.fld l a f := by
  unfold State.fld
  rw [h l a ha]

theorem State.RegsAside.lst {s t : State} (h : s.RegsAside t) (l : Lane) : t.lst l = s.lst l :=
  h.fld l ⟨by decide, by decide⟩ _

theorem State.RegsAside.holder {s t : State} (h : s.RegsAside t) : t.holder = s.holder := by
  unfold State.holder
  rw [h.lst, h.lst]

theorem State.RegsAside.holderOr {s t : State} (h : s.RegsAside t) (l : Lane) : t.holderOr l = s.holderOr l := by
  unfold State.holderOr
  rw [h.holder]

/-! ### Shadows -/

/-- No shadow changes. -/
def State.ShadowsSame (s t : State) : Prop := ∀ l a, t.shadow l a = s.shadow l a

theorem State.ShadowsSame.trans {s t u : State} (h : s.ShadowsSame t) (g : t.ShadowsSame u) : s.ShadowsSame u :=
  fun l a => (g l a).trans (h l a)

theorem State.ShadowsSame.of_regs {s t : State} (h : t.regs = s.regs) : s.ShadowsSame t :=
  fun l a => by unfold State.shadow; rw [h]

theorem State.setReg_shadows {s : State} {l : Lane} {a : Nat} {v : Word} (ha : a < 2 ^ 32) :
    s.ShadowsSame (s.setReg l a v) := fun k b => rfGet_rfPut_ne _ _ _ _ (Ne.symm (shadowKey_ne ha))

theorem State.setFld_shadows {s : State} {l : Lane} {a : Nat} {f : Fld} {v : Nat} (ha : a < 2 ^ 32) :
    s.ShadowsSame (s.setFld l a f v) := State.setReg_shadows ha

theorem State.setFldBoth_shadows {s : State} {a : Nat} {f : Fld} {v : Nat} (ha : a < 2 ^ 32) :
    s.ShadowsSame (s.setFldBoth a f v) := (State.setFld_shadows ha).trans (State.setFld_shadows ha)

theorem State.count_shadows {s : State} {l : Lane} {a : Nat} (ha : a < 2 ^ 32) :
    s.ShadowsSame (s.count l a) := State.setReg_shadows ha

theorem State.syncLedgLane_shadows {s : State} {k : Lane} : s.ShadowsSame (s.syncLedgLane k) := by
  intro l a
  have h1 : ∀ (t : State) (b : Nat) (f : Fld) (v : Nat), b < 2 ^ 32 → (t.setFld k b f v).shadow l a = t.shadow l a :=
    fun t b f v hb => State.setFld_shadows hb l a
  have h2 : ∀ (t : State) (b : Nat) (v : Word), b < 2 ^ 32 → (t.setReg k b v).shadow l a = t.shadow l a :=
    fun t b v hb => State.setReg_shadows hb l a
  unfold State.syncLedgLane State.setBitF
  simp only []
  repeat (first | rw [h1 _ _ _ _ (by decide)] | rw [h2 _ _ _ (by decide)])

theorem State.syncLedg_shadows {s : State} : s.ShadowsSame s.syncLedg :=
  State.syncLedgLane_shadows.trans State.syncLedgLane_shadows

theorem State.syncQuota_shadows {s : State} {q : Nat} : s.ShadowsSame (s.syncQuota q) := by
  unfold State.syncQuota
  apply State.setFldBoth_shadows
  unfold R.LEDG_QUSED
  omega

theorem State.accept_shadows {s : State} {op : Nat} {r : Req} : s.ShadowsSame (s.accept op r) := by
  unfold State.accept
  simp only []
  refine State.ShadowsSame.trans ?_ State.syncQuota_shadows
  refine State.ShadowsSame.trans ?_ State.syncLedg_shadows
  refine State.ShadowsSame.trans ?_ (State.count_shadows (by decide))
  refine State.ShadowsSame.trans ?_ (State.count_shadows (by decide))
  exact State.ShadowsSame.of_regs rfl

theorem taken_shadows {s : State} {r : Req} : s.ShadowsSame (taken s r).1 := by
  unfold taken demoteUrgent
  split
  · exact (State.count_shadows (by decide)).trans (State.count_shadows (by decide))
  · exact State.count_shadows (by decide)

/-! ### Before and after a command's own work -/

theorem taken_only {s : State} {r : Req} (hi : s.Inv) : State.Kept ⟨0x8, s⟩ (taken s r).1 := by
  unfold taken
  apply demoteUrgent_kept (Sub.refl _)
  exact State.count_kept (Sub.refl _) (State.Kept.refl hi)

theorem answerAccepted_after {c : CmdSpec} {v : State} {r : Req} {lsn : Nat} (hv : v.Inv) :
    State.Kept ⟨0x6001d8, v⟩ (answerAccepted c v r lsn) := by
  have hm : Sub 0x6001d8 0x6001d8 := Sub.refl _
  have h1 : State.Kept ⟨0x6001d8, v⟩ v := State.Kept.refl hv
  unfold answerAccepted
  split
  · split
    · simp only []
      apply State.respond_kept (Sub.of hm (by decide))
      apply State.syncQuota_kept (Sub.of hm (by decide))
      apply State.syncLedg_kept (Sub.of hm (by decide))
      have h2 := State.mapEntry_kept (lsn := lsn) (f := fun e => { e with st := .reported }) (Sub.of hm (by decide)) h1
        (fun _ => rfl)
      exact State.setLed_kept (Sub.of hm (by decide)) h2 (Ledger.Fresh.same h2.led)
    · exact State.respond_kept (Sub.of hm (by decide)) h1
  · exact State.respond_kept (Sub.of hm (by decide)) h1

theorem State.begin_regs (s : State) (n : Nat) : (s.begin n).regs = s.regs := rfl

theorem started_kept {c : CmdSpec} {s : State} {r : Req} (hi : s.Inv) (hb : ∀ t q, c.before t q = t) :
    State.Kept ⟨0x108, s⟩ ((entered c s r).begin s.led.nextLsn) := by
  have hm : Sub 0x108 0x108 := Sub.refl _
  unfold entered
  simp only [hb]
  apply State.begin_kept (Sub.of hm (by decide))
  apply State.accept_kept (Sub.of hm (by decide))
  apply demoteUrgent_kept (Sub.of hm (by decide))
  exact State.count_kept (Sub.of hm (by decide)) (State.Kept.refl hi)

theorem started_regs {c : CmdSpec} {s : State} {r : Req} (hb : ∀ t q, c.before t q = t) :
    s.RegsAside ((entered c s r).begin s.led.nextLsn) := by
  refine State.RegsAside.trans (t := entered c s r) ?_ (State.RegsAside.of_regs (State.begin_regs _ _))
  intro l a h
  unfold entered
  simp only [hb]
  rw [State.accept_reg h, taken_reg h]

theorem started_shadows {c : CmdSpec} {s : State} {r : Req} (hb : ∀ t q, c.before t q = t) :
    s.ShadowsSame ((entered c s r).begin s.led.nextLsn) := by
  have h : s.ShadowsSame (entered c s r) := by
    unfold entered
    simp only [hb]
    exact taken_shadows.trans State.accept_shadows
  exact h.trans (State.ShadowsSame.of_regs (State.begin_regs _ _))

/-- An accepted command that passes, and whose turn comes at once: its own work is done on a state that differs from the old
one in the ledger and the registers of the ledger and the command interface, and its answer changes no more than these, a
response slot or a session. -/
theorem runScs_accepted {c : CmdSpec} {s : State} {r : Req} (hi : s.Inv) (hw : r.src.wf = true) (ha : c.accepted = true)
    (hb : ∀ t q, c.before t q = t) (hk : ∀ u : State, CmdSpec.Kept ⟨2 ^ 80 - 1, u⟩ c) (hp : passes c s r = true)
    (hs : starts c s r = true) :
    ∃ u t, runScs c r s = .next t ∧ u.Kept ⟨0x108, s⟩ ∧ s.RegsAside u ∧ s.ShadowsSame u ∧
      t.Kept ⟨0x6001d8, c.exec u (taken s r).2 s.led.nextLsn⟩ ∧ (c.exec u (taken s r).2 s.led.nextLsn).RegsAside t := by
  have h1 := started_kept (c := c) (r := r) hi hb
  have hv := ((hk ((entered c s r).begin s.led.nextLsn)).exec _ (taken s r).2 s.led.nextLsn (State.Kept.refl h1.inv)).inv
  refine ⟨(entered c s r).begin s.led.nextLsn, answerAccepted c _ (taken s r).2 s.led.nextLsn, ?_, h1, started_regs hb, started_shadows hb, answerAccepted_after hv, ?_⟩
  · unfold runScs
    rw [runCmd_start hp ha hs (fun t q => by rw [hb])]
  · intro l a h
    exact answerAccepted_reg (by rw [taken_src]; exact hw) h

theorem taken_reg_of_ne {s : State} {r : Req} {l : Lane} {a : Nat} (ha : a < 2 ^ 32)
    (h : a ≠ R.SCSM_CNT 0 ∧ a ≠ R.SCSM_CNT 5) : (taken s r).1.reg l a = s.reg l a := by
  have h0 : ∀ k, (s.count k (R.SCSM_CNT 0)).reg l a = s.reg l a :=
    fun k => State.reg_count_ne (regKey_ne (by decide) ha (Ne.symm h.1))
  unfold taken demoteUrgent
  split
  · show (State.count _ _ _).reg l a = _
    rw [State.reg_count_ne (regKey_ne (by decide) ha (Ne.symm h.2)), h0]
  · exact h0 _

@[simp] theorem taken_servedBy (s : State) (r : Req) (l : Lane) : (taken s r).1.servedBy l = s.servedBy l := by
  have h : ∀ k, (taken s r).1.serving k = s.serving k := by
    intro k
    unfold State.serving State.bit State.fld
    rw [taken_reg_of_ne (by decide) ⟨by decide, by decide⟩]
  unfold State.servedBy
  rw [h, h]

theorem clearBit_three (n : Nat) : (clearBit n 3).testBit 2 = n.testBit 2 := by
  unfold clearBit
  split
  · rename_i h
    have hn : 2 ^ 3 ≤ n := Nat.ge_two_pow_of_testBit h
    simp only [Nat.testBit_eq_decide_div_mod_eq, decide_eq_decide]
    omega
  · rfl

@[simp] theorem taken_bufResponse (s : State) (r : Req) : (taken s r).2.bufResponse = r.bufResponse := by
  rcases taken_req s r with h | h
  · rw [h]
  · rw [h]
    exact clearBit_three _

theorem answered_taken {s : State} {r : Req} {st lsn : Nat} {data : List Byte} {t : State} :
    Answered (taken s r).1 (taken s r).2 st lsn data t = Answered s r st lsn data t := by
  unfold Answered
  simp only [taken_servedBy, taken_lane, taken_src, taken_slot, taken_reqId, taken_bufResponse]

/-- A query that passes is answered with its data, and changes no register outside the command interface. -/
theorem runScs_answered {c : CmdSpec} {s : State} {r : Req} (hi : s.Inv) (hw : r.src.wf = true) (ha : c.accepted = false)
    (he : ∀ t q, c.effect t q = t) (hp : passes c s r = true) :
    ∃ t, runScs c r s = .next t ∧ Answered s r SCS_OK 0 (c.answer (taken s r).1 (taken s r).2) t ∧ s.RegsAside t := by
  have hk : rfWf (taken s r).1.regs = true := (taken_only hi).regs
  have hn : (taken s r).2.src.wf = true := by rw [taken_src]; exact hw
  refine ⟨(taken s r).1.respond (taken s r).2 SCS_OK 0 (c.answer (taken s r).1 (taken s r).2), ?_, ?_, ?_⟩
  · unfold runScs
    rw [runCmd_query hp ha, he]
  · have := State.respond_answered hk (taken s r).2 SCS_OK 0 (c.answer (taken s r).1 (taken s r).2) hn
    rw [← answered_taken]
    exact this
  · intro l a h
    rw [State.respond_reg hn h, taken_reg h]

/-- What a ready accepted command does, from its own work `c.exec` on a state with the old shadows and registers. -/
theorem Ready.completes {c : CmdSpec} {s : State} {r : Req} {P : State → Prop} (h : Ready c s r) (ha : c.accepted = true)
    (hb : ∀ t q, c.before t q = t) (hk : ∀ u : State, CmdSpec.Kept ⟨2 ^ 80 - 1, u⟩ c)
    (hP : ∀ u t, u.Kept ⟨0x108, s⟩ → s.RegsAside u → s.ShadowsSame u →
      t.Kept ⟨0x6001d8, c.exec u (taken s r).2 s.led.nextLsn⟩ → (c.exec u (taken s r).2 s.led.nextLsn).RegsAside t → P t) :
    Completes (runScs c r s) P := by
  obtain ⟨u, t, h1, h2, h3, h4, h5, h6⟩ := runScs_accepted h.1 h.2.1 ha hb hk h.2.2.1 (h.2.2.2 ha)
  exact ⟨t, h1, hP u t h2 h3 h4 h5 h6⟩

theorem State.Kept.fields {fx : Nat} {b t : State} (h : t.Kept ⟨fx, b⟩) : State.Only fx b t := h.only

theorem State.Kept.commits_of_answer {v t : State} (h : t.Kept ⟨0x6001d8, v⟩) : t.commits = v.commits :=
  h.fields.commits.resolve_right (by decide)

theorem State.cfgFld_same {s u : State} {r q : Req} (h1 : s.RegsAside u) (h2 : s.ShadowsSame u) (hq : q.lane = r.lane)
    (a : Nat) (f : Fld) : u.cfgFld q a f = getF (s.shadow (s.holderOr r.lane) a) f := by
  unfold State.cfgFld State.cfgLane
  rw [h1.holderOr, h2, hq]

theorem commitDies_aside {u : State} {b n : Nat} {ds : List Nat} {ws : Nat → List RegCell} :
    u.RegsAside (u.commitDies b ds ws n) := fun _ _ h => State.commitDies_reg h.1

theorem commitShared_aside {u : State} {b g n : Nat} {ws : List RegCell} : u.RegsAside (u.commitShared b g ws n) :=
  fun _ _ h => State.commitShared_reg h.1

theorem commitLocal_aside {u : State} {b g n : Nat} {ws : List RegCell} : u.RegsAside (u.commitLocal b g ws n) :=
  fun _ _ h => State.commitLocal_reg h.1

/-- Cells of different registers: each is the only one of its register. -/
theorem cells_unique {ws : List RegCell} (h : (ws.map Prod.fst).Nodup) {a : Nat} {v w : Word} (hv : (a, v) ∈ ws)
    (hw : (a, w) ∈ ws) : w = v := by
  induction ws with
  | nil => cases hv
  | cons c cs ih =>
    have hn := List.nodup_cons.mp h
    have hin : ∀ x, (a, x) ∈ cs → a ∈ cs.map Prod.fst := fun x hx => List.mem_map.mpr ⟨_, hx, rfl⟩
    rcases List.mem_cons.mp hv with hv | hv <;> rcases List.mem_cons.mp hw with hw | hw
    · rw [← hv] at hw
      exact (Prod.mk.inj hw).2
    · exact absurd (hin _ hw) (by rw [← hv] at hn; exact hn.1)
    · exact absurd (hin _ hv) (by rw [← hw] at hn; exact hn.1)
    · exact ih hn.2 hv hw

/-- A ready command that makes copies on several dies. -/
theorem Ready.dies {c : CmdSpec} {s : State} {r : Req} {P : State → Prop} (h : Ready c s r) (ha : c.accepted = true)
    (hb : ∀ t q, c.before t q = t) (hk : ∀ u : State, CmdSpec.Kept ⟨2 ^ 80 - 1, u⟩ c) (b : Nat) (ds : Req → List Nat)
    (W : State → Req → Nat → List RegCell) (he : ∀ u q n, c.exec u q n = u.commitDies b (ds q) (W u q) n)
    (hn : ∀ q, (ds q).Nodup)
    (hP : ∀ u t q, s.RegsAside u → s.ShadowsSame u → q.payload = r.payload → q.lane = r.lane → s.RegsAside t →
      (∀ d a v, d ∈ ds q → (a, v) ∈ W u q d → (∀ w, (a, w) ∈ W u q d → w = v) → t.Carries b d s.led.nextLsn (a, v)) →
      P t) :
    Completes (runScs c r s) P := by
  refine h.completes ha hb hk ?_
  intro u t h1 h2 h3 h4 h5
  rw [he] at h4 h5
  refine hP u t (taken s r).2 h2 h3 (taken_payload s r) (taken_lane s r) ((h2.trans commitDies_aside).trans h5) ?_
  intro d a v hd hm hu
  exact (State.commitDies_carries hd (hn _) hm hu).of_commits h4.commits_of_answer

/-- A ready command that makes one copy of a shared die's region. -/
theorem Ready.shared {c : CmdSpec} {s : State} {r : Req} {P : State → Prop} (h : Ready c s r) (ha : c.accepted = true)
    (hb : ∀ t q, c.before t q = t) (hk : ∀ u : State, CmdSpec.Kept ⟨2 ^ 80 - 1, u⟩ c) (b : Nat) (g : Req → Nat)
    (W : State → Req → List RegCell) (he : ∀ u q n, c.exec u q n = u.commitShared b (g q) (W u q) n)
    (hP : ∀ u t q, s.RegsAside u → s.ShadowsSame u → q.payload = r.payload → q.lane = r.lane → s.RegsAside t →
      (∀ a v, (a, v) ∈ W u q → (∀ w, (a, w) ∈ W u q → w = v) → t.Carries b (g q) s.led.nextLsn (a, v)) → P t) :
    Completes (runScs c r s) P := by
  refine h.completes ha hb hk ?_
  intro u t h1 h2 h3 h4 h5
  rw [he] at h4 h5
  refine hP u t (taken s r).2 h2 h3 (taken_payload s r) (taken_lane s r) ((h2.trans commitShared_aside).trans h5) ?_
  intro a v hm hu
  exact (State.commitShared_carries hm hu).of_commits h4.commits_of_answer

/-- A ready command that makes one copy of a lane-local block's region. -/
theorem Ready.local {c : CmdSpec} {s : State} {r : Req} {P : State → Prop} (h : Ready c s r) (ha : c.accepted = true)
    (hb : ∀ t q, c.before t q = t) (hk : ∀ u : State, CmdSpec.Kept ⟨2 ^ 80 - 1, u⟩ c) (b : Nat) (g : Req → Nat)
    (W : State → Req → List RegCell) (he : ∀ u q n, c.exec u q n = u.commitLocal b (g q) (W u q) n)
    (hP : ∀ u t q, s.RegsAside u → s.ShadowsSame u → q.payload = r.payload → q.lane = r.lane → s.RegsAside t →
      (∀ a v, (a, v) ∈ W u q → (∀ w, (a, w) ∈ W u q → w = v) → t.Carries b (g q) s.led.nextLsn (a, v)) → P t) :
    Completes (runScs c r s) P := by
  refine h.completes ha hb hk ?_
  intro u t h1 h2 h3 h4 h5
  rw [he] at h4 h5
  refine hP u t (taken s r).2 h2 h3 (taken_payload s r) (taken_lane s r) ((h2.trans commitLocal_aside).trans h5) ?_
  intro a v hm hu
  exact (State.commitLocal_carries hm hu).of_commits h4.commits_of_answer

theorem Req.u_eq {q r : Req} (h : q.payload = r.payload) (o n : Nat) : q.u o n = r.u o n := by simp [Req.u, h]
theorem Req.w_eq {q r : Req} (h : q.payload = r.payload) (o : Nat) : q.w o = r.w o := by simp [Req.w, h]
theorem Req.u8_eq {q r : Req} (h : q.payload = r.payload) (o : Nat) : q.u8 o = r.u8 o := Req.u_eq h o 1
theorem Req.u16_eq {q r : Req} (h : q.payload = r.payload) (o : Nat) : q.u16 o = r.u16 o := Req.u_eq h o 2
theorem Req.u32_eq {q r : Req} (h : q.payload = r.payload) (o : Nat) : q.u32 o = r.u32 o := Req.u_eq h o 4

/-- Consecutive registers as bytes, one word after the other. -/
theorem State.regBytes_words (s : State) (l : Lane) (a n : Nat) :
    s.regBytes l a n = ((List.range n).map (fun k => wordBytes (s.reg l (a + 4 * k)))).flatten := by
  induction n generalizing a with
  | zero => rfl
  | succ n ih =>
    rw [List.range_succ_eq_map, List.map_cons, List.flatten_cons, List.map_map, State.regBytes, ih]
    have h : ((fun k => wordBytes (s.reg l (a + 4 * k))) ∘ Nat.succ) = fun k => wordBytes (s.reg l (a + 4 + 4 * k)) := by
      funext k
      simp only [Function.comp]
      rw [show a + 4 * k.succ = a + 4 + 4 * k by omega]
    simp only [h, Nat.mul_zero, Nat.add_zero]

theorem leNat_lt (bs : List Byte) : leNat bs < 256 ^ bs.length := by
  induction bs with
  | nil => simp [leNat]
  | cons b bs ih =>
    simp only [leNat, List.length_cons, Nat.pow_succ]
    have := b.isLt
    omega

theorem Req.u8_lt (r : Req) (o : Nat) : r.u8 o < 256 := by
  show leNat (slice r.payload o 1) < 256 ^ 1
  refine Nat.lt_of_lt_of_le (leNat_lt _) (Nat.pow_le_pow_right (by decide) ?_)
  unfold slice
  rw [List.length_take]
  omega

theorem Req.u16_lt (r : Req) (o : Nat) : r.u16 o < 65536 := by
  show leNat (slice r.payload o 2) < 256 ^ 2
  refine Nat.lt_of_lt_of_le (leNat_lt _) (Nat.pow_le_pow_right (by decide) ?_)
  unfold slice
  rw [List.length_take]
  omega

/-- A ready query is answered with its data. -/
theorem Ready.answers {c : CmdSpec} {s : State} {r : Req} {d : List Byte} (h : Ready c s r) (ha : c.accepted = false)
    (he : ∀ t q, c.effect t q = t) (hd : c.answer (taken s r).1 (taken s r).2 = d) :
    Completes (runScs c r s) (fun t => Answered s r SCS_OK 0 d t ∧ s.RegsAside t) := by
  obtain ⟨t, h1, h2, h3⟩ := runScs_answered h.1 h.2.1 ha he h.2.2.1
  exact ⟨t, h1, hd ▸ h2, h3⟩

theorem taken_fields (s : State) (r : Req) : (taken s r).1.now = s.now ∧ (taken s r).1.led = s.led ∧
    (taken s r).1.tideE = s.tideE ∧ (taken s r).1.tideW = s.tideW ∧ (taken s r).1.laneE = s.laneE ∧
    (taken s r).1.laneW = s.laneW ∧ (taken s r).1.freeCtr = s.freeCtr ∧ (taken s r).1.harbE = s.harbE ∧
    (taken s r).1.harbW = s.harbW ∧ (taken s r).1.harbInE = s.harbInE ∧ (taken s r).1.harbInW = s.harbInW ∧
    (taken s r).1.tbs = s.tbs ∧ (taken s r).1.calUs = s.calUs ∧ (taken s r).1.nms = s.nms := by
  have h0 : ∀ (t : State) (k : Lane) (a : Nat), (t.count k a).now = t.now ∧ (t.count k a).led = t.led ∧
      (t.count k a).tideE = t.tideE ∧ (t.count k a).tideW = t.tideW ∧ (t.count k a).laneE = t.laneE ∧
      (t.count k a).laneW = t.laneW ∧ (t.count k a).freeCtr = t.freeCtr ∧ (t.count k a).harbE = t.harbE ∧
      (t.count k a).harbW = t.harbW ∧ (t.count k a).harbInE = t.harbInE ∧ (t.count k a).harbInW = t.harbInW ∧
      (t.count k a).tbs = t.tbs ∧ (t.count k a).calUs = t.calUs ∧ (t.count k a).nms = t.nms := by
    intro t k a
    simp only [State.count_now, State.count_led, State.count_tideE, State.count_tideW, State.count_laneE,
      State.count_laneW, State.count_freeCtr, State.count_harbE, State.count_harbW, State.count_harbInE,
      State.count_harbInW, State.count_tbs, State.count_calUs, State.count_nms, and_self]
  unfold taken demoteUrgent
  split
  · obtain ⟨a1, a2, a3, a4, a5, a6, a7, a8, a9, a10, a11, a12, a13, a14⟩ :=
      h0 (s.count ((s.servedBy r.lane).getD r.lane) (R.SCSM_CNT 0))
        (((s.count ((s.servedBy r.lane).getD r.lane) (R.SCSM_CNT 0)).servedBy r.lane).getD r.lane) (R.SCSM_CNT 5)
    obtain ⟨b1, b2, b3, b4, b5, b6, b7, b8, b9, b10, b11, b12, b13, b14⟩ :=
      h0 s ((s.servedBy r.lane).getD r.lane) (R.SCSM_CNT 0)
    exact ⟨a1.trans b1, a2.trans b2, a3.trans b3, a4.trans b4, a5.trans b5, a6.trans b6, a7.trans b7, a8.trans b8,
      a9.trans b9, a10.trans b10, a11.trans b11, a12.trans b12, a13.trans b13, a14.trans b14⟩
  · exact h0 _ _ _

/-- Two requests that differ in no more than their URGENT flag. -/
structure Req.Same (q r : Req) : Prop where
  lane : q.lane = r.lane
  src : q.src = r.src
  payload : q.payload = r.payload
  sigOk : q.sigOk = r.sigOk
  hwFault : q.hwFault = r.hwFault
  u : ∀ o n, q.u o n = r.u o n
  u8 : ∀ o, q.u8 o = r.u8 o
  u16 : ∀ o, q.u16 o = r.u16 o
  u32 : ∀ o, q.u32 o = r.u32 o
  w : ∀ o, q.w o = r.w o
  bytes : ∀ o n, q.bytes o n = r.bytes o n
  world : q.world = r.world

theorem taken_same (s : State) (r : Req) : Req.Same (taken s r).2 r :=
  ⟨taken_lane s r, taken_src s r, taken_payload s r, taken_sigOk s r, taken_hwFault s r, taken_u s r, taken_u8 s r,
    taken_u16 s r, taken_u32 s r, taken_w s r, taken_bytes s r, taken_world s r⟩

/-- A ready accepted command: its own work on a state with the old shadows and registers, and what its answer leaves. -/
theorem Ready.work {c : CmdSpec} {s : State} {r : Req} {P : State → Prop} (h : Ready c s r) (ha : c.accepted = true)
    (hb : ∀ t q, c.before t q = t) (hk : ∀ u : State, CmdSpec.Kept ⟨2 ^ 80 - 1, u⟩ c)
    (hP : ∀ u q t, u.Kept ⟨0x108, s⟩ → s.RegsAside u → s.ShadowsSame u → Req.Same q r →
      t.Kept ⟨0x6001d8, c.exec u q s.led.nextLsn⟩ → (c.exec u q s.led.nextLsn).RegsAside t → P t) :
    Completes (runScs c r s) P :=
  h.completes ha hb hk (fun u t h1 h2 h3 h4 h5 => hP u (taken s r).2 t h1 h2 h3 (taken_same s r) h4 h5)

theorem commitSharedSplit_aside {u : State} {b n : Nat} {g : Nat → Nat} {ws : List RegCell} :
    u.RegsAside (u.commitSharedSplit b g ws n) := fun _ _ h => State.commitSharedSplit_reg h.1

theorem commitLanes_aside {u : State} {b g n : Nat} {ls : List Lane} {ws : List RegCell} :
    u.RegsAside (u.commitLanes ls b g ws n) := fun _ _ h => State.commitLanes_reg h.1

theorem commitLhsBoth_aside {u : State} {n : Nat} {ws : List RegCell} :
    u.RegsAside (u.commitLhsBoth ws n) := fun _ _ h => State.commitLhsBoth_reg h.1

end Sys2Proof.Machine
end

