-- ==== Sys2Proof/Laws/Served.lean ====
section
/-! SUPPORT. What a ready command changes beside what the command interface itself may change. -/

namespace Sys2Proof.Machine

/-- A weaker frame. -/
theorem State.Only.weaken {m fx : Nat} {s t : State} (hm : Sub m fx) (h : State.Only m s t) : State.Only fx s t :=
  ⟨h.freeCtr.imp_right (hm.bit 2), h.regs.imp_right (hm.bit 3), h.mem.imp_right (hm.bit 4), h.bus.imp_right (hm.bit
    5), h.irqs.imp_right (hm.bit 6), h.outbox.imp_right (hm.bit 7), h.led.imp_right (hm.bit 8), h.commits.imp_right
    (hm.bit 9), h.nums.imp_right (hm.bit 10), h.p0.imp_right (hm.bit 11), h.p1.imp_right (hm.bit 12), h.f0.imp_right
    (hm.bit 13), h.f1.imp_right (hm.bit 14), h.fi.imp_right (hm.bit 15), h.cmn.imp_right (hm.bit 16),
    h.arb.imp_right (hm.bit 17), h.ferry.imp_right (hm.bit 18), h.laneE.imp_right (hm.bit 19), h.laneW.imp_right
    (hm.bit 20), h.sessions.imp_right (hm.bit 21), h.scs.imp_right (hm.bit 22), h.mod_.imp_right (hm.bit 23),
    h.urgents.imp_right (hm.bit 24), h.outs.imp_right (hm.bit 25), h.feeds.imp_right (hm.bit 26), h.pw0.imp_right
    (hm.bit 27), h.pw1.imp_right (hm.bit 28), h.fcs.imp_right (hm.bit 29), h.fd0.imp_right (hm.bit 30),
    h.fd1.imp_right (hm.bit 31), h.fd2.imp_right (hm.bit 32), h.stamps.imp_right (hm.bit 33), h.tideE.imp_right
    (hm.bit 34), h.tideW.imp_right (hm.bit 35), h.tevArms.imp_right (hm.bit 36), h.evtRecs.imp_right (hm.bit 37),
    h.cvcE.imp_right (hm.bit 38), h.cvcW.imp_right (hm.bit 39), h.sels.imp_right (hm.bit 40), h.pwmRecs.imp_right
    (hm.bit 41), h.pwmWork.imp_right (hm.bit 42), h.cmnRecs.imp_right (hm.bit 43), h.canRxE.imp_right (hm.bit 44),
    h.canRxW.imp_right (hm.bit 45), h.canPorts.imp_right (hm.bit 46), h.fltQ.imp_right (hm.bit 47),
    h.canWork.imp_right (hm.bit 48), h.canHeld.imp_right (hm.bit 49), h.lins.imp_right (hm.bit 50),
    h.linWork.imp_right (hm.bit 51), h.tbs.imp_right (hm.bit 52), h.eth.imp_right (hm.bit 53), h.harbInE.imp_right
    (hm.bit 54), h.harbInW.imp_right (hm.bit 55), h.harbHeld.imp_right (hm.bit 56), h.pduFails.imp_right (hm.bit
    57), h.harbE.imp_right (hm.bit 58), h.harbW.imp_right (hm.bit 59), h.cw.imp_right (hm.bit 60), h.nms.imp_right
    (hm.bit 61), h.grants.imp_right (hm.bit 62), h.vfOps.imp_right (hm.bit 63), h.quiesces.imp_right (hm.bit 64),
    h.iovQs.imp_right (hm.bit 65), h.potUpds.imp_right (hm.bit 66), h.copies.imp_right (hm.bit 67),
    h.lstepTests.imp_right (hm.bit 68), h.tamperLog.imp_right (hm.bit 69), h.secE.imp_right (hm.bit 70),
    h.secW.imp_right (hm.bit 71), h.keyOps.imp_right (hm.bit 72), h.pmReqs.imp_right (hm.bit 73), h.ownOps.imp_right
    (hm.bit 74), h.fuseOps.imp_right (hm.bit 75), h.upd.imp_right (hm.bit 76), h.calUs.imp_right (hm.bit 77),
    h.parE.imp_right (hm.bit 78), h.parW.imp_right (hm.bit 79)⟩

theorem sameOr_trans {α : Sort u} {x y z : α} {b : Prop} (h : y = x ∨ b) (g : z = y ∨ b) : z = x ∨ b := by
  rcases g with rfl | g
  · exact h
  · exact .inr g

theorem sameOr_cond {α : Type u} {x y : α} {b : Bool} (h : y = x ∨ b = true) : y = cond b y x := by
  cases b
  · exact h.resolve_right (by decide)
  · rfl

theorem State.Only.trans {m : Nat} {s t u : State} (h : State.Only m s t) (g : State.Only m t u) : State.Only m s u :=
  ⟨sameOr_trans h.freeCtr g.freeCtr, sameOr_trans h.regs g.regs, sameOr_trans h.mem g.mem, sameOr_trans h.bus g.bus,
    sameOr_trans h.irqs g.irqs, sameOr_trans h.outbox g.outbox, sameOr_trans h.led g.led, sameOr_trans h.commits
    g.commits, sameOr_trans h.nums g.nums, sameOr_trans h.p0 g.p0, sameOr_trans h.p1 g.p1, sameOr_trans h.f0 g.f0,
    sameOr_trans h.f1 g.f1, sameOr_trans h.fi g.fi, sameOr_trans h.cmn g.cmn, sameOr_trans h.arb g.arb, sameOr_trans
    h.ferry g.ferry, sameOr_trans h.laneE g.laneE, sameOr_trans h.laneW g.laneW, sameOr_trans h.sessions g.sessions,
    sameOr_trans h.scs g.scs, sameOr_trans h.mod_ g.mod_, sameOr_trans h.urgents g.urgents, sameOr_trans h.outs
    g.outs, sameOr_trans h.feeds g.feeds, sameOr_trans h.pw0 g.pw0, sameOr_trans h.pw1 g.pw1, sameOr_trans h.fcs
    g.fcs, sameOr_trans h.fd0 g.fd0, sameOr_trans h.fd1 g.fd1, sameOr_trans h.fd2 g.fd2, sameOr_trans h.stamps
    g.stamps, sameOr_trans h.tideE g.tideE, sameOr_trans h.tideW g.tideW, sameOr_trans h.tevArms g.tevArms,
    sameOr_trans h.evtRecs g.evtRecs, sameOr_trans h.cvcE g.cvcE, sameOr_trans h.cvcW g.cvcW, sameOr_trans h.sels
    g.sels, sameOr_trans h.pwmRecs g.pwmRecs, sameOr_trans h.pwmWork g.pwmWork, sameOr_trans h.cmnRecs g.cmnRecs,
    sameOr_trans h.canRxE g.canRxE, sameOr_trans h.canRxW g.canRxW, sameOr_trans h.canPorts g.canPorts, sameOr_trans
    h.fltQ g.fltQ, sameOr_trans h.canWork g.canWork, sameOr_trans h.canHeld g.canHeld, sameOr_trans h.lins g.lins,
    sameOr_trans h.linWork g.linWork, sameOr_trans h.tbs g.tbs, sameOr_trans h.eth g.eth, sameOr_trans h.harbInE
    g.harbInE, sameOr_trans h.harbInW g.harbInW, sameOr_trans h.harbHeld g.harbHeld, sameOr_trans h.pduFails
    g.pduFails, sameOr_trans h.harbE g.harbE, sameOr_trans h.harbW g.harbW, sameOr_trans h.cw g.cw, sameOr_trans
    h.nms g.nms, sameOr_trans h.grants g.grants, sameOr_trans h.vfOps g.vfOps, sameOr_trans h.quiesces g.quiesces,
    sameOr_trans h.iovQs g.iovQs, sameOr_trans h.potUpds g.potUpds, sameOr_trans h.copies g.copies, sameOr_trans
    h.lstepTests g.lstepTests, sameOr_trans h.tamperLog g.tamperLog, sameOr_trans h.secE g.secE, sameOr_trans h.secW
    g.secW, sameOr_trans h.keyOps g.keyOps, sameOr_trans h.pmReqs g.pmReqs, sameOr_trans h.ownOps g.ownOps,
    sameOr_trans h.fuseOps g.fuseOps, sameOr_trans h.upd g.upd, sameOr_trans h.calUs g.calUs, sameOr_trans h.parE
    g.parE, sameOr_trans h.parW g.parW⟩

/-- `s` with the numbered fields as in `t`. -/
def State.mix (m : Nat) (s t : State) : State :=
  { pending := s.pending, now := s.now,
    freeCtr := cond (m.testBit 2) t.freeCtr s.freeCtr, regs := cond (m.testBit 3) t.regs s.regs,
    mem := cond (m.testBit 4) t.mem s.mem, bus := cond (m.testBit 5) t.bus s.bus,
    irqs := cond (m.testBit 6) t.irqs s.irqs, outbox := cond (m.testBit 7) t.outbox s.outbox,
    led := cond (m.testBit 8) t.led s.led, commits := cond (m.testBit 9) t.commits s.commits,
    nums := cond (m.testBit 10) t.nums s.nums, p0 := cond (m.testBit 11) t.p0 s.p0,
    p1 := cond (m.testBit 12) t.p1 s.p1, f0 := cond (m.testBit 13) t.f0 s.f0, f1 := cond (m.testBit 14) t.f1 s.f1,
    fi := cond (m.testBit 15) t.fi s.fi, cmn := cond (m.testBit 16) t.cmn s.cmn,
    arb := cond (m.testBit 17) t.arb s.arb, ferry := cond (m.testBit 18) t.ferry s.ferry,
    laneE := cond (m.testBit 19) t.laneE s.laneE, laneW := cond (m.testBit 20) t.laneW s.laneW,
    sessions := cond (m.testBit 21) t.sessions s.sessions, scs := cond (m.testBit 22) t.scs s.scs,
    mod_ := cond (m.testBit 23) t.mod_ s.mod_, urgents := cond (m.testBit 24) t.urgents s.urgents,
    outs := cond (m.testBit 25) t.outs s.outs, feeds := cond (m.testBit 26) t.feeds s.feeds,
    pw0 := cond (m.testBit 27) t.pw0 s.pw0, pw1 := cond (m.testBit 28) t.pw1 s.pw1,
    fcs := cond (m.testBit 29) t.fcs s.fcs, fd0 := cond (m.testBit 30) t.fd0 s.fd0,
    fd1 := cond (m.testBit 31) t.fd1 s.fd1, fd2 := cond (m.testBit 32) t.fd2 s.fd2,
    stamps := cond (m.testBit 33) t.stamps s.stamps, tideE := cond (m.testBit 34) t.tideE s.tideE,
    tideW := cond (m.testBit 35) t.tideW s.tideW, tevArms := cond (m.testBit 36) t.tevArms s.tevArms,
    evtRecs := cond (m.testBit 37) t.evtRecs s.evtRecs, cvcE := cond (m.testBit 38) t.cvcE s.cvcE,
    cvcW := cond (m.testBit 39) t.cvcW s.cvcW, sels := cond (m.testBit 40) t.sels s.sels,
    pwmRecs := cond (m.testBit 41) t.pwmRecs s.pwmRecs, pwmWork := cond (m.testBit 42) t.pwmWork s.pwmWork,
    cmnRecs := cond (m.testBit 43) t.cmnRecs s.cmnRecs, canRxE := cond (m.testBit 44) t.canRxE s.canRxE,
    canRxW := cond (m.testBit 45) t.canRxW s.canRxW, canPorts := cond (m.testBit 46) t.canPorts s.canPorts,
    fltQ := cond (m.testBit 47) t.fltQ s.fltQ, canWork := cond (m.testBit 48) t.canWork s.canWork,
    canHeld := cond (m.testBit 49) t.canHeld s.canHeld, lins := cond (m.testBit 50) t.lins s.lins,
    linWork := cond (m.testBit 51) t.linWork s.linWork, tbs := cond (m.testBit 52) t.tbs s.tbs,
    eth := cond (m.testBit 53) t.eth s.eth, harbInE := cond (m.testBit 54) t.harbInE s.harbInE,
    harbInW := cond (m.testBit 55) t.harbInW s.harbInW, harbHeld := cond (m.testBit 56) t.harbHeld s.harbHeld,
    pduFails := cond (m.testBit 57) t.pduFails s.pduFails, harbE := cond (m.testBit 58) t.harbE s.harbE,
    harbW := cond (m.testBit 59) t.harbW s.harbW, cw := cond (m.testBit 60) t.cw s.cw,
    nms := cond (m.testBit 61) t.nms s.nms, grants := cond (m.testBit 62) t.grants s.grants,
    vfOps := cond (m.testBit 63) t.vfOps s.vfOps, quiesces := cond (m.testBit 64) t.quiesces s.quiesces,
    iovQs := cond (m.testBit 65) t.iovQs s.iovQs, potUpds := cond (m.testBit 66) t.potUpds s.potUpds,
    copies := cond (m.testBit 67) t.copies s.copies, lstepTests := cond (m.testBit 68) t.lstepTests s.lstepTests,
    tamperLog := cond (m.testBit 69) t.tamperLog s.tamperLog, secE := cond (m.testBit 70) t.secE s.secE,
    secW := cond (m.testBit 71) t.secW s.secW, keyOps := cond (m.testBit 72) t.keyOps s.keyOps,
    pmReqs := cond (m.testBit 73) t.pmReqs s.pmReqs, ownOps := cond (m.testBit 74) t.ownOps s.ownOps,
    fuseOps := cond (m.testBit 75) t.fuseOps s.fuseOps, upd := cond (m.testBit 76) t.upd s.upd,
    calUs := cond (m.testBit 77) t.calUs s.calUs, parE := cond (m.testBit 78) t.parE s.parE,
    parW := cond (m.testBit 79) t.parW s.parW }

/-- A frame by numbers, as an equation of states: for a numeral `m` the right side is `s` with those fields of `t`. -/
theorem State.Kept.mix {m : Nat} {s t : State} (k : State.Kept ⟨m, s⟩ t) : t = State.mix m s t := by
  have h : State.Only m s t := k.only
  exact (State.mk.injEq ..).mpr ⟨k.pending, k.now,
    sameOr_cond h.freeCtr, sameOr_cond h.regs, sameOr_cond h.mem, sameOr_cond h.bus, sameOr_cond h.irqs, sameOr_cond
    h.outbox, sameOr_cond h.led, sameOr_cond h.commits, sameOr_cond h.nums, sameOr_cond h.p0, sameOr_cond h.p1,
    sameOr_cond h.f0, sameOr_cond h.f1, sameOr_cond h.fi, sameOr_cond h.cmn, sameOr_cond h.arb, sameOr_cond h.ferry,
    sameOr_cond h.laneE, sameOr_cond h.laneW, sameOr_cond h.sessions, sameOr_cond h.scs, sameOr_cond h.mod_,
    sameOr_cond h.urgents, sameOr_cond h.outs, sameOr_cond h.feeds, sameOr_cond h.pw0, sameOr_cond h.pw1,
    sameOr_cond h.fcs, sameOr_cond h.fd0, sameOr_cond h.fd1, sameOr_cond h.fd2, sameOr_cond h.stamps, sameOr_cond
    h.tideE, sameOr_cond h.tideW, sameOr_cond h.tevArms, sameOr_cond h.evtRecs, sameOr_cond h.cvcE, sameOr_cond
    h.cvcW, sameOr_cond h.sels, sameOr_cond h.pwmRecs, sameOr_cond h.pwmWork, sameOr_cond h.cmnRecs, sameOr_cond
    h.canRxE, sameOr_cond h.canRxW, sameOr_cond h.canPorts, sameOr_cond h.fltQ, sameOr_cond h.canWork, sameOr_cond
    h.canHeld, sameOr_cond h.lins, sameOr_cond h.linWork, sameOr_cond h.tbs, sameOr_cond h.eth, sameOr_cond
    h.harbInE, sameOr_cond h.harbInW, sameOr_cond h.harbHeld, sameOr_cond h.pduFails, sameOr_cond h.harbE,
    sameOr_cond h.harbW, sameOr_cond h.cw, sameOr_cond h.nms, sameOr_cond h.grants, sameOr_cond h.vfOps, sameOr_cond
    h.quiesces, sameOr_cond h.iovQs, sameOr_cond h.potUpds, sameOr_cond h.copies, sameOr_cond h.lstepTests,
    sameOr_cond h.tamperLog, sameOr_cond h.secE, sameOr_cond h.secW, sameOr_cond h.keyOps, sameOr_cond h.pmReqs,
    sameOr_cond h.ownOps, sameOr_cond h.fuseOps, sameOr_cond h.upd, sameOr_cond h.calUs, sameOr_cond h.parE,
    sameOr_cond h.parW⟩

theorem State.Kept.trans {m : Nat} {s t u : State} (h : State.Kept ⟨m, s⟩ t) (g : State.Kept ⟨m, t⟩ u) :
    State.Kept ⟨m, s⟩ u :=
  ⟨g.pending.trans h.pending, g.now.trans h.now, g.regs, g.mem, g.led, g.shape, State.Only.trans h.only g.only⟩

theorem State.Kept.weaken {m fx : Nat} {s t : State} (hm : Sub m fx) (h : State.Kept ⟨m, s⟩ t) : State.Kept ⟨fx, s⟩ t :=
  ⟨h.pending, h.now, h.regs, h.mem, h.led, h.shape, State.Only.weaken hm h.only⟩

theorem CmdSpec.Kept.weaken {m M : Nat} {c : CmdSpec} (hm : Sub m M) (h : ∀ u : State, CmdSpec.Kept ⟨m, u⟩ c) (u : State) :
    CmdSpec.Kept ⟨M, u⟩ c :=
  ⟨fun s r n k => k.trans (((h s).exec s r n (.refl k.inv)).weaken hm),
    fun s r k => k.trans (((h s).effect s r (.refl k.inv)).weaken hm),
    fun s r k => k.trans (((h s).before s r (.refl k.inv)).weaken hm),
    fun s r st k => k.trans (((h s).onRefuse s r st (.refl k.inv)).weaken hm)⟩

/-- The invariant speaks of no more than these fields. -/
theorem State.Inv.like {s t : State} (h : s.Inv) (h0 : t.regs = s.regs := by rfl) (h1 : t.mem = s.mem := by rfl)
    (h2 : t.led = s.led := by rfl) (h3 : t.outs = s.outs := by rfl) (h4 : t.feeds = s.feeds := by rfl)
    (h5 : t.fcs = s.fcs := by rfl) (h6 : t.sels = s.sels := by rfl) (h7 : t.canPorts = s.canPorts := by rfl)
    (h8 : t.canRxE = s.canRxE := by rfl) (h9 : t.canRxW = s.canRxW := by rfl) (h10 : t.lins = s.lins := by rfl)
    (h11 : t.tbs = s.tbs := by rfl) (h12 : t.sessions = s.sessions := by rfl) : t.Inv :=
  ⟨by rw [h0]; exact h.regs, by rw [h1]; exact h.mem, by rw [h2]; exact h.led, ⟨by rw [h3]; exact h.shape.outs,
    by rw [h4]; exact h.shape.feeds, by rw [h5]; exact h.shape.fcs, by rw [h6]; exact h.shape.sels,
    by rw [h7]; exact h.shape.canPorts, by rw [h8]; exact h.shape.canRxE, by rw [h9]; exact h.shape.canRxW,
    by rw [h10]; exact h.shape.lins, by rw [h11]; exact h.shape.tbs, by rw [h12]; exact h.shape.sessions⟩⟩

/-- Two states that agree in all but the fields of `0x6001d8` are alike but for the command interface. -/
theorem State.Served.of_kept {s t : State} (h : State.Kept ⟨0x6001d8, s⟩ t) : State.Served s t := by
  have g : State.Only 0x6001d8 s t := h.only
  unfold State.Served
  exact (State.mk.injEq ..).mpr ⟨
    h.pending, h.now, g.freeCtr.resolve_right (by decide), rfl, rfl, g.bus.resolve_right (by decide), rfl, rfl, rfl,
    g.commits.resolve_right (by decide), g.nums.resolve_right (by decide), g.p0.resolve_right (by decide),
    g.p1.resolve_right (by decide), g.f0.resolve_right (by decide), g.f1.resolve_right (by decide),
    g.fi.resolve_right (by decide), g.cmn.resolve_right (by decide), g.arb.resolve_right (by decide),
    g.ferry.resolve_right (by decide), g.laneE.resolve_right (by decide), g.laneW.resolve_right (by decide), rfl, rfl,
    g.mod_.resolve_right (by decide), g.urgents.resolve_right (by decide), g.outs.resolve_right (by decide),
    g.feeds.resolve_right (by decide), g.pw0.resolve_right (by decide), g.pw1.resolve_right (by decide),
    g.fcs.resolve_right (by decide), g.fd0.resolve_right (by decide), g.fd1.resolve_right (by decide),
    g.fd2.resolve_right (by decide), g.stamps.resolve_right (by decide), g.tideE.resolve_right (by decide),
    g.tideW.resolve_right (by decide), g.tevArms.resolve_right (by decide), g.evtRecs.resolve_right (by decide),
    g.cvcE.resolve_right (by decide), g.cvcW.resolve_right (by decide), g.sels.resolve_right (by decide),
    g.pwmRecs.resolve_right (by decide), g.pwmWork.resolve_right (by decide), g.cmnRecs.resolve_right (by decide),
    g.canRxE.resolve_right (by decide), g.canRxW.resolve_right (by decide), g.canPorts.resolve_right (by decide),
    g.fltQ.resolve_right (by decide), g.canWork.resolve_right (by decide), g.canHeld.resolve_right (by decide),
    g.lins.resolve_right (by decide), g.linWork.resolve_right (by decide), g.tbs.resolve_right (by decide),
    g.eth.resolve_right (by decide), g.harbInE.resolve_right (by decide), g.harbInW.resolve_right (by decide),
    g.harbHeld.resolve_right (by decide), g.pduFails.resolve_right (by decide), g.harbE.resolve_right (by decide),
    g.harbW.resolve_right (by decide), g.cw.resolve_right (by decide), g.nms.resolve_right (by decide),
    g.grants.resolve_right (by decide), g.vfOps.resolve_right (by decide), g.quiesces.resolve_right (by decide),
    g.iovQs.resolve_right (by decide), g.potUpds.resolve_right (by decide), g.copies.resolve_right (by decide),
    g.lstepTests.resolve_right (by decide), g.tamperLog.resolve_right (by decide), g.secE.resolve_right (by decide),
    g.secW.resolve_right (by decide), g.keyOps.resolve_right (by decide), g.pmReqs.resolve_right (by decide),
    g.ownOps.resolve_right (by decide), g.fuseOps.resolve_right (by decide), g.upd.resolve_right (by decide),
    g.calUs.resolve_right (by decide), g.parE.resolve_right (by decide), g.parW.resolve_right (by decide)⟩

theorem State.Served.refl (s : State) : State.Served s s := rfl

/-- The parts that may differ, named. -/
theorem State.Served.parts {s t : State} (h : State.Served s t) :
    ∃ a b c d e f g, t = { s with regs := a, mem := b, irqs := c, outbox := d, led := e, sessions := f, scs := g } :=
  ⟨_, _, _, _, _, _, _, h⟩

theorem State.Served.pending {s t : State} (h : State.Served s t) : t.pending = s.pending := by
  obtain ⟨_, _, _, _, _, _, _, rfl⟩ := h.parts
  rfl

theorem State.Served.now {s t : State} (h : State.Served s t) : t.now = s.now := by
  obtain ⟨_, _, _, _, _, _, _, rfl⟩ := h.parts
  rfl

theorem State.Served.freeCtr {s t : State} (h : State.Served s t) : t.freeCtr = s.freeCtr := by
  obtain ⟨_, _, _, _, _, _, _, rfl⟩ := h.parts
  rfl

theorem State.Served.bus {s t : State} (h : State.Served s t) : t.bus = s.bus := by
  obtain ⟨_, _, _, _, _, _, _, rfl⟩ := h.parts
  rfl

theorem State.Served.commits {s t : State} (h : State.Served s t) : t.commits = s.commits := by
  obtain ⟨_, _, _, _, _, _, _, rfl⟩ := h.parts
  rfl

theorem State.Served.nums {s t : State} (h : State.Served s t) : t.nums = s.nums := by
  obtain ⟨_, _, _, _, _, _, _, rfl⟩ := h.parts
  rfl

theorem State.Served.p0 {s t : State} (h : State.Served s t) : t.p0 = s.p0 := by
  obtain ⟨_, _, _, _, _, _, _, rfl⟩ := h.parts
  rfl

theorem State.Served.p1 {s t : State} (h : State.Served s t) : t.p1 = s.p1 := by
  obtain ⟨_, _, _, _, _, _, _, rfl⟩ := h.parts
  rfl

theorem State.Served.f0 {s t : State} (h : State.Served s t) : t.f0 = s.f0 := by
  obtain ⟨_, _, _, _, _, _, _, rfl⟩ := h.parts
  rfl

theorem State.Served.f1 {s t : State} (h : State.Served s t) : t.f1 = s.f1 := by
  obtain ⟨_, _, _, _, _, _, _, rfl⟩ := h.parts
  rfl

theorem State.Served.fi {s t : State} (h : State.Served s t) : t.fi = s.fi := by
  obtain ⟨_, _, _, _, _, _, _, rfl⟩ := h.parts
  rfl

theorem State.Served.cmn {s t : State} (h : State.Served s t) : t.cmn = s.cmn := by
  obtain ⟨_, _, _, _, _, _, _, rfl⟩ := h.parts
  rfl

theorem State.Served.arb {s t : State} (h : State.Served s t) : t.arb = s.arb := by
  obtain ⟨_, _, _, _, _, _, _, rfl⟩ := h.parts
  rfl

theorem State.Served.ferry {s t : State} (h : State.Served s t) : t.ferry = s.ferry := by
  obtain ⟨_, _, _, _, _, _, _, rfl⟩ := h.parts
  rfl

theorem State.Served.laneE {s t : State} (h : State.Served s t) : t.laneE = s.laneE := by
  obtain ⟨_, _, _, _, _, _, _, rfl⟩ := h.parts
  rfl

theorem State.Served.laneW {s t : State} (h : State.Served s t) : t.laneW = s.laneW := by
  obtain ⟨_, _, _, _, _, _, _, rfl⟩ := h.parts
  rfl

theorem State.Served.mod_ {s t : State} (h : State.Served s t) : t.mod_ = s.mod_ := by
  obtain ⟨_, _, _, _, _, _, _, rfl⟩ := h.parts
  rfl

theorem State.Served.urgents {s t : State} (h : State.Served s t) : t.urgents = s.urgents := by
  obtain ⟨_, _, _, _, _, _, _, rfl⟩ := h.parts
  rfl

theorem State.Served.outs {s t : State} (h : State.Served s t) : t.outs = s.outs := by
  obtain ⟨_, _, _, _, _, _, _, rfl⟩ := h.parts
  rfl

theorem State.Served.feeds {s t : State} (h : State.Served s t) : t.feeds = s.feeds := by
  obtain ⟨_, _, _, _, _, _, _, rfl⟩ := h.parts
  rfl

theorem State.Served.pw0 {s t : State} (h : State.Served s t) : t.pw0 = s.pw0 := by
  obtain ⟨_, _, _, _, _, _, _, rfl⟩ := h.parts
  rfl

theorem State.Served.pw1 {s t : State} (h : State.Served s t) : t.pw1 = s.pw1 := by
  obtain ⟨_, _, _, _, _, _, _, rfl⟩ := h.parts
  rfl

theorem State.Served.fcs {s t : State} (h : State.Served s t) : t.fcs = s.fcs := by
  obtain ⟨_, _, _, _, _, _, _, rfl⟩ := h.parts
  rfl

theorem State.Served.fd0 {s t : State} (h : State.Served s t) : t.fd0 = s.fd0 := by
  obtain ⟨_, _, _, _, _, _, _, rfl⟩ := h.parts
  rfl

theorem State.Served.fd1 {s t : State} (h : State.Served s t) : t.fd1 = s.fd1 := by
  obtain ⟨_, _, _, _, _, _, _, rfl⟩ := h.parts
  rfl

theorem State.Served.fd2 {s t : State} (h : State.Served s t) : t.fd2 = s.fd2 := by
  obtain ⟨_, _, _, _, _, _, _, rfl⟩ := h.parts
  rfl

theorem State.Served.stamps {s t : State} (h : State.Served s t) : t.stamps = s.stamps := by
  obtain ⟨_, _, _, _, _, _, _, rfl⟩ := h.parts
  rfl

theorem State.Served.tideE {s t : State} (h : State.Served s t) : t.tideE = s.tideE := by
  obtain ⟨_, _, _, _, _, _, _, rfl⟩ := h.parts
  rfl

theorem State.Served.tideW {s t : State} (h : State.Served s t) : t.tideW = s.tideW := by
  obtain ⟨_, _, _, _, _, _, _, rfl⟩ := h.parts
  rfl

theorem State.Served.tevArms {s t : State} (h : State.Served s t) : t.tevArms = s.tevArms := by
  obtain ⟨_, _, _, _, _, _, _, rfl⟩ := h.parts
  rfl

theorem State.Served.evtRecs {s t : State} (h : State.Served s t) : t.evtRecs = s.evtRecs := by
  obtain ⟨_, _, _, _, _, _, _, rfl⟩ := h.parts
  rfl

theorem State.Served.cvcE {s t : State} (h : State.Served s t) : t.cvcE = s.cvcE := by
  obtain ⟨_, _, _, _, _, _, _, rfl⟩ := h.parts
  rfl

theorem State.Served.cvcW {s t : State} (h : State.Served s t) : t.cvcW = s.cvcW := by
  obtain ⟨_, _, _, _, _, _, _, rfl⟩ := h.parts
  rfl

theorem State.Served.sels {s t : State} (h : State.Served s t) : t.sels = s.sels := by
  obtain ⟨_, _, _, _, _, _, _, rfl⟩ := h.parts
  rfl

theorem State.Served.pwmRecs {s t : State} (h : State.Served s t) : t.pwmRecs = s.pwmRecs := by
  obtain ⟨_, _, _, _, _, _, _, rfl⟩ := h.parts
  rfl

theorem State.Served.pwmWork {s t : State} (h : State.Served s t) : t.pwmWork = s.pwmWork := by
  obtain ⟨_, _, _, _, _, _, _, rfl⟩ := h.parts
  rfl

theorem State.Served.cmnRecs {s t : State} (h : State.Served s t) : t.cmnRecs = s.cmnRecs := by
  obtain ⟨_, _, _, _, _, _, _, rfl⟩ := h.parts
  rfl

theorem State.Served.canRxE {s t : State} (h : State.Served s t) : t.canRxE = s.canRxE := by
  obtain ⟨_, _, _, _, _, _, _, rfl⟩ := h.parts
  rfl

theorem State.Served.canRxW {s t : State} (h : State.Served s t) : t.canRxW = s.canRxW := by
  obtain ⟨_, _, _, _, _, _, _, rfl⟩ := h.parts
  rfl

theorem State.Served.canPorts {s t : State} (h : State.Served s t) : t.canPorts = s.canPorts := by
  obtain ⟨_, _, _, _, _, _, _, rfl⟩ := h.parts
  rfl

theorem State.Served.fltQ {s t : State} (h : State.Served s t) : t.fltQ = s.fltQ := by
  obtain ⟨_, _, _, _, _, _, _, rfl⟩ := h.parts
  rfl

theorem State.Served.canWork {s t : State} (h : State.Served s t) : t.canWork = s.canWork := by
  obtain ⟨_, _, _, _, _, _, _, rfl⟩ := h.parts
  rfl

theorem State.Served.canHeld {s t : State} (h : State.Served s t) : t.canHeld = s.canHeld := by
  obtain ⟨_, _, _, _, _, _, _, rfl⟩ := h.parts
  rfl

theorem State.Served.lins {s t : State} (h : State.Served s t) : t.lins = s.lins := by
  obtain ⟨_, _, _, _, _, _, _, rfl⟩ := h.parts
  rfl

theorem State.Served.linWork {s t : State} (h : State.Served s t) : t.linWork = s.linWork := by
  obtain ⟨_, _, _, _, _, _, _, rfl⟩ := h.parts
  rfl

theorem State.Served.tbs {s t : State} (h : State.Served s t) : t.tbs = s.tbs := by
  obtain ⟨_, _, _, _, _, _, _, rfl⟩ := h.parts
  rfl

theorem State.Served.eth {s t : State} (h : State.Served s t) : t.eth = s.eth := by
  obtain ⟨_, _, _, _, _, _, _, rfl⟩ := h.parts
  rfl

theorem State.Served.harbInE {s t : State} (h : State.Served s t) : t.harbInE = s.harbInE := by
  obtain ⟨_, _, _, _, _, _, _, rfl⟩ := h.parts
  rfl

theorem State.Served.harbInW {s t : State} (h : State.Served s t) : t.harbInW = s.harbInW := by
  obtain ⟨_, _, _, _, _, _, _, rfl⟩ := h.parts
  rfl

theorem State.Served.harbHeld {s t : State} (h : State.Served s t) : t.harbHeld = s.harbHeld := by
  obtain ⟨_, _, _, _, _, _, _, rfl⟩ := h.parts
  rfl

theorem State.Served.pduFails {s t : State} (h : State.Served s t) : t.pduFails = s.pduFails := by
  obtain ⟨_, _, _, _, _, _, _, rfl⟩ := h.parts
  rfl

theorem State.Served.harbE {s t : State} (h : State.Served s t) : t.harbE = s.harbE := by
  obtain ⟨_, _, _, _, _, _, _, rfl⟩ := h.parts
  rfl

theorem State.Served.harbW {s t : State} (h : State.Served s t) : t.harbW = s.harbW := by
  obtain ⟨_, _, _, _, _, _, _, rfl⟩ := h.parts
  rfl

theorem State.Served.cw {s t : State} (h : State.Served s t) : t.cw = s.cw := by
  obtain ⟨_, _, _, _, _, _, _, rfl⟩ := h.parts
  rfl

theorem State.Served.nms {s t : State} (h : State.Served s t) : t.nms = s.nms := by
  obtain ⟨_, _, _, _, _, _, _, rfl⟩ := h.parts
  rfl

theorem State.Served.grants {s t : State} (h : State.Served s t) : t.grants = s.grants := by
  obtain ⟨_, _, _, _, _, _, _, rfl⟩ := h.parts
  rfl

theorem State.Served.vfOps {s t : State} (h : State.Served s t) : t.vfOps = s.vfOps := by
  obtain ⟨_, _, _, _, _, _, _, rfl⟩ := h.parts
  rfl

theorem State.Served.quiesces {s t : State} (h : State.Served s t) : t.quiesces = s.quiesces := by
  obtain ⟨_, _, _, _, _, _, _, rfl⟩ := h.parts
  rfl

theorem State.Served.iovQs {s t : State} (h : State.Served s t) : t.iovQs = s.iovQs := by
  obtain ⟨_, _, _, _, _, _, _, rfl⟩ := h.parts
  rfl

theorem State.Served.potUpds {s t : State} (h : State.Served s t) : t.potUpds = s.potUpds := by
  obtain ⟨_, _, _, _, _, _, _, rfl⟩ := h.parts
  rfl

theorem State.Served.copies {s t : State} (h : State.Served s t) : t.copies = s.copies := by
  obtain ⟨_, _, _, _, _, _, _, rfl⟩ := h.parts
  rfl

theorem State.Served.lstepTests {s t : State} (h : State.Served s t) : t.lstepTests = s.lstepTests := by
  obtain ⟨_, _, _, _, _, _, _, rfl⟩ := h.parts
  rfl

theorem State.Served.tamperLog {s t : State} (h : State.Served s t) : t.tamperLog = s.tamperLog := by
  obtain ⟨_, _, _, _, _, _, _, rfl⟩ := h.parts
  rfl

theorem State.Served.secE {s t : State} (h : State.Served s t) : t.secE = s.secE := by
  obtain ⟨_, _, _, _, _, _, _, rfl⟩ := h.parts
  rfl

theorem State.Served.secW {s t : State} (h : State.Served s t) : t.secW = s.secW := by
  obtain ⟨_, _, _, _, _, _, _, rfl⟩ := h.parts
  rfl

theorem State.Served.keyOps {s t : State} (h : State.Served s t) : t.keyOps = s.keyOps := by
  obtain ⟨_, _, _, _, _, _, _, rfl⟩ := h.parts
  rfl

theorem State.Served.pmReqs {s t : State} (h : State.Served s t) : t.pmReqs = s.pmReqs := by
  obtain ⟨_, _, _, _, _, _, _, rfl⟩ := h.parts
  rfl

theorem State.Served.ownOps {s t : State} (h : State.Served s t) : t.ownOps = s.ownOps := by
  obtain ⟨_, _, _, _, _, _, _, rfl⟩ := h.parts
  rfl

theorem State.Served.fuseOps {s t : State} (h : State.Served s t) : t.fuseOps = s.fuseOps := by
  obtain ⟨_, _, _, _, _, _, _, rfl⟩ := h.parts
  rfl

theorem State.Served.upd {s t : State} (h : State.Served s t) : t.upd = s.upd := by
  obtain ⟨_, _, _, _, _, _, _, rfl⟩ := h.parts
  rfl

theorem State.Served.calUs {s t : State} (h : State.Served s t) : t.calUs = s.calUs := by
  obtain ⟨_, _, _, _, _, _, _, rfl⟩ := h.parts
  rfl

theorem State.Served.parE {s t : State} (h : State.Served s t) : t.parE = s.parE := by
  obtain ⟨_, _, _, _, _, _, _, rfl⟩ := h.parts
  rfl

theorem State.Served.parW {s t : State} (h : State.Served s t) : t.parW = s.parW := by
  obtain ⟨_, _, _, _, _, _, _, rfl⟩ := h.parts
  rfl

theorem State.Served.of_parts {s : State} {a : List RegCell} {b : List Host.Cell} {c : List Irq} {d : List OutMsg}
    {e : Ledger} {f : List Session} {g : ScsRt} :
    State.Served s { s with regs := a, mem := b, irqs := c, outbox := d, led := e, sessions := f, scs := g } := rfl

theorem State.Served.withRegs (s : State) (a : List RegCell) : State.Served s { s with regs := a } := rfl

theorem State.setReg_served (s : State) (l : Lane) (a : Nat) (v : Word) : State.Served s (s.setReg l a v) :=
  .withRegs s _

theorem State.setFld_served (s : State) (l : Lane) (a : Nat) (f : Fld) (v : Nat) : State.Served s (s.setFld l a f v) :=
  .withRegs s _

theorem State.setBitF_served (s : State) (l : Lane) (a : Nat) (f : Fld) (b : Bool) : State.Served s (s.setBitF l a f b) :=
  .withRegs s _

theorem State.count_served (s : State) (l : Lane) (a : Nat) : State.Served s (s.count l a) := .withRegs s _

theorem State.Served.trans {s t u : State} (h : State.Served s t) (g : State.Served t u) : State.Served s u := by
  obtain ⟨a, b, c, d, e, f, k, rfl⟩ := h.parts
  obtain ⟨a2, b2, c2, d2, e2, f2, k2, rfl⟩ := g.parts
  exact State.Served.of_parts

/-- A ready accepted command: its own work on a state that the command interface alone has changed, and what follows. -/
theorem Ready.served {c : CmdSpec} {s : State} {r : Req} {P : State → Prop} (h : Ready c s r) (ha : c.accepted = true)
    (hb : ∀ t q, c.before t q = t) (hk : ∀ u : State, CmdSpec.Kept ⟨2 ^ 80 - 1, u⟩ c)
    (hP : ∀ u q t, u.Inv → State.Served s u → s.RegsAside u → s.ShadowsSame u → Req.Same q r →
      State.Served (c.exec u q s.led.nextLsn) t → (c.exec u q s.led.nextLsn).RegsAside t → P t) :
    Completes (runScs c r s) P := by
  refine h.work ha hb hk ?_
  intro u q t h1 h2 h3 hq h4 h5
  refine hP u q t h1.inv (.of_kept ⟨h1.pending, h1.now, h1.regs, h1.mem, h1.led, h1.shape, ?_⟩) h2 h3 hq (.of_kept h4) h5
  exact State.Only.weaken (m := 0x108) (fx := 0x6001d8) (Sub.of (Sub.refl _) (by decide)) h1.only

/-- The same, with the frame of the whole. -/
theorem Ready.framed {c : CmdSpec} {s : State} {r : Req} {P : State → Prop} (h : Ready c s r) (ha : c.accepted = true)
    (hb : ∀ t q, c.before t q = t) {m M : Nat} (hk : ∀ u : State, CmdSpec.Kept ⟨m, u⟩ c) (h1 : Sub m M) (h2 : Sub 0x6001d8 M)
    (hM : Sub M (2 ^ 80 - 1))
    (hP : ∀ u q t, u.Inv → State.Served s u → s.RegsAside u → s.ShadowsSame u → Req.Same q r →
      State.Kept ⟨m, u⟩ (c.exec u q s.led.nextLsn) → State.Served (c.exec u q s.led.nextLsn) t →
      (c.exec u q s.led.nextLsn).RegsAside t → t = State.mix M s t → P t) :
    Completes (runScs c r s) P := by
  have hk' : ∀ u : State, CmdSpec.Kept ⟨2 ^ 80 - 1, u⟩ c := fun u => CmdSpec.Kept.weaken (fun i hi => hM i (h1 i hi)) hk u
  refine h.work ha hb hk' ?_
  intro u q t k1 k2 k3 hq k4 k5
  have e1 : State.Kept ⟨m, u⟩ (c.exec u q s.led.nextLsn) := (hk u).exec _ _ _ (.refl k1.inv)
  have e2 : State.Kept ⟨0x6001d8, s⟩ u := State.Kept.weaken (m := 0x108) (fx := 0x6001d8) (Sub.of (Sub.refl _) (by decide)) k1
  exact hP u q t k1.inv (.of_kept e2) k2 k3 hq e1 (.of_kept k4) k5
    (((e2.weaken h2).trans (e1.weaken h1)).trans (k4.weaken h2)).mix

/-- The same for a command that does something before it is taken, which leaves registers and ledger. -/
theorem Ready.servedBefore {c : CmdSpec} {s : State} {r : Req} {P : State → Prop} (h : Ready c s r) (ha : c.accepted = true)
    (hb : ∀ t q, (c.before t q).regs = t.regs ∧ (c.before t q).led = t.led)
    (hk : ∀ u : State, CmdSpec.Kept ⟨2 ^ 80 - 1, u⟩ c)
    (hP : ∀ v u q t, State.Served s v → v.regs = (taken s r).1.regs → u.Inv → State.Served (c.before v q) u → s.RegsAside u → Req.Same q r →
      State.Served (c.exec u q s.led.nextLsn) t → (c.exec u q s.led.nextLsn).RegsAside t → P t) :
    Completes (runScs c r s) P := by
  have hm : Sub 0x108 0x108 := Sub.refl _
  have h0 := taken_only (r := r) h.1
  have hn : (taken s r).1.led = s.led := (taken_fields s r).2.1
  have h1 : State.Kept ⟨2 ^ 80 - 1, (taken s r).1⟩ (c.before (taken s r).1 (taken s r).2) :=
    (hk _).before _ _ (State.Kept.refl h0.inv)
  have h2 : State.Kept ⟨0x108, c.before (taken s r).1 (taken s r).2⟩ ((entered c s r).begin s.led.nextLsn) := by
    unfold entered
    apply State.begin_kept (Sub.of hm (by decide))
    apply State.accept_kept (Sub.of hm (by decide))
    exact State.Kept.refl h1.inv
  have hv := ((hk ((entered c s r).begin s.led.nextLsn)).exec _ (taken s r).2 s.led.nextLsn (State.Kept.refl h2.inv)).inv
  refine ⟨answerAccepted c _ (taken s r).2 s.led.nextLsn, ?_, hP (taken s r).1 ((entered c s r).begin s.led.nextLsn) (taken s r).2 _ ?_ rfl
    h2.inv ?_ ?_ (taken_same s r) (.of_kept (answerAccepted_after hv)) ?_⟩
  · unfold runScs
    rw [runCmd_start h.2.2.1 ha (h.2.2.2 ha) (fun t q => by rw [(hb t q).2])]
  · refine .of_kept ⟨h0.pending, h0.now, h0.regs, h0.mem, h0.led, h0.shape, ?_⟩
    exact State.Only.weaken (m := 0x8) (fx := 0x6001d8) (Sub.of (Sub.refl _) (by decide)) h0.only
  · refine .of_kept ⟨h2.pending, h2.now, h2.regs, h2.mem, h2.led, h2.shape, ?_⟩
    exact State.Only.weaken (m := 0x108) (fx := 0x6001d8) (Sub.of (Sub.refl _) (by decide)) h2.only
  · refine State.RegsAside.trans (t := entered c s r) ?_ (State.RegsAside.of_regs (State.begin_regs _ _))
    intro l a hx
    unfold entered
    rw [State.accept_reg hx]
    have : (c.before (taken s r).1 (taken s r).2).reg l a = (taken s r).1.reg l a := by
      unfold State.reg
      rw [(hb _ _).1]
    rw [this, taken_reg hx]
  · intro l a hx
    exact answerAccepted_reg (by rw [taken_src]; exact h.2.1) hx

end Sys2Proof.Machine
end

