-- ==== Sys2Proof/Laws/Ready.lean ====
section
/-! SUPPORT. What a ready command of each shape does: copies for dies, lanes and regions, and urgent records. -/

namespace Sys2Proof.Machine

theorem pcDie_lt (n) : pcDie n ∈ [0,1] := by unfold pcDie; split <;> (try split) <;> (try split) <;> simp

theorem pcIx_lt {n} (h : n < 48) : pcIx n < 24 := by unfold pcIx; (repeat' split) <;> omega

theorem gdDie_lt {n} (h : n < 16) : gdDie n ∈ [0,1] := by unfold gdDie; simp only [List.mem_cons, List.not_mem_nil, or_false]; omega

theorem mem_onDie {die : Nat → Nat} {ns n} (h : n ∈ ns) : n ∈ onDie die ns (die n) := by simp [onDie, h]

theorem mem_of_onDie {die : Nat → Nat} {ns n d} (h : n ∈ onDie die ns d) : n ∈ ns ∧ die n = d := by simpa [onDie] using h

theorem mask_lt {k m n} (h : n ∈ maskBits k m) : n < k := by simp [maskBits] at h; exact h.1

theorem fcDie_lt (n) : fcDie n ∈ [0,1,2] := by unfold fcDie; split <;> (try split) <;> simp

theorem fcIx_lt {n} (h : n < 256) : fcIx n < 112 := by unfold fcIx fcDie; (repeat' split) <;> omega

theorem testBit_setBit (n i j) : (setBit n i).testBit j = (n.testBit j || decide (i = j)) := by
  unfold setBit; simp [Nat.testBit_or, Nat.testBit_two_pow]

theorem testBit_foldl_setBit (xs : List Nat) (n j) : (xs.foldl (fun n i => setBit n i) n).testBit j = (n.testBit j || decide (j ∈ xs)) := by
  induction xs generalizing n with
  | nil => simp
  | cons x xs ih => rw [List.foldl_cons, ih, testBit_setBit]
                    by_cases h : x = j
                    · subst h; simp
                    · have h' : ¬ j = x := fun e => h e.symm
                      simp [h, h']

theorem testBit_bitsOf (xs : List Nat) (j) : (bitsOf xs).testBit j = decide (j ∈ xs) := by
  unfold bitsOf; rw [testBit_foldl_setBit]; simp

theorem bitsOf_ne {xs : List Nat} {j} (h : j ∈ xs) : bitsOf xs ≠ 0 := by
  intro e; have := testBit_bitsOf xs j; rw [e] at this; simp [h] at this

theorem sendUrgent_commits (s : State) (d o a n) : (s.sendUrgent d o a n).commits = s.commits := by unfold State.sendUrgent; split <;> rfl

theorem sendUrgent_regs (s : State) (d o a n) : (s.sendUrgent d o a n).regs = s.regs := by unfold State.sendUrgent; split <;> rfl

theorem sendUrgent_keeps {s : State} {d o a n x} (h : x ∈ s.urgents) : x ∈ (s.sendUrgent d o a n).urgents := by
  unfold State.sendUrgent; split
  · exact h
  · exact List.mem_append_left _ h

theorem sendUrgent_new {s : State} {d o a n} (h : o ≠ 0) : ∃ u ∈ (s.sendUrgent d o a n).urgents, u.die = d ∧ u.lsn = n ∧ u.act = a ∧ u.mask = o ∧ u.epoch = (s.reg (s.holderOr .E) R.FERRY_EPOCH).toNat := by
  unfold State.sendUrgent; rw [if_neg h]
  exact ⟨_, List.mem_append_right _ (List.mem_singleton.mpr rfl), rfl, rfl, rfl, rfl, rfl⟩

theorem Ready.carriesLocal {c : CmdSpec} {s : State} {r : Req} {P : State → Prop} (h : Ready c s r) (ha : c.accepted = true)
    (hb : ∀ t q, c.before t q = t) (hk : ∀ u : State, CmdSpec.Kept ⟨2 ^ 80 - 1, u⟩ c) (b : Nat) (g : Req → Nat)
    (W : State → Req → List RegCell) (he : ∀ u q n, c.exec u q n = u.commitLocal b (g q) (W u q) n)
    (hn : ∀ u q, ((W u q).map Prod.fst).Nodup)
    (hP : ∀ u t q, s.RegsAside u → s.ShadowsSame u → Req.Same q r →
      (∀ c ∈ W u q, t.Carries b (g q) s.led.nextLsn c) → P t) :
    Completes (runScs c r s) (fun t => s.RegsAside t ∧ P t) := by
  refine h.work ha hb hk ?_
  intro u q t h1 h2 h3 hq h4 h5
  rw [he] at h4 h5
  refine ⟨(h2.trans commitLocal_aside).trans h5, hP u t q h2 h3 hq ?_⟩
  intro c hc
  exact (State.commitLocal_carries hc (fun w hw => cells_unique (hn _ _) hc hw)).of_commits h4.commits_of_answer

theorem Ready.carriesLhs {c : CmdSpec} {s : State} {r : Req} {P : State → Prop} (h : Ready c s r) (ha : c.accepted = true)
    (hb : ∀ t q, c.before t q = t) (hk : ∀ u : State, CmdSpec.Kept ⟨2 ^ 80 - 1, u⟩ c)
    (W : State → Req → List RegCell) (he : ∀ u q n, c.exec u q n = u.commitLhsBoth (W u q) n)
    (hn : ∀ u q, ((W u q).map Prod.fst).Nodup)
    (hP : ∀ u t q, s.RegsAside u → s.ShadowsSame u → Req.Same q r →
      (∀ c ∈ W u q, isResAttr c.1 = false → t.Carries 21 0 s.led.nextLsn c) → P t) :
    Completes (runScs c r s) (fun t => s.RegsAside t ∧ P t) := by
  refine h.work ha hb hk ?_
  intro u q t h1 h2 h3 hq h4 h5
  rw [he] at h4 h5
  refine ⟨(h2.trans commitLhsBoth_aside).trans h5, hP u t q h2 h3 hq ?_⟩
  intro c hc hr
  exact (State.commitLhsBoth_carries hc (fun w hw => cells_unique (hn _ _) hc hw) hr).of_commits h4.commits_of_answer

theorem Ready.carriesLanes {c : CmdSpec} {s : State} {r : Req} {P : State → Prop} (h : Ready c s r) (ha : c.accepted = true)
    (hb : ∀ t q, c.before t q = t) (hk : ∀ u : State, CmdSpec.Kept ⟨2 ^ 80 - 1, u⟩ c) (b : Nat) (g : Req → Nat) (L : Req → List Lane)
    (W : State → Req → List RegCell) (he : ∀ u q n, c.exec u q n = u.commitLanes (L q) b (g q) (W u q) n)
    (hn : ∀ u q, ((W u q).map Prod.fst).Nodup)
    (hP : ∀ u t q, s.RegsAside u → s.ShadowsSame u → Req.Same q r →
      (∀ l ∈ L q, ∀ c ∈ W u q, t.CarriesAt l b (g q) s.led.nextLsn c) → P t) :
    Completes (runScs c r s) (fun t => s.RegsAside t ∧ P t) := by
  refine h.work ha hb hk ?_
  intro u q t h1 h2 h3 hq h4 h5
  rw [he] at h4 h5
  refine ⟨(h2.trans commitLanes_aside).trans h5, hP u t q h2 h3 hq ?_⟩
  intro l hl c hc
  exact (State.commitLanes_carries hl hc (fun w hw => cells_unique (hn _ _) hc hw)).of_commits h4.commits_of_answer

theorem mem_lanesOf {m : Nat} {l : Lane} (h : m.testBit l.ix = true) : l ∈ lanesOf m := by
  unfold lanesOf; cases l <;> simp [Lane.ix] at h <;> simp [h]

theorem nodup_map_range (f : Nat → RegCell) (n : Nat) (h : ∀ i j, i < n → j < n → (f i).1 = (f j).1 → i = j) : (((List.range n).map f).map Prod.fst).Nodup := by
  rw [List.map_map]
  refine List.Pairwise.map _ (R := fun a b => a < b ∧ b < n) ?_ ?_
  · intro a b hab e; have := h a b (by omega) (by omega) e; omega
  · have := List.pairwise_lt_range (n := n)
    exact List.Pairwise.imp_of_mem (fun ha hb hab => ⟨hab, by simpa using hb⟩) this

theorem Ready.carriesSplit {c : CmdSpec} {s : State} {r : Req} {P : State → Prop} (h : Ready c s r) (ha : c.accepted = true)
    (hb : ∀ t q, c.before t q = t) (hk : ∀ u : State, CmdSpec.Kept ⟨2 ^ 80 - 1, u⟩ c) (b : Nat) (g : Nat → Nat)
    (W : State → Req → List RegCell) (he : ∀ u q n, c.exec u q n = u.commitSharedSplit b g (W u q) n)
    (hn : ∀ u q, Req.Same q r → ((W u q).map Prod.fst).Nodup)
    (hP : ∀ u t q, s.RegsAside u → s.ShadowsSame u → Req.Same q r →
      (∀ c ∈ W u q, t.Carries b (g c.1) s.led.nextLsn c) → P t) :
    Completes (runScs c r s) (fun t => s.RegsAside t ∧ P t) := by
  refine h.work ha hb hk ?_
  intro u q t h1 h2 h3 hq h4 h5
  rw [he] at h4 h5
  refine ⟨(h2.trans commitSharedSplit_aside).trans h5, hP u t q h2 h3 hq ?_⟩
  intro c hc
  exact (State.commitSharedSplit_carries hc (fun w hw => cells_unique (hn _ _ hq) hc hw)).of_commits h4.commits_of_answer

theorem Ready.carriesShared {c : CmdSpec} {s : State} {r : Req} {P : State → Prop} (h : Ready c s r) (ha : c.accepted = true)
    (hb : ∀ t q, c.before t q = t) (hk : ∀ u : State, CmdSpec.Kept ⟨2 ^ 80 - 1, u⟩ c) (b : Nat) (g : Req → Nat)
    (W : State → Req → List RegCell) (he : ∀ u q n, c.exec u q n = u.commitShared b (g q) (W u q) n)
    (hn : ∀ u q, Req.Same q r → ((W u q).map Prod.fst).Nodup)
    (hP : ∀ u t q, s.RegsAside u → s.ShadowsSame u → Req.Same q r →
      (∀ c ∈ W u q, t.Carries b (g q) s.led.nextLsn c) → P t) :
    Completes (runScs c r s) (fun t => s.RegsAside t ∧ P t) := by
  refine h.work ha hb hk ?_
  intro u q t h1 h2 h3 hq h4 h5
  rw [he] at h4 h5
  refine ⟨(h2.trans commitShared_aside).trans h5, hP u t q h2 h3 hq ?_⟩
  intro c hc
  exact (State.commitShared_carries hc (fun w hw => cells_unique (hn _ _ hq) hc hw)).of_commits h4.commits_of_answer

theorem Ready.carriesTide {c : CmdSpec} {s : State} {r : Req} {P : State → Prop} (h : Ready c s r) (ha : c.accepted = true)
    (hb : ∀ t q, c.before t q = t) (hk : ∀ u : State, CmdSpec.Kept ⟨2 ^ 80 - 1, u⟩ c)
    (W : State → Req → List RegCell) (he : ∀ u q n, c.exec u q n = u.commitTideCmd q (W u q) n)
    (hn : ∀ u q, Req.Same q r → ((W u q).map Prod.fst).Nodup)
    (hP : ∀ u t q, s.RegsAside u → s.ShadowsSame u → Req.Same q r →
      (∀ c ∈ W u q, ∃ g, t.CarriesAt (s.holderOr r.lane) 9 g s.led.nextLsn c) → P t) :
    Completes (runScs c r s) (fun t => (∀ l a, Aside a → a ≠ R.TIDE_STATUS → t.reg l a = s.reg l a) ∧ P t) := by
  refine h.work ha hb hk ?_
  intro u q t h1 h2 h3 hq h4 h5
  rw [he] at h4 h5
  refine ⟨fun l a ha hne => ?_, hP u t q h2 h3 hq ?_⟩
  · rw [h5 l a ha, State.commitTideCmd_reg ha.1 hne, h2 l a ha]
  intro c hc
  obtain ⟨g, hg⟩ := State.commitTideCmd_carries (s := u) (r := q) (lsn := s.led.nextLsn) hc (fun w hw => cells_unique (hn _ _ hq) hc hw)
  rw [hq.lane, h2.holderOr] at hg
  exact ⟨g, hg.of_commits h4.commits_of_answer⟩

theorem replicated_aside {s u : State} (h : s.RegsAside u) {f : Nat} (hf : f < 64) : u.replicated f = s.replicated f := by
  unfold State.replicated State.bit State.fld
  rw [h _ _ ⟨by simp only [R.IOV_FN_CFG]; omega, by simp only [R.IOV_FN_CFG]; omega⟩]

theorem quotaOf_aside {s u : State} (h : s.RegsAside u) {l : Lane} {x : Src} (hx : x.wf = true) : u.quotaOf l x = s.quotaOf l x := by
  cases x <;> simp only [Src.wf, decide_eq_true_eq] at hx <;> simp only [State.quotaOf]
  · rw [replicated_aside h hx]
  · rename_i q
    have e : u.queueFn l q = s.queueFn l q := by
      unfold State.queueFn State.fld
      rw [h _ _ ⟨by simp only [R.IOV_Q_CFG]; omega, by simp only [R.IOV_Q_CFG]; omega⟩]
    have e2 : s.queueFn l q < 64 := by
      unfold State.queueFn State.fld
      rw [getF_eq]
      exact Nat.mod_lt _ (by decide)
    rw [e, replicated_aside h e2]

theorem streamOf_aside {s u : State} (h : s.RegsAside u) {l : Lane} {x : Src} (hx : x.wf = true) :
    u.streamOf l x = s.streamOf l x := by
  cases x <;> simp only [Src.wf, decide_eq_true_eq] at hx <;> simp only [State.streamOf]
  · rw [replicated_aside h hx]
  · rename_i q
    have e : u.queueFn l q = s.queueFn l q := by
      unfold State.queueFn State.fld
      rw [h _ _ ⟨by simp only [R.IOV_Q_CFG]; omega, by simp only [R.IOV_Q_CFG]; omega⟩]
    have e2 : s.queueFn l q < 64 := by
      unfold State.queueFn State.fld
      rw [getF_eq]
      exact Nat.mod_lt _ (by decide)
    rw [e, replicated_aside h e2]

theorem State.setBitF_wf {s : State} {l : Lane} {a : Nat} {f : Fld} {b : Bool} (h : rfWf s.regs = true) :
    rfWf (s.setBitF l a f b).regs = true := State.setFld_wf h

theorem State.fld_setBitF_other {s : State} (_h : rfWf s.regs = true) {l k : Lane} {a c : Nat} {f g : Fld} {b : Bool}
    (hk : regKey l.ix a ≠ regKey k.ix c) : (s.setBitF l a f b).fld k c g = s.fld k c g := by
  unfold State.fld State.setBitF
  rw [State.reg_setFld_ne hk]

theorem State.syncPend_bit {s : State} (h : rfWf s.regs = true) (l : Lane) :
    ((s.syncPend .E).syncPend .W).bit l R.LHS_PMSTAT F.LHS_PMSTAT_PENDING = s.pmReqs.any (fun x => x.lane == l) := by
  unfold State.syncPend
  have hf : Fld.ok F.LHS_PMSTAT_PENDING := by unfold Fld.ok; decide
  cases l
  · unfold State.bit
    rw [State.fld_setBitF_other (State.setBitF_wf h) (by decide)]
    have := State.bit_setBitF_self h .E R.LHS_PMSTAT F.LHS_PMSTAT_PENDING (s.pmReqs.any (fun x => x.lane == .E)) hf (by decide)
    unfold State.bit at this
    exact this
  · rw [State.bit_setBitF_self (State.setBitF_wf h) .W R.LHS_PMSTAT F.LHS_PMSTAT_PENDING _ hf (by decide), State.setBitF_pmReqs]

theorem State.updStart_own {s : State} (h : rfWf s.regs = true) {p : PotUpd} (hp : p.region = false) :
    rfWf (s.updStart p).regs = true ∧ State.Served { s with potUpds := s.potUpds ++ [p] } (s.updStart p) ∧
      (s.updStart p).potUpds = s.potUpds ++ [p] ∧
      ∀ l, l = p.lane ∨ s.bit l R.POT_STATUS F.POT_STATUS_BUSY = true →
        (s.updStart p).bit l R.POT_STATUS F.POT_STATUS_BUSY = true := by
  have hf : Fld.ok F.POT_STATUS_BUSY := by unfold Fld.ok; decide
  have g : ∀ v : State, rfWf v.regs = true → rfWf (v.setBitF p.lane R.POT_STATUS F.POT_STATUS_BUSY true).regs = true ∧
      State.Served v (v.setBitF p.lane R.POT_STATUS F.POT_STATUS_BUSY true) ∧
      (v.setBitF p.lane R.POT_STATUS F.POT_STATUS_BUSY true).potUpds = v.potUpds ∧
      ∀ l, l = p.lane ∨ v.bit l R.POT_STATUS F.POT_STATUS_BUSY = true →
        (v.setBitF p.lane R.POT_STATUS F.POT_STATUS_BUSY true).bit l R.POT_STATUS F.POT_STATUS_BUSY = true := by
    intro v hv
    refine ⟨State.setBitF_wf hv, State.setBitF_served .., State.setBitF_potUpds _ _ _ _ _, ?_⟩
    intro l hl
    by_cases e : l = p.lane
    · rw [e]; exact State.bit_setBitF_self hv _ _ _ _ hf (by decide)
    · unfold State.bit
      rw [State.fld_setBitF_other hv (by cases l <;> cases hq : p.lane <;> first | (rw [hq] at e; exact absurd rfl e) | decide)]
      exact hl.resolve_left e
  unfold State.updStart
  simp only [hp]
  exact g { s with potUpds := s.potUpds ++ [p] } h

end Sys2Proof.Machine
end

