-- ==== Sys2Proof/Laws/Done.lean ====
section
/-! SUPPORT. What the end of an entry changes: the ledger, its registers, and the quiesces and grants that waited for it. -/

namespace Sys2Proof.Machine

theorem State.Ended.refl (s : State) : State.Ended s s := rfl

theorem State.Ended.parts {s t : State} (h : State.Ended s t) :
    ∃ a b c d e f g x y, t = { s with regs := a, mem := b, irqs := c, outbox := d, led := e, sessions := f, scs := g,
                                      grants := x, quiesces := y } := ⟨_, _, _, _, _, _, _, _, _, h⟩

theorem State.Ended.pending {s t : State} (h : State.Ended s t) : t.pending = s.pending := by
  obtain ⟨_, _, _, _, _, _, _, _, _, rfl⟩ := h.parts
  rfl

theorem State.Ended.now {s t : State} (h : State.Ended s t) : t.now = s.now := by
  obtain ⟨_, _, _, _, _, _, _, _, _, rfl⟩ := h.parts
  rfl

theorem State.Ended.freeCtr {s t : State} (h : State.Ended s t) : t.freeCtr = s.freeCtr := by
  obtain ⟨_, _, _, _, _, _, _, _, _, rfl⟩ := h.parts
  rfl

theorem State.Ended.bus {s t : State} (h : State.Ended s t) : t.bus = s.bus := by
  obtain ⟨_, _, _, _, _, _, _, _, _, rfl⟩ := h.parts
  rfl

theorem State.Ended.commits {s t : State} (h : State.Ended s t) : t.commits = s.commits := by
  obtain ⟨_, _, _, _, _, _, _, _, _, rfl⟩ := h.parts
  rfl

theorem State.Ended.nums {s t : State} (h : State.Ended s t) : t.nums = s.nums := by
  obtain ⟨_, _, _, _, _, _, _, _, _, rfl⟩ := h.parts
  rfl

theorem State.Ended.p0 {s t : State} (h : State.Ended s t) : t.p0 = s.p0 := by
  obtain ⟨_, _, _, _, _, _, _, _, _, rfl⟩ := h.parts
  rfl

theorem State.Ended.p1 {s t : State} (h : State.Ended s t) : t.p1 = s.p1 := by
  obtain ⟨_, _, _, _, _, _, _, _, _, rfl⟩ := h.parts
  rfl

theorem State.Ended.f0 {s t : State} (h : State.Ended s t) : t.f0 = s.f0 := by
  obtain ⟨_, _, _, _, _, _, _, _, _, rfl⟩ := h.parts
  rfl

theorem State.Ended.f1 {s t : State} (h : State.Ended s t) : t.f1 = s.f1 := by
  obtain ⟨_, _, _, _, _, _, _, _, _, rfl⟩ := h.parts
  rfl

theorem State.Ended.fi {s t : State} (h : State.Ended s t) : t.fi = s.fi := by
  obtain ⟨_, _, _, _, _, _, _, _, _, rfl⟩ := h.parts
  rfl

theorem State.Ended.cmn {s t : State} (h : State.Ended s t) : t.cmn = s.cmn := by
  obtain ⟨_, _, _, _, _, _, _, _, _, rfl⟩ := h.parts
  rfl

theorem State.Ended.arb {s t : State} (h : State.Ended s t) : t.arb = s.arb := by
  obtain ⟨_, _, _, _, _, _, _, _, _, rfl⟩ := h.parts
  rfl

theorem State.Ended.ferry {s t : State} (h : State.Ended s t) : t.ferry = s.ferry := by
  obtain ⟨_, _, _, _, _, _, _, _, _, rfl⟩ := h.parts
  rfl

theorem State.Ended.laneE {s t : State} (h : State.Ended s t) : t.laneE = s.laneE := by
  obtain ⟨_, _, _, _, _, _, _, _, _, rfl⟩ := h.parts
  rfl

theorem State.Ended.laneW {s t : State} (h : State.Ended s t) : t.laneW = s.laneW := by
  obtain ⟨_, _, _, _, _, _, _, _, _, rfl⟩ := h.parts
  rfl

theorem State.Ended.mod_ {s t : State} (h : State.Ended s t) : t.mod_ = s.mod_ := by
  obtain ⟨_, _, _, _, _, _, _, _, _, rfl⟩ := h.parts
  rfl

theorem State.Ended.urgents {s t : State} (h : State.Ended s t) : t.urgents = s.urgents := by
  obtain ⟨_, _, _, _, _, _, _, _, _, rfl⟩ := h.parts
  rfl

theorem State.Ended.outs {s t : State} (h : State.Ended s t) : t.outs = s.outs := by
  obtain ⟨_, _, _, _, _, _, _, _, _, rfl⟩ := h.parts
  rfl

theorem State.Ended.feeds {s t : State} (h : State.Ended s t) : t.feeds = s.feeds := by
  obtain ⟨_, _, _, _, _, _, _, _, _, rfl⟩ := h.parts
  rfl

theorem State.Ended.pw0 {s t : State} (h : State.Ended s t) : t.pw0 = s.pw0 := by
  obtain ⟨_, _, _, _, _, _, _, _, _, rfl⟩ := h.parts
  rfl

theorem State.Ended.pw1 {s t : State} (h : State.Ended s t) : t.pw1 = s.pw1 := by
  obtain ⟨_, _, _, _, _, _, _, _, _, rfl⟩ := h.parts
  rfl

theorem State.Ended.fcs {s t : State} (h : State.Ended s t) : t.fcs = s.fcs := by
  obtain ⟨_, _, _, _, _, _, _, _, _, rfl⟩ := h.parts
  rfl

theorem State.Ended.fd0 {s t : State} (h : State.Ended s t) : t.fd0 = s.fd0 := by
  obtain ⟨_, _, _, _, _, _, _, _, _, rfl⟩ := h.parts
  rfl

theorem State.Ended.fd1 {s t : State} (h : State.Ended s t) : t.fd1 = s.fd1 := by
  obtain ⟨_, _, _, _, _, _, _, _, _, rfl⟩ := h.parts
  rfl

theorem State.Ended.fd2 {s t : State} (h : State.Ended s t) : t.fd2 = s.fd2 := by
  obtain ⟨_, _, _, _, _, _, _, _, _, rfl⟩ := h.parts
  rfl

theorem State.Ended.stamps {s t : State} (h : State.Ended s t) : t.stamps = s.stamps := by
  obtain ⟨_, _, _, _, _, _, _, _, _, rfl⟩ := h.parts
  rfl

theorem State.Ended.tideE {s t : State} (h : State.Ended s t) : t.tideE = s.tideE := by
  obtain ⟨_, _, _, _, _, _, _, _, _, rfl⟩ := h.parts
  rfl

theorem State.Ended.tideW {s t : State} (h : State.Ended s t) : t.tideW = s.tideW := by
  obtain ⟨_, _, _, _, _, _, _, _, _, rfl⟩ := h.parts
  rfl

theorem State.Ended.tevArms {s t : State} (h : State.Ended s t) : t.tevArms = s.tevArms := by
  obtain ⟨_, _, _, _, _, _, _, _, _, rfl⟩ := h.parts
  rfl

theorem State.Ended.evtRecs {s t : State} (h : State.Ended s t) : t.evtRecs = s.evtRecs := by
  obtain ⟨_, _, _, _, _, _, _, _, _, rfl⟩ := h.parts
  rfl

theorem State.Ended.cvcE {s t : State} (h : State.Ended s t) : t.cvcE = s.cvcE := by
  obtain ⟨_, _, _, _, _, _, _, _, _, rfl⟩ := h.parts
  rfl

theorem State.Ended.cvcW {s t : State} (h : State.Ended s t) : t.cvcW = s.cvcW := by
  obtain ⟨_, _, _, _, _, _, _, _, _, rfl⟩ := h.parts
  rfl

theorem State.Ended.sels {s t : State} (h : State.Ended s t) : t.sels = s.sels := by
  obtain ⟨_, _, _, _, _, _, _, _, _, rfl⟩ := h.parts
  rfl

theorem State.Ended.pwmRecs {s t : State} (h : State.Ended s t) : t.pwmRecs = s.pwmRecs := by
  obtain ⟨_, _, _, _, _, _, _, _, _, rfl⟩ := h.parts
  rfl

theorem State.Ended.pwmWork {s t : State} (h : State.Ended s t) : t.pwmWork = s.pwmWork := by
  obtain ⟨_, _, _, _, _, _, _, _, _, rfl⟩ := h.parts
  rfl

theorem State.Ended.cmnRecs {s t : State} (h : State.Ended s t) : t.cmnRecs = s.cmnRecs := by
  obtain ⟨_, _, _, _, _, _, _, _, _, rfl⟩ := h.parts
  rfl

theorem State.Ended.canRxE {s t : State} (h : State.Ended s t) : t.canRxE = s.canRxE := by
  obtain ⟨_, _, _, _, _, _, _, _, _, rfl⟩ := h.parts
  rfl

theorem State.Ended.canRxW {s t : State} (h : State.Ended s t) : t.canRxW = s.canRxW := by
  obtain ⟨_, _, _, _, _, _, _, _, _, rfl⟩ := h.parts
  rfl

theorem State.Ended.canPorts {s t : State} (h : State.Ended s t) : t.canPorts = s.canPorts := by
  obtain ⟨_, _, _, _, _, _, _, _, _, rfl⟩ := h.parts
  rfl

theorem State.Ended.fltQ {s t : State} (h : State.Ended s t) : t.fltQ = s.fltQ := by
  obtain ⟨_, _, _, _, _, _, _, _, _, rfl⟩ := h.parts
  rfl

theorem State.Ended.canWork {s t : State} (h : State.Ended s t) : t.canWork = s.canWork := by
  obtain ⟨_, _, _, _, _, _, _, _, _, rfl⟩ := h.parts
  rfl

theorem State.Ended.canHeld {s t : State} (h : State.Ended s t) : t.canHeld = s.canHeld := by
  obtain ⟨_, _, _, _, _, _, _, _, _, rfl⟩ := h.parts
  rfl

theorem State.Ended.lins {s t : State} (h : State.Ended s t) : t.lins = s.lins := by
  obtain ⟨_, _, _, _, _, _, _, _, _, rfl⟩ := h.parts
  rfl

theorem State.Ended.linWork {s t : State} (h : State.Ended s t) : t.linWork = s.linWork := by
  obtain ⟨_, _, _, _, _, _, _, _, _, rfl⟩ := h.parts
  rfl

theorem State.Ended.tbs {s t : State} (h : State.Ended s t) : t.tbs = s.tbs := by
  obtain ⟨_, _, _, _, _, _, _, _, _, rfl⟩ := h.parts
  rfl

theorem State.Ended.eth {s t : State} (h : State.Ended s t) : t.eth = s.eth := by
  obtain ⟨_, _, _, _, _, _, _, _, _, rfl⟩ := h.parts
  rfl

theorem State.Ended.harbInE {s t : State} (h : State.Ended s t) : t.harbInE = s.harbInE := by
  obtain ⟨_, _, _, _, _, _, _, _, _, rfl⟩ := h.parts
  rfl

theorem State.Ended.harbInW {s t : State} (h : State.Ended s t) : t.harbInW = s.harbInW := by
  obtain ⟨_, _, _, _, _, _, _, _, _, rfl⟩ := h.parts
  rfl

theorem State.Ended.harbHeld {s t : State} (h : State.Ended s t) : t.harbHeld = s.harbHeld := by
  obtain ⟨_, _, _, _, _, _, _, _, _, rfl⟩ := h.parts
  rfl

theorem State.Ended.pduFails {s t : State} (h : State.Ended s t) : t.pduFails = s.pduFails := by
  obtain ⟨_, _, _, _, _, _, _, _, _, rfl⟩ := h.parts
  rfl

theorem State.Ended.harbE {s t : State} (h : State.Ended s t) : t.harbE = s.harbE := by
  obtain ⟨_, _, _, _, _, _, _, _, _, rfl⟩ := h.parts
  rfl

theorem State.Ended.harbW {s t : State} (h : State.Ended s t) : t.harbW = s.harbW := by
  obtain ⟨_, _, _, _, _, _, _, _, _, rfl⟩ := h.parts
  rfl

theorem State.Ended.cw {s t : State} (h : State.Ended s t) : t.cw = s.cw := by
  obtain ⟨_, _, _, _, _, _, _, _, _, rfl⟩ := h.parts
  rfl

theorem State.Ended.nms {s t : State} (h : State.Ended s t) : t.nms = s.nms := by
  obtain ⟨_, _, _, _, _, _, _, _, _, rfl⟩ := h.parts
  rfl

theorem State.Ended.vfOps {s t : State} (h : State.Ended s t) : t.vfOps = s.vfOps := by
  obtain ⟨_, _, _, _, _, _, _, _, _, rfl⟩ := h.parts
  rfl

theorem State.Ended.iovQs {s t : State} (h : State.Ended s t) : t.iovQs = s.iovQs := by
  obtain ⟨_, _, _, _, _, _, _, _, _, rfl⟩ := h.parts
  rfl

theorem State.Ended.potUpds {s t : State} (h : State.Ended s t) : t.potUpds = s.potUpds := by
  obtain ⟨_, _, _, _, _, _, _, _, _, rfl⟩ := h.parts
  rfl

theorem State.Ended.copies {s t : State} (h : State.Ended s t) : t.copies = s.copies := by
  obtain ⟨_, _, _, _, _, _, _, _, _, rfl⟩ := h.parts
  rfl

theorem State.Ended.lstepTests {s t : State} (h : State.Ended s t) : t.lstepTests = s.lstepTests := by
  obtain ⟨_, _, _, _, _, _, _, _, _, rfl⟩ := h.parts
  rfl

theorem State.Ended.tamperLog {s t : State} (h : State.Ended s t) : t.tamperLog = s.tamperLog := by
  obtain ⟨_, _, _, _, _, _, _, _, _, rfl⟩ := h.parts
  rfl

theorem State.Ended.secE {s t : State} (h : State.Ended s t) : t.secE = s.secE := by
  obtain ⟨_, _, _, _, _, _, _, _, _, rfl⟩ := h.parts
  rfl

theorem State.Ended.secW {s t : State} (h : State.Ended s t) : t.secW = s.secW := by
  obtain ⟨_, _, _, _, _, _, _, _, _, rfl⟩ := h.parts
  rfl

theorem State.Ended.keyOps {s t : State} (h : State.Ended s t) : t.keyOps = s.keyOps := by
  obtain ⟨_, _, _, _, _, _, _, _, _, rfl⟩ := h.parts
  rfl

theorem State.Ended.pmReqs {s t : State} (h : State.Ended s t) : t.pmReqs = s.pmReqs := by
  obtain ⟨_, _, _, _, _, _, _, _, _, rfl⟩ := h.parts
  rfl

theorem State.Ended.ownOps {s t : State} (h : State.Ended s t) : t.ownOps = s.ownOps := by
  obtain ⟨_, _, _, _, _, _, _, _, _, rfl⟩ := h.parts
  rfl

theorem State.Ended.fuseOps {s t : State} (h : State.Ended s t) : t.fuseOps = s.fuseOps := by
  obtain ⟨_, _, _, _, _, _, _, _, _, rfl⟩ := h.parts
  rfl

theorem State.Ended.upd {s t : State} (h : State.Ended s t) : t.upd = s.upd := by
  obtain ⟨_, _, _, _, _, _, _, _, _, rfl⟩ := h.parts
  rfl

theorem State.Ended.calUs {s t : State} (h : State.Ended s t) : t.calUs = s.calUs := by
  obtain ⟨_, _, _, _, _, _, _, _, _, rfl⟩ := h.parts
  rfl

theorem State.Ended.parE {s t : State} (h : State.Ended s t) : t.parE = s.parE := by
  obtain ⟨_, _, _, _, _, _, _, _, _, rfl⟩ := h.parts
  rfl

theorem State.Ended.parW {s t : State} (h : State.Ended s t) : t.parW = s.parW := by
  obtain ⟨_, _, _, _, _, _, _, _, _, rfl⟩ := h.parts
  rfl

theorem State.Ended.of_parts {s : State} {a : List RegCell} {b : List Host.Cell} {c : List Irq} {d : List OutMsg}
    {e : Ledger} {f : List Session} {g : ScsRt} {x : List Grant} {y : List VfOp} :
    State.Ended s { s with regs := a, mem := b, irqs := c, outbox := d, led := e, sessions := f, scs := g, grants := x,
                           quiesces := y } := rfl

theorem State.Ended.trans {s t u : State} (h : State.Ended s t) (g : State.Ended t u) : State.Ended s u := by
  obtain ⟨a, b, c, d, e, f, k, x, y, rfl⟩ := h.parts
  obtain ⟨a2, b2, c2, d2, e2, f2, k2, x2, y2, rfl⟩ := g.parts
  exact State.Ended.of_parts

theorem State.Served.ended {s t : State} (h : State.Served s t) : State.Ended s t := by
  obtain ⟨a, b, c, d, e, f, k, rfl⟩ := h.parts
  exact State.Ended.of_parts

/-- A relation that holds of every step of a fold holds of the fold. -/
theorem foldl_rel {α : Type} {R : State → State → Prop} (hr : ∀ s, R s s) (ht : ∀ s t u, R s t → R t u → R s u)
    {f : State → α → State} (hf : ∀ s x, R s (f s x)) (xs : List α) (s : State) : R s (xs.foldl f s) := by
  induction xs generalizing s with
  | nil => exact hr s
  | cons x xs ih => exact ht _ _ _ (hf s x) (ih _)

theorem State.countBoth_served (s : State) (a : Nat) : State.Served s (s.countBoth a) :=
  (State.count_served _ _ _).trans (State.count_served _ _ _)

theorem State.syncLedgLane_served (s : State) (l : Lane) : State.Served s (s.syncLedgLane l) := by
  unfold State.syncLedgLane
  extract_lets s1 s2 s3 s4 s5 s6 s7
  have h1 : State.Served s s1 := State.setFld_served ..
  have h2 : State.Served s1 s2 := State.setFld_served ..
  have h3 : State.Served s2 s3 := State.setFld_served ..
  have h4 : State.Served s3 s4 := State.setReg_served ..
  have h5 : State.Served s4 s5 := State.setFld_served ..
  have h6 : State.Served s5 s6 := State.setBitF_served ..
  have h7 : State.Served s6 s7 := State.setBitF_served ..
  exact (((((((h1.trans h2).trans h3).trans h4).trans h5).trans h6).trans h7).trans (State.setBitF_served ..))

theorem State.syncLedg_served (s : State) : State.Served s s.syncLedg :=
  (State.syncLedgLane_served _ _).trans (State.syncLedgLane_served _ _)

theorem State.setLed_served (s : State) (x : Ledger) : State.Served s (s.setLed x) := rfl

theorem State.mapEntry_served (s : State) (n : Nat) (f : LEntry → LEntry) : State.Served s (s.mapEntry n f) := rfl

theorem State.endEntry_served (s : State) (lsn disp err : Nat) : State.Served s (s.endEntry lsn disp err) := by
  unfold State.endEntry
  split
  · exact .refl s
  · split
    · exact (((State.mapEntry_served ..).trans (State.setLed_served ..)).trans (State.countBoth_served _ _)).trans
        (State.syncLedg_served _)
    · exact .refl s

theorem State.withQuiesces_ended (s : State) (q : List VfOp) : State.Ended s { s with quiesces := q } := rfl

theorem State.withGrants_ended (s : State) (g : List Grant) : State.Ended s { s with grants := g } := rfl

theorem State.settleQuiesce_ended (s : State) : State.Ended s s.settleQuiesce := by
  unfold State.settleQuiesce
  refine foldl_rel .refl (fun _ _ _ h g => h.trans g) ?_ _ _
  intro t v
  split
  · exact .refl t
  · extract_lets s1 s2
    have h1 : State.Ended t s1 := (State.setFld_served ..).ended
    have h2 : State.Ended s1 s2 := State.withQuiesces_ended ..
    split
    · exact h1.trans h2
    · exact (h1.trans h2).trans (State.endEntry_served ..).ended

theorem State.settleGrants_ended (s : State) : State.Ended s s.settleGrants := by
  unfold State.settleGrants
  refine foldl_rel .refl (fun _ _ _ h g => h.trans g) ?_ _ _
  intro t g
  split
  · exact .refl t
  · extract_lets s1
    have h1 : State.Ended t s1 := State.withGrants_ended ..
    split
    · exact h1
    · exact h1.trans (State.endEntry_served ..).ended

theorem State.dispose_ended (s : State) (lsn disp err : Nat) : State.Ended s (s.dispose lsn disp err) :=
  ((State.endEntry_served s lsn disp err).ended.trans (State.settleQuiesce_ended _)).trans (State.settleGrants_ended _)

theorem State.done_ended (s : State) (lsn : Nat) : State.Ended s (s.done lsn) := State.dispose_ended ..

theorem State.failed_ended (s : State) (lsn err : Nat) : State.Ended s (s.failed lsn err) := State.dispose_ended ..

/-! ### Registers -/

theorem State.FarBut.refl (ks : List Nat) (s : State) : State.FarBut ks s s := fun _ _ _ _ => rfl

theorem State.FarBut.trans {ks : List Nat} {s t u : State} (h : State.FarBut ks s t) (g : State.FarBut ks t u) :
    State.FarBut ks s u := fun l a ha hk => (g l a ha hk).trans (h l a ha hk)

theorem State.RegsAside.farBut {ks : List Nat} {s t : State} (h : s.RegsAside t) : State.FarBut ks s t :=
  fun l a ha _ => h l a ha.1

theorem State.FarBut.of_regs {ks : List Nat} {s t : State} (h : t.regs = s.regs) : State.FarBut ks s t :=
  (State.RegsAside.of_regs h).farBut

theorem State.endEntry_reg {s : State} {lsn disp err : Nat} {l : Lane} {a : Nat} (h : Aside a) (hd : disp < 0x10000) :
    (s.endEntry lsn disp err).reg l a = s.reg l a := by
  unfold State.endEntry
  split
  · rfl
  · split
    · simp only []
      rw [State.syncLedg_reg h, State.reg_countBoth_ne]
      · rfl
      · intro k
        apply h.ne
        unfold R.LEDG_CNT
        omega
    · rfl

theorem State.reg_withQuiesces (s : State) (q : List VfOp) (l : Lane) (a : Nat) :
    State.reg { s with quiesces := q } l a = s.reg l a := rfl

theorem State.settleQuiesce_reg {s : State} {l : Lane} {a : Nat} (h : Far a) : s.settleQuiesce.reg l a = s.reg l a := by
  unfold State.settleQuiesce
  refine foldl_rel (R := fun s t => t.reg l a = s.reg l a) (fun _ => rfl) (fun _ _ _ h g => g.trans h) ?_ _ _
  intro t v
  split
  · rfl
  · extract_lets s1 s2
    have h1 : s2.reg l a = t.reg l a := by
      refine (State.reg_withQuiesces s1 _ l a).trans ?_
      refine State.reg_setFld_ne (regKey_ne ?_ h.1.1 ?_)
      · unfold R.IOV_FN_STATE; omega
      · have := h.2
        unfold R.IOV_FN_STATE
        omega
    split
    · exact h1
    · rw [State.endEntry_reg h.1 (by decide), h1]

theorem State.settleGrants_reg {s : State} {l : Lane} {a : Nat} (h : Aside a) : s.settleGrants.reg l a = s.reg l a := by
  unfold State.settleGrants
  refine foldl_rel (R := fun s t => t.reg l a = s.reg l a) (fun _ => rfl) (fun _ _ _ h g => g.trans h) ?_ _ _
  intro t g
  split
  · rfl
  · extract_lets s1
    have h1 : s1.reg l a = t.reg l a := rfl
    split
    · exact h1
    · rw [State.endEntry_reg h (by decide), h1]

theorem State.dispose_far (ks : List Nat) (s : State) (lsn disp err : Nat) (hd : disp < 0x10000) :
    State.FarBut ks s (s.dispose lsn disp err) := by
  intro l a h _
  unfold State.dispose
  rw [State.settleGrants_reg h.1, State.settleQuiesce_reg h, State.endEntry_reg h.1 hd]

theorem State.done_far (ks : List Nat) (s : State) (lsn : Nat) : State.FarBut ks s (s.done lsn) :=
  State.dispose_far _ _ _ _ _ (by decide)

theorem State.failed_far (ks : List Nat) (s : State) (lsn err : Nat) : State.FarBut ks s (s.failed lsn err) :=
  State.dispose_far _ _ _ _ _ (by decide)

theorem State.FarBut.setReg {ks : List Nat} {s : State} {l : Lane} {a : Nat} {v : Word} (ha : a < 2 ^ 32) (h : a ∈ ks) :
    State.FarBut ks s (s.setReg l a v) := fun _ b hb hk =>
  State.reg_setReg_ne (regKey_ne ha hb.1.1 (fun e => hk (e ▸ h)))

theorem State.FarBut.setFld {ks : List Nat} {s : State} {l : Lane} {a : Nat} {f : Fld} {v : Nat} (ha : a < 2 ^ 32)
    (h : a ∈ ks) : State.FarBut ks s (s.setFld l a f v) := State.FarBut.setReg ha h

theorem State.FarBut.setBitF {ks : List Nat} {s : State} {l : Lane} {a : Nat} {f : Fld} {v : Bool} (ha : a < 2 ^ 32)
    (h : a ∈ ks) : State.FarBut ks s (s.setBitF l a f v) := State.FarBut.setReg ha h

theorem State.FarBut.count {ks : List Nat} {s : State} {l : Lane} {a : Nat} (ha : a < 2 ^ 32)
    (h : a ∈ ks) : State.FarBut ks s (s.count l a) := State.FarBut.setReg ha h

/-- A ready accepted command that ends at once, or of whose work entries end. -/
theorem Ready.ended {c : CmdSpec} {s : State} {r : Req} {P : State → Prop} (h : Ready c s r) (ha : c.accepted = true)
    (hb : ∀ t q, c.before t q = t) (hk : ∀ u : State, CmdSpec.Kept ⟨2 ^ 80 - 1, u⟩ c) (X : State → Req → State)
    (he : ∀ u q, c.exec u q s.led.nextLsn = (X u q).done s.led.nextLsn)
    (hP : ∀ u q t, rfWf u.regs = true → State.Served s u → s.RegsAside u → Req.Same q r →
      State.Ended (X u q) t → (∀ ks, State.FarBut ks (X u q) t) → P t) :
    Completes (runScs c r s) P := by
  refine h.served ha hb hk ?_
  intro u q t h1 h2 h3 _ hq h4 h5
  rw [he] at h4 h5
  exact hP u q t h1.regs h2 h3 hq ((State.done_ended _ _).trans h4.ended) (fun ks => (State.done_far ks _ _).trans h5.farBut)

end Sys2Proof.Machine
end

