-- ==== Sys2Proof/Laws/Both.lean ====
section
/-! SUPPORT. Writes to both lanes' registers: each lane reads the value. -/

namespace Sys2Proof.Machine

theorem State.reg_key {s : State} {l k : Lane} {a b : Nat} (h : regKey l.ix a = regKey k.ix b) : s.reg l a = s.reg k b := by
  unfold State.reg
  rw [h]

theorem State.reg_setRegBoth {s : State} (h : rfWf s.regs = true) (l : Lane) (a : Nat) (v : Word) :
    (s.setRegBoth a v).reg l a = v := by
  unfold State.setRegBoth
  cases l
  · by_cases hk : regKey Lane.W.ix a = regKey Lane.E.ix a
    · rw [State.reg_key hk.symm, State.reg_setReg_self (State.setReg_wf h)]
    · rw [State.reg_setReg_ne hk, State.reg_setReg_self h]
  · exact State.reg_setReg_self (State.setReg_wf h) _ _ _

theorem State.reg_setRegsBoth {s : State} (h : rfWf s.regs = true) (a : Nat) (ws : List Word)
    (ha : a + 4 * ws.length ≤ 2 ^ 32) (l : Lane) (i : Nat) (hi : i < ws.length) :
    ((s.setRegs .E a ws).setRegs .W a ws).reg l (a + 4 * i) = ws[i] := by
  have hw := State.reg_setRegs (State.setRegs_wf (l := .E) (a := a) (ws := ws) h) .W a ws ha i hi
  cases l
  · by_cases hk : regKey Lane.W.ix (a + 4 * i) = regKey Lane.E.ix (a + 4 * i)
    · rw [State.reg_key hk.symm, hw]
    · rw [State.reg_setRegs_ne, State.reg_setRegs h .E a ws ha i hi]
      intro j hj
      by_cases e : j = i
      · rw [e]; exact hk
      · refine regKey_ne ?_ ?_ ?_ <;> omega
  · exact hw

theorem State.fld_setFldBoth {s : State} (h : rfWf s.regs = true) (l : Lane) (a : Nat) (f : Fld) (v : Nat) (hf : Fld.ok f) :
    (s.setFldBoth a f v).fld l a f = v % 2 ^ fldWidth f := by
  unfold State.setFldBoth
  cases l
  · by_cases hk : regKey Lane.W.ix a = regKey Lane.E.ix a
    · have := State.fld_setFld_self (State.setFld_wf (l := .E) (a := a) (f := f) (v := v) h) .W a f v hf
      unfold State.fld at this ⊢
      rw [State.reg_key hk.symm, this]
    · have := State.fld_setFld_self h .E a f v hf
      unfold State.fld at this ⊢
      rw [State.reg_setFld_ne hk, this]
  · exact State.fld_setFld_self (State.setFld_wf h) .W a f v hf

theorem State.bit_setBitBoth {s : State} (h : rfWf s.regs = true) (l : Lane) (a : Nat) (f : Fld) (b : Bool)
    (hf : Fld.ok f) (h1 : f.lo = f.hi) : (s.setBitBoth a f b).bit l a f = b := by
  have e : s.setBitBoth a f b = s.setFldBoth a f (b2n b) := rfl
  unfold State.bit
  rw [e, State.fld_setFldBoth h l a f _ hf]
  unfold fldWidth
  rw [show f.hi + 1 - f.lo = 1 by omega]
  cases b <;> rfl

/-- A field beside the written one, in either lane. -/
theorem State.fld_setFld_apart {s : State} (h : rfWf s.regs = true) (l k : Lane) (a : Nat) {f g : Fld} (v : Nat) (hf : Fld.ok f)
    (hg : Fld.ok g) (hx : Fld.apart f g) : (s.setFld l a f v).fld k a g = s.fld k a g := by
  by_cases hk : regKey l.ix a = regKey k.ix a
  · have := State.fld_setFld_ne (l' := l) (b := a) (v := v) (l := l) (a := a) h hf hg (.inr ⟨rfl, rfl, hx⟩)
    unfold State.fld at this ⊢
    rw [State.reg_key hk.symm, this, State.reg_key hk]
  · unfold State.fld
    rw [State.reg_setFld_ne hk]

theorem State.setRegBoth_wf {s : State} {a : Nat} {v : Word} (h : rfWf s.regs = true) :
    rfWf (s.setRegBoth a v).regs = true := State.setReg_wf (State.setReg_wf h)

theorem State.setFldBoth_wf {s : State} {a : Nat} {f : Fld} {v : Nat} (h : rfWf s.regs = true) :
    rfWf (s.setFldBoth a f v).regs = true := State.setFld_wf (State.setFld_wf h)

theorem State.setRegBoth_served (s : State) (a : Nat) (v : Word) : State.Served s (s.setRegBoth a v) :=
  (State.setReg_served ..).trans (State.setReg_served ..)

theorem State.setFldBoth_served (s : State) (a : Nat) (f : Fld) (v : Nat) : State.Served s (s.setFldBoth a f v) :=
  (State.setFld_served ..).trans (State.setFld_served ..)

theorem State.setBitBoth_served (s : State) (a : Nat) (f : Fld) (b : Bool) : State.Served s (s.setBitBoth a f b) :=
  (State.setFld_served ..).trans (State.setFld_served ..)

theorem State.setRegs_served (s : State) (l : Lane) (a : Nat) (ws : List Word) : State.Served s (s.setRegs l a ws) := by
  induction ws generalizing s a with
  | nil => exact .refl s
  | cons w ws ih => exact (State.setReg_served s l a w).trans (ih _ _)

theorem State.setRegs_far {s : State} {l : Lane} {a : Nat} {ws : List Word} (ha : a + 4 * ws.length ≤ 2 ^ 32) (n : Nat)
    (hn : ws.length ≤ n) : State.FarBut ((List.range n).map (fun i => a + 4 * i)) s (s.setRegs l a ws) := by
  intro k b hb hk
  refine State.reg_setRegs_ne ?_
  intro i hi
  refine regKey_ne (by omega) hb.1.1 ?_
  intro e
  exact hk (List.mem_map.mpr ⟨i, by simp; omega, e⟩)

theorem State.FarBut.setFldBoth {ks : List Nat} {s : State} {a : Nat} {f : Fld} {v : Nat} (ha : a < 2 ^ 32)
    (h : a ∈ ks) : State.FarBut ks s (s.setFldBoth a f v) := (State.FarBut.setFld ha h).trans (State.FarBut.setFld ha h)

/-- The lane's register outside those that the end of an entry or the interface may write, in the old state. -/
theorem State.FarBut.fld {s t : State} (h : State.FarBut [] s t) (l : Lane) {a : Nat} (ha : Far a) (f : Fld) :
    t.fld l a f = s.fld l a f := by
  unfold State.fld
  rw [h l a ha (by simp)]

theorem State.FarBut.bit {s t : State} (h : State.FarBut [] s t) (l : Lane) {a : Nat} (ha : Far a) (f : Fld) :
    t.bit l a f = s.bit l a f := by
  unfold State.bit
  rw [h.fld l ha]

/-! ### Grants, shadows, entries -/

/-- Every grant of `t` is one of `s`, but for whether it stands. -/
def GrantsOf (s t : State) : Prop :=
  ∀ g ∈ t.grants, ∃ g' ∈ s.grants, g.block = g'.block ∧ g.lane = g'.lane ∧ g.fn = g'.fn ∧ g.lsn = g'.lsn

theorem GrantsOf.of_eq {s t : State} (h : t.grants = s.grants) : GrantsOf s t :=
  fun g hg => ⟨g, h ▸ hg, rfl, rfl, rfl, rfl⟩

theorem GrantsOf.trans {s t u : State} (h : GrantsOf s t) (k : GrantsOf t u) : GrantsOf s u := by
  intro g hg
  obtain ⟨g1, m1, a1, a2, a3, a4⟩ := k g hg
  obtain ⟨g2, m2, b1, b2, b3, b4⟩ := h g1 m1
  exact ⟨g2, m2, a1.trans b1, a2.trans b2, a3.trans b3, a4.trans b4⟩

theorem State.settleQuiesce_grants (s : State) : s.settleQuiesce.grants = s.grants := by
  unfold State.settleQuiesce
  refine foldl_rel (R := fun s t => t.grants = s.grants) (fun _ => rfl) (fun _ _ _ h g => g.trans h) ?_ _ _
  intro t v
  split
  · rfl
  · extract_lets s1 s2
    have h1 : s2.grants = t.grants := by
      have : s1.grants = t.grants := State.Served.grants (State.setFld_served ..)
      exact this
    split
    · exact h1
    · exact (State.Served.grants (State.endEntry_served ..)).trans h1

theorem State.settleGrants_of (s : State) : GrantsOf s s.settleGrants := by
  unfold State.settleGrants
  refine foldl_rel (R := GrantsOf) (fun _ => .of_eq rfl) (fun _ _ _ h g => h.trans g) ?_ _ _
  intro t x
  split
  · exact .of_eq rfl
  · extract_lets s1
    have h1 : GrantsOf t s1 := by
      intro g hg
      obtain ⟨y, hy, rfl⟩ := List.mem_map.mp hg
      refine ⟨y, hy, ?_⟩
      split <;> exact ⟨rfl, rfl, rfl, rfl⟩
    split
    · exact h1
    · exact h1.trans (.of_eq (State.Served.grants (State.endEntry_served ..)))

theorem State.done_grants (s : State) (lsn : Nat) : GrantsOf s (s.done lsn) :=
  GrantsOf.trans (t := (s.endEntry lsn 1 0).settleQuiesce)
    (.of_eq ((State.settleQuiesce_grants _).trans (State.Served.grants (State.endEntry_served ..)))) (State.settleGrants_of _)

theorem State.reloadShadow_reg {s : State} {l k : Lane} {lo hi a : Nat} (ha : a < 2 ^ 32) :
    (s.reloadShadow l lo hi).reg k a = s.reg k a := by
  unfold State.reloadShadow
  extract_lets base act
  rw [State.writeShadows_reg ha]
  show rfGet (rfReset s.regs (shadowKey l.ix lo) (shadowKey l.ix hi)) (regKey k.ix a) = _
  rw [rfGet_rfReset_ne]
  · rfl
  · left
    unfold shadowKey regKey
    have h1 : a < homeSpan := ha
    have h2 : k.ix % 2 < 2 := Nat.mod_lt _ (by decide)
    have h3 : (if sharedReg a then 2 else k.ix % 2) ≤ 2 := by split <;> omega
    have h4 : (if sharedReg a then 2 else k.ix % 2) * homeSpan ≤ 2 * homeSpan := Nat.mul_le_mul_right _ h3
    have h5 : 3 * homeSpan ≤ (3 + l.ix % 2) * homeSpan := Nat.mul_le_mul_right _ (by omega)
    omega

theorem State.writeShadow_served (s : State) (l : Lane) (a : Nat) (v : Word) : State.Served s (s.writeShadow l a v) :=
  .withRegs s _

theorem State.writeShadows_served (s : State) (l : Lane) (ws : List RegCell) : State.Served s (s.writeShadows l ws) := by
  induction ws generalizing s with
  | nil => exact .refl s
  | cons c cs ih =>
    obtain ⟨a, v⟩ := c
    exact (State.writeShadow_served s l a v).trans (ih _)

theorem State.reloadShadow_served (s : State) (l : Lane) (lo hi : Nat) : State.Served s (s.reloadShadow l lo hi) := by
  unfold State.reloadShadow
  exact State.Served.trans (.withRegs s _) (State.writeShadows_served _ _ _)

theorem State.endGrants_own (s : State) (p : Grant → Bool) :
    State.Ended s (s.endGrants p) ∧ (s.endGrants p).grants = s.grants.filter (fun g => !p g) ∧
      ∀ l a, a < 2 ^ 32 → (s.endGrants p).reg l a = s.reg l a := by
  unfold State.endGrants
  extract_lets gone s1
  have h : ∀ (xs : List Grant) (v : State), State.Served v (xs.foldl (fun s g => if g.standing then
      s.reloadShadow g.lane (0xE0000000 + g.block * 0x100000) (0xE0100000 + g.block * 0x100000) else s) v) ∧
      ∀ l a, a < 2 ^ 32 → (xs.foldl (fun s g => if g.standing then
      s.reloadShadow g.lane (0xE0000000 + g.block * 0x100000) (0xE0100000 + g.block * 0x100000) else s) v).reg l a = v.reg l a := by
    intro xs v
    refine ⟨foldl_rel (R := State.Served) .refl (fun _ _ _ h g => h.trans g) ?_ _ _,
      foldl_rel (R := fun s t => ∀ l a, a < 2 ^ 32 → t.reg l a = s.reg l a) (fun _ _ _ _ => rfl)
        (fun _ _ _ h g l a ha => (g l a ha).trans (h l a ha)) ?_ _ _⟩
    · intro t g
      split
      · exact State.reloadShadow_served ..
      · exact .refl t
    · intro t g l a ha
      split
      · exact State.reloadShadow_reg ha
      · rfl
  obtain ⟨i1, i2⟩ := h gone s1
  refine ⟨State.Ended.trans (State.withGrants_ended s _) i1.ended, i1.grants, ?_⟩
  intro l a ha
  rw [i2 l a ha]
  rfl

/-- The same as `Ready.ended`, with what the answer itself leaves. -/
theorem Ready.endedAnswer {c : CmdSpec} {s : State} {r : Req} {P : State → Prop} (h : Ready c s r) (ha : c.accepted = true)
    (hb : ∀ t q, c.before t q = t) (hk : ∀ u : State, CmdSpec.Kept ⟨2 ^ 80 - 1, u⟩ c) (X : State → Req → State)
    (he : ∀ u q, c.exec u q s.led.nextLsn = (X u q).done s.led.nextLsn)
    (hP : ∀ u q t, u.Inv → State.Served s u → s.RegsAside u → Req.Same q r →
      State.Ended (X u q) t → (∀ ks, State.FarBut ks (X u q) t) → GrantsOf (X u q) t →
      State.Served ((X u q).done s.led.nextLsn) t → ((X u q).done s.led.nextLsn).RegsAside t → P t) :
    Completes (runScs c r s) P := by
  refine h.served ha hb hk ?_
  intro u q t h1 h2 h3 _ hq h4 h5
  rw [he] at h4 h5
  exact hP u q t h1 h2 h3 hq ((State.done_ended _ _).trans h4.ended) (fun ks => (State.done_far ks _ _).trans h5.farBut)
    ((State.done_grants _ _).trans (.of_eq h4.grants)) h4 h5

end Sys2Proof.Machine
end

