-- ==== Sys2Proof/Laws/Commands.lean ====
section
/-! SUPPORT. What the operations behind single commands change. -/

namespace Sys2Proof.Machine

theorem lst_setLst {s : State} (h : rfWf s.regs = true) (l : Lane) (v : Nat) : (s.setLst l v).lst l = v % 2 ^ fldWidth F.FERRY_LANE_OWN_STATE := by
  have f1 : Fld.ok F.FERRY_LANE_OWN_STATE := by unfold Fld.ok; decide
  have f2 : Fld.ok F.FERRY_LANE_LEASE_VALID := by unfold Fld.ok; decide
  have f3 : Fld.ok F.FERRY_LANE_MODE := by unfold Fld.ok; decide
  have a1 : Fld.apart F.FERRY_LANE_LEASE_VALID F.FERRY_LANE_OWN_STATE := by unfold Fld.apart; decide
  have a2 : Fld.apart F.FERRY_LANE_MODE F.FERRY_LANE_OWN_STATE := by unfold Fld.apart; decide
  have e2 : ∀ (x : State) (k : Lane) (b : Bool), rfWf x.regs = true → (x.setBitF k R.FERRY_LANE F.FERRY_LANE_LEASE_VALID b).lst l = x.lst l := by
    intro x k b hx
    unfold State.lst State.setBitF
    exact State.fld_setFld_apart hx _ _ _ _ f2 f1 a1
  have e3 : ∀ (x : State) (k : Lane) (b : Nat), rfWf x.regs = true → (x.setFld k R.FERRY_LANE F.FERRY_LANE_MODE b).lst l = x.lst l := by
    intro x k b hx
    unfold State.lst
    exact State.fld_setFld_apart hx _ _ _ _ f3 f1 a2
  have e4 : ∀ (x : State) (k : Lane) (b : Bool), (x.setBitF k R.FERRY_STATUS F.FERRY_STATUS_SINGLE_ENTERED b).lst l = x.lst l := by
    intro x k b
    unfold State.lst State.setBitF State.fld
    rw [State.reg_setFld_ne (regKey_ne (by decide) (by decide) (by decide))]
  have e5 : ∀ (x : State) (k : Lane), (x.syncSafe k).lst l = x.lst l := by
    intro x k; cases k <;> rfl
  have es : ∀ (x : State) (o : Nat), rfWf x.regs = true → (x.syncMode o).lst l = x.lst l := by
    intro x o hx
    unfold State.syncMode
    simp only []
    rw [e5, e5]
    split
    · unfold State.setBitBoth State.setFldBoth
      have := e4 (State.setBitF (x.setFldBoth R.FERRY_LANE F.FERRY_LANE_MODE x.mode) .E R.FERRY_STATUS F.FERRY_STATUS_SINGLE_ENTERED true) .W true
      refine Eq.trans this ?_
      rw [e4]
      unfold State.setFldBoth
      rw [e3 _ _ _ (State.setFld_wf hx), e3 _ _ _ hx]
    · unfold State.setFldBoth
      rw [e3 _ _ _ (State.setFld_wf hx), e3 _ _ _ hx]
  unfold State.setLst
  simp only []
  rw [es]
  · split
    · unfold State.lst; exact State.fld_setFld_self h _ _ _ _ f1
    · rw [e2 _ _ _ (State.setFld_wf h)]; unfold State.lst; exact State.fld_setFld_self h _ _ _ _ f1
  · split
    · exact State.setFld_wf h
    · exact State.setBitF_wf (State.setFld_wf h)

theorem cw_bit_keep {s t : State} {l : Lane} {w : Nat} (h : t.reg l (R.CWY_W_STAT w) = s.reg l (R.CWY_W_STAT w)) : t.fenced l w = s.fenced l w := by
  unfold State.fenced State.bit State.fld; rw [h]

theorem accSend_fenced {s : State} (h : rfWf s.regs = true) (a : CwAcc) (l : Lane) (w : Nat) (hw : w < 64) (ha : a.win < 64) :
    (s.accSend a).fenced l w = s.fenced l w ∧ rfWf (s.accSend a).regs = true := by
  have f1 : Fld.ok F.CWY_W_STAT_FENCED := by unfold Fld.ok; decide
  have f2 : Fld.ok F.CWY_W_STAT_NP_OUT := by unfold Fld.ok; decide
  have f3 : Fld.ok F.CWY_W_STAT_P_OUT := by unfold Fld.ok; decide
  have a1 : Fld.apart F.CWY_W_STAT_NP_OUT F.CWY_W_STAT_FENCED := by unfold Fld.apart; decide
  have a2 : Fld.apart F.CWY_W_STAT_P_OUT F.CWY_W_STAT_FENCED := by unfold Fld.apart; decide
  have e1 : ∀ (x : State) (k : Lane) (v : Nat), rfWf x.regs = true → (x.setFld k (R.CWY_W_STAT a.win) F.CWY_W_STAT_NP_OUT v).fenced l w = x.fenced l w := by
    intro x k v hx; 
    by_cases ew : w = a.win
    · rw [ew]; unfold State.fenced State.bit; rw [State.fld_setFld_apart hx _ _ _ _ f2 f1 a1]
    · refine cw_bit_keep (State.reg_setFld_ne (regKey_ne ?_ ?_ ?_)) <;> simp only [R.CWY_W_STAT] <;> omega
  have e2 : ∀ (x : State) (k : Lane) (v : Nat), rfWf x.regs = true → (x.setFld k (R.CWY_W_STAT a.win) F.CWY_W_STAT_P_OUT v).fenced l w = x.fenced l w := by
    intro x k v hx; 
    by_cases ew : w = a.win
    · rw [ew]; unfold State.fenced State.bit; rw [State.fld_setFld_apart hx _ _ _ _ f3 f1 a2]
    · refine cw_bit_keep (State.reg_setFld_ne (regKey_ne ?_ ?_ ?_)) <;> simp only [R.CWY_W_STAT] <;> omega
  have es : ∀ (x : State) (k : Lane), rfWf x.regs = true → (x.syncOut k a.win).fenced l w = x.fenced l w ∧ rfWf (x.syncOut k a.win).regs = true := by
    intro x k hx
    unfold State.syncOut
    simp only []
    exact ⟨by rw [e2 _ _ _ (State.setFld_wf hx), e1 _ _ _ hx], State.setFld_wf (State.setFld_wf hx)⟩
  have ed : ∀ (x : State) (k : Lane), rfWf x.regs = true → (x.dropBlk k a.win).fenced l w = x.fenced l w ∧ rfWf (x.dropBlk k a.win).regs = true := by
    intro x k hx
    unfold State.dropBlk
    split
    · exact ⟨rfl, hx⟩
    · simp only []
      split
      · exact ⟨rfl, hx⟩
      · refine ⟨?_, State.setReg_wf (State.setReg_wf hx)⟩
        refine cw_bit_keep ?_
        rw [State.reg_setReg_ne (regKey_ne (by simp only [R.CWY_W_LAST_DISC]; omega) (by simp only [R.CWY_W_STAT]; omega) (by simp only [R.CWY_W_LAST_DISC, R.CWY_W_STAT]; omega)),
          State.reg_count_ne (regKey_ne (by decide) (by simp only [R.CWY_W_STAT]; omega) (by simp only [R.CWY_CNT, R.CWY_W_STAT]; omega))]
        rfl
  unfold State.accSend
  extract_lets n a' i base ty x m s1 s2 s3
  have h1 : s2.fenced l w = s.fenced l w ∧ rfWf s2.regs = true := ⟨rfl, h⟩
  have h3 : s3.fenced l w = s.fenced l w ∧ rfWf s3.regs = true := by
    obtain ⟨i1, i2⟩ := es s2 a'.lane h1.2
    exact ⟨i1.trans h1.1, i2⟩
  clear_value s3
  split
  · split
    · obtain ⟨i1, i2⟩ := ed s3 a'.lane h3.2
      exact ⟨i1.trans h3.1, i2⟩
    · exact h3
  · exact h3

theorem cwPump_fenced {n : Nat} : ∀ {s : State} (_ : rfWf s.regs = true) (k : Nat) (l : Lane) (w : Nat) (_ : w < 64) (_ : k < 64),
    (s.cwPump k n).fenced l w = s.fenced l w ∧ rfWf (s.cwPump k n).regs = true := by
  induction n with
  | zero => intro s h k l w _ _; exact ⟨rfl, h⟩
  | succ n ih =>
    intro s h k l w hw hk
    unfold State.cwPump
    split
    · exact ⟨rfl, h⟩
    · rename_i a hf
      have hk' : a.win < 64 := by
        have := List.find?_some hf
        have e : a.win = k := by simpa using this
        omega
      split
      · exact ⟨rfl, h⟩
      · obtain ⟨i1, i2⟩ := accSend_fenced (s := s.modCw (fun c => { c with wait := c.wait.erase a })) h a l w hw hk'
        obtain ⟨j1, j2⟩ := ih (s := (s.modCw (fun c => { c with wait := c.wait.erase a })).accSend a) i2 k l w hw hk
        exact ⟨j1.trans i1, j2⟩

theorem unfence_fenced {s : State} (h : rfWf s.regs = true) (k : Nat) (l : Lane) (w : Nat) (hw : w < 64) (hk : k < 64) :
    (s.unfence k).fenced l w = (s.fenced l w && decide (w ≠ k)) ∧ rfWf (s.unfence k).regs = true := by
  unfold State.unfence State.cwPumpAll
  have hx : rfWf (s.setBitBoth (R.CWY_W_STAT k) F.CWY_W_STAT_FENCED false).regs = true := State.setFldBoth_wf h
  have e : (s.setBitBoth (R.CWY_W_STAT k) F.CWY_W_STAT_FENCED false).fenced l w = (s.fenced l w && decide (w ≠ k)) := by
    by_cases e : w = k
    · subst e
      unfold State.fenced
      rw [State.bit_setBitBoth h _ _ _ _ (by unfold Fld.ok; decide) (by decide)]
      simp
    · simp only [e, ne_eq, not_false_eq_true, decide_true, Bool.and_true]
      refine cw_bit_keep ?_
      unfold State.setBitBoth
      refine State.reg_setFldBoth_ne ?_
      intro m
      refine regKey_ne ?_ ?_ ?_ <;> simp only [R.CWY_W_STAT] <;> omega
  generalize s.setBitBoth (R.CWY_W_STAT k) F.CWY_W_STAT_FENCED false = x at *
  obtain ⟨i1, i2⟩ := cwPump_fenced (n := x.cw.wait.length + 1) hx k l w hw hk
  exact ⟨i1.trans e, i2⟩

theorem unfenceAll {ws : List Nat} : ∀ {s : State} (_ : rfWf s.regs = true) (l : Lane) (w : Nat) (_ : w < 64) (_ : ∀ k ∈ ws, k < 64),
    (ws.foldl State.unfence s).fenced l w = (s.fenced l w && decide (w ∉ ws)) := by
  induction ws with
  | nil => intro s h l w _ _; simp
  | cons k ks ih =>
    intro s h l w hw hk
    obtain ⟨i1, i2⟩ := unfence_fenced h k l w hw (hk k List.mem_cons_self)
    rw [List.foldl_cons, ih i2 l w hw (fun j hj => hk j (List.mem_cons_of_mem _ hj)), i1]
    by_cases e : w = k <;> simp [e]

theorem requal_aside {s u : State} (h : s.RegsAside u) (l : Lane) : u.requalifies l = s.requalifies l := by
  unfold State.requalifies State.qualified State.clockBad State.lstepBad State.bench State.lifecycle State.bit
  rw [h.lst, h.fld l (by exact ⟨by decide, by decide⟩), h.fld l (by exact ⟨by decide, by decide⟩), h.fld l (by exact ⟨by decide, by decide⟩), h.fld l (by exact ⟨by decide, by decide⟩), h.fld l (by exact ⟨by decide, by decide⟩)]

theorem requal_shape {s u v t : State} {l : Lane} (h : State.Served s u) (m : v = State.mix 0x180008 (u.releaseDown l) v) (g : State.Ended v t) :
    State.Ended { s with arb := t.arb, laneE := t.laneE, laneW := t.laneW } t ∧ (l = .E → t.arb = { s.arb with downE := false }) ∧
      (l = .W → t.arb = { s.arb with downW := false }) := by
  have m' : ∃ a b c, v = { u.releaseDown l with regs := a, laneE := b, laneW := c } := ⟨_, _, _, m⟩
  obtain ⟨a, b, c, rfl⟩ := m'
  obtain ⟨_, _, _, _, _, _, _, _, _, rfl⟩ := g.parts
  obtain ⟨_, _, _, _, _, _, _, rfl⟩ := h.parts
  cases l <;> exact ⟨rfl, by simp [State.releaseDown], by simp [State.releaseDown]⟩

theorem syncLedgLane_wf {s : State} {l : Lane} (h : rfWf s.regs = true) : rfWf (s.syncLedgLane l).regs = true := by
  unfold State.syncLedgLane
  extract_lets s1 s2 s3 s4 s5 s6 s7
  have h1 : rfWf s1.regs = true := State.setFld_wf h
  clear_value s1
  have h2 : rfWf s2.regs = true := State.setFld_wf h1
  clear_value s2
  have h3 : rfWf s3.regs = true := State.setFld_wf h2
  clear_value s3
  have h4 : rfWf s4.regs = true := State.setReg_wf h3
  clear_value s4
  have h5 : rfWf s5.regs = true := State.setFld_wf h4
  clear_value s5
  have h6 : rfWf s6.regs = true := State.setBitF_wf h5
  clear_value s6
  have h7 : rfWf s7.regs = true := State.setBitF_wf h6
  clear_value s7
  exact State.setBitF_wf h7

theorem syncLedg_wf {s : State} (h : rfWf s.regs = true) : rfWf s.syncLedg.regs = true := syncLedgLane_wf (syncLedgLane_wf h)

theorem countBoth_wf {s : State} {a : Nat} (h : rfWf s.regs = true) : rfWf (s.countBoth a).regs = true := State.setReg_wf (State.setReg_wf h)

theorem endEntry_wf {s : State} {n d e : Nat} (h : rfWf s.regs = true) : rfWf (s.endEntry n d e).regs = true := by
  unfold State.endEntry
  split
  · exact h
  · split
    · simp only []
      exact syncLedg_wf (countBoth_wf h)
    · exact h

theorem fnState_own : ∀ f, f < 64 → sharedReg (R.IOV_FN_STATE f) = false := by decide

theorem done_dirty {s : State} (h : rfWf s.regs = true) (n : Nat) (l : Lane) (f : Nat) (hf : f < 64) :
    (s.done n).bit l (R.IOV_FN_STATE f) F.IOV_FN_STATE_DIRTY_SEL = s.bit l (R.IOV_FN_STATE f) F.IOV_FN_STATE_DIRTY_SEL := by
  have as_ : Aside (R.IOV_FN_STATE f) := by unfold Aside R.IOV_FN_STATE; omega
  have f1 : Fld.ok F.IOV_FN_STATE_DIRTY_SEL := by unfold Fld.ok; decide
  have f2 : Fld.ok F.IOV_FN_STATE_STATE := by unfold Fld.ok; decide
  have a1 : Fld.apart F.IOV_FN_STATE_STATE F.IOV_FN_STATE_DIRTY_SEL := by unfold Fld.apart; decide
  have he : ∀ (s : State) (n d e : Nat), d < 65536 → (s.endEntry n d e).fld l (R.IOV_FN_STATE f) F.IOV_FN_STATE_DIRTY_SEL = s.fld l (R.IOV_FN_STATE f) F.IOV_FN_STATE_DIRTY_SEL := by
    intro s n d e hd; unfold State.fld; rw [State.endEntry_reg as_ hd]
  have hq : ∀ s : State, rfWf s.regs = true → s.settleQuiesce.fld l (R.IOV_FN_STATE f) F.IOV_FN_STATE_DIRTY_SEL = s.fld l (R.IOV_FN_STATE f) F.IOV_FN_STATE_DIRTY_SEL := by
    intro s hs
    unfold State.settleQuiesce
    refine (foldl_rel (R := fun s t => rfWf s.regs = true → t.fld l (R.IOV_FN_STATE f) F.IOV_FN_STATE_DIRTY_SEL = s.fld l (R.IOV_FN_STATE f) F.IOV_FN_STATE_DIRTY_SEL ∧ rfWf t.regs = true) (fun _ h => ⟨rfl, h⟩) (fun _ _ _ h g x => ⟨(g (h x).2).1.trans (h x).1, (g (h x).2).2⟩) ?_ _ _ hs).1
    intro t v ht
    split
    · exact ⟨rfl, ht⟩
    · extract_lets s1 s2
      have h1 : s1.fld l (R.IOV_FN_STATE f) F.IOV_FN_STATE_DIRTY_SEL = t.fld l (R.IOV_FN_STATE f) F.IOV_FN_STATE_DIRTY_SEL ∧ rfWf s1.regs = true := by
        refine ⟨?_, State.setFld_wf ht⟩
        by_cases e : v.fn % 64 = f
        · show (State.setFld _ _ _ _ _).fld _ _ _ = _
          rw [e]; exact State.fld_setFld_apart ht _ _ _ _ f2 f1 a1
        · unfold State.fld
          have hv := Nat.mod_lt v.fn (show 0 < 64 by decide)
          rw [State.reg_setFld_ne (regKey_ne ?_ as_.1 ?_)] <;> unfold R.IOV_FN_STATE <;> omega
      have h2 : s2.fld l (R.IOV_FN_STATE f) F.IOV_FN_STATE_DIRTY_SEL = s1.fld l (R.IOV_FN_STATE f) F.IOV_FN_STATE_DIRTY_SEL ∧ rfWf s2.regs = true := by
        refine ⟨?_, h1.2⟩
        unfold State.fld
        rw [show s2.reg l (R.IOV_FN_STATE f) = s1.reg l (R.IOV_FN_STATE f) from State.reg_withQuiesces ..]
      clear_value s2 s1
      split
      · exact ⟨h2.1.trans h1.1, h2.2⟩
      · exact ⟨(he _ _ _ _ (by decide)).trans (h2.1.trans h1.1), endEntry_wf h2.2⟩
  unfold State.done State.dispose State.bit
  have hg : ∀ s : State, s.settleGrants.fld l (R.IOV_FN_STATE f) F.IOV_FN_STATE_DIRTY_SEL = s.fld l (R.IOV_FN_STATE f) F.IOV_FN_STATE_DIRTY_SEL := by
    intro s; unfold State.fld; rw [State.settleGrants_reg as_]
  rw [hg, hq _ (endEntry_wf h), he _ _ _ _ (by decide)]

theorem swapLanes (f : Nat) (hf : f < 64) {ls : List Lane} (hn : ls.Nodup) : ∀ {s : State} (_ : rfWf s.regs = true) (l : Lane),
    let t := ls.foldl (fun s l => s.setBitF l (R.IOV_FN_STATE f) F.IOV_FN_STATE_DIRTY_SEL (!s.bit l (R.IOV_FN_STATE f) F.IOV_FN_STATE_DIRTY_SEL)) s
    rfWf t.regs = true ∧ State.Served s t ∧ (∀ k a, Far a → t.reg k a = s.reg k a) ∧
    t.bit l (R.IOV_FN_STATE f) F.IOV_FN_STATE_DIRTY_SEL = (s.bit l (R.IOV_FN_STATE f) F.IOV_FN_STATE_DIRTY_SEL ^^ ls.contains l) := by
  induction ls with
  | nil => intro s h l; exact ⟨h, .refl s, fun _ _ _ => rfl, by simp⟩
  | cons k ks ih =>
    intro s h l
    obtain ⟨hk, hn'⟩ := List.nodup_cons.mp hn
    have f1 : Fld.ok F.IOV_FN_STATE_DIRTY_SEL := by unfold Fld.ok; decide
    simp only [List.foldl_cons]
    have hs := State.setBitF_served s k (R.IOV_FN_STATE f) F.IOV_FN_STATE_DIRTY_SEL (!s.bit k (R.IOV_FN_STATE f) F.IOV_FN_STATE_DIRTY_SEL)
    have hw := State.setBitF_wf (l := k) (a := R.IOV_FN_STATE f) (f := F.IOV_FN_STATE_DIRTY_SEL) (b := !s.bit k (R.IOV_FN_STATE f) F.IOV_FN_STATE_DIRTY_SEL) h
    have hr : ∀ m a, Far a → (s.setBitF k (R.IOV_FN_STATE f) F.IOV_FN_STATE_DIRTY_SEL (!s.bit k (R.IOV_FN_STATE f) F.IOV_FN_STATE_DIRTY_SEL)).reg m a = s.reg m a := by
      intro m a ha
      have := ha.2
      exact State.reg_setFld_ne (regKey_ne (by unfold R.IOV_FN_STATE; omega) ha.1.1 (by unfold R.IOV_FN_STATE; omega))
    have hb : (s.setBitF k (R.IOV_FN_STATE f) F.IOV_FN_STATE_DIRTY_SEL (!s.bit k (R.IOV_FN_STATE f) F.IOV_FN_STATE_DIRTY_SEL)).bit l (R.IOV_FN_STATE f) F.IOV_FN_STATE_DIRTY_SEL = (s.bit l (R.IOV_FN_STATE f) F.IOV_FN_STATE_DIRTY_SEL ^^ decide (l = k)) := by
      by_cases e : l = k
      · subst e
        rw [State.bit_setBitF_self h _ _ _ _ f1 (by decide)]; simp
      · simp only [e, decide_false, Bool.xor_false]
        unfold State.bit
        rw [State.fld_setBitF_other h]
        unfold regKey
        rw [fnState_own f hf]
        cases l <;> cases k <;> first | exact absurd rfl e | (simp [Lane.ix, homeSpan])
    obtain ⟨i1, i2, i3, i4⟩ := ih hn' hw l
    refine ⟨i1, hs.trans i2, fun m a ha => (i3 m a ha).trans (hr m a ha), ?_⟩
    rw [i4, hb]
    by_cases e : l = k
    · subst e; simp [hk]
    · simp [e]

theorem far_of {a : Nat} (h : a < 0xE0400000 ∨ (0xE0600000 ≤ a ∧ a < 0xE1201000) ∨ (0xE1202000 ≤ a ∧ a < 2 ^ 32)) : Far a := by
  unfold Far Aside; omega

theorem run_mem {a n i : Nat} (h : i < n) : a + 4 * i ∈ (List.range n).map (fun i => a + 4 * i) :=
  List.mem_map.mpr ⟨i, by simpa using h, rfl⟩

theorem fieldAt_4 (bs : List Byte) (o : Nat) : fieldAt bs o 4 = fieldAt bs o 2 + 65536 * fieldAt bs (o + 2) 2 := by
  unfold fieldAt slice
  rw [← List.drop_drop]
  generalize bs.drop o = xs
  match xs with
  | [] => rfl
  | [a] => simp [leNat]
  | [a, b] => simp [leNat]
  | [a, b, c] => simp [leNat]; omega
  | a :: b :: c :: d :: ys => simp [leNat]; omega

theorem setF_u16 (r : Req) : getF (r.w 2) ⟨31, 16⟩ = r.u16 4 := by
  have h2 : fieldAt r.payload 2 2 < 65536 := Req.u16_lt r 2
  have h4 : fieldAt r.payload 4 2 < 65536 := Req.u16_lt r 4
  rw [getF_eq]
  show (BitVec.ofNat 32 (fieldAt r.payload 2 4)).toNat / 2 ^ 16 % 2 ^ 16 = fieldAt r.payload 4 2
  rw [fieldAt_4]
  simp only [BitVec.toNat_ofNat, show 2 + 2 = 4 from rfl]
  omega

def unlock1 (n : Nat) (s : State) (l : Lane) : State := (s.setSec l { s.sec l with scope := n }).setBitF l R.LHS_STATUS F.LHS_STATUS_DBG_UNLOCKED true

theorem unlock1_own {s : State} (n : Nat) (k : Lane) (h : rfWf s.regs = true) :
    rfWf (unlock1 n s k).regs = true ∧ State.Served { s with secE := (unlock1 n s k).secE, secW := (unlock1 n s k).secW } (unlock1 n s k) ∧
    State.FarBut [R.LHS_STATUS] s (unlock1 n s k) ∧ ∀ l, l = k ∨ ((s.sec l).scope = n ∧ s.bit l R.LHS_STATUS F.LHS_STATUS_DBG_UNLOCKED = true) →
      ((unlock1 n s k).sec l).scope = n ∧ (unlock1 n s k).bit l R.LHS_STATUS F.LHS_STATUS_DBG_UNLOCKED = true := by
  unfold unlock1
  have f1 : Fld.ok F.LHS_STATUS_DBG_UNLOCKED := by unfold Fld.ok; decide
  have hx : rfWf (s.setSec k { s.sec k with scope := n }).regs = true := by cases k <;> exact h
  have hxr : (s.setSec k { s.sec k with scope := n }).regs = s.regs := by cases k <;> rfl
  have hxs : State.Served { s with secE := (s.setSec k { s.sec k with scope := n }).secE, secW := (s.setSec k { s.sec k with scope := n }).secW } (s.setSec k { s.sec k with scope := n }) := by cases k <;> rfl
  have hxl : ((s.setSec k { s.sec k with scope := n }).sec k).scope = n := by cases k <;> rfl
  have hxo : ∀ l, l ≠ k → (s.setSec k { s.sec k with scope := n }).sec l = s.sec l := by intro l hl; cases l <;> cases k <;> first | exact absurd rfl hl | rfl
  generalize s.setSec k { s.sec k with scope := n } = x at *
  have hb := State.setBitF_served x k R.LHS_STATUS F.LHS_STATUS_DBG_UNLOCKED true
  have hsec : ∀ l, (x.setBitF k R.LHS_STATUS F.LHS_STATUS_DBG_UNLOCKED true).sec l = x.sec l := by
    intro l; cases l
    · exact hb.secE
    · exact hb.secW
  refine ⟨State.setBitF_wf hx, ?_, ?_, ?_⟩
  · rw [hb.secE, hb.secW]
    exact hxs.trans hb
  · exact State.FarBut.trans (State.FarBut.of_regs hxr) (State.FarBut.setBitF (by decide) (by simp))
  · intro l hl
    rw [hsec]
    by_cases e : l = k
    · subst e; exact ⟨hxl, State.bit_setBitF_self hx _ _ _ _ f1 (by decide)⟩
    · rw [hxo l e]
      have hl := hl.resolve_left e
      refine ⟨hl.1, ?_⟩
      unfold State.bit
      rw [State.fld_setBitF_other hx (by cases l <;> cases k <;> first | exact absurd rfl e | decide)]
      unfold State.fld State.reg
      rw [hxr]
      exact hl.2

theorem unlockLanes (n : Nat) {ls : List Lane} : ∀ {s : State} (_ : rfWf s.regs = true),
    rfWf (ls.foldl (unlock1 n) s).regs = true ∧ State.Served { s with secE := (ls.foldl (unlock1 n) s).secE, secW := (ls.foldl (unlock1 n) s).secW } (ls.foldl (unlock1 n) s) ∧ State.FarBut [R.LHS_STATUS] s (ls.foldl (unlock1 n) s) ∧
    ∀ l, l ∈ ls ∨ ((s.sec l).scope = n ∧ s.bit l R.LHS_STATUS F.LHS_STATUS_DBG_UNLOCKED = true) →
      ((ls.foldl (unlock1 n) s).sec l).scope = n ∧ (ls.foldl (unlock1 n) s).bit l R.LHS_STATUS F.LHS_STATUS_DBG_UNLOCKED = true := by
  induction ls with
  | nil => intro s h; exact ⟨h, rfl, fun _ _ _ _ => rfl, fun l hl => by simpa using hl⟩
  | cons k ks ih =>
    intro s h
    obtain ⟨j1, j2, j3, j4⟩ := unlock1_own n k h
    simp only [List.foldl_cons]
    generalize unlock1 n s k = x at *
    obtain ⟨i1, i2, i3, i4⟩ := ih j1
    refine ⟨i1, ?_, j3.trans i3, ?_⟩
    · refine State.Served.trans ?_ i2
      obtain ⟨_, _, _, _, _, _, _, e⟩ := j2.parts
      generalize (ks.foldl (unlock1 n) x).secE = sE at *
      generalize (ks.foldl (unlock1 n) x).secW = sW at *
      generalize x.secE = xE at *
      generalize x.secW = xW at *
      subst e
      rfl
    · intro l hl
      refine i4 l ?_
      rcases hl with hl | hl
      · rcases List.mem_cons.mp hl with e | hl
        · exact .inr (j4 l (.inl e))
        · exact .inl hl
      · exact .inr (j4 l (.inr hl))

theorem setPar_facts (s : State) (l : Lane) (x : ParRt) : (s.setPar l x).regs = s.regs ∧ (s.setPar l x).par l = x ∧ (∀ k, k ≠ l → (s.setPar l x).par k = s.par k) ∧
    State.Served { s with parE := (s.setPar l x).parE, parW := (s.setPar l x).parW } (s.setPar l x) := by
  cases l
  · exact ⟨rfl, rfl, fun k hk => by cases k <;> first | exact absurd rfl hk | rfl, rfl⟩
  · exact ⟨rfl, rfl, fun k hk => by cases k <;> first | exact absurd rfl hk | rfl, rfl⟩

def parRegs : List Nat := R.PARI_SESS :: (List.range 4).map (fun i => R.PARI_EIN_LO + 4 * i)

theorem addWh_own {s : State} (l : Lane) (a n : Nat) (ha : a = R.PARI_EIN_LO ∨ a = R.PARI_EOUT_LO) :
    State.Served s (s.addWh l a n) ∧ State.FarBut parRegs s (s.addWh l a n) ∧ ∀ k, (s.addWh l a n).reg k R.PARI_SESS = s.reg k R.PARI_SESS := by
  have m1 : a ∈ parRegs := by rcases ha with rfl | rfl <;> decide
  have m2 : a + 4 ∈ parRegs := by rcases ha with rfl | rfl <;> decide
  have c1 : a < 2 ^ 32 ∧ a + 4 < 2 ^ 32 ∧ a ≠ R.PARI_SESS ∧ a + 4 ≠ R.PARI_SESS := by rcases ha with rfl | rfl <;> decide
  unfold State.addWh
  extract_lets v
  refine ⟨(State.setReg_served ..).trans (State.setReg_served ..), State.FarBut.trans (State.FarBut.setReg c1.1 m1) (State.FarBut.setReg c1.2.1 m2), ?_⟩
  intro k
  rw [State.reg_setReg_ne (regKey_ne c1.2.1 (by decide) c1.2.2.2), State.reg_setReg_ne (regKey_ne c1.1 (by decide) c1.2.2.1)]

theorem endSession_own {s : State} (hw : rfWf s.regs = true) (l : Lane) (r : Req) :
    State.Served { s with parE := (s.endSession l r).parE, parW := (s.endSession l r).parW } (s.endSession l r) ∧ State.FarBut parRegs s (s.endSession l r) ∧
    ((s.endSession l r).par l).open_ = false ∧ (∀ k, k ≠ l → (s.endSession l r).par k = s.par k) ∧
    (s.endSession l r).reg l R.PARI_SESS = BitVec.ofNat 32 (satInc 32 (s.reg l R.PARI_SESS).toNat) ∧ ∀ k, k ≠ l → (s.endSession l r).reg k R.PARI_SESS = s.reg k R.PARI_SESS := by
  unfold State.endSession
  obtain ⟨p1, p2, p3, p4⟩ := setPar_facts s l { s.par l with open_ := false }
  generalize s.setPar l { s.par l with open_ := false } = x at *
  have hx : rfWf x.regs = true := by rw [p1]; exact hw
  have hc := State.count_served x l R.PARI_SESS
  have hcf : State.FarBut parRegs x (x.count l R.PARI_SESS) := State.FarBut.count (by decide) (by decide)
  have hc1 : (x.count l R.PARI_SESS).reg l R.PARI_SESS = BitVec.ofNat 32 (satInc 32 (s.reg l R.PARI_SESS).toNat) := by
    rw [State.reg_count_self hx]; unfold State.reg; rw [p1]
  have hc2 : ∀ k, k ≠ l → (x.count l R.PARI_SESS).reg k R.PARI_SESS = s.reg k R.PARI_SESS := by
    intro k hk
    rw [State.reg_count_ne (by cases k <;> cases l <;> first | exact absurd rfl hk | decide)]; unfold State.reg; rw [p1]
  generalize x.count l R.PARI_SESS = y at *
  obtain ⟨a1, a2, a3⟩ := addWh_own (s := y) l R.PARI_EIN_LO (r.u32 4) (.inl rfl)
  generalize y.addWh l R.PARI_EIN_LO (r.u32 4) = z at *
  obtain ⟨b1, b2, b3⟩ := addWh_own (s := z) l R.PARI_EOUT_LO (r.u32 8) (.inr rfl)
  generalize z.addWh l R.PARI_EOUT_LO (r.u32 8) = w at *
  have hs : State.Served x w := (hc.trans a1).trans b1
  have hp : ∀ k, w.par k = x.par k := by intro k; cases k; exact hs.parE; exact hs.parW
  refine ⟨?_, ((State.FarBut.of_regs p1).trans hcf).trans (a2.trans b2), ?_, ?_, ?_, ?_⟩
  · rw [hs.parE, hs.parW]; exact p4.trans hs
  · rw [hp, p2]
  · intro k hk; rw [hp, p3 k hk]
  · rw [b3, a3, hc1]
  · intro k hk; rw [b3, a3, hc2 k hk]

theorem kn_key {l k : Lane} {i h w h' w' : Nat} (hi : i < 16) (hh : h < 6) (hw : w < 2) (hh' : h' < 6) (hw' : w' < 2)
    (hne : l ≠ k ∨ h ≠ h' ∨ w ≠ w') : regKey l.ix (R.CVC_KN_STATE i h w) ≠ regKey k.ix (R.CVC_KN_STATE i h' w') := by
  have hs : ∀ h w, h < 6 → w < 2 → sharedReg (R.CVC_KN_STATE i h w) = false := by
    intro h w hh hw
    have : ∀ i, i < 16 → ∀ h, h < 6 → ∀ w, w < 2 → sharedReg (R.CVC_KN_STATE i h w) = false := by decide
    exact this i hi h hh w hw
  unfold regKey
  rw [hs h w hh hw, hs h' w' hh' hw']
  have e1 : R.CVC_KN_STATE i h w < 2 ^ 32 := by unfold R.CVC_KN_STATE; omega
  have e2 : R.CVC_KN_STATE i h' w' < 2 ^ 32 := by unfold R.CVC_KN_STATE; omega
  by_cases hl : l = k
  · subst hl
    have : R.CVC_KN_STATE i h w ≠ R.CVC_KN_STATE i h' w' := by
      unfold R.CVC_KN_STATE
      rcases hne with h | h | h
      · exact absurd rfl h
      · omega
      · omega
    intro e
    exact this (Nat.add_left_cancel e)
  · have : homeSpan = 2 ^ 32 := rfl
    cases l <;> cases k <;> first | exact absurd rfl hl | (simp [Lane.ix]; omega)

theorem setNode_own {s : State} (hw : rfWf s.regs = true) (l : Lane) (i h : Nat) (v : Int) (hi : i < 16) (hh : h < 6) :
    rfWf (s.setNodeState l i h v).regs = true ∧ State.Served s (s.setNodeState l i h v) ∧
    State.FarBut ((List.range 12).map (fun k => R.CVC_KN_STATE i 0 0 + 4 * k)) s (s.setNodeState l i h v) ∧
    ∀ k h' w, h' < 6 → w < 2 → (s.setNodeState l i h v).reg k (R.CVC_KN_STATE i h' w) =
      if k = l ∧ h' = h then BitVec.ofNat 32 (if w = 0 then uext 64 v else uext 64 v / 2 ^ 32) else s.reg k (R.CVC_KN_STATE i h' w) := by
  unfold State.setNodeState
  extract_lets n
  have m : ∀ w, w < 2 → R.CVC_KN_STATE i h w ∈ (List.range 12).map (fun k => R.CVC_KN_STATE i 0 0 + 4 * k) := by
    intro w hw
    exact List.mem_map.mpr ⟨2 * h + w, by simp; omega, by unfold R.CVC_KN_STATE; omega⟩
  have c : ∀ w, w < 2 → R.CVC_KN_STATE i h w < 2 ^ 32 := by intro w hw; unfold R.CVC_KN_STATE; omega
  refine ⟨State.setReg_wf (State.setReg_wf hw), (State.setReg_served ..).trans (State.setReg_served ..), State.FarBut.trans (State.FarBut.setReg (c 0 (by decide)) (m 0 (by decide))) (State.FarBut.setReg (c 1 (by decide)) (m 1 (by decide))), ?_⟩
  intro k h' w hh' hw'
  by_cases e : k = l ∧ h' = h
  · obtain ⟨rfl, rfl⟩ := e
    simp only [and_self, if_true]
    have : w = 0 ∨ w = 1 := by omega
    rcases this with rfl | rfl
    · rw [State.reg_setReg_ne (kn_key hi hh (by decide) hh (by decide) (by omega)), State.reg_setReg_self hw]; rfl
    · rw [State.reg_setReg_self (State.setReg_wf hw)]; rfl
  · rw [if_neg e]
    have ne : ∀ w1, l ≠ k ∨ h ≠ h' ∨ w1 ≠ w := by
      intro w1
      by_cases e1 : k = l
      · exact .inr (.inl (fun x => e ⟨e1, x.symm⟩))
      · exact .inl (fun x => e1 x.symm)
    rw [State.reg_setReg_ne (kn_key hi hh (by decide) hh' hw' (ne 1)), State.reg_setReg_ne (kn_key hi hh (by decide) hh' hw' (ne 0))]

theorem setNodes_own {hs : List Nat} : ∀ {s : State} (_ : rfWf s.regs = true) (l : Lane) (i : Nat) (v : Int) (_ : i < 16) (_ : ∀ h ∈ hs, h < 6),
    rfWf (s.forEach hs (fun s h => s.setNodeState l i h v)).regs = true ∧ State.Served s (s.forEach hs (fun s h => s.setNodeState l i h v)) ∧
    State.FarBut ((List.range 12).map (fun k => R.CVC_KN_STATE i 0 0 + 4 * k)) s (s.forEach hs (fun s h => s.setNodeState l i h v)) ∧
    ∀ k h' w, h' < 6 → w < 2 → (s.forEach hs (fun s h => s.setNodeState l i h v)).reg k (R.CVC_KN_STATE i h' w) =
      if k = l ∧ h' ∈ hs then BitVec.ofNat 32 (if w = 0 then uext 64 v else uext 64 v / 2 ^ 32) else s.reg k (R.CVC_KN_STATE i h' w) := by
  induction hs with
  | nil => intro s hw l i v _ _; exact ⟨hw, .refl s, .refl _ s, fun k h' w _ _ => by simp [State.forEach]⟩
  | cons h hs ih =>
    intro s hw l i v hi hm
    obtain ⟨a1, a2, a3, a4⟩ := setNode_own hw l i h v hi (hm h List.mem_cons_self)
    simp only [State.forEach]
    generalize s.setNodeState l i h v = x at *
    obtain ⟨b1, b2, b3, b4⟩ := ih a1 l i v hi (fun k hk => hm k (List.mem_cons_of_mem _ hk))
    refine ⟨b1, a2.trans b2, a3.trans b3, ?_⟩
    intro k h' w hh hw'
    rw [b4 k h' w hh hw', a4 k h' w hh hw']
    by_cases e1 : k = l <;> by_cases e2 : h' = h <;> by_cases e3 : h' ∈ hs <;> simp [e1, e2, e3]

theorem nodeBoth {s : State} (hw : rfWf s.regs = true) (i : Nat) (hs : List Nat) (v : Int) (hi : i < 16) (hm : ∀ h ∈ hs, h < 6)
    (t : State) (ht : t = (s.forEach hs (fun s h => s.setNodeState .E i h v)).forEach hs (fun s h => s.setNodeState .W i h v)) :
    State.Served s t ∧ State.FarBut ((List.range 12).map (fun k => R.CVC_KN_STATE i 0 0 + 4 * k)) s t ∧
    ∀ k h' w, h' < 6 → w < 2 → t.reg k (R.CVC_KN_STATE i h' w) =
      if h' ∈ hs then BitVec.ofNat 32 (if w = 0 then uext 64 v else uext 64 v / 2 ^ 32) else s.reg k (R.CVC_KN_STATE i h' w) := by
  subst ht
  obtain ⟨a1, a2, a3, a4⟩ := setNodes_own hw .E i v hi hm
  generalize s.forEach hs (fun s h => s.setNodeState .E i h v) = x at *
  obtain ⟨b1, b2, b3, b4⟩ := setNodes_own a1 .W i v hi hm
  refine ⟨a2.trans b2, a3.trans b3, ?_⟩
  intro k h' w hh hw'
  rw [b4 k h' w hh hw', a4 k h' w hh hw']
  cases k <;> by_cases e3 : h' ∈ hs <;> simp [e3]

theorem sext_words (r : Req) : BitVec.ofNat 32 (uext 64 (sext 32 (r.u32 4))) = r.w 4 ∧
    BitVec.ofNat 32 (uext 64 (sext 32 (r.u32 4)) / 2 ^ 32) = if r.u32 4 < 2 ^ 31 then 0 else 0xFFFFFFFF := by
  have hx : r.u32 4 < 2 ^ 32 := by
    have := leNat_lt (slice r.payload 4 4)
    have h2 : (slice r.payload 4 4).length ≤ 4 := List.length_take_le _ _
    have h3 : 256 ^ (slice r.payload 4 4).length ≤ 256 ^ 4 := Nat.pow_le_pow_right (by decide) h2
    exact Nat.lt_of_lt_of_le this h3
  have hw : r.w 4 = BitVec.ofNat 32 (r.u32 4) := rfl
  rw [hw]
  generalize r.u32 4 = n at *
  have hu : uext 64 (sext 32 n) = if n < 2 ^ 31 then n else 2 ^ 64 - 2 ^ 32 + n := by
    unfold uext sext
    simp only [show 32 - 1 = 31 from rfl]
    split
    · omega
    · have : (2 ^ 64 : Nat) = 18446744073709551616 := rfl
      have : (2 ^ 32 : Nat) = 4294967296 := rfl
      omega
  rw [hu]
  refine ⟨?_, ?_⟩
  · apply BitVec.eq_of_toNat_eq
    simp only [BitVec.toNat_ofNat]
    split <;> omega
  · split
    · rw [Nat.div_eq_of_lt hx]; rfl
    · apply BitVec.eq_of_toNat_eq
      simp only [BitVec.toNat_ofNat]
      have : (2 ^ 64 - 2 ^ 32 + n) / 2 ^ 32 = 2 ^ 32 - 1 := by omega
      rw [this]
      rfl

theorem Ready.exactly {c : CmdSpec} {s : State} {r : Req} {P : State → Prop} (h : Ready c s r) (ha : c.accepted = true)
    (hb : ∀ t q, c.before t q = t)
    (hP : P (answerAccepted c (c.exec ((entered c s r).begin s.led.nextLsn) (taken s r).2 s.led.nextLsn) (taken s r).2 s.led.nextLsn)) :
    Completes (runScs c r s) P := by
  refine ⟨_, ?_, hP⟩
  unfold runScs
  rw [runCmd_start h.2.2.1 ha (h.2.2.2 ha) (fun t q => by rw [hb])]

theorem syncLedgLane_led (s : State) (l : Lane) : (s.syncLedgLane l).led = s.led := by
  unfold State.syncLedgLane
  extract_lets s1 s2 s3 s4 s5 s6 s7
  rw [State.setBitF_led, State.setBitF_led, State.setBitF_led, State.setFld_led, State.setReg_led, State.setFld_led, State.setFld_led, State.setFld_led]

theorem syncLedg_led (s : State) : s.syncLedg.led = s.led := (syncLedgLane_led _ _).trans (syncLedgLane_led _ _)

theorem countBoth_led (s : State) (a : Nat) : (s.countBoth a).led = s.led := by unfold State.countBoth; rw [State.count_led, State.count_led]

theorem syncQuota_led (s : State) (q : Nat) : (s.syncQuota q).led = s.led := by unfold State.syncQuota State.setFldBoth; rw [State.setFld_led, State.setFld_led]

theorem started_entries {c : CmdSpec} {s : State} {r : Req} (hi : s.Inv) (hb : ∀ t q, c.before t q = t) :
    ∃ e : LEntry, ((entered c s r).begin s.led.nextLsn).led.entries = s.led.entries ++ [e] ∧ e.st = .executing ∧ e.lsn = s.led.nextLsn ∧ e.opcode = c.opcode ∧ e.req = (taken s r).2 ∧ e.unclaimed = false := by
  have hl : (taken s r).1.led = s.led := (taken_fields s r).2.1
  have ha : ∀ (t : State) (q : Req) (op : Nat), ∃ e : LEntry, (t.accept op q).led.entries = t.led.entries ++ [e] ∧ e.st = .accepted ∧ e.lsn = t.led.nextLsn ∧ e.opcode = op ∧ e.req = q ∧ e.unclaimed = false := by
    intro t q op
    unfold State.accept
    extract_lets lsn qq st e dup dups x
    rw [syncQuota_led, syncLedg_led, countBoth_led]
    exact ⟨e, rfl, rfl, rfl, rfl, rfl, rfl⟩
  unfold entered
  simp only [hb]
  obtain ⟨e, h1, h2, h3, h4, h5, h6⟩ := ha (taken s r).1 (taken s r).2 c.opcode
  generalize (taken s r).1.accept c.opcode (taken s r).2 = u at *
  rw [hl] at h1 h3
  refine ⟨{ e with st := .executing }, ?_, rfl, h3, h4, h5, h6⟩
  show u.led.entries.map (fun x => if x.lsn = s.led.nextLsn then (if x.st = .accepted then { x with st := .executing } else x) else x) = _
  rw [h1, List.map_append]
  congr 1
  · have : ∀ x ∈ s.led.entries, (if x.lsn = s.led.nextLsn then (if x.st = .accepted then { x with st := .executing } else x) else x) = x := by
      intro x hx
      have := hi.led.1 x.lsn (List.mem_map.mpr ⟨x, hx, rfl⟩)
      rw [if_neg (by omega)]
    exact (List.map_congr_left this).trans (List.map_id _)
  · simp [h3, h2]

def Rep (n : Nat) (s : State) : Prop := ∀ e ∈ s.led.entries, e.lsn = n → e.st = .reported

theorem Rep.of_led {n : Nat} {s t : State} (h : Rep n s) (e : t.led.entries = s.led.entries) : Rep n t := by unfold Rep; rw [e]; exact h

theorem Rep.endEntry {n m d e : Nat} {s : State} (h : Rep n s) : Rep n (s.endEntry m d e) := by
  unfold State.endEntry
  split
  · exact h
  · rename_i x hx
    split
    · rename_i hs
      simp only []
      have hne : n ≠ m := by
        intro eq
        have hm : x ∈ s.led.entries ∧ x.lsn = m := by
          unfold State.entry at hx
          exact ⟨List.mem_of_find?_eq_some hx, by simpa using List.find?_some hx⟩
        have := h x hm.1 (hm.2.trans eq.symm)
        rw [this] at hs
        rcases hs with hs | hs <;> cases hs
      refine Rep.of_led (s := s.mapEntry m (fun x => { x with st := .disposed, disp := d, err := e, doneAt := s.now })) ?_ (by rw [syncLedg_led, countBoth_led]; rfl)
      intro y hy hyn
      obtain ⟨z, hz, rfl⟩ := List.mem_map.mp hy
      by_cases ez : z.lsn = m
      · rw [if_pos ez] at hyn; exact absurd (hyn.symm.trans ez) hne
      · rw [if_neg ez] at hyn ⊢; exact h z hz hyn
    · exact h

theorem Rep.done {n m : Nat} {s : State} (h : Rep n s) : Rep n (s.done m) := by
  have hq : Rep n ((s.endEntry m dDONE 0).settleQuiesce) := by
    unfold State.settleQuiesce
    refine foldl_rel (R := fun s t => Rep n s → Rep n t) (fun _ h => h) (fun _ _ _ h g x => g (h x)) ?_ _ _ h.endEntry
    intro t v ht
    split
    · exact ht
    · extract_lets s1 s2
      have h2 : Rep n s2 := by
        refine ht.of_led ?_
        have e1 : s1.led = t.led := State.setFld_led ..
        have e2 : s2.led = s1.led := rfl
        rw [e2, e1]
      split
      · exact h2
      · exact h2.endEntry
  unfold State.done State.dispose State.settleGrants
  refine foldl_rel (R := fun s t => Rep n s → Rep n t) (fun _ h => h) (fun _ _ _ h g x => g (h x)) ?_ _ _ hq
  intro t v ht
  split
  · exact ht
  · extract_lets s1
    have h2 : Rep n s1 := ht
    split
    · exact h2
    · exact h2.endEntry

theorem takeInbox_led (s : State) (r : Req) : (s.takeInbox r).led = s.led := rfl

theorem done_recovered {s : State} {m : Nat} : (s.done m).led.recoveredOut = s.led.recoveredOut := by
  have he : ∀ (s : State) (m d e : Nat), (s.endEntry m d e).led.recoveredOut = s.led.recoveredOut := by
    intro s m d e
    unfold State.endEntry
    split
    · rfl
    · split
      · simp only []; rw [syncLedg_led, countBoth_led]; rfl
      · rfl
  have hq : ((s.endEntry m dDONE 0).settleQuiesce).led.recoveredOut = s.led.recoveredOut := by
    unfold State.settleQuiesce
    refine Eq.trans (foldl_rel (R := fun s t => t.led.recoveredOut = s.led.recoveredOut) (fun _ => rfl) (fun _ _ _ h g => g.trans h) ?_ _ _) (he _ _ _ _)
    intro t v
    split
    · rfl
    · extract_lets s1 s2
      have h2 : s2.led = t.led := by
        have e1 : s1.led = t.led := State.setFld_led ..
        have e2 : s2.led = s1.led := rfl
        rw [e2, e1]
      split
      · rw [h2]
      · rw [he, h2]
  unfold State.done State.dispose State.settleGrants
  refine Eq.trans (foldl_rel (R := fun s t => t.led.recoveredOut = s.led.recoveredOut) (fun _ => rfl) (fun _ _ _ h g => g.trans h) ?_ _ _) hq
  intro t v
  split
  · rfl
  · extract_lets s1
    have h2 : s1.led = t.led := rfl
    split
    · rw [h2]
    · rw [he, h2]

end Sys2Proof.Machine
end

