-- ==== Sys2Proof/Laws/KeptPower.lean ====
section
/-! SUPPORT. The operations of Power.lean keep the invariant, the queue and the time. -/

namespace Sys2Proof.Machine

theorem State.modOut_kept {φ : Frame} {s : State} {d : Nat} {x : Nat} {f : OutRt → OutRt} (hm : Sub 0x2000000 φ.fx)
    (h1 : s.Kept φ) :
    State.Kept φ (State.modOut s d x f) := by
  unfold State.modOut
  try dsimp only
  (repeat' first
    | with_reducible assumption
    | with_reducible exact Sub.of hm (by decide)
    | with_reducible apply State.setOut_kept
    | with_reducible apply kept_ite
    | with_reducible apply kept_foldl
    | with_reducible apply kept_foldl_fst
    | with_reducible apply outKept_next
    | with_reducible apply outKept_ite
    | simp only [kept_mk, true_or]
    | split
    | intro _)

theorem State.setPw_kept {φ : Frame} {s : State} {d : Nat} {p : PowerRt} (hm : Sub 0x18000000 φ.fx) (h1 : s.Kept φ) :
    State.Kept φ (State.setPw s d p) := by
  unfold State.setPw
  try dsimp only
  (repeat' first
    | with_reducible assumption
    | with_reducible exact Sub.of hm (by decide)
    | with_reducible apply kept_ite
    | with_reducible apply kept_foldl
    | with_reducible apply kept_foldl_fst
    | with_reducible apply outKept_next
    | with_reducible apply outKept_ite
    | simp only [kept_mk, hm.bit 27 rfl, hm.bit 28 rfl, or_true, true_or]
    | split
    | intro _)

theorem State.setFeedRt_kept {φ : Frame} {s : State} {f : Nat} {x : FeedRt} (hm : Sub 0x4000000 φ.fx) (h : s.Kept φ) :
    State.Kept φ (State.setFeedRt s f x) :=
  kept_feeds h (hm.bit 26 rfl) ((List.length_set ..).trans h.shape.feeds)

theorem State.setO_kept {φ : Frame} {s : State} {d : Nat} {x : Nat} {f : OFlag} {b : Bool} (hm : Sub 0x8 φ.fx) (h1 :
    s.Kept φ) :
    State.Kept φ (State.setO s d x f b) := by
  unfold State.setO
  try dsimp only
  (repeat' first
    | with_reducible assumption
    | with_reducible exact Sub.of hm (by decide)
    | with_reducible apply State.setShBit_kept
    | with_reducible apply kept_ite
    | with_reducible apply kept_foldl
    | with_reducible apply kept_foldl_fst
    | with_reducible apply outKept_next
    | with_reducible apply outKept_ite
    | simp only [kept_mk, true_or]
    | split
    | intro _)

theorem State.clearLatched_kept {φ : Frame} {s : State} {d : Nat} {x : Nat} (hm : Sub 0x8 φ.fx) (h1 : s.Kept φ) :
    State.Kept φ (State.clearLatched s d x) := by
  unfold State.clearLatched
  try dsimp only
  (repeat' first
    | with_reducible assumption
    | with_reducible exact Sub.of hm (by decide)
    | with_reducible apply State.setShFld_kept
    | with_reducible apply kept_ite
    | with_reducible apply kept_foldl
    | with_reducible apply kept_foldl_fst
    | with_reducible apply outKept_next
    | with_reducible apply outKept_ite
    | simp only [kept_mk, true_or]
    | split
    | intro _)

theorem State.setOSt_kept {φ : Frame} {s : State} {d : Nat} {x : Nat} {v : Nat} (hm : Sub 0x8 φ.fx) (h1 : s.Kept φ) :
    State.Kept φ (State.setOSt s d x v) := by
  unfold State.setOSt
  try dsimp only
  (repeat' first
    | with_reducible assumption
    | with_reducible exact Sub.of hm (by decide)
    | with_reducible apply State.setShFld_kept
    | with_reducible apply kept_ite
    | with_reducible apply kept_foldl
    | with_reducible apply kept_foldl_fst
    | with_reducible apply outKept_next
    | with_reducible apply outKept_ite
    | simp only [kept_mk, true_or]
    | split
    | intro _)

theorem State.setRetryLeft_kept {φ : Frame} {s : State} {d : Nat} {x : Nat} {v : Nat} (hm : Sub 0x8 φ.fx) (h1 : s.Kept
    φ) :
    State.Kept φ (State.setRetryLeft s d x v) := by
  unfold State.setRetryLeft
  try dsimp only
  (repeat' first
    | with_reducible assumption
    | with_reducible exact Sub.of hm (by decide)
    | with_reducible apply State.setShFld_kept
    | with_reducible apply kept_ite
    | with_reducible apply kept_foldl
    | with_reducible apply kept_foldl_fst
    | with_reducible apply outKept_next
    | with_reducible apply outKept_ite
    | simp only [kept_mk, true_or]
    | split
    | intro _)

theorem State.setDieFld_kept {φ : Frame} {s : State} {a : Nat} {f : Fld} {v : Nat} (hm : Sub 0x8 φ.fx) (h1 : s.Kept φ)
    :
    State.Kept φ (State.setDieFld s a f v) := by
  unfold State.setDieFld
  try dsimp only
  (repeat' first
    | with_reducible assumption
    | with_reducible exact Sub.of hm (by decide)
    | with_reducible apply State.setDieReg_kept
    | with_reducible apply kept_ite
    | with_reducible apply kept_foldl
    | with_reducible apply kept_foldl_fst
    | with_reducible apply outKept_next
    | with_reducible apply outKept_ite
    | simp only [kept_mk, true_or]
    | split
    | intro _)

theorem State.setFeedBit_kept {φ : Frame} {s : State} {f : Nat} {g : Fld} {b : Bool} (hm : Sub 0x8 φ.fx) (h1 : s.Kept
    φ) :
    State.Kept φ (State.setFeedBit s f g b) := by
  unfold State.setFeedBit
  try dsimp only
  (repeat' first
    | with_reducible assumption
    | with_reducible exact Sub.of hm (by decide)
    | with_reducible apply State.setDieFld_kept
    | with_reducible apply kept_ite
    | with_reducible apply kept_foldl
    | with_reducible apply kept_foldl_fst
    | with_reducible apply outKept_next
    | with_reducible apply outKept_ite
    | simp only [kept_mk, true_or]
    | split
    | intro _)

theorem State.setDipInhibit_kept {φ : Frame} {s : State} {d : Nat} {x : Nat} {b : Bool} (hm : Sub 0x8 φ.fx) (h1 :
    s.Kept φ) :
    State.Kept φ (State.setDipInhibit s d x b) := by
  unfold State.setDipInhibit
  try dsimp only
  (repeat' first
    | with_reducible assumption
    | with_reducible exact Sub.of hm (by decide)
    | with_reducible apply State.setO_kept
    | with_reducible apply State.setDieFld_kept
    | with_reducible apply kept_ite
    | with_reducible apply kept_foldl
    | with_reducible apply kept_foldl_fst
    | with_reducible apply outKept_next
    | with_reducible apply outKept_ite
    | simp only [kept_mk, true_or]
    | split
    | intro _)

theorem State.tallyBoth_kept {φ : Frame} {s : State} {d : Nat} {x : Nat} {f : Tally → Tally} (hm : Sub 0x2000000 φ.fx)
    (h1 : s.Kept φ) :
    State.Kept φ (State.tallyBoth s d x f) := by
  unfold State.tallyBoth
  try dsimp only
  (repeat' first
    | with_reducible assumption
    | with_reducible exact Sub.of hm (by decide)
    | with_reducible apply State.modOut_kept
    | with_reducible apply kept_ite
    | with_reducible apply kept_foldl
    | with_reducible apply kept_foldl_fst
    | with_reducible apply outKept_next
    | with_reducible apply outKept_ite
    | simp only [kept_mk, true_or]
    | split
    | intro _)

theorem State.reload_kept {φ : Frame} {s : State} {d : Nat} {x : Nat} (hm : Sub 0x8 φ.fx) (h1 : s.Kept φ) :
    State.Kept φ (State.reload s d x) := by
  unfold State.reload
  try dsimp only
  (repeat' first
    | with_reducible assumption
    | with_reducible exact Sub.of hm (by decide)
    | with_reducible apply State.setRetryLeft_kept
    | with_reducible apply kept_ite
    | with_reducible apply kept_foldl
    | with_reducible apply kept_foldl_fst
    | with_reducible apply outKept_next
    | with_reducible apply outKept_ite
    | simp only [kept_mk, true_or]
    | split
    | intro _)

theorem State.conduct_kept {φ : Frame} {s : State} {d : Nat} {x : Nat} (hm : Sub 0x2000008 φ.fx) (h1 : s.Kept φ) :
    State.Kept φ (State.conduct s d x) := by
  unfold State.conduct
  try dsimp only
  (repeat' first
    | with_reducible assumption
    | with_reducible exact Sub.of hm (by decide)
    | with_reducible apply State.modOut_kept
    | with_reducible apply State.setOSt_kept
    | with_reducible apply State.tallyBoth_kept
    | with_reducible apply kept_ite
    | with_reducible apply kept_foldl
    | with_reducible apply kept_foldl_fst
    | with_reducible apply outKept_next
    | with_reducible apply outKept_ite
    | simp only [kept_mk, true_or]
    | split
    | intro _)

theorem State.tryOn_kept {φ : Frame} {s : State} {d : Nat} {x : Nat} (hm : Sub 0x2000008 φ.fx) (h1 : s.Kept φ) :
    State.Kept φ (State.tryOn s d x) := by
  unfold State.tryOn
  try dsimp only
  (repeat' first
    | with_reducible assumption
    | with_reducible exact Sub.of hm (by decide)
    | with_reducible apply State.setOSt_kept
    | with_reducible apply State.conduct_kept
    | with_reducible apply kept_ite
    | with_reducible apply kept_foldl
    | with_reducible apply kept_foldl_fst
    | with_reducible apply outKept_next
    | with_reducible apply outKept_ite
    | simp only [kept_mk, true_or]
    | split
    | intro _)

theorem State.turnOff_kept {φ : Frame} {s : State} {d : Nat} {x : Nat} {st : Nat} (hm : Sub 0x2000008 φ.fx) (h1 :
    s.Kept φ) :
    State.Kept φ (State.turnOff s d x st) := by
  unfold State.turnOff
  try dsimp only
  (repeat' first
    | with_reducible assumption
    | with_reducible exact Sub.of hm (by decide)
    | with_reducible apply State.modOut_kept
    | with_reducible apply State.setOSt_kept
    | with_reducible apply kept_ite
    | with_reducible apply kept_foldl
    | with_reducible apply kept_foldl_fst
    | with_reducible apply outKept_next
    | with_reducible apply outKept_ite
    | simp only [kept_mk, true_or]
    | split
    | intro _)

theorem State.syncLdDefer_kept {φ : Frame} {s : State} {f : Nat} (hm : Sub 0x8 φ.fx) (h1 : s.Kept φ) :
    State.Kept φ (State.syncLdDefer s f) := by
  unfold State.syncLdDefer
  try dsimp only
  (repeat' first
    | with_reducible assumption
    | with_reducible exact Sub.of hm (by decide)
    | with_reducible apply State.setFeedBit_kept
    | with_reducible apply kept_ite
    | with_reducible apply kept_foldl
    | with_reducible apply kept_foldl_fst
    | with_reducible apply outKept_next
    | with_reducible apply outKept_ite
    | simp only [kept_mk, true_or]
    | split
    | intro _)

theorem State.commandOff_kept {φ : Frame} {s : State} {d : Nat} {x : Nat} {urgent : Bool} (hm : Sub 0x2000008 φ.fx)
    (h1 : s.Kept φ) :
    State.Kept φ (State.commandOff s d x urgent) := by
  unfold State.commandOff
  try dsimp only
  (repeat' first
    | with_reducible assumption
    | with_reducible exact Sub.of hm (by decide)
    | with_reducible apply State.modOut_kept
    | with_reducible apply State.syncLdDefer_kept
    | with_reducible apply State.turnOff_kept
    | with_reducible apply kept_ite
    | with_reducible apply kept_foldl
    | with_reducible apply kept_foldl_fst
    | with_reducible apply outKept_next
    | with_reducible apply outKept_ite
    | simp only [kept_mk, true_or]
    | split
    | intro _)

theorem State.setTarget_kept {φ : Frame} {s : State} {d : Nat} {x : Nat} {t : Nat} {urgent : Bool} (hm : Sub 0x2000008
    φ.fx) (h1 : s.Kept φ) :
    State.Kept φ (State.setTarget s d x t urgent) := by
  unfold State.setTarget
  try dsimp only
  (repeat' first
    | with_reducible assumption
    | with_reducible exact Sub.of hm (by decide)
    | with_reducible apply State.modOut_kept
    | with_reducible apply State.reload_kept
    | with_reducible apply State.commandOff_kept
    | with_reducible apply State.syncLdDefer_kept
    | with_reducible apply State.tryOn_kept
    | with_reducible apply State.setOSt_kept
    | with_reducible apply kept_ite
    | with_reducible apply kept_foldl
    | with_reducible apply kept_foldl_fst
    | with_reducible apply outKept_next
    | with_reducible apply outKept_ite
    | simp only [kept_mk, true_or]
    | split
    | intro _)

theorem State.lockout_kept {φ : Frame} {s : State} {d : Nat} {x : Nat} {f : OFlag} (hm : Sub 0x2000008 φ.fx) (h1 :
    s.Kept φ) :
    State.Kept φ (State.lockout s d x f) := by
  unfold State.lockout
  try dsimp only
  (repeat' first
    | with_reducible assumption
    | with_reducible exact Sub.of hm (by decide)
    | with_reducible apply State.setO_kept
    | with_reducible apply State.syncLdDefer_kept
    | with_reducible apply State.turnOff_kept
    | with_reducible apply kept_ite
    | with_reducible apply kept_foldl
    | with_reducible apply kept_foldl_fst
    | with_reducible apply outKept_next
    | with_reducible apply outKept_ite
    | simp only [kept_mk, true_or]
    | split
    | intro _)

theorem State.overCurrent_kept {φ : Frame} {s : State} {d : Nat} {x : Nat} {f : OFlag} (hm : Sub 0x2000008 φ.fx) (h1 :
    s.Kept φ) :
    State.Kept φ (State.overCurrent s d x f) := by
  unfold State.overCurrent
  try dsimp only
  (repeat' first
    | with_reducible assumption
    | with_reducible exact Sub.of hm (by decide)
    | with_reducible apply State.setO_kept
    | with_reducible apply State.modOut_kept
    | with_reducible apply State.syncLdDefer_kept
    | with_reducible apply State.turnOff_kept
    | with_reducible apply State.tallyBoth_kept
    | with_reducible apply kept_ite
    | with_reducible apply kept_foldl
    | with_reducible apply kept_foldl_fst
    | with_reducible apply outKept_next
    | with_reducible apply outKept_ite
    | simp only [kept_mk, true_or]
    | split
    | intro _)

theorem State.retryOn_kept {φ : Frame} {s : State} {d : Nat} {x : Nat} (hm : Sub 0x2000008 φ.fx) (h1 : s.Kept φ) :
    State.Kept φ (State.retryOn s d x) := by
  unfold State.retryOn
  try dsimp only
  (repeat' first
    | with_reducible assumption
    | with_reducible exact Sub.of hm (by decide)
    | with_reducible apply State.setRetryLeft_kept
    | with_reducible apply State.conduct_kept
    | with_reducible apply kept_ite
    | with_reducible apply kept_foldl
    | with_reducible apply kept_foldl_fst
    | with_reducible apply outKept_next
    | with_reducible apply outKept_ite
    | simp only [kept_mk, true_or]
    | split
    | intro _)

theorem State.retryElapsed_kept {φ : Frame} {s : State} {d : Nat} {x : Nat} (hm : Sub 0x2000008 φ.fx) (h1 : s.Kept φ)
    :
    State.Kept φ (State.retryElapsed s d x) := by
  unfold State.retryElapsed
  try dsimp only
  (repeat' first
    | with_reducible assumption
    | with_reducible exact Sub.of hm (by decide)
    | with_reducible apply State.retryOn_kept
    | with_reducible apply State.modOut_kept
    | with_reducible apply State.setOSt_kept
    | with_reducible apply kept_ite
    | with_reducible apply kept_foldl
    | with_reducible apply kept_foldl_fst
    | with_reducible apply outKept_next
    | with_reducible apply outKept_ite
    | simp only [kept_mk, true_or]
    | split
    | intro _)

theorem State.thermalCleared_kept {φ : Frame} {s : State} {d : Nat} {x : Nat} (hm : Sub 0x2000008 φ.fx) (h1 : s.Kept
    φ) :
    State.Kept φ (State.thermalCleared s d x) := by
  unfold State.thermalCleared
  try dsimp only
  (repeat' first
    | with_reducible assumption
    | with_reducible exact Sub.of hm (by decide)
    | with_reducible apply State.retryOn_kept
    | with_reducible apply State.setOSt_kept
    | with_reducible apply kept_ite
    | with_reducible apply kept_foldl
    | with_reducible apply kept_foldl_fst
    | with_reducible apply outKept_next
    | with_reducible apply outKept_ite
    | simp only [kept_mk, true_or]
    | split
    | intro _)

theorem State.resumeOuts_kept {φ : Frame} {s : State} {f : Nat} (hm : Sub 0x2000008 φ.fx) (h1 : s.Kept φ) :
    State.Kept φ (State.resumeOuts s f) := by
  unfold State.resumeOuts
  try dsimp only
  (repeat' first
    | with_reducible assumption
    | with_reducible exact Sub.of hm (by decide)
    | with_reducible apply State.retryElapsed_kept
    | with_reducible apply State.forEach_kept
    | with_reducible apply State.tryOn_kept
    | with_reducible apply State.thermalCleared_kept
    | with_reducible apply kept_ite
    | with_reducible apply kept_foldl
    | with_reducible apply kept_foldl_fst
    | with_reducible apply outKept_next
    | with_reducible apply outKept_ite
    | simp only [kept_mk, true_or]
    | split
    | intro _)

theorem State.syncTheta_kept {φ : Frame} {s : State} {d : Nat} {x : Nat} (hm : Sub 0x8 φ.fx) (h1 : s.Kept φ) :
    State.Kept φ (State.syncTheta s d x) := by
  unfold State.syncTheta
  try dsimp only
  (repeat' first
    | with_reducible assumption
    | with_reducible exact Sub.of hm (by decide)
    | with_reducible apply State.setShFld_kept
    | with_reducible apply kept_ite
    | with_reducible apply kept_foldl
    | with_reducible apply kept_foldl_fst
    | with_reducible apply outKept_next
    | with_reducible apply outKept_ite
    | simp only [kept_mk, true_or]
    | split
    | intro _)

theorem State.leaveLockout_kept {φ : Frame} {s : State} {d : Nat} {x : Nat} (hm : Sub 0x2000008 φ.fx) (h1 : s.Kept φ)
    :
    State.Kept φ (State.leaveLockout s d x) := by
  unfold State.leaveLockout
  try dsimp only
  (repeat' first
    | with_reducible assumption
    | with_reducible exact Sub.of hm (by decide)
    | with_reducible apply State.setO_kept
    | with_reducible apply State.reload_kept
    | with_reducible apply State.tryOn_kept
    | with_reducible apply State.setOSt_kept
    | with_reducible apply State.clearLatched_kept
    | with_reducible apply kept_ite
    | with_reducible apply kept_foldl
    | with_reducible apply kept_foldl_fst
    | with_reducible apply outKept_next
    | with_reducible apply outKept_ite
    | simp only [kept_mk, true_or]
    | split
    | intro _)

theorem State.applyClear_kept {φ : Frame} {s : State} {d : Nat} {x : Nat} (hm : Sub 0x2000008 φ.fx) (h1 : s.Kept φ) :
    State.Kept φ (State.applyClear s d x) := by
  unfold State.applyClear
  try dsimp only
  (repeat' first
    | with_reducible assumption
    | with_reducible exact Sub.of hm (by decide)
    | with_reducible apply State.setO_kept
    | with_reducible apply State.reload_kept
    | with_reducible apply State.leaveLockout_kept
    | with_reducible apply State.tryOn_kept
    | with_reducible apply State.clearLatched_kept
    | with_reducible apply State.setDipInhibit_kept
    | with_reducible apply kept_ite
    | with_reducible apply kept_foldl
    | with_reducible apply kept_foldl_fst
    | with_reducible apply outKept_next
    | with_reducible apply outKept_ite
    | simp only [kept_mk, true_or]
    | split
    | intro _)

theorem State.toDip_kept {φ : Frame} {s : State} {d : Nat} {x : Nat} (hm : Sub 0x2000008 φ.fx) (h1 : s.Kept φ) :
    State.Kept φ (State.toDip s d x) := by
  unfold State.toDip
  try dsimp only
  (repeat' first
    | with_reducible assumption
    | with_reducible exact Sub.of hm (by decide)
    | with_reducible apply State.modOut_kept
    | with_reducible apply State.turnOff_kept
    | with_reducible apply kept_ite
    | with_reducible apply kept_foldl
    | with_reducible apply kept_foldl_fst
    | with_reducible apply outKept_next
    | with_reducible apply outKept_ite
    | simp only [kept_mk, true_or]
    | split
    | intro _)

theorem State.restoreOut_kept {φ : Frame} {s : State} {d : Nat} {x : Nat} (hm : Sub 0x2000008 φ.fx) (h1 : s.Kept φ) :
    State.Kept φ (State.restoreOut s d x) := by
  unfold State.restoreOut
  try dsimp only
  (repeat' first
    | with_reducible assumption
    | with_reducible exact Sub.of hm (by decide)
    | with_reducible apply State.reload_kept
    | with_reducible apply State.tryOn_kept
    | with_reducible apply State.setOSt_kept
    | with_reducible apply State.setDipInhibit_kept
    | with_reducible apply kept_ite
    | with_reducible apply kept_foldl
    | with_reducible apply kept_foldl_fst
    | with_reducible apply outKept_next
    | with_reducible apply outKept_ite
    | simp only [kept_mk, true_or]
    | split
    | intro _)

theorem State.takeFail_kept {φ : Frame} {s : State} {d : Nat} {x : Nat} {urgent : Bool} (hm : Sub 0x2000008 φ.fx) (h1
    : s.Kept φ) :
    State.Kept φ (State.takeFail s d x urgent) := by
  unfold State.takeFail
  try dsimp only
  (repeat' first
    | with_reducible assumption
    | with_reducible exact Sub.of hm (by decide)
    | with_reducible apply State.setTarget_kept
    | with_reducible apply State.modOut_kept
    | with_reducible apply kept_ite
    | with_reducible apply kept_foldl
    | with_reducible apply kept_foldl_fst
    | with_reducible apply outKept_next
    | with_reducible apply outKept_ite
    | simp only [kept_mk, true_or]
    | split
    | intro _)

theorem State.takeRecord_kept {φ : Frame} {s : State} {d : Nat} {x : Nat} {cycle : Nat} {sched : Bool} (hm : Sub
    0x2000008 φ.fx) (h1 : s.Kept φ) :
    State.Kept φ (State.takeRecord s d x cycle sched) := by
  unfold State.takeRecord
  try dsimp only
  (repeat' first
    | with_reducible assumption
    | with_reducible exact Sub.of hm (by decide)
    | with_reducible apply State.setTarget_kept
    | with_reducible apply State.setO_kept
    | with_reducible apply State.modOut_kept
    | with_reducible apply State.setDipInhibit_kept
    | with_reducible apply kept_ite
    | with_reducible apply kept_foldl
    | with_reducible apply kept_foldl_fst
    | with_reducible apply outKept_next
    | with_reducible apply outKept_ite
    | simp only [kept_mk, true_or]
    | split
    | intro _)

theorem State.afterOutCommit_kept {φ : Frame} {before : State} {s : State} {d : Nat} {xs : List Nat} {ws : List
    RegCell} (hm : Sub 0x2000008 φ.fx) (h1 : before.Kept φ) (h2 : s.Kept φ) :
    State.Kept φ (State.afterOutCommit before s d xs ws) := by
  unfold State.afterOutCommit
  try dsimp only
  (repeat' first
    | with_reducible assumption
    | with_reducible exact Sub.of hm (by decide)
    | with_reducible apply State.applyClear_kept
    | with_reducible apply State.setShadow_kept
    | with_reducible apply State.setShFld_kept
    | with_reducible apply State.reload_kept
    | with_reducible apply State.forEach_kept
    | with_reducible apply kept_ite
    | with_reducible apply kept_foldl
    | with_reducible apply kept_foldl_fst
    | with_reducible apply outKept_next
    | with_reducible apply outKept_ite
    | simp only [kept_mk, true_or]
    | split
    | intro _)

end Sys2Proof.Machine
end

