-- ==== Sys2Proof/Laws/KeptPowerCmds.lean ====
section
/-! SUPPORT. The operations of PowerCmds.lean keep the invariant, the queue and the time. -/

namespace Sys2Proof.Machine

theorem State.commitDies_kept {φ : Frame} {s : State} {block : Nat} {ds : List Nat} {ws : Nat → List RegCell} {lsn :
    Nat} (hm : Sub 0x608 φ.fx) (h1 : s.Kept φ) :
    State.Kept φ (State.commitDies s block ds ws lsn) := by
  unfold State.commitDies
  try dsimp only
  (repeat' first
    | with_reducible assumption
    | with_reducible exact Sub.of hm (by decide)
    | with_reducible apply State.commitShared_kept
    | with_reducible apply State.forEach_kept
    | with_reducible apply kept_ite
    | with_reducible apply kept_foldl
    | with_reducible apply kept_foldl_fst
    | with_reducible apply outKept_next
    | with_reducible apply outKept_ite
    | simp only [kept_mk, true_or]
    | split
    | intro _)

theorem State.sendUrgent_kept {φ : Frame} {s : State} {d : Die} {outs : Nat} {act : Nat} {lsn : Nat} (hm : Sub
    0x1000000 φ.fx) (h1 : s.Kept φ) :
    State.Kept φ (State.sendUrgent s d outs act lsn) := by
  unfold State.sendUrgent
  try dsimp only
  (repeat' first
    | with_reducible assumption
    | with_reducible exact Sub.of hm (by decide)
    | with_reducible apply kept_ite
    | with_reducible apply kept_foldl
    | with_reducible apply kept_foldl_fst
    | with_reducible apply outKept_next
    | with_reducible apply outKept_ite
    | simp only [kept_mk, hm.bit 24 rfl, or_true, true_or]
    | split
    | intro _)

theorem specPcSet_kept {φ : Frame}  (hm : Sub 0x608 φ.fx)  :
    CmdSpec.Kept φ (specPcSet ) := by
  refine ⟨?_, ?_, ?_, ?_⟩ <;> intros <;> dsimp only [specPcSet] <;>
  (repeat' first
    | with_reducible assumption
    | with_reducible exact Sub.of hm (by decide)
    | with_reducible apply State.commitDies_kept
    | with_reducible apply kept_ite
    | with_reducible apply kept_foldl
    | with_reducible apply kept_foldl_fst
    | with_reducible apply outKept_next
    | with_reducible apply outKept_ite
    | simp only [kept_mk, true_or]
    | split
    | intro _)

theorem specPcConfig_kept {φ : Frame}  (hm : Sub 0x608 φ.fx)  :
    CmdSpec.Kept φ (specPcConfig ) := by
  refine ⟨?_, ?_, ?_, ?_⟩ <;> intros <;> dsimp only [specPcConfig] <;>
  (repeat' first
    | with_reducible assumption
    | with_reducible exact Sub.of hm (by decide)
    | with_reducible apply State.commitShared_kept
    | with_reducible apply kept_ite
    | with_reducible apply kept_foldl
    | with_reducible apply kept_foldl_fst
    | with_reducible apply outKept_next
    | with_reducible apply outKept_ite
    | simp only [kept_mk, true_or]
    | split
    | intro _)

theorem specPcProfile_kept {φ : Frame}  (hm : Sub 0x608 φ.fx)  :
    CmdSpec.Kept φ (specPcProfile ) := by
  refine ⟨?_, ?_, ?_, ?_⟩ <;> intros <;> dsimp only [specPcProfile] <;>
  (repeat' first
    | with_reducible assumption
    | with_reducible exact Sub.of hm (by decide)
    | with_reducible apply State.commitDies_kept
    | with_reducible apply kept_ite
    | with_reducible apply kept_foldl
    | with_reducible apply kept_foldl_fst
    | with_reducible apply outKept_next
    | with_reducible apply outKept_ite
    | simp only [kept_mk, true_or]
    | split
    | intro _)

theorem specPcDieConfig_kept {φ : Frame}  (hm : Sub 0x608 φ.fx)  :
    CmdSpec.Kept φ (specPcDieConfig ) := by
  refine ⟨?_, ?_, ?_, ?_⟩ <;> intros <;> dsimp only [specPcDieConfig] <;>
  (repeat' first
    | with_reducible assumption
    | with_reducible exact Sub.of hm (by decide)
    | with_reducible apply State.commitDies_kept
    | with_reducible apply kept_ite
    | with_reducible apply kept_foldl
    | with_reducible apply kept_foldl_fst
    | with_reducible apply outKept_next
    | with_reducible apply outKept_ite
    | simp only [kept_mk, true_or]
    | split
    | intro _)

theorem specPcClear_kept {φ : Frame}  (hm : Sub 0x608 φ.fx)  :
    CmdSpec.Kept φ (specPcClear ) := by
  refine ⟨?_, ?_, ?_, ?_⟩ <;> intros <;> dsimp only [specPcClear] <;>
  (repeat' first
    | with_reducible assumption
    | with_reducible exact Sub.of hm (by decide)
    | with_reducible apply State.commitDies_kept
    | with_reducible apply kept_ite
    | with_reducible apply kept_foldl
    | with_reducible apply kept_foldl_fst
    | with_reducible apply outKept_next
    | with_reducible apply outKept_ite
    | simp only [kept_mk, true_or]
    | split
    | intro _)

theorem specPcStatus_kept {φ : Frame}   :
    CmdSpec.Kept φ (specPcStatus ) := by
  refine ⟨?_, ?_, ?_, ?_⟩ <;> intros <;> dsimp only [specPcStatus] <;>
  (repeat' first
    | with_reducible assumption
    | with_reducible apply kept_ite
    | with_reducible apply kept_foldl
    | with_reducible apply kept_foldl_fst
    | with_reducible apply outKept_next
    | with_reducible apply outKept_ite
    | simp only [kept_mk, true_or]
    | split
    | intro _)

theorem specPcDieStatus_kept {φ : Frame}   :
    CmdSpec.Kept φ (specPcDieStatus ) := by
  refine ⟨?_, ?_, ?_, ?_⟩ <;> intros <;> dsimp only [specPcDieStatus] <;>
  (repeat' first
    | with_reducible assumption
    | with_reducible apply kept_ite
    | with_reducible apply kept_foldl
    | with_reducible apply kept_foldl_fst
    | with_reducible apply outKept_next
    | with_reducible apply outKept_ite
    | simp only [kept_mk, true_or]
    | split
    | intro _)

theorem specPcSafeState_kept {φ : Frame}  (hm : Sub 0x1000608 φ.fx)  :
    CmdSpec.Kept φ (specPcSafeState ) := by
  refine ⟨?_, ?_, ?_, ?_⟩ <;> intros <;> dsimp only [specPcSafeState] <;>
  (repeat' first
    | with_reducible assumption
    | with_reducible exact Sub.of hm (by decide)
    | with_reducible apply State.sendUrgent_kept
    | with_reducible apply State.forEach_kept
    | with_reducible apply State.commitDies_kept
    | with_reducible apply kept_ite
    | with_reducible apply kept_foldl
    | with_reducible apply kept_foldl_fst
    | with_reducible apply outKept_next
    | with_reducible apply outKept_ite
    | simp only [kept_mk, true_or]
    | split
    | intro _)

theorem execPcSet_kept {φ : Frame} {r : Req} {s : State} (hm : Sub 0x17efdce0fafc007a07dc φ.fx) (h1 : s.Kept φ) :
    OutKept φ (execPcSet r s) := by
  unfold execPcSet
  try dsimp only
  (repeat' first
    | with_reducible assumption
    | with_reducible exact Sub.of hm (by decide)
    | with_reducible apply runScs_kept
    | with_reducible apply specPcSet_kept
    | with_reducible apply kept_ite
    | with_reducible apply kept_foldl
    | with_reducible apply kept_foldl_fst
    | with_reducible apply outKept_next
    | with_reducible apply outKept_ite
    | simp only [kept_mk, true_or]
    | split
    | intro _)

theorem execPcConfig_kept {φ : Frame} {r : Req} {s : State} (hm : Sub 0x17efdce0fafc007a07dc φ.fx) (h1 : s.Kept φ) :
    OutKept φ (execPcConfig r s) := by
  unfold execPcConfig
  try dsimp only
  (repeat' first
    | with_reducible assumption
    | with_reducible exact Sub.of hm (by decide)
    | with_reducible apply specPcConfig_kept
    | with_reducible apply runScs_kept
    | with_reducible apply kept_ite
    | with_reducible apply kept_foldl
    | with_reducible apply kept_foldl_fst
    | with_reducible apply outKept_next
    | with_reducible apply outKept_ite
    | simp only [kept_mk, true_or]
    | split
    | intro _)

theorem execPcProfile_kept {φ : Frame} {r : Req} {s : State} (hm : Sub 0x17efdce0fafc007a07dc φ.fx) (h1 : s.Kept φ) :
    OutKept φ (execPcProfile r s) := by
  unfold execPcProfile
  try dsimp only
  (repeat' first
    | with_reducible assumption
    | with_reducible exact Sub.of hm (by decide)
    | with_reducible apply specPcProfile_kept
    | with_reducible apply runScs_kept
    | with_reducible apply kept_ite
    | with_reducible apply kept_foldl
    | with_reducible apply kept_foldl_fst
    | with_reducible apply outKept_next
    | with_reducible apply outKept_ite
    | simp only [kept_mk, true_or]
    | split
    | intro _)

theorem execPcDieConfig_kept {φ : Frame} {r : Req} {s : State} (hm : Sub 0x17efdce0fafc007a07dc φ.fx) (h1 : s.Kept φ)
    :
    OutKept φ (execPcDieConfig r s) := by
  unfold execPcDieConfig
  try dsimp only
  (repeat' first
    | with_reducible assumption
    | with_reducible exact Sub.of hm (by decide)
    | with_reducible apply runScs_kept
    | with_reducible apply specPcDieConfig_kept
    | with_reducible apply kept_ite
    | with_reducible apply kept_foldl
    | with_reducible apply kept_foldl_fst
    | with_reducible apply outKept_next
    | with_reducible apply outKept_ite
    | simp only [kept_mk, true_or]
    | split
    | intro _)

theorem execPcClear_kept {φ : Frame} {r : Req} {s : State} (hm : Sub 0x17efdce0fafc007a07dc φ.fx) (h1 : s.Kept φ) :
    OutKept φ (execPcClear r s) := by
  unfold execPcClear
  try dsimp only
  (repeat' first
    | with_reducible assumption
    | with_reducible exact Sub.of hm (by decide)
    | with_reducible apply specPcClear_kept
    | with_reducible apply runScs_kept
    | with_reducible apply kept_ite
    | with_reducible apply kept_foldl
    | with_reducible apply kept_foldl_fst
    | with_reducible apply outKept_next
    | with_reducible apply outKept_ite
    | simp only [kept_mk, true_or]
    | split
    | intro _)

theorem execPcStatus_kept {φ : Frame} {r : Req} {s : State} (hm : Sub 0x17efdce0fafc007a03dc φ.fx) (h1 : s.Kept φ) :
    OutKept φ (execPcStatus r s) := by
  unfold execPcStatus
  try dsimp only
  (repeat' first
    | with_reducible assumption
    | with_reducible exact Sub.of hm (by decide)
    | with_reducible apply specPcStatus_kept
    | with_reducible apply runScs_kept
    | with_reducible apply kept_ite
    | with_reducible apply kept_foldl
    | with_reducible apply kept_foldl_fst
    | with_reducible apply outKept_next
    | with_reducible apply outKept_ite
    | simp only [kept_mk, true_or]
    | split
    | intro _)

theorem execPcDieStatus_kept {φ : Frame} {r : Req} {s : State} (hm : Sub 0x17efdce0fafc007a03dc φ.fx) (h1 : s.Kept φ)
    :
    OutKept φ (execPcDieStatus r s) := by
  unfold execPcDieStatus
  try dsimp only
  (repeat' first
    | with_reducible assumption
    | with_reducible exact Sub.of hm (by decide)
    | with_reducible apply runScs_kept
    | with_reducible apply specPcDieStatus_kept
    | with_reducible apply kept_ite
    | with_reducible apply kept_foldl
    | with_reducible apply kept_foldl_fst
    | with_reducible apply outKept_next
    | with_reducible apply outKept_ite
    | simp only [kept_mk, true_or]
    | split
    | intro _)

theorem execPcSafeState_kept {φ : Frame} {r : Req} {s : State} (hm : Sub 0x17efdce0fafc017a07dc φ.fx) (h1 : s.Kept φ)
    :
    OutKept φ (execPcSafeState r s) := by
  unfold execPcSafeState
  try dsimp only
  (repeat' first
    | with_reducible assumption
    | with_reducible exact Sub.of hm (by decide)
    | with_reducible apply specPcSafeState_kept
    | with_reducible apply runScs_kept
    | with_reducible apply kept_ite
    | with_reducible apply kept_foldl
    | with_reducible apply kept_foldl_fst
    | with_reducible apply outKept_next
    | with_reducible apply outKept_ite
    | simp only [kept_mk, true_or]
    | split
    | intro _)

theorem specGdSet_kept {φ : Frame}  (hm : Sub 0x608 φ.fx)  :
    CmdSpec.Kept φ (specGdSet ) := by
  refine ⟨?_, ?_, ?_, ?_⟩ <;> intros <;> dsimp only [specGdSet] <;>
  (repeat' first
    | with_reducible assumption
    | with_reducible exact Sub.of hm (by decide)
    | with_reducible apply State.commitDies_kept
    | with_reducible apply kept_ite
    | with_reducible apply kept_foldl
    | with_reducible apply kept_foldl_fst
    | with_reducible apply outKept_next
    | with_reducible apply outKept_ite
    | simp only [kept_mk, true_or]
    | split
    | intro _)

theorem specGdConfig_kept {φ : Frame}  (hm : Sub 0x608 φ.fx)  :
    CmdSpec.Kept φ (specGdConfig ) := by
  refine ⟨?_, ?_, ?_, ?_⟩ <;> intros <;> dsimp only [specGdConfig] <;>
  (repeat' first
    | with_reducible assumption
    | with_reducible exact Sub.of hm (by decide)
    | with_reducible apply State.commitShared_kept
    | with_reducible apply kept_ite
    | with_reducible apply kept_foldl
    | with_reducible apply kept_foldl_fst
    | with_reducible apply outKept_next
    | with_reducible apply outKept_ite
    | simp only [kept_mk, true_or]
    | split
    | intro _)

theorem specGdClear_kept {φ : Frame}  (hm : Sub 0x608 φ.fx)  :
    CmdSpec.Kept φ (specGdClear ) := by
  refine ⟨?_, ?_, ?_, ?_⟩ <;> intros <;> dsimp only [specGdClear] <;>
  (repeat' first
    | with_reducible assumption
    | with_reducible exact Sub.of hm (by decide)
    | with_reducible apply State.commitDies_kept
    | with_reducible apply kept_ite
    | with_reducible apply kept_foldl
    | with_reducible apply kept_foldl_fst
    | with_reducible apply outKept_next
    | with_reducible apply outKept_ite
    | simp only [kept_mk, true_or]
    | split
    | intro _)

theorem specGdStatus_kept {φ : Frame}   :
    CmdSpec.Kept φ (specGdStatus ) := by
  refine ⟨?_, ?_, ?_, ?_⟩ <;> intros <;> dsimp only [specGdStatus] <;>
  (repeat' first
    | with_reducible assumption
    | with_reducible apply kept_ite
    | with_reducible apply kept_foldl
    | with_reducible apply kept_foldl_fst
    | with_reducible apply outKept_next
    | with_reducible apply outKept_ite
    | simp only [kept_mk, true_or]
    | split
    | intro _)

theorem specGdSafeState_kept {φ : Frame}  (hm : Sub 0x1000608 φ.fx)  :
    CmdSpec.Kept φ (specGdSafeState ) := by
  refine ⟨?_, ?_, ?_, ?_⟩ <;> intros <;> dsimp only [specGdSafeState] <;>
  (repeat' first
    | with_reducible assumption
    | with_reducible exact Sub.of hm (by decide)
    | with_reducible apply State.sendUrgent_kept
    | with_reducible apply State.forEach_kept
    | with_reducible apply State.commitDies_kept
    | with_reducible apply kept_ite
    | with_reducible apply kept_foldl
    | with_reducible apply kept_foldl_fst
    | with_reducible apply outKept_next
    | with_reducible apply outKept_ite
    | simp only [kept_mk, true_or]
    | split
    | intro _)

theorem specFeedConfig_kept {φ : Frame}  (hm : Sub 0x608 φ.fx)  :
    CmdSpec.Kept φ (specFeedConfig ) := by
  refine ⟨?_, ?_, ?_, ?_⟩ <;> intros <;> dsimp only [specFeedConfig] <;>
  (repeat' first
    | with_reducible assumption
    | with_reducible exact Sub.of hm (by decide)
    | with_reducible apply State.commitShared_kept
    | with_reducible apply kept_ite
    | with_reducible apply kept_foldl
    | with_reducible apply kept_foldl_fst
    | with_reducible apply outKept_next
    | with_reducible apply outKept_ite
    | simp only [kept_mk, true_or]
    | split
    | intro _)

theorem specFeedStatus_kept {φ : Frame}   :
    CmdSpec.Kept φ (specFeedStatus ) := by
  refine ⟨?_, ?_, ?_, ?_⟩ <;> intros <;> dsimp only [specFeedStatus] <;>
  (repeat' first
    | with_reducible assumption
    | with_reducible apply kept_ite
    | with_reducible apply kept_foldl
    | with_reducible apply kept_foldl_fst
    | with_reducible apply outKept_next
    | with_reducible apply outKept_ite
    | simp only [kept_mk, true_or]
    | split
    | intro _)

theorem execGdSet_kept {φ : Frame} {r : Req} {s : State} (hm : Sub 0x17efdce0fafc007a07dc φ.fx) (h1 : s.Kept φ) :
    OutKept φ (execGdSet r s) := by
  unfold execGdSet
  try dsimp only
  (repeat' first
    | with_reducible assumption
    | with_reducible exact Sub.of hm (by decide)
    | with_reducible apply specGdSet_kept
    | with_reducible apply runScs_kept
    | with_reducible apply kept_ite
    | with_reducible apply kept_foldl
    | with_reducible apply kept_foldl_fst
    | with_reducible apply outKept_next
    | with_reducible apply outKept_ite
    | simp only [kept_mk, true_or]
    | split
    | intro _)

theorem execGdConfig_kept {φ : Frame} {r : Req} {s : State} (hm : Sub 0x17efdce0fafc007a07dc φ.fx) (h1 : s.Kept φ) :
    OutKept φ (execGdConfig r s) := by
  unfold execGdConfig
  try dsimp only
  (repeat' first
    | with_reducible assumption
    | with_reducible exact Sub.of hm (by decide)
    | with_reducible apply specGdConfig_kept
    | with_reducible apply runScs_kept
    | with_reducible apply kept_ite
    | with_reducible apply kept_foldl
    | with_reducible apply kept_foldl_fst
    | with_reducible apply outKept_next
    | with_reducible apply outKept_ite
    | simp only [kept_mk, true_or]
    | split
    | intro _)

theorem execGdClear_kept {φ : Frame} {r : Req} {s : State} (hm : Sub 0x17efdce0fafc007a07dc φ.fx) (h1 : s.Kept φ) :
    OutKept φ (execGdClear r s) := by
  unfold execGdClear
  try dsimp only
  (repeat' first
    | with_reducible assumption
    | with_reducible exact Sub.of hm (by decide)
    | with_reducible apply specGdClear_kept
    | with_reducible apply runScs_kept
    | with_reducible apply kept_ite
    | with_reducible apply kept_foldl
    | with_reducible apply kept_foldl_fst
    | with_reducible apply outKept_next
    | with_reducible apply outKept_ite
    | simp only [kept_mk, true_or]
    | split
    | intro _)

theorem execGdStatus_kept {φ : Frame} {r : Req} {s : State} (hm : Sub 0x17efdce0fafc007a03dc φ.fx) (h1 : s.Kept φ) :
    OutKept φ (execGdStatus r s) := by
  unfold execGdStatus
  try dsimp only
  (repeat' first
    | with_reducible assumption
    | with_reducible exact Sub.of hm (by decide)
    | with_reducible apply runScs_kept
    | with_reducible apply specGdStatus_kept
    | with_reducible apply kept_ite
    | with_reducible apply kept_foldl
    | with_reducible apply kept_foldl_fst
    | with_reducible apply outKept_next
    | with_reducible apply outKept_ite
    | simp only [kept_mk, true_or]
    | split
    | intro _)

theorem execGdSafeState_kept {φ : Frame} {r : Req} {s : State} (hm : Sub 0x17efdce0fafc017a07dc φ.fx) (h1 : s.Kept φ)
    :
    OutKept φ (execGdSafeState r s) := by
  unfold execGdSafeState
  try dsimp only
  (repeat' first
    | with_reducible assumption
    | with_reducible exact Sub.of hm (by decide)
    | with_reducible apply specGdSafeState_kept
    | with_reducible apply runScs_kept
    | with_reducible apply kept_ite
    | with_reducible apply kept_foldl
    | with_reducible apply kept_foldl_fst
    | with_reducible apply outKept_next
    | with_reducible apply outKept_ite
    | simp only [kept_mk, true_or]
    | split
    | intro _)

theorem execFeedConfig_kept {φ : Frame} {r : Req} {s : State} (hm : Sub 0x17efdce0fafc007a07dc φ.fx) (h1 : s.Kept φ) :
    OutKept φ (execFeedConfig r s) := by
  unfold execFeedConfig
  try dsimp only
  (repeat' first
    | with_reducible assumption
    | with_reducible exact Sub.of hm (by decide)
    | with_reducible apply specFeedConfig_kept
    | with_reducible apply runScs_kept
    | with_reducible apply kept_ite
    | with_reducible apply kept_foldl
    | with_reducible apply kept_foldl_fst
    | with_reducible apply outKept_next
    | with_reducible apply outKept_ite
    | simp only [kept_mk, true_or]
    | split
    | intro _)

theorem execFeedStatus_kept {φ : Frame} {r : Req} {s : State} (hm : Sub 0x17efdce0fafc007a03dc φ.fx) (h1 : s.Kept φ) :
    OutKept φ (execFeedStatus r s) := by
  unfold execFeedStatus
  try dsimp only
  (repeat' first
    | with_reducible assumption
    | with_reducible exact Sub.of hm (by decide)
    | with_reducible apply runScs_kept
    | with_reducible apply specFeedStatus_kept
    | with_reducible apply kept_ite
    | with_reducible apply kept_foldl
    | with_reducible apply kept_foldl_fst
    | with_reducible apply outKept_next
    | with_reducible apply outKept_ite
    | simp only [kept_mk, true_or]
    | split
    | intro _)

end Sys2Proof.Machine
end

