-- ==== Sys2Proof/Laws/KeptPowerEvents.lean ====
section
/-! SUPPORT. The operations of PowerEvents.lean keep the invariant, the queue and the time. -/

namespace Sys2Proof.Machine

theorem onLive_kept {φ : Frame} {ok : Bool} {s : State} {t : State} (h1 : s.Kept φ) (h2 : t.Kept φ) :
    OutKept φ (onLive ok s t) := by
  unfold onLive
  try dsimp only
  (repeat' first
    | with_reducible assumption
    | with_reducible apply kept_ite
    | with_reducible apply kept_foldl
    | with_reducible apply kept_foldl_fst
    | with_reducible apply outKept_next
    | with_reducible apply outKept_ite
    | simp only [kept_mk, true_or]
    | split
    | intro _)

theorem State.takeMean_kept {φ : Frame} {s : State} {d : Nat} {x : Nat} {mean : Int} (hm : Sub 0x2000008 φ.fx) (h1 :
    s.Kept φ) :
    State.Kept φ (State.takeMean s d x mean) := by
  unfold State.takeMean
  try dsimp only
  (repeat' first
    | with_reducible assumption
    | with_reducible exact Sub.of hm (by decide)
    | with_reducible apply State.setO_kept
    | with_reducible apply State.modOut_kept
    | with_reducible apply State.setShFld_kept
    | with_reducible apply kept_ite
    | with_reducible apply kept_foldl
    | with_reducible apply kept_foldl_fst
    | with_reducible apply outKept_next
    | with_reducible apply outKept_ite
    | simp only [kept_mk, true_or]
    | split
    | intro _)

theorem State.takeVs_kept {φ : Frame} {s : State} {d : Nat} {x : Nat} {vsrc : Int} {vgs : Nat} (hm : Sub 0x8 φ.fx) (h1
    : s.Kept φ) :
    State.Kept φ (State.takeVs s d x vsrc vgs) := by
  unfold State.takeVs
  try dsimp only
  (repeat' first
    | with_reducible assumption
    | with_reducible exact Sub.of hm (by decide)
    | with_reducible apply State.setShBit_kept
    | with_reducible apply State.setO_kept
    | with_reducible apply State.setShFld_kept
    | with_reducible apply kept_ite
    | with_reducible apply kept_foldl
    | with_reducible apply kept_foldl_fst
    | with_reducible apply outKept_next
    | with_reducible apply outKept_ite
    | simp only [kept_mk, true_or]
    | split
    | intro _)

theorem execCurrentWindow_kept {φ : Frame} {d : Nat} {x : Nat} {mean : Int} {vsrc : Int} {vgs : Nat} {s : State} (hm :
    Sub 0x2000008 φ.fx) (h1 : s.Kept φ) :
    OutKept φ (execCurrentWindow d x mean vsrc vgs s) := by
  unfold execCurrentWindow
  try dsimp only
  (repeat' first
    | with_reducible assumption
    | with_reducible exact Sub.of hm (by decide)
    | with_reducible apply State.takeMean_kept
    | with_reducible apply onLive_kept
    | with_reducible apply State.takeVs_kept
    | with_reducible apply kept_ite
    | with_reducible apply kept_foldl
    | with_reducible apply kept_foldl_fst
    | with_reducible apply outKept_next
    | with_reducible apply outKept_ite
    | simp only [kept_mk, true_or]
    | split
    | intro _)

theorem execIlimReached_kept {φ : Frame} {d : Nat} {x : Nat} {s : State} (hm : Sub 0x2000008 φ.fx) (h1 : s.Kept φ) :
    OutKept φ (execIlimReached d x s) := by
  unfold execIlimReached
  try dsimp only
  (repeat' first
    | with_reducible assumption
    | with_reducible exact Sub.of hm (by decide)
    | with_reducible apply State.overCurrent_kept
    | with_reducible apply onLive_kept
    | with_reducible apply kept_ite
    | with_reducible apply kept_foldl
    | with_reducible apply kept_foldl_fst
    | with_reducible apply outKept_next
    | with_reducible apply outKept_ite
    | simp only [kept_mk, true_or]
    | split
    | intro _)

theorem execSoftwareTrip_kept {φ : Frame} {d : Nat} {x : Nat} {s : State} (hm : Sub 0x2000008 φ.fx) (h1 : s.Kept φ) :
    OutKept φ (execSoftwareTrip d x s) := by
  unfold execSoftwareTrip
  try dsimp only
  (repeat' first
    | with_reducible assumption
    | with_reducible exact Sub.of hm (by decide)
    | with_reducible apply State.overCurrent_kept
    | with_reducible apply onLive_kept
    | with_reducible apply kept_ite
    | with_reducible apply kept_foldl
    | with_reducible apply kept_foldl_fst
    | with_reducible apply outKept_next
    | with_reducible apply outKept_ite
    | simp only [kept_mk, true_or]
    | split
    | intro _)

theorem execGdOcTrip_kept {φ : Frame} {d : Nat} {x : Nat} {s : State} (hm : Sub 0x2000008 φ.fx) (h1 : s.Kept φ) :
    OutKept φ (execGdOcTrip d x s) := by
  unfold execGdOcTrip
  try dsimp only
  (repeat' first
    | with_reducible assumption
    | with_reducible exact Sub.of hm (by decide)
    | with_reducible apply State.overCurrent_kept
    | with_reducible apply onLive_kept
    | with_reducible apply kept_ite
    | with_reducible apply kept_foldl
    | with_reducible apply kept_foldl_fst
    | with_reducible apply outKept_next
    | with_reducible apply outKept_ite
    | simp only [kept_mk, true_or]
    | split
    | intro _)

theorem execUndercurrent_kept {φ : Frame} {d : Nat} {x : Nat} {s : State} (hm : Sub 0x8 φ.fx) (h1 : s.Kept φ) :
    OutKept φ (execUndercurrent d x s) := by
  unfold execUndercurrent
  try dsimp only
  (repeat' first
    | with_reducible assumption
    | with_reducible exact Sub.of hm (by decide)
    | with_reducible apply State.setO_kept
    | with_reducible apply onLive_kept
    | with_reducible apply kept_ite
    | with_reducible apply kept_foldl
    | with_reducible apply kept_foldl_fst
    | with_reducible apply outKept_next
    | with_reducible apply outKept_ite
    | simp only [kept_mk, true_or]
    | split
    | intro _)

theorem execOpenOff_kept {φ : Frame} {d : Nat} {x : Nat} {present : Bool} {s : State} (hm : Sub 0x8 φ.fx) (h1 : s.Kept
    φ) :
    OutKept φ (execOpenOff d x present s) := by
  unfold execOpenOff
  try dsimp only
  (repeat' first
    | with_reducible assumption
    | with_reducible exact Sub.of hm (by decide)
    | with_reducible apply State.setO_kept
    | with_reducible apply onLive_kept
    | with_reducible apply kept_ite
    | with_reducible apply kept_foldl
    | with_reducible apply kept_foldl_fst
    | with_reducible apply outKept_next
    | with_reducible apply outKept_ite
    | simp only [kept_mk, true_or]
    | split
    | intro _)

theorem execShortFeed_kept {φ : Frame} {d : Nat} {x : Nat} {present : Bool} {s : State} (hm : Sub 0x8 φ.fx) (h1 :
    s.Kept φ) :
    OutKept φ (execShortFeed d x present s) := by
  unfold execShortFeed
  try dsimp only
  (repeat' first
    | with_reducible assumption
    | with_reducible exact Sub.of hm (by decide)
    | with_reducible apply State.setO_kept
    | with_reducible apply onLive_kept
    | with_reducible apply kept_ite
    | with_reducible apply kept_foldl
    | with_reducible apply kept_foldl_fst
    | with_reducible apply outKept_next
    | with_reducible apply outKept_ite
    | simp only [kept_mk, true_or]
    | split
    | intro _)

theorem execSenseOpen_kept {φ : Frame} {d : Nat} {x : Nat} {present : Bool} {s : State} (hm : Sub 0x8 φ.fx) (h1 :
    s.Kept φ) :
    OutKept φ (execSenseOpen d x present s) := by
  unfold execSenseOpen
  try dsimp only
  (repeat' first
    | with_reducible assumption
    | with_reducible exact Sub.of hm (by decide)
    | with_reducible apply State.setO_kept
    | with_reducible apply onLive_kept
    | with_reducible apply kept_ite
    | with_reducible apply kept_foldl
    | with_reducible apply kept_foldl_fst
    | with_reducible apply outKept_next
    | with_reducible apply outKept_ite
    | simp only [kept_mk, true_or]
    | split
    | intro _)

theorem execBlankEnd_kept {φ : Frame} {d : Nat} {x : Nat} {s : State} (hm : Sub 0x2000000 φ.fx) (h1 : s.Kept φ) :
    OutKept φ (execBlankEnd d x s) := by
  unfold execBlankEnd
  try dsimp only
  (repeat' first
    | with_reducible assumption
    | with_reducible exact Sub.of hm (by decide)
    | with_reducible apply State.modOut_kept
    | with_reducible apply onLive_kept
    | with_reducible apply kept_ite
    | with_reducible apply kept_foldl
    | with_reducible apply kept_foldl_fst
    | with_reducible apply outKept_next
    | with_reducible apply outKept_ite
    | simp only [kept_mk, true_or]
    | split
    | intro _)

theorem State.takeTemp_kept {φ : Frame} {s : State} {d : Nat} {x : Nat} {tj : Int} {caseT : Int} (hm : Sub 0x2000008
    φ.fx) (h1 : s.Kept φ) :
    State.Kept φ (State.takeTemp s d x tj caseT) := by
  unfold State.takeTemp
  try dsimp only
  (repeat' first
    | with_reducible assumption
    | with_reducible exact Sub.of hm (by decide)
    | with_reducible apply State.setO_kept
    | with_reducible apply State.setShFld_kept
    | with_reducible apply State.syncLdDefer_kept
    | with_reducible apply State.turnOff_kept
    | with_reducible apply State.tallyBoth_kept
    | with_reducible apply State.thermalCleared_kept
    | with_reducible apply kept_ite
    | with_reducible apply kept_foldl
    | with_reducible apply kept_foldl_fst
    | with_reducible apply outKept_next
    | with_reducible apply outKept_ite
    | simp only [kept_mk, true_or]
    | split
    | intro _)

theorem execThermalReading_kept {φ : Frame} {d : Nat} {x : Nat} {tj : Int} {caseT : Int} {s : State} (hm : Sub
    0x2000008 φ.fx) (h1 : s.Kept φ) :
    OutKept φ (execThermalReading d x tj caseT s) := by
  unfold execThermalReading
  try dsimp only
  (repeat' first
    | with_reducible assumption
    | with_reducible exact Sub.of hm (by decide)
    | with_reducible apply State.takeTemp_kept
    | with_reducible apply onLive_kept
    | with_reducible apply kept_ite
    | with_reducible apply kept_foldl
    | with_reducible apply kept_foldl_fst
    | with_reducible apply outKept_next
    | with_reducible apply outKept_ite
    | simp only [kept_mk, true_or]
    | split
    | intro _)

theorem State.wireUpdate_kept {φ : Frame} {s : State} {d : Nat} {x : Nat} (hm : Sub 0x2000008 φ.fx) (h1 : s.Kept φ) :
    State.Kept φ (State.wireUpdate s d x) := by
  unfold State.wireUpdate
  try dsimp only
  (repeat' first
    | with_reducible assumption
    | with_reducible exact Sub.of hm (by decide)
    | with_reducible apply State.syncTheta_kept
    | with_reducible apply State.lockout_kept
    | with_reducible apply State.setOut_kept
    | with_reducible apply State.leaveLockout_kept
    | with_reducible apply State.tallyBoth_kept
    | with_reducible apply kept_ite
    | with_reducible apply kept_foldl
    | with_reducible apply kept_foldl_fst
    | with_reducible apply outKept_next
    | with_reducible apply outKept_ite
    | simp only [kept_mk, true_or]
    | split
    | intro _)

theorem execWireModelUpdate_kept {φ : Frame} {d : Nat} {x : Nat} {s : State} (hm : Sub 0x2000008 φ.fx) (h1 : s.Kept φ)
    :
    OutKept φ (execWireModelUpdate d x s) := by
  unfold execWireModelUpdate
  try dsimp only
  (repeat' first
    | with_reducible assumption
    | with_reducible exact Sub.of hm (by decide)
    | with_reducible apply State.wireUpdate_kept
    | with_reducible apply onLive_kept
    | with_reducible apply kept_ite
    | with_reducible apply kept_foldl
    | with_reducible apply kept_foldl_fst
    | with_reducible apply outKept_next
    | with_reducible apply outKept_ite
    | simp only [kept_mk, true_or]
    | split
    | intro _)

theorem execClampEventEnd_kept {φ : Frame} {d : Nat} {x : Nat} {energy : Nat} {s : State} (hm : Sub 0x2000008 φ.fx)
    (h1 : s.Kept φ) :
    OutKept φ (execClampEventEnd d x energy s) := by
  unfold execClampEventEnd
  try dsimp only
  (repeat' first
    | with_reducible assumption
    | with_reducible exact Sub.of hm (by decide)
    | with_reducible apply State.setO_kept
    | with_reducible apply State.setOut_kept
    | with_reducible apply onLive_kept
    | with_reducible apply State.setShFld_kept
    | with_reducible apply State.tallyBoth_kept
    | with_reducible apply State.countShFld_kept
    | with_reducible apply kept_ite
    | with_reducible apply kept_foldl
    | with_reducible apply kept_foldl_fst
    | with_reducible apply outKept_next
    | with_reducible apply outKept_ite
    | simp only [kept_mk, true_or]
    | split
    | intro _)

theorem execClampOver_kept {φ : Frame} {d : Nat} {x : Nat} {energy : Nat} {s : State} (hm : Sub 0x2000008 φ.fx) (h1 :
    s.Kept φ) :
    OutKept φ (execClampOver d x energy s) := by
  unfold execClampOver
  try dsimp only
  (repeat' first
    | with_reducible assumption
    | with_reducible exact Sub.of hm (by decide)
    | with_reducible apply State.lockout_kept
    | with_reducible apply State.setO_kept
    | with_reducible apply onLive_kept
    | with_reducible apply kept_ite
    | with_reducible apply kept_foldl
    | with_reducible apply kept_foldl_fst
    | with_reducible apply outKept_next
    | with_reducible apply outKept_ite
    | simp only [kept_mk, true_or]
    | split
    | intro _)

theorem execFreewheelMissing_kept {φ : Frame} {d : Nat} {x : Nat} {s : State} (hm : Sub 0x2000008 φ.fx) (h1 : s.Kept
    φ) :
    OutKept φ (execFreewheelMissing d x s) := by
  unfold execFreewheelMissing
  try dsimp only
  (repeat' first
    | with_reducible assumption
    | with_reducible exact Sub.of hm (by decide)
    | with_reducible apply State.lockout_kept
    | with_reducible apply State.setO_kept
    | with_reducible apply onLive_kept
    | with_reducible apply kept_ite
    | with_reducible apply kept_foldl
    | with_reducible apply kept_foldl_fst
    | with_reducible apply outKept_next
    | with_reducible apply outKept_ite
    | simp only [kept_mk, true_or]
    | split
    | intro _)

theorem execRetryDelayExpiry_kept {φ : Frame} {d : Nat} {x : Nat} {s : State} (hm : Sub 0x2000008 φ.fx) (h1 : s.Kept
    φ) :
    OutKept φ (execRetryDelayExpiry d x s) := by
  unfold execRetryDelayExpiry
  try dsimp only
  (repeat' first
    | with_reducible assumption
    | with_reducible exact Sub.of hm (by decide)
    | with_reducible apply State.retryElapsed_kept
    | with_reducible apply onLive_kept
    | with_reducible apply kept_ite
    | with_reducible apply kept_foldl
    | with_reducible apply kept_foldl_fst
    | with_reducible apply outKept_next
    | with_reducible apply outKept_ite
    | simp only [kept_mk, true_or]
    | split
    | intro _)

theorem execRetryReloadTimer_kept {φ : Frame} {d : Nat} {x : Nat} {s : State} (hm : Sub 0x8 φ.fx) (h1 : s.Kept φ) :
    OutKept φ (execRetryReloadTimer d x s) := by
  unfold execRetryReloadTimer
  try dsimp only
  (repeat' first
    | with_reducible assumption
    | with_reducible exact Sub.of hm (by decide)
    | with_reducible apply onLive_kept
    | with_reducible apply State.reload_kept
    | with_reducible apply kept_ite
    | with_reducible apply kept_foldl
    | with_reducible apply kept_foldl_fst
    | with_reducible apply outKept_next
    | with_reducible apply outKept_ite
    | simp only [kept_mk, true_or]
    | split
    | intro _)

theorem execPcPwmPeriodStart_kept {φ : Frame} {d : Nat} {x : Nat} {s : State} (hm : Sub 0x2000000 φ.fx) (h1 : s.Kept
    φ) :
    OutKept φ (execPcPwmPeriodStart d x s) := by
  unfold execPcPwmPeriodStart
  try dsimp only
  (repeat' first
    | with_reducible assumption
    | with_reducible exact Sub.of hm (by decide)
    | with_reducible apply State.setOut_kept
    | with_reducible apply onLive_kept
    | with_reducible apply kept_ite
    | with_reducible apply kept_foldl
    | with_reducible apply kept_foldl_fst
    | with_reducible apply outKept_next
    | with_reducible apply outKept_ite
    | simp only [kept_mk, true_or]
    | split
    | intro _)

theorem execConductionEstimate_kept {φ : Frame} {d : Nat} {s : State} (hm : Sub 0x18000008 φ.fx) (h1 : s.Kept φ) :
    OutKept φ (execConductionEstimate d s) := by
  unfold execConductionEstimate
  try dsimp only
  (repeat' first
    | with_reducible assumption
    | with_reducible exact Sub.of hm (by decide)
    | with_reducible apply State.setPw_kept
    | with_reducible apply State.setShBit_kept
    | with_reducible apply onLive_kept
    | with_reducible apply State.setShFld_kept
    | with_reducible apply kept_ite
    | with_reducible apply kept_foldl
    | with_reducible apply kept_foldl_fst
    | with_reducible apply outKept_next
    | with_reducible apply outKept_ite
    | simp only [kept_mk, true_or]
    | split
    | intro _)

theorem execPrechargeComplete_kept {φ : Frame} {d : Nat} {x : Nat} {vsrc : Int} {drain : Int} {s : State} (hm : Sub
    0x2000008 φ.fx) (h1 : s.Kept φ) :
    OutKept φ (execPrechargeComplete d x vsrc drain s) := by
  unfold execPrechargeComplete
  try dsimp only
  (repeat' first
    | with_reducible assumption
    | with_reducible exact Sub.of hm (by decide)
    | with_reducible apply State.modOut_kept
    | with_reducible apply onLive_kept
    | with_reducible apply State.setShFld_kept
    | with_reducible apply State.setOSt_kept
    | with_reducible apply kept_ite
    | with_reducible apply kept_foldl
    | with_reducible apply kept_foldl_fst
    | with_reducible apply outKept_next
    | with_reducible apply outKept_ite
    | simp only [kept_mk, true_or]
    | split
    | intro _)

theorem execPrechargeTimeout_kept {φ : Frame} {d : Nat} {x : Nat} {s : State} (hm : Sub 0x2000008 φ.fx) (h1 : s.Kept
    φ) :
    OutKept φ (execPrechargeTimeout d x s) := by
  unfold execPrechargeTimeout
  try dsimp only
  (repeat' first
    | with_reducible assumption
    | with_reducible exact Sub.of hm (by decide)
    | with_reducible apply State.lockout_kept
    | with_reducible apply onLive_kept
    | with_reducible apply kept_ite
    | with_reducible apply kept_foldl
    | with_reducible apply kept_foldl_fst
    | with_reducible apply outKept_next
    | with_reducible apply outKept_ite
    | simp only [kept_mk, true_or]
    | split
    | intro _)

theorem State.takeVolt_kept {φ : Frame} {s : State} {f : Nat} {v : Int} (hm : Sub 0x8 φ.fx) (h1 : s.Kept φ) :
    State.Kept φ (State.takeVolt s f v) := by
  unfold State.takeVolt
  try dsimp only
  (repeat' first
    | with_reducible assumption
    | with_reducible exact Sub.of hm (by decide)
    | with_reducible apply State.setDieFld_kept
    | with_reducible apply kept_ite
    | with_reducible apply kept_foldl
    | with_reducible apply kept_foldl_fst
    | with_reducible apply outKept_next
    | with_reducible apply outKept_ite
    | simp only [kept_mk, true_or]
    | split
    | intro _)

theorem feedEvent_kept {φ : Frame} {f : Nat} {v : Int} {beyond : Bool} {s : State} {act : State → State} (hm : Sub 0x8
    φ.fx) (h1 : s.Kept φ) (hf : ∀ t, t.Kept φ → State.Kept φ (act t)) :
    OutKept φ (feedEvent f v beyond s act) := by
  unfold feedEvent
  try dsimp only
  (repeat' first
    | with_reducible assumption
    | with_reducible exact Sub.of hm (by decide)
    | with_reducible apply onLive_kept
    | with_reducible apply State.takeVolt_kept
    | with_reducible apply hf
    | with_reducible apply kept_ite
    | with_reducible apply kept_foldl
    | with_reducible apply kept_foldl_fst
    | with_reducible apply outKept_next
    | with_reducible apply outKept_ite
    | simp only [kept_mk, true_or]
    | split
    | intro _)

theorem State.suspendDiag_kept {φ : Frame} {s : State} {f : Nat} {b : Bool} (hm : Sub 0x8 φ.fx) (h1 : s.Kept φ) :
    State.Kept φ (State.suspendDiag s f b) := by
  unfold State.suspendDiag
  try dsimp only
  (repeat' first
    | with_reducible assumption
    | with_reducible exact Sub.of hm (by decide)
    | with_reducible apply State.setO_kept
    | with_reducible apply State.setFeedBit_kept
    | with_reducible apply State.forEach_kept
    | with_reducible apply kept_ite
    | with_reducible apply kept_foldl
    | with_reducible apply kept_foldl_fst
    | with_reducible apply outKept_next
    | with_reducible apply outKept_ite
    | simp only [kept_mk, true_or]
    | split
    | intro _)

theorem execFeedWarning_kept {φ : Frame} {f : Nat} {v : Int} {s : State} (hm : Sub 0x8 φ.fx) (h1 : s.Kept φ) :
    OutKept φ (execFeedWarning f v s) := by
  unfold execFeedWarning
  try dsimp only
  (repeat' first
    | with_reducible assumption
    | with_reducible exact Sub.of hm (by decide)
    | with_reducible apply State.setFeedBit_kept
    | with_reducible apply State.suspendDiag_kept
    | with_reducible apply feedEvent_kept
    | with_reducible apply kept_ite
    | with_reducible apply kept_foldl
    | with_reducible apply kept_foldl_fst
    | with_reducible apply outKept_next
    | with_reducible apply outKept_ite
    | simp only [kept_mk, true_or]
    | split
    | intro _)

theorem execFeedWarningRelease_kept {φ : Frame} {f : Nat} {v : Int} {s : State} (hm : Sub 0x8 φ.fx) (h1 : s.Kept φ) :
    OutKept φ (execFeedWarningRelease f v s) := by
  unfold execFeedWarningRelease
  try dsimp only
  (repeat' first
    | with_reducible assumption
    | with_reducible exact Sub.of hm (by decide)
    | with_reducible apply State.setFeedBit_kept
    | with_reducible apply feedEvent_kept
    | with_reducible apply kept_ite
    | with_reducible apply kept_foldl
    | with_reducible apply kept_foldl_fst
    | with_reducible apply outKept_next
    | with_reducible apply outKept_ite
    | simp only [kept_mk, true_or]
    | split
    | intro _)

theorem execDiagResume_kept {φ : Frame} {f : Nat} {s : State} (hm : Sub 0x8 φ.fx) (h1 : s.Kept φ) :
    OutKept φ (execDiagResume f s) := by
  unfold execDiagResume
  try dsimp only
  (repeat' first
    | with_reducible assumption
    | with_reducible exact Sub.of hm (by decide)
    | with_reducible apply onLive_kept
    | with_reducible apply State.suspendDiag_kept
    | with_reducible apply kept_ite
    | with_reducible apply kept_foldl
    | with_reducible apply kept_foldl_fst
    | with_reducible apply outKept_next
    | with_reducible apply outKept_ite
    | simp only [kept_mk, true_or]
    | split
    | intro _)

theorem execHoldFalling_kept {φ : Frame} {f : Nat} {v : Int} {s : State} (hm : Sub 0x4000008 φ.fx) (h1 : s.Kept φ) :
    OutKept φ (execHoldFalling f v s) := by
  unfold execHoldFalling
  try dsimp only
  (repeat' first
    | with_reducible assumption
    | with_reducible exact Sub.of hm (by decide)
    | with_reducible apply State.setFeedBit_kept
    | with_reducible apply State.setDieFld_kept
    | with_reducible apply feedEvent_kept
    | with_reducible apply State.setFeedRt_kept
    | with_reducible apply kept_ite
    | with_reducible apply kept_foldl
    | with_reducible apply kept_foldl_fst
    | with_reducible apply outKept_next
    | with_reducible apply outKept_ite
    | simp only [kept_mk, true_or]
    | split
    | intro _)

theorem State.endHold_kept {φ : Frame} {s : State} {f : Nat} (hm : Sub 0x8 φ.fx) (h1 : s.Kept φ) :
    State.Kept φ (State.endHold s f) := by
  unfold State.endHold
  try dsimp only
  (repeat' first
    | with_reducible assumption
    | with_reducible exact Sub.of hm (by decide)
    | with_reducible apply State.setFeedBit_kept
    | with_reducible apply State.setDieFld_kept
    | with_reducible apply kept_ite
    | with_reducible apply kept_foldl
    | with_reducible apply kept_foldl_fst
    | with_reducible apply outKept_next
    | with_reducible apply outKept_ite
    | simp only [kept_mk, true_or]
    | split
    | intro _)

theorem execHoldRising_kept {φ : Frame} {f : Nat} {v : Int} {s : State} (hm : Sub 0x2000008 φ.fx) (h1 : s.Kept φ) :
    OutKept φ (execHoldRising f v s) := by
  unfold execHoldRising
  try dsimp only
  (repeat' first
    | with_reducible assumption
    | with_reducible exact Sub.of hm (by decide)
    | with_reducible apply State.resumeOuts_kept
    | with_reducible apply State.endHold_kept
    | with_reducible apply feedEvent_kept
    | with_reducible apply kept_ite
    | with_reducible apply kept_foldl
    | with_reducible apply kept_foldl_fst
    | with_reducible apply outKept_next
    | with_reducible apply outKept_ite
    | simp only [kept_mk, true_or]
    | split
    | intro _)

theorem State.cutOff_kept {φ : Frame} {s : State} {f : Nat} (hm : Sub 0x6000008 φ.fx) (h1 : s.Kept φ) :
    State.Kept φ (State.cutOff s f) := by
  unfold State.cutOff
  try dsimp only
  (repeat' first
    | with_reducible assumption
    | with_reducible exact Sub.of hm (by decide)
    | with_reducible apply State.toDip_kept
    | with_reducible apply State.setFeedBit_kept
    | with_reducible apply State.endHold_kept
    | with_reducible apply State.syncLdDefer_kept
    | with_reducible apply State.forEach_kept
    | with_reducible apply State.setFeedRt_kept
    | with_reducible apply kept_ite
    | with_reducible apply kept_foldl
    | with_reducible apply kept_foldl_fst
    | with_reducible apply outKept_next
    | with_reducible apply outKept_ite
    | simp only [kept_mk, true_or]
    | split
    | intro _)

theorem execCrankWindowExpiry_kept {φ : Frame} {f : Nat} {s : State} (hm : Sub 0x6000008 φ.fx) (h1 : s.Kept φ) :
    OutKept φ (execCrankWindowExpiry f s) := by
  unfold execCrankWindowExpiry
  try dsimp only
  (repeat' first
    | with_reducible assumption
    | with_reducible exact Sub.of hm (by decide)
    | with_reducible apply State.cutOff_kept
    | with_reducible apply onLive_kept
    | with_reducible apply kept_ite
    | with_reducible apply kept_foldl
    | with_reducible apply kept_foldl_fst
    | with_reducible apply outKept_next
    | with_reducible apply outKept_ite
    | simp only [kept_mk, true_or]
    | split
    | intro _)

theorem execCutCrossing_kept {φ : Frame} {f : Nat} {v : Int} {s : State} (hm : Sub 0x6000008 φ.fx) (h1 : s.Kept φ) :
    OutKept φ (execCutCrossing f v s) := by
  unfold execCutCrossing
  try dsimp only
  (repeat' first
    | with_reducible assumption
    | with_reducible exact Sub.of hm (by decide)
    | with_reducible apply State.cutOff_kept
    | with_reducible apply feedEvent_kept
    | with_reducible apply kept_ite
    | with_reducible apply kept_foldl
    | with_reducible apply kept_foldl_fst
    | with_reducible apply outKept_next
    | with_reducible apply outKept_ite
    | simp only [kept_mk, true_or]
    | split
    | intro _)

theorem State.nextSlot_kept {φ : Frame} {s : State} {f : Nat} (hm : Sub 0x6000008 φ.fx) (h1 : s.Kept φ) :
    State.Kept φ (State.nextSlot s f) := by
  unfold State.nextSlot
  try dsimp only
  (repeat' first
    | with_reducible assumption
    | with_reducible exact Sub.of hm (by decide)
    | with_reducible apply State.setFeedRt_kept
    | with_reducible apply State.restoreOut_kept
    | with_reducible apply kept_ite
    | with_reducible apply kept_foldl
    | with_reducible apply kept_foldl_fst
    | with_reducible apply outKept_next
    | with_reducible apply outKept_ite
    | simp only [kept_mk, true_or]
    | split
    | intro _)

theorem execFeedRecovery_kept {φ : Frame} {f : Nat} {v : Int} {s : State} (hm : Sub 0x6000008 φ.fx) (h1 : s.Kept φ) :
    OutKept φ (execFeedRecovery f v s) := by
  unfold execFeedRecovery
  try dsimp only
  (repeat' first
    | with_reducible assumption
    | with_reducible exact Sub.of hm (by decide)
    | with_reducible apply State.resumeOuts_kept
    | with_reducible apply State.setFeedBit_kept
    | with_reducible apply feedEvent_kept
    | with_reducible apply State.forEach_kept
    | with_reducible apply State.nextSlot_kept
    | with_reducible apply State.setFeedRt_kept
    | with_reducible apply kept_ite
    | with_reducible apply kept_foldl
    | with_reducible apply kept_foldl_fst
    | with_reducible apply outKept_next
    | with_reducible apply outKept_ite
    | simp only [kept_mk, true_or]
    | split
    | intro _)

theorem execRestoreSlot_kept {φ : Frame} {f : Nat} {s : State} (hm : Sub 0x6000008 φ.fx) (h1 : s.Kept φ) :
    OutKept φ (execRestoreSlot f s) := by
  unfold execRestoreSlot
  try dsimp only
  (repeat' first
    | with_reducible assumption
    | with_reducible exact Sub.of hm (by decide)
    | with_reducible apply onLive_kept
    | with_reducible apply State.nextSlot_kept
    | with_reducible apply kept_ite
    | with_reducible apply kept_foldl
    | with_reducible apply kept_foldl_fst
    | with_reducible apply outKept_next
    | with_reducible apply outKept_ite
    | simp only [kept_mk, true_or]
    | split
    | intro _)

theorem execRecoveryLost_kept {φ : Frame} {f : Nat} {v : Int} {s : State} (hm : Sub 0x4000008 φ.fx) (h1 : s.Kept φ) :
    OutKept φ (execRecoveryLost f v s) := by
  unfold execRecoveryLost
  try dsimp only
  (repeat' first
    | with_reducible assumption
    | with_reducible exact Sub.of hm (by decide)
    | with_reducible apply feedEvent_kept
    | with_reducible apply State.setFeedRt_kept
    | with_reducible apply kept_ite
    | with_reducible apply kept_foldl
    | with_reducible apply kept_foldl_fst
    | with_reducible apply outKept_next
    | with_reducible apply outKept_ite
    | simp only [kept_mk, true_or]
    | split
    | intro _)

theorem execFeedHighSet_kept {φ : Frame} {f : Nat} {v : Int} {s : State} (hm : Sub 0x8 φ.fx) (h1 : s.Kept φ) :
    OutKept φ (execFeedHighSet f v s) := by
  unfold execFeedHighSet
  try dsimp only
  (repeat' first
    | with_reducible assumption
    | with_reducible exact Sub.of hm (by decide)
    | with_reducible apply State.setFeedBit_kept
    | with_reducible apply feedEvent_kept
    | with_reducible apply kept_ite
    | with_reducible apply kept_foldl
    | with_reducible apply kept_foldl_fst
    | with_reducible apply outKept_next
    | with_reducible apply outKept_ite
    | simp only [kept_mk, true_or]
    | split
    | intro _)

theorem State.startDeferred_kept {φ : Frame} {s : State} {d : Nat} {x : Nat} (hm : Sub 0x2000008 φ.fx) (h1 : s.Kept φ)
    :
    State.Kept φ (State.startDeferred s d x) := by
  unfold State.startDeferred
  try dsimp only
  (repeat' first
    | with_reducible assumption
    | with_reducible exact Sub.of hm (by decide)
    | with_reducible apply State.syncLdDefer_kept
    | with_reducible apply State.turnOff_kept
    | with_reducible apply kept_ite
    | with_reducible apply kept_foldl
    | with_reducible apply kept_foldl_fst
    | with_reducible apply outKept_next
    | with_reducible apply outKept_ite
    | simp only [kept_mk, true_or]
    | split
    | intro _)

theorem execFeedHighClear_kept {φ : Frame} {f : Nat} {v : Int} {s : State} (hm : Sub 0x2000008 φ.fx) (h1 : s.Kept φ) :
    OutKept φ (execFeedHighClear f v s) := by
  unfold execFeedHighClear
  try dsimp only
  (repeat' first
    | with_reducible assumption
    | with_reducible exact Sub.of hm (by decide)
    | with_reducible apply State.setFeedBit_kept
    | with_reducible apply State.startDeferred_kept
    | with_reducible apply feedEvent_kept
    | with_reducible apply State.forEach_kept
    | with_reducible apply kept_ite
    | with_reducible apply kept_foldl
    | with_reducible apply kept_foldl_fst
    | with_reducible apply outKept_next
    | with_reducible apply outKept_ite
    | simp only [kept_mk, true_or]
    | split
    | intro _)

theorem execLdDeferTimeout_kept {φ : Frame} {d : Nat} {x : Nat} {s : State} (hm : Sub 0x2000008 φ.fx) (h1 : s.Kept φ)
    :
    OutKept φ (execLdDeferTimeout d x s) := by
  unfold execLdDeferTimeout
  try dsimp only
  (repeat' first
    | with_reducible assumption
    | with_reducible exact Sub.of hm (by decide)
    | with_reducible apply onLive_kept
    | with_reducible apply State.startDeferred_kept
    | with_reducible apply kept_ite
    | with_reducible apply kept_foldl
    | with_reducible apply kept_foldl_fst
    | with_reducible apply outKept_next
    | with_reducible apply outKept_ite
    | simp only [kept_mk, true_or]
    | split
    | intro _)

theorem execFeedOvSet_kept {φ : Frame} {f : Nat} {v : Int} {s : State} (hm : Sub 0x8 φ.fx) (h1 : s.Kept φ) :
    OutKept φ (execFeedOvSet f v s) := by
  unfold execFeedOvSet
  try dsimp only
  (repeat' first
    | with_reducible assumption
    | with_reducible exact Sub.of hm (by decide)
    | with_reducible apply State.setFeedBit_kept
    | with_reducible apply feedEvent_kept
    | with_reducible apply kept_ite
    | with_reducible apply kept_foldl
    | with_reducible apply kept_foldl_fst
    | with_reducible apply outKept_next
    | with_reducible apply outKept_ite
    | simp only [kept_mk, true_or]
    | split
    | intro _)

theorem execFeedOvClear_kept {φ : Frame} {f : Nat} {v : Int} {s : State} (hm : Sub 0x8 φ.fx) (h1 : s.Kept φ) :
    OutKept φ (execFeedOvClear f v s) := by
  unfold execFeedOvClear
  try dsimp only
  (repeat' first
    | with_reducible assumption
    | with_reducible exact Sub.of hm (by decide)
    | with_reducible apply State.setFeedBit_kept
    | with_reducible apply feedEvent_kept
    | with_reducible apply kept_ite
    | with_reducible apply kept_foldl
    | with_reducible apply kept_foldl_fst
    | with_reducible apply outKept_next
    | with_reducible apply outKept_ite
    | simp only [kept_mk, true_or]
    | split
    | intro _)

theorem execReverseSet_kept {φ : Frame} {f : Nat} {v : Int} {s : State} (hm : Sub 0x6000008 φ.fx) (h1 : s.Kept φ) :
    OutKept φ (execReverseSet f v s) := by
  unfold execReverseSet
  try dsimp only
  (repeat' first
    | with_reducible assumption
    | with_reducible exact Sub.of hm (by decide)
    | with_reducible apply State.cutOff_kept
    | with_reducible apply State.setFeedBit_kept
    | with_reducible apply feedEvent_kept
    | with_reducible apply kept_ite
    | with_reducible apply kept_foldl
    | with_reducible apply kept_foldl_fst
    | with_reducible apply outKept_next
    | with_reducible apply outKept_ite
    | simp only [kept_mk, true_or]
    | split
    | intro _)

theorem execReverseClear_kept {φ : Frame} {f : Nat} {v : Int} {s : State} (hm : Sub 0x8 φ.fx) (h1 : s.Kept φ) :
    OutKept φ (execReverseClear f v s) := by
  unfold execReverseClear
  try dsimp only
  (repeat' first
    | with_reducible assumption
    | with_reducible exact Sub.of hm (by decide)
    | with_reducible apply State.setFeedBit_kept
    | with_reducible apply feedEvent_kept
    | with_reducible apply kept_ite
    | with_reducible apply kept_foldl
    | with_reducible apply kept_foldl_fst
    | with_reducible apply outKept_next
    | with_reducible apply outKept_ite
    | simp only [kept_mk, true_or]
    | split
    | intro _)

theorem execFeedClassMismatch_kept {φ : Frame} {f : Nat} {v : Int} {s : State} (hm : Sub 0x8 φ.fx) (h1 : s.Kept φ) :
    OutKept φ (execFeedClassMismatch f v s) := by
  unfold execFeedClassMismatch
  try dsimp only
  (repeat' first
    | with_reducible assumption
    | with_reducible exact Sub.of hm (by decide)
    | with_reducible apply State.setFeedBit_kept
    | with_reducible apply feedEvent_kept
    | with_reducible apply kept_ite
    | with_reducible apply kept_foldl
    | with_reducible apply kept_foldl_fst
    | with_reducible apply outKept_next
    | with_reducible apply outKept_ite
    | simp only [kept_mk, true_or]
    | split
    | intro _)

theorem State.seeLines_kept {φ : Frame} {s : State} {d : Nat} {lines : Nat} (hm : Sub 0x2000008 φ.fx) (h1 : s.Kept φ)
    :
    State.Kept φ (State.seeLines s d lines) := by
  unfold State.seeLines
  try dsimp only
  (repeat' first
    | with_reducible assumption
    | with_reducible exact Sub.of hm (by decide)
    | with_reducible apply State.setShBit_kept
    | with_reducible apply State.lockout_kept
    | with_reducible apply State.setShFld_kept
    | with_reducible apply State.forEach_kept
    | with_reducible apply kept_ite
    | with_reducible apply kept_foldl
    | with_reducible apply kept_foldl_fst
    | with_reducible apply outKept_next
    | with_reducible apply outKept_ite
    | simp only [kept_mk, true_or]
    | split
    | intro _)

theorem execSafeLineAssert_kept {φ : Frame} {l : Lane} {d : Nat} {s : State} (hm : Sub 0x2000008 φ.fx) (h1 : s.Kept φ)
    :
    OutKept φ (execSafeLineAssert l d s) := by
  unfold execSafeLineAssert
  try dsimp only
  (repeat' first
    | with_reducible assumption
    | with_reducible exact Sub.of hm (by decide)
    | with_reducible apply onLive_kept
    | with_reducible apply State.seeLines_kept
    | with_reducible apply kept_ite
    | with_reducible apply kept_foldl
    | with_reducible apply kept_foldl_fst
    | with_reducible apply outKept_next
    | with_reducible apply outKept_ite
    | simp only [kept_mk, true_or]
    | split
    | intro _)

theorem State.urgentPower_kept {φ : Frame} {s : State} {d : Nat} {u : Urgent} (hm : Sub 0x2000008 φ.fx) (h1 : s.Kept
    φ) :
    State.Kept φ (State.urgentPower s d u) := by
  unfold State.urgentPower
  try dsimp only
  (repeat' first
    | with_reducible assumption
    | with_reducible exact Sub.of hm (by decide)
    | with_reducible apply State.setShBit_kept
    | with_reducible apply State.setTarget_kept
    | with_reducible apply State.takeFail_kept
    | with_reducible apply State.setO_kept
    | with_reducible apply State.modOut_kept
    | with_reducible apply State.forEach_kept
    | with_reducible apply kept_ite
    | with_reducible apply kept_foldl
    | with_reducible apply kept_foldl_fst
    | with_reducible apply outKept_next
    | with_reducible apply outKept_ite
    | simp only [kept_mk, true_or]
    | split
    | intro _)

theorem State.startSched_kept {φ : Frame} {s : State} {d : Nat} {x : Nat} {late : Bool} (hm : Sub 0x2000008 φ.fx) (h1
    : s.Kept φ) :
    State.Kept φ (State.startSched s d x late) := by
  unfold State.startSched
  try dsimp only
  (repeat' first
    | with_reducible assumption
    | with_reducible exact Sub.of hm (by decide)
    | with_reducible apply State.setTarget_kept
    | with_reducible apply State.setO_kept
    | with_reducible apply State.modOut_kept
    | with_reducible apply kept_ite
    | with_reducible apply kept_foldl
    | with_reducible apply kept_foldl_fst
    | with_reducible apply outKept_next
    | with_reducible apply outKept_ite
    | simp only [kept_mk, true_or]
    | split
    | intro _)

theorem State.failPower_kept {φ : Frame} {s : State} {d : Nat} (hm : Sub 0x2000008 φ.fx) (h1 : s.Kept φ) :
    State.Kept φ (State.failPower s d) := by
  unfold State.failPower
  try dsimp only
  (repeat' first
    | with_reducible assumption
    | with_reducible exact Sub.of hm (by decide)
    | with_reducible apply State.setShBit_kept
    | with_reducible apply State.takeFail_kept
    | with_reducible apply State.forEach_kept
    | with_reducible apply kept_ite
    | with_reducible apply kept_foldl
    | with_reducible apply kept_foldl_fst
    | with_reducible apply outKept_next
    | with_reducible apply outKept_ite
    | simp only [kept_mk, true_or]
    | split
    | intro _)

theorem State.restartPower_kept {φ : Frame} {s : State} {d : Nat} (hm : Sub 0x1e000000 φ.fx) (h1 : s.Kept φ) :
    State.Kept φ (State.restartPower s d) := by
  unfold State.restartPower
  try dsimp only
  (repeat' first
    | with_reducible assumption
    | with_reducible exact Sub.of hm (by decide)
    | with_reducible apply State.setPw_kept
    | with_reducible apply State.modOut_kept
    | with_reducible apply State.forEach_kept
    | with_reducible apply State.setFeedRt_kept
    | with_reducible apply kept_ite
    | with_reducible apply kept_foldl
    | with_reducible apply kept_foldl_fst
    | with_reducible apply outKept_next
    | with_reducible apply outKept_ite
    | simp only [kept_mk, true_or]
    | split
    | intro _)

theorem State.powerFrame_kept {φ : Frame} {s : State} {d : Nat} {cycle : Nat} {news : List RegCell} (hm : Sub
    0x1a000008 φ.fx) (h1 : s.Kept φ) :
    State.Kept φ (State.powerFrame s d cycle news) := by
  unfold State.powerFrame
  try dsimp only
  (repeat' first
    | with_reducible assumption
    | with_reducible exact Sub.of hm (by decide)
    | with_reducible apply State.setPw_kept
    | with_reducible apply State.setShBit_kept
    | with_reducible apply State.takeRecord_kept
    | with_reducible apply State.reload_kept
    | with_reducible apply State.forEach_kept
    | with_reducible apply kept_ite
    | with_reducible apply kept_foldl
    | with_reducible apply kept_foldl_fst
    | with_reducible apply outKept_next
    | with_reducible apply outKept_ite
    | simp only [kept_mk, true_or]
    | split
    | intro _)

theorem State.powerCycle_kept {φ : Frame} {s : State} {d : Nat} (hm : Sub 0x2000008 φ.fx) (h1 : s.Kept φ) :
    State.Kept φ (State.powerCycle s d) := by
  unfold State.powerCycle
  try dsimp only
  (repeat' first
    | with_reducible assumption
    | with_reducible exact Sub.of hm (by decide)
    | with_reducible apply State.setO_kept
    | with_reducible apply State.setOut_kept
    | with_reducible apply State.setShFld_kept
    | with_reducible apply State.forEach_kept
    | with_reducible apply kept_ite
    | with_reducible apply kept_foldl
    | with_reducible apply kept_foldl_fst
    | with_reducible apply outKept_next
    | with_reducible apply outKept_ite
    | simp only [kept_mk, true_or]
    | split
    | intro _)

end Sys2Proof.Machine
end

