-- ==== Sys2Proof/Laws/KeptField.lean ====
section
/-! SUPPORT. The operations of Field.lean keep the invariant, the queue and the time. -/

namespace Sys2Proof.Machine

theorem State.setFc_kept {φ : Frame} {s : State} {d m : Nat} {x : FcRt} (hm : Sub 0x20000000 φ.fx) (h : s.Kept φ) :
    State.Kept φ (State.setFc s d m x) :=
  kept_fcs h (hm.bit 29 rfl) ((List.length_set ..).trans h.shape.fcs)

theorem State.modFc_kept {φ : Frame} {s : State} {d : Nat} {m : Nat} {f : FcRt → FcRt} (hm : Sub 0x20000000 φ.fx) (h1
    : s.Kept φ) :
    State.Kept φ (State.modFc s d m f) := by
  unfold State.modFc
  try dsimp only
  (repeat' first
    | with_reducible assumption
    | with_reducible exact Sub.of hm (by decide)
    | with_reducible apply State.setFc_kept
    | with_reducible apply kept_ite
    | with_reducible apply kept_foldl
    | with_reducible apply kept_foldl_fst
    | with_reducible apply outKept_next
    | with_reducible apply outKept_ite
    | simp only [kept_mk, true_or]
    | split
    | intro _)

theorem State.setFd_kept {φ : Frame} {s : State} {d : Nat} {x : FieldRt} (hm : Sub 0x1c0000000 φ.fx) (h1 : s.Kept φ) :
    State.Kept φ (State.setFd s d x) := by
  unfold State.setFd
  try dsimp only
  (repeat' first
    | with_reducible assumption
    | with_reducible exact Sub.of hm (by decide)
    | with_reducible apply kept_ite
    | with_reducible apply kept_foldl
    | with_reducible apply kept_foldl_fst
    | with_reducible apply outKept_next
    | with_reducible apply outKept_ite
    | simp only [kept_mk, hm.bit 30 rfl, hm.bit 31 rfl, hm.bit 32 rfl, or_true, true_or]
    | split
    | intro _)

theorem State.setFSt_kept {φ : Frame} {s : State} {d : Nat} {m : Nat} {v : Nat} (hm : Sub 0x8 φ.fx) (h1 : s.Kept φ) :
    State.Kept φ (State.setFSt s d m v) := by
  unfold State.setFSt
  try dsimp only
  (repeat' first
    | with_reducible assumption
    | with_reducible exact Sub.of hm (by decide)
    | with_reducible apply State.setShFld_kept
    | with_reducible apply kept_ite
    | with_reducible apply kept_foldl
    | with_reducible apply kept_foldl_fst
    | with_reducible apply outKept_next
    | with_reducible apply outKept_ite
    | simp only [kept_mk, true_or]
    | split
    | intro _)

theorem State.setFBit_kept {φ : Frame} {s : State} {d : Nat} {m : Nat} {f : Fld} {b : Bool} (hm : Sub 0x8 φ.fx) (h1 :
    s.Kept φ) :
    State.Kept φ (State.setFBit s d m f b) := by
  unfold State.setFBit
  try dsimp only
  (repeat' first
    | with_reducible assumption
    | with_reducible exact Sub.of hm (by decide)
    | with_reducible apply State.setShBit_kept
    | with_reducible apply kept_ite
    | with_reducible apply kept_foldl
    | with_reducible apply kept_foldl_fst
    | with_reducible apply outKept_next
    | with_reducible apply outKept_ite
    | simp only [kept_mk, true_or]
    | split
    | intro _)

theorem State.syncLines_kept {φ : Frame} {s : State} {d : Nat} (hm : Sub 0x8 φ.fx) (h1 : s.Kept φ) :
    State.Kept φ (State.syncLines s d) := by
  unfold State.syncLines
  try dsimp only
  (repeat' first
    | with_reducible assumption
    | with_reducible exact Sub.of hm (by decide)
    | with_reducible apply State.setShFld_kept
    | with_reducible apply kept_ite
    | with_reducible apply kept_foldl
    | with_reducible apply kept_foldl_fst
    | with_reducible apply outKept_next
    | with_reducible apply outKept_ite
    | simp only [kept_mk, true_or]
    | split
    | intro _)

theorem State.syncValid_kept {φ : Frame} {s : State} {d : Nat} {m : Nat} (hm : Sub 0x8 φ.fx) (h1 : s.Kept φ) :
    State.Kept φ (State.syncValid s d m) := by
  unfold State.syncValid
  try dsimp only
  (repeat' first
    | with_reducible assumption
    | with_reducible exact Sub.of hm (by decide)
    | with_reducible apply State.setFBit_kept
    | with_reducible apply State.syncLines_kept
    | with_reducible apply kept_ite
    | with_reducible apply kept_foldl
    | with_reducible apply kept_foldl_fst
    | with_reducible apply outKept_next
    | with_reducible apply outKept_ite
    | simp only [kept_mk, true_or]
    | split
    | intro _)

theorem State.takeLevel_kept {φ : Frame} {s : State} {d : Nat} {m : Nat} {active : Bool} (hm : Sub 0x20000008 φ.fx)
    (h1 : s.Kept φ) :
    State.Kept φ (State.takeLevel s d m active) := by
  unfold State.takeLevel
  try dsimp only
  (repeat' first
    | with_reducible assumption
    | with_reducible exact Sub.of hm (by decide)
    | with_reducible apply State.setFBit_kept
    | with_reducible apply State.setSh_kept
    | with_reducible apply State.modFc_kept
    | with_reducible apply State.syncValid_kept
    | with_reducible apply kept_ite
    | with_reducible apply kept_foldl
    | with_reducible apply kept_foldl_fst
    | with_reducible apply outKept_next
    | with_reducible apply outKept_ite
    | simp only [kept_mk, true_or]
    | split
    | intro _)

theorem State.fcTryOn_kept {φ : Frame} {s : State} {d : Nat} {m : Nat} (hm : Sub 0x20000008 φ.fx) (h1 : s.Kept φ) :
    State.Kept φ (State.fcTryOn s d m) := by
  unfold State.fcTryOn
  try dsimp only
  (repeat' first
    | with_reducible assumption
    | with_reducible exact Sub.of hm (by decide)
    | with_reducible apply State.modFc_kept
    | with_reducible apply State.setFSt_kept
    | with_reducible apply kept_ite
    | with_reducible apply kept_foldl
    | with_reducible apply kept_foldl_fst
    | with_reducible apply outKept_next
    | with_reducible apply outKept_ite
    | simp only [kept_mk, true_or]
    | split
    | intro _)

theorem State.fcOff_kept {φ : Frame} {s : State} {d : Nat} {m : Nat} {st : Nat} (hm : Sub 0x20000008 φ.fx) (h1 :
    s.Kept φ) :
    State.Kept φ (State.fcOff s d m st) := by
  unfold State.fcOff
  try dsimp only
  (repeat' first
    | with_reducible assumption
    | with_reducible exact Sub.of hm (by decide)
    | with_reducible apply State.modFc_kept
    | with_reducible apply State.setFSt_kept
    | with_reducible apply kept_ite
    | with_reducible apply kept_foldl
    | with_reducible apply kept_foldl_fst
    | with_reducible apply outKept_next
    | with_reducible apply outKept_ite
    | simp only [kept_mk, true_or]
    | split
    | intro _)

theorem State.fcSetTarget_kept {φ : Frame} {s : State} {d : Nat} {m : Nat} {t : Nat} (hm : Sub 0x20000008 φ.fx) (h1 :
    s.Kept φ) :
    State.Kept φ (State.fcSetTarget s d m t) := by
  unfold State.fcSetTarget
  try dsimp only
  (repeat' first
    | with_reducible assumption
    | with_reducible exact Sub.of hm (by decide)
    | with_reducible apply State.modFc_kept
    | with_reducible apply State.fcOff_kept
    | with_reducible apply State.fcTryOn_kept
    | with_reducible apply kept_ite
    | with_reducible apply kept_foldl
    | with_reducible apply kept_foldl_fst
    | with_reducible apply outKept_next
    | with_reducible apply outKept_ite
    | simp only [kept_mk, true_or]
    | split
    | intro _)

theorem State.fcLockout_kept {φ : Frame} {s : State} {d : Nat} {m : Nat} {f : Fld} (hm : Sub 0x20000008 φ.fx) (h1 :
    s.Kept φ) :
    State.Kept φ (State.fcLockout s d m f) := by
  unfold State.fcLockout
  try dsimp only
  (repeat' first
    | with_reducible assumption
    | with_reducible exact Sub.of hm (by decide)
    | with_reducible apply State.setFBit_kept
    | with_reducible apply State.fcOff_kept
    | with_reducible apply kept_ite
    | with_reducible apply kept_foldl
    | with_reducible apply kept_foldl_fst
    | with_reducible apply outKept_next
    | with_reducible apply outKept_ite
    | simp only [kept_mk, true_or]
    | split
    | intro _)

theorem State.fcDip_kept {φ : Frame} {s : State} {d : Nat} {m : Nat} (hm : Sub 0x20000008 φ.fx) (h1 : s.Kept φ) :
    State.Kept φ (State.fcDip s d m) := by
  unfold State.fcDip
  try dsimp only
  (repeat' first
    | with_reducible assumption
    | with_reducible exact Sub.of hm (by decide)
    | with_reducible apply State.fcOff_kept
    | with_reducible apply kept_ite
    | with_reducible apply kept_foldl
    | with_reducible apply kept_foldl_fst
    | with_reducible apply outKept_next
    | with_reducible apply outKept_ite
    | simp only [kept_mk, true_or]
    | split
    | intro _)

theorem State.fcRestore_kept {φ : Frame} {s : State} {d : Nat} {m : Nat} (hm : Sub 0x20000008 φ.fx) (h1 : s.Kept φ) :
    State.Kept φ (State.fcRestore s d m) := by
  unfold State.fcRestore
  try dsimp only
  (repeat' first
    | with_reducible assumption
    | with_reducible exact Sub.of hm (by decide)
    | with_reducible apply State.setFBit_kept
    | with_reducible apply State.setFSt_kept
    | with_reducible apply State.fcTryOn_kept
    | with_reducible apply kept_ite
    | with_reducible apply kept_foldl
    | with_reducible apply kept_foldl_fst
    | with_reducible apply outKept_next
    | with_reducible apply outKept_ite
    | simp only [kept_mk, true_or]
    | split
    | intro _)

theorem State.fcClearLatched_kept {φ : Frame} {s : State} {d : Nat} {m : Nat} (hm : Sub 0x8 φ.fx) (h1 : s.Kept φ) :
    State.Kept φ (State.fcClearLatched s d m) := by
  unfold State.fcClearLatched
  try dsimp only
  (repeat' first
    | with_reducible assumption
    | with_reducible exact Sub.of hm (by decide)
    | with_reducible apply State.setShFld_kept
    | with_reducible apply kept_ite
    | with_reducible apply kept_foldl
    | with_reducible apply kept_foldl_fst
    | with_reducible apply outKept_next
    | with_reducible apply outKept_ite
    | simp only [kept_mk, true_or]
    | split
    | intro _)

theorem State.fcLeaveLockout_kept {φ : Frame} {s : State} {d : Nat} {m : Nat} (hm : Sub 0x20000008 φ.fx) (h1 : s.Kept
    φ) :
    State.Kept φ (State.fcLeaveLockout s d m) := by
  unfold State.fcLeaveLockout
  try dsimp only
  (repeat' first
    | with_reducible assumption
    | with_reducible exact Sub.of hm (by decide)
    | with_reducible apply State.setFBit_kept
    | with_reducible apply State.fcClearLatched_kept
    | with_reducible apply State.setFSt_kept
    | with_reducible apply State.fcTryOn_kept
    | with_reducible apply kept_ite
    | with_reducible apply kept_foldl
    | with_reducible apply kept_foldl_fst
    | with_reducible apply outKept_next
    | with_reducible apply outKept_ite
    | simp only [kept_mk, true_or]
    | split
    | intro _)

theorem State.fcClear_kept {φ : Frame} {s : State} {d : Nat} {m : Nat} (hm : Sub 0x20000008 φ.fx) (h1 : s.Kept φ) :
    State.Kept φ (State.fcClear s d m) := by
  unfold State.fcClear
  try dsimp only
  (repeat' first
    | with_reducible assumption
    | with_reducible exact Sub.of hm (by decide)
    | with_reducible apply State.setFBit_kept
    | with_reducible apply State.fcClearLatched_kept
    | with_reducible apply State.fcLeaveLockout_kept
    | with_reducible apply State.fcTryOn_kept
    | with_reducible apply kept_ite
    | with_reducible apply kept_foldl
    | with_reducible apply kept_foldl_fst
    | with_reducible apply outKept_next
    | with_reducible apply outKept_ite
    | simp only [kept_mk, true_or]
    | split
    | intro _)

theorem State.fcTakeFail_kept {φ : Frame} {s : State} {d : Nat} {m : Nat} (hm : Sub 0x20000008 φ.fx) (h1 : s.Kept φ) :
    State.Kept φ (State.fcTakeFail s d m) := by
  unfold State.fcTakeFail
  try dsimp only
  (repeat' first
    | with_reducible assumption
    | with_reducible exact Sub.of hm (by decide)
    | with_reducible apply State.modFc_kept
    | with_reducible apply State.fcSetTarget_kept
    | with_reducible apply kept_ite
    | with_reducible apply kept_foldl
    | with_reducible apply kept_foldl_fst
    | with_reducible apply outKept_next
    | with_reducible apply outKept_ite
    | simp only [kept_mk, true_or]
    | split
    | intro _)

theorem State.syncBudget_kept {φ : Frame} {s : State} {d : Nat} (hm : Sub 0x8 φ.fx) (h1 : s.Kept φ) :
    State.Kept φ (State.syncBudget s d) := by
  unfold State.syncBudget
  try dsimp only
  (repeat' first
    | with_reducible assumption
    | with_reducible exact Sub.of hm (by decide)
    | with_reducible apply State.setShBit_kept
    | with_reducible apply State.setShFld_kept
    | with_reducible apply kept_ite
    | with_reducible apply kept_foldl
    | with_reducible apply kept_foldl_fst
    | with_reducible apply outKept_next
    | with_reducible apply outKept_ite
    | simp only [kept_mk, true_or]
    | split
    | intro _)

theorem State.fcEnterMode_kept {φ : Frame} {s : State} {d : Nat} {m : Nat} (hm : Sub 0x20000008 φ.fx) (h1 : s.Kept φ)
    :
    State.Kept φ (State.fcEnterMode s d m) := by
  unfold State.fcEnterMode
  try dsimp only
  (repeat' first
    | with_reducible assumption
    | with_reducible exact Sub.of hm (by decide)
    | with_reducible apply State.setSh_kept
    | with_reducible apply State.modFc_kept
    | with_reducible apply State.setFSt_kept
    | with_reducible apply kept_ite
    | with_reducible apply kept_foldl
    | with_reducible apply kept_foldl_fst
    | with_reducible apply outKept_next
    | with_reducible apply outKept_ite
    | simp only [kept_mk, true_or]
    | split
    | intro _)

theorem State.afterFcCommit_kept {φ : Frame} {before : State} {s : State} {d : Nat} {ws : List RegCell} (hm : Sub
    0x20000008 φ.fx) (h1 : before.Kept φ) (h2 : s.Kept φ) :
    State.Kept φ (State.afterFcCommit before s d ws) := by
  unfold State.afterFcCommit
  try dsimp only
  (repeat' first
    | with_reducible assumption
    | with_reducible exact Sub.of hm (by decide)
    | with_reducible apply State.setFBit_kept
    | with_reducible apply State.fcEnterMode_kept
    | with_reducible apply State.syncBudget_kept
    | with_reducible apply State.setShadow_kept
    | with_reducible apply State.setShFld_kept
    | with_reducible apply State.forEach_kept
    | with_reducible apply State.syncLines_kept
    | with_reducible apply State.fcClear_kept
    | with_reducible apply kept_ite
    | with_reducible apply kept_foldl
    | with_reducible apply kept_foldl_fst
    | with_reducible apply outKept_next
    | with_reducible apply outKept_ite
    | simp only [kept_mk, true_or]
    | split
    | intro _)

theorem State.fcRecord_kept {φ : Frame} {s : State} {d : Nat} {m : Nat} {cycle : Nat} {sched : Bool} (hm : Sub
    0x20000008 φ.fx) (h1 : s.Kept φ) :
    State.Kept φ (State.fcRecord s d m cycle sched) := by
  unfold State.fcRecord
  try dsimp only
  (repeat' first
    | with_reducible assumption
    | with_reducible exact Sub.of hm (by decide)
    | with_reducible apply State.setFBit_kept
    | with_reducible apply State.modFc_kept
    | with_reducible apply State.fcSetTarget_kept
    | with_reducible apply kept_ite
    | with_reducible apply kept_foldl
    | with_reducible apply kept_foldl_fst
    | with_reducible apply outKept_next
    | with_reducible apply outKept_ite
    | simp only [kept_mk, true_or]
    | split
    | intro _)

theorem State.endLost_kept {φ : Frame} {s : State} (hm : Sub 0x20000008 φ.fx) (h1 : s.Kept φ) :
    State.Kept φ (State.endLost s) := by
  unfold State.endLost
  try dsimp only
  (repeat' first
    | with_reducible assumption
    | with_reducible exact Sub.of hm (by decide)
    | with_reducible apply State.setFBit_kept
    | with_reducible apply State.setShBit_kept
    | with_reducible apply State.forEach_kept
    | with_reducible apply State.syncLines_kept
    | with_reducible apply State.fcRestore_kept
    | with_reducible apply kept_ite
    | with_reducible apply kept_foldl
    | with_reducible apply kept_foldl_fst
    | with_reducible apply outKept_next
    | with_reducible apply outKept_ite
    | simp only [kept_mk, true_or]
    | split
    | intro _)

theorem State.fieldFrame_kept {φ : Frame} {s : State} {d : Nat} {cycle : Nat} {news : List RegCell} (hm : Sub
    0x1e0000008 φ.fx) (h1 : s.Kept φ) :
    State.Kept φ (State.fieldFrame s d cycle news) := by
  unfold State.fieldFrame
  try dsimp only
  (repeat' first
    | with_reducible assumption
    | with_reducible exact Sub.of hm (by decide)
    | with_reducible apply State.setShBit_kept
    | with_reducible apply State.setFd_kept
    | with_reducible apply State.fcRecord_kept
    | with_reducible apply State.endLost_kept
    | with_reducible apply State.forEach_kept
    | with_reducible apply kept_ite
    | with_reducible apply kept_foldl
    | with_reducible apply kept_foldl_fst
    | with_reducible apply outKept_next
    | with_reducible apply outKept_ite
    | simp only [kept_mk, true_or]
    | split
    | intro _)

theorem State.urgentField_kept {φ : Frame} {s : State} {d : Nat} {u : Urgent} (hm : Sub 0x20000008 φ.fx) (h1 : s.Kept
    φ) :
    State.Kept φ (State.urgentField s d u) := by
  unfold State.urgentField
  try dsimp only
  (repeat' first
    | with_reducible assumption
    | with_reducible exact Sub.of hm (by decide)
    | with_reducible apply State.setFBit_kept
    | with_reducible apply State.setShBit_kept
    | with_reducible apply State.modFc_kept
    | with_reducible apply State.fcSetTarget_kept
    | with_reducible apply State.fcTakeFail_kept
    | with_reducible apply State.forEach_kept
    | with_reducible apply kept_ite
    | with_reducible apply kept_foldl
    | with_reducible apply kept_foldl_fst
    | with_reducible apply outKept_next
    | with_reducible apply outKept_ite
    | simp only [kept_mk, true_or]
    | split
    | intro _)

theorem State.fcStartSched_kept {φ : Frame} {s : State} {d : Nat} {m : Nat} {late : Bool} (hm : Sub 0x20000008 φ.fx)
    (h1 : s.Kept φ) :
    State.Kept φ (State.fcStartSched s d m late) := by
  unfold State.fcStartSched
  try dsimp only
  (repeat' first
    | with_reducible assumption
    | with_reducible exact Sub.of hm (by decide)
    | with_reducible apply State.setFBit_kept
    | with_reducible apply State.modFc_kept
    | with_reducible apply State.fcSetTarget_kept
    | with_reducible apply kept_ite
    | with_reducible apply kept_foldl
    | with_reducible apply kept_foldl_fst
    | with_reducible apply outKept_next
    | with_reducible apply outKept_ite
    | simp only [kept_mk, true_or]
    | split
    | intro _)

theorem State.failField_kept {φ : Frame} {s : State} {d : Nat} (hm : Sub 0x20000008 φ.fx) (h1 : s.Kept φ) :
    State.Kept φ (State.failField s d) := by
  unfold State.failField
  try dsimp only
  (repeat' first
    | with_reducible assumption
    | with_reducible exact Sub.of hm (by decide)
    | with_reducible apply State.setShBit_kept
    | with_reducible apply State.fcTakeFail_kept
    | with_reducible apply State.forEach_kept
    | with_reducible apply kept_ite
    | with_reducible apply kept_foldl
    | with_reducible apply kept_foldl_fst
    | with_reducible apply outKept_next
    | with_reducible apply outKept_ite
    | simp only [kept_mk, true_or]
    | split
    | intro _)

theorem State.restartField_kept {φ : Frame} {s : State} {d : Nat} (hm : Sub 0x1e0000000 φ.fx) (h1 : s.Kept φ) :
    State.Kept φ (State.restartField s d) := by
  unfold State.restartField
  try dsimp only
  (repeat' first
    | with_reducible assumption
    | with_reducible exact Sub.of hm (by decide)
    | with_reducible apply State.setFc_kept
    | with_reducible apply State.setFd_kept
    | with_reducible apply State.forEach_kept
    | with_reducible apply kept_ite
    | with_reducible apply kept_foldl
    | with_reducible apply kept_foldl_fst
    | with_reducible apply outKept_next
    | with_reducible apply outKept_ite
    | simp only [kept_mk, true_or]
    | split
    | intro _)

theorem specFcSet_kept {φ : Frame}  (hm : Sub 0x608 φ.fx)  :
    CmdSpec.Kept φ (specFcSet ) := by
  refine ⟨?_, ?_, ?_, ?_⟩ <;> intros <;> dsimp only [specFcSet] <;>
  (repeat' first
    | with_reducible assumption
    | with_reducible exact Sub.of hm (by decide)
    | with_reducible apply State.commitDies_kept
    | with_reducible apply kept_ite
    | with_reducible apply kept_foldl
    | with_reducible apply kept_foldl_fst
    | with_reducible apply outKept_next
    | with_reducible apply outKept_ite
    | simp only [kept_mk, true_or]
    | split
    | intro _)

theorem specFcConfig_kept {φ : Frame}  (hm : Sub 0x608 φ.fx)  :
    CmdSpec.Kept φ (specFcConfig ) := by
  refine ⟨?_, ?_, ?_, ?_⟩ <;> intros <;> dsimp only [specFcConfig] <;>
  (repeat' first
    | with_reducible assumption
    | with_reducible exact Sub.of hm (by decide)
    | with_reducible apply State.commitShared_kept
    | with_reducible apply kept_ite
    | with_reducible apply kept_foldl
    | with_reducible apply kept_foldl_fst
    | with_reducible apply outKept_next
    | with_reducible apply outKept_ite
    | simp only [kept_mk, true_or]
    | split
    | intro _)

theorem specFcGroupConfig_kept {φ : Frame}  (hm : Sub 0x608 φ.fx)  :
    CmdSpec.Kept φ (specFcGroupConfig ) := by
  refine ⟨?_, ?_, ?_, ?_⟩ <;> intros <;> dsimp only [specFcGroupConfig] <;>
  (repeat' first
    | with_reducible assumption
    | with_reducible exact Sub.of hm (by decide)
    | with_reducible apply State.commitShared_kept
    | with_reducible apply kept_ite
    | with_reducible apply kept_foldl
    | with_reducible apply kept_foldl_fst
    | with_reducible apply outKept_next
    | with_reducible apply outKept_ite
    | simp only [kept_mk, true_or]
    | split
    | intro _)

theorem specFcDieConfig_kept {φ : Frame}  (hm : Sub 0x608 φ.fx)  :
    CmdSpec.Kept φ (specFcDieConfig ) := by
  refine ⟨?_, ?_, ?_, ?_⟩ <;> intros <;> dsimp only [specFcDieConfig] <;>
  (repeat' first
    | with_reducible assumption
    | with_reducible exact Sub.of hm (by decide)
    | with_reducible apply State.commitDies_kept
    | with_reducible apply kept_ite
    | with_reducible apply kept_foldl
    | with_reducible apply kept_foldl_fst
    | with_reducible apply outKept_next
    | with_reducible apply outKept_ite
    | simp only [kept_mk, true_or]
    | split
    | intro _)

theorem specFcClear_kept {φ : Frame}  (hm : Sub 0x608 φ.fx)  :
    CmdSpec.Kept φ (specFcClear ) := by
  refine ⟨?_, ?_, ?_, ?_⟩ <;> intros <;> dsimp only [specFcClear] <;>
  (repeat' first
    | with_reducible assumption
    | with_reducible exact Sub.of hm (by decide)
    | with_reducible apply State.commitDies_kept
    | with_reducible apply kept_ite
    | with_reducible apply kept_foldl
    | with_reducible apply kept_foldl_fst
    | with_reducible apply outKept_next
    | with_reducible apply outKept_ite
    | simp only [kept_mk, true_or]
    | split
    | intro _)

theorem specFcStatus_kept {φ : Frame}   :
    CmdSpec.Kept φ (specFcStatus ) := by
  refine ⟨?_, ?_, ?_, ?_⟩ <;> intros <;> dsimp only [specFcStatus] <;>
  (repeat' first
    | with_reducible assumption
    | with_reducible apply kept_ite
    | with_reducible apply kept_foldl
    | with_reducible apply kept_foldl_fst
    | with_reducible apply outKept_next
    | with_reducible apply outKept_ite
    | simp only [kept_mk, true_or]
    | split
    | intro _)

theorem specFcInputs_kept {φ : Frame}   :
    CmdSpec.Kept φ (specFcInputs ) := by
  refine ⟨?_, ?_, ?_, ?_⟩ <;> intros <;> dsimp only [specFcInputs] <;>
  (repeat' first
    | with_reducible assumption
    | with_reducible apply kept_ite
    | with_reducible apply kept_foldl
    | with_reducible apply kept_foldl_fst
    | with_reducible apply outKept_next
    | with_reducible apply outKept_ite
    | simp only [kept_mk, true_or]
    | split
    | intro _)

theorem specFcDieStatus_kept {φ : Frame}   :
    CmdSpec.Kept φ (specFcDieStatus ) := by
  refine ⟨?_, ?_, ?_, ?_⟩ <;> intros <;> dsimp only [specFcDieStatus] <;>
  (repeat' first
    | with_reducible assumption
    | with_reducible apply kept_ite
    | with_reducible apply kept_foldl
    | with_reducible apply kept_foldl_fst
    | with_reducible apply outKept_next
    | with_reducible apply outKept_ite
    | simp only [kept_mk, true_or]
    | split
    | intro _)

theorem specFcSafeState_kept {φ : Frame}  (hm : Sub 0x14000000001000708 φ.fx)  :
    CmdSpec.Kept φ (specFcSafeState ) := by
  refine ⟨?_, ?_, ?_, ?_⟩ <;> intros <;> dsimp only [specFcSafeState] <;>
  (repeat' first
    | with_reducible assumption
    | with_reducible exact Sub.of hm (by decide)
    | with_reducible apply State.settle_kept
    | with_reducible apply State.sendUrgent_kept
    | with_reducible apply State.forEach_kept
    | with_reducible apply State.commitDies_kept
    | with_reducible apply kept_ite
    | with_reducible apply kept_foldl
    | with_reducible apply kept_foldl_fst
    | with_reducible apply outKept_next
    | with_reducible apply outKept_ite
    | simp only [kept_mk, true_or]
    | split
    | intro _)

theorem execFcSet_kept {φ : Frame} {r : Req} {s : State} (hm : Sub 0x17efdce0fafc007a07dc φ.fx) (h1 : s.Kept φ) :
    OutKept φ (execFcSet r s) := by
  unfold execFcSet
  try dsimp only
  (repeat' first
    | with_reducible assumption
    | with_reducible exact Sub.of hm (by decide)
    | with_reducible apply specFcSet_kept
    | with_reducible apply runScs_kept
    | with_reducible apply kept_ite
    | with_reducible apply kept_foldl
    | with_reducible apply kept_foldl_fst
    | with_reducible apply outKept_next
    | with_reducible apply outKept_ite
    | simp only [kept_mk, true_or]
    | split
    | intro _)

theorem execFcConfig_kept {φ : Frame} {r : Req} {s : State} (hm : Sub 0x17efdce0fafc007a07dc φ.fx) (h1 : s.Kept φ) :
    OutKept φ (execFcConfig r s) := by
  unfold execFcConfig
  try dsimp only
  (repeat' first
    | with_reducible assumption
    | with_reducible exact Sub.of hm (by decide)
    | with_reducible apply specFcConfig_kept
    | with_reducible apply runScs_kept
    | with_reducible apply kept_ite
    | with_reducible apply kept_foldl
    | with_reducible apply kept_foldl_fst
    | with_reducible apply outKept_next
    | with_reducible apply outKept_ite
    | simp only [kept_mk, true_or]
    | split
    | intro _)

theorem execFcGroupConfig_kept {φ : Frame} {r : Req} {s : State} (hm : Sub 0x17efdce0fafc007a07dc φ.fx) (h1 : s.Kept
    φ) :
    OutKept φ (execFcGroupConfig r s) := by
  unfold execFcGroupConfig
  try dsimp only
  (repeat' first
    | with_reducible assumption
    | with_reducible exact Sub.of hm (by decide)
    | with_reducible apply runScs_kept
    | with_reducible apply specFcGroupConfig_kept
    | with_reducible apply kept_ite
    | with_reducible apply kept_foldl
    | with_reducible apply kept_foldl_fst
    | with_reducible apply outKept_next
    | with_reducible apply outKept_ite
    | simp only [kept_mk, true_or]
    | split
    | intro _)

theorem execFcDieConfig_kept {φ : Frame} {r : Req} {s : State} (hm : Sub 0x17efdce0fafc007a07dc φ.fx) (h1 : s.Kept φ)
    :
    OutKept φ (execFcDieConfig r s) := by
  unfold execFcDieConfig
  try dsimp only
  (repeat' first
    | with_reducible assumption
    | with_reducible exact Sub.of hm (by decide)
    | with_reducible apply specFcDieConfig_kept
    | with_reducible apply runScs_kept
    | with_reducible apply kept_ite
    | with_reducible apply kept_foldl
    | with_reducible apply kept_foldl_fst
    | with_reducible apply outKept_next
    | with_reducible apply outKept_ite
    | simp only [kept_mk, true_or]
    | split
    | intro _)

theorem execFcClear_kept {φ : Frame} {r : Req} {s : State} (hm : Sub 0x17efdce0fafc007a07dc φ.fx) (h1 : s.Kept φ) :
    OutKept φ (execFcClear r s) := by
  unfold execFcClear
  try dsimp only
  (repeat' first
    | with_reducible assumption
    | with_reducible exact Sub.of hm (by decide)
    | with_reducible apply runScs_kept
    | with_reducible apply specFcClear_kept
    | with_reducible apply kept_ite
    | with_reducible apply kept_foldl
    | with_reducible apply kept_foldl_fst
    | with_reducible apply outKept_next
    | with_reducible apply outKept_ite
    | simp only [kept_mk, true_or]
    | split
    | intro _)

theorem execFcStatus_kept {φ : Frame} {r : Req} {s : State} (hm : Sub 0x17efdce0fafc007a03dc φ.fx) (h1 : s.Kept φ) :
    OutKept φ (execFcStatus r s) := by
  unfold execFcStatus
  try dsimp only
  (repeat' first
    | with_reducible assumption
    | with_reducible exact Sub.of hm (by decide)
    | with_reducible apply runScs_kept
    | with_reducible apply specFcStatus_kept
    | with_reducible apply kept_ite
    | with_reducible apply kept_foldl
    | with_reducible apply kept_foldl_fst
    | with_reducible apply outKept_next
    | with_reducible apply outKept_ite
    | simp only [kept_mk, true_or]
    | split
    | intro _)

theorem execFcInputs_kept {φ : Frame} {r : Req} {s : State} (hm : Sub 0x17efdce0fafc007a03dc φ.fx) (h1 : s.Kept φ) :
    OutKept φ (execFcInputs r s) := by
  unfold execFcInputs
  try dsimp only
  (repeat' first
    | with_reducible assumption
    | with_reducible exact Sub.of hm (by decide)
    | with_reducible apply runScs_kept
    | with_reducible apply specFcInputs_kept
    | with_reducible apply kept_ite
    | with_reducible apply kept_foldl
    | with_reducible apply kept_foldl_fst
    | with_reducible apply outKept_next
    | with_reducible apply outKept_ite
    | simp only [kept_mk, true_or]
    | split
    | intro _)

theorem execFcDieStatus_kept {φ : Frame} {r : Req} {s : State} (hm : Sub 0x17efdce0fafc007a03dc φ.fx) (h1 : s.Kept φ)
    :
    OutKept φ (execFcDieStatus r s) := by
  unfold execFcDieStatus
  try dsimp only
  (repeat' first
    | with_reducible assumption
    | with_reducible exact Sub.of hm (by decide)
    | with_reducible apply specFcDieStatus_kept
    | with_reducible apply runScs_kept
    | with_reducible apply kept_ite
    | with_reducible apply kept_foldl
    | with_reducible apply kept_foldl_fst
    | with_reducible apply outKept_next
    | with_reducible apply outKept_ite
    | simp only [kept_mk, true_or]
    | split
    | intro _)

theorem execFcSafeState_kept {φ : Frame} {r : Req} {s : State} (hm : Sub 0x17efdce0fafc017a07dc φ.fx) (h1 : s.Kept φ)
    :
    OutKept φ (execFcSafeState r s) := by
  unfold execFcSafeState
  try dsimp only
  (repeat' first
    | with_reducible assumption
    | with_reducible exact Sub.of hm (by decide)
    | with_reducible apply runScs_kept
    | with_reducible apply specFcSafeState_kept
    | with_reducible apply kept_ite
    | with_reducible apply kept_foldl
    | with_reducible apply kept_foldl_fst
    | with_reducible apply outKept_next
    | with_reducible apply outKept_ite
    | simp only [kept_mk, true_or]
    | split
    | intro _)

end Sys2Proof.Machine
end

