-- ==== Sys2Proof/Laws/KeptFieldEvents.lean ====
section
/-! SUPPORT. The operations of FieldEvents.lean keep the invariant, the queue and the time. -/

namespace Sys2Proof.Machine

theorem State.inFlags_kept {φ : Frame} {s : State} {d : Nat} {m : Nat} {ovr : Bool} {hot : Bool} (hm : Sub 0x8 φ.fx)
    (h1 : s.Kept φ) :
    State.Kept φ (State.inFlags s d m ovr hot) := by
  unfold State.inFlags
  try dsimp only
  (repeat' first
    | with_reducible assumption
    | with_reducible exact Sub.of hm (by decide)
    | with_reducible apply State.setFBit_kept
    | with_reducible apply kept_ite
    | with_reducible apply kept_foldl
    | with_reducible apply kept_foldl_fst
    | with_reducible apply outKept_next
    | with_reducible apply outKept_ite
    | simp only [kept_mk, true_or]
    | split
    | intro _)

theorem execFieldInputSample_kept {φ : Frame} {d : Nat} {m : Nat} {active : Bool} {ovr : Bool} {hot : Bool} {val :
    Word} {s : State} (hm : Sub 0x20000008 φ.fx) (h1 : s.Kept φ) :
    OutKept φ (execFieldInputSample d m active ovr hot val s) := by
  unfold execFieldInputSample
  try dsimp only
  (repeat' first
    | with_reducible assumption
    | with_reducible exact Sub.of hm (by decide)
    | with_reducible apply State.setSh_kept
    | with_reducible apply State.takeLevel_kept
    | with_reducible apply onLive_kept
    | with_reducible apply State.inFlags_kept
    | with_reducible apply kept_ite
    | with_reducible apply kept_foldl
    | with_reducible apply kept_foldl_fst
    | with_reducible apply outKept_next
    | with_reducible apply outKept_ite
    | simp only [kept_mk, true_or]
    | split
    | intro _)

theorem State.pulseSample_kept {φ : Frame} {s : State} {d : Nat} {m : Nat} {active : Bool} {val : Word} (hm : Sub
    0x20000008 φ.fx) (h1 : s.Kept φ) :
    State.Kept φ (State.pulseSample s d m active val) := by
  unfold State.pulseSample
  try dsimp only
  (repeat' first
    | with_reducible assumption
    | with_reducible exact Sub.of hm (by decide)
    | with_reducible apply State.setSh_kept
    | with_reducible apply State.modFc_kept
    | with_reducible apply State.takeLevel_kept
    | with_reducible apply kept_ite
    | with_reducible apply kept_foldl
    | with_reducible apply kept_foldl_fst
    | with_reducible apply outKept_next
    | with_reducible apply outKept_ite
    | simp only [kept_mk, true_or]
    | split
    | intro _)

theorem execWettingPulse_kept {φ : Frame} {d : Nat} {k : Nat} {acts : Nat} {vals : List Word} {s : State} (hm : Sub
    0x20000008 φ.fx) (h1 : s.Kept φ) :
    OutKept φ (execWettingPulse d k acts vals s) := by
  unfold execWettingPulse
  try dsimp only
  (repeat' first
    | with_reducible assumption
    | with_reducible exact Sub.of hm (by decide)
    | with_reducible apply State.pulseSample_kept
    | with_reducible apply onLive_kept
    | with_reducible apply State.forEach_kept
    | with_reducible apply kept_ite
    | with_reducible apply kept_foldl
    | with_reducible apply kept_foldl_fst
    | with_reducible apply outKept_next
    | with_reducible apply outKept_ite
    | simp only [kept_mk, true_or]
    | split
    | intro _)

theorem State.fcEvaluate_kept {φ : Frame} {s : State} {d : Nat} {m : Nat} {val : Word} {temp : Int} {clampE : Option
    Nat} (hm : Sub 0x20000008 φ.fx) (h1 : s.Kept φ) :
    State.Kept φ (State.fcEvaluate s d m val temp clampE) := by
  unfold State.fcEvaluate
  try dsimp only
  (repeat' first
    | with_reducible assumption
    | with_reducible exact Sub.of hm (by decide)
    | with_reducible apply State.setFBit_kept
    | with_reducible apply State.setSh_kept
    | with_reducible apply State.modFc_kept
    | with_reducible apply State.fcLockout_kept
    | with_reducible apply State.fcLeaveLockout_kept
    | with_reducible apply kept_ite
    | with_reducible apply kept_foldl
    | with_reducible apply kept_foldl_fst
    | with_reducible apply outKept_next
    | with_reducible apply outKept_ite
    | simp only [kept_mk, true_or]
    | split
    | intro _)

theorem execFcOutputEvaluation_kept {φ : Frame} {d : Nat} {m : Nat} {val : Word} {temp : Int} {clampE : Option Nat} {s
    : State} (hm : Sub 0x20000008 φ.fx) (h1 : s.Kept φ) :
    OutKept φ (execFcOutputEvaluation d m val temp clampE s) := by
  unfold execFcOutputEvaluation
  try dsimp only
  (repeat' first
    | with_reducible assumption
    | with_reducible exact Sub.of hm (by decide)
    | with_reducible apply State.fcEvaluate_kept
    | with_reducible apply onLive_kept
    | with_reducible apply kept_ite
    | with_reducible apply kept_foldl
    | with_reducible apply kept_foldl_fst
    | with_reducible apply outKept_next
    | with_reducible apply outKept_ite
    | simp only [kept_mk, true_or]
    | split
    | intro _)

theorem execFcOverload_kept {φ : Frame} {d : Nat} {m : Nat} {s : State} (hm : Sub 0x20000008 φ.fx) (h1 : s.Kept φ) :
    OutKept φ (execFcOverload d m s) := by
  unfold execFcOverload
  try dsimp only
  (repeat' first
    | with_reducible assumption
    | with_reducible exact Sub.of hm (by decide)
    | with_reducible apply State.fcLockout_kept
    | with_reducible apply onLive_kept
    | with_reducible apply kept_ite
    | with_reducible apply kept_foldl
    | with_reducible apply kept_foldl_fst
    | with_reducible apply outKept_next
    | with_reducible apply outKept_ite
    | simp only [kept_mk, true_or]
    | split
    | intro _)

theorem execFcPwmPeriodStart_kept {φ : Frame} {d : Nat} {m : Nat} {s : State} (hm : Sub 0x20000000 φ.fx) (h1 : s.Kept
    φ) :
    OutKept φ (execFcPwmPeriodStart d m s) := by
  unfold execFcPwmPeriodStart
  try dsimp only
  (repeat' first
    | with_reducible assumption
    | with_reducible exact Sub.of hm (by decide)
    | with_reducible apply State.modFc_kept
    | with_reducible apply onLive_kept
    | with_reducible apply kept_ite
    | with_reducible apply kept_foldl
    | with_reducible apply kept_foldl_fst
    | with_reducible apply outKept_next
    | with_reducible apply outKept_ite
    | simp only [kept_mk, true_or]
    | split
    | intro _)

theorem execAinConversion_kept {φ : Frame} {d : Nat} {m : Nat} {raw : Nat} {hot : Bool} {s : State} (hm : Sub
    0x20000008 φ.fx) (h1 : s.Kept φ) :
    OutKept φ (execAinConversion d m raw hot s) := by
  unfold execAinConversion
  try dsimp only
  (repeat' first
    | with_reducible assumption
    | with_reducible exact Sub.of hm (by decide)
    | with_reducible apply State.modFc_kept
    | with_reducible apply State.syncValid_kept
    | with_reducible apply onLive_kept
    | with_reducible apply State.setShFld_kept
    | with_reducible apply State.inFlags_kept
    | with_reducible apply kept_ite
    | with_reducible apply kept_foldl
    | with_reducible apply kept_foldl_fst
    | with_reducible apply outKept_next
    | with_reducible apply outKept_ite
    | simp only [kept_mk, true_or]
    | split
    | intro _)

theorem execFcOpenWire_kept {φ : Frame} {d : Nat} {m : Nat} {present : Bool} {s : State} (hm : Sub 0x8 φ.fx) (h1 :
    s.Kept φ) :
    OutKept φ (execFcOpenWire d m present s) := by
  unfold execFcOpenWire
  try dsimp only
  (repeat' first
    | with_reducible assumption
    | with_reducible exact Sub.of hm (by decide)
    | with_reducible apply State.setFBit_kept
    | with_reducible apply State.syncValid_kept
    | with_reducible apply onLive_kept
    | with_reducible apply kept_ite
    | with_reducible apply kept_foldl
    | with_reducible apply kept_foldl_fst
    | with_reducible apply outKept_next
    | with_reducible apply outKept_ite
    | simp only [kept_mk, true_or]
    | split
    | intro _)

theorem State.capPeriod_kept {φ : Frame} {s : State} {d : Nat} {m : Nat} {rising : Bool} {t : Nat} (hm : Sub
    0x20000008 φ.fx) (h1 : s.Kept φ) :
    State.Kept φ (State.capPeriod s d m rising t) := by
  unfold State.capPeriod
  try dsimp only
  (repeat' first
    | with_reducible assumption
    | with_reducible exact Sub.of hm (by decide)
    | with_reducible apply State.setSh_kept
    | with_reducible apply State.modFc_kept
    | with_reducible apply kept_ite
    | with_reducible apply kept_foldl
    | with_reducible apply kept_foldl_fst
    | with_reducible apply outKept_next
    | with_reducible apply outKept_ite
    | simp only [kept_mk, true_or]
    | split
    | intro _)

theorem State.capEncoder_kept {φ : Frame} {s : State} {d : Nat} {m : Nat} {rising : Bool} (hm : Sub 0x20000008 φ.fx)
    (h1 : s.Kept φ) :
    State.Kept φ (State.capEncoder s d m rising) := by
  unfold State.capEncoder
  try dsimp only
  (repeat' first
    | with_reducible assumption
    | with_reducible exact Sub.of hm (by decide)
    | with_reducible apply State.setSh_kept
    | with_reducible apply State.modFc_kept
    | with_reducible apply kept_ite
    | with_reducible apply kept_foldl
    | with_reducible apply kept_foldl_fst
    | with_reducible apply outKept_next
    | with_reducible apply outKept_ite
    | simp only [kept_mk, true_or]
    | split
    | intro _)

theorem execCaptureEdge_kept {φ : Frame} {d : Nat} {m : Nat} {rising : Bool} {t : Nat} {s : State} (hm : Sub
    0x220000008 φ.fx) (h1 : s.Kept φ) :
    OutKept φ (execCaptureEdge d m rising t s) := by
  unfold execCaptureEdge
  try dsimp only
  (repeat' first
    | with_reducible assumption
    | with_reducible exact Sub.of hm (by decide)
    | with_reducible apply State.setSh_kept
    | with_reducible apply onLive_kept
    | with_reducible apply State.capEncoder_kept
    | with_reducible apply State.capPeriod_kept
    | with_reducible apply kept_ite
    | with_reducible apply kept_foldl
    | with_reducible apply kept_foldl_fst
    | with_reducible apply outKept_next
    | with_reducible apply outKept_ite
    | simp only [kept_mk, hm.bit 33 rfl, or_true, true_or]
    | split
    | intro _)

theorem execPilotEdge_kept {φ : Frame} {d : Nat} {m : Nat} {rising : Bool} {t : Nat} {plateau : Int} {s : State} (hm :
    Sub 0x20000008 φ.fx) (h1 : s.Kept φ) :
    OutKept φ (execPilotEdge d m rising t plateau s) := by
  unfold execPilotEdge
  try dsimp only
  (repeat' first
    | with_reducible assumption
    | with_reducible exact Sub.of hm (by decide)
    | with_reducible apply State.setSh_kept
    | with_reducible apply State.modFc_kept
    | with_reducible apply onLive_kept
    | with_reducible apply State.setShFld_kept
    | with_reducible apply kept_ite
    | with_reducible apply kept_foldl
    | with_reducible apply kept_foldl_fst
    | with_reducible apply outKept_next
    | with_reducible apply outKept_ite
    | simp only [kept_mk, true_or]
    | split
    | intro _)

theorem State.pilotDc_kept {φ : Frame} {s : State} {d : Nat} {m : Nat} {dc : Int} (hm : Sub 0x8 φ.fx) (h1 : s.Kept φ)
    :
    State.Kept φ (State.pilotDc s d m dc) := by
  unfold State.pilotDc
  try dsimp only
  (repeat' first
    | with_reducible assumption
    | with_reducible exact Sub.of hm (by decide)
    | with_reducible apply State.setSh_kept
    | with_reducible apply kept_ite
    | with_reducible apply kept_foldl
    | with_reducible apply kept_foldl_fst
    | with_reducible apply outKept_next
    | with_reducible apply outKept_ite
    | simp only [kept_mk, true_or]
    | split
    | intro _)

theorem execPilotStateChange_kept {φ : Frame} {d : Nat} {m : Nat} {dc : Int} {s : State} (hm : Sub 0x20000008 φ.fx)
    (h1 : s.Kept φ) :
    OutKept φ (execPilotStateChange d m dc s) := by
  unfold execPilotStateChange
  try dsimp only
  (repeat' first
    | with_reducible assumption
    | with_reducible exact Sub.of hm (by decide)
    | with_reducible apply State.setFBit_kept
    | with_reducible apply State.modFc_kept
    | with_reducible apply State.syncValid_kept
    | with_reducible apply onLive_kept
    | with_reducible apply State.setShFld_kept
    | with_reducible apply State.pilotDc_kept
    | with_reducible apply kept_ite
    | with_reducible apply kept_foldl
    | with_reducible apply kept_foldl_fst
    | with_reducible apply outKept_next
    | with_reducible apply outKept_ite
    | simp only [kept_mk, true_or]
    | split
    | intro _)

theorem execPilotOscTimeout_kept {φ : Frame} {d : Nat} {m : Nat} {dc : Int} {s : State} (hm : Sub 0x8 φ.fx) (h1 :
    s.Kept φ) :
    OutKept φ (execPilotOscTimeout d m dc s) := by
  unfold execPilotOscTimeout
  try dsimp only
  (repeat' first
    | with_reducible assumption
    | with_reducible exact Sub.of hm (by decide)
    | with_reducible apply onLive_kept
    | with_reducible apply State.setShFld_kept
    | with_reducible apply State.pilotDc_kept
    | with_reducible apply kept_ite
    | with_reducible apply kept_foldl
    | with_reducible apply kept_foldl_fst
    | with_reducible apply outKept_next
    | with_reducible apply outKept_ite
    | simp only [kept_mk, true_or]
    | split
    | intro _)

theorem execDissipationEstimate_kept {φ : Frame} {d : Nat} {s : State} (hm : Sub 0x1c0000008 φ.fx) (h1 : s.Kept φ) :
    OutKept φ (execDissipationEstimate d s) := by
  unfold execDissipationEstimate
  try dsimp only
  (repeat' first
    | with_reducible assumption
    | with_reducible exact Sub.of hm (by decide)
    | with_reducible apply State.setShBit_kept
    | with_reducible apply State.setFd_kept
    | with_reducible apply onLive_kept
    | with_reducible apply State.setShFld_kept
    | with_reducible apply kept_ite
    | with_reducible apply kept_foldl
    | with_reducible apply kept_foldl_fst
    | with_reducible apply outKept_next
    | with_reducible apply outKept_ite
    | simp only [kept_mk, true_or]
    | split
    | intro _)

theorem State.flagAll_kept {φ : Frame} {s : State} {d : Nat} {f : Fld} {b : Bool} (hm : Sub 0x8 φ.fx) (h1 : s.Kept φ)
    :
    State.Kept φ (State.flagAll s d f b) := by
  unfold State.flagAll
  try dsimp only
  (repeat' first
    | with_reducible assumption
    | with_reducible exact Sub.of hm (by decide)
    | with_reducible apply State.setFBit_kept
    | with_reducible apply State.forEach_kept
    | with_reducible apply State.syncLines_kept
    | with_reducible apply kept_ite
    | with_reducible apply kept_foldl
    | with_reducible apply kept_foldl_fst
    | with_reducible apply outKept_next
    | with_reducible apply outKept_ite
    | simp only [kept_mk, true_or]
    | split
    | intro _)

theorem State.setVsup_kept {φ : Frame} {s : State} {d : Nat} {v : Int} (hm : Sub 0x8 φ.fx) (h1 : s.Kept φ) :
    State.Kept φ (State.setVsup s d v) := by
  unfold State.setVsup
  try dsimp only
  (repeat' first
    | with_reducible assumption
    | with_reducible exact Sub.of hm (by decide)
    | with_reducible apply State.setShFld_kept
    | with_reducible apply kept_ite
    | with_reducible apply kept_foldl
    | with_reducible apply kept_foldl_fst
    | with_reducible apply outKept_next
    | with_reducible apply outKept_ite
    | simp only [kept_mk, true_or]
    | split
    | intro _)

theorem State.fdSuspend_kept {φ : Frame} {s : State} {d : Nat} {b : Bool} (hm : Sub 0x8 φ.fx) (h1 : s.Kept φ) :
    State.Kept φ (State.fdSuspend s d b) := by
  unfold State.fdSuspend
  try dsimp only
  (repeat' first
    | with_reducible assumption
    | with_reducible exact Sub.of hm (by decide)
    | with_reducible apply State.setShBit_kept
    | with_reducible apply State.flagAll_kept
    | with_reducible apply kept_ite
    | with_reducible apply kept_foldl
    | with_reducible apply kept_foldl_fst
    | with_reducible apply outKept_next
    | with_reducible apply outKept_ite
    | simp only [kept_mk, true_or]
    | split
    | intro _)

theorem State.fdLow_kept {φ : Frame} {s : State} {d : Nat} {b : Bool} (hm : Sub 0x8 φ.fx) (h1 : s.Kept φ) :
    State.Kept φ (State.fdLow s d b) := by
  unfold State.fdLow
  try dsimp only
  (repeat' first
    | with_reducible assumption
    | with_reducible exact Sub.of hm (by decide)
    | with_reducible apply State.setShBit_kept
    | with_reducible apply State.flagAll_kept
    | with_reducible apply kept_ite
    | with_reducible apply kept_foldl
    | with_reducible apply kept_foldl_fst
    | with_reducible apply outKept_next
    | with_reducible apply outKept_ite
    | simp only [kept_mk, true_or]
    | split
    | intro _)

theorem execFieldSupplyWarning_kept {φ : Frame} {d : Nat} {v : Int} {resumed : Bool} {s : State} (hm : Sub 0x8 φ.fx)
    (h1 : s.Kept φ) :
    OutKept φ (execFieldSupplyWarning d v resumed s) := by
  unfold execFieldSupplyWarning
  try dsimp only
  (repeat' first
    | with_reducible assumption
    | with_reducible exact Sub.of hm (by decide)
    | with_reducible apply State.fdSuspend_kept
    | with_reducible apply State.fdLow_kept
    | with_reducible apply onLive_kept
    | with_reducible apply State.setVsup_kept
    | with_reducible apply kept_ite
    | with_reducible apply kept_foldl
    | with_reducible apply kept_foldl_fst
    | with_reducible apply outKept_next
    | with_reducible apply outKept_ite
    | simp only [kept_mk, true_or]
    | split
    | intro _)

theorem State.loseFi_kept {φ : Frame} {s : State} (hm : Sub 0x14000000020000308 φ.fx) (h1 : s.Kept φ) :
    State.Kept φ (State.loseFi s) := by
  unfold State.loseFi
  try dsimp only
  (repeat' first
    | with_reducible assumption
    | with_reducible exact Sub.of hm (by decide)
    | with_reducible apply State.setShBit_kept
    | with_reducible apply State.dropDie_kept
    | with_reducible apply State.fcDip_kept
    | with_reducible apply State.flagAll_kept
    | with_reducible apply State.forEach_kept
    | with_reducible apply State.syncLines_kept
    | with_reducible apply kept_ite
    | with_reducible apply kept_foldl
    | with_reducible apply kept_foldl_fst
    | with_reducible apply outKept_next
    | with_reducible apply outKept_ite
    | simp only [kept_mk, true_or]
    | split
    | intro _)

theorem execFieldHoldCrossing_kept {φ : Frame} {d : Nat} {v : Int} {s : State} (hm : Sub 0x14000000020000308 φ.fx) (h1
    : s.Kept φ) :
    OutKept φ (execFieldHoldCrossing d v s) := by
  unfold execFieldHoldCrossing
  try dsimp only
  (repeat' first
    | with_reducible assumption
    | with_reducible exact Sub.of hm (by decide)
    | with_reducible apply State.setShBit_kept
    | with_reducible apply State.fcDip_kept
    | with_reducible apply State.loseFi_kept
    | with_reducible apply onLive_kept
    | with_reducible apply State.forEach_kept
    | with_reducible apply State.setVsup_kept
    | with_reducible apply kept_ite
    | with_reducible apply kept_foldl
    | with_reducible apply kept_foldl_fst
    | with_reducible apply outKept_next
    | with_reducible apply outKept_ite
    | simp only [kept_mk, true_or]
    | split
    | intro _)

theorem execFieldRecovery_kept {φ : Frame} {d : Nat} {v : Int} {s : State} (hm : Sub 0x20000008 φ.fx) (h1 : s.Kept φ)
    :
    OutKept φ (execFieldRecovery d v s) := by
  unfold execFieldRecovery
  try dsimp only
  (repeat' first
    | with_reducible assumption
    | with_reducible exact Sub.of hm (by decide)
    | with_reducible apply State.setShBit_kept
    | with_reducible apply onLive_kept
    | with_reducible apply State.forEach_kept
    | with_reducible apply State.setVsup_kept
    | with_reducible apply State.fcRestore_kept
    | with_reducible apply kept_ite
    | with_reducible apply kept_foldl
    | with_reducible apply kept_foldl_fst
    | with_reducible apply outKept_next
    | with_reducible apply outKept_ite
    | simp only [kept_mk, true_or]
    | split
    | intro _)

theorem execSupplyLost_kept {φ : Frame} {s : State} (hm : Sub 0x14000000020000308 φ.fx) (h1 : s.Kept φ) :
    OutKept φ (execSupplyLost s) := by
  unfold execSupplyLost
  try dsimp only
  (repeat' first
    | with_reducible assumption
    | with_reducible exact Sub.of hm (by decide)
    | with_reducible apply State.loseFi_kept
    | with_reducible apply kept_ite
    | with_reducible apply kept_foldl
    | with_reducible apply kept_foldl_fst
    | with_reducible apply outKept_next
    | with_reducible apply outKept_ite
    | simp only [kept_mk, true_or]
    | split
    | intro _)

end Sys2Proof.Machine
end

