-- ==== Sys2Proof/Laws/KeptTide.lean ====
section
/-! SUPPORT. The operations of Tide.lean keep the invariant, the queue and the time. -/

namespace Sys2Proof.Machine

theorem State.setTide_kept {φ : Frame} {s : State} {l : Lane} {x : TideRt} (hm : Sub 0xc00000000 φ.fx) (h1 : s.Kept φ)
    :
    State.Kept φ (State.setTide s l x) := by
  unfold State.setTide
  try dsimp only
  (repeat' first
    | with_reducible assumption
    | with_reducible exact Sub.of hm (by decide)
    | with_reducible apply kept_ite
    | with_reducible apply kept_foldl
    | with_reducible apply kept_foldl_fst
    | with_reducible apply outKept_next
    | with_reducible apply outKept_ite
    | simp only [kept_mk, hm.bit 34 rfl, hm.bit 35 rfl, or_true, true_or]
    | split
    | intro _)

theorem State.modTide_kept {φ : Frame} {s : State} {l : Lane} {f : TideRt → TideRt} (hm : Sub 0xc00000000 φ.fx) (h1 :
    s.Kept φ) :
    State.Kept φ (State.modTide s l f) := by
  unfold State.modTide
  try dsimp only
  (repeat' first
    | with_reducible assumption
    | with_reducible exact Sub.of hm (by decide)
    | with_reducible apply State.setTide_kept
    | with_reducible apply kept_ite
    | with_reducible apply kept_foldl
    | with_reducible apply kept_foldl_fst
    | with_reducible apply outKept_next
    | with_reducible apply outKept_ite
    | simp only [kept_mk, true_or]
    | split
    | intro _)

theorem State.setTBit_kept {φ : Frame} {s : State} {l : Lane} {f : Fld} {b : Bool} (hm : Sub 0x8 φ.fx) (h1 : s.Kept φ)
    :
    State.Kept φ (State.setTBit s l f b) := by
  unfold State.setTBit
  try dsimp only
  (repeat' first
    | with_reducible assumption
    | with_reducible exact Sub.of hm (by decide)
    | with_reducible apply State.setBitF_kept
    | with_reducible apply kept_ite
    | with_reducible apply kept_foldl
    | with_reducible apply kept_foldl_fst
    | with_reducible apply outKept_next
    | with_reducible apply outKept_ite
    | simp only [kept_mk, true_or]
    | split
    | intro _)

theorem State.beginFollow_kept {φ : Frame} {s : State} {l : Lane} (hm : Sub 0xc00000008 φ.fx) (h1 : s.Kept φ) :
    State.Kept φ (State.beginFollow s l) := by
  unfold State.beginFollow
  try dsimp only
  (repeat' first
    | with_reducible assumption
    | with_reducible exact Sub.of hm (by decide)
    | with_reducible apply State.setFld_kept
    | with_reducible apply State.modTide_kept
    | with_reducible apply State.setTBit_kept
    | with_reducible apply kept_ite
    | with_reducible apply kept_foldl
    | with_reducible apply kept_foldl_fst
    | with_reducible apply outKept_next
    | with_reducible apply outKept_ite
    | simp only [kept_mk, true_or]
    | split
    | intro _)

theorem State.trackRate_kept {φ : Frame} {s : State} {l : Lane} (hm : Sub 0xc00000000 φ.fx) (h1 : s.Kept φ) :
    State.Kept φ (State.trackRate s l) := by
  unfold State.trackRate
  try dsimp only
  (repeat' first
    | with_reducible assumption
    | with_reducible exact Sub.of hm (by decide)
    | with_reducible apply State.modTide_kept
    | with_reducible apply kept_ite
    | with_reducible apply kept_foldl
    | with_reducible apply kept_foldl_fst
    | with_reducible apply outKept_next
    | with_reducible apply outKept_ite
    | simp only [kept_mk, true_or]
    | split
    | intro _)

theorem State.sourceLoss_kept {φ : Frame} {s : State} {l : Lane} (hm : Sub 0x8 φ.fx) (h1 : s.Kept φ) :
    State.Kept φ (State.sourceLoss s l) := by
  unfold State.sourceLoss
  try dsimp only
  (repeat' first
    | with_reducible assumption
    | with_reducible exact Sub.of hm (by decide)
    | with_reducible apply State.count_kept
    | with_reducible apply State.setTBit_kept
    | with_reducible apply kept_ite
    | with_reducible apply kept_foldl
    | with_reducible apply kept_foldl_fst
    | with_reducible apply outKept_next
    | with_reducible apply outKept_ite
    | simp only [kept_mk, true_or]
    | split
    | intro _)

theorem State.restartSource_kept {φ : Frame} {s : State} {l : Lane} (hm : Sub 0xc00000008 φ.fx) (h1 : s.Kept φ) :
    State.Kept φ (State.restartSource s l) := by
  unfold State.restartSource
  try dsimp only
  (repeat' first
    | with_reducible assumption
    | with_reducible exact Sub.of hm (by decide)
    | with_reducible apply State.setReg_kept
    | with_reducible apply State.modTide_kept
    | with_reducible apply State.beginFollow_kept
    | with_reducible apply kept_ite
    | with_reducible apply kept_foldl
    | with_reducible apply kept_foldl_fst
    | with_reducible apply outKept_next
    | with_reducible apply outKept_ite
    | simp only [kept_mk, true_or]
    | split
    | intro _)

theorem State.tideBecomeActive_kept {φ : Frame} {s : State} {l : Lane} (hm : Sub 0xc00000008 φ.fx) (h1 : s.Kept φ) :
    State.Kept φ (State.tideBecomeActive s l) := by
  unfold State.tideBecomeActive
  try dsimp only
  (repeat' first
    | with_reducible assumption
    | with_reducible exact Sub.of hm (by decide)
    | with_reducible apply State.setFld_kept
    | with_reducible apply State.setTBit_kept
    | with_reducible apply State.beginFollow_kept
    | with_reducible apply kept_ite
    | with_reducible apply kept_foldl
    | with_reducible apply kept_foldl_fst
    | with_reducible apply outKept_next
    | with_reducible apply outKept_ite
    | simp only [kept_mk, true_or]
    | split
    | intro _)

theorem State.tideBecomeStandby_kept {φ : Frame} {s : State} {l : Lane} {load : Bool} (hm : Sub 0xc00000008 φ.fx) (h1
    : s.Kept φ) :
    State.Kept φ (State.tideBecomeStandby s l load) := by
  unfold State.tideBecomeStandby
  try dsimp only
  (repeat' first
    | with_reducible assumption
    | with_reducible exact Sub.of hm (by decide)
    | with_reducible apply State.modTide_kept
    | with_reducible apply State.setTBit_kept
    | with_reducible apply kept_ite
    | with_reducible apply kept_foldl
    | with_reducible apply kept_foldl_fst
    | with_reducible apply outKept_next
    | with_reducible apply outKept_ite
    | simp only [kept_mk, true_or]
    | split
    | intro _)

theorem State.tevRestart_kept {φ : Frame} {s : State} {l : Lane} {ws : List RegCell} (hm : Sub 0x8 φ.fx) (h1 : s.Kept
    φ) :
    State.Kept φ (State.tevRestart s l ws) := by
  unfold State.tevRestart
  try dsimp only
  (repeat' first
    | with_reducible assumption
    | with_reducible exact Sub.of hm (by decide)
    | with_reducible apply State.setReg_kept
    | with_reducible apply State.forEach_kept
    | with_reducible apply kept_ite
    | with_reducible apply kept_foldl
    | with_reducible apply kept_foldl_fst
    | with_reducible apply outKept_next
    | with_reducible apply outKept_ite
    | simp only [kept_mk, true_or]
    | split
    | intro _)

theorem State.mpllBegin_kept {φ : Frame} {s : State} {l : Lane} (hm : Sub 0xc00000000 φ.fx) (h1 : s.Kept φ) :
    State.Kept φ (State.mpllBegin s l) := by
  unfold State.mpllBegin
  try dsimp only
  (repeat' first
    | with_reducible assumption
    | with_reducible exact Sub.of hm (by decide)
    | with_reducible apply State.modTide_kept
    | with_reducible apply kept_ite
    | with_reducible apply kept_foldl
    | with_reducible apply kept_foldl_fst
    | with_reducible apply outKept_next
    | with_reducible apply outKept_ite
    | simp only [kept_mk, true_or]
    | split
    | intro _)

theorem State.mpllEnd_kept {φ : Frame} {before : State} {s : State} {l : Lane} (hm : Sub 0x8 φ.fx) (h1 : before.Kept
    φ) (h2 : s.Kept φ) :
    State.Kept φ (State.mpllEnd before s l) := by
  unfold State.mpllEnd
  try dsimp only
  (repeat' first
    | with_reducible assumption
    | with_reducible exact Sub.of hm (by decide)
    | with_reducible apply State.setReg_kept
    | with_reducible apply State.sourceLoss_kept
    | with_reducible apply kept_ite
    | with_reducible apply kept_foldl
    | with_reducible apply kept_foldl_fst
    | with_reducible apply outKept_next
    | with_reducible apply outKept_ite
    | simp only [kept_mk, true_or]
    | split
    | intro _)

theorem State.sourceAfter_kept {φ : Frame} {before : State} {s : State} {l : Lane} (hm : Sub 0xc00000008 φ.fx) (h1 :
    before.Kept φ) (h2 : s.Kept φ) :
    State.Kept φ (State.sourceAfter before s l) := by
  unfold State.sourceAfter
  try dsimp only
  (repeat' first
    | with_reducible assumption
    | with_reducible exact Sub.of hm (by decide)
    | with_reducible apply State.trackRate_kept
    | with_reducible apply State.restartSource_kept
    | with_reducible apply State.modTide_kept
    | with_reducible apply State.beginFollow_kept
    | with_reducible apply kept_ite
    | with_reducible apply kept_foldl
    | with_reducible apply kept_foldl_fst
    | with_reducible apply outKept_next
    | with_reducible apply outKept_ite
    | simp only [kept_mk, true_or]
    | split
    | intro _)

theorem State.afterTideCommit_kept {φ : Frame} {before : State} {s : State} {l : Lane} {ws : List RegCell} (hm : Sub
    0xc00000008 φ.fx) (h1 : before.Kept φ) (h2 : s.Kept φ) :
    State.Kept φ (State.afterTideCommit before s l ws) := by
  unfold State.afterTideCommit
  try dsimp only
  (repeat' first
    | with_reducible assumption
    | with_reducible exact Sub.of hm (by decide)
    | with_reducible apply State.tevRestart_kept
    | with_reducible apply State.setBitF_kept
    | with_reducible apply State.mpllBegin_kept
    | with_reducible apply State.modTide_kept
    | with_reducible apply State.mpllEnd_kept
    | with_reducible apply State.sourceAfter_kept
    | with_reducible apply kept_ite
    | with_reducible apply kept_foldl
    | with_reducible apply kept_foldl_fst
    | with_reducible apply outKept_next
    | with_reducible apply outKept_ite
    | simp only [kept_mk, true_or]
    | split
    | intro _)

theorem State.syncTidePend_kept {φ : Frame} {s : State} {l : Lane} (hm : Sub 0x8 φ.fx) (h1 : s.Kept φ) :
    State.Kept φ (State.syncTidePend s l) := by
  unfold State.syncTidePend
  try dsimp only
  (repeat' first
    | with_reducible assumption
    | with_reducible exact Sub.of hm (by decide)
    | with_reducible apply State.setTBit_kept
    | with_reducible apply kept_ite
    | with_reducible apply kept_foldl
    | with_reducible apply kept_foldl_fst
    | with_reducible apply outKept_next
    | with_reducible apply outKept_ite
    | simp only [kept_mk, true_or]
    | split
    | intro _)

theorem State.applyTide_kept {φ : Frame} {s : State} {l : Lane} {region : Nat} (hm : Sub 0x17efdce0fafc007a075c φ.fx)
    (h1 : s.Kept φ) :
    State.Kept φ (State.applyTide s l region) := by
  unfold State.applyTide
  try dsimp only
  (repeat' first
    | with_reducible assumption
    | with_reducible exact Sub.of hm (by decide)
    | with_reducible apply State.dropCommit_kept
    | with_reducible apply State.syncTidePend_kept
    | with_reducible apply State.afterTideCommit_kept
    | with_reducible apply State.policy_kept
    | with_reducible apply State.applyCommit_kept
    | with_reducible apply kept_ite
    | with_reducible apply kept_foldl
    | with_reducible apply kept_foldl_fst
    | with_reducible apply outKept_next
    | with_reducible apply outKept_ite
    | simp only [kept_mk, true_or]
    | split
    | intro _)

theorem State.commitTide_kept {φ : Frame} {s : State} {l : Lane} {ws : List RegCell} {lsns : List Nat} (hm : Sub 0x608
    φ.fx) (h1 : s.Kept φ) :
    State.Kept φ (State.commitTide s l ws lsns) := by
  unfold State.commitTide
  try dsimp only
  (repeat' first
    | with_reducible assumption
    | with_reducible exact Sub.of hm (by decide)
    | with_reducible apply State.syncTidePend_kept
    | with_reducible apply State.addCommit_kept
    | with_reducible apply kept_ite
    | with_reducible apply kept_foldl
    | with_reducible apply kept_foldl_fst
    | with_reducible apply outKept_next
    | with_reducible apply outKept_ite
    | simp only [kept_mk, true_or]
    | split
    | intro _)

theorem State.commitTideCmd_kept {φ : Frame} {s : State} {r : Req} {ws : List RegCell} {lsn : Nat} (hm : Sub 0x608
    φ.fx) (h1 : s.Kept φ) :
    State.Kept φ (State.commitTideCmd s r ws lsn) := by
  unfold State.commitTideCmd
  try dsimp only
  (repeat' first
    | with_reducible assumption
    | with_reducible exact Sub.of hm (by decide)
    | with_reducible apply State.commitTide_kept
    | with_reducible apply State.writeShadows_kept
    | with_reducible apply kept_ite
    | with_reducible apply kept_foldl
    | with_reducible apply kept_foldl_fst
    | with_reducible apply outKept_next
    | with_reducible apply outKept_ite
    | simp only [kept_mk, true_or]
    | split
    | intro _)

theorem State.evFired_kept {φ : Frame} {s : State} {l : Lane} {i : Nat} (hm : Sub 0x8 φ.fx) (h1 : s.Kept φ) :
    State.Kept φ (State.evFired s l i) := by
  unfold State.evFired
  try dsimp only
  (repeat' first
    | with_reducible assumption
    | with_reducible exact Sub.of hm (by decide)
    | with_reducible apply State.setBitF_kept
    | with_reducible apply State.countFld_kept
    | with_reducible apply State.count_kept
    | with_reducible apply kept_ite
    | with_reducible apply kept_foldl
    | with_reducible apply kept_foldl_fst
    | with_reducible apply outKept_next
    | with_reducible apply outKept_ite
    | simp only [kept_mk, true_or]
    | split
    | intro _)

theorem State.tideBoundary_kept {φ : Frame} {s : State} {l : Lane} (hm : Sub 0x17efdce0fafc007a075c φ.fx) (h1 : s.Kept
    φ) :
    State.Kept φ (State.tideBoundary s l) := by
  unfold State.tideBoundary
  try dsimp only
  (repeat' first
    | with_reducible assumption
    | with_reducible exact Sub.of hm (by decide)
    | with_reducible apply State.countFld_kept
    | with_reducible apply State.applyTide_kept
    | with_reducible apply State.count_kept
    | with_reducible apply State.modTide_kept
    | with_reducible apply kept_ite
    | with_reducible apply kept_foldl
    | with_reducible apply kept_foldl_fst
    | with_reducible apply outKept_next
    | with_reducible apply outKept_ite
    | simp only [kept_mk, true_or]
    | split
    | intro _)

theorem State.tideArms_kept {φ : Frame} {s : State} (hm : Sub 0x14000001000000108 φ.fx) (h1 : s.Kept φ) :
    State.Kept φ (State.tideArms s) := by
  unfold State.tideArms
  try dsimp only
  (repeat' first
    | with_reducible assumption
    | with_reducible exact Sub.of hm (by decide)
    | with_reducible apply State.setBitF_kept
    | with_reducible apply State.done_kept
    | with_reducible apply State.forEach_kept
    | with_reducible apply kept_ite
    | with_reducible apply kept_foldl
    | with_reducible apply kept_foldl_fst
    | with_reducible apply outKept_next
    | with_reducible apply outKept_ite
    | simp only [kept_mk, hm.bit 36 rfl, or_true, true_or]
    | split
    | intro _)

theorem State.sealEvent_kept {φ : Frame} {s : State} {l : Lane} {i : Nat} (hm : Sub 0x2000000008 φ.fx) (h1 : s.Kept φ)
    :
    State.Kept φ (State.sealEvent s l i) := by
  unfold State.sealEvent
  try dsimp only
  (repeat' first
    | with_reducible assumption
    | with_reducible exact Sub.of hm (by decide)
    | with_reducible apply State.evFired_kept
    | with_reducible apply State.writeShadow_kept
    | with_reducible apply State.count_kept
    | with_reducible apply State.setTBit_kept
    | with_reducible apply kept_ite
    | with_reducible apply kept_foldl
    | with_reducible apply kept_foldl_fst
    | with_reducible apply outKept_next
    | with_reducible apply outKept_ite
    | simp only [kept_mk, hm.bit 37 rfl, or_true, true_or]
    | split
    | intro _)

theorem State.sealEvents_kept {φ : Frame} {s : State} (hm : Sub 0x2000000008 φ.fx) (h1 : s.Kept φ) :
    State.Kept φ (State.sealEvents s) := by
  unfold State.sealEvents
  try dsimp only
  (repeat' first
    | with_reducible assumption
    | with_reducible exact Sub.of hm (by decide)
    | with_reducible apply State.sealEvent_kept
    | with_reducible apply State.evFired_kept
    | with_reducible apply State.forEach_kept
    | with_reducible apply kept_ite
    | with_reducible apply kept_foldl
    | with_reducible apply kept_foldl_fst
    | with_reducible apply outKept_next
    | with_reducible apply outKept_ite
    | simp only [kept_mk, hm.bit 37 rfl, or_true, true_or]
    | split
    | intro _)

theorem specTideStatus_kept {φ : Frame}   :
    CmdSpec.Kept φ (specTideStatus ) := by
  refine ⟨?_, ?_, ?_, ?_⟩ <;> intros <;> dsimp only [specTideStatus] <;>
  (repeat' first
    | with_reducible assumption
    | with_reducible apply kept_ite
    | with_reducible apply kept_foldl
    | with_reducible apply kept_foldl_fst
    | with_reducible apply outKept_next
    | with_reducible apply outKept_ite
    | simp only [kept_mk, true_or]
    | split
    | intro _)

theorem specTideSource_kept {φ : Frame}  (hm : Sub 0x608 φ.fx)  :
    CmdSpec.Kept φ (specTideSource ) := by
  refine ⟨?_, ?_, ?_, ?_⟩ <;> intros <;> dsimp only [specTideSource] <;>
  (repeat' first
    | with_reducible assumption
    | with_reducible exact Sub.of hm (by decide)
    | with_reducible apply State.commitTideCmd_kept
    | with_reducible apply kept_ite
    | with_reducible apply kept_foldl
    | with_reducible apply kept_foldl_fst
    | with_reducible apply outKept_next
    | with_reducible apply outKept_ite
    | simp only [kept_mk, true_or]
    | split
    | intro _)

theorem specTideMains_kept {φ : Frame}  (hm : Sub 0x608 φ.fx)  :
    CmdSpec.Kept φ (specTideMains ) := by
  refine ⟨?_, ?_, ?_, ?_⟩ <;> intros <;> dsimp only [specTideMains] <;>
  (repeat' first
    | with_reducible assumption
    | with_reducible exact Sub.of hm (by decide)
    | with_reducible apply State.commitTideCmd_kept
    | with_reducible apply kept_ite
    | with_reducible apply kept_foldl
    | with_reducible apply kept_foldl_fst
    | with_reducible apply outKept_next
    | with_reducible apply outKept_ite
    | simp only [kept_mk, true_or]
    | split
    | intro _)

theorem specTideExt_kept {φ : Frame}  (hm : Sub 0x608 φ.fx)  :
    CmdSpec.Kept φ (specTideExt ) := by
  refine ⟨?_, ?_, ?_, ?_⟩ <;> intros <;> dsimp only [specTideExt] <;>
  (repeat' first
    | with_reducible assumption
    | with_reducible exact Sub.of hm (by decide)
    | with_reducible apply State.commitTideCmd_kept
    | with_reducible apply kept_ite
    | with_reducible apply kept_foldl
    | with_reducible apply kept_foldl_fst
    | with_reducible apply outKept_next
    | with_reducible apply outKept_ite
    | simp only [kept_mk, true_or]
    | split
    | intro _)

theorem specTideTurn_kept {φ : Frame}  (hm : Sub 0x608 φ.fx)  :
    CmdSpec.Kept φ (specTideTurn ) := by
  refine ⟨?_, ?_, ?_, ?_⟩ <;> intros <;> dsimp only [specTideTurn] <;>
  (repeat' first
    | with_reducible assumption
    | with_reducible exact Sub.of hm (by decide)
    | with_reducible apply State.commitTideCmd_kept
    | with_reducible apply kept_ite
    | with_reducible apply kept_foldl
    | with_reducible apply kept_foldl_fst
    | with_reducible apply outKept_next
    | with_reducible apply outKept_ite
    | simp only [kept_mk, true_or]
    | split
    | intro _)

theorem specTevSet_kept {φ : Frame}  (hm : Sub 0x608 φ.fx)  :
    CmdSpec.Kept φ (specTevSet ) := by
  refine ⟨?_, ?_, ?_, ?_⟩ <;> intros <;> dsimp only [specTevSet] <;>
  (repeat' first
    | with_reducible assumption
    | with_reducible exact Sub.of hm (by decide)
    | with_reducible apply State.commitTideCmd_kept
    | with_reducible apply kept_ite
    | with_reducible apply kept_foldl
    | with_reducible apply kept_foldl_fst
    | with_reducible apply outKept_next
    | with_reducible apply outKept_ite
    | simp only [kept_mk, true_or]
    | split
    | intro _)

theorem specTevClear_kept {φ : Frame}  (hm : Sub 0x608 φ.fx)  :
    CmdSpec.Kept φ (specTevClear ) := by
  refine ⟨?_, ?_, ?_, ?_⟩ <;> intros <;> dsimp only [specTevClear] <;>
  (repeat' first
    | with_reducible assumption
    | with_reducible exact Sub.of hm (by decide)
    | with_reducible apply State.commitTideCmd_kept
    | with_reducible apply kept_ite
    | with_reducible apply kept_foldl
    | with_reducible apply kept_foldl_fst
    | with_reducible apply outKept_next
    | with_reducible apply outKept_ite
    | simp only [kept_mk, true_or]
    | split
    | intro _)

theorem specTevArm_kept {φ : Frame}  (hm : Sub 0x1000000000 φ.fx)  :
    CmdSpec.Kept φ (specTevArm ) := by
  refine ⟨?_, ?_, ?_, ?_⟩ <;> intros <;> dsimp only [specTevArm] <;>
  (repeat' first
    | with_reducible assumption
    | with_reducible exact Sub.of hm (by decide)
    | with_reducible apply kept_ite
    | with_reducible apply kept_foldl
    | with_reducible apply kept_foldl_fst
    | with_reducible apply outKept_next
    | with_reducible apply outKept_ite
    | simp only [kept_mk, hm.bit 36 rfl, or_true, true_or]
    | split
    | intro _)

theorem specTevRead_kept {φ : Frame}   :
    CmdSpec.Kept φ (specTevRead ) := by
  refine ⟨?_, ?_, ?_, ?_⟩ <;> intros <;> dsimp only [specTevRead] <;>
  (repeat' first
    | with_reducible assumption
    | with_reducible apply kept_ite
    | with_reducible apply kept_foldl
    | with_reducible apply kept_foldl_fst
    | with_reducible apply outKept_next
    | with_reducible apply outKept_ite
    | simp only [kept_mk, true_or]
    | split
    | intro _)

theorem execTideStatus_kept {φ : Frame} {r : Req} {s : State} (hm : Sub 0x17efdce0fafc007a03dc φ.fx) (h1 : s.Kept φ) :
    OutKept φ (execTideStatus r s) := by
  unfold execTideStatus
  try dsimp only
  (repeat' first
    | with_reducible assumption
    | with_reducible exact Sub.of hm (by decide)
    | with_reducible apply runScs_kept
    | with_reducible apply specTideStatus_kept
    | with_reducible apply kept_ite
    | with_reducible apply kept_foldl
    | with_reducible apply kept_foldl_fst
    | with_reducible apply outKept_next
    | with_reducible apply outKept_ite
    | simp only [kept_mk, true_or]
    | split
    | intro _)

theorem execTideSource_kept {φ : Frame} {r : Req} {s : State} (hm : Sub 0x17efdce0fafc007a07dc φ.fx) (h1 : s.Kept φ) :
    OutKept φ (execTideSource r s) := by
  unfold execTideSource
  try dsimp only
  (repeat' first
    | with_reducible assumption
    | with_reducible exact Sub.of hm (by decide)
    | with_reducible apply specTideSource_kept
    | with_reducible apply runScs_kept
    | with_reducible apply kept_ite
    | with_reducible apply kept_foldl
    | with_reducible apply kept_foldl_fst
    | with_reducible apply outKept_next
    | with_reducible apply outKept_ite
    | simp only [kept_mk, true_or]
    | split
    | intro _)

theorem execTideMains_kept {φ : Frame} {r : Req} {s : State} (hm : Sub 0x17efdce0fafc007a07dc φ.fx) (h1 : s.Kept φ) :
    OutKept φ (execTideMains r s) := by
  unfold execTideMains
  try dsimp only
  (repeat' first
    | with_reducible assumption
    | with_reducible exact Sub.of hm (by decide)
    | with_reducible apply specTideMains_kept
    | with_reducible apply runScs_kept
    | with_reducible apply kept_ite
    | with_reducible apply kept_foldl
    | with_reducible apply kept_foldl_fst
    | with_reducible apply outKept_next
    | with_reducible apply outKept_ite
    | simp only [kept_mk, true_or]
    | split
    | intro _)

theorem execTideExt_kept {φ : Frame} {r : Req} {s : State} (hm : Sub 0x17efdce0fafc007a07dc φ.fx) (h1 : s.Kept φ) :
    OutKept φ (execTideExt r s) := by
  unfold execTideExt
  try dsimp only
  (repeat' first
    | with_reducible assumption
    | with_reducible exact Sub.of hm (by decide)
    | with_reducible apply runScs_kept
    | with_reducible apply specTideExt_kept
    | with_reducible apply kept_ite
    | with_reducible apply kept_foldl
    | with_reducible apply kept_foldl_fst
    | with_reducible apply outKept_next
    | with_reducible apply outKept_ite
    | simp only [kept_mk, true_or]
    | split
    | intro _)

theorem execTideTurn_kept {φ : Frame} {r : Req} {s : State} (hm : Sub 0x17efdce0fafc007a07dc φ.fx) (h1 : s.Kept φ) :
    OutKept φ (execTideTurn r s) := by
  unfold execTideTurn
  try dsimp only
  (repeat' first
    | with_reducible assumption
    | with_reducible exact Sub.of hm (by decide)
    | with_reducible apply specTideTurn_kept
    | with_reducible apply runScs_kept
    | with_reducible apply kept_ite
    | with_reducible apply kept_foldl
    | with_reducible apply kept_foldl_fst
    | with_reducible apply outKept_next
    | with_reducible apply outKept_ite
    | simp only [kept_mk, true_or]
    | split
    | intro _)

theorem execTevSet_kept {φ : Frame} {r : Req} {s : State} (hm : Sub 0x17efdce0fafc007a07dc φ.fx) (h1 : s.Kept φ) :
    OutKept φ (execTevSet r s) := by
  unfold execTevSet
  try dsimp only
  (repeat' first
    | with_reducible assumption
    | with_reducible exact Sub.of hm (by decide)
    | with_reducible apply specTevSet_kept
    | with_reducible apply runScs_kept
    | with_reducible apply kept_ite
    | with_reducible apply kept_foldl
    | with_reducible apply kept_foldl_fst
    | with_reducible apply outKept_next
    | with_reducible apply outKept_ite
    | simp only [kept_mk, true_or]
    | split
    | intro _)

theorem execTevClear_kept {φ : Frame} {r : Req} {s : State} (hm : Sub 0x17efdce0fafc007a07dc φ.fx) (h1 : s.Kept φ) :
    OutKept φ (execTevClear r s) := by
  unfold execTevClear
  try dsimp only
  (repeat' first
    | with_reducible assumption
    | with_reducible exact Sub.of hm (by decide)
    | with_reducible apply specTevClear_kept
    | with_reducible apply runScs_kept
    | with_reducible apply kept_ite
    | with_reducible apply kept_foldl
    | with_reducible apply kept_foldl_fst
    | with_reducible apply outKept_next
    | with_reducible apply outKept_ite
    | simp only [kept_mk, true_or]
    | split
    | intro _)

theorem execTevArm_kept {φ : Frame} {r : Req} {s : State} (hm : Sub 0x17efdce0fafc007a03dc φ.fx) (h1 : s.Kept φ) :
    OutKept φ (execTevArm r s) := by
  unfold execTevArm
  try dsimp only
  (repeat' first
    | with_reducible assumption
    | with_reducible exact Sub.of hm (by decide)
    | with_reducible apply specTevArm_kept
    | with_reducible apply runScs_kept
    | with_reducible apply kept_ite
    | with_reducible apply kept_foldl
    | with_reducible apply kept_foldl_fst
    | with_reducible apply outKept_next
    | with_reducible apply outKept_ite
    | simp only [kept_mk, true_or]
    | split
    | intro _)

theorem execTevRead_kept {φ : Frame} {r : Req} {s : State} (hm : Sub 0x17efdce0fafc007a03dc φ.fx) (h1 : s.Kept φ) :
    OutKept φ (execTevRead r s) := by
  unfold execTevRead
  try dsimp only
  (repeat' first
    | with_reducible assumption
    | with_reducible exact Sub.of hm (by decide)
    | with_reducible apply specTevRead_kept
    | with_reducible apply runScs_kept
    | with_reducible apply kept_ite
    | with_reducible apply kept_foldl
    | with_reducible apply kept_foldl_fst
    | with_reducible apply outKept_next
    | with_reducible apply outKept_ite
    | simp only [kept_mk, true_or]
    | split
    | intro _)

end Sys2Proof.Machine
end

