-- ==== Sys2Proof/Laws/KeptTideEvents.lean ====
section
/-! SUPPORT. The operations of TideEvents.lean keep the invariant, the queue and the time. -/

namespace Sys2Proof.Machine

theorem execTidePhaseRead_kept {φ : Frame} {l : Lane} {s : State} (hm : Sub 0x28 φ.fx) (h1 : s.Kept φ) :
    OutKept φ (execTidePhaseRead l s) := by
  unfold execTidePhaseRead
  try dsimp only
  (repeat' first
    | with_reducible assumption
    | with_reducible exact Sub.of hm (by decide)
    | with_reducible apply State.setReg_kept
    | with_reducible apply State.busOk_kept
    | with_reducible apply kept_ite
    | with_reducible apply kept_foldl
    | with_reducible apply kept_foldl_fst
    | with_reducible apply outKept_next
    | with_reducible apply outKept_ite
    | simp only [kept_mk, true_or]
    | split
    | intro _)

theorem State.turnStart_kept {φ : Frame} {s : State} {l : Lane} (hm : Sub 0x17efdce0fafc007a075c φ.fx) (h1 : s.Kept φ)
    :
    State.Kept φ (State.turnStart s l) := by
  unfold State.turnStart
  try dsimp only
  (repeat' first
    | with_reducible assumption
    | with_reducible exact Sub.of hm (by decide)
    | with_reducible apply State.applyTide_kept
    | with_reducible apply State.setTide_kept
    | with_reducible apply State.modTide_kept
    | with_reducible apply kept_ite
    | with_reducible apply kept_foldl
    | with_reducible apply kept_foldl_fst
    | with_reducible apply outKept_next
    | with_reducible apply outKept_ite
    | simp only [kept_mk, true_or]
    | split
    | intro _)

theorem execTurnStart_kept {φ : Frame} {l : Lane} {s : State} (hm : Sub 0x17efdce0fafc007a075c φ.fx) (h1 : s.Kept φ) :
    OutKept φ (execTurnStart l s) := by
  unfold execTurnStart
  try dsimp only
  (repeat' first
    | with_reducible assumption
    | with_reducible exact Sub.of hm (by decide)
    | with_reducible apply State.turnStart_kept
    | with_reducible apply kept_ite
    | with_reducible apply kept_foldl
    | with_reducible apply kept_foldl_fst
    | with_reducible apply outKept_next
    | with_reducible apply outKept_ite
    | simp only [kept_mk, true_or]
    | split
    | intro _)

theorem State.mpllUpdate_kept {φ : Frame} {s : State} {l : Lane} {va : Int} {vb : Int} {vc : Int} (hm : Sub
    0xc0000000c φ.fx) (h1 : s.Kept φ) :
    State.Kept φ (State.mpllUpdate s l va vb vc) := by
  unfold State.mpllUpdate
  try dsimp only
  (repeat' first
    | with_reducible assumption
    | with_reducible exact Sub.of hm (by decide)
    | with_reducible apply State.setFld_kept
    | with_reducible apply State.setBitF_kept
    | with_reducible apply State.trackRate_kept
    | with_reducible apply State.tickFree_kept
    | with_reducible apply State.modTide_kept
    | with_reducible apply State.beginFollow_kept
    | with_reducible apply kept_ite
    | with_reducible apply kept_foldl
    | with_reducible apply kept_foldl_fst
    | with_reducible apply outKept_next
    | with_reducible apply outKept_ite
    | simp only [kept_mk, true_or]
    | split
    | intro _)

theorem execMpllUpdate_kept {φ : Frame} {l : Lane} {va : Int} {vb : Int} {vc : Int} {s : State} (hm : Sub 0xc0000000c
    φ.fx) (h1 : s.Kept φ) :
    OutKept φ (execMpllUpdate l va vb vc s) := by
  unfold execMpllUpdate
  try dsimp only
  (repeat' first
    | with_reducible assumption
    | with_reducible exact Sub.of hm (by decide)
    | with_reducible apply State.mpllUpdate_kept
    | with_reducible apply kept_ite
    | with_reducible apply kept_foldl
    | with_reducible apply kept_foldl_fst
    | with_reducible apply outKept_next
    | with_reducible apply outKept_ite
    | simp only [kept_mk, true_or]
    | split
    | intro _)

theorem State.mainsLost_kept {φ : Frame} {s : State} {l : Lane} (hm : Sub 0xc00000008 φ.fx) (h1 : s.Kept φ) :
    State.Kept φ (State.mainsLost s l) := by
  unfold State.mainsLost
  try dsimp only
  (repeat' first
    | with_reducible assumption
    | with_reducible exact Sub.of hm (by decide)
    | with_reducible apply State.setBitF_kept
    | with_reducible apply State.sourceLoss_kept
    | with_reducible apply State.modTide_kept
    | with_reducible apply kept_ite
    | with_reducible apply kept_foldl
    | with_reducible apply kept_foldl_fst
    | with_reducible apply outKept_next
    | with_reducible apply outKept_ite
    | simp only [kept_mk, true_or]
    | split
    | intro _)

theorem execMainsLost_kept {φ : Frame} {l : Lane} {s : State} (hm : Sub 0xc00000008 φ.fx) (h1 : s.Kept φ) :
    OutKept φ (execMainsLost l s) := by
  unfold execMainsLost
  try dsimp only
  (repeat' first
    | with_reducible assumption
    | with_reducible exact Sub.of hm (by decide)
    | with_reducible apply State.mainsLost_kept
    | with_reducible apply kept_ite
    | with_reducible apply kept_foldl
    | with_reducible apply kept_foldl_fst
    | with_reducible apply outKept_next
    | with_reducible apply outKept_ite
    | simp only [kept_mk, true_or]
    | split
    | intro _)

theorem State.extLost_kept {φ : Frame} {s : State} {l : Lane} (hm : Sub 0xc00000008 φ.fx) (h1 : s.Kept φ) :
    State.Kept φ (State.extLost s l) := by
  unfold State.extLost
  try dsimp only
  (repeat' first
    | with_reducible assumption
    | with_reducible exact Sub.of hm (by decide)
    | with_reducible apply State.setBitF_kept
    | with_reducible apply State.sourceLoss_kept
    | with_reducible apply State.modTide_kept
    | with_reducible apply kept_ite
    | with_reducible apply kept_foldl
    | with_reducible apply kept_foldl_fst
    | with_reducible apply outKept_next
    | with_reducible apply outKept_ite
    | simp only [kept_mk, true_or]
    | split
    | intro _)

theorem State.extPulse_kept {φ : Frame} {s : State} {l : Lane} {t : Nat} (hm : Sub 0xc00000008 φ.fx) (h1 : s.Kept φ) :
    State.Kept φ (State.extPulse s l t) := by
  unfold State.extPulse
  try dsimp only
  (repeat' first
    | with_reducible assumption
    | with_reducible exact Sub.of hm (by decide)
    | with_reducible apply State.extLost_kept
    | with_reducible apply State.setBitF_kept
    | with_reducible apply State.trackRate_kept
    | with_reducible apply State.modTide_kept
    | with_reducible apply State.beginFollow_kept
    | with_reducible apply kept_ite
    | with_reducible apply kept_foldl
    | with_reducible apply kept_foldl_fst
    | with_reducible apply outKept_next
    | with_reducible apply outKept_ite
    | simp only [kept_mk, true_or]
    | split
    | intro _)

theorem State.extIndex_kept {φ : Frame} {s : State} {l : Lane} (hm : Sub 0xc00000008 φ.fx) (h1 : s.Kept φ) :
    State.Kept φ (State.extIndex s l) := by
  unfold State.extIndex
  try dsimp only
  (repeat' first
    | with_reducible assumption
    | with_reducible exact Sub.of hm (by decide)
    | with_reducible apply State.setBitF_kept
    | with_reducible apply State.modTide_kept
    | with_reducible apply kept_ite
    | with_reducible apply kept_foldl
    | with_reducible apply kept_foldl_fst
    | with_reducible apply outKept_next
    | with_reducible apply outKept_ite
    | simp only [kept_mk, true_or]
    | split
    | intro _)

theorem execExtPulse_kept {φ : Frame} {l : Lane} {ch : Nat} {t : Nat} {s : State} (hm : Sub 0xc00000008 φ.fx) (h1 :
    s.Kept φ) :
    OutKept φ (execExtPulse l ch t s) := by
  unfold execExtPulse
  try dsimp only
  (repeat' first
    | with_reducible assumption
    | with_reducible exact Sub.of hm (by decide)
    | with_reducible apply State.extIndex_kept
    | with_reducible apply State.extPulse_kept
    | with_reducible apply kept_ite
    | with_reducible apply kept_foldl
    | with_reducible apply kept_foldl_fst
    | with_reducible apply outKept_next
    | with_reducible apply outKept_ite
    | simp only [kept_mk, true_or]
    | split
    | intro _)

theorem execExtMiss_kept {φ : Frame} {l : Lane} {s : State} (hm : Sub 0xc00000008 φ.fx) (h1 : s.Kept φ) :
    OutKept φ (execExtMiss l s) := by
  unfold execExtMiss
  try dsimp only
  (repeat' first
    | with_reducible assumption
    | with_reducible exact Sub.of hm (by decide)
    | with_reducible apply State.extLost_kept
    | with_reducible apply State.modTide_kept
    | with_reducible apply kept_ite
    | with_reducible apply kept_foldl
    | with_reducible apply kept_foldl_fst
    | with_reducible apply outKept_next
    | with_reducible apply outKept_ite
    | simp only [kept_mk, true_or]
    | split
    | intro _)

theorem execTideSlewComplete_kept {φ : Frame} {l : Lane} {s : State} (hm : Sub 0xc00000008 φ.fx) (h1 : s.Kept φ) :
    OutKept φ (execTideSlewComplete l s) := by
  unfold execTideSlewComplete
  try dsimp only
  (repeat' first
    | with_reducible assumption
    | with_reducible exact Sub.of hm (by decide)
    | with_reducible apply State.setFld_kept
    | with_reducible apply State.modTide_kept
    | with_reducible apply State.setTBit_kept
    | with_reducible apply kept_ite
    | with_reducible apply kept_foldl
    | with_reducible apply kept_foldl_fst
    | with_reducible apply outKept_next
    | with_reducible apply outKept_ite
    | simp only [kept_mk, true_or]
    | split
    | intro _)

theorem execHoldoverExpiry_kept {φ : Frame} {l : Lane} {s : State} (hm : Sub 0x8 φ.fx) (h1 : s.Kept φ) :
    OutKept φ (execHoldoverExpiry l s) := by
  unfold execHoldoverExpiry
  try dsimp only
  (repeat' first
    | with_reducible assumption
    | with_reducible exact Sub.of hm (by decide)
    | with_reducible apply State.setFld_kept
    | with_reducible apply State.count_kept
    | with_reducible apply State.setTBit_kept
    | with_reducible apply kept_ite
    | with_reducible apply kept_foldl
    | with_reducible apply kept_foldl_fst
    | with_reducible apply outKept_next
    | with_reducible apply outKept_ite
    | simp only [kept_mk, true_or]
    | split
    | intro _)

theorem State.tideSync_kept {φ : Frame} {s : State} {l : Lane} {err : Int} {missed : Bool} (hm : Sub 0xc001c0008 φ.fx)
    (h1 : s.Kept φ) :
    State.Kept φ (State.tideSync s l err missed) := by
  unfold State.tideSync
  try dsimp only
  (repeat' first
    | with_reducible assumption
    | with_reducible exact Sub.of hm (by decide)
    | with_reducible apply State.setFld_kept
    | with_reducible apply State.setBitF_kept
    | with_reducible apply State.setLst_kept
    | with_reducible apply State.count_kept
    | with_reducible apply State.modTide_kept
    | with_reducible apply State.setTBit_kept
    | with_reducible apply kept_ite
    | with_reducible apply kept_foldl
    | with_reducible apply kept_foldl_fst
    | with_reducible apply outKept_next
    | with_reducible apply outKept_ite
    | simp only [kept_mk, hm.bit 18 rfl, or_true, true_or]
    | split
    | intro _)

theorem execTideSync_kept {φ : Frame} {l : Lane} {err : Int} {missed : Bool} {s : State} (hm : Sub 0xc001c0008 φ.fx)
    (h1 : s.Kept φ) :
    OutKept φ (execTideSync l err missed s) := by
  unfold execTideSync
  try dsimp only
  (repeat' first
    | with_reducible assumption
    | with_reducible exact Sub.of hm (by decide)
    | with_reducible apply State.tideSync_kept
    | with_reducible apply kept_ite
    | with_reducible apply kept_foldl
    | with_reducible apply kept_foldl_fst
    | with_reducible apply outKept_next
    | with_reducible apply outKept_ite
    | simp only [kept_mk, true_or]
    | split
    | intro _)

end Sys2Proof.Machine
end

