-- ==== Sys2Proof/Laws/KeptCvc.lean ====
section
/-! SUPPORT. The operations of Cvc.lean keep the invariant, the queue and the time. -/

namespace Sys2Proof.Machine

theorem State.setCvc_kept {φ : Frame} {s : State} {l : Lane} {x : CvcRt} (hm : Sub 0xc000000000 φ.fx) (h1 : s.Kept φ)
    :
    State.Kept φ (State.setCvc s l x) := by
  unfold State.setCvc
  try dsimp only
  (repeat' first
    | with_reducible assumption
    | with_reducible exact Sub.of hm (by decide)
    | with_reducible apply kept_ite
    | with_reducible apply kept_foldl
    | with_reducible apply kept_foldl_fst
    | with_reducible apply outKept_next
    | with_reducible apply outKept_ite
    | simp only [kept_mk, hm.bit 38 rfl, hm.bit 39 rfl, or_true, true_or]
    | split
    | intro _)

theorem State.setPair_kept {φ : Frame} {s : State} {l : Lane} {k : Nat} {x : PairRt} (hm : Sub 0xc000000000 φ.fx) (h1
    : s.Kept φ) :
    State.Kept φ (State.setPair s l k x) := by
  unfold State.setPair
  try dsimp only
  (repeat' first
    | with_reducible assumption
    | with_reducible exact Sub.of hm (by decide)
    | with_reducible apply State.setCvc_kept
    | with_reducible apply kept_ite
    | with_reducible apply kept_foldl
    | with_reducible apply kept_foldl_fst
    | with_reducible apply outKept_next
    | with_reducible apply outKept_ite
    | simp only [kept_mk, true_or]
    | split
    | intro _)

theorem State.setSel_kept {φ : Frame} {s : State} {k : Nat} {x : SelRt} (hm : Sub 0x10000000000 φ.fx) (h : s.Kept φ) :
    State.Kept φ (State.setSel s k x) :=
  kept_sels h (hm.bit 40 rfl) ((List.length_set ..).trans h.shape.sels)

theorem State.setSelSt_kept {φ : Frame} {s : State} {k : Nat} {v : Nat} (hm : Sub 0x8 φ.fx) (h1 : s.Kept φ) :
    State.Kept φ (State.setSelSt s k v) := by
  unfold State.setSelSt
  try dsimp only
  (repeat' first
    | with_reducible assumption
    | with_reducible exact Sub.of hm (by decide)
    | with_reducible apply State.setShFld_kept
    | with_reducible apply kept_ite
    | with_reducible apply kept_foldl
    | with_reducible apply kept_foldl_fst
    | with_reducible apply outKept_next
    | with_reducible apply outKept_ite
    | simp only [kept_mk, true_or]
    | split
    | intro _)

theorem State.setSelBit_kept {φ : Frame} {s : State} {k : Nat} {f : Fld} {b : Bool} (hm : Sub 0x8 φ.fx) (h1 : s.Kept
    φ) :
    State.Kept φ (State.setSelBit s k f b) := by
  unfold State.setSelBit
  try dsimp only
  (repeat' first
    | with_reducible assumption
    | with_reducible exact Sub.of hm (by decide)
    | with_reducible apply State.setShBit_kept
    | with_reducible apply kept_ite
    | with_reducible apply kept_foldl
    | with_reducible apply kept_foldl_fst
    | with_reducible apply outKept_next
    | with_reducible apply outKept_ite
    | simp only [kept_mk, true_or]
    | split
    | intro _)

theorem State.cvcFlag_kept {φ : Frame} {s : State} {l : Lane} {f : Fld} (hm : Sub 0x8 φ.fx) (h1 : s.Kept φ) :
    State.Kept φ (State.cvcFlag s l f) := by
  unfold State.cvcFlag
  try dsimp only
  (repeat' first
    | with_reducible assumption
    | with_reducible exact Sub.of hm (by decide)
    | with_reducible apply State.setBitF_kept
    | with_reducible apply kept_ite
    | with_reducible apply kept_foldl
    | with_reducible apply kept_foldl_fst
    | with_reducible apply outKept_next
    | with_reducible apply outKept_ite
    | simp only [kept_mk, true_or]
    | split
    | intro _)

theorem State.setSeqRt_kept {φ : Frame} {s : State} {l : Lane} {q : Nat} {x : SeqRt} (hm : Sub 0xc000000000 φ.fx) (h1
    : s.Kept φ) :
    State.Kept φ (State.setSeqRt s l q x) := by
  unfold State.setSeqRt
  try dsimp only
  (repeat' first
    | with_reducible assumption
    | with_reducible exact Sub.of hm (by decide)
    | with_reducible apply State.setCvc_kept
    | with_reducible apply kept_ite
    | with_reducible apply kept_foldl
    | with_reducible apply kept_foldl_fst
    | with_reducible apply outKept_next
    | with_reducible apply outKept_ite
    | simp only [kept_mk, true_or]
    | split
    | intro _)

theorem State.startGroup_kept {φ : Frame} {s : State} {l : Lane} {q : Nat} (hm : Sub 0xc000000008 φ.fx) (h1 : s.Kept
    φ) :
    State.Kept φ (State.startGroup s l q) := by
  unfold State.startGroup
  try dsimp only
  (repeat' first
    | with_reducible assumption
    | with_reducible exact Sub.of hm (by decide)
    | with_reducible apply State.cvcFlag_kept
    | with_reducible apply State.setCvc_kept
    | with_reducible apply State.setSeqRt_kept
    | with_reducible apply State.count_kept
    | with_reducible apply kept_ite
    | with_reducible apply kept_foldl
    | with_reducible apply kept_foldl_fst
    | with_reducible apply outKept_next
    | with_reducible apply outKept_ite
    | simp only [kept_mk, true_or]
    | split
    | intro _)

theorem State.serveAdcs_kept {φ : Frame} {s : State} {l : Lane} (hm : Sub 0xc000000000 φ.fx) (h1 : s.Kept φ) :
    State.Kept φ (State.serveAdcs s l) := by
  unfold State.serveAdcs
  try dsimp only
  (repeat' first
    | with_reducible assumption
    | with_reducible exact Sub.of hm (by decide)
    | with_reducible apply State.setCvc_kept
    | with_reducible apply State.setSeqRt_kept
    | with_reducible apply State.forEach_kept
    | with_reducible apply kept_ite
    | with_reducible apply kept_foldl
    | with_reducible apply kept_foldl_fst
    | with_reducible apply outKept_next
    | with_reducible apply outKept_ite
    | simp only [kept_mk, true_or]
    | split
    | intro _)

theorem State.startSeq_kept {φ : Frame} {s : State} {l : Lane} {q : Nat} (hm : Sub 0xc000000008 φ.fx) (h1 : s.Kept φ)
    :
    State.Kept φ (State.startSeq s l q) := by
  unfold State.startSeq
  try dsimp only
  (repeat' first
    | with_reducible assumption
    | with_reducible exact Sub.of hm (by decide)
    | with_reducible apply State.cvcFlag_kept
    | with_reducible apply State.setBitF_kept
    | with_reducible apply State.countFld_kept
    | with_reducible apply State.setSeqRt_kept
    | with_reducible apply State.startGroup_kept
    | with_reducible apply State.count_kept
    | with_reducible apply kept_ite
    | with_reducible apply kept_foldl
    | with_reducible apply kept_foldl_fst
    | with_reducible apply outKept_next
    | with_reducible apply outKept_ite
    | simp only [kept_mk, true_or]
    | split
    | intro _)

theorem State.setNodeState_kept {φ : Frame} {s : State} {l : Lane} {i : Nat} {h : Nat} {v : Int} (hm : Sub 0x8 φ.fx)
    (h1 : s.Kept φ) :
    State.Kept φ (State.setNodeState s l i h v) := by
  unfold State.setNodeState
  try dsimp only
  (repeat' first
    | with_reducible assumption
    | with_reducible exact Sub.of hm (by decide)
    | with_reducible apply State.setReg_kept
    | with_reducible apply kept_ite
    | with_reducible apply kept_foldl
    | with_reducible apply kept_foldl_fst
    | with_reducible apply outKept_next
    | with_reducible apply outKept_ite
    | simp only [kept_mk, true_or]
    | split
    | intro _)

theorem State.zeroNode_kept {φ : Frame} {s : State} {l : Lane} {i : Nat} (hm : Sub 0x8 φ.fx) (h1 : s.Kept φ) :
    State.Kept φ (State.zeroNode s l i) := by
  unfold State.zeroNode
  try dsimp only
  (repeat' first
    | with_reducible assumption
    | with_reducible exact Sub.of hm (by decide)
    | with_reducible apply State.setNodeState_kept
    | with_reducible apply State.forEach_kept
    | with_reducible apply kept_ite
    | with_reducible apply kept_foldl
    | with_reducible apply kept_foldl_fst
    | with_reducible apply outKept_next
    | with_reducible apply outKept_ite
    | simp only [kept_mk, true_or]
    | split
    | intro _)

theorem State.nodeDest_kept {φ : Frame} {s : State} {l : Lane} {dest : Nat} {idx : Nat} {u : Int} {scale : Nat} (hm :
    Sub 0x8 φ.fx) (h1 : s.Kept φ) :
    State.Kept φ (State.nodeDest s l dest idx u scale) := by
  unfold State.nodeDest
  try dsimp only
  (repeat' first
    | with_reducible assumption
    | with_reducible exact Sub.of hm (by decide)
    | with_reducible apply State.setReg_kept
    | with_reducible apply State.setFld_kept
    | with_reducible apply kept_ite
    | with_reducible apply kept_foldl
    | with_reducible apply kept_foldl_fst
    | with_reducible apply outKept_next
    | with_reducible apply outKept_ite
    | simp only [kept_mk, true_or]
    | split
    | intro _)

theorem State.runNode_kept {φ : Frame} {s : State} {l : Lane} {i : Nat} (hm : Sub 0xc000000008 φ.fx) (h1 : s.Kept φ) :
    State.Kept φ (State.runNode s l i) := by
  unfold State.runNode
  try dsimp only
  (repeat' first
    | with_reducible assumption
    | with_reducible exact Sub.of hm (by decide)
    | with_reducible apply State.setReg_kept
    | with_reducible apply State.nodeDest_kept
    | with_reducible apply State.setNodeState_kept
    | with_reducible apply State.setCvc_kept
    | with_reducible apply State.setBitF_kept
    | with_reducible apply State.countFld_kept
    | with_reducible apply kept_ite
    | with_reducible apply kept_foldl
    | with_reducible apply kept_foldl_fst
    | with_reducible apply outKept_next
    | with_reducible apply outKept_ite
    | simp only [kept_mk, true_or]
    | split
    | intro _)

theorem State.kick_kept {φ : Frame} {s : State} {l : Lane} {i : Nat} (hm : Sub 0xc000000008 φ.fx) (h1 : s.Kept φ) :
    State.Kept φ (State.kick s l i) := by
  unfold State.kick
  try dsimp only
  (repeat' first
    | with_reducible assumption
    | with_reducible exact Sub.of hm (by decide)
    | with_reducible apply State.cvcFlag_kept
    | with_reducible apply State.setCvc_kept
    | with_reducible apply State.count_kept
    | with_reducible apply kept_ite
    | with_reducible apply kept_foldl
    | with_reducible apply kept_foldl_fst
    | with_reducible apply outKept_next
    | with_reducible apply outKept_ite
    | simp only [kept_mk, true_or]
    | split
    | intro _)

theorem State.ownNode_kept {φ : Frame} {s : State} {l : Lane} {i : Nat} {sec : Bool} (hm : Sub 0xc000000000 φ.fx) (h1
    : s.Kept φ) :
    State.Kept φ (State.ownNode s l i sec) := by
  unfold State.ownNode
  try dsimp only
  (repeat' first
    | with_reducible assumption
    | with_reducible exact Sub.of hm (by decide)
    | with_reducible apply State.setCvc_kept
    | with_reducible apply kept_ite
    | with_reducible apply kept_foldl
    | with_reducible apply kept_foldl_fst
    | with_reducible apply outKept_next
    | with_reducible apply outKept_ite
    | simp only [kept_mk, true_or]
    | split
    | intro _)

theorem State.afterCvcCommit_kept {φ : Frame} {s : State} {c : Commit} (hm : Sub 0x8 φ.fx) (h1 : s.Kept φ) :
    State.Kept φ (State.afterCvcCommit s c) := by
  unfold State.afterCvcCommit
  try dsimp only
  (repeat' first
    | with_reducible assumption
    | with_reducible exact Sub.of hm (by decide)
    | with_reducible apply State.setFld_kept
    | with_reducible apply State.setBitF_kept
    | with_reducible apply State.setShadow_kept
    | with_reducible apply State.zeroNode_kept
    | with_reducible apply kept_ite
    | with_reducible apply kept_foldl
    | with_reducible apply kept_foldl_fst
    | with_reducible apply outKept_next
    | with_reducible apply outKept_ite
    | simp only [kept_mk, true_or]
    | split
    | intro _)

theorem State.applyCvc_kept {φ : Frame} {s : State} {l : Lane} {region : Nat} (hm : Sub 0x17efdce0fafc007a075c φ.fx)
    (h1 : s.Kept φ) :
    State.Kept φ (State.applyCvc s l region) := by
  unfold State.applyCvc
  try dsimp only
  (repeat' first
    | with_reducible assumption
    | with_reducible exact Sub.of hm (by decide)
    | with_reducible apply State.policy_kept
    | with_reducible apply State.applyCommit_kept
    | with_reducible apply State.afterCvcCommit_kept
    | with_reducible apply kept_ite
    | with_reducible apply kept_foldl
    | with_reducible apply kept_foldl_fst
    | with_reducible apply outKept_next
    | with_reducible apply outKept_ite
    | simp only [kept_mk, true_or]
    | split
    | intro _)

theorem State.applyNodes_kept {φ : Frame} {s : State} {l : Lane} (hm : Sub 0x17efdce0fafc007a075c φ.fx) (h1 : s.Kept
    φ) :
    State.Kept φ (State.applyNodes s l) := by
  unfold State.applyNodes
  try dsimp only
  (repeat' first
    | with_reducible assumption
    | with_reducible exact Sub.of hm (by decide)
    | with_reducible apply State.applyCvc_kept
    | with_reducible apply State.forEach_kept
    | with_reducible apply kept_ite
    | with_reducible apply kept_foldl
    | with_reducible apply kept_foldl_fst
    | with_reducible apply outKept_next
    | with_reducible apply outKept_ite
    | simp only [kept_mk, true_or]
    | split
    | intro _)

theorem State.commitCvc_kept {φ : Frame} {s : State} {l : Lane} {ws : List RegCell} {lsns : List Nat} (hm : Sub
    0x17efdce0fafc007a075c φ.fx) (h1 : s.Kept φ) :
    State.Kept φ (State.commitCvc s l ws lsns) := by
  unfold State.commitCvc
  try dsimp only
  (repeat' first
    | with_reducible assumption
    | with_reducible exact Sub.of hm (by decide)
    | with_reducible apply State.addCommit_kept
    | with_reducible apply State.applyNodes_kept
    | with_reducible apply State.forEach_kept
    | with_reducible apply kept_ite
    | with_reducible apply kept_foldl
    | with_reducible apply kept_foldl_fst
    | with_reducible apply outKept_next
    | with_reducible apply outKept_ite
    | simp only [kept_mk, true_or]
    | split
    | intro _)

theorem State.commitCvcCmd_kept {φ : Frame} {s : State} {r : Req} {ws : List RegCell} {lsn : Nat} (hm : Sub
    0x17efdce0fafc007a075c φ.fx) (h1 : s.Kept φ) :
    State.Kept φ (State.commitCvcCmd s r ws lsn) := by
  unfold State.commitCvcCmd
  try dsimp only
  (repeat' first
    | with_reducible assumption
    | with_reducible exact Sub.of hm (by decide)
    | with_reducible apply State.commitCvc_kept
    | with_reducible apply State.writeShadows_kept
    | with_reducible apply kept_ite
    | with_reducible apply kept_foldl
    | with_reducible apply kept_foldl_fst
    | with_reducible apply outKept_next
    | with_reducible apply outKept_ite
    | simp only [kept_mk, true_or]
    | split
    | intro _)

theorem State.syncTrip_kept {φ : Frame} {s : State} {k : Nat} (hm : Sub 0x8 φ.fx) (h1 : s.Kept φ) :
    State.Kept φ (State.syncTrip s k) := by
  unfold State.syncTrip
  try dsimp only
  (repeat' first
    | with_reducible assumption
    | with_reducible exact Sub.of hm (by decide)
    | with_reducible apply State.setSelBit_kept
    | with_reducible apply State.setShFld_kept
    | with_reducible apply State.countShFld_kept
    | with_reducible apply kept_ite
    | with_reducible apply kept_foldl
    | with_reducible apply kept_foldl_fst
    | with_reducible apply outKept_next
    | with_reducible apply outKept_ite
    | simp only [kept_mk, true_or]
    | split
    | intro _)

theorem State.syncTrips_kept {φ : Frame} {s : State} (hm : Sub 0x8 φ.fx) (h1 : s.Kept φ) :
    State.Kept φ (State.syncTrips s) := by
  unfold State.syncTrips
  try dsimp only
  (repeat' first
    | with_reducible assumption
    | with_reducible exact Sub.of hm (by decide)
    | with_reducible apply State.syncTrip_kept
    | with_reducible apply State.forEach_kept
    | with_reducible apply kept_ite
    | with_reducible apply kept_foldl
    | with_reducible apply kept_foldl_fst
    | with_reducible apply outKept_next
    | with_reducible apply outKept_ite
    | simp only [kept_mk, true_or]
    | split
    | intro _)

theorem State.clearTrip_kept {φ : Frame} {s : State} {k : Nat} (hm : Sub 0x8 φ.fx) (h1 : s.Kept φ) :
    State.Kept φ (State.clearTrip s k) := by
  unfold State.clearTrip
  try dsimp only
  (repeat' first
    | with_reducible assumption
    | with_reducible exact Sub.of hm (by decide)
    | with_reducible apply State.setSelBit_kept
    | with_reducible apply State.setShFld_kept
    | with_reducible apply kept_ite
    | with_reducible apply kept_foldl
    | with_reducible apply kept_foldl_fst
    | with_reducible apply outKept_next
    | with_reducible apply outKept_ite
    | simp only [kept_mk, true_or]
    | split
    | intro _)

theorem State.pwmPairDone_kept {φ : Frame} {s : State} {act : Nat} {k : Nat} (hm : Sub 0x14000040000000108 φ.fx) (h1 :
    s.Kept φ) :
    State.Kept φ (State.pwmPairDone s act k) := by
  unfold State.pwmPairDone
  try dsimp only
  (repeat' first
    | with_reducible assumption
    | with_reducible exact Sub.of hm (by decide)
    | with_reducible apply State.done_kept
    | with_reducible apply State.forEach_kept
    | with_reducible apply kept_ite
    | with_reducible apply kept_foldl
    | with_reducible apply kept_foldl_fst
    | with_reducible apply outKept_next
    | with_reducible apply outKept_ite
    | simp only [kept_mk, hm.bit 42 rfl, or_true, true_or]
    | split
    | intro _)

theorem State.pwmPairFail_kept {φ : Frame} {s : State} {act : Nat} {k : Nat} {err : Nat} (hm : Sub 0x14000040000000108
    φ.fx) (h1 : s.Kept φ) :
    State.Kept φ (State.pwmPairFail s act k err) := by
  unfold State.pwmPairFail
  try dsimp only
  (repeat' first
    | with_reducible assumption
    | with_reducible exact Sub.of hm (by decide)
    | with_reducible apply State.failed_kept
    | with_reducible apply State.forEach_kept
    | with_reducible apply kept_ite
    | with_reducible apply kept_foldl
    | with_reducible apply kept_foldl_fst
    | with_reducible apply outKept_next
    | with_reducible apply outKept_ite
    | simp only [kept_mk, hm.bit 42 rfl, or_true, true_or]
    | split
    | intro _)

theorem State.pwmAct_kept {φ : Frame} {s : State} {w : PwmWork} (hm : Sub 0x14000050000000108 φ.fx) (h1 : s.Kept φ) :
    State.Kept φ (State.pwmAct s w) := by
  unfold State.pwmAct
  try dsimp only
  (repeat' first
    | with_reducible assumption
    | with_reducible exact Sub.of hm (by decide)
    | with_reducible apply State.setSelSt_kept
    | with_reducible apply State.setSel_kept
    | with_reducible apply State.forEach_kept
    | with_reducible apply State.pwmPairDone_kept
    | with_reducible apply kept_ite
    | with_reducible apply kept_foldl
    | with_reducible apply kept_foldl_fst
    | with_reducible apply outKept_next
    | with_reducible apply outKept_ite
    | simp only [kept_mk, hm.bit 42 rfl, or_true, true_or]
    | split
    | intro _)

theorem State.pwmRecord_kept {φ : Frame} {s : State} {lsn : Nat} {holder : Bool} (hm : Sub 0x14000070000000108 φ.fx)
    (h1 : s.Kept φ) :
    State.Kept φ (State.pwmRecord s lsn holder) := by
  unfold State.pwmRecord
  try dsimp only
  (repeat' first
    | with_reducible assumption
    | with_reducible exact Sub.of hm (by decide)
    | with_reducible apply State.pwmAct_kept
    | with_reducible apply State.failed_kept
    | with_reducible apply kept_ite
    | with_reducible apply kept_foldl
    | with_reducible apply kept_foldl_fst
    | with_reducible apply outKept_next
    | with_reducible apply outKept_ite
    | simp only [kept_mk, hm.bit 41 rfl, or_true, true_or]
    | split
    | intro _)

theorem State.pwmFrame_kept {φ : Frame} {s : State} {holder : Bool} (hm : Sub 0x14000070000000108 φ.fx) (h1 : s.Kept
    φ) :
    State.Kept φ (State.pwmFrame s holder) := by
  unfold State.pwmFrame
  try dsimp only
  (repeat' first
    | with_reducible assumption
    | with_reducible exact Sub.of hm (by decide)
    | with_reducible apply State.forEach_kept
    | with_reducible apply State.pwmRecord_kept
    | with_reducible apply kept_ite
    | with_reducible apply kept_foldl
    | with_reducible apply kept_foldl_fst
    | with_reducible apply outKept_next
    | with_reducible apply outKept_ite
    | simp only [kept_mk, true_or]
    | split
    | intro _)

theorem State.applySelFrame_kept {φ : Frame} {s : State} {c : Commit} (hm : Sub 0x14000000000000708 φ.fx) (h1 : s.Kept
    φ) :
    State.Kept φ (State.applySelFrame s c) := by
  unfold State.applySelFrame
  try dsimp only
  (repeat' first
    | with_reducible assumption
    | with_reducible exact Sub.of hm (by decide)
    | with_reducible apply State.dropCommit_kept
    | with_reducible apply State.setNum_kept
    | with_reducible apply State.settleAll_kept
    | with_reducible apply State.applyCommit_kept
    | with_reducible apply State.activateAll_kept
    | with_reducible apply State.addCommit_kept
    | with_reducible apply State.forEach_kept
    | with_reducible apply kept_ite
    | with_reducible apply kept_foldl
    | with_reducible apply kept_foldl_fst
    | with_reducible apply outKept_next
    | with_reducible apply outKept_ite
    | simp only [kept_mk, true_or]
    | split
    | intro _)

theorem State.applySelPair_kept {φ : Frame} {s : State} {k : Nat} (hm : Sub 0x14000000000000308 φ.fx) (h1 : s.Kept φ)
    :
    State.Kept φ (State.applySelPair s k) := by
  unfold State.applySelPair
  try dsimp only
  (repeat' first
    | with_reducible assumption
    | with_reducible exact Sub.of hm (by decide)
    | with_reducible apply State.dropCommit_kept
    | with_reducible apply State.syncTrip_kept
    | with_reducible apply State.settleAll_kept
    | with_reducible apply State.activateAll_kept
    | with_reducible apply kept_ite
    | with_reducible apply kept_foldl
    | with_reducible apply kept_foldl_fst
    | with_reducible apply outKept_next
    | with_reducible apply outKept_ite
    | simp only [kept_mk, true_or]
    | split
    | intro _)

theorem State.selBoundary_kept {φ : Frame} {s : State} {l : Lane} {k : Nat} (hm : Sub 0x14000050000000308 φ.fx) (h1 :
    s.Kept φ) :
    State.Kept φ (State.selBoundary s l k) := by
  unfold State.selBoundary
  try dsimp only
  (repeat' first
    | with_reducible assumption
    | with_reducible exact Sub.of hm (by decide)
    | with_reducible apply State.clearTrip_kept
    | with_reducible apply State.setSelBit_kept
    | with_reducible apply State.setSelSt_kept
    | with_reducible apply State.applySelPair_kept
    | with_reducible apply State.setSel_kept
    | with_reducible apply State.pwmPairFail_kept
    | with_reducible apply State.countShFld_kept
    | with_reducible apply State.pwmPairDone_kept
    | with_reducible apply kept_ite
    | with_reducible apply kept_foldl
    | with_reducible apply kept_foldl_fst
    | with_reducible apply outKept_next
    | with_reducible apply outKept_ite
    | simp only [kept_mk, true_or]
    | split
    | intro _)

theorem State.takeRun_kept {φ : Frame} {s : State} {l : Lane} {k : Nat} {x : PairRt} (hm : Sub 0xc000000008 φ.fx) (h1
    : s.Kept φ) :
    State.Kept φ (State.takeRun s l k x) := by
  unfold State.takeRun
  try dsimp only
  (repeat' first
    | with_reducible assumption
    | with_reducible exact Sub.of hm (by decide)
    | with_reducible apply State.setBitF_kept
    | with_reducible apply State.forEach_kept
    | with_reducible apply State.count_kept
    | with_reducible apply State.setPair_kept
    | with_reducible apply kept_ite
    | with_reducible apply kept_foldl
    | with_reducible apply kept_foldl_fst
    | with_reducible apply outKept_next
    | with_reducible apply outKept_ite
    | simp only [kept_mk, true_or]
    | split
    | intro _)

theorem State.loadPair_kept {φ : Frame} {s : State} {l : Lane} {k : Nat} (hm : Sub 0xc000000008 φ.fx) (h1 : s.Kept φ)
    :
    State.Kept φ (State.loadPair s l k) := by
  unfold State.loadPair
  try dsimp only
  (repeat' first
    | with_reducible assumption
    | with_reducible exact Sub.of hm (by decide)
    | with_reducible apply State.cvcFlag_kept
    | with_reducible apply State.takeRun_kept
    | with_reducible apply State.setBitF_kept
    | with_reducible apply State.count_kept
    | with_reducible apply State.setPair_kept
    | with_reducible apply kept_ite
    | with_reducible apply kept_foldl
    | with_reducible apply kept_foldl_fst
    | with_reducible apply outKept_next
    | with_reducible apply outKept_ite
    | simp only [kept_mk, true_or]
    | split
    | intro _)

theorem State.missTriggers_kept {φ : Frame} {s : State} {l : Lane} {k : Nat} (hm : Sub 0x8 φ.fx) (h1 : s.Kept φ) :
    State.Kept φ (State.missTriggers s l k) := by
  unfold State.missTriggers
  try dsimp only
  (repeat' first
    | with_reducible assumption
    | with_reducible exact Sub.of hm (by decide)
    | with_reducible apply State.count_kept
    | with_reducible apply kept_ite
    | with_reducible apply kept_foldl
    | with_reducible apply kept_foldl_fst
    | with_reducible apply outKept_next
    | with_reducible apply outKept_ite
    | simp only [kept_mk, true_or]
    | split
    | intro _)

theorem State.pairBoundary_kept {φ : Frame} {s : State} {l : Lane} {k : Nat} (hm : Sub 0x17efdce0fffc007a075c φ.fx)
    (h1 : s.Kept φ) :
    State.Kept φ (State.pairBoundary s l k) := by
  unfold State.pairBoundary
  try dsimp only
  (repeat' first
    | with_reducible assumption
    | with_reducible exact Sub.of hm (by decide)
    | with_reducible apply State.setReg_kept
    | with_reducible apply State.selBoundary_kept
    | with_reducible apply State.applyCvc_kept
    | with_reducible apply State.loadPair_kept
    | with_reducible apply State.missTriggers_kept
    | with_reducible apply kept_ite
    | with_reducible apply kept_foldl
    | with_reducible apply kept_foldl_fst
    | with_reducible apply outKept_next
    | with_reducible apply outKept_ite
    | simp only [kept_mk, true_or]
    | split
    | intro _)

theorem State.pwmLoad_kept {φ : Frame} {s : State} {l : Lane} {mask : Nat} (hm : Sub 0xc000000000 φ.fx) (h1 : s.Kept
    φ) :
    State.Kept φ (State.pwmLoad s l mask) := by
  unfold State.pwmLoad
  try dsimp only
  (repeat' first
    | with_reducible assumption
    | with_reducible exact Sub.of hm (by decide)
    | with_reducible apply State.forEach_kept
    | with_reducible apply State.setPair_kept
    | with_reducible apply kept_ite
    | with_reducible apply kept_foldl
    | with_reducible apply kept_foldl_fst
    | with_reducible apply outKept_next
    | with_reducible apply outKept_ite
    | simp only [kept_mk, true_or]
    | split
    | intro _)

theorem State.trackNode_kept {φ : Frame} {s : State} {l : Lane} {i : Nat} (hm : Sub 0x8 φ.fx) (h1 : s.Kept φ) :
    State.Kept φ (State.trackNode s l i) := by
  unfold State.trackNode
  try dsimp only
  (repeat' first
    | with_reducible assumption
    | with_reducible exact Sub.of hm (by decide)
    | with_reducible apply State.setReg_kept
    | with_reducible apply kept_ite
    | with_reducible apply kept_foldl
    | with_reducible apply kept_foldl_fst
    | with_reducible apply outKept_next
    | with_reducible apply outKept_ite
    | simp only [kept_mk, true_or]
    | split
    | intro _)

theorem State.cvcBoundary_kept {φ : Frame} {s : State} {l : Lane} (hm : Sub 0x17efdce0fffc007a075c φ.fx) (h1 : s.Kept
    φ) :
    State.Kept φ (State.cvcBoundary s l) := by
  unfold State.cvcBoundary
  try dsimp only
  (repeat' first
    | with_reducible assumption
    | with_reducible exact Sub.of hm (by decide)
    | with_reducible apply State.trackNode_kept
    | with_reducible apply State.pairBoundary_kept
    | with_reducible apply State.applyCvc_kept
    | with_reducible apply State.syncTrips_kept
    | with_reducible apply State.forEach_kept
    | with_reducible apply kept_ite
    | with_reducible apply kept_foldl
    | with_reducible apply kept_foldl_fst
    | with_reducible apply outKept_next
    | with_reducible apply outKept_ite
    | simp only [kept_mk, true_or]
    | split
    | intro _)

theorem State.selHandover_kept {φ : Frame} {s : State} (hm : Sub 0x8 φ.fx) (h1 : s.Kept φ) :
    State.Kept φ (State.selHandover s) := by
  unfold State.selHandover
  try dsimp only
  (repeat' first
    | with_reducible assumption
    | with_reducible exact Sub.of hm (by decide)
    | with_reducible apply State.setSelSt_kept
    | with_reducible apply State.forEach_kept
    | with_reducible apply kept_ite
    | with_reducible apply kept_foldl
    | with_reducible apply kept_foldl_fst
    | with_reducible apply outKept_next
    | with_reducible apply outKept_ite
    | simp only [kept_mk, true_or]
    | split
    | intro _)

theorem State.cvcClear_kept {φ : Frame} {s : State} {l : Lane} (hm : Sub 0xc000000000 φ.fx) (h1 : s.Kept φ) :
    State.Kept φ (State.cvcClear s l) := by
  unfold State.cvcClear
  try dsimp only
  (repeat' first
    | with_reducible assumption
    | with_reducible exact Sub.of hm (by decide)
    | with_reducible apply State.setCvc_kept
    | with_reducible apply kept_ite
    | with_reducible apply kept_foldl
    | with_reducible apply kept_foldl_fst
    | with_reducible apply outKept_next
    | with_reducible apply outKept_ite
    | simp only [kept_mk, true_or]
    | split
    | intro _)

end Sys2Proof.Machine
end

