-- ==== Sys2Proof/Laws/KeptCvcCmds.lean ====
section
/-! SUPPORT. The operations of CvcCmds.lean keep the invariant, the queue and the time. -/

namespace Sys2Proof.Machine

theorem specCvcStatus_kept {φ : Frame}   :
    CmdSpec.Kept φ (specCvcStatus ) := by
  refine ⟨?_, ?_, ?_, ?_⟩ <;> intros <;> dsimp only [specCvcStatus] <;>
  (repeat' first
    | with_reducible assumption
    | with_reducible apply kept_ite
    | with_reducible apply kept_foldl
    | with_reducible apply kept_foldl_fst
    | with_reducible apply outKept_next
    | with_reducible apply outKept_ite
    | simp only [kept_mk, true_or]
    | split
    | intro _)

theorem specPwmPairConfig_kept {φ : Frame}  (hm : Sub 0x17efdce0fafc007a075c φ.fx)  :
    CmdSpec.Kept φ (specPwmPairConfig ) := by
  refine ⟨?_, ?_, ?_, ?_⟩ <;> intros <;> dsimp only [specPwmPairConfig] <;>
  (repeat' first
    | with_reducible assumption
    | with_reducible exact Sub.of hm (by decide)
    | with_reducible apply State.commitCvcCmd_kept
    | with_reducible apply kept_ite
    | with_reducible apply kept_foldl
    | with_reducible apply kept_foldl_fst
    | with_reducible apply outKept_next
    | with_reducible apply outKept_ite
    | simp only [kept_mk, true_or]
    | split
    | intro _)

theorem specPwmRun_kept {φ : Frame}  (hm : Sub 0x14000000000000108 φ.fx)  :
    CmdSpec.Kept φ (specPwmRun ) := by
  refine ⟨?_, ?_, ?_, ?_⟩ <;> intros <;> dsimp only [specPwmRun] <;>
  (repeat' first
    | with_reducible assumption
    | with_reducible exact Sub.of hm (by decide)
    | with_reducible apply State.done_kept
    | with_reducible apply State.setRegs_kept
    | with_reducible apply kept_ite
    | with_reducible apply kept_foldl
    | with_reducible apply kept_foldl_fst
    | with_reducible apply outKept_next
    | with_reducible apply outKept_ite
    | simp only [kept_mk, true_or]
    | split
    | intro _)

theorem specPwmGuard_kept {φ : Frame}  (hm : Sub 0x608 φ.fx)  :
    CmdSpec.Kept φ (specPwmGuard ) := by
  refine ⟨?_, ?_, ?_, ?_⟩ <;> intros <;> dsimp only [specPwmGuard] <;>
  (repeat' first
    | with_reducible assumption
    | with_reducible exact Sub.of hm (by decide)
    | with_reducible apply State.commitShared_kept
    | with_reducible apply kept_ite
    | with_reducible apply kept_foldl
    | with_reducible apply kept_foldl_fst
    | with_reducible apply outKept_next
    | with_reducible apply outKept_ite
    | simp only [kept_mk, true_or]
    | split
    | intro _)

theorem specPwmEnable_kept {φ : Frame}  (hm : Sub 0x20001000000 φ.fx)  :
    CmdSpec.Kept φ (specPwmEnable ) := by
  refine ⟨?_, ?_, ?_, ?_⟩ <;> intros <;> dsimp only [specPwmEnable] <;>
  (repeat' first
    | with_reducible assumption
    | with_reducible exact Sub.of hm (by decide)
    | with_reducible apply State.sendUrgent_kept
    | with_reducible apply kept_ite
    | with_reducible apply kept_foldl
    | with_reducible apply kept_foldl_fst
    | with_reducible apply outKept_next
    | with_reducible apply outKept_ite
    | simp only [kept_mk, hm.bit 41 rfl, or_true, true_or]
    | split
    | intro _)

theorem specAdcSeqConfig_kept {φ : Frame}  (hm : Sub 0x17efdce0fafc007a075c φ.fx)  :
    CmdSpec.Kept φ (specAdcSeqConfig ) := by
  refine ⟨?_, ?_, ?_, ?_⟩ <;> intros <;> dsimp only [specAdcSeqConfig] <;>
  (repeat' first
    | with_reducible assumption
    | with_reducible exact Sub.of hm (by decide)
    | with_reducible apply State.commitCvcCmd_kept
    | with_reducible apply kept_ite
    | with_reducible apply kept_foldl
    | with_reducible apply kept_foldl_fst
    | with_reducible apply outKept_next
    | with_reducible apply outKept_ite
    | simp only [kept_mk, true_or]
    | split
    | intro _)

theorem specAdcRead_kept {φ : Frame}   :
    CmdSpec.Kept φ (specAdcRead ) := by
  refine ⟨?_, ?_, ?_, ?_⟩ <;> intros <;> dsimp only [specAdcRead] <;>
  (repeat' first
    | with_reducible assumption
    | with_reducible apply kept_ite
    | with_reducible apply kept_foldl
    | with_reducible apply kept_foldl_fst
    | with_reducible apply outKept_next
    | with_reducible apply outKept_ite
    | simp only [kept_mk, true_or]
    | split
    | intro _)

theorem specCompConfig_kept {φ : Frame}  (hm : Sub 0x17efdce0fafc007a075c φ.fx)  :
    CmdSpec.Kept φ (specCompConfig ) := by
  refine ⟨?_, ?_, ?_, ?_⟩ <;> intros <;> dsimp only [specCompConfig] <;>
  (repeat' first
    | with_reducible assumption
    | with_reducible exact Sub.of hm (by decide)
    | with_reducible apply State.commitCvcCmd_kept
    | with_reducible apply kept_ite
    | with_reducible apply kept_foldl
    | with_reducible apply kept_foldl_fst
    | with_reducible apply outKept_next
    | with_reducible apply outKept_ite
    | simp only [kept_mk, true_or]
    | split
    | intro _)

theorem specNodeConfig_kept {φ : Frame}  (hm : Sub 0x17efdce0fafc007a075c φ.fx)  :
    CmdSpec.Kept φ (specNodeConfig ) := by
  refine ⟨?_, ?_, ?_, ?_⟩ <;> intros <;> dsimp only [specNodeConfig] <;>
  (repeat' first
    | with_reducible assumption
    | with_reducible exact Sub.of hm (by decide)
    | with_reducible apply State.commitCvcCmd_kept
    | with_reducible apply State.ownNode_kept
    | with_reducible apply kept_ite
    | with_reducible apply kept_foldl
    | with_reducible apply kept_foldl_fst
    | with_reducible apply outKept_next
    | with_reducible apply outKept_ite
    | simp only [kept_mk, true_or]
    | split
    | intro _)

theorem specNodeCoef_kept {φ : Frame}  (hm : Sub 0x17efdce0fafc007a075c φ.fx)  :
    CmdSpec.Kept φ (specNodeCoef ) := by
  refine ⟨?_, ?_, ?_, ?_⟩ <;> intros <;> dsimp only [specNodeCoef] <;>
  (repeat' first
    | with_reducible assumption
    | with_reducible exact Sub.of hm (by decide)
    | with_reducible apply State.commitCvcCmd_kept
    | with_reducible apply kept_ite
    | with_reducible apply kept_foldl
    | with_reducible apply kept_foldl_fst
    | with_reducible apply outKept_next
    | with_reducible apply outKept_ite
    | simp only [kept_mk, true_or]
    | split
    | intro _)

theorem State.nodeStateCmd_kept {φ : Frame} {s : State} {l : Lane} {i : Nat} {act : Nat} {v : Int} (hm : Sub 0x8 φ.fx)
    (h1 : s.Kept φ) :
    State.Kept φ (State.nodeStateCmd s l i act v) := by
  unfold State.nodeStateCmd
  try dsimp only
  (repeat' first
    | with_reducible assumption
    | with_reducible exact Sub.of hm (by decide)
    | with_reducible apply State.setNodeState_kept
    | with_reducible apply State.forEach_kept
    | with_reducible apply State.zeroNode_kept
    | with_reducible apply kept_ite
    | with_reducible apply kept_foldl
    | with_reducible apply kept_foldl_fst
    | with_reducible apply outKept_next
    | with_reducible apply outKept_ite
    | simp only [kept_mk, true_or]
    | split
    | intro _)

theorem specNodeState_kept {φ : Frame}  (hm : Sub 0x14000000000000108 φ.fx)  :
    CmdSpec.Kept φ (specNodeState ) := by
  refine ⟨?_, ?_, ?_, ?_⟩ <;> intros <;> dsimp only [specNodeState] <;>
  (repeat' first
    | with_reducible assumption
    | with_reducible exact Sub.of hm (by decide)
    | with_reducible apply State.nodeStateCmd_kept
    | with_reducible apply State.done_kept
    | with_reducible apply kept_ite
    | with_reducible apply kept_foldl
    | with_reducible apply kept_foldl_fst
    | with_reducible apply outKept_next
    | with_reducible apply outKept_ite
    | simp only [kept_mk, true_or]
    | split
    | intro _)

theorem specNodeRead_kept {φ : Frame}   :
    CmdSpec.Kept φ (specNodeRead ) := by
  refine ⟨?_, ?_, ?_, ?_⟩ <;> intros <;> dsimp only [specNodeRead] <;>
  (repeat' first
    | with_reducible assumption
    | with_reducible apply kept_ite
    | with_reducible apply kept_foldl
    | with_reducible apply kept_foldl_fst
    | with_reducible apply outKept_next
    | with_reducible apply outKept_ite
    | simp only [kept_mk, true_or]
    | split
    | intro _)

theorem specRefSet_kept {φ : Frame}  (hm : Sub 0x14000000000000108 φ.fx)  :
    CmdSpec.Kept φ (specRefSet ) := by
  refine ⟨?_, ?_, ?_, ?_⟩ <;> intros <;> dsimp only [specRefSet] <;>
  (repeat' first
    | with_reducible assumption
    | with_reducible exact Sub.of hm (by decide)
    | with_reducible apply State.done_kept
    | with_reducible apply State.setRegs_kept
    | with_reducible apply kept_ite
    | with_reducible apply kept_foldl
    | with_reducible apply kept_foldl_fst
    | with_reducible apply outKept_next
    | with_reducible apply outKept_ite
    | simp only [kept_mk, true_or]
    | split
    | intro _)

theorem execCvcStatus_kept {φ : Frame} {r : Req} {s : State} (hm : Sub 0x17efdce0fafc007a03dc φ.fx) (h1 : s.Kept φ) :
    OutKept φ (execCvcStatus r s) := by
  unfold execCvcStatus
  try dsimp only
  (repeat' first
    | with_reducible assumption
    | with_reducible exact Sub.of hm (by decide)
    | with_reducible apply runScs_kept
    | with_reducible apply specCvcStatus_kept
    | with_reducible apply kept_ite
    | with_reducible apply kept_foldl
    | with_reducible apply kept_foldl_fst
    | with_reducible apply outKept_next
    | with_reducible apply outKept_ite
    | simp only [kept_mk, true_or]
    | split
    | intro _)

theorem execPwmPairConfig_kept {φ : Frame} {r : Req} {s : State} (hm : Sub 0x17efdce0fafc007a07dc φ.fx) (h1 : s.Kept
    φ) :
    OutKept φ (execPwmPairConfig r s) := by
  unfold execPwmPairConfig
  try dsimp only
  (repeat' first
    | with_reducible assumption
    | with_reducible exact Sub.of hm (by decide)
    | with_reducible apply specPwmPairConfig_kept
    | with_reducible apply runScs_kept
    | with_reducible apply kept_ite
    | with_reducible apply kept_foldl
    | with_reducible apply kept_foldl_fst
    | with_reducible apply outKept_next
    | with_reducible apply outKept_ite
    | simp only [kept_mk, true_or]
    | split
    | intro _)

theorem execPwmRun_kept {φ : Frame} {r : Req} {s : State} (hm : Sub 0x17efdce0fafc007a03dc φ.fx) (h1 : s.Kept φ) :
    OutKept φ (execPwmRun r s) := by
  unfold execPwmRun
  try dsimp only
  (repeat' first
    | with_reducible assumption
    | with_reducible exact Sub.of hm (by decide)
    | with_reducible apply specPwmRun_kept
    | with_reducible apply runScs_kept
    | with_reducible apply kept_ite
    | with_reducible apply kept_foldl
    | with_reducible apply kept_foldl_fst
    | with_reducible apply outKept_next
    | with_reducible apply outKept_ite
    | simp only [kept_mk, true_or]
    | split
    | intro _)

theorem execPwmGuard_kept {φ : Frame} {r : Req} {s : State} (hm : Sub 0x17efdce0fafc007a07dc φ.fx) (h1 : s.Kept φ) :
    OutKept φ (execPwmGuard r s) := by
  unfold execPwmGuard
  try dsimp only
  (repeat' first
    | with_reducible assumption
    | with_reducible exact Sub.of hm (by decide)
    | with_reducible apply runScs_kept
    | with_reducible apply specPwmGuard_kept
    | with_reducible apply kept_ite
    | with_reducible apply kept_foldl
    | with_reducible apply kept_foldl_fst
    | with_reducible apply outKept_next
    | with_reducible apply outKept_ite
    | simp only [kept_mk, true_or]
    | split
    | intro _)

theorem execPwmEnable_kept {φ : Frame} {r : Req} {s : State} (hm : Sub 0x17efdce0fafc017a03dc φ.fx) (h1 : s.Kept φ) :
    OutKept φ (execPwmEnable r s) := by
  unfold execPwmEnable
  try dsimp only
  (repeat' first
    | with_reducible assumption
    | with_reducible exact Sub.of hm (by decide)
    | with_reducible apply runScs_kept
    | with_reducible apply specPwmEnable_kept
    | with_reducible apply kept_ite
    | with_reducible apply kept_foldl
    | with_reducible apply kept_foldl_fst
    | with_reducible apply outKept_next
    | with_reducible apply outKept_ite
    | simp only [kept_mk, true_or]
    | split
    | intro _)

theorem execAdcSeqConfig_kept {φ : Frame} {r : Req} {s : State} (hm : Sub 0x17efdce0fafc007a07dc φ.fx) (h1 : s.Kept φ)
    :
    OutKept φ (execAdcSeqConfig r s) := by
  unfold execAdcSeqConfig
  try dsimp only
  (repeat' first
    | with_reducible assumption
    | with_reducible exact Sub.of hm (by decide)
    | with_reducible apply runScs_kept
    | with_reducible apply specAdcSeqConfig_kept
    | with_reducible apply kept_ite
    | with_reducible apply kept_foldl
    | with_reducible apply kept_foldl_fst
    | with_reducible apply outKept_next
    | with_reducible apply outKept_ite
    | simp only [kept_mk, true_or]
    | split
    | intro _)

theorem execAdcRead_kept {φ : Frame} {r : Req} {s : State} (hm : Sub 0x17efdce0fafc007a03dc φ.fx) (h1 : s.Kept φ) :
    OutKept φ (execAdcRead r s) := by
  unfold execAdcRead
  try dsimp only
  (repeat' first
    | with_reducible assumption
    | with_reducible exact Sub.of hm (by decide)
    | with_reducible apply specAdcRead_kept
    | with_reducible apply runScs_kept
    | with_reducible apply kept_ite
    | with_reducible apply kept_foldl
    | with_reducible apply kept_foldl_fst
    | with_reducible apply outKept_next
    | with_reducible apply outKept_ite
    | simp only [kept_mk, true_or]
    | split
    | intro _)

theorem execCompConfig_kept {φ : Frame} {r : Req} {s : State} (hm : Sub 0x17efdce0fafc007a07dc φ.fx) (h1 : s.Kept φ) :
    OutKept φ (execCompConfig r s) := by
  unfold execCompConfig
  try dsimp only
  (repeat' first
    | with_reducible assumption
    | with_reducible exact Sub.of hm (by decide)
    | with_reducible apply runScs_kept
    | with_reducible apply specCompConfig_kept
    | with_reducible apply kept_ite
    | with_reducible apply kept_foldl
    | with_reducible apply kept_foldl_fst
    | with_reducible apply outKept_next
    | with_reducible apply outKept_ite
    | simp only [kept_mk, true_or]
    | split
    | intro _)

theorem execNodeConfig_kept {φ : Frame} {r : Req} {s : State} (hm : Sub 0x17efdce0fafc007a07dc φ.fx) (h1 : s.Kept φ) :
    OutKept φ (execNodeConfig r s) := by
  unfold execNodeConfig
  try dsimp only
  (repeat' first
    | with_reducible assumption
    | with_reducible exact Sub.of hm (by decide)
    | with_reducible apply specNodeConfig_kept
    | with_reducible apply runScs_kept
    | with_reducible apply kept_ite
    | with_reducible apply kept_foldl
    | with_reducible apply kept_foldl_fst
    | with_reducible apply outKept_next
    | with_reducible apply outKept_ite
    | simp only [kept_mk, true_or]
    | split
    | intro _)

theorem execNodeCoef_kept {φ : Frame} {r : Req} {s : State} (hm : Sub 0x17efdce0fafc007a07dc φ.fx) (h1 : s.Kept φ) :
    OutKept φ (execNodeCoef r s) := by
  unfold execNodeCoef
  try dsimp only
  (repeat' first
    | with_reducible assumption
    | with_reducible exact Sub.of hm (by decide)
    | with_reducible apply specNodeCoef_kept
    | with_reducible apply runScs_kept
    | with_reducible apply kept_ite
    | with_reducible apply kept_foldl
    | with_reducible apply kept_foldl_fst
    | with_reducible apply outKept_next
    | with_reducible apply outKept_ite
    | simp only [kept_mk, true_or]
    | split
    | intro _)

theorem execNodeState_kept {φ : Frame} {r : Req} {s : State} (hm : Sub 0x17efdce0fafc007a03dc φ.fx) (h1 : s.Kept φ) :
    OutKept φ (execNodeState r s) := by
  unfold execNodeState
  try dsimp only
  (repeat' first
    | with_reducible assumption
    | with_reducible exact Sub.of hm (by decide)
    | with_reducible apply specNodeState_kept
    | with_reducible apply runScs_kept
    | with_reducible apply kept_ite
    | with_reducible apply kept_foldl
    | with_reducible apply kept_foldl_fst
    | with_reducible apply outKept_next
    | with_reducible apply outKept_ite
    | simp only [kept_mk, true_or]
    | split
    | intro _)

theorem execNodeRead_kept {φ : Frame} {r : Req} {s : State} (hm : Sub 0x17efdce0fafc007a03dc φ.fx) (h1 : s.Kept φ) :
    OutKept φ (execNodeRead r s) := by
  unfold execNodeRead
  try dsimp only
  (repeat' first
    | with_reducible assumption
    | with_reducible exact Sub.of hm (by decide)
    | with_reducible apply runScs_kept
    | with_reducible apply specNodeRead_kept
    | with_reducible apply kept_ite
    | with_reducible apply kept_foldl
    | with_reducible apply kept_foldl_fst
    | with_reducible apply outKept_next
    | with_reducible apply outKept_ite
    | simp only [kept_mk, true_or]
    | split
    | intro _)

theorem execRefSet_kept {φ : Frame} {r : Req} {s : State} (hm : Sub 0x17efdce0fafc007a03dc φ.fx) (h1 : s.Kept φ) :
    OutKept φ (execRefSet r s) := by
  unfold execRefSet
  try dsimp only
  (repeat' first
    | with_reducible assumption
    | with_reducible exact Sub.of hm (by decide)
    | with_reducible apply runScs_kept
    | with_reducible apply specRefSet_kept
    | with_reducible apply kept_ite
    | with_reducible apply kept_foldl
    | with_reducible apply kept_foldl_fst
    | with_reducible apply outKept_next
    | with_reducible apply outKept_ite
    | simp only [kept_mk, true_or]
    | split
    | intro _)

theorem execSeqSwStart_kept {φ : Frame} {l : Lane} {who : Initiator} {mask : Nat} {s : State} (hm : Sub 0xc000000028
    φ.fx) (h1 : s.Kept φ) :
    OutKept φ (execSeqSwStart l who mask s) := by
  unfold execSeqSwStart
  try dsimp only
  (repeat' first
    | with_reducible assumption
    | with_reducible exact Sub.of hm (by decide)
    | with_reducible apply State.busOk_kept
    | with_reducible apply State.forEach_kept
    | with_reducible apply State.busErr_kept
    | with_reducible apply State.startSeq_kept
    | with_reducible apply kept_ite
    | with_reducible apply kept_foldl
    | with_reducible apply kept_foldl_fst
    | with_reducible apply outKept_next
    | with_reducible apply outKept_ite
    | simp only [kept_mk, true_or]
    | split
    | intro _)

theorem execPwmPeriodBoundary_kept {φ : Frame} {l : Lane} {k : Nat} {s : State} (hm : Sub 0x17efdce0fffc007a075c φ.fx)
    (h1 : s.Kept φ) :
    OutKept φ (execPwmPeriodBoundary l k s) := by
  unfold execPwmPeriodBoundary
  try dsimp only
  (repeat' first
    | with_reducible assumption
    | with_reducible exact Sub.of hm (by decide)
    | with_reducible apply State.pairBoundary_kept
    | with_reducible apply kept_ite
    | with_reducible apply kept_foldl
    | with_reducible apply kept_foldl_fst
    | with_reducible apply outKept_next
    | with_reducible apply outKept_ite
    | simp only [kept_mk, true_or]
    | split
    | intro _)

theorem execTriggerPosition_kept {φ : Frame} {l : Lane} {k : Nat} {b : Bool} {s : State} (hm : Sub 0xc000000008 φ.fx)
    (h1 : s.Kept φ) :
    OutKept φ (execTriggerPosition l k b s) := by
  unfold execTriggerPosition
  try dsimp only
  (repeat' first
    | with_reducible assumption
    | with_reducible exact Sub.of hm (by decide)
    | with_reducible apply State.startSeq_kept
    | with_reducible apply kept_ite
    | with_reducible apply kept_foldl
    | with_reducible apply kept_foldl_fst
    | with_reducible apply outKept_next
    | with_reducible apply outKept_ite
    | simp only [kept_mk, true_or]
    | split
    | intro _)

theorem State.groupDone_kept {φ : Frame} {s : State} {l : Lane} {q : Nat} {codes : List Nat} (hm : Sub 0xc000000008
    φ.fx) (h1 : s.Kept φ) :
    State.Kept φ (State.groupDone s l q codes) := by
  unfold State.groupDone
  try dsimp only
  (repeat' first
    | with_reducible assumption
    | with_reducible exact Sub.of hm (by decide)
    | with_reducible apply State.kick_kept
    | with_reducible apply State.setReg_kept
    | with_reducible apply State.setBitF_kept
    | with_reducible apply State.setSeqRt_kept
    | with_reducible apply State.startGroup_kept
    | with_reducible apply State.serveAdcs_kept
    | with_reducible apply State.forEach_kept
    | with_reducible apply kept_ite
    | with_reducible apply kept_foldl
    | with_reducible apply kept_foldl_fst
    | with_reducible apply outKept_next
    | with_reducible apply outKept_ite
    | simp only [kept_mk, true_or]
    | split
    | intro _)

theorem execAdcGroupComplete_kept {φ : Frame} {l : Lane} {q : Nat} {codes : List Nat} {s : State} (hm : Sub
    0xc000000008 φ.fx) (h1 : s.Kept φ) :
    OutKept φ (execAdcGroupComplete l q codes s) := by
  unfold execAdcGroupComplete
  try dsimp only
  (repeat' first
    | with_reducible assumption
    | with_reducible exact Sub.of hm (by decide)
    | with_reducible apply State.groupDone_kept
    | with_reducible apply kept_ite
    | with_reducible apply kept_foldl
    | with_reducible apply kept_foldl_fst
    | with_reducible apply outKept_next
    | with_reducible apply outKept_ite
    | simp only [kept_mk, true_or]
    | split
    | intro _)

theorem State.nodeExecute_kept {φ : Frame} {s : State} {l : Lane} {start : Nat} {i : Nat} (hm : Sub
    0x17efdce0fafc007a075c φ.fx) (h1 : s.Kept φ) :
    State.Kept φ (State.nodeExecute s l start i) := by
  unfold State.nodeExecute
  try dsimp only
  (repeat' first
    | with_reducible assumption
    | with_reducible exact Sub.of hm (by decide)
    | with_reducible apply State.runNode_kept
    | with_reducible apply State.setCvc_kept
    | with_reducible apply State.applyNodes_kept
    | with_reducible apply kept_ite
    | with_reducible apply kept_foldl
    | with_reducible apply kept_foldl_fst
    | with_reducible apply outKept_next
    | with_reducible apply outKept_ite
    | simp only [kept_mk, true_or]
    | split
    | intro _)

theorem execNodeExecute_kept {φ : Frame} {l : Lane} {i : Nat} {s : State} (hm : Sub 0x17efdce0fafc007a075c φ.fx) (h1 :
    s.Kept φ) :
    OutKept φ (execNodeExecute l i s) := by
  unfold execNodeExecute
  try dsimp only
  (repeat' first
    | with_reducible assumption
    | with_reducible exact Sub.of hm (by decide)
    | with_reducible apply State.nodeExecute_kept
    | with_reducible apply kept_ite
    | with_reducible apply kept_foldl
    | with_reducible apply kept_foldl_fst
    | with_reducible apply outKept_next
    | with_reducible apply outKept_ite
    | simp only [kept_mk, true_or]
    | split
    | intro _)

theorem execComparatorAssert_kept {φ : Frame} {l : Lane} {c : Nat} {out : Bool} {s : State} (hm : Sub 0x8 φ.fx) (h1 :
    s.Kept φ) :
    OutKept φ (execComparatorAssert l c out s) := by
  unfold execComparatorAssert
  try dsimp only
  (repeat' first
    | with_reducible assumption
    | with_reducible exact Sub.of hm (by decide)
    | with_reducible apply State.syncTrips_kept
    | with_reducible apply State.setBitF_kept
    | with_reducible apply kept_ite
    | with_reducible apply kept_foldl
    | with_reducible apply kept_foldl_fst
    | with_reducible apply outKept_next
    | with_reducible apply outKept_ite
    | simp only [kept_mk, true_or]
    | split
    | intro _)

theorem execTripInputAssert_kept {φ : Frame} {t : Nat} {on : Bool} {s : State} (hm : Sub 0x8 φ.fx) (h1 : s.Kept φ) :
    OutKept φ (execTripInputAssert t on s) := by
  unfold execTripInputAssert
  try dsimp only
  (repeat' first
    | with_reducible assumption
    | with_reducible exact Sub.of hm (by decide)
    | with_reducible apply State.syncTrips_kept
    | with_reducible apply State.setShFld_kept
    | with_reducible apply kept_ite
    | with_reducible apply kept_foldl
    | with_reducible apply kept_foldl_fst
    | with_reducible apply outKept_next
    | with_reducible apply outKept_ite
    | simp only [kept_mk, true_or]
    | split
    | intro _)

theorem execSelectorSwitch_kept {φ : Frame} {k : Nat} {s : State} (hm : Sub 0x14000050000000308 φ.fx) (h1 : s.Kept φ)
    :
    OutKept φ (execSelectorSwitch k s) := by
  unfold execSelectorSwitch
  try dsimp only
  (repeat' first
    | with_reducible assumption
    | with_reducible exact Sub.of hm (by decide)
    | with_reducible apply State.selBoundary_kept
    | with_reducible apply State.setSelBit_kept
    | with_reducible apply State.setSelSt_kept
    | with_reducible apply State.countShFld_kept
    | with_reducible apply kept_ite
    | with_reducible apply kept_foldl
    | with_reducible apply kept_foldl_fst
    | with_reducible apply outKept_next
    | with_reducible apply outKept_ite
    | simp only [kept_mk, true_or]
    | split
    | intro _)

theorem execStreamEnd_kept {φ : Frame} {l : Lane} {s : State} (hm : Sub 0x8 φ.fx) (h1 : s.Kept φ) :
    OutKept φ (execStreamEnd l s) := by
  unfold execStreamEnd
  try dsimp only
  (repeat' first
    | with_reducible assumption
    | with_reducible exact Sub.of hm (by decide)
    | with_reducible apply State.setSelSt_kept
    | with_reducible apply State.forEach_kept
    | with_reducible apply kept_ite
    | with_reducible apply kept_foldl
    | with_reducible apply kept_foldl_fst
    | with_reducible apply outKept_next
    | with_reducible apply outKept_ite
    | simp only [kept_mk, true_or]
    | split
    | intro _)

theorem execSafePatternTimeout_kept {φ : Frame} {k : Nat} {s : State} (hm : Sub 0x8 φ.fx) (h1 : s.Kept φ) :
    OutKept φ (execSafePatternTimeout k s) := by
  unfold execSafePatternTimeout
  try dsimp only
  (repeat' first
    | with_reducible assumption
    | with_reducible exact Sub.of hm (by decide)
    | with_reducible apply State.setSelSt_kept
    | with_reducible apply kept_ite
    | with_reducible apply kept_foldl
    | with_reducible apply kept_foldl_fst
    | with_reducible apply outKept_next
    | with_reducible apply outKept_ite
    | simp only [kept_mk, true_or]
    | split
    | intro _)

end Sys2Proof.Machine
end

