-- ==== Sys2Proof/Laws/KeptCommons.lean ====
section
/-! SUPPORT. The operations of Commons.lean keep the invariant, the queue and the time. -/

namespace Sys2Proof.Machine

theorem State.cmnSend_kept {φ : Frame} {s : State} {op : CmnOp} {lsn : Option Nat} (hm : Sub 0x80000000000 φ.fx) (h1 :
    s.Kept φ) :
    State.Kept φ (State.cmnSend s op lsn) := by
  unfold State.cmnSend
  try dsimp only
  (repeat' first
    | with_reducible assumption
    | with_reducible exact Sub.of hm (by decide)
    | with_reducible apply kept_ite
    | with_reducible apply kept_foldl
    | with_reducible apply kept_foldl_fst
    | with_reducible apply outKept_next
    | with_reducible apply outKept_ite
    | simp only [kept_mk, hm.bit 43 rfl, or_true, true_or]
    | split
    | intro _)

theorem State.doneOpt_kept {φ : Frame} {s : State} {a1 : Option Nat} (hm : Sub 0x14000000000000108 φ.fx) (h1 : s.Kept
    φ) :
    State.Kept φ (State.doneOpt s a1) := by
  unfold State.doneOpt
  try dsimp only
  (repeat' first
    | with_reducible assumption
    | with_reducible exact Sub.of hm (by decide)
    | with_reducible apply State.done_kept
    | with_reducible apply kept_ite
    | with_reducible apply kept_foldl
    | with_reducible apply kept_foldl_fst
    | with_reducible apply outKept_next
    | with_reducible apply outKept_ite
    | simp only [kept_mk, true_or]
    | split
    | intro _)

theorem State.disposeOpt_kept {φ : Frame} {s : State} {lsn : Option Nat} {disp : Nat} {err : Nat} (hm : Sub
    0x14000000000000108 φ.fx) (h1 : s.Kept φ) :
    State.Kept φ (State.disposeOpt s lsn disp err) := by
  unfold State.disposeOpt
  try dsimp only
  (repeat' first
    | with_reducible assumption
    | with_reducible exact Sub.of hm (by decide)
    | with_reducible apply State.dispose_kept
    | with_reducible apply kept_ite
    | with_reducible apply kept_foldl
    | with_reducible apply kept_foldl_fst
    | with_reducible apply outKept_next
    | with_reducible apply outKept_ite
    | simp only [kept_mk, true_or]
    | split
    | intro _)

theorem State.toDisq_kept {φ : Frame} {s : State} {l : Lane} {lsn : Option Nat} (hm : Sub 0x140000000001c0108 φ.fx)
    (h1 : s.Kept φ) :
    State.Kept φ (State.toDisq s l lsn) := by
  unfold State.toDisq
  try dsimp only
  (repeat' first
    | with_reducible assumption
    | with_reducible exact Sub.of hm (by decide)
    | with_reducible apply State.setLst_kept
    | with_reducible apply State.disposeOpt_kept
    | with_reducible apply State.doneOpt_kept
    | with_reducible apply kept_ite
    | with_reducible apply kept_foldl
    | with_reducible apply kept_foldl_fst
    | with_reducible apply outKept_next
    | with_reducible apply outKept_ite
    | simp only [kept_mk, hm.bit 18 rfl, or_true, true_or]
    | split
    | intro _)

theorem State.significant_kept {φ : Frame} {s : State} {l : Lane} {d : Die} {cyc : Nat} {record : Nat} {byte : Nat}
    (hm : Sub 0x140000000001c0108 φ.fx) (h1 : s.Kept φ) :
    State.Kept φ (State.significant s l d cyc record byte) := by
  unfold State.significant
  try dsimp only
  (repeat' first
    | with_reducible assumption
    | with_reducible exact Sub.of hm (by decide)
    | with_reducible apply State.toDisq_kept
    | with_reducible apply State.countBoth_kept
    | with_reducible apply State.setBitF_kept
    | with_reducible apply State.setLst_kept
    | with_reducible apply State.setBitBoth_kept
    | with_reducible apply State.setRegBoth_kept
    | with_reducible apply kept_ite
    | with_reducible apply kept_foldl
    | with_reducible apply kept_foldl_fst
    | with_reducible apply outKept_next
    | with_reducible apply outKept_ite
    | simp only [kept_mk, hm.bit 18 rfl, or_true, true_or]
    | split
    | intro _)

theorem State.sendElem_kept {φ : Frame} {s : State} {e : Nat} {w0 : Word} {w1 : Word} (hm : Sub 0x800000000000 φ.fx)
    (h1 : s.Kept φ) :
    State.Kept φ (State.sendElem s e w0 w1) := by
  unfold State.sendElem
  try dsimp only
  (repeat' first
    | with_reducible assumption
    | with_reducible exact Sub.of hm (by decide)
    | with_reducible apply kept_ite
    | with_reducible apply kept_foldl
    | with_reducible apply kept_foldl_fst
    | with_reducible apply outKept_next
    | with_reducible apply outKept_ite
    | simp only [kept_mk, hm.bit 47 rfl, or_true, true_or]
    | split
    | intro _)

end Sys2Proof.Machine
end

