-- ==== Sys2Proof/Laws/KeptCanBase.lean ====
section
/-! SUPPORT. The operations of CanBase.lean keep the invariant, the queue and the time. -/

namespace Sys2Proof.Machine

theorem State.setCanPort_kept {φ : Frame} {s : State} {m : Nat} {x : CanPort} (hm : Sub 0x400000000000 φ.fx) (h : s.Kept φ) :
    State.Kept φ (State.setCanPort s m x) :=
  kept_canPorts h (hm.bit 46 rfl) ((List.length_set ..).trans h.shape.canPorts)

theorem State.setCanRx_kept {φ : Frame} {s : State} {l : Lane} {m : Nat} {x : CanRx} (hm : Sub 0x300000000000 φ.fx) (h1 : s.Kept φ) :
    State.Kept φ (s.setCanRx l m x) := by
  cases l
  · exact kept_canRxE h1 (hm.bit 44 rfl) ((List.length_set ..).trans h1.shape.canRxE)
  · exact kept_canRxW h1 (hm.bit 45 rfl) ((List.length_set ..).trans h1.shape.canRxW)

theorem State.setLin_kept {φ : Frame} {s : State} {p : Nat} {x : LinRt} (hm : Sub 0x4000000000000 φ.fx) (h : s.Kept φ) :
    State.Kept φ (State.setLin s p x) :=
  kept_lins h (hm.bit 50 rfl) ((List.length_set ..).trans h.shape.lins)

theorem State.setCanTrx_kept {φ : Frame} {s : State} {n : Nat} {v : Nat} (hm : Sub 0x8 φ.fx) (h1 : s.Kept φ) :
    State.Kept φ (State.setCanTrx s n v) := by
  unfold State.setCanTrx
  try dsimp only
  (repeat' first
    | with_reducible assumption
    | with_reducible exact Sub.of hm (by decide)
    | with_reducible apply State.setShFld_kept
    | with_reducible apply kept_ite
    | with_reducible apply kept_foldl
    | with_reducible apply kept_foldl_fst
    | with_reducible apply outKept_next
    | with_reducible apply outKept_ite
    | simp only [kept_mk, true_or]
    | split
    | intro _)

theorem State.pduFail_kept {φ : Frame} {s : State} {i : Nat} (hm : Sub 0x200000000000000 φ.fx) (h1 : s.Kept φ) :
    State.Kept φ (State.pduFail s i) := by
  unfold State.pduFail
  try dsimp only
  (repeat' first
    | with_reducible assumption
    | with_reducible exact Sub.of hm (by decide)
    | with_reducible apply kept_ite
    | with_reducible apply kept_foldl
    | with_reducible apply kept_foldl_fst
    | with_reducible apply outKept_next
    | with_reducible apply outKept_ite
    | simp only [kept_mk, hm.bit 57 rfl, or_true, true_or]
    | split
    | intro _)

theorem State.canEnds_kept {φ : Frame} {s : State} {t : CanTx} {disp : Nat} {err : Nat} (hm : Sub 0x14200000000000108
    φ.fx) (h1 : s.Kept φ) :
    State.Kept φ (State.canEnds s t disp err) := by
  unfold State.canEnds
  try dsimp only
  (repeat' first
    | with_reducible assumption
    | with_reducible exact Sub.of hm (by decide)
    | with_reducible apply State.disposeOpt_kept
    | with_reducible apply State.pduFail_kept
    | with_reducible apply kept_ite
    | with_reducible apply kept_foldl
    | with_reducible apply kept_foldl_fst
    | with_reducible apply outKept_next
    | with_reducible apply outKept_ite
    | simp only [kept_mk, true_or]
    | split
    | intro _)

theorem State.canEndsAll_kept {φ : Frame} {s : State} {disp : Nat} {err : Nat} {a3 : List CanTx} (hm : Sub
    0x14200000000000108 φ.fx) (h1 : s.Kept φ) :
    State.Kept φ (State.canEndsAll s disp err a3) := by
  induction a3 generalizing s disp err with
  | nil =>
    unfold State.canEndsAll
    (repeat' first
    | with_reducible assumption
    | with_reducible exact Sub.of hm (by decide)
    | with_reducible apply State.canEnds_kept
    | with_reducible apply kept_ite
    | with_reducible apply kept_foldl
    | with_reducible apply kept_foldl_fst
    | with_reducible apply outKept_next
    | with_reducible apply outKept_ite
    | simp only [kept_mk, true_or]
    | split
    | intro _)
  | cons x xs ih =>
    unfold State.canEndsAll
    (repeat' first
    | with_reducible assumption
    | with_reducible exact Sub.of hm (by decide)
    | with_reducible apply State.canEnds_kept
    | with_reducible apply ih
    | with_reducible apply kept_ite
    | with_reducible apply kept_foldl
    | with_reducible apply kept_foldl_fst
    | with_reducible apply outKept_next
    | with_reducible apply outKept_ite
    | simp only [kept_mk, true_or]
    | split
    | intro _)

theorem State.syncFill_kept {φ : Frame} {s : State} {n : Nat} (hm : Sub 0x8 φ.fx) (h1 : s.Kept φ) :
    State.Kept φ (State.syncFill s n) := by
  unfold State.syncFill
  try dsimp only
  (repeat' first
    | with_reducible assumption
    | with_reducible exact Sub.of hm (by decide)
    | with_reducible apply State.setShFld_kept
    | with_reducible apply kept_ite
    | with_reducible apply kept_foldl
    | with_reducible apply kept_foldl_fst
    | with_reducible apply outKept_next
    | with_reducible apply outKept_ite
    | simp only [kept_mk, true_or]
    | split
    | intro _)

theorem State.dequeue_kept {φ : Frame} {s : State} {n : Nat} {seq : Nat} (hm : Sub 0x400000000008 φ.fx) (h1 : s.Kept
    φ) :
    State.Kept φ (State.dequeue s n seq) := by
  unfold State.dequeue
  try dsimp only
  (repeat' first
    | with_reducible assumption
    | with_reducible exact Sub.of hm (by decide)
    | with_reducible apply State.syncFill_kept
    | with_reducible apply State.setCanPort_kept
    | with_reducible apply kept_ite
    | with_reducible apply kept_foldl
    | with_reducible apply kept_foldl_fst
    | with_reducible apply outKept_next
    | with_reducible apply outKept_ite
    | simp only [kept_mk, true_or]
    | split
    | intro _)

theorem State.canEndQueue_kept {φ : Frame} {s : State} {n : Nat} {disp : Nat} {err : Nat} {heldToo : Bool} (hm : Sub
    0x14200400000000108 φ.fx) (h1 : s.Kept φ) :
    State.Kept φ (State.canEndQueue s n disp err heldToo) := by
  unfold State.canEndQueue
  try dsimp only
  (repeat' first
    | with_reducible assumption
    | with_reducible exact Sub.of hm (by decide)
    | with_reducible apply State.syncFill_kept
    | with_reducible apply State.setCanPort_kept
    | with_reducible apply State.canEndsAll_kept
    | with_reducible apply kept_ite
    | with_reducible apply kept_foldl
    | with_reducible apply kept_foldl_fst
    | with_reducible apply outKept_next
    | with_reducible apply outKept_ite
    | simp only [kept_mk, true_or]
    | split
    | intro _)

theorem State.canArb_kept {φ : Frame} {s : State} {n : Nat} {a2 : Nat} (hm : Sub 0x14200400000000108 φ.fx) (h1 :
    s.Kept φ) :
    State.Kept φ (State.canArb s n a2) := by
  induction a2 generalizing s n with
  | zero =>
    unfold State.canArb
    (repeat' first
    | with_reducible assumption
    | with_reducible exact Sub.of hm (by decide)
    | with_reducible apply State.setCanPort_kept
    | with_reducible apply State.canEnds_kept
    | with_reducible apply State.dequeue_kept
    | with_reducible apply kept_ite
    | with_reducible apply kept_foldl
    | with_reducible apply kept_foldl_fst
    | with_reducible apply outKept_next
    | with_reducible apply outKept_ite
    | simp only [kept_mk, true_or]
    | split
    | intro _)
  | succ k ih =>
    unfold State.canArb
    (repeat' first
    | with_reducible assumption
    | with_reducible exact Sub.of hm (by decide)
    | with_reducible apply State.setCanPort_kept
    | with_reducible apply State.canEnds_kept
    | with_reducible apply State.dequeue_kept
    | with_reducible apply ih
    | with_reducible apply kept_ite
    | with_reducible apply kept_foldl
    | with_reducible apply kept_foldl_fst
    | with_reducible apply outKept_next
    | with_reducible apply outKept_ite
    | simp only [kept_mk, true_or]
    | split
    | intro _)

theorem State.canStart_kept {φ : Frame} {s : State} {n : Nat} (hm : Sub 0x14200400000000108 φ.fx) (h1 : s.Kept φ) :
    State.Kept φ (State.canStart s n) := by
  unfold State.canStart
  try dsimp only
  (repeat' first
    | with_reducible assumption
    | with_reducible exact Sub.of hm (by decide)
    | with_reducible apply State.canArb_kept
    | with_reducible apply kept_ite
    | with_reducible apply kept_foldl
    | with_reducible apply kept_foldl_fst
    | with_reducible apply outKept_next
    | with_reducible apply outKept_ite
    | simp only [kept_mk, true_or]
    | split
    | intro _)

theorem State.canStartAll_kept {φ : Frame} {s : State} (hm : Sub 0x14200400000000108 φ.fx) (h1 : s.Kept φ) :
    State.Kept φ (State.canStartAll s) := by
  unfold State.canStartAll
  try dsimp only
  (repeat' first
    | with_reducible assumption
    | with_reducible exact Sub.of hm (by decide)
    | with_reducible apply State.canStart_kept
    | with_reducible apply State.forEach_kept
    | with_reducible apply kept_ite
    | with_reducible apply kept_foldl
    | with_reducible apply kept_foldl_fst
    | with_reducible apply outKept_next
    | with_reducible apply outKept_ite
    | simp only [kept_mk, true_or]
    | split
    | intro _)

theorem State.setCur_kept {φ : Frame} {s : State} {l : Lane} {n : Nat} {m : CanMsg} (hm : Sub 0x8 φ.fx) (h1 : s.Kept
    φ) :
    State.Kept φ (State.setCur s l n m) := by
  unfold State.setCur
  try dsimp only
  (repeat' first
    | with_reducible assumption
    | with_reducible exact Sub.of hm (by decide)
    | with_reducible apply State.setRegs_kept
    | with_reducible apply kept_ite
    | with_reducible apply kept_foldl
    | with_reducible apply kept_foldl_fst
    | with_reducible apply outKept_next
    | with_reducible apply outKept_ite
    | simp only [kept_mk, true_or]
    | split
    | intro _)

theorem State.syncRx_kept {φ : Frame} {s : State} {l : Lane} {n : Nat} (hm : Sub 0x8 φ.fx) (h1 : s.Kept φ) :
    State.Kept φ (State.syncRx s l n) := by
  unfold State.syncRx
  try dsimp only
  (repeat' first
    | with_reducible assumption
    | with_reducible exact Sub.of hm (by decide)
    | with_reducible apply State.setFld_kept
    | with_reducible apply State.setBitF_kept
    | with_reducible apply kept_ite
    | with_reducible apply kept_foldl
    | with_reducible apply kept_foldl_fst
    | with_reducible apply outKept_next
    | with_reducible apply outKept_ite
    | simp only [kept_mk, true_or]
    | split
    | intro _)

theorem State.rxIrq_kept {φ : Frame} {s : State} {l : Lane} {n : Nat} (hm : Sub 0x40 φ.fx) (h1 : s.Kept φ) :
    State.Kept φ (State.rxIrq s l n) := by
  unfold State.rxIrq
  try dsimp only
  (repeat' first
    | with_reducible assumption
    | with_reducible exact Sub.of hm (by decide)
    | with_reducible apply State.irq_kept
    | with_reducible apply kept_ite
    | with_reducible apply kept_foldl
    | with_reducible apply kept_foldl_fst
    | with_reducible apply outKept_next
    | with_reducible apply outKept_ite
    | simp only [kept_mk, true_or]
    | split
    | intro _)

theorem State.rxOffer_kept {φ : Frame} {s : State} {l : Lane} {n : Nat} {m : CanMsg} (hm : Sub 0x300000000048 φ.fx)
    (h1 : s.Kept φ) :
    State.Kept φ (State.rxOffer s l n m) := by
  unfold State.rxOffer
  try dsimp only
  (repeat' first
    | with_reducible assumption
    | with_reducible exact Sub.of hm (by decide)
    | with_reducible apply State.syncRx_kept
    | with_reducible apply State.setBitF_kept
    | with_reducible apply State.rxIrq_kept
    | with_reducible apply State.setCur_kept
    | with_reducible apply State.setCanRx_kept
    | with_reducible apply kept_ite
    | with_reducible apply kept_foldl
    | with_reducible apply kept_foldl_fst
    | with_reducible apply outKept_next
    | with_reducible apply outKept_ite
    | simp only [kept_mk, true_or]
    | split
    | intro _)

theorem State.rxDone_kept {φ : Frame} {s : State} {l : Lane} {n : Nat} (hm : Sub 0x300000000048 φ.fx) (h1 : s.Kept φ)
    :
    State.Kept φ (State.rxDone s l n) := by
  unfold State.rxDone
  try dsimp only
  (repeat' first
    | with_reducible assumption
    | with_reducible exact Sub.of hm (by decide)
    | with_reducible apply State.syncRx_kept
    | with_reducible apply State.setBitF_kept
    | with_reducible apply State.rxIrq_kept
    | with_reducible apply State.setCur_kept
    | with_reducible apply State.setCanRx_kept
    | with_reducible apply kept_ite
    | with_reducible apply kept_foldl
    | with_reducible apply kept_foldl_fst
    | with_reducible apply outKept_next
    | with_reducible apply outKept_ite
    | simp only [kept_mk, true_or]
    | split
    | intro _)

theorem State.harbPush_kept {φ : Frame} {s : State} {l : Lane} {x : HarbIn} (hm : Sub 0xc0000000000008 φ.fx) (h1 :
    s.Kept φ) :
    State.Kept φ (State.harbPush s l x) := by
  unfold State.harbPush
  try dsimp only
  (repeat' first
    | with_reducible assumption
    | with_reducible exact Sub.of hm (by decide)
    | with_reducible apply State.setBitF_kept
    | with_reducible apply kept_ite
    | with_reducible apply kept_foldl
    | with_reducible apply kept_foldl_fst
    | with_reducible apply outKept_next
    | with_reducible apply outKept_ite
    | simp only [kept_mk, hm.bit 54 rfl, hm.bit 55 rfl, or_true, true_or]
    | split
    | intro _)

theorem State.canDeliver_kept {φ : Frame} {s : State} {n : Nat} {m : CanMsg} {rx : Bool} {harb : Bool} (hm : Sub
    0xc2300000000048 φ.fx) (h1 : s.Kept φ) :
    State.Kept φ (State.canDeliver s n m rx harb) := by
  unfold State.canDeliver
  try dsimp only
  (repeat' first
    | with_reducible assumption
    | with_reducible exact Sub.of hm (by decide)
    | with_reducible apply State.harbPush_kept
    | with_reducible apply State.rxOffer_kept
    | with_reducible apply State.forEach_kept
    | with_reducible apply kept_ite
    | with_reducible apply kept_foldl
    | with_reducible apply kept_foldl_fst
    | with_reducible apply outKept_next
    | with_reducible apply outKept_ite
    | simp only [kept_mk, hm.bit 49 rfl, or_true, true_or]
    | split
    | intro _)

theorem State.harbDeliver_kept {φ : Frame} {s : State} {x : HarbIn} (hm : Sub 0x1c0000000000008 φ.fx) (h1 : s.Kept φ)
    :
    State.Kept φ (State.harbDeliver s x) := by
  unfold State.harbDeliver
  try dsimp only
  (repeat' first
    | with_reducible assumption
    | with_reducible exact Sub.of hm (by decide)
    | with_reducible apply State.harbPush_kept
    | with_reducible apply State.forEach_kept
    | with_reducible apply kept_ite
    | with_reducible apply kept_foldl
    | with_reducible apply kept_foldl_fst
    | with_reducible apply outKept_next
    | with_reducible apply outKept_ite
    | simp only [kept_mk, hm.bit 56 rfl, or_true, true_or]
    | split
    | intro _)

theorem State.canThaw_kept {φ : Frame} {s : State} (hm : Sub 0x143c2700000000148 φ.fx) (h1 : s.Kept φ) :
    State.Kept φ (State.canThaw s) := by
  unfold State.canThaw
  try dsimp only
  (repeat' first
    | with_reducible assumption
    | with_reducible exact Sub.of hm (by decide)
    | with_reducible apply State.harbDeliver_kept
    | with_reducible apply State.canStartAll_kept
    | with_reducible apply State.canDeliver_kept
    | with_reducible apply kept_ite
    | with_reducible apply kept_foldl
    | with_reducible apply kept_foldl_fst
    | with_reducible apply outKept_next
    | with_reducible apply outKept_ite
    | simp only [kept_mk, hm.bit 49 rfl, hm.bit 56 rfl, or_true, true_or]
    | split
    | intro _)

theorem State.setLinSt_kept {φ : Frame} {s : State} {p : Nat} {v : Nat} (hm : Sub 0x8 φ.fx) (h1 : s.Kept φ) :
    State.Kept φ (State.setLinSt s p v) := by
  unfold State.setLinSt
  try dsimp only
  (repeat' first
    | with_reducible assumption
    | with_reducible exact Sub.of hm (by decide)
    | with_reducible apply State.setShFld_kept
    | with_reducible apply kept_ite
    | with_reducible apply kept_foldl
    | with_reducible apply kept_foldl_fst
    | with_reducible apply outKept_next
    | with_reducible apply outKept_ite
    | simp only [kept_mk, true_or]
    | split
    | intro _)

theorem State.setInh_kept {φ : Frame} {s : State} {k : Nat} {b : Bool} (hm : Sub 0x800000 φ.fx) (h1 : s.Kept φ) :
    State.Kept φ (State.setInh s k b) := by
  unfold State.setInh
  try dsimp only
  (repeat' first
    | with_reducible assumption
    | with_reducible exact Sub.of hm (by decide)
    | with_reducible apply kept_ite
    | with_reducible apply kept_foldl
    | with_reducible apply kept_foldl_fst
    | with_reducible apply outKept_next
    | with_reducible apply outKept_ite
    | simp only [kept_mk, hm.bit 23 rfl, or_true, true_or]
    | split
    | intro _)

theorem State.inhAssert_kept {φ : Frame} {s : State} (hm : Sub 0x800000 φ.fx) (h1 : s.Kept φ) :
    State.Kept φ (State.inhAssert s) := by
  unfold State.inhAssert
  try dsimp only
  (repeat' first
    | with_reducible assumption
    | with_reducible exact Sub.of hm (by decide)
    | with_reducible apply State.forEach_kept
    | with_reducible apply State.setInh_kept
    | with_reducible apply kept_ite
    | with_reducible apply kept_foldl
    | with_reducible apply kept_foldl_fst
    | with_reducible apply outKept_next
    | with_reducible apply outKept_ite
    | simp only [kept_mk, true_or]
    | split
    | intro _)

theorem State.inhRelease_kept {φ : Frame} {s : State} {mine : Nat} (hm : Sub 0x800000 φ.fx) (h1 : s.Kept φ) :
    State.Kept φ (State.inhRelease s mine) := by
  unfold State.inhRelease
  try dsimp only
  (repeat' first
    | with_reducible assumption
    | with_reducible exact Sub.of hm (by decide)
    | with_reducible apply State.forEach_kept
    | with_reducible apply State.setInh_kept
    | with_reducible apply kept_ite
    | with_reducible apply kept_foldl
    | with_reducible apply kept_foldl_fst
    | with_reducible apply outKept_next
    | with_reducible apply outKept_ite
    | simp only [kept_mk, true_or]
    | split
    | intro _)

theorem State.canConfigured_kept {φ : Frame} {s : State} {n : Nat} (hm : Sub 0x14200400000000108 φ.fx) (h1 : s.Kept φ)
    :
    State.Kept φ (State.canConfigured s n) := by
  unfold State.canConfigured
  try dsimp only
  (repeat' first
    | with_reducible assumption
    | with_reducible exact Sub.of hm (by decide)
    | with_reducible apply State.canStart_kept
    | with_reducible apply State.setCanTrx_kept
    | with_reducible apply kept_ite
    | with_reducible apply kept_foldl
    | with_reducible apply kept_foldl_fst
    | with_reducible apply outKept_next
    | with_reducible apply outKept_ite
    | simp only [kept_mk, true_or]
    | split
    | intro _)

theorem State.linGoToSleep_kept {φ : Frame} {s : State} {p : Nat} (hm : Sub 0x88 φ.fx) (h1 : s.Kept φ) :
    State.Kept φ (State.linGoToSleep s p) := by
  unfold State.linGoToSleep
  try dsimp only
  (repeat' first
    | with_reducible assumption
    | with_reducible exact Sub.of hm (by decide)
    | with_reducible apply State.setLinSt_kept
    | with_reducible apply State.emit_kept
    | with_reducible apply kept_ite
    | with_reducible apply kept_foldl
    | with_reducible apply kept_foldl_fst
    | with_reducible apply outKept_next
    | with_reducible apply outKept_ite
    | simp only [kept_mk, true_or]
    | split
    | intro _)

theorem State.linPulse_kept {φ : Frame} {s : State} {p : Nat} (hm : Sub 0x4000000000088 φ.fx) (h1 : s.Kept φ) :
    State.Kept φ (State.linPulse s p) := by
  unfold State.linPulse
  try dsimp only
  (repeat' first
    | with_reducible assumption
    | with_reducible exact Sub.of hm (by decide)
    | with_reducible apply State.setLin_kept
    | with_reducible apply State.setLinSt_kept
    | with_reducible apply State.emit_kept
    | with_reducible apply kept_ite
    | with_reducible apply kept_foldl
    | with_reducible apply kept_foldl_fst
    | with_reducible apply outKept_next
    | with_reducible apply outKept_ite
    | simp only [kept_mk, true_or]
    | split
    | intro _)

end Sys2Proof.Machine
end

