-- ==== Sys2Proof/Laws/KeptNms.lean ====
section
/-! SUPPORT. The operations of Nms.lean keep the invariant, the queue and the time. -/

namespace Sys2Proof.Machine

theorem State.setCove_kept {φ : Frame} {s : State} {c : Nat} {x : CoveRt} (hm : Sub 0x2000000000000000 φ.fx) (h1 :
    s.Kept φ) :
    State.Kept φ (State.setCove s c x) := by
  unfold State.setCove
  try dsimp only
  (repeat' first
    | with_reducible assumption
    | with_reducible exact Sub.of hm (by decide)
    | with_reducible apply kept_ite
    | with_reducible apply kept_foldl
    | with_reducible apply kept_foldl_fst
    | with_reducible apply outKept_next
    | with_reducible apply outKept_ite
    | simp only [kept_mk, hm.bit 61 rfl, or_true, true_or]
    | split
    | intro _)

theorem State.setCoveSt_kept {φ : Frame} {s : State} {c : Nat} {v : Nat} (hm : Sub 0x8 φ.fx) (h1 : s.Kept φ) :
    State.Kept φ (State.setCoveSt s c v) := by
  unfold State.setCoveSt
  try dsimp only
  (repeat' first
    | with_reducible assumption
    | with_reducible exact Sub.of hm (by decide)
    | with_reducible apply State.setShFld_kept
    | with_reducible apply kept_ite
    | with_reducible apply kept_foldl
    | with_reducible apply kept_foldl_fst
    | with_reducible apply outKept_next
    | with_reducible apply outKept_ite
    | simp only [kept_mk, true_or]
    | split
    | intro _)

theorem State.setCoveReq_kept {φ : Frame} {s : State} {c : Nat} {b : Bool} (hm : Sub 0x8 φ.fx) (h1 : s.Kept φ) :
    State.Kept φ (State.setCoveReq s c b) := by
  unfold State.setCoveReq
  try dsimp only
  (repeat' first
    | with_reducible assumption
    | with_reducible exact Sub.of hm (by decide)
    | with_reducible apply State.setShBit_kept
    | with_reducible apply kept_ite
    | with_reducible apply kept_foldl
    | with_reducible apply kept_foldl_fst
    | with_reducible apply outKept_next
    | with_reducible apply outKept_ite
    | simp only [kept_mk, true_or]
    | split
    | intro _)

theorem State.nmsLog_kept {φ : Frame} {s : State} {c : Nat} {src : Nat} {refusal : Bool} {hop : Bool} (hm : Sub 0x8
    φ.fx) (h1 : s.Kept φ) :
    State.Kept φ (State.nmsLog s c src refusal hop) := by
  unfold State.nmsLog
  try dsimp only
  (repeat' first
    | with_reducible assumption
    | with_reducible exact Sub.of hm (by decide)
    | with_reducible apply State.countSh_kept
    | with_reducible apply State.setRegs_kept
    | with_reducible apply kept_ite
    | with_reducible apply kept_foldl
    | with_reducible apply kept_foldl_fst
    | with_reducible apply outKept_next
    | with_reducible apply outKept_ite
    | simp only [kept_mk, true_or]
    | split
    | intro _)

theorem State.duskFrame_kept {φ : Frame} {s : State} {c : Nat} {mac : Bool} {id : Nat} (hm : Sub 0x8 φ.fx) (h1 :
    s.Kept φ) :
    State.Kept φ (State.duskFrame s c mac id) := by
  unfold State.duskFrame
  try dsimp only
  (repeat' first
    | with_reducible assumption
    | with_reducible exact Sub.of hm (by decide)
    | with_reducible apply State.nmsLog_kept
    | with_reducible apply State.setShFld_kept
    | with_reducible apply kept_ite
    | with_reducible apply kept_foldl
    | with_reducible apply kept_foldl_fst
    | with_reducible apply outKept_next
    | with_reducible apply outKept_ite
    | simp only [kept_mk, true_or]
    | split
    | intro _)

theorem State.ringSend_kept {φ : Frame} {s : State} {c : Nat} {ty : Nat} (hm : Sub 0x80 φ.fx) (h1 : s.Kept φ) :
    State.Kept φ (State.ringSend s c ty) := by
  unfold State.ringSend
  try dsimp only
  (repeat' first
    | with_reducible assumption
    | with_reducible exact Sub.of hm (by decide)
    | with_reducible apply State.emit_kept
    | with_reducible apply kept_ite
    | with_reducible apply kept_foldl
    | with_reducible apply kept_foldl_fst
    | with_reducible apply outKept_next
    | with_reducible apply outKept_ite
    | simp only [kept_mk, true_or]
    | split
    | intro _)

theorem State.curfewFail_kept {φ : Frame} {s : State} {c : Nat} {err : Nat} (hm : Sub 0x16000000000000108 φ.fx) (h1 :
    s.Kept φ) :
    State.Kept φ (State.curfewFail s c err) := by
  unfold State.curfewFail
  try dsimp only
  (repeat' first
    | with_reducible assumption
    | with_reducible exact Sub.of hm (by decide)
    | with_reducible apply State.disposeAll_kept
    | with_reducible apply kept_ite
    | with_reducible apply kept_foldl
    | with_reducible apply kept_foldl_fst
    | with_reducible apply outKept_next
    | with_reducible apply outKept_ite
    | simp only [kept_mk, hm.bit 61 rfl, or_true, true_or]
    | split
    | intro _)

theorem State.withdrawReq_kept {φ : Frame} {s : State} {c : Nat} {err : Nat} (hm : Sub 0x16000000000000108 φ.fx) (h1 :
    s.Kept φ) :
    State.Kept φ (State.withdrawReq s c err) := by
  unfold State.withdrawReq
  try dsimp only
  (repeat' first
    | with_reducible assumption
    | with_reducible exact Sub.of hm (by decide)
    | with_reducible apply State.setCoveReq_kept
    | with_reducible apply State.curfewFail_kept
    | with_reducible apply kept_ite
    | with_reducible apply kept_foldl
    | with_reducible apply kept_foldl_fst
    | with_reducible apply outKept_next
    | with_reducible apply outKept_ite
    | simp only [kept_mk, true_or]
    | split
    | intro _)

theorem State.standReq_kept {φ : Frame} {s : State} {c : Nat} (hm : Sub 0x2000000000000008 φ.fx) (h1 : s.Kept φ) :
    State.Kept φ (State.standReq s c) := by
  unfold State.standReq
  try dsimp only
  (repeat' first
    | with_reducible assumption
    | with_reducible exact Sub.of hm (by decide)
    | with_reducible apply State.setCoveReq_kept
    | with_reducible apply State.setShFld_kept
    | with_reducible apply State.setCove_kept
    | with_reducible apply kept_ite
    | with_reducible apply kept_foldl
    | with_reducible apply kept_foldl_fst
    | with_reducible apply outKept_next
    | with_reducible apply outKept_ite
    | simp only [kept_mk, true_or]
    | split
    | intro _)

theorem State.ringFailed_kept {φ : Frame} {s : State} {c : Nat} (hm : Sub 0x16000000000000108 φ.fx) (h1 : s.Kept φ) :
    State.Kept φ (State.ringFailed s c) := by
  unfold State.ringFailed
  try dsimp only
  (repeat' first
    | with_reducible assumption
    | with_reducible exact Sub.of hm (by decide)
    | with_reducible apply State.withdrawReq_kept
    | with_reducible apply State.countShFld_kept
    | with_reducible apply kept_ite
    | with_reducible apply kept_foldl
    | with_reducible apply kept_foldl_fst
    | with_reducible apply outKept_next
    | with_reducible apply outKept_ite
    | simp only [kept_mk, true_or]
    | split
    | intro _)

theorem State.linResume_kept {φ : Frame} {s : State} {c : Nat} (hm : Sub 0x4000000000088 φ.fx) (h1 : s.Kept φ) :
    State.Kept φ (State.linResume s c) := by
  unfold State.linResume
  try dsimp only
  (repeat' first
    | with_reducible assumption
    | with_reducible exact Sub.of hm (by decide)
    | with_reducible apply State.forEach_kept
    | with_reducible apply State.linPulse_kept
    | with_reducible apply kept_ite
    | with_reducible apply kept_foldl
    | with_reducible apply kept_foldl_fst
    | with_reducible apply outKept_next
    | with_reducible apply outKept_ite
    | simp only [kept_mk, true_or]
    | split
    | intro _)

theorem State.duskAbort_kept {φ : Frame} {s : State} {c : Nat} (hm : Sub 0x16004000000000188 φ.fx) (h1 : s.Kept φ) :
    State.Kept φ (State.duskAbort s c) := by
  unfold State.duskAbort
  try dsimp only
  (repeat' first
    | with_reducible assumption
    | with_reducible exact Sub.of hm (by decide)
    | with_reducible apply State.ringSend_kept
    | with_reducible apply State.linResume_kept
    | with_reducible apply State.ringFailed_kept
    | with_reducible apply State.setCove_kept
    | with_reducible apply State.countSh_kept
    | with_reducible apply State.setCoveSt_kept
    | with_reducible apply kept_ite
    | with_reducible apply kept_foldl
    | with_reducible apply kept_foldl_fst
    | with_reducible apply outKept_next
    | with_reducible apply outKept_ite
    | simp only [kept_mk, true_or]
    | split
    | intro _)

theorem State.syncWakes_kept {φ : Frame} {s : State} (hm : Sub 0x16000000000000108 φ.fx) (h1 : s.Kept φ) :
    State.Kept φ (State.syncWakes s) := by
  unfold State.syncWakes
  try dsimp only
  (repeat' first
    | with_reducible assumption
    | with_reducible exact Sub.of hm (by decide)
    | with_reducible apply State.done_kept
    | with_reducible apply State.forEach_kept
    | with_reducible apply kept_ite
    | with_reducible apply kept_foldl
    | with_reducible apply kept_foldl_fst
    | with_reducible apply outKept_next
    | with_reducible apply outKept_ite
    | simp only [kept_mk, hm.bit 61 rfl, or_true, true_or]
    | split
    | intro _)

theorem State.beginWake_kept {φ : Frame} {s : State} {c : Nat} (hm : Sub 0x14204400000800188 φ.fx) (h1 : s.Kept φ) :
    State.Kept φ (State.beginWake s c) := by
  unfold State.beginWake
  try dsimp only
  (repeat' first
    | with_reducible assumption
    | with_reducible exact Sub.of hm (by decide)
    | with_reducible apply State.inhAssert_kept
    | with_reducible apply State.canConfigured_kept
    | with_reducible apply State.setShFld_kept
    | with_reducible apply State.forEach_kept
    | with_reducible apply State.linPulse_kept
    | with_reducible apply State.setCoveSt_kept
    | with_reducible apply State.emit_kept
    | with_reducible apply kept_ite
    | with_reducible apply kept_foldl
    | with_reducible apply kept_foldl_fst
    | with_reducible apply outKept_next
    | with_reducible apply outKept_ite
    | simp only [kept_mk, true_or]
    | split
    | intro _)

theorem State.wakeOne_kept {φ : Frame} {s : State} {c : Nat} (hm : Sub 0x14204400000800188 φ.fx) (h1 : s.Kept φ) :
    State.Kept φ (State.wakeOne s c) := by
  unfold State.wakeOne
  try dsimp only
  (repeat' first
    | with_reducible assumption
    | with_reducible exact Sub.of hm (by decide)
    | with_reducible apply State.beginWake_kept
    | with_reducible apply State.setShFld_kept
    | with_reducible apply kept_ite
    | with_reducible apply kept_foldl
    | with_reducible apply kept_foldl_fst
    | with_reducible apply outKept_next
    | with_reducible apply outKept_ite
    | simp only [kept_mk, true_or]
    | split
    | intro _)

theorem State.noteWake_kept {φ : Frame} {s : State} (hm : Sub 0x40000 φ.fx) (h1 : s.Kept φ) :
    State.Kept φ (State.noteWake s) := by
  unfold State.noteWake
  try dsimp only
  (repeat' first
    | with_reducible assumption
    | with_reducible exact Sub.of hm (by decide)
    | with_reducible apply kept_ite
    | with_reducible apply kept_foldl
    | with_reducible apply kept_foldl_fst
    | with_reducible apply outKept_next
    | with_reducible apply outKept_ite
    | simp only [kept_mk, hm.bit 18 rfl, or_true, true_or]
    | split
    | intro _)

theorem State.wakeCove_kept {φ : Frame} {s : State} {c : Nat} (hm : Sub 0x14204400000840188 φ.fx) (h1 : s.Kept φ) :
    State.Kept φ (State.wakeCove s c) := by
  unfold State.wakeCove
  try dsimp only
  (repeat' first
    | with_reducible assumption
    | with_reducible exact Sub.of hm (by decide)
    | with_reducible apply State.setShBit_kept
    | with_reducible apply State.wakeOne_kept
    | with_reducible apply State.noteWake_kept
    | with_reducible apply State.setShFld_kept
    | with_reducible apply State.forEach_kept
    | with_reducible apply kept_ite
    | with_reducible apply kept_foldl
    | with_reducible apply kept_foldl_fst
    | with_reducible apply outKept_next
    | with_reducible apply outKept_ite
    | simp only [kept_mk, true_or]
    | split
    | intro _)

theorem State.wakeOrDusk_kept {φ : Frame} {s : State} {c : Nat} (hm : Sub 0x16204400000840188 φ.fx) (h1 : s.Kept φ) :
    State.Kept φ (State.wakeOrDusk s c) := by
  unfold State.wakeOrDusk
  try dsimp only
  (repeat' first
    | with_reducible assumption
    | with_reducible exact Sub.of hm (by decide)
    | with_reducible apply State.duskAbort_kept
    | with_reducible apply State.wakeCove_kept
    | with_reducible apply kept_ite
    | with_reducible apply kept_foldl
    | with_reducible apply kept_foldl_fst
    | with_reducible apply outKept_next
    | with_reducible apply outKept_ite
    | simp only [kept_mk, true_or]
    | split
    | intro _)

theorem State.portWake_kept {φ : Frame} {s : State} {q : Nat} (hm : Sub 0x16204400000840188 φ.fx) (h1 : s.Kept φ) :
    State.Kept φ (State.portWake s q) := by
  unfold State.portWake
  try dsimp only
  (repeat' first
    | with_reducible assumption
    | with_reducible exact Sub.of hm (by decide)
    | with_reducible apply State.inhAssert_kept
    | with_reducible apply State.noteWake_kept
    | with_reducible apply State.canConfigured_kept
    | with_reducible apply State.wakeOrDusk_kept
    | with_reducible apply kept_ite
    | with_reducible apply kept_foldl
    | with_reducible apply kept_foldl_fst
    | with_reducible apply outKept_next
    | with_reducible apply outKept_ite
    | simp only [kept_mk, true_or]
    | split
    | intro _)

theorem State.frameSeen_kept {φ : Frame} {s : State} {q : Nat} {mac : Bool} {id : Nat} {ringMsg : Bool} (hm : Sub
    0x16004000000000188 φ.fx) (h1 : s.Kept φ) :
    State.Kept φ (State.frameSeen s q mac id ringMsg) := by
  unfold State.frameSeen
  try dsimp only
  (repeat' first
    | with_reducible assumption
    | with_reducible exact Sub.of hm (by decide)
    | with_reducible apply State.duskAbort_kept
    | with_reducible apply State.duskFrame_kept
    | with_reducible apply kept_ite
    | with_reducible apply kept_foldl
    | with_reducible apply kept_foldl_fst
    | with_reducible apply outKept_next
    | with_reducible apply outKept_ite
    | simp only [kept_mk, true_or]
    | split
    | intro _)

theorem State.syncKeep_kept {φ : Frame} {s : State} {c : Nat} (hm : Sub 0x8 φ.fx) (h1 : s.Kept φ) :
    State.Kept φ (State.syncKeep s c) := by
  unfold State.syncKeep
  try dsimp only
  (repeat' first
    | with_reducible assumption
    | with_reducible exact Sub.of hm (by decide)
    | with_reducible apply State.setShFld_kept
    | with_reducible apply kept_ite
    | with_reducible apply kept_foldl
    | with_reducible apply kept_foldl_fst
    | with_reducible apply outKept_next
    | with_reducible apply outKept_ite
    | simp only [kept_mk, true_or]
    | split
    | intro _)

theorem State.vote_kept {φ : Frame} {s : State} {c : Nat} {q : Nat} {set : Bool} (hm : Sub 0x16004000000000188 φ.fx)
    (h1 : s.Kept φ) :
    State.Kept φ (State.vote s c q set) := by
  unfold State.vote
  try dsimp only
  (repeat' first
    | with_reducible assumption
    | with_reducible exact Sub.of hm (by decide)
    | with_reducible apply State.ringSend_kept
    | with_reducible apply State.duskAbort_kept
    | with_reducible apply State.syncKeep_kept
    | with_reducible apply State.syncWakes_kept
    | with_reducible apply State.withdrawReq_kept
    | with_reducible apply State.setCove_kept
    | with_reducible apply State.countShFld_kept
    | with_reducible apply State.setCoveSt_kept
    | with_reducible apply kept_ite
    | with_reducible apply kept_foldl
    | with_reducible apply kept_foldl_fst
    | with_reducible apply outKept_next
    | with_reducible apply outKept_ite
    | simp only [kept_mk, true_or]
    | split
    | intro _)

theorem State.dropVotes_kept {φ : Frame} {s : State} {q : Nat} (hm : Sub 0x16004000000000188 φ.fx) (h1 : s.Kept φ) :
    State.Kept φ (State.dropVotes s q) := by
  unfold State.dropVotes
  try dsimp only
  (repeat' first
    | with_reducible assumption
    | with_reducible exact Sub.of hm (by decide)
    | with_reducible apply State.vote_kept
    | with_reducible apply State.forEach_kept
    | with_reducible apply kept_ite
    | with_reducible apply kept_foldl
    | with_reducible apply kept_foldl_fst
    | with_reducible apply outKept_next
    | with_reducible apply outKept_ite
    | simp only [kept_mk, true_or]
    | split
    | intro _)

theorem State.applyCurfew_kept {φ : Frame} {s : State} {mask : Nat} {lsn : Option Nat} (hm : Sub 0x16000000000000108
    φ.fx) (h1 : s.Kept φ) :
    State.Kept φ (State.applyCurfew s mask lsn) := by
  unfold State.applyCurfew
  try dsimp only
  (repeat' first
    | with_reducible assumption
    | with_reducible exact Sub.of hm (by decide)
    | with_reducible apply State.standReq_kept
    | with_reducible apply State.done_kept
    | with_reducible apply State.forEach_kept
    | with_reducible apply kept_ite
    | with_reducible apply kept_foldl
    | with_reducible apply kept_foldl_fst
    | with_reducible apply outKept_next
    | with_reducible apply outKept_ite
    | simp only [kept_mk, hm.bit 61 rfl, or_true, true_or]
    | split
    | intro _)

theorem State.applyNmsWake_kept {φ : Frame} {s : State} {mask : Nat} {lsn : Option Nat} (hm : Sub 0x16204400000840188
    φ.fx) (h1 : s.Kept φ) :
    State.Kept φ (State.applyNmsWake s mask lsn) := by
  unfold State.applyNmsWake
  try dsimp only
  (repeat' first
    | with_reducible assumption
    | with_reducible exact Sub.of hm (by decide)
    | with_reducible apply State.syncWakes_kept
    | with_reducible apply State.withdrawReq_kept
    | with_reducible apply State.wakeOrDusk_kept
    | with_reducible apply State.forEach_kept
    | with_reducible apply kept_ite
    | with_reducible apply kept_foldl
    | with_reducible apply kept_foldl_fst
    | with_reducible apply outKept_next
    | with_reducible apply outKept_ite
    | simp only [kept_mk, hm.bit 61 rfl, or_true, true_or]
    | split
    | intro _)

theorem State.applyKeep_kept {φ : Frame} {s : State} {mask : Nat} {quota : Nat} {set : Bool} {lsn : Option Nat} (hm :
    Sub 0x16004000000000188 φ.fx) (h1 : s.Kept φ) :
    State.Kept φ (State.applyKeep s mask quota set lsn) := by
  unfold State.applyKeep
  try dsimp only
  (repeat' first
    | with_reducible assumption
    | with_reducible exact Sub.of hm (by decide)
    | with_reducible apply State.vote_kept
    | with_reducible apply State.forEach_kept
    | with_reducible apply State.doneOpt_kept
    | with_reducible apply kept_ite
    | with_reducible apply kept_foldl
    | with_reducible apply kept_foldl_fst
    | with_reducible apply outKept_next
    | with_reducible apply outKept_ite
    | simp only [kept_mk, true_or]
    | split
    | intro _)

theorem State.beginDusk_kept {φ : Frame} {s : State} {c : Nat} (hm : Sub 0x16004000000000188 φ.fx) (h1 : s.Kept φ) :
    State.Kept φ (State.beginDusk s c) := by
  unfold State.beginDusk
  try dsimp only
  (repeat' first
    | with_reducible assumption
    | with_reducible exact Sub.of hm (by decide)
    | with_reducible apply State.ringSend_kept
    | with_reducible apply State.linGoToSleep_kept
    | with_reducible apply State.duskAbort_kept
    | with_reducible apply State.syncWakes_kept
    | with_reducible apply State.countSh_kept
    | with_reducible apply State.forEach_kept
    | with_reducible apply State.setCoveSt_kept
    | with_reducible apply kept_ite
    | with_reducible apply kept_foldl
    | with_reducible apply kept_foldl_fst
    | with_reducible apply outKept_next
    | with_reducible apply outKept_ite
    | simp only [kept_mk, true_or]
    | split
    | intro _)

theorem State.ringStart_kept {φ : Frame} {s : State} {c : Nat} (hm : Sub 0x16004000000000188 φ.fx) (h1 : s.Kept φ) :
    State.Kept φ (State.ringStart s c) := by
  unfold State.ringStart
  try dsimp only
  (repeat' first
    | with_reducible assumption
    | with_reducible exact Sub.of hm (by decide)
    | with_reducible apply State.ringSend_kept
    | with_reducible apply State.beginDusk_kept
    | with_reducible apply State.setShFld_kept
    | with_reducible apply State.setCove_kept
    | with_reducible apply State.countSh_kept
    | with_reducible apply State.setCoveSt_kept
    | with_reducible apply kept_ite
    | with_reducible apply kept_foldl
    | with_reducible apply kept_foldl_fst
    | with_reducible apply outKept_next
    | with_reducible apply outKept_ite
    | simp only [kept_mk, true_or]
    | split
    | intro _)

theorem execRingStart_kept {φ : Frame} {c : Nat} {s : State} (hm : Sub 0x16004000000000188 φ.fx) (h1 : s.Kept φ) :
    OutKept φ (execRingStart c s) := by
  unfold execRingStart
  try dsimp only
  (repeat' first
    | with_reducible assumption
    | with_reducible exact Sub.of hm (by decide)
    | with_reducible apply State.ringStart_kept
    | with_reducible apply kept_ite
    | with_reducible apply kept_foldl
    | with_reducible apply kept_foldl_fst
    | with_reducible apply outKept_next
    | with_reducible apply outKept_ite
    | simp only [kept_mk, true_or]
    | split
    | intro _)

theorem execRingRetry_kept {φ : Frame} {c : Nat} {s : State} (hm : Sub 0x16004000000000188 φ.fx) (h1 : s.Kept φ) :
    OutKept φ (execRingRetry c s) := by
  unfold execRingRetry
  try dsimp only
  (repeat' first
    | with_reducible assumption
    | with_reducible exact Sub.of hm (by decide)
    | with_reducible apply State.ringStart_kept
    | with_reducible apply State.setCove_kept
    | with_reducible apply kept_ite
    | with_reducible apply kept_foldl
    | with_reducible apply kept_foldl_fst
    | with_reducible apply outKept_next
    | with_reducible apply outKept_ite
    | simp only [kept_mk, true_or]
    | split
    | intro _)

theorem State.ringEnds_kept {φ : Frame} {s : State} {c : Nat} (hm : Sub 0x16000000000000188 φ.fx) (h1 : s.Kept φ) :
    State.Kept φ (State.ringEnds s c) := by
  unfold State.ringEnds
  try dsimp only
  (repeat' first
    | with_reducible assumption
    | with_reducible exact Sub.of hm (by decide)
    | with_reducible apply State.ringSend_kept
    | with_reducible apply State.ringFailed_kept
    | with_reducible apply State.syncWakes_kept
    | with_reducible apply State.setCove_kept
    | with_reducible apply State.setCoveSt_kept
    | with_reducible apply kept_ite
    | with_reducible apply kept_foldl
    | with_reducible apply kept_foldl_fst
    | with_reducible apply outKept_next
    | with_reducible apply outKept_ite
    | simp only [kept_mk, true_or]
    | split
    | intro _)

theorem State.ringIgnored_kept {φ : Frame} {s : State} (hm : Sub 0x2000000000000000 φ.fx) (h1 : s.Kept φ) :
    State.Kept φ (State.ringIgnored s) := by
  unfold State.ringIgnored
  try dsimp only
  (repeat' first
    | with_reducible assumption
    | with_reducible exact Sub.of hm (by decide)
    | with_reducible apply kept_ite
    | with_reducible apply kept_foldl
    | with_reducible apply kept_foldl_fst
    | with_reducible apply outKept_next
    | with_reducible apply outKept_ite
    | simp only [kept_mk, hm.bit 61 rfl, or_true, true_or]
    | split
    | intro _)

theorem execRingMessage_kept {φ : Frame} {c : Nat} {q : Nat} {ty : Nat} {ring : Nat} {pos : Nat} {src : Nat} {reason :
    Nat} {crcOk : Bool} {s : State} (hm : Sub 0x16004000000000188 φ.fx) (h1 : s.Kept φ) :
    OutKept φ (execRingMessage c q ty ring pos src reason crcOk s) := by
  unfold execRingMessage
  try dsimp only
  (repeat' first
    | with_reducible assumption
    | with_reducible exact Sub.of hm (by decide)
    | with_reducible apply State.nmsLog_kept
    | with_reducible apply State.duskAbort_kept
    | with_reducible apply State.ringStart_kept
    | with_reducible apply State.beginDusk_kept
    | with_reducible apply State.ringIgnored_kept
    | with_reducible apply State.setShFld_kept
    | with_reducible apply State.setCove_kept
    | with_reducible apply State.countSh_kept
    | with_reducible apply State.ringEnds_kept
    | with_reducible apply kept_ite
    | with_reducible apply kept_foldl
    | with_reducible apply kept_foldl_fst
    | with_reducible apply outKept_next
    | with_reducible apply outKept_ite
    | simp only [kept_mk, true_or]
    | split
    | intro _)

theorem execHopTimeout_kept {φ : Frame} {c : Nat} {s : State} (hm : Sub 0x16000000000000188 φ.fx) (h1 : s.Kept φ) :
    OutKept φ (execHopTimeout c s) := by
  unfold execHopTimeout
  try dsimp only
  (repeat' first
    | with_reducible assumption
    | with_reducible exact Sub.of hm (by decide)
    | with_reducible apply State.nmsLog_kept
    | with_reducible apply State.countSh_kept
    | with_reducible apply State.ringEnds_kept
    | with_reducible apply kept_ite
    | with_reducible apply kept_foldl
    | with_reducible apply kept_foldl_fst
    | with_reducible apply outKept_next
    | with_reducible apply outKept_ite
    | simp only [kept_mk, true_or]
    | split
    | intro _)

theorem execDuskEvent_kept {φ : Frame} {c : Nat} {frame : Option (Bool × Nat)} {s : State} (hm : Sub
    0x16004000000000188 φ.fx) (h1 : s.Kept φ) :
    OutKept φ (execDuskEvent c frame s) := by
  unfold execDuskEvent
  try dsimp only
  (repeat' first
    | with_reducible assumption
    | with_reducible exact Sub.of hm (by decide)
    | with_reducible apply State.duskAbort_kept
    | with_reducible apply State.syncWakes_kept
    | with_reducible apply State.duskFrame_kept
    | with_reducible apply kept_ite
    | with_reducible apply kept_foldl
    | with_reducible apply kept_foldl_fst
    | with_reducible apply outKept_next
    | with_reducible apply outKept_ite
    | simp only [kept_mk, true_or]
    | split
    | intro _)

theorem execDuskExpiry_kept {φ : Frame} {c : Nat} {s : State} (hm : Sub 0x8 φ.fx) (h1 : s.Kept φ) :
    OutKept φ (execDuskExpiry c s) := by
  unfold execDuskExpiry
  try dsimp only
  (repeat' first
    | with_reducible assumption
    | with_reducible exact Sub.of hm (by decide)
    | with_reducible apply State.setShBit_kept
    | with_reducible apply State.setShFld_kept
    | with_reducible apply State.forEach_kept
    | with_reducible apply State.setLinSt_kept
    | with_reducible apply State.setCanTrx_kept
    | with_reducible apply State.setCoveSt_kept
    | with_reducible apply kept_ite
    | with_reducible apply kept_foldl
    | with_reducible apply kept_foldl_fst
    | with_reducible apply outKept_next
    | with_reducible apply outKept_ite
    | simp only [kept_mk, true_or]
    | split
    | intro _)

theorem State.finalComplete_kept {φ : Frame} {s : State} {c : Nat} (hm : Sub 0x16204400000840188 φ.fx) (h1 : s.Kept φ)
    :
    State.Kept φ (State.finalComplete s c) := by
  unfold State.finalComplete
  try dsimp only
  (repeat' first
    | with_reducible assumption
    | with_reducible exact Sub.of hm (by decide)
    | with_reducible apply State.setShBit_kept
    | with_reducible apply State.setCoveReq_kept
    | with_reducible apply State.setShFld_kept
    | with_reducible apply State.inhRelease_kept
    | with_reducible apply State.countSh_kept
    | with_reducible apply State.done_kept
    | with_reducible apply State.forEach_kept
    | with_reducible apply State.wakeCove_kept
    | with_reducible apply State.setCoveSt_kept
    | with_reducible apply kept_ite
    | with_reducible apply kept_foldl
    | with_reducible apply kept_foldl_fst
    | with_reducible apply outKept_next
    | with_reducible apply outKept_ite
    | simp only [kept_mk, hm.bit 61 rfl, or_true, true_or]
    | split
    | intro _)

theorem execFinalComplete_kept {φ : Frame} {c : Nat} {s : State} (hm : Sub 0x16204400000840188 φ.fx) (h1 : s.Kept φ) :
    OutKept φ (execFinalComplete c s) := by
  unfold execFinalComplete
  try dsimp only
  (repeat' first
    | with_reducible assumption
    | with_reducible exact Sub.of hm (by decide)
    | with_reducible apply State.finalComplete_kept
    | with_reducible apply kept_ite
    | with_reducible apply kept_foldl
    | with_reducible apply kept_foldl_fst
    | with_reducible apply outKept_next
    | with_reducible apply outKept_ite
    | simp only [kept_mk, true_or]
    | split
    | intro _)

theorem execCoveWake_kept {φ : Frame} {c : Nat} {s : State} (hm : Sub 0x16204400000840188 φ.fx) (h1 : s.Kept φ) :
    OutKept φ (execCoveWake c s) := by
  unfold execCoveWake
  try dsimp only
  (repeat' first
    | with_reducible assumption
    | with_reducible exact Sub.of hm (by decide)
    | with_reducible apply State.wakeOrDusk_kept
    | with_reducible apply kept_ite
    | with_reducible apply kept_foldl
    | with_reducible apply kept_foldl_fst
    | with_reducible apply outKept_next
    | with_reducible apply outKept_ite
    | simp only [kept_mk, true_or]
    | split
    | intro _)

theorem execAutoIdleTimeout_kept {φ : Frame} {c : Nat} {s : State} (hm : Sub 0x2000000000000008 φ.fx) (h1 : s.Kept φ)
    :
    OutKept φ (execAutoIdleTimeout c s) := by
  unfold execAutoIdleTimeout
  try dsimp only
  (repeat' first
    | with_reducible assumption
    | with_reducible exact Sub.of hm (by decide)
    | with_reducible apply State.standReq_kept
    | with_reducible apply kept_ite
    | with_reducible apply kept_foldl
    | with_reducible apply kept_foldl_fst
    | with_reducible apply outKept_next
    | with_reducible apply outKept_ite
    | simp only [kept_mk, true_or]
    | split
    | intro _)

theorem execFieldWake_kept {φ : Frame} {d : Nat} {m : Nat} {s : State} (hm : Sub 0x16204400000840188 φ.fx) (h1 :
    s.Kept φ) :
    OutKept φ (execFieldWake d m s) := by
  unfold execFieldWake
  try dsimp only
  (repeat' first
    | with_reducible assumption
    | with_reducible exact Sub.of hm (by decide)
    | with_reducible apply State.setShBit_kept
    | with_reducible apply State.setShFld_kept
    | with_reducible apply State.wakeOrDusk_kept
    | with_reducible apply State.forEach_kept
    | with_reducible apply kept_ite
    | with_reducible apply kept_foldl
    | with_reducible apply kept_foldl_fst
    | with_reducible apply outKept_next
    | with_reducible apply outKept_ite
    | simp only [kept_mk, true_or]
    | split
    | intro _)

theorem specNmsStatus_kept {φ : Frame}   :
    CmdSpec.Kept φ (specNmsStatus ) := by
  refine ⟨?_, ?_, ?_, ?_⟩ <;> intros <;> dsimp only [specNmsStatus] <;>
  (repeat' first
    | with_reducible assumption
    | with_reducible apply kept_ite
    | with_reducible apply kept_foldl
    | with_reducible apply kept_foldl_fst
    | with_reducible apply outKept_next
    | with_reducible apply outKept_ite
    | simp only [kept_mk, true_or]
    | split
    | intro _)

theorem specNmsCoveConfig_kept {φ : Frame}  (hm : Sub 0x608 φ.fx)  :
    CmdSpec.Kept φ (specNmsCoveConfig ) := by
  refine ⟨?_, ?_, ?_, ?_⟩ <;> intros <;> dsimp only [specNmsCoveConfig] <;>
  (repeat' first
    | with_reducible assumption
    | with_reducible exact Sub.of hm (by decide)
    | with_reducible apply State.commitShared_kept
    | with_reducible apply kept_ite
    | with_reducible apply kept_foldl
    | with_reducible apply kept_foldl_fst
    | with_reducible apply outKept_next
    | with_reducible apply outKept_ite
    | simp only [kept_mk, true_or]
    | split
    | intro _)

theorem specNmsMembers_kept {φ : Frame}  (hm : Sub 0x608 φ.fx)  :
    CmdSpec.Kept φ (specNmsMembers ) := by
  refine ⟨?_, ?_, ?_, ?_⟩ <;> intros <;> dsimp only [specNmsMembers] <;>
  (repeat' first
    | with_reducible assumption
    | with_reducible exact Sub.of hm (by decide)
    | with_reducible apply State.commitShared_kept
    | with_reducible apply kept_ite
    | with_reducible apply kept_foldl
    | with_reducible apply kept_foldl_fst
    | with_reducible apply outKept_next
    | with_reducible apply outKept_ite
    | simp only [kept_mk, true_or]
    | split
    | intro _)

theorem specNmsPortCove_kept {φ : Frame}  (hm : Sub 0x608 φ.fx)  :
    CmdSpec.Kept φ (specNmsPortCove ) := by
  refine ⟨?_, ?_, ?_, ?_⟩ <;> intros <;> dsimp only [specNmsPortCove] <;>
  (repeat' first
    | with_reducible assumption
    | with_reducible exact Sub.of hm (by decide)
    | with_reducible apply State.commitShared_kept
    | with_reducible apply kept_ite
    | with_reducible apply kept_foldl
    | with_reducible apply kept_foldl_fst
    | with_reducible apply outKept_next
    | with_reducible apply outKept_ite
    | simp only [kept_mk, true_or]
    | split
    | intro _)

theorem specNmsCurfew_kept {φ : Frame}  (hm : Sub 0x80000000000 φ.fx)  :
    CmdSpec.Kept φ (specNmsCurfew ) := by
  refine ⟨?_, ?_, ?_, ?_⟩ <;> intros <;> dsimp only [specNmsCurfew] <;>
  (repeat' first
    | with_reducible assumption
    | with_reducible exact Sub.of hm (by decide)
    | with_reducible apply State.cmnSend_kept
    | with_reducible apply kept_ite
    | with_reducible apply kept_foldl
    | with_reducible apply kept_foldl_fst
    | with_reducible apply outKept_next
    | with_reducible apply outKept_ite
    | simp only [kept_mk, true_or]
    | split
    | intro _)

theorem specNmsKeep_kept {φ : Frame}  (hm : Sub 0x80000000000 φ.fx)  :
    CmdSpec.Kept φ (specNmsKeep ) := by
  refine ⟨?_, ?_, ?_, ?_⟩ <;> intros <;> dsimp only [specNmsKeep] <;>
  (repeat' first
    | with_reducible assumption
    | with_reducible exact Sub.of hm (by decide)
    | with_reducible apply State.cmnSend_kept
    | with_reducible apply kept_ite
    | with_reducible apply kept_foldl
    | with_reducible apply kept_foldl_fst
    | with_reducible apply outKept_next
    | with_reducible apply outKept_ite
    | simp only [kept_mk, true_or]
    | split
    | intro _)

theorem specNmsWake_kept {φ : Frame}  (hm : Sub 0x80000000000 φ.fx)  :
    CmdSpec.Kept φ (specNmsWake ) := by
  refine ⟨?_, ?_, ?_, ?_⟩ <;> intros <;> dsimp only [specNmsWake] <;>
  (repeat' first
    | with_reducible assumption
    | with_reducible exact Sub.of hm (by decide)
    | with_reducible apply State.cmnSend_kept
    | with_reducible apply kept_ite
    | with_reducible apply kept_foldl
    | with_reducible apply kept_foldl_fst
    | with_reducible apply outKept_next
    | with_reducible apply outKept_ite
    | simp only [kept_mk, true_or]
    | split
    | intro _)

theorem specNmsLog_kept {φ : Frame}   :
    CmdSpec.Kept φ (specNmsLog ) := by
  refine ⟨?_, ?_, ?_, ?_⟩ <;> intros <;> dsimp only [specNmsLog] <;>
  (repeat' first
    | with_reducible assumption
    | with_reducible apply kept_ite
    | with_reducible apply kept_foldl
    | with_reducible apply kept_foldl_fst
    | with_reducible apply outKept_next
    | with_reducible apply outKept_ite
    | simp only [kept_mk, true_or]
    | split
    | intro _)

theorem execNmsStatus_kept {φ : Frame} {r : Req} {s : State} (hm : Sub 0x17efdce0fafc007a03dc φ.fx) (h1 : s.Kept φ) :
    OutKept φ (execNmsStatus r s) := by
  unfold execNmsStatus
  try dsimp only
  (repeat' first
    | with_reducible assumption
    | with_reducible exact Sub.of hm (by decide)
    | with_reducible apply specNmsStatus_kept
    | with_reducible apply runScs_kept
    | with_reducible apply kept_ite
    | with_reducible apply kept_foldl
    | with_reducible apply kept_foldl_fst
    | with_reducible apply outKept_next
    | with_reducible apply outKept_ite
    | simp only [kept_mk, true_or]
    | split
    | intro _)

theorem execNmsCoveConfig_kept {φ : Frame} {r : Req} {s : State} (hm : Sub 0x17efdce0fafc007a07dc φ.fx) (h1 : s.Kept
    φ) :
    OutKept φ (execNmsCoveConfig r s) := by
  unfold execNmsCoveConfig
  try dsimp only
  (repeat' first
    | with_reducible assumption
    | with_reducible exact Sub.of hm (by decide)
    | with_reducible apply specNmsCoveConfig_kept
    | with_reducible apply runScs_kept
    | with_reducible apply kept_ite
    | with_reducible apply kept_foldl
    | with_reducible apply kept_foldl_fst
    | with_reducible apply outKept_next
    | with_reducible apply outKept_ite
    | simp only [kept_mk, true_or]
    | split
    | intro _)

theorem execNmsMembers_kept {φ : Frame} {r : Req} {s : State} (hm : Sub 0x17efdce0fafc007a07dc φ.fx) (h1 : s.Kept φ) :
    OutKept φ (execNmsMembers r s) := by
  unfold execNmsMembers
  try dsimp only
  (repeat' first
    | with_reducible assumption
    | with_reducible exact Sub.of hm (by decide)
    | with_reducible apply runScs_kept
    | with_reducible apply specNmsMembers_kept
    | with_reducible apply kept_ite
    | with_reducible apply kept_foldl
    | with_reducible apply kept_foldl_fst
    | with_reducible apply outKept_next
    | with_reducible apply outKept_ite
    | simp only [kept_mk, true_or]
    | split
    | intro _)

theorem execNmsPortCove_kept {φ : Frame} {r : Req} {s : State} (hm : Sub 0x17efdce0fafc007a07dc φ.fx) (h1 : s.Kept φ)
    :
    OutKept φ (execNmsPortCove r s) := by
  unfold execNmsPortCove
  try dsimp only
  (repeat' first
    | with_reducible assumption
    | with_reducible exact Sub.of hm (by decide)
    | with_reducible apply runScs_kept
    | with_reducible apply specNmsPortCove_kept
    | with_reducible apply kept_ite
    | with_reducible apply kept_foldl
    | with_reducible apply kept_foldl_fst
    | with_reducible apply outKept_next
    | with_reducible apply outKept_ite
    | simp only [kept_mk, true_or]
    | split
    | intro _)

theorem execNmsCurfew_kept {φ : Frame} {r : Req} {s : State} (hm : Sub 0x17efdce0fafc007a03dc φ.fx) (h1 : s.Kept φ) :
    OutKept φ (execNmsCurfew r s) := by
  unfold execNmsCurfew
  try dsimp only
  (repeat' first
    | with_reducible assumption
    | with_reducible exact Sub.of hm (by decide)
    | with_reducible apply specNmsCurfew_kept
    | with_reducible apply runScs_kept
    | with_reducible apply kept_ite
    | with_reducible apply kept_foldl
    | with_reducible apply kept_foldl_fst
    | with_reducible apply outKept_next
    | with_reducible apply outKept_ite
    | simp only [kept_mk, true_or]
    | split
    | intro _)

theorem execNmsKeep_kept {φ : Frame} {r : Req} {s : State} (hm : Sub 0x17efdce0fafc007a03dc φ.fx) (h1 : s.Kept φ) :
    OutKept φ (execNmsKeep r s) := by
  unfold execNmsKeep
  try dsimp only
  (repeat' first
    | with_reducible assumption
    | with_reducible exact Sub.of hm (by decide)
    | with_reducible apply specNmsKeep_kept
    | with_reducible apply runScs_kept
    | with_reducible apply kept_ite
    | with_reducible apply kept_foldl
    | with_reducible apply kept_foldl_fst
    | with_reducible apply outKept_next
    | with_reducible apply outKept_ite
    | simp only [kept_mk, true_or]
    | split
    | intro _)

theorem execNmsWake_kept {φ : Frame} {r : Req} {s : State} (hm : Sub 0x17efdce0fafc007a03dc φ.fx) (h1 : s.Kept φ) :
    OutKept φ (execNmsWake r s) := by
  unfold execNmsWake
  try dsimp only
  (repeat' first
    | with_reducible assumption
    | with_reducible exact Sub.of hm (by decide)
    | with_reducible apply runScs_kept
    | with_reducible apply specNmsWake_kept
    | with_reducible apply kept_ite
    | with_reducible apply kept_foldl
    | with_reducible apply kept_foldl_fst
    | with_reducible apply outKept_next
    | with_reducible apply outKept_ite
    | simp only [kept_mk, true_or]
    | split
    | intro _)

theorem execNmsLog_kept {φ : Frame} {r : Req} {s : State} (hm : Sub 0x17efdce0fafc007a03dc φ.fx) (h1 : s.Kept φ) :
    OutKept φ (execNmsLog r s) := by
  unfold execNmsLog
  try dsimp only
  (repeat' first
    | with_reducible assumption
    | with_reducible exact Sub.of hm (by decide)
    | with_reducible apply specNmsLog_kept
    | with_reducible apply runScs_kept
    | with_reducible apply kept_ite
    | with_reducible apply kept_foldl
    | with_reducible apply kept_foldl_fst
    | with_reducible apply outKept_next
    | with_reducible apply outKept_ite
    | simp only [kept_mk, true_or]
    | split
    | intro _)

end Sys2Proof.Machine
end

