-- ==== Sys2Proof/Laws/KeptCan.lean ====
section
/-! SUPPORT. The operations of Can.lean keep the invariant, the queue and the time. -/

namespace Sys2Proof.Machine

theorem State.commitSplit_kept {φ : Frame} {s : State} {block : Nat} {region : Nat → Nat} {l : Lane} {ws : List
    RegCell} {lsns : List Nat} (hm : Sub 0x600 φ.fx) (h1 : s.Kept φ) :
    State.Kept φ (State.commitSplit s block region l ws lsns) := by
  unfold State.commitSplit
  try dsimp only
  (repeat' first
    | with_reducible assumption
    | with_reducible exact Sub.of hm (by decide)
    | with_reducible apply State.addCommit_kept
    | with_reducible apply State.forEach_kept
    | with_reducible apply kept_ite
    | with_reducible apply kept_foldl
    | with_reducible apply kept_foldl_fst
    | with_reducible apply outKept_next
    | with_reducible apply outKept_ite
    | simp only [kept_mk, true_or]
    | split
    | intro _)

theorem State.commitSharedSplit_kept {φ : Frame} {s : State} {block : Nat} {region : Nat → Nat} {ws : List RegCell}
    {lsn : Nat} (hm : Sub 0x608 φ.fx) (h1 : s.Kept φ) :
    State.Kept φ (State.commitSharedSplit s block region ws lsn) := by
  unfold State.commitSharedSplit
  try dsimp only
  (repeat' first
    | with_reducible assumption
    | with_reducible exact Sub.of hm (by decide)
    | with_reducible apply State.commitSplit_kept
    | with_reducible apply State.writeShadows_kept
    | with_reducible apply kept_ite
    | with_reducible apply kept_foldl
    | with_reducible apply kept_foldl_fst
    | with_reducible apply outKept_next
    | with_reducible apply outKept_ite
    | simp only [kept_mk, true_or]
    | split
    | intro _)

theorem State.afterCanCommit_kept {φ : Frame} {s : State} {r : Nat} (hm : Sub 0x14200400000800108 φ.fx) (h1 : s.Kept
    φ) :
    State.Kept φ (State.afterCanCommit s r) := by
  unfold State.afterCanCommit
  try dsimp only
  (repeat' first
    | with_reducible assumption
    | with_reducible exact Sub.of hm (by decide)
    | with_reducible apply State.inhAssert_kept
    | with_reducible apply State.canConfigured_kept
    | with_reducible apply kept_ite
    | with_reducible apply kept_foldl
    | with_reducible apply kept_foldl_fst
    | with_reducible apply outKept_next
    | with_reducible apply outKept_ite
    | simp only [kept_mk, true_or]
    | split
    | intro _)

theorem State.applyCan_kept {φ : Frame} {s : State} {c : Commit} (hm : Sub 0x14200400000800708 φ.fx) (h1 : s.Kept φ) :
    State.Kept φ (State.applyCan s c) := by
  unfold State.applyCan
  try dsimp only
  (repeat' first
    | with_reducible assumption
    | with_reducible exact Sub.of hm (by decide)
    | with_reducible apply State.applyCommit_kept
    | with_reducible apply State.afterCanCommit_kept
    | with_reducible apply kept_ite
    | with_reducible apply kept_foldl
    | with_reducible apply kept_foldl_fst
    | with_reducible apply outKept_next
    | with_reducible apply outKept_ite
    | simp only [kept_mk, true_or]
    | split
    | intro _)

theorem State.canBoundary_kept {φ : Frame} {s : State} {l : Lane} (hm : Sub 0x14000000000000708 φ.fx) (h1 : s.Kept φ)
    :
    State.Kept φ (State.canBoundary s l) := by
  unfold State.canBoundary
  try dsimp only
  (repeat' first
    | with_reducible assumption
    | with_reducible exact Sub.of hm (by decide)
    | with_reducible apply State.applyCommit_kept
    | with_reducible apply State.forEach_kept
    | with_reducible apply kept_ite
    | with_reducible apply kept_foldl
    | with_reducible apply kept_foldl_fst
    | with_reducible apply outKept_next
    | with_reducible apply outKept_ite
    | simp only [kept_mk, true_or]
    | split
    | intro _)

theorem State.applyElem_kept {φ : Frame} {s : State} {r : FltRec} (hm : Sub 0x8 φ.fx) (h1 : s.Kept φ) :
    State.Kept φ (State.applyElem s r) := by
  unfold State.applyElem
  try dsimp only
  (repeat' first
    | with_reducible assumption
    | with_reducible exact Sub.of hm (by decide)
    | with_reducible apply State.setShBit_kept
    | with_reducible apply State.setSh_kept
    | with_reducible apply kept_ite
    | with_reducible apply kept_foldl
    | with_reducible apply kept_foldl_fst
    | with_reducible apply outKept_next
    | with_reducible apply outKept_ite
    | simp only [kept_mk, true_or]
    | split
    | intro _)

theorem State.applyElems_kept {φ : Frame} {s : State} {a1 : List FltRec} (hm : Sub 0x8 φ.fx) (h1 : s.Kept φ) :
    State.Kept φ (State.applyElems s a1) := by
  induction a1 generalizing s with
  | nil =>
    unfold State.applyElems
    (repeat' first
    | with_reducible assumption
    | with_reducible exact Sub.of hm (by decide)
    | with_reducible apply State.applyElem_kept
    | with_reducible apply kept_ite
    | with_reducible apply kept_foldl
    | with_reducible apply kept_foldl_fst
    | with_reducible apply outKept_next
    | with_reducible apply outKept_ite
    | simp only [kept_mk, true_or]
    | split
    | intro _)
  | cons x xs ih =>
    unfold State.applyElems
    (repeat' first
    | with_reducible assumption
    | with_reducible exact Sub.of hm (by decide)
    | with_reducible apply State.applyElem_kept
    | with_reducible apply ih
    | with_reducible apply kept_ite
    | with_reducible apply kept_foldl
    | with_reducible apply kept_foldl_fst
    | with_reducible apply outKept_next
    | with_reducible apply outKept_ite
    | simp only [kept_mk, true_or]
    | split
    | intro _)

theorem State.takeElems_kept {φ : Frame} {s : State} (hm : Sub 0x800000000008 φ.fx) (h1 : s.Kept φ) :
    State.Kept φ (State.takeElems s) := by
  unfold State.takeElems
  try dsimp only
  (repeat' first
    | with_reducible assumption
    | with_reducible exact Sub.of hm (by decide)
    | with_reducible apply State.applyElems_kept
    | with_reducible apply kept_ite
    | with_reducible apply kept_foldl
    | with_reducible apply kept_foldl_fst
    | with_reducible apply outKept_next
    | with_reducible apply outKept_ite
    | simp only [kept_mk, hm.bit 47 rfl, or_true, true_or]
    | split
    | intro _)

theorem State.sealElems_kept {φ : Frame} {s : State} (hm : Sub 0x800000000000 φ.fx) (h1 : s.Kept φ) :
    State.Kept φ (State.sealElems s) := by
  unfold State.sealElems
  try dsimp only
  (repeat' first
    | with_reducible assumption
    | with_reducible exact Sub.of hm (by decide)
    | with_reducible apply kept_ite
    | with_reducible apply kept_foldl
    | with_reducible apply kept_foldl_fst
    | with_reducible apply outKept_next
    | with_reducible apply outKept_ite
    | simp only [kept_mk, hm.bit 47 rfl, or_true, true_or]
    | split
    | intro _)

theorem State.canReceive_kept {φ : Frame} {s : State} {n : Nat} {f : CanFrame} (hm : Sub 0x160c63000000001c8 φ.fx) (h1
    : s.Kept φ) :
    State.Kept φ (State.canReceive s n f) := by
  unfold State.canReceive
  (repeat' first
    | with_reducible assumption
    | with_reducible exact Sub.of hm (by decide)
    | with_reducible apply State.frameSeen_kept
    | with_reducible apply State.countSh_kept
    | with_reducible apply State.canDeliver_kept
    | with_reducible apply kept_ite
    | with_reducible apply kept_foldl
    | with_reducible apply kept_foldl_fst
    | with_reducible apply outKept_next
    | with_reducible apply outKept_ite
    | split
    | intro _)

theorem specCanPortConfig_kept {φ : Frame}  (hm : Sub 0x608 φ.fx)  :
    CmdSpec.Kept φ (specCanPortConfig ) := by
  refine ⟨?_, ?_, ?_, ?_⟩ <;> intros <;> dsimp only [specCanPortConfig] <;>
  (repeat' first
    | with_reducible assumption
    | with_reducible exact Sub.of hm (by decide)
    | with_reducible apply State.commitSharedSplit_kept
    | with_reducible apply kept_ite
    | with_reducible apply kept_foldl
    | with_reducible apply kept_foldl_fst
    | with_reducible apply outKept_next
    | with_reducible apply outKept_ite
    | simp only [kept_mk, true_or]
    | split
    | intro _)

theorem fltElemCells_kept {φ : Frame} {r : Req} {s : State} {base : Nat} (hm : Sub 0x800000000000 φ.fx) (h1 : s.Kept
    φ) :
    State.Kept φ (fltElemCells r s base) := by
  unfold fltElemCells
  try dsimp only
  (repeat' first
    | with_reducible assumption
    | with_reducible exact Sub.of hm (by decide)
    | with_reducible apply State.forEach_kept
    | with_reducible apply State.sendElem_kept
    | with_reducible apply kept_ite
    | with_reducible apply kept_foldl
    | with_reducible apply kept_foldl_fst
    | with_reducible apply outKept_next
    | with_reducible apply outKept_ite
    | simp only [kept_mk, true_or]
    | split
    | intro _)

theorem specCanFilterSet_kept {φ : Frame}  (hm : Sub 0x80000000060c φ.fx)  :
    CmdSpec.Kept φ (specCanFilterSet ) := by
  refine ⟨?_, ?_, ?_, ?_⟩ <;> intros <;> dsimp only [specCanFilterSet] <;>
  (repeat' first
    | with_reducible assumption
    | with_reducible exact Sub.of hm (by decide)
    | with_reducible apply fltElemCells_kept
    | with_reducible apply State.commitSharedSplit_kept
    | with_reducible apply State.tickFree_kept
    | with_reducible apply kept_ite
    | with_reducible apply kept_foldl
    | with_reducible apply kept_foldl_fst
    | with_reducible apply outKept_next
    | with_reducible apply outKept_ite
    | simp only [kept_mk, true_or]
    | split
    | intro _)

theorem specCanTrxSet_kept {φ : Frame}  (hm : Sub 0x608 φ.fx)  :
    CmdSpec.Kept φ (specCanTrxSet ) := by
  refine ⟨?_, ?_, ?_, ?_⟩ <;> intros <;> dsimp only [specCanTrxSet] <;>
  (repeat' first
    | with_reducible assumption
    | with_reducible exact Sub.of hm (by decide)
    | with_reducible apply State.commitSharedSplit_kept
    | with_reducible apply kept_ite
    | with_reducible apply kept_foldl
    | with_reducible apply kept_foldl_fst
    | with_reducible apply outKept_next
    | with_reducible apply outKept_ite
    | simp only [kept_mk, true_or]
    | split
    | intro _)

theorem specCanWakeFrame_kept {φ : Frame}  (hm : Sub 0x608 φ.fx)  :
    CmdSpec.Kept φ (specCanWakeFrame ) := by
  refine ⟨?_, ?_, ?_, ?_⟩ <;> intros <;> dsimp only [specCanWakeFrame] <;>
  (repeat' first
    | with_reducible assumption
    | with_reducible exact Sub.of hm (by decide)
    | with_reducible apply State.commitSharedSplit_kept
    | with_reducible apply kept_ite
    | with_reducible apply kept_foldl
    | with_reducible apply kept_foldl_fst
    | with_reducible apply outKept_next
    | with_reducible apply outKept_ite
    | simp only [kept_mk, true_or]
    | split
    | intro _)

theorem specCanRecover_kept {φ : Frame}  (hm : Sub 0x80000000000 φ.fx)  :
    CmdSpec.Kept φ (specCanRecover ) := by
  refine ⟨?_, ?_, ?_, ?_⟩ <;> intros <;> dsimp only [specCanRecover] <;>
  (repeat' first
    | with_reducible assumption
    | with_reducible exact Sub.of hm (by decide)
    | with_reducible apply State.cmnSend_kept
    | with_reducible apply kept_ite
    | with_reducible apply kept_foldl
    | with_reducible apply kept_foldl_fst
    | with_reducible apply outKept_next
    | with_reducible apply outKept_ite
    | simp only [kept_mk, true_or]
    | split
    | intro _)

theorem specCanStatus_kept {φ : Frame}   :
    CmdSpec.Kept φ (specCanStatus ) := by
  refine ⟨?_, ?_, ?_, ?_⟩ <;> intros <;> dsimp only [specCanStatus] <;>
  (repeat' first
    | with_reducible assumption
    | with_reducible apply kept_ite
    | with_reducible apply kept_foldl
    | with_reducible apply kept_foldl_fst
    | with_reducible apply outKept_next
    | with_reducible apply outKept_ite
    | simp only [kept_mk, true_or]
    | split
    | intro _)

theorem specCanInhMap_kept {φ : Frame}  (hm : Sub 0x608 φ.fx)  :
    CmdSpec.Kept φ (specCanInhMap ) := by
  refine ⟨?_, ?_, ?_, ?_⟩ <;> intros <;> dsimp only [specCanInhMap] <;>
  (repeat' first
    | with_reducible assumption
    | with_reducible exact Sub.of hm (by decide)
    | with_reducible apply State.commitSharedSplit_kept
    | with_reducible apply kept_ite
    | with_reducible apply kept_foldl
    | with_reducible apply kept_foldl_fst
    | with_reducible apply outKept_next
    | with_reducible apply outKept_ite
    | simp only [kept_mk, true_or]
    | split
    | intro _)

theorem State.canHand_kept {φ : Frame} {s : State} {n : Nat} {hdr : List Byte} {data : List Byte} {lsn : Option Nat}
    {pdu : Option Nat} {deadline : Option Nat} (hm : Sub 0x400000000000 φ.fx) (h1 : s.Kept φ) :
    State.Kept φ (State.canHand s n hdr data lsn pdu deadline) := by
  unfold State.canHand
  try dsimp only
  (repeat' first
    | with_reducible assumption
    | with_reducible exact Sub.of hm (by decide)
    | with_reducible apply State.setCanPort_kept
    | with_reducible apply kept_ite
    | with_reducible apply kept_foldl
    | with_reducible apply kept_foldl_fst
    | with_reducible apply outKept_next
    | with_reducible apply outKept_ite
    | simp only [kept_mk, true_or]
    | split
    | intro _)

theorem State.canRequest_kept {φ : Frame} {s : State} {hdr : List Byte} {data : List Byte} {lsn : Nat} (hm : Sub
    0x16204400000840188 φ.fx) (h1 : s.Kept φ) :
    State.Kept φ (State.canRequest s hdr data lsn) := by
  unfold State.canRequest
  try dsimp only
  (repeat' first
    | with_reducible assumption
    | with_reducible exact Sub.of hm (by decide)
    | with_reducible apply State.canHand_kept
    | with_reducible apply State.wakeOrDusk_kept
    | with_reducible apply State.dispose_kept
    | with_reducible apply kept_ite
    | with_reducible apply kept_foldl
    | with_reducible apply kept_foldl_fst
    | with_reducible apply outKept_next
    | with_reducible apply outKept_ite
    | simp only [kept_mk, true_or]
    | split
    | intro _)

theorem specCanSend_kept {φ : Frame}  (hm : Sub 0x16204400000840188 φ.fx)  :
    CmdSpec.Kept φ (specCanSend ) := by
  refine ⟨?_, ?_, ?_, ?_⟩ <;> intros <;> dsimp only [specCanSend] <;>
  (repeat' first
    | with_reducible assumption
    | with_reducible exact Sub.of hm (by decide)
    | with_reducible apply State.canRequest_kept
    | with_reducible apply kept_ite
    | with_reducible apply kept_foldl
    | with_reducible apply kept_foldl_fst
    | with_reducible apply outKept_next
    | with_reducible apply outKept_ite
    | simp only [kept_mk, true_or]
    | split
    | intro _)

theorem execCanPortConfig_kept {φ : Frame} {r : Req} {s : State} (hm : Sub 0x17efdce0fafc007a07dc φ.fx) (h1 : s.Kept
    φ) :
    OutKept φ (execCanPortConfig r s) := by
  unfold execCanPortConfig
  try dsimp only
  (repeat' first
    | with_reducible assumption
    | with_reducible exact Sub.of hm (by decide)
    | with_reducible apply specCanPortConfig_kept
    | with_reducible apply runScs_kept
    | with_reducible apply kept_ite
    | with_reducible apply kept_foldl
    | with_reducible apply kept_foldl_fst
    | with_reducible apply outKept_next
    | with_reducible apply outKept_ite
    | simp only [kept_mk, true_or]
    | split
    | intro _)

theorem execCanFilterSet_kept {φ : Frame} {r : Req} {s : State} (hm : Sub 0x17efdce0fafc007a07dc φ.fx) (h1 : s.Kept φ)
    :
    OutKept φ (execCanFilterSet r s) := by
  unfold execCanFilterSet
  try dsimp only
  (repeat' first
    | with_reducible assumption
    | with_reducible exact Sub.of hm (by decide)
    | with_reducible apply runScs_kept
    | with_reducible apply specCanFilterSet_kept
    | with_reducible apply kept_ite
    | with_reducible apply kept_foldl
    | with_reducible apply kept_foldl_fst
    | with_reducible apply outKept_next
    | with_reducible apply outKept_ite
    | simp only [kept_mk, true_or]
    | split
    | intro _)

theorem execCanTrxSet_kept {φ : Frame} {r : Req} {s : State} (hm : Sub 0x17efdce0fafc007a07dc φ.fx) (h1 : s.Kept φ) :
    OutKept φ (execCanTrxSet r s) := by
  unfold execCanTrxSet
  try dsimp only
  (repeat' first
    | with_reducible assumption
    | with_reducible exact Sub.of hm (by decide)
    | with_reducible apply runScs_kept
    | with_reducible apply specCanTrxSet_kept
    | with_reducible apply kept_ite
    | with_reducible apply kept_foldl
    | with_reducible apply kept_foldl_fst
    | with_reducible apply outKept_next
    | with_reducible apply outKept_ite
    | simp only [kept_mk, true_or]
    | split
    | intro _)

theorem execCanWakeFrame_kept {φ : Frame} {r : Req} {s : State} (hm : Sub 0x17efdce0fafc007a07dc φ.fx) (h1 : s.Kept φ)
    :
    OutKept φ (execCanWakeFrame r s) := by
  unfold execCanWakeFrame
  try dsimp only
  (repeat' first
    | with_reducible assumption
    | with_reducible exact Sub.of hm (by decide)
    | with_reducible apply specCanWakeFrame_kept
    | with_reducible apply runScs_kept
    | with_reducible apply kept_ite
    | with_reducible apply kept_foldl
    | with_reducible apply kept_foldl_fst
    | with_reducible apply outKept_next
    | with_reducible apply outKept_ite
    | simp only [kept_mk, true_or]
    | split
    | intro _)

theorem execCanRecover_kept {φ : Frame} {r : Req} {s : State} (hm : Sub 0x17efdce0fafc007a03dc φ.fx) (h1 : s.Kept φ) :
    OutKept φ (execCanRecover r s) := by
  unfold execCanRecover
  try dsimp only
  (repeat' first
    | with_reducible assumption
    | with_reducible exact Sub.of hm (by decide)
    | with_reducible apply specCanRecover_kept
    | with_reducible apply runScs_kept
    | with_reducible apply kept_ite
    | with_reducible apply kept_foldl
    | with_reducible apply kept_foldl_fst
    | with_reducible apply outKept_next
    | with_reducible apply outKept_ite
    | simp only [kept_mk, true_or]
    | split
    | intro _)

theorem execCanStatus_kept {φ : Frame} {r : Req} {s : State} (hm : Sub 0x17efdce0fafc007a03dc φ.fx) (h1 : s.Kept φ) :
    OutKept φ (execCanStatus r s) := by
  unfold execCanStatus
  try dsimp only
  (repeat' first
    | with_reducible assumption
    | with_reducible exact Sub.of hm (by decide)
    | with_reducible apply specCanStatus_kept
    | with_reducible apply runScs_kept
    | with_reducible apply kept_ite
    | with_reducible apply kept_foldl
    | with_reducible apply kept_foldl_fst
    | with_reducible apply outKept_next
    | with_reducible apply outKept_ite
    | simp only [kept_mk, true_or]
    | split
    | intro _)

theorem execCanInhMap_kept {φ : Frame} {r : Req} {s : State} (hm : Sub 0x17efdce0fafc007a07dc φ.fx) (h1 : s.Kept φ) :
    OutKept φ (execCanInhMap r s) := by
  unfold execCanInhMap
  try dsimp only
  (repeat' first
    | with_reducible assumption
    | with_reducible exact Sub.of hm (by decide)
    | with_reducible apply specCanInhMap_kept
    | with_reducible apply runScs_kept
    | with_reducible apply kept_ite
    | with_reducible apply kept_foldl
    | with_reducible apply kept_foldl_fst
    | with_reducible apply outKept_next
    | with_reducible apply outKept_ite
    | simp only [kept_mk, true_or]
    | split
    | intro _)

theorem execCanSend_kept {φ : Frame} {r : Req} {s : State} (hm : Sub 0x17effee4fafc00fe03dc φ.fx) (h1 : s.Kept φ) :
    OutKept φ (execCanSend r s) := by
  unfold execCanSend
  try dsimp only
  (repeat' first
    | with_reducible assumption
    | with_reducible exact Sub.of hm (by decide)
    | with_reducible apply specCanSend_kept
    | with_reducible apply runScs_kept
    | with_reducible apply kept_ite
    | with_reducible apply kept_foldl
    | with_reducible apply kept_foldl_fst
    | with_reducible apply outKept_next
    | with_reducible apply outKept_ite
    | simp only [kept_mk, true_or]
    | split
    | intro _)

theorem State.syncRecover_kept {φ : Frame} {s : State} (hm : Sub 0x14001000000000108 φ.fx) (h1 : s.Kept φ) :
    State.Kept φ (State.syncRecover s) := by
  unfold State.syncRecover
  try dsimp only
  (repeat' first
    | with_reducible assumption
    | with_reducible exact Sub.of hm (by decide)
    | with_reducible apply State.done_kept
    | with_reducible apply State.forEach_kept
    | with_reducible apply kept_ite
    | with_reducible apply kept_foldl
    | with_reducible apply kept_foldl_fst
    | with_reducible apply outKept_next
    | with_reducible apply outKept_ite
    | simp only [kept_mk, hm.bit 48 rfl, or_true, true_or]
    | split
    | intro _)

theorem State.recoverPort_kept {φ : Frame} {s : State} {n : Nat} (hm : Sub 0x400000000008 φ.fx) (h1 : s.Kept φ) :
    State.Kept φ (State.recoverPort s n) := by
  unfold State.recoverPort
  try dsimp only
  (repeat' first
    | with_reducible assumption
    | with_reducible exact Sub.of hm (by decide)
    | with_reducible apply State.setShFld_kept
    | with_reducible apply State.setCanPort_kept
    | with_reducible apply kept_ite
    | with_reducible apply kept_foldl
    | with_reducible apply kept_foldl_fst
    | with_reducible apply outKept_next
    | with_reducible apply outKept_ite
    | simp only [kept_mk, true_or]
    | split
    | intro _)

theorem State.applyRecover_kept {φ : Frame} {s : State} {mask : Nat} {lsn : Option Nat} (hm : Sub 0x14001400000000108
    φ.fx) (h1 : s.Kept φ) :
    State.Kept φ (State.applyRecover s mask lsn) := by
  unfold State.applyRecover
  try dsimp only
  (repeat' first
    | with_reducible assumption
    | with_reducible exact Sub.of hm (by decide)
    | with_reducible apply State.recoverPort_kept
    | with_reducible apply State.syncRecover_kept
    | with_reducible apply State.forEach_kept
    | with_reducible apply kept_ite
    | with_reducible apply kept_foldl
    | with_reducible apply kept_foldl_fst
    | with_reducible apply outKept_next
    | with_reducible apply outKept_ite
    | simp only [kept_mk, hm.bit 48 rfl, or_true, true_or]
    | split
    | intro _)

theorem execCanCtlRecover_kept {φ : Frame} {l : Lane} {who : Initiator} {n : Nat} {s : State} (hm : Sub 0x80000000020
    φ.fx) (h1 : s.Kept φ) :
    OutKept φ (execCanCtlRecover l who n s) := by
  unfold execCanCtlRecover
  try dsimp only
  (repeat' first
    | with_reducible assumption
    | with_reducible exact Sub.of hm (by decide)
    | with_reducible apply State.busOk_kept
    | with_reducible apply State.cmnSend_kept
    | with_reducible apply State.busErr_kept
    | with_reducible apply kept_ite
    | with_reducible apply kept_foldl
    | with_reducible apply kept_foldl_fst
    | with_reducible apply outKept_next
    | with_reducible apply outKept_ite
    | simp only [kept_mk, true_or]
    | split
    | intro _)

theorem execRxDone_kept {φ : Frame} {l : Lane} {who : Initiator} {n : Nat} {s : State} (hm : Sub 0x300000000068 φ.fx)
    (h1 : s.Kept φ) :
    OutKept φ (execRxDone l who n s) := by
  unfold execRxDone
  try dsimp only
  (repeat' first
    | with_reducible assumption
    | with_reducible exact Sub.of hm (by decide)
    | with_reducible apply State.busOk_kept
    | with_reducible apply State.rxDone_kept
    | with_reducible apply State.busErr_kept
    | with_reducible apply kept_ite
    | with_reducible apply kept_foldl
    | with_reducible apply kept_foldl_fst
    | with_reducible apply outKept_next
    | with_reducible apply outKept_ite
    | simp only [kept_mk, true_or]
    | split
    | intro _)

theorem execCanTsRead_kept {φ : Frame} {l : Lane} {who : Initiator} {s : State} (hm : Sub 0x28 φ.fx) (h1 : s.Kept φ) :
    OutKept φ (execCanTsRead l who s) := by
  unfold execCanTsRead
  try dsimp only
  (repeat' first
    | with_reducible assumption
    | with_reducible exact Sub.of hm (by decide)
    | with_reducible apply State.setSh_kept
    | with_reducible apply State.busOk_kept
    | with_reducible apply State.busErr_kept
    | with_reducible apply kept_ite
    | with_reducible apply kept_foldl
    | with_reducible apply kept_foldl_fst
    | with_reducible apply outKept_next
    | with_reducible apply outKept_ite
    | simp only [kept_mk, true_or]
    | split
    | intro _)

theorem execCanFrameReceived_kept {φ : Frame} {n : Nat} {f : CanFrame} {rec : Nat} {s : State} (hm : Sub
    0x160c63000000001c8 φ.fx) (h1 : s.Kept φ) :
    OutKept φ (execCanFrameReceived n f rec s) := by
  unfold execCanFrameReceived
  try dsimp only
  (repeat' first
    | with_reducible assumption
    | with_reducible exact Sub.of hm (by decide)
    | with_reducible apply State.canReceive_kept
    | with_reducible apply State.setShFld_kept
    | with_reducible apply kept_ite
    | with_reducible apply kept_foldl
    | with_reducible apply kept_foldl_fst
    | with_reducible apply outKept_next
    | with_reducible apply outKept_ite
    | simp only [kept_mk, true_or]
    | split
    | intro _)

theorem execCanFrameQueued_kept {φ : Frame} {n : Nat} {l : Lane} {seq : Nat} {differs : Bool} {s : State} (hm : Sub
    0x142004000001c0108 φ.fx) (h1 : s.Kept φ) :
    OutKept φ (execCanFrameQueued n l seq differs s) := by
  unfold execCanFrameQueued
  try dsimp only
  (repeat' first
    | with_reducible assumption
    | with_reducible exact Sub.of hm (by decide)
    | with_reducible apply State.syncFill_kept
    | with_reducible apply State.setShFld_kept
    | with_reducible apply State.countSh_kept
    | with_reducible apply State.canStart_kept
    | with_reducible apply State.canEnds_kept
    | with_reducible apply State.setCanPort_kept
    | with_reducible apply State.significant_kept
    | with_reducible apply kept_ite
    | with_reducible apply kept_foldl
    | with_reducible apply kept_foldl_fst
    | with_reducible apply outKept_next
    | with_reducible apply outKept_ite
    | simp only [kept_mk, true_or]
    | split
    | intro _)

theorem execCanTxDone_kept {φ : Frame} {n : Nat} {stamp : Nat} {tec : Nat} {s : State} (hm : Sub 0x142c27000000001cc
    φ.fx) (h1 : s.Kept φ) :
    OutKept φ (execCanTxDone n stamp tec s) := by
  unfold execCanTxDone
  try dsimp only
  (repeat' first
    | with_reducible assumption
    | with_reducible exact Sub.of hm (by decide)
    | with_reducible apply State.dequeue_kept
    | with_reducible apply State.setShFld_kept
    | with_reducible apply State.countSh_kept
    | with_reducible apply State.canStart_kept
    | with_reducible apply State.tickFree_kept
    | with_reducible apply State.doneOpt_kept
    | with_reducible apply State.canDeliver_kept
    | with_reducible apply State.emit_kept
    | with_reducible apply kept_ite
    | with_reducible apply kept_foldl
    | with_reducible apply kept_foldl_fst
    | with_reducible apply outKept_next
    | with_reducible apply outKept_ite
    | simp only [kept_mk, true_or]
    | split
    | intro _)

theorem execCanTxError_kept {φ : Frame} {n : Nat} {why : CanFail} {tec : Nat} {rec : Nat} {s : State} (hm : Sub
    0x14200400000000108 φ.fx) (h1 : s.Kept φ) :
    OutKept φ (execCanTxError n why tec rec s) := by
  unfold execCanTxError
  try dsimp only
  (repeat' first
    | with_reducible assumption
    | with_reducible exact Sub.of hm (by decide)
    | with_reducible apply State.dequeue_kept
    | with_reducible apply State.setShFld_kept
    | with_reducible apply State.countSh_kept
    | with_reducible apply State.canStart_kept
    | with_reducible apply State.canEnds_kept
    | with_reducible apply State.canEndQueue_kept
    | with_reducible apply State.setCanPort_kept
    | with_reducible apply kept_ite
    | with_reducible apply kept_foldl
    | with_reducible apply kept_foldl_fst
    | with_reducible apply outKept_next
    | with_reducible apply outKept_ite
    | simp only [kept_mk, true_or]
    | split
    | intro _)

theorem execBusOffRecovered_kept {φ : Frame} {n : Nat} {s : State} (hm : Sub 0x14201400000000108 φ.fx) (h1 : s.Kept φ)
    :
    OutKept φ (execBusOffRecovered n s) := by
  unfold execBusOffRecovered
  try dsimp only
  (repeat' first
    | with_reducible assumption
    | with_reducible exact Sub.of hm (by decide)
    | with_reducible apply State.setShFld_kept
    | with_reducible apply State.canStart_kept
    | with_reducible apply State.syncRecover_kept
    | with_reducible apply kept_ite
    | with_reducible apply kept_foldl
    | with_reducible apply kept_foldl_fst
    | with_reducible apply outKept_next
    | with_reducible apply outKept_ite
    | simp only [kept_mk, true_or]
    | split
    | intro _)

theorem State.canWoke_kept {φ : Frame} {s : State} {n : Nat} {src : Nat} (hm : Sub 0x16204400000840188 φ.fx) (h1 :
    s.Kept φ) :
    State.Kept φ (State.canWoke s n src) := by
  unfold State.canWoke
  try dsimp only
  (repeat' first
    | with_reducible assumption
    | with_reducible exact Sub.of hm (by decide)
    | with_reducible apply State.setShBit_kept
    | with_reducible apply State.portWake_kept
    | with_reducible apply State.setShFld_kept
    | with_reducible apply kept_ite
    | with_reducible apply kept_foldl
    | with_reducible apply kept_foldl_fst
    | with_reducible apply outKept_next
    | with_reducible apply outKept_ite
    | simp only [kept_mk, true_or]
    | split
    | intro _)

theorem execCanWake_kept {φ : Frame} {n : Nat} {seen : CanSeen} {s : State} (hm : Sub 0x16204400000840188 φ.fx) (h1 :
    s.Kept φ) :
    OutKept φ (execCanWake n seen s) := by
  unfold execCanWake
  try dsimp only
  (repeat' first
    | with_reducible assumption
    | with_reducible exact Sub.of hm (by decide)
    | with_reducible apply State.setShFld_kept
    | with_reducible apply State.canWoke_kept
    | with_reducible apply kept_ite
    | with_reducible apply kept_foldl
    | with_reducible apply kept_foldl_fst
    | with_reducible apply outKept_next
    | with_reducible apply outKept_ite
    | simp only [kept_mk, true_or]
    | split
    | intro _)

theorem execCanPhyFault_kept {φ : Frame} {n : Nat} {fault : Bool} {s : State} (hm : Sub 0x14201400000000108 φ.fx) (h1
    : s.Kept φ) :
    OutKept φ (execCanPhyFault n fault s) := by
  unfold execCanPhyFault
  try dsimp only
  (repeat' first
    | with_reducible assumption
    | with_reducible exact Sub.of hm (by decide)
    | with_reducible apply State.setShBit_kept
    | with_reducible apply State.canStart_kept
    | with_reducible apply State.syncRecover_kept
    | with_reducible apply State.canEndQueue_kept
    | with_reducible apply State.setCanPort_kept
    | with_reducible apply State.disposeAll_kept
    | with_reducible apply kept_ite
    | with_reducible apply kept_foldl
    | with_reducible apply kept_foldl_fst
    | with_reducible apply outKept_next
    | with_reducible apply outKept_ite
    | simp only [kept_mk, hm.bit 48 rfl, or_true, true_or]
    | split
    | intro _)

theorem execDominantTimeout_kept {φ : Frame} {n : Nat} {clamped : Bool} {s : State} (hm : Sub 0x8 φ.fx) (h1 : s.Kept
    φ) :
    OutKept φ (execDominantTimeout n clamped s) := by
  unfold execDominantTimeout
  try dsimp only
  (repeat' first
    | with_reducible assumption
    | with_reducible exact Sub.of hm (by decide)
    | with_reducible apply State.setShBit_kept
    | with_reducible apply kept_ite
    | with_reducible apply kept_foldl
    | with_reducible apply kept_foldl_fst
    | with_reducible apply outKept_next
    | with_reducible apply outKept_ite
    | simp only [kept_mk, true_or]
    | split
    | intro _)

end Sys2Proof.Machine
end

