-- ==== Sys2Proof/Laws/KeptTime.lean ====
section
/-! SUPPORT. The operations of Time.lean keep the invariant, the queue and the time. -/

namespace Sys2Proof.Machine

theorem State.setTb_kept {φ : Frame} {s : State} {m : Nat} {x : TbRt} (hm : Sub 0x10000000000000 φ.fx) (h : s.Kept φ) :
    State.Kept φ (State.setTb s m x) :=
  kept_tbs h (hm.bit 52 rfl) ((List.length_set ..).trans h.shape.tbs)

theorem State.tbRun_kept {φ : Frame} {s : State} {n : Nat} (hm : Sub 0x10000000000000 φ.fx) (h1 : s.Kept φ) :
    State.Kept φ (State.tbRun s n) := by
  unfold State.tbRun
  try dsimp only
  (repeat' first
    | with_reducible assumption
    | with_reducible exact Sub.of hm (by decide)
    | with_reducible apply State.setTb_kept
    | with_reducible apply kept_ite
    | with_reducible apply kept_foldl
    | with_reducible apply kept_foldl_fst
    | with_reducible apply outKept_next
    | with_reducible apply outKept_ite
    | simp only [kept_mk, true_or]
    | split
    | intro _)

theorem State.tbTick_kept {φ : Frame} {s : State} (hm : Sub 0x10000000000000 φ.fx) (h1 : s.Kept φ) :
    State.Kept φ (State.tbTick s) := by
  unfold State.tbTick
  try dsimp only
  (repeat' first
    | with_reducible assumption
    | with_reducible exact Sub.of hm (by decide)
    | with_reducible apply State.tbRun_kept
    | with_reducible apply State.forEach_kept
    | with_reducible apply kept_ite
    | with_reducible apply kept_foldl
    | with_reducible apply kept_foldl_fst
    | with_reducible apply outKept_next
    | with_reducible apply outKept_ite
    | simp only [kept_mk, true_or]
    | split
    | intro _)

theorem State.setCal_kept {φ : Frame} {s : State} {sec : Nat} {count : Bool} (hm : Sub 0x20000000000000000008 φ.fx)
    (h1 : s.Kept φ) :
    State.Kept φ (State.setCal s sec count) := by
  unfold State.setCal
  try dsimp only
  (repeat' first
    | with_reducible assumption
    | with_reducible exact Sub.of hm (by decide)
    | with_reducible apply State.countFld_kept
    | with_reducible apply State.setBitBoth_kept
    | with_reducible apply kept_ite
    | with_reducible apply kept_foldl
    | with_reducible apply kept_foldl_fst
    | with_reducible apply outKept_next
    | with_reducible apply outKept_ite
    | simp only [kept_mk, hm.bit 77 rfl, or_true, true_or]
    | split
    | intro _)

theorem State.calSync_kept {φ : Frame} {s : State} (hm : Sub 0x20000000000000000008 φ.fx) (h1 : s.Kept φ) :
    State.Kept φ (State.calSync s) := by
  unfold State.calSync
  try dsimp only
  (repeat' first
    | with_reducible assumption
    | with_reducible exact Sub.of hm (by decide)
    | with_reducible apply State.setCal_kept
    | with_reducible apply kept_ite
    | with_reducible apply kept_foldl
    | with_reducible apply kept_foldl_fst
    | with_reducible apply outKept_next
    | with_reducible apply outKept_ite
    | simp only [kept_mk, true_or]
    | split
    | intro _)

theorem execCalSync_kept {φ : Frame} {s : State} (hm : Sub 0x20000000000000000008 φ.fx) (h1 : s.Kept φ) :
    OutKept φ (execCalSync s) := by
  unfold execCalSync
  try dsimp only
  (repeat' first
    | with_reducible assumption
    | with_reducible exact Sub.of hm (by decide)
    | with_reducible apply State.calSync_kept
    | with_reducible apply kept_ite
    | with_reducible apply kept_foldl
    | with_reducible apply kept_foldl_fst
    | with_reducible apply outKept_next
    | with_reducible apply outKept_ite
    | simp only [kept_mk, true_or]
    | split
    | intro _)

theorem State.eachLane_kept {φ : Frame} {s : State} {ls : List Lane} {f : State → Lane → State} (h1 : s.Kept φ) (hf :
    ∀ t y0, t.Kept φ → State.Kept φ (f t y0)) :
    State.Kept φ (State.eachLane s ls f) := by
  unfold State.eachLane
  try dsimp only
  (repeat' first
    | with_reducible assumption
    | with_reducible apply hf
    | with_reducible apply kept_ite
    | with_reducible apply kept_foldl
    | with_reducible apply kept_foldl_fst
    | with_reducible apply outKept_next
    | with_reducible apply outKept_ite
    | simp only [kept_mk, true_or]
    | split
    | intro _)

theorem State.gclIdle_kept {φ : Frame} {s : State} {n : Nat} {b : Bool} (hm : Sub 0x8 φ.fx) (h1 : s.Kept φ) :
    State.Kept φ (State.gclIdle s n b) := by
  unfold State.gclIdle
  try dsimp only
  (repeat' first
    | with_reducible assumption
    | with_reducible exact Sub.of hm (by decide)
    | with_reducible apply State.setShBit_kept
    | with_reducible apply State.forEach_kept
    | with_reducible apply kept_ite
    | with_reducible apply kept_foldl
    | with_reducible apply kept_foldl_fst
    | with_reducible apply outKept_next
    | with_reducible apply outKept_ite
    | simp only [kept_mk, true_or]
    | split
    | intro _)

theorem State.tbStep_kept {φ : Frame} {s : State} {n : Nat} {t : Nat} (hm : Sub 0x10000c00000008 φ.fx) (h1 : s.Kept φ)
    :
    State.Kept φ (State.tbStep s n t) := by
  unfold State.tbStep
  try dsimp only
  (repeat' first
    | with_reducible assumption
    | with_reducible exact Sub.of hm (by decide)
    | with_reducible apply State.setShBit_kept
    | with_reducible apply State.setTb_kept
    | with_reducible apply State.eachLane_kept
    | with_reducible apply State.countShFld_kept
    | with_reducible apply State.beginFollow_kept
    | with_reducible apply kept_ite
    | with_reducible apply kept_foldl
    | with_reducible apply kept_foldl_fst
    | with_reducible apply outKept_next
    | with_reducible apply outKept_ite
    | simp only [kept_mk, true_or]
    | split
    | intro _)

theorem State.tbStart_kept {φ : Frame} {s : State} {n : Nat} (hm : Sub 0x10000c00000008 φ.fx) (h1 : s.Kept φ) :
    State.Kept φ (State.tbStart s n) := by
  unfold State.tbStart
  try dsimp only
  (repeat' first
    | with_reducible assumption
    | with_reducible exact Sub.of hm (by decide)
    | with_reducible apply State.setShBit_kept
    | with_reducible apply State.setSh_kept
    | with_reducible apply State.setTb_kept
    | with_reducible apply State.setShFld_kept
    | with_reducible apply State.eachLane_kept
    | with_reducible apply State.gclIdle_kept
    | with_reducible apply State.beginFollow_kept
    | with_reducible apply kept_ite
    | with_reducible apply kept_foldl
    | with_reducible apply kept_foldl_fst
    | with_reducible apply outKept_next
    | with_reducible apply outKept_ite
    | simp only [kept_mk, true_or]
    | split
    | intro _)

theorem State.tbStop_kept {φ : Frame} {s : State} {n : Nat} (hm : Sub 0x8 φ.fx) (h1 : s.Kept φ) :
    State.Kept φ (State.tbStop s n) := by
  unfold State.tbStop
  try dsimp only
  (repeat' first
    | with_reducible assumption
    | with_reducible exact Sub.of hm (by decide)
    | with_reducible apply State.setShBit_kept
    | with_reducible apply State.sourceLoss_kept
    | with_reducible apply State.eachLane_kept
    | with_reducible apply State.gclIdle_kept
    | with_reducible apply kept_ite
    | with_reducible apply kept_foldl
    | with_reducible apply kept_foldl_fst
    | with_reducible apply outKept_next
    | with_reducible apply outKept_ite
    | simp only [kept_mk, true_or]
    | split
    | intro _)

theorem State.tbStopAll_kept {φ : Frame} {s : State} (hm : Sub 0x8 φ.fx) (h1 : s.Kept φ) :
    State.Kept φ (State.tbStopAll s) := by
  unfold State.tbStopAll
  try dsimp only
  (repeat' first
    | with_reducible assumption
    | with_reducible exact Sub.of hm (by decide)
    | with_reducible apply State.tbStop_kept
    | with_reducible apply State.forEach_kept
    | with_reducible apply kept_ite
    | with_reducible apply kept_foldl
    | with_reducible apply kept_foldl_fst
    | with_reducible apply outKept_next
    | with_reducible apply outKept_ite
    | simp only [kept_mk, true_or]
    | split
    | intro _)

theorem State.refHalf_kept {φ : Frame} {s : State} {l : Lane} (hm : Sub 0x8 φ.fx) (h1 : s.Kept φ) :
    State.Kept φ (State.refHalf s l) := by
  unfold State.refHalf
  try dsimp only
  (repeat' first
    | with_reducible assumption
    | with_reducible exact Sub.of hm (by decide)
    | with_reducible apply State.setShFld_kept
    | with_reducible apply State.forEach_kept
    | with_reducible apply kept_ite
    | with_reducible apply kept_foldl
    | with_reducible apply kept_foldl_fst
    | with_reducible apply outKept_next
    | with_reducible apply outKept_ite
    | simp only [kept_mk, true_or]
    | split
    | intro _)

theorem State.afterTime_kept {φ : Frame} {s : State} {n : Nat} (hm : Sub 0x10000c00000008 φ.fx) (h1 : s.Kept φ) :
    State.Kept φ (State.afterTime s n) := by
  unfold State.afterTime
  try dsimp only
  (repeat' first
    | with_reducible assumption
    | with_reducible exact Sub.of hm (by decide)
    | with_reducible apply State.tbStop_kept
    | with_reducible apply State.tbStart_kept
    | with_reducible apply kept_ite
    | with_reducible apply kept_foldl
    | with_reducible apply kept_foldl_fst
    | with_reducible apply outKept_next
    | with_reducible apply outKept_ite
    | simp only [kept_mk, true_or]
    | split
    | intro _)

theorem State.putTime_kept {φ : Frame} {s : State} {c : Commit} {n : Nat} (hm : Sub 0x14010000c00000708 φ.fx) (h1 :
    s.Kept φ) :
    State.Kept φ (State.putTime s c n) := by
  unfold State.putTime
  try dsimp only
  (repeat' first
    | with_reducible assumption
    | with_reducible exact Sub.of hm (by decide)
    | with_reducible apply State.applyCommit_kept
    | with_reducible apply State.afterTime_kept
    | with_reducible apply kept_ite
    | with_reducible apply kept_foldl
    | with_reducible apply kept_foldl_fst
    | with_reducible apply outKept_next
    | with_reducible apply outKept_ite
    | simp only [kept_mk, true_or]
    | split
    | intro _)

theorem State.applyTime_kept {φ : Frame} {s : State} {c : Commit} (hm : Sub 0x14010000c00000708 φ.fx) (h1 : s.Kept φ)
    :
    State.Kept φ (State.applyTime s c) := by
  unfold State.applyTime
  try dsimp only
  (repeat' first
    | with_reducible assumption
    | with_reducible exact Sub.of hm (by decide)
    | with_reducible apply State.dropCommit_kept
    | with_reducible apply State.setNum_kept
    | with_reducible apply State.putTime_kept
    | with_reducible apply State.applyCommit_kept
    | with_reducible apply State.addCommit_kept
    | with_reducible apply kept_ite
    | with_reducible apply kept_foldl
    | with_reducible apply kept_foldl_fst
    | with_reducible apply outKept_next
    | with_reducible apply outKept_ite
    | simp only [kept_mk, true_or]
    | split
    | intro _)

theorem State.servoUpdate_kept {φ : Frame} {s : State} {n : Nat} (hm : Sub 0x14010000c00000708 φ.fx) (h1 : s.Kept φ) :
    State.Kept φ (State.servoUpdate s n) := by
  unfold State.servoUpdate
  try dsimp only
  (repeat' first
    | with_reducible assumption
    | with_reducible exact Sub.of hm (by decide)
    | with_reducible apply State.putTime_kept
    | with_reducible apply kept_ite
    | with_reducible apply kept_foldl
    | with_reducible apply kept_foldl_fst
    | with_reducible apply outKept_next
    | with_reducible apply outKept_ite
    | simp only [kept_mk, true_or]
    | split
    | intro _)

theorem State.servoSample_kept {φ : Frame} {s : State} {n : Nat} {o : Int} {tUs : Nat} (hm : Sub
    0x20014010000c00000708 φ.fx) (h1 : s.Kept φ) :
    State.Kept φ (State.servoSample s n o tUs) := by
  unfold State.servoSample
  try dsimp only
  (repeat' first
    | with_reducible assumption
    | with_reducible exact Sub.of hm (by decide)
    | with_reducible apply State.setShBit_kept
    | with_reducible apply State.setSh_kept
    | with_reducible apply State.setTb_kept
    | with_reducible apply State.calSync_kept
    | with_reducible apply State.tbStep_kept
    | with_reducible apply State.servoUpdate_kept
    | with_reducible apply kept_ite
    | with_reducible apply kept_foldl
    | with_reducible apply kept_foldl_fst
    | with_reducible apply outKept_next
    | with_reducible apply outKept_ite
    | simp only [kept_mk, true_or]
    | split
    | intro _)

theorem execServoSample_kept {φ : Frame} {l : Lane} {who : Initiator} {n : Nat} {hi : Word} {s : State} (hm : Sub
    0x20014010000c00000728 φ.fx) (h1 : s.Kept φ) :
    OutKept φ (execServoSample l who n hi s) := by
  unfold execServoSample
  try dsimp only
  (repeat' first
    | with_reducible assumption
    | with_reducible exact Sub.of hm (by decide)
    | with_reducible apply State.servoSample_kept
    | with_reducible apply State.setSh_kept
    | with_reducible apply State.busOk_kept
    | with_reducible apply State.busErr_kept
    | with_reducible apply kept_ite
    | with_reducible apply kept_foldl
    | with_reducible apply kept_foldl_fst
    | with_reducible apply outKept_next
    | with_reducible apply outKept_ite
    | simp only [kept_mk, true_or]
    | split
    | intro _)

theorem execTimeSetGo_kept {φ : Frame} {l : Lane} {who : Initiator} {n : Nat} {hi : Word} {s : State} (hm : Sub
    0x10000c00000028 φ.fx) (h1 : s.Kept φ) :
    OutKept φ (execTimeSetGo l who n hi s) := by
  unfold execTimeSetGo
  try dsimp only
  (repeat' first
    | with_reducible assumption
    | with_reducible exact Sub.of hm (by decide)
    | with_reducible apply State.setSh_kept
    | with_reducible apply State.busOk_kept
    | with_reducible apply State.tbStep_kept
    | with_reducible apply State.busErr_kept
    | with_reducible apply kept_ite
    | with_reducible apply kept_foldl
    | with_reducible apply kept_foldl_fst
    | with_reducible apply outKept_next
    | with_reducible apply outKept_ite
    | simp only [kept_mk, true_or]
    | split
    | intro _)

theorem execTimeNowRead_kept {φ : Frame} {l : Lane} {who : Initiator} {n : Nat} {s : State} (hm : Sub 0x28 φ.fx) (h1 :
    s.Kept φ) :
    OutKept φ (execTimeNowRead l who n s) := by
  unfold execTimeNowRead
  try dsimp only
  (repeat' first
    | with_reducible assumption
    | with_reducible exact Sub.of hm (by decide)
    | with_reducible apply State.busOk_kept
    | with_reducible apply State.setRegs_kept
    | with_reducible apply State.busErr_kept
    | with_reducible apply kept_ite
    | with_reducible apply kept_foldl
    | with_reducible apply kept_foldl_fst
    | with_reducible apply outKept_next
    | with_reducible apply outKept_ite
    | simp only [kept_mk, true_or]
    | split
    | intro _)

theorem execServoTimer_kept {φ : Frame} {n : Nat} {s : State} (hm : Sub 0x14010000c00000708 φ.fx) (h1 : s.Kept φ) :
    OutKept φ (execServoTimer n s) := by
  unfold execServoTimer
  try dsimp only
  (repeat' first
    | with_reducible assumption
    | with_reducible exact Sub.of hm (by decide)
    | with_reducible apply State.servoUpdate_kept
    | with_reducible apply kept_ite
    | with_reducible apply kept_foldl
    | with_reducible apply kept_foldl_fst
    | with_reducible apply outKept_next
    | with_reducible apply outKept_ite
    | simp only [kept_mk, true_or]
    | split
    | intro _)

theorem execTimeHoldover_kept {φ : Frame} {n : Nat} {s : State} (hm : Sub 0x10000000000008 φ.fx) (h1 : s.Kept φ) :
    OutKept φ (execTimeHoldover n s) := by
  unfold execTimeHoldover
  try dsimp only
  (repeat' first
    | with_reducible assumption
    | with_reducible exact Sub.of hm (by decide)
    | with_reducible apply State.setShBit_kept
    | with_reducible apply State.setSh_kept
    | with_reducible apply State.setTb_kept
    | with_reducible apply kept_ite
    | with_reducible apply kept_foldl
    | with_reducible apply kept_foldl_fst
    | with_reducible apply outKept_next
    | with_reducible apply outKept_ite
    | simp only [kept_mk, true_or]
    | split
    | intro _)

theorem execXcapCapture_kept {φ : Frame} {n : Nat} {s : State} (hm : Sub 0x10000000000008 φ.fx) (h1 : s.Kept φ) :
    OutKept φ (execXcapCapture n s) := by
  unfold execXcapCapture
  try dsimp only
  (repeat' first
    | with_reducible assumption
    | with_reducible exact Sub.of hm (by decide)
    | with_reducible apply State.setTb_kept
    | with_reducible apply State.setRegs_kept
    | with_reducible apply kept_ite
    | with_reducible apply kept_foldl
    | with_reducible apply kept_foldl_fst
    | with_reducible apply outKept_next
    | with_reducible apply outKept_ite
    | simp only [kept_mk, true_or]
    | split
    | intro _)

theorem specTimeStatus_kept {φ : Frame}   :
    CmdSpec.Kept φ (specTimeStatus ) := by
  refine ⟨?_, ?_, ?_, ?_⟩ <;> intros <;> dsimp only [specTimeStatus] <;>
  (repeat' first
    | with_reducible assumption
    | with_reducible apply kept_ite
    | with_reducible apply kept_foldl
    | with_reducible apply kept_foldl_fst
    | with_reducible apply outKept_next
    | with_reducible apply outKept_ite
    | simp only [kept_mk, true_or]
    | split
    | intro _)

theorem specTimeConfig_kept {φ : Frame}  (hm : Sub 0x608 φ.fx)  :
    CmdSpec.Kept φ (specTimeConfig ) := by
  refine ⟨?_, ?_, ?_, ?_⟩ <;> intros <;> dsimp only [specTimeConfig] <;>
  (repeat' first
    | with_reducible assumption
    | with_reducible exact Sub.of hm (by decide)
    | with_reducible apply State.commitSharedSplit_kept
    | with_reducible apply kept_ite
    | with_reducible apply kept_foldl
    | with_reducible apply kept_foldl_fst
    | with_reducible apply outKept_next
    | with_reducible apply outKept_ite
    | simp only [kept_mk, true_or]
    | split
    | intro _)

theorem specTimeSet_kept {φ : Frame}  (hm : Sub 0x80000000000 φ.fx)  :
    CmdSpec.Kept φ (specTimeSet ) := by
  refine ⟨?_, ?_, ?_, ?_⟩ <;> intros <;> dsimp only [specTimeSet] <;>
  (repeat' first
    | with_reducible assumption
    | with_reducible exact Sub.of hm (by decide)
    | with_reducible apply State.cmnSend_kept
    | with_reducible apply kept_ite
    | with_reducible apply kept_foldl
    | with_reducible apply kept_foldl_fst
    | with_reducible apply outKept_next
    | with_reducible apply outKept_ite
    | simp only [kept_mk, true_or]
    | split
    | intro _)

theorem State.applyTimeSet_kept {φ : Frame} {s : State} {n : Nat} {ns : Nat} {lsn : Option Nat} (hm : Sub
    0x14010000c00000108 φ.fx) (h1 : s.Kept φ) :
    State.Kept φ (State.applyTimeSet s n ns lsn) := by
  unfold State.applyTimeSet
  try dsimp only
  (repeat' first
    | with_reducible assumption
    | with_reducible exact Sub.of hm (by decide)
    | with_reducible apply State.tbStep_kept
    | with_reducible apply State.doneOpt_kept
    | with_reducible apply kept_ite
    | with_reducible apply kept_foldl
    | with_reducible apply kept_foldl_fst
    | with_reducible apply outKept_next
    | with_reducible apply outKept_ite
    | simp only [kept_mk, true_or]
    | split
    | intro _)

theorem specTimeComp_kept {φ : Frame}  (hm : Sub 0x608 φ.fx)  :
    CmdSpec.Kept φ (specTimeComp ) := by
  refine ⟨?_, ?_, ?_, ?_⟩ <;> intros <;> dsimp only [specTimeComp] <;>
  (repeat' first
    | with_reducible assumption
    | with_reducible exact Sub.of hm (by decide)
    | with_reducible apply State.commitSharedSplit_kept
    | with_reducible apply kept_ite
    | with_reducible apply kept_foldl
    | with_reducible apply kept_foldl_fst
    | with_reducible apply outKept_next
    | with_reducible apply outKept_ite
    | simp only [kept_mk, true_or]
    | split
    | intro _)

theorem specTimeCapture_kept {φ : Frame}   :
    CmdSpec.Kept φ (specTimeCapture ) := by
  refine ⟨?_, ?_, ?_, ?_⟩ <;> intros <;> dsimp only [specTimeCapture] <;>
  (repeat' first
    | with_reducible assumption
    | with_reducible apply kept_ite
    | with_reducible apply kept_foldl
    | with_reducible apply kept_foldl_fst
    | with_reducible apply outKept_next
    | with_reducible apply outKept_ite
    | simp only [kept_mk, true_or]
    | split
    | intro _)

theorem execTimeStatus_kept {φ : Frame} {r : Req} {s : State} (hm : Sub 0x17efdce0fafc007a03dc φ.fx) (h1 : s.Kept φ) :
    OutKept φ (execTimeStatus r s) := by
  unfold execTimeStatus
  try dsimp only
  (repeat' first
    | with_reducible assumption
    | with_reducible exact Sub.of hm (by decide)
    | with_reducible apply specTimeStatus_kept
    | with_reducible apply runScs_kept
    | with_reducible apply kept_ite
    | with_reducible apply kept_foldl
    | with_reducible apply kept_foldl_fst
    | with_reducible apply outKept_next
    | with_reducible apply outKept_ite
    | simp only [kept_mk, true_or]
    | split
    | intro _)

theorem execTimeConfig_kept {φ : Frame} {r : Req} {s : State} (hm : Sub 0x17efdce0fafc007a07dc φ.fx) (h1 : s.Kept φ) :
    OutKept φ (execTimeConfig r s) := by
  unfold execTimeConfig
  try dsimp only
  (repeat' first
    | with_reducible assumption
    | with_reducible exact Sub.of hm (by decide)
    | with_reducible apply specTimeConfig_kept
    | with_reducible apply runScs_kept
    | with_reducible apply kept_ite
    | with_reducible apply kept_foldl
    | with_reducible apply kept_foldl_fst
    | with_reducible apply outKept_next
    | with_reducible apply outKept_ite
    | simp only [kept_mk, true_or]
    | split
    | intro _)

theorem execTimeSet_kept {φ : Frame} {r : Req} {s : State} (hm : Sub 0x17efdce0fafc007a03dc φ.fx) (h1 : s.Kept φ) :
    OutKept φ (execTimeSet r s) := by
  unfold execTimeSet
  try dsimp only
  (repeat' first
    | with_reducible assumption
    | with_reducible exact Sub.of hm (by decide)
    | with_reducible apply runScs_kept
    | with_reducible apply specTimeSet_kept
    | with_reducible apply kept_ite
    | with_reducible apply kept_foldl
    | with_reducible apply kept_foldl_fst
    | with_reducible apply outKept_next
    | with_reducible apply outKept_ite
    | simp only [kept_mk, true_or]
    | split
    | intro _)

theorem execTimeComp_kept {φ : Frame} {r : Req} {s : State} (hm : Sub 0x17efdce0fafc007a07dc φ.fx) (h1 : s.Kept φ) :
    OutKept φ (execTimeComp r s) := by
  unfold execTimeComp
  try dsimp only
  (repeat' first
    | with_reducible assumption
    | with_reducible exact Sub.of hm (by decide)
    | with_reducible apply specTimeComp_kept
    | with_reducible apply runScs_kept
    | with_reducible apply kept_ite
    | with_reducible apply kept_foldl
    | with_reducible apply kept_foldl_fst
    | with_reducible apply outKept_next
    | with_reducible apply outKept_ite
    | simp only [kept_mk, true_or]
    | split
    | intro _)

theorem execTimeCapture_kept {φ : Frame} {r : Req} {s : State} (hm : Sub 0x17efdce0fafc007a03dc φ.fx) (h1 : s.Kept φ)
    :
    OutKept φ (execTimeCapture r s) := by
  unfold execTimeCapture
  try dsimp only
  (repeat' first
    | with_reducible assumption
    | with_reducible exact Sub.of hm (by decide)
    | with_reducible apply runScs_kept
    | with_reducible apply specTimeCapture_kept
    | with_reducible apply kept_ite
    | with_reducible apply kept_foldl
    | with_reducible apply kept_foldl_fst
    | with_reducible apply outKept_next
    | with_reducible apply outKept_ite
    | simp only [kept_mk, true_or]
    | split
    | intro _)

end Sys2Proof.Machine
end

