-- ==== Sys2Proof/Laws/KeptEth.lean ====
section
/-! SUPPORT. The operations of Eth.lean keep the invariant, the queue and the time. -/

namespace Sys2Proof.Machine

theorem State.setEthStat_kept {φ : Frame} {s : State} {p : Nat} {f : Fld} {b : Bool} (hm : Sub 0x8 φ.fx) (h1 : s.Kept
    φ) :
    State.Kept φ (State.setEthStat s p f b) := by
  unfold State.setEthStat
  try dsimp only
  (repeat' first
    | with_reducible assumption
    | with_reducible exact Sub.of hm (by decide)
    | with_reducible apply State.setShBit_kept
    | with_reducible apply kept_ite
    | with_reducible apply kept_foldl
    | with_reducible apply kept_foldl_fst
    | with_reducible apply outKept_next
    | with_reducible apply outKept_ite
    | simp only [kept_mk, true_or]
    | split
    | intro _)

theorem State.modEth_kept {φ : Frame} {s : State} {f : EthRt → EthRt} (hm : Sub 0x20000000000000 φ.fx) (h1 : s.Kept φ)
    :
    State.Kept φ (State.modEth s f) := by
  unfold State.modEth
  try dsimp only
  (repeat' first
    | with_reducible assumption
    | with_reducible exact Sub.of hm (by decide)
    | with_reducible apply kept_ite
    | with_reducible apply kept_foldl
    | with_reducible apply kept_foldl_fst
    | with_reducible apply outKept_next
    | with_reducible apply outKept_ite
    | simp only [kept_mk, hm.bit 53 rfl, or_true, true_or]
    | split
    | intro _)

theorem State.setGcl_kept {φ : Frame} {s : State} {p : Nat} {x : GclRt} (hm : Sub 0x20000000000000 φ.fx) (h1 : s.Kept
    φ) :
    State.Kept φ (State.setGcl s p x) := by
  unfold State.setGcl
  try dsimp only
  (repeat' first
    | with_reducible assumption
    | with_reducible exact Sub.of hm (by decide)
    | with_reducible apply State.modEth_kept
    | with_reducible apply kept_ite
    | with_reducible apply kept_foldl
    | with_reducible apply kept_foldl_fst
    | with_reducible apply outKept_next
    | with_reducible apply outKept_ite
    | simp only [kept_mk, true_or]
    | split
    | intro _)

theorem State.takeGcl_kept {φ : Frame} {s : State} {p : Nat} (hm : Sub 0x14020000000000108 φ.fx) (h1 : s.Kept φ) :
    State.Kept φ (State.takeGcl s p) := by
  unfold State.takeGcl
  try dsimp only
  (repeat' first
    | with_reducible assumption
    | with_reducible exact Sub.of hm (by decide)
    | with_reducible apply State.setGcl_kept
    | with_reducible apply State.settleAll_kept
    | with_reducible apply State.setEthStat_kept
    | with_reducible apply State.activateAll_kept
    | with_reducible apply kept_ite
    | with_reducible apply kept_foldl
    | with_reducible apply kept_foldl_fst
    | with_reducible apply outKept_next
    | with_reducible apply outKept_ite
    | simp only [kept_mk, true_or]
    | split
    | intro _)

theorem State.applyEthPort_kept {φ : Frame} {s : State} {p : Nat} {c : Commit} (hm : Sub 0x14020000000000708 φ.fx) (h1
    : s.Kept φ) :
    State.Kept φ (State.applyEthPort s p c) := by
  unfold State.applyEthPort
  try dsimp only
  (repeat' first
    | with_reducible assumption
    | with_reducible exact Sub.of hm (by decide)
    | with_reducible apply State.dropCommit_kept
    | with_reducible apply State.setNum_kept
    | with_reducible apply State.setGcl_kept
    | with_reducible apply State.settleAll_kept
    | with_reducible apply State.setEthStat_kept
    | with_reducible apply State.activateAll_kept
    | with_reducible apply State.modEth_kept
    | with_reducible apply kept_ite
    | with_reducible apply kept_foldl
    | with_reducible apply kept_foldl_fst
    | with_reducible apply outKept_next
    | with_reducible apply outKept_ite
    | simp only [kept_mk, true_or]
    | split
    | intro _)

theorem State.unblock_kept {φ : Frame} {s : State} {ws : List RegCell} (hm : Sub 0x8 φ.fx) (h1 : s.Kept φ) :
    State.Kept φ (State.unblock s ws) := by
  unfold State.unblock
  try dsimp only
  (repeat' first
    | with_reducible assumption
    | with_reducible exact Sub.of hm (by decide)
    | with_reducible apply State.setSh_kept
    | with_reducible apply kept_ite
    | with_reducible apply kept_foldl
    | with_reducible apply kept_foldl_fst
    | with_reducible apply outKept_next
    | with_reducible apply outKept_ite
    | simp only [kept_mk, true_or]
    | split
    | intro _)

theorem State.applyEth_kept {φ : Frame} {s : State} {c : Commit} (hm : Sub 0x14020000000000708 φ.fx) (h1 : s.Kept φ) :
    State.Kept φ (State.applyEth s c) := by
  unfold State.applyEth
  try dsimp only
  (repeat' first
    | with_reducible assumption
    | with_reducible exact Sub.of hm (by decide)
    | with_reducible apply State.applyCommit_kept
    | with_reducible apply State.applyEthPort_kept
    | with_reducible apply State.unblock_kept
    | with_reducible apply kept_ite
    | with_reducible apply kept_foldl
    | with_reducible apply kept_foldl_fst
    | with_reducible apply outKept_next
    | with_reducible apply outKept_ite
    | simp only [kept_mk, true_or]
    | split
    | intro _)

theorem execGclEntry_kept {φ : Frame} {p : Nat} {s : State} (hm : Sub 0x14020000000000108 φ.fx) (h1 : s.Kept φ) :
    OutKept φ (execGclEntry p s) := by
  unfold execGclEntry
  try dsimp only
  (repeat' first
    | with_reducible assumption
    | with_reducible exact Sub.of hm (by decide)
    | with_reducible apply State.takeGcl_kept
    | with_reducible apply State.setGcl_kept
    | with_reducible apply kept_ite
    | with_reducible apply kept_foldl
    | with_reducible apply kept_foldl_fst
    | with_reducible apply outKept_next
    | with_reducible apply outKept_ite
    | simp only [kept_mk, true_or]
    | split
    | intro _)

theorem State.meterMark_kept {φ : Frame} {s : State} {m : Nat} {len : Nat} (hm : Sub 0x20000000000000 φ.fx) (h1 :
    s.Kept φ) :
    State.Kept φ (State.meterMark s m len).1 := by
  unfold State.meterMark
  try dsimp only
  (repeat' first
    | with_reducible assumption
    | with_reducible exact Sub.of hm (by decide)
    | with_reducible apply State.modEth_kept
    | with_reducible apply kept_ite
    | with_reducible apply kept_foldl
    | with_reducible apply kept_foldl_fst
    | with_reducible apply outKept_next
    | with_reducible apply outKept_ite
    | simp only [kept_mk, true_or]
    | split
    | intro _)

theorem State.filterFrame_kept {φ : Frame} {s : State} {f : EthFrame} (hm : Sub 0x20000000000008 φ.fx) (h1 : s.Kept φ) : (s.filterFrame f).st.Kept φ := by
  unfold State.filterFrame
  split
  · exact h1
  · dsimp only
    split
    · exact h1
    · split
      · exact kept_ite (fun _ => State.setShBit_kept (Sub.of hm (by decide)) h1) (fun _ => h1)
      · split
        · exact State.meterMark_kept (Sub.of hm (by decide)) h1
        · exact h1

theorem State.ethEnds_kept {φ : Frame} {s : State} {lsn : Option Nat} {pdu : Option Nat} {disp : Nat} {err : Nat} (hm
    : Sub 0x14200000000000108 φ.fx) (h1 : s.Kept φ) :
    State.Kept φ (State.ethEnds s lsn pdu disp err) := by
  unfold State.ethEnds
  try dsimp only
  (repeat' first
    | with_reducible assumption
    | with_reducible exact Sub.of hm (by decide)
    | with_reducible apply State.disposeOpt_kept
    | with_reducible apply State.pduFail_kept
    | with_reducible apply kept_ite
    | with_reducible apply kept_foldl
    | with_reducible apply kept_foldl_fst
    | with_reducible apply outKept_next
    | with_reducible apply outKept_ite
    | simp only [kept_mk, true_or]
    | split
    | intro _)

theorem State.syncCells_kept {φ : Frame} {s : State} (hm : Sub 0x8 φ.fx) (h1 : s.Kept φ) :
    State.Kept φ (State.syncCells s) := by
  unfold State.syncCells
  try dsimp only
  (repeat' first
    | with_reducible assumption
    | with_reducible exact Sub.of hm (by decide)
    | with_reducible apply State.setShFld_kept
    | with_reducible apply kept_ite
    | with_reducible apply kept_foldl
    | with_reducible apply kept_foldl_fst
    | with_reducible apply outKept_next
    | with_reducible apply outKept_ite
    | simp only [kept_mk, true_or]
    | split
    | intro _)

theorem State.dropBuf_kept {φ : Frame} {s : State} {id : Nat} (hm : Sub 0x20000000000008 φ.fx) (h1 : s.Kept φ) :
    State.Kept φ (State.dropBuf s id) := by
  unfold State.dropBuf
  try dsimp only
  (repeat' first
    | with_reducible assumption
    | with_reducible exact Sub.of hm (by decide)
    | with_reducible apply State.syncCells_kept
    | with_reducible apply State.modEth_kept
    | with_reducible apply kept_ite
    | with_reducible apply kept_foldl
    | with_reducible apply kept_foldl_fst
    | with_reducible apply outKept_next
    | with_reducible apply outKept_ite
    | simp only [kept_mk, true_or]
    | split
    | intro _)

theorem State.putBuf_kept {φ : Frame} {s : State} {b : EthBuf} (hm : Sub 0x20000000000000 φ.fx) (h1 : s.Kept φ) :
    State.Kept φ (State.putBuf s b) := by
  unfold State.putBuf
  try dsimp only
  (repeat' first
    | with_reducible assumption
    | with_reducible exact Sub.of hm (by decide)
    | with_reducible apply State.modEth_kept
    | with_reducible apply kept_ite
    | with_reducible apply kept_foldl
    | with_reducible apply kept_foldl_fst
    | with_reducible apply outKept_next
    | with_reducible apply outKept_ite
    | simp only [kept_mk, true_or]
    | split
    | intro _)

theorem State.resolve_kept {φ : Frame} {s : State} {id : Nat} (hm : Sub 0x14220000000000108 φ.fx) (h1 : s.Kept φ) :
    State.Kept φ (State.resolve s id) := by
  unfold State.resolve
  try dsimp only
  (repeat' first
    | with_reducible assumption
    | with_reducible exact Sub.of hm (by decide)
    | with_reducible apply State.ethEnds_kept
    | with_reducible apply State.dropBuf_kept
    | with_reducible apply State.doneOpt_kept
    | with_reducible apply kept_ite
    | with_reducible apply kept_foldl
    | with_reducible apply kept_foldl_fst
    | with_reducible apply outKept_next
    | with_reducible apply outKept_ite
    | simp only [kept_mk, true_or]
    | split
    | intro _)

theorem State.resolveAll_kept {φ : Frame} {s : State} (hm : Sub 0x14220000000000108 φ.fx) (h1 : s.Kept φ) :
    State.Kept φ (State.resolveAll s) := by
  unfold State.resolveAll
  try dsimp only
  (repeat' first
    | with_reducible assumption
    | with_reducible exact Sub.of hm (by decide)
    | with_reducible apply State.resolve_kept
    | with_reducible apply State.forEach_kept
    | with_reducible apply kept_ite
    | with_reducible apply kept_foldl
    | with_reducible apply kept_foldl_fst
    | with_reducible apply outKept_next
    | with_reducible apply outKept_ite
    | simp only [kept_mk, true_or]
    | split
    | intro _)

theorem State.learn_kept {φ : Frame} {s : State} {f : EthFrame} {p : Nat} (hm : Sub 0x20000000000000 φ.fx) (h1 :
    s.Kept φ) :
    State.Kept φ (State.learn s f p) := by
  unfold State.learn
  try dsimp only
  (repeat' first
    | with_reducible assumption
    | with_reducible exact Sub.of hm (by decide)
    | with_reducible apply State.modEth_kept
    | with_reducible apply kept_ite
    | with_reducible apply kept_foldl
    | with_reducible apply kept_foldl_fst
    | with_reducible apply outKept_next
    | with_reducible apply outKept_ite
    | simp only [kept_mk, true_or]
    | split
    | intro _)

theorem State.ctrlAdmit_kept {φ : Frame} {s : State} {l : Lane} {len : Nat} (hm : Sub 0x20000000000000 φ.fx) (h1 :
    s.Kept φ) :
    State.Kept φ (State.ctrlAdmit s l len).1 := by
  unfold State.ctrlAdmit
  try dsimp only
  (repeat' first
    | with_reducible assumption
    | with_reducible exact Sub.of hm (by decide)
    | with_reducible apply State.modEth_kept
    | with_reducible apply kept_ite
    | with_reducible apply kept_foldl
    | with_reducible apply kept_foldl_fst
    | with_reducible apply outKept_next
    | with_reducible apply outKept_ite
    | simp only [kept_mk, true_or]
    | split
    | intro _)

theorem State.addBuf_kept {φ : Frame} {s : State} {f : EthFrame} {pool : Nat} {cls : Nat} {dei : Bool} {ports : Nat}
    {seq : Option Nat} {lstream : Option Nat} {lsn : Option Nat} {pdu : Option Nat} {dl : Option Nat} (hm : Sub
    0x20000000000008 φ.fx) (h1 : s.Kept φ) :
    State.Kept φ (State.addBuf s f pool cls dei ports seq lstream lsn pdu dl) := by
  unfold State.addBuf
  try dsimp only
  (repeat' first
    | with_reducible assumption
    | with_reducible exact Sub.of hm (by decide)
    | with_reducible apply State.syncCells_kept
    | with_reducible apply State.modEth_kept
    | with_reducible apply kept_ite
    | with_reducible apply kept_foldl
    | with_reducible apply kept_foldl_fst
    | with_reducible apply outKept_next
    | with_reducible apply outKept_ite
    | simp only [kept_mk, true_or]
    | split
    | intro _)

theorem State.admitPort_kept {φ : Frame} {s : State} {f : EthFrame} {cls : Nat} {dei : Bool} {seq : Option Nat} {q :
    Nat} (hm : Sub 0x20000000000008 φ.fx) (h1 : s.Kept φ) :
    State.Kept φ (State.admitPort s f cls dei seq q) := by
  unfold State.admitPort
  try dsimp only
  (repeat' first
    | with_reducible assumption
    | with_reducible exact Sub.of hm (by decide)
    | with_reducible apply State.ctrlAdmit_kept
    | with_reducible apply State.countSh_kept
    | with_reducible apply State.addBuf_kept
    | with_reducible apply kept_ite
    | with_reducible apply kept_foldl
    | with_reducible apply kept_foldl_fst
    | with_reducible apply outKept_next
    | with_reducible apply outKept_ite
    | simp only [kept_mk, true_or]
    | split
    | intro _)

theorem State.admitAll_kept {φ : Frame} {s : State} {f : EthFrame} {cls : Nat} {dei : Bool} {seq : Option Nat} {qs :
    List Nat} (hm : Sub 0x20000000000008 φ.fx) (h1 : s.Kept φ) :
    State.Kept φ (State.admitAll s f cls dei seq qs) := by
  unfold State.admitAll
  try dsimp only
  (repeat' first
    | with_reducible assumption
    | with_reducible exact Sub.of hm (by decide)
    | with_reducible apply State.admitPort_kept
    | with_reducible apply kept_ite
    | with_reducible apply kept_foldl
    | with_reducible apply kept_foldl_fst
    | with_reducible apply outKept_next
    | with_reducible apply outKept_ite
    | simp only [kept_mk, true_or]
    | split
    | intro _)

theorem State.frNext_kept {φ : Frame} {s : State} {k : Nat} (hm : Sub 0x20000000000000 φ.fx) (h1 : s.Kept φ) :
    State.Kept φ (State.frNext s k).1 := by
  unfold State.frNext
  try dsimp only
  (repeat' first
    | with_reducible assumption
    | with_reducible exact Sub.of hm (by decide)
    | with_reducible apply State.modEth_kept
    | with_reducible apply kept_ite
    | with_reducible apply kept_foldl
    | with_reducible apply kept_foldl_fst
    | with_reducible apply outKept_next
    | with_reducible apply outKept_ite
    | simp only [kept_mk, true_or]
    | split
    | intro _)

theorem State.frTake_kept {φ : Frame} {s : State} {k : Nat} {seq : Nat} {p : Nat} (hm : Sub 0x20000000000008 φ.fx) (h1
    : s.Kept φ) :
    State.Kept φ (State.frTake s k seq p).1 := by
  unfold State.frTake
  try dsimp only
  (repeat' first
    | with_reducible assumption
    | with_reducible exact Sub.of hm (by decide)
    | with_reducible apply State.setSh_kept
    | with_reducible apply State.countSh_kept
    | with_reducible apply State.modEth_kept
    | with_reducible apply kept_ite
    | with_reducible apply kept_foldl
    | with_reducible apply kept_foldl_fst
    | with_reducible apply outKept_next
    | with_reducible apply outKept_ite
    | simp only [kept_mk, true_or]
    | split
    | intro _)

theorem State.ethIngress_kept {φ : Frame} {s : State} {p : Nat} {f : EthFrame} (hm : Sub 0x16024000000000188 φ.fx) (h1
    : s.Kept φ) :
    State.Kept φ (State.ethIngress s p f) := by
  unfold State.ethIngress
  try dsimp only
  (repeat' first
    | with_reducible assumption
    | with_reducible exact Sub.of hm (by decide)
    | with_reducible apply State.frameSeen_kept
    | with_reducible apply State.frNext_kept
    | with_reducible apply Filtered.st_kept
    | with_reducible apply State.admitAll_kept
    | with_reducible apply State.countSh_kept
    | with_reducible apply State.filterFrame_kept
    | with_reducible apply State.learn_kept
    | with_reducible apply State.frTake_kept
    | with_reducible apply kept_ite
    | with_reducible apply kept_foldl
    | with_reducible apply kept_foldl_fst
    | with_reducible apply outKept_next
    | with_reducible apply outKept_ite
    | simp only [kept_mk, true_or]
    | split
    | intro _)

theorem execEthFrameIngress_kept {φ : Frame} {p : Nat} {f : EthFrame} {s : State} (hm : Sub 0x16024000000000188 φ.fx)
    (h1 : s.Kept φ) :
    OutKept φ (execEthFrameIngress p f s) := by
  unfold execEthFrameIngress
  try dsimp only
  (repeat' first
    | with_reducible assumption
    | with_reducible exact Sub.of hm (by decide)
    | with_reducible apply State.ethIngress_kept
    | with_reducible apply kept_ite
    | with_reducible apply kept_foldl
    | with_reducible apply kept_foldl_fst
    | with_reducible apply outKept_next
    | with_reducible apply outKept_ite
    | simp only [kept_mk, true_or]
    | split
    | intro _)

theorem State.ethTake_kept {φ : Frame} {s : State} {l : Lane} {lstream : Nat} (hm : Sub 0x20000000000000 φ.fx) (h1 :
    s.Kept φ) :
    State.Kept φ (State.ethTake s l lstream).1 := by
  unfold State.ethTake
  try dsimp only
  (repeat' first
    | with_reducible assumption
    | with_reducible exact Sub.of hm (by decide)
    | with_reducible apply State.modEth_kept
    | with_reducible apply kept_ite
    | with_reducible apply kept_foldl
    | with_reducible apply kept_foldl_fst
    | with_reducible apply outKept_next
    | with_reducible apply outKept_ite
    | simp only [kept_mk, true_or]
    | split
    | intro _)

theorem State.ethHand_kept {φ : Frame} {s : State} {ls : List Lane} {f : EthFrame} {lstream : Nat} {lsn : Option Nat}
    {pdu : Option Nat} {dl : Option Nat} (hm : Sub 0x20000000000000 φ.fx) (h1 : s.Kept φ) :
    State.Kept φ (State.ethHand s ls f lstream lsn pdu dl) := by
  unfold State.ethHand
  try dsimp only
  (repeat' first
    | with_reducible assumption
    | with_reducible exact Sub.of hm (by decide)
    | with_reducible apply State.ethTake_kept
    | with_reducible apply State.modEth_kept
    | with_reducible apply kept_ite
    | with_reducible apply kept_foldl
    | with_reducible apply kept_foldl_fst
    | with_reducible apply outKept_next
    | with_reducible apply outKept_ite
    | simp only [kept_mk, true_or]
    | split
    | intro _)

theorem State.laneRoute_kept {φ : Frame} {s : State} {f : EthFrame} {p : Nat} (hm : Sub 0x20000000000000 φ.fx) (h1 :
    s.Kept φ) :
    State.Kept φ (State.laneRoute s f p).1 := by
  unfold State.laneRoute
  try dsimp only
  (repeat' first
    | with_reducible assumption
    | with_reducible exact Sub.of hm (by decide)
    | with_reducible apply State.frNext_kept
    | with_reducible apply kept_ite
    | with_reducible apply kept_foldl
    | with_reducible apply kept_foldl_fst
    | with_reducible apply outKept_next
    | with_reducible apply outKept_ite
    | simp only [kept_mk, true_or]
    | split
    | intro _)

theorem State.wakeForPorts_kept {φ : Frame} {s : State} {ports : List Nat} (hm : Sub 0x16204400000840188 φ.fx) (h1 :
    s.Kept φ) :
    State.Kept φ (State.wakeForPorts s ports) := by
  unfold State.wakeForPorts
  try dsimp only
  (repeat' first
    | with_reducible assumption
    | with_reducible exact Sub.of hm (by decide)
    | with_reducible apply State.wakeOrDusk_kept
    | with_reducible apply kept_ite
    | with_reducible apply kept_foldl
    | with_reducible apply kept_foldl_fst
    | with_reducible apply outKept_next
    | with_reducible apply outKept_ite
    | simp only [kept_mk, true_or]
    | split
    | intro _)

theorem State.laneAdmit_kept {φ : Frame} {s : State} {h : EthHeld} {cls : Nat} {dei : Bool} (hm : Sub
    0x16224400000840188 φ.fx) (h1 : s.Kept φ) :
    State.Kept φ (State.laneAdmit s h cls dei) := by
  unfold State.laneAdmit
  try dsimp only
  (repeat' first
    | with_reducible assumption
    | with_reducible exact Sub.of hm (by decide)
    | with_reducible apply State.laneRoute_kept
    | with_reducible apply State.wakeForPorts_kept
    | with_reducible apply State.ethEnds_kept
    | with_reducible apply State.resolve_kept
    | with_reducible apply State.addBuf_kept
    | with_reducible apply kept_ite
    | with_reducible apply kept_foldl
    | with_reducible apply kept_foldl_fst
    | with_reducible apply outKept_next
    | with_reducible apply outKept_ite
    | simp only [kept_mk, true_or]
    | split
    | intro _)

theorem State.laneFirst_kept {φ : Frame} {s : State} {h : EthHeld} (hm : Sub 0x16224400000840188 φ.fx) (h1 : s.Kept φ)
    :
    State.Kept φ (State.laneFirst s h) := by
  unfold State.laneFirst
  try dsimp only
  (repeat' first
    | with_reducible assumption
    | with_reducible exact Sub.of hm (by decide)
    | with_reducible apply State.ethEnds_kept
    | with_reducible apply Filtered.st_kept
    | with_reducible apply State.laneAdmit_kept
    | with_reducible apply State.countSh_kept
    | with_reducible apply State.filterFrame_kept
    | with_reducible apply kept_ite
    | with_reducible apply kept_foldl
    | with_reducible apply kept_foldl_fst
    | with_reducible apply outKept_next
    | with_reducible apply outKept_ite
    | simp only [kept_mk, true_or]
    | split
    | intro _)

theorem State.laneIngress_kept {φ : Frame} {s : State} {h : EthHeld} (hm : Sub 0x16224400000840188 φ.fx) (h1 : s.Kept
    φ) :
    State.Kept φ (State.laneIngress s h) := by
  unfold State.laneIngress
  try dsimp only
  (repeat' first
    | with_reducible assumption
    | with_reducible exact Sub.of hm (by decide)
    | with_reducible apply State.countSh_kept
    | with_reducible apply State.modEth_kept
    | with_reducible apply State.laneFirst_kept
    | with_reducible apply kept_ite
    | with_reducible apply kept_foldl
    | with_reducible apply kept_foldl_fst
    | with_reducible apply outKept_next
    | with_reducible apply outKept_ite
    | simp only [kept_mk, true_or]
    | split
    | intro _)

theorem execLaneFrameSubmit_kept {φ : Frame} {l : Lane} {s : State} (hm : Sub 0x16224400000840188 φ.fx) (h1 : s.Kept
    φ) :
    OutKept φ (execLaneFrameSubmit l s) := by
  unfold execLaneFrameSubmit
  try dsimp only
  (repeat' first
    | with_reducible assumption
    | with_reducible exact Sub.of hm (by decide)
    | with_reducible apply State.modEth_kept
    | with_reducible apply State.laneIngress_kept
    | with_reducible apply kept_ite
    | with_reducible apply kept_foldl
    | with_reducible apply kept_foldl_fst
    | with_reducible apply outKept_next
    | with_reducible apply outKept_ite
    | simp only [kept_mk, true_or]
    | split
    | intro _)

theorem State.takePn_kept {φ : Frame} {s : State} {u : Nat} (hm : Sub 0x20000000000008 φ.fx) (h1 : s.Kept φ) :
    OptKept φ (State.takePn s u) := by
  unfold State.takePn
  try dsimp only
  (repeat' first
    | with_reducible assumption
    | with_reducible exact Sub.of hm (by decide)
    | with_reducible apply State.setEthStat_kept
    | with_reducible apply State.modEth_kept
    | with_reducible apply kept_ite
    | with_reducible apply kept_foldl
    | with_reducible apply kept_foldl_fst
    | with_reducible apply outKept_next
    | with_reducible apply outKept_ite
    | with_reducible apply optKept_ite
    | with_reducible apply optOutKept_ite
    | with_reducible apply optKept_some
    | with_reducible exact optKept_none
    | with_reducible apply optOutKept_some
    | with_reducible exact optOutKept_none
    | simp only [kept_mk, true_or]
    | split
    | intro _)

theorem State.txStamp_kept {φ : Frame} {s : State} {p : Nat} {b : EthBuf} (hm : Sub 0x8 φ.fx) (h1 : s.Kept φ) :
    State.Kept φ (State.txStamp s p b) := by
  unfold State.txStamp
  try dsimp only
  (repeat' first
    | with_reducible assumption
    | with_reducible exact Sub.of hm (by decide)
    | with_reducible apply State.setShFld_kept
    | with_reducible apply State.setRegs_kept
    | with_reducible apply kept_ite
    | with_reducible apply kept_foldl
    | with_reducible apply kept_foldl_fst
    | with_reducible apply outKept_next
    | with_reducible apply outKept_ite
    | simp only [kept_mk, true_or]
    | split
    | intro _)

theorem State.laneReceive_kept {φ : Frame} {s : State} {l : Lane} {p : Nat} {f : EthFrame} (hm : Sub 0xe0000000000008
    φ.fx) (h1 : s.Kept φ) :
    State.Kept φ (State.laneReceive s l p f) := by
  unfold State.laneReceive
  try dsimp only
  (repeat' first
    | with_reducible assumption
    | with_reducible exact Sub.of hm (by decide)
    | with_reducible apply State.harbPush_kept
    | with_reducible apply State.modEth_kept
    | with_reducible apply State.count_kept
    | with_reducible apply kept_ite
    | with_reducible apply kept_foldl
    | with_reducible apply kept_foldl_fst
    | with_reducible apply outKept_next
    | with_reducible apply outKept_ite
    | simp only [kept_mk, true_or]
    | split
    | intro _)

theorem State.ethSent_kept {φ : Frame} {s : State} {p : Nat} {b : EthBuf} (hm : Sub 0x142e0000000000188 φ.fx) (h1 :
    s.Kept φ) :
    State.Kept φ (State.ethSent s p b) := by
  unfold State.ethSent
  try dsimp only
  (repeat' first
    | with_reducible assumption
    | with_reducible exact Sub.of hm (by decide)
    | with_reducible apply State.txStamp_kept
    | with_reducible apply State.countSh_kept
    | with_reducible apply State.resolve_kept
    | with_reducible apply State.putBuf_kept
    | with_reducible apply State.laneReceive_kept
    | with_reducible apply State.emit_kept
    | with_reducible apply kept_ite
    | with_reducible apply kept_foldl
    | with_reducible apply kept_foldl_fst
    | with_reducible apply outKept_next
    | with_reducible apply outKept_ite
    | simp only [kept_mk, true_or]
    | split
    | intro _)

theorem State.ethGiveUp_kept {φ : Frame} {s : State} {p : Nat} {b : EthBuf} {err : Nat} (hm : Sub 0x14220000000000108
    φ.fx) (h1 : s.Kept φ) :
    State.Kept φ (State.ethGiveUp s p b err) := by
  unfold State.ethGiveUp
  try dsimp only
  (repeat' first
    | with_reducible assumption
    | with_reducible exact Sub.of hm (by decide)
    | with_reducible apply State.ethEnds_kept
    | with_reducible apply State.resolve_kept
    | with_reducible apply State.dropBuf_kept
    | with_reducible apply State.putBuf_kept
    | with_reducible apply kept_ite
    | with_reducible apply kept_foldl
    | with_reducible apply kept_foldl_fst
    | with_reducible apply outKept_next
    | with_reducible apply outKept_ite
    | simp only [kept_mk, true_or]
    | split
    | intro _)

theorem execEthFrameEgress_kept {φ : Frame} {p : Nat} {id : Nat} {s : State} (hm : Sub 0x142e0000000000188 φ.fx) (h1 :
    s.Kept φ) :
    OutKept φ (execEthFrameEgress p id s) := by
  unfold execEthFrameEgress
  try dsimp only
  (repeat' first
    | with_reducible assumption
    | with_reducible exact Sub.of hm (by decide)
    | exact State.takePn_kept (Sub.of hm (by decide)) (by assumption) _ (by assumption)
    | with_reducible apply State.takePn_kept
    | with_reducible apply State.ethGiveUp_kept
    | with_reducible apply State.ethSent_kept
    | with_reducible apply State.setEthStat_kept
    | with_reducible apply kept_ite
    | with_reducible apply kept_foldl
    | with_reducible apply kept_foldl_fst
    | with_reducible apply outKept_next
    | with_reducible apply outKept_ite
    | simp only [kept_mk, true_or]
    | split
    | intro _)

theorem execEthLinkChange_kept {φ : Frame} {p : Nat} {up : Bool} {s : State} (hm : Sub 0x14220000000000108 φ.fx) (h1 :
    s.Kept φ) :
    OutKept φ (execEthLinkChange p up s) := by
  unfold execEthLinkChange
  try dsimp only
  (repeat' first
    | with_reducible assumption
    | with_reducible exact Sub.of hm (by decide)
    | with_reducible apply State.setEthStat_kept
    | with_reducible apply State.resolveAll_kept
    | with_reducible apply State.setShFld_kept
    | with_reducible apply kept_ite
    | with_reducible apply kept_foldl
    | with_reducible apply kept_foldl_fst
    | with_reducible apply outKept_next
    | with_reducible apply outKept_ite
    | simp only [kept_mk, true_or]
    | split
    | intro _)

theorem execEthPhyFault_kept {φ : Frame} {p : Nat} {fault : Bool} {s : State} (hm : Sub 0x14220000000000108 φ.fx) (h1
    : s.Kept φ) :
    OutKept φ (execEthPhyFault p fault s) := by
  unfold execEthPhyFault
  try dsimp only
  (repeat' first
    | with_reducible assumption
    | with_reducible exact Sub.of hm (by decide)
    | with_reducible apply State.setEthStat_kept
    | with_reducible apply State.resolveAll_kept
    | with_reducible apply State.modEth_kept
    | with_reducible apply kept_ite
    | with_reducible apply kept_foldl
    | with_reducible apply kept_foldl_fst
    | with_reducible apply outKept_next
    | with_reducible apply outKept_ite
    | simp only [kept_mk, true_or]
    | split
    | intro _)

theorem execFrerResetTimeout_kept {φ : Frame} {i : Nat} {s : State} (hm : Sub 0x20000000000000 φ.fx) (h1 : s.Kept φ) :
    OutKept φ (execFrerResetTimeout i s) := by
  unfold execFrerResetTimeout
  try dsimp only
  (repeat' first
    | with_reducible assumption
    | with_reducible exact Sub.of hm (by decide)
    | with_reducible apply State.modEth_kept
    | with_reducible apply kept_ite
    | with_reducible apply kept_foldl
    | with_reducible apply kept_foldl_fst
    | with_reducible apply outKept_next
    | with_reducible apply outKept_ite
    | simp only [kept_mk, true_or]
    | split
    | intro _)

theorem State.sendWake_kept {φ : Frame} {s : State} {p : Nat} (hm : Sub 0x88 φ.fx) (h1 : s.Kept φ) :
    State.Kept φ (State.sendWake s p) := by
  unfold State.sendWake
  try dsimp only
  (repeat' first
    | with_reducible assumption
    | with_reducible exact Sub.of hm (by decide)
    | with_reducible apply State.setShFld_kept
    | with_reducible apply State.emit_kept
    | with_reducible apply kept_ite
    | with_reducible apply kept_foldl
    | with_reducible apply kept_foldl_fst
    | with_reducible apply outKept_next
    | with_reducible apply outKept_ite
    | simp only [kept_mk, true_or]
    | split
    | intro _)

theorem execEthWake_kept {φ : Frame} {p : Nat} {s : State} (hm : Sub 0x16204400000840188 φ.fx) (h1 : s.Kept φ) :
    OutKept φ (execEthWake p s) := by
  unfold execEthWake
  try dsimp only
  (repeat' first
    | with_reducible assumption
    | with_reducible exact Sub.of hm (by decide)
    | with_reducible apply State.portWake_kept
    | with_reducible apply State.setShFld_kept
    | with_reducible apply State.forEach_kept
    | with_reducible apply State.sendWake_kept
    | with_reducible apply kept_ite
    | with_reducible apply kept_foldl
    | with_reducible apply kept_foldl_fst
    | with_reducible apply outKept_next
    | with_reducible apply outKept_ite
    | simp only [kept_mk, true_or]
    | split
    | intro _)

theorem execTc10SleepRequest_kept {φ : Frame} {p : Nat} {s : State} (hm : Sub 0x8 φ.fx) (h1 : s.Kept φ) :
    OutKept φ (execTc10SleepRequest p s) := by
  unfold execTc10SleepRequest
  try dsimp only
  (repeat' first
    | with_reducible assumption
    | with_reducible exact Sub.of hm (by decide)
    | with_reducible apply State.setEthStat_kept
    | with_reducible apply State.setShFld_kept
    | with_reducible apply State.countSh_kept
    | with_reducible apply kept_ite
    | with_reducible apply kept_foldl
    | with_reducible apply kept_foldl_fst
    | with_reducible apply outKept_next
    | with_reducible apply outKept_ite
    | simp only [kept_mk, true_or]
    | split
    | intro _)

theorem specEthStatus_kept {φ : Frame}   :
    CmdSpec.Kept φ (specEthStatus ) := by
  refine ⟨?_, ?_, ?_, ?_⟩ <;> intros <;> dsimp only [specEthStatus] <;>
  (repeat' first
    | with_reducible assumption
    | with_reducible apply kept_ite
    | with_reducible apply kept_foldl
    | with_reducible apply kept_foldl_fst
    | with_reducible apply outKept_next
    | with_reducible apply outKept_ite
    | simp only [kept_mk, true_or]
    | split
    | intro _)

theorem specEthPortConfig_kept {φ : Frame}  (hm : Sub 0x608 φ.fx)  :
    CmdSpec.Kept φ (specEthPortConfig ) := by
  refine ⟨?_, ?_, ?_, ?_⟩ <;> intros <;> dsimp only [specEthPortConfig] <;>
  (repeat' first
    | with_reducible assumption
    | with_reducible exact Sub.of hm (by decide)
    | with_reducible apply State.commitSharedSplit_kept
    | with_reducible apply kept_ite
    | with_reducible apply kept_foldl
    | with_reducible apply kept_foldl_fst
    | with_reducible apply outKept_next
    | with_reducible apply outKept_ite
    | simp only [kept_mk, true_or]
    | split
    | intro _)

theorem specEthGclSet_kept {φ : Frame}  (hm : Sub 0x608 φ.fx)  :
    CmdSpec.Kept φ (specEthGclSet ) := by
  refine ⟨?_, ?_, ?_, ?_⟩ <;> intros <;> dsimp only [specEthGclSet] <;>
  (repeat' first
    | with_reducible assumption
    | with_reducible exact Sub.of hm (by decide)
    | with_reducible apply State.commitShared_kept
    | with_reducible apply kept_ite
    | with_reducible apply kept_foldl
    | with_reducible apply kept_foldl_fst
    | with_reducible apply outKept_next
    | with_reducible apply outKept_ite
    | simp only [kept_mk, true_or]
    | split
    | intro _)

theorem specEthStreamSet_kept {φ : Frame}  (hm : Sub 0x608 φ.fx)  :
    CmdSpec.Kept φ (specEthStreamSet ) := by
  refine ⟨?_, ?_, ?_, ?_⟩ <;> intros <;> dsimp only [specEthStreamSet] <;>
  (repeat' first
    | with_reducible assumption
    | with_reducible exact Sub.of hm (by decide)
    | with_reducible apply State.commitSharedSplit_kept
    | with_reducible apply kept_ite
    | with_reducible apply kept_foldl
    | with_reducible apply kept_foldl_fst
    | with_reducible apply outKept_next
    | with_reducible apply outKept_ite
    | simp only [kept_mk, true_or]
    | split
    | intro _)

theorem specEthFrerSet_kept {φ : Frame}  (hm : Sub 0x608 φ.fx)  :
    CmdSpec.Kept φ (specEthFrerSet ) := by
  refine ⟨?_, ?_, ?_, ?_⟩ <;> intros <;> dsimp only [specEthFrerSet] <;>
  (repeat' first
    | with_reducible assumption
    | with_reducible exact Sub.of hm (by decide)
    | with_reducible apply State.commitSharedSplit_kept
    | with_reducible apply kept_ite
    | with_reducible apply kept_foldl
    | with_reducible apply kept_foldl_fst
    | with_reducible apply outKept_next
    | with_reducible apply outKept_ite
    | simp only [kept_mk, true_or]
    | split
    | intro _)

theorem specEthMacsecSa_kept {φ : Frame}  (hm : Sub 0x20000000000000 φ.fx)  :
    CmdSpec.Kept φ (specEthMacsecSa ) := by
  refine ⟨?_, ?_, ?_, ?_⟩ <;> intros <;> dsimp only [specEthMacsecSa] <;>
  (repeat' first
    | with_reducible assumption
    | with_reducible exact Sub.of hm (by decide)
    | with_reducible apply State.modEth_kept
    | with_reducible apply kept_ite
    | with_reducible apply kept_foldl
    | with_reducible apply kept_foldl_fst
    | with_reducible apply outKept_next
    | with_reducible apply outKept_ite
    | simp only [kept_mk, true_or]
    | split
    | intro _)

theorem State.installSa_kept {φ : Frame} {s : State} {a : Sa} {lsn : Nat} (hm : Sub 0x14020000000000108 φ.fx) (h1 :
    s.Kept φ) :
    State.Kept φ (State.installSa s a lsn) := by
  unfold State.installSa
  try dsimp only
  (repeat' first
    | with_reducible assumption
    | with_reducible exact Sub.of hm (by decide)
    | with_reducible apply State.setEthStat_kept
    | with_reducible apply State.setShFld_kept
    | with_reducible apply State.done_kept
    | with_reducible apply State.modEth_kept
    | with_reducible apply kept_ite
    | with_reducible apply kept_foldl
    | with_reducible apply kept_foldl_fst
    | with_reducible apply outKept_next
    | with_reducible apply outKept_ite
    | simp only [kept_mk, true_or]
    | split
    | intro _)

theorem State.takeSas_kept {φ : Frame} {s : State} (hm : Sub 0x14020000000000108 φ.fx) (h1 : s.Kept φ) :
    State.Kept φ (State.takeSas s) := by
  unfold State.takeSas
  try dsimp only
  (repeat' first
    | with_reducible assumption
    | with_reducible exact Sub.of hm (by decide)
    | with_reducible apply State.installSa_kept
    | with_reducible apply State.modEth_kept
    | with_reducible apply kept_ite
    | with_reducible apply kept_foldl
    | with_reducible apply kept_foldl_fst
    | with_reducible apply outKept_next
    | with_reducible apply outKept_ite
    | simp only [kept_mk, true_or]
    | split
    | intro _)

theorem specEthCtrlClass_kept {φ : Frame}  (hm : Sub 0x608 φ.fx)  :
    CmdSpec.Kept φ (specEthCtrlClass ) := by
  refine ⟨?_, ?_, ?_, ?_⟩ <;> intros <;> dsimp only [specEthCtrlClass] <;>
  (repeat' first
    | with_reducible assumption
    | with_reducible exact Sub.of hm (by decide)
    | with_reducible apply State.commitSharedSplit_kept
    | with_reducible apply kept_ite
    | with_reducible apply kept_foldl
    | with_reducible apply kept_foldl_fst
    | with_reducible apply outKept_next
    | with_reducible apply outKept_ite
    | simp only [kept_mk, true_or]
    | split
    | intro _)

theorem specTc10Wake_kept {φ : Frame}  (hm : Sub 0x80000000000 φ.fx)  :
    CmdSpec.Kept φ (specTc10Wake ) := by
  refine ⟨?_, ?_, ?_, ?_⟩ <;> intros <;> dsimp only [specTc10Wake] <;>
  (repeat' first
    | with_reducible assumption
    | with_reducible exact Sub.of hm (by decide)
    | with_reducible apply State.cmnSend_kept
    | with_reducible apply kept_ite
    | with_reducible apply kept_foldl
    | with_reducible apply kept_foldl_fst
    | with_reducible apply outKept_next
    | with_reducible apply outKept_ite
    | simp only [kept_mk, true_or]
    | split
    | intro _)

theorem State.applyTc10Wake_kept {φ : Frame} {s : State} {mask : Nat} {lsn : Option Nat} (hm : Sub 0x14000000000000188
    φ.fx) (h1 : s.Kept φ) :
    State.Kept φ (State.applyTc10Wake s mask lsn) := by
  unfold State.applyTc10Wake
  try dsimp only
  (repeat' first
    | with_reducible assumption
    | with_reducible exact Sub.of hm (by decide)
    | with_reducible apply State.forEach_kept
    | with_reducible apply State.sendWake_kept
    | with_reducible apply State.doneOpt_kept
    | with_reducible apply kept_ite
    | with_reducible apply kept_foldl
    | with_reducible apply kept_foldl_fst
    | with_reducible apply outKept_next
    | with_reducible apply outKept_ite
    | simp only [kept_mk, true_or]
    | split
    | intro _)

theorem execEthStatus_kept {φ : Frame} {r : Req} {s : State} (hm : Sub 0x17efdce0fafc007a03dc φ.fx) (h1 : s.Kept φ) :
    OutKept φ (execEthStatus r s) := by
  unfold execEthStatus
  try dsimp only
  (repeat' first
    | with_reducible assumption
    | with_reducible exact Sub.of hm (by decide)
    | with_reducible apply runScs_kept
    | with_reducible apply specEthStatus_kept
    | with_reducible apply kept_ite
    | with_reducible apply kept_foldl
    | with_reducible apply kept_foldl_fst
    | with_reducible apply outKept_next
    | with_reducible apply outKept_ite
    | simp only [kept_mk, true_or]
    | split
    | intro _)

theorem execEthPortConfig_kept {φ : Frame} {r : Req} {s : State} (hm : Sub 0x17efdce0fafc007a07dc φ.fx) (h1 : s.Kept
    φ) :
    OutKept φ (execEthPortConfig r s) := by
  unfold execEthPortConfig
  try dsimp only
  (repeat' first
    | with_reducible assumption
    | with_reducible exact Sub.of hm (by decide)
    | with_reducible apply specEthPortConfig_kept
    | with_reducible apply runScs_kept
    | with_reducible apply kept_ite
    | with_reducible apply kept_foldl
    | with_reducible apply kept_foldl_fst
    | with_reducible apply outKept_next
    | with_reducible apply outKept_ite
    | simp only [kept_mk, true_or]
    | split
    | intro _)

theorem execEthGclSet_kept {φ : Frame} {r : Req} {s : State} (hm : Sub 0x17efdce0fafc007a07dc φ.fx) (h1 : s.Kept φ) :
    OutKept φ (execEthGclSet r s) := by
  unfold execEthGclSet
  try dsimp only
  (repeat' first
    | with_reducible assumption
    | with_reducible exact Sub.of hm (by decide)
    | with_reducible apply specEthGclSet_kept
    | with_reducible apply runScs_kept
    | with_reducible apply kept_ite
    | with_reducible apply kept_foldl
    | with_reducible apply kept_foldl_fst
    | with_reducible apply outKept_next
    | with_reducible apply outKept_ite
    | simp only [kept_mk, true_or]
    | split
    | intro _)

theorem execEthStreamSet_kept {φ : Frame} {r : Req} {s : State} (hm : Sub 0x17efdce0fafc007a07dc φ.fx) (h1 : s.Kept φ)
    :
    OutKept φ (execEthStreamSet r s) := by
  unfold execEthStreamSet
  try dsimp only
  (repeat' first
    | with_reducible assumption
    | with_reducible exact Sub.of hm (by decide)
    | with_reducible apply specEthStreamSet_kept
    | with_reducible apply runScs_kept
    | with_reducible apply kept_ite
    | with_reducible apply kept_foldl
    | with_reducible apply kept_foldl_fst
    | with_reducible apply outKept_next
    | with_reducible apply outKept_ite
    | simp only [kept_mk, true_or]
    | split
    | intro _)

theorem execEthFrerSet_kept {φ : Frame} {r : Req} {s : State} (hm : Sub 0x17efdce0fafc007a07dc φ.fx) (h1 : s.Kept φ) :
    OutKept φ (execEthFrerSet r s) := by
  unfold execEthFrerSet
  try dsimp only
  (repeat' first
    | with_reducible assumption
    | with_reducible exact Sub.of hm (by decide)
    | with_reducible apply specEthFrerSet_kept
    | with_reducible apply runScs_kept
    | with_reducible apply kept_ite
    | with_reducible apply kept_foldl
    | with_reducible apply kept_foldl_fst
    | with_reducible apply outKept_next
    | with_reducible apply outKept_ite
    | simp only [kept_mk, true_or]
    | split
    | intro _)

theorem execEthMacsecSa_kept {φ : Frame} {r : Req} {s : State} (hm : Sub 0x17efdce0fafc007a03dc φ.fx) (h1 : s.Kept φ)
    :
    OutKept φ (execEthMacsecSa r s) := by
  unfold execEthMacsecSa
  try dsimp only
  (repeat' first
    | with_reducible assumption
    | with_reducible exact Sub.of hm (by decide)
    | with_reducible apply specEthMacsecSa_kept
    | with_reducible apply runScs_kept
    | with_reducible apply kept_ite
    | with_reducible apply kept_foldl
    | with_reducible apply kept_foldl_fst
    | with_reducible apply outKept_next
    | with_reducible apply outKept_ite
    | simp only [kept_mk, true_or]
    | split
    | intro _)

theorem execEthCtrlClass_kept {φ : Frame} {r : Req} {s : State} (hm : Sub 0x17efdce0fafc007a07dc φ.fx) (h1 : s.Kept φ)
    :
    OutKept φ (execEthCtrlClass r s) := by
  unfold execEthCtrlClass
  try dsimp only
  (repeat' first
    | with_reducible assumption
    | with_reducible exact Sub.of hm (by decide)
    | with_reducible apply runScs_kept
    | with_reducible apply specEthCtrlClass_kept
    | with_reducible apply kept_ite
    | with_reducible apply kept_foldl
    | with_reducible apply kept_foldl_fst
    | with_reducible apply outKept_next
    | with_reducible apply outKept_ite
    | simp only [kept_mk, true_or]
    | split
    | intro _)

theorem execTc10Wake_kept {φ : Frame} {r : Req} {s : State} (hm : Sub 0x17efdce0fafc007a03dc φ.fx) (h1 : s.Kept φ) :
    OutKept φ (execTc10Wake r s) := by
  unfold execTc10Wake
  try dsimp only
  (repeat' first
    | with_reducible assumption
    | with_reducible exact Sub.of hm (by decide)
    | with_reducible apply runScs_kept
    | with_reducible apply specTc10Wake_kept
    | with_reducible apply kept_ite
    | with_reducible apply kept_foldl
    | with_reducible apply kept_foldl_fst
    | with_reducible apply outKept_next
    | with_reducible apply outKept_ite
    | simp only [kept_mk, true_or]
    | split
    | intro _)

end Sys2Proof.Machine
end

