-- ==== Sys2Proof/Laws/KeptHarbour.lean ====
section
/-! SUPPORT. The operations of Harbour.lean keep the invariant, the queue and the time. -/

namespace Sys2Proof.Machine

theorem State.setHarb_kept {φ : Frame} {s : State} {l : Lane} {x : HarbRt} (hm : Sub 0xc00000000000000 φ.fx) (h1 :
    s.Kept φ) :
    State.Kept φ (State.setHarb s l x) := by
  unfold State.setHarb
  try dsimp only
  (repeat' first
    | with_reducible assumption
    | with_reducible exact Sub.of hm (by decide)
    | with_reducible apply kept_ite
    | with_reducible apply kept_foldl
    | with_reducible apply kept_foldl_fst
    | with_reducible apply outKept_next
    | with_reducible apply outKept_ite
    | simp only [kept_mk, hm.bit 58 rfl, hm.bit 59 rfl, or_true, true_or]
    | split
    | intro _)

theorem State.setPdu_kept {φ : Frame} {s : State} {l : Lane} {x : PduRt} (hm : Sub 0xc00000000000000 φ.fx) (h1 :
    s.Kept φ) :
    State.Kept φ (State.setPdu s l x) := by
  unfold State.setPdu
  try dsimp only
  (repeat' first
    | with_reducible assumption
    | with_reducible exact Sub.of hm (by decide)
    | with_reducible apply State.setHarb_kept
    | with_reducible apply kept_ite
    | with_reducible apply kept_foldl
    | with_reducible apply kept_foldl_fst
    | with_reducible apply outKept_next
    | with_reducible apply outKept_ite
    | simp only [kept_mk, true_or]
    | split
    | intro _)

theorem State.setRoute_kept {φ : Frame} {s : State} {l : Lane} {x : RouteRt} (hm : Sub 0xc00000000000000 φ.fx) (h1 :
    s.Kept φ) :
    State.Kept φ (State.setRoute s l x) := by
  unfold State.setRoute
  try dsimp only
  (repeat' first
    | with_reducible assumption
    | with_reducible exact Sub.of hm (by decide)
    | with_reducible apply State.setHarb_kept
    | with_reducible apply kept_ite
    | with_reducible apply kept_foldl
    | with_reducible apply kept_foldl_fst
    | with_reducible apply outKept_next
    | with_reducible apply outKept_ite
    | simp only [kept_mk, true_or]
    | split
    | intro _)

theorem State.setImgByte_kept {φ : Frame} {s : State} {l : Lane} {a : Nat} {v : Byte} (hm : Sub 0xc00000000000000
    φ.fx) (h1 : s.Kept φ) :
    State.Kept φ (State.setImgByte s l a v) := by
  unfold State.setImgByte
  try dsimp only
  (repeat' first
    | with_reducible assumption
    | with_reducible exact Sub.of hm (by decide)
    | with_reducible apply State.setHarb_kept
    | with_reducible apply kept_ite
    | with_reducible apply kept_foldl
    | with_reducible apply kept_foldl_fst
    | with_reducible apply outKept_next
    | with_reducible apply outKept_ite
    | simp only [kept_mk, true_or]
    | split
    | intro _)

theorem State.setImg_kept {φ : Frame} {s : State} {l : Lane} {a : Nat} {a3 : List Byte} (hm : Sub 0xc00000000000000
    φ.fx) (h1 : s.Kept φ) :
    State.Kept φ (State.setImg s l a a3) := by
  induction a3 generalizing s l a with
  | nil =>
    unfold State.setImg
    (repeat' first
    | with_reducible assumption
    | with_reducible exact Sub.of hm (by decide)
    | with_reducible apply State.setImgByte_kept
    | with_reducible apply kept_ite
    | with_reducible apply kept_foldl
    | with_reducible apply kept_foldl_fst
    | with_reducible apply outKept_next
    | with_reducible apply outKept_ite
    | simp only [kept_mk, true_or]
    | split
    | intro _)
  | cons x xs ih =>
    unfold State.setImg
    (repeat' first
    | with_reducible assumption
    | with_reducible exact Sub.of hm (by decide)
    | with_reducible apply State.setImgByte_kept
    | with_reducible apply ih
    | with_reducible apply kept_ite
    | with_reducible apply kept_foldl
    | with_reducible apply kept_foldl_fst
    | with_reducible apply outKept_next
    | with_reducible apply outKept_ite
    | simp only [kept_mk, true_or]
    | split
    | intro _)

theorem State.applyHarb_kept {φ : Frame} {s : State} {c : Commit} (hm : Sub 0x14c00000000000708 φ.fx) (h1 : s.Kept φ)
    :
    State.Kept φ (State.applyHarb s c) := by
  unfold State.applyHarb
  try dsimp only
  (repeat' first
    | with_reducible assumption
    | with_reducible exact Sub.of hm (by decide)
    | with_reducible apply State.setFld_kept
    | with_reducible apply State.setBitF_kept
    | with_reducible apply State.setImg_kept
    | with_reducible apply State.applyCommit_kept
    | with_reducible apply kept_ite
    | with_reducible apply kept_foldl
    | with_reducible apply kept_foldl_fst
    | with_reducible apply outKept_next
    | with_reducible apply outKept_ite
    | simp only [kept_mk, true_or]
    | split
    | intro _)

theorem State.setImgBit_kept {φ : Frame} {s : State} {l : Lane} {a : Nat} {b : Nat} {v : Bool} (hm : Sub
    0xc00000000000000 φ.fx) (h1 : s.Kept φ) :
    State.Kept φ (State.setImgBit s l a b v) := by
  unfold State.setImgBit
  try dsimp only
  (repeat' first
    | with_reducible assumption
    | with_reducible exact Sub.of hm (by decide)
    | with_reducible apply State.setImgByte_kept
    | with_reducible apply kept_ite
    | with_reducible apply kept_foldl
    | with_reducible apply kept_foldl_fst
    | with_reducible apply outKept_next
    | with_reducible apply outKept_ite
    | simp only [kept_mk, true_or]
    | split
    | intro _)

theorem State.routeWrite_kept {φ : Frame} {s : State} {l : Lane} {r : Nat} {bits : List (Nat × Bool)} {c : Changes}
    (hm : Sub 0xc00000000000000 φ.fx) (h1 : s.Kept φ) :
    State.Kept φ (State.routeWrite s l r bits c).1 := by
  unfold State.routeWrite
  try dsimp only
  (repeat' first
    | with_reducible assumption
    | with_reducible exact Sub.of hm (by decide)
    | with_reducible apply State.setImgBit_kept
    | with_reducible apply kept_ite
    | with_reducible apply kept_foldl
    | with_reducible apply kept_foldl_fst
    | with_reducible apply outKept_next
    | with_reducible apply outKept_ite
    | simp only [kept_mk, true_or]
    | split
    | intro _)

theorem State.routeInvalid_kept {φ : Frame} {s : State} {l : Lane} {r : Nat} {c : Changes} (hm : Sub 0xc00000000000000
    φ.fx) (h1 : s.Kept φ) :
    State.Kept φ (State.routeInvalid s l r c).1 := by
  unfold State.routeInvalid
  try dsimp only
  (repeat' first
    | with_reducible assumption
    | with_reducible exact Sub.of hm (by decide)
    | with_reducible apply State.routeWrite_kept
    | with_reducible apply kept_ite
    | with_reducible apply kept_foldl
    | with_reducible apply kept_foldl_fst
    | with_reducible apply outKept_next
    | with_reducible apply outKept_ite
    | simp only [kept_mk, true_or]
    | split
    | intro _)

theorem State.routeEval_kept {φ : Frame} {s : State} {l : Lane} {n : Nat} {r : Nat} {c : Changes} (hm : Sub
    0xc0000000000000c φ.fx) (h1 : s.Kept φ) :
    State.Kept φ (State.routeEval s l n r c).1 := by
  unfold State.routeEval
  try dsimp only
  (repeat' first
    | with_reducible assumption
    | with_reducible exact Sub.of hm (by decide)
    | with_reducible apply State.routeWrite_kept
    | with_reducible apply State.setRoute_kept
    | with_reducible apply State.routeInvalid_kept
    | with_reducible apply State.tickFree_kept
    | with_reducible apply State.count_kept
    | with_reducible apply kept_ite
    | with_reducible apply kept_foldl
    | with_reducible apply kept_foldl_fst
    | with_reducible apply outKept_next
    | with_reducible apply outKept_ite
    | simp only [kept_mk, true_or]
    | split
    | intro _)

theorem State.harbAsk_kept {φ : Frame} {s : State} {l : Lane} {i : Nat} {a : HarbAsk} (hm : Sub 0xc00000000000008
    φ.fx) (h1 : s.Kept φ) :
    State.Kept φ (State.harbAsk s l i a) := by
  unfold State.harbAsk
  try dsimp only
  (repeat' first
    | with_reducible assumption
    | with_reducible exact Sub.of hm (by decide)
    | with_reducible apply State.setPdu_kept
    | with_reducible apply State.count_kept
    | with_reducible apply kept_ite
    | with_reducible apply kept_foldl
    | with_reducible apply kept_foldl_fst
    | with_reducible apply outKept_next
    | with_reducible apply outKept_ite
    | simp only [kept_mk, true_or]
    | split
    | intro _)

theorem State.batchEnd_kept {φ : Frame} {s : State} {l : Lane} {c : Changes} (hm : Sub 0xc00000000000008 φ.fx) (h1 :
    s.Kept φ) :
    State.Kept φ (State.batchEnd s l c) := by
  unfold State.batchEnd
  try dsimp only
  (repeat' first
    | with_reducible assumption
    | with_reducible exact Sub.of hm (by decide)
    | with_reducible apply State.harbAsk_kept
    | with_reducible apply kept_ite
    | with_reducible apply kept_foldl
    | with_reducible apply kept_foldl_fst
    | with_reducible apply outKept_next
    | with_reducible apply outKept_ite
    | simp only [kept_mk, true_or]
    | split
    | intro _)

theorem State.harbTrigger_kept {φ : Frame} {s : State} {l : Lane} {i : Nat} {bit : Nat} {lsns : List Nat} (hm : Sub
    0xc00000000000008 φ.fx) (h1 : s.Kept φ) :
    State.Kept φ (State.harbTrigger s l i bit lsns) := by
  unfold State.harbTrigger
  try dsimp only
  (repeat' first
    | with_reducible assumption
    | with_reducible exact Sub.of hm (by decide)
    | with_reducible apply State.harbAsk_kept
    | with_reducible apply kept_ite
    | with_reducible apply kept_foldl
    | with_reducible apply kept_foldl_fst
    | with_reducible apply outKept_next
    | with_reducible apply outKept_ite
    | simp only [kept_mk, true_or]
    | split
    | intro _)

theorem State.setHarbIn_kept {φ : Frame} {s : State} {l : Lane} {x : List HarbIn} (hm : Sub 0xc0000000000000 φ.fx) (h1
    : s.Kept φ) :
    State.Kept φ (State.setHarbIn s l x) := by
  unfold State.setHarbIn
  try dsimp only
  (repeat' first
    | with_reducible assumption
    | with_reducible exact Sub.of hm (by decide)
    | with_reducible apply kept_ite
    | with_reducible apply kept_foldl
    | with_reducible apply kept_foldl_fst
    | with_reducible apply outKept_next
    | with_reducible apply outKept_ite
    | simp only [kept_mk, hm.bit 54 rfl, hm.bit 55 rfl, or_true, true_or]
    | split
    | intro _)

theorem State.evalAll_kept {φ : Frame} {s : State} {l : Lane} {len : Nat} {rs : List Nat} (hm : Sub 0xc0000000000000c φ.fx) (h1 : s.Kept φ) :
    PairKept φ (s.evalAll l len rs) := by
  unfold State.evalAll
  exact pairKept_foldl (fun _ _ h => pairKept_of (State.routeEval_kept (Sub.of hm (by decide)) (pairKept_fst h))) (pairKept_mk h1)

theorem State.endBatch_kept {φ : Frame} {l : Lane} {y : State × Changes} (hm : Sub 0xc00000000000008 φ.fx) (h1 : PairKept φ y) :
    State.Kept φ (State.endBatch l y) := State.batchEnd_kept (Sub.of hm (by decide)) h1

theorem State.harbArrive_kept {φ : Frame} {s : State} {l : Lane} {x : HarbIn} (hm : Sub 0xc0000000000000c φ.fx) (h1 : s.Kept φ) :
    State.Kept φ (s.harbArrive l x) := by
  unfold State.harbArrive
  extract_lets g t
  have ht : State.Kept φ t := State.count_kept (Sub.of hm (by decide)) h1
  clear_value t
  split
  · exact State.count_kept (Sub.of hm (by decide)) ht
  · exact State.endBatch_kept (Sub.of hm (by decide)) (State.evalAll_kept (Sub.of hm (by decide)) (State.setPdu_kept (Sub.of hm (by decide))
      (State.setImg_kept (Sub.of hm (by decide)) ht)))

theorem execPduArrival_kept {φ : Frame} {l : Lane} {s : State} (hm : Sub 0xcc000000000000c φ.fx) (h1 : s.Kept φ) :
    OutKept φ (execPduArrival l s) := by
  unfold execPduArrival
  try dsimp only
  (repeat' first
    | with_reducible assumption
    | with_reducible exact Sub.of hm (by decide)
    | with_reducible apply State.harbArrive_kept
    | with_reducible apply State.setHarbIn_kept
    | with_reducible apply kept_ite
    | with_reducible apply kept_foldl
    | with_reducible apply kept_foldl_fst
    | with_reducible apply outKept_next
    | with_reducible apply outKept_ite
    | simp only [kept_mk, true_or]
    | split
    | intro _)

theorem State.routeLapse_kept {φ : Frame} {s : State} {l : Lane} {r : Nat} {ch : Changes} (hm : Sub 0xc00000000000008
    φ.fx) (h1 : s.Kept φ) :
    State.Kept φ (State.routeLapse s l r ch).1 := by
  unfold State.routeLapse
  try dsimp only
  (repeat' first
    | with_reducible assumption
    | with_reducible exact Sub.of hm (by decide)
    | with_reducible apply State.setRoute_kept
    | with_reducible apply State.routeInvalid_kept
    | with_reducible apply State.count_kept
    | with_reducible apply kept_ite
    | with_reducible apply kept_foldl
    | with_reducible apply kept_foldl_fst
    | with_reducible apply outKept_next
    | with_reducible apply outKept_ite
    | simp only [kept_mk, true_or]
    | split
    | intro _)

theorem State.lapseAll_kept {φ : Frame} {s : State} {l : Lane} {rs : List Nat} (hm : Sub 0xc00000000000008 φ.fx) (h1 : s.Kept φ) :
    PairKept φ (s.lapseAll l rs) := by
  unfold State.lapseAll
  exact pairKept_foldl (fun _ _ h => pairKept_of (State.routeLapse_kept (Sub.of hm (by decide)) (pairKept_fst h))) (pairKept_mk h1)

theorem State.harbMark_kept {φ : Frame} {s : State} {l : Lane} {stamp : Nat} (hm : Sub 0xc00000000000008 φ.fx) (h1 : s.Kept φ) : State.Kept φ (s.harbMark l stamp) :=
  State.endBatch_kept (Sub.of hm (by decide)) (State.lapseAll_kept (Sub.of hm (by decide)) h1)

theorem State.harbDrain_kept {φ : Frame} {s : State} {l : Lane} (hm : Sub 0xcc000000000000c φ.fx) (h1 : s.Kept φ) :
    State.Kept φ (State.harbDrain s l) := by
  unfold State.harbDrain
  try dsimp only
  (repeat' first
    | with_reducible assumption
    | with_reducible exact Sub.of hm (by decide)
    | with_reducible apply State.harbArrive_kept
    | with_reducible apply State.setHarbIn_kept
    | with_reducible apply kept_ite
    | with_reducible apply kept_foldl
    | with_reducible apply kept_foldl_fst
    | with_reducible apply outKept_next
    | with_reducible apply outKept_ite
    | simp only [kept_mk, true_or]
    | split
    | intro _)

theorem execTimerMark_kept {φ : Frame} {l : Lane} {stamp : Nat} {s : State} (hm : Sub 0xcc000000000000c φ.fx) (h1 :
    s.Kept φ) :
    OutKept φ (execTimerMark l stamp s) := by
  unfold execTimerMark
  try dsimp only
  (repeat' first
    | with_reducible assumption
    | with_reducible exact Sub.of hm (by decide)
    | with_reducible apply State.harbDrain_kept
    | with_reducible apply State.harbMark_kept
    | with_reducible apply kept_ite
    | with_reducible apply kept_foldl
    | with_reducible apply kept_foldl_fst
    | with_reducible apply outKept_next
    | with_reducible apply outKept_ite
    | simp only [kept_mk, true_or]
    | split
    | intro _)

theorem State.pduHand_kept {φ : Frame} {s : State} {l : Lane} {i : Nat} {image : List Byte} (hm : Sub
    0x220400000000008 φ.fx) (h1 : s.Kept φ) :
    State.Kept φ (State.pduHand s l i image) := by
  unfold State.pduHand
  try dsimp only
  (repeat' first
    | with_reducible assumption
    | with_reducible exact Sub.of hm (by decide)
    | with_reducible apply State.canHand_kept
    | with_reducible apply State.pduFail_kept
    | with_reducible apply State.setRegs_kept
    | with_reducible apply State.ethHand_kept
    | with_reducible apply kept_ite
    | with_reducible apply kept_foldl
    | with_reducible apply kept_foldl_fst
    | with_reducible apply outKept_next
    | with_reducible apply outKept_ite
    | simp only [kept_mk, true_or]
    | split
    | intro _)

theorem State.askEnd_kept {φ : Frame} {s : State} {l : Lane} {lsns : List Nat} {disp : Nat} {err : Nat} (hm : Sub
    0x14000000000000108 φ.fx) (h1 : s.Kept φ) :
    State.Kept φ (State.askEnd s l lsns disp err) := by
  unfold State.askEnd
  try dsimp only
  (repeat' first
    | with_reducible assumption
    | with_reducible exact Sub.of hm (by decide)
    | with_reducible apply State.disposeAll_kept
    | with_reducible apply kept_ite
    | with_reducible apply kept_foldl
    | with_reducible apply kept_foldl_fst
    | with_reducible apply outKept_next
    | with_reducible apply outKept_ite
    | simp only [kept_mk, true_or]
    | split
    | intro _)

theorem State.sendEnd_kept {φ : Frame} {s : State} {l : Lane} {i : Nat} {lsns : List Nat} (hm : Sub
    0x1400000000000010c φ.fx) (h1 : s.Kept φ) :
    State.Kept φ (State.sendEnd s l i lsns) := by
  unfold State.sendEnd
  try dsimp only
  (repeat' first
    | with_reducible assumption
    | with_reducible exact Sub.of hm (by decide)
    | with_reducible apply State.tickFree_kept
    | with_reducible apply State.askEnd_kept
    | with_reducible apply kept_ite
    | with_reducible apply kept_foldl
    | with_reducible apply kept_foldl_fst
    | with_reducible apply outKept_next
    | with_reducible apply outKept_ite
    | simp only [kept_mk, true_or]
    | split
    | intro _)

theorem State.pduOut_kept {φ : Frame} {s : State} {l : Lane} {i : Nat} {image : List Byte} {lsns : List Nat} (hm : Sub
    0x14e2040000000010c φ.fx) (h1 : s.Kept φ) :
    State.Kept φ (State.pduOut s l i image lsns) := by
  unfold State.pduOut
  try dsimp only
  (repeat' first
    | with_reducible assumption
    | with_reducible exact Sub.of hm (by decide)
    | with_reducible apply State.ethTake_kept
    | with_reducible apply State.sendEnd_kept
    | with_reducible apply State.setPdu_kept
    | with_reducible apply State.pduHand_kept
    | with_reducible apply State.count_kept
    | with_reducible apply kept_ite
    | with_reducible apply kept_foldl
    | with_reducible apply kept_foldl_fst
    | with_reducible apply outKept_next
    | with_reducible apply outKept_ite
    | simp only [kept_mk, true_or]
    | split
    | intro _)

theorem State.keepOldest_kept {φ : Frame} {s : State} {l : Lane} {i : Nat} (hm : Sub 0x14c00000000000108 φ.fx) (h1 :
    s.Kept φ) :
    State.Kept φ (State.keepOldest s l i) := by
  unfold State.keepOldest
  try dsimp only
  (repeat' first
    | with_reducible assumption
    | with_reducible exact Sub.of hm (by decide)
    | with_reducible apply State.setPdu_kept
    | with_reducible apply State.setRoute_kept
    | with_reducible apply State.askEnd_kept
    | with_reducible apply State.count_kept
    | with_reducible apply kept_ite
    | with_reducible apply kept_foldl
    | with_reducible apply kept_foldl_fst
    | with_reducible apply outKept_next
    | with_reducible apply outKept_ite
    | simp only [kept_mk, true_or]
    | split
    | intro _)

theorem State.pduKeep_kept {φ : Frame} {s : State} {l : Lane} {i : Nat} {a : HarbAsk} (hm : Sub 0x14c00000000000108
    φ.fx) (h1 : s.Kept φ) :
    State.Kept φ (State.pduKeep s l i a) := by
  unfold State.pduKeep
  try dsimp only
  (repeat' first
    | with_reducible assumption
    | with_reducible exact Sub.of hm (by decide)
    | with_reducible apply State.keepOldest_kept
    | with_reducible apply State.setPdu_kept
    | with_reducible apply State.setHarb_kept
    | with_reducible apply kept_ite
    | with_reducible apply kept_foldl
    | with_reducible apply kept_foldl_fst
    | with_reducible apply outKept_next
    | with_reducible apply outKept_ite
    | simp only [kept_mk, true_or]
    | split
    | intro _)

theorem State.pduWake_kept {φ : Frame} {s : State} {l : Lane} {i : Nat} (hm : Sub 0x16204400000840188 φ.fx) (h1 :
    s.Kept φ) :
    State.Kept φ (State.pduWake s l i) := by
  unfold State.pduWake
  try dsimp only
  (repeat' first
    | with_reducible assumption
    | with_reducible exact Sub.of hm (by decide)
    | with_reducible apply State.wakeOrDusk_kept
    | with_reducible apply kept_ite
    | with_reducible apply kept_foldl
    | with_reducible apply kept_foldl_fst
    | with_reducible apply outKept_next
    | with_reducible apply outKept_ite
    | simp only [kept_mk, true_or]
    | split
    | intro _)

theorem State.pduToSleep_kept {φ : Frame} {s : State} {l : Lane} {i : Nat} {a : HarbAsk} (hm : Sub 0x16e04400000840188
    φ.fx) (h1 : s.Kept φ) :
    State.Kept φ (State.pduToSleep s l i a) := by
  unfold State.pduToSleep
  try dsimp only
  (repeat' first
    | with_reducible assumption
    | with_reducible exact Sub.of hm (by decide)
    | with_reducible apply State.pduWake_kept
    | with_reducible apply State.pduKeep_kept
    | with_reducible apply State.askEnd_kept
    | with_reducible apply State.count_kept
    | with_reducible apply kept_ite
    | with_reducible apply kept_foldl
    | with_reducible apply kept_foldl_fst
    | with_reducible apply outKept_next
    | with_reducible apply outKept_ite
    | simp only [kept_mk, true_or]
    | split
    | intro _)

theorem State.pduSend_kept {φ : Frame} {s : State} {l : Lane} {i : Nat} (hm : Sub 0x16e2440000084018c φ.fx) (h1 :
    s.Kept φ) :
    State.Kept φ (State.pduSend s l i) := by
  unfold State.pduSend
  try dsimp only
  (repeat' first
    | with_reducible assumption
    | with_reducible exact Sub.of hm (by decide)
    | with_reducible apply State.pduToSleep_kept
    | with_reducible apply State.setPdu_kept
    | with_reducible apply State.pduOut_kept
    | with_reducible apply State.askEnd_kept
    | with_reducible apply kept_ite
    | with_reducible apply kept_foldl
    | with_reducible apply kept_foldl_fst
    | with_reducible apply outKept_next
    | with_reducible apply outKept_ite
    | simp only [kept_mk, true_or]
    | split
    | intro _)

theorem State.keptOut_kept {φ : Frame} {s : State} {l : Lane} {i : Nat} (hm : Sub 0x14e2040000000010c φ.fx) (h1 :
    s.Kept φ) :
    State.Kept φ (State.keptOut s l i) := by
  unfold State.keptOut
  try dsimp only
  (repeat' first
    | with_reducible assumption
    | with_reducible exact Sub.of hm (by decide)
    | with_reducible apply State.setPdu_kept
    | with_reducible apply State.pduOut_kept
    | with_reducible apply kept_ite
    | with_reducible apply kept_foldl
    | with_reducible apply kept_foldl_fst
    | with_reducible apply outKept_next
    | with_reducible apply outKept_ite
    | simp only [kept_mk, true_or]
    | split
    | intro _)

theorem execPduSend_kept {φ : Frame} {l : Lane} {i : Nat} {s : State} (hm : Sub 0x16e2440000084018c φ.fx) (h1 : s.Kept
    φ) :
    OutKept φ (execPduSend l i s) := by
  unfold execPduSend
  try dsimp only
  (repeat' first
    | with_reducible assumption
    | with_reducible exact Sub.of hm (by decide)
    | with_reducible apply State.pduSend_kept
    | with_reducible apply State.keptOut_kept
    | with_reducible apply kept_ite
    | with_reducible apply kept_foldl
    | with_reducible apply kept_foldl_fst
    | with_reducible apply outKept_next
    | with_reducible apply outKept_ite
    | simp only [kept_mk, true_or]
    | split
    | intro _)

theorem execMinGapExpiry_kept {φ : Frame} {l : Lane} {i : Nat} {s : State} (hm : Sub 0x16e2440000084018c φ.fx) (h1 :
    s.Kept φ) :
    OutKept φ (execMinGapExpiry l i s) := by
  unfold execMinGapExpiry
  try dsimp only
  (repeat' first
    | with_reducible assumption
    | with_reducible exact Sub.of hm (by decide)
    | with_reducible apply State.setPdu_kept
    | with_reducible apply State.pduSend_kept
    | with_reducible apply State.keptOut_kept
    | with_reducible apply kept_ite
    | with_reducible apply kept_foldl
    | with_reducible apply kept_foldl_fst
    | with_reducible apply outKept_next
    | with_reducible apply outKept_ite
    | simp only [kept_mk, true_or]
    | split
    | intro _)

theorem State.harbAwake_kept {φ : Frame} {s : State} (hm : Sub 0x14e2040000000010c φ.fx) (h1 : s.Kept φ) :
    State.Kept φ (State.harbAwake s) := by
  unfold State.harbAwake
  try dsimp only
  (repeat' first
    | with_reducible assumption
    | with_reducible exact Sub.of hm (by decide)
    | with_reducible apply State.keptOut_kept
    | with_reducible apply kept_ite
    | with_reducible apply kept_foldl
    | with_reducible apply kept_foldl_fst
    | with_reducible apply outKept_next
    | with_reducible apply outKept_ite
    | simp only [kept_mk, true_or]
    | split
    | intro _)

theorem specHarbStatus_kept {φ : Frame}   :
    CmdSpec.Kept φ (specHarbStatus ) := by
  refine ⟨?_, ?_, ?_, ?_⟩ <;> intros <;> dsimp only [specHarbStatus] <;>
  (repeat' first
    | with_reducible assumption
    | with_reducible apply kept_ite
    | with_reducible apply kept_foldl
    | with_reducible apply kept_foldl_fst
    | with_reducible apply outKept_next
    | with_reducible apply outKept_ite
    | simp only [kept_mk, true_or]
    | split
    | intro _)

theorem specHarbPduDefine_kept {φ : Frame}  (hm : Sub 0x608 φ.fx)  :
    CmdSpec.Kept φ (specHarbPduDefine ) := by
  refine ⟨?_, ?_, ?_, ?_⟩ <;> intros <;> dsimp only [specHarbPduDefine] <;>
  (repeat' first
    | with_reducible assumption
    | with_reducible exact Sub.of hm (by decide)
    | with_reducible apply State.commitLocal_kept
    | with_reducible apply kept_ite
    | with_reducible apply kept_foldl
    | with_reducible apply kept_foldl_fst
    | with_reducible apply outKept_next
    | with_reducible apply outKept_ite
    | simp only [kept_mk, true_or]
    | split
    | intro _)

theorem specHarbRouteSet_kept {φ : Frame}  (hm : Sub 0x608 φ.fx)  :
    CmdSpec.Kept φ (specHarbRouteSet ) := by
  refine ⟨?_, ?_, ?_, ?_⟩ <;> intros <;> dsimp only [specHarbRouteSet] <;>
  (repeat' first
    | with_reducible assumption
    | with_reducible exact Sub.of hm (by decide)
    | with_reducible apply State.commitLocal_kept
    | with_reducible apply kept_ite
    | with_reducible apply kept_foldl
    | with_reducible apply kept_foldl_fst
    | with_reducible apply outKept_next
    | with_reducible apply outKept_ite
    | simp only [kept_mk, true_or]
    | split
    | intro _)

theorem specHarbEndpoint_kept {φ : Frame}  (hm : Sub 0x608 φ.fx)  :
    CmdSpec.Kept φ (specHarbEndpoint ) := by
  refine ⟨?_, ?_, ?_, ?_⟩ <;> intros <;> dsimp only [specHarbEndpoint] <;>
  (repeat' first
    | with_reducible assumption
    | with_reducible exact Sub.of hm (by decide)
    | with_reducible apply State.commitLocal_kept
    | with_reducible apply kept_ite
    | with_reducible apply kept_foldl
    | with_reducible apply kept_foldl_fst
    | with_reducible apply outKept_next
    | with_reducible apply outKept_ite
    | simp only [kept_mk, true_or]
    | split
    | intro _)

theorem specHarbPduSend_kept {φ : Frame}  (hm : Sub 0xc00000000000008 φ.fx)  :
    CmdSpec.Kept φ (specHarbPduSend ) := by
  refine ⟨?_, ?_, ?_, ?_⟩ <;> intros <;> dsimp only [specHarbPduSend] <;>
  (repeat' first
    | with_reducible assumption
    | with_reducible exact Sub.of hm (by decide)
    | with_reducible apply State.harbTrigger_kept
    | with_reducible apply kept_ite
    | with_reducible apply kept_foldl
    | with_reducible apply kept_foldl_fst
    | with_reducible apply outKept_next
    | with_reducible apply outKept_ite
    | simp only [kept_mk, true_or]
    | split
    | intro _)

theorem specHarbPduRead_kept {φ : Frame}   :
    CmdSpec.Kept φ (specHarbPduRead ) := by
  refine ⟨?_, ?_, ?_, ?_⟩ <;> intros <;> dsimp only [specHarbPduRead] <;>
  (repeat' first
    | with_reducible assumption
    | with_reducible apply kept_ite
    | with_reducible apply kept_foldl
    | with_reducible apply kept_foldl_fst
    | with_reducible apply outKept_next
    | with_reducible apply outKept_ite
    | simp only [kept_mk, true_or]
    | split
    | intro _)

theorem specHarbRouteStatus_kept {φ : Frame}   :
    CmdSpec.Kept φ (specHarbRouteStatus ) := by
  refine ⟨?_, ?_, ?_, ?_⟩ <;> intros <;> dsimp only [specHarbRouteStatus] <;>
  (repeat' first
    | with_reducible assumption
    | with_reducible apply kept_ite
    | with_reducible apply kept_foldl
    | with_reducible apply kept_foldl_fst
    | with_reducible apply outKept_next
    | with_reducible apply outKept_ite
    | simp only [kept_mk, true_or]
    | split
    | intro _)

theorem execHarbStatus_kept {φ : Frame} {r : Req} {s : State} (hm : Sub 0x17efdce0fafc007a03dc φ.fx) (h1 : s.Kept φ) :
    OutKept φ (execHarbStatus r s) := by
  unfold execHarbStatus
  try dsimp only
  (repeat' first
    | with_reducible assumption
    | with_reducible exact Sub.of hm (by decide)
    | with_reducible apply specHarbStatus_kept
    | with_reducible apply runScs_kept
    | with_reducible apply kept_ite
    | with_reducible apply kept_foldl
    | with_reducible apply kept_foldl_fst
    | with_reducible apply outKept_next
    | with_reducible apply outKept_ite
    | simp only [kept_mk, true_or]
    | split
    | intro _)

theorem execHarbPduDefine_kept {φ : Frame} {r : Req} {s : State} (hm : Sub 0x17efdce0fafc007a07dc φ.fx) (h1 : s.Kept
    φ) :
    OutKept φ (execHarbPduDefine r s) := by
  unfold execHarbPduDefine
  try dsimp only
  (repeat' first
    | with_reducible assumption
    | with_reducible exact Sub.of hm (by decide)
    | with_reducible apply specHarbPduDefine_kept
    | with_reducible apply runScs_kept
    | with_reducible apply kept_ite
    | with_reducible apply kept_foldl
    | with_reducible apply kept_foldl_fst
    | with_reducible apply outKept_next
    | with_reducible apply outKept_ite
    | simp only [kept_mk, true_or]
    | split
    | intro _)

theorem execHarbRouteSet_kept {φ : Frame} {r : Req} {s : State} (hm : Sub 0x17efdce0fafc007a07dc φ.fx) (h1 : s.Kept φ)
    :
    OutKept φ (execHarbRouteSet r s) := by
  unfold execHarbRouteSet
  try dsimp only
  (repeat' first
    | with_reducible assumption
    | with_reducible exact Sub.of hm (by decide)
    | with_reducible apply specHarbRouteSet_kept
    | with_reducible apply runScs_kept
    | with_reducible apply kept_ite
    | with_reducible apply kept_foldl
    | with_reducible apply kept_foldl_fst
    | with_reducible apply outKept_next
    | with_reducible apply outKept_ite
    | simp only [kept_mk, true_or]
    | split
    | intro _)

theorem execHarbEndpoint_kept {φ : Frame} {r : Req} {s : State} (hm : Sub 0x17efdce0fafc007a07dc φ.fx) (h1 : s.Kept φ)
    :
    OutKept φ (execHarbEndpoint r s) := by
  unfold execHarbEndpoint
  try dsimp only
  (repeat' first
    | with_reducible assumption
    | with_reducible exact Sub.of hm (by decide)
    | with_reducible apply specHarbEndpoint_kept
    | with_reducible apply runScs_kept
    | with_reducible apply kept_ite
    | with_reducible apply kept_foldl
    | with_reducible apply kept_foldl_fst
    | with_reducible apply outKept_next
    | with_reducible apply outKept_ite
    | simp only [kept_mk, true_or]
    | split
    | intro _)

theorem execHarbPduSend_kept {φ : Frame} {r : Req} {s : State} (hm : Sub 0x17efdce0fafc007a03dc φ.fx) (h1 : s.Kept φ)
    :
    OutKept φ (execHarbPduSend r s) := by
  unfold execHarbPduSend
  try dsimp only
  (repeat' first
    | with_reducible assumption
    | with_reducible exact Sub.of hm (by decide)
    | with_reducible apply specHarbPduSend_kept
    | with_reducible apply runScs_kept
    | with_reducible apply kept_ite
    | with_reducible apply kept_foldl
    | with_reducible apply kept_foldl_fst
    | with_reducible apply outKept_next
    | with_reducible apply outKept_ite
    | simp only [kept_mk, true_or]
    | split
    | intro _)

theorem execHarbPduRead_kept {φ : Frame} {r : Req} {s : State} (hm : Sub 0x17efdce0fafc007a03dc φ.fx) (h1 : s.Kept φ)
    :
    OutKept φ (execHarbPduRead r s) := by
  unfold execHarbPduRead
  try dsimp only
  (repeat' first
    | with_reducible assumption
    | with_reducible exact Sub.of hm (by decide)
    | with_reducible apply runScs_kept
    | with_reducible apply specHarbPduRead_kept
    | with_reducible apply kept_ite
    | with_reducible apply kept_foldl
    | with_reducible apply kept_foldl_fst
    | with_reducible apply outKept_next
    | with_reducible apply outKept_ite
    | simp only [kept_mk, true_or]
    | split
    | intro _)

theorem execHarbRouteStatus_kept {φ : Frame} {r : Req} {s : State} (hm : Sub 0x17efdce0fafc007a03dc φ.fx) (h1 : s.Kept
    φ) :
    OutKept φ (execHarbRouteStatus r s) := by
  unfold execHarbRouteStatus
  try dsimp only
  (repeat' first
    | with_reducible assumption
    | with_reducible exact Sub.of hm (by decide)
    | with_reducible apply specHarbRouteStatus_kept
    | with_reducible apply runScs_kept
    | with_reducible apply kept_ite
    | with_reducible apply kept_foldl
    | with_reducible apply kept_foldl_fst
    | with_reducible apply outKept_next
    | with_reducible apply outKept_ite
    | simp only [kept_mk, true_or]
    | split
    | intro _)

end Sys2Proof.Machine
end

