-- ==== Sys2Proof/Laws/KeptMailbox.lean ====
section
/-! SUPPORT. The operations of Mailbox.lean keep the invariant, the queue and the time. -/

namespace Sys2Proof.Machine

theorem specIdentify_kept {φ : Frame}   :
    CmdSpec.Kept φ (specIdentify ) := by
  refine ⟨?_, ?_, ?_, ?_⟩ <;> intros <;> dsimp only [specIdentify] <;>
  (repeat' first
    | with_reducible assumption
    | with_reducible apply kept_ite
    | with_reducible apply kept_foldl
    | with_reducible apply kept_foldl_fst
    | with_reducible apply outKept_next
    | with_reducible apply outKept_ite
    | simp only [kept_mk, true_or]
    | split
    | intro _)

theorem specLaneStatus_kept {φ : Frame}   :
    CmdSpec.Kept φ (specLaneStatus ) := by
  refine ⟨?_, ?_, ?_, ?_⟩ <;> intros <;> dsimp only [specLaneStatus] <;>
  (repeat' first
    | with_reducible assumption
    | with_reducible apply kept_ite
    | with_reducible apply kept_foldl
    | with_reducible apply kept_foldl_fst
    | with_reducible apply outKept_next
    | with_reducible apply outKept_ite
    | simp only [kept_mk, true_or]
    | split
    | intro _)

theorem specPing_kept {φ : Frame}   :
    CmdSpec.Kept φ (specPing ) := by
  refine ⟨?_, ?_, ?_, ?_⟩ <;> intros <;> dsimp only [specPing] <;>
  (repeat' first
    | with_reducible assumption
    | with_reducible apply kept_ite
    | with_reducible apply kept_foldl
    | with_reducible apply kept_foldl_fst
    | with_reducible apply outKept_next
    | with_reducible apply outKept_ite
    | simp only [kept_mk, true_or]
    | split
    | intro _)

theorem specSessionInfo_kept {φ : Frame}   :
    CmdSpec.Kept φ (specSessionInfo ) := by
  refine ⟨?_, ?_, ?_, ?_⟩ <;> intros <;> dsimp only [specSessionInfo] <;>
  (repeat' first
    | with_reducible assumption
    | with_reducible apply kept_ite
    | with_reducible apply kept_foldl
    | with_reducible apply kept_foldl_fst
    | with_reducible apply outKept_next
    | with_reducible apply outKept_ite
    | simp only [kept_mk, true_or]
    | split
    | intro _)

theorem specSessionPermit_kept {φ : Frame}  (hm : Sub 0x608 φ.fx)  :
    CmdSpec.Kept φ (specSessionPermit ) := by
  refine ⟨?_, ?_, ?_, ?_⟩ <;> intros <;> dsimp only [specSessionPermit] <;>
  (repeat' first
    | with_reducible assumption
    | with_reducible exact Sub.of hm (by decide)
    | with_reducible apply State.commitLocal_kept
    | with_reducible apply kept_ite
    | with_reducible apply kept_foldl
    | with_reducible apply kept_foldl_fst
    | with_reducible apply outKept_next
    | with_reducible apply outKept_ite
    | simp only [kept_mk, true_or]
    | split
    | intro _)

theorem execIdentify_kept {φ : Frame} {r : Req} {s : State} (hm : Sub 0x17efdce0fafc007a03dc φ.fx) (h1 : s.Kept φ) :
    OutKept φ (execIdentify r s) := by
  unfold execIdentify
  try dsimp only
  (repeat' first
    | with_reducible assumption
    | with_reducible exact Sub.of hm (by decide)
    | with_reducible apply runScs_kept
    | with_reducible apply specIdentify_kept
    | with_reducible apply kept_ite
    | with_reducible apply kept_foldl
    | with_reducible apply kept_foldl_fst
    | with_reducible apply outKept_next
    | with_reducible apply outKept_ite
    | simp only [kept_mk, true_or]
    | split
    | intro _)

theorem execLaneStatus_kept {φ : Frame} {r : Req} {s : State} (hm : Sub 0x17efdce0fafc007a03dc φ.fx) (h1 : s.Kept φ) :
    OutKept φ (execLaneStatus r s) := by
  unfold execLaneStatus
  try dsimp only
  (repeat' first
    | with_reducible assumption
    | with_reducible exact Sub.of hm (by decide)
    | with_reducible apply specLaneStatus_kept
    | with_reducible apply runScs_kept
    | with_reducible apply kept_ite
    | with_reducible apply kept_foldl
    | with_reducible apply kept_foldl_fst
    | with_reducible apply outKept_next
    | with_reducible apply outKept_ite
    | simp only [kept_mk, true_or]
    | split
    | intro _)

theorem execPing_kept {φ : Frame} {r : Req} {s : State} (hm : Sub 0x17efdce0fafc007a03dc φ.fx) (h1 : s.Kept φ) :
    OutKept φ (execPing r s) := by
  unfold execPing
  try dsimp only
  (repeat' first
    | with_reducible assumption
    | with_reducible exact Sub.of hm (by decide)
    | with_reducible apply specPing_kept
    | with_reducible apply runScs_kept
    | with_reducible apply kept_ite
    | with_reducible apply kept_foldl
    | with_reducible apply kept_foldl_fst
    | with_reducible apply outKept_next
    | with_reducible apply outKept_ite
    | simp only [kept_mk, true_or]
    | split
    | intro _)

theorem execSessionInfo_kept {φ : Frame} {r : Req} {s : State} (hm : Sub 0x17efdce0fafc007a03dc φ.fx) (h1 : s.Kept φ)
    :
    OutKept φ (execSessionInfo r s) := by
  unfold execSessionInfo
  try dsimp only
  (repeat' first
    | with_reducible assumption
    | with_reducible exact Sub.of hm (by decide)
    | with_reducible apply specSessionInfo_kept
    | with_reducible apply runScs_kept
    | with_reducible apply kept_ite
    | with_reducible apply kept_foldl
    | with_reducible apply kept_foldl_fst
    | with_reducible apply outKept_next
    | with_reducible apply outKept_ite
    | simp only [kept_mk, true_or]
    | split
    | intro _)

theorem execSessionPermit_kept {φ : Frame} {r : Req} {s : State} (hm : Sub 0x17efdce0fafc007a07dc φ.fx) (h1 : s.Kept
    φ) :
    OutKept φ (execSessionPermit r s) := by
  unfold execSessionPermit
  try dsimp only
  (repeat' first
    | with_reducible assumption
    | with_reducible exact Sub.of hm (by decide)
    | with_reducible apply runScs_kept
    | with_reducible apply specSessionPermit_kept
    | with_reducible apply kept_ite
    | with_reducible apply kept_foldl
    | with_reducible apply kept_foldl_fst
    | with_reducible apply outKept_next
    | with_reducible apply outKept_ite
    | simp only [kept_mk, true_or]
    | split
    | intro _)

theorem execUnassignedOpcode_kept {φ : Frame} {opcode : Nat} {r : Req} {s : State} (hm : Sub 0x6000d8 φ.fx) (h1 :
    s.Kept φ) :
    OutKept φ (execUnassignedOpcode opcode r s) := by
  unfold execUnassignedOpcode
  try dsimp only
  (repeat' first
    | with_reducible assumption
    | with_reducible exact Sub.of hm (by decide)
    | with_reducible apply State.refuse_kept
    | with_reducible apply State.count_kept
    | with_reducible apply kept_ite
    | with_reducible apply kept_foldl
    | with_reducible apply kept_foldl_fst
    | with_reducible apply outKept_next
    | with_reducible apply outKept_ite
    | simp only [kept_mk, true_or]
    | split
    | intro _)

theorem okBus_kept {φ : Frame} {x : Out} (hm : Sub 0x20 φ.fx) (h1 : OutKept φ x) : OutKept φ (okBus x) := by
  cases x with
  | next s => exact outKept_next (State.busOk_kept (Sub.of hm (by decide)) (h1 s rfl))
  | fault f => intro t ht; cases ht
  | refused r => intro t ht; cases ht

theorem execDoorbell_kept {φ : Frame} {l : Lane} {who : Initiator} {mb : Nat} {slot : Nat} {s : State} (hm : Sub
    0x400028 φ.fx) (h1 : s.Kept φ) :
    OutKept φ (execDoorbell l who mb slot s) := by
  unfold execDoorbell
  try dsimp only
  (repeat' first
    | with_reducible assumption
    | with_reducible exact Sub.of hm (by decide)
    | with_reducible apply State.keepReq_kept
    | with_reducible apply State.setFld_kept
    | with_reducible apply State.setBitF_kept
    | with_reducible apply State.countFld_kept
    | with_reducible apply okBus_kept
    | with_reducible apply State.busErr_kept
    | with_reducible apply kept_ite
    | with_reducible apply kept_foldl
    | with_reducible apply kept_foldl_fst
    | with_reducible apply outKept_next
    | with_reducible apply outKept_ite
    | simp only [kept_mk, true_or]
    | split
    | intro _)

theorem execReqSlotWrite_kept {φ : Frame} {l : Lane} {who : Initiator} {mb : Nat} {slot : Nat} {off : Nat} {value :
    Word} {s : State} (hm : Sub 0x28 φ.fx) (h1 : s.Kept φ) :
    OutKept φ (execReqSlotWrite l who mb slot off value s) := by
  unfold execReqSlotWrite
  try dsimp only
  (repeat' first
    | with_reducible assumption
    | with_reducible exact Sub.of hm (by decide)
    | with_reducible apply State.setReg_kept
    | with_reducible apply State.setBitF_kept
    | with_reducible apply okBus_kept
    | with_reducible apply State.busErr_kept
    | with_reducible apply State.count_kept
    | with_reducible apply kept_ite
    | with_reducible apply kept_foldl
    | with_reducible apply kept_foldl_fst
    | with_reducible apply outKept_next
    | with_reducible apply outKept_ite
    | simp only [kept_mk, true_or]
    | split
    | intro _)

theorem execRespAck_kept {φ : Frame} {l : Lane} {who : Initiator} {mb : Nat} {mask : Nat} {s : State} (hm : Sub 0x28
    φ.fx) (h1 : s.Kept φ) :
    OutKept φ (execRespAck l who mb mask s) := by
  unfold execRespAck
  try dsimp only
  (repeat' first
    | with_reducible assumption
    | with_reducible exact Sub.of hm (by decide)
    | with_reducible apply State.setFld_kept
    | with_reducible apply State.forEach_kept
    | with_reducible apply okBus_kept
    | with_reducible apply State.busErr_kept
    | with_reducible apply kept_ite
    | with_reducible apply kept_foldl
    | with_reducible apply kept_foldl_fst
    | with_reducible apply outKept_next
    | with_reducible apply outKept_ite
    | simp only [kept_mk, true_or]
    | split
    | intro _)

theorem execCplHeadWrite_kept {φ : Frame} {l : Lane} {who : Initiator} {mb : Nat} {head : Nat} {s : State} (hm : Sub
    0x28 φ.fx) (h1 : s.Kept φ) :
    OutKept φ (execCplHeadWrite l who mb head s) := by
  unfold execCplHeadWrite
  try dsimp only
  (repeat' first
    | with_reducible assumption
    | with_reducible exact Sub.of hm (by decide)
    | with_reducible apply State.setFld_kept
    | with_reducible apply okBus_kept
    | with_reducible apply State.busErr_kept
    | with_reducible apply kept_ite
    | with_reducible apply kept_foldl
    | with_reducible apply kept_foldl_fst
    | with_reducible apply outKept_next
    | with_reducible apply outKept_ite
    | simp only [kept_mk, true_or]
    | split
    | intro _)

theorem State.authFail_kept {φ : Frame} {s : State} (hm : Sub 0x17efdce0fafc007a035c φ.fx) (h1 : s.Kept φ) :
    State.Kept φ (State.authFail s) := by
  unfold State.authFail
  try dsimp only
  (repeat' first
    | with_reducible assumption
    | with_reducible exact Sub.of hm (by decide)
    | with_reducible apply State.tamper_kept
    | with_reducible apply kept_ite
    | with_reducible apply kept_foldl
    | with_reducible apply kept_foldl_fst
    | with_reducible apply outKept_next
    | with_reducible apply outKept_ite
    | simp only [kept_mk, true_or]
    | split
    | intro _)

theorem execSessionOpen_kept {φ : Frame} {n : Nat} {counter : Nat} {tagOk : Bool} {nonce : List Byte} {s : State} (hm
    : Sub 0x17efdce0fafc007a03dc φ.fx) (h1 : s.Kept φ) :
    OutKept φ (execSessionOpen n counter tagOk nonce s) := by
  unfold execSessionOpen
  try dsimp only
  (repeat' first
    | with_reducible assumption
    | with_reducible exact Sub.of hm (by decide)
    | with_reducible apply State.authFail_kept
    | with_reducible apply State.setSession_kept
    | with_reducible apply State.closeSession_kept
    | with_reducible apply State.setBitBoth_kept
    | with_reducible apply State.tickFree_kept
    | with_reducible apply State.count_kept
    | with_reducible apply State.emit_kept
    | with_reducible apply kept_ite
    | with_reducible apply kept_foldl
    | with_reducible apply kept_foldl_fst
    | with_reducible apply outKept_next
    | with_reducible apply outKept_ite
    | simp only [kept_mk, true_or]
    | split
    | intro _)

theorem State.sessionRequest_kept {φ : Frame} {s : State} {l : Lane} {n : Nat} {b : List Byte} (hm : Sub 0x6000d8
    φ.fx) (h1 : s.Kept φ) :
    State.Kept φ (State.sessionRequest s l n b) := by
  unfold State.sessionRequest
  try dsimp only
  (repeat' first
    | with_reducible assumption
    | with_reducible exact Sub.of hm (by decide)
    | with_reducible apply State.keepReq_kept
    | with_reducible apply State.refuse_kept
    | with_reducible apply State.setFldBoth_kept
    | with_reducible apply kept_ite
    | with_reducible apply kept_foldl
    | with_reducible apply kept_foldl_fst
    | with_reducible apply outKept_next
    | with_reducible apply outKept_ite
    | simp only [kept_mk, true_or]
    | split
    | intro _)

theorem execSessionSegment_kept {φ : Frame} {g : Segment} {s : State} (hm : Sub 0x17efdce0fafc007a03dc φ.fx) (h1 :
    s.Kept φ) :
    OutKept φ (execSessionSegment g s) := by
  unfold execSessionSegment
  try dsimp only
  (repeat' first
    | with_reducible assumption
    | with_reducible exact Sub.of hm (by decide)
    | with_reducible apply State.authFail_kept
    | with_reducible apply State.sessionRequest_kept
    | with_reducible apply State.setSession_kept
    | with_reducible apply State.closeSession_kept
    | with_reducible apply State.count_kept
    | with_reducible apply kept_ite
    | with_reducible apply kept_foldl
    | with_reducible apply kept_foldl_fst
    | with_reducible apply outKept_next
    | with_reducible apply outKept_ite
    | simp only [kept_mk, true_or]
    | split
    | intro _)

theorem execSessionClose_kept {φ : Frame} {n : Nat} {s : State} (hm : Sub 0x600008 φ.fx) (h1 : s.Kept φ) :
    OutKept φ (execSessionClose n s) := by
  unfold execSessionClose
  try dsimp only
  (repeat' first
    | with_reducible assumption
    | with_reducible exact Sub.of hm (by decide)
    | with_reducible apply State.closeSession_kept
    | with_reducible apply kept_ite
    | with_reducible apply kept_foldl
    | with_reducible apply kept_foldl_fst
    | with_reducible apply outKept_next
    | with_reducible apply outKept_ite
    | simp only [kept_mk, true_or]
    | split
    | intro _)

theorem execSessionIdleTimeout_kept {φ : Frame} {n : Nat} {s : State} (hm : Sub 0x600088 φ.fx) (h1 : s.Kept φ) :
    OutKept φ (execSessionIdleTimeout n s) := by
  unfold execSessionIdleTimeout
  try dsimp only
  (repeat' first
    | with_reducible assumption
    | with_reducible exact Sub.of hm (by decide)
    | with_reducible apply State.closeSession_kept
    | with_reducible apply State.emit_kept
    | with_reducible apply kept_ite
    | with_reducible apply kept_foldl
    | with_reducible apply kept_foldl_fst
    | with_reducible apply outKept_next
    | with_reducible apply outKept_ite
    | simp only [kept_mk, true_or]
    | split
    | intro _)

theorem execReassemblyTimeout_kept {φ : Frame} {n : Nat} {msg : Nat} {s : State} (hm : Sub 0x200008 φ.fx) (h1 : s.Kept
    φ) :
    OutKept φ (execReassemblyTimeout n msg s) := by
  unfold execReassemblyTimeout
  try dsimp only
  (repeat' first
    | with_reducible assumption
    | with_reducible exact Sub.of hm (by decide)
    | with_reducible apply State.setSession_kept
    | with_reducible apply State.count_kept
    | with_reducible apply kept_ite
    | with_reducible apply kept_foldl
    | with_reducible apply kept_foldl_fst
    | with_reducible apply outKept_next
    | with_reducible apply outKept_ite
    | simp only [kept_mk, true_or]
    | split
    | intro _)

theorem execWatermark_kept {φ : Frame} {stream : Nat} {reqId : Nat} {s : State} (hm : Sub 0x400000 φ.fx) (h1 : s.Kept
    φ) :
    OutKept φ (execWatermark stream reqId s) := by
  unfold execWatermark
  try dsimp only
  (repeat' first
    | with_reducible assumption
    | with_reducible exact Sub.of hm (by decide)
    | with_reducible apply kept_ite
    | with_reducible apply kept_foldl
    | with_reducible apply kept_foldl_fst
    | with_reducible apply outKept_next
    | with_reducible apply outKept_ite
    | simp only [kept_mk, hm.bit 22 rfl, or_true, true_or]
    | split
    | intro _)

end Sys2Proof.Machine
end

