-- ==== Sys2Proof/Laws/KeptLedgerCmds.lean ====
section
/-! SUPPORT. The operations of LedgerCmds.lean keep the invariant, the queue and the time. -/

namespace Sys2Proof.Machine

theorem specLedgerStatus_kept {φ : Frame}   :
    CmdSpec.Kept φ (specLedgerStatus ) := by
  refine ⟨?_, ?_, ?_, ?_⟩ <;> intros <;> dsimp only [specLedgerStatus] <;>
  (repeat' first
    | with_reducible assumption
    | with_reducible apply kept_ite
    | with_reducible apply kept_foldl
    | with_reducible apply kept_foldl_fst
    | with_reducible apply outKept_next
    | with_reducible apply outKept_ite
    | simp only [kept_mk, true_or]
    | split
    | intro _)

theorem specLedgerConfig_kept {φ : Frame}  (hm : Sub 0x608 φ.fx)  :
    CmdSpec.Kept φ (specLedgerConfig ) := by
  refine ⟨?_, ?_, ?_, ?_⟩ <;> intros <;> dsimp only [specLedgerConfig] <;>
  (repeat' first
    | with_reducible assumption
    | with_reducible exact Sub.of hm (by decide)
    | with_reducible apply State.commitLocal_kept
    | with_reducible apply kept_ite
    | with_reducible apply kept_foldl
    | with_reducible apply kept_foldl_fst
    | with_reducible apply outKept_next
    | with_reducible apply outKept_ite
    | simp only [kept_mk, true_or]
    | split
    | intro _)

theorem specLedgerQuota_kept {φ : Frame}  (hm : Sub 0x608 φ.fx)  :
    CmdSpec.Kept φ (specLedgerQuota ) := by
  refine ⟨?_, ?_, ?_, ?_⟩ <;> intros <;> dsimp only [specLedgerQuota] <;>
  (repeat' first
    | with_reducible assumption
    | with_reducible exact Sub.of hm (by decide)
    | with_reducible apply State.commitLocal_kept
    | with_reducible apply kept_ite
    | with_reducible apply kept_foldl
    | with_reducible apply kept_foldl_fst
    | with_reducible apply outKept_next
    | with_reducible apply outKept_ite
    | simp only [kept_mk, true_or]
    | split
    | intro _)

theorem specLedgerQuery_kept {φ : Frame}   :
    CmdSpec.Kept φ (specLedgerQuery ) := by
  refine ⟨?_, ?_, ?_, ?_⟩ <;> intros <;> dsimp only [specLedgerQuery] <;>
  (repeat' first
    | with_reducible assumption
    | with_reducible apply kept_ite
    | with_reducible apply kept_foldl
    | with_reducible apply kept_foldl_fst
    | with_reducible apply outKept_next
    | with_reducible apply outKept_ite
    | simp only [kept_mk, true_or]
    | split
    | intro _)

theorem specLedgerRecovered_kept {φ : Frame}  (hm : Sub 0x14000000000000108 φ.fx)  :
    CmdSpec.Kept φ (specLedgerRecovered ) := by
  refine ⟨?_, ?_, ?_, ?_⟩ <;> intros <;> dsimp only [specLedgerRecovered] <;>
  (repeat' first
    | with_reducible assumption
    | with_reducible exact Sub.of hm (by decide)
    | with_reducible apply State.mapEntry_kept
    | with_reducible apply State.done_kept
    | with_reducible apply State.forEach_kept
    | with_reducible apply State.setLed_kept
    | with_reducible refine Ledger.Fresh.same (State.Kept.led (φ := φ) ?_)
    | with_reducible refine Ledger.Fresh.filter (State.Kept.led (φ := φ) ?_)
    | with_reducible refine Ledger.Fresh.map (State.Kept.led (φ := φ) ?_) ?_
    | with_reducible refine Ledger.Fresh.push (State.Kept.led (φ := φ) ?_) ?_
    | with_reducible apply kept_ite
    | with_reducible apply kept_foldl
    | with_reducible apply kept_foldl_fst
    | with_reducible apply outKept_next
    | with_reducible apply outKept_ite
    | simp only [kept_mk, true_or]
    | with_reducible refine Ledger.Fresh.same (State.Kept.led (φ := φ) ?_)
    | with_reducible refine Ledger.Fresh.filter (State.Kept.led (φ := φ) ?_)
    | with_reducible refine Ledger.Fresh.map (State.Kept.led (φ := φ) ?_) ?_
    | with_reducible refine Ledger.Fresh.push (State.Kept.led (φ := φ) ?_) ?_
    | with_reducible rfl
    | split
    | intro _)

theorem execLedgerStatus_kept {φ : Frame} {r : Req} {s : State} (hm : Sub 0x17efdce0fafc007a03dc φ.fx) (h1 : s.Kept φ)
    :
    OutKept φ (execLedgerStatus r s) := by
  unfold execLedgerStatus
  try dsimp only
  (repeat' first
    | with_reducible assumption
    | with_reducible exact Sub.of hm (by decide)
    | with_reducible apply specLedgerStatus_kept
    | with_reducible apply runScs_kept
    | with_reducible apply kept_ite
    | with_reducible apply kept_foldl
    | with_reducible apply kept_foldl_fst
    | with_reducible apply outKept_next
    | with_reducible apply outKept_ite
    | simp only [kept_mk, true_or]
    | split
    | intro _)

theorem execLedgerConfig_kept {φ : Frame} {r : Req} {s : State} (hm : Sub 0x17efdce0fafc007a07dc φ.fx) (h1 : s.Kept φ)
    :
    OutKept φ (execLedgerConfig r s) := by
  unfold execLedgerConfig
  try dsimp only
  (repeat' first
    | with_reducible assumption
    | with_reducible exact Sub.of hm (by decide)
    | with_reducible apply specLedgerConfig_kept
    | with_reducible apply runScs_kept
    | with_reducible apply kept_ite
    | with_reducible apply kept_foldl
    | with_reducible apply kept_foldl_fst
    | with_reducible apply outKept_next
    | with_reducible apply outKept_ite
    | simp only [kept_mk, true_or]
    | split
    | intro _)

theorem execLedgerQuota_kept {φ : Frame} {r : Req} {s : State} (hm : Sub 0x17efdce0fafc007a07dc φ.fx) (h1 : s.Kept φ)
    :
    OutKept φ (execLedgerQuota r s) := by
  unfold execLedgerQuota
  try dsimp only
  (repeat' first
    | with_reducible assumption
    | with_reducible exact Sub.of hm (by decide)
    | with_reducible apply specLedgerQuota_kept
    | with_reducible apply runScs_kept
    | with_reducible apply kept_ite
    | with_reducible apply kept_foldl
    | with_reducible apply kept_foldl_fst
    | with_reducible apply outKept_next
    | with_reducible apply outKept_ite
    | simp only [kept_mk, true_or]
    | split
    | intro _)

theorem execLedgerQuery_kept {φ : Frame} {r : Req} {s : State} (hm : Sub 0x17efdce0fafc007a03dc φ.fx) (h1 : s.Kept φ)
    :
    OutKept φ (execLedgerQuery r s) := by
  unfold execLedgerQuery
  try dsimp only
  (repeat' first
    | with_reducible assumption
    | with_reducible exact Sub.of hm (by decide)
    | with_reducible apply runScs_kept
    | with_reducible apply specLedgerQuery_kept
    | with_reducible apply kept_ite
    | with_reducible apply kept_foldl
    | with_reducible apply kept_foldl_fst
    | with_reducible apply outKept_next
    | with_reducible apply outKept_ite
    | simp only [kept_mk, true_or]
    | split
    | intro _)

theorem execLedgerRecovered_kept {φ : Frame} {r : Req} {s : State} (hm : Sub 0x17efdce0fafc007a03dc φ.fx) (h1 : s.Kept
    φ) :
    OutKept φ (execLedgerRecovered r s) := by
  unfold execLedgerRecovered
  try dsimp only
  (repeat' first
    | with_reducible assumption
    | with_reducible exact Sub.of hm (by decide)
    | with_reducible apply specLedgerRecovered_kept
    | with_reducible apply runScs_kept
    | with_reducible apply kept_ite
    | with_reducible apply kept_foldl
    | with_reducible apply kept_foldl_fst
    | with_reducible apply outKept_next
    | with_reducible apply outKept_ite
    | simp only [kept_mk, true_or]
    | split
    | intro _)

theorem execEntryDisposed_kept {φ : Frame} {lsn : Nat} {disp : Nat} {err : Nat} {s : State} (hm : Sub
    0x14000000000000108 φ.fx) (h1 : s.Kept φ) :
    OutKept φ (execEntryDisposed lsn disp err s) := by
  unfold execEntryDisposed
  try dsimp only
  (repeat' first
    | with_reducible assumption
    | with_reducible exact Sub.of hm (by decide)
    | with_reducible apply State.dispose_kept
    | with_reducible apply kept_ite
    | with_reducible apply kept_foldl
    | with_reducible apply kept_foldl_fst
    | with_reducible apply outKept_next
    | with_reducible apply outKept_ite
    | simp only [kept_mk, true_or]
    | split
    | intro _)

theorem State.pushCpl_kept {φ : Frame} {s : State} {l : Lane} {mb : Nat} {rec_ : List Byte} (hm : Sub 0x48 φ.fx) (h1 :
    s.Kept φ) :
    State.Kept φ (State.pushCpl s l mb rec_) := by
  unfold State.pushCpl
  try dsimp only
  (repeat' first
    | with_reducible assumption
    | with_reducible exact Sub.of hm (by decide)
    | with_reducible apply State.irq_kept
    | with_reducible apply State.setFld_kept
    | with_reducible apply State.setRegs_kept
    | with_reducible apply kept_ite
    | with_reducible apply kept_foldl
    | with_reducible apply kept_foldl_fst
    | with_reducible apply outKept_next
    | with_reducible apply outKept_ite
    | simp only [kept_mk, true_or]
    | split
    | intro _)

theorem execEntryFree_kept {φ : Frame} {lsn : Nat} {s : State} (hm : Sub 0x108 φ.fx) (h1 : s.Kept φ) :
    OutKept φ (execEntryFree lsn s) := by
  unfold execEntryFree
  try dsimp only
  (repeat' first
    | with_reducible assumption
    | with_reducible exact Sub.of hm (by decide)
    | with_reducible apply State.syncLedg_kept
    | with_reducible apply State.syncQuota_kept
    | with_reducible apply State.setLed_kept
    | with_reducible refine Ledger.Fresh.same (State.Kept.led (φ := φ) ?_)
    | with_reducible refine Ledger.Fresh.filter (State.Kept.led (φ := φ) ?_)
    | with_reducible refine Ledger.Fresh.map (State.Kept.led (φ := φ) ?_) ?_
    | with_reducible refine Ledger.Fresh.push (State.Kept.led (φ := φ) ?_) ?_
    | with_reducible apply kept_ite
    | with_reducible apply kept_foldl
    | with_reducible apply kept_foldl_fst
    | with_reducible apply outKept_next
    | with_reducible apply outKept_ite
    | simp only [kept_mk, true_or]
    | with_reducible refine Ledger.Fresh.same (State.Kept.led (φ := φ) ?_)
    | with_reducible refine Ledger.Fresh.filter (State.Kept.led (φ := φ) ?_)
    | with_reducible refine Ledger.Fresh.map (State.Kept.led (φ := φ) ?_) ?_
    | with_reducible refine Ledger.Fresh.push (State.Kept.led (φ := φ) ?_) ?_
    | with_reducible rfl
    | split
    | intro _)

theorem execDedupExpiry_kept {φ : Frame} {s : State} (hm : Sub 0x108 φ.fx) (h1 : s.Kept φ) :
    OutKept φ (execDedupExpiry s) := by
  unfold execDedupExpiry
  try dsimp only
  (repeat' first
    | with_reducible assumption
    | with_reducible exact Sub.of hm (by decide)
    | with_reducible apply State.syncLedg_kept
    | with_reducible apply State.setLed_kept
    | with_reducible refine Ledger.Fresh.same (State.Kept.led (φ := φ) ?_)
    | with_reducible refine Ledger.Fresh.filter (State.Kept.led (φ := φ) ?_)
    | with_reducible refine Ledger.Fresh.map (State.Kept.led (φ := φ) ?_) ?_
    | with_reducible refine Ledger.Fresh.push (State.Kept.led (φ := φ) ?_) ?_
    | with_reducible apply kept_ite
    | with_reducible apply kept_foldl
    | with_reducible apply kept_foldl_fst
    | with_reducible apply outKept_next
    | with_reducible apply outKept_ite
    | simp only [kept_mk, true_or]
    | with_reducible refine Ledger.Fresh.same (State.Kept.led (φ := φ) ?_)
    | with_reducible refine Ledger.Fresh.filter (State.Kept.led (φ := φ) ?_)
    | with_reducible refine Ledger.Fresh.map (State.Kept.led (φ := φ) ?_) ?_
    | with_reducible refine Ledger.Fresh.push (State.Kept.led (φ := φ) ?_) ?_
    | with_reducible rfl
    | split
    | intro _)

theorem execLedgerRebuild_kept {φ : Frame} {rtcLost : Bool} {lossAt : Nat} {s : State} (hm : Sub 0x600108 φ.fx) (h1 :
    s.Kept φ) :
    OutKept φ (execLedgerRebuild rtcLost lossAt s) := by
  unfold execLedgerRebuild
  try dsimp only
  (repeat' first
    | with_reducible assumption
    | with_reducible exact Sub.of hm (by decide)
    | with_reducible apply State.syncLedg_kept
    | with_reducible apply State.closeSession_kept
    | with_reducible apply State.setBitBoth_kept
    | with_reducible apply State.forEach_kept
    | with_reducible apply State.setLed_kept
    | with_reducible refine Ledger.Fresh.same (State.Kept.led (φ := φ) ?_)
    | with_reducible refine Ledger.Fresh.filter (State.Kept.led (φ := φ) ?_)
    | with_reducible refine Ledger.Fresh.map (State.Kept.led (φ := φ) ?_) ?_
    | with_reducible refine Ledger.Fresh.push (State.Kept.led (φ := φ) ?_) ?_
    | with_reducible apply kept_ite
    | with_reducible apply kept_foldl
    | with_reducible apply kept_foldl_fst
    | with_reducible apply outKept_next
    | with_reducible apply outKept_ite
    | simp only [kept_mk, true_or]
    | with_reducible refine Ledger.Fresh.same (State.Kept.led (φ := φ) ?_)
    | with_reducible refine Ledger.Fresh.filter (State.Kept.led (φ := φ) ?_)
    | with_reducible refine Ledger.Fresh.map (State.Kept.led (φ := φ) ?_) ?_
    | with_reducible refine Ledger.Fresh.push (State.Kept.led (φ := φ) ?_) ?_
    | with_reducible rfl
    | split
    | intro _)

theorem State.replay_kept {φ : Frame} {s : State} (hm : Sub 0x14000000000000108 φ.fx) (h1 : s.Kept φ) :
    State.Kept φ (State.replay s) := by
  unfold State.replay
  try dsimp only
  (repeat' first
    | with_reducible assumption
    | with_reducible exact Sub.of hm (by decide)
    | with_reducible apply State.setLed_kept
    | with_reducible apply State.disposeAll_kept
    | with_reducible refine Ledger.Fresh.same (State.Kept.led (φ := φ) ?_)
    | with_reducible refine Ledger.Fresh.filter (State.Kept.led (φ := φ) ?_)
    | with_reducible refine Ledger.Fresh.map (State.Kept.led (φ := φ) ?_) ?_
    | with_reducible refine Ledger.Fresh.push (State.Kept.led (φ := φ) ?_) ?_
    | with_reducible apply kept_ite
    | with_reducible apply kept_foldl
    | with_reducible apply kept_foldl_fst
    | with_reducible apply outKept_next
    | with_reducible apply outKept_ite
    | simp only [kept_mk, true_or]
    | with_reducible refine Ledger.Fresh.same (State.Kept.led (φ := φ) ?_)
    | with_reducible refine Ledger.Fresh.filter (State.Kept.led (φ := φ) ?_)
    | with_reducible refine Ledger.Fresh.map (State.Kept.led (φ := φ) ?_) ?_
    | with_reducible refine Ledger.Fresh.push (State.Kept.led (φ := φ) ?_) ?_
    | with_reducible rfl
    | split
    | intro _)

theorem execUnclaimedTimeout_kept {φ : Frame} {lsn : Nat} {s : State} (hm : Sub 0x100 φ.fx) (h1 : s.Kept φ) :
    OutKept φ (execUnclaimedTimeout lsn s) := by
  unfold execUnclaimedTimeout
  try dsimp only
  (repeat' first
    | with_reducible assumption
    | with_reducible exact Sub.of hm (by decide)
    | with_reducible apply State.mapEntry_kept
    | with_reducible apply kept_ite
    | with_reducible apply kept_foldl
    | with_reducible apply kept_foldl_fst
    | with_reducible apply outKept_next
    | with_reducible apply outKept_ite
    | simp only [kept_mk, true_or]
    | with_reducible rfl
    | split
    | intro _)

end Sys2Proof.Machine
end

