-- ==== Sys2Proof/Laws/KeptIov.lean ====
section
/-! SUPPORT. The operations of Iov.lean keep the invariant, the queue and the time. -/

namespace Sys2Proof.Machine

theorem State.setFnSt_kept {φ : Frame} {s : State} {l : Lane} {f : Nat} {v : Nat} (hm : Sub 0x8 φ.fx) (h1 : s.Kept φ)
    :
    State.Kept φ (State.setFnSt s l f v) := by
  unfold State.setFnSt
  try dsimp only
  (repeat' first
    | with_reducible assumption
    | with_reducible exact Sub.of hm (by decide)
    | with_reducible apply State.setFld_kept
    | with_reducible apply kept_ite
    | with_reducible apply kept_foldl
    | with_reducible apply kept_foldl_fst
    | with_reducible apply outKept_next
    | with_reducible apply outKept_ite
    | simp only [kept_mk, true_or]
    | split
    | intro _)

theorem State.syncQ_kept {φ : Frame} {s : State} {l : Lane} {q : Nat} (hm : Sub 0x8 φ.fx) (h1 : s.Kept φ) :
    State.Kept φ (State.syncQ s l q) := by
  unfold State.syncQ
  try dsimp only
  (repeat' first
    | with_reducible assumption
    | with_reducible exact Sub.of hm (by decide)
    | with_reducible apply State.setReg_kept
    | with_reducible apply State.setBitF_kept
    | with_reducible apply kept_ite
    | with_reducible apply kept_foldl
    | with_reducible apply kept_foldl_fst
    | with_reducible apply outKept_next
    | with_reducible apply outKept_ite
    | simp only [kept_mk, true_or]
    | split
    | intro _)

theorem State.setIovQ_kept {φ : Frame} {s : State} {x : IovQ} (hm : Sub 0x20000000000000008 φ.fx) (h1 : s.Kept φ) :
    State.Kept φ (State.setIovQ s x) := by
  unfold State.setIovQ
  try dsimp only
  (repeat' first
    | with_reducible assumption
    | with_reducible exact Sub.of hm (by decide)
    | with_reducible apply State.syncQ_kept
    | with_reducible apply kept_ite
    | with_reducible apply kept_foldl
    | with_reducible apply kept_foldl_fst
    | with_reducible apply outKept_next
    | with_reducible apply outKept_ite
    | simp only [kept_mk, hm.bit 65 rfl, or_true, true_or]
    | split
    | intro _)

theorem State.syncFn_kept {φ : Frame} {s : State} {l : Lane} {f : Nat} (hm : Sub 0x8 φ.fx) (h1 : s.Kept φ) :
    State.Kept φ (State.syncFn s l f) := by
  unfold State.syncFn
  try dsimp only
  (repeat' first
    | with_reducible assumption
    | with_reducible exact Sub.of hm (by decide)
    | with_reducible apply State.setReg_kept
    | with_reducible apply State.setFld_kept
    | with_reducible apply State.forEach_kept
    | with_reducible apply State.syncQ_kept
    | with_reducible apply kept_ite
    | with_reducible apply kept_foldl
    | with_reducible apply kept_foldl_fst
    | with_reducible apply outKept_next
    | with_reducible apply outKept_ite
    | simp only [kept_mk, true_or]
    | split
    | intro _)

theorem State.emptyQ_kept {φ : Frame} {s : State} {l : Lane} {q : Nat} (hm : Sub 0x20000000000000008 φ.fx) (h1 :
    s.Kept φ) :
    State.Kept φ (State.emptyQ s l q) := by
  unfold State.emptyQ
  try dsimp only
  (repeat' first
    | with_reducible assumption
    | with_reducible exact Sub.of hm (by decide)
    | with_reducible apply State.syncQ_kept
    | with_reducible apply kept_ite
    | with_reducible apply kept_foldl
    | with_reducible apply kept_foldl_fst
    | with_reducible apply outKept_next
    | with_reducible apply outKept_ite
    | simp only [kept_mk, hm.bit 65 rfl, or_true, true_or]
    | split
    | intro _)

theorem State.applyIov_kept {φ : Frame} {s : State} {c : Commit} (hm : Sub 0x34000000000000708 φ.fx) (h1 : s.Kept φ) :
    State.Kept φ (State.applyIov s c) := by
  unfold State.applyIov
  try dsimp only
  (repeat' first
    | with_reducible assumption
    | with_reducible exact Sub.of hm (by decide)
    | with_reducible apply State.setFnSt_kept
    | with_reducible apply State.syncFn_kept
    | with_reducible apply State.setBitF_kept
    | with_reducible apply State.applyCommit_kept
    | with_reducible apply State.emptyQ_kept
    | with_reducible apply kept_ite
    | with_reducible apply kept_foldl
    | with_reducible apply kept_foldl_fst
    | with_reducible apply outKept_next
    | with_reducible apply outKept_ite
    | simp only [kept_mk, true_or]
    | split
    | intro _)

theorem State.applyLstp_kept {φ : Frame} {s : State} {c : Commit} (hm : Sub 0x14000000000000708 φ.fx) (h1 : s.Kept φ)
    :
    State.Kept φ (State.applyLstp s c) := by
  unfold State.applyLstp
  try dsimp only
  (repeat' first
    | with_reducible assumption
    | with_reducible exact Sub.of hm (by decide)
    | with_reducible apply State.syncPairs_kept
    | with_reducible apply State.applyCommit_kept
    | with_reducible apply kept_ite
    | with_reducible apply kept_foldl
    | with_reducible apply kept_foldl_fst
    | with_reducible apply outKept_next
    | with_reducible apply outKept_ite
    | simp only [kept_mk, true_or]
    | split
    | intro _)

theorem State.endGrants_kept {φ : Frame} {s : State} {p : Grant → Bool} (hm : Sub 0x4000000000000008 φ.fx) (h1 :
    s.Kept φ) :
    State.Kept φ (State.endGrants s p) := by
  unfold State.endGrants
  try dsimp only
  (repeat' first
    | with_reducible assumption
    | with_reducible exact Sub.of hm (by decide)
    | with_reducible apply State.reloadShadow_kept
    | with_reducible apply kept_ite
    | with_reducible apply kept_foldl
    | with_reducible apply kept_foldl_fst
    | with_reducible apply outKept_next
    | with_reducible apply outKept_ite
    | simp only [kept_mk, hm.bit 62 rfl, or_true, true_or]
    | split
    | intro _)

theorem State.potDeny_kept {φ : Frame} {s : State} {l : Lane} {a : Nat} {part : Nat} {w : World} {init : Nat} {chan :
    Nat} {write : Bool} (hm : Sub 0x17efdce0fafc007a035c φ.fx) (h1 : s.Kept φ) :
    State.Kept φ (State.potDeny s l a part w init chan write) := by
  unfold State.potDeny
  try dsimp only
  (repeat' first
    | with_reducible assumption
    | with_reducible exact Sub.of hm (by decide)
    | with_reducible apply State.setReg_kept
    | with_reducible apply State.countFld_kept
    | with_reducible apply State.tamper_kept
    | with_reducible apply kept_ite
    | with_reducible apply kept_foldl
    | with_reducible apply kept_foldl_fst
    | with_reducible apply outKept_next
    | with_reducible apply outKept_ite
    | simp only [kept_mk, true_or]
    | split
    | intro _)

theorem State.dmaTo_kept {φ : Frame} {s : State} {l : Lane} {f : Nat} {chan : Nat} {a : Nat} {write : Bool} (hm : Sub
    0x17efdce0fafc007a035c φ.fx) (h1 : s.Kept φ) :
    State.Kept φ (State.dmaTo s l f chan a write).1 := by
  unfold State.dmaTo
  try dsimp only
  (repeat' first
    | with_reducible assumption
    | with_reducible exact Sub.of hm (by decide)
    | with_reducible apply State.potDeny_kept
    | with_reducible apply kept_ite
    | with_reducible apply kept_foldl
    | with_reducible apply kept_foldl_fst
    | with_reducible apply outKept_next
    | with_reducible apply outKept_ite
    | simp only [kept_mk, true_or]
    | split
    | intro _)

theorem State.dmaRead_kept {φ : Frame} {s : State} {l : Lane} {f : Nat} {chan : Nat} {a : Nat} {n : Nat} (hm : Sub
    0x17efdce0fafc007a035c φ.fx) (h1 : s.Kept φ) :
    State.Kept φ (State.dmaRead s l f chan a n).1 := by
  unfold State.dmaRead
  try dsimp only
  (repeat' first
    | with_reducible assumption
    | with_reducible exact Sub.of hm (by decide)
    | with_reducible apply State.dmaTo_kept
    | with_reducible apply kept_ite
    | with_reducible apply kept_foldl
    | with_reducible apply kept_foldl_fst
    | with_reducible apply outKept_next
    | with_reducible apply outKept_ite
    | simp only [kept_mk, true_or]
    | split
    | intro _)

theorem State.markDirty_kept {φ : Frame} {s : State} {l : Lane} {f : Nat} {pa : Nat} (hm : Sub 0x18 φ.fx) (h1 : s.Kept
    φ) :
    State.Kept φ (State.markDirty s l f pa) := by
  unfold State.markDirty
  try dsimp only
  (repeat' first
    | with_reducible assumption
    | with_reducible exact Sub.of hm (by decide)
    | with_reducible apply State.setByte_kept
    | with_reducible apply State.setBitF_kept
    | with_reducible apply kept_ite
    | with_reducible apply kept_foldl
    | with_reducible apply kept_foldl_fst
    | with_reducible apply outKept_next
    | with_reducible apply outKept_ite
    | simp only [kept_mk, true_or]
    | split
    | intro _)

theorem State.dmaWrite_kept {φ : Frame} {s : State} {l : Lane} {f : Nat} {chan : Nat} {a : Nat} {data : List Byte} (hm
    : Sub 0x17efdce0fafc007a035c φ.fx) (h1 : s.Kept φ) :
    State.Kept φ (State.dmaWrite s l f chan a data).1 := by
  unfold State.dmaWrite
  try dsimp only
  (repeat' first
    | with_reducible assumption
    | with_reducible exact Sub.of hm (by decide)
    | with_reducible apply State.markDirty_kept
    | with_reducible apply State.dmaTo_kept
    | with_reducible apply State.setBytes_kept
    | with_reducible apply kept_ite
    | with_reducible apply kept_foldl
    | with_reducible apply kept_foldl_fst
    | with_reducible apply outKept_next
    | with_reducible apply outKept_ite
    | simp only [kept_mk, true_or]
    | split
    | intro _)

theorem State.qMsi_kept {φ : Frame} {s : State} {l : Lane} {q : Nat} (hm : Sub 0x40 φ.fx) (h1 : s.Kept φ) :
    State.Kept φ (State.qMsi s l q) := by
  unfold State.qMsi
  try dsimp only
  (repeat' first
    | with_reducible assumption
    | with_reducible exact Sub.of hm (by decide)
    | with_reducible apply State.irq_kept
    | with_reducible apply kept_ite
    | with_reducible apply kept_foldl
    | with_reducible apply kept_foldl_fst
    | with_reducible apply outKept_next
    | with_reducible apply outKept_ite
    | simp only [kept_mk, true_or]
    | split
    | intro _)

theorem State.pushCq_kept {φ : Frame} {s : State} {l : Lane} {q : Nat} {data : List Byte} {irq : Bool} (hm : Sub
    0x17efdce0fafc007a035c φ.fx) (h1 : s.Kept φ) :
    State.Kept φ (State.pushCq s l q data irq) := by
  unfold State.pushCq
  try dsimp only
  (repeat' first
    | with_reducible assumption
    | with_reducible exact Sub.of hm (by decide)
    | with_reducible apply State.qMsi_kept
    | with_reducible apply State.setIovQ_kept
    | with_reducible apply State.dmaWrite_kept
    | with_reducible apply State.count_kept
    | with_reducible apply kept_ite
    | with_reducible apply kept_foldl
    | with_reducible apply kept_foldl_fst
    | with_reducible apply outKept_next
    | with_reducible apply outKept_ite
    | simp only [kept_mk, true_or]
    | split
    | intro _)

theorem State.drainCq_kept {φ : Frame} {s : State} {l : Lane} {q : Nat} {a3 : Nat} (hm : Sub 0x17efdce0fafc007a035c
    φ.fx) (h1 : s.Kept φ) :
    State.Kept φ (State.drainCq s l q a3) := by
  induction a3 generalizing s l q with
  | zero =>
    unfold State.drainCq
    (repeat' first
    | with_reducible assumption
    | with_reducible exact Sub.of hm (by decide)
    | with_reducible apply State.pushCq_kept
    | with_reducible apply State.setIovQ_kept
    | with_reducible apply kept_ite
    | with_reducible apply kept_foldl
    | with_reducible apply kept_foldl_fst
    | with_reducible apply outKept_next
    | with_reducible apply outKept_ite
    | simp only [kept_mk, true_or]
    | split
    | intro _)
  | succ k ih =>
    unfold State.drainCq
    (repeat' first
    | with_reducible assumption
    | with_reducible exact Sub.of hm (by decide)
    | with_reducible apply State.pushCq_kept
    | with_reducible apply State.setIovQ_kept
    | with_reducible apply ih
    | with_reducible apply kept_ite
    | with_reducible apply kept_foldl
    | with_reducible apply kept_foldl_fst
    | with_reducible apply outKept_next
    | with_reducible apply outKept_ite
    | simp only [kept_mk, true_or]
    | split
    | intro _)

theorem State.addCpl_kept {φ : Frame} {s : State} {l : Lane} {q : Nat} {c : IovCpl} (hm : Sub 0x17efdce0fafc007a035c
    φ.fx) (h1 : s.Kept φ) :
    State.Kept φ (State.addCpl s l q c) := by
  unfold State.addCpl
  try dsimp only
  (repeat' first
    | with_reducible assumption
    | with_reducible exact Sub.of hm (by decide)
    | with_reducible apply State.drainCq_kept
    | with_reducible apply State.setIovQ_kept
    | with_reducible apply kept_ite
    | with_reducible apply kept_foldl
    | with_reducible apply kept_foldl_fst
    | with_reducible apply outKept_next
    | with_reducible apply outKept_ite
    | simp only [kept_mk, true_or]
    | split
    | intro _)

theorem State.formCpl_kept {φ : Frame} {s : State} {e : LEntry} {c : IovCpl} (hm : Sub 0x4 φ.fx) (h1 : s.Kept φ) :
    State.Kept φ (State.formCpl s e c).1 := by
  unfold State.formCpl
  try dsimp only
  (repeat' first
    | with_reducible assumption
    | with_reducible exact Sub.of hm (by decide)
    | with_reducible apply State.tickFree_kept
    | with_reducible apply kept_ite
    | with_reducible apply kept_foldl
    | with_reducible apply kept_foldl_fst
    | with_reducible apply outKept_next
    | with_reducible apply outKept_ite
    | simp only [kept_mk, true_or]
    | split
    | intro _)

theorem State.formIn_kept {φ : Frame} {s : State} {l : Lane} {q : Nat} {e : LEntry} (hm : Sub 0x17efdce0fafc007a035c
    φ.fx) (h1 : s.Kept φ) :
    State.Kept φ (State.formIn s l q e) := by
  unfold State.formIn
  try dsimp only
  (repeat' first
    | with_reducible assumption
    | with_reducible exact Sub.of hm (by decide)
    | with_reducible apply State.drainCq_kept
    | with_reducible apply State.formCpl_kept
    | with_reducible apply State.setIovQ_kept
    | with_reducible apply kept_ite
    | with_reducible apply kept_foldl
    | with_reducible apply kept_foldl_fst
    | with_reducible apply outKept_next
    | with_reducible apply outKept_ite
    | simp only [kept_mk, true_or]
    | split
    | intro _)

theorem State.iovReport_kept {φ : Frame} {s : State} {e : LEntry} (hm : Sub 0x17efdce0fafc007a035c φ.fx) (h1 : s.Kept
    φ) :
    State.Kept φ (State.iovReport s e) := by
  unfold State.iovReport
  try dsimp only
  (repeat' first
    | with_reducible assumption
    | with_reducible exact Sub.of hm (by decide)
    | with_reducible apply State.formIn_kept
    | with_reducible apply kept_ite
    | with_reducible apply kept_foldl
    | with_reducible apply kept_foldl_fst
    | with_reducible apply outKept_next
    | with_reducible apply outKept_ite
    | simp only [kept_mk, true_or]
    | split
    | intro _)

theorem State.passHead_kept {φ : Frame} {s : State} {l : Lane} {q : Nat} {own : Bool} (hm : Sub 0x20000000000000008
    φ.fx) (h1 : s.Kept φ) :
    State.Kept φ (State.passHead s l q own) := by
  unfold State.passHead
  try dsimp only
  (repeat' first
    | with_reducible assumption
    | with_reducible exact Sub.of hm (by decide)
    | with_reducible apply State.setIovQ_kept
    | with_reducible apply kept_ite
    | with_reducible apply kept_foldl
    | with_reducible apply kept_foldl_fst
    | with_reducible apply outKept_next
    | with_reducible apply outKept_ite
    | simp only [kept_mk, true_or]
    | split
    | intro _)

theorem State.passDesc_kept {φ : Frame} {s : State} {l : Lane} {q : Nat} {c : IovCpl} (hm : Sub 0x17efdce0fafc007a035c
    φ.fx) (h1 : s.Kept φ) :
    State.Kept φ (State.passDesc s l q c) := by
  unfold State.passDesc
  try dsimp only
  (repeat' first
    | with_reducible assumption
    | with_reducible exact Sub.of hm (by decide)
    | with_reducible apply State.passHead_kept
    | with_reducible apply State.addCpl_kept
    | with_reducible apply kept_ite
    | with_reducible apply kept_foldl
    | with_reducible apply kept_foldl_fst
    | with_reducible apply outKept_next
    | with_reducible apply outKept_ite
    | simp only [kept_mk, true_or]
    | split
    | intro _)

theorem State.refuseDesc_kept {φ : Frame} {s : State} {l : Lane} {q : Nat} {i : Nat} {status : Nat} {cnt : Nat} {d :
    List Byte} (hm : Sub 0x17efdce0fafc007a035c φ.fx) (h1 : s.Kept φ) :
    State.Kept φ (State.refuseDesc s l q i status cnt d) := by
  unfold State.refuseDesc
  try dsimp only
  (repeat' first
    | with_reducible assumption
    | with_reducible exact Sub.of hm (by decide)
    | with_reducible apply State.passDesc_kept
    | with_reducible apply State.tickFree_kept
    | with_reducible apply State.count_kept
    | with_reducible apply kept_ite
    | with_reducible apply kept_foldl
    | with_reducible apply kept_foldl_fst
    | with_reducible apply outKept_next
    | with_reducible apply outKept_ite
    | simp only [kept_mk, true_or]
    | split
    | intro _)

theorem State.descCan_kept {φ : Frame} {s : State} {lsn : Nat} {bs : List Byte} (hm : Sub 0x16204400000840188 φ.fx)
    (h1 : s.Kept φ) :
    State.Kept φ (State.descCan s lsn bs) := by
  unfold State.descCan
  try dsimp only
  (repeat' first
    | with_reducible assumption
    | with_reducible exact Sub.of hm (by decide)
    | with_reducible apply State.canRequest_kept
    | with_reducible apply State.failed_kept
    | with_reducible apply kept_ite
    | with_reducible apply kept_foldl
    | with_reducible apply kept_foldl_fst
    | with_reducible apply outKept_next
    | with_reducible apply outKept_ite
    | simp only [kept_mk, true_or]
    | split
    | intro _)

theorem State.setMoved_kept {φ : Frame} {s : State} {l : Lane} {q : Nat} {lsn : Nat} {n : Nat} (hm : Sub
    0x20000000000000008 φ.fx) (h1 : s.Kept φ) :
    State.Kept φ (State.setMoved s l q lsn n) := by
  unfold State.setMoved
  try dsimp only
  (repeat' first
    | with_reducible assumption
    | with_reducible exact Sub.of hm (by decide)
    | with_reducible apply State.setIovQ_kept
    | with_reducible apply kept_ite
    | with_reducible apply kept_foldl
    | with_reducible apply kept_foldl_fst
    | with_reducible apply outKept_next
    | with_reducible apply outKept_ite
    | simp only [kept_mk, true_or]
    | split
    | intro _)

theorem State.descCopy_kept {φ : Frame} {s : State} {l : Lane} {q : Nat} {f : Nat} {lsn : Nat} {d : List Byte} {bs :
    List Byte} (hm : Sub 0x17efdce0fafc007a035c φ.fx) (h1 : s.Kept φ) :
    State.Kept φ (State.descCopy s l q f lsn d bs) := by
  unfold State.descCopy
  try dsimp only
  (repeat' first
    | with_reducible assumption
    | with_reducible exact Sub.of hm (by decide)
    | with_reducible apply State.failed_kept
    | with_reducible apply State.done_kept
    | with_reducible apply State.setMoved_kept
    | with_reducible apply State.dmaWrite_kept
    | with_reducible apply State.count_kept
    | with_reducible apply kept_ite
    | with_reducible apply kept_foldl
    | with_reducible apply kept_foldl_fst
    | with_reducible apply outKept_next
    | with_reducible apply outKept_ite
    | simp only [kept_mk, true_or]
    | split
    | intro _)

theorem State.iovStart_kept {φ : Frame} {s : State} {e : LEntry} (hm : Sub 0x17effee4fafc00fe03dc φ.fx) (h1 : s.Kept
    φ) :
    State.Kept φ (State.iovStart s e) := by
  unfold State.iovStart
  try dsimp only
  (repeat' first
    | with_reducible assumption
    | with_reducible exact Sub.of hm (by decide)
    | with_reducible apply State.descCopy_kept
    | with_reducible apply State.descCan_kept
    | with_reducible apply State.failed_kept
    | with_reducible apply State.done_kept
    | with_reducible apply State.begin_kept
    | with_reducible apply State.count_kept
    | with_reducible apply State.dmaRead_kept
    | with_reducible apply State.ethHand_kept
    | with_reducible apply kept_ite
    | with_reducible apply kept_foldl
    | with_reducible apply kept_foldl_fst
    | with_reducible apply outKept_next
    | with_reducible apply outKept_ite
    | simp only [kept_mk, true_or]
    | split
    | intro _)

theorem State.runDesc_kept {φ : Frame} {s : State} {lsn : Nat} (hm : Sub 0x17effee4fafc00fe03dc φ.fx) (h1 : s.Kept φ)
    :
    State.Kept φ (State.runDesc s lsn) := by
  unfold State.runDesc
  try dsimp only
  (repeat' first
    | with_reducible assumption
    | with_reducible exact Sub.of hm (by decide)
    | with_reducible apply State.iovStart_kept
    | with_reducible apply kept_ite
    | with_reducible apply kept_foldl
    | with_reducible apply kept_foldl_fst
    | with_reducible apply outKept_next
    | with_reducible apply outKept_ite
    | simp only [kept_mk, true_or]
    | split
    | intro _)

theorem State.takeReq_kept {φ : Frame} {s : State} {l : Lane} {q : Nat} {i : Nat} {d : List Byte} {r : Req} (hm : Sub
    0x17effee4fafc00fe03dc φ.fx) (h1 : s.Kept φ) :
    State.Kept φ (State.takeReq s l q i d r) := by
  unfold State.takeReq
  (repeat' first
    | with_reducible assumption
    | with_reducible exact Sub.of hm (by decide)
    | with_reducible apply State.refuseDesc_kept
    | with_reducible apply State.runDesc_kept
    | with_reducible apply State.countFull_kept
    | with_reducible apply State.passDesc_kept
    | with_reducible apply State.count_kept
    | with_reducible apply State.accept_kept
    | with_reducible apply kept_ite
    | with_reducible apply kept_foldl
    | with_reducible apply kept_foldl_fst
    | with_reducible apply outKept_next
    | with_reducible apply outKept_ite
    | split
    | intro _)

theorem State.takeDesc_kept {φ : Frame} {s : State} {l : Lane} {q : Nat} {i : Nat} {d : List Byte} (hm : Sub
    0x17effee4fafc00fe03dc φ.fx) (h1 : s.Kept φ) :
    State.Kept φ (State.takeDesc s l q i d) := by
  unfold State.takeDesc
  try dsimp only
  (repeat' first
    | with_reducible assumption
    | with_reducible exact Sub.of hm (by decide)
    | with_reducible apply State.takeReq_kept
    | with_reducible apply kept_ite
    | with_reducible apply kept_foldl
    | with_reducible apply kept_foldl_fst
    | with_reducible apply outKept_next
    | with_reducible apply outKept_ite
    | simp only [kept_mk, true_or]
    | split
    | intro _)

theorem execDescriptorTake_kept {φ : Frame} {l : Lane} {q : Nat} {s : State} (hm : Sub 0x17effee4fafc00fe03dc φ.fx)
    (h1 : s.Kept φ) :
    OutKept φ (execDescriptorTake l q s) := by
  unfold execDescriptorTake
  try dsimp only
  (repeat' first
    | with_reducible assumption
    | with_reducible exact Sub.of hm (by decide)
    | with_reducible apply State.refuseDesc_kept
    | with_reducible apply State.policy_kept
    | with_reducible apply State.takeDesc_kept
    | with_reducible apply State.tickFree_kept
    | with_reducible apply State.count_kept
    | with_reducible apply State.dmaRead_kept
    | with_reducible apply kept_ite
    | with_reducible apply kept_foldl
    | with_reducible apply kept_foldl_fst
    | with_reducible apply outKept_next
    | with_reducible apply outKept_ite
    | simp only [kept_mk, true_or]
    | split
    | intro _)

theorem State.dropDb_kept {φ : Frame} {s : State} {l : Lane} {f : Nat} (hm : Sub 0x8 φ.fx) (h1 : s.Kept φ) :
    State.Kept φ (State.dropDb s l f) := by
  unfold State.dropDb
  try dsimp only
  (repeat' first
    | with_reducible assumption
    | with_reducible exact Sub.of hm (by decide)
    | with_reducible apply State.countFld_kept
    | with_reducible apply State.count_kept
    | with_reducible apply kept_ite
    | with_reducible apply kept_foldl
    | with_reducible apply kept_foldl_fst
    | with_reducible apply outKept_next
    | with_reducible apply outKept_ite
    | simp only [kept_mk, true_or]
    | split
    | intro _)

theorem execIovSqDoorbell_kept {φ : Frame} {l : Lane} {who : Initiator} {f : Nat} {i : Nat} {value : Word} {s : State}
    (hm : Sub 0x20000000000000028 φ.fx) (h1 : s.Kept φ) :
    OutKept φ (execIovSqDoorbell l who f i value s) := by
  unfold execIovSqDoorbell
  try dsimp only
  (repeat' first
    | with_reducible assumption
    | with_reducible exact Sub.of hm (by decide)
    | with_reducible apply State.setIovQ_kept
    | with_reducible apply State.dropDb_kept
    | with_reducible apply okBus_kept
    | with_reducible apply State.busErr_kept
    | with_reducible apply kept_ite
    | with_reducible apply kept_foldl
    | with_reducible apply kept_foldl_fst
    | with_reducible apply outKept_next
    | with_reducible apply outKept_ite
    | simp only [kept_mk, true_or]
    | split
    | intro _)

theorem execIovCqHeadWrite_kept {φ : Frame} {l : Lane} {who : Initiator} {f : Nat} {i : Nat} {value : Word} {s :
    State} (hm : Sub 0x17efdce0fafc007a037c φ.fx) (h1 : s.Kept φ) :
    OutKept φ (execIovCqHeadWrite l who f i value s) := by
  unfold execIovCqHeadWrite
  try dsimp only
  (repeat' first
    | with_reducible assumption
    | with_reducible exact Sub.of hm (by decide)
    | with_reducible apply State.drainCq_kept
    | with_reducible apply State.setIovQ_kept
    | with_reducible apply okBus_kept
    | with_reducible apply State.busErr_kept
    | with_reducible apply kept_ite
    | with_reducible apply kept_foldl
    | with_reducible apply kept_foldl_fst
    | with_reducible apply outKept_next
    | with_reducible apply outKept_ite
    | simp only [kept_mk, true_or]
    | split
    | intro _)

theorem State.frameBytes_kept {φ : Frame} {s : State} {f : EthFrame} (hm : Sub 0x4 φ.fx) (h1 : s.Kept φ) :
    State.Kept φ (State.frameBytes s f).1 := by
  unfold State.frameBytes
  try dsimp only
  (repeat' first
    | with_reducible assumption
    | with_reducible exact Sub.of hm (by decide)
    | with_reducible apply State.tickFree_kept
    | with_reducible apply kept_ite
    | with_reducible apply kept_foldl
    | with_reducible apply kept_foldl_fst
    | with_reducible apply outKept_next
    | with_reducible apply outKept_ite
    | simp only [kept_mk, true_or]
    | split
    | intro _)

theorem State.rxFill_kept {φ : Frame} {s : State} {l : Lane} {q : Nat} {f : Nat} {fr : EthFrame} {entry : Nat → Nat →
    IovCpl} {a6 : Option (List Byte)} (hm : Sub 0x17efdce0fafc007a035c φ.fx) (h1 : s.Kept φ) :
    State.Kept φ (State.rxFill s l q f fr entry a6) := by
  unfold State.rxFill
  try dsimp only
  (repeat' first
    | with_reducible assumption
    | with_reducible exact Sub.of hm (by decide)
    | with_reducible apply State.frameBytes_kept
    | with_reducible apply State.policy_kept
    | with_reducible apply State.tickFree_kept
    | with_reducible apply State.dmaWrite_kept
    | with_reducible apply State.count_kept
    | with_reducible apply State.addCpl_kept
    | with_reducible apply kept_ite
    | with_reducible apply kept_foldl
    | with_reducible apply kept_foldl_fst
    | with_reducible apply outKept_next
    | with_reducible apply outKept_ite
    | simp only [kept_mk, true_or]
    | split
    | intro _)

theorem State.rxInto_kept {φ : Frame} {s : State} {l : Lane} {q : Nat} {fr : EthFrame} {stamp : Nat} (hm : Sub
    0x17efdce0fafc007a035c φ.fx) (h1 : s.Kept φ) :
    State.Kept φ (State.rxInto s l q fr stamp) := by
  unfold State.rxInto
  try dsimp only
  (repeat' first
    | with_reducible assumption
    | with_reducible exact Sub.of hm (by decide)
    | with_reducible apply State.rxFill_kept
    | with_reducible apply State.passHead_kept
    | with_reducible apply State.dmaRead_kept
    | with_reducible apply kept_ite
    | with_reducible apply kept_foldl
    | with_reducible apply kept_foldl_fst
    | with_reducible apply outKept_next
    | with_reducible apply outKept_ite
    | simp only [kept_mk, true_or]
    | split
    | intro _)

theorem execRxSteer_kept {φ : Frame} {l : Lane} {s : State} (hm : Sub 0x17efdce0fafc007a035c φ.fx) (h1 : s.Kept φ) :
    OutKept φ (execRxSteer l s) := by
  unfold execRxSteer
  try dsimp only
  (repeat' first
    | with_reducible assumption
    | with_reducible exact Sub.of hm (by decide)
    | with_reducible apply State.rxInto_kept
    | with_reducible apply State.modEth_kept
    | with_reducible apply State.count_kept
    | with_reducible apply kept_ite
    | with_reducible apply kept_foldl
    | with_reducible apply kept_foldl_fst
    | with_reducible apply outKept_next
    | with_reducible apply outKept_ite
    | simp only [kept_mk, true_or]
    | split
    | intro _)

theorem execQuiesceTimeout_kept {φ : Frame} {l : Lane} {f : Nat} {s : State} (hm : Sub 0x14000000000000108 φ.fx) (h1 :
    s.Kept φ) :
    OutKept φ (execQuiesceTimeout l f s) := by
  unfold execQuiesceTimeout
  try dsimp only
  (repeat' first
    | with_reducible assumption
    | with_reducible exact Sub.of hm (by decide)
    | with_reducible apply State.disposeAll_kept
    | with_reducible apply kept_ite
    | with_reducible apply kept_foldl
    | with_reducible apply kept_foldl_fst
    | with_reducible apply outKept_next
    | with_reducible apply outKept_ite
    | simp only [kept_mk, true_or]
    | split
    | intro _)

theorem State.emptyFn_kept {φ : Frame} {s : State} {l : Lane} {f : Nat} (hm : Sub 0x20000000000400008 φ.fx) (h1 :
    s.Kept φ) :
    State.Kept φ (State.emptyFn s l f) := by
  unfold State.emptyFn
  try dsimp only
  (repeat' first
    | with_reducible assumption
    | with_reducible exact Sub.of hm (by decide)
    | with_reducible apply State.setReg_kept
    | with_reducible apply State.forEach_kept
    | with_reducible apply State.emptyQ_kept
    | with_reducible apply kept_ite
    | with_reducible apply kept_foldl
    | with_reducible apply kept_foldl_fst
    | with_reducible apply outKept_next
    | with_reducible apply outKept_ite
    | simp only [kept_mk, hm.bit 22 rfl, or_true, true_or]
    | split
    | intro _)

theorem State.removeFn_kept {φ : Frame} {s : State} {l : Lane} {f : Nat} (hm : Sub 0x16004000000000188 φ.fx) (h1 :
    s.Kept φ) :
    State.Kept φ (State.removeFn s l f) := by
  unfold State.removeFn
  try dsimp only
  (repeat' first
    | with_reducible assumption
    | with_reducible exact Sub.of hm (by decide)
    | with_reducible apply State.setFnSt_kept
    | with_reducible apply State.syncFn_kept
    | with_reducible apply State.setBitF_kept
    | with_reducible apply State.forEach_kept
    | with_reducible apply State.dropVotes_kept
    | with_reducible apply kept_ite
    | with_reducible apply kept_foldl
    | with_reducible apply kept_foldl_fst
    | with_reducible apply outKept_next
    | with_reducible apply outKept_ite
    | simp only [kept_mk, true_or]
    | split
    | intro _)

theorem State.syncStopped_kept {φ : Frame} {s : State} {l : Lane} {f : Nat} (hm : Sub 0x8 φ.fx) (h1 : s.Kept φ) :
    State.Kept φ (State.syncStopped s l f) := by
  unfold State.syncStopped
  try dsimp only
  (repeat' first
    | with_reducible assumption
    | with_reducible exact Sub.of hm (by decide)
    | with_reducible apply State.forEach_kept
    | with_reducible apply State.syncQ_kept
    | with_reducible apply kept_ite
    | with_reducible apply kept_foldl
    | with_reducible apply kept_foldl_fst
    | with_reducible apply outKept_next
    | with_reducible apply outKept_ite
    | simp only [kept_mk, true_or]
    | split
    | intro _)

theorem State.vfApply_kept {φ : Frame} {s : State} {v : VfOp} (hm : Sub 0x3e004000000400188 φ.fx) (h1 : s.Kept φ) :
    State.Kept φ (State.vfApply s v) := by
  unfold State.vfApply
  try dsimp only
  (repeat' first
    | with_reducible assumption
    | with_reducible exact Sub.of hm (by decide)
    | with_reducible apply State.emptyFn_kept
    | with_reducible apply State.settleQuiesce_kept
    | with_reducible apply State.setFnSt_kept
    | with_reducible apply State.removeFn_kept
    | with_reducible apply State.failed_kept
    | with_reducible apply State.done_kept
    | with_reducible apply State.endGrants_kept
    | with_reducible apply State.syncStopped_kept
    | with_reducible apply kept_ite
    | with_reducible apply kept_foldl
    | with_reducible apply kept_foldl_fst
    | with_reducible apply outKept_next
    | with_reducible apply outKept_ite
    | simp only [kept_mk, hm.bit 63 rfl, hm.bit 64 rfl, or_true, true_or]
    | split
    | intro _)

theorem State.updPage_kept {φ : Frame} {s : State} {u : PotUpd} {a : Nat} (hm : Sub 0x18 φ.fx) (h1 : s.Kept φ) :
    State.Kept φ (State.updPage s u a) := by
  unfold State.updPage
  try dsimp only
  (repeat' first
    | with_reducible assumption
    | with_reducible exact Sub.of hm (by decide)
    | with_reducible apply State.clearMem_kept
    | with_reducible apply State.setPot_kept
    | with_reducible apply kept_ite
    | with_reducible apply kept_foldl
    | with_reducible apply kept_foldl_fst
    | with_reducible apply outKept_next
    | with_reducible apply outKept_ite
    | simp only [kept_mk, true_or]
    | split
    | intro _)

theorem State.updDone_kept {φ : Frame} {s : State} {u : PotUpd} (hm : Sub 0x54000000000000118 φ.fx) (h1 : s.Kept φ) :
    State.Kept φ (State.updDone s u) := by
  unfold State.updDone
  try dsimp only
  (repeat' first
    | with_reducible assumption
    | with_reducible exact Sub.of hm (by decide)
    | with_reducible apply State.setBitF_kept
    | with_reducible apply State.updPage_kept
    | with_reducible apply State.done_kept
    | with_reducible apply kept_ite
    | with_reducible apply kept_foldl
    | with_reducible apply kept_foldl_fst
    | with_reducible apply outKept_next
    | with_reducible apply outKept_ite
    | simp only [kept_mk, hm.bit 66 rfl, or_true, true_or]
    | split
    | intro _)

theorem State.updStart_kept {φ : Frame} {s : State} {u : PotUpd} (hm : Sub 0x40000000000000008 φ.fx) (h1 : s.Kept φ) :
    State.Kept φ (State.updStart s u) := by
  unfold State.updStart
  try dsimp only
  (repeat' first
    | with_reducible assumption
    | with_reducible exact Sub.of hm (by decide)
    | with_reducible apply State.setBitF_kept
    | with_reducible apply kept_ite
    | with_reducible apply kept_foldl
    | with_reducible apply kept_foldl_fst
    | with_reducible apply outKept_next
    | with_reducible apply outKept_ite
    | simp only [kept_mk, hm.bit 66 rfl, or_true, true_or]
    | split
    | intro _)

theorem execPotUpdateGo_kept {φ : Frame} {l : Lane} {who : Initiator} {value : Word} {s : State} (hm : Sub
    0x40000000000000028 φ.fx) (h1 : s.Kept φ) :
    OutKept φ (execPotUpdateGo l who value s) := by
  unfold execPotUpdateGo
  try dsimp only
  (repeat' first
    | with_reducible assumption
    | with_reducible exact Sub.of hm (by decide)
    | with_reducible apply State.setReg_kept
    | with_reducible apply State.updStart_kept
    | with_reducible apply okBus_kept
    | with_reducible apply State.busErr_kept
    | with_reducible apply kept_ite
    | with_reducible apply kept_foldl
    | with_reducible apply kept_foldl_fst
    | with_reducible apply outKept_next
    | with_reducible apply outKept_ite
    | simp only [kept_mk, true_or]
    | split
    | intro _)

theorem execPotUpdateDone_kept {φ : Frame} {l : Lane} {s : State} (hm : Sub 0x54000000000000118 φ.fx) (h1 : s.Kept φ)
    :
    OutKept φ (execPotUpdateDone l s) := by
  unfold execPotUpdateDone
  try dsimp only
  (repeat' first
    | with_reducible assumption
    | with_reducible exact Sub.of hm (by decide)
    | with_reducible apply State.updDone_kept
    | with_reducible apply kept_ite
    | with_reducible apply kept_foldl
    | with_reducible apply kept_foldl_fst
    | with_reducible apply outKept_next
    | with_reducible apply outKept_ite
    | simp only [kept_mk, true_or]
    | split
    | intro _)

theorem execStraitCopyDone_kept {φ : Frame} {lsn : Nat} {s : State} (hm : Sub 0x94000000000000118 φ.fx) (h1 : s.Kept
    φ) :
    OutKept φ (execStraitCopyDone lsn s) := by
  unfold execStraitCopyDone
  try dsimp only
  (repeat' first
    | with_reducible assumption
    | with_reducible exact Sub.of hm (by decide)
    | with_reducible apply State.done_kept
    | with_reducible apply State.setBytes_kept
    | with_reducible apply kept_ite
    | with_reducible apply kept_foldl
    | with_reducible apply kept_foldl_fst
    | with_reducible apply outKept_next
    | with_reducible apply outKept_ite
    | simp only [kept_mk, hm.bit 67 rfl, or_true, true_or]
    | split
    | intro _)

theorem State.iovBoundary_kept {φ : Frame} {s : State} {l : Lane} (hm : Sub 0xfe004000000400798 φ.fx) (h1 : s.Kept φ)
    :
    State.Kept φ (State.iovBoundary s l) := by
  unfold State.iovBoundary
  try dsimp only
  (repeat' first
    | with_reducible assumption
    | with_reducible exact Sub.of hm (by decide)
    | with_reducible apply State.applyIov_kept
    | with_reducible apply State.updDone_kept
    | with_reducible apply State.vfApply_kept
    | with_reducible apply State.applyLstp_kept
    | with_reducible apply kept_ite
    | with_reducible apply kept_foldl
    | with_reducible apply kept_foldl_fst
    | with_reducible apply outKept_next
    | with_reducible apply outKept_ite
    | simp only [kept_mk, hm.bit 67 rfl, or_true, true_or]
    | split
    | intro _)

theorem State.lstepMismatch_kept {φ : Frame} {s : State} {l : Lane} {pair : Nat} {window : Nat} {injected : Bool} (hm
    : Sub 0x16cfdce0fafc005a0358 φ.fx) (h1 : s.Kept φ) :
    State.Kept φ (State.lstepMismatch s l pair window injected) := by
  unfold State.lstepMismatch
  try dsimp only
  (repeat' first
    | with_reducible assumption
    | with_reducible exact Sub.of hm (by decide)
    | with_reducible apply State.setReg_kept
    | with_reducible apply State.countFld_kept
    | with_reducible apply State.laneReset_kept
    | with_reducible apply kept_ite
    | with_reducible apply kept_foldl
    | with_reducible apply kept_foldl_fst
    | with_reducible apply outKept_next
    | with_reducible apply outKept_ite
    | simp only [kept_mk, true_or]
    | split
    | intro _)

theorem execLockstepMismatch_kept {φ : Frame} {l : Lane} {pair : Nat} {window : Nat} {s : State} (hm : Sub
    0x16cfdce0fafc005a0358 φ.fx) (h1 : s.Kept φ) :
    OutKept φ (execLockstepMismatch l pair window s) := by
  unfold execLockstepMismatch
  try dsimp only
  (repeat' first
    | with_reducible assumption
    | with_reducible exact Sub.of hm (by decide)
    | with_reducible apply State.lstepMismatch_kept
    | with_reducible apply kept_ite
    | with_reducible apply kept_foldl
    | with_reducible apply kept_foldl_fst
    | with_reducible apply outKept_next
    | with_reducible apply outKept_ite
    | simp only [kept_mk, true_or]
    | split
    | intro _)

theorem State.inject_kept {φ : Frame} {s : State} {l : Lane} {pair : Nat} (hm : Sub 0x16cfdce0fafc005a035c φ.fx) (h1 :
    s.Kept φ) :
    State.Kept φ (State.inject s l pair) := by
  unfold State.inject
  try dsimp only
  (repeat' first
    | with_reducible assumption
    | with_reducible exact Sub.of hm (by decide)
    | with_reducible apply State.tickFree_kept
    | with_reducible apply State.lstepMismatch_kept
    | with_reducible apply kept_ite
    | with_reducible apply kept_foldl
    | with_reducible apply kept_foldl_fst
    | with_reducible apply outKept_next
    | with_reducible apply outKept_ite
    | simp only [kept_mk, true_or]
    | split
    | intro _)

theorem execLstpInjectWrite_kept {φ : Frame} {l : Lane} {who : Initiator} {value : Word} {s : State} (hm : Sub
    0x16cfdce0fafc005a037c φ.fx) (h1 : s.Kept φ) :
    OutKept φ (execLstpInjectWrite l who value s) := by
  unfold execLstpInjectWrite
  try dsimp only
  (repeat' first
    | with_reducible assumption
    | with_reducible exact Sub.of hm (by decide)
    | with_reducible apply State.inject_kept
    | with_reducible apply State.busOk_kept
    | with_reducible apply State.busErr_kept
    | with_reducible apply kept_ite
    | with_reducible apply kept_foldl
    | with_reducible apply kept_foldl_fst
    | with_reducible apply outKept_next
    | with_reducible apply outKept_ite
    | simp only [kept_mk, true_or]
    | split
    | intro _)

theorem State.memDo_kept {φ : Frame} {s : State} {a : MemAcc} (hm : Sub 0x30 φ.fx) (h1 : s.Kept φ) :
    State.Kept φ (State.memDo s a) := by
  unfold State.memDo
  try dsimp only
  (repeat' first
    | with_reducible assumption
    | with_reducible exact Sub.of hm (by decide)
    | with_reducible apply State.setBytes_kept
    | with_reducible apply kept_ite
    | with_reducible apply kept_foldl
    | with_reducible apply kept_foldl_fst
    | with_reducible apply outKept_next
    | with_reducible apply outKept_ite
    | simp only [kept_mk, hm.bit 5 rfl, or_true, true_or]
    | split
    | intro _)

theorem State.memPot_kept {φ : Frame} {s : State} {a : MemAcc} {x : PotIx} (hm : Sub 0x17efdce0fafc007a037c φ.fx) (h1
    : s.Kept φ) :
    State.Kept φ (State.memPot s a x) := by
  unfold State.memPot
  try dsimp only
  (repeat' first
    | with_reducible assumption
    | with_reducible exact Sub.of hm (by decide)
    | with_reducible apply State.potDeny_kept
    | with_reducible apply State.memDo_kept
    | with_reducible apply State.busErr_kept
    | with_reducible apply kept_ite
    | with_reducible apply kept_foldl
    | with_reducible apply kept_foldl_fst
    | with_reducible apply outKept_next
    | with_reducible apply outKept_ite
    | simp only [kept_mk, true_or]
    | split
    | intro _)

theorem execMemAccess_kept {φ : Frame} {a : MemAcc} {s : State} (hm : Sub 0x17efdce0fafc007a037c φ.fx) (h1 : s.Kept φ)
    :
    OutKept φ (execMemAccess a s) := by
  unfold execMemAccess
  try dsimp only
  (repeat' first
    | with_reducible assumption
    | with_reducible exact Sub.of hm (by decide)
    | with_reducible apply State.memDo_kept
    | with_reducible apply State.busErr_kept
    | with_reducible apply State.memPot_kept
    | with_reducible apply kept_ite
    | with_reducible apply kept_foldl
    | with_reducible apply kept_foldl_fst
    | with_reducible apply outKept_next
    | with_reducible apply outKept_ite
    | simp only [kept_mk, true_or]
    | split
    | intro _)

theorem State.commitLanes_kept {φ : Frame} {s : State} {ls : List Lane} {block : Nat} {region : Nat} {ws : List
    RegCell} {lsn : Nat} (hm : Sub 0x608 φ.fx) (h1 : s.Kept φ) :
    State.Kept φ (State.commitLanes s ls block region ws lsn) := by
  unfold State.commitLanes
  try dsimp only
  (repeat' first
    | with_reducible assumption
    | with_reducible exact Sub.of hm (by decide)
    | with_reducible apply State.addCommit_kept
    | with_reducible apply State.writeShadows_kept
    | with_reducible apply kept_ite
    | with_reducible apply kept_foldl
    | with_reducible apply kept_foldl_fst
    | with_reducible apply outKept_next
    | with_reducible apply outKept_ite
    | simp only [kept_mk, true_or]
    | split
    | intro _)

theorem specPartStatus_kept {φ : Frame}   :
    CmdSpec.Kept φ (specPartStatus ) := by
  refine ⟨?_, ?_, ?_, ?_⟩ <;> intros <;> dsimp only [specPartStatus] <;>
  (repeat' first
    | with_reducible assumption
    | with_reducible apply kept_ite
    | with_reducible apply kept_foldl
    | with_reducible apply kept_foldl_fst
    | with_reducible apply outKept_next
    | with_reducible apply outKept_ite
    | simp only [kept_mk, true_or]
    | split
    | intro _)

theorem specFuncConfig_kept {φ : Frame}  (hm : Sub 0x608 φ.fx)  :
    CmdSpec.Kept φ (specFuncConfig ) := by
  refine ⟨?_, ?_, ?_, ?_⟩ <;> intros <;> dsimp only [specFuncConfig] <;>
  (repeat' first
    | with_reducible assumption
    | with_reducible exact Sub.of hm (by decide)
    | with_reducible apply State.commitLanes_kept
    | with_reducible apply kept_ite
    | with_reducible apply kept_foldl
    | with_reducible apply kept_foldl_fst
    | with_reducible apply outKept_next
    | with_reducible apply outKept_ite
    | simp only [kept_mk, true_or]
    | split
    | intro _)

theorem specQueueConfig_kept {φ : Frame}  (hm : Sub 0x608 φ.fx)  :
    CmdSpec.Kept φ (specQueueConfig ) := by
  refine ⟨?_, ?_, ?_, ?_⟩ <;> intros <;> dsimp only [specQueueConfig] <;>
  (repeat' first
    | with_reducible assumption
    | with_reducible exact Sub.of hm (by decide)
    | with_reducible apply State.commitLanes_kept
    | with_reducible apply kept_ite
    | with_reducible apply kept_foldl
    | with_reducible apply kept_foldl_fst
    | with_reducible apply outKept_next
    | with_reducible apply outKept_ite
    | simp only [kept_mk, true_or]
    | split
    | intro _)

theorem specReplRegion_kept {φ : Frame}  (hm : Sub 0x40000000000000008 φ.fx)  :
    CmdSpec.Kept φ (specReplRegion ) := by
  refine ⟨?_, ?_, ?_, ?_⟩ <;> intros <;> dsimp only [specReplRegion] <;>
  (repeat' first
    | with_reducible assumption
    | with_reducible exact Sub.of hm (by decide)
    | with_reducible apply State.updStart_kept
    | with_reducible apply kept_ite
    | with_reducible apply kept_foldl
    | with_reducible apply kept_foldl_fst
    | with_reducible apply outKept_next
    | with_reducible apply outKept_ite
    | simp only [kept_mk, true_or]
    | split
    | intro _)

theorem specVf_kept {φ : Frame} {opcode : Nat} {kind : Nat} {st : Nat} (hm : Sub 0x8000000000000000 φ.fx)  :
    CmdSpec.Kept φ (specVf opcode kind st) := by
  refine ⟨?_, ?_, ?_, ?_⟩ <;> intros <;> dsimp only [specVf] <;>
  (repeat' first
    | with_reducible assumption
    | with_reducible exact Sub.of hm (by decide)
    | with_reducible apply kept_ite
    | with_reducible apply kept_foldl
    | with_reducible apply kept_foldl_fst
    | with_reducible apply outKept_next
    | with_reducible apply outKept_ite
    | simp only [kept_mk, hm.bit 63 rfl, or_true, true_or]
    | split
    | intro _)

theorem specVfQuiesce_kept {φ : Frame}  (hm : Sub 0x8000000000000000 φ.fx)  :
    CmdSpec.Kept φ (specVfQuiesce ) := by
  unfold specVfQuiesce
  apply specVf_kept
  exact Sub.of hm (by decide)

theorem specVfReset_kept {φ : Frame}  (hm : Sub 0x8000000000000000 φ.fx)  :
    CmdSpec.Kept φ (specVfReset ) := by
  unfold specVfReset
  apply specVf_kept
  exact Sub.of hm (by decide)

theorem specVfRemove_kept {φ : Frame}  (hm : Sub 0x8000000000000000 φ.fx)  :
    CmdSpec.Kept φ (specVfRemove ) := by
  unfold specVfRemove
  apply specVf_kept
  exact Sub.of hm (by decide)

theorem specExpertGrant_kept {φ : Frame}  (hm : Sub 0x14000000000000108 φ.fx)  :
    CmdSpec.Kept φ (specExpertGrant ) := by
  refine ⟨?_, ?_, ?_, ?_⟩ <;> intros <;> dsimp only [specExpertGrant] <;>
  (repeat' first
    | with_reducible assumption
    | with_reducible exact Sub.of hm (by decide)
    | with_reducible apply State.settleGrants_kept
    | with_reducible apply State.done_kept
    | with_reducible apply kept_ite
    | with_reducible apply kept_foldl
    | with_reducible apply kept_foldl_fst
    | with_reducible apply outKept_next
    | with_reducible apply outKept_ite
    | simp only [kept_mk, hm.bit 62 rfl, or_true, true_or]
    | split
    | intro _)

theorem specExpertRelease_kept {φ : Frame}  (hm : Sub 0x14000000000000108 φ.fx)  :
    CmdSpec.Kept φ (specExpertRelease ) := by
  refine ⟨?_, ?_, ?_, ?_⟩ <;> intros <;> dsimp only [specExpertRelease] <;>
  (repeat' first
    | with_reducible assumption
    | with_reducible exact Sub.of hm (by decide)
    | with_reducible apply State.done_kept
    | with_reducible apply State.endGrants_kept
    | with_reducible apply kept_ite
    | with_reducible apply kept_foldl
    | with_reducible apply kept_foldl_fst
    | with_reducible apply outKept_next
    | with_reducible apply outKept_ite
    | simp only [kept_mk, true_or]
    | split
    | intro _)

theorem specDirtySwap_kept {φ : Frame}  (hm : Sub 0x14000000000000108 φ.fx)  :
    CmdSpec.Kept φ (specDirtySwap ) := by
  refine ⟨?_, ?_, ?_, ?_⟩ <;> intros <;> dsimp only [specDirtySwap] <;>
  (repeat' first
    | with_reducible assumption
    | with_reducible exact Sub.of hm (by decide)
    | with_reducible apply State.setBitF_kept
    | with_reducible apply State.done_kept
    | with_reducible apply kept_ite
    | with_reducible apply kept_foldl
    | with_reducible apply kept_foldl_fst
    | with_reducible apply outKept_next
    | with_reducible apply outKept_ite
    | simp only [kept_mk, true_or]
    | split
    | intro _)

theorem specPageOwner_kept {φ : Frame}  (hm : Sub 0x40000000000000008 φ.fx)  :
    CmdSpec.Kept φ (specPageOwner ) := by
  refine ⟨?_, ?_, ?_, ?_⟩ <;> intros <;> dsimp only [specPageOwner] <;>
  (repeat' first
    | with_reducible assumption
    | with_reducible exact Sub.of hm (by decide)
    | with_reducible apply State.updStart_kept
    | with_reducible apply kept_ite
    | with_reducible apply kept_foldl
    | with_reducible apply kept_foldl_fst
    | with_reducible apply outKept_next
    | with_reducible apply outKept_ite
    | simp only [kept_mk, true_or]
    | split
    | intro _)

theorem specPairAssign_kept {φ : Frame}  (hm : Sub 0x608 φ.fx)  :
    CmdSpec.Kept φ (specPairAssign ) := by
  refine ⟨?_, ?_, ?_, ?_⟩ <;> intros <;> dsimp only [specPairAssign] <;>
  (repeat' first
    | with_reducible assumption
    | with_reducible exact Sub.of hm (by decide)
    | with_reducible apply State.commitLanes_kept
    | with_reducible apply kept_ite
    | with_reducible apply kept_foldl
    | with_reducible apply kept_foldl_fst
    | with_reducible apply outKept_next
    | with_reducible apply outKept_ite
    | simp only [kept_mk, true_or]
    | split
    | intro _)

theorem specLstepStatus_kept {φ : Frame}   :
    CmdSpec.Kept φ (specLstepStatus ) := by
  refine ⟨?_, ?_, ?_, ?_⟩ <;> intros <;> dsimp only [specLstepStatus] <;>
  (repeat' first
    | with_reducible assumption
    | with_reducible apply kept_ite
    | with_reducible apply kept_foldl
    | with_reducible apply kept_foldl_fst
    | with_reducible apply outKept_next
    | with_reducible apply outKept_ite
    | simp only [kept_mk, true_or]
    | split
    | intro _)

theorem specLstepTest_kept {φ : Frame}  (hm : Sub 0x16dfdce0fafc005a035c φ.fx)  :
    CmdSpec.Kept φ (specLstepTest ) := by
  refine ⟨?_, ?_, ?_, ?_⟩ <;> intros <;> dsimp only [specLstepTest] <;>
  (repeat' first
    | with_reducible assumption
    | with_reducible exact Sub.of hm (by decide)
    | with_reducible apply State.inject_kept
    | with_reducible apply kept_ite
    | with_reducible apply kept_foldl
    | with_reducible apply kept_foldl_fst
    | with_reducible apply outKept_next
    | with_reducible apply outKept_ite
    | simp only [kept_mk, hm.bit 68 rfl, or_true, true_or]
    | split
    | intro _)

theorem specStraitCopy_kept {φ : Frame}  (hm : Sub 0x80000000000000000 φ.fx)  :
    CmdSpec.Kept φ (specStraitCopy ) := by
  refine ⟨?_, ?_, ?_, ?_⟩ <;> intros <;> dsimp only [specStraitCopy] <;>
  (repeat' first
    | with_reducible assumption
    | with_reducible exact Sub.of hm (by decide)
    | with_reducible apply kept_ite
    | with_reducible apply kept_foldl
    | with_reducible apply kept_foldl_fst
    | with_reducible apply outKept_next
    | with_reducible apply outKept_ite
    | simp only [kept_mk, hm.bit 67 rfl, or_true, true_or]
    | split
    | intro _)

theorem execPartStatus_kept {φ : Frame} {r : Req} {s : State} (hm : Sub 0x17efdce0fafc007a03dc φ.fx) (h1 : s.Kept φ) :
    OutKept φ (execPartStatus r s) := by
  unfold execPartStatus
  try dsimp only
  (repeat' first
    | with_reducible assumption
    | with_reducible exact Sub.of hm (by decide)
    | with_reducible apply specPartStatus_kept
    | with_reducible apply runScs_kept
    | with_reducible apply kept_ite
    | with_reducible apply kept_foldl
    | with_reducible apply kept_foldl_fst
    | with_reducible apply outKept_next
    | with_reducible apply outKept_ite
    | simp only [kept_mk, true_or]
    | split
    | intro _)

theorem execFuncConfig_kept {φ : Frame} {r : Req} {s : State} (hm : Sub 0x17efdce0fafc007a07dc φ.fx) (h1 : s.Kept φ) :
    OutKept φ (execFuncConfig r s) := by
  unfold execFuncConfig
  try dsimp only
  (repeat' first
    | with_reducible assumption
    | with_reducible exact Sub.of hm (by decide)
    | with_reducible apply specFuncConfig_kept
    | with_reducible apply runScs_kept
    | with_reducible apply kept_ite
    | with_reducible apply kept_foldl
    | with_reducible apply kept_foldl_fst
    | with_reducible apply outKept_next
    | with_reducible apply outKept_ite
    | simp only [kept_mk, true_or]
    | split
    | intro _)

theorem execQueueConfig_kept {φ : Frame} {r : Req} {s : State} (hm : Sub 0x17efdce0fafc007a07dc φ.fx) (h1 : s.Kept φ)
    :
    OutKept φ (execQueueConfig r s) := by
  unfold execQueueConfig
  try dsimp only
  (repeat' first
    | with_reducible assumption
    | with_reducible exact Sub.of hm (by decide)
    | with_reducible apply specQueueConfig_kept
    | with_reducible apply runScs_kept
    | with_reducible apply kept_ite
    | with_reducible apply kept_foldl
    | with_reducible apply kept_foldl_fst
    | with_reducible apply outKept_next
    | with_reducible apply outKept_ite
    | simp only [kept_mk, true_or]
    | split
    | intro _)

theorem execReplRegion_kept {φ : Frame} {r : Req} {s : State} (hm : Sub 0x17efdce0fafc007a03dc φ.fx) (h1 : s.Kept φ) :
    OutKept φ (execReplRegion r s) := by
  unfold execReplRegion
  try dsimp only
  (repeat' first
    | with_reducible assumption
    | with_reducible exact Sub.of hm (by decide)
    | with_reducible apply specReplRegion_kept
    | with_reducible apply runScs_kept
    | with_reducible apply kept_ite
    | with_reducible apply kept_foldl
    | with_reducible apply kept_foldl_fst
    | with_reducible apply outKept_next
    | with_reducible apply outKept_ite
    | simp only [kept_mk, true_or]
    | split
    | intro _)

theorem execVfQuiesce_kept {φ : Frame} {r : Req} {s : State} (hm : Sub 0x17efdce0fafc007a03dc φ.fx) (h1 : s.Kept φ) :
    OutKept φ (execVfQuiesce r s) := by
  unfold execVfQuiesce
  try dsimp only
  (repeat' first
    | with_reducible assumption
    | with_reducible exact Sub.of hm (by decide)
    | with_reducible apply specVfQuiesce_kept
    | with_reducible apply runScs_kept
    | with_reducible apply kept_ite
    | with_reducible apply kept_foldl
    | with_reducible apply kept_foldl_fst
    | with_reducible apply outKept_next
    | with_reducible apply outKept_ite
    | simp only [kept_mk, true_or]
    | split
    | intro _)

theorem execVfReset_kept {φ : Frame} {r : Req} {s : State} (hm : Sub 0x17efdce0fafc007a03dc φ.fx) (h1 : s.Kept φ) :
    OutKept φ (execVfReset r s) := by
  unfold execVfReset
  try dsimp only
  (repeat' first
    | with_reducible assumption
    | with_reducible exact Sub.of hm (by decide)
    | with_reducible apply runScs_kept
    | with_reducible apply specVfReset_kept
    | with_reducible apply kept_ite
    | with_reducible apply kept_foldl
    | with_reducible apply kept_foldl_fst
    | with_reducible apply outKept_next
    | with_reducible apply outKept_ite
    | simp only [kept_mk, true_or]
    | split
    | intro _)

theorem execVfRemove_kept {φ : Frame} {r : Req} {s : State} (hm : Sub 0x17efdce0fafc007a03dc φ.fx) (h1 : s.Kept φ) :
    OutKept φ (execVfRemove r s) := by
  unfold execVfRemove
  try dsimp only
  (repeat' first
    | with_reducible assumption
    | with_reducible exact Sub.of hm (by decide)
    | with_reducible apply specVfRemove_kept
    | with_reducible apply runScs_kept
    | with_reducible apply kept_ite
    | with_reducible apply kept_foldl
    | with_reducible apply kept_foldl_fst
    | with_reducible apply outKept_next
    | with_reducible apply outKept_ite
    | simp only [kept_mk, true_or]
    | split
    | intro _)

theorem execExpertGrant_kept {φ : Frame} {r : Req} {s : State} (hm : Sub 0x17efdce0fafc007a03dc φ.fx) (h1 : s.Kept φ)
    :
    OutKept φ (execExpertGrant r s) := by
  unfold execExpertGrant
  try dsimp only
  (repeat' first
    | with_reducible assumption
    | with_reducible exact Sub.of hm (by decide)
    | with_reducible apply specExpertGrant_kept
    | with_reducible apply runScs_kept
    | with_reducible apply kept_ite
    | with_reducible apply kept_foldl
    | with_reducible apply kept_foldl_fst
    | with_reducible apply outKept_next
    | with_reducible apply outKept_ite
    | simp only [kept_mk, true_or]
    | split
    | intro _)

theorem execExpertRelease_kept {φ : Frame} {r : Req} {s : State} (hm : Sub 0x17efdce0fafc007a03dc φ.fx) (h1 : s.Kept
    φ) :
    OutKept φ (execExpertRelease r s) := by
  unfold execExpertRelease
  try dsimp only
  (repeat' first
    | with_reducible assumption
    | with_reducible exact Sub.of hm (by decide)
    | with_reducible apply specExpertRelease_kept
    | with_reducible apply runScs_kept
    | with_reducible apply kept_ite
    | with_reducible apply kept_foldl
    | with_reducible apply kept_foldl_fst
    | with_reducible apply outKept_next
    | with_reducible apply outKept_ite
    | simp only [kept_mk, true_or]
    | split
    | intro _)

theorem execDirtySwap_kept {φ : Frame} {r : Req} {s : State} (hm : Sub 0x17efdce0fafc007a03dc φ.fx) (h1 : s.Kept φ) :
    OutKept φ (execDirtySwap r s) := by
  unfold execDirtySwap
  try dsimp only
  (repeat' first
    | with_reducible assumption
    | with_reducible exact Sub.of hm (by decide)
    | with_reducible apply runScs_kept
    | with_reducible apply specDirtySwap_kept
    | with_reducible apply kept_ite
    | with_reducible apply kept_foldl
    | with_reducible apply kept_foldl_fst
    | with_reducible apply outKept_next
    | with_reducible apply outKept_ite
    | simp only [kept_mk, true_or]
    | split
    | intro _)

theorem execPageOwner_kept {φ : Frame} {r : Req} {s : State} (hm : Sub 0x17efdce0fafc007a03dc φ.fx) (h1 : s.Kept φ) :
    OutKept φ (execPageOwner r s) := by
  unfold execPageOwner
  try dsimp only
  (repeat' first
    | with_reducible assumption
    | with_reducible exact Sub.of hm (by decide)
    | with_reducible apply runScs_kept
    | with_reducible apply specPageOwner_kept
    | with_reducible apply kept_ite
    | with_reducible apply kept_foldl
    | with_reducible apply kept_foldl_fst
    | with_reducible apply outKept_next
    | with_reducible apply outKept_ite
    | simp only [kept_mk, true_or]
    | split
    | intro _)

theorem execPairAssign_kept {φ : Frame} {r : Req} {s : State} (hm : Sub 0x17efdce0fafc007a07dc φ.fx) (h1 : s.Kept φ) :
    OutKept φ (execPairAssign r s) := by
  unfold execPairAssign
  try dsimp only
  (repeat' first
    | with_reducible assumption
    | with_reducible exact Sub.of hm (by decide)
    | with_reducible apply specPairAssign_kept
    | with_reducible apply runScs_kept
    | with_reducible apply kept_ite
    | with_reducible apply kept_foldl
    | with_reducible apply kept_foldl_fst
    | with_reducible apply outKept_next
    | with_reducible apply outKept_ite
    | simp only [kept_mk, true_or]
    | split
    | intro _)

theorem execLstepStatus_kept {φ : Frame} {r : Req} {s : State} (hm : Sub 0x17efdce0fafc007a03dc φ.fx) (h1 : s.Kept φ)
    :
    OutKept φ (execLstepStatus r s) := by
  unfold execLstepStatus
  try dsimp only
  (repeat' first
    | with_reducible assumption
    | with_reducible exact Sub.of hm (by decide)
    | with_reducible apply specLstepStatus_kept
    | with_reducible apply runScs_kept
    | with_reducible apply kept_ite
    | with_reducible apply kept_foldl
    | with_reducible apply kept_foldl_fst
    | with_reducible apply outKept_next
    | with_reducible apply outKept_ite
    | simp only [kept_mk, true_or]
    | split
    | intro _)

theorem execLstepTest_kept {φ : Frame} {r : Req} {s : State} (hm : Sub 0x17ffdce0fafc007a03dc φ.fx) (h1 : s.Kept φ) :
    OutKept φ (execLstepTest r s) := by
  unfold execLstepTest
  try dsimp only
  (repeat' first
    | with_reducible assumption
    | with_reducible exact Sub.of hm (by decide)
    | with_reducible apply specLstepTest_kept
    | with_reducible apply runScs_kept
    | with_reducible apply kept_ite
    | with_reducible apply kept_foldl
    | with_reducible apply kept_foldl_fst
    | with_reducible apply outKept_next
    | with_reducible apply outKept_ite
    | simp only [kept_mk, true_or]
    | split
    | intro _)

theorem execStraitCopy_kept {φ : Frame} {r : Req} {s : State} (hm : Sub 0x17efdce0fafc007a03dc φ.fx) (h1 : s.Kept φ) :
    OutKept φ (execStraitCopy r s) := by
  unfold execStraitCopy
  try dsimp only
  (repeat' first
    | with_reducible assumption
    | with_reducible exact Sub.of hm (by decide)
    | with_reducible apply runScs_kept
    | with_reducible apply specStraitCopy_kept
    | with_reducible apply kept_ite
    | with_reducible apply kept_foldl
    | with_reducible apply kept_foldl_fst
    | with_reducible apply outKept_next
    | with_reducible apply outKept_ite
    | simp only [kept_mk, true_or]
    | split
    | intro _)

end Sys2Proof.Machine
end

