-- ==== Sys2Proof/Laws/KeptLhs.lean ====
section
/-! SUPPORT. The operations of Lhs.lean keep the invariant, the queue and the time. -/

namespace Sys2Proof.Machine

theorem State.useNonce_kept {φ : Frame} {s : State} {r : Req} (hm : Sub 0xc00000000000000000 φ.fx) (h1 : s.Kept φ) :
    State.Kept φ (State.useNonce s r) := by
  unfold State.useNonce
  try dsimp only
  (repeat' first
    | with_reducible assumption
    | with_reducible exact Sub.of hm (by decide)
    | with_reducible apply State.setSec_kept
    | with_reducible apply kept_ite
    | with_reducible apply kept_foldl
    | with_reducible apply kept_foldl_fst
    | with_reducible apply outKept_next
    | with_reducible apply outKept_ite
    | simp only [kept_mk, true_or]
    | split
    | intro _)

theorem noteToken_kept {φ : Frame} {s : State} {a1 : Req} {st : Nat} (hm : Sub 0x17efdce0fafc007a035c φ.fx) (h1 :
    s.Kept φ) :
    State.Kept φ (noteToken s a1 st) := by
  unfold noteToken
  try dsimp only
  (repeat' first
    | with_reducible assumption
    | with_reducible exact Sub.of hm (by decide)
    | with_reducible apply State.authFail_kept
    | with_reducible apply kept_ite
    | with_reducible apply kept_foldl
    | with_reducible apply kept_foldl_fst
    | with_reducible apply outKept_next
    | with_reducible apply outKept_ite
    | simp only [kept_mk, true_or]
    | split
    | intro _)

theorem State.burnLc_kept {φ : Frame} {s : State} {dest : Nat} (hm : Sub 0x1c14020000000600108 φ.fx) (h1 : s.Kept φ) :
    State.Kept φ (State.burnLc s dest) := by
  unfold State.burnLc
  try dsimp only
  (repeat' first
    | with_reducible assumption
    | with_reducible exact Sub.of hm (by decide)
    | with_reducible apply State.beforeErase_kept
    | with_reducible apply State.clearKey_kept
    | with_reducible apply State.setFld_kept
    | with_reducible apply State.setSec_kept
    | with_reducible apply State.setBitF_kept
    | with_reducible apply State.forEach_kept
    | with_reducible apply State.eraseAll_kept
    | with_reducible apply kept_ite
    | with_reducible apply kept_foldl
    | with_reducible apply kept_foldl_fst
    | with_reducible apply outKept_next
    | with_reducible apply outKept_ite
    | simp only [kept_mk, true_or]
    | split
    | intro _)

theorem State.burnSvn_kept {φ : Frame} {s : State} {k : Nat} {v : Nat} (hm : Sub 0x8 φ.fx) (h1 : s.Kept φ) :
    State.Kept φ (State.burnSvn s k v) := by
  unfold State.burnSvn
  try dsimp only
  (repeat' first
    | with_reducible assumption
    | with_reducible exact Sub.of hm (by decide)
    | with_reducible apply State.setFld_kept
    | with_reducible apply kept_ite
    | with_reducible apply kept_foldl
    | with_reducible apply kept_foldl_fst
    | with_reducible apply outKept_next
    | with_reducible apply outKept_ite
    | simp only [kept_mk, true_or]
    | split
    | intro _)

theorem State.burn_kept {φ : Frame} {s : State} {b : Burn} (hm : Sub 0x1c14020000000600108 φ.fx) (h1 : s.Kept φ) :
    State.Kept φ (State.burn s b) := by
  unfold State.burn
  try dsimp only
  (repeat' first
    | with_reducible assumption
    | with_reducible exact Sub.of hm (by decide)
    | with_reducible apply State.burnLc_kept
    | with_reducible apply State.setSec_kept
    | with_reducible apply State.setBitF_kept
    | with_reducible apply State.burnSvn_kept
    | with_reducible apply kept_ite
    | with_reducible apply kept_foldl
    | with_reducible apply kept_foldl_fst
    | with_reducible apply outKept_next
    | with_reducible apply outKept_ite
    | simp only [kept_mk, true_or]
    | split
    | intro _)

theorem State.confirmed_kept {φ : Frame} {s : State} (hm : Sub 0x10000000000000000008 φ.fx) (h1 : s.Kept φ) :
    State.Kept φ (State.confirmed s) := by
  unfold State.confirmed
  try dsimp only
  (repeat' first
    | with_reducible assumption
    | with_reducible exact Sub.of hm (by decide)
    | with_reducible apply State.countBoth_kept
    | with_reducible apply State.setUpdSt_kept
    | with_reducible apply State.setFldBoth_kept
    | with_reducible apply kept_ite
    | with_reducible apply kept_foldl
    | with_reducible apply kept_foldl_fst
    | with_reducible apply outKept_next
    | with_reducible apply outKept_ite
    | simp only [kept_mk, true_or]
    | split
    | intro _)

theorem execFuseBurnDone_kept {φ : Frame} {lsn : Nat} {ok : Bool} {s : State} (hm : Sub 0x19c14020000000600108 φ.fx)
    (h1 : s.Kept φ) :
    OutKept φ (execFuseBurnDone lsn ok s) := by
  unfold execFuseBurnDone
  try dsimp only
  (repeat' first
    | with_reducible assumption
    | with_reducible exact Sub.of hm (by decide)
    | with_reducible apply State.confirmed_kept
    | with_reducible apply State.failed_kept
    | with_reducible apply State.done_kept
    | with_reducible apply State.burn_kept
    | with_reducible apply kept_ite
    | with_reducible apply kept_foldl
    | with_reducible apply kept_foldl_fst
    | with_reducible apply outKept_next
    | with_reducible apply outKept_ite
    | simp only [kept_mk, hm.bit 75 rfl, or_true, true_or]
    | split
    | intro _)

theorem State.lcRepair_kept {φ : Frame} {s : State} {l : Lane} (hm : Sub 0xc00000000000000008 φ.fx) (h1 : s.Kept φ) :
    State.Kept φ (State.lcRepair s l) := by
  unfold State.lcRepair
  try dsimp only
  (repeat' first
    | with_reducible assumption
    | with_reducible exact Sub.of hm (by decide)
    | with_reducible apply State.setFld_kept
    | with_reducible apply State.setSec_kept
    | with_reducible apply State.setBitF_kept
    | with_reducible apply kept_ite
    | with_reducible apply kept_foldl
    | with_reducible apply kept_foldl_fst
    | with_reducible apply outKept_next
    | with_reducible apply outKept_ite
    | simp only [kept_mk, true_or]
    | split
    | intro _)

theorem State.loadKeys_kept {φ : Frame} {s : State} {l : Lane} {lost : List Nat} (hm : Sub 0xc0000000000000000c φ.fx)
    (h1 : s.Kept φ) :
    State.Kept φ (State.loadKeys s l lost) := by
  unfold State.loadKeys
  try dsimp only
  (repeat' first
    | with_reducible assumption
    | with_reducible exact Sub.of hm (by decide)
    | with_reducible apply State.setReg_kept
    | with_reducible apply State.clearKey_kept
    | with_reducible apply State.setBitF_kept
    | with_reducible apply State.tickFree_kept
    | with_reducible apply kept_ite
    | with_reducible apply kept_foldl
    | with_reducible apply kept_foldl_fst
    | with_reducible apply outKept_next
    | with_reducible apply outKept_ite
    | simp only [kept_mk, true_or]
    | split
    | intro _)

theorem State.setLaneBank_kept {φ : Frame} {s : State} {l : Lane} {b : Nat} {x : BankRt} (hm : Sub
    0xc00000000000000000 φ.fx) (h1 : s.Kept φ) :
    State.Kept φ (State.setLaneBank s l b x) := by
  unfold State.setLaneBank
  try dsimp only
  (repeat' first
    | with_reducible assumption
    | with_reducible exact Sub.of hm (by decide)
    | with_reducible apply State.setSec_kept
    | with_reducible apply kept_ite
    | with_reducible apply kept_foldl
    | with_reducible apply kept_foldl_fst
    | with_reducible apply outKept_next
    | with_reducible apply outKept_ite
    | simp only [kept_mk, true_or]
    | split
    | intro _)

theorem State.setActive_kept {φ : Frame} {s : State} {l : Lane} {b : Nat} (hm : Sub 0xc00000000000000008 φ.fx) (h1 :
    s.Kept φ) :
    State.Kept φ (State.setActive s l b) := by
  unfold State.setActive
  try dsimp only
  (repeat' first
    | with_reducible assumption
    | with_reducible exact Sub.of hm (by decide)
    | with_reducible apply State.setFld_kept
    | with_reducible apply State.setSec_kept
    | with_reducible apply kept_ite
    | with_reducible apply kept_foldl
    | with_reducible apply kept_foldl_fst
    | with_reducible apply outKept_next
    | with_reducible apply outKept_ite
    | simp only [kept_mk, true_or]
    | split
    | intro _)

theorem execKeyStoreOpDone_kept {φ : Frame} {s : State} (hm : Sub 0x1c14020000000600108 φ.fx) (h1 : s.Kept φ) :
    OutKept φ (execKeyStoreOpDone s) := by
  unfold execKeyStoreOpDone
  try dsimp only
  (repeat' first
    | with_reducible assumption
    | with_reducible exact Sub.of hm (by decide)
    | with_reducible apply State.putKey_kept
    | with_reducible apply State.done_kept
    | with_reducible apply State.failWrites_kept
    | with_reducible apply State.eraseKey_kept
    | with_reducible apply State.forEach_kept
    | with_reducible apply kept_ite
    | with_reducible apply kept_foldl
    | with_reducible apply kept_foldl_fst
    | with_reducible apply outKept_next
    | with_reducible apply outKept_ite
    | simp only [kept_mk, hm.bit 72 rfl, or_true, true_or]
    | split
    | intro _)

theorem State.commitLhs_kept {φ : Frame} {s : State} {l : Lane} {ws : List RegCell} {lsns : List Nat} (hm : Sub 0x600
    φ.fx) (h1 : s.Kept φ) :
    State.Kept φ (State.commitLhs s l ws lsns) := by
  unfold State.commitLhs
  try dsimp only
  (repeat' first
    | with_reducible assumption
    | with_reducible exact Sub.of hm (by decide)
    | with_reducible apply State.addCommit_kept
    | with_reducible apply State.forEach_kept
    | with_reducible apply kept_ite
    | with_reducible apply kept_foldl
    | with_reducible apply kept_foldl_fst
    | with_reducible apply outKept_next
    | with_reducible apply outKept_ite
    | simp only [kept_mk, true_or]
    | split
    | intro _)

theorem State.commitLhsBoth_kept {φ : Frame} {s : State} {ws : List RegCell} {lsn : Nat} (hm : Sub 0x608 φ.fx) (h1 :
    s.Kept φ) :
    State.Kept φ (State.commitLhsBoth s ws lsn) := by
  unfold State.commitLhsBoth
  try dsimp only
  (repeat' first
    | with_reducible assumption
    | with_reducible exact Sub.of hm (by decide)
    | with_reducible apply State.commitLhs_kept
    | with_reducible apply State.writeShadows_kept
    | with_reducible apply kept_ite
    | with_reducible apply kept_foldl
    | with_reducible apply kept_foldl_fst
    | with_reducible apply outKept_next
    | with_reducible apply outKept_ite
    | simp only [kept_mk, true_or]
    | split
    | intro _)

theorem State.applyAttr_kept {φ : Frame} {s : State} {c : Commit} (hm : Sub 0x14000000000000708 φ.fx) (h1 : s.Kept φ)
    :
    State.Kept φ (State.applyAttr s c) := by
  unfold State.applyAttr
  try dsimp only
  (repeat' first
    | with_reducible assumption
    | with_reducible exact Sub.of hm (by decide)
    | with_reducible apply State.dropCommit_kept
    | with_reducible apply State.setReg_kept
    | with_reducible apply State.setNum_kept
    | with_reducible apply State.settleAll_kept
    | with_reducible apply kept_ite
    | with_reducible apply kept_foldl
    | with_reducible apply kept_foldl_fst
    | with_reducible apply outKept_next
    | with_reducible apply outKept_ite
    | simp only [kept_mk, true_or]
    | split
    | intro _)

theorem State.attrFrame_kept {φ : Frame} {s : State} {d : Die} (hm : Sub 0x14000000000000708 φ.fx) (h1 : s.Kept φ) :
    State.Kept φ (State.attrFrame s d) := by
  unfold State.attrFrame
  try dsimp only
  (repeat' first
    | with_reducible assumption
    | with_reducible exact Sub.of hm (by decide)
    | with_reducible apply State.applyAttr_kept
    | with_reducible apply kept_ite
    | with_reducible apply kept_foldl
    | with_reducible apply kept_foldl_fst
    | with_reducible apply outKept_next
    | with_reducible apply outKept_ite
    | simp only [kept_mk, true_or]
    | split
    | intro _)

theorem State.applyLhs_kept {φ : Frame} {s : State} {c : Commit} (hm : Sub 0x14000000000000708 φ.fx) (h1 : s.Kept φ) :
    State.Kept φ (State.applyLhs s c) := by
  unfold State.applyLhs
  try dsimp only
  (repeat' first
    | with_reducible assumption
    | with_reducible exact Sub.of hm (by decide)
    | with_reducible apply State.applyCommit_kept
    | with_reducible apply kept_ite
    | with_reducible apply kept_foldl
    | with_reducible apply kept_foldl_fst
    | with_reducible apply outKept_next
    | with_reducible apply outKept_ite
    | simp only [kept_mk, true_or]
    | split
    | intro _)

theorem State.setOwner_kept {φ : Frame} {s : State} {l : Lane} {t : Nat} {secure : Bool} (hm : Sub 0x8 φ.fx) (h1 :
    s.Kept φ) :
    State.Kept φ (State.setOwner s l t secure) := by
  unfold State.setOwner
  try dsimp only
  (repeat' first
    | with_reducible assumption
    | with_reducible exact Sub.of hm (by decide)
    | with_reducible apply State.setReg_kept
    | with_reducible apply State.setShadow_kept
    | with_reducible apply kept_ite
    | with_reducible apply kept_foldl
    | with_reducible apply kept_foldl_fst
    | with_reducible apply outKept_next
    | with_reducible apply outKept_ite
    | simp only [kept_mk, true_or]
    | split
    | intro _)

theorem State.pmAct_kept {φ : Frame} {s : State} {l : Lane} {t : Nat} {action : Nat} (hm : Sub 0xc00000000000000008
    φ.fx) (h1 : s.Kept φ) :
    State.Kept φ (State.pmAct s l t action) := by
  unfold State.pmAct
  try dsimp only
  (repeat' first
    | with_reducible assumption
    | with_reducible exact Sub.of hm (by decide)
    | with_reducible apply State.setSec_kept
    | with_reducible apply State.syncPairs_kept
    | with_reducible apply kept_ite
    | with_reducible apply kept_foldl
    | with_reducible apply kept_foldl_fst
    | with_reducible apply outKept_next
    | with_reducible apply outKept_ite
    | simp only [kept_mk, true_or]
    | split
    | intro _)

theorem State.syncPend_kept {φ : Frame} {s : State} {l : Lane} (hm : Sub 0x8 φ.fx) (h1 : s.Kept φ) :
    State.Kept φ (State.syncPend s l) := by
  unfold State.syncPend
  try dsimp only
  (repeat' first
    | with_reducible assumption
    | with_reducible exact Sub.of hm (by decide)
    | with_reducible apply State.setBitF_kept
    | with_reducible apply kept_ite
    | with_reducible apply kept_foldl
    | with_reducible apply kept_foldl_fst
    | with_reducible apply outKept_next
    | with_reducible apply outKept_ite
    | simp only [kept_mk, true_or]
    | split
    | intro _)

theorem State.endIf_kept {φ : Frame} {s : State} {lsn : Nat} (hm : Sub 0x14000000000000108 φ.fx) (h1 : s.Kept φ) :
    State.Kept φ (State.endIf s lsn) := by
  unfold State.endIf
  try dsimp only
  (repeat' first
    | with_reducible assumption
    | with_reducible exact Sub.of hm (by decide)
    | with_reducible apply State.done_kept
    | with_reducible apply kept_ite
    | with_reducible apply kept_foldl
    | with_reducible apply kept_foldl_fst
    | with_reducible apply outKept_next
    | with_reducible apply outKept_ite
    | simp only [kept_mk, true_or]
    | split
    | intro _)

theorem State.ownApply_kept {φ : Frame} {s : State} {o : OwnOp} (hm : Sub 0x4c14000000000000108 φ.fx) (h1 : s.Kept φ)
    :
    State.Kept φ (State.ownApply s o) := by
  unfold State.ownApply
  try dsimp only
  (repeat' first
    | with_reducible assumption
    | with_reducible exact Sub.of hm (by decide)
    | with_reducible apply State.pmAct_kept
    | with_reducible apply State.endIf_kept
    | with_reducible apply State.setOwner_kept
    | with_reducible apply kept_ite
    | with_reducible apply kept_foldl
    | with_reducible apply kept_foldl_fst
    | with_reducible apply outKept_next
    | with_reducible apply outKept_ite
    | simp only [kept_mk, hm.bit 74 rfl, or_true, true_or]
    | split
    | intro _)

theorem State.pmApply_kept {φ : Frame} {s : State} {q : PmReq} (hm : Sub 0x17efdce0fafc007a035c φ.fx) (h1 : s.Kept φ)
    :
    State.Kept φ (State.pmApply s q) := by
  unfold State.pmApply
  try dsimp only
  (repeat' first
    | with_reducible assumption
    | with_reducible exact Sub.of hm (by decide)
    | with_reducible apply State.pmAct_kept
    | with_reducible apply State.endIf_kept
    | with_reducible apply State.policy_kept
    | with_reducible apply State.syncPend_kept
    | with_reducible apply State.failed_kept
    | with_reducible apply kept_ite
    | with_reducible apply kept_foldl
    | with_reducible apply kept_foldl_fst
    | with_reducible apply outKept_next
    | with_reducible apply outKept_ite
    | simp only [kept_mk, hm.bit 73 rfl, or_true, true_or]
    | split
    | intro _)

theorem State.lhsBoundary_kept {φ : Frame} {s : State} {l : Lane} (hm : Sub 0x17efdce0fafc007a075c φ.fx) (h1 : s.Kept
    φ) :
    State.Kept φ (State.lhsBoundary s l) := by
  unfold State.lhsBoundary
  try dsimp only
  (repeat' first
    | with_reducible assumption
    | with_reducible exact Sub.of hm (by decide)
    | with_reducible apply State.pmApply_kept
    | with_reducible apply State.ownApply_kept
    | with_reducible apply State.applyLhs_kept
    | with_reducible apply kept_ite
    | with_reducible apply kept_foldl
    | with_reducible apply kept_foldl_fst
    | with_reducible apply outKept_next
    | with_reducible apply outKept_ite
    | simp only [kept_mk, true_or]
    | split
    | intro _)

theorem execOwnerReleaseDone_kept {φ : Frame} {l : Lane} {target : Nat} {s : State} (hm : Sub 0x4000000000000000000
    φ.fx) (h1 : s.Kept φ) :
    OutKept φ (execOwnerReleaseDone l target s) := by
  unfold execOwnerReleaseDone
  try dsimp only
  (repeat' first
    | with_reducible assumption
    | with_reducible exact Sub.of hm (by decide)
    | with_reducible apply kept_ite
    | with_reducible apply kept_foldl
    | with_reducible apply kept_foldl_fst
    | with_reducible apply outKept_next
    | with_reducible apply outKept_ite
    | simp only [kept_mk, hm.bit 74 rfl, or_true, true_or]
    | split
    | intro _)

theorem State.pmWait_kept {φ : Frame} {s : State} {q : PmReq} (hm : Sub 0x2000000000000000000 φ.fx) (h1 : s.Kept φ) :
    State.Kept φ (State.pmWait s q) := by
  unfold State.pmWait
  try dsimp only
  (repeat' first
    | with_reducible assumption
    | with_reducible exact Sub.of hm (by decide)
    | with_reducible apply kept_ite
    | with_reducible apply kept_foldl
    | with_reducible apply kept_foldl_fst
    | with_reducible apply outKept_next
    | with_reducible apply outKept_ite
    | simp only [kept_mk, hm.bit 73 rfl, or_true, true_or]
    | split
    | intro _)

theorem execLhsPmreqWrite_kept {φ : Frame} {l : Lane} {who : Initiator} {value : Word} {s : State} (hm : Sub
    0x17efdce0fafc007a037c φ.fx) (h1 : s.Kept φ) :
    OutKept φ (execLhsPmreqWrite l who value s) := by
  unfold execLhsPmreqWrite
  try dsimp only
  (repeat' first
    | with_reducible assumption
    | with_reducible exact Sub.of hm (by decide)
    | with_reducible apply State.pmWait_kept
    | with_reducible apply State.setBitF_kept
    | with_reducible apply State.policy_kept
    | with_reducible apply State.syncPend_kept
    | with_reducible apply okBus_kept
    | with_reducible apply kept_ite
    | with_reducible apply kept_foldl
    | with_reducible apply kept_foldl_fst
    | with_reducible apply outKept_next
    | with_reducible apply outKept_ite
    | simp only [kept_mk, true_or]
    | split
    | intro _)

theorem execTamperEvent_kept {φ : Frame} {l : Option Lane} {sensor : Nat} {s : State} (hm : Sub 0x17efdce0fafc007a035c
    φ.fx) (h1 : s.Kept φ) :
    OutKept φ (execTamperEvent l sensor s) := by
  unfold execTamperEvent
  try dsimp only
  (repeat' first
    | with_reducible assumption
    | with_reducible exact Sub.of hm (by decide)
    | with_reducible apply State.setReg_kept
    | with_reducible apply State.tamper_kept
    | with_reducible apply kept_ite
    | with_reducible apply kept_foldl
    | with_reducible apply kept_foldl_fst
    | with_reducible apply outKept_next
    | with_reducible apply outKept_ite
    | simp only [kept_mk, true_or]
    | split
    | intro _)

theorem State.takeAon_kept {φ : Frame} {s : State} {l : Lane} (hm : Sub 0x17efdce0fafc007a035c φ.fx) (h1 : s.Kept φ) :
    State.Kept φ (State.takeAon s l) := by
  unfold State.takeAon
  try dsimp only
  (repeat' first
    | with_reducible assumption
    | with_reducible exact Sub.of hm (by decide)
    | with_reducible apply State.tamper_kept
    | with_reducible apply State.forEach_kept
    | with_reducible apply kept_ite
    | with_reducible apply kept_foldl
    | with_reducible apply kept_foldl_fst
    | with_reducible apply outKept_next
    | with_reducible apply outKept_ite
    | simp only [kept_mk, true_or]
    | split
    | intro _)

theorem execAttestReportDone_kept {φ : Frame} {lsn : Nat} {s : State} (hm : Sub 0x1400000000000011c φ.fx) (h1 : s.Kept
    φ) :
    OutKept φ (execAttestReportDone lsn s) := by
  unfold execAttestReportDone
  try dsimp only
  (repeat' first
    | with_reducible assumption
    | with_reducible exact Sub.of hm (by decide)
    | with_reducible apply State.putResp_kept
    | with_reducible apply State.tickFree_kept
    | with_reducible apply State.done_kept
    | with_reducible apply kept_ite
    | with_reducible apply kept_foldl
    | with_reducible apply kept_foldl_fst
    | with_reducible apply outKept_next
    | with_reducible apply outKept_ite
    | simp only [kept_mk, true_or]
    | split
    | intro _)

theorem specLhsStatus_kept {φ : Frame}   :
    CmdSpec.Kept φ (specLhsStatus ) := by
  refine ⟨?_, ?_, ?_, ?_⟩ <;> intros <;> dsimp only [specLhsStatus] <;>
  (repeat' first
    | with_reducible assumption
    | with_reducible apply kept_ite
    | with_reducible apply kept_foldl
    | with_reducible apply kept_foldl_fst
    | with_reducible apply outKept_next
    | with_reducible apply outKept_ite
    | simp only [kept_mk, true_or]
    | split
    | intro _)

theorem specLhsNonce_kept {φ : Frame}  (hm : Sub 0xc00000000000000004 φ.fx)  :
    CmdSpec.Kept φ (specLhsNonce ) := by
  refine ⟨?_, ?_, ?_, ?_⟩ <;> intros <;> dsimp only [specLhsNonce] <;>
  (repeat' first
    | with_reducible assumption
    | with_reducible exact Sub.of hm (by decide)
    | with_reducible apply State.setSec_kept
    | with_reducible apply State.tickFree_kept
    | with_reducible apply kept_ite
    | with_reducible apply kept_foldl
    | with_reducible apply kept_foldl_fst
    | with_reducible apply outKept_next
    | with_reducible apply outKept_ite
    | simp only [kept_mk, true_or]
    | split
    | intro _)

theorem specAttest_kept {φ : Frame}   :
    CmdSpec.Kept φ (specAttest ) := by
  refine ⟨?_, ?_, ?_, ?_⟩ <;> intros <;> dsimp only [specAttest] <;>
  (repeat' first
    | with_reducible assumption
    | with_reducible apply kept_ite
    | with_reducible apply kept_foldl
    | with_reducible apply kept_foldl_fst
    | with_reducible apply outKept_next
    | with_reducible apply outKept_ite
    | simp only [kept_mk, true_or]
    | split
    | intro _)

theorem specAttestKeys_kept {φ : Frame}   :
    CmdSpec.Kept φ (specAttestKeys ) := by
  refine ⟨?_, ?_, ?_, ?_⟩ <;> intros <;> dsimp only [specAttestKeys] <;>
  (repeat' first
    | with_reducible assumption
    | with_reducible apply kept_ite
    | with_reducible apply kept_foldl
    | with_reducible apply kept_foldl_fst
    | with_reducible apply outKept_next
    | with_reducible apply outKept_ite
    | simp only [kept_mk, true_or]
    | split
    | intro _)

theorem specKeyWrite_kept {φ : Frame}  (hm : Sub 0x1000000000000000000 φ.fx)  :
    CmdSpec.Kept φ (specKeyWrite ) := by
  refine ⟨?_, ?_, ?_, ?_⟩ <;> intros <;> dsimp only [specKeyWrite] <;>
  (repeat' first
    | with_reducible assumption
    | with_reducible exact Sub.of hm (by decide)
    | with_reducible apply kept_ite
    | with_reducible apply kept_foldl
    | with_reducible apply kept_foldl_fst
    | with_reducible apply outKept_next
    | with_reducible apply outKept_ite
    | simp only [kept_mk, hm.bit 72 rfl, or_true, true_or]
    | split
    | intro _)

theorem specKeyErase_kept {φ : Frame}  (hm : Sub 0x1000000000000000000 φ.fx)  :
    CmdSpec.Kept φ (specKeyErase ) := by
  refine ⟨?_, ?_, ?_, ?_⟩ <;> intros <;> dsimp only [specKeyErase] <;>
  (repeat' first
    | with_reducible assumption
    | with_reducible exact Sub.of hm (by decide)
    | with_reducible apply kept_ite
    | with_reducible apply kept_foldl
    | with_reducible apply kept_foldl_fst
    | with_reducible apply outKept_next
    | with_reducible apply outKept_ite
    | simp only [kept_mk, hm.bit 72 rfl, or_true, true_or]
    | split
    | intro _)

theorem specWorldSet_kept {φ : Frame}  (hm : Sub 0x608 φ.fx)  :
    CmdSpec.Kept φ (specWorldSet ) := by
  refine ⟨?_, ?_, ?_, ?_⟩ <;> intros <;> dsimp only [specWorldSet] <;>
  (repeat' first
    | with_reducible assumption
    | with_reducible exact Sub.of hm (by decide)
    | with_reducible apply State.commitLhsBoth_kept
    | with_reducible apply kept_ite
    | with_reducible apply kept_foldl
    | with_reducible apply kept_foldl_fst
    | with_reducible apply outKept_next
    | with_reducible apply outKept_ite
    | simp only [kept_mk, true_or]
    | split
    | intro _)

theorem specOwnSet_kept {φ : Frame}  (hm : Sub 0x4000000000000000000 φ.fx)  :
    CmdSpec.Kept φ (specOwnSet ) := by
  refine ⟨?_, ?_, ?_, ?_⟩ <;> intros <;> dsimp only [specOwnSet] <;>
  (repeat' first
    | with_reducible assumption
    | with_reducible exact Sub.of hm (by decide)
    | with_reducible apply kept_ite
    | with_reducible apply kept_foldl
    | with_reducible apply kept_foldl_fst
    | with_reducible apply outKept_next
    | with_reducible apply outKept_ite
    | simp only [kept_mk, hm.bit 74 rfl, or_true, true_or]
    | split
    | intro _)

theorem specPmRequest_kept {φ : Frame}  (hm : Sub 0x2000000000000000008 φ.fx)  :
    CmdSpec.Kept φ (specPmRequest ) := by
  refine ⟨?_, ?_, ?_, ?_⟩ <;> intros <;> dsimp only [specPmRequest] <;>
  (repeat' first
    | with_reducible assumption
    | with_reducible exact Sub.of hm (by decide)
    | with_reducible apply State.syncPend_kept
    | with_reducible apply kept_ite
    | with_reducible apply kept_foldl
    | with_reducible apply kept_foldl_fst
    | with_reducible apply outKept_next
    | with_reducible apply outKept_ite
    | simp only [kept_mk, hm.bit 73 rfl, or_true, true_or]
    | split
    | intro _)

theorem specEventConfig_kept {φ : Frame}  (hm : Sub 0x608 φ.fx)  :
    CmdSpec.Kept φ (specEventConfig ) := by
  refine ⟨?_, ?_, ?_, ?_⟩ <;> intros <;> dsimp only [specEventConfig] <;>
  (repeat' first
    | with_reducible assumption
    | with_reducible exact Sub.of hm (by decide)
    | with_reducible apply State.commitLhsBoth_kept
    | with_reducible apply kept_ite
    | with_reducible apply kept_foldl
    | with_reducible apply kept_foldl_fst
    | with_reducible apply outKept_next
    | with_reducible apply outKept_ite
    | simp only [kept_mk, true_or]
    | split
    | intro _)

theorem specEventLog_kept {φ : Frame}   :
    CmdSpec.Kept φ (specEventLog ) := by
  refine ⟨?_, ?_, ?_, ?_⟩ <;> intros <;> dsimp only [specEventLog] <;>
  (repeat' first
    | with_reducible assumption
    | with_reducible apply kept_ite
    | with_reducible apply kept_foldl
    | with_reducible apply kept_foldl_fst
    | with_reducible apply outKept_next
    | with_reducible apply outKept_ite
    | simp only [kept_mk, true_or]
    | split
    | intro _)

theorem specLcTransition_kept {φ : Frame}  (hm : Sub 0x1fefdce0fafc007a035c φ.fx)  :
    CmdSpec.Kept φ (specLcTransition ) := by
  refine ⟨?_, ?_, ?_, ?_⟩ <;> intros <;> dsimp only [specLcTransition] <;>
  (repeat' first
    | with_reducible assumption
    | with_reducible exact Sub.of hm (by decide)
    | with_reducible apply noteToken_kept
    | with_reducible apply State.useNonce_kept
    | with_reducible apply kept_ite
    | with_reducible apply kept_foldl
    | with_reducible apply kept_foldl_fst
    | with_reducible apply outKept_next
    | with_reducible apply outKept_ite
    | simp only [kept_mk, hm.bit 75 rfl, or_true, true_or]
    | split
    | intro _)

theorem specDebugUnlock_kept {φ : Frame}  (hm : Sub 0x17efdce0fafc007a035c φ.fx)  :
    CmdSpec.Kept φ (specDebugUnlock ) := by
  refine ⟨?_, ?_, ?_, ?_⟩ <;> intros <;> dsimp only [specDebugUnlock] <;>
  (repeat' first
    | with_reducible assumption
    | with_reducible exact Sub.of hm (by decide)
    | with_reducible apply noteToken_kept
    | with_reducible apply State.setSec_kept
    | with_reducible apply State.setBitF_kept
    | with_reducible apply State.done_kept
    | with_reducible apply State.useNonce_kept
    | with_reducible apply kept_ite
    | with_reducible apply kept_foldl
    | with_reducible apply kept_foldl_fst
    | with_reducible apply outKept_next
    | with_reducible apply outKept_ite
    | simp only [kept_mk, true_or]
    | split
    | intro _)

theorem specKeyHashSet_kept {φ : Frame}  (hm : Sub 0x8000000000000000000 φ.fx)  :
    CmdSpec.Kept φ (specKeyHashSet ) := by
  refine ⟨?_, ?_, ?_, ?_⟩ <;> intros <;> dsimp only [specKeyHashSet] <;>
  (repeat' first
    | with_reducible assumption
    | with_reducible exact Sub.of hm (by decide)
    | with_reducible apply kept_ite
    | with_reducible apply kept_foldl
    | with_reducible apply kept_foldl_fst
    | with_reducible apply outKept_next
    | with_reducible apply outKept_ite
    | simp only [kept_mk, hm.bit 75 rfl, or_true, true_or]
    | split
    | intro _)

theorem specKeyRevoke_kept {φ : Frame}  (hm : Sub 0x8000000000000000000 φ.fx)  :
    CmdSpec.Kept φ (specKeyRevoke ) := by
  refine ⟨?_, ?_, ?_, ?_⟩ <;> intros <;> dsimp only [specKeyRevoke] <;>
  (repeat' first
    | with_reducible assumption
    | with_reducible exact Sub.of hm (by decide)
    | with_reducible apply kept_ite
    | with_reducible apply kept_foldl
    | with_reducible apply kept_foldl_fst
    | with_reducible apply outKept_next
    | with_reducible apply outKept_ite
    | simp only [kept_mk, hm.bit 75 rfl, or_true, true_or]
    | split
    | intro _)

theorem specLhsConfig_kept {φ : Frame}  (hm : Sub 0x608 φ.fx)  :
    CmdSpec.Kept φ (specLhsConfig ) := by
  refine ⟨?_, ?_, ?_, ?_⟩ <;> intros <;> dsimp only [specLhsConfig] <;>
  (repeat' first
    | with_reducible assumption
    | with_reducible exact Sub.of hm (by decide)
    | with_reducible apply State.commitLhsBoth_kept
    | with_reducible apply kept_ite
    | with_reducible apply kept_foldl
    | with_reducible apply kept_foldl_fst
    | with_reducible apply outKept_next
    | with_reducible apply outKept_ite
    | simp only [kept_mk, true_or]
    | split
    | intro _)

theorem execLhsStatus_kept {φ : Frame} {r : Req} {s : State} (hm : Sub 0x17efdce0fafc007a03dc φ.fx) (h1 : s.Kept φ) :
    OutKept φ (execLhsStatus r s) := by
  unfold execLhsStatus
  try dsimp only
  (repeat' first
    | with_reducible assumption
    | with_reducible exact Sub.of hm (by decide)
    | with_reducible apply runScs_kept
    | with_reducible apply specLhsStatus_kept
    | with_reducible apply kept_ite
    | with_reducible apply kept_foldl
    | with_reducible apply kept_foldl_fst
    | with_reducible apply outKept_next
    | with_reducible apply outKept_ite
    | simp only [kept_mk, true_or]
    | split
    | intro _)

theorem execLhsNonce_kept {φ : Frame} {r : Req} {s : State} (hm : Sub 0x17efdce0fafc007a03dc φ.fx) (h1 : s.Kept φ) :
    OutKept φ (execLhsNonce r s) := by
  unfold execLhsNonce
  try dsimp only
  (repeat' first
    | with_reducible assumption
    | with_reducible exact Sub.of hm (by decide)
    | with_reducible apply specLhsNonce_kept
    | with_reducible apply runScs_kept
    | with_reducible apply kept_ite
    | with_reducible apply kept_foldl
    | with_reducible apply kept_foldl_fst
    | with_reducible apply outKept_next
    | with_reducible apply outKept_ite
    | simp only [kept_mk, true_or]
    | split
    | intro _)

theorem execAttest_kept {φ : Frame} {r : Req} {s : State} (hm : Sub 0x17efdce0fafc007a03dc φ.fx) (h1 : s.Kept φ) :
    OutKept φ (execAttest r s) := by
  unfold execAttest
  try dsimp only
  (repeat' first
    | with_reducible assumption
    | with_reducible exact Sub.of hm (by decide)
    | with_reducible apply specAttest_kept
    | with_reducible apply runScs_kept
    | with_reducible apply kept_ite
    | with_reducible apply kept_foldl
    | with_reducible apply kept_foldl_fst
    | with_reducible apply outKept_next
    | with_reducible apply outKept_ite
    | simp only [kept_mk, true_or]
    | split
    | intro _)

theorem execAttestKeys_kept {φ : Frame} {r : Req} {s : State} (hm : Sub 0x17efdce0fafc007a03dc φ.fx) (h1 : s.Kept φ) :
    OutKept φ (execAttestKeys r s) := by
  unfold execAttestKeys
  try dsimp only
  (repeat' first
    | with_reducible assumption
    | with_reducible exact Sub.of hm (by decide)
    | with_reducible apply specAttestKeys_kept
    | with_reducible apply runScs_kept
    | with_reducible apply kept_ite
    | with_reducible apply kept_foldl
    | with_reducible apply kept_foldl_fst
    | with_reducible apply outKept_next
    | with_reducible apply outKept_ite
    | simp only [kept_mk, true_or]
    | split
    | intro _)

theorem execKeyWrite_kept {φ : Frame} {r : Req} {s : State} (hm : Sub 0x17efdce0fafc007a03dc φ.fx) (h1 : s.Kept φ) :
    OutKept φ (execKeyWrite r s) := by
  unfold execKeyWrite
  try dsimp only
  (repeat' first
    | with_reducible assumption
    | with_reducible exact Sub.of hm (by decide)
    | with_reducible apply runScs_kept
    | with_reducible apply specKeyWrite_kept
    | with_reducible apply kept_ite
    | with_reducible apply kept_foldl
    | with_reducible apply kept_foldl_fst
    | with_reducible apply outKept_next
    | with_reducible apply outKept_ite
    | simp only [kept_mk, true_or]
    | split
    | intro _)

theorem execKeyErase_kept {φ : Frame} {r : Req} {s : State} (hm : Sub 0x17efdce0fafc007a03dc φ.fx) (h1 : s.Kept φ) :
    OutKept φ (execKeyErase r s) := by
  unfold execKeyErase
  try dsimp only
  (repeat' first
    | with_reducible assumption
    | with_reducible exact Sub.of hm (by decide)
    | with_reducible apply runScs_kept
    | with_reducible apply specKeyErase_kept
    | with_reducible apply kept_ite
    | with_reducible apply kept_foldl
    | with_reducible apply kept_foldl_fst
    | with_reducible apply outKept_next
    | with_reducible apply outKept_ite
    | simp only [kept_mk, true_or]
    | split
    | intro _)

theorem execWorldSet_kept {φ : Frame} {r : Req} {s : State} (hm : Sub 0x17efdce0fafc007a07dc φ.fx) (h1 : s.Kept φ) :
    OutKept φ (execWorldSet r s) := by
  unfold execWorldSet
  try dsimp only
  (repeat' first
    | with_reducible assumption
    | with_reducible exact Sub.of hm (by decide)
    | with_reducible apply specWorldSet_kept
    | with_reducible apply runScs_kept
    | with_reducible apply kept_ite
    | with_reducible apply kept_foldl
    | with_reducible apply kept_foldl_fst
    | with_reducible apply outKept_next
    | with_reducible apply outKept_ite
    | simp only [kept_mk, true_or]
    | split
    | intro _)

theorem execOwnSet_kept {φ : Frame} {r : Req} {s : State} (hm : Sub 0x17efdce0fafc007a03dc φ.fx) (h1 : s.Kept φ) :
    OutKept φ (execOwnSet r s) := by
  unfold execOwnSet
  try dsimp only
  (repeat' first
    | with_reducible assumption
    | with_reducible exact Sub.of hm (by decide)
    | with_reducible apply runScs_kept
    | with_reducible apply specOwnSet_kept
    | with_reducible apply kept_ite
    | with_reducible apply kept_foldl
    | with_reducible apply kept_foldl_fst
    | with_reducible apply outKept_next
    | with_reducible apply outKept_ite
    | simp only [kept_mk, true_or]
    | split
    | intro _)

theorem execPmRequest_kept {φ : Frame} {r : Req} {s : State} (hm : Sub 0x17efdce0fafc007a03dc φ.fx) (h1 : s.Kept φ) :
    OutKept φ (execPmRequest r s) := by
  unfold execPmRequest
  try dsimp only
  (repeat' first
    | with_reducible assumption
    | with_reducible exact Sub.of hm (by decide)
    | with_reducible apply runScs_kept
    | with_reducible apply specPmRequest_kept
    | with_reducible apply kept_ite
    | with_reducible apply kept_foldl
    | with_reducible apply kept_foldl_fst
    | with_reducible apply outKept_next
    | with_reducible apply outKept_ite
    | simp only [kept_mk, true_or]
    | split
    | intro _)

theorem execEventConfig_kept {φ : Frame} {r : Req} {s : State} (hm : Sub 0x17efdce0fafc007a07dc φ.fx) (h1 : s.Kept φ)
    :
    OutKept φ (execEventConfig r s) := by
  unfold execEventConfig
  try dsimp only
  (repeat' first
    | with_reducible assumption
    | with_reducible exact Sub.of hm (by decide)
    | with_reducible apply specEventConfig_kept
    | with_reducible apply runScs_kept
    | with_reducible apply kept_ite
    | with_reducible apply kept_foldl
    | with_reducible apply kept_foldl_fst
    | with_reducible apply outKept_next
    | with_reducible apply outKept_ite
    | simp only [kept_mk, true_or]
    | split
    | intro _)

theorem execEventLog_kept {φ : Frame} {r : Req} {s : State} (hm : Sub 0x17efdce0fafc007a03dc φ.fx) (h1 : s.Kept φ) :
    OutKept φ (execEventLog r s) := by
  unfold execEventLog
  try dsimp only
  (repeat' first
    | with_reducible assumption
    | with_reducible exact Sub.of hm (by decide)
    | with_reducible apply specEventLog_kept
    | with_reducible apply runScs_kept
    | with_reducible apply kept_ite
    | with_reducible apply kept_foldl
    | with_reducible apply kept_foldl_fst
    | with_reducible apply outKept_next
    | with_reducible apply outKept_ite
    | simp only [kept_mk, true_or]
    | split
    | intro _)

theorem execLcTransition_kept {φ : Frame} {r : Req} {s : State} (hm : Sub 0x1fefdce0fafc007a03dc φ.fx) (h1 : s.Kept φ)
    :
    OutKept φ (execLcTransition r s) := by
  unfold execLcTransition
  try dsimp only
  (repeat' first
    | with_reducible assumption
    | with_reducible exact Sub.of hm (by decide)
    | with_reducible apply specLcTransition_kept
    | with_reducible apply runScs_kept
    | with_reducible apply kept_ite
    | with_reducible apply kept_foldl
    | with_reducible apply kept_foldl_fst
    | with_reducible apply outKept_next
    | with_reducible apply outKept_ite
    | simp only [kept_mk, true_or]
    | split
    | intro _)

theorem execDebugUnlock_kept {φ : Frame} {r : Req} {s : State} (hm : Sub 0x17efdce0fafc007a03dc φ.fx) (h1 : s.Kept φ)
    :
    OutKept φ (execDebugUnlock r s) := by
  unfold execDebugUnlock
  try dsimp only
  (repeat' first
    | with_reducible assumption
    | with_reducible exact Sub.of hm (by decide)
    | with_reducible apply specDebugUnlock_kept
    | with_reducible apply runScs_kept
    | with_reducible apply kept_ite
    | with_reducible apply kept_foldl
    | with_reducible apply kept_foldl_fst
    | with_reducible apply outKept_next
    | with_reducible apply outKept_ite
    | simp only [kept_mk, true_or]
    | split
    | intro _)

theorem execKeyHashSet_kept {φ : Frame} {r : Req} {s : State} (hm : Sub 0x1fefdce0fafc007a03dc φ.fx) (h1 : s.Kept φ) :
    OutKept φ (execKeyHashSet r s) := by
  unfold execKeyHashSet
  try dsimp only
  (repeat' first
    | with_reducible assumption
    | with_reducible exact Sub.of hm (by decide)
    | with_reducible apply specKeyHashSet_kept
    | with_reducible apply runScs_kept
    | with_reducible apply kept_ite
    | with_reducible apply kept_foldl
    | with_reducible apply kept_foldl_fst
    | with_reducible apply outKept_next
    | with_reducible apply outKept_ite
    | simp only [kept_mk, true_or]
    | split
    | intro _)

theorem execKeyRevoke_kept {φ : Frame} {r : Req} {s : State} (hm : Sub 0x1fefdce0fafc007a03dc φ.fx) (h1 : s.Kept φ) :
    OutKept φ (execKeyRevoke r s) := by
  unfold execKeyRevoke
  try dsimp only
  (repeat' first
    | with_reducible assumption
    | with_reducible exact Sub.of hm (by decide)
    | with_reducible apply specKeyRevoke_kept
    | with_reducible apply runScs_kept
    | with_reducible apply kept_ite
    | with_reducible apply kept_foldl
    | with_reducible apply kept_foldl_fst
    | with_reducible apply outKept_next
    | with_reducible apply outKept_ite
    | simp only [kept_mk, true_or]
    | split
    | intro _)

theorem execLhsConfig_kept {φ : Frame} {r : Req} {s : State} (hm : Sub 0x17efdce0fafc007a07dc φ.fx) (h1 : s.Kept φ) :
    OutKept φ (execLhsConfig r s) := by
  unfold execLhsConfig
  try dsimp only
  (repeat' first
    | with_reducible assumption
    | with_reducible exact Sub.of hm (by decide)
    | with_reducible apply specLhsConfig_kept
    | with_reducible apply runScs_kept
    | with_reducible apply kept_ite
    | with_reducible apply kept_foldl
    | with_reducible apply kept_foldl_fst
    | with_reducible apply outKept_next
    | with_reducible apply outKept_ite
    | simp only [kept_mk, true_or]
    | split
    | intro _)

end Sys2Proof.Machine
end

