-- ==== Sys2Proof/Laws/KeptCauseway.lean ====
section
/-! SUPPORT. The operations of Causeway.lean keep the invariant, the queue and the time. -/

namespace Sys2Proof.Machine

theorem State.setCw_kept {φ : Frame} {s : State} {x : CwRt} (hm : Sub 0x1000000000000000 φ.fx) (h1 : s.Kept φ) :
    State.Kept φ (State.setCw s x) := by
  unfold State.setCw
  try dsimp only
  (repeat' first
    | with_reducible assumption
    | with_reducible exact Sub.of hm (by decide)
    | with_reducible apply kept_ite
    | with_reducible apply kept_foldl
    | with_reducible apply kept_foldl_fst
    | with_reducible apply outKept_next
    | with_reducible apply outKept_ite
    | simp only [kept_mk, hm.bit 60 rfl, or_true, true_or]
    | split
    | intro _)

theorem State.modCw_kept {φ : Frame} {s : State} {f : CwRt → CwRt} (hm : Sub 0x1000000000000000 φ.fx) (h1 : s.Kept φ)
    :
    State.Kept φ (State.modCw s f) := by
  unfold State.modCw
  try dsimp only
  (repeat' first
    | with_reducible assumption
    | with_reducible exact Sub.of hm (by decide)
    | with_reducible apply kept_ite
    | with_reducible apply kept_foldl
    | with_reducible apply kept_foldl_fst
    | with_reducible apply outKept_next
    | with_reducible apply outKept_ite
    | simp only [kept_mk, hm.bit 60 rfl, or_true, true_or]
    | split
    | intro _)

theorem State.dropBlk_kept {φ : Frame} {s : State} {l : Lane} {w : Nat} (hm : Sub 0x1000000000000008 φ.fx) (h1 :
    s.Kept φ) :
    State.Kept φ (State.dropBlk s l w) := by
  unfold State.dropBlk
  try dsimp only
  (repeat' first
    | with_reducible assumption
    | with_reducible exact Sub.of hm (by decide)
    | with_reducible apply State.setReg_kept
    | with_reducible apply State.modCw_kept
    | with_reducible apply State.count_kept
    | with_reducible apply kept_ite
    | with_reducible apply kept_foldl
    | with_reducible apply kept_foldl_fst
    | with_reducible apply outKept_next
    | with_reducible apply outKept_ite
    | simp only [kept_mk, true_or]
    | split
    | intro _)

theorem State.dropBlks_kept {φ : Frame} {s : State} {w : Nat} (hm : Sub 0x1000000000000008 φ.fx) (h1 : s.Kept φ) :
    State.Kept φ (State.dropBlks s w) := by
  unfold State.dropBlks
  try dsimp only
  (repeat' first
    | with_reducible assumption
    | with_reducible exact Sub.of hm (by decide)
    | with_reducible apply State.dropBlk_kept
    | with_reducible apply kept_ite
    | with_reducible apply kept_foldl
    | with_reducible apply kept_foldl_fst
    | with_reducible apply outKept_next
    | with_reducible apply outKept_ite
    | simp only [kept_mk, true_or]
    | split
    | intro _)

theorem State.applyCw_kept {φ : Frame} {s : State} {c : Commit} (hm : Sub 0x15000000000000708 φ.fx) (h1 : s.Kept φ) :
    State.Kept φ (State.applyCw s c) := by
  unfold State.applyCw
  try dsimp only
  (repeat' first
    | with_reducible assumption
    | with_reducible exact Sub.of hm (by decide)
    | with_reducible apply State.setBitF_kept
    | with_reducible apply State.dropBlk_kept
    | with_reducible apply State.applyCommit_kept
    | with_reducible apply kept_ite
    | with_reducible apply kept_foldl
    | with_reducible apply kept_foldl_fst
    | with_reducible apply outKept_next
    | with_reducible apply outKept_ite
    | simp only [kept_mk, true_or]
    | split
    | intro _)

theorem State.syncOut_kept {φ : Frame} {s : State} {l : Lane} {w : Nat} (hm : Sub 0x8 φ.fx) (h1 : s.Kept φ) :
    State.Kept φ (State.syncOut s l w) := by
  unfold State.syncOut
  try dsimp only
  (repeat' first
    | with_reducible assumption
    | with_reducible exact Sub.of hm (by decide)
    | with_reducible apply State.setFld_kept
    | with_reducible apply kept_ite
    | with_reducible apply kept_foldl
    | with_reducible apply kept_foldl_fst
    | with_reducible apply outKept_next
    | with_reducible apply outKept_ite
    | simp only [kept_mk, true_or]
    | split
    | intro _)

theorem State.relayEnd_kept {φ : Frame} {s : State} {a : CwAcc} {t : Nat} {status : Nat} (hm : Sub
    0x10001000000000000008 φ.fx) (h1 : s.Kept φ) :
    State.Kept φ (State.relayEnd s a t status) := by
  unfold State.relayEnd
  try dsimp only
  (repeat' first
    | with_reducible assumption
    | with_reducible exact Sub.of hm (by decide)
    | with_reducible apply State.modCw_kept
    | with_reducible apply State.setBitBoth_kept
    | with_reducible apply State.setFldBoth_kept
    | with_reducible apply kept_ite
    | with_reducible apply kept_foldl
    | with_reducible apply kept_foldl_fst
    | with_reducible apply outKept_next
    | with_reducible apply outKept_ite
    | simp only [kept_mk, hm.bit 76 rfl, or_true, true_or]
    | split
    | intro _)

theorem State.accEnd_kept {φ : Frame} {s : State} {a : CwAcc} {status : Nat} {data : List Byte} (hm : Sub
    0x100150000000000001a8 φ.fx) (h1 : s.Kept φ) :
    State.Kept φ (State.accEnd s a status data) := by
  unfold State.accEnd
  try dsimp only
  (repeat' first
    | with_reducible assumption
    | with_reducible exact Sub.of hm (by decide)
    | with_reducible apply State.relayEnd_kept
    | with_reducible apply State.failed_kept
    | with_reducible apply State.done_kept
    | with_reducible apply State.busErr_kept
    | with_reducible apply State.emit_kept
    | with_reducible apply kept_ite
    | with_reducible apply kept_foldl
    | with_reducible apply kept_foldl_fst
    | with_reducible apply outKept_next
    | with_reducible apply outKept_ite
    | simp only [kept_mk, hm.bit 5 rfl, or_true, true_or]
    | split
    | intro _)

theorem State.fence_kept {φ : Frame} {s : State} {w : Nat} (hm : Sub 0x1000000000000008 φ.fx) (h1 : s.Kept φ) :
    State.Kept φ (State.fence s w) := by
  unfold State.fence
  try dsimp only
  (repeat' first
    | with_reducible assumption
    | with_reducible exact Sub.of hm (by decide)
    | with_reducible apply State.dropBlks_kept
    | with_reducible apply State.setBitBoth_kept
    | with_reducible apply kept_ite
    | with_reducible apply kept_foldl
    | with_reducible apply kept_foldl_fst
    | with_reducible apply outKept_next
    | with_reducible apply outKept_ite
    | simp only [kept_mk, true_or]
    | split
    | intro _)

theorem State.errRecord_kept {φ : Frame} {s : State} {a : CwAcc} {status : Nat} (hm : Sub 0x1000000000000048 φ.fx) (h1
    : s.Kept φ) :
    State.Kept φ (State.errRecord s a status) := by
  unfold State.errRecord
  try dsimp only
  (repeat' first
    | with_reducible assumption
    | with_reducible exact Sub.of hm (by decide)
    | with_reducible apply State.irq_kept
    | with_reducible apply State.countBoth_kept
    | with_reducible apply State.modCw_kept
    | with_reducible apply State.fence_kept
    | with_reducible apply State.setBitBoth_kept
    | with_reducible apply State.setRegBoth_kept
    | with_reducible apply State.setFldBoth_kept
    | with_reducible apply kept_ite
    | with_reducible apply kept_foldl
    | with_reducible apply kept_foldl_fst
    | with_reducible apply outKept_next
    | with_reducible apply outKept_ite
    | simp only [kept_mk, true_or]
    | split
    | intro _)

theorem State.accClose_kept {φ : Frame} {s : State} {a : CwAcc} {status : Nat} {data : List Byte} (hm : Sub
    0x100150000000000001e8 φ.fx) (h1 : s.Kept φ) :
    State.Kept φ (State.accClose s a status data) := by
  unfold State.accClose
  try dsimp only
  (repeat' first
    | with_reducible assumption
    | with_reducible exact Sub.of hm (by decide)
    | with_reducible apply State.syncOut_kept
    | with_reducible apply State.accEnd_kept
    | with_reducible apply State.errRecord_kept
    | with_reducible apply State.modCw_kept
    | with_reducible apply kept_ite
    | with_reducible apply kept_foldl
    | with_reducible apply kept_foldl_fst
    | with_reducible apply outKept_next
    | with_reducible apply outKept_ite
    | simp only [kept_mk, true_or]
    | split
    | intro _)

theorem State.accSend_kept {φ : Frame} {s : State} {a : CwAcc} (hm : Sub 0x1000000000000088 φ.fx) (h1 : s.Kept φ) :
    State.Kept φ (State.accSend s a) := by
  unfold State.accSend
  try dsimp only
  (repeat' first
    | with_reducible assumption
    | with_reducible exact Sub.of hm (by decide)
    | with_reducible apply State.syncOut_kept
    | with_reducible apply State.dropBlk_kept
    | with_reducible apply State.modCw_kept
    | with_reducible apply State.emit_kept
    | with_reducible apply kept_ite
    | with_reducible apply kept_foldl
    | with_reducible apply kept_foldl_fst
    | with_reducible apply outKept_next
    | with_reducible apply outKept_ite
    | simp only [kept_mk, true_or]
    | split
    | intro _)

theorem State.cwPump_kept {φ : Frame} {s : State} {w : Nat} {a2 : Nat} (hm : Sub 0x1000000000000088 φ.fx) (h1 : s.Kept
    φ) :
    State.Kept φ (State.cwPump s w a2) := by
  induction a2 generalizing s w with
  | zero =>
    unfold State.cwPump
    (repeat' first
    | with_reducible assumption
    | with_reducible exact Sub.of hm (by decide)
    | with_reducible apply State.accSend_kept
    | with_reducible apply State.modCw_kept
    | with_reducible apply kept_ite
    | with_reducible apply kept_foldl
    | with_reducible apply kept_foldl_fst
    | with_reducible apply outKept_next
    | with_reducible apply outKept_ite
    | simp only [kept_mk, true_or]
    | split
    | intro _)
  | succ k ih =>
    unfold State.cwPump
    (repeat' first
    | with_reducible assumption
    | with_reducible exact Sub.of hm (by decide)
    | with_reducible apply State.accSend_kept
    | with_reducible apply State.modCw_kept
    | with_reducible apply ih
    | with_reducible apply kept_ite
    | with_reducible apply kept_foldl
    | with_reducible apply kept_foldl_fst
    | with_reducible apply outKept_next
    | with_reducible apply outKept_ite
    | simp only [kept_mk, true_or]
    | split
    | intro _)

theorem State.cwPumpAll_kept {φ : Frame} {s : State} {w : Nat} (hm : Sub 0x1000000000000088 φ.fx) (h1 : s.Kept φ) :
    State.Kept φ (State.cwPumpAll s w) := by
  unfold State.cwPumpAll
  try dsimp only
  (repeat' first
    | with_reducible assumption
    | with_reducible exact Sub.of hm (by decide)
    | with_reducible apply State.cwPump_kept
    | with_reducible apply kept_ite
    | with_reducible apply kept_foldl
    | with_reducible apply kept_foldl_fst
    | with_reducible apply outKept_next
    | with_reducible apply outKept_ite
    | simp only [kept_mk, true_or]
    | split
    | intro _)

theorem State.accNew_kept {φ : Frame} {s : State} {a : CwAcc} (hm : Sub 0x1000000000000088 φ.fx) (h1 : s.Kept φ) :
    State.Kept φ (State.accNew s a) := by
  unfold State.accNew
  try dsimp only
  (repeat' first
    | with_reducible assumption
    | with_reducible exact Sub.of hm (by decide)
    | with_reducible apply State.modCw_kept
    | with_reducible apply State.accSend_kept
    | with_reducible apply State.count_kept
    | with_reducible apply kept_ite
    | with_reducible apply kept_foldl
    | with_reducible apply kept_foldl_fst
    | with_reducible apply outKept_next
    | with_reducible apply outKept_ite
    | simp only [kept_mk, true_or]
    | split
    | intro _)

theorem State.cwDenied_kept {φ : Frame} {s : State} {l : Lane} {w : Nat} {who : Initiator} (hm : Sub
    0x17efdce0fafc007a037c φ.fx) (h1 : s.Kept φ) :
    State.Kept φ (State.cwDenied s l w who) := by
  unfold State.cwDenied
  try dsimp only
  (repeat' first
    | with_reducible assumption
    | with_reducible exact Sub.of hm (by decide)
    | with_reducible apply State.policy_kept
    | with_reducible apply State.tickFree_kept
    | with_reducible apply State.busErr_kept
    | with_reducible apply kept_ite
    | with_reducible apply kept_foldl
    | with_reducible apply kept_foldl_fst
    | with_reducible apply outKept_next
    | with_reducible apply outKept_ite
    | simp only [kept_mk, true_or]
    | split
    | intro _)

theorem State.cwLostEnd_kept {φ : Frame} {s : State} {w : Nat} (hm : Sub 0x28 φ.fx) (h1 : s.Kept φ) :
    State.Kept φ (State.cwLostEnd s w) := by
  unfold State.cwLostEnd
  try dsimp only
  (repeat' first
    | with_reducible assumption
    | with_reducible exact Sub.of hm (by decide)
    | with_reducible apply State.setBitBoth_kept
    | with_reducible apply State.busErr_kept
    | with_reducible apply kept_ite
    | with_reducible apply kept_foldl
    | with_reducible apply kept_foldl_fst
    | with_reducible apply outKept_next
    | with_reducible apply outKept_ite
    | simp only [kept_mk, true_or]
    | split
    | intro _)

theorem State.blkRead_kept {φ : Frame} {s : State} {l : Lane} {w ofs m : Nat} (hm : Sub 0x1000000000000000 φ.fx) (h1 : s.Kept φ) :
    ∀ x, s.blkRead l w ofs m = some x → x.1.Kept φ := by
  intro x hx
  unfold State.blkRead at hx
  split at hx
  · cases hx
  · split at hx
    · cases hx
      dsimp only
      exact State.modCw_kept (Sub.of hm (by decide)) h1
    · cases hx

theorem State.cwReadOpen_kept {φ : Frame} {s : State} {l : Lane} {who : Initiator} {w ofs size : Nat} (hm : Sub 0x10000000000000a8 φ.fx) (h1 : s.Kept φ) :
    State.Kept φ (s.cwReadOpen l who w ofs size) := by
  unfold State.cwReadOpen
  dsimp only
  split
  · rename_i x hx
    split at hx
    · simp only [kept_mk, hm.bit 5 rfl, or_true, true_or]
      exact State.count_kept (Sub.of hm (by decide)) (State.blkRead_kept (Sub.of hm (by decide)) h1 x hx)
    · cases hx
  · refine State.accNew_kept (Sub.of hm (by decide)) ?_
    simp only [kept_mk, hm.bit 5 rfl, or_true, true_or]
    exact h1

theorem execCwAccessRead_kept {φ : Frame} {l : Lane} {who : Initiator} {addr : Nat} {size : Nat} {s : State} (hm : Sub
    0x17efdce0fafc007a03fc φ.fx) (h1 : s.Kept φ) :
    OutKept φ (execCwAccessRead l who addr size s) := by
  unfold execCwAccessRead
  try dsimp only
  (repeat' first
    | with_reducible assumption
    | with_reducible exact Sub.of hm (by decide)
    | with_reducible apply State.cwLostEnd_kept
    | with_reducible apply State.cwReadOpen_kept
    | with_reducible apply State.cwDenied_kept
    | with_reducible apply State.busErr_kept
    | with_reducible apply kept_ite
    | with_reducible apply kept_foldl
    | with_reducible apply kept_foldl_fst
    | with_reducible apply outKept_next
    | with_reducible apply outKept_ite
    | simp only [kept_mk, hm.bit 5 rfl, or_true, true_or]
    | split
    | intro _)

theorem State.cwWriteOpen_kept {φ : Frame} {s : State} {l : Lane} {who : Initiator} {w : Nat} {ofs : Nat} {size : Nat}
    {data : List Byte} (hm : Sub 0x10000000000000a8 φ.fx) (h1 : s.Kept φ) :
    State.Kept φ (State.cwWriteOpen s l who w ofs size data) := by
  unfold State.cwWriteOpen
  try dsimp only
  (repeat' first
    | with_reducible assumption
    | with_reducible exact Sub.of hm (by decide)
    | with_reducible apply State.accNew_kept
    | with_reducible apply kept_ite
    | with_reducible apply kept_foldl
    | with_reducible apply kept_foldl_fst
    | with_reducible apply outKept_next
    | with_reducible apply outKept_ite
    | simp only [kept_mk, hm.bit 5 rfl, or_true, true_or]
    | split
    | intro _)

theorem execCwAccessWrite_kept {φ : Frame} {l : Lane} {who : Initiator} {addr : Nat} {size : Nat} {data : List Byte}
    {s : State} (hm : Sub 0x17efdce0fafc007a03fc φ.fx) (h1 : s.Kept φ) :
    OutKept φ (execCwAccessWrite l who addr size data s) := by
  unfold execCwAccessWrite
  try dsimp only
  (repeat' first
    | with_reducible assumption
    | with_reducible exact Sub.of hm (by decide)
    | with_reducible apply State.cwLostEnd_kept
    | with_reducible apply State.cwWriteOpen_kept
    | with_reducible apply State.cwDenied_kept
    | with_reducible apply State.busErr_kept
    | with_reducible apply kept_ite
    | with_reducible apply kept_foldl
    | with_reducible apply kept_foldl_fst
    | with_reducible apply outKept_next
    | with_reducible apply outKept_ite
    | simp only [kept_mk, true_or]
    | split
    | intro _)

theorem State.nodeHeard_kept {φ : Frame} {s : State} {node : Nat} (hm : Sub 0x1000000000000000 φ.fx) (h1 : s.Kept φ) :
    State.Kept φ (State.nodeHeard s node) := by
  unfold State.nodeHeard
  try dsimp only
  (repeat' first
    | with_reducible assumption
    | with_reducible exact Sub.of hm (by decide)
    | with_reducible apply State.modCw_kept
    | with_reducible apply kept_ite
    | with_reducible apply kept_foldl
    | with_reducible apply kept_foldl_fst
    | with_reducible apply outKept_next
    | with_reducible apply outKept_ite
    | simp only [kept_mk, true_or]
    | split
    | intro _)

theorem State.blkInstall_kept {φ : Frame} {s : State} {a : CwAcc} {b : Nat × Nat} {data : List Byte} (hm : Sub
    0x1000000000000008 φ.fx) (h1 : s.Kept φ) :
    State.Kept φ (State.blkInstall s a b data) := by
  unfold State.blkInstall
  try dsimp only
  (repeat' first
    | with_reducible assumption
    | with_reducible exact Sub.of hm (by decide)
    | with_reducible apply State.dropBlk_kept
    | with_reducible apply State.modCw_kept
    | with_reducible apply kept_ite
    | with_reducible apply kept_foldl
    | with_reducible apply kept_foldl_fst
    | with_reducible apply outKept_next
    | with_reducible apply outKept_ite
    | simp only [kept_mk, true_or]
    | split
    | intro _)

theorem State.cwResp_kept {φ : Frame} {s : State} {a : CwAcc} {status : Nat} {data : List Byte} (hm : Sub
    0x100150000000000001e8 φ.fx) (h1 : s.Kept φ) :
    State.Kept φ (State.cwResp s a status data) := by
  unfold State.cwResp
  try dsimp only
  (repeat' first
    | with_reducible assumption
    | with_reducible exact Sub.of hm (by decide)
    | with_reducible apply State.accClose_kept
    | with_reducible apply State.blkInstall_kept
    | with_reducible apply kept_ite
    | with_reducible apply kept_foldl
    | with_reducible apply kept_foldl_fst
    | with_reducible apply outKept_next
    | with_reducible apply outKept_ite
    | simp only [kept_mk, true_or]
    | split
    | intro _)

theorem execCwResponse_kept {φ : Frame} {l : Lane} {node : Nat} {ty : Nat} {win : Nat} {seq : Nat} {status : Nat}
    {data : List Byte} {crcOk : Bool} {s : State} (hm : Sub 0x100150000000000001e8 φ.fx) (h1 : s.Kept φ) :
    OutKept φ (execCwResponse l node ty win seq status data crcOk s) := by
  unfold execCwResponse
  try dsimp only
  (repeat' first
    | with_reducible assumption
    | with_reducible exact Sub.of hm (by decide)
    | with_reducible apply State.accClose_kept
    | with_reducible apply State.nodeHeard_kept
    | with_reducible apply State.cwResp_kept
    | with_reducible apply State.count_kept
    | with_reducible apply State.cwPumpAll_kept
    | with_reducible apply kept_ite
    | with_reducible apply kept_foldl
    | with_reducible apply kept_foldl_fst
    | with_reducible apply outKept_next
    | with_reducible apply outKept_ite
    | simp only [kept_mk, true_or]
    | split
    | intro _)

theorem State.accTimeout_kept {φ : Frame} {s : State} {a : CwAcc} (hm : Sub 0x100150000000000001e8 φ.fx) (h1 : s.Kept
    φ) :
    State.Kept φ (State.accTimeout s a) := by
  unfold State.accTimeout
  try dsimp only
  (repeat' first
    | with_reducible assumption
    | with_reducible exact Sub.of hm (by decide)
    | with_reducible apply State.accClose_kept
    | with_reducible apply State.dispose_kept
    | with_reducible apply State.count_kept
    | with_reducible apply kept_ite
    | with_reducible apply kept_foldl
    | with_reducible apply kept_foldl_fst
    | with_reducible apply outKept_next
    | with_reducible apply outKept_ite
    | simp only [kept_mk, true_or]
    | split
    | intro _)

theorem execCwTimeout_kept {φ : Frame} {l : Lane} {win : Nat} {seq : Nat} {s : State} (hm : Sub 0x100150000000000001e8
    φ.fx) (h1 : s.Kept φ) :
    OutKept φ (execCwTimeout l win seq s) := by
  unfold execCwTimeout
  try dsimp only
  (repeat' first
    | with_reducible assumption
    | with_reducible exact Sub.of hm (by decide)
    | with_reducible apply State.accTimeout_kept
    | with_reducible apply State.cwPumpAll_kept
    | with_reducible apply kept_ite
    | with_reducible apply kept_foldl
    | with_reducible apply kept_foldl_fst
    | with_reducible apply outKept_next
    | with_reducible apply outKept_ite
    | simp only [kept_mk, true_or]
    | split
    | intro _)

theorem execCwStallTimeout_kept {φ : Frame} {win : Nat} {k : Nat} {s : State} (hm : Sub 0x100150000000000001a8 φ.fx)
    (h1 : s.Kept φ) :
    OutKept φ (execCwStallTimeout win k s) := by
  unfold execCwStallTimeout
  try dsimp only
  (repeat' first
    | with_reducible assumption
    | with_reducible exact Sub.of hm (by decide)
    | with_reducible apply State.accEnd_kept
    | with_reducible apply State.modCw_kept
    | with_reducible apply State.cwPumpAll_kept
    | with_reducible apply kept_ite
    | with_reducible apply kept_foldl
    | with_reducible apply kept_foldl_fst
    | with_reducible apply outKept_next
    | with_reducible apply outKept_ite
    | simp only [kept_mk, true_or]
    | split
    | intro _)

theorem execPrefetchExpiry_kept {φ : Frame} {l : Lane} {win : Nat} {s : State} (hm : Sub 0x1000000000000008 φ.fx) (h1
    : s.Kept φ) :
    OutKept φ (execPrefetchExpiry l win s) := by
  unfold execPrefetchExpiry
  try dsimp only
  (repeat' first
    | with_reducible assumption
    | with_reducible exact Sub.of hm (by decide)
    | with_reducible apply State.dropBlk_kept
    | with_reducible apply kept_ite
    | with_reducible apply kept_foldl
    | with_reducible apply kept_foldl_fst
    | with_reducible apply outKept_next
    | with_reducible apply outKept_ite
    | simp only [kept_mk, true_or]
    | split
    | intro _)

theorem State.cwHolderLost_kept {φ : Frame} {s : State} {old : Lane} (hm : Sub 0x100150000000000001e8 φ.fx) (h1 :
    s.Kept φ) :
    State.Kept φ (State.cwHolderLost s old) := by
  unfold State.cwHolderLost
  try dsimp only
  (repeat' first
    | with_reducible assumption
    | with_reducible exact Sub.of hm (by decide)
    | with_reducible apply State.dropBlks_kept
    | with_reducible apply State.syncOut_kept
    | with_reducible apply State.accEnd_kept
    | with_reducible apply State.countBoth_kept
    | with_reducible apply State.errRecord_kept
    | with_reducible apply State.modCw_kept
    | with_reducible apply State.fence_kept
    | with_reducible apply kept_ite
    | with_reducible apply kept_foldl
    | with_reducible apply kept_foldl_fst
    | with_reducible apply outKept_next
    | with_reducible apply outKept_ite
    | simp only [kept_mk, true_or]
    | split
    | intro _)

theorem State.unfence_kept {φ : Frame} {s : State} {w : Nat} (hm : Sub 0x1000000000000088 φ.fx) (h1 : s.Kept φ) :
    State.Kept φ (State.unfence s w) := by
  unfold State.unfence
  try dsimp only
  (repeat' first
    | with_reducible assumption
    | with_reducible exact Sub.of hm (by decide)
    | with_reducible apply State.setBitBoth_kept
    | with_reducible apply State.cwPumpAll_kept
    | with_reducible apply kept_ite
    | with_reducible apply kept_foldl
    | with_reducible apply kept_foldl_fst
    | with_reducible apply outKept_next
    | with_reducible apply outKept_ite
    | simp only [kept_mk, true_or]
    | split
    | intro _)

theorem execFenceAckWrite_kept {φ : Frame} {l : Lane} {who : Initiator} {win : Nat} {s : State} (hm : Sub
    0x10000000000000a8 φ.fx) (h1 : s.Kept φ) :
    OutKept φ (execFenceAckWrite l who win s) := by
  unfold execFenceAckWrite
  try dsimp only
  (repeat' first
    | with_reducible assumption
    | with_reducible exact Sub.of hm (by decide)
    | with_reducible apply State.busOk_kept
    | with_reducible apply State.unfence_kept
    | with_reducible apply State.busErr_kept
    | with_reducible apply kept_ite
    | with_reducible apply kept_foldl
    | with_reducible apply kept_foldl_fst
    | with_reducible apply outKept_next
    | with_reducible apply outKept_ite
    | simp only [kept_mk, true_or]
    | split
    | intro _)

theorem State.setErrHead_kept {φ : Frame} {s : State} {head : Nat} (hm : Sub 0x1000000000000008 φ.fx) (h1 : s.Kept φ)
    :
    State.Kept φ (State.setErrHead s head) := by
  unfold State.setErrHead
  try dsimp only
  (repeat' first
    | with_reducible assumption
    | with_reducible exact Sub.of hm (by decide)
    | with_reducible apply State.modCw_kept
    | with_reducible apply State.setFldBoth_kept
    | with_reducible apply kept_ite
    | with_reducible apply kept_foldl
    | with_reducible apply kept_foldl_fst
    | with_reducible apply outKept_next
    | with_reducible apply outKept_ite
    | simp only [kept_mk, true_or]
    | split
    | intro _)

theorem execCwErrHeadWrite_kept {φ : Frame} {l : Lane} {who : Initiator} {head : Nat} {s : State} (hm : Sub
    0x1000000000000028 φ.fx) (h1 : s.Kept φ) :
    OutKept φ (execCwErrHeadWrite l who head s) := by
  unfold execCwErrHeadWrite
  try dsimp only
  (repeat' first
    | with_reducible assumption
    | with_reducible exact Sub.of hm (by decide)
    | with_reducible apply State.busOk_kept
    | with_reducible apply State.setErrHead_kept
    | with_reducible apply State.busErr_kept
    | with_reducible apply kept_ite
    | with_reducible apply kept_foldl
    | with_reducible apply kept_foldl_fst
    | with_reducible apply outKept_next
    | with_reducible apply outKept_ite
    | simp only [kept_mk, true_or]
    | split
    | intro _)

theorem execDiscoverTimer_kept {φ : Frame} {s : State} (hm : Sub 0x80 φ.fx) (h1 : s.Kept φ) :
    OutKept φ (execDiscoverTimer s) := by
  unfold execDiscoverTimer
  try dsimp only
  (repeat' first
    | with_reducible assumption
    | with_reducible exact Sub.of hm (by decide)
    | with_reducible apply State.emit_kept
    | with_reducible apply kept_ite
    | with_reducible apply kept_foldl
    | with_reducible apply kept_foldl_fst
    | with_reducible apply outKept_next
    | with_reducible apply outKept_ite
    | simp only [kept_mk, true_or]
    | split
    | intro _)

theorem State.setNode_kept {φ : Frame} {s : State} {i : Nat} {node : Nat} {port : Option Nat} {addr : List Word} {crc
    : Word} (hm : Sub 0x8 φ.fx) (h1 : s.Kept φ) :
    State.Kept φ (State.setNode s i node port addr crc) := by
  unfold State.setNode
  try dsimp only
  (repeat' first
    | with_reducible assumption
    | with_reducible exact Sub.of hm (by decide)
    | with_reducible apply State.setRegBoth_kept
    | with_reducible apply State.setRegs_kept
    | with_reducible apply kept_ite
    | with_reducible apply kept_foldl
    | with_reducible apply kept_foldl_fst
    | with_reducible apply outKept_next
    | with_reducible apply outKept_ite
    | simp only [kept_mk, true_or]
    | split
    | intro _)

theorem State.rejudge_kept {φ : Frame} {s : State} {w : Nat} (hm : Sub 0x8 φ.fx) (h1 : s.Kept φ) :
    State.Kept φ (State.rejudge s w) := by
  unfold State.rejudge
  try dsimp only
  (repeat' first
    | with_reducible assumption
    | with_reducible exact Sub.of hm (by decide)
    | with_reducible apply State.setBitBoth_kept
    | with_reducible apply kept_ite
    | with_reducible apply kept_foldl
    | with_reducible apply kept_foldl_fst
    | with_reducible apply outKept_next
    | with_reducible apply outKept_ite
    | simp only [kept_mk, true_or]
    | split
    | intro _)

theorem State.capsWins_kept {φ : Frame} {s : State} {i : Nat} {wasLost : Bool} {same : Bool} (hm : Sub
    0x1000000000000088 φ.fx) (h1 : s.Kept φ) :
    State.Kept φ (State.capsWins s i wasLost same) := by
  unfold State.capsWins
  try dsimp only
  (repeat' first
    | with_reducible assumption
    | with_reducible exact Sub.of hm (by decide)
    | with_reducible apply State.fence_kept
    | with_reducible apply State.setBitBoth_kept
    | with_reducible apply State.rejudge_kept
    | with_reducible apply State.cwPumpAll_kept
    | with_reducible apply kept_ite
    | with_reducible apply kept_foldl
    | with_reducible apply kept_foldl_fst
    | with_reducible apply outKept_next
    | with_reducible apply outKept_ite
    | simp only [kept_mk, true_or]
    | split
    | intro _)

theorem execCapsReceived_kept {φ : Frame} {node : Nat} {port : Option Nat} {addr : List Word} {ranges : List (Nat ×
    Nat × Bool)} {crc : Word} {crcOk : Bool} {s : State} (hm : Sub 0x1000000000000088 φ.fx) (h1 : s.Kept φ) :
    OutKept φ (execCapsReceived node port addr ranges crc crcOk s) := by
  unfold execCapsReceived
  try dsimp only
  (repeat' first
    | with_reducible assumption
    | with_reducible exact Sub.of hm (by decide)
    | with_reducible apply State.modCw_kept
    | with_reducible apply State.capsWins_kept
    | with_reducible apply State.count_kept
    | with_reducible apply State.setNode_kept
    | with_reducible apply kept_ite
    | with_reducible apply kept_foldl
    | with_reducible apply kept_foldl_fst
    | with_reducible apply outKept_next
    | with_reducible apply outKept_ite
    | simp only [kept_mk, true_or]
    | split
    | intro _)

theorem execNodeLost_kept {φ : Frame} {i : Nat} {s : State} (hm : Sub 0x100150000000000001e8 φ.fx) (h1 : s.Kept φ) :
    OutKept φ (execNodeLost i s) := by
  unfold execNodeLost
  try dsimp only
  (repeat' first
    | with_reducible assumption
    | with_reducible exact Sub.of hm (by decide)
    | with_reducible apply State.countBoth_kept
    | with_reducible apply State.accClose_kept
    | with_reducible apply State.setBitBoth_kept
    | with_reducible apply State.setRegBoth_kept
    | with_reducible apply kept_ite
    | with_reducible apply kept_foldl
    | with_reducible apply kept_foldl_fst
    | with_reducible apply outKept_next
    | with_reducible apply outKept_ite
    | simp only [kept_mk, true_or]
    | split
    | intro _)

theorem execCwNodeHeartbeat_kept {φ : Frame} {node : Nat} {crcOk : Bool} {s : State} (hm : Sub 0x1000000000000008
    φ.fx) (h1 : s.Kept φ) :
    OutKept φ (execCwNodeHeartbeat node crcOk s) := by
  unfold execCwNodeHeartbeat
  try dsimp only
  (repeat' first
    | with_reducible assumption
    | with_reducible exact Sub.of hm (by decide)
    | with_reducible apply State.nodeHeard_kept
    | with_reducible apply State.count_kept
    | with_reducible apply kept_ite
    | with_reducible apply kept_foldl
    | with_reducible apply kept_foldl_fst
    | with_reducible apply outKept_next
    | with_reducible apply outKept_ite
    | simp only [kept_mk, true_or]
    | split
    | intro _)

theorem specCwWindow_kept {φ : Frame}  (hm : Sub 0x608 φ.fx)  :
    CmdSpec.Kept φ (specCwWindow ) := by
  refine ⟨?_, ?_, ?_, ?_⟩ <;> intros <;> dsimp only [specCwWindow] <;>
  (repeat' first
    | with_reducible assumption
    | with_reducible exact Sub.of hm (by decide)
    | with_reducible apply State.commitLocal_kept
    | with_reducible apply kept_ite
    | with_reducible apply kept_foldl
    | with_reducible apply kept_foldl_fst
    | with_reducible apply outKept_next
    | with_reducible apply outKept_ite
    | simp only [kept_mk, true_or]
    | split
    | intro _)

theorem specCwNodes_kept {φ : Frame}   :
    CmdSpec.Kept φ (specCwNodes ) := by
  refine ⟨?_, ?_, ?_, ?_⟩ <;> intros <;> dsimp only [specCwNodes] <;>
  (repeat' first
    | with_reducible assumption
    | with_reducible apply kept_ite
    | with_reducible apply kept_foldl
    | with_reducible apply kept_foldl_fst
    | with_reducible apply outKept_next
    | with_reducible apply outKept_ite
    | simp only [kept_mk, true_or]
    | split
    | intro _)

theorem State.takeErrors_kept {φ : Frame} {s : State} {n : Nat} (hm : Sub 0x1000000000000008 φ.fx) (h1 : s.Kept φ) :
    State.Kept φ (State.takeErrors s n) := by
  unfold State.takeErrors
  try dsimp only
  (repeat' first
    | with_reducible assumption
    | with_reducible exact Sub.of hm (by decide)
    | with_reducible apply State.modCw_kept
    | with_reducible apply State.setFldBoth_kept
    | with_reducible apply kept_ite
    | with_reducible apply kept_foldl
    | with_reducible apply kept_foldl_fst
    | with_reducible apply outKept_next
    | with_reducible apply outKept_ite
    | simp only [kept_mk, true_or]
    | split
    | intro _)

theorem specCwErrors_kept {φ : Frame}  (hm : Sub 0x15000000000000108 φ.fx)  :
    CmdSpec.Kept φ (specCwErrors ) := by
  refine ⟨?_, ?_, ?_, ?_⟩ <;> intros <;> dsimp only [specCwErrors] <;>
  (repeat' first
    | with_reducible assumption
    | with_reducible exact Sub.of hm (by decide)
    | with_reducible apply State.done_kept
    | with_reducible apply State.takeErrors_kept
    | with_reducible apply kept_ite
    | with_reducible apply kept_foldl
    | with_reducible apply kept_foldl_fst
    | with_reducible apply outKept_next
    | with_reducible apply outKept_ite
    | simp only [kept_mk, true_or]
    | split
    | intro _)

theorem specCwFenceAck_kept {φ : Frame}  (hm : Sub 0x15000000000000188 φ.fx)  :
    CmdSpec.Kept φ (specCwFenceAck ) := by
  refine ⟨?_, ?_, ?_, ?_⟩ <;> intros <;> dsimp only [specCwFenceAck] <;>
  (repeat' first
    | with_reducible assumption
    | with_reducible exact Sub.of hm (by decide)
    | with_reducible apply State.done_kept
    | with_reducible apply State.unfence_kept
    | with_reducible apply kept_ite
    | with_reducible apply kept_foldl
    | with_reducible apply kept_foldl_fst
    | with_reducible apply outKept_next
    | with_reducible apply outKept_ite
    | simp only [kept_mk, true_or]
    | split
    | intro _)

theorem specCwWrite_kept {φ : Frame}  (hm : Sub 0x1000000000000088 φ.fx)  :
    CmdSpec.Kept φ (specCwWrite ) := by
  refine ⟨?_, ?_, ?_, ?_⟩ <;> intros <;> dsimp only [specCwWrite] <;>
  (repeat' first
    | with_reducible assumption
    | with_reducible exact Sub.of hm (by decide)
    | with_reducible apply State.accNew_kept
    | with_reducible apply kept_ite
    | with_reducible apply kept_foldl
    | with_reducible apply kept_foldl_fst
    | with_reducible apply outKept_next
    | with_reducible apply outKept_ite
    | simp only [kept_mk, true_or]
    | split
    | intro _)

theorem execCwWindow_kept {φ : Frame} {r : Req} {s : State} (hm : Sub 0x17efdce0fafc007a07dc φ.fx) (h1 : s.Kept φ) :
    OutKept φ (execCwWindow r s) := by
  unfold execCwWindow
  try dsimp only
  (repeat' first
    | with_reducible assumption
    | with_reducible exact Sub.of hm (by decide)
    | with_reducible apply specCwWindow_kept
    | with_reducible apply runScs_kept
    | with_reducible apply kept_ite
    | with_reducible apply kept_foldl
    | with_reducible apply kept_foldl_fst
    | with_reducible apply outKept_next
    | with_reducible apply outKept_ite
    | simp only [kept_mk, true_or]
    | split
    | intro _)

theorem execCwNodes_kept {φ : Frame} {r : Req} {s : State} (hm : Sub 0x17efdce0fafc007a03dc φ.fx) (h1 : s.Kept φ) :
    OutKept φ (execCwNodes r s) := by
  unfold execCwNodes
  try dsimp only
  (repeat' first
    | with_reducible assumption
    | with_reducible exact Sub.of hm (by decide)
    | with_reducible apply runScs_kept
    | with_reducible apply specCwNodes_kept
    | with_reducible apply kept_ite
    | with_reducible apply kept_foldl
    | with_reducible apply kept_foldl_fst
    | with_reducible apply outKept_next
    | with_reducible apply outKept_ite
    | simp only [kept_mk, true_or]
    | split
    | intro _)

theorem execCwErrors_kept {φ : Frame} {r : Req} {s : State} (hm : Sub 0x17efdce0fafc007a03dc φ.fx) (h1 : s.Kept φ) :
    OutKept φ (execCwErrors r s) := by
  unfold execCwErrors
  try dsimp only
  (repeat' first
    | with_reducible assumption
    | with_reducible exact Sub.of hm (by decide)
    | with_reducible apply runScs_kept
    | with_reducible apply specCwErrors_kept
    | with_reducible apply kept_ite
    | with_reducible apply kept_foldl
    | with_reducible apply kept_foldl_fst
    | with_reducible apply outKept_next
    | with_reducible apply outKept_ite
    | simp only [kept_mk, true_or]
    | split
    | intro _)

theorem execCwFenceAck_kept {φ : Frame} {r : Req} {s : State} (hm : Sub 0x17efdce0fafc007a03dc φ.fx) (h1 : s.Kept φ) :
    OutKept φ (execCwFenceAck r s) := by
  unfold execCwFenceAck
  try dsimp only
  (repeat' first
    | with_reducible assumption
    | with_reducible exact Sub.of hm (by decide)
    | with_reducible apply runScs_kept
    | with_reducible apply specCwFenceAck_kept
    | with_reducible apply kept_ite
    | with_reducible apply kept_foldl
    | with_reducible apply kept_foldl_fst
    | with_reducible apply outKept_next
    | with_reducible apply outKept_ite
    | simp only [kept_mk, true_or]
    | split
    | intro _)

theorem execCwWrite_kept {φ : Frame} {r : Req} {s : State} (hm : Sub 0x17efdce0fafc007a03dc φ.fx) (h1 : s.Kept φ) :
    OutKept φ (execCwWrite r s) := by
  unfold execCwWrite
  try dsimp only
  (repeat' first
    | with_reducible assumption
    | with_reducible exact Sub.of hm (by decide)
    | with_reducible apply specCwWrite_kept
    | with_reducible apply runScs_kept
    | with_reducible apply kept_ite
    | with_reducible apply kept_foldl
    | with_reducible apply kept_foldl_fst
    | with_reducible apply outKept_next
    | with_reducible apply outKept_ite
    | simp only [kept_mk, true_or]
    | split
    | intro _)

end Sys2Proof.Machine
end

