-- ==== Sys2Proof/Laws/KeptUpd.lean ====
section
/-! SUPPORT. The operations of Upd.lean keep the invariant, the queue and the time. -/

namespace Sys2Proof.Machine

theorem State.modUpd_kept {φ : Frame} {s : State} {f : UpdRt → UpdRt} (hm : Sub 0x10000000000000000000 φ.fx) (h1 :
    s.Kept φ) :
    State.Kept φ (State.modUpd s f) := by
  unfold State.modUpd
  try dsimp only
  (repeat' first
    | with_reducible assumption
    | with_reducible exact Sub.of hm (by decide)
    | with_reducible apply kept_ite
    | with_reducible apply kept_foldl
    | with_reducible apply kept_foldl_fst
    | with_reducible apply outKept_next
    | with_reducible apply outKept_ite
    | simp only [kept_mk, hm.bit 76 rfl, or_true, true_or]
    | split
    | intro _)

theorem State.eraseBank_kept {φ : Frame} {s : State} {l : Lane} {b : Nat} (hm : Sub 0xc00000000000000018 φ.fx) (h1 :
    s.Kept φ) :
    State.Kept φ (State.eraseBank s l b) := by
  unfold State.eraseBank
  try dsimp only
  (repeat' first
    | with_reducible assumption
    | with_reducible exact Sub.of hm (by decide)
    | with_reducible apply State.setLaneBank_kept
    | with_reducible apply State.clearMem_kept
    | with_reducible apply State.count_kept
    | with_reducible apply kept_ite
    | with_reducible apply kept_foldl
    | with_reducible apply kept_foldl_fst
    | with_reducible apply outKept_next
    | with_reducible apply outKept_ite
    | simp only [kept_mk, true_or]
    | split
    | intro _)

theorem State.eraseStaged_kept {φ : Frame} {s : State} (hm : Sub 0xc00000000000000018 φ.fx) (h1 : s.Kept φ) :
    State.Kept φ (State.eraseStaged s) := by
  unfold State.eraseStaged
  try dsimp only
  (repeat' first
    | with_reducible assumption
    | with_reducible exact Sub.of hm (by decide)
    | with_reducible apply State.eraseBank_kept
    | with_reducible apply kept_ite
    | with_reducible apply kept_foldl
    | with_reducible apply kept_foldl_fst
    | with_reducible apply outKept_next
    | with_reducible apply outKept_ite
    | simp only [kept_mk, true_or]
    | split
    | intro _)

theorem State.norWrite_kept {φ : Frame} {s : State} {ofs : Nat} {f : Lane → List Byte} (hm : Sub 0x10 φ.fx) (h1 :
    s.Kept φ) :
    State.Kept φ (State.norWrite s ofs f) := by
  unfold State.norWrite
  try dsimp only
  (repeat' first
    | with_reducible assumption
    | with_reducible exact Sub.of hm (by decide)
    | with_reducible apply State.setBytes_kept
    | with_reducible apply kept_ite
    | with_reducible apply kept_foldl
    | with_reducible apply kept_foldl_fst
    | with_reducible apply outKept_next
    | with_reducible apply outKept_ite
    | simp only [kept_mk, true_or]
    | split
    | intro _)

theorem State.buildHead_kept {φ : Frame} {s : State} {b : Build} {e : Img} (hm : Sub 0x10 φ.fx) (h1 : s.Kept φ) :
    State.Kept φ (State.buildHead s b e).1 := by
  unfold State.buildHead
  try dsimp only
  (repeat' first
    | with_reducible assumption
    | with_reducible exact Sub.of hm (by decide)
    | with_reducible apply State.norWrite_kept
    | with_reducible apply kept_ite
    | with_reducible apply kept_foldl
    | with_reducible apply kept_foldl_fst
    | with_reducible apply outKept_next
    | with_reducible apply outKept_ite
    | simp only [kept_mk, true_or]
    | split
    | intro _)

theorem State.buildData_kept {φ : Frame} {s : State} {b : Build} {e : Img} (hm : Sub 0x10 φ.fx) (h1 : s.Kept φ) :
    State.Kept φ (State.buildData s b e).1 := by
  unfold State.buildData
  try dsimp only
  (repeat' first
    | with_reducible assumption
    | with_reducible exact Sub.of hm (by decide)
    | with_reducible apply State.norWrite_kept
    | with_reducible apply kept_ite
    | with_reducible apply kept_foldl
    | with_reducible apply kept_foldl_fst
    | with_reducible apply outKept_next
    | with_reducible apply outKept_ite
    | simp only [kept_mk, true_or]
    | split
    | intro _)

theorem State.buildCopy_kept {φ : Frame} {s : State} {b : Build} {e : Img} (hm : Sub 0x10 φ.fx) (h1 : s.Kept φ) :
    State.Kept φ (State.buildCopy s b e).1 := by
  unfold State.buildCopy
  try dsimp only
  (repeat' first
    | with_reducible assumption
    | with_reducible exact Sub.of hm (by decide)
    | with_reducible apply State.norWrite_kept
    | with_reducible apply kept_ite
    | with_reducible apply kept_foldl
    | with_reducible apply kept_foldl_fst
    | with_reducible apply outKept_next
    | with_reducible apply outKept_ite
    | simp only [kept_mk, true_or]
    | split
    | intro _)

theorem State.buildOp_kept {φ : Frame} {s : State} {b : Build} {e : Img} (hm : Sub 0x10 φ.fx) (h1 : s.Kept φ) :
    State.Kept φ (State.buildOp s b e).1 := by
  unfold State.buildOp
  try dsimp only
  (repeat' first
    | with_reducible assumption
    | with_reducible exact Sub.of hm (by decide)
    | with_reducible apply State.buildCopy_kept
    | with_reducible apply kept_ite
    | with_reducible apply kept_foldl
    | with_reducible apply kept_foldl_fst
    | with_reducible apply outKept_next
    | with_reducible apply outKept_ite
    | simp only [kept_mk, true_or]
    | split
    | intro _)

theorem State.buildStep_kept {φ : Frame} {s : State} {b : Build} (hm : Sub 0x10 φ.fx) (h1 : s.Kept φ) :
    State.Kept φ (State.buildStep s b).1 := by
  unfold State.buildStep
  try dsimp only
  (repeat' first
    | with_reducible assumption
    | with_reducible exact Sub.of hm (by decide)
    | with_reducible apply State.buildData_kept
    | with_reducible apply State.buildOp_kept
    | with_reducible apply State.buildHead_kept
    | with_reducible apply kept_ite
    | with_reducible apply kept_foldl
    | with_reducible apply kept_foldl_fst
    | with_reducible apply outKept_next
    | with_reducible apply outKept_ite
    | simp only [kept_mk, true_or]
    | split
    | intro _)

theorem State.buildRun_kept {φ : Frame} {s : State} {b : Build} {a2 : Nat} (hm : Sub 0x10 φ.fx) (h1 : s.Kept φ) :
    State.Kept φ (State.buildRun s b a2).1 := by
  induction a2 generalizing s b with
  | zero =>
    unfold State.buildRun
    (repeat' first
    | with_reducible assumption
    | with_reducible exact Sub.of hm (by decide)
    | with_reducible apply State.buildStep_kept
    | with_reducible apply kept_ite
    | with_reducible apply kept_foldl
    | with_reducible apply kept_foldl_fst
    | with_reducible apply outKept_next
    | with_reducible apply outKept_ite
    | simp only [kept_mk, true_or]
    | split
    | intro _)
  | succ k ih =>
    unfold State.buildRun
    (repeat' first
    | with_reducible assumption
    | with_reducible exact Sub.of hm (by decide)
    | with_reducible apply State.buildStep_kept
    | with_reducible apply ih
    | with_reducible apply kept_ite
    | with_reducible apply kept_foldl
    | with_reducible apply kept_foldl_fst
    | with_reducible apply outKept_next
    | with_reducible apply outKept_ite
    | simp only [kept_mk, true_or]
    | split
    | intro _)

theorem State.syncRelay_kept {φ : Frame} {s : State} {t : Nat} (hm : Sub 0x8 φ.fx) (h1 : s.Kept φ) :
    State.Kept φ (State.syncRelay s t) := by
  unfold State.syncRelay
  try dsimp only
  (repeat' first
    | with_reducible assumption
    | with_reducible exact Sub.of hm (by decide)
    | with_reducible apply State.setBitBoth_kept
    | with_reducible apply kept_ite
    | with_reducible apply kept_foldl
    | with_reducible apply kept_foldl_fst
    | with_reducible apply outKept_next
    | with_reducible apply outKept_ite
    | simp only [kept_mk, true_or]
    | split
    | intro _)

theorem State.relayPieces_kept {φ : Frame} {s : State} {h : Lane} {t : Nat} {all : Bool} {a4 : Nat} (hm : Sub
    0x10001000000000000088 φ.fx) (h1 : s.Kept φ) :
    State.Kept φ (State.relayPieces s h t all a4) := by
  induction a4 generalizing s h t all with
  | zero =>
    unfold State.relayPieces
    (repeat' first
    | with_reducible assumption
    | with_reducible exact Sub.of hm (by decide)
    | with_reducible apply State.modUpd_kept
    | with_reducible apply State.accNew_kept
    | with_reducible apply kept_ite
    | with_reducible apply kept_foldl
    | with_reducible apply kept_foldl_fst
    | with_reducible apply outKept_next
    | with_reducible apply outKept_ite
    | simp only [kept_mk, true_or]
    | split
    | intro _)
  | succ k ih =>
    unfold State.relayPieces
    (repeat' first
    | with_reducible assumption
    | with_reducible exact Sub.of hm (by decide)
    | with_reducible apply State.modUpd_kept
    | with_reducible apply State.accNew_kept
    | with_reducible apply ih
    | with_reducible apply kept_ite
    | with_reducible apply kept_foldl
    | with_reducible apply kept_foldl_fst
    | with_reducible apply outKept_next
    | with_reducible apply outKept_ite
    | simp only [kept_mk, true_or]
    | split
    | intro _)

theorem State.relayTo_kept {φ : Frame} {s : State} {h : Lane} {t : Nat} {opcode : Nat} {hdr : List Byte} {data : List
    Byte} {last : Bool} (hm : Sub 0x10001000000000000088 φ.fx) (h1 : s.Kept φ) :
    State.Kept φ (State.relayTo s h t opcode hdr data last) := by
  unfold State.relayTo
  try dsimp only
  (repeat' first
    | with_reducible assumption
    | with_reducible exact Sub.of hm (by decide)
    | with_reducible apply State.syncRelay_kept
    | with_reducible apply State.relayPieces_kept
    | with_reducible apply State.modUpd_kept
    | with_reducible apply State.emit_kept
    | with_reducible apply kept_ite
    | with_reducible apply kept_foldl
    | with_reducible apply kept_foldl_fst
    | with_reducible apply outKept_next
    | with_reducible apply outKept_ite
    | simp only [kept_mk, true_or]
    | split
    | intro _)

theorem State.relayAll_kept {φ : Frame} {s : State} {opcode : Nat} {hdr : List Byte} {data : List Byte} {chunk : Bool}
    {last : Bool} (hm : Sub 0x10001000000000000088 φ.fx) (h1 : s.Kept φ) :
    State.Kept φ (State.relayAll s opcode hdr data chunk last) := by
  unfold State.relayAll
  try dsimp only
  (repeat' first
    | with_reducible assumption
    | with_reducible exact Sub.of hm (by decide)
    | with_reducible apply State.countBoth_kept
    | with_reducible apply State.relayTo_kept
    | with_reducible apply kept_ite
    | with_reducible apply kept_foldl
    | with_reducible apply kept_foldl_fst
    | with_reducible apply outKept_next
    | with_reducible apply outKept_ite
    | simp only [kept_mk, true_or]
    | split
    | intro _)

theorem State.syncProgress_kept {φ : Frame} {s : State} (hm : Sub 0x8 φ.fx) (h1 : s.Kept φ) :
    State.Kept φ (State.syncProgress s) := by
  unfold State.syncProgress
  try dsimp only
  (repeat' first
    | with_reducible assumption
    | with_reducible exact Sub.of hm (by decide)
    | with_reducible apply State.setRegBoth_kept
    | with_reducible apply kept_ite
    | with_reducible apply kept_foldl
    | with_reducible apply kept_foldl_fst
    | with_reducible apply outKept_next
    | with_reducible apply outKept_ite
    | simp only [kept_mk, true_or]
    | split
    | intro _)

theorem State.dropStage_kept {φ : Frame} {s : State} (hm : Sub 0x10c00000000000000018 φ.fx) (h1 : s.Kept φ) :
    State.Kept φ (State.dropStage s) := by
  unfold State.dropStage
  try dsimp only
  (repeat' first
    | with_reducible assumption
    | with_reducible exact Sub.of hm (by decide)
    | with_reducible apply State.syncProgress_kept
    | with_reducible apply State.setUpdSt_kept
    | with_reducible apply State.eraseStaged_kept
    | with_reducible apply State.modUpd_kept
    | with_reducible apply kept_ite
    | with_reducible apply kept_foldl
    | with_reducible apply kept_foldl_fst
    | with_reducible apply outKept_next
    | with_reducible apply outKept_ite
    | simp only [kept_mk, true_or]
    | split
    | intro _)

theorem State.beginStage_kept {φ : Frame} {s : State} {m : List Byte} {lsn : Nat} (hm : Sub 0x10c01000000000000098
    φ.fx) (h1 : s.Kept φ) :
    State.Kept φ (State.beginStage s m lsn) := by
  unfold State.beginStage
  try dsimp only
  (repeat' first
    | with_reducible assumption
    | with_reducible exact Sub.of hm (by decide)
    | with_reducible apply State.relayAll_kept
    | with_reducible apply State.syncProgress_kept
    | with_reducible apply State.setUpdSt_kept
    | with_reducible apply State.eraseStaged_kept
    | with_reducible apply State.modUpd_kept
    | with_reducible apply kept_ite
    | with_reducible apply kept_foldl
    | with_reducible apply kept_foldl_fst
    | with_reducible apply outKept_next
    | with_reducible apply outKept_ite
    | simp only [kept_mk, true_or]
    | split
    | intro _)

theorem execNorEraseDone_kept {φ : Frame} {ok : Bool} {s : State} (hm : Sub 0x10c14000000000000118 φ.fx) (h1 : s.Kept
    φ) :
    OutKept φ (execNorEraseDone ok s) := by
  unfold execNorEraseDone
  try dsimp only
  (repeat' first
    | with_reducible assumption
    | with_reducible exact Sub.of hm (by decide)
    | with_reducible apply State.dropStage_kept
    | with_reducible apply State.failed_kept
    | with_reducible apply State.done_kept
    | with_reducible apply State.modUpd_kept
    | with_reducible apply kept_ite
    | with_reducible apply kept_foldl
    | with_reducible apply kept_foldl_fst
    | with_reducible apply outKept_next
    | with_reducible apply outKept_ite
    | simp only [kept_mk, true_or]
    | split
    | intro _)

theorem State.advance_kept {φ : Frame} {s : State} {n : Nat} {ok : Bool} (hm : Sub 0x10000000000000000008 φ.fx) (h1 :
    s.Kept φ) :
    State.Kept φ (State.advance s n ok) := by
  unfold State.advance
  try dsimp only
  (repeat' first
    | with_reducible assumption
    | with_reducible exact Sub.of hm (by decide)
    | with_reducible apply State.syncProgress_kept
    | with_reducible apply State.modUpd_kept
    | with_reducible apply kept_ite
    | with_reducible apply kept_foldl
    | with_reducible apply kept_foldl_fst
    | with_reducible apply outKept_next
    | with_reducible apply outKept_ite
    | simp only [kept_mk, true_or]
    | split
    | intro _)

theorem State.indexDone_kept {φ : Frame} {s : State} (hm : Sub 0x10001000000000000098 φ.fx) (h1 : s.Kept φ) :
    State.Kept φ (State.indexDone s) := by
  unfold State.indexDone
  try dsimp only
  (repeat' first
    | with_reducible assumption
    | with_reducible exact Sub.of hm (by decide)
    | with_reducible apply State.norWrite_kept
    | with_reducible apply State.relayAll_kept
    | with_reducible apply State.advance_kept
    | with_reducible apply kept_ite
    | with_reducible apply kept_foldl
    | with_reducible apply kept_foldl_fst
    | with_reducible apply outKept_next
    | with_reducible apply outKept_ite
    | simp only [kept_mk, true_or]
    | split
    | intro _)

theorem State.takePiece_kept {φ : Frame} {s : State} {i : Nat} {lsn : Nat} {data : List Byte} {hashOk : Bool} (hm :
    Sub 0x10015000000000000198 φ.fx) (h1 : s.Kept φ) :
    State.Kept φ (State.takePiece s i lsn data hashOk) := by
  unfold State.takePiece
  try dsimp only
  (repeat' first
    | with_reducible assumption
    | with_reducible exact Sub.of hm (by decide)
    | with_reducible apply State.indexDone_kept
    | with_reducible apply State.countBoth_kept
    | with_reducible apply State.failed_kept
    | with_reducible apply State.done_kept
    | with_reducible apply State.modUpd_kept
    | with_reducible apply State.advance_kept
    | with_reducible apply kept_ite
    | with_reducible apply kept_foldl
    | with_reducible apply kept_foldl_fst
    | with_reducible apply outKept_next
    | with_reducible apply outKept_ite
    | simp only [kept_mk, true_or]
    | split
    | intro _)

theorem State.writeChunk_kept {φ : Frame} {s : State} {i : Nat} {lsn : Nat} {data : List Byte} {norFail : Bool} (hm :
    Sub 0x10c15000000000000198 φ.fx) (h1 : s.Kept φ) :
    State.Kept φ (State.writeChunk s i lsn data norFail) := by
  unfold State.writeChunk
  try dsimp only
  (repeat' first
    | with_reducible assumption
    | with_reducible exact Sub.of hm (by decide)
    | with_reducible apply State.buildRun_kept
    | with_reducible apply State.dropStage_kept
    | with_reducible apply State.relayAll_kept
    | with_reducible apply State.countBoth_kept
    | with_reducible apply State.failed_kept
    | with_reducible apply State.done_kept
    | with_reducible apply State.modUpd_kept
    | with_reducible apply State.advance_kept
    | with_reducible apply kept_ite
    | with_reducible apply kept_foldl
    | with_reducible apply kept_foldl_fst
    | with_reducible apply outKept_next
    | with_reducible apply outKept_ite
    | simp only [kept_mk, true_or]
    | split
    | intro _)

theorem State.takeChunk_kept {φ : Frame} {s : State} {i : Nat} {lsn : Nat} {data : List Byte} {hashOk : Bool} {norFail
    : Bool} (hm : Sub 0x10c15000000000000198 φ.fx) (h1 : s.Kept φ) :
    State.Kept φ (State.takeChunk s i lsn data hashOk norFail) := by
  unfold State.takeChunk
  try dsimp only
  (repeat' first
    | with_reducible assumption
    | with_reducible exact Sub.of hm (by decide)
    | with_reducible apply State.writeChunk_kept
    | with_reducible apply State.countBoth_kept
    | with_reducible apply State.failed_kept
    | with_reducible apply State.done_kept
    | with_reducible apply kept_ite
    | with_reducible apply kept_foldl
    | with_reducible apply kept_foldl_fst
    | with_reducible apply outKept_next
    | with_reducible apply outKept_ite
    | simp only [kept_mk, true_or]
    | split
    | intro _)

theorem State.carryOther_kept {φ : Frame} {s : State} {l : Lane} {b : Nat} (hm : Sub 0xc00000000000000010 φ.fx) (h1 :
    s.Kept φ) :
    State.Kept φ (State.carryOther s l b) := by
  unfold State.carryOther
  try dsimp only
  (repeat' first
    | with_reducible assumption
    | with_reducible exact Sub.of hm (by decide)
    | with_reducible apply State.setLaneBank_kept
    | with_reducible apply State.setBytes_kept
    | with_reducible apply kept_ite
    | with_reducible apply kept_foldl
    | with_reducible apply kept_foldl_fst
    | with_reducible apply outKept_next
    | with_reducible apply outKept_ite
    | simp only [kept_mk, true_or]
    | split
    | intro _)

theorem execStagingVerifyDone_kept {φ : Frame} {ok : Bool} {s : State} (hm : Sub 0x10c14000000000000118 φ.fx) (h1 :
    s.Kept φ) :
    OutKept φ (execStagingVerifyDone ok s) := by
  unfold execStagingVerifyDone
  try dsimp only
  (repeat' first
    | with_reducible assumption
    | with_reducible exact Sub.of hm (by decide)
    | with_reducible apply State.dropStage_kept
    | with_reducible apply State.setLaneBank_kept
    | with_reducible apply State.countBoth_kept
    | with_reducible apply State.setUpdSt_kept
    | with_reducible apply State.carryOther_kept
    | with_reducible apply State.failed_kept
    | with_reducible apply State.done_kept
    | with_reducible apply State.modUpd_kept
    | with_reducible apply kept_ite
    | with_reducible apply kept_foldl
    | with_reducible apply kept_foldl_fst
    | with_reducible apply outKept_next
    | with_reducible apply outKept_ite
    | simp only [kept_mk, true_or]
    | split
    | intro _)

theorem State.syncMixed_kept {φ : Frame} {s : State} (hm : Sub 0x8 φ.fx) (h1 : s.Kept φ) :
    State.Kept φ (State.syncMixed s) := by
  unfold State.syncMixed
  try dsimp only
  (repeat' first
    | with_reducible assumption
    | with_reducible exact Sub.of hm (by decide)
    | with_reducible apply State.setBitBoth_kept
    | with_reducible apply kept_ite
    | with_reducible apply kept_foldl
    | with_reducible apply kept_foldl_fst
    | with_reducible apply outKept_next
    | with_reducible apply outKept_ite
    | simp only [kept_mk, true_or]
    | split
    | intro _)

theorem State.restartInto_kept {φ : Frame} {s : State} {l : Lane} {b : Nat} (hm : Sub 0x16cfdce0fafc005a0358 φ.fx) (h1
    : s.Kept φ) :
    State.Kept φ (State.restartInto s l b) := by
  unfold State.restartInto
  try dsimp only
  (repeat' first
    | with_reducible assumption
    | with_reducible exact Sub.of hm (by decide)
    | with_reducible apply State.laneReset_kept
    | with_reducible apply State.modUpd_kept
    | with_reducible apply State.setActive_kept
    | with_reducible apply kept_ite
    | with_reducible apply kept_foldl
    | with_reducible apply kept_foldl_fst
    | with_reducible apply outKept_next
    | with_reducible apply outKept_ite
    | simp only [kept_mk, true_or]
    | split
    | intro _)

theorem State.updDrain_kept {φ : Frame} {s : State} {l : Lane} {b : Nat} (hm : Sub 0x16cfdce0fafc005a0358 φ.fx) (h1 :
    s.Kept φ) :
    State.Kept φ (State.updDrain s l b) := by
  unfold State.updDrain
  try dsimp only
  (repeat' first
    | with_reducible assumption
    | with_reducible exact Sub.of hm (by decide)
    | with_reducible apply State.restartInto_kept
    | with_reducible apply State.modUpd_kept
    | with_reducible apply State.setServing_kept
    | with_reducible apply kept_ite
    | with_reducible apply kept_foldl
    | with_reducible apply kept_foldl_fst
    | with_reducible apply outKept_next
    | with_reducible apply outKept_ite
    | simp only [kept_mk, true_or]
    | split
    | intro _)

theorem State.updRestart_kept {φ : Frame} {s : State} (hm : Sub 0x16cfdce0fafc005a0358 φ.fx) (h1 : s.Kept φ) :
    State.Kept φ (State.updRestart s) := by
  unfold State.updRestart
  try dsimp only
  (repeat' first
    | with_reducible assumption
    | with_reducible exact Sub.of hm (by decide)
    | with_reducible apply State.updDrain_kept
    | with_reducible apply State.restartInto_kept
    | with_reducible apply kept_ite
    | with_reducible apply kept_foldl
    | with_reducible apply kept_foldl_fst
    | with_reducible apply outKept_next
    | with_reducible apply outKept_ite
    | simp only [kept_mk, true_or]
    | split
    | intro _)

theorem State.updSettle_kept {φ : Frame} {s : State} (hm : Sub 0x10c14000000000000118 φ.fx) (h1 : s.Kept φ) :
    State.Kept φ (State.updSettle s) := by
  unfold State.updSettle
  try dsimp only
  (repeat' first
    | with_reducible assumption
    | with_reducible exact Sub.of hm (by decide)
    | with_reducible apply State.countBoth_kept
    | with_reducible apply State.setUpdSt_kept
    | with_reducible apply State.modUpd_kept
    | with_reducible apply State.eraseBank_kept
    | with_reducible apply State.setActive_kept
    | with_reducible apply State.disposeAll_kept
    | with_reducible apply kept_ite
    | with_reducible apply kept_foldl
    | with_reducible apply kept_foldl_fst
    | with_reducible apply outKept_next
    | with_reducible apply outKept_ite
    | simp only [kept_mk, true_or]
    | split
    | intro _)

theorem State.syncConfirm_kept {φ : Frame} {s : State} (hm : Sub 0x8 φ.fx) (h1 : s.Kept φ) :
    State.Kept φ (State.syncConfirm s) := by
  unfold State.syncConfirm
  try dsimp only
  (repeat' first
    | with_reducible assumption
    | with_reducible exact Sub.of hm (by decide)
    | with_reducible apply State.setFldBoth_kept
    | with_reducible apply kept_ite
    | with_reducible apply kept_foldl
    | with_reducible apply kept_foldl_fst
    | with_reducible apply outKept_next
    | with_reducible apply outKept_ite
    | simp only [kept_mk, true_or]
    | split
    | intro _)

theorem State.updCount_kept {φ : Frame} {s : State} (hm : Sub 0x10000000000000000000 φ.fx) (h1 : s.Kept φ) :
    State.Kept φ (State.updCount s) := by
  unfold State.updCount
  try dsimp only
  (repeat' first
    | with_reducible assumption
    | with_reducible exact Sub.of hm (by decide)
    | with_reducible apply State.modUpd_kept
    | with_reducible apply kept_ite
    | with_reducible apply kept_foldl
    | with_reducible apply kept_foldl_fst
    | with_reducible apply outKept_next
    | with_reducible apply outKept_ite
    | simp only [kept_mk, true_or]
    | split
    | intro _)

theorem State.updBoundary_kept {φ : Frame} {s : State} (hm : Sub 0x16cfdce0fafc005a0358 φ.fx) (h1 : s.Kept φ) :
    State.Kept φ (State.updBoundary s) := by
  unfold State.updBoundary
  try dsimp only
  (repeat' first
    | with_reducible assumption
    | with_reducible exact Sub.of hm (by decide)
    | with_reducible apply State.syncConfirm_kept
    | with_reducible apply State.updSettle_kept
    | with_reducible apply State.updRestart_kept
    | with_reducible apply State.syncMixed_kept
    | with_reducible apply kept_ite
    | with_reducible apply kept_foldl
    | with_reducible apply kept_foldl_fst
    | with_reducible apply outKept_next
    | with_reducible apply outKept_ite
    | simp only [kept_mk, true_or]
    | split
    | intro _)

theorem State.relaySet_kept {φ : Frame} {s : State} {x : Nat × Nat × Relay} (hm : Sub 0x10014000000000000108 φ.fx) (h1
    : s.Kept φ) :
    State.Kept φ (State.relaySet s x) := by
  unfold State.relaySet
  try dsimp only
  (repeat' first
    | with_reducible assumption
    | with_reducible exact Sub.of hm (by decide)
    | with_reducible apply State.done_kept
    | with_reducible apply State.setRegBoth_kept
    | with_reducible apply State.modUpd_kept
    | with_reducible apply kept_ite
    | with_reducible apply kept_foldl
    | with_reducible apply kept_foldl_fst
    | with_reducible apply outKept_next
    | with_reducible apply outKept_ite
    | simp only [kept_mk, true_or]
    | split
    | intro _)

theorem State.updCommits_kept {φ : Frame} {s : State} {l : Lane} (hm : Sub 0x10014000000000000708 φ.fx) (h1 : s.Kept
    φ) :
    State.Kept φ (State.updCommits s l) := by
  unfold State.updCommits
  try dsimp only
  (repeat' first
    | with_reducible assumption
    | with_reducible exact Sub.of hm (by decide)
    | with_reducible apply State.relaySet_kept
    | with_reducible apply State.applyCommit_kept
    | with_reducible apply kept_ite
    | with_reducible apply kept_foldl
    | with_reducible apply kept_foldl_fst
    | with_reducible apply outKept_next
    | with_reducible apply outKept_ite
    | simp only [kept_mk, true_or]
    | split
    | intro _)

theorem execConfirmTimeout_kept {φ : Frame} {s : State} (hm : Sub 0x10014000000000000108 φ.fx) (h1 : s.Kept φ) :
    OutKept φ (execConfirmTimeout s) := by
  unfold execConfirmTimeout
  try dsimp only
  (repeat' first
    | with_reducible assumption
    | with_reducible exact Sub.of hm (by decide)
    | with_reducible apply State.startRevert_kept
    | with_reducible apply kept_ite
    | with_reducible apply kept_foldl
    | with_reducible apply kept_foldl_fst
    | with_reducible apply outKept_next
    | with_reducible apply outKept_ite
    | simp only [kept_mk, true_or]
    | split
    | intro _)

theorem execBankCopyDone_kept {φ : Frame} {l : Lane} {ok : Bool} {s : State} (hm : Sub 0x16cfdce0fafc005a0358 φ.fx)
    (h1 : s.Kept φ) :
    OutKept φ (execBankCopyDone l ok s) := by
  unfold execBankCopyDone
  try dsimp only
  (repeat' first
    | with_reducible assumption
    | with_reducible exact Sub.of hm (by decide)
    | with_reducible apply State.setLaneBank_kept
    | with_reducible apply State.countBoth_kept
    | with_reducible apply State.laneReset_kept
    | with_reducible apply State.eraseBank_kept
    | with_reducible apply State.setBytes_kept
    | with_reducible apply State.setActive_kept
    | with_reducible apply kept_ite
    | with_reducible apply kept_foldl
    | with_reducible apply kept_foldl_fst
    | with_reducible apply outKept_next
    | with_reducible apply outKept_ite
    | simp only [kept_mk, true_or]
    | split
    | intro _)

theorem specUpdStatus_kept {φ : Frame}   :
    CmdSpec.Kept φ (specUpdStatus ) := by
  refine ⟨?_, ?_, ?_, ?_⟩ <;> intros <;> dsimp only [specUpdStatus] <;>
  (repeat' first
    | with_reducible assumption
    | with_reducible apply kept_ite
    | with_reducible apply kept_foldl
    | with_reducible apply kept_foldl_fst
    | with_reducible apply outKept_next
    | with_reducible apply outKept_ite
    | simp only [kept_mk, true_or]
    | split
    | intro _)

theorem specUpdBegin_kept {φ : Frame}  (hm : Sub 0x10c01000000000000098 φ.fx)  :
    CmdSpec.Kept φ (specUpdBegin ) := by
  refine ⟨?_, ?_, ?_, ?_⟩ <;> intros <;> dsimp only [specUpdBegin] <;>
  (repeat' first
    | with_reducible assumption
    | with_reducible exact Sub.of hm (by decide)
    | with_reducible apply State.beginStage_kept
    | with_reducible apply kept_ite
    | with_reducible apply kept_foldl
    | with_reducible apply kept_foldl_fst
    | with_reducible apply outKept_next
    | with_reducible apply outKept_ite
    | simp only [kept_mk, true_or]
    | split
    | intro _)

theorem specUpdChunk_kept {φ : Frame}  (hm : Sub 0x10c15000000000000198 φ.fx)  :
    CmdSpec.Kept φ (specUpdChunk ) := by
  refine ⟨?_, ?_, ?_, ?_⟩ <;> intros <;> dsimp only [specUpdChunk] <;>
  (repeat' first
    | with_reducible assumption
    | with_reducible exact Sub.of hm (by decide)
    | with_reducible apply State.takePiece_kept
    | with_reducible apply State.failed_kept
    | with_reducible apply State.done_kept
    | with_reducible apply State.takeChunk_kept
    | with_reducible apply kept_ite
    | with_reducible apply kept_foldl
    | with_reducible apply kept_foldl_fst
    | with_reducible apply outKept_next
    | with_reducible apply outKept_ite
    | simp only [kept_mk, true_or]
    | split
    | intro _)

theorem specUpdAbort_kept {φ : Frame}  (hm : Sub 0x10c14000000000000118 φ.fx)  :
    CmdSpec.Kept φ (specUpdAbort ) := by
  refine ⟨?_, ?_, ?_, ?_⟩ <;> intros <;> dsimp only [specUpdAbort] <;>
  (repeat' first
    | with_reducible assumption
    | with_reducible exact Sub.of hm (by decide)
    | with_reducible apply State.dropStage_kept
    | with_reducible apply State.done_kept
    | with_reducible apply kept_ite
    | with_reducible apply kept_foldl
    | with_reducible apply kept_foldl_fst
    | with_reducible apply outKept_next
    | with_reducible apply outKept_ite
    | simp only [kept_mk, true_or]
    | split
    | intro _)

theorem specUpdActivate_kept {φ : Frame}  (hm : Sub 0x10000000000000000008 φ.fx)  :
    CmdSpec.Kept φ (specUpdActivate ) := by
  refine ⟨?_, ?_, ?_, ?_⟩ <;> intros <;> dsimp only [specUpdActivate] <;>
  (repeat' first
    | with_reducible assumption
    | with_reducible exact Sub.of hm (by decide)
    | with_reducible apply State.setUpdSt_kept
    | with_reducible apply State.modUpd_kept
    | with_reducible apply kept_ite
    | with_reducible apply kept_foldl
    | with_reducible apply kept_foldl_fst
    | with_reducible apply outKept_next
    | with_reducible apply outKept_ite
    | simp only [kept_mk, true_or]
    | split
    | intro _)

theorem specUpdConfirm_kept {φ : Frame}  (hm : Sub 0x8000000000000000000 φ.fx)  :
    CmdSpec.Kept φ (specUpdConfirm ) := by
  refine ⟨?_, ?_, ?_, ?_⟩ <;> intros <;> dsimp only [specUpdConfirm] <;>
  (repeat' first
    | with_reducible assumption
    | with_reducible exact Sub.of hm (by decide)
    | with_reducible apply kept_ite
    | with_reducible apply kept_foldl
    | with_reducible apply kept_foldl_fst
    | with_reducible apply outKept_next
    | with_reducible apply outKept_ite
    | simp only [kept_mk, hm.bit 75 rfl, or_true, true_or]
    | split
    | intro _)

theorem specUpdRevert_kept {φ : Frame}  (hm : Sub 0x10014000000000000108 φ.fx)  :
    CmdSpec.Kept φ (specUpdRevert ) := by
  refine ⟨?_, ?_, ?_, ?_⟩ <;> intros <;> dsimp only [specUpdRevert] <;>
  (repeat' first
    | with_reducible assumption
    | with_reducible exact Sub.of hm (by decide)
    | with_reducible apply State.startRevert_kept
    | with_reducible apply State.modUpd_kept
    | with_reducible apply kept_ite
    | with_reducible apply kept_foldl
    | with_reducible apply kept_foldl_fst
    | with_reducible apply outKept_next
    | with_reducible apply outKept_ite
    | simp only [kept_mk, true_or]
    | split
    | intro _)

theorem specUpdRelaySet_kept {φ : Frame}  (hm : Sub 0x10000000000000000000 φ.fx)  :
    CmdSpec.Kept φ (specUpdRelaySet ) := by
  refine ⟨?_, ?_, ?_, ?_⟩ <;> intros <;> dsimp only [specUpdRelaySet] <;>
  (repeat' first
    | with_reducible assumption
    | with_reducible exact Sub.of hm (by decide)
    | with_reducible apply State.modUpd_kept
    | with_reducible apply kept_ite
    | with_reducible apply kept_foldl
    | with_reducible apply kept_foldl_fst
    | with_reducible apply outKept_next
    | with_reducible apply outKept_ite
    | simp only [kept_mk, true_or]
    | split
    | intro _)

theorem specUpdConfig_kept {φ : Frame}  (hm : Sub 0x608 φ.fx)  :
    CmdSpec.Kept φ (specUpdConfig ) := by
  refine ⟨?_, ?_, ?_, ?_⟩ <;> intros <;> dsimp only [specUpdConfig] <;>
  (repeat' first
    | with_reducible assumption
    | with_reducible exact Sub.of hm (by decide)
    | with_reducible apply State.commitLocal_kept
    | with_reducible apply kept_ite
    | with_reducible apply kept_foldl
    | with_reducible apply kept_foldl_fst
    | with_reducible apply outKept_next
    | with_reducible apply outKept_ite
    | simp only [kept_mk, true_or]
    | split
    | intro _)

theorem execUpdStatus_kept {φ : Frame} {r : Req} {s : State} (hm : Sub 0x17efdce0fafc007a03dc φ.fx) (h1 : s.Kept φ) :
    OutKept φ (execUpdStatus r s) := by
  unfold execUpdStatus
  try dsimp only
  (repeat' first
    | with_reducible assumption
    | with_reducible exact Sub.of hm (by decide)
    | with_reducible apply runScs_kept
    | with_reducible apply specUpdStatus_kept
    | with_reducible apply kept_ite
    | with_reducible apply kept_foldl
    | with_reducible apply kept_foldl_fst
    | with_reducible apply outKept_next
    | with_reducible apply outKept_ite
    | simp only [kept_mk, true_or]
    | split
    | intro _)

theorem execUpdBegin_kept {φ : Frame} {r : Req} {s : State} (hm : Sub 0x17efdce0fafc007a03dc φ.fx) (h1 : s.Kept φ) :
    OutKept φ (execUpdBegin r s) := by
  unfold execUpdBegin
  try dsimp only
  (repeat' first
    | with_reducible assumption
    | with_reducible exact Sub.of hm (by decide)
    | with_reducible apply specUpdBegin_kept
    | with_reducible apply runScs_kept
    | with_reducible apply kept_ite
    | with_reducible apply kept_foldl
    | with_reducible apply kept_foldl_fst
    | with_reducible apply outKept_next
    | with_reducible apply outKept_ite
    | simp only [kept_mk, true_or]
    | split
    | intro _)

theorem execUpdChunk_kept {φ : Frame} {r : Req} {s : State} (hm : Sub 0x17efdce0fafc007a03dc φ.fx) (h1 : s.Kept φ) :
    OutKept φ (execUpdChunk r s) := by
  unfold execUpdChunk
  try dsimp only
  (repeat' first
    | with_reducible assumption
    | with_reducible exact Sub.of hm (by decide)
    | with_reducible apply specUpdChunk_kept
    | with_reducible apply runScs_kept
    | with_reducible apply kept_ite
    | with_reducible apply kept_foldl
    | with_reducible apply kept_foldl_fst
    | with_reducible apply outKept_next
    | with_reducible apply outKept_ite
    | simp only [kept_mk, true_or]
    | split
    | intro _)

theorem execUpdAbort_kept {φ : Frame} {r : Req} {s : State} (hm : Sub 0x17efdce0fafc007a03dc φ.fx) (h1 : s.Kept φ) :
    OutKept φ (execUpdAbort r s) := by
  unfold execUpdAbort
  try dsimp only
  (repeat' first
    | with_reducible assumption
    | with_reducible exact Sub.of hm (by decide)
    | with_reducible apply runScs_kept
    | with_reducible apply specUpdAbort_kept
    | with_reducible apply kept_ite
    | with_reducible apply kept_foldl
    | with_reducible apply kept_foldl_fst
    | with_reducible apply outKept_next
    | with_reducible apply outKept_ite
    | simp only [kept_mk, true_or]
    | split
    | intro _)

theorem execUpdActivate_kept {φ : Frame} {r : Req} {s : State} (hm : Sub 0x17efdce0fafc007a03dc φ.fx) (h1 : s.Kept φ)
    :
    OutKept φ (execUpdActivate r s) := by
  unfold execUpdActivate
  try dsimp only
  (repeat' first
    | with_reducible assumption
    | with_reducible exact Sub.of hm (by decide)
    | with_reducible apply runScs_kept
    | with_reducible apply specUpdActivate_kept
    | with_reducible apply kept_ite
    | with_reducible apply kept_foldl
    | with_reducible apply kept_foldl_fst
    | with_reducible apply outKept_next
    | with_reducible apply outKept_ite
    | simp only [kept_mk, true_or]
    | split
    | intro _)

theorem execUpdConfirm_kept {φ : Frame} {r : Req} {s : State} (hm : Sub 0x1fefdce0fafc007a03dc φ.fx) (h1 : s.Kept φ) :
    OutKept φ (execUpdConfirm r s) := by
  unfold execUpdConfirm
  try dsimp only
  (repeat' first
    | with_reducible assumption
    | with_reducible exact Sub.of hm (by decide)
    | with_reducible apply specUpdConfirm_kept
    | with_reducible apply runScs_kept
    | with_reducible apply kept_ite
    | with_reducible apply kept_foldl
    | with_reducible apply kept_foldl_fst
    | with_reducible apply outKept_next
    | with_reducible apply outKept_ite
    | simp only [kept_mk, true_or]
    | split
    | intro _)

theorem execUpdRevert_kept {φ : Frame} {r : Req} {s : State} (hm : Sub 0x17efdce0fafc007a03dc φ.fx) (h1 : s.Kept φ) :
    OutKept φ (execUpdRevert r s) := by
  unfold execUpdRevert
  try dsimp only
  (repeat' first
    | with_reducible assumption
    | with_reducible exact Sub.of hm (by decide)
    | with_reducible apply specUpdRevert_kept
    | with_reducible apply runScs_kept
    | with_reducible apply kept_ite
    | with_reducible apply kept_foldl
    | with_reducible apply kept_foldl_fst
    | with_reducible apply outKept_next
    | with_reducible apply outKept_ite
    | simp only [kept_mk, true_or]
    | split
    | intro _)

theorem execUpdRelaySet_kept {φ : Frame} {r : Req} {s : State} (hm : Sub 0x17efdce0fafc007a03dc φ.fx) (h1 : s.Kept φ)
    :
    OutKept φ (execUpdRelaySet r s) := by
  unfold execUpdRelaySet
  try dsimp only
  (repeat' first
    | with_reducible assumption
    | with_reducible exact Sub.of hm (by decide)
    | with_reducible apply specUpdRelaySet_kept
    | with_reducible apply runScs_kept
    | with_reducible apply kept_ite
    | with_reducible apply kept_foldl
    | with_reducible apply kept_foldl_fst
    | with_reducible apply outKept_next
    | with_reducible apply outKept_ite
    | simp only [kept_mk, true_or]
    | split
    | intro _)

theorem execUpdConfig_kept {φ : Frame} {r : Req} {s : State} (hm : Sub 0x17efdce0fafc007a07dc φ.fx) (h1 : s.Kept φ) :
    OutKept φ (execUpdConfig r s) := by
  unfold execUpdConfig
  try dsimp only
  (repeat' first
    | with_reducible assumption
    | with_reducible exact Sub.of hm (by decide)
    | with_reducible apply specUpdConfig_kept
    | with_reducible apply runScs_kept
    | with_reducible apply kept_ite
    | with_reducible apply kept_foldl
    | with_reducible apply kept_foldl_fst
    | with_reducible apply outKept_next
    | with_reducible apply outKept_ite
    | simp only [kept_mk, true_or]
    | split
    | intro _)

end Sys2Proof.Machine
end

