-- ==== Sys2Proof/Laws/KeptDies.lean ====
section
/-! SUPPORT. The operations of Dies.lean keep the invariant, the queue and the time. -/

namespace Sys2Proof.Machine

theorem State.wipeRanges_kept {φ : Frame} {s : State} {a1 : List (Nat × Nat)} (hm : Sub 0x8 φ.fx) (h1 : s.Kept φ) :
    State.Kept φ (State.wipeRanges s a1) := by
  induction a1 generalizing s with
  | nil =>
    unfold State.wipeRanges
    (repeat' first
    | with_reducible assumption
    | with_reducible exact Sub.of hm (by decide)
    | with_reducible apply State.wipeDie_kept
    | with_reducible apply kept_ite
    | with_reducible apply kept_foldl
    | with_reducible apply kept_foldl_fst
    | with_reducible apply outKept_next
    | with_reducible apply outKept_ite
    | simp only [kept_mk, true_or]
    | split
    | intro _)
  | cons x xs ih =>
    unfold State.wipeRanges
    (repeat' first
    | with_reducible assumption
    | with_reducible exact Sub.of hm (by decide)
    | with_reducible apply State.wipeDie_kept
    | with_reducible apply ih
    | with_reducible apply kept_ite
    | with_reducible apply kept_foldl
    | with_reducible apply kept_foldl_fst
    | with_reducible apply outKept_next
    | with_reducible apply outKept_ite
    | simp only [kept_mk, true_or]
    | split
    | intro _)

theorem State.dropWork_kept {φ : Frame} {s : State} {d : Die} (hm : Sub 0x14000000001000308 φ.fx) (h1 : s.Kept φ) :
    State.Kept φ (State.dropWork s d) := by
  unfold State.dropWork
  try dsimp only
  (repeat' first
    | with_reducible assumption
    | with_reducible exact Sub.of hm (by decide)
    | with_reducible apply State.disposeAll_kept
    | with_reducible apply kept_ite
    | with_reducible apply kept_foldl
    | with_reducible apply kept_foldl_fst
    | with_reducible apply outKept_next
    | with_reducible apply outKept_ite
    | simp only [kept_mk, hm.bit 9 rfl, hm.bit 24 rfl, or_true, true_or]
    | split
    | intro _)

theorem State.dropCmnWork_kept {φ : Frame} {s : State} (hm : Sub 0x16229040000000108 φ.fx) (h1 : s.Kept φ) :
    State.Kept φ (State.dropCmnWork s) := by
  unfold State.dropCmnWork
  try dsimp only
  (repeat' first
    | with_reducible assumption
    | with_reducible exact Sub.of hm (by decide)
    | with_reducible apply State.forEach_kept
    | with_reducible apply State.pduFail_kept
    | with_reducible apply State.disposeAll_kept
    | with_reducible apply kept_ite
    | with_reducible apply kept_foldl
    | with_reducible apply kept_foldl_fst
    | with_reducible apply outKept_next
    | with_reducible apply outKept_ite
    | simp only [kept_mk, hm.bit 42 rfl, hm.bit 48 rfl, hm.bit 51 rfl, hm.bit 53 rfl, hm.bit 61 rfl, or_true,
      true_or]
    | split
    | intro _)

theorem State.freshPorts_kept {φ : Frame} {s : State} (hm : Sub 0x14410000000000 φ.fx) (h1 : s.Kept φ) : State.Kept φ s.freshPorts :=
  kept_tbs (kept_lins (kept_canPorts (kept_sels h1 (hm.bit 40 rfl) (List.length_replicate ..)) (hm.bit 46 rfl)
    ((List.length_map ..).trans h1.shape.canPorts)) (hm.bit 50 rfl) (List.length_replicate ..)) (hm.bit 52 rfl)
    (List.length_replicate ..)

theorem State.clearCmn_kept {φ : Frame} {s : State} (hm : Sub 0x1623f450000020108 φ.fx) (h1 : s.Kept φ) :
    State.Kept φ (State.clearCmn s) := by
  unfold State.clearCmn
  try dsimp only
  (repeat' first
    | with_reducible assumption
    | with_reducible exact Sub.of hm (by decide)
    | with_reducible apply State.freshPorts_kept
    | with_reducible apply State.forEach_kept
    | with_reducible apply State.canEndQueue_kept
    | with_reducible apply State.tbStopAll_kept
    | with_reducible apply State.dropCmnWork_kept
    | with_reducible apply kept_ite
    | with_reducible apply kept_foldl
    | with_reducible apply kept_foldl_fst
    | with_reducible apply outKept_next
    | with_reducible apply outKept_ite
    | simp only [kept_mk, hm.bit 17 rfl, hm.bit 42 rfl, hm.bit 48 rfl, hm.bit 49 rfl, hm.bit 51 rfl, hm.bit 53 rfl,
      hm.bit 61 rfl, or_true, true_or]
    | split
    | intro _)

theorem State.dieLose_kept {φ : Frame} {s : State} {d : Die} (hm : Sub 0x1623f4501ff03fb08 φ.fx) (h1 : s.Kept φ) :
    State.Kept φ (State.dieLose s d) := by
  unfold State.dieLose
  try dsimp only
  (repeat' first
    | with_reducible assumption
    | with_reducible exact Sub.of hm (by decide)
    | with_reducible apply State.restartPower_kept
    | with_reducible apply State.dropWork_kept
    | with_reducible apply State.setSh_kept
    | with_reducible apply State.setDie_kept
    | with_reducible apply State.restartField_kept
    | with_reducible apply State.wipeRanges_kept
    | with_reducible apply State.clearCmn_kept
    | with_reducible apply State.forEach_kept
    | with_reducible apply kept_ite
    | with_reducible apply kept_foldl
    | with_reducible apply kept_foldl_fst
    | with_reducible apply outKept_next
    | with_reducible apply outKept_ite
    | simp only [kept_mk, true_or]
    | split
    | intro _)

theorem State.strapFeeds_kept {φ : Frame} {s : State} {d : Nat} (hm : Sub 0x8 φ.fx) (h1 : s.Kept φ) :
    State.Kept φ (State.strapFeeds s d) := by
  unfold State.strapFeeds
  try dsimp only
  (repeat' first
    | with_reducible assumption
    | with_reducible exact Sub.of hm (by decide)
    | with_reducible apply State.setShFld_kept
    | with_reducible apply State.forEach_kept
    | with_reducible apply kept_ite
    | with_reducible apply kept_foldl
    | with_reducible apply kept_foldl_fst
    | with_reducible apply outKept_next
    | with_reducible apply outKept_ite
    | simp only [kept_mk, true_or]
    | split
    | intro _)

theorem State.dieFresh_kept {φ : Frame} {s : State} {d : Die} (hm : Sub 0x1623f4501ff03fb08 φ.fx) (h1 : s.Kept φ) :
    State.Kept φ (State.dieFresh s d) := by
  unfold State.dieFresh
  try dsimp only
  (repeat' first
    | with_reducible assumption
    | with_reducible exact Sub.of hm (by decide)
    | with_reducible apply State.setDie_kept
    | with_reducible apply State.loseFi_kept
    | with_reducible apply State.dieLose_kept
    | with_reducible apply State.strapFeeds_kept
    | with_reducible apply kept_ite
    | with_reducible apply kept_foldl
    | with_reducible apply kept_foldl_fst
    | with_reducible apply outKept_next
    | with_reducible apply outKept_ite
    | simp only [kept_mk, true_or]
    | split
    | intro _)

theorem State.dieDown_kept {φ : Frame} {s : State} {d : Die} (hm : Sub 0x1623f4501ff03fb08 φ.fx) (h1 : s.Kept φ) :
    State.Kept φ (State.dieDown s d) := by
  unfold State.dieDown
  try dsimp only
  (repeat' first
    | with_reducible assumption
    | with_reducible exact Sub.of hm (by decide)
    | with_reducible apply State.loseFi_kept
    | with_reducible apply State.dieLose_kept
    | with_reducible apply kept_ite
    | with_reducible apply kept_foldl
    | with_reducible apply kept_foldl_fst
    | with_reducible apply outKept_next
    | with_reducible apply outKept_ite
    | simp only [kept_mk, true_or]
    | split
    | intro _)

theorem State.enterCmnSafe_kept {φ : Frame} {s : State} (hm : Sub 0x162294e0000800108 φ.fx) (h1 : s.Kept φ) :
    State.Kept φ (State.enterCmnSafe s) := by
  unfold State.enterCmnSafe
  try dsimp only
  (repeat' first
    | with_reducible assumption
    | with_reducible exact Sub.of hm (by decide)
    | with_reducible apply State.setShBit_kept
    | with_reducible apply State.forEach_kept
    | with_reducible apply State.canEndQueue_kept
    | with_reducible apply State.dropCmnWork_kept
    | with_reducible apply State.disposeAll_kept
    | with_reducible apply kept_ite
    | with_reducible apply kept_foldl
    | with_reducible apply kept_foldl_fst
    | with_reducible apply outKept_next
    | with_reducible apply outKept_ite
    | simp only [kept_mk, hm.bit 23 rfl, hm.bit 41 rfl, hm.bit 43 rfl, or_true, true_or]
    | split
    | intro _)

theorem execDieRestart_kept {φ : Frame} {d : Die} {up : Bool} {s : State} (hm : Sub 0x1623f4501ff03fb08 φ.fx) (h1 :
    s.Kept φ) :
    OutKept φ (execDieRestart d up s) := by
  unfold execDieRestart
  try dsimp only
  (repeat' first
    | with_reducible assumption
    | with_reducible exact Sub.of hm (by decide)
    | with_reducible apply State.dieFresh_kept
    | with_reducible apply State.dieDown_kept
    | with_reducible apply kept_ite
    | with_reducible apply kept_foldl
    | with_reducible apply kept_foldl_fst
    | with_reducible apply outKept_next
    | with_reducible apply outKept_ite
    | simp only [kept_mk, true_or]
    | split
    | intro _)

theorem execBarrierRestart_kept {φ : Frame} {s : State} (hm : Sub 0x1623f4501ff03fb08 φ.fx) (h1 : s.Kept φ) :
    OutKept φ (execBarrierRestart s) := by
  unfold execBarrierRestart
  try dsimp only
  (repeat' first
    | with_reducible assumption
    | with_reducible exact Sub.of hm (by decide)
    | with_reducible apply State.dieFresh_kept
    | with_reducible apply kept_ite
    | with_reducible apply kept_foldl
    | with_reducible apply kept_foldl_fst
    | with_reducible apply outKept_next
    | with_reducible apply outKept_ite
    | simp only [kept_mk, true_or]
    | split
    | intro _)

theorem execCommandLinkClockLoss_kept {φ : Frame} {d : Die} {l : Lane} {s : State} (hm : Sub 0x1f800 φ.fx) (h1 :
    s.Kept φ) :
    OutKept φ (execCommandLinkClockLoss d l s) := by
  unfold execCommandLinkClockLoss
  try dsimp only
  (repeat' first
    | with_reducible assumption
    | with_reducible exact Sub.of hm (by decide)
    | with_reducible apply State.setDie_kept
    | with_reducible apply kept_ite
    | with_reducible apply kept_foldl
    | with_reducible apply kept_foldl_fst
    | with_reducible apply outKept_next
    | with_reducible apply outKept_ite
    | simp only [kept_mk, true_or]
    | split
    | intro _)

theorem State.restoreRegion_kept {φ : Frame} {s : State} {h : Lane} {block : Nat} {region : Nat} {ws : List RegCell}
    (hm : Sub 0x600 φ.fx) (h1 : s.Kept φ) :
    State.Kept φ (State.restoreRegion s h block region ws) := by
  unfold State.restoreRegion
  try dsimp only
  (repeat' first
    | with_reducible assumption
    | with_reducible exact Sub.of hm (by decide)
    | with_reducible apply State.addCommit_kept
    | with_reducible apply State.setCommits_kept
    | with_reducible apply kept_ite
    | with_reducible apply kept_foldl
    | with_reducible apply kept_foldl_fst
    | with_reducible apply outKept_next
    | with_reducible apply outKept_ite
    | simp only [kept_mk, true_or]
    | split
    | intro _)

theorem State.restoreDie_kept {φ : Frame} {s : State} {l : Lane} {d : Die} (hm : Sub 0x80000001fe00 φ.fx) (h1 : s.Kept
    φ) :
    State.Kept φ (State.restoreDie s l d) := by
  unfold State.restoreDie
  try dsimp only
  (repeat' first
    | with_reducible assumption
    | with_reducible exact Sub.of hm (by decide)
    | with_reducible apply State.restoreRegion_kept
    | with_reducible apply State.setDie_kept
    | with_reducible apply State.sendElem_kept
    | with_reducible apply kept_ite
    | with_reducible apply kept_foldl
    | with_reducible apply kept_foldl_fst
    | with_reducible apply outKept_next
    | with_reducible apply outKept_ite
    | simp only [kept_mk, true_or]
    | split
    | intro _)

theorem execUrgentCommand_kept {φ : Frame} {d : Die} {s : State} (hm : Sub 0x14000000023000108 φ.fx) (h1 : s.Kept φ) :
    OutKept φ (execUrgentCommand d s) := by
  unfold execUrgentCommand
  try dsimp only
  (repeat' first
    | with_reducible assumption
    | with_reducible exact Sub.of hm (by decide)
    | with_reducible apply State.urgentField_kept
    | with_reducible apply State.done_kept
    | with_reducible apply State.urgentPower_kept
    | with_reducible apply kept_ite
    | with_reducible apply kept_foldl
    | with_reducible apply kept_foldl_fst
    | with_reducible apply outKept_next
    | with_reducible apply outKept_ite
    | simp only [kept_mk, hm.bit 24 rfl, or_true, true_or]
    | split
    | intro _)

theorem State.schedStart_kept {φ : Frame} {s : State} {d : Die} {x : Nat} {late : Bool} (hm : Sub 0x22000008 φ.fx) (h1
    : s.Kept φ) :
    State.Kept φ (State.schedStart s d x late) := by
  unfold State.schedStart
  try dsimp only
  (repeat' first
    | with_reducible assumption
    | with_reducible exact Sub.of hm (by decide)
    | with_reducible apply State.startSched_kept
    | with_reducible apply State.fcStartSched_kept
    | with_reducible apply kept_ite
    | with_reducible apply kept_foldl
    | with_reducible apply kept_foldl_fst
    | with_reducible apply outKept_next
    | with_reducible apply outKept_ite
    | simp only [kept_mk, true_or]
    | split
    | intro _)

theorem execScheduledSwitch_kept {φ : Frame} {d : Die} {x : Nat} {s : State} (hm : Sub 0x22000008 φ.fx) (h1 : s.Kept
    φ) :
    OutKept φ (execScheduledSwitch d x s) := by
  unfold execScheduledSwitch
  try dsimp only
  (repeat' first
    | with_reducible assumption
    | with_reducible exact Sub.of hm (by decide)
    | with_reducible apply State.schedStart_kept
    | with_reducible apply kept_ite
    | with_reducible apply kept_foldl
    | with_reducible apply kept_foldl_fst
    | with_reducible apply outKept_next
    | with_reducible apply outKept_ite
    | simp only [kept_mk, true_or]
    | split
    | intro _)

theorem execLateSwitch_kept {φ : Frame} {d : Die} {x : Nat} {s : State} (hm : Sub 0x22000008 φ.fx) (h1 : s.Kept φ) :
    OutKept φ (execLateSwitch d x s) := by
  unfold execLateSwitch
  try dsimp only
  (repeat' first
    | with_reducible assumption
    | with_reducible exact Sub.of hm (by decide)
    | with_reducible apply State.schedStart_kept
    | with_reducible apply kept_ite
    | with_reducible apply kept_foldl
    | with_reducible apply kept_foldl_fst
    | with_reducible apply outKept_next
    | with_reducible apply outKept_ite
    | simp only [kept_mk, true_or]
    | split
    | intro _)

theorem execKeepaliveTimeout_kept {φ : Frame} {d : Die} {s : State} (hm : Sub 0x8 φ.fx) (h1 : s.Kept φ) :
    OutKept φ (execKeepaliveTimeout d s) := by
  unfold execKeepaliveTimeout
  try dsimp only
  (repeat' first
    | with_reducible assumption
    | with_reducible exact Sub.of hm (by decide)
    | with_reducible apply State.setShBit_kept
    | with_reducible apply kept_ite
    | with_reducible apply kept_foldl
    | with_reducible apply kept_foldl_fst
    | with_reducible apply outKept_next
    | with_reducible apply outKept_ite
    | simp only [kept_mk, true_or]
    | split
    | intro _)

theorem execFailAction_kept {φ : Frame} {d : Die} {s : State} (hm : Sub 0x22000008 φ.fx) (h1 : s.Kept φ) :
    OutKept φ (execFailAction d s) := by
  unfold execFailAction
  try dsimp only
  (repeat' first
    | with_reducible assumption
    | with_reducible exact Sub.of hm (by decide)
    | with_reducible apply State.failPower_kept
    | with_reducible apply State.failField_kept
    | with_reducible apply kept_ite
    | with_reducible apply kept_foldl
    | with_reducible apply kept_foldl_fst
    | with_reducible apply outKept_next
    | with_reducible apply outKept_ite
    | simp only [kept_mk, true_or]
    | split
    | intro _)

theorem State.evIrq_kept {φ : Frame} {s : State} {l : Lane} {arg : Nat} (hm : Sub 0x48 φ.fx) (h1 : s.Kept φ) :
    State.Kept φ (State.evIrq s l arg) := by
  unfold State.evIrq
  try dsimp only
  (repeat' first
    | with_reducible assumption
    | with_reducible exact Sub.of hm (by decide)
    | with_reducible apply State.irq_kept
    | with_reducible apply State.alarm_kept
    | with_reducible apply State.count_kept
    | with_reducible apply kept_ite
    | with_reducible apply kept_foldl
    | with_reducible apply kept_foldl_fst
    | with_reducible apply outKept_next
    | with_reducible apply outKept_ite
    | simp only [kept_mk, true_or]
    | split
    | intro _)

theorem execTideEventFire_kept {φ : Frame} {l : Lane} {i : Nat} {delay : Nat} {s : State} (hm : Sub 0xc0000c000000048
    φ.fx) (h1 : s.Kept φ) :
    OutKept φ (execTideEventFire l i delay s) := by
  unfold execTideEventFire
  try dsimp only
  (repeat' first
    | with_reducible assumption
    | with_reducible exact Sub.of hm (by decide)
    | with_reducible apply State.evIrq_kept
    | with_reducible apply State.setFld_kept
    | with_reducible apply State.pwmLoad_kept
    | with_reducible apply State.evFired_kept
    | with_reducible apply State.harbTrigger_kept
    | with_reducible apply State.startSeq_kept
    | with_reducible apply State.count_kept
    | with_reducible apply kept_ite
    | with_reducible apply kept_foldl
    | with_reducible apply kept_foldl_fst
    | with_reducible apply outKept_next
    | with_reducible apply outKept_ite
    | simp only [kept_mk, true_or]
    | split
    | intro _)

end Sys2Proof.Machine
end

