-- ==== Sys2Proof/Laws/KeptClocks.lean ====
section
/-! SUPPORT. The operations of Clocks.lean keep the invariant, the queue and the time. -/

namespace Sys2Proof.Machine

theorem State.setDom_kept {φ : Frame} {s : State} {l : Lane} {n : Nat} {f : Fld} {b : Bool} (hm : Sub 0x8 φ.fx) (h1 :
    s.Kept φ) :
    State.Kept φ (State.setDom s l n f b) := by
  unfold State.setDom
  try dsimp only
  (repeat' first
    | with_reducible assumption
    | with_reducible exact Sub.of hm (by decide)
    | with_reducible apply State.setBitF_kept
    | with_reducible apply kept_ite
    | with_reducible apply kept_foldl
    | with_reducible apply kept_foldl_fst
    | with_reducible apply outKept_next
    | with_reducible apply outKept_ite
    | simp only [kept_mk, true_or]
    | split
    | intro _)

theorem State.releaseDomains_kept {φ : Frame} {s : State} {l : Lane} (hm : Sub 0x180000 φ.fx) (h1 : s.Kept φ) :
    State.Kept φ (State.releaseDomains s l) := by
  unfold State.releaseDomains
  try dsimp only
  (repeat' first
    | with_reducible assumption
    | with_reducible exact Sub.of hm (by decide)
    | with_reducible apply State.setLane_kept
    | with_reducible apply kept_ite
    | with_reducible apply kept_foldl
    | with_reducible apply kept_foldl_fst
    | with_reducible apply outKept_next
    | with_reducible apply outKept_ite
    | simp only [kept_mk, true_or]
    | split
    | intro _)

theorem execClkGood_kept {φ : Frame} {l : Lane} {n : Nat} {count : Nat} {s : State} (hm : Sub 0x180008 φ.fx) (h1 :
    s.Kept φ) :
    OutKept φ (execClkGood l n count s) := by
  unfold execClkGood
  try dsimp only
  (repeat' first
    | with_reducible assumption
    | with_reducible exact Sub.of hm (by decide)
    | with_reducible apply State.setFld_kept
    | with_reducible apply State.releaseDomains_kept
    | with_reducible apply State.setDom_kept
    | with_reducible apply kept_ite
    | with_reducible apply kept_foldl
    | with_reducible apply kept_foldl_fst
    | with_reducible apply outKept_next
    | with_reducible apply outKept_ite
    | simp only [kept_mk, true_or]
    | split
    | intro _)

theorem State.clkFail_kept {φ : Frame} {s : State} {l : Lane} {n : Nat} (hm : Sub 0x8 φ.fx) (h1 : s.Kept φ) :
    State.Kept φ (State.clkFail s l n) := by
  unfold State.clkFail
  try dsimp only
  (repeat' first
    | with_reducible assumption
    | with_reducible exact Sub.of hm (by decide)
    | with_reducible apply State.setBitF_kept
    | with_reducible apply State.setDom_kept
    | with_reducible apply kept_ite
    | with_reducible apply kept_foldl
    | with_reducible apply kept_foldl_fst
    | with_reducible apply outKept_next
    | with_reducible apply outKept_ite
    | simp only [kept_mk, true_or]
    | split
    | intro _)

theorem execClkFail_kept {φ : Frame} {l : Lane} {n : Nat} {s : State} (hm : Sub 0x180008 φ.fx) (h1 : s.Kept φ) :
    OutKept φ (execClkFail l n s) := by
  unfold execClkFail
  try dsimp only
  (repeat' first
    | with_reducible assumption
    | with_reducible exact Sub.of hm (by decide)
    | with_reducible apply State.clkFail_kept
    | with_reducible apply State.releaseDomains_kept
    | with_reducible apply kept_ite
    | with_reducible apply kept_foldl
    | with_reducible apply kept_foldl_fst
    | with_reducible apply outKept_next
    | with_reducible apply outKept_ite
    | simp only [kept_mk, true_or]
    | split
    | intro _)

theorem execXtalOk_kept {φ : Frame} {l : Lane} {s : State} (hm : Sub 0x8 φ.fx) (h1 : s.Kept φ) :
    OutKept φ (execXtalOk l s) := by
  unfold execXtalOk
  try dsimp only
  (repeat' first
    | with_reducible assumption
    | with_reducible exact Sub.of hm (by decide)
    | with_reducible apply State.setReg_kept
    | with_reducible apply State.setFld_kept
    | with_reducible apply State.setBitF_kept
    | with_reducible apply State.setDom_kept
    | with_reducible apply kept_ite
    | with_reducible apply kept_foldl
    | with_reducible apply kept_foldl_fst
    | with_reducible apply outKept_next
    | with_reducible apply outKept_ite
    | simp only [kept_mk, true_or]
    | split
    | intro _)

theorem execXtalFail_kept {φ : Frame} {l : Lane} {s : State} (hm : Sub 0x8 φ.fx) (h1 : s.Kept φ) :
    OutKept φ (execXtalFail l s) := by
  unfold execXtalFail
  try dsimp only
  (repeat' first
    | with_reducible assumption
    | with_reducible exact Sub.of hm (by decide)
    | with_reducible apply State.setReg_kept
    | with_reducible apply State.setBitF_kept
    | with_reducible apply kept_ite
    | with_reducible apply kept_foldl
    | with_reducible apply kept_foldl_fst
    | with_reducible apply outKept_next
    | with_reducible apply outKept_ite
    | simp only [kept_mk, true_or]
    | split
    | intro _)

theorem execClockMonitorFault_kept {φ : Frame} {l : Lane} {n : Nat} {count : Nat} {s : State} (hm : Sub
    0x17efdce0fafc007a035c φ.fx) (h1 : s.Kept φ) :
    OutKept φ (execClockMonitorFault l n count s) := by
  unfold execClockMonitorFault
  try dsimp only
  (repeat' first
    | with_reducible assumption
    | with_reducible exact Sub.of hm (by decide)
    | with_reducible apply State.clkFail_kept
    | with_reducible apply State.setFld_kept
    | with_reducible apply State.laneReset_kept
    | with_reducible apply State.tamper_kept
    | with_reducible apply State.setDom_kept
    | with_reducible apply kept_ite
    | with_reducible apply kept_foldl
    | with_reducible apply kept_foldl_fst
    | with_reducible apply outKept_next
    | with_reducible apply outKept_ite
    | simp only [kept_mk, true_or]
    | split
    | intro _)

theorem State.settleResets_kept {φ : Frame} {s : State} {l : Lane} (hm : Sub 0x14000000000180108 φ.fx) (h1 : s.Kept φ)
    :
    State.Kept φ (State.settleResets s l) := by
  unfold State.settleResets
  try dsimp only
  (repeat' first
    | with_reducible assumption
    | with_reducible exact Sub.of hm (by decide)
    | with_reducible apply State.setLane_kept
    | with_reducible apply State.done_kept
    | with_reducible apply State.forEach_kept
    | with_reducible apply kept_ite
    | with_reducible apply kept_foldl
    | with_reducible apply kept_foldl_fst
    | with_reducible apply outKept_next
    | with_reducible apply outKept_ite
    | simp only [kept_mk, true_or]
    | split
    | intro _)

theorem State.settleTests_kept {φ : Frame} {s : State} {l : Lane} (hm : Sub 0x114000000000000108 φ.fx) (h1 : s.Kept φ)
    :
    State.Kept φ (State.settleTests s l) := by
  unfold State.settleTests
  try dsimp only
  (repeat' first
    | with_reducible assumption
    | with_reducible exact Sub.of hm (by decide)
    | with_reducible apply State.disposeAll_kept
    | with_reducible apply kept_ite
    | with_reducible apply kept_foldl
    | with_reducible apply kept_foldl_fst
    | with_reducible apply outKept_next
    | with_reducible apply outKept_ite
    | simp only [kept_mk, hm.bit 68 rfl, or_true, true_or]
    | split
    | intro _)

theorem State.showStraps_kept {φ : Frame} {s : State} {l : Lane} (hm : Sub 0x8 φ.fx) (h1 : s.Kept φ) :
    State.Kept φ (State.showStraps s l) := by
  unfold State.showStraps
  try dsimp only
  (repeat' first
    | with_reducible assumption
    | with_reducible exact Sub.of hm (by decide)
    | with_reducible apply State.reloadShadow_kept
    | with_reducible apply State.setFld_kept
    | with_reducible apply State.setBitF_kept
    | with_reducible apply kept_ite
    | with_reducible apply kept_foldl
    | with_reducible apply kept_foldl_fst
    | with_reducible apply outKept_next
    | with_reducible apply outKept_ite
    | simp only [kept_mk, true_or]
    | split
    | intro _)

theorem State.deepRelease_kept {φ : Frame} {s : State} {l : Lane} {por : Bool} {badSlots : Nat} (hm : Sub
    0xd7efdce0fafc007a035c φ.fx) (h1 : s.Kept φ) :
    State.Kept φ (State.deepRelease s l por badSlots) := by
  unfold State.deepRelease
  try dsimp only
  (repeat' first
    | with_reducible assumption
    | with_reducible exact Sub.of hm (by decide)
    | with_reducible apply State.setReg_kept
    | with_reducible apply State.setBitF_kept
    | with_reducible apply State.syncQuota_kept
    | with_reducible apply State.clearMem_kept
    | with_reducible apply State.forEach_kept
    | with_reducible apply State.showStraps_kept
    | with_reducible apply State.takeAon_kept
    | with_reducible apply State.parLoad_kept
    | with_reducible apply kept_ite
    | with_reducible apply kept_foldl
    | with_reducible apply kept_foldl_fst
    | with_reducible apply outKept_next
    | with_reducible apply outKept_ite
    | simp only [kept_mk, true_or]
    | split
    | intro _)

theorem State.elderStart_kept {φ : Frame} {s : State} {l : Lane} {badSlots : Nat} (hm : Sub 0xd7ffdce0fafc007a035c
    φ.fx) (h1 : s.Kept φ) :
    State.Kept φ (State.elderStart s l badSlots) := by
  unfold State.elderStart
  try dsimp only
  (repeat' first
    | with_reducible assumption
    | with_reducible exact Sub.of hm (by decide)
    | with_reducible apply State.setReg_kept
    | with_reducible apply State.settleTests_kept
    | with_reducible apply State.setLane_kept
    | with_reducible apply State.settleResets_kept
    | with_reducible apply State.setFld_kept
    | with_reducible apply State.syncPairs_kept
    | with_reducible apply State.setLst_kept
    | with_reducible apply State.syncLedgLane_kept
    | with_reducible apply State.deepRelease_kept
    | with_reducible apply kept_ite
    | with_reducible apply kept_foldl
    | with_reducible apply kept_foldl_fst
    | with_reducible apply outKept_next
    | with_reducible apply outKept_ite
    | simp only [kept_mk, true_or]
    | split
    | intro _)

theorem execElderReleased_kept {φ : Frame} {l : Lane} {badSlots : Nat} {s : State} (hm : Sub 0xd7ffdce0fafc007a035c
    φ.fx) (h1 : s.Kept φ) :
    OutKept φ (execElderReleased l badSlots s) := by
  unfold execElderReleased
  try dsimp only
  (repeat' first
    | with_reducible assumption
    | with_reducible exact Sub.of hm (by decide)
    | with_reducible apply State.elderStart_kept
    | with_reducible apply kept_ite
    | with_reducible apply kept_foldl
    | with_reducible apply kept_foldl_fst
    | with_reducible apply outKept_next
    | with_reducible apply outKept_ite
    | simp only [kept_mk, true_or]
    | split
    | intro _)

theorem execCoreResetRelease_kept {φ : Frame} {l : Lane} {s : State} (hm : Sub 0x180000 φ.fx) (h1 : s.Kept φ) :
    OutKept φ (execCoreResetRelease l s) := by
  unfold execCoreResetRelease
  try dsimp only
  (repeat' first
    | with_reducible assumption
    | with_reducible exact Sub.of hm (by decide)
    | with_reducible apply State.setLane_kept
    | with_reducible apply kept_ite
    | with_reducible apply kept_foldl
    | with_reducible apply kept_foldl_fst
    | with_reducible apply outKept_next
    | with_reducible apply outKept_ite
    | simp only [kept_mk, true_or]
    | split
    | intro _)

theorem State.wdtRestart_kept {φ : Frame} {s : State} {l : Lane} {n : Nat} (hm : Sub 0x8 φ.fx) (h1 : s.Kept φ) :
    State.Kept φ (State.wdtRestart s l n) := by
  unfold State.wdtRestart
  try dsimp only
  (repeat' first
    | with_reducible assumption
    | with_reducible exact Sub.of hm (by decide)
    | with_reducible apply State.setFld_kept
    | with_reducible apply kept_ite
    | with_reducible apply kept_foldl
    | with_reducible apply kept_foldl_fst
    | with_reducible apply outKept_next
    | with_reducible apply outKept_ite
    | simp only [kept_mk, true_or]
    | split
    | intro _)

theorem State.wdtExpire_kept {φ : Frame} {s : State} {l : Lane} {n : Nat} (hm : Sub 0x16cfdce0fafc005a0358 φ.fx) (h1 :
    s.Kept φ) :
    State.Kept φ (State.wdtExpire s l n) := by
  unfold State.wdtExpire
  try dsimp only
  (repeat' first
    | with_reducible assumption
    | with_reducible exact Sub.of hm (by decide)
    | with_reducible apply State.laneReset_kept
    | with_reducible apply State.wdtRestart_kept
    | with_reducible apply kept_ite
    | with_reducible apply kept_foldl
    | with_reducible apply kept_foldl_fst
    | with_reducible apply outKept_next
    | with_reducible apply outKept_ite
    | simp only [kept_mk, true_or]
    | split
    | intro _)

theorem execWdtKick_kept {φ : Frame} {l : Lane} {n : Nat} {key : Nat} {remain : Nat} {s : State} (hm : Sub
    0x16cfdce0fafc005a0358 φ.fx) (h1 : s.Kept φ) :
    OutKept φ (execWdtKick l n key remain s) := by
  unfold execWdtKick
  try dsimp only
  (repeat' first
    | with_reducible assumption
    | with_reducible exact Sub.of hm (by decide)
    | with_reducible apply State.wdtExpire_kept
    | with_reducible apply State.wdtRestart_kept
    | with_reducible apply kept_ite
    | with_reducible apply kept_foldl
    | with_reducible apply kept_foldl_fst
    | with_reducible apply outKept_next
    | with_reducible apply outKept_ite
    | simp only [kept_mk, true_or]
    | split
    | intro _)

theorem execWatchdogExpiry_kept {φ : Frame} {l : Lane} {n : Nat} {s : State} (hm : Sub 0x16cfdce0fafc005a0358 φ.fx)
    (h1 : s.Kept φ) :
    OutKept φ (execWatchdogExpiry l n s) := by
  unfold execWatchdogExpiry
  try dsimp only
  (repeat' first
    | with_reducible assumption
    | with_reducible exact Sub.of hm (by decide)
    | with_reducible apply State.wdtExpire_kept
    | with_reducible apply kept_ite
    | with_reducible apply kept_foldl
    | with_reducible apply kept_foldl_fst
    | with_reducible apply outKept_next
    | with_reducible apply outKept_ite
    | simp only [kept_mk, true_or]
    | split
    | intro _)

theorem State.rstcReq_kept {φ : Frame} {s : State} {l : Lane} {who : Initiator} {value : Word} {code : Nat} {lvl :
    RLevel} (hm : Sub 0x16cfdce0fafc005a0358 φ.fx) (h1 : s.Kept φ) :
    State.Kept φ (State.rstcReq s l who value code lvl) := by
  unfold State.rstcReq
  try dsimp only
  (repeat' first
    | with_reducible assumption
    | with_reducible exact Sub.of hm (by decide)
    | with_reducible apply State.laneReset_kept
    | with_reducible apply kept_ite
    | with_reducible apply kept_foldl
    | with_reducible apply kept_foldl_fst
    | with_reducible apply outKept_next
    | with_reducible apply outKept_ite
    | simp only [kept_mk, true_or]
    | split
    | intro _)

theorem execRstcReqCore_kept {φ : Frame} {l : Lane} {who : Initiator} {value : Word} {s : State} (hm : Sub
    0x16cfdce0fafc005a0378 φ.fx) (h1 : s.Kept φ) :
    OutKept φ (execRstcReqCore l who value s) := by
  unfold execRstcReqCore
  try dsimp only
  (repeat' first
    | with_reducible assumption
    | with_reducible exact Sub.of hm (by decide)
    | with_reducible apply State.busOk_kept
    | with_reducible apply State.rstcReq_kept
    | with_reducible apply kept_ite
    | with_reducible apply kept_foldl
    | with_reducible apply kept_foldl_fst
    | with_reducible apply outKept_next
    | with_reducible apply outKept_ite
    | simp only [kept_mk, true_or]
    | split
    | intro _)

theorem execRstcReqSys_kept {φ : Frame} {l : Lane} {who : Initiator} {value : Word} {s : State} (hm : Sub
    0x16cfdce0fafc005a0378 φ.fx) (h1 : s.Kept φ) :
    OutKept φ (execRstcReqSys l who value s) := by
  unfold execRstcReqSys
  try dsimp only
  (repeat' first
    | with_reducible assumption
    | with_reducible exact Sub.of hm (by decide)
    | with_reducible apply State.busOk_kept
    | with_reducible apply State.rstcReq_kept
    | with_reducible apply kept_ite
    | with_reducible apply kept_foldl
    | with_reducible apply kept_foldl_fst
    | with_reducible apply outKept_next
    | with_reducible apply outKept_ite
    | simp only [kept_mk, true_or]
    | split
    | intro _)

theorem State.blkTyped_kept {φ : Frame} {s : State} {old : State} {l : Lane} {bit : Nat} (hm : Sub 0x39ce030cc00000008
    φ.fx) (h1 : s.Kept φ) (h2 : old.Kept φ) :
    State.Kept φ (State.blkTyped s old l bit) := by
  unfold State.blkTyped
  try dsimp only
  (repeat' first
    | with_reducible assumption
    | with_reducible exact Sub.of hm (by decide)
    | with_reducible apply State.setCvc_kept
    | with_reducible apply State.clearCanRx_kept
    | with_reducible apply State.keepUpd_kept
    | with_reducible apply kept_ite
    | with_reducible apply kept_foldl
    | with_reducible apply kept_foldl_fst
    | with_reducible apply outKept_next
    | with_reducible apply outKept_ite
    | simp only [kept_mk, hm.bit 34 rfl, hm.bit 35 rfl, hm.bit 53 rfl, hm.bit 54 rfl, hm.bit 55 rfl, hm.bit 58 rfl,
      hm.bit 59 rfl, hm.bit 60 rfl, hm.bit 63 rfl, hm.bit 64 rfl, hm.bit 65 rfl, or_true, true_or]
    | split
    | intro _)

theorem State.blockReset_kept {φ : Frame} {s : State} {l : Lane} {bit : Nat} (hm : Sub 0x3dce030cc00180308 φ.fx) (h1 :
    s.Kept φ) :
    State.Kept φ (State.blockReset s l bit) := by
  unfold State.blockReset
  try dsimp only
  (repeat' first
    | with_reducible assumption
    | with_reducible exact Sub.of hm (by decide)
    | with_reducible apply State.resetBlock_kept
    | with_reducible apply State.resetWork_kept
    | with_reducible apply State.setLane_kept
    | with_reducible apply State.setFld_kept
    | with_reducible apply State.blkTyped_kept
    | with_reducible apply State.forEach_kept
    | with_reducible apply kept_ite
    | with_reducible apply kept_foldl
    | with_reducible apply kept_foldl_fst
    | with_reducible apply outKept_next
    | with_reducible apply outKept_ite
    | simp only [kept_mk, true_or]
    | split
    | intro _)

theorem execBlkrstWrite_kept {φ : Frame} {l : Lane} {who : Initiator} {mask : Nat} {s : State} (hm : Sub
    0x3dce030cc00180328 φ.fx) (h1 : s.Kept φ) :
    OutKept φ (execBlkrstWrite l who mask s) := by
  unfold execBlkrstWrite
  try dsimp only
  (repeat' first
    | with_reducible assumption
    | with_reducible exact Sub.of hm (by decide)
    | with_reducible apply State.forEach_kept
    | with_reducible apply State.blockReset_kept
    | with_reducible apply okBus_kept
    | with_reducible apply kept_ite
    | with_reducible apply kept_foldl
    | with_reducible apply kept_foldl_fst
    | with_reducible apply outKept_next
    | with_reducible apply outKept_ite
    | simp only [kept_mk, true_or]
    | split
    | intro _)

theorem State.blkTry_kept {φ : Frame} {s : State} {l : Lane} (hm : Sub 0x3dce030cc00180308 φ.fx) (h1 : s.Kept φ) :
    State.Kept φ (State.blkTry s l) := by
  unfold State.blkTry
  try dsimp only
  (repeat' first
    | with_reducible assumption
    | with_reducible exact Sub.of hm (by decide)
    | with_reducible apply State.setLane_kept
    | with_reducible apply State.blockReset_kept
    | with_reducible apply kept_ite
    | with_reducible apply kept_foldl
    | with_reducible apply kept_foldl_fst
    | with_reducible apply outKept_next
    | with_reducible apply outKept_ite
    | simp only [kept_mk, true_or]
    | split
    | intro _)

theorem execBlockResetRelease_kept {φ : Frame} {l : Lane} {bit : Nat} {s : State} (hm : Sub 0x14000000000180108 φ.fx)
    (h1 : s.Kept φ) :
    OutKept φ (execBlockResetRelease l bit s) := by
  unfold execBlockResetRelease
  try dsimp only
  (repeat' first
    | with_reducible assumption
    | with_reducible exact Sub.of hm (by decide)
    | with_reducible apply State.setLane_kept
    | with_reducible apply State.reloadShadow_kept
    | with_reducible apply State.setFld_kept
    | with_reducible apply State.setBitF_kept
    | with_reducible apply State.forEach_kept
    | with_reducible apply State.disposeAll_kept
    | with_reducible apply kept_ite
    | with_reducible apply kept_foldl
    | with_reducible apply kept_foldl_fst
    | with_reducible apply outKept_next
    | with_reducible apply outKept_ite
    | simp only [kept_mk, true_or]
    | split
    | intro _)

theorem execForceCdWrite_kept {φ : Frame} {l : Lane} {who : Initiator} {mask : Nat} {s : State} (hm : Sub 0x180028
    φ.fx) (h1 : s.Kept φ) :
    OutKept φ (execForceCdWrite l who mask s) := by
  unfold execForceCdWrite
  try dsimp only
  (repeat' first
    | with_reducible assumption
    | with_reducible exact Sub.of hm (by decide)
    | with_reducible apply State.setReg_kept
    | with_reducible apply State.setLane_kept
    | with_reducible apply State.setBitF_kept
    | with_reducible apply State.forEach_kept
    | with_reducible apply okBus_kept
    | with_reducible apply State.busErr_kept
    | with_reducible apply kept_ite
    | with_reducible apply kept_foldl
    | with_reducible apply kept_foldl_fst
    | with_reducible apply outKept_next
    | with_reducible apply outKept_ite
    | simp only [kept_mk, true_or]
    | split
    | intro _)

theorem State.cmnAsk_kept {φ : Frame} {s : State} {l : Lane} (hm : Sub 0x980000 φ.fx) (h1 : s.Kept φ) :
    State.Kept φ (State.cmnAsk s l) := by
  unfold State.cmnAsk
  try dsimp only
  (repeat' first
    | with_reducible assumption
    | with_reducible exact Sub.of hm (by decide)
    | with_reducible apply State.setLane_kept
    | with_reducible apply kept_ite
    | with_reducible apply kept_foldl
    | with_reducible apply kept_foldl_fst
    | with_reducible apply outKept_next
    | with_reducible apply outKept_ite
    | simp only [kept_mk, hm.bit 23 rfl, or_true, true_or]
    | split
    | intro _)

theorem execRstcCmnRestart_kept {φ : Frame} {l : Lane} {who : Initiator} {value : Word} {s : State} (hm : Sub 0x980020
    φ.fx) (h1 : s.Kept φ) :
    OutKept φ (execRstcCmnRestart l who value s) := by
  unfold execRstcCmnRestart
  try dsimp only
  (repeat' first
    | with_reducible assumption
    | with_reducible exact Sub.of hm (by decide)
    | with_reducible apply State.cmnAsk_kept
    | with_reducible apply okBus_kept
    | with_reducible apply kept_ite
    | with_reducible apply kept_foldl
    | with_reducible apply kept_foldl_fst
    | with_reducible apply outKept_next
    | with_reducible apply outKept_ite
    | simp only [kept_mk, true_or]
    | split
    | intro _)

theorem State.answerRestart_kept {φ : Frame} {s : State} {result : Nat} (hm : Sub 0x6000d8 φ.fx) (h1 : s.Kept φ) :
    State.Kept φ (State.answerRestart s result) := by
  unfold State.answerRestart
  try dsimp only
  (repeat' first
    | with_reducible assumption
    | with_reducible exact Sub.of hm (by decide)
    | with_reducible apply State.respond_kept
    | with_reducible apply kept_ite
    | with_reducible apply kept_foldl
    | with_reducible apply kept_foldl_fst
    | with_reducible apply outKept_next
    | with_reducible apply outKept_ite
    | simp only [kept_mk, true_or]
    | split
    | intro _)

theorem execCommonsRestartReport_kept {φ : Frame} {result : Nat} {s : State} (hm : Sub 0x1623f4501ffe3fbd8 φ.fx) (h1 :
    s.Kept φ) :
    OutKept φ (execCommonsRestartReport result s) := by
  unfold execCommonsRestartReport
  try dsimp only
  (repeat' first
    | with_reducible assumption
    | with_reducible exact Sub.of hm (by decide)
    | with_reducible apply State.dieFresh_kept
    | with_reducible apply State.answerRestart_kept
    | with_reducible apply kept_ite
    | with_reducible apply kept_foldl
    | with_reducible apply kept_foldl_fst
    | with_reducible apply outKept_next
    | with_reducible apply outKept_ite
    | simp only [kept_mk, hm.bit 23 rfl, or_true, true_or]
    | split
    | intro _)

theorem specResetNonce_kept {φ : Frame}  (hm : Sub 0x180004 φ.fx)  :
    CmdSpec.Kept φ (specResetNonce ) := by
  refine ⟨?_, ?_, ?_, ?_⟩ <;> intros <;> dsimp only [specResetNonce] <;>
  (repeat' first
    | with_reducible assumption
    | with_reducible exact Sub.of hm (by decide)
    | with_reducible apply State.setLane_kept
    | with_reducible apply State.tickFree_kept
    | with_reducible apply kept_ite
    | with_reducible apply kept_foldl
    | with_reducible apply kept_foldl_fst
    | with_reducible apply outKept_next
    | with_reducible apply outKept_ite
    | simp only [kept_mk, true_or]
    | split
    | intro _)

theorem State.resetTarget_kept {φ : Frame} {s : State} {me : Lane} {l : Lane} {lvl : RLevel} {detail : Nat} {lsn :
    Nat} (hm : Sub 0x14000000000180188 φ.fx) (h1 : s.Kept φ) :
    State.Kept φ (State.resetTarget s me l lvl detail lsn) := by
  unfold State.resetTarget
  try dsimp only
  (repeat' first
    | with_reducible assumption
    | with_reducible exact Sub.of hm (by decide)
    | with_reducible apply State.setLane_kept
    | with_reducible apply State.dispose_kept
    | with_reducible apply State.emit_kept
    | with_reducible apply kept_ite
    | with_reducible apply kept_foldl
    | with_reducible apply kept_foldl_fst
    | with_reducible apply outKept_next
    | with_reducible apply outKept_ite
    | simp only [kept_mk, true_or]
    | split
    | intro _)

theorem specReset_kept {φ : Frame}  (hm : Sub 0x17efdce0fafc007a03dc φ.fx)  :
    CmdSpec.Kept φ (specReset ) := by
  refine ⟨?_, ?_, ?_, ?_⟩ <;> intros <;> dsimp only [specReset] <;>
  (repeat' first
    | with_reducible assumption
    | with_reducible exact Sub.of hm (by decide)
    | with_reducible apply noteToken_kept
    | with_reducible apply State.setLane_kept
    | with_reducible apply State.resetTarget_kept
    | with_reducible apply kept_ite
    | with_reducible apply kept_foldl
    | with_reducible apply kept_foldl_fst
    | with_reducible apply outKept_next
    | with_reducible apply outKept_ite
    | simp only [kept_mk, true_or]
    | split
    | intro _)

theorem specClockStatus_kept {φ : Frame}  (hm : Sub 0x4 φ.fx)  :
    CmdSpec.Kept φ (specClockStatus ) := by
  refine ⟨?_, ?_, ?_, ?_⟩ <;> intros <;> dsimp only [specClockStatus] <;>
  (repeat' first
    | with_reducible assumption
    | with_reducible exact Sub.of hm (by decide)
    | with_reducible apply State.tickFree_kept
    | with_reducible apply kept_ite
    | with_reducible apply kept_foldl
    | with_reducible apply kept_foldl_fst
    | with_reducible apply outKept_next
    | with_reducible apply outKept_ite
    | simp only [kept_mk, true_or]
    | split
    | intro _)

theorem specResetCause_kept {φ : Frame}  (hm : Sub 0x4 φ.fx)  :
    CmdSpec.Kept φ (specResetCause ) := by
  refine ⟨?_, ?_, ?_, ?_⟩ <;> intros <;> dsimp only [specResetCause] <;>
  (repeat' first
    | with_reducible assumption
    | with_reducible exact Sub.of hm (by decide)
    | with_reducible apply State.tickFree_kept
    | with_reducible apply kept_ite
    | with_reducible apply kept_foldl
    | with_reducible apply kept_foldl_fst
    | with_reducible apply outKept_next
    | with_reducible apply outKept_ite
    | simp only [kept_mk, true_or]
    | split
    | intro _)

theorem specBlockReset_kept {φ : Frame}  (hm : Sub 0x3dce030cc00180308 φ.fx)  :
    CmdSpec.Kept φ (specBlockReset ) := by
  refine ⟨?_, ?_, ?_, ?_⟩ <;> intros <;> dsimp only [specBlockReset] <;>
  (repeat' first
    | with_reducible assumption
    | with_reducible exact Sub.of hm (by decide)
    | with_reducible apply State.setLane_kept
    | with_reducible apply State.blkTry_kept
    | with_reducible apply State.dispose_kept
    | with_reducible apply kept_ite
    | with_reducible apply kept_foldl
    | with_reducible apply kept_foldl_fst
    | with_reducible apply outKept_next
    | with_reducible apply outKept_ite
    | simp only [kept_mk, true_or]
    | split
    | intro _)

theorem specWatchdogSet_kept {φ : Frame}  (hm : Sub 0x14000000000000108 φ.fx)  :
    CmdSpec.Kept φ (specWatchdogSet ) := by
  refine ⟨?_, ?_, ?_, ?_⟩ <;> intros <;> dsimp only [specWatchdogSet] <;>
  (repeat' first
    | with_reducible assumption
    | with_reducible exact Sub.of hm (by decide)
    | with_reducible apply State.setReg_kept
    | with_reducible apply State.wdtRestart_kept
    | with_reducible apply State.done_kept
    | with_reducible apply State.dispose_kept
    | with_reducible apply kept_ite
    | with_reducible apply kept_foldl
    | with_reducible apply kept_foldl_fst
    | with_reducible apply outKept_next
    | with_reducible apply outKept_ite
    | simp only [kept_mk, true_or]
    | split
    | intro _)

theorem specCommonsRestart_kept {φ : Frame}   :
    CmdSpec.Kept φ (specCommonsRestart ) := by
  refine ⟨?_, ?_, ?_, ?_⟩ <;> intros <;> dsimp only [specCommonsRestart] <;>
  (repeat' first
    | with_reducible assumption
    | with_reducible apply kept_ite
    | with_reducible apply kept_foldl
    | with_reducible apply kept_foldl_fst
    | with_reducible apply outKept_next
    | with_reducible apply outKept_ite
    | simp only [kept_mk, true_or]
    | split
    | intro _)

theorem execResetNonce_kept {φ : Frame} {r : Req} {s : State} (hm : Sub 0x17efdce0fafc007a03dc φ.fx) (h1 : s.Kept φ) :
    OutKept φ (execResetNonce r s) := by
  unfold execResetNonce
  try dsimp only
  (repeat' first
    | with_reducible assumption
    | with_reducible exact Sub.of hm (by decide)
    | with_reducible apply specResetNonce_kept
    | with_reducible apply runScs_kept
    | with_reducible apply kept_ite
    | with_reducible apply kept_foldl
    | with_reducible apply kept_foldl_fst
    | with_reducible apply outKept_next
    | with_reducible apply outKept_ite
    | simp only [kept_mk, true_or]
    | split
    | intro _)

theorem execReset_kept {φ : Frame} {r : Req} {s : State} (hm : Sub 0x17efdce0fafc007a03dc φ.fx) (h1 : s.Kept φ) :
    OutKept φ (execReset r s) := by
  unfold execReset
  try dsimp only
  (repeat' first
    | with_reducible assumption
    | with_reducible exact Sub.of hm (by decide)
    | with_reducible apply specReset_kept
    | with_reducible apply runScs_kept
    | with_reducible apply kept_ite
    | with_reducible apply kept_foldl
    | with_reducible apply kept_foldl_fst
    | with_reducible apply outKept_next
    | with_reducible apply outKept_ite
    | simp only [kept_mk, true_or]
    | split
    | intro _)

theorem execClockStatus_kept {φ : Frame} {r : Req} {s : State} (hm : Sub 0x17efdce0fafc007a03dc φ.fx) (h1 : s.Kept φ)
    :
    OutKept φ (execClockStatus r s) := by
  unfold execClockStatus
  try dsimp only
  (repeat' first
    | with_reducible assumption
    | with_reducible exact Sub.of hm (by decide)
    | with_reducible apply specClockStatus_kept
    | with_reducible apply runScs_kept
    | with_reducible apply kept_ite
    | with_reducible apply kept_foldl
    | with_reducible apply kept_foldl_fst
    | with_reducible apply outKept_next
    | with_reducible apply outKept_ite
    | simp only [kept_mk, true_or]
    | split
    | intro _)

theorem execResetCause_kept {φ : Frame} {r : Req} {s : State} (hm : Sub 0x17efdce0fafc007a03dc φ.fx) (h1 : s.Kept φ) :
    OutKept φ (execResetCause r s) := by
  unfold execResetCause
  try dsimp only
  (repeat' first
    | with_reducible assumption
    | with_reducible exact Sub.of hm (by decide)
    | with_reducible apply runScs_kept
    | with_reducible apply specResetCause_kept
    | with_reducible apply kept_ite
    | with_reducible apply kept_foldl
    | with_reducible apply kept_foldl_fst
    | with_reducible apply outKept_next
    | with_reducible apply outKept_ite
    | simp only [kept_mk, true_or]
    | split
    | intro _)

theorem execBlockReset_kept {φ : Frame} {r : Req} {s : State} (hm : Sub 0x17efdce0fafc007a03dc φ.fx) (h1 : s.Kept φ) :
    OutKept φ (execBlockReset r s) := by
  unfold execBlockReset
  try dsimp only
  (repeat' first
    | with_reducible assumption
    | with_reducible exact Sub.of hm (by decide)
    | with_reducible apply specBlockReset_kept
    | with_reducible apply runScs_kept
    | with_reducible apply kept_ite
    | with_reducible apply kept_foldl
    | with_reducible apply kept_foldl_fst
    | with_reducible apply outKept_next
    | with_reducible apply outKept_ite
    | simp only [kept_mk, true_or]
    | split
    | intro _)

theorem execWatchdogSet_kept {φ : Frame} {r : Req} {s : State} (hm : Sub 0x17efdce0fafc007a03dc φ.fx) (h1 : s.Kept φ)
    :
    OutKept φ (execWatchdogSet r s) := by
  unfold execWatchdogSet
  try dsimp only
  (repeat' first
    | with_reducible assumption
    | with_reducible exact Sub.of hm (by decide)
    | with_reducible apply specWatchdogSet_kept
    | with_reducible apply runScs_kept
    | with_reducible apply kept_ite
    | with_reducible apply kept_foldl
    | with_reducible apply kept_foldl_fst
    | with_reducible apply outKept_next
    | with_reducible apply outKept_ite
    | simp only [kept_mk, true_or]
    | split
    | intro _)

theorem execCommonsRestart_kept {φ : Frame} {r : Req} {s : State} (hm : Sub 0x17efdce0fafc00fa03dc φ.fx) (h1 : s.Kept
    φ) :
    OutKept φ (execCommonsRestart r s) := by
  unfold execCommonsRestart
  try dsimp only
  (repeat' first
    | with_reducible assumption
    | with_reducible exact Sub.of hm (by decide)
    | with_reducible apply specCommonsRestart_kept
    | with_reducible apply State.keepReq_kept
    | with_reducible apply State.cmnAsk_kept
    | with_reducible apply runScs_kept
    | with_reducible apply State.count_kept
    | with_reducible apply kept_ite
    | with_reducible apply kept_foldl
    | with_reducible apply kept_foldl_fst
    | with_reducible apply outKept_next
    | with_reducible apply outKept_ite
    | simp only [kept_mk, true_or]
    | split
    | intro _)

theorem State.assertPend_kept {φ : Frame} {s : State} {l : Lane} {cause : Nat} (hm : Sub 0x16cfdce0fafc005a0358 φ.fx)
    (h1 : s.Kept φ) :
    State.Kept φ (State.assertPend s l cause) := by
  unfold State.assertPend
  try dsimp only
  (repeat' first
    | with_reducible assumption
    | with_reducible exact Sub.of hm (by decide)
    | with_reducible apply State.setLane_kept
    | with_reducible apply State.laneReset_kept
    | with_reducible apply kept_ite
    | with_reducible apply kept_foldl
    | with_reducible apply kept_foldl_fst
    | with_reducible apply outKept_next
    | with_reducible apply outKept_ite
    | simp only [kept_mk, true_or]
    | split
    | intro _)

theorem execResetMessage_kept {φ : Frame} {l : Lane} {s : State} (hm : Sub 0x16cfdce0fafc005a0358 φ.fx) (h1 : s.Kept
    φ) :
    OutKept φ (execResetMessage l s) := by
  unfold execResetMessage
  try dsimp only
  (repeat' first
    | with_reducible assumption
    | with_reducible exact Sub.of hm (by decide)
    | with_reducible apply State.assertPend_kept
    | with_reducible apply kept_ite
    | with_reducible apply kept_foldl
    | with_reducible apply kept_foldl_fst
    | with_reducible apply outKept_next
    | with_reducible apply outKept_ite
    | simp only [kept_mk, true_or]
    | split
    | intro _)

theorem execSignedResetAssert_kept {φ : Frame} {l : Lane} {s : State} (hm : Sub 0x16cfdce0fafc005a0358 φ.fx) (h1 :
    s.Kept φ) :
    OutKept φ (execSignedResetAssert l s) := by
  unfold execSignedResetAssert
  try dsimp only
  (repeat' first
    | with_reducible assumption
    | with_reducible exact Sub.of hm (by decide)
    | with_reducible apply State.assertPend_kept
    | with_reducible apply kept_ite
    | with_reducible apply kept_foldl
    | with_reducible apply kept_foldl_fst
    | with_reducible apply outKept_next
    | with_reducible apply outKept_ite
    | simp only [kept_mk, true_or]
    | split
    | intro _)

end Sys2Proof.Machine
end

