-- ==== Sys2Proof/Laws/KeptModule.lean ====
section
/-! SUPPORT. The operations of Module.lean keep the invariant, the queue and the time. -/

namespace Sys2Proof.Machine

theorem State.syncVkeep_kept {φ : Frame} {s : State} (hm : Sub 0x8 φ.fx) (h1 : s.Kept φ) :
    State.Kept φ (State.syncVkeep s) := by
  unfold State.syncVkeep
  try dsimp only
  (repeat' first
    | with_reducible assumption
    | with_reducible exact Sub.of hm (by decide)
    | with_reducible apply State.setBitBoth_kept
    | with_reducible apply kept_ite
    | with_reducible apply kept_foldl
    | with_reducible apply kept_foldl_fst
    | with_reducible apply outKept_next
    | with_reducible apply outKept_ite
    | simp only [kept_mk, true_or]
    | split
    | intro _)

theorem execVkeepInputChange_kept {φ : Frame} {l : Lane} {mv : Int} {s : State} (hm : Sub 0x800008 φ.fx) (h1 : s.Kept
    φ) :
    OutKept φ (execVkeepInputChange l mv s) := by
  unfold execVkeepInputChange
  try dsimp only
  (repeat' first
    | with_reducible assumption
    | with_reducible exact Sub.of hm (by decide)
    | with_reducible apply State.syncVkeep_kept
    | with_reducible apply State.setFldBoth_kept
    | with_reducible apply kept_ite
    | with_reducible apply kept_foldl
    | with_reducible apply kept_foldl_fst
    | with_reducible apply outKept_next
    | with_reducible apply outKept_ite
    | simp only [kept_mk, hm.bit 23 rfl, or_true, true_or]
    | split
    | intro _)

theorem execLaneSupplyLow_kept {φ : Frame} {l : Lane} {low : Bool} {s : State} (hm : Sub 0x180000 φ.fx) (h1 : s.Kept
    φ) :
    OutKept φ (execLaneSupplyLow l low s) := by
  unfold execLaneSupplyLow
  try dsimp only
  (repeat' first
    | with_reducible assumption
    | with_reducible exact Sub.of hm (by decide)
    | with_reducible apply State.setLane_kept
    | with_reducible apply kept_ite
    | with_reducible apply kept_foldl
    | with_reducible apply kept_foldl_fst
    | with_reducible apply outKept_next
    | with_reducible apply outKept_ite
    | simp only [kept_mk, true_or]
    | split
    | intro _)

theorem execSupplyWarning_kept {φ : Frame} {l : Lane} {s : State} (hm : Sub 0xc0000000000000180008 φ.fx) (h1 : s.Kept
    φ) :
    OutKept φ (execSupplyWarning l s) := by
  unfold execSupplyWarning
  try dsimp only
  (repeat' first
    | with_reducible assumption
    | with_reducible exact Sub.of hm (by decide)
    | with_reducible apply State.parFlush_kept
    | with_reducible apply State.setLane_kept
    | with_reducible apply kept_ite
    | with_reducible apply kept_foldl
    | with_reducible apply kept_foldl_fst
    | with_reducible apply outKept_next
    | with_reducible apply outKept_ite
    | simp only [kept_mk, true_or]
    | split
    | intro _)

theorem State.porRelease_kept {φ : Frame} {s : State} {l : Lane} {straps : Nat} (hm : Sub 0x980008 φ.fx) (h1 : s.Kept
    φ) :
    State.Kept φ (State.porRelease s l straps) := by
  unfold State.porRelease
  try dsimp only
  (repeat' first
    | with_reducible assumption
    | with_reducible exact Sub.of hm (by decide)
    | with_reducible apply State.setLane_kept
    | with_reducible apply State.showStraps_kept
    | with_reducible apply State.strapFeeds_kept
    | with_reducible apply kept_ite
    | with_reducible apply kept_foldl
    | with_reducible apply kept_foldl_fst
    | with_reducible apply outKept_next
    | with_reducible apply outKept_ite
    | simp only [kept_mk, hm.bit 23 rfl, or_true, true_or]
    | split
    | intro _)

theorem execLanePor_kept {φ : Frame} {l : Lane} {on : Bool} {straps : Nat} {s : State} (hm : Sub
    0x16cfdce0fafc00da0358 φ.fx) (h1 : s.Kept φ) :
    OutKept φ (execLanePor l on straps s) := by
  unfold execLanePor
  try dsimp only
  (repeat' first
    | with_reducible assumption
    | with_reducible exact Sub.of hm (by decide)
    | with_reducible apply State.setLane_kept
    | with_reducible apply State.porRelease_kept
    | with_reducible apply State.laneReset_kept
    | with_reducible apply kept_ite
    | with_reducible apply kept_foldl
    | with_reducible apply kept_foldl_fst
    | with_reducible apply outKept_next
    | with_reducible apply outKept_ite
    | simp only [kept_mk, true_or]
    | split
    | intro _)

theorem State.diesStart_kept {φ : Frame} {s : State} (hm : Sub 0x1623f4501ff03fb08 φ.fx) (h1 : s.Kept φ) :
    State.Kept φ (State.diesStart s) := by
  unfold State.diesStart
  try dsimp only
  (repeat' first
    | with_reducible assumption
    | with_reducible exact Sub.of hm (by decide)
    | with_reducible apply State.dieFresh_kept
    | with_reducible apply State.setDie_kept
    | with_reducible apply State.dieDown_kept
    | with_reducible apply kept_ite
    | with_reducible apply kept_foldl
    | with_reducible apply kept_foldl_fst
    | with_reducible apply outKept_next
    | with_reducible apply outKept_ite
    | simp only [kept_mk, true_or]
    | split
    | intro _)

theorem execPowerOn_kept {φ : Frame} {feed : Nat} {test : Bool} {s : State} (hm : Sub 0x1623f4501ff9bfb08 φ.fx) (h1 :
    s.Kept φ) :
    OutKept φ (execPowerOn feed test s) := by
  unfold execPowerOn
  try dsimp only
  (repeat' first
    | with_reducible assumption
    | with_reducible exact Sub.of hm (by decide)
    | with_reducible apply State.setLane_kept
    | with_reducible apply State.diesStart_kept
    | with_reducible apply kept_ite
    | with_reducible apply kept_foldl
    | with_reducible apply kept_foldl_fst
    | with_reducible apply outKept_next
    | with_reducible apply outKept_ite
    | simp only [kept_mk, hm.bit 23 rfl, or_true, true_or]
    | split
    | intro _)

theorem execAlwaysOnPowerLoss_kept {φ : Frame} {s : State} (hm : Sub 0x10014000000000800108 φ.fx) (h1 : s.Kept φ) :
    OutKept φ (execAlwaysOnPowerLoss s) := by
  unfold execAlwaysOnPowerLoss
  try dsimp only
  (repeat' first
    | with_reducible assumption
    | with_reducible exact Sub.of hm (by decide)
    | with_reducible apply State.startRevert_kept
    | with_reducible apply State.setSh_kept
    | with_reducible apply State.setBitBoth_kept
    | with_reducible apply State.syncVkeep_kept
    | with_reducible apply State.forEach_kept
    | with_reducible apply State.setLed_kept
    | with_reducible refine Ledger.Fresh.same (State.Kept.led (φ := φ) ?_)
    | with_reducible refine Ledger.Fresh.filter (State.Kept.led (φ := φ) ?_)
    | with_reducible refine Ledger.Fresh.map (State.Kept.led (φ := φ) ?_) ?_
    | with_reducible refine Ledger.Fresh.push (State.Kept.led (φ := φ) ?_) ?_
    | with_reducible apply kept_ite
    | with_reducible apply kept_foldl
    | with_reducible apply kept_foldl_fst
    | with_reducible apply outKept_next
    | with_reducible apply outKept_ite
    | simp only [kept_mk, hm.bit 23 rfl, or_true, true_or]
    | with_reducible refine Ledger.Fresh.same (State.Kept.led (φ := φ) ?_)
    | with_reducible refine Ledger.Fresh.filter (State.Kept.led (φ := φ) ?_)
    | with_reducible refine Ledger.Fresh.map (State.Kept.led (φ := φ) ?_) ?_
    | with_reducible refine Ledger.Fresh.push (State.Kept.led (φ := φ) ?_) ?_
    | with_reducible rfl
    | split
    | intro _)

theorem execEccError_kept {φ : Frame} {l : Lane} {struct_ : Nat} {double : Bool} {s : State} (hm : Sub
    0x16cfdce0fafc005a0358 φ.fx) (h1 : s.Kept φ) :
    OutKept φ (execEccError l struct_ double s) := by
  unfold execEccError
  try dsimp only
  (repeat' first
    | with_reducible assumption
    | with_reducible exact Sub.of hm (by decide)
    | with_reducible apply State.laneReset_kept
    | with_reducible apply State.count_kept
    | with_reducible apply kept_ite
    | with_reducible apply kept_foldl
    | with_reducible apply kept_foldl_fst
    | with_reducible apply outKept_next
    | with_reducible apply outKept_ite
    | simp only [kept_mk, true_or]
    | split
    | intro _)

theorem State.isleCritical_kept {φ : Frame} {s : State} {l : Lane} {temp : Int} (hm : Sub 0x1c0008 φ.fx) (h1 : s.Kept
    φ) :
    State.Kept φ (State.isleCritical s l temp) := by
  unfold State.isleCritical
  try dsimp only
  (repeat' first
    | with_reducible assumption
    | with_reducible exact Sub.of hm (by decide)
    | with_reducible apply State.setLane_kept
    | with_reducible apply State.setLst_kept
    | with_reducible apply kept_ite
    | with_reducible apply kept_foldl
    | with_reducible apply kept_foldl_fst
    | with_reducible apply outKept_next
    | with_reducible apply outKept_ite
    | simp only [kept_mk, hm.bit 18 rfl, or_true, true_or]
    | split
    | intro _)

theorem State.isleReduced_kept {φ : Frame} {s : State} {l : Lane} {temp : Int} (hm : Sub 0x8 φ.fx) (h1 : s.Kept φ) :
    State.Kept φ (State.isleReduced s l temp) := by
  unfold State.isleReduced
  try dsimp only
  (repeat' first
    | with_reducible assumption
    | with_reducible exact Sub.of hm (by decide)
    | with_reducible apply State.setFld_kept
    | with_reducible apply State.setDom_kept
    | with_reducible apply kept_ite
    | with_reducible apply kept_foldl
    | with_reducible apply kept_foldl_fst
    | with_reducible apply outKept_next
    | with_reducible apply outKept_ite
    | simp only [kept_mk, true_or]
    | split
    | intro _)

theorem State.isleCool_kept {φ : Frame} {s : State} {l : Lane} {temp : Int} (hm : Sub 0x980008 φ.fx) (h1 : s.Kept φ) :
    State.Kept φ (State.isleCool s l temp) := by
  unfold State.isleCool
  try dsimp only
  (repeat' first
    | with_reducible assumption
    | with_reducible exact Sub.of hm (by decide)
    | with_reducible apply State.setLane_kept
    | with_reducible apply State.porRelease_kept
    | with_reducible apply kept_ite
    | with_reducible apply kept_foldl
    | with_reducible apply kept_foldl_fst
    | with_reducible apply outKept_next
    | with_reducible apply outKept_ite
    | simp only [kept_mk, true_or]
    | split
    | intro _)

theorem State.isleTemp_kept {φ : Frame} {s : State} {l : Lane} {temp : Int} (hm : Sub 0x9c0008 φ.fx) (h1 : s.Kept φ) :
    State.Kept φ (State.isleTemp s l temp) := by
  unfold State.isleTemp
  try dsimp only
  (repeat' first
    | with_reducible assumption
    | with_reducible exact Sub.of hm (by decide)
    | with_reducible apply State.isleReduced_kept
    | with_reducible apply State.setLane_kept
    | with_reducible apply State.isleCritical_kept
    | with_reducible apply State.isleCool_kept
    | with_reducible apply kept_ite
    | with_reducible apply kept_foldl
    | with_reducible apply kept_foldl_fst
    | with_reducible apply outKept_next
    | with_reducible apply outKept_ite
    | simp only [kept_mk, true_or]
    | split
    | intro _)

theorem State.setTherm_kept {φ : Frame} {s : State} {k : Nat} {x : ThermRt} (hm : Sub 0x800000 φ.fx) (h1 : s.Kept φ) :
    State.Kept φ (State.setTherm s k x) := by
  unfold State.setTherm
  try dsimp only
  (repeat' first
    | with_reducible assumption
    | with_reducible exact Sub.of hm (by decide)
    | with_reducible apply kept_ite
    | with_reducible apply kept_foldl
    | with_reducible apply kept_foldl_fst
    | with_reducible apply outKept_next
    | with_reducible apply outKept_ite
    | simp only [kept_mk, hm.bit 23 rfl, or_true, true_or]
    | split
    | intro _)

theorem State.dieTemp_kept {φ : Frame} {s : State} {k : Nat} {temp : Int} (hm : Sub 0x1623f4501ff83fb08 φ.fx) (h1 :
    s.Kept φ) :
    State.Kept φ (State.dieTemp s k temp) := by
  unfold State.dieTemp
  try dsimp only
  (repeat' first
    | with_reducible assumption
    | with_reducible exact Sub.of hm (by decide)
    | with_reducible apply State.dieFresh_kept
    | with_reducible apply State.setTherm_kept
    | with_reducible apply kept_ite
    | with_reducible apply kept_foldl
    | with_reducible apply kept_foldl_fst
    | with_reducible apply outKept_next
    | with_reducible apply outKept_ite
    | simp only [kept_mk, true_or]
    | split
    | intro _)

theorem execJunctionThreshold_kept {φ : Frame} {loc : Nat} {temp : Int} {s : State} (hm : Sub 0x1623f4501ff9ffb08
    φ.fx) (h1 : s.Kept φ) :
    OutKept φ (execJunctionThreshold loc temp s) := by
  unfold execJunctionThreshold
  try dsimp only
  (repeat' first
    | with_reducible assumption
    | with_reducible exact Sub.of hm (by decide)
    | with_reducible apply State.dieTemp_kept
    | with_reducible apply State.isleTemp_kept
    | with_reducible apply kept_ite
    | with_reducible apply kept_foldl
    | with_reducible apply kept_foldl_fst
    | with_reducible apply outKept_next
    | with_reducible apply outKept_ite
    | simp only [kept_mk, true_or]
    | split
    | intro _)

theorem State.isleShutdown_kept {φ : Frame} {s : State} {l : Lane} {temp : Int} (hm : Sub 0x16cfdce0fafc00de0358 φ.fx)
    (h1 : s.Kept φ) :
    State.Kept φ (State.isleShutdown s l temp) := by
  unfold State.isleShutdown
  try dsimp only
  (repeat' first
    | with_reducible assumption
    | with_reducible exact Sub.of hm (by decide)
    | with_reducible apply State.setLane_kept
    | with_reducible apply State.laneReset_kept
    | with_reducible apply State.isleTemp_kept
    | with_reducible apply kept_ite
    | with_reducible apply kept_foldl
    | with_reducible apply kept_foldl_fst
    | with_reducible apply outKept_next
    | with_reducible apply outKept_ite
    | simp only [kept_mk, true_or]
    | split
    | intro _)

theorem execThermalShutdown_kept {φ : Frame} {loc : Nat} {temp : Int} {s : State} (hm : Sub 0x16cffefffffdffdffb58
    φ.fx) (h1 : s.Kept φ) :
    OutKept φ (execThermalShutdown loc temp s) := by
  unfold execThermalShutdown
  try dsimp only
  (repeat' first
    | with_reducible assumption
    | with_reducible exact Sub.of hm (by decide)
    | with_reducible apply State.setTherm_kept
    | with_reducible apply State.dieTemp_kept
    | with_reducible apply State.enterCmnSafe_kept
    | with_reducible apply State.dieDown_kept
    | with_reducible apply State.isleShutdown_kept
    | with_reducible apply kept_ite
    | with_reducible apply kept_foldl
    | with_reducible apply kept_foldl_fst
    | with_reducible apply outKept_next
    | with_reducible apply outKept_ite
    | simp only [kept_mk, true_or]
    | split
    | intro _)

theorem State.bothReset_kept {φ : Frame} {s : State} {lvl : RLevel} {cause : Nat} {detail : Nat} (hm : Sub
    0x16cfdce0fafc005a0358 φ.fx) (h1 : s.Kept φ) :
    State.Kept φ (State.bothReset s lvl cause detail) := by
  unfold State.bothReset
  try dsimp only
  (repeat' first
    | with_reducible assumption
    | with_reducible exact Sub.of hm (by decide)
    | with_reducible apply State.laneReset_kept
    | with_reducible apply kept_ite
    | with_reducible apply kept_foldl
    | with_reducible apply kept_foldl_fst
    | with_reducible apply outKept_next
    | with_reducible apply outKept_ite
    | simp only [kept_mk, true_or]
    | split
    | intro _)

theorem execResetNAssert_kept {φ : Frame} {s : State} (hm : Sub 0x16cfdce0fafc00da0358 φ.fx) (h1 : s.Kept φ) :
    OutKept φ (execResetNAssert s) := by
  unfold execResetNAssert
  try dsimp only
  (repeat' first
    | with_reducible assumption
    | with_reducible exact Sub.of hm (by decide)
    | with_reducible apply State.bothReset_kept
    | with_reducible apply kept_ite
    | with_reducible apply kept_foldl
    | with_reducible apply kept_foldl_fst
    | with_reducible apply outKept_next
    | with_reducible apply outKept_ite
    | simp only [kept_mk, hm.bit 23 rfl, or_true, true_or]
    | split
    | intro _)

theorem execResetNRelease_kept {φ : Frame} {s : State} (hm : Sub 0x800000 φ.fx) (h1 : s.Kept φ) :
    OutKept φ (execResetNRelease s) := by
  unfold execResetNRelease
  try dsimp only
  (repeat' first
    | with_reducible assumption
    | with_reducible exact Sub.of hm (by decide)
    | with_reducible apply kept_ite
    | with_reducible apply kept_foldl
    | with_reducible apply kept_foldl_fst
    | with_reducible apply outKept_next
    | with_reducible apply outKept_ite
    | simp only [kept_mk, hm.bit 23 rfl, or_true, true_or]
    | split
    | intro _)

theorem State.setFrozen_kept {φ : Frame} {s : State} {l : Lane} {b : Bool} (hm : Sub 0x180008 φ.fx) (h1 : s.Kept φ) :
    State.Kept φ (State.setFrozen s l b) := by
  unfold State.setFrozen
  try dsimp only
  (repeat' first
    | with_reducible assumption
    | with_reducible exact Sub.of hm (by decide)
    | with_reducible apply State.setLane_kept
    | with_reducible apply State.setBitF_kept
    | with_reducible apply State.setDom_kept
    | with_reducible apply State.forEach_kept
    | with_reducible apply kept_ite
    | with_reducible apply kept_foldl
    | with_reducible apply kept_foldl_fst
    | with_reducible apply outKept_next
    | with_reducible apply outKept_ite
    | simp only [kept_mk, true_or]
    | split
    | intro _)

theorem execFreezeEntry_kept {φ : Frame} {s : State} (hm : Sub 0x10000980008 φ.fx) (h1 : s.Kept φ) :
    OutKept φ (execFreezeEntry s) := by
  unfold execFreezeEntry
  try dsimp only
  (repeat' first
    | with_reducible assumption
    | with_reducible exact Sub.of hm (by decide)
    | with_reducible apply State.setShBit_kept
    | with_reducible apply State.setLane_kept
    | with_reducible apply State.setFrozen_kept
    | with_reducible apply State.setBitF_kept
    | with_reducible apply State.setSel_kept
    | with_reducible apply State.forEach_kept
    | with_reducible apply kept_ite
    | with_reducible apply kept_foldl
    | with_reducible apply kept_foldl_fst
    | with_reducible apply outKept_next
    | with_reducible apply outKept_ite
    | simp only [kept_mk, hm.bit 23 rfl, or_true, true_or]
    | split
    | intro _)

theorem execFreezeThaw_kept {φ : Frame} {s : State} (hm : Sub 0x143c2700000980148 φ.fx) (h1 : s.Kept φ) :
    OutKept φ (execFreezeThaw s) := by
  unfold execFreezeThaw
  try dsimp only
  (repeat' first
    | with_reducible assumption
    | with_reducible exact Sub.of hm (by decide)
    | with_reducible apply State.syncSafe_kept
    | with_reducible apply State.setLane_kept
    | with_reducible apply State.setFrozen_kept
    | with_reducible apply State.setBitF_kept
    | with_reducible apply State.canThaw_kept
    | with_reducible apply State.wdtRestart_kept
    | with_reducible apply State.forEach_kept
    | with_reducible apply kept_ite
    | with_reducible apply kept_foldl
    | with_reducible apply kept_foldl_fst
    | with_reducible apply outKept_next
    | with_reducible apply outKept_ite
    | simp only [kept_mk, hm.bit 23 rfl, or_true, true_or]
    | split
    | intro _)

theorem execFrzPwmHoldClear_kept {φ : Frame} {l : Lane} {s : State} (hm : Sub 0x8 φ.fx) (h1 : s.Kept φ) :
    OutKept φ (execFrzPwmHoldClear l s) := by
  unfold execFrzPwmHoldClear
  try dsimp only
  (repeat' first
    | with_reducible assumption
    | with_reducible exact Sub.of hm (by decide)
    | with_reducible apply State.setShBit_kept
    | with_reducible apply State.setBitBoth_kept
    | with_reducible apply kept_ite
    | with_reducible apply kept_foldl
    | with_reducible apply kept_foldl_fst
    | with_reducible apply outKept_next
    | with_reducible apply outKept_ite
    | simp only [kept_mk, true_or]
    | split
    | intro _)

theorem execCoreWfiRetention_kept {φ : Frame} {l : Lane} {core : Nat} {s : State} (hm : Sub 0x180000 φ.fx) (h1 :
    s.Kept φ) :
    OutKept φ (execCoreWfiRetention l core s) := by
  unfold execCoreWfiRetention
  try dsimp only
  (repeat' first
    | with_reducible assumption
    | with_reducible exact Sub.of hm (by decide)
    | with_reducible apply State.setLane_kept
    | with_reducible apply kept_ite
    | with_reducible apply kept_foldl
    | with_reducible apply kept_foldl_fst
    | with_reducible apply outKept_next
    | with_reducible apply outKept_ite
    | simp only [kept_mk, true_or]
    | split
    | intro _)

theorem State.fieldSleep_kept {φ : Frame} {s : State} {d : Nat} (hm : Sub 0x20000008 φ.fx) (h1 : s.Kept φ) :
    State.Kept φ (State.fieldSleep s d) := by
  unfold State.fieldSleep
  try dsimp only
  (repeat' first
    | with_reducible assumption
    | with_reducible exact Sub.of hm (by decide)
    | with_reducible apply State.setFc_kept
    | with_reducible apply State.setFSt_kept
    | with_reducible apply State.forEach_kept
    | with_reducible apply kept_ite
    | with_reducible apply kept_foldl
    | with_reducible apply kept_foldl_fst
    | with_reducible apply outKept_next
    | with_reducible apply outKept_ite
    | simp only [kept_mk, true_or]
    | split
    | intro _)

theorem execModuleSleep_kept {φ : Frame} {s : State} (hm : Sub 0xd6cffefffffdffdbfb58 φ.fx) (h1 : s.Kept φ) :
    OutKept φ (execModuleSleep s) := by
  unfold execModuleSleep
  try dsimp only
  (repeat' first
    | with_reducible assumption
    | with_reducible exact Sub.of hm (by decide)
    | with_reducible apply State.setShBit_kept
    | with_reducible apply State.parFlush_kept
    | with_reducible apply State.setLane_kept
    | with_reducible apply State.fieldSleep_kept
    | with_reducible apply State.laneReset_kept
    | with_reducible apply State.dieDown_kept
    | with_reducible apply kept_ite
    | with_reducible apply kept_foldl
    | with_reducible apply kept_foldl_fst
    | with_reducible apply outKept_next
    | with_reducible apply outKept_ite
    | simp only [kept_mk, hm.bit 16 rfl, hm.bit 23 rfl, or_true, true_or]
    | split
    | intro _)

theorem State.keepCoves_kept {φ : Frame} {s : State} {old : State} (hm : Sub 0x4000000000008 φ.fx) (h1 : s.Kept φ) (h2
    : old.Kept φ) :
    State.Kept φ (State.keepCoves s old) := by
  unfold State.keepCoves
  try dsimp only
  (repeat' first
    | with_reducible assumption
    | with_reducible exact Sub.of hm (by decide)
    | with_reducible apply State.setLin_kept
    | with_reducible apply State.setSh_kept
    | with_reducible apply State.setShFld_kept
    | with_reducible apply State.forEach_kept
    | with_reducible apply State.setLinSt_kept
    | with_reducible apply State.setCanTrx_kept
    | with_reducible apply State.setCoveSt_kept
    | with_reducible apply kept_ite
    | with_reducible apply kept_foldl
    | with_reducible apply kept_foldl_fst
    | with_reducible apply outKept_next
    | with_reducible apply outKept_ite
    | simp only [kept_mk, true_or]
    | split
    | intro _)

theorem State.wakePending_kept {φ : Frame} {s : State} (hm : Sub 0x14204400000800188 φ.fx) (h1 : s.Kept φ) :
    State.Kept φ (State.wakePending s) := by
  unfold State.wakePending
  try dsimp only
  (repeat' first
    | with_reducible assumption
    | with_reducible exact Sub.of hm (by decide)
    | with_reducible apply State.beginWake_kept
    | with_reducible apply State.setSh_kept
    | with_reducible apply State.countSh_kept
    | with_reducible apply kept_ite
    | with_reducible apply kept_foldl
    | with_reducible apply kept_foldl_fst
    | with_reducible apply outKept_next
    | with_reducible apply outKept_ite
    | simp only [kept_mk, true_or]
    | split
    | intro _)

theorem execModuleWake_kept {φ : Frame} {s : State} (hm : Sub 0x1623f4501ff9bfb88 φ.fx) (h1 : s.Kept φ) :
    OutKept φ (execModuleWake s) := by
  unfold execModuleWake
  try dsimp only
  (repeat' first
    | with_reducible assumption
    | with_reducible exact Sub.of hm (by decide)
    | with_reducible apply State.wakePending_kept
    | with_reducible apply State.setLane_kept
    | with_reducible apply State.diesStart_kept
    | with_reducible apply State.keepCoves_kept
    | with_reducible apply kept_ite
    | with_reducible apply kept_foldl
    | with_reducible apply kept_foldl_fst
    | with_reducible apply outKept_next
    | with_reducible apply outKept_ite
    | simp only [kept_mk, hm.bit 23 rfl, or_true, true_or]
    | split
    | intro _)

theorem execWakingComplete_kept {φ : Frame} {c : Nat} {s : State} (hm : Sub 0x16e2040000000010c φ.fx) (h1 : s.Kept φ)
    :
    OutKept φ (execWakingComplete c s) := by
  unfold execWakingComplete
  try dsimp only
  (repeat' first
    | with_reducible assumption
    | with_reducible exact Sub.of hm (by decide)
    | with_reducible apply State.harbAwake_kept
    | with_reducible apply State.syncWakes_kept
    | with_reducible apply State.setCoveSt_kept
    | with_reducible apply kept_ite
    | with_reducible apply kept_foldl
    | with_reducible apply kept_foldl_fst
    | with_reducible apply outKept_next
    | with_reducible apply outKept_ite
    | simp only [kept_mk, true_or]
    | split
    | intro _)

end Sys2Proof.Machine
end

