-- ==== Sys2Proof/Laws/KeptFerry.lean ====
section
/-! SUPPORT. The operations of Ferry.lean keep the invariant, the queue and the time. -/

namespace Sys2Proof.Machine

theorem State.syncHolder_kept {φ : Frame} {s : State} (hm : Sub 0x8 φ.fx) (h1 : s.Kept φ) :
    State.Kept φ (State.syncHolder s) := by
  unfold State.syncHolder
  try dsimp only
  (repeat' first
    | with_reducible assumption
    | with_reducible exact Sub.of hm (by decide)
    | with_reducible apply State.setBitBoth_kept
    | with_reducible apply State.setFldBoth_kept
    | with_reducible apply kept_ite
    | with_reducible apply kept_foldl
    | with_reducible apply kept_foldl_fst
    | with_reducible apply outKept_next
    | with_reducible apply outKept_ite
    | simp only [kept_mk, true_or]
    | split
    | intro _)

theorem State.setReqPending_kept {φ : Frame} {s : State} {l : Lane} {b : Bool} (hm : Sub 0x20000 φ.fx) (h1 : s.Kept φ)
    :
    State.Kept φ (State.setReqPending s l b) := by
  unfold State.setReqPending
  try dsimp only
  (repeat' first
    | with_reducible assumption
    | with_reducible exact Sub.of hm (by decide)
    | with_reducible apply kept_ite
    | with_reducible apply kept_foldl
    | with_reducible apply kept_foldl_fst
    | with_reducible apply outKept_next
    | with_reducible apply outKept_ite
    | simp only [kept_mk, hm.bit 17 rfl, or_true, true_or]
    | split
    | intro _)

theorem State.sendRequest_kept {φ : Frame} {s : State} {l : Lane} (hm : Sub 0x80 φ.fx) (h1 : s.Kept φ) :
    State.Kept φ (State.sendRequest s l) := by
  unfold State.sendRequest
  try dsimp only
  (repeat' first
    | with_reducible assumption
    | with_reducible exact Sub.of hm (by decide)
    | with_reducible apply State.emit_kept
    | with_reducible apply kept_ite
    | with_reducible apply kept_foldl
    | with_reducible apply kept_foldl_fst
    | with_reducible apply outKept_next
    | with_reducible apply outKept_ite
    | simp only [kept_mk, true_or]
    | split
    | intro _)

theorem State.settleHandover_kept {φ : Frame} {s : State} {l : Lane} (hm : Sub 0x1400000000004010c φ.fx) (h1 : s.Kept
    φ) :
    State.Kept φ (State.settleHandover s l) := by
  unfold State.settleHandover
  try dsimp only
  (repeat' first
    | with_reducible assumption
    | with_reducible exact Sub.of hm (by decide)
    | with_reducible apply State.tickFree_kept
    | with_reducible apply State.disposeAll_kept
    | with_reducible apply kept_ite
    | with_reducible apply kept_foldl
    | with_reducible apply kept_foldl_fst
    | with_reducible apply outKept_next
    | with_reducible apply outKept_ite
    | simp only [kept_mk, hm.bit 18 rfl, or_true, true_or]
    | split
    | intro _)

theorem State.arbGrant_kept {φ : Frame} {s : State} {l : Lane} (hm : Sub 0x1400000000006018c φ.fx) (h1 : s.Kept φ) :
    State.Kept φ (State.arbGrant s l) := by
  unfold State.arbGrant
  try dsimp only
  (repeat' first
    | with_reducible assumption
    | with_reducible exact Sub.of hm (by decide)
    | with_reducible apply State.syncHolder_kept
    | with_reducible apply State.setReqPending_kept
    | with_reducible apply State.refHalf_kept
    | with_reducible apply State.settleHandover_kept
    | with_reducible apply State.emit_kept
    | with_reducible apply kept_ite
    | with_reducible apply kept_foldl
    | with_reducible apply kept_foldl_fst
    | with_reducible apply outKept_next
    | with_reducible apply outKept_ite
    | simp only [kept_mk, hm.bit 17 rfl, or_true, true_or]
    | split
    | intro _)

theorem State.arbFree_kept {φ : Frame} {s : State} (hm : Sub 0x20008 φ.fx) (h1 : s.Kept φ) :
    State.Kept φ (State.arbFree s) := by
  unfold State.arbFree
  try dsimp only
  (repeat' first
    | with_reducible assumption
    | with_reducible exact Sub.of hm (by decide)
    | with_reducible apply State.syncHolder_kept
    | with_reducible apply kept_ite
    | with_reducible apply kept_foldl
    | with_reducible apply kept_foldl_fst
    | with_reducible apply outKept_next
    | with_reducible apply outKept_ite
    | simp only [kept_mk, hm.bit 17 rfl, or_true, true_or]
    | split
    | intro _)

theorem execLeaseRequest_kept {φ : Frame} {l : Lane} {epoch : Nat} {s : State} (hm : Sub 0x1400000000006018c φ.fx) (h1
    : s.Kept φ) :
    OutKept φ (execLeaseRequest l epoch s) := by
  unfold execLeaseRequest
  try dsimp only
  (repeat' first
    | with_reducible assumption
    | with_reducible exact Sub.of hm (by decide)
    | with_reducible apply State.setReqPending_kept
    | with_reducible apply State.arbGrant_kept
    | with_reducible apply kept_ite
    | with_reducible apply kept_foldl
    | with_reducible apply kept_foldl_fst
    | with_reducible apply outKept_next
    | with_reducible apply outKept_ite
    | simp only [kept_mk, hm.bit 17 rfl, or_true, true_or]
    | split
    | intro _)

theorem execArbiterLeaseExpiry_kept {φ : Frame} {s : State} (hm : Sub 0x1400000000006018c φ.fx) (h1 : s.Kept φ) :
    OutKept φ (execArbiterLeaseExpiry s) := by
  unfold execArbiterLeaseExpiry
  try dsimp only
  (repeat' first
    | with_reducible assumption
    | with_reducible exact Sub.of hm (by decide)
    | with_reducible apply State.arbGrant_kept
    | with_reducible apply State.arbFree_kept
    | with_reducible apply kept_ite
    | with_reducible apply kept_foldl
    | with_reducible apply kept_foldl_fst
    | with_reducible apply outKept_next
    | with_reducible apply outKept_ite
    | simp only [kept_mk, true_or]
    | split
    | intro _)

theorem execLeaseRenew_kept {φ : Frame} {l : Lane} {leaseUs : Nat} {s : State} (hm : Sub 0x20080 φ.fx) (h1 : s.Kept φ)
    :
    OutKept φ (execLeaseRenew l leaseUs s) := by
  unfold execLeaseRenew
  try dsimp only
  (repeat' first
    | with_reducible assumption
    | with_reducible exact Sub.of hm (by decide)
    | with_reducible apply State.emit_kept
    | with_reducible apply kept_ite
    | with_reducible apply kept_foldl
    | with_reducible apply kept_foldl_fst
    | with_reducible apply outKept_next
    | with_reducible apply outKept_ite
    | simp only [kept_mk, hm.bit 17 rfl, or_true, true_or]
    | split
    | intro _)

theorem execLeaseAck_kept {φ : Frame} {l : Lane} {s : State} (hm : Sub 0x1a0000 φ.fx) (h1 : s.Kept φ) :
    OutKept φ (execLeaseAck l s) := by
  unfold execLeaseAck
  try dsimp only
  (repeat' first
    | with_reducible assumption
    | with_reducible exact Sub.of hm (by decide)
    | with_reducible apply State.setLane_kept
    | with_reducible apply kept_ite
    | with_reducible apply kept_foldl
    | with_reducible apply kept_foldl_fst
    | with_reducible apply outKept_next
    | with_reducible apply outKept_ite
    | simp only [kept_mk, hm.bit 17 rfl, or_true, true_or]
    | split
    | intro _)

theorem execRenewMissed_kept {φ : Frame} {l : Lane} {s : State} (hm : Sub 0x1a0088 φ.fx) (h1 : s.Kept φ) :
    OutKept φ (execRenewMissed l s) := by
  unfold execRenewMissed
  try dsimp only
  (repeat' first
    | with_reducible assumption
    | with_reducible exact Sub.of hm (by decide)
    | with_reducible apply State.setLane_kept
    | with_reducible apply State.setBitF_kept
    | with_reducible apply State.count_kept
    | with_reducible apply State.emit_kept
    | with_reducible apply kept_ite
    | with_reducible apply kept_foldl
    | with_reducible apply kept_foldl_fst
    | with_reducible apply outKept_next
    | with_reducible apply outKept_ite
    | simp only [kept_mk, hm.bit 17 rfl, or_true, true_or]
    | split
    | intro _)

theorem execLeaseRelease_kept {φ : Frame} {l : Lane} {s : State} (hm : Sub 0x1400000000006018c φ.fx) (h1 : s.Kept φ) :
    OutKept φ (execLeaseRelease l s) := by
  unfold execLeaseRelease
  try dsimp only
  (repeat' first
    | with_reducible assumption
    | with_reducible exact Sub.of hm (by decide)
    | with_reducible apply State.arbGrant_kept
    | with_reducible apply kept_ite
    | with_reducible apply kept_foldl
    | with_reducible apply kept_foldl_fst
    | with_reducible apply outKept_next
    | with_reducible apply outKept_ite
    | simp only [kept_mk, hm.bit 17 rfl, or_true, true_or]
    | split
    | intro _)

theorem State.dropSnap_kept {φ : Frame} {s : State} (hm : Sub 0x40008 φ.fx) (h1 : s.Kept φ) :
    State.Kept φ (State.dropSnap s) := by
  unfold State.dropSnap
  try dsimp only
  (repeat' first
    | with_reducible assumption
    | with_reducible exact Sub.of hm (by decide)
    | with_reducible apply State.setFldBoth_kept
    | with_reducible apply kept_ite
    | with_reducible apply kept_foldl
    | with_reducible apply kept_foldl_fst
    | with_reducible apply outKept_next
    | with_reducible apply outKept_ite
    | simp only [kept_mk, hm.bit 18 rfl, or_true, true_or]
    | split
    | intro _)

theorem State.toUnsync_kept {φ : Frame} {s : State} {l : Lane} (hm : Sub 0x1c0008 φ.fx) (h1 : s.Kept φ) :
    State.Kept φ (State.toUnsync s l) := by
  unfold State.toUnsync
  try dsimp only
  (repeat' first
    | with_reducible assumption
    | with_reducible exact Sub.of hm (by decide)
    | with_reducible apply State.setLst_kept
    | with_reducible apply State.dropSnap_kept
    | with_reducible apply kept_ite
    | with_reducible apply kept_foldl
    | with_reducible apply kept_foldl_fst
    | with_reducible apply outKept_next
    | with_reducible apply outKept_ite
    | simp only [kept_mk, true_or]
    | split
    | intro _)

theorem State.startSync_kept {φ : Frame} {s : State} {l : Lane} (hm : Sub 0x1c0008 φ.fx) (h1 : s.Kept φ) :
    State.Kept φ (State.startSync s l) := by
  unfold State.startSync
  try dsimp only
  (repeat' first
    | with_reducible assumption
    | with_reducible exact Sub.of hm (by decide)
    | with_reducible apply State.setLst_kept
    | with_reducible apply State.setFldBoth_kept
    | with_reducible apply kept_ite
    | with_reducible apply kept_foldl
    | with_reducible apply kept_foldl_fst
    | with_reducible apply outKept_next
    | with_reducible apply outKept_ite
    | simp only [kept_mk, hm.bit 18 rfl, or_true, true_or]
    | split
    | intro _)

theorem State.seekFerry_kept {φ : Frame} {s : State} {l : Lane} (hm : Sub 0x80 φ.fx) (h1 : s.Kept φ) :
    State.Kept φ (State.seekFerry s l) := by
  unfold State.seekFerry
  try dsimp only
  (repeat' first
    | with_reducible assumption
    | with_reducible exact Sub.of hm (by decide)
    | with_reducible apply State.sendRequest_kept
    | with_reducible apply kept_ite
    | with_reducible apply kept_foldl
    | with_reducible apply kept_foldl_fst
    | with_reducible apply outKept_next
    | with_reducible apply outKept_ite
    | simp only [kept_mk, true_or]
    | split
    | intro _)

theorem execHeartbeat_kept {φ : Frame} {l : Lane} {s : State} (hm : Sub 0x1c0088 φ.fx) (h1 : s.Kept φ) :
    OutKept φ (execHeartbeat l s) := by
  unfold execHeartbeat
  try dsimp only
  (repeat' first
    | with_reducible assumption
    | with_reducible exact Sub.of hm (by decide)
    | with_reducible apply State.toUnsync_kept
    | with_reducible apply State.seekFerry_kept
    | with_reducible apply State.setFld_kept
    | with_reducible apply State.startSync_kept
    | with_reducible apply State.setBitF_kept
    | with_reducible apply kept_ite
    | with_reducible apply kept_foldl
    | with_reducible apply kept_foldl_fst
    | with_reducible apply outKept_next
    | with_reducible apply outKept_ite
    | simp only [kept_mk, true_or]
    | split
    | intro _)

theorem execStraitLost_kept {φ : Frame} {l : Lane} {s : State} (hm : Sub 0x1c0088 φ.fx) (h1 : s.Kept φ) :
    OutKept φ (execStraitLost l s) := by
  unfold execStraitLost
  try dsimp only
  (repeat' first
    | with_reducible assumption
    | with_reducible exact Sub.of hm (by decide)
    | with_reducible apply State.toUnsync_kept
    | with_reducible apply State.seekFerry_kept
    | with_reducible apply State.setFld_kept
    | with_reducible apply State.setBitF_kept
    | with_reducible apply kept_ite
    | with_reducible apply kept_foldl
    | with_reducible apply kept_foldl_fst
    | with_reducible apply outKept_next
    | with_reducible apply outKept_ite
    | simp only [kept_mk, true_or]
    | split
    | intro _)

theorem execLaneLostNotice_kept {φ : Frame} {l : Lane} {_epoch : Nat} {_cycle : Nat} {s : State} (hm : Sub 0x80 φ.fx)
    (h1 : s.Kept φ) :
    OutKept φ (execLaneLostNotice l _epoch _cycle s) := by
  unfold execLaneLostNotice
  try dsimp only
  (repeat' first
    | with_reducible assumption
    | with_reducible exact Sub.of hm (by decide)
    | with_reducible apply State.sendRequest_kept
    | with_reducible apply kept_ite
    | with_reducible apply kept_foldl
    | with_reducible apply kept_foldl_fst
    | with_reducible apply outKept_next
    | with_reducible apply outKept_ite
    | simp only [kept_mk, true_or]
    | split
    | intro _)

theorem execLaneDown_kept {φ : Frame} {l : Lane} {s : State} (hm : Sub 0x140000000001e018c φ.fx) (h1 : s.Kept φ) :
    OutKept φ (execLaneDown l s) := by
  unfold execLaneDown
  try dsimp only
  (repeat' first
    | with_reducible assumption
    | with_reducible exact Sub.of hm (by decide)
    | with_reducible apply State.toUnsync_kept
    | with_reducible apply State.seekFerry_kept
    | with_reducible apply State.arbGrant_kept
    | with_reducible apply State.arbFree_kept
    | with_reducible apply kept_ite
    | with_reducible apply kept_foldl
    | with_reducible apply kept_foldl_fst
    | with_reducible apply outKept_next
    | with_reducible apply outKept_ite
    | simp only [kept_mk, true_or]
    | split
    | intro _)

theorem State.takeCopies_kept {φ : Frame} {s : State} {l : Lane} (hm : Sub 0x200 φ.fx) (h1 : s.Kept φ) :
    State.Kept φ (State.takeCopies s l) := by
  unfold State.takeCopies
  try dsimp only
  (repeat' first
    | with_reducible assumption
    | with_reducible exact Sub.of hm (by decide)
    | with_reducible apply State.setCommits_kept
    | with_reducible apply kept_ite
    | with_reducible apply kept_foldl
    | with_reducible apply kept_foldl_fst
    | with_reducible apply outKept_next
    | with_reducible apply outKept_ite
    | simp only [kept_mk, true_or]
    | split
    | intro _)

theorem State.putRegs_kept {φ : Frame} {s : State} {cs : List RegCell} (hm : Sub 0x8 φ.fx) (h1 : s.Kept φ) : State.Kept φ (s.putRegs cs) :=
  kept_regs h1 (hm.bit 3 rfl) (rf_foldl_wf cs Prod.fst Prod.snd _ h1.regs)

theorem State.restoreImage_kept {φ : Frame} {s : State} {l : Lane} (hm : Sub 0x10000c0000cc00000008 φ.fx) (h1 : s.Kept
    φ) :
    State.Kept φ (State.restoreImage s l) := by
  unfold State.restoreImage
  try dsimp only
  (repeat' first
    | with_reducible assumption
    | with_reducible exact Sub.of hm (by decide)
    | with_reducible apply State.putRegs_kept
    | with_reducible apply State.modUpd_kept
    | with_reducible apply kept_ite
    | with_reducible apply kept_foldl
    | with_reducible apply kept_foldl_fst
    | with_reducible apply outKept_next
    | with_reducible apply outKept_ite
    | simp only [kept_mk, hm.bit 34 rfl, hm.bit 35 rfl, hm.bit 38 rfl, hm.bit 39 rfl, hm.bit 58 rfl, hm.bit 59 rfl,
      or_true, true_or]
    | split
    | intro _)

theorem State.coldStart_kept {φ : Frame} {s : State} (hm : Sub 0x840008 φ.fx) (h1 : s.Kept φ) :
    State.Kept φ (State.coldStart s) := by
  unfold State.coldStart
  try dsimp only
  (repeat' first
    | with_reducible assumption
    | with_reducible exact Sub.of hm (by decide)
    | with_reducible apply State.setFldBoth_kept
    | with_reducible apply kept_ite
    | with_reducible apply kept_foldl
    | with_reducible apply kept_foldl_fst
    | with_reducible apply outKept_next
    | with_reducible apply outKept_ite
    | simp only [kept_mk, hm.bit 18 rfl, hm.bit 23 rfl, or_true, true_or]
    | split
    | intro _)

theorem State.becomeActive_kept {φ : Frame} {s : State} {l : Lane} {epoch : Nat} (hm : Sub 0x10015c0000cc019c03e8
    φ.fx) (h1 : s.Kept φ) :
    State.Kept φ (State.becomeActive s l epoch) := by
  unfold State.becomeActive
  try dsimp only
  (repeat' first
    | with_reducible assumption
    | with_reducible exact Sub.of hm (by decide)
    | with_reducible apply State.restoreImage_kept
    | with_reducible apply State.setReg_kept
    | with_reducible apply State.tideBecomeActive_kept
    | with_reducible apply State.setBitF_kept
    | with_reducible apply State.setLst_kept
    | with_reducible apply State.coldStart_kept
    | with_reducible apply State.takeCopies_kept
    | with_reducible apply State.cwHolderLost_kept
    | with_reducible apply State.dropSnap_kept
    | with_reducible apply kept_ite
    | with_reducible apply kept_foldl
    | with_reducible apply kept_foldl_fst
    | with_reducible apply outKept_next
    | with_reducible apply outKept_ite
    | simp only [kept_mk, hm.bit 18 rfl, hm.bit 24 rfl, or_true, true_or]
    | split
    | intro _)

theorem execLeaseGrant_kept {φ : Frame} {l : Lane} {s : State} (hm : Sub 0x10015c0000cc019e03e8 φ.fx) (h1 : s.Kept φ)
    :
    OutKept φ (execLeaseGrant l s) := by
  unfold execLeaseGrant
  try dsimp only
  (repeat' first
    | with_reducible assumption
    | with_reducible exact Sub.of hm (by decide)
    | with_reducible apply State.becomeActive_kept
    | with_reducible apply State.syncLedg_kept
    | with_reducible apply kept_ite
    | with_reducible apply kept_foldl
    | with_reducible apply kept_foldl_fst
    | with_reducible apply outKept_next
    | with_reducible apply outKept_ite
    | simp only [kept_mk, hm.bit 17 rfl, or_true, true_or]
    | split
    | intro _)

theorem execLeaseValidEnd_kept {φ : Frame} {l : Lane} {s : State} (hm : Sub 0x1c0208 φ.fx) (h1 : s.Kept φ) :
    OutKept φ (execLeaseValidEnd l s) := by
  unfold execLeaseValidEnd
  try dsimp only
  (repeat' first
    | with_reducible assumption
    | with_reducible exact Sub.of hm (by decide)
    | with_reducible apply State.setLane_kept
    | with_reducible apply State.syncLedg_kept
    | with_reducible apply State.setBitF_kept
    | with_reducible apply State.setLst_kept
    | with_reducible apply State.takeCopies_kept
    | with_reducible apply kept_ite
    | with_reducible apply kept_foldl
    | with_reducible apply kept_foldl_fst
    | with_reducible apply outKept_next
    | with_reducible apply outKept_ite
    | simp only [kept_mk, hm.bit 18 rfl, or_true, true_or]
    | split
    | intro _)

theorem execServiceDelayExpiry_kept {φ : Frame} {s : State} (hm : Sub 0x8 φ.fx) (h1 : s.Kept φ) :
    OutKept φ (execServiceDelayExpiry s) := by
  unfold execServiceDelayExpiry
  try dsimp only
  (repeat' first
    | with_reducible assumption
    | with_reducible exact Sub.of hm (by decide)
    | with_reducible apply State.setFldBoth_kept
    | with_reducible apply kept_ite
    | with_reducible apply kept_foldl
    | with_reducible apply kept_foldl_fst
    | with_reducible apply outKept_next
    | with_reducible apply outKept_ite
    | simp only [kept_mk, true_or]
    | split
    | intro _)

theorem State.copyRegs_kept {φ : Frame} {s : State} {h : Lane} {p : Nat → Bool} (hm : Sub 0x8 φ.fx) (h1 : s.Kept φ) : State.Kept φ (s.copyRegs h p) :=
  kept_regs h1 (hm.bit 3 rfl) (rf_foldl_wf _ _ Prod.snd _ (rf_filter_wf _ _ h1.regs))

theorem State.copyMem_kept {φ : Frame} {s : State} {h : Lane} (hm : Sub 0x10 φ.fx) (h1 : s.Kept φ) : State.Kept φ (s.copyMem h) :=
  kept_mem h1 (hm.bit 4 rfl) (mem_foldl_wf _ _ Prod.snd _ (mem_filter_wf _ _ h1.mem))

theorem State.copyCanRx_kept {φ : Frame} {s : State} {h : Lane} (hm : Sub 0x300000000000 φ.fx) (h1 : s.Kept φ) : State.Kept φ (s.copyCanRx h) := by
  cases h
  · exact kept_canRxW h1 (hm.bit 45 rfl) h1.shape.canRxE
  · exact kept_canRxE h1 (hm.bit 44 rfl) h1.shape.canRxW

theorem State.copyEngines_kept {φ : Frame} {s : State} {h : Lane} (hm : Sub 0x20cc0300000000000 φ.fx) (h1 : s.Kept φ)
    :
    State.Kept φ (State.copyEngines s h) := by
  unfold State.copyEngines
  try dsimp only
  (repeat' first
    | with_reducible assumption
    | with_reducible exact Sub.of hm (by decide)
    | with_reducible apply State.copyCanRx_kept
    | with_reducible apply kept_ite
    | with_reducible apply kept_foldl
    | with_reducible apply kept_foldl_fst
    | with_reducible apply outKept_next
    | with_reducible apply outKept_ite
    | simp only [kept_mk, hm.bit 54 rfl, hm.bit 55 rfl, hm.bit 58 rfl, hm.bit 59 rfl, hm.bit 65 rfl, or_true,
      true_or]
    | split
    | intro _)

theorem State.copyCommits_kept {φ : Frame} {s : State} {h : Lane} (hm : Sub 0x200 φ.fx) (h1 : s.Kept φ) :
    State.Kept φ (State.copyCommits s h) := by
  unfold State.copyCommits
  try dsimp only
  (repeat' first
    | with_reducible assumption
    | with_reducible exact Sub.of hm (by decide)
    | with_reducible apply State.setCommits_kept
    | with_reducible apply kept_ite
    | with_reducible apply kept_foldl
    | with_reducible apply kept_foldl_fst
    | with_reducible apply outKept_next
    | with_reducible apply outKept_ite
    | simp only [kept_mk, true_or]
    | split
    | intro _)

theorem State.loadImage_kept {φ : Frame} {s : State} {l : Lane} (hm : Sub 0x20cc0300000000018 φ.fx) (h1 : s.Kept φ) :
    State.Kept φ (State.loadImage s l) := by
  unfold State.loadImage
  try dsimp only
  (repeat' first
    | with_reducible assumption
    | with_reducible exact Sub.of hm (by decide)
    | with_reducible apply State.copyRegs_kept
    | with_reducible apply State.copyEngines_kept
    | with_reducible apply State.copyMem_kept
    | with_reducible apply kept_ite
    | with_reducible apply kept_foldl
    | with_reducible apply kept_foldl_fst
    | with_reducible apply outKept_next
    | with_reducible apply outKept_ite
    | simp only [kept_mk, true_or]
    | split
    | intro _)

theorem State.laneToStandby_kept {φ : Frame} {s : State} {l : Lane} (hm : Sub 0x34cc030cc001c0318 φ.fx) (h1 : s.Kept
    φ) :
    State.Kept φ (State.laneToStandby s l) := by
  unfold State.laneToStandby
  try dsimp only
  (repeat' first
    | with_reducible assumption
    | with_reducible exact Sub.of hm (by decide)
    | with_reducible apply State.setReg_kept
    | with_reducible apply State.tideBecomeStandby_kept
    | with_reducible apply State.copyCommits_kept
    | with_reducible apply State.syncLedg_kept
    | with_reducible apply State.syncTrips_kept
    | with_reducible apply State.setFld_kept
    | with_reducible apply State.copyRegs_kept
    | with_reducible apply State.setLst_kept
    | with_reducible apply State.copyEngines_kept
    | with_reducible apply State.dropSnap_kept
    | with_reducible apply State.parCopy_kept
    | with_reducible apply State.copyMem_kept
    | with_reducible apply State.disposeAll_kept
    | with_reducible apply kept_ite
    | with_reducible apply kept_foldl
    | with_reducible apply kept_foldl_fst
    | with_reducible apply outKept_next
    | with_reducible apply outKept_ite
    | simp only [kept_mk, hm.bit 18 rfl, hm.bit 38 rfl, hm.bit 39 rfl, or_true, true_or]
    | split
    | intro _)

theorem execFerryCtrlRequest_kept {φ : Frame} {l : Lane} {who : Initiator} {value : Word} {s : State} (hm : Sub 0xa0
    φ.fx) (h1 : s.Kept φ) :
    OutKept φ (execFerryCtrlRequest l who value s) := by
  unfold execFerryCtrlRequest
  try dsimp only
  (repeat' first
    | with_reducible assumption
    | with_reducible exact Sub.of hm (by decide)
    | with_reducible apply State.busOk_kept
    | with_reducible apply State.sendRequest_kept
    | with_reducible apply kept_ite
    | with_reducible apply kept_foldl
    | with_reducible apply kept_foldl_fst
    | with_reducible apply outKept_next
    | with_reducible apply outKept_ite
    | simp only [kept_mk, true_or]
    | split
    | intro _)

theorem execFerryCtrlRelease_kept {φ : Frame} {l : Lane} {who : Initiator} {value : Word} {s : State} (hm : Sub
    0x40020 φ.fx) (h1 : s.Kept φ) :
    OutKept φ (execFerryCtrlRelease l who value s) := by
  unfold execFerryCtrlRelease
  try dsimp only
  (repeat' first
    | with_reducible assumption
    | with_reducible exact Sub.of hm (by decide)
    | with_reducible apply State.busOk_kept
    | with_reducible apply kept_ite
    | with_reducible apply kept_foldl
    | with_reducible apply kept_foldl_fst
    | with_reducible apply outKept_next
    | with_reducible apply outKept_ite
    | simp only [kept_mk, hm.bit 18 rfl, or_true, true_or]
    | split
    | intro _)

theorem execFerryCtrlResync_kept {φ : Frame} {l : Lane} {who : Initiator} {value : Word} {s : State} (hm : Sub
    0x180028 φ.fx) (h1 : s.Kept φ) :
    OutKept φ (execFerryCtrlResync l who value s) := by
  unfold execFerryCtrlResync
  try dsimp only
  (repeat' first
    | with_reducible assumption
    | with_reducible exact Sub.of hm (by decide)
    | with_reducible apply State.busOk_kept
    | with_reducible apply State.setLst_kept
    | with_reducible apply kept_ite
    | with_reducible apply kept_foldl
    | with_reducible apply kept_foldl_fst
    | with_reducible apply outKept_next
    | with_reducible apply outKept_ite
    | simp only [kept_mk, true_or]
    | split
    | intro _)

theorem execLockstepBreak_kept {φ : Frame} {l : Lane} {pair : Nat} {attached : Bool} {s : State} (hm : Sub
    0x140000000001c0108 φ.fx) (h1 : s.Kept φ) :
    OutKept φ (execLockstepBreak l pair attached s) := by
  unfold execLockstepBreak
  try dsimp only
  (repeat' first
    | with_reducible assumption
    | with_reducible exact Sub.of hm (by decide)
    | with_reducible apply State.toDisq_kept
    | with_reducible apply State.setBitF_kept
    | with_reducible apply kept_ite
    | with_reducible apply kept_foldl
    | with_reducible apply kept_foldl_fst
    | with_reducible apply outKept_next
    | with_reducible apply outKept_ite
    | simp only [kept_mk, true_or]
    | split
    | intro _)

theorem State.markMismatch_kept {φ : Frame} {s : State} {l : Lane} (hm : Sub 0x8 φ.fx) (h1 : s.Kept φ) :
    State.Kept φ (State.markMismatch s l) := by
  unfold State.markMismatch
  try dsimp only
  (repeat' first
    | with_reducible assumption
    | with_reducible exact Sub.of hm (by decide)
    | with_reducible apply State.setBitF_kept
    | with_reducible apply kept_ite
    | with_reducible apply kept_foldl
    | with_reducible apply kept_foldl_fst
    | with_reducible apply outKept_next
    | with_reducible apply outKept_ite
    | simp only [kept_mk, true_or]
    | split
    | intro _)

theorem State.imagesVerified_kept {φ : Frame} {s : State} {l : Lane} (hm : Sub 0x1a0088 φ.fx) (h1 : s.Kept φ) :
    State.Kept φ (State.imagesVerified s l) := by
  unfold State.imagesVerified
  try dsimp only
  (repeat' first
    | with_reducible assumption
    | with_reducible exact Sub.of hm (by decide)
    | with_reducible apply State.setLane_kept
    | with_reducible apply State.setLst_kept
    | with_reducible apply State.releaseDown_kept
    | with_reducible apply State.sendRequest_kept
    | with_reducible apply State.markMismatch_kept
    | with_reducible apply State.setServing_kept
    | with_reducible apply kept_ite
    | with_reducible apply kept_foldl
    | with_reducible apply kept_foldl_fst
    | with_reducible apply outKept_next
    | with_reducible apply outKept_ite
    | simp only [kept_mk, true_or]
    | split
    | intro _)

theorem State.bootBad_kept {φ : Frame} {s : State} {l : Lane} (hm : Sub 0x10014000000000000108 φ.fx) (h1 : s.Kept φ) :
    State.Kept φ (State.bootBad s l) := by
  unfold State.bootBad
  try dsimp only
  (repeat' first
    | with_reducible assumption
    | with_reducible exact Sub.of hm (by decide)
    | with_reducible apply State.startRevert_kept
    | with_reducible apply State.modUpd_kept
    | with_reducible apply kept_ite
    | with_reducible apply kept_foldl
    | with_reducible apply kept_foldl_fst
    | with_reducible apply outKept_next
    | with_reducible apply outKept_ite
    | simp only [kept_mk, true_or]
    | split
    | intro _)

theorem execBootVerified_kept {φ : Frame} {l : Lane} {fail1 : Nat} {fail2 : Nat} {keyIdx : Nat} {lost : List Nat} {s :
    State} (hm : Sub 0x10c140000000001a018c φ.fx) (h1 : s.Kept φ) :
    OutKept φ (execBootVerified l fail1 fail2 keyIdx lost s) := by
  unfold execBootVerified
  try dsimp only
  (repeat' first
    | with_reducible assumption
    | with_reducible exact Sub.of hm (by decide)
    | with_reducible apply State.bootBad_kept
    | with_reducible apply State.setFld_kept
    | with_reducible apply State.setBitF_kept
    | with_reducible apply State.forEach_kept
    | with_reducible apply State.loadKeys_kept
    | with_reducible apply State.imagesVerified_kept
    | with_reducible apply State.lcRepair_kept
    | with_reducible apply kept_ite
    | with_reducible apply kept_foldl
    | with_reducible apply kept_foldl_fst
    | with_reducible apply outKept_next
    | with_reducible apply outKept_ite
    | simp only [kept_mk, true_or]
    | split
    | intro _)

theorem execApplicationVerified_kept {φ : Frame} {l : Lane} {img : Nat} {bank : Nat} {ok : Bool} {hash : List Byte} {s
    : State} (hm : Sub 0x10c14000000000000108 φ.fx) (h1 : s.Kept φ) :
    OutKept φ (execApplicationVerified l img bank ok hash s) := by
  unfold execApplicationVerified
  try dsimp only
  (repeat' first
    | with_reducible assumption
    | with_reducible exact Sub.of hm (by decide)
    | with_reducible apply State.bootBad_kept
    | with_reducible apply State.setSec_kept
    | with_reducible apply State.setBitF_kept
    | with_reducible apply kept_ite
    | with_reducible apply kept_foldl
    | with_reducible apply kept_foldl_fst
    | with_reducible apply outKept_next
    | with_reducible apply outKept_ite
    | simp only [kept_mk, true_or]
    | split
    | intro _)

theorem specFerryStatus_kept {φ : Frame}   :
    CmdSpec.Kept φ (specFerryStatus ) := by
  refine ⟨?_, ?_, ?_, ?_⟩ <;> intros <;> dsimp only [specFerryStatus] <;>
  (repeat' first
    | with_reducible assumption
    | with_reducible apply kept_ite
    | with_reducible apply kept_foldl
    | with_reducible apply kept_foldl_fst
    | with_reducible apply outKept_next
    | with_reducible apply outKept_ite
    | simp only [kept_mk, true_or]
    | split
    | intro _)

theorem specFerryConfig_kept {φ : Frame}  (hm : Sub 0x608 φ.fx)  :
    CmdSpec.Kept φ (specFerryConfig ) := by
  refine ⟨?_, ?_, ?_, ?_⟩ <;> intros <;> dsimp only [specFerryConfig] <;>
  (repeat' first
    | with_reducible assumption
    | with_reducible exact Sub.of hm (by decide)
    | with_reducible apply State.commitLocal_kept
    | with_reducible apply kept_ite
    | with_reducible apply kept_foldl
    | with_reducible apply kept_foldl_fst
    | with_reducible apply outKept_next
    | with_reducible apply outKept_ite
    | simp only [kept_mk, true_or]
    | split
    | intro _)

theorem specHandover_kept {φ : Frame}  (hm : Sub 0x40000 φ.fx)  :
    CmdSpec.Kept φ (specHandover ) := by
  refine ⟨?_, ?_, ?_, ?_⟩ <;> intros <;> dsimp only [specHandover] <;>
  (repeat' first
    | with_reducible assumption
    | with_reducible exact Sub.of hm (by decide)
    | with_reducible apply kept_ite
    | with_reducible apply kept_foldl
    | with_reducible apply kept_foldl_fst
    | with_reducible apply outKept_next
    | with_reducible apply outKept_ite
    | simp only [kept_mk, hm.bit 18 rfl, or_true, true_or]
    | split
    | intro _)

theorem specLanePhase_kept {φ : Frame}  (hm : Sub 0x14000000000000108 φ.fx)  :
    CmdSpec.Kept φ (specLanePhase ) := by
  refine ⟨?_, ?_, ?_, ?_⟩ <;> intros <;> dsimp only [specLanePhase] <;>
  (repeat' first
    | with_reducible assumption
    | with_reducible exact Sub.of hm (by decide)
    | with_reducible apply State.done_kept
    | with_reducible apply State.setFldBoth_kept
    | with_reducible apply kept_ite
    | with_reducible apply kept_foldl
    | with_reducible apply kept_foldl_fst
    | with_reducible apply outKept_next
    | with_reducible apply outKept_ite
    | simp only [kept_mk, true_or]
    | split
    | intro _)

theorem specLaneDisqualify_kept {φ : Frame}  (hm : Sub 0x140000000001c0108 φ.fx)  :
    CmdSpec.Kept φ (specLaneDisqualify ) := by
  refine ⟨?_, ?_, ?_, ?_⟩ <;> intros <;> dsimp only [specLaneDisqualify] <;>
  (repeat' first
    | with_reducible assumption
    | with_reducible exact Sub.of hm (by decide)
    | with_reducible apply State.toDisq_kept
    | with_reducible apply State.done_kept
    | with_reducible apply kept_ite
    | with_reducible apply kept_foldl
    | with_reducible apply kept_foldl_fst
    | with_reducible apply outKept_next
    | with_reducible apply outKept_ite
    | simp only [kept_mk, true_or]
    | split
    | intro _)

theorem specLaneRequalify_kept {φ : Frame}  (hm : Sub 0x140000000001a010c φ.fx)  :
    CmdSpec.Kept φ (specLaneRequalify ) := by
  refine ⟨?_, ?_, ?_, ?_⟩ <;> intros <;> dsimp only [specLaneRequalify] <;>
  (repeat' first
    | with_reducible assumption
    | with_reducible exact Sub.of hm (by decide)
    | with_reducible apply State.setLst_kept
    | with_reducible apply State.releaseDown_kept
    | with_reducible apply State.failed_kept
    | with_reducible apply State.tickFree_kept
    | with_reducible apply State.done_kept
    | with_reducible apply kept_ite
    | with_reducible apply kept_foldl
    | with_reducible apply kept_foldl_fst
    | with_reducible apply outKept_next
    | with_reducible apply outKept_ite
    | simp only [kept_mk, true_or]
    | split
    | intro _)

theorem specLaneResync_kept {φ : Frame}  (hm : Sub 0x140000000001c0108 φ.fx)  :
    CmdSpec.Kept φ (specLaneResync ) := by
  refine ⟨?_, ?_, ?_, ?_⟩ <;> intros <;> dsimp only [specLaneResync] <;>
  (repeat' first
    | with_reducible assumption
    | with_reducible exact Sub.of hm (by decide)
    | with_reducible apply State.setLst_kept
    | with_reducible apply State.done_kept
    | with_reducible apply kept_ite
    | with_reducible apply kept_foldl
    | with_reducible apply kept_foldl_fst
    | with_reducible apply outKept_next
    | with_reducible apply outKept_ite
    | simp only [kept_mk, hm.bit 18 rfl, or_true, true_or]
    | split
    | intro _)

theorem specDiscrepancyLog_kept {φ : Frame}   :
    CmdSpec.Kept φ (specDiscrepancyLog ) := by
  refine ⟨?_, ?_, ?_, ?_⟩ <;> intros <;> dsimp only [specDiscrepancyLog] <;>
  (repeat' first
    | with_reducible assumption
    | with_reducible apply kept_ite
    | with_reducible apply kept_foldl
    | with_reducible apply kept_foldl_fst
    | with_reducible apply outKept_next
    | with_reducible apply outKept_ite
    | simp only [kept_mk, true_or]
    | split
    | intro _)

theorem specQuietEnter_kept {φ : Frame}  (hm : Sub 0x40000 φ.fx)  :
    CmdSpec.Kept φ (specQuietEnter ) := by
  refine ⟨?_, ?_, ?_, ?_⟩ <;> intros <;> dsimp only [specQuietEnter] <;>
  (repeat' first
    | with_reducible assumption
    | with_reducible exact Sub.of hm (by decide)
    | with_reducible apply kept_ite
    | with_reducible apply kept_foldl
    | with_reducible apply kept_foldl_fst
    | with_reducible apply outKept_next
    | with_reducible apply outKept_ite
    | simp only [kept_mk, hm.bit 18 rfl, or_true, true_or]
    | split
    | intro _)

theorem State.leaveQuiet_kept {φ : Frame} {s : State} (hm : Sub 0x9c0008 φ.fx) (h1 : s.Kept φ) :
    State.Kept φ (State.leaveQuiet s) := by
  unfold State.leaveQuiet
  try dsimp only
  (repeat' first
    | with_reducible assumption
    | with_reducible exact Sub.of hm (by decide)
    | with_reducible apply State.setLane_kept
    | with_reducible apply State.porRelease_kept
    | with_reducible apply kept_ite
    | with_reducible apply kept_foldl
    | with_reducible apply kept_foldl_fst
    | with_reducible apply outKept_next
    | with_reducible apply outKept_ite
    | simp only [kept_mk, hm.bit 18 rfl, or_true, true_or]
    | split
    | intro _)

theorem specQuietLeave_kept {φ : Frame}  (hm : Sub 0x9c0008 φ.fx)  :
    CmdSpec.Kept φ (specQuietLeave ) := by
  refine ⟨?_, ?_, ?_, ?_⟩ <;> intros <;> dsimp only [specQuietLeave] <;>
  (repeat' first
    | with_reducible assumption
    | with_reducible exact Sub.of hm (by decide)
    | with_reducible apply State.leaveQuiet_kept
    | with_reducible apply kept_ite
    | with_reducible apply kept_foldl
    | with_reducible apply kept_foldl_fst
    | with_reducible apply outKept_next
    | with_reducible apply outKept_ite
    | simp only [kept_mk, hm.bit 18 rfl, or_true, true_or]
    | split
    | intro _)

theorem execFerryStatus_kept {φ : Frame} {r : Req} {s : State} (hm : Sub 0x17efdce0fafc007a03dc φ.fx) (h1 : s.Kept φ)
    :
    OutKept φ (execFerryStatus r s) := by
  unfold execFerryStatus
  try dsimp only
  (repeat' first
    | with_reducible assumption
    | with_reducible exact Sub.of hm (by decide)
    | with_reducible apply runScs_kept
    | with_reducible apply specFerryStatus_kept
    | with_reducible apply kept_ite
    | with_reducible apply kept_foldl
    | with_reducible apply kept_foldl_fst
    | with_reducible apply outKept_next
    | with_reducible apply outKept_ite
    | simp only [kept_mk, true_or]
    | split
    | intro _)

theorem execFerryConfig_kept {φ : Frame} {r : Req} {s : State} (hm : Sub 0x17efdce0fafc007a07dc φ.fx) (h1 : s.Kept φ)
    :
    OutKept φ (execFerryConfig r s) := by
  unfold execFerryConfig
  try dsimp only
  (repeat' first
    | with_reducible assumption
    | with_reducible exact Sub.of hm (by decide)
    | with_reducible apply specFerryConfig_kept
    | with_reducible apply runScs_kept
    | with_reducible apply kept_ite
    | with_reducible apply kept_foldl
    | with_reducible apply kept_foldl_fst
    | with_reducible apply outKept_next
    | with_reducible apply outKept_ite
    | simp only [kept_mk, true_or]
    | split
    | intro _)

theorem execHandover_kept {φ : Frame} {r : Req} {s : State} (hm : Sub 0x17efdce0fafc007e03dc φ.fx) (h1 : s.Kept φ) :
    OutKept φ (execHandover r s) := by
  unfold execHandover
  try dsimp only
  (repeat' first
    | with_reducible assumption
    | with_reducible exact Sub.of hm (by decide)
    | with_reducible apply specHandover_kept
    | with_reducible apply runScs_kept
    | with_reducible apply kept_ite
    | with_reducible apply kept_foldl
    | with_reducible apply kept_foldl_fst
    | with_reducible apply outKept_next
    | with_reducible apply outKept_ite
    | simp only [kept_mk, true_or]
    | split
    | intro _)

theorem execLanePhase_kept {φ : Frame} {r : Req} {s : State} (hm : Sub 0x17efdce0fafc007a03dc φ.fx) (h1 : s.Kept φ) :
    OutKept φ (execLanePhase r s) := by
  unfold execLanePhase
  try dsimp only
  (repeat' first
    | with_reducible assumption
    | with_reducible exact Sub.of hm (by decide)
    | with_reducible apply specLanePhase_kept
    | with_reducible apply runScs_kept
    | with_reducible apply kept_ite
    | with_reducible apply kept_foldl
    | with_reducible apply kept_foldl_fst
    | with_reducible apply outKept_next
    | with_reducible apply outKept_ite
    | simp only [kept_mk, true_or]
    | split
    | intro _)

theorem execLaneDisqualify_kept {φ : Frame} {r : Req} {s : State} (hm : Sub 0x17efdce0fafc007e03dc φ.fx) (h1 : s.Kept
    φ) :
    OutKept φ (execLaneDisqualify r s) := by
  unfold execLaneDisqualify
  try dsimp only
  (repeat' first
    | with_reducible assumption
    | with_reducible exact Sub.of hm (by decide)
    | with_reducible apply specLaneDisqualify_kept
    | with_reducible apply runScs_kept
    | with_reducible apply kept_ite
    | with_reducible apply kept_foldl
    | with_reducible apply kept_foldl_fst
    | with_reducible apply outKept_next
    | with_reducible apply outKept_ite
    | simp only [kept_mk, true_or]
    | split
    | intro _)

theorem execLaneRequalify_kept {φ : Frame} {r : Req} {s : State} (hm : Sub 0x17efdce0fafc007a03dc φ.fx) (h1 : s.Kept
    φ) :
    OutKept φ (execLaneRequalify r s) := by
  unfold execLaneRequalify
  try dsimp only
  (repeat' first
    | with_reducible assumption
    | with_reducible exact Sub.of hm (by decide)
    | with_reducible apply runScs_kept
    | with_reducible apply specLaneRequalify_kept
    | with_reducible apply kept_ite
    | with_reducible apply kept_foldl
    | with_reducible apply kept_foldl_fst
    | with_reducible apply outKept_next
    | with_reducible apply outKept_ite
    | simp only [kept_mk, true_or]
    | split
    | intro _)

theorem execLaneResync_kept {φ : Frame} {r : Req} {s : State} (hm : Sub 0x17efdce0fafc007e03dc φ.fx) (h1 : s.Kept φ) :
    OutKept φ (execLaneResync r s) := by
  unfold execLaneResync
  try dsimp only
  (repeat' first
    | with_reducible assumption
    | with_reducible exact Sub.of hm (by decide)
    | with_reducible apply specLaneResync_kept
    | with_reducible apply runScs_kept
    | with_reducible apply kept_ite
    | with_reducible apply kept_foldl
    | with_reducible apply kept_foldl_fst
    | with_reducible apply outKept_next
    | with_reducible apply outKept_ite
    | simp only [kept_mk, true_or]
    | split
    | intro _)

theorem execDiscrepancyLog_kept {φ : Frame} {r : Req} {s : State} (hm : Sub 0x17efdce0fafc007a03dc φ.fx) (h1 : s.Kept
    φ) :
    OutKept φ (execDiscrepancyLog r s) := by
  unfold execDiscrepancyLog
  try dsimp only
  (repeat' first
    | with_reducible assumption
    | with_reducible exact Sub.of hm (by decide)
    | with_reducible apply specDiscrepancyLog_kept
    | with_reducible apply runScs_kept
    | with_reducible apply kept_ite
    | with_reducible apply kept_foldl
    | with_reducible apply kept_foldl_fst
    | with_reducible apply outKept_next
    | with_reducible apply outKept_ite
    | simp only [kept_mk, true_or]
    | split
    | intro _)

theorem execQuietEnter_kept {φ : Frame} {r : Req} {s : State} (hm : Sub 0x17efdce0fafc007e03dc φ.fx) (h1 : s.Kept φ) :
    OutKept φ (execQuietEnter r s) := by
  unfold execQuietEnter
  try dsimp only
  (repeat' first
    | with_reducible assumption
    | with_reducible exact Sub.of hm (by decide)
    | with_reducible apply specQuietEnter_kept
    | with_reducible apply runScs_kept
    | with_reducible apply kept_ite
    | with_reducible apply kept_foldl
    | with_reducible apply kept_foldl_fst
    | with_reducible apply outKept_next
    | with_reducible apply outKept_ite
    | simp only [kept_mk, true_or]
    | split
    | intro _)

theorem execQuietLeave_kept {φ : Frame} {r : Req} {s : State} (hm : Sub 0x17efdce0fafc00fe03dc φ.fx) (h1 : s.Kept φ) :
    OutKept φ (execQuietLeave r s) := by
  unfold execQuietLeave
  try dsimp only
  (repeat' first
    | with_reducible assumption
    | with_reducible exact Sub.of hm (by decide)
    | with_reducible apply runScs_kept
    | with_reducible apply specQuietLeave_kept
    | with_reducible apply kept_ite
    | with_reducible apply kept_foldl
    | with_reducible apply kept_foldl_fst
    | with_reducible apply outKept_next
    | with_reducible apply outKept_ite
    | simp only [kept_mk, true_or]
    | split
    | intro _)

end Sys2Proof.Machine
end

