-- ==== Sys2Proof/Laws/KeptBoundary.lean ====
section
/-! SUPPORT. The operations of Boundary.lean keep the invariant, the queue and the time. -/

namespace Sys2Proof.Machine

theorem State.sealRecords_kept {φ : Frame} {s : State} (hm : Sub 0x208a2000000208 φ.fx) (h1 : s.Kept φ) :
    State.Kept φ (State.sealRecords s) := by
  unfold State.sealRecords
  try dsimp only
  (repeat' first
    | with_reducible assumption
    | with_reducible exact Sub.of hm (by decide)
    | with_reducible apply State.sealElems_kept
    | with_reducible apply State.setCommits_kept
    | with_reducible apply State.sealEvents_kept
    | with_reducible apply kept_ite
    | with_reducible apply kept_foldl
    | with_reducible apply kept_foldl_fst
    | with_reducible apply outKept_next
    | with_reducible apply outKept_ite
    | simp only [kept_mk, hm.bit 41 rfl, hm.bit 43 rfl, hm.bit 53 rfl, or_true, true_or]
    | split
    | intro _)

theorem State.noteImage_kept {φ : Frame} {s : State} {l : Lane} {n : Nat} (hm : Sub 0x8 φ.fx) (h1 : s.Kept φ) :
    State.Kept φ (State.noteImage s l n) := by
  unfold State.noteImage
  try dsimp only
  (repeat' first
    | with_reducible assumption
    | with_reducible exact Sub.of hm (by decide)
    | with_reducible apply State.setFld_kept
    | with_reducible apply kept_ite
    | with_reducible apply kept_foldl
    | with_reducible apply kept_foldl_fst
    | with_reducible apply outKept_next
    | with_reducible apply outKept_ite
    | simp only [kept_mk, true_or]
    | split
    | intro _)

theorem State.takeImage_kept {φ : Frame} {s : State} {h : Lane} {n : Nat} (hm : Sub 0x1c0008 φ.fx) (h1 : s.Kept φ) :
    State.Kept φ (State.takeImage s h n) := by
  unfold State.takeImage
  try dsimp only
  (repeat' first
    | with_reducible assumption
    | with_reducible exact Sub.of hm (by decide)
    | with_reducible apply State.toUnsync_kept
    | with_reducible apply State.setBitF_kept
    | with_reducible apply State.noteImage_kept
    | with_reducible apply kept_ite
    | with_reducible apply kept_foldl
    | with_reducible apply kept_foldl_fst
    | with_reducible apply outKept_next
    | with_reducible apply outKept_ite
    | simp only [kept_mk, hm.bit 18 rfl, or_true, true_or]
    | split
    | intro _)

theorem execFrameSeal_kept {φ : Frame} {overrun : Bool} {imageBytes : Nat} {s : State} (hm : Sub 0x208a20001c0208
    φ.fx) (h1 : s.Kept φ) :
    OutKept φ (execFrameSeal overrun imageBytes s) := by
  unfold execFrameSeal
  try dsimp only
  (repeat' first
    | with_reducible assumption
    | with_reducible exact Sub.of hm (by decide)
    | with_reducible apply State.setBitF_kept
    | with_reducible apply State.sealRecords_kept
    | with_reducible apply State.count_kept
    | with_reducible apply State.takeImage_kept
    | with_reducible apply kept_ite
    | with_reducible apply kept_foldl
    | with_reducible apply kept_foldl_fst
    | with_reducible apply outKept_next
    | with_reducible apply outKept_ite
    | simp only [kept_mk, hm.bit 18 rfl, or_true, true_or]
    | split
    | intro _)

theorem execStateImageReceived_kept {φ : Frame} {crcOk : Bool} {inTime : Bool} {xlateOk : Bool} {s : State} (hm : Sub
    0x100140000000001c0108 φ.fx) (h1 : s.Kept φ) :
    OutKept φ (execStateImageReceived crcOk inTime xlateOk s) := by
  unfold execStateImageReceived
  try dsimp only
  (repeat' first
    | with_reducible assumption
    | with_reducible exact Sub.of hm (by decide)
    | with_reducible apply State.toUnsync_kept
    | with_reducible apply State.startRevert_kept
    | with_reducible apply State.setBitF_kept
    | with_reducible apply State.setBitBoth_kept
    | with_reducible apply State.noteImage_kept
    | with_reducible apply kept_ite
    | with_reducible apply kept_foldl
    | with_reducible apply kept_foldl_fst
    | with_reducible apply outKept_next
    | with_reducible apply outKept_ite
    | simp only [kept_mk, hm.bit 18 rfl, or_true, true_or]
    | split
    | intro _)

theorem State.snapStep_kept {φ : Frame} {s : State} {l : Lane} (hm : Sub 0x34cc030cc001c0318 φ.fx) (h1 : s.Kept φ) :
    State.Kept φ (State.snapStep s l) := by
  unfold State.snapStep
  try dsimp only
  (repeat' first
    | with_reducible assumption
    | with_reducible exact Sub.of hm (by decide)
    | with_reducible apply State.toUnsync_kept
    | with_reducible apply State.laneToStandby_kept
    | with_reducible apply State.setFldBoth_kept
    | with_reducible apply kept_ite
    | with_reducible apply kept_foldl
    | with_reducible apply kept_foldl_fst
    | with_reducible apply outKept_next
    | with_reducible apply outKept_ite
    | simp only [kept_mk, hm.bit 18 rfl, or_true, true_or]
    | split
    | intro _)

theorem State.imageStep_kept {φ : Frame} {s : State} {l : Lane} (hm : Sub 0x34cc030cc001c0398 φ.fx) (h1 : s.Kept φ) :
    State.Kept φ (State.imageStep s l) := by
  unfold State.imageStep
  try dsimp only
  (repeat' first
    | with_reducible assumption
    | with_reducible exact Sub.of hm (by decide)
    | with_reducible apply State.toUnsync_kept
    | with_reducible apply State.seekFerry_kept
    | with_reducible apply State.snapStep_kept
    | with_reducible apply State.loadImage_kept
    | with_reducible apply kept_ite
    | with_reducible apply kept_foldl
    | with_reducible apply kept_foldl_fst
    | with_reducible apply outKept_next
    | with_reducible apply outKept_ite
    | simp only [kept_mk, true_or]
    | split
    | intro _)

theorem State.blockCommits_kept {φ : Frame} {s : State} {l : Lane} {block : Nat} {f : State → Commit → State} (h1 :
    s.Kept φ) (hf : ∀ t y0, t.Kept φ → State.Kept φ (f t y0)) :
    State.Kept φ (State.blockCommits s l block f) := by
  unfold State.blockCommits
  try dsimp only
  (repeat' first
    | with_reducible assumption
    | with_reducible apply hf
    | with_reducible apply kept_ite
    | with_reducible apply kept_foldl
    | with_reducible apply kept_foldl_fst
    | with_reducible apply outKept_next
    | with_reducible apply outKept_ite
    | simp only [kept_mk, true_or]
    | split
    | intro _)

theorem applyFerry_kept {φ : Frame} {s : State} {c : Commit} (hm : Sub 0x14000000000000708 φ.fx) (h1 : s.Kept φ) :
    State.Kept φ (applyFerry s c) := by
  unfold applyFerry
  try dsimp only
  (repeat' first
    | with_reducible assumption
    | with_reducible exact Sub.of hm (by decide)
    | with_reducible apply State.applyCommit_kept
    | with_reducible apply kept_ite
    | with_reducible apply kept_foldl
    | with_reducible apply kept_foldl_fst
    | with_reducible apply outKept_next
    | with_reducible apply outKept_ite
    | simp only [kept_mk, true_or]
    | split
    | intro _)

theorem applyLedg_kept {φ : Frame} {s : State} {c : Commit} (hm : Sub 0x14000000000000708 φ.fx) (h1 : s.Kept φ) :
    State.Kept φ (applyLedg s c) := by
  unfold applyLedg
  try dsimp only
  (repeat' first
    | with_reducible assumption
    | with_reducible exact Sub.of hm (by decide)
    | with_reducible apply State.applyCommit_kept
    | with_reducible apply kept_ite
    | with_reducible apply kept_foldl
    | with_reducible apply kept_foldl_fst
    | with_reducible apply outKept_next
    | with_reducible apply outKept_ite
    | simp only [kept_mk, true_or]
    | split
    | intro _)

theorem applyScsm_kept {φ : Frame} {s : State} {c : Commit} (hm : Sub 0x14000000000000708 φ.fx) (h1 : s.Kept φ) :
    State.Kept φ (applyScsm s c) := by
  unfold applyScsm
  try dsimp only
  (repeat' first
    | with_reducible assumption
    | with_reducible exact Sub.of hm (by decide)
    | with_reducible apply State.applyCommit_kept
    | with_reducible apply kept_ite
    | with_reducible apply kept_foldl
    | with_reducible apply kept_foldl_fst
    | with_reducible apply outKept_next
    | with_reducible apply outKept_ite
    | simp only [kept_mk, true_or]
    | split
    | intro _)

theorem applyWin_kept {φ : Frame} {s : State} {c : Commit} (hm : Sub 0x15000000000000708 φ.fx) (h1 : s.Kept φ) :
    State.Kept φ (applyWin s c) := by
  unfold applyWin
  try dsimp only
  (repeat' first
    | with_reducible assumption
    | with_reducible exact Sub.of hm (by decide)
    | with_reducible apply State.applyCw_kept
    | with_reducible apply kept_ite
    | with_reducible apply kept_foldl
    | with_reducible apply kept_foldl_fst
    | with_reducible apply outKept_next
    | with_reducible apply outKept_ite
    | simp only [kept_mk, true_or]
    | split
    | intro _)

theorem State.laneBoundary_kept {φ : Frame} {s : State} {l : Lane} (hm : Sub 0x17effce4fffc007a07dc φ.fx) (h1 : s.Kept
    φ) :
    State.Kept φ (State.laneBoundary s l) := by
  unfold State.laneBoundary
  try dsimp only
  (repeat' first
    | with_reducible assumption
    | with_reducible exact Sub.of hm (by decide)
    | with_reducible apply State.applyPari_kept
    | with_reducible apply applyFerry_kept
    | with_reducible apply State.canBoundary_kept
    | with_reducible apply State.applyHarb_kept
    | with_reducible apply State.blockCommits_kept
    | with_reducible apply State.iovBoundary_kept
    | with_reducible apply State.lhsBoundary_kept
    | with_reducible apply State.blkTry_kept
    | with_reducible apply applyLedg_kept
    | with_reducible apply State.cvcBoundary_kept
    | with_reducible apply State.updCommits_kept
    | with_reducible apply applyWin_kept
    | with_reducible apply State.tideBoundary_kept
    | with_reducible apply applyScsm_kept
    | with_reducible apply kept_ite
    | with_reducible apply kept_foldl
    | with_reducible apply kept_foldl_fst
    | with_reducible apply outKept_next
    | with_reducible apply outKept_ite
    | simp only [kept_mk, true_or]
    | split
    | intro _)

theorem State.disqDue_kept {φ : Frame} {s : State} (hm : Sub 0x140000000001c0108 φ.fx) (h1 : s.Kept φ) :
    State.Kept φ (State.disqDue s) := by
  unfold State.disqDue
  try dsimp only
  (repeat' first
    | with_reducible assumption
    | with_reducible exact Sub.of hm (by decide)
    | with_reducible apply State.toDisq_kept
    | with_reducible apply kept_ite
    | with_reducible apply kept_foldl
    | with_reducible apply kept_foldl_fst
    | with_reducible apply outKept_next
    | with_reducible apply outKept_ite
    | simp only [kept_mk, hm.bit 18 rfl, or_true, true_or]
    | split
    | intro _)

theorem State.handOver_kept {φ : Frame} {s : State} {h : Lane} {k : Handover} (hm : Sub 0xc001c0088 φ.fx) (h1 : s.Kept
    φ) :
    State.Kept φ (State.handOver s h k) := by
  unfold State.handOver
  try dsimp only
  (repeat' first
    | with_reducible assumption
    | with_reducible exact Sub.of hm (by decide)
    | with_reducible apply State.tideBecomeStandby_kept
    | with_reducible apply State.setLane_kept
    | with_reducible apply State.countBoth_kept
    | with_reducible apply State.setBitF_kept
    | with_reducible apply State.setLst_kept
    | with_reducible apply State.sendRequest_kept
    | with_reducible apply State.selHandover_kept
    | with_reducible apply State.emit_kept
    | with_reducible apply kept_ite
    | with_reducible apply kept_foldl
    | with_reducible apply kept_foldl_fst
    | with_reducible apply outKept_next
    | with_reducible apply outKept_ite
    | simp only [kept_mk, hm.bit 18 rfl, or_true, true_or]
    | split
    | intro _)

theorem State.handoverFails_kept {φ : Frame} {s : State} (hm : Sub 0x1400000000004010c φ.fx) (h1 : s.Kept φ) :
    State.Kept φ (State.handoverFails s) := by
  unfold State.handoverFails
  try dsimp only
  (repeat' first
    | with_reducible assumption
    | with_reducible exact Sub.of hm (by decide)
    | with_reducible apply State.tickFree_kept
    | with_reducible apply State.disposeAll_kept
    | with_reducible apply kept_ite
    | with_reducible apply kept_foldl
    | with_reducible apply kept_foldl_fst
    | with_reducible apply outKept_next
    | with_reducible apply outKept_ite
    | simp only [kept_mk, hm.bit 18 rfl, or_true, true_or]
    | split
    | intro _)

theorem State.handoverLapses_kept {φ : Frame} {s : State} {h : Lane} {k : Handover} (hm : Sub 0x140000000001c018c
    φ.fx) (h1 : s.Kept φ) :
    State.Kept φ (State.handoverLapses s h k) := by
  unfold State.handoverLapses
  try dsimp only
  (repeat' first
    | with_reducible assumption
    | with_reducible exact Sub.of hm (by decide)
    | with_reducible apply State.setLane_kept
    | with_reducible apply State.setLst_kept
    | with_reducible apply State.tickFree_kept
    | with_reducible apply State.emit_kept
    | with_reducible apply State.disposeAll_kept
    | with_reducible apply kept_ite
    | with_reducible apply kept_foldl
    | with_reducible apply kept_foldl_fst
    | with_reducible apply outKept_next
    | with_reducible apply outKept_ite
    | simp only [kept_mk, hm.bit 18 rfl, or_true, true_or]
    | split
    | intro _)

theorem State.ferryTurn_kept {φ : Frame} {s : State} (hm : Sub 0x14000000c001c018c φ.fx) (h1 : s.Kept φ) :
    State.Kept φ (State.ferryTurn s) := by
  unfold State.ferryTurn
  try dsimp only
  (repeat' first
    | with_reducible assumption
    | with_reducible exact Sub.of hm (by decide)
    | with_reducible apply State.disqDue_kept
    | with_reducible apply State.handOver_kept
    | with_reducible apply State.handoverFails_kept
    | with_reducible apply State.handoverLapses_kept
    | with_reducible apply kept_ite
    | with_reducible apply kept_foldl
    | with_reducible apply kept_foldl_fst
    | with_reducible apply outKept_next
    | with_reducible apply outKept_ite
    | simp only [kept_mk, hm.bit 18 rfl, or_true, true_or]
    | split
    | intro _)

theorem State.countCycles_kept {φ : Frame} {s : State} (hm : Sub 0x40000 φ.fx) (h1 : s.Kept φ) :
    State.Kept φ (State.countCycles s) := by
  unfold State.countCycles
  try dsimp only
  (repeat' first
    | with_reducible assumption
    | with_reducible exact Sub.of hm (by decide)
    | with_reducible apply kept_ite
    | with_reducible apply kept_foldl
    | with_reducible apply kept_foldl_fst
    | with_reducible apply outKept_next
    | with_reducible apply outKept_ite
    | simp only [kept_mk, hm.bit 18 rfl, or_true, true_or]
    | split
    | intro _)

theorem State.quietStep_kept {φ : Frame} {s : State} (hm : Sub 0xd6cfdee0fafc00de035c φ.fx) (h1 : s.Kept φ) :
    State.Kept φ (State.quietStep s) := by
  unfold State.quietStep
  try dsimp only
  (repeat' first
    | with_reducible assumption
    | with_reducible exact Sub.of hm (by decide)
    | with_reducible apply State.parFlush_kept
    | with_reducible apply State.setLane_kept
    | with_reducible apply State.leaveQuiet_kept
    | with_reducible apply State.setEthStat_kept
    | with_reducible apply State.laneReset_kept
    | with_reducible apply State.resolveAll_kept
    | with_reducible apply State.setBitBoth_kept
    | with_reducible apply State.failed_kept
    | with_reducible apply State.tickFree_kept
    | with_reducible apply State.done_kept
    | with_reducible apply State.forEach_kept
    | with_reducible apply State.disposeAll_kept
    | with_reducible apply kept_ite
    | with_reducible apply kept_foldl
    | with_reducible apply kept_foldl_fst
    | with_reducible apply outKept_next
    | with_reducible apply outKept_ite
    | simp only [kept_mk, hm.bit 18 rfl, or_true, true_or]
    | split
    | intro _)

theorem State.nextNumber_kept {φ : Frame} {s : State} {l : Lane} (hm : Sub 0x8 φ.fx) (h1 : s.Kept φ) :
    State.Kept φ (State.nextNumber s l) := by
  unfold State.nextNumber
  try dsimp only
  (repeat' first
    | with_reducible assumption
    | with_reducible exact Sub.of hm (by decide)
    | with_reducible apply State.setReg_kept
    | with_reducible apply kept_ite
    | with_reducible apply kept_foldl
    | with_reducible apply kept_foldl_fst
    | with_reducible apply outKept_next
    | with_reducible apply outKept_ite
    | simp only [kept_mk, true_or]
    | split
    | intro _)

theorem State.renew_kept {φ : Frame} {s : State} (hm : Sub 0x180080 φ.fx) (h1 : s.Kept φ) :
    State.Kept φ (State.renew s) := by
  unfold State.renew
  try dsimp only
  (repeat' first
    | with_reducible assumption
    | with_reducible exact Sub.of hm (by decide)
    | with_reducible apply State.setLane_kept
    | with_reducible apply State.emit_kept
    | with_reducible apply kept_ite
    | with_reducible apply kept_foldl
    | with_reducible apply kept_foldl_fst
    | with_reducible apply outKept_next
    | with_reducible apply outKept_ite
    | simp only [kept_mk, true_or]
    | split
    | intro _)

theorem State.configuredStep_kept {φ : Frame} {s : State} (hm : Sub 0x9c0000 φ.fx) (h1 : s.Kept φ) :
    State.Kept φ (State.configuredStep s) := by
  unfold State.configuredStep
  try dsimp only
  (repeat' first
    | with_reducible assumption
    | with_reducible exact Sub.of hm (by decide)
    | with_reducible apply State.syncSafe_kept
    | with_reducible apply kept_ite
    | with_reducible apply kept_foldl
    | with_reducible apply kept_foldl_fst
    | with_reducible apply outKept_next
    | with_reducible apply outKept_ite
    | simp only [kept_mk, hm.bit 18 rfl, hm.bit 23 rfl, or_true, true_or]
    | split
    | intro _)

theorem State.sendFrames_kept {φ : Frame} {s : State} {l : Lane} (hm : Sub 0x80 φ.fx) (h1 : s.Kept φ) :
    State.Kept φ (State.sendFrames s l) := by
  unfold State.sendFrames
  try dsimp only
  (repeat' first
    | with_reducible assumption
    | with_reducible exact Sub.of hm (by decide)
    | with_reducible apply State.emit_kept
    | with_reducible apply kept_ite
    | with_reducible apply kept_foldl
    | with_reducible apply kept_foldl_fst
    | with_reducible apply outKept_next
    | with_reducible apply outKept_ite
    | simp only [kept_mk, true_or]
    | split
    | intro _)

theorem State.syncFerryViews_kept {φ : Frame} {s : State} {l : Lane} (hm : Sub 0x8 φ.fx) (h1 : s.Kept φ) :
    State.Kept φ (State.syncFerryViews s l) := by
  unfold State.syncFerryViews
  try dsimp only
  (repeat' first
    | with_reducible assumption
    | with_reducible exact Sub.of hm (by decide)
    | with_reducible apply State.setReg_kept
    | with_reducible apply State.setFld_kept
    | with_reducible apply kept_ite
    | with_reducible apply kept_foldl
    | with_reducible apply kept_foldl_fst
    | with_reducible apply outKept_next
    | with_reducible apply outKept_ite
    | simp only [kept_mk, true_or]
    | split
    | intro _)

theorem State.cycleBoundary_kept {φ : Frame} {s : State} {tcycUs : Nat} (hm : Sub 0xd7effee4fffc02fe07dc φ.fx) (h1 :
    s.Kept φ) :
    State.Kept φ (State.cycleBoundary s tcycUs) := by
  unfold State.cycleBoundary
  try dsimp only
  (repeat' first
    | with_reducible assumption
    | with_reducible exact Sub.of hm (by decide)
    | with_reducible apply State.tideArms_kept
    | with_reducible apply State.countCycles_kept
    | with_reducible apply State.replay_kept
    | with_reducible apply State.imageStep_kept
    | with_reducible apply State.renew_kept
    | with_reducible apply State.updBoundary_kept
    | with_reducible apply State.updCount_kept
    | with_reducible apply State.laneBoundary_kept
    | with_reducible apply State.syncLedg_kept
    | with_reducible apply State.sendFrames_kept
    | with_reducible apply State.quietStep_kept
    | with_reducible apply State.ferryTurn_kept
    | with_reducible apply State.nextNumber_kept
    | with_reducible apply State.powerCycle_kept
    | with_reducible apply State.forEach_kept
    | with_reducible apply State.configuredStep_kept
    | with_reducible apply State.syncFerryViews_kept
    | with_reducible apply kept_ite
    | with_reducible apply kept_foldl
    | with_reducible apply kept_foldl_fst
    | with_reducible apply outKept_next
    | with_reducible apply outKept_ite
    | simp only [kept_mk, hm.bit 18 rfl, or_true, true_or]
    | split
    | intro _)

theorem execCycleBoundary_kept {φ : Frame} {tcycUs : Nat} {s : State} (hm : Sub 0xd7effee4fffc02fe07dc φ.fx) (h1 :
    s.Kept φ) :
    OutKept φ (execCycleBoundary tcycUs s) := by
  unfold execCycleBoundary
  try dsimp only
  (repeat' first
    | with_reducible assumption
    | with_reducible exact Sub.of hm (by decide)
    | with_reducible apply State.cycleBoundary_kept
    | with_reducible apply kept_ite
    | with_reducible apply kept_foldl
    | with_reducible apply kept_foldl_fst
    | with_reducible apply outKept_next
    | with_reducible apply outKept_ite
    | simp only [kept_mk, true_or]
    | split
    | intro _)

end Sys2Proof.Machine
end

