-- ==== Sys2Proof/Laws/KeptFrames.lean ====
section
/-! SUPPORT. The operations of Frames.lean keep the invariant, the queue and the time. -/

namespace Sys2Proof.Machine

theorem State.dropTwin_kept {φ : Frame} {s : State} {c : Commit} (hm : Sub 0x14000000000000708 φ.fx) (h1 : s.Kept φ) :
    State.Kept φ (State.dropTwin s c) := by
  unfold State.dropTwin
  try dsimp only
  (repeat' first
    | with_reducible assumption
    | with_reducible exact Sub.of hm (by decide)
    | with_reducible apply State.dropCommit_kept
    | with_reducible apply State.setNum_kept
    | with_reducible apply State.settleAll_kept
    | with_reducible apply kept_ite
    | with_reducible apply kept_foldl
    | with_reducible apply kept_foldl_fst
    | with_reducible apply outKept_next
    | with_reducible apply outKept_ite
    | simp only [kept_mk, true_or]
    | split
    | intro _)

theorem State.takeCopiesOf_kept {φ : Frame} {s : State} {l : Lane} {block : Nat} {region : Nat} {f : State → Commit →
    State} (hm : Sub 0x14000000000000708 φ.fx) (h1 : s.Kept φ) (hf : ∀ t y0, t.Kept φ → State.Kept φ (f t y0)) :
    State.Kept φ (State.takeCopiesOf s l block region f) := by
  unfold State.takeCopiesOf
  try dsimp only
  (repeat' first
    | with_reducible assumption
    | with_reducible exact Sub.of hm (by decide)
    | with_reducible apply State.dropTwin_kept
    | with_reducible apply hf
    | with_reducible apply kept_ite
    | with_reducible apply kept_foldl
    | with_reducible apply kept_foldl_fst
    | with_reducible apply outKept_next
    | with_reducible apply outKept_ite
    | simp only [kept_mk, true_or]
    | split
    | intro _)

theorem applyOut_kept {φ : Frame} {chk : State → Commit → Bool} {flagAddr : Nat} {flag : Fld} {xs : List Nat} {s :
    State} {c : Commit} (hm : Sub 0x14000000002000708 φ.fx) (h1 : s.Kept φ) :
    State.Kept φ (applyOut chk flagAddr flag xs s c) := by
  unfold applyOut
  try dsimp only
  (repeat' first
    | with_reducible assumption
    | with_reducible exact Sub.of hm (by decide)
    | with_reducible apply State.afterOutCommit_kept
    | with_reducible apply State.applyCommit_kept
    | with_reducible apply kept_ite
    | with_reducible apply kept_foldl
    | with_reducible apply kept_foldl_fst
    | with_reducible apply outKept_next
    | with_reducible apply outKept_ite
    | simp only [kept_mk, true_or]
    | split
    | intro _)

theorem applySupc_kept {φ : Frame} {s : State} {c : Commit} (hm : Sub 0x14000000018000708 φ.fx) (h1 : s.Kept φ) :
    State.Kept φ (applySupc s c) := by
  unfold applySupc
  try dsimp only
  (repeat' first
    | with_reducible assumption
    | with_reducible exact Sub.of hm (by decide)
    | with_reducible apply State.setPw_kept
    | with_reducible apply State.dropCommit_kept
    | with_reducible apply State.setNum_kept
    | with_reducible apply State.applyCommit_kept
    | with_reducible apply State.disposeAll_kept
    | with_reducible apply kept_ite
    | with_reducible apply kept_foldl
    | with_reducible apply kept_foldl_fst
    | with_reducible apply outKept_next
    | with_reducible apply outKept_ite
    | simp only [kept_mk, true_or]
    | split
    | intro _)

theorem applyField_kept {φ : Frame} {s : State} {c : Commit} (hm : Sub 0x14000000020000708 φ.fx) (h1 : s.Kept φ) :
    State.Kept φ (applyField s c) := by
  unfold applyField
  try dsimp only
  (repeat' first
    | with_reducible assumption
    | with_reducible exact Sub.of hm (by decide)
    | with_reducible apply State.applyCommit_kept
    | with_reducible apply State.afterFcCommit_kept
    | with_reducible apply kept_ite
    | with_reducible apply kept_foldl
    | with_reducible apply kept_foldl_fst
    | with_reducible apply outKept_next
    | with_reducible apply outKept_ite
    | simp only [kept_mk, true_or]
    | split
    | intro _)

theorem applyNms_kept {φ : Frame} {s : State} {c : Commit} (hm : Sub 0x14000000000000708 φ.fx) (h1 : s.Kept φ) :
    State.Kept φ (applyNms s c) := by
  unfold applyNms
  try dsimp only
  (repeat' first
    | with_reducible assumption
    | with_reducible exact Sub.of hm (by decide)
    | with_reducible apply State.applyCommit_kept
    | with_reducible apply kept_ite
    | with_reducible apply kept_foldl
    | with_reducible apply kept_foldl_fst
    | with_reducible apply outKept_next
    | with_reducible apply outKept_ite
    | simp only [kept_mk, true_or]
    | split
    | intro _)

theorem State.takeEvents_kept {φ : Frame} {s : State} {block : Nat} {region : Nat} (hm : Sub 0x2000000008 φ.fx) (h1 :
    s.Kept φ) :
    State.Kept φ (State.takeEvents s block region) := by
  unfold State.takeEvents
  try dsimp only
  (repeat' first
    | with_reducible assumption
    | with_reducible exact Sub.of hm (by decide)
    | with_reducible apply State.activateAll_kept
    | with_reducible apply kept_ite
    | with_reducible apply kept_foldl
    | with_reducible apply kept_foldl_fst
    | with_reducible apply outKept_next
    | with_reducible apply outKept_ite
    | simp only [kept_mk, hm.bit 37 rfl, or_true, true_or]
    | split
    | intro _)

theorem State.frameAtPower_kept {φ : Frame} {s : State} {l : Lane} {d : Nat} {cycle : Nat} (hm : Sub
    0x1400000201a000708 φ.fx) (h1 : s.Kept φ) :
    State.Kept φ (State.frameAtPower s l d cycle) := by
  unfold State.frameAtPower
  try dsimp only
  (repeat' first
    | with_reducible assumption
    | with_reducible exact Sub.of hm (by decide)
    | with_reducible apply State.takeEvents_kept
    | with_reducible apply State.powerFrame_kept
    | with_reducible apply State.setShBit_kept
    | with_reducible apply applySupc_kept
    | with_reducible apply State.takeCopiesOf_kept
    | with_reducible apply State.forEach_kept
    | with_reducible apply applyOut_kept
    | with_reducible apply kept_ite
    | with_reducible apply kept_foldl
    | with_reducible apply kept_foldl_fst
    | with_reducible apply outKept_next
    | with_reducible apply outKept_ite
    | simp only [kept_mk, true_or]
    | split
    | intro _)

theorem State.frameAtField_kept {φ : Frame} {s : State} {l : Lane} {d : Nat} {cycle : Nat} (hm : Sub
    0x140000021e0000708 φ.fx) (h1 : s.Kept φ) :
    State.Kept φ (State.frameAtField s l d cycle) := by
  unfold State.frameAtField
  try dsimp only
  (repeat' first
    | with_reducible assumption
    | with_reducible exact Sub.of hm (by decide)
    | with_reducible apply State.takeEvents_kept
    | with_reducible apply State.setShBit_kept
    | with_reducible apply State.fieldFrame_kept
    | with_reducible apply applyField_kept
    | with_reducible apply State.takeCopiesOf_kept
    | with_reducible apply kept_ite
    | with_reducible apply kept_foldl
    | with_reducible apply kept_foldl_fst
    | with_reducible apply outKept_next
    | with_reducible apply outKept_ite
    | simp only [kept_mk, true_or]
    | split
    | intro _)

theorem applyCmnRec_kept {φ : Frame} {s : State} {r : CmnRec} (hm : Sub 0x1621d400c00840188 φ.fx) (h1 : s.Kept φ) :
    State.Kept φ (applyCmnRec s r) := by
  unfold applyCmnRec
  try dsimp only
  (repeat' first
    | with_reducible assumption
    | with_reducible exact Sub.of hm (by decide)
    | with_reducible apply State.applyTimeSet_kept
    | with_reducible apply State.applyLinWake_kept
    | with_reducible apply State.applyRecover_kept
    | with_reducible apply State.applyKeep_kept
    | with_reducible apply State.applyNmsWake_kept
    | with_reducible apply State.applyTc10Wake_kept
    | with_reducible apply State.applyCurfew_kept
    | with_reducible apply kept_ite
    | with_reducible apply kept_foldl
    | with_reducible apply kept_foldl_fst
    | with_reducible apply outKept_next
    | with_reducible apply outKept_ite
    | simp only [kept_mk, true_or]
    | split
    | intro _)

theorem State.holderRecords_kept {φ : Frame} {s : State} (hm : Sub 0x1623dc80c00840188 φ.fx) (h1 : s.Kept φ) :
    State.Kept φ (State.holderRecords s) := by
  unfold State.holderRecords
  try dsimp only
  (repeat' first
    | with_reducible assumption
    | with_reducible exact Sub.of hm (by decide)
    | with_reducible apply State.takeElems_kept
    | with_reducible apply State.takeSas_kept
    | with_reducible apply applyCmnRec_kept
    | with_reducible apply kept_ite
    | with_reducible apply kept_foldl
    | with_reducible apply kept_foldl_fst
    | with_reducible apply outKept_next
    | with_reducible apply outKept_ite
    | simp only [kept_mk, hm.bit 43 rfl, or_true, true_or]
    | split
    | intro _)

theorem State.frameAtCmn_kept {φ : Frame} {s : State} {l : Lane} {holder : Bool} (hm : Sub 0x1623dcf0c00840788 φ.fx)
    (h1 : s.Kept φ) :
    State.Kept φ (State.frameAtCmn s l holder) := by
  unfold State.frameAtCmn
  try dsimp only
  (repeat' first
    | with_reducible assumption
    | with_reducible exact Sub.of hm (by decide)
    | with_reducible apply State.applyEth_kept
    | with_reducible apply State.applySelFrame_kept
    | with_reducible apply State.applyTime_kept
    | with_reducible apply State.takeCopiesOf_kept
    | with_reducible apply State.pwmFrame_kept
    | with_reducible apply applyNms_kept
    | with_reducible apply State.holderRecords_kept
    | with_reducible apply State.applyCan_kept
    | with_reducible apply State.applyLin_kept
    | with_reducible apply kept_ite
    | with_reducible apply kept_foldl
    | with_reducible apply kept_foldl_fst
    | with_reducible apply outKept_next
    | with_reducible apply outKept_ite
    | simp only [kept_mk, true_or]
    | split
    | intro _)

theorem State.frameContent_kept {φ : Frame} {s : State} {d : Die} {l : Lane} {cycle : Nat} {holder : Bool} (hm : Sub
    0x1623dcf2dfa840788 φ.fx) (h1 : s.Kept φ) :
    State.Kept φ (State.frameContent s d l cycle holder) := by
  unfold State.frameContent
  try dsimp only
  (repeat' first
    | with_reducible assumption
    | with_reducible exact Sub.of hm (by decide)
    | with_reducible apply State.frameAtPower_kept
    | with_reducible apply State.attrFrame_kept
    | with_reducible apply State.frameAtField_kept
    | with_reducible apply State.frameAtCmn_kept
    | with_reducible apply kept_ite
    | with_reducible apply kept_foldl
    | with_reducible apply kept_foldl_fst
    | with_reducible apply outKept_next
    | with_reducible apply outKept_ite
    | simp only [kept_mk, true_or]
    | split
    | intro _)

theorem State.countFrames_kept {φ : Frame} {s : State} {k : Nat} (hm : Sub 0x8 φ.fx) (h1 : s.Kept φ) :
    State.Kept φ (State.countFrames s k) := by
  unfold State.countFrames
  try dsimp only
  (repeat' first
    | with_reducible assumption
    | with_reducible exact Sub.of hm (by decide)
    | with_reducible apply State.count_kept
    | with_reducible apply kept_ite
    | with_reducible apply kept_foldl
    | with_reducible apply kept_foldl_fst
    | with_reducible apply outKept_next
    | with_reducible apply outKept_ite
    | simp only [kept_mk, true_or]
    | split
    | intro _)

theorem State.leaseConflict_kept {φ : Frame} {s : State} (hm : Sub 0x8 φ.fx) (h1 : s.Kept φ) :
    State.Kept φ (State.leaseConflict s) := by
  unfold State.leaseConflict
  try dsimp only
  (repeat' first
    | with_reducible assumption
    | with_reducible exact Sub.of hm (by decide)
    | with_reducible apply State.setBitF_kept
    | with_reducible apply kept_ite
    | with_reducible apply kept_foldl
    | with_reducible apply kept_foldl_fst
    | with_reducible apply outKept_next
    | with_reducible apply outKept_ite
    | simp only [kept_mk, true_or]
    | split
    | intro _)

theorem State.stale_kept {φ : Frame} {s : State} (hm : Sub 0x8 φ.fx) (h1 : s.Kept φ) :
    State.Kept φ (State.stale s) := by
  unfold State.stale
  try dsimp only
  (repeat' first
    | with_reducible assumption
    | with_reducible exact Sub.of hm (by decide)
    | with_reducible apply State.countFrames_kept
    | with_reducible apply kept_ite
    | with_reducible apply kept_foldl
    | with_reducible apply kept_foldl_fst
    | with_reducible apply outKept_next
    | with_reducible apply outKept_ite
    | simp only [kept_mk, true_or]
    | split
    | intro _)

theorem State.applyCopy_kept {φ : Frame} {s : State} {d : Die} {c : FrameCopy} {closed : Bool} (hm : Sub
    0x1623dcf2dfa85ff88 φ.fx) (h1 : s.Kept φ) :
    State.Kept φ (State.applyCopy s d c closed) := by
  unfold State.applyCopy
  try dsimp only
  (repeat' first
    | with_reducible assumption
    | with_reducible exact Sub.of hm (by decide)
    | with_reducible apply State.setDie_kept
    | with_reducible apply State.frameContent_kept
    | with_reducible apply kept_ite
    | with_reducible apply kept_foldl
    | with_reducible apply kept_foldl_fst
    | with_reducible apply outKept_next
    | with_reducible apply outKept_ite
    | simp only [kept_mk, true_or]
    | split
    | intro _)

theorem State.compare_kept {φ : Frame} {s : State} {d : Die} {c : FrameCopy} {blame : Lane} (hm : Sub
    0x140000000001df908 φ.fx) (h1 : s.Kept φ) :
    State.Kept φ (State.compare s d c blame) := by
  unfold State.compare
  try dsimp only
  (repeat' first
    | with_reducible assumption
    | with_reducible exact Sub.of hm (by decide)
    | with_reducible apply State.setDie_kept
    | with_reducible apply State.significant_kept
    | with_reducible apply State.countFrames_kept
    | with_reducible apply kept_ite
    | with_reducible apply kept_foldl
    | with_reducible apply kept_foldl_fst
    | with_reducible apply outKept_next
    | with_reducible apply outKept_ite
    | simp only [kept_mk, true_or]
    | split
    | intro _)

theorem State.inWindow_kept {φ : Frame} {s : State} {d : Die} {w : Window} {c : FrameCopy} (hm : Sub
    0x1623dcf2dfa9dff88 φ.fx) (h1 : s.Kept φ) :
    State.Kept φ (State.inWindow s d w c) := by
  unfold State.inWindow
  try dsimp only
  (repeat' first
    | with_reducible assumption
    | with_reducible exact Sub.of hm (by decide)
    | with_reducible apply State.compare_kept
    | with_reducible apply State.stale_kept
    | with_reducible apply State.leaseConflict_kept
    | with_reducible apply State.setDie_kept
    | with_reducible apply State.applyCopy_kept
    | with_reducible apply kept_ite
    | with_reducible apply kept_foldl
    | with_reducible apply kept_foldl_fst
    | with_reducible apply outKept_next
    | with_reducible apply outKept_ite
    | simp only [kept_mk, true_or]
    | split
    | intro _)

theorem State.closeWindow_kept {φ : Frame} {s : State} {d : Die} (hm : Sub 0x1623dcf2dfa85ff88 φ.fx) (h1 : s.Kept φ) :
    State.Kept φ (State.closeWindow s d) := by
  unfold State.closeWindow
  try dsimp only
  (repeat' first
    | with_reducible assumption
    | with_reducible exact Sub.of hm (by decide)
    | with_reducible apply State.setDie_kept
    | with_reducible apply State.applyCopy_kept
    | with_reducible apply State.countFrames_kept
    | with_reducible apply kept_ite
    | with_reducible apply kept_foldl
    | with_reducible apply kept_foldl_fst
    | with_reducible apply outKept_next
    | with_reducible apply outKept_ite
    | simp only [kept_mk, true_or]
    | split
    | intro _)

theorem State.newWindow_kept {φ : Frame} {s : State} {d : Die} {c : FrameCopy} (hm : Sub 0x1623dcf2dfa9dff88 φ.fx) (h1
    : s.Kept φ) :
    State.Kept φ (State.newWindow s d c) := by
  unfold State.newWindow
  try dsimp only
  (repeat' first
    | with_reducible assumption
    | with_reducible exact Sub.of hm (by decide)
    | with_reducible apply State.stale_kept
    | with_reducible apply State.countFrames_kept
    | with_reducible apply State.inWindow_kept
    | with_reducible apply kept_ite
    | with_reducible apply kept_foldl
    | with_reducible apply kept_foldl_fst
    | with_reducible apply outKept_next
    | with_reducible apply outKept_ite
    | simp only [kept_mk, true_or]
    | split
    | intro _)

theorem State.copyArrives_kept {φ : Frame} {s : State} {c : FrameCopy} (hm : Sub 0x1623dcf2dfa9dff88 φ.fx) (h1 :
    s.Kept φ) :
    State.Kept φ (State.copyArrives s c) := by
  unfold State.copyArrives
  try dsimp only
  (repeat' first
    | with_reducible assumption
    | with_reducible exact Sub.of hm (by decide)
    | with_reducible apply State.stale_kept
    | with_reducible apply State.closeWindow_kept
    | with_reducible apply State.setDie_kept
    | with_reducible apply State.newWindow_kept
    | with_reducible apply State.countFrames_kept
    | with_reducible apply State.inWindow_kept
    | with_reducible apply kept_ite
    | with_reducible apply kept_foldl
    | with_reducible apply kept_foldl_fst
    | with_reducible apply outKept_next
    | with_reducible apply outKept_ite
    | simp only [kept_mk, true_or]
    | split
    | intro _)

theorem execFrameCopyArrival_kept {φ : Frame} {c : FrameCopy} {s : State} (hm : Sub 0x1623dcf2dfa9dff88 φ.fx) (h1 :
    s.Kept φ) :
    OutKept φ (execFrameCopyArrival c s) := by
  unfold execFrameCopyArrival
  try dsimp only
  (repeat' first
    | with_reducible assumption
    | with_reducible exact Sub.of hm (by decide)
    | with_reducible apply State.stale_kept
    | with_reducible apply State.copyArrives_kept
    | with_reducible apply kept_ite
    | with_reducible apply kept_foldl
    | with_reducible apply kept_foldl_fst
    | with_reducible apply outKept_next
    | with_reducible apply outKept_ite
    | simp only [kept_mk, true_or]
    | split
    | intro _)

theorem execAcceptanceWindowClose_kept {φ : Frame} {d : Die} {s : State} (hm : Sub 0x1623dcf2dfa85ff88 φ.fx) (h1 :
    s.Kept φ) :
    OutKept φ (execAcceptanceWindowClose d s) := by
  unfold execAcceptanceWindowClose
  try dsimp only
  (repeat' first
    | with_reducible assumption
    | with_reducible exact Sub.of hm (by decide)
    | with_reducible apply State.closeWindow_kept
    | with_reducible apply kept_ite
    | with_reducible apply kept_foldl
    | with_reducible apply kept_foldl_fst
    | with_reducible apply outKept_next
    | with_reducible apply outKept_ite
    | simp only [kept_mk, true_or]
    | split
    | intro _)

theorem State.mirror_kept {φ : Frame} {s : State} {l : Lane} {off : Nat} {p : Nat → Bool} (hm : Sub 0x8 φ.fx) (h1 : s.Kept φ) :
    State.Kept φ (s.mirror l off p) :=
  kept_regs h1 (hm.bit 3 rfl) (rf_foldl_wf _ _ Prod.snd _ (rf_filter_wf _ _ h1.regs))

theorem State.mirrorPower_kept {φ : Frame} {s : State} {l : Lane} {d : Nat} (hm : Sub 0x18000008 φ.fx) (h1 : s.Kept φ)
    :
    State.Kept φ (State.mirrorPower s l d) := by
  unfold State.mirrorPower
  try dsimp only
  (repeat' first
    | with_reducible assumption
    | with_reducible exact Sub.of hm (by decide)
    | with_reducible apply State.setPw_kept
    | with_reducible apply State.setBitF_kept
    | with_reducible apply State.mirror_kept
    | with_reducible apply kept_ite
    | with_reducible apply kept_foldl
    | with_reducible apply kept_foldl_fst
    | with_reducible apply outKept_next
    | with_reducible apply outKept_ite
    | simp only [kept_mk, true_or]
    | split
    | intro _)

theorem State.takeTallies_kept {φ : Frame} {s : State} {l : Lane} {d : Nat} (hm : Sub 0x2000008 φ.fx) (h1 : s.Kept φ)
    :
    State.Kept φ (State.takeTallies s l d) := by
  unfold State.takeTallies
  try dsimp only
  (repeat' first
    | with_reducible assumption
    | with_reducible exact Sub.of hm (by decide)
    | with_reducible apply State.setOut_kept
    | with_reducible apply State.parTake_kept
    | with_reducible apply State.forEach_kept
    | with_reducible apply kept_ite
    | with_reducible apply kept_foldl
    | with_reducible apply kept_foldl_fst
    | with_reducible apply outKept_next
    | with_reducible apply outKept_ite
    | simp only [kept_mk, true_or]
    | split
    | intro _)

theorem State.mirrorField_kept {φ : Frame} {s : State} {l : Lane} {d : Nat} (hm : Sub 0x8 φ.fx) (h1 : s.Kept φ) :
    State.Kept φ (State.mirrorField s l d) := by
  unfold State.mirrorField
  try dsimp only
  (repeat' first
    | with_reducible assumption
    | with_reducible exact Sub.of hm (by decide)
    | with_reducible apply State.setReg_kept
    | with_reducible apply State.forEach_kept
    | with_reducible apply State.mirror_kept
    | with_reducible apply kept_ite
    | with_reducible apply kept_foldl
    | with_reducible apply kept_foldl_fst
    | with_reducible apply outKept_next
    | with_reducible apply outKept_ite
    | simp only [kept_mk, true_or]
    | split
    | intro _)

theorem State.mirrorCmn_kept {φ : Frame} {s : State} {l : Lane} (hm : Sub 0x8 φ.fx) (h1 : s.Kept φ) :
    State.Kept φ (State.mirrorCmn s l) := by
  unfold State.mirrorCmn
  try dsimp only
  (repeat' first
    | with_reducible assumption
    | with_reducible exact Sub.of hm (by decide)
    | with_reducible apply State.setReg_kept
    | with_reducible apply State.forEach_kept
    | with_reducible apply State.mirror_kept
    | with_reducible apply kept_ite
    | with_reducible apply kept_foldl
    | with_reducible apply kept_foldl_fst
    | with_reducible apply outKept_next
    | with_reducible apply outKept_ite
    | simp only [kept_mk, true_or]
    | split
    | intro _)

theorem State.statusFrame_kept {φ : Frame} {s : State} {d : Die} {l : Lane} (hm : Sub 0x80001a01fe08 φ.fx) (h1 :
    s.Kept φ) :
    State.Kept φ (State.statusFrame s d l) := by
  unfold State.statusFrame
  try dsimp only
  (repeat' first
    | with_reducible assumption
    | with_reducible exact Sub.of hm (by decide)
    | with_reducible apply State.setReg_kept
    | with_reducible apply State.mirrorCmn_kept
    | with_reducible apply State.mirrorField_kept
    | with_reducible apply State.restoreDie_kept
    | with_reducible apply State.mirrorPower_kept
    | with_reducible apply State.takeTallies_kept
    | with_reducible apply kept_ite
    | with_reducible apply kept_foldl
    | with_reducible apply kept_foldl_fst
    | with_reducible apply outKept_next
    | with_reducible apply outKept_ite
    | simp only [kept_mk, true_or]
    | split
    | intro _)

theorem execStatusFrame_kept {φ : Frame} {d : Die} {l : Lane} {s : State} (hm : Sub 0x80001a01fe08 φ.fx) (h1 : s.Kept
    φ) :
    OutKept φ (execStatusFrame d l s) := by
  unfold execStatusFrame
  try dsimp only
  (repeat' first
    | with_reducible assumption
    | with_reducible exact Sub.of hm (by decide)
    | with_reducible apply State.statusFrame_kept
    | with_reducible apply kept_ite
    | with_reducible apply kept_foldl
    | with_reducible apply kept_foldl_fst
    | with_reducible apply outKept_next
    | with_reducible apply outKept_ite
    | simp only [kept_mk, true_or]
    | split
    | intro _)

theorem execCommonsMismatch_kept {φ : Frame} {passE : Bool} {passW : Bool} {s : State} (hm : Sub 0x800008 φ.fx) (h1 :
    s.Kept φ) :
    OutKept φ (execCommonsMismatch passE passW s) := by
  unfold execCommonsMismatch
  try dsimp only
  (repeat' first
    | with_reducible assumption
    | with_reducible exact Sub.of hm (by decide)
    | with_reducible apply State.setBitBoth_kept
    | with_reducible apply kept_ite
    | with_reducible apply kept_foldl
    | with_reducible apply kept_foldl_fst
    | with_reducible apply outKept_next
    | with_reducible apply outKept_ite
    | simp only [kept_mk, hm.bit 23 rfl, or_true, true_or]
    | split
    | intro _)

theorem execCommonsSafeState_kept {φ : Frame} {s : State} (hm : Sub 0x162294e0000800108 φ.fx) (h1 : s.Kept φ) :
    OutKept φ (execCommonsSafeState s) := by
  unfold execCommonsSafeState
  try dsimp only
  (repeat' first
    | with_reducible assumption
    | with_reducible exact Sub.of hm (by decide)
    | with_reducible apply State.enterCmnSafe_kept
    | with_reducible apply kept_ite
    | with_reducible apply kept_foldl
    | with_reducible apply kept_foldl_fst
    | with_reducible apply outKept_next
    | with_reducible apply outKept_ite
    | simp only [kept_mk, true_or]
    | split
    | intro _)

end Sys2Proof.Machine
end

