-- ==== Sys2Proof/Laws/KeptOpcodes.lean ====
section
/-! SUPPORT. The operations of Opcodes.lean keep the invariant, the queue and the time. -/

namespace Sys2Proof.Machine

theorem forall_kept_nil {φ : Frame} : ∀ c ∈ ([] : List CmdSpec), c.Kept φ := by
  intro c hc
  cases hc

theorem forall_kept_cons {φ : Frame} {a : CmdSpec} {cs : List CmdSpec} (ha : a.Kept φ)
    (hs : ∀ c ∈ cs, c.Kept φ) : ∀ c ∈ a :: cs, c.Kept φ := by
  intro c hc
  rcases List.mem_cons.mp hc with rfl | hc
  · exact ha
  · exact hs c hc

theorem specsOf_kept_0 {φ : Frame} (hm : Sub 0xfffffee4fafc01fe07dc φ.fx) : ∀ c ∈ specsOf 0, c.Kept φ :=
  forall_kept_cons specIdentify_kept <|
    forall_kept_cons specLaneStatus_kept <|
    forall_kept_cons specPing_kept <|
    forall_kept_cons specSessionInfo_kept <|
    forall_kept_cons (specSessionPermit_kept (Sub.of hm (by decide))) <|
    forall_kept_nil

theorem specsOf_kept_1 {φ : Frame} (hm : Sub 0xfffffee4fafc01fe07dc φ.fx) : ∀ c ∈ specsOf 1, c.Kept φ :=
  forall_kept_cons (specPcSet_kept (Sub.of hm (by decide))) <|
    forall_kept_cons (specPcConfig_kept (Sub.of hm (by decide))) <|
    forall_kept_cons (specPcProfile_kept (Sub.of hm (by decide))) <|
    forall_kept_cons (specPcDieConfig_kept (Sub.of hm (by decide))) <|
    forall_kept_cons (specPcClear_kept (Sub.of hm (by decide))) <|
    forall_kept_cons specPcStatus_kept <|
    forall_kept_cons specPcDieStatus_kept <|
    forall_kept_cons (specPcSafeState_kept (Sub.of hm (by decide))) <|
    forall_kept_nil

theorem specsOf_kept_2 {φ : Frame} (hm : Sub 0xfffffee4fafc01fe07dc φ.fx) : ∀ c ∈ specsOf 2, c.Kept φ :=
  forall_kept_cons (specGdSet_kept (Sub.of hm (by decide))) <|
    forall_kept_cons (specGdConfig_kept (Sub.of hm (by decide))) <|
    forall_kept_cons (specGdClear_kept (Sub.of hm (by decide))) <|
    forall_kept_cons specGdStatus_kept <|
    forall_kept_cons (specGdSafeState_kept (Sub.of hm (by decide))) <|
    forall_kept_cons (specFeedConfig_kept (Sub.of hm (by decide))) <|
    forall_kept_cons specFeedStatus_kept <|
    forall_kept_nil

theorem specsOf_kept_3 {φ : Frame} (hm : Sub 0xfffffee4fafc01fe07dc φ.fx) : ∀ c ∈ specsOf 3, c.Kept φ :=
  forall_kept_cons (specFcSet_kept (Sub.of hm (by decide))) <|
    forall_kept_cons (specFcConfig_kept (Sub.of hm (by decide))) <|
    forall_kept_cons (specFcGroupConfig_kept (Sub.of hm (by decide))) <|
    forall_kept_cons (specFcDieConfig_kept (Sub.of hm (by decide))) <|
    forall_kept_cons (specFcClear_kept (Sub.of hm (by decide))) <|
    forall_kept_cons specFcStatus_kept <|
    forall_kept_cons specFcInputs_kept <|
    forall_kept_cons specFcDieStatus_kept <|
    forall_kept_cons (specFcSafeState_kept (Sub.of hm (by decide))) <|
    forall_kept_nil

theorem specsOf_kept_4 {φ : Frame} (hm : Sub 0xfffffee4fafc01fe07dc φ.fx) : ∀ c ∈ specsOf 4, c.Kept φ :=
  forall_kept_cons specTideStatus_kept <|
    forall_kept_cons (specTideSource_kept (Sub.of hm (by decide))) <|
    forall_kept_cons (specTideMains_kept (Sub.of hm (by decide))) <|
    forall_kept_cons (specTideExt_kept (Sub.of hm (by decide))) <|
    forall_kept_cons (specTideTurn_kept (Sub.of hm (by decide))) <|
    forall_kept_cons (specTevSet_kept (Sub.of hm (by decide))) <|
    forall_kept_cons (specTevClear_kept (Sub.of hm (by decide))) <|
    forall_kept_cons (specTevArm_kept (Sub.of hm (by decide))) <|
    forall_kept_cons specTevRead_kept <|
    forall_kept_nil

theorem specsOf_kept_5 {φ : Frame} (hm : Sub 0xfffffee4fafc01fe07dc φ.fx) : ∀ c ∈ specsOf 5, c.Kept φ :=
  forall_kept_cons specCvcStatus_kept <|
    forall_kept_cons (specPwmPairConfig_kept (Sub.of hm (by decide))) <|
    forall_kept_cons (specPwmRun_kept (Sub.of hm (by decide))) <|
    forall_kept_cons (specPwmGuard_kept (Sub.of hm (by decide))) <|
    forall_kept_cons (specPwmEnable_kept (Sub.of hm (by decide))) <|
    forall_kept_cons (specAdcSeqConfig_kept (Sub.of hm (by decide))) <|
    forall_kept_cons specAdcRead_kept <|
    forall_kept_cons (specCompConfig_kept (Sub.of hm (by decide))) <|
    forall_kept_cons (specNodeConfig_kept (Sub.of hm (by decide))) <|
    forall_kept_cons (specNodeCoef_kept (Sub.of hm (by decide))) <|
    forall_kept_cons (specNodeState_kept (Sub.of hm (by decide))) <|
    forall_kept_cons specNodeRead_kept <|
    forall_kept_cons (specRefSet_kept (Sub.of hm (by decide))) <|
    forall_kept_nil

theorem specsOf_kept_6 {φ : Frame} (hm : Sub 0xfffffee4fafc01fe07dc φ.fx) : ∀ c ∈ specsOf 6, c.Kept φ :=
  forall_kept_cons (specCanPortConfig_kept (Sub.of hm (by decide))) <|
    forall_kept_cons (specCanFilterSet_kept (Sub.of hm (by decide))) <|
    forall_kept_cons (specCanTrxSet_kept (Sub.of hm (by decide))) <|
    forall_kept_cons (specCanWakeFrame_kept (Sub.of hm (by decide))) <|
    forall_kept_cons (specCanRecover_kept (Sub.of hm (by decide))) <|
    forall_kept_cons specCanStatus_kept <|
    forall_kept_cons (specCanInhMap_kept (Sub.of hm (by decide))) <|
    forall_kept_cons (specCanSend_kept (Sub.of hm (by decide))) <|
    forall_kept_cons (specLinConfig_kept (Sub.of hm (by decide))) <|
    forall_kept_cons (specLinFrame_kept (Sub.of hm (by decide))) <|
    forall_kept_cons (specLinSchedule_kept (Sub.of hm (by decide))) <|
    forall_kept_cons (specLinWake_kept (Sub.of hm (by decide))) <|
    forall_kept_cons specLinStatus_kept <|
    forall_kept_cons (specLinRead_kept (Sub.of hm (by decide))) <|
    forall_kept_nil

theorem specsOf_kept_7 {φ : Frame} (hm : Sub 0xfffffee4fafc01fe07dc φ.fx) : ∀ c ∈ specsOf 7, c.Kept φ :=
  forall_kept_cons specEthStatus_kept <|
    forall_kept_cons (specEthPortConfig_kept (Sub.of hm (by decide))) <|
    forall_kept_cons (specEthGclSet_kept (Sub.of hm (by decide))) <|
    forall_kept_cons (specEthStreamSet_kept (Sub.of hm (by decide))) <|
    forall_kept_cons (specEthFrerSet_kept (Sub.of hm (by decide))) <|
    forall_kept_cons (specEthMacsecSa_kept (Sub.of hm (by decide))) <|
    forall_kept_cons (specEthCtrlClass_kept (Sub.of hm (by decide))) <|
    forall_kept_cons (specTc10Wake_kept (Sub.of hm (by decide))) <|
    forall_kept_cons specTimeStatus_kept <|
    forall_kept_cons (specTimeConfig_kept (Sub.of hm (by decide))) <|
    forall_kept_cons (specTimeSet_kept (Sub.of hm (by decide))) <|
    forall_kept_cons (specTimeComp_kept (Sub.of hm (by decide))) <|
    forall_kept_cons specTimeCapture_kept <|
    forall_kept_nil

theorem specsOf_kept_8 {φ : Frame} (hm : Sub 0xfffffee4fafc01fe07dc φ.fx) : ∀ c ∈ specsOf 8, c.Kept φ :=
  forall_kept_cons specHarbStatus_kept <|
    forall_kept_cons (specHarbPduDefine_kept (Sub.of hm (by decide))) <|
    forall_kept_cons (specHarbRouteSet_kept (Sub.of hm (by decide))) <|
    forall_kept_cons (specHarbEndpoint_kept (Sub.of hm (by decide))) <|
    forall_kept_cons (specHarbPduSend_kept (Sub.of hm (by decide))) <|
    forall_kept_cons specHarbPduRead_kept <|
    forall_kept_cons specHarbRouteStatus_kept <|
    forall_kept_cons (specCwWindow_kept (Sub.of hm (by decide))) <|
    forall_kept_cons specCwNodes_kept <|
    forall_kept_cons (specCwErrors_kept (Sub.of hm (by decide))) <|
    forall_kept_cons (specCwFenceAck_kept (Sub.of hm (by decide))) <|
    forall_kept_cons (specCwWrite_kept (Sub.of hm (by decide))) <|
    forall_kept_nil

theorem specsOf_kept_9 {φ : Frame} (hm : Sub 0xfffffee4fafc01fe07dc φ.fx) : ∀ c ∈ specsOf 9, c.Kept φ :=
  forall_kept_cons specNmsStatus_kept <|
    forall_kept_cons (specNmsCoveConfig_kept (Sub.of hm (by decide))) <|
    forall_kept_cons (specNmsMembers_kept (Sub.of hm (by decide))) <|
    forall_kept_cons (specNmsPortCove_kept (Sub.of hm (by decide))) <|
    forall_kept_cons (specNmsCurfew_kept (Sub.of hm (by decide))) <|
    forall_kept_cons (specNmsKeep_kept (Sub.of hm (by decide))) <|
    forall_kept_cons (specNmsWake_kept (Sub.of hm (by decide))) <|
    forall_kept_cons specNmsLog_kept <|
    forall_kept_nil

theorem specsOf_kept_10 {φ : Frame} (hm : Sub 0xfffffee4fafc01fe07dc φ.fx) : ∀ c ∈ specsOf 10, c.Kept φ :=
  forall_kept_cons specPartStatus_kept <|
    forall_kept_cons (specFuncConfig_kept (Sub.of hm (by decide))) <|
    forall_kept_cons (specQueueConfig_kept (Sub.of hm (by decide))) <|
    forall_kept_cons (specReplRegion_kept (Sub.of hm (by decide))) <|
    forall_kept_cons (specVfQuiesce_kept (Sub.of hm (by decide))) <|
    forall_kept_cons (specVfReset_kept (Sub.of hm (by decide))) <|
    forall_kept_cons (specVfRemove_kept (Sub.of hm (by decide))) <|
    forall_kept_cons (specExpertGrant_kept (Sub.of hm (by decide))) <|
    forall_kept_cons (specExpertRelease_kept (Sub.of hm (by decide))) <|
    forall_kept_cons (specDirtySwap_kept (Sub.of hm (by decide))) <|
    forall_kept_cons (specPageOwner_kept (Sub.of hm (by decide))) <|
    forall_kept_cons (specPairAssign_kept (Sub.of hm (by decide))) <|
    forall_kept_cons specLstepStatus_kept <|
    forall_kept_cons (specLstepTest_kept (Sub.of hm (by decide))) <|
    forall_kept_cons (specStraitCopy_kept (Sub.of hm (by decide))) <|
    forall_kept_nil

theorem specsOf_kept_11 {φ : Frame} (hm : Sub 0xfffffee4fafc01fe07dc φ.fx) : ∀ c ∈ specsOf 11, c.Kept φ :=
  forall_kept_cons specLhsStatus_kept <|
    forall_kept_cons (specLhsNonce_kept (Sub.of hm (by decide))) <|
    forall_kept_cons specAttest_kept <|
    forall_kept_cons specAttestKeys_kept <|
    forall_kept_cons (specKeyWrite_kept (Sub.of hm (by decide))) <|
    forall_kept_cons (specKeyErase_kept (Sub.of hm (by decide))) <|
    forall_kept_cons (specWorldSet_kept (Sub.of hm (by decide))) <|
    forall_kept_cons (specOwnSet_kept (Sub.of hm (by decide))) <|
    forall_kept_cons (specPmRequest_kept (Sub.of hm (by decide))) <|
    forall_kept_cons (specEventConfig_kept (Sub.of hm (by decide))) <|
    forall_kept_cons specEventLog_kept <|
    forall_kept_cons (specLcTransition_kept (Sub.of hm (by decide))) <|
    forall_kept_cons (specDebugUnlock_kept (Sub.of hm (by decide))) <|
    forall_kept_cons (specKeyHashSet_kept (Sub.of hm (by decide))) <|
    forall_kept_cons (specKeyRevoke_kept (Sub.of hm (by decide))) <|
    forall_kept_cons (specLhsConfig_kept (Sub.of hm (by decide))) <|
    forall_kept_nil

theorem specsOf_kept_12 {φ : Frame} (hm : Sub 0xfffffee4fafc01fe07dc φ.fx) : ∀ c ∈ specsOf 12, c.Kept φ :=
  forall_kept_cons specUpdStatus_kept <|
    forall_kept_cons (specUpdBegin_kept (Sub.of hm (by decide))) <|
    forall_kept_cons (specUpdChunk_kept (Sub.of hm (by decide))) <|
    forall_kept_cons (specUpdAbort_kept (Sub.of hm (by decide))) <|
    forall_kept_cons (specUpdActivate_kept (Sub.of hm (by decide))) <|
    forall_kept_cons (specUpdConfirm_kept (Sub.of hm (by decide))) <|
    forall_kept_cons (specUpdRevert_kept (Sub.of hm (by decide))) <|
    forall_kept_cons (specUpdRelaySet_kept (Sub.of hm (by decide))) <|
    forall_kept_cons (specUpdConfig_kept (Sub.of hm (by decide))) <|
    forall_kept_nil

theorem specsOf_kept_13 {φ : Frame} (hm : Sub 0xfffffee4fafc01fe07dc φ.fx) : ∀ c ∈ specsOf 13, c.Kept φ :=
  forall_kept_cons (specResetNonce_kept (Sub.of hm (by decide))) <|
    forall_kept_cons (specReset_kept (Sub.of hm (by decide))) <|
    forall_kept_cons (specClockStatus_kept (Sub.of hm (by decide))) <|
    forall_kept_cons (specResetCause_kept (Sub.of hm (by decide))) <|
    forall_kept_cons (specBlockReset_kept (Sub.of hm (by decide))) <|
    forall_kept_cons (specWatchdogSet_kept (Sub.of hm (by decide))) <|
    forall_kept_cons specCommonsRestart_kept <|
    forall_kept_nil

theorem specsOf_kept_14 {φ : Frame} (hm : Sub 0xfffffee4fafc01fe07dc φ.fx) : ∀ c ∈ specsOf 14, c.Kept φ :=
  forall_kept_cons specParStatus_kept <|
    forall_kept_cons specParChannel_kept <|
    forall_kept_cons specParThermal_kept <|
    forall_kept_cons specParResets_kept <|
    forall_kept_cons (specParSession_kept (Sub.of hm (by decide))) <|
    forall_kept_cons (specParConfig_kept (Sub.of hm (by decide))) <|
    forall_kept_cons (specParCalSet_kept (Sub.of hm (by decide))) <|
    forall_kept_nil

theorem specsOf_kept_15 {φ : Frame} (hm : Sub 0xfffffee4fafc01fe07dc φ.fx) : ∀ c ∈ specsOf 15, c.Kept φ :=
  forall_kept_cons specFerryStatus_kept <|
    forall_kept_cons (specFerryConfig_kept (Sub.of hm (by decide))) <|
    forall_kept_cons (specHandover_kept (Sub.of hm (by decide))) <|
    forall_kept_cons (specLanePhase_kept (Sub.of hm (by decide))) <|
    forall_kept_cons (specLaneDisqualify_kept (Sub.of hm (by decide))) <|
    forall_kept_cons (specLaneRequalify_kept (Sub.of hm (by decide))) <|
    forall_kept_cons (specLaneResync_kept (Sub.of hm (by decide))) <|
    forall_kept_cons specDiscrepancyLog_kept <|
    forall_kept_cons (specQuietEnter_kept (Sub.of hm (by decide))) <|
    forall_kept_cons (specQuietLeave_kept (Sub.of hm (by decide))) <|
    forall_kept_cons specLedgerStatus_kept <|
    forall_kept_cons (specLedgerConfig_kept (Sub.of hm (by decide))) <|
    forall_kept_cons (specLedgerQuota_kept (Sub.of hm (by decide))) <|
    forall_kept_cons specLedgerQuery_kept <|
    forall_kept_cons (specLedgerRecovered_kept (Sub.of hm (by decide))) <|
    forall_kept_nil

theorem specsOf_kept {φ : Frame} (hm : Sub 0xfffffee4fafc01fe07dc φ.fx) (k : Nat) : ∀ c ∈ specsOf k, c.Kept φ :=
  match k with
  | 0 => specsOf_kept_0 hm
  | 1 => specsOf_kept_1 hm
  | 2 => specsOf_kept_2 hm
  | 3 => specsOf_kept_3 hm
  | 4 => specsOf_kept_4 hm
  | 5 => specsOf_kept_5 hm
  | 6 => specsOf_kept_6 hm
  | 7 => specsOf_kept_7 hm
  | 8 => specsOf_kept_8 hm
  | 9 => specsOf_kept_9 hm
  | 10 => specsOf_kept_10 hm
  | 11 => specsOf_kept_11 hm
  | 12 => specsOf_kept_12 hm
  | 13 => specsOf_kept_13 hm
  | 14 => specsOf_kept_14 hm
  | 15 => specsOf_kept_15 hm
  | _ + 16 => forall_kept_nil

theorem specOf_kept {φ : Frame} (hm : Sub 0xfffffee4fafc01fe07dc φ.fx) (opcode : Nat) (c : CmdSpec) (h : specOf opcode = some c) : c.Kept φ :=
  specsOf_kept hm _ c (List.mem_of_find?_eq_some h)

end Sys2Proof.Machine
end

