-- ==== Sys2Proof/Laws/KeptServe.lean ====
section
/-! SUPPORT. The operations of Serve.lean keep the invariant, the queue and the time. -/

namespace Sys2Proof.Machine

theorem execLedgerAccept_kept {φ : Frame} {opcode : Nat} {r : Req} {s : State} (hm : Sub 0xfffffee4fafc01fe07dc φ.fx) (h1 : s.Kept φ) :
    OutKept φ (execLedgerAccept opcode r s) := by
  unfold execLedgerAccept
  split
  · rename_i c hc
    exact outKept_next (kept_ite (fun _ => runCmd_kept (Sub.of hm (by decide)) (specOf_kept (Sub.of hm (by decide)) opcode c hc) h1) (fun _ => h1))
  · exact outKept_next h1

theorem State.startEntry_kept {φ : Frame} {s : State} {e : LEntry} (hm : Sub 0xfffffee4fafc01fe07dc φ.fx) (h1 : s.Kept φ) : State.Kept φ (s.startEntry e) := by
  unfold State.startEntry
  refine kept_ite (fun _ => State.dispose_kept (Sub.of hm (by decide)) h1) (fun _ => kept_ite (fun _ => State.iovStart_kept (Sub.of hm (by decide)) h1) (fun _ => ?_))
  split
  · rename_i c hc
    exact kept_ite (fun _ => issue_kept (Sub.of hm (by decide)) (specOf_kept (Sub.of hm (by decide)) _ c hc) h1) (fun _ => State.dispose_kept (Sub.of hm (by decide)) h1)
  · exact h1

theorem execEntryStart_kept {φ : Frame} {lsn : Nat} {s : State} (hm : Sub 0xfffffee4fafc01fe07dc φ.fx) (h1 : s.Kept φ)
    :
    OutKept φ (execEntryStart lsn s) := by
  unfold execEntryStart
  try dsimp only
  (repeat' first
    | with_reducible assumption
    | with_reducible exact Sub.of hm (by decide)
    | with_reducible apply State.syncLedg_kept
    | with_reducible apply State.startEntry_kept
    | with_reducible apply kept_ite
    | with_reducible apply kept_foldl
    | with_reducible apply kept_foldl_fst
    | with_reducible apply outKept_next
    | with_reducible apply outKept_ite
    | simp only [kept_mk, true_or]
    | split
    | intro _)

theorem State.reportOut_kept {φ : Frame} {s : State} {e : LEntry} (hm : Sub 0x17efdce0fafc007a03dc φ.fx) (h1 : s.Kept
    φ) :
    OptKept φ (State.reportOut s e) := by
  unfold State.reportOut
  try dsimp only
  (repeat' first
    | with_reducible assumption
    | with_reducible exact Sub.of hm (by decide)
    | with_reducible apply State.sessionSent_kept
    | with_reducible apply State.iovReport_kept
    | with_reducible apply State.pushCpl_kept
    | with_reducible apply State.emit_kept
    | with_reducible apply kept_ite
    | with_reducible apply kept_foldl
    | with_reducible apply kept_foldl_fst
    | with_reducible apply outKept_next
    | with_reducible apply outKept_ite
    | with_reducible apply optKept_ite
    | with_reducible apply optOutKept_ite
    | with_reducible apply optKept_some
    | with_reducible exact optKept_none
    | with_reducible apply optOutKept_some
    | with_reducible exact optOutKept_none
    | simp only [kept_mk, true_or]
    | split
    | intro _)

theorem State.reportEntry_kept {φ : Frame} {s : State} {e : LEntry} (hm : Sub 0x17efdce0fafc007a03dc φ.fx) (h1 : s.Kept φ) : State.Kept φ (s.reportEntry e) := by
  have h2 : State.Kept φ (s.mapEntry e.lsn (fun (x : LEntry) => { x with st := .reported })) :=
    State.mapEntry_kept (Sub.of hm (by decide)) h1 (fun _ => rfl)
  unfold State.reportEntry
  generalize s.mapEntry e.lsn (fun (x : LEntry) => { x with st := .reported }) = u at h2 ⊢
  split
  · rename_i t ht
    exact State.syncQuota_kept (Sub.of hm (by decide)) (State.syncLedg_kept (Sub.of hm (by decide))
      (State.reportOut_kept (Sub.of hm (by decide)) h2 t ht))
  · exact h1

theorem execCompletionReport_kept {φ : Frame} {lsn : Nat} {s : State} (hm : Sub 0x17efdce0fafc007a03dc φ.fx) (h1 :
    s.Kept φ) :
    OutKept φ (execCompletionReport lsn s) := by
  unfold execCompletionReport
  try dsimp only
  (repeat' first
    | with_reducible assumption
    | with_reducible exact Sub.of hm (by decide)
    | with_reducible apply State.reportEntry_kept
    | with_reducible apply kept_ite
    | with_reducible apply kept_foldl
    | with_reducible apply kept_foldl_fst
    | with_reducible apply outKept_next
    | with_reducible apply outKept_ite
    | simp only [kept_mk, true_or]
    | split
    | intro _)

theorem execQueryDeadlineExpiry_kept {φ : Frame} {r : Req} {s : State} (hm : Sub 0xfffffee4fafc01fe07dc φ.fx) (h1 :
    s.Kept φ) :
    OutKept φ (execQueryDeadlineExpiry r s) := by
  unfold execQueryDeadlineExpiry
  try dsimp only
  (repeat' first
    | with_reducible assumption
    | with_reducible exact Sub.of hm (by decide)
    | with_reducible apply State.refuse_kept
    | with_reducible apply State.count_kept
    | with_reducible apply kept_ite
    | with_reducible apply kept_foldl
    | with_reducible apply kept_foldl_fst
    | with_reducible apply outKept_next
    | with_reducible apply outKept_ite
    | simp only [kept_mk, true_or]
    | split
    | intro _)

end Sys2Proof.Machine
end

