-- ==== Sys2Proof/Laws/KeptRegWrite.lean ====
section
/-! SUPPORT. The operations of RegWrite.lean keep the invariant, the queue and the time. -/

namespace Sys2Proof.Machine

theorem State.writeCodes_kept {φ : Frame} {s : State} {l : Lane} {a : Nat} {v : Word} (hm : Sub 0x8 φ.fx) (h1 : s.Kept
    φ) :
    State.Kept φ (State.writeCodes s l a v) := by
  unfold State.writeCodes
  try dsimp only
  (repeat' first
    | with_reducible assumption
    | with_reducible exact Sub.of hm (by decide)
    | with_reducible apply State.setReg_kept
    | with_reducible apply State.writeShadow_kept
    | with_reducible apply kept_ite
    | with_reducible apply kept_foldl
    | with_reducible apply kept_foldl_fst
    | with_reducible apply outKept_next
    | with_reducible apply outKept_ite
    | simp only [kept_mk, true_or]
    | split
    | intro _)

theorem State.writeWdt_kept {φ : Frame} {s : State} {l : Lane} {a : Nat} {v : Word} (hm : Sub 0x8 φ.fx) (h1 : s.Kept
    φ) :
    State.Kept φ (State.writeWdt s l a v) := by
  unfold State.writeWdt
  try dsimp only
  (repeat' first
    | with_reducible assumption
    | with_reducible exact Sub.of hm (by decide)
    | with_reducible apply State.wdtRestart_kept
    | with_reducible apply State.writeCodes_kept
    | with_reducible apply kept_ite
    | with_reducible apply kept_foldl
    | with_reducible apply kept_foldl_fst
    | with_reducible apply outKept_next
    | with_reducible apply outKept_ite
    | simp only [kept_mk, true_or]
    | split
    | intro _)

theorem State.writeReg_kept {φ : Frame} {s : State} {l : Lane} {a : Nat} {v : Word} (hm : Sub 0x8 φ.fx) (h1 : s.Kept
    φ) :
    State.Kept φ (State.writeReg s l a v) := by
  unfold State.writeReg
  try dsimp only
  (repeat' first
    | with_reducible assumption
    | with_reducible exact Sub.of hm (by decide)
    | with_reducible apply State.setFld_kept
    | with_reducible apply State.writeWdt_kept
    | with_reducible apply State.setShFld_kept
    | with_reducible apply State.setDieFld_kept
    | with_reducible apply State.setDieReg_kept
    | with_reducible apply State.writeCodes_kept
    | with_reducible apply kept_ite
    | with_reducible apply kept_foldl
    | with_reducible apply kept_foldl_fst
    | with_reducible apply outKept_next
    | with_reducible apply outKept_ite
    | simp only [kept_mk, true_or]
    | split
    | intro _)

theorem State.writeElem_kept {φ : Frame} {s : State} {l : Lane} {a : Nat} {v : Word} (hm : Sub 0x800000000000 φ.fx)
    (h1 : s.Kept φ) :
    State.Kept φ (State.writeElem s l a v) := by
  unfold State.writeElem
  try dsimp only
  (repeat' first
    | with_reducible assumption
    | with_reducible exact Sub.of hm (by decide)
    | with_reducible apply State.sendElem_kept
    | with_reducible apply kept_ite
    | with_reducible apply kept_foldl
    | with_reducible apply kept_foldl_fst
    | with_reducible apply outKept_next
    | with_reducible apply outKept_ite
    | simp only [kept_mk, true_or]
    | split
    | intro _)

theorem State.commitWhole_kept {φ : Frame} {s : State} {block : Nat} {region : Nat → Nat} {l : Lane} {ws : List
    RegCell} (hm : Sub 0x600 φ.fx) (h1 : s.Kept φ) :
    State.Kept φ (State.commitWhole s block region l ws) := by
  unfold State.commitWhole
  try dsimp only
  (repeat' first
    | with_reducible assumption
    | with_reducible exact Sub.of hm (by decide)
    | with_reducible apply State.addCommit_kept
    | with_reducible apply kept_ite
    | with_reducible apply kept_foldl
    | with_reducible apply kept_foldl_fst
    | with_reducible apply outKept_next
    | with_reducible apply outKept_ite
    | simp only [kept_mk, true_or]
    | split
    | intro _)

theorem State.commitCopy_kept {φ : Frame} {s : State} {l : Lane} {block : Nat} {ws : List RegCell} (hm : Sub
    0x17efdce0fafc007a075c φ.fx) (h1 : s.Kept φ) :
    State.Kept φ (State.commitCopy s l block ws) := by
  unfold State.commitCopy
  try dsimp only
  (repeat' first
    | with_reducible assumption
    | with_reducible exact Sub.of hm (by decide)
    | with_reducible apply State.commitCvc_kept
    | with_reducible apply State.commitLhs_kept
    | with_reducible apply State.commitTide_kept
    | with_reducible apply State.addCommit_kept
    | with_reducible apply State.commitWhole_kept
    | with_reducible apply kept_ite
    | with_reducible apply kept_foldl
    | with_reducible apply kept_foldl_fst
    | with_reducible apply outKept_next
    | with_reducible apply outKept_ite
    | simp only [kept_mk, true_or]
    | split
    | intro _)

theorem State.commitWrite_kept {φ : Frame} {s : State} {l : Lane} {who : Initiator} {a : Nat} (hm : Sub
    0x17efdce0fafc007a077c φ.fx) (h1 : s.Kept φ) :
    State.Kept φ (State.commitWrite s l who a) := by
  unfold State.commitWrite
  try dsimp only
  (repeat' first
    | with_reducible assumption
    | with_reducible exact Sub.of hm (by decide)
    | with_reducible apply State.busOk_kept
    | with_reducible apply State.commitCopy_kept
    | with_reducible apply State.busErr_kept
    | with_reducible apply kept_ite
    | with_reducible apply kept_foldl
    | with_reducible apply kept_foldl_fst
    | with_reducible apply outKept_next
    | with_reducible apply outKept_ite
    | simp only [kept_mk, true_or]
    | split
    | intro _)

theorem execCommitWrite_kept {φ : Frame} {l : Lane} {who : Initiator} {addr : Nat} {s : State} (hm : Sub
    0x17efdce0fafc007a077c φ.fx) (h1 : s.Kept φ) :
    OutKept φ (execCommitWrite l who addr s) := by
  unfold execCommitWrite
  try dsimp only
  (repeat' first
    | with_reducible assumption
    | with_reducible exact Sub.of hm (by decide)
    | with_reducible apply State.commitWrite_kept
    | with_reducible apply kept_ite
    | with_reducible apply kept_foldl
    | with_reducible apply kept_foldl_fst
    | with_reducible apply outKept_next
    | with_reducible apply outKept_ite
    | simp only [kept_mk, true_or]
    | split
    | intro _)

theorem State.plainWrite_kept {φ : Frame} {s : State} {l : Lane} {who : Initiator} {a : Nat} {v : Word} (hm : Sub
    0x17efdce0fafc007a037c φ.fx) (h1 : s.Kept φ) :
    State.Kept φ (State.plainWrite s l who a v) := by
  unfold State.plainWrite
  (repeat' first
    | with_reducible assumption
    | with_reducible exact Sub.of hm (by decide)
    | with_reducible apply State.busOk_kept
    | with_reducible apply State.policy_kept
    | with_reducible apply State.writeElem_kept
    | with_reducible apply State.writeReg_kept
    | with_reducible apply State.busErr_kept
    | with_reducible apply State.ownNode_kept
    | with_reducible apply kept_ite
    | with_reducible apply kept_foldl
    | with_reducible apply kept_foldl_fst
    | with_reducible apply outKept_next
    | with_reducible apply outKept_ite
    | split
    | intro _)

theorem thenDo_kept {φ : Frame} {x : Out} {f : State → Out} (h1 : OutKept φ x)
    (hf : ∀ t, t.Kept φ → OutKept φ (f t)) : OutKept φ (thenDo x f) := by
  cases x with
  | next s => exact hf s (h1 s rfl)
  | fault f => exact h1
  | refused r => exact h1

theorem pageWrite_kept {φ : Frame} {l : Lane} {who : Initiator} {a : Nat} {v : Word} {s : State} (hm : Sub
    0x17efdce0fafc007a037c φ.fx) (h1 : s.Kept φ) :
    OptOutKept φ (pageWrite l who a v s) := by
  unfold pageWrite
  try dsimp only
  (repeat' first
    | with_reducible assumption
    | with_reducible exact Sub.of hm (by decide)
    | with_reducible apply execIovCqHeadWrite_kept
    | with_reducible apply execDoorbell_kept
    | with_reducible apply execRespAck_kept
    | with_reducible apply execReqSlotWrite_kept
    | with_reducible apply execIovSqDoorbell_kept
    | with_reducible apply execCplHeadWrite_kept
    | with_reducible apply kept_ite
    | with_reducible apply kept_foldl
    | with_reducible apply kept_foldl_fst
    | with_reducible apply outKept_next
    | with_reducible apply outKept_ite
    | with_reducible apply optKept_ite
    | with_reducible apply optOutKept_ite
    | with_reducible apply optKept_some
    | with_reducible exact optKept_none
    | with_reducible apply optOutKept_some
    | with_reducible exact optOutKept_none
    | simp only [kept_mk, true_or]
    | split
    | intro _)

theorem rowWrite_kept {φ : Frame} {l : Lane} {who : Initiator} {a : Nat} {v : Word} {s : State} (hm : Sub 0x37efdcf0fafc00fe07fc φ.fx) 
    (h1 : s.Kept φ) : OptOutKept φ (rowWrite l who a v s) := by
  unfold rowWrite
  extract_lets o
  refine optOutKept_ite (fun _ => optOutKept_some (thenDo_kept (execRstcReqCore_kept (Sub.of hm (by decide)) h1)
    (fun _ h => execRstcReqSys_kept (Sub.of hm (by decide)) h))) (fun _ => ?_)
  refine optOutKept_ite (fun _ => optOutKept_some (execBlkrstWrite_kept (Sub.of hm (by decide)) h1)) (fun _ => ?_)
  refine optOutKept_ite (fun _ => optOutKept_some (execForceCdWrite_kept (Sub.of hm (by decide)) h1)) (fun _ => ?_)
  refine optOutKept_ite (fun _ => optOutKept_some (execRstcCmnRestart_kept (Sub.of hm (by decide)) h1)) (fun _ => ?_)
  refine optOutKept_ite (fun _ => optOutKept_some (execWdtKick_kept (Sub.of hm (by decide)) h1)) (fun _ => ?_)
  refine optOutKept_ite (fun _ => optOutKept_ite (fun _ => optOutKept_some (execFrzPwmHoldClear_kept (Sub.of hm (by decide)) h1))
    (fun _ => optOutKept_none)) (fun _ => ?_)
  refine optOutKept_ite (fun _ => optOutKept_some (thenDo_kept (thenDo_kept (execFerryCtrlRequest_kept (Sub.of hm (by decide)) h1)
    (fun _ h => execFerryCtrlRelease_kept (Sub.of hm (by decide)) h)) (fun _ h => execFerryCtrlResync_kept (Sub.of hm (by decide)) h))) (fun _ => ?_)
  refine optOutKept_ite (fun _ => optOutKept_some (execSeqSwStart_kept (Sub.of hm (by decide)) h1)) (fun _ => ?_)
  refine optOutKept_ite (fun _ => optOutKept_some (execCanCtlRecover_kept (Sub.of hm (by decide)) h1)) (fun _ => ?_)
  refine optOutKept_ite (fun _ => optOutKept_some (thenDo_kept (outKept_next (State.plainWrite_kept (Sub.of hm (by decide)) h1))
    (fun _ h => execRxDone_kept (Sub.of hm (by decide)) h))) (fun _ => ?_)
  refine optOutKept_ite (fun _ => optOutKept_some (execLinCtlWake_kept (Sub.of hm (by decide)) h1)) (fun _ => ?_)
  refine optOutKept_ite (fun _ => optOutKept_some (execServoSample_kept (Sub.of hm (by decide)) h1)) (fun _ => ?_)
  refine optOutKept_ite (fun _ => optOutKept_some (execTimeSetGo_kept (Sub.of hm (by decide)) h1)) (fun _ => ?_)
  refine optOutKept_ite (fun _ => optOutKept_some (execFenceAckWrite_kept (Sub.of hm (by decide)) h1)) (fun _ => ?_)
  refine optOutKept_ite (fun _ => optOutKept_some (execCwErrHeadWrite_kept (Sub.of hm (by decide)) h1)) (fun _ => ?_)
  refine optOutKept_ite (fun _ => optOutKept_some (execPotUpdateGo_kept (Sub.of hm (by decide)) h1)) (fun _ => ?_)
  refine optOutKept_ite (fun _ => optOutKept_some (execLstpInjectWrite_kept (Sub.of hm (by decide)) h1)) (fun _ => ?_)
  refine optOutKept_ite (fun _ => optOutKept_some (execLhsPmreqWrite_kept (Sub.of hm (by decide)) h1)) (fun _ => ?_)
  exact optOutKept_ite (fun _ => optOutKept_ite (fun _ => optOutKept_some (execCommitWrite_kept (Sub.of hm (by decide)) h1))
    (fun _ => optOutKept_some (outKept_next (State.busOk_kept (Sub.of hm (by decide)) h1)))) (fun _ => optOutKept_none)

theorem execRegWrite_kept {φ : Frame} {l : Lane} {who : Initiator} {addr : Nat} {value : Word} {s : State} (hm : Sub
    0x37efdcf0fafc00fe07fc φ.fx) (h1 : s.Kept φ) :
    OutKept φ (execRegWrite l who addr value s) := by
  unfold execRegWrite
  try dsimp only
  (repeat' first
    | with_reducible assumption
    | with_reducible exact Sub.of hm (by decide)
    | exact pageWrite_kept (Sub.of hm (by decide)) (by assumption) _ (by assumption)
    | with_reducible apply pageWrite_kept
    | exact rowWrite_kept (Sub.of hm (by decide)) (by assumption) _ (by assumption)
    | with_reducible apply rowWrite_kept
    | with_reducible apply State.plainWrite_kept
    | with_reducible apply kept_ite
    | with_reducible apply kept_foldl
    | with_reducible apply kept_foldl_fst
    | with_reducible apply outKept_next
    | with_reducible apply outKept_ite
    | simp only [kept_mk, true_or]
    | split
    | intro _)

theorem State.safePoint_kept {φ : Frame} {s : State} {l : Lane} {block : Nat} (hm : Sub 0x17efdce0fafc007a075c φ.fx)
    (h1 : s.Kept φ) :
    State.Kept φ (State.safePoint s l block) := by
  unfold State.safePoint
  try dsimp only
  (repeat' first
    | with_reducible assumption
    | with_reducible exact Sub.of hm (by decide)
    | with_reducible apply State.applyPari_kept
    | with_reducible apply applyFerry_kept
    | with_reducible apply State.applyIov_kept
    | with_reducible apply State.canBoundary_kept
    | with_reducible apply State.applyCvc_kept
    | with_reducible apply State.applyHarb_kept
    | with_reducible apply State.blockCommits_kept
    | with_reducible apply State.applyTide_kept
    | with_reducible apply applyLedg_kept
    | with_reducible apply State.applyNodes_kept
    | with_reducible apply State.forEach_kept
    | with_reducible apply State.updCommits_kept
    | with_reducible apply applyWin_kept
    | with_reducible apply applyScsm_kept
    | with_reducible apply State.applyLstp_kept
    | with_reducible apply State.applyLhs_kept
    | with_reducible apply kept_ite
    | with_reducible apply kept_foldl
    | with_reducible apply kept_foldl_fst
    | with_reducible apply outKept_next
    | with_reducible apply outKept_ite
    | simp only [kept_mk, true_or]
    | split
    | intro _)

theorem execCommitApply_kept {φ : Frame} {l : Lane} {block : Nat} {s : State} (hm : Sub 0x17efdce0fafc007a075c φ.fx)
    (h1 : s.Kept φ) :
    OutKept φ (execCommitApply l block s) := by
  unfold execCommitApply
  try dsimp only
  (repeat' first
    | with_reducible assumption
    | with_reducible exact Sub.of hm (by decide)
    | with_reducible apply State.safePoint_kept
    | with_reducible apply kept_ite
    | with_reducible apply kept_foldl
    | with_reducible apply kept_foldl_fst
    | with_reducible apply outKept_next
    | with_reducible apply outKept_ite
    | simp only [kept_mk, true_or]
    | split
    | intro _)

end Sys2Proof.Machine
end

