-- ==== Sys2Proof/Laws/KeptTick.lean ====
section
/-! SUPPORT. The operations of Tick.lean keep the invariant, the queue and the time. -/

namespace Sys2Proof.Machine

theorem State.pairTick_kept {φ : Frame} {s : State} {l : Lane} {k : Nat} (hm : Sub 0x8 φ.fx) (h1 : s.Kept φ) :
    State.Kept φ (State.pairTick s l k) := by
  unfold State.pairTick
  try dsimp only
  (repeat' first
    | with_reducible assumption
    | with_reducible exact Sub.of hm (by decide)
    | with_reducible apply State.setFld_kept
    | with_reducible apply kept_ite
    | with_reducible apply kept_foldl
    | with_reducible apply kept_foldl_fst
    | with_reducible apply outKept_next
    | with_reducible apply outKept_ite
    | simp only [kept_mk, true_or]
    | split
    | intro _)

theorem State.laneTick_kept {φ : Frame} {s : State} {l : Lane} (hm : Sub 0xc00000008 φ.fx) (h1 : s.Kept φ) :
    State.Kept φ (State.laneTick s l) := by
  unfold State.laneTick
  try dsimp only
  (repeat' first
    | with_reducible assumption
    | with_reducible exact Sub.of hm (by decide)
    | with_reducible apply State.pairTick_kept
    | with_reducible apply State.forEach_kept
    | with_reducible apply State.modTide_kept
    | with_reducible apply kept_ite
    | with_reducible apply kept_foldl
    | with_reducible apply kept_foldl_fst
    | with_reducible apply outKept_next
    | with_reducible apply outKept_ite
    | simp only [kept_mk, true_or]
    | split
    | intro _)

theorem State.wdtTick_kept {φ : Frame} {s : State} {l : Lane} (hm : Sub 0x8 φ.fx) (h1 : s.Kept φ) :
    State.Kept φ (State.wdtTick s l) := by
  unfold State.wdtTick
  try dsimp only
  (repeat' first
    | with_reducible assumption
    | with_reducible exact Sub.of hm (by decide)
    | with_reducible apply State.setFld_kept
    | with_reducible apply State.forEach_kept
    | with_reducible apply kept_ite
    | with_reducible apply kept_foldl
    | with_reducible apply kept_foldl_fst
    | with_reducible apply outKept_next
    | with_reducible apply outKept_ite
    | simp only [kept_mk, true_or]
    | split
    | intro _)

end Sys2Proof.Machine
end

