-- ==== Sys2Proof/Laws/Outputs.lean ====
section
/-! SUPPORT. The named operations on the outputs of the power dies: what each leaves of the output's registers and run state,
and of the feeds' status. -/

namespace Sys2Proof.Machine

/-! ### Fields by key -/

theorem Fld.one {f : Fld} (h : f.lo = f.hi) (hf : Fld.ok f) {b : Bool} : b2n b % 2 ^ fldWidth f = b2n b := by
  unfold fldWidth
  rw [show f.hi + 1 - f.lo = 1 by omega]
  cases b <;> rfl

theorem oState_range {d x : Nat} (hd : d < 2) (hx : x < 32) : 0xE0600000 ≤ oState d x ∧ oState d x < 0xE0800000 := by
  unfold oState isGd R.PCH_STATE R.GDR_STATE
  split
  · rename_i h; simp at h; omega
  · omega

theorem State.shFld_setShFld {s : State} (h : rfWf s.regs = true) (a : Nat) (f : Fld) (v : Nat) (hf : Fld.ok f) :
    (s.setShFld a f v).shFld a f = v % 2 ^ fldWidth f := State.fld_setFld_self h .E a f v hf

theorem State.shFld_setShFld_apart {s : State} (h : rfWf s.regs = true) (a : Nat) {f g : Fld} (v : Nat) (hf : Fld.ok f)
    (hg : Fld.ok g) (hx : Fld.apart f g) : (s.setShFld a f v).shFld a g = s.shFld a g :=
  State.fld_setFld_apart h .E .E a v hf hg hx

theorem State.shFld_setShFld_ne {s : State} {a b : Nat} (f g : Fld) (v : Nat) (ha : a < 2 ^ 32) (hb : b < 2 ^ 32)
    (hx : a ≠ b) : (s.setShFld a f v).shFld b g = s.shFld b g := by
  show getF _ _ = getF _ _
  exact congrArg (getF · g) (State.reg_setFld_ne (regKey_ne ha hb hx))

theorem State.setShFld_wf {s : State} {a : Nat} {f : Fld} {v : Nat} (h : rfWf s.regs = true) :
    rfWf (s.setShFld a f v).regs = true := State.setFld_wf h

theorem State.setDieReg_outs (s : State) (a : Nat) (v : Word) : (s.setDieReg a v).outs = s.outs := by
  unfold State.setDieReg
  rfl

theorem State.setDieFld_wf {s : State} {a : Nat} {f : Fld} {v : Nat} (h : rfWf s.regs = true) :
    rfWf (s.setDieFld a f v).regs = true := rfPut_wf _ _ _ h

theorem State.dieFld_setDieFld {s : State} (h : rfWf s.regs = true) (a : Nat) (f : Fld) (v : Nat) (hf : Fld.ok f) :
    (s.setDieFld a f v).dieFld a f = v % 2 ^ fldWidth f := by
  unfold State.dieFld State.setDieFld State.dieReg State.setDieReg
  rw [rfGet_rfPut _ _ _ _ h, if_pos rfl, getF_setF _ _ _ hf]

theorem State.dieFld_setDieFld_apart {s : State} (h : rfWf s.regs = true) (a : Nat) {f g : Fld} (v : Nat) (hf : Fld.ok f)
    (hg : Fld.ok g) (hx : Fld.apart f g) : (s.setDieFld a f v).dieFld a g = s.dieFld a g := by
  unfold State.dieFld State.setDieFld State.dieReg State.setDieReg
  rw [rfGet_rfPut _ _ _ _ h, if_pos rfl, getF_setF_ne _ _ _ _ hf hg hx]

theorem State.dieFld_setDieFld_ne {s : State} {a b : Nat} (f g : Fld) (v : Nat) (hx : a ≠ b) :
    (s.setDieFld a f v).dieFld b g = s.dieFld b g := by
  unfold State.dieFld State.setDieFld State.dieReg State.setDieReg
  rw [rfGet_rfPut_ne _ _ _ _ (by unfold dieKey; omega)]

/-- A register of the outputs' region is none of the feeds'. -/
theorem dieKey_ne {a b : Nat} (ha : a < 2 ^ 32) (hb : b < 2 ^ 32) (h : a ≠ b) : dieKey b ≠ regKey 0 a := by
  unfold dieKey regKey homeSpan
  split <;> omega

theorem State.shFld_setDieFld {s : State} {a b : Nat} (f g : Fld) (v : Nat) (ha : a < 2 ^ 32) (hb : b < 2 ^ 32) (h : a ≠ b) :
    (s.setDieFld b f v).shFld a g = s.shFld a g := by
  show getF (rfGet (rfPut s.regs _ _) _) g = _
  rw [rfGet_rfPut_ne _ _ _ _ (by have := dieKey_ne ha hb h; exact this)]
  rfl

theorem State.dieFld_setShFld {s : State} {a b : Nat} (f g : Fld) (v : Nat) (ha : a < 2 ^ 32) (hb : b < 2 ^ 32) (h : a ≠ b) :
    (s.setShFld a f v).dieFld b g = s.dieFld b g := by
  show getF (rfGet (rfPut s.regs _ _) _) g = _
  rw [rfGet_rfPut_ne _ _ _ _ (by have := dieKey_ne ha hb h; exact fun e => this e.symm)]
  rfl

theorem feedStat_range {f : Nat} (hf : f ≤ 6) : R.SUPC_FEED_STAT f < 0xE0600000 := by
  unfold R.SUPC_FEED_STAT; omega

theorem feedOf_le {d x : Nat} (hd : d < 2) : feedOf d x ≤ 6 := by
  unfold feedOf
  split
  · omega
  · split <;> omega

/-! ### The run state of an output -/

theorem State.outs_setOut (s : State) (d x : Nat) (o : OutRt) : (s.setOut d x o).outs.length = s.outs.length := by
  unfold State.setOut; simp

theorem State.out_setOut {s : State} (h : s.outs.length = 64) {d x : Nat} (hd : d < 2) (hx : x < 32) (o : OutRt) :
    (s.setOut d x o).out d x = o := by
  unfold State.setOut State.out
  simp only [List.getElem?_set]
  rw [if_pos trivial, if_pos (by omega)]
  rfl

theorem State.out_modOut {s : State} (h : s.outs.length = 64) {d x : Nat} (hd : d < 2) (hx : x < 32) (g : OutRt → OutRt) :
    (s.modOut d x g).out d x = g (s.out d x) := State.out_setOut h hd hx _

/-! ### The status of an output -/

theorem OFlag.ok {f : OFlag} {b : Bool} {g : Fld} (h : f.fld b = some g) :
    g.lo = g.hi ∧ 8 ≤ g.lo ∧ g.hi < 32 := by
  cases f <;> cases b <;> simp [OFlag.fld] at h <;> subst h <;> decide

theorem State.setO_wf {s : State} {d x : Nat} {f : OFlag} {b : Bool} (h : rfWf s.regs = true) :
    rfWf (s.setO d x f b).regs = true := by
  unfold State.setO
  split
  · exact State.setFld_wf h
  · exact h

/-- The state, and the retry counter, of an output whose flag is written. -/
theorem State.shFld_setO {s : State} (h : rfWf s.regs = true) (d x : Nat) (f : OFlag) (b : Bool) {g : Fld} (hg : g.hi < 8)
    (hg2 : g.lo ≤ g.hi) : (s.setO d x f b).shFld (oState d x) g = s.shFld (oState d x) g := by
  unfold State.setO
  split
  · rename_i k hk
    have := OFlag.ok hk
    exact State.shFld_setShFld_apart h _ _ ⟨by omega, by omega⟩ ⟨by omega, by omega⟩ (.inr (by omega))
  · rfl

theorem State.oSt_setO {s : State} (h : rfWf s.regs = true) (d x : Nat) (f : OFlag) (b : Bool) :
    (s.setO d x f b).oSt d x = s.oSt d x := State.shFld_setO h d x f b (by decide) (by decide)

theorem State.oFlag_setO {s : State} (h : rfWf s.regs = true) (d x : Nat) (f : OFlag) (b : Bool)
    (hf : (f.fld (isGd x)).isSome = true) : (s.setO d x f b).oFlag d x f = b := by
  unfold State.setO State.oFlag
  cases hk : f.fld (isGd x) with
  | none => rw [hk] at hf; simp at hf
  | some k =>
    have := OFlag.ok hk
    exact State.bit_setBitF_self h .E _ _ _ ⟨by omega, by omega⟩ this.1

theorem State.out_setO (s : State) (d x : Nat) (f : OFlag) (b : Bool) : (s.setO d x f b).outs = s.outs := by
  unfold State.setO
  split
  · exact State.Served.outs (State.setFld_served ..)
  · rfl

theorem State.setOSt_outs (s : State) (d x v : Nat) : (s.setOSt d x v).outs = s.outs :=
  State.Served.outs (State.setFld_served ..)

theorem State.oSt_setOSt {s : State} (h : rfWf s.regs = true) (d x v : Nat) : (s.setOSt d x v).oSt d x = v % 16 :=
  State.shFld_setShFld h _ _ _ (by unfold Fld.ok; decide)

theorem State.oFlag_setLow {s : State} (h : rfWf s.regs = true) (d x : Nat) (f : OFlag) {g : Fld} (v : Nat) (hg : g.hi < 8)
    (hg2 : g.lo ≤ g.hi) : (s.setShFld (oState d x) g v).oFlag d x f = s.oFlag d x f := by
  unfold State.oFlag
  split
  · rename_i k hk
    have := OFlag.ok hk
    unfold State.shBit State.bit
    have e := State.shFld_setShFld_apart (g := k) h (oState d x) v ⟨hg2, by omega⟩ ⟨by omega, by omega⟩ (.inl (by omega))
    unfold State.shFld at e
    rw [e]
  · rfl

theorem State.oFlag_setOSt {s : State} (h : rfWf s.regs = true) (d x v : Nat) (f : OFlag) :
    (s.setOSt d x v).oFlag d x f = s.oFlag d x f := State.oFlag_setLow h d x f v (by decide) (by decide)

theorem State.shFld_setOSt {s : State} (h : rfWf s.regs = true) (d x v : Nat) :
    (s.setOSt d x v).retryLeft d x = s.retryLeft d x := by
  unfold State.retryLeft State.setOSt
  exact State.shFld_setShFld_apart h _ _ (by unfold Fld.ok; decide) (by unfold Fld.ok; decide) (by unfold Fld.apart; decide)

/-- A feed's status written leaves an output's register. -/
theorem State.shFld_setFeedBit {s : State} {a f : Nat} (g k : Fld) (b : Bool) (hf : f ≤ 6) (ha : 0xE0600000 ≤ a)
    (ha2 : a < 2 ^ 32) : (s.setFeedBit f g b).shFld a k = s.shFld a k := by
  have := feedStat_range hf
  exact State.shFld_setDieFld _ _ _ ha2 (by omega) (by omega)

theorem State.oSt_syncLdDefer {s : State} {d x f : Nat} (hd : d < 2) (hx : x < 32) (hf : f ≤ 6) :
    (s.syncLdDefer f).oSt d x = s.oSt d x := by
  have := oState_range hd hx
  exact State.shFld_setFeedBit _ _ _ hf this.1 (by omega)

theorem State.oFlag_syncLdDefer {s : State} {d x f : Nat} (k : OFlag) (hd : d < 2) (hx : x < 32) (hf : f ≤ 6) :
    (s.syncLdDefer f).oFlag d x k = s.oFlag d x k := by
  have := oState_range hd hx
  unfold State.oFlag
  split
  · unfold State.shBit State.bit
    have e := State.shFld_setFeedBit (s := s) F.SUPC_FEED_STAT_LD_DEFER (by assumption)
      ((feedOuts f).any (fun x => (s.out (feedDie f) x).ldDefer)) hf this.1 (by omega)
    unfold State.shFld at e
    have e2 : s.syncLdDefer f = s.setFeedBit f F.SUPC_FEED_STAT_LD_DEFER
      ((feedOuts f).any (fun x => (s.out (feedDie f) x).ldDefer)) := rfl
    rw [e2, e]
  · rfl

theorem State.syncLdDefer_wf {s : State} {f : Nat} (h : rfWf s.regs = true) : rfWf (s.syncLdDefer f).regs = true :=
  State.setDieFld_wf h

theorem State.syncLdDefer_outs (s : State) (f : Nat) : (s.syncLdDefer f).outs = s.outs := by
  unfold State.syncLdDefer State.setFeedBit State.setDieFld
  exact State.setDieReg_outs ..

/-! ### Turning off -/

theorem State.regs_setOut (s : State) (d x : Nat) (o : OutRt) : (s.setOut d x o).regs = s.regs := rfl

theorem State.regs_modOut (s : State) (d x : Nat) (g : OutRt → OutRt) : (s.modOut d x g).regs = s.regs := State.regs_setOut ..

/-- A state of the same registers shows the same output. -/
theorem State.oSt_of {s t : State} (h : t.regs = s.regs) (d x : Nat) : t.oSt d x = s.oSt d x := by
  unfold State.oSt State.shFld State.fld State.reg
  rw [h]

theorem State.oFlag_of {s t : State} (h : t.regs = s.regs) (d x : Nat) (f : OFlag) : t.oFlag d x f = s.oFlag d x f := by
  unfold State.oFlag State.shBit State.bit State.fld State.reg
  rw [h]

theorem State.shFld_of {s t : State} (h : t.regs = s.regs) (a : Nat) (f : Fld) : t.shFld a f = s.shFld a f := by
  unfold State.shFld State.fld State.reg
  rw [h]

theorem State.dieFld_of {s t : State} (h : t.regs = s.regs) (a : Nat) (f : Fld) : t.dieFld a f = s.dieFld a f := by
  unfold State.dieFld State.dieReg
  rw [h]

theorem State.turnOff_regs (s : State) (d x st : Nat) : (s.turnOff d x st).regs = (s.setOSt d x st).regs := by
  unfold State.turnOff
  exact State.regs_modOut ..

theorem State.turnOff_wf {s : State} {d x st : Nat} (h : rfWf s.regs = true) : rfWf (s.turnOff d x st).regs = true := by
  rw [State.turnOff_regs]
  unfold State.setOSt
  exact State.setShFld_wf h

theorem State.turnOff_len (s : State) (d x st : Nat) : (s.turnOff d x st).outs.length = s.outs.length := by
  unfold State.turnOff State.modOut
  rw [State.outs_setOut]
  exact congrArg List.length (State.setOSt_outs ..)

theorem State.oSt_turnOff {s : State} (h : rfWf s.regs = true) (d x st : Nat) : (s.turnOff d x st).oSt d x = st % 16 := by
  rw [State.oSt_of (State.turnOff_regs s d x st), State.oSt_setOSt h]

theorem State.oFlag_turnOff {s : State} (h : rfWf s.regs = true) (d x st : Nat) (f : OFlag) :
    (s.turnOff d x st).oFlag d x f = s.oFlag d x f := by
  rw [State.oFlag_of (State.turnOff_regs s d x st), State.oFlag_setOSt h]

theorem State.out_turnOff {s : State} (h : s.outs.length = 64) {d x : Nat} (hd : d < 2) (hx : x < 32) (st : Nat) :
    ((s.turnOff d x st).out d x).gate = .off ∧ ((s.turnOff d x st).out d x).ldDefer = false := by
  unfold State.turnOff
  rw [State.out_modOut (by rw [State.setOSt_outs]; exact h) hd hx]
  exact ⟨rfl, rfl⟩

/-- A lock-out leaves its output off in LOCKOUT, with the flag. -/
theorem State.lockout_spec {s : State} (hw : rfWf s.regs = true) (hl : s.outs.length = 64) {d x : Nat} (hd : d < 2) (hx : x < 32)
    (f : OFlag) (hf : (f.fld (isGd x)).isSome = true) : (s.lockout d x f).oSt d x = oLOCKOUT ∧
      (s.oSt d x ≠ oLOCKOUT → (s.lockout d x f).oFlag d x f = true ∧ ((s.lockout d x f).out d x).gate = .off) ∧
      (s.oFlag d x f = true → (s.lockout d x f).oFlag d x f = true) := by
  have h6 : feedOf d x ≤ 6 := feedOf_le hd
  unfold State.lockout
  split
  · rename_i h
    exact ⟨h, fun h2 => absurd h h2, fun h => h⟩
  · have w1 := State.turnOff_wf (d := d) (x := x) (st := oLOCKOUT) hw
    have e1 := State.oFlag_syncLdDefer (s := (s.turnOff d x oLOCKOUT).setO d x f true) f hd hx h6
    refine ⟨?_, fun _ => ⟨?_, ?_⟩, fun _ => ?_⟩
    · rw [State.oSt_syncLdDefer hd hx h6, State.oSt_setO w1, State.oSt_turnOff hw]; rfl
    · rw [e1, State.oFlag_setO w1 _ _ _ _ hf]
    · have := State.out_turnOff hl hd hx oLOCKOUT
      unfold State.out at this ⊢
      rw [State.syncLdDefer_outs, State.out_setO]
      exact this.1
    · rw [e1, State.oFlag_setO w1 _ _ _ _ hf]

/-- An over-current or trip of a conducting output. -/
theorem State.overCurrent_spec {s : State} (hw : rfWf s.regs = true) (hl : s.outs.length = 64) {d x : Nat} (hd : d < 2)
    (hx : x < 32) (f : OFlag) (hf : (f.fld (isGd x)).isSome = true) (hc : conducting (s.oSt d x) = true) :
    (s.overCurrent d x f).oSt d x = (if 1 ≤ s.retryLeft d x then oRETRY else oLOCKOUT) ∧
      (s.overCurrent d x f).oFlag d x f = true ∧ ((s.overCurrent d x f).out d x).gate = .off := by
  have h6 : feedOf d x ≤ 6 := feedOf_le hd
  unfold State.overCurrent
  rw [if_pos hc]
  extract_lets st v
  have w1 := State.turnOff_wf (d := d) (x := x) (st := st) hw
  have hs : st % 16 = st := by
    show (if _ then _ else _) % 16 = (if _ then _ else _); split <;> rfl
  have e1 := State.oFlag_syncLdDefer (s := v.tallyBoth d x (fun t => { t with trips := t.trips + 1 })) f hd hx h6
  refine ⟨?_, ?_, ?_⟩
  · rw [State.oSt_syncLdDefer hd hx h6]
    show ((s.turnOff d x st).setO d x f true).oSt d x = st
    rw [State.oSt_setO w1, State.oSt_turnOff hw, hs]
  · rw [e1]
    show ((s.turnOff d x st).setO d x f true).oFlag d x f = true
    rw [State.oFlag_setO w1 _ _ _ _ hf]
  · unfold State.out
    rw [State.syncLdDefer_outs]
    have hv : v.outs.length = 64 := by
      show (((s.turnOff d x st).setO d x f true).setOut d x _).outs.length = 64
      rw [State.outs_setOut, State.out_setO, State.turnOff_len]; exact hl
    have := State.out_modOut hv hd hx (fun o => { o with tallyE := { o.tallyE with trips := o.tallyE.trips + 1 }, tallyW := { o.tallyW with trips := o.tallyW.trips + 1 } })
    unfold State.out at this
    have e2 := State.out_turnOff hl hd hx st
    have e3 : ((s.turnOff d x st).setO d x f true).outs.length = 64 := by
      rw [State.out_setO, State.turnOff_len]; exact hl
    have e4 : v.out d x = { ((s.turnOff d x st).setO d x f true).out d x with retryDue := false } := State.out_modOut e3 hd hx _
    unfold State.out at e2 e4
    rw [State.out_setO] at e4
    unfold State.tallyBoth
    unfold State.out at *
    rw [this, e4]
    exact e2.1

/-! ### Events at a live output -/

theorem onLive_next {m : Nat} {ok : Bool} {s t : State} {P : State → Prop} (hi : s.Inv) (hk : OutKept ⟨m, s⟩ (onLive ok s t))
    (h1 : ok = false → P s) (h2 : ok = true → t = State.mix m s t → P t) : Completes (onLive ok s t) P := by
  refine ⟨_, rfl, ?_⟩
  cases ok with
  | false => exact h1 rfl
  | true => exact h2 rfl (hk t rfl).mix

theorem State.liveOut_lt {s : State} {d x : Nat} (h : s.liveOut d x = true) : d < 2 ∧ x < 32 := by
  unfold State.liveOut at h
  simp at h
  omega
theorem State.livePc_lt {s : State} {d x : Nat} (h : s.livePc d x = true) : d < 2 ∧ x < 32 ∧ isGd x = false := by
  unfold State.livePc at h
  simp at h
  refine ⟨(State.liveOut_lt h.1).1, (State.liveOut_lt h.1).2, ?_⟩
  unfold isGd; simp; omega
theorem State.liveGd_lt {s : State} {d x : Nat} (h : s.liveGd d x = true) : d < 2 ∧ x < 32 ∧ isGd x = true := by
  unfold State.liveGd at h
  simp at h
  refine ⟨(State.liveOut_lt h.1).1, (State.liveOut_lt h.1).2, ?_⟩
  unfold isGd; simp; omega

theorem State.mix_self (m : Nat) (s : State) : s = State.mix m s s := by
  unfold State.mix
  simp

theorem State.shFld_setO_ne {s : State} {d x a : Nat} (f : OFlag) (b : Bool) (g : Fld) (hd : d < 2) (hx : x < 32) (ha : a < 2 ^ 32)
    (h : oState d x ≠ a) : (s.setO d x f b).shFld a g = s.shFld a g := by
  have := oState_range hd hx
  unfold State.setO
  split
  · unfold State.setShBit State.setBitF
    exact State.shFld_setShFld_ne _ _ _ (by omega) ha h
  · rfl

theorem uext_lt (n : Nat) (i : Int) : uext n i < 2 ^ n := by
  unfold uext
  have : (0 : Int) < ((2 ^ n : Nat) : Int) := by exact_mod_cast Nat.two_pow_pos n
  have h1 := Int.emod_lt_of_pos i this
  have h2 := Int.emod_nonneg i (by omega : ((2 ^ n : Nat) : Int) ≠ 0)
  omega

theorem cur_addr {d x : Nat} (hd : d < 2) (hx : x < 32) : (if isGd x then R.GDR_CUR d (x - 24) else R.PCH_CUR d x) < 2 ^ 32 ∧
    oState d x ≠ (if isGd x then R.GDR_CUR d (x - 24) else R.PCH_CUR d x) := by
  unfold oState R.GDR_CUR R.PCH_CUR R.GDR_STATE R.PCH_STATE isGd
  by_cases h : 24 ≤ x
  · simp only [h, decide_true, if_true]; omega
  · simp only [h, decide_false, Bool.false_eq_true, if_false]; omega


/-! ### What an operation on outputs may write -/

/-- `t` differs from `s` in registers only in the outputs' states at the addresses `p`, in LD_DEFER of a feed and in
DIP_INHIBIT. -/
structure OutRel (p : Nat → Prop) (s t : State) : Prop where
  regs : ∀ k, (∀ a, p a → k ≠ regKey 0 a) → (∀ f, f ≤ 6 → k ≠ dieKey (R.SUPC_FEED_STAT f)) →
    (∀ d, d < 2 → k ≠ dieKey (R.SUPC_DIPINH d)) →
    rfGet t.regs k = rfGet s.regs k
  feed : ∀ f g, 1 ≤ f → f ≤ 6 → Fld.ok g → Fld.apart F.SUPC_FEED_STAT_LD_DEFER g →
    t.dieFld (R.SUPC_FEED_STAT f) g = s.dieFld (R.SUPC_FEED_STAT f) g
  wf : rfWf t.regs = true
  len : t.outs.length = s.outs.length
  feeds : t.feeds = s.feeds

theorem OutRel.refl {p : Nat → Prop} {s : State} (h : rfWf s.regs = true) : OutRel p s s :=
  ⟨fun _ _ _ _ => rfl, fun _ _ _ _ _ _ => rfl, h, rfl, rfl⟩

theorem OutRel.trans {p : Nat → Prop} {s t u : State} (h : OutRel p s t) (k : OutRel p t u) : OutRel p s u :=
  ⟨fun a b c d => (k.regs a b c d).trans (h.regs a b c d), fun f g a a2 b c => (k.feed f g a a2 b c).trans (h.feed f g a a2 b c),
    k.wf, k.len.trans h.len, k.feeds.trans h.feeds⟩

/-- A step from a state of which the rest holds. -/
theorem OutRel.next {p : Nat → Prop} {s t u : State} (h : OutRel p s t) (k : rfWf t.regs = true → OutRel p t u) :
    OutRel p s u := h.trans (k h.wf)

theorem OutRel.mono {p q : Nat → Prop} {s t : State} (h : OutRel p s t) (k : ∀ a, p a → q a) : OutRel q s t :=
  ⟨fun a b c d => h.regs a (fun x hx => b x (k x hx)) c d, h.feed, h.wf, h.len, h.feeds⟩

theorem OutRel.setOut {p : Nat → Prop} {s : State} (h : rfWf s.regs = true) (d x : Nat) (o : OutRt) :
    OutRel p s (s.setOut d x o) :=
  ⟨fun _ _ _ _ => by rw [State.regs_setOut], fun _ _ _ _ _ _ => State.dieFld_of (State.regs_setOut ..) _ _,
    by rw [State.regs_setOut]; exact h, State.outs_setOut .., rfl⟩

theorem OutRel.modOut {p : Nat → Prop} {s : State} (h : rfWf s.regs = true) (d x : Nat) (g : OutRt → OutRt) :
    OutRel p s (s.modOut d x g) := OutRel.setOut h ..

theorem OutRel.tallyBoth {p : Nat → Prop} {s : State} (h : rfWf s.regs = true) (d x : Nat) (g : Tally → Tally) :
    OutRel p s (s.tallyBoth d x g) := OutRel.modOut h ..

theorem OutRel.setShFld {p : Nat → Prop} {s : State} (h : rfWf s.regs = true) {a : Nat} (g : Fld) (v : Nat) (ha : p a)
    (h1 : 0xE0600000 ≤ a) (h2 : a < 2 ^ 32) : OutRel p s (s.setShFld a g v) := by
  have hs := State.setFld_served s .E a g v
  refine ⟨?_, ?_, State.setShFld_wf h, ?_, ?_⟩
  · intro k hk _ _
    exact rfGet_rfPut_ne _ _ _ _ (fun e => hk a ha e.symm)
  · intro f k _ hf _ _
    have := feedStat_range hf
    exact State.dieFld_setShFld _ _ _ h2 (by omega) (by omega)
  · exact congrArg List.length (State.Served.outs hs)
  · exact State.Served.feeds hs

theorem OutRel.setO {p : Nat → Prop} {s : State} (h : rfWf s.regs = true) {d x : Nat} (hd : d < 2) (hx : x < 32)
    (hp : p (oState d x)) (f : OFlag) (b : Bool) : OutRel p s (s.setO d x f b) := by
  have := oState_range hd hx
  unfold State.setO
  split
  · exact OutRel.setShFld h _ _ hp this.1 (by omega)
  · exact .refl h

theorem OutRel.setOSt {p : Nat → Prop} {s : State} (h : rfWf s.regs = true) {d x : Nat} (hd : d < 2) (hx : x < 32)
    (hp : p (oState d x)) (v : Nat) : OutRel p s (s.setOSt d x v) := by
  have := oState_range hd hx
  exact OutRel.setShFld h _ _ hp this.1 (by omega)

theorem OutRel.setRetryLeft {p : Nat → Prop} {s : State} (h : rfWf s.regs = true) {d x : Nat} (hd : d < 2) (hx : x < 32)
    (hp : p (oState d x)) (v : Nat) : OutRel p s (s.setRetryLeft d x v) := by
  have := oState_range hd hx
  exact OutRel.setShFld h _ _ hp this.1 (by omega)

theorem OutRel.reload {p : Nat → Prop} {s : State} (h : rfWf s.regs = true) {d x : Nat} (hd : d < 2) (hx : x < 32)
    (hp : p (oState d x)) : OutRel p s (s.reload d x) := OutRel.setRetryLeft h hd hx hp _

theorem OutRel.clearLatched {p : Nat → Prop} {s : State} (h : rfWf s.regs = true) {d x : Nat} (hd : d < 2) (hx : x < 32)
    (hp : p (oState d x)) : OutRel p s (s.clearLatched d x) := by
  have := oState_range hd hx
  unfold State.clearLatched
  split
  · exact OutRel.setShFld h _ _ hp this.1 (by omega)
  · exact OutRel.setShFld h _ _ hp this.1 (by omega)

theorem State.setDieReg_feeds (s : State) (a : Nat) (v : Word) : (s.setDieReg a v).feeds = s.feeds := by
  unfold State.setDieReg
  rfl

theorem OutRel.setDieFld {p : Nat → Prop} {s : State} (h : rfWf s.regs = true) {a : Nat} (g : Fld) (v : Nat)
    (ha : (∃ f, f ≤ 6 ∧ a = R.SUPC_FEED_STAT f ∧ g = F.SUPC_FEED_STAT_LD_DEFER) ∨ ∃ d, d < 2 ∧ a = R.SUPC_DIPINH d) :
    OutRel p s (s.setDieFld a g v) := by
  refine ⟨?_, ?_, State.setDieFld_wf h, ?_, ?_⟩
  · intro k _ h1 h2
    refine rfGet_rfPut_ne _ _ _ _ (fun e => ?_)
    rcases ha with ⟨f, hf, rfl, _⟩ | ⟨d, hd, rfl⟩
    · exact h1 f hf e.symm
    · exact h2 d hd e.symm
  · intro f k h1 hf hk hap
    by_cases e : a = R.SUPC_FEED_STAT f
    · subst e
      rcases ha with ⟨f, _, _, rfl⟩ | ⟨d, hd, e⟩
      · exact State.dieFld_setDieFld_apart h _ _ (by unfold Fld.ok; decide) hk hap
      · unfold R.SUPC_FEED_STAT R.SUPC_DIPINH at e; omega
    · exact State.dieFld_setDieFld_ne _ _ _ e
  · unfold State.setDieFld; rw [State.setDieReg_outs]
  · unfold State.setDieFld; rw [State.setDieReg_feeds]

theorem OutRel.syncLdDefer {p : Nat → Prop} {s : State} (h : rfWf s.regs = true) {f : Nat} (hf : f ≤ 6) :
    OutRel p s (s.syncLdDefer f) := OutRel.setDieFld h _ _ (.inl ⟨f, hf, rfl, rfl⟩)

theorem OutRel.setDipInhibit {p : Nat → Prop} {s : State} (h : rfWf s.regs = true) {d x : Nat} (hd : d < 2) (hx : x < 32)
    (hp : p (oState d x)) (b : Bool) : OutRel p s (s.setDipInhibit d x b) :=
  (OutRel.setDieFld h ⟨x, x⟩ (b2n b) (.inr ⟨d, hd, rfl⟩)).next (fun h => OutRel.setO h hd hx hp _ _)

theorem OutRel.turnOff {p : Nat → Prop} {s : State} (h : rfWf s.regs = true) {d x : Nat} (hd : d < 2) (hx : x < 32)
    (hp : p (oState d x)) (v : Nat) : OutRel p s (s.turnOff d x v) := by
  unfold State.turnOff
  exact (OutRel.setOSt h hd hx hp v).next (fun h => OutRel.modOut h ..)

theorem OutRel.conduct {p : Nat → Prop} {s : State} (h : rfWf s.regs = true) {d x : Nat} (hd : d < 2) (hx : x < 32)
    (hp : p (oState d x)) : OutRel p s (s.conduct d x) := by
  unfold State.conduct
  exact ((OutRel.setOSt h hd hx hp _).next (fun h => OutRel.modOut h ..)).next (fun h => OutRel.tallyBoth h ..)

theorem OutRel.tryOn {p : Nat → Prop} {s : State} (h : rfWf s.regs = true) {d x : Nat} (hd : d < 2) (hx : x < 32)
    (hp : p (oState d x)) : OutRel p s (s.tryOn d x) := by
  unfold State.tryOn
  split
  · split
    · exact OutRel.setOSt h hd hx hp _
    · exact OutRel.conduct h hd hx hp
  · exact .refl h

theorem OutRel.lockout {p : Nat → Prop} {s : State} (h : rfWf s.regs = true) {d x : Nat} (hd : d < 2) (hx : x < 32)
    (hp : p (oState d x)) (f : OFlag) : OutRel p s (s.lockout d x f) := by
  unfold State.lockout
  split
  · exact .refl h
  · exact ((OutRel.turnOff h hd hx hp _).next (fun h => OutRel.setO h hd hx hp _ _)).next (fun h => OutRel.syncLdDefer h (feedOf_le hd))

theorem OutRel.retryOn {p : Nat → Prop} {s : State} (h : rfWf s.regs = true) {d x : Nat} (hd : d < 2) (hx : x < 32)
    (hp : p (oState d x)) : OutRel p s (s.retryOn d x) := by
  unfold State.retryOn
  exact (OutRel.setRetryLeft h hd hx hp _).next (fun h => OutRel.conduct h hd hx hp)

theorem OutRel.retryElapsed {p : Nat → Prop} {s : State} (h : rfWf s.regs = true) {d x : Nat} (hd : d < 2) (hx : x < 32)
    (hp : p (oState d x)) : OutRel p s (s.retryElapsed d x) := by
  unfold State.retryElapsed
  split
  · split
    · exact OutRel.modOut h ..
    · split
      · exact OutRel.setOSt h hd hx hp _
      · exact OutRel.retryOn h hd hx hp
  · exact .refl h

theorem OutRel.thermalCleared {p : Nat → Prop} {s : State} (h : rfWf s.regs = true) {d x : Nat} (hd : d < 2) (hx : x < 32)
    (hp : p (oState d x)) : OutRel p s (s.thermalCleared d x) := by
  unfold State.thermalCleared
  split
  · split
    · exact OutRel.retryOn h hd hx hp
    · exact OutRel.setOSt h hd hx hp _
  · exact .refl h

theorem OutRel.leaveLockout {p : Nat → Prop} {s : State} (h : rfWf s.regs = true) {d x : Nat} (hd : d < 2) (hx : x < 32)
    (hp : p (oState d x)) : OutRel p s (s.leaveLockout d x) := by
  unfold State.leaveLockout
  exact ((((OutRel.setOSt h hd hx hp _).next (fun h => OutRel.clearLatched h hd hx hp)).next
    (fun h => OutRel.setO h hd hx hp _ _)).next (fun h => OutRel.reload h hd hx hp)).next (fun h => OutRel.tryOn h hd hx hp)

theorem OutRel.toDip {p : Nat → Prop} {s : State} (h : rfWf s.regs = true) {d x : Nat} (hd : d < 2) (hx : x < 32)
    (hp : p (oState d x)) : OutRel p s (s.toDip d x) := by
  unfold State.toDip
  extract_lets st
  split
  · exact .refl h
  · exact (OutRel.turnOff h hd hx hp _).next (fun h => OutRel.modOut h ..)

theorem OutRel.restoreOut {p : Nat → Prop} {s : State} (h : rfWf s.regs = true) {d x : Nat} (hd : d < 2) (hx : x < 32)
    (hp : p (oState d x)) : OutRel p s (s.restoreOut d x) := by
  unfold State.restoreOut
  split
  · extract_lets o s1 s2
    split
    · split
      · exact OutRel.setOSt h hd hx hp _
      · split
        · exact OutRel.setOSt h hd hx hp _
        · have h1 : OutRel p s s1 := OutRel.setOSt h hd hx hp _
          have h2 : OutRel p s s2 := by
            show OutRel p s (if _ then _ else _)
            split
            · exact h1.next (fun h => OutRel.reload h hd hx hp)
            · exact h1
          exact h2.next (fun h => OutRel.tryOn h hd hx hp)
    · exact (OutRel.setOSt h hd hx hp _).next (fun h => OutRel.setDipInhibit h hd hx hp _)
  · exact .refl h

theorem OutRel.startDeferred {p : Nat → Prop} {s : State} (h : rfWf s.regs = true) {d x : Nat} (hd : d < 2) (hx : x < 32)
    (hp : p (oState d x)) : OutRel p s (s.startDeferred d x) := by
  unfold State.startDeferred
  split
  · exact (OutRel.turnOff h hd hx hp _).next (fun h => OutRel.syncLdDefer h (feedOf_le hd))
  · exact .refl h

/-- One operation for each of a list. -/
theorem OutRel.forEach {p : Nat → Prop} {g : State → Nat → State} {xs : List Nat}
    (hg : ∀ s x, x ∈ xs → rfWf s.regs = true → OutRel p s (g s x)) {s : State} (h : rfWf s.regs = true) :
    OutRel p s (s.forEach xs g) := by
  induction xs generalizing s with
  | nil => exact .refl h
  | cons x xs ih => exact (hg s x (by simp) h).next (fun h => ih (fun s y hy => hg s y (by simp [hy])) h)

theorem feedOuts_lt {f x : Nat} (h : x ∈ feedOuts f) : x < 32 := by
  unfold feedOuts at h
  split at h <;> simp at h <;> omega

theorem feedDie_lt {f : Nat} (h : f ≤ 6) : feedDie f < 2 := by
  unfold feedDie; omega

theorem OutRel.resumeOuts {p : Nat → Prop} {s : State} (h : rfWf s.regs = true) {f : Nat} (hf : f ≤ 6)
    (hp : ∀ x, x < 32 → p (oState (feedDie f) x)) : OutRel p s (s.resumeOuts f) := by
  unfold State.resumeOuts
  refine OutRel.forEach (fun s x hx h => ?_) h
  have hl := feedOuts_lt hx
  have hd := feedDie_lt hf
  simp only []
  split
  · exact ((OutRel.retryElapsed h hd hl (hp x hl)).next (fun h => OutRel.thermalCleared h hd hl (hp x hl))).next
      (fun h => OutRel.tryOn h hd hl (hp x hl))
  · exact (OutRel.thermalCleared h hd hl (hp x hl)).next (fun h => OutRel.tryOn h hd hl (hp x hl))

/-- Another register of the outputs' region. -/
theorem OutRel.shFld {d x : Nat} {s t : State} (h : OutRel (· = oState d x) s t) (hd : d < 2) (hx : x < 32) {a : Nat}
    (h1 : 0xE0600000 ≤ a) (h2 : a < 2 ^ 32) (hne : a ≠ oState d x) (g : Fld) : t.shFld a g = s.shFld a g := by
  have := oState_range hd hx
  unfold State.shFld State.fld
  refine congrArg (getF · g) (h.regs _ ?_ ?_ ?_)
  · intro b hb e
    subst hb
    exact regKey_ne h2 (by omega) hne e
  · intro f hf e
    have := feedStat_range hf
    exact dieKey_ne h2 (by omega) (by omega) e.symm
  · intro b hb e
    have hr : R.SUPC_DIPINH b < 0xE0600000 := by unfold R.SUPC_DIPINH; omega
    exact dieKey_ne h2 (by omega) (by omega) e.symm

end Sys2Proof.Machine
end

