-- ==== Sys2Proof/Laws/Writes.lean ====
section
/-! SUPPORT. What a chain of register writes leaves: every register and field that none of them names. -/

namespace Sys2Proof.Machine

/-- The field that is the whole register. -/
def Fld.whole : Fld := ⟨31, 0⟩

/-- `t` differs from `s` in registers only in the fields that `p` names by address. -/
structure RegOnly (p : Nat → Fld → Prop) (s t : State) : Prop where
  reg : ∀ l a, a < 2 ^ 32 → (∀ f, ¬ p a f) → t.reg l a = s.reg l a
  fld : ∀ l a g, a < 2 ^ 32 → Fld.ok g → (∀ f, p a f → Fld.apart f g) → t.fld l a g = s.fld l a g
  wf : rfWf t.regs = true

theorem RegOnly.of {p : Nat → Fld → Prop} {s t : State} (h : t.regs = s.regs) (w : rfWf s.regs = true) : RegOnly p s t :=
  ⟨fun l a _ _ => by unfold State.reg; rw [h], fun l a g _ _ _ => by unfold State.fld State.reg; rw [h], by rw [h]; exact w⟩

theorem RegOnly.refl {p : Nat → Fld → Prop} {s : State} (w : rfWf s.regs = true) : RegOnly p s s := .of rfl w

theorem RegOnly.next {p : Nat → Fld → Prop} {s t u : State} (h : RegOnly p s t) (k : rfWf t.regs = true → RegOnly p t u) :
    RegOnly p s u :=
  ⟨fun l a b c => ((k h.wf).reg l a b c).trans (h.reg l a b c), fun l a g b c d => ((k h.wf).fld l a g b c d).trans (h.fld l a g b c d),
    (k h.wf).wf⟩

theorem RegOnly.mono {p q : Nat → Fld → Prop} {s t : State} (h : RegOnly p s t) (k : ∀ a f, p a f → q a f) : RegOnly q s t :=
  ⟨fun l a b c => h.reg l a b (fun f hf => c f (k a f hf)), fun l a g b c d => h.fld l a g b c (fun f hf => d f (k a f hf)), h.wf⟩

theorem RegOnly.bit {p : Nat → Fld → Prop} {s t : State} (h : RegOnly p s t) (l : Lane) {a : Nat} {g : Fld} (ha : a < 2 ^ 32)
    (hg : Fld.ok g) (hp : ∀ f, p a f → Fld.apart f g) : t.bit l a g = s.bit l a g := by
  unfold State.bit; rw [h.fld l a g ha hg hp]

theorem RegOnly.shFld {p : Nat → Fld → Prop} {s t : State} (h : RegOnly p s t) {a : Nat} {g : Fld} (ha : a < 2 ^ 32)
    (hg : Fld.ok g) (hp : ∀ f, p a f → Fld.apart f g) : t.shFld a g = s.shFld a g := h.fld .E a g ha hg hp

theorem RegOnly.shBit {p : Nat → Fld → Prop} {s t : State} (h : RegOnly p s t) {a : Nat} {g : Fld} (ha : a < 2 ^ 32)
    (hg : Fld.ok g) (hp : ∀ f, p a f → Fld.apart f g) : t.shBit a g = s.shBit a g := h.bit .E ha hg hp

theorem RegOnly.shReg {p : Nat → Fld → Prop} {s t : State} (h : RegOnly p s t) {a : Nat} (ha : a < 2 ^ 32)
    (hp : ∀ f, ¬ p a f) : t.shReg a = s.shReg a := h.reg .E a ha hp

theorem RegOnly.setReg {p : Nat → Fld → Prop} {s : State} (w : rfWf s.regs = true) {l : Lane} {a : Nat} {v : Word}
    (ha : a < 2 ^ 32) (hp : p a Fld.whole) : RegOnly p s (s.setReg l a v) := by
  refine ⟨?_, ?_, State.setReg_wf w⟩
  · intro k b hb hn
    exact State.reg_setReg_ne (regKey_ne ha hb (fun e => hn Fld.whole (e ▸ hp)))
  · intro k b g hb hg hn
    have : a ≠ b := by
      intro e
      subst e
      have := hn Fld.whole hp
      unfold Fld.apart Fld.whole at this
      unfold Fld.ok at hg
      simp at this
      omega
    unfold State.fld
    rw [State.reg_setReg_ne (regKey_ne ha hb this)]

theorem RegOnly.setFld {p : Nat → Fld → Prop} {s : State} (w : rfWf s.regs = true) {l : Lane} {a : Nat} {f : Fld} {v : Nat}
    (ha : a < 2 ^ 32) (hf : Fld.ok f) (hp : p a f) : RegOnly p s (s.setFld l a f v) := by
  refine ⟨?_, ?_, State.setFld_wf w⟩
  · intro k b hb hn
    exact State.reg_setFld_ne (regKey_ne ha hb (fun e => hn f (e ▸ hp)))
  · intro k b g hb hg hn
    by_cases e : a = b
    · subst e
      exact State.fld_setFld_apart w l k a v hf hg (hn f hp)
    · unfold State.fld
      rw [State.reg_setFld_ne (regKey_ne ha hb e)]

theorem RegOnly.setBitF {p : Nat → Fld → Prop} {s : State} (w : rfWf s.regs = true) {l : Lane} {a : Nat} {f : Fld} {b : Bool}
    (ha : a < 2 ^ 32) (hf : Fld.ok f) (hp : p a f) : RegOnly p s (s.setBitF l a f b) := RegOnly.setFld w ha hf hp

theorem RegOnly.setSh {p : Nat → Fld → Prop} {s : State} (w : rfWf s.regs = true) {a : Nat} {v : Word}
    (ha : a < 2 ^ 32) (hp : p a Fld.whole) : RegOnly p s (s.setSh a v) := RegOnly.setReg w ha hp

theorem RegOnly.setShFld {p : Nat → Fld → Prop} {s : State} (w : rfWf s.regs = true) {a : Nat} {f : Fld} {v : Nat}
    (ha : a < 2 ^ 32) (hf : Fld.ok f) (hp : p a f) : RegOnly p s (s.setShFld a f v) := RegOnly.setFld w ha hf hp

theorem RegOnly.setShBit {p : Nat → Fld → Prop} {s : State} (w : rfWf s.regs = true) {a : Nat} {f : Fld} {b : Bool}
    (ha : a < 2 ^ 32) (hf : Fld.ok f) (hp : p a f) : RegOnly p s (s.setShBit a f b) := RegOnly.setFld w ha hf hp

theorem RegOnly.setRegBoth {p : Nat → Fld → Prop} {s : State} (w : rfWf s.regs = true) {a : Nat} {v : Word}
    (ha : a < 2 ^ 32) (hp : p a Fld.whole) : RegOnly p s (s.setRegBoth a v) :=
  (RegOnly.setReg w ha hp).next (fun w => RegOnly.setReg w ha hp)

theorem RegOnly.setFldBoth {p : Nat → Fld → Prop} {s : State} (w : rfWf s.regs = true) {a : Nat} {f : Fld} {v : Nat}
    (ha : a < 2 ^ 32) (hf : Fld.ok f) (hp : p a f) : RegOnly p s (s.setFldBoth a f v) :=
  (RegOnly.setFld w ha hf hp).next (fun w => RegOnly.setFld w ha hf hp)

theorem RegOnly.setBitBoth {p : Nat → Fld → Prop} {s : State} (w : rfWf s.regs = true) {a : Nat} {f : Fld} {b : Bool}
    (ha : a < 2 ^ 32) (hf : Fld.ok f) (hp : p a f) : RegOnly p s (s.setBitBoth a f b) := RegOnly.setFldBoth w ha hf hp

theorem RegOnly.count {p : Nat → Fld → Prop} {s : State} (w : rfWf s.regs = true) {l : Lane} {a : Nat}
    (ha : a < 2 ^ 32) (hp : p a Fld.whole) : RegOnly p s (s.count l a) := RegOnly.setReg w ha hp

theorem RegOnly.countBoth {p : Nat → Fld → Prop} {s : State} (w : rfWf s.regs = true) {a : Nat}
    (ha : a < 2 ^ 32) (hp : p a Fld.whole) : RegOnly p s (s.countBoth a) :=
  (RegOnly.count w ha hp).next (fun w => RegOnly.count w ha hp)

theorem RegOnly.countSh {p : Nat → Fld → Prop} {s : State} (w : rfWf s.regs = true) {a : Nat}
    (ha : a < 2 ^ 32) (hp : p a Fld.whole) : RegOnly p s (s.countSh a) := RegOnly.count w ha hp

theorem RegOnly.countFld {p : Nat → Fld → Prop} {s : State} (w : rfWf s.regs = true) {l : Lane} {a : Nat} {f : Fld}
    (ha : a < 2 ^ 32) (hf : Fld.ok f) (hp : p a f) : RegOnly p s (s.countFld l a f) := RegOnly.setFld w ha hf hp

theorem RegOnly.forEach {p : Nat → Fld → Prop} {g : State → Nat → State} {xs : List Nat}
    (hg : ∀ s x, x ∈ xs → rfWf s.regs = true → RegOnly p s (g s x)) {s : State} (w : rfWf s.regs = true) :
    RegOnly p s (s.forEach xs g) := by
  induction xs generalizing s with
  | nil => exact .refl w
  | cons x xs ih => exact (hg s x (by simp) w).next (fun w => ih (fun s y hy => hg s y (by simp [hy])) w)

theorem RegOnly.foldl {α : Type} {p : Nat → Fld → Prop} {g : State → α → State} {xs : List α}
    (hg : ∀ s x, x ∈ xs → rfWf s.regs = true → RegOnly p s (g s x)) {s : State} (w : rfWf s.regs = true) :
    RegOnly p s (xs.foldl g s) := by
  induction xs generalizing s with
  | nil => exact .refl w
  | cons x xs ih => exact (hg s x (by simp) w).next (fun w => ih (fun s y hy => hg s y (by simp [hy])) w)

end Sys2Proof.Machine
end

