-- ==== Sys2Proof/Tests/Slice0.lean ====
section
/-! SUPPORT. Tests: an ill-formed command for each check of WellFormed.lean, and for each clause of the statements that has
hypotheses a concrete state and operands that meet all of them together. -/

namespace Sys2Proof.Tests

open Sys2Proof Sys2Proof.Machine

set_option Elab.async false

/-! ### Small states and requests -/

def req (op : Nat) (src : Src) (bs : List Byte) : Req :=
  { lane := .E, src := src, slot := 0, flags := 0, reqId := op + 7, length := bs.length, target := 0, deadline := 0, payload := bs,
    inAddr := 0, outAddr := 0, outCap := 0, padZero := true, sigOk := true, svnOk := true, hwFault := false }
def up (x : DieRt) : DieRt := { x with up := true, lastCycle := some 5, highEpoch := some 1 }
/-- Lane E holds the ferry and serves, lane W is in standby, every die is up, and the module is configured. -/
def live : State :=
  let s := { State.reset with
    laneE := { LaneRt.reset with resetting := none, powered := true, elderUp := true, bootOk := true, coresHeld := false },
    laneW := { LaneRt.reset with resetting := none, powered := true, elderUp := true, bootOk := true, coresHeld := false },
    p0 := up .reset, p1 := up .reset, f0 := up .reset, f1 := up .reset, fi := up .reset, cmn := up .reset,
    pw0 := { PowerRt.reset with configured := true }, pw1 := { PowerRt.reset with configured := true },
    fd0 := { FieldRt.reset with configured := true }, fd1 := { FieldRt.reset with configured := true },
    fd2 := { FieldRt.reset with configured := true },
    arb := { State.reset.arb with held := some .E, epoch := 1 },
    mod_ := { State.reset.mod_ with poweredOn := true, configured := true } }
  let s := s.setFld .E R.FERRY_LANE F.FERRY_LANE_OWN_STATE 5
  let s := s.setFld .W R.FERRY_LANE F.FERRY_LANE_OWN_STATE 4
  let s := s.setBitF .E R.FERRY_LANE F.FERRY_LANE_LEASE_VALID true
  let s := s.setBitF .E R.SCSM_STATUS F.SCSM_STATUS_SERVING true
  let s := s.setBitF .W R.SCSM_STATUS F.SCSM_STATUS_SERVING true
  s
/-- A field of a register of lane E set. -/
def f (s : State) (a : Nat) (g : Fld) (v : Nat) : State := s.setFld .E a g v
def g (s : State) (a : Nat) (v : Word) : State := s.setReg .E a v
def gb (s : State) (a : Nat) (v : Word) : State := (s.setReg .E a v).setReg .W a v
def fb (s : State) (a : Nat) (x : Fld) (v : Nat) : State := s.setFldBoth a x v
def entX (n : Nat) : LEntry := { lsn := n, st := .executing, stream := 0x8000, opcode := 0x600, quota := 128, req := req 0x600 .smb0 [], acc := 0, deadline := none, disp := 0, err := 0, recovered := false, unclaimed := false, doneAt := 0 }
def wents (s : State) (ns : List Nat) : State := { s with led := { s.led with entries := ns.map entX, nextLsn := 100 } }
def gs (s : State) (a : Nat) (v : Word) : State := ((s.setReg .E a v).setShadow .E a v).setShadow .W a v
/-- Time base n runs under a configuration and gains, with an interval of 5 us. -/
def tbr (n : Nat) (cfg gain : Word) : State :=
  ((((((live.setSh (R.TIME_TB_STAT n) 1).setSh (R.TIME_TB_CFG n) cfg).setSh (R.TIME_TB_GAIN n) gain).setSh (R.TIME_TB_STEP n) 100).setSh
    (R.TIME_TB_LOCK n) 5).setSh (R.TIME_TB_OFS_T n) 5).setTb n ⟨2 ^ 60, .ofInt 3, 7, false⟩
/-- Every port of the bridge is enabled, linked and awake, with queues. -/
def ethup : State := (List.range 16).foldl (fun s p => ((s.setSh (R.ETHS_P_CFG p) 1).setSh (R.ETHS_P_STAT p) 1).setSh (R.ETHS_P_QMAX p) 100) live
/-- Frames to address 5 with VID 1 are stream 1 with filter 255. -/
def sfup (w0 w1 : Word) : State := ((((ethup.setSh (R.ETHS_SID_W0 1) 5).setSh (R.ETHS_SID_W1 1) 0x10000).setSh (R.ETHS_SID_W2 1) 1).setSh
  (R.ETHS_SF_W0 255) w0).setSh (R.ETHS_SF_W1 255) w1
def lfr (l : Lane) (pdu : Option Nat) : EthHeld := ⟨l, ⟨5, 6, 1, 7, 0x800, none, none, 65, [1,2], none⟩, 3, 9, some 5, pdu, none⟩
def ebf (p : Nat) (dl : Option Nat) : EthBuf := ⟨4, ⟨5, 6, 1, 7, 0x800, none, none, 65, [1,2], none⟩, 2, 1, 6, false, 2 ^ p, 0, some 9, some 3, some 5, none, dl⟩
def ebuf (p : Nat) (dl : Option Nat) : State := let s := wents ethup [5]; { s with eth := { s.eth with bufs := [ebf p dl] } }
/-- A PDU definition of lane E. -/
def pdu (s : State) (i tx kind port id len ofs first n trig act : Nat) : State :=
  let w0 := setF (setF (setF (setF (setF (setF (setF 0 F.HARB_PDU_W0_EN 1) F.HARB_PDU_W0_DIR tx) F.HARB_PDU_W0_KIND kind) F.HARB_PDU_W0_PORT port)
    F.HARB_PDU_W0_LEN len) F.HARB_PDU_W0_TRIG trig) F.HARB_PDU_W0_COVE_ACT act
  (((s.setReg .E (R.HARB_PDU_W0 i) w0).setReg .E (R.HARB_PDU_W1 i) (BitVec.ofNat 32 id)).setReg .E (R.HARB_PDU_W3 i) (BitVec.ofNat 32 ofs)).setReg .E
    (R.HARB_PDU_W4 i) (BitVec.ofNat 32 (first + n * 65536))
/-- A route of lane E: 12 bits from bit 4 of src to 8 bits from bit 3 of dst, times 1 over 2. -/
def rt (s : State) (r src dst ty : Nat) : State :=
  let w0 := setF (setF (setF (setF (setF 0 F.HARB_RT_W0_EN 1) F.HARB_RT_W0_SRC_TYPE ty) F.HARB_RT_W0_DST_TYPE 1) F.HARB_RT_W0_SRC_START 4) F.HARB_RT_W0_SRC_LEN 12
  let w2 := setF (setF 0 F.HARB_RT_W2_DST_START 3) F.HARB_RT_W2_DST_LEN 8
  ((((s.setReg .E (R.HARB_RT_W0 r) w0).setReg .E (R.HARB_RT_W1 r) (BitVec.ofNat 32 (src + dst * 65536))).setReg .E (R.HARB_RT_W2 r) w2).setReg .E
    (R.HARB_RT_W3 r) 1).setReg .E (R.HARB_RT_W4 r) 2
def hin (s : State) (xs : List HarbIn) : State := { s with harbInE := xs }
def ask (s : State) (i : Nat) (x : PduRt) : State := s.setPdu .E { x with ix := i }
/-- PDU 9 of lane E is sent; its port's cove is cove 0. -/
def tx9 (kind port len act : Nat) : State := wents (pdu live 9 1 kind port 7 len 32 0 0 4 act) [5]
def ax (act : Nat) : HarbAsk := ⟨act, [3], [5]⟩
def px (a : Option HarbAsk) : PduRt := ⟨9, a, false, [], none, none, 0⟩
/-- Cove 7 holds CN05, LN1, EP3 and ES3, with CN05 as ring port and members 0x21 and 0x22. -/
def cov (st nmem fails ring pos : Nat) (stands : Bool) : State :=
  let s := ((((live.setSh (R.NMS_PORTCOVE 0) 0x38000).setSh (R.NMS_PORTCOVE 2) 0x38).setSh (R.NMS_PORTCOVE 3) 0x38000).setSh (R.NMS_PORTCOVE 4) 0x38000)
  let s := s.setSh (R.NMS_COVE_CFG0 7) (BitVec.ofNat 32 (1 + 2 * 5 + 256 * nmem + 3 * 2 ^ 24))
  let s := (s.setSh (R.NMS_MEM_W0 7 0) 0x20021).setSh (R.NMS_MEM_W0 7 1) 0x20022
  let s := ((s.setSh (R.NMS_MEM_W1 7 0) 0x310).setSh (R.NMS_MEM_W2 7 0) 0x7F0).setSh (R.CAN_INH_MAP 1) 0x20000
  let s := s.setSh (R.NMS_COVE_STAT 7) (BitVec.ofNat 32 (st + 8 * b2n stands + 256 * ring + 65536 * pos + 2 ^ 24 * fails))
  let s := (s.setSh (R.CAN_TRX 5) 2).setSh (R.NMS_MEM_W2 7 1) 0x7F0
  (wents s [5, 6]).setCove 7 ⟨[], false⟩
def cwait (s : State) : State := s.setCove 7 ⟨[], true⟩
def curf (s : State) : State := { s with nms := { s.nms with curfews := [(5, 0x80)] } }
def lm (s : State) (k : LaneRt → LaneRt) : State := s.setLane .E (k s.laneE)
def mm (s : State) (k : ModuleRt → ModuleRt) : State := { s with mod_ := k s.mod_ }
/-- A lane's SRAM and LPDDR hold something, its tide runs, watchdogs are on, and interrupts wait. -/
def busy : State :=
  let s := (((live.setByte .E 0x10000004 7).setByte .E 0x0800000001 9).setByte .W 0x10000004 7)
  let s := (s.setReg .E (R.RSTC_WDT_CFG 5) 0x03E70001).setReg .E 0xE0900000 5
  { s.modTide .E (fun t => { t with acc := 3 }) with irqs := [⟨.E, none, 3⟩, ⟨.W, none, 3⟩] }
def inBench (s : State) : State := s.setFldBoth R.LHS_STATUS F.LHS_STATUS_LIFECYCLE 2
def lane2 (v : Nat) : State := live.setFld .W R.FERRY_LANE F.FERRY_LANE_OWN_STATE v
def strait (s : State) : State := s.setFldBoth R.FERRY_LANE F.FERRY_LANE_STRAIT_UP 1
/-- Entry n of opcode op. -/
def entOp (n op : Nat) (st : ESt) (src : Src) : LEntry := { entX n with opcode := op, st := st, req := req op src [] }
def ents (s : State) (es : List LEntry) : State := { s with led := { s.led with entries := es, nextLsn := 100 } }
/-- Lane E in a reset, with every domain good but those named. -/
def rel (lvl : RLevel) (bad : List Nat) : State :=
  let s := lm live (fun x => { x with resetting := some lvl, elderUp := false, coresHeld := true, released := [0], resetLsns := [5] })
  let s := wents (s.setReg .E R.CLKC_XTAL_STAT 1) [5]
  ([1, 2, 3, 4, 5, 6, 7].filter (fun n => !bad.contains n)).foldl (fun s n => s.setDom .E n F.CLKC_DOM_STAT_CLK_GOOD true) s
def tok (kind : Nat) (rest : List Byte) : List Byte := leBytes 4 manMAGIC ++ [1,0,0,BitVec.ofNat 8 kind,0,0,0,0] ++ (List.range 16).map Config.uid ++ rest
/-- Sensor k of lane E: response, THR_M1. -/
def sens (s : State) (k r thr : Nat) : State := s.setReg .E (R.LHS_EVT_CFG k) (BitVec.ofNat 32 (r + 256 * thr))
def keys (s : State) : State := (s.putKey 8 3 [1,2]).putKey 9 0x13 [3]
/-- Queue 5 of function 0 in lane E, of kind k, with depth 4, its rings in the first SRAM page, and positions. -/
def qst (k h tl ch ct : Nat) : State :=
  let s := live.setFnSt .E 0 1
  let s := (s.setReg .E (R.IOV_Q_CFG 5) (BitVec.ofNat 32 (0x380 + 64 * k))).setReg .E (R.IOV_Q_SQBASE 5 0) 0x10000000
  let s := (s.setReg .E (R.IOV_Q_CQBASE 5 0) 0x10000800).setPot .E (.isle 0) 0x200
  { s with iovQs := [⟨.E, 5, h, tl, ch, ct, 0, []⟩] }
/-- A descriptor at place i of that ring. -/
def desc (s : State) (i : Nat) (d : List Byte) : State := s.setBytes .E (0x10000000 + 32 * i) d
def upd (p e : Nat) (keep only : Bool) : PotUpd := ⟨.E, p, 1, e, keep, only, false, none⟩
def acc (w : World) (m wr : Bool) (part a n : Nat) : MemAcc := ⟨.E, 0, 0, m, w, part, wr, a, n, List.replicate n 5⟩
/-- A manifest of a kind with entries TYPE, OFFSET, LENGTH, each with hash 9,9,... -/
def mani (kind : Nat) (es : List (Nat × Nat × Nat)) : List Byte :=
  leBytes 4 manMAGIC ++ [1,0,0,BitVec.ofNat 8 kind,2,9,BitVec.ofNat 8 es.length,0] ++ List.replicate 52 0 ++
    (es.map (fun e => leBytes 4 e.1 ++ leBytes 4 e.2.1 ++ leBytes 4 e.2.2 ++ [0,0,0,0] ++ List.replicate 48 9)).flatten
def pad (n : Nat) (d : List Byte) : List Byte := d ++ List.replicate (n - d.length) 0
def um (s : State) (k : UpdRt → UpdRt) : State := { s with upd := k s.upd }
/-- The update state `st`, staging an application set with an image of 100 bytes at 0x2000 into bank B of each lane. -/
def ust (st c : Nat) (len : Nat) : State :=
  let m := mani 2 [(0xF0, 0x1000, 48 * c), (5, 0x2000, len)]
  let s := fb (wents live [5]) R.UPD_STATUS F.UPD_STATUS_STATE st
  let s := (s.setLaneBank .E 0 ⟨some [1], some (mani 2 [(5, 0x3000, 100)])⟩).setLaneBank .W 0 ⟨some [1], some (mani 2 [(5, 0x3000, 100)])⟩
  let s := (s.setBytes .E 0x30003000 [1,2,3,4,5,6,7,8,9,10,11,12]).setBytes .W 0x30003000 [1,2,3,4,5,6,7,8,9,10,11,12]
  um s (fun u => { u with st := st, man := m, total := c, stage := [(.E, 1), (.W, 1)] })
def bld (s : State) (ph rem out : Nat) (left : List Byte) : State :=
  um s (fun u => { u with idxOk := true, build := ⟨0, ph, rem, 0, out, left⟩ })
def sigBad (r : Req) : Req := { r with sigOk := false }
def hwBad (r : Req) : Req := { r with hwFault := true }
def chunk (c i : Nat) (d : List Byte) : Req := req 0xC02 (.startup 0) (leBytes 2 c ++ leBytes 2 i ++ d)
def z (n : Nat) : List Byte := List.replicate n 7
/-- The arbiter and the ferry with changes. -/
def am (s : State) (k : Arbiter → Arbiter) : State := { s with arb := k s.arb }
def fm (s : State) (k : FerryRt → FerryRt) : State := { s with ferry := k s.ferry }
def wm (s : State) (k : LaneRt → LaneRt) : State := s.setLane .W (k s.laneW)
def stE (s : State) (v : Nat) : State := s.setFld .E R.FERRY_LANE F.FERRY_LANE_OWN_STATE v
def stW (s : State) (v : Nat) : State := s.setFld .W R.FERRY_LANE F.FERRY_LANE_OWN_STATE v
/-- Lane W in BOOT, its Elder up. -/
def bootW : State := wm (stW live 1) (fun x => { x with bootOk := false })
def fcp (l : Lane) (cyc ep : Nat) (h : Bool) (df : FrameDiff) : FrameCopy := ⟨.F0, l, cyc, ep, 900, h, true, df⟩
def f0 (s : State) (k : DieRt → DieRt) : State := s.setDie .F0 (k s.f0)
def wdw (l : Lane) (applied held : Option FrameCopy) : Window := ⟨20, 900, l == .E, l == .W, applied, held, false⟩
def cmt (m : Nat) (v : Word) : Commit := { block := 8, region := 0, lane := .E, writes := [(R.FCH_DUTY 0 m, v)], num := 3, lsns := [5], carried := true }
def quiet (s : State) (q : Lane) : State := fm (wents s [5]) (fun x => { x with quietStay := some q, quietLsn := some 5 })
/-- An entry with a state, a stream and a disposition. -/
def led (n : Nat) (st : ESt) (stream disp err : Nat) (un : Bool) : LEntry := { entX n with st := st, stream := stream, disp := disp, err := err, unclaimed := un }
def dup (n id crc disp : Nat) : DupRec := { reqId := id, stream := 0, lsn := n, crc := crc, status := 1, disp := disp, acc := 0 }
def dups (s : State) (ds : List DupRec) : State := { s with led := { s.led with dups := ds } }
def lf (s : State) (k : Ledger → Ledger) : State := { s with led := k s.led }
def dl (r : Req) (d : Nat) : Req := { r with flags := 1, deadline := d }
/-- Session 3 is open. -/
def sess (s : State) : State := fb s (R.SCSM_RS_STATUS 3) F.SCSM_RS_STATUS_OPEN 1

/-- The invariant of Safety.lean as a computation. -/
def invB (s : State) : Bool :=
  rfWf s.regs && Memory.wf s.mem && (s.led.entries.map LEntry.lsn).all (fun n => decide (n < s.led.nextLsn)) &&
    decide ((s.led.entries.map LEntry.lsn).Pairwise (· < ·)) &&
    decide (s.outs.length = 64 ∧ s.feeds.length = 6 ∧ s.fcs.length = 256 ∧ s.sels.length = 12 ∧ s.canPorts.length = 16 ∧
      s.canRxE.length = 16 ∧ s.canRxW.length = 16 ∧ s.lins.length = 8 ∧ s.tbs.length = 4 ∧ s.sessions.length = 32)
theorem inv_of {s : State} (h : invB s = true) : s.Inv := by
  simp only [invB, Bool.and_eq_true, List.all_eq_true, decide_eq_true_eq] at h
  obtain ⟨⟨⟨⟨h1, h2⟩, h3⟩, h4⟩, h5, h6, h7, h8, h9, h10, h11, h12, h13, h14⟩ := h
  exact ⟨h1, h2, ⟨h3, h4⟩, ⟨h5, h6, h7, h8, h9, h10, h11, h12, h13, h14⟩⟩
theorem ready_of {c : CmdSpec} {s : State} {r : Req}
    (h : (invB s && r.src.wf && passes c s r && (!c.accepted || starts c s r)) = true) : Ready c s r := by
  simp only [Bool.and_eq_true, Bool.or_eq_true, Bool.not_eq_true'] at h
  obtain ⟨⟨⟨h1, h2⟩, h3⟩, h4⟩ := h
  refine ⟨inv_of h1, h2, h3, fun hc => ?_⟩
  rcases h4 with h4 | h4
  · rw [hc] at h4; exact absurd h4 (by decide)
  · exact h4
/-- As `ready_of`, with the check of signatures shown apart (its facts may name the module's unique identifier, which is free). -/
theorem ready_sig {c : CmdSpec} {s : State} {r : Req}
    (h : (invB s && r.src.wf && passes { c with sigOk := fun _ _ => true } s r && (!c.accepted || starts c s r)) = true)
    (hs : c.sigOk (taken s r).1 (taken s r).2 = true) : Ready c s r := by
  apply ready_of
  simp only [Bool.and_eq_true] at h ⊢
  obtain ⟨⟨⟨h1, h2⟩, h3⟩, h4⟩ := h
  refine ⟨⟨⟨h1, h2⟩, ?_⟩, h4⟩
  have hB : checksB c (taken s r).1 (taken s r).2 = checksB { c with sigOk := fun _ _ => true } (taken s r).1 (taken s r).2 := by
    simp only [checksB, firstFail, hs]
  unfold passes at h3 ⊢
  dsimp only at h3 ⊢
  rw [hB]
  exact h3
/-- A manifest that names no module passes step 1 of R561. -/
theorem man_zero {s : State} {r : Req} {l : Lane} {m : List Byte} {ks : List Nat} (h0 : r.sigOk = true)
    (h : (fieldAt m 0 4 == manMAGIC && fieldAt m 4 2 == 1 && ks.contains (manKind m) && allZero (slice m 12 16) &&
      decide (manKeyIdx m ≤ 3) && (s.kpLive l (manKeyIdx m) || s.testPair l) && decide (manSvnIdx m ≤ 7) &&
      decide (manCount m ≤ 16) && fieldAt m 11 1 == 0) = true) : (r.sigOk && s.manStep1 l m ks false) = true := by
  simp only [Bool.and_eq_true] at h
  obtain ⟨⟨⟨⟨⟨⟨⟨⟨h1, h2⟩, h3⟩, h4⟩, h5⟩, h6⟩, h7⟩, h8⟩, h9⟩ := h
  simp only [State.manStep1, h0, h1, h2, h3, h4, h5, h6, h7, h8, h9, Bool.or_true, Bool.not_false, Bool.and_self]
/-- A token that names this module passes R561. -/
theorem tok_ok {s : State} {r : Req} (h0 : r.sigOk = true) (hu : slice r.payload 12 16 = (List.range 16).map Config.uid)
    (h : (let l := s.holderOr r.lane
      let m := r.payload
      fieldAt m 0 4 == manMAGIC && fieldAt m 4 2 == 1 && [4].contains (manKind m) &&
      decide (manKeyIdx m ≤ 3) && (s.kpLive l (manKeyIdx m) || s.testPair l) && decide (manSvnIdx m ≤ 7) &&
      decide (manCount m ≤ 16) && fieldAt m 11 1 == 0 && manCount m == 0 && s.nonceOk l (s.streamOf r.lane r.src) (slice m 32 8)) = true) :
    tokenOk 4 s r = true := by
  simp only [Bool.and_eq_true] at h
  obtain ⟨⟨⟨⟨⟨⟨⟨⟨⟨h1, h2⟩, h3⟩, h5⟩, h6⟩, h7⟩, h8⟩, h9⟩, h10⟩, h11⟩ := h
  simp only [tokenOk, State.manStep1, h0, hu, h1, h2, h3, h5, h6, h7, h8, h9, h10, h11, beq_self_eq_true, Bool.true_or,
    Bool.and_self]
theorem upd_sig {s : State} {r : Req} (h0 : r.sigOk = true)
    (h : (let l := s.holderOr r.lane
      let m := r.payload
      fieldAt m 0 4 == manMAGIC && fieldAt m 4 2 == 1 && [1, 2].contains (manKind m) && allZero (slice m 12 16) &&
      decide (manKeyIdx m ≤ 3) && (s.kpLive l (manKeyIdx m) || s.testPair l) && decide (manSvnIdx m ≤ 7) &&
      decide (manCount m ≤ 16) && fieldAt m 11 1 == 0) = true) : specUpdBegin.sigOk s r = true :=
  man_zero h0 h

/-! ### Ill-formed commands, one for each check of WellFormed.lean -/

/-- A request that is well formed, to spoil a field at a time. -/
def rq : Req := req 0 (.func 63) [1]
theorem test_wf_request : (Instr.identify rq).wf = true ∧ [{ rq with src := .func 64 }, { rq with src := .session 32 },
    { rq with src := .queue 256 }, { rq with slot := 8 }, { rq with flags := 65536 }, { rq with reqId := 2 ^ 32 },
    { rq with length := 65536 }, { rq with target := 65536 }, { rq with deadline := 2 ^ 32 }, { rq with inAddr := 2 ^ 64 },
    { rq with outAddr := 2 ^ 64 }, { rq with outCap := 65536 }].all (fun r => !(Instr.identify r).wf) = true := by decide
theorem test_wf_payload : bytesFit [1, 2] 1 = false ∧ bytesFit [1, 2] 2 = true := by decide
theorem test_wf_opcodes : [Instr.unassignedOpcode 65536 rq, .ledgerAccept 65536 rq, .unassignedOpcode 5 { rq with slot := 8 },
    .ledgerAccept 5 { rq with slot := 8 }].all (fun c => !c.wf) = true := by decide
theorem test_wf_registers : [Instr.regWrite .E (.func 64) 0 0, .regWrite .E .elder (2 ^ 32) 0, .commitWrite .E (.func 64) 0,
    .commitWrite .E .elder (2 ^ 32), .commitApply .E 24, .rstcReqCore .E (.func 64) 0, .potUpdateGo .E (.func 64) 0,
    .blkrstWrite .E (.func 64) 0, .forceCdWrite .E .elder (2 ^ 32)].all (fun c => !c.wf) = true := by decide
theorem test_wf_resets : [Instr.blockResetRelease .E 12, .commonsRestartReport 3, .wdtKick .E 6 0 0, .wdtKick .E 0 65536 0,
    .wdtKick .E 0 0 65536, .watchdogExpiry .E 6, .powerOn 0 false, .powerOn 7 false, .lanePor .E false 8, .clkFail .E 8,
    .elderReleased .E 256].all (fun c => !c.wf) = true := by decide
theorem test_wf_mailboxes : [Instr.doorbell .E .elder 65 0, .doorbell .E .elder 0 8, .doorbell .E (.func 64) 0 0,
    .reqSlotWrite .E .elder 65 0 0 0, .reqSlotWrite .E .elder 0 8 0 0, .reqSlotWrite .E .elder 0 0 64 0, .respAck .E .elder 65 0,
    .respAck .E .elder 0 256, .cplHeadWrite .E .elder 65 0, .cplHeadWrite .E .elder 0 64, .iovSqDoorbell .E .elder 64 0 0,
    .iovSqDoorbell .E .elder 0 16 0, .iovCqHeadWrite .E .elder 64 0 0].all (fun c => !c.wf) = true := by decide
theorem test_wf_block_registers : [Instr.seqSwStart .E .elder 65536, .canCtlRecover .E .elder 16, .rxDone .E .elder 16,
    .linCtlWake .E .elder 8, .servoSample .E .elder 4 0, .timeSetGo .E .elder 4 0, .timeNowRead .E .elder 4,
    .fenceAckWrite .E .elder 64, .cwErrHeadWrite .E .elder 64].all (fun c => !c.wf) = true := by decide
theorem test_wf_causeway : [Instr.cwAccessRead .E .elder (2 ^ 40) 4, .cwAccessRead .E .elder 0 3, .cwTimeout .E 64 0,
    .cwTimeout .E 0 65536, .cwStallTimeout 64 0, .cwStallTimeout 0 256, .prefetchExpiry .E 64, .nodeLost 256].all
    (fun c => !c.wf) = true := by decide
theorem test_wf_lanes : [Instr.eccError .E 8 false, .lockstepMismatch .E 5 0, .lockstepMismatch .E 0 (2 ^ 24), .lockstepBreak .E 5 false,
    .junctionThreshold 4 0, .thermalShutdown 4 0, .cycleBoundary (2 ^ 32), .frameSeal true (2 ^ 19), .laneLostNotice .E (2 ^ 32) 0,
    .laneLostNotice .E 0 (2 ^ 32), .watermark 65536 0, .watermark 0 (2 ^ 32), .leaseRequest .E (2 ^ 32), .leaseRenew .E 65536].all
    (fun c => !c.wf) = true := by decide
theorem test_wf_ledger : [Instr.entryStart (2 ^ 48), .completionReport (2 ^ 48), .entryDisposed (2 ^ 48) 1 0, .entryDisposed 0 5 0,
    .entryDisposed 0 1 65536, .ledgerRebuild false (2 ^ 64)].all (fun c => !c.wf) = true := by decide
theorem test_wf_sessions : [Instr.sessionClose 32, .sessionIdleTimeout 32, .reassemblyTimeout 32 0,
    .reassemblyTimeout 0 (2 ^ 32)].all (fun c => !c.wf) = true := by decide
theorem test_wf_outputs : [Instr.conductionEstimate 2, .ilimReached 2 0, .ilimReached 0 32, .softwareTrip 0 32, .clampEventEnd 2 0 0,
    .clampEventEnd 0 32 0, .clampOver 0 0 (2 ^ 32), .scheduledSwitch .F0 112, .lateSwitch .F0 112, .restoreSlot 0, .restoreSlot 7,
    .fcOverload 3 0, .fcOverload 0 112, .wettingPulse 3 0 0 [], .dissipationEstimate 3, .fieldWake 2 0, .fieldWake 0 112].all
    (fun c => !c.wf) = true := by decide
theorem test_wf_engines : [Instr.tideEventFire .E 1024 0, .tideEventFire .E 0 2047, .extPulse .E 256 0, .extPulse .E 0 (2 ^ 32),
    .pwmPeriodBoundary .E 12, .selectorSwitch 12, .safePatternTimeout 12, .nodeExecute .E 16].all (fun c => !c.wf) = true := by decide
theorem test_wf_ports : [Instr.busOffRecovered 16, .canTxDone 16 0 0, .canTxDone 0 (2 ^ 64) 0, .canTxDone 0 0 257,
    .canTxError 0 (.error 8) 0 0, .canTxError 0 .arbitration 257 0, .canTxError 0 .arbitration 0 256, .canWake 16 .dominant,
    .canWake 0 (.frame 2048 false 0 []), .canWake 0 (.frame 0 false 16 []), .linSlot 8, .linResponse 8 0 ⟨0, [], 0, true⟩,
    .linResponse 0 64 ⟨0, [], 0, true⟩, .ethFrameEgress 16 0, .ethFrameEgress 0 (2 ^ 32), .gclEntry 16, .frerResetTimeout 128,
    .servoTimer 4, .timerMark .E (2 ^ 64), .pduSend .E 4096, .minGapExpiry .E 4096].all (fun c => !c.wf) = true := by decide
theorem test_wf_can_frame :
    let f : CanFrame := ⟨5, false, false, 0, false, false, false, 0, 0, 0, 2, [1, 2], 1000⟩
    f.wf = true ∧ [{ f with fmt := 3 }, { f with id := 2048 }, { f with dlc := 2048 }, { f with data := List.replicate 9 0 },
      { f with af := 2 ^ 32 }, { f with sdt := 256 }, { f with vcid := 256 }].all (fun x => !x.wf) = true := by decide
theorem test_wf_eth_frame :
    let f : EthFrame := ⟨5, 6, 1, 3, 0x800, none, none, 1522, [1, 2], none⟩
    f.wf = true ∧ [{ f with dst := 2 ^ 48 }, { f with src := 2 ^ 48 }, { f with vid := 4096 }, { f with pcp := 8 },
      { f with etype := 65536 }].all (fun x => !x.wf) = true := by decide
theorem test_wf_lin_end : [(⟨8, [], 0, true⟩ : LinEnd), ⟨0, List.replicate 9 0, 0, true⟩, ⟨0, [], 65536, true⟩].all
    (fun x => !x.wf) = true := by decide
theorem test_wf_others : [Instr.duskExpiry 8, .hopTimeout 8, .descriptorTake .E 256, .quiesceTimeout .E 64, .tamperEvent none 8,
    .ownerReleaseDone .E 256, .coreWfiRetention .E 8].all (fun c => !c.wf) = true := by decide

/-! ### Witnesses of the hypotheses, by statement and clause -/

theorem witness_TimePasses_0 : ∃ (s : State), s.Inv ∧ s.pending = [] :=
  ⟨live, inv_of (by decide +kernel), by decide +kernel⟩
theorem witness_TimePasses_1 : ∃ (s : State) (l : Lane), s.Inv ∧ s.pending = [] ∧ (∀ p < 8, ∀ e ∈ (s.lin p).pulseEnd, s.now + 1 < e) :=
  ⟨{ busy with now := 99 }, .E, inv_of (by decide +kernel), by decide +kernel, by decide +kernel⟩
theorem witness_TimePasses_2 : ∃ (s : State) (n : Nat), s.Inv ∧ s.pending = [] ∧ n < 4 :=
  ⟨(tbr 2 1 0).setSh (R.TIME_TB_FREQ 2) 0xFFFFF000, 2, inv_of (by decide +kernel), by decide +kernel, by decide +kernel⟩
theorem witness_DeviceIdentity_0 : ∃ (s : State) (r : Req), Ready specIdentify s r :=
  ⟨live, req 0 (.func 0) [], ready_of (by decide +kernel)⟩
theorem witness_ChecksAndAcceptance_0 : ∃ (s : State) (r : Req) (c : CmdSpec) (k : Nat) (st : Nat), s.Inv ∧ r.src.wf = true ∧ s.deaf = false ∧ r.isStartup = false ∧ r.isQueue = false ∧ waits c s r = false ∧ (∀ (u : State) (q : Req), c.world u q = none) ∧ (∀ (u : State) (q : Req), c.onRefuse u q = fun x ↦ u) ∧ k ≠ 3 ∧ (∀ x ∈ List.take k [(decide ((taken s r).2.flags < 16) && !((taken s r).2.isSession && ((taken s r).2.bufPayload || (taken s r).2.bufResponse)), 259), (lengthOk c (taken s r).2, 258), (permitOk (taken s r).1 c.opcode (taken s r).2 && c.perm (taken s r).1 (taken s r).2 && (c.world (taken s r).1 (taken s r).2).isNone && buffersOwned (taken s r).1 (taken s r).2, 261), (!(c.accepted && ((taken s r).1.dupOf (taken s r).2).isSome), 515), (c.lifecycle (taken s r).1 (taken s r).2, 1027), (!expertHeld (taken s r).1 (blockOf c.opcode), 262), (!((taken s r).2.hasDeadline && (taken s r).2.deadline == 0) && buffersAligned (taken s r).2 && (c.hasTarget || (taken s r).2.target == 0) && (c.urgentOk || !(taken s r).2.urgent) && (!c.lenPar || c.lenOk (taken s r).2) && c.param (taken s r).1 (taken s r).2, 259), (c.laneOk (taken s r).1 (taken s r).2, 769), (c.leaseOk (taken s r).1 (taken s r).2, 770), (c.stateOk (taken s r).1 (taken s r).2, 260), (c.reachOk (taken s r).1 (taken s r).2, 516), (c.sigOk (taken s r).1 (taken s r).2, 1025), (c.svnOk (taken s r).1 (taken s r).2, 1026), (((taken s r).1.servedBy (taken s r).2.lane).isSome && c.busyOk (taken s r).1 (taken s r).2, 1281), (!c.accepted || decide ((taken s r).1.quotaUsed ((taken s r).1.quotaOf (taken s r).2.lane (taken s r).2.src) < (taken s r).1.fld (taken s r).2.lane (R.LEDG_QUOTA ((taken s r).1.quotaOf (taken s r).2.lane (taken s r).2.src)) F.LEDG_QUOTA_QUOTA), 514), (!c.accepted || ((taken s r).2.src.isChief || decide ((taken s r).1.fld (taken s r).2.lane R.LEDG_CFG F.LEDG_CFG_RESERVE + (taken s r).1.inFlight < 32768)) && decide ((taken s r).1.inFlight < 32768) && decide ((taken s r).1.liveDups.length < 65536), 513)], x.1 = true) ∧ [(decide ((taken s r).2.flags < 16) && !((taken s r).2.isSession && ((taken s r).2.bufPayload || (taken s r).2.bufResponse)), 259), (lengthOk c (taken s r).2, 258), (permitOk (taken s r).1 c.opcode (taken s r).2 && c.perm (taken s r).1 (taken s r).2 && (c.world (taken s r).1 (taken s r).2).isNone && buffersOwned (taken s r).1 (taken s r).2, 261), (!(c.accepted && ((taken s r).1.dupOf (taken s r).2).isSome), 515), (c.lifecycle (taken s r).1 (taken s r).2, 1027), (!expertHeld (taken s r).1 (blockOf c.opcode), 262), (!((taken s r).2.hasDeadline && (taken s r).2.deadline == 0) && buffersAligned (taken s r).2 && (c.hasTarget || (taken s r).2.target == 0) && (c.urgentOk || !(taken s r).2.urgent) && (!c.lenPar || c.lenOk (taken s r).2) && c.param (taken s r).1 (taken s r).2, 259), (c.laneOk (taken s r).1 (taken s r).2, 769), (c.leaseOk (taken s r).1 (taken s r).2, 770), (c.stateOk (taken s r).1 (taken s r).2, 260), (c.reachOk (taken s r).1 (taken s r).2, 516), (c.sigOk (taken s r).1 (taken s r).2, 1025), (c.svnOk (taken s r).1 (taken s r).2, 1026), (((taken s r).1.servedBy (taken s r).2.lane).isSome && c.busyOk (taken s r).1 (taken s r).2, 1281), (!c.accepted || decide ((taken s r).1.quotaUsed ((taken s r).1.quotaOf (taken s r).2.lane (taken s r).2.src) < (taken s r).1.fld (taken s r).2.lane (R.LEDG_QUOTA ((taken s r).1.quotaOf (taken s r).2.lane (taken s r).2.src)) F.LEDG_QUOTA_QUOTA), 514), (!c.accepted || ((taken s r).2.src.isChief || decide ((taken s r).1.fld (taken s r).2.lane R.LEDG_CFG F.LEDG_CFG_RESERVE + (taken s r).1.inFlight < 32768)) && decide ((taken s r).1.inFlight < 32768) && decide ((taken s r).1.liveDups.length < 65536), 513)][k]? = some (false, st) :=
  ⟨live, { req 0xF12 (.func 0) [160,0,0x20,0] with flags := 16 }, specLedgerQuota, 0, 0x0103, inv_of (by decide +kernel), by decide +kernel, by decide +kernel, by decide +kernel, by decide +kernel, by decide +kernel, fun _ _ => rfl, fun _ _ => rfl, by decide +kernel, by decide +kernel, by decide +kernel⟩
theorem witness_ChecksAndAcceptance_1 : ∃ (s : State) (r : Req) (c : CmdSpec), s.Inv ∧ r.src.wf = true ∧ s.deaf = false ∧ r.isStartup = false ∧ r.isQueue = false ∧ waits c s r = false ∧ c.accepted = false ∧ (∀ x ∈ [(decide ((taken s r).2.flags < 16) && !((taken s r).2.isSession && ((taken s r).2.bufPayload || (taken s r).2.bufResponse)), 259), (lengthOk c (taken s r).2, 258), (permitOk (taken s r).1 c.opcode (taken s r).2 && c.perm (taken s r).1 (taken s r).2 && (c.world (taken s r).1 (taken s r).2).isNone && buffersOwned (taken s r).1 (taken s r).2, 261), (!(c.accepted && ((taken s r).1.dupOf (taken s r).2).isSome), 515), (c.lifecycle (taken s r).1 (taken s r).2, 1027), (!expertHeld (taken s r).1 (blockOf c.opcode), 262), (!((taken s r).2.hasDeadline && (taken s r).2.deadline == 0) && buffersAligned (taken s r).2 && (c.hasTarget || (taken s r).2.target == 0) && (c.urgentOk || !(taken s r).2.urgent) && (!c.lenPar || c.lenOk (taken s r).2) && c.param (taken s r).1 (taken s r).2, 259), (c.laneOk (taken s r).1 (taken s r).2, 769), (c.leaseOk (taken s r).1 (taken s r).2, 770), (c.stateOk (taken s r).1 (taken s r).2, 260), (c.reachOk (taken s r).1 (taken s r).2, 516), (c.sigOk (taken s r).1 (taken s r).2, 1025), (c.svnOk (taken s r).1 (taken s r).2, 1026), (((taken s r).1.servedBy (taken s r).2.lane).isSome && c.busyOk (taken s r).1 (taken s r).2, 1281), (!c.accepted || decide ((taken s r).1.quotaUsed ((taken s r).1.quotaOf (taken s r).2.lane (taken s r).2.src) < (taken s r).1.fld (taken s r).2.lane (R.LEDG_QUOTA ((taken s r).1.quotaOf (taken s r).2.lane (taken s r).2.src)) F.LEDG_QUOTA_QUOTA), 514), (!c.accepted || ((taken s r).2.src.isChief || decide ((taken s r).1.fld (taken s r).2.lane R.LEDG_CFG F.LEDG_CFG_RESERVE + (taken s r).1.inFlight < 32768)) && decide ((taken s r).1.inFlight < 32768) && decide ((taken s r).1.liveDups.length < 65536), 513)], x.1 = true) ∧ r.hwFault = true :=
  ⟨live, { req 0xF13 (.func 0) ([1,0] ++ leBytes 2 0x8000 ++ leBytes 8 5) with hwFault := true }, specLedgerQuery, inv_of (by decide +kernel), by decide +kernel, by decide +kernel, by decide +kernel, by decide +kernel, by decide +kernel, by decide +kernel, by decide +kernel, by decide +kernel⟩
theorem witness_ChecksAndAcceptance_2 : ∃ (s : State) (r : Req) (c : CmdSpec), s.Inv ∧ r.src.wf = true ∧ c.accepted = true ∧ passes c s r = true ∧ (∀ (u : State) (q : Req), c.before u q = u) ∧ s.lowerBegun (s.streamOf r.lane r.src) s.led.nextLsn = false :=
  ⟨ents live [led 5 .accepted 0 0 0 false], dl (req 0xF12 (.func 0) [160,0,0x20,0]) 50, specLedgerQuota, inv_of (by decide +kernel), by decide +kernel, by decide +kernel, by decide +kernel, fun _ _ => rfl, by decide +kernel⟩
theorem witness_PowerCommands_0 : ∃ (s : State) (r : Req), Ready specPcSet s r :=
  ⟨((live.setShadow .E (R.PCH_CFG 0 3) 1).setShadow .E (R.PCH_CFG 1 23) 1), (req 0x100 (.func 0) [8,0,0,0,0,0x80, 2,0, 0,0,0,0, 0,4,0,0]), ready_of (by decide +kernel)⟩
theorem witness_PowerCommands_1 : ∃ (s : State) (r : Req), Ready specPcConfig s r :=
  ⟨live, (req 0x101 (.func 0) [47,0,0,0, 0x10,0x30,0,0, 0,0,4,9, 0x3C,0,0,0, 0x10,0x27,0,0, 0,0,0,0, 0,4,0,0]), ready_of (by decide +kernel)⟩
theorem witness_PowerCommands_2 : ∃ (s : State) (r : Req), Ready specPcProfile s r :=
  ⟨live, (req 0x102 (.func 0) [31,0,0,0, 0,16,0,0, 0,40,0,0, 0x3F,0x1F,0xCF,7, 0xC0,3,0x40,1]), ready_of (by decide +kernel)⟩
theorem witness_PowerCommands_3 : ∃ (s : State) (r : Req), Ready specPcDieConfig s r :=
  ⟨live, (req 0x103 (.func 0) [3,0,0xD0,7]), ready_of (by decide +kernel)⟩
theorem witness_PowerCommands_4 : ∃ (s : State) (r : Req), Ready specPcClear s r :=
  ⟨live, (req 0x104 (.func 0) [1,0,0,0,0,0x80, 1,0]), ready_of (by decide +kernel)⟩
theorem witness_PowerCommands_5 : ∃ (s : State) (r : Req), Ready specGdSet s r :=
  ⟨live, (req 0x200 (.func 0) [1,0x80,1,1, 9,0,0,0]), ready_of (by decide +kernel)⟩
theorem witness_PowerCommands_6 : ∃ (s : State) (r : Req), Ready specGdConfig s r :=
  ⟨live, (req 0x201 (.func 0) [15,0,0,0, 0x20,3,0,0, 0x64,0,0,0, 0xC0,9,4,0, 0,0,0,0, 0x0A,9,0xF4,1]), ready_of (by decide +kernel)⟩
theorem witness_PowerCommands_7 : ∃ (s : State) (r : Req), Ready specGdClear s r :=
  ⟨live, (req 0x202 (.func 0) [1,0x80,0,0]), ready_of (by decide +kernel)⟩
theorem witness_PowerCommands_8 : ∃ (s : State) (r : Req), Ready specFeedConfig s r :=
  ⟨live, (req 0x205 (.func 0) [6,0,0xF4,1,5,0,0,0]), ready_of (by decide +kernel)⟩
theorem witness_PowerCommands_9 : ∃ (s : State) (r : Req), Ready specPcSafeState s r :=
  ⟨live, (req 0x107 (.func 0) [1,0,0,0,0,0x80, 2,0]), ready_of (by decide +kernel)⟩
theorem witness_PowerCommands_10 : ∃ (s : State) (r : Req), Ready specGdSafeState s r :=
  ⟨live, (req 0x204 (.func 0) [1,0x80,1,0]), ready_of (by decide +kernel)⟩
theorem witness_PowerCommands_11 : ∃ (s : State) (r : Req), Ready specPcStatus s r :=
  ⟨live, (req 0x105 (.func 0) [41,7]), ready_of (by decide +kernel)⟩
theorem witness_PowerCommands_12 : ∃ (s : State) (r : Req), Ready specPcDieStatus s r :=
  ⟨live, (req 0x106 (.func 0) [2]), ready_of (by decide +kernel)⟩
theorem witness_PowerCommands_13 : ∃ (s : State) (r : Req), Ready specGdStatus s r :=
  ⟨live, (req 0x203 (.func 0) [9,7]), ready_of (by decide +kernel)⟩
theorem witness_PowerCommands_14 : ∃ (s : State) (r : Req), Ready specFeedStatus s r :=
  ⟨live, (req 0x206 (.func 0) []), ready_of (by decide +kernel)⟩
theorem witness_OutputProtection_0 : ∃ (s : State) (d : Nat) (x : Nat), s.Inv ∧ s.livePc d x = true ∧ conducting (s.oSt d x) = true :=
  ⟨(live.setOSt 1 23 1), 1, 23, inv_of (by decide +kernel), by decide +kernel, by decide +kernel⟩
theorem witness_OutputProtection_1 : ∃ (s : State) (d : Nat) (x : Nat), s.Inv ∧ s.liveGd d x = true ∧ conducting (s.oSt d x) = true :=
  ⟨(live.setOSt 1 31 7), 1, 31, inv_of (by decide +kernel), by decide +kernel, by decide +kernel⟩
theorem witness_OutputProtection_2 : ∃ (s : State) (d : Nat) (x : Nat), s.Inv ∧ s.liveOut d x = true ∧ conducting (s.oSt d x) = true ∧ s.cTripEn d x = true ∧ s.cFilt d x + 1 ≤ (s.out d x).ovr :=
  ⟨(((live.setOSt 0 5 2).setRetryLeft 0 5 1).setShBit (R.PCH_TRIP 0 5) F.PCH_TRIP_TRIP_EN true).modOut 0 5 (fun o => { o with ovr := 5 }), 0, 5, inv_of (by decide +kernel), by decide +kernel, by decide +kernel, by decide +kernel, by decide +kernel⟩
theorem witness_OutputProtection_3 : ∃ (s : State) (d : Nat) (x : Nat), (s.cTripEn d x = false ∨ (s.out d x).ovr ≤ s.cFilt d x) :=
  ⟨live, 0, 5, by decide +kernel⟩
theorem witness_OutputProtection_4 : ∃ (s : State) (d : Nat) (x : Nat) (mean : ℤ) (vsrc : ℤ) (vgs : Nat), s.Inv ∧ s.liveOut d x = true :=
  ⟨(live.setOSt 0 24 1), 0, 24, 40000, 5, 6999, inv_of (by decide +kernel), by decide +kernel⟩
theorem witness_OutputProtection_5 : ∃ (s : State) (d : Nat) (x : Nat) (tj : ℤ) (caseT : ℤ), s.Inv ∧ s.livePc d x = true :=
  ⟨(live.setOSt 0 3 1), 0, 3, 2800, 400, inv_of (by decide +kernel), by decide +kernel⟩
theorem witness_OutputProtection_6 : ∃ (s : State) (d : Nat) (x : Nat), s.Inv ∧ s.liveOut d x = true :=
  ⟨((live.setOSt 0 3 1).modOut 0 3 (fun o => { o with th1 := ⟨80, 1⟩, means := [400, 400] })), 0, 3, inv_of (by decide +kernel), by decide +kernel⟩
theorem witness_OutputTimersAndDiagnostics_0 : ∃ (s : State) (d : Nat) (x : Nat) (energy : Nat), s.Inv ∧ s.livePc d x = true :=
  ⟨((live.setOSt 0 3 1).modOut 0 3 (fun o => { o with clamping := true, clampHist := [(0, 6000)] })), 0, 3, 70000, inv_of (by decide +kernel), by decide +kernel⟩
theorem witness_OutputTimersAndDiagnostics_1 : ∃ (s : State) (d : Nat) (x : Nat) (energy : Nat), s.Inv ∧ s.livePc d x = true ∧ (s.out d x).clamping = true ∧ (if (s.out d x).clampTj ≤ 1680 then (if x < 8 then 5000 else 1000) < ↑energy else (if x < 8 then 5000 else 1000) * (2800 - (s.out d x).clampTj) < ↑energy * 1120) :=
  ⟨((live.setOSt 0 3 0).modOut 0 3 (fun o => { o with clamping := true, clampTj := 2240 })), 0, 3, 2501, inv_of (by decide +kernel), by decide +kernel, by decide +kernel, by decide +kernel⟩
theorem witness_OutputTimersAndDiagnostics_2 : ∃ (s : State) (d : Nat) (x : Nat), s.Inv ∧ s.livePc d x = true ∧ (s.out d x).clamping = true ∧ s.shBit (R.PCH_CFG d x) F.PCH_CFG_CLAMP = true :=
  ⟨(((live.setOSt 0 3 0).modOut 0 3 (fun o => { o with clamping := true })).setShBit (R.PCH_CFG 0 3) F.PCH_CFG_CLAMP true), 0, 3, inv_of (by decide +kernel), by decide +kernel, by decide +kernel, by decide +kernel⟩
theorem witness_OutputTimersAndDiagnostics_3 : ∃ (s : State) (d : Nat) (x : Nat), s.Inv ∧ s.liveOut d x = true ∧ s.oSt d x = 3 :=
  ⟨((live.setOSt 0 3 3).setRetryLeft 0 3 2), 0, 3, inv_of (by decide +kernel), by decide +kernel, by decide +kernel⟩
theorem witness_OutputTimersAndDiagnostics_4 : ∃ (s : State) (d : Nat) (x : Nat), s.Inv ∧ s.liveOut d x = true ∧ (s.oSt d x = 1 ∨ s.oSt d x = 2) :=
  ⟨(live.setOSt 1 31 1), 1, 31, inv_of (by decide +kernel), by decide +kernel, by decide +kernel⟩
theorem witness_OutputTimersAndDiagnostics_5 : ∃ (s : State) (d : Nat) (x : Nat), s.Inv ∧ s.liveOut d x = true :=
  ⟨live, 1, 31, inv_of (by decide +kernel), by decide +kernel⟩
theorem witness_OutputTimersAndDiagnostics_6 : ∃ (s : State) (d : Nat) (x : Nat), s.Inv ∧ s.livePc d x = true ∧ s.oSt d x = 2 :=
  ⟨((live.setOSt 1 23 2).setShFld (R.PCH_DUTY 1 23) F.PCH_DUTY_DUTY 512), 1, 23, inv_of (by decide +kernel), by decide +kernel, by decide +kernel⟩
theorem witness_OutputTimersAndDiagnostics_7 : ∃ (s : State) (d : Nat) (x : Nat) (vsrc : ℤ) (drain : ℤ), s.Inv ∧ s.liveGd d x = true ∧ s.oSt d x = 7 ∧ (vsrc - drain).natAbs ≤ 150 :=
  ⟨(live.setOSt 1 31 7), 1, 31, 4850, 5000, inv_of (by decide +kernel), by decide +kernel, by decide +kernel, by decide +kernel⟩
theorem witness_OutputTimersAndDiagnostics_8 : ∃ (s : State) (d : Nat) (x : Nat), s.Inv ∧ s.liveGd d x = true ∧ s.oSt d x = 7 :=
  ⟨(live.setOSt 1 31 7), 1, 31, inv_of (by decide +kernel), by decide +kernel, by decide +kernel⟩
theorem witness_OutputTimersAndDiagnostics_9 : ∃ (s : State) (d : Nat) (x : Nat), s.Inv ∧ s.livePc d x = true ∧ s.oFlag d x OFlag.diagSusp = false ∧ s.oSt d x = 1 ∧ (s.out d x).blank = false ∧ s.shFld (R.PCH_THRM d x) F.PCH_THRM_UC ≠ 0 ∧ sext 16 (s.shFld (R.PCH_CUR d x) F.PCH_CUR_I_LAST) < ↑(s.shFld (R.PCH_THRM d x) F.PCH_THRM_UC) :=
  ⟨((live.setOSt 1 23 1).setShFld (R.PCH_THRM 1 23) F.PCH_THRM_UC 1), 1, 23, inv_of (by decide +kernel), by decide +kernel, by decide +kernel, by decide +kernel, by decide +kernel, by decide +kernel, by decide +kernel⟩
theorem witness_OutputTimersAndDiagnostics_10 : ∃ (s : State) (d : Nat) (x : Nat) (present : Bool), s.Inv ∧ s.livePc d x = true ∧ s.oFlag d x OFlag.diagSusp = false :=
  ⟨(live.setShBit (R.PCH_CFG 0 0) F.PCH_CFG_OL_EN true), 0, 0, true, inv_of (by decide +kernel), by decide +kernel, by decide +kernel⟩
theorem witness_OutputTimersAndDiagnostics_11 : ∃ (s : State) (d : Nat) (x : Nat) (present : Bool), s.Inv ∧ s.livePc d x = true ∧ s.oFlag d x OFlag.diagSusp = false :=
  ⟨live, 0, 0, true, inv_of (by decide +kernel), by decide +kernel, by decide +kernel⟩
theorem witness_OutputTimersAndDiagnostics_12 : ∃ (s : State) (d : Nat) (x : Nat) (present : Bool), s.Inv ∧ s.liveGd d x = true ∧ s.oFlag d x OFlag.diagSusp = false :=
  ⟨live, 0, 24, true, inv_of (by decide +kernel), by decide +kernel, by decide +kernel⟩
theorem witness_OutputTimersAndDiagnostics_13 : ∃ (s : State) (d : Nat) (x : Nat) (present : Bool), s.oFlag d x OFlag.diagSusp = true :=
  ⟨(live.setO 0 0 .diagSusp true), 0, 0, true, by decide +kernel⟩
theorem witness_OutputTimersAndDiagnostics_14 : ∃ (s : State) (d : Nat), s.Inv ∧ d < 2 ∧ (s.die (powerDie d)).up = true :=
  ⟨(live.setOSt 1 23 1), 1, inv_of (by decide +kernel), by decide +kernel, by decide +kernel⟩
theorem witness_FeedSagCutAndRestore_0 : ∃ (s : State) (f : Nat) (v : ℤ), s.Inv ∧ s.liveFeed f = true ∧ v < feedLevel 90 180 360 (s.feedClass f) :=
  ⟨live, 6, 4499, inv_of (by decide +kernel), by decide +kernel, by decide +kernel⟩
theorem witness_FeedSagCutAndRestore_1 : ∃ (s : State) (f : Nat) (v : ℤ), s.Inv ∧ s.liveFeed f = true ∧ feedLevel 95 190 380 (s.feedClass f) < v :=
  ⟨live, 1, 4751, inv_of (by decide +kernel), by decide +kernel, by decide +kernel⟩
theorem witness_FeedSagCutAndRestore_2 : ∃ (s : State) (f : Nat), s.Inv ∧ s.liveFeed f = true ∧ s.feedBit f F.SUPC_FEED_STAT_BELOW_WARN = false :=
  ⟨live, 3, inv_of (by decide +kernel), by decide +kernel, by decide +kernel⟩
theorem witness_FeedSagCutAndRestore_3 : ∃ (s : State) (f : Nat), s.feedBit f F.SUPC_FEED_STAT_BELOW_WARN = true :=
  ⟨(live.setFeedBit 3 F.SUPC_FEED_STAT_BELOW_WARN true), 3, by decide +kernel⟩
theorem witness_FeedSagCutAndRestore_4 : ∃ (s : State) (f : Nat) (v : ℤ), s.Inv ∧ s.liveFeed f = true ∧ v < feedLevel 30 60 180 (s.feedClass f) ∧ s.feedBit f F.SUPC_FEED_STAT_HOLDING = false ∧ s.feedBit f F.SUPC_FEED_STAT_CUT = false :=
  ⟨live, 5, 1499, inv_of (by decide +kernel), by decide +kernel, by decide +kernel, by decide +kernel, by decide +kernel⟩
theorem witness_FeedSagCutAndRestore_5 : ∃ (s : State) (f : Nat) (v : ℤ), s.Inv ∧ s.liveFeed f = true ∧ feedLevel 30 60 180 (s.feedClass f) < v ∧ s.feedBit f F.SUPC_FEED_STAT_HOLDING = true :=
  ⟨((live.setFeedBit 5 F.SUPC_FEED_STAT_HOLDING true).modOut 1 8 (fun o => { o with target := 2 })), 5, 1501, inv_of (by decide +kernel), by decide +kernel, by decide +kernel, by decide +kernel⟩
theorem witness_FeedSagCutAndRestore_6 : ∃ (s : State) (f : Nat), s.Inv ∧ s.liveFeed f = true ∧ s.feedBit f F.SUPC_FEED_STAT_HOLDING = true ∧ s.feedBit f F.SUPC_FEED_STAT_CUT = false :=
  ⟨((live.setFeedBit 5 F.SUPC_FEED_STAT_HOLDING true).setOSt 1 8 1), 5, inv_of (by decide +kernel), by decide +kernel, by decide +kernel, by decide +kernel⟩
theorem witness_FeedSagCutAndRestore_7 : ∃ (s : State) (f : Nat) (v : ℤ), s.Inv ∧ s.liveFeed f = true ∧ v < feedLevel 20 40 120 (s.feedClass f) ∧ s.feedBit f F.SUPC_FEED_STAT_CUT = false :=
  ⟨((live.setOSt 1 30 7).setOSt 1 31 5), 6, 999, inv_of (by decide +kernel), by decide +kernel, by decide +kernel, by decide +kernel⟩
theorem witness_FeedSagCutAndRestore_8 : ∃ (s : State) (f : Nat) (v : ℤ), s.Inv ∧ s.liveFeed f = true ∧ v < -250 ∧ s.feedBit f F.SUPC_FEED_STAT_CUT = false :=
  ⟨live, 1, (-251), inv_of (by decide +kernel), by decide +kernel, by decide +kernel, by decide +kernel⟩
theorem witness_FeedSagCutAndRestore_9 : ∃ (s : State) (f : Nat) (v : ℤ), s.Inv ∧ s.liveFeed f = true ∧ feedLevel 50 100 240 (s.feedClass f) < v ∧ s.feedBit f F.SUPC_FEED_STAT_CUT = true :=
  ⟨(((live.setFeedBit 1 F.SUPC_FEED_STAT_CUT true).setOSt 0 1 6).setOSt 0 7 6), 1, 2501, inv_of (by decide +kernel), by decide +kernel, by decide +kernel, by decide +kernel⟩
theorem witness_FeedSagCutAndRestore_10 : ∃ (s : State) (f : Nat) (x : Nat) (xs : List Nat), s.Inv ∧ s.liveFeed f = true ∧ (s.feedRt f).slots = x :: xs ∧ x ∈ feedOuts f ∧ s.oSt (feedDie f) x = 6 :=
  ⟨(((live.setOSt 1 31 6).setFeedRt 6 ⟨200, 0, [31]⟩).modOut 1 31 (fun o => { o with target := 1, preDip := 1 })), 6, 31, [], inv_of (by decide +kernel), by decide +kernel, by decide +kernel, by decide +kernel, by decide +kernel⟩
theorem witness_FeedSagCutAndRestore_11 : ∃ (s : State) (f : Nat) (v : ℤ), s.Inv ∧ s.liveFeed f = true ∧ v < feedLevel 50 100 240 (s.feedClass f) :=
  ⟨(live.setFeedRt 5 ⟨200, 0, [9, 10]⟩), 5, 2499, inv_of (by decide +kernel), by decide +kernel, by decide +kernel⟩
theorem witness_FeedHighAndSafeLines_0 : ∃ (s : State) (f : Nat) (v : ℤ), s.Inv ∧ s.liveFeed f = true ∧ feedLevel 160 320 520 (s.feedClass f) < v :=
  ⟨live, 1, 8001, inv_of (by decide +kernel), by decide +kernel, by decide +kernel⟩
theorem witness_FeedHighAndSafeLines_1 : ∃ (s : State) (f : Nat) (v : ℤ), s.Inv ∧ s.liveFeed f = true ∧ v < feedLevel 155 310 510 (s.feedClass f) :=
  ⟨((live.setOSt 0 3 1).modOut 0 3 (fun o => { o with ldDefer := true })), 1, 7749, inv_of (by decide +kernel), by decide +kernel, by decide +kernel⟩
theorem witness_FeedHighAndSafeLines_2 : ∃ (s : State) (d : Nat) (x : Nat), s.Inv ∧ s.livePc d x = true :=
  ⟨((live.setOSt 1 23 1).modOut 1 23 (fun o => { o with ldDefer := true })), 1, 23, inv_of (by decide +kernel), by decide +kernel⟩
theorem witness_FeedHighAndSafeLines_3 : ∃ (s : State) (f : Nat) (v : ℤ), s.Inv ∧ s.liveFeed f = true ∧ 30000 < v :=
  ⟨live, 6, 30001, inv_of (by decide +kernel), by decide +kernel, by decide +kernel⟩
theorem witness_FeedHighAndSafeLines_4 : ∃ (s : State) (f : Nat) (v : ℤ), s.Inv ∧ s.liveFeed f = true ∧ v < 29500 :=
  ⟨live, 6, 29499, inv_of (by decide +kernel), by decide +kernel, by decide +kernel⟩
theorem witness_FeedHighAndSafeLines_5 : ∃ (s : State) (f : Nat) (v : ℤ), s.Inv ∧ s.liveFeed f = true ∧ -250 < v :=
  ⟨live, 6, (-249), inv_of (by decide +kernel), by decide +kernel, by decide +kernel⟩
theorem witness_FeedHighAndSafeLines_6 : ∃ (s : State) (f : Nat) (v : ℤ) (k : Nat), s.Inv ∧ s.liveFeed f = true ∧ k < 3 ∧ k ≠ s.feedClass f ∧ feedLevel 90 180 360 k ≤ v ∧ v ≤ feedLevel 160 320 520 k :=
  ⟨live, 6, 18000, 2, inv_of (by decide +kernel), by decide +kernel, by decide +kernel, by decide +kernel, by decide +kernel, by decide +kernel⟩
theorem witness_FeedHighAndSafeLines_7 : ∃ (s : State) (l : Lane) (d : Nat), s.Inv ∧ d < 2 ∧ (s.die (powerDie d)).up = true ∧ s.forwards l = true :=
  ⟨(((live.setOSt 1 3 1).setShFld (R.PCH_CFG 1 3) F.PCH_CFG_SAFE_LINES 0x80).setShFld (R.FCH_SAFE 2) F.FCH_SAFE_SL_DRIVE 0x80), .W, 1, inv_of (by decide +kernel), by decide +kernel, by decide +kernel, by decide +kernel⟩
theorem witness_FeedHighAndSafeLines_8 : ∃ (s : State) (d : Nat) (u : Urgent), s.Inv ∧ d < 2 ∧ (s.die (powerDie d)).up = true ∧ List.find? (fun v ↦ v.die == powerDie d) s.urgents = some u :=
  ⟨{ live.setOSt 1 31 1 with urgents := [{ die := .P1, epoch := 1, mask := 0x80000000, act := 1, sealCyc := 5, lsn := 0 }] }, 1, { die := .P1, epoch := 1, mask := 0x80000000, act := 1, sealCyc := 5, lsn := 0 }, inv_of (by decide +kernel), by decide +kernel, by decide +kernel, by decide +kernel⟩
theorem witness_FieldCommandsAndQueries_0 : ∃ (s : State) (r : Req), Ready specFcSet s r :=
  ⟨live.setShadow .E (R.FCH_CFG 1 0) 3, req 0x300 (.func 0) ((List.replicate 14 0) ++ [1] ++ (List.replicate 17 0) ++ [1,0,0,0,0,0,0,0,0,0]), ready_of (by decide +kernel)⟩
theorem witness_FieldCommandsAndQueries_1 : ∃ (s : State) (r : Req), Ready specFcConfig s r :=
  ⟨live, req 0x301 (.func 0) [0xDF,0,0,0, 3,0,0,0, 0,0,0,0, 0,0,0,0, 0,0,0,0, 0,0,0,0], ready_of (by decide +kernel)⟩
theorem witness_FieldCommandsAndQueries_2 : ∃ (s : State) (r : Req), Ready specFcGroupConfig s r :=
  ⟨live, req 0x302 (.func 0) [15,0,0,0, 20,0,0,0], ready_of (by decide +kernel)⟩
theorem witness_FieldCommandsAndQueries_3 : ∃ (s : State) (r : Req), Ready specFcDieConfig s r :=
  ⟨live, req 0x303 (.func 0) [7,0,0,0, 0xD0,7,0,0], ready_of (by decide +kernel)⟩
theorem witness_FieldCommandsAndQueries_4 : ∃ (s : State) (r : Req), Ready specFcClear s r :=
  ⟨live.setShadow .E (R.FCH_CFG 0 1) 3, req 0x304 (.func 0) ([2] ++ List.replicate 31 0 ++ [1,0,0,0]), ready_of (by decide +kernel)⟩
theorem witness_FieldCommandsAndQueries_5 : ∃ (s : State) (r : Req), Ready specFcSafeState s r ∧ r.u8 32 = 1 :=
  ⟨live.setShadow .E (R.FCH_CFG 0 1) 3, req 0x308 (.func 0) ([2] ++ List.replicate 31 0 ++ [1,0,0,0]), ready_of (by decide +kernel), by decide +kernel⟩
theorem witness_FieldCommandsAndQueries_6 : ∃ (s : State) (r : Req), Ready specFcStatus s r :=
  ⟨(live.setReg .E (R.FCH_MIR 0 111 2) 77).setReg .E (R.FCH_MIR 1 0 0) 5, req 0x305 (.func 0) [111,0,2,0], ready_of (by decide +kernel)⟩
theorem witness_FieldCommandsAndQueries_7 : ∃ (s : State) (r : Req), Ready specFcInputs s r :=
  ⟨live.setReg .E (R.FCH_MIR 2 31 0) 0x30, req 0x306 (.func 0) [], ready_of (by decide +kernel)⟩
theorem witness_FieldCommandsAndQueries_8 : ∃ (s : State) (r : Req), Ready specFcDieStatus s r :=
  ⟨live.setSh (R.FCH_SAFE 2) 0x20, req 0x307 (.func 0) [4], ready_of (by decide +kernel)⟩
theorem witness_FieldInputsAndCaptures_0 : ∃ (s : State) (d : Nat) (m : Nat) (active : Bool) (ovr : Bool) (hot : Bool) (val : Word), s.Inv ∧ s.liveFc d m = true ∧ ((s.fMode d m = 1 ∨ s.fMode d m = 2) ∧ s.fcfg d m F.FCH_CFG_PULSED = 0 ∨ s.fMode d m = 7) :=
  ⟨live.setSh (R.FCH_CFG 1 111) 0x28001, 1, 111, true, false, false, 9, inv_of (by decide +kernel), by decide +kernel, by decide +kernel⟩
theorem witness_FieldInputsAndCaptures_1 : ∃ (s : State) (d : Nat) (k : Nat) (acts : Nat) (vals : List Word), s.Inv ∧ d < 3 ∧ (k < if d = 2 then 2 else 7) ∧ (s.die (fieldDie d)).up = true :=
  ⟨((live.setSh (R.FCH_CFG 1 111) 0x81).modFc 1 111 (fun x => { x with lastSample := some true })).setSh (R.FCH_CFG 1 110) 0x82, 1, 6, 0x8000, List.replicate 16 3, inv_of (by decide +kernel), by decide +kernel, by decide +kernel, by decide +kernel⟩
theorem witness_FieldInputsAndCaptures_2 : ∃ (s : State) (d : Nat) (m : Nat) (raw : Nat) (hot : Bool), s.Inv ∧ s.liveFc d m = true ∧ (s.fMode d m = 5 ∨ s.fMode d m = 6) :=
  ⟨((live.setSh (R.FCH_CFG 0 3) 5).setSh (R.FCH_AUX 0 3) 1).modFc 0 3 (fun x => { x with conv := [100, 7] }), 0, 3, 16384, false, inv_of (by decide +kernel), by decide +kernel, by decide +kernel⟩
theorem witness_FieldInputsAndCaptures_3 : ∃ (s : State) (d : Nat) (m : Nat) (present : Bool), s.Inv ∧ s.liveFc d m = true ∧ s.fBit d m F.FCH_STATE_DIAG_SUSPENDED = false ∧ (s.fMode d m = 6 ∨ s.fcfg d m F.FCH_CFG_OW_EN = 1 ∧ (s.fMode d m = 1 ∨ s.fMode d m = 2 ∨ s.fMode d m = 7 ∨ isOutMode (s.fMode d m) = true ∧ s.fSt d m = 0)) :=
  ⟨(live.setSh (R.FCH_CFG 0 3) 6).setFBit 0 3 F.FCH_STATE_VALID true, 0, 3, true, inv_of (by decide +kernel), by decide +kernel, by decide +kernel, by decide +kernel⟩
theorem witness_FieldInputsAndCaptures_4 : ∃ (s : State) (d : Nat) (m : Nat) (present : Bool), s.fBit d m F.FCH_STATE_DIAG_SUSPENDED = true :=
  ⟨live.setFBit 0 3 F.FCH_STATE_DIAG_SUSPENDED true, 0, 3, true, by decide +kernel⟩
theorem witness_FieldInputsAndCaptures_5 : ∃ (s : State) (d : Nat) (m : Nat) (rising : Bool) (t' : Nat), s.Inv ∧ s.liveFc d m = true ∧ s.fMode d m = 7 :=
  ⟨((live.setSh (R.FCH_CFG 0 3) 7).modFc 0 3 (fun x => { x with lastRise := some 100, lastFall := some 300 })), 0, 3, true, 900, inv_of (by decide +kernel), by decide +kernel, by decide +kernel⟩
theorem witness_FieldInputsAndCaptures_6 : ∃ (s : State) (d : Nat) (m : Nat) (rising : Bool) (t' : Nat) (plateau : ℤ), s.Inv ∧ s.liveFc d m = true ∧ s.fMode d m = 10 :=
  ⟨((live.setSh (R.FCH_CFG 0 3) 10).modFc 0 3 (fun x => { x with lastRise := some 100, lastFall := some 300 })), 0, 3, true, 4300, (-1200), inv_of (by decide +kernel), by decide +kernel, by decide +kernel⟩
theorem witness_FieldInputsAndCaptures_7 : ∃ (s : State) (d : Nat) (m : Nat) (dc : ℤ), s.Inv ∧ s.liveFc d m = true ∧ s.fMode d m = 10 :=
  ⟨(live.setSh (R.FCH_CFG 0 3) 10), 0, 3, (-1300), inv_of (by decide +kernel), by decide +kernel, by decide +kernel⟩
theorem witness_FieldInputsAndCaptures_8 : ∃ (s : State) (d : Nat) (m : Nat) (dc : ℤ), s.Inv ∧ s.liveFc d m = true ∧ s.fMode d m = 10 :=
  ⟨(live.setSh (R.FCH_CFG 0 3) 10).setSh (R.FCH_CAP2 0 3) 0x80000, 0, 3, 5, inv_of (by decide +kernel), by decide +kernel, by decide +kernel⟩
theorem witness_FieldOutputsAndSupply_0 : ∃ (s : State) (d : Nat) (m : Nat) (val : Word) (temp : ℤ) (e : Option Nat), s.Inv ∧ s.liveFc d m = true ∧ isOutMode (s.fMode d m) = true :=
  ⟨(live.setSh (R.FCH_CFG 0 3) 3).setFSt 0 3 1, 0, 3, 5, 2400, none, inv_of (by decide +kernel), by decide +kernel, by decide +kernel⟩
theorem witness_FieldOutputsAndSupply_1 : ∃ (s : State) (d : Nat) (m : Nat), s.Inv ∧ s.liveFc d m = true ∧ isOutMode (s.fMode d m) = true ∧ s.fSt d m ≠ 5 ∧ s.fSt d m ≠ 6 :=
  ⟨(live.setSh (R.FCH_CFG 0 3) 3).setFSt 0 3 1, 0, 3, inv_of (by decide +kernel), by decide +kernel, by decide +kernel, by decide +kernel, by decide +kernel⟩
theorem witness_FieldOutputsAndSupply_2 : ∃ (s : State) (d : Nat) (m : Nat), s.Inv ∧ s.liveFc d m = true ∧ s.fSt d m = 2 :=
  ⟨(((live.setSh (R.FCH_CFG 0 3) 8).setFSt 0 3 2).setSh (R.FCH_PWM 0 3) 1000).setSh (R.FCH_DUTY 0 3) 512, 0, 3, inv_of (by decide +kernel), by decide +kernel, by decide +kernel⟩
theorem witness_FieldOutputsAndSupply_3 : ∃ (s : State) (d : Nat), s.Inv ∧ d < 3 ∧ (s.die (fieldDie d)).up = true :=
  ⟨live.modFc 0 3 (fun x => x), 0, inv_of (by decide +kernel), by decide +kernel, by decide +kernel⟩
theorem witness_FieldOutputsAndSupply_4 : ∃ (s : State) (d : Nat) (v : ℤ) (resumed : Bool), s.Inv ∧ d < 2 ∧ (s.die (fieldDie d)).up = true :=
  ⟨live, 0, 4499, false, inv_of (by decide +kernel), by decide +kernel, by decide +kernel⟩
theorem witness_FieldOutputsAndSupply_5 : ∃ (s : State) (d : Nat) (v : ℤ), s.Inv ∧ d < 2 ∧ (s.die (fieldDie d)).up = true ∧ v < feedLevel 30 60 180 (min (s.feedClass 3) (s.feedClass 6)) :=
  ⟨(live.setSh (R.FCH_CFG 0 3) 3).setFSt 0 3 1, 0, 1499, inv_of (by decide +kernel), by decide +kernel, by decide +kernel, by decide +kernel⟩
theorem witness_FieldOutputsAndSupply_6 : ∃ (s : State) (d : Nat) (v : ℤ), s.Inv ∧ d < 2 ∧ (s.die (fieldDie d)).up = true ∧ feedLevel 50 100 240 (min (s.feedClass 3) (s.feedClass 6)) < v :=
  ⟨((live.setSh (R.FCH_CFG 1 3) 0x803).setFSt 1 3 6).modFc 1 3 (fun x => { x with target := 1 }), 1, 2501, inv_of (by decide +kernel), by decide +kernel, by decide +kernel, by decide +kernel⟩
theorem witness_FieldOutputsAndSupply_7 : ∃ (s : State), s.Inv ∧ s.fdBit 2 F.FCH_DIE_STATUS_SUPPLY_LOST = false :=
  ⟨((live.setSh (R.FCH_CFG 2 3) 0xA8002).setSh (R.FCH_CFG 2 4) 3).setFSt 2 4 1, inv_of (by decide +kernel), by decide +kernel⟩
theorem witness_FieldOutputsAndSupply_8 : ∃ (s : State), s.fdBit 2 F.FCH_DIE_STATUS_SUPPLY_LOST = true :=
  ⟨live.setShBit (R.FCH_DIE_STATUS 2) F.FCH_DIE_STATUS_SUPPLY_LOST true, by decide +kernel⟩
theorem witness_DieSwitchesAndRestarts_0 : ∃ (s : State) (d : Nat) (x : Nat), s.Inv ∧ d < 2 ∧ x < 32 ∧ (s.die (powerDie d)).up = true :=
  ⟨live.modOut 1 31 (fun o => { o with sched := some 1 }), 1, 31, inv_of (by decide +kernel), by decide +kernel, by decide +kernel, by decide +kernel⟩
theorem witness_DieSwitchesAndRestarts_1 : ∃ (s : State) (d : Nat) (m : Nat), s.Inv ∧ d < 3 ∧ m < fcCount d ∧ (s.die (fieldDie d)).up = true :=
  ⟨(live.setSh (R.FCH_CFG 2 31) 3).modFc 2 31 (fun o => { o with sched := some 1 }), 2, 31, inv_of (by decide +kernel), by decide +kernel, by decide +kernel, by decide +kernel⟩
theorem witness_DieSwitchesAndRestarts_2 : ∃ (s : State) (d : Die) (p : Nat × Fld), s.Inv ∧ kaPlace d = some p ∧ (s.die d).up = true ∧ (s.die d).lastCycle.isSome = true :=
  ⟨live, .FI, (R.FCH_DIE_STATUS 2, F.FCH_DIE_STATUS_KA_LOST), inv_of (by decide +kernel), by decide +kernel, by decide +kernel, by decide +kernel⟩
theorem witness_DieSwitchesAndRestarts_3 : ∃ (s : State) (d : Nat), s.Inv ∧ d < 2 ∧ (s.die (powerDie d)).up = true ∧ s.mod_.frozen = false ∧ s.shBit (R.PCH_DIE_STATUS d) F.PCH_DIE_STATUS_KA_LOST = true :=
  ⟨(((live.setShBit (R.PCH_DIE_STATUS 1) F.PCH_DIE_STATUS_KA_LOST true).setOSt 1 31 1).setSh (R.PCH_CFG 1 3) 0x60).setSh (R.PCH_CFG 1 4) 0x40, 1, inv_of (by decide +kernel), by decide +kernel, by decide +kernel, by decide +kernel, by decide +kernel⟩
theorem witness_DieSwitchesAndRestarts_4 : ∃ (s : State) (d : Nat), s.Inv ∧ d < 3 ∧ (s.die (fieldDie d)).up = true ∧ s.mod_.frozen = false ∧ s.fdBit d F.FCH_DIE_STATUS_KA_LOST = true :=
  ⟨(((live.setShBit (R.FCH_DIE_STATUS 0) F.FCH_DIE_STATUS_KA_LOST true).setSh (R.FCH_CFG 0 3) 0x308).setSh (R.FCH_CFG 0 4) 3).setFSt 0 4 1, 0, inv_of (by decide +kernel), by decide +kernel, by decide +kernel, by decide +kernel, by decide +kernel⟩
theorem witness_DieSwitchesAndRestarts_5 : ∃ (s : State) (d : Nat) (u : Urgent), s.Inv ∧ d < 3 ∧ (s.die (fieldDie d)).up = true ∧ List.find? (fun v ↦ v.die == fieldDie d) s.urgents = some u :=
  ⟨{ (live.setSh (R.FCH_CFG 2 31) 3).setFSt 2 31 1 with urgents := [{ die := .FI, epoch := 1, mask := 0x80000000, act := 1, sealCyc := 5, lsn := 0 }] }, 2, { die := .FI, epoch := 1, mask := 0x80000000, act := 1, sealCyc := 5, lsn := 0 }, inv_of (by decide +kernel), by decide +kernel, by decide +kernel, by decide +kernel⟩
theorem witness_DieSwitchesAndRestarts_6 : ∃ (s : State) (d : Die), s.Inv :=
  ⟨(live.setOSt 1 31 1).setSh (R.PCH_CFG 1 3) 0x60, .P1, inv_of (by decide +kernel)⟩
theorem witness_DieSwitchesAndRestarts_7 : ∃ (s : State) (d : Die), s.Inv ∧ d ≠ Die.FI ∧ s.mod_.poweredOn = true ∧ s.mod_.asleep = false :=
  ⟨{ live with mod_ := { live.mod_ with straps := 3 } }, .P0, inv_of (by decide +kernel), by decide +kernel, by decide +kernel, by decide +kernel⟩
theorem witness_DieSwitchesAndRestarts_8 : ∃ (s : State) (d : Die), (s.mod_.poweredOn = false ∨ s.mod_.asleep = true) :=
  ⟨{ live with mod_ := { live.mod_ with asleep := true } }, .P0, by decide +kernel⟩
theorem witness_DieSwitchesAndRestarts_9 : ∃ (s : State), s.f1.up = false :=
  ⟨{ live with f1 := { live.f1 with up := false } }, by decide +kernel⟩
theorem witness_DieSwitchesAndRestarts_10 : ∃ (s : State), s.Inv ∧ s.f1.up = true ∧ s.mod_.poweredOn = true ∧ s.mod_.asleep = false :=
  ⟨live, inv_of (by decide +kernel), by decide +kernel, by decide +kernel, by decide +kernel⟩
theorem witness_DieSwitchesAndRestarts_11 : ∃ (s : State), s.Inv ∧ s.f1.up = true ∧ s.fdBit 1 F.FCH_DIE_STATUS_SUPPLY_CUT = false :=
  ⟨live, inv_of (by decide +kernel), by decide +kernel, by decide +kernel⟩
theorem witness_DieSwitchesAndRestarts_12 : ∃ (s : State) (d : Die) (l : Lane), d ≠ Die.CMN :=
  ⟨live, .FI, .W, by decide +kernel⟩
theorem witness_InterfaceCommands_0 : ∃ (s : State) (r : Req), Ready specIdentify s r :=
  ⟨live, req 0 (.func 0) [], ready_of (by decide +kernel)⟩
theorem witness_InterfaceCommands_1 : ∃ (s : State) (r : Req), Ready specLaneStatus s r :=
  ⟨live.setBitBoth R.FERRY_LANE F.FERRY_LANE_STRAIT_UP true, req 1 (.func 63) [], ready_of (by decide +kernel)⟩
theorem witness_InterfaceCommands_2 : ∃ (s : State) (r : Req), Ready specPing s r :=
  ⟨{ live with now := 0x123456789 }, req 2 (.func 0) [1,2,3], ready_of (by decide +kernel)⟩
theorem witness_InterfaceCommands_3 : ∃ (s : State) (r : Req), Ready specSessionInfo s r :=
  ⟨live.setReg .E (R.SCSM_MB_STATUS 5) 0x0103, req 3 (.func 5) [], ready_of (by decide +kernel)⟩
theorem witness_InterfaceCommands_4 : ∃ (s : State) (r : Req), Ready specSessionPermit s r :=
  ⟨live, req 4 .smb0 [31,0,0xFF,0x0F], ready_of (by decide +kernel)⟩
theorem witness_InterfaceCommands_5 : ∃ (s : State) (n : Nat) (r : Req), s.Inv ∧ r.src.wf = true ∧ s.deaf = false ∧ assignedOpcode n = false :=
  ⟨live, 0x0180, req 0x180 (.func 2) [], inv_of (by decide +kernel), by decide +kernel, by decide +kernel, by decide +kernel⟩
theorem witness_MailboxAccesses_0 : ∃ (s : State) (l : Lane) (who : Initiator) (mb : Nat) (slot : Nat) (off : Nat) (v : Word) (mask : Nat) (head : Nat), (∀ (f : Nat), who = Initiator.func f → f ≠ mb ∨ 64 ≤ mb) ∧ (who = Initiator.secure → mb ≠ 64) :=
  ⟨live, .E, .func 3, 2, 0, 0, 5, 255, 3, fun n h => by cases h; exact .inl (by decide), fun h => by cases h⟩
theorem witness_MailboxAccesses_1 : ∃ (s : State) (l : Lane) (who : Initiator) (mb : Nat) (slot : Nat) (off : Nat) (v : Word), s.Inv ∧ mayUseMailbox who mb = true :=
  ⟨live.setReg .E (R.SCSM_MB_STATUS 63) 0x80, .E, .func 63, 63, 7, 60, 9, inv_of (by decide +kernel), by decide +kernel⟩
theorem witness_MailboxAccesses_2 : ∃ (s : State) (l : Lane) (who : Initiator) (mb : Nat) (slot : Nat), s.Inv ∧ mayUseMailbox who mb = true :=
  ⟨live.setReg .E (R.SCSM_MB_STATUS 64) 0x7F, .E, .secure, 64, 7, inv_of (by decide +kernel), by decide +kernel⟩
theorem witness_MailboxAccesses_3 : ∃ (s : State) (l : Lane) (who : Initiator) (mb : Nat) (mask : Nat), s.Inv ∧ mayUseMailbox who mb = true :=
  ⟨live.setReg .E (R.SCSM_MB_STATUS 3) 0x0783, .E, .func 3, 3, 0x85, inv_of (by decide +kernel), by decide +kernel⟩
theorem witness_MailboxAccesses_4 : ∃ (s : State) (l : Lane) (who : Initiator) (mb : Nat) (head : Nat), s.Inv ∧ mayUseMailbox who mb = true :=
  ⟨(live.setReg .E (R.SCSM_MB_CPL_HEAD 3) 62).setFld .E (R.SCSM_MB_STATUS 3) F.SCSM_MB_STATUS_CPL_COUNT 5, .E, .func 3, 3, 2, inv_of (by decide +kernel), by decide +kernel⟩
theorem witness_RemoteSessions_0 : ∃ (s : State) (n : Nat) (counter : Nat) (nonce : List Byte) (h : Lane), s.Inv ∧ s.holder = some h ∧ n < 32 ∧ s.deaf = false ∧ s.bit h (R.SCSM_RS_CFG n) F.SCSM_RS_CFG_EN = true :=
  ⟨live.setReg .E (R.SCSM_RS_CFG 31) 1, 31, 5, [1], .E, inv_of (by decide +kernel), by decide +kernel, by decide +kernel, by decide +kernel, by decide +kernel⟩
theorem witness_RemoteSessions_1 : ∃ (s : State) (g : Segment) (h : Lane), s.Inv ∧ s.holder = some h ∧ g.session < 32 ∧ s.deaf = false ∧ s.sessionOpen g.session = true ∧ g.tagOk = true :=
  ⟨live.setReg .E (R.SCSM_RS_STATUS 3) 1, ⟨3, 0, false, 7, 1, true, [1,2]⟩, .E, inv_of (by decide +kernel), by decide +kernel, by decide +kernel, by decide +kernel, by decide +kernel, by decide +kernel⟩
theorem witness_RemoteSessions_2 : ∃ (s : State) (n : Nat), s.Inv ∧ s.sessionOpen n = true :=
  ⟨live.setReg .E (R.SCSM_RS_STATUS 3) 0x11, 3, inv_of (by decide +kernel), by decide +kernel⟩
theorem witness_RemoteSessions_3 : ∃ (s : State) (n : Nat), s.Inv ∧ s.sessionOpen n = true :=
  ⟨live.setReg .E (R.SCSM_RS_STATUS 3) 0x11, 3, inv_of (by decide +kernel), by decide +kernel⟩
theorem witness_RemoteSessions_4 : ∃ (s : State) (n : Nat) (msg : Nat), s.Inv ∧ n < 32 ∧ (∃ p ∈ (s.session n).partials, p.msg = msg) :=
  ⟨live.setSession 3 { Session.reset with partials := [⟨7, [(0, [2,0])], none⟩], rxHigh := 70 }, 3, 7, inv_of (by decide +kernel), by decide +kernel, by decide +kernel⟩
theorem witness_TideCommands_0 : ∃ (s : State) (r : Req), Ready specTideSource s r :=
  ⟨live, req 0x401 (.func 0) [2,0,10,0, 10,0,0,0, 0x12,0x6B,0xF1,0x29,0,0,0,0, 0x40,0x42,0x0F,0], ready_of (by decide +kernel)⟩
theorem witness_TideCommands_1 : ∃ (s : State) (r : Req), Ready specTideMains s r :=
  ⟨live, req 0x402 (.func 0) [1,0,0,0, 5,0,0,0, 0xB8,0x0B,0x2C,1, 0xC2,1,0x8A,0x2A], ready_of (by decide +kernel)⟩
theorem witness_TideCommands_2 : ∃ (s : State) (r : Req), Ready specTideExt s r :=
  ⟨live, req 0x403 (.func 0) [3,0,0,0, 5,0,0,0, 0xC2,1,0,0, 0x8A,2,0,0], ready_of (by decide +kernel)⟩
theorem witness_TideCommands_3 : ∃ (s : State) (r : Req), Ready specTideTurn s r :=
  ⟨live, req 0x404 (.func 0) [2,0,0,0, 1,0,0,0], ready_of (by decide +kernel)⟩
theorem witness_TideCommands_4 : ∃ (s : State) (r : Req), Ready specTevSet s r :=
  ⟨live, req 0x405 (.func 0) [0xFF,3,0,0, 0,0,0,0x80, 6,2,0,0, 0x44,3,0,0], ready_of (by decide +kernel)⟩
theorem witness_TideCommands_5 : ∃ (s : State) (r : Req), Ready specTevClear s r :=
  ⟨live.setShadow .E (R.TIDE_TEV_CTRL 1023) 0x26, req 0x406 (.func 0) [0xFE,3,2,0], ready_of (by decide +kernel)⟩
theorem witness_TideCommands_6 : ∃ (s : State) (r : Req), Ready specTevArm s r :=
  ⟨live, req 0x407 (.func 0) [0xFE,3,2,0], ready_of (by decide +kernel)⟩
theorem witness_TideCommands_7 : ∃ (s : State) (r : Req), Ready specTideStatus s r :=
  ⟨{ live with tideE := { live.tideE with acc := 2^47 } }, req 0x400 (.func 0) [], ready_of (by decide +kernel)⟩
theorem witness_TideCommands_8 : ∃ (s : State) (r : Req), Ready specTevRead s r :=
  ⟨live.setReg .E (R.TIDE_TEV_CTRL 1023) 9, req 0x408 (.func 0) [0xFE,3,2,0], ready_of (by decide +kernel)⟩
theorem witness_TideReferences_0 : ∃ (s : State) (l : Lane) (va : ℤ) (vb : ℤ) (vc : ℤ), s.Inv ∧ s.mpllOn l = true :=
  ⟨live.setReg .E R.TIDE_MPLL_CFG 3, .E, 100, (-50), (-50), inv_of (by decide +kernel), by decide +kernel⟩
theorem witness_TideReferences_1 : ∃ (s : State) (l : Lane) (va : ℤ) (vb : ℤ) (vc : ℤ), s.mpllOn l = false :=
  ⟨live, .W, 0, (-50), (-50), by decide +kernel⟩
theorem witness_TideReferences_2 : ∃ (s : State) (l : Lane), s.Inv ∧ s.mpllOn l = true :=
  ⟨((live.setReg .W R.TIDE_MPLL_CFG 1).setReg .W R.TIDE_CFG 0x90A01).setReg .W R.TIDE_MPLL_STAT 1, .W, inv_of (by decide +kernel), by decide +kernel⟩
theorem witness_TideReferences_3 : ∃ (s : State) (l : Lane) (ch : Nat) (t' : Nat), s.Inv ∧ s.tideRuns l = true ∧ (ch, t') ∈ s.stamps ∧ s.fMode (fcDie ch) (fcIx ch) = 7 ∧ s.shFld (R.FCH_AUX (fcDie ch) (fcIx ch)) F.FCH_AUX_CAP_KIND = 3 :=
  ⟨{ (live.setSh (R.FCH_CFG 0 9) 7).setSh (R.FCH_AUX 0 9) 0x300 with stamps := [(9, 4000000)] }.setReg .E R.TIDE_EXT_CFG 9, .E, 9, 4000000, inv_of (by decide +kernel), by decide +kernel, by decide +kernel, by decide +kernel, by decide +kernel⟩
theorem witness_TideReferences_4 : ∃ (s : State) (l : Lane), s.Inv ∧ s.tideRuns l = true :=
  ⟨(live.setReg .E R.TIDE_EXT_STAT 1).setReg .E R.TIDE_CFG 0x90A03, .E, inv_of (by decide +kernel), by decide +kernel⟩
theorem witness_TideTurnsAndEvents_0 : ∃ (s : State) (l : Lane), s.Inv :=
  ⟨{ live with tideE := { live.tideE with acc := 2^47, turn := 7 } }, .E, inv_of (by decide +kernel)⟩
theorem witness_TideTurnsAndEvents_1 : ∃ (s : State) (l : Lane), s.Inv ∧ s.tideRuns l = true :=
  ⟨{ live with tideE := { live.tideE with acc := 2^47, turn := 2^32-1 } }, .E, inv_of (by decide +kernel), by decide +kernel⟩
theorem witness_TideTurnsAndEvents_2 : ∃ (s : State) (l : Lane), s.Inv ∧ s.tideRuns l = true ∧ s.tideOwn l = true ∧ s.tBit l F.TIDE_STATUS_SLEWING = true ∧ s.srcLocked l = true :=
  ⟨(live.setReg .E R.TIDE_STATUS 8), .E, inv_of (by decide +kernel), by decide +kernel, by decide +kernel, by decide +kernel, by decide +kernel⟩
theorem witness_TideTurnsAndEvents_3 : ∃ (s : State) (l : Lane), s.Inv ∧ s.tideRuns l = true ∧ s.tBit l F.TIDE_STATUS_HOLDOVER = true :=
  ⟨(live.setReg .E R.TIDE_STATUS 0x10), .E, inv_of (by decide +kernel), by decide +kernel, by decide +kernel⟩
theorem witness_TideTurnsAndEvents_4 : ∃ (s : State) (l : Lane) (err : ℤ), s.Inv ∧ s.lst l = 4 ∧ s.tideRuns l = true :=
  ⟨live, .W, 50, inv_of (by decide +kernel), by decide +kernel, by decide +kernel⟩
theorem witness_ConverterCommands_0 : ∃ (s : State) (r : Req), Ready specPwmPairConfig s r ∧ s.NodesSettled :=
  ⟨live, req 0x501 (.func 0) [11,0,0,0, 0x02,0x15,0x13,0, 5,0,0,0, 6,0,0,0], ready_of (by decide +kernel), by unfold State.NodesSettled; decide +kernel⟩
theorem witness_ConverterCommands_1 : ∃ (s : State) (r : Req), Ready specAdcSeqConfig s r ∧ s.NodesSettled :=
  ⟨live, req 0x505 (.func 0) [15,0,0,0, 1,1,0,0, 3,1,0,0, 4,1,0,0], ready_of (by decide +kernel), by unfold State.NodesSettled; decide +kernel⟩
theorem witness_ConverterCommands_2 : ∃ (s : State) (r : Req), Ready specCompConfig s r ∧ s.NodesSettled :=
  ⟨live, req 0x507 (.func 0) [15,0,0,0, 0x3F,0xFF,0x47,0], ready_of (by decide +kernel), by unfold State.NodesSettled; decide +kernel⟩
theorem witness_ConverterCommands_3 : ∃ (s : State) (r : Req), Ready specPwmGuard s r :=
  ⟨live, req 0x503 (.func 0) [11,0,0,0, 100,0,100,0, 50,0,0,0, 255,255,255,0], ready_of (by decide +kernel)⟩
theorem witness_ConverterCommands_4 : ∃ (s : State) (r : Req), Ready specNodeConfig s r ∧ s.NodesSettled :=
  ⟨live, req 0x508 (.func 0) [3,0,0,0, 0x04,0x20,0x0B,0, 0x10,0,0x20,0, 0,0,0,0, 0xFF,0xFF,0xFF,0x7F, 7,0,0,0], ready_of (by decide +kernel), by unfold State.NodesSettled; decide +kernel⟩
theorem witness_ConverterCommands_5 : ∃ (s : State) (r : Req), Ready specNodeCoef s r ∧ s.NodesSettled :=
  ⟨(((live.setReg .E (R.CVC_KN_UMAX 15) 5).setReg .W (R.CVC_KN_UMAX 15) 5)), req 0x509 (.func 0) [15,0,0,0, 1,0,0,0, 2,0,0,0, 3,0,0,0, 4,0,0,0, 5,0,0,0, 6,0,0,0, 7,0,0,0x80], ready_of (by decide +kernel), by unfold State.NodesSettled; decide +kernel⟩
theorem witness_ConverterCommands_6 : ∃ (s : State) (r : Req), Ready specPwmRun s r :=
  ⟨live, req 0x502 (.func 0) [11,0,0,0, 0,50,0,0, 0,0,0,0, 0,25,0,0, 0,0,0,0, 0,1,0,0, 0,2,0,0], ready_of (by decide +kernel)⟩
theorem witness_ConverterCommands_7 : ∃ (s : State) (r : Req), Ready specRefSet s r :=
  ⟨live, req 0x50C (.func 0) [14,2,0,0, 1,2,3,4, 5,6,7,8], ready_of (by decide +kernel)⟩
theorem witness_ConverterCommands_8 : ∃ (s : State) (r : Req), Ready specNodeState s r :=
  ⟨live.setReg .W (R.CVC_KN_STATE 15 5 1) 3, req 0x50A (.func 0) [15,1,0,0, 1,2,3,4], ready_of (by decide +kernel)⟩
theorem witness_ConverterCommands_9 : ∃ (s : State) (r : Req), Ready specPwmEnable s r :=
  ⟨live, req 0x504 (.func 0) [0,8,1,0], ready_of (by decide +kernel)⟩
theorem witness_ConverterCommands_10 : ∃ (s : State) (r : Req), Ready specCvcStatus s r :=
  ⟨live.setReg .E (R.CVC_SELM_PP_STAT 11) 3, req 0x500 (.func 0) [], ready_of (by decide +kernel)⟩
theorem witness_ConverterCommands_11 : ∃ (s : State) (r : Req), Ready specAdcRead s r :=
  ⟨live.setReg .E (R.CVC_SEQ_RES 15 31) 3, req 0x506 (.func 0) [15,30,2,0], ready_of (by decide +kernel)⟩
theorem witness_ConverterCommands_12 : ∃ (s : State) (r : Req), Ready specNodeRead s r :=
  ⟨live.setReg .E (R.CVC_KN_STAT 15) 3, req 0x50B (.func 0) [14,2], ready_of (by decide +kernel)⟩
theorem witness_ConverterSequencesAndNodes_0 : ∃ (s : State) (l : Lane) (who : Initiator) (mask : Nat), s.Inv ∧ s.mayWrite l 10 who = true :=
  ⟨(live.setReg .E (R.CVC_SEQ_CFG 15) 0x100).setReg .E (R.CVC_SEQ_CFG 0) 0x100, .E, .secure, 0xFFFF, inv_of (by decide +kernel), by decide +kernel⟩
theorem witness_ConverterSequencesAndNodes_1 : ∃ (s : State) (l : Lane) (who : Initiator) (mask : Nat), s.mayWrite l 10 who = false :=
  ⟨live, .E, .func 3, 0xFFFF, by decide +kernel⟩
theorem witness_ConverterSequencesAndNodes_2 : ∃ (s : State) (l : Lane) (k : Nat) (b : Bool), s.Inv ∧ s.cvcRuns l = true ∧ k < 12 :=
  ⟨((live.setPair .E 11 { PairRt.reset with per := 10 }).setReg .E (R.CVC_PP_CFG 11) 0x1F0000).setReg .E (R.CVC_SEQ_CFG 15) 0x100, .E, 11, true, inv_of (by decide +kernel), by decide +kernel, by decide +kernel⟩
theorem witness_ConverterSequencesAndNodes_3 : ∃ (s : State) (l : Lane) (q : Nat) (codes : List Nat), s.Inv ∧ s.cvcRuns l = true ∧ q < 16 ∧ s.seqBusy l q = true ∧ (s.seqRt l q).conv = true ∧ (s.seqRt l q).step < s.seqLen l q ∧ (s.cvc l).seqs.length = 16 :=
  ⟨(((live.setSeqRt .E 15 ⟨0, true⟩).setReg .E (R.CVC_SEQ_STAT 15) 0x10001).setReg .E (R.CVC_SEQ_CFG 15) 0x120102).setReg .E (R.CVC_SEQ_STEP 15 1) 3, .E, 15, [7, 65536], inv_of (by decide +kernel), by decide +kernel, by decide +kernel, by decide +kernel, by decide +kernel, by decide +kernel, by decide +kernel⟩
theorem witness_ConverterSequencesAndNodes_4 : ∃ (s : State) (l : Lane) (start : Nat) (i : Nat), s.Inv ∧ s.cvcRuns l = true ∧ i < 16 ∧ (s.cvc l).chain = some (start, i) ∧ s.NodesSettled :=
  ⟨((({ live with cvcE := { live.cvcE with chain := some (2, 3) } }.setReg .E (R.CVC_KN_CFG 3) 0x0B7404).setReg .E (R.CVC_KN_UMAX 3) 0x7FFFFFFF).setReg .E (R.CVC_KN_IN 3) 0x10).setReg .E (R.CVC_KN_OUT 0) 500000, .E, 2, 3, inv_of (by decide +kernel), by decide +kernel, by decide +kernel, by decide +kernel, by unfold State.NodesSettled; decide +kernel⟩
theorem witness_ConverterTripsAndSelector_0 : ∃ (s : State) (l : Lane) (c : Nat) (out : Bool), s.Inv ∧ s.cvcRuns l = true ∧ c < 16 ∧ s.bit l (R.CVC_CM_CFG c) F.CVC_CM_CFG_EN = true :=
  ⟨(live.setReg .E (R.CVC_CM_CFG 15) 0x40000).setSh (R.CVC_SEL_PP_MASK 11) 0x8000, .E, 15, true, inv_of (by decide +kernel), by decide +kernel, by decide +kernel, by decide +kernel⟩
theorem witness_ConverterTripsAndSelector_1 : ∃ (s : State) (i : Nat) (on : Bool), s.Inv ∧ i < 8 ∧ s.cmn.up = true :=
  ⟨live.setSh (R.CVC_SEL_PP_MASK 0) 0x800000, 7, true, inv_of (by decide +kernel), by decide +kernel, by decide +kernel⟩
theorem witness_ConverterTripsAndSelector_2 : ∃ (s : State) (l : Lane) (k : Nat), s.Inv ∧ s.cvcRuns l = true ∧ k < 12 ∧ (s.cvc l).pairs.length = 12 ∧ (s.pair l k).per ≠ 0 ∧ s.pendCommit 10 k l = none :=
  ⟨((live.setPair .E 11 { PairRt.reset with per := 1280 }).setReg .E (R.CVC_PP_PER 11) 2560).setSel 11 ⟨true, false, false⟩, .E, 11, inv_of (by decide +kernel), by decide +kernel, by decide +kernel, by decide +kernel, by decide +kernel, by decide +kernel⟩
theorem witness_ConverterTripsAndSelector_3 : ∃ (s : State) (k : Nat) (h : Lane), s.Inv ∧ k < 12 ∧ s.holder = some h ∧ s.selSt k = 2 ∧ s.pendCommit 10 (110 + k) Lane.E = none :=
  ⟨live.setSelSt 11 2, 11, .E, inv_of (by decide +kernel), by decide +kernel, by decide +kernel, by decide +kernel, by decide +kernel⟩
theorem witness_ConverterTripsAndSelector_4 : ∃ (s : State) (l : Lane), s.Inv ∧ s.leaseValid l = false :=
  ⟨((live.setSelSt 11 1).setSelSt 0 2).setBitF .E R.FERRY_LANE F.FERRY_LANE_LEASE_VALID false, .E, inv_of (by decide +kernel), by decide +kernel⟩
theorem witness_ConverterTripsAndSelector_5 : ∃ (s : State) (k : Nat), s.Inv ∧ k < 12 ∧ s.selSt k = 3 :=
  ⟨live.setSelSt 11 3, 11, inv_of (by decide +kernel), by decide +kernel, by decide +kernel⟩
theorem witness_ConverterTripsAndSelector_6 : ∃ (s : State) (k : Nat), s.selSt k ≠ 3 :=
  ⟨live, 11, by decide +kernel⟩
theorem witness_CanAndLinCommands_0 : ∃ (s : State) (r : Req), Ready specCanPortConfig s r :=
  ⟨live, req 0x600 (.func 0) [15,0,0,0, 1,0,0,0, 0xC4,0xE3,0x01,0, 0,0,0,0, 0,0,0,0, 0,0,0,0, 0,0,0,0], ready_of (by decide +kernel)⟩
theorem witness_CanAndLinCommands_1 : ∃ (s : State) (r : Req), Ready specCanFilterSet s r :=
  ⟨live, req 0x601 (.func 0) [15,0,2,0, 1,0,0,0x80, 2,0,0,0x80, 3,0,0,0, 4,0,0,0], ready_of (by decide +kernel)⟩
theorem witness_CanAndLinCommands_2 : ∃ (s : State) (r : Req), Ready specCanTrxSet s r :=
  ⟨live, req 0x602 (.func 0) [15,2,0,1], ready_of (by decide +kernel)⟩
theorem witness_CanAndLinCommands_3 : ∃ (s : State) (r : Req), Ready specCanWakeFrame s r :=
  ⟨live, req 0x603 (.func 0) [15,0,0,0, 1,0,0,0, 2,0,0,0, 3,0,0,0, 4,0,0,0, 8,0,0,0], ready_of (by decide +kernel)⟩
theorem witness_CanAndLinCommands_4 : ∃ (s : State) (r : Req), Ready specCanInhMap s r :=
  ⟨live, req 0x606 (.func 0) [3,0,0,0, 1,0,0x80,0], ready_of (by decide +kernel)⟩
theorem witness_CanAndLinCommands_5 : ∃ (s : State) (r : Req), Ready specCanRecover s r :=
  ⟨live, req 0x604 (.func 0) [1,0x80], ready_of (by decide +kernel)⟩
theorem witness_CanAndLinCommands_6 : ∃ (s : State) (r : Req), Ready specCanStatus s r :=
  ⟨live.setReg .E (R.CAN_MIR 15 6) 77, req 0x605 (.func 0) [14,2], ready_of (by decide +kernel)⟩
theorem witness_CanAndLinCommands_7 : ∃ (s : State) (r : Req), Ready specCanSend s r ∧ s.portUp (r.u8 13) :=
  ⟨live.setShadow .E (R.CAN_PCFG 15) 1, req 0x607 (.func 0) [5,0,0,0, 0,0,0,0, 2,0,0,0,0,15,0,0, 0xAA,0xBB], ready_of (by decide +kernel), by unfold State.portUp; decide +kernel⟩
theorem witness_CanAndLinCommands_8 : ∃ (s : State) (r : Req), Ready specLinConfig s r :=
  ⟨live, req 0x608 (.func 0) [7,0,0,0, 0x34,0,0x00,0x4B, 4,0,0xF4,1, 0,0,0,0], ready_of (by decide +kernel)⟩
theorem witness_CanAndLinCommands_9 : ∃ (s : State) (r : Req), Ready specLinFrame s r :=
  ⟨live, req 0x609 (.func 0) [7,63,0,0, 0x85,0,0,0, 1,0,0,0, 2,0,0,0], ready_of (by decide +kernel)⟩
theorem witness_CanAndLinCommands_10 : ∃ (s : State) (r : Req), Ready specLinSchedule s r :=
  ⟨live.setShadow .E (R.LIN_CFG 7) 0x4B00001A, req 0x60A (.func 0) [7,62,2,0, 1,0,0xFF,0, 2,0,0xFF,0], ready_of (by decide +kernel)⟩
theorem witness_CanAndLinCommands_11 : ∃ (s : State) (r : Req), Ready specLinWake s r :=
  ⟨live.setShFld (R.LIN_STAT 7) F.LIN_STAT_STATE 1, req 0x60B (.func 0) [0x80], ready_of (by decide +kernel)⟩
theorem witness_CanAndLinCommands_12 : ∃ (s : State) (r : Req), Ready specLinStatus s r :=
  ⟨live.setReg .E (R.LIN_MIR_STAT 7) 77, req 0x60C (.func 0) [], ready_of (by decide +kernel)⟩
theorem witness_CanAndLinCommands_13 : ∃ (s : State) (r : Req), Ready specLinRead s r :=
  ⟨((live.setReg .E (R.LIN_MIR_FR 7 63 3) 0x50001).setReg .W (R.LIN_MIR_FR 7 63 3) 1).setSh (R.LIN_FR_STAT 7 63) 0x50001, req 0x60D (.func 0) [7,63], ready_of (by decide +kernel)⟩
theorem witness_CanAndLinEvents_0 : ∃ (s : State) (n : Nat) (f : CanFrame) (rec : Nat), s.Inv ∧ n < 16 ∧ s.cmnRuns = true ∧ (s.canTrx n = 0 ∨ s.canTrx n = 1) ∧ fmtOn (s.shReg (R.CAN_PCFG n)) f.fmt = true ∧ s.canErr n < 2 ∧ f.data.length ≤ 2048 ∧ s.portUp n :=
  ⟨(live.setSh (R.CAN_PCFG 15) 1) |>.setSh (R.CAN_STAT 15) 0, 15, ⟨5, false, false, 0, false, false, false, 0, 0, 0, 2, [1,2], 1000⟩, 300, inv_of (by decide +kernel), by decide +kernel, by decide +kernel, by decide +kernel, by decide +kernel, by decide +kernel, by decide +kernel, by unfold State.portUp; decide +kernel⟩
theorem witness_CanAndLinEvents_1 : ∃ (s : State) (l : Lane) (who : Initiator) (n : Nat), s.Inv ∧ s.mayWrite l 11 who = true ∧ n < 16 ∧ (∀ m ∈ (s.canRx l n).shadow, m.hdr.length ≤ 8 ∧ m.data.length ≤ 2048) :=
  ⟨(live) |>.setSh (R.CAN_STAT 15) 0, .E, .elder, 15, inv_of (by decide +kernel), by decide +kernel, by decide +kernel, by decide +kernel⟩
theorem witness_CanAndLinEvents_2 : ∃ (s : State) (l : Lane) (who : Initiator), s.Inv ∧ s.mayWrite l 11 who = true :=
  ⟨({ live with now := 0x123456789AB }) |>.setSh (R.CAN_STAT 15) 0, .E, .elder, inv_of (by decide +kernel), by decide +kernel⟩
theorem witness_CanAndLinEvents_3 : ∃ (s : State) (n : Nat) (l : Lane) (seq : Nat) (differs : Bool) (x : CanTx), s.Inv ∧ n < 16 ∧ s.cmn.up = true ∧ s.mod_.frozen = false ∧ s.takesFrames l = true ∧ List.find? (fun u ↦ u.seq == seq) (s.canPort n).held = some x ∧ seqAhead16 seq (s.shFld (R.CAN_TXQ n) F.CAN_TXQ_LAST_SEQ) = true ∧ (s.canPort n).queue.length < 32 ∧ s.arb.held = some l :=
  ⟨((live.setSh (R.CAN_PCFG 15) 1).setCanPort 15 { live.canPort 15 with held := [⟨7, (List.replicate 16 0), [], none, none, none⟩] }) |>.setSh (R.CAN_STAT 15) 0, 15, .E, 7, false, ⟨7, (List.replicate 16 0), [], none, none, none⟩, inv_of (by decide +kernel), by decide +kernel, by decide +kernel, by decide +kernel, by decide +kernel, by decide +kernel, by decide +kernel, by decide +kernel, by decide +kernel⟩
theorem witness_CanAndLinEvents_4 : ∃ (s : State) (n : Nat) (l : Lane) (seq : Nat) (differs : Bool), s.Inv ∧ n < 16 ∧ s.cmn.up = true ∧ s.mod_.frozen = false ∧ s.takesFrames l = true ∧ List.find? (fun u ↦ u.seq == seq) (s.canPort n).held = none ∧ (differs = true → (s.canPort n).last = none) :=
  ⟨(live.setSh (R.CAN_PCFG 15) 0x81) |>.setSh (R.CAN_STAT 15) 0, 15, .E, 0, false, inv_of (by decide +kernel), by decide +kernel, by decide +kernel, by decide +kernel, by decide +kernel, by decide +kernel, by decide +kernel⟩
theorem witness_CanAndLinEvents_5 : ∃ (s : State) (n : Nat) (stamp : Nat) (tec : Nat) (x : CanTx), s.Inv ∧ n < 16 ∧ s.cmnRuns = true ∧ s.canCurrent n = some x :=
  ⟨({ (live.setSh (R.CAN_PCFG 15) 0x41).setCanPort 15 { live.canPort 15 with queue := [⟨7, (List.replicate 16 0), [3], some 5, none, none⟩, ⟨8, (List.replicate 16 0), [3], some 6, none, none⟩], cur := some 7 } with led := { live.led with entries := [entX 5], nextLsn := 9 } }) |>.setSh (R.CAN_STAT 15) 0, 15, 5, 300, ⟨7, (List.replicate 16 0), [3], some 5, none, none⟩, inv_of (by decide +kernel), by decide +kernel, by decide +kernel, by decide +kernel⟩
theorem witness_CanAndLinEvents_6 : ∃ (s : State) (n : Nat) (tec : Nat) (rec : Nat) (x : CanTx) (lec : Nat), s.Inv ∧ n < 16 ∧ s.cmnRuns = true ∧ s.canCurrent n = some x ∧ lec < 8 :=
  ⟨({ (live.setSh (R.CAN_PCFG 15) 0x41).setCanPort 15 { live.canPort 15 with queue := [⟨7, (List.replicate 16 0), [3], some 5, none, none⟩, ⟨8, (List.replicate 16 0), [3], some 6, none, none⟩], cur := some 7 } with led := { live.led with entries := [entX 5], nextLsn := 9 } }) |>.setSh (R.CAN_STAT 15) 0, 15, 256, 3, ⟨7, (List.replicate 16 0), [3], some 5, none, none⟩, 7, inv_of (by decide +kernel), by decide +kernel, by decide +kernel, by decide +kernel, by decide +kernel⟩
theorem witness_CanAndLinEvents_7 : ∃ (s : State) (n : Nat), s.Inv ∧ n < 16 ∧ s.cmnRuns = true :=
  ⟨({ (live.setSh (R.CAN_STAT 15) 0xFFFF000C) with canWork := [(5, 0x8000)], led := { live.led with entries := [entX 5], nextLsn := 9 } }) |>.setSh (R.CAN_STAT 15) 0xFFFF000C, 15, inv_of (by decide +kernel), by decide +kernel, by decide +kernel⟩
theorem witness_CanAndLinEvents_8 : ∃ (s : State) (n : Nat) (seen : CanSeen), s.Inv ∧ n < 16 ∧ s.cmnRuns = true ∧ (s.canTrx n = 2 ∨ s.canTrx n = 3) ∧ s.portCove n = none :=
  ⟨(live.setSh (R.CAN_STAT 15) 2).setSh (R.CAN_TRX 15) 0x10, 15, .dominant, inv_of (by decide +kernel), by decide +kernel, by decide +kernel, by decide +kernel, by decide +kernel⟩
theorem witness_CanAndLinEvents_9 : ∃ (s : State) (n : Nat), s.Inv ∧ n < 16 ∧ s.cmnRuns = true :=
  ⟨{ (live.setSh (R.CAN_PCFG 15) 0x41).setCanPort 15 { live.canPort 15 with phyTest := true, queue := [⟨7, (List.replicate 16 0), [3], some 5, none, none⟩], held := [⟨8, (List.replicate 16 0), [3], some 6, none, none⟩], cur := some 7 } with canWork := [(7, 0x8001)], led := { live.led with entries := [entX 5, entX 6, entX 7], nextLsn := 9 } }, 15, inv_of (by decide +kernel), by decide +kernel, by decide +kernel⟩
theorem witness_CanAndLinEvents_10 : ∃ (s : State) (p : Nat), s.Inv ∧ p < 8 ∧ s.linMaySend = true ∧ s.linCommander p = true ∧ s.shBit (R.LIN_SCHED p) F.LIN_SCHED_EN = true ∧ s.linSt p ≠ 1 ∧ (s.lin p).pulseEnd = none :=
  ⟨(live.setSh (R.LIN_SCHED 7) 0x0103).setSh (R.LIN_SLOT 7 1) 0x3F |>.setLin 7 { live.lin 7 with slot := 1 }, 7, inv_of (by decide +kernel), by decide +kernel, by decide +kernel, by decide +kernel, by decide +kernel, by decide +kernel, by decide +kernel⟩
theorem witness_CanAndLinEvents_11 : ∃ (s : State) (p : Nat), (s.linMaySend = false ∨ s.linCommander p = false ∨ s.shBit (R.LIN_SCHED p) F.LIN_SCHED_EN = false ∨ s.linSt p = 1 ∨ (s.lin p).pulseEnd.isSome = true) :=
  ⟨live, 7, by decide +kernel⟩
theorem witness_CanAndLinEvents_12 : ∃ (s : State) (p : Nat) (pid : Nat) (e : LinEnd), s.Inv ∧ p < 8 ∧ pid < 64 ∧ s.cmnRuns = true ∧ s.linSt p ≠ 1 ∧ s.portUp (16 + p) ∧ e.err < 8 :=
  ⟨live.setSh (R.LIN_FR_CFG 7 63) 0x85, 7, 63, ⟨3, [], 5, true⟩, inv_of (by decide +kernel), by decide +kernel, by decide +kernel, by decide +kernel, by decide +kernel, by unfold State.portUp; decide +kernel, by decide +kernel⟩
theorem witness_CanAndLinEvents_13 : ∃ (s : State) (p : Nat), s.Inv ∧ p < 8 ∧ s.cmnRuns = true :=
  ⟨(live.setShFld (R.LIN_STAT 7) F.LIN_STAT_STATE 1).setSh (R.CAN_INH_MAP 3) 0x800000, 7, inv_of (by decide +kernel), by decide +kernel, by decide +kernel⟩
theorem witness_EthAndTimeCommands_0 : ∃ (s : State) (r : Req), Ready specEthStatus s r :=
  ⟨live.setReg .E (R.ETHS_MIR_CNT 15 3) 77, req 0x700 (.func 0) [14,2], ready_of (by decide +kernel)⟩
theorem witness_EthAndTimeCommands_1 : ∃ (s : State) (r : Req), Ready specEthPortConfig s r :=
  ⟨live, req 0x701 (.func 0) ([0,0,0,0, 1,0,0,0, 0xE8,3,0,0, 1,0,0,0, 2,0,0,0, 3,0,0,0, 4,0,0,0, 5,0,0,0]), ready_of (by decide +kernel)⟩
theorem witness_EthAndTimeCommands_2 : ∃ (s : State) (r : Req), Ready specEthGclSet s r :=
  ⟨gb live (R.ETHS_P_CFG 15) 0x11, req 0x702 (.func 0) [15,0,2,0, 1,1,0,0, 2,2,0,0], ready_of (by decide +kernel)⟩
theorem witness_EthAndTimeCommands_3 : ∃ (s : State) (r : Req), Ready specEthStreamSet s r :=
  ⟨live, req 0x703 (.startup 0) ([255,0,255,1, 1,2,3,4, 5,6,7,0, 1,0,0,0, 0,0,0,0, 255,1,0xF1,0x7F, 64,0,0,0, 0,0,0,0, 0,0,0,0, 1,0,0,0, 2,0,0,0, 3,0,0,0, 4,0,0,0]), ready_of (by decide +kernel)⟩
theorem witness_EthAndTimeCommands_4 : ∃ (s : State) (r : Req), Ready specEthFrerSet s r :=
  ⟨live, req 0x704 (.func 0) [127,0,0,0, 1,0,3,0x3E], ready_of (by decide +kernel)⟩
theorem witness_EthAndTimeCommands_5 : ∃ (s : State) (r : Req), Ready specEthMacsecSa s r :=
  ⟨(gs (gs live (R.ETHS_P_CFG 1) 0x80)  0 0).setReg .E (R.LHS_KEY_INFO 7) 0xFFFFFFFF, req 0x705 .smb0 ([1,1,7,1,7,0,0,0] ++ [1,2,3,4,5,6,7,8] ++ [9,0,0,0,0,0,0,0] ++ [1,0,0,0]), ready_of (by decide +kernel)⟩
theorem witness_EthAndTimeCommands_6 : ∃ (s : State) (r : Req), Ready specEthCtrlClass s r :=
  ⟨live, req 0x706 (.func 0) [0,0x40,1,0], ready_of (by decide +kernel)⟩
theorem witness_EthAndTimeCommands_7 : ∃ (s : State) (r : Req), Ready specTc10Wake s r :=
  ⟨live.setSh (R.ETHS_P_STAT 9) 1, req 0x707 (.func 0) [0,2], ready_of (by decide +kernel)⟩
theorem witness_EthAndTimeCommands_8 : ∃ (s : State) (r : Req), Ready specTimeStatus s r :=
  ⟨live.setTb 3 ⟨2^80 + 12345678901234567890123, .zero, 0, false⟩, req 0x708 (.func 0) [3], ready_of (by decide +kernel)⟩
theorem witness_EthAndTimeCommands_9 : ∃ (s : State) (r : Req), Ready specTimeConfig s r :=
  ⟨live, req 0x709 (.func 0) [3,0,0,0, 1,0,0,0, 1,0,0,0, 1,0,0,0, 5,0,0,0], ready_of (by decide +kernel)⟩
theorem witness_EthAndTimeCommands_10 : ∃ (s : State) (r : Req), Ready specTimeSet s r :=
  ⟨live.setSh (R.TIME_TB_STAT 3) 1, req 0x70A (.func 0) [3,0, 1,2,3,4,5,6, 7,0,0,0], ready_of (by decide +kernel)⟩
theorem witness_EthAndTimeCommands_11 : ∃ (s : State) (r : Req), Ready specTimeComp s r :=
  ⟨live, req 0x70B (.func 0) [9,0,0,0, 1,0,0,0, 1,0,0,0, 5,0,0,0], ready_of (by decide +kernel)⟩
theorem witness_EthAndTimeCommands_12 : ∃ (s : State) (r : Req), Ready specTimeCapture s r :=
  ⟨live.setSh (R.TIME_TB_XCAP 3 4) 77, req 0x70C (.func 0) [3], ready_of (by decide +kernel)⟩
theorem witness_TimeBasesAndEthernetPorts_0 : ∃ (s : State) (l : Lane) (who : Initiator) (n : Nat) (hi : Word), s.Inv ∧ s.mayWrite l 14 who = true ∧ n < 4 ∧ s.pendCommit 14 (20 + n) Lane.E = none :=
  ⟨live, .E, .elder, 3, 1, inv_of (by decide +kernel), by decide +kernel, by decide +kernel, by decide +kernel⟩
theorem witness_TimeBasesAndEthernetPorts_1 : ∃ (s : State) (l : Lane) (who : Initiator) (n : Nat) (hi : Word), s.Inv ∧ s.mayWrite l 14 who = true ∧ n < 4 :=
  ⟨(tbr 2 0x0 0x1000100).setSh (R.TIME_TB_SET_SLO 2) 0x10, .E, .elder, 2, 0x8000FFFF, inv_of (by decide +kernel), by decide +kernel, by decide +kernel⟩
theorem witness_TimeBasesAndEthernetPorts_2 : ∃ (s : State) (l : Lane) (who : Initiator) (n : Nat), s.Inv ∧ s.mayWrite l 14 who = true ∧ n < 4 :=
  ⟨live.setTb 3 ⟨2^80 + 12345678901234567890123, .zero, 0, false⟩, .E, .elder, 3, inv_of (by decide +kernel), by decide +kernel, by decide +kernel⟩
theorem witness_TimeBasesAndEthernetPorts_3 : ∃ (s : State) (l : Lane) (who : Initiator) (n : Nat) (hi : Word), s.mayWrite l 14 who = false :=
  ⟨live, .E, .func 4, 3, 4, by decide +kernel⟩
theorem witness_TimeBasesAndEthernetPorts_4 : ∃ (s : State) (n : Nat), s.Inv ∧ n < 4 ∧ s.cmnRuns = true ∧ s.tbRunning n = true :=
  ⟨tbr 3 0 0, 3, inv_of (by decide +kernel), by decide +kernel, by decide +kernel, by decide +kernel⟩
theorem witness_TimeBasesAndEthernetPorts_5 : ∃ (s : State) (n : Nat), s.Inv ∧ n < 4 ∧ s.cmnRuns = true ∧ s.tbRunning n = true :=
  ⟨tbr 3 0 0, 3, inv_of (by decide +kernel), by decide +kernel, by decide +kernel, by decide +kernel⟩
theorem witness_TimeBasesAndEthernetPorts_6 : ∃ (s : State) (n : Nat), s.tbRunning n = false :=
  ⟨live, 3, by decide +kernel⟩
theorem witness_TimeBasesAndEthernetPorts_7 : ∃ (s : State) (p : Nat) (up : Bool), s.Inv ∧ p < 14 ∧ s.cmn.up = true :=
  ⟨ebuf 13 none, 13, false, inv_of (by decide +kernel), by decide +kernel, by decide +kernel⟩
theorem witness_TimeBasesAndEthernetPorts_8 : ∃ (s : State) (p : Nat), s.Inv ∧ p < 14 ∧ s.cmn.up = true :=
  ⟨{ ebuf 13 none with eth := { (ebuf 13 none).eth with phyTest := 0x3FFF } }, 13, inv_of (by decide +kernel), by decide +kernel, by decide +kernel⟩
theorem witness_TimeBasesAndEthernetPorts_9 : ∃ (s : State) (p : Nat), s.cmn.up = false :=
  ⟨{ live with cmn := .reset }, 13, by decide +kernel⟩
theorem witness_TimeBasesAndEthernetPorts_10 : ∃ (s : State) (i : Nat), i < 128 ∧ s.cmnRuns = true :=
  ⟨{ live with eth := { live.eth with frRec := [(127, ⟨some 77, 1⟩), (3, ⟨none, 1⟩)] } }, 127, by decide +kernel, by decide +kernel⟩
theorem witness_TimeBasesAndEthernetPorts_11 : ∃ (s : State) (p : Nat), s.Inv ∧ p < 10 ∧ s.cmn.up = true :=
  ⟨live, 9, inv_of (by decide +kernel), by decide +kernel, by decide +kernel⟩
theorem witness_TimeBasesAndEthernetPorts_12 : ∃ (s : State) (p : Nat), s.Inv ∧ p < 10 ∧ s.cmnRuns = true :=
  ⟨live, 9, inv_of (by decide +kernel), by decide +kernel, by decide +kernel⟩
theorem witness_EthernetFrames_0 : ∃ (s : State) (p : Nat) (f : EthFrame), s.Inv ∧ p < 14 ∧ s.cmnRuns = true ∧ s.ethPort p F.ETHS_P_CFG_EN = 1 ∧ s.ethStat p F.ETHS_P_STAT_LINK = true ∧ f.len ≤ 1522 ∧ s.portUp (24 + p) :=
  ⟨ethup, 13, ⟨5, 6, 1, 3, 0x800, none, none, 1522, [1,2], none⟩, inv_of (by decide +kernel), by decide +kernel, by decide +kernel, by decide +kernel, by decide +kernel, by decide +kernel, by unfold State.portUp; decide +kernel⟩
theorem witness_EthernetFrames_1 : ∃ (s : State) (p : Nat) (f : EthFrame), (s.cmnRuns = false ∨ s.ethPort p F.ETHS_P_CFG_EN = 0 ∨ s.ethStat p F.ETHS_P_STAT_LINK = false) :=
  ⟨live, 3, ⟨5, 6, 1, 7, 0x800, some 77, none, 65, [1,2], none⟩, by decide +kernel⟩
theorem witness_EthernetFrames_2 : ∃ (s : State) (l : Lane) (h : EthHeld), s.Inv ∧ List.find? (fun x ↦ x.lane == l) s.eth.held = some h ∧ s.cmnRuns = true ∧ s.takesFrames l = true :=
  ⟨{ ethup with eth := { ethup.eth with held := [lfr .W none] } }, .W, lfr .W none, inv_of (by decide +kernel), by decide +kernel, by decide +kernel, by decide +kernel⟩
theorem witness_EthernetFrames_3 : ∃ (s : State) (l : Lane), List.find? (fun x ↦ x.lane == l) s.eth.held = none :=
  ⟨live, .W, by decide +kernel⟩
theorem witness_EthernetFrames_4 : ∃ (s : State) (p : Nat) (b : EthBuf), s.Inv ∧ p < 16 ∧ s.eth.bufs = [b] ∧ b.ports = 2 ^ p ∧ b.sent = 0 ∧ s.cmnRuns = true ∧ s.mod_.frozen = false ∧ s.ethPort p F.ETHS_P_CFG_EN = 1 ∧ ((if 14 ≤ p then s.takesFrames (ilLane p) else s.ethStat p F.ETHS_P_STAT_LINK && !s.ethStat p F.ETHS_P_STAT_PHY_FAULT) = true) :=
  ⟨ebuf 13 none, 13, ebf 13 none, inv_of (by decide +kernel), by decide +kernel, by decide +kernel, by decide +kernel, by decide +kernel, by decide +kernel, by decide +kernel, by decide +kernel, by decide +kernel⟩
theorem witness_EthernetFrames_5 : ∃ (s : State) (p : Nat), s.Inv ∧ p < 16 ∧ s.cmnRuns = true ∧ s.eth.gcl.length = 16 ∧ s.gclRuns p = true :=
  ⟨((ebuf 3 none).setSh (R.ETHS_P_CFG 3) 0x71).setSh (R.TIME_TB_STAT 3) 1, 3, inv_of (by decide +kernel), by decide +kernel, by decide +kernel, by decide +kernel, by decide +kernel⟩
theorem witness_HarbourCommands_0 : ∃ (s : State) (r : Req), Ready specHarbStatus s r :=
  ⟨live.setReg .E (R.HARB_CNT 7) 4, req 0x800 (.func 0) [], ready_of (by decide +kernel)⟩
theorem witness_HarbourCommands_1 : ∃ (s : State) (r : Req), Ready specHarbPduDefine s r :=
  ⟨live, req 0x801 (.func 0) ([255,15,0,0] ++ wordBytes 0x00800001 ++ wordBytes 7 ++ wordBytes 0 ++ wordBytes 64 ++ wordBytes 0 ++ wordBytes 0 ++ [0,0,0,0,0,0,0,0]), ready_of (by decide +kernel)⟩
theorem witness_HarbourCommands_2 : ∃ (s : State) (r : Req), Ready specHarbRouteSet s r :=
  ⟨live, req 0x802 (.startup 0) ([255,63,1,0] ++ (List.replicate 48 0)), ready_of (by decide +kernel)⟩
theorem witness_HarbourCommands_3 : ∃ (s : State) (r : Req), Ready specHarbEndpoint s r :=
  ⟨live, req 0x803 (.func 0) ([63,0,0,0] ++ wordBytes 1 ++ wordBytes 7 ++ wordBytes 0 ++ wordBytes 64 ++ wordBytes 77 ++ wordBytes 5 ++ [0,0,0,0,0,0,0,0]), ready_of (by decide +kernel)⟩
theorem witness_HarbourCommands_4 : ∃ (s : State) (r : Req), Ready specHarbPduSend s r :=
  ⟨pdu live 9 1 0 3 7 8 32 0 0 4 2, req 0x804 (.func 0) [9,0], ready_of (by decide +kernel)⟩
theorem witness_HarbourCommands_5 : ∃ (s : State) (r : Req), Ready specHarbPduRead s r :=
  ⟨(ask (pdu live 9 1 0 3 7 8 32 0 0 4 2) 9 (px (some (ax 0)))).setImgByte .E 38 77, req 0x805 (.func 0) [9,0,4,0,3,0,0,0], ready_of (by decide +kernel)⟩
theorem witness_HarbourCommands_6 : ∃ (s : State) (r : Req), Ready specHarbRouteStatus s r :=
  ⟨live.setRoute .E ⟨16383, true, true, 65535, 7⟩, req 0x806 (.func 0) [254,63,2,0], ready_of (by decide +kernel)⟩
theorem witness_HarbourTraffic_0 : ∃ (s : State) (l : Lane) (x : HarbIn) (xs : List HarbIn), s.Inv ∧ s.harbIn l = x :: xs ∧ x.mark = false ∧ s.harbRuns l = true ∧ Memory.wf (s.harb l).ram = true :=
  ⟨hin live [⟨false, 0, 3, 7, [1,2,3], 77⟩], .E, ⟨false, 0, 3, 7, [1,2,3], 77⟩, [], inv_of (by decide +kernel), by decide +kernel, by decide +kernel, by decide +kernel, by decide +kernel⟩
theorem witness_HarbourTraffic_1 : ∃ (s : State) (l : Lane), s.harbIn l = [] :=
  ⟨live, .W, by decide +kernel⟩
theorem witness_HarbourTraffic_2 : ∃ (s : State) (l : Lane) (stamp : Nat), s.Inv ∧ s.harbRuns l = true ∧ s.cmnRuns = true :=
  ⟨hin live [⟨false, 0, 3, 7, [1,2,3], 77⟩], .E, 7, inv_of (by decide +kernel), by decide +kernel, by decide +kernel⟩
theorem witness_HarbourTraffic_3 : ∃ (s : State) (l : Lane) (i : Nat) (a : HarbAsk), s.Inv ∧ s.harbRuns l = true ∧ (s.pduRt l i).ask = some a ∧ (s.pduRt l i).kept = [] ∧ (s.pduRt l i).deferred = false ∧ pduOn (s.reg l) i = true :=
  ⟨ask (tx9 0 15 8 0) 9 (px (some (ax 1))), .E, 9, ax 1, inv_of (by decide +kernel), by decide +kernel, by decide +kernel, by decide +kernel, by decide +kernel, by decide +kernel⟩
theorem witness_HarbourTraffic_4 : ∃ (s : State) (l : Lane) (i : Nat), s.Inv ∧ s.harbRuns l = true ∧ (s.pduRt l i).kept = [] ∧ ((s.pduRt l i).ask = none ∨ (s.pduRt l i).deferred = true) :=
  ⟨live, .E, 9, inv_of (by decide +kernel), by decide +kernel, by decide +kernel, by decide +kernel⟩
theorem witness_HarbourTraffic_5 : ∃ (s : State) (l : Lane) (i : Nat), s.Inv ∧ s.harbRuns l = true :=
  ⟨ask (tx9 0 15 8 0) 9 { (px (some (ax 1))) with sent := some 0 }, .E, 9, inv_of (by decide +kernel), by decide +kernel⟩
theorem witness_CausewayCommands_0 : ∃ (s : State) (r : Req), Ready specCwWindow s r :=
  ⟨live, req 0x810 (.func 0) ([63,0,0,0] ++ wordBytes 0x1F3FFFE3 ++ wordBytes 0xFFFFE000 ++ wordBytes 77 ++ wordBytes 0x00100000 ++ wordBytes 0x00100010 ++ wordBytes 0 ++ wordBytes 0), ready_of (by decide +kernel)⟩
theorem witness_CausewayCommands_1 : ∃ (s : State) (r : Req), Ready specCwNodes s r :=
  ⟨live.setReg .E (R.CWY_NODE 255 7) 77, req 0x811 (.func 0) [254,2], ready_of (by decide +kernel)⟩
theorem witness_CausewayCommands_2 : ∃ (s : State) (r : Req), Ready specCwErrors s r :=
  ⟨{ (gb (live.setReg .E (R.CWY_ERR 0 3) 77) R.CWY_ERR_HEAD 63) with cw := { live.cw with fill := 3 } }, req 0x812 (.func 0) [2], ready_of (by decide +kernel)⟩
theorem witness_CausewayCommands_3 : ∃ (s : State) (r : Req), Ready specCwFenceAck s r :=
  ⟨gb (gb live (R.CWY_W_CFG 63) 1) (R.CWY_W_STAT 63) 1, req 0x813 (.func 0) [0,0,0,0,0,0,0,0x80], ready_of (by decide +kernel)⟩
theorem witness_CausewayCommands_4 : ∃ (s : State) (r : Req), Ready specCwWrite s r ∧ s.cwRuns (s.holderOr r.lane) = true ∧ s.leaseValid (s.holderOr r.lane) = true ∧ s.cw.wait = [] ∧ s.cwRoom { lane := s.holderOr r.lane, origin := s.holderOr r.lane, fn := none, lsn := some s.led.nextLsn, win := r.u8 0, seq := s.nextSeq (s.holderOr r.lane) (r.u8 0), write := true, posted := postedAt (s.reg (s.holderOr r.lane)) (r.u8 0) (r.u32 4) (r.u16 2), ofs := r.u32 4, len := r.u16 2, data := r.bytes 8 (r.u16 2), block := none } = true :=
  ⟨gb (gb live (R.CWY_W_CFG 63) 1) (R.CWY_W_RNG 63 1) 0x60000004, req 0x814 (.func 0) [63,0,3,0, 4,0,0,0, 9,8,7], ready_of (by decide +kernel), by decide +kernel, by decide +kernel, by decide +kernel, by decide +kernel⟩
theorem witness_CausewayCommands_5 : ∃ (s : State) (l : Lane) (who : Initiator) (w : Nat) (head : Nat), s.Inv ∧ s.cwRuns l = true ∧ s.mayWrite l 16 who = true :=
  ⟨gb live (R.CWY_W_STAT 63) 1, .W, .elder, 63, 5, inv_of (by decide +kernel), by decide +kernel, by decide +kernel⟩
theorem witness_CausewayCommands_6 : ∃ (s : State) (l : Lane) (who : Initiator) (w : Nat) (head : Nat), s.mayWrite l 16 who = false :=
  ⟨live, .W, .func 3, 63, 65, by decide +kernel⟩
theorem witness_CausewayCommands_7 : ∃ (s : State) (l : Lane), s.leaseLane = some l ∧ s.cwRuns l = true :=
  ⟨live.setSh (R.CAN_PCFG 15) 4, .E, by decide +kernel, by decide +kernel⟩
theorem witness_CausewayCommands_8 : ∃ (s : State) (l : Lane) (node : Nat) (port : Option Nat) (addr : List Word) (ranges : List (Nat × Nat × Bool)) (crc : Word), s.Inv ∧ s.leaseLane = some l ∧ s.cwRuns l = true ∧ s.cw.wait = [] :=
  ⟨live, .E, 300, some 15, [1,2,3], [(1,2,true)], 77, inv_of (by decide +kernel), by decide +kernel, by decide +kernel, by decide +kernel⟩
theorem witness_CausewayCommands_9 : ∃ (s : State) (i : Nat), s.Inv ∧ i < 256 ∧ s.cwNodeSt Lane.E i = 1 ∧ s.mod_.frozen = false :=
  ⟨gb (gb (gb live (R.CWY_NODE 7 0) 0x2C01) (R.CWY_NODE 7 1) 77) (R.CWY_W_CFG 63) 0x701, 7, inv_of (by decide +kernel), by decide +kernel, by decide +kernel, by decide +kernel⟩
theorem witness_CausewayCommands_10 : ∃ (s : State) (l : Lane) (node : Nat), s.Inv ∧ s.leaseLane = some l ∧ s.cwRuns l = true :=
  ⟨{ (gb live (R.CWY_NODE 7 0) 0x2C01) with now := 99, cw := { live.cw with nodes := [⟨7, [], 4⟩, ⟨8, [], 4⟩] } }, .E, 300, inv_of (by decide +kernel), by decide +kernel, by decide +kernel⟩
theorem witness_CausewayAccesses_0 : ∃ (s : State) (l : Lane) (who : Initiator) (addr : Nat) (size : Nat) (data : List Byte), (addr < 3775397888 ∨ s.cwGate l ((addr - 3775397888) / 8192) ((addr - 3775397888) % 8192) size who = CwGate.bad) :=
  ⟨live, .E, .func 3, 5, 4, [], by decide +kernel⟩
theorem witness_CausewayAccesses_1 : ∃ (s : State) (l : Lane) (who : Initiator) (w : Nat) (ofs : Nat) (size : Nat) (data : List Byte), s.Inv ∧ ofs < 8192 ∧ w < 64 :=
  ⟨gb live (R.CWY_W_CFG 63) 1, .E, .func 3, 63, 0, 4, [1], inv_of (by decide +kernel), by decide +kernel, by decide +kernel⟩
theorem witness_CausewayAccesses_2 : ∃ (s : State) (l : Lane) (node : Nat) (ty : Nat) (win : Nat) (seq : Nat) (status : Nat) (data : List Byte), s.Inv ∧ s.cwRuns l = true ∧ s.cw.wait = [] :=
  ⟨live, .E, 0, 4, 63, 5, 0, [1], inv_of (by decide +kernel), by decide +kernel, by decide +kernel⟩
theorem witness_CausewayAccesses_3 : ∃ (s : State) (l : Lane) (win : Nat) (seq : Nat) (a : CwAcc), s.Inv ∧ s.cwRuns l = true ∧ s.cw.wait = [] ∧ s.cw.out = [a] ∧ a.lane = l ∧ a.win = win ∧ a.seq = seq ∧ a.relay = none ∧ a.posted = false :=
  ⟨{ wents live [7] with cw := { live.cw with out := [⟨.E, .E, none, some 7, 63, 5, true, false, 0, 3, [1,2,3], none, none⟩] } }, .E, 63, 5, ⟨.E, .E, none, some 7, 63, 5, true, false, 0, 3, [1,2,3], none, none⟩, inv_of (by decide +kernel), by decide +kernel, by decide +kernel, by decide +kernel, by decide +kernel, by decide +kernel, by decide +kernel, by decide +kernel, by decide +kernel⟩
theorem witness_CausewayAccesses_4 : ∃ (s : State) (a : CwAcc), s.Inv ∧ s.mod_.frozen = false ∧ s.cw.wait = [a] ∧ a.relay = none :=
  ⟨{ wents live [7] with cw := { live.cw with wait := [⟨.E, .E, none, some 7, 63, 5, true, false, 0, 3, [1,2,3], none, none⟩] } }, ⟨.E, .E, none, some 7, 63, 5, true, false, 0, 3, [1,2,3], none, none⟩, inv_of (by decide +kernel), by decide +kernel, by decide +kernel, by decide +kernel⟩
theorem witness_CausewayAccesses_5 : ∃ (s : State) (l : Lane) (win : Nat), s.Inv ∧ s.cwRuns l = true :=
  ⟨{ live with cw := { live.cw with blks := [⟨.E, 63, 4, [1,2,3], [5]⟩] } }, .E, 63, inv_of (by decide +kernel), by decide +kernel⟩
theorem witness_NmsCommands_0 : ∃ (s : State) (r : Req), Ready specNmsStatus s r :=
  ⟨(live.setReg .E (R.NMS_MIR_COVE 7 0) 77).setReg .E R.NMS_MIR_WAKE_PENDING 9, req 0x900 (.func 0) [], ready_of (by decide +kernel)⟩
theorem witness_NmsCommands_1 : ∃ (s : State) (r : Req), Ready specNmsCoveConfig s r :=
  ⟨live, req 0x901 (.smb0) ([7,0,0,0] ++ wordBytes 0x0700014B ++ wordBytes 0x0A140096 ++ wordBytes 0x310 ++ wordBytes 0x10005), ready_of (by decide +kernel)⟩
theorem witness_NmsCommands_2 : ∃ (s : State) (r : Req), Ready specNmsMembers s r :=
  ⟨live, req 0x902 (.smb0) ([7,14,3,0] ++ wordBytes 0x20021 ++ wordBytes 5 ++ wordBytes 6 ++ wordBytes 0x20022 ++ wordBytes 5 ++ wordBytes 6 ++ wordBytes 0x20023 ++ wordBytes 5 ++ wordBytes 6), ready_of (by decide +kernel)⟩
theorem witness_NmsCommands_3 : ∃ (s : State) (r : Req), Ready specNmsPortCove s r :=
  ⟨live, req 0x903 (.smb0) (wordBytes 0xBA18FF01 ++ wordBytes 1 ++ wordBytes 2 ++ wordBytes 3 ++ wordBytes 4 ++ wordBytes 0x3FFFF), ready_of (by decide +kernel)⟩
theorem witness_NmsCommands_4 : ∃ (s : State) (r : Req), Ready specNmsCurfew s r :=
  ⟨live.setSh (R.NMS_COVE_CFG0 7) 1, req 0x904 (.func 0) [0x80], ready_of (by decide +kernel)⟩
theorem witness_NmsCommands_5 : ∃ (s : State) (r : Req), Ready specNmsKeep s r :=
  ⟨live, req 0x905 (.func 0) [0x80,1], ready_of (by decide +kernel)⟩
theorem witness_NmsCommands_6 : ∃ (s : State) (r : Req), Ready specNmsWake s r :=
  ⟨live, req 0x906 (.func 0) [0xFF], ready_of (by decide +kernel)⟩
theorem witness_NmsCommands_7 : ∃ (s : State) (r : Req), Ready specNmsLog s r :=
  ⟨live.setSh (R.NMS_LOG 63 3) 88, req 0x907 (.func 0) [60,4], ready_of (by decide +kernel)⟩
theorem witness_CurfewAndDusk_0 : ∃ (s : State) (c : Nat), (s.Inv ∧ c < 8 ∧ s.nms.coves.length = 8 ∧ s.cmnRuns = true ∧ s.coveEn c = true) ∧ s.shBit (R.NMS_COVE_CFG3 c) F.NMS_COVE_CFG3_AUTO_IDLE_EN = true ∧ (s.cove c).votes = [] ∧ s.coveSt c ≠ vASLEEP :=
  ⟨(cov 0 2 3 9 1 false).setSh (R.NMS_COVE_CFG3 7) 0x10005, 7, ⟨inv_of (by decide +kernel), by decide +kernel⟩, by decide +kernel, by decide +kernel, by decide +kernel⟩
theorem witness_CurfewAndDusk_1 : ∃ (s : State) (c : Nat), (s.Inv ∧ c < 8 ∧ s.nms.coves.length = 8 ∧ s.cmnRuns = true ∧ s.coveEn c = true) ∧ s.coveReq c = true ∧ s.coveSt c = vAWAKE ∧ (s.cove c).votes = [] ∧ s.nms.wakes = [] :=
  ⟨(cov 0 2 3 255 1 true), 7, ⟨inv_of (by decide +kernel), by decide +kernel⟩, by decide +kernel, by decide +kernel, by decide +kernel, by decide +kernel⟩
theorem witness_CurfewAndDusk_2 : ∃ (s : State) (c : Nat), (s.cove c).waiting = false :=
  ⟨live, 7, by decide +kernel⟩
theorem witness_CurfewAndDusk_3 : ∃ (s : State) (c : Nat) (q : Nat) (ty : Nat) (ring : Nat) (pos : Nat) (src : Nat) (reason : Nat) (crcOk : Bool), (s.Inv ∧ c < 8 ∧ s.nms.coves.length = 8 ∧ s.cmnRuns = true ∧ s.coveEn c = true) ∧ (s.coveSt c = vDUSK → ring = s.coveRing c) :=
  ⟨(cov 1 2 1 7 0 true), 7, 5, 3, 7, 1, 0x22, 5, true, ⟨inv_of (by decide +kernel), by decide +kernel⟩, by decide +kernel⟩
theorem witness_CurfewAndDusk_4 : ∃ (s : State) (c : Nat), (s.Inv ∧ c < 8 ∧ s.nms.coves.length = 8 ∧ s.cmnRuns = true ∧ s.coveEn c = true) ∧ s.coveSt c = vCURFEW ∧ s.nms.wakes = [] :=
  ⟨curf (cov 1 2 3 7 0 true), 7, ⟨inv_of (by decide +kernel), by decide +kernel⟩, by decide +kernel, by decide +kernel⟩
theorem witness_CurfewAndDusk_5 : ∃ (s : State) (c : Nat) (fr : Option (Bool × Nat)), (s.Inv ∧ c < 8 ∧ s.nms.coves.length = 8 ∧ s.cmnRuns = true ∧ s.coveEn c = true) ∧ s.coveSt c = vDUSK ∧ s.nms.wakes = [] :=
  ⟨(cov 2 2 0 7 0 true), 7, some (false, 0x315), ⟨inv_of (by decide +kernel), by decide +kernel⟩, by decide +kernel, by decide +kernel⟩
theorem witness_CurfewAndDusk_6 : ∃ (s : State) (c : Nat), (s.Inv ∧ c < 8 ∧ s.nms.coves.length = 8 ∧ s.cmnRuns = true ∧ s.coveEn c = true) ∧ s.coveSt c = vDUSK :=
  ⟨(cov 2 2 0 7 0 true), 7, ⟨inv_of (by decide +kernel), by decide +kernel⟩, by decide +kernel⟩
theorem witness_CurfewAndDusk_7 : ∃ (s : State) (c : Nat), (s.Inv ∧ c < 8 ∧ s.nms.coves.length = 8 ∧ s.cmnRuns = true ∧ s.coveEn c = true) ∧ s.coveSt c = vFINAL ∧ s.mod_.asleep = false ∧ s.shBit R.NMS_STATUS F.NMS_STATUS_MOD_ENTERING = false ∧ s.shFld (R.NMS_COVE_CFG0 c) F.NMS_COVE_CFG0_FANOUT = 0 :=
  ⟨curf ((cov 3 2 0 7 0 true).setSh R.NMS_CFG 1), 7, ⟨inv_of (by decide +kernel), by decide +kernel⟩, by decide +kernel, by decide +kernel, by decide +kernel, by decide +kernel⟩
theorem witness_CurfewAndDusk_8 : ∃ (s : State) (c : Nat), (s.Inv ∧ c < 8 ∧ s.nms.coves.length = 8 ∧ s.cmnRuns = true ∧ s.coveEn c = true) ∧ s.mod_.asleep = false ∧ s.shBit R.NMS_STATUS F.NMS_STATUS_MOD_ENTERING = false ∧ s.shFld (R.NMS_COVE_CFG0 c) F.NMS_COVE_CFG0_FANOUT = 0 :=
  ⟨(cov 4 2 0 7 0 true), 7, ⟨inv_of (by decide +kernel), by decide +kernel⟩, by decide +kernel, by decide +kernel, by decide +kernel⟩
theorem witness_CurfewAndDusk_9 : ∃ (s : State) (d : Nat) (m : Nat), s.Inv ∧ d < 2 ∧ m < 112 ∧ s.mod_.asleep = true ∧ isDin (s.fMode d m) = true ∧ s.shBit (R.FCH_CFG d m) F.FCH_CFG_WAKE_EN = true :=
  ⟨(let s := (cov 4 2 0 7 0 true); let s := s.setShFld (R.FCH_CFG 1 111) F.FCH_CFG_WAKE_EN 1; let s := s.setShFld (R.FCH_CFG 1 111) F.FCH_CFG_MODE 1; { s.setSh R.NMS_CFG 0x8000 with mod_ := { s.mod_ with asleep := true } }), 1, 111, inv_of (by decide +kernel), by decide +kernel, by decide +kernel, by decide +kernel, by decide +kernel, by decide +kernel⟩
theorem witness_CurfewAndDusk_10 : ∃ (s : State) (c : Nat), (s.Inv ∧ c < 8 ∧ s.nms.coves.length = 8 ∧ s.cmnRuns = true ∧ s.coveEn c = true) ∧ s.coveSt c = vWAKING :=
  ⟨(cov 5 2 0 7 0 true), 7, ⟨inv_of (by decide +kernel), by decide +kernel⟩, by decide +kernel⟩
theorem witness_SuppliesAndStraps_0 : ∃ (s : State) (feed : Nat) (test : Bool), s.Inv :=
  ⟨State.reset, 3, false, inv_of (by decide +kernel)⟩
theorem witness_SuppliesAndStraps_1 : ∃ (s : State) (l : Lane) (mv : ℤ), s.Inv :=
  ⟨State.reset, .E, 12000, inv_of (by decide +kernel)⟩
theorem witness_SuppliesAndStraps_3 : ∃ (s : State) (l : Lane), s.Inv :=
  ⟨lm live (fun x => { x with holdup := true }), .E, inv_of (by decide +kernel)⟩
theorem witness_SuppliesAndStraps_4 : ∃ (s : State) (l : Lane) (straps : Nat), s.Inv ∧ (s.lane l).powered = true ∧ (s.lane l).holdup = true :=
  ⟨lm busy (fun x => { x with holdup := true }), .E, 0, inv_of (by decide +kernel), by decide +kernel, by decide +kernel⟩
theorem witness_SuppliesAndStraps_5 : ∃ (s : State) (l : Lane) (straps : Nat), s.Inv ∧ s.mod_.poweredOn = true ∧ s.mod_.asleep = false ∧ (s.lane l).thermOff = false ∧ (s.lane l).released = [] ∧ (s.lane l).resetting = some RLevel.por ∧ s.heldDown l = false :=
  ⟨mm { State.reset with laneE := { LaneRt.reset with resetting := some .por, released := [] } } (fun x => { x with poweredOn := true }), .E, 5, inv_of (by decide +kernel), by decide +kernel, by decide +kernel, by decide +kernel, by decide +kernel, by decide +kernel, by decide +kernel⟩
theorem witness_SuppliesAndStraps_6 : ∃ (s : State), s.Inv :=
  ⟨live.setSh R.NMS_WAKE_PENDING 3, inv_of (by decide +kernel)⟩
theorem witness_ThermalAndErrors_0 : ∃ (s : State) (l : Lane) (temp : ℤ), s.Inv ∧ (s.lane l).thermOff = false :=
  ⟨live, .E, 2000, inv_of (by decide +kernel), by decide +kernel⟩
theorem witness_ThermalAndErrors_1 : ∃ (s : State) (loc : Nat) (temp : ℤ), s.Inv ∧ 2 ≤ loc ∧ loc ≤ 5 ∧ s.mod_.therms.length = 4 :=
  ⟨mm live (fun x => { x with therms := x.therms.set 3 ⟨true, true, true⟩ }), 5, 1919, inv_of (by decide +kernel), by decide +kernel, by decide +kernel, by decide +kernel⟩
theorem witness_ThermalAndErrors_2 : ∃ (s : State) (l : Lane) (temp : ℤ), s.Inv ∧ 16 * 140 ≤ temp ∧ (s.lane l).powered = true ∧ (s.lane l).thermOff = false :=
  ⟨busy, .E, 2240, inv_of (by decide +kernel), by decide +kernel, by decide +kernel, by decide +kernel⟩
theorem witness_ThermalAndErrors_3 : ∃ (s : State) (temp : ℤ), s.Inv ∧ 16 * 140 ≤ temp :=
  ⟨live, 2240, inv_of (by decide +kernel), by decide +kernel⟩
theorem witness_ThermalAndErrors_4 : ∃ (s : State) (loc : Nat) (temp : ℤ), s.Inv ∧ 16 * 140 ≤ temp ∧ 3 ≤ loc ∧ loc ≤ 5 ∧ s.mod_.therms.length = 4 :=
  ⟨live, 4, 2240, inv_of (by decide +kernel), by decide +kernel, by decide +kernel, by decide +kernel, by decide +kernel⟩
theorem witness_ThermalAndErrors_5 : ∃ (s : State) (loc : Nat) (temp : ℤ), temp < 16 * 140 :=
  ⟨live, 4, 2239, by decide +kernel⟩
theorem witness_ThermalAndErrors_6 : ∃ (s : State) (l : Lane) (k : Nat), s.Inv ∧ (s.lane l).powered = true ∧ 1 ≤ k ∧ k ≤ 7 :=
  ⟨busy, .E, 7, inv_of (by decide +kernel), by decide +kernel, by decide +kernel, by decide +kernel⟩
theorem witness_ThermalAndErrors_7 : ∃ (s : State), s.Inv ∧ s.mod_.resetN = false ∧ s.mod_.poweredOn = true ∧ s.mod_.asleep = false :=
  ⟨busy, inv_of (by decide +kernel), by decide +kernel, by decide +kernel, by decide +kernel⟩
theorem witness_ThermalAndErrors_9 : ∃ (s : State) (l : Lane) (p : PendReset) (ps : List PendReset), s.Inv ∧ (s.lane l).powered = true ∧ (s.lane l).pendResets = p :: ps ∧ p.detail < 256 :=
  ⟨lm busy (fun x => { x with pendResets := [⟨.core, 0x31, 255, 9⟩] }), .E, ⟨.core, 0x31, 255, 9⟩, [], inv_of (by decide +kernel), by decide +kernel, by decide +kernel, by decide +kernel⟩
theorem witness_ThermalAndErrors_10 : ∃ (s : State) (l : Lane), (s.lane l).pendResets = [] :=
  ⟨live, .E, by decide +kernel⟩
theorem witness_FreezeAndSleep_0 : ∃ (s : State), s.Inv ∧ s.mod_.frozen = false ∧ s.mod_.poweredOn = true ∧ s.mod_.asleep = false :=
  ⟨inBench busy, inv_of (by decide +kernel), by decide +kernel, by decide +kernel, by decide +kernel⟩
theorem witness_FreezeAndSleep_1 : ∃ (s : State), s.Inv ∧ s.mod_.frozen = true :=
  ⟨mm (lm busy (fun x => { x with deferred := some .sys })) (fun x => { x with frozen := true }), inv_of (by decide +kernel), by decide +kernel⟩
theorem witness_FreezeAndSleep_2 : ∃ (s : State), s.mod_.frozen = false :=
  ⟨live, by decide +kernel⟩
theorem witness_FreezeAndSleep_3 : ∃ (s : State) (l : Lane), s.Inv :=
  ⟨(gb live R.RSTC_STATUS 2).setSh R.CVC_SEL_STATUS 0xFFFFFFFF, .E, inv_of (by decide +kernel)⟩
theorem witness_FreezeAndSleep_4 : ∃ (s : State) (l : Lane) (core : Nat), core < 8 ∧ s.quietOn = true ∧ s.ferry.quietStay = some l ∧ (s.lane l).elderUp = true :=
  ⟨lm { live with ferry := { live.ferry with quietStay := some .E } } (fun x => { x with retention := [0,1,2,3,4,5,6] }), .E, 7, by decide +kernel, by decide +kernel, by decide +kernel, by decide +kernel⟩
theorem witness_FreezeAndSleep_5 : ∃ (s : State) (l : Lane) (core : Nat), s.quietOn = false :=
  ⟨live, .E, 7, by decide +kernel⟩
theorem witness_FreezeAndSleep_6 : ∃ (s : State), s.Inv ∧ s.shBit R.NMS_STATUS F.NMS_STATUS_MOD_ENTERING = true :=
  ⟨((cov 4 2 0 7 0 true).setSh R.NMS_CFG 1).setShBit R.NMS_STATUS F.NMS_STATUS_MOD_ENTERING true, inv_of (by decide +kernel), by decide +kernel⟩
theorem witness_FreezeAndSleep_7 : ∃ (s : State), s.Inv ∧ s.mod_.asleep = true :=
  ⟨mm ((cov 4 2 0 7 0 true).setSh R.NMS_WAKE_PENDING 0x180) (fun x => { x with asleep := true, poweredOn := true }), inv_of (by decide +kernel), by decide +kernel⟩
theorem witness_FreezeAndSleep_8 : ∃ (s : State), s.mod_.asleep = false :=
  ⟨live, by decide +kernel⟩
theorem witness_ResetCommands_0 : ∃ (s : State) (r : Req), Ready specResetNonce s r :=
  ⟨live, req 0xD00 (.func 0) [], ready_of (by decide +kernel)⟩
theorem witness_ResetCommands_1 : ∃ (s : State) (r : Req), Ready specReset s r :=
  ⟨lm (strait live) (fun x => { x with nonces := [(live.streamOf .E (.func 0), 0, 0)] }), { req 0xD01 (.func 0) ([2,3,0,0] ++ List.replicate 40 0) with sigOk := true }, ready_of (by decide +kernel)⟩
theorem witness_ResetCommands_2 : ∃ (s : State) (r : Req), Ready specClockStatus s r :=
  ⟨(strait live).setReg .W (R.CLKC_DOM_STAT 7) 77, req 0xD02 (.func 0) [3], ready_of (by decide +kernel)⟩
theorem witness_ResetCommands_3 : ∃ (s : State) (r : Req), Ready specResetCause s r :=
  ⟨(live).setReg .E (R.RSTC_RST_CAUSE) 77, req 0xD03 (.func 0) [], ready_of (by decide +kernel)⟩
theorem witness_ResetCommands_4 : ∃ (s : State) (r : Req), Ready specBlockReset s r :=
  ⟨live, req 0xD04 .smb0 [1,11], ready_of (by decide +kernel)⟩
theorem witness_ResetCommands_5 : ∃ (s : State) (r : Req), Ready specWatchdogSet s r :=
  ⟨live, req 0xD05 .smb0 [1,5,3,0,0xE7,3], ready_of (by decide +kernel)⟩
theorem witness_ResetCommands_6 : ∃ (s : State) (r : Req), Ready specCommonsRestart s r :=
  ⟨mm live (fun x => { x with cmnSafe := true }), req 0xD06 .smb0 [], ready_of (by decide +kernel)⟩
theorem witness_ResetCommands_7 : ∃ (s : State) (l : Lane) (who : Initiator) (v : Word), s.Inv :=
  ⟨busy, .E, .elder, 0xA5C30001, inv_of (by decide +kernel)⟩
theorem witness_ResetCommands_8 : ∃ (s : State) (l : Lane) (b : Nat), s.Inv ∧ (s.lane l).elderUp = true ∧ s.mod_.frozen = false ∧ b ∈ blkBits :=
  ⟨ents busy [entOp 5 0x804 .executing (.func 0), entOp 6 0x804 .accepted (.func 0)], .E, 2, inv_of (by decide +kernel), by decide +kernel, by decide +kernel, by decide +kernel⟩
theorem witness_ResetCommands_9 : ∃ (s : State) (l : Lane) (f : Nat) (mask : Nat), s.Inv ∧ (∀ g ∈ s.grants, g.standing = false) :=
  ⟨busy, .E, 3, 7, inv_of (by decide +kernel), by decide +kernel⟩
theorem witness_ResetCommands_10 : ∃ (s : State) (l : Lane) (b : Nat), s.Inv ∧ b < 12 ∧ (s.lane l).blocksInReset.contains b = true ∧ s.domBit l (blkDomain b) F.CLKC_DOM_STAT_CLK_GOOD = true ∧ s.mod_.frozen = false :=
  ⟨lm (wents (rel .sys []) [7]) (fun x => { x with blocksInReset := [2, 11], blkLsns := [(7, 11)] }), .E, 11, inv_of (by decide +kernel), by decide +kernel, by decide +kernel, by decide +kernel, by decide +kernel⟩
theorem witness_ResetCommands_11 : ∃ (s : State) (l : Lane) (who : Initiator) (mask : Nat), s.Inv :=
  ⟨live, .E, .elder, 0xFF, inv_of (by decide +kernel)⟩
theorem witness_ResetCommands_12 : ∃ (s : State) (l : Lane) (v : Word), s.Inv ∧ getF v F.RSTC_CMN_KEY = 15373 ∧ getF v F.RSTC_CMN_RESTART = 1 ∧ s.mod_.frozen = false ∧ s.mod_.cmnSafe = true :=
  ⟨mm live (fun x => { x with cmnSafe := true }), .E, 0x3C0D0001, inv_of (by decide +kernel), by decide +kernel, by decide +kernel, by decide +kernel, by decide +kernel⟩
theorem witness_ResetCommands_13 : ∃ (s : State) (result : Nat), s.Inv ∧ s.mod_.cmnRestarting = true ∧ result ≤ 2 :=
  ⟨{ mm live (fun x => { x with cmnSafe := true, cmnRestarting := true }) with scs := { live.scs with inbox := [{ opcode := 0xD06, req := req 0xD06 .smb0 [], stream := 0, at_ := 0 }] } }, 1, inv_of (by decide +kernel), by decide +kernel, by decide +kernel⟩
theorem witness_ClocksAndRelease_0 : ∃ (s : State) (l : Lane) (n : Nat) (key : Nat) (remain : Nat), s.Inv ∧ n ≤ 5 ∧ s.bit l (R.RSTC_WDT_CFG n) F.RSTC_WDT_CFG_EN = true ∧ s.mod_.frozen = false ∧ (s.lane l).powered = true :=
  ⟨busy, .E, 5, 0x5A5A, 999, inv_of (by decide +kernel), by decide +kernel, by decide +kernel, by decide +kernel, by decide +kernel⟩
theorem witness_ClocksAndRelease_1 : ∃ (s : State) (l : Lane) (n : Nat) (key : Nat) (remain : Nat), (s.bit l (R.RSTC_WDT_CFG n) F.RSTC_WDT_CFG_EN = false ∨ s.mod_.frozen = true) :=
  ⟨live, .E, 5, 0x5A5A, 999, by decide +kernel⟩
theorem witness_ClocksAndRelease_2 : ∃ (s : State) (l : Lane), s.Inv ∧ (s.lane l).powered = true ∧ (s.lane l).released.contains 0 = true :=
  ⟨rel .sys [], .E, inv_of (by decide +kernel), by decide +kernel, by decide +kernel⟩
theorem witness_ClocksAndRelease_3 : ∃ (s : State) (l : Lane) (n : Nat) (count : Nat), s.Inv ∧ s.releasing l = true ∧ 1 ≤ n ∧ n ≤ 7 ∧ (∃ v ∈ (s.lane l).resetting, v ≠ RLevel.core) :=
  ⟨rel .sys [4], .E, 4, 6400, inv_of (by decide +kernel), by decide +kernel, by decide +kernel, by decide +kernel, by decide +kernel⟩
theorem witness_ClocksAndRelease_4 : ∃ (s : State) (l : Lane) (n : Nat) (count : Nat), s.Inv ∧ (s.lane l).powered = true ∧ (s.lane l).released.contains n = true ∧ 1 ≤ n ∧ n ≤ 7 ∧ count < 65536 :=
  ⟨lm busy (fun x => { x with released := [0, 7, 5, 4] }), .E, 4, 6400, inv_of (by decide +kernel), by decide +kernel, by decide +kernel, by decide +kernel, by decide +kernel, by decide +kernel⟩
theorem witness_ClocksAndRelease_5 : ∃ (s : State) (l : Lane) (bad : Nat), s.Inv ∧ (s.lane l).powered = true ∧ (s.lane l).deferred = none ∧ s.heldDown l = false ∧ ((s.lane l).resetting = some RLevel.core → (s.lane l).coresHeld = false) ∧ ((∃ v ∈ (s.lane l).resetting, v ≠ RLevel.core) → s.releasing l = true ∧ (s.lane l).released = [0, 7, 5, 4, 6, 3, 2, 1]) ∧ (s.lane l).resetting ≠ none ∧ s.lstepTests = [] :=
  ⟨lm (rel .por []) (fun x => { x with released := [0, 7, 5, 4, 6, 3, 2, 1] }), .E, 0, inv_of (by decide +kernel), by decide +kernel, by decide +kernel, by decide +kernel, by decide +kernel, by decide +kernel, by decide +kernel, by decide +kernel⟩
theorem witness_ClocksAndRelease_6 : ∃ (s : State) (l : Lane), (s.lane l).resetting = some RLevel.core ∧ (s.lane l).powered = true ∧ (s.lane l).deferred = none :=
  ⟨rel .core [], .E, by decide +kernel, by decide +kernel, by decide +kernel⟩
theorem witness_ParishRegister_0 : ∃ (s : State) (r : Req), Ready specParStatus s r :=
  ⟨{ live.setReg .W (R.PARI_EOUT_HI) 7 with calUs := 5000000 }, req 0xE00 (.func 0) [1], ready_of (by decide +kernel)⟩
theorem witness_ParishRegister_1 : ∃ (s : State) (r : Req), Ready specParChannel s r :=
  ⟨live.setReg .E (R.PARI_CH 63 7) 7, req 0xE01 (.func 0) [61,3], ready_of (by decide +kernel)⟩
theorem witness_ParishRegister_2 : ∃ (s : State) (r : Req), Ready specParThermal s r :=
  ⟨live.setReg .W (R.PARI_TCYC 7) 7, req 0xE02 (.func 0) [1], ready_of (by decide +kernel)⟩
theorem witness_ParishRegister_3 : ∃ (s : State) (r : Req), Ready specParResets s r :=
  ⟨live.setReg .W (R.PARI_NOR 1) 7, req 0xE03 (.func 0) [1], ready_of (by decide +kernel)⟩
theorem witness_ParishRegister_4 : ∃ (s : State) (r : Req), Ready specParSession s r :=
  ⟨live, req 0xE04 (.func 0) ([1,0,0,0] ++ wordBytes 0 ++ wordBytes 0), ready_of (by decide +kernel)⟩
theorem witness_ParishRegister_5 : ∃ (s : State) (r : Req), Ready specParConfig s r :=
  ⟨live, req 0xE05 .smb0 (wordBytes 0x01000064), ready_of (by decide +kernel)⟩
theorem witness_ParishRegister_6 : ∃ (s : State) (r : Req), Ready specParCalSet s r :=
  ⟨live, req 0xE06 .smb0 [1,2,3,4,5,0,0,0], ready_of (by decide +kernel)⟩
theorem witness_ParishRegister_7 : ∃ (s : State) (l : Lane), s.Inv :=
  ⟨live.setReg .E (R.PARI_CH 63 7) 7, .E, inv_of (by decide +kernel)⟩
theorem witness_ParishRegister_8 : ∃ (s : State) (l : Lane) (temp : ℤ), s.Inv :=
  ⟨live, .E, 1759, inv_of (by decide +kernel)⟩
theorem witness_ParishRegister_9 : ∃ (s : State), s.Inv :=
  ⟨live, inv_of (by decide +kernel)⟩
theorem witness_ParishRegister_10 : ∃ (s : State) (l : Lane), s.Inv :=
  ⟨{ live with calUs := 5000000000000000000 }, .E, inv_of (by decide +kernel)⟩
theorem witness_LighthouseCommands_0 : ∃ (s : State) (r : Req), Ready specLhsStatus s r :=
  ⟨live.setReg .W R.LHS_BOOT 7, req 0xB00 (.func 0) [], ready_of (by decide +kernel)⟩
theorem witness_LighthouseCommands_1 : ∃ (s : State) (r : Req), Ready specLhsNonce s r :=
  ⟨live, req 0xB01 (.func 0) [], ready_of (by decide +kernel)⟩
theorem witness_LighthouseCommands_2 : ∃ (s : State) (r : Req), Ready specAttest s r :=
  ⟨live, req 0xB02 (.startup 0) ([1,0,0,0] ++ List.replicate 32 5), ready_of (by decide +kernel)⟩
theorem witness_LighthouseCommands_3 : ∃ (s : State) (r : Req), Ready specAttestKeys s r :=
  ⟨live, req 0xB03 (.startup 0) [1], ready_of (by decide +kernel)⟩
theorem witness_LighthouseCommands_4 : ∃ (s : State) (r : Req), Ready specKeyWrite s r :=
  ⟨live, req 0xB04 .smb0 ([255,2,15,1] ++ List.replicate 32 5), ready_of (by decide +kernel)⟩
theorem witness_LighthouseCommands_5 : ∃ (s : State) (r : Req), Ready specKeyErase s r :=
  ⟨live, req 0xB05 .smb0 [8,248], ready_of (by decide +kernel)⟩
theorem witness_LighthouseCommands_6 : ∃ (s : State) (r : Req), Ready specWorldSet s r :=
  ⟨(live.setShadow .E (R.LHS_WATTR_FC 1) 0xF0F), req 0xB06 .smb0 [3,30,4,0,1,0,0,0], ready_of (by decide +kernel)⟩
theorem witness_LighthouseCommands_7 : ∃ (s : State) (r : Req), Ready specOwnSet s r :=
  ⟨live, req 0xB07 .smb0 [3,0x29,1,0], ready_of (by decide +kernel)⟩
theorem witness_LighthouseCommands_8 : ∃ (s : State) (r : Req), Ready specPmRequest s r :=
  ⟨live, req 0xB08 (.func 0) [3,11,4,0], ready_of (by decide +kernel)⟩
theorem witness_LighthouseCommands_9 : ∃ (s : State) (r : Req), Ready specEventConfig s r :=
  ⟨live, req 0xB09 .smb0 [7,4,0,1,0,16], ready_of (by decide +kernel)⟩
theorem witness_LighthouseCommands_10 : ∃ (s : State) (r : Req), Ready specEventLog s r :=
  ⟨live.setReg .E (R.LHS_POL 15 1) 77, req 0xB0A .smb0 [7,9], ready_of (by decide +kernel)⟩
theorem witness_LighthouseCommands_11 : ∃ (s : State) (r : Req), Ready specLcTransition s r :=
  ⟨live.setFldBoth (R.LHS_KP 0) F.LHS_KP_PROG 1, req 0xB0B (.startup 0) (List.replicate 28 0 ++ [2] ++ List.replicate 18099 0), ready_of (by decide +kernel)⟩
theorem witness_LighthouseCommands_12 : ∃ (s : State) (r : Req), Ready specDebugUnlock s r :=
  ⟨let s := (live.setFldBoth R.LHS_STATUS F.LHS_STATUS_LIFECYCLE 3).setFldBoth (R.LHS_KP 0) F.LHS_KP_PROG 1; s.setSec .E { s.secE with nonces := [(0x8000, [9,9,9,9,9,9,9,9], 0)] }, req 0xB0C (.startup 0) (tok 4 ([3,7,0,0] ++ List.replicate 8 9 ++ List.replicate 18088 0)), ready_sig (by decide +kernel) (by refine tok_ok (by decide +kernel) rfl (by decide +kernel))⟩
theorem witness_LighthouseCommands_13 : ∃ (s : State) (r : Req), Ready specKeyHashSet s r :=
  ⟨live, req 0xB0D (.startup 0) ([3,0,0,0] ++ List.replicate 96 7), ready_of (by decide +kernel)⟩
theorem witness_LighthouseCommands_14 : ∃ (s : State) (r : Req), Ready specKeyRevoke s r :=
  ⟨live, req 0xB0E .smb0 [3], ready_of (by decide +kernel)⟩
theorem witness_LighthouseCommands_15 : ∃ (s : State) (r : Req), Ready specLhsConfig s r :=
  ⟨keys (live.setReg .E (R.LHS_KEY_INFO 9) 0x13), req 0xB0F .smb0 [9,0], ready_of (by decide +kernel)⟩
theorem witness_LighthouseEvents_0 : ∃ (s : State) (l : Lane) (k : Nat), s.Inv ∧ k < 8 ∧ s.mod_.asleep = false :=
  ⟨sens live 5 0 1, .E, 5, inv_of (by decide +kernel), by decide +kernel, by decide +kernel⟩
theorem witness_LighthouseEvents_1 : ∃ (s : State) (l : Option Lane) (k : Nat), s.Inv ∧ k < 8 ∧ s.mod_.asleep = true :=
  ⟨mm live (fun x => { x with asleep := true }), some .E, 3, inv_of (by decide +kernel), by decide +kernel, by decide +kernel⟩
theorem witness_LighthouseEvents_2 : ∃ (s : State) (l : Option Lane) (k : Nat), 8 ≤ k :=
  ⟨live, none, 8, by decide +kernel⟩
theorem witness_LighthouseEvents_3 : ∃ (s : State) (n : Nat) (b : Burn) (bs : List FuseOp), s.Inv ∧ s.fuseOps = { lsn := n, burn := b } :: bs ∧ (∀ o ∈ bs, o.lsn ≠ n) :=
  ⟨keys { wents live [5] with fuseOps := [⟨5, .lifecycle 5⟩] }, 5, .lifecycle 5, [], inv_of (by decide +kernel), by decide +kernel, by decide +kernel⟩
theorem witness_LighthouseEvents_4 : ∃ (s : State) (n : Nat) (ok : Bool), s.fuseOps = [] :=
  ⟨live, 4, true, by decide +kernel⟩
theorem witness_LighthouseEvents_5 : ∃ (s : State) (o : KeyOp) (os : List KeyOp), s.Inv ∧ s.keyOps = o :: os ∧ o.slot < 256 :=
  ⟨keys { wents live [5,6] with keyOps := [⟨5, true, 8, 2, 0, []⟩, ⟨6, false, 9, 1, 3, [7]⟩] }, ⟨5, true, 8, 2, 0, []⟩, [⟨6, false, 9, 1, 3, [7]⟩], inv_of (by decide +kernel), by decide +kernel, by decide +kernel⟩
theorem witness_LighthouseEvents_6 : ∃ (s : State), s.keyOps = [] :=
  ⟨live, by decide +kernel⟩
theorem witness_LighthouseEvents_7 : ∃ (s : State) (l : Lane) (who : Initiator) (v : Word), s.Inv :=
  ⟨live, .E, .func 3, 0x1FF, inv_of (by decide +kernel)⟩
theorem witness_LighthouseEvents_9 : ∃ (s : State) (e : LEntry), s.Inv ∧ e ∈ s.led.entries ∧ e.opcode = 2818 ∧ e.st = ESt.executing :=
  ⟨ents live [{ entOp 5 0xB02 .executing .smb0 with req := { req 0xB02 .smb0 ([1,0,0,0] ++ List.replicate 32 5) with flags := 4, outAddr := 0x10001000, outCap := 40000 } }], { entOp 5 0xB02 .executing .smb0 with req := { req 0xB02 .smb0 ([1,0,0,0] ++ List.replicate 32 5) with flags := 4, outAddr := 0x10001000, outCap := 40000 } }, inv_of (by decide +kernel), by decide +kernel, by decide +kernel, by decide +kernel⟩
theorem witness_PartitionCommands_0 : ∃ (s : State) (r : Req), Ready specPartStatus s r :=
  ⟨live.setReg .W (R.IOV_FN_STATE 63) 7, req 0xA00 (.func 0) [63], ready_of (by decide +kernel)⟩
theorem witness_PartitionCommands_1 : ∃ (s : State) (r : Req), Ready specFuncConfig s r :=
  ⟨live, req 0xA01 (.func 0) ([63,3,3,0,255,255,0,4] ++ wordBytes 0 ++ wordBytes 0x80000000 ++ wordBytes 9 ++ wordBytes 8), ready_of (by decide +kernel)⟩
theorem witness_PartitionCommands_2 : ∃ (s : State) (r : Req), Ready specQueueConfig s r :=
  ⟨live, req 0xA02 (.func 0) ([3,0,255,0] ++ wordBytes 0x300 ++ wordBytes 0x40 ++ wordBytes 7 ++ wordBytes 0x40 ++ wordBytes 8), ready_of (by decide +kernel)⟩
theorem witness_PartitionCommands_3 : ∃ (s : State) (r : Req), Ready specReplRegion s r :=
  ⟨((live.setBitF .E (R.IOV_FN_CFG 0) F.IOV_FN_CFG_REPL true).setPot .E (.isle 0) 0x200).setPot .W (.isle 0) 0x200, req 0xA03 (.func 0) ([0,1,0,0] ++ wordBytes 0x10000000 ++ wordBytes 0 ++ wordBytes 1), ready_of (by decide +kernel)⟩
theorem witness_PartitionCommands_4 : ∃ (s : State) (r : Req), Ready specVfQuiesce s r :=
  ⟨(live.setFnSt .E 63 1).setFnSt .W 63 1, req 0xA04 (.func 0) [3,63], ready_of (by decide +kernel)⟩
theorem witness_PartitionCommands_5 : ∃ (s : State) (r : Req), Ready specVfReset s r :=
  ⟨(live.setFnSt .E 63 3).setFnSt .W 63 1, req 0xA05 (.func 0) [1,63], ready_of (by decide +kernel)⟩
theorem witness_PartitionCommands_6 : ∃ (s : State) (r : Req), Ready specVfRemove s r :=
  ⟨(live.setFnSt .E 63 3).setFnSt .W 63 3, req 0xA06 (.func 0) [2,63], ready_of (by decide +kernel)⟩
theorem witness_PartitionCommands_7 : ∃ (s : State) (r : Req), Ready specExpertGrant s r :=
  ⟨inBench (live.setFnSt .E 63 1), req 0xA07 (.func 0) [1,63,6,0], ready_of (by decide +kernel)⟩
theorem witness_PartitionCommands_8 : ∃ (s : State) (r : Req), Ready specExpertRelease s r :=
  ⟨{ live with grants := [⟨6, .E, 63, 5, true⟩, ⟨7, .E, 63, 5, true⟩] }, req 0xA08 (.func 0) [1,63,6,0], ready_of (by decide +kernel)⟩
theorem witness_PartitionCommands_9 : ∃ (s : State) (r : Req), Ready specDirtySwap s r :=
  ⟨live.setReg .W (R.IOV_FN_STATE 63) 4, req 0xA09 (.func 0) [3,63], ready_of (by decide +kernel)⟩
theorem witness_PartitionCommands_10 : ∃ (s : State) (r : Req), Ready specPageOwner s r :=
  ⟨live, req 0xA0A .smb0 ([2,0,0,0] ++ wordBytes 0x20000000 ++ wordBytes 0 ++ wordBytes 7 ++ [255,3,1,0]), ready_of (by decide +kernel)⟩
theorem witness_PartitionCommands_11 : ∃ (s : State) (r : Req), Ready specPairAssign s r :=
  ⟨live, req 0xA0B .smb0 [3,3,63,3], ready_of (by decide +kernel)⟩
theorem witness_PartitionCommands_12 : ∃ (s : State) (r : Req), Ready specLstepStatus s r :=
  ⟨live.setReg .W (R.LSTP_PAIR_STAT 4) 4, req 0xA0C (.func 0) [], ready_of (by decide +kernel)⟩
theorem witness_PartitionCommands_13 : ∃ (s : State) (r : Req), Ready specLstepTest s r :=
  ⟨busy.setReg .E (R.LSTP_PAIR_STAT 4) 0xFFFF0003, req 0xA0D .smb0 [1,4], ready_of (by decide +kernel)⟩
theorem witness_PartitionCommands_14 : ∃ (s : State) (r : Req), Ready specStraitCopy s r :=
  ⟨((live.setBitF .E (R.IOV_FN_CFG 0) F.IOV_FN_CFG_REPL false).setPot .E (.isle 0) 0x200).setPot .W (.isle 0) 0x200, req 0xA0E (.func 0) ([0,0,0,0] ++ wordBytes 0x10000000 ++ wordBytes 0 ++ wordBytes 1), ready_of (by decide +kernel)⟩
theorem witness_QueuesAndPages_0 : ∃ (s : State) (l : Lane) (who : Initiator) (f : Nat) (i : Nat) (v : Word), s.Inv :=
  ⟨qst 0 0 0 0 0, .E, .func 3, 0, 0, 1, inv_of (by decide +kernel)⟩
theorem witness_QueuesAndPages_1 : ∃ (s : State) (l : Lane) (q : Nat), s.Inv ∧ q < 256 ∧ (s.fld l (R.LHS_EVT_CFG 6) F.LHS_EVT_CFG_RESP ≤ 1 ∧ s.fld l (R.LHS_EVT_CFG 7) F.LHS_EVT_CFG_RESP ≤ 1) :=
  ⟨desc (qst 0 3 4 0 0) 3 ([1,2] ++ List.replicate 30 0), .E, 5, inv_of (by decide +kernel), by decide +kernel, by decide +kernel⟩
theorem witness_QueuesAndPages_2 : ∃ (s : State) (l : Lane), s.Inv :=
  ⟨let s := qst 1 0 3 0 0; { s with eth := { s.eth with rxE := [(⟨5, 6, 1, 7, 0x800, none, none, 65, [1,2], none⟩, 9)] } }, .E, inv_of (by decide +kernel)⟩
theorem witness_QueuesAndPages_3 : ∃ (s : State) (l : Lane) (f : Nat), s.Inv ∧ f < 64 :=
  ⟨(ents live [entOp 5 0x100 .accepted (.func 63), entOp 6 0x100 .accepted (.func 62)]).setFnSt .E 63 2, .E, 63, inv_of (by decide +kernel), by decide +kernel⟩
theorem witness_QueuesAndPages_4 : ∃ (s : State) (l : Lane) (who : Initiator) (v : Word), s.Inv :=
  ⟨((live.setReg .E R.POT_UPD_CNT 7).setReg .E R.POT_UPD_ADDR_LO 0x20000000).setReg .E R.POT_UPD_ADDR_HI 8, .E, .secure, 0x80030355, inv_of (by decide +kernel)⟩
theorem witness_QueuesAndPages_5 : ∃ (s : State) (l : Lane) (u : PotUpd) (us : List PotUpd), s.Inv ∧ s.potUpds = u :: us ∧ u.lane = l ∧ u.region = false ∧ u ∉ us ∧ u.pages = 1 ∧ u.lsn = none ∧ u.addr % 4096 = 0 ∧ u.entry < 1024 :=
  ⟨{ busy with potUpds := [upd 0x10000000 0x205 false false] }, .E, upd 0x10000000 0x205 false false, [], inv_of (by decide +kernel), by decide +kernel, by decide +kernel, by decide +kernel, by decide +kernel, by decide +kernel, by decide +kernel, by decide +kernel, by decide +kernel⟩
theorem witness_QueuesAndPages_6 : ∃ (s : State) (l : Lane), (∀ u ∈ s.potUpds, u.region = true) :=
  ⟨live, .E, by decide +kernel⟩
theorem witness_QueuesAndPages_7 : ∃ (s : State) (c : StraitCopy), s.Inv ∧ s.copies = [c] ∧ c.started = true ∧ c.addr < 2 ^ 39 ∧ c.pages = 1 :=
  ⟨strait { (wents busy [5]).setByte .E 0x10000FFF 7 with copies := [⟨5, .E, 0x10000000, 1, true⟩] }, ⟨5, .E, 0x10000000, 1, true⟩, inv_of (by decide +kernel), by decide +kernel, by decide +kernel, by decide +kernel, by decide +kernel⟩
theorem witness_QueuesAndPages_8 : ∃ (s : State) (l : Lane) (k : Nat) (w : Nat), s.Inv ∧ k < 5 :=
  ⟨busy.setReg .E (R.LSTP_PAIR_STAT 4) 3, .E, 4, 77, inv_of (by decide +kernel), by decide +kernel⟩
theorem witness_QueuesAndPages_9 : ∃ (s : State) (l : Lane) (k : Nat) (on : Bool), s.Inv ∧ k < 5 ∧ (s.lane l).powered = true :=
  ⟨busy, .W, 4, true, inv_of (by decide +kernel), by decide +kernel, by decide +kernel⟩
theorem witness_QueuesAndPages_10 : ∃ (s : State) (a : MemAcc), s.Inv ∧ 0 < a.len ∧ a.len ≤ 64 ∧ a.addr % 4096 + a.len ≤ 4096 :=
  ⟨live.setPot .E (.isle 2047) 0x205, acc .normal false true 5 0x107FFFC0 64, inv_of (by decide +kernel), by decide +kernel, by decide +kernel, by decide +kernel⟩
theorem witness_UpdateCommands_0 : ∃ (s : State) (r : Req), Ready specUpdStatus s r :=
  ⟨live.setReg .E (R.UPD_RELAY_STAT 3) 7, req 0xC00 (.func 0) [], ready_of (by decide +kernel)⟩
theorem witness_UpdateCommands_1 : ∃ (s : State) (r : Req), Ready specUpdBegin s r :=
  ⟨(fb (live.setByte .W 0x38000009 3) (R.LHS_KP 0) F.LHS_KP_PROG 1), req 0xC01 (.startup 0) (pad 18128 (mani 1 [(0xF0,0x1000,96),(1,0x2000,40000)])), ready_sig (by decide +kernel) (upd_sig (by decide +kernel) (by decide +kernel))⟩
theorem witness_UpdateCommands_2 : ∃ (s : State) (r : Req), Ready specUpdChunk s r ∧ r.u8 0 = 1 ∧ (∀ n < 8, s.relayOn n = false) :=
  ⟨um (ust 1 2000 100) (fun u => { u with next := 1 }), chunk 1 0 (z 32640), ready_of (by decide +kernel), by decide +kernel, by decide +kernel⟩
theorem witness_UpdateCommands_3 : ∃ (s : State) (r : Req), Ready specUpdChunk s r ∧ r.u8 0 = 2 ∧ (∀ n < 8, s.relayOn n = false) :=
  ⟨bld (ust 1 2 40000) 1 40000 0 [], sigBad (chunk 2 0 (List.replicate 32768 0)), ready_of (by decide +kernel), by decide +kernel, by decide +kernel⟩
theorem witness_UpdateCommands_4 : ∃ (s : State) (r : Req) (e : Img), Ready specUpdChunk s r ∧ r.u8 0 = 2 ∧ (∀ n < 8, s.relayOn n = false) ∧ (manBuilt s.upd.man)[s.upd.build.sec]? = some e ∧ r.sigOk = true ∧ r.u16 2 = s.upd.next ∧ r.hwFault = false ∧ s.upd.build.phase = 1 ∧ s.upd.build.left = [] ∧ e.offset + e.length ≤ 2 ^ 27 ∧ s.StagesOnce :=
  ⟨bld (ust 1 2 40000) 1 40000 0 [], chunk 2 0 (List.replicate 32768 0), ⟨5, 0x2000, 40000, List.replicate 48 9⟩, ready_of (by decide +kernel), by decide +kernel, by decide +kernel, by decide +kernel, by decide +kernel, by decide +kernel, by decide +kernel, by decide +kernel, by decide +kernel, by decide +kernel, by unfold State.StagesOnce; decide +kernel⟩
theorem witness_UpdateCommands_5 : ∃ (s : State) (r : Req), Ready specUpdAbort s r :=
  ⟨ust 2 1 100, req 0xC03 (.func 0) [], ready_of (by decide +kernel)⟩
theorem witness_UpdateCommands_6 : ∃ (s : State) (r : Req), Ready specUpdActivate s r :=
  ⟨ust 2 1 100, req 0xC04 (.func 0) [], ready_of (by decide +kernel)⟩
theorem witness_UpdateCommands_7 : ∃ (s : State) (r : Req), Ready specUpdConfirm s r :=
  ⟨ust 4 1 100, req 0xC05 (.func 0) [], ready_of (by decide +kernel)⟩
theorem witness_UpdateCommands_8 : ∃ (s : State) (r : Req), Ready specUpdRevert s r :=
  ⟨ust 4 1 100, req 0xC06 (.func 0) [], ready_of (by decide +kernel)⟩
theorem witness_UpdateCommands_9 : ∃ (s : State) (r : Req), Ready specUpdRelaySet s r :=
  ⟨gb live (R.LHS_KEY_INFO 4) 0x113, req 0xC07 (.func 0) ([3,1,4,4,7,9,0,0] ++ z 16), ready_of (by decide +kernel)⟩
theorem witness_UpdateCommands_10 : ∃ (s : State) (r : Req), Ready specUpdConfig s r :=
  ⟨live, req 0xC08 (.func 0) [3,1,0,1], ready_of (by decide +kernel)⟩
theorem witness_UpdateEvents_0 : ∃ (s : State) (ok : Bool), s.Inv :=
  ⟨live, true, inv_of (by decide +kernel)⟩
theorem witness_UpdateEvents_1 : ∃ (s : State) (ok : Bool), s.Inv :=
  ⟨live, true, inv_of (by decide +kernel)⟩
theorem witness_UpdateEvents_2 : ∃ (s : State), s.Inv :=
  ⟨live, inv_of (by decide +kernel)⟩
theorem witness_UpdateEvents_3 : ∃ (s : State) (l : Lane) (ok : Bool), s.Inv :=
  ⟨live, .W, true, inv_of (by decide +kernel)⟩
theorem witness_UpdateEvents_4 : ∃ (s : State) (b : Build) (e : Img), s.Inv ∧ (manBuilt s.upd.man)[b.sec]? = some e ∧ b.phase = 2 ∧ 12 ≤ b.left.length ∧ fieldAt b.left 1 3 = 0 ∧ s.StagesOnce :=
  ⟨bld (ust 1 1 100) 2 4 100 [], ⟨0, 2, 4, 0, 100, [0,0,0,0,1,2,3,4,5,6,7,8]⟩, ⟨5, 0x2000, 100, List.replicate 48 9⟩, inv_of (by decide +kernel), by decide +kernel, by decide +kernel, by decide +kernel, by decide +kernel, by unfold State.StagesOnce; decide +kernel⟩
theorem witness_UpdateEvents_5 : ∃ (s : State) (b : Build) (e : Img) (x : Img), s.Inv ∧ (manBuilt s.upd.man)[b.sec]? = some e ∧ b.phase = 2 ∧ 12 ≤ b.left.length ∧ fieldAt b.left 0 1 = 1 ∧ fieldAt b.left 1 3 = 0 ∧ s.StagesOnce ∧ s.upd.stage ≠ [] ∧ (∀ p ∈ s.upd.stage, s.baseImg p.1 (manKind s.upd.man) e.type_ = some x ∧ p.2 = 1 - (s.sec p.1).bank ∧ (s.sec p.1).bank ≤ 1) :=
  ⟨ust 1 1 100, ⟨0, 2, 40, 0, 50, [1,0,0,0,2,0,0,0,8,0,0,0]⟩, ⟨5, 0x2000, 100, List.replicate 48 9⟩, ⟨5, 0x3000, 100, List.replicate 48 9⟩, inv_of (by decide +kernel), by decide +kernel, by decide +kernel, by decide +kernel, by decide +kernel, by decide +kernel, by unfold State.StagesOnce; decide +kernel, by decide +kernel, by decide +kernel⟩
theorem witness_UpdateEvents_6 : ∃ (s : State) (b : Build) (e : Img) (x : Img), s.Inv ∧ (manBuilt s.upd.man)[b.sec]? = some e ∧ b.phase = 0 ∧ 64 ≤ b.left.length ∧ headOk (List.take 64 b.left) e = true ∧ fieldAt b.left 2 1 = 2 ∧ fieldAt b.left 8 4 = 0 ∧ s.StagesOnce ∧ s.sectBase e (slice b.left 16 48) = some x ∧ x.length = e.length ∧ x.offset + x.length ≤ 2 ^ 27 ∧ e.offset + e.length ≤ 2 ^ 27 ∧ (∀ p ∈ s.upd.stage, p.2 = 1 - (s.sec p.1).bank ∧ (s.sec p.1).bank ≤ 1) :=
  ⟨ust 1 1 100, ⟨0, 0, 0, 0, 0, leBytes 2 5 ++ [2,0] ++ leBytes 4 100 ++ [0,0,0,0,0,0,0,0] ++ List.replicate 48 9⟩, ⟨5, 0x2000, 100, List.replicate 48 9⟩, ⟨5, 0x3000, 100, List.replicate 48 9⟩, inv_of (by decide +kernel), by decide +kernel, by decide +kernel, by decide +kernel, by decide +kernel, by decide +kernel, by decide +kernel, by unfold State.StagesOnce; decide +kernel, by decide +kernel, by decide +kernel, by decide +kernel, by decide +kernel, by decide +kernel⟩
theorem witness_FerryCommands_0 : ∃ (s : State) (r : Req), Ready specFerryStatus s r :=
  ⟨live, req 0xF00 (.func 0) [], ready_of (by decide +kernel)⟩
theorem witness_FerryCommands_1 : ∃ (s : State) (r : Req), Ready specFerryConfig s r :=
  ⟨live, req 0xF01 (.func 0) (leBytes 2 20000 ++ [3, 1] ++ leBytes 4 70), ready_of (by decide +kernel)⟩
theorem witness_FerryCommands_2 : ∃ (s : State) (r : Req), Ready specHandover s r :=
  ⟨live, req 0xF02 (.func 0) [], ready_of (by decide +kernel)⟩
theorem witness_FerryCommands_3 : ∃ (s : State) (r : Req), Ready specLanePhase s r :=
  ⟨live, req 0xF03 (.func 0) [2], ready_of (by decide +kernel)⟩
theorem witness_FerryCommands_4 : ∃ (s : State) (r : Req) (l : Lane), Ready specLaneDisqualify s r ∧ r.u8 0 = 1 + l.ix :=
  ⟨live, req 0xF04 (.func 0) [1], .E, ready_of (by decide +kernel), by decide +kernel⟩
theorem witness_FerryCommands_5 : ∃ (s : State) (r : Req) (l : Lane), Ready specLaneRequalify s r ∧ r.u8 0 = 1 + l.ix :=
  ⟨am (lane2 7) (fun a => { a with downW := true }), req 0xF05 (.func 0) [2], .W, ready_of (by decide +kernel), by decide +kernel⟩
theorem witness_FerryCommands_6 : ∃ (s : State) (r : Req) (l : Lane), Ready specLaneResync s r ∧ r.u8 0 = 1 + l.ix :=
  ⟨live, req 0xF06 (.func 0) [2], .W, ready_of (by decide +kernel), by decide +kernel⟩
theorem witness_FerryCommands_7 : ∃ (s : State) (r : Req), Ready specDiscrepancyLog s r :=
  ⟨live, req 0xF07 (.func 0) [], ready_of (by decide +kernel)⟩
theorem witness_FerryCommands_8 : ∃ (s : State) (r : Req) (l : Lane), Ready specQuietEnter s r ∧ r.u8 0 = 1 + l.ix :=
  ⟨live, req 0xF08 .smb0 [1], .E, ready_of (by decide +kernel), by decide +kernel⟩
theorem witness_FerryCommands_9 : ∃ (s : State) (r : Req), Ready specQuietLeave s r :=
  ⟨fm (lane2 0) (fun a => { a with quietStay := some .E }), req 0xF09 .smb0 [], ready_of (by decide +kernel)⟩
theorem witness_FerryCommands_10 : ∃ (s : State) (l : Lane) (who : Initiator) (v : Word), s.Inv ∧ (who ≠ Initiator.elder ∨ getF v F.FERRY_CTRL_KEY ≠ 24225) :=
  ⟨live, .W, .elder, 1, inv_of (by decide +kernel), by decide +kernel⟩
theorem witness_FerryCommands_11 : ∃ (s : State) (l : Lane) (v : Word), s.Inv ∧ getF v F.FERRY_CTRL_KEY = 24225 :=
  ⟨live, .W, 0x5EA10001, inv_of (by decide +kernel), by decide +kernel⟩
theorem witness_LeaseAndLaneEvents_0 : ∃ (s : State) (l : Lane) (e : Nat), s.Inv :=
  ⟨{ live with cmn := DieRt.reset }, .W, 5, inv_of (by decide +kernel)⟩
theorem witness_LeaseAndLaneEvents_1 : ∃ (s : State), s.Inv :=
  ⟨am live (fun a => { a with held := none }), inv_of (by decide +kernel)⟩
theorem witness_LeaseAndLaneEvents_2 : ∃ (s : State) (l : Lane) (us : Nat), s.Inv :=
  ⟨live, .E, 3000, inv_of (by decide +kernel)⟩
theorem witness_LeaseAndLaneEvents_3 : ∃ (s : State) (l : Lane), s.Inv :=
  ⟨live, .E, inv_of (by decide +kernel)⟩
theorem witness_LeaseAndLaneEvents_4 : ∃ (s : State) (l : Lane), s.Inv :=
  ⟨live, .E, inv_of (by decide +kernel)⟩
theorem witness_LeaseAndLaneEvents_5 : ∃ (s : State) (l : Lane), s.Inv :=
  ⟨live, .E, inv_of (by decide +kernel)⟩
theorem witness_LeaseAndLaneEvents_6 : ∃ (s : State) (l : Lane), s.Inv :=
  ⟨live, .W, inv_of (by decide +kernel)⟩
theorem witness_LeaseAndLaneEvents_7 : ∃ (s : State) (l : Lane), s.Inv :=
  ⟨live, .E, inv_of (by decide +kernel)⟩
theorem witness_LeaseAndLaneEvents_8 : ∃ (s : State) (l : Lane), s.Inv :=
  ⟨stW live 0, .E, inv_of (by decide +kernel)⟩
theorem witness_LeaseAndLaneEvents_9 : ∃ (s : State) (l : Lane), s.Inv :=
  ⟨stW live 0, .W, inv_of (by decide +kernel)⟩
theorem witness_LeaseAndLaneEvents_10 : ∃ (s : State) (l : Lane) (e : Nat) (c : Nat), s.Inv :=
  ⟨live, .W, 5, 6, inv_of (by decide +kernel)⟩
theorem witness_LeaseAndLaneEvents_11 : ∃ (s : State), s.Inv :=
  ⟨live, inv_of (by decide +kernel)⟩
theorem witness_LeaseAndLaneEvents_12 : ∃ (s : State) (l : Lane) (f1 : Nat) (f2 : Nat) (k : Nat) (lost : List Nat), s.Inv :=
  ⟨live, .W, 0, 0, 0, [], inv_of (by decide +kernel)⟩
theorem witness_LeaseAndLaneEvents_13 : ∃ (s : State) (l : Lane) (i : Nat) (b : Nat) (ok : Bool) (h : List Byte), s.Inv :=
  ⟨bootW, .W, 1, 0, true, [5], inv_of (by decide +kernel)⟩
theorem witness_FrameAcceptance_0 : ∃ (s : State) (c : FrameCopy), s.Inv :=
  ⟨{ live with f0 := DieRt.reset }, fcp .E 9 1 true .same, inv_of (by decide +kernel)⟩
theorem witness_FrameAcceptance_1 : ∃ (s : State) (c : FrameCopy), (s.Inv ∧ (s.die c.die).up = true ∧ c.crcOk = true) ∧ (s.die c.die).window = none :=
  ⟨f0 live (fun x => { x with lastClosed := some 9 }), fcp .E 9 1 true .same, ⟨inv_of (by decide +kernel), by decide +kernel⟩, by decide +kernel⟩
theorem witness_FrameAcceptance_2 : ∃ (s : State) (c : FrameCopy), (s.Inv ∧ (s.die c.die).up = true ∧ c.crcOk = true) :=
  ⟨f0 live (fun x => { x with lastClosed := some 19, window := some (wdw .E (some (fcp .E 20 1 true .same)) none) }), fcp .W 19 1 false .same, ⟨inv_of (by decide +kernel), by decide +kernel⟩⟩
theorem witness_FrameAcceptance_3 : ∃ (s : State) (c : FrameCopy) (w : Window), (s.Inv ∧ (s.die c.die).up = true ∧ c.crcOk = true) ∧ (s.die c.die).window = some w ∧ w.cycle = c.cycle ∧ (match c.lane with   | Lane.E => w.gotE   | Lane.W => w.gotW) =   false :=
  ⟨f0 live (fun x => { x with lastClosed := some 19, window := some (wdw .E (some (fcp .E 20 1 true .same)) none) }), fcp .W 20 1 false .same, wdw .E (some (fcp .E 20 1 true .same)) none, ⟨inv_of (by decide +kernel), by decide +kernel⟩, by decide +kernel, by decide +kernel, by decide +kernel⟩
theorem witness_FrameAcceptance_4 : ∃ (s : State) (d : Die), s.Inv :=
  ⟨live, .F0, inv_of (by decide +kernel)⟩
theorem witness_FrameAcceptance_5 : ∃ (s : State) (c : FrameCopy) (k : Commit) (m : Nat) (v : Word) (n : Nat), (s.Inv ∧ (s.die c.die).up = true ∧ c.crcOk = true) ∧ (s.die c.die).window = none ∧ (∀ k ∈ (s.die c.die).lastClosed, serialAhead32 c.cycle k = true) ∧ c.holder = true ∧ (s.die c.die).highEpoch.getD 0 ≤ c.epoch ∧ (s.lane c.lane).strapOk = true ∧ s.evtRecs = [] ∧ k.region ≤ 2 ∧ c.die = fieldDie k.region ∧ m < fcCount k.region ∧ s.commits = [k] ∧ k.block = 8 ∧ k.lane = c.lane ∧ k.carried = true ∧ k.writes = [(R.FCH_DUTY k.region m, v)] ∧ k.lsns = [n] ∧ chkFch s k = true :=
  ⟨{ wents live [5] with commits := [cmt 7 0x1234] }, fcp .E 9 1 true .same, cmt 7 0x1234, 7, 0x1234, 5, ⟨inv_of (by decide +kernel), by decide +kernel⟩, by decide +kernel, by decide +kernel, by decide +kernel, by decide +kernel, by decide +kernel, by decide +kernel, by decide +kernel, by decide +kernel, by decide +kernel, by decide +kernel, by decide +kernel, by decide +kernel, by decide +kernel, by decide +kernel, by decide +kernel, by decide +kernel⟩
theorem witness_FrameAcceptance_6 : ∃ (s : State) (d : Die) (l : Lane), s.Inv :=
  ⟨{ live with p1 := DieRt.reset }, .P1, .W, inv_of (by decide +kernel)⟩
theorem witness_FrameAcceptance_7 : ∃ (s : State) (e : Bool) (w : Bool), s.Inv :=
  ⟨{ live with cmn := DieRt.reset }, true, false, inv_of (by decide +kernel)⟩
theorem witness_CycleAndImage_0 : ∃ (s : State) (ovr : Bool) (n : Nat), s.Inv :=
  ⟨fm live (fun x => { x with sealed := true }), true, 5000, inv_of (by decide +kernel)⟩
theorem witness_CycleAndImage_1 : ∃ (s : State) (crc : Bool) (inTime : Bool) (xl : Bool), s.Inv :=
  ⟨live, true, true, true, inv_of (by decide +kernel)⟩
theorem witness_CycleAndImage_2 : ∃ (s : State) (n : Nat), s.Inv :=
  ⟨mm live (fun x => { x with frozen := true }), 700, inv_of (by decide +kernel)⟩
theorem witness_CycleAndImage_3 : ∃ (s : State) (l : Lane), s.Inv ∧ s.lst l = 4 :=
  ⟨(fm (strait live) (fun x => { x with imageOk := some true })).setReg .E (R.HARB_PDU_W0 3) 5, .W, inv_of (by decide +kernel), by decide +kernel⟩
theorem witness_CycleAndImage_4 : ∃ (s : State) (l : Lane), s.Inv ∧ s.lst l = 3 :=
  ⟨stE (lane2 3) 2, .W, inv_of (by decide +kernel), by decide +kernel⟩
theorem witness_CycleAndImage_5 : ∃ (s : State) (h : Lane), s.Inv ∧ s.ferry.disq = [] ∧ s.ferry.handoverLsns = [] ∧ s.holder = some h :=
  ⟨live, .E, inv_of (by decide +kernel), by decide +kernel, by decide +kernel, by decide +kernel⟩
theorem witness_CycleAndImage_6 : ∃ (s : State) (l : Lane), s.Inv :=
  ⟨live, .E, inv_of (by decide +kernel)⟩
theorem witness_CycleAndImage_7 : ∃ (s : State) (q : Lane) (n : Nat), s.Inv ∧ s.ferry.quietStay = some q ∧ s.ferry.quietLsn = some n ∧ s.ferry.quietWake = false ∧ s.ferry.quietLeave = none :=
  ⟨quiet live .E, .E, 5, inv_of (by decide +kernel), by decide +kernel, by decide +kernel, by decide +kernel, by decide +kernel⟩
theorem witness_CycleAndImage_8 : ∃ (s : State) (n : Nat), s.Inv ∧ s.ferry.quietWake = false ∧ s.ferry.quietStay = none ∧ s.ferry.quietLeaveLsns = [n] :=
  ⟨fm (wents live [5]) (fun x => { x with quietLeave := some .W, quietLeaveLsns := [5] }), 5, inv_of (by decide +kernel), by decide +kernel, by decide +kernel, by decide +kernel⟩
theorem witness_LedgerCommands_0 : ∃ (s : State) (r : Req), Ready specLedgerStatus s r :=
  ⟨live.setReg .E (R.LEDG_CNT 3) 9, req 0xF10 (.func 0) [], ready_of (by decide +kernel)⟩
theorem witness_LedgerCommands_1 : ∃ (s : State) (r : Req), Ready specLedgerConfig s r :=
  ⟨live, req 0xF11 (.func 0) (leBytes 2 8192 ++ leBytes 2 1024 ++ leBytes 4 4194304 ++ [1]), ready_of (by decide +kernel)⟩
theorem witness_LedgerCommands_2 : ∃ (s : State) (r : Req), Ready specLedgerQuota s r :=
  ⟨live, req 0xF12 (.func 0) [160,0,0x20,0], ready_of (by decide +kernel)⟩
theorem witness_LedgerCommands_3 : ∃ (s : State) (r : Req), Ready specLedgerQuery s r :=
  ⟨ents live [led 5 .disposed 0x8000 3 9 true, led 6 .executing 0 0 0 false], req 0xF13 (.func 0) ([1,0] ++ leBytes 2 0x8000 ++ leBytes 8 5), ready_of (by decide +kernel)⟩
theorem witness_LedgerCommands_4 : ∃ (s : State) (r : Req), Ready specLedgerRecovered s r :=
  ⟨ents live [led 5 .disposed 0x8000 3 9 true, led 6 .disposed 0x8000 1 0 false, led 7 .disposed 0x4000 2 0 true, led 8 .disposed 0x4000 2 0 true], req 0xF14 (.func 0) [], ready_of (by decide +kernel)⟩
theorem witness_DuplicateRequests_0 : ∃ (s : State) (r : Req) (c : CmdSpec), s.Inv ∧ r.src.wf = true ∧ c.accepted = true ∧ s.deaf = false ∧ r.isStartup = false ∧ waits c s r = false ∧ checksA c (taken s r).1 (taken s r).2 = none :=
  ⟨dups live [dup 9 0xF19 (reqCrc 0xF12 (req 0xF12 (.func 0) [160,0,0x20,0])) 2], req 0xF12 (.func 0) [160,0,0x20,0], specLedgerQuota, inv_of (by decide +kernel), by decide +kernel, by decide +kernel, by decide +kernel, by decide +kernel, by decide +kernel, by decide +kernel⟩
theorem witness_DuplicateRequests_1 : ∃ (s : State) (op : Nat) (r : Req), s.Inv ∧ r.src.wf = true :=
  ⟨live, 0xF12, req 0xF12 (.func 0) [160,0,0x20,0], inv_of (by decide +kernel), by decide +kernel⟩
theorem witness_LedgerEngine_0 : ∃ (s : State) (n : Nat), s.Inv :=
  ⟨ents live [led 5 .accepted 0 0 0 false], 6, inv_of (by decide +kernel)⟩
theorem witness_LedgerEngine_1 : ∃ (s : State) (n : Nat) (disp : Nat) (err : Nat), s.Inv :=
  ⟨wents live [5], 5, 3, 7, inv_of (by decide +kernel)⟩
theorem witness_LedgerEngine_2 : ∃ (s : State) (n : Nat), s.Inv :=
  ⟨live, 5, inv_of (by decide +kernel)⟩
theorem witness_LedgerEngine_3 : ∃ (s : State) (n : Nat), s.Inv :=
  ⟨ents live [led 5 .reported 0 1 2 false, led 6 .accepted 0 1 2 false], 5, inv_of (by decide +kernel)⟩
theorem witness_LedgerEngine_4 : ∃ (s : State), s.Inv :=
  ⟨dups { live with now := 50000000 } [dup 9 77 6 0, { dup 10 78 6 0 with acc := 49999999 }], inv_of (by decide +kernel)⟩
theorem witness_LedgerEngine_5 : ∃ (s : State) (lost : Bool) (at_ : Nat), s.Inv :=
  ⟨live, true, 5, inv_of (by decide +kernel)⟩
theorem witness_LedgerEngine_6 : ∃ (s : State), s.Inv ∧ s.led.replayDue = true ∧ s.quiesces = [] ∧ s.grants = [] :=
  ⟨lf (ents live [led 5 .executing 0 0 0 false, led 6 .accepted 0 0 0 false]) (fun x => { x with replayDue := true, lossAt := 3 }), inv_of (by decide +kernel), by decide +kernel, by decide +kernel, by decide +kernel⟩
theorem witness_LedgerEngine_7 : ∃ (s : State) (n : Nat), s.Inv :=
  ⟨ents live [led 5 .disposed 0xC003 1 2 false, led 6 .accepted 0 0 0 false], 5, inv_of (by decide +kernel)⟩
theorem witness_LedgerEngine_8 : ∃ (s : State) (r : Req), s.Inv ∧ r.src.wf = true :=
  ⟨live, dl (req 0xF10 (.func 0) []) 5, inv_of (by decide +kernel), by decide +kernel⟩
theorem witness_RegisterWrites_0 : ∃ (s : State) (l : Lane) (who : Initiator) (a : Nat) (v : Word), s.Inv ∧ (pageWrite l who a v s = none ∧ rowWrite l who a v s = none) ∧ (regSpace a = false ∨ s.mayReg l who a = false ∨ s.regAnswers l a = false) :=
  ⟨live, .E, .elder, 0xE1900000, 5, inv_of (by decide +kernel), by decide +kernel, by decide +kernel⟩
theorem witness_RegisterWrites_1 : ∃ (s : State) (l : Lane) (who : Initiator) (a : Nat) (v : Word), s.Inv ∧ (pageWrite l who a v s = none ∧ rowWrite l who a v s = none) ∧ regSpace a = true ∧ s.mayReg l who a = true ∧ s.regAnswers l a = true :=
  ⟨(gb live (R.LHS_WATTR_PC 0) 0).setReg .E (R.LHS_EVT_CFG 7) 1, .E, .secure, R.PCH_DUTY 0 3, 5, inv_of (by decide +kernel), by decide +kernel, by decide +kernel, by decide +kernel, by decide +kernel⟩
theorem witness_RegisterWrites_2 : ∃ (s : State) (l : Lane) (who : Initiator) (a : Nat) (v : Word), s.Inv ∧ (pageWrite l who a v s = none ∧ rowWrite l who a v s = none) ∧ regSpace a = true ∧ s.mayReg l who a = true ∧ s.regAnswers l a = true ∧ s.foreign l who a = none ∧ a ∉ [R.FERRY_IMAGE_MAX, R.TIDE_MAXDLY, R.FCH_WAKE_STAT 0, R.FCH_WAKE_STAT 1] ++ List.map R.RSTC_WDT_CFG (List.range 6) ++ List.map (fun f ↦ R.SUPC_FEED_STAT (f + 1)) (List.range 6) ++ List.map (fun f ↦ R.SUPC_FEED_MIN (f + 1)) (List.range 6) ∧ (a < R.CAN_FLTRAM 0 0 ∨ R.CAN_FLTRAM 8192 0 ≤ a) :=
  ⟨live, .E, .elder, R.FERRY_CFG, 0xFFFFFFFF, inv_of (by decide +kernel), by decide +kernel, by decide +kernel, by decide +kernel, by decide +kernel, by decide +kernel, by decide +kernel, by decide +kernel⟩
theorem witness_RegisterWrites_3 : ∃ (s : State) (l : Lane) (n : Nat) (v : Word), s.Inv ∧ n ≤ 5 ∧ s.regAnswers l (R.RSTC_WDT_CFG n) = true :=
  ⟨live, .E, 5, 0x03E70002, inv_of (by decide +kernel), by decide +kernel, by decide +kernel⟩
theorem witness_RegisterWrites_4 : ∃ (s : State) (l : Lane) (v : Word), s.Inv ∧ (BitVec.toNat v).testBit 31 = true :=
  ⟨(live.setReg .E R.FERRY_IMAGE_MAX 77).setReg .E R.TIDE_MAXDLY 5, .E, 0x80000000, inv_of (by decide +kernel), by decide +kernel⟩
theorem witness_RegisterWrites_5 : ∃ (s : State) (l : Lane) (v : Word) (f : Nat), s.Inv ∧ 1 ≤ f ∧ f ≤ 6 ∧ (BitVec.toNat v).testBit 31 = true ∧ s.regAnswers l (R.SUPC_FEED_MIN f) = true :=
  ⟨live, .E, 0x80000000, 6, inv_of (by decide +kernel), by decide +kernel, by decide +kernel, by decide +kernel, by decide +kernel⟩
theorem witness_RegistersWithRows_0 : ∃ (s : State) (l : Lane) (who : Initiator) (v : Word) (n : Nat), n < 65 :=
  ⟨live, .E, .func 5, 3, 5, by decide +kernel⟩
theorem witness_RegistersWithRows_1 : ∃ (s : State) (l : Lane) (who : Initiator) (v : Word) (n : Nat) (k : Nat) (i : Nat), n < 65 ∧ k < 8 ∧ i < 16 :=
  ⟨live, .E, .func 64, 3, 63, 7, 15, by decide +kernel, by decide +kernel, by decide +kernel⟩
theorem witness_RegistersWithRows_2 : ∃ (s : State) (l : Lane) (who : Initiator) (v : Word) (f : Nat) (i : Nat), f < 64 ∧ i < 16 :=
  ⟨qst 0 1 2 0 0, .E, .func 0, 3, 0, 0, by decide +kernel, by decide +kernel⟩
theorem witness_RegistersWithRows_5 : ∃ (s : State) (l : Lane) (who : Initiator) (v : Word) (n : Nat), n < 16 ∧ (BitVec.toNat v).testBit 0 = true :=
  ⟨live, .E, .elder, 1, 15, by decide +kernel, by decide +kernel⟩
theorem witness_RegistersWithRows_6 : ∃ (s : State) (l : Lane) (who : Initiator) (v : Word) (n : Nat), n < 8 ∧ (BitVec.toNat v).testBit 0 = true :=
  ⟨live, .E, .elder, 1, 7, by decide +kernel, by decide +kernel⟩
theorem witness_RegistersWithRows_7 : ∃ (s : State) (l : Lane) (who : Initiator) (v : Word) (n : Nat), n < 4 :=
  ⟨live, .E, .elder, 1, 3, by decide +kernel⟩
theorem witness_RegistersWithRows_8 : ∃ (s : State) (l : Lane) (who : Initiator) (v : Word) (n : Nat), n < 64 ∧ (BitVec.toNat v).testBit 1 = true :=
  ⟨live, .E, .elder, 3, 63, by decide +kernel, by decide +kernel⟩
theorem witness_RegistersWithRows_9 : ∃ (s : State) (l : Lane) (who : Initiator) (v : Word), (BitVec.toNat v).testBit 0 = true :=
  ⟨live, .E, .elder, 1, by decide +kernel⟩
theorem witness_CommitCopies_0 : ∃ (s : State) (l : Lane) (who : Initiator) (a : Nat), (commitRanges a = none ∨ s.mayReg l who a = false ∨ s.regAnswers l a = false) :=
  ⟨live, .E, .elder, R.FERRY_CFG, by decide +kernel⟩
theorem witness_CommitCopies_1 : ∃ (s : State) (l : Lane) (who : Initiator) (a : Nat), s.Inv ∧ s.mayReg l who a = true ∧ s.regAnswers l a = true :=
  ⟨live.setShadow .E R.FERRY_CFG 7, .E, .elder, R.FERRY_COMMIT, inv_of (by decide +kernel), by decide +kernel, by decide +kernel⟩
theorem witness_CommitCopies_2 : ∃ (s : State) (l : Lane) (who : Initiator) (a : Nat) (b : Nat), s.Inv ∧ s.mayReg l who a = true ∧ s.regAnswers l a = true :=
  ⟨live.setShadow .E R.FERRY_CFG 7, .E, .elder, R.FERRY_COMMIT, R.FERRY_CFG, inv_of (by decide +kernel), by decide +kernel, by decide +kernel⟩
theorem witness_CommitCopies_3 : ∃ (s : State) (l : Lane) (b : Nat), (s.tideRuns l = false ∨ b ∈ [2, 6, 7, 8, 12, 13, 14, 17]) :=
  ⟨live, .E, 6, by decide +kernel⟩
theorem witness_CommitCopies_4 : ∃ (s : State) (l : Lane) (k : Commit) (n : Nat), s.Inv ∧ s.tideRuns l = true ∧ s.quiesces = [] ∧ s.grants = [] ∧ List.filter (fun c ↦ c.block == k.block && c.lane == l) s.commits = [k] ∧ k.lsns = [n] ∧ (∀ c ∈ s.commits, n ∈ c.lsns → c = k) ∧ (k.block = 21 → k.region = 0) ∧ (List.map Prod.fst k.writes).Nodup ∧ (∀ w ∈ k.writes, rwsMask w.1 ≠ 0) :=
  ⟨{ (wents live [5]) with commits := [⟨3, 0, .E, [(R.FERRY_CFG, 0x207E0)], 3, [5], false⟩] }, .E, ⟨3, 0, .E, [(R.FERRY_CFG, 0x207E0)], 3, [5], false⟩, 5, inv_of (by decide +kernel), by decide +kernel, by decide +kernel, by decide +kernel, by decide +kernel, by decide +kernel, by decide +kernel, by decide +kernel, by decide +kernel, by decide +kernel⟩

end Sys2Proof.Tests
end

namespace Sys2Proof.Machine

/-- The four words of IDENTIFY begin with the DEVICE_ID (Table 7.11, R1). -/
theorem identifyData_deviceId (s : State) (l : Lane) : ∃ bs, identifyData s l = leBytes 4 0x4C5A41B0 ++ bs := by
  unfold identifyData
  simp only [List.append_assoc]
  exact ⟨_, rfl⟩

end Sys2Proof.Machine

open Sys2Proof Sys2Proof.Machine in
/-- Settles O6: the answer of IDENTIFY begins with the four bytes of the DEVICE_ID, whichever lane serves. -/
theorem deviceIdentity : Obligations.DeviceIdentity := by
  intro s r h
  obtain ⟨t, ht, ha, -⟩ := h.answers rfl (fun _ _ => rfl) rfl
  refine ⟨t, ht, _, ha, ?_⟩
  obtain ⟨bs, hbs⟩ := identifyData_deviceId (taken s r).1 (((taken s r).1.servedBy (taken s r).2.lane).getD (taken s r).2.lane)
  show fieldAt (identifyData _ _) 0 4 = _ ∧ fieldAt (identifyData _ _) 1 3 = _ ∧ fieldAt (identifyData _ _) 0 1 = _
  rw [hbs, fieldAt_append_left _ _ _ _ (by decide), fieldAt_append_left _ _ _ _ (by decide), fieldAt_append_left _ _ _ _ (by decide)]
  decide

namespace Sys2Proof.Machine

/-! ### Which row a register write reaches -/

theorem execRegWrite_of_page {l : Lane} {who : Initiator} {a : Nat} {v : Word} {s : State} {x : Out}
    (h : pageWrite l who a v s = some x) : execRegWrite l who a v s = x := by
  unfold execRegWrite
  rw [h]

theorem execRegWrite_of_row {l : Lane} {who : Initiator} {a : Nat} {v : Word} {s : State} {x : Out}
    (hp : pageWrite l who a v s = none) (h : rowWrite l who a v s = some x) : execRegWrite l who a v s = x := by
  unfold execRegWrite
  rw [hp, h]

/-- The address is neither in a mailbox's page nor in a doorbell page. -/
def offPages (a : Nat) : Prop := (a < 0xE0510000 ∨ 0xE0551000 ≤ a) ∧ (a < 0xE1280000 ∨ 0xE12C0000 ≤ a)

theorem pageWrite_none {l : Lane} {who : Initiator} {a : Nat} {v : Word} {s : State} (h : offPages a) :
    pageWrite l who a v s = none := by
  obtain ⟨h1, h2⟩ := h
  unfold pageWrite
  rw [if_neg (by simp only [R.SCSM_MB_DOORBELL]; omega), if_neg (by simp only [R.IOV_DB_SQ_TAIL]; omega)]

/-! ### Pages (R213, R540) -/

/-- The row of offset `o` of mailbox `n`'s page: the first case of `pageWrite`, as `pageWrite_mailbox` says. -/
def mailboxRow (l : Lane) (who : Initiator) (n o : Nat) (v : Word) (s : State) : Option Out :=
  if o = 0 then some (execDoorbell l who n (v.toNat % 8) s)
  else if o = 8 then some (execRespAck l who n (v.toNat % 256) s)
  else if o = 0xC then some (execCplHeadWrite l who n (v.toNat % 64) s)
  else if 0x200 ≤ o ∧ o < 0x400 then some (execReqSlotWrite l who n ((o - 0x200) / 64) (o % 64) v s)
  else none

/-- A write to offset `o` of mailbox `n`'s page. -/
theorem pageWrite_mailbox {l : Lane} {who : Initiator} {n o : Nat} {v : Word} {s : State} (hn : n < 65) (ho : o < 0x1000) :
    pageWrite l who (R.SCSM_MB_DOORBELL n + o) v s =
      mailboxRow l who n o v s := by
  have h1 : (R.SCSM_MB_DOORBELL n + o - R.SCSM_MB_DOORBELL 0) / 0x1000 = n := by simp only [R.SCSM_MB_DOORBELL]; omega
  have h2 : (R.SCSM_MB_DOORBELL n + o - R.SCSM_MB_DOORBELL 0) % 0x1000 = o := by simp only [R.SCSM_MB_DOORBELL]; omega
  unfold pageWrite
  rw [if_pos (by simp only [R.SCSM_MB_DOORBELL]; omega), h1, h2]
  rfl

/-- A write to offset `o` of the doorbell registers of function `f`'s page. -/
theorem pageWrite_doorbells {l : Lane} {who : Initiator} {f o : Nat} {v : Word} {s : State} (hf : f < 64) (ho : o < 0x100) :
    pageWrite l who (R.IOV_DB_SQ_TAIL f 0 + o) v s =
      if o % 16 = 0 then some (execIovSqDoorbell l who f (o / 16) v s)
      else if o % 16 = 4 then some (execIovCqHeadWrite l who f (o / 16) v s)
      else none := by
  have h1 : (R.IOV_DB_SQ_TAIL f 0 + o - R.IOV_DB_SQ_TAIL 0 0) / 0x1000 = f := by simp only [R.IOV_DB_SQ_TAIL]; omega
  have h2 : (R.IOV_DB_SQ_TAIL f 0 + o - R.IOV_DB_SQ_TAIL 0 0) % 0x1000 = o := by simp only [R.IOV_DB_SQ_TAIL]; omega
  unfold pageWrite
  rw [if_neg (by simp only [R.SCSM_MB_DOORBELL, R.IOV_DB_SQ_TAIL]; omega),
    if_pos (by simp only [R.IOV_DB_SQ_TAIL]; omega), h1, h2, if_neg (by omega)]

theorem regWrite_mailbox {l : Lane} {who : Initiator} {v : Word} {s : State} {a n o : Nat} {x : Out}
    (ha : a = R.SCSM_MB_DOORBELL n + o) (hn : n < 65) (ho : o < 0x1000)
    (hx : mailboxRow l who n o v s = some x) : execRegWrite l who a v s = x := by
  refine execRegWrite_of_page ?_
  rw [ha, pageWrite_mailbox hn ho, hx]

theorem regWrite_reqSlot (l : Lane) (who : Initiator) (v : Word) (s : State) {n k i : Nat} (hn : n < 65) (hk : k < 8) (hi : i < 16) :
    execRegWrite l who (R.SCSM_MB_REQ n k i) v s = execReqSlotWrite l who n k (4 * i) v s := by
  have ha : R.SCSM_MB_REQ n k i = R.SCSM_MB_DOORBELL n + (0x200 + 64 * k + 4 * i) := by
    simp only [R.SCSM_MB_REQ, R.SCSM_MB_DOORBELL]; omega
  refine execRegWrite_of_page ?_
  rw [ha, pageWrite_mailbox hn (by omega), mailboxRow, if_neg (by omega), if_neg (by omega), if_neg (by omega), if_pos (by omega)]
  rw [show (0x200 + 64 * k + 4 * i - 0x200) / 64 = k by omega, show (0x200 + 64 * k + 4 * i) % 64 = 4 * i by omega]

theorem regWrite_sqTail (l : Lane) (who : Initiator) (v : Word) (s : State) {f i : Nat} (hf : f < 64) (hi : i < 16) :
    execRegWrite l who (R.IOV_DB_SQ_TAIL f i) v s = execIovSqDoorbell l who f i v s := by
  have ha : R.IOV_DB_SQ_TAIL f i = R.IOV_DB_SQ_TAIL f 0 + 16 * i := by simp only [R.IOV_DB_SQ_TAIL]; omega
  refine execRegWrite_of_page ?_
  rw [ha, pageWrite_doorbells hf (by omega), if_pos (by omega), show 16 * i / 16 = i by omega]

theorem regWrite_cqHead (l : Lane) (who : Initiator) (v : Word) (s : State) {f i : Nat} (hf : f < 64) (hi : i < 16) :
    execRegWrite l who (R.IOV_DB_CQ_HEAD f i) v s = execIovCqHeadWrite l who f i v s := by
  have ha : R.IOV_DB_CQ_HEAD f i = R.IOV_DB_SQ_TAIL f 0 + (16 * i + 4) := by
    simp only [R.IOV_DB_CQ_HEAD, R.IOV_DB_SQ_TAIL]; omega
  refine execRegWrite_of_page ?_
  rw [ha, pageWrite_doorbells hf (by omega), if_neg (by omega), if_pos (by omega), show (16 * i + 4) / 16 = i by omega]

/-! ### Rows by port, time base and window -/

/-- An address past CVC_SEQ_SW is none of the registers that `rowWrite` compares with first. -/
theorem rowWrite_late {a : Nat} (h : 0xE0A00000 < a) :
    (a = R.RSTC_REQ) = False ∧ (a = R.RSTC_BLKRST) = False ∧ (a = R.RSTC_FORCE) = False ∧ (a = R.RSTC_CMN) = False ∧
      (a ≤ R.RSTC_WDT_KICK 5) = False ∧ (a = R.RSTC_STATUS) = False ∧ (a = R.FERRY_CTRL) = False ∧ (a = R.CVC_SEQ_SW) = False := by
  simp only [eq_iff_iff, iff_false, R.RSTC_REQ, R.RSTC_BLKRST, R.RSTC_FORCE, R.RSTC_CMN, R.RSTC_WDT_KICK, R.RSTC_STATUS,
    R.FERRY_CTRL, R.CVC_SEQ_SW]
  omega

theorem rowWrite_canCtl {l : Lane} {who : Initiator} {n : Nat} {v : Word} {s : State} (hn : n < 16)
    (hv : v.toNat.testBit 0 = true) : rowWrite l who (R.CAN_CTL n) v s = some (execCanCtlRecover l who n s) := by
  have hl := rowWrite_late (a := R.CAN_CTL n) (by unfold R.CAN_CTL; omega)
  have hs : slotOf (R.CAN_CTL n) = 11 := by unfold slotOf R.CAN_CTL; omega
  have ho : (R.CAN_CTL n % 0x100000 - 0x400) / 0x100 = n := by unfold R.CAN_CTL; omega
  have hw : R.CAN_CTL n % 0x100000 < 0x80000 := by unfold R.CAN_CTL; omega
  simp [rowWrite, hl, hs, ho, hw, hv]

theorem rowWrite_linCtl {l : Lane} {who : Initiator} {n : Nat} {v : Word} {s : State} (hn : n < 8)
    (hv : v.toNat.testBit 0 = true) : rowWrite l who (R.LIN_CTL n) v s = some (execLinCtlWake l who n s) := by
  have hl := rowWrite_late (a := R.LIN_CTL n) (by unfold R.LIN_CTL; omega)
  have hs : slotOf (R.LIN_CTL n) = 12 := by unfold slotOf R.LIN_CTL; omega
  have ho : (R.LIN_CTL n % 0x100000 - 0x400) / 0x100 = n := by unfold R.LIN_CTL; omega
  simp [rowWrite, hl, hs, ho, hv]

theorem rowWrite_tbOfs {l : Lane} {who : Initiator} {n : Nat} {v : Word} {s : State} (hn : n < 4) :
    rowWrite l who (R.TIME_TB_OFS_HI n) v s = some (execServoSample l who n v s) := by
  have hl := rowWrite_late (a := R.TIME_TB_OFS_HI n) (by unfold R.TIME_TB_OFS_HI; omega)
  have hs : slotOf (R.TIME_TB_OFS_HI n) = 14 := by unfold slotOf R.TIME_TB_OFS_HI; omega
  have ho : (R.TIME_TB_OFS_HI n % 0x100000 - 0x100) / 0x80 = n := by unfold R.TIME_TB_OFS_HI; omega
  simp [rowWrite, hl, hs, ho]

theorem rowWrite_tbSet {l : Lane} {who : Initiator} {n : Nat} {v : Word} {s : State} (hn : n < 4) :
    rowWrite l who (R.TIME_TB_SET_SHI n) v s = some (execTimeSetGo l who n v s) := by
  have hl := rowWrite_late (a := R.TIME_TB_SET_SHI n) (by unfold R.TIME_TB_SET_SHI; omega)
  have hs : slotOf (R.TIME_TB_SET_SHI n) = 14 := by unfold slotOf R.TIME_TB_SET_SHI; omega
  have ho : (R.TIME_TB_SET_SHI n % 0x100000 - 0x100) / 0x80 = n := by unfold R.TIME_TB_SET_SHI; omega
  have hne : ¬ R.TIME_TB_SET_SHI n = R.TIME_TB_OFS_HI n := by unfold R.TIME_TB_SET_SHI R.TIME_TB_OFS_HI; omega
  simp [rowWrite, hl, hs, ho, hne]

theorem rowWrite_window {l : Lane} {who : Initiator} {n : Nat} {v : Word} {s : State} (hn : n < 64)
    (hv : v.toNat.testBit 1 = true) : rowWrite l who (R.CWY_W_STAT n) v s = some (execFenceAckWrite l who n s) := by
  have hl := rowWrite_late (a := R.CWY_W_STAT n) (by unfold R.CWY_W_STAT; omega)
  have hs : slotOf (R.CWY_W_STAT n) = 16 := by unfold slotOf R.CWY_W_STAT; omega
  have ho : (R.CWY_W_STAT n % 0x100000 - 0x4000) / 0x40 = n := by unfold R.CWY_W_STAT; omega
  simp [rowWrite, hl, hs, ho, hv]

/-! ### Registers whose write is two or three rows, one after the other -/

theorem regWrite_reset {l : Lane} {who : Initiator} {v : Word} {s t : State} (h : execRstcReqCore l who v s = .next t) :
    execRegWrite l who R.RSTC_REQ v s = execRstcReqSys l who v t := by
  have hr : rowWrite l who R.RSTC_REQ v s = some (thenDo (execRstcReqCore l who v s) (execRstcReqSys l who v)) := rfl
  rw [execRegWrite_of_row rfl hr, h, thenDo]

theorem regWrite_ferryCtrl {l : Lane} {who : Initiator} {v : Word} {s t u : State} (h1 : execFerryCtrlRequest l who v s = .next t)
    (h2 : execFerryCtrlRelease l who v t = .next u) : execRegWrite l who R.FERRY_CTRL v s = execFerryCtrlResync l who v u := by
  have hr : rowWrite l who R.FERRY_CTRL v s =
      some (thenDo (thenDo (execFerryCtrlRequest l who v s) (execFerryCtrlRelease l who v)) (execFerryCtrlResync l who v)) := rfl
  rw [execRegWrite_of_row rfl hr, h1, thenDo, h2, thenDo]

/-! ### COMMIT -/

/-- The COMMIT registers of the blocks. -/
def commitRegs : List Nat :=
  [R.FERRY_COMMIT, R.LEDG_COMMIT, R.SCSM_COMMIT, R.SUPC_COMMIT, R.TIDE_COMMIT, R.CAN_COMMIT, R.LIN_COMMIT, R.ETHS_COMMIT, R.HARB_COMMIT,
    R.NMS_COMMIT, R.LSTP_COMMIT, R.LHS_COMMIT, R.UPD_COMMIT, R.PARI_COMMIT, R.TIME_COMMIT, R.CWY_COMMIT, R.IOV_COMMIT, R.CVC_COMMIT,
    R.CVC_SEL_COMMIT, R.PCH_COMMIT 0, R.PCH_COMMIT 1, R.GDR_COMMIT 0, R.GDR_COMMIT 1, R.FCH_COMMIT 0, R.FCH_COMMIT 1, R.FCH_COMMIT 2]

/-- A write of 1 to a COMMIT has no row before that of COMMIT: its address is no other row's. -/
theorem regWrite_commit (l : Lane) (who : Initiator) {v : Word} (s : State) (hv : v.toNat.testBit 0 = true) :
    ∀ a ∈ commitRegs, execRegWrite l who a v s = execCommitWrite l who a s := by
  have hrow : ∀ a ∈ commitRegs, pageWrite l who a v s = none ∧
      rowWrite l who a v s = if v.toNat.testBit 0 then some (execCommitWrite l who a s) else some (.next (s.busOk 0)) := by
    simp only [commitRegs, List.forall_mem_cons, List.not_mem_nil, false_imp_iff, implies_true, and_true]
    and_intros <;> rfl
  intro a ha
  obtain ⟨hp, hr⟩ := hrow a ha
  exact execRegWrite_of_row hp (hr.trans (if_pos hv))

end Sys2Proof.Machine

open Sys2Proof Sys2Proof.Machine in
/-- Settles O57: each address lies in a mailbox's page, in a doorbell page, or is a row's of `rowWrite`. -/
theorem registersWithRows : Obligations.RegistersWithRows := by
  have port : ∀ {l who a v s x}, 0xE0A00000 < a → a < 0xE1280000 → rowWrite l who a v s = some x → execRegWrite l who a v s = x :=
    fun h1 h2 => execRegWrite_of_row (pageWrite_none ⟨.inr (by omega), .inl h2⟩)
  refine ⟨?mailbox, ?slots, ?doorbells, ?fixed, ?chains, ?can, ?lin, ?time, ?window, ?commit⟩
  case mailbox =>
    intro s l who v n hn
    have hack : R.SCSM_MB_RESP_ACK n = R.SCSM_MB_DOORBELL n + 8 := by unfold R.SCSM_MB_RESP_ACK R.SCSM_MB_DOORBELL; omega
    have hcpl : R.SCSM_MB_CPL_HEAD n = R.SCSM_MB_DOORBELL n + 0xC := by unfold R.SCSM_MB_CPL_HEAD R.SCSM_MB_DOORBELL; omega
    exact ⟨regWrite_mailbox (o := 0) rfl hn (by decide) rfl, regWrite_mailbox hack hn (by decide) rfl,
      regWrite_mailbox hcpl hn (by decide) rfl⟩
  case slots => exact fun s l who v n k i hn hk hi => regWrite_reqSlot l who v s hn hk hi
  case doorbells => exact fun s l who v f i hf hi => ⟨regWrite_sqTail l who v s hf hi, regWrite_cqHead l who v s hf hi⟩
  case fixed =>
    intro s l who v
    exact ⟨rfl, rfl, rfl, rfl, rfl, rfl, rfl, rfl⟩
  case chains =>
    intro s t l who v
    exact ⟨regWrite_reset, fun u h1 h2 => regWrite_ferryCtrl h1 h2⟩
  case can => exact fun s l who v n hn hv => port (by unfold R.CAN_CTL; omega) (by unfold R.CAN_CTL; omega) (rowWrite_canCtl hn hv)
  case lin => exact fun s l who v n hn hv => port (by unfold R.LIN_CTL; omega) (by unfold R.LIN_CTL; omega) (rowWrite_linCtl hn hv)
  case time =>
    intro s l who v n hn
    exact ⟨port (by unfold R.TIME_TB_OFS_HI; omega) (by unfold R.TIME_TB_OFS_HI; omega) (rowWrite_tbOfs hn),
      port (by unfold R.TIME_TB_SET_SHI; omega) (by unfold R.TIME_TB_SET_SHI; omega) (rowWrite_tbSet hn)⟩
  case window => exact fun s l who v n hn hv => port (by unfold R.CWY_W_STAT; omega) (by unfold R.CWY_W_STAT; omega) (rowWrite_window hn hv)
  case commit => exact fun s l who v hv a ha => regWrite_commit l who s hv a ha

namespace Sys2Proof.Machine

/-! ### What the ledger's and the pairs' registers are (R524, spec/06) -/

/-- The field is among those of the list. -/
def Named (xs : List (Nat × Fld)) (a : Nat) (f : Fld) : Prop := (a, f) ∈ xs

/-- An operation writes only fields that `p` names, and touches neither the ledger nor the pending copies. -/
structure State.Writes (p : Nat → Fld → Prop) (s t : State) : Prop where
  regs : RegOnly p s t
  led : t.led = s.led
  commits : t.commits = s.commits

section
variable {p : Nat → Fld → Prop} {s t u : State}

theorem State.Writes.trans (h : s.Writes p t) (k : t.Writes p u) : s.Writes p u :=
  ⟨h.regs.next fun _ => k.regs, k.led.trans h.led, k.commits.trans h.commits⟩

theorem State.Writes.mono {q : Nat → Fld → Prop} (h : s.Writes p t) (k : ∀ a f, p a f → q a f) : s.Writes q t :=
  ⟨h.regs.mono k, h.led, h.commits⟩

theorem State.Writes.setFld (w : rfWf s.regs = true) (l : Lane) {a : Nat} {f : Fld} (v : Nat) (ha : a < 2 ^ 32) (hf : Fld.ok f)
    (hp : p a f) : s.Writes p (s.setFld l a f v) :=
  ⟨.setFld w ha hf hp, State.setFld_led .., State.setFld_commits ..⟩

theorem State.Writes.foldl {α : Type} {g : State → α → State} {xs : List α}
    (hg : ∀ t x, x ∈ xs → rfWf t.regs = true → State.Writes p t (g t x)) (w : rfWf s.regs = true) : s.Writes p (xs.foldl g s) := by
  induction xs generalizing s with
  | nil => exact ⟨.refl w, rfl, rfl⟩
  | cons x xs ih =>
    have hx := hg s x List.mem_cons_self w
    exact hx.trans (ih (fun t y hy => hg t y (List.mem_cons_of_mem _ hy)) hx.regs.wf)

theorem State.Writes.forEach {g : State → Nat → State} {ks : List Nat}
    (hg : ∀ t k, k ∈ ks → rfWf t.regs = true → State.Writes p t (g t k)) (w : rfWf s.regs = true) :
    s.Writes p (s.forEach ks g) := by
  induction ks generalizing s with
  | nil => exact ⟨.refl w, rfl, rfl⟩
  | cons k ks ih =>
    have hk := hg s k List.mem_cons_self w
    exact hk.trans (ih (fun t j hj => hg t j (List.mem_cons_of_mem _ hj)) hk.regs.wf)

end

/-- What follows the ledger in its registers. -/
def ledgFields : List (Nat × Fld) :=
  [(R.LEDG_STATUS, F.LEDG_STATUS_IN_FLIGHT), (R.LEDG_FREE, F.LEDG_FREE_FREE), (R.LEDG_DEDUP, F.LEDG_DEDUP_FILL),
    (R.LEDG_LSN_LO, Fld.whole), (R.LEDG_LSN_HI, F.LEDG_LSN_HI_NEXT_LSN_HI), (R.LEDG_STATUS, F.LEDG_STATUS_MIRRORED),
    (R.LEDG_STATUS, F.LEDG_STATUS_PERSIST_WAIT), (R.LEDG_STATUS, F.LEDG_STATUS_RECOVERING)]

theorem ledgFields_ok : ∀ x ∈ ledgFields, x.1 < 2 ^ 32 ∧ Fld.ok x.2 := by
  unfold Fld.ok
  decide

theorem State.syncLedgLane_writes {s : State} (w : rfWf s.regs = true) (l : Lane) :
    RegOnly (Named ledgFields) s (s.syncLedgLane l) := by
  have put : ∀ {t : State} {a : Nat} {f : Fld} {v : Nat}, (a, f) ∈ ledgFields → rfWf t.regs = true →
      RegOnly (Named ledgFields) t (t.setFld l a f v) :=
    fun hx w => .setFld w (ledgFields_ok _ hx).1 (ledgFields_ok _ hx).2 hx
  unfold State.syncLedgLane
  exact (put (by decide) w).next fun w => (put (by decide) w).next fun w => (put (by decide) w).next fun w =>
    (RegOnly.setReg w (by decide) (by unfold Named; decide)).next fun w => (put (by decide) w).next fun w =>
    (put (by decide) w).next fun w => (put (by decide) w).next fun w => put (by decide) w

theorem State.syncLedg_writes {s : State} (w : rfWf s.regs = true) : RegOnly (Named ledgFields) s s.syncLedg :=
  (State.syncLedgLane_writes w .E).next fun w => State.syncLedgLane_writes w .W

/-- Whether the pairs run and are compared. -/
def pairFields : List (Nat × Fld) :=
  (List.range 5).map (fun k => (R.LSTP_PAIR_STAT k, F.LSTP_PAIR_STAT_RUNNING)) ++
    (List.range 5).map (fun k => (R.LSTP_PAIR_STAT k, F.LSTP_PAIR_STAT_COMPARING))

theorem pairFields_mem : ∀ k ∈ List.range 5, R.LSTP_PAIR_STAT k < 2 ^ 32 ∧
    (R.LSTP_PAIR_STAT k, F.LSTP_PAIR_STAT_RUNNING) ∈ pairFields ∧ (R.LSTP_PAIR_STAT k, F.LSTP_PAIR_STAT_COMPARING) ∈ pairFields := by
  decide

theorem State.syncPairs_writes {s : State} (w : rfWf s.regs = true) (l : Lane) : s.Writes (Named pairFields) (s.syncPairs l) := by
  refine .forEach (fun t k hk w => ?_) w
  obtain ⟨ha, hr, hc⟩ := pairFields_mem k hk
  exact .trans (.setFld w l _ ha (by unfold Fld.ok; decide) hr) (.setFld (State.setFld_wf w) l _ ha (by unfold Fld.ok; decide) hc)

/-! ### What the end of a commit writes beside the configuration (R17, R21) -/

/-- The CFG_INCONSISTENT flags of the blocks whose copies wait for a safe point of their lane. -/
def configFlags : List (Nat × Fld) :=
  [(R.FERRY_STATUS, F.FERRY_STATUS_CFG_INCONSISTENT), (R.LEDG_STATUS, F.LEDG_STATUS_CFG_INCONSISTENT),
    (R.SCSM_STATUS, F.SCSM_STATUS_CFG_INCONSISTENT), (R.HARB_STATUS, F.HARB_STATUS_CFG_INCONSISTENT),
    (R.LSTP_STATUS, F.LSTP_STATUS_CFG_INCONSISTENT), (R.LHS_STATUS, F.LHS_STATUS_CFG_INCONSISTENT),
    (R.PARI_STATUS, F.PARI_STATUS_CFG_INCONSISTENT)]

/-- A field that is neither configuration (its register has no RWS field) nor one of these flags. -/
def besideConfig (a : Nat) (f : Fld) : Prop :=
  (rwsMask a == 0 && configFlags.all (fun x => x.1 != a || decide (f.hi < x.2.lo ∨ x.2.hi < f.lo))) = true

theorem besideConfig.apart {a : Nat} {f g : Fld} (h : besideConfig a f) (hx : (a, g) ∈ configFlags) : Fld.apart f g := by
  simp only [besideConfig, Bool.and_eq_true, List.all_eq_true] at h
  simpa [Fld.apart] using h.2 _ hx

theorem configFlags_ok : ∀ x ∈ configFlags, x.1 < 2 ^ 32 ∧ Fld.ok x.2 ∧ x.2.lo = x.2.hi ∧ rwsMask x.1 = 0 := by
  unfold Fld.ok
  decide

/-- The RWS mask that a row of the register table gives, as `rwsMask_eq` says. -/
def rwsOf (r : Option RegRow) : Word :=
  match r with
  | some r => BitVec.ofNat 32 r.rws
  | none => 0

theorem rwsMask_eq (a : Nat) : rwsMask a = rwsOf (regRow a) := rfl

theorem slotRows_none {n : Nat} (h : 24 ≤ n) : slotRows n = [] := by
  unfold slotRows
  split
  case h_25 => rfl
  all_goals omega

/-- Configuration lies below 4 GiB, in the register space. -/
theorem lt_of_rwsMask {a : Nat} (h : rwsMask a ≠ 0) : a < 2 ^ 32 := by
  by_contra hn
  have hs : 24 ≤ slotOf a := by unfold slotOf; omega
  have hr : regRow a = none := by
    unfold regRow
    exact slotRows_none hs ▸ List.find?_nil
  exact h ((rwsMask_eq a).trans (congrArg rwsOf hr))

theorem RegOnly.config {s t : State} (h : RegOnly besideConfig s t) (l : Lane) {a : Nat} (ha : rwsMask a ≠ 0) :
    t.reg l a = s.reg l a := by
  refine h.reg l a (lt_of_rwsMask ha) (fun f hf => ha ?_)
  simp only [besideConfig, Bool.and_eq_true, beq_iff_eq] at hf
  exact hf.1

theorem ledgFields_besides : ∀ x ∈ ledgFields, besideConfig x.1 x.2 := by
  unfold besideConfig
  decide

theorem pairFields_besides : ∀ x ∈ pairFields, besideConfig x.1 x.2 := by
  unfold besideConfig
  decide

theorem ledgCnt_besides : ∀ d ∈ [dDONE, dFAILED], R.LEDG_CNT d < 2 ^ 32 ∧ besideConfig (R.LEDG_CNT d) Fld.whole := by
  unfold besideConfig
  decide

/-- The end of an entry writes no configuration. -/
theorem State.endEntry_besides {s : State} (w : rfWf s.regs = true) (n err : Nat) {d : Nat} (hd : d ∈ [dDONE, dFAILED]) :
    RegOnly besideConfig s (s.endEntry n d err) := by
  obtain ⟨ha, hp⟩ := ledgCnt_besides d hd
  unfold State.endEntry
  split
  · exact .refl w
  · split
    · extract_lets u ds v
      have hv : RegOnly besideConfig s (u.setLed { u.led with dups := ds }) := .of rfl w
      exact hv.next fun w => (RegOnly.countBoth w ha hp).next fun w =>
        (State.syncLedg_writes w).mono fun a f hx => ledgFields_besides (a, f) hx
    · exact .refl w

/-- A change of entry `n` that keeps its number. -/
theorem State.entry_mapEntry (s : State) (n : Nat) {f : LEntry → LEntry} (hf : ∀ e, (f e).lsn = e.lsn) :
    (s.mapEntry n f).entry n = (s.entry n).map f := by
  have hp : ((fun e : LEntry => e.lsn == n) ∘ fun e => if e.lsn = n then f e else e) = fun e => e.lsn == n := by
    funext e
    simp only [Function.comp]
    split
    · rw [hf]
    · rfl
  show (s.led.entries.map _).find? _ = (s.led.entries.find? _).map f
  rw [List.find?_map, hp]
  cases he : s.led.entries.find? (fun e => e.lsn == n) with
  | none => rfl
  | some e => simp [show e.lsn = n by simpa using List.find?_some he]

/-- A live entry that ends has its disposition (Table 6.2). -/
theorem State.endEntry_disposes (s : State) (n d err : Nat) : s.Disposes (s.endEntry n d err) n d err := by
  intro e he hl
  have he : s.entry n = some e := he
  have hs : e.st = .accepted ∨ e.st = .executing := by simpa [LEntry.live] using hl
  refine ⟨{ e with st := .disposed, disp := d, err := err, doneAt := s.now }, ?_, rfl, rfl, rfl⟩
  unfold State.endEntry
  rw [he]
  simp only [hs, if_true]
  have hm := s.entry_mapEntry n (f := fun e => { e with st := .disposed, disp := d, err := err, doneAt := s.now }) (fun _ => rfl)
  rw [he] at hm
  unfold State.entry at hm ⊢
  rw [syncLedg_led, countBoth_led]
  exact hm

/-! ### The active set takes a copy -/

theorem State.activate_reg_self {s : State} (w : rfWf s.regs = true) (l : Lane) (a : Nat) (v : Word) :
    (s.activate l a v).reg l a = (s.reg l a &&& ~~~(rwsMask a)) ||| (v &&& rwsMask a) :=
  State.reg_setReg_self w _ _ _

theorem State.activate_reg_ne {s : State} {l : Lane} {a b : Nat} {v : Word} (ha : rwsMask a ≠ 0) (hb : rwsMask b ≠ 0) (h : a ≠ b) :
    (s.activate l a v).reg l b = s.reg l b :=
  State.reg_setReg_ne (regKey_ne (lt_of_rwsMask ha) (lt_of_rwsMask hb) h)

theorem State.activateAll_reg_ne {s : State} {l : Lane} {ws : List RegCell} {b : Nat} (hw : ∀ w ∈ ws, rwsMask w.1 ≠ 0)
    (hb : rwsMask b ≠ 0) (h : b ∉ ws.map Prod.fst) : (s.activateAll l ws).reg l b = s.reg l b := by
  induction ws generalizing s with
  | nil => rfl
  | cons c cs ih =>
    obtain ⟨a, v⟩ := c
    simp only [List.map_cons, List.mem_cons, not_or] at h
    show ((s.activate l a v).activateAll l cs).reg l b = _
    rw [ih (fun w hm => hw w (List.mem_cons_of_mem _ hm)) h.2, State.activate_reg_ne (hw (a, v) List.mem_cons_self) hb (Ne.symm h.1)]

theorem State.activateAll_reg {s : State} (w : rfWf s.regs = true) {l : Lane} {ws : List RegCell} (hw : ∀ w ∈ ws, rwsMask w.1 ≠ 0)
    (hn : (ws.map Prod.fst).Nodup) {c : RegCell} (hc : c ∈ ws) :
    (s.activateAll l ws).reg l c.1 = (s.reg l c.1 &&& ~~~(rwsMask c.1)) ||| (c.2 &&& rwsMask c.1) := by
  induction ws generalizing s with
  | nil => cases hc
  | cons d ds ih =>
    obtain ⟨a, v⟩ := d
    have hds : ∀ w ∈ ds, rwsMask w.1 ≠ 0 := fun w hm => hw w (List.mem_cons_of_mem _ hm)
    obtain ⟨hna, hnd⟩ := List.nodup_cons.mp hn
    show ((s.activate l a v).activateAll l ds).reg l c.1 = _
    rcases List.mem_cons.mp hc with rfl | hc
    · rw [State.activateAll_reg_ne hds (hw _ List.mem_cons_self) hna, State.activate_reg_self w]
    · have hne : a ≠ c.1 := fun e => hna (List.mem_map.mpr ⟨c, hc, e.symm⟩)
      rw [ih (s := s.activate l a v) (State.setReg_wf w) hds hnd hc, State.activate_reg_ne (hw (a, v) List.mem_cons_self) (hds c hc) hne]

/-! ### A copy at its safe point (R19, R44) -/

theorem State.settleQuiesce_none {s : State} (h : s.quiesces = []) : s.settleQuiesce = s := by
  unfold State.settleQuiesce
  rw [h]
  rfl

theorem State.settleGrants_none {s : State} (h : s.grants = []) : s.settleGrants = s := by
  unfold State.settleGrants
  rw [h]
  rfl

/-- With nothing that waits for it, the end of an entry is all. -/
theorem State.dispose_quiet {s : State} (hq : s.quiesces = []) (hg : s.grants = []) (n d err : Nat) :
    s.dispose n d err = s.endEntry n d err := by
  have h := s.endEntry_served n d err
  unfold State.dispose
  rw [State.settleQuiesce_none (h.quiesces.trans hq), State.settleGrants_none (h.grants.trans hg)]

/-- What is said of an entry's end looks at the ledgers only. -/
theorem State.Disposes.of_led {s s' t t' : State} {n d err : Nat} (h : s.Disposes t n d err) (hs : s.led = s'.led) (ht : t'.led = t.led) :
    s'.Disposes t' n d err := by
  unfold State.Disposes State.entry at *
  rw [ht, ← hs]
  exact h

/-- A copy that carries entry `n` has been taken or refused. -/
def State.Applied (s t : State) (l : Lane) (k : Commit) (n : Nat) (ok : Bool) (a : Nat) (f : Fld) : Prop :=
  k ∉ t.commits ∧
    (ok = true → s.Disposes t n dDONE 0 ∧
      (∀ w ∈ k.writes, t.reg l w.1 = (s.reg l w.1 &&& ~~~(rwsMask w.1)) ||| (w.2 &&& rwsMask w.1)) ∧
      ∀ b, rwsMask b ≠ 0 → b ∉ k.writes.map Prod.fst → t.reg l b = s.reg l b) ∧
    (ok = false → s.Disposes t n dFAILED eCFG_REJECTED ∧ t.bit l a f = true ∧ ∀ b, rwsMask b ≠ 0 → t.reg l b = s.reg l b)

/-- What a block does after it has taken or refused a copy leaves that in place. -/
theorem State.Applied.next {s t u : State} {l : Lane} {k : Commit} {n : Nat} {ok : Bool} {a : Nat} {f : Fld}
    (h : s.Applied t l k n ok a f) (hx : (a, f) ∈ configFlags) (hw : ∀ w ∈ k.writes, rwsMask w.1 ≠ 0)
    (hu : t.Writes besideConfig u) : s.Applied u l k n ok a f := by
  obtain ⟨hk, hok, hbad⟩ := h
  obtain ⟨hr, hl, hc⟩ := hu
  refine ⟨hc ▸ hk, fun e => ?_, fun e => ?_⟩
  · obtain ⟨h1, h2, h3⟩ := hok e
    exact ⟨h1.of_led rfl hl, fun w hm => (hr.config l (hw w hm)).trans (h2 w hm), fun b hb hn => (hr.config l hb).trans (h3 b hb hn)⟩
  · obtain ⟨h1, h2, h3⟩ := hbad e
    obtain ⟨ha, hf, -⟩ := configFlags_ok (a, f) hx
    exact ⟨h1.of_led rfl hl, (hr.bit l ha hf (fun g hg => hg.apart hx)).trans h2, fun b hb => (hr.config l hb).trans (h3 b hb)⟩

/-- The state from which a copy is taken: without it, and with its number applied. -/
def State.taking (s : State) (k : Commit) : State :=
  (s.dropCommit k).setNum { (s.dropCommit k).commitNum k.block k.region with applied := k.num }

theorem State.taking_commits (s : State) (k : Commit) : k ∉ (s.taking k).commits := by
  intro h
  have := (List.mem_filter.mp h).2
  simp [Commit.isAt] at this

/-- Of the state, the taking of a copy changes registers only; these are the parts that the end of its entries looks at. -/
theorem State.activateAll_keeps (s : State) (l : Lane) (ws : List RegCell) :
    (s.activateAll l ws).commits = s.commits ∧ (s.activateAll l ws).led = s.led ∧ (s.activateAll l ws).quiesces = s.quiesces ∧
      (s.activateAll l ws).grants = s.grants := by
  induction ws generalizing s with
  | nil => exact ⟨rfl, rfl, rfl, rfl⟩
  | cons c cs ih =>
    obtain ⟨hc, hl, hq, hg⟩ := ih (s.activate l c.1 c.2)
    exact ⟨hc.trans (State.setReg_commits ..), hl.trans (State.setReg_led ..), hq.trans (State.setReg_quiesces ..),
      hg.trans (State.setReg_grants ..)⟩

theorem State.activateAll_wf {s : State} (w : rfWf s.regs = true) (l : Lane) (ws : List RegCell) :
    rfWf (s.activateAll l ws).regs = true := by
  induction ws generalizing s with
  | nil => exact w
  | cons c cs ih => exact ih (s := s.activate l c.1 c.2) (State.setReg_wf w)

/-- The last copy that carries an entry has been applied. -/
theorem State.settleAll_one {s : State} {n : Nat} (hc : ∀ c ∈ s.commits, n ∉ c.lsns) (hq : s.quiesces = []) (hg : s.grants = []) :
    s.settleAll [n] = s.endEntry n dDONE 0 := by
  have h : s.commits.any (fun c => c.lsns.contains n) = false := by simpa using hc
  show s.settle n = _
  unfold State.settle
  rw [h]
  exact State.dispose_quiet hq hg _ _ _

/-- A copy that alone carries its one entry is taken, and the entry ends. -/
theorem State.applyCommit_ok {s : State} (hq : s.quiesces = []) (hg : s.grants = []) {k : Commit} {n : Nat} (hk : k.lsns = [n])
    (hu : ∀ c ∈ s.commits, n ∈ c.lsns → c = k) (a : Nat) (f : Fld) (err : Nat) :
    s.applyCommit true a f err k = ((s.taking k).activateAll k.lane k.writes).endEntry n dDONE 0 := by
  obtain ⟨ec, -, eq, eg⟩ := (s.taking k).activateAll_keeps k.lane k.writes
  show ((s.taking k).activateAll k.lane k.writes).settleAll k.lsns = _
  rw [hk]
  refine State.settleAll_one (fun c hm hn => ?_) (eq.trans hq) (eg.trans hg)
  rw [ec] at hm
  have he : c = k := hu c (List.mem_filter.mp hm).1 hn
  exact s.taking_commits k (he ▸ hm)

theorem State.applyCommit_bad {s : State} (hq : s.quiesces = []) (hg : s.grants = []) {k : Commit} {n : Nat} (hk : k.lsns = [n])
    (a : Nat) (f : Fld) (err : Nat) :
    s.applyCommit false a f err k = ((s.taking k).setBitF k.lane a f true).endEntry n dFAILED err := by
  show ((s.taking k).setBitF k.lane a f true).disposeAll k.lsns dFAILED err = _
  rw [hk]
  have eq : ((s.taking k).setBitF k.lane a f true).quiesces = [] := (State.setBitF_quiesces ..).trans hq
  have eg : ((s.taking k).setBitF k.lane a f true).grants = [] := (State.setBitF_grants ..).trans hg
  exact State.dispose_quiet eq eg n dFAILED err

/-- A copy that alone carries its one entry is taken, or refused with CFG_INCONSISTENT. -/
theorem State.applyCommit_applied {s : State} (hi : rfWf s.regs = true) (hq : s.quiesces = []) (hg : s.grants = []) {k : Commit}
    {n : Nat} (hk : k.lsns = [n]) (hu : ∀ c ∈ s.commits, n ∈ c.lsns → c = k) (hn : (k.writes.map Prod.fst).Nodup)
    (hw : ∀ w ∈ k.writes, rwsMask w.1 ≠ 0) (ok : Bool) {a : Nat} {f : Fld} (hx : (a, f) ∈ configFlags) :
    s.Applied (s.applyCommit ok a f eCFG_REJECTED k) k.lane k n ok a f ∧ rfWf (s.applyCommit ok a f eCFG_REJECTED k).regs = true := by
  have wt : rfWf (s.taking k).regs = true := hi
  obtain ⟨ha, hf, h1, h0⟩ := configFlags_ok (a, f) hx
  cases ok with
  | true =>
    rw [State.applyCommit_ok hq hg hk hu]
    obtain ⟨ec, el, -, -⟩ := (s.taking k).activateAll_keeps k.lane k.writes
    have we := State.activateAll_wf wt k.lane k.writes
    have hr := fun l b hb => (State.endEntry_besides we n 0 (d := dDONE) (by decide)).config l (a := b) hb
    refine ⟨⟨?_, fun _ => ⟨?_, ?_, ?_⟩, nofun⟩, endEntry_wf we⟩
    · rw [State.Served.commits (State.endEntry_served ..), ec]
      exact s.taking_commits k
    · exact (State.endEntry_disposes _ n dDONE 0).of_led el rfl
    · intro w hm
      rw [hr _ _ (hw w hm)]
      exact State.activateAll_reg wt hw hn hm
    · intro b hb hm
      rw [hr _ _ hb]
      exact State.activateAll_reg_ne hw hb hm
  | false =>
    rw [State.applyCommit_bad hq hg hk]
    have we : rfWf ((s.taking k).setBitF k.lane a f true).regs = true := State.setBitF_wf wt
    have hr := State.endEntry_besides we n eCFG_REJECTED (d := dFAILED) (by decide)
    refine ⟨⟨?_, nofun, fun _ => ⟨?_, ?_, ?_⟩⟩, endEntry_wf we⟩
    · rw [State.Served.commits (State.endEntry_served ..), State.setBitF_commits]
      exact s.taking_commits k
    · have hl : ((s.taking k).setBitF k.lane a f true).led = s.led := State.setBitF_led ..
      exact (State.endEntry_disposes _ n dFAILED _).of_led hl rfl
    · rw [hr.bit k.lane ha hf (fun g hg => hg.apart hx)]
      exact State.bit_setBitF_self wt _ _ _ _ hf h1
    · intro b hb
      rw [hr.config _ hb]
      exact State.reg_setFld_ne (regKey_ne ha (lt_of_rwsMask hb) (fun e => hb (e ▸ h0)))

/-! ### The blocks -/

theorem State.syncWear_writes {s : State} (w : rfWf s.regs = true) (l : Lane) : s.Writes besideConfig (s.syncWear l) :=
  .setFld w l _ (by decide) (by unfold Fld.ok; decide) (by unfold besideConfig; decide)

theorem State.setImg_writes {s : State} (w : rfWf s.regs = true) (l : Lane) (a : Nat) (bs : List Byte) :
    s.Writes besideConfig (s.setImg l a bs) := by
  induction bs generalizing s a with
  | nil => exact ⟨.refl w, rfl, rfl⟩
  | cons b bs ih =>
    have h : s.Writes besideConfig (s.setImgByte l a b) := by
      cases l <;> exact ⟨.of rfl w, rfl, rfl⟩
    exact h.trans (ih h.regs.wf (a + 1))

/-- The Harbour clears the images of new PDUs, or names the PDU or route at fault. -/
theorem State.applyHarb_writes {s : State} {k : Commit}
    (w : rfWf (s.applyCommit (chkHarb s k) R.HARB_STATUS F.HARB_STATUS_CFG_INCONSISTENT eCFG_REJECTED k).regs = true) :
    State.Writes besideConfig (s.applyCommit (chkHarb s k) R.HARB_STATUS F.HARB_STATUS_CFG_INCONSISTENT eCFG_REJECTED k)
      (s.applyHarb k) := by
  unfold State.applyHarb
  extract_lets l old new_ t
  have w : rfWf t.regs = true := w
  split
  · exact .foldl (fun u i _ w => State.setImg_writes w ..) w
  · split
    · have h := State.Writes.setFld (p := besideConfig) w l (a := R.HARB_STATUS) (f := F.HARB_STATUS_ERR_IDX)
      exact (h _ (by decide) (by unfold Fld.ok; decide) (by unfold besideConfig; decide)).trans
        (.setFld (State.setFld_wf w) l _ (by decide) (by unfold Fld.ok; decide) (by unfold besideConfig; decide))
    · exact ⟨.refl w, rfl, rfl⟩

end Sys2Proof.Machine

namespace Sys2Proof.Machine

/-! ### The shadow's copy (R18) -/

/-- Every cell of the list holds the value that `f` gives its address. -/
def CellsOf (f : Nat → Word) (ws : List RegCell) : Prop := ∀ w ∈ ws, w.2 = f w.1

/-- The cells of a list of addresses, put in order one at a time. -/
def cellsAt (f : Nat → Word) (as_ : List Nat) : List RegCell := as_.foldl (fun acc a => cellsInsert acc a (f a)) []

theorem cellsOf_foldl {f : Nat → Word} (as_ : List Nat) {acc : List RegCell} (h : CellsOf f acc) :
    CellsOf f (as_.foldl (fun acc a => cellsInsert acc a (f a)) acc) := by
  induction as_ generalizing acc with
  | nil => exact h
  | cons a as_ ih =>
    refine ih (fun w hw => ?_)
    rcases cellsInsert_mem acc a (f a) w hw with hw | rfl
    · exact h w hw
    · rfl

theorem cellsGet_foldl {f : Nat → Word} (as_ : List Nat) {acc : List RegCell} {b : Nat}
    (h : b ∈ as_ ∨ cellsGet acc b = some (f b)) :
    cellsGet (as_.foldl (fun acc a => cellsInsert acc a (f a)) acc) b = some (f b) := by
  induction as_ generalizing acc with
  | nil => exact h.resolve_left List.not_mem_nil
  | cons a as_ ih =>
    refine ih ?_
    rw [cellsGet_insert]
    by_cases e : a = b
    · exact .inr (by rw [if_pos e, e])
    · rw [if_neg e]
      exact h.imp_left fun h => (List.mem_cons.mp h).resolve_left (Ne.symm e)

theorem State.shadowCopy_cells (s : State) (l : Lane) (lo hi : Nat) : CellsOf (s.shadow l) (s.shadowCopy l lo hi) :=
  cellsOf_foldl _ (fun _ h => absurd h List.not_mem_nil)

theorem exists_cell_of_get {cs : List RegCell} {k : Nat} (h : cellsGet cs k ≠ none) : ∃ c ∈ cs, c.1 = k := by
  induction cs with
  | nil => exact absurd rfl h
  | cons c cs ih =>
    obtain ⟨a, v⟩ := c
    unfold cellsGet at h
    split at h
    · next e => exact ⟨(a, v), List.mem_cons_self, e⟩
    · obtain ⟨d, hd, he⟩ := ih h
      exact ⟨d, List.mem_cons_of_mem _ hd, he⟩

/-- Of two keys of one configuration register, both have its reset value. -/
theorem resetAt_config {k k' : Nat} (hk : k % homeSpan = k' % homeSpan) (hb : rwsMask (k % homeSpan) ≠ 0) : resetAt k = resetAt k' := by
  have h0 : rwsMask 0xE0300010 = 0 := by decide
  have hn : ∀ j, j % homeSpan = k % homeSpan → j ≠ homeSpan + 0xE0300010 := by
    rintro j hj rfl
    exact hb (hj ▸ h0)
  unfold resetAt
  rw [if_neg (hn k rfl), if_neg (hn k' hk.symm), hk]

theorem key_parts (n : Nat) {b : Nat} (hb : b < 2 ^ 32) : (n * homeSpan + b) % homeSpan = b ∧ (n * homeSpan + b) / homeSpan = n := by
  unfold homeSpan
  omega

theorem lane_ix_mod (l : Lane) : l.ix % 2 = l.ix := by cases l <;> rfl

theorem regKey_parts {b : Nat} (hb : b < 2 ^ 32) (l : Lane) :
    regKey l.ix b % homeSpan = b ∧ regKey l.ix b / homeSpan = (if sharedReg b then 2 else l.ix) := by
  have h := key_parts (if sharedReg b then 2 else l.ix % 2) hb
  rw [lane_ix_mod] at h
  unfold regKey
  rw [lane_ix_mod]
  exact h

theorem shadowKey_parts {b : Nat} (hb : b < 2 ^ 32) (l : Lane) :
    shadowKey l.ix b % homeSpan = b ∧ shadowKey l.ix b / homeSpan = 3 + l.ix := by
  have h := key_parts (3 + l.ix % 2) hb
  rw [lane_ix_mod] at h
  unfold shadowKey
  rw [lane_ix_mod]
  exact h

/-- A register whose shadow differs from its active value has a cell in one of the two sets. -/
theorem State.exists_cell (s : State) (l : Lane) {b : Nat} (hb : rwsMask b ≠ 0) (h : s.shadow l b ≠ s.reg l b) :
    ∃ c ∈ s.regs, c.1 = shadowKey l.ix b ∨ c.1 = regKey l.ix b := by
  by_contra hn
  have hnone : ∀ k, k = shadowKey l.ix b ∨ k = regKey l.ix b → cellsGet s.regs k = none := by
    intro k hk
    by_contra hg
    obtain ⟨c, hc, he⟩ := exists_cell_of_get hg
    exact hn ⟨c, hc, he ▸ hk⟩
  have hlt := lt_of_rwsMask hb
  have hm := (shadowKey_parts hlt l).1
  have hr : resetAt (shadowKey l.ix b) = resetAt (regKey l.ix b) :=
    resetAt_config (hm.trans (regKey_parts hlt l).1.symm) (hm.symm ▸ hb)
  refine h ?_
  unfold State.shadow State.reg rfGet
  rw [hnone _ (.inl rfl), hnone _ (.inr rfl), Option.getD_none, Option.getD_none]
  exact hr

/-- The copy of a range holds each of its registers whose shadow differs from the active set. -/
theorem State.shadowCopy_get (s : State) (l : Lane) {lo hi b : Nat} (hb : rwsMask b ≠ 0) (h : s.shadow l b ≠ s.reg l b)
    (hr : lo ≤ b ∧ b < hi) : cellsGet (s.shadowCopy l lo hi) b = some (s.shadow l b) := by
  have hlt := lt_of_rwsMask hb
  obtain ⟨c, hc, hk⟩ := s.exists_cell l hb h
  have hm : c.1 % homeSpan = b ∧ (c.1 / homeSpan = 3 + l.ix ∨ c.1 / homeSpan = if sharedReg b then 2 else l.ix) := by
    rcases hk with hk | hk <;> rw [hk]
    · exact ⟨(shadowKey_parts hlt l).1, .inl (shadowKey_parts hlt l).2⟩
    · exact ⟨(regKey_parts hlt l).1, .inr (regKey_parts hlt l).2⟩
  unfold State.shadowCopy
  refine cellsGet_foldl _ (.inl ?_)
  simp only [List.mem_filter, List.mem_append, List.mem_map]
  refine ⟨.inl ⟨c, ⟨hc, ?_⟩, hm.1⟩, by simpa using hb⟩
  simp [hm.1, hm.2, hr]

/-! ### A COMMIT write (R18, R20) -/

/-- The copy that a COMMIT write takes, of all the ranges of its register. -/
def State.shadowCopies (s : State) (l : Lane) (rs : List (Nat × Nat)) : List RegCell :=
  (rs.map (fun r => s.shadowCopy l r.1 r.2)).flatten

theorem State.shadowCopies_cells (s : State) (l : Lane) (rs : List (Nat × Nat)) : CellsOf (s.shadow l) (s.shadowCopies l rs) := by
  intro w hw
  obtain ⟨_, hc, hw⟩ := List.mem_flatten.mp hw
  obtain ⟨r, -, rfl⟩ := List.mem_map.mp hc
  exact s.shadowCopy_cells l r.1 r.2 w hw

theorem commitRanges_single {a blk : Nat} {rs : List (Nat × Nat)} (h : commitRanges a = some (blk, rs)) : ∃ p, rs = [p] := by
  unfold commitRanges at h
  extract_lets b whole part is at h
  have one : ∀ {x : Option (Nat × List (Nat × Nat))} {k : Nat} {p : Nat × Nat},
      x = some (k, [p]) → x = some (blk, rs) → ∃ p, rs = [p] := by
    rintro x k p rfl h
    exact ⟨p, (Prod.mk.inj (Option.some.inj h)).2.symm⟩
  repeat (split at h; exact one rfl h)
  cases h

/-- The copy of a COMMIT register holds each register of its ranges whose shadow differs from the active set. -/
theorem State.shadowCopies_get (s : State) (l : Lane) {a b : Nat} {x : Nat × List (Nat × Nat)} (hx : commitRanges a = some x)
    (hb : ∃ p ∈ x.2, p.1 ≤ b ∧ b < p.2) (hw : rwsMask b ≠ 0) (hd : s.shadow l b ≠ s.reg l b) :
    cellsGet (s.shadowCopies l x.2) b = some (s.shadow l b) := by
  obtain ⟨p, hp⟩ := commitRanges_single hx
  rw [hp] at hb ⊢
  obtain ⟨q, hq, hq1, hq2⟩ := hb
  rw [List.mem_singleton.mp hq] at hq1 hq2
  simpa [State.shadowCopies] using s.shadowCopy_get l hw hd ⟨hq1, hq2⟩

/-- A copy made pending as a whole is the only one of its region that no frame carries; the others stay. -/
theorem State.addCommit_whole (s : State) (blk g : Nat) (l : Lane) (ws : List RegCell) (lsns : List Nat) :
    (∃ c ∈ (s.addCommit blk g l ws lsns true).commits, c.lane = l ∧ c.block = blk ∧ c.region = g ∧ c.writes = ws) ∧
      (∀ c ∈ (s.addCommit blk g l ws lsns true).commits, (c ∈ s.commits ∧ ¬ (c.isAt blk g l = true ∧ c.carried = false)) ∨
        (c.isAt blk g l = true ∧ c.writes = ws)) ∧
      ∀ c ∈ s.commits, c.isAt blk g l = false → c ∈ (s.addCommit blk g l ws lsns true).commits := by
  refine ⟨⟨_, List.mem_append_right _ (List.mem_singleton.mpr rfl), rfl, rfl, rfl, rfl⟩, fun c hc => ?_, fun c hc hn => ?_⟩
  · rcases List.mem_append.mp hc with hc | hc
    · obtain ⟨hm, hp⟩ := List.mem_filter.mp hc
      exact .inl ⟨hm, fun h => by simp [h] at hp⟩
    · rw [List.mem_singleton.mp hc]
      exact .inr ⟨by simp [Commit.isAt], rfl⟩
  · exact List.mem_append_left _ (List.mem_filter.mpr ⟨hc, by simp [hn]⟩)

/-- A lane's copy of region `g` of a block is pending with these writes, and no copy that a frame can still take has others. -/
def State.CopyIs (t : State) (blk g : Nat) (l : Lane) (ws : List RegCell) : Prop :=
  (∃ c ∈ t.commits, c.lane = l ∧ c.block = blk ∧ c.region = g ∧ c.writes = ws) ∧
    ∀ c ∈ t.commits, c.isAt blk g l = true → c.carried = false → c.writes = ws

theorem State.CopyIs.addCommit {t : State} {blk g g' : Nat} {l : Lane} {ws ws' : List RegCell} {lsns : List Nat}
    (h : g' = g ∧ ws' = ws ∨ g' ≠ g ∧ t.CopyIs blk g l ws) : (t.addCommit blk g' l ws' lsns true).CopyIs blk g l ws := by
  obtain ⟨hnew, hall, hkeep⟩ := t.addCommit_whole blk g' l ws' lsns
  rcases h with ⟨rfl, rfl⟩ | ⟨hne, ⟨c, hc, hl, hb, hg, hw⟩, ho⟩
  · refine ⟨hnew, fun c hc ha hn => ?_⟩
    rcases hall c hc with ⟨-, h⟩ | ⟨-, h⟩
    · exact absurd ⟨ha, hn⟩ h
    · exact h
  · refine ⟨⟨c, hkeep c hc ?_, hl, hb, hg, hw⟩, fun c hc ha hn => ?_⟩
    · simp [Commit.isAt, hg, Ne.symm hne]
    · rcases hall c hc with ⟨h, -⟩ | ⟨h, -⟩
      · exact ho c h ha hn
      · simp only [Commit.isAt, Bool.and_eq_true, beq_iff_eq] at ha h
        exact absurd (h.1.2.symm.trans ha.1.2) hne

theorem State.copyIs_foldl {blk g : Nat} {l : Lane} {W : Nat → List RegCell} {gs : List Nat} {t : State}
    (h : g ∈ gs ∨ t.CopyIs blk g l (W g)) :
    (gs.foldl (fun s r => s.addCommit blk r l (W r) [] true) t).CopyIs blk g l (W g) := by
  induction gs generalizing t with
  | nil => exact h.resolve_left List.not_mem_nil
  | cons r gs ih =>
    refine ih ?_
    by_cases e : r = g
    · exact .inr (.addCommit (.inl ⟨e, e ▸ rfl⟩))
    · rcases h with h | h
      · exact .inl ((List.mem_cons.mp h).resolve_left (Ne.symm e))
      · exact .inr (.addCommit (.inr ⟨e, h⟩))

theorem State.commitWhole_copyIs (s : State) (blk : Nat) (region : Nat → Nat) (l : Lane) {ws : List RegCell} {b : Nat} {v : Word}
    (h : cellsGet ws b = some v) :
    (s.commitWhole blk region l ws).CopyIs blk (region b) l (ws.filter (fun c => region c.1 == region b)) := by
  obtain ⟨c, hc, he⟩ := exists_cell_of_get (k := b) (cs := ws) (by rw [h]; simp)
  unfold State.commitWhole
  refine State.copyIs_foldl (W := fun r => ws.filter (fun c => region c.1 == r)) (.inl ?_)
  rw [List.mem_eraseDups]
  exact List.mem_map.mpr ⟨c, hc, by rw [he]⟩

theorem State.commitWhole_fields (s : State) (blk : Nat) (region : Nat → Nat) (l : Lane) (ws : List RegCell) :
    ∃ cs ns, s.commitWhole blk region l ws = { s with commits := cs, nums := ns } := by
  unfold State.commitWhole
  generalize (ws.map (fun c => region c.1)).eraseDups = gs
  suffices h : ∀ (gs : List Nat) (t : State), (∃ cs ns, t = { s with commits := cs, nums := ns }) →
      ∃ cs ns, gs.foldl (fun s r => s.addCommit blk r l (ws.filter (fun c => region c.1 == r)) [] true) t =
        { s with commits := cs, nums := ns } from h gs s ⟨s.commits, s.nums, rfl⟩
  intro gs
  induction gs with
  | nil => exact fun t h => h
  | cons g gs ih =>
    rintro t ⟨cs, ns, rfl⟩
    exact ih _ ⟨_, _, rfl⟩

/-- A COMMIT write that is made, of a block whose copies go by regions. -/
theorem State.commitWrite_whole {s : State} {l : Lane} {who : Initiator} {a : Nat} {x : Nat × List (Nat × Nat)}
    (hx : commitRanges a = some x) (hm : s.mayReg l who a = true) (hr : s.regAnswers l a = true) (hb : x.1 ∉ [9, 10, 21]) :
    s.commitWrite l who a =
      (s.commitWhole x.1 (copyRegion x.1) l (s.shadowCopies l x.2)).busOk 0 := by
  obtain ⟨blk, rs⟩ := x
  have hc : ∀ ws, s.commitCopy l blk ws = s.commitWhole blk (copyRegion blk) l ws := by
    intro ws
    unfold State.commitCopy
    split
    · exact absurd (show 9 ∈ [9, 10, 21] by decide) hb
    · exact absurd (show 10 ∈ [9, 10, 21] by decide) hb
    · exact absurd (show 21 ∈ [9, 10, 21] by decide) hb
    · rfl
  unfold State.commitWrite
  rw [hx]
  simp only [hm, hr, hc, Bool.not_true, Bool.or_self, Bool.false_eq_true, if_false]
  rfl

/-- A COMMIT write that may not be made, or that reaches nothing (R36). -/
theorem State.commitWrite_denied {s : State} {l : Lane} {who : Initiator} {a : Nat}
    (h : commitRanges a = none ∨ s.mayReg l who a = false ∨ s.regAnswers l a = false) : s.commitWrite l who a = s.busErr := by
  unfold State.commitWrite
  split
  · rfl
  · next blk rs hx =>
    refine if_pos ?_
    rcases h with h | h | h
    · cases hx.symm.trans h
    · rw [h]
      rfl
    · rw [h]
      exact Bool.or_true _

/-! ### The safe points (R44) -/

theorem State.blockCommits_one {s : State} {l : Lane} {blk : Nat} {f : State → Commit → State} {k : Commit}
    (h : s.commits.filter (fun c => c.block == blk && c.lane == l) = [k]) : s.blockCommits l blk f = f s k := by
  unfold State.blockCommits
  rw [h]
  rfl

/-- The Lighthouse's safe point takes the copy of its own registers only, not the dies' attributes. -/
theorem State.lhsCommits_one {s : State} {l : Lane} {k : Commit} (hr : k.region = 0)
    (h : s.commits.filter (fun c => c.block == 21 && c.lane == l) = [k]) :
    s.commits.filter (fun c => c.block == 21 && c.region == 0 && c.lane == l) = [k] := by
  have hf : s.commits.filter (fun c => c.block == 21 && c.region == 0 && c.lane == l) =
      (s.commits.filter (fun c => c.block == 21 && c.lane == l)).filter (fun c => c.region == 0) := by
    rw [List.filter_filter]
    congr 1
    funext c
    cases c.block == 21 <;> cases c.region == 0 <;> rfl
  rw [hf, h, List.filter_cons_of_pos (by simp [hr]), List.filter_nil]

end Sys2Proof.Machine

open Sys2Proof Sys2Proof.Machine in
/-- Settles O58: a COMMIT write by the regions of its copy; a safe point by the taking of the one copy of its block. -/
theorem commitCopies : Obligations.CommitCopies := by
  refine ⟨?denied, ?frame, ?pends, ?idle, ?safe⟩
  case denied =>
    intro s l who a h
    refine ⟨_, rfl, ?_⟩
    exact State.commitWrite_denied h
  case frame =>
    intro s l who a hi hm hr x hx hb
    obtain ⟨cs, ns, he⟩ := s.commitWhole_fields x.1 (copyRegion x.1) l (s.shadowCopies l x.2)
    refine ⟨_, rfl, ?_⟩
    rw [State.commitWrite_whole hx hm hr hb, he]
    exact ⟨rfl, rfl⟩
  case pends =>
    intro s l who a b hi hm hr x hx hn hb hw hd
    have hget := s.shadowCopies_get l hx hb hw hd
    obtain ⟨⟨c, hc, hl, hblk, hg, hcw⟩, ho⟩ := s.commitWhole_copyIs x.1 (copyRegion x.1) l hget
    refine ⟨_, rfl, ?_⟩
    rw [State.commitWrite_whole hx hm hr hn]
    refine ⟨⟨c, hc, hl, hblk, hg, ?_⟩, fun c hc ha hn w hw => ?_⟩
    · rw [hcw, cellsGet_filter _ _ _ (fun d _ he => by rw [he]; exact beq_self_eq_true _), hget]
    · rw [ho c hc ha hn] at hw
      exact s.shadowCopies_cells l x.2 w (List.mem_filter.mp hw).1
  case idle =>
    intro s l b h
    have hs : s.safePoint l b = s ∨ s.tideRuns l = false := by
      refine h.symm.imp_left fun h => ?_
      simp only [List.mem_cons, List.not_mem_nil, or_false] at h
      rcases h with rfl | rfl | rfl | rfl | rfl | rfl | rfl | rfl <;> rfl
    show execCommitApply l b s = _
    unfold execCommitApply
    rcases hs with h | h <;> rw [h]
    · rw [ite_self]
    · rfl
  case safe =>
    intro s l k n hi ht hq hg hf hk hu h21 hnd hw x hx hb
    obtain ⟨hlane⟩ : k.lane = l := by
      have : k ∈ s.commits.filter (fun c => c.block == k.block && c.lane == l) := by rw [hf]; exact List.mem_cons_self
      simpa using (List.mem_filter.mp this).2
    have take := fun ok {a f} => State.applyCommit_applied (a := a) (f := f) hi.regs hq hg hk hu hnd hw ok
    have done : ∀ t, s.safePoint k.lane x.1 = t → s.Applied t k.lane k n x.2.1 x.2.2.1 x.2.2.2 →
        Completes (exec (.commitApply k.lane x.1) s) (fun t => s.Applied t k.lane k n x.2.1 x.2.2.1 x.2.2.2) := by
      rintro t rfl h
      refine ⟨_, rfl, ?_⟩
      show s.Applied (if s.tideRuns k.lane then s.safePoint k.lane x.1 else s) _ _ _ _ _ _
      rw [ht]
      exact h
    simp only [List.mem_cons, List.not_mem_nil, or_false] at hx
    rw [hb] at hf
    rcases hx with rfl | rfl | rfl | rfl | rfl | rfl | rfl
    · exact done _ (State.blockCommits_one hf) (take _ (by decide)).1
    · exact done _ (State.blockCommits_one hf) (take _ (by decide)).1
    · exact done _ (State.blockCommits_one hf) (take _ (by decide)).1
    · obtain ⟨h, w⟩ := take (chkHarb s k) (a := R.HARB_STATUS) (f := F.HARB_STATUS_CFG_INCONSISTENT) (by decide)
      exact done _ (State.blockCommits_one hf) (h.next (by decide) hw (State.applyHarb_writes w))
    · obtain ⟨h, w⟩ := take (s.pairOk k.lane k.region (s.after k (R.LSTP_PAIR_CFG k.region))) (a := R.LSTP_STATUS)
        (f := F.LSTP_STATUS_CFG_INCONSISTENT) (by decide)
      have hp := (State.syncPairs_writes w k.lane).mono fun a f hx => pairFields_besides (a, f) hx
      exact done _ (State.blockCommits_one hf) (h.next (by decide) hw hp)
    · exact done (s.applyLhs k) (by
        show (s.commits.filter _).foldl State.applyLhs s = _
        rw [State.lhsCommits_one (h21 hb) hf]
        rfl) (take _ (by decide)).1
    · obtain ⟨h, w⟩ := take (chkPari s k) (a := R.PARI_STATUS) (f := F.PARI_STATUS_CFG_INCONSISTENT) (by decide)
      exact done _ (State.blockCommits_one hf) (h.next (by decide) hw (State.syncWear_writes w _))

namespace Sys2Proof.Machine

/-! ### The interrupt of a response (O45)

LSTEP_TEST resets its lane within the acceptance and is answered afterwards. Where the sender's mailbox asks for an interrupt at a
response, that interrupt is raised after the reset has dropped the interrupts of the lane. -/

/-- From a well-formed register file, `t` differs from `s` in registers other than SMB0's interrupt registers. -/
def State.SmbIrqKept (s t : State) : Prop := rfWf s.regs = true → RegOnly (fun a _ => a ≠ R.SCSM_MB_IRQ 64) s t

theorem State.SmbIrqKept.trans {s t u : State} (h : s.SmbIrqKept t) (k : t.SmbIrqKept u) : s.SmbIrqKept u :=
  fun w => (h w).next k

theorem State.SmbIrqKept.of {s t : State} (h : t.regs = s.regs) : s.SmbIrqKept t := fun w => .of h w

/-- A write of any other register. -/
theorem State.setReg_smbIrq {s : State} {l : Lane} {a : Nat} {v : Word} (h : a < 2 ^ 32 ∧ a ≠ R.SCSM_MB_IRQ 64) :
    s.SmbIrqKept (s.setReg l a v) := fun w => .setReg w h.1 h.2

theorem State.setFldBoth_smbIrq {s : State} {a : Nat} {f : Fld} {v : Nat} (h : a < 2 ^ 32 ∧ a ≠ R.SCSM_MB_IRQ 64) :
    s.SmbIrqKept (s.setFldBoth a f v) :=
  (State.setReg_smbIrq h).trans (State.setReg_smbIrq h)

theorem State.setLane_smbIrq (s : State) (l : Lane) (x : LaneRt) : s.SmbIrqKept (s.setLane l x) := by
  cases l <;> exact .of rfl

theorem State.assertDown_smbIrq (s : State) (l : Lane) : s.SmbIrqKept (s.assertDown l) := by
  cases l <;> exact .of rfl

theorem State.syncMode_smbIrq (s : State) (old : Nat) : s.SmbIrqKept (s.syncMode old) := by
  unfold State.syncMode
  extract_lets m t u
  have ht : s.SmbIrqKept t := State.setFldBoth_smbIrq (by decide)
  have hu : t.SmbIrqKept u := by
    unfold u
    split
    · exact State.setFldBoth_smbIrq (by decide)
    · exact .of rfl
  exact (ht.trans hu).trans ((State.setLane_smbIrq u .E _).trans (State.setLane_smbIrq _ .W _))

theorem State.setLst_smbIrq (s : State) (l : Lane) (v : Nat) : s.SmbIrqKept (s.setLst l v) := by
  unfold State.setLst
  extract_lets old t u
  have ht : s.SmbIrqKept t := State.setReg_smbIrq (by decide)
  have hu : t.SmbIrqKept u := by
    unfold u
    split
    · exact .of rfl
    · exact State.setReg_smbIrq (by decide)
  exact (ht.trans hu).trans (u.syncMode_smbIrq old)

theorem State.setServing_smbIrq (s : State) (l : Lane) (b : Bool) : s.SmbIrqKept (s.setServing l b) := by
  have h : R.SCSM_STATUS < 2 ^ 32 ∧ R.SCSM_STATUS ≠ R.SCSM_MB_IRQ 64 := by decide
  exact ((State.setReg_smbIrq h).trans (State.setReg_smbIrq h)).trans (State.setReg_smbIrq h)

theorem State.syncPairs_smbIrq (s : State) (l : Lane) : s.SmbIrqKept (s.syncPairs l) := by
  have h : ∀ x ∈ pairFields, x.1 ≠ R.SCSM_MB_IRQ 64 := by decide
  exact fun w => (State.syncPairs_writes w l).regs.mono fun a f hx => h (a, f) hx

/-- A CORE reset outside a trial writes no interrupt register of a mailbox. -/
theorem State.laneReset_smbIrq {s : State} {l : Lane} {cause detail : Nat} (hu : s.upd.st ≠ uTRIAL) :
    s.SmbIrqKept (s.laneReset l .core cause detail) := by
  have hc : s.SmbIrqKept (s.count l (R.PARI_RST (causeRow cause))) := by
    refine State.setReg_smbIrq ?_
    have : causeRow cause ≤ 10 := by unfold causeRow; split <;> decide
    unfold R.PARI_RST R.SCSM_MB_IRQ
    omega
  unfold State.laneReset
  extract_lets a b merge om c d e w f g x h
  have hb : s.SmbIrqKept b := by
    have ha : a.upd = s.upd := State.count_upd s l _
    unfold b
    rw [ha, if_neg fun h => hu h.1]
    exact hc
  have hh : b.SmbIrqKept h := by
    have hd : b.SmbIrqKept d := (b.setLst_smbIrq l stRESET).trans ((State.syncMode_smbIrq _ om).trans (State.assertDown_smbIrq _ l))
    have he : d.SmbIrqKept e := .of rfl
    have hf : e.SmbIrqKept f := State.setReg_smbIrq (by decide)
    have hg : f.SmbIrqKept g := f.setServing_smbIrq l false
    exact (hd.trans (he.trans (hf.trans hg))).trans ((State.setLane_smbIrq g l _).trans (State.syncPairs_smbIrq _ l))
  clear_value b h
  split
  · exact hb.trans (State.setReg_smbIrq (by decide))
  · split
    · exact (hb.trans hh).trans ((State.setReg_smbIrq (by decide)).trans (State.setLane_smbIrq _ l _))
    · exact hb.trans hh

theorem State.inject_smbIrq {s : State} {l : Lane} {k : Nat} (hk : k < 5) (hu : s.upd.st ≠ uTRIAL) : s.SmbIrqKept (s.inject l k) := by
  have ha : R.LSTP_PAIR_STAT k < 2 ^ 32 ∧ R.LSTP_PAIR_STAT k ≠ R.SCSM_MB_IRQ 64 := by
    unfold R.LSTP_PAIR_STAT R.SCSM_MB_IRQ
    omega
  unfold State.inject State.lstepMismatch
  extract_lets t u
  have h0 : s.SmbIrqKept s.tickFree := .of rfl
  have ht : s.tickFree.SmbIrqKept t := State.setReg_smbIrq ha
  have hr : t.SmbIrqKept u := State.setReg_smbIrq (by decide)
  exact (h0.trans (ht.trans hr)).trans (u.laneReset_smbIrq hu)

theorem lstepTest_smbIrq {s : State} {r : Req} {lsn : Nat} (hk : r.u8 1 < 5) (hu : s.upd.st ≠ uTRIAL) :
    s.SmbIrqKept (specLstepTest.exec s r lsn) := by
  obtain ⟨l, hl⟩ : ∃ l, (if r.u8 0 = 1 then Lane.E else Lane.W) = l := ⟨_, rfl⟩
  have he : specLstepTest.exec s r lsn = State.inject { s with lstepTests := s.lstepTests ++ [(lsn, l)] } l (r.u8 1) := hl ▸ rfl
  rw [he]
  have hs : s.SmbIrqKept { s with lstepTests := s.lstepTests ++ [(lsn, l)] } := .of rfl
  exact hs.trans (State.inject_smbIrq hk hu)

/-! ### The answer -/

theorem State.syncLedg_smbIrq (s : State) : s.SmbIrqKept s.syncLedg := by
  have h : ∀ x ∈ ledgFields, x.1 ≠ R.SCSM_MB_IRQ 64 := by decide
  exact fun w => (State.syncLedg_writes w).mono fun a f hx => h (a, f) hx

theorem State.syncQuota_smbIrq (s : State) (q : Nat) : s.SmbIrqKept (s.syncQuota q) := by
  refine State.setFldBoth_smbIrq ?_
  unfold R.LEDG_QUSED R.SCSM_MB_IRQ
  omega

theorem State.reported_smbIrq (s : State) (d : Ledger) (q : Nat) : s.SmbIrqKept (((s.setLed d).syncLedg).syncQuota q) :=
  ((State.SmbIrqKept.of rfl : s.SmbIrqKept (s.setLed d)).trans (State.syncLedg_smbIrq _)).trans (State.syncQuota_smbIrq _ q)

theorem State.irq_mem (s : State) (l : Lane) (fn : Option Nat) (v : Nat) : ⟨l, fn, v⟩ ∈ (s.irq l fn v).irqs := by
  unfold State.irq
  split
  · next h => exact List.contains_iff_mem.mp h
  · exact List.mem_append_right _ List.mem_cons_self

/-- The register file is well formed, and SMB0's mailbox in a lane asks for an interrupt at a response. -/
def State.smbAsks (s : State) (l : Lane) : Prop :=
  rfWf s.regs = true ∧ s.bit l (R.SCSM_MB_IRQ 64) F.SCSM_MB_IRQ_RESP_EN = true

theorem State.SmbIrqKept.asks {s t : State} (h : s.SmbIrqKept t) {l : Lane} (ha : s.smbAsks l) : t.smbAsks l := by
  have hr := (h ha.1).reg l (R.SCSM_MB_IRQ 64) (by decide) (fun _ hn => hn rfl)
  refine ⟨(h ha.1).wf, ?_⟩
  unfold State.bit State.fld
  rw [hr]
  exact ha.2

theorem State.setRegs_smbIrq {s : State} {l : Lane} {a : Nat} {ws : List Word}
    (h : ∀ i < ws.length, a + 4 * i < 2 ^ 32 ∧ a + 4 * i ≠ R.SCSM_MB_IRQ 64) : s.SmbIrqKept (s.setRegs l a ws) := by
  induction ws generalizing s a with
  | nil => exact .of rfl
  | cons w ws ih =>
    have h0 := h 0 (Nat.succ_pos _)
    refine (State.setReg_smbIrq h0).trans (ih fun i hi => ?_)
    have := h (i + 1) (Nat.succ_lt_succ hi)
    rw [show a + 4 + 4 * i = a + 4 * (i + 1) by omega]
    exact this

theorem State.putImage_irqs {s : State} {r : Req} {img : List Byte} (hi : img.length ≤ 128) (h : s.smbAsks r.lane) :
    ∃ i ∈ (s.putImage r 64 img).irqs, i.lane = r.lane := by
  unfold State.putImage
  extract_lets slot u st v
  have hu : s.SmbIrqKept u := by
    have hs : slot < 8 := Nat.mod_lt _ (by decide)
    refine State.setRegs_smbIrq (fun i h => ?_)
    rw [bytesToWords_length] at h
    unfold R.SCSM_MB_RESP R.SCSM_MB_IRQ
    omega
  have hv : s.SmbIrqKept v := hu.trans (State.setReg_smbIrq (by decide))
  have hb : v.bit r.lane (R.SCSM_MB_IRQ 64) F.SCSM_MB_IRQ_RESP_EN = true := (hv.asks h).2
  rw [if_pos hb]
  exact ⟨_, State.irq_mem _ _ _ _, rfl⟩

/-- A response without data to SMB0 raises the interrupt of its mailbox, where that asks for it. -/
theorem State.respond_irqs {s : State} {r : Req} {st lsn : Nat} (hr : r.src = .smb0) (h : s.smbAsks r.lane) :
    ∃ i ∈ (s.respond r st lsn []).irqs, i.lane = r.lane := by
  unfold State.respond
  rw [hr]
  unfold State.respondMb
  simp only [bne_self_eq_false, Bool.and_false, Bool.false_and, Bool.false_eq_true, if_false]
  exact State.putImage_irqs (Nat.le_of_ble_eq_true rfl) h

theorem answerAccepted_irqs {c : CmdSpec} {s : State} {r : Req} {lsn : Nat} (hc : ∀ t q, c.answer t q = []) (hr : r.src = .smb0)
    (h : s.smbAsks r.lane) : ∃ i ∈ (answerAccepted c s r lsn).irqs, i.lane = r.lane := by
  unfold answerAccepted
  split
  · split
    · extract_lets data t ds led u
      have hd : data = [] := hc s r
      have ht : s.SmbIrqKept t := .of rfl
      have hu : s.SmbIrqKept u := ht.trans (t.reported_smbIrq _ _)
      rw [hd]
      clear_value u
      exact State.respond_irqs hr (hu.asks h)
    · exact State.respond_irqs hr h
  · exact State.respond_irqs hr h

/-! ### The counterexample -/

/-- Lane E holds the ferry and serves, and the Elder pair is compared; SMB0 asks for an interrupt at each response. -/
def lstepAsked : State :=
  (Tests.live.setReg .E (R.LSTP_PAIR_STAT 4) 3).setReg .E (R.SCSM_MB_IRQ 64) (setF 0 F.SCSM_MB_IRQ_RESP_EN 1)

/-- LSTEP_TEST of the Elder pair of lane E, from SMB0 of that lane. -/
def lstepTestE : Req := Tests.req 0xA0D .smb0 [1, 4]

theorem lstepAsked_ready : Ready specLstepTest lstepAsked lstepTestE := Tests.ready_of (by decide +kernel)

/-- The state in which the block takes the command. -/
def lstepBegun : State := (entered specLstepTest lstepAsked lstepTestE).begin lstepAsked.led.nextLsn

theorem lstepBegun_asks : lstepBegun.smbAsks .E ∧ lstepBegun.upd.st ≠ uTRIAL := by
  unfold State.smbAsks
  decide +kernel

/-- The interrupt of the response stands in lane E, which the command has reset. -/
theorem lstepAsked_irqs : ∃ i ∈ (runCmd specLstepTest lstepAsked lstepTestE).irqs, i.lane = .E := by
  obtain ⟨hi, hw, hp, hs⟩ := lstepAsked_ready
  obtain ⟨ha, hu⟩ := lstepBegun_asks
  rw [runCmd_start hp rfl (hs rfl) (fun _ _ => rfl)]
  have hq : (taken lstepAsked lstepTestE).2 = lstepTestE := by
    rcases taken_req lstepAsked lstepTestE with h | h <;> exact h
  rw [hq]
  have hj : lstepBegun.SmbIrqKept (specLstepTest.exec lstepBegun lstepTestE lstepAsked.led.nextLsn) :=
    lstepTest_smbIrq (by decide) hu
  exact answerAccepted_irqs (fun _ _ => rfl) rfl (hj.asks (l := .E) ha)

end Sys2Proof.Machine

open Sys2Proof Sys2Proof.Machine in
/-- Refutes O45: a lane that LSTEP_TEST has reset is to have no interrupt left, but the response to the command raises one there where
the mailbox's interrupt register asks for it. -/
theorem not_partitionCommands : ¬ Obligations.PartitionCommands := by
  intro h
  obtain ⟨-, -, -, -, -, -, -, -, -, -, -, -, -, h, -⟩ := h
  obtain ⟨t, ht, -, hr, -⟩ := h _ _ lstepAsked_ready
  obtain rfl : runCmd specLstepTest lstepAsked lstepTestE = t := by
    injection ht
  obtain ⟨-, -, -, -, -, -, hr⟩ := hr
  have hn : (lstepAsked.lane .E).resetting = none := by decide +kernel
  obtain ⟨-, -, -, -, -, -, -, -, hq, -⟩ := hr (by
    rintro ⟨cur, hc, -⟩
    cases hn.symm.trans hc)
  obtain ⟨i, hi, he⟩ := lstepAsked_irqs
  exact hq i hi he

namespace Sys2Proof.Machine

/-! ### A write between two registers (O56)

The writes of the watchdogs' configuration registers keep EN of a running watchdog, and they are told by an address range. An address
within that range that is not a register's own, such as one byte into RSTC_WDT_CFG0, is not among the registers that the statement
leaves out; its word has RSTC_WDT_CFG0's masks, and bit 0 of it takes 1 whatever is written. -/

/-- Watchdog 0 of lane E runs. -/
def dogRuns : State := Tests.live.setReg .E (R.RSTC_WDT_CFG 0) 1

/-- One byte into the configuration register of watchdog 0. -/
def inDogCfg : Nat := R.RSTC_WDT_CFG 0 + 1

theorem dogRuns_inv : dogRuns.Inv := Tests.inv_of (by decide +kernel)

/-- The Elder may write there, and no row of its own describes the write. -/
theorem inDogCfg_plain : pageWrite .E .elder inDogCfg 0 dogRuns = none ∧ rowWrite .E .elder inDogCfg 0 dogRuns = none ∧
    regSpace inDogCfg = true ∧ dogRuns.mayReg .E .elder inDogCfg = true ∧ dogRuns.regAnswers .E inDogCfg = true ∧
    dogRuns.foreign .E .elder inDogCfg = none :=
  ⟨rfl, rfl, by decide +kernel, by decide +kernel, by decide +kernel, by decide +kernel⟩

theorem inDogCfg_masks : w1cMask inDogCfg = 0 ∧ (rwMask inDogCfg).getLsbD 0 = true := by decide +kernel

/-- Bit 0 reads 1 after a write of 0. -/
theorem inDogCfg_written : ((dogRuns.plainWrite .E .elder inDogCfg 0).reg .E inDogCfg).getLsbD 0 = true := by decide +kernel

end Sys2Proof.Machine

open Sys2Proof Sys2Proof.Machine in
/-- Refutes O56: with watchdog 0 running, a write of 0 one byte into RSTC_WDT_CFG0 sets an RW bit. -/
theorem not_registerWrites : ¬ Obligations.RegisterWrites := by
  intro h
  obtain ⟨-, -, h, -⟩ := h
  obtain ⟨hp, hr, hs, hm, ha, hf⟩ := inDogCfg_plain
  obtain ⟨hw, hb⟩ := inDogCfg_masks
  obtain ⟨t, ht, -, hbits, -⟩ := h dogRuns .E .elder inDogCfg 0 dogRuns_inv ⟨hp, hr⟩ hs hm ha hf (by decide) (by decide)
  have he : execRegWrite .E .elder inDogCfg 0 dogRuns = .next (dogRuns.plainWrite .E .elder inDogCfg 0) := by
    unfold execRegWrite
    rw [hp, hr]
  obtain rfl : dogRuns.plainWrite .E .elder inDogCfg 0 = t := by
    injection he.symm.trans ht
  have h0 := hbits 0 (by decide)
  rw [inDogCfg_written, hw, hb] at h0
  cases h0

namespace Sys2Proof.Machine

/-! ### Every command's outcome is a next state -/

/-- The outcome is a next state. -/
def Goes (o : Out) : Prop := ∃ t, o = .next t

@[simp] theorem goes_next (s : State) : Goes (.next s) := ⟨s, rfl⟩

@[simp] theorem goes_ite {c : Prop} [Decidable c] {a b : Out} :
    Goes (if c then a else b) ↔ (c → Goes a) ∧ (¬ c → Goes b) := by
  by_cases h : c <;> simp [h]

@[simp] theorem goes_okBus {x : Out} : Goes (okBus x) ↔ Goes x := by
  cases x <;> simp [Goes, okBus]

@[simp] theorem goes_runScs (c : CmdSpec) (r : Req) (s : State) : Goes (runScs c r s) := goes_next _

theorem goes_thenDo {x : Out} {f : State → Out} (hx : Goes x) (hf : ∀ t, Goes (f t)) : Goes (thenDo x f) := by
  obtain ⟨t, rfl⟩ := hx
  exact hf t

theorem execIovSqDoorbell_goes (l : Lane) (who : Initiator) (f i : Nat) (v : Word) (s : State) :
    Goes (execIovSqDoorbell l who f i v s) := by
  unfold execIovSqDoorbell
  cases (s.fnQueues l f)[i]? with
  | none => simp
  | some q =>
    dsimp only
    cases ringPos (s.qDepth l q) v <;> simp

theorem execIovCqHeadWrite_goes (l : Lane) (who : Initiator) (f i : Nat) (v : Word) (s : State) :
    Goes (execIovCqHeadWrite l who f i v s) := by
  unfold execIovCqHeadWrite
  cases (s.fnQueues l f)[i]? with
  | none => simp
  | some q =>
    dsimp only
    cases ringPos (s.qDepth l q) v <;> simp

theorem execJunctionThreshold_goes (loc : Nat) (temp : Int) (s : State) : Goes (execJunctionThreshold loc temp s) := by
  unfold execJunctionThreshold
  split
  case h_3 => simp
  all_goals exact goes_next _

theorem execThermalShutdown_goes (loc : Nat) (temp : Int) (s : State) : Goes (execThermalShutdown loc temp s) := by
  unfold execThermalShutdown
  refine goes_ite.2 ⟨fun _ => goes_next _, fun _ => ?_⟩
  split <;> simp

theorem execFrameSeal_goes (overrun : Bool) (n : Nat) (s : State) : Goes (execFrameSeal overrun n s) := by
  rw [execFrameSeal, goes_ite]
  refine ⟨fun _ => goes_next _, fun _ => ?_⟩
  dsimp only
  split <;> exact goes_next _

theorem execStateImageReceived_goes (crcOk inTime xlateOk : Bool) (s : State) :
    Goes (execStateImageReceived crcOk inTime xlateOk s) := by
  unfold execStateImageReceived
  cases s.holder <;> simp

theorem execServiceDelayExpiry_goes (s : State) : Goes (execServiceDelayExpiry s) := by
  unfold execServiceDelayExpiry
  cases s.holder <;> simp

theorem execLeaseRequest_goes (l : Lane) (epoch : Nat) (s : State) : Goes (execLeaseRequest l epoch s) := by
  rw [execLeaseRequest, goes_ite]
  refine ⟨fun _ => goes_next _, fun _ => ?_⟩
  dsimp only
  split <;> exact goes_next _

theorem execArbiterLeaseExpiry_goes (s : State) : Goes (execArbiterLeaseExpiry s) := by
  unfold execArbiterLeaseExpiry
  cases s.arb.held <;> simp

theorem execLedgerAccept_goes (opcode : Nat) (r : Req) (s : State) : Goes (execLedgerAccept opcode r s) := by
  unfold execLedgerAccept
  cases specOf opcode <;> exact goes_next _

theorem execEntryFree_goes (lsn : Nat) (s : State) : Goes (execEntryFree lsn s) := by
  unfold execEntryFree
  cases s.entry lsn <;> simp

theorem execLedgerRebuild_goes (lost : Bool) (at' : Nat) (s : State) : Goes (execLedgerRebuild lost at' s) := by
  unfold execLedgerRebuild
  cases s.holder <;> exact goes_next _

theorem execUnclaimedTimeout_goes (lsn : Nat) (s : State) : Goes (execUnclaimedTimeout lsn s) := by
  unfold execUnclaimedTimeout
  cases s.entry lsn <;> simp

theorem execSessionSegment_goes (g : Segment) (s : State) : Goes (execSessionSegment g s) := by
  unfold execSessionSegment
  cases s.holder <;> simp

theorem execSessionOpen_goes (n counter : Nat) (tagOk : Bool) (nonce : List Byte) (s : State) :
    Goes (execSessionOpen n counter tagOk nonce s) := by
  unfold execSessionOpen
  cases s.holder <;> simp

theorem execUrgentCommand_goes (d : Die) (s : State) : Goes (execUrgentCommand d s) := by
  unfold execUrgentCommand
  cases s.urgents.find? (fun u => u.die == d) <;> simp

theorem execKeepaliveTimeout_goes (d : Die) (s : State) : Goes (execKeepaliveTimeout d s) := by
  unfold execKeepaliveTimeout
  cases kaPlace d <;> simp

theorem execFailAction_goes (d : Die) (s : State) : Goes (execFailAction d s) := by
  unfold execFailAction
  cases kaPlace d with
  | none => exact goes_next _
  | some p => cases d <;> simp

theorem execTideEventFire_goes (l : Lane) (i delay : Nat) (s : State) : Goes (execTideEventFire l i delay s) := by
  unfold execTideEventFire
  dsimp only
  rw [goes_ite]
  refine ⟨fun _ => goes_next _, fun _ => ?_⟩
  split <;> exact goes_next _

/-- The outcome, where there is one, is a next state. -/
def GoesIf (o : Option Out) : Prop := ∀ x, o = some x → Goes x

@[simp] theorem goesIf_some {x : Out} : GoesIf (some x) ↔ Goes x := by simp [GoesIf]

@[simp] theorem goesIf_none : GoesIf none := by simp [GoesIf]

@[simp] theorem goesIf_ite {c : Prop} [Decidable c] {a b : Option Out} :
    GoesIf (if c then a else b) ↔ (c → GoesIf a) ∧ (¬ c → GoesIf b) := by
  by_cases h : c <;> simp [h]

theorem pageWrite_goes {l : Lane} {who : Initiator} {a : Nat} {v : Word} {s : State} :
    GoesIf (pageWrite l who a v s) := by
  simp only [pageWrite, execDoorbell, execRespAck, execCplHeadWrite, execReqSlotWrite, execIovSqDoorbell_goes,
    execIovCqHeadWrite_goes, goesIf_ite, goesIf_some, goesIf_none, goes_ite, goes_okBus, goes_next, implies_true, and_self]

theorem goesIf_ite_some {c : Prop} [Decidable c] {x : Out} {o : Option Out} (hx : Goes x) (ho : GoesIf o) :
    GoesIf (if c then some x else o) :=
  goesIf_ite.2 ⟨fun _ => goesIf_some.2 hx, fun _ => ho⟩

theorem rowWrite_goes {l : Lane} {who : Initiator} {a : Nat} {v : Word} {s : State} :
    GoesIf (rowWrite l who a v s) := by
  have hblk (m : Nat) : Goes (execBlkrstWrite l who m s) := by simp [execBlkrstWrite]
  have hforce (m : Nat) : Goes (execForceCdWrite l who m s) := by simp [execForceCdWrite]
  have hcmn : Goes (execRstcCmnRestart l who v s) := by simp [execRstcCmnRestart]
  have hdog (n k m : Nat) : Goes (execWdtKick l n k m s) := by simp [execWdtKick]
  have hhold : Goes (execFrzPwmHoldClear l s) := by simp [execFrzPwmHoldClear]
  have hpot : Goes (execPotUpdateGo l who v s) := by simp [execPotUpdateGo]
  have hlstp : Goes (execLstpInjectWrite l who v s) := by simp [execLstpInjectWrite]
  have hcommit : GoesIf (if v.toNat.testBit 0 then some (execCommitWrite l who a s) else some (.next (s.busOk 0))) :=
    goesIf_ite_some (goes_next _) (goesIf_some.2 (goes_next _))
  unfold rowWrite
  refine goesIf_ite_some (goes_thenDo (goes_next _) fun _ => goes_next _) <|
    goesIf_ite_some (hblk _) <| goesIf_ite_some (hforce _) <| goesIf_ite_some hcmn <|
    goesIf_ite_some (hdog _ _ _) <| goesIf_ite.2 ⟨fun _ => goesIf_ite_some hhold goesIf_none, fun _ => ?_⟩
  refine goesIf_ite_some (goes_thenDo (goes_thenDo (goes_next _) fun _ => goes_next _) fun _ => goes_next _) <|
    goesIf_ite_some (goes_next _) <| goesIf_ite_some (goes_next _) <|
    goesIf_ite_some (goes_thenDo (goes_next _) fun _ => goes_next _) <|
    goesIf_ite_some (goes_next _) <| goesIf_ite_some (goes_next _) <| goesIf_ite_some (goes_next _) <|
    goesIf_ite_some (goes_next _) <| goesIf_ite_some (goes_next _) <| goesIf_ite_some hpot <|
    goesIf_ite_some hlstp <| goesIf_ite_some (goes_next _) <| goesIf_ite.2 ⟨fun _ => hcommit, fun _ => goesIf_none⟩

theorem execRegWrite_goes (l : Lane) (who : Initiator) (a : Nat) (v : Word) (s : State) :
    Goes (execRegWrite l who a v s) := by
  unfold execRegWrite
  cases hp : pageWrite l who a v s with
  | some x => exact pageWrite_goes x hp
  | none =>
    cases hr : rowWrite l who a v s with
    | some x => exact rowWrite_goes x hr
    | none => exact goes_next _

/-- Every command's outcome is a next state: an arm is a next state as it stands, or a choice among
next states. -/
theorem exec_goes (c : Instr) (s : State) : Goes (exec c s) := by
  cases c with
  | unassignedOpcode | commonsRestart | blkrstWrite | blockResetRelease | forceCdWrite | rstcCmnRestart
  | commonsRestartReport | wdtKick | watchdogExpiry | frzPwmHoldClear | doorbell | reqSlotWrite | respAck
  | cplHeadWrite | potUpdateGo | lstpInjectWrite | powerOn | laneSupplyLow | lanePor | supplyWarning | xtalOk
  | xtalFail | clkGood | clkFail | elderReleased | clockMonitorFault | eccError | lockstepBreak | resetNAssert
  | resetMessage | signedResetAssert | freezeEntry | freezeThaw | heartbeat | straitLost | leaseGrant | leaseRenew
  | leaseAck | renewMissed | leaseRelease | laneDown | leaseValidEnd | bootVerified | applicationVerified
  | entryDisposed | sessionClose | sessionIdleTimeout | reassemblyTimeout | scheduledSwitch | lateSwitch | dieRestart
  | barrierRestart | moduleSleep | moduleWake | commandLinkClockLoss | coreResetRelease | coreWfiRetention =>
    simp only [exec,
      execUnassignedOpcode, execCommonsRestart, execBlkrstWrite, execBlockResetRelease, execForceCdWrite,
      execRstcCmnRestart, execCommonsRestartReport, execWdtKick, execWatchdogExpiry, execFrzPwmHoldClear,
      execDoorbell, execReqSlotWrite, execRespAck, execCplHeadWrite, execPotUpdateGo, execLstpInjectWrite,
      execPowerOn, execLaneSupplyLow, execLanePor, execSupplyWarning, execXtalOk, execXtalFail, execClkGood,
      execClkFail, execElderReleased, execClockMonitorFault, execEccError, execLockstepBreak, execResetNAssert,
      execResetMessage, execSignedResetAssert, execFreezeEntry, execFreezeThaw, execHeartbeat, execStraitLost,
      execLeaseGrant, execLeaseRenew, execLeaseAck, execRenewMissed, execLeaseRelease, execLaneDown,
      execLeaseValidEnd, execBootVerified, execApplicationVerified, execEntryDisposed, execSessionClose,
      execSessionIdleTimeout, execReassemblyTimeout, execScheduledSwitch, execLateSwitch, execDieRestart,
      execBarrierRestart, execModuleSleep, execModuleWake, execCommandLinkClockLoss, execCoreResetRelease,
      execCoreWfiRetention,
      goes_ite, goes_next, goes_okBus, goes_runScs, implies_true, and_self]
  | regWrite l who addr value => exact execRegWrite_goes l who addr value s
  | iovSqDoorbell l who f ix value => exact execIovSqDoorbell_goes l who f ix value s
  | iovCqHeadWrite l who f ix value => exact execIovCqHeadWrite_goes l who f ix value s
  | junctionThreshold loc temp => exact execJunctionThreshold_goes loc temp s
  | thermalShutdown loc temp => exact execThermalShutdown_goes loc temp s
  | frameSeal overrun imageBytes => exact execFrameSeal_goes overrun imageBytes s
  | stateImageReceived crcOk inTime xlateOk => exact execStateImageReceived_goes crcOk inTime xlateOk s
  | serviceDelayExpiry => exact execServiceDelayExpiry_goes s
  | leaseRequest l epoch => exact execLeaseRequest_goes l epoch s
  | arbiterLeaseExpiry => exact execArbiterLeaseExpiry_goes s
  | ledgerAccept opcode r => exact execLedgerAccept_goes opcode r s
  | entryFree lsn => exact execEntryFree_goes lsn s
  | ledgerRebuild rtcLost lossAt => exact execLedgerRebuild_goes rtcLost lossAt s
  | unclaimedTimeout lsn => exact execUnclaimedTimeout_goes lsn s
  | sessionSegment g => exact execSessionSegment_goes g s
  | sessionOpen n counter tagOk nonce => exact execSessionOpen_goes n counter tagOk nonce s
  | urgentCommand d => exact execUrgentCommand_goes d s
  | keepaliveTimeout d => exact execKeepaliveTimeout_goes d s
  | failAction d => exact execFailAction_goes d s
  | tideEventFire l ix delay => exact execTideEventFire_goes l ix delay s
  | _ => exact goes_next _

/-! ### Every command keeps the invariant, the queue and the time -/

/-- Each arm by the lemma about its own command. -/
theorem exec_kept {s : State} (h : s.Inv) (c : Instr) : OutKept ⟨2 ^ 80 - 1, s⟩ (exec c s) := by
  have k : s.Kept ⟨2 ^ 80 - 1, s⟩ := .refl h
  cases c with
  | identify => exact execIdentify_kept (Sub.all (by decide)) k
  | laneStatus => exact execLaneStatus_kept (Sub.all (by decide)) k
  | ping => exact execPing_kept (Sub.all (by decide)) k
  | sessionInfo => exact execSessionInfo_kept (Sub.all (by decide)) k
  | sessionPermit => exact execSessionPermit_kept (Sub.all (by decide)) k
  | unassignedOpcode => exact execUnassignedOpcode_kept (Sub.all (by decide)) k
  | pcSet => exact execPcSet_kept (Sub.all (by decide)) k
  | pcConfig => exact execPcConfig_kept (Sub.all (by decide)) k
  | pcProfile => exact execPcProfile_kept (Sub.all (by decide)) k
  | pcDieConfig => exact execPcDieConfig_kept (Sub.all (by decide)) k
  | pcClear => exact execPcClear_kept (Sub.all (by decide)) k
  | pcStatus => exact execPcStatus_kept (Sub.all (by decide)) k
  | pcDieStatus => exact execPcDieStatus_kept (Sub.all (by decide)) k
  | pcSafeState => exact execPcSafeState_kept (Sub.all (by decide)) k
  | gdSet => exact execGdSet_kept (Sub.all (by decide)) k
  | gdConfig => exact execGdConfig_kept (Sub.all (by decide)) k
  | gdClear => exact execGdClear_kept (Sub.all (by decide)) k
  | gdStatus => exact execGdStatus_kept (Sub.all (by decide)) k
  | gdSafeState => exact execGdSafeState_kept (Sub.all (by decide)) k
  | feedConfig => exact execFeedConfig_kept (Sub.all (by decide)) k
  | feedStatus => exact execFeedStatus_kept (Sub.all (by decide)) k
  | fcSet => exact execFcSet_kept (Sub.all (by decide)) k
  | fcConfig => exact execFcConfig_kept (Sub.all (by decide)) k
  | fcGroupConfig => exact execFcGroupConfig_kept (Sub.all (by decide)) k
  | fcDieConfig => exact execFcDieConfig_kept (Sub.all (by decide)) k
  | fcClear => exact execFcClear_kept (Sub.all (by decide)) k
  | fcStatus => exact execFcStatus_kept (Sub.all (by decide)) k
  | fcInputs => exact execFcInputs_kept (Sub.all (by decide)) k
  | fcDieStatus => exact execFcDieStatus_kept (Sub.all (by decide)) k
  | fcSafeState => exact execFcSafeState_kept (Sub.all (by decide)) k
  | tideStatus => exact execTideStatus_kept (Sub.all (by decide)) k
  | tideSource => exact execTideSource_kept (Sub.all (by decide)) k
  | tideMains => exact execTideMains_kept (Sub.all (by decide)) k
  | tideExt => exact execTideExt_kept (Sub.all (by decide)) k
  | tideTurn => exact execTideTurn_kept (Sub.all (by decide)) k
  | tevSet => exact execTevSet_kept (Sub.all (by decide)) k
  | tevClear => exact execTevClear_kept (Sub.all (by decide)) k
  | tevArm => exact execTevArm_kept (Sub.all (by decide)) k
  | tevRead => exact execTevRead_kept (Sub.all (by decide)) k
  | cvcStatus => exact execCvcStatus_kept (Sub.all (by decide)) k
  | pwmPairConfig => exact execPwmPairConfig_kept (Sub.all (by decide)) k
  | pwmRun => exact execPwmRun_kept (Sub.all (by decide)) k
  | pwmGuard => exact execPwmGuard_kept (Sub.all (by decide)) k
  | pwmEnable => exact execPwmEnable_kept (Sub.all (by decide)) k
  | adcSeqConfig => exact execAdcSeqConfig_kept (Sub.all (by decide)) k
  | adcRead => exact execAdcRead_kept (Sub.all (by decide)) k
  | compConfig => exact execCompConfig_kept (Sub.all (by decide)) k
  | nodeConfig => exact execNodeConfig_kept (Sub.all (by decide)) k
  | nodeCoef => exact execNodeCoef_kept (Sub.all (by decide)) k
  | nodeState => exact execNodeState_kept (Sub.all (by decide)) k
  | nodeRead => exact execNodeRead_kept (Sub.all (by decide)) k
  | refSet => exact execRefSet_kept (Sub.all (by decide)) k
  | canPortConfig => exact execCanPortConfig_kept (Sub.all (by decide)) k
  | canFilterSet => exact execCanFilterSet_kept (Sub.all (by decide)) k
  | canTrxSet => exact execCanTrxSet_kept (Sub.all (by decide)) k
  | canWakeFrame => exact execCanWakeFrame_kept (Sub.all (by decide)) k
  | canRecover => exact execCanRecover_kept (Sub.all (by decide)) k
  | canStatus => exact execCanStatus_kept (Sub.all (by decide)) k
  | canInhMap => exact execCanInhMap_kept (Sub.all (by decide)) k
  | canSend => exact execCanSend_kept (Sub.all (by decide)) k
  | linConfig => exact execLinConfig_kept (Sub.all (by decide)) k
  | linFrame => exact execLinFrame_kept (Sub.all (by decide)) k
  | linSchedule => exact execLinSchedule_kept (Sub.all (by decide)) k
  | linWake => exact execLinWake_kept (Sub.all (by decide)) k
  | linStatus => exact execLinStatus_kept (Sub.all (by decide)) k
  | linRead => exact execLinRead_kept (Sub.all (by decide)) k
  | ethStatus => exact execEthStatus_kept (Sub.all (by decide)) k
  | ethPortConfig => exact execEthPortConfig_kept (Sub.all (by decide)) k
  | ethGclSet => exact execEthGclSet_kept (Sub.all (by decide)) k
  | ethStreamSet => exact execEthStreamSet_kept (Sub.all (by decide)) k
  | ethFrerSet => exact execEthFrerSet_kept (Sub.all (by decide)) k
  | ethMacsecSa => exact execEthMacsecSa_kept (Sub.all (by decide)) k
  | ethCtrlClass => exact execEthCtrlClass_kept (Sub.all (by decide)) k
  | tc10Wake => exact execTc10Wake_kept (Sub.all (by decide)) k
  | timeStatus => exact execTimeStatus_kept (Sub.all (by decide)) k
  | timeConfig => exact execTimeConfig_kept (Sub.all (by decide)) k
  | timeSet => exact execTimeSet_kept (Sub.all (by decide)) k
  | timeComp => exact execTimeComp_kept (Sub.all (by decide)) k
  | timeCapture => exact execTimeCapture_kept (Sub.all (by decide)) k
  | harbStatus => exact execHarbStatus_kept (Sub.all (by decide)) k
  | harbPduDefine => exact execHarbPduDefine_kept (Sub.all (by decide)) k
  | harbRouteSet => exact execHarbRouteSet_kept (Sub.all (by decide)) k
  | harbEndpoint => exact execHarbEndpoint_kept (Sub.all (by decide)) k
  | harbPduSend => exact execHarbPduSend_kept (Sub.all (by decide)) k
  | harbPduRead => exact execHarbPduRead_kept (Sub.all (by decide)) k
  | harbRouteStatus => exact execHarbRouteStatus_kept (Sub.all (by decide)) k
  | cwWindow => exact execCwWindow_kept (Sub.all (by decide)) k
  | cwNodes => exact execCwNodes_kept (Sub.all (by decide)) k
  | cwErrors => exact execCwErrors_kept (Sub.all (by decide)) k
  | cwFenceAck => exact execCwFenceAck_kept (Sub.all (by decide)) k
  | cwWrite => exact execCwWrite_kept (Sub.all (by decide)) k
  | nmsStatus => exact execNmsStatus_kept (Sub.all (by decide)) k
  | nmsCoveConfig => exact execNmsCoveConfig_kept (Sub.all (by decide)) k
  | nmsMembers => exact execNmsMembers_kept (Sub.all (by decide)) k
  | nmsPortCove => exact execNmsPortCove_kept (Sub.all (by decide)) k
  | nmsCurfew => exact execNmsCurfew_kept (Sub.all (by decide)) k
  | nmsKeep => exact execNmsKeep_kept (Sub.all (by decide)) k
  | nmsWake => exact execNmsWake_kept (Sub.all (by decide)) k
  | nmsLog => exact execNmsLog_kept (Sub.all (by decide)) k
  | partStatus => exact execPartStatus_kept (Sub.all (by decide)) k
  | funcConfig => exact execFuncConfig_kept (Sub.all (by decide)) k
  | queueConfig => exact execQueueConfig_kept (Sub.all (by decide)) k
  | replRegion => exact execReplRegion_kept (Sub.all (by decide)) k
  | vfQuiesce => exact execVfQuiesce_kept (Sub.all (by decide)) k
  | vfReset => exact execVfReset_kept (Sub.all (by decide)) k
  | vfRemove => exact execVfRemove_kept (Sub.all (by decide)) k
  | expertGrant => exact execExpertGrant_kept (Sub.all (by decide)) k
  | expertRelease => exact execExpertRelease_kept (Sub.all (by decide)) k
  | dirtySwap => exact execDirtySwap_kept (Sub.all (by decide)) k
  | pageOwner => exact execPageOwner_kept (Sub.all (by decide)) k
  | pairAssign => exact execPairAssign_kept (Sub.all (by decide)) k
  | lstepStatus => exact execLstepStatus_kept (Sub.all (by decide)) k
  | lstepTest => exact execLstepTest_kept (Sub.all (by decide)) k
  | straitCopy => exact execStraitCopy_kept (Sub.all (by decide)) k
  | lhsStatus => exact execLhsStatus_kept (Sub.all (by decide)) k
  | lhsNonce => exact execLhsNonce_kept (Sub.all (by decide)) k
  | attest => exact execAttest_kept (Sub.all (by decide)) k
  | attestKeys => exact execAttestKeys_kept (Sub.all (by decide)) k
  | keyWrite => exact execKeyWrite_kept (Sub.all (by decide)) k
  | keyErase => exact execKeyErase_kept (Sub.all (by decide)) k
  | worldSet => exact execWorldSet_kept (Sub.all (by decide)) k
  | ownSet => exact execOwnSet_kept (Sub.all (by decide)) k
  | pmRequest => exact execPmRequest_kept (Sub.all (by decide)) k
  | eventConfig => exact execEventConfig_kept (Sub.all (by decide)) k
  | eventLog => exact execEventLog_kept (Sub.all (by decide)) k
  | lcTransition => exact execLcTransition_kept (Sub.all (by decide)) k
  | debugUnlock => exact execDebugUnlock_kept (Sub.all (by decide)) k
  | keyHashSet => exact execKeyHashSet_kept (Sub.all (by decide)) k
  | keyRevoke => exact execKeyRevoke_kept (Sub.all (by decide)) k
  | lhsConfig => exact execLhsConfig_kept (Sub.all (by decide)) k
  | updStatus => exact execUpdStatus_kept (Sub.all (by decide)) k
  | updBegin => exact execUpdBegin_kept (Sub.all (by decide)) k
  | updChunk => exact execUpdChunk_kept (Sub.all (by decide)) k
  | updAbort => exact execUpdAbort_kept (Sub.all (by decide)) k
  | updActivate => exact execUpdActivate_kept (Sub.all (by decide)) k
  | updConfirm => exact execUpdConfirm_kept (Sub.all (by decide)) k
  | updRevert => exact execUpdRevert_kept (Sub.all (by decide)) k
  | updRelaySet => exact execUpdRelaySet_kept (Sub.all (by decide)) k
  | updConfig => exact execUpdConfig_kept (Sub.all (by decide)) k
  | resetNonce => exact execResetNonce_kept (Sub.all (by decide)) k
  | reset => exact execReset_kept (Sub.all (by decide)) k
  | clockStatus => exact execClockStatus_kept (Sub.all (by decide)) k
  | resetCause => exact execResetCause_kept (Sub.all (by decide)) k
  | blockReset => exact execBlockReset_kept (Sub.all (by decide)) k
  | watchdogSet => exact execWatchdogSet_kept (Sub.all (by decide)) k
  | commonsRestart => exact execCommonsRestart_kept (Sub.all (by decide)) k
  | parStatus => exact execParStatus_kept (Sub.all (by decide)) k
  | parChannel => exact execParChannel_kept (Sub.all (by decide)) k
  | parThermal => exact execParThermal_kept (Sub.all (by decide)) k
  | parResets => exact execParResets_kept (Sub.all (by decide)) k
  | parSession => exact execParSession_kept (Sub.all (by decide)) k
  | parConfig => exact execParConfig_kept (Sub.all (by decide)) k
  | parCalSet => exact execParCalSet_kept (Sub.all (by decide)) k
  | ferryStatus => exact execFerryStatus_kept (Sub.all (by decide)) k
  | ferryConfig => exact execFerryConfig_kept (Sub.all (by decide)) k
  | handover => exact execHandover_kept (Sub.all (by decide)) k
  | lanePhase => exact execLanePhase_kept (Sub.all (by decide)) k
  | laneDisqualify => exact execLaneDisqualify_kept (Sub.all (by decide)) k
  | laneRequalify => exact execLaneRequalify_kept (Sub.all (by decide)) k
  | laneResync => exact execLaneResync_kept (Sub.all (by decide)) k
  | discrepancyLog => exact execDiscrepancyLog_kept (Sub.all (by decide)) k
  | quietEnter => exact execQuietEnter_kept (Sub.all (by decide)) k
  | quietLeave => exact execQuietLeave_kept (Sub.all (by decide)) k
  | ledgerStatus => exact execLedgerStatus_kept (Sub.all (by decide)) k
  | ledgerConfig => exact execLedgerConfig_kept (Sub.all (by decide)) k
  | ledgerQuota => exact execLedgerQuota_kept (Sub.all (by decide)) k
  | ledgerQuery => exact execLedgerQuery_kept (Sub.all (by decide)) k
  | ledgerRecovered => exact execLedgerRecovered_kept (Sub.all (by decide)) k
  | regWrite => exact execRegWrite_kept (Sub.all (by decide)) k
  | commitWrite => exact execCommitWrite_kept (Sub.all (by decide)) k
  | commitApply => exact execCommitApply_kept (Sub.all (by decide)) k
  | rstcReqCore => exact execRstcReqCore_kept (Sub.all (by decide)) k
  | rstcReqSys => exact execRstcReqSys_kept (Sub.all (by decide)) k
  | blkrstWrite => exact execBlkrstWrite_kept (Sub.all (by decide)) k
  | blockResetRelease => exact execBlockResetRelease_kept (Sub.all (by decide)) k
  | forceCdWrite => exact execForceCdWrite_kept (Sub.all (by decide)) k
  | rstcCmnRestart => exact execRstcCmnRestart_kept (Sub.all (by decide)) k
  | commonsRestartReport => exact execCommonsRestartReport_kept (Sub.all (by decide)) k
  | wdtKick => exact execWdtKick_kept (Sub.all (by decide)) k
  | watchdogExpiry => exact execWatchdogExpiry_kept (Sub.all (by decide)) k
  | frzPwmHoldClear => exact execFrzPwmHoldClear_kept (Sub.all (by decide)) k
  | ferryCtrlRequest => exact execFerryCtrlRequest_kept (Sub.all (by decide)) k
  | ferryCtrlRelease => exact execFerryCtrlRelease_kept (Sub.all (by decide)) k
  | ferryCtrlResync => exact execFerryCtrlResync_kept (Sub.all (by decide)) k
  | doorbell => exact execDoorbell_kept (Sub.all (by decide)) k
  | reqSlotWrite => exact execReqSlotWrite_kept (Sub.all (by decide)) k
  | respAck => exact execRespAck_kept (Sub.all (by decide)) k
  | cplHeadWrite => exact execCplHeadWrite_kept (Sub.all (by decide)) k
  | iovSqDoorbell => exact execIovSqDoorbell_kept (Sub.all (by decide)) k
  | iovCqHeadWrite => exact execIovCqHeadWrite_kept (Sub.all (by decide)) k
  | seqSwStart => exact execSeqSwStart_kept (Sub.all (by decide)) k
  | canCtlRecover => exact execCanCtlRecover_kept (Sub.all (by decide)) k
  | rxDone => exact execRxDone_kept (Sub.all (by decide)) k
  | linCtlWake => exact execLinCtlWake_kept (Sub.all (by decide)) k
  | servoSample => exact execServoSample_kept (Sub.all (by decide)) k
  | timeSetGo => exact execTimeSetGo_kept (Sub.all (by decide)) k
  | tidePhaseRead => exact execTidePhaseRead_kept (Sub.all (by decide)) k
  | canTsRead => exact execCanTsRead_kept (Sub.all (by decide)) k
  | timeNowRead => exact execTimeNowRead_kept (Sub.all (by decide)) k
  | pariCalRead => exact execPariCalRead_kept (Sub.all (by decide)) k
  | fenceAckWrite => exact execFenceAckWrite_kept (Sub.all (by decide)) k
  | cwErrHeadWrite => exact execCwErrHeadWrite_kept (Sub.all (by decide)) k
  | potUpdateGo => exact execPotUpdateGo_kept (Sub.all (by decide)) k
  | lstpInjectWrite => exact execLstpInjectWrite_kept (Sub.all (by decide)) k
  | lhsPmreqWrite => exact execLhsPmreqWrite_kept (Sub.all (by decide)) k
  | memAccess => exact execMemAccess_kept (Sub.all (by decide)) k
  | cwAccessRead => exact execCwAccessRead_kept (Sub.all (by decide)) k
  | cwAccessWrite => exact execCwAccessWrite_kept (Sub.all (by decide)) k
  | cwResponse => exact execCwResponse_kept (Sub.all (by decide)) k
  | cwTimeout => exact execCwTimeout_kept (Sub.all (by decide)) k
  | cwStallTimeout => exact execCwStallTimeout_kept (Sub.all (by decide)) k
  | prefetchExpiry => exact execPrefetchExpiry_kept (Sub.all (by decide)) k
  | discoverTimer => exact execDiscoverTimer_kept (Sub.all (by decide)) k
  | capsReceived => exact execCapsReceived_kept (Sub.all (by decide)) k
  | nodeLost => exact execNodeLost_kept (Sub.all (by decide)) k
  | powerOn => exact execPowerOn_kept (Sub.all (by decide)) k
  | vkeepInputChange => exact execVkeepInputChange_kept (Sub.all (by decide)) k
  | laneSupplyLow => exact execLaneSupplyLow_kept (Sub.all (by decide)) k
  | lanePor => exact execLanePor_kept (Sub.all (by decide)) k
  | supplyWarning => exact execSupplyWarning_kept (Sub.all (by decide)) k
  | xtalOk => exact execXtalOk_kept (Sub.all (by decide)) k
  | xtalFail => exact execXtalFail_kept (Sub.all (by decide)) k
  | clkGood => exact execClkGood_kept (Sub.all (by decide)) k
  | clkFail => exact execClkFail_kept (Sub.all (by decide)) k
  | elderReleased => exact execElderReleased_kept (Sub.all (by decide)) k
  | clockMonitorFault => exact execClockMonitorFault_kept (Sub.all (by decide)) k
  | eccError => exact execEccError_kept (Sub.all (by decide)) k
  | lockstepMismatch => exact execLockstepMismatch_kept (Sub.all (by decide)) k
  | lockstepBreak => exact execLockstepBreak_kept (Sub.all (by decide)) k
  | junctionThreshold => exact execJunctionThreshold_kept (Sub.all (by decide)) k
  | thermalShutdown => exact execThermalShutdown_kept (Sub.all (by decide)) k
  | resetNAssert => exact execResetNAssert_kept (Sub.all (by decide)) k
  | resetNRelease => exact execResetNRelease_kept (Sub.all (by decide)) k
  | resetMessage => exact execResetMessage_kept (Sub.all (by decide)) k
  | signedResetAssert => exact execSignedResetAssert_kept (Sub.all (by decide)) k
  | freezeEntry => exact execFreezeEntry_kept (Sub.all (by decide)) k
  | freezeThaw => exact execFreezeThaw_kept (Sub.all (by decide)) k
  | cycleBoundary => exact execCycleBoundary_kept (Sub.all (by decide)) k
  | frameSeal overrun n =>
    exact execFrameSeal_kept (overrun := overrun) (imageBytes := n) (s := s) (Sub.all (by decide)) k
  | stateImageReceived => exact execStateImageReceived_kept (Sub.all (by decide)) k
  | serviceDelayExpiry => exact execServiceDelayExpiry_kept (Sub.all (by decide)) k
  | heartbeat => exact execHeartbeat_kept (Sub.all (by decide)) k
  | straitLost => exact execStraitLost_kept (Sub.all (by decide)) k
  | laneLostNotice l epoch cycle =>
    exact execLaneLostNotice_kept (_epoch := epoch) (_cycle := cycle) (Sub.all (by decide)) k
  | watermark => exact execWatermark_kept (Sub.all (by decide)) k
  | leaseRequest => exact execLeaseRequest_kept (Sub.all (by decide)) k
  | leaseGrant => exact execLeaseGrant_kept (Sub.all (by decide)) k
  | leaseRenew => exact execLeaseRenew_kept (Sub.all (by decide)) k
  | leaseAck => exact execLeaseAck_kept (Sub.all (by decide)) k
  | renewMissed => exact execRenewMissed_kept (Sub.all (by decide)) k
  | leaseRelease => exact execLeaseRelease_kept (Sub.all (by decide)) k
  | laneDown => exact execLaneDown_kept (Sub.all (by decide)) k
  | leaseValidEnd => exact execLeaseValidEnd_kept (Sub.all (by decide)) k
  | arbiterLeaseExpiry => exact execArbiterLeaseExpiry_kept (Sub.all (by decide)) k
  | frameCopyArrival => exact execFrameCopyArrival_kept (Sub.all (by decide)) k
  | acceptanceWindowClose => exact execAcceptanceWindowClose_kept (Sub.all (by decide)) k
  | statusFrame => exact execStatusFrame_kept (Sub.all (by decide)) k
  | commonsMismatch => exact execCommonsMismatch_kept (Sub.all (by decide)) k
  | commonsSafeState => exact execCommonsSafeState_kept (Sub.all (by decide)) k
  | bootVerified => exact execBootVerified_kept (Sub.all (by decide)) k
  | applicationVerified => exact execApplicationVerified_kept (Sub.all (by decide)) k
  | ledgerAccept => exact execLedgerAccept_kept (Sub.all (by decide)) k
  | entryStart => exact execEntryStart_kept (Sub.all (by decide)) k
  | entryDisposed => exact execEntryDisposed_kept (Sub.all (by decide)) k
  | completionReport => exact execCompletionReport_kept (Sub.all (by decide)) k
  | entryFree => exact execEntryFree_kept (Sub.all (by decide)) k
  | dedupExpiry => exact execDedupExpiry_kept (Sub.all (by decide)) k
  | ledgerRebuild => exact execLedgerRebuild_kept (Sub.all (by decide)) k
  | unclaimedTimeout => exact execUnclaimedTimeout_kept (Sub.all (by decide)) k
  | sessionSegment => exact execSessionSegment_kept (Sub.all (by decide)) k
  | sessionOpen => exact execSessionOpen_kept (Sub.all (by decide)) k
  | sessionClose => exact execSessionClose_kept (Sub.all (by decide)) k
  | sessionIdleTimeout => exact execSessionIdleTimeout_kept (Sub.all (by decide)) k
  | reassemblyTimeout => exact execReassemblyTimeout_kept (Sub.all (by decide)) k
  | urgentCommand => exact execUrgentCommand_kept (Sub.all (by decide)) k
  | safeLineAssert => exact execSafeLineAssert_kept (Sub.all (by decide)) k
  | currentWindow => exact execCurrentWindow_kept (Sub.all (by decide)) k
  | ilimReached => exact execIlimReached_kept (Sub.all (by decide)) k
  | softwareTrip => exact execSoftwareTrip_kept (Sub.all (by decide)) k
  | thermalReading => exact execThermalReading_kept (Sub.all (by decide)) k
  | wireModelUpdate => exact execWireModelUpdate_kept (Sub.all (by decide)) k
  | clampEventEnd => exact execClampEventEnd_kept (Sub.all (by decide)) k
  | clampOver => exact execClampOver_kept (Sub.all (by decide)) k
  | freewheelMissing => exact execFreewheelMissing_kept (Sub.all (by decide)) k
  | retryDelayExpiry => exact execRetryDelayExpiry_kept (Sub.all (by decide)) k
  | retryReloadTimer => exact execRetryReloadTimer_kept (Sub.all (by decide)) k
  | blankEnd => exact execBlankEnd_kept (Sub.all (by decide)) k
  | pcPwmPeriodStart => exact execPcPwmPeriodStart_kept (Sub.all (by decide)) k
  | scheduledSwitch => exact execScheduledSwitch_kept (Sub.all (by decide)) k
  | lateSwitch => exact execLateSwitch_kept (Sub.all (by decide)) k
  | undercurrent => exact execUndercurrent_kept (Sub.all (by decide)) k
  | openOff => exact execOpenOff_kept (Sub.all (by decide)) k
  | shortFeed => exact execShortFeed_kept (Sub.all (by decide)) k
  | conductionEstimate => exact execConductionEstimate_kept (Sub.all (by decide)) k
  | keepaliveTimeout => exact execKeepaliveTimeout_kept (Sub.all (by decide)) k
  | failAction => exact execFailAction_kept (Sub.all (by decide)) k
  | dieRestart => exact execDieRestart_kept (Sub.all (by decide)) k
  | feedWarning => exact execFeedWarning_kept (Sub.all (by decide)) k
  | feedWarningRelease => exact execFeedWarningRelease_kept (Sub.all (by decide)) k
  | diagResume => exact execDiagResume_kept (Sub.all (by decide)) k
  | holdFalling => exact execHoldFalling_kept (Sub.all (by decide)) k
  | holdRising => exact execHoldRising_kept (Sub.all (by decide)) k
  | crankWindowExpiry => exact execCrankWindowExpiry_kept (Sub.all (by decide)) k
  | cutCrossing => exact execCutCrossing_kept (Sub.all (by decide)) k
  | feedRecovery => exact execFeedRecovery_kept (Sub.all (by decide)) k
  | recoveryLost => exact execRecoveryLost_kept (Sub.all (by decide)) k
  | restoreSlot => exact execRestoreSlot_kept (Sub.all (by decide)) k
  | feedHighSet => exact execFeedHighSet_kept (Sub.all (by decide)) k
  | feedHighClear => exact execFeedHighClear_kept (Sub.all (by decide)) k
  | ldDeferTimeout => exact execLdDeferTimeout_kept (Sub.all (by decide)) k
  | feedOvSet => exact execFeedOvSet_kept (Sub.all (by decide)) k
  | feedOvClear => exact execFeedOvClear_kept (Sub.all (by decide)) k
  | reverseSet => exact execReverseSet_kept (Sub.all (by decide)) k
  | reverseClear => exact execReverseClear_kept (Sub.all (by decide)) k
  | feedClassMismatch => exact execFeedClassMismatch_kept (Sub.all (by decide)) k
  | gdOcTrip => exact execGdOcTrip_kept (Sub.all (by decide)) k
  | prechargeComplete => exact execPrechargeComplete_kept (Sub.all (by decide)) k
  | prechargeTimeout => exact execPrechargeTimeout_kept (Sub.all (by decide)) k
  | senseOpen => exact execSenseOpen_kept (Sub.all (by decide)) k
  | fieldInputSample => exact execFieldInputSample_kept (Sub.all (by decide)) k
  | wettingPulse => exact execWettingPulse_kept (Sub.all (by decide)) k
  | fcOutputEvaluation => exact execFcOutputEvaluation_kept (Sub.all (by decide)) k
  | fcOverload => exact execFcOverload_kept (Sub.all (by decide)) k
  | fcPwmPeriodStart => exact execFcPwmPeriodStart_kept (Sub.all (by decide)) k
  | ainConversion => exact execAinConversion_kept (Sub.all (by decide)) k
  | fcOpenWire => exact execFcOpenWire_kept (Sub.all (by decide)) k
  | captureEdge => exact execCaptureEdge_kept (Sub.all (by decide)) k
  | pilotEdge => exact execPilotEdge_kept (Sub.all (by decide)) k
  | pilotStateChange => exact execPilotStateChange_kept (Sub.all (by decide)) k
  | pilotOscTimeout => exact execPilotOscTimeout_kept (Sub.all (by decide)) k
  | dissipationEstimate => exact execDissipationEstimate_kept (Sub.all (by decide)) k
  | fieldSupplyWarning => exact execFieldSupplyWarning_kept (Sub.all (by decide)) k
  | fieldHoldCrossing => exact execFieldHoldCrossing_kept (Sub.all (by decide)) k
  | fieldRecovery => exact execFieldRecovery_kept (Sub.all (by decide)) k
  | supplyLost => exact execSupplyLost_kept (Sub.all (by decide)) k
  | barrierRestart => exact execBarrierRestart_kept (Sub.all (by decide)) k
  | fieldWake => exact execFieldWake_kept (Sub.all (by decide)) k
  | tideEventFire => exact execTideEventFire_kept (Sub.all (by decide)) k
  | turnStart => exact execTurnStart_kept (Sub.all (by decide)) k
  | mpllUpdate => exact execMpllUpdate_kept (Sub.all (by decide)) k
  | mainsLost => exact execMainsLost_kept (Sub.all (by decide)) k
  | extPulse => exact execExtPulse_kept (Sub.all (by decide)) k
  | extMiss => exact execExtMiss_kept (Sub.all (by decide)) k
  | holdoverExpiry => exact execHoldoverExpiry_kept (Sub.all (by decide)) k
  | tideSync => exact execTideSync_kept (Sub.all (by decide)) k
  | pwmPeriodBoundary => exact execPwmPeriodBoundary_kept (Sub.all (by decide)) k
  | triggerPosition => exact execTriggerPosition_kept (Sub.all (by decide)) k
  | adcGroupComplete => exact execAdcGroupComplete_kept (Sub.all (by decide)) k
  | nodeExecute => exact execNodeExecute_kept (Sub.all (by decide)) k
  | comparatorAssert => exact execComparatorAssert_kept (Sub.all (by decide)) k
  | tripInputAssert => exact execTripInputAssert_kept (Sub.all (by decide)) k
  | selectorSwitch => exact execSelectorSwitch_kept (Sub.all (by decide)) k
  | streamEnd => exact execStreamEnd_kept (Sub.all (by decide)) k
  | safePatternTimeout => exact execSafePatternTimeout_kept (Sub.all (by decide)) k
  | canFrameReceived => exact execCanFrameReceived_kept (Sub.all (by decide)) k
  | canFrameQueued => exact execCanFrameQueued_kept (Sub.all (by decide)) k
  | canTxDone => exact execCanTxDone_kept (Sub.all (by decide)) k
  | canTxError => exact execCanTxError_kept (Sub.all (by decide)) k
  | busOffRecovered => exact execBusOffRecovered_kept (Sub.all (by decide)) k
  | canWake => exact execCanWake_kept (Sub.all (by decide)) k
  | canPhyFault => exact execCanPhyFault_kept (Sub.all (by decide)) k
  | dominantTimeout => exact execDominantTimeout_kept (Sub.all (by decide)) k
  | linSlot => exact execLinSlot_kept (Sub.all (by decide)) k
  | linResponse => exact execLinResponse_kept (Sub.all (by decide)) k
  | linInactivitySleep => exact execLinInactivitySleep_kept (Sub.all (by decide)) k
  | linWakeDetect => exact execLinWakeDetect_kept (Sub.all (by decide)) k
  | ethFrameIngress => exact execEthFrameIngress_kept (Sub.all (by decide)) k
  | ethFrameEgress => exact execEthFrameEgress_kept (Sub.all (by decide)) k
  | laneFrameSubmit => exact execLaneFrameSubmit_kept (Sub.all (by decide)) k
  | gclEntry => exact execGclEntry_kept (Sub.all (by decide)) k
  | ethLinkChange => exact execEthLinkChange_kept (Sub.all (by decide)) k
  | ethPhyFault => exact execEthPhyFault_kept (Sub.all (by decide)) k
  | frerResetTimeout => exact execFrerResetTimeout_kept (Sub.all (by decide)) k
  | ethWake => exact execEthWake_kept (Sub.all (by decide)) k
  | tc10SleepRequest => exact execTc10SleepRequest_kept (Sub.all (by decide)) k
  | servoTimer => exact execServoTimer_kept (Sub.all (by decide)) k
  | timeHoldover => exact execTimeHoldover_kept (Sub.all (by decide)) k
  | xcapCapture => exact execXcapCapture_kept (Sub.all (by decide)) k
  | pduArrival => exact execPduArrival_kept (Sub.all (by decide)) k
  | timerMark => exact execTimerMark_kept (Sub.all (by decide)) k
  | pduSend => exact execPduSend_kept (Sub.all (by decide)) k
  | minGapExpiry => exact execMinGapExpiry_kept (Sub.all (by decide)) k
  | autoIdleTimeout => exact execAutoIdleTimeout_kept (Sub.all (by decide)) k
  | ringStart => exact execRingStart_kept (Sub.all (by decide)) k
  | ringMessage => exact execRingMessage_kept (Sub.all (by decide)) k
  | hopTimeout => exact execHopTimeout_kept (Sub.all (by decide)) k
  | ringRetry => exact execRingRetry_kept (Sub.all (by decide)) k
  | duskEvent => exact execDuskEvent_kept (Sub.all (by decide)) k
  | duskExpiry => exact execDuskExpiry_kept (Sub.all (by decide)) k
  | finalComplete => exact execFinalComplete_kept (Sub.all (by decide)) k
  | coveWake => exact execCoveWake_kept (Sub.all (by decide)) k
  | wakingComplete => exact execWakingComplete_kept (Sub.all (by decide)) k
  | moduleSleep => exact execModuleSleep_kept (Sub.all (by decide)) k
  | moduleWake => exact execModuleWake_kept (Sub.all (by decide)) k
  | descriptorTake => exact execDescriptorTake_kept (Sub.all (by decide)) k
  | rxSteer => exact execRxSteer_kept (Sub.all (by decide)) k
  | quiesceTimeout => exact execQuiesceTimeout_kept (Sub.all (by decide)) k
  | tamperEvent => exact execTamperEvent_kept (Sub.all (by decide)) k
  | ownerReleaseDone => exact execOwnerReleaseDone_kept (Sub.all (by decide)) k
  | confirmTimeout => exact execConfirmTimeout_kept (Sub.all (by decide)) k
  | bankCopyDone => exact execBankCopyDone_kept (Sub.all (by decide)) k
  | parishFlush => exact execParishFlush_kept (Sub.all (by decide)) k
  | parishSecond => exact execParishSecond_kept (Sub.all (by decide)) k
  | calSync => exact execCalSync_kept (Sub.all (by decide)) k
  | commandLinkClockLoss => exact execCommandLinkClockLoss_kept (Sub.all (by decide)) k
  | tideSlewComplete => exact execTideSlewComplete_kept (Sub.all (by decide)) k
  | cwNodeHeartbeat => exact execCwNodeHeartbeat_kept (Sub.all (by decide)) k
  | potUpdateDone => exact execPotUpdateDone_kept (Sub.all (by decide)) k
  | straitCopyDone => exact execStraitCopyDone_kept (Sub.all (by decide)) k
  | stagingVerifyDone => exact execStagingVerifyDone_kept (Sub.all (by decide)) k
  | norEraseDone => exact execNorEraseDone_kept (Sub.all (by decide)) k
  | fuseBurnDone => exact execFuseBurnDone_kept (Sub.all (by decide)) k
  | keyStoreOpDone => exact execKeyStoreOpDone_kept (Sub.all (by decide)) k
  | attestReportDone => exact execAttestReportDone_kept (Sub.all (by decide)) k
  | coreResetRelease => exact execCoreResetRelease_kept (Sub.all (by decide)) k
  | coreWfiRetention => exact execCoreWfiRetention_kept (Sub.all (by decide)) k
  | alwaysOnPowerLoss => exact execAlwaysOnPowerLoss_kept (Sub.all (by decide)) k
  | queryDeadlineExpiry => exact execQueryDeadlineExpiry_kept (Sub.all (by decide)) k

end Sys2Proof.Machine

open Sys2Proof Sys2Proof.Machine in
/-- Settles O2: each arm of the dispatch is a next state or a choice among next states, and each keeps the queue and
the time of a state that meets the invariant. -/
theorem commandsComplete : Obligations.CommandsComplete := by
  intro c s
  obtain ⟨t, ht⟩ := exec_goes c s
  refine ⟨t, ht, fun c s t h ht => ?_⟩
  have hk := exec_kept h c t ht
  exact ⟨hk.pending, hk.now⟩

namespace Sys2Proof.Machine

/-! ### What a command that stages configuration leaves -/

/-- An accepted command whose work writes pending copies stages its configuration; more is said of the copies that its
work leaves. -/
theorem Ready.stages {c : CmdSpec} {s : State} {r : Req} {P : State → Prop} (h : Ready c s r) (ha : c.accepted = true)
    (hb : ∀ t q, c.before t q = t) (hk : ∀ u : State, CmdSpec.Kept ⟨0x608, u⟩ c)
    (hr : ∀ (u : State) q, u.RegsAside (c.exec u q s.led.nextLsn))
    (hP : ∀ u q t, s.RegsAside u → s.ShadowsSame u → Req.Same q r →
      t.commits = (c.exec u q s.led.nextLsn).commits → P t) :
    Completes (runScs c r s) (fun t => s.Stages t ∧ P t) := by
  refine h.framed ha hb (M := 0x6007d8) hk (Sub.of (Sub.refl _) (by decide)) (Sub.of (Sub.refl _) (by decide))
    (Sub.all (by decide)) ?_
  intro u q t _ _ hregs hshadow hq _ hserved haside hmix
  exact ⟨⟨(hregs.trans (hr u q)).trans haside, hmix⟩, hP u q t hregs hshadow hq hserved.commits⟩

/-- The same for copies of several dies' regions, where a die's cells give each register one value. -/
theorem Ready.stagesDies {c : CmdSpec} {s : State} {r : Req} {P : State → Prop} (h : Ready c s r) (ha : c.accepted = true)
    (hb : ∀ t q, c.before t q = t) (hk : ∀ u : State, CmdSpec.Kept ⟨0x608, u⟩ c) (b : Nat) (ds : Req → List Nat)
    (W : State → Req → Nat → List RegCell) (he : ∀ u q n, c.exec u q n = u.commitDies b (ds q) (W u q) n)
    (hn : ∀ q, (ds q).Nodup) (hu : ∀ u q d a v w, (a, v) ∈ W u q d → (a, w) ∈ W u q d → w = v)
    (hP : ∀ u q t, s.RegsAside u → s.ShadowsSame u → Req.Same q r →
      (∀ d ∈ ds q, ∀ x ∈ W u q d, t.Carries b d s.led.nextLsn x) → P t) :
    Completes (runScs c r s) (fun t => s.Stages t ∧ P t) := by
  refine h.stages ha hb hk (fun u q => by rw [he]; exact commitDies_aside) fun u q t hregs hshadow hq hc => ?_
  refine hP u q t hregs hshadow hq fun d hd x hx => State.Carries.of_commits ?_ hc
  rw [he]
  exact State.commitDies_carries hd (hn q) hx fun w hw => hu u q d _ _ _ hx hw

/-- The same for a copy of one region. -/
theorem Ready.stagesShared {c : CmdSpec} {s : State} {r : Req} {P : State → Prop} (h : Ready c s r)
    (ha : c.accepted = true) (hb : ∀ t q, c.before t q = t) (hk : ∀ u : State, CmdSpec.Kept ⟨0x608, u⟩ c) (b : Nat)
    (g : Req → Nat) (W : State → Req → List RegCell) (he : ∀ u q n, c.exec u q n = u.commitShared b (g q) (W u q) n)
    (hn : ∀ u q, ((W u q).map Prod.fst).Nodup)
    (hP : ∀ u q t, s.RegsAside u → s.ShadowsSame u → Req.Same q r →
      (∀ x ∈ W u q, t.Carries b (g q) s.led.nextLsn x) → P t) :
    Completes (runScs c r s) (fun t => s.Stages t ∧ P t) := by
  refine h.stages ha hb hk (fun u q => by rw [he]; exact commitShared_aside) fun u q t hregs hshadow hq hc => ?_
  refine hP u q t hregs hshadow hq fun x hx => State.Carries.of_commits ?_ hc
  rw [he]
  exact State.commitShared_carries hx fun w hw => cells_unique (hn u q) hx hw

/-- A configuration register of the ready command's sender with one field changed is the same before and after the
command interface has taken the command. -/
theorem State.cfgSet_same {s u : State} {r q : Req} (h1 : s.RegsAside u) (h2 : s.ShadowsSame u) (hq : q.lane = r.lane)
    (a : Nat) (f : Fld) (v : Nat) : u.cfgSet q a f v = s.cfgWith r a f v := by
  unfold State.cfgSet State.cfgWith State.cfgLane
  rw [h1.holderOr, h2, hq]

/-! ### Cells of the outputs of a die -/

/-- The cells that each named output of a die gives, `f` of its place on the die. -/
def dieCells (die ix : Nat → Nat) (ns : List Nat) (f : Nat → Nat → List RegCell) (d : Nat) : List RegCell :=
  ((onDie die ns d).map (fun n => f d (ix n))).flatten

theorem mem_dieCells {die ix : Nat → Nat} {ns : List Nat} {f : Nat → Nat → List RegCell} {n : Nat} {x : RegCell}
    (hn : n ∈ ns) (hx : x ∈ f (die n) (ix n)) : x ∈ dieCells die ix ns f (die n) :=
  List.mem_flatten.mpr ⟨_, List.mem_map.mpr ⟨n, mem_onDie hn, rfl⟩, hx⟩

/-- The cells of two places on a die lie in different rows of 64 bytes, so a die's cells give a register one value where
those of a place do. -/
theorem dieCells_unique {die ix : Nat → Nat} {ns : List Nat} {f : Nat → Nat → List RegCell} {d K : Nat}
    (hrow : ∀ i, ∀ x ∈ f d i, x.1 / 64 = K + i) (hn : ∀ i, ((f d i).map Prod.fst).Nodup) {a : Nat} {v w : Word}
    (hv : (a, v) ∈ dieCells die ix ns f d) (hw : (a, w) ∈ dieCells die ix ns f d) : w = v := by
  simp only [dieCells, List.mem_flatten, List.mem_map, exists_exists_and_eq_and] at hv hw
  obtain ⟨m, -, hm⟩ := hv
  obtain ⟨n, -, hn'⟩ := hw
  have hix : ix m = ix n := by
    have h1 := hrow _ _ hm
    have h2 := hrow _ _ hn'
    dsimp only at h1 h2
    omega
  rw [← hix] at hn'
  exact cells_unique (hn _) hm hn'

/-- One cell for each place. -/
theorem dieCells_single {die ix : Nat → Nat} {ns : List Nat} {f : Nat → Nat → RegCell} {d : Nat} :
    dieCells die ix ns (fun d m => [f d m]) d = (onDie die ns d).map (fun n => f d (ix n)) := by
  unfold dieCells
  induction onDie die ns d with
  | nil => rfl
  | cons n ns ih => rw [List.map_cons, List.flatten_cons, ih]; rfl

theorem mem_maskBits {k m n : Nat} (hn : n < k) (hb : m.testBit n = true) : n ∈ maskBits k m :=
  List.mem_filter.mpr ⟨List.mem_range.mpr hn, hb⟩

/-! ### The commands of channels, drivers and feeds -/

/-- What PC_SET gives a channel's registers (Table 8.8). -/
def pcSetCells (u : State) (q : Req) (d m : Nat) : List RegCell :=
  [(R.PCH_TGT d m, BitVec.ofNat 32 (q.u8 6 + 4 * q.u8 7)), (R.PCH_SWPH d m, q.w 8)] ++
    (if q.u8 6 = 2 then [u.cfgSet q (R.PCH_DUTY d m) F.PCH_DUTY_DUTY (q.u16 12)] else [])

theorem pcSetCells_row (u : State) (q : Req) (d m : Nat) :
    ∀ x ∈ pcSetCells u q d m, x.1 / 64 = (0x3818040 + 0x2000 * d) + m := by
  unfold pcSetCells State.cfgSet
  split <;> simp [R.PCH_TGT, R.PCH_SWPH, R.PCH_DUTY] <;> omega

theorem pcSetCells_nodup (u : State) (q : Req) (d m : Nat) : ((pcSetCells u q d m).map Prod.fst).Nodup := by
  unfold pcSetCells State.cfgSet
  split <;> simp [R.PCH_TGT, R.PCH_SWPH, R.PCH_DUTY]

theorem pcSet_stages (s : State) (r : Req) (h : Ready specPcSet s r) :
    Completes (exec (.pcSet r) s) (fun t => s.Stages t ∧ ∀ n < 48, (r.u 0 6).testBit n = true →
      t.Carries 6 (pcDie n) s.led.nextLsn (R.PCH_TGT (pcDie n) (pcIx n), BitVec.ofNat 32 (r.u8 6 + 4 * r.u8 7)) ∧
      t.Carries 6 (pcDie n) s.led.nextLsn (R.PCH_SWPH (pcDie n) (pcIx n), r.w 8) ∧
      (r.u8 6 = 2 → t.Carries 6 (pcDie n) s.led.nextLsn
        (s.cfgWith r (R.PCH_DUTY (pcDie n) (pcIx n)) F.PCH_DUTY_DUTY (r.u16 12)))) := by
  refine h.stagesDies rfl (fun _ _ => rfl) (fun _ => specPcSet_kept (Sub.refl _)) 6 (fun _ => [0, 1])
    (fun u q d => dieCells pcDie pcIx (pcMask q) (pcSetCells u q) d) (fun _ _ _ => rfl) (fun _ => by decide)
    (fun u q d a v w => dieCells_unique (pcSetCells_row u q d) (pcSetCells_nodup u q d)) ?_
  intro u q t hregs hshadow hq hc n hn hb
  have hmem : n ∈ pcMask q := mem_maskBits hn (by rw [hq.u]; exact hb)
  have hcell : ∀ x ∈ pcSetCells u q (pcDie n) (pcIx n), t.Carries 6 (pcDie n) s.led.nextLsn x :=
    fun x hx => hc _ (pcDie_lt n) x (mem_dieCells hmem hx)
  rw [pcSetCells, hq.u8, hq.u8, hq.w, hq.u16, State.cfgSet_same hregs hshadow hq.lane] at hcell
  refine ⟨hcell _ (by simp), hcell _ (by simp), fun h2 => hcell _ (by simp [h2])⟩

theorem pcConfig_stages (s : State) (r : Req) (h : Ready specPcConfig s r) :
    Completes (exec (.pcConfig r) s) (fun t => s.Stages t ∧
      ∀ c ∈ [(R.PCH_CFG (pcDie (r.u8 0)) (pcIx (r.u8 0)), r.w 4), (R.PCH_TRIP (pcDie (r.u8 0)) (pcIx (r.u8 0)), r.w 8),
          (R.PCH_THRM (pcDie (r.u8 0)) (pcIx (r.u8 0)), r.w 12), (R.PCH_PWM (pcDie (r.u8 0)) (pcIx (r.u8 0)), r.w 16),
          (R.PCH_OFS (pcDie (r.u8 0)) (pcIx (r.u8 0)), r.w 20),
          s.cfgWith r (R.PCH_DUTY (pcDie (r.u8 0)) (pcIx (r.u8 0))) F.PCH_DUTY_FALLBACK (r.u16 24)],
        t.Carries 6 (pcDie (r.u8 0)) s.led.nextLsn c) := by
  refine h.stagesShared rfl (fun _ _ => rfl) (fun _ => specPcConfig_kept (Sub.refl _)) 6 (fun q => pcDie (q.u8 0))
    (fun u q => [(R.PCH_CFG (pcDie (q.u8 0)) (pcIx (q.u8 0)), q.w 4), (R.PCH_TRIP (pcDie (q.u8 0)) (pcIx (q.u8 0)), q.w 8),
      (R.PCH_THRM (pcDie (q.u8 0)) (pcIx (q.u8 0)), q.w 12), (R.PCH_PWM (pcDie (q.u8 0)) (pcIx (q.u8 0)), q.w 16),
      (R.PCH_OFS (pcDie (q.u8 0)) (pcIx (q.u8 0)), q.w 20),
      u.cfgSet q (R.PCH_DUTY (pcDie (q.u8 0)) (pcIx (q.u8 0))) F.PCH_DUTY_FALLBACK (q.u16 24)]) (fun _ _ _ => rfl)
    (fun u q => by
      simp [R.PCH_CFG, R.PCH_TRIP, R.PCH_THRM, R.PCH_PWM, R.PCH_OFS, R.PCH_DUTY, State.cfgSet]) ?_
  intro u q t hregs hshadow hq hc
  simpa only [hq.u8, hq.w, hq.u16, State.cfgSet_same hregs hshadow hq.lane] using hc

theorem pcProfile_stages (s : State) (r : Req) (h : Ready specPcProfile s r) :
    Completes (exec (.pcProfile r) s) (fun t => s.Stages t ∧ ∀ d < 2,
      ∀ c ∈ [(R.PCH_WP_K1 d (r.u8 0), r.w 4), (R.PCH_WP_K2 d (r.u8 0), r.w 8), (R.PCH_WP_TAU d (r.u8 0), r.w 12),
          (R.PCH_WP_LIM d (r.u8 0), r.w 16)],
        t.Carries 6 d s.led.nextLsn c) := by
  refine h.stagesDies rfl (fun _ _ => rfl) (fun _ => specPcProfile_kept (Sub.refl _)) 6 (fun _ => [0, 1])
    (fun _ q d => [(R.PCH_WP_K1 d (q.u8 0), q.w 4), (R.PCH_WP_K2 d (q.u8 0), q.w 8), (R.PCH_WP_TAU d (q.u8 0), q.w 12),
      (R.PCH_WP_LIM d (q.u8 0), q.w 16)]) (fun _ _ _ => rfl) (fun _ => by decide)
    (fun u q d a v w => cells_unique (by simp [R.PCH_WP_K1, R.PCH_WP_K2, R.PCH_WP_TAU, R.PCH_WP_LIM])) ?_
  intro u q t _ _ hq hc d hd
  simp only [hq.u8, hq.w] at hc
  exact hc d (by simp; omega)

theorem pcDieConfig_stages (s : State) (r : Req) (h : Ready specPcDieConfig s r) :
    Completes (exec (.pcDieConfig r) s) (fun t => s.Stages t ∧ ∀ d < 2, (r.u8 0).testBit d = true →
      t.Carries 6 d s.led.nextLsn (R.PCH_DIE_CFG d, BitVec.ofNat 32 (r.u16 2))) := by
  refine h.stagesDies rfl (fun _ _ => rfl) (fun _ => specPcDieConfig_kept (Sub.refl _)) 6 (fun q => maskBits 2 (q.u8 0))
    (fun _ q d => [(R.PCH_DIE_CFG d, BitVec.ofNat 32 (q.u16 2))]) (fun _ _ _ => rfl)
    (fun q => List.nodup_range.filter _) (fun u q d a v w => cells_unique (by simp)) ?_
  intro u q t _ _ hq hc d hd hb
  simp only [hq.u8, hq.u16] at hc
  exact hc d (mem_maskBits hd hb) _ (by simp)

/-- What PC_CLEAR gives a channel's target register (Table 8.8). -/
def pcClearCell (u : State) (q : Req) (d m : Nat) : RegCell :=
  (R.PCH_TGT d m, BitVec.ofNat 32 ((if q.u8 6 = 1 then 0 else u.cfgFld q (R.PCH_TGT d m) F.PCH_TGT_TARGET) + 8))

theorem pcClear_stages (s : State) (r : Req) (h : Ready specPcClear s r) :
    Completes (exec (.pcClear r) s) (fun t => s.Stages t ∧ ∀ n < 48, (r.u 0 6).testBit n = true →
      t.Carries 6 (pcDie n) s.led.nextLsn (R.PCH_TGT (pcDie n) (pcIx n), BitVec.ofNat 32 ((if r.u8 6 = 1 then 0
        else getF (s.shadow (s.holderOr r.lane) (R.PCH_TGT (pcDie n) (pcIx n))) F.PCH_TGT_TARGET) + 8))) := by
  refine h.stagesDies rfl (fun _ _ => rfl) (fun _ => specPcClear_kept (Sub.refl _)) 6 (fun _ => [0, 1])
    (fun u q d => dieCells pcDie pcIx (pcMask q) (fun d m => [pcClearCell u q d m]) d)
    (fun u q n => by simp only [dieCells_single]; rfl) (fun _ => by decide)
    (fun u q d a v w => dieCells_unique (K := 0x3818040 + 0x2000 * d)
      (fun m => by simp [pcClearCell, R.PCH_TGT]; omega) (fun m => by simp)) ?_
  intro u q t hregs hshadow hq hc n hn hb
  have hmem : n ∈ pcMask q := mem_maskBits hn (by rw [hq.u]; exact hb)
  have hcell := hc _ (pcDie_lt n) _ (mem_dieCells hmem (List.mem_singleton.mpr rfl))
  rwa [pcClearCell, hq.u8, State.cfgFld_same hregs hshadow hq.lane] at hcell

/-- What GD_SET gives a driver's registers (Table 9.4). -/
def gdSetCells (q : Req) (d g : Nat) : List RegCell :=
  [(R.GDR_TGT d g, BitVec.ofNat 32 (q.u8 2 + 4 * q.u8 3)), (R.GDR_SWPH d g, q.w 4)]

theorem gdSet_stages (s : State) (r : Req) (h : Ready specGdSet s r) :
    Completes (exec (.gdSet r) s) (fun t => s.Stages t ∧ ∀ n < 16, (r.u16 0).testBit n = true →
      t.Carries 7 (n / 8) s.led.nextLsn (R.GDR_TGT (n / 8) (n % 8), BitVec.ofNat 32 (r.u8 2 + 4 * r.u8 3)) ∧
      t.Carries 7 (n / 8) s.led.nextLsn (R.GDR_SWPH (n / 8) (n % 8), r.w 4)) := by
  refine h.stagesDies rfl (fun _ _ => rfl) (fun _ => specGdSet_kept (Sub.refl _)) 7 (fun _ => [0, 1])
    (fun _ q d => dieCells gdDie (· % 8) (gdMask q) (gdSetCells q) d) (fun _ _ _ => rfl) (fun _ => by decide)
    (fun u q d a v w => dieCells_unique (K := 0x381C040 + 0x2000 * d)
      (fun m => by simp [gdSetCells, R.GDR_TGT, R.GDR_SWPH]; omega)
      (fun m => by simp [gdSetCells, R.GDR_TGT, R.GDR_SWPH])) ?_
  intro u q t _ _ hq hc n hn hb
  have hmem : n ∈ gdMask q := mem_maskBits hn (by rw [hq.u16]; exact hb)
  have hcell : ∀ x ∈ gdSetCells q (n / 8) (n % 8), t.Carries 7 (n / 8) s.led.nextLsn x :=
    fun x hx => hc _ (gdDie_lt hn) x (mem_dieCells hmem hx)
  rw [gdSetCells, hq.u8, hq.u8, hq.w] at hcell
  exact ⟨hcell _ (by simp), hcell _ (by simp)⟩

theorem gdConfig_stages (s : State) (r : Req) (h : Ready specGdConfig s r) :
    Completes (exec (.gdConfig r) s) (fun t => s.Stages t ∧
      ∀ c ∈ [(R.GDR_CFG (r.u8 0 / 8) (r.u8 0 % 8), r.w 4), (R.GDR_SHUNT (r.u8 0 / 8) (r.u8 0 % 8), r.w 8),
          (R.GDR_OC (r.u8 0 / 8) (r.u8 0 % 8), r.w 12), (R.GDR_TRIP (r.u8 0 / 8) (r.u8 0 % 8), r.w 16),
          (R.GDR_PRECHG (r.u8 0 / 8) (r.u8 0 % 8), r.w 20)],
        t.Carries 7 (r.u8 0 / 8) s.led.nextLsn c) := by
  refine h.stagesShared rfl (fun _ _ => rfl) (fun _ => specGdConfig_kept (Sub.refl _)) 7 (fun q => q.u8 0 / 8)
    (fun _ q => [(R.GDR_CFG (q.u8 0 / 8) (q.u8 0 % 8), q.w 4), (R.GDR_SHUNT (q.u8 0 / 8) (q.u8 0 % 8), q.w 8),
      (R.GDR_OC (q.u8 0 / 8) (q.u8 0 % 8), q.w 12), (R.GDR_TRIP (q.u8 0 / 8) (q.u8 0 % 8), q.w 16),
      (R.GDR_PRECHG (q.u8 0 / 8) (q.u8 0 % 8), q.w 20)]) (fun _ _ _ => rfl)
    (fun u q => by simp [R.GDR_CFG, R.GDR_SHUNT, R.GDR_OC, R.GDR_TRIP, R.GDR_PRECHG]) ?_
  intro u q t _ _ hq hc
  simpa only [hq.u8, hq.w] using hc

/-- What GD_CLEAR gives a driver's target register (Table 9.4). -/
def gdClearCell (u : State) (q : Req) (d g : Nat) : RegCell :=
  (R.GDR_TGT d g, BitVec.ofNat 32 ((if q.u8 2 = 1 then 0 else u.cfgFld q (R.GDR_TGT d g) F.GDR_TGT_TARGET) + 8))

theorem gdClear_stages (s : State) (r : Req) (h : Ready specGdClear s r) :
    Completes (exec (.gdClear r) s) (fun t => s.Stages t ∧ ∀ n < 16, (r.u16 0).testBit n = true →
      t.Carries 7 (n / 8) s.led.nextLsn (R.GDR_TGT (n / 8) (n % 8), BitVec.ofNat 32 ((if r.u8 2 = 1 then 0
        else getF (s.shadow (s.holderOr r.lane) (R.GDR_TGT (n / 8) (n % 8))) F.GDR_TGT_TARGET) + 8))) := by
  refine h.stagesDies rfl (fun _ _ => rfl) (fun _ => specGdClear_kept (Sub.refl _)) 7 (fun _ => [0, 1])
    (fun u q d => dieCells gdDie (· % 8) (gdMask q) (fun d g => [gdClearCell u q d g]) d)
    (fun u q n => by simp only [dieCells_single]; rfl) (fun _ => by decide)
    (fun u q d a v w => dieCells_unique (K := 0x381C040 + 0x2000 * d)
      (fun m => by simp [gdClearCell, R.GDR_TGT]; omega) (fun m => by simp)) ?_
  intro u q t hregs hshadow hq hc n hn hb
  have hmem : n ∈ gdMask q := mem_maskBits hn (by rw [hq.u16]; exact hb)
  have hcell := hc _ (gdDie_lt hn) _ (mem_dieCells hmem (List.mem_singleton.mpr rfl))
  rwa [gdClearCell, hq.u8, State.cfgFld_same hregs hshadow hq.lane] at hcell

theorem feedConfig_stages (s : State) (r : Req) (h : Ready specFeedConfig s r) :
    Completes (exec (.feedConfig r) s) (fun t => s.Stages t ∧
      t.Carries 2 (r.u8 0) s.led.nextLsn
        (R.SUPC_FEED_CFG (r.u8 0), BitVec.ofNat 32 (r.u8 1 + 0x10 * r.u16 2 + 0x10000 * r.u8 4))) := by
  refine h.stagesShared rfl (fun _ _ => rfl) (fun _ => specFeedConfig_kept (Sub.refl _)) 2 (fun q => q.u8 0)
    (fun _ q => [(R.SUPC_FEED_CFG (q.u8 0), BitVec.ofNat 32 (q.u8 1 + 0x10 * q.u16 2 + 0x10000 * q.u8 4))])
    (fun _ _ _ => rfl) (fun u q => by simp) ?_
  intro u q t _ _ hq hc
  simp only [hq.u8, hq.u16] at hc
  exact hc _ (by simp)

end Sys2Proof.Machine

namespace Sys2Proof.Machine

/-! ### The urgent commands of a safe state -/

/-- The urgent command that a safe-state command puts into a die's slot (R257). -/
def State.urgentOf (s : State) (d : Die) (outs act lsn : Nat) : Urgent :=
  { die := d, epoch := (s.reg (s.holderOr .E) R.FERRY_EPOCH).toNat, mask := outs, act := act,
    sealCyc := s.sealedCycle, lsn := lsn }

theorem sendUrgent_mem {s : State} {d : Die} {outs act lsn : Nat} (h : outs ≠ 0) :
    s.urgentOf d outs act lsn ∈ (s.sendUrgent d outs act lsn).urgents := by
  unfold State.sendUrgent
  rw [if_neg h]
  exact List.mem_append_right _ (List.mem_singleton.mpr rfl)

theorem sendUrgent_ferry (s : State) (d : Die) (outs act lsn : Nat) : (s.sendUrgent d outs act lsn).ferry = s.ferry := by
  unfold State.sendUrgent
  split <;> rfl

theorem urgentOf_congr {s t : State} (hr : s.RegsAside t) (hf : t.ferry = s.ferry) (d : Die) (outs act lsn : Nat) :
    t.urgentOf d outs act lsn = s.urgentOf d outs act lsn := by
  unfold State.urgentOf State.sealedCycle
  rw [hr.holderOr, hr _ R.FERRY_EPOCH ⟨by decide, by decide⟩, hr _ R.FERRY_CYCLE ⟨by decide, by decide⟩, hf]

/-- The urgent commands of both power dies. -/
def State.sendBoth (s : State) (f : Nat → Nat) (act lsn : Nat) : State :=
  s.forEach [0, 1] (fun s d => s.sendUrgent (powerDie d) (f d) act lsn)

theorem sendBoth_regs (s : State) (f : Nat → Nat) (act lsn : Nat) : (s.sendBoth f act lsn).regs = s.regs :=
  (sendUrgent_regs _ _ _ _ _).trans (sendUrgent_regs _ _ _ _ _)

theorem sendBoth_commits (s : State) (f : Nat → Nat) (act lsn : Nat) : (s.sendBoth f act lsn).commits = s.commits :=
  (sendUrgent_commits _ _ _ _ _).trans (sendUrgent_commits _ _ _ _ _)

theorem sendBoth_keeps {s : State} {f : Nat → Nat} {act lsn : Nat} {x : Urgent} (h : x ∈ s.urgents) :
    x ∈ (s.sendBoth f act lsn).urgents := sendUrgent_keeps (sendUrgent_keeps h)

theorem sendBoth_mem {s : State} {f : Nat → Nat} {act lsn d : Nat} (hd : d ∈ [0, 1]) (h : f d ≠ 0) :
    s.urgentOf (powerDie d) (f d) act lsn ∈ (s.sendBoth f act lsn).urgents := by
  rcases List.mem_pair.mp hd with rfl | rfl
  · exact sendUrgent_keeps (sendUrgent_mem h)
  · rw [← urgentOf_congr (.of_regs (sendUrgent_regs s (powerDie 0) (f 0) act lsn)) (sendUrgent_ferry _ _ _ _ _)]
    exact sendUrgent_mem h

/-- A ready safe-state command: copies for both dies, and urgent commands beside those that stood. -/
theorem Ready.stagesUrgent {c : CmdSpec} {s : State} {r : Req} {P : State → Prop} (h : Ready c s r)
    (ha : c.accepted = true) (hb : ∀ t q, c.before t q = t) (hk : ∀ u : State, CmdSpec.Kept ⟨0x1000608, u⟩ c) (b : Nat)
    (W : State → Req → Nat → List RegCell) (M : Req → Nat → Nat) (A : Req → Nat)
    (he : ∀ u q n, c.exec u q n = (u.commitDies b [0, 1] (W u q) n).sendBoth (M q) (A q) n)
    (hu : ∀ u q d a v w, (a, v) ∈ W u q d → (a, w) ∈ W u q d → w = v)
    (hP : ∀ u q t, s.RegsAside u → s.ShadowsSame u → Req.Same q r →
      (∀ d ∈ [0, 1], ∀ x ∈ W u q d, t.Carries b d s.led.nextLsn x) →
      (∀ d ∈ [0, 1], M q d ≠ 0 → s.urgentOf (powerDie d) (M q d) (A q) s.led.nextLsn ∈ t.urgents) → P t) :
    Completes (runScs c r s) (fun t => s.RegsAside t ∧ s.Staged { t with urgents := s.urgents } ∧
      (∀ x ∈ s.urgents, x ∈ t.urgents) ∧ P t) := by
  refine h.framed ha hb (M := 0x16007d8) hk (Sub.of (Sub.refl _) (by decide)) (Sub.of (Sub.refl _) (by decide))
    (Sub.all (by decide)) ?_
  intro u q t hi hserved hregs hshadow hq _ hserved' haside hmix
  rw [he] at hserved' haside
  have hdies : State.Kept ⟨0x608, u⟩ (u.commitDies b [0, 1] (W u q) s.led.nextLsn) :=
    State.commitDies_kept (Sub.refl _) (.refl hi)
  have hurgents : (u.commitDies b [0, 1] (W u q) s.led.nextLsn).urgents = s.urgents :=
    (hdies.fields.urgents.resolve_right (by decide)).trans hserved.urgents
  have hferry : (u.commitDies b [0, 1] (W u q) s.led.nextLsn).ferry = s.ferry :=
    (hdies.fields.ferry.resolve_right (by decide)).trans hserved.ferry
  have hregs' : s.RegsAside (u.commitDies b [0, 1] (W u q) s.led.nextLsn) := hregs.trans commitDies_aside
  refine ⟨(hregs'.trans (.of_regs (sendBoth_regs _ _ _ _))).trans haside, ?_, fun x hx => ?_,
    hP u q t hregs hshadow hq (fun d hd x hx => ?_) fun d hd hm => ?_⟩
  · exact congrArg (fun x : State => { x with urgents := s.urgents }) hmix
  · rw [hserved'.urgents]
    exact sendBoth_keeps (hurgents ▸ hx)
  · refine State.Carries.of_commits ?_ (hserved'.commits.trans (sendBoth_commits _ _ _ _))
    exact State.commitDies_carries hd (by decide) hx fun w hw => hu u q d _ _ _ hx hw
  · rw [hserved'.urgents, ← urgentOf_congr hregs' hferry]
    exact sendBoth_mem hd hm

theorem testBit_bitsOf_onDie {die ix : Nat → Nat} {ns : List Nat} {n : Nat} (hn : n ∈ ns) :
    (bitsOf ((onDie die ns (die n)).map ix)).testBit (ix n) = true := by
  rw [testBit_bitsOf, decide_eq_true (List.mem_map.mpr ⟨n, mem_onDie hn, rfl⟩)]

theorem bitsOf_onDie_ne {die ix : Nat → Nat} {ns : List Nat} {n : Nat} (hn : n ∈ ns) :
    bitsOf ((onDie die ns (die n)).map ix) ≠ 0 := bitsOf_ne (List.mem_map.mpr ⟨n, mem_onDie hn, rfl⟩)

theorem safeRecord_row (u : State) (q : Req) (act d m : Nat) :
    ∀ x ∈ safeRecord u q d m act, x.1 / 64 = (0x3818040 + 0x2000 * d) + m := by
  unfold safeRecord State.cfgSet
  dsimp only
  split <;> simp [R.PCH_TGT, R.PCH_DUTY] <;> omega

theorem safeRecord_nodup (u : State) (q : Req) (act d m : Nat) : ((safeRecord u q d m act).map Prod.fst).Nodup := by
  unfold safeRecord State.cfgSet
  dsimp only
  split <;> simp [R.PCH_TGT, R.PCH_DUTY]

theorem pcSafeState_stages (s : State) (r : Req) (h : Ready specPcSafeState s r) :
    Completes (exec (.pcSafeState r) s) (fun t =>
    s.RegsAside t ∧ s.Staged { t with urgents := s.urgents } ∧ (∀ u ∈ s.urgents, u ∈ t.urgents) ∧
    ∀ n < 48, (r.u 0 6).testBit n = true →
      (∃ u ∈ t.urgents, u.die = powerDie (pcDie n) ∧ u.mask.testBit (pcIx n) = true ∧ u.act = r.u8 6 ∧
        u.lsn = s.led.nextLsn ∧ u.epoch = (s.reg (s.holderOr .E) R.FERRY_EPOCH).toNat ∧ u.sealCyc = s.sealedCycle) ∧
      (let a := R.PCH_TGT (pcDie n) (pcIx n)
       let fa := getF (s.shadow (s.holderOr r.lane) (R.PCH_CFG (pcDie n) (pcIx n))) F.PCH_CFG_FAIL_ACT
       let duty := R.PCH_DUTY (pcDie n) (pcIx n)
       (r.u8 6 = 1 ∨ fa = 0 → t.Carries 6 (pcDie n) s.led.nextLsn (a, 0)) ∧
       (r.u8 6 = 2 ∧ fa = 1 → t.Carries 6 (pcDie n) s.led.nextLsn (a, 1)) ∧
       (r.u8 6 = 2 ∧ fa = 2 → t.Carries 6 (pcDie n) s.led.nextLsn
         (a, BitVec.ofNat 32 (getF (s.shadow (s.holderOr r.lane) a) F.PCH_TGT_TARGET))) ∧
       (r.u8 6 = 2 ∧ fa = 3 → t.Carries 6 (pcDie n) s.led.nextLsn (a, 2) ∧
         t.Carries 6 (pcDie n) s.led.nextLsn (s.cfgWith r duty F.PCH_DUTY_DUTY
           (getF (s.shadow (s.holderOr r.lane) duty) F.PCH_DUTY_FALLBACK))))) := by
  refine h.stagesUrgent rfl (fun _ _ => rfl) (fun _ => specPcSafeState_kept (Sub.refl _)) 6
    (fun u q d => dieCells pcDie pcIx (pcMask q) (fun d m => safeRecord u q d m (q.u8 6)) d)
    (fun q d => bitsOf ((onDie pcDie (pcMask q) d).map pcIx)) (fun q => q.u8 6) (fun _ _ _ => rfl)
    (fun u q d a v w => dieCells_unique (safeRecord_row u q _ d) (safeRecord_nodup u q _ d)) ?_
  intro u q t hregs hshadow hq hc hurg n hn hb
  have hmem : n ∈ pcMask q := mem_maskBits hn (by rw [hq.u]; exact hb)
  have hcell : ∀ x ∈ safeRecord u q (pcDie n) (pcIx n) (q.u8 6), t.Carries 6 (pcDie n) s.led.nextLsn x :=
    fun x hx => hc _ (pcDie_lt n) x (mem_dieCells hmem hx)
  simp only [safeRecord, hq.u8, State.cfgFld_same hregs hshadow hq.lane, State.cfgSet_same hregs hshadow hq.lane] at hcell
  refine ⟨⟨_, hurg _ (pcDie_lt n) (bitsOf_onDie_ne hmem), rfl, testBit_bitsOf_onDie hmem, hq.u8 6, rfl, rfl, rfl⟩, ?_⟩
  intro a fa duty
  refine ⟨fun h1 => ?_, fun ⟨h2, hf⟩ => ?_, fun ⟨h2, hf⟩ => ?_, fun ⟨h2, hf⟩ => ?_⟩
  · rw [show (if r.u8 6 = 1 then 0 else fa) = 0 from by rcases h1 with h1 | h1 <;> simp [h1]] at hcell
    exact hcell _ (by simp [a])
  all_goals rw [h2, if_neg (by decide), show getF _ _ = _ from hf] at hcell
  · exact hcell _ (by simp [a])
  · exact hcell _ (by simp [a])
  · exact ⟨hcell _ (by simp [a]), hcell _ (by simp [duty])⟩

theorem gdSafeState_stages (s : State) (r : Req) (h : Ready specGdSafeState s r) :
    Completes (exec (.gdSafeState r) s) (fun t =>
    s.RegsAside t ∧ s.Staged { t with urgents := s.urgents } ∧ (∀ u ∈ s.urgents, u ∈ t.urgents) ∧
    ∀ n < 16, (r.u16 0).testBit n = true →
      (∃ u ∈ t.urgents, u.die = powerDie (n / 8) ∧ u.mask.testBit (24 + n % 8) = true ∧ u.act = r.u8 2 ∧
        u.lsn = s.led.nextLsn ∧ u.epoch = (s.reg (s.holderOr .E) R.FERRY_EPOCH).toNat ∧ u.sealCyc = s.sealedCycle) ∧
      (let a := R.GDR_TGT (n / 8) (n % 8)
       let fa := getF (s.shadow (s.holderOr r.lane) (R.GDR_CFG (n / 8) (n % 8))) F.GDR_CFG_FAIL_ACT
       (r.u8 2 = 1 ∨ fa = 0 → t.Carries 7 (n / 8) s.led.nextLsn (a, 0)) ∧
       (r.u8 2 = 2 ∧ fa = 1 → t.Carries 7 (n / 8) s.led.nextLsn (a, 1)) ∧
       (r.u8 2 = 2 ∧ fa = 2 → t.Carries 7 (n / 8) s.led.nextLsn
         (a, BitVec.ofNat 32 (getF (s.shadow (s.holderOr r.lane) a) F.GDR_TGT_TARGET))))) := by
  refine h.stagesUrgent rfl (fun _ _ => rfl) (fun _ => specGdSafeState_kept (Sub.refl _)) 7
    (fun u q d => dieCells gdDie (· % 8) (gdMask q) (fun d g => [gdSafeRecord u q d g (q.u8 2)]) d)
    (fun q d => bitsOf ((onDie gdDie (gdMask q) d).map gdIx)) (fun q => q.u8 2)
    (fun u q n => by simp only [dieCells_single]; rfl)
    (fun u q d a v w => dieCells_unique (K := 0x381C040 + 0x2000 * d)
      (fun m => by simp [gdSafeRecord, R.GDR_TGT]; omega) (fun m => by simp)) ?_
  intro u q t hregs hshadow hq hc hurg n hn hb
  have hmem : n ∈ gdMask q := mem_maskBits hn (by rw [hq.u16]; exact hb)
  have hcell := hc _ (gdDie_lt hn) _ (mem_dieCells hmem (List.mem_singleton.mpr rfl))
  simp only [gdSafeRecord, gdDie, hq.u8, State.cfgFld_same hregs hshadow hq.lane] at hcell
  refine ⟨⟨_, hurg _ (gdDie_lt hn) (bitsOf_onDie_ne hmem), rfl, testBit_bitsOf_onDie (ix := gdIx) hmem, hq.u8 2, rfl, rfl,
    rfl⟩, ?_⟩
  intro a fa
  refine ⟨fun h1 => ?_, fun ⟨h2, hf⟩ => ?_, fun ⟨h2, hf⟩ => ?_⟩
  · rw [show (if r.u8 2 = 1 then 0 else fa) = 0 from by rcases h1 with h1 | h1 <;> simp [h1]] at hcell
    exact hcell
  all_goals
    rw [h2, show (if (2 : Nat) = 1 then 0 else fa) = _ from hf] at hcell
    exact hcell

/-! ### The answers of the status queries -/

/-- A ready query tells what its specification answers, and nothing but the command interface changes. -/
theorem Ready.told {c : CmdSpec} {s : State} {r : Req} {P : List Byte → Prop} (h : Ready c s r) (ha : c.accepted = false)
    (he : ∀ t q, c.effect t q = t) (hd : P (c.answer (taken s r).1 (taken s r).2)) :
    Completes (runScs c r s) (fun t => s.Told r t P) := by
  obtain ⟨t, ht, hans, haside⟩ := runScs_answered h.1 h.2.1 ha he h.2.2.1
  refine ⟨t, ht, haside, .of_kept ?_, _, hans, hd⟩
  have htaken : State.Kept ⟨0x6001d8, s⟩ (taken s r).1 := (taken_only h.1).weaken (m := 8) (Sub.of (Sub.refl _) (by decide))
  rw [runScs, runCmd_query h.2.2.1 ha, he] at ht
  cases ht
  exact State.respond_kept (φ := ⟨0x6001d8, s⟩) (Sub.of (Sub.refl 0x6001d8) (by decide)) htaken

theorem wordBytes_length (w : Word) : (wordBytes w).length = 4 := leBytes_length 4 _

theorem fieldAt_append_right (a b : List Byte) (o n : Nat) : fieldAt (a ++ b) (a.length + o) n = fieldAt b o n := by
  unfold fieldAt slice
  rw [List.drop_append, List.drop_of_length_le (by omega), List.nil_append, Nat.add_sub_cancel_left]

theorem wordAt_append_right {a b : List Byte} {k o : Nat} (h : a.length = k) : wordAt (a ++ b) (k + o) = wordAt b o := by
  rw [← h, wordAt, fieldAt_append_right, wordAt]

theorem wordAt_append_left {a b : List Byte} {o : Nat} (h : o + 4 ≤ a.length) : wordAt (a ++ b) o = wordAt a o := by
  rw [wordAt, fieldAt_append_left _ _ _ _ h, wordAt]

theorem wordAt_wordBytes (w : Word) : wordAt (wordBytes w) 0 = w := by
  unfold wordAt fieldAt slice
  rw [List.drop_zero, List.take_of_length_le (wordBytes_length w).le, wordBytes, leNat_leBytes,
    Nat.mod_eq_of_lt (show w.toNat < 256 ^ 4 from w.isLt), BitVec.ofNat_toNat, BitVec.setWidth_eq]

/-- Rows of `k` bytes. -/
theorem length_rows {k : Nat} {f : Nat → List Byte} (hf : ∀ i, (f i).length = k) (n : Nat) :
    ((List.range n).map f).flatten.length = k * n := by
  induction n with
  | zero => rfl
  | succ n ih =>
    rw [List.range_succ, List.map_append, List.flatten_append, List.length_append, ih, Nat.mul_succ]
    simp [hf]

theorem wordAt_rows {k : Nat} {f : Nat → List Byte} (hf : ∀ i, (f i).length = k) {n i o : Nat} (hi : i < n)
    (ho : o + 4 ≤ k) : wordAt ((List.range n).map f).flatten (k * i + o) = wordAt (f i) o := by
  induction n with
  | zero => omega
  | succ n ih =>
    rw [List.range_succ, List.map_append, List.flatten_append]
    have hlen := length_rows hf n
    rcases Nat.lt_succ_iff_lt_or_eq.mp hi with hlt | rfl
    · have : k * i + k ≤ k * n := by rw [← Nat.mul_succ]; exact Nat.mul_le_mul_left _ hlt
      rw [wordAt_append_left (by omega), ih hlt]
    · rw [wordAt_append_right hlen]
      simp

theorem regBytes_length (s : State) (l : Lane) (a n : Nat) : (s.regBytes l a n).length = 4 * n := by
  rw [State.regBytes_words, length_rows fun _ => wordBytes_length _]

theorem wordAt_regBytes (s : State) (l : Lane) (a : Nat) {n k : Nat} (hk : k < n) :
    wordAt (s.regBytes l a n) (4 * k) = s.reg l (a + 4 * k) := by
  rw [State.regBytes_words, ← Nat.add_zero (4 * k), wordAt_rows (fun _ => wordBytes_length _) hk (Nat.le_refl _),
    wordAt_wordBytes, Nat.add_zero]

/-- A register word in front of other bytes. -/
theorem wordAt_cons (w : Word) (bs : List Byte) : wordAt (wordBytes w ++ bs) 0 = w := by
  rw [wordAt_append_left (by rw [wordBytes_length]), wordAt_wordBytes]

theorem wordAt_cons_add (w : Word) (bs : List Byte) (o : Nat) : wordAt (wordBytes w ++ bs) (4 + o) = wordAt bs o :=
  wordAt_append_right (wordBytes_length w)

/-- The lane that serves is the same before and after the command interface has taken the command. -/
theorem taken_server (s : State) (r : Req) :
    ((taken s r).1.servedBy (taken s r).2.lane).getD (taken s r).2.lane = s.server r := by
  rw [taken_servedBy, taken_lane, State.server]

theorem pcDie_le (n : Nat) : pcDie n ≤ 1 := by
  unfold pcDie
  repeat' split
  all_goals omega

theorem pcIx_le (n : Nat) : pcIx n ≤ n := by
  unfold pcIx
  repeat' split
  all_goals omega

theorem pcStatus_told (s : State) (r : Req) (h : Ready specPcStatus s r) :
    Completes (exec (.pcStatus r) s) (fun t => s.Told r t (fun d =>
      d.length = 16 * r.u8 1 ∧ ∀ i < r.u8 1, ∀ k < 4, wordAt d (16 * i + 4 * k) =
        s.reg (s.server r) (R.PCH_MIR (pcDie (r.u8 0 + i)) (pcIx (r.u8 0 + i)) k))) := by
  refine h.told rfl (fun _ _ => rfl) ?_
  dsimp only [specPcStatus, pcRange]
  rw [taken_server, taken_u8, taken_u8, List.map_map]
  have hrow : ∀ i, ((taken s r).1.regBytes (s.server r) (R.PCH_MIR (pcDie (i + r.u8 0)) (pcIx (i + r.u8 0)) 0) 4).length = 16 :=
    fun _ => regBytes_length _ _ _ _
  refine ⟨length_rows hrow _, fun i hi k hk => ?_⟩
  refine (wordAt_rows hrow hi (by omega)).trans ?_
  rw [wordAt_regBytes _ _ _ hk, Nat.add_comm i]
  have h0 := Req.u8_lt r 0
  have h1 := Req.u8_lt r 1
  have hd := pcDie_le (r.u8 0 + i)
  have hx := pcIx_le (r.u8 0 + i)
  exact taken_reg ⟨by simp only [R.PCH_MIR]; omega, .inr (by simp only [R.PCH_MIR]; omega)⟩

theorem pcDieStatus_told (s : State) (r : Req) (h : Ready specPcDieStatus s r) :
    Completes (exec (.pcDieStatus r) s) (fun t => s.Told r t (fun d =>
      d.length = 12 ∧ wordAt d 0 = s.shReg (R.PCH_DIE_STATUS (r.u8 0 - 1)) ∧
      wordAt d 4 = s.shReg (R.PCH_DIE_POWER (r.u8 0 - 1)) ∧ wordAt d 8 = s.shReg (R.PCH_SAFE (r.u8 0 - 1)))) := by
  have h0 := Req.u8_lt r 0
  have haside : ∀ o < 0x20, (taken s r).1.shReg (0xE0600000 + o + 0x80000 * (r.u8 0 - 1)) =
      s.shReg (0xE0600000 + o + 0x80000 * (r.u8 0 - 1)) := fun o ho => taken_reg ⟨by omega, by omega⟩
  refine h.told rfl (fun _ _ => rfl) ?_
  dsimp only [specPcDieStatus]
  rw [taken_u8, List.append_assoc]
  refine ⟨rfl, ?_, ?_, ?_⟩
  · rw [wordAt_cons]
    exact haside 0x8 (by decide)
  · rw [wordAt_cons_add _ _ 0, wordAt_cons]
    exact haside 0xC (by decide)
  · rw [wordAt_cons_add _ _ 4, wordAt_cons_add _ _ 0, wordAt_wordBytes]
    exact haside 0x10 (by decide)

theorem gdStatus_told (s : State) (r : Req) (h : Ready specGdStatus s r) :
    Completes (exec (.gdStatus r) s) (fun t => s.Told r t (fun d =>
      d.length = 16 * r.u8 1 ∧ ∀ i < r.u8 1,
        let n := r.u8 0 + i
        (∀ k < 3, wordAt d (16 * i + 4 * k) = s.reg (s.server r) (R.GDR_MIR (n / 8) (n % 8) k)) ∧
        wordAt d (16 * i + 12) = s.reg (s.server r) (R.GDR_MIR (n / 8) (n % 8) 4))) := by
  refine h.told rfl (fun _ _ => rfl) ?_
  dsimp only [specGdStatus, gdRange]
  rw [taken_server, taken_u8, taken_u8, List.map_map]
  have h0 := Req.u8_lt r 0
  have h1 := Req.u8_lt r 1
  have hlen : ∀ a, ((taken s r).1.regBytes (s.server r) a 3).length = 12 := fun _ => regBytes_length _ _ _ _
  have hrow : ∀ i, ((taken s r).1.regBytes (s.server r) (R.GDR_MIR (gdDie (i + r.u8 0)) ((i + r.u8 0) % 8) 0) 3 ++
      wordBytes ((taken s r).1.reg (s.server r) (R.GDR_MIR (gdDie (i + r.u8 0)) ((i + r.u8 0) % 8) 4))).length = 16 :=
    fun i => by rw [List.length_append, hlen, wordBytes_length]
  have haside : ∀ i < r.u8 1, ∀ k < 5, (taken s r).1.reg (s.server r) (R.GDR_MIR ((r.u8 0 + i) / 8) ((r.u8 0 + i) % 8) k) =
      s.reg (s.server r) (R.GDR_MIR ((r.u8 0 + i) / 8) ((r.u8 0 + i) % 8) k) := fun i hi k hk =>
    taken_reg ⟨by simp only [R.GDR_MIR]; omega, .inr (by simp only [R.GDR_MIR]; omega)⟩
  refine ⟨length_rows hrow _, fun i hi => ⟨fun k hk => ?_, ?_⟩⟩
  · refine (wordAt_rows hrow hi (by omega)).trans ?_
    rw [wordAt_append_left (by rw [hlen]; omega), wordAt_regBytes _ _ _ hk, Nat.add_comm i]
    exact haside i hi k (by omega)
  · refine (wordAt_rows hrow hi (by omega)).trans ?_
    rw [wordAt_append_right (o := 0) (hlen _), wordAt_wordBytes, Nat.add_comm i]
    exact haside i hi 4 (by decide)

theorem feedStatus_told (s : State) (r : Req) (h : Ready specFeedStatus s r) :
    Completes (exec (.feedStatus r) s) (fun t => s.Told r t (fun d =>
      d.length = 56 ∧ wordAt d 0 = s.reg (s.server r) R.SUPC_STATUS ∧ wordAt d 4 = s.reg (s.server r) R.SUPC_VKEEP ∧
      ∀ f, 1 ≤ f → f ≤ 6 → wordAt d (8 * f) = s.reg (s.server r) (R.SUPC_FEED_STAT f) ∧
        wordAt d (8 * f + 4) = s.reg (s.server r) (R.SUPC_FEED_MIN f))) := by
  refine h.told rfl (fun _ _ => rfl) ?_
  dsimp only [specFeedStatus]
  rw [taken_server, List.append_assoc, List.map_map]
  have hrow : ∀ i, (wordBytes ((taken s r).1.reg (s.server r) (R.SUPC_FEED_STAT (i + 1))) ++
      wordBytes ((taken s r).1.reg (s.server r) (R.SUPC_FEED_MIN (i + 1)))).length = 8 := fun _ => rfl
  refine ⟨rfl, ?_, ?_, fun f h1 h6 => ?_⟩
  · rw [wordAt_cons]
    exact taken_reg ⟨by decide, by decide⟩
  · rw [wordAt_cons_add _ _ 0, wordAt_cons]
    exact taken_reg ⟨by decide, by decide⟩
  · obtain ⟨i, rfl⟩ : ∃ i, f = i + 1 := ⟨f - 1, by omega⟩
    rw [show 8 * (i + 1) = 4 + (4 + (8 * i + 0)) by omega, show 4 + (4 + (8 * i + 0)) + 4 = 4 + (4 + (8 * i + 4)) by omega,
      wordAt_cons_add, wordAt_cons_add, wordAt_cons_add, wordAt_cons_add]
    refine ⟨(wordAt_rows hrow (by omega) (by omega)).trans ?_, (wordAt_rows hrow (by omega) (by omega)).trans ?_⟩
    · rw [wordAt_cons]
      exact taken_reg ⟨by simp only [R.SUPC_FEED_STAT]; omega, .inl (by simp only [R.SUPC_FEED_STAT]; omega)⟩
    · rw [← Nat.add_zero 4, wordAt_cons_add, wordAt_wordBytes]
      exact taken_reg ⟨by simp only [R.SUPC_FEED_MIN]; omega, .inl (by simp only [R.SUPC_FEED_MIN]; omega)⟩

end Sys2Proof.Machine

open Sys2Proof Sys2Proof.Machine in
/-- Settles O8, command by command: each configuring command's cells reach the copies of its dies, a safe state's urgent
commands stand beside those before it, and each query tells the registers it names. -/
theorem powerCommands : Obligations.PowerCommands :=
  ⟨pcSet_stages, pcConfig_stages, pcProfile_stages, pcDieConfig_stages, pcClear_stages,
    ⟨gdSet_stages, gdConfig_stages, gdClear_stages, feedConfig_stages,
      ⟨pcSafeState_stages, gdSafeState_stages, ⟨pcStatus_told, pcDieStatus_told, gdStatus_told, feedStatus_told⟩⟩⟩⟩

namespace Sys2Proof.Machine

/-! ### The dies of a state -/

@[simp] theorem State.die_setDie (s : State) (d : Die) (x : DieRt) : (s.setDie d x).die d = x := by cases d <;> rfl

theorem State.die_setDie_ne {s : State} {d e : Die} {x : DieRt} (h : e ≠ d) : (s.setDie d x).die e = s.die e := by
  cases d <;> cases e <;> first | rfl | exact absurd rfl h

@[simp] theorem State.setDie_setDie (s : State) (d : Die) (x y : DieRt) : (s.setDie d x).setDie d y = s.setDie d y := by
  cases d <;> rfl

@[simp] theorem State.setDie_die (s : State) (d : Die) : s.setDie d (s.die d) = s := by cases d <;> rfl

@[simp] theorem State.setDie_regs (s : State) (d : Die) (x : DieRt) : (s.setDie d x).regs = s.regs := by cases d <;> rfl

@[simp] theorem State.setDie_lst (s : State) (d : Die) (x : DieRt) (l : Lane) : (s.setDie d x).lst l = s.lst l := by
  cases d <;> rfl

theorem State.setDie_withRegs (s : State) (d : Die) (x : DieRt) (rs : List RegCell) :
    { s.setDie d x with regs := rs } = { s with regs := rs }.setDie d x := by cases d <;> rfl

/-- The fields of the dies are none of those numbered. -/
def NoDies (m : Nat) : Prop := ∀ i < 17, 11 ≤ i → m.testBit i = false

theorem State.Kept.die {m : Nat} {s t : State} (k : State.Kept ⟨m, s⟩ t) (hm : NoDies m) (d : Die) : t.die d = s.die d := by
  have h : State.Only m s t := k.only
  cases d with
  | P0 => exact h.p0.resolve_right (by rw [hm 11 (by decide) (by decide)]; decide)
  | P1 => exact h.p1.resolve_right (by rw [hm 12 (by decide) (by decide)]; decide)
  | F0 => exact h.f0.resolve_right (by rw [hm 13 (by decide) (by decide)]; decide)
  | F1 => exact h.f1.resolve_right (by rw [hm 14 (by decide) (by decide)]; decide)
  | FI => exact h.fi.resolve_right (by rw [hm 15 (by decide) (by decide)]; decide)
  | CMN => exact h.cmn.resolve_right (by rw [hm 16 (by decide) (by decide)]; decide)

theorem State.Inv.setDie {s : State} (h : s.Inv) (d : Die) (x : DieRt) : (s.setDie d x).Inv :=
  (State.setDie_kept (φ := ⟨2 ^ 80 - 1, s⟩) (Sub.all (by decide)) (.refl h)).inv

theorem State.frameContent_die {s : State} (h : s.Inv) (d : Die) (l : Lane) (cycle : Nat) (holder : Bool) (e : Die) :
    (s.frameContent d l cycle holder).die e = s.die e :=
  State.Kept.die (State.frameContent_kept (Sub.refl _) (.refl h)) (by unfold NoDies; decide) e

/-! ### A register of each lane that is not in RESET -/

/-- One register of a lane changes as `g` says, unless the lane is in RESET. -/
def State.inLane (s : State) (a : Nat) (g : Word → Word) (l : Lane) : State :=
  if s.lst l = stRESET then s else s.setReg l a (g (s.reg l a))

/-- The same in both lanes. -/
def State.inLanes (s : State) (a : Nat) (g : Word → Word) : State := (s.inLane a g .E).inLane a g .W

theorem countFrames_eq (s : State) (k : Nat) :
    s.countFrames k = s.inLanes (R.FERRY_CNT k) (fun w => BitVec.ofNat 32 (satInc 32 w.toNat)) := rfl

theorem leaseConflict_eq (s : State) :
    s.leaseConflict = s.inLanes R.FERRY_STATUS (fun w => setF w F.FERRY_STATUS_LEASE_CONFLICT (b2n true)) := rfl

theorem State.setReg_lst {s : State} {a : Nat} {v : Word} {l k : Lane} (ha : a < 2 ^ 32) (hl : a ≠ R.FERRY_LANE) :
    (s.setReg l a v).lst k = s.lst k := by
  unfold State.lst State.fld
  rw [State.reg_setReg_ne (regKey_ne ha (by decide) hl)]

theorem State.setReg_setDie (s : State) (d : Die) (x : DieRt) (l : Lane) (a : Nat) (v : Word) :
    (s.setDie d x).setReg l a v = (s.setReg l a v).setDie d x := by cases d <;> rfl

theorem State.setDie_reg (s : State) (d : Die) (x : DieRt) (l : Lane) (a : Nat) : (s.setDie d x).reg l a = s.reg l a := by
  cases d <;> rfl

section
variable {s : State} {a : Nat} {g : Word → Word}

theorem inLane_lst (ha : a < 2 ^ 32) (hl : a ≠ R.FERRY_LANE) (l k : Lane) : (s.inLane a g l).lst k = s.lst k := by
  unfold State.inLane
  split
  · rfl
  · exact State.setReg_lst ha hl

theorem inLanes_lst (ha : a < 2 ^ 32) (hl : a ≠ R.FERRY_LANE) (k : Lane) : (s.inLanes a g).lst k = s.lst k :=
  (inLane_lst ha hl _ _).trans (inLane_lst ha hl _ _)

theorem inLane_setDie (d : Die) (x : DieRt) (l : Lane) : (s.setDie d x).inLane a g l = (s.inLane a g l).setDie d x := by
  unfold State.inLane
  rw [State.setDie_lst, State.setReg_setDie, State.setDie_reg]
  split <;> rfl

theorem inLanes_setDie (d : Die) (x : DieRt) : (s.setDie d x).inLanes a g = (s.inLanes a g).setDie d x := by
  unfold State.inLanes
  rw [inLane_setDie, inLane_setDie]

theorem inLane_alone (l : Lane) : s.RegsAlone (s.inLane a g l) := by
  unfold State.inLane
  split <;> rfl

theorem inLanes_alone : s.RegsAlone (s.inLanes a g) := by
  have h1 : s.RegsAlone (s.inLane a g .E) := inLane_alone _
  have h2 : (s.inLane a g .E).RegsAlone (s.inLanes a g) := inLane_alone _
  unfold State.RegsAlone at h1 h2 ⊢
  rw [h1] at h2
  exact h2

theorem inLanes_die (d : Die) : (s.inLanes a g).die d = s.die d := by
  rw [inLanes_alone (s := s) (a := a) (g := g)]
  cases d <;> rfl

theorem inLane_wf (h : rfWf s.regs = true) (l : Lane) : rfWf (s.inLane a g l).regs = true := by
  unfold State.inLane
  split
  · exact h
  · exact State.setReg_wf h

theorem inLanes_wf (h : rfWf s.regs = true) : rfWf (s.inLanes a g).regs = true := inLane_wf (inLane_wf h _) _

theorem inLane_regsBut (l : Lane) : s.RegsBut (bothKeys a) (s.inLane a g l) := by
  intro k hk
  unfold State.inLane
  split
  · rfl
  · refine rfGet_rfPut_ne _ _ _ _ fun e => hk ?_
    cases l <;> simp [bothKeys, ← e, Lane.ix]

theorem inLanes_regsBut : s.RegsBut (bothKeys a) (s.inLanes a g) := fun k hk =>
  (inLane_regsBut _ k hk).trans (inLane_regsBut _ k hk)

theorem inLane_reg_ne {b : Nat} (ha : a < 2 ^ 32) (hb : b < 2 ^ 32) (h : a ≠ b) (l k : Lane) :
    (s.inLane a g l).reg k b = s.reg k b := by
  unfold State.inLane
  split
  · rfl
  · exact State.reg_setReg_ne (regKey_ne ha hb h)

theorem inLanes_reg_ne {b : Nat} (ha : a < 2 ^ 32) (hb : b < 2 ^ 32) (h : a ≠ b) (k : Lane) :
    (s.inLanes a g).reg k b = s.reg k b := (inLane_reg_ne ha hb h _ _).trans (inLane_reg_ne ha hb h _ _)

theorem inLane_reg_self (h : rfWf s.regs = true) {l : Lane} (hne : s.lst l ≠ 0) :
    (s.inLane a g l).reg l a = g (s.reg l a) := by
  rw [State.inLane, if_neg (show ¬ s.lst l = stRESET from hne), State.reg_setReg_self h]

theorem inLane_reg_other (hown : regKey 0 a ≠ regKey 1 a) {l k : Lane} (hlk : l ≠ k) :
    (s.inLane a g l).reg k a = s.reg k a := by
  have hkey : regKey l.ix a ≠ regKey k.ix a := by
    cases l <;> cases k
    · exact absurd rfl hlk
    · exact hown
    · exact hown.symm
    · exact absurd rfl hlk
  unfold State.inLane
  split
  · rfl
  · exact State.reg_setReg_ne hkey

/-- A register of a lane's own, in a lane that is not in RESET. -/
theorem inLanes_reg (h : rfWf s.regs = true) (ha : a < 2 ^ 32) (hl : a ≠ R.FERRY_LANE) (hown : regKey 0 a ≠ regKey 1 a)
    {l : Lane} (hne : s.lst l ≠ 0) : (s.inLanes a g).reg l a = g (s.reg l a) := by
  unfold State.inLanes
  cases l with
  | E => rw [inLane_reg_other hown (by decide), inLane_reg_self h hne]
  | W =>
    rw [inLane_reg_self (inLane_wf h _) (by rwa [inLane_lst ha hl]), inLane_reg_other hown (by decide)]

end

/-! ### The counters of frame acceptance -/

theorem ferryCnt_lt {k : Nat} (hk : k < 8) : R.FERRY_CNT k < 2 ^ 32 ∧ R.FERRY_CNT k ≠ R.FERRY_LANE ∧
    regKey 0 (R.FERRY_CNT k) ≠ regKey 1 (R.FERRY_CNT k) := by
  revert k
  decide

theorem countFrames_counts {s : State} (h : rfWf s.regs = true) {k : Nat} (hk : k < 8) {l : Lane} (hl : s.lst l ≠ 0) :
    s.Counts (s.countFrames k) l (R.FERRY_CNT k) := by
  obtain ⟨h1, h2, h3⟩ := ferryCnt_lt hk
  have hlt := (s.reg l (R.FERRY_CNT k)).isLt
  rw [State.Counts, countFrames_eq, inLanes_reg h h1 h2 h3 hl, BitVec.toNat_ofNat]
  exact Nat.mod_eq_of_lt (by unfold satInc; omega)

/-- Counting in both lanes changes the counters alone. -/
theorem countFrames_counted {s : State} (h : rfWf s.regs = true) {k : Nat} (hk : k < 8) :
    s.FrameCounted (s.countFrames k) k := by
  refine ⟨?_, fun _ hl => countFrames_counts h hk hl⟩
  rw [countFrames_eq]
  exact ⟨inLanes_regsBut, inLanes_alone⟩

/-- What the die's own record becomes beside a count does not matter for it. -/
theorem countFrames_back (s : State) (d : Die) (x : DieRt) (k : Nat) :
    ((s.setDie d x).countFrames k).setDie d (s.die d) = s.countFrames k := by
  rw [countFrames_eq, countFrames_eq, inLanes_setDie, State.setDie_setDie, ← inLanes_die (s := s) d, State.setDie_die]

@[simp] theorem countFrames_die (s : State) (k : Nat) (d : Die) : (s.countFrames k).die d = s.die d := by
  rw [countFrames_eq, inLanes_die]

@[simp] theorem stale_die (s : State) (d : Die) : s.stale.die d = s.die d := countFrames_die s 2 d

@[simp] theorem leaseConflict_die (s : State) (d : Die) : s.leaseConflict.die d = s.die d := by
  rw [leaseConflict_eq, inLanes_die]

theorem State.Inv.countFrames {s : State} (h : s.Inv) (k : Nat) : (s.countFrames k).Inv :=
  (State.countFrames_kept (φ := ⟨2 ^ 80 - 1, s⟩) (Sub.all (by decide)) (.refl h)).inv

theorem State.Inv.leaseConflict {s : State} (h : s.Inv) : s.leaseConflict.Inv :=
  (State.leaseConflict_kept (φ := ⟨2 ^ 80 - 1, s⟩) (Sub.all (by decide)) (.refl h)).inv

/-- LEASE_CONFLICT stands in each lane that is not in RESET. -/
def State.Conflicts (s t : State) : Prop :=
  ∀ l, s.lst l ≠ 0 → t.bit l R.FERRY_STATUS F.FERRY_STATUS_LEASE_CONFLICT = true

theorem leaseConflict_conflicts {s : State} (h : rfWf s.regs = true) : s.Conflicts s.leaseConflict := by
  intro l hl
  have hr := inLanes_reg (g := fun w => setF w F.FERRY_STATUS_LEASE_CONFLICT (b2n true)) h (a := R.FERRY_STATUS)
    (by decide) (by decide) (by decide) hl
  unfold State.bit State.fld
  rw [leaseConflict_eq, hr, getF_setF _ _ _ (by unfold Fld.ok; decide)]
  rfl

theorem State.Conflicts.mono {p : Nat → Fld → Prop} {s t u : State} (h : s.Conflicts t) (hr : RegOnly p t u)
    (hp : ∀ f, p R.FERRY_STATUS f → Fld.apart f F.FERRY_STATUS_LEASE_CONFLICT) : s.Conflicts u := fun l hl =>
  (hr.bit l (by decide) (by unfold Fld.ok; decide) hp).trans (h l hl)

/-! ### A significant difference -/

/-- The fields that a report of the mode writes. -/
def modeFlds (a : Nat) (f : Fld) : Prop :=
  (a = R.FERRY_LANE ∧ f = F.FERRY_LANE_MODE) ∨ (a = R.FERRY_STATUS ∧ f = F.FERRY_STATUS_SINGLE_ENTERED)

/-- The fields that a change of a lane's state writes. -/
def lstFlds (a : Nat) (f : Fld) : Prop :=
  a = R.FERRY_LANE ∨ (a = R.FERRY_STATUS ∧ f = F.FERRY_STATUS_SINGLE_ENTERED)

theorem RegOnly.syncMode {s : State} (w : rfWf s.regs = true) (old : Nat) :
    RegOnly modeFlds s (s.syncMode old) := by
  unfold State.syncMode
  extract_lets m s1 s2
  have h1 : RegOnly modeFlds s s1 := RegOnly.setFldBoth w (by decide) (by unfold Fld.ok; decide) (.inl ⟨rfl, rfl⟩)
  have h2 : RegOnly modeFlds s s2 := h1.next fun w => by
    unfold s2
    split
    · exact RegOnly.setBitBoth w (by decide) (by unfold Fld.ok; decide) (.inr ⟨rfl, rfl⟩)
    · exact .refl w
  exact h2.next fun w => .of rfl w

theorem RegOnly.setLst {s : State} (w : rfWf s.regs = true) (l : Lane) (v : Nat) : RegOnly lstFlds s (s.setLst l v) := by
  unfold State.setLst
  extract_lets old s1 s2
  have h1 : RegOnly lstFlds s s1 := RegOnly.setFld w (by decide) (by unfold Fld.ok; decide) (.inl rfl)
  have h2 : RegOnly lstFlds s s2 := h1.next fun w => by
    unfold s2
    split
    · exact .refl w
    · exact RegOnly.setBitF w (by decide) (by unfold Fld.ok; decide) (.inl rfl)
  exact h2.next fun w => (RegOnly.syncMode w old).mono fun a f h => h.imp And.left id

theorem syncMode_lst {s : State} (w : rfWf s.regs = true) (old : Nat) (k : Lane) : (s.syncMode old).lst k = s.lst k :=
  (RegOnly.syncMode w old).fld k _ _ (by decide) (by unfold Fld.ok; decide) fun f hf => by
    rcases hf with ⟨-, rfl⟩ | ⟨h, -⟩
    · unfold Fld.apart; decide
    · exact absurd h (by decide)

/-- A lane's change of state leaves the other's. -/
theorem lst_setLst_ne {s : State} (w : rfWf s.regs = true) {l k : Lane} (hlk : l ≠ k) (v : Nat) :
    (s.setLst l v).lst k = s.lst k := by
  have hkey : regKey l.ix R.FERRY_LANE ≠ regKey k.ix R.FERRY_LANE := by
    cases l <;> cases k <;> first | exact absurd rfl hlk | decide
  have hset : ∀ (t : State) (f : Fld) (n : Nat), (t.setFld l R.FERRY_LANE f n).lst k = t.lst k := fun t f n => by
    unfold State.lst State.fld
    rw [State.reg_setFld_ne hkey]
  unfold State.setLst
  extract_lets old s1 s2
  have h2 : s2.lst k = s.lst k ∧ rfWf s2.regs = true := by
    unfold s2
    split
    · exact ⟨hset _ _ _, State.setFld_wf w⟩
    · exact ⟨(hset _ _ _).trans (hset _ _ _), State.setFld_wf (State.setFld_wf w)⟩
  rw [syncMode_lst h2.2, h2.1]

/-- The part of a significant difference that both lanes show (R151): DISCREPANCY, the count and the log. -/
def State.logDiff (s : State) (d : Die) (cyc record byte : Nat) : State :=
  (((s.setBitBoth R.FERRY_STATUS F.FERRY_STATUS_DISCREPANCY true).countBoth (R.FERRY_CNT 1)).setRegBoth R.FERRY_DISC_LOG0
    (BitVec.ofNat 32 cyc)).setRegBoth R.FERRY_DISC_LOG1
      (setF (setF (setF 0 F.FERRY_DISC_LOG1_DIE d.ix) F.FERRY_DISC_LOG1_RECORD record) F.FERRY_DISC_LOG1_BYTE byte)

/-- A standby lane that differs is no longer in step. -/
def State.unsync (s : State) (l : Lane) : State := if s.lst l = stSTANDBY then s.setLst l stUNSYNC else s

/-- The cycle of a lane's difference is kept. -/
def State.noteCycle (s : State) (l : Lane) (cyc : Nat) : State :=
  let xs := recentCycles cyc (if l = .E then s.ferry.discE else s.ferry.discW)
  if l = .E then { s with ferry := { s.ferry with discE := xs } } else { s with ferry := { s.ferry with discW := xs } }

/-- Past the limit a lane is disqualified. -/
def State.limit (s : State) (l : Lane) (n : Nat) : State :=
  if s.fld l R.FERRY_CFG F.FERRY_CFG_DISC_LIMIT_M1 + 1 < n then
    (s.setBitF l R.FERRY_STATUS F.FERRY_STATUS_DISQ_BY_LIMIT true).toDisq l none
  else s

theorem significant_eq (s : State) (l : Lane) (d : Die) (cyc record byte : Nat) :
    s.significant l d cyc record byte = if (s.logDiff d cyc record byte).mixed then s.logDiff d cyc record byte
      else
        let t := ((s.logDiff d cyc record byte).unsync .E).unsync .W
        (t.noteCycle l cyc).limit l (recentCycles cyc (if l = .E then t.ferry.discE else t.ferry.discW)).length := rfl

/-- The fields that the log of a difference writes. -/
def logFlds (a : Nat) (f : Fld) : Prop :=
  (a = R.FERRY_STATUS ∧ f = F.FERRY_STATUS_DISCREPANCY) ∨ a = R.FERRY_CNT 1 ∨ a = R.FERRY_DISC_LOG0 ∨ a = R.FERRY_DISC_LOG1

/-- The fields that the states of the lanes and the limit write. -/
def tailFlds (a : Nat) (f : Fld) : Prop := lstFlds a f ∨ (a = R.FERRY_STATUS ∧ f = F.FERRY_STATUS_DISQ_BY_LIMIT)

theorem RegOnly.logDiff {s : State} (w : rfWf s.regs = true) (d : Die) (cyc record byte : Nat) :
    RegOnly logFlds s (s.logDiff d cyc record byte) :=
  (((RegOnly.setBitBoth w (by decide) (by unfold Fld.ok; decide) (.inl ⟨rfl, rfl⟩)).next fun w =>
    RegOnly.countBoth w (by decide) (.inr (.inl rfl))).next fun w =>
    RegOnly.setRegBoth w (by decide) (.inr (.inr (.inl rfl)))).next fun w =>
    RegOnly.setRegBoth w (by decide) (.inr (.inr (.inr rfl)))

theorem RegOnly.unsync {s : State} (w : rfWf s.regs = true) (l : Lane) : RegOnly tailFlds s (s.unsync l) := by
  unfold State.unsync
  split
  · exact (RegOnly.setLst w l _).mono fun _ _ => .inl
  · exact .refl w

theorem RegOnly.noteCycle {s : State} (w : rfWf s.regs = true) (l : Lane) (cyc : Nat) :
    RegOnly tailFlds s (s.noteCycle l cyc) := by
  unfold State.noteCycle
  dsimp only
  split <;> exact .of rfl w

theorem RegOnly.toDisq {s : State} (w : rfWf s.regs = true) (l : Lane) : RegOnly tailFlds s (s.toDisq l none) := by
  unfold State.toDisq
  split
  · exact .of rfl w
  split
  · exact .refl w
  · exact (RegOnly.setLst w l _).mono fun _ _ => .inl

theorem RegOnly.limit {s : State} (w : rfWf s.regs = true) (l : Lane) (n : Nat) : RegOnly tailFlds s (s.limit l n) := by
  unfold State.limit
  split
  · exact (RegOnly.setBitF w (by decide) (by unfold Fld.ok; decide) (.inr ⟨rfl, rfl⟩)).next fun w => RegOnly.toDisq w l
  · exact .refl w

/-- What follows the log of a significant difference. -/
theorem RegOnly.afterLog {s : State} (w : rfWf s.regs = true) (l : Lane) (d : Die) (cyc record byte : Nat) :
    RegOnly tailFlds (s.logDiff d cyc record byte) (s.significant l d cyc record byte) := by
  have hw := (RegOnly.logDiff w d cyc record byte).wf
  rw [significant_eq]
  split
  · exact .refl hw
  · exact (((RegOnly.unsync hw .E).next fun w => RegOnly.unsync w .W).next fun w => RegOnly.noteCycle w l cyc).next
      fun w => RegOnly.limit w l _

theorem countBoth_counts {s : State} (w : rfWf s.regs = true) {a : Nat} (hown : regKey 0 a ≠ regKey 1 a) (l : Lane) :
    s.Counts (s.countBoth a) l a := by
  have hval : (s.countBoth a).reg l a = BitVec.ofNat 32 (satInc 32 (s.reg l a).toNat) := by
    unfold State.countBoth
    cases l with
    | E =>
      rw [State.reg_count_ne (l := .W) (l' := .E) (Ne.symm hown)]
      exact State.reg_count_self w .E a
    | W =>
      rw [State.reg_count_self (s := s.count .E a) (State.setReg_wf w), State.reg_count_ne (l := .E) (l' := .W) hown]
  have hlt := (s.reg l a).isLt
  rw [State.Counts, hval, BitVec.toNat_ofNat]
  exact Nat.mod_eq_of_lt (by unfold satInc; omega)

theorem logDiff_logged {s : State} (w : rfWf s.regs = true) (d : Die) (cyc record byte : Nat) (l : Lane) :
    (s.logDiff d cyc record byte).bit l R.FERRY_STATUS F.FERRY_STATUS_DISCREPANCY = true ∧
    s.Counts (s.logDiff d cyc record byte) l (R.FERRY_CNT 1) ∧
    (s.logDiff d cyc record byte).reg l R.FERRY_DISC_LOG0 = BitVec.ofNat 32 cyc ∧
    (s.logDiff d cyc record byte).reg l R.FERRY_DISC_LOG1 =
      setF (setF (setF 0 F.FERRY_DISC_LOG1_DIE d.ix) F.FERRY_DISC_LOG1_RECORD record) F.FERRY_DISC_LOG1_BYTE byte := by
  let only (a : Nat) : Nat → Fld → Prop := fun b _ => b = a
  unfold State.logDiff
  generalize hs1 : s.setBitBoth R.FERRY_STATUS F.FERRY_STATUS_DISCREPANCY true = s1
  have r1 : RegOnly (only R.FERRY_STATUS) s s1 :=
    hs1 ▸ RegOnly.setBitBoth w (by decide) (by unfold Fld.ok; decide) rfl
  have b1 : s1.bit l R.FERRY_STATUS F.FERRY_STATUS_DISCREPANCY = true :=
    hs1 ▸ State.bit_setBitBoth w l _ _ _ (by unfold Fld.ok; decide) rfl
  have r2 : RegOnly (only (R.FERRY_CNT 1)) s1 (s1.countBoth (R.FERRY_CNT 1)) := RegOnly.countBoth r1.wf (by decide) rfl
  have c2 : s1.Counts (s1.countBoth (R.FERRY_CNT 1)) l (R.FERRY_CNT 1) := countBoth_counts r1.wf (by decide) l
  generalize s1.countBoth (R.FERRY_CNT 1) = s2 at r2 c2 ⊢
  have r3 (v : Word) : RegOnly (only R.FERRY_DISC_LOG0) s2 (s2.setRegBoth R.FERRY_DISC_LOG0 v) :=
    RegOnly.setRegBoth r2.wf (by decide) rfl
  have v3 (v : Word) := State.reg_setRegBoth r2.wf l R.FERRY_DISC_LOG0 v
  generalize hs3 : s2.setRegBoth R.FERRY_DISC_LOG0 (BitVec.ofNat 32 cyc) = s3
  replace r3 := hs3 ▸ r3 (BitVec.ofNat 32 cyc)
  replace v3 := hs3 ▸ v3 (BitVec.ofNat 32 cyc)
  have r4 (v : Word) : RegOnly (only R.FERRY_DISC_LOG1) s3 (s3.setRegBoth R.FERRY_DISC_LOG1 v) :=
    RegOnly.setRegBoth r3.wf (by decide) rfl
  refine ⟨?_, ?_, ?_, State.reg_setRegBoth r3.wf l _ _⟩
  · unfold State.bit State.fld
    rw [(r4 _).reg l _ (by decide) (fun _ => by decide), r3.reg l _ (by decide) (fun _ => by decide),
      r2.reg l _ (by decide) (fun _ => by decide)]
    exact b1
  · unfold State.Counts at c2 ⊢
    rw [(r4 _).reg l _ (by decide) (fun _ => by decide), r3.reg l _ (by decide) (fun _ => by decide), c2,
      r1.reg l _ (by decide) (fun _ => by decide)]
  · rw [(r4 _).reg l _ (by decide) (fun _ => by decide), v3]

theorem lst_logDiff {s : State} (w : rfWf s.regs = true) (d : Die) (cyc record byte : Nat) (l : Lane) :
    (s.logDiff d cyc record byte).lst l = s.lst l :=
  congrArg (getF · F.FERRY_LANE_OWN_STATE) ((RegOnly.logDiff w d cyc record byte).reg l _ (by decide) fun f hf => by
    simp [logFlds, R.FERRY_LANE, R.FERRY_STATUS, R.FERRY_CNT, R.FERRY_DISC_LOG0, R.FERRY_DISC_LOG1] at hf)

theorem mixed_logDiff {s : State} (w : rfWf s.regs = true) (d : Die) (cyc record byte : Nat) :
    (s.logDiff d cyc record byte).mixed = s.mixed := by
  have h (l : Lane) : (s.logDiff d cyc record byte).bit l R.UPD_STATUS F.UPD_STATUS_MIXED =
      s.bit l R.UPD_STATUS F.UPD_STATUS_MIXED :=
    (RegOnly.logDiff w d cyc record byte).bit l (by decide) (by unfold Fld.ok; decide) fun f hf => by
      simp [logFlds, R.UPD_STATUS, R.FERRY_STATUS, R.FERRY_CNT, R.FERRY_DISC_LOG0, R.FERRY_DISC_LOG1] at hf
  unfold State.mixed
  rw [h, h]

/-- Neither lane that has been taken out of step, nor one that was not STANDBY, is STANDBY. -/
theorem unsync_lst {s : State} (w : rfWf s.regs = true) {l k : Lane} (h : k = l ∨ s.lst k ≠ 4) : (s.unsync l).lst k ≠ 4 := by
  unfold State.unsync
  split
  · by_cases hlk : l = k
    · subst hlk
      rw [lst_setLst w]
      decide
    · rw [lst_setLst_ne w hlk]
      exact h.resolve_left (Ne.symm hlk)
  · rename_i hne
    rcases h with rfl | h
    · exact hne
    · exact h

theorem toDisq_lst {s : State} (w : rfWf s.regs = true) (l : Lane) {k : Lane} (h : s.lst k ≠ 4) :
    (s.toDisq l none).lst k ≠ 4 := by
  unfold State.toDisq
  split
  · exact h
  split
  · exact h
  · rw [State.doneOpt]
    by_cases hlk : l = k
    · subst hlk
      rw [lst_setLst w]
      decide
    · exact (lst_setLst_ne w hlk _).trans_ne h

theorem limit_lst {s : State} (w : rfWf s.regs = true) (l : Lane) (n : Nat) {k : Lane} (h : s.lst k ≠ 4) :
    (s.limit l n).lst k ≠ 4 := by
  unfold State.limit
  split
  · have hk : (s.setBitF l R.FERRY_STATUS F.FERRY_STATUS_DISQ_BY_LIMIT true).lst k = s.lst k :=
      State.setReg_lst (by decide) (by decide)
    exact toDisq_lst (State.setFld_wf w) l (hk.trans_ne h)
  · exact h

theorem noteCycle_lst (s : State) (l : Lane) (cyc : Nat) (k : Lane) : (s.noteCycle l cyc).lst k = s.lst k := by
  unfold State.noteCycle
  dsimp only
  split <;> rfl

/-- A significant difference: its log, and outside MIXED no lane is STANDBY any more. -/
theorem significant_differs {s : State} (w : rfWf s.regs = true) (l : Lane) (d : Die) (cyc record byte : Nat) :
    s.Differs (s.significant l d cyc record byte) d cyc record byte := by
  have ht := RegOnly.afterLog w l d cyc record byte
  have hreg (k : Lane) {a : Nat} (ha : a < 2 ^ 32) (hne : a ≠ R.FERRY_LANE ∧ a ≠ R.FERRY_STATUS) :
      (s.significant l d cyc record byte).reg k a = (s.logDiff d cyc record byte).reg k a :=
    ht.reg k a ha fun f hf => by
      rcases hf with (h | ⟨h, -⟩) | ⟨h, -⟩
      · exact hne.1 h
      · exact hne.2 h
      · exact hne.2 h
  refine ⟨fun k => ?_, fun hm k => ?_, fun hm k => ?_⟩
  · obtain ⟨hbit, hcnt, hlog0, hlog1⟩ := logDiff_logged w d cyc record byte k
    refine ⟨?_, ?_, ?_, ?_, ?_, ?_⟩
    · rw [ht.bit k (by decide) (by unfold Fld.ok; decide) ?_, hbit]
      rintro f ((h | ⟨-, rfl⟩) | ⟨-, rfl⟩)
      · exact absurd h (by decide)
      all_goals unfold Fld.apart; decide
    · unfold State.Counts at hcnt ⊢
      rw [hreg k (by decide) (by decide), hcnt]
    · rw [hreg k (by decide) (by decide), hlog0]
    all_goals rw [State.fld, hreg k (by decide) (by decide), hlog1]
    · rw [getF_setF_ne _ _ _ _ (by unfold Fld.ok; decide) (by unfold Fld.ok; decide) (by unfold Fld.apart; decide),
        getF_setF_ne _ _ _ _ (by unfold Fld.ok; decide) (by unfold Fld.ok; decide) (by unfold Fld.apart; decide),
        getF_setF _ _ _ (by unfold Fld.ok; decide)]
      cases d <;> rfl
    · rw [getF_setF_ne _ _ _ _ (by unfold Fld.ok; decide) (by unfold Fld.ok; decide) (by unfold Fld.apart; decide),
        getF_setF _ _ _ (by unfold Fld.ok; decide)]
    · rw [getF_setF _ _ _ (by unfold Fld.ok; decide)]
  · have hw := (RegOnly.logDiff w d cyc record byte).wf
    have hwE := (RegOnly.unsync hw .E).wf
    have hwW := (RegOnly.unsync hwE .W).wf
    rw [significant_eq, mixed_logDiff w, hm, if_neg (by decide)]
    refine limit_lst (RegOnly.noteCycle hwW l cyc).wf l _ ?_
    rw [noteCycle_lst]
    refine unsync_lst hwE ?_
    cases k with
    | E => exact .inr (unsync_lst hw (.inl rfl))
    | W => exact .inl rfl
  · rw [significant_eq, mixed_logDiff w, hm, if_pos rfl, lst_logDiff w]

/-! ### A die's record of frames -/

/-- What a die keeps of a copy with HOLDER whose CRC passes (R145). -/
def DieRt.noting (x : DieRt) (c : FrameCopy) : DieRt :=
  if c.holder then { x with highEpoch := some (max c.epoch (x.highEpoch.getD 0)) } else x

/-- The window has had the lane's copy. -/
def Window.got (w : Window) : Lane → Window
  | .E => { w with gotE := true }
  | .W => { w with gotW := true }

/-- The window of a cycle before its first copy. -/
def Window.fresh (c : FrameCopy) : Window :=
  { cycle := c.cycle, tcycUs := c.tcycUs, gotE := false, gotW := false, applied := none, held := none, compared := false }

/-- The record after a copy has been applied (R148). -/
def DieRt.taking (x : DieRt) (c : FrameCopy) (closed : Bool) : DieRt :=
  { x with
    lastCycle := some c.cycle, tcycUs := c.tcycUs,
    window := x.window.map (fun (w : Window) => { w with applied := some c }),
    lastHolderLane := if c.holder then some c.lane else x.lastHolderLane,
    src := srcWord c.lane c.holder (match x.window with
      | some w => w.compared
      | none => false) closed }

/-- The record after the two copies have been compared (R149). -/
def DieRt.comparing (x : DieRt) : DieRt :=
  { x with
    window := x.window.map (fun (w : Window) => { w with compared := true }),
    src := if (match x.window with
      | some w => w.applied.isSome
      | none => false) then markCompared x.src else x.src }

/-- What a comparison leaves beside the die's record. -/
def State.judge (s : State) (d : Die) (c : FrameCopy) (blame : Lane) : State :=
  match c.diff with
  | .same => s
  | .nonSig => s.countFrames 0
  | .sig record byte => s.significant blame d c.cycle record byte

theorem applyCopy_eq (s : State) (d : Die) (c : FrameCopy) (closed : Bool) :
    s.applyCopy d c closed = (s.setDie d ((s.die d).taking c closed)).frameContent d c.lane c.cycle c.holder := rfl

theorem compare_eq (s : State) (d : Die) (c : FrameCopy) (blame : Lane) :
    s.compare d c blame = (s.setDie d (s.die d).comparing).judge d c blame := rfl

theorem significant_die {s : State} (h : s.Inv) (l : Lane) (d : Die) (cyc record byte : Nat) (e : Die) :
    (s.significant l d cyc record byte).die e = s.die e :=
  State.Kept.die (State.significant_kept (Sub.refl _) (.refl h)) (by unfold NoDies; decide) e

theorem State.Inv.significant {s : State} (h : s.Inv) (l : Lane) (d : Die) (cyc record byte : Nat) :
    (s.significant l d cyc record byte).Inv :=
  (State.significant_kept (φ := ⟨2 ^ 80 - 1, s⟩) (Sub.all (by decide)) (.refl h)).inv

theorem judge_die {s : State} (h : s.Inv) (d : Die) (c : FrameCopy) (blame : Lane) (e : Die) :
    (s.judge d c blame).die e = s.die e := by
  unfold State.judge
  split
  · rfl
  · exact countFrames_die s 0 e
  · exact significant_die h _ _ _ _ _ e

theorem State.Inv.judge {s : State} (h : s.Inv) (d : Die) (c : FrameCopy) (blame : Lane) : (s.judge d c blame).Inv := by
  unfold State.judge
  split
  · exact h
  · exact h.countFrames 0
  · exact h.significant _ _ _ _ _

theorem applyCopy_die {s : State} (h : s.Inv) (d : Die) (c : FrameCopy) (closed : Bool) :
    (s.applyCopy d c closed).die d = (s.die d).taking c closed := by
  rw [applyCopy_eq, State.frameContent_die (h.setDie d _), State.die_setDie]

theorem compare_die {s : State} (h : s.Inv) (d : Die) (c : FrameCopy) (blame : Lane) :
    (s.compare d c blame).die d = (s.die d).comparing := by
  rw [compare_eq, judge_die (h.setDie d _), State.die_setDie]

theorem State.Inv.applyCopy {s : State} (h : s.Inv) (d : Die) (c : FrameCopy) (closed : Bool) :
    (s.applyCopy d c closed).Inv :=
  (State.applyCopy_kept (φ := ⟨2 ^ 80 - 1, s⟩) (Sub.all (by decide)) (.refl h)).inv

theorem State.Inv.compare {s : State} (h : s.Inv) (d : Die) (c : FrameCopy) (blame : Lane) : (s.compare d c blame).Inv :=
  (h.setDie d _).judge d c blame

/-! ### HIGH_EPOCH and the other dies -/

/-- `t` meets the invariant, and of the dies of `s` it differs in `d` alone, whose HIGH_EPOCH is the same. -/
structure AtDie (d : Die) (s t : State) : Prop where
  inv : t.Inv
  high : (t.die d).highEpoch = (s.die d).highEpoch
  other : ∀ e, e ≠ d → t.die e = s.die e

theorem AtDie.refl {d : Die} {s : State} (h : s.Inv) : AtDie d s s := ⟨h, rfl, fun _ _ => rfl⟩

theorem AtDie.trans {d : Die} {s t u : State} (h : AtDie d s t) (k : t.Inv → AtDie d t u) : AtDie d s u :=
  have k := k h.inv
  ⟨k.inv, k.high.trans h.high, fun e he => (k.other e he).trans (h.other e he)⟩

theorem AtDie.of_same {d : Die} {s t : State} (h : t.Inv) (hd : ∀ e, t.die e = s.die e) : AtDie d s t :=
  ⟨h, by rw [hd], fun e _ => hd e⟩

theorem AtDie.setDie {d : Die} {s : State} {x : DieRt} (h : s.Inv) (hx : x.highEpoch = (s.die d).highEpoch) :
    AtDie d s (s.setDie d x) :=
  ⟨h.setDie d x, by rw [State.die_setDie, hx], fun _ he => State.die_setDie_ne he⟩

theorem AtDie.countFrames {d : Die} {s : State} (h : s.Inv) (k : Nat) : AtDie d s (s.countFrames k) :=
  .of_same (h.countFrames k) (countFrames_die s k)

theorem AtDie.leaseConflict {d : Die} {s : State} (h : s.Inv) : AtDie d s s.leaseConflict :=
  .of_same h.leaseConflict (leaseConflict_die s)

theorem AtDie.applyCopy {d : Die} {s : State} (h : s.Inv) (c : FrameCopy) (closed : Bool) :
    AtDie d s (s.applyCopy d c closed) :=
  ⟨h.applyCopy d c closed, by rw [applyCopy_die h]; rfl, fun e he => by
    rw [applyCopy_eq, State.frameContent_die (h.setDie d _), State.die_setDie_ne he]⟩

theorem AtDie.compare {d : Die} {s : State} (h : s.Inv) (c : FrameCopy) (blame : Lane) :
    AtDie d s (s.compare d c blame) :=
  ⟨h.compare d c blame, by rw [compare_die h]; rfl, fun e he => by
    rw [compare_eq, judge_die (h.setDie d _), State.die_setDie_ne he]⟩

theorem AtDie.inWindow {d : Die} {s : State} (h : s.Inv) (w : Window) (c : FrameCopy) : AtDie d s (s.inWindow d w c) := by
  unfold State.inWindow
  extract_lets x high w' s1
  have h1 : AtDie d s s1 := .setDie h rfl
  split
  · exact (h1.trans fun h => .leaseConflict h).trans fun h => .countFrames h 2
  split
  · split
    · have h2 : AtDie d s (s1.applyCopy d c false) := h1.trans fun h => .applyCopy h c false
      split
      · exact h2.trans fun h => .compare h c _
      · exact h2
    · split
      · exact ((h1.trans fun h => .leaseConflict h).trans fun h => .countFrames h 2).trans fun h => .applyCopy h c false
      · refine AtDie.trans ?_ fun h => .compare h c _
        split
        · exact h1.trans fun h => .leaseConflict h
        · exact h1
  · split
    · exact h1.trans fun h => .compare h c _
    · split
      · have h2 : AtDie d s (s1.applyCopy d c false) := h1.trans fun h => .applyCopy h c false
        split
        · exact h2.trans fun h => .compare h c _
        · exact h2
      · split
        · exact h1.trans fun h => .compare h c _
        · exact h1.trans fun h => .setDie h rfl

theorem AtDie.closeWindow {d : Die} {s : State} (h : s.Inv) : AtDie d s (s.closeWindow d) := by
  unfold State.closeWindow
  split
  · exact .refl h
  · extract_lets s1 s2
    have h1 : AtDie d s s1 := by
      unfold s1
      split
      · exact .applyCopy h _ true
      · exact .refl h
    have h2 : AtDie d s s2 := h1.trans fun h => by
      unfold s2
      split
      · exact .countFrames h 4
      · exact .refl h
    exact h2.trans fun h => .setDie h rfl

theorem AtDie.newWindow {d : Die} {s : State} (h : s.Inv) (c : FrameCopy) : AtDie d s (s.newWindow d c) := by
  unfold State.newWindow
  extract_lets ahead
  split
  · exact .inWindow h _ c
  split
  · exact .countFrames h 3
  · exact .countFrames h 2

/-- The window has already had the lane's copy. -/
def Window.had (w : Window) : Lane → Bool
  | .E => w.gotE
  | .W => w.gotW

/-- A copy at a die that has noted its epoch and whose window was `x`. -/
def State.arrive (u : State) (c : FrameCopy) (x : Option Window) (last : Option Nat) : State :=
  match x with
  | none => u.newWindow c.die c
  | some w =>
    if w.cycle = c.cycle then if w.had c.lane then u.stale else u.inWindow c.die w c
    else if serialAhead32 c.cycle w.cycle then (u.closeWindow c.die).newWindow c.die c
    else if last = some c.cycle then u.countFrames 3
    else u.stale

theorem copyArrives_eq (s : State) (c : FrameCopy) :
    s.copyArrives c = (s.setDie c.die ((s.die c.die).noting c)).arrive c (s.die c.die).window (s.die c.die).lastClosed := by
  have hu : (if c.holder then s.setDie c.die { s.die c.die with
      highEpoch := some (max c.epoch ((s.die c.die).highEpoch.getD 0)) } else s) =
      s.setDie c.die ((s.die c.die).noting c) := by
    unfold DieRt.noting
    split
    · rfl
    · rw [State.setDie_die]
  unfold State.copyArrives
  dsimp only
  rw [hu]
  rfl

theorem AtDie.arrive {u : State} (h : u.Inv) (c : FrameCopy) (x : Option Window) (last : Option Nat) :
    AtDie c.die u (u.arrive c x last) := by
  unfold State.arrive
  split
  · exact .newWindow h c
  split
  · split
    · exact .countFrames h 2
    · exact .inWindow h _ c
  split
  · exact (AtDie.closeWindow h).trans fun h => .newWindow h c
  split
  · exact .countFrames h 3
  · exact .countFrames h 2

/-- HIGH_EPOCH follows every copy with HOLDER whose CRC passes, and no other die changes. -/
theorem copyArrives_high {s : State} (h : s.Inv) (c : FrameCopy) :
    ((s.copyArrives c).die c.die).highEpoch =
      (if c.holder then some (max c.epoch ((s.die c.die).highEpoch.getD 0)) else (s.die c.die).highEpoch) ∧
    ∀ d, d ≠ c.die → (s.copyArrives c).die d = s.die d := by
  have hat := AtDie.arrive (h.setDie c.die ((s.die c.die).noting c)) c (s.die c.die).window (s.die c.die).lastClosed
  rw [← copyArrives_eq] at hat
  refine ⟨hat.high.trans ?_, fun d hd => (hat.other d hd).trans (State.die_setDie_ne hd)⟩
  rw [State.die_setDie, DieRt.noting]
  split <;> rfl

/-! ### What becomes of a copy in an open window -/

/-- The window has the copy, and nothing else is done yet. -/
def State.enter (s : State) (d : Die) (w : Window) (c : FrameCopy) : State :=
  s.setDie d { s.die d with window := some (w.got c.lane) }

section
variable {s : State} {d : Die} {w : Window} {c : FrameCopy}

theorem enter_die : (s.enter d w c).die d = { s.die d with window := some (w.got c.lane) } := State.die_setDie _ _ _

theorem got_applied (w : Window) (l : Lane) : (w.got l).applied = w.applied := by cases l <;> rfl

theorem got_held (w : Window) (l : Lane) : (w.got l).held = w.held := by cases l <;> rfl

theorem got_compared (w : Window) (l : Lane) : (w.got l).compared = w.compared := by cases l <;> rfl

/-- A copy with HOLDER of a stale epoch. -/
theorem inWindow_stale (hc : c.holder = true) (he : c.epoch < (s.die d).highEpoch.getD 0) :
    s.inWindow d w c = (s.enter d w c).leaseConflict.stale := by
  unfold State.inWindow
  dsimp only
  rw [hc, decide_eq_true he]
  cases hl : c.lane <;> simp [State.enter, Window.got, hl]

/-- The first copy to be applied, with HOLDER, and none held. -/
theorem inWindow_holder (hc : c.holder = true) (he : (s.die d).highEpoch.getD 0 ≤ c.epoch) (ha : w.applied = none)
    (hh : w.held = none) : s.inWindow d w c = (s.enter d w c).applyCopy d c false := by
  unfold State.inWindow
  dsimp only
  rw [hc, decide_eq_false (Nat.not_lt.mpr he)]
  cases hl : c.lane <;> simp [State.enter, Window.got, hl, ha, hh]

/-- The first copy to be applied, with HOLDER, beside a held one. -/
theorem inWindow_holder_held {x : FrameCopy} (hc : c.holder = true) (he : (s.die d).highEpoch.getD 0 ≤ c.epoch)
    (ha : w.applied = none) (hh : w.held = some x) :
    s.inWindow d w c = ((s.enter d w c).applyCopy d c false).compare d c x.lane := by
  unfold State.inWindow
  dsimp only
  rw [hc, decide_eq_false (Nat.not_lt.mpr he)]
  cases hl : c.lane <;> simp [State.enter, Window.got, hl, ha, hh]

/-- A second copy with HOLDER of a higher epoch. -/
theorem inWindow_higher {x : FrameCopy} (hc : c.holder = true) (he : (s.die d).highEpoch.getD 0 ≤ c.epoch)
    (ha : w.applied = some x) (hx : x.holder = true) (hlt : x.epoch < c.epoch) :
    s.inWindow d w c = ((s.enter d w c).leaseConflict.stale).applyCopy d c false := by
  unfold State.inWindow
  dsimp only
  rw [hc, decide_eq_false (Nat.not_lt.mpr he)]
  cases hl : c.lane <;> simp [State.enter, Window.got, hl, ha, hx, hlt]

/-- A second copy with HOLDER whose epoch is not higher. -/
theorem inWindow_rival {x : FrameCopy} (hc : c.holder = true) (he : (s.die d).highEpoch.getD 0 ≤ c.epoch)
    (ha : w.applied = some x) (hx : x.holder = true) (hle : c.epoch ≤ x.epoch) :
    s.inWindow d w c = (s.enter d w c).leaseConflict.compare d c c.lane := by
  unfold State.inWindow
  dsimp only
  rw [hc, decide_eq_false (Nat.not_lt.mpr he)]
  cases hl : c.lane <;> simp [State.enter, Window.got, hl, ha, hx, Nat.not_lt.mpr hle]

/-- A second copy beside an applied one, not both with HOLDER. -/
theorem inWindow_second {x : FrameCopy} (ha : w.applied = some x)
    (h : c.holder = false ∨ ((s.die d).highEpoch.getD 0 ≤ c.epoch ∧ x.holder = false)) :
    s.inWindow d w c = (s.enter d w c).compare d c c.lane := by
  unfold State.inWindow
  dsimp only
  cases hc : c.holder with
  | false => cases hl : c.lane <;> simp [State.enter, Window.got, hl, ha]
  | true =>
    obtain ⟨he, hx⟩ := h.resolve_left (by simp [hc])
    rw [decide_eq_false (Nat.not_lt.mpr he)]
    cases hl : c.lane <;> simp [State.enter, Window.got, hl, ha, hx]

/-- A standby copy of the last holder's lane, first in its window. -/
theorem inWindow_standby (hc : c.holder = false) (ha : w.applied = none) (hh : w.held = none)
    (hlast : (s.die d).lastHolderLane = some c.lane) : s.inWindow d w c = (s.enter d w c).applyCopy d c false := by
  unfold State.inWindow
  dsimp only
  cases hl : c.lane <;> rw [hl] at hlast <;> simp [State.enter, Window.got, hl, hc, ha, hh, hlast]

/-- Another standby copy, first in its window, is held. -/
theorem inWindow_held (hc : c.holder = false) (ha : w.applied = none) (hh : w.held = none)
    (hlast : (s.die d).lastHolderLane ≠ some c.lane) :
    s.inWindow d w c = s.setDie d { s.die d with window := some { w.got c.lane with held := some c } } := by
  unfold State.inWindow
  dsimp only
  cases hl : c.lane <;> rw [hl] at hlast <;> simp [Window.got, hc, ha, hh, hlast]

end

/-! ### The marks of the last applied copy -/

theorem srcWord_lane (l : Lane) (h cmp cl : Bool) : (srcWord l h cmp cl).testBit 0 = (l == .W) := by
  cases l <;> revert h cmp cl <;> decide

theorem srcWord_holder (l : Lane) (h cmp cl : Bool) : (srcWord l h cmp cl).testBit 1 = h := by
  cases l <;> revert h cmp cl <;> decide

theorem srcWord_closed (l : Lane) (h cmp cl : Bool) : (srcWord l h cmp cl).testBit 3 = cl := by
  cases l <;> revert h cmp cl <;> decide

theorem markCompared_low (n : Nat) {i : Nat} (hi : i < 2) : (markCompared n).testBit i = n.testBit i := by
  unfold markCompared
  split
  · rfl
  · have hcases : i = 0 ∨ i = 1 := by omega
    rcases hcases with rfl | rfl <;> simp only [Nat.testBit_eq_decide_div_mod_eq] <;> congr 1 <;> apply propext <;> omega

theorem markCompared_set (n : Nat) : (markCompared n).testBit 2 = true := by
  unfold markCompared
  split
  · assumption
  · rename_i h
    simp only [Nat.testBit_eq_decide_div_mod_eq, decide_eq_true_eq] at h ⊢
    omega

/-- The die has applied the copy (R148): LAST_CYCLE, the cycle's period and the marks of its source. -/
def DieRt.Took (x : DieRt) (c : FrameCopy) : Prop :=
  x.lastCycle = some c.cycle ∧ x.tcycUs = c.tcycUs ∧ x.src.testBit 0 = (c.lane == .W) ∧ x.src.testBit 1 = c.holder

theorem taking_took (x : DieRt) (c : FrameCopy) (closed : Bool) : (x.taking c closed).Took c :=
  ⟨rfl, rfl, srcWord_lane _ _ _ _, srcWord_holder _ _ _ _⟩

theorem comparing_src_low (x : DieRt) {i : Nat} (hi : i < 2) : x.comparing.src.testBit i = x.src.testBit i := by
  unfold DieRt.comparing
  dsimp only
  split
  · split
    · exact markCompared_low _ hi
    · rfl
  · rfl

theorem DieRt.Took.comparing {x : DieRt} {c : FrameCopy} (h : x.Took c) : x.comparing.Took c := by
  obtain ⟨h1, h2, h3, h4⟩ := h
  exact ⟨h1, h2, (comparing_src_low x (by decide)).trans h3, (comparing_src_low x (by decide)).trans h4⟩

/-! ### A copy's epoch noted -/

section
variable (x : DieRt) (c : FrameCopy)

@[simp] theorem noting_window : (x.noting c).window = x.window := by unfold DieRt.noting; split <;> rfl

@[simp] theorem noting_lastClosed : (x.noting c).lastClosed = x.lastClosed := by unfold DieRt.noting; split <;> rfl

@[simp] theorem noting_lastCycle : (x.noting c).lastCycle = x.lastCycle := by unfold DieRt.noting; split <;> rfl

@[simp] theorem noting_lastHolderLane : (x.noting c).lastHolderLane = x.lastHolderLane := by
  unfold DieRt.noting; split <;> rfl

theorem noting_standby {c : FrameCopy} (h : c.holder = false) : x.noting c = x := by
  rw [DieRt.noting, h]
  rfl

theorem noting_high {c : FrameCopy} (h : c.holder = true) :
    (x.noting c).highEpoch.getD 0 = max c.epoch (x.highEpoch.getD 0) := by
  rw [DieRt.noting, h]
  rfl

end

/-- The state in which the die has noted the copy's epoch. -/
def State.noted (s : State) (c : FrameCopy) : State := s.setDie c.die ((s.die c.die).noting c)

theorem noted_die (s : State) (c : FrameCopy) : (s.noted c).die c.die = (s.die c.die).noting c := State.die_setDie _ _ _

theorem noted_standby {s : State} {c : FrameCopy} (h : c.holder = false) : s.noted c = s := by
  rw [State.noted, noting_standby _ h, State.setDie_die]

/-- Everything but what the die keeps of frames. -/
def State.back (s t : State) (d : Die) : State := t.setDie d (s.die d)

theorem exec_copy {s : State} {c : FrameCopy} (hup : (s.die c.die).up = true) (hcrc : c.crcOk = true) :
    exec (.frameCopyArrival c) s = .next ((s.noted c).arrive c (s.die c.die).window (s.die c.die).lastClosed) := by
  show Host.Outcome.next _ = _
  rw [hup, hcrc, State.noted, ← copyArrives_eq]
  rfl

/-- The copy's cycle is ahead of the last window to close. -/
def Ahead (x : DieRt) (c : FrameCopy) : Prop := ∀ k ∈ x.lastClosed, serialAhead32 c.cycle k = true

theorem newWindow_ahead {s : State} {d : Die} {c : FrameCopy} (h : Ahead (s.die d) c) :
    s.newWindow d c = s.inWindow d (.fresh c) c := by
  unfold State.newWindow
  cases hk : (s.die d).lastClosed with
  | none => rfl
  | some k =>
    dsimp only
    rw [if_pos (h k hk)]
    rfl

theorem newWindow_behind {s : State} {d : Die} {c : FrameCopy} (h : ¬ Ahead (s.die d) c) :
    s.newWindow d c = s.countFrames (if (s.die d).lastClosed = some c.cycle then 3 else 2) := by
  unfold State.newWindow
  cases hk : (s.die d).lastClosed with
  | none => exact absurd (fun k hk' => by rw [hk] at hk'; cases hk') h
  | some k =>
    have hn : ¬ serialAhead32 c.cycle k = true := fun hs => h fun j hj => by
      rw [hk] at hj
      cases hj
      exact hs
    dsimp only
    rw [if_neg hn]
    split <;> rfl

theorem countFrames_noted {s : State} (h : s.Inv) (c : FrameCopy) {k : Nat} (hk : k < 8) :
    s.FrameCounted (s.back ((s.noted c).countFrames k) c.die) k := by
  rw [State.back, State.noted, countFrames_back]
  exact countFrames_counted h.regs hk

/-! ### A copy where no window is open -/

section
variable {s : State} {c : FrameCopy} (hup : (s.die c.die).up = true) (hcrc : c.crcOk = true)
include hup hcrc

theorem copy_high (h : s.Inv) : Completes (exec (.frameCopyArrival c) s) (fun t =>
    (t.die c.die).highEpoch =
      (if c.holder then some (max c.epoch ((s.die c.die).highEpoch.getD 0)) else (s.die c.die).highEpoch) ∧
    ∀ d, d ≠ c.die → t.die d = s.die d) :=
  ⟨_, exec_copy hup hcrc, by rw [State.noted, ← copyArrives_eq]; exact copyArrives_high h c⟩

section
variable (hw : (s.die c.die).window = none)
include hw

theorem copy_closed : exec (.frameCopyArrival c) s = .next ((s.noted c).newWindow c.die c) := by
  rw [exec_copy hup hcrc, hw]
  rfl

theorem copy_behind (h : s.Inv) (ha : ¬ Ahead (s.die c.die) c) : Completes (exec (.frameCopyArrival c) s) (fun t =>
    s.FrameCounted (s.back t c.die) (if (s.die c.die).lastClosed = some c.cycle then 3 else 2)) := by
  refine ⟨_, copy_closed hup hcrc hw, ?_⟩
  have hn : ¬ Ahead ((s.noted c).die c.die) c := by
    rw [noted_die]
    unfold Ahead
    rwa [noting_lastClosed]
  rw [newWindow_behind hn, noted_die, noting_lastClosed]
  exact countFrames_noted h c (by split <;> decide)

/-- The copy opens the window of its cycle. -/
theorem copy_opens (ha : Ahead (s.die c.die) c) :
    exec (.frameCopyArrival c) s = .next ((s.noted c).inWindow c.die (.fresh c) c) := by
  rw [copy_closed hup hcrc hw, newWindow_ahead]
  rw [noted_die]
  unfold Ahead
  rwa [noting_lastClosed]

end

end

/-- The window that a copy has opened. -/
def opened (c : FrameCopy) (applied held : Option FrameCopy) : Option Window :=
  some ⟨c.cycle, c.tcycUs, c.lane == .E, c.lane == .W, applied, held, false⟩

theorem fresh_got (c : FrameCopy) (applied held : Option FrameCopy) :
    some { (Window.fresh c).got c.lane with applied := applied, held := held } = opened c applied held := by
  unfold opened Window.fresh Window.got
  cases c.lane <;> rfl

/-- A state that differs in one die's record alone differs as the other does. -/
theorem setDie_differs {s t : State} {d e : Die} {y : DieRt} {cyc record byte : Nat} :
    (s.setDie d y).Differs t e cyc record byte ↔ s.Differs t e cyc record byte := by
  cases d <;> exact Iff.rfl

theorem RegOnly.countFrames {s : State} (w : rfWf s.regs = true) {k : Nat} (hk : k < 8) :
    RegOnly (fun a _ => a = R.FERRY_CNT k) s (s.countFrames k) := by
  have hone : ∀ (t : State) (g : Word → Word) (l : Lane), rfWf t.regs = true →
      RegOnly (fun a _ => a = R.FERRY_CNT k) t (t.inLane (R.FERRY_CNT k) g l) := by
    intro t g l ht
    unfold State.inLane
    split
    · exact .refl ht
    · exact RegOnly.setReg ht (ferryCnt_lt hk).1 rfl
  rw [countFrames_eq]
  exact (hone s _ .E w).next fun w => hone _ _ .W w

/-- The fields that a comparison writes. -/
def judgeFlds (a : Nat) (f : Fld) : Prop := a = R.FERRY_CNT 0 ∨ logFlds a f ∨ tailFlds a f

theorem RegOnly.judge {s : State} (w : rfWf s.regs = true) (d : Die) (c : FrameCopy) (blame : Lane) :
    RegOnly judgeFlds s (s.judge d c blame) := by
  unfold State.judge
  split
  · exact .refl w
  · exact (RegOnly.countFrames w (by decide)).mono fun _ _ => .inl
  · exact ((RegOnly.logDiff w d c.cycle _ _).mono fun _ _ h => .inr (.inl h)).next fun _ =>
      (RegOnly.afterLog w blame d c.cycle _ _).mono fun _ _ h => .inr (.inr h)

theorem judgeFlds_conflict {f : Fld} (h : judgeFlds R.FERRY_STATUS f) : Fld.apart f F.FERRY_STATUS_LEASE_CONFLICT := by
  rcases h with h | (⟨-, rfl⟩ | h | h | h) | (h | ⟨-, rfl⟩) | ⟨-, rfl⟩
  case inr.inl.inl => unfold Fld.apart; decide
  case inr.inr.inl.inr => unfold Fld.apart; decide
  case inr.inr.inr => unfold Fld.apart; decide
  all_goals exact absurd h (by decide)

theorem noted_high_le {s : State} {c : FrameCopy} (hc : c.holder = true)
    (hle : (s.die c.die).highEpoch.getD 0 ≤ c.epoch) : ((s.noted c).die c.die).highEpoch.getD 0 ≤ c.epoch := by
  rw [noted_die, noting_high _ hc]
  exact Nat.max_le.mpr ⟨Nat.le_refl _, hle⟩

theorem comparing_src_set {x : DieRt} {w : Window} (hw : x.window = some w) (ha : w.applied.isSome = true) :
    x.comparing.src.testBit 2 = true := by
  unfold DieRt.comparing
  dsimp only
  rw [hw]
  dsimp only
  rw [if_pos ha]
  exact markCompared_set _

section
variable {s : State} {d : Die} {w : Window} {c : FrameCopy}

theorem State.Inv.enter (h : s.Inv) : (s.enter d w c).Inv := h.setDie _ _

theorem State.Inv.noted (h : s.Inv) (c : FrameCopy) : (s.noted c).Inv := h.setDie _ _

/-- A state in which a copy has entered its window is the old one but for the die's record. -/
theorem noted_enter : ∃ y, (s.noted c).enter c.die w c = s.setDie c.die y :=
  ⟨_, State.setDie_setDie _ _ _ _⟩

/-- The die's record when a copy has entered its window and been applied. -/
theorem enter_apply_die (h : s.Inv) : ((s.enter d w c).applyCopy d c false).die d =
    ({ s.die d with window := some (w.got c.lane) } : DieRt).taking c false := by
  rw [applyCopy_die h.enter, enter_die]

theorem enter_conflicts (h : s.Inv) : s.Conflicts ((s.noted c).enter c.die w c).leaseConflict := by
  obtain ⟨y, hy⟩ := noted_enter (s := s) (c := c) (w := w)
  intro l hl
  rw [hy]
  exact leaseConflict_conflicts (s := s.setDie c.die y) (by rw [State.setDie_regs]; exact h.regs) l
    (by rwa [State.setDie_lst])

end

section
variable {s : State} {c : FrameCopy} (hup : (s.die c.die).up = true) (hcrc : c.crcOk = true)
include hup hcrc

/-! ### The first copy of a window -/

section
variable (hw : (s.die c.die).window = none) (ha : Ahead (s.die c.die) c)
include hw ha

theorem copy_opens_holder (h : s.Inv) (hc : c.holder = true) (he : (s.die c.die).highEpoch.getD 0 ≤ c.epoch) :
    Completes (exec (.frameCopyArrival c) s) (fun t => (t.die c.die).Took c ∧
      (t.die c.die).lastHolderLane = some c.lane ∧ (t.die c.die).window = opened c (some c) none) := by
  refine ⟨_, copy_opens hup hcrc hw ha, ?_⟩
  beta_reduce
  rw [inWindow_holder hc (noted_high_le hc he) rfl rfl, enter_apply_die (h.noted c)]
  refine ⟨taking_took _ _ _, ?_, ?_⟩
  · show (if c.holder then _ else _) = _
    rw [hc]
    rfl
  · rw [← fresh_got]
    cases hl : c.lane <;> simp [DieRt.taking, Window.got, Window.fresh, hl]

theorem copy_opens_standby (h : s.Inv) (hc : c.holder = false) (hlast : (s.die c.die).lastHolderLane = some c.lane) :
    Completes (exec (.frameCopyArrival c) s) (fun t => (t.die c.die).Took c ∧
      (t.die c.die).lastHolderLane = some c.lane ∧ (t.die c.die).window = opened c (some c) none) := by
  refine ⟨_, copy_opens hup hcrc hw ha, ?_⟩
  beta_reduce
  rw [noted_standby hc, inWindow_standby hc rfl rfl hlast, enter_apply_die h]
  refine ⟨taking_took _ _ _, ?_, ?_⟩
  · show (if c.holder then _ else _) = _
    rw [hc]
    exact hlast
  · rw [← fresh_got]
    cases hl : c.lane <;> simp [DieRt.taking, Window.got, Window.fresh, hl]

theorem copy_opens_held (hc : c.holder = false) (hlast : (s.die c.die).lastHolderLane ≠ some c.lane) :
    exec (.frameCopyArrival c) s =
      .next (s.setDie c.die { s.die c.die with window := opened c none (some c) }) := by
  rw [copy_opens hup hcrc hw ha, noted_standby hc, inWindow_held hc rfl rfl hlast, ← fresh_got]
  cases hl : c.lane <;> rfl

theorem copy_opens_stale (h : s.Inv) (hc : c.holder = true) (he : c.epoch < (s.die c.die).highEpoch.getD 0) :
    Completes (exec (.frameCopyArrival c) s) (fun t => s.Conflicts t ∧
      (∀ l, s.lst l ≠ 0 → s.Counts t l (R.FERRY_CNT 2)) ∧
      s.RegsBut (bothKeys R.FERRY_STATUS ++ bothKeys (R.FERRY_CNT 2)) t ∧
      (t.die c.die).lastCycle = (s.die c.die).lastCycle ∧ (t.die c.die).window = opened c none none) := by
  refine ⟨_, copy_opens hup hcrc hw ha, ?_⟩
  beta_reduce
  have he' : c.epoch < ((s.noted c).die c.die).highEpoch.getD 0 := by
    rw [noted_die, noting_high _ hc]
    omega
  rw [inWindow_stale hc he']
  have hdie : ((((s.noted c).enter c.die (.fresh c) c).leaseConflict.stale).die c.die) =
      { (s.die c.die).noting c with window := some ((Window.fresh c).got c.lane) } := by
    rw [stale_die, leaseConflict_die, enter_die, noted_die]
  have hconf : s.Conflicts ((s.noted c).enter c.die (.fresh c) c).leaseConflict := enter_conflicts h
  rw [hdie]
  obtain ⟨y, hy⟩ := noted_enter (s := s) (c := c) (w := .fresh c)
  rw [hy] at hconf ⊢
  have hwf : rfWf (s.setDie c.die y).leaseConflict.regs = true := (h.setDie c.die y).leaseConflict.regs
  have hlst (l : Lane) : (s.setDie c.die y).leaseConflict.lst l = s.lst l := by
    rw [leaseConflict_eq, inLanes_lst (by decide) (by decide), State.setDie_lst]
  refine ⟨?_, fun l hl => ?_, fun k hk => ?_, noting_lastCycle _ _, ?_⟩
  · exact hconf.mono (RegOnly.countFrames hwf (by decide)) fun f hf => absurd hf (by decide)
  · have hcount := countFrames_counts hwf (k := 2) (by decide) (l := l) (by rwa [hlst])
    have hreg : (s.setDie c.die y).leaseConflict.reg l (R.FERRY_CNT 2) = s.reg l (R.FERRY_CNT 2) := by
      rw [leaseConflict_eq, inLanes_reg_ne (by decide) (by decide) (by decide), State.setDie_reg]
    unfold State.Counts at hcount ⊢
    rwa [hreg] at hcount
  · rw [List.mem_append, not_or] at hk
    have h1 := inLanes_regsBut (s := (s.setDie c.die y).leaseConflict) (a := R.FERRY_CNT 2)
      (g := fun w => BitVec.ofNat 32 (satInc 32 w.toNat)) k hk.2
    have h2 := inLanes_regsBut (s := s.setDie c.die y) (a := R.FERRY_STATUS)
      (g := fun w => setF w F.FERRY_STATUS_LEASE_CONFLICT (b2n true)) k hk.1
    rw [State.setDie_regs] at h2
    exact h1.trans h2
  · rw [← fresh_got]
    cases hl : c.lane <;> rfl

end

/-! ### A later copy of a window, and one beside it -/

section
variable {w : Window} (hw : (s.die c.die).window = some w)
include hw

theorem copy_windowed : exec (.frameCopyArrival c) s =
    .next ((s.noted c).arrive c (some w) (s.die c.die).lastClosed) := by
  rw [exec_copy hup hcrc, hw]

theorem copy_beside (h : s.Inv) (hne : w.cycle ≠ c.cycle) (ha : serialAhead32 c.cycle w.cycle = false) :
    Completes (exec (.frameCopyArrival c) s) (fun t =>
      s.FrameCounted (s.back t c.die) (if (s.die c.die).lastClosed = some c.cycle then 3 else 2)) := by
  refine ⟨_, copy_windowed hup hcrc hw, ?_⟩
  beta_reduce
  rw [State.arrive, if_neg hne, ha, if_neg (c := false = true) (by decide)]
  by_cases hl : (s.die c.die).lastClosed = some c.cycle
  · rw [if_pos hl, if_pos hl]
    exact countFrames_noted h c (by decide)
  · rw [if_neg hl, if_neg hl]
    exact countFrames_noted h c (k := 2) (by decide)

theorem copy_again (h : s.Inv) (he : w.cycle = c.cycle) (hhad : w.had c.lane = true) :
    Completes (exec (.frameCopyArrival c) s) (fun t => s.FrameCounted (s.back t c.die) 2) := by
  refine ⟨_, copy_windowed hup hcrc hw, ?_⟩
  rw [State.arrive, if_pos he, if_pos hhad]
  exact countFrames_noted h c (by decide)

section
variable (he : w.cycle = c.cycle) (hhad : w.had c.lane = false)
include he hhad

theorem copy_second : exec (.frameCopyArrival c) s = .next ((s.noted c).inWindow c.die w c) := by
  rw [copy_windowed hup hcrc hw, State.arrive, if_pos he, hhad]
  rfl

/-- The second copy beside an applied one is compared with it. -/
theorem copy_compared (h : s.Inv) {a : FrameCopy} (ha : w.applied = some a)
    (hor : c.holder = false ∨ ((s.die c.die).highEpoch.getD 0 ≤ c.epoch ∧ a.holder = false)) :
    Completes (exec (.frameCopyArrival c) s) (fun t =>
      (t.die c.die).lastCycle = (s.die c.die).lastCycle ∧ (t.die c.die).src.testBit 2 = true ∧
      (∀ x ∈ (t.die c.die).window, x.applied = some a ∧ x.compared = true) ∧
      (c.diff = .same → s.back t c.die = s) ∧ (c.diff = .nonSig → s.FrameCounted (s.back t c.die) 0) ∧
      ∀ r b, c.diff = .sig r b → s.Differs t c.die c.cycle r b) := by
  have hor' : c.holder = false ∨ (((s.noted c).die c.die).highEpoch.getD 0 ≤ c.epoch ∧ a.holder = false) := by
    cases hc : c.holder with
    | false => exact .inl rfl
    | true =>
      obtain ⟨hle, hx⟩ := hor.resolve_left (by simp [hc])
      exact .inr ⟨noted_high_le hc hle, hx⟩
  refine ⟨_, copy_second hup hcrc hw he hhad, ?_⟩
  beta_reduce
  rw [inWindow_second ha hor', compare_die (h.noted c).enter, enter_die, noted_die]
  refine ⟨noting_lastCycle _ _, ?_, ?_, ?_⟩
  · exact comparing_src_set rfl (by rw [got_applied, ha]; rfl)
  · rintro x hx
    obtain rfl : { w.got c.lane with compared := true } = x := by
      simpa [DieRt.comparing] using hx
    exact ⟨(got_applied w c.lane).trans ha, rfl⟩
  · rw [compare_eq]
    obtain ⟨y, hy⟩ := noted_enter (s := s) (c := c) (w := w)
    rw [hy, State.setDie_setDie]
    generalize ((s.setDie c.die y).die c.die).comparing = z
    unfold State.judge State.back
    refine ⟨fun hd => ?_, fun hd => ?_, fun r b hd => ?_⟩ <;> rw [hd]
    · rw [State.setDie_setDie, State.setDie_die]
    · dsimp only
      rw [countFrames_back]
      exact countFrames_counted h.regs (by decide)
    · rw [← setDie_differs (y := z)]
      exact significant_differs (h.setDie c.die z).regs _ _ _ _ _

theorem copy_rival (h : s.Inv) {a : FrameCopy} (ha : w.applied = some a) (hc : c.holder = true) (hx : a.holder = true)
    (hle : (s.die c.die).highEpoch.getD 0 ≤ c.epoch) (hae : c.epoch ≤ a.epoch) :
    Completes (exec (.frameCopyArrival c) s) (fun t => s.Conflicts t ∧
      (t.die c.die).lastCycle = (s.die c.die).lastCycle) := by
  refine ⟨_, copy_second hup hcrc hw he hhad, ?_⟩
  have hinv : ((s.noted c).enter c.die w c).leaseConflict.Inv := (h.noted c).enter.leaseConflict
  beta_reduce
  rw [inWindow_rival hc (noted_high_le hc hle) ha hx hae, compare_die hinv, leaseConflict_die,
    enter_die, noted_die]
  refine ⟨?_, noting_lastCycle _ _⟩
  rw [compare_eq]
  refine State.Conflicts.mono (t := ((s.noted c).enter c.die w c).leaseConflict.setDie c.die _) ?_
    (RegOnly.judge (hinv.setDie _ _).regs _ _ _) fun f hf => judgeFlds_conflict hf
  intro l hl
  rw [← enter_conflicts h (c := c) (w := w) l hl]
  unfold State.bit State.fld
  rw [State.setDie_reg]

theorem copy_higher (h : s.Inv) {a : FrameCopy} (ha : w.applied = some a) (hc : c.holder = true) (hx : a.holder = true)
    (hle : (s.die c.die).highEpoch.getD 0 ≤ c.epoch) (hae : a.epoch < c.epoch) :
    Completes (exec (.frameCopyArrival c) s) (fun t => (t.die c.die).Took c ∧
      (t.die c.die).lastHolderLane = some c.lane ∧ ∀ x ∈ (t.die c.die).window, x.applied = some c) := by
  refine ⟨_, copy_second hup hcrc hw he hhad, ?_⟩
  beta_reduce
  rw [inWindow_higher hc (noted_high_le hc hle) ha hx hae,
    applyCopy_die (s := ((s.noted c).enter c.die w c).leaseConflict.stale)
      ((h.noted c).enter.leaseConflict.countFrames 2), stale_die, leaseConflict_die, enter_die]
  refine ⟨taking_took _ _ _, ?_, ?_⟩
  · show (if c.holder then _ else _) = _
    rw [hc]
    rfl
  · rintro x hx
    obtain rfl : { w.got c.lane with applied := some c } = x := by simpa [DieRt.taking] using hx
    rfl

theorem copy_first_applied (h : s.Inv) (ha : w.applied = none) (hc : c.holder = true)
    (hle : (s.die c.die).highEpoch.getD 0 ≤ c.epoch) :
    Completes (exec (.frameCopyArrival c) s) (fun t => (t.die c.die).Took c ∧
      ∀ x ∈ (t.die c.die).window, x.applied = some c ∧ (w.held.isSome = true → x.compared = true)) := by
  refine ⟨_, copy_second hup hcrc hw he hhad, ?_⟩
  have hle' := noted_high_le hc hle
  beta_reduce
  cases hh : w.held with
  | none =>
    rw [inWindow_holder hc hle' ha hh, enter_apply_die (h.noted c)]
    refine ⟨taking_took _ _ _, ?_⟩
    rintro x hx
    obtain rfl : { w.got c.lane with applied := some c } = x := by simpa [DieRt.taking] using hx
    exact ⟨rfl, fun hn => by cases hn⟩
  | some y =>
    rw [inWindow_holder_held hc hle' ha hh, compare_die ((h.noted c).enter.applyCopy _ _ _), enter_apply_die (h.noted c)]
    refine ⟨(taking_took _ _ _).comparing, ?_⟩
    rintro x hx
    obtain rfl : { w.got c.lane with applied := some c, compared := true } = x := by
      simpa [DieRt.comparing, DieRt.taking] using hx
    exact ⟨rfl, fun _ => rfl⟩

end

end

end

/-! ### The close of a window -/

/-- A copy that arrived alone counts SINGLE_COPY, and the window of its cycle is closed. -/
def State.shut (s : State) (d : Die) (w : Window) (lone : Bool) : State :=
  let t := if lone && !(w.gotE && w.gotW) then s.countFrames 4 else s
  t.setDie d { t.die d with window := none, lastClosed := some w.cycle }

section
variable {s : State} {d : Die} {w : Window} (hw : (s.die d).window = some w)
include hw

theorem closeWindow_held {c : FrameCopy} (ha : w.applied = none) (hh : w.held = some c) :
    s.closeWindow d = (s.applyCopy d c true).shut d w true := by
  unfold State.closeWindow State.shut
  rw [hw]
  dsimp only
  rw [ha, hh]
  rfl

theorem closeWindow_plain (h : w.applied.isSome = true ∨ w.held = none) :
    s.closeWindow d = s.shut d w w.applied.isSome := by
  unfold State.closeWindow State.shut
  rw [hw]
  dsimp only
  rcases h with h | h
  · obtain ⟨a, ha⟩ := Option.isSome_iff_exists.mp h
    rw [ha]
    rfl
  · rw [h]
    cases w.applied <;> simp

end

theorem shut_die {t : State} {d : Die} {w : Window} {lone : Bool} :
    (t.shut d w lone).die d = { t.die d with window := none, lastClosed := some w.cycle } := by
  unfold State.shut
  dsimp only
  rw [State.die_setDie]
  split
  · rw [countFrames_die]
  · rfl

theorem exec_close {s : State} {d : Die} (hup : (s.die d).up = true) :
    exec (.acceptanceWindowClose d) s = .next (s.closeWindow d) := by
  show Host.Outcome.next _ = _
  rw [hup]
  rfl

theorem close_idle {s : State} {d : Die} (h : (s.die d).up = false ∨ (s.die d).window = none) :
    exec (.acceptanceWindowClose d) s = .next s := by
  cases hup : (s.die d).up with
  | false =>
    show Host.Outcome.next _ = _
    rw [hup]
    rfl
  | true =>
    rw [exec_close hup, State.closeWindow, h.resolve_left (by simp [hup])]

/-- A held copy is applied where none has been (R149). -/
theorem close_held {s : State} (h : s.Inv) {d : Die} {w : Window} {c : FrameCopy} (hup : (s.die d).up = true)
    (hw : (s.die d).window = some w) (ha : w.applied = none) (hh : w.held = some c) :
    Completes (exec (.acceptanceWindowClose d) s) (fun t => (t.die d).Took c ∧ (t.die d).src.testBit 3 = true ∧
      (t.die d).window = none ∧ (t.die d).lastClosed = some w.cycle) := by
  refine ⟨_, exec_close hup, ?_⟩
  beta_reduce
  rw [closeWindow_held hw ha hh, shut_die, applyCopy_die h]
  obtain ⟨h1, h2, h3, h4⟩ := taking_took (s.die d) c true
  exact ⟨⟨h1, h2, h3, h4⟩, srcWord_closed _ _ _ _, rfl, rfl⟩

theorem close_plain {s : State} (h : s.Inv) {d : Die} {w : Window} (hup : (s.die d).up = true)
    (hw : (s.die d).window = some w) (hor : w.applied.isSome = true ∨ w.held = none) :
    Completes (exec (.acceptanceWindowClose d) s) (fun t =>
      t.die d = { s.die d with window := none, lastClosed := some w.cycle } ∧
      (if w.applied.isSome = true ∧ ¬ (w.gotE = true ∧ w.gotW = true) then s.FrameCounted (s.back t d) 4
        else s.back t d = s)) := by
  refine ⟨_, exec_close hup, ?_⟩
  beta_reduce
  rw [closeWindow_plain hw hor]
  refine ⟨shut_die, ?_⟩
  have hiff : (w.applied.isSome && !(w.gotE && w.gotW)) = true ↔
      w.applied.isSome = true ∧ ¬ (w.gotE = true ∧ w.gotW = true) := by
    rw [Bool.and_eq_true, Bool.not_eq_true', Bool.eq_false_iff, ne_eq, Bool.and_eq_true]
  unfold State.shut State.back
  by_cases hcnt : w.applied.isSome = true ∧ ¬ (w.gotE = true ∧ w.gotW = true)
  · rw [if_pos hcnt, if_pos (hiff.mpr hcnt)]
    dsimp only
    rw [State.setDie_setDie, ← countFrames_die s 4 d, State.setDie_die]
    exact countFrames_counted h.regs (by decide)
  · rw [if_neg hcnt, if_neg (fun hn => hcnt (hiff.mp hn))]
    dsimp only
    rw [State.setDie_setDie, State.setDie_die]

/-! ### Entries only end -/

/-- Of the ledger's entries none goes away, and one that has ended stays as it is. -/
structure OnlyEnds (s t : State) : Prop where
  kept : ∀ n e, s.entry n = some e → e.live = false → t.entry n = some e
  stays : ∀ n, (s.entry n).isSome = true → (t.entry n).isSome = true

theorem OnlyEnds.of_led {s t : State} (h : t.led = s.led) : OnlyEnds s t := by
  have he (n : Nat) : t.entry n = s.entry n := by unfold State.entry; rw [h]
  exact ⟨fun n e hn _ => (he n).trans hn, fun n hn => by rwa [he]⟩

theorem OnlyEnds.refl (s : State) : OnlyEnds s s := .of_led rfl

theorem OnlyEnds.trans {s t u : State} (h : OnlyEnds s t) (k : OnlyEnds t u) : OnlyEnds s u :=
  ⟨fun n e hn hl => k.kept n e (h.kept n e hn hl) hl, fun n hn => k.stays n (h.stays n hn)⟩

theorem State.entry_mapEntry_ne {s : State} {m n : Nat} {f : LEntry → LEntry} (hf : ∀ e, (f e).lsn = e.lsn) (h : n ≠ m) :
    (s.mapEntry m f).entry n = s.entry n := by
  have hp : ((fun e : LEntry => e.lsn == n) ∘ fun e => if e.lsn = m then f e else e) = fun e => e.lsn == n := by
    funext e
    simp only [Function.comp]
    split
    · rw [hf]
    · rfl
  show (s.led.entries.map _).find? _ = s.led.entries.find? _
  rw [List.find?_map, hp]
  cases he : s.led.entries.find? (fun e => e.lsn == n) with
  | none => rfl
  | some e =>
    have hn : e.lsn = n := by simpa using List.find?_some he
    simp [show e.lsn ≠ m by rwa [hn]]

/-- The end of an entry that is not live, or not there, does nothing; else that entry ends, and no other changes. -/
theorem endEntry_entry (s : State) (m d err : Nat) : s.endEntry m d err = s ∨
    ((∀ e ∈ s.entry m, e.live = true) ∧ (∃ x, (s.endEntry m d err).entry m = some x ∧ x.live = false) ∧
      ∀ n, n ≠ m → (s.endEntry m d err).entry n = s.entry n) := by
  cases hm : s.entry m with
  | none => left; unfold State.endEntry; rw [hm]
  | some e =>
    by_cases hl : e.live = true
    · right
      have hs : e.st = .accepted ∨ e.st = .executing := by simpa [LEntry.live] using hl
      obtain ⟨x, hx, hst, -⟩ := s.endEntry_disposes m d err e hm hl
      refine ⟨fun y hy => by cases hy; exact hl, ⟨x, hx, by rw [LEntry.live, hst]; rfl⟩, fun n hn => ?_⟩
      rw [← State.entry_mapEntry_ne (s := s) (f := fun e => { e with st := .disposed, disp := d, err := err, doneAt := s.now })
        (fun _ => rfl) hn]
      unfold State.endEntry State.entry
      rw [show s.led.entries.find? (fun e => e.lsn == m) = some e from hm]
      simp only [hs, if_true]
      rw [syncLedg_led, countBoth_led]
      rfl
    · left
      have hs : ¬ (e.st = .accepted ∨ e.st = .executing) := by simpa [LEntry.live] using hl
      unfold State.endEntry
      rw [hm]
      simp only [hs, if_false]

theorem OnlyEnds.endEntry (s : State) (m d err : Nat) : OnlyEnds s (s.endEntry m d err) := by
  rcases endEntry_entry s m d err with h | ⟨hlive, ⟨x, hx, -⟩, hother⟩
  · rw [h]
    exact .refl s
  · refine ⟨fun n e hn hl => ?_, fun n hn => ?_⟩
    · have hne : n ≠ m := by
        rintro rfl
        rw [hlive e hn] at hl
        cases hl
      rw [hother n hne, hn]
    · by_cases hne : n = m
      · rw [hne, hx]
        rfl
      · rwa [hother n hne]

theorem OnlyEnds.settleQuiesce (s : State) : OnlyEnds s s.settleQuiesce := by
  unfold State.settleQuiesce
  refine foldl_rel .refl (fun _ _ _ h g => h.trans g) (fun t v => ?_) _ _
  split
  · exact .refl t
  · extract_lets s1 s2
    have e1 : s1.led = t.led := State.setFld_led ..
    have h2 : OnlyEnds t s2 := .of_led (show s1.led = t.led from e1)
    split
    · exact h2
    · exact h2.trans (.endEntry _ _ _ _)

theorem OnlyEnds.settleGrants (s : State) : OnlyEnds s s.settleGrants := by
  unfold State.settleGrants
  refine foldl_rel .refl (fun _ _ _ h g => h.trans g) (fun t g => ?_) _ _
  split
  · exact .refl t
  · extract_lets s1
    have h1 : OnlyEnds t s1 := .of_led rfl
    split
    · exact h1
    · exact h1.trans (.endEntry _ _ _ _)

theorem OnlyEnds.settle (s : State) : OnlyEnds s s.settleQuiesce.settleGrants := (OnlyEnds.settleQuiesce s).trans (.settleGrants _)

theorem OnlyEnds.dispose (s : State) (n d err : Nat) : OnlyEnds s (s.dispose n d err) :=
  (OnlyEnds.endEntry s n d err).trans (.settle _)

theorem OnlyEnds.disposeOpt (s : State) (n : Option Nat) (d err : Nat) : OnlyEnds s (s.disposeOpt n d err) := by
  cases n with
  | none => exact .refl s
  | some n => exact .dispose s n d err

/-- An entry that has been disposed of is not live. -/
theorem dispose_ended {s : State} {n d err : Nat} (h : (s.entry n).isSome = true) :
    ∃ x, (s.dispose n d err).entry n = some x ∧ x.live = false := by
  obtain ⟨x, hx, hl⟩ : ∃ x, (s.endEntry n d err).entry n = some x ∧ x.live = false := by
    rcases endEntry_entry s n d err with he | ⟨-, hx, -⟩
    · obtain ⟨e, hn⟩ := Option.isSome_iff_exists.mp h
      refine ⟨e, by rw [he, hn], ?_⟩
      cases hl : e.live with
      | false => rfl
      | true =>
        obtain ⟨x, hx, hst, -⟩ := s.endEntry_disposes n d err e hn hl
        rw [he, Option.mem_def, hn] at hx
        cases hx
        rw [LEntry.live, hst] at hl
        cases hl
    · exact hx
  exact ⟨x, (OnlyEnds.settle _).kept n x hx hl, hl⟩

theorem OnlyEnds.disposeAll (s : State) (ns : List Nat) (d err : Nat) : OnlyEnds s (s.disposeAll ns d err) := by
  induction ns generalizing s with
  | nil => exact .refl s
  | cons n ns ih => exact (OnlyEnds.dispose s n d err).trans (ih _)

theorem disposeAll_ended {s : State} {ns : List Nat} {n d err : Nat} (hn : n ∈ ns) (h : (s.entry n).isSome = true) :
    ∃ x, (s.disposeAll ns d err).entry n = some x ∧ x.live = false := by
  induction ns generalizing s with
  | nil => cases hn
  | cons m ns ih =>
    rcases List.mem_cons.mp hn with rfl | hn
    · obtain ⟨x, hx, hl⟩ := dispose_ended (d := d) (err := err) h
      exact ⟨x, (OnlyEnds.disposeAll (s.dispose n d err) ns d err).kept n x hx hl, hl⟩
    · exact ih hn ((OnlyEnds.dispose s m d err).stays n h)

/-- A disposition stays. -/
theorem State.Disposes.ends {s t u : State} {n d err : Nat} (h : s.Disposes t n d err) (k : OnlyEnds t u) :
    s.Disposes u n d err := by
  intro e he hl
  obtain ⟨x, hx, hst, hd, hr⟩ := h e he hl
  exact ⟨x, k.kept n x hx (by rw [LEntry.live, hst]; rfl), hst, hd, hr⟩

theorem dispose_disposes (s : State) (n d err : Nat) : s.Disposes (s.dispose n d err) n d err :=
  State.Disposes.ends (s.endEntry_disposes n d err) (.settle _)

/-! ### The Commons' safe state (R25) -/

/-- `t` keeps CMN_SAFE and the records of pairs, and of the ledger's entries none goes away. -/
structure Silenced (s t : State) : Prop where
  ends : OnlyEnds s t
  status : t.reg .E R.CVC_SEL_STATUS = s.reg .E R.CVC_SEL_STATUS
  recs : t.pwmRecs = s.pwmRecs

theorem Silenced.refl (s : State) : Silenced s s := ⟨.refl s, rfl, rfl⟩

theorem Silenced.trans {s t u : State} (h : Silenced s t) (k : Silenced t u) : Silenced s u :=
  ⟨h.ends.trans k.ends, k.status.trans h.status, k.recs.trans h.recs⟩

theorem Silenced.of_eq {s t : State} (hl : t.led = s.led) (hr : t.regs = s.regs) (hp : t.pwmRecs = s.pwmRecs) : Silenced s t :=
  ⟨.of_led hl, by unfold State.reg; rw [hr], hp⟩

theorem Silenced.dispose (s : State) (n err : Nat) {d : Nat} (hd : d < 0x10000) : Silenced s (s.dispose n d err) :=
  ⟨.dispose s n d err, State.dispose_far [] s n d err hd .E _ (by unfold Far Aside; decide) (by simp),
    State.Ended.pwmRecs (State.dispose_ended s n d err)⟩

theorem Silenced.disposeOpt (s : State) (n : Option Nat) (err : Nat) {d : Nat} (hd : d < 0x10000) :
    Silenced s (s.disposeOpt n d err) := by
  cases n with
  | none => exact .refl s
  | some n => exact .dispose s n err hd

theorem Silenced.disposeAll (s : State) (ns : List Nat) (err : Nat) {d : Nat} (hd : d < 0x10000) :
    Silenced s (s.disposeAll ns d err) := by
  induction ns generalizing s with
  | nil => exact .refl s
  | cons n ns ih => exact (Silenced.dispose s n err hd).trans (ih _)

theorem Silenced.pduFail (s : State) (i : Nat) : Silenced s (s.pduFail i) := .of_eq rfl rfl rfl

theorem Silenced.canEndsAll (s : State) (ts : List CanTx) (err : Nat) {d : Nat} (hd : d < 0x10000) :
    Silenced s (s.canEndsAll d err ts) := by
  induction ts generalizing s with
  | nil => exact .refl s
  | cons t ts ih =>
    refine Silenced.trans ?_ (ih _)
    unfold State.canEnds
    dsimp only
    split
    · exact (Silenced.disposeOpt s t.lsn err hd).trans (.pduFail _ _)
    · exact .disposeOpt s t.lsn err hd

theorem Silenced.syncFill (s : State) {n : Nat} (hn : n < 16) : Silenced s (s.syncFill n) :=
  ⟨.of_led (State.setFld_led ..), State.reg_setFld_ne (regKey_ne (by unfold R.CAN_TXQ; omega) (by decide)
    (by unfold R.CAN_TXQ R.CVC_SEL_STATUS; omega)), State.setFld_pwmRecs ..⟩

theorem Silenced.canEndQueue (s : State) {n : Nat} (hn : n < 16) (err : Nat) {d : Nat} (hd : d < 0x10000) (b : Bool) :
    Silenced s (s.canEndQueue n d err b) := by
  unfold State.canEndQueue
  extract_lets x s1
  have h1 : Silenced s s1 := .canEndsAll s _ err hd
  exact (h1.trans (t := s1) (.of_eq (t := s1.setCanPort n _) rfl rfl rfl)).trans (.syncFill _ hn)

theorem Silenced.forEach {s : State} {xs : List Nat} {f : State → Nat → State} (hf : ∀ t, ∀ x ∈ xs, Silenced t (f t x)) :
    Silenced s (s.forEach xs f) := by
  induction xs generalizing s with
  | nil => exact .refl s
  | cons x xs ih =>
    exact (hf s x List.mem_cons_self).trans (ih fun t y hy => hf t y (List.mem_cons_of_mem _ hy))

theorem Silenced.dropCmnWork (s : State) : Silenced s s.dropCmnWork := by
  unfold State.dropCmnWork
  extract_lets ls ps src1 src2 s1
  have h1 : Silenced s s1 := .of_eq rfl rfl rfl
  exact (h1.trans (.forEach fun t p _ => .pduFail t p)).trans (.disposeAll _ _ _ (show dUNDELIVERABLE < 0x10000 by decide))

/-- The Commons in its safe state: it does not run, shows CMN_SAFE, and the work of its pairs has ended. -/
theorem enterCmnSafe_safe {s : State} (w : rfWf s.regs = true) :
    s.enterCmnSafe.mod_.cmnSafe = true ∧ s.enterCmnSafe.cmnRuns = false ∧
    s.enterCmnSafe.bit .E R.CVC_SEL_STATUS F.CVC_SEL_STATUS_CMN_SAFE = true ∧ s.enterCmnSafe.pwmRecs = [] ∧
    s.enterCmnSafe.cmnRecs = [] ∧
    ∀ p ∈ s.pwmRecs, ∀ e ∈ s.entry p.lsn, ∃ x ∈ s.enterCmnSafe.entry p.lsn, x.live = false := by
  have hbit := State.bit_setBitF_self w .E R.CVC_SEL_STATUS F.CVC_SEL_STATUS_CMN_SAFE true (by unfold Fld.ok; decide) rfl
  unfold State.enterCmnSafe
  extract_lets s1 s2 ls s3
  have hled : s1.led = s.led := State.setFld_led ..
  have hrecs : s1.pwmRecs = s.pwmRecs := State.setFld_pwmRecs ..
  have h2 : Silenced s1 s2 := .forEach fun t n hn => .canEndQueue t (List.mem_range.mp hn) _ (by decide) _
  have hd : Silenced s1 s2.dropCmnWork := h2.trans (.dropCmnWork s2)
  have h3 : Silenced s1 s3 := hd.trans (.disposeAll _ _ _ (by decide))
  have hend : ∀ p ∈ s.pwmRecs, ∀ e ∈ s.entry p.lsn, ∃ x ∈ s3.entry p.lsn, x.live = false := by
    intro p hp e he
    have hmem : p.lsn ∈ ls := List.mem_append_left _ (List.mem_map.mpr ⟨p, by rw [h2.recs, hrecs]; exact hp, rfl⟩)
    have hsome : (s1.entry p.lsn).isSome = true := by
      have hsame : s1.entry p.lsn = s.entry p.lsn := by unfold State.entry; rw [hled]
      rw [hsame, he]
      rfl
    exact disposeAll_ended hmem (hd.ends.stays _ hsome)
  have hstat : s3.bit .E R.CVC_SEL_STATUS F.CVC_SEL_STATUS_CMN_SAFE = true := by
    unfold State.bit State.fld
    rw [h3.status]
    exact hbit
  clear_value s3
  exact ⟨rfl, Bool.and_false _, hstat, rfl, rfl, hend⟩

theorem commonsMismatch_halted {s : State} {e w : Bool} (h : s.cmnRuns = false) :
    exec (.commonsMismatch e w) s = .next s ∧ exec .commonsSafeState s = .next s := by
  constructor <;> show Host.Outcome.next _ = _ <;> rw [h] <;> rfl

theorem commonsMismatch_running {s : State} (hi : s.Inv) {e w : Bool} (h : s.cmnRuns = true) :
    Completes (exec (.commonsMismatch e w) s) (fun t => s.RegsBut (bothKeys R.FERRY_STATUS) t ∧
      (∀ l, t.bit l R.FERRY_STATUS F.FERRY_STATUS_CMN_MISMATCH = true) ∧
      t = { s with regs := t.regs, mod_ := { s.mod_ with cmnMismatch := !e && !w } }) := by
  refine ⟨({ s with mod_ := { s.mod_ with cmnMismatch := !e && !w } }).setBitBoth R.FERRY_STATUS F.FERRY_STATUS_CMN_MISMATCH true,
    ?_, fun k hk => ?_, fun l => ?_, rfl⟩
  · show Host.Outcome.next _ = _
    rw [h]
    rfl
  · simp only [bothKeys, List.mem_cons, List.not_mem_nil, or_false, not_or] at hk
    exact (rfGet_rfPut_ne _ _ _ _ (Ne.symm hk.2)).trans (rfGet_rfPut_ne _ _ _ _ (Ne.symm hk.1))
  · exact State.bit_setBitBoth (s := { s with mod_ := { s.mod_ with cmnMismatch := !e && !w } }) hi.regs l _ _ _
      (by unfold Fld.ok; decide) rfl

theorem commonsSafeState_calm {s : State} (hm : s.mod_.cmnMismatch = false) : exec .commonsSafeState s = .next s := by
  show Host.Outcome.next _ = _
  rw [hm, Bool.and_false]
  rfl

theorem commonsSafeState_safe {s : State} (hi : s.Inv) (h : s.cmnRuns = true) (hm : s.mod_.cmnMismatch = true) :
    Completes (exec .commonsSafeState s) (fun t => t.mod_.cmnSafe = true ∧
      t.cmnRuns = false ∧ t.bit .E R.CVC_SEL_STATUS F.CVC_SEL_STATUS_CMN_SAFE = true ∧ t.pwmRecs = [] ∧ t.cmnRecs = [] ∧
      ∀ p ∈ s.pwmRecs, ∀ e ∈ s.entry p.lsn, ∃ x ∈ t.entry p.lsn, x.live = false) := by
  refine ⟨s.enterCmnSafe, ?_, enterCmnSafe_safe hi.regs⟩
  show Host.Outcome.next _ = _
  rw [h, hm]
  rfl

/-! ### What a field die's operations do not write: the duties of its channels (Table 10.8) -/

/-- The address lies among the duties of field channels: beyond its die's own registers, and fifth of its channel's. -/
def DutyAt (a : Nat) : Prop := a < 2 ^ 32 ∧ a % 64 = 16 ∧ 0x1000 ≤ a % 0x40000

theorem dutyAt_duty {d m : Nat} (hd : d ≤ 2) (hm : m < fcCount d) : DutyAt (R.FCH_DUTY d m) := by
  have h : m < 112 := by
    unfold fcCount at hm
    split at hm <;> omega
  unfold DutyAt R.FCH_DUTY
  omega

/-- A die's register other than its channels' duties, within the field dies' space. -/
def OffDuty (b : Nat) : Prop := b < 2 ^ 32 ∧ (b % 64 ≠ 16 ∨ b % 0x40000 < 0x1000)

/-- In a lane the register at `a` is as it was. -/
def State.Spares (l : Lane) (a : Nat) (s t : State) : Prop := t.reg l a = s.reg l a

section
variable {l : Lane} {a : Nat}

theorem State.Spares.refl (s : State) : s.Spares l a s := rfl

theorem State.Spares.trans {s t u : State} (h : s.Spares l a t) (k : t.Spares l a u) : s.Spares l a u := Eq.trans k h

theorem State.Spares.of_regs {s t : State} (h : t.regs = s.regs) : s.Spares l a t := by
  unfold State.Spares State.reg
  rw [h]

theorem setReg_spares (s : State) (ha : a < 2 ^ 32) (k : Lane) {b : Nat} (hb : b < 2 ^ 32) (h : b ≠ a) (v : Word) :
    s.Spares l a (s.setReg k b v) := State.reg_setReg_ne (regKey_ne hb ha h)

theorem setFld_spares (s : State) (ha : a < 2 ^ 32) (k : Lane) {b : Nat} (hb : b < 2 ^ 32) (h : b ≠ a) (f : Fld) (v : Nat) :
    s.Spares l a (s.setFld k b f v) := State.reg_setFld_ne (regKey_ne hb ha h)

theorem forEach_spares {g : State → Nat → State} {xs : List Nat} (hg : ∀ t, ∀ x ∈ xs, State.Spares l a t (g t x)) (s : State) :
    s.Spares l a (s.forEach xs g) := by
  induction xs generalizing s with
  | nil => exact .refl s
  | cons x xs ih => exact (hg s x List.mem_cons_self).trans (ih (fun t y hy => hg t y (List.mem_cons_of_mem _ hy)) _)

end

theorem fcIndex_lt {d m : Nat} (hm : m ∈ List.range (fcCount d)) : m < 112 := by
  have h := List.mem_range.mp hm
  unfold fcCount at h
  split at h <;> omega

theorem State.setFd_regs (s : State) (d : Nat) (x : FieldRt) : (s.setFd d x).regs = s.regs := by
  unfold State.setFd
  split
  · rfl
  · split <;> rfl

theorem offDuty_state {d m : Nat} (hd : d ≤ 2) (hm : m < 112) : OffDuty (R.FCH_STATE d m) := by
  unfold OffDuty R.FCH_STATE
  omega

theorem modFc_spares {a : Nat} (s : State) (d m : Nat) (f : FcRt → FcRt) : s.Spares .E a (s.modFc d m f) := .of_regs rfl

section
variable {a : Nat} (ha : DutyAt a)
include ha

theorem OffDuty.ne {b : Nat} (hb : OffDuty b) : b ≠ a := by
  obtain ⟨-, h2, h3⟩ := ha
  obtain ⟨-, k2⟩ := hb
  omega

theorem setSh_spares (s : State) {b : Nat} (hb : OffDuty b) (v : Word) : s.Spares .E a (s.setSh b v) :=
  setReg_spares s ha.1 .E hb.1 (hb.ne ha) v

theorem setShFld_spares (s : State) {b : Nat} (hb : OffDuty b) (f : Fld) (v : Nat) : s.Spares .E a (s.setShFld b f v) :=
  setFld_spares s ha.1 .E hb.1 (hb.ne ha) f v

theorem setShBit_spares (s : State) {b : Nat} (hb : OffDuty b) (f : Fld) (v : Bool) : s.Spares .E a (s.setShBit b f v) :=
  setShFld_spares ha s hb f _

theorem syncLines_spares (s : State) {d : Nat} (hd : d ≤ 2) : s.Spares .E a (s.syncLines d) :=
  setShFld_spares ha s (by unfold OffDuty R.FCH_SAFE; omega) _ _

theorem syncBudget_spares (s : State) {d : Nat} (hd : d ≤ 2) : s.Spares .E a (s.syncBudget d) :=
  (setShFld_spares ha s (by unfold OffDuty R.FCH_DIE_POWER; omega) _ _).trans
    (setShBit_spares ha _ (by unfold OffDuty R.FCH_DIE_STATUS; omega) _ _)

section
variable (s : State) {d m : Nat} (hd : d ≤ 2) (hm : m < 112)
include hd hm

theorem setFSt_spares (v : Nat) : s.Spares .E a (s.setFSt d m v) := setShFld_spares ha s (offDuty_state hd hm) _ _

theorem setFBit_spares (f : Fld) (b : Bool) : s.Spares .E a (s.setFBit d m f b) :=
  setShBit_spares ha s (offDuty_state hd hm) _ _

theorem fcClearLatched_spares : s.Spares .E a (s.fcClearLatched d m) := setShFld_spares ha s (offDuty_state hd hm) _ _

theorem fcTryOn_spares : s.Spares .E a (s.fcTryOn d m) := by
  unfold State.fcTryOn
  dsimp only
  split
  · exact (setFSt_spares ha s hd hm _).trans (modFc_spares _ d m _)
  · exact .refl s

theorem fcOff_spares (st : Nat) : s.Spares .E a (s.fcOff d m st) := (setFSt_spares ha s hd hm st).trans (modFc_spares _ d m _)

theorem fcSetTarget_spares (t : Nat) : s.Spares .E a (s.fcSetTarget d m t) := by
  unfold State.fcSetTarget
  extract_lets st s1
  have h1 : s.Spares .E a s1 := .of_regs rfl
  split
  · split
    · split
      · exact h1.trans (fcOff_spares ha s1 hd hm _)
      · exact h1
    · split
      · exact h1.trans (fcTryOn_spares ha s1 hd hm)
      · exact h1
  · exact h1

theorem fcRestore_spares : s.Spares .E a (s.fcRestore d m) := by
  unfold State.fcRestore
  split
  · extract_lets s1
    have h1 : s.Spares .E a s1 := setFSt_spares ha s hd hm _
    split
    · exact h1.trans (fcTryOn_spares ha s1 hd hm)
    · exact h1.trans (setFBit_spares ha s1 hd hm _ _)
  · exact .refl s

theorem fcRecord_spares (cycle : Nat) (sched : Bool) : s.Spares .E a (s.fcRecord d m cycle sched) := by
  unfold State.fcRecord
  split
  · exact .refl s
  · extract_lets t held s1 s2
    have h1 : s.Spares .E a s1 := .trans (modFc_spares s d m _) (setFBit_spares ha _ hd hm _ _)
    have h2 : s.Spares .E a s2 := by
      refine h1.trans (t := s1) ?_
      show s1.Spares .E a (if t = 0 then _ else s1)
      split
      · exact setFBit_spares ha s1 hd hm _ _
      · exact .refl s1
    split
    · exact .refl s
    · split
      · exact h2.trans (.trans (modFc_spares s2 d m _) (setFBit_spares ha _ hd hm _ _))
      · split
        · exact h2
        · exact h2.trans (.trans (modFc_spares s2 d m _) (fcSetTarget_spares ha _ hd hm _))

theorem fcEnterMode_spares : s.Spares .E a (s.fcEnterMode d m) := by
  unfold State.fcEnterMode
  extract_lets md keep s1 x s2 cut
  clear_value keep
  have h1 : s.Spares .E a s1 := setSh_spares ha s (offDuty_state hd hm) keep
  have h2 : s.Spares .E a s2 := h1.trans (modFc_spares s1 d m _)
  have h (v : Nat) : s.Spares .E a (s2.setFSt d m v) := h2.trans (setFSt_spares ha s2 hd hm v)
  split
  · exact h _
  · split
    · exact h _
    · split <;> exact h _

end

theorem endLost_spares (s : State) : s.Spares .E a s.endLost := by
  unfold State.endLost
  split
  · extract_lets s1 s2
    have h1 : s.Spares .E a s1 := setShBit_spares ha s (by unfold OffDuty R.FCH_DIE_STATUS; omega) _ _
    have h2 : s1.Spares .E a s2 := by
      refine forEach_spares (fun t m hm => ?_) s1
      have hm : m < 112 := Nat.lt_trans (List.mem_range.mp hm) (by decide)
      exact ((setFBit_spares ha t (Nat.le_refl 2) hm _ _).trans (setFBit_spares ha _ (Nat.le_refl 2) hm _ _)).trans
        (fcRestore_spares ha _ (Nat.le_refl 2) hm)
    exact ((h1.trans h2).trans (syncLines_spares ha s2 (Nat.le_refl 2))).trans (syncLines_spares ha _ (by decide))
  · exact .refl s

/-- The targets of a frame leave the duties. -/
theorem fieldFrame_spares (s : State) {d : Nat} (hd : d ≤ 2) (cycle : Nat) (news : List RegCell) :
    s.Spares .E a (s.fieldFrame d cycle news) := by
  unfold State.fieldFrame
  extract_lets x s1 s2 s3
  have h1 : s.Spares .E a s1 := .of_regs (State.setFd_regs ..)
  have h2 : s1.Spares .E a s2 := setShBit_spares ha s1 (by unfold OffDuty R.FCH_DIE_STATUS; omega) _ _
  have h3 : s2.Spares .E a s3 := by
    show s2.Spares .E a (if d = 2 then s2.endLost else s2)
    split
    · exact endLost_spares ha s2
    · exact .refl s2
  exact ((h1.trans h2).trans h3).trans
    (forEach_spares (fun t m hm => fcRecord_spares ha t hd (fcIndex_lt hm) cycle _) s3)

/-- What a commit does beyond the register values leaves the duties, where it holds no target. -/
theorem afterFcCommit_spares (before s : State) {d : Nat} (hd : d ≤ 2) {ws : List RegCell}
    (hw : ∀ m < fcCount d, fcClearIn d m ws = false) : s.Spares .E a (State.afterFcCommit before s d ws) := by
  unfold State.afterFcCommit
  extract_lets s1
  have h1 : s.Spares .E a s1 := by
    refine forEach_spares (fun t m hm => ?_) s
    have hm' := fcIndex_lt hm
    dsimp only
    rw [hw m (List.mem_range.mp hm)]
    refine .trans ?_ (setFBit_spares ha _ hd hm' _ _)
    split
    · exact fcEnterMode_spares ha t hd hm'
    · exact .refl t
  exact (h1.trans (syncBudget_spares ha s1 hd)).trans (syncLines_spares ha _ hd)

end

/-! ### A lane's mirror of shared registers (R50, R262, R289) -/

theorem mem_of_cellsGet {cs : List RegCell} {k : Nat} {v : Word} (h : cellsGet cs k = some v) : (k, v) ∈ cs := by
  induction cs with
  | nil => cases h
  | cons c cs ih =>
    obtain ⟨k', v'⟩ := c
    unfold cellsGet at h
    split at h
    · next hk =>
      cases h
      exact hk ▸ List.mem_cons_self
    · exact List.mem_cons_of_mem _ (ih h)

theorem cellsGet_ne_none {cs : List RegCell} {c : RegCell} (h : c ∈ cs) : cellsGet cs c.1 ≠ none := by
  induction cs with
  | nil => cases h
  | cons d cs ih =>
    obtain ⟨k, v⟩ := d
    unfold cellsGet
    split
    · simp
    · next hk =>
      rcases List.mem_cons.mp h with rfl | h
      · exact absurd rfl hk
      · exact ih h

theorem keys_nodup {cs : List RegCell} (h : cellsSorted cs = true) : (cs.map Prod.fst).Nodup := by
  induction cs with
  | nil => exact List.nodup_nil
  | cons c cs ih =>
    obtain ⟨habove, hs⟩ := (cellsSorted_cons c cs).mp h
    refine List.nodup_cons.mpr ⟨fun hm => ?_, ih hs⟩
    obtain ⟨d, hd, he⟩ := List.mem_map.mp hm
    exact Nat.lt_irrefl _ (he ▸ habove d hd)

/-- In a register file a key stands once. -/
theorem cell_ext {rf : List RegCell} (w : rfWf rf = true) {c d : RegCell} (hc : c ∈ rf) (hd : d ∈ rf) (h : c.1 = d.1) : c = d := by
  obtain ⟨a, x⟩ := c
  obtain ⟨b, y⟩ := d
  obtain rfl : a = b := h
  rw [rfWf, Bool.and_eq_true] at w
  rw [cells_unique (keys_nodup w.1) hc hd]

section
variable {cs : List RegCell} {key : RegCell → Nat}

theorem rfGet_puts_ne {k : Nat} (h : ∀ c ∈ cs, key c ≠ k) (rf : List RegCell) :
    rfGet (cs.foldl (fun rs c => rfPut rs (key c) c.2) rf) k = rfGet rf k := by
  induction cs generalizing rf with
  | nil => rfl
  | cons c cs ih =>
    exact (ih (fun d hd => h d (List.mem_cons_of_mem _ hd)) _).trans (rfGet_rfPut_ne _ _ _ _ (h c List.mem_cons_self))

theorem rfGet_puts_mem (hinj : ∀ c ∈ cs, ∀ d ∈ cs, key c = key d → c = d) {c : RegCell} (hc : c ∈ cs) {rf : List RegCell}
    (w : rfWf rf = true) : rfGet (cs.foldl (fun rs c => rfPut rs (key c) c.2) rf) (key c) = c.2 := by
  induction cs generalizing rf with
  | nil => cases hc
  | cons d ds ih =>
    by_cases hm : c ∈ ds
    · exact ih (fun x hx y hy => hinj x (List.mem_cons_of_mem _ hx) y (List.mem_cons_of_mem _ hy)) hm
        (rfPut_wf _ _ _ w)
    · obtain rfl : c = d := (List.mem_cons.mp hc).resolve_right hm
      have hne : ∀ e ∈ ds, key e ≠ key c := fun e he heq =>
        hm (hinj e (List.mem_cons_of_mem _ he) c List.mem_cons_self heq ▸ he)
      rw [List.foldl_cons, rfGet_puts_ne hne, rfGet_rfPut _ _ _ _ w, if_pos rfl]

end

theorem dieKey_parts {a : Nat} (h : a < homeSpan) : dieKey a % homeSpan = a ∧ dieKey a / homeSpan = 2 := by
  unfold dieKey homeSpan at *
  omega

theorem lane_ix_lt (l : Lane) : l.ix < 2 := by cases l <;> decide

section
variable {s : State} (w : rfWf s.regs = true) {l : Lane} {off : Nat} {p : Nat → Bool}
include w

theorem State.mirror_wf : rfWf (s.mirror l off p).regs = true := rf_foldl_wf _ _ _ _ (rf_filter_wf _ _ w)

/-- The mirror of a register reads as the die's own. -/
theorem State.mirror_reg {a : Nat} (hp : p a = true) (ha : a + off < homeSpan) (hs : sharedReg (a + off) = false)
    (hr : resetAt (l.ix * homeSpan + a + off) = resetAt (dieKey a)) : (s.mirror l off p).reg l (a + off) = s.dieReg a := by
  obtain ⟨hmod, hdiv⟩ := dieKey_parts (Nat.lt_of_le_of_lt (Nat.le_add_right a off) ha)
  have hkey : regKey l.ix (a + off) = l.ix * homeSpan + a + off := by
    rw [regKey, hs, lane_ix_mod, Nat.add_assoc, if_neg Bool.false_ne_true]
  unfold State.reg State.mirror State.dieReg
  dsimp only
  rw [hkey]
  cases hv : cellsGet s.regs (dieKey a) with
  | some v =>
    have hm : (dieKey a, v) ∈ s.regs.filter (fun c => c.1 / homeSpan == 2 && p (c.1 % homeSpan)) :=
      List.mem_filter.mpr ⟨mem_of_cellsGet hv, by simp only [hmod, hdiv, hp]; rfl⟩
    have h := rfGet_puts_mem (key := fun c => l.ix * homeSpan + c.1 % homeSpan + off) (fun c hc d hd he => ?_) hm
      (rf_filter_wf s.regs (fun c => !(c.1 / homeSpan == l.ix && decide (off ≤ c.1 % homeSpan) && p (c.1 % homeSpan - off))) w)
    · dsimp only at h
      rw [hmod] at h
      rw [h, rfGet, hv, Option.getD_some]
    · obtain ⟨hc1, hc2⟩ := List.mem_filter.mp hc
      obtain ⟨hd1, hd2⟩ := List.mem_filter.mp hd
      simp only [Bool.and_eq_true, beq_iff_eq] at hc2 hd2
      refine cell_ext w hc1 hd1 ?_
      rw [← Nat.div_add_mod c.1 homeSpan, ← Nat.div_add_mod d.1 homeSpan, hc2.1, hd2.1]
      omega
  | none =>
    rw [rfGet_puts_ne (key := fun c => l.ix * homeSpan + c.1 % homeSpan + off)]
    · have hbase : cellsGet (s.regs.filter (fun c => !(c.1 / homeSpan == l.ix && decide (off ≤ c.1 % homeSpan) &&
          p (c.1 % homeSpan - off)))) (l.ix * homeSpan + a + off) = none := by
        by_contra hn
        obtain ⟨c, hc, he⟩ := exists_cell_of_get hn
        have hf := (List.mem_filter.mp hc).2
        obtain ⟨h1, h2⟩ := key_parts l.ix (b := a + off) ha
        rw [he, Nat.add_assoc, h1, h2, Nat.add_sub_cancel, hp] at hf
        simp at hf
      rw [rfGet, rfGet, hbase, hv, Option.getD_none, Option.getD_none, hr]
    · intro c hc he
      obtain ⟨hc1, hc2⟩ := List.mem_filter.mp hc
      simp only [Bool.and_eq_true, beq_iff_eq] at hc2
      have hk : c.1 = dieKey a := by
        rw [← Nat.div_add_mod c.1 homeSpan, hc2.1, dieKey]
        omega
      exact cellsGet_ne_none hc1 (hk ▸ hv)

end

/-- A register that mirrors nothing stays. -/
theorem State.mirror_reg_ne {s : State} {l : Lane} {off : Nat} {p : Nat → Bool} {k : Lane} {b : Nat}
    (hb : b < 2 ^ 32) (hn : ∀ a, p a = true → a + off ≠ b) (ho : ∀ a, p a = true → a + off < homeSpan) :
    (s.mirror l off p).reg k b = s.reg k b := by
  obtain ⟨hmod, -⟩ := regKey_parts hb k
  unfold State.reg State.mirror
  dsimp only
  rw [rfGet_puts_ne (key := fun c => l.ix * homeSpan + c.1 % homeSpan + off)]
  · rw [rfGet, cellsGet_filter]
    · rfl
    · intro c _ he
      rw [he, hmod]
      cases hp : p (b - off) with
      | false => simp
      | true =>
        have := hn _ hp
        simp
        omega
  · intro c hc he
    have hp := (List.mem_filter.mp hc).2
    simp only [Bool.and_eq_true] at hp
    refine hn _ hp.2 ?_
    have := ho _ hp.2
    rw [Nat.add_assoc] at he
    have h := (key_parts l.ix (b := c.1 % homeSpan + off) this).1
    rwa [he, hmod, eq_comm] at h

/-! ### Where the registers of the shared dies stand -/

theorem reg_shared {s : State} {a : Nat} (h : sharedReg a = true) (l : Lane) : s.reg l a = s.dieReg a := by
  unfold State.reg State.dieReg
  rw [regKey, h, if_pos rfl, dieKey]

theorem sharedReg_field {a : Nat} (hs : slotOf a = 8) (h : a % 0x40000 < 0x8000) : sharedReg a = true := by
  unfold sharedReg
  dsimp only
  rw [hs]
  exact decide_eq_true (by omega)

theorem sharedReg_can {a : Nat} (hs : slotOf a = 11) (h : a % 0x100000 < 0x80000) : sharedReg a = true := by
  unfold sharedReg
  dsimp only
  rw [hs]
  exact decide_eq_true h

theorem sharedReg_fchState {d m : Nat} (hd : d ≤ 2) (hm : m < 112) : sharedReg (R.FCH_STATE d m) = true :=
  sharedReg_field (by unfold slotOf R.FCH_STATE; omega) (by unfold R.FCH_STATE; omega)

theorem sharedReg_canStat {n : Nat} (hn : n < 16) : sharedReg (R.CAN_STAT n) = true :=
  sharedReg_can (by unfold slotOf R.CAN_STAT; omega) (by unfold R.CAN_STAT; omega)

theorem sharedReg_pchMir : ∀ m < 24, ∀ k < 6, sharedReg (R.PCH_MIR 1 m k) = false := by decide +kernel

theorem sharedReg_fchMir : ∀ m < 112, ∀ k < 4, sharedReg (R.FCH_MIR 0 m (1 + k)) = false := by decide +kernel

theorem resetAt_pchMir (l : Lane) : ∀ m < 24, ∀ k < 6,
    resetAt (l.ix * homeSpan + R.PCH_MIR 1 m k) = resetAt (dieKey (R.PCH_STATE 1 m + 4 * k)) := by
  cases l <;> decide +kernel

theorem resetAt_fchMir (l : Lane) : ∀ m < 112, ∀ k < 4,
    resetAt (l.ix * homeSpan + R.FCH_MIR 0 m (1 + k)) = resetAt (dieKey (R.FCH_STATE 0 m + 4 + 4 * k)) := by
  cases l <;> decide +kernel

/-! ### A repeated step that copies one register -/

/-- What one of the steps brings about, and no other undoes, holds after all of them. -/
theorem forEach_reaches {keeps reached : State → Prop} {g : State → Nat → State} {x : Nat} {xs : List Nat} (hx : x ∈ xs)
    (hkeeps : ∀ t, ∀ y ∈ xs, keeps t → keeps (g t y)) (hreach : ∀ t, keeps t → reached (g t x))
    (hstay : ∀ t, ∀ y ∈ xs, y ≠ x → reached t → reached (g t y)) {s : State} (h : keeps s) : reached (s.forEach xs g) := by
  suffices H : ∀ ys, (∀ y ∈ ys, y ∈ xs) → ∀ t : State, keeps t → reached t ∨ x ∈ ys → reached (t.forEach ys g) from
    H xs (fun _ hy => hy) s h (.inr hx)
  intro ys hys
  induction ys with
  | nil => exact fun t _ ht => ht.resolve_right List.not_mem_nil
  | cons y ys ih =>
    intro t hk ht
    refine ih (fun z hz => hys z (List.mem_cons_of_mem _ hz)) (g t y) (hkeeps t y (hys y List.mem_cons_self) hk) ?_
    by_cases hy : y = x
    · exact .inl (hy ▸ hreach t hk)
    · exact ht.imp (hstay t y (hys y List.mem_cons_self) hy) fun hm => (List.mem_cons.mp hm).resolve_left (Ne.symm hy)

/-! ### The mirrors -/

/-- A register that holds no parish record is none that a frame's counts go to. -/
theorem parTake_spares {l k : Lane} {a : Nat} (ha : a < 0xE1700000) (s : State) {i : Nat} (hi : i < 64) (t : Tally) :
    s.Spares k a (s.parTake l i t) := by
  have hr (w : Nat) (hw : w < 5) : R.PARI_CH i w < 2 ^ 32 ∧ R.PARI_CH i w ≠ a := by unfold R.PARI_CH; omega
  have put (u : State) (w : Nat) (hw : w < 5) (f : Fld) (v : Nat) : u.Spares k a (u.setFld l (R.PARI_CH i w) f v) :=
    setFld_spares u (by omega) l (hr w hw).1 (hr w hw).2 f v
  unfold State.parTake
  split
  · exact .refl s
  · extract_lets add s1 e s2 s3
    have h1 : s.Spares k a s1 := put s 0 (by decide) _ _
    have h2 : s1.Spares k a s2 := by
      show s1.Spares k a (if i < 48 then _ else s1)
      split
      · exact (setReg_spares s1 (by omega) l (hr 1 (by decide)).1 (hr 1 (by decide)).2 _).trans
          (setReg_spares _ (by omega) l (hr 2 (by decide)).1 (hr 2 (by decide)).2 _)
      · exact .refl s1
    have h3 : s2.Spares k a s3 :=
      ((put s2 3 (by decide) _ _).trans (put _ 3 (by decide) _ _)).trans (put _ 4 (by decide) _ _)
    exact (((h1.trans h2).trans h3).trans (put s3 4 (by decide) _ _)).trans
      (setFld_spares _ (by omega) l (by decide) (by unfold R.PARI_STATUS; omega) _ _)

theorem pariIx_lt {d x : Nat} (hd : d < 2) (hx : x < 32) : pariIx d x < 64 := by
  unfold pariIx
  split
  · omega
  · split <;> omega

theorem takeTallies_spares {l k : Lane} {a : Nat} (ha : a < 0xE1700000) (s : State) {d : Nat} (hd : d < 2) :
    s.Spares k a (s.takeTallies l d) := by
  refine forEach_spares (fun t x hx => ?_) s
  have hi := pariIx_lt hd (List.mem_range.mp hx)
  cases l with
  | E => exact .trans (t := t.setOut d x _) (.of_regs rfl) (parTake_spares ha _ hi _)
  | W => exact .trans (t := t.setOut d x _) (.of_regs rfl) (parTake_spares ha _ hi _)

theorem State.setPw_regs (s : State) (d : Nat) (x : PowerRt) : (s.setPw d x).regs = s.regs := by
  unfold State.setPw
  split <;> rfl

theorem mem_inRange {lo hi a : Nat} : inRange lo hi a = true ↔ lo ≤ a ∧ a < hi := by
  unfold inRange
  exact decide_eq_true_iff

/-- A lane's mirror of the second power die shows its channels' status. -/
theorem mirrorPower_pch {s : State} (w : rfWf s.regs = true) (l : Lane) {m k : Nat} (hm : m < 24) (hk : k < 6) :
    (s.mirrorPower l 1).reg l (R.PCH_MIR 1 m k) = s.dieReg (R.PCH_STATE 1 m + 4 * k) := by
  have haddr : R.PCH_STATE 1 m + 4 * k + 0x2FE0 = R.PCH_MIR 1 m k := by unfold R.PCH_STATE R.PCH_MIR; omega
  have hlt : R.PCH_MIR 1 m k < 0xE0700000 ∧ 0xE0600000 ≤ R.PCH_MIR 1 m k := by unfold R.PCH_MIR; omega
  unfold State.mirrorPower
  extract_lets pc gd feed s1 x refused
  have h0 : (s.mirror l 0x2FE0 pc).reg l (R.PCH_MIR 1 m k) = s.dieReg (R.PCH_STATE 1 m + 4 * k) := by
    rw [← haddr]
    refine State.mirror_reg w ?_ ?_ ?_ ?_
    · show (inRange _ _ _ && _) = true
      rw [Bool.and_eq_true, mem_inRange, decide_eq_true_iff]
      unfold R.PCH_STATE
      omega
    · rw [haddr]
      unfold homeSpan
      omega
    · rw [haddr]
      exact sharedReg_pchMir m hm k hk
    · rw [Nat.add_assoc, haddr]
      exact resetAt_pchMir l m hm k hk
  have hgd (a : Nat) (h : gd a = true) : 0xE0700000 ≤ a ∧ a < 0xE0800000 := by
    have h := mem_inRange.mp (Bool.and_eq_true_iff.mp h).1
    unfold R.GDR_STATE at h
    omega
  have hfeed (a : Nat) (h : feed a = true) : a < 0xE0300000 := by
    rcases Bool.or_eq_true_iff.mp h with h | h
    · rw [beq_iff_eq.mp h]
      decide
    · have h := mem_inRange.mp (Bool.and_eq_true_iff.mp h).1
      unfold R.SUPC_FEED_CFG at h
      omega
  have h1 : (s.mirror l 0x2FE0 pc).Spares l (R.PCH_MIR 1 m k) s1 :=
    .trans (t := (s.mirror l 0x2FE0 pc).mirror l 0x2FE0 gd)
      (State.mirror_reg_ne (by omega) (fun a h => by have := hgd a h; omega) (fun a h => by have := hgd a h; unfold homeSpan; omega))
      (State.mirror_reg_ne (by omega) (fun a h => by have := hfeed a h; omega) (fun a h => by have := hfeed a h; unfold homeSpan; omega))
  refine Eq.trans ?_ h0
  show State.Spares l _ _ _
  refine .trans h1 ?_
  split
  · exact .trans (.of_regs (State.setPw_regs s1 1 _)) (setFld_spares _ (by omega) l (by decide) (by unfold R.SUPC_STATUS; omega) _ _)
  · exact .refl s1

/-- A lane's mirror of the first field die shows its channels' status. -/
theorem mirrorField_fch {s : State} (w : rfWf s.regs = true) (l : Lane) {m : Nat} (hm : m < 112) :
    (s.mirrorField l 0).reg l (R.FCH_MIR 0 m 0) = s.dieReg (R.FCH_STATE 0 m) ∧
    ∀ k < 4, (s.mirrorField l 0).reg l (R.FCH_MIR 0 m (1 + k)) = s.dieReg (R.FCH_STATE 0 m + 4 + 4 * k) := by
  unfold State.mirrorField
  extract_lets s1
  have hp (a : Nat) (h : (inRange (R.FCH_STATE 0 0) (R.FCH_STATE 0 (fcCount 0)) a &&
      decide ((a - R.FCH_STATE 0 0) % 0x40 < 0x14)) = true) : 0xE0801020 ≤ a ∧ a < 0xE0802C20 := by
    have h := mem_inRange.mp (Bool.and_eq_true_iff.mp h).1
    unfold R.FCH_STATE at h
    rw [show fcCount 0 = 112 from rfl] at h
    omega
  have w1 : rfWf s1.regs = true := State.mirror_wf w
  have hshared : sharedReg (R.FCH_STATE 0 m) = true := sharedReg_fchState (by decide) hm
  have hs1 : s1.reg .E (R.FCH_STATE 0 m) = s.dieReg (R.FCH_STATE 0 m) := by
    rw [← reg_shared hshared .E]
    refine State.mirror_reg_ne (by unfold R.FCH_STATE; omega) (fun a h => ?_) (fun a h => ?_)
    · have := hp a h
      unfold R.FCH_STATE
      omega
    · have := hp a h
      unfold homeSpan
      omega
  have haddr (y w : Nat) (hy : y < 112) (hw : w < 5) : R.FCH_MIR 0 y w < 2 ^ 32 ∧ R.FCH_MIR 0 y w ≠ R.FCH_STATE 0 m := by
    unfold R.FCH_MIR R.FCH_STATE
    omega
  constructor
  · refine forEach_reaches (keeps := fun t => rfWf t.regs = true ∧ s1.Spares .E (R.FCH_STATE 0 m) t)
      (reached := fun t => t.reg l (R.FCH_MIR 0 m 0) = s.dieReg (R.FCH_STATE 0 m)) (List.mem_range.mpr hm) ?_ ?_ ?_ ⟨w1, .refl s1⟩
    · rintro t y hy ⟨wt, ht⟩
      have hy := List.mem_range.mp hy
      exact ⟨State.setReg_wf wt, ht.trans (setReg_spares t (by unfold R.FCH_STATE; omega) l (haddr y 0 hy (by decide)).1
        (haddr y 0 hy (by decide)).2 _)⟩
    · rintro t ⟨wt, ht⟩
      exact (State.reg_setReg_self wt _ _ _).trans (Eq.trans ht hs1)
    · intro t y hy hne ht
      refine Eq.trans (setReg_spares t (haddr m 0 hm (by decide)).1 l (haddr y 0 (List.mem_range.mp hy) (by decide)).1 ?_ _) ht
      unfold R.FCH_MIR
      omega
  · intro k hk
    have hmir : R.FCH_STATE 0 m + 4 + 4 * k + 0x6FE0 = R.FCH_MIR 0 m (1 + k) := by unfold R.FCH_STATE R.FCH_MIR; omega
    have hlt := (haddr m (1 + k) hm (by omega)).1
    have h1 : s1.reg l (R.FCH_MIR 0 m (1 + k)) = s.dieReg (R.FCH_STATE 0 m + 4 + 4 * k) := by
      rw [← hmir]
      refine State.mirror_reg w ?_ ?_ ?_ ?_
      · rw [Bool.and_eq_true, mem_inRange, decide_eq_true_iff]
        rw [show fcCount 0 = 112 from rfl]
        unfold R.FCH_STATE
        omega
      · rwa [hmir]
      · rw [hmir]
        exact sharedReg_fchMir m hm k hk
      · rw [Nat.add_assoc, hmir]
        exact resetAt_fchMir l m hm k hk
    refine Eq.trans ?_ h1
    refine forEach_spares (fun t y hy => ?_) s1
    refine setReg_spares t hlt l (haddr y 0 (List.mem_range.mp hy) (by decide)).1 ?_ _
    unfold R.FCH_MIR
    omega

/-! ### The Commons' mirror in a lane -/

/-- A port's registers in a lane's mirror. -/
def State.mirrorPort (l : Lane) (s : State) (n : Nat) : State :=
  (((s.setReg l (R.CAN_MIR n 0) (s.shReg (R.CAN_STAT n))).setReg l (R.CAN_MIR n 1) (s.shReg (R.CAN_WAKE n))).setReg l
    (R.CAN_MIR n 2) (s.shReg (R.CAN_TXQ n))).forEach [0, 1, 2, 3] (fun s k =>
      s.setReg l (R.CAN_MIR n (4 + k)) (s.shReg (R.CAN_CNT n k)))

theorem forEach_wf {g : State → Nat → State} (hg : ∀ t k, rfWf t.regs = true → rfWf (g t k).regs = true) (xs : List Nat)
    {s : State} (w : rfWf s.regs = true) : rfWf (s.forEach xs g).regs = true := by
  induction xs generalizing s with
  | nil => exact w
  | cons x xs ih => exact ih (hg s x w)

section
variable {s : State} {l : Lane} {n : Nat}

theorem mirrorPort_wf (w : rfWf s.regs = true) : rfWf (s.mirrorPort l n).regs = true :=
  forEach_wf (fun _ _ => State.setReg_wf) _ (State.setReg_wf (State.setReg_wf (State.setReg_wf w)))

variable (hn : n < 16)
include hn

theorem canMir_lt {j : Nat} (hj : j < 8) : R.CAN_MIR n j < 2 ^ 32 := by
  unfold R.CAN_MIR
  omega

/-- What follows the first register of a port's mirror leaves every other register. -/
theorem mirrorPort_spares {t : State} {k : Lane} {a : Nat} (ha : a < 2 ^ 32) (hne : ∀ j < 8, 0 < j → R.CAN_MIR n j ≠ a)
    (h0 : t.Spares k a (s.setReg l (R.CAN_MIR n 0) (s.shReg (R.CAN_STAT n)))) : t.Spares k a (s.mirrorPort l n) := by
  have put (u : State) {j : Nat} (hj : j < 8) (hp : 0 < j) (v : Word) : u.Spares k a (u.setReg l (R.CAN_MIR n j) v) :=
    setReg_spares u ha l (canMir_lt hn hj) (hne j hj hp) v
  refine ((h0.trans (put _ (by decide) (by decide) _)).trans (put _ (by decide) (by decide) _)).trans
    (forEach_spares (fun u j hj => put u ?_ (Nat.add_pos_left (by decide) j) _) _)
  have : ∀ j ∈ [0, 1, 2, 3], 4 + j < 8 := by decide
  exact this j hj

theorem mirrorPort_reg (w : rfWf s.regs = true) :
    (s.mirrorPort l n).reg l (R.CAN_MIR n 0) = s.reg .E (R.CAN_STAT n) := by
  have h : (s.setReg l (R.CAN_MIR n 0) (s.shReg (R.CAN_STAT n))).Spares l (R.CAN_MIR n 0) (s.mirrorPort l n) :=
    mirrorPort_spares hn (canMir_lt hn (by decide)) (fun j _ hj => by unfold R.CAN_MIR; omega) (.refl _)
  exact Eq.trans h (State.reg_setReg_self w _ _ _)

/-- A port's mirror leaves every register outside it. -/
theorem mirrorPort_beside {k : Lane} {a : Nat} (ha : a < 2 ^ 32) (hne : ∀ j < 8, R.CAN_MIR n j ≠ a) :
    s.Spares k a (s.mirrorPort l n) :=
  mirrorPort_spares hn ha (fun j hj _ => hne j hj) (setReg_spares s ha l (canMir_lt hn (by decide)) (hne 0 (by decide)) _)

end

/-- The lanes' mirrors of LIN, Ethernet and network sleep are not among the CAN registers. -/
theorem mirror_can {s : State} {l : Lane} {p : Nat → Bool} (hp : ∀ a, p a = true → 0xE0C00000 ≤ a ∧ a < 0xE1200000) {a : Nat}
    (ha : a < 0xE0C00000) : s.Spares l a (s.mirror l 0x80000 p) :=
  State.mirror_reg_ne (by omega) (fun b hb => by have := hp b hb; omega) (fun b hb => by
    have := hp b hb
    unfold homeSpan
    omega)

/-- A lane's mirror of the Commons shows its CAN ports' status. -/
theorem mirrorCmn_can {s : State} (w : rfWf s.regs = true) (l : Lane) {n : Nat} (hn : n < 16) :
    (s.mirrorCmn l).reg l (R.CAN_MIR n 0) = s.dieReg (R.CAN_STAT n) := by
  have hstat : R.CAN_STAT n < 2 ^ 32 ∧ 0xE0B00000 ≤ R.CAN_STAT n := by unfold R.CAN_STAT; omega
  unfold State.mirrorCmn
  extract_lets s1 s2 s3 s4 s5
  have w2 : rfWf s2.regs = true := forEach_wf (fun _ _ => State.setReg_wf) _ (State.setReg_wf w)
  have h2 : s.Spares .E (R.CAN_STAT n) s2 := by
    refine .trans (t := s1) (setReg_spares s hstat.1 l (by decide) (by unfold R.CVC_SELM_STATUS; omega) _)
      (forEach_spares (fun t k hk => ?_) s1)
    have hk := List.mem_range.mp hk
    exact setReg_spares t hstat.1 l (by unfold R.CVC_SELM_PP_STAT; omega) (by unfold R.CVC_SELM_PP_STAT; omega) _
  have h3 : s3.reg l (R.CAN_MIR n 0) = s.dieReg (R.CAN_STAT n) := by
    rw [← reg_shared (sharedReg_canStat hn) .E]
    show (s2.forEach ports16 (State.mirrorPort l)).reg l _ = _
    refine forEach_reaches (keeps := fun t => rfWf t.regs = true ∧ s.Spares .E (R.CAN_STAT n) t)
      (reached := fun t => t.reg l (R.CAN_MIR n 0) = s.reg .E (R.CAN_STAT n)) (List.mem_range.mpr hn) ?_ ?_ ?_ ⟨w2, h2⟩
    · rintro t y hy ⟨wt, ht⟩
      refine ⟨mirrorPort_wf wt, ht.trans (mirrorPort_beside (List.mem_range.mp hy) hstat.1 fun j _ => ?_)⟩
      unfold R.CAN_MIR R.CAN_STAT
      omega
    · rintro t ⟨wt, ht⟩
      exact (mirrorPort_reg hn wt).trans ht
    · intro t y hy hne ht
      refine Eq.trans (mirrorPort_beside (List.mem_range.mp hy) (canMir_lt hn (by decide)) fun j hj => ?_) ht
      unfold R.CAN_MIR
      omega
  have hmir : R.CAN_MIR n 0 < 0xE0C00000 := by unfold R.CAN_MIR; omega
  refine Eq.trans ?_ h3
  show State.Spares l (R.CAN_MIR n 0) s3 _
  refine .trans (t := s4) (mirror_can (fun a h => ?_) hmir)
    (.trans (t := s5) (mirror_can (fun a h => ?_) hmir) (mirror_can (fun a h => ?_) hmir))
  · simp only [Bool.or_eq_true, Bool.and_eq_true, mem_inRange, R.LIN_STAT, R.LIN_FR_CFG] at h
    omega
  · simp only [Bool.and_eq_true, mem_inRange, R.ETHS_P_STAT] at h
    omega
  · simp only [Bool.or_eq_true, Bool.and_eq_true, beq_iff_eq, mem_inRange, R.NMS_WAKE_PENDING, R.NMS_CNT, R.NMS_COVE_STAT] at h
    omega

/-! ### A die's status frame -/

/-- The mirrors that a die's status frame brings a lane. -/
def State.mirrored (s : State) (d : Die) (l : Lane) : State :=
  match d with
  | .P0 => (s.mirrorPower l 0).takeTallies l 0
  | .P1 => (s.mirrorPower l 1).takeTallies l 1
  | .F0 => s.mirrorField l 0
  | .F1 => s.mirrorField l 1
  | .FI => s.mirrorField l 2
  | .CMN => s.mirrorCmn l

theorem sub_mirrored {m : Nat} (h : Nat.land m 0x1a000008 = m) : Sub m 0x1a000008 := Sub.of (Sub.refl _) h

theorem mirrored_kept {s : State} (h : s.Inv) (d : Die) (l : Lane) : State.Kept ⟨0x1a000008, s⟩ (s.mirrored d l) := by
  have power (n : Nat) : State.Kept ⟨0x1a000008, s⟩ ((s.mirrorPower l n).takeTallies l n) :=
    State.takeTallies_kept (sub_mirrored (by decide)) (State.mirrorPower_kept (sub_mirrored (by decide)) (.refl h))
  have field (n : Nat) : State.Kept ⟨0x1a000008, s⟩ (s.mirrorField l n) :=
    State.mirrorField_kept (sub_mirrored (by decide)) (.refl h)
  cases d with
  | P0 => exact power 0
  | P1 => exact power 1
  | F0 => exact field 0
  | F1 => exact field 1
  | FI => exact field 2
  | CMN => exact State.mirrorCmn_kept (sub_mirrored (by decide)) (.refl h)

theorem mirrored_die {s : State} (h : s.Inv) (d : Die) (l : Lane) (e : Die) : (s.mirrored d l).die e = s.die e :=
  State.Kept.die (mirrored_kept h d l) (by unfold NoDies; decide) e

/-- LAST_CYCLE and SRC of the die, as its status frame shows them. -/
def State.shown (s : State) (d : Die) (l : Lane) (x : DieRt) : State :=
  (s.setReg l (R.FERRY_DIE_LAST d.ix) (BitVec.ofNat 32 (x.lastCycle.getD 0))).setReg l (R.FERRY_DIE_SRC d.ix) (BitVec.ofNat 32 x.src)

theorem State.setReg_die (s : State) (l : Lane) (a : Nat) (v : Word) (e : Die) : (s.setReg l a v).die e = s.die e := by
  cases e <;> simp only [State.die, State.setReg_p0, State.setReg_p1, State.setReg_f0, State.setReg_f1, State.setReg_fi,
    State.setReg_cmn]

theorem shown_die {s : State} (d : Die) (l : Lane) (x : DieRt) (e : Die) : (s.shown d l x).die e = s.die e :=
  (State.setReg_die ..).trans (State.setReg_die ..)

/-- The status frame of a die that has not restarted. -/
theorem statusFrame_eq {s : State} (h : s.Inv) {d : Die} {l : Lane} (hr : (s.die d).restarted = false) :
    s.statusFrame d l = (s.mirrored d l).shown d l (s.die d) := by
  have hrest : ∀ t : State, t.die d = s.die d → t.restoreDie l d = t := by
    intro t ht
    unfold State.restoreDie
    dsimp only
    rw [ht, hr]
    rfl
  have heq : s.statusFrame d l = ((s.mirrored d l).shown d l ((s.mirrored d l).die d)).restoreDie l d := by
    unfold State.statusFrame State.shown State.mirrored
    cases d <;> dsimp only
  rw [heq, mirrored_die h]
  exact hrest _ ((shown_die d l _ d).trans (mirrored_die h d l d))

theorem die_ix_lt (d : Die) : d.ix < 6 := by cases d <;> decide

section
variable {s : State} (d : Die) (l : Lane) (x : DieRt)

theorem ferryDie_lt : R.FERRY_DIE_LAST d.ix < 0xE0300200 ∧ R.FERRY_DIE_SRC d.ix < 0xE0300200 := by
  have := die_ix_lt d
  unfold R.FERRY_DIE_LAST R.FERRY_DIE_SRC
  omega

theorem shown_spares {k : Lane} {a : Nat} (hlo : 0xE0300200 ≤ a) (ha : a < 2 ^ 32) : s.Spares k a (s.shown d l x) := by
  obtain ⟨h1, h2⟩ := ferryDie_lt d
  exact (setReg_spares s ha l (by omega) (by omega) _).trans (setReg_spares _ ha l (by omega) (by omega) _)

theorem shown_last (w : rfWf s.regs = true) :
    (s.shown d l x).reg l (R.FERRY_DIE_LAST d.ix) = BitVec.ofNat 32 (x.lastCycle.getD 0) := by
  obtain ⟨h1, h2⟩ := ferryDie_lt d
  exact Eq.trans (setReg_spares _ (by omega) l (by omega) (by unfold R.FERRY_DIE_LAST R.FERRY_DIE_SRC; omega) _)
    (State.reg_setReg_self w _ _ _)

theorem shown_src (w : rfWf s.regs = true) : (s.shown d l x).reg l (R.FERRY_DIE_SRC d.ix) = BitVec.ofNat 32 x.src :=
  State.reg_setReg_self (State.setReg_wf w) _ _ _

end

theorem statusFrame_idle {s : State} {d : Die} {l : Lane} (h : ¬ ((s.die d).up = true ∧ s.forwards l = true)) :
    exec (.statusFrame d l) s = .next s := by
  show Host.Outcome.next _ = _
  rw [if_neg (by rwa [Bool.and_eq_true])]

/-- A lane that sees a die's status frame shows what the die has (R50, R262). -/
theorem statusFrame_shows {s : State} (h : s.Inv) {d : Die} {l : Lane} (hs : (s.die d).up = true ∧ s.forwards l = true)
    (hr : (s.die d).restarted = false) : Completes (exec (.statusFrame d l) s) (fun t =>
      t.reg l (R.FERRY_DIE_LAST d.ix) = BitVec.ofNat 32 ((s.die d).lastCycle.getD 0) ∧
      t.reg l (R.FERRY_DIE_SRC d.ix) = BitVec.ofNat 32 (s.die d).src ∧
      (d = .P1 → ∀ m < 24, ∀ k < 6, t.reg l (R.PCH_MIR 1 m k) = s.dieReg (R.PCH_STATE 1 m + 4 * k)) ∧
      (d = .F0 → ∀ m < 112, t.reg l (R.FCH_MIR 0 m 0) = s.dieReg (R.FCH_STATE 0 m) ∧
        ∀ k < 4, t.reg l (R.FCH_MIR 0 m (1 + k)) = s.dieReg (R.FCH_STATE 0 m + 4 + 4 * k)) ∧
      (d = .CMN → ∀ n < 16, t.reg l (R.CAN_MIR n 0) = s.dieReg (R.CAN_STAT n))) := by
  refine ⟨(s.mirrored d l).shown d l (s.die d), ?_, ?_⟩
  · rw [← statusFrame_eq h hr]
    show Host.Outcome.next _ = _
    rw [if_pos (by rwa [Bool.and_eq_true])]
  · have w := (mirrored_kept h d l).inv.regs
    refine ⟨shown_last d l _ w, shown_src d l _ w, ?_, ?_, ?_⟩
    · rintro rfl m hm k hk
      have hlt : 0xE0300200 ≤ R.PCH_MIR 1 m k ∧ R.PCH_MIR 1 m k < 0xE1700000 := by unfold R.PCH_MIR; omega
      exact Eq.trans (shown_spares _ l _ hlt.1 (by omega))
        (Eq.trans (takeTallies_spares hlt.2 _ (by decide)) (mirrorPower_pch h.regs l hm hk))
    · rintro rfl m hm
      have hlt (j : Nat) (hj : j < 5) : 0xE0300200 ≤ R.FCH_MIR 0 m j ∧ R.FCH_MIR 0 m j < 2 ^ 32 := by unfold R.FCH_MIR; omega
      obtain ⟨h0, h1⟩ := mirrorField_fch h.regs l hm
      exact ⟨Eq.trans (shown_spares _ l _ (hlt 0 (by decide)).1 (hlt 0 (by decide)).2) h0,
        fun k hk => Eq.trans (shown_spares _ l _ (hlt (1 + k) (by omega)).1 (hlt (1 + k) (by omega)).2) (h1 k hk)⟩
    · rintro rfl n hn
      have hlt : 0xE0300200 ≤ R.CAN_MIR n 0 ∧ R.CAN_MIR n 0 < 2 ^ 32 := by unfold R.CAN_MIR; omega
      exact Eq.trans (shown_spares _ l _ hlt.1 hlt.2) (mirrorCmn_can h.regs l hn)

/-! ### A field frame with one copy (R148) -/

theorem frameContent_field {s : State} {l : Lane} {d : Nat} (hd : d ≤ 2) (hs : (s.lane l).strapOk = true)
    (ha : ∀ c ∈ s.commits, c.block ≠ 21) (cycle : Nat) (holder : Bool) :
    s.frameContent (fieldDie d) l cycle holder = s.frameAtField l d cycle := by
  have hattr (e : Die) : s.attrFrame e = s := by
    have hnone : s.commits.filter (fun c => c.block == 21 && c.region == 1 + e.ix && c.carried) = [] :=
      List.filter_eq_nil_iff.mpr fun c hc => by simp [ha c hc]
    unfold State.attrFrame
    rw [hnone]
    rfl
  unfold State.frameContent
  dsimp only
  rw [hs, hattr]
  obtain rfl | rfl | rfl : d = 0 ∨ d = 1 ∨ d = 2 := by omega
  · rfl
  · rfl
  · rfl

theorem chkFch_setDie (s : State) (d : Die) (x : DieRt) (k : Commit) : chkFch (s.setDie d x) k = chkFch s k := by
  cases d <;> rfl

/-- The one pending copy: a channel's duty, for entry `n`, in the frames of lane `l`. -/
structure DutyCopy (s : State) (k : Commit) (l : Lane) (m n : Nat) (v : Word) : Prop where
  commits : s.commits = [k]
  block : k.block = 8
  region : k.region ≤ 2
  lane : k.lane = l
  carried : k.carried = true
  channel : m < fcCount k.region
  writes : k.writes = [(R.FCH_DUTY k.region m, v)]
  lsns : k.lsns = [n]
  ok : chkFch s k = true

section
variable {s : State} {k : Commit} {l : Lane} {m n : Nat} {v : Word} (hk : DutyCopy s k l m n v)
include hk

theorem DutyCopy.copies : s.frameCopies l 8 k.region = [k] := by
  unfold State.frameCopies
  rw [hk.commits]
  simp [inFrame, Commit.cmnHeld, hk.block, hk.lane, hk.carried]

theorem DutyCopy.shared : sharedReg (R.FCH_DUTY k.region m) = true := by
  have hm : m < 112 := fcIndex_lt (List.mem_range.mpr hk.channel)
  have hd := hk.region
  exact sharedReg_field (by unfold slotOf R.FCH_DUTY; omega) (by unfold R.FCH_DUTY; omega)

theorem DutyCopy.far : Far (R.FCH_DUTY k.region m) := by
  have hm : m < 112 := fcIndex_lt (List.mem_range.mpr hk.channel)
  have hd := hk.region
  exact far_of (by unfold R.FCH_DUTY; omega)

theorem DutyCopy.taking_commits : (s.taking k).commits = [] := by
  show s.commits.filter _ = []
  rw [hk.commits]
  simp [Commit.isAt]

/-- The copy as the die takes it: the active set has its value, and its entry is done. -/
theorem DutyCopy.applyCommit (a : Nat) (f : Fld) (err : Nat) :
    s.applyCommit true a f err k = ((s.taking k).activate l (R.FCH_DUTY k.region m) v).done n := by
  have hc : ((s.taking k).activate l (R.FCH_DUTY k.region m) v).commits = [] :=
    (State.setReg_commits ..).trans hk.taking_commits
  have hall : s.applyCommit true a f err k = ((s.taking k).activateAll k.lane k.writes).settleAll k.lsns := rfl
  rw [hall, hk.writes, hk.lsns, hk.lane]
  show ((s.taking k).activate l (R.FCH_DUTY k.region m) v).settle n = _
  rw [State.settle, hc]
  rfl

/-- What the taking of the copy brings about. -/
structure DutyTaken (s : State) (a n : Nat) (v : Word) (t : State) : Prop where
  inv : t.Inv
  commits : t.commits = []
  reg : t.reg .E a = (s.reg .E a &&& ~~~(rwsMask a)) ||| (v &&& rwsMask a)
  disposes : s.Disposes t n dDONE 0

theorem DutyCopy.applyCommit_taken (h : s.Inv) (a : Nat) (f : Fld) (err : Nat) :
    DutyTaken s (R.FCH_DUTY k.region m) n v (s.applyCommit true a f err k) := by
  have hinv : (s.applyCommit true a f err k).Inv :=
    (State.applyCommit_kept (φ := ⟨2 ^ 80 - 1, s⟩) (Sub.all (by decide)) (.refl h)).inv
  have hw : rfWf (s.taking k).regs = true := h.regs
  refine ⟨hinv, ?_, ?_, ?_⟩ <;> rw [hk.applyCommit]
  · exact (State.done_ended _ n).commits.trans ((State.setReg_commits ..).trans hk.taking_commits)
  · rw [State.done_far [] _ n .E _ hk.far (by simp), reg_shared hk.shared .E, ← reg_shared hk.shared l,
      State.activate_reg_self hw, reg_shared hk.shared, reg_shared hk.shared]
    rfl
  · have hled : ((s.taking k).activate l (R.FCH_DUTY k.region m) v).led = s.led := State.setReg_led ..
    exact (dispose_disposes _ n dDONE 0).of_led hled rfl

end

/-- What a field die does after that changes none of it. -/
theorem DutyTaken.next {s t u : State} {a n : Nat} {v : Word} (h : DutyTaken s a n v t) {m : Nat} (k : State.Kept ⟨m, t⟩ u)
    (hm : m.testBit 8 = false ∧ m.testBit 9 = false) (hs : t.Spares .E a u) : DutyTaken s a n v u := by
  have ho : State.Only m t u := k.only
  refine ⟨k.inv, (ho.commits.resolve_right (by rw [hm.2]; decide)).trans h.commits, Eq.trans hs h.reg, ?_⟩
  exact h.disposes.of_led rfl (ho.led.resolve_right (by rw [hm.1]; decide))

/-- What follows a commit at a field die looks at the registers alone of the state before it. -/
theorem afterFcCommit_regs (s t : State) (d : Nat) (ws : List RegCell) :
    State.afterFcCommit s t d ws = State.afterFcCommit { t with regs := s.regs } t d ws := rfl

section
variable {s : State} {k : Commit} {l : Lane} {m n : Nat} {v : Word} (hk : DutyCopy s k l m n v)
include hk

theorem DutyCopy.applyField (h : s.Inv) : DutyTaken s (R.FCH_DUTY k.region m) n v (applyField s k) := by
  unfold Sys2Proof.Machine.applyField
  extract_lets ok t
  have hok : ok = true := hk.ok
  have ht : DutyTaken s (R.FCH_DUTY k.region m) n v t := by
    show DutyTaken s _ n v (s.applyCommit ok _ _ _ k)
    rw [hok]
    exact hk.applyCommit_taken h _ _ _
  rw [hok, if_pos rfl, afterFcCommit_regs]
  clear_value t
  have hkept : State.Kept ⟨0x20000008, t⟩ (State.afterFcCommit { t with regs := s.regs } t k.region k.writes) :=
    State.afterFcCommit_kept (Sub.refl _) (kept_regs (.refl ht.inv) (show Nat.testBit 0x20000008 3 = true by decide) h.regs) (.refl ht.inv)
  refine ht.next hkept (by decide) (afterFcCommit_spares (dutyAt_duty hk.region hk.channel) _ _ hk.region fun j hj => ?_)
  have hne : R.FCH_DUTY k.region m ≠ R.FCH_TGT k.region j := by
    unfold R.FCH_DUTY R.FCH_TGT
    omega
  have hget : cellsGet k.writes (R.FCH_TGT k.region j) = none := by
    rw [hk.writes]
    exact if_neg hne
  unfold fcClearIn
  rw [hget]

/-- The frame that brings the copy. -/
theorem DutyCopy.frameAtField (h : s.Inv) (he : s.evtRecs = []) (cycle : Nat) :
    DutyTaken s (R.FCH_DUTY k.region m) n v (s.frameAtField l k.region cycle) := by
  have hd : DutyAt (R.FCH_DUTY k.region m) := dutyAt_duty hk.region hk.channel
  have h1 := hk.applyField h
  have he1 : (Sys2Proof.Machine.applyField s k).evtRecs = [] := by
    have hkept : State.Kept ⟨0x14000000020000708, s⟩ (Sys2Proof.Machine.applyField s k) := applyField_kept (Sub.refl _) (.refl h)
    exact (hkept.only.evtRecs.resolve_right (show ¬ Nat.testBit 0x14000000020000708 37 = true by decide)).trans he
  have htake : s.takeCopiesOf l 8 k.region Sys2Proof.Machine.applyField = Sys2Proof.Machine.applyField s k := by
    unfold State.takeCopiesOf
    rw [hk.copies]
    show (if (Sys2Proof.Machine.applyField s k).commits.contains k then _ else (Sys2Proof.Machine.applyField s k).dropTwin k) = _
    rw [h1.commits, if_neg (by simp), State.dropTwin, h1.commits]
    rfl
  unfold State.frameAtField
  rw [htake]
  generalize Sys2Proof.Machine.applyField s k = t at h1 he1
  extract_lets news t2
  have h2 : DutyTaken s (R.FCH_DUTY k.region m) n v t2 := by
    refine h1.next (State.takeEvents_kept (Sub.refl 0x2000000008) (.refl h1.inv)) (by decide) ?_
    show t.Spares .E _ (t.takeEvents 8 k.region)
    unfold State.takeEvents
    dsimp only
    rw [he1]
    exact .of_regs rfl
  split
  · exact h2.next (State.fieldFrame_kept (Sub.refl 0x1e0000008) (.refl h2.inv)) (by decide) (fieldFrame_spares hd t2 hk.region cycle news)
  · exact h2.next (State.setShBit_kept (Sub.refl 0x8) (.refl h2.inv)) (by decide)
      (setShBit_spares hd t2 (by have := hk.region; unfold OffDuty R.FCH_DIE_STATUS; omega) _ _)

end

theorem State.setDie_commits (s : State) (d : Die) (x : DieRt) : (s.setDie d x).commits = s.commits := by cases d <;> rfl

theorem State.setDie_led (s : State) (d : Die) (x : DieRt) : (s.setDie d x).led = s.led := by cases d <;> rfl

theorem State.setDie_evtRecs (s : State) (d : Die) (x : DieRt) : (s.setDie d x).evtRecs = s.evtRecs := by cases d <;> rfl

theorem State.setDie_lane (s : State) (d : Die) (x : DieRt) (l : Lane) : (s.setDie d x).lane l = s.lane l := by
  cases d <;> rfl

theorem DutyCopy.setDie {s : State} {k : Commit} {l : Lane} {m n : Nat} {v : Word} (hk : DutyCopy s k l m n v) (d : Die) (x : DieRt) :
    DutyCopy (s.setDie d x) k l m n v :=
  { hk with
    commits := (State.setDie_commits s d x).trans hk.commits
    ok := (chkFch_setDie s d x k).trans hk.ok }

/-- An applied field frame brings its commit (R148). -/
theorem copy_field {s : State} {c : FrameCopy} (h : s.Inv) (hup : (s.die c.die).up = true) (hcrc : c.crcOk = true)
    (hw : (s.die c.die).window = none) (ha : Ahead (s.die c.die) c) (hc : c.holder = true)
    (hhigh : (s.die c.die).highEpoch.getD 0 ≤ c.epoch) {k : Commit} {m n : Nat} {v : Word} (hk : DutyCopy s k c.lane m n v)
    (hstrap : (s.lane c.lane).strapOk = true) (he : s.evtRecs = []) (hd : c.die = fieldDie k.region) :
    Completes (exec (.frameCopyArrival c) s) (fun t => t.commits = [] ∧
      t.reg .E (R.FCH_DUTY k.region m) =
        (s.reg .E (R.FCH_DUTY k.region m) &&& ~~~(rwsMask (R.FCH_DUTY k.region m))) ||| (v &&& rwsMask (R.FCH_DUTY k.region m)) ∧
      s.Disposes t n dDONE 0) := by
  refine ⟨_, copy_opens hup hcrc hw ha, ?_⟩
  beta_reduce
  rw [inWindow_holder hc (noted_high_le hc hhigh) rfl rfl, applyCopy_eq, State.enter, State.setDie_setDie, State.noted, State.setDie_setDie]
  generalize DieRt.taking _ _ _ = x
  have hk1 := hk.setDie c.die x
  have hblock : ∀ y ∈ (s.setDie c.die x).commits, y.block ≠ 21 := by
    intro y hy
    rw [hk1.commits, List.mem_singleton] at hy
    rw [hy, hk.block]
    decide
  have hcontent : (s.setDie c.die x).frameContent c.die c.lane c.cycle c.holder =
      (s.setDie c.die x).frameAtField c.lane k.region c.cycle := by
    have hf := frameContent_field (s := s.setDie c.die x) (l := c.lane) hk.region (by rwa [State.setDie_lane]) hblock c.cycle c.holder
    rwa [← hd] at hf
  obtain ⟨-, hcommits, hreg, hdisp⟩ := hk1.frameAtField (h.setDie c.die x) ((State.setDie_evtRecs ..).trans he) c.cycle
  rw [hcontent]
  refine ⟨hcommits, ?_, hdisp.of_led (State.setDie_led ..) rfl⟩
  rw [hreg, State.reg, State.setDie_regs]
  rfl

/-! ### Copies that a die discards unseen -/

theorem copy_down {s : State} {c : FrameCopy} (h : (s.die c.die).up = false) : exec (.frameCopyArrival c) s = .next s := by
  show Host.Outcome.next _ = _
  rw [h]
  rfl

theorem copy_badCrc {s : State} (h : s.Inv) {c : FrameCopy} (hup : (s.die c.die).up = true) (hcrc : c.crcOk = false) :
    Completes (exec (.frameCopyArrival c) s) (fun t => s.FrameCounted t 2) := by
  refine ⟨s.countFrames 2, ?_, countFrames_counted h.regs (by decide)⟩
  show Host.Outcome.next _ = _
  rw [hup, hcrc]
  rfl

end Sys2Proof.Machine

open Sys2Proof Sys2Proof.Machine in
/-- Settles O51: what becomes of a copy follows the die's window (R145 to R149): none open (`copy_behind`, `copy_opens_…`), one
open beside or with the copy's cycle (`copy_beside`, `copy_again`, and the second copies), and the window's close. A field
frame brings its commit (`copy_field`), a status frame what the die has (`statusFrame_shows`), and a mismatch of the Commons'
halves its safe state. -/
theorem frameAcceptance : Obligations.FrameAcceptance := by
  unfold Obligations.FrameAcceptance
  intro high good ahead back opened took conflict
  refine ⟨fun s c h => ⟨copy_down, copy_badCrc h, fun hup hcrc => copy_high hup hcrc h⟩, ?_, ?_, ?_, ?_, ?_, ?_, ?_⟩
  · rintro s c ⟨h, hup, hcrc⟩ hw
    exact ⟨copy_behind hup hcrc hw h, fun ha => copy_opens_holder hup hcrc hw ha h, fun ha => copy_opens_stale hup hcrc hw ha h,
      fun ha => copy_opens_standby hup hcrc hw ha h, copy_opens_held hup hcrc hw⟩
  · rintro s c ⟨h, hup, hcrc⟩ w hw
    refine ⟨copy_beside hup hcrc hw h, fun he hgot => copy_again hup hcrc hw h he ?_⟩
    cases hl : c.lane <;> rwa [hl] at hgot
  · rintro s c w ⟨h, hup, hcrc⟩ hw he hgot
    have hhad : w.had c.lane = false := by cases hl : c.lane <;> rwa [hl] at hgot
    exact ⟨fun a ha => copy_compared hup hcrc hw he hhad h ha, fun a ha => copy_rival hup hcrc hw he hhad h ha,
      fun a ha => copy_higher hup hcrc hw he hhad h ha, copy_first_applied hup hcrc hw he hhad h⟩
  · intro s d h
    refine ⟨close_idle, fun hup w hw => ⟨?_, close_plain h hup hw⟩⟩
    rintro ha c hh rfl
    exact close_held h hup hw ha hh
  · rintro s c k m v n ⟨h, hup, hcrc⟩ hw ha hc hhigh hstrap he hreg hd hm hcommits hblock hlane hcarried hwrites hlsns hok
    exact copy_field h hup hcrc hw ha hc hhigh ⟨hcommits, hblock, hreg, hlane, hcarried, hm, hwrites, hlsns, hok⟩ hstrap he hd
  · intro s d l h
    exact ⟨statusFrame_idle, statusFrame_shows h⟩
  · intro s e w h
    exact ⟨commonsMismatch_halted, commonsMismatch_running h, fun _ => commonsSafeState_calm, commonsSafeState_safe h⟩

namespace Sys2Proof.Machine

/-! ### The registers that an operation leaves as they were -/

/-- The cells of the register file whose keys `P` names are as they were. -/
def State.Leaves (P : Nat → Bool) (s t : State) : Prop :=
  t.regs.filter (fun c => P c.1) = s.regs.filter (fun c => P c.1)

section
variable {P : Nat → Bool} {s t u : State}

theorem State.Leaves.refl (P : Nat → Bool) (s : State) : s.Leaves P s := rfl

theorem State.Leaves.trans (h : s.Leaves P t) (k : t.Leaves P u) : s.Leaves P u := Eq.trans k h

theorem State.Leaves.of_regs (h : t.regs = s.regs) : s.Leaves P t := congrArg _ h

/-- A register that `P` names reads as before. -/
theorem State.Leaves.get (h : s.Leaves P t) {k : Nat} (hk : P k = true) : rfGet t.regs k = rfGet s.regs k := by
  have hget (cs : List RegCell) : cellsGet (cs.filter (fun c => P c.1)) k = cellsGet cs k :=
    cellsGet_filter cs _ k (fun c _ hc => hc ▸ hk)
  unfold rfGet
  rw [← hget t.regs, h, hget]

theorem State.Leaves.reg (h : s.Leaves P t) {l : Lane} {a : Nat} (hk : P (regKey l.ix a) = true) : t.reg l a = s.reg l a :=
  h.get hk

theorem cellsInsert_filter {k : Nat} (hk : P k = false) (v : Word) (cs : List RegCell) :
    (cellsInsert cs k v).filter (fun c => P c.1) = cs.filter (fun c => P c.1) := by
  induction cs with
  | nil => simp [cellsInsert, hk]
  | cons c cs ih =>
    unfold cellsInsert
    split
    · simp [hk]
    · split
      next he => simp [he, hk]
      next => simp [List.filter_cons, ih]

theorem cellsErase_filter {k : Nat} (hk : P k = false) (cs : List RegCell) :
    (cellsErase cs k).filter (fun c => P c.1) = cs.filter (fun c => P c.1) := by
  induction cs with
  | nil => rfl
  | cons c cs ih =>
    unfold cellsErase
    split
    next he => simp [he, hk]
    next => simp [List.filter_cons, ih]

theorem State.Leaves.setReg (s : State) {l : Lane} {a : Nat} (v : Word) (hk : P (regKey l.ix a) = false) :
    s.Leaves P (s.setReg l a v) := by
  show (rfPut s.regs _ v).filter _ = _
  unfold rfPut
  split
  · exact cellsErase_filter hk _
  · exact cellsInsert_filter hk v _

theorem State.Leaves.setShadow (s : State) {l : Lane} {a : Nat} (v : Word) (hk : P (shadowKey l.ix a) = false) :
    s.Leaves P (s.setShadow l a v) := by
  show (rfPut s.regs _ v).filter _ = _
  unfold rfPut
  split
  · exact cellsErase_filter hk _
  · exact cellsInsert_filter hk v _

theorem rfReset_filter {lo hi : Nat} (hk : ∀ k, lo ≤ k → k < hi → P k = false) (rf : List RegCell) :
    (rfReset rf lo hi).filter (fun c => P c.1) = rf.filter (fun c => P c.1) := by
  unfold rfReset
  rw [List.filter_filter]
  refine List.filter_congr (fun c _ => ?_)
  by_cases hc : lo ≤ c.1 ∧ c.1 < hi
  · rw [hk c.1 hc.1 hc.2, Bool.false_and]
  · have h : (decide (lo ≤ c.1) && decide (c.1 < hi)) = false := by simpa using hc
    rw [h, Bool.not_false, Bool.and_true]

theorem State.Leaves.forEach {g : State → Nat → State} {xs : List Nat} (hg : ∀ t, ∀ x ∈ xs, State.Leaves P t (g t x)) (s : State) :
    s.Leaves P (s.forEach xs g) := by
  induction xs generalizing s with
  | nil => exact .refl P s
  | cons x xs ih => exact (hg s x List.mem_cons_self).trans (ih (fun t y hy => hg t y (List.mem_cons_of_mem _ hy)) _)

theorem State.Leaves.foldl {α : Type} {g : State → α → State} (hg : ∀ t x, State.Leaves P t (g t x)) (xs : List α) (s : State) :
    s.Leaves P (xs.foldl g s) :=
  foldl_rel (.refl P) (fun _ _ _ h k => h.trans k) hg xs s

end

/-! ### The registers that a reset of a lane may write -/

/-- Addresses in the blocks of RSTC (but for the cause and the watchdogs), CLKC, FERRY, LEDG, SCSM, IOV, SMIO, LSTP, LHS and UPD, and
PARI_CFG (Table 1.5). -/
def Loose (a : Nat) : Prop :=
  (0xE0000004 ≤ a ∧ a < 0xE0000100) ∨ (0xE0000160 ≤ a ∧ a < 0xE0200000) ∨ (0xE0300000 ≤ a ∧ a < 0xE0600000) ∨
    (0xE1200000 ≤ a ∧ a < 0xE1700004)

/-- `P` names no such register of a lane, and no shadow register. -/
structure Calm (P : Nat → Bool) : Prop where
  lane : ∀ (l : Lane) (a : Nat), Loose a → P (l.ix * homeSpan + a) = false
  shadow : ∀ k, 3 * homeSpan ≤ k → P k = false

/-- The blocks of a lane alone are not shared (Table 1.5). -/
theorem sharedReg_own {a b : Nat} (hb : b ∈ [0, 1, 3, 4, 5, 9, 15, 16, 18, 19, 20, 21, 22, 23])
    (ha : 0xE0000000 + b * 0x100000 ≤ a ∧ a < 0xE0100000 + b * 0x100000) : sharedReg a = false := by
  have hs : slotOf a = b := by unfold slotOf; omega
  unfold sharedReg
  rw [hs]
  fin_cases hb <;> rfl

theorem regKey_own {a : Nat} (h : sharedReg a = false) (l : Lane) : regKey l.ix a = l.ix * homeSpan + a := by
  unfold regKey
  rw [h, lane_ix_mod]
  rfl

theorem regKey_loose {a : Nat} (h : Loose a) (l : Lane) : regKey l.ix a = l.ix * homeSpan + a := by
  refine regKey_own (sharedReg_own (b := (a - 0xE0000000) / 0x100000) ?_ ?_) l
  · unfold Loose at h
    simp only [List.mem_cons, List.not_mem_nil, or_false]
    omega
  · unfold Loose at h
    omega

theorem shadowKey_ge (l a : Nat) : 3 * homeSpan ≤ shadowKey l a :=
  Nat.le_add_right_of_le (Nat.mul_le_mul_right _ (Nat.le_add_right ..))

section
variable {P : Nat → Bool} (hP : Calm P)
include hP

theorem Calm.setReg (s : State) (l : Lane) {a : Nat} (v : Word) (ha : Loose a) : s.Leaves P (s.setReg l a v) :=
  .setReg s v (regKey_loose ha l ▸ hP.lane l a ha)

theorem Calm.setFld (s : State) (l : Lane) {a : Nat} (f : Fld) (v : Nat) (ha : Loose a) : s.Leaves P (s.setFld l a f v) :=
  hP.setReg s l _ ha

theorem Calm.setBitF (s : State) (l : Lane) {a : Nat} (f : Fld) (b : Bool) (ha : Loose a) : s.Leaves P (s.setBitF l a f b) :=
  hP.setReg s l _ ha

theorem Calm.setFldBoth (s : State) {a : Nat} (f : Fld) (v : Nat) (ha : Loose a) : s.Leaves P (s.setFldBoth a f v) :=
  (hP.setFld s .E f v ha).trans (hP.setFld _ .W f v ha)

theorem Calm.countBoth (s : State) {a : Nat} (ha : Loose a) : s.Leaves P (s.countBoth a) :=
  (hP.setReg s .E _ ha).trans (hP.setReg _ .W _ ha)

theorem Calm.reloadShadow (s : State) (l : Lane) (lo hi : Nat) : s.Leaves P (s.reloadShadow l lo hi) := by
  have hw (ws : List RegCell) (t : State) : t.Leaves P (t.writeShadows l ws) := by
    induction ws generalizing t with
    | nil => exact .refl P t
    | cons w ws ih =>
      exact (State.Leaves.setShadow t _ (hP.shadow _ (shadowKey_ge ..))).trans (ih _)
  have hr : s.Leaves P { s with regs := rfReset s.regs (shadowKey l.ix lo) (shadowKey l.ix hi) } :=
    rfReset_filter (fun k hk _ => hP.shadow k ((shadowKey_ge ..).trans hk)) s.regs
  exact hr.trans (hw _ _)

/-! #### The ledger -/

theorem Calm.syncLedgLane (s : State) (l : Lane) : s.Leaves P (s.syncLedgLane l) := by
  have put (t : State) {a : Nat} (ha : Loose a) (v : Word) : t.Leaves P (t.setReg l a v) := hP.setReg t l v ha
  have hs : Loose R.LEDG_STATUS := by unfold Loose; decide
  unfold State.syncLedgLane
  exact (put s hs _).trans <| (put _ (by unfold Loose; decide) _).trans <| (put _ (by unfold Loose; decide) _).trans <|
    (put _ (by unfold Loose; decide) _).trans <| (put _ (by unfold Loose; decide) _).trans <| (put _ hs _).trans <|
    (put _ hs _).trans (put _ hs _)

theorem Calm.endEntry (s : State) (n err : Nat) {d : Nat} (hd : d < 0x10000) : s.Leaves P (s.endEntry n d err) := by
  unfold State.endEntry
  split
  · exact .refl P s
  split
  · extract_lets u ds
    have hv : s.Leaves P (u.setLed { u.led with dups := ds }) := .of_regs rfl
    have hc := hP.countBoth (u.setLed { u.led with dups := ds }) (a := R.LEDG_CNT d) (by unfold Loose R.LEDG_CNT; omega)
    exact (hv.trans hc).trans ((hP.syncLedgLane _ .E).trans (hP.syncLedgLane _ .W))
  · exact .refl P s

theorem Calm.settleQuiesce (s : State) : s.Leaves P s.settleQuiesce := by
  refine .foldl (fun t v => ?_) _ s
  split
  · exact .refl P t
  · extract_lets t1 t2
    have h1 : t.Leaves P t1 := hP.setFld t v.lane _ 3 (by unfold Loose R.IOV_FN_STATE; omega)
    have h2 : t1.Leaves P t2 := .of_regs rfl
    split
    · exact h1.trans h2
    · exact (h1.trans h2).trans (hP.endEntry t2 _ _ (by decide))

theorem Calm.settleGrants (s : State) : s.Leaves P s.settleGrants := by
  refine .foldl (fun t g => ?_) _ s
  split
  · exact .refl P t
  · extract_lets t1
    have h1 : t.Leaves P t1 := .of_regs rfl
    split
    · exact h1
    · exact h1.trans (hP.endEntry t1 _ _ (by decide))

theorem Calm.dispose (s : State) (n err : Nat) {d : Nat} (hd : d < 0x10000) : s.Leaves P (s.dispose n d err) :=
  ((hP.endEntry s n err hd).trans (hP.settleQuiesce _)).trans (hP.settleGrants _)

theorem Calm.disposeAll (s : State) (ns : List Nat) (err : Nat) {d : Nat} (hd : d < 0x10000) :
    s.Leaves P (s.disposeAll ns d err) :=
  .forEach (fun t n _ => hP.dispose t n err hd) s

/-! #### The lane's state, its Elder and its pairs -/

theorem Calm.syncMode (s : State) (old : Nat) : s.Leaves P (s.syncMode old) := by
  unfold State.syncMode
  extract_lets m t u
  have ht : s.Leaves P t := hP.setFldBoth s _ m (by unfold Loose; decide)
  have hu : t.Leaves P u := by
    unfold u
    split
    · exact hP.setFldBoth t _ _ (by unfold Loose; decide)
    · exact .refl P t
  exact (ht.trans hu).trans (.of_regs rfl)

theorem Calm.setLst (s : State) (l : Lane) (v : Nat) : s.Leaves P (s.setLst l v) := by
  unfold State.setLst
  extract_lets old t u
  have ht : s.Leaves P t := hP.setFld s l _ v (by unfold Loose; decide)
  have hu : t.Leaves P u := by
    unfold u
    split
    · exact .refl P t
    · exact hP.setBitF t l _ _ (by unfold Loose; decide)
  exact (ht.trans hu).trans (hP.syncMode u old)

theorem Calm.setServing (s : State) (l : Lane) (b : Bool) : s.Leaves P (s.setServing l b) := by
  have h : Loose R.SCSM_STATUS := by unfold Loose; decide
  exact ((hP.setBitF s l _ b h).trans (hP.setBitF _ .E _ _ h)).trans (hP.setBitF _ .W _ _ h)

theorem Calm.syncPairs (s : State) (l : Lane) : s.Leaves P (s.syncPairs l) := by
  refine .forEach (fun t k hk => ?_) s
  have ha : Loose (R.LSTP_PAIR_STAT k) := by
    have := List.mem_range.mp hk
    unfold Loose R.LSTP_PAIR_STAT
    omega
  exact (hP.setBitF t l _ _ ha).trans (hP.setBitF _ l _ _ ha)

theorem Calm.startRevert (s : State) : s.Leaves P s.startRevert := by
  have ha : ∀ a ∈ [R.UPD_STATUS, R.UPD_CNT 5], Loose a := by unfold Loose; decide
  have h1 : s.Leaves P (s.setUpdSt uREVERTING) := by
    have hu : s.Leaves P { s with upd := { s.upd with st := uREVERTING } } := .of_regs rfl
    exact hu.trans (hP.setFldBoth _ _ _ (ha R.UPD_STATUS (by decide)))
  unfold State.startRevert
  extract_lets t u ls
  have ht : s.Leaves P t := h1.trans (hP.countBoth _ (ha (R.UPD_CNT 5) (by decide)))
  have hu : t.Leaves P u := hP.setFldBoth t _ _ (ha R.UPD_STATUS (by decide))
  have hv : u.Leaves P { u with upd := { u.upd with actLsn := none, drain := none, cycles := 0 } } := .of_regs rfl
  exact (ht.trans (hu.trans hv)).trans (hP.disposeAll _ ls _ (by decide))

end

/-! ### What `Kept` says of the parts of a lane -/

theorem State.Kept.lane {m : Nat} {s t : State} (k : State.Kept ⟨m, s⟩ t) (hm : m.testBit 19 = false ∧ m.testBit 20 = false)
    (l : Lane) : t.lane l = s.lane l := by
  cases l with
  | E => exact k.only.laneE.resolve_right (by simp [hm.1])
  | W => exact k.only.laneW.resolve_right (by simp [hm.2])

/-- The tide, the converter control and the Harbour of a lane. -/
def State.engines (s : State) (l : Lane) : TideRt × CvcRt × HarbRt := (s.tide l, s.cvc l, s.harb l)

/-- The fields of the lanes' engines are none of those numbered. -/
def NoEngines (m : Nat) : Prop := ∀ i ∈ [34, 35, 38, 39, 58, 59], m.testBit i = false

theorem State.Kept.engines {m : Nat} {s t : State} (k : State.Kept ⟨m, s⟩ t) (hm : NoEngines m) (l : Lane) :
    t.engines l = s.engines l := by
  have off {i : Nat} (hi : i ∈ [34, 35, 38, 39, 58, 59]) : ¬ m.testBit i = true := by rw [hm i hi]; decide
  have h : State.Only m s t := k.only
  have hE := h.tideE.resolve_right (off (by decide))
  have hW := h.tideW.resolve_right (off (by decide))
  have cE := h.cvcE.resolve_right (off (by decide))
  have cW := h.cvcW.resolve_right (off (by decide))
  have bE := h.harbE.resolve_right (off (by decide))
  have bW := h.harbW.resolve_right (off (by decide))
  cases l with
  | E => exact congrArg₂ Prod.mk hE (congrArg₂ Prod.mk cE bE)
  | W => exact congrArg₂ Prod.mk hW (congrArg₂ Prod.mk cW bW)

/-! ### The lane of a state -/

@[simp] theorem State.lane_setLane (s : State) (l : Lane) (x : LaneRt) : (s.setLane l x).lane l = x := by cases l <;> rfl

@[simp] theorem State.lane_setLane_other (s : State) (l : Lane) (x : LaneRt) : (s.setLane l x).lane l.other = s.lane l.other := by
  cases l <;> rfl

theorem State.regs_setLane (s : State) (l : Lane) (x : LaneRt) : (s.setLane l x).regs = s.regs := by cases l <;> rfl

/-- The SAFE ball that a lane of the state shows (R70). -/
def State.ball (s : State) (l : Lane) : Bool := s.mod_.configured && (s.lst l == stACTIVE || s.lst l == stSTANDBY)

theorem State.syncSafe_both_lane (s : State) (l : Lane) :
    ((s.syncSafe .E).syncSafe .W).lane l = { s.lane l with safeBall := s.ball l } := by
  cases l <;> rfl

theorem State.syncSafe_both_ball (s : State) (l : Lane) : ((s.syncSafe .E).syncSafe .W).ball l = s.ball l := rfl

theorem State.lane_congr {s t : State} (hE : t.laneE = s.laneE) (hW : t.laneW = s.laneW) (l : Lane) : t.lane l = s.lane l := by
  cases l <;> assumption

/-- A report of the mode sets the SAFE balls, and of the lanes nothing else. -/
theorem State.syncMode_lane (s : State) (old : Nat) (l : Lane) :
    (s.syncMode old).lane l = { s.lane l with safeBall := (s.syncMode old).ball l } := by
  unfold State.syncMode
  extract_lets m t u
  have hu : u.lane l = s.lane l := by
    unfold u
    split <;> exact State.lane_congr rfl rfl l
  rw [State.syncSafe_both_lane, State.syncSafe_both_ball, hu]

theorem State.setLst_lane (s : State) (l k : Lane) (v : Nat) :
    (s.setLst l v).lane k = { s.lane k with safeBall := (s.setLst l v).ball k } := by
  unfold State.setLst
  extract_lets old t u
  have ht : t.lane k = s.lane k := State.lane_congr (State.setFld_laneE ..) (State.setFld_laneW ..) k
  have hu : u.lane k = t.lane k := by
    unfold u
    split
    · rfl
    · exact State.lane_congr (State.setBitF_laneE ..) (State.setBitF_laneW ..) k
  rw [State.syncMode_lane, hu, ht]

/-! ### The SYS and POR part of a reset, step by step (Table 4.1) -/

/-- The lane's engines at their reset state, and its blocks. -/
def State.emptied (s : State) (l : Lane) : State := ((s.clearEngines l).handCommits l).clearSlots l sysSlots

/-- What the reset keeps of the registers of the state `old` before it, and the shadows that reload. -/
def State.restored (s old : State) (l : Lane) (lvl : RLevel) : State :=
  let s := s.keepClocks old l lvl
  let s := if lvl = .por then s else s.keepLstep old l
  let s := (s.keepUpd old l).keepLhs old l lvl
  s.forEach sharedSlots (fun s b => s.reloadShadow l (0xE0000000 + b * 0x100000) (0xE0100000 + b * 0x100000))

/-- The watchdogs are off. -/
def State.stopDogs (s : State) (l : Lane) : State :=
  s.forEach [0, 1, 2, 3, 4, 5] (fun s n => (s.setReg l (R.RSTC_WDT_CFG n) 0).setReg l (R.RSTC_WDT_CNT n) 0)

/-- The block resets that wait end. -/
def State.endBlkWaits (s : State) (l : Lane) : State :=
  let s := s.dropParCfg l
  (s.setReg l R.RSTC_BLKRST 0).disposeAll (((s.lane l).blkWait ++ (s.lane l).blkLsns).map Prod.fst) 1 0

/-- SRAM is zeroed, and at POR LPDDR5X. -/
def State.zeroMem (s : State) (l : Lane) (lvl : RLevel) : State :=
  let s := s.clearMem l 0x10000000 0x10800000
  if lvl = .por then s.clearMem l lpBase (lpBase + 0x100000000) else s

/-- The lane's run state, and the work of its partitions. -/
def State.endLane (s : State) (l : Lane) (lvl : RLevel) : State :=
  let x := s.lane l
  let s := s.setLane l { x with nonces := [], blocksInReset := [],
                                released := if lvl = .por then [] else [0], blkWait := [], blkLsns := [],
                                leaseRenewOut := false, pendResets := x.pendResets,
                                retention := [], memSelfRefresh := false }
  { s with
    scs := { s.scs with inbox := s.scs.inbox.filter (fun i => i.req.isSession || i.req.lane != l) },
    grants := s.grants.filter (fun g => g.lane != l), vfOps := s.vfOps.filter (fun v => v.lane != l),
    quiesces := s.quiesces.filter (fun v => v.lane != l), iovQs := s.iovQs.filter (fun q => q.lane != l),
    potUpds := s.potUpds.filter (fun u => u.lane != l), copies := s.copies.filter (fun c => c.lane != l) }

theorem clearDeep_eq (s : State) (l : Lane) (lvl : RLevel) : s.clearDeep l lvl =
    (((((s.emptied l).restored s l lvl).stopDogs l).endBlkWaits l).zeroMem l lvl).endLane l lvl := rfl

/-! #### The fields that the steps change -/

theorem emptied_kept {s : State} (h : s.Inv) (l : Lane) : State.Kept ⟨0x1ce0fafc00000208, s⟩ (s.emptied l) :=
  have hsub {m : Nat} (hm : Nat.land m 0x1ce0fafc00000208 = m) : Sub m 0x1ce0fafc00000208 := Sub.of (.refl _) hm
  State.clearSlots_kept (hsub (by decide)) <| State.handCommits_kept (hsub (by decide)) <|
    State.clearEngines_kept (hsub (by decide)) (.refl h)

theorem restored_kept {s old : State} (h : s.Inv) (ho : old.Inv) (l : Lane) (lvl : RLevel) :
    State.Kept ⟨0x6c00000000000000208, s⟩ (s.restored old l lvl) := by
  have hsub {m : Nat} (hm : Nat.land m 0x6c00000000000000208 = m) : Sub m 0x6c00000000000000208 := Sub.of (.refl _) hm
  have hsec : State.Kept ⟨0x6c00000000000000208, s⟩ { s with secE := old.secE, secW := old.secW } := by
    have h70 : Nat.testBit 0x6c00000000000000208 70 = true := by decide
    have h71 : Nat.testBit 0x6c00000000000000208 71 = true := by decide
    simp only [kept_mk, h70, h71, or_true, true_or]
    exact .refl h
  -- Of the state before the reset only the registers and the Lighthouses matter.
  let o : State := { s with secE := old.secE, secW := old.secW, regs := old.regs }
  have hok : State.Kept ⟨0x6c00000000000000208, s⟩ o := kept_regs hsec (show Nat.testBit 0x6c00000000000000208 3 = true by decide) ho.regs
  have hs : State.Kept ⟨0x6c00000000000000208, s⟩ s := .refl h
  show State.Kept _ (s.restored o l lvl)
  unfold State.restored
  extract_lets a b c
  have ha : State.Kept ⟨0x6c00000000000000208, s⟩ a := State.keepClocks_kept (hsub (by decide)) hs hok
  have hb : State.Kept ⟨0x6c00000000000000208, s⟩ b :=
    kept_ite (fun _ => ha) fun _ => State.keepLstep_kept (hsub (by decide)) ha hok
  have hc : State.Kept ⟨0x6c00000000000000208, s⟩ c :=
    State.keepLhs_kept (hsub (by decide)) (State.keepUpd_kept (hsub (by decide)) hb hok) hok
  exact State.forEach_kept hc fun t _ ht => State.reloadShadow_kept (hsub (by decide)) ht

theorem stopDogs_kept {s : State} (h : s.Inv) (l : Lane) : State.Kept ⟨0x8, s⟩ (s.stopDogs l) :=
  State.forEach_kept (.refl h) fun _ _ ht => State.setReg_kept (.refl _) (State.setReg_kept (.refl _) ht)

theorem endBlkWaits_kept {s : State} (h : s.Inv) (l : Lane) : State.Kept ⟨0x14000000000000308, s⟩ (s.endBlkWaits l) :=
  have hsub {m : Nat} (hm : Nat.land m 0x14000000000000308 = m) : Sub m 0x14000000000000308 := Sub.of (.refl _) hm
  State.disposeAll_kept (hsub (by decide)) <| State.setReg_kept (hsub (by decide)) <|
    State.dropParCfg_kept (hsub (by decide)) (.refl h)

theorem zeroMem_with (s : State) (l : Lane) (lvl : RLevel) : s.zeroMem l lvl = { s with mem := (s.zeroMem l lvl).mem } := by
  unfold State.zeroMem
  extract_lets t
  split <;> rfl

theorem endLane_same (s : State) (l : Lane) (lvl : RLevel) : (s.endLane l lvl).regs = s.regs ∧ (s.endLane l lvl).mem = s.mem ∧
    (s.endLane l lvl).engines l = s.engines l ∧ ((s.endLane l lvl).lane l).released = if lvl = .por then [] else [0] := by
  cases l <;> exact ⟨rfl, rfl, rfl, rfl⟩

/-! #### The registers that the steps leave -/

section
variable {P : Nat → Bool}

theorem clearEngines_regs (s : State) (l : Lane) : (s.clearEngines l).regs = s.regs := by
  cases l <;> (unfold State.clearEngines; dsimp only; split <;> split <;> rfl)

theorem handCommits_regs (s : State) (l : Lane) : (s.handCommits l).regs = s.regs := by
  unfold State.handCommits
  split <;> rfl

/-- The keys of a block of a lane. -/
theorem resetBlock_leaves (hS : ∀ k, 3 * homeSpan ≤ k → P k = false) (s : State) (l : Lane) (b : Nat)
    (hb : ∀ a, 0xE0000000 + b * 0x100000 ≤ a → a < 0xE0100000 + b * 0x100000 → P (l.ix * homeSpan + a) = false) :
    s.Leaves P (s.resetBlock l b) := by
  refine (rfReset_filter (fun k hk _ => hS k ((shadowKey_ge ..).trans hk)) _).trans (rfReset_filter (fun k hk hk' => ?_) s.regs)
  · have h := hb (k - l.ix * homeSpan) (by omega) (by omega)
    rwa [Nat.add_sub_cancel' (by omega)] at h

theorem clearSlots_leaves (hS : ∀ k, 3 * homeSpan ≤ k → P k = false) (l : Lane) (bs : List Nat)
    (hb : ∀ b ∈ bs, ∀ a, 0xE0000000 + b * 0x100000 ≤ a → a < 0xE0100000 + b * 0x100000 → P (l.ix * homeSpan + a) = false)
    (s : State) : s.Leaves P (s.clearSlots l bs) := by
  induction bs generalizing s with
  | nil => exact .refl P s
  | cons b bs ih =>
    exact (resetBlock_leaves hS s l b (hb b List.mem_cons_self)).trans (ih (fun c hc => hb c (List.mem_cons_of_mem _ hc)) _)

/-- A register that lies in no block before PARI is left by the clearing of the blocks. -/
theorem emptied_leaves (hS : ∀ k, 3 * homeSpan ≤ k → P k = false) (s : State) (l : Lane)
    (hb : ∀ a < 0xE1700000, P (l.ix * homeSpan + a) = false) : s.Leaves P (s.emptied l) := by
  have hslots : ∀ b ∈ sysSlots, b ≤ 22 := by
    unfold sysSlots
    decide
  have h1 : s.Leaves P ((s.clearEngines l).handCommits l) :=
    .of_regs ((handCommits_regs _ l).trans (clearEngines_regs s l))
  refine h1.trans (clearSlots_leaves hS l _ (fun b hbs a _ ha => hb a ?_) _)
  have : b ≤ 22 := hslots b hbs
  omega

theorem stopDogs_leaves (s : State) (l : Lane)
    (hb : ∀ a, 0xE0000100 ≤ a → a < 0xE0000160 → P (l.ix * homeSpan + a) = false) : s.Leaves P (s.stopDogs l) := by
  have put (t : State) {a : Nat} (h1 : 0xE0000100 ≤ a) (h2 : a < 0xE0000160) : t.Leaves P (t.setReg l a 0) := by
    refine .setReg t 0 ?_
    rw [regKey_own (sharedReg_own (b := 0) (by decide) (by omega))]
    exact hb a h1 h2
  refine .forEach (fun t n hn => ?_) s
  have hn : n < 6 := by revert n; decide
  exact (put t (by unfold R.RSTC_WDT_CFG; omega) (by unfold R.RSTC_WDT_CFG; omega)).trans
    (put _ (by unfold R.RSTC_WDT_CNT; omega) (by unfold R.RSTC_WDT_CNT; omega))

variable (hP : Calm P)
include hP

theorem keepLhs_leaves (s old : State) (l : Lane) (lvl : RLevel) : s.Leaves P (s.keepLhs old l lvl) := by
  have put (t : State) (l : Lane) {a : Nat} (v : Word) (h1 : 0xE1500000 ≤ a) (h2 : a < 0xE1600000) : t.Leaves P (t.setReg l a v) :=
    hP.setReg t l v (by unfold Loose; omega)
  unfold State.keepLhs
  extract_lets a x st st' b c d e f g ks y z
  have ha : s.Leaves P a := resetBlock_leaves hP.shadow s l 21 fun a h1 h2 => hP.lane l a (by unfold Loose; omega)
  have hb : a.Leaves P b := put a l _ (by decide) (by decide)
  have hc : b.Leaves P c := (put b l _ (by decide) (by decide)).trans (put _ l _ (by decide) (by decide))
  have hd : c.Leaves P d := by
    refine .forEach (fun t j hj => put t l _ ?_ ?_) c
    all_goals
      have : j ≤ 3 := by revert j; decide
      unfold R.LHS_KP
      omega
  have he : d.Leaves P e := by
    refine .forEach (fun t k hk => ?_) d
    have := List.mem_range.mp hk
    split
    · exact put t l _ (by unfold R.LHS_KEY_INFO; omega) (by unfold R.LHS_KEY_INFO; omega)
    · exact .refl P t
  have hf : e.Leaves P f := put e l _ (by decide) (by decide)
  have hg : f.Leaves P g := by
    unfold g
    split
    · exact .refl P f
    · refine State.Leaves.trans (.forEach (fun t k hk => ?_) f) (put _ l _ (by decide) (by decide))
      have := List.mem_range.mp hk
      exact put t l _ (by unfold R.LHS_EVT_CNT; omega) (by unfold R.LHS_EVT_CNT; omega)
  have hz : g.Leaves P z := by
    cases l <;> exact .of_regs rfl
  exact (ha.trans (hb.trans (hc.trans (hd.trans (he.trans (hf.trans (hg.trans hz))))))).trans (.of_regs rfl)

theorem restored_leaves (s old : State) (l : Lane) (lvl : RLevel) : s.Leaves P (s.restored old l lvl) := by
  have hclk : ∀ a ∈ [R.RSTC_STATUS, R.CLKC_XTAL_STAT, R.LSTP_STATUS, R.UPD_STATUS, R.UPD_PROGRESS], Loose a := by
    unfold Loose
    decide
  unfold State.restored
  extract_lets a b c
  have ha : s.Leaves P a := by
    unfold a State.keepClocks
    extract_lets st t
    have ht : s.Leaves P t := hP.setReg s l st (hclk _ (by decide))
    split
    · exact ht
    · exact ht.trans (hP.setReg t l _ (hclk _ (by decide)))
  have hb : a.Leaves P b := by
    unfold b
    split
    · exact .refl P a
    · refine (hP.setReg a l _ (hclk R.LSTP_STATUS (by decide))).trans (.forEach (fun t k hk => hP.setReg t l _ ?_) _)
      have := List.mem_range.mp hk
      unfold Loose R.LSTP_PAIR_STAT
      omega
  have hu : b.Leaves P (b.keepUpd old l) :=
    (hP.setReg b l _ (hclk R.UPD_STATUS (by decide))).trans (hP.setReg _ l _ (hclk R.UPD_PROGRESS (by decide)))
  exact (ha.trans (hb.trans (hu.trans (keepLhs_leaves hP _ old l lvl)))).trans
    (.forEach (fun t b _ => hP.reloadShadow t l _ _) c)

theorem endBlkWaits_leaves (s : State) (l : Lane) : s.Leaves P (s.endBlkWaits l) := by
  have hr : s.Leaves P (s.dropParCfg l) := by
    refine (rfReset_filter (fun k hk _ => hP.shadow k ((shadowKey_ge ..).trans hk)) _).trans
      (rfReset_filter (fun k hk hk' => ?_) s.regs)
    · have hc : Loose R.PARI_CFG ∧ Loose (R.PARI_CFG + 3) := by unfold Loose; decide
      have h0 := regKey_loose hc.1 l
      have h4 : regKey l.ix (R.PARI_CFG + 4) = l.ix * homeSpan + (R.PARI_CFG + 4) := by cases l <;> decide
      have h := hP.lane l (k - l.ix * homeSpan) (by
        rw [h0] at hk
        rw [h4] at hk'
        unfold R.PARI_CFG at hk hk'
        unfold Loose
        omega)
      rwa [Nat.add_sub_cancel' (by omega)] at h
  exact (hr.trans (hP.setReg _ l 0 (by unfold Loose; decide))).trans (hP.disposeAll _ _ _ (by decide))

/-- After the watchdogs, a SYS or POR reset leaves every register that `P` names. -/
theorem clearDeep_tail_leaves (s : State) (l : Lane) (lvl : RLevel) :
    s.Leaves P (((s.endBlkWaits l).zeroMem l lvl).endLane l lvl) := by
  have hz : ((s.endBlkWaits l).zeroMem l lvl).regs = (s.endBlkWaits l).regs := by rw [zeroMem_with]
  exact (endBlkWaits_leaves hP s l).trans (.of_regs ((endLane_same _ l lvl).1.trans hz))

end

/-! ### A reset of a lane, step by step (R99, R100, R103) -/

/-- The parish record counts the cause, which may end a trial. -/
def State.tallied (s : State) (l : Lane) (cause : Nat) : State :=
  let s := s.count l (R.PARI_RST (causeRow cause))
  if s.upd.st = uTRIAL ∧ trialEnds cause = true then s.startRevert else s

/-- RSTC_RST_CAUSE of a sequence that starts. -/
def causeWord (lvl : RLevel) (cause detail : Nat) : Word :=
  setF (setF (setF 0 F.RSTC_RST_CAUSE_CAUSE cause) F.RSTC_RST_CAUSE_LEVEL lvl.code) F.RSTC_RST_CAUSE_DETAIL detail

/-- What SYS and POR clear. -/
def State.deepened (s : State) (l : Lane) (lvl : RLevel) : State := if lvl = .core then s else s.clearDeep l lvl

/-- The lane's state and the arbiter show the reset, and its interrupts are gone. -/
def State.showDown (s : State) (l : Lane) (om : Nat) : State :=
  let s := ((s.setLst l stRESET).syncMode om).assertDown l
  { s with irqs := s.irqs.filter (fun i => i.lane != l) }

/-- Nothing of the lane runs. -/
def State.halt (s : State) (l : Lane) (lvl : RLevel) : State :=
  let s := s.setServing l false
  (s.setLane l { s.lane l with resetting := some lvl, elderUp := false, bootOk := false, coresHeld := true }).syncPairs l

/-- A frozen lane stays in its reset (R128). -/
def State.deferFrozen (s : State) (l : Lane) (lvl : RLevel) : State :=
  if s.mod_.frozen && lvl != .por then
    (s.setBitF l R.RSTC_STATUS F.RSTC_STATUS_RESET_DEFERRED true).setLane l { s.lane l with deferred := some lvl }
  else s

/-- The lane goes down with a cause. -/
def State.goDown (s : State) (l : Lane) (lvl : RLevel) (om : Nat) (w : Word) : State :=
  (((s.showDown l om).setReg l R.RSTC_RST_CAUSE w).halt l lvl).deferFrozen l lvl

/-- The request merges into the sequence in progress. -/
def Merges (o : Option RLevel) (lvl : RLevel) : Prop := ∃ cur ∈ o, lvl.code ≤ cur.code

theorem merges_iff (o : Option RLevel) (lvl : RLevel) :
    (match o with
      | some cur => decide (lvl.code ≤ cur.code)
      | none => false) = true ↔ Merges o lvl := by
  cases o <;> simp [Merges]

theorem laneReset_of_merges {s : State} {l : Lane} {lvl : RLevel} {cause detail : Nat}
    (h : Merges ((s.tallied l cause).lane l).resetting lvl) :
    s.laneReset l lvl cause detail = (s.tallied l cause).setBitF l R.RSTC_RST_CAUSE F.RSTC_RST_CAUSE_MERGED true :=
  if_pos ((merges_iff _ _).mpr h)

theorem laneReset_of_not_merges {s : State} {l : Lane} {lvl : RLevel} {cause detail : Nat}
    (h : ¬ Merges ((s.tallied l cause).lane l).resetting lvl) : s.laneReset l lvl cause detail =
      ((s.tallied l cause).deepened l lvl).goDown l lvl (s.tallied l cause).mode (causeWord lvl cause detail) :=
  if_neg (mt (merges_iff _ _).mp h)

theorem causeWord_eq (lvl : RLevel) {cause : Nat} (hc : cause < 256) (detail : Nat) :
    causeWord lvl cause detail = BitVec.ofNat 32 (cause + 2 ^ 8 * lvl.code + 2 ^ 24 * detail) := by
  have hl : lvl.code < 4 := by cases lvl <;> decide
  have h1 := setF_toNat 0 F.RSTC_RST_CAUSE_CAUSE cause (by unfold Fld.ok; decide)
  have h2 := setF_toNat (setF 0 F.RSTC_RST_CAUSE_CAUSE cause) F.RSTC_RST_CAUSE_LEVEL lvl.code (by unfold Fld.ok; decide)
  have h3 := setF_toNat (setF (setF 0 F.RSTC_RST_CAUSE_CAUSE cause) F.RSTC_RST_CAUSE_LEVEL lvl.code) F.RSTC_RST_CAUSE_DETAIL
    detail (by unfold Fld.ok; decide)
  have h0 : (0 : Word).toNat = 0 := rfl
  simp only [F.RSTC_RST_CAUSE_CAUSE, F.RSTC_RST_CAUSE_LEVEL, F.RSTC_RST_CAUSE_DETAIL, fldWidth, h0] at h1 h2 h3
  refine BitVec.eq_of_toNat_eq ?_
  rw [BitVec.toNat_ofNat]
  unfold causeWord F.RSTC_RST_CAUSE_CAUSE F.RSTC_RST_CAUSE_LEVEL F.RSTC_RST_CAUSE_DETAIL
  omega

theorem assertDown_regs (s : State) (l : Lane) : (s.assertDown l).regs = s.regs := by cases l <;> rfl

theorem showDown_regs (s : State) (l : Lane) (om : Nat) : (s.showDown l om).regs = ((s.setLst l stRESET).syncMode om).regs :=
  assertDown_regs _ l

/-! #### The tally -/

theorem tallied_kept {s : State} (h : s.Inv) (l : Lane) (cause : Nat) : State.Kept ⟨0x10014000000000000108, s⟩ (s.tallied l cause) := by
  have hsub {m : Nat} (hm : Nat.land m 0x10014000000000000108 = m) : Sub m 0x10014000000000000108 := Sub.of (.refl _) hm
  have hc := State.count_kept (l := l) (a := R.PARI_RST (causeRow cause)) (hsub (by decide)) (.refl h)
  exact kept_ite (fun _ => State.startRevert_kept (.refl _) hc) fun _ => hc

theorem causeRow_le (c : Nat) : causeRow c ≤ 10 := by
  unfold causeRow
  split <;> decide

/-- The key of the tally of a cause. -/
theorem regKey_pariRst (l : Lane) (c : Nat) : regKey l.ix (R.PARI_RST (causeRow c)) = l.ix * homeSpan + R.PARI_RST (causeRow c) := by
  have := causeRow_le c
  refine regKey_own (sharedReg_own (b := 23) (by decide) ?_) l
  unfold R.PARI_RST
  omega

section
variable {P : Nat → Bool} (hP : Calm P)
include hP

theorem startRevert_tally_leaves (s : State) (l : Lane) (cause : Nat) :
    (s.count l (R.PARI_RST (causeRow cause))).Leaves P (s.tallied l cause) := by
  unfold State.tallied
  extract_lets t
  split
  · exact hP.startRevert t
  · exact .refl P t

theorem tallied_leaves (s : State) (l : Lane) (cause : Nat) (hk : P (l.ix * homeSpan + R.PARI_RST (causeRow cause)) = false) :
    s.Leaves P (s.tallied l cause) :=
  (State.Leaves.setReg s _ (regKey_pariRst l cause ▸ hk)).trans (startRevert_tally_leaves hP s l cause)

/-! #### The lane goes down -/

theorem showDown_leaves (s : State) (l : Lane) (om : Nat) : s.Leaves P (s.showDown l om) :=
  ((hP.setLst s l _).trans (hP.syncMode _ om)).trans (.of_regs (showDown_regs s l om))

theorem halt_leaves (s : State) (l : Lane) (lvl : RLevel) : s.Leaves P (s.halt l lvl) := by
  unfold State.halt
  extract_lets t
  exact ((hP.setServing s l false).trans (.of_regs (State.regs_setLane ..))).trans (hP.syncPairs _ l)

theorem deferFrozen_leaves (s : State) (l : Lane) (lvl : RLevel) : s.Leaves P (s.deferFrozen l lvl) := by
  unfold State.deferFrozen
  split
  · exact (hP.setBitF s l _ _ (by unfold Loose; decide)).trans (.of_regs (State.regs_setLane ..))
  · exact .refl P s

theorem goDown_leaves (s : State) (l : Lane) (lvl : RLevel) (om : Nat) (w : Word)
    (hk : P (l.ix * homeSpan + R.RSTC_RST_CAUSE) = false) : s.Leaves P (s.goDown l lvl om w) := by
  have hkey : regKey l.ix R.RSTC_RST_CAUSE = l.ix * homeSpan + R.RSTC_RST_CAUSE :=
    regKey_own (sharedReg_own (b := 0) (by decide) (by decide)) l
  exact ((showDown_leaves hP s l om).trans (.setReg _ w (hkey ▸ hk))).trans ((halt_leaves hP _ l lvl).trans (deferFrozen_leaves hP _ l lvl))

end

/-! #### The fields that a lane going down changes -/

section
variable {φ : Frame} {s : State} {l : Lane} {lvl : RLevel}

theorem showDown_kept (hm : Sub 0x1a0048 φ.fx) (h : s.Kept φ) (om : Nat) : State.Kept φ (s.showDown l om) := by
  have hd : State.Kept φ (((s.setLst l stRESET).syncMode om).assertDown l) :=
    State.assertDown_kept (.of hm (by decide)) <| State.syncMode_kept (.of hm (by decide)) <|
      State.setLst_kept (.of hm (by decide)) h
  unfold State.showDown
  extract_lets t
  simp only [kept_mk, hm.bit 6 rfl, or_true, true_or]
  exact hd

theorem halt_kept (hm : Sub 0x180008 φ.fx) (h : s.Kept φ) : State.Kept φ (s.halt l lvl) :=
  State.syncPairs_kept (.of hm (by decide)) <| State.setLane_kept (.of hm (by decide)) <|
    State.setServing_kept (.of hm (by decide)) h

theorem deferFrozen_kept (hm : Sub 0x180008 φ.fx) (h : s.Kept φ) : State.Kept φ (s.deferFrozen l lvl) :=
  kept_ite (fun _ => State.setLane_kept (.of hm (by decide)) (State.setBitF_kept (.of hm (by decide)) h)) fun _ => h

theorem blame_kept (hm : Sub 0x1a0048 φ.fx) (h : s.Kept φ) (om : Nat) (w : Word) :
    State.Kept φ ((s.showDown l om).setReg l R.RSTC_RST_CAUSE w) :=
  State.setReg_kept (.of hm (by decide)) (showDown_kept hm h om)

theorem goDown_kept (hm : Sub 0x1a0048 φ.fx) (h : s.Kept φ) (om : Nat) (w : Word) : State.Kept φ (s.goDown l lvl om w) :=
  deferFrozen_kept (.of hm (by decide)) (halt_kept (.of hm (by decide)) (blame_kept hm h om w))

end

/-! ### What shows that a lane is down -/

/-- The registers that follow the cause in a reset. -/
def haltFlds (a : Nat) (_ : Fld) : Prop := a = R.RSTC_STATUS ∨ a = R.SCSM_STATUS ∨ ∃ k < 5, a = R.LSTP_PAIR_STAT k

/-- The same but for what the Elder serves. -/
def pairFlds (a : Nat) (_ : Fld) : Prop := a = R.RSTC_STATUS ∨ ∃ k < 5, a = R.LSTP_PAIR_STAT k

section
variable {s : State} (w : rfWf s.regs = true) (l : Lane) (lvl : RLevel)
include w

theorem syncPairs_pairFlds : RegOnly pairFlds s (s.syncPairs l) := by
  refine (State.syncPairs_writes w l).regs.mono fun a f hx => .inr ?_
  have h : ∀ x ∈ pairFields, ∃ k < 5, x.1 = R.LSTP_PAIR_STAT k := by decide
  exact h _ hx

theorem deferFrozen_pairFlds : RegOnly pairFlds s (s.deferFrozen l lvl) := by
  unfold State.deferFrozen
  split
  · exact (RegOnly.setBitF w (by decide) (by unfold Fld.ok; decide) (.inl rfl)).next fun w => .of (State.regs_setLane ..) w
  · exact .refl w

theorem setServing_regs : RegOnly (fun a _ => a = R.SCSM_STATUS) s (s.setServing l false) := by
  have put {t : State} (w : rfWf t.regs = true) (k : Lane) {f : Fld} (hf : Fld.ok f) (b : Bool) :
      RegOnly (fun a _ => a = R.SCSM_STATUS) t (t.setBitF k R.SCSM_STATUS f b) := RegOnly.setBitF w (by decide) hf rfl
  exact ((put w l (by unfold Fld.ok; decide) _).next fun w => put w .E (by unfold Fld.ok; decide) _).next fun w =>
    put w .W (by unfold Fld.ok; decide) _

theorem setServing_serving : (s.setServing l false).serving l = false := by
  have hs : Fld.ok F.SCSM_STATUS_SERVING ∧ Fld.ok F.SCSM_STATUS_FORWARDING := by unfold Fld.ok; decide
  have hx : Fld.apart F.SCSM_STATUS_FORWARDING F.SCSM_STATUS_SERVING := by unfold Fld.apart; decide
  have put {t : State} (w : rfWf t.regs = true) (k : Lane) (b : Bool) :
      (t.setBitF k R.SCSM_STATUS F.SCSM_STATUS_FORWARDING b).serving l = t.serving l := by
    unfold State.serving State.bit State.setBitF
    rw [State.fld_setFld_apart w _ _ _ _ hs.2 hs.1 hx]
  have h0 := State.setBitF_wf (l := l) (a := R.SCSM_STATUS) (f := F.SCSM_STATUS_SERVING) (b := false) w
  exact ((put (State.setBitF_wf h0) .W _).trans (put h0 .E _)).trans (State.bit_setBitF_self w l _ _ _ hs.1 rfl)

theorem halt_haltFlds : RegOnly haltFlds s (s.halt l lvl) := by
  have h1 : RegOnly haltFlds s (s.setServing l false) := (setServing_regs w l).mono fun _ _ h => .inr (.inl h)
  refine (h1.next fun w => .of (State.regs_setLane ..) w).next fun w => (syncPairs_pairFlds w l).mono fun _ _ h => ?_
  exact h.imp_right .inr

theorem halt_serving : (s.halt l lvl).serving l = false := by
  have h1 := (setServing_regs w l).wf
  refine Eq.trans ?_ (setServing_serving w l)
  unfold State.halt
  extract_lets t
  have hs : (t.setLane l { t.lane l with resetting := some lvl, elderUp := false, bootOk := false, coresHeld := true }).regs =
    t.regs := State.regs_setLane ..
  have h2 := syncPairs_pairFlds (hs.symm ▸ h1) l
  refine (h2.bit l (by decide) (by unfold Fld.ok; decide) ?_).trans
    ((RegOnly.of (p := pairFlds) hs h1).bit l (by decide) (by unfold Fld.ok; decide) ?_)
  all_goals
    rintro f (h | ⟨k, -, h⟩)
    · exact absurd h (by decide)
    · unfold R.SCSM_STATUS R.LSTP_PAIR_STAT at h
      omega

end

theorem halt_lane {s : State} (h : s.Inv) (l : Lane) (lvl : RLevel) : (s.halt l lvl).lane l =
    { s.lane l with resetting := some lvl, elderUp := false, bootOk := false, coresHeld := true } := by
  have h1 : State.Kept ⟨0x8, s⟩ (s.setServing l false) := State.setServing_kept (.refl _) (.refl h)
  unfold State.halt
  extract_lets t
  have h2 : State.Kept ⟨0x180008, t⟩
      (t.setLane l { t.lane l with resetting := some lvl, elderUp := false, bootOk := false, coresHeld := true }) :=
    State.setLane_kept (Sub.of (.refl _) (show Nat.land 0x180000 0x180008 = 0x180000 by decide)) (.refl h1.inv)
  have h3 := State.syncPairs_kept (l := l) (.refl _) (State.Kept.refl (fx := 0x8) h2.inv)
  rw [h3.lane (by decide), State.lane_setLane, h1.lane (by decide)]

theorem deferFrozen_lane (s : State) (l : Lane) (lvl : RLevel) :
    (s.deferFrozen l lvl).lane l = { s.lane l with deferred := ((s.deferFrozen l lvl).lane l).deferred } := by
  unfold State.deferFrozen
  split
  · rw [State.lane_setLane]
  · rfl

/-! ### A lane that goes down -/

theorem assertDown_lane (s : State) (l k : Lane) : (s.assertDown l).lane k = s.lane k := by cases l <;> rfl

/-- The arbiter sees DOWN of a lane (Table 5.6). -/
def State.seenDown (s : State) : Lane → Bool
  | .E => s.arb.downE
  | .W => s.arb.downW

theorem assertDown_seenDown (s : State) (l : Lane) : (s.assertDown l).seenDown l = true := by cases l <;> rfl

theorem State.seenDown_congr {s t : State} (h : t.arb = s.arb) (l : Lane) : t.seenDown l = s.seenDown l := by
  unfold State.seenDown
  rw [h]

theorem showDown_lane (s : State) (l : Lane) (om : Nat) :
    (s.showDown l om).lane l = { s.lane l with safeBall := ((s.setLst l stRESET).syncMode om).ball l } :=
  calc (s.showDown l om).lane l = ((s.setLst l stRESET).syncMode om).lane l := assertDown_lane _ l l
    _ = _ := by rw [State.syncMode_lane, State.setLst_lane]

theorem showDown_lst {s : State} (w : rfWf s.regs = true) (l : Lane) (om : Nat) :
    ((s.setLst l stRESET).syncMode om).lst l = stRESET := by
  rw [syncMode_lst (RegOnly.setLst w l _).wf, lst_setLst w]
  rfl

/-- A lane that has gone down: its cause, its state, and what the arbiter, its Elder and its pairs show. -/
structure State.WentDown (s t : State) (l : Lane) (lvl : RLevel) (w : Word) : Prop where
  cause : t.reg l R.RSTC_RST_CAUSE = w
  lst : t.lst l = stRESET
  serving : t.serving l = false
  resetting : (t.lane l).resetting = some lvl
  elder : (t.lane l).elderUp = false
  cores : (t.lane l).coresHeld = true
  ball : (t.lane l).safeBall = false
  released : (t.lane l).released = (s.lane l).released
  arb : t.seenDown l = true
  irqs : ∀ i ∈ t.irqs, i.lane ≠ l

section
variable {s : State} (h : s.Inv) (l : Lane) (lvl : RLevel) (om : Nat) (w : Word)
include h

theorem goDown_wentDown : s.WentDown (s.goDown l lvl om w) l lvl w := by
  obtain ⟨b, hb⟩ : ∃ b, (s.showDown l om).setReg l R.RSTC_RST_CAUSE w = b := ⟨_, rfl⟩
  obtain ⟨c, hc⟩ : ∃ c, b.halt l lvl = c := ⟨_, rfl⟩
  obtain ⟨t, ht⟩ : ∃ t, c.deferFrozen l lvl = t := ⟨_, rfl⟩
  have hgo : s.goDown l lvl om w = t := by rw [← ht, ← hc, ← hb]; rfl
  have hs : rfWf (s.showDown l om).regs = true := by
    rw [showDown_regs]
    exact (RegOnly.syncMode (RegOnly.setLst h.regs l _).wf om).wf
  have hbi : b.Inv := hb ▸ (blame_kept (.refl _) (.refl h) om w).inv
  have hct : RegOnly pairFlds c t := ht ▸ deferFrozen_pairFlds (hc ▸ (halt_haltFlds hbi.regs l lvl).wf) l lvl
  have hbt : RegOnly haltFlds b t := by
    refine RegOnly.next (hc ▸ halt_haltFlds hbi.regs l lvl) fun _ => hct.mono fun _ _ hx => hx.imp_right .inr
  have hkept : State.Kept ⟨0x180008, b⟩ t := by
    have hc8 : State.Kept ⟨0x180008, b⟩ c := hc ▸ halt_kept (.refl _) (.refl hbi)
    exact ht ▸ deferFrozen_kept (.refl _) hc8
  have honly : State.Only 0x180008 b t := hkept.only
  have hball : ((s.setLst l stRESET).syncMode om).ball l = false := by
    unfold State.ball
    rw [showDown_lst h.regs l om, Bool.and_eq_false_iff]
    exact .inr rfl
  have hbl : b.lane l = { s.lane l with safeBall := false } := by
    rw [← hb, ← hball, ← showDown_lane]
    exact State.lane_congr (State.setReg_laneE ..) (State.setReg_laneW ..) l
  have hcl := halt_lane hbi l lvl
  have htl := deferFrozen_lane c l lvl
  rw [hc, hbl] at hcl
  rw [ht, hcl] at htl
  refine hgo ▸ ⟨?_, ?_, ?_, htl ▸ rfl, htl ▸ rfl, htl ▸ rfl, htl ▸ rfl, htl ▸ rfl, ?_, ?_⟩
  · refine (hbt.reg l _ (by decide) ?_).trans (hb ▸ State.reg_setReg_self hs l _ w)
    rintro f (hx | hx | ⟨k, -, hx⟩)
    · exact absurd hx (by decide)
    · exact absurd hx (by decide)
    · unfold R.RSTC_RST_CAUSE R.LSTP_PAIR_STAT at hx
      omega
  · refine (hbt.fld l _ _ (by decide) (by unfold Fld.ok; decide) ?_).trans (hb ▸ (State.setReg_lst (by decide) (by decide)).trans ?_)
    · rintro f (hx | hx | ⟨k, -, hx⟩)
      · exact absurd hx (by decide)
      · exact absurd hx (by decide)
      · unfold R.FERRY_LANE R.LSTP_PAIR_STAT at hx
        omega
    · unfold State.lst State.fld State.reg
      rw [showDown_regs]
      exact showDown_lst h.regs l om
  · refine (hct.bit l (by decide) (by unfold Fld.ok; decide) ?_).trans (hc ▸ halt_serving hbi.regs l lvl)
    rintro f (hx | ⟨k, -, hx⟩)
    · exact absurd hx (by decide)
    · unfold R.SCSM_STATUS R.LSTP_PAIR_STAT at hx
      omega
  · have harb : t.arb = (((s.setLst l stRESET).syncMode om).assertDown l).arb :=
      (honly.arb.resolve_right (by decide)).trans (hb ▸ State.setReg_arb ..)
    exact (State.seenDown_congr harb l).trans (assertDown_seenDown _ l)
  · have hirq : t.irqs = (s.showDown l om).irqs :=
      (honly.irqs.resolve_right (by decide)).trans (hb ▸ State.setReg_irqs ..)
    intro i hi
    rw [hirq] at hi
    simpa using (List.mem_filter.mp hi).2

end

/-! ### What SYS and POR clear (Table 4.1) -/

theorem clearEngines_engines (s : State) (l : Lane) : (s.clearEngines l).engines l = (.reset, .reset, .reset) := by
  cases l <;> (unfold State.clearEngines; dsimp only; split <;> split <;> rfl)

/-- The registers of a lane's block. -/
def inBlock (l : Lane) (b k : Nat) : Bool :=
  decide (l.ix * homeSpan + 0xE0000000 + b * 0x100000 ≤ k ∧ k < l.ix * homeSpan + 0xE0100000 + b * 0x100000)

theorem not_inBlock_rfReset {l : Lane} {b : Nat} {c : RegCell} {rf : List RegCell}
    (hc : c ∈ rfReset rf (l.ix * homeSpan + (0xE0000000 + b * 0x100000)) (l.ix * homeSpan + (0xE0000000 + b * 0x100000 + 0x100000))) :
    inBlock l b c.1 = false := by
  have h := (List.mem_filter.mp hc).2
  simp only [Bool.not_and, Bool.or_eq_true, Bool.not_eq_true', decide_eq_false_iff_not] at h
  refine decide_eq_false ?_
  omega

theorem mem_of_mem_rfReset {c : RegCell} {rf : List RegCell} {lo hi : Nat} (hc : c ∈ rfReset rf lo hi) : c ∈ rf :=
  (List.mem_filter.mp hc).1

/-- Blocks that are cleared hold no register, and no block gets one. -/
theorem clearSlots_regs {s : State} {l : Lane} {bs : List Nat} {c : RegCell} (hc : c ∈ (s.clearSlots l bs).regs) :
    c ∈ s.regs ∧ ∀ b ∈ bs, inBlock l b c.1 = false := by
  induction bs generalizing s with
  | nil => exact ⟨hc, fun b hb => absurd hb List.not_mem_nil⟩
  | cons b bs ih =>
    obtain ⟨hr, hbs⟩ := ih hc
    have hact := mem_of_mem_rfReset hr
    refine ⟨mem_of_mem_rfReset hact, fun b' hb' => ?_⟩
    rcases List.mem_cons.mp hb' with rfl | hb'
    · exact not_inBlock_rfReset hact
    · exact hbs b' hb'

/-- No register of a cleared block holds a value. -/
theorem emptied_block (s : State) (l : Lane) {b : Nat} (hb : b ∈ sysSlots) : ∀ c ∈ (s.emptied l).regs, inBlock l b c.1 = false :=
  fun _ hc => (clearSlots_regs hc).2 b hb

theorem stopDogs_cfg {s : State} (w : rfWf s.regs = true) (l : Lane) {n : Nat} (hn : n < 6) :
    (s.stopDogs l).reg l (R.RSTC_WDT_CFG n) = 0 := by
  have hlt {m : Nat} (hm : m ∈ [0, 1, 2, 3, 4, 5]) : m < 6 := by
    revert m
    decide
  have hcfg {m : Nat} (hm : m ∈ [0, 1, 2, 3, 4, 5]) (hne : m ≠ n) :
      regKey l.ix (R.RSTC_WDT_CFG m) ≠ regKey l.ix (R.RSTC_WDT_CFG n) := by
    have := hlt hm
    refine regKey_ne ?_ ?_ ?_ <;> (unfold R.RSTC_WDT_CFG; omega)
  have hcnt {m : Nat} (hm : m ∈ [0, 1, 2, 3, 4, 5]) :
      regKey l.ix (R.RSTC_WDT_CNT m) ≠ regKey l.ix (R.RSTC_WDT_CFG n) := by
    have := hlt hm
    have ha : R.RSTC_WDT_CNT m < 2 ^ 32 ∧ R.RSTC_WDT_CFG n < 2 ^ 32 ∧ R.RSTC_WDT_CNT m ≠ R.RSTC_WDT_CFG n := by
      unfold R.RSTC_WDT_CNT R.RSTC_WDT_CFG
      omega
    exact regKey_ne ha.1 ha.2.1 ha.2.2
  have hmem : n ∈ [0, 1, 2, 3, 4, 5] := by
    simp only [List.mem_cons, List.not_mem_nil, or_false]
    omega
  unfold State.stopDogs
  refine forEach_reaches (keeps := fun t => rfWf t.regs = true) (reached := fun t => t.reg l (R.RSTC_WDT_CFG n) = 0) hmem
    (fun t m _ w => State.setReg_wf (State.setReg_wf w)) (fun t w => ?_) (fun t m hm hne ht => ?_) w
  · exact (State.reg_setReg_ne (hcnt hmem)).trans (State.reg_setReg_self w _ _ _)
  · exact (State.reg_setReg_ne (hcnt hm)).trans ((State.reg_setReg_ne (hcfg hm hne)).trans ht)

/-! #### Registers that a reset leaves -/

/-- The cell of a lane or of the shared dies. -/
theorem Calm.cell {i a : Nat} (hi : i < 3) (ha : a < homeSpan) (hl : ¬ Loose a) : Calm (fun k => k == i * homeSpan + a) where
  lane k b hb := by
    refine beq_false_of_ne fun he => hl ?_
    have hb' : b < homeSpan := by
      unfold Loose at hb
      unfold homeSpan
      omega
    have hk := lane_ix_lt k
    have : b = a := by
      unfold homeSpan at *
      omega
    exact this ▸ hb
  shadow k hk := by
    refine beq_false_of_ne ?_
    unfold homeSpan at *
    omega

theorem Calm.key (l : Lane) {a : Nat} (ha : a < homeSpan) (hl : ¬ Loose a) : Calm (fun k => k == l.ix * homeSpan + a) :=
  .cell (Nat.lt_succ_of_lt (lane_ix_lt l)) ha hl

theorem Calm.regKey (l : Lane) {a : Nat} (ha : a < homeSpan) (hl : ¬ Loose a) : Calm (fun k => k == regKey l.ix a) := by
  unfold Sys2Proof.Machine.regKey
  split
  · exact .cell (by decide) ha hl
  · rw [lane_ix_mod]
    exact .key l ha hl

theorem Calm.block (l : Lane) {b : Nat} (hb : b ∈ [9, 10, 15, 16]) : Calm (inBlock l b) where
  lane k a ha := by
    have hk := lane_ix_lt k
    have hl := lane_ix_lt l
    simp only [List.mem_cons, List.not_mem_nil, or_false] at hb
    refine decide_eq_false ?_
    unfold Loose at ha
    unfold homeSpan
    omega
  shadow k hk := by
    have hl := lane_ix_lt l
    simp only [List.mem_cons, List.not_mem_nil, or_false] at hb
    refine decide_eq_false ?_
    unfold homeSpan at *
    omega

theorem Calm.dies : Calm (fun k => k / homeSpan == 2) where
  lane k a ha := by
    have hk := lane_ix_lt k
    refine beq_false_of_ne ?_
    unfold Loose at ha
    unfold homeSpan
    omega
  shadow k hk := by
    refine beq_false_of_ne ?_
    unfold homeSpan at *
    omega

/-! #### The state after a SYS or POR reset -/

/-- What SYS and POR leave of a lane. -/
structure State.Cleared (t : State) (l : Lane) (lvl : RLevel) : Prop where
  engines : t.engines l = (.reset, .reset, .reset)
  released : (t.lane l).released = if lvl = .por then [] else [0]
  dogs : ∀ n < 6, t.reg l (R.RSTC_WDT_CFG n) = 0
  sram : ∀ c ∈ t.mem, ¬ (memKey l 0x10000000 ≤ c.1 ∧ c.1 < memKey l 0x10800000)
  lpddr : lvl = .por → ∀ c ∈ t.mem, ¬ (memKey l lpBase ≤ c.1 ∧ c.1 < memKey l (lpBase + 0x100000000))
  blocks : ∀ b ∈ [9, 10, 15, 16], ∀ c ∈ t.regs, inBlock l b c.1 = false

theorem memKey_add (l : Lane) : memKey l 0x10000000 + (0x10800000 - 0x10000000) = memKey l 0x10800000 ∧
    memKey l lpBase + (lpBase + 0x100000000 - lpBase) = memKey l (lpBase + 0x100000000) := by
  cases l <;> decide

theorem clearMem_mem {s : State} {l : Lane} {lo hi : Nat} {c} (hc : c ∈ (s.clearMem l lo hi).mem) :
    c ∈ s.mem ∧ ¬ (memKey l lo ≤ c.1 ∧ c.1 < memKey l lo + (hi - lo)) := by
  have h := List.mem_filter.mp hc
  have h2 := h.2
  simp only [Bool.not_and, Bool.or_eq_true, Bool.not_eq_true', decide_eq_false_iff_not] at h2
  exact ⟨h.1, not_and_or.mpr h2⟩

theorem zeroMem_mem {s : State} {l : Lane} {lvl : RLevel} {c} (hc : c ∈ (s.zeroMem l lvl).mem) :
    ¬ (memKey l 0x10000000 ≤ c.1 ∧ c.1 < memKey l 0x10800000) ∧
    (lvl = .por → ¬ (memKey l lpBase ≤ c.1 ∧ c.1 < memKey l (lpBase + 0x100000000))) := by
  unfold State.zeroMem at hc
  extract_lets t at hc
  rw [← (memKey_add l).1, ← (memKey_add l).2]
  split at hc
  next hp =>
    obtain ⟨h1, h2⟩ := clearMem_mem hc
    exact ⟨(clearMem_mem h1).2, fun _ => h2⟩
  next hp => exact ⟨(clearMem_mem hc).2, fun he => absurd he hp⟩

theorem clearDeep_cleared {s : State} (h : s.Inv) (l : Lane) (lvl : RLevel) : (s.clearDeep l lvl).Cleared l lvl := by
  obtain ⟨a, ha⟩ : ∃ a, s.emptied l = a := ⟨_, rfl⟩
  obtain ⟨b, hb⟩ : ∃ b, a.restored s l lvl = b := ⟨_, rfl⟩
  obtain ⟨c, hc⟩ : ∃ c, b.stopDogs l = c := ⟨_, rfl⟩
  obtain ⟨d, hd⟩ : ∃ d, c.endBlkWaits l = d := ⟨_, rfl⟩
  have hai : a.Inv := ha ▸ (emptied_kept h l).inv
  have kb : State.Kept ⟨0x6c00000000000000208, a⟩ b := hb ▸ restored_kept hai h l lvl
  have kc : State.Kept ⟨0x8, b⟩ c := hc ▸ stopDogs_kept kb.inv l
  have kd : State.Kept ⟨0x14000000000000308, c⟩ d := hd ▸ endBlkWaits_kept kc.inv l
  obtain ⟨hregs, hmem, heng, hrel⟩ := endLane_same (d.zeroMem l lvl) l lvl
  have hdeep : s.clearDeep l lvl = (d.zeroMem l lvl).endLane l lvl := by rw [clearDeep_eq, ha, hb, hc, hd]
  have htail {P : Nat → Bool} (hP : Calm P) : c.Leaves P (s.clearDeep l lvl) := hdeep ▸ hd ▸ clearDeep_tail_leaves hP c l lvl
  refine ⟨?_, hdeep ▸ hrel, fun n hn => ?_, fun x hx => ?_, fun hp x hx => ?_, fun k hk x hx => ?_⟩
  · have hz : (d.zeroMem l lvl).engines l = d.engines l := by rw [zeroMem_with]; rfl
    have hcl : (s.clearEngines l).Inv := (State.clearEngines_kept (.refl _) (State.Kept.refl h)).inv
    have ka : State.Kept ⟨0x208, s.clearEngines l⟩ a := ha ▸ State.clearSlots_kept (.refl _)
      (State.handCommits_kept (.of (.refl _) (show Nat.land 0x200 0x208 = 0x200 by decide)) (.refl hcl))
    rw [hdeep, heng, hz, kd.engines (by unfold NoEngines; decide), kc.engines (by unfold NoEngines; decide),
      kb.engines (by unfold NoEngines; decide), ka.engines (by unfold NoEngines; decide), clearEngines_engines]
  · have hkey : regKey l.ix (R.RSTC_WDT_CFG n) = l.ix * homeSpan + R.RSTC_WDT_CFG n := by
      refine regKey_own (sharedReg_own (b := 0) (by decide) ?_) l
      unfold R.RSTC_WDT_CFG
      omega
    have hP := Calm.key l (a := R.RSTC_WDT_CFG n) (by unfold R.RSTC_WDT_CFG homeSpan; omega) (by unfold R.RSTC_WDT_CFG Loose; omega)
    exact ((htail hP).reg (by simp [hkey])).trans (hc ▸ stopDogs_cfg kb.inv.regs l hn)
  · exact (zeroMem_mem (hmem ▸ hdeep ▸ hx)).1
  · exact (zeroMem_mem (hmem ▸ hdeep ▸ hx)).2 hp
  · have hP := Calm.block l hk
    have hbc : b.Leaves (inBlock l k) c := hc ▸ stopDogs_leaves b l fun a h1 h2 => by
      simp only [List.mem_cons, List.not_mem_nil, or_false] at hk
      refine decide_eq_false ?_
      omega
    have hall := ((hb ▸ restored_leaves hP a s l lvl : a.Leaves _ b).trans hbc).trans (htail hP)
    refine Bool.eq_false_iff.mpr fun hin => ?_
    have hmem : x ∈ (s.clearDeep l lvl).regs.filter (fun c => inBlock l k c.1) := List.mem_filter.mpr ⟨hx, hin⟩
    rw [hall] at hmem
    have hslot : ∀ k ∈ [9, 10, 15, 16], k ∈ sysSlots := by
      unfold sysSlots
      decide
    exact absurd hin (Bool.eq_false_iff.mp (emptied_block s l (hslot k hk) x (ha ▸ (List.mem_filter.mp hmem).1)))

/-! ### A reset request (R98 to R103) -/

section
variable {P : Nat → Bool}

theorem clearDeep_leaves (hP : Calm P) (s : State) (l : Lane) (lvl : RLevel)
    (hlow : ∀ a < 0xE1700000, P (l.ix * homeSpan + a) = false) : s.Leaves P (s.clearDeep l lvl) :=
  (emptied_leaves hP.shadow s l hlow).trans <| (restored_leaves hP _ s l lvl).trans <|
    (stopDogs_leaves _ l fun a _ ha => hlow a (by omega)).trans (clearDeep_tail_leaves hP _ l lvl)

/-- After the tally, a reset writes no register beyond the lane's own blocks before PARI. -/
theorem laneReset_leaves (hP : Calm P) (s : State) (l : Lane) (lvl : RLevel) (cause detail : Nat)
    (hlow : ∀ a < 0xE1700000, P (l.ix * homeSpan + a) = false) :
    (s.tallied l cause).Leaves P (s.laneReset l lvl cause detail) := by
  have hcause : P (l.ix * homeSpan + R.RSTC_RST_CAUSE) = false := hlow _ (by decide)
  by_cases hm : Merges ((s.tallied l cause).lane l).resetting lvl
  · rw [laneReset_of_merges hm]
    refine .setReg _ _ ?_
    rwa [regKey_own (sharedReg_own (b := 0) (by decide) (by decide)) l]
  · rw [laneReset_of_not_merges hm]
    refine State.Leaves.trans ?_ (goDown_leaves hP _ l lvl _ _ hcause)
    unfold State.deepened
    split
    · exact .refl P _
    · exact clearDeep_leaves hP _ l lvl hlow

end

theorem count_counts {s : State} (w : rfWf s.regs = true) (l : Lane) (a : Nat) : s.Counts (s.count l a) l a := by
  have hlt := (s.reg l a).isLt
  rw [State.Counts, State.reg_count_self w, BitVec.toNat_ofNat]
  exact Nat.mod_eq_of_lt (by unfold satInc; omega)

theorem laneReset_counts {s : State} (w : rfWf s.regs = true) (l : Lane) (lvl : RLevel) (cause detail : Nat) :
    s.Counts (s.laneReset l lvl cause detail) l (R.PARI_RST (causeRow cause)) := by
  have hrow := causeRow_le cause
  have hP : Calm (fun k => k == l.ix * homeSpan + R.PARI_RST (causeRow cause)) :=
    Calm.key l (by unfold R.PARI_RST homeSpan; omega) (by unfold R.PARI_RST Loose; omega)
  have hkey := regKey_pariRst l cause
  have hall := (startRevert_tally_leaves hP s l cause).trans (laneReset_leaves hP s l lvl cause detail fun a ha => by
    refine beq_false_of_ne ?_
    unfold R.PARI_RST
    omega)
  unfold State.Counts
  rw [hall.reg (by simp [hkey])]
  exact count_counts w l _

theorem laneReset_diesKept (s : State) (l : Lane) (lvl : RLevel) (cause detail : Nat) :
    s.DiesKept (s.laneReset l lvl cause detail) := by
  have hrow := causeRow_le cause
  have hlane (a : Nat) (ha : a < homeSpan) : ((l.ix * homeSpan + a) / homeSpan == 2) = false := by
    have hl := lane_ix_lt l
    refine beq_false_of_ne ?_
    unfold homeSpan at *
    omega
  exact (tallied_leaves Calm.dies s l cause (hlane _ (by unfold R.PARI_RST homeSpan; omega))).trans
    (laneReset_leaves Calm.dies s l lvl cause detail fun a ha => hlane a (by unfold homeSpan; omega))

/-- A request that merges marks the sequence in progress, and leaves its cause. -/
theorem laneReset_merged {s : State} (h : s.Inv) {l : Lane} {lvl : RLevel} {cause detail : Nat}
    (hm : Merges (s.lane l).resetting lvl) :
    (s.laneReset l lvl cause detail).bit l R.RSTC_RST_CAUSE F.RSTC_RST_CAUSE_MERGED = true ∧
    ((s.laneReset l lvl cause detail).lane l).resetting = (s.lane l).resetting ∧
    (s.laneReset l lvl cause detail).fld l R.RSTC_RST_CAUSE F.RSTC_RST_CAUSE_CAUSE =
      s.fld l R.RSTC_RST_CAUSE F.RSTC_RST_CAUSE_CAUSE := by
  have hu := tallied_kept h l cause
  have hlane : (s.tallied l cause).lane l = s.lane l := hu.lane (by decide) l
  have hf : Fld.ok F.RSTC_RST_CAUSE_MERGED ∧ Fld.ok F.RSTC_RST_CAUSE_CAUSE := by unfold Fld.ok; decide
  have hP := Calm.key l (a := R.RSTC_RST_CAUSE) (by decide) (by unfold Loose; decide)
  have hkey : regKey l.ix R.RSTC_RST_CAUSE = l.ix * homeSpan + R.RSTC_RST_CAUSE :=
    regKey_own (sharedReg_own (b := 0) (by decide) (by decide)) l
  have hreg : (s.tallied l cause).reg l R.RSTC_RST_CAUSE = s.reg l R.RSTC_RST_CAUSE := by
    refine (tallied_leaves hP s l cause (beq_false_of_ne ?_)).reg (by simp [hkey])
    unfold R.PARI_RST R.RSTC_RST_CAUSE
    omega
  rw [laneReset_of_merges (hlane.symm ▸ hm)]
  refine ⟨State.bit_setBitF_self hu.regs l _ _ _ hf.1 rfl, ?_, ?_⟩
  · have hset := State.lane_congr (State.setBitF_laneE (s.tallied l cause) l R.RSTC_RST_CAUSE F.RSTC_RST_CAUSE_MERGED true)
      (State.setBitF_laneW ..) l
    rw [hset, hlane]
  · refine (State.fld_setFld_apart hu.regs l l _ _ hf.1 hf.2 (by unfold Fld.apart; decide)).trans ?_
    unfold State.fld
    rw [hreg]

theorem regKey_dog (l : Lane) {n : Nat} (hn : n < 6) : regKey l.ix (R.RSTC_WDT_CFG n) = l.ix * homeSpan + R.RSTC_WDT_CFG n := by
  refine regKey_own (sharedReg_own (b := 0) (by decide) ?_) l
  unfold R.RSTC_WDT_CFG
  omega

/-- The configuration of a watchdog is among what only SYS and POR reset. -/
theorem Calm.dog (l : Lane) {n : Nat} (hn : n < 6) : Calm (fun k => k == l.ix * homeSpan + R.RSTC_WDT_CFG n) :=
  Calm.key l (by unfold R.RSTC_WDT_CFG homeSpan; omega) (by unfold R.RSTC_WDT_CFG Loose; omega)

section
variable {s : State} (h : s.Inv) (l : Lane) (lvl : RLevel) (om : Nat) (w : Word)

theorem goDown_dog {n : Nat} (hn : n < 6) : (s.goDown l lvl om w).reg l (R.RSTC_WDT_CFG n) = s.reg l (R.RSTC_WDT_CFG n) := by
  refine (goDown_leaves (Calm.dog l hn) s l lvl om w (beq_false_of_ne ?_)).reg (by simp [regKey_dog l hn])
  unfold R.RSTC_RST_CAUSE R.RSTC_WDT_CFG
  omega

include h

theorem goDown_mem : (s.goDown l lvl om w).mem = s.mem :=
  have k : State.Kept ⟨0x1a0048, s⟩ (s.goDown l lvl om w) := goDown_kept (.refl _) (.refl h) om w
  have ko : State.Only 0x1a0048 s _ := k.only
  ko.mem.resolve_right (by decide)

theorem goDown_engines : (s.goDown l lvl om w).engines l = s.engines l :=
  have k : State.Kept ⟨0x1a0048, s⟩ (s.goDown l lvl om w) := goDown_kept (.refl _) (.refl h) om w
  k.engines (by unfold NoEngines; decide) l

/-- What is cleared stays so as the lane goes down. -/
theorem goDown_cleared (hc : s.Cleared l lvl) : (s.goDown l lvl om w).Cleared l lvl := by
  have hmem := goDown_mem h l lvl om w
  refine ⟨(goDown_engines h l lvl om w).trans hc.engines, (goDown_wentDown h l lvl om w).released.trans hc.released,
    fun n hn => (goDown_dog l lvl om w hn).trans (hc.dogs n hn), hmem ▸ hc.sram, hmem ▸ hc.lpddr, fun b hb x hx => ?_⟩
  refine Bool.eq_false_iff.mpr fun hin => ?_
  have hrst : inBlock l b (l.ix * homeSpan + R.RSTC_RST_CAUSE) = false := by
    simp only [List.mem_cons, List.not_mem_nil, or_false] at hb
    refine decide_eq_false ?_
    unfold R.RSTC_RST_CAUSE
    omega
  have hleft := goDown_leaves (Calm.block l hb) s l lvl om w hrst
  have hx' : x ∈ (s.goDown l lvl om w).regs.filter (fun c => inBlock l b c.1) := List.mem_filter.mpr ⟨hx, hin⟩
  rw [hleft] at hx'
  exact absurd hin (Bool.eq_false_iff.mp (hc.blocks b hb x (List.mem_filter.mp hx').1))

end

/-- CORE leaves the engines, memory and watchdogs. -/
theorem laneReset_core {s : State} (h : s.Inv) {l : Lane} {cause detail : Nat} (hm : ¬ Merges (s.lane l).resetting .core) :
    (s.laneReset l .core cause detail).engines l = s.engines l ∧ (s.laneReset l .core cause detail).mem = s.mem ∧
    ∀ n < 6, (s.laneReset l .core cause detail).reg l (R.RSTC_WDT_CFG n) = s.reg l (R.RSTC_WDT_CFG n) := by
  have hu := tallied_kept h l cause
  have ho : State.Only 0x10014000000000000108 s (s.tallied l cause) := hu.only
  rw [laneReset_of_not_merges ((hu.lane (by decide) l).symm ▸ hm)]
  refine ⟨(goDown_engines hu.inv ..).trans (hu.engines (by unfold NoEngines; decide) l),
    (goDown_mem hu.inv ..).trans (ho.mem.resolve_right (by decide)), fun n hn => (goDown_dog _ _ _ _ hn).trans ?_⟩
  refine (tallied_leaves (Calm.dog l hn) s l cause (beq_false_of_ne ?_)).reg (by simp [regKey_dog l hn])
  unfold R.PARI_RST R.RSTC_WDT_CFG
  omega

theorem laneReset_cleared {s : State} (h : s.Inv) {l : Lane} {lvl : RLevel} {cause detail : Nat}
    (hm : ¬ Merges (s.lane l).resetting lvl) (hl : lvl ≠ .core) : (s.laneReset l lvl cause detail).Cleared l lvl := by
  have hu := tallied_kept h l cause
  rw [laneReset_of_not_merges ((hu.lane (by decide) l).symm ▸ hm)]
  unfold State.deepened
  rw [if_neg hl]
  exact goDown_cleared (State.clearDeep_kept (.refl _) (.refl hu.inv)).inv l lvl _ _ (clearDeep_cleared hu.inv l lvl)

theorem laneReset_wentDown {s : State} (h : s.Inv) {l : Lane} {lvl : RLevel} {cause detail : Nat}
    (hm : ¬ Merges (s.lane l).resetting lvl) :
    ∃ v, State.WentDown v (s.laneReset l lvl cause detail) l lvl (causeWord lvl cause detail) := by
  have hu := tallied_kept h l cause
  have hv : ((s.tallied l cause).deepened l lvl).Inv := by
    unfold State.deepened
    split
    · exact hu.inv
    · exact (State.clearDeep_kept (.refl _) (.refl hu.inv)).inv
  rw [laneReset_of_not_merges ((hu.lane (by decide) l).symm ▸ hm)]
  exact ⟨_, goDown_wentDown hv ..⟩

/-- A reset of a lane does what R98 to R103 say, whatever its level. -/
theorem laneReset_resetTo {s : State} (h : s.Inv) (l : Lane) (lvl : RLevel) {cause : Nat} (hc : cause < 256) (detail : Nat) :
    s.ResetTo (s.laneReset l lvl cause detail) l lvl cause detail := by
  have honly : State.Only 0x16cfdce0fafc005a0358 s (s.laneReset l lvl cause detail) :=
    (State.laneReset_kept (.refl _) (.refl h)).only
  refine ⟨laneReset_counts h.regs l lvl cause detail, laneReset_diesKept s l lvl cause detail,
    honly.outs.resolve_right (by decide), honly.feeds.resolve_right (by decide), honly.fcs.resolve_right (by decide),
    laneReset_merged h, fun hm => ?_⟩
  obtain ⟨v, hv⟩ := laneReset_wentDown (cause := cause) (detail := detail) h hm
  have harb := hv.arb
  refine ⟨hv.cause.trans (causeWord_eq lvl hc detail), hv.lst, hv.resetting, hv.elder, hv.cores, hv.serving, hv.ball,
    by cases l <;> exact harb, hv.irqs, ?_, fun hl => ?_⟩
  · rintro rfl
    obtain ⟨he, hmem, hdog⟩ := laneReset_core (cause := cause) (detail := detail) h hm
    have htide := congrArg (fun e => e.1) he
    have hcvc := congrArg (fun e => e.2.1) he
    have hharb := congrArg (fun e => e.2.2) he
    exact ⟨htide, hcvc, hharb, hmem, hdog⟩
  · have hcl := laneReset_cleared (cause := cause) (detail := detail) h hm hl
    have htide := congrArg (fun e => e.1) hcl.engines
    have hcvc := congrArg (fun e => e.2.1) hcl.engines
    have hharb := congrArg (fun e => e.2.2) hcl.engines
    exact ⟨htide, hcvc, hharb, hcl.released, hcl.dogs, hcl.sram, hcl.lpddr, fun b hb c hx =>
      of_decide_eq_false (hcl.blocks b hb c hx)⟩

/-! ### POR of a lane (R66, R82) -/

/-- What a reset does does not hang on the power of the lane. -/
theorem State.ResetTo.unpower {s t : State} {l : Lane} {lvl : RLevel} {cause detail : Nat} (h : s.ResetTo t l lvl cause detail) :
    s.ResetTo (t.setLane l { t.lane l with powered := false, holdup := false }) l lvl cause detail := by
  cases l <;> exact h

theorem lanePor_on {s : State} (h : s.Inv) {l : Lane} (straps : Nat) (hp : (s.lane l).powered = true) (hh : (s.lane l).holdup = true) :
    Completes (exec (.lanePor l true straps) s) (fun t =>
      s.ResetTo t l .por 0x01 0 ∧ (t.lane l).powered = false ∧ (t.lane l).holdup = false) := by
  have he : exec (.lanePor l true straps) s =
      .next ((s.laneReset l .por 0x01 0).setLane l { (s.laneReset l .por 0x01 0).lane l with powered := false, holdup := false }) := by
    show execLanePor l true straps s = _
    unfold execLanePor
    rw [if_pos rfl, hp, hh]
    rfl
  refine ⟨_, he, (laneReset_resetTo h l .por (by decide) 0).unpower, ?_⟩
  rw [State.lane_setLane]
  exact ⟨rfl, rfl⟩

/-! ### Hold-up (R82) -/

theorem laneSupplyLow_powered {s : State} {l : Lane} (low : Bool) (hp : (s.lane l).powered = true) :
    exec (.laneSupplyLow l low) s = .next (s.setLane l { s.lane l with holdup := low, warned := (s.lane l).warned && low }) :=
  if_pos hp

theorem laneSupplyLow_unpowered {s : State} {l : Lane} (low : Bool) (hp : (s.lane l).powered = false) :
    exec (.laneSupplyLow l low) s = .next s :=
  if_neg (by simp [hp])

/-! ### The supply monitor's warning (R196, R598) -/

theorem State.setPar_regs (s : State) (l : Lane) (x : ParRt) : (s.setPar l x).regs = s.regs := by cases l <;> rfl

@[simp] theorem State.par_setPar (s : State) (l : Lane) (x : ParRt) : (s.setPar l x).par l = x := by cases l <;> rfl

theorem State.par_setLane (s : State) (l k : Lane) (x : LaneRt) : (s.setLane l x).par k = s.par k := by cases l <;> cases k <;> rfl

theorem halfCycles_par (s : State) (l k : Lane) (r : Int) (n : Nat) : (s.halfCycles l r n).par k = s.par k := by
  unfold State.halfCycles
  split
  · cases k
    · exact State.setReg_parE ..
    · exact State.setReg_parW ..
  · rfl

/-- The half-cycles left on the stack go to the record, and the slots stay. -/
theorem flushStack_slots (s : State) (l : Lane) : ((s.flushStack l).par l).slots = (s.par l).slots := by
  have hfold (ps : List (Int × Int)) (t : State) :
      (ps.foldl (fun s p => s.halfCycles l (absDiff p.1 p.2) 1) t).par l = t.par l := by
    induction ps generalizing t with
    | nil => rfl
    | cons p ps ih => exact (ih _).trans (halfCycles_par ..)
  unfold State.flushStack
  extract_lets st t
  have ht : t.par l = s.par l := hfold _ s
  rw [State.par_setPar]
  show (t.par l).slots = _
  rw [ht]

theorem parFlush_par (s : State) (l : Lane) :
    ((s.parFlush l).par l).slots = ((s.parFlush l).parCells l :: (s.par l).slots).take 256 ∧ ((s.parFlush l).par l).secs = 0 := by
  have hcells : (s.parFlush l).parCells l = (s.flushStack l).parCells l := by
    unfold State.parCells State.parFlush State.parWrite
    rw [State.setPar_regs]
  rw [hcells, ← flushStack_slots s l]
  unfold State.parFlush State.parWrite
  rw [State.par_setPar]
  exact ⟨rfl, rfl⟩

theorem parFlush_lane {s : State} (h : s.Inv) (l k : Lane) : (s.parFlush l).lane k = s.lane k :=
  State.Kept.lane (m := 0xc0000000000000000008) (State.parFlush_kept (.refl _) (.refl h)) (by decide) k

theorem setLane_inv {s : State} (h : s.Inv) (l : Lane) (x : LaneRt) : (s.setLane l x).Inv :=
  (State.setLane_kept (φ := ⟨0x180000, s⟩) (.refl _) (.refl h)).inv

/-- The lane is warned, and a running Elder flushes the parish record. -/
theorem supplyWarning_holdup {s : State} (h : s.Inv) {l : Lane} (hp : (s.lane l).powered = true) (hh : (s.lane l).holdup = true) :
    Completes (exec (.supplyWarning l) s) (fun t =>
      t.lane l = { s.lane l with warned := true } ∧ t.lane l.other = s.lane l.other ∧
      ((s.lane l).elderUp = false → t.regs = s.regs ∧ t.par l = s.par l) ∧
      ((s.lane l).elderUp = true → (t.par l).slots = (t.parCells l :: (s.par l).slots).take 256 ∧ (t.par l).secs = 0)) := by
  obtain ⟨u, hu⟩ : ∃ u, s.setLane l { s.lane l with warned := true } = u := ⟨_, rfl⟩
  have hl : u.lane l = { s.lane l with warned := true } := hu ▸ State.lane_setLane ..
  have ho : u.lane l.other = s.lane l.other := hu ▸ State.lane_setLane_other ..
  have hpar : u.par l = s.par l := hu ▸ State.par_setLane ..
  have he : exec (.supplyWarning l) s = .next (if (s.lane l).elderUp then u.parFlush l else u) := by
    have helder : (u.lane l).elderUp = (s.lane l).elderUp := hl ▸ rfl
    rw [← helder, ← hu]
    exact if_pos (by rw [hp, hh]; rfl)
  cases hup : (s.lane l).elderUp with
  | false =>
    refine ⟨u, by rw [he, hup]; rfl, hl, ho, fun _ => ⟨hu ▸ State.regs_setLane .., hpar⟩, fun hn => Bool.noConfusion hn⟩
  | true =>
    have hi : u.Inv := hu ▸ setLane_inv h l _
    refine ⟨u.parFlush l, by rw [he, hup]; rfl, (parFlush_lane hi l l).trans hl, (parFlush_lane hi l _).trans ho,
      fun hn => Bool.noConfusion hn, fun _ => ?_⟩
    rw [← hpar]
    exact parFlush_par u l

theorem supplyWarning_idle {s : State} {l : Lane} (hh : (s.lane l).holdup = false) : exec (.supplyWarning l) s = .next s :=
  if_neg (by rw [hh, Bool.and_false]; decide)

/-! ### The VKEEP inputs (R83) -/

/-- The first supply of the always-on logic asserts INH0 to INH3 (Table 2.10, step 1). -/
def ModuleRt.firstSupply (m : ModuleRt) (first : Bool) : ModuleRt := if first then { m with inh := [true, true, true, true] } else m

/-- What a VKEEP input's new voltage makes of the module. -/
def ModuleRt.vkeep (m : ModuleRt) (l : Lane) (up : Bool) : ModuleRt :=
  match l with
  | .E => { m with vkeepE := up }
  | .W => { m with vkeepW := up }

def vkeepFld (l : Lane) : Fld := if l = .E then F.SUPC_VKEEP_V_KEEP_E else F.SUPC_VKEEP_V_KEEP_W

theorem vkeep_exec (l : Lane) (mv : Int) (s : State) : exec (.vkeepInputChange l mv) s = .next
    ({ s.setFldBoth R.SUPC_VKEEP (vkeepFld l) (uext 16 (satS 16 (mv / 2))) with
        mod_ := (s.mod_.vkeep l (decide (3000 ≤ mv))).firstSupply (!s.aonPowered && decide (3000 ≤ mv)) }.syncVkeep) := by
  show execVkeepInputChange l mv s = _
  unfold execVkeepInputChange ModuleRt.firstSupply
  cases l <;> (dsimp only; split <;> rfl)

theorem firstSupply_eq (m : ModuleRt) (l : Lane) (up first : Bool) : (m.vkeep l up).firstSupply first =
    { m with vkeepE := if l = .E then up else m.vkeepE, vkeepW := if l = .W then up else m.vkeepW,
             inh := if first then [true, true, true, true] else m.inh } := by
  cases l <;> cases first <;> rfl

theorem ne_regKey_of_bothKeys {l : Lane} {a k : Nat} (hk : k ∉ bothKeys a) : k ≠ regKey l.ix a := by
  rintro rfl
  cases l <;> simp [bothKeys, Lane.ix] at hk

theorem setFldBoth_regsBut (s : State) (a : Nat) (f : Fld) (v : Nat) : s.RegsBut (bothKeys a) (s.setFldBoth a f v) := by
  have put (t : State) (l : Lane) {k : Nat} (hk : k ∉ bothKeys a) : rfGet (t.setFld l a f v).regs k = rfGet t.regs k :=
    rfGet_rfPut_ne _ _ _ _ (ne_regKey_of_bothKeys hk).symm
  exact fun k hk => (put _ .W hk).trans (put s .E hk)

theorem syncVkeep_mod (s : State) : s.syncVkeep.mod_ = s.mod_ :=
  (State.setFld_mod_ (s.setFld .E ..) ..).trans (State.setFld_mod_ s ..)

/-- VKEEP_LOST is set while both inputs are low (R83). -/
theorem syncVkeep_lost {s : State} (w : rfWf s.regs = true) (l : Lane) :
    s.syncVkeep.bit l R.SUPC_STATUS F.SUPC_STATUS_VKEEP_LOST = (!s.mod_.vkeepE && !s.mod_.vkeepW) :=
  State.bit_setBitBoth w l _ _ _ (by unfold Fld.ok; decide) rfl

theorem vkeepInputChange_completes {s : State} (h : s.Inv) (l : Lane) (mv : Int) :
    Completes (exec (.vkeepInputChange l mv) s) (fun t =>
      let e := if l = .E then decide (3000 ≤ mv) else s.mod_.vkeepE
      let w := if l = .W then decide (3000 ≤ mv) else s.mod_.vkeepW
      t.mod_ = { s.mod_ with vkeepE := e, vkeepW := w, inh := t.mod_.inh } ∧
      t.mod_.inh = (if decide (3000 ≤ mv) && !s.aonPowered then [true, true, true, true] else s.mod_.inh) ∧
      (∀ m, t.bit m R.SUPC_STATUS F.SUPC_STATUS_VKEEP_LOST = (!e && !w) ∧
        t.fld m R.SUPC_VKEEP (vkeepFld l) = uext 16 (satS 16 (mv / 2))) ∧
      s.RegsBut (bothKeys R.SUPC_VKEEP ++ bothKeys R.SUPC_STATUS) t ∧ t = { s with regs := t.regs, mod_ := t.mod_ }) := by
  obtain ⟨m, hm⟩ : ∃ m, (s.mod_.vkeep l (decide (3000 ≤ mv))).firstSupply (!s.aonPowered && decide (3000 ≤ mv)) = m := ⟨_, rfl⟩
  obtain ⟨v, hv⟩ : ∃ v, s.setFldBoth R.SUPC_VKEEP (vkeepFld l) (uext 16 (satS 16 (mv / 2))) = v := ⟨_, rfl⟩
  have hf : Fld.ok (vkeepFld l) ∧ fldWidth (vkeepFld l) = 16 := by cases l <;> (unfold Fld.ok; decide)
  have hvw : rfWf v.regs = true := hv ▸ State.setFldBoth_wf h.regs
  have hvr : s.RegsBut (bothKeys R.SUPC_VKEEP) v := hv ▸ setFldBoth_regsBut s _ _ _
  have hvs : v = { s with regs := v.regs } := hv ▸ rfl
  have hvf (k : Lane) : v.fld k R.SUPC_VKEEP (vkeepFld l) = uext 16 (satS 16 (mv / 2)) := by
    rw [← hv, State.fld_setFldBoth h.regs k _ _ _ hf.1, hf.2]
    exact Nat.mod_eq_of_lt (uext_lt ..)
  have hx := (vkeep_exec l mv s).trans (by rw [hm, hv])
  rw [firstSupply_eq] at hm
  obtain ⟨t, ht⟩ : ∃ t, { v with mod_ := m }.syncVkeep = t := ⟨_, rfl⟩
  have htm : t.mod_ = m := ht ▸ syncVkeep_mod _
  have hinh : m.inh = if decide (3000 ≤ mv) && !s.aonPowered then [true, true, true, true] else s.mod_.inh := by
    rw [← hm, Bool.and_comm]
  have hts : t = { s with regs := t.regs, mod_ := t.mod_ } := by
    rw [htm, ← ht]
    exact congrArg (fun u : State => State.syncVkeep { u with mod_ := m }) hvs
  refine ⟨t, ht ▸ hx, ?_, htm ▸ hinh, fun k => ⟨?_, ?_⟩, ?_, hts⟩
  · rw [htm, ← hm]
  · rw [← ht, syncVkeep_lost (s := { v with mod_ := m }) hvw k, ← hm]
  · refine Eq.trans ?_ (hvf k)
    unfold State.fld
    rw [← ht]
    exact congrArg (getF · _) (State.reg_setFldBoth_ne fun j => regKey_ne (by decide) (by decide) (by decide))
  · intro k hk
    rw [List.mem_append, not_or] at hk
    exact (ht ▸ setFldBoth_regsBut { v with mod_ := m } _ _ _ k hk.2 : rfGet t.regs k = rfGet v.regs k).trans (hvr k hk.1)

/-! ### The release of POR (R66, R67, R78) -/

/-- The fields that show the straps. -/
def strapFields : List (Nat × Fld) :=
  [(R.FERRY_LANE, F.FERRY_LANE_HOME), (R.SUPC_STATUS, F.SUPC_STATUS_STRAP_CLASS), (R.SUPC_STATUS, F.SUPC_STATUS_STRAP_INVALID),
    (R.SUPC_STATUS, F.SUPC_STATUS_VKEEP_LOST)]

theorem strapFields_ok : ∀ x ∈ strapFields, x.1 < 2 ^ 32 ∧ Fld.ok x.2 := by
  unfold Fld.ok
  decide

theorem reloadShadow_regOnly {p : Nat → Fld → Prop} {s : State} (h : s.Inv) (l : Lane) (lo hi : Nat) :
    RegOnly p s (s.reloadShadow l lo hi) where
  reg _ _ ha _ := State.reloadShadow_reg ha
  fld _ _ f ha _ _ := congrArg (getF · f) (State.reloadShadow_reg ha)
  wf := (State.reloadShadow_kept (φ := ⟨0x8, s⟩) (.refl _) (.refl h)).regs

theorem RegOnly.fld_of_named {xs : List (Nat × Fld)} {s t : State} (h : RegOnly (Named xs) s t) (l : Lane) {a : Nat} {g : Fld}
    (ha : a < 2 ^ 32) (hg : Fld.ok g) (hx : ∀ x ∈ xs, x.1 = a → Fld.apart x.2 g) : t.fld l a g = s.fld l a g :=
  h.fld l a g ha hg fun f hf => hx (a, f) hf rfl

/-- The write of such a field: what it leaves, and what it shows. -/
theorem setStrapField {s : State} (h : s.Inv) (l : Lane) {a : Nat} {f : Fld} (v : Nat) (hx : (a, f) ∈ strapFields) :
    RegOnly (Named [(a, f)]) s (s.setFld l a f v) ∧ (s.setFld l a f v).Inv ∧ (s.setFld l a f v).fld l a f = v % 2 ^ fldWidth f :=
  have hok := strapFields_ok _ hx
  ⟨.setFld h.regs hok.1 hok.2 List.mem_cons_self, (State.setFld_kept (φ := ⟨0x8, s⟩) (.refl _) (.refl h)).inv,
    State.fld_setFld_self h.regs l a f v hok.2⟩

theorem bit_of_fld {s : State} {l : Lane} {a : Nat} {f : Fld} {b : Bool} (h : s.fld l a f = b2n b) : s.bit l a f = b := by
  unfold State.bit
  rw [h]
  cases b <;> rfl

theorem strapHome_lt (x : Nat) : strapHome x < 2 := by
  unfold strapHome
  split <;> decide

theorem b2n_lt (b : Bool) : b2n b < 2 := by cases b <;> decide

theorem strapClass_lt (x : Nat) : strapClass x < 4 := by
  unfold strapClass
  omega

section
variable {s : State} (h : s.Inv) (l : Lane)
include h

/-- What the display of the straps leaves, and what it shows. -/
theorem showStraps_shows : RegOnly (Named strapFields) s (s.showStraps l) ∧
    (s.showStraps l).fld l R.FERRY_LANE F.FERRY_LANE_HOME = strapHome (s.lane l).straps ∧
    (s.showStraps l).fld l R.SUPC_STATUS F.SUPC_STATUS_STRAP_CLASS = strapClass (s.lane l).straps ∧
    (s.showStraps l).bit l R.SUPC_STATUS F.SUPC_STATUS_STRAP_INVALID = decide (strapClass (s.lane l).straps = 3) := by
  have up {xs : List (Nat × Fld)} {t u : State} (hx : ∀ x ∈ xs, x ∈ strapFields) (ht : RegOnly (Named xs) t u) :
      RegOnly (Named strapFields) t u := ht.mono fun a f => hx (a, f)
  unfold State.showStraps
  extract_lets x k a b c d
  obtain ⟨ra, ia, va⟩ := setStrapField h l (a := R.FERRY_LANE) (f := F.FERRY_LANE_HOME) (strapHome x) (by decide)
  obtain ⟨rb, ib, vb⟩ := setStrapField ia l (a := R.SUPC_STATUS) (f := F.SUPC_STATUS_STRAP_CLASS) k (by decide)
  obtain ⟨rc, ic, vc⟩ := setStrapField ib l (a := R.SUPC_STATUS) (f := F.SUPC_STATUS_STRAP_INVALID) (b2n (k == 3)) (by decide)
  obtain ⟨rd, id, -⟩ := setStrapField ic l (a := R.SUPC_STATUS) (f := F.SUPC_STATUS_VKEEP_LOST)
    (b2n (!c.mod_.vkeepE && !c.mod_.vkeepW)) (by decide)
  have hd : RegOnly (Named [(R.SUPC_STATUS, F.SUPC_STATUS_VKEEP_LOST)]) c (d.reloadShadow l 0xE0200000 0xE0300000) :=
    rd.next fun _ => reloadShadow_regOnly id l _ _
  have hok : Fld.ok F.FERRY_LANE_HOME ∧ Fld.ok F.SUPC_STATUS_STRAP_CLASS ∧ Fld.ok F.SUPC_STATUS_STRAP_INVALID := by
    unfold Fld.ok
    decide
  refine ⟨(((up (by decide) ra).next fun _ => up (by decide) rb).next fun _ => up (by decide) rc).next fun _ => up (by decide) hd,
    ?_, ?_, bit_of_fld ?_⟩
  · exact (hd.fld_of_named l (by decide) hok.1 (by unfold Fld.apart; decide)).trans <|
      (rc.fld_of_named l (by decide) hok.1 (by unfold Fld.apart; decide)).trans <|
      (rb.fld_of_named l (by decide) hok.1 (by unfold Fld.apart; decide)).trans (va.trans (Nat.mod_eq_of_lt (strapHome_lt x)))
  · exact (hd.fld_of_named l (by decide) hok.2.1 (by unfold Fld.apart; decide)).trans <|
      (rc.fld_of_named l (by decide) hok.2.1 (by unfold Fld.apart; decide)).trans (vb.trans (Nat.mod_eq_of_lt (strapClass_lt _)))
  · exact (hd.fld_of_named l (by decide) hok.2.2 (by unfold Fld.apart; decide)).trans (vc.trans (Nat.mod_eq_of_lt (b2n_lt _)))

/-- The feeds of a power die take the class, and no other register changes. -/
theorem strapFeeds_sets {d : Nat} (hd : d < 2) : RegOnly (fun a _ => ∃ f ∈ [3 * d + 1, 3 * d + 2, 3 * d + 3], a = R.SUPC_FEED_CFG f)
    s (s.strapFeeds d) ∧
    (strapClass s.mod_.straps ≠ 3 → ∀ f ∈ [3 * d + 1, 3 * d + 2, 3 * d + 3],
      (s.strapFeeds d).shFld (R.SUPC_FEED_CFG f) F.SUPC_FEED_CFG_CLASS = strapClass s.mod_.straps) := by
  have hok : Fld.ok F.SUPC_FEED_CFG_CLASS := by unfold Fld.ok; decide
  have hlt {f : Nat} (hf : f ∈ [3 * d + 1, 3 * d + 2, 3 * d + 3]) : 1 ≤ f ∧ R.SUPC_FEED_CFG f < 2 ^ 32 := by
    simp only [List.mem_cons, List.not_mem_nil, or_false] at hf
    unfold R.SUPC_FEED_CFG
    omega
  unfold State.strapFeeds
  extract_lets k
  split
  next hk => exact ⟨.refl h.regs, fun hn => absurd hk hn⟩
  next hk =>
    refine ⟨.forEach (fun t f hf w => .setShFld w (hlt hf).2 hok ⟨f, hf, rfl⟩) h.regs, fun _ f hf => ?_⟩
    refine forEach_reaches (keeps := fun t => rfWf t.regs = true) (reached := fun t => t.shFld (R.SUPC_FEED_CFG f) F.SUPC_FEED_CFG_CLASS = k)
      hf (fun t g _ w => State.setFld_wf w) (fun t w => ?_) (fun t g hg hne ht => ?_) h.regs
    · exact (State.fld_setFld_self w .E _ _ k hok).trans (Nat.mod_eq_of_lt (strapClass_lt _))
    · refine (congrArg (getF · F.SUPC_FEED_CFG_CLASS) (State.reg_setFld_ne (regKey_ne (hlt hg).2 (hlt hf).2 ?_))).trans ht
      have := hlt hg
      have := hlt hf
      unfold R.SUPC_FEED_CFG
      omega

end

/-- The power dies that no image has configured take the class of the straps (R78). -/
def State.strapDies (s : State) : State :=
  let s := if s.p0.up && !s.pw0.configured then s.strapFeeds 0 else s
  if s.p1.up && !s.pw1.configured then s.strapFeeds 1 else s

/-- The lane out of POR, with its straps. -/
def State.porTaken (s : State) (l : Lane) (straps : Nat) : State :=
  let s := { s with mod_ := { s.mod_ with straps := straps % 8 } }
  s.setLane l { s.lane l with powered := true, holdup := false, warned := false, released := [0], resetting := some .por,
                              straps := straps % 8, strapOk := decide (strapClass (straps % 8) ≠ 3), deferred := none }

theorem porRelease_eq (s : State) (l : Lane) (straps : Nat) :
    s.porRelease l straps = ((s.porTaken l straps).strapDies).showStraps l := rfl

theorem strapDies_kept {φ : Frame} {s : State} (hm : Sub 0x8 φ.fx) (h : s.Kept φ) : s.strapDies.Kept φ := by
  unfold State.strapDies
  extract_lets t
  have ht : t.Kept φ := kept_ite (fun _ => State.strapFeeds_kept hm h) fun _ => h
  exact kept_ite (fun _ => State.strapFeeds_kept hm ht) fun _ => ht

theorem strapDies_class {s : State} (h : s.Inv) (hup : s.p0.up = true) (hcfg : s.pw0.configured = false)
    (hk : strapClass s.mod_.straps ≠ 3) : ∀ f ∈ [1, 2, 3],
      s.strapDies.shFld (R.SUPC_FEED_CFG f) F.SUPC_FEED_CFG_CLASS = strapClass s.mod_.straps := by
  intro f hf
  have h0 := (strapFeeds_sets h (d := 0) (by decide)).2 hk f hf
  have hi : (s.strapFeeds 0).Inv := (State.strapFeeds_kept (φ := ⟨0x8, s⟩) (.refl _) (.refl h)).inv
  unfold State.strapDies
  extract_lets t
  have ht : t = s.strapFeeds 0 := if_pos (by rw [hup, hcfg]; rfl)
  rw [ht]
  split
  · refine ((strapFeeds_sets hi (d := 1) (by decide)).1.shFld ?_ (by unfold Fld.ok; decide) ?_).trans h0
    all_goals simp only [List.mem_cons, List.not_mem_nil, or_false] at hf
    · unfold R.SUPC_FEED_CFG
      omega
    · rintro g ⟨k, hk, he⟩
      simp only [List.mem_cons, List.not_mem_nil, or_false] at hk
      unfold R.SUPC_FEED_CFG at he
      omega
  · exact h0

/-- A lane that is released from POR by its supply monitor. -/
theorem lanePor_off {s : State} {l : Lane} (straps : Nat) (hon : s.mod_.poweredOn = true) (hsl : s.mod_.asleep = false)
    (hoff : (s.lane l).thermOff = false) (hrel : (s.lane l).released = []) (hres : (s.lane l).resetting = some .por)
    (hdn : s.heldDown l = false) : exec (.lanePor l false straps) s = .next (s.porRelease l straps) := by
  show execLanePor l false straps s = _
  unfold execLanePor
  rw [if_neg (by decide), hon, hsl, hoff, hrel, hres, hdn]
  rfl

theorem porTaken_takes {s : State} (h : s.Inv) (l : Lane) (straps : Nat) : (s.porTaken l straps).Inv ∧
    (s.porTaken l straps).mod_ = { s.mod_ with straps := straps % 8 } ∧
    ((s.porTaken l straps).p0 = s.p0 ∧ (s.porTaken l straps).pw0 = s.pw0) ∧
    (s.porTaken l straps).lane l = { s.lane l with
      powered := true, holdup := false, warned := false, released := [0], resetting := some .por, straps := straps % 8,
      strapOk := decide (strapClass (straps % 8) ≠ 3), deferred := none } ∧
    (s.porTaken l straps).lane l.other = s.lane l.other := by
  have hi : State.Inv { s with mod_ := { s.mod_ with straps := straps % 8 } } := h.like
  refine ⟨setLane_inv hi l _, ?_⟩
  cases l <;> exact ⟨rfl, ⟨rfl, rfl⟩, rfl, rfl⟩

theorem porRelease_releases {s : State} (h : s.Inv) (l : Lane) (straps : Nat) :
    let t := s.porRelease l straps
    t.mod_.straps = straps % 8 ∧ (t.lane l).straps = straps % 8 ∧ (t.lane l).powered = true ∧ (t.lane l).released = [0] ∧
    (t.lane l).strapOk = decide (strapClass (straps % 8) ≠ 3) ∧
    t.fld l R.FERRY_LANE F.FERRY_LANE_HOME = (if straps.testBit 0 then 0 else 1) ∧
    t.fld l R.SUPC_STATUS F.SUPC_STATUS_STRAP_CLASS = strapClass (straps % 8) ∧
    t.bit l R.SUPC_STATUS F.SUPC_STATUS_STRAP_INVALID = decide (strapClass (straps % 8) = 3) ∧
    (s.p0.up = true → s.pw0.configured = false → strapClass (straps % 8) ≠ 3 → ∀ f ∈ [1, 2, 3],
      t.shFld (R.SUPC_FEED_CFG f) F.SUPC_FEED_CFG_CLASS = strapClass (straps % 8)) ∧
    t.lane l.other = s.lane l.other := by
  obtain ⟨u, hu⟩ : ∃ u, s.porTaken l straps = u := ⟨_, rfl⟩
  obtain ⟨v, hv⟩ : ∃ v, u.strapDies = v := ⟨_, rfl⟩
  intro t
  have ht : t = v.showStraps l := by
    rw [← hv, ← hu]
    exact porRelease_eq s l straps
  obtain ⟨hui, hum, hup, hul, huo⟩ := porTaken_takes h l straps
  rw [hu] at hui hum hup hul huo
  have kv : State.Kept ⟨0x8, u⟩ v := hv ▸ strapDies_kept (.refl _) (.refl hui)
  have kt : State.Kept ⟨0x8, v⟩ t := ht ▸ State.showStraps_kept (.refl _) (.refl kv.inv)
  have hmod : t.mod_ = u.mod_ := (kt.only.mod_.resolve_right (show ¬ Nat.testBit 0x8 23 = true by decide)).trans
    (kv.only.mod_.resolve_right (show ¬ Nat.testBit 0x8 23 = true by decide))
  have hlane (k : Lane) : t.lane k = u.lane k := (kt.lane (by decide) k).trans (kv.lane (by decide) k)
  have hvl : (v.lane l).straps = straps % 8 := by rw [kv.lane (by decide) l, hul]
  obtain ⟨hreg, hhome, hclass, hbad⟩ := showStraps_shows kv.inv l
  rw [← ht, hvl] at hhome hclass hbad
  have hstr : u.mod_.straps = straps % 8 := by rw [hum]
  refine ⟨by rw [hmod, hum], by rw [hlane, hul], by rw [hlane, hul], by rw [hlane, hul], by rw [hlane, hul], ?_, hclass, hbad,
    fun h0 hc hk f hf => ?_, (hlane _).trans huo⟩
  · have hbit : (straps % 8).testBit 0 = straps.testBit 0 := by
      rw [Nat.testBit_zero, Nat.testBit_zero, Nat.mod_mod_of_dvd _ (by decide : 2 ∣ 8)]
    rw [hhome, strapHome, hbit]
  · have hfeed : v.shFld (R.SUPC_FEED_CFG f) F.SUPC_FEED_CFG_CLASS = strapClass (straps % 8) := by
      have := strapDies_class hui (hup.1 ▸ h0) (hup.2 ▸ hc) (hstr.symm ▸ hk) f hf
      rwa [hv, hstr] at this
    refine Eq.trans ?_ hfeed
    rw [ht]
    simp only [List.mem_cons, List.not_mem_nil, or_false] at hf
    refine hreg.shFld ?_ (by unfold Fld.ok; decide) fun g hg => ?_
    · unfold R.SUPC_FEED_CFG
      omega
    · have hname : ∀ x ∈ strapFields, x.1 = R.FERRY_LANE ∨ x.1 = R.SUPC_STATUS := by decide
      have := hname _ hg
      unfold R.SUPC_FEED_CFG R.FERRY_LANE R.SUPC_STATUS at this
      omega

/-! ### The loss of the always-on supplies (R190, R602) -/

/-! #### The end of an entry does not bring the clock back -/

theorem endEntry_rtcLost (s : State) (n d err : Nat) : (s.endEntry n d err).led.rtcLost = s.led.rtcLost := by
  unfold State.endEntry
  split
  · rfl
  split
  · rw [syncLedg_led, countBoth_led]
    rfl
  · rfl

theorem settleQuiesce_rtcLost (s : State) : s.settleQuiesce.led.rtcLost = s.led.rtcLost := by
  refine foldl_rel (R := fun s t => t.led.rtcLost = s.led.rtcLost) (fun _ => rfl) (fun _ _ _ h k => k.trans h) (fun t v => ?_) _ s
  split
  · rfl
  · extract_lets t1 t2
    have h1 : t1.led = t.led := State.setFld_led ..
    have h2 : t2.led.rtcLost = t.led.rtcLost := congrArg Ledger.rtcLost h1
    split
    · exact h2
    · exact (endEntry_rtcLost ..).trans h2

theorem settleGrants_rtcLost (s : State) : s.settleGrants.led.rtcLost = s.led.rtcLost := by
  refine foldl_rel (R := fun s t => t.led.rtcLost = s.led.rtcLost) (fun _ => rfl) (fun _ _ _ h k => k.trans h) (fun t g => ?_) _ s
  split
  · rfl
  · extract_lets t1
    split
    · rfl
    · exact endEntry_rtcLost ..

theorem disposeAll_rtcLost (s : State) (ns : List Nat) (d err : Nat) : (s.disposeAll ns d err).led.rtcLost = s.led.rtcLost := by
  have hall (ns : List Nat) (s : State) : (s.forEach ns (fun s n => s.dispose n d err)).led.rtcLost = s.led.rtcLost := by
    induction ns generalizing s with
    | nil => rfl
    | cons n ns ih =>
      exact (ih _).trans <| (settleGrants_rtcLost _).trans <| (settleQuiesce_rtcLost _).trans (endEntry_rtcLost ..)
  exact hall ns s

theorem inv_withUpd {s : State} (h : s.Inv) (x : UpdRt) : State.Inv { s with upd := x } := h.like

/-- REVERTING starts, and the ledger's clock stays lost (Table 19.3). -/
theorem startRevert_reverts {s : State} (h : s.Inv) : s.startRevert.upd.st = uREVERTING ∧ s.startRevert.led.rtcLost = s.led.rtcLost := by
  have both (u : State) (f : Fld) (v : Nat) : (u.setFldBoth R.UPD_STATUS f v).upd = u.upd ∧ (u.setFldBoth R.UPD_STATUS f v).led = u.led :=
    ⟨(State.setFld_upd ..).trans (State.setFld_upd ..), (State.setFld_led ..).trans (State.setFld_led ..)⟩
  unfold State.startRevert
  extract_lets t u ls
  have htu : t.upd = { s.upd with st := uREVERTING } :=
    (State.count_upd ..).trans ((State.count_upd ..).trans (both { s with upd := { s.upd with st := uREVERTING } } _ _).1)
  have htl : t.led = s.led := (countBoth_led ..).trans (both { s with upd := { s.upd with st := uREVERTING } } _ _).2
  have huu : u.upd.st = uREVERTING := by rw [(both t _ _).1, htu]
  have hul : u.led = s.led := (both t _ _).2.trans htl
  have hui : u.Inv := by
    have h1 := inv_withUpd h { s.upd with st := uREVERTING }
    have h2 : (s.setUpdSt uREVERTING).Inv := (State.setFldBoth_kept (φ := ⟨0x8, _⟩) (.refl _) (.refl h1)).inv
    have h3 : t.Inv := (State.countBoth_kept (φ := ⟨0x8, _⟩) (.refl _) (.refl h2)).inv
    exact (State.setFldBoth_kept (φ := ⟨0x8, _⟩) (.refl _) (.refl h3)).inv
  let v : State := { u with upd := { u.upd with actLsn := none, drain := none, cycles := 0 } }
  have hvi : v.Inv := inv_withUpd hui _
  have hk : State.Kept ⟨0x14000000000000108, v⟩ (v.disposeAll ls dFAILED eREVERTED) := State.disposeAll_kept (.refl _) (.refl hvi)
  have ho : State.Only 0x14000000000000108 v (v.disposeAll ls dFAILED eREVERTED) := hk.only
  have hupd : (v.disposeAll ls dFAILED eREVERTED).upd = v.upd := ho.upd.resolve_right (by decide)
  have hlost : (v.disposeAll ls dFAILED eREVERTED).led.rtcLost = u.led.rtcLost := disposeAll_rtcLost v ls _ _
  exact ⟨(congrArg UpdRt.st hupd).trans huu, hlost.trans (congrArg Ledger.rtcLost hul)⟩

/-! #### What is lost -/

theorem aonRegs_range {a : Nat} (h : a ∈ aonRegs) : 0xE1100000 ≤ a ∧ a < 0xE1200000 := by
  unfold aonRegs at h
  rcases List.mem_cons.mp h with rfl | h
  · decide
  · simp only [List.mem_flatten, List.mem_map, List.mem_range] at h
    obtain ⟨xs, ⟨i, hi, rfl⟩, hx⟩ := h
    obtain ⟨j, hj, rfl⟩ := List.mem_map.mp hx
    have := List.mem_range.mp hj
    unfold R.NMS_LOG
    omega

/-- The module's supplies are gone. -/
def ModuleRt.aonLost (m : ModuleRt) : ModuleRt :=
  { m with vkeepE := false, vkeepW := false, feedAon := false, inh := [false, false, false, false] }

/-- A module that slept has lost its power. -/
def ModuleRt.wakeless (m : ModuleRt) : ModuleRt := if m.asleep then { m with asleep := false, poweredOn := false } else m

/-- The deadline clock and the calendar stop. -/
def State.stopClocks (s : State) : State :=
  ({ s with mod_ := s.mod_.aonLost }.setLed { s.led with rtcLost := true }).setBitBoth R.PARI_STATUS F.PARI_STATUS_CAL_VALID false

/-- The registers of the always-on logic are lost. -/
def State.wipeAon (s : State) : State := s.forEach aonRegs (fun s a => s.setSh a 0)

/-- A trial reverts (R591). -/
def State.endTrial (s : State) : State := if s.upd.st = uTRIAL then s.startRevert else s

theorem wipeAon_mod (s : State) : s.wipeAon.mod_ = s.mod_ := by
  have hall (as : List Nat) (s : State) : (s.forEach as (fun s a => s.setSh a 0)).mod_ = s.mod_ := by
    induction as generalizing s with
    | nil => rfl
    | cons a as ih => exact (ih _).trans (State.setReg_mod_ ..)
  exact hall aonRegs s

theorem stopClocks_mod (s : State) : s.stopClocks.mod_ = s.mod_.aonLost :=
  (State.setFld_mod_ ..).trans (State.setFld_mod_ ..)

theorem alwaysOnPowerLoss_exec (s : State) : exec .alwaysOnPowerLoss s =
    .next ({ s.stopClocks.wipeAon with mod_ := s.mod_.aonLost.wakeless }.endTrial.syncVkeep) := by
  obtain ⟨u, hu⟩ : ∃ u, s.stopClocks.wipeAon = u := ⟨_, rfl⟩
  have hm : u.mod_ = s.mod_.aonLost := hu ▸ (wipeAon_mod _).trans (stopClocks_mod s)
  have hx : exec .alwaysOnPowerLoss s =
      .next (State.syncVkeep (State.endTrial (if u.mod_.asleep then
        { u with mod_ := { u.mod_ with asleep := false, poweredOn := false } } else u))) := by
    rw [← hu]
    rfl
  rw [hx, hu, ← hm]
  unfold ModuleRt.wakeless
  split <;> rfl

theorem wipeAon_shReg {s : State} (w : rfWf s.regs = true) {a : Nat} (ha : a ∈ aonRegs) : s.wipeAon.shReg a = 0 := by
  have hlt {b : Nat} (hb : b ∈ aonRegs) : b < 2 ^ 32 := by
    have := aonRegs_range hb
    omega
  have hself (t : State) (w : rfWf t.regs = true) : (t.setSh a 0).shReg a = 0 := State.reg_setReg_self w ..
  have hother (t : State) (b : Nat) (hb : b ∈ aonRegs) (hne : b ≠ a) (ht : t.shReg a = 0) : (t.setSh b 0).shReg a = 0 :=
    (State.reg_setReg_ne (regKey_ne (hlt hb) (hlt ha) hne)).trans ht
  exact forEach_reaches (keeps := fun t => rfWf t.regs = true) (reached := fun t => t.shReg a = 0)
    (g := fun s a => s.setSh a 0) ha (fun t b _ w => State.setReg_wf w) hself hother w

theorem wipeAon_regOnly {s : State} (w : rfWf s.regs = true) : RegOnly (fun a _ => a ∈ aonRegs) s s.wipeAon :=
  .forEach (fun t a ha w => .setSh w (by have := aonRegs_range ha; omega) ha) w

theorem inv_withMod {s : State} (h : s.Inv) (m : ModuleRt) : State.Inv { s with mod_ := m } := h.like

theorem inv_rtcLost {s : State} (h : s.Inv) : (s.setLed { s.led with rtcLost := true }).Inv :=
  ⟨h.regs, h.mem, h.led, ⟨h.shape.outs, h.shape.feeds, h.shape.fcs, h.shape.sels, h.shape.canPorts, h.shape.canRxE,
    h.shape.canRxW, h.shape.lins, h.shape.tbs, h.shape.sessions⟩⟩

/-- The clocks are lost, with nothing else of the ledger, and no update's state changes. -/
theorem stopClocks_stops {s : State} (h : s.Inv) : s.stopClocks.Inv ∧ s.stopClocks.led.rtcLost = true ∧ s.stopClocks.upd = s.upd ∧
    ∀ l, s.stopClocks.bit l R.PARI_STATUS F.PARI_STATUS_CAL_VALID = false := by
  have hu := inv_rtcLost (inv_withMod h s.mod_.aonLost)
  obtain ⟨u, he⟩ : ∃ u, { s with mod_ := s.mod_.aonLost }.setLed { s.led with rtcLost := true } = u := ⟨_, rfl⟩
  have hl : u.led.rtcLost = true := he ▸ rfl
  have hd : u.upd = s.upd := he ▸ rfl
  have hs : s.stopClocks = u.setBitBoth R.PARI_STATUS F.PARI_STATUS_CAL_VALID false := he ▸ rfl
  have hui : u.Inv := he ▸ hu
  have hk : State.Kept ⟨0x8, u⟩ s.stopClocks := hs ▸ State.setBitBoth_kept (.refl _) (.refl hui)
  have ho : State.Only 0x8 u s.stopClocks := hk.only
  refine ⟨hk.inv, ?_, (ho.upd.resolve_right (by decide)).trans hd, fun l => ?_⟩
  · rw [ho.led.resolve_right (by decide), hl]
  · rw [hs]
    exact State.bit_setBitBoth hui.regs l _ _ _ (by unfold Fld.ok; decide) rfl

theorem wipeAon_kept {s : State} (h : s.Inv) : State.Kept ⟨0x8, s⟩ s.wipeAon :=
  State.forEach_kept (.refl h) fun _ _ ht => State.setSh_kept (.refl _) ht

theorem endTrial_leaves {P : Nat → Bool} (hP : Calm P) (s : State) : s.Leaves P s.endTrial := by
  unfold State.endTrial
  split
  · exact hP.startRevert s
  · exact .refl P s

theorem endTrial_kept {s : State} (h : s.Inv) : State.Kept ⟨0x10014000000000000108, s⟩ s.endTrial :=
  kept_ite (fun _ => State.startRevert_kept (.refl _) (.refl h)) fun _ => .refl h

theorem endTrial_ends {s : State} (h : s.Inv) : s.endTrial.led.rtcLost = s.led.rtcLost ∧
    (s.upd.st = uTRIAL → s.endTrial.upd.st = uREVERTING) ∧ (s.upd.st ≠ uTRIAL → s.endTrial.upd = s.upd) := by
  unfold State.endTrial
  split
  next ht => exact ⟨(startRevert_reverts h).2, fun _ => (startRevert_reverts h).1, fun hn => absurd ht hn⟩
  next ht => exact ⟨rfl, fun hn => absurd hn ht, fun _ => rfl⟩

theorem syncVkeep_kept {s : State} (h : s.Inv) : State.Kept ⟨0x8, s⟩ s.syncVkeep := State.setBitBoth_kept (.refl _) (.refl h)

theorem syncVkeep_regOnly {s : State} (w : rfWf s.regs = true) : RegOnly (fun a _ => a = R.SUPC_STATUS) s s.syncVkeep :=
  .setBitBoth w (by decide) (by unfold Fld.ok; decide) rfl

theorem aonLost_wakeless (m : ModuleRt) : m.aonLost.wakeless.vkeepE = false ∧ m.aonLost.wakeless.vkeepW = false ∧
    m.aonLost.wakeless.feedAon = false ∧ m.aonLost.wakeless.inh = [false, false, false, false] ∧
    (m.asleep = true → m.aonLost.wakeless.asleep = false ∧ m.aonLost.wakeless.poweredOn = false) := by
  unfold ModuleRt.wakeless
  split
  next => exact ⟨rfl, rfl, rfl, rfl, fun _ => ⟨rfl, rfl⟩⟩
  next hn => exact ⟨rfl, rfl, rfl, rfl, fun hs => absurd hs hn⟩

theorem alwaysOnPowerLoss_completes {s : State} (h : s.Inv) : Completes (exec .alwaysOnPowerLoss s) (fun t =>
    t.mod_.vkeepE = false ∧ t.mod_.vkeepW = false ∧ t.mod_.feedAon = false ∧ t.mod_.inh = [false, false, false, false] ∧
    t.led.rtcLost = true ∧ (∀ l, t.bit l R.PARI_STATUS F.PARI_STATUS_CAL_VALID = false) ∧ (∀ a ∈ aonRegs, t.shReg a = 0) ∧
    (∀ l, t.bit l R.SUPC_STATUS F.SUPC_STATUS_VKEEP_LOST = true) ∧
    (s.upd.st = uTRIAL → t.upd.st = uREVERTING) ∧ (s.upd.st ≠ uTRIAL → t.upd = s.upd) ∧
    (s.mod_.asleep = true → t.mod_.asleep = false ∧ t.mod_.poweredOn = false)) := by
  obtain ⟨hai, hal, hau, habit⟩ := stopClocks_stops h
  have kb := wipeAon_kept hai
  obtain ⟨b, hb⟩ : ∃ b, s.stopClocks.wipeAon = b := ⟨_, rfl⟩
  rw [hb] at kb
  obtain ⟨c, hc⟩ : ∃ c, { b with mod_ := s.mod_.aonLost.wakeless } = c := ⟨_, rfl⟩
  have hci : c.Inv := hc ▸ inv_withMod kb.inv _
  have kd := endTrial_kept hci
  obtain ⟨hdl, hdt, hdn⟩ := endTrial_ends hci
  obtain ⟨d, hd⟩ : ∃ d, c.endTrial = d := ⟨_, rfl⟩
  rw [hd] at kd hdl hdt hdn
  have kt := syncVkeep_kept kd.inv
  obtain ⟨t, ht⟩ : ∃ t, d.syncVkeep = t := ⟨_, rfl⟩
  rw [ht] at kt
  have ob : State.Only 0x8 s.stopClocks b := kb.only
  have od : State.Only 0x10014000000000000108 c d := kd.only
  have ot : State.Only 0x8 d t := kt.only
  have hdm : d.mod_ = s.mod_.aonLost.wakeless := (od.mod_.resolve_right (by decide)).trans (hc ▸ rfl)
  have htm : t.mod_ = s.mod_.aonLost.wakeless := (ot.mod_.resolve_right (by decide)).trans hdm
  have hcu : c.upd = s.upd := (hc ▸ ob.upd.resolve_right (by decide) : c.upd = s.stopClocks.upd).trans hau
  have htu : t.upd = d.upd := ot.upd.resolve_right (by decide)
  obtain ⟨hE, hW, hF, hinh, hsl⟩ := aonLost_wakeless s.mod_
  have hx : exec .alwaysOnPowerLoss s = .next t := by rw [alwaysOnPowerLoss_exec, hb, hc, hd, ht]
  -- The end of a trial and VKEEP_LOST leave what has been lost.
  have hleft (l : Lane) {a : Nat} (ha : a < homeSpan) (hl : ¬ Loose a) (hne : a ≠ R.SUPC_STATUS) : t.reg l a = b.reg l a :=
    calc t.reg l a = d.reg l a := ht ▸ (syncVkeep_regOnly kd.inv.regs).reg l a ha fun _ => hne
      _ = c.reg l a := (hd ▸ endTrial_leaves (Calm.regKey l ha hl) c : c.Leaves _ d).reg (by simp)
      _ = b.reg l a := hc ▸ rfl
  refine ⟨t, hx, by rw [htm, hE], by rw [htm, hW], by rw [htm, hF], by rw [htm, hinh], ?_, fun l => ?_, fun a ha => ?_, fun l => ?_,
    fun hs => by rw [htu, hdt (hcu ▸ hs)], fun hs => by rw [htu, hdn (hcu ▸ hs), hcu], fun hs => htm ▸ hsl hs⟩
  · have hlb : c.led = s.stopClocks.led := hc ▸ ob.led.resolve_right (by decide)
    rw [ot.led.resolve_right (by decide), hdl, hlb, hal]
  · have hb' : b.reg l R.PARI_STATUS = s.stopClocks.reg l R.PARI_STATUS :=
      hb ▸ (wipeAon_regOnly hai.regs).reg l _ (by decide) fun _ hm => by
        have := aonRegs_range hm
        unfold R.PARI_STATUS at this
        omega
    have ht' := (hleft l (a := R.PARI_STATUS) (by decide) (by unfold Loose; decide) (by decide)).trans hb'
    rw [← habit l]
    unfold State.bit State.fld
    rw [ht']
  · have hr := aonRegs_range ha
    have hz : b.shReg a = 0 := hb ▸ wipeAon_shReg hai.regs ha
    refine (hleft .E ?_ ?_ ?_).trans hz
    · unfold homeSpan
      omega
    · unfold Loose
      omega
    · unfold R.SUPC_STATUS
      omega
  · rw [← ht, syncVkeep_lost kd.inv.regs l, hdm, hE, hW]
    rfl

/-! ### The dies start (Table 2.10, step 2) -/

/-- One die has restarted, up or without power: the others, and what runs on them, are as before. -/
structure State.DieTaken (s t : State) (d : Die) (up : Bool) : Prop where
  inv : t.Inv
  up : (t.die d).up = up
  other : ∀ e, e ≠ d → t.die e = s.die e
  pw0 : t.pw0 = if d = .P0 then .reset else s.pw0
  fd0 : t.fd0 = if d = .F0 then .reset else s.fd0

/-- What runs on a die is at its reset state. -/
def State.restartDie (s : State) : Die → State
  | .P0 => s.restartPower 0
  | .P1 => s.restartPower 1
  | .F0 => s.restartField 0
  | .F1 => s.restartField 1
  | .FI => s.restartField 2
  | .CMN => s.clearCmn

/-- What a die loses, but for its record. -/
def State.emptyDie (s : State) (d : Die) : State :=
  let t := ((s.dropWork d).restartDie d).wipeRanges (dieRanges d)
  if d = .CMN then t.forEach aonRegs (fun t a => t.setSh a (s.shReg a)) else t

theorem dieLose_eq (s : State) (d : Die) : s.dieLose d = (s.emptyDie d).setDie d
    { DieRt.reset with restarted := true, saved := if (s.die d).restarted then (s.die d).saved else s.dieConfig d } := by
  cases d <;> rfl

/-- Neither a die nor the state of P0 and F0 is among the fields. -/
def Aloof (m : Nat) : Prop := NoDies m ∧ m.testBit 27 = false ∧ m.testBit 30 = false

theorem State.Kept.aloof {m : Nat} {s t : State} (k : State.Kept ⟨m, s⟩ t) (hm : Aloof m) :
    (∀ e, t.die e = s.die e) ∧ t.pw0 = s.pw0 ∧ t.fd0 = s.fd0 :=
  ⟨k.die hm.1, k.only.pw0.resolve_right (by simp [hm.2.1]), k.only.fd0.resolve_right (by simp [hm.2.2])⟩

theorem setPw_pw0 (s : State) (d : Nat) (p : PowerRt) : (s.setPw d p).pw0 = if d = 0 then p else s.pw0 := by
  unfold State.setPw
  by_cases h : d = 0
  · rw [if_pos h, if_pos h]
  · rw [if_neg h, if_neg h]

theorem setFd_fd0 (s : State) (d : Nat) (x : FieldRt) : (s.setFd d x).fd0 = if d = 0 then x else s.fd0 := by
  unfold State.setFd
  by_cases h : d = 0
  · rw [if_pos h, if_pos h]
  · rw [if_neg h, if_neg h]
    split <;> rfl

theorem restartPower_takes {s : State} (h : s.Inv) (d : Nat) : (∀ e, (s.restartPower d).die e = s.die e) ∧
    (s.restartPower d).pw0 = (if d = 0 then .reset else s.pw0) ∧ (s.restartPower d).fd0 = s.fd0 := by
  have k : State.Kept ⟨0x1e000000, s⟩ (s.restartPower d) := State.restartPower_kept (.refl _) (.refl h)
  have ko : State.Only 0x1e000000 s (s.restartPower d) := k.only
  refine ⟨k.die (by unfold NoDies; decide), ?_, ko.fd0.resolve_right (by decide)⟩
  unfold State.restartPower
  extract_lets _ a b
  have hsub {m : Nat} (hm : Nat.land m 0x6000000 = m) : Sub m 0x6000000 := Sub.of (.refl _) hm
  have ka : State.Kept ⟨0x6000000, s⟩ a := State.forEach_kept (.refl h) fun _ _ ht => State.modOut_kept (hsub (by decide)) ht
  have kb : State.Kept ⟨0x6000000, s⟩ b := State.forEach_kept ka fun _ _ ht => State.setFeedRt_kept (hsub (by decide)) ht
  have kbo : State.Only 0x6000000 s b := kb.only
  rw [setPw_pw0, kbo.pw0.resolve_right (by decide)]

theorem restartField_takes {s : State} (h : s.Inv) (d : Nat) : (∀ e, (s.restartField d).die e = s.die e) ∧
    (s.restartField d).fd0 = (if d = 0 then .reset else s.fd0) ∧ (s.restartField d).pw0 = s.pw0 := by
  have k : State.Kept ⟨0x1e0000000, s⟩ (s.restartField d) := State.restartField_kept (.refl _) (.refl h)
  have ko : State.Only 0x1e0000000 s (s.restartField d) := k.only
  refine ⟨k.die (by unfold NoDies; decide), ?_, ko.pw0.resolve_right (by decide)⟩
  unfold State.restartField
  have ka : State.Kept ⟨0x20000000, s⟩ (s.forEach (List.range (fcCount d)) (fun s m => s.setFc d m .reset)) :=
    State.forEach_kept (.refl h) fun _ _ ht => State.setFc_kept (.refl _) ht
  have kao : State.Only 0x20000000 s _ := ka.only
  rw [setFd_fd0, kao.fd0.resolve_right (by decide)]

theorem restartDie_inv {s : State} (h : s.Inv) (d : Die) : (s.restartDie d).Inv := by
  cases d with
  | P0 | P1 => exact (State.restartPower_kept (.refl _) (.refl h)).inv
  | F0 | F1 | FI => exact (State.restartField_kept (.refl _) (.refl h)).inv
  | CMN => exact (State.clearCmn_kept (.refl _) (.refl h)).inv

theorem restartDie_takes {s : State} (h : s.Inv) (d : Die) : (∀ e, (s.restartDie d).die e = s.die e) ∧
    (s.restartDie d).pw0 = (if d = .P0 then .reset else s.pw0) ∧ (s.restartDie d).fd0 = (if d = .F0 then .reset else s.fd0) := by
  cases d with
  | P0 => exact restartPower_takes h 0
  | P1 => exact restartPower_takes h 1
  | F0 =>
    obtain ⟨hd, hf, hp⟩ := restartField_takes h 0
    exact ⟨hd, hp, hf⟩
  | F1 =>
    obtain ⟨hd, hf, hp⟩ := restartField_takes h 1
    exact ⟨hd, hp, hf⟩
  | FI =>
    obtain ⟨hd, hf, hp⟩ := restartField_takes h 2
    exact ⟨hd, hp, hf⟩
  | CMN =>
    have k : State.Kept ⟨0x1623f450000020108, s⟩ s.clearCmn := State.clearCmn_kept (.refl _) (.refl h)
    exact k.aloof (by unfold Aloof NoDies; decide)

theorem emptyDie_takes {s : State} (h : s.Inv) (d : Die) : (s.emptyDie d).Inv ∧ (∀ e, (s.emptyDie d).die e = s.die e) ∧
    (s.emptyDie d).pw0 = (if d = .P0 then .reset else s.pw0) ∧ (s.emptyDie d).fd0 = (if d = .F0 then .reset else s.fd0) := by
  have k1 : State.Kept ⟨0x14000000001000308, s⟩ (s.dropWork d) := State.dropWork_kept (.refl _) (.refl h)
  obtain ⟨hd1, hp1, hf1⟩ := k1.aloof (by unfold Aloof NoDies; decide)
  obtain ⟨hd2, hp2, hf2⟩ := restartDie_takes k1.inv d
  have hi2 := restartDie_inv k1.inv d
  unfold State.emptyDie
  extract_lets t
  have k3 : State.Kept ⟨0x8, (s.dropWork d).restartDie d⟩ (if d = .CMN then t.forEach aonRegs (fun t a => t.setSh a (s.shReg a)) else t) := by
    have kt : State.Kept ⟨0x8, (s.dropWork d).restartDie d⟩ t := State.wipeRanges_kept (.refl _) (.refl hi2)
    exact kept_ite (fun _ => State.forEach_kept kt fun _ _ hu => State.setSh_kept (.refl _) hu) fun _ => kt
  obtain ⟨hd3, hp3, hf3⟩ := k3.aloof (by unfold Aloof NoDies; decide)
  exact ⟨k3.inv, fun e => (hd3 e).trans ((hd2 e).trans (hd1 e)), by rw [hp3, hp2, hp1], by rw [hf3, hf2, hf1]⟩

theorem setDie_aloof (s : State) (d : Die) (x : DieRt) : (s.setDie d x).pw0 = s.pw0 ∧ (s.setDie d x).fd0 = s.fd0 := by
  cases d <;> exact ⟨rfl, rfl⟩

namespace State.DieTaken

variable {s t u : State} {d : Die} {up : Bool}

/-- The die's record may change further. -/
theorem setDie (h : s.DieTaken t d up) {x : DieRt} {b : Bool} (hx : x.up = b) : s.DieTaken (t.setDie d x) d b where
  inv := h.inv.setDie d x
  up := by rw [State.die_setDie, hx]
  other e he := (State.die_setDie_ne he).trans (h.other e he)
  pw0 := (setDie_aloof t d x).1.trans h.pw0
  fd0 := (setDie_aloof t d x).2.trans h.fd0

theorem kept {m : Nat} (h : s.DieTaken t d up) (k : State.Kept ⟨m, t⟩ u) (hm : Aloof m) : s.DieTaken u d up where
  inv := k.inv
  up := by rw [(k.aloof hm).1 d, h.up]
  other e he := ((k.aloof hm).1 e).trans (h.other e he)
  pw0 := (k.aloof hm).2.1.trans h.pw0
  fd0 := (k.aloof hm).2.2.trans h.fd0

end State.DieTaken

theorem dieLose_taken {s : State} (h : s.Inv) (d : Die) : s.DieTaken (s.dieLose d) d false := by
  obtain ⟨hi, hd, hp, hf⟩ := emptyDie_takes h d
  have h0 : s.DieTaken (s.emptyDie d) d ((s.emptyDie d).die d).up := ⟨hi, rfl, fun e _ => hd e, hp, hf⟩
  rw [dieLose_eq]
  exact h0.setDie rfl

theorem loseFi_taken {s t : State} {d : Die} {up : Bool} (h : s.DieTaken t d up) : s.DieTaken t.loseFi d up :=
  have k : State.Kept ⟨0x14000000020000308, t⟩ t.loseFi := State.loseFi_kept (.refl _) (.refl h.inv)
  h.kept k (by unfold Aloof NoDies; decide)

theorem dieFresh_taken {s : State} (h : s.Inv) (d : Die) : s.DieTaken (s.dieFresh d) d true := by
  have h1 : s.DieTaken ((s.dieLose d).setDie d { (s.dieLose d).die d with up := true }) d true := (dieLose_taken h d).setDie rfl
  have hfeeds (k : Nat) : s.DieTaken (((s.dieLose d).setDie d { (s.dieLose d).die d with up := true }).strapFeeds k) d true :=
    h1.kept (m := 0x8) (State.strapFeeds_kept (.refl _) (.refl h1.inv)) (by unfold Aloof NoDies; decide)
  cases d with
  | P0 => exact hfeeds 0
  | P1 => exact hfeeds 1
  | F0 | F1 | CMN => exact h1
  | FI => exact loseFi_taken h1

theorem fiDown_taken {s : State} (h : s.Inv) : s.DieTaken (s.dieDown .FI) .FI false := loseFi_taken (dieLose_taken h .FI)

/-- A die starts with nothing saved for it. -/
def State.startDie (s : State) (d : Die) : State := (s.dieFresh d).setDie d { (s.dieFresh d).die d with saved := [] }

theorem startDie_taken {s : State} (h : s.Inv) (d : Die) : s.DieTaken (s.startDie d) d true :=
  (dieFresh_taken h d).setDie (dieFresh_taken h d).up

/-- A die without power has nothing saved either. -/
def State.fiStart (s : State) : State := (s.dieDown .FI).setDie .FI { (s.dieDown .FI).die .FI with saved := [] }

theorem fiStart_taken {s : State} (h : s.Inv) : s.DieTaken s.fiStart .FI false := (fiDown_taken h).setDie (fiDown_taken h).up

theorem diesStart_eq (s : State) :
    s.diesStart = (((((s.startDie .P0).startDie .P1).startDie .F0).startDie .F1).startDie .CMN).fiStart := rfl

/-- Every die but FI is up, and no image has configured one. -/
theorem diesStart_starts {s : State} (h : s.Inv) : (∀ d, (s.diesStart.die d).up = decide (d ≠ .FI)) ∧
    s.diesStart.pw0 = .reset ∧ s.diesStart.fd0 = .reset := by
  rw [diesStart_eq]
  have h1 := startDie_taken h .P0
  have h2 := startDie_taken h1.inv .P1
  have h3 := startDie_taken h2.inv .F0
  have h4 := startDie_taken h3.inv .F1
  have h5 := startDie_taken h4.inv .CMN
  have h6 := fiStart_taken h5.inv
  refine ⟨fun d => ?_, ?_, ?_⟩
  · cases d with
    | P0 =>
      rw [h6.other _ (by decide), h5.other _ (by decide), h4.other _ (by decide), h3.other _ (by decide),
        h2.other _ (by decide), h1.up]
      rfl
    | P1 =>
      rw [h6.other _ (by decide), h5.other _ (by decide), h4.other _ (by decide), h3.other _ (by decide), h2.up]
      rfl
    | F0 =>
      rw [h6.other _ (by decide), h5.other _ (by decide), h4.other _ (by decide), h3.up]
      rfl
    | F1 =>
      rw [h6.other _ (by decide), h5.other _ (by decide), h4.up]
      rfl
    | CMN =>
      rw [h6.other _ (by decide), h5.up]
      rfl
    | FI => exact h6.up
  · rw [h6.pw0, h5.pw0, h4.pw0, h3.pw0, h2.pw0, h1.pw0]
    rfl
  · rw [h6.fd0, h5.fd0, h4.fd0, h3.fd0]
    rfl

/-! ### The first feed (Table 2.10, R60) -/

/-- What a feed that rises makes of the module: FEED3 and FEED6 carry the always-on logic. -/
def State.feedMod (s : State) (aon : Bool) : ModuleRt :=
  { s.mod_ with feedAon := s.mod_.feedAon || aon,
                inh := if aon && !s.aonPowered then [true, true, true, true] else s.mod_.inh }

/-- The module and its lanes are powered. -/
def State.powerUp (s : State) : State :=
  let s := { s with mod_ := { s.mod_ with poweredOn := true, configured := false } }
  (s.setLane .E { s.laneE with powered := true }).setLane .W { s.laneW with powered := true }

/-- A feed above 6 V, and the first supply of the always-on logic. -/
def State.feedRise (s : State) (feed : Nat) : State :=
  let t := if feed = 3 ∨ feed = 6 then { s with mod_ := { s.mod_ with feedAon := true } } else s
  if !s.aonPowered && t.aonPowered then { t with mod_ := { t.mod_ with inh := [true, true, true, true] } } else t

theorem feedRise_eq (s : State) (feed : Nat) : s.feedRise feed = { s with mod_ := s.feedMod (decide (feed = 3 ∨ feed = 6)) } := by
  unfold State.feedRise State.feedMod
  by_cases hf : feed = 3 ∨ feed = 6
  · have hon : State.aonPowered { s with mod_ := { s.mod_ with feedAon := true } } = true := Bool.or_true _
    rw [if_pos hf, decide_eq_true hf]
    dsimp only
    rw [hon, Bool.and_true, Bool.true_and, Bool.or_true]
    split <;> rfl
  · rw [if_neg hf, decide_eq_false hf]
    dsimp only
    rw [Bool.not_and_self, Bool.false_and, Bool.or_false]
    rfl

theorem powerOn_exec (feed : Nat) (test : Bool) (s : State) : exec (.powerOn feed test) s =
    if test || (s.feedRise feed).mod_.poweredOn then .next (s.feedRise feed)
    else .next (s.feedRise feed).powerUp.diesStart := rfl

theorem powerUp_powers (s : State) : s.powerUp.mod_ = { s.mod_ with poweredOn := true, configured := false } ∧
    s.powerUp.laneE.powered = true ∧ s.powerUp.laneW.powered = true := ⟨rfl, rfl, rfl⟩

theorem powerUp_inv {s : State} (h : s.Inv) : s.powerUp.Inv := setLane_inv (setLane_inv (inv_withMod h _) .E _) .W _

/-- The dies start. -/
theorem powerUp_starts {s : State} (h : s.Inv) : let t := s.powerUp.diesStart
    t.mod_ = { s.mod_ with poweredOn := true, configured := false } ∧ t.laneE.powered = true ∧ t.laneW.powered = true ∧
    (∀ d, (t.die d).up = decide (d ≠ .FI)) ∧ t.pw0.configured = false ∧ t.fd0.configured = false := by
  obtain ⟨u, hu⟩ : ∃ u, s.powerUp = u := ⟨_, rfl⟩
  obtain ⟨hm, hE, hW⟩ := powerUp_powers s
  have hi := powerUp_inv h
  rw [hu] at hm hE hW hi ⊢
  have k : State.Kept ⟨0x1623f4501ff03fb08, u⟩ u.diesStart := State.diesStart_kept (.refl _) (.refl hi)
  have ko : State.Only 0x1623f4501ff03fb08 u u.diesStart := k.only
  obtain ⟨hup, hp, hf⟩ := diesStart_starts hi
  intro t
  exact ⟨(ko.mod_.resolve_right (by decide)).trans hm, ko.laneE.resolve_right (by decide) ▸ hE,
    ko.laneW.resolve_right (by decide) ▸ hW, hup, congrArg PowerRt.configured hp, congrArg FieldRt.configured hf⟩

theorem powerOn_completes {s : State} (h : s.Inv) (feed : Nat) (test : Bool) : Completes (exec (.powerOn feed test) s) (fun t =>
    let aon := feed = 3 ∨ feed = 6
    t.mod_.feedAon = (s.mod_.feedAon || decide aon) ∧
    t.mod_.inh = (if decide aon && !s.aonPowered then [true, true, true, true] else s.mod_.inh) ∧
    (test = true ∨ s.mod_.poweredOn = true → t = { s with mod_ := { s.mod_ with feedAon := t.mod_.feedAon, inh := t.mod_.inh } }) ∧
    (test = false → s.mod_.poweredOn = false → t.mod_.poweredOn = true ∧ t.mod_.configured = false ∧ t.laneE.powered = true ∧
      t.laneW.powered = true ∧ t.p0.up = true ∧ t.p1.up = true ∧ t.f0.up = true ∧ t.f1.up = true ∧ t.fi.up = false ∧
      t.cmn.up = true ∧ t.pw0.configured = false ∧ t.fd0.configured = false)) := by
  have hx := powerOn_exec feed test s
  rw [feedRise_eq] at hx
  have hon : (s.feedMod (decide (feed = 3 ∨ feed = 6))).poweredOn = s.mod_.poweredOn := rfl
  by_cases hd : (test || s.mod_.poweredOn) = true
  · refine ⟨_, hx.trans (if_pos (hon ▸ hd)), rfl, rfl, fun _ => rfl, fun ht hp => ?_⟩
    rw [ht, hp] at hd
    exact absurd hd (by decide)
  · have hi := inv_withMod h (s.feedMod (decide (feed = 3 ∨ feed = 6)))
    obtain ⟨hm, hE, hW, hup, hp, hf⟩ := powerUp_starts hi
    refine ⟨_, hx.trans (if_neg (hon ▸ hd)), by rw [hm]; rfl, by rw [hm]; rfl, fun ho => ?_, fun _ _ => ?_⟩
    · exact absurd (by rw [Bool.or_eq_true]; exact ho) hd
    · exact ⟨by rw [hm], by rw [hm], hE, hW, hup .P0, hup .P1, hup .F0, hup .F1, hup .FI, hup .CMN, hp, hf⟩

end Sys2Proof.Machine

open Sys2Proof Sys2Proof.Machine in
/-- Settles O37: each supply event by what its operation does to the module, its lanes and its dies; POR of a lane by the rule
for a reset at any level, `laneReset_resetTo`. -/
theorem suppliesAndStraps : Obligations.SuppliesAndStraps := by
  unfold Obligations.SuppliesAndStraps
  refine ⟨fun s feed test h => powerOn_completes h feed test, fun s l mv h => vkeepInputChange_completes h l mv,
    fun s l low => ⟨laneSupplyLow_powered low, laneSupplyLow_unpowered low⟩,
    fun s l h => ⟨supplyWarning_holdup h, supplyWarning_idle⟩, fun s l straps h hp hh => lanePor_on h straps hp hh,
    fun s l straps h hon hsl hoff hrel hres hdn => ⟨_, lanePor_off straps hon hsl hoff hrel hres hdn, porRelease_releases h l straps⟩,
    fun s h => alwaysOnPowerLoss_completes h⟩

namespace Sys2Proof.Machine

/-! ### What a reset of one lane leaves of the other -/

/-- `P` names no register of a lane or of the shared dies, and no shadow register. -/
structure Foreign (l : Lane) (P : Nat → Bool) : Prop where
  own : ∀ a < homeSpan, P (l.ix * homeSpan + a) = false
  dies : ∀ a < homeSpan, P (2 * homeSpan + a) = false
  shadow : ∀ k, 3 * homeSpan ≤ k → P k = false

section
variable {l : Lane} {P : Nat → Bool} (hP : Foreign l P)
include hP

theorem Foreign.setReg (s : State) {a : Nat} (v : Word) (ha : a < homeSpan) : s.Leaves P (s.setReg l a v) := by
  refine .setReg s v ?_
  unfold regKey
  rw [lane_ix_mod]
  split
  · exact hP.dies a ha
  · exact hP.own a ha

theorem Foreign.resetBlock (s : State) {b : Nat} (hb : b < 24) : s.Leaves P (s.resetBlock l b) :=
  resetBlock_leaves hP.shadow s l b fun a _ ha => hP.own a (by unfold homeSpan; omega)

theorem Foreign.reloadShadow (s : State) (lo hi : Nat) : s.Leaves P (s.reloadShadow l lo hi) := by
  have hw (ws : List RegCell) (t : State) : t.Leaves P (t.writeShadows l ws) := by
    induction ws generalizing t with
    | nil => exact .refl P t
    | cons w ws ih => exact (State.Leaves.setShadow t _ (hP.shadow _ (shadowKey_ge ..))).trans (ih _)
  have hr : s.Leaves P { s with regs := rfReset s.regs (shadowKey l.ix lo) (shadowKey l.ix hi) } :=
    rfReset_filter (fun k hk _ => hP.shadow k ((shadowKey_ge ..).trans hk)) s.regs
  exact hr.trans (hw _ _)

theorem Foreign.keepLhs (s old : State) (lvl : RLevel) : s.Leaves P (s.keepLhs old l lvl) := by
  unfold State.keepLhs
  extract_lets a x st st' b c d e f g ks y z
  have hb : s.Leaves P b := (hP.resetBlock s (by decide)).trans (hP.setReg a _ (by decide))
  have hc : b.Leaves P c := (hP.setReg b _ (by decide)).trans (hP.setReg _ _ (by decide))
  have hd : c.Leaves P d := .forEach (fun t j hj => hP.setReg t _ (by revert j; decide)) c
  have he : d.Leaves P e := by
    refine .forEach (fun t k hk => ?_) d
    have := List.mem_range.mp hk
    split
    · exact hP.setReg t _ (by unfold R.LHS_KEY_INFO homeSpan; omega)
    · exact .refl P t
  have hf : e.Leaves P f := hP.setReg e _ (by decide)
  have hg : f.Leaves P g := by
    unfold g
    split
    · exact .refl P f
    · refine State.Leaves.trans (.forEach (fun t k hk => ?_) f) (hP.setReg _ _ (by decide))
      have := List.mem_range.mp hk
      exact hP.setReg t _ (by unfold R.LHS_EVT_CNT homeSpan; omega)
  have hz : g.Leaves P z := by
    cases l <;> exact .of_regs rfl
  exact (hb.trans (hc.trans (hd.trans (he.trans (hf.trans (hg.trans hz)))))).trans (.of_regs rfl)

theorem Foreign.restored (s old : State) (lvl : RLevel) : s.Leaves P (s.restored old l lvl) := by
  unfold State.restored
  extract_lets a b c
  have ha : s.Leaves P a := by
    unfold a State.keepClocks
    extract_lets st t
    have ht : s.Leaves P t := hP.setReg s st (by decide)
    split
    · exact ht
    · exact ht.trans (hP.setReg t _ (by decide))
  have hb : a.Leaves P b := by
    unfold b
    split
    · exact .refl P a
    · refine (hP.setReg a _ (by decide)).trans (.forEach (fun t k hk => hP.setReg t _ ?_) _)
      revert k
      decide
  have hu : b.Leaves P (b.keepUpd old l) := (hP.setReg b _ (by decide)).trans (hP.setReg _ _ (by decide))
  exact (ha.trans (hb.trans (hu.trans (hP.keepLhs _ old lvl)))).trans (.forEach (fun t b _ => hP.reloadShadow t _ _) c)

theorem Foreign.dropParCfg (s : State) : s.Leaves P (s.dropParCfg l) := by
  refine (rfReset_filter (fun k hk _ => hP.shadow k ((shadowKey_ge ..).trans hk)) _).trans
    (rfReset_filter (fun k hk hk' => ?_) s.regs)
  have hlo : regKey l.ix R.PARI_CFG = l.ix * homeSpan + R.PARI_CFG := by cases l <;> decide
  have hhi : regKey l.ix (R.PARI_CFG + 4) = l.ix * homeSpan + (R.PARI_CFG + 4) := by cases l <;> decide
  rw [hlo] at hk
  rw [hhi] at hk'
  have h := hP.own (k - l.ix * homeSpan) (by unfold R.PARI_CFG at hk'; unfold homeSpan at *; omega)
  rwa [Nat.add_sub_cancel' (by omega)] at h

end

theorem ix_ne {l o : Lane} (h : l ≠ o) : l.ix ≠ o.ix := by
  cases l <;> cases o <;> first | exact absurd rfl h | decide

/-- The cells that show a lane's state, and whether its Elder serves. -/
def showKey (o : Lane) (k : Nat) : Bool := k == o.ix * homeSpan + R.FERRY_LANE || k == o.ix * homeSpan + R.SCSM_STATUS

theorem showKey_foreign {l o : Lane} (h : l ≠ o) : Foreign l (showKey o) := by
  have hix := ix_ne h
  have ho := lane_ix_lt o
  have off (j a : Nat) (hj : j ≠ o.ix) (ha : a < homeSpan) : showKey o (j * homeSpan + a) = false := by
    unfold showKey R.FERRY_LANE R.SCSM_STATUS
    unfold homeSpan at *
    simp only [Bool.or_eq_false_iff, beq_eq_false_iff_ne]
    omega
  refine ⟨fun a ha => off _ a hix ha, fun a ha => off 2 a (by omega) ha, fun k hk => ?_⟩
  unfold showKey R.FERRY_LANE R.SCSM_STATUS
  unfold homeSpan at *
  simp only [Bool.or_eq_false_iff, beq_eq_false_iff_ne]
  omega

/-- The address of a register that shows neither. -/
def Unshown (a : Nat) : Prop := a < 2 ^ 32 ∧ a ≠ R.FERRY_LANE ∧ a ≠ R.SCSM_STATUS

section
variable {o : Lane}

/-- Registers that do not show the lane's state, in whichever lane they are. -/
theorem setReg_shows (s : State) (j : Lane) {a : Nat} (v : Word) (ha : Unshown a) :
    s.Leaves (showKey o) (s.setReg j a v) := by
  have hF : regKey o.ix R.FERRY_LANE = o.ix * homeSpan + R.FERRY_LANE := by cases o <;> decide
  have hS : regKey o.ix R.SCSM_STATUS = o.ix * homeSpan + R.SCSM_STATUS := by cases o <;> decide
  refine .setReg s v ?_
  unfold showKey
  rw [← hF, ← hS, Bool.or_eq_false_iff, beq_eq_false_iff_ne, beq_eq_false_iff_ne]
  exact ⟨regKey_ne ha.1 (by decide) ha.2.1, regKey_ne ha.1 (by decide) ha.2.2⟩

theorem setFldBoth_shows (s : State) {a : Nat} (f : Fld) (v : Nat) (ha : Unshown a) :
    s.Leaves (showKey o) (s.setFldBoth a f v) :=
  (setReg_shows s .E _ ha).trans (setReg_shows _ .W _ ha)

theorem countBoth_shows (s : State) {a : Nat} (ha : Unshown a) :
    s.Leaves (showKey o) (s.countBoth a) :=
  (setReg_shows s .E _ ha).trans (setReg_shows _ .W _ ha)

theorem syncLedgLane_shows (s : State) (l : Lane) : s.Leaves (showKey o) (s.syncLedgLane l) := by
  have put (t : State) {a : Nat} (v : Word)
      (ha : a ∈ [R.LEDG_STATUS, R.LEDG_FREE, R.LEDG_DEDUP, R.LEDG_LSN_LO, R.LEDG_LSN_HI]) : t.Leaves (showKey o) (t.setReg l a v) := by
    refine setReg_shows t l v ?_
    revert a
    unfold Unshown
    decide
  unfold State.syncLedgLane
  exact (put s _ (by decide)).trans <| (put _ _ (by decide)).trans <| (put _ _ (by decide)).trans <|
    (put _ _ (by decide)).trans <| (put _ _ (by decide)).trans <| (put _ _ (by decide)).trans <|
    (put _ _ (by decide)).trans (put _ _ (by decide))

theorem endEntry_shows (s : State) (n err : Nat) {d : Nat} (hd : d < 0x10000) : s.Leaves (showKey o) (s.endEntry n d err) := by
  unfold State.endEntry
  split
  · exact .refl _ s
  split
  · extract_lets u ds
    have hv : s.Leaves (showKey o) (u.setLed { u.led with dups := ds }) := .of_regs rfl
    refine (hv.trans (countBoth_shows _ ?_)).trans ((syncLedgLane_shows _ .E).trans (syncLedgLane_shows _ .W))
    unfold Unshown R.LEDG_CNT R.FERRY_LANE R.SCSM_STATUS
    omega
  · exact .refl _ s

theorem settleQuiesce_shows (s : State) : s.Leaves (showKey o) s.settleQuiesce := by
  refine .foldl (fun t v => ?_) _ s
  split
  · exact .refl _ t
  · extract_lets t1 t2
    have h1 : t.Leaves (showKey o) t1 := by
      refine setReg_shows t v.lane _ ?_
      unfold Unshown R.IOV_FN_STATE R.FERRY_LANE R.SCSM_STATUS
      omega
    have h2 : t1.Leaves (showKey o) t2 := .of_regs rfl
    split
    · exact h1.trans h2
    · exact (h1.trans h2).trans (endEntry_shows t2 _ _ (by decide))

theorem settleGrants_shows (s : State) : s.Leaves (showKey o) s.settleGrants := by
  refine .foldl (fun t g => ?_) _ s
  split
  · exact .refl _ t
  · extract_lets t1
    have h1 : t.Leaves (showKey o) t1 := .of_regs rfl
    split
    · exact h1
    · exact h1.trans (endEntry_shows t1 _ _ (by decide))

theorem disposeAll_shows (s : State) (ns : List Nat) (err : Nat) {d : Nat} (hd : d < 0x10000) :
    s.Leaves (showKey o) (s.disposeAll ns d err) :=
  .forEach (fun t n _ => ((endEntry_shows t n err hd).trans (settleQuiesce_shows _)).trans (settleGrants_shows _)) s

theorem startRevert_shows (s : State) : s.Leaves (showKey o) s.startRevert := by
  unfold State.startRevert
  extract_lets t u ls
  have h0 : s.Leaves (showKey o) { s with upd := { s.upd with st := uREVERTING } } := .of_regs rfl
  have ha : ∀ a ∈ [R.UPD_STATUS, R.UPD_CNT 5], Unshown a := by unfold Unshown; decide
  have ht : s.Leaves (showKey o) t :=
    (h0.trans (setFldBoth_shows _ _ _ (ha _ (by decide)))).trans (countBoth_shows _ (ha (R.UPD_CNT 5) (by decide)))
  have hu : t.Leaves (showKey o) u := setFldBoth_shows t _ _ (ha _ (by decide))
  have hv : u.Leaves (showKey o) { u with upd := { u.upd with actLsn := none, drain := none, cycles := 0 } } := .of_regs rfl
  exact (ht.trans (hu.trans hv)).trans (disposeAll_shows _ ls _ (by decide))

theorem tallied_shows (s : State) (l : Lane) (cause : Nat) : s.Leaves (showKey o) (s.tallied l cause) := by
  have hrow := causeRow_le cause
  have hc : s.Leaves (showKey o) (s.count l (R.PARI_RST (causeRow cause))) := by
    refine setReg_shows s l _ ?_
    unfold Unshown R.PARI_RST R.FERRY_LANE R.SCSM_STATUS
    omega
  unfold State.tallied
  extract_lets t
  split
  · exact hc.trans (startRevert_shows t)
  · exact hc

theorem clearDeep_shows {l : Lane} (h : l ≠ o) (s : State) (lvl : RLevel) : s.Leaves (showKey o) (s.clearDeep l lvl) := by
  have hP := showKey_foreign h
  obtain ⟨c, hc⟩ : ∃ c, ((s.emptied l).restored s l lvl).stopDogs l = c := ⟨_, rfl⟩
  have hsc : s.Leaves (showKey o) c :=
    hc ▸ ((emptied_leaves hP.shadow s l fun a ha => hP.own a (by unfold homeSpan; omega)).trans (hP.restored _ s lvl)).trans
      (stopDogs_leaves _ l fun a _ ha => hP.own a (by unfold homeSpan; omega))
  have hb : c.Leaves (showKey o) (c.endBlkWaits l) :=
    ((hP.dropParCfg c).trans (hP.setReg _ 0 (by decide))).trans (disposeAll_shows _ _ _ (by decide))
  have hz : ((c.endBlkWaits l).zeroMem l lvl).regs = (c.endBlkWaits l).regs := by rw [zeroMem_with]
  rw [clearDeep_eq, hc]
  exact (hsc.trans hb).trans (.of_regs ((endLane_same _ l lvl).1.trans hz))

theorem deepened_shows {l : Lane} (h : l ≠ o) (s : State) (lvl : RLevel) : s.Leaves (showKey o) (s.deepened l lvl) := by
  unfold State.deepened
  split
  · exact .refl _ s
  · exact clearDeep_shows h s lvl

end

/-- Where those cells stay, the lane's state and its service do. -/
theorem State.Leaves.shown {s t : State} {o : Lane} (h : s.Leaves (showKey o) t) : t.lst o = s.lst o ∧ t.serving o = s.serving o := by
  have hF : t.reg o R.FERRY_LANE = s.reg o R.FERRY_LANE := h.reg (by cases o <;> decide)
  have hS : t.reg o R.SCSM_STATUS = s.reg o R.SCSM_STATUS := h.reg (by cases o <;> decide)
  unfold State.lst State.serving State.bit State.fld
  rw [hF, hS]
  exact ⟨rfl, rfl⟩

/-! #### The other lane as a lane goes down -/

theorem RegOnly.serving {s t : State} (h : RegOnly pairFlds s t) (o : Lane) : t.serving o = s.serving o := by
  refine h.bit o (by decide) (by unfold Fld.ok; decide) ?_
  rintro f (hx | ⟨k, -, hx⟩)
  · exact absurd hx (by decide)
  · unfold R.SCSM_STATUS R.LSTP_PAIR_STAT at hx
    omega

theorem RegOnly.lst {s t : State} (h : RegOnly haltFlds s t) (o : Lane) : t.lst o = s.lst o := by
  refine h.fld o _ _ (by decide) (by unfold Fld.ok; decide) ?_
  rintro f (hx | hx | ⟨k, -, hx⟩)
  · exact absurd hx (by decide)
  · exact absurd hx (by decide)
  · unfold R.FERRY_LANE R.LSTP_PAIR_STAT at hx
    omega

/-- Of the registers, a lane that halts writes beside SCSM_STATUS those of its pairs. -/
theorem halt_pairFlds {s : State} (w : rfWf s.regs = true) (l : Lane) (lvl : RLevel) :
    RegOnly pairFlds (s.setServing l false) (s.halt l lvl) :=
  (RegOnly.of (State.regs_setLane ..) (setServing_regs w l).wf).next fun w => syncPairs_pairFlds w l

/-- Of the fields, a change of a lane's state and its report write the registers and the lanes. -/
theorem setLst_syncMode_only {s : State} (h : s.Inv) (l : Lane) (v om : Nat) :
    State.Only 0x180008 s ((s.setLst l v).syncMode om) :=
  have k : State.Kept ⟨0x180008, s⟩ ((s.setLst l v).syncMode om) :=
    State.syncMode_kept (.refl _) (State.setLst_kept (.refl _) (.refl h))
  k.only

theorem assertDown_irqs (s : State) (l : Lane) : (s.assertDown l).irqs = s.irqs := by cases l <;> rfl

theorem mem_showDown_irqs {s : State} (h : s.Inv) {l : Lane} {om : Nat} {i : Irq} (hi : i ∈ (s.showDown l om).irqs) : i ∈ s.irqs := by
  have hm : i ∈ (((s.setLst l stRESET).syncMode om).assertDown l).irqs := (List.mem_filter.mp hi).1
  rwa [assertDown_irqs, (setLst_syncMode_only h l stRESET om).irqs.resolve_right (by decide)] at hm

theorem showDown_serving {s : State} (w : rfWf s.regs = true) (l o : Lane) (om : Nat) : (s.showDown l om).serving o = s.serving o :=
  have hmode : RegOnly lstFlds s ((s.setLst l stRESET).syncMode om) :=
    (RegOnly.setLst w l _).next fun w => (RegOnly.syncMode w om).mono fun _ _ hx => hx.imp And.left id
  calc (s.showDown l om).serving o = ((s.setLst l stRESET).syncMode om).serving o := by
        unfold State.serving State.bit State.fld State.reg
        rw [showDown_regs]
    _ = s.serving o := hmode.bit o (by decide) (by unfold Fld.ok; decide) fun f hf => by
        rcases hf with hf | ⟨hf, -⟩ <;> exact absurd hf (by decide)

section
variable {s : State} {l o : Lane} (hlo : l ≠ o)
include hlo

theorem lane_setLane_ne (s : State) (x : LaneRt) : (s.setLane l x).lane o = s.lane o := by
  cases l <;> cases o <;> first | rfl | exact absurd rfl hlo

theorem regKey_lanes_ne {a b : Nat} (ha : a < 2 ^ 32) (hb : Loose b) : regKey l.ix a ≠ regKey o.ix b := by
  have hix := ix_ne hlo
  have ho := lane_ix_lt o
  rw [regKey_loose hb]
  unfold regKey
  rw [lane_ix_mod]
  unfold Loose at hb
  unfold homeSpan
  split <;> omega

theorem setServing_serving_ne (w : rfWf s.regs = true) : (s.setServing l false).serving o = s.serving o := by
  have hs : Fld.ok F.SCSM_STATUS_SERVING ∧ Fld.ok F.SCSM_STATUS_FORWARDING := by unfold Fld.ok; decide
  have hx : Fld.apart F.SCSM_STATUS_FORWARDING F.SCSM_STATUS_SERVING := by unfold Fld.apart; decide
  have put {t : State} (w : rfWf t.regs = true) (k : Lane) (b : Bool) :
      (t.setBitF k R.SCSM_STATUS F.SCSM_STATUS_FORWARDING b).serving o = t.serving o := by
    unfold State.serving State.bit State.setBitF
    rw [State.fld_setFld_apart w _ _ _ _ hs.2 hs.1 hx]
  have h0 := State.setBitF_wf (l := l) (a := R.SCSM_STATUS) (f := F.SCSM_STATUS_SERVING) (b := false) w
  refine ((put (State.setBitF_wf h0) .W _).trans (put h0 .E _)).trans ?_
  unfold State.serving State.bit State.fld State.setBitF
  rw [State.reg_setFld_ne (regKey_lanes_ne hlo (by decide) (by unfold Loose; decide))]

/-- The other lane's SAFE ball follows its state. -/
theorem showDown_lane_ne (h : s.Inv) (om : Nat) : (s.showDown l om).lane o = { s.lane o with safeBall := s.ball o } := by
  have ko := setLst_syncMode_only h l stRESET om
  have hball : ((s.setLst l stRESET).syncMode om).ball o = s.ball o := by
    unfold State.ball
    rw [syncMode_lst (RegOnly.setLst h.regs l _).wf, lst_setLst_ne h.regs hlo, ko.mod_.resolve_right (by decide)]
  calc (s.showDown l om).lane o = ((s.setLst l stRESET).syncMode om).lane o := assertDown_lane _ l o
    _ = { s.lane o with safeBall := ((s.setLst l stRESET).syncMode om).ball o } := by rw [State.syncMode_lane, State.setLst_lane]
    _ = _ := by rw [hball]

theorem showDown_lst_ne (w : rfWf s.regs = true) (om : Nat) : (s.showDown l om).lst o = s.lst o :=
  calc (s.showDown l om).lst o = ((s.setLst l stRESET).syncMode om).lst o := by
        unfold State.lst State.fld State.reg
        rw [showDown_regs]
    _ = s.lst o := by rw [syncMode_lst (RegOnly.setLst w l _).wf, lst_setLst_ne w hlo]

theorem halt_serving_ne (w : rfWf s.regs = true) (lvl : RLevel) : (s.halt l lvl).serving o = s.serving o :=
  ((halt_pairFlds w l lvl).serving o).trans (setServing_serving_ne hlo w)

theorem halt_lane_ne (h : s.Inv) (lvl : RLevel) : (s.halt l lvl).lane o = s.lane o := by
  have h1 : State.Kept ⟨0x8, s⟩ (s.setServing l false) := State.setServing_kept (.refl _) (.refl h)
  unfold State.halt
  extract_lets t
  have h2 := setLane_inv h1.inv l { t.lane l with resetting := some lvl, elderUp := false, bootOk := false, coresHeld := true }
  have h3 := State.syncPairs_kept (l := l) (.refl _) (State.Kept.refl (fx := 0x8) h2)
  rw [h3.lane (by decide), lane_setLane_ne hlo, h1.lane (by decide)]

theorem deferFrozen_lane_ne (s : State) (lvl : RLevel) : (s.deferFrozen l lvl).lane o = s.lane o := by
  unfold State.deferFrozen
  split
  · rw [lane_setLane_ne hlo]
    exact State.lane_congr (State.setBitF_laneE ..) (State.setBitF_laneW ..) o
  · rfl

theorem clearEngines_engines_ne (s : State) : (s.clearEngines l).engines o = s.engines o := by
  cases l <;> cases o <;> first
    | exact absurd rfl hlo
    | (unfold State.clearEngines; dsimp only; split <;> split <;> rfl)

theorem endLane_ne (s : State) (lvl : RLevel) : (s.endLane l lvl).engines o = s.engines o ∧ (s.endLane l lvl).lane o = s.lane o := by
  cases l <;> cases o <;> first | exact absurd rfl hlo | exact ⟨rfl, rfl⟩

theorem assertDown_seenDown_ne (s : State) : (s.assertDown l).seenDown o = s.seenDown o := by
  cases l <;> cases o <;> first | rfl | exact absurd rfl hlo

end

theorem zeroMem_lane (s : State) (l : Lane) (lvl : RLevel) (o : Lane) : (s.zeroMem l lvl).lane o = s.lane o := by
  rw [zeroMem_with]
  cases o <;> rfl

theorem mem_of_mem_zeroMem {s : State} {l : Lane} {lvl : RLevel} {c} (hc : c ∈ (s.zeroMem l lvl).mem) : c ∈ s.mem := by
  unfold State.zeroMem at hc
  extract_lets t at hc
  split at hc
  · exact (clearMem_mem (clearMem_mem hc).1).1
  · exact (clearMem_mem hc).1

/-- What a reset of the other lane leaves of a lane: beside its SAFE ball, all that its own reset sets but the memory, of which
cells may go. -/
structure State.Stands (s t : State) (o : Lane) : Prop where
  lane : t.lane o = s.lane o ∨ t.lane o = { s.lane o with safeBall := s.ball o }
  lst : t.lst o = s.lst o
  serving : t.serving o = s.serving o
  mod_ : t.mod_ = s.mod_
  engines : t.engines o = s.engines o
  arb : t.seenDown o = s.seenDown o
  mem : ∀ c ∈ t.mem, c ∈ s.mem
  irqs : ∀ i ∈ t.irqs, i ∈ s.irqs

theorem State.Stands.ball {s t : State} {o : Lane} (h : s.Stands t o) : t.ball o = s.ball o := by
  unfold State.ball
  rw [h.mod_, h.lst]

theorem State.Stands.trans {s t u : State} {o : Lane} (h : s.Stands t o) (k : t.Stands u o) : s.Stands u o where
  lane := by
    rcases k.lane with hk | hk
    · rw [hk]
      exact h.lane
    · rw [hk, h.ball]
      rcases h.lane with hl | hl <;> exact .inr (by rw [hl])
  lst := k.lst.trans h.lst
  serving := k.serving.trans h.serving
  mod_ := k.mod_.trans h.mod_
  engines := k.engines.trans h.engines
  arb := k.arb.trans h.arb
  mem c hc := h.mem c (k.mem c hc)
  irqs i hi := h.irqs i (k.irqs i hi)

/-- None of the fields in which a lane stands are numbered in `m`. -/
def Beside (m : Nat) : Prop := NoEngines m ∧ ∀ i ∈ [4, 6, 17, 19, 20, 23], m.testBit i = false

theorem State.Kept.stands {m : Nat} {s t : State} {o : Lane} (k : State.Kept ⟨m, s⟩ t) (hm : Beside m)
    (hs : s.Leaves (showKey o) t) : s.Stands t o := by
  have off {i : Nat} (hi : i ∈ [4, 6, 17, 19, 20, 23]) : ¬ m.testBit i = true := by rw [hm.2 i hi]; decide
  have ko : State.Only m s t := k.only
  exact ⟨.inl (k.lane ⟨hm.2 19 (by decide), hm.2 20 (by decide)⟩ o), hs.shown.1, hs.shown.2, ko.mod_.resolve_right (off (by decide)),
    k.engines hm.1 o, State.seenDown_congr (ko.arb.resolve_right (off (by decide))) o,
    fun c hc => ko.mem.resolve_right (off (by decide)) ▸ hc, fun i hi => ko.irqs.resolve_right (off (by decide)) ▸ hi⟩

section
variable {s : State} (h : s.Inv) {l o : Lane} (hlo : l ≠ o)
include h hlo

theorem goDown_stands (lvl : RLevel) (om : Nat) (w : Word) : s.Stands (s.goDown l lvl om w) o := by
  obtain ⟨b, hb⟩ : ∃ b, (s.showDown l om).setReg l R.RSTC_RST_CAUSE w = b := ⟨_, rfl⟩
  obtain ⟨c, hc⟩ : ∃ c, b.halt l lvl = c := ⟨_, rfl⟩
  obtain ⟨t, ht⟩ : ∃ t, c.deferFrozen l lvl = t := ⟨_, rfl⟩
  have hgo : s.goDown l lvl om w = t := by rw [← ht, ← hc, ← hb]; rfl
  have hbi : b.Inv := hb ▸ (blame_kept (.refl _) (.refl h) om w).inv
  have hbc : RegOnly haltFlds b c := hc ▸ halt_haltFlds hbi.regs l lvl
  have hct : RegOnly pairFlds c t := ht ▸ deferFrozen_pairFlds hbc.wf l lvl
  have hbt : RegOnly haltFlds b t := hbc.next fun _ => hct.mono fun _ _ hx => hx.imp_right .inr
  have hkept : State.Kept ⟨0x180008, b⟩ t :=
    ht ▸ deferFrozen_kept (.refl _) (hc ▸ halt_kept (.refl _) (.refl hbi) : State.Kept ⟨0x180008, b⟩ c)
  have honly : State.Only 0x180008 b t := hkept.only
  have hbs : b.lst o = s.lst o ∧ b.serving o = s.serving o := by
    have hk := (hb ▸ setReg_shows (s.showDown l om) l w (by unfold Unshown; decide) : (s.showDown l om).Leaves (showKey o) b).shown
    exact ⟨hk.1.trans (showDown_lst_ne hlo h.regs om), hk.2.trans (showDown_serving h.regs l o om)⟩
  have hbl : b.lane o = { s.lane o with safeBall := s.ball o } :=
    (hb ▸ State.lane_congr (State.setReg_laneE ..) (State.setReg_laneW ..) o : b.lane o = (s.showDown l om).lane o).trans
      (showDown_lane_ne hlo h om)
  have kt : State.Kept ⟨0x1a0048, s⟩ (s.goDown l lvl om w) := goDown_kept (.refl _) (.refl h) om w
  have kgo : State.Only 0x1a0048 s (s.goDown l lvl om w) := kt.only
  rw [hgo]
  refine ⟨.inr ?_, (hbt.lst o).trans hbs.1, ?_, hgo ▸ kgo.mod_.resolve_right (by decide), ?_, ?_, ?_, ?_⟩
  · rw [← ht, deferFrozen_lane_ne hlo, ← hc, halt_lane_ne hlo hbi, hbl]
  · exact (hct.serving o).trans ((hc ▸ halt_serving_ne hlo hbi.regs lvl : c.serving o = b.serving o).trans hbs.2)
  · exact hgo ▸ kt.engines (by unfold NoEngines; decide) o
  · have hbarb : b.seenDown o = (s.showDown l om).seenDown o := hb ▸ State.seenDown_congr (State.setReg_arb ..) o
    have ko := setLst_syncMode_only h l stRESET om
    calc t.seenDown o = b.seenDown o := State.seenDown_congr (honly.arb.resolve_right (by decide)) o
      _ = (((s.setLst l stRESET).syncMode om).assertDown l).seenDown o := hbarb
      _ = s.seenDown o := (assertDown_seenDown_ne hlo _).trans (State.seenDown_congr (ko.arb.resolve_right (by decide)) o)
  · rw [← hgo, goDown_mem h]
    exact fun c hc => hc
  · have hirq : t.irqs = (s.showDown l om).irqs := (honly.irqs.resolve_right (by decide)).trans (hb ▸ State.setReg_irqs ..)
    exact fun i hi => mem_showDown_irqs h (hirq ▸ hi)

theorem clearDeep_stands (lvl : RLevel) : s.Stands (s.clearDeep l lvl) o := by
  obtain ⟨a, ha⟩ : ∃ a, s.emptied l = a := ⟨_, rfl⟩
  obtain ⟨b, hb⟩ : ∃ b, a.restored s l lvl = b := ⟨_, rfl⟩
  obtain ⟨c, hc⟩ : ∃ c, b.stopDogs l = c := ⟨_, rfl⟩
  obtain ⟨d, hd⟩ : ∃ d, c.endBlkWaits l = d := ⟨_, rfl⟩
  have ka : State.Kept ⟨0x1ce0fafc00000208, s⟩ a := ha ▸ emptied_kept h l
  have kb : State.Kept ⟨0x6c00000000000000208, a⟩ b := hb ▸ restored_kept ka.inv h l lvl
  have kc : State.Kept ⟨0x8, b⟩ c := hc ▸ stopDogs_kept kb.inv l
  have kd : State.Kept ⟨0x14000000000000308, c⟩ d := hd ▸ endBlkWaits_kept kc.inv l
  have oa : State.Only 0x1ce0fafc00000208 s a := ka.only
  have ob : State.Only 0x6c00000000000000208 a b := kb.only
  have oc : State.Only 0x8 b c := kc.only
  have od : State.Only 0x14000000000000308 c d := kd.only
  have kt : State.Kept ⟨0x6cfdce0fafc00580318, s⟩ (s.clearDeep l lvl) := State.clearDeep_kept (.refl _) (.refl h)
  have ot : State.Only 0x6cfdce0fafc00580318 s (s.clearDeep l lvl) := kt.only
  obtain ⟨hregs, hmem, -⟩ := endLane_same (d.zeroMem l lvl) l lvl
  obtain ⟨heng, hlane⟩ := endLane_ne hlo (d.zeroMem l lvl) lvl
  have hdeep : s.clearDeep l lvl = (d.zeroMem l lvl).endLane l lvl := by rw [clearDeep_eq, ha, hb, hc, hd]
  obtain ⟨hlst, hserv⟩ := (clearDeep_shows hlo s lvl).shown
  refine ⟨.inl ?_, hlst, hserv, ot.mod_.resolve_right (by decide), ?_,
    State.seenDown_congr (ot.arb.resolve_right (by decide)) o, fun x hx => ?_, fun i hi => ?_⟩
  · rw [hdeep, hlane, zeroMem_lane, kd.lane (by decide), kc.lane (by decide), kb.lane (by decide), ka.lane (by decide)]
  · have hze : (d.zeroMem l lvl).engines o = d.engines o := by rw [zeroMem_with]; rfl
    have hcl : (s.clearEngines l).Inv := (State.clearEngines_kept (.refl _) (State.Kept.refl h)).inv
    have ke : State.Kept ⟨0x208, s.clearEngines l⟩ a := ha ▸ State.clearSlots_kept (.refl _)
      (State.handCommits_kept (.of (.refl _) (show Nat.land 0x200 0x208 = 0x200 by decide)) (.refl hcl))
    rw [hdeep, heng, hze, kd.engines (by unfold NoEngines; decide), kc.engines (by unfold NoEngines; decide),
      kb.engines (by unfold NoEngines; decide), ke.engines (by unfold NoEngines; decide), clearEngines_engines_ne hlo]
  · have hd' : d.mem = s.mem := by
      rw [od.mem.resolve_right (by decide), oc.mem.resolve_right (by decide), ob.mem.resolve_right (by decide),
        oa.mem.resolve_right (by decide)]
    rw [hdeep, hmem] at hx
    exact hd' ▸ mem_of_mem_zeroMem hx
  · rwa [ot.irqs.resolve_right (by decide)] at hi

theorem deepened_stands (lvl : RLevel) : s.Stands (s.deepened l lvl) o := by
  unfold State.deepened
  split
  · exact State.Kept.stands (m := 0) (.refl h) (by unfold Beside NoEngines; decide) (.refl _ s)
  · exact clearDeep_stands h hlo lvl

/-- A reset of one lane leaves the other's state and engines, and what it shows (R98). -/
theorem laneReset_stands (lvl : RLevel) (cause detail : Nat) : s.Stands (s.laneReset l lvl cause detail) o := by
  have hu := tallied_kept h l cause
  have hs := hu.stands (by unfold Beside NoEngines; decide) (tallied_shows (o := o) s l cause)
  by_cases hm : Merges ((s.tallied l cause).lane l).resetting lvl
  · rw [laneReset_of_merges hm]
    have hb := State.setBitF_kept (l := l) (a := R.RSTC_RST_CAUSE) (f := F.RSTC_RST_CAUSE_MERGED) (b := true) (.refl _)
      (State.Kept.refl (fx := 0x8) hu.inv)
    exact hs.trans (hb.stands (by unfold Beside NoEngines; decide) (setReg_shows _ l _ (by unfold Unshown; decide)))
  · have hd := deepened_stands hu.inv hlo lvl
    have hdi : ((s.tallied l cause).deepened l lvl).Inv := by
      unfold State.deepened
      split
      · exact hu.inv
      · exact (State.clearDeep_kept (.refl _) (.refl hu.inv)).inv
    rw [laneReset_of_not_merges hm]
    exact (hs.trans hd).trans (goDown_stands hdi hlo lvl _ _)

end

/-! ### Resets of both lanes, and what stood before a reset -/

/-- The cell of a register in the other lane. -/
theorem Foreign.key {l o : Lane} (hlo : l ≠ o) {a : Nat} (ha : a < homeSpan) : Foreign l (fun k => k == o.ix * homeSpan + a) := by
  have hix := ix_ne hlo
  have ho := lane_ix_lt o
  unfold homeSpan at *
  exact ⟨fun b hb => beq_false_of_ne (by unfold homeSpan at *; omega), fun b hb => beq_false_of_ne (by unfold homeSpan at *; omega),
    fun k hk => beq_false_of_ne (by unfold homeSpan at *; omega)⟩

/-- A block of the other lane. -/
theorem Foreign.block {l o : Lane} (hlo : l ≠ o) {b : Nat} (hb : b < 24) : Foreign l (inBlock o b) := by
  have hix := ix_ne hlo
  have ho := lane_ix_lt o
  exact ⟨fun b hb => decide_eq_false (by unfold homeSpan at *; omega), fun b hb => decide_eq_false (by unfold homeSpan at *; omega),
    fun k hk => decide_eq_false (by unfold homeSpan at *; omega)⟩

/-- What a reset of lane `l` does not reach: lane `o`, the shared dies and the channels. -/
structure State.Spared (s t : State) (l o : Lane) : Prop where
  stands : s.Stands t o
  dies : s.DiesKept t
  outs : t.outs = s.outs
  feeds : t.feeds = s.feeds
  fcs : t.fcs = s.fcs
  regs : ∀ P, Calm P → Foreign l P → s.Leaves P t

theorem laneReset_spared {s : State} (h : s.Inv) {l o : Lane} (hlo : l ≠ o) (lvl : RLevel) (cause detail : Nat) :
    s.Spared (s.laneReset l lvl cause detail) l o := by
  have honly : State.Only 0x16cfdce0fafc005a0358 s (s.laneReset l lvl cause detail) :=
    (State.laneReset_kept (.refl _) (.refl h)).only
  refine ⟨laneReset_stands h hlo lvl cause detail, laneReset_diesKept s l lvl cause detail, honly.outs.resolve_right (by decide),
    honly.feeds.resolve_right (by decide), honly.fcs.resolve_right (by decide), fun P hP hF => ?_⟩
  have hrow := causeRow_le cause
  exact (tallied_leaves hP s l cause (hF.own _ (by unfold R.PARI_RST homeSpan; omega))).trans
    (laneReset_leaves hP s l lvl cause detail fun a ha => hF.own a (by unfold homeSpan; omega))

section
variable {s u t : State} {l o : Lane} {lvl : RLevel} {cause detail : Nat}

/-- A register of the other lane that is not among the loose ones. -/
theorem State.Spared.reg (h : s.Spared t l o) (hlo : l ≠ o) {a : Nat} (ha : a < homeSpan) (hl : ¬ Loose a)
    (hk : regKey o.ix a = o.ix * homeSpan + a) : t.reg o a = s.reg o a :=
  (h.regs _ (.key o ha hl) (.key hlo ha)).reg (by simp [hk])

theorem State.Spared.tally (h : s.Spared t l o) (hlo : l ≠ o) (cause : Nat) :
    t.reg o (R.PARI_RST (causeRow cause)) = s.reg o (R.PARI_RST (causeRow cause)) := by
  have hrow := causeRow_le cause
  exact h.reg hlo (by unfold R.PARI_RST homeSpan; omega) (by unfold R.PARI_RST Loose; omega) (regKey_pariRst o cause)

theorem State.Spared.causeReg (h : s.Spared t l o) (hlo : l ≠ o) : t.reg o R.RSTC_RST_CAUSE = s.reg o R.RSTC_RST_CAUSE :=
  h.reg hlo (by decide) (by unfold Loose; decide) (regKey_own (sharedReg_own (b := 0) (by decide) (by decide)) o)

theorem State.Spared.dog (h : s.Spared t l o) (hlo : l ≠ o) {n : Nat} (hn : n < 6) :
    t.reg o (R.RSTC_WDT_CFG n) = s.reg o (R.RSTC_WDT_CFG n) :=
  h.reg hlo (by unfold R.RSTC_WDT_CFG homeSpan; omega) (by unfold R.RSTC_WDT_CFG Loose; omega) (regKey_dog o hn)

theorem State.Spared.block (h : s.Spared t l o) (hlo : l ≠ o) {b : Nat} (hb : b ∈ [9, 10, 15, 16])
    (hs : ∀ c ∈ s.regs, inBlock o b c.1 = false) : ∀ c ∈ t.regs, inBlock o b c.1 = false := by
  refine fun c hc => Bool.eq_false_iff.mpr fun hin => ?_
  have hlt : b < 24 := (by decide : ∀ b ∈ [9, 10, 15, 16], b < 24) b hb
  have hm : c ∈ t.regs.filter (fun c => inBlock o b c.1) := List.mem_filter.mpr ⟨hc, hin⟩
  rw [h.regs _ (.block o hb) (.block hlo hlt)] at hm
  exact absurd hin (Bool.eq_false_iff.mp (hs c (List.mem_filter.mp hm).1))

/-- Of the lane's record, the SAFE ball apart. -/
theorem State.Stands.lane_ball (h : s.Stands t o) : t.lane o = { s.lane o with safeBall := (t.lane o).safeBall } := by
  rcases h.lane with hl | hl <;> rw [hl]

/-- A SAFE ball that is low with the lane in RESET stays low. -/
theorem State.Stands.ball_low (h : s.Stands t o) (hb : (s.lane o).safeBall = false) (hr : s.lst o = stRESET) :
    (t.lane o).safeBall = false := by
  rcases h.lane with hl | hl
  · rw [hl, hb]
  · rw [hl]
    show s.ball o = false
    unfold State.ball
    rw [hr]
    exact Bool.and_false _

/-- A SYS or POR reset of a lane stands through a reset of the other. -/
theorem State.ResetTo.spared (hr : s.ResetTo u o lvl cause detail) (hl : lvl ≠ .core) (hlo : l ≠ o) (h : u.Spared t l o) :
    s.ResetTo t o lvl cause detail := by
  obtain ⟨hcnt, hdies, houts, hfeeds, hfcs, hmerge, hgo⟩ := hr
  obtain ⟨b, hlane⟩ : ∃ b, t.lane o = { u.lane o with safeBall := b } := ⟨_, h.stands.lane_ball⟩
  have hcause := h.causeReg hlo
  refine ⟨?_, h.dies.trans hdies, h.outs.trans houts, h.feeds.trans hfeeds, h.fcs.trans hfcs, fun hm => ?_, fun hm => ?_⟩
  · unfold State.Counts
    rw [h.tally hlo]
    exact hcnt
  · obtain ⟨h1, h2, h3⟩ := hmerge hm
    unfold State.bit State.fld at *
    rw [hcause, hlane]
    exact ⟨h1, h2, h3⟩
  · obtain ⟨hreg, hlst, hres, helder, hcores, hserv, hball, harb, hirq, -, hdeep⟩ := hgo hm
    obtain ⟨htide, hcvc, hharb, hrel, hdog, hsram, hlp, hblk⟩ := hdeep hl
    have heng := h.stands.engines
    refine ⟨hcause.trans hreg, h.stands.lst.trans hlst, by rw [hlane]; exact hres, by rw [hlane]; exact helder,
      by rw [hlane]; exact hcores, h.stands.serving.trans hserv, h.stands.ball_low hball hlst, ?_,
      fun i hi => hirq i (h.stands.irqs i hi), fun hc => absurd hc hl, fun _ => ⟨(congrArg (fun e => e.1) heng).trans htide,
        (congrArg (fun e => e.2.1) heng).trans hcvc, (congrArg (fun e => e.2.2) heng).trans hharb, by rw [hlane]; exact hrel,
        fun n hn => (h.dog hlo hn).trans (hdog n hn), fun c hc => hsram c (h.stands.mem c hc),
        fun hp c hc => hlp hp c (h.stands.mem c hc), fun b hb c hc => ?_⟩⟩
    · have hs := h.stands.arb
      cases o <;> exact hs.trans harb
    · exact of_decide_eq_false (h.block hlo hb (fun c hc => decide_eq_false (hblk b hb c hc)) c hc)

/-- What a SYS or POR reset of a lane measures itself by has not changed. -/
structure State.Eve (s u : State) (l : Lane) (cause : Nat) : Prop where
  tally : u.reg l (R.PARI_RST (causeRow cause)) = s.reg l (R.PARI_RST (causeRow cause))
  causeReg : u.reg l R.RSTC_RST_CAUSE = s.reg l R.RSTC_RST_CAUSE
  dies : s.DiesKept u
  outs : u.outs = s.outs
  feeds : u.feeds = s.feeds
  fcs : u.fcs = s.fcs
  resetting : (u.lane l).resetting = (s.lane l).resetting

theorem State.Spared.eve (h : s.Spared u l o) (hlo : l ≠ o) (cause : Nat) : s.Eve u o cause :=
  ⟨h.tally hlo cause, h.causeReg hlo, h.dies, h.outs, h.feeds, h.fcs, by rw [h.stands.lane_ball]⟩

theorem State.Eve.resetTo (e : s.Eve u l cause) (hl : lvl ≠ .core) (hr : u.ResetTo t l lvl cause detail) :
    s.ResetTo t l lvl cause detail := by
  obtain ⟨hcnt, hdies, houts, hfeeds, hfcs, hmerge, hgo⟩ := hr
  rw [e.resetting] at hmerge hgo
  refine ⟨?_, hdies.trans e.dies, houts.trans e.outs, hfeeds.trans e.feeds, hfcs.trans e.fcs, fun hm => ?_, fun hm => ?_⟩
  · unfold State.Counts at *
    rw [← e.tally]
    exact hcnt
  · obtain ⟨h1, h2, h3⟩ := hmerge hm
    refine ⟨h1, h2, h3.trans ?_⟩
    unfold State.fld
    rw [e.causeReg]
  · obtain ⟨hreg, hlst, hres, helder, hcores, hserv, hball, harb, hirq, -, hdeep⟩ := hgo hm
    exact ⟨hreg, hlst, hres, helder, hcores, hserv, hball, harb, hirq, fun hc => absurd hc hl, hdeep⟩

end

/-! ### RESET_N (R104) -/

/-- A powered lane is reset. -/
def State.resetIfOn (s : State) (l : Lane) (lvl : RLevel) (cause detail : Nat) : State :=
  if (s.lane l).powered then s.laneReset l lvl cause detail else s

theorem bothReset_eq (s : State) (lvl : RLevel) (cause detail : Nat) :
    s.bothReset lvl cause detail = (s.resetIfOn .E lvl cause detail).resetIfOn .W lvl cause detail := rfl

theorem State.Spared.refl (h : s.Inv) (l o : Lane) : State.Spared s s l o :=
  ⟨State.Kept.stands (m := 0) (.refl h) (by unfold Beside NoEngines; decide) (.refl _ s), rfl, rfl, rfl, rfl, fun P _ _ => .refl P s⟩

section
variable {s : State} (h : s.Inv) (lvl : RLevel) (cause detail : Nat)
include h

theorem resetIfOn_spared {l o : Lane} (hlo : l ≠ o) : s.Spared (s.resetIfOn l lvl cause detail) l o := by
  unfold State.resetIfOn
  split
  · exact laneReset_spared h hlo lvl cause detail
  · exact .refl h l o

theorem resetIfOn_kept (l : Lane) : State.Kept ⟨0x16cfdce0fafc005a0358, s⟩ (s.resetIfOn l lvl cause detail) :=
  kept_ite (fun _ => State.laneReset_kept (.refl _) (.refl h)) fun _ => .refl h

theorem resetIfOn_resetTo {l : Lane} (hp : (s.lane l).powered = true) (hc : cause < 256) :
    s.ResetTo (s.resetIfOn l lvl cause detail) l lvl cause detail := by
  unfold State.resetIfOn
  rw [if_pos hp]
  exact laneReset_resetTo h l lvl hc detail

theorem bothReset_resetTo (hl : lvl ≠ .core) (hc : cause < 256) (l : Lane) (hp : (s.lane l).powered = true) :
    s.ResetTo (s.bothReset lvl cause detail) l lvl cause detail := by
  obtain ⟨u, hu⟩ : ∃ u, s.resetIfOn .E lvl cause detail = u := ⟨_, rfl⟩
  have hui : u.Inv := hu ▸ (resetIfOn_kept h lvl cause detail .E).inv
  rw [bothReset_eq, hu]
  cases l with
  | E =>
    have hE : s.ResetTo u .E lvl cause detail := hu ▸ resetIfOn_resetTo h lvl cause detail hp hc
    exact hE.spared hl (by decide) (resetIfOn_spared hui lvl cause detail (l := .W) (by decide))
  | W =>
    have hs : s.Spared u .E .W := hu ▸ resetIfOn_spared h lvl cause detail (by decide)
    have hpu : (u.lane .W).powered = true := by rw [hs.stands.lane_ball, ← hp]
    exact (hs.eve (by decide) cause).resetTo hl (resetIfOn_resetTo hui lvl cause detail hpu hc)

end

theorem resetNAssert_completes {s : State} (h : s.Inv) (hn : s.mod_.resetN = false) (hon : s.mod_.poweredOn = true)
    (hsl : s.mod_.asleep = false) : Completes (exec .resetNAssert s) (fun t =>
      t.mod_.resetN = true ∧ ∀ l, (s.lane l).powered = true → s.ResetTo t l .sys 0x10 0) := by
  have hi := inv_withMod h { s.mod_ with resetN := true }
  obtain ⟨u, hu⟩ : ∃ u, { s with mod_ := { s.mod_ with resetN := true } } = u := ⟨_, rfl⟩
  rw [hu] at hi
  have hx : exec .resetNAssert s = .next (u.bothReset .sys 0x10 0) := by
    rw [← hu]
    exact if_neg (by simp [hn, hon, hsl])
  have k : State.Kept ⟨0x16cfdce0fafc005a0358, u⟩ (u.bothReset .sys 0x10 0) := State.bothReset_kept (.refl _) (.refl hi)
  have ko : State.Only 0x16cfdce0fafc005a0358 u (u.bothReset .sys 0x10 0) := k.only
  refine ⟨_, hx, ?_, fun l hp => ?_⟩
  · rw [ko.mod_.resolve_right (by decide), ← hu]
  · have hpu : (u.lane l).powered = true := by
      rw [← hu, ← hp]
      cases l <;> rfl
    have hr := bothReset_resetTo hi .sys 0x10 0 (by decide) (by decide) l hpu
    rw [← hu] at hr ⊢
    cases l <;> exact hr

/-! ### Pending signed resets (R109, R110) -/

/-- The work of signed resets that a lane has: those pending, and the entries that wait for its release. -/
def State.signedWork (s : State) (l : Lane) : List PendReset × List Nat := ((s.lane l).pendResets, (s.lane l).resetLsns)

theorem endLane_signedWork (s : State) (l : Lane) (lvl : RLevel) : (s.endLane l lvl).signedWork l = s.signedWork l := by
  cases l <;> rfl

theorem State.signedWork_congr {s t : State} {l : Lane} (h : t.lane l = s.lane l) : t.signedWork l = s.signedWork l := by
  unfold State.signedWork
  rw [h]

section
variable {s : State} (h : s.Inv) (l : Lane) (lvl : RLevel)
include h

theorem clearDeep_signedWork : (s.clearDeep l lvl).signedWork l = s.signedWork l := by
  have ka := emptied_kept h l
  have kb := restored_kept ka.inv h l lvl
  have kc := stopDogs_kept kb.inv l
  have kd := endBlkWaits_kept kc.inv l
  rw [clearDeep_eq, endLane_signedWork]
  refine State.signedWork_congr ?_
  rw [zeroMem_lane, kd.lane (by decide), kc.lane (by decide), kb.lane (by decide), ka.lane (by decide)]

theorem goDown_signedWork (om : Nat) (w : Word) : (s.goDown l lvl om w).signedWork l = s.signedWork l := by
  have hb := (blame_kept (l := l) (.refl 0x1a0048) (.refl h) om w).inv
  have hlane : ((s.showDown l om).setReg l R.RSTC_RST_CAUSE w).lane l = (s.showDown l om).lane l :=
    State.lane_congr (State.setReg_laneE ..) (State.setReg_laneW ..) l
  unfold State.signedWork State.goDown
  rw [deferFrozen_lane, halt_lane hb, hlane, showDown_lane]

/-- A reset of a lane leaves its pending signed resets and the entries that wait for its release. -/
theorem laneReset_signedWork (cause detail : Nat) : (s.laneReset l lvl cause detail).signedWork l = s.signedWork l := by
  have hu := tallied_kept h l cause
  have ht : (s.tallied l cause).signedWork l = s.signedWork l := State.signedWork_congr (hu.lane (by decide) l)
  by_cases hm : Merges ((s.tallied l cause).lane l).resetting lvl
  · rw [laneReset_of_merges hm, ← ht]
    exact State.signedWork_congr (State.lane_congr (State.setBitF_laneE ..) (State.setBitF_laneW ..) l)
  · rw [laneReset_of_not_merges hm]
    unfold State.deepened
    split
    · exact (goDown_signedWork hu.inv l lvl _ _).trans ht
    · have hi : ((s.tallied l cause).clearDeep l lvl).Inv := (State.clearDeep_kept (.refl _) (.refl hu.inv)).inv
      exact (goDown_signedWork hi l lvl _ _).trans ((clearDeep_signedWork hu.inv l lvl).trans ht)

end

/-- The first pending reset of a lane begins: its entry waits for the release. -/
def State.beginPend (s : State) (l : Lane) (p : PendReset) : State :=
  s.setLane l { s.lane l with pendResets := (s.lane l).pendResets.erase p, resetLsns := (s.lane l).resetLsns ++ [p.lsn] }

theorem assertPend_none {s : State} {l : Lane} (h : (s.lane l).pendResets = []) (cause : Nat) : s.assertPend l cause = s := by
  unfold State.assertPend
  dsimp only
  rw [h]
  rfl

theorem assertPend_head {s : State} {l : Lane} {p : PendReset} {ps : List PendReset} (h : (s.lane l).pendResets = p :: ps) :
    s.assertPend l p.cause = (s.beginPend l p).laneReset l p.level p.cause p.detail := by
  have hf : (s.lane l).pendResets.find? (fun q => q.cause == p.cause) = some p := by
    rw [h]
    exact List.find?_cons_of_pos (beq_self_eq_true _)
  unfold State.assertPend
  dsimp only
  rw [hf]
  rfl

/-- A reset reads neither what is pending nor what waits for a release. -/
theorem State.ResetTo.of_beginPend {s t : State} {l : Lane} {p : PendReset} {lvl : RLevel} {cause detail : Nat}
    (h : (s.beginPend l p).ResetTo t l lvl cause detail) : s.ResetTo t l lvl cause detail := by
  cases l <;> exact h

theorem assertPend_takes {s : State} (h : s.Inv) {l : Lane} {p : PendReset} {ps : List PendReset}
    (hp : (s.lane l).pendResets = p :: ps) (hc : p.cause < 256) :
    ((s.assertPend l p.cause).lane l).pendResets = ps ∧ p.lsn ∈ ((s.assertPend l p.cause).lane l).resetLsns ∧
    s.ResetTo (s.assertPend l p.cause) l p.level p.cause p.detail := by
  have hi : (s.beginPend l p).Inv := setLane_inv h l _
  have hw := laneReset_signedWork hi l p.level p.cause p.detail
  rw [← assertPend_head hp] at hw
  obtain ⟨hps, hls⟩ := Prod.ext_iff.mp hw
  have hbegin : (s.beginPend l p).signedWork l = (ps, (s.lane l).resetLsns ++ [p.lsn]) := by
    unfold State.signedWork State.beginPend
    rw [State.lane_setLane, hp, List.erase_cons_head]
  rw [hbegin] at hps hls
  refine ⟨hps, ?_, ?_⟩
  · show p.lsn ∈ ((s.assertPend l p.cause).signedWork l).2
    rw [hls]
    exact List.mem_append_right _ List.mem_cons_self
  · rw [assertPend_head hp]
    exact (laneReset_resetTo hi l p.level hc p.detail).of_beginPend

/-- A powered lane asserts the pending reset that is first, as the message reaches it or its own Elder does. -/
theorem signedReset_completes {s : State} (h : s.Inv) {l : Lane} {p : PendReset} {ps : List PendReset}
    (hon : (s.lane l).powered = true) (hp : (s.lane l).pendResets = p :: ps) :
    let taken := fun (t : State) => (t.lane l).pendResets = ps ∧ p.lsn ∈ (t.lane l).resetLsns ∧ s.ResetTo t l p.level p.cause p.detail
    (p.cause = 0x31 → Completes (exec (.resetMessage l) s) taken) ∧
    (p.cause = 0x30 → Completes (exec (.signedResetAssert l) s) taken) := by
  have hmsg : exec (.resetMessage l) s = .next (s.assertPend l 0x31) := if_pos hon
  have hasr : exec (.signedResetAssert l) s = .next (s.assertPend l 0x30) := if_pos hon
  refine ⟨fun hc => ⟨_, hmsg, ?_⟩, fun hc => ⟨_, hasr, ?_⟩⟩
  all_goals
    have ht := assertPend_takes h hp (by rw [hc]; decide)
    rwa [hc] at ht ⊢

theorem signedReset_idle {s : State} {l : Lane} (h : (s.lane l).pendResets = []) :
    exec (.resetMessage l) s = .next s ∧ exec (.signedResetAssert l) s = .next s := by
  constructor
  · show (if (s.lane l).powered then Host.Outcome.next (s.assertPend l 0x31) else .next s) = _
    rw [assertPend_none h, ite_self]
  · show (if (s.lane l).powered then Host.Outcome.next (s.assertPend l 0x30) else .next s) = _
    rw [assertPend_none h, ite_self]

/-! ### Errors of critical state (R106) -/

theorem count_onlyRegs (s : State) (l : Lane) (a : Nat) : s.OnlyRegs [regKey l.ix a] (s.count l a) :=
  ⟨fun _ hk => rfGet_rfPut_ne _ _ _ _ fun he => hk (he ▸ List.mem_cons_self), rfl⟩

theorem eccError_completes {s : State} (h : s.Inv) {l : Lane} {k : Nat} (hon : (s.lane l).powered = true) (h1 : 1 ≤ k) (h7 : k ≤ 7) :
    Completes (exec (.eccError l k false) s) (fun t => s.Counts t l R.PARI_ECC ∧ s.OnlyRegs [regKey l.ix R.PARI_ECC] t) ∧
    Completes (exec (.eccError l k true) s) (fun t => s.ResetTo t l .sys 0x40 k) := by
  have hx (double : Bool) : exec (.eccError l k double) s =
      if double then .next (s.laneReset l .sys 0x40 k) else .next (s.count l R.PARI_ECC) :=
    if_neg (by rw [hon, decide_eq_true ⟨h1, h7⟩]; decide)
  exact ⟨⟨_, hx false, count_counts h.regs l _, count_onlyRegs s l _⟩, ⟨_, hx true, laneReset_resetTo h l .sys (by decide) k⟩⟩

/-! ### Temperatures of the shared dies (Table 3.8) -/

theorem hyst_eq (was : Bool) (temp on off : Int) : hyst was temp on off = (decide (on ≤ temp) || (was && decide (off ≤ temp))) := by
  unfold hyst
  by_cases hon : on ≤ temp
  · rw [if_pos hon, decide_eq_true hon, Bool.true_or]
  rw [if_neg hon, decide_eq_false hon, Bool.false_or]
  by_cases hoff : temp < off
  · rw [if_pos hoff, decide_eq_false (not_le.mpr hoff), Bool.and_false]
  · rw [if_neg hoff, decide_eq_true (not_lt.mp hoff), Bool.and_true]

/-- The flags that a reading of a location gives. -/
def State.thermNext (s : State) (k : Nat) (temp : Int) : ThermRt :=
  let x := s.therm k
  ⟨hyst x.warn temp (deg 115) (deg 110), hyst x.crit temp (deg 125) (deg 110), x.off && !(x.off && decide (temp < deg 120))⟩

/-- The reading ends a shutdown. -/
def State.Cools (s : State) (k : Nat) (temp : Int) : Prop := (s.therm k).off = true ∧ temp < deg 120

theorem therm_setTherm {s : State} {k : Nat} (hk : k < s.mod_.therms.length) (x : ThermRt) : (s.setTherm k x).therm k = x := by
  unfold State.therm State.setTherm
  simp [hk]

theorem State.therm_congr {s t : State} (h : t.mod_ = s.mod_) (k : Nat) : t.therm k = s.therm k := by
  unfold State.therm
  rw [h]

theorem setTherm_inv {s : State} (h : s.Inv) (k : Nat) (x : ThermRt) : (s.setTherm k x).Inv := inv_withMod h _

theorem dieTemp_idle {s : State} {k : Nat} {temp : Int} (h : ¬ s.Cools k temp) : s.dieTemp k temp = s.setTherm k (s.thermNext k temp) := by
  have hc : ((s.therm k).off && decide (temp < deg 120)) = false := by
    rw [Bool.eq_false_iff]
    exact fun he => h (by simpa [State.Cools] using he)
  unfold State.dieTemp
  extract_lets x cool t
  rw [show cool = false from hc]
  exact if_neg (by simp)

theorem dieTemp_restarts {s : State} {k : Nat} {temp : Int} (h : s.Cools k temp) (hk : 1 ≤ k) (hon : s.mod_.poweredOn = true)
    (hsl : s.mod_.asleep = false) (hf : k = 3 → s.f1.up = true) :
    s.dieTemp k temp = (s.setTherm k (s.thermNext k temp)).dieFresh (thermDie (k + 2)) := by
  have hfi : (k != 3 || s.f1.up) = true := by
    by_cases h3 : k = 3
    · rw [hf h3, Bool.or_true]
    · rw [bne_iff_ne.mpr h3, Bool.true_or]
  refine if_pos ?_
  show ((s.therm k).off && decide (temp < deg 120) && decide (1 ≤ k) && s.mod_.poweredOn && !s.mod_.asleep && (k != 3 || s.f1.up)) = true
  rw [h.1, decide_eq_true h.2, decide_eq_true hk, hon, hsl, hfi]
  rfl

theorem dieTemp_therm {s : State} (h : s.Inv) {k : Nat} (hk : k < s.mod_.therms.length) (temp : Int) :
    (s.dieTemp k temp).therm k = s.thermNext k temp := by
  obtain ⟨u, hu⟩ : ∃ u, s.setTherm k (s.thermNext k temp) = u := ⟨_, rfl⟩
  have hui : u.Inv := hu ▸ setTherm_inv h k _
  have hf : (u.dieFresh (thermDie (k + 2))).therm k = u.therm k := by
    have kf : State.Kept ⟨0x1623f4501ff03fb08, u⟩ (u.dieFresh (thermDie (k + 2))) := State.dieFresh_kept (.refl _) (.refl hui)
    have ko : State.Only 0x1623f4501ff03fb08 u _ := kf.only
    exact State.therm_congr (ko.mod_.resolve_right (by decide)) k
  have ht : u.therm k = s.thermNext k temp := hu ▸ therm_setTherm hk _
  have hx : (s.dieTemp k temp) = u.dieFresh (thermDie (k + 2)) ∨ s.dieTemp k temp = u := by
    unfold State.dieTemp
    extract_lets x cool t
    rw [show t = u from hu]
    split
    · exact .inl rfl
    · exact .inr rfl
  rcases hx with hx | hx <;> rw [hx]
  · rw [hf, ht]
  · exact ht

theorem junctionThreshold_exec {loc : Nat} (h2 : 2 ≤ loc) (h5 : loc ≤ 5) (temp : Int) (s : State) :
    exec (.junctionThreshold loc temp) s = .next (s.dieTemp (loc - 2) temp) := by
  obtain rfl | rfl | rfl | rfl : loc = 2 ∨ loc = 3 ∨ loc = 4 ∨ loc = 5 := by omega
  all_goals rfl

theorem dieThreshold_completes {s : State} (h : s.Inv) {loc : Nat} (h2 : 2 ≤ loc) (h5 : loc ≤ 5) (hlen : s.mod_.therms.length = 4)
    (temp : Int) : Completes (exec (.junctionThreshold loc temp) s) (fun t =>
      let x := s.therm (loc - 2)
      let cool := x.off = true ∧ temp < 16 * 120
      (t.therm (loc - 2)).warn = (decide (16 * 115 ≤ temp) || (x.warn && decide (16 * 110 ≤ temp))) ∧
      (t.therm (loc - 2)).crit = (decide (16 * 125 ≤ temp) || (x.crit && decide (16 * 110 ≤ temp))) ∧
      (t.therm (loc - 2)).off = (x.off && !decide (temp < 16 * 120)) ∧
      (cool → 3 ≤ loc → s.mod_.poweredOn = true → s.mod_.asleep = false → (loc = 5 → s.f1.up = true) →
        (t.die (thermDie loc)).up = true) ∧
      (¬ cool → t = { s with mod_ := t.mod_ })) := by
  refine ⟨_, junctionThreshold_exec h2 h5 temp s, ?_, ?_, ?_, fun hcool h3 hon hsl hf => ?_, fun hcool => ?_⟩
  · rw [dieTemp_therm h (by omega)]
    exact hyst_eq ..
  · rw [dieTemp_therm h (by omega)]
    exact hyst_eq ..
  · rw [dieTemp_therm h (by omega)]
    show (_ && !(_ && decide (temp < deg 120))) = _
    cases (s.therm (loc - 2)).off <;> rfl
  · rw [dieTemp_restarts hcool (by omega) hon hsl fun hk => hf (by omega), Nat.sub_add_cancel h2]
    exact (dieFresh_taken (setTherm_inv h _ _) _).up
  · rw [dieTemp_idle hcool]
    rfl

/-! ### Shutdown at 140 °C of the shared dies -/

theorem dieDown_taken {s : State} (h : s.Inv) (d : Die) : s.DieTaken (s.dieDown d) d false := by
  unfold State.dieDown
  extract_lets t
  have ht := dieLose_taken h d
  split
  · exact loseFi_taken ht
  · exact ht

theorem dieDown_mod {s : State} (h : s.Inv) (d : Die) : (s.dieDown d).mod_ = s.mod_ :=
  have k : State.Kept ⟨0x1623f4501ff03fb08, s⟩ (s.dieDown d) := State.dieDown_kept (.refl _) (.refl h)
  have ko : State.Only 0x1623f4501ff03fb08 s (s.dieDown d) := k.only
  ko.mod_.resolve_right (by decide)

theorem dieTemp_inv {s : State} (h : s.Inv) (k : Nat) (temp : Int) : (s.dieTemp k temp).Inv :=
  (State.dieTemp_kept (φ := ⟨0x1623f4501ff83fb08, s⟩) (.refl _) (.refl h)).inv

theorem not_cools_of_hot {s : State} {k : Nat} {temp : Int} (h : 16 * 140 ≤ temp) : ¬ s.Cools k temp := by
  rintro ⟨-, hc⟩
  unfold deg at hc
  omega

theorem thermalShutdown_cool {temp : Int} (h : temp < 16 * 140) (loc : Nat) (s : State) : exec (.thermalShutdown loc temp) s = .next s :=
  if_pos h

theorem thermalShutdown_commons {s : State} (h : s.Inv) {temp : Int} (ht : 16 * 140 ≤ temp) :
    Completes (exec (.thermalShutdown 2 temp) s) (fun t => t.mod_.cmnSafe = true ∧
      t.shBit R.CVC_SEL_STATUS F.CVC_SEL_STATUS_CMN_SAFE = true ∧ t.pwmRecs = [] ∧ t.cmnRecs = []) := by
  obtain ⟨hsafe, -, hbit, hp, hc, -⟩ := enterCmnSafe_safe (dieTemp_inv h 0 temp).regs
  exact ⟨_, if_neg (not_lt.mpr ht), hsafe, hbit, hp, hc⟩

/-- The location is marked off, and its die goes down. -/
def State.fieldOff (s : State) (loc : Nat) (temp : Int) : State :=
  let u := s.dieTemp (loc - 2) temp
  (u.setTherm (loc - 2) { u.therm (loc - 2) with off := true }).dieDown (thermDie loc)

theorem thermalShutdown_field_exec {loc : Nat} (h3 : 3 ≤ loc) (h5 : loc ≤ 5) {temp : Int} (ht : 16 * 140 ≤ temp) (s : State) :
    exec (.thermalShutdown loc temp) s = .next (if loc = 4 then (s.fieldOff loc temp).dieDown .FI else s.fieldOff loc temp) := by
  obtain rfl | rfl | rfl : loc = 3 ∨ loc = 4 ∨ loc = 5 := by omega
  all_goals exact if_neg (not_lt.mpr ht)

theorem fieldOff_off {s : State} (h : s.Inv) {loc : Nat} (h3 : 3 ≤ loc) (h5 : loc ≤ 5) (hlen : s.mod_.therms.length = 4) {temp : Int}
    (ht : 16 * 140 ≤ temp) : (s.fieldOff loc temp).Inv ∧ ((s.fieldOff loc temp).therm (loc - 2)).off = true ∧
      ((s.fieldOff loc temp).die (thermDie loc)).up = false := by
  unfold State.fieldOff
  extract_lets u
  have hlt : loc - 2 < u.mod_.therms.length := by
    rw [show u = _ from dieTemp_idle (not_cools_of_hot ht)]
    show loc - 2 < (s.mod_.therms.set _ _).length
    rw [List.length_set]
    omega
  have hi := setTherm_inv (dieTemp_inv h (loc - 2) temp) (loc - 2) { u.therm (loc - 2) with off := true }
  have hd := dieDown_taken hi (thermDie loc)
  refine ⟨hd.inv, ?_, hd.up⟩
  rw [State.therm_congr (dieDown_mod hi _), therm_setTherm hlt]

theorem thermalShutdown_field {s : State} (h : s.Inv) {loc : Nat} (h3 : 3 ≤ loc) (h5 : loc ≤ 5) (hlen : s.mod_.therms.length = 4)
    {temp : Int} (ht : 16 * 140 ≤ temp) : Completes (exec (.thermalShutdown loc temp) s) (fun t =>
      (t.therm (loc - 2)).off = true ∧ (t.die (thermDie loc)).up = false ∧ (loc = 4 → t.fi.up = false)) := by
  obtain ⟨hi, hoff, hup⟩ := fieldOff_off h h3 h5 hlen ht
  refine ⟨_, thermalShutdown_field_exec h3 h5 ht s, ?_⟩
  split
  next h4 =>
    have hd := dieDown_taken hi .FI
    subst h4
    exact ⟨by rw [State.therm_congr (dieDown_mod hi _), hoff], by rw [hd.other _ (by decide), hup], fun _ => hd.up⟩
  next h4 => exact ⟨hoff, hup, fun hc => absurd hc h4⟩

/-! ### Temperatures of the Isles (Table 3.8) -/

/-- The reading and its warning. -/
def State.noteTemp (s : State) (l : Lane) (temp : Int) : State :=
  s.setLane l { s.lane l with junction := uext 16 (satS 16 temp), thermWarn := hyst (s.lane l).thermWarn temp (deg 115) (deg 110) }

theorem isleTemp_eq (s : State) (l : Lane) (temp : Int) :
    s.isleTemp l temp = (((s.noteTemp l temp).isleReduced l temp).isleCritical l temp).isleCool l temp := rfl

section
variable {s : State} {l : Lane} {temp : Int}

/-- The reduced clock writes the status of CD1. -/
theorem isleReduced_leaves {P : Nat → Bool} (hk : P (regKey l.ix (R.CLKC_DOM_STAT 1)) = false) : s.Leaves P (s.isleReduced l temp) := by
  unfold State.isleReduced
  extract_lets was now_ t
  have ht : s.Leaves P t := .setReg s _ hk
  split
  · exact .refl P s
  split
  · exact ht
  · exact ht.trans (.setReg t _ hk)

theorem setReg_alone (s : State) (l : Lane) (a : Nat) (v : Word) : s.RegsAlone (s.setReg l a v) := rfl

theorem State.RegsAlone.trans {s t u : State} (h : s.RegsAlone t) (k : t.RegsAlone u) : s.RegsAlone u := by
  unfold State.RegsAlone at *
  rw [k, h]

theorem isleReduced_alone : s.RegsAlone (s.isleReduced l temp) := by
  unfold State.isleReduced
  extract_lets was now_ t
  have ht : s.RegsAlone t := setReg_alone ..
  split
  · rfl
  split
  · exact ht
  · exact ht.trans (setReg_alone ..)

theorem State.RegsAlone.lane {s t : State} (h : s.RegsAlone t) (k : Lane) : t.lane k = s.lane k := by
  unfold State.RegsAlone at h
  rw [h]
  cases k <;> rfl

theorem State.RegsAlone.ferry {s t : State} (h : s.RegsAlone t) : t.ferry = s.ferry := by
  unfold State.RegsAlone at h
  rw [h]

theorem State.RegsAlone.setLane {s t : State} (h : s.RegsAlone t) (l : Lane) (x : LaneRt) :
    (s.setLane l x).RegsAlone (t.setLane l x) := by
  unfold State.RegsAlone at *
  rw [h]
  cases l <;> rfl

theorem isleReduced_domBit (w : rfWf s.regs = true) :
    (s.isleReduced l temp).domBit l 1 F.CLKC_DOM_STAT_REDUCED = hyst (s.domBit l 1 F.CLKC_DOM_STAT_REDUCED) temp (deg 120) (deg 112) := by
  have hf : Fld.ok F.CLKC_DOM_STAT_REDUCED ∧ Fld.ok F.CLKC_DOM_STAT_COUNT := by unfold Fld.ok; decide
  unfold State.isleReduced
  extract_lets was now_ t
  have ht : t.domBit l 1 F.CLKC_DOM_STAT_REDUCED = now_ := State.bit_setBitF_self w l _ _ _ hf.1 rfl
  split
  next he =>
    have h : now_ = was := eq_of_beq he
    exact h.symm
  split
  · exact ht
  · have hw : rfWf t.regs = true := State.setBitF_wf w
    refine Eq.trans ?_ ht
    unfold State.domBit State.bit
    rw [State.fld_setFld_apart hw _ _ _ _ hf.2 hf.1 (by unfold Fld.apart; decide)]

theorem isleReduced_lst (k : Lane) : (s.isleReduced l temp).lst k = s.lst k := by
  have hreg : (s.isleReduced l temp).reg k R.FERRY_LANE = s.reg k R.FERRY_LANE :=
    (isleReduced_leaves (P := fun j => j == regKey k.ix R.FERRY_LANE)
      (beq_false_of_ne (regKey_ne (by decide) (by decide) (by decide)))).reg (beq_self_eq_true _)
  unfold State.lst State.fld
  rw [hreg]

/-! #### The critical temperature (R96) -/

theorem isleCritical_withdraws (ht : 16 * 125 ≤ temp) (ha : s.lst l = stACTIVE) (ho : s.lst l.other = stSTANDBY) :
    s.isleCritical l temp = { s.setLane l { s.lane l with withdrawing := true } with
      ferry := { s.ferry with handover := some .withdraw } } := by
  unfold State.isleCritical
  dsimp only
  rw [if_pos (show deg 125 ≤ temp from ht), if_pos ⟨ho, ha⟩]
  cases l <;> rfl

theorem isleCritical_goesOn (ht : 16 * 125 ≤ temp) (hw : s.lst l ≠ stWITHDRAWN)
    (hn : ¬ (s.lst l = stACTIVE ∧ s.lst l.other = stSTANDBY)) :
    s.isleCritical l temp = s.setLane l { s.lane l with thermCrit := true } := by
  unfold State.isleCritical
  dsimp only
  rw [if_pos (show deg 125 ≤ temp from ht), if_neg (fun h => hn ⟨h.2, h.1⟩), if_neg hw]

theorem isleCritical_withdrawn (ht : 16 * 125 ≤ temp) (hw : s.lst l = stWITHDRAWN) : s.isleCritical l temp = s := by
  unfold State.isleCritical
  dsimp only
  rw [if_pos (show deg 125 ≤ temp from ht), if_neg (fun h => by rw [hw] at h; exact absurd h.2 (by decide)), if_pos hw]

/-- The critical flags are gone. -/
def State.uncritical (s : State) (l : Lane) : State := s.setLane l { s.lane l with thermCrit := false, withdrawing := false }

theorem isleCritical_below (ht : temp < 16 * 110) : s.isleCritical l temp =
    if (s.uncritical l).lst l = stWITHDRAWN then (s.uncritical l).setLst l stUNSYNC else s.uncritical l := by
  have h1 : ¬ deg 125 ≤ temp := by unfold deg; omega
  unfold State.isleCritical
  dsimp only
  rw [if_neg h1, if_pos (show temp < deg 110 from ht)]
  rfl

theorem isleCritical_between (h1 : 16 * 110 ≤ temp) (h2 : temp < 16 * 125) : s.isleCritical l temp = s := by
  unfold State.isleCritical
  dsimp only
  rw [if_neg (not_le.mpr (show temp < deg 125 from h2)), if_neg (not_lt.mpr (show deg 110 ≤ temp from h1))]

theorem lst_setLane (s : State) (l k : Lane) (x : LaneRt) : (s.setLane l x).lst k = s.lst k := by cases l <;> rfl

/-- The lane's record changes in its critical flags and its SAFE ball, and the registers as a change of the lane's state has it. -/
theorem isleCritical_keeps (w : rfWf s.regs = true) : RegOnly lstFlds s (s.isleCritical l temp) ∧
    ∃ crit wd ball, (s.isleCritical l temp).lane l = { s.lane l with thermCrit := crit, withdrawing := wd, safeBall := ball } := by
  have hset (x : LaneRt) : RegOnly lstFlds s (s.setLane l x) := .of (State.regs_setLane ..) w
  unfold State.isleCritical
  extract_lets x u
  split
  · split
    · exact ⟨(hset _).next fun w => .of rfl w, _, _, _, State.lane_setLane ..⟩
    split
    · exact ⟨.refl w, _, _, _, rfl⟩
    · exact ⟨hset _, _, _, _, State.lane_setLane ..⟩
  split
  · have hu : u.lane l = { s.lane l with thermCrit := false, withdrawing := false } := State.lane_setLane ..
    split
    · have hl : RegOnly lstFlds s (u.setLst l stUNSYNC) := (hset _).next fun w => RegOnly.setLst w l _
      exact ⟨hl, false, false, (u.setLst l stUNSYNC).ball l, by rw [State.setLst_lane, hu]⟩
    · exact ⟨hset _, _, _, _, hu⟩
  · exact ⟨.refl w, _, _, _, rfl⟩

theorem isleCool_idle (h : (s.lane l).thermOff = false) : s.isleCool l temp = s := by
  unfold State.isleCool
  dsimp only
  rw [h, Bool.false_and]
  exact if_neg (by decide)

/-! #### The whole response -/

theorem noteTemp_lane : (s.noteTemp l temp).lane l = { s.lane l with
    junction := uext 16 (satS 16 temp), thermWarn := hyst (s.lane l).thermWarn temp (deg 115) (deg 110) } := State.lane_setLane ..

theorem noteTemp_inv (h : s.Inv) : (s.noteTemp l temp).Inv := setLane_inv h l _

/-- The reading with its warning and the clock, before the critical temperature is judged. -/
def State.warmed (s : State) (l : Lane) (temp : Int) : State := (s.noteTemp l temp).isleReduced l temp

theorem warmed_lane : (s.warmed l temp).lane l = { s.lane l with
    junction := uext 16 (satS 16 temp), thermWarn := hyst (s.lane l).thermWarn temp (deg 115) (deg 110) } :=
  (isleReduced_alone.lane l).trans noteTemp_lane

theorem warmed_inv (h : s.Inv) : (s.warmed l temp).Inv :=
  (State.isleReduced_kept (φ := ⟨0x8, _⟩) (.refl _) (.refl (noteTemp_inv h))).inv

theorem warmed_lst (k : Lane) : (s.warmed l temp).lst k = s.lst k := (isleReduced_lst k).trans (lst_setLane ..)

theorem warmed_ferry : (s.warmed l temp).ferry = s.ferry :=
  isleReduced_alone.ferry.trans (by cases l <;> rfl)

theorem warmed_leaves {P : Nat → Bool} (hk : P (regKey l.ix (R.CLKC_DOM_STAT 1)) = false) : s.Leaves P (s.warmed l temp) :=
  (State.Leaves.of_regs (State.regs_setLane ..)).trans (isleReduced_leaves hk)

theorem warmed_domBit (h : s.Inv) : (s.warmed l temp).domBit l 1 F.CLKC_DOM_STAT_REDUCED =
    hyst (s.domBit l 1 F.CLKC_DOM_STAT_REDUCED) temp (deg 120) (deg 112) := by
  refine (isleReduced_domBit (noteTemp_inv h).regs).trans ?_
  have hr : (s.noteTemp l temp).domBit l 1 F.CLKC_DOM_STAT_REDUCED = s.domBit l 1 F.CLKC_DOM_STAT_REDUCED := by
    unfold State.domBit State.bit State.fld State.reg
    rw [show (s.noteTemp l temp).regs = s.regs from State.regs_setLane ..]
  rw [hr]

/-- With the lane's record put back, only the register of the clock has changed. -/
theorem warmed_onlyRegs : s.OnlyRegs [regKey l.ix (R.CLKC_DOM_STAT 1)] ((s.warmed l temp).setLane l (s.lane l)) := by
  refine ⟨fun k hk => ?_, ?_⟩
  · have hP : (fun j => j == k) (regKey l.ix (R.CLKC_DOM_STAT 1)) = false :=
      beq_false_of_ne fun he => hk (he ▸ List.mem_cons_self)
    rw [State.regs_setLane]
    exact (warmed_leaves (P := fun j => j == k) hP).get (beq_self_eq_true k)
  · have hback : (s.noteTemp l temp).setLane l (s.lane l) = s := by cases l <;> rfl
    have h := isleReduced_alone.setLane (s := s.noteTemp l temp) (t := s.warmed l temp) l (s.lane l)
    rwa [hback] at h

theorem isleTemp_of_on (h : s.Inv) (hoff : (s.lane l).thermOff = false) : s.isleTemp l temp = (s.warmed l temp).isleCritical l temp := by
  obtain ⟨-, c, wd, b, hl⟩ := isleCritical_keeps (l := l) (temp := temp) (warmed_inv (l := l) (temp := temp) h).regs
  rw [isleTemp_eq]
  refine isleCool_idle ?_
  show (((s.warmed l temp).isleCritical l temp).lane l).thermOff = false
  rw [hl, warmed_lane]
  exact hoff

theorem isleThreshold_exec (l : Lane) (temp : Int) (s : State) : exec (.junctionThreshold l.ix temp) s = .next (s.isleTemp l temp) := by
  cases l <;> rfl

/-- Below the critical temperature's lower bound a withdrawn lane returns. -/
theorem isleCritical_below_takes (w : rfWf s.regs = true) (ht : temp < 16 * 110) :
    ((s.isleCritical l temp).lane l).thermCrit = false ∧ ((s.isleCritical l temp).lane l).withdrawing = false ∧
    (s.isleCritical l temp).lst l = (if s.lst l = stWITHDRAWN then stUNSYNC else s.lst l) := by
  have hu : (s.uncritical l).lane l = { s.lane l with thermCrit := false, withdrawing := false } := State.lane_setLane ..
  have hlst : (s.uncritical l).lst l = s.lst l := lst_setLane ..
  have hw : rfWf (s.uncritical l).regs = true := (State.regs_setLane ..).symm ▸ w
  rw [isleCritical_below ht, hlst]
  split
  · rw [State.setLst_lane, hu, lst_setLst hw]
    exact ⟨rfl, rfl, rfl⟩
  · rw [hu, hlst]
    exact ⟨rfl, rfl, rfl⟩

theorem isleThreshold_completes (h : s.Inv) (hoff : (s.lane l).thermOff = false) :
    Completes (exec (.junctionThreshold l.ix temp) s) (fun t =>
      let x := s.lane l
      (t.lane l).junction = uext 16 (satS 16 temp) ∧
      (t.lane l).thermWarn = (decide (16 * 115 ≤ temp) || (x.thermWarn && decide (16 * 110 ≤ temp))) ∧
      t.domBit l 1 F.CLKC_DOM_STAT_REDUCED =
        (decide (16 * 120 ≤ temp) || (s.domBit l 1 F.CLKC_DOM_STAT_REDUCED && decide (16 * 112 ≤ temp))) ∧
      (16 * 125 ≤ temp → s.lst l = stACTIVE → s.lst l.other = stSTANDBY →
        (t.lane l).withdrawing = true ∧ t.ferry = { s.ferry with handover := some .withdraw }) ∧
      (16 * 125 ≤ temp → s.lst l ≠ stWITHDRAWN → ¬ (s.lst l = stACTIVE ∧ s.lst l.other = stSTANDBY) →
        (t.lane l).thermCrit = true ∧ t.ferry = s.ferry) ∧
      (temp < 16 * 110 → (t.lane l).thermCrit = false ∧ (t.lane l).withdrawing = false ∧
        t.lst l = (if s.lst l = stWITHDRAWN then stUNSYNC else s.lst l)) ∧
      (16 * 110 ≤ temp → temp < 16 * 125 →
        t.lane l = { x with junction := (t.lane l).junction, thermWarn := (t.lane l).thermWarn } ∧
        s.OnlyRegs [regKey l.ix (R.CLKC_DOM_STAT 1)] (t.setLane l x))) := by
  obtain ⟨u, hu⟩ : ∃ u, s.warmed l temp = u := ⟨_, rfl⟩
  have hui : u.Inv := hu ▸ warmed_inv h
  have hlane : u.lane l = _ := hu ▸ warmed_lane
  have hlst (k : Lane) : u.lst k = s.lst k := hu ▸ warmed_lst k
  have hferry : u.ferry = s.ferry := hu ▸ warmed_ferry
  obtain ⟨hregs, crit, wd, ball, hcl⟩ := isleCritical_keeps (l := l) (temp := temp) hui.regs
  refine ⟨u.isleCritical l temp, ?_, ?_, ?_, ?_, fun ht ha ho => ?_, fun ht hw hn => ?_, fun ht => ?_, fun h1 h2 => ?_⟩
  · rw [isleThreshold_exec, isleTemp_of_on h hoff, hu]
  · rw [hcl, hlane]
  · rw [hcl, hlane]
    exact hyst_eq ..
  · have hb : (u.isleCritical l temp).domBit l 1 F.CLKC_DOM_STAT_REDUCED = u.domBit l 1 F.CLKC_DOM_STAT_REDUCED :=
      hregs.bit l (by decide) (by unfold Fld.ok; decide) fun f hf => by
        rcases hf with hf | ⟨hf, -⟩ <;> exact absurd hf (by decide)
    rw [hb, ← hu, warmed_domBit h]
    exact hyst_eq ..
  · rw [isleCritical_withdraws ht ((hlst l).trans ha) ((hlst _).trans ho), hferry]
    exact ⟨congrArg LaneRt.withdrawing (State.lane_setLane u l _), rfl⟩
  · rw [isleCritical_goesOn ht (by rwa [hlst]) (by rwa [hlst, hlst]), State.lane_setLane]
    refine ⟨rfl, Eq.trans ?_ hferry⟩
    cases l <;> rfl
  · rw [← hlst l]
    exact isleCritical_below_takes hui.regs ht
  · rw [isleCritical_between h1 h2]
    refine ⟨by rw [hlane], ?_⟩
    rw [← hu]
    exact warmed_onlyRegs

/-! #### Shutdown of a lane -/

/-- The responses to a reading leave what a reset measures itself by. -/
theorem isleTemp_eve (h : s.Inv) (hoff : (s.lane l).thermOff = false) (ht : 16 * 125 ≤ temp) (cause : Nat) :
    s.Eve (s.isleTemp l temp) l cause := by
  obtain ⟨-, crit, wd, ball, hcl⟩ := isleCritical_keeps (l := l) (temp := temp) (warmed_inv (l := l) (temp := temp) h).regs
  have k : State.Kept ⟨0x9c0008, s⟩ (s.isleTemp l temp) := State.isleTemp_kept (.refl _) (.refl h)
  have ko : State.Only 0x9c0008 s (s.isleTemp l temp) := k.only
  have hon := isleTemp_of_on (temp := temp) h hoff
  have hregs : (s.isleTemp l temp).regs = (s.warmed l temp).regs := by
    rw [hon]
    by_cases hw : (s.warmed l temp).lst l = stWITHDRAWN
    · rw [isleCritical_withdrawn ht hw]
    by_cases hn : (s.warmed l temp).lst l = stACTIVE ∧ (s.warmed l temp).lst l.other = stSTANDBY
    · rw [isleCritical_withdraws ht hn.1 hn.2]
      exact State.regs_setLane ..
    · rw [isleCritical_goesOn ht hw hn]
      exact State.regs_setLane ..
  have hleaves {P : Nat → Bool} (hk : P (regKey l.ix (R.CLKC_DOM_STAT 1)) = false) : s.Leaves P (s.isleTemp l temp) :=
    (warmed_leaves hk).trans (.of_regs hregs)
  have hreg {a : Nat} (ha : a < 2 ^ 32) (hne : R.CLKC_DOM_STAT 1 ≠ a) : (s.isleTemp l temp).reg l a = s.reg l a :=
    (hleaves (P := fun k => k == regKey l.ix a) (beq_false_of_ne (regKey_ne (by decide) ha hne))).reg (by simp)
  have hrow := causeRow_le cause
  refine ⟨hreg ?_ ?_, hreg (by decide) (by decide), hleaves (P := fun k => k / homeSpan == 2) ?_,
    ko.outs.resolve_right (by decide), ko.feeds.resolve_right (by decide), ko.fcs.resolve_right (by decide), ?_⟩
  · unfold R.PARI_RST
    omega
  · unfold R.PARI_RST R.CLKC_DOM_STAT
    omega
  · cases l <;> decide
  · rw [hon, hcl, warmed_lane]

/-- What a reset does does not hang on the mark of a thermal shutdown. -/
theorem State.ResetTo.markOff {t : State} {lvl : RLevel} {cause detail : Nat} (h : s.ResetTo t l lvl cause detail) :
    s.ResetTo (t.setLane l { t.lane l with thermOff := true }) l lvl cause detail := by
  cases l <;> exact h

theorem thermalShutdown_isle (h : s.Inv) (ht : 16 * 140 ≤ temp) (hp : (s.lane l).powered = true) (hoff : (s.lane l).thermOff = false) :
    Completes (exec (.thermalShutdown l.ix temp) s) (fun t => (t.lane l).thermOff = true ∧ s.ResetTo t l .por 0x80 0) := by
  obtain ⟨u, hu⟩ : ∃ u, s.isleTemp l temp = u := ⟨_, rfl⟩
  have hui : u.Inv := hu ▸ (State.isleTemp_kept (φ := ⟨0x9c0008, s⟩) (.refl _) (.refl h)).inv
  have he : s.Eve u l 0x80 := hu ▸ isleTemp_eve h hoff (by omega) 0x80
  obtain ⟨t, hr⟩ : ∃ t, u.laneReset l .por 0x80 0 = t := ⟨_, rfl⟩
  have hreset : s.ResetTo t l .por 0x80 0 := he.resetTo (by decide) (hr ▸ laneReset_resetTo hui l .por (by decide) 0)
  have hx : exec (.thermalShutdown l.ix temp) s = .next (t.setLane l { t.lane l with thermOff := true }) := by
    have hs : s.isleShutdown l temp = t.setLane l { t.lane l with thermOff := true } := by
      rw [← hr, ← hu]
      exact if_pos hp
    rw [← hs]
    cases l <;> exact if_neg (not_lt.mpr ht)
  exact ⟨_, hx, congrArg LaneRt.thermOff (State.lane_setLane ..), hreset.markOff⟩

end

end Sys2Proof.Machine

open Sys2Proof Sys2Proof.Machine in
/-- Settles O38: the Isles' responses to a reading by the three operations that make them up, those of the other dies by what a
die's start or fall does; every reset by `laneReset_resetTo`, where RESET_N needs also that a reset of one lane stands through a
reset of the other (`State.ResetTo.spared`). -/
theorem thermalAndErrors : Obligations.ThermalAndErrors := by
  unfold Obligations.ThermalAndErrors
  intro flag
  exact ⟨fun s l temp h hoff => isleThreshold_completes h hoff,
    fun s loc temp h h2 h5 hlen => dieThreshold_completes h h2 h5 hlen temp,
    fun s l temp h ht hp hoff => thermalShutdown_isle h ht hp hoff, fun s temp h ht => thermalShutdown_commons h ht,
    fun s loc temp h ht h3 h5 hlen => thermalShutdown_field h h3 h5 hlen ht, fun s loc temp ht => thermalShutdown_cool ht loc s,
    fun s l k h hp h1 h7 => eccError_completes h hp h1 h7, fun s h hn hon hsl => resetNAssert_completes h hn hon hsl,
    fun s => rfl, fun s l p ps h hon hp _ => signedReset_completes h hon hp, fun s l hp => signedReset_idle hp⟩

namespace Sys2Proof.Machine

/-! ### One output of a power die (R231, Tables 8.4 and 9.3) -/

theorem sharedReg_power {a : Nat} (hs : slotOf a = 6 ∨ slotOf a = 7) (h : a % 0x80000 < 0x4000) : sharedReg a = true := by
  unfold sharedReg
  dsimp only
  rcases hs with hs | hs <;> rw [hs] <;> exact decide_eq_true (by omega)

theorem regKey_shared {a : Nat} (h : sharedReg a = true) (l : Nat) : regKey l a = dieKey a := by
  unfold regKey dieKey
  rw [h, if_pos rfl]

theorem regKey_oState {d x : Nat} (hd : d < 2) (hx : x < 32) (l : Nat) : regKey l (oState d x) = dieKey (oState d x) := by
  refine regKey_shared ?_ l
  unfold oState isGd
  split
  · next h =>
    have := of_decide_eq_true h
    exact sharedReg_power (.inr (by unfold slotOf R.GDR_STATE; omega)) (by unfold R.GDR_STATE; omega)
  · exact sharedReg_power (.inl (by unfold slotOf R.PCH_STATE; omega)) (by unfold R.PCH_STATE; omega)

/-- What an output is to do: its target, a switch that waits, and whether it takes the FALLBACK duty. -/
def OutRt.wants (o : OutRt) : Nat × Option Nat × Bool := (o.target, o.sched, o.fallback)

/-- The state is well formed as to its registers and its power outputs, and `x` is an output of power die `d`. -/
structure State.HasOut (s : State) (d x : Nat) : Prop where
  wf : rfWf s.regs = true
  len : s.outs.length = 64
  die : d < 2
  ix : x < 32

/-- Of the outputs, an operation has touched one: its status register, LD_DEFER of its feed, and its run state. -/
structure State.AtOut (s t : State) (d x : Nat) : Prop where
  regs : s.RegsBut [dieKey (oState d x), dieKey (R.SUPC_FEED_STAT (feedOf d x))] t
  feed : ∀ g, Fld.ok g → Fld.apart F.SUPC_FEED_STAT_LD_DEFER g →
    t.dieFld (R.SUPC_FEED_STAT (feedOf d x)) g = s.dieFld (R.SUPC_FEED_STAT (feedOf d x)) g
  outs : ∀ i, i ≠ 32 * d + x → t.outs[i]? = s.outs[i]?
  wf : rfWf t.regs = true
  len : t.outs.length = s.outs.length

/-- Beside that, the output's flags are as they were, and what it is to do. -/
structure State.Acts (s t : State) (d x : Nat) : Prop extends State.AtOut s t d x where
  flags : ∀ f, t.oFlag d x f = s.oFlag d x f
  wants : (t.out d x).wants = (s.out d x).wants

section
variable {s t u : State} {d x : Nat}

theorem State.AtOut.trans (h : s.AtOut t d x) (k : t.AtOut u d x) : s.AtOut u d x where
  regs a ha := (k.regs a ha).trans (h.regs a ha)
  feed g hg hn := (k.feed g hg hn).trans (h.feed g hg hn)
  outs i hi := (k.outs i hi).trans (h.outs i hi)
  wf := k.wf
  len := k.len.trans h.len

theorem State.AtOut.hasOut (h : s.AtOut t d x) (hs : s.HasOut d x) : t.HasOut d x := ⟨h.wf, h.len.trans hs.len, hs.die, hs.ix⟩

theorem State.Acts.refl (hs : s.HasOut d x) : s.Acts s d x :=
  ⟨⟨fun _ _ => rfl, fun _ _ _ => rfl, fun _ _ => rfl, hs.wf, rfl⟩, fun _ => rfl, rfl⟩

theorem State.Acts.trans (h : s.Acts t d x) (k : t.Acts u d x) : s.Acts u d x :=
  ⟨h.toAtOut.trans k.toAtOut, fun f => (k.flags f).trans (h.flags f), k.wants.trans h.wants⟩

/-- A further step, from a state that has the output too. -/
theorem State.Acts.next (h : s.Acts t d x) (hs : s.HasOut d x) (k : t.HasOut d x → t.Acts u d x) : s.Acts u d x :=
  h.trans (k (h.toAtOut.hasOut hs))

variable (hs : s.HasOut d x)
include hs

theorem setOut_atOut (o : OutRt) : s.AtOut (s.setOut d x o) d x :=
  ⟨fun _ _ => rfl, fun _ _ _ => rfl, fun _ hi => List.getElem?_set_ne (Ne.symm hi), hs.wf, State.outs_setOut ..⟩

theorem out_setOut (o : OutRt) : (s.setOut d x o).out d x = o := State.out_setOut hs.len hs.die hs.ix o

theorem modOut_acts {g : OutRt → OutRt} (hg : ∀ o, (g o).wants = o.wants) : s.Acts (s.modOut d x g) d x :=
  ⟨setOut_atOut hs _, fun f => State.oFlag_of (State.regs_modOut ..) d x f, (congrArg OutRt.wants (out_setOut hs _)).trans (hg _)⟩

omit hs in
theorem setShFld_outs (s : State) (a : Nat) (g : Fld) (v : Nat) : (s.setShFld a g v).outs = s.outs :=
  (State.setFld_served s .E a g v).outs

theorem setShFld_atOut (g : Fld) (v : Nat) : s.AtOut (s.setShFld (oState d x) g v) d x := by
  obtain ⟨h1, h2⟩ := oState_range hs.die hs.ix
  have hf := feedStat_range (feedOf_le hs.die (x := x))
  refine ⟨fun k hk => rfGet_rfPut_ne _ _ _ _ fun e => ?_, fun k _ _ => ?_, fun i _ => ?_, State.setShFld_wf hs.wf, ?_⟩
  · have hr : regKey 0 (oState d x) = k := e
    rw [regKey_oState hs.die hs.ix] at hr
    simp [← hr] at hk
  · exact State.dieFld_setShFld _ _ _ (by omega) (by omega) (by omega)
  · rw [setShFld_outs]
  · rw [setShFld_outs]

theorem setLow_acts {g : Fld} (h8 : g.hi < 8) (hg : g.lo ≤ g.hi) (v : Nat) : s.Acts (s.setShFld (oState d x) g v) d x := by
  refine ⟨setShFld_atOut hs g v, fun f => State.oFlag_setLow hs.wf d x f v h8 hg, ?_⟩
  unfold State.out
  rw [setShFld_outs]

theorem setOSt_acts (v : Nat) : s.Acts (s.setOSt d x v) d x := setLow_acts hs (by decide) (by decide) v

theorem reload_acts : s.Acts (s.reload d x) d x := setLow_acts hs (by decide) (by decide) _

theorem syncLdDefer_acts : s.Acts (s.syncLdDefer (feedOf d x)) d x := by
  have h6 := feedOf_le hs.die (x := x)
  refine ⟨⟨fun k hk => rfGet_rfPut_ne _ _ _ _ fun e => ?_, fun g hg hn => ?_, fun i _ => ?_, State.syncLdDefer_wf hs.wf, ?_⟩,
    fun f => State.oFlag_syncLdDefer f hs.die hs.ix h6, ?_⟩
  · simp [← e] at hk
  · exact State.dieFld_setDieFld_apart hs.wf _ _ (by unfold Fld.ok; decide) hg hn
  · rw [State.syncLdDefer_outs]
  · rw [State.syncLdDefer_outs]
  · unfold State.out
    rw [State.syncLdDefer_outs]

theorem turnOff_acts (st : Nat) : s.Acts (s.turnOff d x st) d x := by
  unfold State.turnOff
  exact (setOSt_acts hs st).next hs fun h => modOut_acts h fun _ => rfl

theorem tallyBoth_acts {f : Tally → Tally} : s.Acts (s.tallyBoth d x f) d x := by
  unfold State.tallyBoth
  exact modOut_acts hs fun _ => rfl

theorem conduct_acts : s.Acts (s.conduct d x) d x := by
  unfold State.conduct
  extract_lets st u v
  have hu : s.Acts u d x := setOSt_acts hs st
  have hv : u.Acts v d x := modOut_acts (hu.toAtOut.hasOut hs) fun _ => rfl
  exact (hu.trans hv).next hs fun h => tallyBoth_acts h

theorem tryOn_acts : s.Acts (s.tryOn d x) d x := by
  unfold State.tryOn
  split
  · split
    · exact setOSt_acts hs _
    · exact conduct_acts hs
  · exact .refl hs

theorem commandOff_acts (urgent : Bool) : s.Acts (s.commandOff d x urgent) d x := by
  unfold State.commandOff
  extract_lets f
  split
  · have hm : s.Acts (s.modOut d x (fun o => { o with ldDefer := true })) d x := modOut_acts hs fun _ => rfl
    exact hm.next hs fun h => syncLdDefer_acts h
  · exact (turnOff_acts hs _).next hs fun h => syncLdDefer_acts h

/-- A turn-off that the feed does not defer (R277) leaves the output off. -/
theorem commandOff_off {urgent : Bool} (hf : s.feedBit (feedOf d x) F.SUPC_FEED_STAT_FEED_HIGH = false) :
    (s.commandOff d x urgent).oSt d x = oOFF ∧ ((s.commandOff d x urgent).out d x).gate = .off := by
  have hc : s.commandOff d x urgent = (s.turnOff d x oOFF).syncLdDefer (feedOf d x) := by
    unfold State.commandOff
    dsimp only
    rw [hf, Bool.and_false, Bool.false_and, Bool.false_and, if_neg (by decide)]
  rw [hc, State.oSt_syncLdDefer hs.die hs.ix (feedOf_le hs.die), State.oSt_turnOff hs.wf]
  refine ⟨rfl, ?_⟩
  unfold State.out
  rw [State.syncLdDefer_outs]
  exact (State.out_turnOff hs.len hs.die hs.ix oOFF).1

/-! #### A new target -/

/-- The target alone is new, with what it does to a turn-off that waits and to RETRY_LEFT (R252, R277). -/
def State.aim (s : State) (d x t : Nat) : State :=
  let u := s.modOut d x (fun o => { o with target := t, ldDefer := if t = 0 then o.ldDefer else false })
  if t = 0 ∧ (s.out d x).target ≠ 0 then u.reload d x else u

omit hs in
theorem setTarget_eq (s : State) (d x t : Nat) (urgent : Bool) : s.setTarget d x t urgent =
    if s.oSt d x = oDIP ∨ s.oSt d x = oLOCKOUT then s.aim d x t
    else if t = 0 then
      if conducting (s.oSt d x) then (s.aim d x t).commandOff d x urgent
      else if s.oSt d x = oRETRY ∨ s.oSt d x = oTHERMAL then ((s.aim d x t).setOSt d x oOFF).reload d x
      else s.aim d x t
    else
      let u := (s.aim d x t).syncLdDefer (feedOf d x)
      if s.oSt d x = oOFF then u.tryOn d x
      else if s.oSt d x = oON ∧ t = 2 then u.setOSt d x oPWM
      else if s.oSt d x = oPWM ∧ t = 1 then
        let wasOff := match (u.out d x).gate with
          | .on => false
          | _ => true
        (u.setOSt d x oON).modOut d x (fun o => { o with gate := .on, blank := if wasOff then u.cBlank d x != 0 else o.blank })
      else u := rfl

/-- The output is to go to a level, with nothing else of it decided. -/
def State.Aims (s t : State) (d x g : Nat) : Prop :=
  s.AtOut t d x ∧ (∀ f, t.oFlag d x f = s.oFlag d x f) ∧ (t.out d x).wants = (g, (s.out d x).sched, (s.out d x).fallback)

omit hs in
theorem State.Aims.acts {g : Nat} (h : s.Aims t d x g) (k : t.Acts u d x) : s.Aims u d x g :=
  ⟨h.1.trans k.toAtOut, fun f => (k.flags f).trans (h.2.1 f), k.wants.trans h.2.2⟩

theorem aim_aims (g : Nat) : s.Aims (s.aim d x g) d x g := by
  have hm : s.Aims (s.modOut d x (fun o => { o with target := g, ldDefer := if g = 0 then o.ldDefer else false })) d x g :=
    ⟨setOut_atOut hs _, fun f => State.oFlag_of (State.regs_modOut ..) d x f, congrArg OutRt.wants (out_setOut hs _)⟩
  unfold State.aim
  dsimp only
  split
  · exact hm.acts (reload_acts (hm.1.hasOut hs))
  · exact hm

theorem aim_oSt (g : Nat) : (s.aim d x g).oSt d x = s.oSt d x := by
  unfold State.aim
  dsimp only
  split
  · exact State.shFld_setShFld_apart hs.wf _ _ (by unfold Fld.ok; decide) (by unfold Fld.ok; decide) (by unfold Fld.apart; decide)
  · exact State.oSt_of (State.regs_modOut ..) d x

theorem setTarget_aims (g : Nat) (urgent : Bool) : s.Aims (s.setTarget d x g urgent) d x g := by
  have ha := aim_aims hs g
  have hh := ha.1.hasOut hs
  rw [setTarget_eq]
  split
  · exact ha
  split
  · split
    · exact ha.acts (commandOff_acts hh urgent)
    split
    · exact ha.acts ((setOSt_acts hh _).next hh fun h => reload_acts h)
    · exact ha
  · extract_lets v
    have hv : s.Aims v d x g := ha.acts (syncLdDefer_acts hh)
    have hk := hv.1.hasOut hs
    split
    · exact hv.acts (tryOn_acts hk)
    split
    · exact hv.acts (setOSt_acts hk _)
    split
    · exact hv.acts ((setOSt_acts hk _).next hk fun h => modOut_acts h fun _ => rfl)
    · exact hv

/-- An output in LOCKOUT or DIP stays there. -/
theorem setTarget_held {g : Nat} {urgent : Bool} (h : s.oSt d x = oLOCKOUT ∨ s.oSt d x = oDIP) :
    (s.setTarget d x g urgent).oSt d x = s.oSt d x := by
  rw [setTarget_eq, if_pos h.symm, aim_oSt hs]

/-- A conducting output whose feed is not high goes off. -/
theorem setTarget_off {urgent : Bool} (hc : conducting (s.oSt d x) = true)
    (hf : s.feedBit (feedOf d x) F.SUPC_FEED_STAT_FEED_HIGH = false) :
    (s.setTarget d x 0 urgent).oSt d x = oOFF ∧ ((s.setTarget d x 0 urgent).out d x).gate = .off := by
  have hn : ¬ (s.oSt d x = oDIP ∨ s.oSt d x = oLOCKOUT) := by
    rintro (h | h) <;> rw [h] at hc <;> exact absurd hc (by decide)
  have ha := (aim_aims hs 0).1
  rw [setTarget_eq, if_neg hn, if_pos rfl, if_pos hc]
  refine commandOff_off (ha.hasOut hs) ?_
  unfold State.feedBit
  rw [ha.feed _ (by unfold Fld.ok; decide) (by unfold Fld.apart; decide)]
  exact hf

end

/-! ### Scheduled switches of a power die (R236) -/

theorem State.AtOut.oneOut {s t : State} {d x : Nat} (h : s.AtOut t d x) (k : State.Kept ⟨0x2000008, s⟩ t) : s.OneOut t d x :=
  ⟨h.regs, h.outs, k.mix⟩

/-- What a scheduled switch makes of its output. -/
def State.Switched (s t : State) (d x g : Nat) : Prop :=
  (t.out d x).sched = none ∧ (t.out d x).target = g ∧ (s.oSt d x = 5 ∨ s.oSt d x = 6 → t.oSt d x = s.oSt d x) ∧ s.OneOut t d x

theorem startSched_idle {s : State} {d x : Nat} (late : Bool) (h : (s.out d x).sched = none) : s.startSched d x late = s := by
  unfold State.startSched
  rw [h]

theorem late_named (x : Nat) : (OFlag.fld .late (isGd x)).isSome = true := by
  cases isGd x <;> rfl

theorem startSched_switches {s : State} (h : s.Inv) {d x g : Nat} (hd : d < 2) (hx : x < 32) (late : Bool)
    (hg : (s.out d x).sched = some g) : s.Switched (s.startSched d x late) d x g ∧
      (late = true → (s.startSched d x late).oFlag d x .late = true) := by
  have hs : s.HasOut d x := ⟨h.regs, h.shape.outs, hd, hx⟩
  have kept : State.Kept ⟨0x2000008, s⟩ (s.startSched d x late) := State.startSched_kept (.refl _) (.refl h)
  obtain ⟨u, hu⟩ : ∃ u, s.modOut d x (fun o => { o with sched := none }) = u := ⟨_, rfl⟩
  obtain ⟨v, hv⟩ : ∃ v, (if late then u.setO d x .late true else u) = v := ⟨_, rfl⟩
  have hr : s.startSched d x late = v.setTarget d x g false := by
    rw [← hv, ← hu]
    unfold State.startSched
    rw [hg]
  have su : s.AtOut u d x := hu ▸ setOut_atOut hs _
  have hou : (u.out d x).sched = none := by
    rw [← hu]
    exact congrArg OutRt.sched (out_setOut hs _)
  have hstu : u.oSt d x = s.oSt d x := hu ▸ State.oSt_of (State.regs_modOut ..) d x
  have uv : u.AtOut v d x ∧ v.outs = u.outs ∧ v.oSt d x = u.oSt d x ∧ (late = true → v.oFlag d x .late = true) := by
    have hk := su.hasOut hs
    rw [← hv]
    cases late with
    | false => exact ⟨(State.Acts.refl hk).toAtOut, rfl, rfl, nofun⟩
    | true =>
      refine ⟨?_, State.out_setO .., State.oSt_setO hk.wf .., fun _ => State.oFlag_setO hk.wf _ _ _ _ (late_named x)⟩
      show u.AtOut (u.setO d x .late true) d x
      unfold State.setO
      split
      · exact setShFld_atOut hk _ _
      · exact (State.Acts.refl hk).toAtOut
  obtain ⟨uv, hov, hstv, hlate⟩ := uv
  have hk := (su.trans uv).hasOut hs
  obtain ⟨vt, hflag, hwants⟩ := setTarget_aims hk g false
  have hout : v.out d x = u.out d x := by
    unfold State.out
    rw [hov]
  rw [hr] at kept ⊢
  refine ⟨⟨?_, congrArg Prod.fst hwants, fun h56 => ?_, ((su.trans uv).trans vt).oneOut kept⟩, fun hl => (hflag _).trans (hlate hl)⟩
  · exact (congrArg (fun w => w.2.1) hwants).trans (hout ▸ hou)
  · rw [← hstu, ← hstv]
    rw [← hstu, ← hstv] at h56
    exact setTarget_held hk h56

end Sys2Proof.Machine

namespace Sys2Proof.Machine

theorem schedule_power {s : State} {d x : Nat} (hd : d < 2) (hx : x < 32) (hup : (s.die (powerDie d)).up = true) :
    exec (.scheduledSwitch (powerDie d) x) s = .next (s.startSched d x false) ∧
    exec (.lateSwitch (powerDie d) x) s = .next (s.startSched d x true) := by
  have hsched (late : Bool) : s.schedStart (powerDie d) x late = s.startSched d x late := by
    obtain rfl | rfl : d = 0 ∨ d = 1 := by omega
    · exact if_pos hx
    · exact if_pos hx
  rw [← hsched, ← hsched]
  exact ⟨if_pos hup, if_pos hup⟩

theorem powerSwitch_idle {s : State} {d x : Nat} (hd : d < 2) (hx : x < 32) (hup : (s.die (powerDie d)).up = true)
    (hn : (s.out d x).sched = none) :
    exec (.scheduledSwitch (powerDie d) x) s = .next s ∧ exec (.lateSwitch (powerDie d) x) s = .next s := by
  obtain ⟨h1, h2⟩ := schedule_power hd hx hup
  exact ⟨h1.trans (by rw [startSched_idle _ hn]), h2.trans (by rw [startSched_idle _ hn])⟩

theorem powerSwitch_completes {s : State} (h : s.Inv) {d x g : Nat} (hd : d < 2) (hx : x < 32)
    (hup : (s.die (powerDie d)).up = true) (hg : g ∈ (s.out d x).sched) :
    Completes (exec (.scheduledSwitch (powerDie d) x) s) (fun t => (t.out d x).sched = none ∧ (t.out d x).target = g ∧
      ((s.oSt d x = 5 ∨ s.oSt d x = 6) → t.oSt d x = s.oSt d x) ∧ s.OneOut t d x) ∧
    Completes (exec (.lateSwitch (powerDie d) x) s) (fun t => (t.out d x).sched = none ∧ (t.out d x).target = g ∧
      t.oFlag d x .late = true ∧ ((s.oSt d x = 5 ∨ s.oSt d x = 6) → t.oSt d x = s.oSt d x) ∧ s.OneOut t d x) := by
  obtain ⟨h1, h2⟩ := schedule_power hd hx hup
  obtain ⟨hsched, htarget, hheld, hone⟩ := (startSched_switches h hd hx true hg).1
  exact ⟨⟨_, h1, (startSched_switches h hd hx false hg).1⟩,
    ⟨_, h2, hsched, htarget, (startSched_switches h hd hx true hg).2 rfl, hheld, hone⟩⟩

/-! ### Fail actions of a power die (R254, R255, R288) -/

/-- A loop's body `g`, seen from the index `x`: it keeps `ok`, and from a state that is `ok` the turn of another index spares
`x`. -/
structure Turns (ok : State → Prop) (spared : State → State → Prop) (g : State → Nat → State) (x : Nat) (xs : List Nat) :
    Prop where
  refl : ∀ t, spared t t
  trans : ∀ {t u v}, spared t u → spared u v → spared t v
  keeps : ∀ t, ∀ y ∈ xs, ok t → ok (g t y)
  spares : ∀ t, ∀ y ∈ xs, y ≠ x → ok t → spared t (g t y)

section
variable {ok : State → Prop} {spared : State → State → Prop} {g : State → Nat → State} {x y : Nat} {xs : List Nat} {s : State}

theorem Turns.tail (h : Turns ok spared g x (y :: xs)) : Turns ok spared g x xs :=
  ⟨h.refl, h.trans, fun t z hz => h.keeps t z (List.mem_cons_of_mem _ hz), fun t z hz => h.spares t z (List.mem_cons_of_mem _ hz)⟩

theorem Turns.ok_forEach (h : Turns ok spared g x xs) (hs : ok s) : ok (s.forEach xs g) := by
  induction xs generalizing s with
  | nil => exact hs
  | cons y ys ih => exact ih h.tail (h.keeps s y List.mem_cons_self hs)

/-- An index that has no turn is spared. -/
theorem Turns.spared_forEach (h : Turns ok spared g x xs) (hs : ok s) (hx : x ∉ xs) : spared s (s.forEach xs g) := by
  induction xs generalizing s with
  | nil => exact h.refl s
  | cons y ys ih =>
    obtain ⟨hy, hys⟩ := not_or.mp (mt List.mem_cons.mpr hx)
    exact h.trans (h.spares s y List.mem_cons_self (Ne.symm hy) hs) (ih h.tail (h.keeps s y List.mem_cons_self hs) hys)

/-- An index that has one turn is spared before and after it. -/
theorem Turns.turn (h : Turns ok spared g x xs) (hs : ok s) (hx : x ∈ xs) (hn : xs.Nodup) :
    ∃ u, ok u ∧ spared s u ∧ spared (g u x) (s.forEach xs g) := by
  induction xs generalizing s with
  | nil => exact absurd hx List.not_mem_nil
  | cons y ys ih =>
    obtain ⟨hy, hys⟩ := List.nodup_cons.mp hn
    have hnext := h.keeps s y List.mem_cons_self hs
    by_cases he : y = x
    · subst he
      exact ⟨s, hs, h.refl s, h.tail.spared_forEach hnext hy⟩
    · obtain ⟨u, hu, hbefore, hafter⟩ := ih h.tail hnext ((List.mem_cons.mp hx).resolve_left (Ne.symm he)) hys
      exact ⟨u, hu, h.trans (h.spares s y List.mem_cons_self he hs) hbefore, hafter⟩

end

theorem State.RegsBut.trans {ks : List Nat} {s t u : State} (h : s.RegsBut ks t) (k : t.RegsBut ks u) : s.RegsBut ks u :=
  fun a ha => (k a ha).trans (h a ha)

theorem State.RegsBut.mono {ks js : List Nat} {s t : State} (h : s.RegsBut ks t) (hj : ∀ k ∈ ks, k ∈ js) : s.RegsBut js t :=
  fun a ha => h a fun hk => ha (hj a hk)

theorem State.RegsBut.shReg {ks : List Nat} {s t : State} (h : s.RegsBut ks t) {a : Nat} (ha : regKey 0 a ∉ ks) :
    t.shReg a = s.shReg a := h _ ha

theorem State.RegsBut.shFld {ks : List Nat} {s t : State} (h : s.RegsBut ks t) {a : Nat} (ha : regKey 0 a ∉ ks) (f : Fld) :
    t.shFld a f = s.shFld a f := congrArg (getF · f) (h.shReg ha)

theorem State.setShFld_regsBut (s : State) (a : Nat) (f : Fld) (v : Nat) : s.RegsBut [regKey 0 a] (s.setShFld a f v) :=
  fun _ hk => rfGet_rfPut_ne _ _ _ _ fun e => hk (List.mem_singleton.mpr e.symm)

theorem oState_inj {d x y : Nat} (hx : x < 32) (hy : y < 32) (h : oState d x = oState d y) : x = y := by
  unfold oState isGd R.PCH_STATE R.GDR_STATE at h
  simp only [decide_eq_true_eq] at h
  split at h <;> split at h <;> omega

/-- What a step on another output of the die spares of an output: its run state, its status, its configuration, FEED_HIGH. -/
structure State.OutSpared (s t : State) (d x : Nat) : Prop where
  out : t.out d x = s.out d x
  st : t.oSt d x = s.oSt d x
  fail : t.cFail d x = s.cFail d x
  high : t.feedBit (feedOf d x) F.SUPC_FEED_STAT_FEED_HIGH = s.feedBit (feedOf d x) F.SUPC_FEED_STAT_FEED_HIGH

theorem State.AtOut.spares {s t : State} {d x y : Nat} (h : s.AtOut t d y) (hd : d < 2) (hx : x < 32) (hy : y < 32)
    (hne : y ≠ x) : s.OutSpared t d x := by
  have hoy := oState_range hd hy
  have hfy := feedStat_range (feedOf_le hd (x := y))
  have hfx := feedStat_range (feedOf_le hd (x := x))
  have hkey {a : Nat} (ha : a < 2 ^ 32) (h1 : a ≠ oState d y) (h2 : a ≠ R.SUPC_FEED_STAT (feedOf d y)) :
      regKey 0 a ∉ [dieKey (oState d y), dieKey (R.SUPC_FEED_STAT (feedOf d y))] := by
    simp only [List.mem_cons, List.not_mem_nil, or_false, not_or]
    exact ⟨(dieKey_ne ha (by omega) h1).symm, (dieKey_ne ha (by omega) h2).symm⟩
  refine ⟨?_, h.regs.shFld (hkey ?_ (fun e => hne (oState_inj hy hx e.symm)) ?_) _, ?_, ?_⟩
  · unfold State.out
    rw [h.outs _ (by omega)]
  · have := oState_range hd hx
    omega
  · have := oState_range hd hx
    omega
  · unfold State.cFail State.oCfg
    split
    all_goals
      refine h.regs.shFld (hkey ?_ ?_ ?_) _
      · simp only [R.GDR_CFG, R.PCH_CFG]
        omega
      · simp only [oState, R.GDR_CFG, R.PCH_CFG, R.PCH_STATE, R.GDR_STATE]
        split <;> omega
      · simp only [R.GDR_CFG, R.PCH_CFG]
        omega
  · unfold State.feedBit
    congr 1
    by_cases he : feedOf d x = feedOf d y
    · rw [he]
      exact h.feed _ (by unfold Fld.ok; decide) (by unfold Fld.apart; decide)
    · have hk : dieKey (R.SUPC_FEED_STAT (feedOf d x)) ∉ [dieKey (oState d y), dieKey (R.SUPC_FEED_STAT (feedOf d y))] := by
        have h1 {z : Nat} : 1 ≤ feedOf d z := by
          unfold feedOf
          split
          · omega
          · split <;> omega
        have := h1 (z := x)
        have := h1 (z := y)
        simp only [List.mem_cons, List.not_mem_nil, or_false, not_or]
        unfold dieKey
        refine ⟨by omega, ?_⟩
        unfold R.SUPC_FEED_STAT
        omega
      unfold State.dieFld State.dieReg
      rw [h.regs _ hk]

/-- The target that a fail action of the table gives (Table 8.5). -/
def failLevel (act target : Nat) : Nat := if act = 0 then 0 else if act = 1 then 1 else if act = 2 then target else 2

theorem failTarget_eq (s : State) (d x : Nat) : (s.failTarget d x).1 = failLevel (s.cFail d x) (s.out d x).target ∧
    (s.cFail d x = 3 → (s.failTarget d x).2 = true) ∧ (s.cFail d x = 0 → s.failTarget d x = (0, false)) := by
  unfold State.failTarget failLevel
  generalize s.cFail d x = n
  match n with
  | 0 => exact ⟨rfl, nofun, fun _ => rfl⟩
  | 1 => exact ⟨rfl, nofun, nofun⟩
  | 2 => exact ⟨rfl, nofun, nofun⟩
  | n + 3 => exact ⟨rfl, fun _ => rfl, nofun⟩

/-- An output has taken its fail action. -/
structure State.TookFail (s t : State) (d x : Nat) : Prop where
  target : (t.out d x).target = failLevel (s.cFail d x) (s.out d x).target
  fallback : s.cFail d x = 3 → (t.out d x).fallback = true
  off : s.cFail d x = 0 → conducting (s.oSt d x) = true → s.feedBit (feedOf d x) F.SUPC_FEED_STAT_FEED_HIGH = false →
    t.oSt d x = 0 ∧ (t.out d x).gate = .off
  held : s.oSt d x = 5 ∨ s.oSt d x = 6 → t.oSt d x = s.oSt d x

theorem takeFail_took {s : State} {d x : Nat} (hs : s.HasOut d x) (urgent : Bool) :
    s.AtOut (s.takeFail d x urgent) d x ∧ s.TookFail (s.takeFail d x urgent) d x := by
  obtain ⟨hlevel, hthree, hzero⟩ := failTarget_eq s d x
  obtain ⟨u, hu⟩ : ∃ u, s.modOut d x (fun o => { o with fallback := (s.failTarget d x).2 }) = u := ⟨_, rfl⟩
  have hr : s.takeFail d x urgent = u.setTarget d x (s.failTarget d x).1 urgent := hu ▸ rfl
  have su : s.AtOut u d x := hu ▸ setOut_atOut hs _
  have hout : (u.out d x).fallback = (s.failTarget d x).2 := by
    rw [← hu]
    exact congrArg OutRt.fallback (out_setOut hs _)
  have hst : u.oSt d x = s.oSt d x := hu ▸ State.oSt_of (State.regs_modOut ..) d x
  have hk := su.hasOut hs
  obtain ⟨ut, -, hwants⟩ := setTarget_aims hk (s.failTarget d x).1 urgent
  rw [hr]
  refine ⟨su.trans ut, (congrArg Prod.fst hwants).trans hlevel, fun h3 => ?_, fun h0 hc hf => ?_, fun h56 => ?_⟩
  · exact (congrArg (fun w => w.2.2) hwants).trans (hout.trans (hthree h3))
  · rw [hzero h0]
    refine setTarget_off hk (hst ▸ hc) ?_
    rw [← hu]
    exact hf
  · rw [← hst]
    rw [← hst] at h56
    exact setTarget_held hk h56

/-- What an output shows of its fail action does not change while it is spared. -/
theorem State.TookFail.spared {s t u : State} {d x : Nat} (h : s.TookFail t d x) (k : t.OutSpared u d x) : s.TookFail u d x := by
  refine ⟨?_, ?_, ?_, ?_⟩
  · rw [k.out]; exact h.target
  · rw [k.out]; exact h.fallback
  · rw [k.out, k.st]; exact h.off
  · rw [k.st]; exact h.held

/-- Nor does it depend on what spared the output before. -/
theorem State.TookFail.after {s t u : State} {d x : Nat} (k : s.OutSpared t d x) (h : t.TookFail u d x) : s.TookFail u d x := by
  obtain ⟨h1, h2, h3, h4⟩ := h
  rw [k.out, k.fail] at h1
  rw [k.fail] at h2
  rw [k.fail, k.st, k.high] at h3
  rw [k.st] at h4
  exact ⟨h1, h2, h3, h4⟩

theorem State.OutSpared.refl (s : State) (d x : Nat) : s.OutSpared s d x := ⟨rfl, rfl, rfl, rfl⟩

theorem State.OutSpared.trans {s t u : State} {d x : Nat} (h : s.OutSpared t d x) (k : t.OutSpared u d x) : s.OutSpared u d x :=
  ⟨k.out.trans h.out, k.st.trans h.st, k.fail.trans h.fail, k.high.trans h.high⟩

/-- Keys of the status registers of a power die's outputs, and of its feeds' status. -/
def powerKeys (d : Nat) : List Nat :=
  [R.SUPC_FEED_STAT (3 * d + 1), R.SUPC_FEED_STAT (3 * d + 2), R.SUPC_FEED_STAT (3 * d + 3)].map dieKey ++
    (List.range 32).map (fun x => dieKey (oState d x))

/-- A power die's operation on its outputs: of the registers those, and of the outputs the die's own. -/
structure State.AtOuts (s t : State) (d : Nat) : Prop where
  regs : s.RegsBut (powerKeys d) t
  outs : ∀ i, ¬ (32 * d ≤ i ∧ i < 32 * d + 32) → t.outs[i]? = s.outs[i]?
  wf : rfWf t.regs = true
  len : t.outs.length = s.outs.length

theorem State.AtOut.atOuts {s t : State} {d x : Nat} (h : s.AtOut t d x) (hx : x < 32) : s.AtOuts t d where
  regs := h.regs.mono fun k hk => by
    simp only [List.mem_cons, List.not_mem_nil, or_false] at hk
    rcases hk with rfl | rfl
    · exact List.mem_append_right _ (List.mem_map.mpr ⟨x, List.mem_range.mpr hx, rfl⟩)
    · refine List.mem_append_left _ (List.mem_map.mpr ⟨_, ?_, rfl⟩)
      unfold feedOf
      split
      · simp
      · split <;> simp
  outs i hi := h.outs i (by omega)
  wf := h.wf
  len := h.len

theorem State.AtOuts.trans {s t u : State} {d : Nat} (h : s.AtOuts t d) (k : t.AtOuts u d) : s.AtOuts u d :=
  ⟨h.regs.trans k.regs, fun i hi => (k.outs i hi).trans (h.outs i hi), k.wf, k.len.trans h.len⟩

/-- Every output of a power die takes its fail action. -/
def State.failOuts (s : State) (d : Nat) : State := s.forEach (List.range 32) (fun s x => s.takeFail d x false)

theorem failOuts_took {s : State} (w : rfWf s.regs = true) (hl : s.outs.length = 64) {d : Nat} (hd : d < 2) :
    s.AtOuts (s.failOuts d) d ∧ ∀ x < 32, s.TookFail (s.failOuts d) d x := by
  have start : s.AtOuts s d := ⟨fun _ _ => rfl, fun _ _ => rfl, w, rfl⟩
  have has {t : State} (ht : s.AtOuts t d) {x : Nat} (hx : x < 32) : t.HasOut d x := ⟨ht.wf, ht.len.trans hl, hd, hx⟩
  have turns {x : Nat} (hx : x < 32) : Turns (fun t => s.AtOuts t d) (fun t u => t.OutSpared u d x)
      (fun s x => s.takeFail d x false) x (List.range 32) := by
    refine ⟨fun t => .refl t d x, fun h k => h.trans k, fun t y hy ht => ?_, fun t y hy hne ht => ?_⟩
    · have hy := List.mem_range.mp hy
      exact ht.trans ((takeFail_took (has ht hy) false).1.atOuts hy)
    · have hy := List.mem_range.mp hy
      exact (takeFail_took (has ht hy) false).1.spares hd hx hy hne
  refine ⟨(turns (x := 0) (by decide)).ok_forEach start, fun x hx => ?_⟩
  obtain ⟨u, hu, hbefore, hafter⟩ := (turns hx).turn start (List.mem_range.mpr hx) List.nodup_range
  exact .after hbefore ((takeFail_took (has hu hx) false).2.spared hafter)

theorem failAction_power {s : State} {d : Nat} (hd : d < 2) (hup : (s.die (powerDie d)).up = true) (hf : s.mod_.frozen = false)
    (hka : s.shBit (R.PCH_DIE_STATUS d) F.PCH_DIE_STATUS_KA_LOST = true) :
    exec (.failAction (powerDie d)) s = .next (s.failPower d) := by
  have hgo : (!(s.die (powerDie d)).up || s.mod_.frozen || !s.shBit (R.PCH_DIE_STATUS d) F.PCH_DIE_STATUS_KA_LOST) = false := by
    rw [hup, hf, hka]
    rfl
  obtain rfl | rfl : d = 0 ∨ d = 1 := by omega
  · exact if_neg (by rw [hgo]; decide)
  · exact if_neg (by rw [hgo]; decide)

theorem failPower_eq (s : State) (d : Nat) :
    s.failPower d = (s.failOuts d).setShBit (R.PCH_DIE_STATUS d) F.PCH_DIE_STATUS_FAIL_APPLIED true := rfl

/-- Setting one flag of a die's register. -/
theorem setShBit_flags {s : State} (w : rfWf s.regs = true) {a : Nat} {f : Fld} (ha : sharedReg a = true) (hf : Fld.ok f)
    (h1 : f.lo = f.hi) : (s.setShBit a f true).shBit a f = true ∧ s.RegsBut [dieKey a] (s.setShBit a f true) ∧
      (s.setShBit a f true).outs = s.outs ∧ (s.setShBit a f true).fcs = s.fcs := by
  have hregs := s.setShFld_regsBut a f (b2n true)
  rw [regKey_shared ha] at hregs
  exact ⟨State.bit_setBitF_self w .E a f true hf h1, hregs,
    (State.setBitF_served s .E a f true).outs, (State.setBitF_served s .E a f true).fcs⟩

theorem sharedReg_dieStatus {d : Nat} (hd : d < 2) : sharedReg (R.PCH_DIE_STATUS d) = true := by
  have all : ∀ e < 2, sharedReg (R.PCH_DIE_STATUS e) = true := by decide
  exact all d hd

theorem oState_ne_dieStatus (d x : Nat) : dieKey (oState d x) ≠ dieKey (R.PCH_DIE_STATUS d) := by
  simp only [dieKey, oState, R.PCH_DIE_STATUS, R.PCH_STATE, R.GDR_STATE]
  split <;> omega

theorem State.Kept.regsOuts {s t : State} (k : State.Kept ⟨0x2000008, s⟩ t) : t = { s with regs := t.regs, outs := t.outs } :=
  k.mix

theorem powerFail_completes {s : State} (h : s.Inv) {d : Nat} (hd : d < 2) (hup : (s.die (powerDie d)).up = true)
    (hf : s.mod_.frozen = false) (hka : s.shBit (R.PCH_DIE_STATUS d) F.PCH_DIE_STATUS_KA_LOST = true) :
    Completes (exec (.failAction (powerDie d)) s) (fun t =>
      t.shBit (R.PCH_DIE_STATUS d) F.PCH_DIE_STATUS_FAIL_APPLIED = true ∧
      (∀ x < 32, (t.out d x).target = (if s.cFail d x = 0 then 0 else if s.cFail d x = 1 then 1
          else if s.cFail d x = 2 then (s.out d x).target else 2) ∧
        (s.cFail d x = 3 → (t.out d x).fallback = true) ∧
        (s.cFail d x = 0 → conducting (s.oSt d x) = true → (s.out d x).ldDefer = false →
          s.feedBit (feedOf d x) F.SUPC_FEED_STAT_FEED_HIGH = false → t.oSt d x = 0 ∧ (t.out d x).gate = .off) ∧
        ((s.oSt d x = 5 ∨ s.oSt d x = 6) → t.oSt d x = s.oSt d x) ∧ t.out (1 - d) x = s.out (1 - d) x) ∧
      s.RegsBut ([R.PCH_DIE_STATUS d, R.SUPC_FEED_STAT (3 * d + 1), R.SUPC_FEED_STAT (3 * d + 2),
        R.SUPC_FEED_STAT (3 * d + 3)].map dieKey ++ (List.range 32).map (fun x => dieKey (oState d x))) t ∧
      t = { s with regs := t.regs, outs := t.outs }) := by
  refine ⟨_, failAction_power hd hup hf hka, ?_⟩
  have kept : State.Kept ⟨0x2000008, s⟩ (s.failPower d) := State.failPower_kept (.refl _) (.refl h)
  obtain ⟨hat, htook⟩ := failOuts_took h.regs h.shape.outs hd
  rw [failPower_eq] at kept ⊢
  obtain ⟨hbit, hregs, houts, -⟩ := setShBit_flags hat.wf (sharedReg_dieStatus hd) (f := F.PCH_DIE_STATUS_FAIL_APPLIED)
    (by unfold Fld.ok; decide) rfl
  generalize (s.failOuts d).setShBit (R.PCH_DIE_STATUS d) F.PCH_DIE_STATUS_FAIL_APPLIED true = t at *
  have hout (e x : Nat) : t.out e x = (s.failOuts d).out e x := by
    unfold State.out
    rw [houts]
  refine ⟨hbit, fun x hx => ?_, ?_, kept.regsOuts⟩
  · obtain ⟨htarget, hfallback, hoff, hheld⟩ := htook x hx
    have hst : t.oSt d x = (s.failOuts d).oSt d x := by
      refine hregs.shFld ?_ _
      rw [regKey_oState hd hx, List.mem_singleton]
      exact oState_ne_dieStatus d x
    rw [hout, hout, hst]
    refine ⟨htarget, hfallback, fun h0 hc _ => hoff h0 hc, hheld, ?_⟩
    unfold State.out
    rw [hat.outs _ (by omega)]
  · refine (hat.regs.mono fun _ hk => List.mem_cons_of_mem _ hk).trans (hregs.mono fun k hk => ?_)
    rw [List.mem_singleton.mp hk]
    exact List.mem_cons_self

end Sys2Proof.Machine

namespace Sys2Proof.Machine

/-! ### One channel of a field die (Table 10.5) -/

/-- What a channel is to do: its target, a switch that waits, whether it takes the FALLBACK duty, and its urgent seal. -/
def FcRt.wants (c : FcRt) : Nat × Option Nat × Bool × Option Nat := (c.target, c.sched, c.fallback, c.urgSeal)

/-- The state is well formed as to its registers and its field channels, and `m` is a channel of field die `d`. -/
structure State.HasFc (s : State) (d m : Nat) : Prop where
  wf : rfWf s.regs = true
  len : s.fcs.length = 256
  die : d < 3
  ix : m < fcCount d

/-- Of the channels, an operation has touched one: its FCH_STATE register and its run state. -/
structure State.AtFc (s t : State) (d m : Nat) : Prop where
  regs : s.RegsBut [dieKey (R.FCH_STATE d m)] t
  fcs : ∀ i, i ≠ 112 * d + m → t.fcs[i]? = s.fcs[i]?
  wf : rfWf t.regs = true
  len : t.fcs.length = s.fcs.length

/-- Beside that, the bits of FCH_STATE other than STATE are as they were, and what the channel is to do. -/
structure State.FcActs (s t : State) (d m : Nat) : Prop extends State.AtFc s t d m where
  flags : ∀ f, Fld.ok f → Fld.apart F.FCH_STATE_STATE f → t.fBit d m f = s.fBit d m f
  wants : (t.fc d m).wants = (s.fc d m).wants

theorem chanIx_lt {d m : Nat} (hm : m < fcCount d) : m < 112 := fcIndex_lt (List.mem_range.mpr hm)

theorem fcNum_lt {d m : Nat} (hd : d < 3) (hm : m < fcCount d) : 112 * d + m < 256 := by
  unfold fcCount at hm
  split at hm <;> omega

theorem regKey_fchState {d m : Nat} (hd : d < 3) (hm : m < fcCount d) (l : Nat) :
    regKey l (R.FCH_STATE d m) = dieKey (R.FCH_STATE d m) :=
  regKey_shared (a := R.FCH_STATE d m) (sharedReg_fchState (by omega) (chanIx_lt hm)) l

section
variable {s t u : State} {d m : Nat}

theorem State.AtFc.trans (h : s.AtFc t d m) (k : t.AtFc u d m) : s.AtFc u d m :=
  ⟨h.regs.trans k.regs, fun i hi => (k.fcs i hi).trans (h.fcs i hi), k.wf, k.len.trans h.len⟩

theorem State.AtFc.hasFc (h : s.AtFc t d m) (hs : s.HasFc d m) : t.HasFc d m := ⟨h.wf, h.len.trans hs.len, hs.die, hs.ix⟩

theorem State.FcActs.refl (hs : s.HasFc d m) : s.FcActs s d m := ⟨⟨fun _ _ => rfl, fun _ _ => rfl, hs.wf, rfl⟩, fun _ _ _ => rfl, rfl⟩

theorem State.FcActs.trans (h : s.FcActs t d m) (k : t.FcActs u d m) : s.FcActs u d m :=
  ⟨h.toAtFc.trans k.toAtFc, fun f hf ha => (k.flags f hf ha).trans (h.flags f hf ha), k.wants.trans h.wants⟩

theorem fcMode_atFc (hs : s.HasFc d m) (h : s.AtFc t d m) (f : Fld) : t.fcfg d m f = s.fcfg d m f := by
  have hm := chanIx_lt hs.ix
  have hd := hs.die
  refine h.regs.shFld ?_ f
  rw [List.mem_singleton]
  exact (dieKey_ne (by unfold R.FCH_CFG; omega) (by unfold R.FCH_STATE; omega)
    (by unfold R.FCH_CFG R.FCH_STATE; omega)).symm

variable (hs : s.HasFc d m)
include hs

theorem setFc_atFc (c : FcRt) : s.AtFc (s.setFc d m c) d m :=
  ⟨fun _ _ => rfl, fun _ hi => List.getElem?_set_ne (Ne.symm hi), hs.wf, List.length_set⟩

theorem fc_setFc (c : FcRt) : (s.setFc d m c).fc d m = c := by
  have hi : fcNum d m < s.fcs.length := by
    rw [hs.len]
    exact fcNum_lt hs.die hs.ix
  show ((s.fcs.set (fcNum d m) c)[fcNum d m]?).getD .reset = c
  rw [List.getElem?_set_self hi]
  rfl

omit hs in
theorem fBit_modFc (g : FcRt → FcRt) (f : Fld) : (s.modFc d m g).fBit d m f = s.fBit d m f := rfl

omit hs in
theorem fSt_modFc (g : FcRt → FcRt) : (s.modFc d m g).fSt d m = s.fSt d m := rfl

theorem modFc_acts {g : FcRt → FcRt} (hg : ∀ c, (g c).wants = c.wants) : s.FcActs (s.modFc d m g) d m :=
  ⟨setFc_atFc hs _, fun f _ _ => fBit_modFc g f, (congrArg FcRt.wants (fc_setFc hs _)).trans (hg _)⟩

omit hs in
theorem fc_setShFld (a : Nat) (f : Fld) (v : Nat) : (s.setShFld a f v).fcs = s.fcs := (State.setFld_served s .E a f v).fcs

theorem setState_atFc (f : Fld) (v : Nat) : s.AtFc (s.setShFld (R.FCH_STATE d m) f v) d m := by
  refine ⟨?_, fun i _ => by rw [fc_setShFld], State.setShFld_wf hs.wf, by rw [fc_setShFld]⟩
  have := s.setShFld_regsBut (R.FCH_STATE d m) f v
  rwa [regKey_fchState hs.die hs.ix] at this

theorem setFSt_acts (v : Nat) : s.FcActs (s.setFSt d m v) d m := by
  refine ⟨setState_atFc hs _ v, fun f hf ha => ?_, ?_⟩
  · exact congrArg (· == 1) (State.shFld_setShFld_apart hs.wf (R.FCH_STATE d m) v (by unfold Fld.ok; decide) hf ha)
  · unfold State.fc
    rw [State.setFSt, fc_setShFld]

theorem fSt_setFSt (v : Nat) (hv : v < 16) : (s.setFSt d m v).fSt d m = v := by
  refine (State.fld_setFld_self hs.wf .E (R.FCH_STATE d m) F.FCH_STATE_STATE v (by unfold Fld.ok; decide)).trans ?_
  exact Nat.mod_eq_of_lt hv

theorem fcTryOn_acts : s.FcActs (s.fcTryOn d m) d m := by
  unfold State.fcTryOn
  extract_lets t per
  split
  · have h := setFSt_acts hs (if t = 2 then oPWM else oON)
    exact h.trans (modFc_acts (h.toAtFc.hasFc hs) fun _ => rfl)
  · exact .refl hs

theorem fcOff_acts (st : Nat) : s.FcActs (s.fcOff d m st) d m := by
  unfold State.fcOff
  have h := setFSt_acts hs st
  exact h.trans (modFc_acts (h.toAtFc.hasFc hs) fun _ => rfl)

theorem fcOff_off : (s.fcOff d m oOFF).fSt d m = oOFF ∧ ((s.fcOff d m oOFF).fc d m).gate = .off := by
  unfold State.fcOff
  exact ⟨(fSt_modFc _).trans (fSt_setFSt hs oOFF (by decide)),
    congrArg FcRt.gate (fc_setFc ((setFSt_acts hs oOFF).toAtFc.hasFc hs) _)⟩

/-! #### A new target -/

/-- The target alone is new. -/
def State.fcAim (s : State) (d m t : Nat) : State := s.modFc d m (fun c => { c with target := t })

omit hs in
theorem fcSetTarget_eq (s : State) (d m t : Nat) : s.fcSetTarget d m t =
    if isOutMode (s.fMode d m) then
      if t = 0 then (if fcConducting (s.fSt d m) then (s.fcAim d m t).fcOff d m oOFF else s.fcAim d m t)
      else if s.fSt d m = oOFF then (s.fcAim d m t).fcTryOn d m
      else s.fcAim d m t
    else s.fcAim d m t := rfl

/-- The channel is to go to a level, with nothing else of it decided. -/
def State.FcAims (s t : State) (d m g : Nat) : Prop :=
  s.AtFc t d m ∧ (∀ f, Fld.ok f → Fld.apart F.FCH_STATE_STATE f → t.fBit d m f = s.fBit d m f) ∧
    (t.fc d m).wants = (g, (s.fc d m).sched, (s.fc d m).fallback, (s.fc d m).urgSeal)

omit hs in
theorem State.FcAims.acts {g : Nat} (h : s.FcAims t d m g) (k : t.FcActs u d m) : s.FcAims u d m g :=
  ⟨h.1.trans k.toAtFc, fun f hf ha => (k.flags f hf ha).trans (h.2.1 f hf ha), k.wants.trans h.2.2⟩

omit hs in
theorem State.FcAims.target {g : Nat} (h : s.FcAims t d m g) : (t.fc d m).target = g := congrArg Prod.fst h.2.2

omit hs in
theorem State.FcAims.urgSeal {g : Nat} (h : s.FcAims t d m g) : (t.fc d m).urgSeal = (s.fc d m).urgSeal :=
  congrArg (fun w => w.2.2.2) h.2.2

theorem fcAim_aims (g : Nat) : s.FcAims (s.fcAim d m g) d m g :=
  ⟨setFc_atFc hs _, fun f _ _ => fBit_modFc _ f, congrArg FcRt.wants (fc_setFc hs _)⟩

theorem fcSetTarget_aims (g : Nat) : s.FcAims (s.fcSetTarget d m g) d m g := by
  have ha := fcAim_aims hs g
  have hh := ha.1.hasFc hs
  rw [fcSetTarget_eq]
  split
  · split
    · split
      · exact ha.acts (fcOff_acts hh oOFF)
      · exact ha
    split
    · exact ha.acts (fcTryOn_acts hh)
    · exact ha
  · exact ha

omit hs in
/-- An output in LOCKOUT or DIP stays there. -/
theorem fcSetTarget_held {g : Nat} (h : s.fSt d m = oLOCKOUT ∨ s.fSt d m = oDIP) : (s.fcSetTarget d m g).fSt d m = s.fSt d m := by
  have hc : fcConducting (s.fSt d m) = false := by
    rcases h with h | h <;> rw [h] <;> rfl
  have ho : s.fSt d m ≠ oOFF := by
    rcases h with h | h <;> rw [h] <;> decide
  rw [fcSetTarget_eq, hc, if_neg ho, if_neg Bool.false_ne_true, ite_self, ite_self]
  rfl

/-- A conducting output goes off. -/
theorem fcSetTarget_off (hm : isOutMode (s.fMode d m) = true) (hc : fcConducting (s.fSt d m) = true) :
    (s.fcSetTarget d m 0).fSt d m = oOFF ∧ ((s.fcSetTarget d m 0).fc d m).gate = .off := by
  rw [fcSetTarget_eq, if_pos hm, if_pos rfl, if_pos hc]
  exact fcOff_off ((fcAim_aims hs 0).1.hasFc hs)

end

/-! ### Scheduled switches of a field die (R307) -/

theorem State.Kept.regsFcs {s t : State} (k : State.Kept ⟨0x20000008, s⟩ t) : t = { s with regs := t.regs, fcs := t.fcs } :=
  k.mix

/-- What a scheduled switch makes of its channel. -/
def State.FcSwitched (s t : State) (d m g : Nat) : Prop :=
  (t.fc d m).sched = none ∧ (t.fc d m).target = g ∧ (s.fSt d m = 5 ∨ s.fSt d m = 6 → t.fSt d m = s.fSt d m) ∧
    s.OneFc t d m [R.FCH_STATE d m]

theorem fcStartSched_idle {s : State} {d m : Nat} (late : Bool) (h : (s.fc d m).sched = none) : s.fcStartSched d m late = s := by
  unfold State.fcStartSched
  rw [h]

/-- A flag of FCH_STATE set. -/
theorem setFBit_flag {s : State} {d m : Nat} (hs : s.HasFc d m) {f : Fld} (hf : Fld.ok f) (h1 : f.lo = f.hi)
    (ha : Fld.apart f F.FCH_STATE_STATE) : s.AtFc (s.setFBit d m f true) d m ∧ (s.setFBit d m f true).fBit d m f = true ∧
      (s.setFBit d m f true).fSt d m = s.fSt d m ∧ (s.setFBit d m f true).fcs = s.fcs :=
  ⟨setState_atFc hs f (b2n true), State.bit_setBitF_self hs.wf .E _ f true hf h1,
    State.shFld_setShFld_apart hs.wf _ _ hf (by unfold Fld.ok; decide) ha, fc_setShFld ..⟩

theorem fcStartSched_switches {s : State} (h : s.Inv) {d m g : Nat} (hd : d < 3) (hm : m < fcCount d) (late : Bool)
    (hg : (s.fc d m).sched = some g) : s.FcSwitched (s.fcStartSched d m late) d m g ∧
      (late = true → (s.fcStartSched d m late).fBit d m F.FCH_STATE_LATE_SWITCH = true) := by
  have hs : s.HasFc d m := ⟨h.regs, h.shape.fcs, hd, hm⟩
  have kept : State.Kept ⟨0x20000008, s⟩ (s.fcStartSched d m late) := State.fcStartSched_kept (.refl _) (.refl h)
  obtain ⟨u, hu⟩ : ∃ u, s.modFc d m (fun c => { c with sched := none }) = u := ⟨_, rfl⟩
  obtain ⟨v, hv⟩ : ∃ v, (if late then u.setFBit d m F.FCH_STATE_LATE_SWITCH true else u) = v := ⟨_, rfl⟩
  have hr : s.fcStartSched d m late = v.fcSetTarget d m g := by
    rw [← hv, ← hu]
    unfold State.fcStartSched
    rw [hg]
  have su : s.AtFc u d m := hu ▸ setFc_atFc hs _
  have hcu : (u.fc d m).sched = none := by
    rw [← hu]
    exact congrArg FcRt.sched (fc_setFc hs _)
  have hstu : u.fSt d m = s.fSt d m := hu ▸ fSt_modFc _
  have uv : u.AtFc v d m ∧ v.fcs = u.fcs ∧ v.fSt d m = u.fSt d m ∧ (late = true → v.fBit d m F.FCH_STATE_LATE_SWITCH = true) := by
    have hk := su.hasFc hs
    rw [← hv]
    cases late with
    | false => exact ⟨(State.FcActs.refl hk).toAtFc, rfl, rfl, nofun⟩
    | true =>
      obtain ⟨hat, hbit, hst, hfcs⟩ := setFBit_flag hk (f := F.FCH_STATE_LATE_SWITCH) (by unfold Fld.ok; decide) rfl
        (by unfold Fld.apart; decide)
      exact ⟨hat, hfcs, hst, fun _ => hbit⟩
  obtain ⟨uv, hcv, hstv, hlate⟩ := uv
  have hk := (su.trans uv).hasFc hs
  obtain ⟨vt, hflag, hwants⟩ := fcSetTarget_aims hk g
  have hfc : v.fc d m = u.fc d m := by
    unfold State.fc
    rw [hcv]
  have st := (su.trans uv).trans vt
  rw [hr] at kept ⊢
  refine ⟨⟨?_, congrArg Prod.fst hwants, fun h56 => ?_, st.regs, st.fcs, kept.regsFcs⟩, fun hl => ?_⟩
  · exact (congrArg (fun w => w.2.1) hwants).trans (hfc ▸ hcu)
  · rw [← hstu, ← hstv]
    rw [← hstu, ← hstv] at h56
    exact fcSetTarget_held h56
  · exact (hflag _ (by unfold Fld.ok; decide) (by unfold Fld.apart; decide)).trans (hlate hl)

theorem schedule_field {s : State} {d m : Nat} (hd : d < 3) (hm : m < fcCount d) (hup : (s.die (fieldDie d)).up = true) :
    exec (.scheduledSwitch (fieldDie d) m) s = .next (s.fcStartSched d m false) ∧
    exec (.lateSwitch (fieldDie d) m) s = .next (s.fcStartSched d m true) := by
  have hsched (late : Bool) : s.schedStart (fieldDie d) m late = s.fcStartSched d m late := by
    obtain rfl | rfl | rfl : d = 0 ∨ d = 1 ∨ d = 2 := by omega
    · exact if_pos hm
    · exact if_pos hm
    · exact if_pos hm
  rw [← hsched, ← hsched]
  exact ⟨if_pos hup, if_pos hup⟩

theorem fieldSwitch_idle {s : State} {d m : Nat} (hd : d < 3) (hm : m < fcCount d) (hup : (s.die (fieldDie d)).up = true)
    (hn : (s.fc d m).sched = none) :
    exec (.scheduledSwitch (fieldDie d) m) s = .next s ∧ exec (.lateSwitch (fieldDie d) m) s = .next s := by
  obtain ⟨h1, h2⟩ := schedule_field hd hm hup
  exact ⟨h1.trans (by rw [fcStartSched_idle _ hn]), h2.trans (by rw [fcStartSched_idle _ hn])⟩

theorem fieldSwitch_completes {s : State} (h : s.Inv) {d m g : Nat} (hd : d < 3) (hm : m < fcCount d)
    (hup : (s.die (fieldDie d)).up = true) (hg : g ∈ (s.fc d m).sched) :
    Completes (exec (.scheduledSwitch (fieldDie d) m) s) (fun t => (t.fc d m).sched = none ∧ (t.fc d m).target = g ∧
      ((s.fSt d m = 5 ∨ s.fSt d m = 6) → t.fSt d m = s.fSt d m) ∧ s.OneFc t d m [R.FCH_STATE d m]) ∧
    Completes (exec (.lateSwitch (fieldDie d) m) s) (fun t => (t.fc d m).sched = none ∧ (t.fc d m).target = g ∧
      t.fBit d m F.FCH_STATE_LATE_SWITCH = true ∧ s.OneFc t d m [R.FCH_STATE d m]) := by
  obtain ⟨h1, h2⟩ := schedule_field hd hm hup
  obtain ⟨⟨hsched, htarget, -, hone⟩, hlate⟩ := fcStartSched_switches h hd hm true hg
  exact ⟨⟨_, h1, (fcStartSched_switches h hd hm false hg).1⟩, ⟨_, h2, hsched, htarget, hlate rfl, hone⟩⟩

end Sys2Proof.Machine

namespace Sys2Proof.Machine

/-! ### Channels of a field die one after the other -/

/-- What a step on another channel of the die spares of a channel: its run state, FCH_STATE and FCH_CFG. -/
structure State.FcSpared (s t : State) (d m : Nat) : Prop where
  fc : t.fc d m = s.fc d m
  state : t.shReg (R.FCH_STATE d m) = s.shReg (R.FCH_STATE d m)
  cfg : t.shReg (R.FCH_CFG d m) = s.shReg (R.FCH_CFG d m)

/-- A field die's operation on its channels: of the registers their FCH_STATE, and of the channels the die's own. -/
structure State.AtFcs (s t : State) (d : Nat) : Prop where
  regs : s.RegsBut ((List.range (fcCount d)).map (fun m => dieKey (R.FCH_STATE d m))) t
  fcs : ∀ i, ¬ (112 * d ≤ i ∧ i < 112 * d + fcCount d) → t.fcs[i]? = s.fcs[i]?
  wf : rfWf t.regs = true
  len : t.fcs.length = s.fcs.length

section
variable {s t u : State} {d m y : Nat}

theorem State.FcSpared.refl (s : State) (d m : Nat) : s.FcSpared s d m := ⟨rfl, rfl, rfl⟩

theorem State.FcSpared.trans (h : s.FcSpared t d m) (k : t.FcSpared u d m) : s.FcSpared u d m :=
  ⟨k.fc.trans h.fc, k.state.trans h.state, k.cfg.trans h.cfg⟩

theorem State.FcSpared.fSt (h : s.FcSpared t d m) : t.fSt d m = s.fSt d m := congrArg (getF · F.FCH_STATE_STATE) h.state

theorem State.FcSpared.fBit (h : s.FcSpared t d m) (f : Fld) : t.fBit d m f = s.fBit d m f :=
  congrArg (getF · f == 1) h.state

theorem State.FcSpared.fcfg (h : s.FcSpared t d m) (f : Fld) : t.fcfg d m f = s.fcfg d m f := congrArg (getF · f) h.cfg

theorem State.FcSpared.fMode (h : s.FcSpared t d m) : t.fMode d m = s.fMode d m := h.fcfg _

theorem State.AtFc.spares (h : s.AtFc t d y) (hd : d < 3) (hm : m < fcCount d) (hy : y < fcCount d) (hne : y ≠ m) :
    s.FcSpared t d m := by
  have hm := chanIx_lt hm
  have hy := chanIx_lt hy
  have hreg {a : Nat} (ha : a < 2 ^ 32) (hb : a ≠ R.FCH_STATE d y) : t.shReg a = s.shReg a := by
    refine h.regs.shReg ?_
    rw [List.mem_singleton]
    exact (dieKey_ne ha (by unfold R.FCH_STATE; omega) hb).symm
  refine ⟨?_, hreg (by unfold R.FCH_STATE; omega) (by unfold R.FCH_STATE; omega),
    hreg (by unfold R.FCH_CFG; omega) (by unfold R.FCH_CFG R.FCH_STATE; omega)⟩
  unfold State.fc fcNum
  rw [h.fcs _ (by omega)]

theorem State.AtFc.atFcs (h : s.AtFc t d m) (hm : m < fcCount d) : s.AtFcs t d where
  regs := h.regs.mono fun k hk => by
    rw [List.mem_singleton.mp hk]
    exact List.mem_map.mpr ⟨m, List.mem_range.mpr hm, rfl⟩
  fcs i hi := h.fcs i (by omega)
  wf := h.wf
  len := h.len

theorem State.AtFcs.refl (h : s.Inv) (d : Nat) : s.AtFcs s d := ⟨fun _ _ => rfl, fun _ _ => rfl, h.regs, rfl⟩

theorem State.AtFcs.trans (h : s.AtFcs t d) (k : t.AtFcs u d) : s.AtFcs u d :=
  ⟨h.regs.trans k.regs, fun i hi => (k.fcs i hi).trans (h.fcs i hi), k.wf, k.len.trans h.len⟩

theorem State.AtFcs.hasFc (h : s.AtFcs t d) (hs : s.Inv) (hd : d < 3) (hm : m < fcCount d) : t.HasFc d m :=
  ⟨h.wf, h.len.trans hs.shape.fcs, hd, hm⟩

/-- A loop over channels whose steps touch their own channel alone. -/
theorem fcTurns {g : State → Nat → State} {xs : List Nat} (h : s.Inv) (hd : d < 3) (hm : m < fcCount d)
    (hxs : ∀ y ∈ xs, y < fcCount d) (hg : ∀ (t : State) (y : Nat), t.HasFc d y → t.AtFc (g t y) d y) :
    Turns (fun t => s.AtFcs t d) (fun t u => t.FcSpared u d m) g m xs where
  refl t := .refl t d m
  trans h k := h.trans k
  keeps t y hy ht := ht.trans ((hg t y (ht.hasFc h hd (hxs y hy))).atFcs (hxs y hy))
  spares t y hy hne ht := (hg t y (ht.hasFc h hd (hxs y hy))).spares hd hm (hxs y hy) hne

/-! ### Fail actions of a field die (R254, R323) -/

/-- An output has taken its fail action. -/
structure State.FcTookFail (s t : State) (d m : Nat) : Prop where
  target : (t.fc d m).target = failLevel (s.fcfg d m F.FCH_CFG_FAIL_ACT) (s.fc d m).target
  fallback : s.fcfg d m F.FCH_CFG_FAIL_ACT = 3 → (t.fc d m).fallback = true
  off : s.fcfg d m F.FCH_CFG_FAIL_ACT = 0 → fcConducting (s.fSt d m) = true → t.fSt d m = 0 ∧ (t.fc d m).gate = .off

theorem fcTakeFail_idle (h : isOutMode (s.fMode d m) = false) : s.fcTakeFail d m = s := by
  unfold State.fcTakeFail
  rw [h]
  rfl

theorem fcTakeFail_atFc (hs : s.HasFc d m) : s.AtFc (s.fcTakeFail d m) d m := by
  unfold State.fcTakeFail
  split
  · split
    · exact (fcSetTarget_aims hs 0).1
    · exact (fcSetTarget_aims hs 1).1
    · exact (State.FcActs.refl hs).toAtFc
    · have h := setFc_atFc hs { s.fc d m with fallback := true }
      exact h.trans (fcSetTarget_aims (h.hasFc hs) 2).1
  · exact (State.FcActs.refl hs).toAtFc

theorem fcTakeFail_took (hs : s.HasFc d m) (hm : isOutMode (s.fMode d m) = true) :
    s.FcTookFail (s.fcTakeFail d m) d m := by
  have hset (g : Nat) : ((s.fcSetTarget d m g).fc d m).target = g := congrArg Prod.fst (fcSetTarget_aims hs g).2.2
  unfold State.fcTakeFail
  rw [if_pos hm]
  split
  · next hf =>
    exact ⟨by rw [hf, hset]; rfl, fun h3 => absurd (hf.symm.trans h3) (by decide), fun _ hc => fcSetTarget_off hs hm hc⟩
  · next hf =>
    exact ⟨by rw [hf, hset]; rfl, fun h3 => absurd (hf.symm.trans h3) (by decide),
      fun h0 => absurd (hf.symm.trans h0) (by decide)⟩
  · next hf =>
    exact ⟨by rw [hf]; rfl, fun h3 => absurd (hf.symm.trans h3) (by decide),
      fun h0 => absurd (hf.symm.trans h0) (by decide)⟩
  · next h0 h1 h2 =>
    have hat := setFc_atFc hs { s.fc d m with fallback := true }
    obtain ⟨-, -, hwants⟩ := fcSetTarget_aims (hat.hasFc hs) 2
    refine ⟨(congrArg Prod.fst hwants).trans ?_, fun _ => ?_, fun h => absurd h h0⟩
    · unfold failLevel
      rw [if_neg h0, if_neg h1, if_neg h2]
    · exact (congrArg (fun w => w.2.2.1) hwants).trans (congrArg FcRt.fallback (fc_setFc hs _))

theorem State.FcTookFail.spared (h : s.FcTookFail t d m) (k : t.FcSpared u d m) : s.FcTookFail u d m := by
  refine ⟨?_, ?_, ?_⟩
  · rw [k.fc]; exact h.target
  · rw [k.fc]; exact h.fallback
  · rw [k.fc, k.fSt]; exact h.off

theorem State.FcTookFail.after (k : s.FcSpared t d m) (h : t.FcTookFail u d m) : s.FcTookFail u d m := by
  obtain ⟨h1, h2, h3⟩ := h
  rw [k.fc, k.fcfg] at h1
  rw [k.fcfg] at h2
  rw [k.fcfg, k.fSt] at h3
  exact ⟨h1, h2, h3⟩

end

/-- Every channel of a field die takes its fail action. -/
def State.failFcs (s : State) (d : Nat) : State := s.forEach (List.range (fcCount d)) (fun s m => s.fcTakeFail d m)

theorem failFcs_took {s : State} (h : s.Inv) {d : Nat} (hd : d < 3) : s.AtFcs (s.failFcs d) d ∧ ∀ m < fcCount d,
    (isOutMode (s.fMode d m) = true → s.FcTookFail (s.failFcs d) d m) ∧
    (isOutMode (s.fMode d m) = false → s.FcSpared (s.failFcs d) d m) := by
  have turns {m : Nat} (hm : m < fcCount d) := fcTurns (g := fun s m => s.fcTakeFail d m) h hd hm
    (fun y hy => List.mem_range.mp hy) (fun t y hy => fcTakeFail_atFc hy)
  have start : s.AtFcs s d := .refl h d
  refine ⟨(turns (m := 0) ?_).ok_forEach start, fun m hm => ?_⟩
  · unfold fcCount
    split <;> decide
  obtain ⟨u, hu, hbefore, hafter⟩ := (turns hm).turn start (List.mem_range.mpr hm) List.nodup_range
  have hmode := hbefore.fMode
  constructor
  · intro ho
    exact .after hbefore ((fcTakeFail_took (hu.hasFc h hd hm) (hmode.symm ▸ ho)).spared hafter)
  · intro ho
    rw [fcTakeFail_idle (hmode ▸ ho)] at hafter
    exact hbefore.trans hafter

theorem failAction_field {s : State} {d : Nat} (hd : d < 3) (hup : (s.die (fieldDie d)).up = true) (hf : s.mod_.frozen = false)
    (hka : s.fdBit d F.FCH_DIE_STATUS_KA_LOST = true) : exec (.failAction (fieldDie d)) s = .next (s.failField d) := by
  have hgo : (!(s.die (fieldDie d)).up || s.mod_.frozen || !s.fdBit d F.FCH_DIE_STATUS_KA_LOST) = false := by
    rw [hup, hf, hka]
    rfl
  obtain rfl | rfl | rfl : d = 0 ∨ d = 1 ∨ d = 2 := by omega
  · exact if_neg (Bool.eq_false_iff.mp hgo)
  · exact if_neg (Bool.eq_false_iff.mp hgo)
  · exact if_neg (Bool.eq_false_iff.mp hgo)

theorem failField_eq (s : State) (d : Nat) :
    s.failField d = (s.failFcs d).setShBit (R.FCH_DIE_STATUS d) F.FCH_DIE_STATUS_FAIL_APPLIED true := rfl

theorem sharedReg_fieldStatus : ∀ d < 3, sharedReg (R.FCH_DIE_STATUS d) = true := by decide

/-- A register of a channel is not the die's status register. -/
theorem spared_flag {s : State} {d m : Nat} (w : rfWf s.regs = true) (hd : d < 3) (hm : m < fcCount d) {f : Fld} (hf : Fld.ok f)
    (h1 : f.lo = f.hi) : s.FcSpared (s.setShBit (R.FCH_DIE_STATUS d) f true) d m := by
  have hm := chanIx_lt hm
  obtain ⟨-, hregs, -, hfcs⟩ := setShBit_flags w (sharedReg_fieldStatus d hd) hf h1
  have hreg {a : Nat} (ha : a < 2 ^ 32) (hb : a ≠ R.FCH_DIE_STATUS d) :
      (s.setShBit (R.FCH_DIE_STATUS d) f true).shReg a = s.shReg a := by
    refine hregs.shReg ?_
    rw [List.mem_singleton]
    exact (dieKey_ne ha (by unfold R.FCH_DIE_STATUS; omega) hb).symm
  refine ⟨?_, hreg (by unfold R.FCH_STATE; omega) (by unfold R.FCH_STATE R.FCH_DIE_STATUS; omega),
    hreg (by unfold R.FCH_CFG; omega) (by unfold R.FCH_CFG R.FCH_DIE_STATUS; omega)⟩
  unfold State.fc
  rw [hfcs]

theorem fieldFail_completes {s : State} (h : s.Inv) {d : Nat} (hd : d < 3) (hup : (s.die (fieldDie d)).up = true)
    (hf : s.mod_.frozen = false) (hka : s.fdBit d F.FCH_DIE_STATUS_KA_LOST = true) :
    Completes (exec (.failAction (fieldDie d)) s) (fun t =>
      t.fdBit d F.FCH_DIE_STATUS_FAIL_APPLIED = true ∧
      (∀ m < fcCount d,
        let fa := s.fcfg d m F.FCH_CFG_FAIL_ACT
        (isOutMode (s.fMode d m) = true → (t.fc d m).target = (if fa = 0 then 0 else if fa = 1 then 1
            else if fa = 2 then (s.fc d m).target else 2) ∧ (fa = 3 → (t.fc d m).fallback = true) ∧
          (fa = 0 → fcConducting (s.fSt d m) = true → t.fSt d m = 0 ∧ (t.fc d m).gate = .off)) ∧
        (isOutMode (s.fMode d m) = false → t.fc d m = s.fc d m ∧ t.shReg (R.FCH_STATE d m) = s.shReg (R.FCH_STATE d m))) ∧
      (∀ i, ¬ (112 * d ≤ i ∧ i < 112 * d + fcCount d) → t.fcs[i]? = s.fcs[i]?) ∧
      s.RegsBut (dieKey (R.FCH_DIE_STATUS d) :: (List.range (fcCount d)).map (fun m => dieKey (R.FCH_STATE d m))) t ∧
      t = { s with regs := t.regs, fcs := t.fcs }) := by
  refine ⟨_, failAction_field hd hup hf hka, ?_⟩
  have kept : State.Kept ⟨0x20000008, s⟩ (s.failField d) := State.failField_kept (.refl _) (.refl h)
  obtain ⟨hat, htook⟩ := failFcs_took h hd
  rw [failField_eq] at kept ⊢
  have hok : Fld.ok F.FCH_DIE_STATUS_FAIL_APPLIED := by unfold Fld.ok; decide
  obtain ⟨hbit, hregs, -, hfcs⟩ := setShBit_flags hat.wf (sharedReg_fieldStatus d hd) hok rfl
  have hlast {m : Nat} (hm : m < fcCount d) := spared_flag hat.wf hd hm hok rfl
  generalize (s.failFcs d).setShBit (R.FCH_DIE_STATUS d) F.FCH_DIE_STATUS_FAIL_APPLIED true = t at *
  refine ⟨hbit, fun m hm => ⟨fun ho => ?_, fun hi => ?_⟩, fun i hi => by rw [hfcs, hat.fcs i hi], ?_, kept.regsFcs⟩
  · obtain ⟨htarget, hfallback, hoff⟩ := ((htook m hm).1 ho).spared (hlast hm)
    exact ⟨htarget, hfallback, hoff⟩
  · have hs := ((htook m hm).2 hi).trans (hlast hm)
    exact ⟨hs.fc, hs.state⟩
  · refine (hat.regs.mono fun _ hk => List.mem_cons_of_mem _ hk).trans (hregs.mono fun k hk => ?_)
    rw [List.mem_singleton.mp hk]
    exact List.mem_cons_self

end Sys2Proof.Machine

namespace Sys2Proof.Machine

/-! ### Urgent commands at a field die (R257, R264, R323) -/

/-- What an urgent command makes of one channel of its mask. -/
def State.urgentFc (s : State) (d m : Nat) (u : Urgent) : State :=
  if isOutMode (s.fMode d m) then
    let s := (s.modFc d m (fun x => { x with urgSeal := some u.sealCyc, sched := none })).setFBit d m F.FCH_STATE_URGENT_OFF true
    if u.act = 1 then s.fcSetTarget d m 0 else s.fcTakeFail d m
  else s

/-- What an urgent command makes of the channels of its mask. -/
def State.urgentFcs (s : State) (d : Nat) (u : Urgent) : State :=
  s.forEach (maskBits (fcCount d) u.mask) (fun s m => s.urgentFc d m u)

/-- An output has been turned off by an urgent command. -/
structure State.TurnedOff (s t : State) (d m cycle : Nat) : Prop where
  target : (t.fc d m).target = 0
  flag : t.fBit d m F.FCH_STATE_URGENT_OFF = true
  lock : (t.fc d m).urgSeal = some cycle
  off : fcConducting (s.fSt d m) = true → t.fSt d m = 0 ∧ (t.fc d m).gate = .off

section
variable {s t v : State} {d m : Nat}

theorem State.TurnedOff.spared {c : Nat} (h : s.TurnedOff t d m c) (k : t.FcSpared v d m) : s.TurnedOff v d m c := by
  refine ⟨?_, (k.fBit _).trans h.flag, ?_, ?_⟩
  · rw [k.fc]; exact h.target
  · rw [k.fc]; exact h.lock
  · rw [k.fc, k.fSt]; exact h.off

theorem State.TurnedOff.after {c : Nat} (k : s.FcSpared t d m) (h : t.TurnedOff v d m c) : s.TurnedOff v d m c :=
  ⟨h.target, h.flag, h.lock, k.fSt ▸ h.off⟩

/-- The channel under its urgent seal, before the command's action. -/
def State.sealFc (s : State) (d m c : Nat) : State :=
  (s.modFc d m (fun x => { x with urgSeal := some c, sched := none })).setFBit d m F.FCH_STATE_URGENT_OFF true

theorem sealFc_seals (hs : s.HasFc d m) (c : Nat) : s.AtFc (s.sealFc d m c) d m ∧
    (s.sealFc d m c).fBit d m F.FCH_STATE_URGENT_OFF = true ∧ ((s.sealFc d m c).fc d m).urgSeal = some c ∧
    (s.sealFc d m c).fSt d m = s.fSt d m := by
  have h := setFc_atFc hs { s.fc d m with urgSeal := some c, sched := none }
  obtain ⟨hat, hbit, hst, hfcs⟩ := setFBit_flag (h.hasFc hs) (f := F.FCH_STATE_URGENT_OFF) (by unfold Fld.ok; decide) rfl
    (by unfold Fld.apart; decide)
  refine ⟨h.trans hat, hbit, ?_, hst⟩
  have hfc : (s.sealFc d m c).fc d m = { s.fc d m with urgSeal := some c, sched := none } := by
    rw [← fc_setFc hs { s.fc d m with urgSeal := some c, sched := none }]
    exact congrArg (fun cs => (cs[fcNum d m]?).getD .reset) hfcs
  rw [hfc]

theorem urgentFc_eq (s : State) (d m : Nat) (u : Urgent) : s.urgentFc d m u =
    if isOutMode (s.fMode d m) then
      if u.act = 1 then (s.sealFc d m u.sealCyc).fcSetTarget d m 0 else (s.sealFc d m u.sealCyc).fcTakeFail d m
    else s := rfl

theorem urgentFc_atFc (hs : s.HasFc d m) (u : Urgent) : s.AtFc (s.urgentFc d m u) d m := by
  have h := (sealFc_seals hs u.sealCyc).1
  rw [urgentFc_eq]
  split
  · split
    · exact h.trans (fcSetTarget_aims (h.hasFc hs) 0).1
    · exact h.trans (fcTakeFail_atFc (h.hasFc hs))
  · exact (State.FcActs.refl hs).toAtFc

theorem urgentFc_turnsOff (hs : s.HasFc d m) {u : Urgent} (ha : u.act = 1) (ho : isOutMode (s.fMode d m) = true) :
    s.TurnedOff (s.urgentFc d m u) d m u.sealCyc := by
  obtain ⟨hat, hbit, hseal, hst⟩ := sealFc_seals hs u.sealCyc
  have hk := hat.hasFc hs
  have hmode : (s.sealFc d m u.sealCyc).fMode d m = s.fMode d m := fcMode_atFc hs hat _
  have haims := fcSetTarget_aims hk 0
  rw [urgentFc_eq, if_pos ho, if_pos ha]
  refine ⟨haims.target, ?_, haims.urgSeal.trans hseal, fun hc => ?_⟩
  · exact (haims.2.1 _ (by unfold Fld.ok; decide) (by unfold Fld.apart; decide)).trans hbit
  · rw [← hmode] at ho
    rw [← hst] at hc
    exact fcSetTarget_off hk ho hc

theorem urgentFcs_turns (h : s.Inv) (hd : d < 3) (u : Urgent) : s.AtFcs (s.urgentFcs d u) d ∧ ∀ m < fcCount d,
    (u.mask.testBit m = false → s.FcSpared (s.urgentFcs d u) d m) ∧
    (u.act = 1 → u.mask.testBit m = true → isOutMode (s.fMode d m) = true → s.TurnedOff (s.urgentFcs d u) d m u.sealCyc) := by
  have turns {m : Nat} (hm : m < fcCount d) := fcTurns (g := fun s m => s.urgentFc d m u) (xs := maskBits (fcCount d) u.mask)
    h hd hm (fun y hy => mask_lt hy) (fun t y hy => urgentFc_atFc hy u)
  have start : s.AtFcs s d := .refl h d
  refine ⟨(turns (m := 0) ?_).ok_forEach start, fun m hm => ⟨fun hb => ?_, fun ha hb ho => ?_⟩⟩
  · unfold fcCount
    split <;> decide
  · refine (turns hm).spared_forEach start fun hx => ?_
    rw [(List.mem_filter.mp hx).2] at hb
    cases hb
  · obtain ⟨v, hv, hbefore, hafter⟩ := (turns hm).turn start (mem_maskBits hm hb) (List.nodup_range.filter _)
    exact .after hbefore ((urgentFc_turnsOff (hv.hasFc h hd hm) ha (hbefore.fMode.symm ▸ ho)).spared hafter)

theorem urgentField_eq (s : State) (d : Nat) (u : Urgent) :
    s.urgentField d u = (s.urgentFcs d u).setShBit (R.FCH_DIE_STATUS d) F.FCH_DIE_STATUS_URGENT_APPLIED true := rfl

theorem urgentField_turns (h : s.Inv) (hd : d < 3) (u : Urgent) (hm : m < fcCount d) :
    (u.mask.testBit m = false → s.FcSpared (s.urgentField d u) d m) ∧
    (u.act = 1 → u.mask.testBit m = true → isOutMode (s.fMode d m) = true → s.TurnedOff (s.urgentField d u) d m u.sealCyc) := by
  obtain ⟨hat, hturn⟩ := urgentFcs_turns h hd u
  obtain ⟨hspare, hoff⟩ := hturn m hm
  have hlast := spared_flag hat.wf hd hm (f := F.FCH_DIE_STATUS_URGENT_APPLIED) (by unfold Fld.ok; decide) rfl
  rw [urgentField_eq]
  exact ⟨fun hb => (hspare hb).trans hlast, fun ha hb ho => (hoff ha hb ho).spared hlast⟩

/-- The end of a command's entry leaves the channels of the field dies. -/
theorem done_spares (s : State) (n : Nat) (hd : d < 3) (hm : m < fcCount d) (hf : (s.done n).fcs = s.fcs) :
    s.FcSpared (s.done n) d m := by
  have hm := chanIx_lt hm
  have hreg {a : Nat} (ha : a < 2 ^ 32) (hs : sharedReg a = true) : (s.done n).shReg a = s.shReg a := by
    refine (Calm.dies.dispose s n 0 (d := dDONE) (by decide)).get ?_
    show (regKey 0 a / homeSpan == 2) = true
    rw [regKey_shared hs, beq_iff_eq]
    unfold dieKey homeSpan
    omega
  refine ⟨?_, hreg (by unfold R.FCH_STATE; omega) (sharedReg_fchState (by omega) hm),
    hreg (by unfold R.FCH_CFG; omega) (sharedReg_field (by unfold slotOf R.FCH_CFG; omega) (by unfold R.FCH_CFG; omega))⟩
  unfold State.fc
  rw [hf]

/-- What the first urgent command on its way to a field die makes of the die, before its entry ends. -/
def State.urgentAt (s : State) (d : Nat) (u : Urgent) : State :=
  let s := { s with urgents := s.urgents.erase u }
  if (s.die (fieldDie d)).highEpoch.getD 0 ≤ u.epoch then s.urgentField d u else s

/-- The entry of an urgent command is done once no die has still to take it (R264). -/
def State.urgentEnd (s : State) (u : Urgent) : State := if s.urgents.any (fun v => v.lsn == u.lsn) then s else s.done u.lsn

theorem urgentCommand_field (hd : d < 3) (hup : (s.die (fieldDie d)).up = true) {u : Urgent}
    (hu : s.urgents.find? (fun v => v.die == fieldDie d) = some u) :
    exec (.urgentCommand (fieldDie d)) s = .next ((s.urgentAt d u).urgentEnd u) := by
  have hgo : ¬ (!(s.die (fieldDie d)).up) = true := by
    rw [hup]
    decide
  show execUrgentCommand (fieldDie d) s = _
  unfold execUrgentCommand
  rw [hu]
  refine (if_neg hgo).trans ?_
  obtain rfl | rfl | rfl : d = 0 ∨ d = 1 ∨ d = 2 := by omega
  · rfl
  · rfl
  · rfl

theorem urgentEnd_kept {φ : Frame} {u : Urgent} (hm : Sub 0x14000000000000108 φ.fx) (h : s.Kept φ) :
    State.Kept φ (s.urgentEnd u) := by
  unfold State.urgentEnd
  split
  · exact h
  · exact State.done_kept hm h

theorem takeUrgent_kept {φ : Frame} {us : List Urgent} (hm : Sub 0x1000000 φ.fx) (h : s.Kept φ) :
    State.Kept φ { s with urgents := us } := by
  simp only [kept_mk, hm.bit 24 rfl, or_true, true_or]
  exact h

theorem urgentEnd_fcs (h : s.Inv) (u : Urgent) : (s.urgentEnd u).fcs = s.fcs := by
  have kept : State.Kept ⟨0x14000000000000108, s⟩ (s.urgentEnd u) := urgentEnd_kept (.refl _) (.refl h)
  exact kept.only.fcs.resolve_right (show ¬ Nat.testBit 0x14000000000000108 29 = true by decide)

/-- The end of the entry leaves the channels. -/
theorem urgentEnd_spares (h : s.Inv) (u : Urgent) (hd : d < 3) (hm : m < fcCount d) : s.FcSpared (s.urgentEnd u) d m := by
  have hfcs := urgentEnd_fcs h u
  unfold State.urgentEnd at hfcs ⊢
  split
  · exact .refl s d m
  · next hn =>
    rw [if_neg hn] at hfcs
    exact done_spares s u.lsn hd hm hfcs

/-- The state in which a die has taken an urgent command off its way. -/
def State.takeUrgent (s : State) (u : Urgent) : State := { s with urgents := s.urgents.erase u }

/-- An urgent command whose epoch is not old acts on the die; one with an old epoch does not (R257). -/
theorem urgentAt_cases (s : State) (d : Nat) (u : Urgent) :
    ((s.die (fieldDie d)).highEpoch.getD 0 ≤ u.epoch ∧ s.urgentAt d u = (s.takeUrgent u).urgentField d u) ∨
      (u.epoch < (s.die (fieldDie d)).highEpoch.getD 0 ∧ s.urgentAt d u = s.takeUrgent u) := by
  have hdie : (s.takeUrgent u).die (fieldDie d) = s.die (fieldDie d) := by
    cases fieldDie d <;> rfl
  have hat : s.urgentAt d u = if ((s.takeUrgent u).die (fieldDie d)).highEpoch.getD 0 ≤ u.epoch then
      (s.takeUrgent u).urgentField d u else s.takeUrgent u := rfl
  rw [hat, hdie]
  by_cases he : (s.die (fieldDie d)).highEpoch.getD 0 ≤ u.epoch
  · exact .inl ⟨he, if_pos he⟩
  · exact .inr ⟨Nat.lt_of_not_le he, if_neg he⟩

/-- What an urgent command at a field die may change beside its place on the way. -/
theorem urgentAt_kept (h : s.Inv) (u : Urgent) : (s.takeUrgent u).Inv ∧
    State.Kept ⟨0x14000000020000108, s.takeUrgent u⟩ (s.urgentAt d u) := by
  have hk : State.Kept ⟨0x1000000, s⟩ (s.takeUrgent u) := takeUrgent_kept (.refl _) (.refl h)
  have hv := hk.inv
  refine ⟨hv, ?_⟩
  obtain ⟨-, he⟩ | ⟨-, he⟩ := urgentAt_cases s d u
  · rw [he]
    exact State.urgentField_kept (Sub.of (.refl 0x14000000020000108) (by decide)) (.refl hv)
  · rw [he]
    exact .refl hv

theorem State.Kept.urgentFrame {t : State} {u : Urgent} (k : State.Kept ⟨0x14000000020000108, s.takeUrgent u⟩ t) :
    t.urgents = s.urgents.erase u ∧
      t = { s with regs := t.regs, fcs := t.fcs, urgents := t.urgents, led := t.led, grants := t.grants,
                   quiesces := t.quiesces } := by
  have hu : t.urgents = s.urgents.erase u :=
    k.only.urgents.resolve_right (show ¬ Nat.testBit 0x14000000020000108 24 = true by decide)
  have hmix : t = { s.takeUrgent u with regs := t.regs, fcs := t.fcs, led := t.led, grants := t.grants,
                                        quiesces := t.quiesces } := k.mix
  refine ⟨hu, ?_⟩
  rw [hu]
  exact hmix

theorem urgentCommand_completes (h : s.Inv) (hd : d < 3) (hup : (s.die (fieldDie d)).up = true) {u : Urgent}
    (hu : s.urgents.find? (fun v => v.die == fieldDie d) = some u) :
    Completes (exec (.urgentCommand (fieldDie d)) s) (fun t => t.urgents = s.urgents.erase u ∧
      (u.act = 1 → ((s.die (fieldDie d)).highEpoch).getD 0 ≤ u.epoch → ∀ m < fcCount d, u.mask.testBit m = true →
        isOutMode (s.fMode d m) = true → (t.fc d m).target = 0 ∧ t.fBit d m F.FCH_STATE_URGENT_OFF = true ∧
          (t.fc d m).urgSeal = some u.sealCyc ∧ (fcConducting (s.fSt d m) = true → t.fSt d m = 0 ∧ (t.fc d m).gate = .off)) ∧
      (u.epoch < ((s.die (fieldDie d)).highEpoch).getD 0 → t.fcs = s.fcs) ∧
      (∀ m < fcCount d, u.mask.testBit m = false → t.fc d m = s.fc d m ∧ t.fSt d m = s.fSt d m) ∧
      t = { s with regs := t.regs, fcs := t.fcs, urgents := t.urgents, led := t.led, grants := t.grants,
                   quiesces := t.quiesces }) := by
  refine ⟨_, urgentCommand_field hd hup hu, ?_⟩
  obtain ⟨hv, kat⟩ := urgentAt_kept (d := d) h u
  have kend : State.Kept ⟨0x14000000020000108, s.takeUrgent u⟩ ((s.urgentAt d u).urgentEnd u) :=
    urgentEnd_kept (Sub.of (.refl 0x14000000020000108) (by decide)) kat
  have hend {m : Nat} (hm : m < fcCount d) := urgentEnd_spares kat.inv u hd hm
  have hfcs := urgentEnd_fcs kat.inv u
  have hfirst (m : Nat) : s.FcSpared (s.takeUrgent u) d m := ⟨rfl, rfl, rfl⟩
  obtain ⟨hurgents, hframe⟩ := kend.urgentFrame
  obtain ⟨hle, he⟩ | ⟨hlt, he⟩ := urgentAt_cases s d u
  · rw [he] at hend
    refine ⟨hurgents, fun ha _ m hm hb ho => ?_, fun hlt => absurd hle (Nat.not_le_of_lt hlt), fun m hm hb => ?_, hframe⟩
    · have hoff := (urgentField_turns hv hd u hm).2 ha hb ho
      obtain ⟨htarget, hflag, hlock, hdark⟩ := (State.TurnedOff.after (hfirst m) hoff).spared (hend hm)
      exact he ▸ ⟨htarget, hflag, hlock, hdark⟩
    · have hs := ((hfirst m).trans ((urgentField_turns hv hd u hm).1 hb)).trans (hend hm)
      exact he ▸ ⟨hs.fc, hs.fSt⟩
  · rw [he] at hend hfcs
    refine ⟨hurgents, fun _ hle => absurd hle (Nat.not_le_of_lt hlt), fun _ => he ▸ hfcs, fun m hm _ => ?_, hframe⟩
    have hs := (hfirst m).trans (hend hm)
    exact he ▸ ⟨hs.fc, hs.fSt⟩

end

end Sys2Proof.Machine

namespace Sys2Proof.Machine

/-! ### Keep-alive and the command link clock (R33, R126, R254) -/

theorem kaPlace_flag {d : Die} {p : Nat × Fld} (h : kaPlace d = some p) :
    sharedReg p.1 = true ∧ Fld.ok p.2 ∧ p.2.lo = p.2.hi := by
  cases d <;> cases h <;> refine ⟨by decide, by unfold Fld.ok; decide, rfl⟩

theorem keepaliveTimeout_eq {s : State} {d : Die} {p : Nat × Fld} (h : kaPlace d = some p) :
    exec (.keepaliveTimeout d) s =
      if (s.die d).up && !s.mod_.frozen && (s.die d).lastCycle.isSome then .next (s.setShBit p.1 p.2 true) else .next s := by
  show execKeepaliveTimeout d s = _
  unfold execKeepaliveTimeout
  rw [h]

theorem keepaliveTimeout_frozen {s : State} {d : Die} {p : Nat × Fld} (h : kaPlace d = some p) (hf : s.mod_.frozen = true) :
    exec (.keepaliveTimeout d) s = .next s := by
  rw [keepaliveTimeout_eq h, hf, Bool.not_true, Bool.and_false, Bool.false_and]
  rfl

theorem keepaliveTimeout_completes {s : State} (h : s.Inv) {d : Die} {p : Nat × Fld} (hp : kaPlace d = some p)
    (hup : (s.die d).up = true) (hc : (s.die d).lastCycle.isSome = true) (hf : s.mod_.frozen = false) :
    Completes (exec (.keepaliveTimeout d) s) (fun t => t.shBit p.1 p.2 = true ∧ s.OnlyRegs [dieKey p.1] t) := by
  obtain ⟨hshared, hok, hone⟩ := kaPlace_flag hp
  obtain ⟨hbit, hregs, -⟩ := setShBit_flags h.regs hshared hok hone
  refine ⟨_, (keepaliveTimeout_eq hp).trans ?_, hbit, hregs, rfl⟩
  rw [hup, hf, hc]
  rfl

theorem clockLoss_completes (s : State) {d : Die} (l : Lane) (h : d ≠ .CMN) :
    Completes (exec (.commandLinkClockLoss d l) s) (fun t => (t.die d).clockPort = some l.other ∧
      t = s.setDie d { s.die d with clockPort := some l.other }) := by
  refine ⟨_, if_neg h, ?_, rfl⟩
  rw [State.die_setDie]

end Sys2Proof.Machine

namespace Sys2Proof.Machine

/-! ### What runs on a die that lost its state (R245, R252, R275, R319) -/

/-- A power die holds no configuration, and its outputs are off with target off. -/
def State.PowerDark (t : State) (k : Nat) : Prop :=
  (t.pw k).configured = false ∧ ∀ x < 32, (t.out k x).gate = .off ∧ (t.out k x).target = 0

/-- A field die holds no configuration, and its outputs are off with target off. -/
def State.FieldDark (t : State) (k : Nat) : Prop :=
  (t.fd k).configured = false ∧ ∀ m < fcCount k, (t.fc k m).gate = .off ∧ (t.fc k m).target = 0

section
variable {s t : State} {k : Nat}

theorem State.PowerDark.of (h : s.PowerDark k) (ho : t.outs = s.outs) (h0 : t.pw0 = s.pw0) (h1 : t.pw1 = s.pw1) : t.PowerDark k := by
  unfold State.PowerDark State.pw State.out at *
  rw [ho, h0, h1]
  exact h

theorem State.FieldDark.of (h : s.FieldDark k) (hc : t.fcs = s.fcs) (h0 : t.fd0 = s.fd0) (h1 : t.fd1 = s.fd1)
    (h2 : t.fd2 = s.fd2) : t.FieldDark k := by
  unfold State.FieldDark State.fd State.fc at *
  rw [hc, h0, h1, h2]
  exact h

/-- None of the fields of a field die is among the fields. -/
def NoField (m : Nat) : Prop := m.testBit 29 = false ∧ m.testBit 30 = false ∧ m.testBit 31 = false ∧ m.testBit 32 = false

theorem State.FieldDark.kept {m : Nat} (h : s.FieldDark k) (kt : State.Kept ⟨m, s⟩ t) (hm : NoField m) : t.FieldDark k := by
  obtain ⟨h29, h30, h31, h32⟩ := hm
  have ko : State.Only m s t := kt.only
  exact h.of (ko.fcs.resolve_right (by rw [h29]; decide)) (ko.fd0.resolve_right (by rw [h30]; decide))
    (ko.fd1.resolve_right (by rw [h31]; decide)) (ko.fd2.resolve_right (by rw [h32]; decide))

theorem State.PowerDark.kept (h : s.PowerDark k) (kt : State.Kept ⟨0x8, s⟩ t) : t.PowerDark k := by
  have ko : State.Only 0x8 s t := kt.only
  exact h.of (ko.outs.resolve_right (by decide)) (ko.pw0.resolve_right (by decide)) (ko.pw1.resolve_right (by decide))

/-- A record of a die is no output. -/
theorem setDie_dark (s : State) (d : Die) (x : DieRt) (k : Nat) : (s.PowerDark k → (s.setDie d x).PowerDark k) ∧
    (s.FieldDark k → (s.setDie d x).FieldDark k) := by
  cases d <;> exact ⟨fun h => h.of rfl rfl rfl, fun h => h.of rfl rfl rfl rfl⟩

theorem pw_setPw (hk : k < 2) (p : PowerRt) : (s.setPw k p).pw k = p := by
  obtain rfl | rfl : k = 0 ∨ k = 1 := by omega
  · rfl
  · rfl

theorem fd_setFd (hk : k < 3) (p : FieldRt) : (s.setFd k p).fd k = p := by
  obtain rfl | rfl | rfl : k = 0 ∨ k = 1 ∨ k = 2 := by omega
  · rfl
  · rfl
  · rfl

theorem fd_setFi (s : State) (p : FieldRt) : (s.setFd 2 p).fd 1 = s.fd1 := rfl

theorem setPw_outs (s : State) (k : Nat) (p : PowerRt) : (s.setPw k p).outs = s.outs := by
  unfold State.setPw
  split <;> rfl

theorem setFd_fcs (s : State) (k : Nat) (p : FieldRt) : (s.setFd k p).fcs = s.fcs := by
  unfold State.setFd
  split
  · rfl
  · split <;> rfl

/-- The outputs of a power die with their run states at reset, but for their tallies. -/
def State.resetOuts (s : State) (k : Nat) : State :=
  s.forEach (List.range 32) (fun s x => s.modOut k x (fun o => { OutRt.reset with tallyE := o.tallyE, tallyW := o.tallyW }))

theorem resetOuts_dark (h : s.Inv) (hk : k < 2) {x : Nat} (hx : x < 32) :
    ((s.resetOuts k).out k x).gate = .off ∧ ((s.resetOuts k).out k x).target = 0 := by
  have start : s.HasOut k x := ⟨h.regs, h.shape.outs, hk, hx⟩
  refine forEach_reaches (keeps := fun t => t.HasOut k x)
    (reached := fun t => (t.out k x).gate = .off ∧ (t.out k x).target = 0) (List.mem_range.mpr hx) (fun t y hy ht => ?_)
    (fun t ht => ?_) (fun t y hy hne ht => ?_) start
  · exact ⟨ht.wf, (State.outs_setOut ..).trans ht.len, hk, hx⟩
  · have ho := out_setOut ht { OutRt.reset with tallyE := (t.out k x).tallyE, tallyW := (t.out k x).tallyW }
    exact ⟨congrArg OutRt.gate ho, congrArg OutRt.target ho⟩
  · have ho (o : OutRt) : (t.setOut k y o).out k x = t.out k x := by
      unfold State.out State.setOut
      rw [List.getElem?_set_ne (by omega)]
    rw [State.modOut, ho]
    exact ht

theorem restartPower_dark (h : s.Inv) (hk : k < 2) : (s.restartPower k).PowerDark k := by
  have hr : s.restartPower k =
      ((s.resetOuts k).forEach [3 * k + 1, 3 * k + 2, 3 * k + 3] (fun s f => s.setFeedRt f ⟨200, 0, []⟩)).setPw k .reset := rfl
  have ka : State.Kept ⟨0x2000000, s⟩ (s.resetOuts k) :=
    State.forEach_kept (.refl h) fun _ _ ht => State.modOut_kept (.refl _) ht
  have kb : State.Kept ⟨0x4000000, s.resetOuts k⟩
      ((s.resetOuts k).forEach [3 * k + 1, 3 * k + 2, 3 * k + 3] (fun s f => s.setFeedRt f ⟨200, 0, []⟩)) :=
    State.forEach_kept (.refl ka.inv) fun _ _ ht => State.setFeedRt_kept (.refl _) ht
  have kbo : State.Only 0x4000000 (s.resetOuts k) _ := kb.only
  have houts := (setPw_outs _ k .reset).trans (kbo.outs.resolve_right (by decide))
  rw [hr]
  refine ⟨by rw [pw_setPw hk]; rfl, fun x hx => ?_⟩
  unfold State.out
  rw [houts]
  exact resetOuts_dark h hk hx

/-- The channels of a field die with their run states at reset. -/
def State.resetFcs (s : State) (k : Nat) : State := s.forEach (List.range (fcCount k)) (fun s m => s.setFc k m .reset)

theorem resetFcs_turns (h : s.Inv) (hk : k < 3) : s.AtFcs (s.resetFcs k) k ∧
    ∀ m < fcCount k, ((s.resetFcs k).fc k m) = .reset := by
  have turns {m : Nat} (hm : m < fcCount k) := fcTurns (g := fun s m => s.setFc k m .reset) h hk hm
    (fun y hy => List.mem_range.mp hy) (fun t y hy => setFc_atFc hy .reset)
  have start : s.AtFcs s k := .refl h k
  refine ⟨(turns (m := 0) ?_).ok_forEach start, fun m hm => ?_⟩
  · unfold fcCount
    split <;> decide
  · obtain ⟨u, hu, -, hafter⟩ := (turns hm).turn start (List.mem_range.mpr hm) List.nodup_range
    exact hafter.fc.trans (fc_setFc (hu.hasFc h hk hm) .reset)

theorem restartField_eq (s : State) (k : Nat) : s.restartField k = (s.resetFcs k).setFd k .reset := rfl

theorem restartField_dark (h : s.Inv) (hk : k < 3) : (s.restartField k).FieldDark k := by
  rw [restartField_eq]
  refine ⟨by rw [fd_setFd hk]; rfl, fun m hm => ?_⟩
  have hfc : ((s.resetFcs k).setFd k .reset).fc k m = .reset := by
    unfold State.fc
    rw [setFd_fcs]
    exact (resetFcs_turns h hk).2 m hm
  rw [hfc]
  exact ⟨rfl, rfl⟩

/-- FI's restart is none of F1's. -/
theorem restartFi_dark (h : s.Inv) (hd : s.FieldDark 1) : (s.restartField 2).FieldDark 1 := by
  have ka : State.Kept ⟨0x20000000, s⟩ (s.resetFcs 2) :=
    State.forEach_kept (.refl h) fun _ _ ht => State.setFc_kept (.refl _) ht
  have kao : State.Only 0x20000000 s (s.resetFcs 2) := ka.only
  rw [restartField_eq]
  refine ⟨?_, fun m hm => ?_⟩
  · rw [fd_setFi, kao.fd1.resolve_right (by decide)]
    exact hd.1
  have hm' := chanIx_lt hm
  have hfc : ((s.resetFcs 2).setFd 2 .reset).fc 1 m = s.fc 1 m := by
    unfold State.fc fcNum
    rw [setFd_fcs, (resetFcs_turns h (by decide)).1.fcs _ (by omega)]
  rw [hfc]
  exact hd.2 m hm

end

end Sys2Proof.Machine

namespace Sys2Proof.Machine

/-! ### SUPPLY_LOST of FI (R321, R322) -/

section
variable {s : State} {m : Nat}

theorem fcDip_atFc {d : Nat} (hs : s.HasFc d m) : s.AtFc (s.fcDip d m) d m := by
  unfold State.fcDip
  extract_lets st
  split
  · exact (fcOff_acts hs oDIP).toAtFc
  · exact (State.FcActs.refl hs).toAtFc

/-- An output that is off with target off stays so. -/
theorem fcDip_dark {d : Nat} (hs : s.HasFc d m) (h : (s.fc d m).gate = .off ∧ (s.fc d m).target = 0) :
    ((s.fcDip d m).fc d m).gate = .off ∧ ((s.fcDip d m).fc d m).target = 0 := by
  unfold State.fcDip
  extract_lets st
  split
  · refine ⟨?_, ((congrArg Prod.fst (fcOff_acts hs oDIP).wants)).trans h.2⟩
    unfold State.fcOff
    exact congrArg FcRt.gate (fc_setFc ((setFSt_acts hs oDIP).toAtFc.hasFc hs) _)
  · exact h

/-- Every output of FI goes to DIP. -/
def State.dipFi (s : State) : State := s.forEach (List.range 32) (fun s m => s.fcDip 2 m)

theorem dipFi_turns (h : s.Inv) : s.AtFcs s.dipFi 2 ∧
    ∀ m < 32, (s.fc 2 m).gate = .off ∧ (s.fc 2 m).target = 0 → (s.dipFi.fc 2 m).gate = .off ∧ (s.dipFi.fc 2 m).target = 0 := by
  have turns {m : Nat} (hm : m < fcCount 2) := fcTurns (g := fun s m => s.fcDip 2 m) (xs := List.range 32) h (by decide) hm
    (fun y hy => List.mem_range.mp hy) (fun t y hy => fcDip_atFc hy)
  have start : s.AtFcs s 2 := .refl h 2
  refine ⟨(turns (m := 0) (by decide)).ok_forEach start, fun m hm hd => ?_⟩
  obtain ⟨u, hu, hbefore, hafter⟩ := (turns hm).turn start (List.mem_range.mpr hm) List.nodup_range
  rw [← hbefore.fc] at hd
  show ((s.forEach (List.range 32) (fun s m => s.fcDip 2 m)).fc 2 m).gate = _ ∧ _
  rw [State.dipFi, hafter.fc]
  exact fcDip_dark (hu.hasFc h (by decide) hm) hd

theorem dipFi_dark {k : Nat} (h : s.Inv) (hk : k < 3) (hd : s.FieldDark k) : s.dipFi.FieldDark k := by
  have kd : State.Kept ⟨0x20000008, s⟩ s.dipFi :=
    State.forEach_kept (.refl h) fun _ _ ht => State.fcDip_kept (.refl _) ht
  have ko : State.Only 0x20000008 s s.dipFi := kd.only
  have hfd : s.dipFi.fd k = s.fd k := by
    unfold State.fd
    rw [ko.fd0.resolve_right (by decide), ko.fd1.resolve_right (by decide), ko.fd2.resolve_right (by decide)]
  refine ⟨by rw [hfd]; exact hd.1, fun m hm => ?_⟩
  by_cases h2 : k = 2
  · subst h2
    exact (dipFi_turns h).2 m hm (hd.2 m hm)
  · have hm' := chanIx_lt hm
    have hfc : s.dipFi.fc k m = s.fc k m := by
      unfold State.fc fcNum
      rw [(dipFi_turns h).1.fcs _ (by omega)]
    rw [hfc]
    exact hd.2 m hm

/-- What follows FI's outputs: its channels' flags, the safe lines, and the commands that FI has not applied. -/
def State.tellFi (s : State) : State := ((s.flagAll 2 F.FCH_STATE_SUPPLY_LOST true).syncLines 1).dropDie 8 2

theorem loseFi_eq (s : State) : s.loseFi = if s.fdBit 2 F.FCH_DIE_STATUS_SUPPLY_LOST then s
    else (s.setShBit (R.FCH_DIE_STATUS 2) F.FCH_DIE_STATUS_SUPPLY_LOST true).dipFi.tellFi := rfl

theorem setLost_kept (h : s.Inv) :
    State.Kept ⟨0x8, s⟩ (s.setShBit (R.FCH_DIE_STATUS 2) F.FCH_DIE_STATUS_SUPPLY_LOST true) :=
  State.setShBit_kept (.refl _) (.refl h)

theorem loseFi_dark {k : Nat} (h : s.Inv) (hk : k < 3) (hd : s.FieldDark k) : s.loseFi.FieldDark k := by
  rw [loseFi_eq]
  split
  · exact hd
  · have ka := setLost_kept h
    have kb : State.Kept ⟨0x20000008, _⟩
        (s.setShBit (R.FCH_DIE_STATUS 2) F.FCH_DIE_STATUS_SUPPLY_LOST true).dipFi :=
      State.forEach_kept (.refl ka.inv) fun _ _ ht => State.fcDip_kept (.refl _) ht
    have kc : State.Kept ⟨0x14000000000000308, _⟩
        (s.setShBit (R.FCH_DIE_STATUS 2) F.FCH_DIE_STATUS_SUPPLY_LOST true).dipFi.tellFi :=
      State.dropDie_kept (.refl _) (State.syncLines_kept (Sub.of (.refl 0x14000000000000308) (by decide))
        (State.flagAll_kept (Sub.of (.refl 0x14000000000000308) (by decide)) (.refl kb.inv)))
    exact (dipFi_dark ka.inv hk (hd.kept ka (by unfold NoField; decide))).kept kc (by unfold NoField; decide)

/-- A register in which SUPPLY_LOST of FI shows beside FI's status: FCH_STATE of FI's channels, and the safe lines. -/
def ToldOfFi (a : Nat) (_ : Fld) : Prop := (∃ m < 32, a = R.FCH_STATE 2 m) ∨ ∃ d ≤ 2, a = R.FCH_SAFE d

theorem dipFi_regOnly (w : rfWf s.regs = true) : RegOnly ToldOfFi s s.dipFi := by
  refine .forEach (fun t m hm w => ?_) w
  have hm := List.mem_range.mp hm
  unfold State.fcDip
  extract_lets st
  split
  · have hset : RegOnly ToldOfFi t (t.setFSt 2 m oDIP) :=
      .setShFld w (by unfold R.FCH_STATE; omega) (by unfold Fld.ok; decide) (.inl ⟨m, hm, rfl⟩)
    exact hset.next fun w => .of rfl w
  · exact .refl w

theorem syncLines_regOnly (w : rfWf s.regs = true) {d : Nat} (hd : d ≤ 2) : RegOnly ToldOfFi s (s.syncLines d) :=
  .setShFld w (by unfold R.FCH_SAFE; omega) (by unfold Fld.ok; decide) (.inr ⟨d, hd, rfl⟩)

theorem flagFi_regOnly (w : rfWf s.regs = true) : RegOnly ToldOfFi s (s.flagAll 2 F.FCH_STATE_SUPPLY_LOST true) := by
  have hall : RegOnly ToldOfFi s (s.forEach (List.range (fcCount 2)) (fun s m =>
      let s := s.setFBit 2 m F.FCH_STATE_SUPPLY_LOST true
      s.setFBit 2 m F.FCH_STATE_VALID (s.validNow 2 m))) := by
    refine .forEach (fun t m hm w => ?_) w
    have hm : m < 32 := List.mem_range.mp hm
    have hset {u : State} {f : Fld} {b : Bool} (hf : Fld.ok f) (w : rfWf u.regs = true) :
        RegOnly ToldOfFi u (u.setFBit 2 m f b) :=
      .setShBit w (by unfold R.FCH_STATE; omega) hf (.inl ⟨m, hm, rfl⟩)
    exact (hset (by unfold Fld.ok; decide) w).next fun w => hset (by unfold Fld.ok; decide) w
  exact hall.next fun w => syncLines_regOnly w (Nat.le_refl 2)

/-- FI's outputs, its channels' flags and the safe lines, before the commands. -/
theorem tellLines_regOnly (w : rfWf s.regs = true) :
    RegOnly ToldOfFi s ((s.dipFi.flagAll 2 F.FCH_STATE_SUPPLY_LOST true).syncLines 1) :=
  ((dipFi_regOnly w).next fun w => flagFi_regOnly w).next fun w => syncLines_regOnly w (by decide)

theorem fiStatus_untold (f : Fld) : ¬ ToldOfFi (R.FCH_DIE_STATUS 2) f := by
  rintro (⟨m, hm, he⟩ | ⟨d, hd, he⟩)
  · unfold R.FCH_DIE_STATUS R.FCH_STATE at he
    omega
  · unfold R.FCH_DIE_STATUS R.FCH_SAFE at he
    omega

theorem dropDie_fiStatus (s : State) (b r : Nat) (f : Fld) : (s.dropDie b r).fdBit 2 f = s.fdBit 2 f := by
  have hread : (s.dropDie b r).shReg (R.FCH_DIE_STATUS 2) = s.shReg (R.FCH_DIE_STATUS 2) := by
    have h := Calm.dies.disposeAll s
      (((s.commits.filter (fun c => c.block == b && c.region == r)).map (fun c => c.lsns)).flatten) eDIE_UNREACHABLE
      (d := dUNDELIVERABLE) (by decide)
    exact h.get (k := regKey 0 (R.FCH_DIE_STATUS 2)) (by decide)
  exact congrArg (getF · f == 1) hread

/-- FI waits with SUPPLY_LOST. -/
theorem loseFi_lost (h : s.Inv) : s.loseFi.fdBit 2 F.FCH_DIE_STATUS_SUPPLY_LOST = true := by
  rw [loseFi_eq]
  split
  next hl => exact hl
  next =>
    have hok : Fld.ok F.FCH_DIE_STATUS_SUPPLY_LOST := by unfold Fld.ok; decide
    obtain ⟨hbit, -⟩ := setShBit_flags h.regs (sharedReg_fieldStatus 2 (by decide)) hok rfl
    unfold State.tellFi
    rw [dropDie_fiStatus]
    exact ((tellLines_regOnly (setLost_kept h).inv.regs).shBit (by decide) hok fun f hf =>
      absurd hf (fiStatus_untold f)).trans hbit

end

end Sys2Proof.Machine

namespace Sys2Proof.Machine

/-! ### The registers of a die that lost its state -/

theorem cellsGet_filter_none {p : RegCell → Bool} {k : Nat} (cs : List RegCell) (h : ∀ c, c.1 = k → p c = false) :
    cellsGet (cs.filter p) k = none := by
  induction cs with
  | nil => rfl
  | cons c cs ih =>
    cases hp : p c with
    | false => rwa [List.filter_cons_of_neg (by rw [hp]; decide)]
    | true =>
      rw [List.filter_cons_of_pos hp]
      have hne : c.1 ≠ k := fun he => by
        rw [h c he] at hp
        cases hp
      exact (if_neg hne).trans ih

theorem rfGet_rfReset_in (rf : List RegCell) {lo hi k : Nat} (h1 : lo ≤ k) (h2 : k < hi) :
    rfGet (rfReset rf lo hi) k = resetAt k := by
  unfold rfGet rfReset
  rw [cellsGet_filter_none]
  · rfl
  · rintro c rfl
    rw [decide_eq_true h1, decide_eq_true h2]
    rfl

theorem wipeDie_inside (s : State) {lo hi a : Nat} (h1 : lo ≤ a) (h2 : a < hi) :
    (s.wipeDie lo hi).dieReg a = resetAt (dieKey a) :=
  rfGet_rfReset_in s.regs (Nat.add_le_add_left h1 _) (Nat.add_lt_add_left h2 _)

theorem wipeDie_stays {s : State} {a : Nat} (lo hi : Nat) (h : s.dieReg a = resetAt (dieKey a)) :
    (s.wipeDie lo hi).dieReg a = resetAt (dieKey a) := by
  by_cases hin : lo ≤ a ∧ a < hi
  · exact wipeDie_inside s hin.1 hin.2
  · have hout : dieKey a < 2 * homeSpan + lo ∨ 2 * homeSpan + hi ≤ dieKey a := by
      unfold dieKey
      omega
    exact (rfGet_rfReset_ne _ _ _ _ hout).trans h

theorem wipeRanges_stays {s : State} {a : Nat} (rs : List (Nat × Nat)) (h : s.dieReg a = resetAt (dieKey a)) :
    (s.wipeRanges rs).dieReg a = resetAt (dieKey a) := by
  induction rs generalizing s with
  | nil => exact h
  | cons r rs ih => exact ih (wipeDie_stays _ _ h)

/-- A register of one of the ranges is at its reset value. -/
theorem wipeRanges_inside (s : State) {rs : List (Nat × Nat)} {rg : Nat × Nat} {a : Nat} (hr : rg ∈ rs) (h1 : rg.1 ≤ a)
    (h2 : a < rg.2) : (s.wipeRanges rs).dieReg a = resetAt (dieKey a) := by
  induction rs generalizing s with
  | nil => exact absurd hr List.not_mem_nil
  | cons r rs ih =>
    rcases List.mem_cons.mp hr with rfl | hr
    · exact wipeRanges_stays rs (wipeDie_inside s h1 h2)
    · exact ih _ hr

theorem dieRanges_lt (d : Die) : ∀ rg ∈ dieRanges d, rg.2 ≤ 2 ^ 32 := by
  cases d <;> decide

theorem shReg_of_shared {a : Nat} (ha : sharedReg a = true) (s : State) : s.shReg a = s.dieReg a :=
  congrArg (rfGet s.regs) (regKey_shared ha 0)

/-- The registers of a die are at their reset values, but for those that the always-on logic keeps. -/
theorem emptyDie_wiped {s : State} (h : s.Inv) (d : Die) {rg : Nat × Nat} (hr : rg ∈ dieRanges d) {a : Nat} (h1 : rg.1 ≤ a)
    (h2 : a < rg.2) (hn : a ∉ aonRegs) (ha : sharedReg a = true) : (s.emptyDie d).shReg a = resetAt (dieKey a) := by
  have hlt : a < 2 ^ 32 := by
    have := dieRanges_lt d rg hr
    omega
  have hi : ((s.dropWork d).restartDie d).Inv :=
    restartDie_inv (State.Kept.inv (φ := ⟨0x14000000001000308, s⟩) (State.dropWork_kept (.refl _) (.refl h))) d
  have hw : State.Kept ⟨0x8, _⟩ (((s.dropWork d).restartDie d).wipeRanges (dieRanges d)) :=
    State.wipeRanges_kept (.refl _) (.refl hi)
  have hread := (shReg_of_shared ha _).trans (wipeRanges_inside ((s.dropWork d).restartDie d) hr h1 h2)
  unfold State.emptyDie
  extract_lets t
  split
  · have haon : RegOnly (fun b _ => b ∈ aonRegs) t (t.forEach aonRegs (fun t b => t.setSh b (s.shReg b))) :=
      .forEach (fun u b hb w => .setSh w (by have := aonRegs_range hb; omega) hb) hw.inv.regs
    exact (haon.shReg hlt fun _ => hn).trans hread
  · exact hread

/-! ### What a die's loss makes of it -/

theorem restartDie_power (s : State) {k : Nat} (hk : k < 2) : s.restartDie (powerDie k) = s.restartPower k := by
  obtain rfl | rfl : k = 0 ∨ k = 1 := by omega
  · rfl
  · rfl

theorem restartDie_field (s : State) {k : Nat} (hk : k < 3) : s.restartDie (fieldDie k) = s.restartField k := by
  obtain rfl | rfl | rfl : k = 0 ∨ k = 1 ∨ k = 2 := by omega
  · rfl
  · rfl
  · rfl

theorem emptyDie_eq (s : State) {d : Die} (hd : d ≠ .CMN) :
    s.emptyDie d = ((s.dropWork d).restartDie d).wipeRanges (dieRanges d) := if_neg hd

section
variable {s : State} (h : s.Inv)
include h

theorem emptyDie_power {k : Nat} (hk : k < 2) : (s.emptyDie (powerDie k)).PowerDark k := by
  have hne : powerDie k ≠ .CMN := by
    unfold powerDie
    split <;> decide
  have hi : (s.dropWork (powerDie k)).Inv :=
    State.Kept.inv (φ := ⟨0x14000000001000308, s⟩) (State.dropWork_kept (.refl _) (.refl h))
  have hdark := restartPower_dark hi hk
  have hinv := restartDie_inv hi (powerDie k)
  rw [emptyDie_eq s hne]
  rw [restartDie_power _ hk] at hinv ⊢
  exact hdark.kept (State.wipeRanges_kept (.refl _) (.refl hinv))

theorem emptyDie_field {k : Nat} (hk : k < 3) : (s.emptyDie (fieldDie k)).FieldDark k := by
  have hne : fieldDie k ≠ .CMN := by
    unfold fieldDie
    split
    · decide
    · split <;> decide
  have hi : (s.dropWork (fieldDie k)).Inv :=
    State.Kept.inv (φ := ⟨0x14000000001000308, s⟩) (State.dropWork_kept (.refl _) (.refl h))
  have hdark := restartField_dark hi hk
  have hinv := restartDie_inv hi (fieldDie k)
  rw [emptyDie_eq s hne]
  rw [restartDie_field _ hk] at hinv ⊢
  have kw : State.Kept ⟨0x8, (s.dropWork (fieldDie k)).restartField k⟩ _ :=
    State.wipeRanges_kept (a1 := dieRanges (fieldDie k)) (.refl _) (.refl hinv)
  exact hdark.kept kw (by unfold NoField; decide)

end

/-- The record of a die that has lost its state: the configuration it had in force is saved for it (R275). -/
def State.lostRecord (s : State) (d : Die) (up : Bool) : DieRt :=
  { DieRt.reset with up := up, restarted := true, saved := if (s.die d).restarted then (s.die d).saved else s.dieConfig d }

/-- What follows a die's loss, or its start: the class of a power die's feeds, and SUPPLY_LOST of FI. -/
def State.afterLoss (s : State) (d : Die) (up : Bool) : State :=
  match d with
  | .P0 => if up then s.strapFeeds 0 else s
  | .P1 => if up then s.strapFeeds 1 else s
  | .FI => s.loseFi
  | _ => s

/-- A die loses its state, and is up again or not. -/
def State.restarted (s : State) (d : Die) (up : Bool) : State := ((s.emptyDie d).setDie d (s.lostRecord d up)).afterLoss d up

theorem dieDown_eq (s : State) (d : Die) : s.dieDown d = s.restarted d false := by
  unfold State.dieDown State.restarted
  rw [dieLose_eq]
  cases d <;> rfl

theorem dieFresh_eq (s : State) (d : Die) : s.dieFresh d = s.restarted d true := by
  have hf : s.dieFresh d = ((s.dieLose d).setDie d { (s.dieLose d).die d with up := true }).afterLoss d true := by
    cases d <;> rfl
  rw [hf, dieLose_eq, State.die_setDie, State.setDie_setDie]
  rfl

theorem afterLoss_kept {s : State} (h : s.Inv) (d : Die) (up : Bool) : State.Kept ⟨0x14000000020000308, s⟩ (s.afterLoss d up) := by
  have hsub : Sub 0x8 0x14000000020000308 := Sub.of (.refl _) (by decide)
  have hfeeds (k : Nat) : State.Kept ⟨0x14000000020000308, s⟩ (s.strapFeeds k) := State.strapFeeds_kept hsub (.refl h)
  cases d with
  | P0 => exact kept_ite (fun _ => hfeeds 0) fun _ => .refl h
  | P1 => exact kept_ite (fun _ => hfeeds 1) fun _ => .refl h
  | FI => exact State.loseFi_kept (.refl _) (.refl h)
  | F0 | F1 | CMN => exact .refl h

theorem afterLoss_power {s : State} (h : s.Inv) {k : Nat} (hk : k < 2) (up : Bool) (hd : s.PowerDark k) :
    (s.afterLoss (powerDie k) up).PowerDark k := by
  have hfeeds (j : Nat) : (if up then s.strapFeeds j else s).PowerDark k :=
    hd.kept (kept_ite (fun _ => State.strapFeeds_kept (.refl _) (.refl h)) fun _ => .refl h)
  obtain rfl | rfl : k = 0 ∨ k = 1 := by omega
  · exact hfeeds 0
  · exact hfeeds 1

theorem afterLoss_field {s : State} (h : s.Inv) {k : Nat} (hk : k < 3) (up : Bool) (hd : s.FieldDark k) :
    (s.afterLoss (fieldDie k) up).FieldDark k := by
  obtain rfl | rfl | rfl : k = 0 ∨ k = 1 ∨ k = 2 := by omega
  · exact hd
  · exact hd
  · exact loseFi_dark h hk hd

/-- What the lanes and the die keep of a loss (R275): the clauses of the statement. -/
def State.Lost (s t : State) (d : Die) : Prop :=
  (t.die d).restarted = true ∧ (t.die d).lastCycle = none ∧ (t.die d).highEpoch = none ∧
  (t.die d).saved = (if (s.die d).restarted then (s.die d).saved else s.dieConfig d) ∧
  (∀ k < 2, d = powerDie k → t.PowerDark k) ∧ (∀ k < 3, d = fieldDie k → t.FieldDark k) ∧
  (d = .FI → t.fdBit 2 F.FCH_DIE_STATUS_SUPPLY_LOST = true)

theorem lost_of_record {s t : State} {d : Die} {up : Bool} (hr : t.die d = s.lostRecord d up)
    (hp : ∀ k < 2, d = powerDie k → t.PowerDark k) (hf : ∀ k < 3, d = fieldDie k → t.FieldDark k)
    (hs : d = .FI → t.fdBit 2 F.FCH_DIE_STATUS_SUPPLY_LOST = true) : s.Lost t d := by
  unfold State.Lost
  rw [hr]
  exact ⟨rfl, rfl, rfl, rfl, hp, hf, hs⟩

section
variable {s : State} (h : s.Inv) (d : Die) (up : Bool)
include h

theorem restarted_record : (s.restarted d up).Inv ∧ (s.restarted d up).die d = s.lostRecord d up ∧
    ∀ e, e ≠ d → (s.restarted d up).die e = s.die e := by
  obtain ⟨hi, hdies, -⟩ := emptyDie_takes h d
  have k := afterLoss_kept (hi.setDie d (s.lostRecord d up)) d up
  have hdie := k.die (by unfold NoDies; decide)
  refine ⟨k.inv, (hdie d).trans (State.die_setDie ..), fun e he => ?_⟩
  exact (hdie e).trans ((State.die_setDie_ne he).trans (hdies e))

theorem restarted_lost : s.Lost (s.restarted d up) d := by
  have hi := (emptyDie_takes h d).1.setDie d (s.lostRecord d up)
  refine lost_of_record (restarted_record h d up).2.1 (fun k hk hd => ?_) (fun k hk hd => ?_) fun hd => ?_
  · subst hd
    exact afterLoss_power hi hk up ((setDie_dark _ _ _ k).1 (emptyDie_power h hk))
  · subst hd
    exact afterLoss_field hi hk up ((setDie_dark _ _ _ k).2 (emptyDie_field h hk))
  · subst hd
    exact loseFi_lost hi

omit h in
theorem setDie_shReg (s : State) (d : Die) (x : DieRt) (a : Nat) : (s.setDie d x).shReg a = s.shReg a := by
  cases d <;> rfl

/-- The registers of a die other than F1 and FI read their reset values, but for the always-on logic and the class of a power
die's feeds. -/
theorem restarted_wiped (hd : d = .P0 ∨ d = .P1 ∨ d = .F0 ∨ d = .CMN) {rg : Nat × Nat} (hr : rg ∈ dieRanges d) {a : Nat}
    (h1 : rg.1 ≤ a) (h2 : a < rg.2) (hn : a ∉ aonRegs) (ha : sharedReg a = true)
    (hf : ∀ f, 1 ≤ f → f ≤ 6 → a ≠ R.SUPC_FEED_CFG f) : (s.restarted d up).shReg a = resetAt (dieKey a) := by
  have hlt : a < 2 ^ 32 := by
    have := dieRanges_lt d rg hr
    omega
  have hi := (emptyDie_takes h d).1.setDie d (s.lostRecord d up)
  have hread := (setDie_shReg (s.emptyDie d) d (s.lostRecord d up) a).trans (emptyDie_wiped h d hr h1 h2 hn ha)
  have hfeeds {k : Nat} (hk : k < 2) : (((s.emptyDie d).setDie d (s.lostRecord d up)).strapFeeds k).shReg a =
      ((s.emptyDie d).setDie d (s.lostRecord d up)).shReg a := by
    refine (strapFeeds_sets hi hk).1.shReg hlt ?_
    rintro - ⟨f, hf', rfl⟩
    simp only [List.mem_cons, List.not_mem_nil, or_false] at hf'
    exact hf f (by omega) (by omega) rfl
  unfold State.restarted
  rcases hd with rfl | rfl | rfl | rfl
  · cases up with
    | false => exact hread
    | true => exact (hfeeds (by decide)).trans hread
  · cases up with
    | false => exact hread
    | true => exact (hfeeds (by decide)).trans hread
  · exact hread
  · exact hread

omit h in
theorem setDie_mod (s : State) (d : Die) (x : DieRt) : (s.setDie d x).mod_ = s.mod_ := by
  cases d <;> rfl

theorem emptyDie_mod : (s.emptyDie d).mod_ = s.mod_ := by
  have kl : State.Kept ⟨0x1623f4501ff03fb08, s⟩ (s.dieLose d) := State.dieLose_kept (.refl _) (.refl h)
  have ko : State.Only 0x1623f4501ff03fb08 s (s.dieLose d) := kl.only
  have hm := ko.mod_.resolve_right (by decide)
  rwa [dieLose_eq, setDie_mod] at hm

/-- The feeds of a power die that starts take the class of valid straps (R78). -/
theorem restarted_straps (hk : strapClass s.mod_.straps ≠ 3) {k f : Nat} (hk2 : k < 2) (h1 : 3 * k < f) (h2 : f ≤ 3 * k + 3) :
    (s.restarted (powerDie k) true).shFld (R.SUPC_FEED_CFG f) F.SUPC_FEED_CFG_CLASS = strapClass s.mod_.straps := by
  obtain ⟨u, hu⟩ : ∃ u, (s.emptyDie (powerDie k)).setDie (powerDie k) (s.lostRecord (powerDie k) true) = u := ⟨_, rfl⟩
  have hi : u.Inv := hu ▸ (emptyDie_takes h (powerDie k)).1.setDie (powerDie k) _
  have hm : u.mod_ = s.mod_ := by rw [← hu, setDie_mod, emptyDie_mod h]
  have hr : s.restarted (powerDie k) true = u.strapFeeds k := by
    unfold State.restarted
    rw [hu]
    obtain rfl | rfl : k = 0 ∨ k = 1 := by omega
    · rfl
    · rfl
  have hset := (strapFeeds_sets hi hk2).2
  rw [hm] at hset
  rw [hr]
  refine hset hk f ?_
  simp only [List.mem_cons, List.not_mem_nil, or_false]
  omega

end

/-- What no die's loss touches. -/
def State.KeptAside (s t : State) : Prop := t.laneE = s.laneE ∧ t.laneW = s.laneW ∧ t.mem = s.mem ∧ t.mod_ = s.mod_ ∧
  t.sessions = s.sessions ∧ t.pending = s.pending ∧ t.secE = s.secE ∧ t.secW = s.secW

theorem keptAside_of {s t : State} (k : State.Kept ⟨0x1623f4501ff03fb08, s⟩ t) : s.KeptAside t := by
  have ko : State.Only 0x1623f4501ff03fb08 s t := k.only
  exact ⟨ko.laneE.resolve_right (by decide), ko.laneW.resolve_right (by decide), ko.mem.resolve_right (by decide),
    ko.mod_.resolve_right (by decide), ko.sessions.resolve_right (by decide), k.pending, ko.secE.resolve_right (by decide),
    ko.secW.resolve_right (by decide)⟩

/-- The registers of a die read their reset values. -/
def State.Wiped (t : State) (d : Die) : Prop :=
  ∀ rg ∈ dieRanges d, ∀ a, rg.1 ≤ a → a < rg.2 → a ∉ aonRegs → sharedReg a = true →
    (∀ f, 1 ≤ f → f ≤ 6 → a ≠ R.SUPC_FEED_CFG f) → t.shReg a = resetAt (dieKey a)

section
variable {s : State} (h : s.Inv) {d : Die}
include h

theorem restarted_kept (d : Die) (up : Bool) : State.Kept ⟨0x1623f4501ff03fb08, s⟩ (s.restarted d up) := by
  cases up with
  | false => exact dieDown_eq s d ▸ State.dieDown_kept (.refl _) (.refl h)
  | true => exact dieFresh_eq s d ▸ State.dieFresh_kept (.refl _) (.refl h)

/-- The supply of a die other than F1 is gone. -/
theorem dieLoss_completes (hd : d ≠ .F1) : Completes (exec (.dieRestart d false) s) (fun t => (t.die d).up = false ∧ s.Lost t d ∧
    (d = .P0 ∨ d = .P1 ∨ d = .F0 ∨ d = .CMN → t.Wiped d) ∧ (d = .F1 → t.fi.up = false) ∧ s.KeptAside t ∧
    (∀ e, e ≠ d → d ≠ .F1 → t.die e = s.die e)) := by
  have hr : exec (.dieRestart d false) s = .next (s.restarted d false) := by
    rw [← dieDown_eq]
    cases d with
    | F1 => exact absurd rfl hd
    | P0 | P1 | F0 | FI | CMN => rfl
  obtain ⟨-, hrec, hother⟩ := restarted_record h d false
  exact ⟨_, hr, by rw [hrec]; rfl, restarted_lost h d false,
    fun hw rg hr a h1 h2 hn ha hf => restarted_wiped h d false hw hr h1 h2 hn ha hf, fun he => absurd he hd,
    keptAside_of (restarted_kept h d false), fun e he _ => hother e he⟩

/-- FI's loss leaves what F1 has lost. -/
theorem restartedFi_dark (hd : s.FieldDark 1) : (s.restarted .FI false).FieldDark 1 := by
  have kd : State.Kept ⟨0x14000000001000308, s⟩ (s.dropWork .FI) := State.dropWork_kept (.refl _) (.refl h)
  have hrest := restartFi_dark kd.inv (hd.kept kd (by unfold NoField; decide))
  have kw : State.Kept ⟨0x8, (s.dropWork .FI).restartField 2⟩
      (((s.dropWork .FI).restartField 2).wipeRanges (dieRanges .FI)) :=
    State.wipeRanges_kept (.refl _) (.refl (restartDie_inv kd.inv .FI))
  have hempty : (s.emptyDie .FI).FieldDark 1 := hrest.kept kw (by unfold NoField; decide)
  exact loseFi_dark ((emptyDie_takes h .FI).1.setDie .FI _) (by decide) ((setDie_dark _ .FI _ 1).2 hempty)

/-- The supply of F1 is gone, and FI's barrier with it. -/
theorem f1Loss_completes : Completes (exec (.dieRestart .F1 false) s) (fun t => (t.die .F1).up = false ∧ s.Lost t .F1 ∧
    (Die.F1 = .P0 ∨ Die.F1 = .P1 ∨ Die.F1 = .F0 ∨ Die.F1 = .CMN → t.Wiped .F1) ∧ (Die.F1 = .F1 → t.fi.up = false) ∧
    s.KeptAside t ∧ (∀ e, e ≠ .F1 → Die.F1 ≠ .F1 → t.die e = s.die e)) := by
  have hr : exec (.dieRestart .F1 false) s = .next ((s.restarted .F1 false).restarted .FI false) := by
    rw [← dieDown_eq, ← dieDown_eq]
    rfl
  obtain ⟨hi, hrec, -⟩ := restarted_record h .F1 false
  obtain ⟨-, hfi, hother⟩ := restarted_record hi .FI false
  have hrec : ((s.restarted .F1 false).restarted .FI false).die .F1 = s.lostRecord .F1 false := (hother .F1 nofun).trans hrec
  have kept : State.Kept ⟨0x1623f4501ff03fb08, s⟩ ((s.restarted .F1 false).restarted .FI false) := by
    rw [← dieDown_eq _ .FI]
    exact State.dieDown_kept (.refl _) (restarted_kept h .F1 false)
  obtain ⟨-, -, -, -, -, hfield, -⟩ := restarted_lost h .F1 false
  refine ⟨_, hr, by rw [hrec]; rfl, lost_of_record hrec (fun k _ hk => ?_) (fun k hk hd => ?_) nofun, nofun, fun _ => ?_,
    keptAside_of kept, fun _ _ hne => absurd rfl hne⟩
  · unfold powerDie at hk
    split at hk <;> cases hk
  · obtain rfl | rfl | rfl : k = 0 ∨ k = 1 ∨ k = 2 := by omega
    · cases hd
    · exact restartedFi_dark hi (hfield 1 hk hd)
    · cases hd
  · exact congrArg DieRt.up hfi

/-- The supply of a die other than FI returns to a powered, awake module. -/
theorem dieReturn_completes (hd : d ≠ .FI) (hon : s.mod_.poweredOn = true) (hsl : s.mod_.asleep = false) :
    Completes (exec (.dieRestart d true) s) (fun t => (t.die d).up = true ∧ s.Lost t d ∧
      (d = .P0 ∨ d = .P1 ∨ d = .F0 ∨ d = .CMN → t.Wiped d) ∧
      (strapClass s.mod_.straps ≠ 3 → ∀ k < 2, d = powerDie k → ∀ f, 3 * k < f → f ≤ 3 * k + 3 →
        t.shFld (R.SUPC_FEED_CFG f) F.SUPC_FEED_CFG_CLASS = strapClass s.mod_.straps) ∧
      s.KeptAside t ∧ (∀ e, e ≠ d → t.die e = s.die e)) := by
  have hr : exec (.dieRestart d true) s = .next (s.restarted d true) := by
    rw [← dieFresh_eq]
    refine (if_neg hd).trans ((if_pos rfl).trans (congrArg Host.Outcome.next (if_pos ?_)))
    rw [hon, hsl]
    rfl
  obtain ⟨-, hrec, hother⟩ := restarted_record h d true
  refine ⟨_, hr, by rw [hrec]; rfl, restarted_lost h d true,
    fun hw rg hr a h1 h2 hn ha hf => restarted_wiped h d true hw hr h1 h2 hn ha hf, fun hk k hk2 he f h1 h2 => ?_,
    keptAside_of (restarted_kept h d true), hother⟩
  subst he
  exact restarted_straps h hk hk2 h1 h2

theorem fiFresh_facts : (s.restarted .FI true).fi.up = true ∧ s.Lost (s.restarted .FI true) .FI ∧
    s.KeptAside (s.restarted .FI true) :=
  ⟨congrArg DieRt.up (restarted_record h .FI true).2.1, restarted_lost h .FI true, keptAside_of (restarted_kept h .FI true)⟩

theorem fiReturn_completes (hf : s.f1.up = true) (hon : s.mod_.poweredOn = true) (hsl : s.mod_.asleep = false) :
    Completes (exec (.dieRestart .FI true) s) (fun t => t.fi.up = true ∧ s.Lost t .FI ∧ s.KeptAside t) := by
  refine ⟨_, ?_, fiFresh_facts h⟩
  rw [← dieFresh_eq]
  refine congrArg Host.Outcome.next (if_pos ?_)
  rw [hf, hon, hsl]
  rfl

theorem barrierRestart_completes (hf : s.f1.up = true) (hc : s.fdBit 1 F.FCH_DIE_STATUS_SUPPLY_CUT = false) :
    Completes (exec .barrierRestart s) (fun t => t.fi.up = true ∧ s.Lost t .FI ∧ s.KeptAside t) := by
  refine ⟨_, ?_, fiFresh_facts h⟩
  rw [← dieFresh_eq]
  refine if_pos ?_
  rw [hf, hc]
  rfl

end

theorem dieReturn_unpowered {s : State} (d : Die) (h : s.mod_.poweredOn = false ∨ s.mod_.asleep = true) :
    exec (.dieRestart d true) s = .next s := by
  have hoff : (s.mod_.poweredOn && !s.mod_.asleep) = false := by
    rcases h with h | h <;> simp [h]
  by_cases hd : d = .FI
  · refine (if_pos hd).trans ((if_pos rfl).trans (congrArg Host.Outcome.next (if_neg ?_)))
    rw [Bool.and_assoc, hoff, Bool.and_false]
    decide
  · refine (if_neg hd).trans ((if_pos rfl).trans (congrArg Host.Outcome.next (if_neg ?_)))
    rw [hoff]
    decide

theorem fiReturn_idle {s : State} (h : s.f1.up = false) :
    exec (.dieRestart .FI true) s = .next s ∧ exec .barrierRestart s = .next s := by
  refine ⟨congrArg Host.Outcome.next (if_neg ?_), if_neg ?_⟩
  · rw [h]
    exact Bool.false_ne_true
  · rw [h]
    exact Bool.false_ne_true

end Sys2Proof.Machine

open Sys2Proof Sys2Proof.Machine in
/-- Settles O16, clause by clause: each switch, fail action and urgent command touches one output or channel at a time, and a
die's loss is `State.restarted`, of which every clause on lost, wiped and kept parts is a lemma. -/
theorem dieSwitchesAndRestarts : Obligations.DieSwitchesAndRestarts := by
  unfold Obligations.DieSwitchesAndRestarts
  refine ⟨fun s d x h hd hx hup => ⟨powerSwitch_idle hd hx hup, fun g hg => powerSwitch_completes h hd hx hup hg⟩,
    fun s d m h hd hm hup => ⟨fieldSwitch_idle hd hm hup, fun g hg => fieldSwitch_completes h hd hm hup hg⟩,
    fun s d p h hp hup hc => ⟨keepaliveTimeout_completes h hp hup hc, keepaliveTimeout_frozen hp⟩,
    fun s d h hd hup hf hka => powerFail_completes h hd hup hf hka,
    fun s d h hd hup hf hka => fieldFail_completes h hd hup hf hka,
    fun s d u h hd hup hu => urgentCommand_completes h hd hup hu, fun s d h => ?_,
    fun s d h hd hon hsl => dieReturn_completes h hd hon hsl, fun s d h => dieReturn_unpowered d h, fun s h => fiReturn_idle h,
    fun s h hf hon hsl => fiReturn_completes h hf hon hsl, fun s h hf hc => barrierRestart_completes h hf hc,
    fun s d l hd => clockLoss_completes s l hd, fun s l => rfl⟩
  by_cases hd : d = .F1
  · subst hd
    exact f1Loss_completes h
  · exact dieLoss_completes h hd

namespace Sys2Proof.Machine

/-! ### The entry to SLEEP with a lane whose reset is under way (O39) -/

-- The concrete states below are evaluated one at a time, on one thread: each evaluation waits for everything before it.
set_option Elab.async false

/-- Every enabled cove is asleep and the module enters SLEEP; lane W has no power, and lane E, whose power-on reset is under
way, is in state ACTIVE. -/
def sleepEntry : State :=
  let s := ((Tests.cov 4 2 0 7 0 true).setSh R.NMS_CFG 1).setShBit R.NMS_STATUS F.NMS_STATUS_MOD_ENTERING true
  { s with laneE := { s.laneE with resetting := some .por }, laneW := { s.laneW with powered := false } }

theorem sleepEntry_inv : sleepEntry.Inv := Tests.inv_of (by decide +kernel)

theorem sleepEntry_entering : sleepEntry.shBit R.NMS_STATUS F.NMS_STATUS_MOD_ENTERING = true := by decide +kernel

theorem sleepEntry_maySleep : sleepEntry.moduleMaySleep = true := by decide +kernel

theorem sleepEntry_powered : (sleepEntry.lane .E).powered = true := by decide +kernel

/-- The lanes are reset and without power, P0 and P1 are down, and FI has lost its state. -/
def State.sleepLanes (s : State) : State :=
  (((bothLanes.foldl (fun s l =>
      if (s.lane l).powered then
        let s := (s.parFlush l).laneReset l .por 0x01 0
        s.setLane l { s.lane l with powered := false, holdup := false }
      else s) s).dieDown .P0).dieDown .P1).dieLose .FI

/-- The Commons and the module are asleep. -/
def State.sleepModule (s : State) : State :=
  { s with cmn := { s.cmn with up := false }, mod_ := { s.mod_ with asleep := true, configured := false } }

/-- The state that the entry to SLEEP leads to, from FI's SUPPLY_LOST on. -/
def State.sleepRest (s : State) : State :=
  ((s.loseFi.fieldSleep 0).fieldSleep 1).sleepModule.setShBit R.NMS_STATUS F.NMS_STATUS_MOD_ENTERING false

theorem moduleSleep_eq {s : State} (he : s.shBit R.NMS_STATUS F.NMS_STATUS_MOD_ENTERING = true)
    (hm : s.moduleMaySleep = true) : exec .moduleSleep s = .next s.sleepLanes.sleepRest := by
  refine if_neg ?_
  rw [he, hm]
  decide

/-- A register other than FERRY_LANE. -/
def NotFerryLane (a : Nat) (_ : Fld) : Prop := a ≠ R.FERRY_LANE

theorem fieldSleep_regOnly {s : State} (w : rfWf s.regs = true) {d : Nat} (hd : d < 2) :
    RegOnly NotFerryLane s (s.fieldSleep d) := by
  refine .forEach (fun t m hm w => ?_) w
  have hm := fcIndex_lt hm
  split
  · exact .refl w
  · have hset : RegOnly NotFerryLane t (t.setFc d m { FcRt.reset with temp := (t.fc d m).temp }) := .of rfl w
    exact hset.next fun w => .setShFld w (by unfold R.FCH_STATE; omega) (by unfold Fld.ok; decide)
      (by unfold NotFerryLane R.FCH_STATE R.FERRY_LANE; omega)

theorem sleepBit_regOnly {s : State} (w : rfWf s.regs = true) :
    RegOnly NotFerryLane s (s.setShBit R.NMS_STATUS F.NMS_STATUS_MOD_ENTERING false) :=
  .setShBit w (by decide) (by unfold Fld.ok; decide) (by unfold NotFerryLane; decide)

theorem ferryLane_untold (f : Fld) : ¬ ToldOfFi R.FERRY_LANE f := by
  rintro (⟨m, hm, he⟩ | ⟨d, hd, he⟩)
  · unfold R.FERRY_LANE R.FCH_STATE at he
    omega
  · unfold R.FERRY_LANE R.FCH_SAFE at he
    omega

theorem dropDie_idle {s : State} (hc : s.commits = []) (b r : Nat) : (s.dropDie b r).regs = s.regs := by
  unfold State.dropDie
  rw [hc]
  rfl

/-- With no commit pending, SUPPLY_LOST of FI leaves the lanes' states. -/
theorem loseFi_regOnly {s : State} (h : s.Inv) (hc : s.commits = []) : RegOnly NotFerryLane s s.loseFi := by
  rw [loseFi_eq]
  split
  · exact .refl h.regs
  · have ka := setLost_kept h
    have hflag : RegOnly NotFerryLane s (s.setShBit (R.FCH_DIE_STATUS 2) F.FCH_DIE_STATUS_SUPPLY_LOST true) :=
      .setShBit h.regs (by decide) (by unfold Fld.ok; decide) (by unfold NotFerryLane; decide)
    generalize s.setShBit (R.FCH_DIE_STATUS 2) F.FCH_DIE_STATUS_SUPPLY_LOST true = t at *
    have htell : RegOnly NotFerryLane t ((t.dipFi.flagAll 2 F.FCH_STATE_SUPPLY_LOST true).syncLines 1) :=
      (tellLines_regOnly ka.inv.regs).mono fun a f ht he => ferryLane_untold f (he ▸ ht)
    have kc : State.Kept ⟨0x20000008, t⟩ ((t.dipFi.flagAll 2 F.FCH_STATE_SUPPLY_LOST true).syncLines 1) :=
      State.syncLines_kept (Sub.of (.refl 0x20000008) (by decide)) (State.flagAll_kept
        (Sub.of (.refl 0x20000008) (by decide)) (State.forEach_kept (.refl ka.inv) fun _ _ ht => State.fcDip_kept (.refl _) ht))
    have ko : State.Only 0x20000008 t _ := kc.only
    have koa : State.Only 0x8 s t := ka.only
    have hcommits := (ko.commits.resolve_right (by decide)).trans ((koa.commits.resolve_right (by decide)).trans hc)
    exact (hflag.next fun _ => htell).next fun w => .of (dropDie_idle hcommits 8 2) w

/-- The rest of the entry leaves the lanes' states. -/
theorem sleepRest_lst {s : State} (h : s.Inv) (hc : s.commits = []) (l : Lane) : s.sleepRest.lst l = s.lst l := by
  have h0 := (loseFi_regOnly h hc).next fun w => fieldSleep_regOnly w (d := 0) (by decide)
  have h1 := h0.next fun w => fieldSleep_regOnly w (d := 1) (by decide)
  have h2 : RegOnly NotFerryLane ((s.loseFi.fieldSleep 0).fieldSleep 1) ((s.loseFi.fieldSleep 0).fieldSleep 1).sleepModule :=
    .of rfl h1.wf
  have hrest : RegOnly NotFerryLane s s.sleepRest := (h1.next fun _ => h2).next sleepBit_regOnly
  exact hrest.fld l R.FERRY_LANE F.FERRY_LANE_OWN_STATE (by decide) (by unfold Fld.ok; decide) fun _ hne => absurd rfl hne

/-- The lanes' flush and reset, and the dies' losses, keep the invariant. -/
theorem sleepLanes_inv {s : State} (h : s.Inv) : s.sleepLanes.Inv := by
  have all {m : Nat} (hm : m < 2 ^ 80) : Sub m (2 ^ 80 - 1) := Sub.all hm
  have hlanes : State.Kept ⟨2 ^ 80 - 1, s⟩ (bothLanes.foldl (fun s l =>
      if (s.lane l).powered then
        let s := (s.parFlush l).laneReset l .por 0x01 0
        s.setLane l { s.lane l with powered := false, holdup := false }
      else s) s) := by
    refine kept_foldl (fun t l ht => kept_ite (fun _ => ?_) fun _ => ht) (.refl h)
    exact State.setLane_kept (all (by decide)) (State.laneReset_kept (all (by decide)) (State.parFlush_kept (all (by decide)) ht))
  exact State.Kept.inv (State.dieLose_kept (all (by decide)) (State.dieDown_kept (all (by decide))
    (State.dieDown_kept (all (by decide)) hlanes)))

theorem sleepLanes_active : sleepEntry.sleepLanes.commits = [] ∧ sleepEntry.sleepLanes.lst .E = stACTIVE := by
  decide +kernel

theorem sleepEntry_sleeps : exec .moduleSleep sleepEntry = .next sleepEntry.sleepLanes.sleepRest ∧
    sleepEntry.sleepLanes.sleepRest.lst .E = stACTIVE := by
  obtain ⟨hc, hl⟩ := sleepLanes_active
  exact ⟨moduleSleep_eq sleepEntry_entering sleepEntry_maySleep, (sleepRest_lst (sleepLanes_inv sleepEntry_inv) hc .E).trans hl⟩

end Sys2Proof.Machine

open Sys2Proof Sys2Proof.Machine in
/-- Refutes O39: the entry to SLEEP resets every powered lane at power-on level, and `State.laneReset` merges such a request
into a power-on reset under way: it sets MERGED and leaves the lane's state alone. In a state that meets the invariant, the
only hypothesis of the clause, lane E is in such a reset with OWN_STATE still ACTIVE, and ACTIVE it stays, where the statement
says RESET. The invariant does not tie `resetting` to OWN_STATE; the clause would need that tie as a hypothesis. -/
theorem not_freezeAndSleep : ¬ Obligations.FreezeAndSleep := by
  unfold Obligations.FreezeAndSleep
  rintro ⟨-, -, -, -, -, -, hsleep, -⟩
  obtain ⟨t, ht, -, -, -, -, -, -, -, hlanes, -⟩ := (hsleep _ sleepEntry_inv sleepEntry_entering).1 sleepEntry_maySleep
  obtain ⟨hruns, hactive⟩ := sleepEntry_sleeps
  rw [hruns] at ht
  obtain rfl := Host.Outcome.next.inj ht
  have hreset := ((hlanes .E).2 sleepEntry_powered).1
  rw [hactive] at hreset
  exact absurd hreset (by decide)

namespace Sys2Proof.Machine

/-! ### COMMONS_RESTART after one Elder's own request (O40) -/

-- The concrete states below are evaluated one at a time, on one thread: each evaluation waits for everything before it.
set_option Elab.async false

/-- The Commons is in its safe state, and lane W's Elder has asked for its restart by RSTC_CMN; lane E's has not. -/
def restartAsked : State :=
  Tests.wm (Tests.mm Tests.live (fun x => { x with cmnSafe := true })) (fun x => { x with cmnRestartAsked := true })

def restartReq : Req := Tests.req 0xD06 .smb0 []

theorem restartAsked_ready : Ready specCommonsRestart restartAsked restartReq := Tests.ready_of (by decide +kernel)

theorem restartAsked_voters : restartAsked.cmnVoters = [.E, .W] := by decide +kernel

/-- The state in which COMMONS_RESTART lets the Elders ask: the request is counted and kept. -/
def restartKept : State :=
  (restartAsked.count ((restartAsked.servedBy restartReq.lane).getD restartReq.lane) (R.SCSM_CNT 0)).keepReq 0x0D06 restartReq

/-- The accepted command lets every voting Elder ask in turn. -/
theorem restartAsked_runs :
    exec (.commonsRestart restartReq) restartAsked = .next (restartKept.cmnVoters.foldl State.cmnAsk restartKept) := by
  show execCommonsRestart restartReq restartAsked = _
  unfold execCommonsRestart
  exact if_neg (by decide +kernel)

/-- Lane E's ask starts the restart and clears both requests; lane W's, after it, sets its own again. -/
theorem restartAsked_again :
    ((restartKept.cmnVoters.foldl State.cmnAsk restartKept).lane .W).cmnRestartAsked = true := by decide +kernel

end Sys2Proof.Machine

open Sys2Proof Sys2Proof.Machine in
/-- Refutes O40: `State.cmnAsk` clears both lanes' requests when the last needed Elder asks, and COMMONS_RESTART lets the
Elders ask one after the other. Where lane W's Elder has asked by RSTC_CMN and lane E's has not, lane E's turn already starts
the restart, and lane W's turn sets its request again: a request stands while the Commons restarts, and the statement says
none does. -/
theorem not_resetCommands : ¬ Obligations.ResetCommands := by
  unfold Obligations.ResetCommands
  rintro ⟨-, -, -, -, -, -, hrestart, -⟩
  obtain ⟨t, ht, -, hnone⟩ := hrestart _ _ restartAsked_ready
  have hvoters : restartAsked.cmnVoters ≠ [] := by simp [restartAsked_voters]
  rw [restartAsked_runs] at ht
  obtain rfl := Host.Outcome.next.inj ht
  exact absurd restartAsked_again (by simp [(hnone hvoters).2 .W])

namespace Sys2Proof.Machine

/-! ### What shows the lanes' states (R70, R134) -/

theorem mode_lt (s : State) : s.mode < 2 ^ fldWidth F.FERRY_LANE_MODE := by
  unfold State.mode modeOf
  repeat' split
  all_goals decide

/-- A report of the mode shows it in both lanes, and sets their SAFE balls. -/
theorem syncMode_shown {s : State} (w : rfWf s.regs = true) (old : Nat) : (s.syncMode old).ModeShown := by
  have hmode : (s.syncMode old).mode = s.mode := by
    unfold State.mode
    rw [syncMode_lst w, syncMode_lst w]
  refine ⟨fun m => ?_, fun m => ?_⟩
  · rw [hmode]
    unfold State.syncMode
    extract_lets n s1 s2
    have h1 : s1.fld m R.FERRY_LANE F.FERRY_LANE_MODE = s.mode :=
      (State.fld_setFldBoth w m _ _ _ (by unfold Fld.ok; decide)).trans (Nat.mod_eq_of_lt (mode_lt s))
    have h2 : s2.fld m R.FERRY_LANE F.FERRY_LANE_MODE = s1.fld m R.FERRY_LANE F.FERRY_LANE_MODE := by
      unfold s2
      split
      · exact (RegOnly.setBitBoth (p := fun a _ => a = R.FERRY_STATUS) (State.setFldBoth_wf w) (by decide)
          (by unfold Fld.ok; decide) rfl).fld m _ _ (by decide) (by unfold Fld.ok; decide) fun _ h => absurd h (by decide)
      · rfl
    exact h2.trans h1
  · have hball : ((s.syncMode old).lane m).safeBall = (s.syncMode old).ball m :=
      congrArg LaneRt.safeBall (State.syncMode_lane s old m)
    rw [hball, State.ball, Bool.or_comm]
    rfl

theorem setLst_shown {s : State} (w : rfWf s.regs = true) (l : Lane) (v : Nat) : (s.setLst l v).ModeShown := by
  unfold State.setLst
  extract_lets old s1 s2
  refine syncMode_shown ?_ old
  unfold s2
  split
  · exact State.setFld_wf w
  · exact State.setBitF_wf (State.setFld_wf w)

/-- What is shown stays shown where nothing of the lanes changes. -/
theorem State.ModeShown.same {t u : State} (h : t.ModeShown) (hr : ∀ l, u.reg l R.FERRY_LANE = t.reg l R.FERRY_LANE)
    (hl : ∀ l, u.lane l = t.lane l) (hm : u.mod_ = t.mod_) : u.ModeShown := by
  have hf (l : Lane) (f : Fld) : u.fld l R.FERRY_LANE f = t.fld l R.FERRY_LANE f := by unfold State.fld; rw [hr]
  have hs (l : Lane) : u.lst l = t.lst l := hf l _
  have hmode : u.mode = t.mode := by unfold State.mode; rw [hs, hs]
  obtain ⟨h1, h2⟩ := h
  exact ⟨fun m => by rw [hf, hmode, h1], fun m => by rw [hl, hm, hs, h2]⟩

/-- A lane that leaves ACTIVE, or enters another state, holds no valid lease. -/
theorem leaseValid_setLst {s : State} (w : rfWf s.regs = true) (l : Lane) {v : Nat} (hv : v ≠ stACTIVE) :
    (s.setLst l v).leaseValid l = false := by
  unfold State.setLst
  extract_lets old s1 s2
  have h2 : s2.bit l R.FERRY_LANE F.FERRY_LANE_LEASE_VALID = false := by
    unfold s2
    rw [if_neg hv]
    exact State.bit_setBitF_self (State.setFld_wf w) _ _ _ _ (by unfold Fld.ok; decide) (by decide)
  have w2 : rfWf s2.regs = true := by
    unfold s2
    rw [if_neg hv]
    exact State.setBitF_wf (State.setFld_wf w)
  refine ((RegOnly.syncMode w2 old).bit l (by decide) (by unfold Fld.ok; decide) fun f hf => ?_).trans h2
  rcases hf with ⟨-, rfl⟩ | ⟨h, -⟩
  · unfold Fld.apart; decide
  · exact absurd h (by decide)

/-- The state of the lane itself, for a state code of Table 5.1. -/
theorem lst_setLst_of_lt {s : State} (w : rfWf s.regs = true) (l : Lane) {v : Nat} (hv : v < 8) : (s.setLst l v).lst l = v :=
  (lst_setLst w l v).trans (Nat.mod_eq_of_lt hv)

theorem State.setFld_regsBut (s : State) (l : Lane) (a : Nat) (f : Fld) (v : Nat) : s.RegsBut (bothKeys a) (s.setFld l a f v) :=
  fun _ hk => rfGet_rfPut_ne _ _ _ _ (ne_regKey_of_bothKeys hk).symm

theorem State.regs_syncSafe (s : State) : ((s.syncSafe .E).syncSafe .W).regs = s.regs := rfl

/-- The registers that a change of a lane's state may write. -/
def lstKeys : List Nat := bothKeys R.FERRY_LANE ++ bothKeys R.FERRY_STATUS

theorem syncMode_regsBut (s : State) (old : Nat) : s.RegsBut lstKeys (s.syncMode old) := by
  unfold State.syncMode
  extract_lets m s1 s2
  have h1 : s.RegsBut lstKeys s1 :=
    State.RegsBut.mono (setFldBoth_regsBut s R.FERRY_LANE _ m) fun k h => List.mem_append_left _ h
  have h2 : s.RegsBut lstKeys s2 := by
    unfold s2
    split
    · exact h1.trans (State.RegsBut.mono (setFldBoth_regsBut s1 R.FERRY_STATUS _ _) fun k h => List.mem_append_right _ h)
    · exact h1
  intro k hk
  exact (congrArg (rfGet · k) (State.regs_syncSafe s2)).trans (h2 k hk)

theorem setLst_regsBut (s : State) (l : Lane) (v : Nat) : s.RegsBut lstKeys (s.setLst l v) := by
  have put (t : State) (f : Fld) (n : Nat) : t.RegsBut lstKeys (t.setFld l R.FERRY_LANE f n) :=
    State.RegsBut.mono (State.setFld_regsBut t l R.FERRY_LANE f n) fun k h => List.mem_append_left _ h
  unfold State.setLst
  extract_lets old s1 s2
  have h2 : s.RegsBut lstKeys s2 := by
    unfold s2
    split
    · exact put _ _ _
    · exact (put _ _ _).trans (put _ _ _)
  exact h2.trans (syncMode_regsBut s2 old)

/-! ### An accepted command's own entry -/

/-- The entry of a ledger number has begun and not ended. -/
def State.Begun (s : State) (n : Nat) : Prop := ∃ e, s.entry n = some e ∧ e.live = true

theorem State.Begun.of_led {s t : State} {n : Nat} (h : s.Begun n) (ht : t.led = s.led) : t.Begun n := by
  unfold State.Begun State.entry at *
  rwa [ht]

theorem State.Begun.dispose {s : State} {n : Nat} (h : s.Begun n) (d err : Nat) : (s.dispose n d err).Ends n d err := by
  obtain ⟨e, he, hl⟩ := h
  obtain ⟨x, hx, hst, hd, herr⟩ := dispose_disposes s n d err e he hl
  exact ⟨x, hx, by rw [LEntry.live, hst]; rfl, hd, herr⟩

/-- The command interface has entered a ready command, and its work begins. -/
theorem started_begun {c : CmdSpec} {s : State} {r : Req} (hi : s.Inv) (hb : ∀ t q, c.before t q = t) :
    ((entered c s r).begin s.led.nextLsn).Begun s.led.nextLsn := by
  obtain ⟨e, hes, hst, hlsn, -⟩ := started_entries (c := c) (r := r) hi hb
  refine ⟨e, ?_, by rw [LEntry.live, hst]; rfl⟩
  have hnone : s.led.entries.find? (fun x => x.lsn == s.led.nextLsn) = none := by
    refine List.find?_eq_none.mpr fun x hx => ?_
    have := hi.led.1 x.lsn (List.mem_map.mpr ⟨x, hx, rfl⟩)
    simp only [beq_iff_eq]
    omega
  unfold State.entry
  rw [hes, List.find?_append, hnone]
  simp [hlsn]

theorem respond_led {s : State} (hi : s.Inv) (r : Req) (st lsn : Nat) (d : List Byte) : (s.respond r st lsn d).led = s.led :=
  (State.respond_kept (φ := ⟨0x6000d8, s⟩) (Sub.refl _) (.refl hi)).only.led.resolve_right
    (show ¬ Nat.testBit 0x6000d8 8 = true by decide)

/-- The answer to a command leaves the disposition of its entry. -/
theorem answerAccepted_ends {c : CmdSpec} {s : State} {r : Req} {n d err : Nat} (hi : s.Inv) (h : s.Ends n d err) :
    (answerAccepted c s r n).Ends n d err := by
  obtain ⟨x, hx, hl, hd, herr⟩ := h
  have same {t : State} (ht : t.led = s.led) : t.Ends n d err :=
    ⟨x, by unfold State.entry at *; rwa [Option.mem_def, ht], hl, hd, herr⟩
  unfold answerAccepted
  split
  · next e he =>
    obtain rfl : e = x := by rw [Option.mem_def, he] at hx; exact Option.some.inj hx
    split
    · extract_lets data s1 ds s2 s3
      have hk1 : s1.Inv :=
        (State.mapEntry_kept (φ := ⟨0x100, s⟩) (f := fun e => { e with st := .reported }) (Sub.refl _) (.refl hi) (fun _ => rfl)).inv
      have hm : Sub 0x108 0x108 := .refl _
      have hk2 : s3.Inv := (State.syncQuota_kept (φ := ⟨0x108, s1⟩) (Sub.of hm (by decide))
        (State.syncLedg_kept (Sub.of hm (by decide))
          (State.setLed_kept (Sub.of hm (by decide)) (.refl hk1) (Ledger.Fresh.same hk1.led)))).inv
      have hm : s1.entry n = some { e with st := .reported } := by
        rw [State.entry_mapEntry s n (f := fun e => { e with st := .reported }) (fun _ => rfl), he]
        rfl
      refine ⟨{ e with st := .reported }, ?_, rfl, hd, herr⟩
      unfold State.entry at hm ⊢
      rw [respond_led hk2, syncQuota_led, syncLedg_led]
      exact hm
    · exact same (respond_led hi _ _ _ _)
  · exact same (respond_led hi _ _ _ _)

/-- A ready accepted command: its own work on a state that the command interface alone has changed and in which its entry
has begun, and what follows, which leaves the disposition of that entry. -/
theorem Ready.begun {c : CmdSpec} {s : State} {r : Req} {P : State → Prop} (h : Ready c s r) (ha : c.accepted = true)
    (hb : ∀ t q, c.before t q = t) (hk : ∀ u : State, CmdSpec.Kept ⟨2 ^ 80 - 1, u⟩ c)
    (hP : ∀ u q t, u.Inv → State.Served s u → s.RegsAside u → Req.Same q r → u.Begun s.led.nextLsn →
      State.Served (c.exec u q s.led.nextLsn) t → (c.exec u q s.led.nextLsn).RegsAside t →
      (∀ d err, (c.exec u q s.led.nextLsn).Ends s.led.nextLsn d err → t.Ends s.led.nextLsn d err) → P t) :
    Completes (runScs c r s) P := by
  have hi := h.1
  have hu := started_kept (c := c) (r := r) hi hb
  have hv := ((hk _).exec _ (taken s r).2 s.led.nextLsn (State.Kept.refl hu.inv)).inv
  refine h.exactly ha hb (hP _ _ _ hu.inv (.of_kept (hu.weaken (Sub.of (Sub.refl _) (by decide)))) (started_regs hb)
    (taken_same s r) (started_begun hi hb) (.of_kept (answerAccepted_after hv)) (fun l a hx => ?_)
    fun d err he => answerAccepted_ends hv he)
  exact answerAccepted_reg (by rw [taken_src]; exact h.2.1) hx

end Sys2Proof.Machine

namespace Sys2Proof.Machine

/-! ### A lane's change of state by a command (Table 5.2) -/

/-- A change of a lane's state writes registers, and the records of the lanes. -/
theorem setLst_only {s : State} (hi : s.Inv) (l : Lane) (v : Nat) : State.Kept ⟨0x180008, s⟩ (s.setLst l v) :=
  State.setLst_kept (Sub.refl _) (.refl hi)

theorem setLst_reg {s : State} (w : rfWf s.regs = true) (l k : Lane) (v : Nat) {a : Nat} (ha : a < 2 ^ 32)
    (h : a ∉ [R.FERRY_LANE, R.FERRY_STATUS]) : (s.setLst l v).reg k a = s.reg k a := by
  refine (RegOnly.setLst w l v).reg k a ha fun f hf => h ?_
  rcases hf with rfl | ⟨rfl, -⟩ <;> simp

theorem setLst_far {s : State} (w : rfWf s.regs = true) (l : Lane) (v : Nat) :
    State.FarBut [R.FERRY_LANE, R.FERRY_STATUS] s (s.setLst l v) :=
  fun k _ ha hn => setLst_reg w l k v ha.1.1 hn

theorem far_ferryLane : Far R.FERRY_LANE := by unfold Far Aside; decide

/-- What a command's last step, the end of an entry, and its answer leave. -/
theorem ended_after {v t : State} {n d err : Nat} (hd : d < 0x10000) (hs : (v.dispose n d err).Served t)
    (hr : (v.dispose n d err).RegsAside t) : v.Ended t ∧ ∀ ks, State.FarBut ks v t :=
  ⟨(State.dispose_ended v n d err).trans hs.ended, fun ks => (State.dispose_far ks v n d err hd).trans hr.farBut⟩

/-- What shows the lanes' states is not changed by the end of an entry and by an answer. -/
theorem State.ModeShown.ended {v t : State} (h : v.ModeShown) (he : v.Ended t) (hf : ∀ ks, State.FarBut ks v t) :
    t.ModeShown :=
  h.same (fun l => hf [] l _ far_ferryLane (by simp)) (fun l => by cases l; exacts [he.laneE, he.laneW]) he.mod_

theorem lst_of_far {v t : State} (hf : ∀ ks, State.FarBut ks v t) (l : Lane) : t.lst l = v.lst l :=
  (hf []).fld l far_ferryLane _

theorem leaseValid_of_far {v t : State} (hf : ∀ ks, State.FarBut ks v t) (l : Lane) : t.leaseValid l = v.leaseValid l :=
  (hf []).bit l far_ferryLane _

/-- The command interface has changed nothing that shows the lanes' states. -/
theorem State.ModeShown.aside {v t : State} (h : v.ModeShown) (hs : v.Served t) (hr : v.RegsAside t) : t.ModeShown :=
  h.ended hs.ended fun _ => hr.farBut

/-- The lane that a payload's LANE names. -/
theorem laneSel_eq {q r : Req} {l : Lane} (hq : Req.Same q r) (h : r.u8 0 = 1 + l.ix) : laneSel q = some l := by
  unfold laneSel
  rw [hq.u8, h]
  cases l <;> rfl

/-- Where a command's work changes the ferry's run state alone, so does the command, beside the command interface. -/
theorem served_ferry {s u t : State} {f : FerryRt} (hu : s.Served u) (ht : State.Served { u with ferry := f } t) :
    s.Served { t with ferry := s.ferry } ∧ t.ferry = f := by
  refine ⟨?_, ht.ferry⟩
  obtain ⟨_, _, _, _, _, _, _, rfl⟩ := hu.parts
  obtain ⟨_, _, _, _, _, _, _, rfl⟩ := ht.parts
  exact State.Served.of_parts

/-- A ready command whose work changes the ferry's run state alone. -/
theorem Ready.ferry {c : CmdSpec} {s : State} {r : Req} {P : State → Prop} (h : Ready c s r) (ha : c.accepted = true)
    (hb : ∀ t q, c.before t q = t) (hk : ∀ u : State, CmdSpec.Kept ⟨2 ^ 80 - 1, u⟩ c) {F : FerryRt}
    (he : ∀ u q, s.RegsAside u → u.ferry = s.ferry → Req.Same q r → c.exec u q s.led.nextLsn = { u with ferry := F })
    (hP : ∀ t, s.RegsAside t → s.Served { t with ferry := s.ferry } → t.ferry = F → P t) :
    Completes (runScs c r s) P := by
  refine h.begun ha hb hk fun u q t _ hs hreg hq _ ht haside _ => ?_
  rw [he u q hreg hs.ferry hq] at ht haside
  obtain ⟨hserved, hferry⟩ := served_ferry hs ht
  exact hP t ((hreg.trans (.of_regs rfl)).trans haside) hserved hferry

section
variable {s : State} {r : Req}

/-! ### The queries -/

theorem ferryStatus_told (h : Ready specFerryStatus s r) : Completes (exec (.ferryStatus r) s) (fun t => s.Told r t (fun d =>
    d.length = 24 ∧ wordAt d 0 = s.reg .E R.FERRY_LANE ∧ wordAt d 4 = s.reg .W R.FERRY_LANE ∧
    wordAt d 8 = s.reg (s.server r) R.FERRY_STATUS ∧ wordAt d 12 = s.reg (s.server r) R.FERRY_EPOCH ∧
    wordAt d 16 = s.reg (s.server r) R.FERRY_CYCLE ∧ wordAt d 20 = s.reg (s.server r) R.FERRY_ARB)) := by
  have hreg (l : Lane) {a : Nat} (ha : Aside a) : (taken s r).1.reg l a = s.reg l a := taken_reg ha
  refine h.told rfl (fun _ _ => rfl) ?_
  dsimp only [specFerryStatus]
  rw [taken_server, hreg _ (by unfold Aside; decide), hreg _ (by unfold Aside; decide), hreg _ (by unfold Aside; decide),
    hreg _ (by unfold Aside; decide), hreg _ (by unfold Aside; decide), hreg _ (by unfold Aside; decide)]
  simp only [List.append_assoc]
  refine ⟨rfl, wordAt_cons _ _, ?_, ?_, ?_, ?_, ?_⟩
  · rw [wordAt_cons_add _ _ 0, wordAt_cons]
  · rw [wordAt_cons_add _ _ 4, wordAt_cons_add _ _ 0, wordAt_cons]
  · rw [wordAt_cons_add _ _ 8, wordAt_cons_add _ _ 4, wordAt_cons_add _ _ 0, wordAt_cons]
  · rw [wordAt_cons_add _ _ 12, wordAt_cons_add _ _ 8, wordAt_cons_add _ _ 4, wordAt_cons_add _ _ 0, wordAt_cons]
  · rw [wordAt_cons_add _ _ 16, wordAt_cons_add _ _ 12, wordAt_cons_add _ _ 8, wordAt_cons_add _ _ 4,
      wordAt_cons_add _ _ 0, wordAt_wordBytes]

theorem discrepancyLog_told (h : Ready specDiscrepancyLog s r) : Completes (exec (.discrepancyLog r) s) (fun t =>
    s.Told r t (fun d => d.length = 16 ∧ wordAt d 0 = s.reg (s.server r) R.FERRY_DISC_LOG0 ∧
      wordAt d 4 = s.reg (s.server r) R.FERRY_DISC_LOG1 ∧ wordAt d 8 = s.reg (s.server r) (R.FERRY_CNT 0) ∧
      wordAt d 12 = s.reg (s.server r) (R.FERRY_CNT 1))) := by
  have hreg (l : Lane) {a : Nat} (ha : Aside a) : (taken s r).1.reg l a = s.reg l a := taken_reg ha
  refine h.told rfl (fun _ _ => rfl) ?_
  dsimp only [specDiscrepancyLog]
  rw [taken_server, hreg _ (by unfold Aside; decide), hreg _ (by unfold Aside; decide), List.append_assoc]
  refine ⟨by simp [wordBytes_length, regBytes_length], wordAt_cons _ _, ?_, ?_, ?_⟩
  · rw [wordAt_cons_add _ _ 0, wordAt_cons]
  · rw [wordAt_cons_add _ _ 4, wordAt_cons_add _ _ 0]
    exact (wordAt_regBytes _ _ _ (k := 0) (by decide)).trans (hreg _ (by unfold Aside; decide))
  · rw [wordAt_cons_add _ _ 8, wordAt_cons_add _ _ 4]
    exact (wordAt_regBytes _ _ _ (k := 1) (by decide)).trans (hreg _ (by unfold Aside; decide))

/-! ### FERRY_CONFIG -/

theorem addCommit_pends {t : State} {b g : Nat} {l : Lane} {ws : List RegCell} {lsns : List Nat} {x : RegCell}
    (hx : x ∈ ws) (hn : (ws.map Prod.fst).Nodup) : (t.addCommit b g l ws lsns false).Pends l b g x :=
  ⟨_, List.mem_append_right _ (List.mem_singleton.mpr rfl), rfl, rfl, rfl,
    cellsGet_merge _ _ _ _ hx fun _ hw => cells_unique hn hx hw⟩

/-- A lane-local configuration waits in both lanes, and the holder's copy carries the entry. -/
theorem commitLocal_both (u : State) {b g n : Nat} {ws : List RegCell} {x : RegCell} (hx : x ∈ ws)
    (hn : (ws.map Prod.fst).Nodup) : (u.commitLocal b g ws n).CarriesAt (u.holderOr .E) b g n x ∧
      (u.commitLocal b g ws n).Pends (u.holderOr .E).other b g x := by
  unfold State.commitLocal
  extract_lets h v
  refine ⟨State.addCommit_carriesAt (List.mem_singleton.mpr rfl) hx fun _ hw => cells_unique hn hx hw, ?_⟩
  obtain ⟨c, hc, hlane, hblock, hregion, hget⟩ := addCommit_pends (t := v) (b := b) (g := g) (l := h.other) (lsns := []) hx hn
  refine ⟨c, List.mem_append_left _ (List.mem_filter.mpr ⟨hc, ?_⟩), hlane, hblock, hregion, hget⟩
  have : h.other ≠ h := by cases h <;> decide
  simp [Commit.isAt, hlane, this]

theorem ferryConfig_stages (h : Ready specFerryConfig s r) : Completes (exec (.ferryConfig r) s) (fun t => s.Stages t ∧
    ∀ w ∈ [((R.FERRY_CFG, BitVec.ofNat 32 (r.u16 0 + 2 ^ 16 * (r.u8 2 - 1))) : RegCell),
      (R.FERRY_PHASE_CFG, BitVec.ofNat 32 (r.u32 4 - 1 + 2 ^ 16 * r.u8 3))],
      t.CarriesAt (s.holderOr .E) 3 0 s.led.nextLsn w ∧ t.Pends (s.holderOr .E).other 3 0 w) := by
  refine h.stages rfl (fun _ _ => rfl) (fun _ => specFerryConfig_kept (Sub.refl _)) (fun _ _ => commitLocal_aside) ?_
  intro u q t hreg _ hq hc w hw
  have hcells : w ∈ [((R.FERRY_CFG, BitVec.ofNat 32 (q.u16 0 + 0x10000 * (q.u8 2 - 1))) : RegCell),
      (R.FERRY_PHASE_CFG, BitVec.ofNat 32 (q.u32 4 - 1 + 0x10000 * q.u8 3))] := by rw [hq.u16, hq.u8, hq.u32, hq.u8]; exact hw
  obtain ⟨hcarries, c, hmem, hpends⟩ := commitLocal_both u (b := 3) (g := 0) (n := s.led.nextLsn) hcells (by simp; decide)
  rw [hreg.holderOr] at hcarries hpends
  exact ⟨hcarries.of_commits hc, c, hc ▸ hmem, hpends⟩

/-! ### HANDOVER, QUIET_ENTER and LANE_PHASE -/

theorem handover_waits (h : Ready specHandover s r) : Completes (exec (.handover r) s) (fun t =>
    s.RegsAside t ∧ s.Served { t with ferry := s.ferry } ∧
    t.ferry = { s.ferry with handover := t.ferry.handover,
                             handoverLsns := s.ferry.handoverLsns ++ [(s.led.nextLsn, s.holderOr .E)] } ∧
    t.ferry.handover.isSome = true ∧ (s.ferry.handover = none → t.ferry.handover = some .command)) := by
  refine h.ferry rfl (fun _ _ => rfl) (fun _ => specHandover_kept (Sub.all (by decide)))
    (F := { s.ferry with handover := s.ferry.handover.orElse (fun _ => some .command),
                         handoverLsns := s.ferry.handoverLsns ++ [(s.led.nextLsn, s.holderOr .E)] }) ?_ ?_
  · intro u q hreg hf _
    simp only [specHandover, hf, hreg.holderOr]
  · intro t haside hserved hf
    rw [hf]
    refine ⟨haside, hserved, rfl, ?_, fun hn => by simp only [hn]; rfl⟩
    cases s.ferry.handover <;> rfl

theorem quietEnter_names {l : Lane} (h : Ready specQuietEnter s r) (hl : r.u8 0 = 1 + l.ix) :
    Completes (exec (.quietEnter r) s) (fun t => s.RegsAside t ∧ s.Served { t with ferry := s.ferry } ∧
      t.ferry = { s.ferry with quietStay := some l, quietLsn := some s.led.nextLsn }) :=
  h.ferry rfl (fun _ _ => rfl) (fun _ => specQuietEnter_kept (Sub.all (by decide)))
    (fun u q _ hf hq => by simp only [specQuietEnter, hf, laneSel_eq hq hl])
    fun _ haside hserved hf => ⟨haside, hserved, hf⟩

theorem lanePhase_shown (h : Ready specLanePhase s r) : Completes (exec (.lanePhase r) s) (fun t =>
    (s.FarBut [R.FERRY_LANE] t ∧ t.Ends s.led.nextLsn dDONE 0) ∧ s.Ended t ∧
    ∀ l, t.fld l R.FERRY_LANE F.FERRY_LANE_PHASE = r.u8 0 ∧ t.lst l = s.lst l) := by
  have hparam : 1 ≤ r.u8 0 ∧ r.u8 0 ≤ 3 := by
    have := passes_param h.2.2.1
    simpa [specLanePhase, taken_u8] using this
  refine h.begun rfl (fun _ _ => rfl) (fun _ => specLanePhase_kept (Sub.all (by decide))) ?_
  intro u q t hi hs hreg hq hbegun ht haside hends
  have hok : Fld.ok F.FERRY_LANE_PHASE := by unfold Fld.ok; decide
  let v := u.setFldBoth R.FERRY_LANE F.FERRY_LANE_PHASE (q.u8 0)
  have hv : specLanePhase.exec u q s.led.nextLsn = v.dispose s.led.nextLsn dDONE 0 := rfl
  rw [hv] at ht haside hends
  have hvb : v.Begun s.led.nextLsn := hbegun.of_led ((State.setFld_led ..).trans (State.setFld_led ..))
  obtain ⟨hended, hfar⟩ := ended_after (by decide) ht haside
  refine ⟨⟨((hreg.farBut).trans (.setFldBoth (by decide) (by simp))).trans (hfar _), hends _ _ (hvb.dispose _ _)⟩,
    (hs.ended.trans (State.setFldBoth_served ..).ended).trans hended, fun l => ⟨?_, ?_⟩⟩
  · rw [(hfar []).fld l far_ferryLane]
    refine (State.fld_setFldBoth hi.regs l _ _ _ hok).trans ?_
    rw [hq.u8]
    exact Nat.mod_eq_of_lt (show r.u8 0 < 4 by omega)
  · rw [lst_of_far hfar, ← hreg.lst]
    exact (RegOnly.setFldBoth (p := fun _ f => f = F.FERRY_LANE_PHASE) hi.regs (by decide) hok rfl).fld l _ _ (by decide)
      (by unfold Fld.ok; decide) fun f hf => by subst hf; unfold Fld.apart; decide

end

end Sys2Proof.Machine

namespace Sys2Proof.Machine

/-! ### LANE_DISQUALIFY, LANE_REQUALIFY and LANE_RESYNC -/

theorem lane_ne_other (l : Lane) : l ≠ l.other := by cases l <;> decide

/-- A change of a lane's state leaves the ledger, the arbiter, the ferry's run state and the module's. -/
theorem setLst_rest {s : State} (hi : s.Inv) (l : Lane) (v : Nat) : (s.setLst l v).led = s.led ∧ (s.setLst l v).arb = s.arb ∧
    (s.setLst l v).ferry = s.ferry ∧ (s.setLst l v).mod_ = s.mod_ := by
  have h := (setLst_only hi l v).only
  exact ⟨h.led.resolve_right (show ¬ Nat.testBit 0x180008 8 = true by decide),
    h.arb.resolve_right (show ¬ Nat.testBit 0x180008 17 = true by decide),
    h.ferry.resolve_right (show ¬ Nat.testBit 0x180008 18 = true by decide),
    h.mod_.resolve_right (show ¬ Nat.testBit 0x180008 23 = true by decide)⟩

/-- The arbiter sees DOWN of a lane. -/
def State.down (s : State) (l : Lane) : Bool :=
  match l with
  | .E => s.arb.downE
  | .W => s.arb.downW

/-- A lane has changed to a state other than ACTIVE, and the entry of the command that moved it has ended. -/
structure State.Moved (s t : State) (l : Lane) (x n : Nat) : Prop where
  own : t.lst l = x
  other : t.lst l.other = s.lst l.other
  lease : t.leaseValid l = false
  shown : t.ModeShown
  far : s.FarBut [R.FERRY_LANE, R.FERRY_STATUS] t
  ends : t.Ends n dDONE 0

theorem moved_of_done {s u t : State} {l : Lane} {x n : Nat} (hi : u.Inv) (hreg : s.RegsAside u) (hb : u.Begun n) (hx : x < 8)
    (hne : x ≠ stACTIVE) (ht : ((u.setLst l x).done n).Served t) (haside : ((u.setLst l x).done n).RegsAside t)
    (hends : ∀ d err, ((u.setLst l x).done n).Ends n d err → t.Ends n d err) :
    s.Moved t l x n ∧ (u.setLst l x).Ended t := by
  have w := hi.regs
  obtain ⟨hended, hfar⟩ := ended_after (by decide) ht haside
  have hled := (setLst_rest hi l x).1
  refine ⟨⟨?_, ?_, ?_, (setLst_shown w l x).ended hended hfar, (hreg.farBut.trans (setLst_far w l x)).trans (hfar _),
    hends _ _ ((hb.of_led hled).dispose _ _)⟩, hended⟩
  · rw [lst_of_far hfar, lst_setLst_of_lt w l hx]
  · rw [lst_of_far hfar, lst_setLst_ne w (lane_ne_other l), hreg.lst]
  · rw [leaseValid_of_far hfar, leaseValid_setLst w l hne]

theorem toDisq_active {s : State} {l : Lane} (n : Option Nat) (h : s.lst l = stACTIVE) :
    s.toDisq l n = { s with ferry := { s.ferry with disq := s.ferry.disq ++ [(l, n)] } } := if_pos h

theorem toDisq_reset {s : State} {l : Lane} (n : Nat) (h : s.lst l = stRESET) :
    s.toDisq l (some n) = s.dispose n dUNDELIVERABLE eLANE_ABSENT := by
  unfold State.toDisq
  rw [if_neg (by rw [h]; decide), if_pos h]
  rfl

theorem toDisq_bars {s : State} {l : Lane} (n : Nat) (ha : s.lst l ≠ stACTIVE) (hr : s.lst l ≠ stRESET) :
    s.toDisq l (some n) = (s.setLst l stDISQUALIFIED).done n := by
  unfold State.toDisq
  rw [if_neg ha, if_neg hr]
  rfl

section
variable {s : State} {r : Req} {l : Lane}

theorem laneDisqualify_exec {u : State} {q : Req} {n : Nat} (hq : Req.Same q r) (hl : r.u8 0 = 1 + l.ix) :
    specLaneDisqualify.exec u q n = u.toDisq l (some n) := by
  simp only [specLaneDisqualify, laneSel_eq hq hl]

theorem laneDisqualify_active (h : Ready specLaneDisqualify s r) (hl : r.u8 0 = 1 + l.ix) (ha : s.lst l = stACTIVE) :
    Completes (exec (.laneDisqualify r) s) (fun t => s.RegsAside t ∧ s.Served { t with ferry := s.ferry } ∧
      t.ferry = { s.ferry with disq := s.ferry.disq ++ [(l, some s.led.nextLsn)] }) :=
  h.ferry rfl (fun _ _ => rfl) (fun _ => specLaneDisqualify_kept (Sub.all (by decide)))
    (fun u q hreg hf hq => by rw [laneDisqualify_exec hq hl, toDisq_active _ ((hreg.lst l).trans ha), hf])
    fun _ haside hserved hf => ⟨haside, hserved, hf⟩

theorem laneDisqualify_absent (h : Ready specLaneDisqualify s r) (hl : r.u8 0 = 1 + l.ix) (ha : s.lst l = stRESET) :
    Completes (exec (.laneDisqualify r) s) (fun t =>
      s.FarBut [] t ∧ t.Ends s.led.nextLsn dUNDELIVERABLE eLANE_ABSENT) := by
  refine h.begun rfl (fun _ _ => rfl) (fun _ => specLaneDisqualify_kept (Sub.all (by decide))) ?_
  intro u q t _ _ hreg hq hbegun ht haside hends
  rw [laneDisqualify_exec hq hl, toDisq_reset _ ((hreg.lst l).trans ha)] at ht haside hends
  exact ⟨hreg.farBut.trans ((ended_after (by decide) ht haside).2 _), hends _ _ (hbegun.dispose _ _)⟩

theorem laneDisqualify_bars (h : Ready specLaneDisqualify s r) (hl : r.u8 0 = 1 + l.ix) (ha : s.lst l ≠ stACTIVE)
    (hr : s.lst l ≠ stRESET) :
    Completes (exec (.laneDisqualify r) s) (fun t => s.Moved t l stDISQUALIFIED s.led.nextLsn) := by
  refine h.begun rfl (fun _ _ => rfl) (fun _ => specLaneDisqualify_kept (Sub.all (by decide))) ?_
  intro u q t hi _ hreg hq hbegun ht haside hends
  rw [laneDisqualify_exec hq hl, toDisq_bars _ (hreg.lst l ▸ ha) (hreg.lst l ▸ hr)] at ht haside hends
  exact (moved_of_done hi hreg hbegun (by decide) (by decide) ht haside hends).1

theorem taken_aside (s : State) (r : Req) : s.RegsAside (taken s r).1 := fun _ _ h => taken_reg h

theorem State.RegsAside.qualified {t : State} (h : s.RegsAside t) (l : Lane) : t.qualified l = s.qualified l := by
  have hb {a : Nat} (ha : Aside a) (f : Fld) : t.bit l a f = s.bit l a f := by
    unfold State.bit
    rw [h.fld l ha]
  unfold State.qualified State.clockBad State.lstepBad State.bench State.lifecycle
  rw [hb (by unfold Aside; decide), hb (by unfold Aside; decide), hb (by unfold Aside; decide), hb (by unfold Aside; decide),
    h.fld l (by unfold Aside; decide)]

theorem State.RegsAside.requalifies {t : State} (h : s.RegsAside t) (l : Lane) : t.requalifies l = s.requalifies l := by
  unfold State.requalifies
  rw [h.lst, h.qualified]

theorem releaseDown_same (u : State) (l : Lane) : (u.releaseDown l).regs = u.regs ∧ (u.releaseDown l).led = u.led ∧
    (u.releaseDown l).down l = false := by
  cases l <;> exact ⟨rfl, rfl, rfl⟩

theorem laneRequalify_moves (h : Ready specLaneRequalify s r) (hl : r.u8 0 = 1 + l.ix) :
    Completes (exec (.laneRequalify r) s) (fun t => s.Moved t l stUNSYNC s.led.nextLsn ∧
      t.down l = false) := by
  have hok : s.requalifies l = true := by
    have := passes_stateOk h.2.2.1
    simp only [specLaneRequalify, laneSel_eq (taken_same s r) hl] at this
    rwa [(taken_aside s r).requalifies] at this
  refine h.begun rfl (fun _ _ => rfl) (fun _ => specLaneRequalify_kept (Sub.all (by decide))) ?_
  intro u q t hi _ hreg hq hbegun ht haside hends
  have hexec : specLaneRequalify.exec u q s.led.nextLsn = ((u.releaseDown l).setLst l stUNSYNC).done s.led.nextLsn := by
    simp only [specLaneRequalify, laneSel_eq hq hl]
    rw [if_pos ((hreg.requalifies l).trans hok)]
  rw [hexec] at ht haside hends
  obtain ⟨hregs, hled, hdown⟩ := releaseDown_same u l
  have hi' : (u.releaseDown l).Inv := (State.releaseDown_kept (φ := ⟨0x20000, u⟩) (Sub.refl _) (.refl hi)).inv
  obtain ⟨hmoved, hended⟩ := moved_of_done hi' (hreg.trans (.of_regs hregs)) (hbegun.of_led hled) (by decide) (by decide)
    ht haside hends
  have harb : t.arb = (u.releaseDown l).arb := hended.arb.trans (setLst_rest hi' l _).2.1
  refine ⟨hmoved, ?_⟩
  unfold State.down at hdown ⊢
  rwa [harb]

theorem lst_setLst_unsync {s : State} (w : rfWf s.regs = true) (l : Lane) : (s.setLst l stUNSYNC).lst l = 2 := by
  have h : stUNSYNC < 8 := by decide
  exact lst_setLst_of_lt w l h

theorem regs_withFerry (s : State) (f : FerryRt) : State.regs { s with ferry := f } = s.regs := rfl

theorem State.ModeShown.withFerry {s : State} (h : s.ModeShown) (f : FerryRt) : State.ModeShown { s with ferry := f } :=
  h.same (fun _ => rfl) (fun l => by cases l <;> rfl) rfl

theorem laneResync_moves (h : Ready specLaneResync s r) (hl : r.u8 0 = 1 + l.ix) :
    Completes (exec (.laneResync r) s) (fun t => t.lst l = 2 ∧ t.lst l.other = s.lst l.other ∧ t.ModeShown ∧
      s.AsideBut [R.FERRY_LANE, R.FERRY_STATUS] t ∧
      t.ferry = { s.ferry with resyncLsns := s.ferry.resyncLsns ++ [(s.led.nextLsn, l)] }) := by
  have hok : s.lst l = stSTANDBY := by
    have := passes_stateOk h.2.2.1
    simp only [specLaneResync, laneSel_eq (taken_same s r) hl, Bool.and_eq_true, beq_iff_eq] at this
    rw [← (taken_aside s r).lst, this.2]
  refine h.begun rfl (fun _ _ => rfl) (fun _ => specLaneResync_kept (Sub.all (by decide))) ?_
  intro u q t hi hs hreg hq _ ht haside _
  have w := hi.regs
  let v := u.setLst l stUNSYNC
  have hexec : specLaneResync.exec u q s.led.nextLsn =
      { v with ferry := { v.ferry with resyncLsns := v.ferry.resyncLsns ++ [(s.led.nextLsn, l)] } } := by
    simp only [specLaneResync, laneSel_eq hq hl]
    rw [if_pos ((hreg.lst l).trans hok)]
  have hferry : v.ferry = s.ferry := (setLst_rest hi l _).2.2.1.trans hs.ferry
  rw [hexec, hferry] at ht haside
  have hv (f : FerryRt) : v.RegsAside { v with ferry := f } := .of_regs (regs_withFerry v f)
  have hvt : v.RegsAside t := (hv _).trans haside
  refine ⟨?_, ?_, ?_, fun k a ha hn => ?_, ht.ferry⟩
  · exact (hvt.lst l).trans (lst_setLst_unsync w l)
  · rw [hvt.lst, lst_setLst_ne w (lane_ne_other l), hreg.lst]
  · exact ((setLst_shown w l stUNSYNC).withFerry _).aside ht haside
  · rw [hvt k a ha, setLst_reg w l k _ ha.1 hn, hreg k a ha]

end

/-! ### QUIET_LEAVE (R171) -/

section
variable {s : State}

theorem porRelease_kept_parts (h : s.Inv) (l : Lane) (straps : Nat) : (s.porRelease l straps).ferry = s.ferry ∧
    ((s.porRelease l straps).lane l).powered = true ∧ ((s.porRelease l straps).lane l).resetting = some .por ∧
    (s.porRelease l straps).lane l.other = s.lane l.other := by
  obtain ⟨-, -, hpow, -, -, -, -, -, -, hother⟩ := porRelease_releases h l straps
  obtain ⟨hi, -, -, hlane, -⟩ := porTaken_takes h l straps
  have hk : State.Kept ⟨0x8, s.porTaken l straps⟩ (s.porRelease l straps) := by
    rw [porRelease_eq]
    exact State.showStraps_kept (.refl _) (strapDies_kept (.refl _) (.refl hi))
  refine ⟨(State.porRelease_kept (φ := ⟨0x980008, s⟩) (.refl _) (.refl h)).only.ferry.resolve_right
    (show ¬ Nat.testBit 0x980008 18 = true by decide), hpow, ?_, hother⟩
  rw [hk.lane (by decide) l, hlane]

/-- The end of QUIET: the lane that stayed leaves retention, and the held one is released where RESET_N is high and the module
is not asleep. -/
theorem leaveQuiet_leaves (h : s.Inv) {q : Lane} (hq : s.ferry.quietStay = some q) :
    s.leaveQuiet.ferry = { s.ferry with quietStay := none, quietWake := false, quietLeave := some q.other } ∧
    (s.leaveQuiet.lane q).retention = [] ∧ (s.leaveQuiet.lane q).memSelfRefresh = false ∧
    (s.mod_.resetN = false → s.mod_.asleep = false →
      (s.leaveQuiet.lane q.other).powered = true ∧ (s.leaveQuiet.lane q.other).resetting = some .por) := by
  let u := ({ s with ferry := { s.ferry with quietStay := none, quietWake := false, quietLeave := some q.other } }).setLane q
    { s.lane q with retention := [], memSelfRefresh := false }
  have hferry : u.ferry = { s.ferry with quietStay := none, quietWake := false, quietLeave := some q.other } := by
    cases q <;> rfl
  have hmod : u.mod_ = s.mod_ := by cases q <;> rfl
  have hlane : u.lane q = { s.lane q with retention := [], memSelfRefresh := false } := State.lane_setLane _ _ _
  have hi : u.Inv := setLane_inv (s := { s with ferry := _ }) h.like q _
  have hdown : u.heldDown q.other = s.mod_.resetN := by
    unfold State.heldDown State.quietOn
    rw [hferry, hmod]
    simp
  have heq : s.leaveQuiet = if (s.mod_.resetN || s.mod_.asleep) = true then u else u.porRelease q.other s.mod_.straps := by
    unfold State.leaveQuiet
    rw [hq]
    show (if (u.heldDown q.other || u.mod_.asleep) = true then u else u.porRelease q.other u.mod_.straps) = _
    rw [hdown, hmod]
  rw [heq]
  split
  next hheld =>
    refine ⟨hferry, by rw [hlane], by rw [hlane], fun h1 h2 => ?_⟩
    rw [h1, h2] at hheld
    cases hheld
  next =>
    obtain ⟨hf, hpow, hres, hother⟩ := porRelease_kept_parts hi q.other s.mod_.straps
    have hq' : q.other.other = q := by cases q <;> rfl
    rw [hq', hlane] at hother
    exact ⟨hf.trans hferry, by rw [hother], by rw [hother], fun _ _ => ⟨hpow, hres⟩⟩

theorem quietLeave_waits {r : Req} (h : Ready specQuietLeave s r) (hq : s.quietOn = false) :
    Completes (exec (.quietLeave r) s) (fun t => s.RegsAside t ∧ s.Served { t with ferry := s.ferry } ∧
      t.ferry = { s.ferry with quietLeaveLsns := s.ferry.quietLeaveLsns ++ [s.led.nextLsn] }) := by
  refine h.ferry rfl (fun _ _ => rfl) (fun _ => specQuietLeave_kept (Sub.all (by decide))) (fun u q _ hf _ => ?_)
    fun _ haside hserved hf => ⟨haside, hserved, hf⟩
  have hoff : u.quietOn = false := by
    unfold State.quietOn at hq ⊢
    rwa [hf]
  show (if u.quietOn = true then _ else _) = _
  rw [if_neg (by simp [hoff]), hf]

theorem quietLeave_leaves {r : Req} (h : Ready specQuietLeave s r) (hon : s.quietOn = true) {q : Lane}
    (hq : s.ferry.quietStay = some q) : Completes (exec (.quietLeave r) s) (fun t =>
      t.ferry = { s.ferry with quietStay := none, quietWake := false, quietLeave := some q.other,
                               quietLeaveLsns := s.ferry.quietLeaveLsns ++ [s.led.nextLsn] } ∧
      t.quietOn = false ∧ (t.lane q).retention = [] ∧ (t.lane q).memSelfRefresh = false ∧
      (s.mod_.resetN = false → s.mod_.asleep = false →
        (t.lane q.other).powered = true ∧ (t.lane q.other).resetting = some .por)) := by
  refine h.begun rfl (fun _ _ => rfl) (fun _ => specQuietLeave_kept (Sub.all (by decide))) ?_
  intro u p t hi hs _ _ _ ht _ _
  let v := { u with ferry := { s.ferry with quietLeaveLsns := s.ferry.quietLeaveLsns ++ [s.led.nextLsn] } }
  have hexec : specQuietLeave.exec u p s.led.nextLsn = v.leaveQuiet := by
    have hf := hs.ferry
    have hon' : u.quietOn = true := by
      unfold State.quietOn at hon ⊢
      rwa [hf]
    show (if u.quietOn = true then _ else _) = _
    rw [if_pos hon', hf]
  rw [hexec] at ht
  have hlane (k : Lane) : t.lane k = v.leaveQuiet.lane k := State.lane_congr ht.laneE ht.laneW k
  obtain ⟨hferry, hret, hself, hpow⟩ := leaveQuiet_leaves (s := v) hi.like hq
  have hmod : v.mod_ = s.mod_ := hs.mod_
  rw [hmod] at hpow
  refine ⟨ht.ferry.trans hferry, ?_, by rw [hlane, hret], by rw [hlane, hself], fun h1 h2 => ?_⟩
  · unfold State.quietOn
    rw [ht.ferry, hferry]
    rfl
  · rw [hlane]
    exact hpow h1 h2

/-! ### FERRY_CTRL -/

theorem ferryCtrlOk_elder {v : Word} (h : getF v F.FERRY_CTRL_KEY = 0x5EA1) : ferryCtrlOk .elder v = true := by
  unfold ferryCtrlOk
  rw [h]
  rfl

/-- A write of another initiator than the Elder, or without the key, is ignored. -/
theorem ferryCtrl_ignored {who : Initiator} {v : Word} (l : Lane)
    (h : who ≠ .elder ∨ getF v F.FERRY_CTRL_KEY ≠ 0x5EA1) :
    exec (.ferryCtrlRequest l who v) s = .next { s with bus := .ok 0 } ∧
    exec (.ferryCtrlRelease l who v) s = .next { s with bus := .ok 0 } ∧
    exec (.ferryCtrlResync l who v) s = .next { s with bus := .ok 0 } := by
  have hno : ferryCtrlOk who v = false := by
    unfold ferryCtrlOk
    rcases h with h | h
    · rw [beq_false_of_ne h, Bool.false_and]
    · rw [beq_false_of_ne h, Bool.and_false]
  show execFerryCtrlRequest l who v s = _ ∧ execFerryCtrlRelease l who v s = _ ∧ execFerryCtrlResync l who v s = _
  unfold execFerryCtrlRequest execFerryCtrlRelease execFerryCtrlResync
  rw [hno]
  exact ⟨rfl, rfl, rfl⟩

theorem ferryCtrl_requests {v : Word} (l : Lane) (hk : getF v F.FERRY_CTRL_KEY = 0x5EA1)
    (hv : getF v F.FERRY_CTRL_REQUEST = 1) : exec (.ferryCtrlRequest l .elder v) s = .next { s with
      outbox := if s.mayRequest l then s.outbox ++ [.request l (s.reg l R.FERRY_EPOCH).toNat] else s.outbox, bus := .ok 0 } := by
  show execFerryCtrlRequest l .elder v s = _
  unfold execFerryCtrlRequest State.sendRequest
  rw [ferryCtrlOk_elder hk, hv]
  cases hm : s.mayRequest l <;> rfl

theorem ferryCtrl_releases {v : Word} (l : Lane) (hk : getF v F.FERRY_CTRL_KEY = 0x5EA1)
    (hv : getF v F.FERRY_CTRL_RELEASE = 1) : Completes (exec (.ferryCtrlRelease l .elder v) s) (fun t =>
      t = { s with ferry := { s.ferry with handover := t.ferry.handover }, bus := .ok 0 } ∧
      (s.lst l ≠ 5 → t.ferry.handover = s.ferry.handover) ∧
      (s.lst l = 5 → t.ferry.handover = if s.ferry.handover = none then some .control else s.ferry.handover)) := by
  show Completes (execFerryCtrlRelease l .elder v s) _
  unfold execFerryCtrlRelease
  rw [ferryCtrlOk_elder hk, hv]
  by_cases hl : s.lst l = stACTIVE
  · refine ⟨_, congrArg _ (if_pos (by rw [hl]; rfl)), rfl, fun h => absurd hl h, fun _ => ?_⟩
    show s.ferry.handover.orElse _ = _
    cases s.ferry.handover <;> rfl
  · exact ⟨_, congrArg _ (if_neg (by simpa using hl)), rfl, fun _ => rfl, fun h => absurd h hl⟩

theorem ferryCtrl_resync_else {v : Word} {l : Lane} (hl : s.lst l ≠ 4) :
    exec (.ferryCtrlResync l .elder v) s = .next { s with bus := .ok 0 } := by
  show execFerryCtrlResync l .elder v s = _
  unfold execFerryCtrlResync
  rw [show (s.lst l == stSTANDBY) = false from beq_false_of_ne hl, Bool.and_false]
  rfl

theorem State.ModeShown.busOk {s : State} (h : s.ModeShown) : (s.busOk 0).ModeShown :=
  h.same (fun _ => rfl) (fun l => by cases l <;> rfl) rfl

theorem busOk_keeps_move {u : State} {l : Lane} {n : Nat} {ks : List Nat} (hown : u.lst l = 2) (hother : u.lst l.other = n)
    (hshown : u.ModeShown) (hregs : s.RegsBut ks u) : (u.busOk 0).lst l = 2 ∧ (u.busOk 0).lst l.other = n ∧
      (u.busOk 0).ModeShown ∧ (u.busOk 0).bus = .ok 0 ∧ s.RegsBut ks (u.busOk 0) :=
  ⟨hown, hother, hshown.busOk, rfl, hregs⟩

theorem ferryCtrlResync_passes {v : Word} {l : Lane} (hk : getF v F.FERRY_CTRL_KEY = 0x5EA1)
    (hv : getF v F.FERRY_CTRL_RESYNC = 1) (hl : s.lst l = 4) :
    (ferryCtrlOk .elder v && getF v F.FERRY_CTRL_RESYNC == 1 && s.lst l == stSTANDBY) = true := by
  rw [ferryCtrlOk_elder hk, hv, hl]
  rfl

theorem ferryCtrlResync_exec {v : Word} {l : Lane} (hk : getF v F.FERRY_CTRL_KEY = 0x5EA1)
    (hv : getF v F.FERRY_CTRL_RESYNC = 1) (hl : s.lst l = 4) :
    exec (.ferryCtrlResync l .elder v) s = .next ((s.setLst l stUNSYNC).busOk 0) := by
  show execFerryCtrlResync l .elder v s = _
  unfold execFerryCtrlResync
  rw [if_pos (ferryCtrlResync_passes hk hv hl)]

theorem ferryCtrl_resyncs (hi : s.Inv) {v : Word} {l : Lane} (hk : getF v F.FERRY_CTRL_KEY = 0x5EA1)
    (hv : getF v F.FERRY_CTRL_RESYNC = 1) (hl : s.lst l = 4) : Completes (exec (.ferryCtrlResync l .elder v) s) (fun t =>
      t.lst l = 2 ∧ t.lst l.other = s.lst l.other ∧ t.ModeShown ∧ t.bus = .ok 0 ∧
      s.RegsBut (bothKeys R.FERRY_LANE ++ bothKeys R.FERRY_STATUS) t) :=
  ⟨_, ferryCtrlResync_exec hk hv hl, busOk_keeps_move (lst_setLst_unsync hi.regs l) (lst_setLst_ne hi.regs (lane_ne_other l) stUNSYNC)
    (setLst_shown hi.regs l stUNSYNC) (setLst_regsBut s l stUNSYNC)⟩

end

end Sys2Proof.Machine

open Sys2Proof Sys2Proof.Machine in
/-- Settles O49, command by command: the queries answer from registers that the command interface leaves; a command that waits
for a boundary changes the ferry's run state alone (`Ready.ferry`); one that moves a lane at once is `State.setLst` and the end
of its entry (`moved_of_done`). -/
theorem ferryCommands : Obligations.FerryCommands := by
  unfold Obligations.FerryCommands
  refine ⟨fun s r h => ferryStatus_told h, fun s r h => ferryConfig_stages h, fun s r h => handover_waits h,
    fun s r h => lanePhase_shown h, fun s r l h hl => ⟨laneDisqualify_active h hl, laneDisqualify_absent h hl, fun ha hr => ?_⟩,
    fun s r l h hl => ?_, fun s r l h hl => laneResync_moves h hl, fun s r h => discrepancyLog_told h,
    fun s r l h hl => quietEnter_names h hl, fun s r h => ⟨quietLeave_waits h, fun hon q hq => quietLeave_leaves h hon hq⟩,
    fun s l who v _ hoff => ferryCtrl_ignored l hoff,
    fun s l v hi hk => ⟨ferryCtrl_requests l hk, ferryCtrl_releases l hk,
      fun hv => ⟨ferryCtrl_resync_else, ferryCtrl_resyncs hi hk hv⟩⟩⟩
  · obtain ⟨t, ht, hm⟩ := laneDisqualify_bars h hl ha hr
    exact ⟨t, ht, hm.own, hm.other, hm.lease, hm.shown, hm.far, hm.ends⟩
  · obtain ⟨t, ht, hm, hdown⟩ := laneRequalify_moves h hl
    exact ⟨t, ht, hm.own, hm.other, hdown, hm.shown, hm.far, hm.ends⟩
